-- ==== Sys2Proof/Word.lean ====
section
/-!
DEFINITION. The word types of the Ahnior engine and their plainest arithmetic.
R5: bit 0 is the least significant bit; the engine's own structures are little-endian.
-/

namespace Sys2Proof

/-- One byte of a memory structure or of a byte string (R5). -/
abbrev Byte := BitVec 8

/-- One 64-bit word of the register window (R481). -/
abbrev Word := BitVec 64

/-- A byte string, lowest address first. -/
abbrev Bytes := List Byte

end Sys2Proof
end

