-- ==== Sys2Proof/Syntax.lean ====
section
/-!
DEFINITION. The commands of the block: one constructor of `Instr` for each row of spec/opcode_table.json.
The table gives the rows no bits; a command's operands are what the sender of the command chooses or what a unit
outside the engine answers (a master's identity and data, host memory's read data, a monitor's measurement). An operand with a default
says what is seldom so: an error of a memory, another happening in the same control cycle.
-/

namespace Sys2Proof

/-- The world of an access (R2, R42). -/
inductive World where
  | secure
  | nonsecure
  deriving DecidableEq, Repr

/-- What the host chip's interconnect says of the master of a register access: master ID, world (R2) and the
debug flag (R375). -/
structure Who where
  mid   : BitVec 8
  world : World
  dbg   : Bool
  deriving DecidableEq, Repr

/-- Two accesses come from one master: the same ID and the same world (R2). -/
def Who.isMaster (a b : Who) : Bool := decide (a.mid = b.mid) && decide (a.world = b.world)

/-- The width of a register access (R14). -/
inductive AccSize where
  | b8
  | b16
  | b32
  | b64
  deriving DecidableEq, Repr

/-- The answer of the host interconnect or of the switch to a read of the engine: the data, or a bus error (R432). -/
inductive Resp where
  | ok (data : Bytes)
  | err
  deriving DecidableEq, Repr

/-- The outcome of the check of a memory word as it is read (R431). -/
inductive Ecc where
  | clean
  | corrected
  | uncorrectable
  deriving DecidableEq, Repr

/-- What makes a chain sequencer fail (R429, R431): two missed step intervals, an uncorrectable error of its registers, or one of a word of
patch RAM that it executes, in one of the mirrored copies (which is repaired from the other) or in both. -/
inductive CsError where
  | missed
  | registers
  | patchOne
  | patchBoth
  deriving DecidableEq, Repr

/-- A tenant number (R6). -/
abbrev TenantIx := Fin 16
/-- A ring number of a tenant (R6). -/
abbrev RingIx := Fin 16
/-- A data channel number (R301). -/
abbrev ChanIx := Fin 64
/-- A tile index under R483: 0-15 cipher, 16-19 digest, 20-23 public-key. -/
abbrev TileIx := Fin 24
/-- A chain sequencer number (R16). -/
abbrev CsIx := Fin 12

/-- The direction of an access (R441). -/
inductive Dir where
  | read
  | write
  deriving DecidableEq, Repr

/-- The source of an access of the engine (R483), with the number that the source's kind gives it. A request is
named by its admission order, and for an access on the frame port by the FRAME reference too. -/
inductive Src where
  | request (id : Nat) (frame : Option (Fin 8) := none)
  | ring (n : TenantIx) (m : RingIx)
  | channel (k : ChanIx) (prefetch : Bool) (merged : Bool)
  | record (n : TenantIx) (m : RingIx) (second : Bool) (id : Nat)
  | rescue (n : TenantIx) (m : RingIx)
  | boot
  | image
  | notice
  deriving DecidableEq, Repr

/-- A unit that `AH_OWN_GATE` names (R394). -/
inductive GateUnit where
  | tile (t : TileIx)
  | dcu
  | fp
  deriving DecidableEq, Repr

/-- A clock of the engine (R398). -/
inductive ClkName where
  | ctl
  | tile
  | aux
  deriving DecidableEq, Repr

/-- What the fuse read delivers (R240 to R242, R263, R471, R473): the lifecycle pattern, the two root secrets, their
erase fuses, the boot ring fields, and whether the read's repetitions agreed. -/
structure FuseWord where
  state    : BitVec 8
  uds      : Bytes
  lbs      : Bytes
  udsErase : Bool
  lbsErase : Bool
  bootBase : BitVec 48
  bootK    : BitVec 4
  readOk   : Bool
  deriving DecidableEq, Repr

/-- The set-up registers of a submission ring that SQ_SETUP_WRITE writes (R50, R498). -/
inductive SqSetup where
  | base
  | cfg
  | sched
  deriving DecidableEq, Repr

/-- The set-up registers of a completion ring that CQ_SETUP_WRITE writes (R109, R500). -/
inductive CqSetup where
  | base
  | cfg
  deriving DecidableEq, Repr

/-- The bank write registers of the key store (R258, R491). -/
inductive KsBankReg where
  | wdata (i : Fin 8)
  | wattr (i : Fin 2)
  | wnext
  | wsoft
  | wkcv
  | wkcvEn
  deriving DecidableEq, Repr

/-- What the check of one bank of the key store finds (R255, R256). -/
inductive BankCheck where
  | clean
  | corrected
  | tagMismatch
  | uncorrectable
  deriving DecidableEq, Repr

/-- What the check of a bank or of a key cache entry finds as an operation's key is resolved (R255, R256): a corrected or an uncorrectable
error, a tag that does not match, or copies of NEXT that disagree. -/
inductive KeyFault where
  | corrected
  | tag
  | uncorrectable
  | next
  deriving DecidableEq, Repr

/-- The configuration registers of a data channel that DC_CONFIG_WRITE writes (R503). -/
inductive DcSetup where
  | cfg
  | dbase
  | dcount
  | first
  | post
  | recBase
  | recCfg
  deriving DecidableEq, Repr

/-- The switch's answer to a header query for a valid handle held for the engine (R334): chain length in bytes, source
port, cells of the chain, and whether other copies share those cells. -/
structure FrameHdr where
  len    : BitVec 15
  port   : BitVec 5
  cells  : BitVec 7
  shared : Bool
  deriving DecidableEq, Repr

/-- A unit under a rejoin test (R424). -/
inductive RejoinUnit where
  | tile (t : TileIx)
  | cs (c : CsIx)
  deriving DecidableEq, Repr

/-- The result of a grout test step (R425, R427): a step passed, the step that completes a round, or the failure of
the test of the given number. -/
inductive GroutResult where
  | step
  | round
  | fail (test : BitVec 16)
  deriving DecidableEq, Repr

/-- Whose result the voter's equals (R421). -/
inductive Verdict where
  | lower
  | higher
  | neither
  deriving DecidableEq, Repr

/-- The two set-up registers of the notice ring (R445, R487). -/
inductive NoticeReg where
  | nbase
  | ncfg
  deriving DecidableEq, Repr

/-- What a pairing HELLO carries from the other engine (R451). -/
structure Hello where
  payload : Bytes
  deriving DecidableEq, Repr

/-- The commands of the block, in the order of spec/opcode_table.json. -/
inductive Instr where
  /-- ENGINE_RESET_RELEASE (R469): Release of ah_rst_n starts a cold start: the straps are sampled, the oscillator is enabled and the stop detectors become active. -/
  | engineResetRelease (strap : BitVec 16)
  /-- SUPPLY_FAILURE_RESET (R411): Assertion of ah_sup_rst_n acts as ah_rst_n, ends retention, clears the retained state and the clock monitor cause bits, and sets the reset cause to SUPPLY. -/
  | supplyFailureReset
  /-- OSCILLATOR_READY (R406): The internal oscillator becomes ready; any held safe state is switched and zeroized, and the frequency counters, entropy start-up test and fuse read begin. -/
  | oscillatorReady
  /-- FUSE_READ_DONE (R240): The fuse read completes; the lifecycle state, root secrets and boot ring fields are decoded and the kiln computes its root keys. -/
  | fuseReadDone (f : FuseWord)
  /-- IDENTITY_READY (R291): The DevID public keys have been computed on public-key tiles; UEID, kid-C, kid-Q and tr are computed and READY is set. -/
  | identityReady (okC : Bool := true) (okQ : Bool := true)
  /-- FIRST_SERVICE_POINT (R469): At S the register target port accepts writes, admission is enabled and the boot ring begins. -/
  | firstServicePoint
  /-- OWN_CLAIM (R29): A write of a claim priority is judged against the leading claim, or is ignored and journaled under R30. -/
  | ownClaim (who : Who) (prio : BitVec 8)
  /-- CLAIM_WINDOW_CLOSE (R31): The claim window timer expires; the leading claimant or the strapped master becomes owner. -/
  | claimWindowClose
  /-- OWN_HANDOVER (R33): The owner offers, replaces or cancels an offer of ownership, and the 1 ms handover timer starts. -/
  | ownHandover (who : Who) (target : BitVec 8)
  /-- OWN_ACCEPT (R34): The offered master accepts and takes every owner right, or the accept is dropped under R35. -/
  | ownAccept (who : Who) (go : Bool) (meets : Bool := false)
  /-- HANDOVER_LAPSED (R35): The handover timer runs out; the offer lapses and EV_HANDOVER_LAPSED is raised. -/
  | handoverLapsed
  /-- REGISTER_WRITE (R37): A write to a register without its own step is granted or dropped by role, size and state; dropped writes are journaled and counted. -/
  | registerWrite (who : Who) (size : AccSize) (off : BitVec 22) (value : Word)
  /-- OWN_TRST (R46): The owner writes 1 to a bit of the tenant reset register and starts a tenant reset. -/
  | ownTrst (who : Who) (mask : BitVec 16)
  /-- TENANT_CTL_RESET (R46): A set-up-bound master writes RESET and starts its own tenant's reset. -/
  | tenantCtlReset (who : Who) (n : TenantIx)
  /-- TENANT_RESET_DONE (R434): Once every admitted request has its record, keys are zeroized, set-up fields are reset, IN_RESET clears and EV_TRST_DONE is raised. -/
  | tenantResetDone (n : TenantIx)
  /-- SQ_DOORBELL (R57): A write of TAIL and COUNT to a submission ring doorbell is judged against the free space and moves the tail and the ledger. -/
  | sqDoorbell (who : Who) (n : TenantIx) (m : RingIx) (tail : BitVec 17) (count : BitVec 15) (meets : Bool := false)
  /-- SQ_SETUP_WRITE (R499): A write to a submission ring's base or configuration is accepted, resetting head and tail, or dropped according to the ring state. -/
  | sqSetupWrite (who : Who) (n : TenantIx) (m : RingIx) (reg : SqSetup) (value : Word)
  /-- SQ_ENABLE (R66): Setting EN of a submission ring resumes reading at the head, unless FAULT is still set. -/
  | sqEnable (who : Who) (n : TenantIx) (m : RingIx)
  /-- SQ_DISABLE (R67): Clearing EN stops admission from the ring and releases its entry cache slots. -/
  | sqDisable (who : Who) (n : TenantIx) (m : RingIx)
  /-- SQ_PAUSE (R72): Writing 1 to PAUSE stops the entry cache reading the ring after any admission in progress. -/
  | sqPause (who : Who) (n : TenantIx) (m : RingIx)
  /-- SQ_PAUSED (R72): Once no admission or entry cache read of the ring is outstanding, PAUSED is set and the head is fixed. -/
  | sqPaused (n : TenantIx) (m : RingIx)
  /-- SQ_INVAL (R73): Writing 1 to INVAL while PAUSED discards the ring's entry cache slots and sets INVAL_BUSY; otherwise it is ignored. -/
  | sqInval (who : Who) (n : TenantIx) (m : RingIx)
  /-- SQ_INVAL_DONE (R72): The invalidation ends, the slots return to the entry cache and INVAL_BUSY clears. -/
  | sqInvalDone (n : TenantIx) (m : RingIx)
  /-- SQ_UNPAUSE (R72): Writing 0 to PAUSE clears PAUSED and the entry cache reads the ring afresh from the head. -/
  | sqUnpause (who : Who) (n : TenantIx) (m : RingIx)
  /-- SQ_FAULT_CLEAR (R66): A W1C of a submission ring's FAULT is taken only while EN is 0, after which setting EN makes the engine read the head entry afresh. -/
  | sqFaultClear (who : Who) (n : TenantIx) (m : RingIx)
  /-- ENTRY_CACHE_READ (R68): The entry cache issues a read of ring slots ahead of the head, within PREFETCH and never into void, surplus or no-prefetch slots. -/
  | entryCacheRead (n : TenantIx) (m : RingIx) (slots : Nat)
  /-- RING_SLOT_READ_RETURN (R71): Slots read from a ring arrive in the entry cache and are held as read. -/
  | ringSlotReadReturn (n : TenantIx) (m : RingIx) (data : Bytes) (ecc : Ecc)
  /-- SCHEDULER_GRANT (R75): Every 2 control cycles the scheduler picks a class and ring, reserves a completion place and admits one request. -/
  | schedulerGrant (ecc : Ecc := .clean)
  /-- CHAIN_START (R106): A chain sequencer parses an admitted entry, runs the entry checks, resolves keys and allocates sequence numbers before any data access. -/
  | chainStart (id : Nat) (ecc : Ecc := .clean) (found : Option (Fin 8 × KeyFault) := none)
  /-- DATA_READ_RETURN (R99): Operand data read for a request arrives in the staging buffer and is delivered to its operations. -/
  | dataReadReturn (id : Nat) (buf : Fin 8) (data : Bytes) (ecc : Ecc)
  /-- COPY_OPERATION (R85): A COPY operation moves SRC to DST through the staging buffer. -/
  | copyOperation (id : Nat) (op : Fin 8)
  /-- CIPHER_TILE_ALLOCATE (R133): A waiting cipher operation is given a cipher tile by class and admission order, and starts setup and run. -/
  | cipherTileAllocate (id : Nat) (op : Fin 8) (tile : Fin 16) (second : Option (Fin 16))
  /-- CIPHER_YIELD_POINT (R134): After 16 384 run cycles a cipher operation reaches a yield point and the tile yields to a higher-ranked waiting operation if it can. -/
  | cipherYieldPoint (tile : Fin 16) (ecc : Ecc := .clean)
  /-- DIGEST_TILE_ALLOCATE (R158): A waiting digest operation is given a digest tile, with stream part checks and any context move. -/
  | digestTileAllocate (id : Nat) (op : Fin 8) (tile : Fin 4) (second : Option (Fin 4)) (ecc : Ecc := .clean)
  /-- DIGEST_SLICE_BOUNDARY (R159): After 4096 bytes absorbed a digest operation reaches a slice boundary and the tile yields if another operation waits. -/
  | digestSliceBoundary (tile : Fin 4) (ecc : Ecc := .clean)
  /-- PK_BANK_ASSIGN (R195): A waiting public-key operation is assigned a free bank and its operands are loaded. -/
  | pkBankAssign (id : Nat) (op : Fin 8) (tile : Fin 4) (second : Option (Fin 4))
  /-- PK_YIELD_POINT (R197): A public-key operation reaches a yield point and the tile switches to the other bank if that operation ranks first. -/
  | pkYieldPoint (tile : Fin 4) (left : Nat := 0) (long : Bool := false) (ecc : Ecc := .clean)
  /-- PK_CHECK_PHASE_END (R200): The fixed-length check phase ends and the tile rejects the operation with BAD_INPUT or continues. -/
  | pkCheckPhaseEnd (tile : Fin 4)
  /-- DIGEST_SERVICE_DONE (R193): A hash requested mid-operation from a digest tile completes and the waiting public-key operation resumes at a yield point. -/
  | digestServiceDone (tile : Fin 4)
  /-- ML_DSA_ITERATION_CAP (R223): An ML-DSA signing loop reaches 1000 iterations and completes with BAD_INPUT 0x52. -/
  | mlDsaIterationCap (tile : Fin 4)
  /-- PAIRED_PIECE_COMPARE (R419): The two tiles of a pair finish a piece or slice and the engine compares output and mode state. -/
  | pairedPieceCompare (id : Nat) (op : Fin 8) (agree : Bool)
  /-- VOTER_ASSIGN (R420): The next tile of the kind to become free is taken as voter and restores the agreed state. -/
  | voterAssign (id : Nat) (op : Fin 8) (tile : TileIx)
  /-- VOTE_RESULT (R421): The voter's result decides the majority, quarantines the minority tile or ends the request with TILE_FAULT 0x01. -/
  | voteResult (id : Nat) (op : Fin 8) (verdict : Verdict)
  /-- OPERATION_END (R103): An operation ends on its tile; the chain continues, or ends at the first failure. -/
  | operationEnd (id : Nat) (op : Fin 8) (resultOk : Bool) (ecc : Ecc) (meets : Bool := false) (staging : Ecc := .clean) (second : Ecc := .clean)
  /-- PK_BANK_ZEROIZED (R205): A public-key bank finishes its 512-cycle zeroization and becomes free. -/
  | pkBankZeroized (tile : Fin 4) (bank : Bool)
  /-- KEY_CACHE_LOAD (R274): Operation 0x93 LOAD checks and opens a wrapped blob into key cache entries. -/
  | keyCacheLoad (id : Nat) (op : Fin 8)
  /-- KEY_INSTALL (R262): Operation 0x93 INSTALL opens a blob into a slot's pending bank, verifies it and swaps before the record. -/
  | keyInstall (id : Nat) (op : Fin 8)
  /-- KEY_CACHE_UNLOAD (R275): Operation 0x93 UNLOAD ends new resolutions of a handle and zeroizes its entries once unbound. -/
  | keyCacheUnload (id : Nat) (op : Fin 8)
  /-- HKDF (R266): Operation 0x90 derives output by HKDF in the kiln. -/
  | hkdf (id : Nat) (op : Fin 8)
  /-- COUNTER_MODE_KDF (R266): Operation 0x91 derives output by the SP 800-108 counter-mode KDF in the kiln. -/
  | counterModeKdf (id : Nat) (op : Fin 8)
  /-- KILN_DERIVATION (R264): Operation 0x92 fires a key bound to measurements from a root key. -/
  | kilnDerivation (id : Nat) (op : Fin 8)
  /-- RANDOM_DRAW (R289): Operation 0x94 draws OUTLEN bytes from one generate call of a healthy generator. -/
  | randomDraw (id : Nat) (op : Fin 8)
  /-- ATTESTATION_STATEMENT (R293): Operation 0x95 assembles the payload and signs a COSE_Sign statement with both identity keys. -/
  | attestationStatement (id : Nat) (op : Fin 8) (okC : Bool := true) (okQ : Bool := true)
  /-- FENCE_READBACK_RETURN (R18): A FENCE read-back returns after its write arrives, allowing the completion record to follow. -/
  | fenceReadbackReturn (id : Nat) (port : Bool) (resp : Resp) (frame : Option (Fin 8) := none)
  /-- COMPLETION_RECORD_WRITE (R115): After the last data write has left, the record is assembled and written in two writes, the tail advances and the ledger moves. -/
  | completionRecordWrite (id : Nat) (ecc : Ecc)
  /-- CQ_COAL_TIMEOUT (R117): The coalescing timer expires and EV_CQ_NOTIFY is raised. -/
  | cqCoalTimeout (n : TenantIx) (m : RingIx)
  /-- CQ_DOORBELL (R116): A head write to a completion ring is judged against the tail, frees slots or is clamped. -/
  | cqDoorbell (who : Who) (n : TenantIx) (m : RingIx) (head : BitVec 17)
  /-- RESERVOIR_RECORD_WRITE (R120): A finished reservoir record is written into a freed completion ring slot and its reservoir record is freed. -/
  | reservoirRecordWrite (n : TenantIx) (m : RingIx) (ecc : Ecc := .clean)
  /-- CQ_SETUP_WRITE (R110): A write to a completion ring's base or size is accepted, resetting head and tail, or dropped. -/
  | cqSetupWrite (who : Who) (n : TenantIx) (m : RingIx) (reg : CqSetup) (value : Word)
  /-- CQ_EN_WRITE (R110): A write of EN enables a completion ring, or clears it unless it is still fed, reserved or holding records. -/
  | cqEnWrite (who : Who) (n : TenantIx) (m : RingIx) (en : Bool)
  /-- CQ_FAULT_CLEAR (R122): A W1C of a completion ring's FAULT starts copying the rescued records back into the ring. -/
  | cqFaultClear (who : Who) (n : TenantIx) (m : RingIx)
  /-- RESCUE_COPY (R122): A rescued record read back from the rescue area is copied into its completion ring, or the copy stops on a failure. -/
  | rescueCopy (n : TenantIx) (m : RingIx) (resp : Resp)
  /-- LEDGER_SNAP (R130): A write of SNAP copies the six ledger counters, QUEUED and the time count atomically. -/
  | ledgerSnap (who : Who) (n : TenantIx)
  /-- BUS_ERROR_RESPONSE (R432): An error response to a checked access is handled by the issuing unit, journaled, captured and counted. -/
  | busErrorResponse (src : Src) (addr : BitVec 48) (dir : Dir)
  /-- KS_OPEN (R258): Command OPEN claims the pending bank of the selected slot for owner software. -/
  | ksOpen (who : Who)
  /-- KS_OPENC (R258): Command OPENC claims the pending bank and copies the active bank's material, NEXT and SOFT. -/
  | ksOpenc (who : Who)
  /-- KS_BANK_WRITE (R258): A write to a W register fills the pending bank of OPEN_SLOT, or is dropped when no slot is staged. -/
  | ksBankWrite (who : Who) (reg : KsBankReg) (value : Word)
  /-- KS_COMMIT (R258): Command COMMIT starts verification of the staged bank. -/
  | ksCommit (who : Who)
  /-- KS_ABORT (R258): Command ABORT zeroizes the staged pending bank and returns the slot to its former state. -/
  | ksAbort (who : Who)
  /-- KS_ZEROIZE (R261): Command ZEROIZE denies further resolutions and zeroizes every bank of the slot once unbound. -/
  | ksZeroize (who : Who)
  /-- KS_EXTEND (R245): Command EXTEND extends the selected measurement register, or is refused when locked. -/
  | ksExtend (who : Who)
  /-- KS_VERIFY_DONE (R259): Verification of a pending bank ends and the bank is swapped in, or is zeroized with an error. -/
  | ksVerifyDone (slot : Fin 2048)
  /-- KS_DRAINED (R260): The last request bound to the old bank ends; the bank is zeroized and EV_KS_DRAINED is raised. -/
  | ksDrained (slot : Fin 2048)
  /-- KS_BACKGROUND_SCAN (R255): The background scan checks the integrity tags of active banks at least every 1 ms. -/
  | ksBackgroundScan (slot : Fin 2048) (found : BankCheck)
  /-- ENTROPY_SAMPLE (R281): A raw entropy sample runs the repetition count and adaptive proportion tests. -/
  | entropySample (bit : Bool)
  /-- ENTROPY_BLOCK_CONDITIONED (R283): 1024 tested samples are conditioned with SHA-384 into a block that enters the pool. -/
  | entropyBlockConditioned (ecc : Ecc)
  /-- ES_RESTART (R282): Writing RESTART in FAILED returns the entropy source to STARTING. -/
  | esRestart (who : Who)
  /-- ES_RAW_READ (R284): A read of the raw port returns and consumes the next 32 raw samples. -/
  | esRawRead (who : Who)
  /-- RBG_RESEED (R286): A generator's reseed falls due after 10 ms or 2^16 calls and takes a pool block, or it becomes STARVED. -/
  | rbgReseed (k : Fin 4) (ecc : Ecc) (block : Ecc := .clean)
  /-- RBG_RESTART (R287): Writing a generator's RESTART bit zeroizes it and returns it to UNINIT. -/
  | rbgRestart (who : Who) (k : Fin 4)
  /-- DC_GO (R304): A write of GO starts an IDLE channel at FIRST, or resumes a paused or cleared stopped one. -/
  | dcGo (who : Who) (k : ChanIx)
  /-- DC_PAUSE (R320): A write of 1 to PAUSE stops the channel at its next element boundary and holds its state. -/
  | dcPause (who : Who) (k : ChanIx)
  /-- DC_RESUME (R320): A write of 0 to PAUSE resumes the channel from the held state. -/
  | dcResume (who : Who) (k : ChanIx)
  /-- DC_ABORT (R322): A write of ABORT stops the channel, writes an ABORTED record and makes it IDLE. -/
  | dcAbort (who : Who) (k : ChanIx)
  /-- DC_REFETCH (R321): A write of REFETCH while paused discards the held and prefetched descriptors. -/
  | dcRefetch (who : Who) (k : ChanIx)
  /-- DC_CLRCRED (R312): A write of CLRCRED sets the channel's pace credit to 0. -/
  | dcClrcred (who : Who) (k : ChanIx)
  /-- DC_CONFIG_WRITE (R503): A write to a channel's configuration, table or first index is taken only while IDLE. -/
  | dcConfigWrite (who : Who) (k : ChanIx) (reg : DcSetup) (value : Word)
  /-- DC_PACE_PULSE (R312): A pace pulse adds a credit to every channel naming its source, or is lost at 15 credits. -/
  | dcPacePulse (src : BitVec 6)
  /-- DC_UNIT_START (R312): A channel holding a credit and a record place starts a unit of work and takes its generation. -/
  | dcUnitStart (k : ChanIx)
  /-- DESCRIPTOR_FETCH_RETURN (R315): A fetched or prefetched descriptor or trowel instruction arrives for the channel. -/
  | descriptorFetchReturn (k : ChanIx) (data : Bytes)
  /-- DC_ELEMENT_GRANT (R309): One element per control cycle is granted to a channel by class and round robin. -/
  | dcElementGrant (k : ChanIx) (data : Bytes) (move : Bool := true)
  /-- DC_COMPLETION_POINT (R316): A descriptor's writes have left and any read-backs returned; POST, RECORD, EVENT, credits and HALT or NEXT follow. -/
  | dcCompletionPoint (k : ChanIx) (meets : Bool := false)
  /-- DC_REC_HEAD_WRITE (R318): A head write to a channel record ring is judged as a completion ring head. -/
  | dcRecHeadWrite (who : Who) (k : ChanIx) (head : BitVec 11)
  /-- SETA (R330): Trowel SETA loads an address register. -/
  | seta (k : ChanIx)
  /-- ADDA (R330): Trowel ADDA adds a signed immediate to an address register. -/
  | adda (k : ChanIx)
  /-- SETC (R330): Trowel SETC loads a counter register. -/
  | setc (k : ChanIx)
  /-- MOVE (R330): Trowel MOVE copies L bytes between address registers. -/
  | move (k : ChanIx) (data : Bytes)
  /-- XMOVE (R330): Trowel XMOVE moves frames of audio samples with the configured transform. -/
  | xmove (k : ChanIx) (data : Bytes)
  /-- XCFG (R330): Trowel XCFG sets the transform for later XMOVEs. -/
  | xcfg (k : ChanIx)
  /-- LOOP (R330): Trowel LOOP decrements a counter and jumps while it stays non-zero. -/
  | loop (k : ChanIx)
  /-- JUMP (R330): Trowel JUMP sets the PC. -/
  | jump (k : ChanIx)
  /-- WAIT (R330): Trowel WAIT takes one pace credit, waiting while there is none. -/
  | wait (k : ChanIx)
  /-- FENCE (R330): Trowel FENCE waits for the completion point of the writes so far. -/
  | fence (k : ChanIx)
  /-- POST (R330): Trowel POST acts as a doorbell write with its own ring, advance and count. -/
  | post (k : ChanIx) (meets : Bool := false)
  /-- RECORD (R330): Trowel RECORD writes a DONE record with DESC = PC. -/
  | record (k : ChanIx)
  /-- EVENT (R330): Trowel EVENT raises EV_DC_DESC. -/
  | event (k : ChanIx)
  /-- HALT (R330): Trowel HALT makes the channel IDLE. -/
  | halt (k : ChanIx)
  /-- FRAME_HEADER_QUERY_RETURN (R334): The switch answers a header query; port and handle are checked. -/
  | frameHeaderQueryReturn (id : Nat) (buf : Fin 8) (hdr : Option FrameHdr)
  /-- FRAME_LOAN (R336): A request's whole cell need is lent in one step once tenant and engine limits and the switch allow it. -/
  | frameLoan (id : Nat)
  /-- FRAME_WAIT_TIMEOUT (R336): A request not lent its cells within WAIT completes with ACCESS_FAULT 0x23. -/
  | frameWaitTimeout (id : Nat)
  /-- FRAME_RETURN (R341): After the last frame write leaves, the cells are returned to the switch with an outcome and counted. -/
  | frameReturn (id : Nat) (buf : Fin 8) (ecc : Ecc)
  /-- FP_SNAP (R342): A write of SNAP copies the three frame port counters atomically. -/
  | fpSnap (who : Who) (n : TenantIx)
  /-- TIME_CAPT (R349): Writing CAPT arms a capture at the next strobe. -/
  | timeCapt (who : Who)
  /-- TIME_SYNC (R349): Writing SYNC arms a load of the time count at the next strobe. -/
  | timeSync (who : Who)
  /-- TSU_STROBE (R349): A strobe with an armed capture or load snapshots both times and, for a load, sets the count. -/
  | tsuStrobe (ns : Word) (frac : BitVec 32)
  /-- ADJ_GO (R350): Writing ADJ_GO steps the time count by ADJ, raises EV_TIME_STEP and journals the step. -/
  | adjGo (who : Who)
  /-- TIME_RUN_WRITE (R351): Setting or clearing RUN starts or stops the time count; clearing raises EV_TIME_STOPPED. -/
  | timeRunWrite (who : Who) (run : Bool)
  /-- COMPARATOR_FIRE (R352): The count reaches a comparator's target; it pulses ah_tcmp, delivers pulses and rearms or disables. -/
  | comparatorFire (j : Fin 8)
  /-- TRIGGER_EDGE (R354): A recognised rising edge at ah_trig is time-stamped and delivered as a pulse. -/
  | triggerEdge (i : Fin 8)
  /-- BUDGET_REFILL (R357): At each multiple of PERIOD every SCHEDULED ring's credits are set to REQS and CYCLES. -/
  | budgetRefill
  /-- GEN_LOAD (R382): Command LOAD reads an Ompex image with privileged accesses. -/
  | genLoad (who : Who)
  /-- GEN_LOAD_DONE (R382): After the image and patch signatures are checked, the shadows are written or ERR is set. -/
  | genLoadDone (image : Bytes)
  /-- GEN_COMMIT (R383): Command COMMIT takes the shadows as a pending generation, stops changed channels, resets disabled tenants and starts the fence. -/
  | genCommit (who : Who)
  /-- GEN_TAKE_EFFECT (R384): With the drain empty and the digest computed, the pending generation takes effect in one cycle. -/
  | genTakeEffect
  /-- GEN_CANCEL (R387): Command CANCEL ends a fence before the generation takes effect. -/
  | genCancel (who : Who)
  /-- GEN_ROLLBACK (R388): Command ROLLBACK makes the previous content active again under a new number. -/
  | genRollback (who : Who)
  /-- GEN_DISCARD (R380): Command DISCARD sets every shadow to the active generation's content. -/
  | genDiscard (who : Who)
  /-- GEN_SLOW (R386): A fence passing 20 µs raises EV_GEN_SLOW and journals PINNED. -/
  | genSlow
  /-- GATE_WRITE (R394): Writing 1 to a gate bit stops new work on the unit and starts its idle handshake. -/
  | gateWrite (who : Who) (unit : GateUnit)
  /-- GATE_IDLE (R394): A unit's idle handshake completes and it becomes GATED. -/
  | gateIdle (unit : GateUnit)
  /-- UNGATE (R397): Writing 0 to a gate bit restarts the unit, or cancels a pending gate. -/
  | ungate (who : Who) (unit : GateUnit)
  /-- CLKMON_EN_WRITE (R399): A write to a monitor enable is dropped unless every unit of that clock is gated. -/
  | clkmonEnWrite (who : Who) (clk : ClkName) (en : Bool)
  /-- CLOCK_STOP_TRIP (R398): A stop detector sees no edge for about 1 µs and the clock's islands enter the safe state. -/
  | clockStopTrip (clk : ClkName)
  /-- CLKMON_WINDOW (R398): A 1024-cycle counting window ends and the count is compared with LO and HI. -/
  | clkmonWindow (clk : ClkName) (count : BitVec 14)
  /-- OSC_FAULT (R400): Two oscillator counts outside 150–250 MHz raise EV_OSC_FAULT and stop the frequency counters. -/
  | oscFault
  /-- FENCED_ZEROIZE_DONE (R401): The fenced islands finish zeroizing on the oscillator and the contain or reset response follows. -/
  | fencedZeroizeDone
  /-- CLKMON_RELEASE (R403): Writing RELEASE for an in-band clock switches its islands back and runs their tests. -/
  | clkmonRelease (who : Who) (clk : ClkName)
  /-- ISLAND_REJOIN (R403): Released islands pass their tests and rejoin service. -/
  | islandRejoin (clk : ClkName) (failed : BitVec 24)
  /-- SUPPLY_WARN (R407): Recognition of ah_sup_warn closes tile outputs, stops running operations and defers key store writes. -/
  | supplyWarn
  /-- SUPPLY_CLEAR (R410): After ah_sup_warn has stayed low for 400 cycles, deferred writes complete and discarded operations rerun. -/
  | supplyClear
  /-- RET_REQ_RISE (R412): ah_ret_req rises; admission stops and channels pause. -/
  | retReqRise
  /-- RETENTION_ENTRY (R412): When in-flight work has drained, parked contexts are retained and ah_ret_ack rises. -/
  | retentionEntry
  /-- RET_REQ_FALL (R414): ah_ret_req falls; before the acknowledgement admission resumes, after it a wake starts. -/
  | retReqFall
  /-- WAKE_COMPLETE (R414): After clearing and tests the engine lowers ah_ret_ack, raises EV_WAKE and resumes admission. -/
  | wakeComplete
  /-- TILE_REJOIN (R424): Writing a tile's rejoin bit puts a quarantined tile in TESTING. -/
  | tileRejoin (who : Who) (t : TileIx)
  /-- CS_REJOIN (R424): Writing a sequencer's rejoin bit starts its microcode self-test. -/
  | csRejoin (who : Who) (c : CsIx)
  /-- REJOIN_TEST_DONE (R424): The rejoin test set ends; the tile or sequencer becomes HEALTHY or stays out of service. -/
  | rejoinTestDone (unit : RejoinUnit) (pass : Bool)
  /-- GROUT_STEP (R425): A tile idle for 64 cycles runs a grout test step, abandoned on allocation. -/
  | groutStep (t : TileIx) (result : GroutResult)
  /-- GROUT_FORCE (R426): A tile with no round for FORCE ms has a forced grout round queued. -/
  | groutForce (t : TileIx)
  /-- TILE_WATCHDOG (R428): An operation's run count reaches its limit; the tile is quarantined with cause WDOG. -/
  | tileWatchdog (t : TileIx) (both : Bool := false)
  /-- CS_WATCHDOG (R429): A sequencer misses two step intervals, fails, and its contexts are adopted by healthy sequencers. -/
  | csWatchdog (c : CsIx) (error : CsError := .missed)
  /-- REQUEST_WATCHDOG (R430): A request reaches its tenant's LIMIT and completes with ABORTED 0x01. -/
  | requestWatchdog (id : Nat)
  /-- JOURNAL_READ (R443): A read of the journal port returns and removes the next word or words, stalling while empty. -/
  | journalRead (who : Who) (size : AccSize) (ecc : Ecc)
  /-- JOURNAL_READ_TIMEOUT (R443): A stalled journal read reaches STALL and returns zero. -/
  | journalReadTimeout
  /-- JOURNAL_FLUSH (R444): Writing FLUSH discards stored records and writes FLUSHED and TIME_MARK records. -/
  | journalFlush (who : Who)
  /-- JOURNAL_LOST_STORE (R442): A pending LOST record is stored once six words are free. -/
  | journalLostStore
  /-- NOTICE_HEAD_WRITE (R445): A write of the notice ring head is judged as a completion ring head. -/
  | noticeHeadWrite (who : Who) (head : BitVec 13)
  /-- NOTICE_RING_SETUP (R487): A write of the notice ring base or size resets its head and tail, or is dropped while EN is 1. -/
  | noticeRingSetup (who : Who) (reg : NoticeReg) (value : Word)
  /-- STAT_TIME_LOW_READ (R348): A 32-bit read of the time count's low word latches the high word and fraction. -/
  | statTimeLowRead (who : Who)
  /-- CAPTURE_READ_LATCH (R501): A read of the low word of a wide capture or boot counter latches the rest from the same cycle. -/
  | captureReadLatch (who : Who) (off : BitVec 22)
  /-- COURSE_HELLO (R451): A HELLO frame exchanges course identity, role and nonce. -/
  | courseHello (peer : Fin 4) (hello : Hello)
  /-- COURSE_AGREE_RECEIVED (R452): A peer's hybrid output and statement are written to the exchange buffer and EV_CRS_PEER is raised. -/
  | courseAgreeReceived (peer : Fin 4) (output : Bytes) (stmt : Bytes)
  /-- COURSE_ACCEPT (R452): Command ACCEPT lets the pairing continue. -/
  | courseAccept (who : Who)
  /-- COURSE_REJECT (R452): Command REJECT abandons the pairing. -/
  | courseReject (who : Who)
  /-- COURSE_PAIRING_TIMEOUT (R452): No command within 1 s abandons the pairing. -/
  | coursePairingTimeout
  /-- COURSE_GROUP (R451): A GROUP frame delivers the group key and the course is formed. -/
  | courseGroup (peer : Fin 4) (payload : Bytes)
  /-- COURSE_MASTER_TIMEOUT (R450): No master heard within 100 µs of block lock; the lowest MEMBER_ELECT becomes master. -/
  | courseMasterTimeout
  /-- COURSE_LANE_DOWN (R449): A lane without block lock for 1 µs is down and frames take the other lane. -/
  | courseLaneDown (lane : Fin 2)
  /-- BEAT (R454): Every 10 µs a BEAT frame is sent between master and members. -/
  | beat
  /-- COURSE_FRAME_RECEIVE (R454): A sealed frame is checked by tag and counter, dropped as bad or passed on. -/
  | courseFrameReceive (lane : Fin 2) (frame : Bytes)
  /-- COURSE_PEER_SILENT (R464): No frame from a peer for 100 µs makes it silent; work is recalled or dropped. -/
  | coursePeerSilent (peer : Fin 4)
  /-- TAKEOVER (R464): A MEMBER_ELECT engine becomes master from its mirror and sends TAKEOVER. -/
  | takeover (peer : Fin 4) (payload : Bytes)
  /-- FWD_REQ (R461): A member accepts a forwarded entry with keys and runs it as BULK work. -/
  | fwdReq (peer : Fin 4) (payload : Bytes)
  /-- COURSE_FORWARD (R460): The master forwards an eligible shared-ring request when no local tile is free. -/
  | courseForward (id : Nat) (peer : Fin 4)
  /-- FWD_RESULT (R461): The master accepts a forwarded result and writes its output and record. -/
  | fwdResult (peer : Fin 4) (payload : Bytes)
  /-- FWD_CANCEL (R462): A recall makes the member drop the forwarded request. -/
  | fwdCancel (peer : Fin 4) (payload : Bytes)
  /-- CREDIT (R463): A CREDIT frame returns forwarding credits to the master. -/
  | credit (peer : Fin 4) (payload : Bytes)
  /-- BLOCK_REQ (R456): The master receives a request for a sequence block and mirrors it before granting. -/
  | blockReq (peer : Fin 4) (payload : Bytes)
  /-- BLOCK_GRANT (R456): An engine stores a granted sequence block and waiting requests become admissible. -/
  | blockGrant (peer : Fin 4) (payload : Bytes)
  /-- CTR_SYNC (R459): A MEMBER_ELECT engine records a counter mirror and answers with CTR_ACK. -/
  | ctrSync (peer : Fin 4) (payload : Bytes)
  /-- CTR_ACK (R459): The master receives a mirror acknowledgement and grants once all have answered. -/
  | ctrAck (peer : Fin 4) (payload : Bytes)
  /-- SLOT_BANK (R457): A member writes a course slot bank received from the master, verifies it and swaps. -/
  | slotBank (peer : Fin 4) (payload : Bytes)
  /-- COURSE_REFORM (R464): Command REFORM reruns formation with the next epoch. -/
  | courseReform (who : Who)
  /-- COURSE_LEAVE (R465): Command LEAVE, or a course generation, sends LEAVE, ends forwarding and zeroizes course keys. -/
  | courseLeave (who : Who)
  /-- CRS_SNAP (R463): Writing SNAP copies the eight course counters. -/
  | crsSnap (who : Who)
  /-- BOOT_SLOT_POLL (R474): Every 256 control cycles the boot slot at the head is read until its SEQ is expected. -/
  | bootSlotPoll (resp : Resp)
  /-- BOOT_REQUEST (R475): A boot REQUEST entry is admitted as a privileged EXPEDITE request. -/
  | bootRequest
  /-- BOOT_EXTEND (R476): An EXTEND entry is admitted when earlier entries are done and the window is open, then extends M0. -/
  | bootExtend (resp : Resp)
  /-- BOOT_EN_CLEAR (R472): Writing EN = 0 stops reading boot entries and drains the boot ring to OFF. -/
  | bootEnClear (who : Who)
  /-- ENGINE_RESET_ASSERT (R240): Assertion of ah_rst_n puts the engine in reset, zeroizes the kiln's root keys and ends ownership. -/
  | engineResetAssert
  /-- OSC_START_TIMEOUT (R471): The internal oscillator not ready within 40 µs holds the safe state with ah_nmi asserted and sets the OSC bit of AH_STAT_START.FAIL. -/
  | oscStartTimeout
  /-- STARTUP_CLEAR_DONE (R470): At about 47 µs the memories are cleared with fresh ECC, the start-up TIME_MARK is written and the status and event page becomes readable. -/
  | startupClearDone
  /-- KNOWN_ANSWER_TESTS_DONE (R469): The tile known-answer tests and sequencer self-tests end, failing tiles are quarantined or the engine halts, and the digest of generation 0 is computed. -/
  | knownAnswerTestsDone (tileFail : BitVec 24) (csFail : BitVec 12) (hashOk : Bool)
  /-- RBG_INSTANTIATE (R287): A generator in UNINIT passes its 2 µs known-answer test, takes a pool block and becomes HEALTHY, or becomes FAILED. -/
  | rbgInstantiate (k : Fin 4) (katOk : Bool) (block : Ecc := .clean)
  /-- TENANT_RESET_WAIT (R436): A tenant reset that has waited more than 100 µs for completion places sets RST_WAIT_CQ and raises EV_TRST_WAIT. -/
  | tenantResetWait (n : TenantIx)
  /-- COURSE_LANE_UP (R449): A lane regains block lock, frames may use it again, and the 100 µs master-selection interval of R450 starts. -/
  | courseLaneUp (lane : Fin 2)
  /-- TIME_LOW_WRAP (R441): Bits [31:0] of the time count wrap and a TIME_MARK journal record is written. -/
  | timeLowWrap
  /-- TCMP_PULSE_END (R352): After WIDTH control cycles the ah_tcmp[j] pulse of a fired comparator ends and the output goes low. -/
  | tcmpPulseEnd (j : Fin 8)
  /-- DEBUG_READ (R376): A debug read of a locked page returns zero, or the owner's value when opened by AH_OWN_DBG_UNLOCK, and writes a DEBUG_ACCESS journal record. -/
  | debugRead (who : Who) (size : AccSize) (off : BitVec 22)
  deriving DecidableEq, Repr

end Sys2Proof
end

