-- ==== Sys2Proof/Config.lean ====
section
/-!
DEFINITION. What the spec leaves to named standards, to fuses and to physical noise. Every function here is opaque: no proof
sees a value of it, so a claim holds for whatever function the standard defines (notes/assumptions/4.md) and for
whatever value the spec leaves open (notes/assumptions/5.md). Byte strings are given byte by byte, so that their lengths
are those that the rules state.
-/

namespace Sys2Proof.Config

/-- A byte of the free value numbered `i`: a random draw or a byte whose value the spec does not state. -/
opaque freeByte : Nat → Nat → Byte

/-- A free truth value. -/
opaque freeBool : Nat → Bool

/-- The index of the failing word of a memory class, in the part of it given, as the record with a journal sequence number names it: the
spec does not fix where an error strikes (R441). -/
opaque ueWord : Nat → Nat → BitVec 16 → BitVec 32

/-- The initial state of a hash or XOF, named by its operation code (SHA-1 by 0x4F). -/
opaque hashIv : Nat → Bytes

/-- The state of a hash after one more block: its compression function, or absorption and permutation of Keccak (R161, R162). -/
opaque compress : Nat → Bytes → Bytes → Bytes

/-- Byte `i` of the output of a hash or XOF from its last state. -/
opaque hashOut : Nat → Bytes → Nat → Byte

/-- Byte `i` of the output of a cipher: operation code with a variant (OPT, or the length of a tag), key, IV or nonce, the length
of the associated data at the front of the input, and the input that the byte depends on. -/
opaque cipherByte : Nat × Nat → Bytes → Bytes → Nat → Bytes → Nat → Byte

/-- The tag, MAC or key-wrap check of a cipher operation holds over its whole input and its AUX. -/
opaque cipherOk : Nat × Nat → Bytes → Bytes → Nat → Bytes → Bytes → Bool

/-- Byte `i` of the output of a public-key or lattice operation: OPC, OPT, key, parameter block, message, AUX, draws. -/
opaque pkByte : Nat × Nat → Bytes → Bytes → Bytes → Bytes → Bytes → Nat → Byte

/-- A signature verifies: OPC, OPT, key, parameter block, message, signature. -/
opaque pkOk : Nat × Nat → Bytes → Bytes → Bytes → Bytes → Bool

/-- An input check of R200 on a curve: the detail of the check, the curve code, the bytes checked. -/
opaque curveOk : Nat → Nat → Bytes → Bool

/-- A structural check of a lattice or hash-based signature (R222, R235): detail, parameter set, key, signature. -/
opaque sigShapeOk : Nat → Nat → Bytes → Bytes → Bool

/-- The tile cycles of an operation for which the tables of R207 and R229 list no count: operation code and parameter. -/
opaque openCycles : Nat → Nat → Nat

/-- The master identity that the integrator assigned to the engine's own accesses (R15). -/
opaque engineMid : BitVec 8

/-- Byte `i` of Rhobriva's patch keys in the engine's ROM (R382): of the classical key (0) and of the quantum-safe key (1). -/
opaque patchKeyByte : Nat → Nat → Byte

/-- Byte `i` of what a patched public-key tile delivers (R385): the patch section, which of its results, and the result of the rules. -/
opaque patchedByte : Bytes → Nat → Bytes → Nat → Byte

/-- A block of the entropy pool has an uncorrectable error as it is read for a reseed within a generate call (R283). -/
opaque blockBad : Bytes → Bool

end Sys2Proof.Config
end

