-- ==== Sys2Proof/Machine/State.lean ====
section
/-!
DEFINITION. The state of the block as plain data: every register, ring, buffer, counter and mode that spec/ gives the
engine, and the hidden cells its rules need, with the value of each at reset. INVENTORY.md lists every field with its
rule; notes/assumptions/7.md names the reset value of every cell for which the spec states none.
-/

namespace Sys2Proof.Machine

/-- A sparse table: numbered items in rising order of their number; an item that is not listed holds its default. -/
abbrev Tbl (α : Type) := List (Nat × α)

/-- A 32-bit statistics counter with its sticky saturation bit (R496). -/
structure Cnt32 where
  n   : BitVec 32 := 0
  sat : Bool := false
  deriving DecidableEq, Repr

/-- A capture of a violation or of a bus error (R373, R374, R432, R501). -/
structure Capture where
  valid  : Bool := false
  addr   : BitVec 48 := 0
  dir    : Dir := .read
  cause  : BitVec 4 := 0
  port   : BitVec 2 := 0
  kind   : BitVec 4 := 0
  number : BitVec 6 := 0
  tag    : BitVec 16 := 0
  gen    : BitVec 16 := 0
  deriving DecidableEq, Repr

/-! ### Start-up (R469 to R471, R490) -/

structure Start where
  rst     : Bool := true
  phase   : BitVec 4 := 1
  fail    : BitVec 7 := 0
  cause   : BitVec 2 := 0
  strap   : BitVec 16 := 0
  osc     : Bool := false
  cleared : Bool := false
  kat     : Bool := false
  fuses   : Bool := false
  serving : Bool := false
  hold    : Bool := false
  nmi     : Bool := false
  deriving DecidableEq, Repr

/-- What the engine keeps of the fuses: lifecycle code, whether each root secret is usable, the kiln's root keys
(R240 to R242, R263) and the boot ring fields (R473). -/
structure Roots where
  lc    : BitVec 3 := 5
  udsOk : Bool := false
  lbsOk : Bool := false
  kU    : Option Bytes := none
  kL    : Option Bytes := none
  deriving DecidableEq, Repr

/-- The part's identity (R291, R292): the public keys with what is computed of them, the attribute records of the two identity entries, and
tr kept with DevID-Q. -/
structure Ident where
  ready : Bool := false
  noid  : Bool := false
  cPub  : Bytes := []
  qPub  : Bytes := []
  ueid  : Bytes := []
  kidC  : Bytes := []
  kidQ  : Bytes := []
  cAttr : Bytes := []
  qAttr : Bytes := []
  tr    : Bytes := []
  deriving DecidableEq, Repr

/-! ### Ownership (R28 to R36) -/

inductive OwnerSt where
  | starting
  | claimOpen
  | owned
  | offered
  deriving DecidableEq, Repr

structure Owner where
  mid      : BitVec 8 := 0
  cause    : BitVec 2 := 0
  st       : OwnerSt := .starting
  leadMid  : BitVec 8 := 0
  leadPrio : BitVec 8 := 0
  offer    : BitVec 8 := 0
  deriving DecidableEq, Repr

/-! ### Live registers of the owner and key store pages (R484 to R488, R491): whole words, reset value and clamping
ranges in Machine/Operands.lean -/

/-- One time comparator (R352, R485). -/
structure Tcmp where
  tgt : Word := 0
  per : Word := 0
  ctl : Word := 0x400
  deriving DecidableEq, Repr

structure OwnRegs where
  ctl       : Word := 0
  gate      : Word := 0
  boot      : Word := 0
  dbg       : Word := 0
  dbgUnlock : Word := 0
  fpCtl     : Word := 100
  clkmon    : Word := 6
  limCtl    : Word := 0x11C801D1
  limTile   : Word := 0x1AAB01D1
  limAux    : Word := 0x163901D1
  timeInc   : Word := 0x140000000
  timeCtl   : Word := 0
  timeAdj   : Word := 0
  syncofs   : Word := 0
  tcmp      : Tbl Tcmp := []
  genCtl    : Word := 0
  imgBase   : Word := 0
  imgLen    : Word := 64
  evEn      : Word := 0
  evNmi     : Word := 0
  jrnCfg    : Word := 0x640C000000
  notice    : Word := 0
  nbase     : Word := 0
  ncfg      : Word := 4
  grout     : Word := 100
  ksSel     : Word := 0
  wkcvEn    : Word := 0
  measSel   : Word := 1
  idSel     : Word := 0
  esCtl     : Word := 0
  deriving DecidableEq, Repr

/-! ### Configuration generations (R378 to R390) -/

/-- The content of a generation: the staged words that differ from their reset value, by window offset, and the
patch section of each target. -/
structure Content where
  words   : Tbl Word := []
  csPatch : Option Bytes := none
  pkPatch : Option Bytes := none
  deriving DecidableEq, Repr

inductive GenSt where
  | idle
  | loading
  | fence
  deriving DecidableEq, Repr

structure Gen where
  active   : BitVec 32 := 0
  previous : BitVec 32 := 0
  act      : Content := {}
  prev     : Content := {}
  pend     : Content := {}
  shadow   : Content := {}
  st       : GenSt := .idle
  err      : BitVec 4 := 0
  digAct   : Bytes := []
  digPrev  : Bytes := []
  digPend  : Bytes := []
  clamped  : Bool := false
  rollback : Bool := false
  image    : Bytes := []
  imgFail  : Bool := false
  disabling : List TenantIx := []
  deriving DecidableEq, Repr

/-! ### Tenants (R41, R46, R127, R434 to R437, R497, R501) -/

/-- The six ledger counters (R127). -/
structure Ledger where
  posted    : Word := 0
  clamped   : Word := 0
  admitted  : Word := 0
  completed : Word := 0
  flushed   : Word := 0
  inflight  : Word := 0
  deriving DecidableEq, Repr

/-- The three frame port counters (R342). -/
structure FpCnt where
  borrowed : Word := 0
  returned : Word := 0
  onloan   : Word := 0
  deriving DecidableEq, Repr

/-- What an error response to a write of a request whose record has left names of it (R18, R432): its number, its ring, its TAG and the
number of its admission generation. -/
structure Left where
  id   : Nat
  ring : Nat
  tag  : Nat
  gen  : Nat
  deriving DecidableEq, Repr

/-- A tenant; `left` lists the requests that wrote and whose record has left. -/
structure Tenant where
  inReset    : Bool := false
  rstWait    : Bool := false
  led        : Ledger := {}
  snap       : Ledger := {}
  snapQueued : Word := 0
  snapTime   : Word := 0
  ledInvalid : Bool := false
  fp         : FpCnt := {}
  fpSnap     : FpCnt := {}
  fpInvalid  : Bool := false
  viol       : Capture := {}
  vcnt       : Cnt32 := {}
  buserr     : Capture := {}
  becnt      : Cnt32 := {}
  evCause    : BitVec 23 := 0
  evPend     : BitVec 12 := 0
  evEn       : BitVec 12 := 0
  gfault     : Option (BitVec 48) := none
  left       : List Left := []
  deriving DecidableEq, Repr

/-! ### Submission rings (R50 to R79, R355 to R358, R498) -/

/-- The capture of a ring fault (R66, R122, R498, R500). -/
structure RingFault where
  addr  : BitVec 48 := 0
  kind  : BitVec 2 := 0
  cause : BitVec 4 := 0
  pref  : Bool := false
  deriving DecidableEq, Repr

/-- What the engine keeps of one posted request before its admission: the identity of the doorbell write that posted
it (R251), its release time once it has one (R355), and whether it was found beyond its ring's budget (R358). -/
structure Posted where
  mid      : BitVec 8
  world    : World
  taken    : Word
  release  : Option Word
  deadline : Option Word
  noted    : Bool := false
  deriving DecidableEq, Repr

/-- A read of ring slots in flight: the index of its first slot, the addresses of its slots, whether it ran ahead of the head entry,
whether the rules of the previous generation checked it (R53), and whether its slots are still wanted. -/
structure RingRead where
  idx   : Nat
  addrs : List Nat
  ahead : Bool := false
  old   : Bool := false
  live  : Bool := true
  deriving DecidableEq, Repr

/-- A submission ring. `cache` holds the slots read, each with its ring index, `flight` the reads in flight, oldest first, `discarded`
the slots of an invalidation that are not released yet (R72); `headWas` is the head against which doorbells of this control cycle are
judged (R57, R63); `creditX` is the credit for the grants that R358 gives a SCHEDULED ring among the EXPEDITE rings. -/
structure Sq where
  base      : Word := 0
  cfg       : Word := 0x101210004
  en        : Bool := false
  pause     : Bool := false
  sched     : Word := 0x101
  head      : Nat := 0
  tail      : Nat := 0
  queued    : Word := 0
  voids     : List Nat := []
  clamp     : Bool := false
  surplus   : Bool := false
  fault     : Bool := false
  blocked   : Bool := false
  paused    : Bool := false
  invalBusy : Bool := false
  unpauseDue : Bool := false
  fcap      : RingFault := {}
  cache     : List (Nat × Bytes) := []
  flight    : List RingRead := []
  discarded : Nat := 0
  headWas   : Nat := 0
  dbWorld   : World := .secure
  posts     : List Posted := []
  charges   : List Nat := []
  pulses    : List Word := []
  rcred     : Nat := 0
  ccred     : Nat := 0
  overdue   : Bool := false
  plost     : Cnt32 := {}
  late      : Cnt32 := {}
  credit    : Nat := 0
  creditX   : Nat := 0
  deriving DecidableEq, Repr

/-! ### Completion rings (R109 to R123, R500) -/

structure Cq where
  base    : Word := 0
  cfg     : Word := 0x104
  en      : Bool := false
  head    : Nat := 0
  tail    : Nat := 0
  hclamp  : Bool := false
  stall   : Bool := false
  fault   : Bool := false
  fcap    : RingFault := {}
  coal    : Nat := 0
  timer   : Bool := false
  rescued : List (Nat × Nat) := []
  deriving DecidableEq, Repr

/-! ### The scheduler (R75, R76) -/

/-- Round-robin position of one class: the ring after which the search starts, and the visit in progress. -/
structure ClassPtr where
  last  : Nat := 256
  visit : Option (Nat × Nat) := none
  deriving DecidableEq, Repr

/-- An operation of a step of a pairing (R451): the hybrid operation, and the two signatures of the statement over its output (R296). -/
inductive PairOp where
  | hybrid
  | es384
  | mldsa
  deriving DecidableEq, Repr

/-- Work that the engine issues on its own account (R515): the digest of the pending generation (R390), the prepared state of the pending
bank of a slot (R174, R259), one of the two signature checks of a patch section of an image (R382), an operation of a step of the pairing
with a position of the course (R451). -/
inductive JobWork where
  | generation
  | slot (x : Nat)
  | patch (sect : Nat) (second : Bool)
  | pairing (p : Nat) (op : PairOp)
  deriving DecidableEq, Repr

/-- The work for one purpose: what a pending generation, a pending bank, an image's patch sections or a pairing asks for. -/
inductive Purpose where
  | generation
  | slot (x : Nat)
  | patches
  | pairing (p : Nat)
  deriving DecidableEq, Repr

/-- Such work until it has ended: its number in the order of admissions, the kind of tile that it takes, 2 or 3, and the tile cycles that it
has left once it has yielded (R196). It ranks as an EXPEDITE operation. -/
structure Job where
  id   : Nat
  kind : Nat
  work : JobWork
  left : Option Nat := none
  deriving DecidableEq, Repr

/-- The scheduler: `due` is the next boundary of the budget period, a value of the time count (R350, R357). -/
structure Sched where
  expRun : Nat := 0
  due    : Nat := 0
  ptr    : Tbl ClassPtr := []
  nextId : Nat := 0
  budgetClamped : Bool := false
  jobs   : List Job := []
  dcRun  : Nat := 0
  dcLast : Tbl Nat := []
  deriving DecidableEq, Repr

/-! ### Requests in flight (R16, R80 to R107, R111 to R115) -/

/-- The fields of an operation word (R83). -/
structure OpWord where
  opc   : Nat := 0
  src   : Nat := 0
  dst   : Nat := 0
  aux   : Nat := 0
  opt   : Nat := 0
  kfrom : Bool := false
  poff  : Nat := 0xFF
  key   : Nat := 0
  deriving DecidableEq, Repr

/-- The fields of a buffer reference (R89), reserved bits apart. -/
structure BufRef where
  addr : Nat := 0
  kind : Nat := 0
  len  : Nat := 0
  auxw : Nat := 0
  rsvd : Bool := false
  deriving DecidableEq, Repr

/-- A key bound to an operation (R87, R88, R252): the material, the attribute record, the prepared state of its bank or what the key cache
keeps with it (R174, R213), and where it lives. -/
structure KeyBind where
  slot     : Option (Nat × Bool) := none
  handle   : Option Nat := none
  attr     : Bytes := []
  material : Bytes := []
  stamp    : Bytes := []
  prep     : List Bytes := []
  deriving DecidableEq, Repr

/-- The progress of one operation (R99, R103, R134). -/
inductive OpPhase where
  | waiting
  | running
  | saved
  | checking
  | done
  deriving DecidableEq, Repr

/-- A digest stream of a tenant (R169 to R173). `holder` is the operation of the part that runs on it; `closing` marks a stream that closes as
that part ends (R171). -/
structure Stream where
  opc    : Nat := 0
  kfrom  : Bool := false
  key    : Nat := 0
  prep   : List Bytes := []
  param  : Nat := 0
  count  : Nat := 0
  parms  : Bytes := []
  data   : Bytes := []
  tile   : Nat := 0
  holder : Option (Nat × Nat) := none
  closing : Bool := false
  deriving DecidableEq, Repr

/-- One operation of a chain. `tiles` are the tile indices of R483 that hold it, the pair's lower one first (R419).
`output` is what it has delivered; `produced` is PRODUCED where it differs (R125, R153); `agreed` counts the output bytes on
which a pair has agreed, and `endAgreed` says that it has agreed on the result and the state at the end of the input (R179, R419);
`hashes` counts the hashes that a digest tile has done for it (R178, R193, R217); `sliceAt` is its input at its last start or resume on
a digest tile (R159), and `left` the tile cycles that a yielded public-key operation has left (R196); `claimed` marks a claimed pending
bank (R257); `rerun` marks an operation whose work a supply warning discarded (R410); `kept` is the stream that a LAST part closed, which a
failing write of its result opens again (R171). -/
structure OpSt where
  w        : OpWord := {}
  phase    : OpPhase := .waiting
  tiles    : List Nat := []
  lastTile : Nat := 0xFF
  voter    : Option Nat := none
  disputed : Bool := false
  agreed   : Nat := 0
  endAgreed : Bool := false
  sliceAt  : Nat := 0
  left     : Option Nat := none
  rerun    : Bool := false
  kept     : Option Stream := none
  consumed : Nat := 0
  output   : Bytes := []
  produced : Option Nat := none
  key      : Option KeyBind := none
  seq      : Option Word := none
  trunc    : Bool := false
  hashes   : Nat := 0
  checked  : Bool := false
  claimed  : Bool := false
  draws    : Bytes := []
  nonce    : Bytes := []
  made     : Bytes := []
  madeAttr : Bytes := []
  madeStamp : Bytes := []
  deriving DecidableEq, Repr

/-- How a request ended (R124). -/
structure Outcome where
  status : BitVec 8 := 0
  detail : BitVec 8 := 0
  lastop : Nat := 0
  deriving DecidableEq, Repr

/-- One buffer reference of a running request: the bytes read from it so far, how many its reads asked for, why its reading
stops there (status and detail), the elements of its scatter list read so far (address and length of each piece), whether an
element is being read, the bytes written to it, the frame it names, whether the FENCE read-back of that frame is under way, and how many
bytes are still to come of reads that are no longer wanted (R91, R95, R334, R341, R409). -/
structure BufSt where
  started : Bool := false
  data    : Bytes := []
  issued  : Nat := 0
  stop    : Option (Nat × Nat) := none
  elems   : List (Nat × Nat) := []
  asking  : Bool := false
  written : Nat := 0
  hdr     : Option FrameHdr := none
  cells   : Nat := 0
  loaned  : Bool := false
  fence   : Bool := false
  stale   : Nat := 0
  deriving DecidableEq, Repr

/-- Where a request comes from. -/
inductive Origin where
  | ring (m : RingIx)
  | boot (index : Nat)
  | course (peer : Fin 4) (number : Nat) (m : RingIx)
  deriving DecidableEq, Repr

/-- The completion place a request holds (R119, R477). -/
inductive Place where
  | cq
  | reservoir
  | boot
  | course
  deriving DecidableEq, Repr

inductive ReqPhase where
  | admitted
  | running
  | ended
  | fencing
  | waiting
  | rescued (place : Nat)
  | held
  deriving DecidableEq, Repr

/-- One admitted request and its context; `recalled` marks one that the master took back from a silent member and runs itself (R462). -/
structure Req where
  id       : Nat
  tenant   : TenantIx
  origin   : Origin
  cq       : RingIx := 0
  cls      : Nat := 2
  sched    : Bool := false
  mid      : BitVec 8 := 0
  world    : World := .secure
  gen      : BitVec 32 := 0
  rulesPrev : Bool := false
  place    : Place := .cq
  cs       : Nat := 0
  entry    : Bytes := []
  release  : Option Word := none
  deadline : Option Word := none
  phase    : ReqPhase := .admitted
  paired   : Bool := false
  ops      : List OpSt := []
  refs     : List BufRef := []
  bufs     : Tbl BufSt := []
  outcome  : Option Outcome := none
  wxLo     : Nat := 0x7FFFFFF
  wxHi     : Nat := 0
  scrubbed : Bool := false
  fenced   : Bool := false
  fenceFail : Option Outcome := none
  port0    : Option Nat := none
  port1    : Option Nat := none
  zeroized : Bool := false
  voted    : Bool := false
  record   : Bytes := []
  finishNo : Nat := 0
  fwd      : Option (Fin 4) := none
  recalled : Bool := false
  deriving DecidableEq, Repr

/-! ### Tiles and sequencers (R133 to R136, R158 to R160, R195, R417, R422, R425, R429) -/

inductive TileSt where
  | healthy
  | quarantined
  | testing
  | retired
  | fenced
  deriving DecidableEq, Repr

/-- What an operand bank of a public-key tile holds (R195, R205). -/
inductive BankSt where
  | empty
  | loading (id op : Nat)
  | resident (id op : Nat)
  | running (id op : Nat)
  | zeroizing (id : Nat)
  deriving DecidableEq, Repr

/-- A tile. `ceTimes` are the control clock's windows in which its last corrected errors fell, the latest first (R422). -/
structure Tile where
  st       : TileSt := .healthy
  qcause   : BitVec 3 := 0
  qcount   : BitVec 2 := 0
  run      : Option (Nat × Nat) := none
  saved    : List (Nat × Nat) := []
  bankA    : BankSt := .empty
  bankB    : BankSt := .empty
  rounds   : BitVec 32 := 0
  forced   : BitVec 16 := 0
  gsat     : Bool := false
  forceDue : Bool := false
  forceAt  : Nat := 0
  ceTimes  : List Nat := []
  deriving DecidableEq, Repr

inductive CsSt where
  | healthy
  | failed
  | testing
  deriving DecidableEq, Repr

/-! ### The key store (R243 to R262, R491) -/

/-- State of a slot, coded as R246 codes it. -/
inductive SlotSt where
  | empty
  | staged
  | verifying
  | active
  | corrupt
  deriving DecidableEq, Repr

/-- One bank of a slot: material, attribute record, sequence counter with its complement, soft limit, measurement stamp, prepared state and
integrity tag (R174, R247, R249, R255, R259). -/
structure Bank where
  material : Bytes := []
  attr     : Bytes := []
  next     : Word := 0
  nextC    : Word := 0xFFFFFFFFFFFFFFFF
  soft     : Word := 0
  mstamp   : Bytes := []
  prep     : List Bytes := []
  tag      : Bytes := []
  softHit  : Bool := false
  deriving DecidableEq, Repr

structure Slot where
  bankA    : Bank := {}
  bankB    : Bank := {}
  cur      : Bool := false
  hasCur   : Bool := false
  staged   : Bool := false
  verify   : Bool := false
  corrupt  : Bool := false
  ueBank   : Bool := false
  draining : Bool := false
  zeroing  : Bool := false
  deriving DecidableEq, Repr

/-- One loaded key of the key cache (R271, R273): with it the security island keeps H(ek) or tr (`kept`, R213), the integrity tag, and
whether its integrity has failed (R255, R256). -/
structure CacheEnt where
  tenant   : TenantIx
  attr     : Bytes := []
  material : Bytes := []
  mstamp   : Bytes := []
  kept     : List Bytes := []
  tag      : Bytes := []
  failed   : Bool := false
  unload   : Bool := false
  deriving DecidableEq, Repr

/-- A key store write that a supply warning defers (R278): a write to a W register, an extend, the copy of OPENC into the pending bank, the
start of the verification of that bank, or its end with the swap and the tag; the bank that a SLOT_BANK frame brings from the master (R457). -/
inductive KsDefer where
  | bank (reg : KsBankReg) (mask value : Word)
  | extend (i : Nat) (value : Bytes)
  | copy (x : Nat)
  | prepare (x : Nat)
  | verify (x : Nat)
  | blob (p : Nat) (content : Bytes)
  deriving DecidableEq, Repr

structure KeyStore where
  slots    : Tbl Slot := []
  err      : BitVec 4 := 0
  busy     : Bool := false
  isOpen   : Bool := false
  openSlot : Nat := 0
  openc    : Bool := false
  wkcv     : Bytes := []
  deferred : List KsDefer := []
  ce       : Cnt32 := {}
  kTag     : Option Bytes := none
  cache    : Tbl (Option CacheEnt) := []
  deriving DecidableEq, Repr

/-- The measurement registers (R244, R245). -/
structure Meas where
  vals : Tbl Bytes := []
  cnt  : Tbl (BitVec 32) := []
  lock : BitVec 8 := 0
  data : Bytes := []
  deriving DecidableEq, Repr

/-! ### Entropy and random bits (R281 to R290) -/

inductive EsSt where
  | starting
  | healthy
  | recovering
  | failed
  deriving DecidableEq, Repr

/-- The entropy source: its pool of conditioned blocks, and the tested samples of the blocks in progress, the earliest first (R283). -/
structure Entropy where
  st       : EsSt := .starting
  pool     : List Bytes := []
  samples  : List Bool := []
  rctFails : Cnt32 := {}
  aptFails : Cnt32 := {}
  run      : Nat := 0
  last     : Bool := false
  winFirst : Bool := false
  winSame  : Nat := 0
  winPos   : Nat := 0
  tested   : Nat := 0
  fails    : Nat := 0
  raw      : List Bool := []
  deriving DecidableEq, Repr

inductive RbgSt where
  | uninit
  | healthy
  | starved
  | failed
  deriving DecidableEq, Repr

/-- A generator: the key and the V of its CTR_DRBG, the calls since its last reseed, the last block of its last call (R285, R286). -/
structure Rbg where
  st    : RbgSt := .uninit
  key   : Bytes := []
  v     : Bytes := []
  calls : Nat := 0
  last  : Bytes := []
  deriving DecidableEq, Repr

/-! ### Data channels (R301 to R331, R503 to R505) -/

inductive ChanSt where
  | idle
  | running
  | waiting
  | paused
  | stopped
  deriving DecidableEq, Repr

/-- The capture of a channel's stop (R323, R503). -/
structure ChanFault where
  addr   : BitVec 48 := 0
  dir    : Dir := .read
  cause  : BitVec 4 := 0
  status : BitVec 8 := 0
  detail : BitVec 8 := 0
  deriving DecidableEq, Repr

/-- Bytes of one or more elements in the channel's area of the staging buffer: a line that is to be written, or an element read ahead
(R309, R311, R314). Its stream, its address, its bytes, and the indices of its first element. -/
structure GLine where
  key  : Nat
  addr : Nat
  data : Bytes
  i0   : Nat
  i1   : Nat
  i2   : Nat
  deriving DecidableEq, Repr

/-- An access in flight whose channel no longer waits for it (R303, R383): a fetch or a read-back, whether the previous generation judged it,
and whether R303 took its channel. -/
structure Stray where
  back  : Bool
  prev  : Bool
  taken : Bool
  deriving DecidableEq, Repr

structure Chan where
  st       : ChanSt := .idle
  fault    : Bool := false
  postdrop : Bool := false
  rstall   : Bool := false
  credit   : Nat := 0
  lost     : Cnt32 := {}
  pause    : Bool := false
  cfg      : Word := 0x20
  dbase    : Word := 0
  dcount   : Word := 1
  first    : Word := 0
  post     : Word := 0x100000000
  recBase  : Word := 0
  recCfg   : Word := 4
  recHead  : Nat := 0
  recTail  : Nat := 0
  desc     : Nat := 0
  i0       : Nat := 0
  i1       : Nat := 0
  i2       : Nat := 0
  n0use    : Nat := 0
  cap      : ChanFault := {}
  held     : Option Bytes := none
  fetching : Bool := false
  fetchPrev : Bool := false
  pref     : List (Nat × Bytes) := []
  psrc     : Nat := 0
  heldTag  : BitVec 32 := 0
  unitPrev : Bool := false
  moved    : Nat := 0
  inUnit   : Bool := false
  atPoint  : Bool := false
  lines    : List GLine := []
  ahead    : List GLine := []
  wrote    : Option (List Nat) := none
  backs    : Bool := false
  strays   : List Stray := []
  port0    : Option Nat := none
  port1    : Option Nat := none
  aregs    : Tbl (BitVec 48) := []
  cregs    : Tbl (BitVec 32) := []
  xcfg     : Option (BitVec 13) := none
  deriving DecidableEq, Repr

/-! ### Frame port (R332 to R342) -/

/-- Cells on loan to a request (R336). -/
structure Loan where
  req    : Nat
  buf    : Nat
  tenant : TenantIx
  handle : Nat
  cells  : Nat
  deriving DecidableEq, Repr

structure FramePort where
  loans   : List Loan := []
  waiting : List Nat := []
  deriving DecidableEq, Repr

/-! ### Time unit (R347 to R354) -/

/-- The time unit: `stopNs` is the integer part of the count as RUN was cleared, beyond which no deadline passes (R351). -/
structure TimeUnit where
  ns       : Word := 0
  frac     : BitVec 32 := 0
  wrapDue  : Bool := false
  captDone : Bool := false
  tsuNs    : Word := 0
  tsuFrac  : BitVec 32 := 0
  captNs   : Word := 0
  captFrac : BitVec 32 := 0
  trig     : Tbl Word := []
  tlost    : Tbl Cnt32 := []
  pulse    : BitVec 8 := 0
  stopNs   : Word := 0
  deriving DecidableEq, Repr

/-! ### Clock monitors, supply and retention (R394 to R414) -/

/-- A clock monitor; `lim` holds the limits of the window that runs (R398). -/
structure ClkMon where
  lim     : Word
  count   : BitVec 14 := 0
  clean   : Nat := 0
  fenced  : Bool := false
  zeroDue : Bool := false
  release : Bool := false
  deriving DecidableEq, Repr

/-- The clock monitors: `windows` counts the windows of the control clock, of 1024 oscillator cycles each (R398). -/
structure Clocks where
  ctl        : ClkMon := { lim := 0x11C801D1 }
  tile       : ClkMon := { lim := 0x1AAB01D1 }
  aux        : ClkMon := { lim := 0x163901D1 }
  cause      : BitVec 8 := 0
  oscStopped : Bool := false
  gated      : BitVec 26 := 0
  pending    : BitVec 26 := 0
  windows    : Nat := 0
  deriving DecidableEq, Repr

structure Supply where
  active : Bool := false
  warns  : BitVec 32 := 0
  reruns : BitVec 32 := 0
  events : BitVec 32 := 0
  sat    : BitVec 3 := 0
  deriving DecidableEq, Repr

/-- Retention; `tested` says that the known-answer tests of the wake under way have been made (R414). -/
structure Retention where
  req    : Bool := false
  ack    : Bool := false
  asleep : Bool := false
  tested : Bool := false
  deriving DecidableEq, Repr

/-! ### Event journal and global events (R432, R438, R440 to R445) -/

structure Journal where
  recs     : List (List (BitVec 32)) := []
  reading  : List (BitVec 32) := []
  seq      : BitVec 16 := 0
  lostDue  : Nat := 0
  lost     : BitVec 32 := 0
  nlost    : BitVec 32 := 0
  sat      : BitVec 2 := 0
  nhead    : Nat := 0
  ntail    : Nat := 0
  stalled  : List (Who × AccSize) := []
  deriving DecidableEq, Repr

/-! ### Course (R448 to R465) -/

/-- The step of a pairing (R451): `working` once the command has come and until the work of step 4 or 6 has ended. -/
inductive PairStep where
  | idle
  | hello
  | agreed
  | waiting
  | working
  | accepted
  deriving DecidableEq, Repr

/-- The eight course counters (R463). -/
structure CrsCnt where
  fwdOut    : Word := 0
  fwdBack   : Word := 0
  fwdRecall : Word := 0
  fwdOpen   : Word := 0
  fwdIn     : Word := 0
  fwdRet    : Word := 0
  fwdDrop   : Word := 0
  fwdRun    : Word := 0
  deriving DecidableEq, Repr

/-- What this engine keeps of one other position of the course: its role and nonce as its HELLO gave them, the progress of the pairing
with the seed, the peer's output and the pairwise key, the group key and epoch of its frames, the last counts accepted on each lane, the
forwarded requests whose credit has not come back, by their numbers on the master, and contents of which fragments have come. -/
structure Peer where
  formed  : Bool := false
  silent  : Bool := false
  role    : Nat := 0
  step    : PairStep := .idle
  nonce   : Bytes := []
  seed    : Bytes := []
  got     : Bytes := []
  key     : Bytes := []
  gkey    : Bytes := []
  epoch   : Nat := 0
  cntA    : Nat := 0
  cntB    : Nat := 0
  owed    : List Nat := []
  rx      : Tbl Bytes := []
  deriving DecidableEq, Repr

/-- The course: role in effect, the master's position once one is known and whether it took over, lanes, the epoch under formation and its group key, frame
counts, blocks held, mirrored counters, blocks asked for, grants that wait for acknowledgements, counters, the forwarded requests that
wait for their admission, oldest first, and their credit in the round of the BULK rings (R76, R461). -/
structure Course where
  role      : BitVec 2 := 0
  master    : BitVec 2 := 0
  heard     : Bool := false
  took      : Bool := false
  laneUp    : BitVec 2 := 0
  peerCause : BitVec 3 := 0
  peerPos   : BitVec 2 := 0
  bad       : Cnt32 := {}
  forming   : Nat := 0
  newKey    : Bytes := []
  sendCnt   : Tbl Nat := []
  peers     : Tbl Peer := []
  blocks    : Tbl (List (Nat × Nat)) := []
  mirror    : Tbl Nat := []
  asked     : List Nat := []
  grants    : List (Nat × Nat × List Nat) := []
  cnt       : CrsCnt := {}
  snap      : CrsCnt := {}
  lastFwd   : Nat := 3
  queue     : List Req := []
  credit    : Nat := 0
  deriving DecidableEq, Repr

/-! ### Boot ring (R472 to R478) -/

inductive BootSt where
  | off
  | nofuse
  | polling
  | draining
  deriving DecidableEq, Repr

structure Boot where
  st        : BootSt := .off
  base      : BitVec 48 := 0
  k         : BitVec 4 := 0
  head      : Nat := 0
  seq       : Nat := 1
  slot      : Bytes := []
  admitted  : Word := 0
  completed : Word := 0
  inflight  : Word := 0
  left      : List Left := []
  deriving DecidableEq, Repr

/-! ### What leaves the block -/

/-- What the engine tells the switch of a returned frame (R341), with the new length of a replaced one. -/
inductive FrameEnd where
  | unchanged
  | replaced (len : Nat)
  | discard
  deriving DecidableEq, Repr

/-- An access or a message that the engine puts at its boundary (R15, R115, R334, R449). -/
inductive Out where
  | rd (port : Bool) (addr len : Nat)
  | wr (port : Bool) (addr : Nat) (data : Bytes)
  | fpQuery (handle : Nat)
  | fpRd (handle start len : Nat)
  | fpWr (handle start : Nat) (data : Bytes)
  | fpBorrow (cells : Nat)
  | fpCopy (handle len : Nat)
  | fpReturn (handle : Nat) (outcome : FrameEnd)
  | cfgRd (who : Who) (value : Word)
  | frame (lane : Nat) (bytes : Bytes)
  deriving DecidableEq, Repr

/-! ### The whole state -/

/-- The low word of a 32-bit write that waits for its high word (R481). -/
structure HeldWrite where
  who   : Who
  off   : Nat
  value : BitVec 32
  deriving DecidableEq, Repr

/-- A value latched for a master's next read of an offset (R348, R490, R501). -/
structure Latch where
  who   : Who
  off   : Nat
  value : Word
  deriving DecidableEq, Repr

/-- The state of the engine with the queue of the commands that wait. -/
structure State where
  start   : Start := {}
  roots   : Roots := {}
  ident   : Ident := {}
  owner   : Owner := {}
  denied  : Cnt32 := {}
  own     : OwnRegs := {}
  gen     : Gen := {}
  tens    : Tbl Tenant := []
  sqs     : Tbl Sq := []
  cqs     : Tbl Cq := []
  sch     : Sched := {}
  reqs    : List Req := []
  sent    : List Req := []
  tiles   : Tbl Tile := []
  css     : Tbl CsSt := []
  ces     : Tbl Cnt32 := []
  streams : Tbl (Option Stream) := []
  ks      : KeyStore := {}
  meas    : Meas := {}
  es      : Entropy := {}
  rbgs    : Tbl Rbg := []
  dcs     : Tbl Chan := []
  fp      : FramePort := {}
  time    : TimeUnit := {}
  clk     : Clocks := {}
  sup     : Supply := {}
  ret     : Retention := {}
  jrn     : Journal := {}
  evPend  : Word := 0
  buserr  : Capture := {}
  becnt   : Cnt32 := {}
  pviol   : Capture := {}
  pvcnt   : Cnt32 := {}
  crs     : Course := {}
  boot    : Boot := {}
  heldWr  : List HeldWrite := []
  latch   : List Latch := []
  out     : List Out := []
  free    : Nat := 0
  pending : List Instr := []
  deriving DecidableEq, Repr

/-- The machine right after reset: in reset, with every register at the reset value of the register reference and the
queue empty. Each value the spec does not state is named in notes/assumptions/7.md. -/
def State.reset : State := {}

/-- Faults. No command raises one: the spec gives every command an effect in every state, and a failing access of the
engine itself ends in a record, a capture or an event (R124, R373, R432). The constructor keeps the type inhabited;
safe, because nothing raises it. -/
inductive Fault where
  /-- Raised by no command. Safe. -/
  | none
  deriving DecidableEq, Repr

/-- Refusals. -/
inductive Refusal where
  /-- A command whose meaning is not modelled, by its mnemonic: raised by the arm of that command in
  Machine/Dispatch.lean alone. Safe: nothing can be proved of it. -/
  | notModelled (mnemonic : String)
  deriving DecidableEq, Repr

end Sys2Proof.Machine
end

