-- ==== Sys2Proof/Machine/Ops.lean ====
section
/-!
DEFINITION. The named operations over the state that every meaning shares: sparse tables, register fields, byte strings,
counters, and the accessors of tenants, rings, requests, tiles and channels.
-/

namespace Sys2Proof.Machine

/-! ### Sparse tables -/

/-- The item numbered `i`, or the default `d` where the table lists none. -/
def Tbl.look {α : Type} (d : α) : Tbl α → Nat → α
  | [], _ => d
  | (k, v) :: t, i => if k = i then v else Tbl.look d t i

/-- Insertion before the first greater number. -/
def Tbl.ins {α : Type} (i : Nat) (v : α) : Tbl α → Tbl α
  | [] => [(i, v)]
  | (k, w) :: t => if i < k then (i, v) :: (k, w) :: t else (k, w) :: Tbl.ins i v t

/-- The table with item `i` set to `v`; an item equal to the default leaves the list. -/
def Tbl.put {α : Type} [DecidableEq α] (d : α) (t : Tbl α) (i : Nat) (v : α) : Tbl α :=
  let t' := t.filter (fun p => p.1 != i)
  if v = d then t' else Tbl.ins i v t'

/-- The one canonical form of a table: numbers strictly rise and no item equals the default. -/
def Tbl.wf {α : Type} [DecidableEq α] (d : α) : Tbl α → Bool
  | [] => true
  | [(_, v)] => decide (v ≠ d)
  | (k, v) :: (k', v') :: t => decide (v ≠ d) && decide (k < k') && Tbl.wf d ((k', v') :: t)

/-! ### Fields of registers and byte strings (R5) -/

/-- Field [msb:lsb] of a register word. -/
def fld (w : Word) (msb lsb : Nat) : Nat := (w.toNat >>> lsb) % 2 ^ (msb + 1 - lsb)

/-- One bit of a register word. -/
def bitOf (w : Word) (i : Nat) : Bool := w.toNat.testBit i

/-- A register word whose field at `lsb` holds `v`, the other bits zero. -/
def put (lsb : Nat) (v : Nat) : Word := BitVec.ofNat 64 (v <<< lsb)

/-- One bit as a number. -/
def b2n (b : Bool) : Nat := if b then 1 else 0

/-- The mask of field [msb:lsb]. -/
def maskOf (msb lsb : Nat) : Word := BitVec.ofNat 64 ((2 ^ (msb + 1 - lsb) - 1) <<< lsb)

/-- The word with field [msb:lsb] replaced. -/
def setFld (w : Word) (msb lsb v : Nat) : Word :=
  (w &&& ~~~ maskOf msb lsb) ||| (BitVec.ofNat 64 (v <<< lsb) &&& maskOf msb lsb)

/-- The old word with the bits under `mask` taken from `val`. -/
def merge (old mask val : Word) : Word := (old &&& ~~~ mask) ||| (val &&& mask)

/-- Little-endian number of a byte string (R5). -/
def leNat : Bytes → Nat
  | [] => 0
  | b :: t => b.toNat + 256 * leNat t

/-- Big-endian number of a byte string. -/
def beNat (b : Bytes) : Nat := leNat b.reverse

/-- The low `n` bytes of a number, little-endian. -/
def toLE : Nat → Nat → Bytes
  | 0, _ => []
  | n + 1, v => BitVec.ofNat 8 v :: toLE n (v / 256)

/-- The low `n` bytes of a number, big-endian. -/
def toBE (n v : Nat) : Bytes := (toLE n v).reverse

/-- `len` bytes from offset `off`. -/
def slice (b : Bytes) (off len : Nat) : Bytes := (b.drop off).take len

/-- The little-endian field of `len` bytes at `off`. -/
def leAt (b : Bytes) (off len : Nat) : Nat := leNat (slice b off len)

/-- `n` zero bytes. -/
def zeros (n : Nat) : Bytes := List.replicate n 0

/-- The byte string cut or extended with zeros to `n` bytes: used where the spec fixes the length of a result whose
bytes a standard defines. -/
def fit (n : Nat) (b : Bytes) : Bytes := (b ++ zeros n).take n

/-- Every byte is zero. -/
def allZero (b : Bytes) : Bool := b.all (fun x => x = 0)

/-- ⌈a / b⌉. -/
def ceilDiv (a b : Nat) : Nat := (a + b - 1) / b

/-! ### Counters and the boundary -/

/-- One count of a saturating statistics counter; SAT is sticky (R496). -/
def Cnt32.bump (c : Cnt32) : Cnt32 :=
  if c.n = 0xFFFFFFFF then { c with sat := true }
  else { n := c.n + 1, sat := c.sat || decide (c.n + 1 = 0xFFFFFFFF) }

/-- The count reaches 2^32 - 1 with the next step (R496: the event is raised once more in that cycle). -/
def Cnt32.saturates (c : Cnt32) : Bool := decide (c.n = 0xFFFFFFFE)

/-- `k` counts at once. -/
def Cnt32.addN (c : Cnt32) (k : Nat) : Cnt32 :=
  { n := BitVec.ofNat 32 (min 0xFFFFFFFF (c.n.toNat + k))
    sat := c.sat || decide (0 < k ∧ 0xFFFFFFFF ≤ c.n.toNat + k) }

/-- One count of a saturating counter whose SAT bit lies elsewhere, and whether it is at its top after it (R410). -/
def bump32 (c : BitVec 32) : BitVec 32 := if c = 0xFFFFFFFF then c else c + 1
def tops (c : BitVec 32) : Bool := decide (c = 0xFFFFFFFE ∨ c = 0xFFFFFFFF)

/-- The counter as its register shows it: COUNT in [31:0], SAT in [32]. -/
def Cnt32.word (c : Cnt32) : Word := BitVec.ofNat 64 (c.n.toNat + 2 ^ 32 * b2n c.sat)

/-- Put an access or a message on the engine's boundary. -/
def emit (o : Out) (s : State) : State := { s with out := s.out ++ [o] }

/-- The master identity that an access of the engine carries: its own (R15). Nothing else at the boundary is an access. -/
def Out.mid (o : Out) : Option (BitVec 8) :=
  match o with
  | .rd _ _ _ | .wr _ _ _ | .fpQuery _ | .fpRd _ _ _ | .fpWr _ _ _ | .fpBorrow _ | .fpCopy _ _ | .fpReturn _ _ => some Config.engineMid
  | .cfgRd _ _ | .frame _ _ => none

/-- The host master port of an address: bit 12 selects it (R15). -/
def portOf (addr : Nat) : Bool := addr.testBit 12

/-- A range of bytes cut where a 4 KiB unit ends, the granule of the port interleave (R15): address and length of each
piece, at most `fuel` of them. -/
def cut4k : Nat → Nat → Nat → List (Nat × Nat)
  | 0, _, _ => []
  | fuel + 1, a, l =>
    if l = 0 then [] else (a, min l (4096 - a % 4096)) :: cut4k fuel (a + min l (4096 - a % 4096)) (l - min l (4096 - a % 4096))

def pieces (a l : Nat) : List (Nat × Nat) := cut4k (l / 4096 + 2) a l

/-- A write of the engine, each piece on the port that its address selects (R15). -/
def emitWr (addr : Nat) (data : Bytes) (s : State) : State :=
  (pieces addr data.length).foldl (fun s p => emit (.wr (portOf p.1) p.1 (slice data (p.1 - addr) p.2)) s) s

/-- A read of the engine, each piece on the port that its address selects (R15). -/
def emitRd (addr len : Nat) (s : State) : State :=
  (pieces addr len).foldl (fun s p => emit (.rd (portOf p.1) p.1 p.2) s) s

/-- A 32-byte record in two writes, the word with the phase last (R115). -/
def emitRecord (addr : Nat) (b : Bytes) (s : State) : State :=
  emitWr addr (b.take 8) (emitWr (addr + 8) (b.drop 8) s)

/-- The class that a grant goes to, if any has something to be granted, after `run` grants to EXPEDITE since the last to BULK (R75, R309). -/
def turnClass (any : Nat → Bool) (run : Nat) : Option Nat :=
  if any 0 then some 0
  else if any 2 && decide (7 ≤ run) then some 2
  else if any 1 then some 1
  else if any 2 then some 2
  else none

/-- The current free value's number; the step advances it (notes/assumptions/5.md). -/
def nextFree (s : State) : State := { s with free := s.free + 1 }

/-! ### Accessors -/

def State.ten (s : State) (n : Nat) : Tenant := s.tens.look {} n
def modTen (n : Nat) (f : Tenant → Tenant) (s : State) : State :=
  { s with tens := s.tens.put {} n (f (s.ten n)) }

/-- The table key of ring m of tenant n. -/
def rix (n m : Nat) : Nat := 16 * n + m

def State.sq (s : State) (n m : Nat) : Sq := s.sqs.look {} (rix n m)
def modSq (n m : Nat) (f : Sq → Sq) (s : State) : State :=
  { s with sqs := s.sqs.put {} (rix n m) (f (s.sq n m)) }

def State.cq (s : State) (n m : Nat) : Cq := s.cqs.look {} (rix n m)
def modCq (n m : Nat) (f : Cq → Cq) (s : State) : State :=
  { s with cqs := s.cqs.put {} (rix n m) (f (s.cq n m)) }

def State.dc (s : State) (k : Nat) : Chan := s.dcs.look {} k
def modDc (k : Nat) (f : Chan → Chan) (s : State) : State :=
  { s with dcs := s.dcs.put {} k (f (s.dc k)) }

def State.tile (s : State) (t : Nat) : Tile := s.tiles.look {} t
def modTile (t : Nat) (f : Tile → Tile) (s : State) : State :=
  { s with tiles := s.tiles.put {} t (f (s.tile t)) }

def State.csSt (s : State) (c : Nat) : CsSt := s.css.look .healthy c
def setCs (c : Nat) (v : CsSt) (s : State) : State := { s with css := s.css.put .healthy c v }

def State.slot (s : State) (i : Nat) : Slot := s.ks.slots.look {} i
def modKs (f : KeyStore → KeyStore) (s : State) : State := { s with ks := f s.ks }
def modSlot (i : Nat) (f : Slot → Slot) (s : State) : State :=
  { s with ks := { s.ks with slots := s.ks.slots.put {} i (f (s.slot i)) } }

def State.rbg (s : State) (k : Nat) : Rbg := s.rbgs.look {} k
def modRbg (k : Nat) (f : Rbg → Rbg) (s : State) : State :=
  { s with rbgs := s.rbgs.put {} k (f (s.rbg k)) }

def State.stream (s : State) (i : Nat) : Option Stream := s.streams.look none i
def setStream (i : Nat) (v : Option Stream) (s : State) : State :=
  { s with streams := s.streams.put none i v }

def State.cacheEnt (s : State) (h : Nat) : Option CacheEnt := s.ks.cache.look none h
def setCacheEnt (h : Nat) (v : Option CacheEnt) (s : State) : State :=
  { s with ks := { s.ks with cache := s.ks.cache.put none h v } }

def State.peer (s : State) (p : Nat) : Peer := s.crs.peers.look {} p
def modCrs (f : Course → Course) (s : State) : State := { s with crs := f s.crs }
def modPeer (p : Nat) (f : Peer → Peer) (s : State) : State :=
  { s with crs := { s.crs with peers := s.crs.peers.put {} p (f (s.peer p)) } }

def State.tcmp (s : State) (j : Nat) : Tcmp := s.own.tcmp.look {} j
def modOwn (f : OwnRegs → OwnRegs) (s : State) : State := { s with own := f s.own }
def modTcmp (j : Nat) (f : Tcmp → Tcmp) (s : State) : State :=
  { s with own := { s.own with tcmp := s.own.tcmp.put {} j (f (s.tcmp j)) } }

/-- AH_OWN_JRN_NOTICE, which a failing notice changes too (R445). -/
def modNotice (f : Word → Word) (s : State) : State := { s with own := { s.own with notice := f s.own.notice } }

/-- The content of the active generation (R378). -/
def setAct (c : Content) (s : State) : State := { s with gen := { s.gen with act := c } }
def modGen (f : Gen → Gen) (s : State) : State := { s with gen := f s.gen }
def modJrn (f : Journal → Journal) (s : State) : State := { s with jrn := f s.jrn }
def modTime (f : TimeUnit → TimeUnit) (s : State) : State := { s with time := f s.time }
def modClk (f : Clocks → Clocks) (s : State) : State := { s with clk := f s.clk }
def modStart (f : Start → Start) (s : State) : State := { s with start := f s.start }
def modOwner (f : Owner → Owner) (s : State) : State := { s with owner := f s.owner }
def modMeas (f : Meas → Meas) (s : State) : State := { s with meas := f s.meas }
def modEs (f : Entropy → Entropy) (s : State) : State := { s with es := f s.es }
def modBoot (f : Boot → Boot) (s : State) : State := { s with boot := f s.boot }
def modFp (f : FramePort → FramePort) (s : State) : State := { s with fp := f s.fp }
def modSup (f : Supply → Supply) (s : State) : State := { s with sup := f s.sup }
def modSch (f : Sched → Sched) (s : State) : State := { s with sch := f s.sch }

def modRoots (f : Roots → Roots) (s : State) : State := { s with roots := f s.roots }
def modIdent (f : Ident → Ident) (s : State) : State := { s with ident := f s.ident }
def modRet (f : Retention → Retention) (s : State) : State := { s with ret := f s.ret }
def modDenied (f : Cnt32 → Cnt32) (s : State) : State := { s with denied := f s.denied }
def modEvPend (f : Word → Word) (s : State) : State := { s with evPend := f s.evPend }
def modBuserr (f : Capture → Capture) (s : State) : State := { s with buserr := f s.buserr }
def modBecnt (f : Cnt32 → Cnt32) (s : State) : State := { s with becnt := f s.becnt }
def modPviol (f : Capture → Capture) (s : State) : State := { s with pviol := f s.pviol }
def modPvcnt (f : Cnt32 → Cnt32) (s : State) : State := { s with pvcnt := f s.pvcnt }
def modCe (c : Nat) (f : Cnt32 → Cnt32) (s : State) : State := { s with ces := s.ces.put {} c (f (s.ces.look {} c)) }
def modSent (f : List Req → List Req) (s : State) : State := { s with sent := f s.sent }
def modReqs (f : List Req → List Req) (s : State) : State := { s with reqs := f s.reqs }
def modHeld (f : List HeldWrite → List HeldWrite) (s : State) : State := { s with heldWr := f s.heldWr }
def modLatch (f : List Latch → List Latch) (s : State) : State := { s with latch := f s.latch }

/-- The request in flight with admission order `id`. -/
def State.req (s : State) (id : Nat) : Option Req := s.reqs.find? (fun r => r.id = id)
def modReq (id : Nat) (f : Req → Req) (s : State) : State :=
  { s with reqs := s.reqs.map (fun r => if r.id = id then f r else r) }
def dropReq (id : Nat) (s : State) : State := { s with reqs := s.reqs.filter (fun r => r.id != id) }

/-- The state a command leaves, taken only in a state in which the event it stands for can happen; the command changes
nothing otherwise (DESIGN CHOICE, safe, notes/assumptions/1.md). -/
def whenS (b : Bool) (f : State → State) (s : State) : State := if b then f s else s

/-- The same over the request that the command names. -/
def withReq (id : Nat) (f : Req → State → State) (s : State) : State :=
  match s.req id with
  | some r => f r s
  | none => s

/-- A folded update over a list of numbers. -/
def eachN (l : List Nat) (f : Nat → State → State) (s : State) : State := l.foldl (fun s i => f i s) s

end Sys2Proof.Machine
end

