-- ==== Sys2Proof/Machine/Hash.lean ====
section
/-!
DEFINITION. The hashes, XOFs and MACs of the digest tiles and of the kiln as their standards build them from a compression function or a
permutation (FIPS 180-4, FIPS 202, SP 800-185, FIPS 198-1, RFC 5869): padding, domain bits, key blocks and prepared states (R162, R165 to
R167, R174, R263, R266). The compression function itself is a constant of Config (notes/assumptions/4.md). A hash is named by its
operation code, SHA-1 by 0x4F.
-/

namespace Sys2Proof.Machine

/-! ### Byte strings -/

/-- `n` bytes of a function. -/
def bytesOf (n : Nat) (f : Nat → Byte) : Bytes := (List.range n).map f

/-- `n` bytes of free value number `k`: a random draw (R194, R285). -/
def freeBytes (k n : Nat) : Bytes := bytesOf n (Config.freeByte k)

def ascii (l : List Nat) : Bytes := l.map (BitVec.ofNat 8)

def xorB (a b : Bytes) : Bytes := List.zipWith (· ^^^ ·) a b

/-- Every byte of a string combined with one byte. -/
def xorPad (b : Bytes) (v : Nat) : Bytes := b.map (· ^^^ BitVec.ofNat 8 v)

/-- Zeros up to the next multiple of `n`. -/
def padTo (n : Nat) (b : Bytes) : Bytes := b ++ zeros ((n - b.length % n) % n)

/-- A byte string cut into pieces of `n` bytes, at most `fuel` of them. -/
def chunks (n : Nat) : Nat → Bytes → List Bytes
  | 0, _ => []
  | fuel + 1, b => if b = [] then [] else b.take n :: chunks n fuel (b.drop n)

/-! ### Hashes (R162, R167) -/

/-- The block of a hash, or the rate of a Keccak function. -/
def hashBlock (code : Nat) : Nat :=
  match code with
  | 0x4F | 0x40 | 0x41 => 64
  | 0x42 | 0x43 | 0x44 | 0x45 => 128
  | 0x46 => 144
  | 0x48 => 104
  | 0x49 => 72
  | 0x4A | 0x4C => 168
  | _ => 136

def isKeccak (code : Nat) : Bool := decide (0x46 ≤ code ∧ code ≤ 0x4D)

/-- The domain bits of a Keccak function, with the first bit of pad10*1 behind them. -/
def domainByte (code : Nat) : Nat := if code ≤ 0x49 then 0x06 else if code ≤ 0x4B then 0x1F else 0x04

/-- The padding after a message of `n` bytes (R167): the 0x80 byte, zeros and the count in bits, or domain bits and pad10*1. -/
def hashPad (code n : Nat) : Bytes :=
  let b := hashBlock code
  if isKeccak code then
    let q := b - n % b
    if q = 1 then toLE 1 (domainByte code + 0x80) else toLE 1 (domainByte code) ++ zeros (q - 2) ++ toLE 1 0x80
  else
    let c := b / 8
    toLE 1 0x80 ++ zeros ((2 * b - (n + 1 + c) % b) % b) ++ toBE c (8 * n)

/-- The state after whole blocks. -/
def absorb (code : Nat) (st data : Bytes) : Bytes := (chunks (hashBlock code) (data.length + 1) data).foldl (Config.compress code) st

/-- `n` bytes of the hash of a message that goes on from a state: `done` bytes, whole blocks, are in the state already. -/
def hashFrom (code n : Nat) (st : Bytes) (done : Nat) (msg : Bytes) : Bytes :=
  bytesOf n (Config.hashOut code (absorb code st (msg ++ hashPad code (done + msg.length))))

def hashOf (code n : Nat) (msg : Bytes) : Bytes := hashFrom code n (Config.hashIv code) 0 msg

def sha3_256 (b : Bytes) : Bytes := hashOf 0x47 32 b
def sha384 (b : Bytes) : Bytes := hashOf 0x42 48 b
def shake256 (n : Nat) (b : Bytes) : Bytes := hashOf 0x4B n b

/-! ### SP 800-185 -/

/-- The bytes of a number, big-endian, without leading zeros, at least one. -/
def minBytes (v : Nat) : Bytes :=
  match (toBE 8 v).dropWhile (· = 0) with
  | [] => [0]
  | b => b

def leftEncode (v : Nat) : Bytes := toLE 1 (minBytes v).length ++ minBytes v
def rightEncode (v : Nat) : Bytes := minBytes v ++ toLE 1 (minBytes v).length
def encodeString (b : Bytes) : Bytes := leftEncode (8 * b.length) ++ b
def bytePad (w : Nat) (b : Bytes) : Bytes := padTo w (leftEncode w ++ b)

/-- The state of a cSHAKE after its prefix. -/
def cshakeStart (code : Nat) (n s : Bytes) : Bytes :=
  absorb code (Config.hashIv code) (bytePad (hashBlock code) (encodeString n ++ encodeString s))

/-- cSHAKE; with N and S empty, SHAKE (R162). -/
def cshakeOf (code len : Nat) (n s msg : Bytes) : Bytes :=
  if n = [] ∧ s = [] then hashOf (code - 2) len msg
  else hashFrom code len (cshakeStart code n s) (bytePad (hashBlock code) (encodeString n ++ encodeString s)).length msg

/-! ### MACs and their prepared states (R166, R174) -/

/-- The bytes of a digest (R162). -/
def digestLen (code : Nat) : Nat :=
  match code with
  | 0x4F => 20
  | 0x40 | 0x44 | 0x46 => 28
  | 0x42 | 0x48 => 48
  | 0x43 | 0x49 => 64
  | _ => 32

/-- The prepared state of an HMAC key: the inner and the outer hash state after the key's block. A key longer than a block, which only a key
derivation can have, is hashed first, as HMAC has it (R166, R266). -/
def hmacPrep (code : Nat) (key : Bytes) : Bytes × Bytes :=
  let k := fit (hashBlock code) (if hashBlock code < key.length then hashOf code (digestLen code) key else key)
  (absorb code (Config.hashIv code) (xorPad k 0x36), absorb code (Config.hashIv code) (xorPad k 0x5C))

/-- HMAC from its prepared state: the whole output of the hash. -/
def hmacFrom (code : Nat) (st : Bytes × Bytes) (msg : Bytes) : Bytes :=
  hashFrom code (digestLen code) st.2 (hashBlock code) (hashFrom code (digestLen code) st.1 (hashBlock code) msg)

def hmacOf (code : Nat) (key msg : Bytes) : Bytes := hmacFrom code (hmacPrep code key) msg

def kmacName : Bytes := ascii [0x4B, 0x4D, 0x41, 0x43]

/-- What a KMAC absorbs before its message: the cSHAKE prefix and the padded encoded key. -/
def kmacHead (code : Nat) (s key : Bytes) : Bytes :=
  bytePad (hashBlock code) (encodeString kmacName ++ encodeString s) ++ bytePad (hashBlock code) (encodeString key)

/-- The prepared state of a KMAC key under customization s; `code` is the cSHAKE. -/
def kmacPrep (code : Nat) (s key : Bytes) : Bytes := absorb code (Config.hashIv code) (kmacHead code s key)

/-- KMAC of `len` bytes from its prepared state, of which the head of `done` bytes is in the state. -/
def kmacFrom (code len : Nat) (st : Bytes) (done : Nat) (msg : Bytes) : Bytes :=
  hashFrom code len st done (msg ++ rightEncode (8 * len))

def kmacOf (code len : Nat) (s key msg : Bytes) : Bytes :=
  kmacFrom code len (kmacPrep code s key) (kmacHead code s key).length msg

/-- KMAC256 (R263, R264, R266, R285, R291). -/
def kmac256 (n : Nat) (key x custom : Bytes) : Bytes := kmacOf 0x4D n custom key x

/-! ### AES-256 and the CTR_DRBG of SP 800-90A (R285) -/

/-- One block of AES: a CBC block under a zero IV. -/
def aesBlock (key block : Bytes) : Bytes := bytesOf 16 (Config.cipherByte (0x10, 0) key (zeros 16) 0 block)

/-- `n` blocks of AES over V + 1, V + 2, … -/
def drbgBlocks (key v : Bytes) (n : Nat) : Bytes := (List.range n).flatMap (fun i => aesBlock key (toBE 16 (beNat v + 1 + i)))

/-- CTR_DRBG_Update with 48 bytes: the new key and V. -/
def drbgUpdate (key v data : Bytes) : Bytes × Bytes :=
  let t := xorB (drbgBlocks key v 3) (fit 48 data)
  (t.take 32, t.drop 32)

/-! ### Key derivation (R266) -/

/-- T(1) ‖ T(2) ‖ … of HKDF-Expand, `n` of them. -/
def hkdfBlocks (code : Nat) (prk info : Bytes) : Nat → Nat → Bytes → Bytes
  | 0, _, _ => []
  | n + 1, i, last =>
    let t := hmacOf code prk (last ++ info ++ toBE 1 i)
    t ++ hkdfBlocks code prk info n (i + 1) t

def hkdfExpand (code len : Nat) (prk info : Bytes) : Bytes :=
  (hkdfBlocks code prk info (ceilDiv len (digestLen code)) 1 []).take len

/-- HKDF of RFC 5869; an empty salt stands for zeros. -/
def hkdf (code len : Nat) (salt key info : Bytes) : Bytes :=
  hkdfExpand code len (hmacOf code (if salt = [] then zeros (digestLen code) else salt) key) info

/-- The counter mode of SP 800-108 over a PRF whose output has `m` bytes. -/
def counterKdf (prf : Bytes → Bytes) (m len : Nat) (label ctx : Bytes) : Bytes :=
  ((List.range (ceilDiv len m)).flatMap (fun i => prf (toBE 4 (i + 1) ++ label ++ [0] ++ ctx ++ toBE 4 (8 * len)))).take len

end Sys2Proof.Machine
end

