-- ==== Sys2Proof/Machine/CipherSpec.lean ====
section
/-!
DEFINITION. What each operation of the cipher tiles requires of its entry: options, parameter blocks, lengths, output
lengths and tile cycles (R140 to R145, R151 to R156).
-/

namespace Sys2Proof.Machine

/-- An operation as the entry declares it: word, parameter block, declared lengths of its inputs, and the operation code
of the earlier operation that SRC names. -/
structure OpCtx where
  w      : OpWord
  par    : Bytes
  srcLen : Nat
  auxLen : Nat
  srcOp  : Option OpWord := none
  pkbLen : Nat := 0
  pkbKind : Nat := 0
  deriving DecidableEq, Repr

/-- A status with its detail byte (R124). -/
abbrev Fail := Nat × Nat

def stDone := 0x00
def stTruncated := 0x01
def stShort := 0x02
def stAuth := 0x10
def stVerify := 0x11
def stKeyDenied := 0x20
def stSlotCorrupt := 0x21
def stSeq := 0x22
def stAccess := 0x30
def stBus := 0x31
def stBadInput := 0x40
def stUnsupported := 0x41
def stFlushed := 0x50
def stAborted := 0x51
def stSupply := 0x60
def stTileFault := 0x61
def stLate := 0x62

/-- UNSUPPORTED with a detail. -/
def unsup (d : Nat) : Option Fail := some (stUnsupported, d)

/-- The first failure of a list of checks; each holds, or fails with its detail. -/
def firstBad : List (Bool × Nat) → Option Fail
  | [] => none
  | (true, _) :: t => firstBad t
  | (false, d) :: _ => unsup d

def isCipher (opc : Nat) : Bool := decide (0x10 ≤ opc ∧ opc ≤ 0x25 ∧ opc ≠ 0x1F) || decide (0x30 ≤ opc ∧ opc ≤ 0x3B)

/-- OPT values of R141 and of the record helpers' sections. -/
def cipherOptOk (opc opt : Nat) : Bool :=
  match opc with
  | 0x12 => decide (opt ≤ 2)
  | 0x19 | 0x1A | 0x1B | 0x1C | 0x24 | 0x25 => decide (opt ≤ 1)
  | 0x32 | 0x33 => decide (opt ≤ 1)
  | 0x34 => decide (opt ≤ 2)
  | 0x35 => decide (opt ≤ 2) || (decide (4 ≤ opt) && decide (opt ≤ 6))
  | 0x36 | 0x37 | 0x38 | 0x39 => decide (opt ≤ 2)
  | _ => decide (opt = 0)

/-- AUX carries the expected MAC or tag of a CMAC or GMAC verify (R140). -/
def cipherAux (opc : Nat) : Bool := opc = 0x16 || opc = 0x1C

/-- The length of the parameter block; none: the operation takes none (R140, R141, R151 to R155). -/
def cipherPar (opc opt : Nat) : Option Nat :=
  match opc with
  | 0x10 | 0x11 | 0x12 | 0x13 | 0x14 => some 16
  | 0x15 | 0x16 => some 4
  | 0x17 | 0x18 => some 20
  | 0x20 | 0x21 | 0x22 | 0x23 => none
  | 0x30 | 0x31 => some 32
  | 0x35 => some (if 4 ≤ opt then 24 else 16)
  | 0x36 | 0x37 => some 48
  | 0x38 | 0x39 => some 24
  | _ => some 16

/-! ### Fields of the parameter blocks -/

def byteAt (b : Bytes) (i : Nat) : Nat := (b[i]?.getD 0).toNat

/-- Form B (R141). -/
def fbAad (p : Bytes) : Nat := leAt p 12 2
def fbTag (p : Bytes) : Nat := byteAt p 14
/-- Form D (R141). -/
def fdNlen (p : Bytes) : Nat := byteAt p 13 % 16
def fdTag (p : Bytes) : Nat := byteAt p 14
def fdAad (p : Bytes) : Nat := leAt p 16 2
/-- MACsec (R151): SC of TCI_AN, XPN, INTEG, CONF_OFF. -/
def msSc (p : Bytes) : Bool := (byteAt p 0x18).testBit 5
def msXpn (p : Bytes) : Bool := (byteAt p 0x19).testBit 3
def msInteg (p : Bytes) : Bool := (byteAt p 0x19).testBit 2
def msConf (p : Bytes) : Nat := byteAt p 0x19 % 4
/-- The SecTAG's length: EtherType, TCI and AN, SL, PN, and the SCI when SC is 1. -/
def msTagLen (p : Bytes) : Nat := if msSc p then 16 else 8
/-- DTLS 1.3 (R153). -/
def dtCid (p : Bytes) : Nat := byteAt p 0x10 % 32
def dtS (p : Bytes) : Bool := (byteAt p 0x11).testBit 0
def dtL (p : Bytes) : Bool := (byteAt p 0x11).testBit 1
def dtHdr (p : Bytes) : Nat := 1 + dtCid p + (if dtS p then 2 else 1) + (if dtL p then 2 else 0)
def dtTag (p : Bytes) : Nat := byteAt p 0x0F
def dtPad (p : Bytes) : Nat := leAt p 0x12 2
/-- SRTP (R154). -/
def srRtcp (p : Bytes) : Bool := (byteAt p 0x0F).testBit 3
def srEbit (p : Bytes) : Bool := (byteAt p 0x0F).testBit 4
def srMki (p : Bytes) : Nat := byteAt p 0x0F % 8
def srTag (p : Bytes) : Nat := byteAt p 0x0E
/-- Authenticated CAN (R155). -/
def canFv (p : Bytes) : Nat := byteAt p 2 % 128
def canMac (p : Bytes) : Nat := byteAt p 3
def canTail (p : Bytes) : Nat := ceilDiv (canFv p + canMac p) 8
/-- ESP padding: as few bytes as PADTO requires (R151). -/
def espPad (p : Bytes) (payload : Nat) : Nat :=
  let m := byteAt p 0x0B
  if m = 0 then 0 else (m - (payload + 2) % m) % m
def espTag (p : Bytes) : Nat := byteAt p 9
def espEsn (p : Bytes) : Bool := (byteAt p 0x0A).testBit 0
/-- TLS 1.3 (R153). -/
def tlTag (p : Bytes) : Nat := byteAt p 0x0D
def tlPad (p : Bytes) : Nat := leAt p 0x0E 2

/-- A field that is zero. -/
def zAt (p : Bytes) (off len : Nat) : Bool := allZero (slice p off len)

/-- NONCE_SRC = 0b01: the nonce comes from the key's sequence counter (R141). -/
def nonceSeq (w : OpWord) : Bool :=
  decide (w.opt % 4 = 1) && decide (w.opc ∈ [0x19, 0x1A, 0x1B, 0x1C, 0x24, 0x25])

def tagGcm (t : Nat) : Bool := decide (t = 4 ∨ t = 8 ∨ (12 ≤ t ∧ t ≤ 16))
def tagCcm (t : Nat) : Bool := decide (t = 4 ∨ t = 6 ∨ t = 8 ∨ t = 10 ∨ t = 12 ∨ t = 14 ∨ t = 16)
def tagTls (opt t : Nat) : Bool := decide (t = 16) || (decide (opt % 4 = 2) && decide (t = 8))

/-- The parameter block's reserved fields and ranges (R106 step 3, R140 to R155). -/
def cipherParCheck (c : OpCtx) : Option Fail :=
  let p := c.par
  let o := c.w.opt
  match c.w.opc with
  | 0x15 | 0x16 => firstBad [(zAt p 1 3, 2), (decide (4 ≤ byteAt p 0 ∧ byteAt p 0 ≤ 16), 0x21)]
  | 0x17 | 0x18 =>
    firstBad [(decide (byteAt p 0x0D < 16), 2), (zAt p 0x0F 1, 2), (zAt p 0x12 2, 2),
      (decide (7 ≤ fdNlen p ∧ fdNlen p ≤ 13), 0x21), (zAt p (fdNlen p) (13 - fdNlen p), 2), (tagCcm (fdTag p), 0x21)]
  | 0x19 | 0x1A | 0x1B | 0x1C =>
    firstBad [(zAt p 0x0F 1, 2), (!nonceSeq c.w || zAt p 4 8, 2), (tagGcm (fbTag p), 0x21)]
  | 0x1D | 0x1E => firstBad [(zAt p 0x0F 1, 2), (decide (fbTag p = 16), 0x21)]
  | 0x24 | 0x25 => firstBad [(zAt p 0x0F 1, 2), (!nonceSeq c.w || zAt p 4 8, 2), (decide (fbTag p = 16), 0x21)]
  | 0x30 | 0x31 =>
    firstBad [(msXpn p || zAt p 8 16, 2), (decide (byteAt p 0x18 &&& 0x8C = 0), 2), (decide (byteAt p 0x19 < 16), 2),
      (zAt p 0x1A 2, 2), ((decide (c.w.opc = 0x31) && msXpn p) || zAt p 0x1C 4, 2), (decide (msConf p ≠ 3), 0x26)]
  | 0x32 =>
    firstBad [(decide (byteAt p 0x0A < 2), 2), (zAt p 0x0C 4, 2),
      (if o = 0 then decide (espTag p = 8 ∨ espTag p = 12 ∨ espTag p = 16) else decide (espTag p = 16), 0x21),
      (decide (4 ≤ byteAt p 0x0B ∧ byteAt p 0x0B ≤ 252 ∧ byteAt p 0x0B % 4 = 0), 0x26)]
  | 0x33 =>
    firstBad [(decide (byteAt p 0x0A < 2), 2), (zAt p 8 1, 2), (zAt p 0x0B 1, 2), (espEsn p || zAt p 0x0C 4, 2),
      (if o = 0 then decide (espTag p = 8 ∨ espTag p = 12 ∨ espTag p = 16) else decide (espTag p = 16), 0x21)]
  | 0x34 => firstBad [(tagTls o (tlTag p), 0x21)]
  | 0x35 => firstBad [(zAt p 0x0C 1, 2), (zAt p 0x0E 2, 2), (tagTls o (tlTag p), 0x21)]
  | 0x36 =>
    firstBad [(decide (byteAt p 0x10 < 32), 2), (decide (byteAt p 0x11 < 4), 2), (zAt p 0x14 4, 2), (zAt p 0x18 8, 2),
      (tagTls o (dtTag p), 0x21), (decide (dtCid p ≤ 16), 0x26)]
  | 0x37 =>
    firstBad [(zAt p 0x0E 1, 2), (decide (byteAt p 0x10 < 32), 2), (decide (byteAt p 0x11 < 4), 2), (zAt p 0x12 2, 2),
      (zAt p 0x14 4, 2), (zAt p 0x1E 2, 2), (tagTls o (dtTag p), 0x21), (decide (dtCid p ≤ 16), 0x26)]
  | 0x38 | 0x39 =>
    firstBad [(decide (byteAt p 0x0F < 32), 2), (!srRtcp p || zAt p 0x10 4, 2),
      (decide (c.w.opc = 0x38) || zAt p 0x14 4, 2),
      (if o = 1 then decide (srTag p = 16) else decide (srTag p = 10 ∨ srTag p = 4), 0x21), (decide (srMki p ≤ 4), 0x26)]
  | 0x3A | 0x3B =>
    firstBad [(decide (byteAt p 2 < 128), 2), (zAt p 4 4, 2), (decide (c.w.opc = 0x3B) || zAt p 8 8, 2),
      (decide (canFv p ≤ 64), 0x21), (decide (16 ≤ canMac p ∧ canMac p ≤ 128), 0x21)]
  | _ => none

/-- Associated data, explicit nonce and tag that SRC carries beside the text (R142). -/
def cipherAad (c : OpCtx) : Nat :=
  match c.w.opc with
  | 0x17 | 0x18 => fdAad c.par
  | 0x19 | 0x1A | 0x1B | 0x1C | 0x1D | 0x1E | 0x24 | 0x25 => fbAad c.par
  | _ => 0

def cipherDecrypt (opc : Nat) : Bool := decide (opc ∈ [0x18, 0x1A, 0x1E, 0x25])

def cipherTag (c : OpCtx) : Nat :=
  match c.w.opc with
  | 0x15 | 0x16 => byteAt c.par 0
  | 0x17 | 0x18 => fdTag c.par
  | _ => fbTag c.par

/-- The 8-byte explicit nonce in SRC or at the output (R142). -/
def cipherXn (w : OpWord) : Nat := if nonceSeq w then 8 else 0

/-- What SRC carries beside the text (R142). -/
def cipherOver (c : OpCtx) : Nat :=
  cipherAad c + (if cipherDecrypt c.w.opc then cipherTag c + cipherXn c.w else 0)

/-- The text length T (R140). -/
def cipherText (c : OpCtx) : Nat :=
  match c.w.opc with
  | 0x17 | 0x18 | 0x19 | 0x1A | 0x1D | 0x1E | 0x24 | 0x25 => c.srcLen - cipherOver c
  | 0x1B | 0x1C => 0
  | 0x30 | 0x31 => c.srcLen - 12 - (if c.w.opc = 0x31 then msTagLen c.par + 16 else 0)
  | 0x32 => c.srcLen + espPad c.par c.srcLen + 2
  | 0x33 => c.srcLen - 16 - espTag c.par
  | 0x34 => c.srcLen + 1 + tlPad c.par
  | 0x35 => c.srcLen - 5 - tlTag c.par
  | 0x36 => c.srcLen + 1 + dtPad c.par
  | 0x37 => c.srcLen - dtHdr c.par - dtTag c.par
  | 0x3A => c.srcLen + 10
  | 0x3B => c.srcLen - canTail c.par + 10
  | _ => c.srcLen

/-- The CTR counter's width (R141). -/
def ctrBits (opt : Nat) : Nat := if opt = 0 then 32 else if opt = 1 then 64 else 128

/-- Declared lengths within the mode's limits (R140, R142, R151 to R156). DESIGN CHOICE (notes/assumptions/10.md): R140 states the input
limits of a key wrap alone; the inputs of an unwrap are those that a wrap within its limits can have given, 24 (KW) or 16 (KWP) to 65 544
bytes. DEDUCED (the same entry): a received MACsec frame, TLS record, SRTP packet or CAN PDU that its declared length leaves shorter than
header and tag is a record size outside the protocol's limit, UNSUPPORTED 0x26; ESP and DTLS state BAD_INPUT 0x21. -/
def cipherLenCheck (c : OpCtx) : Option Fail :=
  let l := c.srcLen
  let p := c.par
  match c.w.opc with
  | 0x10 | 0x11 => firstBad [(decide (l % 16 = 0), 0x20)]
  | 0x12 =>
    firstBad [(decide (beNat (slice p 0 16) % 2 ^ ctrBits c.w.opt + ceilDiv l 16 ≤ 2 ^ ctrBits c.w.opt), 0x22)]
  | 0x13 | 0x14 => firstBad [(decide (16 ≤ l ∧ l ≤ 2 ^ 24 - 1), 0x20)]
  | 0x16 => firstBad [(decide (c.auxLen = cipherTag c), 0x21)]
  | 0x17 | 0x18 =>
    firstBad [(decide (cipherOver c ≤ l), 0x25), (decide (cipherText c < 2 ^ (8 * (15 - fdNlen p))), 0x23)]
  | 0x1B => firstBad [(decide (l ≤ fbAad p), 0x20), (decide (fbAad p ≤ l), 0x25)]
  | 0x1C =>
    firstBad [(decide (l ≤ fbAad p), 0x20), (decide (fbAad p ≤ l), 0x25),
      (decide (c.auxLen = fbTag p + cipherXn c.w), 0x21)]
  | 0x1D | 0x1E => firstBad [(decide (cipherOver c ≤ l), 0x25), (decide (cipherText c ≤ 16384), 0x24)]
  | 0x20 => firstBad [(decide (l ≤ 65536), 0x24), (decide (16 ≤ l ∧ l % 8 = 0), 0x20)]
  | 0x21 => firstBad [(decide (l ≤ 65544), 0x24), (decide (24 ≤ l ∧ l % 8 = 0), 0x20)]
  | 0x22 => firstBad [(decide (l ≤ 65536), 0x24), (decide (1 ≤ l), 0x20)]
  | 0x23 => firstBad [(decide (l ≤ 65544), 0x24), (decide (16 ≤ l ∧ l % 8 = 0), 0x20)]
  | 0x19 | 0x1A | 0x24 | 0x25 => firstBad [(decide (cipherOver c ≤ l), 0x25)]
  | 0x30 => firstBad [(decide (12 ≤ l), 0x26)]
  | 0x31 => firstBad [(decide (12 + msTagLen p + 16 ≤ l), 0x26)]
  | 0x34 => firstBad [(decide (l + 1 + tlPad p ≤ 2 ^ 14 + 1), 0x26)]
  | 0x35 => firstBad [(decide (5 + tlTag p ≤ l), 0x26)]
  | 0x36 => firstBad [(decide (16 ≤ l + 1 + dtPad p + dtTag p), 0x26)]

  | 0x39 => firstBad [(decide (srTag p + srMki p + (if srRtcp p then 4 else 0) ≤ l), 0x26)]
  | 0x3B => firstBad [(decide (canTail p ≤ l), 0x26)]
  | _ => none

/-- The output length, or its upper bound for a receiving helper and an unwrap (R93, R142, R151). -/
def cipherOutLen (c : OpCtx) : Nat :=
  let l := c.srcLen
  let p := c.par
  match c.w.opc with
  | 0x15 => cipherTag c
  | 0x16 | 0x1C => 0
  | 0x17 | 0x19 | 0x1D | 0x24 => cipherText c + cipherTag c + cipherXn c.w
  | 0x18 | 0x1A | 0x1E | 0x25 => cipherText c
  | 0x1B => fbTag p + cipherXn c.w
  | 0x20 => l + 8
  | 0x22 => ceilDiv l 8 * 8 + 8
  | 0x21 | 0x23 => l - 8
  | 0x30 => l + msTagLen p + 16
  | 0x31 => l - msTagLen p - 16
  | 0x32 => 16 + (l + espPad p l + 2) + espTag p
  | 0x33 => l - 16 - espTag p - 2 + 1
  | 0x34 => 5 + l + 1 + tlPad p + tlTag p
  | 0x35 => l - 5 - tlTag p
  | 0x36 => dtHdr p + l + 1 + dtPad p + dtTag p
  | 0x37 => 8 + (l - dtHdr p - dtTag p)
  | 0x38 => l + srMki p + srTag p + (if srRtcp p then 4 else 0)
  | 0x39 => l - srMki p - srTag p - (if srRtcp p then 4 else 0)
  | 0x3A => l + canTail p
  | 0x3B => l - canTail p + 8
  | _ => l

/-- A verifying operation of the cipher tiles (R85). -/
def cipherVerifies (opc : Nat) : Bool :=
  decide (opc ∈ [0x16, 0x18, 0x1A, 0x1C, 0x1E, 0x25, 0x31, 0x33, 0x35, 0x37, 0x39, 0x3B])

/-- An operation whose AUTH_FAIL makes the engine scrub whatever SCRUB says: an AEAD decrypt or a record validate, inbound or unprotect
(R105); of a CAN verify the failing trailer (R151), which is its pad bits. -/
def cipherScrubs (opc detail : Nat) : Bool :=
  decide (opc ∈ [0x18, 0x1A, 0x1E, 0x25, 0x31, 0x33, 0x35, 0x37, 0x39]) || (decide (opc = 0x3B) && decide (detail = 0x24))

/-- Bytes of MACsec user data that CONF_OFF leaves clear (R151). -/
def msConfOff (p : Bytes) : Nat := if msConf p = 1 then 30 else if msConf p = 2 then 50 else 0

/-- Associated data and enciphered text of an operation, in bytes, as far as its declared lengths give them (R145, R151 to R154). The
clear part of an RTP packet is taken as its fixed header of 12 bytes, since CSRC list and extension show only in the data, and a received
SRTCP packet as an encrypted one (DESIGN CHOICE, notes/assumptions/10.md). -/
def cipherParts (c : OpCtx) : Nat × Nat :=
  let p := c.par
  let t := cipherText c
  match c.w.opc with
  | 0x30 | 0x31 =>
    let clear := if msInteg p then t else min t (msConfOff p)
    (12 + msTagLen p + clear, t - clear)
  | 0x32 | 0x33 => (if espEsn p then 12 else 8, t)
  | 0x34 | 0x35 => (5, t)
  | 0x36 | 0x37 => (dtHdr p, t)
  | 0x38 | 0x39 =>
    let pkt := if c.w.opc = 0x38 then c.srcLen else c.srcLen - srTag p - srMki p - (if srRtcp p then 4 else 0)
    let clear := if c.w.opt = 2 ∨ (c.w.opc = 0x38 ∧ srRtcp p ∧ !srEbit p) then pkt else min pkt (if srRtcp p then 8 else 12)
    (clear + (if srRtcp p then 4 else 0), pkt - clear)
  | _ => (cipherAad c, t)

/-- Setup and run tile cycles without yields (R145); r is 4 for AES-128 and 5 otherwise. -/
def cipherCycles (c : OpCtx) (r : Nat) : Nat :=
  let t := (cipherParts c).2
  let aad := (cipherParts c).1
  let n := ceilDiv t 16
  let a := ceilDiv aad 16
  let cha := 14 + a + 10 * ceilDiv t 64 + 6
  let gcm := 8 + 2 * r + a + n * r + 6
  let ccm := 8 + (2 * n + (if aad = 0 then 0 else ceilDiv (aad + 2) 16) + 2) * r + 2
  let aead := if c.w.opt % 4 = 0 then gcm else if c.w.opt % 4 = 1 then cha else ccm
  match c.w.opc with
  | 0x10 | 0x11 | 0x12 => 8 + n * r + 2
  | 0x13 | 0x14 => 8 + r + n * r + 2 + (if t % 16 = 0 then 0 else r)
  | 0x15 | 0x16 => 8 + r + n * r + 2
  | 0x17 | 0x18 => ccm
  | 0x19 | 0x1A | 0x1B | 0x1C => gcm
  | 0x1D | 0x1E => (if r = 4 then 8 + 4 * r else 8 + 6 * r) + a + n + 6 + (n + 1) * r
  | 0x20 | 0x21 | 0x22 | 0x23 =>
    let s := if c.w.opc = 0x21 ∨ c.w.opc = 0x23 then c.srcLen / 8 else ceilDiv c.srcLen 8 + 1
    8 + (if s = 2 ∧ 0x22 ≤ c.w.opc then r + 2 else 6 * (s - 1) * r + 2)
  | 0x24 | 0x25 => cha
  | 0x30 | 0x31 => gcm + 4
  | 0x32 | 0x33 | 0x34 | 0x35 => aead + 4
  | 0x36 | 0x37 => aead + 4 + (if c.w.opt % 4 = 1 then 10 else r)
  | 0x38 | 0x39 => (if c.w.opt = 1 then gcm else 8 + n * r + 2) + 4
  | 0x3A | 0x3B => 8 + r + n * r + 2 + 4
  | _ => 0

/-- The operations that allocate a sequence number (R146). -/
def allocates (w : OpWord) (p : Bytes) : Bool :=
  match w.opc with
  | 0x19 | 0x1B | 0x24 => nonceSeq w
  | 0x30 | 0x32 | 0x34 | 0x36 | 0x3A => true
  | 0x35 => decide (w.opt < 4)
  | 0x38 => srRtcp p
  | _ => false

/-- The protocol forbids the value 0 (R146). -/
def seqSkipsZero (w : OpWord) : Bool := decide (w.opc = 0x30 ∨ w.opc = 0x32 ∨ w.opc = 0x3A)

/-- The hard limit H (R147). -/
def seqHard (w : OpWord) (p : Bytes) : Nat :=
  match w.opc with
  | 0x30 => if msXpn p then 2 ^ 64 - 2 else 2 ^ 32 - 1
  | 0x32 => if espEsn p then 2 ^ 64 - 2 else 2 ^ 32 - 1
  | 0x38 => 2 ^ 31 - 1
  | 0x36 => 2 ^ 48 - 1
  | _ => 2 ^ 64 - 2

end Sys2Proof.Machine
end

