-- ==== Sys2Proof/Machine/DigestSpec.lean ====
section
/-!
DEFINITION. What each operation of the digest tiles requires of its entry (R162 to R168, R176, R177, R181).
-/

namespace Sys2Proof.Machine

def isDigest (opc : Nat) : Bool := decide (0x40 ≤ opc ∧ opc ≤ 0x4D) || decide (0x50 ≤ opc ∧ opc ≤ 0x56)

/-- The phases of a stream (R163), OPT[1:0]. -/
def phWhole := 0
def phFirst := 1
def phMiddle := 2
def phLast := 3

def isHmac (opc : Nat) : Bool := opc = 0x50 || opc = 0x51
def isKmac (opc : Nat) : Bool := decide (0x52 ≤ opc ∧ opc ≤ 0x55)
def isXof (opc : Nat) : Bool := decide (0x4A ≤ opc ∧ opc ≤ 0x4D)
def isCshake (opc : Nat) : Bool := opc = 0x4C || opc = 0x4D
def digestVerifies (opc : Nat) : Bool := opc = 0x51 || opc = 0x54 || opc = 0x55 || opc = 0x56
def digestKeyed (opc : Nat) : Bool := decide (0x50 ≤ opc ∧ opc ≤ 0x55)

/-- A part that opens or continues a stream (R163). -/
def isPart (w : OpWord) : Bool := isDigest w.opc && decide (w.opc ≠ 0x56) && decide (w.opt = 1 ∨ w.opt = 2)
/-- An operation of a stream (R163, R169). -/
def isStream (w : OpWord) : Bool := isDigest w.opc && decide (w.opc ≠ 0x56) && decide (w.opt ≠ 0)

def digestOptOk (opc opt : Nat) : Bool := if opc = 0x56 then decide (opt = 0) else decide (opt ≤ 3)

/-- Form K is required, or none is taken (R164). -/
def digestFormK (w : OpWord) : Bool := !(w.opc = 0x56) && !(decide (w.opc ≤ 0x49) && decide (w.opt = 0))

def fkStream (p : Bytes) : Nat := byteAt p 0 % 4
def fkTag (p : Bytes) : Nat := byteAt p 1
def fkOut (p : Bytes) : Nat := leAt p 2 2
def fkN (p : Bytes) : Nat := byteAt p 4
def fkS (p : Bytes) : Nat := byteAt p 5

/-- Output length of a hash (R162); 0 for a code that names none. -/
def hashLen (opc : Nat) : Nat :=
  match opc with
  | 0x40 | 0x44 | 0x46 => 28
  | 0x41 | 0x45 | 0x47 => 32
  | 0x42 | 0x48 => 48
  | 0x43 | 0x49 => 64
  | _ => 0

/-- The phase that produces or compares a result (R163). -/
def endsHash (w : OpWord) : Bool := decide (w.opt % 4 = 0 ∨ w.opt % 4 = 3)

/-- Reserved fields and ranges of Form K (R162, R164, R181). -/
def digestParCheck (c : OpCtx) : Option Fail :=
  let p := c.par
  let o := c.w.opc
  if !digestFormK c.w then none
  else
    let fin := endsHash c.w
    let opening := decide (c.w.opt ≤ 1)
    firstBad [(decide (byteAt p 0 < 4), 2), (isStream c.w || decide (fkStream p = 0), 2),
      ((isHmac o && fin) || decide (fkTag p = 0), 2), (((isXof o || isKmac o) && fin) || decide (fkOut p = 0), 2),
      ((isCshake o && opening) || decide (fkN p = 0), 2),
      (((isCshake o || isKmac o) && opening) || decide (fkS p = 0), 2), (zAt p 6 2, 2),
      (!(isHmac o && fin) || decide (4 ≤ fkTag p), 0x30), (!(isXof o && fin) || decide (1 ≤ fkOut p), 0x30),
      (!(isKmac o && fin) || decide (4 ≤ fkOut p ∧ fkOut p ≤ 8192), 0x30), (decide (fkN p ≤ 32), 0x30),
      (decide (fkS p ≤ 184), 0x30)]

/-- Lengths (R168, R177). -/
def digestLenCheck (c : OpCtx) : Option Fail :=
  match c.w.opc with
  | 0x51 => firstBad [(!endsHash c.w || decide (c.auxLen = fkTag c.par), 0x30)]
  | 0x54 | 0x55 => firstBad [(!endsHash c.w || decide (c.auxLen = fkOut c.par), 0x30)]
  | 0x56 => firstBad [(decide (c.srcLen = c.auxLen ∧ 1 ≤ c.srcLen ∧ c.srcLen ≤ 16384), 0x33)]
  | _ => none

/-- Output length (R162). -/
def digestOutLen (c : OpCtx) : Nat :=
  if !endsHash c.w then 0
  else if isXof c.w.opc || c.w.opc = 0x52 || c.w.opc = 0x53 then fkOut c.par
  else if c.w.opc = 0x50 then fkTag c.par
  else hashLen c.w.opc

end Sys2Proof.Machine
end

