-- ==== Sys2Proof/Machine/Registers.lean ====
section
/-!
DEFINITION. The registers of the 4 MiB window, by name: `Reg` has one constructor for each register word of 64 bits (R481),
`Reg.off` its window offset, `regAt` the word that lies at an offset (R484 to R506). An offset outside `regAt` holds no
register (R14).
-/

namespace Sys2Proof.Machine

/-- The 64-bit words of the register window. -/
inductive Reg where
  -- owner control page (R484 to R489)
  | ownClaim
  | ownHandover
  | ownAccept
  | ownCtl
  | ownTrst
  | ownTenEn
  | ownGate
  | ownBoot
  | ownDbg
  | ownDbgUnlock
  | ownRescueBase
  | ownFpCtl
  | ownClkmon
  | ownLimCtl
  | ownLimTile
  | ownLimAux
  | ownTimeInc
  | ownTimeCtl
  | ownTimeAdj
  | ownTimeSyncofs
  | ownTcmpTgt (j : Fin 8)
  | ownTcmpPer (j : Fin 8)
  | ownTcmpCtl (j : Fin 8)
  | ownSched
  | ownGenCmd
  | ownGenCtl
  | ownGenStat
  | ownGenImgBase
  | ownGenImgLen
  | ownGenDigest (i : Fin 12)
  | ownEvEn
  | ownEvNmi
  | ownJrnCfg
  | ownJrnCtl
  | ownJrnNotice
  | ownJrnNbase
  | ownJrnNcfg
  | ownJrnNhead
  | ownTileRejoin
  | ownCsRejoin
  | ownGrout
  | ownCourse (i : Fin 2)
  | ownCourseId
  | ownCourseXbuf
  | ownCourseCmd
  | crsCtl
  | crsCnt (i : Fin 8)
  | crsSnap (i : Fin 8)
  | ownBind (n : Fin 16)
  | ownQuota (n : Fin 16)
  | ownWdog (n : Fin 16)
  | ownFp (n : Fin 16) (i : Fin 2)
  | ownAssign (k : Fin 64)
  | ownSbud (n : Fin 16) (m : Fin 16)
  -- status and event page (R490)
  | statId
  | statStrap
  | statReset
  | statStart
  | statOwner
  | statDenied
  | statGen
  | statGate
  | statSched
  | statClkmon
  | statFp
  | statEvPend
  | statSupply (i : Fin 2)
  | statJrn (i : Fin 2)
  | statCourse (i : Fin 2)
  | statBuserr (i : Fin 2)
  | statTime (i : Fin 2)
  | statTimeFrac
  | statTimeTsu (i : Fin 2)
  | statTimeCapt (i : Fin 2)
  | statTrig (i : Fin 8)
  | statTcmpLost (j : Fin 8)
  | statTile (i : Fin 3)
  | statCs
  | statGrout (t : Fin 24)
  | statCe (c : Fin 13)
  | statBoot (i : Fin 4)
  -- key store and lifecycle page (R491)
  | ksLcs
  | ksSel
  | ksCmd
  | ksStat (i : Fin 2)
  | ksWdata (i : Fin 8)
  | ksWattr (i : Fin 2)
  | ksWnext
  | ksWsoft
  | ksWkcv
  | ksWkcvEn
  | ksRdata (i : Fin 8)
  | ksRattr (i : Fin 2)
  | ksRnext
  | ksRsoft
  | ksMeasSel
  | ksMeasLock
  | ksMeasData (i : Fin 6)
  | ksMeasCnt (i : Fin 4)
  | ksMeasVal (i : Fin 48)
  | ksKilnEn
  | ksAttEn
  | ksKcp (n : Fin 16)
  | ksIdStat
  | ksIdSel
  | esCtl
  | esStat (i : Fin 2)
  | esRaw
  | rbgCtl
  | rbgStat
  | ksIdData (i : Fin 256)
  -- access table page (R492)
  | accRegAddr (n : Fin 16) (m : Fin 16)
  | accRegAttr (n : Fin 16) (m : Fin 16)
  | accGlbAddr (j : Fin 32)
  | accGlbAttr (j : Fin 32)
  | accDefmap
  | accPviol (i : Fin 2)
  | accPvcnt
  -- data channel page (R503 to R505)
  | dcCtl (k : Fin 64)
  | dcStat (k : Fin 64)
  | dcCfg (k : Fin 64)
  | dcDbase (k : Fin 64)
  | dcDcount (k : Fin 64)
  | dcFirst (k : Fin 64)
  | dcPost (k : Fin 64)
  | dcPos (k : Fin 64) (i : Fin 2)
  | dcLost (k : Fin 64)
  | dcFault (k : Fin 64) (i : Fin 2)
  | dcRecBase (k : Fin 64)
  | dcRecCfg (k : Fin 64)
  | dcRecHead (k : Fin 64)
  | dcTregA (k : Fin 64) (r : Fin 8)
  | dcTregC (k : Fin 64) (r : Fin 4)
  | dcGfault (k : Fin 64)
  -- tenant set-up pages (R497 to R501)
  | tnCtl (n : Fin 16)
  | tnStat (n : Fin 16)
  | tnRsvStat (n : Fin 16)
  | tnEvCause (n : Fin 16)
  | tnEvPend (n : Fin 16)
  | tnEvEn (n : Fin 16)
  | tnLedger (n : Fin 16) (i : Fin 6)
  | tnLedgerCtl (n : Fin 16)
  | tnLedgerStat (n : Fin 16)
  | tnSnap (n : Fin 16) (i : Fin 8)
  | tnFpCnt (n : Fin 16) (i : Fin 3)
  | tnFpCtl (n : Fin 16)
  | tnFpStat (n : Fin 16)
  | tnFpSnap (n : Fin 16) (i : Fin 3)
  | tnViol (n : Fin 16) (i : Fin 2)
  | tnVcnt (n : Fin 16)
  | tnBuserr (n : Fin 16) (i : Fin 2)
  | tnBecnt (n : Fin 16)
  | sqBase (n : Fin 16) (m : Fin 16)
  | sqCfg (n : Fin 16) (m : Fin 16)
  | sqCtl (n : Fin 16) (m : Fin 16)
  | sqStat (n : Fin 16) (m : Fin 16)
  | sqPend (n : Fin 16) (m : Fin 16)
  | sqFault (n : Fin 16) (m : Fin 16)
  | sqSched (n : Fin 16) (m : Fin 16)
  | sqSstat (n : Fin 16) (m : Fin 16)
  | sqPlost (n : Fin 16) (m : Fin 16)
  | sqLate (n : Fin 16) (m : Fin 16)
  | cqBase (n : Fin 16) (m : Fin 16)
  | cqCfg (n : Fin 16) (m : Fin 16)
  | cqCtl (n : Fin 16) (m : Fin 16)
  | cqStat (n : Fin 16) (m : Fin 16)
  | cqFault (n : Fin 16) (m : Fin 16)
  -- doorbell pages (R502)
  | dbSq (n : Fin 16) (m : Fin 16)
  | dbCq (n : Fin 16) (m : Fin 16)
  -- journal read port (R506)
  | jrnPort
  deriving DecidableEq, Repr

/-- The window offset of a register word. -/
def Reg.off : Reg → Nat
  | .ownClaim => 0x0
  | .ownHandover => 0x8
  | .ownAccept => 0x10
  | .ownCtl => 0x18
  | .ownTrst => 0x20
  | .ownTenEn => 0x28
  | .ownGate => 0x30
  | .ownBoot => 0x38
  | .ownDbg => 0x40
  | .ownDbgUnlock => 0x48
  | .ownRescueBase => 0x50
  | .ownFpCtl => 0x58
  | .ownClkmon => 0x60
  | .ownLimCtl => 0x68
  | .ownLimTile => 0x70
  | .ownLimAux => 0x78
  | .ownTimeInc => 0x100
  | .ownTimeCtl => 0x108
  | .ownTimeAdj => 0x110
  | .ownTimeSyncofs => 0x118
  | .ownTcmpTgt j => 0x140 + 0x20 * j.val
  | .ownTcmpPer j => 0x148 + 0x20 * j.val
  | .ownTcmpCtl j => 0x150 + 0x20 * j.val
  | .ownSched => 0x300
  | .ownGenCmd => 0x400
  | .ownGenCtl => 0x408
  | .ownGenStat => 0x410
  | .ownGenImgBase => 0x418
  | .ownGenImgLen => 0x420
  | .ownGenDigest i => 0x440 + 0x8 * i.val
  | .ownEvEn => 0x500
  | .ownEvNmi => 0x508
  | .ownJrnCfg => 0x510
  | .ownJrnCtl => 0x518
  | .ownJrnNotice => 0x520
  | .ownJrnNbase => 0x528
  | .ownJrnNcfg => 0x530
  | .ownJrnNhead => 0x538
  | .ownTileRejoin => 0x600
  | .ownCsRejoin => 0x608
  | .ownGrout => 0x610
  | .ownCourse i => 0x700 + 0x8 * i.val
  | .ownCourseId => 0x710
  | .ownCourseXbuf => 0x718
  | .ownCourseCmd => 0x720
  | .crsCtl => 0x740
  | .crsCnt i => 0x748 + 0x8 * i.val
  | .crsSnap i => 0x788 + 0x8 * i.val
  | .ownBind n => 0x800 + 0x8 * n.val
  | .ownQuota n => 0x880 + 0x8 * n.val
  | .ownWdog n => 0x900 + 0x8 * n.val
  | .ownFp n i => 0xA00 + 0x10 * n.val + 0x8 * i.val
  | .ownAssign k => 0xC00 + 0x8 * k.val
  | .ownSbud n m => 0x1000 + 0x80 * n.val + 0x8 * m.val
  | .statId => 0x10000
  | .statStrap => 0x10008
  | .statReset => 0x10010
  | .statStart => 0x10018
  | .statOwner => 0x10020
  | .statDenied => 0x10028
  | .statGen => 0x10030
  | .statGate => 0x10038
  | .statSched => 0x10040
  | .statClkmon => 0x10048
  | .statFp => 0x10050
  | .statEvPend => 0x10058
  | .statSupply i => 0x10060 + 0x8 * i.val
  | .statJrn i => 0x10070 + 0x8 * i.val
  | .statCourse i => 0x10080 + 0x8 * i.val
  | .statBuserr i => 0x10090 + 0x8 * i.val
  | .statTime i => 0x10100 + 0x8 * i.val
  | .statTimeFrac => 0x10110
  | .statTimeTsu i => 0x10120 + 0x8 * i.val
  | .statTimeCapt i => 0x10130 + 0x8 * i.val
  | .statTrig i => 0x10140 + 0x8 * i.val
  | .statTcmpLost j => 0x10180 + 0x8 * j.val
  | .statTile i => 0x10200 + 0x8 * i.val
  | .statCs => 0x10218
  | .statGrout t => 0x10300 + 0x8 * t.val
  | .statCe c => 0x10400 + 0x8 * c.val
  | .statBoot i => 0x10500 + 0x8 * i.val
  | .ksLcs => 0x20000
  | .ksSel => 0x20008
  | .ksCmd => 0x20010
  | .ksStat i => 0x20018 + 0x8 * i.val
  | .ksWdata i => 0x20040 + 0x8 * i.val
  | .ksWattr i => 0x20080 + 0x8 * i.val
  | .ksWnext => 0x20090
  | .ksWsoft => 0x20098
  | .ksWkcv => 0x200A0
  | .ksWkcvEn => 0x200A8
  | .ksRdata i => 0x200C0 + 0x8 * i.val
  | .ksRattr i => 0x20100 + 0x8 * i.val
  | .ksRnext => 0x20110
  | .ksRsoft => 0x20118
  | .ksMeasSel => 0x20200
  | .ksMeasLock => 0x20208
  | .ksMeasData i => 0x20240 + 0x8 * i.val
  | .ksMeasCnt i => 0x20280 + 0x8 * i.val
  | .ksMeasVal i => 0x20400 + 0x8 * i.val
  | .ksKilnEn => 0x20600
  | .ksAttEn => 0x20608
  | .ksKcp n => 0x20680 + 0x8 * n.val
  | .ksIdStat => 0x20700
  | .ksIdSel => 0x20708
  | .esCtl => 0x20800
  | .esStat i => 0x20808 + 0x8 * i.val
  | .esRaw => 0x20820
  | .rbgCtl => 0x20828
  | .rbgStat => 0x20830
  | .ksIdData i => 0x21000 + 0x8 * i.val
  | .accRegAddr n m => 0x30000 + 0x100 * n.val + 0x10 * m.val
  | .accRegAttr n m => 0x30008 + 0x100 * n.val + 0x10 * m.val
  | .accGlbAddr j => 0x31000 + 0x10 * j.val
  | .accGlbAttr j => 0x31008 + 0x10 * j.val
  | .accDefmap => 0x31200
  | .accPviol i => 0x31210 + 0x8 * i.val
  | .accPvcnt => 0x31220
  | .dcCtl k => 0x40000 + 0x400 * k.val
  | .dcStat k => 0x40008 + 0x400 * k.val
  | .dcCfg k => 0x40010 + 0x400 * k.val
  | .dcDbase k => 0x40018 + 0x400 * k.val
  | .dcDcount k => 0x40020 + 0x400 * k.val
  | .dcFirst k => 0x40028 + 0x400 * k.val
  | .dcPost k => 0x40030 + 0x400 * k.val
  | .dcPos k i => 0x40038 + 0x400 * k.val + 0x8 * i.val
  | .dcLost k => 0x40048 + 0x400 * k.val
  | .dcFault k i => 0x40050 + 0x400 * k.val + 0x8 * i.val
  | .dcRecBase k => 0x40060 + 0x400 * k.val
  | .dcRecCfg k => 0x40068 + 0x400 * k.val
  | .dcRecHead k => 0x40070 + 0x400 * k.val
  | .dcTregA k r => 0x40100 + 0x400 * k.val + 0x8 * r.val
  | .dcTregC k r => 0x40140 + 0x400 * k.val + 0x8 * r.val
  | .dcGfault k => 0x403F0 + 0x400 * k.val
  | .tnCtl n => 0x100000 + 0x10000 * n.val
  | .tnStat n => 0x100008 + 0x10000 * n.val
  | .tnRsvStat n => 0x100010 + 0x10000 * n.val
  | .tnEvCause n => 0x100040 + 0x10000 * n.val
  | .tnEvPend n => 0x100048 + 0x10000 * n.val
  | .tnEvEn n => 0x100050 + 0x10000 * n.val
  | .tnLedger n i => 0x100100 + 0x10000 * n.val + 0x8 * i.val
  | .tnLedgerCtl n => 0x100130 + 0x10000 * n.val
  | .tnLedgerStat n => 0x100138 + 0x10000 * n.val
  | .tnSnap n i => 0x100140 + 0x10000 * n.val + 0x8 * i.val
  | .tnFpCnt n i => 0x100200 + 0x10000 * n.val + 0x8 * i.val
  | .tnFpCtl n => 0x100218 + 0x10000 * n.val
  | .tnFpStat n => 0x100220 + 0x10000 * n.val
  | .tnFpSnap n i => 0x100228 + 0x10000 * n.val + 0x8 * i.val
  | .tnViol n i => 0x100300 + 0x10000 * n.val + 0x8 * i.val
  | .tnVcnt n => 0x100310 + 0x10000 * n.val
  | .tnBuserr n i => 0x100320 + 0x10000 * n.val + 0x8 * i.val
  | .tnBecnt n => 0x100330 + 0x10000 * n.val
  | .sqBase n m => 0x101000 + 0x10000 * n.val + 0x80 * m.val
  | .sqCfg n m => 0x101008 + 0x10000 * n.val + 0x80 * m.val
  | .sqCtl n m => 0x101010 + 0x10000 * n.val + 0x80 * m.val
  | .sqStat n m => 0x101018 + 0x10000 * n.val + 0x80 * m.val
  | .sqPend n m => 0x101020 + 0x10000 * n.val + 0x80 * m.val
  | .sqFault n m => 0x101028 + 0x10000 * n.val + 0x80 * m.val
  | .sqSched n m => 0x101030 + 0x10000 * n.val + 0x80 * m.val
  | .sqSstat n m => 0x101038 + 0x10000 * n.val + 0x80 * m.val
  | .sqPlost n m => 0x101040 + 0x10000 * n.val + 0x80 * m.val
  | .sqLate n m => 0x101048 + 0x10000 * n.val + 0x80 * m.val
  | .cqBase n m => 0x102000 + 0x10000 * n.val + 0x40 * m.val
  | .cqCfg n m => 0x102008 + 0x10000 * n.val + 0x40 * m.val
  | .cqCtl n m => 0x102010 + 0x10000 * n.val + 0x40 * m.val
  | .cqStat n m => 0x102018 + 0x10000 * n.val + 0x40 * m.val
  | .cqFault n m => 0x102020 + 0x10000 * n.val + 0x40 * m.val
  | .dbSq n m => 0x200000 + 0x1000 * n.val + 0x8 * m.val
  | .dbCq n m => 0x200100 + 0x1000 * n.val + 0x8 * m.val
  | .jrnPort => 0x300000

/-- The first answer of a list. -/
def firstSome : List (Option Reg) → Option Reg
  | [] => none
  | some r :: _ => some r
  | none :: t => firstSome t

/-- The index of `off` in an array of `n` words that starts at `base`, one every `stride` bytes. -/
def arrIx (off base stride n : Nat) : Option (Fin n) :=
  if h : base ≤ off ∧ (off - base) % stride = 0 ∧ (off - base) / stride < n then
    some ⟨(off - base) / stride, h.2.2⟩
  else none

/-- The same in an array of arrays: `n` groups every `s1` bytes, each of `m` words every `s2` bytes. -/
def arrIx2 (off base s1 n s2 m : Nat) : Option (Fin n × Fin m) :=
  if h : base ≤ off ∧ (off - base) / s1 < n ∧ (off - base) % s1 % s2 = 0 ∧ (off - base) % s1 / s2 < m then
    some (⟨(off - base) / s1, h.2.1⟩, ⟨(off - base) % s1 / s2, h.2.2.2⟩)
  else none

/-- The words of the owner control page (R484 to R489); `o` counts from the start of the page. -/
def ownPage (o : Nat) : Option Reg :=
  firstSome [
    ([(0x0, Reg.ownClaim), (0x8, Reg.ownHandover), (0x10, Reg.ownAccept), (0x18, Reg.ownCtl), (0x20, Reg.ownTrst), (0x28, Reg.ownTenEn), (0x30, Reg.ownGate), (0x38, Reg.ownBoot), (0x40, Reg.ownDbg), (0x48, Reg.ownDbgUnlock), (0x50, Reg.ownRescueBase), (0x58, Reg.ownFpCtl), (0x60, Reg.ownClkmon), (0x68, Reg.ownLimCtl), (0x70, Reg.ownLimTile), (0x78, Reg.ownLimAux), (0x100, Reg.ownTimeInc), (0x108, Reg.ownTimeCtl), (0x110, Reg.ownTimeAdj), (0x118, Reg.ownTimeSyncofs), (0x300, Reg.ownSched), (0x400, Reg.ownGenCmd), (0x408, Reg.ownGenCtl), (0x410, Reg.ownGenStat), (0x418, Reg.ownGenImgBase), (0x420, Reg.ownGenImgLen), (0x500, Reg.ownEvEn), (0x508, Reg.ownEvNmi), (0x510, Reg.ownJrnCfg), (0x518, Reg.ownJrnCtl), (0x520, Reg.ownJrnNotice), (0x528, Reg.ownJrnNbase), (0x530, Reg.ownJrnNcfg), (0x538, Reg.ownJrnNhead), (0x600, Reg.ownTileRejoin), (0x608, Reg.ownCsRejoin), (0x610, Reg.ownGrout), (0x710, Reg.ownCourseId), (0x718, Reg.ownCourseXbuf), (0x720, Reg.ownCourseCmd), (0x740, Reg.crsCtl)] : List (Nat × Reg)).lookup o,
    (arrIx o 0x140 0x20 8).map Reg.ownTcmpTgt,
    (arrIx o 0x148 0x20 8).map Reg.ownTcmpPer,
    (arrIx o 0x150 0x20 8).map Reg.ownTcmpCtl,
    (arrIx o 0x440 0x8 12).map Reg.ownGenDigest,
    (arrIx o 0x700 0x8 2).map Reg.ownCourse,
    (arrIx o 0x748 0x8 8).map Reg.crsCnt,
    (arrIx o 0x788 0x8 8).map Reg.crsSnap,
    (arrIx o 0x800 0x8 16).map Reg.ownBind,
    (arrIx o 0x880 0x8 16).map Reg.ownQuota,
    (arrIx o 0x900 0x8 16).map Reg.ownWdog,
    (arrIx2 o 0xA00 0x10 16 0x8 2).map (fun p => Reg.ownFp p.1 p.2),
    (arrIx o 0xC00 0x8 64).map Reg.ownAssign,
    (arrIx2 o 0x1000 0x80 16 0x8 16).map (fun p => Reg.ownSbud p.1 p.2)]

/-- The words of the status and event page (R490); `o` counts from the start of the page. -/
def statPage (o : Nat) : Option Reg :=
  firstSome [
    ([(0x0, Reg.statId), (0x8, Reg.statStrap), (0x10, Reg.statReset), (0x18, Reg.statStart), (0x20, Reg.statOwner), (0x28, Reg.statDenied), (0x30, Reg.statGen), (0x38, Reg.statGate), (0x40, Reg.statSched), (0x48, Reg.statClkmon), (0x50, Reg.statFp), (0x58, Reg.statEvPend), (0x110, Reg.statTimeFrac), (0x218, Reg.statCs)] : List (Nat × Reg)).lookup o,
    (arrIx o 0x60 0x8 2).map Reg.statSupply,
    (arrIx o 0x70 0x8 2).map Reg.statJrn,
    (arrIx o 0x80 0x8 2).map Reg.statCourse,
    (arrIx o 0x90 0x8 2).map Reg.statBuserr,
    (arrIx o 0x100 0x8 2).map Reg.statTime,
    (arrIx o 0x120 0x8 2).map Reg.statTimeTsu,
    (arrIx o 0x130 0x8 2).map Reg.statTimeCapt,
    (arrIx o 0x140 0x8 8).map Reg.statTrig,
    (arrIx o 0x180 0x8 8).map Reg.statTcmpLost,
    (arrIx o 0x200 0x8 3).map Reg.statTile,
    (arrIx o 0x300 0x8 24).map Reg.statGrout,
    (arrIx o 0x400 0x8 13).map Reg.statCe,
    (arrIx o 0x500 0x8 4).map Reg.statBoot]

/-- The words of the key store and lifecycle page (R491); `o` counts from the start of the page. -/
def ksPage (o : Nat) : Option Reg :=
  firstSome [
    ([(0x0, Reg.ksLcs), (0x8, Reg.ksSel), (0x10, Reg.ksCmd), (0x90, Reg.ksWnext), (0x98, Reg.ksWsoft), (0xA0, Reg.ksWkcv), (0xA8, Reg.ksWkcvEn), (0x110, Reg.ksRnext), (0x118, Reg.ksRsoft), (0x200, Reg.ksMeasSel), (0x208, Reg.ksMeasLock), (0x600, Reg.ksKilnEn), (0x608, Reg.ksAttEn), (0x700, Reg.ksIdStat), (0x708, Reg.ksIdSel), (0x800, Reg.esCtl), (0x820, Reg.esRaw), (0x828, Reg.rbgCtl), (0x830, Reg.rbgStat)] : List (Nat × Reg)).lookup o,
    (arrIx o 0x18 0x8 2).map Reg.ksStat,
    (arrIx o 0x40 0x8 8).map Reg.ksWdata,
    (arrIx o 0x80 0x8 2).map Reg.ksWattr,
    (arrIx o 0xC0 0x8 8).map Reg.ksRdata,
    (arrIx o 0x100 0x8 2).map Reg.ksRattr,
    (arrIx o 0x240 0x8 6).map Reg.ksMeasData,
    (arrIx o 0x280 0x8 4).map Reg.ksMeasCnt,
    (arrIx o 0x400 0x8 48).map Reg.ksMeasVal,
    (arrIx o 0x680 0x8 16).map Reg.ksKcp,
    (arrIx o 0x808 0x8 2).map Reg.esStat,
    (arrIx o 0x1000 0x8 256).map Reg.ksIdData]

/-- The words of the access table page (R492); `o` counts from the start of the page. -/
def accPage (o : Nat) : Option Reg :=
  firstSome [
    ([(0x1200, Reg.accDefmap), (0x1220, Reg.accPvcnt)] : List (Nat × Reg)).lookup o,
    (arrIx2 o 0x0 0x100 16 0x10 16).map (fun p => Reg.accRegAddr p.1 p.2),
    (arrIx2 o 0x8 0x100 16 0x10 16).map (fun p => Reg.accRegAttr p.1 p.2),
    (arrIx o 0x1000 0x10 32).map Reg.accGlbAddr,
    (arrIx o 0x1008 0x10 32).map Reg.accGlbAttr,
    (arrIx o 0x1210 0x8 2).map Reg.accPviol]

/-- The words of the data channel page (R503 to R505); `o` counts from the start of the page. -/
def dcPage (o : Nat) : Option Reg :=
  firstSome [
    (arrIx o 0x0 0x400 64).map Reg.dcCtl,
    (arrIx o 0x8 0x400 64).map Reg.dcStat,
    (arrIx o 0x10 0x400 64).map Reg.dcCfg,
    (arrIx o 0x18 0x400 64).map Reg.dcDbase,
    (arrIx o 0x20 0x400 64).map Reg.dcDcount,
    (arrIx o 0x28 0x400 64).map Reg.dcFirst,
    (arrIx o 0x30 0x400 64).map Reg.dcPost,
    (arrIx2 o 0x38 0x400 64 0x8 2).map (fun p => Reg.dcPos p.1 p.2),
    (arrIx o 0x48 0x400 64).map Reg.dcLost,
    (arrIx2 o 0x50 0x400 64 0x8 2).map (fun p => Reg.dcFault p.1 p.2),
    (arrIx o 0x60 0x400 64).map Reg.dcRecBase,
    (arrIx o 0x68 0x400 64).map Reg.dcRecCfg,
    (arrIx o 0x70 0x400 64).map Reg.dcRecHead,
    (arrIx2 o 0x100 0x400 64 0x8 8).map (fun p => Reg.dcTregA p.1 p.2),
    (arrIx2 o 0x140 0x400 64 0x8 4).map (fun p => Reg.dcTregC p.1 p.2),
    (arrIx o 0x3F0 0x400 64).map Reg.dcGfault]

/-- The words of the tenant set-up pages (R497 to R501); `o` counts from the start of the page. -/
def tnPage (o : Nat) : Option Reg :=
  firstSome [
    (arrIx o 0x0 0x10000 16).map Reg.tnCtl,
    (arrIx o 0x8 0x10000 16).map Reg.tnStat,
    (arrIx o 0x10 0x10000 16).map Reg.tnRsvStat,
    (arrIx o 0x40 0x10000 16).map Reg.tnEvCause,
    (arrIx o 0x48 0x10000 16).map Reg.tnEvPend,
    (arrIx o 0x50 0x10000 16).map Reg.tnEvEn,
    (arrIx2 o 0x100 0x10000 16 0x8 6).map (fun p => Reg.tnLedger p.1 p.2),
    (arrIx o 0x130 0x10000 16).map Reg.tnLedgerCtl,
    (arrIx o 0x138 0x10000 16).map Reg.tnLedgerStat,
    (arrIx2 o 0x140 0x10000 16 0x8 8).map (fun p => Reg.tnSnap p.1 p.2),
    (arrIx2 o 0x200 0x10000 16 0x8 3).map (fun p => Reg.tnFpCnt p.1 p.2),
    (arrIx o 0x218 0x10000 16).map Reg.tnFpCtl,
    (arrIx o 0x220 0x10000 16).map Reg.tnFpStat,
    (arrIx2 o 0x228 0x10000 16 0x8 3).map (fun p => Reg.tnFpSnap p.1 p.2),
    (arrIx2 o 0x300 0x10000 16 0x8 2).map (fun p => Reg.tnViol p.1 p.2),
    (arrIx o 0x310 0x10000 16).map Reg.tnVcnt,
    (arrIx2 o 0x320 0x10000 16 0x8 2).map (fun p => Reg.tnBuserr p.1 p.2),
    (arrIx o 0x330 0x10000 16).map Reg.tnBecnt,
    (arrIx2 o 0x1000 0x10000 16 0x80 16).map (fun p => Reg.sqBase p.1 p.2),
    (arrIx2 o 0x1008 0x10000 16 0x80 16).map (fun p => Reg.sqCfg p.1 p.2),
    (arrIx2 o 0x1010 0x10000 16 0x80 16).map (fun p => Reg.sqCtl p.1 p.2),
    (arrIx2 o 0x1018 0x10000 16 0x80 16).map (fun p => Reg.sqStat p.1 p.2),
    (arrIx2 o 0x1020 0x10000 16 0x80 16).map (fun p => Reg.sqPend p.1 p.2),
    (arrIx2 o 0x1028 0x10000 16 0x80 16).map (fun p => Reg.sqFault p.1 p.2),
    (arrIx2 o 0x1030 0x10000 16 0x80 16).map (fun p => Reg.sqSched p.1 p.2),
    (arrIx2 o 0x1038 0x10000 16 0x80 16).map (fun p => Reg.sqSstat p.1 p.2),
    (arrIx2 o 0x1040 0x10000 16 0x80 16).map (fun p => Reg.sqPlost p.1 p.2),
    (arrIx2 o 0x1048 0x10000 16 0x80 16).map (fun p => Reg.sqLate p.1 p.2),
    (arrIx2 o 0x2000 0x10000 16 0x40 16).map (fun p => Reg.cqBase p.1 p.2),
    (arrIx2 o 0x2008 0x10000 16 0x40 16).map (fun p => Reg.cqCfg p.1 p.2),
    (arrIx2 o 0x2010 0x10000 16 0x40 16).map (fun p => Reg.cqCtl p.1 p.2),
    (arrIx2 o 0x2018 0x10000 16 0x40 16).map (fun p => Reg.cqStat p.1 p.2),
    (arrIx2 o 0x2020 0x10000 16 0x40 16).map (fun p => Reg.cqFault p.1 p.2)]

/-- The words of the doorbell pages (R502); `o` counts from the start of the page. -/
def dbPage (o : Nat) : Option Reg :=
  firstSome [
    (arrIx2 o 0x0 0x1000 16 0x8 16).map (fun p => Reg.dbSq p.1 p.2),
    (arrIx2 o 0x100 0x1000 16 0x8 16).map (fun p => Reg.dbCq p.1 p.2)]

/-- The words of the journal read port (R506); `o` counts from the start of the page. -/
def jrPage (o : Nat) : Option Reg :=
  firstSome [
    ([(0x0, Reg.jrnPort)] : List (Nat × Reg)).lookup o]

/-- The register word at a window offset that is a multiple of 8, if one lies there. -/
def regAt (off : Nat) : Option Reg :=
  if off < 0x10000 then ownPage (off - 0x0)
  else if off < 0x20000 then statPage (off - 0x10000)
  else if off < 0x30000 then ksPage (off - 0x20000)
  else if off < 0x40000 then accPage (off - 0x30000)
  else if off < 0x50000 then dcPage (off - 0x40000)
  else if off < 0x100000 then none
  else if off < 0x200000 then tnPage (off - 0x100000)
  else if off < 0x210000 then dbPage (off - 0x200000)
  else if off < 0x300000 then none
  else if off < 0x310000 then jrPage (off - 0x300000)
  else none

/-- The registers whose fields are all staged (R378, the headings marked "staged", R481). -/
def Reg.staged : Reg → Bool
  | .ownTenEn | .ownRescueBase | .ownSched | .ownSbud _ _ | .ownCourse _ | .ownCourseId | .ownCourseXbuf
  | .ownBind _ | .ownQuota _ | .ownWdog _ | .ownFp _ _ | .ownAssign _ | .ksKilnEn | .ksAttEn | .ksKcp _
  | .accRegAddr _ _ | .accRegAttr _ _ | .accGlbAddr _ | .accGlbAttr _ | .accDefmap => true
  | _ => false

end Sys2Proof.Machine
end

