-- ==== Sys2Proof/Machine/Operands.lean ====
section
/-!
DEFINITION. The fields of the registers that hold data: position, clamping range and reset value (R7, R8, R481 to R503),
how a write changes a word, and the configuration that a generation gives every unit (R40, R378).
-/

namespace Sys2Proof.Machine

/-- How an RWC field takes an out-of-range value (R7). `any`: an RW field. -/
inductive Clamp where
  | any
  | range (lo hi : Nat)
  | zeroOr (lo hi : Nat)
  | down16 (hi : Nat)
  | signed (bits lim : Nat)
  deriving DecidableEq, Repr

/-- A writable field [msb:lsb] of a register word. -/
structure Fld where
  msb   : Nat
  lsb   : Nat
  clamp : Clamp := .any
  deriving DecidableEq, Repr

/-- The legal value nearest to a written one (R7). -/
def Clamp.app : Clamp → Nat → Nat
  | .any, v => v
  | .range lo hi, v => min hi (max lo v)
  | .zeroOr lo hi, v => if v = 0 then 0 else min hi (max lo v)
  | .down16 hi, v => min hi v / 16 * 16
  | .signed bits lim, v =>
    if v < 2 ^ (bits - 1) then min lim v else 2 ^ bits - min lim (2 ^ bits - v)

/-- The writable fields of each register word that keeps what is written (types RW and RWC of R484 to R503). -/
def Reg.fields : Reg → List Fld
  | .ownCtl => [⟨0, 0, .any⟩]
  | .ownTenEn => [⟨15, 0, .any⟩]
  | .ownGate => [⟨23, 0, .any⟩, ⟨24, 24, .any⟩, ⟨25, 25, .any⟩]
  | .ownBoot => [⟨0, 0, .any⟩]
  | .ownDbg => [⟨0, 0, .any⟩]
  | .ownDbgUnlock => [⟨0, 0, .any⟩, ⟨1, 1, .any⟩, ⟨2, 2, .any⟩]
  | .ownRescueBase => [⟨47, 16, .any⟩]
  | .ownFpCtl => [⟨9, 0, .range 1 1000⟩]
  | .ownClkmon => [⟨0, 0, .any⟩, ⟨1, 1, .any⟩, ⟨2, 2, .any⟩]
  | .ownLimCtl => [⟨13, 0, .range 1 16383⟩, ⟨29, 16, .range 1 16383⟩]
  | .ownLimTile => [⟨13, 0, .range 1 16383⟩, ⟨29, 16, .range 1 16383⟩]
  | .ownLimAux => [⟨13, 0, .range 1 16383⟩, ⟨29, 16, .range 1 16383⟩]
  | .ownTimeInc => [⟨63, 0, .range 0x80000000 0x4000000000⟩]
  | .ownTimeCtl => [⟨0, 0, .any⟩]
  | .ownTimeAdj => [⟨31, 0, .any⟩]
  | .ownTimeSyncofs => [⟨31, 0, .signed 32 65535⟩]
  | .ownTcmpTgt _ => [⟨63, 0, .any⟩]
  | .ownTcmpPer _ => [⟨40, 0, .zeroOr 100 (2 ^ 40)⟩]
  | .ownTcmpCtl _ => [⟨0, 0, .any⟩, ⟨15, 8, .range 1 255⟩, ⟨16, 16, .any⟩]
  | .ownSched => [⟨2, 0, .range 0 4⟩, ⟨63, 32, .range 10000 10000000⟩]
  | .ownSbud _ _ => [⟨4, 0, .range 0 16⟩, ⟨31, 16, .range 0 65535⟩, ⟨32, 32, .any⟩]
  | .ownGenCtl => [⟨0, 0, .any⟩]
  | .ownGenImgBase => [⟨47, 6, .any⟩]
  | .ownGenImgLen => [⟨18, 0, .range 64 262144⟩]
  | .ownEvEn => [⟨63, 0, .any⟩]
  | .ownEvNmi => [⟨63, 0, .any⟩]
  | .ownJrnCfg => [⟨0, 0, .any⟩, ⟨27, 16, .range 64 4032⟩, ⟨41, 32, .range 1 1000⟩]
  | .ownJrnNotice => [⟨0, 0, .any⟩, ⟨15, 8, .any⟩]
  | .ownJrnNbase => [⟨47, 6, .any⟩]
  | .ownJrnNcfg => [⟨3, 0, .range 4 12⟩]
  | .ownGrout => [⟨9, 0, .range 10 1000⟩]
  | .ownCourse i =>
    if i.val = 0 then
      [⟨1, 0, .any⟩, ⟨3, 2, .any⟩, ⟨7, 4, .any⟩, ⟨11, 8, .any⟩, ⟨26, 16, .any⟩, ⟨40, 32, .range 0 256⟩,
       ⟨52, 48, .range 8 24⟩, ⟨62, 56, .range 0 64⟩]
    else [⟨6, 0, .range 1 64⟩]
  | .ownCourseId => [⟨63, 0, .any⟩]
  | .ownCourseXbuf => [⟨47, 13, .any⟩]
  | .ownBind _ =>
    [⟨7, 0, .any⟩, ⟨9, 8, .range 0 2⟩, ⟨10, 10, .any⟩, ⟨11, 11, .any⟩,
     ⟨23, 16, .any⟩, ⟨25, 24, .range 0 2⟩, ⟨26, 26, .any⟩, ⟨27, 27, .any⟩,
     ⟨39, 32, .any⟩, ⟨41, 40, .range 0 2⟩, ⟨42, 42, .any⟩, ⟨43, 43, .any⟩,
     ⟨55, 48, .any⟩, ⟨57, 56, .range 0 2⟩, ⟨58, 58, .any⟩, ⟨59, 59, .any⟩]
  | .ownQuota _ => [⟨8, 0, .range 1 384⟩, ⟨17, 16, .any⟩, ⟨24, 24, .any⟩]
  | .ownWdog _ => [⟨23, 0, .range 100 16000000⟩]
  | .ownFp _ i => if i.val = 0 then [⟨31, 0, .any⟩, ⟨63, 32, .any⟩] else [⟨12, 0, .range 0 4096⟩]
  | .ownAssign _ => [⟨0, 0, .any⟩, ⟨11, 8, .any⟩, ⟨23, 16, .any⟩, ⟨24, 24, .any⟩]
  | .ksSel => [⟨10, 0, .any⟩]
  | .ksWkcvEn => [⟨0, 0, .any⟩]
  | .ksMeasSel => [⟨2, 0, .any⟩]
  | .ksKilnEn => [⟨15, 0, .any⟩, ⟨31, 16, .any⟩]
  | .ksAttEn => [⟨15, 0, .any⟩]
  | .ksKcp _ => [⟨11, 0, .down16 4095⟩, ⟨28, 16, .down16 4096⟩]
  | .ksIdSel => [⟨2, 0, .any⟩]
  | .esCtl => [⟨0, 0, .any⟩]
  | .accRegAddr _ _ => [⟨47, 0, .any⟩]
  | .accRegAttr _ _ =>
    [⟨0, 0, .any⟩, ⟨1, 1, .any⟩, ⟨2, 2, .any⟩, ⟨3, 3, .any⟩, ⟨5, 4, .range 0 2⟩, ⟨13, 8, .range 12 48⟩, ⟨23, 16, .any⟩]
  | .accGlbAddr _ => [⟨47, 0, .any⟩]
  | .accGlbAttr _ =>
    [⟨0, 0, .any⟩, ⟨1, 1, .any⟩, ⟨2, 2, .any⟩, ⟨3, 3, .any⟩, ⟨5, 4, .range 0 2⟩, ⟨13, 8, .range 12 48⟩, ⟨23, 16, .any⟩,
     ⟨47, 32, .any⟩, ⟨48, 48, .any⟩, ⟨49, 49, .any⟩]
  | .accDefmap => [⟨1, 0, .range 0 2⟩]
  | .sqBase _ _ => [⟨47, 6, .any⟩]
  | .sqCfg _ _ =>
    [⟨4, 0, .range 4 16⟩, ⟨11, 8, .any⟩, ⟨17, 12, .range 1 32⟩, ⟨21, 20, .range 0 2⟩, ⟨30, 24, .range 1 64⟩,
     ⟨37, 32, .range 1 32⟩, ⟨40, 40, .any⟩]
  | .sqSched _ _ =>
    [⟨4, 0, .range 1 16⟩, ⟨7, 7, .any⟩, ⟨13, 8, .range 1 32⟩, ⟨31, 16, .any⟩, ⟨55, 32, .zeroOr 100 16777215⟩]
  | .cqBase _ _ => [⟨47, 6, .any⟩]
  | .cqCfg _ _ => [⟨4, 0, .range 4 16⟩, ⟨16, 8, .range 1 256⟩, ⟨43, 32, .any⟩]
  | .tnEvEn _ => [⟨11, 0, .any⟩]
  | .dcCfg _ => [⟨0, 0, .any⟩, ⟨5, 4, .range 0 2⟩, ⟨13, 8, .any⟩]
  | .dcDbase _ => [⟨47, 4, .any⟩]
  | .dcDcount _ => [⟨15, 0, .range 1 65535⟩]
  | .dcFirst _ => [⟨15, 0, .any⟩]
  | .dcPost _ => [⟨3, 0, .any⟩, ⟨30, 16, .any⟩, ⟨48, 32, .range 1 65536⟩]
  | .dcRecBase _ => [⟨47, 6, .any⟩]
  | .dcRecCfg _ => [⟨3, 0, .range 4 10⟩, ⟨8, 8, .any⟩]
  | _ => []

/-- Every field of a word taken from `w` and clamped; the reserved bits zero (R7, R8). -/
def clampFields (fs : List Fld) (w : Word) : Word :=
  fs.foldl (fun acc f => acc ||| put f.lsb (f.clamp.app (fld w f.msb f.lsb))) 0

/-- The clamping rules that tie two fields of one word: LO to HI (R398), SIZE to BASE (R272, R491), SLOT_COUNT to
SLOT_BASE (R488). -/
def clampPair (r : Reg) (mask w : Word) : Word :=
  match r with
  | .ownLimCtl | .ownLimTile | .ownLimAux =>
    if mask &&& 0x3FFF = 0 then w else setFld w 13 0 (min (fld w 13 0) (fld w 29 16))
  | .ksKcp _ => setFld w 28 16 (min (fld w 28 16) (4096 - fld w 11 0))
  | .ownCourse i => if i.val = 0 then setFld w 40 32 (min (fld w 40 32) (2048 - fld w 26 16)) else w
  | _ => w

/-- What a data register holds after a write of `val` under `mask` (R7, R8, R481). -/
def Reg.write (r : Reg) (old mask val : Word) : Word :=
  clampPair r mask (clampFields r.fields (merge old mask val))

/-- A register word that a field of more than 32 bits fills across its middle: a 32-bit write of the low half is held back
(R481). -/
def Reg.wide (r : Reg) : Bool :=
  r.fields.any (fun f => decide (f.msb + 1 - f.lsb > 32) && decide (f.lsb < 32) && decide (32 ≤ f.msb))
  || (match r with
      | .ksWdata _ | .ksWattr _ | .ksWnext | .ksWsoft | .ksWkcv | .ksMeasData _ | .statEvPend => true
      | _ => false)

/-! ### Reset values of the staged registers (R48, R378, R379) -/

/-- The reset value of a staged word; the strap-derived ones follow the sampled straps (R48). -/
def stagedReset (strap : BitVec 16) : Reg → Word
  | .ownTenEn => BitVec.ofNat 64 (2 ^ (4 * ((strap.toNat >>> 8) % 4) + 4) - 1)
  | .ownQuota _ =>
    BitVec.ofNat 64 ((match (strap.toNat >>> 8) % 4 with
      | 0 => 96
      | 1 => 48
      | 2 => 32
      | _ => 24) + 2 ^ 17 + 2 ^ 24 * ((strap.toNat >>> 13) % 2))
  | .ownSched => put 32 1000000
  | .ownCourse i =>
    if i.val = 0 then BitVec.ofNat 64 ((strap.toNat >>> 10) % 4 + 0x700 * 2 ^ 16 + 16 * 2 ^ 48 + 16 * 2 ^ 56) else 4
  | .ownWdog _ => 2000000
  | .ownFp _ i => if i.val = 0 then 0 else 256
  | .ksKcp n => BitVec.ofNat 64 (256 * n.val + 256 * 2 ^ 16)
  | .accRegAttr _ _ => 0xC20
  | .accGlbAttr _ => 0xC20
  | _ => 0

/-- The staged word of a content under the sampled straps. -/
def State.word (s : State) (c : Content) (r : Reg) : Word := c.words.look (stagedReset s.start.strap r) r.off

/-- A content with one staged word set. -/
def State.setWord (s : State) (c : Content) (r : Reg) (w : Word) : Content :=
  { c with words := c.words.put (stagedReset s.start.strap r) r.off w }

/-- A staged word of a content as a read shows it: BASE of a region without the bits below its SIZE (R367), BULK 1 (R489). -/
def State.shown (s : State) (c : Content) (r : Reg) : Word :=
  let w := s.word c r
  match r with
  | .accRegAddr n m => w &&& ~~~ (put (fld (s.word c (.accRegAttr n m)) 13 8) 1 - 1)
  | .accGlbAddr j => w &&& ~~~ (put (fld (s.word c (.accGlbAttr j)) 13 8) 1 - 1)
  | .ownQuota _ => w ||| put 18 1
  | _ => w

/-- The effective value of a staged word (R40). -/
def State.eff (s : State) (r : Reg) : Word := s.word s.gen.act r

/-- The content whose rules a tag names: the active generation's, or the previous one's (R16, R379). -/
def State.rules (s : State) (prev : Bool) : Content := if prev then s.gen.prev else s.gen.act

/-! ### What a generation configures -/

/-- Tenant n is enabled in a content (R41). -/
def enabledIn (s : State) (c : Content) (n : Nat) : Bool := bitOf (s.word c .ownTenEn) n

/-- Tenant n is enabled (R41). -/
def State.enabled (s : State) (n : Nat) : Bool := enabledIn s s.gen.act n

/-- The world code of R42 and R492 permits a world. -/
def worldOk (code : Nat) (w : World) : Bool :=
  decide (code = 2) || (match w with
    | .secure => decide (code = 0)
    | .nonsecure => decide (code = 1))

/-- A binding entry e of tenant n matches an access and carries the right at bit `right` of the entry (R42): 10 SETUP,
11 DOORBELL. -/
def bindMatch (w : Word) (who : Who) (right e : Nat) : Bool :=
  decide (fld w (16 * e + 7) (16 * e) = who.mid.toNat) && worldOk (fld w (16 * e + 9) (16 * e + 8)) who.world
    && bitOf w (16 * e + right)

/-- The access comes from a master bound to tenant n with the right (R42, R375: never a debug access). -/
def State.bound (s : State) (who : Who) (n : TenantIx) (right : Nat) : Bool :=
  !who.dbg && (List.range 4).any (bindMatch (s.eff (.ownBind n)) who right)

def State.boundSetup (s : State) (who : Who) (n : TenantIx) : Bool := s.bound who n 10
def State.boundDoorbell (s : State) (who : Who) (n : TenantIx) : Bool := s.bound who n 11

/-- The owner, once elected, in the secure world (R31, R375). -/
def State.isOwner (s : State) (who : Who) : Bool :=
  !who.dbg && decide (s.owner.st = .owned ∨ s.owner.st = .offered) && decide (who.mid = s.owner.mid)
    && decide (who.world = .secure)

def maxInflight (s : State) (n : TenantIx) : Nat := fld (s.eff (.ownQuota n)) 8 0
def pairAll (s : State) (c : Content) (n : TenantIx) : Bool := bitOf (s.word c (.ownQuota n)) 24

/-- A class code (0 SCHEDULED, 1 EXPEDITE, 2 BULK) is allowed to tenant n (R45). -/
def classAllowedIn (s : State) (c : Content) (n : TenantIx) (cls : Nat) : Bool :=
  match cls with
  | 0 => bitOf (s.word c (.ownQuota n)) 16
  | 1 => bitOf (s.word c (.ownQuota n)) 17
  | _ => true

/-! ### Fields of the ring, channel and monitor registers -/

def Sq.k (q : Sq) : Nat := fld q.cfg 4 0
def Sq.cqNo (q : Sq) : Nat := fld q.cfg 11 8
def Sq.prefetch (q : Sq) : Nat := fld q.cfg 17 12
def Sq.cls (q : Sq) : Nat := fld q.cfg 21 20
def Sq.weight (q : Sq) : Nat := fld q.cfg 30 24
def Sq.burst (q : Sq) : Nat := fld q.cfg 37 32
def Sq.fwd (q : Sq) : Bool := bitOf q.cfg 40
def Sq.rsrc (q : Sq) : Nat := fld q.sched 4 0
def Sq.pulseMode (q : Sq) : Bool := bitOf q.sched 7
def Sq.rper (q : Sq) : Nat := fld q.sched 13 8
def Sq.dmargin (q : Sq) : Nat := fld q.sched 31 16
def Sq.deadline (q : Sq) : Nat := fld q.sched 55 32
def Cq.k (c : Cq) : Nat := fld c.cfg 4 0
def Cq.coalCnt (c : Cq) : Nat := fld c.cfg 16 8
def Cq.coalTime (c : Cq) : Nat := fld c.cfg 43 32

/-- Ring occupancy (R55, R109): (tail - head) modulo 2^(k+1). -/
def occ (k head tail : Nat) : Nat := (tail + 2 ^ (k + 1) - head % 2 ^ (k + 1)) % 2 ^ (k + 1)
def Sq.occ (q : Sq) : Nat := Machine.occ q.k q.head q.tail
def Cq.occ (c : Cq) : Nat := Machine.occ c.k c.head c.tail

/-- The address of the slot at ring index i (R54). -/
def Sq.slotAddr (q : Sq) (i : Nat) : Nat := q.base.toNat + i % 2 ^ q.k * 32
def Cq.slotAddr (c : Cq) (i : Nat) : Nat := c.base.toNat + i % 2 ^ c.k * 32

/-- The class in which ring m of tenant n runs (R45, R77). -/
def State.ringClass (s : State) (n : TenantIx) (m : RingIx) : Nat :=
  if classAllowedIn s s.gen.act n (s.sq n m).cls then (s.sq n m).cls else 2

/-- AH_OWN_TIME_CTL.RUN (R347). -/
def State.run (s : State) : Bool := bitOf s.own.timeCtl 0

/-- A trip awaits the engine reset response: every island but the security island is in the safe state (R404). -/
def State.held (s : State) : Bool := s.clk.ctl.zeroDue || (bitOf s.own.clkmon 0 && (s.clk.tile.zeroDue || s.clk.aux.zeroDue))

/-- The count at which a deadline is judged: no deadline passes while the count is stopped (R351, R363). -/
def State.judgedNs (s : State) : Nat := if s.run then s.time.ns.toNat else min s.time.ns.toNat s.time.stopNs.toNat

/-- The lifecycle state is MANUFACTURE (1) or DEVELOPMENT (2) (R242). -/
def State.openLife (s : State) : Bool := decide (s.roots.lc = 1 ∨ s.roots.lc = 2)

/-- AH_OWN_DBG.EN as it is taken and read (R49). -/
def State.dbgEn (s : State) : Bool := s.openLife && bitOf s.own.dbg 0

/-- AH_OWN_DBG_UNLOCK as it is taken and read: zero in DECOMMISSIONED (R377). -/
def State.unlock (s : State) (i : Nat) : Bool := decide (s.roots.lc.toNat < 5) && bitOf s.own.dbgUnlock i

end Sys2Proof.Machine
end

