-- ==== Sys2Proof/Machine/KeySpec.lean ====
section
/-!
DEFINITION. Attribute records, key classes, what key each operation takes, and the checks at key resolution (R185, R212, R247 to
R254, R262).
-/

namespace Sys2Proof.Machine

/-! ### The attribute record (R247) -/

def aClass (a : Bytes) : Nat := byteAt a 0
def aParam (a : Bytes) : Nat := byteAt a 1
def aLen (a : Bytes) : Nat := leAt a 2 2
def aUsage (a : Bytes) : Nat := leAt a 4 2
def aTenants (a : Bytes) : Nat := leAt a 6 2
def aMid (a : Bytes) : Nat := byteAt a 8
def aMask (a : Bytes) : Nat := byteAt a 9
def aWorld (a : Bytes) : Nat := byteAt a 0xA % 4
/-- Permitted lifecycle states, bit i for code i + 1. -/
def aLcs (a : Bytes) : Nat := byteAt a 0xA / 4 % 32
def aZrst (a : Bytes) : Bool := (byteAt a 0xA).testBit 7
def aMpol (a : Bytes) : Nat := byteAt a 0xB
def aHash (a : Bytes) : Nat := byteAt a 0xC

/-- An attribute record from its fields; reserved bytes zero. -/
def mkAttr (cls param len usage tenants mid mask wlcs mpol hash : Nat) : Bytes :=
  toLE 1 cls ++ toLE 1 param ++ toLE 2 len ++ toLE 2 usage ++ toLE 2 tenants ++ toLE 1 mid ++ toLE 1 mask ++ toLE 1 wlcs
    ++ toLE 1 mpol ++ toLE 1 hash ++ [0, 0, 0]

def uEnc := 0
def uDec := 1
def uSign := 2
def uVerify := 3
def uAgree := 4
def uDerive := 5
def uWrap := 6
def uUnwrap := 7
def uExport := 8
def uExportDerived := 9
def uGenerate := 10
def uAttest := 11

def hasUse (a : Bytes) (b : Nat) : Bool := (aUsage a).testBit b

/-! ### Lengths of keys (R185, R186, R212, R248) -/

/-- Field length f of a curve code of Form P (R190). -/
def fieldLen (curve : Nat) : Nat :=
  match curve with
  | 1 | 4 | 0x20 | 0x10 => 32
  | 2 | 5 => 48
  | 3 => 66
  | 0x21 => 56
  | 0x11 => 57
  | _ => 0

def isEcdsaCurve (c : Nat) : Bool := decide (1 ≤ c ∧ c ≤ 5)
def isEdwards (c : Nat) : Bool := c = 0x10 || c = 0x11
def isMont (c : Nat) : Bool := c = 0x20 || c = 0x21

/-- Lengths of an EC private key (R185). -/
def ecPrivLen (c : Nat) : Nat := if c = 0x10 then 64 else fieldLen c
/-- Lengths of an EC public key: compressed and uncompressed points, or the RFC encoding (R185, R190). -/
def ecPubLens (c : Nat) : List Nat := if isEcdsaCurve c then [fieldLen c + 1, 2 * fieldLen c + 1] else [fieldLen c]

def rsaPrivLen (modw : Nat) : Nat := 28 * modw + 8
def rsaPubLen (modw : Nat) : Nat := 8 * modw + 8

/-- ML-KEM and ML-DSA sizes by parameter set (R212): ek, dk, c; pk, sk, σ. -/
def kemEk (p : Nat) : Nat := if p = 1 then 800 else if p = 2 then 1184 else if p = 3 then 1568 else 0
def kemDk (p : Nat) : Nat := if p = 1 then 1632 else if p = 2 then 2400 else if p = 3 then 3168 else 0
def kemCt (p : Nat) : Nat := if p = 1 then 768 else if p = 2 then 1088 else if p = 3 then 1568 else 0
def dsaPk (p : Nat) : Nat := if p = 0x11 then 1312 else if p = 0x12 then 1952 else if p = 0x13 then 2592 else 0
def dsaSk (p : Nat) : Nat := if p = 0x11 then 2560 else if p = 0x12 then 4032 else if p = 0x13 then 4896 else 0
def dsaSig (p : Nat) : Nat := if p = 0x11 then 2420 else if p = 0x12 then 3309 else if p = 0x13 then 4627 else 0

def isKemSet (p : Nat) : Bool := decide (1 ≤ p ∧ p ≤ 3)
def isDsaSet (p : Nat) : Bool := decide (0x11 ≤ p ∧ p ≤ 0x13)

/-- KCLASS, KPARAM and KLEN form a row of R248. SECRET of 65 or 66 bytes exists only by KFROM. -/
def classRow (cls param len : Nat) (byKfrom : Bool) : Bool :=
  match cls with
  | 0x01 => decide (param = 0) && decide (len = 16 ∨ len = 24 ∨ len = 32)
  | 0x02 => decide (param = 0) && decide (len = 32 ∨ len = 64)
  | 0x03 => decide (param = 0 ∧ len = 32)
  | 0x04 => (decide (0x40 ≤ param ∧ param ≤ 0x49) || decide (param = 0x4F)) && decide (1 ≤ len ∧ len ≤ 64)
  | 0x05 => decide (param = 0x52 ∨ param = 0x53) && decide (16 ≤ len ∧ len ≤ 64)
  | 0x06 => decide (param = 0) && decide (1 ≤ len ∧ len ≤ if byKfrom then 66 else 64)
  | 0x07 => (decide (param = 0 ∨ param = 2) && decide (len = 32 ∨ len = 64)) || decide (param = 1 ∧ len = 64)
  | 0x08 => decide (param = 0 ∧ len = 36) || (decide (param = 1) && decide (len = 16 ∨ len = 32)) || decide (param = 2 ∧ len = 20)
  | 0x10 => decide (0 < ecPrivLen param ∧ len = ecPrivLen param)
  | 0x11 => decide (0 < fieldLen param) && decide (len ∈ ecPubLens param)
  | 0x12 => decide (16 ≤ param ∧ param ≤ 128 ∧ len = rsaPrivLen param)
  | 0x13 => decide (16 ≤ param ∧ param ≤ 128 ∧ len = rsaPubLen param)
  | 0x14 => isKemSet param && decide (len = 64)
  | 0x15 => isKemSet param && decide (len = kemDk param)
  | 0x16 => isKemSet param && decide (len = kemEk param)
  | 0x17 => isDsaSet param && decide (len = 32)
  | 0x18 => isDsaSet param && decide (len = dsaSk param)
  | 0x19 => isDsaSet param && decide (len = dsaPk param)
  | 0x1A => decide (param = 2 ∧ len = 32)
  | 0x1B => decide (param = 0) && decide (len = 48 ∨ len = 52 ∨ len = 56 ∨ len = 60)
  | 0x1C => decide (param = 0) && decide (len = 52 ∨ len = 68)
  | _ => false

/-- The class and form an internal slot accepts (R185, R248). -/
def slotForm (a : Bytes) : Bool :=
  match aClass a with
  | 0x10 => decide (aParam a ≠ 3)
  | 0x11 => decide (aParam a ≠ 3) && (!isEcdsaCurve (aParam a) || decide (aLen a = fieldLen (aParam a) + 1))
  | 0x12 | 0x13 | 0x15 | 0x16 | 0x18 | 0x19 => false
  | 0x1C => decide (aLen a = 52)
  | _ => decide (aLen a ≤ 64)

def isPublicClass (cls : Nat) : Bool := decide (cls ∈ [0x11, 0x13, 0x16, 0x19, 0x1B, 0x1C])

/-- HASH is a hash operation code for EC classes on ECDSA curves and for RSA classes (R250). -/
def needsHash (cls param : Nat) : Bool :=
  (decide (cls = 0x10 ∨ cls = 0x11) && isEcdsaCurve param) || decide (cls = 0x12 ∨ cls = 0x13)

/-- Exactly one bit is set. -/
def oneBit (n : Nat) : Bool := (List.range 16).any (fun i => decide (n = 2 ^ i))

/-- The record is valid (R250). -/
def attrValid (a : Bytes) : Bool :=
  decide (a.length = 16) && classRow (aClass a) (aParam a) (aLen a) false
    && decide (aUsage a < 2 ^ 12) && zAt a 0xD 3
    && decide (aWorld a ≠ 3) && decide (aUsage a ≠ 0) && decide (aTenants a ≠ 0) && decide (aLcs a ≠ 0)
    && (if needsHash (aClass a) (aParam a) then
          decide (0x40 ≤ aHash a ∧ aHash a ≤ 0x49) || (decide (aHash a = 0x4F) && isPublicClass (aClass a))
        else decide (aHash a = 0))
    && (!isPublicClass (aClass a) || decide (aUsage a &&& 0xFE7 = 0))
    && (!decide (aClass a = 0x1B ∨ aClass a = 0x1C) || decide (aUsage a = 8))
    && (!aZrst a || oneBit (aTenants a)) && !hasUse a uAttest

/-! ### What an operation takes (R83, R86, R249, R262) -/

/-- What the KEY field of an operation names. -/
inductive KeyUse where
  | none
  | key
  | target
  deriving DecidableEq, Repr

def fpPkb (p : Bytes) : Nat := byteAt p 0
def fpCurve (p : Bytes) : Nat := byteAt p 1
def fpModw (p : Bytes) : Nat := byteAt p 2
def fpHash (p : Bytes) : Nat := byteAt p 3

/-- OPT[0] is DEST (R184, R211, R265). -/
def optDest (w : OpWord) : Bool := w.opt % 2 = 1

/-- The role of 0x77 (R211). -/
def hybRole (w : OpWord) : Nat := w.opt % 4
/-- DEST of 0x77 in the KEYGEN role, or EXPORT in the RESPOND role: OPT[2]. -/
def hybBit (w : OpWord) : Bool := w.opt / 4 % 2 = 1

/-- Key pair generation (R187, R214). -/
def isKeygen (w : OpWord) : Bool :=
  decide (w.opc ∈ [0x62, 0x6C, 0x70, 0x73]) || (decide (w.opc = 0x77) && decide (hybRole w = 0))

/-- A key pair generation whose private key goes into a slot. -/
def keygenDest (w : OpWord) : Bool :=
  if w.opc = 0x77 then decide (hybRole w = 0) && hybBit w else decide (w.opc ∈ [0x62, 0x70, 0x73]) && optDest w

/-- The verifying operations whose key a PKB buffer may hold (R189, R215). -/
def takesPkb (w : OpWord) : Bool :=
  decide (w.opc ∈ [0x61, 0x65, 0x69, 0x6B, 0x71, 0x75, 0x78, 0x79]) || (decide (w.opc = 0x6D) && decide (w.opt = 1))

def keyUse (w : OpWord) (p : Bytes) : KeyUse :=
  if w.opc = 0x01 then .none
  else if isCipher w.opc then .key
  else if isDigest w.opc then (if digestKeyed w.opc then .key else .none)
  else if takesPkb w then (if fpPkb p = 0 then .key else .none)
  else if isKeygen w then (if keygenDest w then .target else .key)
  else if w.opc = 0x77 then (if hybRole w = 2 then .key else .none)
  else if w.opc = 0x92 ∨ w.opc = 0x94 ∨ w.opc = 0x95 then .none
  else if w.opc = 0x93 then (if w.opt % 4 = 2 then .none else .key)
  else .key

/-- The slot whose pending bank the operation writes (R262). -/
def targetSlot (w : OpWord) (p : Bytes) : Option Nat :=
  if isKeygen w then (if keygenDest w then some (w.key % 2048) else none)
  else if decide (0x90 ≤ w.opc ∧ w.opc ≤ 0x92) && optDest w then some (leAt p 6 2 % 2048)
  else if w.opc = 0x93 ∧ w.opt % 4 = 1 then some (leAt p 0 2 % 2048)
  else none

/-- An operation that produces key material (R87). -/
def makesKey (w : OpWord) : Bool :=
  decide (w.opc ∈ [0x21, 0x23, 0x63, 0x66, 0x71, 0x72, 0x90, 0x91, 0x92])
    || (decide (w.opc = 0x77) && decide (hybRole w ≠ 0))

/-- Any one of these usage bits suffices (R249). 0x6D takes SIGN for a private and VERIFY for a public key (DEDUCED,
notes/assumptions/10.md). -/
def usesBits (w : OpWord) : List Nat :=
  if w.opc ∈ [0x60, 0x64, 0x68, 0x6A, 0x74] then [uSign]
  else if w.opc ∈ [0x61, 0x65, 0x69, 0x6B, 0x75, 0x78, 0x79] then [uVerify]
  else if w.opc = 0x6D then (if w.opt = 0 then [uSign] else [uVerify])
  else if isKeygen w then [uWrap]
  else if w.opc ∈ [0x63, 0x66, 0x71, 0x72, 0x77] then [uAgree]
  else if w.opc = 0x90 ∨ w.opc = 0x91 then [uDerive]
  else if w.opc = 0x93 then [uUnwrap]
  else if w.opc = 0x12 then [uEnc, uDec]
  else if w.opc = 0x20 ∨ w.opc = 0x22 then [uWrap]
  else if w.opc = 0x21 ∨ w.opc = 0x23 then [uUnwrap]
  else if w.opc ∈ [0x11, 0x14, 0x16, 0x18, 0x1A, 0x1C, 0x1E, 0x25, 0x31, 0x33, 0x35, 0x37, 0x39, 0x3B, 0x51, 0x54, 0x55] then [uDec]
  else [uEnc]

/-- The operation accepts KCLASS, KPARAM and KLEN (check 4 of R252). The record names a row of R248 already. -/
def acceptsKey (w : OpWord) (p : Bytes) (cls param len : Nat) : Bool :=
  match w.opc with
  | 0x13 | 0x14 => decide (cls = 2)
  | 0x24 | 0x25 => decide (cls = 3)
  | 0x1D | 0x1E | 0x30 | 0x31 => decide (cls = 1 ∧ len ≠ 24)
  | 0x32 | 0x33 => if w.opt % 4 = 1 then decide (cls = 3) else decide (cls = 1)
  | 0x34 | 0x35 =>
    if w.opt % 4 = 1 then decide (cls = 3) else if w.opt % 4 = 2 then decide (cls = 1 ∧ len = 16) else decide (cls = 1 ∧ len ≠ 24)
  | 0x36 | 0x37 => decide (cls = 7 ∧ param = w.opt % 4) && decide (w.opt % 4 ≠ 2 ∨ len = 32)
  | 0x38 | 0x39 => decide (cls = 8 ∧ param = w.opt)
  | 0x50 | 0x51 => decide (cls = 4)
  | 0x52 | 0x54 => decide (cls = 5 ∧ param = 0x52)
  | 0x53 | 0x55 => decide (cls = 5 ∧ param = 0x53)
  | 0x60 | 0x63 => decide (cls = 0x10) && isEcdsaCurve param
  | 0x61 => decide (cls = 0x11) && isEcdsaCurve param
  | 0x64 => decide (cls = 0x10) && isEdwards param
  | 0x65 => decide (cls = 0x11) && isEdwards param
  | 0x66 => decide (cls = 0x10) && isMont param
  | 0x68 | 0x6A => decide (cls = 0x12 ∧ 17 ≤ param)
  | 0x69 | 0x6B => decide (cls = 0x13)
  | 0x6D => if w.opt = 0 then decide (cls = 0x12 ∧ 17 ≤ param) else decide (cls = 0x13)
  | 0x62 | 0x6C | 0x70 | 0x73 | 0x93 => decide (cls = 1 ∧ len = 32)
  | 0x71 => decide (cls = 0x16)
  | 0x72 => decide (cls = 0x14 ∨ cls = 0x15)
  | 0x74 => decide (cls = 0x17 ∨ cls = 0x18)
  | 0x75 => decide (cls = 0x19)
  | 0x77 => if hybRole w = 0 then decide (cls = 1 ∧ len = 32) else decide (cls = 0x1A)
  | 0x78 => decide (cls = 0x1B)
  | 0x79 => decide (cls = 0x1C)
  | 0x90 => decide (cls = 6)
  | 0x91 => decide (cls = 6) || (decide (byteAt p 0 = 2) && decide (cls = 1 ∧ len = 32))
  | _ => decide (cls = 1)

/-! ### Checks of the material that belong to check 4 -/

/-- AES-XTS refuses a key whose halves are equal (R141); RSA private keys need p greater than q (R186); the CMAC PRF
needs AES (R266). -/
def materialOk (w : OpWord) (p m : Bytes) (cls param : Nat) : Bool :=
  match cls with
  | 0x02 => decide (m.take (m.length / 2) ≠ m.drop (m.length / 2))
  | 0x12 => decide (beNat (slice m (8 * param + 8) (4 * param)) > beNat (slice m (12 * param + 8) (4 * param)))
  | 0x06 => !(decide (w.opc = 0x91) && decide (byteAt p 0 = 2))
  | _ => true

/-! ### The class of an unwrapped key (R254) -/

/-- KCLASS and KPARAM that a consuming operation gives a key of `len` bytes from an unwrap; none where it determines none. -/
def unwrappedClass (w : OpWord) (p : Bytes) (len : Nat) : Option (Nat × Nat) :=
  let bySize (cls : Nat) (f : Nat → Nat) (sets : List Nat) : Option (Nat × Nat) :=
    (sets.find? (fun x => decide (f x = len))).map (fun x => (cls, x))
  let curve (cls : Nat) : Option (Nat × Nat) := if fpCurve p = 0 then none else some (cls, fpCurve p)
  match w.opc with
  | 0x13 | 0x14 => some (2, 0)
  | 0x24 | 0x25 => some (3, 0)
  | 0x32 | 0x33 | 0x34 | 0x35 => some (if w.opt % 4 = 1 then 3 else 1, 0)
  | 0x36 | 0x37 => some (7, w.opt % 4)
  | 0x38 | 0x39 => some (8, w.opt % 4)
  | 0x50 | 0x51 => none
  | 0x52 | 0x54 => some (5, 0x52)
  | 0x53 | 0x55 => some (5, 0x53)
  | 0x60 | 0x63 | 0x64 | 0x66 => curve 0x10
  | 0x61 | 0x65 => curve 0x11
  | 0x68 | 0x6A => if len % 28 = 8 then some (0x12, len / 28) else none
  | 0x69 | 0x6B => if len % 8 = 0 then some (0x13, len / 8 - 1) else none
  | 0x6D => if w.opt = 0 then (if len % 28 = 8 then some (0x12, len / 28) else none)
            else (if len % 8 = 0 then some (0x13, len / 8 - 1) else none)
  | 0x71 => bySize 0x16 kemEk [1, 2, 3]
  | 0x72 => bySize 0x15 kemDk [1, 2, 3]
  | 0x74 => bySize 0x18 dsaSk [0x11, 0x12, 0x13]
  | 0x75 => bySize 0x19 dsaPk [0x11, 0x12, 0x13]
  | 0x77 => some (if hybRole w = 0 then 1 else 0x1A, if hybRole w = 0 then 0 else 2)
  | 0x78 => some (0x1B, 0)
  | 0x79 => some (0x1C, 0)
  | 0x90 => some (6, 0)
  | 0x91 => if byteAt p 0 = 2 then some (1, 0) else some (6, 0)
  | _ => some (1, 0)

/-! ### Stamps and use checks (R245, R252) -/

/-- MSTAMP taken now for a selection of measurement registers (R245). -/
def stampNow (s : State) (mpol : Nat) : Bytes :=
  (List.range 8).flatMap (fun i => if mpol.testBit i then toLE 4 (s.meas.cnt.look 0 i).toNat else zeros 4)

/-- Check 10 of R252. -/
def stampOk (s : State) (mpol : Nat) (stamp : Bytes) : Bool :=
  (List.range 8).all (fun i => !mpol.testBit i || decide (leAt stamp (4 * i) 4 = (s.meas.cnt.look 0 i).toNat))

def kd (d : Nat) : Option Fail := some (stKeyDenied, d)

/-- Checks 6 to 10 of R252. -/
def whoChecks (s : State) (tenant : Nat) (mid : BitVec 8) (w : World) (a stamp : Bytes) : Option Fail :=
  if !(aTenants a).testBit tenant then kd 2
  else if ((mid.toNat ^^^ aMid a) &&& aMask a) ≠ 0 then kd 3
  else if !worldOk (aWorld a) w then kd 4
  else if !(aLcs a).testBit (s.roots.lc.toNat - 1) then kd 5
  else if !stampOk s (aMpol a) stamp then kd 6
  else none

/-- Checks 4 to 10 of R252 of a key for an operation of a request. -/
def useChecks (s : State) (r : Req) (w : OpWord) (p a m stamp : Bytes) (byKfrom : Bool) : Option Fail :=
  if !(classRow (aClass a) (aParam a) (aLen a) byKfrom && acceptsKey w p (aClass a) (aParam a) (aLen a)
      && materialOk w p m (aClass a) (aParam a)) then kd 9
  else if !(usesBits w).any (hasUse a) then kd 1
  else whoChecks s r.tenant.val r.mid r.world a stamp

/-! ### Slots and cache entries -/

/-- The sequence counter is held as a value and its complement, written together (R255). -/
def Bank.setNext (b : Bank) (v : Word) : Bank := { b with next := v, nextC := ~~~v }

def Slot.act (v : Slot) : Bank := if v.cur then v.bankB else v.bankA
def Slot.idle (v : Slot) : Bank := if v.cur then v.bankA else v.bankB
def Slot.setAct (v : Slot) (b : Bank) : Slot := if v.cur then { v with bankB := b } else { v with bankA := b }
def Slot.setIdle (v : Slot) (b : Bank) : Slot := if v.cur then { v with bankA := b } else { v with bankB := b }

/-- The state of a slot as R246 names it. -/
def Slot.code (v : Slot) : Nat :=
  if v.corrupt && !v.staged && !v.verify then 5
  else if v.verify then 3
  else if v.staged then 2
  else if v.draining then 4
  else if v.hasCur then 1
  else 0

/-- READY (R246). -/
def Slot.ready (v : Slot) : Bool := decide (v.code = 1) && !v.zeroing

/-- Requests bound to a bank of a slot, or to a handle (R260, R275). -/
def bindsBank (i : Nat) (b : Bool) (r : Req) : Bool :=
  r.ops.any (fun o => match o.key with
    | some k => decide (k.slot = some (i, b))
    | none => false)
def boundCount (s : State) (i : Nat) (b : Bool) : Nat := (s.reqs.filter (bindsBank i b)).length
def bindsHandle (h : Nat) (r : Req) : Bool :=
  r.ops.any (fun o => match o.key with
    | some k => decide (k.handle = some h)
    | none => false)

/-- An unloaded key is zeroized once no request is bound to it (R272, R275). -/
def sweepCache (s : State) : State :=
  modKs (fun k => { k with cache := k.cache.filter (fun e =>
    !((e.2.map CacheEnt.unload).getD false) || s.reqs.any (bindsHandle e.1)) }) s

/-- A request ends: it leaves the requests in flight, and what waited for it is zeroized. -/
def retireReq (id : Nat) (s : State) : State := sweepCache (dropReq id s)

/-- Entries that a key of `mlen` bytes occupies (R271). -/
def entriesOf (mlen : Nat) : Nat := ceilDiv mlen 128

/-- Entry `e` lies in tenant n's partition: inside BASE and SIZE and in no lower-numbered tenant's (R272). -/
def inPartition (s : State) (c : Content) (n e : Nat) : Bool :=
  let inside (t : Nat) : Bool :=
    let w := s.word c (.ksKcp (Fin.ofNat 16 t))
    decide (fld w 11 0 ≤ e) && decide (e < fld w 11 0 + fld w 28 16)
  inside n && !(List.range n).any inside

/-- A loaded key occupies entry `e`. -/
def entryUsed (s : State) (e : Nat) : Bool :=
  s.ks.cache.any (fun p => match p.2 with
    | some c => decide (p.1 ≤ e) && decide (e < p.1 + entriesOf c.material.length)
    | none => false)

end Sys2Proof.Machine
end

