-- ==== Sys2Proof/Machine/PkSpec.lean ====
section
/-!
DEFINITION. What each operation of the public-key tiles, of the lattice family, of the kiln, of the key cache, of the random bit
generators and of attestation requires of its entry (R183 to R193, R210 to R216, R265, R273, R289, R293).
-/

namespace Sys2Proof.Machine

def isPk (opc : Nat) : Bool :=
  decide (opc ∈ [0x60, 0x61, 0x62, 0x63, 0x64, 0x65, 0x66, 0x68, 0x69, 0x6A, 0x6B, 0x6C, 0x6D])
def isLattice (opc : Nat) : Bool := decide (opc ∈ [0x70, 0x71, 0x72, 0x73, 0x74, 0x75, 0x77])
def isHbs (opc : Nat) : Bool := opc = 0x78 || opc = 0x79
def isKilnOp (opc : Nat) : Bool := decide (0x90 ≤ opc ∧ opc ≤ 0x92)
def isRsa (opc : Nat) : Bool := decide (opc ∈ [0x68, 0x69, 0x6A, 0x6B, 0x6C, 0x6D])

/-- Which of SRC, AUX and DST an operation uses; SRC and AUX are then required (R83, R107). -/
structure Shape where
  src : Bool
  aux : Bool
  dst : Bool
  deriving DecidableEq, Repr

def shapeOf (w : OpWord) : Shape :=
  match w.opc with
  | 0x01 => ⟨true, false, true⟩
  | 0x16 | 0x1C => ⟨true, true, false⟩
  | 0x51 | 0x54 | 0x55 => ⟨true, endsHash w, false⟩
  | 0x56 => ⟨true, true, false⟩
  | 0x60 | 0x64 | 0x68 | 0x6A | 0x6D | 0x74 => ⟨true, false, true⟩
  | 0x61 | 0x65 | 0x69 | 0x6B | 0x75 | 0x78 | 0x79 => ⟨true, true, false⟩
  | 0x62 | 0x6C | 0x70 | 0x73 | 0x71 | 0x90 | 0x91 | 0x92 | 0x94 | 0x95 => ⟨false, false, true⟩
  | 0x63 | 0x66 | 0x72 => ⟨false, true, true⟩
  | 0x77 => ⟨false, decide (hybRole w ≠ 0), true⟩
  | 0x93 => ⟨decide (w.opt % 4 ≠ 2), false, false⟩
  | _ => if isDigest w.opc then ⟨true, false, endsHash w⟩ else ⟨true, false, true⟩

/-! ### Options (R184, R211, R265, R273, R289, R293) -/

/-- OPT of the operations outside the cipher and digest tiles: undefined 0x04, or a combination that R211 refuses 0x50. -/
def pkOptCheck (w : OpWord) : Option Fail :=
  let ok (b : Bool) : Option Fail := if b then none else unsup 4
  match w.opc with
  | 0x62 => ok (decide (w.opt ≤ 3))
  | 0x64 | 0x65 => ok (decide (w.opt ≤ 2))
  | 0x6D | 0x71 | 0x74 | 0x75 | 0x91 | 0x92 => ok (decide (w.opt ≤ 1))
  | 0x70 | 0x73 => if w.opt > 3 then unsup 4 else if w.opt = 3 then unsup 0x50 else none
  | 0x77 => if hybRole w = 3 then unsup 0x50 else ok (decide (hybRole w ≠ 2 ∨ w.opt < 4))
  | 0x90 => ok (decide (w.opt ≤ 3))
  | 0x93 => ok (decide (w.opt ≤ 2))
  | _ => ok (decide (w.opt = 0))

/-! ### Parameter blocks -/

def fpSalt (p : Bytes) : Nat := byteAt p 4
def fpCtxLen (p : Bytes) : Nat := byteAt p 5 % 128
def fpAllowLow (p : Bytes) : Bool := byteAt p 6 % 2 = 1
def fpE (p : Bytes) : Nat := leAt p 8 8
def fqPset (p : Bytes) : Nat := byteAt p 1
def fqHash (p : Bytes) : Nat := byteAt p 2
def fqCtxLen (p : Bytes) : Nat := byteAt p 3 % 128
def frPrf (p : Bytes) : Nat := byteAt p 0
def frLabelLen (p : Bytes) : Nat := byteAt p 1
def frCtxLen (p : Bytes) : Nat := byteAt p 2
def frOutLen (p : Bytes) : Nat := leAt p 4 2
def frD (p : Bytes) : Bytes := slice p 8 16
def frLabel (p : Bytes) : Bytes := slice p 0x18 (frLabelLen p)
def frCtx (p : Bytes) : Bytes := slice p (0x18 + frLabelLen p) (frCtxLen p)
def fwHandle (p : Bytes) : Nat := leAt p 0 2 % 4096
def fgOut (p : Bytes) : Nat := leAt p 0 2
def fgAddLen (p : Bytes) : Nat := byteAt p 2 % 64
def fgPr (p : Bytes) : Bool := (byteAt p 2).testBit 6
def ftNlen (p : Bytes) : Nat := byteAt p 0
def ftUlen (p : Bytes) : Nat := byteAt p 1

/-- Whether POFF = 0xFF stands for a block of 8 zero bytes (R189, R215) or is refused. -/
def parOptional (opc : Nat) : Bool := isPk opc || isLattice opc || isHbs opc

/-- Fixed part of the parameter block of these operations. -/
def pkParFixed (w : OpWord) : Nat :=
  if w.opc = 0x6C then 16 else if isKilnOp w.opc then 24 else 8

/-- The strings that follow the fixed part, once it is known. -/
def pkParTail (w : OpWord) (p : Bytes) : Nat :=
  match w.opc with
  | 0x64 | 0x65 => fpCtxLen p
  | 0x74 | 0x75 | 0x77 => fqCtxLen p
  | 0x90 | 0x91 | 0x92 => frLabelLen p + frCtxLen p
  | 0x94 => fgAddLen p
  | 0x95 => ftNlen p + ftUlen p
  | _ => 0

/-- The KFROM key of an EC operation comes from a KW or KWP unwrap, whose CURVE Form P names (R189, R254). -/
def curveByKfrom (w : OpWord) (kop : Option OpWord) : Bool :=
  w.kfrom && decide (w.opc ∈ [0x60, 0x61, 0x63, 0x64, 0x65, 0x66]) && (match kop with
    | some k => k.opc = 0x21 || k.opc = 0x23
    | none => false)

/-- CURVE, MODW and HASH of Form P that an operation uses (R189). -/
def usesCurve (w : OpWord) (p : Bytes) (kop : Option OpWord) : Bool :=
  (decide (w.opc = 0x61 ∨ w.opc = 0x65) && decide (fpPkb p ≠ 0)) || (decide (w.opc = 0x62) && !optDest w)
    || curveByKfrom w kop
def usesModw (w : OpWord) (p : Bytes) : Bool :=
  decide (w.opc = 0x6C) || (decide (w.opc ∈ [0x69, 0x6B, 0x6D]) && takesPkb w && decide (fpPkb p ≠ 0))
def usesFpHash (w : OpWord) (p : Bytes) : Bool :=
  (decide (w.opc ∈ [0x61, 0x69, 0x6B]) && decide (fpPkb p ≠ 0)) || decide (w.opc = 0x6C)
    || (decide (w.opc = 0x62) && !optDest w && isEcdsaCurve (fpCurve p))

def curveCode (c : Nat) : Bool := isEcdsaCurve c || isEdwards c || isMont c
/-- A curve that the operation offers (R183). -/
def curveOffered (opc c : Nat) : Bool :=
  match opc with
  | 0x60 | 0x61 | 0x63 => isEcdsaCurve c
  | 0x64 | 0x65 => isEdwards c
  | 0x66 => isMont c
  | _ => true

/-- CTXLEN of an EdDSA operation: unused by pure Ed25519, 1 to 64 for Ed25519ctx, 0 to 64 otherwise (R183, R189). -/
def edCtxCheck (w : OpWord) (p : Bytes) (curve : Nat) : Option Fail :=
  if w.opt = 1 ∧ curve = 0x11 then unsup 0x40
  else if w.opt = 0 ∧ curve = 0x10 then (if fpCtxLen p = 0 then none else unsup 2)
  else if w.opt = 1 ∧ fpCtxLen p = 0 then unsup 0x43
  else if 64 < fpCtxLen p then unsup 0x43
  else none

/-- Form P (R187, R189): reserved fields 0x02, ranges 0x43, what the operation does not offer 0x40: CURVE naming P-521 with DEST = 1 is the
one way a request asks for it (R187; DEDUCED, notes/assumptions/10.md). Ed25519ctx without a context, and a salt longer than the hash of a
PKB key, are values out of range. CURVE = 0 beside a key unwrapped for an EC operation is out of range, 0x43, at step 3, before R254 could
deny the key with 0x09 (R189; DEDUCED, notes/assumptions/10.md). -/
def formPCheck (w : OpWord) (p : Bytes) (kop : Option OpWord) : Option Fail :=
  let o := w.opc
  let cu := usesCurve w p kop
  let mu := usesModw w p
  let hu := usesFpHash w p
  let hashOk := decide (0x40 ≤ fpHash p ∧ fpHash p ≤ 0x49) || (decide (fpHash p = 0x4F) && takesPkb w)
  let ctxOne := (decide (o = 0x64 ∨ o = 0x65)) && decide (w.opt = 1) && !(cu && decide (fpCurve p = 0x11))
  (firstBad [(!(decide (o = 0x62) && optDest w && decide (fpCurve p = 3)), 0x40),
      (takesPkb w || decide (fpPkb p = 0), 2), (cu || decide (fpCurve p = 0), 2), (mu || decide (fpModw p = 0), 2),
      (hu || decide (fpHash p = 0), 2), (decide (o = 0x6A ∨ o = 0x6B) || decide (fpSalt p = 0), 2),
      (decide (o = 0x64 ∨ o = 0x65) || decide (fpCtxLen p = 0), 2), (decide (byteAt p 5 < 128), 2),
      (decide (byteAt p 6 < 2) && (decide (o = 0x66) || decide (byteAt p 6 = 0)), 2), (zAt p 7 1, 2),
      (!cu || curveCode (fpCurve p), 0x43), (!mu || decide (16 ≤ fpModw p ∧ fpModw p ≤ 128), 0x43), (!hu || hashOk, 0x43),
      (!decide (o = 0x64 ∨ o = 0x65) || decide (fpCtxLen p ≤ 64), 0x43), (!ctxOne || decide (1 ≤ fpCtxLen p), 0x43),
      (decide (fpSalt p ≤ 64), 0x43),
      (!(decide (o = 0x6B) && decide (fpPkb p ≠ 0)) || decide (fpSalt p ≤ digestLen (fpHash p)), 0x43),
      (!decide (o = 0x6C) || decide (fpE p % 2 = 1 ∧ 65537 ≤ fpE p), 0x43),
      (!cu || curveOffered o (fpCurve p), 0x40), (!decide (o = 0x6C) || decide (32 ≤ fpModw p ∧ fpModw p ≤ 64), 0x40),
      (!decide (o = 0x62) || optDest w || decide (w.opt < 2) || isEcdsaCurve (fpCurve p), 4)]).or
    (if (o = 0x64 ∨ o = 0x65) ∧ cu then edCtxCheck w p (fpCurve p) else none)

/-- PSET of Form Q is used (R215). -/
def usesPset (w : OpWord) (p : Bytes) : Bool :=
  (decide (w.opc = 0x71 ∨ w.opc = 0x75) && decide (fpPkb p ≠ 0)) || (decide (w.opc = 0x70 ∨ w.opc = 0x73) && !optDest w)

def psetOffered (opc s : Nat) : Bool := if opc = 0x70 ∨ opc = 0x71 then isKemSet s else isDsaSet s

/-- Form Q (R215): reserved fields 0x02, ranges 0x52, a parameter set of the other scheme 0x50. -/
def formQCheck (w : OpWord) (p : Bytes) : Option Fail :=
  let ps := usesPset w p
  let hu := decide (w.opc = 0x74 ∨ w.opc = 0x75) && decide (w.opt = 1)
  let xu := decide (w.opc = 0x74 ∨ w.opc = 0x75) || (decide (w.opc = 0x77) && decide (hybRole w ≠ 0))
  firstBad [(takesPkb w || decide (fpPkb p = 0), 2), (ps || decide (fqPset p = 0), 2), (hu || decide (fqHash p = 0), 2),
    (xu || decide (fqCtxLen p = 0), 2), (decide (byteAt p 3 < 128), 2), (zAt p 4 4, 2),
    (!ps || isKemSet (fqPset p) || isDsaSet (fqPset p), 0x52), (!hu || decide (0x40 ≤ fqHash p ∧ fqHash p ≤ 0x4B), 0x52),
    (decide (fqCtxLen p ≤ 64), 0x52), (!ps || psetOffered w.opc (fqPset p), 0x50)]

/-- Form R (R265); `isKey`: the output is delivered by KFROM or DEST. -/
def formRCheck (w : OpWord) (p : Bytes) (isKey : Bool) : Option Fail :=
  let d := frD p
  firstBad [(zAt p 3 1, 2), (decide (leAt p 6 2 < 2048) && (optDest w || decide (leAt p 6 2 = 0)), 2),
    ((match w.opc with
      | 0x90 => decide (0x41 ≤ frPrf p ∧ frPrf p ≤ 0x43)
      | 0x91 => decide (frPrf p = 1 ∨ frPrf p = 2) || decide (0x41 ≤ frPrf p ∧ frPrf p ≤ 0x43)
      | _ => decide (frPrf p = 1 ∨ frPrf p = 2)), 0x60),
    (decide (frLabelLen p ≤ 64), 0x60), (decide (frCtxLen p ≤ if w.opc = 0x92 then 64 else 96), 0x60),
    (decide (1 ≤ frOutLen p ∧ frOutLen p ≤ 1024), 0x60),
    (!(decide (w.opc = 0x90) && decide (2 ≤ w.opt)) || decide (frLabelLen p = 0), 0x60),
    (!isKey || (decide (frOutLen p = aLen d)
      && (decide (1 ≤ aClass d ∧ aClass d ≤ 8) || decide (aClass d ∈ [0x14, 0x17, 0x1A]))), 0x61)]

/-- Form W (R273). -/
def formWCheck (w : OpWord) (p : Bytes) : Option Fail :=
  firstBad [(decide (leAt p 0 2 < if w.opt = 1 then 2048 else 4096), 2), (zAt p 2 6, 2)]

/-- Form G (R289). -/
def formGCheck (p : Bytes) : Option Fail :=
  firstBad [(decide (byteAt p 2 < 128), 2), (zAt p 3 5, 2), (decide (1 ≤ fgOut p), 0x70), (decide (fgAddLen p ≤ 48), 0x70)]

/-- Form T (R293). -/
def formTCheck (p : Bytes) : Option Fail :=
  firstBad [(zAt p 2 6, 2), (decide (8 ≤ ftNlen p ∧ ftNlen p ≤ 64), 0x71), (decide (ftUlen p ≤ 64), 0x71)]

/-! ### The key that a public-key operation works with -/

/-- Class, parameter and hash of the key of an operation, from its slot, handle, KFROM or PKB buffer (R189, R192). -/
structure KeyType where
  cls   : Nat := 0
  param : Nat := 0
  hash  : Nat := 0
  deriving DecidableEq, Repr

def typeOf (a : Bytes) : KeyType := ⟨aClass a, aParam a, aHash a⟩

/-- The type that Form P or Form Q gives a PKB key (R189, R215). -/
def pkbType (w : OpWord) (p : Bytes) : KeyType :=
  match w.opc with
  | 0x61 | 0x65 => ⟨0x11, fpCurve p, fpHash p⟩
  | 0x69 | 0x6B | 0x6D => ⟨0x13, fpModw p, fpHash p⟩
  | 0x71 => ⟨0x16, fqPset p, 0⟩
  | 0x75 => ⟨0x19, fqPset p, 0⟩
  | 0x78 => ⟨0x1B, 0, 0⟩
  | _ => ⟨0x1C, 0, 0⟩

/-- Class, parameter and length of the private key that a key pair generation makes (R187, R214). -/
def genType (w : OpWord) (p : Bytes) (target : Option Bytes) : Nat × Nat × Nat :=
  match target with
  | some a => (aClass a, aParam a, aLen a)
  | none =>
    match w.opc with
    | 0x62 => (0x10, fpCurve p, ecPrivLen (fpCurve p))
    | 0x6C => (0x12, fpModw p, rsaPrivLen (fpModw p))
    | 0x70 => if 2 ≤ w.opt then (0x15, fqPset p, kemDk (fqPset p)) else (0x14, fqPset p, 64)
    | 0x73 => if 2 ≤ w.opt then (0x18, fqPset p, dsaSk (fqPset p)) else (0x17, fqPset p, 32)
    | _ => (0x1A, 2, 32)

/-- Length of the public key that a key pair generation writes (R190, R216). -/
def genPubLen (opc param : Nat) : Nat :=
  match opc with
  | 0x62 => if isEcdsaCurve param then 2 * fieldLen param + 1 else fieldLen param
  | 0x6C => 8 * param
  | 0x70 => kemEk param
  | 0x73 => dsaPk param
  | _ => 1216

/-- The shared secret a key agreement makes (R190, R214). -/
def secretLen (w : OpWord) (t : KeyType) : Nat :=
  match w.opc with
  | 0x63 | 0x66 => fieldLen t.param
  | _ => 32

/-- Output length of a public-key or lattice operation (R190, R216). `t`: its key, or the key it generates. -/
def pkOutLen (w : OpWord) (p : Bytes) (t : KeyType) (target : Option Bytes) : Nat :=
  if isKeygen w then
    let g := genType w p target
    genPubLen w.opc g.2.1 + (if keygenDest w then 0 else 56 + g.2.2)
  else
    match w.opc with
    | 0x60 => 2 * fieldLen t.param
    | 0x63 | 0x66 => fieldLen t.param
    | 0x64 => if t.param = 0x11 then 114 else 64
    | 0x68 | 0x6A | 0x6D => 8 * t.param
    | 0x71 => kemCt t.param + (if w.opt = 1 then 32 else 0)
    | 0x72 => 32
    | 0x74 => dsaSig t.param
    | 0x77 => if hybRole w = 1 then 1120 + (if hybBit w then 32 else 0) else 32
    | _ => 0

/-- SHA-1 and HASH values by their output length (R162). -/
def digestBytes (h : Nat) : Nat := if h = 0x4F then 20 else if h = 0x4A then 32 else if h = 0x4B then 64 else hashLen h

/-- AUX lengths that the key admits; none: any (R190, R216). -/
def auxLens (w : OpWord) (t : KeyType) : Option (List Nat) :=
  match w.opc with
  | 0x61 => some [2 * fieldLen t.param]
  | 0x63 => some [fieldLen t.param + 1, 2 * fieldLen t.param + 1]
  | 0x65 => some [if t.param = 0x11 then 114 else 64]
  | 0x66 => some [fieldLen t.param]
  | 0x69 | 0x6B => some [8 * t.param]
  | 0x72 => some [kemCt t.param]
  | 0x75 => some [dsaSig t.param]
  | 0x77 => if hybRole w = 1 then some [1216] else if hybRole w = 2 then some [1120] else none
  | _ => none

/-- PKB lengths that the key type admits (R190, R212). -/
def pkbLens (t : KeyType) : List Nat :=
  match t.cls with
  | 0x11 => ecPubLens t.param
  | 0x13 => [rsaPubLen t.param]
  | 0x16 => [kemEk t.param]
  | 0x19 => [dsaPk t.param]
  | 0x1B => [48, 52, 56, 60]
  | _ => [52, 68]

/-- The lengths of R191 and R216, and the variant checks that need the key's type: 0x40, 0x41, 0x42, 0x43, 0x51. An unwrapped key names no
hash: its PSS salt is held to the length of the digest that SRC gives (R183, R254). -/
def pkTypeCheck (w : OpWord) (p : Bytes) (t : KeyType) (srcLen auxLen pkbLen : Nat) (hashed : Bool) : Option Fail :=
  let d := if isLattice w.opc || isHbs w.opc then 0x51 else 0x42
  (if w.opc = 0x64 ∨ w.opc = 0x65 then edCtxCheck w p t.param else none)
    |>.or (firstBad [
      (!(decide (w.opc ∈ [0x60, 0x68, 0x6A]) && decide (t.hash = 0x4F)), 0x41),
      (!decide (w.opc = 0x6A ∨ w.opc = 0x6B) || decide (fpSalt p ≤ if t.hash = 0 then srcLen else digestBytes t.hash), 0x43),
      ((match auxLens w t with
        | some l => decide (auxLen ∈ l)
        | none => true), d),
      (!(takesPkb w && decide (fpPkb p ≠ 0)) || decide (pkbLen ∈ pkbLens t), d),
      (!decide (w.opc = 0x6D) || decide (srcLen = 8 * t.param), 0x42),
      (!(decide (w.opc = 0x64) && decide (w.opt < 2) && !hashed) || decide (srcLen ≤ 16384), 0x44)])

/-- The digest that a signature takes as its message when SRC names a hash operation: the code required, or none where
the operation takes no digest (R101, R192, R193, R216). -/
def digestWanted (w : OpWord) (p : Bytes) (t : KeyType) : Option Nat :=
  match w.opc with
  | 0x60 | 0x61 | 0x68 | 0x69 | 0x6A | 0x6B => some t.hash
  | 0x64 | 0x65 => if w.opt = 2 then some (if t.param = 0x11 then 0x4B else 0x43) else none
  | 0x74 | 0x75 => if w.opt = 1 then some (fqHash p) else none
  | _ => none

/-- A sign or verify operation, to which R101 applies. -/
def isSignature (w : OpWord) : Bool :=
  decide (w.opc ∈ [0x60, 0x61, 0x64, 0x65, 0x68, 0x69, 0x6A, 0x6B, 0x74, 0x75, 0x78, 0x79])

/-- A hash operation, whose output R101 takes as a digest. -/
def isHashOp (w : OpWord) : Bool := decide (0x40 ≤ w.opc ∧ w.opc ≤ 0x4D)

/-- A signature whose key or Form P names the hash wanted at step 5 of R106; the rest waits for the key. -/
def digestKnown (w : OpWord) (p : Bytes) : Option (Option Nat) :=
  if !isSignature w then none
  else if w.opc = 0x78 ∨ w.opc = 0x79 then some none
  else if (w.opc = 0x64 ∨ w.opc = 0x65) ∧ w.opt ≠ 2 then some none
  else if w.opc = 0x74 ∨ w.opc = 0x75 then some (digestWanted w p {})
  else if takesPkb w && decide (fpPkb p ≠ 0) then some (digestWanted w p (pkbType w p))
  else none

/-- A verifying operation (R85). -/
def verifies (w : OpWord) : Bool :=
  cipherVerifies w.opc || digestVerifies w.opc || decide (w.opc ∈ [0x61, 0x65, 0x69, 0x6B, 0x75, 0x78, 0x79])

/-! ### Concrete input checks (R186, R200, R201, R213, R221) -/

/-- The values of R201 that give an all-zero shared secret, after reduction. -/
def lowOrder (curve : Nat) (peer : Bytes) : Bool :=
  if curve = 0x20 then
    let p := 2 ^ 255 - 19
    let v := leNat peer % 2 ^ 255 % p
    decide (v ∈ [0, 1, 325606250916557431795983626356110631294008115727848805560023387167927233504,
      39382357235489614581723060781553021112529911719440698176882885853963445705823, p - 1])
  else
    let p := 2 ^ 448 - 2 ^ 224 - 1
    decide (leNat peer % p ∈ [0, 1, p - 1])

/-- The FIPS 203 modulus check of an encapsulation key: every 12-bit coefficient is below q = 3329 (R213, R221). -/
def ekModulusOk (ek : Bytes) : Bool :=
  let n := (ek.length - 32) / 3
  (List.range n).all (fun i =>
    let v := leAt ek (3 * i) 3
    decide (v % 4096 < 3329) && decide (v / 4096 < 3329))

/-- The decapsulation key check: H(ek) over the ek part equals the stored h (R213). -/
def dkHashOk (pset : Nat) (dk : Bytes) : Bool :=
  decide (sha3_256 (slice dk (384 * (pset + 1)) (kemEk pset)) = slice dk (384 * (pset + 1) + kemEk pset) 32)

/-- RSA: modulus odd with bit length exactly 64 MODW (R200, detail 0x46). -/
def rsaModOk (modw : Nat) (m : Bytes) : Bool :=
  let n := beNat (m.take (8 * modw))
  decide (n % 2 = 1) && decide (2 ^ (64 * modw - 1) ≤ n)

/-- RSA: public exponent odd and at least 3; private CRT components non-zero (R200, detail 0x47). -/
def rsaExpOk (modw : Nat) (m : Bytes) (priv : Bool) : Bool :=
  let e := beNat (slice m (8 * modw) 8)
  decide (e % 2 = 1 ∧ 3 ≤ e)
    && (!priv || (List.range 5).all (fun i => !allZero (slice m (8 * modw + 8 + 4 * modw * i) (4 * modw))))

/-- The format byte of a point goes with its length: 0x04 with both coordinates, 0x02 or 0x03 with one (R190, R200). -/
def formatOk (curve : Nat) (pt : Bytes) : Bool :=
  if pt.length = fieldLen curve + 1 then decide (byteAt pt 0 = 2 ∨ byteAt pt 0 = 3) else decide (byteAt pt 0 = 4)

/-- The points of a check phase (R200): a public key or a peer point, R of an EdDSA signature, and the public half of an Ed25519 private key
that KFROM gives. -/
def checkedPoints (w : OpWord) (t : KeyType) (key aux : Bytes) : List Bytes :=
  if w.opc = 0x61 then [key]
  else if w.opc = 0x63 then [aux]
  else if w.opc = 0x65 then [key, aux.take (aux.length / 2)]
  else if w.opc = 0x64 && w.kfrom && decide (t.param = 0x10) then [key.drop 32]
  else []

/-- The first failing check of R200 in table order, and of R221; `key`: the key's material, `src` the input of 0x6D. -/
def pkInputFail (w : OpWord) (p : Bytes) (t : KeyType) (key src aux : Bytes) : Option Fail :=
  let bad (d : Nat) : Option Fail := some (stBadInput, d)
  let pts := checkedPoints w t key aux
  let checks : List (Bool × Nat) := [
    (!decide (w.opc = 0x60 ∨ w.opc = 0x63) || Config.curveOk 0x40 t.param key, 0x40),
    (pts.all (Config.curveOk 0x41 t.param), 0x41),
    (pts.all (fun x => Config.curveOk 0x42 t.param x && (!isEcdsaCurve t.param || formatOk t.param x)), 0x42),
    (pts.all (Config.curveOk 0x43 t.param), 0x43),
    (!decide (w.opc = 0x61 ∨ w.opc = 0x65) || Config.curveOk 0x44 t.param aux, 0x44),
    (!decide (w.opc ∈ [0x69, 0x6B, 0x6D])
      || decide (beNat (if w.opc = 0x6D then src else aux) < beNat (key.take (8 * t.param))), 0x45),
    (!(isRsa w.opc && decide (w.opc ≠ 0x6C)) || rsaModOk t.param key, 0x46),
    (!(isRsa w.opc && decide (w.opc ≠ 0x6C)) || rsaExpOk t.param key (decide (t.cls = 0x12)), 0x47),
    (!(decide (w.opc = 0x66) && !fpAllowLow p) || !lowOrder t.param aux, 0x43),
    (!(decide (w.opc = 0x71) && decide (fpPkb p ≠ 0)) || ekModulusOk key, 0x50),
    (!(decide (w.opc = 0x77) && decide (hybRole w = 1)) || ekModulusOk (aux.drop 32), 0x50),
    (!(decide (w.opc = 0x77) && decide (hybRole w ≠ 0)) || !lowOrder 0x20 (aux.take 32), 0x43)]
  match checks.find? (fun c => !c.1) with
  | some c => bad c.2
  | none => none

/-! ### Type codes and shapes of hash-based keys and signatures (R234, R235) -/

/-- LMS type codes of SP 800-208: SHA-256 and SHAKE256 with n = 32 or 24 and heights 5 to 25 (RFC 8554, SP 800-208);
PRESUMED from those standards, notes/assumptions/29.md. -/
def lmsN (t : Nat) : Option Nat :=
  if (5 ≤ t ∧ t ≤ 9) ∨ (15 ≤ t ∧ t ≤ 19) then some 32
  else if (10 ≤ t ∧ t ≤ 14) ∨ (20 ≤ t ∧ t ≤ 24) then some 24 else none
def lmsHeight (t : Nat) : Nat := 5 * (t % 5 + 1)

/-- LM-OTS type codes with W = 1, 2, 4, 8, and the elements p of a signature (the same standards). -/
def lmotsN (t : Nat) : Option Nat :=
  if (1 ≤ t ∧ t ≤ 4) ∨ (9 ≤ t ∧ t ≤ 12) then some 32
  else if (5 ≤ t ∧ t ≤ 8) ∨ (13 ≤ t ∧ t ≤ 16) then some 24 else none
def lmotsP (t : Nat) : Nat :=
  let n := (lmotsN t).getD 0
  match (t - 1) % 4 with
  | 0 => if n = 32 then 265 else 200
  | 1 => if n = 32 then 133 else 101
  | 2 => if n = 32 then 67 else 51
  | _ => if n = 32 then 34 else 26

/-- An XMSS or XMSS^MT parameter set of SP 800-208 by its OID: n, total height h, layers d (RFC 8391, SP 800-208; PRESUMED,
notes/assumptions/29.md). The OIDs of the two schemes overlap; the length of the signature tells them apart. -/
def xmssSets (oid : Nat) : List (Nat × Nat × Nat) :=
  let mt (i : Nat) : Nat × Nat := [(20, 2), (20, 4), (40, 2), (40, 4), (40, 8), (60, 3), (60, 6), (60, 12)].getD i (0, 0)
  let one (lo n : Nat) : List (Nat × Nat × Nat) := if lo ≤ oid ∧ oid < lo + 3 then [(n, [10, 16, 20].getD (oid - lo) 0, 1)] else []
  let many (lo n : Nat) : List (Nat × Nat × Nat) := if lo ≤ oid ∧ oid < lo + 8 then [(n, mt (oid - lo))] else []
  one 0x01 32 ++ one 0x0D 24 ++ one 0x10 32 ++ one 0x13 24 ++ many 0x01 32 ++ many 0x21 24 ++ many 0x29 32 ++ many 0x31 24

/-- The type codes of an LMS public key: LMS and LM-OTS. -/
def lmsTypes (key : Bytes) : Nat × Nat := (beNat (slice key 0 4), beNat (slice key 4 4))

/-- An offered LMS public key; with a type of another n than its length gives, the length is wrong (R234, R238). An LMS type of one hash with an
LM-OTS type of the other and the same n is taken as offered (DESIGN CHOICE, notes/assumptions/10.md). -/
def lmsKeyFail (key : Bytes) : Option Fail :=
  match lmsN (lmsTypes key).1, lmotsN (lmsTypes key).2 with
  | some a, some b => if a = b ∧ key.length = 24 + a then none else unsup 0x51
  | _, _ => unsup 0x53

/-- The public key of 0x78 or 0x79 is offered (R234): LMS or HSS by its length, XMSS or XMSS^MT by its OID. An HSS level count of 0 or above 8
gets the detail 0x53 of a type that is not offered (DESIGN CHOICE, notes/assumptions/10.md). -/
def hbsKeyFail (opc : Nat) (key : Bytes) : Option Fail :=
  if opc = 0x78 then
    if key.length = 52 ∨ key.length = 60 then
      (if 1 ≤ beNat (key.take 4) ∧ beNat (key.take 4) ≤ 8 then lmsKeyFail (key.drop 4) else unsup 0x53)
    else lmsKeyFail key
  else match xmssSets (beNat (key.take 4)) with
    | [] => unsup 0x53
    | l => if l.any (fun q => decide (key.length = 4 + 2 * q.1)) then none else unsup 0x51

/-- The length of an LMS signature under a pair of types. -/
def lmsSigLen (t : Nat × Nat) : Nat :=
  let n := (lmsN t.1).getD 0
  4 + (4 + n + lmotsP t.2 * n) + 4 + lmsHeight t.1 * n

/-- An LMS signature at the front of a byte string names its key's types: detail 0x58; its leaf index is below 2^h: 0x59. -/
def lmsSigFail (t : Nat × Nat) (sig : Bytes) : Option Fail :=
  let n := (lmsN t.1).getD 0
  if sig.length < lmsSigLen t ∨ beNat (slice sig 4 4) ≠ t.2 ∨ beNat (slice sig (8 + n + lmotsP t.2 * n) 4) ≠ t.1 then some (stVerify, 0x58)
  else if 2 ^ lmsHeight t.1 ≤ beNat (sig.take 4) then some (stVerify, 0x59)
  else none

/-- The levels of an HSS signature from the top: a signature, then the public key of the next level; `n` levels are left below. The first
level that fails gives the detail, so that a leaf index out of range there (0x59) comes before a structure that is wrong further down or
behind the last level (0x58) (DESIGN CHOICE, notes/assumptions/10.md). -/
def hssSigFail : Nat → Nat × Nat → Bytes → Option Fail
  | 0, t, sig => (lmsSigFail t sig).or (if sig.length = lmsSigLen t then none else some (stVerify, 0x58))
  | n + 1, t, sig =>
    let rest := sig.drop (lmsSigLen t)
    let m := 24 + (lmsN (lmsTypes rest).1).getD 0
    (lmsSigFail t sig).or (if (lmsKeyFail (rest.take m)).isSome then some (stVerify, 0x58) else hssSigFail n (lmsTypes rest) (rest.drop m))

/-- The length of a signature of an XMSS or XMSS^MT set, and its index. -/
def xmssIdxLen (q : Nat × Nat × Nat) : Nat := if q.2.2 = 1 then 4 else ceilDiv q.2.1 8
def xmssSigLen (q : Nat × Nat × Nat) : Nat :=
  xmssIdxLen q + q.1 + q.2.2 * ((if q.1 = 32 then 67 else 51) * q.1) + q.2.1 * q.1

/-- The structure of a hash-based signature (R235): within one level 0x58 comes before 0x59. -/
def hbsSigFail (opc : Nat) (key sig : Bytes) : Option Fail :=
  if opc = 0x78 then
    if key.length = 52 ∨ key.length = 60 then
      let f := if beNat (sig.take 4) + 1 ≠ beNat (key.take 4) then some (stVerify, 0x58)
        else hssSigFail (beNat (key.take 4) - 1) (lmsTypes (key.drop 4)) (sig.drop 4)
      f
    else hssSigFail 0 (lmsTypes key) sig
  else match (xmssSets (beNat (key.take 4))).find? (fun q => decide (key.length = 4 + 2 * q.1 ∧ sig.length = xmssSigLen q)) with
    | none => some (stVerify, 0x58)
    | some q => if 2 ^ q.2.1 ≤ beNat (sig.take (xmssIdxLen q)) then some (stVerify, 0x59) else none

/-! ### Cycle counts (R196, R207, R229) -/

/-- The smallest listed modulus, in 64-bit words, that is not below `m`, gives the count (R207). -/
def bySize (m : Nat) (l : List (Nat × Nat)) : Nat := ((l.find? (fun q => decide (m ≤ q.1))).map Prod.snd).getD 0

/-- The tile cycles of a public-key or lattice operation (R207, R229), and those of a statement's longer signature (R297). Where the tables list no count, one that Config leaves open. -/
def pkCycles (w : OpWord) (p : Bytes) (t : KeyType) : Nat :=
  let other := Config.openCycles w.opc t.param
  let five (a b c d e : Nat) : Nat := [a, b, c, d, e].getD (t.param - 1) other
  let sets (a b c : Nat) : Nat := [a, b, c].getD (t.param % 16 - 1) other
  match w.opc with
  | 0x60 => five 30769 72727 190000 40000 95000
  | 0x61 => five 42105 100000 260000 55000 130000
  | 0x62 => let c := if optDest w then t.param else fpCurve p
            if c = 1 then 24000 else if c = 2 then 57000 else if c = 0x10 ∨ c = 0x20 then 20000 else Config.openCycles 0x62 c
  | 0x63 => five 35000 83000 215000 other other
  | 0x64 => if t.param = 0x10 then 25000 else 80000
  | 0x65 => if t.param = 0x10 then 36364 else 116000
  | 0x66 => if t.param = 0x20 then 23529 else 76000
  | 0x68 | 0x6A => bySize t.param [(32, 222222), (48, 750000), (64, 1600000), (128, 12800000)]
  | 0x69 | 0x6B => bySize t.param [(16, 3500), (32, 10000), (48, 21000), (64, 37000), (128, 145000)]
  | 0x6D => if w.opt = 0 then bySize t.param [(32, 222222), (48, 750000), (64, 1600000), (128, 12800000)]
            else bySize t.param [(16, 3500), (32, 10000), (48, 21000), (64, 37000), (128, 145000)]
  | 0x70 => [5800, 8889, 13300].getD ((if optDest w then t.param else fqPset p) - 1) other
  | 0x71 => if fpPkb p = 0 then sets 6300 9600 14300 else sets 6600 10000 14800
  | 0x72 => sets 7600 11429 16900 + (if t.cls = 0x14 then sets 5800 8889 13300 else 0)
  | 0x73 => [17000, 26000, 40000].getD ((if optDest w then t.param else fqPset p) - 0x11) other
  | 0x74 => sets 40000 57143 80000 + (if t.cls = 0x17 then sets 17000 26000 40000 else 0)
  | 0x75 => sets 13000 20000 32000
  | 0x77 => if hybRole w = 0 then 29000 else if hybRole w = 1 then 54000 else 64400
  | 0x95 => 57143 + 26000
  | _ => other

end Sys2Proof.Machine
end

