-- ==== Sys2Proof/Machine/CipherRun.lean ====
section
/-!
DEFINITION. What the operations of the cipher tiles deliver: nonces, headers, trailers and freshness values as R142 to R155 build
and check them, over the ciphers and tags that Config leaves to their standards (notes/assumptions/4.md).
-/

namespace Sys2Proof.Machine

/-- The outcome of a whole operation: the check that fails, what it has delivered, and PRODUCED where that differs. -/
structure Result where
  fail : Option Fail := none
  out  : Bytes := []
  prod : Option Nat := none
  deriving DecidableEq, Repr

/-! ### Ciphers and tags -/

def opGcm := 0x19
def opChacha := 0x24
def opCcm := 0x17
def opSiv := 0x1D

/-- Text of a stream mode: byte i depends on the text up to it (R143). `opc` is the encrypt or the decrypt code. -/
def streamText (opc n : Nat) (key nonce aad text : Bytes) : Bytes :=
  bytesOf text.length (fun i => Config.cipherByte (opc, n) key nonce aad.length (aad ++ text.take (i + 1)) i)

/-- A tag of n bytes over associated data and text. -/
def tagBytes (opc n : Nat) (key nonce aad text : Bytes) : Bytes :=
  bytesOf n (fun i => Config.cipherByte (opc, n) key nonce aad.length (aad ++ text) (text.length + i))

/-- The tag of a received ciphertext verifies. -/
def tagOk (opc n : Nat) (key nonce aad ct tag : Bytes) : Bool :=
  Config.cipherOk (opc + 1, n) key nonce aad.length (aad ++ ct) tag

/-- CMAC and HMAC-SHA-1 as the record helpers use them (R154, R155). -/
def cmac (key msg : Bytes) : Bytes := bytesOf 16 (Config.cipherByte (0x15, 0) key [] 0 msg)
def hmacSha1 (key msg : Bytes) : Bytes := hmacOf 0x4F key msg

/-- The AEAD of a record helper: OPT[1:0] (R151). -/
def recAlg (opt : Nat) : Nat := if opt % 4 = 1 then opChacha else if opt % 4 = 2 then opCcm else opGcm

/-! ### Plain modes (R140 to R144, R149) -/

/-- AES-XTS with ciphertext stealing: the last whole block and the partial block behind it are computed together (R140). -/
def xtsSteals (opc l : Nat) : Bool := decide (opc = 0x13 ∨ opc = 0x14) && decide (l % 16 ≠ 0)

/-- Input bytes on which byte i of a mode's output depends, beyond the associated data. -/
def blockNeed (opc l i : Nat) : Nat :=
  if opc = 0x12 then i + 1
  else if xtsSteals opc l && decide (l / 16 ≤ i / 16 + 1) then l
  else min l ((i / 16 + 1) * 16)

/-- AES-CBC, AES-CTR, AES-XTS: `n` bytes of output. -/
def plainMode (c : OpCtx) (key src : Bytes) (n : Nat) : Bytes :=
  bytesOf n (fun i => Config.cipherByte (c.w.opc, c.w.opt) key (c.par.take 16) 0 (src.take (blockNeed c.w.opc c.srcLen i)) i)

/-- The nonce of an AEAD mode (R149): NONCE, or FIXED and the 8 bytes of v; `xn` holds the received explicit nonce. -/
def modeNonce (c : OpCtx) (xn : Bytes) : Bytes :=
  match c.w.opc with
  | 0x17 | 0x18 => c.par.take (fdNlen c.par)
  | _ => if nonceSeq c.w then c.par.take 4 ++ xn else c.par.take 12

/-- What an AEAD encrypt has delivered once it has taken `src`. -/
def aeadEncText (c : OpCtx) (key : Bytes) (seq : Nat) (src : Bytes) : Bytes :=
  let a := cipherAad c
  if src.length < a then []
  else
    let xn := toBE 8 seq
    (if nonceSeq c.w then xn else []) ++ streamText c.w.opc (cipherTag c) key (modeNonce c xn) (src.take a) (src.drop a)

/-- What an AEAD decrypt has delivered once it has taken `src`. -/
def aeadDecText (c : OpCtx) (key : Bytes) (src : Bytes) : Bytes :=
  let a := cipherAad c
  let x := cipherXn c.w
  if src.length < a + x then []
  else streamText c.w.opc (cipherTag c) key (modeNonce c (slice src a x)) (src.take a) ((src.drop (a + x)).take (cipherText c))

/-- GCM-SIV text: every byte depends on all of it (R144). -/
def sivText (opc : Nat) (key nonce aad text : Bytes) : Bytes :=
  bytesOf text.length (Config.cipherByte (opc, 16) key nonce aad.length (aad ++ text))

/-- The plaintext length of a key-wrap with padding, from the wrapped form. -/
def kwpLen (key src : Bytes) : Nat := src.length - 8 - (Config.cipherByte (0x23, 8) key [] 0 src 0).toNat % 8

/-! ### Record helpers (R151 to R155) -/

/-- The parts of a record: the failing header check; the bytes delivered ahead of the text; algorithm, tag length, key,
nonce and associated data; the text taken so far. -/
structure Rec where
  bad   : Option Fail := none
  ahead : Bytes := []
  alg   : Nat := opGcm
  tag   : Nat := 16
  key   : Bytes := []
  nonce : Bytes := []
  aad   : Bytes := []
  text  : Bytes := []
  deriving DecidableEq, Repr

def badIn (d : Nat) : Option Fail := some (stBadInput, d)

/-- The first failing check of a header. -/
def firstBadIn : List (Bool × Nat) → Option Fail
  | [] => none
  | (true, _) :: t => firstBadIn t
  | (false, d) :: _ => badIn d

/-! #### MACsec -/

/-- TCI and AN: ES, SC, SCB and AN as TCI_AN has them, V 0, E and C both 1 or, with INTEG, both 0. -/
def msTci (p : Bytes) : Nat := byteAt p 0x18 + (if msInteg p then 0 else 0x0C)
/-- SL: the secure data length when below 48, else 0. -/
def msSl (n : Nat) : Nat := if n < 48 then n else 0
def msNonce (p : Bytes) (pn : Nat) : Bytes :=
  if msXpn p then xorB (slice p 0x14 4 ++ toBE 8 pn) (slice p 8 12) else slice p 0 8 ++ toBE 4 pn

/-- The secured user data of which `u` has been taken: what stays clear and what is encrypted. -/
def msSplit (p u : Bytes) : Bytes × Bytes := if msInteg p then (u, []) else (u.take (msConfOff p), u.drop (msConfOff p))

def msProtect (c : OpCtx) (key : Bytes) (pn : Nat) (src : Bytes) : Rec :=
  let p := c.par
  let tag := toBE 2 0x88E5 ++ toBE 1 (msTci p) ++ toBE 1 (msSl (c.srcLen - 12)) ++ toBE 4 (pn % 2 ^ 32)
    ++ (if msSc p then slice p 0 8 else [])
  let u := msSplit p (src.drop 12)
  { ahead := if src.length < 12 then src else src.take 12 ++ tag ++ u.1
    key := key
    nonce := msNonce p pn
    aad := src.take 12 ++ tag ++ u.1
    text := u.2 }

/-- The secure data length of a received frame. -/
def msDataLen (c : OpCtx) : Nat := c.srcLen - 12 - msTagLen c.par - 16

/-- A received frame. DESIGN CHOICE (notes/assumptions/10.md): R151 gives the checks of the header no order; they are judged in the order
below, so a frame whose SL or PN fails beside its SCI shows the detail of the former. -/
def msValidate (c : OpCtx) (key : Bytes) (src : Bytes) : Rec :=
  let p := c.par
  let t := msTagLen p
  let low := beNat (slice src 16 4)
  let pn := if msXpn p then leAt p 0x1C 4 * 2 ^ 32 + low else low
  let u := msSplit p ((src.drop (12 + t)).take (msDataLen c))
  { bad := firstBadIn [(decide (beNat (slice src 12 2) = 0x88E5), 0x20), (decide (byteAt src 14 = msTci p), 0x20),
      (decide (byteAt src 15 = msSl (msDataLen c)), 0x21), (decide (pn ≠ 0), 0x22),
      (!msSc p || decide (slice src 20 8 = slice p 0 8), 0x20)]
    ahead := src.take 12 ++ u.1
    key := key
    nonce := msNonce p pn
    aad := src.take (12 + t) ++ u.1
    text := u.2 }

/-! #### ESP -/

def espAad (p : Bytes) (hi low : Nat) : Bytes := slice p 0 4 ++ (if espEsn p then toBE 4 hi else []) ++ toBE 4 low

def espOutbound (c : OpCtx) (key : Bytes) (v : Nat) (src : Bytes) : Rec :=
  let p := c.par
  let n := espPad p c.srcLen
  let trailer := (List.range n).map (fun i => BitVec.ofNat 8 (i + 1)) ++ toBE 1 n ++ [p[8]?.getD 0]
  { ahead := slice p 0 4 ++ toBE 4 (v % 2 ^ 32) ++ toBE 8 v
    alg := recAlg c.w.opt
    tag := espTag p
    key := key
    nonce := slice p 4 4 ++ toBE 8 v
    aad := espAad p (v / 2 ^ 32) (v % 2 ^ 32)
    text := if src.length = c.srcLen then src ++ trailer else src }

def espInbound (c : OpCtx) (key : Bytes) (src : Bytes) : Rec :=
  let p := c.par
  { bad := firstBadIn [(decide (slice src 0 4 = slice p 0 4), 0x20), (decide (16 + 2 + espTag p ≤ c.srcLen), 0x21),
      (decide (beNat (slice src 4 4) + (if espEsn p then leAt p 0x0C 4 else 0) ≠ 0), 0x22)]
    alg := recAlg c.w.opt
    tag := espTag p
    key := key
    nonce := slice p 4 4 ++ slice src 8 8
    aad := espAad p (leAt p 0x0C 4) (beNat (slice src 4 4))
    text := (src.drop 16).take (c.srcLen - 16 - espTag p) }

/-- The payload and Next Header of a decrypted ESP text, or none where its padding is invalid (R151, R152). -/
def espTrailer (t : Bytes) : Option Bytes :=
  let n := byteAt t (t.length - 2)
  let l := t.length - 2 - n
  if n + 2 ≤ t.length ∧ slice t l n = (List.range n).map (fun i => BitVec.ofNat 8 (i + 1)) then
    some (t.take l ++ t.drop (t.length - 1))
  else none

/-! #### TLS 1.3 and DTLS 1.3 -/

def tlNonce (iv : Bytes) (n : Nat) (v : Nat) : Bytes := xorB (iv.take 12) (zeros (12 - n) ++ toBE n v)

def tlProtect (c : OpCtx) (key : Bytes) (v : Nat) (src : Bytes) : Rec :=
  let p := c.par
  let h := toBE 3 0x170303 ++ toBE 2 (c.srcLen + 1 + tlPad p + tlTag p)
  { ahead := h
    alg := recAlg c.w.opt
    tag := tlTag p
    key := key
    nonce := tlNonce p 8 v
    aad := h
    text := if src.length = c.srcLen then src ++ [p[0x0C]?.getD 0] ++ zeros (tlPad p) else src }

def tlUnprotect (c : OpCtx) (key : Bytes) (seq : Nat) (src : Bytes) : Rec :=
  let p := c.par
  let v := if 4 ≤ c.w.opt then leAt p 0x10 8 else seq
  { bad := firstBadIn [(decide (beNat (slice src 0 3) = 0x170303), 0x20),
      (decide (beNat (slice src 3 2) = c.srcLen - 5 ∧ beNat (slice src 3 2) ≤ 2 ^ 14 + 256), 0x21)]
    alg := recAlg c.w.opt
    tag := tlTag p
    key := key
    nonce := tlNonce p 8 v
    aad := src.take 5
    text := (src.drop 5).take (c.srcLen - 5 - tlTag p) }

/-- Content and content type: the inner plaintext up to its last non-zero byte; none where it has none (R153). -/
def innerLen (t : Bytes) : Option Nat :=
  let n := (t.reverse.dropWhile (· = 0)).length
  if n = 0 then none else some n

def dtEpoch (p : Bytes) : Nat := leAt p 0x0C 2
def dtFirst (p : Bytes) : Nat :=
  0x20 + (if dtCid p = 0 then 0 else 0x10) + (if dtS p then 8 else 0) + (if dtL p then 4 else 0) + dtEpoch p % 4
def dtSeqLen (p : Bytes) : Nat := if dtS p then 2 else 1
/-- The mask of the sequence number over the first 16 bytes of ciphertext (RFC 9147). -/
def dtMask (c : OpCtx) (snKey ct : Bytes) : Bytes :=
  bytesOf (dtSeqLen c.par) (Config.cipherByte (0x36, c.w.opt) snKey [] 0 (ct.take 16))
/-- The header with the sequence number unmasked. DESIGN CHOICE (notes/assumptions/10.md): the spec limits no inner plaintext of a DTLS
record, and the length field holds the low 16 bits of a length that does not fit it. -/
def dtHeader (p : Bytes) (seqLow len : Nat) : Bytes :=
  toBE 1 (dtFirst p) ++ slice p 0x20 (dtCid p) ++ toBE (dtSeqLen p) seqLow ++ (if dtL p then toBE 2 len else [])
/-- The slot holds the record key, then the sequence number key (R153). -/
def dtRecKey (key : Bytes) : Bytes := key.take (key.length / 2)
def dtSnKey (key : Bytes) : Bytes := key.drop (key.length / 2)

def dtProtect (c : OpCtx) (key : Bytes) (v : Nat) (src : Bytes) : Rec :=
  let p := c.par
  let md := 2 ^ (8 * dtSeqLen p)
  let text := if src.length = c.srcLen then src ++ [p[0x0E]?.getD 0] ++ zeros (dtPad p) else src
  let h := dtHeader p (v % md) (c.srcLen + 1 + dtPad p + dtTag p)
  let nonce := tlNonce p 8 (dtEpoch p * 2 ^ 48 + v)
  let ct := streamText (recAlg c.w.opt) (dtTag p) (dtRecKey key) nonce h text
  let whole := ct ++ (if src.length = c.srcLen then tagBytes (recAlg c.w.opt) (dtTag p) (dtRecKey key) nonce h text else [])
  let mask := dtMask c (dtSnKey key) whole
  let o := 1 + dtCid p
  { ahead := if whole.length < 16 then []
      else h.take o ++ xorB (slice h o (dtSeqLen p)) mask ++ h.drop (o + dtSeqLen p)
    alg := recAlg c.w.opt
    tag := dtTag p
    key := dtRecKey key
    nonce := nonce
    aad := h
    text := if whole.length < 16 then [] else text }

/-- The value closest to EXPECT with the received low bits (R153); a free choice where two are equally close
(notes/assumptions/5.md). -/
def closest (expect low bits : Nat) : Nat :=
  let m := 2 ^ bits
  let mid := expect / m * m + low
  let cands := ([mid, mid + m] ++ (if m ≤ mid then [mid - m] else [])).filter (fun v => decide (v < 2 ^ 48))
  let dist (v : Nat) : Nat := if v ≤ expect then expect - v else v - expect
  let best := (cands.map dist).foldl min (2 ^ 64)
  match cands.filter (fun v => dist v = best) with
  | [a] => a
  | a :: b :: _ => if Config.freeBool (expect * m + low) then a else b
  | [] => mid

def dtUnprotect (c : OpCtx) (key : Bytes) (src : Bytes) : Rec :=
  let p := c.par
  let o := 1 + dtCid p
  let hl := dtHdr p
  let ct := src.drop hl
  let low := beNat (xorB (slice src o (dtSeqLen p)) (dtMask c (dtSnKey key) ct))
  let v := closest (leAt p 0x18 8) low (8 * dtSeqLen p)
  { bad := firstBadIn [(decide (byteAt src 0 = dtFirst p), 0x20), (decide (slice src 1 (dtCid p) = slice p 0x20 (dtCid p)), 0x20),
      (!dtL p || decide (beNat (slice src (o + dtSeqLen p) 2) = c.srcLen - hl), 0x21), (decide (16 + hl ≤ c.srcLen), 0x21)]
    ahead := toBE 2 (dtEpoch p) ++ toBE 6 v
    alg := recAlg c.w.opt
    tag := dtTag p
    key := dtRecKey key
    nonce := tlNonce p 8 (dtEpoch p * 2 ^ 48 + v)
    aad := dtHeader p low (c.srcLen - hl)
    text := ct.take (c.srcLen - hl - dtTag p) }

/-! #### SRTP and SRTCP -/

/-- Bytes left clear: of RTP the header, the CSRC list and any header extension; of RTCP the first 8 bytes. -/
def srHdr (p src : Bytes) : Nat :=
  if srRtcp p then 8
  else
    let cc := byteAt src 0 % 16
    let x := (byteAt src 0).testBit 4
    12 + 4 * cc + (if x then 4 + 4 * beNat (slice src (12 + 4 * cc + 2) 2) else 0)

def srSsrc (p src : Bytes) : Bytes := if srRtcp p then slice src 4 4 else slice src 8 4
/-- The 48-bit index: ROC and SEQ, or the 31-bit index. -/
def srIndex (p src : Bytes) (ix : Nat) : Nat := if srRtcp p then ix else leAt p 0x10 4 * 2 ^ 16 + beNat (slice src 2 2)
def srNonce (c : OpCtx) (src : Bytes) (ix : Nat) : Bytes :=
  let p := c.par
  if c.w.opt = 1 then
    xorB ([0, 0] ++ srSsrc p src ++ (if srRtcp p then [0, 0] ++ toBE 4 ix else toBE 6 (srIndex p src ix))) (slice p 0 12)
  else xorB (slice p 0 14 ++ [0, 0]) (zeros 4 ++ srSsrc p src ++ toBE 6 (srIndex p src ix) ++ [0, 0])
/-- Encryption key and authentication key of the slot (R154). -/
def srEncKey (c : OpCtx) (key : Bytes) : Bytes := if c.w.opt = 0 then key.take 16 else if c.w.opt = 1 then key else []
def srAuthKey (c : OpCtx) (key : Bytes) : Bytes := if c.w.opt = 0 then key.drop 16 else key
/-- The text is encrypted: not in the null cipher, nor in an SRTCP packet with E = 0. -/
def srCrypt (c : OpCtx) (e : Bool) : Bool := decide (c.w.opt ≠ 2) && (!srRtcp c.par || e)
/-- E and index as SRTCP sends them. -/
def srEix (e : Bool) (ix : Nat) : Bytes := toBE 4 ((if e then 2 ^ 31 else 0) + ix)

/-- The clear part and the encrypted part of a packet of which `pkt` has been taken. -/
def srSplit (c : OpCtx) (e : Bool) (pkt : Bytes) : Bytes × Bytes :=
  if srCrypt c e then (pkt.take (srHdr c.par pkt), pkt.drop (srHdr c.par pkt)) else (pkt, [])

/-- Associated data of the AES-GCM forms (RFC 7714). -/
def srAad (c : OpCtx) (e : Bool) (ix : Nat) (clear : Bytes) : Bytes := clear ++ (if srRtcp c.par then srEix e ix else [])

/-- The transformed text of a packet, by the encrypt or the decrypt code. -/
def srText (c : OpCtx) (dec : Bool) (key : Bytes) (e : Bool) (ix : Nat) (pkt : Bytes) : Bytes :=
  let u := srSplit c e pkt
  let k := srEncKey c key
  let n := srNonce c pkt ix
  if c.w.opt = 1 then streamText (if dec then opGcm + 1 else opGcm) 16 k n (srAad c e ix u.1) u.2
  else streamText 0x12 0 k n [] u.2

/-- The HMAC input: the packet as sent, followed by ROC, or by E and the index. -/
def srMacIn (c : OpCtx) (e : Bool) (ix : Nat) (sent : Bytes) : Bytes :=
  sent ++ (if srRtcp c.par then srEix e ix else toBE 4 (leAt c.par 0x10 4))

def srOut (c : OpCtx) (dec : Bool) (key : Bytes) (e : Bool) (ix : Nat) (pkt : Bytes) : Bytes :=
  if pkt.length < srHdr c.par pkt then [] else (srSplit c e pkt).1 ++ srText c dec key e ix pkt

def srBad (c : OpCtx) (pktLen : Nat) (src : Bytes) : Option Fail :=
  firstBadIn [(decide (byteAt src 0 / 64 = 2), 0x20), (decide (srHdr c.par src ≤ pktLen), 0x21)]

def srProtect (c : OpCtx) (key : Bytes) (seq : Nat) (src : Bytes) : Result :=
  let p := c.par
  let e := srEbit p
  match srBad c c.srcLen src with
  | some f => { fail := some f }
  | none =>
    let sent := srOut c false key e seq src
    let u := srSplit c e src
    let tag := if c.w.opt = 1 then tagBytes opGcm 16 (srEncKey c key) (srNonce c src seq) (srAad c e seq u.1) u.2
      else (hmacSha1 (srAuthKey c key) (srMacIn c e seq sent)).take (srTag p)
    { out := sent ++ (if srRtcp p then srEix e seq else []) ++ slice p 0x14 (srMki p) ++ tag }

/-- Length of the packet inside a received SRTP or SRTCP packet. -/
def srPktLen (c : OpCtx) : Nat := c.srcLen - srTag c.par - srMki c.par - (if srRtcp c.par then 4 else 0)

def srUnprotect (c : OpCtx) (key src : Bytes) : Result :=
  let p := c.par
  let n := srPktLen c
  let w := beNat (slice src n 4)
  let e := srRtcp p && decide (2 ^ 31 ≤ w)
  let ix := if srRtcp p then w % 2 ^ 31 else 0
  let pkt := src.take n
  match srBad c n src with
  | some f => { fail := some f }
  | none =>
    let tag := src.drop (c.srcLen - srTag p)
    let u := srSplit c e pkt
    let ok := if c.w.opt = 1 then tagOk opGcm 16 (srEncKey c key) (srNonce c pkt ix) (srAad c e ix u.1) u.2 tag
      else decide (tag = (hmacSha1 (srAuthKey c key) (srMacIn c e ix pkt)).take (srTag p))
    { fail := if ok then none else some (stAuth, 1), out := srOut c true key e ix pkt }

/-! #### Authenticated CAN (R155) -/

/-- The MAC over DATA_ID, payload and freshness value. -/
def canMacOf (p key payload : Bytes) (v : Nat) : Nat := beNat (cmac key (slice p 0 2 ++ payload ++ toBE 8 v)) / 2 ^ (128 - canMac p)
def canPad (p : Bytes) : Nat := 8 * canTail p - canFv p - canMac p

def canGenerate (c : OpCtx) (key : Bytes) (v : Nat) (src : Bytes) : Result :=
  let p := c.par
  { out := src ++ toBE (canTail p) ((v % 2 ^ canFv p * 2 ^ canMac p + canMacOf p key src v) * 2 ^ canPad p) }

/-- The reconstructed freshness value, 64 bits. DESIGN CHOICE (notes/assumptions/10.md): a sum beyond 64 bits is taken modulo 2^64, and
then fails as not newer than LATEST. -/
def canFresh (p : Bytes) (bits : Nat) : Nat :=
  let latest := leAt p 8 8
  let m := 2 ^ canFv p
  let f := latest / m * m + bits
  if canFv p = 64 then bits else if f ≤ latest then (f + m) % 2 ^ 64 else f

def canVerify (c : OpCtx) (key src : Bytes) : Result :=
  let p := c.par
  let n := c.srcLen - canTail p
  let tail := beNat (src.drop n)
  let body := tail / 2 ^ canPad p
  let f := canFresh p (body / 2 ^ canMac p)
  let payload := src.take n
  if f ≤ leAt p 8 8 then { fail := some (stAuth, 0x23), out := payload }
  else if body % 2 ^ canMac p ≠ canMacOf p key payload f then { fail := some (stAuth, 0x02), out := payload }
  else if tail % 2 ^ canPad p ≠ 0 then { fail := some (stAuth, 0x24), out := payload }
  else { out := payload ++ toBE 8 f }

/-! ### What an operation delivers -/

/-- The record of a helper with an AEAD and one header (MACsec, ESP, TLS, DTLS). -/
def recOf (c : OpCtx) (key : Bytes) (seq : Nat) (src : Bytes) : Rec :=
  match c.w.opc with
  | 0x30 => msProtect c key seq src
  | 0x31 => msValidate c key src
  | 0x32 => espOutbound c key seq src
  | 0x33 => espInbound c key src
  | 0x34 => tlProtect c key seq src
  | 0x35 => tlUnprotect c key seq src
  | 0x36 => dtProtect c key seq src
  | _ => dtUnprotect c key src

/-- Bytes of SRC that a receiving helper checks before its first output byte. -/
def hdrNeed (c : OpCtx) (src : Bytes) : Nat :=
  match c.w.opc with
  | 0x31 => 12 + msTagLen c.par
  | 0x33 => 16
  | 0x35 => 5
  | 0x37 => dtHdr c.par + 16
  | 0x38 | 0x39 => max 12 (srHdr c.par src)
  | _ => 0

/-- The header of a receiving helper has arrived and fails (R151). -/
def hdrBad (c : OpCtx) (key : Bytes) (seq : Nat) (src : Bytes) : Option Fail :=
  if src.length < hdrNeed c src then none
  else match c.w.opc with
    | 0x31 | 0x33 | 0x35 | 0x37 => (recOf c key seq src).bad
    | 0x38 => srBad c c.srcLen src
    | 0x39 => srBad c (srPktLen c) src
    | _ => none

/-- What an operation has delivered once it has taken the bytes `src` of its input, before it ends (R143, R144, R151 to R154). An XTS input
with ciphertext stealing that ends short in its last partial block delivers no more than the blocks before the last whole one, whose output
needs the missing bytes (DESIGN CHOICE, notes/assumptions/35.md). -/
def cipherSoFar (c : OpCtx) (key : Bytes) (seq : Nat) (src : Bytes) : Bytes :=
  match c.w.opc with
  | 0x10 | 0x11 => plainMode c key src (src.length / 16 * 16)
  | 0x13 | 0x14 =>
    plainMode c key src (if xtsSteals c.w.opc c.srcLen then min (src.length / 16 * 16) ((c.srcLen / 16 - 1) * 16) else src.length / 16 * 16)
  | 0x12 => plainMode c key src src.length
  | 0x17 | 0x19 | 0x24 => aeadEncText c key seq src
  | 0x18 | 0x1A | 0x25 => aeadDecText c key src
  | 0x30 | 0x32 | 0x34 | 0x36 =>
    let r := recOf c key seq src
    r.ahead ++ (if r.ahead = [] then [] else streamText r.alg r.tag r.key r.nonce r.aad r.text)
  | 0x31 | 0x33 | 0x35 | 0x37 =>
    if src.length < hdrNeed c src || (hdrBad c key seq src).isSome then []
    else
      let r := recOf c key seq src
      let t := streamText (r.alg + 1) r.tag r.key r.nonce r.aad r.text
      r.ahead ++ (if c.w.opc = 0x33 then t.take (cipherText c - 257) else t)
  | 0x38 => if src.length < hdrNeed c src || (hdrBad c key seq src).isSome then [] else srOut c false key (srEbit c.par) seq src
  | 0x39 =>
    if src.length < hdrNeed c src || srRtcp c.par || (hdrBad c key seq src).isSome then []
    else srOut c true key false 0 (src.take (srPktLen c))
  | 0x3A | 0x3B => src.take (if c.w.opc = 0x3A then c.srcLen else c.srcLen - canTail c.par)
  | _ => []

/-- The outcome of a whole operation over its declared input (R140 to R155). -/
def cipherResult (c : OpCtx) (key : Bytes) (seq : Nat) (src aux : Bytes) : Result :=
  let tag := cipherTag c
  let a := cipherAad c
  let aad := src.take a
  match c.w.opc with
  | 0x10 | 0x11 | 0x12 | 0x13 | 0x14 => { out := plainMode c key src src.length }
  | 0x15 => { out := (cmac key src).take tag }
  | 0x16 => { fail := if decide (aux = (cmac key src).take tag) then none else some (stAuth, 2) }
  | 0x17 | 0x19 | 0x24 =>
    { out := aeadEncText c key seq src ++ tagBytes c.w.opc tag key (modeNonce c (toBE 8 seq)) aad (src.drop a) }
  | 0x18 | 0x1A | 0x25 =>
    let x := cipherXn c.w
    { fail := if tagOk (c.w.opc - 1) tag key (modeNonce c (slice src a x)) aad ((src.drop (a + x)).take (cipherText c))
          (src.drop (c.srcLen - tag)) then none else some (stAuth, 1)
      out := aeadDecText c key src }
  | 0x1B => { out := (if nonceSeq c.w then toBE 8 seq else []) ++ tagBytes opGcm tag key (modeNonce c (toBE 8 seq)) src [] }
  | 0x1C =>
    let x := cipherXn c.w
    { fail := if tagOk opGcm tag key (modeNonce c (aux.take x)) src [] (aux.drop x) then none else some (stAuth, 2) }
  | 0x1D => { out := sivText opSiv key (c.par.take 12) aad (src.drop a) ++ tagBytes opSiv 16 key (c.par.take 12) aad (src.drop a) }
  | 0x1E =>
    let ct := (src.drop a).take (cipherText c)
    if tagOk opSiv 16 key (c.par.take 12) aad ct (src.drop (c.srcLen - 16)) then { out := sivText (opSiv + 1) key (c.par.take 12) aad ct }
    else { fail := some (stAuth, 1) }
  | 0x20 | 0x22 => { out := bytesOf (cipherOutLen c) (Config.cipherByte (c.w.opc, 0) key [] 0 src) }
  | 0x21 | 0x23 =>
    if Config.cipherOk (c.w.opc, 0) key [] 0 src [] then
      { out := bytesOf (if c.w.opc = 0x21 then src.length - 8 else kwpLen key src) (Config.cipherByte (c.w.opc, 0) key [] 0 src) }
    else { fail := some (stAuth, 0x20) }
  | 0x30 | 0x32 | 0x34 | 0x36 =>
    let r := recOf c key seq src
    { out := cipherSoFar c key seq src ++ tagBytes r.alg r.tag r.key r.nonce r.aad r.text }
  | 0x31 | 0x33 | 0x35 | 0x37 =>
    let r := recOf c key seq src
    match r.bad with
    | some f => { fail := some f }
    | none =>
      let early := cipherSoFar c key seq src
      let t := streamText (r.alg + 1) r.tag r.key r.nonce r.aad r.text
      if !tagOk r.alg r.tag r.key r.nonce r.aad r.text (src.drop (c.srcLen - r.tag)) then { fail := some (stAuth, 1), out := early }
      else if c.w.opc = 0x31 then { out := early }
      else if c.w.opc = 0x33 then
        (match espTrailer t with
          | some b => { out := b }
          | none => { fail := some (stAuth, 0x21), out := early })
      else
        (match innerLen t with
          | some n => { out := r.ahead ++ t, prod := some (r.ahead.length + n) }
          | none => { fail := some (stAuth, 0x22), out := early })
  | 0x38 => srProtect c key seq src
  | 0x39 => srUnprotect c key src
  | 0x3A => canGenerate c key seq src
  | 0x3B => canVerify c key src
  | _ => {}

end Sys2Proof.Machine
end

