-- ==== Sys2Proof/Machine/Entry.lean ====
section
/-!
DEFINITION. The request entry: layout, operation words, buffer references, and the checks of R106 in their order, with their
detail bytes (R80 to R101, R107, R333), and the charge of a scheduled request (R357).
-/

namespace Sys2Proof.Machine

/-! ### Layout (R80, R81, R83, R89) -/

def eTag (e : Bytes) : Nat := leAt e 0 2
def eNstr (e : Bytes) : Nat := byteAt e 2 % 8
def eNops (e : Bytes) : Nat := byteAt e 2 / 16
def eNbuf (e : Bytes) : Nat := byteAt e 3 % 16
def ePlen (e : Bytes) : Nat := byteAt e 4
def eFlags (e : Bytes) : Nat := byteAt e 5
def eStretch (e : Bytes) : Bytes := e.drop 32

def flFence (e : Bytes) : Bool := (eFlags e).testBit 0
def flPaired (e : Bytes) : Bool := (eFlags e).testBit 1
def flHold (e : Bytes) : Bool := (eFlags e).testBit 2
def flScrub (e : Bytes) : Bool := (eFlags e).testBit 3
def flDropLate (e : Bytes) : Bool := (eFlags e).testBit 4

/-- The required size S of the stretcher area (R81). -/
def eSize (e : Bytes) : Nat := 8 * (eNops e - 1) + 16 * (eNbuf e - 1) + ePlen e

def readOp (b : Bytes) : OpWord where
  opc   := byteAt b 0
  src   := byteAt b 1 % 16
  dst   := byteAt b 1 / 16
  aux   := byteAt b 2 % 16
  opt   := byteAt b 2 / 16 % 8
  kfrom := (byteAt b 2).testBit 7
  poff  := byteAt b 3
  key   := leAt b 4 4

def eOp (e : Bytes) (i : Nat) : OpWord :=
  readOp (if i = 0 then slice e 8 8 else slice (eStretch e) (8 * (i - 1)) 8)

def eOps (e : Bytes) : List OpWord := (List.range (eNops e)).map (eOp e)

def readRef (b : Bytes) : BufRef where
  addr := leAt b 0 6
  kind := byteAt b 6 % 16
  len  := leAt b 8 3
  auxw := leAt b 12 4
  rsvd := decide (byteAt b 6 / 16 ≠ 0) || decide (byteAt b 7 ≠ 0) || decide (byteAt b 0xB ≠ 0)

def eRefBytes (e : Bytes) (i : Nat) : Bytes :=
  if i = 0 then slice e 16 16 else slice (eStretch e) (8 * (eNops e - 1) + 16 * (i - 1)) 16
def eRefs (e : Bytes) : List BufRef := (List.range (eNbuf e)).map (fun i => readRef (eRefBytes e i))

/-- The parameter area. -/
def eParams (e : Bytes) : Bytes := slice (eStretch e) (8 * (eNops e - 1) + 16 * (eNbuf e - 1)) (ePlen e)

def kFlat := 0
def kSgl := 1
def kInline := 2
def kFrame := 3

/-- SGL: NELEM, and AHEAD clamped to 1 to 8 (R91). -/
def BufRef.nelem (b : BufRef) : Nat := b.auxw % 2 ^ 13
def BufRef.ahead (b : BufRef) : Nat := max 1 (min 8 (b.auxw / 2 ^ 16 % 16))
/-- FRAME: handle, source port, start offset, FMODE (R89). -/
def BufRef.handle (b : BufRef) : Nat := b.addr % 2 ^ 24
def BufRef.fport (b : BufRef) : Nat := b.addr / 2 ^ 24 % 32
def BufRef.fstart (b : BufRef) : Nat := b.auxw % 2 ^ 14
def BufRef.fmode (b : BufRef) : Nat := b.auxw / 2 ^ 14 % 4

/-! ### Parameter blocks -/

/-- The operation codes of R85. -/
def opcKnown (opc : Nat) : Bool :=
  decide (opc = 0x01) || isCipher opc || isDigest opc || isPk opc || isLattice opc || isHbs opc || decide (0x90 ≤ opc ∧ opc ≤ 0x95)

/-- The operation takes a parameter block (R83, R141, R164, R189, R215, R265, R273, R289, R293). -/
def takesPar (w : OpWord) : Bool :=
  if w.opc = 0x01 then false
  else if isCipher w.opc then (cipherPar w.opc w.opt).isSome
  else if isDigest w.opc then digestFormK w
  else true

/-- Bytes of the parameter block that starts at POFF. -/
def parSize (w : OpWord) (area : Bytes) : Nat :=
  if isCipher w.opc then (cipherPar w.opc w.opt).getD 0
  else if isDigest w.opc then
    (let k := slice area w.poff 8; 8 + (if w.opt ≤ 1 then fkN k + fkS k else 0))
  else pkParFixed w + pkParTail w (fit 32 (slice area w.poff 32))

/-- The parameter block: a block of zeros where POFF = 0xFF stands for one. -/
def parBlock (w : OpWord) (area : Bytes) : Bytes :=
  if !takesPar w then []
  else if w.poff = 0xFF then zeros 24
  else let n := parSize w area; fit (max n 24) (slice area w.poff n)

/-- POFF = 0xFF stands for a block that the tile chapter names; Form P and Form Q are the only ones that do (R189, R215). -/
def poffCheck (w : OpWord) (area : Bytes) : Option Fail :=
  if !takesPar w then (if w.poff = 0xFF then none else unsup 8)
  else if w.poff = 0xFF then (if parOptional w.opc then none else unsup 8)
  else if w.poff + parSize w area ≤ area.length then none
  else unsup 8

/-! ### Step 3 of R106 -/

def optCheck (w : OpWord) : Option Fail :=
  if w.opc = 0x01 then (if w.opt = 0 then none else unsup 4)
  else if isCipher w.opc then (if cipherOptOk w.opc w.opt then none else unsup 4)
  else if isDigest w.opc then (if digestOptOk w.opc w.opt then none else unsup 4)
  else pkOptCheck w

/-- KEY and KFROM (R86, R87): an unused one is zero; the reserved bits of a used one are zero. -/
def keyFieldOk (w : OpWord) (p : Bytes) : Bool :=
  let ref := if 2 ^ 31 ≤ w.key then decide (w.key % 2 ^ 31 < 2 ^ 12) else decide (w.key < 2 ^ 11)
  match keyUse w p with
  | .none => !w.kfrom && decide (w.key = 0)
  | .target => !w.kfrom && decide (w.key < 2 ^ 11)
  | .key => if w.kfrom then decide (w.key < 8) else ref

def selOk (i nbuf v : Nat) (req : Bool) : Bool :=
  if v = 0 then !req else if v < 8 then decide (v - 1 < i) else decide (v - 8 < nbuf)

/-- PKB as a selector (R189). -/
def pkbCheck (ops : List OpWord) (refs : List BufRef) (w : OpWord) (p : Bytes) : Option Fail :=
  if !takesPkb w || decide (fpPkb p = 0) then none
  else if !(decide (8 ≤ fpPkb p) && decide (fpPkb p - 8 < refs.length)) || ops.any (fun o => o.dst = fpPkb p) then unsup 5
  else match refs[fpPkb p - 8]? with
    | some b => if b.kind = kFrame then unsup 7 else none
    | none => none

/-- The operation's output is a key: some later operation takes it by KFROM, or it goes into a slot (R265). -/
def outIsKey (ops : List OpWord) (i : Nat) (w : OpWord) : Bool :=
  optDest w || ops.any (fun o => o.kfrom && decide (o.key = i))

def parCheck (ops : List OpWord) (i : Nat) (w : OpWord) (p : Bytes) (c : OpCtx) : Option Fail :=
  if isCipher w.opc then cipherParCheck c
  else if isDigest w.opc then digestParCheck c
  else if isPk w.opc then formPCheck w p (if w.kfrom then ops[w.key]? else none)
  else if isLattice w.opc || isHbs w.opc then formQCheck w p
  else if isKilnOp w.opc then formRCheck w p (outIsKey ops i w)
  else if w.opc = 0x93 then formWCheck w p
  else if w.opc = 0x94 then formGCheck p
  else if w.opc = 0x95 then formTCheck p
  else none

/-- A selector names a FIRST or MIDDLE part, which delivers nothing (R163). -/
def partNamed (ops : List OpWord) (v : Nat) : Bool :=
  decide (1 ≤ v ∧ v < 8) && (match ops[v - 1]? with
    | some o => isPart o
    | none => false)

/-- Step 3 of R106 for operation i. -/
def step3 (e : Bytes) (i : Nat) (w : OpWord) : Option Fail :=
  let ops := eOps e
  let refs := eRefs e
  let area := eParams e
  let p := parBlock w area
  let sh := shapeOf w
  let n := refs.length
  (if opcKnown w.opc then none else unsup 3)
    |>.or (optCheck w)
    |>.or (firstBad [((sh.src || decide (w.src = 0)) && (sh.aux || decide (w.aux = 0)) && (sh.dst || decide (w.dst = 0))
        && keyFieldOk w p, 2), (takesPar w || decide (w.poff = 0xFF), 8)])
    |>.or (firstBad [(selOk i n w.src sh.src && !partNamed ops w.src, 5), (selOk i n w.aux sh.aux && !partNamed ops w.aux, 5),
        (decide (w.dst = 0) || (decide (8 ≤ w.dst) && decide (w.dst - 8 < n)), 5),
        (!w.kfrom || decide (w.key < i), 5),
        (!w.kfrom || (match ops[w.key]? with
          | some k => makesKey k
          | none => false), 6)])
    |>.or (poffCheck w area)
    |>.or (pkbCheck ops refs w p)
    |>.or (parCheck ops i w p ⟨w, p, 0, 0, none, 0, 0⟩)

/-! ### Step 4 of R106 -/

/-- The lowest-numbered operation that selects buffer b, or 0 (R107). -/
def selectorOf (e : Bytes) (b : Nat) : Nat :=
  ((List.range (eNops e)).find? (fun i =>
    let w := eOp e i
    decide (w.src = b + 8 ∨ w.dst = b + 8 ∨ w.aux = b + 8)
      || (takesPkb w && decide (fpPkb (parBlock w (eParams e)) = b + 8)))).getD 0

def isDst (ops : List OpWord) (b : Nat) : Bool := ops.any (fun o => o.dst = b + 8)
def isSrc (ops : List OpWord) (b : Nat) : Bool := ops.any (fun o => o.src = b + 8)
def isAux (ops : List OpWord) (b : Nat) : Bool := ops.any (fun o => o.aux = b + 8)

/-- A buffer reference satisfies R89 to R91 and R333. -/
def refCheck (e : Bytes) (ops : List OpWord) (refs : List BufRef) (i : Nat) (b : BufRef) : Option Fail :=
  if b.rsvd then unsup 2
  else if 3 < b.kind then unsup 7
  else if b.kind = kFlat then (if b.auxw = 0 then none else unsup 2)
  else if b.kind = kSgl then
    firstBad [(decide (b.auxw / 2 ^ 20 = 0) && decide (b.auxw / 2 ^ 13 % 8 = 0), 2),
      (decide (b.addr % 16 = 0) && decide (1 ≤ b.nelem ∧ b.nelem ≤ 4096), 7)]
  else if b.kind = kInline then
    firstBad [(decide (b.addr < 256 ∧ b.auxw = 0), 2), (!isDst ops i, 7), (decide (b.addr + b.len ≤ ePlen e), 8)]
  else
    let sameFrame (c : BufRef) (k : Nat) : Bool :=
      decide (c.kind = kFrame) && decide (c.fmode = 0) && decide (c.handle = b.handle) && isSrc ops k
    firstBad [(decide (b.addr / 2 ^ 29 = 0) && decide (b.auxw / 2 ^ 16 = 0), 2), (decide (b.fmode ≠ 3), 7), (!isAux ops i, 7),
      (decide (((refs.take (i + 1)).filter (fun c => c.kind = kFrame)).length ≤ 2), 7),
      (!(isSrc ops i && decide (b.fmode = 2)), 7), (!(isDst ops i && decide (b.fmode = 0)), 7),
      (!decide (b.fmode = 1) || ops.any (fun o => o.src = i + 8 ∧ o.dst = i + 8), 7),
      (!decide (b.fmode = 2) || (List.range refs.length).any (fun k => sameFrame (refs.getD k {}) k), 7),
      (decide (b.fstart + b.len ≤ 16384), 7)]

/-- Two FLAT ranges overlap. -/
def overlaps (a b : BufRef) : Bool :=
  decide (a.kind = kFlat ∧ b.kind = kFlat) && decide (0 < a.len ∧ 0 < b.len) && decide (a.addr < b.addr + b.len)
    && decide (b.addr < a.addr + a.len)

/-- The roles of a reference named as a DST satisfy R94. -/
def roleOk (ops : List OpWord) (refs : List BufRef) (i : Nat) : Bool :=
  if !isDst ops i then true
  else
    decide ((ops.filter (fun o => o.dst = i + 8)).length ≤ 1)
    && ops.all (fun o => o.aux ≠ i + 8 ∧ (o.src = i + 8 → o.dst = i + 8))
    && (List.range refs.length).all (fun j => decide (j = i) || !overlaps (refs.getD i {}) (refs.getD j {}))

/-! ### Lengths (R93, R98, R100, R101, R191) -/

/-- What is known of an operation when its lengths are computed: the type of its key, of the slot it writes, and whether the keys of the
request are resolved: from then on the entry gives the type of a key that passes by KFROM (R191, R254). -/
structure Known where
  key      : Option KeyType := none
  target   : Option Bytes := none
  resolved : Bool := false
  deriving DecidableEq, Repr

/-- The operation's lengths depend on no key reference. -/
def keyless (w : OpWord) (p : Bytes) : Bool :=
  !(isPk w.opc || isLattice w.opc) || (isKeygen w && !keygenDest w) || (takesPkb w && decide (fpPkb p ≠ 0)) || decide (w.opc = 0x77)

/-- The key type that the lengths of a public-key, lattice or hash-based operation go by: none before the keys are resolved (R191, R216). -/
def knownType (w : OpWord) (p : Bytes) (k : Known) : Option KeyType :=
  if !k.resolved then none
  else match k.key with
  | some t => some t
  | none => if keyless w p then some (if takesPkb w && decide (fpPkb p ≠ 0) then pkbType w p else {}) else none

/-- The output length of an operation, given the lengths of its inputs; none while it waits for a key (R93). -/
def outLenOf (w : OpWord) (p : Bytes) (k : Known) (src aux : Nat) : Option Nat :=
  let c : OpCtx := ⟨w, p, src, aux, none, 0, 0⟩
  if w.opc = 0x01 then some src
  else if isCipher w.opc then some (cipherOutLen c)
  else if isDigest w.opc then some (digestOutLen c)
  else if w.opc = 0x72 then (if k.resolved then some 32 else none)
  else if isPk w.opc || isLattice w.opc then
    (match knownType w p k, keygenDest w, k.target with
      | some t, true, some a => some (pkOutLen w p t (some a))
      | _, true, none => none
      | some t, false, _ => some (pkOutLen w p t none)
      | none, _, _ => if keygenDest w then k.target.map (fun a => pkOutLen w p {} (some a)) else none)
  else if isKilnOp w.opc then some (frOutLen p)
  else if w.opc = 0x94 then some (fgOut p)
  else if w.opc = 0x95 then some 4159
  else some 0

/-- The length that a selector delivers: an operation's output or a buffer's LEN. -/
def selLen (refs : List BufRef) (outs : List (Option Nat)) (v : Nat) : Option Nat :=
  if v = 0 then some 0
  else if v < 8 then outs.getD (v - 1) none
  else some (refs.getD (v - 8) {}).len

/-- The type of a key that operation w takes by KFROM, as its producer's entry gives it (R254): the record D of a derivation, a SECRET of
an agreement, the class that w requires of an unwrap, at the one length that w's class accepts: a KWP unwrap delivers 8 to 15 bytes less
than its input. A key of a class that w does not take has no type here: it is refused as w receives it (R252, R253). -/
def kfromType (e : Bytes) (outs : List (Option Nat)) (w : OpWord) : Option KeyType :=
  let j := eOp e w.key
  let p := parBlock w (eParams e)
  let unwrapped (l : Nat) : Option KeyType :=
    (unwrappedClass w p l).bind (fun t => if classRow t.1 t.2 l true then some ⟨t.1, t.2, 0⟩ else none)
  let taken (t : KeyType) (len : Nat) : Option KeyType := if acceptsKey w p t.cls t.param len then some t else none
  if isKilnOp j.opc then (let d := frD (parBlock j (eParams e)); taken (typeOf d) (aLen d))
  else if j.opc = 0x21 ∨ j.opc = 0x23 then
    match selLen (eRefs e) outs j.src with
    | some l => ((List.range (if j.opc = 0x21 then 1 else 8)).map (fun d => unwrapped (l - 8 - d))).findSome? id
    | none => none
  else taken ⟨6, 0, 0⟩ 32

/-- What is known of operation i, with the type of a key that passes by KFROM once the keys are resolved; the TAGLEN of an HMAC whose key
passes so is judged as the operation receives it (R166). -/
def knownAt (e : Bytes) (kn : Nat → Known) (outs : List (Option Nat)) (i : Nat) : Known :=
  let k := kn i
  let w := eOp e i
  if k.resolved && k.key.isNone && w.kfrom && !isDigest w.opc && decide (keyUse w (parBlock w (eParams e)) = .key) then
    { k with key := kfromType e outs w }
  else k

/-- The output lengths of all operations in order. -/
def outLens (e : Bytes) (kn : Nat → Known) : List (Option Nat) :=
  (List.range (eNops e)).foldl (fun outs i =>
    let w := eOp e i
    outs ++ [match selLen (eRefs e) outs w.src, selLen (eRefs e) outs w.aux with
      | some a, some b => outLenOf w (parBlock w (eParams e)) (knownAt e kn outs i) a b
      | _, _ => none]) []

/-- What the key of an HMAC refuses: generation with SHA-1, a TAGLEN above the hash's output length (R162, R166). -/
def hmacKeyFail (w : OpWord) (p : Bytes) (t : KeyType) : Option Fail :=
  if w.opc = 0x50 ∧ t.param = 0x4F then unsup 0x32
  else if isHmac w.opc && endsHash w && decide (digestBytes t.param < fkTag p) then unsup 0x30
  else none

/-- The tile chapter's length checks, where all the lengths are known. -/
def lenCheck (w : OpWord) (p : Bytes) (k : Known) (src aux pkb : Nat) (hashed : Bool) : Option Fail :=
  let c : OpCtx := ⟨w, p, src, aux, none, 0, 0⟩
  if isCipher w.opc then cipherLenCheck c
  else if isDigest w.opc then (digestLenCheck c).or (k.key.bind (hmacKeyFail w p))
  else if isPk w.opc || isLattice w.opc || isHbs w.opc then
    match knownType w p k with
    | some t => pkTypeCheck w p t src aux pkb hashed
    | none => none
  else none

/-- R101 for an operation whose SRC names a hash operation: the digest is the one wanted; under a key that names no hash (R254), one of the
SHA-2 and SHA-3 hashes that the signature offers (R183). The wrong hash of a prehash variant of EdDSA is
UNSUPPORTED 0x41 (R208), any other mismatch 0x0B (R107; DEDUCED, notes/assumptions/10.md). -/
def digestMatch (ops : List OpWord) (outs : List (Option Nat)) (w : OpWord) (p : Bytes) (k : Known) : Option Fail :=
  if !isSignature w || decide (w.src = 0 ∨ 8 ≤ w.src) then none
  else match ops[w.src - 1]? with
    | none => none
    | some h =>
      if !isHashOp h then none
      else
        let judge (want : Option Nat) : Option Fail :=
          match want with
          | none => unsup 0xB
          | some 0 => if hashLen h.opc ≠ 0 then none else unsup 0xB
          | some x => if h.opc = x ∧ outs.getD (w.src - 1) none = some (digestBytes x) then none
            else unsup (if w.opc = 0x64 ∨ w.opc = 0x65 then 0x41 else 0xB)
        match digestKnown w p, k.key with
        | some want, _ => judge want
        | none, some t => judge (digestWanted w p t)
        | none, none => none

/-- SRC names a hash operation. -/
def srcHashed (ops : List OpWord) (w : OpWord) : Bool :=
  decide (1 ≤ w.src ∧ w.src < 8) && (match ops[w.src - 1]? with
    | some h => isHashOp h
    | none => false)

/-- The size checks of operation i, as far as its lengths are known. -/
def sizeCheck (e : Bytes) (kn : Nat → Known) (outs : List (Option Nat)) (i : Nat) : Option Fail :=
  let ops := eOps e
  let refs := eRefs e
  let w := eOp e i
  let p := parBlock w (eParams e)
  let k := knownAt e kn outs i
  let pkb := if takesPkb w then (refs.getD (fpPkb p - 8) {}).len else 0
  (match selLen refs outs w.src, selLen refs outs w.aux with
    | some a, some b => lenCheck w p k a b pkb (srcHashed ops w)
    | _, _ => none)
  |>.or (match outs.getD i none with
    | some n => if 8 ≤ w.dst ∧ (refs.getD (w.dst - 8) {}).len < n then some (stBadInput, 1) else none
    | none => none)
  |>.or (match outs.getD (w.aux - 1) none with
    | some n => if 1 ≤ w.aux ∧ w.aux < 8 ∧ 16384 < n then unsup 0xB else none
    | none => none)
  |>.or (digestMatch ops outs w p k)

/-- The total output written by a HOLD request is at most 16 KiB (R98); the operation that passes the limit otherwise. -/
def holdOver (e : Bytes) (outs : List (Option Nat)) : Option Nat :=
  if !flHold e then none
  else
    (List.range (eNops e)).find? (fun i =>
      decide (16384 < (((List.range (i + 1)).filter (fun j => decide (8 ≤ (eOp e j).dst))).map
        (fun j => (outs.getD j none).getD 0)).sum))

/-- Step 5: operation by operation the tile's lengths, the size of DST, the limit of AUX and the digest, and the HOLD limit last (the order
among them is a DESIGN CHOICE, notes/assumptions/10.md: R106 gives none). -/
def sizesCheck (e : Bytes) (kn : Nat → Known) : Option Outcome :=
  let outs := outLens e kn
  ((List.range (eNops e)).findSome? (fun i =>
      (sizeCheck e kn outs i).map (fun f => ⟨BitVec.ofNat 8 f.1, BitVec.ofNat 8 f.2, i⟩)))
    |>.or ((holdOver e outs).map (fun i => ⟨0x41, 0x0A, i⟩))

/-! ### The whole order of R106 -/

def mkOut (f : Fail) (lastop : Nat) : Outcome := ⟨BitVec.ofNat 8 f.1, BitVec.ofNat 8 f.2, lastop⟩

/-- Steps 1 and 2. -/
def headerCheck (e : Bytes) : Option Fail :=
  if !decide (eNops e ≤ 8 ∧ eNbuf e ≤ 8 ∧ ePlen e ≤ 224 ∧ eSize e ≤ 32 * eNstr e) then unsup 1
  else firstBad [(!(byteAt e 2).testBit 3, 2), (decide (byteAt e 3 < 16), 2), (zAt e 6 2, 2), (decide (eFlags e < 32), 2),
    (decide (eNops e ≠ 0) || zAt e 8 8, 2), (decide (eNbuf e ≠ 0) || zAt e 16 16, 2),
    (decide (eNops e ≠ 0) || decide (eNbuf e = 0 ∧ ePlen e = 0), 2),
    (decide (eNops e = 0) || allZero (slice (eStretch e) (eSize e) (32 * eNstr e - eSize e)), 2)]

/-- An operation permitted to a boot request (R475). -/
def bootPermits (w : OpWord) (p : Bytes) : Bool :=
  !w.kfrom && (decide (w.opc = 0x01) || (decide (0x40 ≤ w.opc ∧ w.opc ≤ 0x4D) && decide (w.opt = 0)) || decide (w.opc = 0x56)
    || (decide (w.opc ∈ [0x61, 0x65, 0x69, 0x6B, 0x75, 0x78, 0x79]) && decide (fpPkb p ≠ 0)))

def noKnown : Nat → Known := fun _ => {}

/-- The checks of R106: the outcome of the first that fails. -/
def entryCheck (e : Bytes) (boot : Bool) : Option Outcome :=
  match headerCheck e with
  | some f => some (mkOut f 0)
  | none =>
    if eNops e = 0 then none
    else
      let ops := eOps e
      let refs := eRefs e
      ((List.range (eNops e)).findSome? (fun i =>
          let w := eOp e i
          ((step3 e i w).or (if boot && !bootPermits w (parBlock w (eParams e)) then unsup 0x90 else none)).map (mkOut · i)))
        |>.or ((List.range refs.length).findSome? (fun b =>
          (refCheck e ops refs b (refs.getD b {})).map (mkOut · (selectorOf e b))))
        |>.or ((List.range refs.length).findSome? (fun b =>
          if roleOk ops refs b then none else some (mkOut (stUnsupported, 9) (selectorOf e b))))
        |>.or (sizesCheck e noKnown)

/-! ### The charge (R357) -/

/-- The length of the key that a reference names when the entry arrives; none where r = 5. -/
def chargeKeyLen (s : State) (n : Nat) (w : OpWord) : Option Nat :=
  if w.kfrom then none
  else if 2 ^ 31 ≤ w.key then
    (match s.cacheEnt (w.key % 4096) with
      | some c => if c.tenant.val = n then some (aLen c.attr) else none
      | none => none)
  else
    let v := s.slot (w.key % 2048)
    if v.hasCur && !v.corrupt then some (aLen v.act.attr) else none

/-- r of R145 from the length of the key: 4 for an AES-128 key, else 5. Of the record helpers' key pairs, DTLS holds two
keys and SRTP a 16-byte AES key with its salt (R151, R154). -/
def roundsOf (opc : Nat) : Option Nat → Nat
  | some 16 => 4
  | some 32 => if opc = 0x36 ∨ opc = 0x37 ∨ opc = 0x13 ∨ opc = 0x14 then 4 else 5
  | some 36 => 4
  | some 20 => 4
  | _ => 5

def chargeOf (s : State) (n : Nat) (e : Bytes) : Nat :=
  if (entryCheck e false).isSome then 0
  else
    let outs := outLens e (fun _ => { resolved := true })
    ((List.range (eNops e)).map (fun i =>
      let w := eOp e i
      if isCipher w.opc then
        let p := parBlock w (eParams e)
        let c : OpCtx := ⟨w, p, (selLen (eRefs e) outs w.src).getD 0, (selLen (eRefs e) outs w.aux).getD 0, none, 0, 0⟩
        cipherCycles c (roundsOf w.opc (chargeKeyLen s n w))
      else 0)).sum

end Sys2Proof.Machine
end

