-- ==== Sys2Proof/Machine/Flags.lean ====
section
/-!
DEFINITION. Events, their pending and cause bits and the interrupt lines (R13, R437 to R439, R497).
-/

namespace Sys2Proof.Machine

/-! ### Event numbers: tenant events by their cause bit (R497), global events by their source (R438, R467) -/

def evCqNotify := 0
def evCqStall := 1
def evCqHeadClamp := 2
def evCqFault := 3
def evSqClamp := 4
def evSqSurplus := 5
def evSqFault := 6
def evSeqSoft := 7
def evAccViol := 8
def evAccVcntSat := 9
def evSchedOver := 10
def evSchedLate := 11
def evSchedPulseLost := 12
def evDcDesc := 13
def evDcRecStall := 14
def evDcStop := 15
def evDcPaceLost := 16
def evDcPostDrop := 17
def evDcPrefFault := 18
def evReqWdog := 19
def evLedgerInvalid := 20
def evFpInvalid := 21
def evBuserr := 22

def gOwnerElected := 0
def gHandoverDone := 1
def gHandoverLapsed := 2
def gDeniedSat := 3
def gRescueFault := 4
def gKsSlotCorrupt := 5
def gKsCommitDone := 6
def gKsCommitFail := 7
def gKsDrained := 8
def gEsFail := 9
def gRbgFail := 10
def gRbgStarved := 11
def gDcPrefFault := 12
def gTimeStep := 13
def gTimeStopped := 14
def gTcmp0 := 15
def gSchedBudgetClamp := 23
def gAccPviol := 24
def gGenDone := 25
def gGenFail := 26
def gGenSlow := 27
def gOscFault := 28
def gClkTrip := 29
def gSupWarn := 30
def gSupClear := 31
def gWake := 32
def gQuarantine := 33
def gTileRejoin := 34
def gGroutFail := 35
def gPairDisagree := 36
def gCsFail := 37
def gUe := 38
def gUeFatal := 39
def gCeSat := 40
def gBuserrPriv := 41
def gTrstDone := 42
def gTrstWait := 43
def gJrnHigh := 44
def gJrnLost := 45
def gNoticeFault := 46

/-- The tenant event source that gathers the event of a cause bit (R437, R497). -/
def sourceOf (e : Nat) : Nat :=
  if e ≤ 1 then e else if e ≤ 3 then 2 else if e ≤ 5 then 3 else if e = 6 then 4 else if e = 7 then 5
  else if e ≤ 9 then 6 else if e ≤ 12 then 7 else if e ≤ 14 then 8 else if e ≤ 18 then 9 else if e = 19 then 10 else 11

/-- A named event of tenant n: its cause bit and its source's pending bit, whether or not the source is enabled
(R437, R439). -/
def raiseT (n e : Nat) (s : State) : State :=
  modTen n (fun t => { t with
    evCause := t.evCause ||| BitVec.ofNat 23 (2 ^ e)
    evPend := t.evPend ||| BitVec.ofNat 12 (2 ^ sourceOf e) }) s

/-- A global event: its pending bit, whether or not it is enabled (R438, R439). -/
def raiseG (e : Nat) (s : State) : State := modEvPend (· ||| BitVec.ofNat 64 (2 ^ e)) s

/-! ### Lines (R439) -/

/-- ah_irq_tn. Low while tenant n is disabled (R41). -/
def State.irqT (s : State) (n : TenantIx) : Bool :=
  s.enabled n && decide ((s.ten n).evPend &&& (s.ten n).evEn ≠ 0)

/-- EV_UE_FATAL, EV_CLK_TRIP and EV_OSC_FAULT, which drive ah_nmi whatever the enables say (R439). -/
def fatalMask : Word := BitVec.ofNat 64 (2 ^ gUeFatal + 2 ^ gClkTrip + 2 ^ gOscFault)

/-- ah_nmi (R439); also asserted by the security island during the engine reset response and a failed start-up
(R404, R471). -/
def State.nmi (s : State) : Bool :=
  s.start.nmi || decide (s.evPend &&& (s.own.evNmi ||| fatalMask) ≠ 0)

/-- ah_irq_own: an enabled pending source whose bit in AH_OWN_EV_NMI is 0 (R439). -/
def State.irqOwn (s : State) : Bool := decide (s.evPend &&& s.own.evEn &&& ~~~ s.own.evNmi ≠ 0)

end Sys2Proof.Machine
end

