-- ==== Sys2Proof/Machine/Access.lean ====
section
/-!
DEFINITION. The access checker: regions, the judgement of an access under a generation's rules, and the capture and count
of violations and bus errors (R367 to R374, R432).
-/

namespace Sys2Proof.Machine

/-- A region as the checker sees it (R367). -/
structure Region where
  base    : Nat
  attr    : Word
  deriving DecidableEq, Repr

def Region.en (r : Region) : Bool := bitOf r.attr 0
def Region.size (r : Region) : Nat := fld r.attr 13 8
/-- BASE with the bits below SIZE ignored (R367). -/
def Region.start (r : Region) : Nat := r.base / 2 ^ r.size * 2 ^ r.size
def Region.holds (r : Region) (a : Nat) : Bool :=
  r.en && decide (r.start ≤ a) && decide (a < r.start + 2 ^ r.size)
/-- The byte's sub-region is excluded by SRD (R367). -/
def Region.excludes (r : Region) (a : Nat) : Bool := bitOf r.attr (16 + (a - r.start) / 2 ^ (r.size - 3))
def Region.world (r : Region) (w : World) : Bool := worldOk (fld r.attr 5 4) w
def Region.covers (r : Region) (w : World) (a : Nat) : Bool := r.holds a && !r.excludes a && r.world w
def Region.grants (r : Region) : Dir → Bool
  | .read => bitOf r.attr 1
  | .write => bitOf r.attr 2
def Region.deny (r : Region) : Bool := bitOf r.attr 49

/-- The candidate regions of an access (R369): of tenant n, or of a privileged access (`none`). DENY, PRIV and TENANTS are
reserved in tenant regions and read zero there. -/
def candidates (s : State) (c : Content) : Option TenantIx → List Region
  | some n =>
    (List.finRange 16).map (fun m => ⟨(s.word c (.accRegAddr n m)).toNat, s.word c (.accRegAttr n m)⟩)
    ++ ((List.finRange 32).map (fun j => Region.mk (s.word c (.accGlbAddr j)).toNat (s.word c (.accGlbAttr j)))).filter
        (fun r => !bitOf r.attr 48 && bitOf r.attr (32 + n.val))
  | none =>
    ((List.finRange 32).map (fun j => Region.mk (s.word c (.accGlbAddr j)).toNat (s.word c (.accGlbAttr j)))).filter
      (fun r => bitOf r.attr 48)

/-- AH_ACC_DEFMAP grants a privileged access in a direction (R369). -/
def defmapGrants (s : State) (c : Content) : Dir → Bool
  | .read => decide (fld (s.word c .accDefmap) 1 0 ≤ 1)
  | .write => decide (fld (s.word c .accDefmap) 1 0 = 0)

/-- The cause for which one byte fails, or none where it passes (R369, R370). -/
def judgeByte (rs : List Region) (priv : Bool) (defm : Dir → Bool) (w : World) (d : Dir) (a : Nat) : Option Nat :=
  if rs.any (fun r => r.deny && r.covers w a) then some 1
  else if rs.any (fun r => !r.deny && r.covers w a && r.grants d) then none
  else if priv && !rs.any (fun r => r.covers w a) then (if defm d then none else some 5)
  else if !rs.any (fun r => r.holds a) then some 2
  else if rs.all (fun r => !r.holds a || r.excludes a) then some 3
  else if !rs.any (fun r => r.covers w a) then some 4
  else some 5

/-- The check of an access to `len` bytes from `addr`: the first failing byte and its cause, or none where the access
passes (R369, R370). `t` is the tenant of an unprivileged access. -/
def check (s : State) (c : Content) (t : Option TenantIx) (w : World) (d : Dir) (addr len : Nat) :
    Option (Nat × Nat) :=
  (List.range len).findSome? (fun i =>
    (judgeByte (candidates s c t) t.isNone (defmapGrants s c) w d (addr + i)).map (fun x => (addr + i, x)))

/-- Some byte of the range lies in a candidate region marked no-prefetch (R371). -/
def noPrefetch (s : State) (c : Content) (t : Option TenantIx) (w : World) (addr len : Nat) : Bool :=
  (List.range len).any (fun i => (candidates s c t).any (fun r => bitOf r.attr 3 && r.covers w (addr + i)))

/-! ### Source kinds of R483 -/

def kindRequest := 0
def kindRing := 1
def kindChannel := 2
def kindRecord := 3
def kindRescue := 4
def kindBoot := 5
def kindImage := 6
def kindNotice := 7

/-- A violation of tenant n: counted, and captured while VALID is 0 (R373, R496). -/
def violT (n : Nat) (addr : Nat) (d : Dir) (cause kind number tag gen : Nat) (s : State) : State :=
  let t := s.ten n
  let s1 := modTen n (fun t => { t with vcnt := t.vcnt.bump }) s
  let s2 := if t.vcnt.saturates then raiseT n evAccVcntSat s1 else s1
  if t.viol.valid then s2
  else raiseT n evAccViol (modTen n (fun t => { t with viol :=
    { valid := true, addr := BitVec.ofNat 48 addr, dir := d, cause := BitVec.ofNat 4 cause, kind := BitVec.ofNat 4 kind,
      number := BitVec.ofNat 6 number, tag := BitVec.ofNat 16 tag, gen := BitVec.ofNat 16 gen } }) s2)

/-- A privileged violation (R374). -/
def violP (addr : Nat) (d : Dir) (cause kind number tag gen : Nat) (s : State) : State :=
  let s1 := modPvcnt Cnt32.bump s
  let s2 := if s.pvcnt.saturates then raiseG gAccPviol s1 else s1
  if s.pviol.valid then s2
  else raiseG gAccPviol (modPviol (fun _ =>
    { valid := true, addr := BitVec.ofNat 48 addr, dir := d, cause := BitVec.ofNat 4 cause, kind := BitVec.ofNat 4 kind,
      number := BitVec.ofNat 6 number, tag := BitVec.ofNat 16 tag, gen := BitVec.ofNat 16 gen }) s2)

/-- A violation of a tenant's or of a privileged access. -/
def viol (t : Option TenantIx) (addr : Nat) (d : Dir) (cause kind number tag gen : Nat) (s : State) : State :=
  match t with
  | some n => violT n addr d cause kind number tag gen s
  | none => violP addr d cause kind number tag gen s

end Sys2Proof.Machine
end

