-- ==== Sys2Proof/Machine/Journal.lean ====
section
/-!
DEFINITION. The event journal: storing a record under the full-journal mode, notices, reading, flushing (R440 to R445), and
the commands JOURNAL_READ, JOURNAL_READ_TIMEOUT, JOURNAL_FLUSH, JOURNAL_LOST_STORE, NOTICE_HEAD_WRITE and
NOTICE_RING_SETUP's effects.
-/

namespace Sys2Proof.Machine

/-- AH_STAT_JRN.LEVEL: the words stored (R442). -/
def Journal.level (j : Journal) : Nat := j.reading.length + (j.recs.map List.length).sum

def jrnWords : Nat := 4096

/-- AH_OWN_JRN_CFG. -/
def State.jrnOverwrite (s : State) : Bool := bitOf s.own.jrnCfg 0
def State.jrnHigh (s : State) : Nat := fld s.own.jrnCfg 27 16

/-- The words of a record (R440): header, time word, payload. -/
def jrnRecord (seq : BitVec 16) (origin type : Nat) (ns : Word) (payload : List Nat) : List (BitVec 32) :=
  BitVec.ofNat 32 (seq.toNat + origin * 2 ^ 16 + type * 2 ^ 21 + (payload.length + 1) * 2 ^ 28)
    :: BitVec.ofNat 32 ns.toNat :: payload.map (BitVec.ofNat 32)

/-- One count of AH_STAT_JRN.LOST, with EV_JRN_LOST (R442). -/
def jrnLose (s : State) : State :=
  raiseG gJrnLost (modJrn (fun j => { j with
    lost := if j.lost = 0xFFFFFFFF then j.lost else j.lost + 1
    sat := if j.lost = 0xFFFFFFFE ∨ j.lost = 0xFFFFFFFF then j.sat ||| 1 else j.sat }) s)

/-- One count of AH_STAT_JRN.NLOST (R445). -/
def jrnNlose (s : State) : State :=
  modJrn (fun j => { j with
    nlost := if j.nlost = 0xFFFFFFFF then j.nlost else j.nlost + 1
    sat := if j.nlost = 0xFFFFFFFE ∨ j.nlost = 0xFFFFFFFF then j.sat ||| 2 else j.sat }) s

/-- A record enters the FIFO: EV_JRN_HIGH when LEVEL rises past HIGH (R442). -/
def jrnPush (rec : List (BitVec 32)) (s : State) : State :=
  let s' := modJrn (fun j => { j with recs := j.recs ++ [rec] }) s
  if s.jrn.level ≤ s.jrnHigh ∧ s.jrnHigh < s'.jrn.level then raiseG gJrnHigh s' else s'

/-- Discard the oldest whole unread records until `need` words are free (R442, OVERWRITE); at most one pass over the
records stored. -/
def jrnMakeRoom (need : Nat) : Nat → State → State
  | 0, s => s
  | fuel + 1, s =>
    if s.jrn.level + need ≤ jrnWords ∨ s.jrn.recs = [] then s
    else jrnMakeRoom need fuel (jrnLose (modJrn (fun j => { j with recs := j.recs.tail }) s))

/-! ### Notices (R445) -/

def State.noticeEn (s : State) : Bool := bitOf s.own.notice 0
def State.noticeK (s : State) : Nat := fld s.own.ncfg 3 0

/-- The notice of a record (R445). -/
def noticeBytes (k tail : Nat) (ns : Word) (rec : List (BitVec 32)) : Bytes :=
  toLE 4 ((rec[0]?.getD 0).toNat) ++ toLE 4 (1 - tail / 2 ^ k % 2) ++ toLE 8 ns.toNat
    ++ fit 16 (((rec.drop 2).take 4).flatMap (fun w => toLE 4 w.toNat))

/-- A notice write failed its check or ended in a bus error: EN clears, EV_NOTICE_FAULT (R445). -/
def noticeFault (s : State) : State :=
  raiseG gNoticeFault (modNotice (· &&& ~~~ 1) s)

/-- Send the notice of a stored record (R445): dropped and counted when the ring is full; written in two writes, checked
as privileged secure accesses under the active generation. -/
def notice (rec : List (BitVec 32)) (s : State) : State :=
  let type := fld ((rec[0]?.getD 0).setWidth 64) 27 21
  let k := s.noticeK
  if !s.noticeEn || !bitOf s.own.notice (8 + type / 16) || decide (8 ≤ type / 16) then s
  else if occ k s.jrn.nhead s.jrn.ntail = 2 ^ k then jrnNlose s
  else
    let a := s.own.nbase.toNat + s.jrn.ntail % 2 ^ k * 32
    match check s s.gen.act none .secure .write a 32 with
    | some (fa, cause) => noticeFault (violP fa .write cause kindNotice 0 0 s.gen.active.toNat s)
    | none =>
      let b := noticeBytes k s.jrn.ntail s.time.ns rec
      modJrn (fun j => { j with ntail := (j.ntail + 1) % 2 ^ (k + 1) })
        (emitRecord a b s)

/-- The value a read of the port returns: the next word, or the next two with the earlier in the low half (R443). -/
def jrnTake (size : AccSize) (words : List (BitVec 32)) : Word × List (BitVec 32) :=
  match size, words with
  | .b64, a :: b :: t => (BitVec.ofNat 64 (a.toNat + 2 ^ 32 * b.toNat), t)
  | .b64, [a] => (BitVec.ofNat 64 a.toNat, [])
  | _, a :: t => (BitVec.ofNat 64 a.toNat, t)
  | _, [] => (0, [])

/-- The reading of the oldest record begins. A record with an uncorrectable word is delivered as a CORRUPT record, and its reads
remove the original's full length (R443). -/
def jrnOpen (bad : Bool) (s : State) : State :=
  match s.jrn.reading, s.jrn.recs with
  | [], r :: t =>
    let r' := if bad then
        jrnRecord (BitVec.ofNat 16 ((r[0]?.getD 0).toNat)) 0x10 0x04 (BitVec.ofNat 64 ((r[1]?.getD 0).toNat)) [r.length]
      else r
    modJrn (fun j => { j with reading := r', recs := t }) s
  | _, _ => s

/-- A read begins a record: where none is being read, and where one of 64 bits goes on behind the last word of one. -/
def jrnOpens (size : AccSize) (j : Journal) : Bool :=
  decide (j.reading = []) || (decide (j.reading.length = 1) && decide (j.recs ≠ []) && decide (size = .b64))

/-- One read of stored words. A 64-bit read continues with the next record where the record read ends
(R443). -/
def jrnDeliver (who : Who) (size : AccSize) (bad : Bool) (s : State) : State :=
  let s1 := jrnOpen bad s
  match s1.jrn.reading with
  | [a] =>
    let s2 := modJrn (fun j => { j with reading := [] }) s1
    match size with
    | .b64 =>
      let s3 := jrnOpen bad s2
      match s3.jrn.reading with
      | b :: t => emit (.cfgRd who (BitVec.ofNat 64 (a.toNat + 2 ^ 32 * b.toNat))) (modJrn (fun j => { j with reading := t }) s3)
      | [] => emit (.cfgRd who (BitVec.ofNat 64 a.toNat)) s3
    | _ => emit (.cfgRd who (BitVec.ofNat 64 a.toNat)) s2
  | ws =>
    let p := jrnTake size ws
    emit (.cfgRd who p.1) (modJrn (fun j => { j with reading := p.2 }) s1)

/-- Serve the reads that wait for a record, in the order in which they stalled (R443). A record is delivered to them in the cycle in which it
is stored, and as it is stored (DESIGN CHOICE, notes/assumptions/8.md). -/
def jrnServe : List (Who × AccSize) → State → State
  | [], s => s
  | (w, z) :: t, s =>
    if s.jrn.level = 0 then s
    else jrnServe t (jrnDeliver w z false (modJrn (fun j => { j with stalled := j.stalled.tail }) s))

/-- A record is stored: its notice is sent, and the reads that wait for a record are served. -/
def jrnStore (rec : List (BitVec 32)) (s : State) : State :=
  let s' := notice rec (jrnPush rec s)
  jrnServe s'.jrn.stalled s'

/-- Create a journal record (R440 to R442, R445): SEQ rises for every record created, stored or not. In STOP mode it is
stored only while no LOST record is pending and 3 words stay free after it, and is otherwise dropped and counted; in
OVERWRITE mode the oldest unread records make room. -/
def journal (type origin : Nat) (payload : List Nat) (s : State) : State :=
  let rec' := jrnRecord s.jrn.seq origin type s.time.ns payload
  let s1 := modJrn (fun j => { j with seq := j.seq + 1 }) s
  if s.jrnOverwrite then
    let s2 := jrnMakeRoom rec'.length s1.jrn.recs.length s1
    if s2.jrn.level + rec'.length ≤ jrnWords then jrnStore rec' s2 else jrnLose s2
  else if s1.jrn.lostDue = 0 ∧ s1.jrn.level + rec'.length + 3 ≤ jrnWords then jrnStore rec' s1
  else jrnLose (modJrn (fun j => { j with lostDue := j.lostDue + 1 }) s1)

/-- A TIME_MARK record (R441). -/
def timeMark (s : State) : State := journal 0x01 0x10 [s.time.ns.toNat / 2 ^ 32] s

/-- The code of a world in a journal payload (R441). -/
def worldBit : World → Nat
  | .secure => 0
  | .nonsecure => 1

def dirBit : Dir → Nat
  | .read => 0
  | .write => 1

/-- A corrected error of a memory of class c: AH_STAT_CE (R431). -/
def countCe (c : Nat) (s : State) : State :=
  let v := s.ces.look {} c
  let s' := modCe c Cnt32.bump s
  if v.saturates then raiseG gCeSat s' else s'

/-- An uncorrectable error in memory class c, in the part `loc` of it (R431): the UE record. -/
def journalUe (c loc : Nat) (s : State) : State :=
  journal 0x20 (if 8 ≤ c ∧ c ≤ 10 then 0x11 else 0x10) [c, (Config.ueWord c loc s.jrn.seq).toNat] s

/-- An uncorrectable error in the ledger, reservoir or context memory (R22, R131, R431): the record, ah_nmi, and the ledger of the tenant
that it struck, if it struck one's, marked invalid. -/
def ledgerUe (c : Nat) (t : Option Nat) (s : State) : State :=
  let s1 := raiseG gUeFatal (journalUe c (t.getD 0) s)
  match t with
  | some n => raiseT n evLedgerInvalid (modTen n (fun t => { t with ledInvalid := true }) s1)
  | none => s1

/-- The check of a word of those memories as it is read. -/
def memCheck (c : Nat) (t : Option Nat) (ecc : Ecc) (s : State) : State :=
  match ecc with
  | .clean => s
  | .corrected => countCe c s
  | .uncorrectable => ledgerUe c t s

/-! ### Commands -/

/-- JOURNAL_READ (R443, R506): rights of class JR (R376, R377, R494); an access of 8 or 16 bits returns zero and removes
nothing; an empty journal stalls the read. -/
def fxJournalRead (who : Who) (size : AccSize) (ecc : Ecc) (s : State) : State :=
  let locked := s.start.serving && who.dbg && !s.dbgEn
  let s1 := if locked then
      journal 0x13 0x13 [0x300000, who.mid.toNat + 2 ^ 8 * worldBit who.world + 2 ^ 11 * b2n (s.unlock 2)] s
    else s
  let may := s.start.serving && (s.isOwner who || (who.dbg && (!locked || s.unlock 2)))
  match size with
  | .b8 | .b16 => emit (.cfgRd who 0) s1
  | _ =>
    if !may then emit (.cfgRd who 0) s1
    else if s1.jrn.level = 0 then modJrn (fun j => { j with stalled := j.stalled ++ [(who, size)] }) s1
    else
      let bad := decide (ecc = .uncorrectable) && jrnOpens size s1.jrn
      let s2 := if ecc = .corrected then countCe 12 s1 else s1
      let s3 := jrnDeliver who size bad s2
      if bad then raiseG gUe (journalUe 12 0 s3) else s3

def execJournalRead (who : Who) (size : AccSize) (ecc : Ecc) (s : State) : Host.Outcome State Fault Refusal :=
  .next (fxJournalRead who size ecc s)

/-- JOURNAL_READ_TIMEOUT (R443): the oldest stalled read reaches STALL and returns zero. -/
def fxJournalReadTimeout (s : State) : State :=
  match s.jrn.stalled with
  | [] => s
  | (w, _) :: t => emit (.cfgRd w 0) (modJrn (fun j => { j with stalled := t }) s)

def execJournalReadTimeout (s : State) : Host.Outcome State Fault Refusal := .next (fxJournalReadTimeout s)

/-- A record of the flush is stored in the words that the flush has freed, though a LOST record is pending (R444, R487). -/
def jrnNow (type : Nat) (payload : List Nat) (s : State) : State :=
  let rec' := jrnRecord s.jrn.seq 0x10 type s.time.ns payload
  let s1 := modJrn (fun j => { j with seq := j.seq + 1 }) s
  if s1.jrn.level + rec'.length ≤ jrnWords then jrnStore rec' s1 else jrnLose s1

/-- The flush of R444: every stored record goes except one whose reading has begun; a FLUSHED and a TIME_MARK record
follow. -/
def jrnFlush (s : State) : State :=
  jrnNow 0x01 [s.time.ns.toNat / 2 ^ 32] (jrnNow 0x03 [s.jrn.recs.length] (modJrn (fun j => { j with recs := [] }) s))

/-- JOURNAL_LOST_STORE (R442): a pending LOST record, 3 words long, is stored once 6 words are free. -/
def fxJournalLostStore (s : State) : State :=
  whenS (decide (0 < s.jrn.lostDue) && decide (s.jrn.level + 6 ≤ jrnWords))
    (fun s => journal 0x02 0x10 [s.jrn.lostDue] (modJrn (fun j => { j with lostDue := 0 }) s)) s

def execJournalLostStore (s : State) : Host.Outcome State Fault Refusal := .next (fxJournalLostStore s)

end Sys2Proof.Machine
end

