-- ==== Sys2Proof/Machine/Link.lean ====
section
/-!
DEFINITION. The course as other units see it: roles, course slots, sequence blocks and the frames that leave on the lanes (R448,
R449, R453 to R459).
-/

namespace Sys2Proof.Machine

def roStandalone := 0
def roMaster := 1
def roMember := 2
def roElect := 3

def gCrsFormed := 48
def gCrsPeer := 49
def gCrsSilent := 50
def gCrsTakeover := 51
def gCrsLane := 52
def gCrsSeqWait := 53
def gCrsState := 54
def gCrsFrameBad := 55

/-! ### Course fields (R448) -/

def crsWord (s : State) (i : Fin 2) : Word := s.eff (.ownCourse i)
def crsPos (s : State) : Nat := fld (crsWord s 0) 3 2
def crsMembers (s : State) : Nat := fld (crsWord s 0) 7 4
/-- ROLE as it is taken: STANDALONE where this engine's own MEMBERS bit is clear (R448). -/
def crsRoleSet (s : State) : Nat :=
  if (crsMembers s).testBit (crsPos s) then fld (crsWord s 0) 1 0 else roStandalone
def crsTen (s : State) : Nat := fld (crsWord s 0) 11 8
def crsBlockLen (s : State) : Nat := 2 ^ fld (crsWord s 0) 52 48
def crsCredits (s : State) : Nat := fld (crsWord s 0) 62 56
/-- Block stepping, as AH_STAT_ID shows it (R451, R490). -/
def blockStep : Nat := 0xB0
/-- WEIGHT of forwarded work among the BULK rings. -/
def crsWeight (s : State) : Nat := fld (crsWord s 1) 6 0
/-- The forwarded requests to or from a position whose credit has not come back (R463). -/
def Peer.credits (q : Peer) : Nat := q.owed.length

/-- Slot `i` is a course slot under some content (R455); a STANDALONE engine has none (R448). -/
def courseSlotIn (s : State) (c : Content) (i : Nat) : Bool :=
  let w := s.word c (.ownCourse 0)
  (fld w 7 4).testBit (fld w 3 2) && decide (fld w 1 0 ≠ roStandalone) && decide (fld w 26 16 ≤ i)
    && decide (i < fld w 26 16 + fld w 40 32)

/-- Slot `i` is a course slot now: under the active generation. -/
def courseSlot (s : State) (i : Nat) : Bool := courseSlotIn s s.gen.act i

/-- The role in effect, as AH_STAT_COURSE shows it. -/
def crsRole (s : State) : Nat := s.crs.role.toNat
def crsIsMaster (s : State) : Bool := decide (crsRole s = roMaster)

/-- The other positions of the course. -/
def crsOthers (s : State) : List Nat := (List.range 4).filter (fun p => (crsMembers s).testBit p && decide (p ≠ crsPos s))

/-! ### Frames (R449, R453, R454) -/

def ftHello := 0x01
def ftAgree := 0x02
def ftGroup := 0x03
def ftBeat := 0x04
def ftFwdReq := 0x10
def ftFwdData := 0x11
def ftFwdResult := 0x12
def ftFwdCancel := 0x13
def ftCredit := 0x14
def ftBlockReq := 0x20
def ftBlockGrant := 0x21
def ftCtrSync := 0x22
def ftCtrAck := 0x23
def ftSlotBank := 0x24
def ftTakeover := 0x30
def ftLeave := 0x31

/-- Hops from this engine to position `d` in ascending cyclic order of MEMBERS. -/
def hopsUp (s : State) (d : Nat) : Nat :=
  ((List.range 3).filter (fun i =>
    (crsMembers s).testBit ((crsPos s + 1 + i) % 4) && decide (i ≤ (d + 3 - crsPos s) % 4))).length

/-- The members of the course in number. -/
def crsSize (s : State) : Nat := ((List.range 4).filter (fun p => (crsMembers s).testBit p)).length

/-- The lane that reaches position `d` in fewer hops, lane 0 on a tie; the other while that one is down (R449). -/
def laneTo (s : State) (d : Nat) : Nat :=
  let best := if hopsUp s d ≤ crsSize s - hopsUp s d then 0 else 1
  if s.crs.laneUp.toNat.testBit best then best else 1 - best

/-- The frame key K_F of a sender (R453): X = "AH-CRS-F" ‖ EPOCH ‖ s, S = "AH-CRS". -/
def frameKey (gkey : Bytes) (epoch sender : Nat) : Bytes :=
  kmac256 32 gkey (ascii [0x41, 0x48, 0x2D, 0x43, 0x52, 0x53, 0x2D, 0x46] ++ toBE 4 epoch ++ toBE 1 sender)
    (ascii [0x41, 0x48, 0x2D, 0x43, 0x52, 0x53])

/-- The wrap key K_W (R453): X = "AH-CRS-W" ‖ EPOCH. -/
def wrapKey (gkey : Bytes) (epoch : Nat) : Bytes :=
  kmac256 32 gkey (ascii [0x41, 0x48, 0x2D, 0x43, 0x52, 0x53, 0x2D, 0x57] ++ toBE 4 epoch)
    (ascii [0x41, 0x48, 0x2D, 0x43, 0x52, 0x53])

/-- Text and tag of an AEAD: OPC 0x19 (AES-GCM) or 0x1D (AES-GCM-SIV), key, nonce, associated data, text. -/
def aeadSeal (opc : Nat) (key nonce aad text : Bytes) : Bytes :=
  bytesOf (text.length + 16) (Config.cipherByte (opc, 0) key nonce aad.length (aad ++ text))
def aeadOpens (opc : Nat) (key nonce aad ct : Bytes) : Bool := Config.cipherOk (opc + 1, 0) key nonce aad.length (aad ++ ct) []
def aeadText (opc : Nat) (key nonce aad ct : Bytes) : Bytes :=
  bytesOf (ct.length - 16) (Config.cipherByte (opc + 1, 0) key nonce aad.length (aad ++ ct))

/-- The 16-byte header of a frame (R454). -/
def frameHeader (dst src lane type len epoch cnt : Nat) : Bytes :=
  toLE 1 (dst % 4 + 4 * (src % 4) + 16 * lane) ++ toLE 1 type ++ toLE 2 len ++ toLE 4 epoch ++ toLE 8 cnt

/-- The nonce of a sealed frame: SRC ‖ LANE ‖ 2 zero bytes ‖ CNT (R454). -/
def frameNonce (src lane cnt : Nat) : Bytes := toLE 1 src ++ toLE 1 lane ++ [0, 0] ++ toLE 8 cnt

/-- The frame types that travel without a frame key: HELLO and AGREE (R454), and GROUP, whose content K_P alone seals (notes/assumptions/17.md). -/
def clearType (type : Nat) : Bool := decide (type = ftHello ∨ type = ftAgree ∨ type = ftGroup)

/-- A frame of at most 1024 payload bytes leaves on its lane (R454); CNT counts the sender's frames on the lane from 1 in each epoch. -/
def sendFrame (type dst : Nat) (payload : Bytes) (s : State) : State :=
  let lane := laneTo s dst
  let q := s.peer dst
  let epoch := if clearType type then s.crs.forming else q.epoch
  let cnt := s.crs.sendCnt.look 0 (2 * epoch + lane) + 1
  let h := frameHeader dst (crsPos s) lane type payload.length epoch cnt
  let body := if clearType type then payload ++ zeros 16
    else aeadSeal 0x19 (frameKey q.gkey epoch (crsPos s)) (frameNonce (crsPos s) lane cnt) h payload
  emit (.frame lane (h ++ body)) (modCrs (fun c => { c with sendCnt := c.sendCnt.put 0 (2 * epoch + lane) cnt }) s)

/-- A longer content in fragments of 1024 bytes (R454), of which the last is shorter (notes/assumptions/17.md). -/
def sendLong (type dst : Nat) (payload : Bytes) (s : State) : State :=
  (List.range (payload.length / 1024 + 1)).foldl (fun s i => sendFrame type dst (slice payload (1024 * i) 1024) s) s

/-- The other positions whose pairing has formed. -/
def formedPeers (s : State) : List Nat :=
  (List.range 4).filter (fun p => decide (p ≠ crsPos s) && (s.peer p).formed && !(s.peer p).silent)

/-- A frame to every formed member. -/
def sendAll (type : Nat) (payload : Bytes) (s : State) : State := eachN (formedPeers s) (fun p s => sendFrame type p payload s) s

/-! ### Sequence blocks (R456 to R458) -/

/-- The key of a bank in the block table: slot and bank. -/
def bankIx (i : Nat) (b : Bool) : Nat := 2 * i + b2n b

/-- The blocks that this engine holds for a bank, each from its next value to its end, and the values left in them. -/
def blocksOf (s : State) (k : Nat) : List (Nat × Nat) := s.crs.blocks.look [] k
def blockLeft (s : State) (k : Nat) : Nat := ((blocksOf s k).map (fun b => b.2 - b.1)).sum

/-- The course counter of a bank: NEXT of the master's bank (R456). -/
def bankNext (s : State) (k : Nat) : Nat :=
  let v := s.slot (k / 2)
  (if k % 2 = 1 then v.bankB else v.bankA).next.toNat

/-- NEXT after the grant of one block, at most the limit above which no operation takes a value. -/
def blockEnd (s : State) (k : Nat) : Nat := min (bankNext s k + crsBlockLen s) (2 ^ 64 - 1)

/-- The bank is the active bank of a course slot. -/
def courseBank (s : State) (k : Nat) : Bool :=
  courseSlot s (k / 2) && (s.slot (k / 2)).hasCur && decide (k % 2 = b2n (s.slot (k / 2)).cur)

/-- A block arrives at the engine that holds it (R456). -/
def storeBlock (k lo hi : Nat) (s : State) : State :=
  modCrs (fun c => { c with blocks := c.blocks.put [] k (blocksOf s k ++ [(lo, hi)]), asked := c.asked.filter (· ≠ k) }) s

/-- A CRS_ record (R467). -/
def crsRecord (type : Nat) (payload : List Nat) (s : State) : State := journal type 0x12 payload s

/-- The master grants a block of a bank to a position (R456): NEXT rises; EV_SEQ_SOFT where the grant crosses SOFT, on the line of tenant TEN
of the course (DESIGN CHOICE, notes/assumptions/16.md: R148 names the requesting tenant, which a grant to a member does not have). -/
def grantBlock (dest k : Nat) (s : State) : State :=
  let lo := bankNext s k
  let hi := blockEnd s k
  let v := s.slot (k / 2)
  let b := if k % 2 = 1 then v.bankB else v.bankA
  let soft := decide (b.soft.toNat < hi) && !b.softHit
  let upd (b : Bank) : Bank := { b.setNext (BitVec.ofNat 64 hi) with softHit := b.softHit || soft }
  let s1 := modSlot (k / 2) (fun v => if k % 2 = 1 then { v with bankB := upd v.bankB } else { v with bankA := upd v.bankA }) s
  let s2 := if soft then journal 0x21 0x11 [k / 2 + 2048 * (k % 2) + 4096 * 2] (raiseT (crsTen s) evSeqSoft s1) else s1
  let s3 := crsRecord 0x45 [k / 2 + 2048 * (k % 2), lo % 2 ^ 32, lo / 2 ^ 32] s2
  if dest = crsPos s then storeBlock k lo hi s3
  else sendFrame ftBlockGrant dest (toLE 2 (k / 2) ++ toLE 1 (k % 2) ++ toLE 8 lo ++ toLE 8 hi) s3

/-- The elects that mirror the course counters. -/
def electPeers (s : State) : List Nat := (formedPeers s).filter (fun p => decide ((s.peer p).role = roElect))

/-- A position that is not, or no longer, in the course: the master grants it no block (R464). -/
def goneFrom (s : State) (p : Nat) : Bool := decide (p ≠ crsPos s) && (!(s.peer p).formed || (s.peer p).silent)

/-- A grant begins with its mirror (R459): CTR_SYNC to every elect, or the grant at once where there is none. Grants of one bank follow
one another. -/
def beginGrant (dest k : Nat) (s : State) : State :=
  if !courseBank s k || decide (blockEnd s k = bankNext s k) || goneFrom s dest then s
  else if s.crs.grants.any (fun g => decide (g.2.1 = k)) then modCrs (fun c => { c with grants := c.grants ++ [(dest, k, [])] }) s
  else if electPeers s = [] then grantBlock dest k s
  else
    eachN (electPeers s) (fun p s => sendFrame ftCtrSync p (toLE 2 (k / 2) ++ toLE 1 (k % 2) ++ toLE 8 (blockEnd s k)) s)
      (modCrs (fun c => { c with grants := c.grants ++ [(dest, k, electPeers s)] }) s)

/-- Ask for a block once: BLOCK_REQ to the master names slot and bank; the master asks itself (R456, R459). -/
def askBlock (k : Nat) (s : State) : State :=
  if k ∈ s.crs.asked then s
  else
    let s1 := modCrs (fun c => { c with asked := c.asked ++ [k] }) s
    if crsIsMaster s then beginGrant (crsPos s) k s1
    else if crsRole s = roStandalone || !(s.peer s.crs.master.toNat).formed || (s.peer s.crs.master.toNat).silent then s1
    else sendFrame ftBlockReq s.crs.master.toNat (toLE 2 (k / 2) ++ toLE 1 (k % 2)) s1

/-- The course slots that the allocating operations of an entry name by reference, one item for each operation. -/
def courseNeeds (s : State) (e : Bytes) : List Nat :=
  if (entryCheck e false).isSome then []
  else
    ((eOps e).filter (fun w => isCipher w.opc && allocates w (parBlock w (eParams e)) && !w.kfrom && decide (w.key < 2 ^ 31)
      && courseSlot s (w.key % 2048) && (s.slot (w.key % 2048)).hasCur)).map (fun w => w.key % 2048)

/-- The banks whose block lacks values for an entry (R458). -/
def blocksShort (s : State) (e : Bytes) : List Nat :=
  let need := courseNeeds s e
  ((need.map (fun i => bankIx i (s.slot i).cur)).eraseDups).filter (fun k =>
    decide (blockLeft s k < (need.filter (fun i => i = k / 2)).length))

/-- A request waits for a block (R458): EV_CRS_SEQ_WAIT once, with the request for the block. -/
def waitBlocks (ks : List Nat) (s : State) : State :=
  ks.foldl (fun s k => if k ∈ s.crs.asked then s else raiseG gCrsSeqWait (askBlock k s)) s

end Sys2Proof.Machine
end

