-- ==== Sys2Proof/Machine/Port.lean ====
section
/-!
DEFINITION. The register target port's judgement of a write: the rights of each page (R37, R482, R494), the dropping and
recording of a write (R38, R376), and the state in which a tenant's page takes writes (R41, R434).
-/

namespace Sys2Proof.Machine

/-- The rights classes of R482 and R494, with the tenant or channel of the page. -/
inductive PageCls where
  | oc
  | ox
  | st
  | ks
  | acc
  | ts (n : TenantIx)
  | td (n : TenantIx)
  | dc (k : ChanIx)
  | jr
  deriving DecidableEq, Repr

def Reg.cls : Reg → PageCls
  | .ownClaim | .ownAccept | .ownCtl => .ox
  | .statId | .statStrap | .statReset | .statStart | .statOwner | .statDenied | .statGen | .statGate | .statSched
  | .statClkmon | .statFp | .statEvPend | .statSupply _ | .statJrn _ | .statCourse _ | .statBuserr _ | .statTime _
  | .statTimeFrac | .statTimeTsu _ | .statTimeCapt _ | .statTrig _ | .statTcmpLost _ | .statTile _ | .statCs
  | .statGrout _ | .statCe _ | .statBoot _ => .st
  | .ksLcs | .ksSel | .ksCmd | .ksStat _ | .ksWdata _ | .ksWattr _ | .ksWnext | .ksWsoft | .ksWkcv | .ksWkcvEn
  | .ksRdata _ | .ksRattr _ | .ksRnext | .ksRsoft | .ksMeasSel | .ksMeasLock | .ksMeasData _ | .ksMeasCnt _
  | .ksMeasVal _ | .ksKilnEn | .ksAttEn | .ksKcp _ | .ksIdStat | .ksIdSel | .esCtl | .esStat _ | .esRaw | .rbgCtl
  | .rbgStat | .ksIdData _ => .ks
  | .accRegAddr _ _ | .accRegAttr _ _ | .accGlbAddr _ | .accGlbAttr _ | .accDefmap | .accPviol _ | .accPvcnt => .acc
  | .dcCtl k | .dcStat k | .dcCfg k | .dcDbase k | .dcDcount k | .dcFirst k | .dcPost k | .dcPos k _ | .dcLost k
  | .dcFault k _ | .dcRecBase k | .dcRecCfg k | .dcRecHead k | .dcTregA k _ | .dcTregC k _ | .dcGfault k => .dc k
  | .tnCtl n | .tnStat n | .tnRsvStat n | .tnEvCause n | .tnEvPend n | .tnEvEn n | .tnLedger n _ | .tnLedgerCtl n
  | .tnLedgerStat n | .tnSnap n _ | .tnFpCnt n _ | .tnFpCtl n | .tnFpStat n | .tnFpSnap n _ | .tnViol n _
  | .tnVcnt n | .tnBuserr n _ | .tnBecnt n => .ts n
  | .sqBase n _ | .sqCfg n _ | .sqCtl n _ | .sqStat n _ | .sqPend n _ | .sqFault n _ | .sqSched n _ | .sqSstat n _
  | .sqPlost n _ | .sqLate n _ => .ts n
  | .cqBase n _ | .cqCfg n _ | .cqCtl n _ | .cqStat n _ | .cqFault n _ => .ts n
  | .dbSq n _ | .dbCq n _ => .td n
  | .jrnPort => .jr
  | _ => .oc

/-- The tenant of a channel's assignment, while its EN is 1 (R301, R489). -/
def assignTen (s : State) (c : Content) (k : ChanIx) : Option TenantIx :=
  if bitOf (s.word c (.ownAssign k)) 0 then some (Fin.ofNat 16 (fld (s.word c (.ownAssign k)) 11 8)) else none

/-- A debug access has the rights of R37 (R376). -/
def debugOpen (s : State) : Bool := s.dbgEn

/-- The role of the access permits writes to a page class (R37, R482, R494). A claim and an accept are judged by their own
rules (R29, R34). -/
def mayWrite (s : State) (who : Who) : PageCls → Bool
  | .oc => s.isOwner who
  | .ox => s.isOwner who
  | .st => s.isOwner who
  | .ks => s.isOwner who || (who.dbg && debugOpen s)
  | .acc => s.isOwner who
  | .ts n => s.isOwner who || (s.enabled n.val && s.boundSetup who n)
  | .td n => (s.enabled n.val || s.isOwner who) && s.boundDoorbell who n
  | .dc k => s.isOwner who || (match assignTen s s.gen.act k with
      | some n => s.boundSetup who n
      | none => false)
  | .jr => false

/-- The role permits reads of a page class (R37, R39, R376, R377, R482, R494). -/
def mayRead (s : State) (who : Who) : PageCls → Bool
  | .oc =>
    if who.dbg then (s.dbgEn && !bitOf s.own.ctl 0) || (!s.dbgEn && s.unlock 0)
    else s.isOwner who || !bitOf s.own.ctl 0
  | .ox => true
  | .st => true
  | .ks => s.isOwner who || (who.dbg && debugOpen s)
  | .acc => s.isOwner who || (who.dbg && !s.dbgEn && s.unlock 1)
  | .ts n => s.isOwner who || (s.enabled n.val && s.boundSetup who n)
  | .td n => (s.enabled n.val || s.isOwner who) && s.boundDoorbell who n
  | .dc k => s.isOwner who || (match assignTen s s.gen.act k with
      | some n => s.boundSetup who n
      | none => false)
  | .jr => s.isOwner who || (who.dbg && (s.dbgEn || s.unlock 2))

/-- The tenant in whose set-up or doorbell page an offset lies (R441, DENIED_WRITE's ORIGIN). -/
def originOf (off : Nat) : Nat :=
  if 0x100000 ≤ off ∧ off < 0x200000 then (off - 0x100000) / 0x10000
  else if 0x200000 ≤ off ∧ off < 0x210000 then (off - 0x200000) / 0x1000
  else 0x10

/-- One count of AH_STAT_DENIED (R38). -/
def countDenied (s : State) : State :=
  let s' := modDenied Cnt32.bump s
  if s.denied.saturates then raiseG gDeniedSat s' else s'

/-- The DEBUG_ACCESS record (R376, R377). -/
def debugRecord (who : Who) (off : Nat) (d : Dir) (opened : Bool) (s : State) : State :=
  journal 0x13 0x13 [off, who.mid.toNat + 2 ^ 8 * worldBit who.world + 2 ^ 10 * dirBit d + 2 ^ 11 * b2n opened] s

/-- A dropped write: one record and one count (R38). -/
def dropWrite (who : Who) (off value : Nat) (s : State) : State :=
  countDenied
    (if who.dbg then debugRecord who off .write false s
     else journal 0x10 (originOf off) [off, who.mid.toNat + 2 ^ 8 * worldBit who.world, value] s)

/-- A write dropped for its size or alignment (R14, R38). -/
def dropSubword (who : Who) (size : AccSize) (off : Nat) (s : State) : State :=
  countDenied
    (if who.dbg then debugRecord who off .write false s
     else
       let code := match size with
         | .b8 => 0
         | .b16 => 1
         | .b32 => 2
         | .b64 => 3
       journal 0x11 (originOf off) [off, who.mid.toNat + 2 ^ 8 * worldBit who.world + 2 ^ 10 * code] s)

/-- A tenant in reset takes a write to its set-up page (R434, R494): AH_Tn_CTL and AH_Tn_EV_EN from the owner, and a 1 to
AH_Tn_CQm_STAT.FAULT. -/
def resetTakes (s : State) (who : Who) (r : Reg) (val : Word) : Bool :=
  match r.cls with
  | .ts n =>
    !(s.ten n.val).inReset || (match r with
      | .tnCtl _ | .tnEvEn _ => s.isOwner who
      | .cqStat _ _ => bitOf val 26
      | _ => false)
  | _ => true

/-- The data channel page while its unit is gated: reads zero and ignores writes without a record (R395, R38). -/
def pageGated (s : State) (r : Reg) : Bool :=
  match r.cls with
  | .dc _ => s.clk.gated.toNat.testBit 24
  | _ => false

/-- The offset and the value of the piece that a mask selects: the high word alone lies 4 bytes above (R481). -/
def pieceOff (r : Reg) (mask : Word) : Nat := if mask &&& 0xFFFFFFFF = 0 then r.off + 4 else r.off
def pieceVal (mask val : Word) : Nat := if mask &&& 0xFFFFFFFF = 0 then (val >>> 32).toNat else val.toNat

/-- A piece of a register write that a state rule drops (R38). -/
def dropPiece (who : Who) (r : Reg) (mask val : Word) (s : State) : State := dropWrite who (pieceOff r mask) (pieceVal mask val) s

/-- A piece of a register write as the port judges it (R37, R38, R395, R434, R470): the effect of an accepted write, or the drop.
Before the first service point every write is dropped, and recorded once the journal is cleared. -/
def gateP (who : Who) (r : Reg) (mask val : Word) (f : State → State) (s : State) : State :=
  if !s.start.serving then (if s.start.cleared then dropPiece who r mask val s else s)
  else if pageGated s r then s
  else if mayWrite s who r.cls && resetTakes s who r (val &&& mask) then f s
  else dropPiece who r mask val s

/-- A write of a whole register. -/
def gateW (who : Who) (r : Reg) (val : Word) (f : State → State) (s : State) : State := gateP who r (~~~ 0) val f s

/-- A debug access of a locked page (R376). The three registers of class OX are not locked. -/
def debugLocked (s : State) (who : Who) : PageCls → Bool
  | .oc | .ks | .acc | .jr => who.dbg && !s.dbgEn
  | _ => false

/-- A debug read that AH_OWN_DBG_UNLOCK opens (R377). -/
def debugOpens (s : State) (who : Who) (r : Reg) : Bool := debugLocked s who r.cls && mayRead s who r.cls

/-- A debug read that returns zero because of role, or that is opened, leaves a record (R38, R376, R377). -/
def debugRead (who : Who) (r : Reg) (off : Nat) (s : State) : State :=
  if s.start.serving && who.dbg && (!mayRead s who r.cls || debugOpens s who r) then debugRecord who off .read (debugOpens s who r) s else s

/-- The read returns the register's value: by role, and from the point at which its page can be read (R470, R395). -/
def readable (s : State) (who : Who) (r : Reg) : Bool :=
  (s.start.serving || (s.start.cleared && decide (r.cls = .st))) && mayRead s who r.cls && !pageGated s r

/-- A register read as the port judges it: the read itself, or a zero (R14, R37, R376, R377). -/
def gateR (who : Who) (r : Reg) (f : State → State) (s : State) : State :=
  let s1 := debugRead who r r.off s
  if readable s who r then f s1 else emit (.cfgRd who 0) s1

/-- A write of a whole register that a state rule drops. -/
def dropReg (who : Who) (r : Reg) (val : Word) (s : State) : State := dropPiece who r (~~~ 0) val s

end Sys2Proof.Machine
end

