-- ==== Sys2Proof/Machine/Rings.lean ====
section
/-!
DEFINITION. Submission rings: doorbells, void and surplus slots, release by time and pulse, the entry cache, set-up, pause and
faults (R50 to R73, R355, R498, R499), with the commands SQ_DOORBELL to RING_SLOT_READ_RETURN of the opcode table.
-/

namespace Sys2Proof.Machine

/-! ### Head, voids and surplus -/

/-- Move the head past void indices (R59); at most one pass over the marks. -/
def skipVoids (k : Nat) : Nat → Nat → List Nat → Nat × List Nat
  | 0, h, v => (h, v)
  | fuel + 1, h, v =>
    if h ∈ v then skipVoids k fuel ((h + 1) % 2 ^ (k + 1)) (v.filter (fun i => i != h)) else (h, v)

/-- The reads in flight whose slots are wanted no more: their data is dropped as it returns. -/
def dropFlight (l : List RingRead) : List RingRead := l.map (fun r => { r with live := false })

/-- The slots a ring holds in the entry cache go, and those being read are wanted no more. -/
def Sq.release (q : Sq) : Sq := { q with cache := [], charges := [], flight := dropFlight q.flight }

/-- A ring at its reset values; a read in flight still returns. -/
def Sq.fresh (q : Sq) : Sq := { flight := dropFlight q.flight }

/-- The head moves past void indices, and over surplus slots while nothing is queued (R59, R61). The head of a paused or
disabled ring does not move (R67, R72). -/
def settleRing (n m : Nat) (s : State) : State :=
  let q := s.sq n m
  if !q.en || q.paused then s
  else
    let p := skipVoids q.k q.voids.length q.head q.voids
    let s1 := modSq n m (fun q => { q with head := p.1, voids := p.2 }) s
    if q.queued = 0 ∧ p.1 ≠ q.tail then
      raiseT n evSqSurplus (modSq n m (fun q => { q.release with head := q.tail, voids := [], surplus := true }) s1)
    else s1

/-! ### Release (R355, R363) -/

/-- The deadline of a request released at a time: its release time plus DEADLINE, when that is not 0 (R363). -/
def deadlineAt (q : Sq) (release : Word) : Option Word :=
  if q.deadline = 0 then none else some (release + BitVec.ofNat 64 q.deadline)

/-- Release up to `c` requests not yet released, in ring order, for a pulse of time `t`: the release time is the later of
the pulse's and the doorbell's (R355). -/
def releaseFor (q : Sq) (t : Word) : Nat → List Posted → List Posted
  | _, [] => []
  | 0, l => l
  | c + 1, p :: l =>
    match p.release with
    | some _ => p :: releaseFor q t (c + 1) l
    | none =>
      let r := if t.toNat < p.taken.toNat then p.taken else t
      { p with release := some r, deadline := deadlineAt q r } :: releaseFor q t c l

/-- While the ring holds a pulse and a queued request not yet released, the oldest pulse releases up to RPER requests and
leaves (R355). Nothing is released while the time count is stopped (R351, R366). -/
def drainPulses (n m : Nat) : Nat → State → State
  | 0, s => s
  | fuel + 1, s =>
    let q := s.sq n m
    match q.pulses with
    | [] => s
    | t :: rest =>
      if s.run && q.posts.any (fun p => p.release.isNone) then
        drainPulses n m fuel (modSq n m (fun q => { q with posts := releaseFor q t q.rper q.posts, pulses := rest }) s)
      else s

/-- A pulse of a ring's RSRC at time `t` (R355): held, or lost where 8 are held. -/
def ringPulse (n m : Nat) (t : Word) (s : State) : State :=
  let q := s.sq n m
  if q.pulses.length < 8 then drainPulses n m 8 (modSq n m (fun q => { q with pulses := q.pulses ++ [t] }) s)
  else raiseT n evSchedPulseLost (modSq n m (fun q => { q with plost := q.plost.bump }) s)

/-- Every ring that names a pulse source receives the pulse (R352, R354, R355). -/
def pulseRings (src : Nat) (t : Word) (s : State) : State :=
  eachN (List.range 256) (fun i s =>
    let q := s.sq (i / 16) (i % 16)
    if q.pulseMode && decide (q.rsrc = src) && s.enabled (i / 16) then ringPulse (i / 16) (i % 16) t s else s) s

/-- The time count starts: the requests that POST rings took while it was stopped are released at their doorbell's time
(R351, R355). -/
def releasePosted (s : State) : State :=
  eachN (List.range 256) (fun i s =>
    let q := s.sq (i / 16) (i % 16)
    if q.posts = [] then s
    else if q.pulseMode then drainPulses (i / 16) (i % 16) 8 s
    else modSq (i / 16) (i % 16) (fun q => { q with posts := q.posts.map (fun p =>
      match p.release with
      | some _ => p
      | none => { p with release := some p.taken, deadline := deadlineAt q p.taken }) }) s) s

/-! ### Doorbells (R57 to R63) -/

/-- A doorbell is dropped while the ring is disabled, or its tenant in reset or disabled (R62). -/
def doorbellDropped (s : State) (n m : Nat) : Bool :=
  !(s.sq n m).en || (s.ten n).inReset || !s.enabled n

def addPosted (n : Nat) (posted clamped : Nat) (s : State) : State :=
  modTen n (fun t => { t with led := { t.led with
    posted := t.led.posted + BitVec.ofNat 64 posted
    clamped := t.led.clamped + BitVec.ofNat 64 clamped } }) s

def sqClampEvent (n m : Nat) (s : State) : State :=
  raiseT n evSqClamp (modSq n m (fun q => { q with clamp := true }) s)

/-- The judgement of a doorbell with the identity of its writer (R57 to R59, R251, R355). One that `meets` another doorbell of the ring,
the one before it, in its control cycle is judged against the same head and against the tail left by it (R57, R63). The slots that the
first adds with COUNT 0 to an empty queue are surplus before the second is applied (DESIGN CHOICE, notes/assumptions/25.md). -/
def doorbell (n m : Nat) (mid : BitVec 8) (w : World) (tail count : Nat) (meets : Bool) (s : State) : State :=
  let q := s.sq n m
  let md := 2 ^ (q.k + 1)
  let newTail := tail % md
  let head := if meets then q.headWas else q.head
  let a := (newTail + md - q.tail % md) % md
  let f := 2 ^ q.k - occ q.k head q.tail
  let c := min count a
  let s0 := modSq n m (fun q => { q with dbWorld := w, headWas := head }) s
  if a ≤ f then
    let post : Posted := {
      mid := mid
      world := w
      taken := s.time.ns
      release := if s.run && !q.pulseMode then some s.time.ns else none
      deadline := if s.run && !q.pulseMode then deadlineAt q s.time.ns else none }
    let s1 := addPosted n count (count - c) (modSq n m (fun q => { q with
      tail := newTail
      queued := q.queued + BitVec.ofNat 64 c
      posts := q.posts ++ List.replicate c post }) s0)
    let s2 := if count = c then s1 else sqClampEvent n m s1
    settleRing n m (if q.pulseMode then drainPulses n m 8 s2 else s2)
  else
    let full := (head + 2 ^ q.k) % md
    let marks := (List.range ((full + md - q.tail % md) % md)).map (fun i => (q.tail + i) % md)
    settleRing n m (sqClampEvent n m (addPosted n count count (modSq n m (fun q => { q with tail := full, voids := q.voids ++ marks }) s0)))

/-- TAIL equal to the tail with COUNT 0 has no effect (R59). -/
def doorbellVoid (q : Sq) (tail count : Nat) : Bool := decide (tail % 2 ^ (q.k + 1) = q.tail) && decide (count = 0)

/-- A write to AH_Tn_DB_SQm that the port accepts (R57 to R62). -/
def dbWrite (who : Who) (n : TenantIx) (m : RingIx) (tail count : Nat) (meets : Bool) (s : State) : State :=
  if doorbellDropped s n m then dropReg who (.dbSq n m) (BitVec.ofNat 64 (tail + 2 ^ 17 * count)) s
  else if doorbellVoid (s.sq n m) tail count then (if meets then s else modSq n m (fun q => { q with headWas := q.head }) s)
  else doorbell n m who.mid who.world tail count meets s

/-- A write to AH_Tn_DB_SQm (R57 to R63, R502). -/
def fxSqDoorbell (who : Who) (n : TenantIx) (m : RingIx) (tail : BitVec 17) (count : BitVec 15) (meets : Bool) (s : State) : State :=
  gateW who (.dbSq n m) (BitVec.ofNat 64 (tail.toNat + 2 ^ 17 * count.toNat)) (dbWrite who n m tail.toNat count.toNat meets) s

def execSqDoorbell (who : Who) (n : TenantIx) (m : RingIx) (tail : BitVec 17) (count : BitVec 15) (s : State) (meets : Bool := false) :
    Host.Outcome State Fault Refusal := .next (fxSqDoorbell who n m tail count meets s)

/-! ### Set-up (R50 to R52, R77, R498, R499) -/

/-- R52 holds: EN is 0, the ring is empty and nothing is queued. -/
def sqMutable (q : Sq) : Bool := !q.en && decide (q.head = q.tail) && decide (q.queued = 0)

/-- A write to AH_Tn_SQm_BASE (R52, R499). -/
def sqBaseWrite (who : Who) (n : TenantIx) (m : RingIx) (mask val : Word) (s : State) : State :=
  if sqMutable (s.sq n m) then
    modSq n m (fun q => { q with base := (Reg.sqBase n m).write q.base mask val, head := 0, tail := 0 }) s
  else dropPiece who (.sqBase n m) mask val s

/-- A write to AH_Tn_SQm_CFG (R52, R77, R499): outside R52 it is taken only when its SIZE equals SIZE in use. -/
def sqCfgWrite (who : Who) (n : TenantIx) (m : RingIx) (mask val : Word) (s : State) : State :=
  let q := s.sq n m
  let new := (Reg.sqCfg n m).write q.cfg mask val
  let sizeWritten := fld (merge q.cfg mask val) 4 0
  let leave (q : Sq) : Sq := if fld new 21 20 = q.cls then { q with cfg := new } else { q with cfg := new, credit := 0, creditX := 0 }
  if sqMutable q then modSq n m (fun q => { leave q with head := 0, tail := 0 }) s
  else if sizeWritten = q.k then modSq n m leave s
  else dropPiece who (.sqCfg n m) mask val s

/-- A write to AH_Tn_SQm_SCHED: a change to RMODE or RSRC empties the FIFO of held pulses (R355). -/
def sqSchedWrite (n : TenantIx) (m : RingIx) (mask val : Word) (s : State) : State :=
  modSq n m (fun q =>
    let new := (Reg.sqSched n m).write q.sched mask val
    if bitOf new 7 = q.pulseMode ∧ fld new 4 0 = q.rsrc then { q with sched := new }
    else { q with sched := new, pulses := [] }) s

def fxSqSetupWrite (who : Who) (n : TenantIx) (m : RingIx) (r : SqSetup) (v : Word) (s : State) : State :=
  match r with
  | .base => gateW who (.sqBase n m) v (sqBaseWrite who n m (~~~ 0) v) s
  | .cfg => gateW who (.sqCfg n m) v (sqCfgWrite who n m (~~~ 0) v) s
  | .sched => gateW who (.sqSched n m) v (sqSchedWrite n m (~~~ 0) v) s

def execSqSetupWrite (who : Who) (n : TenantIx) (m : RingIx) (r : SqSetup) (v : Word) (s : State) :
    Host.Outcome State Fault Refusal := .next (fxSqSetupWrite who n m r v s)

/-! ### AH_Tn_SQm_CTL and the rewrite procedure (R66, R67, R72, R73, R79, R499) -/

/-- EN set (R67, R499): resumes from the head; with FAULT at 1 the ring takes no entry until EN is cleared, FAULT cleared
and EN set again. -/
def sqSetEn (n m : Nat) (s : State) : State :=
  settleRing n m (modSq n m (fun q => if q.en then q else { q with en := true, blocked := q.fault }) s)

/-- EN cleared (R67): admission stops and every entry cache slot of the ring is released. -/
def sqClearEn (n m : Nat) (s : State) : State := modSq n m (fun q => { q.release with en := false, blocked := false }) s

/-- PAUSE set (R72, step 1). -/
def sqSetPause (n m : Nat) (s : State) : State :=
  modSq n m (fun q => { q with pause := true, unpauseDue := false }) s

/-- PAUSE cleared (R72, step 7; R79): PAUSED clears at once, or when INVAL_BUSY reads 0. -/
def sqClearPause (n m : Nat) (s : State) : State :=
  settleRing n m (modSq n m (fun q =>
    if q.invalBusy then { q with pause := false, unpauseDue := true } else { q with pause := false, paused := false }) s)

/-- INVAL (R72 step 4, R73): discards the ring's slots, which return to the entry cache with step 5; ignored while PAUSED reads 0. -/
def sqSetInval (n m : Nat) (s : State) : State :=
  modSq n m (fun q => if q.paused then
    { q with invalBusy := true, cache := [], charges := [], discarded := q.discarded + q.cache.length } else q) s

/-- A whole write to AH_Tn_SQm_CTL: INVAL is taken before a clearing of PAUSE (R79). -/
def sqCtlWrite (n m : Nat) (mask val : Word) (s : State) : State :=
  if mask &&& 7 = 0 then s
  else
    let s1 := if bitOf val 2 then sqSetInval n m s else s
    let s2 := if bitOf val 1 then (if (s.sq n m).pause then s1 else sqSetPause n m s1)
      else (if (s.sq n m).pause then sqClearPause n m s1 else s1)
    if bitOf val 0 then sqSetEn n m s2 else (if (s.sq n m).en then sqClearEn n m s2 else s2)

/-- The value that AH_Tn_SQm_CTL shows in its RW bits. -/
def Sq.ctl (q : Sq) : Nat := b2n q.en + 2 * b2n q.pause

def fxSqEnable (who : Who) (n : TenantIx) (m : RingIx) (s : State) : State :=
  gateW who (.sqCtl n m) 1 (sqSetEn n m) s
def execSqEnable (who : Who) (n : TenantIx) (m : RingIx) (s : State) : Host.Outcome State Fault Refusal :=
  .next (fxSqEnable who n m s)

def fxSqDisable (who : Who) (n : TenantIx) (m : RingIx) (s : State) : State :=
  gateW who (.sqCtl n m) 0 (sqClearEn n m) s
def execSqDisable (who : Who) (n : TenantIx) (m : RingIx) (s : State) : Host.Outcome State Fault Refusal :=
  .next (fxSqDisable who n m s)

def fxSqPause (who : Who) (n : TenantIx) (m : RingIx) (s : State) : State :=
  gateW who (.sqCtl n m) 3 (sqSetPause n m) s
def execSqPause (who : Who) (n : TenantIx) (m : RingIx) (s : State) : Host.Outcome State Fault Refusal :=
  .next (fxSqPause who n m s)

/-- SQ_PAUSED (R72, step 2): no entry cache read of the ring is outstanding. -/
def fxSqPaused (n : TenantIx) (m : RingIx) (s : State) : State :=
  whenS ((s.sq n m).pause && decide ((s.sq n m).flight = [])) (modSq n m (fun q => { q with paused := true })) s
def execSqPaused (n : TenantIx) (m : RingIx) (s : State) : Host.Outcome State Fault Refusal := .next (fxSqPaused n m s)

def fxSqInval (who : Who) (n : TenantIx) (m : RingIx) (s : State) : State :=
  gateW who (.sqCtl n m) 7 (sqSetInval n m) s
def execSqInval (who : Who) (n : TenantIx) (m : RingIx) (s : State) : Host.Outcome State Fault Refusal :=
  .next (fxSqInval who n m s)

/-- SQ_INVAL_DONE (R72, step 5): the discarded slots are released; a PAUSE cleared meanwhile takes effect (R79). -/
def fxSqInvalDone (n : TenantIx) (m : RingIx) (s : State) : State :=
  whenS ((s.sq n m).invalBusy) (fun s =>
    settleRing n m (modSq n m (fun q =>
      if q.unpauseDue then { q with invalBusy := false, discarded := 0, unpauseDue := false, paused := false }
      else { q with invalBusy := false, discarded := 0 }) s)) s
def execSqInvalDone (n : TenantIx) (m : RingIx) (s : State) : Host.Outcome State Fault Refusal := .next (fxSqInvalDone n m s)

def fxSqUnpause (who : Who) (n : TenantIx) (m : RingIx) (s : State) : State :=
  gateW who (.sqCtl n m) 1 (sqClearPause n m) s
def execSqUnpause (who : Who) (n : TenantIx) (m : RingIx) (s : State) : Host.Outcome State Fault Refusal :=
  .next (fxSqUnpause who n m s)

/-- W1C of FAULT, taken only while EN is 0 (R66, R498). -/
def sqFaultClear (n m : Nat) (s : State) : State :=
  modSq n m (fun q => if q.en then q else { q with fault := false }) s

def fxSqFaultClear (who : Who) (n : TenantIx) (m : RingIx) (s : State) : State :=
  gateW who (.sqStat n m) 4 (sqFaultClear n m) s
def execSqFaultClear (who : Who) (n : TenantIx) (m : RingIx) (s : State) : Host.Outcome State Fault Refusal :=
  .next (fxSqFaultClear who n m s)

/-! ### The entry cache (R53, R56, R66, R68 to R71) -/

/-- A failing ring read (R66): the ring stops, the fault is latched, EV_SQ_FAULT. -/
def sqFault (n m : Nat) (addr kind cause : Nat) (pref : Bool) (s : State) : State :=
  raiseT n evSqFault (modSq n m (fun q => { q with
    fault := true
    blocked := true
    flight := dropFlight q.flight
    fcap := ⟨BitVec.ofNat 48 addr, BitVec.ofNat 2 kind, BitVec.ofNat 4 cause, pref⟩ }) s)

/-- The slots of an entry: its header and NSTR stretchers (R56, R80). -/
def entrySlots (hdr : Bytes) : Nat := 1 + byteAt hdr 2 % 8

/-- The slot held for a ring index. -/
def Sq.held (q : Sq) (i : Nat) : Option Bytes := (q.cache.find? (fun p => decide (p.1 = i))).map Prod.snd

/-- The slots held without a gap from an index on, at most `fuel`. -/
def Sq.frontFrom (q : Sq) : Nat → Nat → List Bytes
  | 0, _ => []
  | fuel + 1, i =>
    match q.held i with
    | some b => b :: q.frontFrom fuel ((i + 1) % 2 ^ (q.k + 1))
    | none => []

/-- The slots held without a gap from the head on, in ring order. -/
def Sq.front (q : Sq) : List Bytes := q.frontFrom q.cache.length q.head

/-- The slot `i` places beyond the head is held, or being read. -/
def Sq.asked (q : Sq) (i : Nat) : Bool :=
  let md := 2 ^ (q.k + 1)
  let x := (q.head + i) % md
  (q.held x).isSome || q.flight.any (fun r => r.live && decide ((x + md - r.idx) % md < r.addrs.length))

/-- The first place beyond the head whose slot is neither held nor being read; a ring holds at most 32 slots (R68). -/
def Sq.nextSlot (q : Sq) : Nat := ((List.range 33).find? (fun i => !q.asked i)).getD 33

/-- The entry cache slots that a ring takes: held, being read, or discarded and not yet released (R70, R72). -/
def Sq.used (q : Sq) : Nat := q.cache.length + q.discarded + (q.flight.map (fun r => if r.live then r.addrs.length else 0)).sum

/-- The length in slots of the entry at the front of the cache; 1 while its header has not arrived. -/
def headLen (cache : List Bytes) : Nat :=
  match cache with
  | [] => 1
  | h :: _ => entrySlots h

/-- The slot `i` places beyond the head lies in a region marked no-prefetch (R69, R371). -/
def slotNoPref (s : State) (n : TenantIx) (m : RingIx) (i : Nat) : Bool :=
  let q := s.sq n m
  noPrefetch s s.gen.act (some n) q.dbWorld (q.slotAddr (q.head + i)) 32

/-- Slots of the shared part in use: what each ring takes beyond its guaranteed 8 (R70). -/
def sharedUsed (s : State) : Nat := (s.sqs.map (fun p => p.2.used - 8)).sum

/-- The entry cache has room for `slots` more slots of a ring: within its guaranteed 8, or in the shared part of 2048 (R70). -/
def roomFor (s : State) (q : Sq) (slots : Nat) : Bool :=
  decide (q.used + slots ≤ 8) || decide (sharedUsed s + (q.used + slots - 8) ≤ 2048 + (q.used - 8))

/-- The entry cache may read the slot `i` places beyond the head (R60, R68, R69, R71). -/
def mayRead1 (s : State) (n : TenantIx) (m : RingIx) (i : Nat) : Bool :=
  let q := s.sq n m
  decide (i < q.occ) && decide (q.queued ≠ 0) && !decide ((q.head + i) % 2 ^ (q.k + 1) ∈ q.voids) && !q.asked i
    && (decide (i < headLen q.front) || (decide (i < q.prefetch) && !slotNoPref s n m i))

/-- The slots of a read lie in one unit of 32 or 64 bytes that no 4 KiB boundary cuts (R15, R68). -/
def oneUnit : List Nat → Bool
  | [_] => true
  | [a, b] => decide (b = a + 32) && decide (a % 4096 + 64 ≤ 4096)
  | _ => false

/-- ENTRY_CACHE_READ: a read of one or two slots, one access of 32 or 64 bytes, from the first slot not yet held or being read; it is
checked under the active generation (R53, R68). While a retention entry is asked for doorbells are taken only as counts (R412). -/
def fxEntryCacheRead (n : TenantIx) (m : RingIx) (slots : Nat) (s : State) : State :=
  let q := s.sq n m
  let i := q.nextSlot
  let ahead := decide (headLen q.front ≤ i)
  let addrs := (List.range slots).map (fun j => q.slotAddr (q.head + i + j))
  whenS (s.start.serving && s.enabled n && !(s.ten n).inReset && q.en && !q.pause && !q.paused && !q.fault && !q.blocked
      && !s.ret.req && !s.ret.asleep && oneUnit addrs && (List.range slots).all (fun j => mayRead1 s n m (i + j)) && roomFor s q slots)
    (fun s =>
      match check s s.gen.act (some n) q.dbWorld .read (addrs.headD 0) (32 * slots) with
      | some (fa, cause) =>
        sqFault n m fa 1 cause ahead (violT n fa .read cause kindRing m 0 s.gen.active.toNat s)
      | none =>
        emitRd (addrs.headD 0) (32 * slots)
          (modSq n m (fun q => { q with flight := q.flight ++ [⟨(q.head + i) % 2 ^ (q.k + 1), addrs, ahead, false, true⟩] }) s)) s

def execEntryCacheRead (n : TenantIx) (m : RingIx) (slots : Nat) (s : State) : Host.Outcome State Fault Refusal :=
  .next (fxEntryCacheRead n m slots s)

/-- The whole entries at the front of a list of slots, in order; at most one per slot. -/
def wholeEntries : Nat → List Bytes → List Bytes
  | 0, _ => []
  | _ + 1, [] => []
  | fuel + 1, h :: t =>
    if entrySlots h ≤ t.length + 1 then
      ((h :: t).take (entrySlots h)).flatten :: wholeEntries fuel ((h :: t).drop (entrySlots h))
    else []

/-- Charge the entries that have just become whole (R357); the charge does not change afterwards. -/
def chargeNew (n : TenantIx) (m : RingIx) (s : State) : State :=
  let q := s.sq n m
  let es := wholeEntries q.cache.length q.front
  modSq n m (fun q => { q with charges := q.charges ++ (es.drop q.charges.length).map (chargeOf s n.val) }) s

/-- The slots that a read brings, each with its ring index. -/
def Sq.arrived (q : Sq) (r : RingRead) (data : Bytes) : List (Nat × Bytes) :=
  (List.range r.addrs.length).map (fun j => ((r.idx + j) % 2 ^ (q.k + 1), slice data (32 * j) 32))

/-- RING_SLOT_READ_RETURN (R71, R431): the slots of the oldest read in flight arrive and are held as read. A slot with an uncorrectable
error is discarded, to be read again; slots that are wanted no more are dropped. That reads return in the order in which they left, on
either port, is the model's choice (DESIGN CHOICE, notes/assumptions/25.md). -/
def fxRingSlotReadReturn (n : TenantIx) (m : RingIx) (data : Bytes) (ecc : Ecc) (s : State) : State :=
  let q := s.sq n m
  match q.flight with
  | [] => s
  | r :: rest =>
    whenS (decide (data.length = 32 * r.addrs.length))
      (fun s =>
        let s1 := modSq n m (fun q => { q with flight := rest }) s
        if !r.live then s1
        else match ecc with
          | .uncorrectable => raiseG gUe (journalUe 4 0 s1)
          | _ =>
            chargeNew n m (modSq n m (fun q => { q with cache := q.cache ++ q.arrived r data })
              (if ecc = .corrected then countCe 4 s1 else s1))) s

def execRingSlotReadReturn (n : TenantIx) (m : RingIx) (data : Bytes) (ecc : Ecc) (s : State) :
    Host.Outcome State Fault Refusal := .next (fxRingSlotReadReturn n m data ecc s)

end Sys2Proof.Machine
end

