-- ==== Sys2Proof/Machine/Channels.lean ====
section
/-!
DEFINITION. Data channels: descriptors, address patterns, the audio transform, pacing, completion points, records, stops, pause
and abort (R301 to R327, R331, R503 to R505), with the commands DC_GO to DC_REC_HEAD_WRITE of the opcode table.
-/

namespace Sys2Proof.Machine

/-- A two's complement number of `bits` bits. -/
def signed (bits v : Nat) : Int := if v < 2 ^ (bits - 1) then (v : Int) else (v : Int) - (2 : Int) ^ bits

/-! ### Fields of the channel registers -/

def Chan.trowel (c : Chan) : Bool := bitOf c.cfg 0
def Chan.clsCfg (c : Chan) : Nat := fld c.cfg 5 4
def Chan.pch (c : Chan) : Nat := fld c.cfg 13 8
def Chan.count (c : Chan) : Nat := fld c.dcount 15 0
def Chan.recK (c : Chan) : Nat := fld c.recCfg 3 0
def Chan.recEn (c : Chan) : Bool := bitOf c.recCfg 8
def Chan.recOcc (c : Chan) : Nat := occ c.recK c.recHead c.recTail
/-- A record place is free, or no records are kept (R318). -/
def Chan.place (c : Chan) : Bool := !c.recEn || decide (c.recOcc < 2 ^ c.recK)

/-- The tenant of channel k's assignment (R301). -/
def dcTen (s : State) (k : Nat) : TenantIx := Fin.ofNat 16 (fld (s.eff (.ownAssign (Fin.ofNat 64 k))) 11 8)
def dcMid (s : State) (k : Nat) : BitVec 8 := BitVec.ofNat 8 (fld (s.eff (.ownAssign (Fin.ofNat 64 k))) 23 16)
def dcWorld (s : State) (k : Nat) : World := if bitOf (s.eff (.ownAssign (Fin.ofNat 64 k))) 24 then .nonsecure else .secure
/-- Channel k may run: assigned, its tenant enabled and not in reset (R301, R303). -/
def dcAssigned (s : State) (k : Nat) : Bool :=
  bitOf (s.eff (.ownAssign (Fin.ofNat 64 k))) 0 && s.enabled (dcTen s k).val
/-- The data channel unit has its clock and the engine serves (R395, R413). -/
def dcuOn (s : State) : Bool := s.start.serving && !s.clk.gated.toNat.testBit 24 && !s.ret.asleep

/-! ### Descriptors (R305 to R308) -/

structure Desc where
  src  : Nat
  next : Nat
  dst  : Nat
  n0   : Nat
  n1   : Nat
  n2   : Nat
  ctl  : Nat
  ss   : List Int
  ds   : List Int
  deriving DecidableEq, Repr

def readDesc (b : Bytes) : Desc where
  src  := leAt b 0 6
  next := leAt b 6 2
  dst  := leAt b 8 6
  n0   := leAt b 0xE 2 + 1
  n1   := leAt b 0x10 2 + 1
  n2   := leAt b 0x12 2 + 1
  ctl  := leAt b 0x14 4
  ss   := [signed 32 (leAt b 0x18 4), signed 32 (leAt b 0x1C 4), signed 32 (leAt b 0x20 4)]
  ds   := [signed 32 (leAt b 0x24 4), signed 32 (leAt b 0x28 4), signed 32 (leAt b 0x2C 4)]

def bitsOf (w msb lsb : Nat) : Nat := w / 2 ^ lsb % 2 ^ (msb + 1 - lsb)

def Desc.xmode (d : Desc) : Nat := bitsOf d.ctl 7 6
def Desc.psrc (d : Desc) : Nat := bitsOf d.ctl 18 14
def Desc.punit (d : Desc) : Nat := bitsOf d.ctl 20 19
def Desc.fence (d : Desc) : Bool := d.ctl.testBit 21
/-- Input and output element lengths (R307, R308). -/
def Desc.lenIn (d : Desc) : Nat := if d.xmode = 0 then bitsOf d.ctl 5 0 + 1 else bitsOf d.ctl 9 8 + 1
def Desc.lenOut (d : Desc) : Nat := if d.xmode = 0 then bitsOf d.ctl 5 0 + 1 else bitsOf d.ctl 11 10 + 1
/-- Loop 0's count in use (R311). -/
def Desc.count0 (d : Desc) : Nat := if d.xmode = 1 ∨ d.xmode = 2 then min 32 d.n0 else d.n0
/-- Reserved fields are zero (R9, R307). -/
def Desc.reservedOk (d : Desc) : Bool :=
  decide (bitsOf d.ctl 31 27 = 0) && (if d.xmode = 0 then decide (bitsOf d.ctl 13 8 = 0) else decide (bitsOf d.ctl 5 0 = 0))

/-- An affine address, exact as a signed integer (R308). -/
def patAddr (base : Nat) (st : List Int) (ix : List Nat) : Int :=
  (base : Int) + (List.zipWith (fun a i => a * (i : Int)) st ix).sum

/-- The extent of one side lies within 0 to 2^48 - 1 (R308). -/
def extentOk (base : Nat) (st : List Int) (ns : List Nat) (len : Nat) : Bool :=
  let lo := (base : Int) + (List.zipWith (fun a n => min 0 (a * ((n : Int) - 1))) st ns).sum
  let hi := (base : Int) + (List.zipWith (fun a n => max 0 (a * ((n : Int) - 1))) st ns).sum + len - 1
  decide (0 ≤ lo) && decide (hi < 2 ^ 48)

def Desc.extents (d : Desc) : Bool :=
  extentOk d.src d.ss [d.count0, d.n1, d.n2] d.lenIn && extentOk d.dst d.ds [d.count0, d.n1, d.n2] d.lenOut

/-- Conversion of one audio sample (R310). -/
def convSample (swo : Nat) (ibe obe : Bool) (b : Bytes) : Bytes :=
  let r := fit swo (if ibe then b else b.reverse)
  if obe then r else r.reverse

/-! ### Records, stops and accesses (R302, R318, R319, R323 to R326) -/

/-- A channel record (R319). -/
def recordBytes (k : Nat) (c : Chan) (st detail : Nat) (i : List Nat) (addr : Nat) (d : Dir) (ns : Word) : Bytes :=
  toLE 2 c.desc ++ toLE 1 (k + 128 * (1 - c.recTail / 2 ^ c.recK % 2)) ++ [0] ++ toLE 1 st ++ toLE 1 detail ++ [0, 0]
    ++ toLE 2 (i.getD 0 0) ++ toLE 2 (i.getD 1 0) ++ toLE 2 (i.getD 2 0) ++ [0, 0] ++ toLE 6 addr ++ toLE 1 (dirBit d)
    ++ [0] ++ toLE 8 ns.toNat

/-- The check of a data access, read-back or record write under the unit's generation (R302). -/
def dcCheck (s : State) (k : Nat) (d : Dir) (addr len : Nat) : Option (Nat × Nat) :=
  check s (s.rules (s.dc k).unitPrev) (some (dcTen s k)) (dcWorld s k) d addr len

/-- The number of the generation that such an access is checked under: the one the channel took last, or the active one while it has taken
none since its GO (R302). -/
def dcGen (s : State) (k : Nat) : BitVec 32 := if (s.dc k).heldTag = 0 then s.gen.active else (s.dc k).heldTag

/-- The violation of a failed check of channel k (R373). -/
def dcViol (k : Nat) (addr : Nat) (d : Dir) (cause : Nat) (s : State) : State :=
  violT (dcTen s k).val addr d cause kindChannel k 0 (dcGen s k).toNat s

/-- What channel k leaves behind as it stops: its accesses in flight have no one to return to, its copies and what it read ahead go
(R303, R314, R315, R383). -/
def Chan.shed (c : Chan) (taken : Bool) : Chan :=
  { c with
    held := none
    fetching := false
    fetchPrev := false
    backs := false
    pref := []
    ahead := []
    atPoint := false
    rstall := false
    strays := c.strays ++ (if c.fetching then [⟨false, c.fetchPrev, taken⟩] else []) ++ (if c.backs then [⟨true, c.unitPrev, taken⟩] else []) }

/-- Every access of the channel has returned (R394). -/
def Chan.quiet (c : Chan) : Bool := !c.fetching && !c.backs && decide (c.strays = [])

/-- The first such access of a kind has returned, or ended in an error. -/
def Chan.drop (back : Bool) (c : Chan) : Chan :=
  { c with strays := match c.strays.find? (fun x => x.back == back) with
    | some x => c.strays.erase x
    | none => c.strays }

/-- Write a record at the tail when the record ring is enabled and a place is free (R318); none where its check fails. -/
def dcRecord (k st detail : Nat) (i : List Nat) (addr : Nat) (d : Dir) (s : State) : Option State :=
  let c := s.dc k
  if !c.recEn || !c.place then some s
  else
    let a := c.recBase.toNat + c.recTail % 2 ^ c.recK * 32
    if (dcCheck s k .write a 32).isSome then none
    else some (modDc k (fun c => { c with recTail := (c.recTail + 1) % 2 ^ (c.recK + 1) })
      (emitRecord a (recordBytes k c st detail i addr d s.time.ns) s))

/-- The record address of channel k. -/
def dcRecAddr (c : Chan) : Nat := c.recBase.toNat + c.recTail % 2 ^ c.recK * 32

/-- Stop a channel (R323): FAULT, the capture, the record and EV_DC_STOP. The prefetched copies go (R315), and the current
descriptor is read again at a resume (R304). -/
def dcStop (k st detail : Nat) (addr : Nat) (d : Dir) (cause : Nat) (s : State) : State :=
  let s1 := modDc k (fun c => { c.shed false with
    st := .stopped
    fault := true
    cap := ⟨BitVec.ofNat 48 addr, d, BitVec.ofNat 4 cause, BitVec.ofNat 8 st, BitVec.ofNat 8 detail⟩ }) s
  let s2 := raiseT (dcTen s k).val evDcStop s1
  let c := s2.dc k
  match dcRecord k st detail [c.i0, c.i1, c.i2] addr d s2 with
  | some s3 => s3
  | none =>
    match dcCheck s2 k .write (dcRecAddr c) 32 with
    | some (fa, cs) => dcViol k fa .write cs s2
    | none => s2

/-- A failed record write: the channel stops with the fault shown only in AH_DCk_FAULT, and the place stays free (R323). The
detail is that of a write (DEDUCED from the table of R326, notes/assumptions/15.md). -/
def dcRecordFault (k st addr cause : Nat) (s : State) : State :=
  raiseT (dcTen s k).val evDcStop (modDc k (fun c => { c.shed false with
    st := .stopped
    fault := true
    cap := ⟨BitVec.ofNat 48 addr, .write, BitVec.ofNat 4 cause, BitVec.ofNat 8 st, 0x02⟩ }) s)

/-- UNSUPPORTED stops a channel (R326). -/
def dcUnsup (k detail : Nat) (s : State) : State := dcStop k stUnsupported detail 0 .read 0 s

/-- The last byte written through each host master port (R316). -/
def dcWrote (k addr len : Nat) (s : State) : State :=
  (pieces addr len).foldl (fun s p => modDc k (fun c =>
    if portOf p.1 then { c with port1 := some (p.1 + p.2 - 1) } else { c with port0 := some (p.1 + p.2 - 1) }) s) s

/-- The earliest element, in loop order, of the gathered lines and the current position (R325). -/
def earliest (c : Chan) : List Nat :=
  (c.lines.map (fun g => [g.i2, g.i1, g.i0])).foldl (fun m x => if x < m then x else m) [c.i2, c.i1, c.i0]

/-- A channel goes back to the element from which it resumes (R325), within the unit of that element. -/
def Chan.backTo (c : Chan) (resume : List Nat) : Chan :=
  { c with i2 := resume.getD 0 0, i1 := resume.getD 1 0, i0 := resume.getD 2 0, lines := [], inUnit := !c.trowel }

/-- A write of elements from the resume point `resume` (R325): checked, then issued. A failure stops the channel there. -/
def dcWrite (k : Nat) (addr : Nat) (data : Bytes) (resume : List Nat) (s : State) : State :=
  match dcCheck s k .write addr data.length with
  | some (fa, cause) =>
    dcStop k stAccess 0x02 fa .write cause (dcViol k fa .write cause (modDc k (fun c => c.backTo resume) s))
  | none => modDc k (fun c => { c with wrote := some resume }) (dcWrote k addr data.length (emitWr addr data s))

/-- Write out the gathered lines, oldest first, until one fails (R311). -/
def dcFlush (k : Nat) : Nat → State → State
  | 0, s => s
  | fuel + 1, s =>
    match (s.dc k).lines with
    | [] => s
    | g :: t =>
      if (s.dc k).st = .stopped then s
      else
        let r := earliest (s.dc k)
        dcFlush k fuel (dcWrite k g.addr g.data r (modDc k (fun c => { c with lines := t }) s))

def dcFlushAll (k : Nat) (s : State) : State := dcFlush k ((s.dc k).lines.length) s

/-- A read of one element or of a run of bytes fails its check: the gathered lines go out, then the channel stops (R323, R325). -/
def dcReadFault (k fa cause : Nat) (s : State) : State :=
  let s1 := dcFlushAll k s
  let s2 := dcViol k fa .read cause s1
  if (s1.dc k).st = .stopped then s2 else dcStop k stAccess 0x01 fa .read cause s2

/-! ### Reaching a descriptor or an instruction (R304, R305, R315, R328, R329) -/

def Chan.itemLen (c : Chan) : Nat := if c.trowel then 16 else 48
def Chan.itemAddr (c : Chan) (d : Nat) : Nat := c.dbase.toNat + c.itemLen * d

/-- The read-backs of FENCE, or the fault of one that fails its check (R316). -/
def dcFence (k : Nat) (s : State) : State :=
  let c := s.dc k
  let as := c.port0.toList ++ c.port1.toList
  match as.findSome? (fun a => dcCheck s k .read a 1) with
  | some (fa, cause) => dcStop k stAccess 0x03 fa .read cause (dcViol k fa .read cause s)
  | none => modDc k (fun c => { c with backs := !as.isEmpty }) (as.foldl (fun s a => emitRd a 1 s) s)

/-- The elements of the descriptor are all moved: its completion point is near (R316). -/
def dcAtPoint (k : Nat) (s : State) : State :=
  let s1 := dcFlushAll k (modDc k (fun c => { c with inUnit := false, atPoint := true }) s)
  if (s1.dc k).st = .stopped then s1
  else
    match (s1.dc k).held with
    | some b => if !(s1.dc k).trowel && (readDesc b).fence then dcFence k s1 else s1
    | none => s1

/-- Fields of a trowel instruction (R329). -/
def tOpc (b : Bytes) : Nat := byteAt b 0
def tRa (b : Bytes) : Nat := byteAt b 1 % 16
def tRb (b : Bytes) : Nat := byteAt b 1 / 16
def tF (b : Bytes) : Nat := leAt b 2 2
def tI32 (b : Bytes) : Nat := leAt b 4 4
def tI64 (b : Bytes) : Nat := leAt b 8 8

/-- The largest values of RA, RB, F, I32 and I64 that an instruction's reserved bits leave (R9, R330); none: an undefined
operation. -/
def tLimits (opc : Nat) : Option (Nat × Nat × Nat × Nat × Nat) :=
  match opc with
  | 0x01 => some (15, 0, 0, 0, 2 ^ 48 - 1)
  | 0x02 | 0x03 => some (15, 0, 0, 2 ^ 32 - 1, 0)
  | 0x04 => some (15, 15, 3, 2 ^ 24 - 1, 0)
  | 0x05 => some (15, 15, 3, 2 ^ 16 - 1, 2 ^ 32 - 1)
  | 0x06 => some (0, 0, 255, 31, 0)
  | 0x08 => some (15, 0, 0, 255, 0)
  | 0x09 => some (0, 0, 0, 255, 0)
  | 0x0A => some (0, 0, 31, 0, 0)
  | 0x0B | 0x0D | 0x0E | 0x0F => some (0, 0, 0, 0, 0)
  | 0x0C => some (0, 0, 15, 2 ^ 16, 2 ^ 15 - 1)
  | _ => none

/-- The register numbers of an instruction are in range (R330). -/
def tRegsOk (b : Bytes) : Bool :=
  match tOpc b with
  | 0x01 | 0x02 => decide (tRa b < 8)
  | 0x04 | 0x05 => decide (tRa b < 8) && decide (tRb b < 8)
  | 0x03 | 0x08 => decide (tRa b < 4)
  | _ => true

/-- The judgement of a reached instruction: the detail with which it stops the channel (R326, R330). -/
def tJudge (c : Chan) (b : Bytes) : Option Nat :=
  match tLimits (tOpc b) with
  | none => some 0x83
  | some (ra, rb, f, i32, i64) =>
    if tRa b > ra || tRb b > rb || tF b > f || tI32 b > i32 || tI64 b > i64 || (tOpc b = 0x0C && tI32 b = 0) then some 0x02
    else if !tRegsOk b then some 0x81
    else if tOpc b = 0x0A ∧ 0x12 ≤ tF b then some 0x81
    else if tOpc b = 0x05 && (match c.xcfg with
        | some x => decide (x.toNat % 4 = 0)
        | none => true) then some 0x83
    else none

/-- A descriptor or a WAIT that names another pace source clears the credit (R312). -/
def usePsrc (k p : Nat) (s : State) : State :=
  modDc k (fun c => if c.psrc = p then c else { c with psrc := p, credit := 0 }) s

/-- The instruction or descriptor needs a record place before it runs (R318). -/
def Chan.needsPlace (c : Chan) : Bool :=
  match c.held with
  | none => false
  | some b =>
    decide (c.i0 = 0 ∧ c.i1 = 0 ∧ c.i2 = 0) && (!c.trowel || decide (tOpc b ∈ [0x04, 0x05, 0x0D]))

/-- It needs a pace credit that the channel does not hold (R312). -/
def Chan.needsCredit (c : Chan) : Bool :=
  match c.held with
  | none => false
  | some b => (!c.trowel || decide (tOpc b = 0x0A)) && decide (c.psrc ≠ 0) && decide (c.credit = 0)

/-- The state and RSTALL of a channel between two units of work (R304, R318). -/
def dcSettle (k : Nat) (s : State) : State :=
  let c := s.dc k
  if !(c.st = .running || c.st = .waiting) || c.inUnit || c.atPoint then s
  else if c.needsPlace && !c.place then
    let s1 := modDc k (fun c => { c with st := .waiting, rstall := true }) s
    if c.rstall then s1 else raiseT (dcTen s k).val evDcRecStall s1
  else modDc k (fun c => { c with st := if c.needsCredit then .waiting else .running, rstall := false }) s

/-- A descriptor or instruction is held for the channel as it was read: it is judged as reached (R307, R308, R326, R330). At a
resume, an index not below its count takes the descriptor as complete (R321). -/
def dcTake (k : Nat) (b : Bytes) (s : State) : State :=
  let c := s.dc k
  let hold := fun (s : State) => modDc k (fun c => { c with held := some b, fetching := false }) s
  if c.trowel then
    match tJudge c b with
    | some d => dcUnsup k d s
    | none =>
      let s1 := hold s
      if tOpc b = 0x0A then dcSettle k (usePsrc k (tF b) s1)
      else if tOpc b = 0x0B then dcFence k s1
      else dcSettle k s1
  else
    let d := readDesc b
    if !d.reservedOk then dcUnsup k 0x02 s
    else if 0x12 ≤ d.psrc ∨ d.punit = 3 then dcUnsup k 0x81 s
    else if !d.extents then dcUnsup k 0x82 s
    else
      let s1 := usePsrc k d.psrc (modDc k (fun c => { c with
        n0use := if d.xmode = 1 ∨ d.xmode = 2 then d.count0 else 0 }) (hold s))
      if d.count0 ≤ c.i0 ∨ d.n1 ≤ c.i1 ∨ d.n2 ≤ c.i2 then dcAtPoint k s1
      else dcSettle k s1

/-- The channel reaches descriptor or instruction `desc`: one outside the table stops it and is not fetched (R305, R328); else a copy already
read ahead, or a fetch checked under the active generation (R302, R315). -/
def dcReach (k : Nat) (s : State) : State :=
  let c := s.dc k
  if c.held.isSome || c.fetching then s
  else if c.count ≤ c.desc then dcUnsup k 0x80 s
  else
    match c.pref.find? (fun p => p.1 = c.desc) with
    | some p => dcTake k p.2 (modDc k (fun c => { c with pref := c.pref.filter (fun q => q.1 != p.1) }) s)
    | none =>
      match check s s.gen.act (some (dcTen s k)) (dcWorld s k) .read (c.itemAddr c.desc) c.itemLen with
      | some (fa, cause) =>
        dcStop k stAccess 0x80 fa .read cause
          (violT (dcTen s k).val fa .read cause kindChannel k 0 s.gen.active.toNat s)
      | none =>
        emitRd (c.itemAddr c.desc) c.itemLen (modDc k (fun c => { c with st := .running, fetching := true, fetchPrev := false, pref := [] }) s)

/-- Go on at descriptor or instruction `d`. -/
def dcGoto (k d : Nat) (s : State) : State :=
  dcReach k (modDc k (fun c => { c with
    desc := d
    i0 := 0
    i1 := 0
    i2 := 0
    held := none
    inUnit := false
    atPoint := false
    ahead := []
    wrote := none
    port0 := if c.trowel then c.port0 else none
    port1 := if c.trowel then c.port1 else none }) s)

/-- The channel becomes IDLE (R304). -/
def dcIdle (k : Nat) (s : State) : State :=
  modDc k (fun c => { c.shed false with st := .idle, inUnit := false, lines := [] }) s

/-! ### Pulses and credits (R312, R313) -/

/-- One pace pulse for channel k. -/
def dcCredit (k : Nat) (s : State) : State :=
  let c := s.dc k
  if c.st = .idle then s
  else if c.credit < 15 then dcSettle k (modDc k (fun c => { c with credit := c.credit + 1 }) s)
  else raiseT (dcTen s k).val evDcPaceLost (modDc k (fun c => { c with lost := c.lost.bump }) s)

/-- A pulse of source `src` reaches every channel that names it. -/
def pulseChans (src : Nat) (s : State) : State :=
  eachN (List.range 64) (fun k s => if (s.dc k).psrc = src ∧ src ≠ 0 then dcCredit k s else s) s

/-- DC_PACE_PULSE (R312): sources 0x01 to 0x10; the completion points of source 0x11 give their credits themselves. Credits accrue while the
unit is gated, since the pace logic lies in the time unit (R395). -/
def fxDcPacePulse (src : BitVec 6) (s : State) : State :=
  whenS (decide (1 ≤ src.toNat ∧ src.toNat ≤ 0x10) && s.start.serving && !s.ret.asleep) (pulseChans src.toNat) s
def execDcPacePulse (src : BitVec 6) (s : State) : Host.Outcome State Fault Refusal := .next (fxDcPacePulse src s)

/-- A completion point of channel j gives a credit to the channels it paces, of the same tenant (R313). -/
def chanCredits (j : Nat) (s : State) : State :=
  eachN (List.range 64) (fun k s =>
    if (s.dc k).psrc = 0x11 ∧ (s.dc k).pch = j ∧ dcTen s k = dcTen s j ∧ dcAssigned s k = true then dcCredit k s else s) s

/-! ### AH_DCk_CTL (R304, R320 to R322, R331, R507) -/

/-- The indices of the first element not moved. -/
def Chan.pos (c : Chan) : Nat × Nat × Nat := (c.i0, c.i1, c.i2)

/-- The indices after element (i0, i1, i2), and whether loop 0, loop 1 and the whole pattern ended there (R308). Behind the last element
stands one that is not below its count (R320, R321). -/
def advance (d : Desc) (i0 i1 i2 : Nat) : (Nat × Nat × Nat) × Bool × Bool × Bool :=
  if i0 + 1 < d.count0 then ((i0 + 1, i1, i2), false, false, false)
  else if i1 + 1 < d.n1 then ((0, i1 + 1, i2), true, false, false)
  else ((0, 0, i2 + 1), true, true, decide (d.n2 ≤ i2 + 1))

/-- The element is moved: the indices go on, and a unit or the descriptor ends (R308, R312, R316). -/
def dcAdvance (k : Nat) (d : Desc) (s : State) : State :=
  let c := s.dc k
  let r := advance d c.i0 c.i1 c.i2
  let unitEnd := match d.punit with
    | 1 => r.2.2.1
    | 2 => r.2.1
    | _ => false
  let s1 := modDc k (fun c => { c with i0 := r.1.1, i1 := r.1.2.1, i2 := r.1.2.2 }) s
  if r.2.2.2 then dcAtPoint k s1
  else if unitEnd then
    let s2 := dcFlushAll k s1
    if (s2.dc k).st = .stopped then s2 else dcSettle k (modDc k (fun c => { c with inUnit := false }) s2)
  else s1

/-- The channel takes the active generation (R302). -/
def dcTag (k : Nat) (s : State) : State :=
  modDc k (fun c => { c with heldTag := s.gen.active, unitPrev := false, moved := 0 }) s

/-- Bytes moved since the generation was taken; it is taken afresh after 4 KiB (R302). -/
def dcMoved (k n : Nat) (s : State) : State :=
  let m := (s.dc k).moved + n
  if 4096 ≤ m then dcTag k s else modDc k (fun c => { c with moved := m }) s

/-- The bytes of an element join the line of their stream `key`, where they are contiguous with it; a line that cannot take them goes out
first, and a full line goes out (R309, R311). -/
def dcGather (k key addr : Nat) (data : Bytes) (s : State) : State :=
  let c := s.dc k
  let g0 : GLine := ⟨key, addr, data, c.i0, c.i1, c.i2⟩
  let full (g : GLine) (s : State) : State :=
    if 64 ≤ g.data.length then dcWrite k g.addr g.data (earliest { s.dc k with lines := g :: (s.dc k).lines }) s
    else modDc k (fun c => { c with lines := c.lines ++ [g] }) s
  match c.lines.find? (fun g => g.key = key) with
  | some g =>
    let s1 := modDc k (fun c => { c with lines := c.lines.filter (fun h => h.key != key) }) s
    if g.addr + g.data.length = addr ∧ g.data.length + data.length ≤ 64 then full { g with data := g.data ++ data } s1
    else
      let s2 := dcWrite k g.addr g.data (earliest c) s1
      if (s2.dc k).st = .stopped then s2 else full g0 s2
  | none => full g0 s

/-- The current element, whose bytes have been read, is converted, joins its line, and the channel goes on (R309 to R311). -/
def dcMove (k : Nat) (d : Desc) (data : Bytes) (s : State) : State :=
  let c := s.dc k
  let out := if d.xmode = 0 then data else convSample d.lenOut (d.ctl.testBit 12) (d.ctl.testBit 13) data
  let s1 := dcGather k (if d.xmode = 2 then c.i0 else 0) (patAddr d.dst d.ds [c.i0, c.i1, c.i2]).toNat out s
  if (s1.dc k).st = .stopped then s1 else dcMoved k d.lenOut (dcAdvance k d s1)

/-- The bytes of the current element, where they have been read ahead. -/
def Chan.readOf (c : Chan) : Option GLine := c.ahead.find? (fun g => decide ((g.i0, g.i1, g.i2) = c.pos))

/-- The current element, read ahead, is moved. -/
def dcMoveRead (k : Nat) (d : Desc) (s : State) : State :=
  match (s.dc k).readOf with
  | some g => dcMove k d g.data (modDc k (fun c => { c with ahead := c.ahead.filter (fun h => decide ((h.i0, h.i1, h.i2) ≠ c.pos)) }) s)
  | none => s

/-- Every element of the unit whose read was issued is completed, in loop order (R320). -/
def dcComplete (k : Nat) : Nat → State → State
  | 0, s => s
  | fuel + 1, s =>
    match (s.dc k).held with
    | some b =>
      if (s.dc k).inUnit && decide ((s.dc k).st = .running) && (s.dc k).readOf.isSome then dcComplete k fuel (dcMoveRead k (readDesc b) s)
      else s
    | none => s

/-- PAUSE (R320): the channel is at an element boundary between two commands; elements read in its unit are completed, the gathered lines
go out, and what is read ahead beyond the resume point goes. -/
def dcSetPause (k : Nat) (s : State) : State :=
  let s1 := modDc k (fun c => { c with pause := true }) s
  if (s.dc k).st = .running ∨ (s.dc k).st = .waiting then
    let s2 := dcFlushAll k (dcComplete k ((s.dc k).ahead.length) s1)
    if (s2.dc k).st = .stopped then s2 else modDc k (fun c => { c with st := .paused, rstall := false, ahead := [] }) s2
  else s1

/-- A channel that begins to run while its unit is to be gated, or as the host chip asks for retention, pauses at once (R394, R412). -/
def dcHoldBack (k : Nat) (s : State) : State :=
  if s.clk.pending.toNat.testBit 24 || s.ret.req then
    whenS (decide ((s.dc k).st = .running ∨ (s.dc k).st = .waiting)) (dcSetPause k) s
  else s

/-- GO, in a write that has PAUSE 0 (R304). Where the channel was IDLE, source 0x00 counts as the pace source in use, so that a first
descriptor or WAIT with another source clears the credits left and one with source 0x00 keeps them (DESIGN CHOICE, notes/assumptions/15.md). -/
def dcStart (k : Nat) (s : State) : State :=
  let c := s.dc k
  let s1 := modDc k (fun c => { c with pause := false }) s
  match c.st with
  | .idle =>
    dcHoldBack k (dcReach k (modDc k (fun c => { c.shed false with
      st := .running
      desc := fld c.first 15 0
      i0 := 0
      i1 := 0
      i2 := 0
      n0use := 0
      psrc := 0
      heldTag := 0
      unitPrev := false
      moved := 0
      inUnit := false
      lines := []
      wrote := none
      port0 := none
      port1 := none
      aregs := []
      cregs := []
      xcfg := none }) s1))
  | .paused =>
    let s2 := modDc k (fun c => { c with st := .running }) s1
    dcHoldBack k (if c.held.isSome then dcSettle k s2 else dcReach k s2)
  | .stopped => if c.fault then s1 else dcHoldBack k (dcReach k (modDc k (fun c => { c with st := .running }) s1))
  | _ => s1

/-- PAUSE written 0 (R320). -/
def dcClearPause (k : Nat) (s : State) : State :=
  if (s.dc k).st = .paused then dcStart k s else modDc k (fun c => { c with pause := false }) s

/-- REFETCH (R321). -/
def dcDropCopies (k : Nat) (s : State) : State :=
  modDc k (fun c => if c.st = .paused then c.shed false else c) s

/-- ABORT (R322): gathered lines go, the record carries the resume point. -/
def dcAbort (k : Nat) (s : State) : State :=
  let c := s.dc k
  if c.st = .idle then s
  else
    let r := earliest c
    let s1 := modDc k (fun c => c.backTo r) s
    match dcRecord k stAborted 0x80 [r.getD 2 0, r.getD 1 0, r.getD 0 0] 0 .read s1 with
    | some s2 => dcIdle k s2
    | none =>
      match dcCheck s1 k .write (dcRecAddr (s1.dc k)) 32 with
      | some (fa, cause) => dcRecordFault k stAccess fa cause (dcViol k fa .write cause s1)
      | none => dcIdle k s1

/-- A write to AH_DCk_CTL while the channel is not assigned, or to a disabled tenant, is dropped (R301). -/
def gateDc (who : Who) (k : ChanIx) (val : Word) (f : State → State) (s : State) : State :=
  gateW who (.dcCtl k) val (fun s => if dcAssigned s k.val then f s else dropReg who (.dcCtl k) val s) s

/-- CLRCRED (R312): a channel that waited for its place alone now waits for a credit too. -/
def dcClrcred (k : Nat) (s : State) : State := dcSettle k (modDc k (fun c => { c with credit := 0 }) s)

/-- A whole write to AH_DCk_CTL: ABORT governs, then PAUSE over GO; REFETCH comes before a resume (R331, R507). -/
def dcCtlWrite (k : Nat) (mask val : Word) (s : State) : State :=
  if mask &&& 0x1F = 0 then s
  else
    let s1 := if bitOf val 4 then dcClrcred k s else s
    if bitOf val 2 then dcAbort k s1
    else
      let s2 := if bitOf val 3 then dcDropCopies k s1 else s1
      if bitOf val 1 then (if (s2.dc k).pause then s2 else dcSetPause k s2)
      else if bitOf val 0 then dcStart k s2
      else if (s2.dc k).pause then dcClearPause k s2 else s2

def fxDcGo (who : Who) (k : ChanIx) (s : State) : State := gateDc who k 1 (dcStart k.val) s
def execDcGo (who : Who) (k : ChanIx) (s : State) : Host.Outcome State Fault Refusal := .next (fxDcGo who k s)

def fxDcPause (who : Who) (k : ChanIx) (s : State) : State := gateDc who k 2 (dcSetPause k.val) s
def execDcPause (who : Who) (k : ChanIx) (s : State) : Host.Outcome State Fault Refusal := .next (fxDcPause who k s)

def fxDcResume (who : Who) (k : ChanIx) (s : State) : State := gateDc who k 0 (dcClearPause k.val) s
def execDcResume (who : Who) (k : ChanIx) (s : State) : Host.Outcome State Fault Refusal := .next (fxDcResume who k s)

def fxDcAbort (who : Who) (k : ChanIx) (s : State) : State := gateDc who k 4 (dcAbort k.val) s
def execDcAbort (who : Who) (k : ChanIx) (s : State) : Host.Outcome State Fault Refusal := .next (fxDcAbort who k s)

def fxDcRefetch (who : Who) (k : ChanIx) (s : State) : State := gateDc who k 0xA (dcDropCopies k.val) s
def execDcRefetch (who : Who) (k : ChanIx) (s : State) : Host.Outcome State Fault Refusal := .next (fxDcRefetch who k s)

def fxDcClrcred (who : Who) (k : ChanIx) (s : State) : State :=
  gateDc who k 0x10 (dcClrcred k.val) s
def execDcClrcred (who : Who) (k : ChanIx) (s : State) : Host.Outcome State Fault Refusal := .next (fxDcClrcred who k s)

/-! ### Configuration writes (R503) -/

/-- AH_DCk_DCOUNT in the range of a mode (R305, R328). -/
def dcountClamp (trowel : Bool) (w : Word) : Word := if trowel then BitVec.ofNat 64 (min 256 (fld w 15 0)) else w

/-- A write to one of channel k's configuration registers (R503). -/
def dcConfig (who : Who) (k : ChanIx) (r : DcSetup) (mask val : Word) (s : State) : State :=
  let c := s.dc k.val
  let idle := decide (c.st = .idle)
  match r with
  | .cfg =>
    if idle then modDc k.val (fun c =>
      let new := (Reg.dcCfg k).write c.cfg mask val
      { c with cfg := new, dcount := if bitOf new 0 = c.trowel then c.dcount else dcountClamp (bitOf new 0) c.dcount }) s
    else dropPiece who (.dcCfg k) mask val s
  | .dbase =>
    if idle then modDc k.val (fun c => { c with dbase := (Reg.dcDbase k).write c.dbase mask val }) s
    else dropPiece who (.dcDbase k) mask val s
  | .dcount =>
    if idle then modDc k.val (fun c => { c with dcount := dcountClamp c.trowel ((Reg.dcDcount k).write c.dcount mask val) }) s
    else dropPiece who (.dcDcount k) mask val s
  | .first =>
    if idle then modDc k.val (fun c => { c with first := (Reg.dcFirst k).write c.first mask val }) s
    else dropPiece who (.dcFirst k) mask val s
  | .post => modDc k.val (fun c => { c with post := (Reg.dcPost k).write c.post mask val }) s
  | .recBase =>
    if c.recEn then dropPiece who (.dcRecBase k) mask val s
    else modDc k.val (fun c => { c with recBase := (Reg.dcRecBase k).write c.recBase mask val, recHead := 0, recTail := 0 }) s
  | .recCfg =>
    let new := (Reg.dcRecCfg k).write c.recCfg mask val
    if fld new 3 0 = c.recK then dcSettle k.val (modDc k.val (fun c => { c with recCfg := new }) s)
    else if c.recEn then dropPiece who (.dcRecCfg k) mask val s
    else modDc k.val (fun c => { c with recCfg := new, recHead := 0, recTail := 0 }) s

def dcSetupReg (k : ChanIx) : DcSetup → Reg
  | .cfg => .dcCfg k
  | .dbase => .dcDbase k
  | .dcount => .dcDcount k
  | .first => .dcFirst k
  | .post => .dcPost k
  | .recBase => .dcRecBase k
  | .recCfg => .dcRecCfg k

def fxDcConfigWrite (who : Who) (k : ChanIx) (r : DcSetup) (v : Word) (s : State) : State :=
  gateW who (dcSetupReg k r) v (dcConfig who k r (~~~ 0) v) s
def execDcConfigWrite (who : Who) (k : ChanIx) (r : DcSetup) (v : Word) (s : State) : Host.Outcome State Fault Refusal :=
  .next (fxDcConfigWrite who k r v s)

/-- The judgement of a written head (R116): the head it leaves, and whether it was clamped. -/
def judgeHead (k head tail new : Nat) : Nat × Bool :=
  let md := 2 ^ (k + 1)
  let a := (new % md + md - head % md) % md
  if a ≤ occ k head tail then (new % md, false) else if a ≤ 2 ^ k then (tail, true) else (head, true)

/-- DC_REC_HEAD_WRITE (R318): a channel that waits for a place goes on. -/
def dcHead (k new : Nat) (s : State) : State :=
  dcSettle k (modDc k (fun c => { c with recHead := (judgeHead c.recK c.recHead c.recTail new).1 }) s)
def fxDcRecHeadWrite (who : Who) (k : ChanIx) (head : BitVec 11) (s : State) : State :=
  gateW who (.dcRecHead k) (head.setWidth 64) (dcHead k.val head.toNat) s
def execDcRecHeadWrite (who : Who) (k : ChanIx) (head : BitVec 11) (s : State) : Host.Outcome State Fault Refusal :=
  .next (fxDcRecHeadWrite who k head s)

/-! ### Fetches, units and elements (R308 to R316) -/

/-- The descriptor or instruction that follows the last one read (R315, R328): along NEXT for descriptors, in straight-line
order for instructions; none past the end of the table. -/
def Chan.following (c : Chan) : Option Nat :=
  let last : Option (Nat × Bytes) := match c.pref.getLast? with
    | some p => some p
    | none => c.held.map (fun b => (c.desc, b))
  match last with
  | none => none
  | some (d, b) =>
    let n := if c.trowel then d + 1 else (readDesc b).next
    if n < c.count then some n else none

/-- DESCRIPTOR_FETCH_RETURN (R315): a fetch that the channel no longer waits for, which comes first (DESIGN CHOICE, notes/assumptions/15.md);
the copy of the descriptor reached; or one read ahead, up to two descriptors or eight instructions, outside no-prefetch regions, whose read
passes its check. -/
def fxDescriptorFetchReturn (k : ChanIx) (data : Bytes) (s : State) : State :=
  let c := s.dc k.val
  whenS (dcuOn s && decide (data.length = c.itemLen)) (fun s =>
    if c.strays.any (fun x => !x.back) then modDc k.val (Chan.drop false) s
    else if c.fetching then
      (if c.st = .paused then modDc k.val (fun c => { c with fetching := false, pref := [(c.desc, data)] }) s
       else dcTake k.val data (modDc k.val (fun c => { c with fetching := false }) s))
    else
      match c.following with
      | none => s
      | some n =>
        whenS (decide (c.pref.length < (if c.trowel then 8 else 2))
            && !noPrefetch s s.gen.act (some (dcTen s k.val)) (dcWorld s k.val) (c.itemAddr n) c.itemLen
            && (check s s.gen.act (some (dcTen s k.val)) (dcWorld s k.val) .read (c.itemAddr n) c.itemLen).isNone)
          (fun s => emitRd (c.itemAddr n) c.itemLen (modDc k.val (fun c => { c with pref := c.pref ++ [(n, data)] }) s)) s) s
def execDescriptorFetchReturn (k : ChanIx) (data : Bytes) (s : State) : Host.Outcome State Fault Refusal :=
  .next (fxDescriptorFetchReturn k data s)

/-- DC_UNIT_START (R312): takes a credit where the unit is paced, and the active generation. -/
def fxDcUnitStart (k : ChanIx) (s : State) : State :=
  let c := s.dc k.val
  whenS (dcuOn s && (c.st = .running || c.st = .waiting) && !c.trowel && c.held.isSome && !c.inUnit && !c.atPoint
      && (c.place || !c.needsPlace) && !c.needsCredit)
    (fun s => dcTag k.val (modDc k.val (fun c => { c with
      st := .running
      inUnit := true
      rstall := false
      credit := if c.psrc = 0 then c.credit else c.credit - 1 }) s)) s
def execDcUnitStart (k : ChanIx) (s : State) : Host.Outcome State Fault Refusal := .next (fxDcUnitStart k s)

/-- The class of channel k (R45, R309). -/
def dcCls (s : State) (k : Nat) : Nat :=
  if classAllowedIn s s.gen.act (dcTen s k) (fld (s.dc k).cfg 5 4) then fld (s.dc k).cfg 5 4 else 2

/-- A channel that has an element to move: inside a unit, or at a MOVE or XMOVE. -/
def Chan.ready (c : Chan) : Bool :=
  decide (c.st = .running) && (match c.held with
    | some b => if c.trowel then (c.place || !c.needsPlace) && decide (tOpc b = 0x04 ∨ tOpc b = 0x05) else c.inUnit
    | none => false)

/-- Channel k has an element to move in a class. -/
def dcReady (s : State) (cls k : Nat) : Bool := (s.dc k).ready && decide (dcCls s k = cls)

/-- The channel that the next element is granted to: the class in the order of R75, then round robin behind the channel that the class
served last (R309). -/
def dcPick (s : State) : Option Nat :=
  (turnClass (fun c => (List.range 64).any (dcReady s c)) s.sch.dcRun).bind (fun c =>
    ((List.range 64).map (fun i => (s.sch.dcLast.look 63 c + 1 + i) % 64)).find? (dcReady s c))

def dcTurn (s : State) (k : Nat) : Bool := decide (dcPick s = some k)

/-- Channel k has had its turn. -/
def dcServed (k : Nat) (s : State) : State :=
  let cls := dcCls s k
  modSch (fun c => { c with dcRun := if cls = 1 then c.dcRun + 1 else if cls = 2 then 0 else c.dcRun, dcLast := c.dcLast.put 63 cls k }) s

/-! ### Reads of elements (R309, R311, R314) -/

def Desc.srcAt (d : Desc) (i : Nat × Nat × Nat) : Nat := (patAddr d.src d.ss [i.1, i.2.1, i.2.2]).toNat

/-- The element that follows in loop order, or in the stream for INTERLEAVE, whose reads are gathered stream by stream. -/
def Desc.after (d : Desc) (i : Nat × Nat × Nat) : Option (Nat × Nat × Nat) :=
  let r := advance d i.1 i.2.1 i.2.2
  if r.2.2.2 then none else some r.1
def Desc.beside (d : Desc) (i : Nat × Nat × Nat) : Option (Nat × Nat × Nat) :=
  if d.xmode ≠ 1 then d.after i
  else if i.2.1 + 1 < d.n1 then some (i.1, i.2.1 + 1, i.2.2)
  else if i.2.2 + 1 < d.n2 then some (i.1, 0, i.2.2 + 1)
  else none

/-- Two elements of one unit of work (R312). -/
def Desc.oneUnit (d : Desc) (i j : Nat × Nat × Nat) : Bool :=
  match d.punit with
  | 1 => decide (i.2.2 = j.2.2)
  | 2 => decide (i.2 = j.2)
  | _ => true

/-- The elements of one read of m contiguous elements from element i; fewer where the pattern has none there. -/
def Desc.reads (d : Desc) : Nat → Nat × Nat × Nat → List (Nat × Nat × Nat)
  | 0, _ => []
  | m + 1, i => i :: (if m = 0 then [] else match d.beside i with
    | some j => if d.srcAt j = d.srcAt i + d.lenIn then d.reads m j else []
    | none => [])

def Chan.isRead (c : Chan) (i : Nat × Nat × Nat) : Bool := c.ahead.any (fun g => decide ((g.i0, g.i1, g.i2) = i))

/-- The first element, in loop order from element i, that has not been read. -/
def Chan.unread (c : Chan) (d : Desc) : Nat → Nat × Nat × Nat → Option (Nat × Nat × Nat)
  | 0, i => some i
  | fuel + 1, i => if c.isRead i then (d.after i).bind (c.unread d fuel) else some i

/-- The bytes read ahead; of one stream for INTERLEAVE. -/
def Chan.aheadLen (c : Chan) (p : GLine → Bool) : Nat := ((c.ahead.filter p).map (fun g => g.data.length)).sum

/-- A read of elements is allowed: one element that is to be moved; or, outside no-prefetch regions, contiguous elements of up to 64 bytes,
at most 4 KiB ahead, within the unit and before its pulse only with PREREAD (R309, R311, R314). -/
def dcMayRead (s : State) (k : Nat) (d : Desc) (is : List (Nat × Nat × Nat)) (move : Bool) : Bool :=
  let c := s.dc k
  let n := is.length * d.lenIn
  let a := d.srcAt (is.headD c.pos)
  (move && decide (is = [c.pos]))
    || (decide (n ≤ 64) && !noPrefetch s (s.rules c.unitPrev) (some (dcTen s k)) (dcWorld s k) a n
      && (dcCheck s k .read a n).isNone
      && decide (c.aheadLen (fun _ => true) + n ≤ 4096)
      && (decide (d.xmode ≠ 1) || decide (c.aheadLen (fun g => decide (g.i0 = (is.headD c.pos).1)) + n ≤ 64))
      && is.all (fun i => !c.isRead i && (d.xmode != 1 || d.oneUnit c.pos i)
        && ((c.inUnit && d.oneUnit c.pos i) || decide (c.psrc = 0) || d.ctl.testBit 26)))

/-- The elements of a read are held until they are moved. -/
def dcRead (k : Nat) (d : Desc) (is : List (Nat × Nat × Nat)) (data : Bytes) (s : State) : State :=
  emitRd (d.srcAt (is.headD (0, 0, 0))) data.length (modDc k (fun c => { c with ahead := c.ahead ++ is.zipIdx.map (fun p =>
    ⟨0, d.srcAt p.1, slice data (p.2 * d.lenIn) d.lenIn, p.1.1, p.1.2.1, p.1.2.2⟩) }) s)

/-- DC_ELEMENT_GRANT (R308 to R311): `data` is what a read of the next elements brings, none where the element was read before; with
`move` the current element is then converted and written, else the read only runs ahead (R314). -/
def fxDcElementGrant (k : ChanIx) (data : Bytes) (move : Bool) (s : State) : State :=
  let c := s.dc k.val
  match c.held with
  | none => s
  | some b =>
    let d := readDesc b
    let is := ((c.unread d c.ahead.length c.pos).map (d.reads (data.length / d.lenIn))).getD []
    whenS (dcuOn s && !c.trowel && !c.atPoint && decide (c.st = .running ∨ c.st = .waiting) && (!move || (c.inUnit && dcTurn s k.val))
        && decide (data.length = is.length * d.lenIn) && (if data = [] then move else dcMayRead s k.val d is move)
        && (!move || c.isRead c.pos || decide (is.head? = some c.pos))) (fun s =>
      match (if data = [] then none else dcCheck s k.val .read (d.srcAt (is.headD c.pos)) data.length) with
      | some (fa, cause) => dcReadFault k.val fa cause s
      | none =>
        let s1 := if data = [] then s else dcRead k.val d is data s
        if move then dcMoveRead k.val d (dcServed k.val s1) else s1) s
def execDcElementGrant (k : ChanIx) (data : Bytes) (s : State) (move : Bool := true) : Host.Outcome State Fault Refusal :=
  .next (fxDcElementGrant k data move s)

/-! ### Completion point (R316, R317) -/

/-- The identity with which channel k writes a doorbell (R317). -/
def dcWho (s : State) (k : Nat) : Who := ⟨dcMid s k, dcWorld s k, false⟩

/-- POST as a doorbell write with the channel's identity (R59, R62, R63, R317). A drop under R62 also sets POSTDROP and raises
EV_DC_POST_DROP. -/
def dcPost (k sq adv count : Nat) (meets : Bool) (s : State) : State :=
  let n := dcTen s k
  let m : RingIx := Fin.ofNat 16 sq
  let s1 := dbWrite (dcWho s k) n m (((s.sq n m).tail + adv) % 2 ^ 17) count meets s
  if doorbellDropped s n m then raiseT n.val evDcPostDrop (modDc k (fun c => { c with postdrop := true }) s1) else s1

/-- The DONE record of a descriptor or of RECORD (R316, R319, R326). -/
def dcDone (k : Nat) (s : State) : State :=
  match dcRecord k stDone 0 [0, 0, 0] 0 .read s with
  | some s1 => s1
  | none =>
    match dcCheck s k .write (dcRecAddr (s.dc k)) 32 with
    | some (fa, cause) => dcRecordFault k stAccess fa cause (dcViol k fa .write cause s)
    | none => s

/-- The descriptor has reached its completion point: its writes have left and its read-backs have returned (R316). -/
def Chan.due (c : Chan) : Bool := decide (c.st = .running) && !c.trowel && c.atPoint && !c.backs

/-- The actions of a completion point but the last: POST, RECORD, EVENT and credits (R316). -/
def dcActs (k : Nat) (b : Bytes) (meets : Bool) (s : State) : State :=
  let c := s.dc k
  let d := readDesc b
  let s1 := if d.ctl.testBit 23 then dcPost k (fld c.post 3 0) (fld c.post 48 32) (fld c.post 30 16) meets s else s
  let s2 := if d.ctl.testBit 22 then dcDone k s1 else s1
  if (s2.dc k).st = .stopped then s2
  else
    let s3 := if d.ctl.testBit 24 then raiseT (dcTen s k).val evDcDesc s2 else s2
    chanCredits k s3

/-- The last action: HALT, or the move to NEXT (R305, R316). -/
def dcNext (k : Nat) (d : Desc) (s : State) : State :=
  if (s.dc k).st = .stopped then s
  else if d.ctl.testBit 25 || d.next = 0xFFFF then dcIdle k s
  else dcGoto k d.next s

/-- DC_COMPLETION_POINT (R316): the read-backs return, where there are any; those that the channel no longer waits for come first, and a
paused channel acts after its resume. -/
def fxDcCompletionPoint (k : ChanIx) (meets : Bool) (s : State) : State :=
  let c := s.dc k.val
  whenS (dcuOn s) (fun s =>
    if c.strays.any (fun x => x.back) then modDc k.val (Chan.drop true) s
    else
      match c.held with
      | none => s
      | some b => whenS (!c.trowel && c.atPoint) (fun s =>
          let s1 := modDc k.val (fun c => { c with backs := false }) s
          if c.st = .running then dcNext k.val (readDesc b) (dcActs k.val b meets s1) else s1) s) s
def execDcCompletionPoint (k : ChanIx) (s : State) (meets : Bool := false) : Host.Outcome State Fault Refusal :=
  .next (fxDcCompletionPoint k meets s)

/-! ### Stops from outside the channel (R303, R324, R432) -/

/-- The reset values of channel k's slot; its accesses in flight are let leave (R303). -/
def dcClear (k : Nat) (s : State) : State :=
  modDc k (fun c => { strays := (c.shed true).strays.map (fun x => { x with taken := true }) }) s

/-- A changed assignment or a disabled tenant (R303): a completion point already reached acts in full (R331); then the record, checked under
the former generation, which is the active one still; then the slot's reset values. -/
def dcReassign (k detail : Nat) (s : State) : State :=
  let s0 := match (s.dc k).held with
    | some b => if (s.dc k).due then dcActs k b false s else s
    | none => s
  let r := earliest (s0.dc k)
  let s1 := modDc k (fun c => { c with heldTag := 0, unitPrev := false }) s0
  dcClear k (match dcRecord k stFlushed detail [r.getD 2 0, r.getD 1 0, r.getD 0 0] 0 .read s1 with
    | some s2 => s2
    | none =>
      match dcCheck s1 k .write (dcRecAddr (s1.dc k)) 32 with
      | some (fa, cause) => dcViol k fa .write cause s1
      | none => s1)

/-- A POST that channel k has come to, as the descriptor or the instruction says it: ring, advance and COUNT. -/
def Chan.posting (c : Chan) : Option (Nat × Nat × Nat) :=
  match c.held with
  | some b =>
    if c.due && (readDesc b).ctl.testBit 23 then some (fld c.post 3 0, fld c.post 48 32, fld c.post 30 16)
    else if c.trowel && decide (c.st = .running) && decide (tOpc b = 0x0C) then some (tF b, tI32 b, tI64 b)
    else none
  | none => none

/-- A tenant reset takes channel k (R303). A POST that it has come to is dropped under R62 without POSTDROP (R331). -/
def dcReset (k : Nat) (s : State) : State :=
  let n := dcTen s k
  dcClear k (match (s.dc k).posting with
    | some (sq, adv, count) =>
      dropReg (dcWho s k) (.dbSq n (Fin.ofNat 16 sq))
        (BitVec.ofNat 64 (((s.sq n (Fin.ofNat 16 sq : RingIx)).tail + adv) % 2 ^ 17 + 2 ^ 17 * count)) s
    | none => s)

/-- A bus error on a merged prefetch (R324): every channel of the tenant that is not IDLE stops. -/
def dcMergedFault (n : Nat) (addr : Nat) (s : State) : State :=
  let s1 := modTen n (fun t => if t.gfault.isSome then t else { t with gfault := some (BitVec.ofNat 48 addr) }) s
  let s2 := raiseT n evDcPrefFault (raiseG gDcPrefFault s1)
  eachN (List.range 64) (fun k s =>
    if dcAssigned s k = true ∧ (dcTen s k).val = n ∧ (s.dc k).st ≠ .idle ∧ (s.dc k).st ≠ .stopped then
      (let s3 := dcFlushAll k s
       if (s3.dc k).st = .stopped then s3 else dcStop k stBus 0x82 addr .read 0 s3)
    else s) s2


/-- The channel has moved nothing since its slot came to its reset values or since its GO, and is IDLE: such an access was not its own. -/
def Chan.fresh (c : Chan) : Bool := decide (c.st = .idle) && decide (c.heldTag = 0)

/-- A read of elements ended in a bus error: those read ahead before it are moved, the lines go out, and the channel stops there (R325). -/
def dcElementError (k addr : Nat) (s : State) : State :=
  let before := (s.dc k).ahead.takeWhile (fun g => !(decide (g.addr ≤ addr) && decide (addr < g.addr + g.data.length)))
  let s1 := dcFlushAll k (dcComplete k before.length (modDc k (fun c => { c with ahead := before }) s))
  if (s1.dc k).st = .stopped then s1 else dcStop k stBus 0x01 addr .read 0 s1

/-- A bus error on one of the channel's own accesses, whatever its state (R323, R326, R331). A write that fails is taken for the last that
the channel issued, and a read for the oldest that it no longer waits for, else for its fetch, its read-backs or its elements (DESIGN CHOICE,
notes/assumptions/15.md). An access of a channel that R303 took stops nothing. -/
def dcBusError (k : Nat) (addr : Nat) (d : Dir) (pref : Bool) (s : State) : State :=
  let c := s.dc k
  let inRec := c.recEn && decide (c.recBase.toNat ≤ addr) && decide (addr < c.recBase.toNat + 32 * 2 ^ c.recK)
  match d, c.strays with
  | .write, _ =>
    if inRec then dcRecordFault k stBus addr 0 (modDc k (fun c => { c with
      recTail := (c.recTail + 2 ^ (c.recK + 1) - 1) % 2 ^ (c.recK + 1) }) s)
    else if c.fresh then s
    else dcStop k stBus 0x02 addr .write 0 (modDc k (fun c => c.backTo (c.wrote.getD (earliest c))) s)
  | .read, x :: _ =>
    if pref then dcStop k stBus 0x80 addr .read 0 s
    else
      let s1 := modDc k (fun c => { c with strays := c.strays.tail }) s
      if x.taken then s1 else dcStop k stBus (if x.back then 0x03 else 0x80) addr .read 0 s1
  | .read, [] =>
    if pref then (if c.fresh then s else dcStop k stBus 0x80 addr .read 0 s)
    else if c.fetching then dcStop k stBus 0x80 addr .read 0 (modDc k (fun c => { c with fetching := false }) s)
    else if c.backs then dcStop k stBus 0x03 addr .read 0 (modDc k (fun c => { c with backs := false }) s)
    else if c.fresh then s
    else dcElementError k addr s

end Sys2Proof.Machine
end

