-- ==== Sys2Proof/Machine/Trowel.lean ====
section
/-!
DEFINITION. Trowel programs (R328 to R330): one meaning for each instruction, which runs when the channel has reached it. A MOVE or
XMOVE runs in pieces of at most 4 KiB, so that a pause finds it at an element boundary (R320) and a new generation is
taken after every 4 KiB (R302).
-/

namespace Sys2Proof.Machine

/-- The instruction that the channel has reached, where it has operation code `opc` and the channel runs. -/
def tRun (k : ChanIx) (opc : Nat) (f : Bytes → State → State) (s : State) : State :=
  match (s.dc k.val).held with
  | none => s
  | some b =>
    whenS (dcuOn s && decide ((s.dc k.val).st = .running) && (s.dc k.val).trowel && decide (tOpc b = opc)) (f b) s

/-- The next instruction in line; a PC that passes the end stops the channel (R328). -/
def tNext (k : ChanIx) (s : State) : State := dcGoto k.val ((s.dc k.val).desc + 1) s

def tA (s : State) (k : ChanIx) (r : Nat) : Nat := ((s.dc k.val).aregs.look 0 r).toNat
def tC (s : State) (k : ChanIx) (r : Nat) : Nat := ((s.dc k.val).cregs.look 0 r).toNat
def tSetA (k : ChanIx) (r v : Nat) (s : State) : State :=
  modDc k.val (fun c => { c with aregs := c.aregs.put 0 r (BitVec.ofNat 48 v) }) s
def tSetC (k : ChanIx) (r v : Nat) (s : State) : State :=
  modDc k.val (fun c => { c with cregs := c.cregs.put 0 r (BitVec.ofNat 32 v) }) s

def fxSeta (k : ChanIx) (s : State) : State := tRun k 0x01 (fun b s => tNext k (tSetA k (tRa b) (tI64 b) s)) s
def execSeta (k : ChanIx) (s : State) : Host.Outcome State Fault Refusal := .next (fxSeta k s)

/-- ADDA: a sum outside 0 to 2^48 - 1 stops the channel (R330). -/
def fxAdda (k : ChanIx) (s : State) : State :=
  tRun k 0x02 (fun b s =>
    let v := (tA s k (tRa b) : Int) + signed 32 (tI32 b)
    if v < 0 ∨ 2 ^ 48 ≤ v then dcUnsup k.val 0x82 s else tNext k (tSetA k (tRa b) v.toNat s)) s
def execAdda (k : ChanIx) (s : State) : Host.Outcome State Fault Refusal := .next (fxAdda k s)

def fxSetc (k : ChanIx) (s : State) : State := tRun k 0x03 (fun b s => tNext k (tSetC k (tRa b) (tI32 b) s)) s
def execSetc (k : ChanIx) (s : State) : Host.Outcome State Fault Refusal := .next (fxSetc k s)

/-! ### MOVE -/

/-- Offset within a move, held in I0 and I1 (R319). -/
def Chan.off (c : Chan) : Nat := c.i0 + 65536 * c.i1
def tSetOff (k : ChanIx) (o : Nat) (s : State) : State :=
  modDc k.val (fun c => { c with i0 := o % 65536, i1 := o / 65536 }) s

/-- INCS and INCD: the registers go past the bytes of the move (R330). -/
def tInc (k : ChanIx) (r : Nat) (n : Nat) (on : Bool) (s : State) : State :=
  if on then
    (if 2 ^ 48 ≤ tA s k r + n then dcUnsup k.val 0x82 s else tSetA k r (tA s k r + n) s)
  else s

def tMoveEnd (k : ChanIx) (b : Bytes) (ns nd : Nat) (s : State) : State :=
  let s1 := tInc k (tRa b) ns ((tF b).testBit 0) s
  if (s1.dc k.val).st = .stopped then s1
  else
    let s2 := tInc k (tRb b) nd ((tF b).testBit 1) s1
    if (s2.dc k.val).st = .stopped then s2 else tNext k s2

/-- The bytes of a read or of a write that come before its failing byte (R325). -/
def tRoom (bad : Option (Nat × Nat)) (a n : Nat) : Nat :=
  match bad with
  | some (fa, _) => min n (fa - a)
  | none => n

/-- The accesses of up to 64 bytes that a run of contiguous bytes is moved in (R309). -/
def runs64 (a n : Nat) : List (Nat × Nat) := (List.range ((n + 63) / 64)).map (fun i => (a + 64 * i, min 64 (n - 64 * i)))

/-- A run of bytes is read, and written: the resume point of a write that fails is the offset at which the run began. -/
def tCopy (k : ChanIx) (sa da : Nat) (data : Bytes) (s : State) : State :=
  let s1 := (runs64 sa data.length).foldl (fun s p => emitRd p.1 p.2 s) s
  let s2 := (runs64 da data.length).foldl (fun s p => emitWr p.1 (slice data (p.1 - da) p.2) s) s1
  modDc k.val (fun c => { c with wrote := some [c.i2, c.i1, c.i0] }) (dcWrote k.val da data.length s2)

/-- MOVE (R330): `data` is the next run of bytes from A[RA], at most to the next 4 KiB moved. A held offset that is not below the length
takes the move as complete (R321). -/
def fxMove (k : ChanIx) (data : Bytes) (s : State) : State :=
  tRun k 0x04 (fun b s =>
    let c := s.dc k.val
    let l := tI32 b
    whenS ((c.place || !c.needsPlace) && dcTurn s k.val
        && decide (data.length ≤ l - c.off ∧ (0 < data.length ∨ l ≤ c.off) ∧ data.length ≤ 4096 - c.moved % 4096))
      (fun s =>
        let s0 := dcServed k.val (if c.off = 0 then dcTag k.val s else s)
        let sa := tA s k (tRa b) + c.off
        let da := tA s k (tRb b) + c.off
        if l ≤ c.off then tMoveEnd k b l l s0
        else if 2 ^ 48 < tA s k (tRa b) + l ∨ 2 ^ 48 < tA s k (tRb b) + l then dcUnsup k.val 0x82 s0
        else
          let badR := dcCheck s0 k.val .read sa data.length
          let badW := dcCheck s0 k.val .write da data.length
          let n := min (tRoom badR sa data.length) (tRoom badW da data.length)
          let s1 := if n = 0 then s0 else dcMoved k.val n (tSetOff k (c.off + n) (tCopy k sa da (data.take n) s0))
          match badR, badW with
          | some (fa, cause), _ =>
            if fa = sa + n then dcStop k.val stAccess 0x01 fa .read cause (dcViol k.val fa .read cause s1)
            else
              match badW with
              | some (wa, cw) => dcStop k.val stAccess 0x02 wa .write cw (dcViol k.val wa .write cw s1)
              | none => s1
          | none, some (wa, cw) => dcStop k.val stAccess 0x02 wa .write cw (dcViol k.val wa .write cw s1)
          | none, none => if c.off + n = l then tMoveEnd k b l l s1 else s1) s) s
def execMove (k : ChanIx) (data : Bytes) (s : State) : Host.Outcome State Fault Refusal := .next (fxMove k data s)

/-! ### XMOVE -/

/-- Fields of XCFG (R330). -/
def xMode (x : BitVec 13) : Nat := x.toNat % 4
def xIn (x : BitVec 13) : Nat := x.toNat / 4 % 4 + 1
def xOut (x : BitVec 13) : Nat := x.toNat / 16 % 4 + 1
def xIbe (x : BitVec 13) : Bool := x.toNat.testBit 6
def xObe (x : BitVec 13) : Bool := x.toNat.testBit 7
def xNch (x : BitVec 13) : Nat := x.toNat / 256 + 1

/-- Addresses of sample (f, c) on the two sides (R330). -/
def xSrc (x : BitVec 13) (a : Nat) (p : Int) (f c : Nat) : Int :=
  if xMode x = 1 then (a : Int) + c * p + (f * xIn x : Nat) else (a : Int) + ((f * xNch x + c) * xIn x : Nat)
def xDst (x : BitVec 13) (a : Nat) (p : Int) (f c : Nat) : Int :=
  if xMode x = 2 then (a : Int) + c * p + (f * xOut x : Nat) else (a : Int) + ((f * xNch x + c) * xOut x : Nat)

/-- Both sides stay within 0 to 2^48 - 1: the corners of the pattern. -/
def xExtent (x : BitVec 13) (sa da : Nat) (p : Int) (n : Nat) : Bool :=
  [0, n - 1].all (fun f => [0, xNch x - 1].all (fun c =>
    decide (0 ≤ xSrc x sa p f c ∧ xSrc x sa p f c + xIn x ≤ 2 ^ 48) && decide (0 ≤ xDst x da p f c ∧ xDst x da p f c + xOut x ≤ 2 ^ 48)))

/-- The samples of an XMOVE from frame f0, in order, the first of them whose read fails its check, and the fault: the rules are those of the
generation that the channel has taken when it comes to the sample (R302). -/
def xFault (s : State) (k : ChanIx) (x : BitVec 13) (a : Nat) (p : Int) (f0 cnt : Nat) : Option (Nat × Nat × Nat) :=
  let c := s.dc k.val
  (List.range cnt).findSome? (fun j =>
    (check s (s.rules (c.unitPrev && decide (c.moved + j * xOut x < 4096))) (some (dcTen s k.val)) (dcWorld s k.val) .read
      (xSrc x a p (f0 + j / xNch x) (j % xNch x)).toNat (xIn x)).map (fun e => (j, e)))

/-- The reads of the first g samples from frame f0, gathered: stream by stream where the source is planar, else in one run (R309, R311). -/
def xReads (x : BitVec 13) (a : Nat) (p : Int) (f0 g : Nat) (s : State) : State :=
  let run (a n : Nat) (s : State) : State := (runs64 a n).foldl (fun s p => emitRd p.1 p.2 s) s
  if xMode x = 1 then
    eachN (List.range (xNch x)) (fun ch s => run (xSrc x a p f0 ch).toNat ((g + xNch x - 1 - ch) / xNch x * xIn x) s) s
  else run (xSrc x a p f0 0).toNat (g * xIn x) s

/-- One sample of an XMOVE, which has been read, is converted and joins its line; a stopped channel does nothing more. -/
def xSample (k : ChanIx) (x : BitVec 13) (da f ch : Nat) (b : Bytes) (s : State) : State :=
  if (s.dc k.val).st = .stopped then s
  else
    let s1 := dcGather k.val (if xMode x = 2 then ch else 0) da (convSample (xOut x) (xIbe x) (xObe x) b)
      (modDc k.val (fun c => { c with i2 := f }) s)
    if (s1.dc k.val).st = .stopped then s1 else dcMoved k.val (xOut x) s1

/-- XMOVE (R330): `data` is the samples of the next whole frames, frame by frame. A held frame that is not below the count takes the move as
complete (R321). -/
def fxXmove (k : ChanIx) (data : Bytes) (s : State) : State :=
  tRun k 0x05 (fun b s =>
    let c := s.dc k.val
    match c.xcfg with
    | none => dcUnsup k.val 0x83 s
    | some x =>
      let n := tI32 b + 1
      let p := signed 32 (tI64 b)
      let fr := xNch x * xIn x
      let m := data.length / fr
      whenS ((c.place || !c.needsPlace) && dcTurn s k.val
          && decide (data.length = m * fr ∧ (if n ≤ c.i2 then m = 0 else 1 ≤ m ∧ c.i2 + m ≤ n))) (fun s =>
        let s0 := dcServed k.val (if c.i2 = 0 then dcTag k.val s else s)
        let a := tA s k (tRa b)
        let d := tA s k (tRb b)
        let incS := if xMode x = 1 then n * xIn x else n * xNch x * xIn x
        let incD := if xMode x = 2 then n * xOut x else n * xNch x * xOut x
        if !xExtent x a d p n then dcUnsup k.val 0x82 s0
        else if n ≤ c.i2 then tMoveEnd k b incS incD s0
        else
          let bad := xFault s0 k x a p c.i2 (m * xNch x)
          let g := (bad.map Prod.fst).getD (m * xNch x)
          let s1 := eachN (List.range g) (fun j =>
            xSample k x (xDst x d p (c.i2 + j / xNch x) (j % xNch x)).toNat (c.i2 + j / xNch x) (j % xNch x) (slice data (j * xIn x) (xIn x)))
            (xReads x a p c.i2 g s0)
          if (s1.dc k.val).st = .stopped then s1
          else
            let s2 := modDc k.val (fun q => { q with i2 := c.i2 + g / xNch x }) s1
            match bad with
            | some (_, fa, cause) => dcReadFault k.val fa cause s2
            | none =>
              if c.i2 + m < n then s2
              else
                let s3 := dcFlushAll k.val s2
                if (s3.dc k.val).st = .stopped then s3 else tMoveEnd k b incS incD s3) s) s
def execXmove (k : ChanIx) (data : Bytes) (s : State) : Host.Outcome State Fault Refusal := .next (fxXmove k data s)

/-! ### The other instructions -/

def fxXcfg (k : ChanIx) (s : State) : State :=
  tRun k 0x06 (fun b s => tNext k (modDc k.val (fun c => { c with xcfg := some (BitVec.ofNat 13 (tF b + 256 * tI32 b)) }) s)) s
def execXcfg (k : ChanIx) (s : State) : Host.Outcome State Fault Refusal := .next (fxXcfg k s)

/-- LOOP: a counter that is not 0 falls by 1; the jump is taken while the result is not 0. -/
def fxLoop (k : ChanIx) (s : State) : State :=
  tRun k 0x08 (fun b s =>
    let v := tC s k (tRa b)
    if v = 0 then tNext k s
    else if v = 1 then tNext k (tSetC k (tRa b) 0 s)
    else dcGoto k.val (tI32 b) (tSetC k (tRa b) (v - 1) s)) s
def execLoop (k : ChanIx) (s : State) : Host.Outcome State Fault Refusal := .next (fxLoop k s)

def fxJump (k : ChanIx) (s : State) : State := tRun k 0x09 (fun b s => dcGoto k.val (tI32 b) s) s
def execJump (k : ChanIx) (s : State) : Host.Outcome State Fault Refusal := .next (fxJump k s)

/-- WAIT: takes one credit; while there is none the channel is WAITING and the instruction does not run. -/
def fxWait (k : ChanIx) (s : State) : State :=
  tRun k 0x0A (fun _ s =>
    let c := s.dc k.val
    if c.psrc = 0 then tNext k s
    else whenS (decide (0 < c.credit)) (fun s => tNext k (modDc k.val (fun c => { c with credit := c.credit - 1 }) s)) s) s
def execWait (k : ChanIx) (s : State) : Host.Outcome State Fault Refusal := .next (fxWait k s)

/-- FENCE: the read-backs, issued when the instruction was reached, have returned (R316); those that the channel no longer waits for come
first, and a paused channel goes on after its resume. -/
def fxFence (k : ChanIx) (s : State) : State :=
  let c := s.dc k.val
  whenS (dcuOn s) (fun s =>
    if c.strays.any (fun x => x.back) then modDc k.val (Chan.drop true) s
    else
      match c.held with
      | none => s
      | some b => whenS (c.trowel && decide (tOpc b = 0x0B)) (fun s =>
          let s1 := modDc k.val (fun c => { c with backs := false }) s
          if c.st = .running then tNext k (modDc k.val (fun c => { c with port0 := none, port1 := none }) s1) else s1) s) s
def execFence (k : ChanIx) (s : State) : Host.Outcome State Fault Refusal := .next (fxFence k s)

def fxPost (k : ChanIx) (meets : Bool) (s : State) : State :=
  tRun k 0x0C (fun b s => tNext k (dcPost k.val (tF b) (tI32 b) (tI64 b) meets s)) s
def execPost (k : ChanIx) (s : State) (meets : Bool := false) : Host.Outcome State Fault Refusal := .next (fxPost k meets s)

/-- RECORD: waits for a record place (R318). -/
def fxRecord (k : ChanIx) (s : State) : State :=
  tRun k 0x0D (fun _ s => whenS ((s.dc k.val).place) (fun s =>
    let s1 := dcDone k.val s
    if (s1.dc k.val).st = .stopped then s1 else tNext k s1) s) s
def execRecord (k : ChanIx) (s : State) : Host.Outcome State Fault Refusal := .next (fxRecord k s)

def fxEvent (k : ChanIx) (s : State) : State :=
  tRun k 0x0E (fun _ s => tNext k (raiseT (dcTen s k.val).val evDcDesc s)) s
def execEvent (k : ChanIx) (s : State) : Host.Outcome State Fault Refusal := .next (fxEvent k s)

def fxHalt (k : ChanIx) (s : State) : State := tRun k 0x0F (fun _ s => dcIdle k.val s) s
def execHalt (k : ChanIx) (s : State) : Host.Outcome State Fault Refusal := .next (fxHalt k s)

end Sys2Proof.Machine
end

