-- ==== Sys2Proof/Machine/Time.lean ====
section
/-!
DEFINITION. The time unit: the count, captures, steps, comparators, triggers and the budget refill (R347 to R357), with the
commands TIME_CAPT to BUDGET_REFILL, TIME_LOW_WRAP and TCMP_PULSE_END of the opcode table, and what one control cycle does
to the count.
-/

namespace Sys2Proof.Machine

/-- One control cycle of the time count (R347): INC is added while RUN is 1; the wrap of bits [31:0] is noted for its
TIME_MARK (R441). -/
def tick (s : State) : State :=
  if s.run then
    let sum := s.time.ns.toNat * 2 ^ 32 + s.time.frac.toNat + s.own.timeInc.toNat
    let ns := BitVec.ofNat 64 (sum / 2 ^ 32)
    modTime (fun t => { t with
      ns := ns
      frac := BitVec.ofNat 32 sum
      wrapDue := t.wrapDue || decide (ns.toNat / 2 ^ 32 ≠ t.ns.toNat / 2 ^ 32) }) s
  else s

/-- TIME_LOW_WRAP (R441). -/
def fxTimeLowWrap (s : State) : State :=
  whenS s.time.wrapDue (fun s => timeMark (modTime (fun t => { t with wrapDue := false }) s)) s
def execTimeLowWrap (s : State) : Host.Outcome State Fault Refusal := .next (fxTimeLowWrap s)

/-- AH_OWN_SCHED: the reserved tiles and the budget period (R356, R485). -/
def State.resv (s : State) : Nat := fld (s.eff .ownSched) 2 0
def State.period (s : State) : Nat := fld (s.eff .ownSched) 63 32

/-- The first multiple of the period at or above a count. -/
def boundaryAt (period ns : Nat) : Nat := ceilDiv ns period * period

/-- A step of the count (R350, R441): the event, the TIME_STEP record with the counts before and after, a TIME_MARK. A period boundary that
a backward step puts ahead of the count comes again (R366). -/
def timeStep (ns : Word) (s : State) : State :=
  let b := s.time.ns.toNat
  timeMark (journal 0x24 0x10 [b % 2 ^ 32, b / 2 ^ 32, ns.toNat % 2 ^ 32, ns.toNat / 2 ^ 32]
    (raiseG gTimeStep (modSch (fun c => { c with due := min c.due (boundaryAt s.period ns.toNat) }) (modTime (fun t => { t with ns := ns }) s))))

/-! ### AH_OWN_TIME_CTL (R349 to R351, R485) -/

def armCapt (s : State) : State := modOwn (fun o => { o with timeCtl := o.timeCtl ||| 2 }) s
def armSync (s : State) : State := modOwn (fun o => { o with timeCtl := o.timeCtl ||| 4 }) s

def fxTimeCapt (who : Who) (s : State) : State := gateW who .ownTimeCtl 2 armCapt s
def execTimeCapt (who : Who) (s : State) : Host.Outcome State Fault Refusal := .next (fxTimeCapt who s)

def fxTimeSync (who : Who) (s : State) : State := gateW who .ownTimeCtl 4 armSync s
def execTimeSync (who : Who) (s : State) : Host.Outcome State Fault Refusal := .next (fxTimeSync who s)

/-- ADJ_GO: the signed ADJ is added to the integer part (R350). -/
def adjust (s : State) : State :=
  timeStep (s.time.ns + ((s.own.timeAdj.setWidth 32 : BitVec 32).signExtend 64)) s
def fxAdjGo (who : Who) (s : State) : State := gateW who .ownTimeCtl 8 adjust s
def execAdjGo (who : Who) (s : State) : Host.Outcome State Fault Refusal := .next (fxAdjGo who s)

/-- A write of RUN (R351): a change writes a TIME_MARK; clearing raises EV_TIME_STOPPED; setting releases what waited. -/
def setRun (run : Bool) (s : State) : State :=
  if run = s.run then s
  else if run then releasePosted (timeMark (modOwn (fun o => { o with timeCtl := o.timeCtl ||| 1 }) s))
  else timeMark (raiseG gTimeStopped (modOwn (fun o => { o with timeCtl := o.timeCtl &&& ~~~ 1 })
    (modTime (fun t => { t with stopNs := t.ns }) s)))
def fxTimeRunWrite (who : Who) (run : Bool) (s : State) : State :=
  gateW who .ownTimeCtl (if run then 1 else 0) (setRun run) s
def execTimeRunWrite (who : Who) (run : Bool) (s : State) : Host.Outcome State Fault Refusal := .next (fxTimeRunWrite who run s)

/-- TSU_STROBE with an arm set (R349): both snapshots; a load sets the count to the captured value plus SYNCOFS. -/
def fxTsuStrobe (ns : Word) (frac : BitVec 32) (s : State) : State :=
  whenS (bitOf s.own.timeCtl 1 || bitOf s.own.timeCtl 2) (fun s =>
    let sync := bitOf s.own.timeCtl 2
    let s1 := modOwn (fun o => { o with timeCtl := o.timeCtl &&& ~~~ 6 }) (modTime (fun t => { t with
      tsuNs := ns
      tsuFrac := frac
      captNs := t.ns
      captFrac := t.frac
      captDone := true }) s)
    if sync then
      modTime (fun t => { t with frac := frac })
        (timeStep (ns + ((s.own.syncofs.setWidth 32 : BitVec 32).signExtend 64)) s1)
    else s1) s
def execTsuStrobe (ns : Word) (frac : BitVec 32) (s : State) : Host.Outcome State Fault Refusal := .next (fxTsuStrobe ns frac s)

/-! ### Comparators and triggers (R352 to R354) -/

/-- The target after a firing: raised by PER, and by whole periods until it is above the count (R352, R353); the second part
counts the skipped periods. -/
def nextTarget (tgt per ns : Nat) : Nat × Nat :=
  if tgt + per ≤ ns then (tgt + per + ((ns - (tgt + per)) / per + 1) * per, (ns - (tgt + per)) / per + 1)
  else (tgt + per, 0)

/-- COMPARATOR_FIRE (R352): comparator j, enabled and running, has reached its target. -/
def fxComparatorFire (j : Fin 8) (s : State) : State :=
  let c := s.tcmp j.val
  whenS (s.run && bitOf c.ctl 0 && decide (c.tgt.toNat ≤ s.time.ns.toNat)) (fun s =>
    let s1 := modTime (fun t => { t with pulse := t.pulse ||| BitVec.ofNat 8 (2 ^ j.val) }) s
    let s2 := pulseRings (9 + j.val) c.tgt (pulseChans (9 + j.val) s1)
    let s3 := if bitOf c.ctl 16 then raiseG (gTcmp0 + j.val) s2 else s2
    if c.per = 0 then modTcmp j.val (fun c => { c with ctl := c.ctl &&& ~~~ 1 }) s3
    else
      let p := nextTarget c.tgt.toNat c.per.toNat s.time.ns.toNat
      modTime (fun t => { t with tlost := t.tlost.put {} j.val ((t.tlost.look {} j.val).addN p.2) })
        (modTcmp j.val (fun c => { c with tgt := BitVec.ofNat 64 p.1 }) s3)) s
def execComparatorFire (j : Fin 8) (s : State) : Host.Outcome State Fault Refusal := .next (fxComparatorFire j s)

/-- TCMP_PULSE_END (R352): the output goes low after WIDTH control cycles. -/
def fxTcmpPulseEnd (j : Fin 8) (s : State) : State :=
  modTime (fun t => { t with pulse := t.pulse &&& ~~~ BitVec.ofNat 8 (2 ^ j.val) }) s
def execTcmpPulseEnd (j : Fin 8) (s : State) : Host.Outcome State Fault Refusal := .next (fxTcmpPulseEnd j s)

/-- TRIGGER_EDGE (R354): the time of the edge is kept, and the edge is a pulse to every channel and ring that names the
input. -/
def fxTriggerEdge (i : Fin 8) (s : State) : State :=
  whenS (!s.start.rst) (fun s =>
    pulseRings (1 + i.val) s.time.ns (pulseChans (1 + i.val)
      (modTime (fun t => { t with trig := t.trig.put 0 i.val t.ns }) s))) s
def execTriggerEdge (i : Fin 8) (s : State) : Host.Outcome State Fault Refusal := .next (fxTriggerEdge i s)

/-! ### Budgets (R357, R359) -/

def sbReqs (w : Word) : Nat := fld w 4 0
def sbCycles (w : Word) : Nat := fld w 31 16
def sbDemote (w : Word) : Bool := bitOf w 32

/-- A period boundary has been reached or passed (R357, R366). -/
def refillDue (s : State) : Bool := s.run && decide (0 < s.resv) && decide (s.sch.due ≤ s.time.ns.toNat)

/-- BUDGET_REFILL (R351, R357, R359, R366): the credits of every ring at a period boundary; boundaries passed together refill once. -/
def fxBudgetRefill (s : State) : State :=
  whenS (refillDue s) (fun s =>
    modSch (fun c => { c with due := boundaryAt s.period (s.time.ns.toNat + 1) })
      (eachN (List.range 256) (fun i s =>
        let w := s.eff (.ownSbud (Fin.ofNat 16 (i / 16)) (Fin.ofNat 16 (i % 16)))
        modSq (i / 16) (i % 16) (fun q => { q with rcred := sbReqs w, ccred := sbCycles w }) s) s)) s
def execBudgetRefill (s : State) : Host.Outcome State Fault Refusal := .next (fxBudgetRefill s)

end Sys2Proof.Machine
end

