-- ==== Sys2Proof/Machine/Scheduler.lean ====
section
/-!
DEFINITION. Admission: which requests are admissible, completion places, the choice of a class and a ring, and the admission
itself (R16, R19, R74 to R78, R119, R121, R356 to R359), with the command SCHEDULER_GRANT.
-/

namespace Sys2Proof.Machine

/-! ### Tiles by kind (R483) -/

/-- The kind of tile an operation runs on: 1 cipher, 2 digest, 3 public-key, 0 none (R85, R112, R273). 0x95 is counted as
public-key: it takes two such tiles itself (R297). -/
def kindOf (opc : Nat) : Nat :=
  if isCipher opc || opc = 0x93 then 1
  else if isDigest opc || isHbs opc then 2
  else if isPk opc || isLattice opc then 3
  else 0

def kindBase (k : Nat) : Nat := if k = 1 then 0 else if k = 2 then 16 else 20
def kindCount (k : Nat) : Nat := if k = 1 then 16 else if k = 0 then 0 else 4
def kindTiles (k : Nat) : List Nat := (List.range (kindCount k)).map (· + kindBase k)

/-- Gated, or about to be (R394). -/
def gateAsked (s : State) (i : Nat) : Bool := s.clk.gated.toNat.testBit i || s.clk.pending.toNat.testBit i

/-- HEALTHY for allocation (R396, R418). -/
def tileHealthy (s : State) (t : Nat) : Bool := decide ((s.tile t).st = .healthy) && !gateAsked s t
def bankEmpty (b : BankSt) : Bool := decide (b = .empty)

/-- A healthy tile that can take an operation: idle, or for a public-key tile with a free bank (R133, R158, R195). -/
def tileFree (s : State) (t : Nat) : Bool :=
  tileHealthy s t && (if t < 20 then (s.tile t).run.isNone else bankEmpty (s.tile t).bankA || bankEmpty (s.tile t).bankB)

def healthyOf (s : State) (k : Nat) : List Nat := (kindTiles k).filter (tileHealthy s)
def freeOf (s : State) (k : Nat) : List Nat := (kindTiles k).filter (tileFree s)

/-- The kinds of tile that the operations of an entry need. -/
def entryKinds (e : Bytes) : List Nat :=
  if (entryCheck e false).isSome then [] else ((eOps e).map (fun w => kindOf w.opc)).eraseDups.filter (· ≠ 0)

/-! ### Completion places (R119, R121) -/

/-- Places of CQ m reserved and not yet written. -/
def resvOf (s : State) (n m : Nat) : Nat :=
  (s.reqs.filter (fun r => r.tenant.val = n ∧ r.cq.val = m ∧ r.place = .cq)).length
/-- Reservoir records of tenant n in use. -/
def rsvUsed (s : State) (n : Nat) : Nat := (s.reqs.filter (fun r => r.tenant.val = n ∧ r.place = .reservoir)).length

/-- Finished reservoir records for CQ m, which take a free slot before any new reservation (R120, R132). -/
def waitingFor (s : State) (n m : Nat) : Nat :=
  (s.reqs.filter (fun r => r.tenant.val = n ∧ r.cq.val = m ∧ r.phase = .waiting)).length

/-- The place that the next reservation for CQ m takes. -/
def placeFor (s : State) (n m : Nat) : Option Place :=
  let c := s.cq n m
  if !c.en then none
  else if c.occ + resvOf s n m + waitingFor s n m < 2 ^ c.k then some .cq
  else if rsvUsed s n < 64 then some .reservoir
  else none

/-- Records for CQ m held outside it, in the rescue area or in contexts (R110, R122, R123). -/
def heldFor (s : State) (n m : Nat) : Bool :=
  s.reqs.any (fun r => r.tenant.val = n && r.cq.val = m && (match r.phase with
    | .rescued _ | .held => true
    | _ => false))

/-- STALL clears when a place becomes available (R121). -/
def unstall (n : Nat) (s : State) : State :=
  eachN (List.range 16) (fun m s =>
    if (s.cq n m).stall && (placeFor s n m).isSome then modCq n m (fun c => { c with stall := false }) s else s) s

/-! ### Contexts (R74, R429) -/

/-- A request occupies a context of its sequencer until its record is in its ring, in the reservoir or in the rescue area. -/
def holdsContext (r : Req) : Bool :=
  match r.phase with
  | .rescued _ | .waiting => false
  | _ => true

/-- The contexts that sequencer c serves, and those of them that hold requests of other classes than SCHEDULED. -/
def csLoad (s : State) (c : Nat) : Nat := (s.reqs.filter (fun r => r.cs = c && holdsContext r)).length
def csOther (s : State) (c : Nat) : Nat :=
  (s.reqs.filter (fun r => decide (r.cs = c) && decide (r.cls ≠ 0) && holdsContext r)).length

def healthyCs (s : State) : List Nat := (List.range 12).filter (fun c => decide (s.csSt c = .healthy))

/-- The requests that may not use the contexts kept for SCHEDULED requests (R356). -/
def keptOut (s : State) (cls : Nat) : Bool := decide (cls ≠ 0) && decide (s.resv ≠ 0)

/-- The sequencer with the lowest load, the lower-numbered of equals. -/
def leastLoaded (s : State) : List Nat → Option Nat
  | [] => none
  | c :: t => (match leastLoaded s t with
    | some d => if csLoad s d < csLoad s c then some d else some c
    | none => some c)

/-- The sequencer that takes an admission of a class (R74; the choice among several is the model's, notes/assumptions/11.md). With all
twelve healthy it is the lowest-numbered one with fewer than 32 contexts in use, of which three are kept for SCHEDULED requests while
tiles are reserved (R356). When some have failed, the healthy ones serve all 384 contexts, of which 36 are kept; the capacity is 384 in
every case, also once one has rejoined whose contexts stay with those that adopted them (R429). -/
def freeCs (s : State) (cls : Nat) : Option Nat :=
  let ok := healthyCs s
  if 384 ≤ (s.reqs.filter holdsContext).length
      ∨ keptOut s cls ∧ 348 ≤ (s.reqs.filter (fun r => decide (r.cls ≠ 0) && holdsContext r)).length then none
  else if ok.length = 12 then ok.find? (fun c => decide (csLoad s c < 32) && (!keptOut s cls || decide (csOther s c < 29)))
  else leastLoaded s ok

/-! ### The head of a ring -/

/-- The whole entry at the head, free of void indices (R60). -/
def headEntry (q : Sq) : Option Bytes :=
  match q.front with
  | [] => none
  | h :: _ =>
    let k := entrySlots h
    if decide (q.queued ≠ 0) && decide (k ≤ q.front.length) && decide (k ≤ q.occ)
        && (List.range k).all (fun i => !decide ((q.head + i) % 2 ^ (q.k + 1) ∈ q.voids)) then
      some (q.front.take k).flatten
    else none

/-- The head request has been released: it has a release time, which a step of the count does not take back (R350, R351, R355). -/
def headReleased (q : Sq) : Bool :=
  match q.posts with
  | p :: _ => p.release.isSome
  | [] => false

def sbudOf (s : State) (n : TenantIx) (m : RingIx) : Word := s.eff (.ownSbud n m)
def headCharge (q : Sq) : Nat := q.charges.headD 0

/-- Within budget (R358, R359). -/
def inBudget (s : State) (q : Sq) : Bool := decide (s.resv = 0) || (decide (1 ≤ q.rcred) && decide (headCharge q ≤ q.ccred))

/-- A released head request of a SCHEDULED ring beyond its budget is demoted: OVER is DEMOTE, or its charge exceeds CYCLES
(R358). -/
def demoted (s : State) (n : TenantIx) (m : RingIx) : Bool :=
  let q := s.sq n m
  let w := sbudOf s n m
  !inBudget s q && (sbDemote w || decide (sbCycles w < headCharge q))

/-- The class in which the head request of a ring is granted (R45, R77, R358). -/
def headClass (s : State) (n : TenantIx) (m : RingIx) : Nat :=
  if s.ringClass n m = 0 && demoted s n m then 1 else s.ringClass n m

/-- The request is PAIRED (R96). -/
def entryPaired (s : State) (n : TenantIx) (e : Bytes) : Bool := flPaired e || pairAll s s.gen.act n

/-- Two healthy tiles of every kind that a PAIRED request needs are free (R19). -/
def pairFits (s : State) (e : Bytes) : Bool := (entryKinds e).all (fun k => decide (2 ≤ (freeOf s k).length))

/-- The head request is admissible in every respect except the place (R19, R74, R122, R458). -/
def readyHead (s : State) (n : TenantIx) (m : RingIx) : Bool :=
  let q := s.sq n m
  s.enabled n && !(s.ten n).inReset && q.en && !q.pause && !q.paused && !q.blocked && decide (q.queued ≠ 0)
    && (match headEntry q with
      | none => false
      | some e =>
        (decide (s.ringClass n m ≠ 0) || (headReleased q && (inBudget s q || demoted s n m)))
          && decide ((s.ten n).led.inflight.toNat < maxInflight s n)
          && !(s.cq n q.cqNo).fault && !heldFor s n q.cqNo
          && (freeCs s (headClass s n m)).isSome
          && (!(entryPaired s n e && decide (0 < eNops e)) || pairFits s e)
          && decide (blocksShort s e = []))

def admissible (s : State) (n : TenantIx) (m : RingIx) : Bool :=
  readyHead s n m && (placeFor s n (s.sq n m).cqNo).isSome

/-- Ring number i of the cyclic order of R76. -/
def ringT (i : Nat) : TenantIx := Fin.ofNat 16 (i / 16)
def ringM (i : Nat) : RingIx := Fin.ofNat 16 i

def admissibleIn (s : State) (cls i : Nat) : Bool :=
  admissible s (ringT i) (ringM i) && decide (headClass s (ringT i) (ringM i) = cls)

/-! ### Choice (R75, R76, R461) -/

/-- The number behind the rings of R76 under which the forwarded requests of a course take part in the rounds of the BULK class (R448, R461;
their place behind the last ring is the model's, notes/assumptions/16.md). -/
def ringFwd : Nat := 256

/-- The forwarded request at the front can be admitted: a context is free, and two tiles of each kind for a PAIRED one (R19, R74). -/
def fwdReady (s : State) : Bool :=
  match s.crs.queue with
  | r :: _ => (freeCs s 2).isSome && (!(r.paired && decide (0 < eNops r.entry)) || pairFits s r.entry)
  | [] => false

/-- Ring i, or the forwarded requests, can be granted in the class. -/
def canGrant (s : State) (cls i : Nat) : Bool := if i = ringFwd then decide (cls = 2) && fwdReady s else admissibleIn s cls i

/-- The class that the grant goes to, if any. -/
def grantClass (s : State) : Option Nat := turnClass (fun c => (List.range 257).any (canGrant s c)) s.sch.expRun

/-- The credit of a ring for grants of a class: its own class's, or what it has among the EXPEDITE rings as a demoted SCHEDULED ring
(R76, R358). -/
def creditIn (s : State) (cls i : Nat) : Nat :=
  if i = ringFwd then s.crs.credit
  else
    let q := s.sq (i / 16) (i % 16)
    if s.ringClass (ringT i) (ringM i) = cls then q.credit else q.creditX

/-- A ring that can be visited: admissible in the class, with credit. -/
def visitable (s : State) (cls i : Nat) : Bool := canGrant s cls i && decide (0 < creditIn s cls i)

/-- The first ring after `last` in cyclic order that can be visited. -/
def nextRing (s : State) (cls last : Nat) : Option Nat :=
  ((List.range 257).map (fun j => (last + 1 + j) % 257)).find? (visitable s cls)

/-- A new round of a class: every ring of the class gets credit equal to its weight, whatever credit the last round left it. A SCHEDULED
ring takes part in the rounds of the EXPEDITE rings too, for the requests that R358 demotes. -/
def newRound (cls : Nat) (s : State) : State :=
  let s1 := eachN (List.range 256) (fun i s =>
    let own := s.ringClass (ringT i) (ringM i)
    if own = cls then modSq (i / 16) (i % 16) (fun q => { q with credit := q.weight }) s
    else if own = 0 ∧ cls = 1 then modSq (i / 16) (i % 16) (fun q => { q with creditX := q.weight }) s
    else s) s
  if cls = 2 then modCrs (fun c => { c with credit := crsWeight s }) s1 else s1

/-- A visit ends once its ring has no admissible request or no credit, or has had its burst (R76). -/
def endVisit (cls : Nat) (s : State) : State :=
  let p := s.sch.ptr.look {} cls
  match p.visit with
  | some (i, left) =>
    if 0 < left ∧ visitable s cls i then s
    else modSch (fun c => { c with ptr := c.ptr.put {} cls { p with visit := none } }) s
  | none => s

/-- A round ends once no ring of the class has both credit and an admissible request, and the next one starts (R76). -/
def endRound (cls : Nat) (s : State) : State := if (nextRing s cls ringFwd).isSome then s else newRound cls s

/-- The visits and rounds of all classes as a grant finds them: one that has run out has ended, whichever class the grant goes to. -/
def turnRounds (s : State) : State := eachN [0, 1, 2] (fun cls s => endRound cls (endVisit cls s)) s

/-- The most grants of one visit (R76); WEIGHT alone bounds those of the forwarded requests. -/
def burstOf (s : State) (i : Nat) : Nat := if i = ringFwd then crsWeight s else (s.sq (i / 16) (i % 16)).burst

/-- The ring that the class grants, and the grants left of the visit (R76). -/
def pickRing (s : State) (cls : Nat) : Option (Nat × Nat) :=
  let p := s.sch.ptr.look {} cls
  match p.visit with
  | some v => some v
  | none => (nextRing s cls p.last).map (fun i => (i, burstOf s i))

/-! ### Admission (R16, R128, R357, R363) -/

/-- The admitted request. -/
def newReq (s : State) (n : TenantIx) (m : RingIx) (e : Bytes) (cls cs : Nat) (pl : Place) : Req :=
  let q := s.sq n m
  let p := q.posts.headD ⟨0, .secure, 0, none, none, false⟩
  { id := s.sch.nextId
    tenant := n
    origin := .ring m
    cq := Fin.ofNat 16 q.cqNo
    cls := cls
    sched := decide (s.ringClass n m = 0)
    mid := p.mid
    world := p.world
    gen := s.gen.active
    place := pl
    cs := cs
    entry := e
    release := p.release
    deadline := p.deadline
    paired := entryPaired s n e && decide (0 < eNops e) }

/-- The request at the head leaves the ring and the cache; the ledger and the credits move. -/
def admitReq (n : TenantIx) (m : RingIx) (cls : Nat) (s : State) : State :=
  let q := s.sq n m
  match headEntry q, freeCs s cls, placeFor s n q.cqNo with
  | some e, some cs, some pl =>
    let k := entrySlots e
    let r := newReq s n m e cls cs pl
    let spend := decide (s.ringClass n m = 0) && inBudget s q && decide (0 < s.resv)
    let s1 := modSq n m (fun q => { q with
      head := (q.head + k) % 2 ^ (q.k + 1)
      queued := q.queued - 1
      cache := q.cache.filter (fun p => !((List.range k).any (fun i => decide (p.1 = (q.head + i) % 2 ^ (q.k + 1)))))
      posts := q.posts.tail
      charges := q.charges.tail
      rcred := if spend then q.rcred - 1 else q.rcred
      ccred := if spend then q.ccred - headCharge q else q.ccred
      credit := if s.ringClass n m = cls then q.credit - 1 else q.credit
      creditX := if s.ringClass n m = cls then q.creditX else q.creditX - 1 }) s
    let s2 := modTen n (fun t => { t with led := { t.led with
      admitted := t.led.admitted + 1
      inflight := t.led.inflight + 1 } }) s1
    settleRing n m (modReqs (· ++ [r]) (modSch (fun c => { c with nextId := c.nextId + 1 }) s2))
  | _, _, _ => s

/-- The forwarded request at the front is admitted: it has its number and its context, and no ledger counts it (R461). -/
def admitForeign (s : State) : State :=
  match s.crs.queue, freeCs s 2 with
  | r :: rest, some cs =>
    modReqs (· ++ [{ r with id := s.sch.nextId, gen := s.gen.active, cs := cs }])
      (modSch (fun c => { c with nextId := c.nextId + 1 }) (modCrs (fun c => { c with queue := rest, credit := c.credit - 1 }) s))
  | _, _ => s

/-- A grant to a ring, or to the forwarded requests; the check of the ledger memory of the tenant admitted comes as an operand (R22, R131). -/
def admitOne (i cls : Nat) (ecc : Ecc) (s : State) : State :=
  if i = ringFwd then admitForeign s else memCheck 0 (some (ringT i).val) ecc (admitReq (ringT i) (ringM i) cls s)

/-- The engine admits: at service, with no retention entry asked for (R412, R469). -/
def admitting (s : State) : Bool := s.start.serving && !s.ret.req && !s.ret.asleep

/-- The head request is noted as one beyond the budget. -/
def Sq.noteOver (q : Sq) : Sq :=
  { q with
    overdue := true
    posts := match q.posts with
      | p :: t => { p with noted := true } :: t
      | [] => [] }

/-- The head request was noted before. -/
def Sq.overNoted (q : Sq) : Bool := q.posts.head?.any Posted.noted

/-- Rings whose released head lies beyond the budget: OVER and EV_SCHED_OVER, once for each such request (R358); requests ready in every respect except
the place: STALL and EV_CQ_STALL once (R121); requests that wait for a block (R458). -/
def markWaiting (s : State) : State :=
  eachN (List.range 256) (fun i s =>
    let n := ringT i
    let m := ringM i
    let q := s.sq n m
    match headEntry q with
    | none => s
    | some e =>
      if !(s.enabled n && q.en && !q.pause && !q.paused && !q.blocked) then s
      else
        let s1 := if s.ringClass n m = 0 && headReleased q && !inBudget s q && !q.overNoted then
            raiseT n evSchedOver (modSq n m Sq.noteOver s)
          else s
        let s2 := if readyHead s1 n m && (placeFor s1 n q.cqNo).isNone && !(s1.cq n q.cqNo).stall then
            raiseT n evCqStall (modCq n q.cqNo (fun c => { c with stall := true }) s1)
          else s1
        waitBlocks (blocksShort s2 e) s2) s

/-- SCHEDULER_GRANT (R75): one grant, or none where no request is admissible. -/
def fxSchedulerGrant (ecc : Ecc) (s : State) : State :=
  whenS (admitting s) (fun s =>
    let s0 := turnRounds (markWaiting s)
    match grantClass s0 with
    | none => s0
    | some cls =>
      match pickRing s0 cls with
      | none => s0
      | some (i, left) =>
        admitOne i cls ecc (modSch (fun c => { c with
          expRun := if cls = 1 then c.expRun + 1 else if cls = 2 then 0 else c.expRun
          ptr := c.ptr.put {} cls { last := i, visit := some (i, left - 1) } }) s0)) s

def execSchedulerGrant (s : State) (ecc : Ecc := .clean) : Host.Outcome State Fault Refusal := .next (fxSchedulerGrant ecc s)

end Sys2Proof.Machine
end

