-- ==== Sys2Proof/Machine/OpRun.lean ====
section
/-!
DEFINITION. A request as it runs: its operations' inputs, and what the operations of the digest tiles, of the public-key tiles and
of the kiln deliver (R99 to R101, R162 to R181, R187 to R203, R213 to R235, R254, R263 to R270).
-/

namespace Sys2Proof.Machine

/-! ### Inputs of an operation -/

def Req.op (r : Req) (i : Nat) : OpSt := r.ops.getD i {}
def Req.par (r : Req) (i : Nat) : Bytes := parBlock (r.op i).w (eParams r.entry)
def Req.buf (r : Req) (b : Nat) : BufSt := r.bufs.look {} b
def Req.ref (r : Req) (b : Nat) : BufRef := r.refs.getD b {}
def modOp (id i : Nat) (f : OpSt → OpSt) (s : State) : State := modReq id (fun r => { r with ops := r.ops.modify i f }) s
def modBuf (id b : Nat) (f : BufSt → BufSt) (s : State) : State :=
  modReq id (fun r => { r with bufs := r.bufs.put {} b (f (r.buf b)) }) s

/-- The tenant of the request's accesses: a boot request's are privileged (R368, R475). -/
def Req.priv (r : Req) : Option TenantIx :=
  match r.origin with
  | .boot _ => none
  | _ => some r.tenant

/-- A request that another engine of the course forwarded to this one (R461). -/
def Req.foreign (r : Req) : Bool :=
  match r.origin with
  | .course _ _ _ => true
  | _ => false

/-- What is known of the lengths of operation i once the keys are resolved (R93, R191). -/
def knownOf (r : Req) (i : Nat) : Known where
  key      := (r.op i).key.map (fun k => typeOf k.attr)
  target   := if (r.op i).madeAttr = [] then none else some (r.op i).madeAttr
  resolved := true

def Req.outs (r : Req) : List (Option Nat) := outLens r.entry (knownOf r)
/-- The length that a selector declares. -/
def Req.declared (r : Req) (v : Nat) : Nat := (selLen r.refs r.outs v).getD 0
def Req.srcLen (r : Req) (i : Nat) : Nat := r.declared (r.op i).w.src

/-- The selector of the PKB buffer (R189, R215). -/
def Req.pkbSel (r : Req) (i : Nat) : Nat := if takesPkb (r.op i).w then fpPkb (r.par i) else 0

def Req.ctx (r : Req) (i : Nat) : OpCtx :=
  let o := r.op i
  ⟨o.w, r.par i, r.srcLen i, r.declared o.w.aux, if 1 ≤ o.w.src ∧ o.w.src < 8 then some (r.op (o.w.src - 1)).w else none,
    r.declared (r.pkbSel i), 0⟩

/-- What an operation has delivered to the operations that name it: a TLS or DTLS unprotect passes its output on once its inner
length is known (R153). -/
def OpSt.passed (o : OpSt) : Bytes :=
  if o.w.opc = 0x35 ∨ o.w.opc = 0x37 then
    (if o.phase = .done then o.output.take (o.produced.getD o.output.length) else [])
  else o.output

/-- A later operation takes the output of operation i as its key (R87). -/
def Req.givesKey (r : Req) (i : Nat) : Bool :=
  r.ops.any (fun q => q.w.kfrom && decide (q.w.key = i) && decide (keyUse q.w [] ≠ .none))

/-- The output of operation i is a key that passes by KFROM alone (R87, R188, R214, R268): no SRC, AUX or DST has it. -/
def Req.keyOnly (r : Req) (i : Nat) : Bool :=
  let o := r.op i
  let may (u : Nat) : Bool := hasUse ((o.key.map KeyBind.attr).getD []) u
  match o.w.opc with
  | 0x21 | 0x23 | 0x90 | 0x91 => r.givesKey i || !may uExport
  | 0x63 | 0x66 | 0x72 => r.givesKey i || !may uExportDerived
  | 0x77 => decide (hybRole o.w = 2) && (r.givesKey i || !may uExportDerived)
  | 0x92 => true
  | _ => false

/-- An encapsulation or a hybrid agreement in the RESPOND role that delivers the shared secret behind the bytes for the peer (R214). -/
def secretBehind (w : OpWord) : Bool := (decide (w.opc = 0x71) && decide (w.opt = 1)) || (decide (w.opc = 0x77) && decide (hybRole w = 1) && hybBit w)

/-- How many bytes of its output operation i may deliver to SRC, AUX and DST: none of a key that passes by KFROM (R87). -/
def Req.openLen (r : Req) (i : Nat) : Nat :=
  let o := r.op i
  if r.keyOnly i then 0
  else if r.givesKey i && secretBehind o.w then o.output.length - 32
  else o.output.length

/-- What a selector has delivered so far. A selector of a key that passes by KFROM alone delivers nothing (DESIGN CHOICE,
notes/assumptions/10.md: R87 gives such a selector no bytes and names no failure for it). -/
def Req.data (r : Req) (v : Nat) : Bytes :=
  if v = 0 then []
  else if v < 8 then (r.op (v - 1)).passed.take (r.openLen (v - 1))
  else (r.buf (v - 8)).data

/-- A selector has delivered all it declares. -/
def Req.whole (r : Req) (v : Nat) : Bool :=
  if v = 0 then true
  else if v < 8 then decide ((r.op (v - 1)).phase = .done) && decide (r.declared v ≤ (r.data v).length)
  else decide ((r.buf (v - 8)).data.length = (r.ref (v - 8)).len)

/-- A selector will deliver no more, short of what it declares: the failure this is (R92, R124, R337). -/
def Req.stopOf (r : Req) (v : Nat) : Option Fail :=
  if v = 0 then none
  else if v < 8 then
    (if (r.op (v - 1)).phase = .done ∧ (r.data v).length < r.declared v then some (stShort, 3) else none)
  else
    let b := r.buf (v - 8)
    if b.data.length = b.issued ∧ b.asking = false then b.stop else none

/-- The bytes of SRC that operation i takes, as far as they have come. -/
def Req.src (r : Req) (i : Nat) : Bytes := (r.data (r.op i).w.src).take (r.srcLen i)
def Req.aux (r : Req) (i : Nat) : Bytes := (r.data (r.op i).w.aux).take (r.declared (r.op i).w.aux)
def Req.keyBytes (r : Req) (i : Nat) : Bytes := ((r.op i).key.map KeyBind.material).getD []
def Req.keyAttr (r : Req) (i : Nat) : Bytes := ((r.op i).key.map KeyBind.attr).getD (zeros 16)

/-- The tile kind of an operation; 0x93 UNLOAD takes no tile (R85, R112, R273). -/
def kindOfW (w : OpWord) : Nat := if w.opc = 0x93 ∧ w.opt % 4 = 2 then 0 else kindOf w.opc

/-! ### Results -/

/-- What an operation leaves when it ends: its result, and the key it makes with its attributes (R254). -/
structure OpEnd where
  res   : Result := {}
  made  : Bytes := []
  attr  : Bytes := []
  stamp : Bytes := []
  deriving DecidableEq, Repr

def okOr (b : Bool) (f : Fail) : Option Fail := if b then none else some f

/-! #### Digest tiles -/

/-- The index of a tenant's stream (R169). -/
def streamIx (r : Req) (i : Nat) : Nat := 4 * r.tenant.val + fkStream (r.par i)

/-- N and S of a cSHAKE, or S of a KMAC: the length of N, then both. -/
def customOf (p : Bytes) : Bytes := toLE 1 (fkN p) ++ slice p 8 (fkN p) ++ slice p (8 + fkN p) (fkS p)
def customN (c : Bytes) : Bytes := slice c 1 (byteAt c 0)
def customS (c : Bytes) : Bytes := c.drop (1 + byteAt c 0)

/-- The cSHAKE under a KMAC operation. -/
def kmacCode (opc : Nat) : Nat := if opc = 0x52 ∨ opc = 0x54 then 0x4C else 0x4D

/-- The states from which a keyed operation starts (R174): those prepared with its bank, or the engine computes them from the key: for a
cached or passed key, and for a KMAC with an S. -/
def macPrep (w : OpWord) (p : Bytes) (k : KeyBind) : List Bytes :=
  if isHmac w.opc then
    (if k.prep ≠ [] then k.prep else [(hmacPrep (aParam k.attr) k.material).1, (hmacPrep (aParam k.attr) k.material).2])
  else if isKmac w.opc then
    (if k.prep ≠ [] ∧ fkS p = 0 then k.prep else [kmacPrep (kmacCode w.opc) (customS (customOf p)) k.material])
  else []

/-- The message of a digest operation, its prepared states and hash, and its customization: those of its stream where it continues one
(R169, R172). -/
def digestIn (s : State) (r : Req) (i : Nat) : Bytes × List Bytes × Nat × Bytes :=
  let w := (r.op i).w
  let mine := (r.src i, macPrep w (r.par i) ((r.op i).key.getD {}), aParam (r.keyAttr i), if w.opt ≤ 1 then customOf (r.par i) else [])
  if isStream w then
    (match s.stream (streamIx r i) with
      | some t => (t.data ++ r.src i, t.prep, t.param, t.parms)
      | none => mine)
  else mine

/-- A digest, MAC or comparison (R162 to R168, R176, R177). A stream ends with the hash of its FIRST; where a LAST part's TAGLEN, judged by its
own key, exceeds that hash, the MAC is padded with zeros to TAGLEN (R172; DESIGN CHOICE, notes/assumptions/35.md). -/
def digestEnd (s : State) (r : Req) (i : Nat) : Result :=
  let w := (r.op i).w
  let p := r.par i
  let (msg, prep, hash, custom) := digestIn s r i
  let hmac := fit (fkTag p) (hmacFrom hash (prep.getD 0 [], prep.getD 1 []) msg)
  let kmac := kmacFrom (kmacCode w.opc) (fkOut p) (prep.getD 0 []) 0 msg
  let n := digestOutLen (r.ctx i)
  if isPart w then {}
  else match w.opc with
    | 0x50 => { out := hmac }
    | 0x51 => { fail := okOr (r.aux i = hmac) (stAuth, 2) }
    | 0x52 | 0x53 => { out := kmac }
    | 0x54 | 0x55 => { fail := okOr (r.aux i = kmac) (stAuth, 2) }
    | 0x56 => { fail := okOr (r.src i = r.aux i) (stAuth, 3) }
    | 0x4C | 0x4D => { out := cshakeOf w.opc n (customN custom) (customS custom) msg }
    | _ => { out := hashOf w.opc n msg }

/-! #### Public keys -/

/-- The key of a public-key operation and its type: of its slot, handle or KFROM, or the PKB buffer (R189, R215). -/
def pkKey (r : Req) (i : Nat) : Bytes := if r.pkbSel i = 0 then r.keyBytes i else r.data (r.pkbSel i)
def pkType (r : Req) (i : Nat) : KeyType :=
  if r.pkbSel i = 0 then typeOf (r.keyAttr i) else pkbType (r.op i).w (r.par i)

/-- The rest of what determines a public-key result: the key's type, the prehash, the salt and the context string. -/
def pkPar (w : OpWord) (p : Bytes) (t : KeyType) : Bytes :=
  toLE 1 t.cls ++ toLE 1 t.param ++ toLE 1 t.hash
    ++ (if isLattice w.opc then toLE 1 (fqHash p) else toLE 1 (fpSalt p)) ++ slice p (pkParFixed w) (pkParTail w p)

/-! ##### X25519 and X448 (R201, RFC 7748) -/

/-- The number of little-endian bytes with some bits cleared and one set. -/
def clampOf (n keep low top : Nat) (scalar : Bytes) : Bytes :=
  let v := leNat scalar % 2 ^ keep
  toLE n ((v / 2 ^ low * 2 ^ low) % 2 ^ top + 2 ^ top)

/-- The peer value as the ladder takes it: masked and reduced. -/
def montPeer (curve : Nat) (u : Bytes) : Bytes :=
  if curve = 0x20 then toLE 32 (leNat u % 2 ^ 255 % (2 ^ 255 - 19)) else toLE 56 (leNat u % (2 ^ 448 - 2 ^ 224 - 1))

/-- The result of X25519 or X448: a low-order peer value gives zeros. -/
def montOf (curve : Nat) (scalar u : Bytes) : Bytes :=
  let n := fieldLen curve
  if lowOrder curve u then zeros n
  else
    let k := if curve = 0x20 then clampOf 32 255 3 254 scalar else clampOf 56 448 2 447 scalar
    bytesOf n (Config.pkByte (0x66, 0) k (toLE 1 curve) [] (montPeer curve u) [])

def x25519 (scalar u : Bytes) : Bytes := montOf 0x20 scalar u
def x25519Pub (scalar : Bytes) : Bytes := x25519 scalar (9 :: zeros 31)

/-! ##### RSA (R183, R186, RFC 8017) -/

/-- b to the power e modulo n, over at most `fuel` bits of e. -/
def powMod (n : Nat) : Nat → Nat → Nat → Nat
  | 0, _, _ => 1 % n
  | fuel + 1, b, e =>
    if e = 0 then 1 % n
    else
      let h := powMod n fuel (b * b % n) (e / 2)
      if e % 2 = 1 then b * h % n else h

/-- RSAVP1 under a key n ‖ e. -/
def rsaPublic (modw : Nat) (key x : Bytes) : Bytes :=
  let k := 8 * modw
  toBE k (powMod (beNat (key.take k)) 64 (beNat x) (beNat (slice key k 8)))

/-- RSADP under the CRT components of R186. -/
def rsaPrivate (modw : Nat) (key x : Bytes) : Bytes :=
  let h := 4 * modw
  let part (i : Nat) : Nat := beNat (slice key (8 * modw + 8 + h * i) h)
  let p := part 0
  let q := part 1
  let m1 := powMod p (8 * h) (beNat x) (part 2)
  let m2 := powMod q (8 * h) (beNat x) (part 3)
  toBE (8 * modw) (m2 + q * (part 4 * (m1 + p - m2 % p) % p))

/-- The last byte of the object identifier of a hash under 2.16.840.1.101.3.4.2, and the identifier in DER. -/
def hashOid (code : Nat) : Bytes :=
  ascii [0x06, 0x09, 0x60, 0x86, 0x48, 0x01, 0x65, 0x03, 0x04, 0x02]
    ++ toLE 1 ([4, 1, 2, 3, 5, 6, 7, 8, 9, 10, 11, 12].getD (code - 0x40) 0)

/-- DigestInfo of RFC 8017, with the NULL parameter; SHA-1 has an identifier of its own. -/
def digestInfo (code : Nat) (d : Bytes) : Bytes :=
  let oid := if code = 0x4F then ascii [0x06, 0x05, 0x2B, 0x0E, 0x03, 0x02, 0x1A] else hashOid code
  let alg := ascii [0x30] ++ toLE 1 (oid.length + 2) ++ oid ++ ascii [0x05, 0x00]
  ascii [0x30] ++ toLE 1 (alg.length + 2 + d.length) ++ alg ++ ascii [0x04] ++ toLE 1 d.length ++ d

/-- EMSA-PKCS1-v1_5. -/
def pkcs1 (k code : Nat) (d : Bytes) : Bytes :=
  let t := digestInfo code d
  ascii [0, 1] ++ List.replicate (k - 3 - t.length) 0xFF ++ [0] ++ t

/-- MGF1 (R192). -/
def mgf1 (code n : Nat) (seed : Bytes) : Bytes :=
  ((List.range (ceilDiv n (digestLen code))).flatMap (fun i => hashOf code (digestLen code) (seed ++ toBE 4 i))).take n

/-- EMSA-PSS of a digest under a salt; the top bit is clear. -/
def pssEncode (k code : Nat) (d salt : Bytes) : Bytes :=
  let h := hashOf code (digestLen code) (zeros 8 ++ d ++ salt)
  let n := k - digestLen code - 1
  let db := zeros (n - salt.length - 1) ++ [1] ++ salt
  match xorB db (mgf1 code n h) with
  | [] => []
  | b :: t => (b &&& 0x7F) :: t ++ h ++ [0xBC]

/-- The salt of an encoded message, and whether the encoding is that of the digest under it. -/
def pssOk (k code saltLen : Nat) (d em : Bytes) : Bool :=
  let n := k - digestLen code - 1
  let h := slice em n (digestLen code)
  decide (digestLen code + saltLen + 2 ≤ k) && decide (pssEncode k code d ((xorB (em.take n) (mgf1 code n h)).drop (n - saltLen)) = em)

/-- ML-KEM (FIPS 203): the encapsulation key of a seed, ciphertext and secret of an encapsulation, the secret of a ciphertext. -/
def kemEkOf (p : Nat) (seed : Bytes) : Bytes := bytesOf (kemEk p) (Config.pkByte (0x70, 64) seed (toLE 1 p) [] [] [])
def kemCtOf (p : Nat) (ek m : Bytes) : Bytes := bytesOf (kemCt p) (Config.pkByte (0x71, 0) ek (toLE 1 p) [] [] m)
def kemSecret (p : Nat) (ek m : Bytes) : Bytes := bytesOf 32 (Config.pkByte (0x71, 64) ek (toLE 1 p) [] [] m)
def kemOpen (p : Nat) (dk c : Bytes) : Bytes := bytesOf 32 (Config.pkByte (0x72, 0) dk (toLE 1 p) [] c [])

/-- The hybrid private key (R231): X25519 scalar, and the ML-KEM-768 seed d ‖ z. -/
def hybExpand (seed : Bytes) : Bytes × Bytes := let e := shake256 96 (seed ++ [0]); (e.take 32, e.drop 32)
def hybPub (seed : Bytes) : Bytes := x25519Pub (hybExpand seed).1 ++ kemEkOf 2 (hybExpand seed).2

/-- The combiner of R232. -/
def hybSecret (ssM ssX c resp init ctx : Bytes) : Bytes :=
  sha3_256 (ssM ++ ssX ++ c ++ resp ++ init ++ ascii [0x41, 0x48, 0x2D, 0x48, 0x59, 0x42, 0x2D, 0x31] ++ toLE 1 ctx.length ++ ctx)

/-- RESPOND: the bytes sent and the secret, from 64 random bytes. -/
def hybRespond (draw peer ctx : Bytes) : Bytes × Bytes :=
  let e := fit 64 draw
  let own := x25519Pub (e.take 32)
  let c := kemCtOf 2 (peer.drop 32) (e.drop 32)
  (own ++ c, hybSecret (kemSecret 2 (peer.drop 32) (e.drop 32)) (x25519 (e.take 32) (peer.take 32)) c own (peer.take 32) ctx)

/-- FINISH: the secret from the responder's bytes. -/
def hybFinish (seed peer ctx : Bytes) : Bytes :=
  let (x, dz) := hybExpand seed
  hybSecret (kemOpen 2 dz (peer.drop 32)) (x25519 x (peer.take 32)) (peer.drop 32) (peer.take 32) (x25519Pub x) ctx

/-! ##### Key pair generation (R185 to R187, R190, R212) -/

/-- `n` bytes that a standard derives from a seed: `part` numbers what is derived. -/
def fromSeed (opc part n : Nat) (seed par : Bytes) : Bytes := bytesOf n (Config.pkByte (opc, part) seed par [] [] [])

/-- ML-DSA (FIPS 204): the public key of a seed; μ's tr of a public key. -/
def dsaPkOf (pset : Nat) (seed : Bytes) : Bytes := fromSeed 0x73 64 (dsaPk pset) seed (toLE 1 0x17 ++ toLE 1 pset)
def dsaTr (pk : Bytes) : Bytes := shake256 64 pk

/-- The public key of an EC private key: an uncompressed point, an RFC 8032 encoding, an RFC 7748 value. -/
def ecPubOf (curve : Nat) (priv : Bytes) : Bytes :=
  if isMont curve then montOf curve priv ((if curve = 0x20 then 9 else 5) :: zeros (fieldLen curve - 1))
  else
    let par := toLE 1 0x10 ++ toLE 1 curve
    if isEcdsaCurve curve then [4] ++ fromSeed 0x62 64 (2 * fieldLen curve) priv par
    else fromSeed 0x62 64 (fieldLen curve) (priv.take (fieldLen curve)) par

/-- The inverse of a modulo n by Euclid's algorithm, in at most `fuel` divisions: the last remainders and what a was multiplied by for them. -/
def inverseStep (n : Nat) : Nat → Nat → Nat → Int → Int → Nat
  | 0, _, _, x, _ => (x % (n : Int)).toNat
  | fuel + 1, r0, r1, x0, x1 =>
    if r1 = 0 then (x0 % (n : Int)).toNat else inverseStep n fuel r1 (r0 % r1) x1 (x0 - (r0 / r1 : Nat) * x1)
def inverse (fuel a n : Nat) : Nat := inverseStep n fuel n (a % n) 0 1

/-- RSA material (R186) of two primes that a standard draws: the larger is p. d mod (p - 1) is the inverse of e there, and so for q. -/
def rsaKeyOf (modw : Nat) (e draw : Bytes) : Bytes :=
  let h := 4 * modw
  let par := toLE 1 modw ++ e
  let a := beNat (fromSeed 0x6C 0 h draw par)
  let b := beNat (fromSeed 0x6C 1 h draw par)
  let p := max a b
  let q := if a = b then a - 1 else min a b
  let inv := inverse (16 * h)
  toBE (2 * h) (p * q) ++ e.reverse ++ toBE h p ++ toBE h q ++ toBE h (inv (beNat e.reverse) (p - 1)) ++ toBE h (inv (beNat e.reverse) (q - 1))
    ++ toBE h (inv q p)

/-- The private key that a key pair generation makes of its draw, as (class, parameter, length) lay it out. -/
def genPriv (w : OpWord) (g : Nat × Nat × Nat) (p draw : Bytes) : Bytes :=
  match g.1 with
  | 0x10 =>
    if g.2.1 = 0x10 then draw.take 32 ++ ecPubOf 0x10 (draw.take 32)
    else if isEcdsaCurve g.2.1 then fromSeed 0x62 32 g.2.2 draw (toLE 1 g.2.1)
    else fit g.2.2 draw
  | 0x12 => rsaKeyOf g.2.1 (slice p 8 8) draw
  | 0x15 =>
    let ek := kemEkOf g.2.1 (draw.take 64)
    fromSeed w.opc 32 (384 * (g.2.1 + 1)) (draw.take 64) (toLE 1 g.2.1) ++ ek ++ sha3_256 ek ++ slice draw 32 32
  | 0x18 =>
    let pk := dsaPkOf g.2.1 (draw.take 32)
    pk.take 32 ++ fromSeed w.opc 32 32 (draw.take 32) (toLE 1 g.2.1) ++ dsaTr pk ++ fromSeed w.opc 33 (g.2.2 - 128) (draw.take 32) (toLE 1 g.2.1)
  | _ => fit g.2.2 draw

/-- The public key that it writes. -/
def genPub (g : Nat × Nat × Nat) (priv draw : Bytes) : Bytes :=
  match g.1 with
  | 0x10 => ecPubOf g.2.1 priv
  | 0x12 => priv.take (8 * g.2.1)
  | 0x14 | 0x15 => kemEkOf g.2.1 (fit 64 draw)
  | 0x17 | 0x18 => dsaPkOf g.2.1 (fit 32 draw)
  | _ => hybPub priv

/-- The state that is prepared with a key (R174, R213, R259): HMAC and KMAC states, tr of an ML-DSA key, H(ek) of an encapsulation key. -/
def prepOf (a m : Bytes) : List Bytes :=
  match aClass a with
  | 0x04 => [(hmacPrep (aParam a) m).1, (hmacPrep (aParam a) m).2]
  | 0x05 => [kmacPrep (if aParam a = 0x52 then 0x4C else 0x4D) [] m]
  | 0x16 => [sha3_256 m]
  | 0x17 => [dsaTr (dsaPkOf (aParam a) m)]
  | 0x19 => [dsaTr m]
  | _ => []

/-- A wrapped key blob (R270). -/
def sealBlob (kek attr material nonce : Bytes) : Bytes :=
  let h := ascii [0x41, 0x4B, 0x42, 0x31, 1, 0] ++ toLE 2 material.length ++ attr ++ nonce ++ zeros 4
  h ++ aeadSeal 0x1D kek nonce h material

/-- The attributes of a key made by key pair generation with DEST = 0 (R187). -/
def genAttr (w : OpWord) (p kek : Bytes) (g : Nat × Nat × Nat) : Bytes :=
  let agree := decide (w.opc = 0x70 ∨ w.opc = 0x77) || (decide (w.opc = 0x62) && (isMont g.2.1 || decide (2 ≤ w.opt)))
  mkAttr g.1 g.2.1 g.2.2 (if agree then 2 ^ uAgree else 2 ^ uSign) (aTenants kek) (aMid kek) (aMask kek) (byteAt kek 0xA)
    (aMpol kek) (if needsHash g.1 g.2.1 then fpHash p else 0)

/-- The attributes of a shared secret (R254), from the private key, or those of an encapsulation. -/
def secretAttr (r : Req) (priv : Option KeyBind) (len : Nat) : Bytes × Bytes :=
  match priv with
  | some k => (mkAttr 6 0 len (2 ^ uDerive) (2 ^ r.tenant.val) (aMid k.attr) (aMask k.attr) (byteAt k.attr 0xA % 128) (aMpol k.attr) 0, k.stamp)
  | none => (mkAttr 6 0 len (2 ^ uDerive) (2 ^ r.tenant.val) 0 0 126 0 0, zeros 32)

/-- The secret of an agreement as a result: written to DST where the operation has one (R188, R214). -/
def secretEnd (r : Req) (priv : Option KeyBind) (out secret : Bytes) : OpEnd :=
  let a := secretAttr r priv secret.length
  { res := { out := out }, made := secret, attr := a.1, stamp := a.2 }

/-- The message of a signature as its scheme takes it (R101, R192, R216, R218): the digest under the key's hash, PH(M), μ of M′, or the
message itself. -/
def pkMessage (w : OpWord) (p : Bytes) (t : KeyType) (key : Bytes) (prep : List Bytes) (hashed : Bool) (m : Bytes) : Bytes :=
  let pre (code : Nat) : Bytes := if hashed then m else hashOf code (digestBytes code) m
  match w.opc with
  | 0x60 | 0x61 | 0x68 | 0x69 | 0x6A | 0x6B => if hashed then m else hashOf t.hash (digestLen t.hash) m
  | 0x64 | 0x65 => if w.opt = 2 then pre (if t.param = 0x11 then 0x4B else 0x43) else m
  | 0x74 | 0x75 =>
    let tr := match prep with
      | x :: _ => x
      | [] => if t.cls = 0x18 then slice key 64 64 else dsaTr (if t.cls = 0x17 then dsaPkOf t.param key else key)
    let ctx := toLE 1 (fqCtxLen p) ++ slice p 8 (fqCtxLen p)
    let m' := if w.opt = 1 then [1] ++ ctx ++ hashOid (fqHash p) ++ pre (fqHash p) else [0] ++ ctx ++ m
    shake256 64 (tr ++ m')
  | _ => m

/-- The hash of an RSA signature: the key's, or that of the digest that SRC gives under a key that names none. -/
def rsaHash (r : Req) (i : Nat) (t : KeyType) : Nat :=
  if t.hash ≠ 0 then t.hash else (r.op ((r.op i).w.src - 1)).w.opc

/-- A public-key, lattice or hash-based operation (R184 to R203, R211 to R235). -/
def pkEnd (r : Req) (i : Nat) : OpEnd :=
  let o := r.op i
  let w := o.w
  let p := r.par i
  let t := pkType r i
  let key := pkKey r i
  let par := pkPar w p t
  let aux := r.aux i
  let m := pkMessage w p t key (if r.pkbSel i = 0 then ((o.key.map KeyBind.prep).getD []) else []) (srcHashed (r.ops.map OpSt.w) w) (r.src i)
  let ctx := slice p 8 (fqCtxLen p)
  let k := 8 * t.param
  let hash := rsaHash r i t
  let signed (d : Bytes) : OpEnd := { res := { out := bytesOf (pkOutLen w p t none) (Config.pkByte (w.opc, w.opt) key par m [] d) } }
  let out (b : Bytes) : OpEnd := { res := { out := b } }
  let verify (ok : Bool) (shape : Option Fail) : OpEnd := { res := { fail := shape.or (okOr ok (stVerify, 1)) } }
  let opaqueOk := Config.pkOk (w.opc, w.opt) key par m aux
  if isKeygen w then
    let g := genType w p (if keygenDest w then some o.madeAttr else none)
    let priv := genPriv w g p o.draws
    let pub := genPub g priv o.draws
    if keygenDest w then { res := { out := pub }, made := priv, attr := o.madeAttr }
    else out (pub ++ sealBlob key (genAttr w p (r.keyAttr i) g) priv o.nonce)
  else match w.opc with
    | 0x60 | 0x74 => signed o.draws
    | 0x64 => signed []
    | 0x68 => out (rsaPrivate t.param key (pkcs1 k hash m))
    | 0x6A => out (rsaPrivate t.param key (pssEncode k hash m (o.draws.take (fpSalt p))))
    | 0x69 => verify (rsaPublic t.param key aux = pkcs1 k hash m) none
    | 0x6B => verify (pssOk k hash (fpSalt p) m (rsaPublic t.param key aux)) none
    | 0x6D => out (if w.opt = 0 then rsaPrivate t.param key m else rsaPublic t.param key m)
    | 0x63 => let z := bytesOf (fieldLen t.param) (Config.pkByte (0x63, 0) key par [] aux []); secretEnd r o.key z z
    | 0x66 => let z := montOf t.param key aux; secretEnd r o.key z z
    | 0x71 =>
      let e := fit 32 o.draws
      let z := kemSecret t.param key e
      secretEnd r none (kemCtOf t.param key e ++ (if w.opt = 1 then z else [])) z
    | 0x72 => let z := kemOpen t.param key aux; secretEnd r o.key z z
    | 0x77 =>
      if hybRole w = 1 then
        let q := hybRespond o.draws aux ctx
        secretEnd r none (q.1 ++ (if hybBit w then q.2 else [])) q.2
      else let z := hybFinish key aux ctx; secretEnd r o.key z z
    | 0x75 =>
      verify opaqueOk ((okOr (Config.sigShapeOk 0x50 t.param key aux) (stVerify, 0x50)).or
        (okOr (Config.sigShapeOk 0x51 t.param key aux) (stVerify, 0x51)))
    | 0x78 | 0x79 => verify opaqueOk (hbsSigFail w.opc key aux)
    | _ => verify opaqueOk none

/-- The microsequencers run a request with the patch of its admission generation (R385). The spec does not say what a patch's words do: the bytes
of a patched tile's result are free, of the length that the rules give (DESIGN CHOICE, notes/assumptions/14.md). -/
def patchedEnd (patch : Option Bytes) (e : OpEnd) : OpEnd :=
  match patch with
  | none => e
  | some b => { e with res := { e.res with out := bytesOf e.res.out.length (Config.patchedByte b 0 e.res.out) },
                       made := bytesOf e.made.length (Config.patchedByte b 1 e.made) }

/-! ### The kiln -/

/-- Input X of 0x92 (R264). -/
def kilnInput (s : State) (tenant : Nat) (p : Bytes) : Bytes :=
  let d := frD p
  ascii [0x41, 0x48, 0x2D, 0x4B, 0x49, 0x4C, 0x4E, 0x31] ++ toLE 1 s.roots.lc.toNat ++ toLE 1 tenant ++ toLE 1 (frPrf p) ++ toLE 1 (aMpol d)
    ++ (List.range 8).flatMap (fun i => if (aMpol d).testBit i then fit 48 (s.meas.vals.look [] i) else [])
    ++ d ++ toLE 1 (frLabelLen p) ++ frLabel p ++ toLE 1 (frCtxLen p) ++ frCtx p

def kilnName : Bytes := ascii [0x41, 0x48, 0x2D, 0x4B, 0x49, 0x4C, 0x4E]

/-- The output of 0x90, 0x91 or 0x92 (R264, R266). -/
def kilnOut (s : State) (r : Req) (i : Nat) : Bytes :=
  let w := (r.op i).w
  let p := r.par i
  let key := r.keyBytes i
  let n := frOutLen p
  if w.opc = 0x92 then
    kmac256 n ((if frPrf p = 1 then s.roots.kU else s.roots.kL).getD []) (kilnInput s r.tenant.val p) kilnName
  else if w.opc = 0x90 then
    (if 2 ≤ w.opt then hkdfExpand (frPrf p) n key (frCtx p) else hkdf (frPrf p) n (frLabel p) key (frCtx p))
  else if frPrf p = 1 then kmac256 n key (frCtx p) (frLabel p)
  else if frPrf p = 2 then counterKdf (cmac key) 16 n (frLabel p) (frCtx p)
  else counterKdf (hmacOf (frPrf p) key) (digestLen (frPrf p)) n (frLabel p) (frCtx p)

/-! ### Hashes that a digest tile makes for another operation (R178, R192, R193, R217, R218) -/

/-- The operation signs with an ML-DSA seed that passes by KFROM: tr and μ come in the middle of it (R217, R218). -/
def Req.seedByKfrom (r : Req) (i : Nat) : Bool :=
  let w := (r.op i).w
  decide (w.opc = 0x74) && w.kfrom && decide (aClass (r.keyAttr i) = 0x17)

/-- The operation needs a hash before it enters its bank: of the message, of a PKB key, or μ. -/
def Req.preHash (r : Req) (i : Nat) : Bool :=
  let w := (r.op i).w
  let hashed := srcHashed (r.ops.map OpSt.w) w
  match w.opc with
  | 0x60 | 0x61 | 0x68 | 0x69 | 0x6A | 0x6B => !hashed
  | 0x64 | 0x65 => !(decide (w.opt = 2) && hashed)
  | 0x71 => decide (r.pkbSel i ≠ 0)
  | 0x74 => !r.seedByKfrom i || (decide (w.opt = 1) && !hashed)
  | 0x75 => true
  | 0x77 => decide (hybRole w = 1)
  | _ => false

/-- The hashes that it asks for in the middle. -/
def Req.midHashes (r : Req) (i : Nat) : Nat :=
  let w := (r.op i).w
  match w.opc with
  | 0x64 => if w.opt < 2 then 1 else 0
  | 0x6A | 0x6B | 0x70 | 0x73 => 1
  | 0x72 => if aClass (r.keyAttr i) = 0x14 then 1 else 0
  | 0x74 => if r.seedByKfrom i then 2 else 0
  | 0x77 => if hybRole w = 1 then 0 else 1
  | _ => 0

def Req.hashTotal (r : Req) (i : Nat) : Nat := b2n (r.preHash i) + r.midHashes i

/-- The HMAC form of SRTP (R154): its MAC is made on a digest tile (R178). -/
def srtpHmac (w : OpWord) : Bool := decide (w.opc = 0x38 ∨ w.opc = 0x39) && decide (w.opt ≠ 1)

/-! ### A key from an earlier operation (R87, R254) -/

/-- The attributes and the stamp under which operation i takes the key of operation j; none where it determines no type. -/
def kfromAttr (r : Req) (i j : Nat) : Option (Bytes × Bytes) :=
  let o := r.op j
  if o.w.opc = 0x21 ∨ o.w.opc = 0x23 then
    (unwrappedClass (r.op i).w (r.par i) o.output.length).map (fun t =>
      (mkAttr t.1 t.2 o.output.length 0x37 (2 ^ r.tenant.val) (aMid (r.keyAttr j)) (aMask (r.keyAttr j)) (byteAt (r.keyAttr j) 0xA % 128)
        (aMpol (r.keyAttr j)) 0, (o.key.map KeyBind.stamp).getD []))
  else some (o.madeAttr, o.madeStamp)

/-- The key that operation i receives from operation j, or the check that it fails: checks 4 to 10 of R252, and an ECDSA or RSA
signature with an unwrapped key takes a digest (R254). -/
def kfromKey (s : State) (r : Req) (i j : Nat) : KeyBind × Option Fail :=
  let o := r.op j
  let m := if o.w.opc = 0x21 ∨ o.w.opc = 0x23 then o.output else o.made
  let w := (r.op i).w
  match kfromAttr r i j with
  | none => ({}, kd 9)
  | some (a, stamp) =>
    let bare := decide (o.w.opc = 0x21 ∨ o.w.opc = 0x23) && decide (w.opc ∈ [0x60, 0x61, 0x68, 0x69, 0x6A, 0x6B])
      && !srcHashed (r.ops.map OpSt.w) w
    ({ attr := a, material := m, stamp := stamp }, if bare then kd 9 else useChecks s r w (r.par i) a m stamp true)

end Sys2Proof.Machine
end

