-- ==== Sys2Proof/Machine/Chain.lean ====
section
/-!
DEFINITION. A chain from its start to its end: key resolution and sequence numbers (R88, R146 to R148, R252 to R254, R262, R267,
R268), the reads and writes of its buffers (R89 to R98, R125), and the end of a chain (R102 to R105, R171, R205), with the
commands CHAIN_START, DATA_READ_RETURN and COPY_OPERATION.
-/

namespace Sys2Proof.Machine

/-! ### Violations and events of a request -/

/-- The kind and the number of a request as the source of an access (R483): its submission ring. -/
def Req.srcNumber (r : Req) : Nat × Nat :=
  match r.origin with
  | .ring m => (kindRequest, m.val)
  | .boot _ => (kindBoot, 0)
  | .course _ _ m => (kindRequest, m.val)

def reqViol (r : Req) (addr : Nat) (d : Dir) (cause : Nat) (s : State) : State :=
  viol r.priv addr d cause r.srcNumber.1 r.srcNumber.2 (eTag r.entry) (r.gen.toNat % 65536) s

/-- A request of the boot ring (R475). -/
def Req.isBoot (r : Req) : Bool :=
  match r.origin with
  | .boot _ => true
  | _ => false

/-- The rules under which the accesses of a request are checked: its admission generation's (R16); for a boot request those of the
generation active at issue (R368). -/
def Req.content (s : State) (r : Req) : Content := if r.isBoot then s.gen.act else s.rules r.rulesPrev

/-- The check of an access of a request. -/
def reqCheck (s : State) (r : Req) (d : Dir) (addr len : Nat) : Option (Nat × Nat) :=
  check s (r.content s) r.priv r.world d addr len

/-- A KS_EVENT record (R441). -/
def ksEvent (slot : Nat) (bank : Bool) (cause : Nat) (s : State) : State :=
  journal 0x21 0x11 [slot + 2048 * b2n bank + 4096 * cause] s

/-- The active bank of a slot fails its integrity check (R256): by its tag, or for the other two causes, of which an uncorrectable error
has a record of its own (R431). -/
def failBank (x : Nat) (ue : Bool) (s : State) : State :=
  ksEvent x (s.slot x).cur (b2n ue) (raiseG gKsSlotCorrupt (modSlot x (fun v => { v with corrupt := true, ueBank := ue }) s))
def failBankUe (x : Nat) (s : State) : State := journalUe 8 x (failBank x true s)

/-- A correctable error of the key store, of memory class 8, or of the key cache, 9 (R255, R256, R431). -/
def ksCe (cls : Nat) (s : State) : State := countCe cls (modKs (fun k => { k with ce := k.ce.bump }) s)

/-- A key cache entry fails its integrity check (R256); an uncorrectable error of the cache has a record besides (R431). -/
def failCache (h : Nat) (ue : Bool) (s : State) : State :=
  let s1 := setCacheEnt h ((s.cacheEnt h).map (fun c => { c with failed := true })) s
  if ue then journalUe 9 h s1 else s1

/-! ### Key resolution (R252, R262, R264, R267, R268, R275) -/

/-- The lifecycle state is DECOMMISSIONED: every slot reads EMPTY and the key cache holds nothing (R243). -/
def State.decom (s : State) : Bool := decide (5 ≤ s.roots.lc.toNat)

/-- Checks 2 and 3 of R252 for a slot. -/
def slotUsable (s : State) (x : Nat) : Option Fail :=
  let v := s.slot x
  if !v.hasCur || v.zeroing || s.decom then kd 7
  else if v.corrupt then some (stSlotCorrupt, if v.ueBank then 2 else 1)
  else none

/-- Checks 1 to 3 of R252: the bank or cache key that a reference names. -/
def findKey (s : State) (r : Req) (ref : Nat) : Except Fail KeyBind :=
  if 2 ^ 31 ≤ ref then
    let h := ref % 4096
    match s.cacheEnt h with
    | some c =>
      if c.tenant = r.tenant && !c.unload && !s.decom && inPartition s (s.rules r.rulesPrev) r.tenant.val h then
        if c.failed then .error (stSlotCorrupt, 3)
        else .ok { handle := some h, attr := c.attr, material := c.material, stamp := c.mstamp, prep := c.kept }
      else .error (stKeyDenied, 8)
    | none => .error (stKeyDenied, 8)
  else
    let x := ref % 2048
    match slotUsable s x with
    | some f => .error f
    | none =>
      let b := (s.slot x).act
      .ok { slot := some (x, (s.slot x).cur), attr := b.attr, material := b.material, stamp := b.mstamp, prep := b.prep }

/-- D of Form R is no wider than the record A (R267). -/
def narrowFail (r : Req) (a d : Bytes) : Option Fail :=
  if !attrValid d then some (stBadInput, 0x61)
  else if hasUse d uGenerate || hasUse d uAttest || (hasUse d uExport && !hasUse a uExport)
      || (hasUse d uExportDerived && !hasUse a uExportDerived) then kd 1
  else if aTenants d &&& aTenants a ≠ aTenants d ∨ !(aTenants d).testBit r.tenant.val then kd 2
  else if aMask d &&& aMask a ≠ aMask a ∨ (aMid d ^^^ aMid a) &&& aMask a ≠ 0 then kd 3
  else if aWorld d ≠ aWorld a ∧ aWorld a ≠ 2 then kd 4
  else if aLcs d &&& aLcs a ≠ aLcs d then kd 5
  else if aMpol d &&& aMpol a ≠ aMpol a then kd 6
  else none

/-- The root record A of 0x92 (R267). -/
def rootRecord (r : Req) : Bytes := mkAttr 0 0 0 0x0FF (2 ^ r.tenant.val) 0 0 126 0 0

/-- What a key's record forbids beyond the checks of R252: writing material that it does not let leave (R188, R214, R268, and the
KW and KWP unwrap), and a derived record that is too wide. -/
def recordFail (r : Req) (w : OpWord) (p a : Bytes) : Option Fail :=
  let needs := if w.opc = 0x21 ∨ w.opc = 0x23 ∨ w.opc = 0x90 ∨ w.opc = 0x91 then some uExport
    else if w.opc = 0x63 ∨ w.opc = 0x66 ∨ w.opc = 0x72 ∨ (w.opc = 0x77 ∧ hybRole w = 2) then some uExportDerived
    else none
  (match needs with
    | some u => if w.dst ≠ 0 && !hasUse a u then kd 1 else none
    | none => none)
  |>.or (if w.opc = 0x90 ∨ w.opc = 0x91 then narrowFail r a (frD p) else none)

/-- The rest of resolution for an operation without a key reference: the root keys, the identity, an unload (R264, R268, R275,
R297). -/
def keylessFail (s : State) (r : Req) (w : OpWord) (p : Bytes) : Option Fail :=
  let c := s.rules r.rulesPrev
  let t := r.tenant.val
  if w.opc = 0x92 then
    let u := decide (frPrf p = 1)
    if !bitOf (s.word c .ksKilnEn) (t + if u then 0 else 16) then kd 2
    else if (if u then s.roots.kU else s.roots.kL).isNone then kd 5
    else if w.dst ≠ 0 then kd 1
    else narrowFail r (rootRecord r) (frD p)
  else if w.opc = 0x95 then
    if !bitOf (s.word c .ksAttEn) t then kd 2 else if !s.ident.ready || s.ident.noid then kd 5 else none
  else if w.opc = 0x93 ∧ w.opt % 4 = 2 then
    (match s.cacheEnt (fwHandle p) with
      | some k => if k.tenant = r.tenant && !k.unload && inPartition s c t (fwHandle p) then none else kd 8
      | none => kd 8)
  else none

/-- The key that an operation writes into its target has the target's type (R262, R267). An install is judged when its blob is
read (R274). -/
def targetFits (w : OpWord) (p a : Bytes) : Bool :=
  match w.opc with
  | 0x62 => decide (aClass a = 0x10)
  | 0x70 => decide (aClass a = 0x14)
  | 0x73 => decide (aClass a = 0x17)
  | 0x77 => decide (aClass a = 0x1A)
  | 0x93 => true
  | _ => decide (frD p = a)

/-- A key pair generation for a slot whose curve it does not offer: USE = 1 goes with an ECDSA curve alone (R184), and P-521 is generated
into no slot (R187). -/
def destOffered (w : OpWord) (a : Bytes) : Option Fail :=
  if w.opc = 0x62 ∧ aParam a = 3 then unsup 0x40
  else if w.opc = 0x62 ∧ 2 ≤ w.opt ∧ !isEcdsaCurve (aParam a) then unsup 4
  else none

/-- The target's checks of R262, before its claim. A course slot is written by the master alone (R457); which slots are course slots is as
the request's admission generation says (R16). -/
def targetFail (s : State) (r : Req) (w : OpWord) (p : Bytes) (x : Nat) : Option Fail :=
  let v := s.slot x
  let a := v.act.attr
  slotUsable s x
    |>.or (whoChecks s r.tenant.val r.mid r.world a v.act.mstamp)
    |>.or (if hasUse a uGenerate && !(courseSlotIn s (r.content s) x && !crsIsMaster s) then none else kd 1)
    |>.or (if targetFits w p a then none else kd 9)
    |>.or (destOffered w a)
    |>.or (if v.ready then none else some (stBadInput, 0x63))

/-- A sequence number needs a slot: an allocating operation takes no handle and no KFROM key (DEDUCED, notes/assumptions/10.md). -/
def seqFail (w : OpWord) (p : Bytes) : Option Fail :=
  if isCipher w.opc && allocates w p && (w.kfrom || decide (2 ^ 31 ≤ w.key)) then kd 9 else none

/-- The operation installs or loads a key: in DECOMMISSIONED it is refused (R243). -/
def storesKey (w : OpWord) (p : Bytes) : Bool := (targetSlot w p).isSome || (decide (w.opc = 0x93) && decide (w.opt % 4 ≠ 2))

/-- Key resolution of one operation: its key or the first failing check. -/
def resolveKey (s : State) (r : Req) (w : OpWord) (p : Bytes) : Except Fail (Option KeyBind) :=
  if s.decom && storesKey w p then .error (stBadInput, 0x61)
  else match keyUse w p with
  | .key =>
    if w.kfrom then (match seqFail w p with
      | some f => .error f
      | none => .ok none)
    else match findKey s r w.key with
      | .error f => .error f
      | .ok k =>
        match (useChecks s r w p k.attr k.material k.stamp false).or ((seqFail w p).or
            ((recordFail r w p k.attr).or (if isHbs w.opc then hbsKeyFail w.opc k.material else none))) with
        | some f => .error f
        | none => .ok (some k)
  | _ => (match keylessFail s r w p with
    | some f => .error f
    | none => .ok none)

/-- The slots that an operation names: by its key reference and as its target (R86, R262). -/
def slotsOf (w : OpWord) (p : Bytes) : List Nat :=
  (if keyUse w p = .key && !w.kfrom && decide (w.key < 2 ^ 31) then [w.key % 2048] else []) ++ (targetSlot w p).toList

/-- What the memory of the key store gives as operation i reads its bank or its key cache entry (R255, R256): the check of the tag at a
first resolution, or of an error, fails; or the copies of NEXT no longer agree, which its allocation finds. -/
def readKey (r : Req) (w : OpWord) (p : Bytes) (f : KeyFault) (s : State) : State :=
  if keyUse w p = .key && !w.kfrom && decide (2 ^ 31 ≤ w.key) then
    (match findKey s r w.key, f with
      | .ok _, .corrected => ksCe 9 s
      | .ok _, .next => s
      | .ok _, .tag => failCache (w.key % 4096) false s
      | .ok _, .uncorrectable => failCache (w.key % 4096) true s
      | .error _, _ => s)
  else
    match slotsOf w p with
    | [] => s
    | x :: _ =>
      if (slotUsable s x).isSome then s
      else match f with
        | .corrected => ksCe 8 s
        | .tag => failBank x false s
        | .uncorrectable => failBankUe x s
        | .next => modSlot x (fun v => v.setAct { v.act with nextC := v.act.next }) s

/-- Resolution of operation i: its key is bound, its target claimed, its unload begun. -/
def resolveOp (found : Option (Fin 8 × KeyFault)) (id i : Nat) (s0 : State) : State × Option Fail :=
  match s0.req id with
  | none => (s0, none)
  | some r =>
    let w := (r.op i).w
    let p := r.par i
    let s := match found with
      | some (j, f) => if j.val = i then readKey r w p f s0 else s0
      | none => s0
    match resolveKey s r w p with
    | .error f => (s, some f)
    | .ok k =>
      let s1 := modOp id i (fun o => { o with key := k, madeAttr := if isKilnOp w.opc then frD p else [] }) s
      let s2 := if w.opc = 0x93 ∧ w.opt % 4 = 2 then
          setCacheEnt (fwHandle p) ((s1.cacheEnt (fwHandle p)).map (fun c => { c with unload := true })) s1
        else s1
      match targetSlot w p with
      | none => (s2, none)
      | some x =>
        match targetFail s2 r w p x with
        | some f => (s2, some f)
        | none =>
          (modSlot x (fun v => { v with staged := true })
            (modOp id i (fun o => { o with claimed := true, madeAttr := (s2.slot x).act.attr }) s2), none)

def resolveAll (found : Option (Fin 8 × KeyFault)) (id : Nat) : List Nat → State → State × Option Outcome
  | [], s => (s, none)
  | i :: t, s =>
    match resolveOp found id i s with
    | (s1, some f) => (s1, some (mkOut f i))
    | (s1, none) => resolveAll found id t s1

/-! ### Sequence numbers (R146 to R148, R456) -/

/-- A request ends in SEQ_EXHAUSTED at operation i (R147). -/
def seqOut (i : Nat) : Fail := (0x22, i)

/-- One allocation of operation i from NEXT, whose two copies are compared (R255, R256): a value, or why there is none. -/
def allocateNext (tenant i : Nat) (w : OpWord) (p : Bytes) (x : Nat) (b : Bool) (s : State) : State × Except Fail Nat :=
  let v := s.slot x
  let bank := if b then v.bankB else v.bankA
  let n := if bank.next = 0 && seqSkipsZero w then 1 else bank.next.toNat
  if bank.nextC ≠ ~~~bank.next then (failBank x true s, .error (stSlotCorrupt, 2))
  else if seqHard w p < n then (s, .error (seqOut i))
  else
    let soft := decide (bank.soft.toNat ≤ n) && !bank.softHit
    let upd (k : Bank) : Bank := { k.setNext (BitVec.ofNat 64 (n + 1)) with softHit := k.softHit || soft }
    let s1 := modSlot x (fun v => if b then { v with bankB := upd v.bankB } else { v with bankA := upd v.bankA }) s
    (if soft then ksEvent x b 2 (raiseT tenant evSeqSoft s1) else s1, .ok n)

/-- One allocation from the blocks that the course gave for a course slot's bank; the next block is asked for when a block is
three-quarters used (R456, R458). -/
def allocateBlock (i : Nat) (w : OpWord) (p : Bytes) (x : Nat) (b : Bool) (s : State) : State × Except Fail Nat :=
  let k := bankIx x b
  match (blocksOf s k).filter (fun q => decide (q.1 < q.2)) with
  | [] => (s, .error (seqOut i))
  | (lo, hi) :: t =>
    let n := if lo = 0 && seqSkipsZero w then 1 else lo
    if seqHard w p < n ∨ hi ≤ n then (s, .error (seqOut i))
    else
      let s1 := modCrs (fun c => { c with blocks := c.blocks.put [] k ((n + 1, hi) :: t) }) s
      (if t = [] ∧ hi - (n + 1) ≤ crsBlockLen s / 4 then askBlock k s1 else s1, .ok n)

/-- Which slots are course slots is as the request's admission generation says (R16). -/
def allocate (r : Req) (i : Nat) (x : Nat) (b : Bool) (s : State) : State × Except Fail Nat :=
  let w := (r.op i).w
  if courseSlotIn s (r.content s) x then allocateBlock i w (r.par i) x b s else allocateNext r.tenant.val i w (r.par i) x b s

def allocateAll (id : Nat) : List Nat → State → State × Option Outcome
  | [], s => (s, none)
  | i :: t, s =>
    match s.req id with
    | none => (s, none)
    | some r =>
      let w := (r.op i).w
      match (r.op i).key.bind KeyBind.slot, isCipher w.opc && allocates w (r.par i) with
      | some (x, b), true =>
        (match allocate r i x b s with
          | (s1, .ok v) => allocateAll id t (modOp id i (fun o => { o with seq := some (BitVec.ofNat 64 v) }) s1)
          | (s1, .error f) => (s1, some (mkOut f i)))
      | _, _ => allocateAll id t s

/-! ### The end of a chain -/

/-- The targets that the request still holds claimed. -/
def Req.claims (r : Req) : List Nat :=
  (List.range r.ops.length).filterMap (fun i => if (r.op i).claimed then targetSlot (r.op i).w (r.par i) else none)

/-- The tiles give up everything of a request or of work of the engine itself; its banks go to zeroization (R102, R205). -/
def freeTiles (id : Nat) (s : State) : State :=
  let bank (b : BankSt) : BankSt :=
    match b with
    | .loading q o => if q = id then .zeroizing id else .loading q o
    | .resident q o => if q = id then .zeroizing id else .resident q o
    | .running q o => if q = id then .zeroizing id else .running q o
    | x => x
  eachN (List.range 24) (fun t s =>
    modTile t (fun u => { u with
      run := if u.run.map Prod.fst = some id then none else u.run
      saved := u.saved.filter (fun p => p.1 ≠ id)
      bankA := bank u.bankA
      bankB := bank u.bankB }) s) s

/-! #### Work of the engine itself (R515) -/

/-- Such work is issued: it ranks by the number that it takes in the order of admissions. -/
def issueJob (kind : Nat) (work : JobWork) (s : State) : State :=
  modSch (fun c => { c with nextId := c.nextId + 1, jobs := c.jobs ++ [{ id := c.nextId, kind := kind, work := work }] }) s

/-- What the work is for. -/
def JobWork.purpose : JobWork → Purpose
  | .generation => .generation
  | .slot x => .slot x
  | .patch _ _ => .patches
  | .pairing p _ => .pairing p

/-- Work for a purpose is under way. -/
def working (s : State) (aim : Purpose) : Bool := s.sch.jobs.any (fun j => decide (j.work.purpose = aim))

/-- Work that is no longer wanted gives up its tiles; its numbers are no requests'. -/
def dropWork (aim : Purpose) (s : State) : State :=
  modSch (fun c => { c with jobs := c.jobs.filter (fun j => decide (j.work.purpose ≠ aim)) })
    ((s.sch.jobs.filter (fun j => decide (j.work.purpose = aim) && (s.req j.id).isNone)).foldl (fun s j => freeTiles j.id s) s)

/-- The work that the verification of the pending bank of a slot takes: the prepared state of an HMAC or KMAC key a digest tile, the public
key of an ML-DSA seed a public-key tile and then its hash a digest tile (R174, R259). -/
def prepareBank (x : Nat) (s : State) : State :=
  match aClass (s.slot x).idle.attr with
  | 0x04 | 0x05 => issueJob 2 (.slot x) s
  | 0x17 => issueJob 3 (.slot x) s
  | _ => s

/-- A pending bank is under verification; its work starts behind the writes to the bank that a supply warning defers (R259, R278). -/
def beginVerify (x : Nat) (s : State) : State :=
  let s1 := modSlot x (fun v => { v with staged := false, verify := true }) s
  if s.sup.active then modKs (fun k => { k with deferred := k.deferred ++ [.prepare x] }) s1 else prepareBank x s1

/-- A deferred write concerns the pending bank of a slot and is no longer wanted once that bank is zeroized. -/
def KsDefer.of (x : Nat) (d : KsDefer) : Bool :=
  match d with
  | .copy y | .prepare y | .verify y => decide (x = y)
  | _ => false

/-- Zero a pending bank that an operation claimed; the slot is READY again (R262). -/
def unclaim (x : Nat) (s : State) : State :=
  dropWork (.slot x) (modKs (fun k => { k with deferred := k.deferred.filter (fun d => !d.of x) })
    (modSlot x (fun v => { v.setIdle {} with staged := false, verify := false }) s))

/-! #### Streams of a chain that ends -/

/-- Parked contexts on a digest tile, and the entries that its store has left (R173). -/
def parkedOn (s : State) (t : Nat) : Nat :=
  (s.streams.filter (fun p => match p.2 with
    | some x => decide (x.tile = t) && x.holder.isNone
    | none => false)).length
def parkLimit (s : State) : Nat := if (healthyOf s 2).length = 4 then 16 else 24
def storeFree (s : State) (t : Nat) : Bool := decide (parkedOn s t + (s.tile t).saved.length < 32)

/-- The healthy tile with the fewest parked entries, among some. -/
def fewestParked (s : State) (ts : List Nat) : Option Nat :=
  ts.foldl (fun b t => match b with
    | none => some t
    | some x => if parkedOn s t < parkedOn s x then some t else some x) none

/-- Where the context of a part that ends on tile t parks (R173): there, or on the tile with the fewest parked entries that has one to spare,
of which 8 stay free of parked contexts. With fewer than four healthy tiles there may be none: the stream then closes, as one that finds no
room after a quarantine does (DESIGN CHOICE, notes/assumptions/28.md). -/
def parkDest (s : State) (t : Nat) : Option Nat :=
  if decide (parkedOn s t < parkLimit s) && storeFree s t && tileHealthy s t then some t
  else fewestParked s ((healthyOf s 2).filter (fun x => decide (parkedOn s x < 24) && storeFree s x))

/-- A stream that no part holds any more parks, or closes: it finds no room, or a waiting part closed it while another ran (R171). -/
def parked (t : Stream) (s : State) : Option Stream :=
  if t.closing then none else (parkDest s t.tile).map (fun x => { t with holder := none, tile := x })

/-- The input that a part has taken is absorbed into its stream, which is open to the next part and parks. -/
def intoStream (t : Stream) (b : Bytes) (s : State) : Option Stream := parked { t with data := t.data ++ b, count := t.count + b.length } s

/-- An outcome that closes the stream of a part which has not started (R171). -/
def Outcome.closes (o : Outcome) (last : Bool) : Bool :=
  decide (o.status = 0x50 ∨ o.status = 0x51 ∨ o.status = 0x60 ∨ (o.status = 0x61 ∧ last = true))

/-- The stream closes; while another part is at work on it, as that part ends. -/
def closeStream (ix : Nat) (s : State) : State :=
  setStream ix ((s.stream ix).bind (fun t => if t.holder = none then none else some { t with closing := true })) s

/-- The failing input or output of a part, which leaves its stream open. A reserved field of a scatter element read while the part runs,
UNSUPPORTED 0x02 after its start, is in no row of the table of R171: the stream closes (DESIGN CHOICE, notes/assumptions/10.md). -/
def Outcome.keepsOpen (o : Outcome) : Bool := decide (o.status = 0x02 ∨ o.status = 0x30 ∨ o.status = 0x31)

/-- The streams of the parts of a chain as the chain ends (R171): that of a part on its tile, or of a LAST part whose result is not
written, stays open for a failing input or output of that part alone; that of a part not yet started closes with TILE_FAULT, ABORTED,
SUPPLY_EVENT and FLUSHED. -/
def endStreams (r : Req) (o : Outcome) (s : State) : State :=
  eachN (List.range r.ops.length) (fun i s =>
    let q := r.op i
    let ix := streamIx r i
    let last := decide (i = o.lastop)
    if !isStream q.w then s
    else match q.kept, s.stream ix with
      | some t, none =>
        if last && o.keepsOpen then setStream ix (intoStream t ((r.src i).take q.consumed) s) s else s
      | _, none => s
      | _, some t =>
        if t.holder = some (r.id, i) then
          setStream ix (if last && o.keepsOpen then intoStream t ((r.src i).take q.consumed) s else none) s
        else if q.phase = .waiting ∧ 2 ≤ q.w.opt ∧ o.closes last then closeStream ix s
        else s) s

/-- The streams of the parts of a request that has not begun: they close with ABORTED and FLUSHED (R171). -/
def dropStreams (r : Req) (o : Outcome) (s : State) : State :=
  if r.phase ≠ .admitted ∨ (entryCheck r.entry r.isBoot).isSome ∨ r.foreign ∨ !o.closes true then s
  else (eOps r.entry).foldl (fun s w =>
    if isStream w && decide (2 ≤ w.opt) then closeStream (4 * r.tenant.val + fkStream (parBlock w (eParams r.entry))) s else s) s

/-- The pieces of an interval of a buffer: address, offset in the buffer, length (R91, R113). -/
def sglSegs : List (Nat × Nat) → Nat → Nat → Nat → List (Nat × Nat × Nat)
  | [], _, _, _ => []
  | (a, l) :: t, off, lo, hi =>
    let x := max off lo
    let y := min (off + l) hi
    (if x < y then [(a + (x - off), x, y - x)] else []) ++ sglSegs t (off + l) lo hi

def segsOf (ref : BufRef) (b : BufSt) (lo hi : Nat) : List (Nat × Nat × Nat) :=
  if ref.kind = kFlat then (if lo < hi then [(ref.addr + lo, lo, hi - lo)] else [])
  else if ref.kind = kSgl then sglSegs b.elems 0 lo hi
  else []

/-- The last byte of a write on a port (R15, R18). -/
def lastOn (a len : Nat) (port : Bool) : Option Nat :=
  ((pieces a len).filter (fun p => portOf p.1 = port)).getLast?.map (fun p => p.1 + p.2 - 1)

/-- A write of the request has left: the last byte on each port that it used. -/
def Req.sentOn (r : Req) (a len : Nat) : Req :=
  { r with port0 := (lastOn a len false).or r.port0, port1 := (lastOn a len true).or r.port1 }

/-- Zeros over one piece, up to the first byte that fails the check of the write (R15, R369). -/
def scrubSeg (r : Req) (a len : Nat) (s : State) : State :=
  let put (n : Nat) (s : State) : State := if n = 0 then s else modReq r.id (fun r => r.sentOn a n) (emitWr a (zeros n) s)
  match reqCheck s r .write a len with
  | none => put len s
  | some (fa, cause) => reqViol r fa .write cause (put (fa - a) s)

/-- Zeros over every destination byte written (R105). -/
def scrubAll (r : Req) (s : State) : State :=
  eachN (List.range r.refs.length) (fun b s =>
    let ref := r.ref b
    let n := (r.buf b).written
    if ref.kind = kFrame then
      (if 0 < n then emit (.fpWr ref.handle ref.fstart (zeros n)) s else s)
    else (segsOf ref (r.buf b) 0 n).foldl (fun s g => scrubSeg r g.1 g.2.2 s) s) s

def Req.wrote (r : Req) : Bool := (List.range r.refs.length).any (fun b => decide (0 < (r.buf b).written))

/-- DONE or DONE_TRUNCATED. -/
def Outcome.good (o : Outcome) : Bool := decide (o.status = 0x00 ∨ o.status = 0x01)

/-- The request is scrubbed: a failing tag of an AEAD decrypt or a record operation, or SCRUB on a failing outcome (R105);
a tenant reset applies SCRUB = 1 to what it stops (R434). The outcome is the chain's: a record that shows LATE or a failed read-back after a
chain that ended DONE is not scrubbed (DESIGN CHOICE, notes/assumptions/10.md: R105 names every other status, and such a record is known
only once the chain has ended). -/
def mustScrub (r : Req) (o : Outcome) : Bool :=
  !o.good && r.wrote
    && ((decide (o.status = 0x10) && cipherScrubs (r.op o.lastop).w.opc o.detail.toNat) || (flScrub r.entry && decide (r.ops ≠ []))
      || decide (o.status = 0x50))

/-- The FENCE read-back of one port (R18, R97). -/
def fencePort (id : Nat) (port : Bool) (s : State) : State :=
  match s.req id with
  | none => s
  | some r =>
    match (if port then r.port1 else r.port0) with
    | none => s
    | some a =>
      match reqCheck s r .read a 1 with
      | none => emitRd a 1 s
      | some (fa, cause) =>
        reqViol r fa .read cause (modReq id (fun r => { r with
          port0 := if port then r.port0 else none
          port1 := if port then none else r.port1
          fenceFail := r.fenceFail.or (some ⟨0x30, 3, 0⟩) }) s)

/-- The read-back of the last byte written through the frame port (R341). -/
def fenceFrame (r : Req) (s : State) : State :=
  eachN (List.range r.refs.length) (fun b s =>
    if (r.ref b).kind = kFrame ∧ 0 < (r.buf b).written then
      emit (.fpRd (r.ref b).handle ((r.ref b).fstart + (r.buf b).written - 1) 1) (modBuf r.id b (fun q => { q with fence := true }) s)
    else s) s

/-- The end of a chain with an outcome (R102 to R105, R262): tiles, banks and streams are given up, a claimed bank goes to
verification with DONE and is zeroized with any other status, the scrub and the read-backs leave. The record follows with COMPLETION_RECORD_WRITE. -/
def endChain (id : Nat) (o : Outcome) (s : State) : State :=
  match s.req id with
  | none => s
  | some r =>
    let s1 := dropStreams r o (endStreams r o (freeTiles id s))
    let s2 := eachN r.claims (fun x s => if o.status = 0 then beginVerify x s else unclaim x s) s1
    let scrub := mustScrub r o
    let s3 := if scrub then scrubAll r s2 else s2
    let fence := flFence r.entry && decide (r.ops ≠ [])
    let s4 := modReq id (fun r => { r with
      phase := .ended
      ops := r.ops.map (fun q => { q with claimed := q.claimed && decide (o.status = 0) })
      outcome := some o
      scrubbed := scrub
      port0 := if fence then r.port0 else none
      port1 := if fence then r.port1 else none
      finishNo := s.sch.nextId }) s3
    let s5 := modFp (fun p => { p with waiting := p.waiting.filter (· ≠ id) }) s4
    let s6 := modSch (fun c => { c with nextId := c.nextId + 1 }) s5
    if fence then fenceFrame r (fencePort id true (fencePort id false s6)) else s6

def kcvPrefix : Bytes := ascii [0x41, 0x48, 0x2D, 0x4B, 0x43, 0x56, 0x2D, 0x31]

/-- Step 4 of R259: the key check value of a record and its material, where it is asked for. -/
def kcvOk (s : State) (a m : Bytes) : Bool :=
  !bitOf s.own.wkcvEn 0 || decide ((sha3_256 (kcvPrefix ++ a ++ m.take (aLen a))).take 8 = fit 8 s.ks.wkcv)

/-- The operation whose claimed bank fails step 4 (R262). -/
def kcvFails (s : State) (r : Req) : Option Nat :=
  (List.range r.ops.length).find? (fun i => (r.op i).claimed && (match targetSlot (r.op i).w (r.par i) with
    | some x => !kcvOk s (fit 16 (s.slot x).idle.attr) (fit 64 (s.slot x).idle.material)
    | none => false))

/-- The end of a chain whose operations have all finished (R104). An installed key is compared with the key check value as its
verification starts; it fails with BAD_INPUT 0x61 (DESIGN CHOICE, notes/assumptions/18.md: R262 has step 4 of R259 follow and names no status
for its failure). -/
def endDone (id : Nat) (s : State) : State :=
  match s.req id with
  | none => s
  | some r =>
    match (List.range r.ops.length).find? (fun i => (r.op i).trunc) with
    | some i => endChain id ⟨0x01, BitVec.ofNat 8 i, r.ops.length - 1⟩ s
    | none =>
      match kcvFails s r with
      | some i => endChain id (mkOut (stBadInput, 0x61) i) s
      | none => endChain id ⟨0x00, 0, r.ops.length - 1⟩ s

/-! ### Reading (R91 to R95, R337) -/

/-- Reads of a range up to the first byte that fails its check (R369). -/
def issueRange (id b a l : Nat) (s : State) : State :=
  match s.req id with
  | none => s
  | some r =>
    match reqCheck s r .read a l with
    | none => emitRd a l (modBuf id b (fun q => { q with issued := q.issued + l }) s)
    | some (fa, cause) =>
      reqViol r fa .read cause (emitRd a (fa - a)
        (modBuf id b (fun q => { q with issued := q.issued + (fa - a), stop := some (stAccess, 1) }) s))

def elemsLen (b : BufSt) : Nat := (b.elems.map Prod.snd).sum

/-- Read the next element of a scatter list, or stop where the list ends or its read is denied (R91, R92). -/
def askElem (id b : Nat) (short : Fail) (s : State) : State :=
  match s.req id with
  | none => s
  | some r =>
    let q := r.buf b
    let ref := r.ref b
    if ref.len ≤ elemsLen q ∨ q.stop.isSome ∨ q.asking then s
    else if ref.nelem ≤ q.elems.length then modBuf id b (fun q => { q with stop := some short }) s
    else
      let a := ref.addr + 16 * q.elems.length
      match reqCheck s r .read a 16 with
      | none => emitRd a 16 (modBuf id b (fun q => { q with asking := true }) s)
      | some (fa, cause) => reqViol r fa .read cause (modBuf id b (fun q => { q with stop := some (stAccess, 4) }) s)

/-- Begin to read a buffer: the data of an INLINE reference is at hand, a frame is read up to the end of its chain (R337). -/
def startBuf (id b : Nat) (s : State) : State :=
  match s.req id with
  | none => s
  | some r =>
    let ref := r.ref b
    if (r.buf b).started then s
    else
      let s1 := modBuf id b (fun q => { q with started := true }) s
      if ref.len = 0 ∧ ref.kind ≠ kFrame then s1
      else if ref.kind = kFlat then issueRange id b ref.addr ref.len s1
      else if ref.kind = kSgl then askElem id b (stShort, 1) s1
      else if ref.kind = kInline then
        modBuf id b (fun q => { q with data := slice (eParams r.entry) ref.addr ref.len, issued := ref.len }) s1
      else
        let c := ((r.buf b).hdr.map (fun h => h.len.toNat)).getD 0
        let n := min ref.len (c - ref.fstart)
        let s2 := modBuf id b (fun q => { q with issued := n, stop := if c < ref.fstart + ref.len then some (stShort, 2) else none }) s1
        let s3 := if ref.fstart + ref.len < c then
            modReq id (fun r => { r with ops := r.ops.map (fun o => if o.w.src = b + 8 then { o with trunc := true } else o) }) s2
          else s2
        if 0 < n then emit (.fpRd ref.handle ref.fstart n) s3 else s3

/-- A signature under a seed that KFROM gives reads its message only once tr is complete (R218). -/
def Req.readsLate (r : Req) (i : Nat) : Bool := r.seedByKfrom i && !r.preHash i && decide ((r.op i).hashes = 0)

/-- A buffer that some operation reads, and that no waiting stream part holds back (R169), nor a signature before its tr (R218). -/
def Req.mayStart (r : Req) (b : Nat) : Bool :=
  (List.range r.ops.length).any (fun i =>
    let w := (r.op i).w
    decide (w.src = b + 8 ∨ w.aux = b + 8 ∨ r.pkbSel i = b + 8))
  && (List.range r.ops.length).all (fun i =>
    !(decide ((r.op i).w.src = b + 8)
      && ((isStream (r.op i).w && decide ((r.op i).phase = .waiting)) || r.readsLate i
        || (decide ((r.op i).w.opc = 0x74) && (r.op i).w.kfrom && (r.op i).key.isNone))))

def startBufs (id : Nat) (s : State) : State :=
  match s.req id with
  | none => s
  | some r => eachN ((List.range r.refs.length).filter r.mayStart) (startBuf id) s

/-- The request holds every frame it names (R334, R336). -/
def Req.lent (r : Req) : Bool :=
  (List.range r.refs.length).all (fun b => decide ((r.ref b).kind ≠ kFrame) || (r.buf b).loaned)

/-! ### Writing (R93, R97, R98, R105, R113) -/

/-- A write of a request's output has left: the extent and the last byte on each port. -/
def reqWrote (id b a off len : Nat) (s : State) : State :=
  modReq id (fun r => { r.sentOn a len with
    wxLo := min r.wxLo (b * 2 ^ 24 + off)
    wxHi := max r.wxHi (b * 2 ^ 24 + off + len - 1) }) s

/-- Write pieces of a buffer from the data of an output; where a check fails, the offset reached. -/
def writeSegs (id b : Nat) (data : Bytes) : List (Nat × Nat × Nat) → State → State × Option Nat
  | [], s => (s, none)
  | (a, off, len) :: t, s =>
    match s.req id with
    | none => (s, none)
    | some r =>
      let put (n : Nat) (s : State) : State :=
        if n = 0 then s
        else modBuf id b (fun q => { q with written := off + n }) (reqWrote id b a off n (emitWr a (slice data off n) s))
      match reqCheck s r .write a len with
      | none => writeSegs id b data t (put len s)
      | some (fa, cause) => (reqViol r fa .write cause (put (fa - a) s), some (off + (fa - a)))

/-- HOLD release waits for an operation that verifies (R98). -/
def Req.holds (r : Req) : Bool := flHold r.entry && r.ops.any (fun q => verifies q.w && decide (q.phase ≠ .done))


/-- How much of its output operation i may write now: all of it under STREAM release, up to what a pair has agreed on; under HOLD
none before every verifying operation has succeeded; never a key that passes by KFROM (R87, R98, R419). -/
def Req.mayWrite (r : Req) (i : Nat) : Nat :=
  let o := r.op i
  if r.holds then 0
  else if r.paired && decide (kindOfW o.w ≠ 0) && decide (o.phase ≠ .done) then min o.agreed (r.openLen i)
  else r.openLen i

/-- The first piece whose write is denied, with its address and cause. -/
def deniedSeg (s : State) (r : Req) (l : List (Nat × Nat × Nat)) : Option (Nat × Nat) := l.findSome? (fun g => reqCheck s r .write g.1 g.2.2)

/-- A LAST part writes nothing of its result where its destination does not take all of it (R171): the pieces that may leave now. -/
def lastHeld (s : State) (r : Req) (i n : Nat) : Bool :=
  let b := (r.op i).w.dst - 8
  isStream (r.op i).w && !isPart (r.op i).w && ((decide ((r.ref b).kind = kSgl) && decide (elemsLen (r.buf b) < n))
    || (deniedSeg s r (segsOf (r.ref b) (r.buf b) 0 n)).isSome)

/-- Write the pieces of an output that lie between what is written and n. -/
def writeOut (r : Req) (i n : Nat) (s : State) : State × Option Nat :=
  let b := (r.op i).w.dst - 8
  if lastHeld s r i n then
    match deniedSeg s r (segsOf (r.ref b) (r.buf b) 0 n) with
    | some (fa, cause) => (reqViol r fa .write cause s, some 0)
    | none => (s, none)
  else writeSegs r.id b (r.op i).output (segsOf (r.ref b) (r.buf b) (r.buf b).written n) s

/-- Write the output of operation i as far as it may go; the failure of a destination that ends or denies (R92, R124). A scatter list whose
pieces the output fills exactly is not at its end for a write: nothing more is to be written (DESIGN CHOICE, notes/assumptions/10.md: R92
does not say whether the engine looks for a further element then). -/
def flushOp (id i : Nat) (s : State) : State × Option Fail :=
  match s.req id with
  | none => (s, none)
  | some r =>
    let o := r.op i
    if o.w.dst < 8 ∨ r.foreign then (s, none)
    else
      let b := o.w.dst - 8
      let ref := r.ref b
      let q := r.buf b
      let n := r.mayWrite i
      if n ≤ q.written then (s, none)
      else if ref.kind = kFrame then
        let d := slice o.output q.written (n - q.written)
        (modBuf id b (fun q => { q with written := n }) (modReq id (fun r => { r with
            wxLo := min r.wxLo (b * 2 ^ 24 + q.written)
            wxHi := max r.wxHi (b * 2 ^ 24 + n - 1) })
          (emit (.fpWr ref.handle (ref.fstart + q.written) d) s)), none)
      else
        match writeOut r i n s with
        | (s1, some off) => (modOp id i (fun o => { o with produced := some off }) s1, some (stAccess, 2))
        | (s1, none) =>
          if ref.kind = kSgl ∧ elemsLen q < n ∧ !isSrc (r.ops.map OpSt.w) b then
            let s2 := askElem id b (stBadInput, 2) s1
            (match ((s2.req id).getD r).buf b with
              | q2 => if q2.asking then (s2, none) else match q2.stop with
                | some f => (modOp id i (fun o => { o with produced := some q2.written }) s2, some f)
                | none => (s2, none))
          else (s1, none)

/-- All that operation i may ever write has been written. -/
def Req.flushed (r : Req) (i : Nat) : Bool :=
  let o := r.op i
  decide (o.w.dst < 8) || r.foreign || decide (r.mayWrite i ≤ (r.buf (o.w.dst - 8)).written)

/-! ### Progress -/

/-- The operation takes its input as it comes: it holds its tile or its bank, or is a COPY under way (R99). A saved cipher or digest
operation takes and delivers nothing before its resume (R134, R159); a pair in dispute has stopped (R420). -/
def OpSt.takes (o : OpSt) : Bool := !o.disputed && (decide (o.phase = .running) || (decide (o.phase = .saved) && decide (kindOfW o.w = 3)))

/-- What an operation has delivered before its end (R143). -/
def soFar (r : Req) (i : Nat) (taken : Bytes) : Bytes :=
  let w := (r.op i).w
  if w.opc = 0x01 then taken
  else if isCipher w.opc then cipherSoFar (r.ctx i) (r.keyBytes i) (((r.op i).seq.map BitVec.toNat).getD 0) taken
  else []

/-- A key that operation i takes from an operation that has ended: the key, or the check that fails (R253, R254). -/
def receiveKey (id i : Nat) (s : State) : State × Option Fail :=
  match s.req id with
  | none => (s, none)
  | some r =>
    let o := r.op i
    if !(o.w.kfrom && o.key.isNone && decide (o.phase = .waiting) && decide ((r.op o.w.key).phase = .done)
        && decide (keyUse o.w (r.par i) = .key)) then (s, none)
    else
      match kfromKey s r i o.w.key with
      | (_, some f) => (s, some f)
      | (k, none) =>
        match (recordFail r o.w (r.par i) k.attr).or (hmacKeyFail o.w (r.par i) (typeOf k.attr)) with
        | some f => (s, some f)
        | none => (modOp id i (fun o => { o with key := some k }) s, none)

/-- An input that must be whole before the operation starts has ended early, or the PKB key names a type that is not offered
(R92, R100, R234). -/
def inputFail (r : Req) (i : Nat) : Option Fail :=
  let o := r.op i
  if o.phase ≠ .waiting then none
  else (r.stopOf o.w.aux).or ((r.stopOf (r.pkbSel i)).or
    ((if kindOfW o.w = 3 ∨ kindOfW o.w = 0 then (if o.w.opc = 0x01 then none else r.stopOf o.w.src) else none).or
      (if isHbs o.w.opc && decide (r.pkbSel i ≠ 0) && r.whole (r.pkbSel i) then hbsKeyFail o.w.opc (pkKey r i) else none)))

/-- Input from an earlier operation is there: that operation has delivered some, or has ended (R99). -/
def Req.srcReady (r : Req) (i : Nat) : Bool :=
  let v := (r.op i).w.src
  decide (v = 0 ∨ 8 ≤ v) || decide ((r.op (v - 1)).phase = .done) || (decide ((r.op (v - 1)).phase ≠ .waiting) && decide (r.data v ≠ []))

/-- The inputs that an operation needs whole are there, and what it takes as it comes has begun to come (R99, R100). -/
def Req.inputsReady (r : Req) (i : Nat) : Bool :=
  let o := r.op i
  r.srcReady i && r.whole o.w.aux && r.whole (r.pkbSel i)
    && (decide (keyUse o.w (r.par i) ≠ .key) || o.key.isSome)

/-- Operation i of a running request can start. -/
def Req.canStart (r : Req) (i : Nat) : Bool :=
  decide (r.phase = .running) && r.fwd.isNone && r.lent && decide (i < r.ops.length) && decide ((r.op i).phase = .waiting) && r.inputsReady i

/-- The operation waits for a hash that a digest tile makes for it (R178): before its bank, in the middle of it, or the MAC of an SRTP
packet. -/
def Req.hashDue (r : Req) (i : Nat) : Bool :=
  let o := r.op i
  decide (r.phase = .running) && r.fwd.isNone && (match kindOfW o.w, o.phase with
    | 1, .running => srtpHmac o.w && decide (o.hashes = 0)
    | 3, .waiting => r.canStart i && r.preHash i && decide (o.hashes = 0)
    | 3, .running | 3, .saved => o.checked && decide (o.hashes < r.hashTotal i)
    | _, _ => false)

/-- No healthy tile of the kind is left, or no healthy digest tile for a hash (R124, R178, R203, R396). -/
def noTile (s : State) (r : Req) (i : Nat) : Bool :=
  let o := r.op i
  (decide (kindOfW o.w ≠ 0) && decide (o.phase = .waiting) && r.fwd.isNone && decide (healthyOf s (kindOfW o.w) = []))
    || (r.hashDue i && decide (healthyOf s 2 = []))

/-- A PAIR_VOTE record (R420, R421, R441). -/
def pairRecord (r : Req) (o : OpSt) (voter outcome : Nat) (s : State) : State :=
  journal 0x33 0x10 [o.tiles.headD 0 + 2 ^ 8 * (o.tiles.getD 1 0) + 2 ^ 16 * voter + 2 ^ 24 * outcome, r.tenant.val + 2 ^ 16 * eTag r.entry] s

/-- A dispute waits for a voter, and fewer than three tiles of its kind remain healthy (R19, R421). -/
def noVoter (s : State) (o : OpSt) : Bool := o.disputed && o.voter.isNone && decide ((healthyOf s (kindOfW o.w)).length < 3)

/-- Why operation i can go no further, whatever comes: its inputs, or the tiles. -/
def stuckFail (s : State) (r : Req) (i : Nat) : Option Fail :=
  (inputFail r i).or (if noTile s r i then some (stTileFault, 2) else if noVoter s (r.op i) then some (stTileFault, 1) else none)


/-- One operation of a running chain moves on: the failure that ends it, if one does. -/
def settleOp (id i : Nat) (s : State) : State × Option Fail :=
  match receiveKey id i s with
  | (s1, some f) => (s1, some f)
  | (s1, none) =>
    match s1.req id with
    | none => (s1, none)
    | some r =>
      match stuckFail s1 r i with
      | some f =>
        let s2 := modOp id i (fun o => { o with consumed := if kindOfW o.w = 3 then (r.src i).length else o.consumed }) s1
        (if noVoter s1 (r.op i) then pairRecord r (r.op i) 0x1F 3 s2 else s2, some f)
      | none =>
        let o := r.op i
        let taken := r.src i
        let s2 := if o.takes then modOp id i (fun o => { o with consumed := taken.length, output := soFar r i taken }) s1 else s1
        let s3 := if o.takes && decide (o.w.opc = 0x01) && decide (taken.length = r.srcLen i) then
            modOp id i (fun o => { o with phase := .done }) s2
          else s2
        match flushOp id i s3 with
        | (s4, some f) => (s4, some f)
        | (s4, none) => (s4, if o.takes then r.stopOf o.w.src else none)

def settleOps (id : Nat) : List Nat → State → State × Option Outcome
  | [], s => (s, none)
  | i :: t, s =>
    match settleOp id i s with
    | (s1, some f) => (s1, some (mkOut f i))
    | (s1, none) => settleOps id t s1

/-- A running chain moves on as far as what has arrived lets it, unless an engine reset response has begun (R404); it ends at its
lowest-numbered failing operation, or when all have finished and written (R99, R103, R104). The second pass lets an operation that a HOLD released write. -/
def settle (id : Nat) (s : State) : State :=
  match s.req id with
  | none => s
  | some r =>
    if r.phase ≠ .running ∨ r.fwd.isSome ∨ !r.lent ∨ s.held then s
    else
      let ixs := List.range r.ops.length
      match settleOps id ixs (startBufs id s) with
      | (s1, some o) => endChain id o s1
      | (s1, none) =>
        match settleOps id ixs (startBufs id s1) with
        | (s2, some o) => endChain id o s2
        | (s2, none) =>
          match s2.req id with
          | none => s2
          | some r2 =>
            if ixs.all (fun i => decide ((r2.op i).phase = .done) && r2.flushed i) then endDone id s2 else s2

/-- Every running chain moves on: a kind of tile without a healthy tile ends the operations that wait for it (R396). -/
def settleAll (s : State) : State := s.reqs.foldl (fun s r => settle r.id s) s

/-! ### CHAIN_START (R106, R88, R363) -/

/-- A SCHEDULED request with DROP_LATE that is past its deadline, or nearer to it than DMARGIN (R361 to R364). -/
def dropsLate (s : State) (r : Req) : Bool :=
  match r.origin, r.deadline with
  | .ring m, some d =>
    r.sched && flDropLate r.entry
      && decide (d.toNat < s.judgedNs + (s.sq r.tenant.val m.val).dmargin)
  | _, _ => false

/-- The slots that an admitted entry names. -/
def namedSlots (e : Bytes) : List Nat :=
  if (entryCheck e false).isSome then [] else (eOps e).flatMap (fun w => slotsOf w (parBlock w (eParams e)))

/-- Requests that name one slot are resolved in their admission order (R17). The keys of a forwarded request come with it. -/
def inTurn (s : State) (r : Req) : Bool :=
  r.foreign || s.reqs.all (fun q => decide (r.id ≤ q.id) || decide (q.phase ≠ .admitted) || q.foreign
    || (namedSlots r.entry).all (fun x => decide (x ∉ namedSlots q.entry)))

/-- The frames that a request names, each once, by the lowest buffer that names it. -/
def Req.frames (r : Req) : List Nat :=
  (List.range r.refs.length).filter (fun b => decide ((r.ref b).kind = kFrame)
    && (List.range b).all (fun c => !(decide ((r.ref c).kind = kFrame) && decide ((r.ref c).handle = (r.ref b).handle))))

/-- The entry passes into its operations. -/
def openEntry (id : Nat) (s : State) : State :=
  modReq id (fun r => { r with phase := .running, ops := (eOps r.entry).map (fun w => { w := w }), refs := eRefs r.entry }) s

/-- A request starts: its entry is judged, its keys are resolved and its sequence numbers taken (R88, R106). A forwarded request brings its keys
and its sequence values (R461). -/
def startChain (found : Option (Fin 8 × KeyFault)) (id : Nat) (s : State) : State :=
  match s.req id with
  | none => s
  | some r =>
    if r.foreign then settle id (modReq id (fun r => { r with phase := .running }) s)
    else match entryCheck r.entry r.isBoot with
    | some o => endChain id o (modReq id (fun r => { r with ops := [] }) s)
    | none =>
      let s1 := openEntry id s
      if eNops r.entry = 0 then endChain id ⟨0, 0, 0⟩ s1
      else if dropsLate s r then endChain id ⟨0x62, 2, 0⟩ s1
      else
        let ixs := List.range (eNops r.entry)
        match resolveAll found id ixs s1 with
        | (s2, some o) => endChain id o s2
        | (s2, none) =>
          match s2.req id with
          | none => s2
          | some r2 =>
            match sizesCheck r2.entry (knownOf r2) with
            | some o => endChain id o s2
            | none =>
              match allocateAll id ixs s2 with
              | (s3, some o) => endChain id o s3
              | (s3, none) =>
                if r2.frames = [] then settle id s3
                else r2.frames.foldl (fun s b => emit (.fpQuery (r2.ref b).handle) s) s3

/-- CHAIN_START: a sequencer takes up an admitted request (R106). The check of its context memory (R22, R431) and what the key store finds at
one of its operations come as operands. -/
def fxChainStart (id : Nat) (ecc : Ecc) (found : Option (Fin 8 × KeyFault)) (s : State) : State :=
  withReq id (fun r s => whenS (decide (r.phase = .admitted) && inTurn s r && decide (s.csSt r.cs = .healthy))
    (fun s => startChain found id (memCheck 1 (if r.isBoot || r.foreign then none else some r.tenant.val) ecc s)) s) s
def execChainStart (id : Nat) (s : State) (ecc : Ecc := .clean) (found : Option (Fin 8 × KeyFault) := none) : Host.Outcome State Fault Refusal :=
  .next (fxChainStart id ecc found s)

/-! ### DATA_READ_RETURN (R91, R95, R99) -/

/-- Bytes of a buffer asked for and not yet arrived. -/
def BufSt.due (b : BufSt) : Nat := b.issued - b.data.length

/-- The buffer is to be read again from its start (R409); what its reads under way still bring is not wanted. -/
def BufSt.again (b : BufSt) : BufSt :=
  { b with started := false, data := [], issued := 0, stop := none, elems := [], asking := false
           stale := b.stale + (if b.asking then 16 else b.due) }

/-- An element of a scatter list has arrived (R91). -/
def takeElem (id b : Nat) (data : Bytes) (s : State) : State :=
  match s.req id with
  | none => s
  | some r =>
    let q := r.buf b
    let s1 := modBuf id b (fun q => { q with asking := false }) s
    if !(zAt data 6 2 && zAt data 0xB 5) then modBuf id b (fun q => { q with stop := some (stUnsupported, 2) }) s1
    else
      let a := leAt data 0 6
      let l := min (leAt data 8 3) ((r.ref b).len - elemsLen q)
      let s2 := modBuf id b (fun q => { q with elems := q.elems ++ [(a, l)] }) s1
      if !q.started then s2
      else if 0 < l then issueRange id b a l s2
      else askElem id b (stShort, 1) s2

/-- Data of a buffer has arrived; at the end of a piece the next element is read. -/
def takeData (id b : Nat) (data : Bytes) (s : State) : State :=
  match s.req id with
  | none => s
  | some r =>
    let d := data.take (r.buf b).due
    let s1 := modBuf id b (fun q => { q with data := q.data ++ d }) s
    if (r.ref b).kind = kSgl ∧ (r.buf b).data.length + d.length = (r.buf b).issued then askElem id b (stShort, 1) s1 else s1

/-- Pieces are read, each after the check of its read, up to the first that fails it (R15, R369). -/
def readSegs (id b : Nat) : List (Nat × Nat × Nat) → State → State
  | [], s => s
  | (a, _, len) :: t, s =>
    let s1 := issueRange id b a len s
    if ((s.req id).map (fun r => (reqCheck s r .read a len).isNone)).getD false then readSegs id b t s1 else s1

/-- The operand is read again where the staging buffer lost it (R431). -/
def rereadBuf (r : Req) (b : Nat) (s : State) : State :=
  let ref := r.ref b
  let q := r.buf b
  if q.asking then askElem r.id b (stShort, 1) (modBuf r.id b (fun q => { q with asking := false }) s)
  else if ref.kind = kFrame then emit (.fpRd ref.handle (ref.fstart + q.data.length) q.due) s
  else readSegs r.id b (segsOf ref q q.data.length q.issued) (modBuf r.id b (fun q => { q with issued := q.data.length }) s)

def fxDataReadReturn (id : Nat) (buf : Fin 8) (data : Bytes) (ecc : Ecc) (s : State) : State :=
  withReq id (fun r s =>
    let b := buf.val
    let q := r.buf b
    whenS (decide (r.phase = .running) && (q.asking || decide (0 < q.due) || decide (0 < q.stale))) (fun s =>
      if 0 < q.stale then modBuf id b (fun q => { q with stale := q.stale - max 1 data.length }) s
      else if ecc = .uncorrectable then rereadBuf r b (raiseG gUe (journalUe 3 0 s))
      else
        let s1 := if ecc = .corrected then countCe 3 s else s
        settle id (if q.asking then takeElem id b data s1 else takeData id b data s1)) s) s
def execDataReadReturn (id : Nat) (buf : Fin 8) (data : Bytes) (ecc : Ecc) (s : State) : Host.Outcome State Fault Refusal :=
  .next (fxDataReadReturn id buf data ecc s)

/-! ### COPY_OPERATION (R85) -/

/-- COPY moves its input through the staging buffer from now on. -/
def fxCopyOperation (id : Nat) (op : Fin 8) (s : State) : State :=
  withReq id (fun r s => whenS (r.canStart op.val && decide ((r.op op.val).w.opc = 0x01))
    (fun s => settle id (modOp id op.val (fun o => { o with phase := .running }) s)) s) s
def execCopyOperation (id : Nat) (op : Fin 8) (s : State) : Host.Outcome State Fault Refusal := .next (fxCopyOperation id op s)

end Sys2Proof.Machine
end

