-- ==== Sys2Proof/Machine/Entropy.lean ====
section
/-!
DEFINITION. The entropy source, its health tests and its pool, and the four random bit generators (R281 to R288, R290), with the
commands ENTROPY_SAMPLE, ENTROPY_BLOCK_CONDITIONED, ES_RESTART, ES_RAW_READ, RBG_RESEED, RBG_RESTART and RBG_INSTANTIATE.
-/

namespace Sys2Proof.Machine

/-- An ES_RBG record (R441): unit 0 to 3 a generator, 4 the source. -/
def esRecord (unit cause : Nat) (s : State) : State := journal 0x22 0x11 [unit + 2 ^ 8 * cause] s

def esBlock : Nat := 1024

/-! ### Generators (R285 to R288) -/

/-- Entry to FAILED: the state is zeroized (R287). -/
def rbgFail (k cause : Nat) (s : State) : State :=
  esRecord k cause (raiseG gRbgFail (modRbg k (fun _ => { st := .failed }) s))

/-- The personalization string of generator k (R285). -/
def rbgPers (s : State) (k : Nat) : Bytes :=
  let x := ascii [0x41, 0x48, 0x2D, 0x52, 0x42, 0x47] ++ toLE 1 k
  match s.roots.kU with
  | some kU => kmac256 48 kU x (ascii [0x41, 0x48, 0x2D, 0x52, 0x42, 0x47])
  | none => sha384 x

/-- A generator takes a seed: its first one with the personalization string, from key and V zero; a later one as a reseed (R285). -/
def Rbg.seed (g : Rbg) (pers block : Bytes) : Rbg :=
  let u := if g.key = [] then drbgUpdate (zeros 32) (zeros 16) (xorB block pers) else drbgUpdate g.key g.v block
  { g with st := .healthy, key := u.1, v := u.2, calls := 0 }

/-- A pool block reseeds a generator, and is zeroized as it is taken; with the pool empty the generator is STARVED (R283, R287). -/
def reseed (k : Nat) (s : State) : State :=
  match s.es.pool with
  | [] =>
    if (s.rbg k).st = .starved then s else raiseG gRbgStarved (modRbg k (fun g => { g with st := .starved }) s)
  | b :: t => modRbg k (fun g => g.seed (rbgPers s k) b) (modEs (fun e => { e with pool := t }) s)

/-- The pool block that is taken next is read: with an uncorrectable error it is discarded (R283, R431). -/
def readBlock (ecc : Ecc) (s : State) : State :=
  match ecc with
  | .uncorrectable => if s.es.pool = [] then s else journalUe 10 0 (modEs (fun e => { e with pool := e.pool.drop 1 }) s)
  | .corrected => if s.es.pool = [] then s else countCe 10 s
  | .clean => s

/-- The bytes of one generate call and the generator after it, with additional input (R285, R289). -/
def Rbg.draw (g : Rbg) (n : Nat) (add : Bytes) : Bytes × Rbg :=
  let u := if add = [] then (g.key, g.v) else drbgUpdate g.key g.v (fit 48 add)
  let blocks := ceilDiv n 16
  let b := drbgBlocks u.1 u.2 blocks
  let w := drbgUpdate u.1 (toBE 16 (beNat u.2 + blocks)) (fit 48 add)
  (b, { g with key := w.1, v := w.2, calls := g.calls + 1, last := b.drop (16 * (blocks - 1)) })

/-- A reseed within a generate call, or of a STARVED generator: the block that it takes is read, and one with an uncorrectable error, which is
a free value, is discarded (R283). -/
def reseedRead (k : Nat) (s : State) : State :=
  reseed k (readBlock (if (s.es.pool.head?.map Config.blockBad).getD false then .uncorrectable else .clean) s)

/-- Some generator is HEALTHY. -/
def rbgHealthy (s : State) : Bool := (List.range 4).any (fun k => decide ((s.rbg k).st = .healthy))

/-- The generators in the order in which a draw tries them (R288). -/
def genOrder (pref : Nat) : List Nat := (List.range 4).map (fun i => (pref + i) % 4)

/-- The 16-byte blocks of a generate call, after the last block of the call before it, hold two equal neighbours (R286). -/
def equalBlocks : Nat → Bytes → Bytes → Bool
  | 0, _, _ => false
  | n + 1, prev, b => decide (prev = b.take 16) || equalBlocks n (b.take 16) (b.drop 16)

/-- One generate call for n bytes with additional input from a healthy generator, and the bytes that it delivers. A reseed that is due
comes first, without the additional input, which the call itself takes (DESIGN CHOICE, notes/assumptions/35.md); equal blocks fail the
generator, and the next healthy one serves the whole draw (R286 to R289, R300). -/
def generateAdd (pr : Bool) (n : Nat) (add : Bytes) : List Nat → State → Option Bytes × State
  | [], s => (none, s)
  | k :: t, s =>
    if (s.rbg k).st ≠ .healthy then generateAdd pr n add t s
    else
      let s1 := if pr || decide (65536 ≤ (s.rbg k).calls) then reseedRead k s else s
      if (s1.rbg k).st ≠ .healthy then generateAdd pr n add t s1
      else
        let d := (s1.rbg k).draw n add
        if equalBlocks (ceilDiv n 16) (s1.rbg k).last d.1 then generateAdd pr n add t (rbgFail k 5 s1)
        else (some (d.1.take n), modRbg k (fun _ => d.2) s1)

/-- The same without additional input: the draws of the engine itself. -/
def generate (n : Nat) (order : List Nat) (s : State) : Option Bytes × State := generateAdd false n [] order s

/-- RBG_RESEED (R286, R287): the reseed of a generator falls due, or a block arrives for a STARVED one. An uncorrectable error in
the state that it reads fails the generator; one in the pool block discards the block (R283); a supply warning holds a generator back (R407). -/
def fxRbgReseed (k : Fin 4) (ecc block : Ecc) (s : State) : State :=
  whenS (!s.sup.active && decide ((s.rbg k.val).st = .healthy ∨ (s.rbg k.val).st = .starved)) (fun s =>
    match ecc with
    | .uncorrectable => rbgFail k.val 6 (journalUe 10 k.val s)
    | .corrected => reseed k.val (readBlock block (countCe 10 s))
    | .clean => reseed k.val (readBlock block s)) s
def execRbgReseed (k : Fin 4) (ecc : Ecc) (s : State) (block : Ecc := .clean) : Host.Outcome State Fault Refusal :=
  .next (fxRbgReseed k ecc block s)

/-- K_tag is drawn once: from RBG0, or, where that has failed, from the next HEALTHY generator (R255, R288, R469). -/
def drawTag (s : State) : State :=
  if s.ks.kTag.isSome || decide ((s.rbg 0).st = .uninit) then s
  else
    match generate 32 (genOrder 0) s with
    | (some b, s1) => modKs (fun k => { k with kTag := some b }) s1
    | (none, s1) => s1

/-- RBG_INSTANTIATE (R286, R287, R407), once the fuse read has given K_U or shown that there is none (R285, R469). -/
def fxRbgInstantiate (k : Fin 4) (katOk : Bool) (block : Ecc) (s : State) : State :=
  whenS (s.start.fuses && !s.sup.active && decide ((s.rbg k.val).st = .uninit)) (fun s =>
    if !katOk then drawTag (rbgFail k.val 4 s)
    else
      let s1 := readBlock block s
      if s1.es.pool = [] then s1 else drawTag (reseed k.val s1)) s
def execRbgInstantiate (k : Fin 4) (katOk : Bool) (s : State) (block : Ecc := .clean) : Host.Outcome State Fault Refusal :=
  .next (fxRbgInstantiate k katOk block s)

/-- AH_RBG_CTL.RESTART (R287, R491). -/
def rbgRestart (k : Nat) (s : State) : State := modRbg k (fun _ => {}) s
def fxRbgRestart (who : Who) (k : Fin 4) (s : State) : State := gateW who .rbgCtl (BitVec.ofNat 64 (2 ^ k.val)) (rbgRestart k.val) s
def execRbgRestart (who : Who) (k : Fin 4) (s : State) : Host.Outcome State Fault Refusal := .next (fxRbgRestart who k s)

/-! ### The source (R281 to R284) -/

/-- AH_ES_CTL.RAW as it is taken (R284). -/
def rawOn (s : State) : Bool := s.openLife && bitOf s.own.esCtl 0

/-- The tests begin again: a first sample of a run and of a window is awaited. -/
def esFresh (e : Entropy) : Entropy := { e with run := 0, winPos := 0, winSame := 0, tested := 0 }

/-- A failure of a test (R282): counted by the test, recorded by its cause, the block in progress discarded; the third in a row in
RECOVERING is entry to FAILED. -/
def esFailure (rct : Bool) (s : State) : State :=
  let e := s.es
  let startup := decide (e.st = .starting ∨ e.st = .recovering)
  let dead := decide (e.st = .recovering) && decide (2 ≤ e.fails)
  let s1 := esRecord 4 (if startup then 2 else if rct then 0 else 1) (modEs (fun e => { esFresh e with
    rctFails := if rct then e.rctFails.bump else e.rctFails
    aptFails := if rct then e.aptFails else e.aptFails.bump
    fails := e.fails + 1
    samples := if dead then [] else e.samples.take (e.samples.length / esBlock * esBlock)
    st := if dead then .failed else .recovering }) s)
  if dead then raiseG gEsFail (esRecord 4 3 s1) else s1

/-- The two tests advance by one sample (R281). The length of the run of equal samples, the sample's place in its window of 1024, and how
often the window's first sample has recurred. -/
def esAdvance (bit : Bool) (e : Entropy) : Entropy :=
  let fresh := decide (e.winPos = 0)
  { e with
    run := if e.run ≠ 0 ∧ e.last = bit then e.run + 1 else 1
    last := bit
    winFirst := if fresh then bit else e.winFirst
    winSame := if fresh then 0 else e.winSame + b2n (decide (e.winFirst = bit))
    winPos := (e.winPos + 1) % esBlock }

/-- The sample has passed both tests: the start-up test counts it, or the block in progress takes it (R281 to R284). -/
def esPass (raw bit : Bool) (e : Entropy) : Entropy :=
  if e.st = .starting ∨ e.st = .recovering then
    (if e.tested + 1 = esBlock then { e with st := .healthy, tested := 0 } else { e with tested := e.tested + 1 })
  else if raw then e
  else { e with samples := e.samples ++ [bit] }

/-- ENTROPY_SAMPLE (R281, R284). -/
def fxEntropySample (bit : Bool) (s : State) : State :=
  whenS s.start.osc (fun s =>
    let s0 := if rawOn s then modEs (fun e => { e with raw := (e.raw ++ [bit]).take 32 }) s else s
    if s.es.st = .failed then s0
    else
      let s1 := modEs (esAdvance bit) s0
      if 41 ≤ s1.es.run then esFailure true s1
      else if 800 ≤ s1.es.winSame then esFailure false s1
      else modEs (esPass (rawOn s) bit) s1) s
def execEntropySample (bit : Bool) (s : State) : Host.Outcome State Fault Refusal := .next (fxEntropySample bit s)

/-- The number that a list of bits spells, the earliest in bit 0. -/
def bitsNat : List Bool → Nat
  | [] => 0
  | b :: t => b2n b + 2 * bitsNat t

/-- The conditioned block of 1024 samples (R283), packed into bytes with the earliest sample in bit 0 of the first byte (DESIGN CHOICE,
notes/assumptions/5.md: the spec gives no packing). -/
def conditioned (samples : List Bool) : Bytes := sha384 (toLE 128 (bitsNat samples))

/-- ENTROPY_BLOCK_CONDITIONED (R282, R283): a block enters the pool, or is discarded for an uncorrectable error; a STARVED generator
takes one at once (R287), but not while a supply warning lasts (R407). A full pool takes no block. No sample is conditioned in FAILED, nor
while RAW is 1 (R282, R284). -/
def fxEntropyBlockConditioned (ecc : Ecc) (s : State) : State :=
  whenS (decide (esBlock ≤ s.es.samples.length) && decide (s.es.st ≠ .failed) && !rawOn s) (fun s =>
    let s1 := modEs (fun e => { e with samples := e.samples.drop esBlock, fails := 0 }) s
    match ecc with
    | .uncorrectable => journalUe 10 0 s1
    | _ =>
      let s2 := if ecc = .corrected then countCe 10 s1 else s1
      let s3 := if s2.es.pool.length < 8 then modEs (fun e => { e with pool := e.pool ++ [conditioned (s.es.samples.take esBlock)] }) s2 else s2
      match (List.range 4).find? (fun k => !s.sup.active && decide ((s.rbg k).st = .starved)) with
      | some k => reseedRead k s3
      | none => s3) s
def execEntropyBlockConditioned (ecc : Ecc) (s : State) : Host.Outcome State Fault Refusal := .next (fxEntropyBlockConditioned ecc s)

/-- AH_ES_CTL.RESTART acts only in FAILED (R282, R491). -/
def esRestart (s : State) : State :=
  if s.es.st = .failed then modEs (fun e => { esFresh e with st := .starting }) s else s
def fxEsRestart (who : Who) (s : State) : State := gateW who .esCtl 2 esRestart s
def execEsRestart (who : Who) (s : State) : Host.Outcome State Fault Refusal := .next (fxEsRestart who s)


/-- A read of AH_ES_RAW (R284, R491): the next 32 samples; the read waits for them. Zero unless RAW is in effect. `done` takes the
addressed bytes (R14). -/
def rawRead (who : Who) (done : Word → Word) (s : State) : State :=
  if !rawOn s then emit (.cfgRd who 0) s
  else if s.es.raw.length < 32 then s
  else emit (.cfgRd who (done (BitVec.ofNat 64 (bitsNat s.es.raw)))) (modEs (fun e => { e with raw := [] }) s)
def fxEsRawRead (who : Who) (s : State) : State := gateR who .esRaw (rawRead who id) s
def execEsRawRead (who : Who) (s : State) : Host.Outcome State Fault Refusal := .next (fxEsRawRead who s)

end Sys2Proof.Machine
end

