-- ==== Sys2Proof/Machine/Tiles.lean ====
section
/-!
DEFINITION. Tiles at work: allocation, yields and saved operations (R133 to R135, R158 to R160, R195 to R200), streams on their
tiles (R169 to R173), paired execution and votes (R19, R419 to R421), quarantine and rejoin (R422 to R424), grout tests
(R425 to R427), the watchdogs of tiles, sequencers and requests (R428 to R430), and the end of an operation (R103, R202, R205),
with the commands of these.
-/

namespace Sys2Proof.Machine

/-! ### What takes a tile (R133, R158, R178, R195, R515) -/

def BankSt.holds (b : BankSt) (id i : Nat) : Bool := decide (b = .loading id i ∨ b = .resident id i ∨ b = .running id i)

/-- A tile of kind k runs it, has saved it, or holds it in a bank. -/
def onTile (s : State) (k : Nat) (p : Nat × Nat) : Bool :=
  (kindTiles k).any (fun t =>
    decide ((s.tile t).run = some p) || decide (p ∈ (s.tile t).saved) || (s.tile t).bankA.holds p.1 p.2 || (s.tile t).bankB.holds p.1 p.2)

/-- Work of the engine itself of a kind; it has one operation, numbered 0. -/
def isJob (s : State) (k : Nat) (p : Nat × Nat) : Bool := decide (p.2 = 0) && s.sch.jobs.any (fun j => decide (j.id = p.1 ∧ j.kind = k))

/-- The operation waits for a hash of a digest tile. -/
def isService (s : State) (k : Nat) (p : Nat × Nat) : Bool :=
  decide (k = 2) && ((s.req p.1).map (fun r => r.hashDue p.2)).getD false

/-- The operation itself runs on tiles of kind k. -/
def ownOp (s : State) (k : Nat) (p : Nat × Nat) : Bool :=
  ((s.req p.1).map (fun r => decide (kindOfW (r.op p.2).w = k))).getD false

/-- A part waits while an earlier part of its stream is admitted and has not ended (R170). -/
def streamTurn (s : State) (r : Req) (i : Nat) : Bool :=
  s.reqs.all (fun q => (List.range (if q.phase = .admitted then eNops q.entry else q.ops.length)).all (fun j =>
    let w := if q.phase = .admitted then eOp q.entry j else (q.op j).w
    let p := if q.phase = .admitted then parBlock w (eParams q.entry) else q.par j
    !(isStream w && decide (q.tenant = r.tenant) && !q.foreign && decide (fkStream p = fkStream (r.par i))
      && (decide (q.id < r.id) || (decide (q.id = r.id) && decide (j < i)))
      && (match q.phase with
        | .admitted => true
        | .running => decide ((q.op j).phase ≠ .done)
        | _ => false))))

/-- Operation i of a request waits for a tile of its kind: a stream part in its turn, a public-key operation with its hash at hand (R170,
R192, R218). -/
def waitsTile (s : State) (r : Req) (i : Nat) : Bool :=
  r.canStart i && (!isStream (r.op i).w || streamTurn s r i)
    && (decide (kindOfW (r.op i).w ≠ 3) || ((r.whole (r.op i).w.src || r.readsLate i) && !r.hashDue i))

/-- What waits for a tile of a kind: operations, by request and number, hashes for other operations, and work of the engine itself. -/
def waitingOps (s : State) (k : Nat) : List (Nat × Nat) :=
  s.reqs.flatMap (fun r => ((List.range r.ops.length).filter (fun i =>
      (decide (kindOfW (r.op i).w = k) && waitsTile s r i) || (decide (k = 2) && r.hashDue i && !onTile s 2 (r.id, i)))).map
    (fun i => (r.id, i)))
  ++ ((s.sch.jobs.filter (fun j => decide (j.kind = k) && !onTile s k (j.id, 0))).map (fun j => (j.id, 0)))

/-! ### Rank (R133, R158, R196, R515) -/

/-- The class of a request; work of the engine itself ranks as EXPEDITE. -/
def clsOf (s : State) (id : Nat) : Nat :=
  match s.req id with
  | some r => r.cls
  | none => if s.sch.jobs.any (fun j => decide (j.id = id)) then 1 else 2

/-- Operation p ranks before operation q: by class, then in admission order, then in operation order. -/
def ranksBefore (s : State) (p q : Nat × Nat) : Bool :=
  decide (clsOf s p.1 < clsOf s q.1)
    || (decide (clsOf s p.1 = clsOf s q.1) && (decide (p.1 < q.1) || (decide (p.1 = q.1) && decide (p.2 < q.2))))

/-- A supply warning discarded the operation, which waits to run again (R410). -/
def isAgain (s : State) (p : Nat × Nat) : Bool := ((s.req p.1).map (fun r => (r.op p.2).rerun)).getD false

/-- Operation p takes a tile before q: what a supply warning discarded goes first (R410), each in its rank. -/
def goesBefore (s : State) (p q : Nat × Nat) : Bool := if isAgain s p = isAgain s q then ranksBefore s p q else isAgain s p

/-- The cipher tiles reserved for SCHEDULED work: the highest-numbered healthy ones (R356). -/
def reservedTiles (s : State) : List Nat :=
  let h := healthyOf s 1
  h.drop (h.length - min s.resv (h.length - 1))

/-- An operation of a class may use a tile (R133). -/
def permitted (s : State) (cls t : Nat) : Bool := decide (cls = 0) || decide (t ∉ reservedTiles s)

/-- A healthy tile with nothing running on it. -/
def tileIdle (s : State) (t : Nat) : Bool := tileHealthy s t && (s.tile t).run.isNone

/-- A free tile of the kind of an operation, which the operation may use. -/
def usableFree (s : State) (k cls : Nat) : Bool := (kindTiles k).any (fun t => tileIdle s t && permitted s cls t)

/-- A vote of the kind waits for its voter, which ranks before every waiting operation (R420). -/
def voterWaits (s : State) (k t : Nat) : Bool :=
  s.reqs.any (fun r => decide (r.phase = .running) && r.ops.any (fun o =>
    o.disputed && o.voter.isNone && decide (kindOfW o.w = k) && decide (t ∉ o.tiles) && permitted s r.cls t))

/-- The tile starts no operation while a supply event lasts (R407). -/
def tilesOpen (s : State) : Bool := s.start.serving && !s.sup.active

/-! ### Streams (R169 to R173) -/

/-- The checks of a part as it starts on its tile (R169). -/
def partFail (s : State) (r : Req) (i : Nat) : Option Fail :=
  let w := (r.op i).w
  match w.opt, s.stream (streamIx r i) with
  | 1, some _ => some (stBadInput, 0x30)
  | 1, none => none
  | _, none => some (stBadInput, 0x31)
  | _, some t =>
    if t.opc ≠ w.opc ∨ t.key ≠ w.key ∨ t.kfrom ≠ w.kfrom then some (stBadInput, 0x32)
    else if 2 ^ 48 - 1 < t.count + r.srcLen i then unsup 0x31
    else none

/-- The stream of a part that starts on tile t: FIRST opens it with its key and customization (R169, R172). -/
def openStream (r : Req) (i t : Nat) (s : State) : State :=
  let w := (r.op i).w
  if !isStream w then s
  else if w.opt = 1 then
    setStream (streamIx r i) (some { opc := w.opc, kfrom := w.kfrom, key := w.key, prep := macPrep w (r.par i) ((r.op i).key.getD {})
                                     param := aParam (r.keyAttr i), parms := customOf (r.par i), tile := t, holder := some (r.id, i) }) s
  else setStream (streamIx r i) ((s.stream (streamIx r i)).map (fun x => { x with tile := t, holder := some (r.id, i) })) s

/-- The context of a FIRST or MIDDLE part that has ended parks (R171, R173). A LAST part closes its stream; what it was is kept with the part
for a write of its result that fails. -/
def parkStream (r : Req) (i : Nat) (s : State) : State :=
  let w := (r.op i).w
  let ix := streamIx r i
  if !isStream w then s
  else if isPart w then setStream ix ((s.stream ix).bind (fun x => intoStream x (r.src i) s)) s
  else setStream ix none (modOp r.id i (fun o => { o with kept := s.stream ix }) s)

/-! ### Starting and giving up a tile -/

/-- A tile runs something, which it may have saved before. -/
def holdTile (p : Nat × Nat) (t : Nat) (s : State) : State :=
  modTile t (fun u => { u with run := some p, saved := u.saved.filter (· ≠ p) }) s

/-- The tiles of a kind give up a hash for another operation, or work of the engine itself. -/
def dropHold (k : Nat) (p : Nat × Nat) (s : State) : State :=
  eachN (kindTiles k) (fun t => modTile t (fun u => { u with
    run := if u.run = some p then none else u.run
    saved := u.saved.filter (· ≠ p)
    bankA := if u.bankA.holds p.1 p.2 then .zeroizing p.1 else u.bankA
    bankB := if u.bankB.holds p.1 p.2 then .zeroizing p.1 else u.bankB })) s

/-- The operation takes one tile, or the two of a pair (R19, R419). -/
def startOn (id i : Nat) (ts : List Nat) (s : State) : State :=
  match s.req id with
  | none => s
  | some r =>
    let fresh := decide ((r.op i).phase = .waiting)
    match if fresh && isStream (r.op i).w then partFail s r i else none with
    | some f => endChain id (mkOut f i) s
    | none =>
      let s1 := if fresh then openStream r i (ts.headD 16) s else s
      settle id (modOp id i (fun o => { o with phase := .running, tiles := ts, lastTile := ts.headD 0xFF, sliceAt := o.consumed, rerun := false })
        (eachN ts (holdTile (id, i)) s1))

/-- A tile takes up what ranks first for it: an operation, unless it is one of a pair, which takes its two tiles with its own allocation; a
hash for another operation; or work of the engine itself. -/
def takeUp (k : Nat) (p : Nat × Nat) (t : Nat) (s : State) : State :=
  if !ownOp s k p then holdTile p t s
  else if ((s.req p.1).map Req.paired).getD false then s
  else startOn p.1 p.2 [t] s

/-! #### Which bank of a public-key tile runs (R196, R197, R419) -/

/-- The key type by which the cycles of an operation are counted: that of the key pair which a generation with DEST = 1 makes (R196). -/
def cycleType (r : Req) (i : Nat) : KeyType :=
  let o := r.op i
  if isKeygen o.w && keygenDest o.w then typeOf o.madeAttr else pkType r i

/-- The tile cycles of work of the engine itself (R207, R229): the key of an ML-DSA seed; a signature check of a patch; the hybrid operation of
a pairing, KEYGEN and FINISH on the master and RESPOND on a member, and the two signatures of its statement. -/
def jobCycles (s : State) (j : Job) : Nat :=
  match j.work with
  | .slot x => pkCycles { opc := 0x73, opt := 1 } [] ⟨0x17, aParam (s.slot x).idle.attr, 0⟩
  | .patch _ false => pkCycles { opc := 0x61 } [] ⟨0x11, 2, 0⟩
  | .patch _ true => pkCycles { opc := 0x75 } [] ⟨0x19, 0x12, 0⟩
  | .pairing p .hybrid =>
    pkCycles { opc := 0x77, opt := if !crsIsMaster s then 1 else if (s.peer p).got = [] then 0 else 2 } [] {}
  | .pairing _ .es384 => pkCycles { opc := 0x60 } [] ⟨0x10, 2, 0⟩
  | .pairing _ .mldsa => pkCycles { opc := 0x74 } [] ⟨0x18, 0x12, 0⟩
  | .generation => 0

/-- The least count by which an operation ranks: one iteration and the packing of an ML-DSA sign (R225, R230). The tables give no count for
the packing: it is one that Config leaves open (notes/assumptions/5.md). -/
def leastCycles (w : OpWord) (t : KeyType) : Nat :=
  if w.opc = 0x74 then [7000, 8000, 11000].getD (t.param % 16 - 1) 0 + Config.openCycles 0x74 t.param else 0

/-- The tile cycles that an operation has left: all of them, or what its last yield left (R196). -/
def cyclesLeft (s : State) (p : Nat × Nat) : Nat :=
  match s.req p.1 with
  | some r => max (leastCycles (r.op p.2).w (cycleType r p.2))
      ((r.op p.2).left.getD (pkCycles (r.op p.2).w (r.par p.2) (cycleType r p.2)))
  | none => ((s.sch.jobs.find? (fun j => decide (j.id = p.1))).map (fun j => j.left.getD (jobCycles s j))).getD 0

/-- Public-key operation p ranks before q (R196): by class, by the fewest remaining cycles, in admission order. -/
def pkBefore (s : State) (p q : Nat × Nat) : Bool :=
  decide (clsOf s p.1 < clsOf s q.1)
    || (decide (clsOf s p.1 = clsOf s q.1) && (decide (cyclesLeft s p < cyclesLeft s q)
      || (decide (cyclesLeft s p = cyclesLeft s q) && ranksBefore s p q)))

/-- It takes a bank, or goes on, before q: what a supply warning discarded goes first (R410). -/
def pkGoesBefore (s : State) (p q : Nat × Nat) : Bool := if isAgain s p = isAgain s q then pkBefore s p q else isAgain s p

/-- The tile is the voter of an operation's dispute (R420). -/
def isVoter (s : State) (t : Nat) (p : Nat × Nat) : Bool := ((s.req p.1).map (fun r => decide ((r.op p.2).voter = some t))).getD false

/-- The tiles on which what a bank of tile t holds runs at one time: both of a pair; tile t alone for a voter and for anything else (R419,
R420). -/
def runTiles (s : State) (t : Nat) (p : Nat × Nat) : List Nat :=
  match s.req p.1 with
  | some r => if r.paired && decide ((r.op p.2).voter ≠ some t) then (r.op p.2).tiles else [t]
  | none => [t]

/-- The operation that runs on a public-key tile, with its bank. -/
def pkRunning (s : State) (t : Nat) : Option (Nat × Nat × Bool) :=
  match (s.tile t).bankA, (s.tile t).bankB with
  | .running id i, _ => some (id, i, false)
  | _, .running id i => some (id, i, true)
  | _, _ => none

/-- The operations that rest in banks of a tile. -/
def resting (u : Tile) : List (Nat × Nat) :=
  [u.bankA, u.bankB].filterMap (fun b => match b with
    | .resident id i => some (id, i)
    | _ => none)

/-- What rests in a bank of tile t can go on: no supply event lasts, what one discarded has a bank again, and its tiles are in service with
nothing running but on those that give up what they run. -/
def mayRun (s : State) (t : Nat) (p : Nat × Nat) (freed : List Nat) : Bool :=
  tilesOpen s && (isAgain s p || (waitingOps s 3).all (fun q => !isAgain s q))
    && (runTiles s t p).all (fun x => decide ((s.tile x).st = .healthy) && (decide (x ∈ freed) || (pkRunning s x).isNone))

/-- A bank that rests goes on. -/
def BankSt.wake (p : Nat × Nat) (b : BankSt) : BankSt := if b = .resident p.1 p.2 then .running p.1 p.2 else b

/-- What rests in a bank of tile t goes on, a pair on both its tiles together. -/
def runBank (t : Nat) (p : Nat × Nat) (s : State) : State :=
  if mayRun s t p [] then
    modOp p.1 p.2 (fun o => { o with phase := .running, rerun := false })
      (eachN (runTiles s t p) (fun x => modTile x (fun u => { u with bankA := u.bankA.wake p, bankB := u.bankB.wake p })) s)
  else s

/-- Of what rests in the banks of a tile on which nothing runs, the one that ranks first goes on. -/
def wakeBank (t : Nat) (s : State) : State :=
  match (resting (s.tile t)).filter (fun p => mayRun s t p []) with
  | [] => s
  | [p] => runBank t p s
  | p :: q :: _ => runBank t (if pkGoesBefore s q p then q else p) s

def wakeBanks (s : State) : State := eachN (kindTiles 3) wakeBank s

def bankOf (u : Tile) (b : Bool) : BankSt := if b then u.bankB else u.bankA
def setBank (t : Nat) (b : Bool) (v : BankSt) (s : State) : State :=
  modTile t (fun u => if b then { u with bankB := v } else { u with bankA := v }) s

/-- The tiles of an operation are free of it; its banks are zeroized (R102, R205). -/
def releaseOp (id i : Nat) (s : State) : State :=
  eachN (List.range 24) (fun t s =>
    let s1 := modTile t (fun u => { u with
      run := if u.run = some (id, i) then none else u.run
      saved := u.saved.filter (· ≠ (id, i))
      bankA := if u.bankA.holds id i then .zeroizing id else u.bankA
      bankB := if u.bankB.holds id i then .zeroizing id else u.bankB }) s
    if 20 ≤ t then wakeBank t s1 else s1) s

/-- The operations of a request whose output an operation reads as its SRC, back to the first (R409). The operands of a public-key operation
are kept. -/
def sourceOps (r : Req) : Nat → Nat → List Nat
  | 0, _ => []
  | fuel + 1, i =>
    let v := (r.op i).w.src
    if 1 ≤ v ∧ v ≤ i ∧ v < 8 ∧ kindOfW (r.op i).w ≠ 3 then sourceOps r fuel (v - 1) ++ [v - 1] else []

/-- The buffer that an operation which runs again reads again: its SRC, where no output has gone there and no other operation reads it, since
those have the engine's copy (R409). -/
def againBuf (r : Req) (i : Nat) : Option Nat :=
  let w := (r.op i).w
  let b := w.src - 8
  let reads (j : Nat) : Bool := decide ((r.op j).w.aux = w.src) || decide (r.pkbSel j = w.src) || (decide (j ≠ i) && decide ((r.op j).w.src = w.src))
  if w.src < 8 ∨ kindOfW w = 3 ∨ 0 < (r.buf b).written ∨ (List.range r.ops.length).any reads then none else some b

/-- Output of operation i has left the engine. -/
def outLeft (r : Req) (i : Nat) : Bool := decide (8 ≤ (r.op i).w.dst) && decide (0 < (r.buf ((r.op i).w.dst - 8)).written)

/-- A random draw whose output has left the engine in part (R409). -/
def drawLeft (r : Req) (i : Nat) : Bool := decide ((r.op i).w.opc = 0x94) && outLeft r i

/-- The operation runs again from its start (R203, R409, R423): it has delivered nothing, its buffer is read again, and its stream is as
before the part. The hash of its message before the bank is an operand that is kept. -/
def rerunOp (id i : Nat) (s : State) : State :=
  match s.req id with
  | none => s
  | some r =>
    let s1 := releaseOp id i s
    let mine (x : Stream) : Bool := decide (x.holder = some (id, i))
    let s2 := if isStream (r.op i).w && ((s1.stream (streamIx r i)).map mine).getD false then
        setStream (streamIx r i) (if (r.op i).w.opt = 1 then none
          else (s1.stream (streamIx r i)).bind (fun x => parked x s1)) s1
      else s1
    let s3 := match againBuf r i with
      | some b => modBuf id b BufSt.again s2
      | none => s2
    modOp id i (fun o => { o with phase := .waiting, tiles := [], voter := none, disputed := false, agreed := 0, endAgreed := false, consumed := 0
                                  output := [], hashes := if kindOfW o.w = 3 then min o.hashes (b2n (r.preHash i)) else 0, left := none
                                  checked := false }) s3

/-- An operation runs again with those that feed its SRC; a random draw among them whose output has left in part ends the request (R409). -/
def rerunFrom (id i : Nat) (s : State) : State :=
  match s.req id with
  | none => s
  | some r =>
    match (sourceOps r 8 i).find? (drawLeft r) with
    | some j => endChain id ⟨0x60, 1, j⟩ s
    | none => eachN (sourceOps r 8 i ++ [i]) (rerunOp id) s

/-- Output of the operation has left its tile. -/
def hasOutput (s : State) (id i : Nat) : Bool := ((s.req id).map (fun r => decide ((r.op i).output ≠ []))).getD false

/-- The operation lost its tile: again from its start, or TILE_FAULT 0x04 where output had left (R423). -/
def loseOp (id i : Nat) (s : State) : State :=
  if hasOutput s id i then endChain id ⟨0x61, 4, i⟩ s else settle id (rerunFrom id i s)

/-! ### Quarantine (R422 to R424) -/

def qPair := 1
def qResult := 2
def qGrout := 3
def qWdog := 4
def qUe := 5
def qCeRate := 6

/-- The tile's state and the record of a quarantine; a third one retires the tile (R422, R424). -/
def markQuarantine (t cause : Nat) (req : Option Nat) (s : State) : State :=
  let r := req.bind s.req
  let s1 := modTile t (fun u => { u with
    st := if 2 ≤ u.qcount.toNat then .retired else .quarantined
    qcause := BitVec.ofNat 3 cause
    qcount := if u.qcount.toNat < 3 then u.qcount + 1 else u.qcount }) s
  journal 0x30 0x10 [t + 2 ^ 8 * cause, ((r.map (fun r => r.tenant.val)).getD 0) + 16 * b2n r.isSome + 2 ^ 16 * ((r.map (fun r => eTag r.entry)).getD 0)]
    (raiseG gQuarantine s1)

/-- The kind of a tile (R483). -/
def tileKind (t : Nat) : Nat := if t < 16 then 1 else if t < 20 then 2 else 3

/-- The stream of a part goes with its context. -/
def streamTo (p : Nat × Nat) (x : Nat) (s : State) : State :=
  match s.req p.1 with
  | none => s
  | some r =>
    if isStream (r.op p.2).w then setStream (streamIx r p.2) ((s.stream (streamIx r p.2)).map (fun y => { y with tile := x })) s else s

/-- A saved context goes from one tile to another. -/
def shiftSaved (t x : Nat) (p : Nat × Nat) (s : State) : State :=
  let swap (l : List Nat) : List Nat := match l.map (fun y => if y = t then x else y) with
    | [a, b] => [min a b, max a b]
    | l' => l'
  let s1 := if ownOp s (tileKind t) p then
      streamTo p x (modOp p.1 p.2 (fun o => { o with tiles := swap o.tiles, lastTile := (swap o.tiles).headD 0xFF }) s)
    else s
  modTile x (fun u => { u with saved := u.saved ++ [p] }) (modTile t (fun u => { u with saved := u.saved.filter (· ≠ p) }) s1)

/-- The check of a context that moves off a quarantined tile passes: a free value (R173, R423; notes/assumptions/5.md). -/
def contextOk (s : State) : Bool := Config.freeBool s.free

/-- The tiles on which something that tile t runs or has saved is held: those of an operation, or t alone for a hash and for work of the
engine itself. -/
def heldOn (s : State) (k t : Nat) (p : Nat × Nat) : List Nat :=
  if ownOp s k p then ((s.req p.1).map (fun r => (r.op p.2).tiles)).getD [] else [t]

/-- A saved context of a quarantined tile moves to the tile of its kind with the most room that its operation may use, other than the one
with the other context of its pair, which stays paired with it (R173, R423); otherwise its operation is lost. A hash for another operation is
asked for again, and work of the engine itself waits again (R239). -/
def moveSaved (t : Nat) (move : Bool) (p : Nat × Nat) (s0 : State) : State :=
  let s := nextFree s0
  let k := tileKind t
  let room (x : Nat) : Nat := if k = 1 then 4 - (s.tile x).saved.length else 32 - parkedOn s x - (s.tile x).saved.length
  let best := ((kindTiles k).filter (fun x => tileHealthy s x && permitted s (clsOf s p.1) x && decide (0 < room x)
      && decide (x ∉ heldOn s k t p))).foldl
    (fun b x => match b with
      | none => some x
      | some y => if room y < room x then some x else some y) none
  match move && contextOk s0, best with
  | true, some x => shiftSaved t x p s
  | _, _ =>
    if !ownOp s k p then dropHold k p s
    else if move then endChain p.1 ⟨0x61, 4, p.2⟩ s
    else loseOp p.1 p.2 s

/-- A parked context of a quarantined tile moves, or its stream closes (R173, R423). -/
def moveParked (t : Nat) (move : Bool) (s : State) : State :=
  eachN (List.range 64) (fun i s =>
    match s.stream i with
    | some x =>
      if x.tile ≠ t ∨ x.holder.isSome then s
      else
        let s1 := nextFree s
        (match if move && contextOk s then fewestParked s ((healthyOf s 2).filter (fun y => decide (parkedOn s y < 24) && storeFree s y)) else none with
          | some y => setStream i (some { x with tile := y }) s1
          | none => setStream i none s1)
    | none => s) s

/-- The operations in the banks of a tile run again elsewhere (R203, R209). -/
def bankOps (u : Tile) : List (Nat × Nat) :=
  [u.bankA, u.bankB].filterMap (fun b => match b with
    | .loading id i => some (id, i)
    | .resident id i => some (id, i)
    | .running id i => some (id, i)
    | _ => none)

/-- What a quarantined tile ran goes on elsewhere: a vote takes another voter; a hash for another operation is asked for again, and work of
the engine itself waits again (R239, R420, R423). -/
def dropRun (t : Nat) (keep : Bool) (p : Nat × Nat) (s : State) : State :=
  let k := tileKind t
  let off (s : State) : State := if k = 3 then setBank t ((s.tile t).bankB.holds p.1 p.2) (.zeroizing p.1) s
    else modTile t (fun u => { u with run := none }) s
  if isVoter s t p then modOp p.1 p.2 (fun o => { o with voter := none }) (off s)
  else if keep || !ownOp s k p then off s
  else if k = 3 then rerunFrom p.1 p.2 s
  else loseOp p.1 p.2 s

/-- A tile leaves service with everything it holds (R422, R423); its record names the request that runs on it. `keep`: its operation is
handled by the caller. -/
def quarantine (t cause : Nat) (keep : Bool) (s : State) : State :=
  let u := s.tile t
  let s1 := markQuarantine t cause (if 20 ≤ t then (pkRunning s t).map Prod.fst else u.run.map Prod.fst) s
  let s2 := u.run.toList.foldl (fun s p => dropRun t keep p s) s1
  let move := decide (cause ≠ qPair ∧ cause ≠ qResult)
  let s3 := u.saved.foldl (fun s p => moveSaved t move p s) s2
  let s4 := if 16 ≤ t ∧ t < 20 then moveParked t move s3 else s3
  let runs (p : Nat × Nat) : Bool := decide ((pkRunning s t).map (fun q => (q.1, q.2.1)) = some p)
  settleAll ((bankOps u).foldl (fun s p => dropRun t (keep && runs p) p s) s4)

/-- A corrected error of the memory of a tile (R422, R431). -/
def tileClass (t : Nat) : Nat := if t < 16 then 5 else if t < 20 then 6 else 7

/-- The last 64 corrected errors of a tile lie within 200 000 000 oscillator cycles, counted in whole windows of R398 of 1024 cycles each
(DESIGN CHOICE, notes/assumptions/28.md: the engine's own measure of that time is not stated). -/
def ceRate (u : Tile) : Bool := decide (64 ≤ u.ceTimes.length) && decide (u.ceTimes.headD 0 - u.ceTimes.getD 63 0 ≤ 200000000 / 1024)

def tileCe (t : Nat) (s : State) : State :=
  let s1 := countCe (tileClass t) (modTile t (fun u => { u with ceTimes := (s.clk.windows :: u.ceTimes).take 64 }) s)
  if ceRate (s1.tile t) && decide ((s1.tile t).st = .healthy) then quarantine t qCeRate false (modTile t (fun u => { u with ceTimes := [] }) s1) else s1
def tileUe (t : Nat) (s : State) : State := quarantine t qUe false (raiseG gUe (journalUe (tileClass t) t s))

/-- An error of the memory of tile t as it works (R422, R431), and then what follows while the tile is in service. -/
def tileChecked (t : Nat) (ecc : Ecc) (f : State → State) (s : State) : State :=
  match ecc with
  | .uncorrectable => tileUe t s
  | .corrected => f (tileCe t s)
  | .clean => f s

/-! ### Allocation -/

/-- The two tiles that a pair takes, or the one of any other operation. -/
def tilesOf (r : Req) (t : Nat) (t2 : Option Nat) : Option (List Nat) :=
  match r.paired, t2 with
  | true, some x => if x = t then none else some [min t x, max t x]
  | false, none => some [t]
  | _, _ => none

/-- A tile about to be gated takes its saved operations back until none is left (R134, R394). -/
def mayResume (s : State) (t : Nat) (p : Nat × Nat) : Bool :=
  decide ((s.tile t).st = .healthy) && s.clk.pending.toNat.testBit t && (s.tile t).run.isNone && decide (p ∈ (s.tile t).saved)

/-- A saved operation of another class is restored on a tile that has become reserved, while no SCHEDULED operation waits (R356). -/
def mayRestore (s : State) (k : Nat) (p : Nat × Nat) (t : Nat) : Bool :=
  decide (p ∈ (s.tile t).saved) && (waitingOps s k).all (fun q => decide (clsOf s q.1 ≠ 0))

/-- A forced grout round of the tile ranks first (R426). -/
def groutFirst (s : State) (t : Nat) (p : Nat × Nat) : Bool :=
  (s.tile t).forceDue && decide (1 < clsOf s p.1 ∨ (clsOf s p.1 = 1 ∧ (s.tile t).forceAt < p.1))

/-- The tile is idle and open to the class, and nothing that could use it ranks first: no vote, no waiting or saved operation, no forced
grout round. -/
def mayTake (s : State) (k : Nat) (p : Nat × Nat) (t : Nat) : Bool :=
  let cls := clsOf s p.1
  (tileIdle s t || mayResume s t p) && decide (t ∈ kindTiles k) && (permitted s cls t || mayRestore s k p t) && !voterWaits s k t
    && (waitingOps s k).all (fun q => q = p || !permitted s (clsOf s q.1) t || !goesBefore s q p)
    && (s.tile t).saved.all (fun q => q = p || !goesBefore s q p) && !groutFirst s t p

/-- A SCHEDULED cipher operation takes reserved tiles as far as they are free (R133). -/
def prefersReserved (s : State) (k cls : Nat) (ts : List Nat) : Bool :=
  decide (k ≠ 1 ∨ cls ≠ 0)
    || decide (min ts.length ((reservedTiles s).filter (tileIdle s)).length ≤ (ts.filter (fun t => decide (t ∈ reservedTiles s))).length)

/-- A stream part runs where its context is parked, unless that tile is busy and another is free (R173). -/
def streamPlace (s : State) (r : Req) (i t : Nat) : Bool :=
  !isStream (r.op i).w || decide ((r.op i).w.opt = 1) || (match s.stream (streamIx r i) with
    | some x => decide (x.tile = t) || !tileIdle s x.tile
    | none => true)

/-- Allocation of a cipher or digest tile to a waiting operation, or the resumption of a saved one on its own tiles (R133, R134,
R158, R159). -/
def allocTile (k id i t : Nat) (t2 : Option Nat) (s : State) : State :=
  withReq id (fun r s =>
    let o := r.op i
    match tilesOf r t t2 with
    | none => s
    | some ts =>
      let waits := waitsTile s r i && decide (kindOfW o.w = k) && streamPlace s r i t && prefersReserved s k r.cls ts
      let resumes := decide (o.phase = .saved) && decide (kindOfW o.w = k) && decide (o.tiles = ts)
        && ts.all (fun x => decide ((id, i) ∈ (s.tile x).saved))
      whenS (tilesOpen s && (waits || resumes) && ts.all (mayTake s k (id, i))) (startOn id i ts) s) s

/-- CIPHER_TILE_ALLOCATE (R133). Which of several free tiles is taken is the operand's (DESIGN CHOICE, notes/assumptions/9.md). -/
def fxCipherTileAllocate (id : Nat) (op : Fin 8) (tile : Fin 16) (second : Option (Fin 16)) (s : State) : State :=
  allocTile 1 id op.val tile.val (second.map (fun x => x.val)) s
def execCipherTileAllocate (id : Nat) (op : Fin 8) (tile : Fin 16) (second : Option (Fin 16)) (s : State) :
    Host.Outcome State Fault Refusal := .next (fxCipherTileAllocate id op tile second s)

/-- A digest tile takes a hash for another operation, or work of the engine itself, anew or saved: one tile, of a PAIRED request too
(R178, R515; DESIGN CHOICE, notes/assumptions/33.md). -/
def allocService (p : Nat × Nat) (t : Nat) (s : State) : State :=
  whenS (tilesOpen s && (!onTile s 2 p || decide (p ∈ (s.tile t).saved)) && mayTake s 2 p t) (holdTile p t) s

/-- The restore of a saved or parked context of tile t fails (R182): a saved operation ends, a parked stream closes, a hash is asked for
again; the tile leaves service (R431). -/
def restoreFails (p : Nat × Nat) (t : Nat) (s : State) : State :=
  let saved := decide (p ∈ (s.tile t).saved)
  let parked (r : Req) : Bool := isStream (r.op p.2).w && decide (2 ≤ (r.op p.2).w.opt)
    && ((s.stream (streamIx r p.2)).map (fun x => decide (x.tile = t) && x.holder.isNone)).getD false
  match s.req p.1 with
  | none => if saved then tileUe t (dropHold 2 p s) else s
  | some r =>
    if saved && ownOp s 2 p then tileUe t (endChain p.1 ⟨0x61, 4, p.2⟩ s)
    else if saved then tileUe t (dropHold 2 p s)
    else if parked r then tileUe t (setStream (streamIx r p.2) none s)
    else s

/-- DIGEST_TILE_ALLOCATE (R158): `tile` counts from DT0. The check of the context that the tile restores comes as an operand. -/
def fxDigestTileAllocate (id : Nat) (op : Fin 8) (tile : Fin 4) (second : Option (Fin 4)) (ecc : Ecc) (s : State) : State :=
  let p := (id, op.val)
  let t := 16 + tile.val
  if ecc = .uncorrectable then restoreFails p t s
  else
    let s1 := if ecc = .corrected then tileCe t s else s
    if isJob s1 2 p || isService s1 2 p then allocService p t s1
    else allocTile 2 id op.val t (second.map (fun x => 16 + x.val)) s1
def execDigestTileAllocate (id : Nat) (op : Fin 8) (tile : Fin 4) (second : Option (Fin 4)) (s : State) (ecc : Ecc := .clean) :
    Host.Outcome State Fault Refusal := .next (fxDigestTileAllocate id op tile second ecc s)

/-! ### Yields (R134, R135, R159, R419) -/

/-- A waiting operation ranks so that a running one of kind k must yield tile t to it: for a cipher tile it ranks before; for a
digest tile its class is the same or higher, and what the tile has saved waits too (R159). -/
def pressing (s : State) (k t : Nat) (run : Nat × Nat) : List (Nat × Nat) :=
  (waitingOps s k ++ (if k = 2 then (s.tile t).saved else [])).filter (fun q => permitted s (clsOf s q.1) t && !usableFree s k (clsOf s q.1)
    && (if k = 1 then ranksBefore s q run else decide (clsOf s q.1 ≤ clsOf s run.1)))

/-- What the tile may run next when a running operation yields to those that press: they, and what it has saved before (R134, R159). -/
def nextOn (s : State) (k t : Nat) (run : Nat × Nat) : List (Nat × Nat) :=
  pressing s k t run ++ (if k = 1 then (s.tile t).saved else [])

/-- A forced grout round of the tile ranks so that a running operation must yield to it, as to an EXPEDITE operation of its kind (R426). -/
def groutPresses (s : State) (k t : Nat) (run : Nat × Nat) : Bool :=
  (s.tile t).forceDue && (if k = 1 then groutFirst s t run else decide (1 ≤ clsOf s run.1))

/-- The operation that ranks first. -/
def firstRanked (s : State) (l : List (Nat × Nat)) : Option (Nat × Nat) := l.find? (fun p => l.all (fun q => q = p || ranksBefore s p q))

def roomToSave (s : State) (k t : Nat) : Bool := if k = 1 then decide ((s.tile t).saved.length < 4) else storeFree s t

/-- The operation is at a slice boundary: it has absorbed 4096 bytes since it last started or resumed (R159). The blocks of a hash-based
verify, of a hash for another operation and of work of the engine itself are not counted here (notes/assumptions/33.md). -/
def atSlice (s : State) (k : Nat) (p : Nat × Nat) : Bool :=
  decide (k ≠ 2) || ((s.req p.1).map (fun r => let o := r.op p.2
    !(ownOp s k p && isDigest o.w.opc) || decide (o.sliceAt + 4096 ≤ o.consumed))).getD true

/-- The two tiles of a pair disagree over it. -/
def inDispute (s : State) (p : Nat × Nat) : Bool := ((s.req p.1).map (fun r => (r.op p.2).disputed)).getD false

/-- What runs on a tile saves, a pair on both tiles together, and the tile takes up what ranks first among what waits and what it has saved
before (R134, R159); a vote that waits takes it instead (R420). -/
def yieldTile (k t : Nat) (s : State) : State :=
  match (s.tile t).run with
  | none => s
  | some p =>
    let ts := heldOn s k t p
    let can (x : Nat) : Bool := tileHealthy s x && (decide (pressing s k x p ≠ []) || groutPresses s k x p) && roomToSave s k x
    whenS (decide (t ∈ ts) && !inDispute s p && atSlice s k p && ts.all can) (fun s =>
      let s1 := eachN ts (fun x => modTile x (fun u => { u with run := none, saved := u.saved ++ [p] })) s
      let s2 := if ownOp s k p then modOp p.1 p.2 (fun o => { o with phase := .saved }) s1 else s1
      match if voterWaits s2 k t then none else firstRanked s (nextOn s k t p) with
      | some q => if groutFirst s t q then s2 else takeUp k q t s2
      | none => s2) s

/-- The check of the tile's memory at a yield point comes as an operand (R431). -/
def atYield (k t : Nat) (ecc : Ecc) (s : State) : State :=
  whenS (tilesOpen s && decide ((s.tile t).st = .healthy)) (tileChecked t ecc (yieldTile k t)) s

def fxCipherYieldPoint (tile : Fin 16) (ecc : Ecc) (s : State) : State := atYield 1 tile.val ecc s
def execCipherYieldPoint (tile : Fin 16) (s : State) (ecc : Ecc := .clean) : Host.Outcome State Fault Refusal :=
  .next (fxCipherYieldPoint tile ecc s)

def fxDigestSliceBoundary (tile : Fin 4) (ecc : Ecc) (s : State) : State := atYield 2 (16 + tile.val) ecc s
def execDigestSliceBoundary (tile : Fin 4) (s : State) (ecc : Ecc := .clean) : Host.Outcome State Fault Refusal :=
  .next (fxDigestSliceBoundary tile ecc s)

/-! ### Public-key banks (R192 to R205) -/

/-- Public-key tiles with a free bank: those with both free first, each in rising order (R195). -/
def bankOrder (s : State) : List Nat :=
  let both (t : Nat) : Bool := tileHealthy s t && bankEmpty (s.tile t).bankA && bankEmpty (s.tile t).bankB
  (kindTiles 3).filter both ++ (kindTiles 3).filter (fun t => tileFree s t && !both t)

/-- A free bank of tile t is used and zeroized at once (R205). -/
def useBank (id t : Nat) (s : State) : State := setBank t (!bankEmpty (s.tile t).bankA) (.zeroizing id) s

/-- The operation rests in a free bank of tile t. -/
def restIn (id i t : Nat) (s : State) : State := setBank t (!bankEmpty (s.tile t).bankA) (.resident id i) s

/-- The operation enters a free bank of tile t. -/
def enterBank (id i t : Nat) (s : State) : State := wakeBank t (restIn id i t s)

/-- No operation that waits for a bank ranks before this one. -/
def pkFirst (s : State) (p : Nat × Nat) : Bool := (waitingOps s 3).all (fun q => q = p || !pkGoesBefore s q p)

/-- The tiles can give a bank each: the first ones in the order of R195, which no vote waits for. -/
def banksFor (s : State) (p : Nat × Nat) (ts : List Nat) : Bool :=
  tilesOpen s && pkFirst s p && ts.all (fun t => !voterWaits s 3 t && !groutFirst s t p && decide (t ∈ (bankOrder s).take ts.length))

/-- PK_BANK_ASSIGN (R195): the operands and the hash before the bank are whole, and the operation takes a bank on one tile, or on each of
two. Work of the engine itself takes one bank. -/
def fxPkBankAssign (id : Nat) (op : Fin 8) (tile : Fin 4) (second : Option (Fin 4)) (s : State) : State :=
  let p := (id, op.val)
  let t := 20 + tile.val
  match s.req id with
  | none => whenS (isJob s 3 p && !onTile s 3 p && banksFor s p [t]) (enterBank id op.val t) s
  | some r =>
    match tilesOf r t (second.map (fun x => 20 + x.val)) with
    | none => s
    | some ts =>
      whenS (waitsTile s r op.val && decide (kindOfW (r.op op.val).w = 3) && banksFor s p ts) (fun s =>
        let s1 := modOp id op.val (fun o => { o with phase := .saved, tiles := ts, lastTile := ts.headD 0xFF }) s
        settle id (wakeBanks (eachN ts (restIn id op.val) s1))) s
def execPkBankAssign (id : Nat) (op : Fin 8) (tile : Fin 4) (second : Option (Fin 4)) (s : State) : Host.Outcome State Fault Refusal :=
  .next (fxPkBankAssign id op tile second s)

/-- The operation draws random bits after its check phase (R194, R219): every one but a verify and a public RSA operation. -/
def drawsBits (w : OpWord) : Bool := !takesPkb w || decide (w.opc = 0x71)

/-- The operation has passed its check phase (R197, R200); work of the engine itself has none. -/
def pastChecks (s : State) (p : Nat × Nat) : Bool := ((s.req p.1).map (fun r => (r.op p.2).checked)).getD true

/-- The operation in the other bank of tile t takes the tile over from the running one (R196, R197): the voter of a dispute (R420); when the
running one waits for a hash; when it ranks before it; or, in its class, when it has been resident for 1 000 000 cycles without running. It
must be ready to run. -/
def switches (s : State) (t : Nat) (run other : Nat × Nat) (long : Bool) : Bool :=
  !isService s 2 other && (isVoter s t other || isService s 2 run || pkBefore s other run || (long && decide (clsOf s other.1 = clsOf s run.1)))

/-- What a yield leaves of the cycles of a running operation: at most what it took at its start (R196). -/
def keepLeft (p : Nat × Nat) (left : Nat) (s : State) : State :=
  let n := min left (cyclesLeft s p)
  match s.req p.1 with
  | some _ => modOp p.1 p.2 (fun o => { o with left := some n }) s
  | none => modSch (fun c => { c with jobs := c.jobs.map (fun j => if j.id = p.1 then { j with left := some n } else j) }) s

/-- What runs on tile t may yield it: it is past its checks, in no dispute and no voter (R197, R419, R420), and on each of its tiles the
operation in the other bank takes over and can run. -/
def mayYield (s : State) (t : Nat) (p : Nat × Nat) (long : Bool) : Bool :=
  let ts := runTiles s t p
  tilesOpen s && pastChecks s p && !inDispute s p
    && ts.all (fun x => (resting (s.tile x)).any (fun q => q ≠ p && switches s x p q long && mayRun s x q ts))

/-- A bank that runs rests. -/
def BankSt.rest (p : Nat × Nat) (b : BankSt) : BankSt := if b = .running p.1 p.2 then .resident p.1 p.2 else b

/-- What runs on tile t yields, a pair on both its tiles together, and what its other banks hold goes on. -/
def yieldBank (t : Nat) (p : Nat × Nat) (s : State) : State :=
  let ts := runTiles s t p
  let s1 := modOp p.1 p.2 (fun o => { o with phase := .saved })
    (eachN ts (fun x => modTile x (fun u => { u with bankA := u.bankA.rest p, bankB := u.bankB.rest p })) s)
  eachN ts (fun x s1 => ((resting (s.tile x)).filter (fun q => q ≠ p)).foldl (fun s q => runBank x q s) s1) s1

/-- PK_YIELD_POINT (R196, R197, R419). The operands are what the tile counts: the cycles that the running operation has left, and whether the
other bank's operation has been resident for 1 000 000 cycles; and the check of the tile's memory (R431). -/
def fxPkYieldPoint (tile : Fin 4) (left : Nat) (long : Bool) (ecc : Ecc) (s : State) : State :=
  let t := 20 + tile.val
  whenS (tilesOpen s && decide ((s.tile t).st = .healthy)) (tileChecked t ecc (fun s =>
    match pkRunning s t with
    | none => s
    | some (id, i, _) =>
      let s1 := keepLeft (id, i) left s
      if mayYield s1 t (id, i) long then yieldBank t (id, i) s1 else s)) s
def execPkYieldPoint (tile : Fin 4) (s : State) (left : Nat := 0) (long : Bool := false) (ecc : Ecc := .clean) : Host.Outcome State Fault Refusal :=
  .next (fxPkYieldPoint tile left long ecc s)

/-- PK_CHECK_PHASE_END (R200, R194): the first failing check of the table rejects the operation; otherwise it draws its bits, and
the island draws the nonce of a blob (R288). -/
def fxPkCheckPhaseEnd (tile : Fin 4) (s : State) : State :=
  match pkRunning s (20 + tile.val) with
  | none => s
  | some (id, i, _) =>
    withReq id (fun r s => whenS (tilesOpen s && !(r.op i).checked) (fun s =>
      match pkInputFail (r.op i).w (r.par i) (pkType r i) (pkKey r i) (r.src i) (r.aux i) with
      | some f => endChain id (mkOut f i) s
      | none =>
        if !drawsBits (r.op i).w then modOp id i (fun o => { o with checked := true }) s
        else
          match generate 512 (genOrder tile.val) s with
          | (none, s1) => endChain id ⟨0x61, 3, i⟩ s1
          | (some k, s1) =>
            if isKeygen (r.op i).w && !keygenDest (r.op i).w then
              (match generate 12 (genOrder 0) s1 with
                | (none, s2) => endChain id ⟨0x61, 3, i⟩ s2
                | (some k2, s2) => modOp id i (fun o => { o with checked := true, draws := k, nonce := k2 }) s2)
            else modOp id i (fun o => { o with checked := true, draws := k }) s1) s) s
def execPkCheckPhaseEnd (tile : Fin 4) (s : State) : Host.Outcome State Fault Refusal := .next (fxPkCheckPhaseEnd tile s)

/-- A digest tile runs it now. -/
def runsDigest (s : State) (p : Nat × Nat) : Bool := (kindTiles 2).any (fun t => decide ((s.tile t).run = some p))

/-- The last hash of a signature under a seed that KFROM gives is over its message, whole by then (R218). -/
def hashInput (r : Req) (i : Nat) : Bool :=
  decide ((r.op i).hashes + 1 < r.hashTotal i) || r.whole (r.op i).w.src

/-- A hash for another operation is complete: the digest tile is free of it. -/
def hashDone (p : Nat × Nat) (s : State) : State :=
  settle p.1 (modOp p.1 p.2 (fun o => { o with hashes := o.hashes + 1 }) (dropHold 2 p s))

/-- DIGEST_SERVICE_DONE (R193, R217): the hash that an operation on the tile waits for is complete on its digest tile. -/
def fxDigestServiceDone (tile : Fin 4) (s : State) : State :=
  whenS (tilesOpen s) (fun s =>
    match (bankOps (s.tile (20 + tile.val))).find? (fun p => isService s 2 p && runsDigest s p
        && ((s.req p.1).map (fun r => hashInput r p.2)).getD false) with
    | some p => hashDone p s
    | none => s) s
def execDigestServiceDone (tile : Fin 4) (s : State) : Host.Outcome State Fault Refusal := .next (fxDigestServiceDone tile s)

/-- ML_DSA_ITERATION_CAP (R223). -/
def fxMlDsaIterationCap (tile : Fin 4) (s : State) : State :=
  match pkRunning s (20 + tile.val) with
  | none => s
  | some (id, i, _) =>
    withReq id (fun r s => whenS (tilesOpen s && (r.op i).checked && decide ((r.op i).w.opc = 0x74)) (endChain id ⟨0x40, 0x52, i⟩) s) s
def execMlDsaIterationCap (tile : Fin 4) (s : State) : Host.Outcome State Fault Refusal := .next (fxMlDsaIterationCap tile s)

/-- PK_BANK_ZEROIZED (R205): the bank is free, and the other bank's operation goes on. -/
def fxPkBankZeroized (tile : Fin 4) (bank : Bool) (s : State) : State :=
  let t := 20 + tile.val
  match bankOf (s.tile t) bank with
  | .zeroizing id => wakeBank t (modReq id (fun r => { r with zeroized := true }) (setBank t bank .empty s))
  | _ => s
def execPkBankZeroized (tile : Fin 4) (bank : Bool) (s : State) : Host.Outcome State Fault Refusal := .next (fxPkBankZeroized tile bank s)

/-! ### Pairs and votes (R419 to R421) -/

/-- The header of a receiving helper has arrived and fails (R151). -/
def headerFails (r : Req) (i : Nat) : Bool :=
  isCipher (r.op i).w.opc
    && (hdrBad (r.ctx i) (r.keyBytes i) (((r.op i).seq.map BitVec.toNat).getD 0) (r.src i)).isSome

/-- The operation has its whole input, and all that its tile does before its result: what a pair compares now includes the result. -/
def atEnd (r : Req) (i : Nat) : Bool :=
  let o := r.op i
  (decide (o.consumed = r.srcLen i) || headerFails r i) && (decide (kindOfW o.w ≠ 3) || (o.checked && decide (r.hashTotal i ≤ o.hashes)))

/-- The output on which a pair agrees with its next comparison: a piece of 64 bytes of a cipher operation, all that another one has delivered
(R419). -/
def nextPiece (o : OpSt) : Nat := if kindOfW o.w = 1 then min (o.agreed + 64) o.output.length else o.output.length

/-- The pair agrees on the next piece, and behind the last one at the end of its input on its result, its tag or MAC and its state (R138, R179,
R419). -/
def agreeOn (r : Req) (i : Nat) (s : State) : State :=
  let last := decide (nextPiece (r.op i) = (r.op i).output.length) && atEnd r i
  modOp r.id i (fun o => { o with agreed := nextPiece o, endAgreed := o.endAgreed || last }) s

/-- The two tiles have something to compare: a public-key operation its whole result (R419). -/
def mayCompare (r : Req) (i : Nat) : Bool :=
  let o := r.op i
  decide (r.phase = .running) && decide (o.phase = .running) && decide (o.tiles.length = 2) && !o.disputed
    && (decide (kindOfW o.w ≠ 3) || atEnd r i)

/-- PAIRED_PIECE_COMPARE (R419, R420): equal results release the piece; a difference stops the pair and opens a vote, which needs a
third healthy tile. -/
def fxPairedPieceCompare (id : Nat) (op : Fin 8) (agree : Bool) (s : State) : State :=
  withReq id (fun r s =>
    let o := r.op op.val
    whenS (tilesOpen s && mayCompare r op.val) (fun s =>
      if agree then settle id (agreeOn r op.val s)
      else settle id (pairRecord r o 0x1F 0 (raiseG gPairDisagree (modOp id op.val (fun o => { o with disputed := true }) s)))) s) s
def execPairedPieceCompare (id : Nat) (op : Fin 8) (agree : Bool) (s : State) : Host.Outcome State Fault Refusal :=
  .next (fxPairedPieceCompare id op agree s)

/-- VOTER_ASSIGN (R420): a free tile of the kind; a reserved one for a SCHEDULED request alone. -/
def fxVoterAssign (id : Nat) (op : Fin 8) (tile : TileIx) (s : State) : State :=
  withReq id (fun r s =>
    let o := r.op op.val
    let t := tile.val
    whenS (tilesOpen s && decide (r.phase = .running) && o.disputed && o.voter.isNone && decide (t ∈ kindTiles (kindOfW o.w)) && decide (t ∉ o.tiles)
        && tileFree s t && permitted s r.cls t) (fun s =>
      let s1 := modOp id op.val (fun o => { o with voter := some t }) s
      if 20 ≤ t then enterBank id op.val t s1 else modTile t (fun u => { u with run := some (id, op.val) }) s1) s) s
def execVoterAssign (id : Nat) (op : Fin 8) (tile : TileIx) (s : State) : Host.Outcome State Fault Refusal :=
  .next (fxVoterAssign id op tile s)

/-- A forced grout round of a tile falls due: it ranks in the order in which it did (R426). -/
def forceRound (t : Nat) (s : State) : State :=
  if (s.tile t).forceDue then s
  else modTile t (fun u => { u with forceDue := true, forceAt := s.sch.nextId }) (modSch (fun c => { c with nextId := c.nextId + 1 }) s)

/-- The voter has its vote: it runs the disputed piece, or the whole of a public-key operation (R420). -/
def voterRuns (s : State) (v : Nat) (p : Nat × Nat) : Bool :=
  decide ((s.tile v).run = some p) || decide ((pkRunning s v).map (fun q => (q.1, q.2.1)) = some p)

/-- VOTE_RESULT (R421): the disputed piece alone is released. -/
def fxVoteResult (id : Nat) (op : Fin 8) (verdict : Verdict) (s : State) : State :=
  withReq id (fun r s =>
    let o := r.op op.val
    match o.voter, o.tiles with
    | some v, [lo, hi] =>
      whenS (tilesOpen s && decide (r.phase = .running) && decide (o.phase = .running) && o.disputed && voterRuns s v (id, op.val)) (fun s =>
        let settleVote (stays goes outcome : Nat) : State :=
          let s1 := modReq id (fun r => { r with voted := true }) (modOp id op.val (fun o => { o with
            tiles := [min stays v, max stays v], lastTile := min stays v, voter := none, disputed := false })
            (streamTo (id, op.val) (min stays v) (agreeOn r op.val s)))
          settle id (quarantine goes qPair true (pairRecord r o v outcome s1))
        match verdict with
        | .lower => settleVote lo hi 1
        | .higher => settleVote hi lo 2
        | .neither =>
          eachN [lo, hi, v] forceRound
            (endChain id ⟨0x61, 1, op.val⟩ (pairRecord r o v 3 (modReq id (fun r => { r with voted := true }) s)))) s
    | _, _ => s) s
def execVoteResult (id : Nat) (op : Fin 8) (verdict : Verdict) (s : State) : Host.Outcome State Fault Refusal :=
  .next (fxVoteResult id op verdict s)

/-! ### The end of an operation (R103, R202, R203, R262) -/

/-- A result check of R202 or R227 stands before the output of the operation: of every one but a verify and a public RSA operation. -/
def hasResultCheck (w : OpWord) : Bool := !takesPkb w || decide (w.opc = 0x71)

/-- What the operation delivers and whether it fails. -/
def opEnd (s : State) (r : Req) (i : Nat) : OpEnd :=
  let w := (r.op i).w
  if isCipher w.opc then
    { res := cipherResult (r.ctx i) (r.keyBytes i) (((r.op i).seq.map BitVec.toNat).getD 0) (r.src i) (r.aux i) }
  else if isDigest w.opc then { res := digestEnd s r i }
  else patchedEnd (s.rules r.rulesPrev).pkPatch (pkEnd r i)

/-- The new bank of a slot that an operation writes (R262): the active bank's record and SOFT, NEXT = 0. -/
def writeTarget (x : Nat) (material : Bytes) (s : State) : State :=
  modSlot x (fun v => v.setIdle { material := material, attr := v.act.attr, soft := v.act.soft }) s

/-- The results of an operation that has ended without failure. -/
def finishOp (id i : Nat) (e : OpEnd) (s : State) : State :=
  match s.req id with
  | none => s
  | some r =>
    let s1 := modOp id i (fun o => { o with phase := .done, consumed := (r.src i).length, output := e.res.out, produced := e.res.prod
                                            made := e.made, madeAttr := if e.attr = [] then o.madeAttr else e.attr, madeStamp := e.stamp }) s
    let s2 := parkStream r i (releaseOp id i s1)
    match targetSlot (r.op i).w (r.par i) with
    | some x => settle id (writeTarget x e.made s2)
    | none => settle id s2

/-- The operation has taken its whole input and done what its tile does before its result; a digest tile has made the MAC of an SRTP
packet, and a pair has agreed on the result (R138, R178, R179). -/
def mayEnd (s : State) (r : Req) (i : Nat) : Bool :=
  let o := r.op i
  decide (r.phase = .running) && decide (o.phase = .running) && decide (kindOfW o.w ≠ 0) && decide (o.w.opc ≠ 0x93) && !o.disputed
    && atEnd r i && (!r.paired || o.endAgreed) && (!r.hashDue i || headerFails r i || runsDigest s (r.id, i))

/-- The last operation reached of a request that is stopped from outside: the highest-numbered one that has started, or 0 (DEDUCED,
notes/assumptions/28.md). -/
def Req.reached (r : Req) : Nat := ((List.range r.ops.length).reverse.find? (fun i => decide ((r.op i).phase ≠ .waiting))).getD 0

/-- The result check of operation i fails (R202, R203): the tile leaves service and the operation runs again; where a tenant reset meets it
in one control cycle, the request is flushed and the tile reported all the same (R209). -/
def resultFails (r : Req) (t : Nat) (meets : Bool) (s : State) : State :=
  quarantine t qResult false (if meets then endChain r.id ⟨0x50, 1, r.reached⟩ s else s)

/-- An operation that has its result delivers it, or fails. -/
def endOp (id i : Nat) (s : State) : State :=
  match s.req id with
  | none => s
  | some r =>
    if (r.op i).phase ≠ .running then s
    else
      let e := opEnd s r i
      match e.res.fail with
      | some f => endChain id (mkOut f i) (modOp id i (fun o => { o with output := if isCipher o.w.opc then o.output else [] }) s)
      | none => finishOp id i e s

/-- The operations that an error of the intermediate or held output of operation i affects. -/
def stagedOps (r : Req) (i : Nat) : List Nat := sourceOps r 8 i ++ [i]

/-- An uncorrectable error of the staging buffer in intermediate or held output (R431): the affected operations run again when none of
their output has left; else the request ends. -/
def stagingUe (r : Req) (i : Nat) (s : State) : State :=
  let s1 := raiseG gUe (journalUe 3 1 s)
  if (stagedOps r i).any (outLeft r) then endChain r.id ⟨0x61, 4, i⟩ s1
  else settle r.id (eachN (stagedOps r i) (rerunOp r.id) s1)

/-- The digest tile that runs something. -/
def digestTileOf (s : State) (p : Nat × Nat) : Nat := ((kindTiles 2).find? (fun t => decide ((s.tile t).run = some p))).getD 16

/-- The checks of the memories of an operation's tiles, and then what follows while they are in service. -/
def checkPair (ts : List Nat) (ecc second : Ecc) (f : State → State) (s : State) : State :=
  match ts with
  | [a, b] => (match second with
    | .uncorrectable => tileUe b (tileChecked a ecc (fun s => s) s)
    | .corrected => tileChecked a ecc f (tileCe b s)
    | .clean => tileChecked a ecc f s)
  | a :: _ => tileChecked a ecc f s
  | [] => f s

/-- An operation of a request ends on its tile (R103), or a digest tile ends the hash that it waits for before its bank (R178, R218).
`staging` is the check of the staging buffer on its intermediate or held output, `second` that of the memory of the higher tile of a pair
(R431); where both tiles of a pair fail, both leave service (R447). -/
def opEnds (r : Req) (i : Nat) (resultOk : Bool) (ecc : Ecc) (meets : Bool) (staging second : Ecc) (s : State) : State :=
  let o := r.op i
  let p := (r.id, i)
  if o.phase = .waiting then
    whenS (r.hashDue i && runsDigest s p && r.whole o.w.src)
      (tileChecked (digestTileOf s p) ecc (fun s => if isService s 2 p && runsDigest s p then hashDone p s else s)) s
  else
    let ends := checkPair o.tiles ecc second (fun s =>
      if kindOfW o.w = 3 ∧ hasResultCheck o.w ∧ !resultOk then resultFails r o.lastTile meets s else endOp r.id i s)
    whenS (mayEnd s r i) (fun s =>
      match staging with
      | .clean => ends s
      | .corrected => ends (countCe 3 s)
      | .uncorrectable => stagingUe r i s) s

/-! ### Grout (R425 to R427) -/

/-- The tile may run a grout step: it is idle with no operation, none of its own saved ones and no vote waiting for it, or a forced round of it ranks first, as an EXPEDITE operation
in the order in which it fell due (R425, R426). -/
def groutMay (s : State) (t : Nat) : Bool :=
  tileHealthy s t && (s.tile t).run.isNone && decide (bankOps (s.tile t) = [])
    && !voterWaits s (tileKind t) t && (s.tile t).saved.all (groutFirst s t)
    && (waitingOps s (tileKind t)).all (fun q => !permitted s (clsOf s q.1) t || groutFirst s t q)

def groutRound (t : Nat) (s : State) : State :=
  modTile t (fun u => { u with
    rounds := if u.rounds = 0xFFFFFFFF then u.rounds else u.rounds + 1
    gsat := u.gsat || decide (u.rounds = 0xFFFFFFFE ∨ u.rounds = 0xFFFFFFFF)
      || (u.forceDue && decide (u.forced = 0xFFFE ∨ u.forced = 0xFFFF))
    forced := if u.forceDue && decide (u.forced ≠ 0xFFFF) then u.forced + 1 else u.forced
    forceDue := false }) s

def fxGroutStep (t : TileIx) (result : GroutResult) (s : State) : State :=
  whenS (tilesOpen s && groutMay s t.val) (fun s =>
    match result with
    | .step => s
    | .round => groutRound t.val s
    | .fail test => quarantine t.val qGrout false (journal 0x32 0x10 [t.val + 2 ^ 8 * test.toNat] (raiseG gGroutFail s))) s
def execGroutStep (t : TileIx) (result : GroutResult) (s : State) : Host.Outcome State Fault Refusal := .next (fxGroutStep t result s)

/-- GROUT_FORCE (R426). -/
def fxGroutForce (t : TileIx) (s : State) : State :=
  whenS (tileHealthy s t.val) (forceRound t.val) s
def execGroutForce (t : TileIx) (s : State) : Host.Outcome State Fault Refusal := .next (fxGroutForce t s)

/-! ### Rejoin (R424) -/

def tileRejoin (t : Nat) (s : State) : State :=
  if (s.tile t).st = .quarantined ∧ !gateAsked s t then modTile t (fun u => { u with st := .testing }) s else s
def fxTileRejoin (who : Who) (t : TileIx) (s : State) : State := gateW who .ownTileRejoin (BitVec.ofNat 64 (2 ^ t.val)) (tileRejoin t.val) s
def execTileRejoin (who : Who) (t : TileIx) (s : State) : Host.Outcome State Fault Refusal := .next (fxTileRejoin who t s)

def csRejoin (c : Nat) (s : State) : State := if s.csSt c = .failed then setCs c .testing s else s
def fxCsRejoin (who : Who) (c : CsIx) (s : State) : State := gateW who .ownCsRejoin (BitVec.ofNat 64 (2 ^ c.val)) (csRejoin c.val) s
def execCsRejoin (who : Who) (c : CsIx) (s : State) : Host.Outcome State Fault Refusal := .next (fxCsRejoin who c s)

/-- The test set of a tile ends: HEALTHY, or QUARANTINED once more, the third time RETIRED (R403, R424). -/
def rejoinTile (t : Nat) (pass : Bool) (s : State) : State :=
  if pass then raiseG gTileRejoin (modTile t (fun u => { u with st := .healthy, ceTimes := [] }) s)
  else modTile t (fun u => { u with
    st := if 2 ≤ u.qcount.toNat then .retired else .quarantined
    qcount := if u.qcount.toNat < 3 then u.qcount + 1 else u.qcount }) s

def fxRejoinTestDone (unit : RejoinUnit) (pass : Bool) (s : State) : State :=
  match unit with
  | .tile t =>
    whenS (decide ((s.tile t.val).st = .testing)) (fun s => journal 0x31 0x10 [t.val + 2 ^ 8 * b2n pass] (rejoinTile t.val pass s)) s
  | .cs c =>
    whenS (decide (s.csSt c.val = .testing)) (fun s =>
      journal 0x31 0x10 [c.val + 2 ^ 5 + 2 ^ 8 * b2n pass] (setCs c.val (if pass then .healthy else .failed) s)) s
def execRejoinTestDone (unit : RejoinUnit) (pass : Bool) (s : State) : Host.Outcome State Fault Refusal := .next (fxRejoinTestDone unit pass s)

/-! ### Watchdogs (R428 to R430) -/

/-- What a tile runs, apart from a public-key operation that waits for a digest tile, whose cycles are not counted (R428). -/
def countedRun (s : State) (t : Nat) : Option (Nat × Nat) :=
  (s.tile t).run.or (((pkRunning s t).map (fun q => (q.1, q.2.1))).filter (fun p => !isService s 2 p))

/-- TILE_WATCHDOG (R428): the tile has lost its working state. `both`: the other tile of the pair reaches its limit in the same control
cycle, and leaves service with it (R447). -/
def fxTileWatchdog (t : TileIx) (both : Bool) (s : State) : State :=
  match countedRun s t.val with
  | none => s
  | some p =>
    let mate := if both then (heldOn s (tileKind t.val) t.val p).filter (fun x => x ≠ t.val) else []
    whenS (tilesOpen s && decide ((s.tile t.val).st = .healthy)) (fun s =>
      eachN mate (fun x => quarantine x qWdog false) (quarantine t.val qWdog false s)) s
def execTileWatchdog (t : TileIx) (s : State) (both : Bool := false) : Host.Outcome State Fault Refusal := .next (fxTileWatchdog t both s)

/-- The healthy sequencer with the fewest contexts. -/
def leastCs (s : State) : Option Nat :=
  ((List.range 12).filter (fun c => decide (s.csSt c = .healthy))).foldl (fun b c => match b with
    | none => some c
    | some x => if csLoad s c < csLoad s x then some c else some x) none

/-- Sequencer c fails: the healthy ones adopt its contexts (R429). -/
def csFails (c : Nat) (s : State) : State :=
  let s1 := raiseG gCsFail (journal 0x34 0x10 [c + 2 ^ 16 * csLoad s c] (setCs c .failed s))
  s.reqs.foldl (fun s r => if r.cs = c ∧ holdsContext r then
    (match leastCs s with
      | some d => modReq r.id (fun r => { r with cs := d }) s
      | none => s) else s) s1

/-- CS_WATCHDOG (R429, R431): only a sequencer that holds a context misses its intervals; a word of patch RAM with an error in one copy is
repaired from the other. -/
def fxCsWatchdog (c : CsIx) (error : CsError) (s : State) : State :=
  whenS (decide (s.csSt c.val = .healthy)) (fun s =>
    match error with
    | .missed => if 0 < csLoad s c.val then csFails c.val s else s
    | .registers => csFails c.val s
    | .patchOne => raiseG gUe (journalUe 2 0 s)
    | .patchBoth => csFails c.val (raiseG gUeFatal (journalUe 2 0 s))) s
def execCsWatchdog (c : CsIx) (s : State) (error : CsError := .missed) : Host.Outcome State Fault Refusal :=
  .next (fxCsWatchdog c error s)

/-- The ring of a request. -/
def Req.ringNo (r : Req) : Nat :=
  match r.origin with
  | .ring m => m.val
  | .boot _ => 0
  | .course _ _ m => m.val

/-- A forwarded request is this engine's again, as recalled (R462, R463). -/
def unforward (id : Nat) (s : State) : State :=
  modCrs (fun c => { c with cnt := { c.cnt with fwdRecall := c.cnt.fwdRecall + 1, fwdOpen := c.cnt.fwdOpen - 1 } })
    (modReq id (fun r => { r with fwd := none }) s)

/-- A request that runs here is stopped, and a forwarded one is recalled (R430, R434, R462). -/
def stopReq (id : Nat) (o : Outcome) (s : State) : State :=
  match s.req id with
  | none => s
  | some r =>
    let s1 := match r.fwd with
      | some p => sendFrame ftFwdCancel p.val (toLE 4 id) (unforward id s)
      | none => s
    endChain id o s1

/-- REQUEST_WATCHDOG (R430). -/
def fxRequestWatchdog (id : Nat) (s : State) : State :=
  withReq id (fun r s => whenS (!r.isBoot && !r.foreign && decide (r.phase = .admitted ∨ r.phase = .running)) (fun s =>
    let last := r.reached
    let s1 := journal 0x35 r.tenant.val [r.tenant.val + 16 * r.ringNo + 2 ^ 16 * eTag r.entry, last] (raiseT r.tenant.val evReqWdog s)
    stopReq id ⟨0x51, 1, last⟩ s1) s) s
def execRequestWatchdog (id : Nat) (s : State) : Host.Outcome State Fault Refusal := .next (fxRequestWatchdog id s)

end Sys2Proof.Machine
end

