-- ==== Sys2Proof/Machine/Completion.lean ====
section
/-!
DEFINITION. Completion records, completion rings, the reservoir, the rescue area and the ledger (R109 to R132), with the commands
FENCE_READBACK_RETURN, COMPLETION_RECORD_WRITE, CQ_COAL_TIMEOUT, CQ_DOORBELL, RESERVOIR_RECORD_WRITE, CQ_SETUP_WRITE,
CQ_EN_WRITE, CQ_FAULT_CLEAR, RESCUE_COPY and LEDGER_SNAP.
-/

namespace Sys2Proof.Machine

/-! ### The record (R111 to R114, R125) -/

/-- Every FENCE read-back of the request has returned, on the host master ports and of its frames (R18, R97, R341). -/
def Req.fencesIn (r : Req) : Bool := r.port0.isNone && r.port1.isNone && r.bufs.all (fun p => !p.2.fence)

/-- The chain has ended with its read-backs and its frames returned (R97, R115, R341). -/
def settledOut (s : State) (r : Req) : Bool :=
  decide (r.phase = .ended) && r.fencesIn && !s.fp.loans.any (fun l => decide (l.req = r.id))

/-- Everything that precedes the record has happened: read-backs, frame returns, zeroized banks, swaps (R115, R205, R262, R341); none is
written once an engine reset response has begun (R404). -/
def recordReady (s : State) (r : Req) : Bool :=
  settledOut s r && !s.held
    && (kindTiles 3).all (fun t => decide ((s.tile t).bankA ≠ .zeroizing r.id) && decide ((s.tile t).bankB ≠ .zeroizing r.id))
    && (!(r.outcome.map Outcome.good).getD false || r.claims.all (fun x => !(s.slot x).verify))

/-- The status that the record reports: a failed read-back and a missed deadline change DONE and DONE_TRUNCATED (R97, R363). -/
def finalOutcome (s : State) (r : Req) : Outcome :=
  let o := r.outcome.getD ⟨0, 0, 0⟩
  if !o.good then o
  else match r.fenceFail with
    | some f => { f with lastop := o.lastop }
    | none =>
      (match r.deadline with
        | some d => if r.sched && decide (d.toNat < s.judgedNs) then { o with status := 0x62, detail := 1 } else o
        | none => o)

/-- TILE of the last operation reached (R112). -/
def tileByte (r : Req) (o : Outcome) : Nat :=
  let t := (r.op o.lastop).lastTile
  if t < 16 then 0x40 + t else if t < 20 then 0x80 + (t - 16) else if t < 24 then 0xC0 + (t - 20) else 0

/-- PRODUCED (R125). Output that HOLD release still holds in the staging buffer counts as delivered at the operation's output (DESIGN CHOICE,
notes/assumptions/10.md: R125 names only what is written or passed on). -/
def producedOf (r : Req) (i : Nat) : Nat := (r.op i).produced.getD (r.op i).output.length

/-- INFO (R112), without RESCUED. -/
def infoOf (s : State) (r : Req) : Nat :=
  b2n (r.ops.any OpSt.trunc) + 2 * b2n r.scrubbed + 4 * b2n (flFence r.entry && decide (eNops r.entry ≠ 0) && r.fenceFail.isNone)
    + 8 * b2n r.zeroized + 16 * b2n r.paired + 32 * b2n r.voted + 64 * b2n (decide (r.place = .reservoir)) + 256 * b2n (!s.run)

/-- A record with LSEQ and PHASE zero. -/
def recordOf (tag sq : Nat) (o : Outcome) (tile consumed produced gen wxLo wxHi info : Nat) (ns : Word) : Bytes :=
  toLE 2 tag ++ toLE 1 (sq + 16 * o.lastop) ++ toLE 1 tile ++ toLE 1 o.status.toNat ++ toLE 1 o.detail.toNat ++ zeros 2
    ++ toLE 3 consumed ++ toLE 3 produced ++ toLE 2 gen ++ toLE 8 (wxLo + 2 ^ 27 * wxHi + 2 ^ 54 * info) ++ toLE 8 ns.toNat

def assemble (s : State) (r : Req) : Bytes :=
  let o := finalOutcome s r
  recordOf (eTag r.entry) r.ringNo o (tileByte r o) (r.op o.lastop).consumed (producedOf r o.lastop) r.gen.toNat r.wxLo r.wxHi
    (infoOf s r) s.time.ns

/-- The record with LSEQ and PHASE, and with RESCUED added (R114, R115, R122). -/
def stampRecord (lseq : Nat) (phase rescued : Bool) (b : Bytes) : Bytes :=
  b.take 2 ++ toLE 1 (byteAt b 2 % 128 + 128 * b2n phase) ++ slice b 3 3 ++ toLE 2 lseq ++ slice b 8 8
    ++ toLE 8 (leAt b 16 8 ||| (if rescued then 2 ^ 61 else 0)) ++ b.drop 24

/-- PHASE for an index of k + 1 bits: 1 on the first pass (R115). -/
def phaseAt (k t : Nat) : Bool := (t / 2 ^ k) % 2 = 0

/-! ### Writing a record into its ring (R115, R117, R120, R122, R128) -/

/-- A record counts as COMPLETED, or as FLUSHED (R128). -/
def ledgerRecord (n : Nat) (flushed : Bool) (s : State) : State :=
  modTen n (fun t => { t with led := { t.led with
    completed := if flushed then t.led.completed else t.led.completed + 1
    flushed := if flushed then t.led.flushed + 1 else t.led.flushed
    inflight := t.led.inflight - 1 } }) s

/-- LSEQ of the next record of a tenant (R114). -/
def nextLseq (s : State) (n : Nat) : Nat := ((s.ten n).led.completed + (s.ten n).led.flushed + 1).toNat % 65536

/-- The notice of a ring: both counts restart (R117). -/
def notify (n m : Nat) (s : State) : State :=
  raiseT n evCqNotify (modCq n m (fun c => { c with coal := 0, timer := false }) s)

/-- A record counts toward the next notice. -/
def coalesce (n m : Nat) (s : State) : State :=
  let c := s.cq n m
  if c.coalCnt ≤ c.coal + 1 then notify n m s
  else modCq n m (fun c => { c with coal := c.coal + 1, timer := true }) s

/-- The failure of a record write: FAULT with its capture (R122). -/
def cqFault (n m addr kind cause : Nat) (s : State) : State :=
  raiseT n evCqFault (modCq n m (fun c => { c with
    fault := true
    fcap := ⟨BitVec.ofNat 48 addr, BitVec.ofNat 2 kind, BitVec.ofNat 4 cause, false⟩ }) s)

/-- A violation of a record write. -/
def recViol (r : Req) (addr cause : Nat) (s : State) : State :=
  viol r.priv addr .write cause (if r.isBoot then kindBoot else kindRecord) (if r.isBoot then 0 else r.cq.val) (eTag r.entry)
    (r.gen.toNat % 65536) s

/-- What is kept of a request once its record is assembled: no key, no intermediate data and no output (R102). -/
def Req.scrubbedOf (r : Req) : Req :=
  { r with
    ops := r.ops.map (fun o => { o with key := none, made := [], output := [], draws := [], nonce := [], kept := none })
    bufs := [] }

/-- What an error response to a write of a request names of it once its record has left (R432). -/
def Req.leaves (r : Req) : Left := ⟨r.id, r.srcNumber.2, eTag r.entry, r.gen.toNat % 65536⟩

/-- The record of a request that wrote has left; its extent says that it wrote (R113). -/
def noteLeft (r : Req) (s : State) : State :=
  if r.wxHi < r.wxLo then s
  else if r.isBoot then modBoot (fun q => { q with left := q.left ++ [r.leaves] }) s
  else modTen r.tenant.val (fun t => { t with left := t.left ++ [r.leaves] }) s

/-- The request is of ring m of tenant n. -/
def Req.ofCq (r : Req) (n m : Nat) : Bool := decide (r.tenant.val = n) && decide (r.cq.val = m)

/-- The written records of a ring whose slots its reader has not passed are kept for an error response to their writes (R122). -/
def trimSent (n m : Nat) (s : State) : State :=
  let gone := (s.sent.filter (fun r => r.ofCq n m)).take ((s.sent.filter (fun r => r.ofCq n m)).length - (s.cq n m).occ)
  modSent (fun l => l.filter (fun r => !gone.any (fun q => decide (q.id = r.id)))) s

/-- The record is in its ring: tail, ledger, notice, and the end of the request (R115, R117, R128). The request is kept without its data
for an error response to the write of its record (R122). -/
def recordDone (r : Req) (addr : Nat) (b : Bytes) (s : State) : State :=
  let n := r.tenant.val
  let m := r.cq.val
  let flushed := decide (byteAt b 4 = stFlushed)
  let keep (s : State) : State := trimSent n m (modSent (fun l => l ++ [{ r.scrubbedOf with record := b }]) s)
  keep (unstall n (retireReq r.id (noteLeft r (coalesce n m (ledgerRecord n flushed
    (modCq n m (fun c => { c with tail := (c.tail + 1) % 2 ^ (c.k + 1) }) (emitRecord addr b s)))))))

/-- Write a record at the tail of its ring; false where the check fails, with the fault. -/
def putRecord (r : Req) (rescued : Bool) (b : Bytes) (s : State) : State × Bool :=
  let n := r.tenant.val
  let m := r.cq.val
  let c := s.cq n m
  let a := c.slotAddr c.tail
  match reqCheck s r .write a 32 with
  | none => (recordDone r a (stampRecord (nextLseq s n) (phaseAt c.k c.tail) rescued b) s, true)
  | some (fa, cause) => (cqFault n m fa 1 cause (recViol r fa cause s), false)

/-! ### Rescue (R122, R123) -/

def rescueBase (s : State) : Nat := (s.eff .ownRescueBase).toNat
def rescueAddr (s : State) (n place : Nat) : Nat := rescueBase s + n * 0x3000 + place * 32

/-- The lowest-numbered free place of a tenant's rescue area. -/
def rescuePlace (s : State) (n : Nat) : Nat :=
  ((List.range 384).find? (fun i => !s.reqs.any (fun r => decide (r.tenant.val = n) && decide (r.phase = .rescued i)))).getD 383

def rescueFaultRecord (n m : Nat) (copy : Bool) (addr : Nat) (s : State) : State :=
  journal 0x23 0x10 [n + 16 * m + 2 ^ 8 * b2n copy, addr % 2 ^ 32, addr / 2 ^ 32] (raiseG gRescueFault s)

/-- A record that its ring refuses goes to the rescue area, or stays in its context (R122, R123). A reservoir record takes a place of
the ring, since it leaves the reservoir, whose record may end a stall of another ring of the tenant (R121). -/
def rescue (r : Req) (b : Bytes) (s : State) : State :=
  let n := r.tenant.val
  let m := r.cq.val
  let place := rescuePlace s n
  let a := rescueAddr s n place
  let keep (ph : ReqPhase) (s : State) : State :=
    unstall n (modCq n m (fun c => { c with rescued := c.rescued ++ [(r.id, place)] })
      (modReq r.id (fun r => { r with phase := ph, record := b, place := .cq }) s))
  if rescueBase s = 0 then rescueFaultRecord n m false 0 (keep .held s)
  else match check s s.gen.act none .secure .write a 32 with
    | none => keep (.rescued place) (emitRecord a (stampRecord 0 false true b) s)
    | some (fa, cause) =>
      rescueFaultRecord n m false fa (keep .held (violP fa .write cause kindRescue n (eTag r.entry) (s.gen.active.toNat % 65536) s))

/-- A finished record for CQ m: into the ring, or to rescue behind the records that wait there (R122). -/
def deliver (r : Req) (b : Bytes) (s : State) : State :=
  let n := r.tenant.val
  let m := r.cq.val
  if (s.cq n m).fault || decide ((s.cq n m).rescued ≠ []) then rescue r b s
  else match putRecord r false b s with
    | (s1, true) => s1
    | (s1, false) => rescue r b s1

/-- Copy the records kept in contexts that stand first, then read the first one of the rescue area back (R122). -/
def startCopy (n m : Nat) : Nat → State → State
  | 0, s => s
  | fuel + 1, s =>
    let c := s.cq n m
    match c.rescued with
    | [] => s
    | (id, place) :: t =>
      if c.fault then s
      else match s.req id with
        | none => modCq n m (fun c => { c with rescued := t }) s
        | some r =>
          if r.phase = .held then
            (match putRecord r false r.record s with
              | (s1, true) => startCopy n m fuel (modCq n m (fun c => { c with rescued := t }) s1)
              | (s1, false) => s1)
          else
            let a := rescueAddr s n place
            (match check s s.gen.act none .secure .read a 32 with
              | none => emitRd a 32 s
              | some (fa, cause) =>
                rescueFaultRecord n m true fa (cqFault n m fa 1 cause
                  (violP fa .read cause kindRescue n (eTag r.entry) (s.gen.active.toNat % 65536) s)))

def startCopies (n m : Nat) (s : State) : State := startCopy n m ((s.cq n m).rescued.length) s

/-- A BUS_ERROR record and the capture of a bus error of a tenant, or of a privileged access (R432). -/
def busErrorOf (t : Option TenantIx) (addr : Nat) (d : Dir) (port kind number tag gen : Nat) (s : State) : State :=
  let cap : Capture := { valid := true, addr := BitVec.ofNat 48 addr, dir := d, port := BitVec.ofNat 2 port, kind := BitVec.ofNat 4 kind
                         number := BitVec.ofNat 6 number, tag := BitVec.ofNat 16 tag, gen := BitVec.ofNat 16 gen }
  let origin := match t with
    | some n => n.val
    | none => 0x10
  let ten := match t with
    | some n => n.val
    | none => 0
  let s1 := journal 0x36 origin [addr % 2 ^ 32, addr / 2 ^ 32 + 2 ^ 16 * dirBit d + 2 ^ 17 * port,
    kind + 2 ^ 4 * number + 2 ^ 12 * ten + 2 ^ 16 * tag] s
  match t with
  | some n =>
    let s2 := modTen n.val (fun q => { q with becnt := q.becnt.bump }) s1
    let first := !(s.ten n.val).buserr.valid
    let s3 := if first then modTen n.val (fun q => { q with buserr := cap }) s2 else s2
    if first || (s.ten n.val).becnt.saturates then raiseT n.val evBuserr s3 else s3
  | none =>
    let s2 := modBecnt Cnt32.bump s1
    raiseG gBuserrPriv (if s.buserr.valid then s2 else modBuserr (fun _ => cap) s2)

/-! ### FENCE (R18, R97) -/

/-- An error response to the FENCE read-back of address `addr` on a port: the fence fails, and it is a bus error of the request (R97,
R432). -/
def fenceError (r : Req) (addr port : Nat) (s : State) : State :=
  busErrorOf r.priv addr .read port r.srcNumber.1 r.srcNumber.2 (eTag r.entry) (r.gen.toNat % 65536)
    (modReq r.id (fun r => { r with fenceFail := r.fenceFail.or (some ⟨0x31, 3, 0⟩) }) s)

/-- The read-back of the last byte written to a frame has returned (R341). -/
def frameReadback (r : Req) (b : Nat) (resp : Resp) (s : State) : State :=
  whenS (r.buf b).fence (fun s =>
    let s1 := modBuf r.id b (fun q => { q with fence := false }) s
    match resp with
    | .ok _ => s1
    | .err => fenceError r ((r.ref b).fstart + (r.buf b).written - 1) 2 s1) s

/-- The read-back of a host master port has returned. -/
def portReadback (r : Req) (port : Bool) (resp : Resp) (s : State) : State :=
  match if port then r.port1 else r.port0 with
  | none => s
  | some a =>
    let s1 := modReq r.id (fun r => { r with port0 := if port then r.port0 else none, port1 := if port then none else r.port1 }) s
    match resp with
    | .ok _ => s1
    | .err => fenceError r a (b2n port) s1

/-- FENCE_READBACK_RETURN: a read-back of the request has returned, on a host master port, or that of a frame, which its reference names. -/
def fxFenceReadbackReturn (id : Nat) (port : Bool) (resp : Resp) (frame : Option (Fin 8)) (s : State) : State :=
  withReq id (fun r s => whenS (decide (r.phase = .ended)) (fun s =>
    match frame with
    | some b => frameReadback r b.val resp s
    | none => portReadback r port resp s) s) s
def execFenceReadbackReturn (id : Nat) (port : Bool) (resp : Resp) (s : State) (frame : Option (Fin 8) := none) :
    Host.Outcome State Fault Refusal := .next (fxFenceReadbackReturn id port resp frame s)

/-- RESCUE_COPY: the first rescued record of CQ m has been read back. -/
def fxRescueCopy (n : TenantIx) (m : RingIx) (resp : Resp) (s : State) : State :=
  let c := s.cq n m
  match c.rescued with
  | [] => s
  | (id, place) :: t =>
    withReq id (fun r s => whenS (!s.held && !c.fault && decide (r.phase = .rescued place)) (fun s =>
      match resp with
      | .err =>
        let a := rescueAddr s n place
        rescueFaultRecord n m true a (cqFault n m a 2 0
          (busErrorOf none a .read (b2n (portOf a)) kindRescue n (eTag r.entry) (s.gen.active.toNat % 65536) s))
      | .ok data =>
        match putRecord r true (fit 32 data) s with
        | (s1, true) => startCopies n m (modCq n m (fun c => { c with rescued := t }) s1)
        | (s1, false) => s1) s) s
def execRescueCopy (n : TenantIx) (m : RingIx) (resp : Resp) (s : State) : Host.Outcome State Fault Refusal := .next (fxRescueCopy n m resp s)

/-- W1C of FAULT: the copy of the rescued records starts (R122, R434). -/
def cqFaultClear (n m : Nat) (s : State) : State :=
  if (s.cq n m).fault then startCopies n m (modCq n m (fun c => { c with fault := false }) s) else s
def fxCqFaultClear (who : Who) (n : TenantIx) (m : RingIx) (s : State) : State :=
  gateW who (.cqStat n m) (BitVec.ofNat 64 (2 ^ 26)) (cqFaultClear n m) s
def execCqFaultClear (who : Who) (n : TenantIx) (m : RingIx) (s : State) : Host.Outcome State Fault Refusal := .next (fxCqFaultClear who n m s)

/-! ### COMPLETION_RECORD_WRITE -/

/-- The boot ring's record area follows its 2^k slots (R473, R477). -/
def bootRecAddr (s : State) (i : Nat) : Nat := s.boot.base.toNat + 32 * (2 ^ s.boot.k.toNat + i % 2 ^ s.boot.k.toNat)

/-- A boot record: into its place, counted by the boot ring's own counters (R477, R478). A record whose write fails is counted as
written (DESIGN CHOICE, notes/assumptions/22.md). -/
def bootRecord (index : Nat) (b : Bytes) (s : State) : State :=
  let s1 := modBoot (fun q => { q with completed := q.completed + 1, inflight := q.inflight - 1 }) s
  let a := bootRecAddr s index
  match check s s.gen.act none .secure .write a 32 with
  | none => emitRecord a (stampRecord (s1.boot.completed.toNat % 65536) (phaseAt s.boot.k.toNat index) false b) s1
  | some (fa, cause) => violP fa .write cause kindBoot 0 (leAt b 0 2) (s.gen.active.toNat % 65536) s1

/-- With the last boot record out of a draining ring, the boot ring is OFF (R472). -/
def bootSettle (s : State) : State :=
  if s.boot.st = .draining ∧ s.boot.inflight = 0 then modBoot (fun q => { q with st := .off }) s else s

/-- The credit of a forwarded request goes back to the master, by the request's number (R461, R463). -/
def giveCredit (peer number : Nat) (s : State) : State :=
  modPeer peer (fun q => { q with owed := q.owed.erase number }) (sendFrame ftCredit peer (toLE 4 number) s)

/-- A forwarded request that ends here: its result and its output for DONE and DONE_TRUNCATED go back with the credit (R461, R463).
The layout within FWD_RESULT is the model's (notes/assumptions/17.md). -/
def sendResult (peer number : Nat) (r : Req) (o : Outcome) (s : State) : State :=
  let out (i : Nat) : Bytes := (r.op i).output.take (r.mayWrite i)
  let outs := if o.good then
      (List.range r.ops.length).flatMap (fun i => if 8 ≤ (r.op i).w.dst then toLE 3 (out i).length ++ out i else [])
    else []
  let body := toLE 4 number ++ toLE 1 o.status.toNat ++ toLE 1 o.detail.toNat ++ toLE 1 o.lastop ++ toLE 1 (tileByte r o)
    ++ toLE 1 (b2n r.zeroized + 2 * b2n r.voted) ++ toLE 3 (r.op o.lastop).consumed ++ toLE 3 (producedOf r o.lastop) ++ outs
  modCrs (fun c => { c with cnt := { c.cnt with fwdRet := c.cnt.fwdRet + 1, fwdRun := c.cnt.fwdRun - 1 } })
    (giveCredit peer number (sendLong ftFwdResult peer body s))

/-- One LATE record of a ring (R363). -/
def countLate (r : Req) (s : State) : State :=
  raiseT r.tenant.val evSchedLate (modSq r.tenant.val r.ringNo (fun q => { q with late := q.late.bump }) s)

/-- Everything that held the request's intermediate data and keys is zeroized (R102). -/
def scrubContext (id : Nat) (s : State) : State := modReq id Req.scrubbedOf s

/-- A SUPPLY_EVENT record is counted in AH_STAT_SUPPLY.EVENTS (R410). -/
def countSupply (s : State) : State :=
  modSup (fun p => { p with events := bump32 p.events, sat := if tops p.events then p.sat ||| 4 else p.sat }) s

/-- What is counted as a record is assembled: an error of the memory that is read, a late record, a supply event (R131, R363, R410). The
request's intermediate data and keys are zeroized (R102). -/
def recordCounts (id : Nat) (ecc : Ecc) (r : Req) (o : Outcome) (s : State) : State :=
  let s0 := memCheck 0 (if r.isBoot || r.foreign then none else some r.tenant.val) ecc s
  scrubContext id (if o.status = 0x62 then countLate r s0 else if o.status = 0x60 then countSupply s0 else s0)

/-- COMPLETION_RECORD_WRITE (R111 to R115, R119 to R123). -/
def fxCompletionRecordWrite (id : Nat) (ecc : Ecc) (s : State) : State :=
  withReq id (fun r s => whenS (recordReady s r) (fun s =>
    let o := finalOutcome s r
    let b := assemble s r
    let s1 := recordCounts id ecc r o s
    match r.origin with
    | .boot i => bootSettle (retireReq id (noteLeft r (bootRecord i b s1)))
    | .course p number _ => retireReq id (sendResult p.val number r o s1)
    | .ring _ =>
      if r.place = .reservoir then modReq id (fun r => { r with phase := .waiting, record := b, finishNo := s.sch.nextId })
          (modSch (fun c => { c with nextId := c.nextId + 1 }) s1)
      else deliver { r.scrubbedOf with outcome := some o } b s1) s) s
def execCompletionRecordWrite (id : Nat) (ecc : Ecc) (s : State) : Host.Outcome State Fault Refusal :=
  .next (fxCompletionRecordWrite id ecc s)

/-- The oldest finished reservoir record for CQ m. -/
def oldestReservoir (s : State) (n m : Nat) : Option Req :=
  let l := s.reqs.filter (fun r => decide (r.tenant.val = n) && decide (r.cq.val = m) && decide (r.phase = .waiting))
  l.find? (fun r => l.all (fun q => decide (r.finishNo ≤ q.finishNo)))

/-- RESERVOIR_RECORD_WRITE (R120); the check of the reservoir memory comes as an operand (R22, R131, R431). -/
def fxReservoirRecordWrite (n : TenantIx) (m : RingIx) (ecc : Ecc) (s : State) : State :=
  let c := s.cq n m
  match oldestReservoir s n m with
  | none => s
  | some r => whenS (!s.held && c.en && decide (c.occ + resvOf s n m < 2 ^ c.k)) (fun s => deliver r r.record (memCheck 0 (some n.val) ecc s)) s
def execReservoirRecordWrite (n : TenantIx) (m : RingIx) (s : State) (ecc : Ecc := .clean) : Host.Outcome State Fault Refusal :=
  .next (fxReservoirRecordWrite n m ecc s)

/-- CQ_COAL_TIMEOUT (R117). -/
def fxCqCoalTimeout (n : TenantIx) (m : RingIx) (s : State) : State :=
  whenS ((s.cq n m).timer && decide ((s.cq n m).coalTime ≠ 0)) (notify n m) s
def execCqCoalTimeout (n : TenantIx) (m : RingIx) (s : State) : Host.Outcome State Fault Refusal := .next (fxCqCoalTimeout n m s)

/-! ### Head writes and set-up (R110, R116, R500) -/

/-- A head write frees the slots it passes (R116). -/
def cqHead (n m new : Nat) (s : State) : State :=
  let c := s.cq n m
  let j := judgeHead c.k c.head c.tail new
  let s1 := trimSent n m (modCq n m (fun c => { c with head := j.1, hclamp := c.hclamp || j.2 }) s)
  unstall n (if j.2 then raiseT n evCqHeadClamp s1 else s1)
def fxCqDoorbell (who : Who) (n : TenantIx) (m : RingIx) (head : BitVec 17) (s : State) : State :=
  gateW who (.dbCq n m) (head.setWidth 64) (cqHead n m head.toNat) s
def execCqDoorbell (who : Who) (n : TenantIx) (m : RingIx) (head : BitVec 17) (s : State) : Host.Outcome State Fault Refusal :=
  .next (fxCqDoorbell who n m head s)

/-- Records of CQ m that are reserved in it, held outside it or kept in the reservoir for it. -/
def cqBusy (s : State) (n m : Nat) : Bool := decide (resvOf s n m ≠ 0) || heldFor s n m

def cqMutable (s : State) (n m : Nat) : Bool := !(s.cq n m).en && !cqBusy s n m

def cqBaseWrite (who : Who) (n : TenantIx) (m : RingIx) (mask val : Word) (s : State) : State :=
  if cqMutable s n m then
    trimSent n m (modCq n m (fun c => { c with base := (Reg.cqBase n m).write c.base mask val, head := 0, tail := 0 }) s)
  else dropPiece who (.cqBase n m) mask val s

/-- The records since the last notice reach COAL_CNT, which a write may have lowered (R117). -/
def noticeDue (n m : Nat) (s : State) : State :=
  if 0 < (s.cq n m).coal ∧ (s.cq n m).coalCnt ≤ (s.cq n m).coal then notify n m s else s

/-- A write to AH_Tn_CQm_CFG: outside R110 it is taken only when its SIZE equals SIZE in use (R499, R500). -/
def cqCfgWrite (who : Who) (n : TenantIx) (m : RingIx) (mask val : Word) (s : State) : State :=
  let c := s.cq n m
  let new := (Reg.cqCfg n m).write c.cfg mask val
  if cqMutable s n m then noticeDue n m (trimSent n m (modCq n m (fun c => { c with cfg := new, head := 0, tail := 0 }) s))
  else if fld (merge c.cfg mask val) 4 0 = c.k then noticeDue n m (modCq n m (fun c => { c with cfg := new }) s)
  else dropPiece who (.cqCfg n m) mask val s

def cqSetupReg (n : TenantIx) (m : RingIx) : CqSetup → Reg
  | .base => .cqBase n m
  | .cfg => .cqCfg n m

def cqSetup (who : Who) (n : TenantIx) (m : RingIx) (r : CqSetup) (mask val : Word) (s : State) : State :=
  match r with
  | .base => cqBaseWrite who n m mask val s
  | .cfg => cqCfgWrite who n m mask val s

def fxCqSetupWrite (who : Who) (n : TenantIx) (m : RingIx) (r : CqSetup) (v : Word) (s : State) : State :=
  gateW who (cqSetupReg n m r) v (cqSetup who n m r (~~~ 0) v) s
def execCqSetupWrite (who : Who) (n : TenantIx) (m : RingIx) (r : CqSetup) (v : Word) (s : State) : Host.Outcome State Fault Refusal :=
  .next (fxCqSetupWrite who n m r v s)

/-- A submission ring with EN = 1 names CQ m (R110). -/
def cqFed (s : State) (n m : Nat) : Bool := (List.range 16).any (fun i => (s.sq n i).en && decide ((s.sq n i).cqNo = m))

/-- A write to AH_Tn_CQm_CTL (R110): EN = 1 enables; 0 clears EN unless the ring is fed, reserved or holds records. -/
def cqEnWrite (who : Who) (n : TenantIx) (m : RingIx) (mask val : Word) (s : State) : State :=
  if !bitOf mask 0 then s
  else if bitOf val 0 then unstall n (modCq n m (fun c => { c with en := true }) s)
  else if !(s.cq n m).en then s
  else if cqFed s n m || cqBusy s n m then dropPiece who (.cqCtl n m) mask val s
  else modCq n m (fun c => { c with en := false }) s
def fxCqEnWrite (who : Who) (n : TenantIx) (m : RingIx) (en : Bool) (s : State) : State :=
  let v : Word := if en then 1 else 0
  gateW who (.cqCtl n m) v (cqEnWrite who n m (~~~ 0) v) s
def execCqEnWrite (who : Who) (n : TenantIx) (m : RingIx) (en : Bool) (s : State) : Host.Outcome State Fault Refusal :=
  .next (fxCqEnWrite who n m en s)

/-! ### The ledger (R127, R130) -/

/-- QUEUED: the sum over the tenant's rings. -/
def queuedOf (s : State) (n : Nat) : Word := (List.range 16).foldl (fun a m => a + (s.sq n m).queued) 0

/-- SNAP: the six counters, QUEUED and the time count, copied at once. -/
def ledgerSnap (n : Nat) (s : State) : State :=
  modTen n (fun t => { t with snap := t.led, snapQueued := queuedOf s n, snapTime := s.time.ns }) s
def fxLedgerSnap (who : Who) (n : TenantIx) (s : State) : State := gateW who (.tnLedgerCtl n) 1 (ledgerSnap n) s
def execLedgerSnap (who : Who) (n : TenantIx) (s : State) : Host.Outcome State Fault Refusal := .next (fxLedgerSnap who n s)

end Sys2Proof.Machine
end

