-- ==== Sys2Proof/Machine/KeyStore.lean ====
section
/-!
DEFINITION. The key store, the measurement registers, the key cache and the kiln (R244 to R246, R255 to R278, R457), with the
commands KS_OPEN to KS_BACKGROUND_SCAN, KEY_CACHE_LOAD, KEY_INSTALL, KEY_CACHE_UNLOAD, HKDF, COUNTER_MODE_KDF and
KILN_DERIVATION.
-/

namespace Sys2Proof.Machine

def erNone := 0
def erBusy := 1
def erBadAttr := 2
def erBadLen := 3
def erKcv := 4
def erLifecycle := 5
def erLocked := 6
def erNoBank := 7
def erNotOpen := 8

def ksErr (e : Nat) (s : State) : State := modKs (fun k => { k with err := BitVec.ofNat 4 e }) s

/-- A key store command before K_tag has been drawn sets ERR to BUSY (R471). -/
def ksCmd (f : State → State) (s : State) : State := if s.ks.kTag.isNone then ksErr erBusy s else f s

/-- The slot that AH_KS_SEL names. -/
def ksSel (s : State) : Nat := fld s.own.ksSel 10 0

/-- Owner software has staged or committed slot x (R257). -/
def ownerHolds (s : State) (x : Nat) : Bool := s.ks.isOpen && decide (s.ks.openSlot = x)

/-- Owner software may write the W registers: OPEN_SLOT is STAGED (R258). -/
def ksStaged (s : State) : Bool := s.ks.isOpen && (s.slot s.ks.openSlot).staged

/-- A command to a course slot on an engine that is not the master (R455). -/
def courseLocked (s : State) (x : Nat) : Bool := courseSlot s x && !crsIsMaster s

/-! ### The owner's procedure (R257, R258) -/

/-- The copy of OPENC into the pending bank: the active bank's material, NEXT and SOFT. -/
def copyBank (x : Nat) (s : State) : State :=
  modSlot x (fun v => v.setIdle (({ material := fit 64 v.act.material, soft := v.act.soft } : Bank).setNext v.act.next)) s

/-- A write to the pending bank that owner software staged, deferred while a supply warning lasts (R278). -/
def orDefer (d : KsDefer) (f : State → State) (s : State) : State :=
  if s.sup.active then modKs (fun k => { k with deferred := k.deferred ++ [d] }) s else f s

/-- OPEN and OPENC: the pending bank is claimed, and OPENC copies the active bank's material, NEXT and SOFT. An old bank that drains, that of
a slot which has failed since its swap too, keeps the slot BUSY (R260, R280). -/
def ksOpenAs (copy : Bool) (s : State) : State :=
  let x := ksSel s
  let v := s.slot x
  if courseLocked s x then ksErr erLocked s
  else if s.ks.isOpen || v.zeroing || v.draining || !decide (v.code = 0 ∨ v.code = 1 ∨ v.code = 5) then ksErr erBusy s
  else if copy && decide (v.code ≠ 1) then ksErr erNoBank s
  else
    let s1 := modKs (fun k => { k with err := 0, isOpen := true, openSlot := x, openc := copy, wkcv := zeros 8 })
      (modOwn (fun o => { o with wkcvEn := 0 }) (modSlot x (fun v => { v.setIdle { material := zeros 64 } with staged := true }) s))
    if copy then orDefer (.copy x) (copyBank x) s1 else s1

def fxKsOpen (who : Who) (s : State) : State := gateW who .ksCmd 1 (ksCmd (ksOpenAs false)) s
def execKsOpen (who : Who) (s : State) : Host.Outcome State Fault Refusal := .next (fxKsOpen who s)

def fxKsOpenc (who : Who) (s : State) : State := gateW who .ksCmd 2 (ksCmd (ksOpenAs true)) s
def execKsOpenc (who : Who) (s : State) : Host.Outcome State Fault Refusal := .next (fxKsOpenc who s)

/-- Eight bytes of a byte string replaced under a mask. -/
def putWord (b : Bytes) (n i : Nat) (mask val : Word) : Bytes :=
  let f := fit n b
  f.take (8 * i) ++ toLE 8 (merge (BitVec.ofNat 64 (leAt f (8 * i) 8)) mask val).toNat ++ f.drop (8 * i + 8)

/-- A W register write into the pending bank of OPEN_SLOT. -/
def bankWrite (r : KsBankReg) (mask val : Word) (s : State) : State :=
  let upd (f : Bank → Bank) : State := modSlot s.ks.openSlot (fun v => v.setIdle (f v.idle)) s
  match r with
  | .wdata i => upd (fun b => { b with material := putWord b.material 64 i.val mask val })
  | .wattr i => upd (fun b => { b with attr := putWord b.attr 16 i.val mask val })
  | .wnext => upd (fun b => b.setNext (merge b.next mask val))
  | .wsoft => upd (fun b => { b with soft := merge b.soft mask val })
  | .wkcv => modKs (fun k => { k with wkcv := putWord k.wkcv 8 0 mask val }) s
  | .wkcvEn => modOwn (fun o => { o with wkcvEn := merge o.wkcvEn mask val &&& 1 }) s

def ksBankReg : KsBankReg → Reg
  | .wdata i => .ksWdata i
  | .wattr i => .ksWattr i
  | .wnext => .ksWnext
  | .wsoft => .ksWsoft
  | .wkcv => .ksWkcv
  | .wkcvEn => .ksWkcvEn

/-- The write is taken, deferred by a supply warning, or dropped: no slot is STAGED, or WDATA after OPENC (R258, R278). -/
def ksBank (who : Who) (r : KsBankReg) (mask val : Word) (s : State) : State :=
  let data := match r with
    | .wdata _ => true
    | _ => false
  if r = .wkcvEn then bankWrite r mask val s
  else if !ksStaged s || (data && s.ks.openc) then dropPiece who (ksBankReg r) mask val s
  else orDefer (.bank r mask val) (bankWrite r mask val) s

def fxKsBankWrite (who : Who) (r : KsBankReg) (v : Word) (s : State) : State :=
  gateW who (ksBankReg r) v (ksBank who r (~~~ 0) v) s
def execKsBankWrite (who : Who) (r : KsBankReg) (v : Word) (s : State) : Host.Outcome State Fault Refusal := .next (fxKsBankWrite who r v s)

/-- COMMIT: verification starts. -/
def ksCommit (s : State) : State :=
  if !s.ks.isOpen then ksErr erNotOpen s
  else if (s.slot s.ks.openSlot).verify then ksErr erBusy s
  else modKs (fun k => { k with busy := true }) (beginVerify s.ks.openSlot s)
def fxKsCommit (who : Who) (s : State) : State := gateW who .ksCmd 3 (ksCmd ksCommit) s
def execKsCommit (who : Who) (s : State) : Host.Outcome State Fault Refusal := .next (fxKsCommit who s)

/-- The pending bank of OPEN_SLOT is zeroized and the slot returns to its former state. -/
def ksDiscard (e : Nat) (s : State) : State :=
  modKs (fun k => { k with err := BitVec.ofNat 4 e, isOpen := false, busy := false, openc := false, wkcv := [], deferred := k.deferred.filter (fun d => match d with
    | .bank _ _ _ => false
    | _ => true) }) (unclaim s.ks.openSlot s)

def ksAbort (s : State) : State :=
  if !s.ks.isOpen then ksErr erNotOpen s
  else if (s.slot s.ks.openSlot).verify then ksErr erBusy s
  else ksDiscard erNone s
def fxKsAbort (who : Who) (s : State) : State := gateW who .ksCmd 4 (ksCmd ksAbort) s
def execKsAbort (who : Who) (s : State) : Host.Outcome State Fault Refusal := .next (fxKsAbort who s)

/-- ZEROIZE of the selected slot (R261): its banks follow with KS_DRAINED. -/
def ksZeroize (s : State) : State :=
  let x := ksSel s
  if courseLocked s x then ksErr erLocked s
  else
    let s1 := if ownerHolds s x then ksDiscard erNone s else ksErr erNone s
    if s1.slot x = {} then s1 else modSlot x (fun v => { v with zeroing := true }) s1
def fxKsZeroize (who : Who) (s : State) : State := gateW who .ksCmd 5 (ksCmd ksZeroize) s
def execKsZeroize (who : Who) (s : State) : Host.Outcome State Fault Refusal := .next (fxKsZeroize who s)

/-! ### Measurement registers (R244, R245) -/

def measVal (s : State) (i : Nat) : Bytes := fit 48 (s.meas.vals.look [] i)
def measCnt (s : State) (i : Nat) : BitVec 32 := s.meas.cnt.look 0 i

/-- An accepted extend: SHA-384(Mi ‖ E), and the count rises. -/
def extend (i : Nat) (e : Bytes) (s : State) : State :=
  modMeas (fun m => { m with vals := m.vals.put [] i (sha384 (measVal s i ++ e)), cnt := m.cnt.put 0 i (measCnt s i + 1) }) s

/-- An extend of Mi is refused: locked, or its count at its top (R244, R245). -/
def extendRefused (s : State) (i : Nat) : Bool := s.meas.lock.toNat.testBit i || decide (measCnt s i = 0xFFFFFFFF)

/-- An accepted extend, deferred while a supply warning lasts (R278). -/
def extendOrDefer (i : Nat) (e : Bytes) (s : State) : State := orDefer (.extend i e) (extend i e) s

/-- A refused extend leaves its record (R244, R245). -/
def extendRecord (i : Nat) (s : State) : State := ksEvent i false 3 s

/-- A deferred extend takes place, unless the count has reached its top since it was accepted (R244, R245). -/
def extendDue (i : Nat) (e : Bytes) (s : State) : State :=
  if measCnt s i = 0xFFFFFFFF then extendRecord i (ksErr erLocked s) else extend i e s

/-- EXTEND of the register in AH_KS_MEAS_SEL; M0 takes none from software. -/
def ksExtend (s : State) : State :=
  let i := fld s.own.measSel 2 0
  if i = 0 ∨ extendRefused s i then extendRecord i (ksErr erLocked s)
  else ksErr erNone (extendOrDefer i (fit 48 s.meas.data) s)
def fxKsExtend (who : Who) (s : State) : State := gateW who .ksCmd 6 (ksCmd ksExtend) s
def execKsExtend (who : Who) (s : State) : Host.Outcome State Fault Refusal := .next (fxKsExtend who s)

/-! ### Verification, swap and drain (R259 to R261, R457) -/


/-- The first failing step of the verification of the owner's bank (R258, R259). -/
def verifyErr (s : State) (x : Nat) : Nat :=
  let v := s.slot x
  let b := v.idle
  let a := fit 16 b.attr
  let m := fit 64 b.material
  let same := decide (aClass a = aClass v.act.attr ∧ aParam a = aParam v.act.attr ∧ aLen a = aLen v.act.attr)
  if s.decom then erLifecycle
  else if !attrValid a then erBadAttr
  else if !(slotForm a && decide (aLen a ≤ 64) && allZero (m.drop (aLen a))) || (s.ks.openc && !same) then erBadLen
  else if !kcvOk s a m then erKcv
  else erNone

/-- The master sends a new course slot bank to every member as a blob under K_W (R457). -/
def sendSlotBank (x : Nat) (s : State) : State :=
  if courseSlot s x && crsIsMaster s then
    let b := (s.slot x).act
    eachN (formedPeers s) (fun p s =>
      nextFree (sendLong ftSlotBank p (toLE 2 x ++ toLE 1 (b2n (s.slot x).cur) ++ toLE 8 b.soft.toNat
        ++ sealBlob (wrapKey (s.peer p).gkey (s.peer p).epoch) b.attr b.material (freeBytes s.free 12)) s)) s
  else s

/-- The integrity tag of a key (R255): its material, record, SOFT, stamp and prepared state under K_tag. Their order within the input is the
model's (notes/assumptions/18.md). -/
def keyTag (s : State) (material attr : Bytes) (soft : Word) (stamp : Bytes) (prep : List Bytes) : Bytes :=
  kmac256 8 (s.ks.kTag.getD []) (material ++ attr ++ toLE 8 soft.toNat ++ stamp ++ prep.flatten) []

/-- Steps 5 and 6 of R259: the bank with its prepared state, its stamp and its tag. -/
def sealBank (s : State) (b : Bank) : Bank :=
  let a := fit 16 b.attr
  let m := (fit 64 b.material).take (aLen a)
  let st := stampNow s (aMpol a)
  { b with attr := a, material := m, mstamp := st, prep := prepOf a m, tag := keyTag s m a b.soft st (prepOf a m) }

/-- The verified bank becomes the active one, the former one drains (R260). Blocks of the bank that it replaces are lost (R456). -/
def swapBank (x : Nat) (s : State) : State :=
  let v := s.slot x
  let b := sealBank s v.idle
  let v1 := { v.setIdle b with cur := !v.cur, hasCur := true, verify := false, staged := false, corrupt := false, ueBank := false, draining := v.hasCur }
  sendSlotBank x (modCrs (fun c => { c with blocks := c.blocks.put [] (bankIx x (!v.cur)) [] }) (modSlot x (fun _ => v1) s))

/-- The request whose operation claimed the bank under verification. -/
def claimant (s : State) (x : Nat) : Option Req := s.reqs.find? (fun r => decide (r.phase = .ended) && decide (x ∈ r.claims))

/-- The request has no claim on a slot any more. -/
def dropClaim (r : Req) (x : Nat) (s : State) : State :=
  eachN ((List.range r.ops.length).filter (fun i => decide (targetSlot (r.op i).w (r.par i) = some x)))
    (fun i => modOp r.id i (fun o => { o with claimed := false })) s

/-- The end of an operation's verification (R262): the swap precedes the record of a request whose status is DONE once its read-backs and its
frames are back, and which then shows no LATE; otherwise the bank is zeroized. Either way the claim has ended. -/
def installEnds (r : Req) (x : Nat) (s : State) : State :=
  if !settledOut s r then s
  else if (finalOutcome s r).status = 0 then dropClaim r x (modReq r.id (fun r => { r with deadline := none }) (swapBank x s))
  else dropClaim r x (unclaim x s)

/-- The end of the verification of a pending bank: the owner's, an operation's, or a member's course slot bank (R259, R262, R457). -/
def verifyEnds (x : Nat) (s : State) : State :=
  if ownerHolds s x then
    let e := verifyErr s x
    if e = erNone then
      raiseG gKsCommitDone (modKs (fun k => { k with err := 0, isOpen := false, busy := false, openc := false, wkcv := [] }) (swapBank x s))
    else raiseG gKsCommitFail (ksDiscard e s)
  else
    match claimant s x with
    | some r => installEnds r x s
    | none =>
      if attrValid (fit 16 (s.slot x).idle.attr) && slotForm (s.slot x).idle.attr then swapBank x s else unclaim x s

/-- A verification whose work on tiles has ended, where it needs any, may end (R174, R259). -/
def verifiable (s : State) (x : Nat) : Bool :=
  (s.slot x).verify && !working s (.slot x) && decide (KsDefer.prepare x ∉ s.ks.deferred)

/-- KS_VERIFY_DONE; a swap and its tag are deferred while a supply warning lasts (R278). -/
def fxKsVerifyDone (slot : Fin 2048) (s : State) : State :=
  let x := slot.val
  whenS (verifiable s x && decide (KsDefer.verify x ∉ s.ks.deferred)) (orDefer (.verify x) (verifyEnds x)) s
def execKsVerifyDone (slot : Fin 2048) (s : State) : Host.Outcome State Fault Refusal := .next (fxKsVerifyDone slot s)

/-- No request is bound to a bank of a slot. -/
def bankFree (s : State) (x : Nat) (b : Bool) : Bool := decide (boundCount s x b = 0)

/-- Each bank of a slot under ZEROIZE is zeroized once no request is bound to it, but for the pending bank of an operation (R261). -/
def zeroFree (x : Nat) (s : State) : State :=
  let v := s.slot x
  let keep (b : Bool) : Bool := !bankFree s x b || ((v.staged || v.verify) && decide (b ≠ v.cur))
  modSlot x (fun v => { v with bankA := if keep false then v.bankA else {}, bankB := if keep true then v.bankB else {} }) s

/-- KS_DRAINED: no request is bound to the old bank, or to a bank of a slot under ZEROIZE; it is zeroized, and a slot under ZEROIZE is EMPTY
once both are (R260, R261). -/
def fxKsDrained (slot : Fin 2048) (s : State) : State :=
  let x := slot.val
  let v := s.slot x
  let gone := v.draining && bankFree s x (!v.cur)
  let told (s : State) : State := if gone then raiseG gKsDrained s else s
  if v.zeroing then
    if bankFree s x true && bankFree s x false && !v.staged && !v.verify then told (modSlot x (fun _ => {}) s)
    else told (modSlot x (fun v => { v with draining := v.draining && !gone }) (zeroFree x s))
  else whenS gone (fun s => told (modSlot x (fun v => { v.setIdle {} with draining := false }) s)) s
def execKsDrained (slot : Fin 2048) (s : State) : Host.Outcome State Fault Refusal := .next (fxKsDrained slot s)

/-- KS_BACKGROUND_SCAN (R255, R256). -/
def fxKsBackgroundScan (slot : Fin 2048) (found : BankCheck) (s : State) : State :=
  let x := slot.val
  whenS ((s.slot x).hasCur && !(s.slot x).corrupt) (fun s =>
    match found with
    | .clean => s
    | .corrected => ksCe 8 s
    | .tagMismatch => failBank x false s
    | .uncorrectable => failBankUe x s) s
def execKsBackgroundScan (slot : Fin 2048) (found : BankCheck) (s : State) : Host.Outcome State Fault Refusal :=
  .next (fxKsBackgroundScan slot found s)

/-! ### The key cache and installs (R262, R270 to R275) -/

def blobMlen (b : Bytes) : Nat := leAt b 6 2
def blobAttr (b : Bytes) : Bytes := fit 16 (slice b 8 16)

/-- The material that a blob holds, under its wrapping key. -/
def blobOpen (kek b : Bytes) : Option Bytes :=
  if aeadOpens 0x1D kek (slice b 0x18 12) (b.take 40) (b.drop 40) then some (aeadText 0x1D kek (slice b 0x18 12) (b.take 40) (b.drop 40)) else none

/-- The entries H to H + E - 1 lie in the tenant's partition and are free (R274). -/
def entriesFree (s : State) (r : Req) (h e : Nat) : Bool :=
  (List.range e).all (fun j => inPartition s (r.content s) r.tenant.val (h + j) && !entryUsed s (h + j))

/-- The first failing check of a blob (R274), in order; the material otherwise. -/
def blobCheck (s : State) (r : Req) (i : Nat) (install : Bool) : Except Fail Bytes :=
  let b := r.src i
  let a := blobAttr b
  let k := r.keyAttr i
  let bad (d : Nat) : Except Fail Bytes := .error (stBadInput, d)
  let deny (d : Nat) : Except Fail Bytes := .error (stKeyDenied, d)
  let n := blobMlen b
  if !(decide (b.take 4 = ascii [0x41, 0x4B, 0x42, 0x31]) && decide (byteAt b 4 = 1 ∧ byteAt b 5 = 0) && zAt b 0x24 4
      && decide (1 ≤ n ∧ n ≤ 8192) && decide (b.length = 56 + n)) then bad 0x60
  else if !attrValid a || decide (n ≠ aLen a) || s.decom then bad 0x61
  else if aTenants a &&& aTenants k ≠ aTenants a ∨ !(aTenants a).testBit r.tenant.val then deny 2
  else if aWorld a ≠ aWorld k ∧ aWorld k ≠ 2 then deny 4
  else if aLcs a &&& aLcs k ≠ aLcs a then deny 5
  else if !install && !entriesFree s r (fwHandle (r.par i)) (entriesOf n) then bad 0x62
  else
    let t := (r.op i).madeAttr
    if install && decide (aClass a ≠ aClass t ∨ aParam a ≠ aParam t ∨ aLen a ≠ aLen t) then deny 9
    else match blobOpen (r.keyBytes i) b with
      | none => .error (stAuth, 0x60)
      | some m =>
        if aClass a = 0x16 ∧ !ekModulusOk m then bad 0x50
        else if aClass a = 0x15 ∧ !dkHashOk (aParam a) m then bad 0x51
        else .ok m

/-- Operation i of a running request is a 0x93 of one action, on its tile with its whole blob, on which a pair has agreed (R419). -/
def loadReady (s : State) (r : Req) (i action : Nat) : Bool :=
  let o := r.op i
  tilesOpen s && decide (r.phase = .running) && decide (o.phase = .running) && decide (o.w.opc = 0x93) && decide (o.w.opt % 4 = action) && r.whole o.w.src
    && !o.disputed && (!r.paired || o.endAgreed)

/-- What the security island keeps with a loaded key (R271, R273, R274): H(ek) or tr, the stamp and the tag. A key whose entry a generation
has moved out of the tenant's partition is unloaded as it comes (R272, R280). -/
def cacheKey (s : State) (r : Req) (h : Nat) (a m : Bytes) : CacheEnt :=
  let st := stampNow s (aMpol a)
  let kept := if aClass a ∈ [0x16, 0x17, 0x19] then prepOf a m else []
  { tenant := r.tenant, attr := a, material := m, mstamp := st, kept := kept, tag := keyTag s m a 0 st kept
    unload := !(List.range (entriesOf m.length)).all (fun j => inPartition s s.gen.act r.tenant.val (h + j)) }

/-- The load of an ML-DSA seed takes a bank for its public key and a digest tile for tr (R213, R229); it takes them at once with its end
(DESIGN CHOICE, notes/assumptions/33.md). With no healthy tile of a kind it ends (R124). -/
def seedLoad (id i : Nat) (f : State → State) (s : State) : State :=
  if healthyOf s 3 = [] ∨ healthyOf s 2 = [] then endChain id ⟨0x61, 2, i⟩ s
  else match bankOrder s with
    | t :: _ => f (useBank id t s)
    | [] => s

/-- KEY_CACHE_LOAD (R274): the key is usable from the next resolution. -/
def fxKeyCacheLoad (id : Nat) (op : Fin 8) (s : State) : State :=
  withReq id (fun r s => whenS (loadReady s r op.val 0) (fun s =>
    if s.ks.kTag.isNone then endChain id ⟨0x61, 3, op.val⟩ s else
    match blobCheck s r op.val false with
    | .error f => endChain id (mkOut f op.val) s
    | .ok m =>
      let a := blobAttr (r.src op.val)
      let h := fwHandle (r.par op.val)
      let load (s : State) : State := finishOp id op.val {} (sweepCache (setCacheEnt h (some (cacheKey s r h a m)) s))
      if aClass a = 0x17 then seedLoad id op.val load s else load s) s) s
def execKeyCacheLoad (id : Nat) (op : Fin 8) (s : State) : Host.Outcome State Fault Refusal := .next (fxKeyCacheLoad id op s)

/-- KEY_INSTALL (R262, R274): the pending bank is written; its swap precedes the record. -/
def fxKeyInstall (id : Nat) (op : Fin 8) (s : State) : State :=
  withReq id (fun r s => whenS (loadReady s r op.val 1) (fun s =>
    if s.ks.kTag.isNone then endChain id ⟨0x61, 3, op.val⟩ s else
    match blobCheck s r op.val true with
    | .error f => endChain id (mkOut f op.val) s
    | .ok m => finishOp id op.val { made := m } s) s) s
def execKeyInstall (id : Nat) (op : Fin 8) (s : State) : Host.Outcome State Fault Refusal := .next (fxKeyInstall id op s)

/-- KEY_CACHE_UNLOAD (R275): the entries are zeroized once no request is bound to them. -/
def fxKeyCacheUnload (id : Nat) (op : Fin 8) (s : State) : State :=
  withReq id (fun r s =>
    let w := (r.op op.val).w
    let h := fwHandle (r.par op.val)
    whenS (r.canStart op.val && decide (w.opc = 0x93) && decide (w.opt % 4 = 2) && !s.reqs.any (bindsHandle h)) (fun s =>
      finishOp id op.val {} (if ((s.cacheEnt h).map CacheEnt.unload).getD false then setCacheEnt h none s else s)) s) s
def execKeyCacheUnload (id : Nat) (op : Fin 8) (s : State) : Host.Outcome State Fault Refusal := .next (fxKeyCacheUnload id op s)

/-! ### The kiln (R263 to R268) -/

/-- No derivation that waits for the kiln ranks before this one: by class, then in admission order (R269). -/
def kilnFirst (s : State) (p : Nat × Nat) : Bool :=
  s.reqs.all (fun q => (List.range q.ops.length).all (fun j =>
    !(q.canStart j && isKilnOp (q.op j).w.opc) || decide ((q.id, j) = p) || !ranksBefore s (q.id, j) p))

/-- A kiln operation derives its output and passes it on with the record D. -/
def kilnRun (opc id i : Nat) (s : State) : State :=
  withReq id (fun r s => whenS (r.canStart i && decide ((r.op i).w.opc = opc) && !s.sup.active && kilnFirst s (id, i)) (fun s =>
    let d := frD (r.par i)
    let z := kilnOut s r i
    finishOp id i { res := { out := z }, made := z, attr := d, stamp := stampNow s (aMpol d) } s) s) s

def fxHkdf (id : Nat) (op : Fin 8) (s : State) : State := kilnRun 0x90 id op.val s
def execHkdf (id : Nat) (op : Fin 8) (s : State) : Host.Outcome State Fault Refusal := .next (fxHkdf id op s)

def fxCounterModeKdf (id : Nat) (op : Fin 8) (s : State) : State := kilnRun 0x91 id op.val s
def execCounterModeKdf (id : Nat) (op : Fin 8) (s : State) : Host.Outcome State Fault Refusal := .next (fxCounterModeKdf id op s)

def fxKilnDerivation (id : Nat) (op : Fin 8) (s : State) : State := kilnRun 0x92 id op.val s
def execKilnDerivation (id : Nat) (op : Fin 8) (s : State) : Host.Outcome State Fault Refusal := .next (fxKilnDerivation id op s)

end Sys2Proof.Machine
end

