-- ==== Sys2Proof/Machine/Attest.lean ====
section
/-!
DEFINITION. Random draws and the attestation statement (R288 to R297), and the device identity (R291, R292), with the commands
RANDOM_DRAW and ATTESTATION_STATEMENT.
-/

namespace Sys2Proof.Machine

/-! ### Drawing random bits (R288 to R290) -/

/-- The generator that serves a draw of a tenant now: its own, or the next HEALTHY one (R288). -/
def drawFrom (s : State) (n : TenantIx) : Option Nat := (genOrder n.val).find? (fun k => decide ((s.rbg k).st = .healthy))

/-- Another draw for the same generator ranks first: by class, then in admission order (R290). -/
def drawTurn (s : State) (r : Req) : Bool :=
  s.reqs.all (fun q => decide (q.id = r.id) || decide (drawFrom s q.tenant ≠ drawFrom s r.tenant)
    || !(List.range q.ops.length).any (fun i => q.canStart i && decide ((q.op i).w.opc = 0x94))
    || decide (r.cls < q.cls ∨ (r.cls = q.cls ∧ r.id < q.id)))

/-- RANDOM_DRAW (R288 to R290): one generate call of RBG(n mod 4), or of the next HEALTHY generator. A draw with PR waits for a pool
block, but not when no generator is HEALTHY. -/
def fxRandomDraw (id : Nat) (op : Fin 8) (s : State) : State :=
  withReq id (fun r s =>
    let p := r.par op.val
    whenS (r.canStart op.val && decide ((r.op op.val).w.opc = 0x94) && !s.sup.active && drawTurn s r && !(fgPr p && decide (s.es.pool = []) && rbgHealthy s))
      (fun s =>
        match generateAdd (fgPr p) (fgOut p) (slice p 8 (fgAddLen p)) (genOrder r.tenant.val) s with
        | (none, s1) => endChain id ⟨0x61, 3, op.val⟩ s1
        | (some b, s1) => finishOp id op.val { res := { out := b } } s1) s) s
def execRandomDraw (id : Nat) (op : Fin 8) (s : State) : Host.Outcome State Fault Refusal := .next (fxRandomDraw id op s)

/-! ### The identity (R291, R292) -/

/-- Input X of an identity key. -/
def idInput (s : State) (a : Nat) : Bytes :=
  ascii [0x41, 0x48, 0x2D, 0x44, 0x45, 0x56, 0x49, 0x44] ++ toLE 1 s.roots.lc.toNat ++ toLE 1 a

def idName : Bytes := ascii [0x41, 0x48, 0x2D, 0x49, 0x44]

/-- The order of P-384 (FIPS 186-5). -/
def p384Order : Nat :=
  0xFFFFFFFFFFFFFFFFFFFFFFFFFFFFFFFFFFFFFFFFFFFFFFFFC7634D81F4372DDF581A0DB248B0A77AECEC196ACCC52973

/-- DevID-C: d = (b mod (n - 1)) + 1. -/
def devIdC (s : State) : Bytes :=
  toBE 48 (beNat (kmac256 56 (s.roots.kU.getD []) (idInput s 0x02) idName) % (p384Order - 1) + 1)
/-- DevID-Q: the seed. -/
def devIdQ (s : State) : Bytes := kmac256 32 (s.roots.kU.getD []) (idInput s 0x12) idName

def devPubC (s : State) : Bytes := ecPubOf 2 (devIdC s)
def devPubQ (s : State) : Bytes := dsaPkOf 0x12 (devIdQ s)

/-- The attribute record of an identity key: ATTEST alone, any tenant and world, the current lifecycle state alone (R292). -/
def idAttr (s : State) (cls param len hash : Nat) : Bytes :=
  mkAttr cls param len (2 ^ uAttest) 0xFFFF 0 0 (2 + 4 * 2 ^ (s.roots.lc.toNat - 1)) 0 hash

/-! ### The statement (R293 to R297) -/

/-- The head of a CBOR item: major type and argument in its shortest encoding. -/
def cborHead (major n : Nat) : Bytes :=
  if n < 24 then toBE 1 (32 * major + n)
  else if n < 2 ^ 8 then toBE 1 (32 * major + 24) ++ toBE 1 n
  else if n < 2 ^ 16 then toBE 1 (32 * major + 25) ++ toBE 2 n
  else if n < 2 ^ 32 then toBE 1 (32 * major + 26) ++ toBE 4 n
  else toBE 1 (32 * major + 27) ++ toBE 8 n

def cborUint (n : Nat) : Bytes := cborHead 0 n
def cborBstr (b : Bytes) : Bytes := cborHead 2 b.length ++ b
def cborTstr (b : Bytes) : Bytes := cborHead 3 b.length ++ b
def cborArray (l : List Bytes) : Bytes := cborHead 4 l.length ++ l.flatten

/-- The payload map (R294); keys 4 to 10 as they stand (R295). -/
def statementMap (s : State) (tenant : Nat) (gen : BitVec 32) (digest nonce udata : Bytes) : Bytes :=
  let item (k : Nat) (v : Bytes) : Bytes := cborUint k ++ v
  cborHead 5 12
    ++ item 1 (cborTstr (ascii [0x41, 0x48, 0x2D, 0x41, 0x54, 0x54, 0x2D, 0x31]))
    ++ item 2 (cborBstr nonce)
    ++ item 3 (cborBstr s.ident.ueid)
    ++ item 4 (cborUint s.roots.lc.toNat)
    ++ item 5 (cborUint tenant)
    ++ item 6 (cborUint gen.toNat)
    ++ item 7 (cborBstr digest)
    ++ item 8 (cborArray ((List.range 8).map (fun i => cborBstr (measVal s i))))
    ++ item 9 (cborArray ((List.range 8).map (fun i => cborUint (measCnt s i).toNat)))
    ++ item 10 (cborUint s.time.ns.toNat)
    ++ item 11 (cborBstr udata)
    ++ item 12 (cborTstr (ascii [0x41, 0x68, 0x6E, 0x69, 0x6F, 0x72, 0x20, 0x42, 0x30]))

/-- The two protected headers: {1: -35} and {1: -49} (R296). -/
def protC : Bytes := ascii [0xA1, 0x01, 0x38, 0x22]
def protQ : Bytes := ascii [0xA1, 0x01, 0x38, 0x30]

/-- The Sig_structure that a signature covers (R296). -/
def sigStructure (prot payload : Bytes) : Bytes :=
  cborArray [cborTstr (ascii [0x53, 0x69, 0x67, 0x6E, 0x61, 0x74, 0x75, 0x72, 0x65]), cborBstr [], cborBstr prot, cborBstr [], cborBstr payload]

/-- ES384 and ML-DSA-65 signatures by the identity keys, with their draws (R296). -/
def es384Sign (key m draw : Bytes) : Bytes := bytesOf 96 (Config.pkByte (0x60, 0) key (ascii [0x10, 0x02, 0x42, 0x00]) m [] draw)
def mldsaSign (key m draw : Bytes) : Bytes := bytesOf 3309 (Config.pkByte (0x74, 0) key (ascii [0x17, 0x12, 0x00, 0x00]) m [] draw)

/-- One COSE_Signature: protected header, kid, signature. -/
def coseSignature (prot kid sig : Bytes) : Bytes :=
  cborArray [cborBstr prot, cborHead 5 1 ++ cborUint 4 ++ cborBstr kid, cborBstr sig]

/-- The COSE_Sign object over a payload (R296). -/
def statement (s : State) (payload drawC drawQ : Bytes) : Bytes :=
  ascii [0xD8, 0x62] ++ cborArray [cborBstr [], cborHead 5 0, cborBstr payload,
    cborArray [coseSignature protC s.ident.kidC (es384Sign (devIdC s) (sigStructure protC payload) drawC),
      coseSignature protQ s.ident.kidQ (mldsaSign (devIdQ s) (sigStructure protQ payload) drawQ)]]

/-- A statement for a tenant (R293): used by 0x95 and by the course's pairing (R451). -/
def attest (s : State) (tenant : Nat) (gen : BitVec 32) (digest nonce udata drawC drawQ : Bytes) : Bytes :=
  statement s (statementMap s tenant gen digest nonce udata) drawC drawQ

/-- The statement that a request asks for, under its admission generation (R294, R295). -/
def reqStatement (s : State) (r : Req) (p : Bytes) (drawC drawQ : Bytes) : Bytes :=
  attest s r.tenant.val r.gen (if r.rulesPrev then s.gen.digPrev else s.gen.digAct) (slice p 8 (ftNlen p)) (slice p (8 + ftNlen p) (ftUlen p))
    drawC drawQ

/-- The public-key tiles of the two signatures (R297): the first two of the order of R195; with one HEALTHY tile, both of its banks. -/
def signTiles (s : State) : Option (Nat × Nat) :=
  match bankOrder s with
  | t :: u :: _ => some (t, u)
  | [t] => if healthyOf s 3 = [t] ∧ bankEmpty (s.tile t).bankA = true ∧ bankEmpty (s.tile t).bankB = true then some (t, t) else none
  | [] => none

/-- The tiles whose result check has failed leave service; what they made is discarded (R203). -/
def failChecks (bad : List Nat) (s : State) : State := bad.foldl (fun s t => quarantine t qResult false s) s

/-- ATTESTATION_STATEMENT (R293 to R297): both signatures run on public-key tiles, and nothing is written before both have passed their result
checks; where one fails, the operation waits to run again with fresh draws. It ranks as R196 ranks the operations that wait for a bank. -/
def fxAttestationStatement (id : Nat) (op : Fin 8) (okC okQ : Bool) (s : State) : State :=
  withReq id (fun r s =>
    whenS (tilesOpen s && r.canStart op.val && decide ((r.op op.val).w.opc = 0x95)) (fun s =>
      if healthyOf s 3 = [] ∨ healthyOf s 2 = [] then endChain id ⟨0x61, 2, op.val⟩ s
      else whenS (pkFirst s (id, op.val)) (fun s =>
        match signTiles s with
        | some (t, u) =>
          (match generate 512 (genOrder (t - 20)) s with
            | (none, s1) => endChain id ⟨0x61, 3, op.val⟩ s1
            | (some kC, s1) =>
              match generate 64 (genOrder (u - 20)) s1 with
              | (none, s2) => endChain id ⟨0x61, 3, op.val⟩ s2
              | (some kQ, s2) =>
                if !okC || !okQ then failChecks ((if okC then [] else [t]) ++ (if okQ || (t = u && !okC) then [] else [u])) s2
                else finishOp id op.val { res := { out := reqStatement s r (r.par op.val) kC kQ } }
                  (useBank id u (useBank id t (modOp id op.val (fun o => { o with lastTile := t }) s2))))
        | none => s) s) s) s
def execAttestationStatement (id : Nat) (op : Fin 8) (s : State) (okC : Bool := true) (okQ : Bool := true) : Host.Outcome State Fault Refusal :=
  .next (fxAttestationStatement id op okC okQ s)

end Sys2Proof.Machine
end

