-- ==== Sys2Proof/Machine/Frame.lean ====
section
/-!
DEFINITION. The frame path (R332 to R343): header queries, loans, waits and returns, with the commands FRAME_HEADER_QUERY_RETURN,
FRAME_LOAN, FRAME_WAIT_TIMEOUT, FRAME_RETURN and FP_SNAP.
-/

namespace Sys2Proof.Machine

/-! ### Header queries (R334, R335) -/

/-- The references of a request that name a frame. -/
def Req.refsOf (r : Req) (handle : Nat) : List Nat :=
  (List.range r.refs.length).filter (fun b => decide ((r.ref b).kind = kFrame) && decide ((r.ref b).handle = handle))

/-- The tenant may take frames of the source port, and write them where the reference's FMODE asks for it (R332, R334). -/
def portGranted (s : State) (r : Req) (b : Nat) : Bool :=
  let w := s.word (r.content s) (.ownFp r.tenant 0)
  let ref := r.ref b
  bitOf w ref.fport && (decide (ref.fmode = 0) || bitOf w (32 + ref.fport))

/-- Cells for so many bytes. -/
def cellsFor (n : Nat) : Nat := ceilDiv n 256

/-- The length of the output that goes to a buffer. -/
def Req.outTo (r : Req) (b : Nat) : Nat :=
  ((List.range r.ops.length).filter (fun i => decide ((r.op i).w.dst = b + 8))).foldl (fun n i => max n ((r.outs.getD i none).getD 0)) 0

/-- The frame of a reference shares its cells with other copies. -/
def Req.shared (r : Req) (b : Nat) : Bool := (((r.buf b).hdr).map FrameHdr.shared).getD false

/-- A reference is built in free cells (R339). -/
def Req.newCells (r : Req) (b : Nat) : Bool :=
  decide ((r.ref b).kind = kFrame) && (decide ((r.ref b).fmode = 2) || (decide ((r.ref b).fmode = 1) && r.shared b))

/-- Free cells that a reference needs (R335). -/
def Req.freeNeed (r : Req) (b : Nat) : Nat :=
  if !r.newCells b then 0
  else if (r.ref b).fmode = 2 then cellsFor ((r.ref b).fstart + r.outTo b)
  else cellsFor ((r.ref b).fstart + (r.ref b).len)

/-- Cells of the chain of a frame. -/
def Req.chainCells (r : Req) (b : Nat) : Nat := (((r.buf b).hdr).map (fun h => h.cells.toNat)).getD 0

/-- The request's whole cell need (R335). -/
def Req.cellNeed (r : Req) : Nat :=
  (r.frames.map r.chainCells).sum + ((List.range r.refs.length).map r.freeNeed).sum

def maxCells (s : State) (r : Req) : Nat := fld (s.word (r.content s) (.ownFp r.tenant 1)) 12 0

/-- Every header has come: the need is judged, and the request waits for its cells (R335, R336). -/
def joinWait (id : Nat) (s : State) : State :=
  match s.req id with
  | none => s
  | some r =>
    if !r.frames.all (fun b => (r.buf b).hdr.isSome) then s
    else if maxCells s r < r.cellNeed then endChain id ⟨0x30, 0x22, selectorOf r.entry (r.frames.headD 0)⟩ s
    else modFp (fun f => { f with waiting := f.waiting ++ [id] }) s

/-- FRAME_HEADER_QUERY_RETURN (R334): the checks of each reference to the frame, in buffer order; the failing operation is the one that
names the reference. -/
def fxFrameHeaderQueryReturn (id : Nat) (buf : Fin 8) (hdr : Option FrameHdr) (s : State) : State :=
  withReq id (fun r s =>
    let b := buf.val
    let all := r.refsOf (r.ref b).handle
    whenS (decide (r.phase = .running) && decide (b ∈ r.frames) && (r.buf b).hdr.isNone) (fun s =>
      match all.find? (fun c => !portGranted s r c) with
      | some c => endChain id ⟨0x30, 0x20, selectorOf r.entry c⟩ s
      | none =>
        match hdr with
        | none => endChain id ⟨0x30, 0x21, selectorOf r.entry b⟩ s
        | some h =>
          match all.find? (fun c => decide ((r.ref c).fport ≠ h.port.toNat)) with
          | some c => endChain id ⟨0x30, 0x21, selectorOf r.entry c⟩ s
          | none => joinWait id (eachN all (fun c => modBuf id c (fun q => { q with hdr := some h })) s)) s) s
def execFrameHeaderQueryReturn (id : Nat) (buf : Fin 8) (hdr : Option FrameHdr) (s : State) : Host.Outcome State Fault Refusal :=
  .next (fxFrameHeaderQueryReturn id buf hdr s)

/-! ### Loans (R336) -/

/-- Cells of the engine on loan (R342: AH_STAT_FP.ONLOAN). -/
def fpOnLoan (s : State) : Nat := (s.fp.loans.map Loan.cells).sum
def tenOnLoan (s : State) (n : TenantIx) : Nat := ((s.fp.loans.filter (fun l => l.tenant = n)).map Loan.cells).sum

/-- The limits let the engine lend the request its need, and none of its frames is on loan to another. MAX_CELLS is the active
generation's (R346). -/
def mayLend (s : State) (r : Req) : Bool :=
  decide (tenOnLoan s r.tenant + r.cellNeed ≤ fld (s.eff (.ownFp r.tenant 1)) 12 0) && decide (fpOnLoan s + r.cellNeed ≤ 4096)
    && r.frames.all (fun b => !s.fp.loans.any (fun l => decide (l.handle = (r.ref b).handle)))

/-- The frame port lends: it is neither gated nor about to be (R394). -/
def fpOpen (s : State) : Bool := !s.clk.gated.toNat.testBit 25 && !s.clk.pending.toNat.testBit 25

/-- The waiting requests of a class, oldest first. -/
def waitingOf (s : State) (cls : Nat) : List Req :=
  (s.reqs.filter (fun r => decide (r.id ∈ s.fp.waiting) && decide (r.cls = cls)))

/-- The request is served next: the oldest waiting one of its class, while the first of no higher class can be served (R336). -/
def loanTurn (s : State) (r : Req) : Bool :=
  ((waitingOf s r.cls).all (fun q => decide (r.id ≤ q.id)))
    && (List.range r.cls).all (fun c =>
      match (waitingOf s c).find? (fun q => (waitingOf s c).all (fun p => decide (q.id ≤ p.id))) with
      | some q => !mayLend s q
      | none => true)

/-- The loans of a request: its chains and its free cells. -/
def loansOf (r : Req) : List Loan :=
  r.frames.map (fun b => ⟨r.id, b, r.tenant, (r.ref b).handle, r.chainCells b⟩)
    ++ ((List.range r.refs.length).filter r.newCells).map (fun b => ⟨r.id, b, r.tenant, (r.ref b).handle, r.freeNeed b⟩)

/-- The loan is made (R336, R339, R342). -/
def lend (r : Req) (s : State) : State :=
  let s1 := modFp (fun f => { f with loans := f.loans ++ loansOf r, waiting := f.waiting.filter (· ≠ r.id) }) s
  let s2 := modTen r.tenant.val (fun t => { t with fp := { t.fp with
    borrowed := t.fp.borrowed + BitVec.ofNat 64 r.cellNeed
    onloan := t.fp.onloan + BitVec.ofNat 64 r.cellNeed } }) s1
  let s3 := emit (.fpBorrow (((List.range r.refs.length).map r.freeNeed).sum)) s2
  let s4 := eachN ((List.range r.refs.length).filter r.newCells) (fun b => emit (.fpCopy (r.ref b).handle (r.ref b).fstart)) s3
  settle r.id (eachN (List.range r.refs.length) (fun b s =>
    if (r.ref b).kind = kFrame then modBuf r.id b (fun q => { q with loaned := true, cells := r.freeNeed b }) s else s) s4)

/-- FRAME_LOAN: the switch grants the free cells of the request's need. -/
def fxFrameLoan (id : Nat) (s : State) : State :=
  withReq id (fun r s => whenS (decide (id ∈ s.fp.waiting) && fpOpen s && mayLend s r && loanTurn s r) (lend r) s) s
def execFrameLoan (id : Nat) (s : State) : Host.Outcome State Fault Refusal := .next (fxFrameLoan id s)

/-- FRAME_WAIT_TIMEOUT (R336). -/
def fxFrameWaitTimeout (id : Nat) (s : State) : State :=
  withReq id (fun r s => whenS (decide (id ∈ s.fp.waiting)) (endChain id ⟨0x30, 0x23, selectorOf r.entry (r.frames.headD 0)⟩) s) s
def execFrameWaitTimeout (id : Nat) (s : State) : Host.Outcome State Fault Refusal := .next (fxFrameWaitTimeout id s)

/-! ### Returns (R338 to R342) -/

/-- The reference that writes a frame, if one does. -/
def Req.writerOf (r : Req) (handle : Nat) : Option Nat := (r.refsOf handle).find? (fun b => decide ((r.ref b).fmode ≠ 0))

/-- The outcome of a frame for a request's status. -/
def frameOutcome (s : State) (r : Req) (handle : Nat) : FrameEnd :=
  match r.writerOf handle with
  | none => .unchanged
  | some w =>
    if (finalOutcome s r).good then .replaced ((r.ref w).fstart + (r.buf w).written)
    else if r.newCells w then .unchanged
    else .discard

/-- An uncorrectable error in a loan list or in the counters of a tenant: as one of the ledger, and INVALID of the frame port (R22, R342). -/
def fpUe (n : Nat) (s : State) : State :=
  raiseT n evFpInvalid (raiseT n evLedgerInvalid (modTen n (fun t => { t with fpInvalid := true, ledInvalid := true })
    (raiseG gUeFatal (journalUe 11 n s))))

/-- FRAME_RETURN: the cells of one frame, the free ones that replaced them included, go back with their outcome, once the FENCE read-backs of
the request have returned (R341). -/
def fxFrameReturn (id : Nat) (buf : Fin 8) (ecc : Ecc) (s : State) : State :=
  withReq id (fun r s =>
    let h := (r.ref buf.val).handle
    let mine (l : Loan) : Bool := decide (l.req = id) && decide (l.handle = h)
    let n := BitVec.ofNat 64 ((s.fp.loans.filter mine).map Loan.cells).sum
    whenS (decide (r.phase = .ended) && r.fencesIn && decide (buf.val ∈ r.frames) && s.fp.loans.any mine) (fun s =>
      let s1 := match ecc with
        | .clean => s
        | .corrected => countCe 11 s
        | .uncorrectable => fpUe r.tenant.val s
      emit (.fpReturn h (frameOutcome s r h))
        (modTen r.tenant.val (fun t => { t with fp := { t.fp with returned := t.fp.returned + n, onloan := t.fp.onloan - n } })
          (modFp (fun f => { f with loans := f.loans.filter (fun l => !mine l) }) s1))) s) s
def execFrameReturn (id : Nat) (buf : Fin 8) (ecc : Ecc) (s : State) : Host.Outcome State Fault Refusal :=
  .next (fxFrameReturn id buf ecc s)

/-- FP_SNAP (R342). -/
def fpSnap (n : Nat) (s : State) : State := modTen n (fun t => { t with fpSnap := t.fp }) s
def fxFpSnap (who : Who) (n : TenantIx) (s : State) : State := gateW who (.tnFpCtl n) 1 (fpSnap n.val) s
def execFpSnap (who : Who) (n : TenantIx) (s : State) : Host.Outcome State Fault Refusal := .next (fxFpSnap who n s)

end Sys2Proof.Machine
end

