-- ==== Sys2Proof/Machine/Faults.lean ====
section
/-!
DEFINITION. Tenant resets and bus errors (R46, R47, R129, R131, R276, R432, R434 to R436), with the commands OWN_TRST,
TENANT_CTL_RESET, TENANT_RESET_DONE, TENANT_RESET_WAIT and BUS_ERROR_RESPONSE.
-/

namespace Sys2Proof.Machine

/-! ### Tenant reset -/

/-- A request of tenant n that a ring of the tenant posted. -/
def Req.ofTenant (r : Req) (n : TenantIx) : Bool :=
  decide (r.tenant = n) && (match r.origin with
    | .ring _ => true
    | _ => false)

/-- The channel is assigned to tenant n. -/
def chanOf (s : State) (n : TenantIx) (k : Nat) : Bool := decide (assignTen s s.gen.act (Fin.ofNat 64 k) = some n)

/-- Step 1 of R434: queued requests are discarded (R129), the entry cache slots go. -/
def discardQueued (n : TenantIx) (s : State) : State :=
  eachN (List.range 16) (fun m s =>
    let q := s.sq n.val m
    modTen n.val (fun t => { t with led := { t.led with clamped := t.led.clamped + q.queued } })
      (modSq n.val m (fun q => { q.release with queued := 0, posts := [], pulses := [], credit := 0 }) s)) s

/-- The chain has ended and a bank that it claimed is in VERIFYING (R262). -/
def installing (s : State) (r : Req) : Bool := decide (r.phase = .ended) && r.claims.any (fun x => (s.slot x).verify)

/-- Steps 2 and 3: every request whose last data write has not left is stopped, and an install in VERIFYING (R276, R280); channels and
streams of the tenant end. -/
def stopTenant (n : TenantIx) (detail : Nat) (s : State) : State :=
  let s1 := s.reqs.foldl (fun s r =>
    if r.ofTenant n ∧ (r.phase = .admitted ∨ r.phase = .running ∨ installing s r = true) then stopReq r.id ⟨0x50, BitVec.ofNat 8 detail, r.reached⟩ s else s) s
  let s2 := eachN ((List.range 64).filter (chanOf s n)) dcReset s1
  eachN (List.range 4) (fun i s => setStream (4 * n.val + i) none s) s2

/-- A tenant reset starts (R46, R434); none while one runs, and none for a disabled tenant. -/
def resetTenant (detail : Nat) (n : TenantIx) (s : State) : State :=
  if !s.enabled n.val || (s.ten n.val).inReset then s
  else stopTenant n detail (modTen n.val (fun t => { t with inReset := true }) (discardQueued n s))

/-- AH_OWN_TRST (R46): the tenants of the written bits, in rising order. -/
def ownTrst (mask : Nat) (s : State) : State :=
  eachN ((List.range 16).filter mask.testBit) (fun n s => resetTenant 1 (Fin.ofNat 16 n) s) s
def fxOwnTrst (who : Who) (mask : BitVec 16) (s : State) : State := gateW who .ownTrst (mask.setWidth 64) (ownTrst mask.toNat) s
def execOwnTrst (who : Who) (mask : BitVec 16) (s : State) : Host.Outcome State Fault Refusal := .next (fxOwnTrst who mask s)

def fxTenantCtlReset (who : Who) (n : TenantIx) (s : State) : State := gateW who (.tnCtl n) 1 (resetTenant 1 n) s
def execTenantCtlReset (who : Who) (n : TenantIx) (s : State) : Host.Outcome State Fault Refusal := .next (fxTenantCtlReset who n s)

/-- Step 5 (R276): the tenant's cache keys, and the banks of the slots that only it uses and that ZRST marks. -/
def zeroizeKeys (n : TenantIx) (s : State) : State :=
  let s1 := modKs (fun k => { k with cache := k.cache.filter (fun e => !((e.2.map (fun c => decide (c.tenant = n))).getD false)) }) s
  let mine (p : Nat × Slot) : Bool :=
    p.2.hasCur && !ownerHolds s p.1 && aZrst p.2.act.attr && decide (aTenants p.2.act.attr = 2 ^ n.val)
  modKs (fun k => { k with slots := k.slots.filter (fun p => !mine p) }) s1

/-- Step 6 (R47, R131, R342, R435, R495): the set-up page at its reset values, but for what R435 keeps. -/
def clearTenant (n : TenantIx) (s : State) : State :=
  let s1 := eachN (List.range 16) (fun m s => modCq n.val m (fun _ => {}) (modSq n.val m Sq.fresh s)) s
  let s2 := modSent (·.filter (fun r => r.tenant ≠ n)) s1
  modTen n.val (fun t => { t with
    inReset := false
    rstWait := false
    led := if t.ledInvalid then {} else t.led
    ledInvalid := false
    fp := if t.fpInvalid then {} else t.fp
    fpInvalid := false
    evCause := 0
    evPend := 0
    evEn := 0 }) s2

/-- TENANT_RESET_DONE (R434): no admitted request of the tenant is left. -/
def fxTenantResetDone (n : TenantIx) (s : State) : State :=
  whenS ((s.ten n.val).inReset && !s.reqs.any (fun r => r.ofTenant n))
    (fun s => raiseG gTrstDone (clearTenant n (zeroizeKeys n s))) s
def execTenantResetDone (n : TenantIx) (s : State) : Host.Outcome State Fault Refusal := .next (fxTenantResetDone n s)

/-- TENANT_RESET_WAIT (R436): the reset waits for places. -/
def fxTenantResetWait (n : TenantIx) (s : State) : State :=
  whenS ((s.ten n.val).inReset && !(s.ten n.val).rstWait && s.reqs.any (fun r => r.ofTenant n && (match r.phase with
      | .waiting | .held | .rescued _ => true
      | _ => false)))
    (fun s => raiseG gTrstWait (modTen n.val (fun t => { t with rstWait := true }) s)) s
def execTenantResetWait (n : TenantIx) (s : State) : Host.Outcome State Fault Refusal := .next (fxTenantResetWait n s)

/-! ### Bus errors (R66, R122 to R124, R323, R324, R382, R432, R445) -/

/-- An address lies in what a buffer reference reads or writes: in its range, in its scatter list, or in an element read. -/
def Req.bufAt (r : Req) (addr : Nat) : Option Nat :=
  let within (a l : Nat) : Bool := decide (a ≤ addr) && decide (addr < a + l)
  (List.range r.refs.length).find? (fun b =>
    let ref := r.ref b
    (decide (ref.kind = kFlat) && within ref.addr ref.len)
      || (decide (ref.kind = kSgl) && (within ref.addr (16 * ref.nelem) || (r.buf b).elems.any (fun e => within e.1 e.2))))

/-- A FRAME reference that the request reads, or writes. -/
def Req.frameUsed (r : Req) (d : Dir) (b : Nat) : Bool :=
  decide ((r.ref b).kind = kFrame) && (match d with
    | .read => (r.buf b).fence || decide ((r.ref b).fmode ≠ 2)
    | .write => decide ((r.ref b).fmode ≠ 0))

/-- The buffer of an error response: the frame that it names; else the one at its address; else the first frame that the request uses in that
direction. -/
def Req.errBuf (r : Req) (addr : Nat) (d : Dir) (frame : Option (Fin 8)) : Option Nat :=
  ((frame.map Fin.val).filter (fun b => decide (b < r.refs.length))).or
    ((r.bufAt addr).or ((List.range r.refs.length).find? (r.frameUsed d)))

/-- The operation whose output goes to a buffer. -/
def Req.writer (r : Req) (b : Nat) : Nat := ((List.range r.ops.length).find? (fun i => decide ((r.op i).w.dst = b + 8))).getD 0

/-- A frame of the request has gone back to the switch. -/
def frameGone (s : State) (r : Req) : Bool :=
  r.frames.any (fun b => (r.buf b).loaned && !s.fp.loans.any (fun l => decide (l.req = r.id) && decide (l.handle = (r.ref b).handle)))

/-- A write of the request may still end its chain: it runs, or has ended with DONE or DONE_TRUNCATED and none of its frames has gone back. The
outcome that the switch has been told stands (R340, R341). -/
def Req.openTo (r : Req) (s : State) : Bool :=
  decide (r.phase = .running) || (decide (r.phase = .ended) && (r.outcome.map Outcome.good).getD false && !frameGone s r)

/-- What a bus error does to a buffer of a request (R124): a read stops it where it stands; a write ends the chain; a FENCE read-back
fails the fence (R97). -/
def bufBusError (r : Req) (b : Nat) (d : Dir) (s : State) : State :=
  match d with
  | .read =>
    if (r.buf b).fence then
      modBuf r.id b (fun q => { q with fence := false }) (modReq r.id (fun r => { r with fenceFail := r.fenceFail.or (some ⟨0x31, 3, 0⟩) }) s)
    else whenS (decide (r.phase = .running)) (fun s =>
      settle r.id (modBuf r.id b (fun q => { q with
        issued := q.data.length
        asking := false
        stop := some (stBus, if q.asking then 4 else 1) }) s)) s
  | .write => whenS (r.openTo s) (endChain r.id ⟨0x31, 2, r.writer b⟩) s

/-- A bus error of a request in flight, which is recorded whatever its effect (R432). -/
def flightBusError (r : Req) (addr : Nat) (d : Dir) (frame : Option (Fin 8)) (s : State) : State :=
  let noted (port : Nat) (s : State) : State :=
    busErrorOf r.priv addr d port r.srcNumber.1 r.srcNumber.2 (eTag r.entry) (r.gen.toNat % 65536) s
  match r.errBuf addr d frame with
  | some b => bufBusError r b d (noted (if (r.ref b).kind = kFrame then 2 else b2n (portOf addr)) s)
  | none => whenS (decide (r.phase ≠ .admitted)) (noted (b2n (portOf addr))) s

/-- The request that wrote and whose record has left, with its tenant; none for one of the boot ring. -/
def leftOf (s : State) (id : Nat) : Option (Option TenantIx × Left) :=
  match s.boot.left.find? (fun l => decide (l.id = id)) with
  | some l => some (none, l)
  | none => (List.finRange 16).findSome? (fun n => ((s.ten n.val).left.find? (fun l => decide (l.id = id))).map (fun l => (some n, l)))

/-- A bus error of a request whose record has left is recorded, captured and counted (R18, R432). -/
def leftBusError (id addr : Nat) (d : Dir) (frame : Option (Fin 8)) (s : State) : State :=
  match leftOf s id with
  | some (t, l) =>
    busErrorOf t addr d (if frame.isSome then 2 else b2n (portOf addr)) (if t.isSome then kindRequest else kindBoot) l.ring l.tag l.gen s
  | none => s

/-- A bus error of a request (R124, R432). -/
def reqBusError (id addr : Nat) (d : Dir) (frame : Option (Fin 8)) (s : State) : State :=
  match s.req id with
  | some r => flightBusError r addr d frame s
  | none => leftBusError id addr d frame s

/-- Requests in the order of their numbers. -/
def insReq (r : Req) : List Req → List Req
  | [] => [r]
  | q :: t => if r.id < q.id then r :: q :: t else q :: insReq r t

/-- A record is taken back: the tail is where it was before it, and its request is in flight again (R122). -/
def takeBack (n m : Nat) (r : Req) (s : State) : State :=
  let flushed := decide (byteAt r.record 4 = stFlushed)
  let s1 := modReqs (insReq r) (modSent (·.filter (fun q => q.id ≠ r.id)) s)
  let s2 := modCq n m (fun c => { c with tail := (c.tail + 2 ^ (c.k + 1) - 1) % 2 ^ (c.k + 1) }) s1
  modTen n (fun t => { t with led := { t.led with
    completed := if flushed then t.led.completed else t.led.completed - 1
    flushed := if flushed then t.led.flushed - 1 else t.led.flushed
    inflight := t.led.inflight + 1 } }) s2

/-- The record write of a request ended in a bus error (R122): the tail is left at that record, and it and every later record of the ring
go to rescue in their order (DEDUCED, notes/assumptions/22.md). A record that its ring's reader has passed leaves the error that of the
ring alone. -/
def recordBusError (n : TenantIx) (m : RingIx) (id addr : Nat) (s : State) : State :=
  let fault (s : State) : State := cqFault n.val m.val addr 2 0 s
  let late := (s.sent.filter (fun r => r.ofCq n.val m.val)).dropWhile (fun r => decide (r.id ≠ id))
  match late with
  | [] => fault (busErrorOf (some n) addr .write (b2n (portOf addr)) kindRecord m.val 0 (s.gen.active.toNat % 65536) s)
  | r :: _ =>
    let s1 := busErrorOf r.priv addr .write (b2n (portOf addr)) kindRecord m.val (eTag r.entry) (r.gen.toNat % 65536) s
    late.foldl (fun s q => rescue q q.record s) (fault (late.foldr (fun q s => takeBack n.val m.val q s) s1))

/-- A write to the rescue area ended in a bus error (R123): the record stays in its context. -/
def rescueBusError (n : TenantIx) (m : RingIx) (addr : Nat) (s : State) : State :=
  let s1 := busErrorOf none addr .write (b2n (portOf addr)) kindRescue n.val 0 (s.gen.active.toNat % 65536) s
  match (s.cq n.val m.val).rescued.find? (fun p => decide (rescueAddr s n.val p.2 ≤ addr) && decide (addr < rescueAddr s n.val p.2 + 32)
      && ((s.req p.1).map (fun r => decide (r.phase = .rescued p.2))).getD false) with
  | none => s1
  | some p => rescueFaultRecord n.val m.val false addr (modReq p.1 (fun r => { r with phase := .held }) s1)

/-- The read in flight that asked for an address. -/
def Sq.readAt (q : Sq) (addr : Nat) : Option RingRead :=
  q.flight.find? (fun r => r.addrs.any (fun a => decide (a ≤ addr) && decide (addr < a + 32)))

/-- A ring read ended in a bus error (R66), whether or not its slots are still wanted; its capture names the generation that checked it. -/
def ringBusError (n : TenantIx) (m : RingIx) (addr : Nat) (s : State) : State :=
  match (s.sq n.val m.val).readAt addr with
  | none => s
  | some r =>
    let gen := (if r.old then s.gen.previous else s.gen.active).toNat % 65536
    sqFault n.val m.val addr 2 0 r.ahead
      (busErrorOf (some n) addr .read (b2n (portOf addr)) kindRing m.val 0 gen (modSq n.val m.val (fun q => { q with flight := q.flight.erase r }) s))

/-- An error response to an access of a channel (R323, R324): recorded for the tenant that the channel is, or was, assigned to. -/
def chanBusError (k : ChanIx) (addr : Nat) (d : Dir) (pref merged : Bool) (s : State) : State :=
  let noted (n : TenantIx) (s : State) : State :=
    busErrorOf (some n) addr d (b2n (portOf addr)) kindChannel k.val 0 (s.gen.active.toNat % 65536) s
  match assignTen s s.gen.act k, assignTen s s.gen.prev k with
  | some n, _ => if merged then dcMergedFault n.val addr (noted n s) else dcBusError k.val addr d pref (noted n s)
  | none, some n => noted n s
  | none, none => s

/-- An error response to a read of an image, or to a write of the exchange buffer, which has the same source kind (R382, R452). -/
def imageBusError (addr : Nat) (d : Dir) (s : State) : State :=
  let s1 := busErrorOf none addr d (b2n (portOf addr)) kindImage 0 0 (s.gen.active.toNat % 65536) s
  if s.gen.st = .loading ∧ d = .read then modGen (fun g => { g with imgFail := true }) s1 else s1

/-- BUS_ERROR_RESPONSE (R432): each source handles its own error. -/
def fxBusErrorResponse (src : Src) (addr : BitVec 48) (dir : Dir) (s : State) : State :=
  let a := addr.toNat
  let gen := s.gen.active.toNat % 65536
  let priv (kind : Nat) (s : State) : State := busErrorOf none a dir (b2n (portOf a)) kind 0 0 gen s
  match src with
  | .request id frame => reqBusError id a dir frame s
  | .ring n m =>
    ringBusError n m a s
  | .channel k pref merged => chanBusError k a dir pref merged s
  | .record n m _ id => recordBusError n m id a s
  | .rescue n m => rescueBusError n m a s
  | .boot => priv kindBoot s
  | .image => imageBusError a dir s
  | .notice => noticeFault (priv kindNotice s)
def execBusErrorResponse (src : Src) (addr : BitVec 48) (dir : Dir) (s : State) : Host.Outcome State Fault Refusal :=
  .next (fxBusErrorResponse src addr dir s)

end Sys2Proof.Machine
end

