-- ==== Sys2Proof/Machine/Course.lean ====
section
/-!
DEFINITION. Courses (R448 to R468): formation, frames received, sequence blocks and mirrors, forwarding, silence, takeover and
leaving, with the commands COURSE_HELLO to CRS_SNAP and COURSE_LANE_UP. What the spec does not lay out inside a frame is the model's
(notes/assumptions/17.md).
-/

namespace Sys2Proof.Machine

/-! ### Records and roles (R450, R467) -/

/-- A CRS_STATE record with EV_CRS_STATE. -/
def crsState (before after cause : Nat) (s : State) : State :=
  raiseG gCrsState (crsRecord 0x40 [before + 4 * after + 16 * crsPos s + 2 ^ 8 * cause, s.crs.forming] s)

/-- The pairing with a position is at no step. -/
def idlePair (p : Nat) (s : State) : State :=
  dropWork (.pairing p) (modPeer p (fun q => { q with step := .idle, seed := [], got := [], key := [] }) s)

/-- The pairing with a position is abandoned, or stops (R451, R452): PEER_CAUSE, and the pairing is idle. -/
def stopPairing (p cause : Nat) (s : State) : State :=
  idlePair p (modCrs (fun c => { c with peerCause := BitVec.ofNat 3 cause, peerPos := BitVec.ofNat 2 p }) s)

/-- Formation stops at a step without an attestation grant or an identity (R451). -/
def formationStops (p : Nat) (s : State) : State :=
  let noGrant := !bitOf (s.eff .ksAttEn) (crsTen s)
  crsState (crsRole s) (crsRole s) (if noGrant then 4 else 5) (stopPairing p (if noGrant then 3 else 4) s)

def mayAttest (s : State) : Bool := bitOf (s.eff .ksAttEn) (crsTen s) && s.ident.ready && !s.ident.noid

/-! ### Formation (R451 to R453) -/

/-- What HELLO carries: COURSE_ID, POS, role, the block stepping that AH_STAT_ID shows, nonce, EPOCH. -/
def helloBytes (s : State) (nonce : Bytes) : Bytes :=
  toBE 8 (s.eff .ownCourseId).toNat ++ toLE 1 (crsPos s) ++ toLE 1 (crsRole s) ++ toLE 1 blockStep ++ nonce
    ++ toLE 4 s.crs.forming

/-- Step 1 with one position: a HELLO with a nonce from RBG0. -/
def sayHello (p : Nat) (s : State) : State :=
  match generate 32 (genOrder 0) s with
  | (none, s1) => s1
  | (some k, s1) => sendFrame ftHello p (helloBytes s1 k) (modPeer p (fun q => { q with step := .hello, seed := [], got := [], key := [] }) s1)

/-- Formation starts with every other position of the course, once a lane is up and an exchange buffer is set (R451). -/
def startForming (s : State) : State :=
  if crsRole s = roStandalone ∨ s.eff .ownCourseXbuf = 0 ∨ s.crs.laneUp = 0 then s
  else eachN (crsOthers s) sayHello (modCrs (fun c => { c with forming := max 1 c.forming }) s)

/-- CTX of the combiner and the info of K_P (R453). -/
def pairCtx (s : State) (master member : Nat) : Bytes :=
  toBE 8 (s.eff .ownCourseId).toNat ++ toBE 4 s.crs.forming ++ toBE 1 master ++ toBE 1 member ++ zeros 2
def pairKey (s : State) (secret : Bytes) (master member : Nat) : Bytes :=
  hkdf 0x42 32 (toBE 8 (s.eff .ownCourseId).toNat) secret
    (ascii [0x41, 0x48, 0x2D, 0x43, 0x52, 0x53, 0x2D, 0x50] ++ toBE 4 s.crs.forming ++ toBE 1 master ++ toBE 1 member)

/-- A statement over a hybrid output for the other side's nonce, with the draws of both signatures; none without a generator. -/
def courseStatement (p : Nat) (out : Bytes) (s : State) : Option Bytes × State :=
  match generate 512 (genOrder 0) s with
  | (none, s1) => (none, s1)
  | (some kC, s1) =>
    match generate 64 (genOrder 0) s1 with
    | (none, s2) => (none, s2)
    | (some kQ, s2) =>
      (some (attest s2 (crsTen s2) s2.gen.active s2.gen.digAct (s2.peer p).nonce (sha3_256 out) kC kQ), s2)

/-- A step of the pairing with a position is issued as work of the engine, first its hybrid operation (R451, R515); steps 2 and 4 need the
attestation. -/
def issueStep (attests : Bool) (p : Nat) (s : State) : State :=
  if attests && !mayAttest s then formationStops p s
  else if working s (.pairing p) then s
  else issueJob 3 (.pairing p .hybrid) s

/-- Step 2: the master's KEYGEN output and statement. -/
def masterAgree (p : Nat) (s : State) : State :=
  if !mayAttest s then formationStops p s
  else
    match generate 32 (genOrder 0) s with
    | (none, s1) => s1
    | (some k, s1) =>
      let out := hybPub k
      match courseStatement p out s1 with
      | (none, s2) => s2
      | (some st, s2) => sendLong ftAgree p (out ++ st) (modPeer p (fun q => { q with step := .agreed, seed := k }) s2)

/-- Another engine follows a master that it hears, unless it follows one with a lower POS; a TAKEOVER is followed unless the master followed
took over itself (R450, R464). -/
def keepsMaster (p cause : Nat) (s : State) : Bool :=
  s.crs.heard && decide (s.crs.master.toNat < p) && !(s.peer s.crs.master.toNat).silent && (decide (cause = 1) || s.crs.took)

/-- A master that takes MEMBER_ELECT: a pairing with the other that has not formed begins anew under the new role, with a further HELLO
(R450, R451). -/
def demote (p cause : Nat) (s : State) : State :=
  let s1 := crsState roMaster roElect cause
    (modCrs (fun c => { c with role := BitVec.ofNat 2 roElect, master := BitVec.ofNat 2 p, took := decide (cause = 2), grants := [] }) s)
  if (s1.peer p).formed then s1 else sayHello p (idlePair p s1)

/-- The engine hears a master (R450): of two, the lower POS stays. -/
def secondMaster (p cause : Nat) (s : State) : State :=
  if crsRole s = roMaster ∧ p < crsPos s then demote p cause s
  else if crsRole s = roMaster ∨ keepsMaster p cause s = true then s
  else modCrs (fun c => { c with master := BitVec.ofNat 2 p, heard := true, took := decide (cause = 2) }) s

/-- A frame that only a master sends has come from a position (R450): the engine follows that master already, or hears a second one. -/
def hearMaster (p : Nat) (s : State) : State :=
  if (crsRole s ≠ roMaster ∧ s.crs.heard = true ∧ s.crs.master.toNat = p) ∨ p ∉ crsOthers s then s else secondMaster p 1 s

/-- BEAT of a position whose role is MASTER. -/
def hearBeat (p : Nat) (s : State) : State := if (s.peer p).role = roMaster then hearMaster p s else s

/-- A HELLO of another position of this course (R450, R451). A higher EPOCH begins the pairing anew. -/
def hearHello (p : Nat) (b : Bytes) (s : State) : State :=
  if p ∉ crsOthers s ∨ crsRole s = roStandalone ∨ b.length ≠ 47 ∨ beNat (b.take 8) ≠ (s.eff .ownCourseId).toNat ∨ byteAt b 8 ≠ p
      ∨ s.eff .ownCourseXbuf = 0 then s
  else
    let e := leAt b 43 4
    let anew := decide (s.crs.forming < e)
    let s1 := if anew then modCrs (fun c => { c with forming := e, newKey := [] }) s else s
    let s2 := modPeer p (fun q => { q with role := byteAt b 9, nonce := slice b 11 32, silent := false })
      (if anew then idlePair p s1 else s1)
    let s3 := if (s2.peer p).step = .idle then sayHello p s2 else s2
    let s4 := if byteAt b 9 = roMaster then secondMaster p 1 s3 else s3
    if crsIsMaster s4 && decide ((s4.peer p).step = .hello) && decide (byteAt b 9 ≠ roMaster) then issueStep true p s4 else s4

def fxCourseHello (peer : Fin 4) (hello : Hello) (s : State) : State := whenS s.start.serving (hearHello peer.val hello.payload) s
def execCourseHello (peer : Fin 4) (hello : Hello) (s : State) : Host.Outcome State Fault Refusal := .next (fxCourseHello peer hello s)

/-- The exchange buffer's content (R452). -/
def xbufBytes (p : Nat) (content : Bytes) : Bytes :=
  toLE 1 p ++ toLE 1 ftAgree ++ toLE 2 content.length ++ zeros 12 ++ content

/-- A member that has heard no master takes the sender of step 2 for it: an elect that became master (R450, R451). -/
def followAgree (p : Nat) (s : State) : State :=
  if crsIsMaster s then s else modCrs (fun c => { c with master := BitVec.ofNat 2 p, heard := true }) s

/-- Steps 3 and 5 (R451, R452): the peer's output and statement go to the exchange buffer, one pairing at a time, and owner software
is told. -/
def hearAgree (p : Nat) (output stmt : Bytes) (s : State) : State :=
  let due := if crsIsMaster s then PairStep.agreed else PairStep.hello
  let from' := crsIsMaster s || !s.crs.heard || decide (s.crs.master.toNat = p)
  if (s.peer p).step ≠ due ∨ !from' ∨ (crsOthers s).any (fun q => decide ((s.peer q).step = .waiting)) then s
  else
    let a := (s.eff .ownCourseXbuf).toNat
    let b := xbufBytes p (output ++ stmt)
    match check s s.gen.act none .secure .write a b.length with
    | some (fa, cause) => violP fa .write cause kindImage 0 0 (s.gen.active.toNat % 65536) s
    | none => raiseG gCrsPeer (modPeer p (fun q => { q with step := .waiting, got := output }) (followAgree p (emitWr a b s)))

def fxCourseAgreeReceived (peer : Fin 4) (output stmt : Bytes) (s : State) : State := whenS s.start.serving (hearAgree peer.val output stmt) s
def execCourseAgreeReceived (peer : Fin 4) (output stmt : Bytes) (s : State) : Host.Outcome State Fault Refusal :=
  .next (fxCourseAgreeReceived peer output stmt s)

/-- The pairing that waits for a command. -/
def waitingPair (s : State) : Option Nat := (crsOthers s).find? (fun p => decide ((s.peer p).step = .waiting))

/-- A position joins with a group key and an epoch (R451 step 7, R453). -/
def joined (p : Nat) (gkey : Bytes) (epoch : Nat) (s : State) : State :=
  modPeer p (fun q => { q with gkey := gkey, epoch := epoch, cntA := 0, cntB := 0, silent := false }) s

/-- Step 7 on the master: K_G under K_P(m) in a GROUP frame; it waits while a supply warning lasts (R278, R468). -/
def sendGroup (p : Nat) (s : State) : State :=
  if s.sup.active then s
  else
    match generate 12 (genOrder 0) s with
    | (none, s1) => s1
    | (some n, s1) =>
      let key := (s1.peer p).key
      raiseG gCrsFormed (modPeer p (fun q => { q with step := .idle, formed := true, seed := [], got := [] })
        (joined p s1.crs.newKey s1.crs.forming
          (sendFrame ftGroup p (n ++ aeadSeal 0x1D key n [] s1.crs.newKey) s1)))

/-- Step 6 on the master: FINISH, K_P(m), and K_G drawn once for the epoch. -/
def masterFinish (p : Nat) (s : State) : State :=
  let secret := hybFinish (s.peer p).seed (s.peer p).got (pairCtx s (crsPos s) p)
  let s1 := modPeer p (fun q => { q with key := pairKey s secret (crsPos s) p, step := .accepted }) s
  if s1.crs.newKey ≠ [] then sendGroup p s1
  else
    match generate 32 (genOrder 0) s1 with
    | (none, s2) => s2
    | (some k, s2) => sendGroup p (modCrs (fun c => { c with newKey := k }) s2)

/-- Step 4 on the member: RESPOND, K_P(m), and its statement. Without a generator the pairing waits for a command again. -/
def memberRespond (p : Nat) (s : State) : State :=
  let again (s : State) : State := modPeer p (fun q => { q with step := .waiting }) s
  if !mayAttest s then formationStops p s
  else
    match generate 64 (genOrder 0) s with
    | (none, s1) => again s1
    | (some k, s1) =>
      let z := hybRespond k (s1.peer p).got (pairCtx s1 p (crsPos s1))
      match courseStatement p z.1 s1 with
      | (none, s2) => again s2
      | (some st, s2) =>
        sendLong ftAgree p (z.1 ++ st) (modPeer p (fun q => { q with key := pairKey s2 z.2 p (crsPos s2), step := .accepted }) s2)

/-- A CRS_PEER record (R467). -/
def peerRecord (p outcome : Nat) (s : State) : State := crsRecord 0x41 [p + 2 ^ 8 * outcome] s

/-- ACCEPT (R452): the waiting pairing continues with step 4 or step 6. -/
def courseAccept (s : State) : State :=
  match waitingPair s with
  | none => s
  | some p => issueStep (!crsIsMaster s) p (modPeer p (fun q => { q with step := .working }) (peerRecord p 0 s))

/-- The work of a step of a pairing has ended: step 2, 4 or 6 (R451). -/
def stepEnds (p : Nat) (s : State) : State :=
  match (s.peer p).step with
  | .hello => masterAgree p s
  | .working => if crsIsMaster s then masterFinish p s else memberRespond p s
  | _ => s
def fxCourseAccept (who : Who) (s : State) : State := gateW who .ownCourseCmd 1 courseAccept s
def execCourseAccept (who : Who) (s : State) : Host.Outcome State Fault Refusal := .next (fxCourseAccept who s)

/-- REJECT, or no command in time (R452). -/
def abandon (cause : Nat) (s : State) : State :=
  match waitingPair s with
  | none => s
  | some p => peerRecord p cause (raiseG gCrsPeer (stopPairing p cause s))
def fxCourseReject (who : Who) (s : State) : State := gateW who .ownCourseCmd 2 (abandon 1) s
def execCourseReject (who : Who) (s : State) : Host.Outcome State Fault Refusal := .next (fxCourseReject who s)

def fxCoursePairingTimeout (s : State) : State := abandon 2 s
def execCoursePairingTimeout (s : State) : Host.Outcome State Fault Refusal := .next (fxCoursePairingTimeout s)

/-- What was asked for is asked of the master again. -/
def reAsk (s : State) : State := s.crs.asked.foldl (fun s k => askBlock k s) (modCrs (fun c => { c with asked := [] }) s)

/-- Step 7 on the member: K_G is unsealed, and every position shares it (R451, R453). -/
def hearGroup (p : Nat) (b : Bytes) (s : State) : State :=
  let key := (s.peer p).key
  if (s.peer p).step ≠ .accepted ∨ crsIsMaster s ∨ !aeadOpens 0x1D key (b.take 12) [] (b.drop 12) then s
  else
    let g := aeadText 0x1D key (b.take 12) [] (b.drop 12)
    reAsk (raiseG gCrsFormed (modPeer p (fun q => { q with step := .idle, formed := true, got := [] })
      (eachN (crsOthers s) (fun q s => joined q g s.crs.forming s) s)))
def fxCourseGroup (peer : Fin 4) (payload : Bytes) (s : State) : State := hearGroup peer.val payload s
def execCourseGroup (peer : Fin 4) (payload : Bytes) (s : State) : Host.Outcome State Fault Refusal := .next (fxCourseGroup peer payload s)

/-- This engine becomes master (R450, R464). -/
def becomeMaster (s : State) : State :=
  modCrs (fun c => { c with role := BitVec.ofNat 2 roMaster, master := BitVec.ofNat 2 (crsPos s), heard := true, took := false }) s

/-- No elect with a lower POS is known. -/
def lowestElect (s : State) : Bool :=
  decide (crsRole s = roElect) && (crsOthers s).all (fun p => decide (crsPos s < p) || decide ((s.peer p).role ≠ roElect) || (s.peer p).silent)

/-- COURSE_MASTER_TIMEOUT (R450). -/
def fxCourseMasterTimeout (s : State) : State :=
  whenS (s.start.serving && !s.crs.heard && decide (s.crs.laneUp ≠ 0) && lowestElect s) (fun s =>
    eachN (crsOthers s) (fun p s => if (s.peer p).step = .hello ∧ (s.peer p).nonce ≠ [] then issueStep true p s else s) (becomeMaster s)) s
def execCourseMasterTimeout (s : State) : Host.Outcome State Fault Refusal := .next (fxCourseMasterTimeout s)

/-! ### Lanes (R449) -/

def fxCourseLaneDown (lane : Fin 2) (s : State) : State :=
  whenS (s.crs.laneUp.toNat.testBit lane.val) (fun s =>
    raiseG gCrsLane (modCrs (fun c => { c with laneUp := c.laneUp &&& ~~~ BitVec.ofNat 2 (2 ^ lane.val) }) s)) s
def execCourseLaneDown (lane : Fin 2) (s : State) : Host.Outcome State Fault Refusal := .next (fxCourseLaneDown lane s)

/-- COURSE_LANE_UP: a STANDALONE engine's lanes are powered down (R448). The first lane starts the formation. -/
def fxCourseLaneUp (lane : Fin 2) (s : State) : State :=
  whenS (s.start.serving && decide (crsRole s ≠ roStandalone) && !s.crs.laneUp.toNat.testBit lane.val) (fun s =>
    let s1 := modCrs (fun c => { c with laneUp := c.laneUp ||| BitVec.ofNat 2 (2 ^ lane.val) }) s
    if s.crs.laneUp = 0 ∧ formedPeers s = [] then startForming s1 else s1) s
def execCourseLaneUp (lane : Fin 2) (s : State) : Host.Outcome State Fault Refusal := .next (fxCourseLaneUp lane s)

/-- BEAT (R454). -/
def fxBeat (s : State) : State :=
  whenS (decide (crsRole s ≠ roStandalone) && decide (s.crs.laneUp ≠ 0)) (fun s =>
    if crsIsMaster s then sendAll ftBeat [] s
    else if (s.peer s.crs.master.toNat).formed then sendFrame ftBeat s.crs.master.toNat [] s
    else s) s
def execBeat (s : State) : Host.Outcome State Fault Refusal := .next (fxBeat s)

/-! ### Sequence blocks (R456 to R459) -/

/-- A formed position that this engine takes frames from as its master, and as the master takes frames from. -/
def fromMaster (s : State) (p : Nat) : Bool := !crsIsMaster s && decide (crsRole s ≠ roStandalone) && decide (s.crs.master.toNat = p)
def asMaster (s : State) (p : Nat) : Bool := crsIsMaster s && (s.peer p).formed

def bankOfPayload (b : Bytes) : Nat := 2 * leAt b 0 2 + byteAt b 2 % 2

def hearBlockReq (p : Nat) (b : Bytes) (s : State) : State :=
  if asMaster s p && !(s.peer p).silent then beginGrant p (bankOfPayload b) s else s
def fxBlockReq (peer : Fin 4) (payload : Bytes) (s : State) : State := hearBlockReq peer.val payload s
def execBlockReq (peer : Fin 4) (payload : Bytes) (s : State) : Host.Outcome State Fault Refusal := .next (fxBlockReq peer payload s)

def hearBlockGrant (p : Nat) (b : Bytes) (s0 : State) : State :=
  let s := hearMaster p s0
  if fromMaster s p then storeBlock (bankOfPayload b) (leAt b 3 8) (leAt b 11 8) s else s
def fxBlockGrant (peer : Fin 4) (payload : Bytes) (s : State) : State := hearBlockGrant peer.val payload s
def execBlockGrant (peer : Fin 4) (payload : Bytes) (s : State) : Host.Outcome State Fault Refusal := .next (fxBlockGrant peer payload s)

/-- CTR_SYNC on an elect: the mirror, and the acknowledgement (R459). -/
def hearCtrSync (p : Nat) (b : Bytes) (s0 : State) : State :=
  let s := hearMaster p s0
  if fromMaster s p && decide (crsRole s = roElect) then
    sendFrame ftCtrAck p b (modCrs (fun c => { c with mirror := c.mirror.put 0 (bankOfPayload b) (leAt b 3 8) }) s)
  else s
def fxCtrSync (peer : Fin 4) (payload : Bytes) (s : State) : State := hearCtrSync peer.val payload s
def execCtrSync (peer : Fin 4) (payload : Bytes) (s : State) : Host.Outcome State Fault Refusal := .next (fxCtrSync peer payload s)

/-- The first grant of a bank is made, and those that wait behind it begin (R459). -/
def finishGrant (k : Nat) (s : State) : State :=
  match s.crs.grants.filter (fun g => decide (g.2.1 = k)) with
  | [] => s
  | g :: rest =>
    let s1 := modCrs (fun c => { c with grants := c.grants.filter (fun q => decide (q.2.1 ≠ k)) }) s
    rest.foldl (fun s h => beginGrant h.1 k s) (if goneFrom s g.1 then s1 else grantBlock g.1 k s1)

/-- An acknowledgement of a position for the grant of a bank in progress; with the last one the grant is made (R459). -/
def acknowledged (p k : Nat) (s : State) : State :=
  match s.crs.grants.find? (fun g => decide (g.2.1 = k)) with
  | none => s
  | some g =>
    if p ∉ g.2.2 then s
    else
      let left := g.2.2.filter (· ≠ p)
      if left = [] then finishGrant k s
      else modCrs (fun c => { c with grants := c.grants.map (fun q => if q = g then (g.1, k, left) else q) }) s

/-- A position that is gone acknowledges nothing more: the grants go on without it. -/
def withoutAcks (p : Nat) (s0 s : State) : State :=
  (s0.crs.grants.filter (fun g => decide (p ∈ g.2.2))).foldl (fun s g => acknowledged p g.2.1 s) s

def hearCtrAck (p : Nat) (b : Bytes) (s : State) : State := if asMaster s p then acknowledged p (bankOfPayload b) s else s
def fxCtrAck (peer : Fin 4) (payload : Bytes) (s : State) : State := hearCtrAck peer.val payload s
def execCtrAck (peer : Fin 4) (payload : Bytes) (s : State) : Host.Outcome State Fault Refusal := .next (fxCtrAck peer payload s)

/-- SLOT_BANK on a member (R457): the blob goes to the bank that the master names, which is verified. -/
def takeSlotBank (p : Nat) (b : Bytes) (s : State) : State :=
  let x := leAt b 0 2 % 2048
  let bank := decide (byteAt b 2 % 2 = 1)
  if !fromMaster s p || !courseSlot s x || (s.slot x).verify then s
  else
    let blob := b.drop 11
    match blobOpen (wrapKey (s.peer p).gkey (s.peer p).epoch) blob with
    | none => s
    | some m =>
      let fresh : Bank := { material := m, attr := blobAttr blob, soft := BitVec.ofNat 64 (leAt b 3 8) }
      prepareBank x (modSlot x (fun v =>
        let w := if v.cur = bank ∧ v.hasCur then { v with bankA := v.bankB, bankB := v.bankA, cur := !bank } else { v with cur := !bank }
        { w.setIdle fresh with verify := true }) s)

/-- The write of the bank waits while a supply warning lasts (R278). -/
def hearSlotBank (p : Nat) (b : Bytes) (s : State) : State := orDefer (.blob p b) (takeSlotBank p b) (hearMaster p s)
def fxSlotBank (peer : Fin 4) (payload : Bytes) (s : State) : State := hearSlotBank peer.val payload s
def execSlotBank (peer : Fin 4) (payload : Bytes) (s : State) : Host.Outcome State Fault Refusal := .next (fxSlotBank peer payload s)

/-! ### Forwarding (R460 to R463) -/

/-- The bytes that a request reads, and writes. -/
def Req.inBytes (r : Req) : Nat :=
  ((List.range r.refs.length).map (fun b => if isSrc (r.ops.map OpSt.w) b || isAux (r.ops.map OpSt.w) b then (r.ref b).len else 0)).sum
def Req.outBytes (r : Req) : Nat :=
  ((List.range r.ops.length).map (fun i => if 8 ≤ (r.op i).w.dst then (r.outs.getD i none).getD 0 else 0)).sum

/-- A request from a shared ring may be forwarded (R460), unless it was recalled (R462). One that writes a key into a slot stays (notes/assumptions/16.md). -/
def eligible (s : State) (r : Req) : Bool :=
  (match r.origin with
    | .ring m => (s.sq r.tenant.val m.val).fwd
    | _ => false)
    && !r.recalled && decide (r.cls ≠ 0) && !r.refs.any (fun f => decide (f.kind = kFrame)) && !r.ops.any (fun o => isStream o.w)
    && !r.ops.any (fun o => decide (o.w.opc = 0x92 ∨ o.w.opc = 0x93 ∨ o.w.opc = 0x95)) && decide (r.claims = [])
    && r.ops.all (fun o => ((o.key.map (fun k => decide (aMpol k.attr = 0))).getD true))
    && decide (r.inBytes ≤ 65536) && decide (r.outBytes ≤ 65536)

/-- Its input is held and its first operation finds no free healthy tile here (R460). -/
def mustForward (s : State) (r : Req) : Bool :=
  decide (r.phase = .running) && r.fwd.isNone && r.lent && r.ops.all (fun o => decide (o.phase = .waiting))
    && (List.range r.refs.length).all (fun b => !r.mayStart b || r.whole (b + 8))
    && decide (kindOfW (r.op 0).w ≠ 0) && !usableFree s (kindOfW (r.op 0).w) r.cls

/-- The member that takes the next forwarded request: in ascending cyclic order after the last one, with a credit left (R460). -/
def nextMember (s : State) : Option Nat :=
  ((List.range 4).map (fun i => (s.crs.lastFwd + 1 + i) % 4)).find? (fun p =>
    decide (p ∈ formedPeers s) && decide ((s.peer p).epoch = s.crs.forming) && decide ((s.peer p).credits < crsCredits s))

/-- What FWD_REQ says of one operation: its sequence value and its key as a blob under K_W (R461). -/
def fwdOp (wk : Bytes) (nonce : Nat) (o : OpSt) : Bytes :=
  toLE 1 (b2n o.seq.isSome + 2 * b2n o.key.isSome) ++ toLE 8 ((o.seq.map BitVec.toNat).getD 0)
    ++ (match o.key with
      | some k => let b := sealBlob wk k.attr k.material (freeBytes nonce 12); toLE 2 b.length ++ b
      | none => [])

/-- FWD_REQ: number, tenant, ring, master ID, world and whether it runs PAIRED, then entry and operations. -/
def fwdBytes (wk : Bytes) (nonce : Nat) (r : Req) : Bytes :=
  toLE 4 r.id ++ toLE 1 r.tenant.val ++ toLE 1 r.ringNo ++ toLE 1 r.mid.toNat ++ toLE 1 (worldBit r.world + 2 * b2n r.paired) ++ toLE 2 r.entry.length ++ r.entry
    ++ r.ops.flatMap (fwdOp wk nonce)

/-- COURSE_FORWARD. -/
def fxCourseForward (id : Nat) (peer : Fin 4) (s : State) : State :=
  withReq id (fun r s =>
    whenS (tilesOpen s && crsIsMaster s && eligible s r && mustForward s r && decide (nextMember s = some peer.val)) (fun s =>
      let q := s.peer peer.val
      let s1 := nextFree (modReq id (fun r => { r with fwd := some peer }) s)
      let s2 := modPeer peer.val (fun q => { q with owed := q.owed ++ [id] }) (modCrs (fun c => { c with
        lastFwd := peer.val
        cnt := { c.cnt with fwdOut := c.cnt.fwdOut + 1, fwdOpen := c.cnt.fwdOpen + 1 } }) s1)
      let s3 := sendLong ftFwdReq peer.val (fwdBytes (wrapKey q.gkey q.epoch) s.free r) s2
      eachN ((List.range r.refs.length).filter r.mayStart) (fun b s =>
        (List.range (ceilDiv (r.buf b).data.length 1019)).foldl (fun s i =>
          sendFrame ftFwdData peer.val (toLE 4 id ++ toLE 1 b ++ slice (r.buf b).data (1019 * i) 1019) s) s) s3) s) s
def execCourseForward (id : Nat) (peer : Fin 4) (s : State) : Host.Outcome State Fault Refusal := .next (fxCourseForward id peer s)

/-- The operations that a FWD_REQ brings. -/
def fwdOps (wk : Bytes) : List OpWord → Bytes → List OpSt
  | [], _ => []
  | w :: t, b =>
    let f := byteAt b 0
    let rest := b.drop 9
    let n := if f.testBit 1 then leAt rest 0 2 else 0
    let blob := slice rest 2 n
    { w := w
      seq := if f.testBit 0 then some (BitVec.ofNat 64 (leAt b 1 8)) else none
      key := if f.testBit 1 then (blobOpen wk blob).map (fun m => { attr := blobAttr blob, material := m }) else none }
      :: fwdOps wk t (if f.testBit 1 then rest.drop (2 + n) else rest)

/-- The forwarded request on the member: a BULK request of no tenant's ledger whose input the master sends. Its number, its sequencer and its
generation are those of its admission. -/
def foreignReq (s : State) (p : Fin 4) (b : Bytes) : Req :=
  let e := slice b 10 (leAt b 8 2)
  let refs := eRefs e
  { id := 0
    tenant := Fin.ofNat 16 (byteAt b 4)
    origin := .course p (leAt b 0 4) (Fin.ofNat 16 (byteAt b 5))
    mid := BitVec.ofNat 8 (byteAt b 6)
    world := if (byteAt b 7).testBit 0 then .nonsecure else .secure
    place := .course
    paired := (byteAt b 7).testBit 1
    entry := e
    ops := fwdOps (wrapKey (s.peer p.val).gkey (s.peer p.val).epoch) (eOps e) (b.drop (10 + leAt b 8 2))
    refs := refs
    bufs := (List.range refs.length).foldl (fun t i =>
      if (refs.getD i {}).kind = kInline then t else t.put {} i { started := true, issued := (refs.getD i {}).len }) [] }

/-- FWD_REQ on a member (R461, R463): the request waits for its turn among the BULK rings. -/
def hearFwdReq (p : Fin 4) (b : Bytes) (s0 : State) : State :=
  let s := hearMaster p.val s0
  if fromMaster s p.val && decide ((s.peer p.val).credits < crsCredits s) then
    modPeer p.val (fun q => { q with owed := q.owed ++ [leAt b 0 4] }) (modCrs (fun c => { c with
      queue := c.queue ++ [foreignReq s p b]
      cnt := { c.cnt with fwdIn := c.cnt.fwdIn + 1, fwdRun := c.cnt.fwdRun + 1 } }) s)
  else s
def fxFwdReq (peer : Fin 4) (payload : Bytes) (s : State) : State := hearFwdReq peer payload s
def execFwdReq (peer : Fin 4) (payload : Bytes) (s : State) : Host.Outcome State Fault Refusal := .next (fxFwdReq peer payload s)

/-- The request is the one that position p forwarded under a number. -/
def Req.isForeign (r : Req) (p number : Nat) : Bool :=
  match r.origin with
  | .course q n _ => decide (q.val = p) && decide (n = number)
  | _ => false

/-- The request of position p that has been admitted here. -/
def foreignOf (s : State) (p number : Nat) : Option Req := s.reqs.find? (fun r => r.isForeign p number)

/-- Input of one buffer. -/
def takeFwd (b : Bytes) (q : BufSt) : BufSt := { q with data := (q.data ++ b.drop 5).take q.issued }

/-- FWD_DATA on a member: input of a request that has been admitted, or still waits. -/
def hearFwdData (p : Nat) (b : Bytes) (s : State) : State :=
  let i := byteAt b 4 % 8
  match foreignOf s p (leAt b 0 4) with
  | some r => settle r.id (modBuf r.id i (takeFwd b) s)
  | none => modCrs (fun c => { c with queue := c.queue.map (fun r =>
      if r.isForeign p (leAt b 0 4) then { r with bufs := r.bufs.put {} i (takeFwd b (r.buf i)) } else r) }) s

/-- A tile of FWD_RESULT as its index (R112). -/
def tileOfByte (b : Nat) : Nat :=
  if b / 64 = 1 then b % 16 else if b / 64 = 2 then 16 + b % 16 else if b / 64 = 3 then 20 + b % 16 else 0xFF

/-- The operations with the outputs that FWD_RESULT brings, all done. -/
def resultOps : List OpSt → Bytes → List OpSt
  | [], _ => []
  | o :: t, b =>
    if 8 ≤ o.w.dst then { o with phase := .done, output := slice b 3 (leAt b 0 3) } :: resultOps t (b.drop (3 + leAt b 0 3))
    else { o with phase := .done } :: resultOps t b

/-- FWD_RESULT on the master (R461, R462): output and record, or nothing after a recall. -/
def hearFwdResult (p : Fin 4) (b : Bytes) (s : State) : State :=
  let id := leAt b 0 4
  withReq id (fun r s => whenS (decide (r.fwd = some p)) (fun s =>
    let last := byteAt b 6
    let s1 := modCrs (fun c => { c with cnt := { c.cnt with fwdBack := c.cnt.fwdBack + 1, fwdOpen := c.cnt.fwdOpen - 1 } })
      (modReq id (fun r => { r with
        fwd := none
        zeroized := r.zeroized || (byteAt b 8).testBit 0
        voted := r.voted || (byteAt b 8).testBit 1 }) s)
    let prog (s : State) : State := modOp id last (fun o => { o with
      lastTile := tileOfByte (byteAt b 7)
      consumed := leAt b 9 3
      produced := some (leAt b 12 3)
      trunc := o.trunc || decide (byteAt b 4 = 1) }) s
    if byteAt b 4 ≤ 1 then settle id (prog (modReq id (fun r => { r with ops := resultOps r.ops (b.drop 15) }) s1))
    else endChain id ⟨BitVec.ofNat 8 (byteAt b 4), BitVec.ofNat 8 (byteAt b 5), last⟩ (prog s1)) s) s
def fxFwdResult (peer : Fin 4) (payload : Bytes) (s : State) : State := hearFwdResult peer payload s
def execFwdResult (peer : Fin 4) (payload : Bytes) (s : State) : Host.Outcome State Fault Refusal := .next (fxFwdResult peer payload s)

/-- A request counts as dropped on the member (R463). -/
def countDrop (s : State) : State :=
  modCrs (fun c => { c with cnt := { c.cnt with fwdDrop := c.cnt.fwdDrop + 1, fwdRun := c.cnt.fwdRun - 1 } }) s

/-- A forwarded request is dropped on the member: its tiles, keys and state go (R462, R463). -/
def dropForeign (r : Req) (s : State) : State := countDrop (retireReq r.id (freeTiles r.id s))

/-- One that has not been admitted leaves the queue. -/
def dropQueued (p number : Nat) (s : State) : State :=
  countDrop (modCrs (fun c => { c with queue := c.queue.filter (fun r => !r.isForeign p number) }) s)

def hearFwdCancel (p : Nat) (b : Bytes) (s : State) : State :=
  let n := leAt b 0 4
  match foreignOf s p n with
  | some r => giveCredit p n (dropForeign r s)
  | none => if s.crs.queue.any (fun r => r.isForeign p n) then giveCredit p n (dropQueued p n s) else s
def fxFwdCancel (peer : Fin 4) (payload : Bytes) (s : State) : State := hearFwdCancel peer.val payload s
def execFwdCancel (peer : Fin 4) (payload : Bytes) (s : State) : Host.Outcome State Fault Refusal := .next (fxFwdCancel peer payload s)

/-- The numbers that a CREDIT names. -/
def creditNumbers (b : Bytes) : List Nat := (List.range (b.length / 4)).map (fun i => leAt b (4 * i) 4)

/-- CREDIT on the master (R463): the credits of the requests that it names come back, of those that are still out. -/
def hearCredit (p : Nat) (b : Bytes) (s : State) : State :=
  if asMaster s p then modPeer p (fun q => { q with owed := q.owed.filter (fun n => decide (n ∉ creditNumbers b)) }) s else s
def fxCredit (peer : Fin 4) (payload : Bytes) (s : State) : State := hearCredit peer.val payload s
def execCredit (peer : Fin 4) (payload : Bytes) (s : State) : Host.Outcome State Fault Refusal := .next (fxCredit peer payload s)

/-! ### Losing an engine (R464, R465) -/

/-- The requests that this engine forwarded to a position, and those that the position forwarded here. -/
def sentTo (s : State) (p : Nat) : List Req := s.reqs.filter (fun r => (r.fwd.map (fun q => decide (q.val = p))).getD false)
def sentFrom (s : State) (p : Nat) : List Req := s.reqs.filter (fun r => match r.origin with
  | .course q _ _ => decide (q.val = p)
  | _ => false)

/-- A recalled request runs here again. -/
def runHere (id : Nat) (s : State) : State := settle id (modReq id (fun r => { r with recalled := true }) (unforward id s))

/-- Every request forwarded to a position is recalled; its credits are taken back (R462, R463). -/
def recallAll (p : Nat) (s : State) : State :=
  modPeer p (fun q => { q with owed := [] }) ((sentTo s p).foldl (fun s r => runHere r.id s) s)

/-- The requests of a position that wait for their admission here. -/
def queuedFrom (s : State) (p : Nat) : List Req := s.crs.queue.filter (fun r => match r.origin with
  | .course q _ _ => decide (q.val = p)
  | _ => false)

/-- A request that waits is dropped. -/
def dropWaiting (p : Nat) (r : Req) (s : State) : State :=
  match r.origin with
  | .course _ n _ => dropQueued p n s
  | _ => s

/-- Every request that a position forwarded here is dropped. -/
def dropAll (p : Nat) (s : State) : State :=
  modPeer p (fun q => { q with owed := [] }) ((queuedFrom s p).foldl (fun s r => dropWaiting p r s)
    ((sentFrom s p).foldl (fun s r => dropForeign r s) s))

/-- COURSE_PEER_SILENT (R464). -/
def fxCoursePeerSilent (peer : Fin 4) (s : State) : State :=
  let p := peer.val
  whenS ((s.peer p).formed && !(s.peer p).silent) (fun s =>
    let n := (sentTo s p).length + (sentFrom s p).length + (queuedFrom s p).length
    let s1 := modPeer p (fun q => { q with silent := true }) (dropAll p (recallAll p s))
    raiseG gCrsSilent (crsRecord 0x42 [p, n] (withoutAcks p s s1))) s
def execCoursePeerSilent (peer : Fin 4) (s : State) : Host.Outcome State Fault Refusal := .next (fxCoursePeerSilent peer s)

/-- The course counters of this engine's banks resume from the mirror (R464). -/
def resumeCounters (s : State) : State :=
  s.crs.mirror.foldl (fun s m =>
    let upd (b : Bank) : Bank := b.setNext (BitVec.ofNat 64 m.2)
    modSlot (m.1 / 2) (fun v => if m.1 % 2 = 1 then { v with bankB := upd v.bankB } else { v with bankA := upd v.bankA }) s) s

/-- This engine takes over (R464). -/
def takeOver (s : State) : State :=
  let s1 := modCrs (fun c => { c with newKey := (s.peer s.crs.master.toNat).gkey }) (becomeMaster (resumeCounters s))
  let rest := (crsOthers s1).filter (fun p => !(s1.peer p).silent && decide ((s1.peer p).gkey ≠ []))
  let s2 := eachN rest (fun p s => modPeer p (fun q => { q with formed := true }) s) s1
  reAsk (raiseG gCrsTakeover (crsRecord 0x43 [crsPos s, (s.peer s.crs.master.toNat).epoch] (eachN rest (fun p s => sendFrame ftTakeover p [] s) s2)))

/-- TAKEOVER heard: a further master (R450, R464); the blocks stay, and what was asked for is asked of the new master. -/
def hearTakeover (p : Nat) (s : State) : State :=
  let s1 := secondMaster p 2 s
  if fromMaster s1 p then reAsk (modPeer p (fun q => { q with formed := true, silent := false, role := roMaster }) s1) else s1

/-- TAKEOVER: by this engine, a MEMBER_ELECT whose master is silent, where the position is its own; else heard from another. -/
def fxTakeover (peer : Fin 4) (_payload : Bytes) (s : State) : State :=
  if peer.val = crsPos s then
    whenS (decide (crsRole s = roElect) && (s.peer s.crs.master.toNat).formed && (s.peer s.crs.master.toNat).silent) takeOver s
  else whenS (decide (crsRole s ≠ roStandalone) && decide (peer.val ∈ crsOthers s) && decide ((s.peer peer.val).gkey ≠ [])) (hearTakeover peer.val) s
def execTakeover (peer : Fin 4) (payload : Bytes) (s : State) : Host.Outcome State Fault Refusal := .next (fxTakeover peer payload s)

/-- The engine leaves its course (R465): LEAVE, forwarded work as with a silent peer, blocks, keys and lanes. -/
def leaveCourse (cause : Nat) (tell : Bool) (s : State) : State :=
  if crsRole s = roStandalone then s
  else
    let s1 := if tell then sendAll ftLeave [] s else s
    let s2 := eachN (crsOthers s) (fun p s => dropWork (.pairing p) (dropAll p (recallAll p s))) s1
    let s3 := crsState (crsRole s) roStandalone cause s2
    modCrs (fun c => { c with
      role := 0
      master := 0
      heard := false
      took := false
      laneUp := 0
      forming := 0
      newKey := []
      sendCnt := []
      peers := []
      blocks := []
      mirror := []
      asked := []
      grants := []
      queue := []
      credit := 0 }) s3

def fxCourseLeave (who : Who) (s : State) : State := gateW who .ownCourseCmd 4 (leaveCourse 3 true) s
def execCourseLeave (who : Who) (s : State) : Host.Outcome State Fault Refusal := .next (fxCourseLeave who s)

/-- The role that the effective configuration sets is taken (R448, R450). -/
def enterCourse (s : State) : State :=
  let r := crsRoleSet s
  modCrs (fun c => { c with role := BitVec.ofNat 2 r, heard := decide (r = roMaster), master := BitVec.ofNat 2 (if r = roMaster then crsPos s else 0), asked := [] }) s

/-- LEAVE heard: of the master it dissolves the course; of another, that position is gone. -/
def hearLeave (p : Nat) (s : State) : State :=
  if fromMaster s p then leaveCourse 3 false s
  else withoutAcks p s (modPeer p (fun _ => {}) (dropWork (.pairing p) (dropAll p (recallAll p s))))

/-- REFORM (R464), ignored on an engine that is not master (R488): formation again with the next epoch; requests in flight finish under the old one (R468). -/
def courseReform (s : State) : State :=
  if !crsIsMaster s then s
  else
    startForming (crsState (crsRole s) (crsRole s) 6 (eachN (crsOthers s) (fun p s => dropWork (.pairing p) (modPeer p (fun q => { q with step := .idle }) s))
      (modCrs (fun c => { c with forming := c.forming + 1, newKey := [] }) s)))
def fxCourseReform (who : Who) (s : State) : State := gateW who .ownCourseCmd 3 courseReform s
def execCourseReform (who : Who) (s : State) : Host.Outcome State Fault Refusal := .next (fxCourseReform who s)

/-- CRS_SNAP (R463). -/
def crsSnap (s : State) : State := modCrs (fun c => { c with snap := c.cnt }) s
def fxCrsSnap (who : Who) (s : State) : State := gateW who .crsCtl 1 crsSnap s
def execCrsSnap (who : Who) (s : State) : Host.Outcome State Fault Refusal := .next (fxCrsSnap who s)

/-! ### Frames received (R449, R454) -/

/-- Content in fragments: complete with the first that is shorter than 1024 bytes. -/
def reassemble (p type : Nat) (b : Bytes) (done : Bytes → State → State) (s : State) : State :=
  let sofar := (s.peer p).rx.look [] type ++ b
  if b.length = 1024 then modPeer p (fun q => { q with rx := q.rx.put [] type sofar }) s
  else done sofar (modPeer p (fun q => { q with rx := q.rx.put [] type [] }) s)

/-- The effect of an accepted frame. -/
def takeFrame (p : Fin 4) (type : Nat) (b : Bytes) (s : State) : State :=
  if type = ftHello then hearHello p.val b s
  else if type = ftAgree then
    reassemble p.val type b (fun c => let n := if crsIsMaster s then 1120 else 1216; hearAgree p.val (c.take n) (c.drop n)) s
  else if type = ftGroup then hearGroup p.val b s
  else if type = ftBeat then hearBeat p.val s
  else if type = ftFwdReq then reassemble p.val type b (hearFwdReq p) s
  else if type = ftFwdData then hearFwdData p.val b s
  else if type = ftFwdResult then reassemble p.val type b (hearFwdResult p) s
  else if type = ftFwdCancel then hearFwdCancel p.val b s
  else if type = ftCredit then hearCredit p.val b s
  else if type = ftBlockReq then hearBlockReq p.val b s
  else if type = ftBlockGrant then hearBlockGrant p.val b s
  else if type = ftCtrSync then hearCtrSync p.val b s
  else if type = ftCtrAck then hearCtrAck p.val b s
  else if type = ftSlotBank then reassemble p.val type b (hearSlotBank p.val) s
  else if type = ftTakeover then hearTakeover p.val s
  else if type = ftLeave then hearLeave p.val s
  else s

/-- A frame is dropped as bad (R454): kind 0 tag failure, 1 counter failure. -/
def badFrame (p lane type kind cnt : Nat) (s : State) : State :=
  raiseG gCrsFrameBad (crsRecord 0x44 [p + 4 * lane + 2 ^ 8 * type + 2 ^ 16 * kind, cnt % 2 ^ 32] (modCrs (fun c => { c with bad := c.bad.bump }) s))

/-- COURSE_FRAME_RECEIVE: a frame for another position passes on, unopened; one for this position is checked and taken. -/
def fxCourseFrameReceive (lane : Fin 2) (frame : Bytes) (s : State) : State :=
  let dst := byteAt frame 0 % 4
  let p : Fin 4 := Fin.ofNat 4 (byteAt frame 0 / 4)
  let bit := byteAt frame 0 / 16 % 2
  let type := byteAt frame 1
  let len := leAt frame 2 2
  let epoch := leAt frame 4 4
  let cnt := leAt frame 8 8
  let q := s.peer p.val
  let body := frame.drop 16
  let key := frameKey q.gkey epoch p.val
  let nonce := frameNonce p.val bit cnt
  let last := if bit = 0 then q.cntA else q.cntB
  whenS (s.start.serving && decide (crsRole s ≠ roStandalone) && s.crs.laneUp.toNat.testBit lane.val) (fun s =>
    if dst ≠ crsPos s then emit (.frame lane.val frame) s
    else if frame.length ≠ 32 + len ∨ 1024 < len ∨ p.val ∉ crsOthers s then s
    else if clearType type then takeFrame p type (body.take len) s
    else if q.gkey = [] ∨ epoch ≠ q.epoch ∨ !aeadOpens 0x19 key nonce (frame.take 16) body then badFrame p.val bit type 0 cnt s
    else if cnt ≤ last then badFrame p.val bit type 1 cnt s
    else
      let s1 := modPeer p.val (fun q => { q with
          silent := false
          cntA := if bit = 0 then cnt else q.cntA
          cntB := if bit = 0 then q.cntB else cnt }) s
      takeFrame p type (aeadText 0x19 key nonce (frame.take 16) body) (if q.silent && fromMaster s p.val then reAsk s1 else s1)) s
def execCourseFrameReceive (lane : Fin 2) (frame : Bytes) (s : State) : Host.Outcome State Fault Refusal :=
  .next (fxCourseFrameReceive lane frame s)

end Sys2Proof.Machine
end

