-- ==== Sys2Proof/Machine/Generations.lean ====
section
/-!
DEFINITION. Configuration generations (R40, R41, R272, R303, R360, R378 to R391, R448, R486): staging, images, commit, rollback, with
the commands GEN_LOAD, GEN_LOAD_DONE, GEN_COMMIT, GEN_TAKE_EFFECT, GEN_CANCEL, GEN_ROLLBACK, GEN_DISCARD and GEN_SLOW.
-/

namespace Sys2Proof.Machine

/-! ### Content and digest (R378, R390) -/

/-- Every 64-bit word of every staged register, in ascending offset. -/
def stagedRegs : List Reg :=
  [.ownTenEn, .ownRescueBase, .ownSched] ++ (List.finRange 2).map .ownCourse ++ [.ownCourseId, .ownCourseXbuf]
    ++ (List.finRange 16).map .ownBind ++ (List.finRange 16).map .ownQuota ++ (List.finRange 16).map .ownWdog
    ++ (List.finRange 16).flatMap (fun n => (List.finRange 2).map (.ownFp n)) ++ (List.finRange 64).map .ownAssign
    ++ (List.finRange 16).flatMap (fun n => (List.finRange 16).map (.ownSbud n))
    ++ [.ksKilnEn, .ksAttEn] ++ (List.finRange 16).map .ksKcp
    ++ (List.finRange 16).flatMap (fun n => (List.finRange 16).flatMap (fun m => [.accRegAddr n m, .accRegAttr n m]))
    ++ (List.finRange 32).flatMap (fun j => [.accGlbAddr j, .accGlbAttr j]) ++ [.accDefmap]

/-- The body of the canonical image: a record for each word, then the patch sections. -/
def canonicalBody (s : State) (c : Content) : Bytes :=
  stagedRegs.flatMap (fun r => toLE 4 r.off ++ zeros 4 ++ toLE 8 (s.shown c r).toNat) ++ c.csPatch.getD [] ++ c.pkPatch.getD []

def contentDigest (s : State) (c : Content) : Bytes := sha384 (canonicalBody s c)

/-! ### Fitting the budgets (R360) -/

/-- CAP of a number of reserved tiles. -/
def capOf (resv : Nat) : Nat := 295 * resv + 350

/-- One entry fitted: what is left of REQS and CYCLES, the content so far, and whether any value was clamped. -/
def fitOne (s : State) (acc : Nat × Nat × Content × Bool) (nm : TenantIx × RingIx) : Nat × Nat × Content × Bool :=
  let c := acc.2.2.1
  let w := s.word c (.ownSbud nm.1 nm.2)
  let counts := enabledIn s c nm.1.val && classAllowedIn s c nm.1 0
  let r := if counts then min (fld w 4 0) acc.1 else 0
  let y := if counts then min (fld w 31 16) acc.2.1 else 0
  let w' := setFld (setFld w 4 0 r) 31 16 y
  (acc.1 - r, acc.2.1 - y, s.setWord c (.ownSbud nm.1 nm.2) w', acc.2.2.2 || decide (w' ≠ w))

def fitBudgets (s : State) (c : Content) : Content × Bool :=
  let all := (List.finRange 16).flatMap (fun n => (List.finRange 16).map (fun m => (n, m)))
  let f := all.foldl (fitOne s) (16, capOf (fld (s.word c .ownSched) 2 0), c, false)
  (f.2.2.1, f.2.2.2)

/-! ### Images (R381, R382) -/

def genErr (e : Nat) (s : State) : State := modGen (fun g => { g with err := BitVec.ofNat 4 e }) s

/-- A command written while STATE is not IDLE (R382, R486). -/
def whenIdle (f : State → State) (s : State) : State := if s.gen.st = .idle then f s else genErr 1 s

def imgLen (s : State) : Nat := fld s.own.imgLen 18 0

/-- LOAD: the reads of the image, up to the first piece that fails the check. -/
def genLoad (s : State) : State :=
  let a := s.own.imgBase.toNat
  let s1 := modGen (fun g => { g with st := .loading, imgFail := false }) s
  match check s s.gen.act none .secure .read a (imgLen s) with
  | none => emitRd a (imgLen s) s1
  | some (fa, cause) =>
    violP fa .read cause kindImage 0 0 (s.gen.active.toNat % 65536) (modGen (fun g => { g with imgFail := true })
      (((pieces a (imgLen s)).filter (fun p => decide (p.1 + p.2 ≤ fa))).foldl (fun s p => emitRd p.1 p.2 s) s1))
def fxGenLoad (who : Who) (s : State) : State := gateW who .ownGenCmd 1 (whenIdle genLoad) s
def execGenLoad (who : Who) (s : State) : Host.Outcome State Fault Refusal := .next (fxGenLoad who s)

/-- A register record: offset word, reserved word, value. -/
structure ImgRec where
  off   : Nat
  rsvd  : Nat
  value : Nat
  deriving DecidableEq, Repr

def imgRecs (b : Bytes) (n : Nat) : List ImgRec :=
  (List.range n).map (fun i => ⟨leAt b (0x40 + 16 * i) 4, leAt b (0x44 + 16 * i) 4, leAt b (0x48 + 16 * i) 8⟩)

/-- The patch sections that follow one another in `b`. -/
def imgPatches : Nat → Bytes → List Bytes
  | 0, _ => []
  | n + 1, b => b.take (16 + leAt b 4 4 + 3405) :: imgPatches n (b.drop (16 + leAt b 4 4 + 3405))

def imgNrec (b : Bytes) : Nat := leAt b 0xC 4
def imgSections (b : Bytes) : List Bytes := imgPatches (byteAt b 6) (b.drop (0x40 + 16 * imgNrec b))

/-- Check 2: magic, version, reserved fields, ranges and lengths. -/
def imgFormat (len : Nat) (b : Bytes) : Bool :=
  decide (leAt b 0 4 = 0x58504D4F) && decide (byteAt b 4 = 1) && decide (byteAt b 5 ≤ 1) && decide (byteAt b 6 ≤ 2) && decide (byteAt b 7 = 0)
    && decide (leAt b 8 4 = len) && decide (64 ≤ len ∧ len ≤ 262144) && decide (imgNrec b ≤ 16380)
    && (imgRecs b (min 16380 (imgNrec b))).all (fun r => decide (r.off < 2 ^ 22) && decide (r.rsvd = 0))
    && (imgSections b).all (fun p => decide (byteAt p 0 = 1 ∨ byteAt p 0 = 2) && decide (leAt p 1 3 = 0) && decide (leAt p 0xC 4 = 0)
      && decide (16 ≤ leAt p 4 4 ∧ leAt p 4 4 ≤ 16384 ∧ leAt p 4 4 % 16 = 0))
    && decide (len = 64 + 16 * imgNrec b + ((imgSections b).map (fun p => 16 + leAt p 4 4 + 3405)).sum)

/-- Numbers strictly ascend. -/
def ascends : List Nat → Bool
  | a :: b :: t => decide (a < b) && ascends (b :: t)
  | _ => true

/-- The staged register at an image's offset, whose value fits it: no field lies above bit 31, or the high word is free (R381). -/
def imgReg (r : ImgRec) : Option Reg :=
  match (if r.off % 8 = 0 then regAt r.off else none) with
  | some g => if g.staged && (g.fields.any (fun f => decide (31 < f.msb)) || decide (r.value < 2 ^ 32)) then some g else none
  | none => none

def romVer : Nat := 0x0B000003

/-- One signature of a section, over the bytes before both: the ECDSA one, or the second, the ML-DSA one. -/
def sectSigned (p : Bytes) (second : Bool) : Bool :=
  let m := p.take (16 + leAt p 4 4)
  let sig := p.drop (16 + leAt p 4 4)
  if second then Config.pkOk (0x75, 0) (bytesOf 1952 (Config.patchKeyByte 1)) (ascii [0x17, 0x12, 0x00, 0x00]) m (sig.drop 96)
  else Config.pkOk (0x61, 0) (bytesOf 97 (Config.patchKeyByte 0)) (ascii [0x10, 0x02, 0x42, 0x00]) m (sig.take 96)

/-- Check 6: both signatures of a section. -/
def patchSigned (p : Bytes) : Bool := sectSigned p false && sectSigned p true

/-- Check 6: every section verifies. -/
def imgSigned (b : Bytes) : Bool := (imgSections b).all patchSigned

/-- The first failing check of an image before the signatures, as the code of ERR (R382); NONE where all pass. -/
def imgCheck (s : State) (b : Bytes) : Nat :=
  if s.gen.imgFail then 8
  else if !imgFormat (imgLen s) b then 3
  else if sha384 (b.drop 0x40) ≠ slice b 0x10 48 then 4
  else if (imgRecs b (imgNrec b)).any (fun r => (imgReg r).isNone) || !ascends ((imgRecs b (imgNrec b)).map ImgRec.off) then 5
  else if !ascends ((imgSections b).map (fun p => byteAt p 0)) || (imgSections b).any (fun p => decide (leAt p 8 4 ≠ romVer)) then 7
  else 0

/-- One record written to a content as an owner write. -/
def imgWrite (s : State) (c : Content) (r : ImgRec) : Content :=
  match imgReg r with
  | some g => s.setWord c g (g.write (s.word c g) (BitVec.allOnes 64) (BitVec.ofNat 64 r.value))
  | none => c

/-- The shadows after a load: from nothing where FULL is 1, else from what they hold. -/
def imgApply (s : State) (b : Bytes) : Content :=
  let c := (imgRecs b (imgNrec b)).foldl (imgWrite s) (if byteAt b 5 = 1 then {} else s.gen.shadow)
  let sect (t : Nat) := (imgSections b).find? (fun p => decide (byteAt p 0 = t))
  { c with csPatch := (sect 1).or c.csPatch, pkPatch := (sect 2).or c.pkPatch }

/-- The load ends with a code of ERR: the shadows take the image, or EV_GEN_FAIL. -/
def endLoad (e : Nat) (b : Bytes) (s : State) : State :=
  let s1 := modGen (fun g => { g with st := .idle, image := [], imgFail := false, err := BitVec.ofNat 4 e }) s
  if e = 0 then modGen (fun g => { g with shadow := imgApply s b }) s1 else raiseG gGenFail s1

/-- The signature checks of an image's patch sections are work of the engine on public-key tiles, two for each section (R382, R515). -/
def checkSections (b : Bytes) (s : State) : State :=
  eachN (List.range (imgSections b).length) (fun i s => issueJob 3 (.patch i true) (issueJob 3 (.patch i false) s)) s

/-- GEN_LOAD_DONE: the image has been read. -/
def fxGenLoadDone (image : Bytes) (s : State) : State :=
  whenS (decide (s.gen.st = .loading) && !working s .patches) (fun s =>
    let b := fit (imgLen s) image
    let e := imgCheck s b
    if e = 0 ∧ imgSections b ≠ [] then checkSections b (modGen (fun g => { g with image := b }) s)
    else endLoad e b s) s
def execGenLoadDone (image : Bytes) (s : State) : Host.Outcome State Fault Refusal := .next (fxGenLoadDone image s)

/-! ### Commit and fence (R383 to R386) -/

/-- The channels whose assignment a content changes, and the tenants that it disables or enables. -/
def changedChans (s : State) (c : Content) : List Nat :=
  (List.range 64).filter (fun k => decide (s.word c (.ownAssign (Fin.ofNat 64 k)) ≠ s.eff (.ownAssign (Fin.ofNat 64 k))))
def disabledBy (s : State) (c : Content) : List TenantIx := (List.finRange 16).filter (fun n => s.enabled n.val && !enabledIn s c n.val)
def enabledBy (s : State) (c : Content) : List TenantIx := (List.finRange 16).filter (fun n => !s.enabled n.val && enabledIn s c n.val)

/-- R303 for every channel that a content takes away, with its record. -/
def stopChans (c : Content) (s : State) : State :=
  let changed := changedChans s c
  let off := (List.range 64).filter (fun k => match assignTen s s.gen.act (Fin.ofNat 64 k) with
    | some n => decide (n ∈ disabledBy s c) && decide (k ∉ changed)
    | none => false)
  eachN off (dcReassign · 0x02) (eachN changed (dcReassign · 0x80) s)

/-- Steps 1 to 3 of R383; a rollback's digest is known, any other is taken on a digest tile (R390, R515). -/
def startFence (c : Content) (clamped rollback : Bool) (s : State) : State :=
  let off := disabledBy s c
  let s1 := modGen (fun g => { g with
    st := .fence
    pend := c
    clamped := clamped
    rollback := rollback
    disabling := off
    digPend := if rollback then g.digPrev else contentDigest s c }) s
  off.foldl (fun s n => resetTenant 2 n s) (stopChans c (if rollback then s1 else issueJob 2 .generation s1))

def genCommit (s : State) : State :=
  let f := fitBudgets s s.gen.shadow
  startFence f.1 f.2 false s
def fxGenCommit (who : Who) (s : State) : State := gateW who .ownGenCmd 2 (whenIdle genCommit) s
def execGenCommit (who : Who) (s : State) : Host.Outcome State Fault Refusal := .next (fxGenCommit who s)

def genRollback (s : State) : State :=
  if s.gen.previous = 0 then genErr 2 s else startFence s.gen.prev false true s
def fxGenRollback (who : Who) (s : State) : State := gateW who .ownGenCmd 4 (whenIdle genRollback) s
def execGenRollback (who : Who) (s : State) : Host.Outcome State Fault Refusal := .next (fxGenRollback who s)

/-- CANCEL: outside a fence there is nothing to cancel (R387). -/
def genCancel (s : State) : State :=
  if s.gen.st = .fence then
    dropWork .generation (modGen (fun g => { g with st := .idle, err := 9, pend := {}, digPend := [], disabling := [] }) s)
  else s
def fxGenCancel (who : Who) (s : State) : State := gateW who .ownGenCmd 3 genCancel s
def execGenCancel (who : Who) (s : State) : Host.Outcome State Fault Refusal := .next (fxGenCancel who s)

def genDiscard (s : State) : State := modGen (fun g => { g with shadow := g.act, err := 0 }) s
def fxGenDiscard (who : Who) (s : State) : State := gateW who .ownGenCmd 5 (whenIdle genDiscard) s
def execGenDiscard (who : Who) (s : State) : Host.Outcome State Fault Refusal := .next (fxGenDiscard who s)

/-- AH_OWN_GEN_STAT.PINNED: the requests of the previous generation's drain in flight (R383). -/
def pinned (s : State) : Nat := (s.reqs.filter Req.rulesPrev).length

/-- An access of a channel that the previous generation's rules judged is in flight. -/
def Chan.pins (c : Chan) : Bool := (c.fetching && c.fetchPrev) || (c.unitPrev && c.backs) || c.strays.any (·.prev)

/-- The drain of the previous generation is empty. -/
def drained (s : State) : Bool :=
  decide (pinned s = 0) && s.dcs.all (fun p => !p.2.pins) && s.sqs.all (fun p => p.2.flight.all (fun r => !r.old))

/-- The wait of the fence has ended (R383, R388, R391): the accesses of the channels that it stopped have left. -/
def fenceOver (s : State) : Bool :=
  decide (s.gen.st = .fence) && !s.sup.active && s.dcs.all (fun p => p.2.strays.all (fun x => !x.taken))
    && s.gen.disabling.all (fun n => !(s.ten n.val).inReset && !s.reqs.any (fun r => r.ofTenant n))
    && (s.gen.rollback || (drained s && !working s .generation))

/-- The number after ACTIVE. -/
def nextGen (g : BitVec 32) : BitVec 32 := if g = 0xFFFFFFFF then 1 else g + 1

/-- What was judged by the active generation is now judged by the previous one; after a rollback the two change places. A channel whose
generation has been discarded goes on under the previous one. -/
def turnRules (rollback : Bool) (s : State) : State :=
  let old (b : Bool) : Bool := if rollback then !b else true
  let s1 := modReqs (·.map (fun r => { r with rulesPrev := old r.rulesPrev })) s
  let s2 := eachN (s.dcs.map Prod.fst) (fun k => modDc k (fun c => { c with
    unitPrev := if c.heldTag = 0 then c.unitPrev else old c.unitPrev
    heldTag := if c.heldTag ≠ 0 ∧ c.unitPrev ∧ !rollback then s.gen.previous else c.heldTag
    fetchPrev := if c.fetching then old c.fetchPrev else c.fetchPrev
    strays := c.strays.map (fun x => { x with prev := old x.prev }) })) s1
  eachN (s.sqs.map Prod.fst) (fun i => modSq (i / 16) (i % 16) (fun q =>
    { q with flight := q.flight.map (fun r => { r with old := old r.old }) })) s2

/-- Every field of a tenant at its reset value (R41). -/
def freshTenant (n : TenantIx) (s : State) : State :=
  modTen n.val (fun t => { left := t.left }) (eachN (List.range 16) (fun m s => modCq n.val m (fun _ => {}) (modSq n.val m Sq.fresh s)) s)

/-- Credits become the lesser of what is left and the new values (R360). -/
def lowerCredits (s : State) : State :=
  eachN (s.sqs.map Prod.fst) (fun i s =>
    let w := s.eff (.ownSbud (Fin.ofNat 16 (i / 16)) (Fin.ofNat 16 i))
    modSq (i / 16) (i % 16) (fun q => { q with rcred := min q.rcred (fld w 4 0), ccred := min q.ccred (fld w 31 16) }) s) s

/-- A changed period, or one that begins as tiles become reserved, has its first boundary at its next multiple (R357). -/
def newPeriod (s0 s : State) : State :=
  if s.period = s0.period ∧ s0.resv ≠ 0 then s
  else modSch (fun c => { c with due := boundaryAt s.period (s.time.ns.toNat + 1) }) s

/-- A key with an entry outside its tenant's partition is unloaded (R272). -/
def unloadOutside (s : State) : State :=
  sweepCache (modKs (fun k => { k with cache := k.cache.map (fun e => match e.2 with
    | some c =>
      if (List.range (entriesOf c.material.length)).all (fun j => inPartition s s.gen.act c.tenant.val (e.1 + j)) then e
      else (e.1, some { c with unload := true })
    | none => e) }) s)

/-- The course fields whose change makes the engine leave and form anew (R448): ROLE, POS, MEMBERS and COURSE_ID. -/
def courseSet (s : State) (c : Content) : Nat × Nat :=
  (fld (s.word c (.ownCourse 0)) 7 0, (s.word c .ownCourseId).toNat)

/-- Step 6 (R384): the pending content takes effect in one cycle. -/
def takeEffect (s0 : State) : State :=
  let newly := enabledBy s0 s0.gen.pend
  let crsMoves := decide (courseSet s0 s0.gen.pend ≠ courseSet s0 s0.gen.act)
  let s := stopChans s0.gen.pend (if crsMoves then leaveCourse 0 true s0 else s0)
  let s1 := turnRules s.gen.rollback (setAct s.gen.pend (modGen (fun g => { g with
    prev := g.act
    pend := {}
    shadow := if g.rollback then g.pend else g.shadow
    previous := g.active
    active := nextGen g.active
    digPrev := g.digAct
    digAct := g.digPend
    digPend := []
    disabling := []
    st := .idle
    err := 0 }) s))
  let s2 := unloadOutside (newPeriod s (lowerCredits (newly.foldl (fun s n => freshTenant n s) s1)))
  let s3 := if s.gen.clamped then raiseG gSchedBudgetClamp (modSch (fun c => { c with budgetClamped := true }) s2) else s2
  raiseG gGenDone (if crsMoves then enterCourse s3 else s3)

/-- GEN_TAKE_EFFECT. -/
def fxGenTakeEffect (s : State) : State := whenS (fenceOver s) takeEffect s
def execGenTakeEffect (s : State) : Host.Outcome State Fault Refusal := .next (fxGenTakeEffect s)

/-- GEN_SLOW (R386): the record names the pending generation's number and PINNED. -/
def fxGenSlow (s : State) : State :=
  whenS (decide (s.gen.st = .fence)) (fun s =>
    raiseG gGenSlow (journal 0x25 0x10 [(nextGen s.gen.active).toNat, pinned s % 512] s)) s
def execGenSlow (s : State) : Host.Outcome State Fault Refusal := .next (fxGenSlow s)

/-! ### The end of an operation, and of work of the engine itself (R103, R515) -/

/-- A signature check of a patch section has ended: the first that fails ends the load, and so does the last of all (R382). -/
def sectChecked (i : Nat) (second : Bool) (s : State) : State :=
  if !sectSigned ((imgSections s.gen.image).getD i []) second then endLoad 6 s.gen.image (dropWork .patches s)
  else if working s .patches then s
  else endLoad 0 s.gen.image s

/-- An operation of a step of a pairing has ended: behind the hybrid operation of steps 2 and 4 come the two signatures of the statement over
its output; with the last operation the step ends (R296, R451). -/
def pairDone (p : Nat) (op : PairOp) (s : State) : State :=
  if op = .hybrid ∧ ((s.peer p).step = .hello ∨ !crsIsMaster s) then
    issueJob 3 (.pairing p .mldsa) (issueJob 3 (.pairing p .es384) s)
  else if working s (.pairing p) then s
  else stepEnds p s

/-- What the end of work of the engine leads to: the key of an ML-DSA seed has its hash made, a load ends with the checks of its signatures,
a pairing takes its step (R174, R259, R382, R451). -/
def jobDone (j : Job) (s : State) : State :=
  match j.work with
  | .generation => s
  | .slot x => if j.kind = 3 then issueJob 2 (.slot x) s else s
  | .patch i second => sectChecked i second s
  | .pairing p op => pairDone p op s

/-- The tile on which work of the engine runs. -/
def jobTile (s : State) (j : Job) : Option Nat :=
  (kindTiles j.kind).find? (fun t => decide ((s.tile t).run = some (j.id, 0)) || decide ((s.tile t).bankA = .running j.id 0)
    || decide ((s.tile t).bankB = .running j.id 0))

/-- Such work ends on its tile, which it leaves; where an operation with a result check fails it, the tile leaves service and the work waits
again (R203, R227). A signature check has none. -/
def jobEnds (j : Job) (resultOk : Bool) (ecc : Ecc) (s : State) : State :=
  match jobTile s j with
  | none => s
  | some t =>
    tileChecked t ecc (fun s =>
      if jobTile s j ≠ some t then s
      else if j.kind = 3 ∧ j.work.purpose ≠ .patches ∧ !resultOk then quarantine t qResult false s
      else jobDone j (modSch (fun c => { c with jobs := c.jobs.filter (fun q => decide (q.id ≠ j.id)) }) (releaseOp j.id 0 s))) s

/-- OPERATION_END (R103, R202, R515). The operands say whether the result check passes, what the check of the tile's memory finds, whether
a tenant reset meets the end in one control cycle (R209), what the check of the staging buffer finds (R431), and what that of the memory of
the higher tile of a pair does. -/
def fxOperationEnd (id : Nat) (op : Fin 8) (resultOk : Bool) (ecc : Ecc) (meets : Bool) (staging second : Ecc) (s : State) : State :=
  whenS (tilesOpen s) (fun s =>
    match s.req id, s.sch.jobs.find? (fun j => decide (j.id = id)) with
    | some r, _ => opEnds r op.val resultOk ecc meets staging second s
    | none, some j => if op.val = 0 then jobEnds j resultOk ecc s else s
    | none, none => s) s
def execOperationEnd (id : Nat) (op : Fin 8) (resultOk : Bool) (ecc : Ecc) (s : State) (meets : Bool := false)
    (staging : Ecc := .clean) (second : Ecc := .clean) : Host.Outcome State Fault Refusal :=
  .next (fxOperationEnd id op resultOk ecc meets staging second s)

end Sys2Proof.Machine
end

