-- ==== Sys2Proof/Machine/Clocks.lean ====
section
/-!
DEFINITION. Gating, clock monitors, supply events and retention (R278, R394 to R416, R479), with the commands GATE_WRITE to
WAKE_COMPLETE, and the engine reset that they share (R32, R240, R404, R405, R411).
-/

namespace Sys2Proof.Machine

/-! ### The engine reset -/

/-- Everything at its reset value but the queue, what has left the block, and the numbering of free values; `cause` is
AH_STAT_RESET.CAUSE (R240, R404, R411). -/
def engineReset (cause : Nat) (s : State) : State :=
  { State.reset with
    start := { State.reset.start with cause := BitVec.ofNat 2 cause }
    out := s.out
    free := s.free
    pending := s.pending }

/-! ### Gating (R394 to R397) -/

/-- The bit of a unit in AH_OWN_GATE. -/
def gateIx : GateUnit → Nat
  | .tile t => t.val
  | .dcu => 24
  | .fp => 25

/-- A header query of the engine is outstanding (R334). -/
def queryOut (s : State) : Bool :=
  s.reqs.any (fun r => decide (r.phase = .running) && r.frames.any (fun b => (r.buf b).hdr.isNone))

/-- The contexts of a digest tile that is about to be gated move to the others while they have room (R173, R394). -/
def moveOut (t : Nat) (s : State) : State :=
  let others (s : State) : List Nat := (healthyOf s 2).filter (fun x => x ≠ t && storeFree s x)
  let s1 := eachN (List.range 64) (fun i s =>
    match s.stream i with
    | some x =>
      if x.tile ≠ t ∨ x.holder.isSome then s
      else
        (match fewestParked s ((others s).filter (fun y => decide (parkedOn s y < 24))) with
          | some y => setStream i (some { x with tile := y }) s
          | none => s)
    | none => s) s
  (s1.tile t).saved.foldl (fun s p =>
    let held := heldOn s 2 t p
    match fewestParked s ((others s).filter (fun y => decide (y ∉ held))) with
    | some y => shiftSaved t y p s
    | none => s) s1

/-- A unit's idle handshake is complete (R394). -/
def unitIdle (s : State) : GateUnit → Bool
  | .tile t =>
    let u := s.tile t.val
    u.run.isNone && decide (u.saved = []) && decide (u.bankA = .empty) && decide (u.bankB = .empty)
      && (decide (t.val < 16 ∨ 20 ≤ t.val) || decide (parkedOn s t.val = 0))
  | .dcu => s.dcs.all (fun p => decide (p.2.st = .idle ∨ p.2.st = .paused) && p.2.quiet)
  | .fp => decide (s.fp.loans = []) && !queryOut s

/-- A write of 1 to a gate bit. -/
def gateStart (u : GateUnit) (s : State) : State :=
  if bitOf s.own.gate (gateIx u) then s
  else
    let s1 := modClk (fun c => { c with pending := c.pending ||| BitVec.ofNat 26 (2 ^ (gateIx u)) })
      (modOwn (fun o => { o with gate := o.gate ||| put (gateIx u) 1 }) s)
    match u with
    | .tile t => settleAll (if 16 ≤ t.val ∧ t.val < 20 then moveOut t.val s1 else s1)
    | .dcu => eachN ((List.range 64).filter (fun k => decide ((s.dc k).st ≠ .idle))) dcSetPause s1
    | .fp => s1

/-- The clock of a unit is monitored (R397, R399). -/
def unitMonitored (s : State) : GateUnit → Bool
  | .tile t => if t.val < 16 then bitOf s.own.clkmon 1 else bitOf s.own.clkmon 2
  | _ => true

/-- A write of 0 to a gate bit: the gate ends, or a pending one is cancelled (R397). -/
def gateEnd (u : GateUnit) (s : State) : State :=
  let keep := ~~~ BitVec.ofNat 26 (2 ^ (gateIx u))
  modClk (fun c => { c with gated := c.gated &&& keep, pending := c.pending &&& keep })
    (modOwn (fun o => { o with gate := o.gate &&& ~~~ put (gateIx u) 1 }) s)

/-- A write of 0 to the bit of a unit whose clock is not monitored is dropped (R397). -/
def ungateMay (s : State) (u : GateUnit) : Bool := !bitOf s.own.gate (gateIx u) || unitMonitored s u

def fxGateWrite (who : Who) (unit : GateUnit) (s : State) : State :=
  gateW who .ownGate (s.own.gate ||| put (gateIx unit) 1) (gateStart unit) s
def execGateWrite (who : Who) (unit : GateUnit) (s : State) : Host.Outcome State Fault Refusal := .next (fxGateWrite who unit s)

def fxUngate (who : Who) (unit : GateUnit) (s : State) : State :=
  let v := s.own.gate &&& ~~~ put (gateIx unit) 1
  gateW who .ownGate v (fun s => if ungateMay s unit then gateEnd unit s else dropReg who .ownGate v s) s
def execUngate (who : Who) (unit : GateUnit) (s : State) : Host.Outcome State Fault Refusal := .next (fxUngate who unit s)

/-- GATE_IDLE. Contexts that found no room before try again (R394). -/
def fxGateIdle (unit : GateUnit) (s : State) : State :=
  whenS (s.clk.pending.toNat.testBit (gateIx unit)) (fun s =>
    let s1 := match unit with
      | .tile t => if 16 ≤ t.val ∧ t.val < 20 then moveOut t.val s else s
      | _ => s
    if unitIdle s1 unit then
      let m := BitVec.ofNat 26 (2 ^ (gateIx unit))
      modClk (fun c => { c with pending := c.pending &&& ~~~ m, gated := c.gated ||| m }) s1
    else s1) s
def execGateIdle (unit : GateUnit) (s : State) : Host.Outcome State Fault Refusal := .next (fxGateIdle unit s)

/-! ### Clock monitors (R398 to R406) -/

def clkIx : ClkName → Nat
  | .ctl => 0
  | .tile => 1
  | .aux => 2

def State.mon (s : State) : ClkName → ClkMon
  | .ctl => s.clk.ctl
  | .tile => s.clk.tile
  | .aux => s.clk.aux
def modMon (k : ClkName) (f : ClkMon → ClkMon) (s : State) : State :=
  match k with
  | .ctl => modClk (fun c => { c with ctl := f c.ctl }) s
  | .tile => modClk (fun c => { c with tile := f c.tile }) s
  | .aux => modClk (fun c => { c with aux := f c.aux }) s

/-- The tiles that a clock feeds. -/
def clkTiles : ClkName → List Nat
  | .ctl => []
  | .tile => List.range 16
  | .aux => (List.range 8).map (· + 16)

/-- Both detectors of a clock are on (R399). -/
def monitored (s : State) : ClkName → Bool
  | .ctl => true
  | .tile => bitOf s.own.clkmon 1
  | .aux => bitOf s.own.clkmon 2

def inBand (s : State) (k : ClkName) : Bool := decide (4 ≤ (s.mon k).clean)
def allInBand (s : State) : Bool := inBand s .ctl && inBand s .tile && inBand s .aux

/-- AH_OWN_CLKMON.RESP selects the engine reset response (R404). -/
def respReset (s : State) : Bool := bitOf s.own.clkmon 0

def limits (s : State) : ClkName → Word
  | .ctl => s.own.limCtl
  | .tile => s.own.limTile
  | .aux => s.own.limAux

/-- A window of a clock begins under the limits as they are now (R398). -/
def openWindow (k : ClkName) (s : State) : State := modMon k (fun m => { m with lim := limits s k }) s

/-- CLKMON_EN_WRITE (R399). ah_clk_ctl has no enable. -/
def clkmonEn (who : Who) (k : ClkName) (en : Bool) (s : State) : State :=
  let m := match k with
    | .ctl => 0
    | k => put (clkIx k) 1
  if m = 0 then s
  else if en then openWindow k (modOwn (fun o => { o with clkmon := o.clkmon ||| m }) s)
  else if (clkTiles k).all (fun t => s.clk.gated.toNat.testBit t) then modOwn (fun o => { o with clkmon := o.clkmon &&& ~~~ m }) s
  else dropReg who .ownClkmon (s.own.clkmon &&& ~~~ m) s
def fxClkmonEnWrite (who : Who) (clk : ClkName) (en : Bool) (s : State) : State :=
  gateW who .ownClkmon (if en then s.own.clkmon ||| put (clkIx clk) 1 else s.own.clkmon &&& ~~~ put (clkIx clk) 1) (clkmonEn who clk en) s
def execClkmonEnWrite (who : Who) (clk : ClkName) (en : Bool) (s : State) : Host.Outcome State Fault Refusal :=
  .next (fxClkmonEnWrite who clk en s)

/-- A CLK_SUPPLY record (R441), once the journal has been cleared. -/
def clkRecord (event : Nat) (reset : Bool) (s : State) : State :=
  if s.start.cleared then journal 0x37 0x10 [s.clk.cause.toNat + 2 ^ 8 * event + 2 ^ 10 * b2n reset] s else s

/-- Every operation that a tile holds. -/
def tileOps (u : Tile) : List (Nat × Nat) := u.run.toList ++ u.saved ++ bankOps u

/-- The safe state of a tile (R401): it is fenced, and what it held goes no further. -/
def fenceTile (t : Nat) (s : State) : State :=
  let still (b : BankSt) : BankSt := match b with
    | .running id i => .resident id i
    | b => b
  let s1 := (tileOps (s.tile t)).foldl (fun s p => modOp p.1 p.2 (fun o => { o with phase := .saved }) s) s
  modTile t (fun u => { u with
    st := if u.st = .healthy ∨ u.st = .testing then .fenced else u.st
    bankA := still u.bankA
    bankB := still u.bankB }) s1

/-- The control island is in the safe state: the register window is closed, and nothing is admitted or started (R401, R404). -/
def holdControl (s : State) : State := modStart (fun t => { t with serving := false, cleared := false }) s

/-- A trip: CAUSE, the safe state, ah_nmi through EV_CLK_TRIP (R401, R404, R406). A clock that is already fenced only adds to CAUSE; one
whose release is under way is fenced again. -/
def trip (k : ClkName) (bit : Nat) (s : State) : State :=
  let s1 := modMon k (fun m => { m with clean := 0 })
    (modClk (fun c => { c with cause := c.cause ||| BitVec.ofNat 8 (2 ^ bit + (if s.start.osc then 0 else 2 ^ 6)) }) s)
  if (s.mon k).fenced && !(s.mon k).release then s1
  else
    let reset := decide (k = .ctl) || respReset s
    let s2 := modMon k (fun m => { m with fenced := true, zeroDue := true, release := false }) s1
    let s3 := eachN (if reset then List.range 24 else clkTiles k) fenceTile (clkRecord 0 reset (raiseG gClkTrip s2))
    if reset then holdControl s3 else s3

/-- The stop detectors and the monitors work: from reset release on, but not in retention (R398, R414). -/
def watching (s : State) : Bool := !s.start.rst && !(s.ret.asleep && s.ret.req)

def fxClockStopTrip (clk : ClkName) (s : State) : State := whenS (watching s && monitored s clk) (trip clk (clkIx clk)) s
def execClockStopTrip (clk : ClkName) (s : State) : Host.Outcome State Fault Refusal := .next (fxClockStopTrip clk s)

/-- The windows of the control clock are counted: the engine's measure of longer times in oscillator cycles (R422). -/
def countWindow (k : ClkName) (s : State) : State :=
  match k with
  | .ctl => modClk (fun c => { c with windows := c.windows + 1 }) s
  | _ => s

/-- CLKMON_WINDOW (R398, R403): a window ends, judged by the limits with which it began, and the next begins. The counters go on through
the engine reset response, which waits for them (R404). -/
def fxClkmonWindow (clk : ClkName) (count : BitVec 14) (s : State) : State :=
  whenS (s.start.osc && !s.clk.oscStopped && (watching s || s.start.rst) && monitored s clk) (fun s =>
    let w := (s.mon clk).lim
    let s1 := openWindow clk (countWindow clk (modMon clk (fun m => { m with count := count }) s))
    if fld w 13 0 ≤ count.toNat ∧ count.toNat ≤ fld w 29 16 then modMon clk (fun m => { m with clean := min 4 (m.clean + 1) }) s1
    else if s.start.rst then modMon clk (fun m => { m with clean := 0 }) s1
    else trip clk (3 + (clkIx clk)) s1) s
def execClkmonWindow (clk : ClkName) (count : BitVec 14) (s : State) : Host.Outcome State Fault Refusal :=
  .next (fxClkmonWindow clk count s)

/-- OSC_FAULT (R400). -/
def fxOscFault (s : State) : State :=
  whenS (watching s && s.start.osc) (fun s =>
    raiseG gOscFault (modClk (fun c => { c with oscStopped := true, cause := c.cause ||| 0x80 }) s)) s
def execOscFault (s : State) : Host.Outcome State Fault Refusal := .next (fxOscFault s)

/-- The operation of a request that a tile among `ts` holds: the lowest-numbered one. -/
def heldOp (s : State) (ts : List Nat) (id : Nat) : Option Nat :=
  (List.range 8).find? (fun i => ts.any (fun t => decide ((id, i) ∈ tileOps (s.tile t))))

/-- A bank of a public-key tile among `ts` is in use by the request. -/
def usesBank (s : State) (ts : List Nat) (id : Nat) : Bool :=
  ts.any (fun t => (bankOps (s.tile t)).any (fun p => decide (p.1 = id)) || decide ((s.tile t).bankA = .zeroizing id)
    || decide ((s.tile t).bankB = .zeroizing id))

/-- The contain response for a clock (R402): requests at work on its tiles end, streams parked there close, the tiles are clean. -/
def contain (k : ClkName) (s : State) : State :=
  let ts := clkTiles k
  let s1 := s.reqs.foldl (fun s' r =>
    let z := usesBank s ts r.id
    let s2 := if z then modReq r.id (fun r => { r with zeroized := true }) s' else s'
    match heldOp s ts r.id with
    | some i => if r.phase = .running then endChain r.id ⟨0x51, 2, i⟩ s2 else s2
    | none => s2) s
  let s3 := eachN (List.range 64) (fun i s =>
    if ((s.stream i).map (fun x => decide (x.tile ∈ ts))).getD false then setStream i none s else s) s1
  eachN ts (fun t => modTile t (fun u => { u with run := none, saved := [], bankA := .empty, bankB := .empty })) s3

/-- FENCED_ZEROIZE_DONE (R401, R402, R404, R406): the response to the trips that the fenced islands have been zeroized for. -/
def fxFencedZeroizeDone (s : State) : State :=
  let due (k : ClkName) : Bool := (s.mon k).zeroDue
  whenS (s.start.osc && (due .ctl || due .tile || due .aux)) (fun s =>
    if due .ctl || respReset s then
      modClk (fun c => { c with cause := s.clk.cause }) (modStart (fun t => { t with osc := true, nmi := true }) (engineReset 2 s))
    else
      let one (k : ClkName) (s : State) : State := if due k then modMon k (fun m => { m with zeroDue := false }) (contain k s) else s
      settleAll (one .aux (one .tile s))) s
def execFencedZeroizeDone (s : State) : Host.Outcome State Fault Refusal := .next (fxFencedZeroizeDone s)

/-- AH_OWN_CLKMON.RELEASE (R403): dropped while the clock is not in band. -/
def clkmonRelease (who : Who) (k : ClkName) (s : State) : State :=
  if !inBand s k then dropReg who .ownClkmon (s.own.clkmon ||| put (3 + (clkIx k)) 1) s
  else if (s.mon k).fenced ∧ !(s.mon k).zeroDue then modMon k (fun m => { m with release := true }) s
  else s
def fxClkmonRelease (who : Who) (clk : ClkName) (s : State) : State :=
  if clk = .ctl then s else gateW who .ownClkmon (s.own.clkmon ||| put (3 + (clkIx clk)) 1) (clkmonRelease who clk) s
def execClkmonRelease (who : Who) (clk : ClkName) (s : State) : Host.Outcome State Fault Refusal := .next (fxClkmonRelease who clk s)

/-- A fenced tile ends its test set (R403, R424). -/
def releaseTile (pass : Bool) (t : Nat) (s : State) : State :=
  if (s.tile t).st ≠ .fenced then s
  else
    let s1 := journal 0x31 0x10 [t + 2 ^ 8 * b2n pass] (rejoinTile t pass s)
    if pass then s1 else modTile t (fun u => { u with qcause := BitVec.ofNat 3 qGrout }) s1

/-- ISLAND_REJOIN. -/
def fxIslandRejoin (clk : ClkName) (failed : BitVec 24) (s : State) : State :=
  whenS ((s.mon clk).release) (fun s =>
    wakeBanks (eachN (clkTiles clk) (fun t => releaseTile (!failed.toNat.testBit t) t)
      (modMon clk (fun m => { m with fenced := false, release := false }) s))) s
def execIslandRejoin (clk : ClkName) (failed : BitVec 24) (s : State) : Host.Outcome State Fault Refusal :=
  .next (fxIslandRejoin clk failed s)

/-! ### Supply events (R278, R407 to R411) -/

def countWarn (s : State) : State :=
  modSup (fun p => { p with warns := bump32 p.warns, sat := if tops p.warns then p.sat ||| 1 else p.sat }) s
def countRerun (s : State) : State :=
  modSup (fun p => { p with reruns := bump32 p.reruns, sat := if tops p.reruns then p.sat ||| 2 else p.sat }) s

/-- The operation was running on a tile (R408). -/
def atWork (r : Req) (i : Nat) : Bool := decide (kindOfW (r.op i).w ≠ 0) && decide ((r.op i).phase = .running)

/-- A discarded operation runs again once the warning has cleared, before what was not discarded (R409, R410). -/
def runAgain (id i : Nat) (s : State) : State := countRerun (modOp id i (fun o => { o with rerun := true }) (rerunOp id i s))

/-- What a supply warning does to a request with operations at work (R408, R409). -/
def supplyHit (s : State) (r : Req) : State :=
  let work := (List.range r.ops.length).filter (atWork r)
  if r.phase ≠ .running ∨ work = [] then s
  else
    match work.find? (fun i => decide (kindOfW (r.op i).w ≠ 3) && decide ((r.op i).output ≠ [])) with
    | some i => endChain r.id ⟨0x60, 1, i⟩ s
    | none =>
      let again := (List.range r.ops.length).filter (fun j => decide (j ∈ work) || work.any (fun i => decide (j ∈ sourceOps r 8 i)))
      match again.find? (drawLeft r) with
      | some i => endChain r.id ⟨0x60, 1, i⟩ s
      | none => eachN again (runAgain r.id) s

/-- Work of the engine itself that runs on a tile is discarded, and runs again from its start in its rank (R408, R515; DESIGN CHOICE,
notes/assumptions/33.md: no mark puts it before what was not discarded). -/
def jobsAtWork (s : State) : List Job := s.sch.jobs.filter (fun j => (jobTile s j).isSome)
def jobHit (s : State) (j : Job) : State := countRerun (releaseOp j.id 0 s)

/-- SUPPLY_WARN. -/
def fxSupplyWarn (s : State) : State :=
  whenS (!s.start.rst && !s.sup.active) (fun s =>
    let s1 := raiseG gSupWarn (countWarn (modSup (fun p => { p with active := true }) s))
    (jobsAtWork s).foldl jobHit (s.reqs.foldl supplyHit (clkRecord 1 false s1))) s
def execSupplyWarn (s : State) : Host.Outcome State Fault Refusal := .next (fxSupplyWarn s)

/-- A deferred key store write takes place (R278). -/
def undefer (d : KsDefer) (s : State) : State :=
  match d with
  | .bank r mask v => bankWrite r mask v s
  | .extend i e => extendDue i e s
  | .copy x => copyBank x s
  | .prepare x => prepareBank x s
  | .verify x => whenS (verifiable s x) (verifyEnds x) s
  | .blob p b => takeSlotBank p b s

/-- SUPPLY_CLEAR (R410): the deferred writes, then everything else goes on; a GROUP frame that waited is sent (R468). -/
def fxSupplyClear (s : State) : State :=
  whenS s.sup.active (fun s =>
    let s1 := modKs (fun k => { k with deferred := [] }) (modSup (fun p => { p with active := false }) s)
    let s2 := s.ks.deferred.foldl (fun s d => undefer d s) s1
    let s3 := clkRecord 2 false (raiseG gSupClear s2)
    let waits := if crsIsMaster s3 then (crsOthers s3).filter (fun p => decide ((s3.peer p).step = .accepted)) else []
    settleAll (wakeBanks (eachN waits sendGroup s3))) s
def execSupplyClear (s : State) : Host.Outcome State Fault Refusal := .next (fxSupplyClear s)

/-- SUPPLY_FAILURE_RESET (R411). -/
def fxSupplyFailureReset (s : State) : State := engineReset 1 s
def execSupplyFailureReset (s : State) : Host.Outcome State Fault Refusal := .next (fxSupplyFailureReset s)

/-! ### Retention (R412 to R414, R479) -/

/-- RET_REQ_RISE: admission stops, running channels pause. -/
def fxRetReqRise (s : State) : State :=
  whenS (s.start.serving && !s.ret.req && !s.ret.asleep) (fun s =>
    eachN ((List.range 64).filter (fun k => decide ((s.dc k).st = .running ∨ (s.dc k).st = .waiting))) dcSetPause
      (modRet (fun r => { r with req := true }) s)) s
def execRetReqRise (s : State) : Host.Outcome State Fault Refusal := .next (fxRetReqRise s)

/-- A key replacement is in progress. -/
def replacing (s : State) : Bool := s.ks.slots.any (fun p => p.2.staged || p.2.verify || p.2.draining || p.2.zeroing)

/-- Tile state is lost in retention; the tiles of a contained island stay fenced until their release (R402, R413). -/
def Tile.asleep (u : Tile) : Tile := if u.st = .fenced then { st := .fenced } else {}

/-- RETENTION_ENTRY: what retention does not keep goes (R413); the count stops (R351). -/
def fxRetentionEntry (s : State) : State :=
  whenS (s.ret.req && !s.ret.asleep && decide (s.reqs = []) && decide (s.fp.loans = []) && decide (s.gen.st ≠ .fence) && !replacing s
      && !s.sup.active && allInBand s && decide (s.crs.queue = []) && s.dcs.all (fun p => decide (p.2.st ≠ .running ∧ p.2.st ≠ .waiting))) (fun s =>
    let s1 := eachN (List.range 24) (fun t => modTile t Tile.asleep) (setRun false s)
    let s2 := eachN (List.range 256) (fun i s =>
      modSq (i / 16) (i % 16) (fun q => { q with cache := [], flight := [], charges := [] }) s)
        (modRet (fun r => { r with ack := true, asleep := true, tested := false }) s1)
    let quiet (m : ClkMon) : ClkMon := { m with count := 0, clean := 0 }
    modClk (fun c => { c with ctl := quiet c.ctl, tile := quiet c.tile, aux := quiet c.aux }) s2) s
def execRetentionEntry (s : State) : Host.Outcome State Fault Refusal := .next (fxRetentionEntry s)

/-- RET_REQ_FALL: before ah_ret_ack, admission resumes; after it, a wake starts with the oscillator (R414). -/
def fxRetReqFall (s : State) : State :=
  whenS s.ret.req (fun s =>
    let s1 := modRet (fun r => { r with req := false }) s
    if s.ret.asleep then modStart (fun t => { t with osc := false }) s1 else s1) s
def execRetReqFall (s : State) : Host.Outcome State Fault Refusal := .next (fxRetReqFall s)

/-- The first window of every monitored clock has ended in band. -/
def firstWindow (s : State) : Bool := [ClkName.ctl, .tile, .aux].all (fun k => !monitored s k || decide (1 ≤ (s.mon k).clean))

/-- A wake is under way behind its first window in band, and no supply warning holds it (R414, R416). -/
def waking (s : State) : Bool := s.ret.asleep && !s.ret.req && s.start.osc && firstWindow s && !s.sup.active

/-- WAKE_COMPLETE: the known-answer tests, the last step before it, have been made (R414, R416). -/
def fxWakeComplete (s : State) : State :=
  whenS (waking s && s.ret.tested) (fun s =>
    raiseG gWake (modRet (fun r => { r with ack := false, asleep := false, tested := false }) s)) s
def execWakeComplete (s : State) : Host.Outcome State Fault Refusal := .next (fxWakeComplete s)

end Sys2Proof.Machine
end

