-- ==== Sys2Proof/Machine/Owner.lean ====
section
/-!
DEFINITION. Ownership (R28 to R36): the commands OWN_CLAIM, CLAIM_WINDOW_CLOSE, OWN_HANDOVER, OWN_ACCEPT and HANDOVER_LAPSED.
-/

namespace Sys2Proof.Machine

/-! ### Election (R28 to R32) -/

/-- CAUSE of AH_STAT_OWNER (R490). -/
def caClaim := 1
def caStrap := 2
def caHandover := 3

/-- A CLAIM_IGNORED record: of a claim under R30, or of an accept under R35 (R441). -/
def ignoredRecord (who : Who) (prio : Nat) (accept : Bool) (s : State) : State :=
  journal 0x12 0x10 [who.mid.toNat + 2 ^ 8 * worldBit who.world + 2 ^ 16 * prio + 2 ^ 24 * b2n accept] s

/-- A claim replaces the leading one: a higher priority, or an equal one from a lower master ID (R29). -/
def outranks (o : Owner) (who : Who) (prio : BitVec 8) : Bool :=
  decide (o.leadPrio.toNat < prio.toNat) || (decide (o.leadPrio = prio) && decide (who.mid.toNat < o.leadMid.toNat))

/-- AH_OWN_CLAIM.PRIO (R29, R30); a claim with the debug flag is ignored (R375). Before the journal is cleared nothing is recorded;
before the first service point a claim is a dropped write too and counts as one (R38, R470). -/
def claim (who : Who) (prio : BitVec 8) (s : State) : State :=
  if !s.start.cleared then s
  else if who.dbg then dropWrite who Reg.ownClaim.off prio.toNat s
  else if s.owner.st = .claimOpen ∧ who.world = .secure ∧ prio ≠ 0 then
    (if outranks s.owner who prio then modOwner (fun o => { o with leadMid := who.mid, leadPrio := prio }) s else s)
  else if s.start.serving then ignoredRecord who prio.toNat false s
  else countDenied (ignoredRecord who prio.toNat false s)

/-- A piece of AH_OWN_CLAIM: a claim, or reserved bits, which the owner may write, and in the window any secure master (R29, R37). -/
def claimPiece (who : Who) (mask val : Word) (s : State) : State :=
  if mask &&& 0xFF ≠ 0 then claim who (BitVec.ofNat 8 val.toNat) s
  else if !s.start.cleared then s
  else if s.start.serving && !who.dbg && (s.isOwner who || (decide (s.owner.st = .claimOpen) && decide (who.world = .secure))) then s
  else dropPiece who .ownClaim mask val s

def fxOwnClaim (who : Who) (prio : BitVec 8) (s : State) : State := claim who prio s
def execOwnClaim (who : Who) (prio : BitVec 8) (s : State) : Host.Outcome State Fault Refusal := .next (fxOwnClaim who prio s)

/-- CLAIM_WINDOW_CLOSE (R31). LEAD_MID and LEAD_PRIO keep the last leading claim (DESIGN CHOICE, notes/assumptions/32.md). -/
def fxClaimWindowClose (s : State) : State :=
  whenS (decide (s.owner.st = .claimOpen)) (fun s =>
    let led := decide (s.owner.leadPrio ≠ 0)
    raiseG gOwnerElected (modOwner (fun o => { o with
      mid := if led then o.leadMid else BitVec.ofNat 8 s.start.strap.toNat
      cause := BitVec.ofNat 2 (if led then caClaim else caStrap)
      st := .owned }) s)) s
def execClaimWindowClose (s : State) : Host.Outcome State Fault Refusal := .next (fxClaimWindowClose s)

/-! ### Handover (R33 to R36) -/

/-- AH_OWN_HANDOVER.TARGET_MID: an offer, or the cancelling of one (R33). OFFER_MID is 0 while no offer is pending (DESIGN CHOICE,
notes/assumptions/32.md). -/
def handover (target : BitVec 8) (s : State) : State :=
  if target = s.owner.mid then modOwner (fun o => { o with st := .owned, offer := 0 }) s
  else modOwner (fun o => { o with st := .offered, offer := target }) s
def fxOwnHandover (who : Who) (target : BitVec 8) (s : State) : State :=
  gateW who .ownHandover (target.setWidth 64) (handover target) s
def execOwnHandover (who : Who) (target : BitVec 8) (s : State) : Host.Outcome State Fault Refusal := .next (fxOwnHandover who target s)

/-- The access comes from the master to which ownership is offered (R34). -/
def isTarget (s : State) (who : Who) : Bool :=
  !who.dbg && decide (s.owner.st = .offered) && decide (who.mid = s.owner.offer) && decide (who.world = .secure)

/-- A write of 1 to AH_OWN_ACCEPT.GO (R34, R35): an accept that is not the target's is dropped and recorded, and so is one that
`meets` an offer written in the same control cycle (R36). -/
def accept (who : Who) (meets : Bool) (s : State) : State :=
  if !s.start.cleared then s
  else if who.dbg then dropWrite who Reg.ownAccept.off 1 s
  else if isTarget s who && !meets then
    raiseG gHandoverDone (modOwner (fun o => { o with mid := who.mid, cause := BitVec.ofNat 2 caHandover, st := .owned, offer := 0 }) s)
  else countDenied (ignoredRecord who 0 true s)

/-- A piece of AH_OWN_ACCEPT: an accept; any other value asks for nothing, and is taken from the owner and the target alone (R34, R37,
R470). -/
def acceptPiece (who : Who) (meets : Bool) (mask val : Word) (s : State) : State :=
  if bitOf (mask &&& val) 0 then accept who meets s
  else if !s.start.cleared then s
  else if s.start.serving && (s.isOwner who || isTarget s who) then s
  else dropPiece who .ownAccept mask val s

def fxOwnAccept (who : Who) (go meets : Bool) (s : State) : State := acceptPiece who meets (~~~ 0) (BitVec.ofNat 64 (b2n go)) s
def execOwnAccept (who : Who) (go : Bool) (s : State) (meets : Bool := false) : Host.Outcome State Fault Refusal :=
  .next (fxOwnAccept who go meets s)

/-- HANDOVER_LAPSED (R35). -/
def fxHandoverLapsed (s : State) : State :=
  whenS (decide (s.owner.st = .offered)) (fun s =>
    raiseG gHandoverLapsed (modOwner (fun o => { o with st := .owned, offer := 0 }) s)) s
def execHandoverLapsed (s : State) : Host.Outcome State Fault Refusal := .next (fxHandoverLapsed s)

end Sys2Proof.Machine
end

