-- ==== Sys2Proof/Machine/StartUp.lean ====
section
/-!
DEFINITION. Cold start and the boot ring (R48, R240 to R242, R263, R291, R292, R469 to R480), with the commands ENGINE_RESET_RELEASE,
ENGINE_RESET_ASSERT, OSC_START_TIMEOUT, OSCILLATOR_READY, STARTUP_CLEAR_DONE, KNOWN_ANSWER_TESTS_DONE, FUSE_READ_DONE,
IDENTITY_READY, FIRST_SERVICE_POINT, BOOT_SLOT_POLL, BOOT_REQUEST, BOOT_EXTEND and BOOT_EN_CLEAR.
-/

namespace Sys2Proof.Machine

/-! ### Phases and start-up faults (R470, R471) -/

def phOsc := 1
def phClear := 2
def phTest := 3
def phFuse := 4
def phKeys := 5
def phIdentity := 6
def phServing := 7
def phHalted := 15

/-- Bits of AH_STAT_START.FAIL (R490). -/
def faOsc := 0
def faFuse := 1
def faTile := 2
def faCs := 3
def faHalt := 4
def faEntropy := 5
def faNoRbg := 6

def setPhase (p : Nat) (s : State) : State := modStart (fun t => { t with phase := BitVec.ofNat 4 p }) s
def setFail (b : Nat) (s : State) : State := modStart (fun t => { t with fail := t.fail ||| BitVec.ofNat 7 (2 ^ b) }) s

/-- The engine is out of reset and not halted. -/
def starting (s : State) : Bool := !s.start.rst && !s.start.serving && !s.held && decide (s.start.phase.toNat ≠ phHalted)

/-! ### Reset and cold start (R469) -/

/-- ENGINE_RESET_ASSERT: an external reset (R32, R240, R405). -/
def fxEngineResetAssert (s : State) : State := engineReset 0 s
def execEngineResetAssert (s : State) : Host.Outcome State Fault Refusal := .next (fxEngineResetAssert s)

/-- ENGINE_RESET_RELEASE: the straps give their reset values (R48). The internal reset of R404 is released once the three clocks are
in band. -/
def fxEngineResetRelease (strap : BitVec 16) (s : State) : State :=
  whenS (s.start.rst && (decide (s.start.cause ≠ 2) || allInBand s)) (fun s =>
    let s1 := modStart (fun t => { t with rst := false, strap := strap, osc := false, nmi := false }) s
    modOwn (fun o => { o with
      clkmon := setFld o.clkmon 0 0 (b2n (strap.toNat.testBit 12))
      boot := put 0 (b2n (strap.toNat.testBit 14))
      dbg := put 0 (b2n (strap.toNat.testBit 15)) }) s1) s
def execEngineResetRelease (strap : BitVec 16) (s : State) : Host.Outcome State Fault Refusal := .next (fxEngineResetRelease strap s)

/-- OSC_START_TIMEOUT (R471): the safe state is held, with ah_nmi. -/
def fxOscStartTimeout (s : State) : State :=
  whenS (starting s && !s.start.osc) (fun s => setFail faOsc (modStart (fun t => { t with hold := true, nmi := true }) s)) s
def execOscStartTimeout (s : State) : Host.Outcome State Fault Refusal := .next (fxOscStartTimeout s)

/-- OSCILLATOR_READY: at a cold start, and at a wake, which a supply warning holds (R406, R414, R416). The windows of the counters begin. -/
def fxOscillatorReady (s : State) : State :=
  whenS (!s.start.rst && !s.start.osc && !(s.ret.asleep && s.sup.active)) (fun s =>
    let s1 := openWindow .aux (openWindow .tile (openWindow .ctl (modStart (fun t => { t with osc := true, hold := false, nmi := false }) s)))
    if s.start.phase.toNat = phOsc then setPhase phClear s1 else s1) s
def execOscillatorReady (s : State) : Host.Outcome State Fault Refusal := .next (fxOscillatorReady s)

/-- STARTUP_CLEAR_DONE: the journal begins with its TIME_MARK; a trip or an oscillator fault before it is recorded now (R470, R471). -/
def fxStartupClearDone (s : State) : State :=
  whenS (starting s && s.start.osc && !s.start.cleared) (fun s =>
    let s1 := timeMark (setPhase phTest (modStart (fun t => { t with cleared := true }) s))
    if s.clk.cause ≠ 0 ∨ s.start.fail ≠ 0 then clkRecord 0 (respReset s || s.clk.ctl.fenced) s1 else s1) s
def execStartupClearDone (s : State) : Host.Outcome State Fault Refusal := .next (fxStartupClearDone s)

/-- A sequencer fails its self-test (R429, R471). -/
def failCs (c : Nat) (s : State) : State :=
  setFail faCs (raiseG gCsFail (journal 0x34 0x10 [c] (setCs c .failed s)))

/-- KNOWN_ANSWER_TESTS_DONE: at a cold start, and at a wake (R414, R471). `hashOk`: the island's hash unit and the kiln pass. -/
def fxKnownAnswerTestsDone (tileFail : BitVec 24) (csFail : BitVec 12) (hashOk : Bool) (s : State) : State :=
  let wake := waking s
  whenS (wake || (starting s && s.start.cleared && !s.start.kat)) (fun s =>
    let s1 := eachN ((List.range 24).filter (fun t => tileFail.toNat.testBit t && decide ((s.tile t).st = .healthy)))
      (fun t s => (if wake then id else setFail faTile) (quarantine t qGrout false s)) s
    let s2 := eachN ((List.range 12).filter csFail.toNat.testBit) failCs s1
    if !hashOk || decide (csFail = 0xFFF) then modStart (fun t => { t with nmi := true }) (setPhase phHalted (setFail faHalt s2))
    else if wake then modRet (fun r => { r with tested := true }) s2
    else modGen (fun g => { g with digAct := contentDigest s2 g.act }) (setPhase phFuse (modStart (fun t => { t with kat := true }) s2))) s
def execKnownAnswerTestsDone (tileFail : BitVec 24) (csFail : BitVec 12) (hashOk : Bool) (s : State) :
    Host.Outcome State Fault Refusal := .next (fxKnownAnswerTestsDone tileFail csFail hashOk s)

/-! ### Fuses, root keys, identity (R240 to R242, R263, R291, R292, R473) -/

/-- The lifecycle code of a fuse pattern (R242). -/
def lcOf (b : BitVec 8) : BitVec 3 := if 1 ≤ b.toNat ∧ b.toNat ≤ 4 then BitVec.ofNat 3 b.toNat else 5

/-- What the fuse read leaves in the kiln (R241, R243, R263). The words of `f` are as read: a word whose two sensings differ is zero. -/
def rootsOf (f : FuseWord) : Roots :=
  let lc := lcOf f.state
  let uOk := !allZero f.uds && !f.udsErase
  let lOk := !allZero f.lbs && !f.lbsErase && decide (lc.toNat ≤ 3)
  let x := toLE 1 lc.toNat
  { lc := lc
    udsOk := uOk
    lbsOk := lOk
    kU := if uOk ∧ lc ≠ 5 then some (kmac256 32 f.uds x (ascii [0x41, 0x48, 0x2D, 0x52, 0x4F, 0x4F, 0x54, 0x2D, 0x55])) else none
    kL := if uOk ∧ lOk then some (kmac256 32 (f.uds ++ f.lbs) x (ascii [0x41, 0x48, 0x2D, 0x52, 0x4F, 0x4F, 0x54, 0x2D, 0x4C])) else none }

/-- FUSE_READ_DONE (R240). A supply warning holds the step (R480). -/
def fxFuseReadDone (f : FuseWord) (s : State) : State :=
  whenS (starting s && s.start.kat && !s.start.fuses && !s.sup.active) (fun s =>
    let r := rootsOf f
    let s1 := modIdent (fun i => { i with noid := r.kU.isNone }) (modRoots (fun _ => r) s)
    let s2 := modBoot (fun b => { b with base := f.bootBase, k := f.bootK }) (setPhase phKeys (modStart (fun t => { t with fuses := true }) s1))
    if f.readOk then s2 else setFail faFuse s2) s
def execFuseReadDone (f : FuseWord) (s : State) : Host.Outcome State Fault Refusal := .next (fxFuseReadDone f s)

/-- The tiles on which the two public keys of the identity are computed, the one of DevID-C first (R291, R469). -/
def idTiles (s : State) : Nat × Nat := let l := healthyOf s 3; (l.getD 0 20, l.getD 1 (l.getD 0 20))

/-- IDENTITY_READY (R291, R292): on healthy public-key tiles, with a generator; after the first service point where none was healthy
before (R471). Where a result check fails, its tile leaves service and the keys are computed again (R202, R203, R227). -/
def fxIdentityReady (okC okQ : Bool) (s : State) : State :=
  whenS (s.start.fuses && s.roots.kU.isSome && !s.ident.ready && rbgHealthy s && decide (healthyOf s 3 ≠ []) && !s.sup.active) (fun s =>
    let (t, u) := idTiles s
    if !okC || !okQ then failChecks ((if okC then [] else [t]) ++ (if okQ || (t = u && !okC) then [] else [u])) s
    else
    let c := devPubC s
    let q := devPubQ s
    let s1 := modIdent (fun i => { i with
      ready := true
      cPub := c
      qPub := q
      ueid := sha3_256 c
      kidC := (sha3_256 c).take 8
      kidQ := (sha3_256 q).take 8
      cAttr := idAttr s 0x10 0x02 48 0x42
      qAttr := idAttr s 0x17 0x12 32 0
      tr := dsaTr q }) s
    if s.start.serving then s1 else setPhase phIdentity s1) s
def execIdentityReady (s : State) (okC : Bool := true) (okQ : Bool := true) : Host.Outcome State Fault Refusal := .next (fxIdentityReady okC okQ s)

/-- The fuse fields of the boot ring are valid (R473). -/
def bootFused (b : Boot) : Bool := decide (b.base ≠ 0) && decide (4 ≤ b.k.toNat ∧ b.k.toNat ≤ 8)

/-- FIRST_SERVICE_POINT: S (R28, R469, R471, R472). -/
def fxFirstServicePoint (s : State) : State :=
  whenS (starting s && s.start.fuses) (fun s =>
    let s1 := modOwner (fun o => { o with st := .claimOpen }) (setPhase phServing (modStart (fun t => { t with serving := true }) s))
    let s2 := if s.es.st = .failed then setFail faEntropy s1 else s1
    let s3 := if s.roots.kU.isSome && !s.ident.ready && !rbgHealthy s then setFail faNoRbg s2 else s2
    let s4 := modBoot (fun b => { b with st := if !bitOf s.own.boot 0 then .off else if bootFused b then .polling else .nofuse }) s3
    enterCourse s4) s
def execFirstServicePoint (s : State) : Host.Outcome State Fault Refusal := .next (fxFirstServicePoint s)

/-! ### The boot ring (R472 to R478) -/

def Boot.slots (b : Boot) : Nat := 2 ^ b.k.toNat
def Boot.slotAddr (b : Boot) (i : Nat) : Nat := b.base.toNat + 32 * (i % b.slots)

/-- Kind of the entry in the boot slot held, and whether its reserved fields are zero (R474). -/
def bootKind (b : Bytes) : Nat := byteAt b 2
def bootClean (b : Bytes) : Bool :=
  if bootKind b = 1 then allZero (slice b 3 29) else allZero (slice b 3 5) && allZero (slice b 0xE 18)

/-- Indices of the boot entry held: 2 + NSTR for a REQUEST, else 1. -/
def bootSpan (b : Bytes) : Nat := if bootKind b = 1 then 1 + entrySlots (b.drop 32) else 1

/-- The next value of SEQ. -/
def nextSeq (q : Nat) : Nat := if q = 0xFFFF then 1 else q + 1

/-- A privileged secure read of one boot slot under the active generation. -/
def bootReads (s : State) (is : List Nat) : Option (Nat × Nat) :=
  is.findSome? (fun i => check s s.gen.act none .secure .read (s.boot.slotAddr i) 32)

/-- A privileged violation of the boot ring. -/
def bootViol (p : Nat × Nat) (s : State) : State :=
  violP p.1 .read p.2 kindBoot 0 0 (s.gen.active.toNat % 65536) s

/-- BOOT_SLOT_POLL (R474): a read of the boot slot at the head; the answer holds the boot slot and, once SEQ is the expected one and the
kind is REQUEST, the slots of its entry behind it. -/
def fxBootSlotPoll (resp : Resp) (s : State) : State :=
  let h := s.boot.head
  whenS (decide (s.boot.st = .polling) && decide (s.boot.slot = []) && !s.ret.req && !s.ret.asleep) (fun s =>
    match bootReads s [h] with
    | some p => bootViol p s
    | none =>
      let s1 := emitRd (s.boot.slotAddr h) 32 s
      match resp with
      | .err => busErrorOf none (s.boot.slotAddr h) .read (b2n (portOf (s.boot.slotAddr h))) kindBoot 0 0 (s.gen.active.toNat % 65536) s1
      | .ok data =>
        let b := fit 32 data ++ data.drop 32
        if leAt b 0 2 ≠ s.boot.seq then s1
        else if bootKind b ≠ 1 then modBoot (fun q => { q with slot := fit 32 data }) s1
        else
          let n := bootSpan b
          let rest := (List.range (n - 1)).map (fun j => h + 1 + j)
          match bootReads s rest with
          | some p => bootViol p s1
          | none => modBoot (fun q => { q with slot := fit (32 * n) b }) (rest.foldl (fun s i => emitRd (s.boot.slotAddr i) 32 s) s1)) s
def execBootSlotPoll (resp : Resp) (s : State) : Host.Outcome State Fault Refusal := .next (fxBootSlotPoll resp s)

/-- The entry held leaves the ring: head and SEQ move, ADMITTED counts (R474, R478). -/
def bootTake (s : State) : State :=
  modBoot (fun b => { b with
    head := (b.head + bootSpan b.slot) % (2 * b.slots)
    seq := nextSeq b.seq
    slot := []
    admitted := b.admitted + 1
    inflight := b.inflight + 1 }) s

/-- A record of an entry that ends as it is taken. -/
def bootAnswer (tag status detail consumed : Nat) (s : State) : State :=
  let i := s.boot.head
  let o : Outcome := ⟨BitVec.ofNat 8 status, BitVec.ofNat 8 detail, 0⟩
  let b := recordOf tag 0 o 0 consumed 0 s.gen.active.toNat 0x7FFFFFF 0 (256 * b2n (!s.run)) s.time.ns
  bootSettle (bootRecord i b (bootTake s))

/-- TAG of an entry that has none is a free value (notes/assumptions/5.md). -/
def freeTag (s : State) : Nat := leNat (freeBytes s.free 2)

/-- The boot request of the entry held is PAIRED (R96). -/
def bootPaired (b : Boot) : Bool := flPaired (b.slot.drop 32) && decide (0 < eNops (b.slot.drop 32))

/-- The boot request of the entry held; its flags act as those of any request (R475). -/
def bootReq (s : State) (cs : Nat) : Req :=
  { id := s.sch.nextId
    tenant := 0
    origin := .boot s.boot.head
    cls := 1
    gen := s.gen.active
    place := .boot
    cs := cs
    entry := s.boot.slot.drop 32
    paired := bootPaired s.boot }

/-- An entry is held and the boot ring may accept it. -/
def bootAdmits (s : State) : Bool := admitting s && decide (s.boot.st = .polling) && decide (s.boot.slot ≠ [])

/-- BOOT_REQUEST (R474, R475): also the answer to an entry of an unknown kind or with a reserved field set. -/
def fxBootRequest (s : State) : State :=
  whenS (bootAdmits s && decide (s.boot.inflight.toNat < 4) && decide (bootKind s.boot.slot ≠ 2 ∨ bootClean s.boot.slot = false)) (fun s =>
    if bootKind s.boot.slot ≠ 1 then bootAnswer (freeTag s) stUnsupported 2 0 (nextFree s)
    else if !bootClean s.boot.slot then bootAnswer (eTag (s.boot.slot.drop 32)) stUnsupported 2 0 s
    else
      match freeCs s 1 with
      | none => s
      | some cs =>
        if bootPaired s.boot && !pairFits s (s.boot.slot.drop 32) then s
        else modSch (fun c => { c with nextId := c.nextId + 1 }) (modReqs (· ++ [bootReq s cs]) (bootTake s))) s
def execBootRequest (s : State) : Host.Outcome State Fault Refusal := .next (fxBootRequest s)

/-- BOOT_EXTEND (R245, R476): after every earlier entry; M0 is extended while the claim window is open. -/
def fxBootExtend (resp : Resp) (s : State) : State :=
  let x := leAt s.boot.slot 8 6
  whenS (bootAdmits s && decide (bootKind s.boot.slot = 2) && bootClean s.boot.slot && decide (s.boot.inflight = 0) && (freeCs s 1).isSome) (fun s =>
    let t := freeTag s
    let s0 := nextFree s
    if s.owner.st ≠ .claimOpen then bootAnswer t stUnsupported 0x91 0 s0
    else
      match check s s.gen.act none .secure .read x 48 with
      | some p => bootAnswer t stAccess 1 0 (bootViol p s0)
      | none =>
        let s1 := emitRd x 48 s0
        match resp with
        | .err => bootAnswer t stBus 1 0 (busErrorOf none x .read (b2n (portOf x)) kindBoot 0 0 (s.gen.active.toNat % 65536) s1)
        | .ok data =>
          if extendRefused s 0 then bootAnswer t stDone 0 48 (ksEvent 0 false 3 (ksErr erLocked s1))
          else bootAnswer t stDone 0 48 (extendOrDefer 0 (fit 48 data) s1)) s
def execBootExtend (resp : Resp) (s : State) : Host.Outcome State Fault Refusal := .next (fxBootExtend resp s)

/-- AH_OWN_BOOT.EN = 0 (R472); the ring does not start again. -/
def bootOff (s : State) : State :=
  let s1 := modOwn (fun o => { o with boot := 0 }) s
  if s.boot.st = .polling then bootSettle (modBoot (fun b => { b with st := .draining, slot := [] }) s1) else s1
def fxBootEnClear (who : Who) (s : State) : State := gateW who .ownBoot 0 bootOff s
def execBootEnClear (who : Who) (s : State) : Host.Outcome State Fault Refusal := .next (fxBootEnClear who s)

end Sys2Proof.Machine
end

