-- ==== Sys2Proof/Machine/RegRead.lean ====
section
/-!
DEFINITION. What every register of the window reads as (R14, R481 to R506), the latches of wide captures (R348, R490, R501), and the
commands STAT_TIME_LOW_READ, CAPTURE_READ_LATCH and DEBUG_READ.
-/

namespace Sys2Proof.Machine

/-- A word from its fields: lsb, width, value. -/
def packed (fs : List (Nat × Nat × Nat)) : Word := fs.foldl (fun w f => w ||| put f.1 (f.2.2 % 2 ^ f.2.1)) 0

/-- The little-endian word number `i` of a byte string; zero beyond its end. -/
def wordOf (b : Bytes) (i : Nat) : Word := BitVec.ofNat 64 (leAt b (8 * i) 8)

/-- A mask with bit i set where `f i`. -/
def bitsWhere (n : Nat) (f : Nat → Bool) : Nat := ((List.range n).map (fun i => if f i then 2 ^ i else 0)).sum

/-! ### Captures (R373, R374, R432, R501) -/

/-- The two words of a violation capture. -/
def violWord (c : Capture) (i : Nat) : Word :=
  if i = 0 then
    packed [(0, 48, c.addr.toNat), (48, 1, dirBit c.dir), (49, 4, c.cause.toNat), (53, 3, c.kind.toNat), (63, 1, b2n c.valid)]
  else packed [(0, 6, c.number.toNat), (16, 16, c.tag.toNat), (32, 16, c.gen.toNat)]

/-- The two words of a bus error capture. -/
def buserrWord (c : Capture) (i : Nat) : Word :=
  if i = 0 then
    packed [(0, 48, c.addr.toNat), (48, 1, dirBit c.dir), (49, 2, c.port.toNat), (52, 4, c.kind.toNat), (63, 1, b2n c.valid)]
  else packed [(0, 6, c.number.toNat), (16, 16, c.tag.toNat)]

/-! ### Owner control page (R484 to R489) -/

def genCode : GenSt → Nat
  | .idle => 0
  | .loading => 1
  | .fence => 2

/-- The eight course counters in the order of R463. -/
def CrsCnt.nth (c : CrsCnt) (i : Nat) : Word :=
  [c.fwdOut, c.fwdBack, c.fwdRecall, c.fwdOpen, c.fwdIn, c.fwdRet, c.fwdDrop, c.fwdRun].getD i 0

def readOwn (s : State) : Reg → Word
  | .ownCtl => s.own.ctl
  | .ownTrst => packed [(0, 16, bitsWhere 16 (fun n => (s.ten n).inReset))]
  | .ownGate => s.own.gate
  | .ownBoot => s.own.boot
  | .ownDbg => packed [(0, 1, b2n s.dbgEn)]
  | .ownDbgUnlock => packed [(0, 3, bitsWhere 3 s.unlock)]
  | .ownFpCtl => s.own.fpCtl
  | .ownClkmon => s.own.clkmon ||| packed [(4, 1, b2n s.clk.tile.release), (5, 1, b2n s.clk.aux.release)]
  | .ownLimCtl => s.own.limCtl
  | .ownLimTile => s.own.limTile
  | .ownLimAux => s.own.limAux
  | .ownTimeInc => s.own.timeInc
  | .ownTimeCtl => s.own.timeCtl
  | .ownTimeAdj => s.own.timeAdj
  | .ownTimeSyncofs => s.own.syncofs
  | .ownTcmpTgt j => (s.tcmp j.val).tgt
  | .ownTcmpPer j => (s.tcmp j.val).per
  | .ownTcmpCtl j => (s.tcmp j.val).ctl
  | .ownGenCtl => s.own.genCtl
  | .ownGenStat => packed [(0, 2, genCode s.gen.st), (4, 4, s.gen.err.toNat), (16, 9, min 511 (pinned s))]
  | .ownGenImgBase => s.own.imgBase
  | .ownGenImgLen => s.own.imgLen
  | .ownGenDigest i =>
    if i.val < 6 then wordOf s.gen.digAct i.val else if s.gen.previous = 0 then 0 else wordOf s.gen.digPrev (i.val - 6)
  | .ownEvEn => s.own.evEn
  | .ownEvNmi => s.own.evNmi
  | .ownJrnCfg => s.own.jrnCfg
  | .ownJrnNotice => s.own.notice
  | .ownJrnNbase => s.own.nbase
  | .ownJrnNcfg => s.own.ncfg
  | .ownJrnNhead => packed [(0, 13, s.jrn.nhead), (32, 13, s.jrn.ntail)]
  | .ownTileRejoin => packed [(0, 24, bitsWhere 24 (fun t => decide ((s.tile t).st = .testing)))]
  | .ownCsRejoin => packed [(0, 12, bitsWhere 12 (fun c => decide (s.csSt c = .testing)))]
  | .ownGrout => s.own.grout
  | .crsCnt i => s.crs.cnt.nth i.val
  | .crsSnap i => s.crs.snap.nth i.val
  | _ => 0

/-! ### Status and event page (R490) -/

def ownerCode : OwnerSt → Nat
  | .starting => 0
  | .claimOpen => 1
  | .owned => 2
  | .offered => 3

/-- STATE of a tile: what ended its service governs what gates it (DEDUCED, notes/assumptions/21.md). -/
def tileCode (s : State) (t : Nat) : Nat :=
  match (s.tile t).st with
  | .quarantined => 1
  | .testing => 2
  | .retired => 3
  | .fenced => 6
  | .healthy => if s.clk.gated.toNat.testBit t then 4 else if s.clk.pending.toNat.testBit t then 5 else 0

def csCode : CsSt → Nat
  | .healthy => 0
  | .failed => 1
  | .testing => 2

def bootCode : BootSt → Nat
  | .off => 0
  | .nofuse => 1
  | .polling => 2
  | .draining => 3

/-- The reservation holds RESV tiles, and each has joined it: no operation of another class is on it (R356). -/
def resvReady (s : State) : Bool :=
  decide ((reservedTiles s).length = s.resv)
    && (reservedTiles s).all (fun t => ((s.tile t).run.toList ++ (s.tile t).saved).all (fun p => decide (clsOf s p.1 = 0)))

def unitGated (s : State) (i : Nat) : Bool := s.clk.gated.toNat.testBit i

def readStat (s : State) : Reg → Word
  | .statId => packed [(0, 32, romVer), (32, 8, blockStep)]
  | .statStrap => packed [(0, 16, s.start.strap.toNat)]
  | .statReset => packed [(0, 2, s.start.cause.toNat)]
  | .statStart => packed [(0, 4, s.start.phase.toNat), (8, 7, s.start.fail.toNat)]
  | .statOwner =>
    packed [(0, 8, s.owner.mid.toNat), (8, 2, s.owner.cause.toNat), (10, 3, ownerCode s.owner.st), (16, 8, s.owner.leadMid.toNat),
      (24, 8, s.owner.leadPrio.toNat), (32, 8, s.owner.offer.toNat)]
  | .statDenied => s.denied.word
  | .statGen => packed [(0, 32, s.gen.active.toNat), (32, 32, s.gen.previous.toNat)]
  | .statGate => packed [(0, 26, s.clk.pending.toNat), (32, 26, s.clk.gated.toNat)]
  | .statSched => packed [(0, 1, b2n (resvReady s)), (1, 1, b2n s.sch.budgetClamped)]
  | .statClkmon =>
    packed [(0, 14, s.clk.ctl.count.toNat), (16, 14, s.clk.tile.count.toNat), (32, 14, s.clk.aux.count.toNat),
      (48, 1, b2n (inBand s .ctl)), (49, 1, b2n (inBand s .tile)), (50, 1, b2n (inBand s .aux)), (56, 8, s.clk.cause.toNat)]
  | .statFp => if unitGated s 25 then 0 else packed [(0, 13, fpOnLoan s)]
  | .statEvPend => s.evPend
  | .statSupply i =>
    if i.val = 0 then packed [(0, 1, b2n s.sup.active), (1, 3, s.sup.sat.toNat), (32, 32, s.sup.warns.toNat)]
    else packed [(0, 32, s.sup.reruns.toNat), (32, 32, s.sup.events.toNat)]
  | .statJrn i =>
    if i.val = 0 then packed [(0, 13, s.jrn.level), (16, 2, s.jrn.sat.toNat), (32, 32, s.jrn.lost.toNat)]
    else packed [(0, 32, s.jrn.nlost.toNat)]
  | .statCourse i =>
    if i.val = 0 then
      packed [(0, 2, s.crs.role.toNat), (2, 2, s.crs.master.toNat), (4, 4, bitsWhere 4 (fun p => (s.peer p).formed)),
        (8, 4, bitsWhere 4 (fun p => (s.peer p).silent)), (12, 2, s.crs.laneUp.toNat), (16, 3, s.crs.peerCause.toNat),
        (20, 2, s.crs.peerPos.toNat), (24, 1, b2n s.crs.bad.sat), (32, 32, s.crs.bad.n.toNat)]
    else packed ((List.range 4).map (fun p => (8 * p, 7, (s.peer p).credits)))
  | .statBuserr i =>
    if i.val = 0 then buserrWord s.buserr 0 ||| packed [(56, 1, b2n s.becnt.sat)]
    else buserrWord s.buserr 1 ||| packed [(32, 32, s.becnt.n.toNat)]
  | .statTime i => if i.val = 0 then s.time.ns else packed [(0, 1, b2n s.time.captDone)]
  | .statTimeFrac => packed [(0, 32, s.time.frac.toNat)]
  | .statTimeTsu i => if i.val = 0 then s.time.tsuNs else packed [(0, 32, s.time.tsuFrac.toNat)]
  | .statTimeCapt i => if i.val = 0 then s.time.captNs else packed [(0, 32, s.time.captFrac.toNat)]
  | .statTrig i => s.time.trig.look 0 i.val
  | .statTcmpLost j => (s.time.tlost.look {} j.val).word
  | .statTile i =>
    packed ((List.range 8).flatMap (fun b =>
      let t := 8 * i.val + b
      [(8 * b, 3, tileCode s t), (8 * b + 3, 3, (s.tile t).qcause.toNat), (8 * b + 6, 2, (s.tile t).qcount.toNat)]))
  | .statCs => packed ((List.range 12).map (fun c => (2 * c, 2, csCode (s.csSt c))))
  | .statGrout t =>
    if unitGated s t.val then 0
    else
      let u := s.tile t.val
      packed [(0, 32, u.rounds.toNat), (32, 16, u.forced.toNat), (48, 1, b2n u.gsat)]
  | .statCe c => (s.ces.look {} c.val).word
  | .statBoot i =>
    match i.val with
    | 0 => packed [(0, 2, bootCode s.boot.st), (16, 9, s.boot.head)]
    | 1 => s.boot.admitted
    | 2 => s.boot.completed
    | _ => s.boot.inflight
  | _ => 0

/-! ### Key store and lifecycle page (R491) -/

def esCode : EsSt → Nat
  | .starting => 0
  | .healthy => 1
  | .recovering => 2
  | .failed => 3

def rbgCode : RbgSt → Nat
  | .uninit => 0
  | .healthy => 1
  | .starved => 2
  | .failed => 3

/-- The active bank that the R registers show: none of an EMPTY or CORRUPT slot. -/
def shownBank (s : State) : Option Bank :=
  let v := s.slot (ksSel s)
  if v.hasCur && !v.corrupt then some v.act else none

/-- The identity value that AH_KS_ID_SEL selects, while READY is 1 (R291). -/
def idValue (s : State) : Bytes :=
  if !s.ident.ready then []
  else match fld s.own.idSel 2 0 with
    | 0 => s.ident.cPub
    | 1 => s.ident.qPub
    | 2 => s.ident.ueid
    | 3 => s.ident.kidC
    | 4 => s.ident.kidQ
    | _ => []

def readKs (s : State) : Reg → Word
  | .ksLcs => packed [(0, 3, s.roots.lc.toNat), (8, 1, b2n s.roots.udsOk), (9, 1, b2n s.roots.lbsOk)]
  | .ksSel => s.own.ksSel
  | .ksStat i =>
    let v := s.slot (ksSel s)
    if i.val = 0 then
      packed [(0, 3, v.code), (3, 1, b2n s.ks.busy), (4, 4, s.ks.err.toNat), (8, 11, s.ks.openSlot), (19, 1, b2n s.ks.isOpen),
        (20, 1, b2n (decide (s.ks.deferred ≠ []))), (32, 9, if v.draining then boundCount s (ksSel s) (!v.cur) else 0)]
    else s.ks.ce.word
  | .ksWkcvEn => s.own.wkcvEn
  | .ksRdata i =>
    match shownBank s with
    | some b => if isPublicClass (aClass b.attr) then wordOf b.material i.val else 0
    | none => 0
  | .ksRattr i =>
    match shownBank s with
    | some b => wordOf b.attr i.val
    | none => 0
  | .ksRnext =>
    match shownBank s with
    | some b => b.next
    | none => 0
  | .ksRsoft =>
    match shownBank s with
    | some b => b.soft
    | none => 0
  | .ksMeasSel => s.own.measSel
  | .ksMeasLock => packed [(0, 8, s.meas.lock.toNat)]
  | .ksMeasCnt i => packed [(0, 32, (measCnt s (2 * i.val)).toNat), (32, 32, (measCnt s (2 * i.val + 1)).toNat)]
  | .ksMeasVal i => wordOf (measVal s (i.val / 6)) (i.val % 6)
  | .ksIdStat => packed [(0, 1, b2n s.ident.ready), (1, 1, b2n s.ident.noid)]
  | .ksIdSel => s.own.idSel
  | .ksIdData i => wordOf (idValue s) i.val
  | .esCtl => packed [(0, 1, b2n (s.openLife && bitOf s.own.esCtl 0))]
  | .esStat i =>
    if i.val = 0 then
      packed [(0, 2, esCode s.es.st), (8, 4, s.es.pool.length), (16, 1, b2n s.es.rctFails.sat), (17, 1, b2n s.es.aptFails.sat),
        (32, 32, s.es.rctFails.n.toNat)]
    else packed [(0, 32, s.es.aptFails.n.toNat)]
  | .rbgStat => packed ((List.range 4).map (fun k => (4 * k, 2, rbgCode (s.rbg k).st)))
  | _ => 0

/-! ### Tenant, doorbell, channel and access table pages (R492, R497 to R505) -/

/-- The six ledger counters in their order (R501). -/
def Ledger.nth (l : Ledger) (i : Nat) : Word :=
  [l.posted, l.clamped, l.admitted, l.completed, l.flushed, l.inflight].getD i 0
def FpCnt.nth (c : FpCnt) (i : Nat) : Word := [c.borrowed, c.returned, c.onloan].getD i 0

/-- The set-up page of a tenant; its ledger reads zero while it is disabled (R41). -/
def readTenant (s : State) : Reg → Word
  | .tnCtl n => packed [(0, 1, b2n (s.ten n.val).inReset)]
  | .tnStat n =>
    packed [(0, 1, b2n (s.ten n.val).inReset), (1, 1, b2n (s.ten n.val).rstWait),
      (16, 16, bitsWhere 16 (fun m => !classAllowedIn s s.gen.act n (s.sq n.val m).cls))]
  | .tnRsvStat n => packed [(0, 7, rsvUsed s n.val)]
  | .tnEvCause n => packed [(0, 23, (s.ten n.val).evCause.toNat)]
  | .tnEvPend n => packed [(0, 12, (s.ten n.val).evPend.toNat)]
  | .tnEvEn n => packed [(0, 12, (s.ten n.val).evEn.toNat)]
  | .tnLedger n i => if s.enabled n.val then (s.ten n.val).led.nth i.val else 0
  | .tnLedgerStat n => packed [(0, 1, b2n (s.ten n.val).ledInvalid)]
  | .tnSnap n i =>
    let t := s.ten n.val
    if !s.enabled n.val then 0
    else if i.val < 6 then t.snap.nth i.val
    else if i.val = 6 then t.snapQueued else t.snapTime
  | .tnFpCnt n i => (s.ten n.val).fp.nth i.val
  | .tnFpStat n => packed [(0, 1, b2n (s.ten n.val).fpInvalid)]
  | .tnFpSnap n i => (s.ten n.val).fpSnap.nth i.val
  | .tnViol n i => violWord (s.ten n.val).viol i.val
  | .tnVcnt n => (s.ten n.val).vcnt.word
  | .tnBuserr n i => buserrWord (s.ten n.val).buserr i.val
  | .tnBecnt n => (s.ten n.val).becnt.word
  | _ => 0

/-- The word of a ring's fault capture (R498, R500). -/
def ringFaultWord (f : RingFault) (pref : Bool) : Word :=
  packed [(0, 48, f.addr.toNat), (48, 2, f.kind.toNat), (50, 4, f.cause.toNat), (54, 1, b2n (pref && f.pref))]

def readRing (s : State) : Reg → Word
  | .sqBase n m => (s.sq n.val m.val).base
  | .sqCfg n m => (s.sq n.val m.val).cfg
  | .sqCtl n m =>
    let q := s.sq n.val m.val
    packed [(0, 1, b2n q.en), (1, 1, b2n q.pause), (2, 1, b2n q.invalBusy)]
  | .sqStat n m =>
    let q := s.sq n.val m.val
    packed [(0, 1, b2n q.clamp), (1, 1, b2n q.surplus), (2, 1, b2n q.fault), (3, 1, b2n q.paused), (4, 1, b2n q.invalBusy)]
  | .sqPend n m => (s.sq n.val m.val).queued
  | .sqFault n m => ringFaultWord (s.sq n.val m.val).fcap true
  | .sqSched n m => (s.sq n.val m.val).sched
  | .sqSstat n m =>
    let q := s.sq n.val m.val
    packed [(0, 4, q.pulses.length), (8, 5, if s.resv = 0 then 0 else q.rcred), (16, 16, if s.resv = 0 then 0 else q.ccred),
      (32, 1, b2n q.overdue)]
  | .sqPlost n m => (s.sq n.val m.val).plost.word
  | .sqLate n m => (s.sq n.val m.val).late.word
  | .cqBase n m => (s.cq n.val m.val).base
  | .cqCfg n m => (s.cq n.val m.val).cfg
  | .cqCtl n m => packed [(0, 1, b2n (s.cq n.val m.val).en)]
  | .cqStat n m =>
    let c := s.cq n.val m.val
    packed [(0, 17, c.tail), (24, 1, b2n c.hclamp), (25, 1, b2n c.stall), (26, 1, b2n c.fault), (32, 17, resvOf s n.val m.val)]
  | .cqFault n m => ringFaultWord (s.cq n.val m.val).fcap false
  | .dbSq n m => packed [(0, 17, (s.sq n.val m.val).tail), (32, 17, (s.sq n.val m.val).head)]
  | .dbCq n m => packed [(0, 17, (s.cq n.val m.val).head)]
  | _ => 0

def chanCode : ChanSt → Nat
  | .idle => 0
  | .running => 1
  | .waiting => 2
  | .paused => 3
  | .stopped => 4

def readChan (s : State) : Reg → Word
  | .dcCtl k => packed [(1, 1, b2n (s.dc k.val).pause)]
  | .dcStat k =>
    let c := s.dc k.val
    packed [(0, 3, chanCode c.st), (3, 1, b2n (decide (c.st = .paused))), (4, 1, b2n c.fault), (5, 1, b2n c.postdrop),
      (6, 1, b2n c.rstall), (8, 4, c.credit)]
  | .dcCfg k => (s.dc k.val).cfg
  | .dcDbase k => (s.dc k.val).dbase
  | .dcDcount k => (s.dc k.val).dcount
  | .dcFirst k => (s.dc k.val).first
  | .dcPost k => (s.dc k.val).post
  | .dcPos k i =>
    let c := s.dc k.val
    if i.val = 0 then packed [(0, 16, c.desc), (16, 16, c.i0), (32, 16, c.i1), (48, 16, c.i2)] else packed [(0, 6, c.n0use)]
  | .dcLost k => (s.dc k.val).lost.word
  | .dcFault k i =>
    let f := (s.dc k.val).cap
    if i.val = 0 then packed [(0, 48, f.addr.toNat), (48, 1, dirBit f.dir), (49, 4, f.cause.toNat)]
    else packed [(0, 8, f.status.toNat), (8, 8, f.detail.toNat)]
  | .dcRecBase k => (s.dc k.val).recBase
  | .dcRecCfg k => (s.dc k.val).recCfg
  | .dcRecHead k => packed [(0, 11, (s.dc k.val).recHead), (32, 11, (s.dc k.val).recTail)]
  | .dcTregA k r => if (s.dc k.val).st = .running then 0 else packed [(0, 48, ((s.dc k.val).aregs.look 0 r.val).toNat)]
  | .dcTregC k r => if (s.dc k.val).st = .running then 0 else packed [(0, 32, ((s.dc k.val).cregs.look 0 r.val).toNat)]
  | .dcGfault k =>
    match assignTen s s.gen.act k with
    | some n =>
      (match (s.ten n.val).gfault with
        | some a => packed [(0, 48, a.toNat), (63, 1, 1)]
        | none => 0)
    | none => 0
  | _ => 0

/-! ### A whole register word -/

/-- The access sees what the owner sees: the owner itself, a debug access with its rights, one that AH_OWN_DBG_UNLOCK opens
(R377, R380, R482). -/
def ownerView (s : State) (who : Who) (r : Reg) : Bool :=
  s.isOwner who || debugOpens s who r || (who.dbg && decide (r.cls = .ks))

/-- The value of a register word. -/
def readWord (s : State) (who : Who) (r : Reg) : Word :=
  if r.staged then s.shown (if bitOf s.own.genCtl 0 && ownerView s who r then s.gen.shadow else s.gen.act) r
  else match r.cls with
    | .oc | .ox => readOwn s r
    | .st => readStat s r
    | .ks => readKs s r
    | .acc =>
      (match r with
        | .accPviol i => violWord s.pviol i.val
        | .accPvcnt => s.pvcnt.word
        | _ => 0)
    | .ts _ => readTenant s r ||| readRing s r
    | .td _ => readRing s r
    | .dc _ => readChan s r
    | .jr => 0

/-! ### Latches -/

/-- The offset of one half of a register word. -/
def halfOff (r : Reg) (hi : Bool) : Nat := r.off + (if hi then 4 else 0)

/-- The 32 bits of one half. -/
def halfOf (w : Word) (hi : Bool) : Word := if hi then w >>> 32 else w &&& 0xFFFFFFFF

/-- The halves that a read of half `hi` of a word latches for the master's next reads: `whole`, in one 64-bit piece (R348, R490,
R501). -/
def latches (whole hi : Bool) : Reg → List (Reg × Bool)
  | .statTime i => if i.val = 0 ∧ whole = false ∧ hi = false then [(.statTime 0, true), (.statTimeFrac, false)] else []
  | .tnViol n i =>
    if i.val = 0 then (if whole || hi then [] else [(.tnViol n 0, true)]) ++ [(.tnViol n 1, false), (.tnViol n 1, true)] else []
  | .tnBuserr n i =>
    if i.val = 0 then (if whole || hi then [] else [(.tnBuserr n 0, true)]) ++ [(.tnBuserr n 1, false), (.tnBuserr n 1, true)] else []
  | .statBoot i =>
    if i.val = 1 then [(.statBoot 2, false), (.statBoot 2, true), (.statBoot 3, false), (.statBoot 3, true)] else []
  | _ => []

/-- The latch waits for a read of that offset by that master (R2, R348). -/
def isLatch (who : Who) (off : Nat) (l : Latch) : Bool := l.who.isMaster who && decide (l.off = off)
def latched (s : State) (who : Who) (off : Nat) : Option Latch := s.latch.find? (isLatch who off)
def dropLatch (who : Who) (off : Nat) (s : State) : State := modLatch (·.filter (fun l => !isLatch who off l)) s
def setLatch (who : Who) (off : Nat) (v : Word) (s : State) : State :=
  modLatch (· ++ [⟨who, off, v⟩]) (dropLatch who off s)

/-- One half of a register word as a master reads it: a latched value goes to this read. -/
def readHalf (who : Who) (r : Reg) (hi : Bool) (s : State) : Word × State :=
  match latched s who (halfOff r hi) with
  | some l => (l.value, dropLatch who (halfOff r hi) s)
  | none => (halfOf (readWord s who r) hi, s)

/-- What a read latches, from the same cycle; a half that is answered from a latch latches nothing. -/
def setLatches (who : Who) (r : Reg) (whole hi : Bool) (s : State) : State :=
  if (latched s who (halfOff r hi)).isSome && !whole then s
  else (latches whole hi r).foldl (fun t p => setLatch who (halfOff p.1 p.2) (halfOf (readWord s who p.1) p.2) t) s

/-- The read of a register word in one 64-bit or 32-bit piece: the value, and the state after it. A 64-bit read of the time count takes it in
one control cycle, whatever half of it is latched (R348). -/
def readReg (who : Who) (r : Reg) (whole hi : Bool) (s : State) : Word × State :=
  let s1 := setLatches who r whole hi s
  if whole && decide (r = .statTime 0) then (readWord s1 who r, s1)
  else if whole then
    let lo := readHalf who r false s1
    let up := readHalf who r true lo.2
    (lo.1 ||| up.1 <<< 32, up.2)
  else readHalf who r hi s1

/-- The page of an offset without a register is locked to a debug access: the bit of AH_OWN_DBG_UNLOCK that opens it, if one does (R376, R377). -/
def lockedPage (off : Nat) : Option (Option Nat) :=
  if 0x020000 ≤ off ∧ off < 0x030000 then some none
  else if 0x030000 ≤ off ∧ off < 0x040000 then some (some 1)
  else if 0x300000 ≤ off ∧ off < 0x310000 then some (some 2)
  else none

/-- A read that returns zero for its size, its alignment or its offset (R14); a locked debug access leaves its record all the same (R376). -/
def zeroRead (who : Who) (off : Nat) (s : State) : State :=
  emit (.cfgRd who 0) (match regAt (off / 8 * 8), lockedPage off with
    | some r, _ => debugRead who r off s
    | none, some bit =>
      if s.start.serving && who.dbg && !s.dbgEn then debugRecord who off .read ((bit.map s.unlock).getD false) s else s
    | none, none => s)

/-- A naturally aligned read of 32 or 64 bits; AH_ES_RAW removes what it returns (R14, R491). -/
def readAligned (who : Who) (whole : Bool) (off : Nat) (done : Word → Word) (s : State) : State :=
  let hi := decide (off % 8 = 4)
  match regAt (off / 8 * 8) with
  | none => zeroRead who off s
  | some r =>
    let s1 := debugRead who r off s
    if !readable s who r then emit (.cfgRd who 0) s1
    else if r = .esRaw ∧ hi = false then rawRead who done s1
    else
      let x := readReg who r whole hi s1
      emit (.cfgRd who (done x.1)) x.2

/-- A read of the register target port (R14, R506). -/
def readPort (who : Who) (size : AccSize) (off : Nat) (s : State) : State :=
  let part (bytes : Nat) : State :=
    if 0x300000 ≤ off ∧ off < 0x310000 then zeroRead who off s
    else readAligned who false (off / 4 * 4) (fun w => (w >>> (8 * (off % 4))) &&& BitVec.ofNat 64 (256 ^ bytes - 1)) s
  match size with
  | .b8 => part 1
  | .b16 => part 2
  | .b32 =>
    if off % 4 ≠ 0 then zeroRead who off s
    else if off = 0x300000 then fxJournalRead who .b32 .clean s
    else if off = 0x300004 then zeroRead who off s
    else readAligned who false off id s
  | .b64 =>
    if off % 8 ≠ 0 then zeroRead who off s
    else if off = 0x300000 then fxJournalRead who .b64 .clean s
    else readAligned who true off id s

/-! ### Commands -/

/-- STAT_TIME_LOW_READ (R348). -/
def fxStatTimeLowRead (who : Who) (s : State) : State := readPort who .b32 (Reg.statTime 0).off s
def execStatTimeLowRead (who : Who) (s : State) : Host.Outcome State Fault Refusal := .next (fxStatTimeLowRead who s)

/-- The word at an offset latches others when it is read. -/
def isLatching (off : Nat) : Bool :=
  match regAt off with
  | some (.tnViol _ i) => decide (i.val = 0)
  | some (.tnBuserr _ i) => decide (i.val = 0)
  | some (.statBoot i) => decide (i.val = 1)
  | _ => false

/-- CAPTURE_READ_LATCH (R490, R501): a 64-bit read of the word at +0x00. -/
def fxCaptureReadLatch (who : Who) (off : BitVec 22) (s : State) : State :=
  whenS (isLatching off.toNat) (readPort who .b64 off.toNat) s
def execCaptureReadLatch (who : Who) (off : BitVec 22) (s : State) : Host.Outcome State Fault Refusal := .next (fxCaptureReadLatch who off s)

/-- DEBUG_READ (R376, R377): the read of any register, as a debug access makes it. The same operation is the read of any other master
(notes/assumptions/19.md). -/
def fxDebugRead (who : Who) (size : AccSize) (off : BitVec 22) (s : State) : State := readPort who size off.toNat s
def execDebugRead (who : Who) (size : AccSize) (off : BitVec 22) (s : State) : Host.Outcome State Fault Refusal := .next (fxDebugRead who size off s)

end Sys2Proof.Machine
end

