-- ==== Sys2Proof/Machine/RegWrite.lean ====
section
/-!
DEFINITION. What a write does to every register of the window (R7, R8, R14, R37, R380, R481 to R506), with the commands REGISTER_WRITE,
JOURNAL_FLUSH, NOTICE_HEAD_WRITE and NOTICE_RING_SETUP.
-/

namespace Sys2Proof.Machine

/-! ### Registers that keep what is written -/

/-- A write to a register of the owner and key store pages that only keeps its fields. -/
def keepOwn (r : Reg) (mask val : Word) (s : State) : State :=
  match r with
  | .ownCtl => modOwn (fun o => { o with ctl := r.write o.ctl mask val }) s
  | .ownDbg => modOwn (fun o => { o with dbg := r.write o.dbg mask val }) s
  | .ownDbgUnlock => modOwn (fun o => { o with dbgUnlock := r.write o.dbgUnlock mask val }) s
  | .ownFpCtl => modOwn (fun o => { o with fpCtl := r.write o.fpCtl mask val }) s
  | .ownLimCtl => modOwn (fun o => { o with limCtl := r.write o.limCtl mask val }) s
  | .ownLimTile => modOwn (fun o => { o with limTile := r.write o.limTile mask val }) s
  | .ownLimAux => modOwn (fun o => { o with limAux := r.write o.limAux mask val }) s
  | .ownTimeInc => modOwn (fun o => { o with timeInc := r.write o.timeInc mask val }) s
  | .ownTimeAdj => modOwn (fun o => { o with timeAdj := r.write o.timeAdj mask val }) s
  | .ownTimeSyncofs => modOwn (fun o => { o with syncofs := r.write o.syncofs mask val }) s
  | .ownTcmpTgt j => modTcmp j.val (fun c => { c with tgt := r.write c.tgt mask val }) s
  | .ownTcmpPer j => modTcmp j.val (fun c => { c with per := r.write c.per mask val }) s
  | .ownTcmpCtl j => modTcmp j.val (fun c => { c with ctl := r.write c.ctl mask val }) s
  | .ownGenCtl => modOwn (fun o => { o with genCtl := r.write o.genCtl mask val }) s
  | .ownGenImgBase => modOwn (fun o => { o with imgBase := r.write o.imgBase mask val }) s
  | .ownGenImgLen => modOwn (fun o => { o with imgLen := r.write o.imgLen mask val }) s
  | .ownEvEn => modOwn (fun o => { o with evEn := r.write o.evEn mask val }) s
  | .ownEvNmi => modOwn (fun o => { o with evNmi := r.write o.evNmi mask val }) s
  | .ownJrnCfg => modOwn (fun o => { o with jrnCfg := r.write o.jrnCfg mask val }) s
  | .ownJrnNotice => modNotice (fun v => r.write v mask val) s
  | .ownGrout => modOwn (fun o => { o with grout := r.write o.grout mask val }) s
  | .ksSel => modOwn (fun o => { o with ksSel := r.write o.ksSel mask val }) s
  | .ksMeasSel => modOwn (fun o => { o with measSel := r.write o.measSel mask val }) s
  | .ksIdSel => modOwn (fun o => { o with idSel := r.write o.idSel mask val }) s
  | _ => s

/-! ### Staged registers (R380, R382) -/

/-- A write to a staged register goes to its shadow, and is dropped while a LOAD or a fence runs. -/
def stageWrite (who : Who) (r : Reg) (mask val : Word) (s : State) : State :=
  if s.gen.st ≠ .idle then dropPiece who r mask val s
  else modGen (fun g => { g with shadow := s.setWord g.shadow r (r.write (s.word g.shadow r) mask val) }) s

/-! ### Owner control page -/

/-- The written bits of a W1S or W1C field, from bit `lsb` up. -/
def ones (w : Word) (lsb : Nat) : Nat → Bool := fun i => bitOf w (lsb + i)

/-- AH_OWN_TIME_CTL (R349 to R351): the arms, RUN, and last the step, which comes in the next control cycle. -/
def timeCtlWrite (mask val : Word) (s : State) : State :=
  if mask &&& 0xF = 0 then s
  else
    let s1 := if bitOf val 1 then armCapt s else s
    let s2 := if bitOf val 2 then armSync s1 else s1
    let s3 := setRun (bitOf val 0) s2
    if bitOf val 3 then adjust s3 else s3

/-- Every unit of AH_OWN_GATE. -/
def gateUnits : List GateUnit := (List.finRange 24).map .tile ++ [.dcu, .fp]

/-- AH_OWN_GATE (R394, R397): each bit of its own; a bit whose clearing is dropped keeps its unit gated. -/
def gateBits (who : Who) (mask val : Word) (s : State) : State :=
  if mask &&& 0x3FFFFFF = 0 then s
  else
    let bad := gateUnits.any (fun u => !bitOf val (gateIx u) && !ungateMay s u)
    let s1 := gateUnits.foldl (fun t u =>
      if bitOf val (gateIx u) then gateStart u t else if bitOf s.own.gate (gateIx u) && ungateMay s u then gateEnd u t else t) s
    if bad then dropPiece who .ownGate mask val s1 else s1

/-- AH_OWN_CLKMON (R399, R403, R404): RESP; an EN bit is cleared only while every unit of its clock is gated; a release is taken only in
band. What is dropped leaves one record. -/
def clkmonWrite (who : Who) (mask val : Word) (s : State) : State :=
  if mask &&& 0x37 = 0 then s
  else
    let off (k : ClkName) : Bool := !bitOf val (clkIx k)
    let idle (k : ClkName) : Bool := (clkTiles k).all (unitGated s)
    let rel (k : ClkName) : Bool := bitOf val (3 + clkIx k)
    let bad := [ClkName.tile, ClkName.aux].any (fun k => (off k && !idle k) || (rel k && !inBand s k))
    let one (k : ClkName) (t : State) : State :=
      let t1 := if off k && !idle k then t else clkmonEn who k (!off k) t
      if rel k && inBand s k then clkmonRelease who k t1 else t1
    let s1 := one .aux (one .tile (modOwn (fun o => { o with clkmon := setFld o.clkmon 0 0 (b2n (bitOf val 0)) }) s))
    if bad then dropPiece who .ownClkmon mask val s1 else s1

/-- AH_OWN_GEN_CMD (R486); other values are ignored. -/
def genCommand (cmd : Nat) (s : State) : State :=
  match cmd with
  | 1 => whenIdle genLoad s
  | 2 => whenIdle genCommit s
  | 3 => genCancel s
  | 4 => whenIdle genRollback s
  | 5 => whenIdle genDiscard s
  | _ => s

/-- AH_OWN_COURSE_CMD (R488). -/
def courseCommand (cmd : Nat) (s : State) : State :=
  match cmd with
  | 1 => courseAccept s
  | 2 => abandon 1 s
  | 3 => courseReform s
  | 4 => leaveCourse 3 true s
  | _ => s

/-- AH_KS_CMD (R491). -/
def ksCommand (cmd : Nat) (s : State) : State :=
  match cmd with
  | 1 => ksCmd (ksOpenAs false) s
  | 2 => ksCmd (ksOpenAs true) s
  | 3 => ksCmd ksCommit s
  | 4 => ksCmd ksAbort s
  | 5 => ksCmd ksZeroize s
  | 6 => ksCmd ksExtend s
  | _ => s

def noticeReg : NoticeReg → Reg
  | .nbase => .ownJrnNbase
  | .ncfg => .ownJrnNcfg

/-- The notice ring's base or size: dropped while notices are enabled; head and tail restart (R487). -/
def noticeSetup (who : Who) (r : NoticeReg) (mask val : Word) (s : State) : State :=
  if s.noticeEn then dropPiece who (noticeReg r) mask val s
  else
    modJrn (fun j => { j with nhead := 0, ntail := 0 })
      (modOwn (fun o => match r with
        | .nbase => { o with nbase := Reg.write .ownJrnNbase o.nbase mask val }
        | .ncfg => { o with ncfg := Reg.write .ownJrnNcfg o.ncfg mask val }) s)

/-- The notice ring's head, judged as a completion ring head (R116, R445). -/
def noticeHead (new : Nat) (s : State) : State :=
  modJrn (fun j => { j with nhead := (judgeHead s.noticeK j.nhead j.ntail new).1 }) s

/-- The write touches the low bits `m` of its word. -/
def touches (mask m : Word) : Bool := decide (mask &&& m ≠ 0)

def writeOwn (who : Who) (r : Reg) (mask val : Word) (s : State) : State :=
  let w := val &&& mask
  let low := touches mask 0xFF
  match r with
  | .ownHandover => if low then handover (BitVec.ofNat 8 val.toNat) s else s
  | .ownTrst => ownTrst (fld w 15 0) s
  | .ownGate => gateBits who mask val s
  | .ownBoot => if low && !bitOf val 0 then bootOff s else s
  | .ownClkmon => clkmonWrite who mask val s
  | .ownTimeCtl => timeCtlWrite mask val s
  | .ownGenCmd => if low then genCommand (fld val 3 0) s else s
  | .ownJrnCtl => if bitOf w 0 then jrnFlush s else s
  | .ownJrnNbase => noticeSetup who .nbase mask val s
  | .ownJrnNcfg => noticeSetup who .ncfg mask val s
  | .ownJrnNhead => if low then noticeHead (fld val 12 0) s else s
  | .ownTileRejoin => eachN ((List.range 24).filter (ones w 0)) tileRejoin s
  | .ownCsRejoin => eachN ((List.range 12).filter (ones w 0)) csRejoin s
  | .ownCourseCmd => if low then courseCommand (fld val 2 0) s else s
  | .crsCtl => if bitOf w 0 then crsSnap s else s
  | _ => keepOwn r mask val s

/-! ### Status and event page: its W1C fields (R490) -/

def Cnt32.clearSat (c : Cnt32) (w1c : Bool) : Cnt32 := if w1c then { c with sat := false } else c

def writeStat (r : Reg) (w : Word) (s : State) : State :=
  match r with
  | .statDenied => modDenied (·.clearSat (bitOf w 32)) s
  | .statSched => if bitOf w 1 then modSch (fun c => { c with budgetClamped := false }) s else s
  | .statClkmon => modClk (fun c => { c with cause := c.cause &&& ~~~ BitVec.ofNat 8 (fld w 63 56) }) s
  | .statEvPend => modEvPend (· &&& ~~~ w) s
  | .statSupply i => if i.val = 0 then modSup (fun p => { p with sat := p.sat &&& ~~~ BitVec.ofNat 3 (fld w 3 1) }) s else s
  | .statJrn i => if i.val = 0 then modJrn (fun j => { j with sat := j.sat &&& ~~~ BitVec.ofNat 2 (fld w 17 16) }) s else s
  | .statCourse i => if i.val = 0 then modCrs (fun c => { c with bad := c.bad.clearSat (bitOf w 24) }) s else s
  | .statBuserr i =>
    if i.val = 0 then
      modBecnt (·.clearSat (bitOf w 56)) (modBuserr (fun c => { c with valid := c.valid && !bitOf w 63 }) s)
    else s
  | .statTime i => if i.val = 1 && bitOf w 0 then modTime (fun t => { t with captDone := false }) s else s
  | .statTcmpLost j => modTime (fun t => { t with tlost := t.tlost.put {} j.val ((t.tlost.look {} j.val).clearSat (bitOf w 32)) }) s
  | .statGrout t => if bitOf w 48 && !unitGated s t.val then modTile t.val (fun u => { u with gsat := false }) s else s
  | .statCe c => modCe c.val (·.clearSat (bitOf w 32)) s
  | _ => s

/-! ### Key store and lifecycle page (R491) -/

def writeKs (who : Who) (r : Reg) (mask val : Word) (s : State) : State :=
  let w := val &&& mask
  match r with
  | .ksCmd => if touches mask 0xFF then ksCommand (fld val 3 0) s else s
  | .ksStat i => if i.val = 1 then modKs (fun k => { k with ce := k.ce.clearSat (bitOf w 32) }) s else s
  | .ksWdata i => ksBank who (.wdata i) mask val s
  | .ksWattr i => ksBank who (.wattr i) mask val s
  | .ksWnext => ksBank who .wnext mask val s
  | .ksWsoft => ksBank who .wsoft mask val s
  | .ksWkcv => ksBank who .wkcv mask val s
  | .ksWkcvEn => ksBank who .wkcvEn mask val s
  | .ksMeasLock => modMeas (fun m => { m with lock := m.lock ||| BitVec.ofNat 8 (fld w 7 0) }) s
  | .ksMeasData i => modMeas (fun m => { m with data := putWord m.data 48 i.val mask val }) s
  | .esCtl =>
    let s1 := modOwn (fun o => { o with esCtl := r.write o.esCtl mask val }) s
    if bitOf w 1 then esRestart s1 else s1
  | .esStat i =>
    if i.val = 0 then
      modEs (fun e => { e with rctFails := e.rctFails.clearSat (bitOf w 16), aptFails := e.aptFails.clearSat (bitOf w 17) }) s
    else s
  | .rbgCtl => eachN ((List.range 4).filter (ones w 0)) rbgRestart s
  | _ => keepOwn r mask val s

/-! ### Access table page: its live registers (R492) -/

def writeAcc (r : Reg) (w : Word) (s : State) : State :=
  match r with
  | .accPviol i => if i.val = 0 && bitOf w 63 then modPviol (fun c => { c with valid := false }) s else s
  | .accPvcnt => modPvcnt (·.clearSat (bitOf w 32)) s
  | _ => s

/-! ### Tenant set-up and doorbell pages (R497 to R502) -/

def writeTenant (r : Reg) (mask w : Word) (s : State) : State :=
  match r with
  | .tnCtl n => if bitOf w 0 then resetTenant 1 n s else s
  | .tnEvCause n => modTen n.val (fun t => { t with evCause := t.evCause &&& ~~~ BitVec.ofNat 23 (fld w 22 0) }) s
  | .tnEvPend n => modTen n.val (fun t => { t with evPend := t.evPend &&& ~~~ BitVec.ofNat 12 (fld w 11 0) }) s
  | .tnEvEn n =>
    if touches mask 0xFFF then modTen n.val (fun t => { t with evEn := BitVec.ofNat 12 (fld w 11 0) }) s else s
  | .tnLedgerCtl n => if bitOf w 0 then ledgerSnap n.val s else s
  | .tnFpCtl n => if bitOf w 0 then fpSnap n.val s else s
  | .tnViol n i =>
    if i.val = 0 && bitOf w 63 then modTen n.val (fun t => { t with viol := { t.viol with valid := false } }) s else s
  | .tnVcnt n => modTen n.val (fun t => { t with vcnt := t.vcnt.clearSat (bitOf w 32) }) s
  | .tnBuserr n i =>
    if i.val = 0 && bitOf w 63 then modTen n.val (fun t => { t with buserr := { t.buserr with valid := false } }) s else s
  | .tnBecnt n => modTen n.val (fun t => { t with becnt := t.becnt.clearSat (bitOf w 32) }) s
  | _ => s

def writeRing (who : Who) (r : Reg) (mask val : Word) (s : State) : State :=
  let w := val &&& mask
  match r with
  | .sqBase n m => sqBaseWrite who n m mask val s
  | .sqCfg n m => sqCfgWrite who n m mask val s
  | .sqSched n m => sqSchedWrite n m mask val s
  | .sqCtl n m => sqCtlWrite n m mask val s
  | .sqStat n m =>
    let s1 := modSq n m (fun q => { q with clamp := q.clamp && !bitOf w 0, surplus := q.surplus && !bitOf w 1 }) s
    if bitOf w 2 then sqFaultClear n m s1 else s1
  | .sqSstat n m => modSq n m (fun q => { q with overdue := q.overdue && !bitOf w 32 }) s
  | .sqPlost n m => modSq n m (fun q => { q with plost := q.plost.clearSat (bitOf w 32) }) s
  | .sqLate n m => modSq n m (fun q => { q with late := q.late.clearSat (bitOf w 32) }) s
  | .cqBase n m => cqSetup who n m .base mask val s
  | .cqCfg n m => cqSetup who n m .cfg mask val s
  | .cqCtl n m => cqEnWrite who n m mask val s
  | .cqStat n m =>
    let s1 := if (s.ten n.val).inReset then s else modCq n m (fun c => { c with hclamp := c.hclamp && !bitOf w 24 }) s
    if bitOf w 26 then cqFaultClear n m s1 else s1
  | _ => s

/-- Doorbell words are 32 bits wide: a 64-bit write applies its low word; the words above them take no write (R502). -/
def writeDoorbell (who : Who) (r : Reg) (mask val : Word) (s : State) : State :=
  if !touches mask 0xFFFFFFFF then dropPiece who r mask val s
  else match r with
    | .dbSq n m => dbWrite who n m (fld val 16 0) (fld val 31 17) false s
    | .dbCq n m => cqHead n m (fld val 16 0) s
    | _ => s

/-! ### Data channel page (R503 to R505) -/

def writeChan (who : Who) (r : Reg) (mask val : Word) (s : State) : State :=
  let w := val &&& mask
  match r with
  | .dcCtl k => if dcAssigned s k.val then dcCtlWrite k mask val s else dropPiece who r mask val s
  | .dcStat k => modDc k.val (fun c => { c with fault := c.fault && !bitOf w 4, postdrop := c.postdrop && !bitOf w 5 }) s
  | .dcCfg k => dcConfig who k .cfg mask val s
  | .dcDbase k => dcConfig who k .dbase mask val s
  | .dcDcount k => dcConfig who k .dcount mask val s
  | .dcFirst k => dcConfig who k .first mask val s
  | .dcPost k => dcConfig who k .post mask val s
  | .dcRecBase k => dcConfig who k .recBase mask val s
  | .dcRecCfg k => dcConfig who k .recCfg mask val s
  | .dcRecHead k => if touches mask 0x7FF then dcHead k.val (fld val 10 0) s else s
  | .dcLost k => modDc k.val (fun c => { c with lost := c.lost.clearSat (bitOf w 32) }) s
  | .dcGfault k =>
    match assignTen s s.gen.act k with
    | some n => if bitOf w 63 then modTen n.val (fun t => { t with gfault := none }) s else s
    | none => s
  | _ => s

/-! ### The port -/

/-- An accepted piece of a register write. -/
def writeWord (who : Who) (r : Reg) (mask val : Word) (s : State) : State :=
  if r.staged then stageWrite who r mask val s
  else match r.cls with
    | .oc | .ox => writeOwn who r mask val s
    | .st => writeStat r (val &&& mask) s
    | .ks => writeKs who r mask val s
    | .acc => writeAcc r (val &&& mask) s
    | .ts _ => writeTenant r mask (val &&& mask) (writeRing who r mask val s)
    | .td _ => writeDoorbell who r mask val s
    | .dc _ => writeChan who r mask val s
    | .jr => dropPiece who r mask val s

/-- The state drops every write to the register now; the low piece of a held write is judged by it too (R38, R481). -/
def dropsNow (s : State) (r : Reg) : Bool :=
  match r with
  | .ksWdata _ => !ksStaged s || s.ks.openc
  | .ksWattr _ | .ksWnext | .ksWsoft | .ksWkcv => !ksStaged s
  | .ownJrnNbase => s.noticeEn
  | .sqBase n m => !sqMutable (s.sq n m)
  | .cqBase n m => !cqMutable s n m
  | .dcDbase k => decide ((s.dc k.val).st ≠ .idle)
  | .dcRecBase k => (s.dc k.val).recEn
  | r => r.staged && decide (s.gen.st ≠ .idle)

/-- A low word waits for the register's high word from the same master: ID and world (R2, R481). -/
def isHeld (who : Who) (r : Reg) (h : HeldWrite) : Bool := h.who.isMaster who && decide (h.off = r.off)

/-- A 32-bit write of the low word of a wide field waits for the high word of the same master (R481). -/
def holdLow (who : Who) (r : Reg) (val : Word) (s : State) : State :=
  let s1 := modHeld (·.filter (fun h => !isHeld who r h)) s
  if dropsNow s r then dropPiece who r 0xFFFFFFFF val s1
  else modHeld (· ++ [⟨who, r.off, BitVec.ofNat 32 val.toNat⟩]) s1

/-- The high word of a wide field: with the low word that waits for it, if one does. -/
def writeHigh (who : Who) (r : Reg) (val : Word) (s : State) : State :=
  match s.heldWr.find? (isHeld who r) with
  | some h =>
    writeWord who r (~~~ 0) (val ||| h.value.setWidth 64) (modHeld (·.filter (fun h => !isHeld who r h)) s)
  | none => writeWord who r 0xFFFFFFFF00000000 val s

/-- A naturally aligned write of 32 or 64 bits to a register word. AH_OWN_CLAIM and AH_OWN_ACCEPT judge their writer themselves
(R29, R30, R34, R35). -/
def writeReg (who : Who) (r : Reg) (whole hi : Bool) (value : Word) (s : State) : State :=
  let mask : Word := if whole then ~~~ 0 else if hi then 0xFFFFFFFF00000000 else 0xFFFFFFFF
  let val : Word := if whole then value else if hi then value <<< 32 else value &&& 0xFFFFFFFF
  if r = .ownClaim then claimPiece who mask val s
  else if r = .ownAccept then acceptPiece who false mask val s
  else
    gateP who r mask val (fun s =>
      if whole || !r.wide then writeWord who r mask val s
      else if hi then writeHigh who r val s
      else holdLow who r val s) s

/-- A write that is dropped before any register is reached (R14): unrecorded until the journal is cleared (R470), and ignored on the
page of a gated data channel unit (R38, R395). -/
def dropEarly (off : Nat) (f : State → State) (s : State) : State :=
  if !s.start.cleared then s
  else if s.start.serving && unitGated s 24 && decide (0x40000 ≤ off ∧ off < 0x50000) then s
  else f s

/-- A write at the register target port (R14, R37, R38, R481). -/
def writePort (who : Who) (size : AccSize) (off : Nat) (value : Word) (s : State) : State :=
  let at8 (whole : Bool) : State :=
    match regAt (off / 8 * 8) with
    | some r => writeReg who r whole (decide (off % 8 = 4)) value s
    | none => dropEarly off (dropWrite who off (if whole then value.toNat else value.toNat % 2 ^ 32)) s
  match size with
  | .b8 | .b16 => dropEarly off (dropSubword who size off) s
  | .b32 => if off % 4 = 0 then at8 false else dropEarly off (dropSubword who size off) s
  | .b64 => if off % 8 = 0 then at8 true else dropEarly off (dropSubword who size off) s

/-! ### Commands -/

/-- REGISTER_WRITE (R14, R37, R38). -/
def fxRegisterWrite (who : Who) (size : AccSize) (off : BitVec 22) (value : Word) (s : State) : State :=
  writePort who size off.toNat value s
def execRegisterWrite (who : Who) (size : AccSize) (off : BitVec 22) (value : Word) (s : State) : Host.Outcome State Fault Refusal :=
  .next (fxRegisterWrite who size off value s)

/-- JOURNAL_FLUSH (R444). -/
def fxJournalFlush (who : Who) (s : State) : State := gateW who .ownJrnCtl 1 jrnFlush s
def execJournalFlush (who : Who) (s : State) : Host.Outcome State Fault Refusal := .next (fxJournalFlush who s)

/-- NOTICE_HEAD_WRITE (R445). -/
def fxNoticeHeadWrite (who : Who) (head : BitVec 13) (s : State) : State :=
  gateW who .ownJrnNhead (head.setWidth 64) (noticeHead head.toNat) s
def execNoticeHeadWrite (who : Who) (head : BitVec 13) (s : State) : Host.Outcome State Fault Refusal := .next (fxNoticeHeadWrite who head s)

/-- NOTICE_RING_SETUP (R487). -/
def fxNoticeRingSetup (who : Who) (r : NoticeReg) (v : Word) (s : State) : State :=
  gateW who (noticeReg r) v (noticeSetup who r (~~~ 0) v) s
def execNoticeRingSetup (who : Who) (r : NoticeReg) (v : Word) (s : State) : Host.Outcome State Fault Refusal :=
  .next (fxNoticeRingSetup who r v s)

end Sys2Proof.Machine
end

