-- ==== Sys2Proof/Machine/Dispatch.lean ====
section
/-!
DEFINITION. The effect of a command on everything but the queue: one arm for each constructor of `Instr`.
-/

namespace Sys2Proof.Machine

def exec (i : Instr) (s : State) : Host.Outcome State Fault Refusal :=
  match i with
  | .engineResetRelease strap => Sys2Proof.Machine.execEngineResetRelease strap s
  | .supplyFailureReset => Sys2Proof.Machine.execSupplyFailureReset s
  | .oscillatorReady => Sys2Proof.Machine.execOscillatorReady s
  | .fuseReadDone f => Sys2Proof.Machine.execFuseReadDone f s
  | .identityReady okC okQ => Sys2Proof.Machine.execIdentityReady s okC okQ
  | .firstServicePoint => Sys2Proof.Machine.execFirstServicePoint s
  | .ownClaim who prio => Sys2Proof.Machine.execOwnClaim who prio s
  | .claimWindowClose => Sys2Proof.Machine.execClaimWindowClose s
  | .ownHandover who target => Sys2Proof.Machine.execOwnHandover who target s
  | .ownAccept who go meets => Sys2Proof.Machine.execOwnAccept who go s meets
  | .handoverLapsed => Sys2Proof.Machine.execHandoverLapsed s
  | .registerWrite who size off value => Sys2Proof.Machine.execRegisterWrite who size off value s
  | .ownTrst who mask => Sys2Proof.Machine.execOwnTrst who mask s
  | .tenantCtlReset who n => Sys2Proof.Machine.execTenantCtlReset who n s
  | .tenantResetDone n => Sys2Proof.Machine.execTenantResetDone n s
  | .sqDoorbell who n m tail count meets => Sys2Proof.Machine.execSqDoorbell who n m tail count s meets
  | .sqSetupWrite who n m reg value => Sys2Proof.Machine.execSqSetupWrite who n m reg value s
  | .sqEnable who n m => Sys2Proof.Machine.execSqEnable who n m s
  | .sqDisable who n m => Sys2Proof.Machine.execSqDisable who n m s
  | .sqPause who n m => Sys2Proof.Machine.execSqPause who n m s
  | .sqPaused n m => Sys2Proof.Machine.execSqPaused n m s
  | .sqInval who n m => Sys2Proof.Machine.execSqInval who n m s
  | .sqInvalDone n m => Sys2Proof.Machine.execSqInvalDone n m s
  | .sqUnpause who n m => Sys2Proof.Machine.execSqUnpause who n m s
  | .sqFaultClear who n m => Sys2Proof.Machine.execSqFaultClear who n m s
  | .entryCacheRead n m slots => Sys2Proof.Machine.execEntryCacheRead n m slots s
  | .ringSlotReadReturn n m data ecc => Sys2Proof.Machine.execRingSlotReadReturn n m data ecc s
  | .schedulerGrant ecc => Sys2Proof.Machine.execSchedulerGrant s ecc
  | .chainStart id ecc found => Sys2Proof.Machine.execChainStart id s ecc found
  | .dataReadReturn id buf data ecc => Sys2Proof.Machine.execDataReadReturn id buf data ecc s
  | .copyOperation id op => Sys2Proof.Machine.execCopyOperation id op s
  | .cipherTileAllocate id op tile second => Sys2Proof.Machine.execCipherTileAllocate id op tile second s
  | .cipherYieldPoint tile ecc => Sys2Proof.Machine.execCipherYieldPoint tile s ecc
  | .digestTileAllocate id op tile second ecc => Sys2Proof.Machine.execDigestTileAllocate id op tile second s ecc
  | .digestSliceBoundary tile ecc => Sys2Proof.Machine.execDigestSliceBoundary tile s ecc
  | .pkBankAssign id op tile second => Sys2Proof.Machine.execPkBankAssign id op tile second s
  | .pkYieldPoint tile left long ecc => Sys2Proof.Machine.execPkYieldPoint tile s left long ecc
  | .pkCheckPhaseEnd tile => Sys2Proof.Machine.execPkCheckPhaseEnd tile s
  | .digestServiceDone tile => Sys2Proof.Machine.execDigestServiceDone tile s
  | .mlDsaIterationCap tile => Sys2Proof.Machine.execMlDsaIterationCap tile s
  | .pairedPieceCompare id op agree => Sys2Proof.Machine.execPairedPieceCompare id op agree s
  | .voterAssign id op tile => Sys2Proof.Machine.execVoterAssign id op tile s
  | .voteResult id op verdict => Sys2Proof.Machine.execVoteResult id op verdict s
  | .operationEnd id op resultOk ecc meets staging second => Sys2Proof.Machine.execOperationEnd id op resultOk ecc s meets staging second
  | .pkBankZeroized tile bank => Sys2Proof.Machine.execPkBankZeroized tile bank s
  | .keyCacheLoad id op => Sys2Proof.Machine.execKeyCacheLoad id op s
  | .keyInstall id op => Sys2Proof.Machine.execKeyInstall id op s
  | .keyCacheUnload id op => Sys2Proof.Machine.execKeyCacheUnload id op s
  | .hkdf id op => Sys2Proof.Machine.execHkdf id op s
  | .counterModeKdf id op => Sys2Proof.Machine.execCounterModeKdf id op s
  | .kilnDerivation id op => Sys2Proof.Machine.execKilnDerivation id op s
  | .randomDraw id op => Sys2Proof.Machine.execRandomDraw id op s
  | .attestationStatement id op okC okQ => Sys2Proof.Machine.execAttestationStatement id op s okC okQ
  | .fenceReadbackReturn id port resp frame => Sys2Proof.Machine.execFenceReadbackReturn id port resp s frame
  | .completionRecordWrite id ecc => Sys2Proof.Machine.execCompletionRecordWrite id ecc s
  | .cqCoalTimeout n m => Sys2Proof.Machine.execCqCoalTimeout n m s
  | .cqDoorbell who n m head => Sys2Proof.Machine.execCqDoorbell who n m head s
  | .reservoirRecordWrite n m ecc => Sys2Proof.Machine.execReservoirRecordWrite n m s ecc
  | .cqSetupWrite who n m reg value => Sys2Proof.Machine.execCqSetupWrite who n m reg value s
  | .cqEnWrite who n m en => Sys2Proof.Machine.execCqEnWrite who n m en s
  | .cqFaultClear who n m => Sys2Proof.Machine.execCqFaultClear who n m s
  | .rescueCopy n m resp => Sys2Proof.Machine.execRescueCopy n m resp s
  | .ledgerSnap who n => Sys2Proof.Machine.execLedgerSnap who n s
  | .busErrorResponse src addr dir => Sys2Proof.Machine.execBusErrorResponse src addr dir s
  | .ksOpen who => Sys2Proof.Machine.execKsOpen who s
  | .ksOpenc who => Sys2Proof.Machine.execKsOpenc who s
  | .ksBankWrite who reg value => Sys2Proof.Machine.execKsBankWrite who reg value s
  | .ksCommit who => Sys2Proof.Machine.execKsCommit who s
  | .ksAbort who => Sys2Proof.Machine.execKsAbort who s
  | .ksZeroize who => Sys2Proof.Machine.execKsZeroize who s
  | .ksExtend who => Sys2Proof.Machine.execKsExtend who s
  | .ksVerifyDone slot => Sys2Proof.Machine.execKsVerifyDone slot s
  | .ksDrained slot => Sys2Proof.Machine.execKsDrained slot s
  | .ksBackgroundScan slot found => Sys2Proof.Machine.execKsBackgroundScan slot found s
  | .entropySample bit => Sys2Proof.Machine.execEntropySample bit s
  | .entropyBlockConditioned ecc => Sys2Proof.Machine.execEntropyBlockConditioned ecc s
  | .esRestart who => Sys2Proof.Machine.execEsRestart who s
  | .esRawRead who => Sys2Proof.Machine.execEsRawRead who s
  | .rbgReseed k ecc block => Sys2Proof.Machine.execRbgReseed k ecc s block
  | .rbgRestart who k => Sys2Proof.Machine.execRbgRestart who k s
  | .dcGo who k => Sys2Proof.Machine.execDcGo who k s
  | .dcPause who k => Sys2Proof.Machine.execDcPause who k s
  | .dcResume who k => Sys2Proof.Machine.execDcResume who k s
  | .dcAbort who k => Sys2Proof.Machine.execDcAbort who k s
  | .dcRefetch who k => Sys2Proof.Machine.execDcRefetch who k s
  | .dcClrcred who k => Sys2Proof.Machine.execDcClrcred who k s
  | .dcConfigWrite who k reg value => Sys2Proof.Machine.execDcConfigWrite who k reg value s
  | .dcPacePulse src => Sys2Proof.Machine.execDcPacePulse src s
  | .dcUnitStart k => Sys2Proof.Machine.execDcUnitStart k s
  | .descriptorFetchReturn k data => Sys2Proof.Machine.execDescriptorFetchReturn k data s
  | .dcElementGrant k data move => Sys2Proof.Machine.execDcElementGrant k data s move
  | .dcCompletionPoint k meets => Sys2Proof.Machine.execDcCompletionPoint k s meets
  | .dcRecHeadWrite who k head => Sys2Proof.Machine.execDcRecHeadWrite who k head s
  | .seta k => Sys2Proof.Machine.execSeta k s
  | .adda k => Sys2Proof.Machine.execAdda k s
  | .setc k => Sys2Proof.Machine.execSetc k s
  | .move k data => Sys2Proof.Machine.execMove k data s
  | .xmove k data => Sys2Proof.Machine.execXmove k data s
  | .xcfg k => Sys2Proof.Machine.execXcfg k s
  | .loop k => Sys2Proof.Machine.execLoop k s
  | .jump k => Sys2Proof.Machine.execJump k s
  | .wait k => Sys2Proof.Machine.execWait k s
  | .fence k => Sys2Proof.Machine.execFence k s
  | .post k meets => Sys2Proof.Machine.execPost k s meets
  | .record k => Sys2Proof.Machine.execRecord k s
  | .event k => Sys2Proof.Machine.execEvent k s
  | .halt k => Sys2Proof.Machine.execHalt k s
  | .frameHeaderQueryReturn id buf hdr => Sys2Proof.Machine.execFrameHeaderQueryReturn id buf hdr s
  | .frameLoan id => Sys2Proof.Machine.execFrameLoan id s
  | .frameWaitTimeout id => Sys2Proof.Machine.execFrameWaitTimeout id s
  | .frameReturn id buf ecc => Sys2Proof.Machine.execFrameReturn id buf ecc s
  | .fpSnap who n => Sys2Proof.Machine.execFpSnap who n s
  | .timeCapt who => Sys2Proof.Machine.execTimeCapt who s
  | .timeSync who => Sys2Proof.Machine.execTimeSync who s
  | .tsuStrobe ns frac => Sys2Proof.Machine.execTsuStrobe ns frac s
  | .adjGo who => Sys2Proof.Machine.execAdjGo who s
  | .timeRunWrite who run => Sys2Proof.Machine.execTimeRunWrite who run s
  | .comparatorFire j => Sys2Proof.Machine.execComparatorFire j s
  | .triggerEdge xi => Sys2Proof.Machine.execTriggerEdge xi s
  | .budgetRefill => Sys2Proof.Machine.execBudgetRefill s
  | .genLoad who => Sys2Proof.Machine.execGenLoad who s
  | .genLoadDone image => Sys2Proof.Machine.execGenLoadDone image s
  | .genCommit who => Sys2Proof.Machine.execGenCommit who s
  | .genTakeEffect => Sys2Proof.Machine.execGenTakeEffect s
  | .genCancel who => Sys2Proof.Machine.execGenCancel who s
  | .genRollback who => Sys2Proof.Machine.execGenRollback who s
  | .genDiscard who => Sys2Proof.Machine.execGenDiscard who s
  | .genSlow => Sys2Proof.Machine.execGenSlow s
  | .gateWrite who unit => Sys2Proof.Machine.execGateWrite who unit s
  | .gateIdle unit => Sys2Proof.Machine.execGateIdle unit s
  | .ungate who unit => Sys2Proof.Machine.execUngate who unit s
  | .clkmonEnWrite who clk en => Sys2Proof.Machine.execClkmonEnWrite who clk en s
  | .clockStopTrip clk => Sys2Proof.Machine.execClockStopTrip clk s
  | .clkmonWindow clk count => Sys2Proof.Machine.execClkmonWindow clk count s
  | .oscFault => Sys2Proof.Machine.execOscFault s
  | .fencedZeroizeDone => Sys2Proof.Machine.execFencedZeroizeDone s
  | .clkmonRelease who clk => Sys2Proof.Machine.execClkmonRelease who clk s
  | .islandRejoin clk failed => Sys2Proof.Machine.execIslandRejoin clk failed s
  | .supplyWarn => Sys2Proof.Machine.execSupplyWarn s
  | .supplyClear => Sys2Proof.Machine.execSupplyClear s
  | .retReqRise => Sys2Proof.Machine.execRetReqRise s
  | .retentionEntry => Sys2Proof.Machine.execRetentionEntry s
  | .retReqFall => Sys2Proof.Machine.execRetReqFall s
  | .wakeComplete => Sys2Proof.Machine.execWakeComplete s
  | .tileRejoin who t => Sys2Proof.Machine.execTileRejoin who t s
  | .csRejoin who c => Sys2Proof.Machine.execCsRejoin who c s
  | .rejoinTestDone unit pass => Sys2Proof.Machine.execRejoinTestDone unit pass s
  | .groutStep t result => Sys2Proof.Machine.execGroutStep t result s
  | .groutForce t => Sys2Proof.Machine.execGroutForce t s
  | .tileWatchdog t both => Sys2Proof.Machine.execTileWatchdog t s both
  | .csWatchdog c error => Sys2Proof.Machine.execCsWatchdog c s error
  | .requestWatchdog id => Sys2Proof.Machine.execRequestWatchdog id s
  | .journalRead who size ecc => Sys2Proof.Machine.execJournalRead who size ecc s
  | .journalReadTimeout => Sys2Proof.Machine.execJournalReadTimeout s
  | .journalFlush who => Sys2Proof.Machine.execJournalFlush who s
  | .journalLostStore => Sys2Proof.Machine.execJournalLostStore s
  | .noticeHeadWrite who head => Sys2Proof.Machine.execNoticeHeadWrite who head s
  | .noticeRingSetup who reg value => Sys2Proof.Machine.execNoticeRingSetup who reg value s
  | .statTimeLowRead who => Sys2Proof.Machine.execStatTimeLowRead who s
  | .captureReadLatch who off => Sys2Proof.Machine.execCaptureReadLatch who off s
  | .courseHello peer hello => Sys2Proof.Machine.execCourseHello peer hello s
  | .courseAgreeReceived peer output stmt => Sys2Proof.Machine.execCourseAgreeReceived peer output stmt s
  | .courseAccept who => Sys2Proof.Machine.execCourseAccept who s
  | .courseReject who => Sys2Proof.Machine.execCourseReject who s
  | .coursePairingTimeout => Sys2Proof.Machine.execCoursePairingTimeout s
  | .courseGroup peer payload => Sys2Proof.Machine.execCourseGroup peer payload s
  | .courseMasterTimeout => Sys2Proof.Machine.execCourseMasterTimeout s
  | .courseLaneDown lane => Sys2Proof.Machine.execCourseLaneDown lane s
  | .beat => Sys2Proof.Machine.execBeat s
  | .courseFrameReceive lane frame => Sys2Proof.Machine.execCourseFrameReceive lane frame s
  | .coursePeerSilent peer => Sys2Proof.Machine.execCoursePeerSilent peer s
  | .takeover peer payload => Sys2Proof.Machine.execTakeover peer payload s
  | .fwdReq peer payload => Sys2Proof.Machine.execFwdReq peer payload s
  | .courseForward id peer => Sys2Proof.Machine.execCourseForward id peer s
  | .fwdResult peer payload => Sys2Proof.Machine.execFwdResult peer payload s
  | .fwdCancel peer payload => Sys2Proof.Machine.execFwdCancel peer payload s
  | .credit peer payload => Sys2Proof.Machine.execCredit peer payload s
  | .blockReq peer payload => Sys2Proof.Machine.execBlockReq peer payload s
  | .blockGrant peer payload => Sys2Proof.Machine.execBlockGrant peer payload s
  | .ctrSync peer payload => Sys2Proof.Machine.execCtrSync peer payload s
  | .ctrAck peer payload => Sys2Proof.Machine.execCtrAck peer payload s
  | .slotBank peer payload => Sys2Proof.Machine.execSlotBank peer payload s
  | .courseReform who => Sys2Proof.Machine.execCourseReform who s
  | .courseLeave who => Sys2Proof.Machine.execCourseLeave who s
  | .crsSnap who => Sys2Proof.Machine.execCrsSnap who s
  | .bootSlotPoll resp => Sys2Proof.Machine.execBootSlotPoll resp s
  | .bootRequest => Sys2Proof.Machine.execBootRequest s
  | .bootExtend resp => Sys2Proof.Machine.execBootExtend resp s
  | .bootEnClear who => Sys2Proof.Machine.execBootEnClear who s
  | .engineResetAssert => Sys2Proof.Machine.execEngineResetAssert s
  | .oscStartTimeout => Sys2Proof.Machine.execOscStartTimeout s
  | .startupClearDone => Sys2Proof.Machine.execStartupClearDone s
  | .knownAnswerTestsDone tileFail csFail hashOk => Sys2Proof.Machine.execKnownAnswerTestsDone tileFail csFail hashOk s
  | .rbgInstantiate k katOk block => Sys2Proof.Machine.execRbgInstantiate k katOk s block
  | .tenantResetWait n => Sys2Proof.Machine.execTenantResetWait n s
  | .courseLaneUp lane => Sys2Proof.Machine.execCourseLaneUp lane s
  | .timeLowWrap => Sys2Proof.Machine.execTimeLowWrap s
  | .tcmpPulseEnd j => Sys2Proof.Machine.execTcmpPulseEnd j s
  | .debugRead who size off => Sys2Proof.Machine.execDebugRead who size off s

end Sys2Proof.Machine
end

