-- ==== Sys2Proof/Safety.lean ====
section
/-!
DEFINITION. What counts as a safe run, in the terms the statements use: the counters that always balance, the invariant that every step
keeps, the parts of the state that a command may change, and when the register target port takes a write.
-/

namespace Sys2Proof.Machine

/-! ### Counters that balance -/

/-- R127: POSTED - CLAMPED = ADMITTED + QUEUED and ADMITTED = COMPLETED + FLUSHED + INFLIGHT, modulo 2^64. -/
def Ledger.balanced (l : Ledger) (queued : Word) : Prop :=
  l.posted - l.clamped = l.admitted + queued ∧ l.admitted = l.completed + l.flushed + l.inflight

/-- R342: BORROWED - RETURNED = ONLOAN, modulo 2^64. -/
def FpCnt.balanced (c : FpCnt) : Prop := c.borrowed - c.returned = c.onloan

/-- R463: FWD_OUT = FWD_BACK + FWD_RECALL + FWD_OPEN and FWD_IN = FWD_RET + FWD_DROP + FWD_RUN, modulo 2^64. -/
def CrsCnt.balanced (c : CrsCnt) : Prop :=
  c.fwdOut = c.fwdBack + c.fwdRecall + c.fwdOpen ∧ c.fwdIn = c.fwdRet + c.fwdDrop + c.fwdRun

/-- R440, R442: the journal holds at most 4096 words, and a record has a header, a time and a payload of at least one word. -/
def Journal.fits (j : Journal) : Prop := j.level ≤ jrnWords ∧ ∀ r ∈ j.recs, 3 ≤ r.length

/-- One tenant's counters balance, and a tenant in reset has nothing queued (R127, R342, R434). -/
def TenOk (s : State) (n : Nat) : Prop :=
  (s.ten n).led.balanced (queuedOf s n) ∧ (s.ten n).fp.balanced ∧
  ((s.ten n).inReset = true → ∀ m, m < 16 → (s.sq n m).queued = 0)

/-- What holds between any two commands: the counters of every tenant, of the course and of the boot ring balance (R127, R342, R463,
R478), the journal fits (R442), at most 4096 cells are on loan (R342), and the entropy pool holds at most 8 blocks (R283). -/
structure Inv (s : State) : Prop where
  ten : ∀ n, n < 16 → TenOk s n
  crs : s.crs.cnt.balanced
  boot : s.boot.admitted = s.boot.completed + s.boot.inflight
  jrn : s.jrn.fits
  loans : fpOnLoan s ≤ 4096
  pool : s.es.pool.length ≤ 8

/-! ### Frames -/

/-- The parts of the state that a frame names: the fields of `State` but for the queue. `notice` is AH_OWN_JRN_NOTICE, which a failing
notice changes too; `act` is the content of the active generation. -/
inductive Part where
  | start | roots | ident | owner | denied | own | notice | gen | act | tens | sqs | cqs | sch | reqs | sent
  | tiles | css | ces | streams | ks | meas | es | rbgs | dcs | fp | time | clk | sup | ret | jrn | evPend
  | buserr | becnt | pviol | pvcnt | crs | boot | heldWr | latch | out | free
  deriving DecidableEq, Repr

/-- The part is the same in two states. -/
def Part.same (p : Part) (s t : State) : Prop :=
  match p with
  | .start => t.start = s.start
  | .roots => t.roots = s.roots
  | .ident => t.ident = s.ident
  | .owner => t.owner = s.owner
  | .denied => t.denied = s.denied
  | .own => { t.own with notice := 0 } = { s.own with notice := 0 }
  | .notice => t.own.notice = s.own.notice
  | .gen => { t.gen with act := {} } = { s.gen with act := {} }
  | .act => t.gen.act = s.gen.act
  | .tens => t.tens = s.tens
  | .sqs => t.sqs = s.sqs
  | .cqs => t.cqs = s.cqs
  | .sch => t.sch = s.sch
  | .reqs => t.reqs = s.reqs
  | .sent => t.sent = s.sent
  | .tiles => t.tiles = s.tiles
  | .css => t.css = s.css
  | .ces => t.ces = s.ces
  | .streams => t.streams = s.streams
  | .ks => t.ks = s.ks
  | .meas => t.meas = s.meas
  | .es => t.es = s.es
  | .rbgs => t.rbgs = s.rbgs
  | .dcs => t.dcs = s.dcs
  | .fp => t.fp = s.fp
  | .time => t.time = s.time
  | .clk => t.clk = s.clk
  | .sup => t.sup = s.sup
  | .ret => t.ret = s.ret
  | .jrn => t.jrn = s.jrn
  | .evPend => t.evPend = s.evPend
  | .buserr => t.buserr = s.buserr
  | .becnt => t.becnt = s.becnt
  | .pviol => t.pviol = s.pviol
  | .pvcnt => t.pvcnt = s.pvcnt
  | .crs => t.crs = s.crs
  | .boot => t.boot = s.boot
  | .heldWr => t.heldWr = s.heldWr
  | .latch => t.latch = s.latch
  | .out => t.out = s.out
  | .free => t.free = s.free

/-- Only the parts in a list may differ; the queue is the same. -/
def Only (A : List Part) (s t : State) : Prop := t.pending = s.pending ∧ ∀ p, p ∉ A → p.same s t

/-- What a record in the journal, with its notice, may change (R440 to R445). -/
def recordParts : List Part := [.notice, .jrn, .evPend, .pviol, .pvcnt, .out]

/-- What the drop of a register write may change (R38). -/
def dropParts : List Part := .denied :: recordParts

/-- What a reset may change: everything but what has left the block, and the number of the next free value. -/
def resetParts : List Part :=
  [.start, .roots, .ident, .owner, .denied, .own, .notice, .gen, .act, .tens, .sqs, .cqs, .sch, .reqs,
   .sent, .tiles, .css, .ces, .streams, .ks, .meas, .es, .rbgs, .dcs, .fp, .time, .clk, .sup, .ret,
   .jrn, .evPend, .buserr, .becnt, .pviol, .pvcnt, .crs, .boot, .heldWr, .latch]

/-- The parts of the state that a command may change, whatever its operands and the state. -/
def mayChange (i : Instr) : List Part :=
  match i with
  | .engineResetRelease _ => [.start, .own]
  | .supplyFailureReset => resetParts
  | .oscillatorReady => [.start, .clk]
  | .fuseReadDone _ => [.start, .roots, .ident, .boot]
  | .identityReady _ _ => [.start, .ident, .tens, .sch, .reqs, .tiles, .streams, .ks, .fp, .free] ++ recordParts
  | .firstServicePoint => [.start, .owner, .crs, .boot]
  | .ownClaim _ _ => [.owner] ++ dropParts
  | .claimWindowClose => [.owner, .evPend]
  | .ownHandover _ _ => [.owner] ++ dropParts
  | .ownAccept _ _ _ => [.owner] ++ dropParts
  | .handoverLapsed => [.owner, .evPend]
  | .registerWrite _ _ _ _ => [.owner, .own, .gen, .tens, .sqs, .cqs, .sch, .reqs, .sent, .tiles, .css, .ces, .streams, .ks, .meas, .es, .rbgs, .dcs, .fp, .time, .clk, .sup, .buserr, .becnt, .crs, .boot, .heldWr, .free] ++ dropParts
  | .ownTrst _ _ => [.tens, .sqs, .sch, .reqs, .tiles, .streams, .ks, .dcs, .fp, .crs] ++ dropParts
  | .tenantCtlReset _ _ => [.tens, .sqs, .sch, .reqs, .tiles, .streams, .ks, .dcs, .fp, .crs] ++ dropParts
  | .tenantResetDone _ => [.tens, .sqs, .cqs, .sent, .ks, .evPend]
  | .sqDoorbell _ _ _ _ _ _ => [.tens, .sqs] ++ dropParts
  | .sqSetupWrite _ _ _ _ _ => [.sqs] ++ dropParts
  | .sqEnable _ _ _ => [.tens, .sqs] ++ dropParts
  | .sqDisable _ _ _ => [.sqs] ++ dropParts
  | .sqPause _ _ _ => [.sqs] ++ dropParts
  | .sqPaused _ _ => [.sqs]
  | .sqInval _ _ _ => [.sqs] ++ dropParts
  | .sqInvalDone _ _ => [.tens, .sqs]
  | .sqUnpause _ _ _ => [.tens, .sqs] ++ dropParts
  | .sqFaultClear _ _ _ => [.sqs] ++ dropParts
  | .entryCacheRead _ _ _ => [.tens, .sqs, .out]
  | .ringSlotReadReturn _ _ _ _ => [.sqs, .ces] ++ recordParts
  | .schedulerGrant _ => [.tens, .sqs, .cqs, .sch, .reqs, .ces, .ks, .crs] ++ recordParts
  | .chainStart _ _ _ => [.tens, .sch, .reqs, .tiles, .ces, .streams, .ks, .fp, .crs] ++ recordParts
  | .dataReadReturn _ _ _ _ => [.tens, .sch, .reqs, .tiles, .ces, .streams, .ks, .fp] ++ recordParts
  | .copyOperation _ _ => [.tens, .sch, .reqs, .tiles, .streams, .ks, .fp] ++ recordParts
  | .cipherTileAllocate _ _ _ _ => [.tens, .sch, .reqs, .tiles, .streams, .ks, .fp] ++ recordParts
  | .cipherYieldPoint _ _ => [.tens, .sch, .reqs, .tiles, .ces, .streams, .ks, .fp, .free] ++ recordParts
  | .digestTileAllocate _ _ _ _ _ => [.tens, .sch, .reqs, .tiles, .ces, .streams, .ks, .fp, .free] ++ recordParts
  | .digestSliceBoundary _ _ => [.tens, .sch, .reqs, .tiles, .ces, .streams, .ks, .fp, .free] ++ recordParts
  | .pkBankAssign _ _ _ _ => [.tens, .sch, .reqs, .tiles, .streams, .ks, .fp] ++ recordParts
  | .pkYieldPoint _ _ _ _ => [.tens, .sch, .reqs, .tiles, .ces, .streams, .ks, .fp, .free] ++ recordParts
  | .pkCheckPhaseEnd _ => [.tens, .sch, .reqs, .tiles, .ces, .streams, .ks, .es, .rbgs, .fp] ++ recordParts
  | .digestServiceDone _ => [.tens, .sch, .reqs, .tiles, .streams, .ks, .fp] ++ recordParts
  | .mlDsaIterationCap _ => [.tens, .sch, .reqs, .tiles, .streams, .ks, .fp, .evPend, .pviol, .pvcnt, .out]
  | .pairedPieceCompare _ _ _ => [.tens, .sch, .reqs, .tiles, .streams, .ks, .fp] ++ recordParts
  | .voterAssign _ _ _ => [.reqs, .tiles]
  | .voteResult _ _ _ => [.tens, .sch, .reqs, .tiles, .streams, .ks, .fp, .free] ++ recordParts
  | .operationEnd _ _ _ _ _ _ _ => [.gen, .tens, .sch, .reqs, .tiles, .ces, .streams, .ks, .es, .rbgs, .fp, .crs, .free] ++ recordParts
  | .pkBankZeroized _ _ => [.reqs, .tiles]
  | .keyCacheLoad _ _ => [.tens, .sch, .reqs, .tiles, .streams, .ks, .fp] ++ recordParts
  | .keyInstall _ _ => [.tens, .sch, .reqs, .tiles, .streams, .ks, .fp] ++ recordParts
  | .keyCacheUnload _ _ => [.tens, .sch, .reqs, .tiles, .streams, .ks, .fp] ++ recordParts
  | .hkdf _ _ => [.tens, .sch, .reqs, .tiles, .streams, .ks, .fp] ++ recordParts
  | .counterModeKdf _ _ => [.tens, .sch, .reqs, .tiles, .streams, .ks, .fp] ++ recordParts
  | .kilnDerivation _ _ => [.tens, .sch, .reqs, .tiles, .streams, .ks, .fp] ++ recordParts
  | .randomDraw _ _ => [.tens, .sch, .reqs, .tiles, .ces, .streams, .ks, .es, .rbgs, .fp] ++ recordParts
  | .attestationStatement _ _ _ _ => [.tens, .sch, .reqs, .tiles, .ces, .streams, .ks, .es, .rbgs, .fp, .free] ++ recordParts
  | .fenceReadbackReturn _ _ _ _ => [.tens, .reqs, .buserr, .becnt] ++ recordParts
  | .completionRecordWrite _ _ => [.tens, .sqs, .cqs, .sch, .reqs, .sent, .ces, .ks, .sup, .crs, .boot] ++ recordParts
  | .cqCoalTimeout _ _ => [.tens, .cqs]
  | .cqDoorbell _ _ _ _ => [.tens, .cqs, .sent] ++ dropParts
  | .reservoirRecordWrite _ _ _ => [.tens, .cqs, .reqs, .sent, .ces, .ks, .boot] ++ recordParts
  | .cqSetupWrite _ _ _ _ _ => [.tens, .cqs, .sent] ++ dropParts
  | .cqEnWrite _ _ _ _ => [.cqs] ++ dropParts
  | .cqFaultClear _ _ _ => [.tens, .cqs, .reqs, .sent, .ks, .boot] ++ dropParts
  | .rescueCopy _ _ _ => [.tens, .cqs, .reqs, .sent, .ks, .buserr, .becnt, .boot] ++ recordParts
  | .ledgerSnap _ _ => [.tens] ++ dropParts
  | .busErrorResponse _ _ _ => [.gen, .tens, .sqs, .cqs, .sch, .reqs, .sent, .tiles, .streams, .ks, .dcs, .fp, .buserr, .becnt] ++ recordParts
  | .ksOpen _ => [.own, .ks] ++ dropParts
  | .ksOpenc _ => [.own, .ks] ++ dropParts
  | .ksBankWrite _ _ _ => [.own, .ks] ++ dropParts
  | .ksCommit _ => [.sch, .ks] ++ dropParts
  | .ksAbort _ => [.sch, .tiles, .ks] ++ dropParts
  | .ksZeroize _ => [.sch, .tiles, .ks] ++ dropParts
  | .ksExtend _ => [.ks, .meas] ++ dropParts
  | .ksVerifyDone _ => [.sch, .reqs, .tiles, .ks, .evPend, .crs, .out, .free]
  | .ksDrained _ => [.ks, .evPend]
  | .ksBackgroundScan _ _ => [.ces, .ks] ++ recordParts
  | .entropySample _ => [.es] ++ recordParts
  | .entropyBlockConditioned _ => [.ces, .es, .rbgs] ++ recordParts
  | .esRestart _ => [.es] ++ dropParts
  | .esRawRead _ => [.es] ++ recordParts
  | .rbgReseed _ _ _ => [.ces, .es, .rbgs] ++ recordParts
  | .rbgRestart _ _ => [.rbgs] ++ dropParts
  | .dcGo _ _ => [.tens, .dcs] ++ dropParts
  | .dcPause _ _ => [.tens, .dcs] ++ dropParts
  | .dcResume _ _ => [.tens, .dcs] ++ dropParts
  | .dcAbort _ _ => [.tens, .dcs] ++ dropParts
  | .dcRefetch _ _ => [.dcs] ++ dropParts
  | .dcClrcred _ _ => [.tens, .dcs] ++ dropParts
  | .dcConfigWrite _ _ _ _ => [.tens, .dcs] ++ dropParts
  | .dcPacePulse _ => [.tens, .dcs]
  | .dcUnitStart _ => [.dcs]
  | .descriptorFetchReturn _ _ => [.tens, .dcs, .out]
  | .dcElementGrant _ _ _ => [.tens, .sch, .dcs, .out]
  | .dcCompletionPoint _ _ => [.tens, .sqs, .dcs] ++ dropParts
  | .dcRecHeadWrite _ _ _ => [.tens, .dcs] ++ dropParts
  | .seta _ => [.tens, .dcs, .out]
  | .adda _ => [.tens, .dcs, .out]
  | .setc _ => [.tens, .dcs, .out]
  | .move _ _ => [.tens, .sch, .dcs, .out]
  | .xmove _ _ => [.tens, .sch, .dcs, .out]
  | .xcfg _ => [.tens, .dcs, .out]
  | .loop _ => [.tens, .dcs, .out]
  | .jump _ => [.tens, .dcs, .out]
  | .wait _ => [.tens, .dcs, .out]
  | .fence _ => [.tens, .dcs, .out]
  | .post _ _ => [.tens, .sqs, .dcs] ++ dropParts
  | .record _ => [.tens, .dcs, .out]
  | .event _ => [.tens, .dcs, .out]
  | .halt _ => [.dcs]
  | .frameHeaderQueryReturn _ _ _ => [.tens, .sch, .reqs, .tiles, .streams, .ks, .fp, .evPend, .pviol, .pvcnt, .out]
  | .frameLoan _ => [.tens, .sch, .reqs, .tiles, .streams, .ks, .fp] ++ recordParts
  | .frameWaitTimeout _ => [.tens, .sch, .reqs, .tiles, .streams, .ks, .fp, .evPend, .pviol, .pvcnt, .out]
  | .frameReturn _ _ _ => [.tens, .ces, .fp] ++ recordParts
  | .fpSnap _ _ => [.tens] ++ dropParts
  | .timeCapt _ => [.own] ++ dropParts
  | .timeSync _ => [.own] ++ dropParts
  | .tsuStrobe _ _ => [.own, .sch, .time] ++ recordParts
  | .adjGo _ => [.sch, .time] ++ dropParts
  | .timeRunWrite _ _ => [.own, .sqs, .time] ++ dropParts
  | .comparatorFire _ => [.own, .tens, .sqs, .dcs, .time, .evPend]
  | .triggerEdge _ => [.tens, .sqs, .dcs, .time]
  | .budgetRefill => [.sqs, .sch]
  | .genLoad _ => [.gen] ++ dropParts
  | .genLoadDone _ => [.gen, .sch, .evPend]
  | .genCommit _ => [.gen, .tens, .sqs, .sch, .reqs, .tiles, .streams, .ks, .dcs, .fp, .crs] ++ dropParts
  | .genTakeEffect => [.gen, .act, .tens, .sqs, .cqs, .sch, .reqs, .tiles, .streams, .ks, .dcs, .fp, .crs] ++ dropParts
  | .genCancel _ => [.gen, .sch, .tiles] ++ dropParts
  | .genRollback _ => [.gen, .tens, .sqs, .sch, .reqs, .tiles, .streams, .ks, .dcs, .fp, .crs] ++ dropParts
  | .genDiscard _ => [.gen] ++ dropParts
  | .genSlow => recordParts
  | .gateWrite _ _ => [.own, .tens, .sch, .reqs, .tiles, .streams, .ks, .dcs, .fp, .clk] ++ dropParts
  | .gateIdle _ => [.reqs, .tiles, .streams, .clk]
  | .ungate _ _ => [.own, .clk] ++ dropParts
  | .clkmonEnWrite _ _ _ => [.own, .clk] ++ dropParts
  | .clockStopTrip _ => [.start, .reqs, .tiles, .clk] ++ recordParts
  | .clkmonWindow _ _ => [.start, .reqs, .tiles, .clk] ++ recordParts
  | .oscFault => [.clk, .evPend]
  | .fencedZeroizeDone => .out :: resetParts
  | .clkmonRelease _ _ => [.clk] ++ dropParts
  | .islandRejoin _ _ => [.reqs, .tiles, .clk] ++ recordParts
  | .supplyWarn => [.tens, .sch, .reqs, .tiles, .streams, .ks, .fp, .sup] ++ recordParts
  | .supplyClear => [.own, .tens, .sch, .reqs, .tiles, .ces, .streams, .ks, .meas, .es, .rbgs, .fp, .sup, .crs, .free] ++ recordParts
  | .retReqRise => [.tens, .dcs, .ret, .out]
  | .retentionEntry => [.own, .sqs, .tiles, .time, .clk, .ret] ++ recordParts
  | .retReqFall => [.start, .ret]
  | .wakeComplete => [.ret, .evPend]
  | .tileRejoin _ _ => [.tiles] ++ dropParts
  | .csRejoin _ _ => [.css] ++ dropParts
  | .rejoinTestDone _ _ => [.tiles, .css] ++ recordParts
  | .groutStep _ _ => [.tens, .sch, .reqs, .tiles, .streams, .ks, .fp, .free] ++ recordParts
  | .groutForce _ => [.sch, .tiles]
  | .tileWatchdog _ _ => [.tens, .sch, .reqs, .tiles, .streams, .ks, .fp, .free] ++ recordParts
  | .csWatchdog _ _ => [.reqs, .css] ++ recordParts
  | .requestWatchdog _ => [.tens, .sch, .reqs, .tiles, .streams, .ks, .fp, .crs] ++ recordParts
  | .journalRead _ _ _ => [.ces] ++ recordParts
  | .journalReadTimeout => [.jrn, .out]
  | .journalFlush _ => dropParts
  | .journalLostStore => recordParts
  | .noticeHeadWrite _ _ => dropParts
  | .noticeRingSetup _ _ _ => [.own] ++ dropParts
  | .statTimeLowRead _ => [.ces, .es, .latch] ++ recordParts
  | .captureReadLatch _ _ => [.ces, .es, .latch] ++ recordParts
  | .courseHello _ _ => [.sch, .tiles, .ces, .es, .rbgs, .crs, .free] ++ recordParts
  | .courseAgreeReceived _ _ _ => [.evPend, .pviol, .pvcnt, .crs, .out]
  | .courseAccept _ => [.sch, .tiles, .es, .rbgs, .crs, .free] ++ dropParts
  | .courseReject _ => [.sch, .tiles, .crs] ++ dropParts
  | .coursePairingTimeout => [.sch, .tiles, .crs] ++ recordParts
  | .courseGroup _ _ => [.tens, .ks, .crs] ++ recordParts
  | .courseMasterTimeout => [.sch, .tiles, .crs] ++ recordParts
  | .courseLaneDown _ => [.evPend, .crs]
  | .beat => [.crs, .out]
  | .courseFrameReceive _ _ => [.tens, .sch, .reqs, .tiles, .ces, .streams, .ks, .es, .rbgs, .fp, .crs, .free] ++ recordParts
  | .coursePeerSilent _ => [.tens, .sch, .reqs, .tiles, .streams, .ks, .fp, .crs] ++ recordParts
  | .takeover _ _ => [.tens, .sch, .tiles, .ces, .ks, .es, .rbgs, .crs] ++ recordParts
  | .fwdReq _ _ => [.tens, .sch, .reqs, .tiles, .ces, .streams, .ks, .es, .rbgs, .fp, .crs] ++ recordParts
  | .courseForward _ _ => [.reqs, .crs, .out, .free]
  | .fwdResult _ _ => [.tens, .sch, .reqs, .tiles, .streams, .ks, .fp, .crs] ++ recordParts
  | .fwdCancel _ _ => [.reqs, .tiles, .ks, .crs, .out]
  | .credit _ _ => [.crs]
  | .blockReq _ _ => [.tens, .ks, .crs] ++ recordParts
  | .blockGrant _ _ => [.sch, .tiles, .ces, .es, .rbgs, .crs] ++ recordParts
  | .ctrSync _ _ => [.sch, .tiles, .ces, .es, .rbgs, .crs] ++ recordParts
  | .ctrAck _ _ => [.tens, .ks, .crs] ++ recordParts
  | .slotBank _ _ => [.sch, .tiles, .ces, .ks, .es, .rbgs, .crs] ++ recordParts
  | .courseReform _ => [.sch, .tiles, .ces, .es, .rbgs, .crs, .free] ++ dropParts
  | .courseLeave _ => [.tens, .sch, .reqs, .tiles, .streams, .ks, .fp, .crs] ++ dropParts
  | .crsSnap _ => [.crs] ++ dropParts
  | .bootSlotPoll _ => [.tens, .buserr, .becnt, .boot] ++ recordParts
  | .bootRequest => [.sch, .reqs, .evPend, .pviol, .pvcnt, .boot, .out, .free]
  | .bootExtend _ => [.tens, .ks, .meas, .buserr, .becnt, .boot, .free] ++ recordParts
  | .bootEnClear _ => [.own, .boot] ++ dropParts
  | .engineResetAssert => resetParts
  | .oscStartTimeout => [.start]
  | .startupClearDone => [.start] ++ recordParts
  | .knownAnswerTestsDone _ _ _ => [.start, .gen, .tens, .sch, .reqs, .tiles, .css, .streams, .ks, .fp, .ret, .free] ++ recordParts
  | .rbgInstantiate _ _ _ => [.ces, .ks, .es, .rbgs] ++ recordParts
  | .tenantResetWait _ => [.tens, .evPend]
  | .courseLaneUp _ => [.ces, .es, .rbgs, .crs, .free] ++ recordParts
  | .timeLowWrap => [.time] ++ recordParts
  | .tcmpPulseEnd _ => [.time]
  | .debugRead _ _ _ => [.ces, .es, .latch] ++ recordParts

/-! ### Items of the tables -/

/-- Every submission ring but one is as it was. -/
def OtherSqs (n m : Nat) (s t : State) : Prop := ∀ a b, rix a b ≠ rix n m → t.sq a b = s.sq a b
/-- Every completion ring but one is as it was. -/
def OtherCqs (n m : Nat) (s t : State) : Prop := ∀ a b, rix a b ≠ rix n m → t.cq a b = s.cq a b
/-- Every tenant but one is as it was. -/
def OtherTens (n : Nat) (s t : State) : Prop := ∀ k, k ≠ n → t.ten k = s.ten k
/-- Every channel but one is as it was. -/
def OtherDcs (n : Nat) (s t : State) : Prop := ∀ k, k ≠ n → t.dc k = s.dc k
/-- Every tile but one is as it was. -/
def OtherTiles (n : Nat) (s t : State) : Prop := ∀ k, k ≠ n → t.tile k = s.tile k
/-- What a bank holds is as it was, but that what rested may run. -/
def BankSt.same (b c : BankSt) : Prop := c = b ∨ ∃ id i, b = .resident id i ∧ c = .running id i
/-- Every tile but one is as it was, but that what rested in a bank may run (R196). -/
def OthersWake (n : Nat) (s t : State) : Prop :=
  ∀ k, k ≠ n → t.tile k = { s.tile k with bankA := (t.tile k).bankA, bankB := (t.tile k).bankB } ∧
    (s.tile k).bankA.same (t.tile k).bankA ∧ (s.tile k).bankB.same (t.tile k).bankB
/-- Every key slot but one is as it was. -/
def OtherSlots (n : Nat) (s t : State) : Prop := ∀ k, k ≠ n → t.slot k = s.slot k

/-! ### Register writes -/

/-- The register target port takes a write of a whole register: it serves, the page is not gated, the role permits it, and a tenant in
reset takes it (R37, R395, R434, R470). -/
def Takes (s : State) (who : Who) (r : Reg) (val : Word) : Prop :=
  s.start.serving = true ∧ pageGated s r = false ∧ mayWrite s who r.cls = true ∧ resetTakes s who r val = true

/-- The port drops the write, with a record and a count: the role does not permit it, or a tenant in reset does not take it (R38). -/
def Denies (s : State) (who : Who) (r : Reg) (val : Word) : Prop :=
  s.start.serving = true ∧ pageGated s r = false ∧ (mayWrite s who r.cls && resetTakes s who r val) = false

/-- The register and the word that a command writes at the register target port, of the commands that are a write of one whole register. -/
def portWrite (s : State) (i : Instr) : Option (Who × Reg × Word) :=
  match i with
  | .ownHandover who target => some (who, .ownHandover, (target.setWidth 64))
  | .ownTrst who mask => some (who, .ownTrst, (mask.setWidth 64))
  | .tenantCtlReset who n => some (who, .tnCtl n, 1)
  | .sqDoorbell who n m tail count _ => some (who, .dbSq n m, (BitVec.ofNat 64 (tail.toNat + 2 ^ 17 * count.toNat)))
  | .sqSetupWrite who n m r v => some (who, (match r with | .base => .sqBase n m | .cfg => .sqCfg n m | .sched => .sqSched n m), v)
  | .sqEnable who n m => some (who, .sqCtl n m, 1)
  | .sqDisable who n m => some (who, .sqCtl n m, 0)
  | .sqPause who n m => some (who, .sqCtl n m, 3)
  | .sqInval who n m => some (who, .sqCtl n m, 7)
  | .sqUnpause who n m => some (who, .sqCtl n m, 1)
  | .sqFaultClear who n m => some (who, .sqStat n m, 4)
  | .cqDoorbell who n m head => some (who, .dbCq n m, (head.setWidth 64))
  | .cqSetupWrite who n m r v => some (who, cqSetupReg n m r, v)
  | .cqEnWrite who n m en => some (who, .cqCtl n m, (if en then 1 else 0))
  | .cqFaultClear who n m => some (who, .cqStat n m, (BitVec.ofNat 64 (2 ^ 26)))
  | .ledgerSnap who n => some (who, .tnLedgerCtl n, 1)
  | .ksOpen who => some (who, .ksCmd, 1)
  | .ksOpenc who => some (who, .ksCmd, 2)
  | .ksBankWrite who r v => some (who, ksBankReg r, v)
  | .ksCommit who => some (who, .ksCmd, 3)
  | .ksAbort who => some (who, .ksCmd, 4)
  | .ksZeroize who => some (who, .ksCmd, 5)
  | .ksExtend who => some (who, .ksCmd, 6)
  | .esRestart who => some (who, .esCtl, 2)
  | .rbgRestart who k => some (who, .rbgCtl, (BitVec.ofNat 64 (2 ^ k.val)))
  | .dcGo who k => some (who, .dcCtl k, 1)
  | .dcPause who k => some (who, .dcCtl k, 2)
  | .dcResume who k => some (who, .dcCtl k, 0)
  | .dcAbort who k => some (who, .dcCtl k, 4)
  | .dcRefetch who k => some (who, .dcCtl k, 0xA)
  | .dcClrcred who k => some (who, .dcCtl k, 0x10)
  | .dcConfigWrite who k r v => some (who, dcSetupReg k r, v)
  | .dcRecHeadWrite who k head => some (who, .dcRecHead k, (head.setWidth 64))
  | .fpSnap who n => some (who, .tnFpCtl n, 1)
  | .timeCapt who => some (who, .ownTimeCtl, 2)
  | .timeSync who => some (who, .ownTimeCtl, 4)
  | .adjGo who => some (who, .ownTimeCtl, 8)
  | .timeRunWrite who run => some (who, .ownTimeCtl, (if run then 1 else 0))
  | .genLoad who => some (who, .ownGenCmd, 1)
  | .genCommit who => some (who, .ownGenCmd, 2)
  | .genCancel who => some (who, .ownGenCmd, 3)
  | .genRollback who => some (who, .ownGenCmd, 4)
  | .genDiscard who => some (who, .ownGenCmd, 5)
  | .gateWrite who unit => some (who, .ownGate, (s.own.gate ||| put (gateIx unit) 1))
  | .ungate who unit => some (who, .ownGate, s.own.gate &&& ~~~ put (gateIx unit) 1)
  | .clkmonEnWrite who clk en => some (who, .ownClkmon, (if en then s.own.clkmon ||| put (clkIx clk) 1 else s.own.clkmon &&& ~~~ put (clkIx clk) 1))
  | .clkmonRelease who clk => if clk = .ctl then none else some (who, .ownClkmon, s.own.clkmon ||| put (3 + clkIx clk) 1)
  | .tileRejoin who t => some (who, .ownTileRejoin, (BitVec.ofNat 64 (2 ^ t.val)))
  | .csRejoin who c => some (who, .ownCsRejoin, (BitVec.ofNat 64 (2 ^ c.val)))
  | .journalFlush who => some (who, .ownJrnCtl, 1)
  | .noticeHeadWrite who head => some (who, .ownJrnNhead, (head.setWidth 64))
  | .noticeRingSetup who r v => some (who, noticeReg r, v)
  | .courseAccept who => some (who, .ownCourseCmd, 1)
  | .courseReject who => some (who, .ownCourseCmd, 2)
  | .courseReform who => some (who, .ownCourseCmd, 3)
  | .courseLeave who => some (who, .ownCourseCmd, 4)
  | .crsSnap who => some (who, .crsCtl, 1)
  | .bootEnClear who => some (who, .ownBoot, 0)
  | .engineResetRelease _ => none
  | .supplyFailureReset => none
  | .oscillatorReady => none
  | .fuseReadDone _ => none
  | .identityReady _ _ => none
  | .firstServicePoint => none
  | .ownClaim _ _ => none
  | .claimWindowClose => none
  | .ownAccept _ _ _ => none
  | .handoverLapsed => none
  | .registerWrite _ _ _ _ => none
  | .tenantResetDone _ => none
  | .sqPaused _ _ => none
  | .sqInvalDone _ _ => none
  | .entryCacheRead _ _ _ => none
  | .ringSlotReadReturn _ _ _ _ => none
  | .schedulerGrant _ => none
  | .chainStart _ _ _ => none
  | .dataReadReturn _ _ _ _ => none
  | .copyOperation _ _ => none
  | .cipherTileAllocate _ _ _ _ => none
  | .cipherYieldPoint _ _ => none
  | .digestTileAllocate _ _ _ _ _ => none
  | .digestSliceBoundary _ _ => none
  | .pkBankAssign _ _ _ _ => none
  | .pkYieldPoint _ _ _ _ => none
  | .pkCheckPhaseEnd _ => none
  | .digestServiceDone _ => none
  | .mlDsaIterationCap _ => none
  | .pairedPieceCompare _ _ _ => none
  | .voterAssign _ _ _ => none
  | .voteResult _ _ _ => none
  | .operationEnd _ _ _ _ _ _ _ => none
  | .pkBankZeroized _ _ => none
  | .keyCacheLoad _ _ => none
  | .keyInstall _ _ => none
  | .keyCacheUnload _ _ => none
  | .hkdf _ _ => none
  | .counterModeKdf _ _ => none
  | .kilnDerivation _ _ => none
  | .randomDraw _ _ => none
  | .attestationStatement _ _ _ _ => none
  | .fenceReadbackReturn _ _ _ _ => none
  | .completionRecordWrite _ _ => none
  | .cqCoalTimeout _ _ => none
  | .reservoirRecordWrite _ _ _ => none
  | .rescueCopy _ _ _ => none
  | .busErrorResponse _ _ _ => none
  | .ksVerifyDone _ => none
  | .ksDrained _ => none
  | .ksBackgroundScan _ _ => none
  | .entropySample _ => none
  | .entropyBlockConditioned _ => none
  | .esRawRead _ => none
  | .rbgReseed _ _ _ => none
  | .dcPacePulse _ => none
  | .dcUnitStart _ => none
  | .descriptorFetchReturn _ _ => none
  | .dcElementGrant _ _ _ => none
  | .dcCompletionPoint _ _ => none
  | .seta _ => none
  | .adda _ => none
  | .setc _ => none
  | .move _ _ => none
  | .xmove _ _ => none
  | .xcfg _ => none
  | .loop _ => none
  | .jump _ => none
  | .wait _ => none
  | .fence _ => none
  | .post _ _ => none
  | .record _ => none
  | .event _ => none
  | .halt _ => none
  | .frameHeaderQueryReturn _ _ _ => none
  | .frameLoan _ => none
  | .frameWaitTimeout _ => none
  | .frameReturn _ _ _ => none
  | .tsuStrobe _ _ => none
  | .comparatorFire _ => none
  | .triggerEdge _ => none
  | .budgetRefill => none
  | .genLoadDone _ => none
  | .genTakeEffect => none
  | .genSlow => none
  | .gateIdle _ => none
  | .clockStopTrip _ => none
  | .clkmonWindow _ _ => none
  | .oscFault => none
  | .fencedZeroizeDone => none
  | .islandRejoin _ _ => none
  | .supplyWarn => none
  | .supplyClear => none
  | .retReqRise => none
  | .retentionEntry => none
  | .retReqFall => none
  | .wakeComplete => none
  | .rejoinTestDone _ _ => none
  | .groutStep _ _ => none
  | .groutForce _ => none
  | .tileWatchdog _ _ => none
  | .csWatchdog _ _ => none
  | .requestWatchdog _ => none
  | .journalRead _ _ _ => none
  | .journalReadTimeout => none
  | .journalLostStore => none
  | .statTimeLowRead _ => none
  | .captureReadLatch _ _ => none
  | .courseHello _ _ => none
  | .courseAgreeReceived _ _ _ => none
  | .coursePairingTimeout => none
  | .courseGroup _ _ => none
  | .courseMasterTimeout => none
  | .courseLaneDown _ => none
  | .beat => none
  | .courseFrameReceive _ _ => none
  | .coursePeerSilent _ => none
  | .takeover _ _ => none
  | .fwdReq _ _ => none
  | .courseForward _ _ => none
  | .fwdResult _ _ => none
  | .fwdCancel _ _ => none
  | .credit _ _ => none
  | .blockReq _ _ => none
  | .blockGrant _ _ => none
  | .ctrSync _ _ => none
  | .ctrAck _ _ => none
  | .slotBank _ _ => none
  | .bootSlotPoll _ => none
  | .bootRequest => none
  | .bootExtend _ => none
  | .engineResetAssert => none
  | .oscStartTimeout => none
  | .startupClearDone => none
  | .knownAnswerTestsDone _ _ _ => none
  | .rbgInstantiate _ _ _ => none
  | .tenantResetWait _ => none
  | .courseLaneUp _ => none
  | .timeLowWrap => none
  | .tcmpPulseEnd _ => none
  | .debugRead _ _ _ => none

/-! ### Events, drops and requests that go on -/

/-- An event of tenant n is recorded: its cause bit and the pending bit of its source (R437, R497). -/
def TenEvent (t : State) (n e : Nat) : Prop :=
  (t.ten n).evCause.toNat.testBit e = true ∧ (t.ten n).evPend.toNat.testBit (sourceOf e) = true

/-- A register write was dropped: one record, one count, and nothing but the parts of a drop changed (R38). -/
def Dropped (s t : State) : Prop := Only dropParts s t ∧ t.jrn.seq = s.jrn.seq + 1 ∧ t.denied = s.denied.bump

/-- A reset of tenant n has started (R46, R129, R434): IN_RESET reads 1; its queued requests are discarded, each counted in CLAMPED; its entry
cache slots are released, and no read of its rings that is under way is wanted any more. -/
def ResetStarted (s t : State) (n : Nat) : Prop :=
  (t.ten n).inReset = true ∧ (t.ten n).led = { (s.ten n).led with clamped := (s.ten n).led.clamped + queuedOf s n } ∧
    ∀ m, m < 16 → (t.sq n m).queued = 0 ∧ (t.sq n m).posts = [] ∧ (t.sq n m).cache = [] ∧ ∀ r ∈ (t.sq n m).flight, r.live = false

/-- No reset of tenant n has started: whether it is in reset, its ledger and its rings are as they were. -/
def ResetNotStarted (s t : State) (n : Nat) : Prop :=
  (t.ten n).inReset = (s.ten n).inReset ∧ (t.ten n).led = (s.ten n).led ∧ ∀ m, m < 16 → t.sq n m = s.sq n m

/-- Request id is still there; it goes on in the phase in which it was, or its chain has ended with an outcome; and P holds of it. -/
def RunsOn (t : State) (id : Nat) (r : Req) (P : Req → Prop) : Prop :=
  ∃ r', t.req id = some r' ∧ r'.tenant = r.tenant ∧ r'.entry = r.entry ∧ (r'.phase = r.phase ∨ (r'.phase = .ended ∧ r'.outcome.isSome = true)) ∧ P r'

/-- The chain of request id has ended with an outcome, and its record is still to be written. -/
def EndedWith (t : State) (id : Nat) (r : Req) (o : Outcome) : Prop :=
  ∃ r', t.req id = some r' ∧ r'.tenant = r.tenant ∧ r'.entry = r.entry ∧ r'.phase = .ended ∧ r'.outcome = some o

/-- Tile n has left service with a cause: it is quarantined, or retired where it was quarantined twice before, and EV_QUARANTINE is pending
(R422, R424). -/
def OutOfService (s t : State) (n cause : Nat) : Prop :=
  (t.tile n).st = (if 2 ≤ (s.tile n).qcount.toNat then .retired else .quarantined) ∧ (t.tile n).qcause = BitVec.ofNat 3 cause ∧
    bitOf t.evPend gQuarantine = true

/-- Request id of the record r is still in flight. -/
def StillThere (t : State) (id : Nat) (r : Req) : Prop := ∃ r', t.req id = some r' ∧ r'.tenant = r.tenant ∧ r'.entry = r.entry

/-! ### Channels, pulses and clocks -/

/-- What a channel holds of its program and of its configuration; the rest says how far it has come. -/
def Chan.prog (c : Chan) : Chan :=
  { desc := c.desc, aregs := c.aregs, cregs := c.cregs, xcfg := c.xcfg, cfg := c.cfg, dbase := c.dbase, dcount := c.dcount, first := c.first,
    post := c.post, recBase := c.recBase, recCfg := c.recCfg, recHead := c.recHead, lost := c.lost, postdrop := c.postdrop }

/-- Channel k has stopped with a fault (R323, R326): STOPPED, FAULT, the status and the detail in AH_DCk_FAULT, and EV_DC_STOP. -/
def ChanStopped (s t : State) (k st detail : Nat) : Prop :=
  (t.dc k).st = .stopped ∧ (t.dc k).fault = true ∧ (t.dc k).held = none ∧ (t.dc k).cap.status = BitVec.ofNat 8 st ∧
    (t.dc k).cap.detail = BitVec.ofNat 8 detail ∧ TenEvent t (dcTen s k).val evDcStop

/-- The fetch of the descriptor or instruction `d` of channel k passes its check (R302). -/
def itemOk (s : State) (k d : Nat) : Prop :=
  check s s.gen.act (some (dcTen s k)) (dcWorld s k) .read ((s.dc k).itemAddr d) (s.dc k).itemLen = none

/-- Channel k goes on at the descriptor or instruction `d` (R305, R315, R328): outside the table it stops with UNSUPPORTED 0x80; inside it
the fetch is asked for, or fails its check; a copy that was read ahead is taken. -/
def GoesOn (s t : State) (k d : Nat) : Prop :=
  (t.dc k).desc = d ∧ ((s.dc k).count ≤ d → ChanStopped s t k stUnsupported 0x80) ∧
  (d < (s.dc k).count → (s.dc k).pref = [] →
    (itemOk s k d → (t.dc k).st = .running ∧ (t.dc k).fetching = true ∧ (t.dc k).held = none ∧ (t.dc k).credit = (s.dc k).credit) ∧
    (¬itemOk s k d → ChanStopped s t k stAccess 0x80))

/-- Channel k has reached a trowel instruction with an operation code, and runs. -/
def AtOp (s : State) (k : ChanIx) (opc : Nat) (b : Bytes) : Prop :=
  dcuOn s = true ∧ (s.dc k.val).st = .running ∧ (s.dc k.val).trowel = true ∧ (s.dc k.val).held = some b ∧ (s.dc k.val).fetching = false ∧ tOpc b = opc

/-- What a channel may change of the rest of the state. -/
def chanParts : List Part := [.dcs, .tens, .out]

/-- What one pulse of a source, of time `at`, does to every channel and every ring that names the source (R312, R314, R352, R354, R355):
a channel that has not ended takes a credit, or loses the pulse at 15 of them; a ring holds the pulse, releases for it at once what is not
released, or loses it at 8 held pulses. -/
def PulseGiven (src : Nat) (time : Word) (s t : State) : Prop :=
  (∀ k, k < 64 →
    ((s.dc k).psrc ≠ src ∨ (s.dc k).st = .idle → t.dc k = s.dc k) ∧
    ((s.dc k).psrc = src → (s.dc k).st ≠ .idle → (s.dc k).credit < 15 →
      (t.dc k).credit = (s.dc k).credit + 1 ∧ (t.dc k).lost = (s.dc k).lost ∧ (t.dc k).held = (s.dc k).held) ∧
    ((s.dc k).psrc = src → (s.dc k).st ≠ .idle → 15 ≤ (s.dc k).credit →
      t.dc k = { s.dc k with lost := (s.dc k).lost.bump } ∧ TenEvent t (dcTen s k).val evDcPaceLost)) ∧
  (∀ n m, n < 16 → m < 16 →
    let q := s.sq n m
    let names := q.pulseMode = true ∧ q.rsrc = src ∧ s.enabled n = true
    (¬names → t.sq n m = q) ∧
    (names → 8 ≤ q.pulses.length → t.sq n m = { q with plost := q.plost.bump } ∧ TenEvent t n evSchedPulseLost) ∧
    (names → q.pulses.length < 8 → (∀ p, p ∈ q.posts → p.release.isSome = true) → t.sq n m = { q with pulses := q.pulses ++ [time] }) ∧
    (names → q.pulses = [] → s.run = true → (∃ p, p ∈ q.posts ∧ p.release = none) →
      t.sq n m = { q with posts := releaseFor q time q.rper q.posts }))

/-- A detector of clock k has tripped (R401, R404 to R406): its bit of CAUSE, with OSC_START while the oscillator starts. A clock that was fenced, with
no release under way, stays as it was; any other is fenced, and no tile of the islands that the response stops is in service; with the reset response
the control island is held too, so that the register window is closed and nothing is started. The others stay as they are. -/
def Tripped (s t : State) (k : ClkName) (bit : Nat) : Prop :=
  let again := (s.mon k).fenced = true ∧ (s.mon k).release = false
  let reset := k = .ctl ∨ respReset s = true
  let tiles := if reset then List.range 24 else clkTiles k
  t.clk.cause = s.clk.cause ||| BitVec.ofNat 8 (2 ^ bit + (if s.start.osc then 0 else 2 ^ 6)) ∧ (t.mon k).clean = 0 ∧ (t.mon k).fenced = true ∧
  (again → Only [.clk] s t) ∧
  (¬again → Only ([.start, .reqs, .tiles, .clk] ++ recordParts) s t ∧ (t.mon k).zeroDue = true ∧ (t.mon k).release = false ∧ bitOf t.evPend gClkTrip = true ∧
    (s.start.cleared = true → t.jrn.seq = s.jrn.seq + 1) ∧
    (reset → t.start = { s.start with serving := false, cleared := false }) ∧ (¬reset → t.start = s.start) ∧
    ∀ x, (x ∈ tiles → (t.tile x).st ≠ .healthy ∧ (t.tile x).st ≠ .testing) ∧ (x ∉ tiles → t.tile x = s.tile x))

/-! ### The boot ring -/

/-- The boot entry held is taken and answered at once (R474, R477, R478): the head moves past it, SEQ goes on, ADMITTED and COMPLETED both count, and,
where the write of the record passes its check, the record is written at its own index after what `y` has sent, with the status, the detail and
CONSUMED. -/
def BootAnswered (s y t : State) (status detail consumed : Nat) : Prop :=
  t.reqs = s.reqs ∧ t.boot = { s.boot with
    head := (s.boot.head + bootSpan s.boot.slot) % (2 * s.boot.slots), seq := nextSeq s.boot.seq, slot := []
    admitted := s.boot.admitted + 1, completed := s.boot.completed + 1, inflight := s.boot.inflight } ∧
  (check s s.gen.act none .secure .write (bootRecAddr s s.boot.head) 32 = none → ∃ tag, t.out =
    (emitRecord (bootRecAddr s s.boot.head) (stampRecord ((s.boot.completed + 1).toNat % 65536) (phaseAt s.boot.k.toNat s.boot.head) false
      (recordOf tag 0 ⟨BitVec.ofNat 8 status, BitVec.ofNat 8 detail, 0⟩ 0 consumed 0 s.gen.active.toNat 0x7FFFFFF 0 (256 * b2n (!s.run)) s.time.ns)) y).out)

end Sys2Proof.Machine
end

