-- ==== Sys2Proof/Certificates/Slice0/Obligations.lean ====
section
/-!
DEFINITION. The statements about the engine, O1 to O60, in the order of the spec's chapters. `exec` is total (notes/assumptions/1.md): every
conclusion names the next state, and a command that is not enabled leaves the state as it is. `Only` lists the parts of the state that may
change; every part that it does not list is as it was.
-/

set_option Elab.async false

open Sys2Proof Sys2Proof.Machine

/-- O1. A step runs the command at the front of the queue, with the rest of the queue left: what exec answers, step answers. -/
def Obligations.StepRunsFrontCommand : Prop :=
  ∀ (c : Instr) (rest : List Instr) (s : State), step { s with pending := c :: rest } = exec c { s with pending := rest }

/-- O2. On an empty queue a step is one control cycle of the time count and nothing else: while RUN is 1 the count, an integer with a
32-bit fraction, rises by INC modulo 2^64 on the integer, and while it is 0 it stands (R347, R351; that the empty queue stands for a control
cycle is the model's choice, log entry 2). -/
def Obligations.EmptyQueueTicks : Prop :=
  ∀ s : State, s.pending = [] → ∃ t, step s = .next t ∧ Only [.time] s t ∧
    (s.run = true → t.time.ns.toNat * 2 ^ 32 + t.time.frac.toNat =
      (s.time.ns.toNat * 2 ^ 32 + s.time.frac.toNat + s.own.timeInc.toNat) % 2 ^ 96) ∧
    (s.run = false → t.time = s.time)

/-- O3. The machine right after reset satisfies the invariant. -/
def Obligations.ResetIsSafe : Prop := Inv State.reset

/-- O4. Every step keeps the invariant: the counters of every tenant, of the course and of the boot ring balance, the journal fits, at
most 4096 cells are on loan, the entropy pool holds at most 8 blocks (R127, R342, R434, R442, R463, R478, R283). -/
def Obligations.StepKeepsInvariant : Prop := ∀ s t : State, Inv s → step s = .next t → Inv t

/-- O5. Whatever the state and the operands, a command changes only the parts of the state that `mayChange` lists for it; no command
touches the queue.
What the model chose or read where the spec is open: log entry 1. -/
def Obligations.EveryCommandFrame : Prop := ∀ (c : Instr) (s t : State), exec c s = .next t → Only (mayChange c) s t

/-- O6. An assertion of ah_rst_n, and a supply failure, take every part of the state but the accesses that have left the block and the
numbering of free values to its reset value; AH_STAT_RESET.CAUSE tells the two apart (R32, R240, R411). The release of the reset samples
the straps and gives RESP, the boot ring's EN and the debug EN their strap values (R48); what reset leaves elsewhere is State.reset. -/
def Obligations.ResetAndRelease : Prop :=
  (∀ s : State, ∃ t, exec .engineResetAssert s = .next t ∧ (∀ p ∈ resetParts, p ≠ .start → p.same State.reset t) ∧
    t.start = { State.reset.start with cause := 0 } ∧ t.out = s.out) ∧
  (∀ s : State, ∃ t, exec .supplyFailureReset s = .next t ∧ (∀ p ∈ resetParts, p ≠ .start → p.same State.reset t) ∧
    t.start = { State.reset.start with cause := 1 } ∧ t.out = s.out) ∧
  (∀ (strap : BitVec 16) (s : State), s.start.rst = true → (s.start.cause ≠ 2 ∨ allInBand s = true) →
    ∃ t, exec (.engineResetRelease strap) s = .next t ∧ Only [.start, .own] s t ∧ t.start.rst = false ∧ t.start.strap = strap ∧
      bitOf t.own.clkmon 0 = strap.toNat.testBit 12 ∧ bitOf t.own.boot 0 = strap.toNat.testBit 14 ∧
      bitOf t.own.dbg 0 = strap.toNat.testBit 15)

/-- O7. The steps of the cold start, each in its place (R469 to R471): the oscillator ready, or its 40 µs over; the clearing, which ends
with the journal readable; the known-answer tests, all passed; the fuse read; the identity, which is not kept where a result check of its keys
fails; the first service point, at which the claim window opens.
What the model chose or read where the spec is open: log entries 7 and 8. -/
def Obligations.ColdStartSteps : Prop :=
  (∀ s : State, s.start.rst = false → s.start.osc = false → s.start.phase = 1 → (s.ret.asleep = false ∨ s.sup.active = false) →
    ∃ t, exec .oscillatorReady s = .next t ∧ Only [.start, .clk] s t ∧ t.start.osc = true ∧ t.start.phase = 2 ∧ t.start.hold = false) ∧
  (∀ s : State, starting s = true → s.start.osc = false →
    ∃ t, exec .oscStartTimeout s = .next t ∧ Only [.start] s t ∧ t.start.hold = true ∧ t.start.nmi = true ∧
      t.start.fail.toNat.testBit faOsc = true ∧ t.start.phase = s.start.phase) ∧
  (∀ s : State, starting s = true → s.start.osc = true → s.start.cleared = false →
    ∃ t, exec .startupClearDone s = .next t ∧ t.start.cleared = true ∧ t.start.phase = 3) ∧
  (∀ s : State, s.ret.asleep = false → starting s = true → s.start.cleared = true → s.start.kat = false →
    ∃ t, exec (.knownAnswerTestsDone 0 0 true) s = .next t ∧ t.start.kat = true ∧ t.start.phase = 4 ∧ t.tiles = s.tiles ∧ t.css = s.css) ∧
  (∀ (f : FuseWord) (s : State), starting s = true → s.start.kat = true → s.start.fuses = false → s.sup.active = false → f.readOk = true →
    ∃ t, exec (.fuseReadDone f) s = .next t ∧ t.start.fuses = true ∧ t.start.phase = 5 ∧ t.start.fail = s.start.fail ∧
      t.roots.lc = lcOf f.state ∧ t.boot.base = f.bootBase ∧ t.boot.k = f.bootK ∧
      (t.roots.udsOk = (!allZero f.uds && !f.udsErase)) ∧
      (t.roots.lbsOk = (!allZero f.lbs && !f.lbsErase && decide ((lcOf f.state).toNat ≤ 3)))) ∧
  (∀ s : State, s.start.fuses = true → s.roots.kU.isSome = true → s.ident.ready = false → rbgHealthy s = true → healthyOf s 3 ≠ [] →
    s.sup.active = false → ∃ t, exec .identityReady s = .next t ∧ Only [.start, .ident] s t ∧ t.ident.ready = true ∧
      t.ident.ueid = sha3_256 t.ident.cPub ∧ t.ident.kidC = (sha3_256 t.ident.cPub).take 8 ∧
      t.ident.kidQ = (sha3_256 t.ident.qPub).take 8 ∧ t.ident.tr = dsaTr t.ident.qPub) ∧
  (∀ (okC okQ : Bool) (s : State), (okC && okQ) = false → ∃ t, exec (.identityReady okC okQ) s = .next t ∧ t.ident = s.ident) ∧
  (∀ s : State, starting s = true → s.start.fuses = true →
    ∃ t, exec .firstServicePoint s = .next t ∧ t.start.serving = true ∧ t.start.phase = 7 ∧ t.owner.st = .claimOpen)

/-- O8. While the claim window is open, a secure master's claim of priority 1 to 255 is one claim: the engine keeps the leading claim alone
and shows it in LEAD_MID and LEAD_PRIO; the new claim replaces it when its priority is higher, or equal from a lower master ID, and
a claim that does not outrank it leaves it as it is (R29). -/
def Obligations.LeadingClaim : Prop :=
  ∀ (who : Who) (prio : BitVec 8) (s : State), s.start.cleared = true → who.dbg = false → s.owner.st = .claimOpen → who.world = .secure →
    prio ≠ 0 → ∃ t, exec (.ownClaim who prio) s = .next t ∧ Only [.owner] s t ∧
      (s.owner.leadPrio < prio ∨ (s.owner.leadPrio = prio ∧ who.mid < s.owner.leadMid) →
        t.owner = { s.owner with leadMid := who.mid, leadPrio := prio }) ∧
      (prio < s.owner.leadPrio ∨ (prio = s.owner.leadPrio ∧ s.owner.leadMid ≤ who.mid) → t.owner = s.owner) ∧
      fld (readStat t .statOwner) 23 16 = t.owner.leadMid.toNat ∧ fld (readStat t .statOwner) 31 24 = t.owner.leadPrio.toNat

/-- O9. At the close of the window the master of the leading claim becomes the owner with cause CLAIM, or, with no leading claim, the
strapped master with cause STRAP; STATE is OWNED and EV_OWNER_ELECTED is pending (R31).
What the model chose or read where the spec is open: log entry 8. -/
def Obligations.OwnerElected : Prop :=
  ∀ s : State, s.owner.st = .claimOpen → ∃ t, exec .claimWindowClose s = .next t ∧ Only [.owner, .evPend] s t ∧
    t.owner.st = .owned ∧ bitOf t.evPend gOwnerElected = true ∧
    (s.owner.leadPrio ≠ 0 → t.owner.mid = s.owner.leadMid ∧ t.owner.cause = 1) ∧
    (s.owner.leadPrio = 0 → t.owner.mid.toNat = s.start.strap.toNat % 256 ∧ t.owner.cause = 2)

/-- O10. The handover (R33 to R35): the owner's offer to another master is recorded and STATE is OFFERED, and one that names the owner
cancels the offer; the accept of the offered secure master makes it the owner; the lapse leaves the owner as it was. Each ends with its
event pending. An accept that is not the target's, or that meets an offer of its control cycle, is ignored with one record and one count
(R36, row 1); a write of 0 to GO asks for nothing of the owner and of the target, and is a dropped write of any other master (R37).
What the model chose or read where the spec is open: log entries 3 and 32. -/
def Obligations.Handover : Prop :=
  (∀ (who : Who) (target : BitVec 8) (s : State), Takes s who .ownHandover (target.setWidth 64) →
    ∃ t, exec (.ownHandover who target) s = .next t ∧ Only [.owner] s t ∧ t.owner.mid = s.owner.mid ∧
      (target ≠ s.owner.mid → t.owner.st = .offered ∧ t.owner.offer = target) ∧
      (target = s.owner.mid → t.owner.st = .owned ∧ t.owner.offer = 0)) ∧
  (∀ (who : Who) (s : State), s.start.cleared = true → who.dbg = false → s.owner.st = .offered → who.mid = s.owner.offer → who.world = .secure →
    ∃ t, exec (.ownAccept who true false) s = .next t ∧ Only [.owner, .evPend] s t ∧ t.owner.mid = who.mid ∧ t.owner.cause = 3 ∧
      t.owner.st = .owned ∧ t.isOwner who = true ∧ bitOf t.evPend gHandoverDone = true) ∧
  (∀ (who : Who) (meets : Bool) (s : State), s.start.cleared = true → who.dbg = false →
    (meets = true ∨ s.owner.st ≠ .offered ∨ who.mid ≠ s.owner.offer ∨ who.world ≠ .secure) →
    ∃ t, exec (.ownAccept who true meets) s = .next t ∧ Dropped s t) ∧
  (∀ (who : Who) (meets : Bool) (s : State), s.start.cleared = true →
    (s.start.serving = true → (s.isOwner who = true ∨ isTarget s who = true) → exec (.ownAccept who false meets) s = .next s) ∧
    ((s.start.serving = false ∨ (s.isOwner who = false ∧ isTarget s who = false)) →
      ∃ t, exec (.ownAccept who false meets) s = .next t ∧ Dropped s t)) ∧
  (∀ s : State, s.owner.st = .offered → ∃ t, exec .handoverLapsed s = .next t ∧ Only [.owner, .evPend] s t ∧ t.owner.st = .owned ∧
    t.owner.mid = s.owner.mid ∧ t.owner.offer = 0 ∧ bitOf t.evPend gHandoverLapsed = true)

/-- O11. A claim before the window opens, after it closes, of priority 0 or from the non-secure world is ignored with one journal record
and changes no part of the ownership (R30); before the first service point it is a dropped write too, and counts as one (R38, R470). In
every state a claim moves neither the owner nor the offer. -/
def Obligations.ClaimsIgnored : Prop :=
  (∀ (who : Who) (prio : BitVec 8) (s : State), s.start.cleared = true → who.dbg = false →
    (s.owner.st ≠ .claimOpen ∨ who.world ≠ .secure ∨ prio = 0) →
    ∃ t, exec (.ownClaim who prio) s = .next t ∧ t.owner = s.owner ∧ t.jrn.seq = s.jrn.seq + 1 ∧
      (s.start.serving = true → Only recordParts s t) ∧ (s.start.serving = false → Dropped s t)) ∧
  (∀ (who : Who) (prio : BitVec 8) (s : State), ∃ t, exec (.ownClaim who prio) s = .next t ∧ t.owner.mid = s.owner.mid ∧
    t.owner.st = s.owner.st ∧ t.owner.offer = s.owner.offer)

/-- O12. A register write that the port denies, whichever command makes it, changes nothing but the parts of a drop: one journal record is
created and AH_STAT_DENIED counts once (R37, R38, R434). -/
def Obligations.DeniedWrites : Prop :=
  ∀ (c : Instr) (who : Who) (r : Reg) (v : Word) (s : State), portWrite s c = some (who, r, v) → Denies s who r v →
    ∃ t, exec c s = .next t ∧ Only dropParts s t ∧ t.jrn.seq = s.jrn.seq + 1 ∧ t.denied = s.denied.bump

/-- O13. REGISTER_WRITE of 64 bits: a staged register's shadow takes the value under the register's field rules and its effective value stays
(R40, R380); AH_STAT_EV_PEND is cleared where ones are written (R7, R438); AH_OWN_EV_EN keeps its written fields. -/
def Obligations.RegisterWrites : Prop :=
  (∀ (who : Who) (off : BitVec 22) (val : Word) (r : Reg) (s : State), regAt off.toNat = some r → off.toNat % 8 = 0 → r.staged = true →
    Takes s who r val → s.gen.st = .idle →
    ∃ t, exec (.registerWrite who .b64 off val) s = .next t ∧ Only [.gen] s t ∧ (∀ q, t.eff q = s.eff q) ∧
      t.gen.shadow = s.setWord s.gen.shadow r (r.write (s.word s.gen.shadow r) (~~~ 0) val)) ∧
  (∀ (who : Who) (off : BitVec 22) (val : Word) (s : State), off.toNat = Reg.off .statEvPend → Takes s who .statEvPend val →
    ∃ t, exec (.registerWrite who .b64 off val) s = .next t ∧ Only [.evPend] s t ∧ t.evPend = s.evPend &&& ~~~ val) ∧
  (∀ (who : Who) (off : BitVec 22) (val : Word) (s : State), off.toNat = Reg.off .ownEvEn → Takes s who .ownEvEn val →
    ∃ t, exec (.registerWrite who .b64 off val) s = .next t ∧ Only [.own] s t ∧
      t.own.evEn = Reg.write .ownEvEn s.own.evEn (~~~ 0) val)

/-- O14. Writes that the port drops before any register is reached (R14, R38): of 8 or 16 bits, of 32 or 64 bits that are not naturally
aligned, and to an offset that holds no register. Each leaves one record and one count and changes nothing else. -/
def Obligations.MisfitWrites : Prop :=
  ∀ (who : Who) (size : AccSize) (off : BitVec 22) (val : Word) (s : State), s.start.cleared = true → s.clk.gated.toNat.testBit 24 = false →
    (size = .b8 ∨ size = .b16 ∨ (size = .b32 ∧ off.toNat % 4 ≠ 0) ∨ (size = .b64 ∧ off.toNat % 8 ≠ 0) ∨ regAt (off.toNat / 8 * 8) = none) →
    ∃ t, exec (.registerWrite who size off val) s = .next t ∧ Only dropParts s t ∧ t.jrn.seq = s.jrn.seq + 1 ∧ t.denied = s.denied.bump

/-- O15. A tenant reset starts for each enabled tenant that the write names and that is not in reset (R46, R129, R434): IN_RESET reads 1, its
queued requests are discarded, each counted in CLAMPED, and its entry cache slots released, and no read of its rings is wanted any more. A
tenant that the write does not name, that is disabled or that is in reset already keeps its state of reset, its ledger and its rings; the
wait of more than 100 µs for places is flagged once (R436).
What the model chose or read where the spec is open: log entry 8. -/
def Obligations.TenantResetStarts : Prop :=
  (∀ (who : Who) (mask : BitVec 16) (s : State), Takes s who .ownTrst (mask.setWidth 64) →
    ∃ t, exec (.ownTrst who mask) s = .next t ∧
      Only ([.tens, .sqs, .sch, .reqs, .tiles, .streams, .ks, .dcs, .fp, .crs] ++ dropParts) s t ∧
      ∀ n, n < 16 →
        let starts := mask.toNat.testBit n = true ∧ s.enabled n = true ∧ (s.ten n).inReset = false
        (starts → ResetStarted s t n) ∧ (¬starts → ResetNotStarted s t n)) ∧
  (∀ (who : Who) (n : TenantIx) (s : State), Takes s who (.tnCtl n) 1 → s.enabled n.val = true → (s.ten n.val).inReset = false →
    ∃ t, exec (.tenantCtlReset who n) s = .next t ∧
      Only ([.tens, .sqs, .sch, .reqs, .tiles, .streams, .ks, .dcs, .fp, .crs] ++ dropParts) s t ∧
      ResetStarted s t n.val ∧ ∀ k, k < 16 → k ≠ n.val → ResetNotStarted s t k) ∧
  (∀ (who : Who) (n : TenantIx) (s : State), Takes s who (.tnCtl n) 1 → (s.enabled n.val = false ∨ (s.ten n.val).inReset = true) →
    exec (.tenantCtlReset who n) s = .next s) ∧
  (∀ (n : TenantIx) (r : Req) (s : State), (s.ten n.val).inReset = true → (s.ten n.val).rstWait = false → r ∈ s.reqs → r.ofTenant n = true →
    r.phase = .waiting → ∃ t, exec (.tenantResetWait n) s = .next t ∧ Only [.tens, .evPend] s t ∧ OtherTens n.val s t ∧
      (t.ten n.val).rstWait = true ∧ bitOf t.evPend gTrstWait = true)

/-- O16. A tenant reset ends once no admitted request of the tenant is left (R47, R434, R435): IN_RESET reads 0, every ring of the tenant is at
its reset values, with nothing but reads that still return and are not wanted, its event registers are zero, EV_TRST_DONE is pending; every other tenant, and every ring of another tenant, stays.
What the model chose or read where the spec is open: log entry 24. -/
def Obligations.TenantResetEnds : Prop :=
  ∀ (n : TenantIx) (s : State), (s.ten n.val).inReset = true → (∀ r ∈ s.reqs, r.ofTenant n = false) →
    ∃ t, exec (.tenantResetDone n) s = .next t ∧ Only [.tens, .sqs, .cqs, .sent, .ks, .evPend] s t ∧ OtherTens n.val s t ∧
      (t.ten n.val).inReset = false ∧ (t.ten n.val).evEn = 0 ∧ (t.ten n.val).evPend = 0 ∧ (t.ten n.val).evCause = 0 ∧
      (∀ m, m < 16 → t.sq n.val m = { flight := (s.sq n.val m).flight.map (fun r => { r with live := false }) } ∧ t.cq n.val m = {}) ∧
      (∀ a m, a ≠ n.val → m < 16 → t.sq a m = s.sq a m ∧ t.cq a m = s.cq a m) ∧ bitOf t.evPend gTrstDone = true

/-- O17. A doorbell that the ring takes and that fits (R58): the tail becomes TAIL, POSTED rises by COUNT, CLAMPED by COUNT - c and QUEUED by c,
where c is the smaller of COUNT and the advance a; when COUNT - c is not 0, CLAMP is set and EV_SQ_CLAMP raised, and else CLAMP stays as it
was. No other ring and no other tenant changes. A doorbell that meets another one of the ring in its control cycle is judged against the tail
that the first left and against the head before it (R57, R63).
What the model chose or read where the spec is open: log entry 3. -/
def Obligations.DoorbellTaken : Prop :=
  ∀ (who : Who) (n : TenantIx) (m : RingIx) (tail : BitVec 17) (count : BitVec 15) (meets : Bool) (s : State),
    Takes s who (.dbSq n m) (BitVec.ofNat 64 (tail.toNat + 2 ^ 17 * count.toNat)) → doorbellDropped s n m = false →
    let q := s.sq n m
    let md := 2 ^ (q.k + 1)
    let a := (tail.toNat % md + md - q.tail % md) % md
    let c := min count.toNat a
    let head := if meets then q.headWas else q.head
    a ≤ 2 ^ q.k - occ q.k head q.tail →
    ∃ t, exec (.sqDoorbell who n m tail count meets) s = .next t ∧ Only [.tens, .sqs] s t ∧ OtherTens n s t ∧ OtherSqs n m s t ∧
      (t.sq n m).tail = tail.toNat % md ∧ (t.sq n m).queued = q.queued + BitVec.ofNat 64 c ∧
      (t.ten n).led = { (s.ten n).led with
        posted := (s.ten n).led.posted + BitVec.ofNat 64 count.toNat
        clamped := (s.ten n).led.clamped + BitVec.ofNat 64 (count.toNat - c) } ∧
      (t.sq n m).clamp = (q.clamp || decide (count.toNat - c ≠ 0)) ∧ (count.toNat - c ≠ 0 → TenEvent t n evSqClamp)

/-- O18. A doorbell that would move the tail past the head is clamped (R59): the tail becomes head + 2^k, POSTED and CLAMPED rise by COUNT,
QUEUED does not move, CLAMP is set and EV_SQ_CLAMP raised; in a paused ring, whose head cannot move, exactly the indices from the former
tail up to the new one are marked void. A doorbell to a ring that is disabled, or whose tenant is in reset or disabled, is dropped: it moves no
counter and is recorded; no other state of the ring, PAUSE among them, makes a doorbell that is dropped (R62). -/
def Obligations.DoorbellClampedOrDropped : Prop :=
  (∀ (who : Who) (n : TenantIx) (m : RingIx) (tail : BitVec 17) (count : BitVec 15) (meets : Bool) (s : State),
    Takes s who (.dbSq n m) (BitVec.ofNat 64 (tail.toNat + 2 ^ 17 * count.toNat)) → doorbellDropped s n m = false →
    let q := s.sq n m
    let md := 2 ^ (q.k + 1)
    let head := if meets then q.headWas else q.head
    2 ^ q.k - occ q.k head q.tail < (tail.toNat % md + md - q.tail % md) % md →
    ∃ t, exec (.sqDoorbell who n m tail count meets) s = .next t ∧ Only [.tens, .sqs] s t ∧ OtherTens n s t ∧ OtherSqs n m s t ∧
      (t.sq n m).tail = (head + 2 ^ q.k) % md ∧ (t.sq n m).queued = q.queued ∧
      (t.ten n).led = { (s.ten n).led with
        posted := (s.ten n).led.posted + BitVec.ofNat 64 count.toNat
        clamped := (s.ten n).led.clamped + BitVec.ofNat 64 count.toNat } ∧
      (t.sq n m).clamp = true ∧ TenEvent t n evSqClamp ∧
      (q.paused = true → (t.sq n m).voids = q.voids ++
        (List.range (((head + 2 ^ q.k) % md + md - q.tail % md) % md)).map (fun i => (q.tail + i) % md))) ∧
  (∀ (who : Who) (n : TenantIx) (m : RingIx) (tail : BitVec 17) (count : BitVec 15) (meets : Bool) (s : State),
    Takes s who (.dbSq n m) (BitVec.ofNat 64 (tail.toNat + 2 ^ 17 * count.toNat)) →
    ((s.sq n m).en = false ∨ (s.ten n).inReset = true ∨ s.enabled n = false) →
    ∃ t, exec (.sqDoorbell who n m tail count meets) s = .next t ∧ Dropped s t) ∧
  (∀ (n : TenantIx) (m : RingIx) (s : State), doorbellDropped s n m = true ↔
    (s.sq n m).en = false ∨ (s.ten n).inReset = true ∨ s.enabled n = false)

/-- O19. Setting a ring up (R52, R77, R355, R499): while EN is 0, the ring empty and nothing queued, a write to BASE or CFG is taken and sets
the head and the tail to 0; otherwise a write to BASE, or to CFG with another SIZE, is dropped, and the other fields of CFG are taken, with
the credit discarded when CLASS changes. SCHED is taken at any time, and a change of RMODE or RSRC empties the held pulses. -/
def Obligations.RingSetup : Prop :=
  (∀ (who : Who) (n : TenantIx) (m : RingIx) (v : Word) (s : State), Takes s who (.sqBase n m) v →
    let q := s.sq n m
    ((q.en = false ∧ q.head = q.tail ∧ q.queued = 0) →
      ∃ t, exec (.sqSetupWrite who n m .base v) s = .next t ∧ Only [.sqs] s t ∧ OtherSqs n m s t ∧
        t.sq n m = { q with base := Reg.write (.sqBase n m) q.base (~~~ 0) v, head := 0, tail := 0 }) ∧
    (¬ (q.en = false ∧ q.head = q.tail ∧ q.queued = 0) →
      ∃ t, exec (.sqSetupWrite who n m .base v) s = .next t ∧ Dropped s t)) ∧
  (∀ (who : Who) (n : TenantIx) (m : RingIx) (v : Word) (s : State), Takes s who (.sqCfg n m) v →
    let q := s.sq n m
    let new := Reg.write (.sqCfg n m) q.cfg (~~~ 0) v
    let kept (c : Nat) : Nat := if fld new 21 20 = q.cls then c else 0
    ((q.en = false ∧ q.head = q.tail ∧ q.queued = 0) →
      ∃ t, exec (.sqSetupWrite who n m .cfg v) s = .next t ∧ Only [.sqs] s t ∧ OtherSqs n m s t ∧
        t.sq n m = { q with cfg := new, credit := kept q.credit, creditX := kept q.creditX, head := 0, tail := 0 }) ∧
    (¬ (q.en = false ∧ q.head = q.tail ∧ q.queued = 0) → fld v 4 0 = q.k →
      ∃ t, exec (.sqSetupWrite who n m .cfg v) s = .next t ∧ Only [.sqs] s t ∧ OtherSqs n m s t ∧
        t.sq n m = { q with cfg := new, credit := kept q.credit, creditX := kept q.creditX }) ∧
    (¬ (q.en = false ∧ q.head = q.tail ∧ q.queued = 0) → fld v 4 0 ≠ q.k →
      ∃ t, exec (.sqSetupWrite who n m .cfg v) s = .next t ∧ Dropped s t)) ∧
  (∀ (who : Who) (n : TenantIx) (m : RingIx) (v : Word) (s : State), Takes s who (.sqSched n m) v →
    let q := s.sq n m
    let new := Reg.write (.sqSched n m) q.sched (~~~ 0) v
    ∃ t, exec (.sqSetupWrite who n m .sched v) s = .next t ∧ Only [.sqs] s t ∧ OtherSqs n m s t ∧
      t.sq n m = { q with sched := new, pulses := if bitOf new 7 = q.pulseMode ∧ fld new 4 0 = q.rsrc then q.pulses else [] })

/-- O20. Clearing EN stops admission from the ring and releases its entry cache slots; a read under way still returns, and is not wanted; it
keeps its head, tail, void marks and QUEUED; setting
EN again resumes from the head, past void indices there and surplus slots only, with QUEUED as it stood (R67). A ring whose FAULT reads 1
when EN is set takes no entry.
What the model chose or read where the spec is open: log entry 25. -/
def Obligations.RingDisableEnable : Prop :=
  (∀ (who : Who) (n : TenantIx) (m : RingIx) (s : State), Takes s who (.sqCtl n m) 0 →
    let q := s.sq n m
    ∃ t, exec (.sqDisable who n m) s = .next t ∧ Only [.sqs] s t ∧ OtherSqs n m s t ∧ admissible t n m = false ∧
      t.sq n m = { q with
        en := false, blocked := false, cache := [], charges := [], flight := q.flight.map (fun r => { r with live := false }) }) ∧
  (∀ (who : Who) (n : TenantIx) (m : RingIx) (s : State), Takes s who (.sqCtl n m) 1 → (s.sq n m).en = false →
    let q := s.sq n m
    ∃ t, exec (.sqEnable who n m) s = .next t ∧ Only [.tens, .sqs] s t ∧ OtherTens n s t ∧ OtherSqs n m s t ∧ (t.ten n).led = (s.ten n).led ∧
      (t.sq n m).en = true ∧ (t.sq n m).blocked = q.fault ∧ (t.sq n m).tail = q.tail ∧ (t.sq n m).queued = q.queued ∧
      (q.fault = true → admissible t n m = false) ∧
      (q.voids = [] → (q.queued ≠ 0 ∨ q.head = q.tail) → t.sq n m = { q with en := true, blocked := q.fault }))

/-- O21. The rewrite procedure and the clearing of a fault (R66, R72, R73, R79, R498): PAUSE, then PAUSED once no read of the ring is
outstanding; INVAL discards the slots read, and is ignored while PAUSED reads 0; INVAL_BUSY clears, and the slots are released, when it is
done; PAUSE cleared meanwhile
takes effect then; FAULT clears only while EN is 0. -/
def Obligations.RingRewrite : Prop :=
  (∀ (who : Who) (n : TenantIx) (m : RingIx) (s : State), Takes s who (.sqCtl n m) 3 →
    ∃ t, exec (.sqPause who n m) s = .next t ∧ Only [.sqs] s t ∧ OtherSqs n m s t ∧
      t.sq n m = { s.sq n m with pause := true, unpauseDue := false }) ∧
  (∀ (n : TenantIx) (m : RingIx) (s : State), (s.sq n m).pause = true → (s.sq n m).flight = [] →
    ∃ t, exec (.sqPaused n m) s = .next t ∧ Only [.sqs] s t ∧ OtherSqs n m s t ∧ t.sq n m = { s.sq n m with paused := true }) ∧
  (∀ (who : Who) (n : TenantIx) (m : RingIx) (s : State), Takes s who (.sqCtl n m) 7 →
    ∃ t, exec (.sqInval who n m) s = .next t ∧ Only [.sqs] s t ∧ OtherSqs n m s t ∧
      ((s.sq n m).paused = false → t.sq n m = s.sq n m) ∧
      ((s.sq n m).paused = true → t.sq n m = { s.sq n m with
        invalBusy := true, cache := [], charges := [], discarded := (s.sq n m).discarded + (s.sq n m).cache.length })) ∧
  (∀ (n : TenantIx) (m : RingIx) (s : State), (s.sq n m).invalBusy = true →
    ∃ t, exec (.sqInvalDone n m) s = .next t ∧ Only [.tens, .sqs] s t ∧ OtherTens n s t ∧ OtherSqs n m s t ∧
      (t.sq n m).invalBusy = false ∧ (t.sq n m).discarded = 0 ∧ (t.sq n m).tail = (s.sq n m).tail ∧ (t.sq n m).queued = (s.sq n m).queued ∧
      (t.sq n m).paused = ((s.sq n m).paused && !(s.sq n m).unpauseDue)) ∧
  (∀ (who : Who) (n : TenantIx) (m : RingIx) (s : State), Takes s who (.sqCtl n m) 1 →
    ∃ t, exec (.sqUnpause who n m) s = .next t ∧ Only [.tens, .sqs] s t ∧ OtherTens n s t ∧ OtherSqs n m s t ∧
      (t.sq n m).pause = false ∧ (t.sq n m).tail = (s.sq n m).tail ∧ (t.sq n m).queued = (s.sq n m).queued ∧
      (t.sq n m).paused = ((s.sq n m).paused && (s.sq n m).invalBusy)) ∧
  (∀ (who : Who) (n : TenantIx) (m : RingIx) (s : State), Takes s who (.sqStat n m) 4 →
    ∃ t, exec (.sqFaultClear who n m) s = .next t ∧ Only [.sqs] s t ∧ OtherSqs n m s t ∧
      t.sq n m = { s.sq n m with fault := (s.sq n m).fault && (s.sq n m).en })

/-- O22. Reading a ring (R53, R54, R66, R68, R71, R412, R431): a read that may be made of the next slot, or of the next two where they lie in one
access, is issued as one access at the address of R54, when it passes the check; when it fails, or ends in a bus error, FAULT is set with the address, EV_SQ_FAULT raised, no entry is taken any more and the
requests counted stay queued. Slots that arrive join the cache, each under its own index; a slot that arrives with an uncorrectable error does
not, and is read again; slots that are wanted no more are dropped.
What the model chose or read where the spec is open: log entry 25. -/
def Obligations.RingReads : Prop :=
  (∀ (n : TenantIx) (m : RingIx) (slots : Nat) (s : State),
    let q := s.sq n m
    let i := q.nextSlot
    let addr (j : Nat) : Nat := q.base.toNat + (q.head + i + j) % 2 ^ q.k * 32
    let checked := check s s.gen.act (some n) q.dbWorld .read (addr 0) (32 * slots)
    ((slots = 1 ∨ slots = 2 ∧ addr 1 = addr 0 + 32 ∧ addr 0 % 4096 + 64 ≤ 4096) ∧ s.start.serving = true ∧ s.enabled n = true ∧
      (s.ten n).inReset = false ∧ q.en = true ∧ q.pause = false ∧ q.paused = false ∧ q.fault = false ∧ q.blocked = false ∧ s.ret.req = false ∧
      s.ret.asleep = false ∧ (∀ j, j < slots → mayRead1 s n m (i + j) = true) ∧ roomFor s q slots = true) →
    (checked = none →
      ∃ t, exec (.entryCacheRead n m slots) s = .next t ∧ Only [.sqs, .out] s t ∧ OtherSqs n m s t ∧
        t.sq n m = { q with flight :=
          q.flight ++ [⟨(q.head + i) % 2 ^ (q.k + 1), (List.range slots).map addr, decide (headLen q.front ≤ i), false, true⟩] } ∧
        t.out = (emitRd (addr 0) (32 * slots) s).out) ∧
    (∀ fa cause, checked = some (fa, cause) →
      ∃ t, exec (.entryCacheRead n m slots) s = .next t ∧ Only [.tens, .sqs] s t ∧ OtherSqs n m s t ∧ OtherTens n s t ∧
        (t.sq n m).fault = true ∧ (t.sq n m).blocked = true ∧ (t.sq n m).fcap.addr = BitVec.ofNat 48 fa ∧
        (t.sq n m).fcap.cause = BitVec.ofNat 4 cause ∧ (t.sq n m).queued = q.queued ∧ (t.sq n m).tail = q.tail ∧
        TenEvent t n evSqFault ∧ admissible t n m = false)) ∧
  (∀ (n : TenantIx) (m : RingIx) (data : Bytes) (r : RingRead) (rest : List RingRead) (s : State),
    let q := s.sq n m
    q.flight = r :: rest → data.length = 32 * r.addrs.length →
    (r.live = true → ∃ t, exec (.ringSlotReadReturn n m data .clean) s = .next t ∧ Only [.sqs] s t ∧ OtherSqs n m s t ∧
      (t.sq n m).flight = rest ∧ (t.sq n m).head = q.head ∧ (t.sq n m).tail = q.tail ∧ (t.sq n m).queued = q.queued ∧
      (t.sq n m).cache = q.cache ++
        (List.range r.addrs.length).map (fun j => ((r.idx + j) % 2 ^ (q.k + 1), slice data (32 * j) 32))) ∧
    (r.live = true → ∃ t, exec (.ringSlotReadReturn n m data .uncorrectable) s = .next t ∧ Only (.sqs :: recordParts) s t ∧ OtherSqs n m s t ∧
      t.sq n m = { q with flight := rest } ∧ bitOf t.evPend gUe = true ∧ t.jrn.seq = s.jrn.seq + 1) ∧
    (r.live = false → ∀ ecc, ∃ t, exec (.ringSlotReadReturn n m data ecc) s = .next t ∧ Only [.sqs] s t ∧ OtherSqs n m s t ∧
      t.sq n m = { q with flight := rest })) ∧
  (∀ (n : TenantIx) (m : RingIx) (addr : BitVec 48) (dir : Dir) (r : RingRead) (s : State), (s.sq n m).readAt addr.toNat = some r →
    ∃ t, exec (.busErrorResponse (.ring n m) addr dir) s = .next t ∧ OtherSqs n m s t ∧ (t.sq n m).fault = true ∧ (t.sq n m).blocked = true ∧
      (t.sq n m).fcap.addr = addr ∧ (t.sq n m).queued = (s.sq n m).queued ∧ (t.sq n m).tail = (s.sq n m).tail ∧ TenEvent t n evSqFault ∧
      admissible t n m = false ∧ t.jrn.seq = s.jrn.seq + 1)

/-- O23. The scheduler's choice (R75): SCHEDULED first; then BULK after seven EXPEDITE grants in a row; then EXPEDITE; then BULK. A forwarded
request that a context can take counts as one of the class BULK (R461; log entry 16). -/
def Obligations.GrantClass : Prop :=
  ∀ (s : State),
    let some? (c : Nat) : Prop := (∃ i, i < 256 ∧ admissibleIn s c i = true) ∨ (c = 2 ∧ fwdReady s = true)
    (some? 0 → grantClass s = some 0) ∧
    (¬ some? 0 → some? 2 → 7 ≤ s.sch.expRun → grantClass s = some 2) ∧
    (¬ some? 0 → ¬ (some? 2 ∧ 7 ≤ s.sch.expRun) → some? 1 → grantClass s = some 1) ∧
    (¬ some? 0 → ¬ some? 1 → some? 2 → grantClass s = some 2) ∧
    (¬ some? 0 → ¬ some? 1 → ¬ some? 2 → grantClass s = none)

/-- O24. SCHEDULER_GRANT (R16, R64, R65, R74, R75, R127, R128): the ring that the chosen class picks has an admissible request of that class at its
head; exactly that request is admitted, with the rules of the active generation and the next admission number; its slots leave the ring,
QUEUED falls by one, ADMITTED and INFLIGHT rise by one, and EXPEDITE grants in a row are counted. Where no request is admissible, none
is admitted. A grant to the forwarded requests admits the first of them, which no ring and no ledger counts. An uncorrectable error of the ledger memory marks the ledger of the tenant (R22, R131). (The marking of waiting rings and the
ending of visits and rounds go first: log entry 11; the place of the forwarded requests: log entry 16.) -/
def Obligations.GrantAdmits : Prop :=
  ∀ (ecc : Ecc) (s : State), s.start.serving = true → s.ret.req = false → s.ret.asleep = false →
    let s0 := turnRounds (markWaiting s)
    (grantClass s0 = none → ∃ t, exec (.schedulerGrant ecc) s = .next t ∧ t.reqs = s.reqs ∧ t.gen = s.gen ∧
      t.sch.nextId = s.sch.nextId ∧ t.sch.expRun = s.sch.expRun ∧ (∀ n, (t.ten n).led = (s.ten n).led) ∧
      ∀ n m, (t.sq n m).head = (s.sq n m).head ∧ (t.sq n m).queued = (s.sq n m).queued) ∧
    (∀ cls left, grantClass s0 = some cls → pickRing s0 cls = some (ringFwd, left) →
      ∃ t q rest cs, exec (.schedulerGrant ecc) s = .next t ∧ s.crs.queue = q :: rest ∧ t.crs.queue = rest ∧ cls = 2 ∧ t.sch.expRun = 0 ∧
        t.reqs = s.reqs ++ [{ q with id := s.sch.nextId, gen := s.gen.active, cs := cs }] ∧ t.sch.nextId = s.sch.nextId + 1 ∧
        t.tens = s0.tens ∧ t.sqs = s0.sqs) ∧
    (∀ cls i left, i ≠ ringFwd → grantClass s0 = some cls → pickRing s0 cls = some (i, left) →
      let n := ringT i
      let m := ringM i
      ∃ t e r, exec (.schedulerGrant ecc) s = .next t ∧ admissible s0 n m = true ∧ headClass s0 n m = cls ∧ headEntry (s0.sq n m) = some e ∧
        t.reqs = s.reqs ++ [r] ∧ r.tenant = n ∧ r.origin = .ring m ∧ r.entry = e ∧ r.gen = s.gen.active ∧ r.rulesPrev = false ∧ r.cls = cls ∧
        r.phase = .admitted ∧ r.id = s.sch.nextId ∧ t.sch.nextId = s.sch.nextId + 1 ∧ t.gen = s.gen ∧
        (t.sq n m).queued = (s0.sq n m).queued - 1 ∧ (t.sq n m).tail = (s0.sq n m).tail ∧
        (t.ten n).led = { (s.ten n).led with admitted := (s.ten n).led.admitted + 1, inflight := (s.ten n).led.inflight + 1 } ∧
        OtherSqs n m s0 t ∧ OtherTens n s0 t ∧
        t.sch.expRun = (if cls = 1 then s.sch.expRun + 1 else if cls = 2 then 0 else s.sch.expRun) ∧
        (ecc = .uncorrectable → (t.ten n).ledInvalid = true ∧ TenEvent t n evLedgerInvalid ∧ bitOf t.evPend gUeFatal = true))

/-- O25. CHAIN_START (R85, R104, R106, R363, R364, R430): an admitted request whose turn it is, on a healthy sequencer, ends with the outcome of the
first check of its entry that fails; a no-operation chain ends DONE; one with DROP_LATE that is late ends 0x62 with DETAIL 2 and runs nothing;
any other runs, or ends with an outcome. A forwarded request was judged by the engine that forwarded it, and runs.
What the model chose or read where the spec is open: log entry 10. -/
def Obligations.ChainStarts : Prop :=
  ∀ (id : Nat) (ecc : Ecc) (found : Option (Fin 8 × KeyFault)) (r : Req) (s : State), s.req id = some r → r.phase = .admitted → inTurn s r = true → s.csSt r.cs = .healthy →
    (∀ o, r.foreign = false → entryCheck r.entry r.isBoot = some o → ∃ t, exec (.chainStart id ecc found) s = .next t ∧ EndedWith t id r o) ∧
    (r.foreign = false → entryCheck r.entry r.isBoot = none → eNops r.entry = 0 → ∃ t, exec (.chainStart id ecc found) s = .next t ∧ EndedWith t id r ⟨0x00, 0, 0⟩) ∧
    (r.foreign = false → entryCheck r.entry r.isBoot = none → eNops r.entry ≠ 0 → dropsLate s r = true →
      ∃ t, exec (.chainStart id ecc found) s = .next t ∧ EndedWith t id r ⟨0x62, 2, 0⟩) ∧
    (∃ t r', exec (.chainStart id ecc found) s = .next t ∧ t.req id = some r' ∧ r'.tenant = r.tenant ∧ r'.entry = r.entry ∧
      (r'.phase = .running ∨ (r'.phase = .ended ∧ r'.outcome.isSome = true)))

/-- O26. Data for a running chain (R91, R95, R99, R409, R431) and COPY (R85): data that arrives for a flat buffer joins the data of the buffer in order,
no more than was asked for; data with an uncorrectable error is recorded and not taken, and what is due of the buffer is asked for again, or
stops at a read that no longer passes its check; data of reads made before the operation was begun again is not taken; a COPY whose inputs are at
hand begins, and its chain goes on or ends.
What the model chose or read where the spec is open: log entry 10. -/
def Obligations.DataArrives : Prop :=
  (∀ (id : Nat) (b : Fin 8) (data : Bytes) (r : Req) (s : State), s.req id = some r → r.phase = .running → (r.buf b.val).started = true →
    (0 < (r.buf b.val).stale → ∀ ecc, ∃ t r', exec (.dataReadReturn id b data ecc) s = .next t ∧ Only [.reqs] s t ∧ t.req id = some r' ∧
      r'.phase = r.phase ∧ (r'.buf b.val).data = (r.buf b.val).data ∧ (r'.buf b.val).due = (r.buf b.val).due) ∧
    ((r.buf b.val).stale = 0 → (r.buf b.val).asking = false → 0 < (r.buf b.val).due →
    (∃ t, exec (.dataReadReturn id b data .clean) s = .next t ∧
      RunsOn t id r (fun r' => (r'.buf b.val).data = (r.buf b.val).data ++ data.take (r.buf b.val).due)) ∧
    (∃ t r', exec (.dataReadReturn id b data .uncorrectable) s = .next t ∧ Only ([.tens, .reqs] ++ recordParts) s t ∧
      bitOf t.evPend gUe = true ∧ t.jrn.seq = s.jrn.seq + 1 ∧ t.req id = some r' ∧ r'.phase = r.phase ∧
      (r'.buf b.val).data = (r.buf b.val).data ∧
      ((r.ref b.val).kind = kFlat ∨ (r.ref b.val).kind = kFrame →
        (r'.buf b.val).due = (r.buf b.val).due ∨ (r'.buf b.val).stop = some (stAccess, 1))))) ∧
  (∀ (id : Nat) (i : Fin 8) (r : Req) (s : State), s.req id = some r → r.canStart i.val = true → (r.op i.val).w.opc = 0x01 →
    ∃ t, exec (.copyOperation id i) s = .next t ∧
      RunsOn t id r (fun r' => (r'.op i.val).phase = .running ∨ (r'.op i.val).phase = .done))

/-- O27. A waiting operation takes its tile, or a saved one takes its own again, or the two tiles of a pair (R19, R133, R158, R195, R419): the
operation holds exactly the tiles named and is under way, and each of them, unless the chain ended with it, works for it: a cipher or digest
tile runs it, a public-key tile has it in a bank. A digest tile takes a hash for another operation, or work of the engine itself, and a
public-key tile takes such work into a bank (R178, R515). A part of a stream that fails the checks of its start ends its chain there (R169); a
saved operation whose context fails its check ends with TILE_FAULT 0x04, and the tile leaves service (R182).
What the model chose or read where the spec is open: log entries 9 and 33. -/
def Obligations.TilesTaken : Prop :=
  (∀ (id : Nat) (i : Fin 8) (tile : Fin 16) (second : Option (Fin 16)) (ts : List Nat) (r : Req) (s : State), s.req id = some r →
    tilesOf r tile.val (second.map (fun x => x.val)) = some ts → tilesOpen s = true → kindOfW (r.op i.val).w = 1 →
    ((waitsTile s r i.val = true ∧ streamPlace s r i.val tile.val = true ∧ prefersReserved s 1 r.cls ts = true) ∨
      ((r.op i.val).phase = .saved ∧ (r.op i.val).tiles = ts ∧ ∀ x ∈ ts, (id, i.val) ∈ (s.tile x).saved)) →
    ts.all (mayTake s 1 (id, i.val)) = true →
    ∃ t, exec (.cipherTileAllocate id i tile second) s = .next t ∧
      RunsOn t id r (fun r' => (r'.op i.val).tiles = ts ∧ ((r'.op i.val).phase = .running ∨ (r'.op i.val).phase = .done) ∧
        (r'.phase = .running → ∀ x ∈ ts, (t.tile x).run = some (id, i.val)))) ∧
  (∀ (id : Nat) (i : Fin 8) (tile : Fin 4) (second : Option (Fin 4)) (ts : List Nat) (r : Req) (s : State), s.req id = some r →
    tilesOf r (16 + tile.val) (second.map (fun x => 16 + x.val)) = some ts → tilesOpen s = true → kindOfW (r.op i.val).w = 2 →
    isJob s 2 (id, i.val) = false → ts.all (mayTake s 2 (id, i.val)) = true →
    let waits := waitsTile s r i.val = true ∧ streamPlace s r i.val (16 + tile.val) = true
    let resumes := (r.op i.val).phase = .saved ∧ (r.op i.val).tiles = ts ∧ ∀ x ∈ ts, (id, i.val) ∈ (s.tile x).saved
    (((waits ∧ (isStream (r.op i.val).w = true → partFail s r i.val = none)) ∨ resumes) →
      ∃ t, exec (.digestTileAllocate id i tile second .clean) s = .next t ∧
        RunsOn t id r (fun r' => (r'.op i.val).tiles = ts ∧ ((r'.op i.val).phase = .running ∨ (r'.op i.val).phase = .done) ∧
          (r'.phase = .running → ∀ x ∈ ts, (t.tile x).run = some (id, i.val)))) ∧
    (∀ f, waits → isStream (r.op i.val).w = true → partFail s r i.val = some f →
      ∃ t, exec (.digestTileAllocate id i tile second .clean) s = .next t ∧ EndedWith t id r (mkOut f i.val))) ∧
  (∀ (id : Nat) (i : Fin 8) (tile : Fin 4) (second : Option (Fin 4)) (s : State), tilesOpen s = true →
    (isJob s 2 (id, i.val) = true ∨ isService s 2 (id, i.val) = true) →
    (onTile s 2 (id, i.val) = false ∨ (id, i.val) ∈ (s.tile (16 + tile.val)).saved) → mayTake s 2 (id, i.val) (16 + tile.val) = true →
    ∃ t, exec (.digestTileAllocate id i tile second .clean) s = .next t ∧ Only [.tiles] s t ∧ OtherTiles (16 + tile.val) s t ∧
      (t.tile (16 + tile.val)).run = some (id, i.val)) ∧
  (∀ (id : Nat) (i : Fin 8) (tile : Fin 4) (second : Option (Fin 4)) (r : Req) (s : State), s.req id = some r → kindOfW (r.op i.val).w = 2 →
    (id, i.val) ∈ (s.tile (16 + tile.val)).saved →
    ∃ t, exec (.digestTileAllocate id i tile second .uncorrectable) s = .next t ∧ EndedWith t id r ⟨0x61, 4, i.val⟩ ∧
      bitOf t.evPend gUe = true ∧ OutOfService s t (16 + tile.val) 5) ∧
  (∀ (id : Nat) (i : Fin 8) (tile : Fin 4) (second : Option (Fin 4)) (ts : List Nat) (r : Req) (s : State), s.req id = some r →
    tilesOf r (20 + tile.val) (second.map (fun x => 20 + x.val)) = some ts → waitsTile s r i.val = true → kindOfW (r.op i.val).w = 3 →
    banksFor s (id, i.val) ts = true →
    ∃ t, exec (.pkBankAssign id i tile second) s = .next t ∧
      RunsOn t id r (fun r' => (r'.op i.val).tiles = ts ∧ (r'.op i.val).phase ≠ .waiting ∧
        (r'.phase = .running → ∀ x ∈ ts, ((t.tile x).bankA.holds id i.val || (t.tile x).bankB.holds id i.val) = true))) ∧
  (∀ (id : Nat) (tile : Fin 4) (second : Option (Fin 4)) (s : State), s.req id = none → isJob s 3 (id, 0) = true → onTile s 3 (id, 0) = false →
    banksFor s (id, 0) [20 + tile.val] = true →
    ∃ t, exec (.pkBankAssign id 0 tile second) s = .next t ∧ Only [.reqs, .tiles] s t ∧ OthersWake (20 + tile.val) s t ∧
      ((t.tile (20 + tile.val)).bankA.holds id 0 || (t.tile (20 + tile.val)).bankB.holds id 0) = true)

/-- O28. Yields (R134, R159, R196, R197, R419): at a yield point, and for a digest operation at a slice boundary, where on each of its tiles an
operation, or a forced grout round, ranks so that the running one must give way and there is room to save it, the running operation is saved
on all its tiles and runs on none of them. A public-key operation that has passed its check phase, and is in no dispute, gives way when on each
of its tiles the operation of the other bank is ready to run and takes over: as the voter of a dispute; because the running one waits for a
hash; or because it ranks before it: by class; in its class by the fewest tile cycles left, then in admission order; or resident for 1 000 000
cycles. It then rests in its bank on all its tiles, with the cycles it has left kept; and on a tile that it runs on alone the other goes on.
What the model chose or read where the spec is open: log entries 9 and 33. -/
def Obligations.Yields : Prop :=
  (∀ (c : Instr) (k n : Nat), ((∃ x : Fin 16, c = .cipherYieldPoint x ∧ k = 1 ∧ n = x.val) ∨ (∃ x : Fin 4, c = .digestSliceBoundary x ∧ k = 2 ∧ n = 16 + x.val)) →
    ∀ (p : Nat × Nat) (r : Req) (s : State), tilesOpen s = true → (s.tile n).run = some p → s.req p.1 = some r → (r.op p.2).phase = .running →
      ownOp s k p = true → atSlice s k p = true → (r.op p.2).disputed = false → n ∈ (r.op p.2).tiles → p ∉ nextOn s k n p →
      (∀ x ∈ (r.op p.2).tiles, tileHealthy s x = true ∧ (pressing s k x p ≠ [] ∨ groutPresses s k x p = true) ∧ roomToSave s k x = true) →
      ∃ t, exec c s = .next t ∧ RunsOn t p.1 r (fun r' => ((r'.op p.2).phase = .saved ∨ (r'.op p.2).phase = .done) ∧
        (r'.phase ≠ .ended → ∀ x ∈ (r.op p.2).tiles, p ∈ (t.tile x).saved ∧ (t.tile x).run ≠ some p))) ∧
  (∀ (tile : Fin 4) (id i left : Nat) (long b : Bool) (s : State), tilesOpen s = true → (s.tile (20 + tile.val)).st = .healthy →
    pkRunning s (20 + tile.val) = some (id, i, b) → (∀ r, s.req id = some r → (r.op i).checked = true ∧ (r.op i).disputed = false) →
    let ts := runTiles s (20 + tile.val) (id, i)
    let now := keepLeft (id, i) left s
    (∀ x ∈ ts, ∃ q ∈ resting (s.tile x), q ≠ (id, i) ∧ isService now 2 q = false ∧ mayRun now x q ts = true ∧
      (isVoter now x q = true ∨ isService now 2 (id, i) = true ∨ clsOf now q.1 < clsOf now id ∨
        (clsOf now q.1 = clsOf now id ∧ (long = true ∨ cyclesLeft now q < cyclesLeft now (id, i) ∨
          (cyclesLeft now q = cyclesLeft now (id, i) ∧ (q.1 < id ∨ (q.1 = id ∧ q.2 < i))))))) →
    ∃ t, exec (.pkYieldPoint tile left long) s = .next t ∧ (∀ x ∈ ts, (t.tile x).bankA ≠ .running id i ∧ (t.tile x).bankB ≠ .running id i) ∧
      (∀ r, s.req id = some r → ∃ r', t.req id = some r' ∧ r'.phase = r.phase ∧ (r'.op i).phase = .saved ∧
        (r'.op i).left = some (min left (cyclesLeft s (id, i)))) ∧
      (∀ q, ts = [20 + tile.val] → resting (s.tile (20 + tile.val)) = [q] → (∀ r, s.req id = some r → (r.op i).phase = .running) →
        bankOf (t.tile (20 + tile.val)) b = .resident id i ∧ bankOf (t.tile (20 + tile.val)) (!b) = .running q.1 q.2))

/-- O29. What a public-key operation does in its bank (R178, R193, R194, R200, R205, R223): at the end of its check phase the first failing check
rejects it, and otherwise its check phase is over; the hash it waits for is complete on a digest tile, which is then free of it; the cap on the iterations of an ML-DSA signature ends it
with 0x40 and DETAIL 0x52; a bank that is zeroized is empty and its request knows.
What the model chose or read where the spec is open: log entries 4, 5 and 9. -/
def Obligations.PublicKeyPhases : Prop :=
  (∀ (tile : Fin 4) (id i : Nat) (b : Bool) (r : Req) (s : State), tilesOpen s = true → pkRunning s (20 + tile.val) = some (id, i, b) →
    s.req id = some r → (r.op i).checked = false →
    (∀ f, pkInputFail (r.op i).w (r.par i) (pkType r i) (pkKey r i) (r.src i) (r.aux i) = some f →
      ∃ t, exec (.pkCheckPhaseEnd tile) s = .next t ∧ EndedWith t id r (mkOut f i)) ∧
    (pkInputFail (r.op i).w (r.par i) (pkType r i) (pkKey r i) (r.src i) (r.aux i) = none →
      ∃ t, exec (.pkCheckPhaseEnd tile) s = .next t ∧
        ((∃ r', t.req id = some r' ∧ r'.phase = r.phase ∧ (i < r.ops.length → (r'.op i).checked = true)) ∨ EndedWith t id r ⟨0x61, 3, i⟩) ∧
        (drawsBits (r.op i).w = false → t.rbgs = s.rbgs ∧ t.es = s.es ∧ ∃ r', t.req id = some r' ∧ r'.phase = r.phase))) ∧
  (∀ (tile : Fin 4) (l1 l2 : List (Nat × Nat)) (id i : Nat) (r : Req) (s : State), tilesOpen s = true →
    bankOps (s.tile (20 + tile.val)) = l1 ++ (id, i) :: l2 → (∀ q ∈ l1, isService s 2 q = false ∨ runsDigest s q = false) →
    s.req id = some r → r.hashDue i = true → hashInput r i = true → runsDigest s (id, i) = true → i < r.ops.length →
    ∃ t, exec (.digestServiceDone tile) s = .next t ∧ RunsOn t id r (fun r' => (r'.op i).hashes = (r.op i).hashes + 1) ∧
      runsDigest t (id, i) = false) ∧
  (∀ (tile : Fin 4) (id i : Nat) (b : Bool) (r : Req) (s : State), tilesOpen s = true → pkRunning s (20 + tile.val) = some (id, i, b) →
    s.req id = some r → (r.op i).checked = true → (r.op i).w.opc = 0x74 →
    ∃ t, exec (.mlDsaIterationCap tile) s = .next t ∧ EndedWith t id r ⟨0x40, 0x52, i⟩) ∧
  (∀ (tile : Fin 4) (b : Bool) (id : Nat) (s : State), bankOf (s.tile (20 + tile.val)) b = .zeroizing id →
    ∃ t, exec (.pkBankZeroized tile b) s = .next t ∧ Only [.reqs, .tiles] s t ∧ OthersWake (20 + tile.val) s t ∧
      bankOf (t.tile (20 + tile.val)) b = .empty ∧
      (∀ r, s.req id = some r → ∃ r', t.req id = some r' ∧ r'.phase = r.phase ∧ r'.zeroized = true))

/-- O30. Pairs and votes (R19, R419, R420, R421): equal results release the next piece, of at most 64 bytes for a cipher operation; a difference is recorded and opens a vote,
or ends the chain with TILE_FAULT 0x01 where no third tile of the kind is healthy; the voter runs the piece; the tile on the losing side is
quarantined; where no two agree the chain ends with 0x61 and DETAIL 1, and all three owe a forced grout round.
What the model chose or read where the spec is open: log entry 9. -/
def Obligations.PairsAndVotes : Prop :=
  (∀ (id : Nat) (i : Fin 8) (r : Req) (s : State), s.req id = some r → tilesOpen s = true → r.phase = .running → (r.op i.val).phase = .running →
    (r.op i.val).tiles.length = 2 → (r.op i.val).disputed = false → (kindOfW (r.op i.val).w = 3 → atEnd r i.val = true) →
    let made := (r.op i.val).output.length
    (∃ t, exec (.pairedPieceCompare id i true) s = .next t ∧ RunsOn t id r (fun r' =>
      (r'.op i.val).agreed = if kindOfW (r.op i.val).w = 1 then min ((r.op i.val).agreed + 64) made else made)) ∧
    ((∀ j, j ≠ i.val → (r.op j).disputed = false) → 3 ≤ (healthyOf s (kindOfW (r.op i.val).w)).length →
      ∃ t, exec (.pairedPieceCompare id i false) s = .next t ∧ bitOf t.evPend gPairDisagree = true ∧ t.jrn.seq = s.jrn.seq + 1 ∧
        RunsOn t id r (fun r' => (r'.op i.val).disputed = true)) ∧
    (r.fwd = none → r.lent = true → s.held = false → (r.op i.val).voter = none →
      (∀ j, j < i.val → (r.op j).phase = .done ∧ (r.op j).disputed = false ∧ r.flushed j = true) →
      (r.hashDue i.val = false ∨ healthyOf s 2 ≠ []) → (healthyOf s (kindOfW (r.op i.val).w)).length < 3 →
      ∃ t, exec (.pairedPieceCompare id i false) s = .next t ∧ bitOf t.evPend gPairDisagree = true ∧ t.jrn.seq = s.jrn.seq + 2 ∧
        EndedWith t id r ⟨0x61, 1, i.val⟩)) ∧
  (∀ (id : Nat) (i : Fin 8) (tile : TileIx) (r : Req) (s : State), s.req id = some r → tilesOpen s = true → r.phase = .running →
    (r.op i.val).disputed = true → (r.op i.val).voter = none → tile.val ∈ kindTiles (kindOfW (r.op i.val).w) →
    tile.val ∉ (r.op i.val).tiles → tileFree s tile.val = true → permitted s r.cls tile.val = true → i.val < r.ops.length →
    ∃ t, exec (.voterAssign id i tile) s = .next t ∧ Only [.reqs, .tiles] s t ∧ OthersWake tile.val s t ∧
      (∃ r', t.req id = some r' ∧ r'.phase = r.phase ∧ (r'.op i.val).voter = some tile.val) ∧
      (tile.val < 20 → (t.tile tile.val).run = some (id, i.val)) ∧
      (20 ≤ tile.val → ((t.tile tile.val).bankA.holds id i.val || (t.tile tile.val).bankB.holds id i.val) = true)) ∧
  (∀ (id : Nat) (i : Fin 8) (v lo hi : Nat) (r : Req) (s : State), s.req id = some r → (r.op i.val).voter = some v → (r.op i.val).tiles = [lo, hi] →
    tilesOpen s = true → r.phase = .running → (r.op i.val).phase = .running → (r.op i.val).disputed = true →
    ((s.tile v).run = some (id, i.val) ∨ ∃ b, pkRunning s v = some (id, i.val, b)) →
    (∃ t, exec (.voteResult id i .lower) s = .next t ∧ StillThere t id r ∧
      OutOfService s t hi 1) ∧
    (∃ t, exec (.voteResult id i .higher) s = .next t ∧ StillThere t id r ∧
      OutOfService s t lo 1) ∧
    (∃ t, exec (.voteResult id i .neither) s = .next t ∧ t.jrn.seq = s.jrn.seq + 1 ∧ EndedWith t id r ⟨0x61, 1, i.val⟩ ∧
      (t.tile lo).forceDue = true ∧ (t.tile hi).forceDue = true ∧ (t.tile v).forceDue = true))

/-- O31. OPERATION_END (R103, R178, R202, R203, R209, R422, R423, R431): an operation that has taken its whole input, and on whose result its pair agrees,
is done with its output, or ends its chain with its first failing check; a failing result check, or an uncorrectable error of the tile,
quarantines the tile, and the request stays in flight, or is flushed by a tenant reset of the same control cycle; a hash that an operation
needs before its bank is complete, and the digest tile free of it; an uncorrectable error of the staging buffer in what the operation takes or
holds ends the request when output of it, or of an operation before it that feeds it, has left.
What the model chose or read where the spec is open: log entries 4, 10 and 28. -/
def Obligations.OperationEnds : Prop :=
  (∀ (id : Nat) (i : Fin 8) (ok meets : Bool) (r : Req) (s : State), s.req id = some r → tilesOpen s = true → mayEnd s r i.val = true →
    ((kindOfW (r.op i.val).w ≠ 3 ∨ hasResultCheck (r.op i.val).w = false ∨ ok = true) →
      (∀ f, (opEnd s r i.val).res.fail = some f →
        ∃ t, exec (.operationEnd id i ok .clean meets) s = .next t ∧ EndedWith t id r (mkOut f i.val)) ∧
      ((opEnd s r i.val).res.fail = none →
        ∃ t, exec (.operationEnd id i ok .clean meets) s = .next t ∧
          RunsOn t id r (fun r' => (r'.op i.val).phase = .done ∧ (r'.op i.val).output = (opEnd s r i.val).res.out))) ∧
    (kindOfW (r.op i.val).w = 3 → hasResultCheck (r.op i.val).w = true →
      (∃ t, exec (.operationEnd id i false .clean false) s = .next t ∧ StillThere t id r ∧ OutOfService s t (r.op i.val).lastTile 2) ∧
      (∃ t, exec (.operationEnd id i false .clean true) s = .next t ∧ EndedWith t id r ⟨0x50, 1, r.reached⟩ ∧
        OutOfService s t (r.op i.val).lastTile 2)) ∧
    (∀ a l, (r.op i.val).tiles = a :: l →
      ∃ t, exec (.operationEnd id i ok .uncorrectable meets) s = .next t ∧ StillThere t id r ∧ bitOf t.evPend gUe = true ∧ OutOfService s t a 5) ∧
    (∀ a b ecc, (r.op i.val).tiles = [a, b] → a ≠ b →
      ∃ t, exec (.operationEnd id i ok ecc meets .clean .uncorrectable) s = .next t ∧ StillThere t id r ∧ bitOf t.evPend gUe = true ∧
        OutOfService s t b 5 ∧ (ecc = .uncorrectable → OutOfService s t a 5)) ∧
    (∀ ecc, ∃ t, exec (.operationEnd id i ok ecc meets .uncorrectable) s = .next t ∧ StillThere t id r ∧ bitOf t.evPend gUe = true ∧
      ((stagedOps r i.val).any (outLeft r) = true → EndedWith t id r ⟨0x61, 4, i.val⟩))) ∧
  (∀ (id : Nat) (i : Fin 8) (ok meets : Bool) (r : Req) (s : State), s.req id = some r → tilesOpen s = true → (r.op i.val).phase = .waiting →
    r.hashDue i.val = true → runsDigest s (id, i.val) = true → r.whole (r.op i.val).w.src = true →
    ∃ t, exec (.operationEnd id i ok .clean meets) s = .next t ∧ RunsOn t id r (fun r' => (r'.op i.val).hashes = (r.op i.val).hashes + 1) ∧
      runsDigest t (id, i.val) = false)

/-- O32. Grout and the watchdogs (R422, R425 to R428, R430): a failing grout test and a tile that makes no progress quarantine the tile, with their
causes; a round is counted, and clears a forced one; a forced round is owed by a healthy tile, and takes its place in the admission order; a request over its time ends with 0x51 and
DETAIL 1, recorded and with EV_REQ_WDOG.
What the model chose or read where the spec is open: log entries 8 and 28. -/
def Obligations.GroutAndWatchdogs : Prop :=
  (∀ (n : TileIx) (s : State), tilesOpen s = true → groutMay s n.val = true →
    exec (.groutStep n .step) s = .next s ∧
    (∃ t, exec (.groutStep n .round) s = .next t ∧ Only [.tiles] s t ∧ OtherTiles n.val s t ∧ (t.tile n.val).forceDue = false ∧
      (t.tile n.val).st = (s.tile n.val).st ∧ (t.tile n.val).rounds.toNat = min (2 ^ 32 - 1) ((s.tile n.val).rounds.toNat + 1)) ∧
    (∀ test, ∃ t, exec (.groutStep n (.fail test)) s = .next t ∧ bitOf t.evPend gGroutFail = true ∧
      OutOfService s t n.val 3)) ∧
  (∀ (n : TileIx) (s : State), tileHealthy s n.val = true →
    ∃ t, exec (.groutForce n) s = .next t ∧ Only [.sch, .tiles] s t ∧ OtherTiles n.val s t ∧
      ((s.tile n.val).forceDue = true → t.tile n.val = s.tile n.val) ∧
      ((s.tile n.val).forceDue = false → t.tile n.val = { s.tile n.val with forceDue := true, forceAt := s.sch.nextId })) ∧
  (∀ (n : TileIx) (s : State), tilesOpen s = true → (s.tile n.val).st = .healthy → ((s.tile n.val).run.isSome = true ∨ (pkRunning s n.val).isSome = true) →
    ∃ t, exec (.tileWatchdog n) s = .next t ∧
      OutOfService s t n.val 4) ∧
  (∀ (id : Nat) (r : Req) (s : State), s.req id = some r → r.isBoot = false → r.foreign = false → (r.phase = .admitted ∨ r.phase = .running) →
    ∃ t, exec (.requestWatchdog id) s = .next t ∧ EndedWith t id r ⟨0x51, 1, r.reached⟩ ∧ TenEvent t r.tenant evReqWdog ∧
      t.jrn.seq = s.jrn.seq + 1)

/-- O33. Rejoin and failed sequencers (R403, R422, R424, R429, R431): a rejoin starts the test set of a quarantined tile, or of a failed sequencer, and of
no other; a test set that passes makes the unit healthy, and one that fails quarantines the tile again, or retires it the third time; a
sequencer that makes no progress, or whose registers or both copies of its patch RAM show an error, fails, and where another is healthy none
of its contexts stays with it; an error in one copy is recorded.
What the model chose or read where the spec is open: log entry 28. -/
def Obligations.RejoinAndSequencers : Prop :=
  (∀ (who : Who) (n : TileIx) (s : State), Takes s who .ownTileRejoin (BitVec.ofNat 64 (2 ^ n.val)) →
    ((s.tile n.val).st = .quarantined → gateAsked s n.val = false →
      ∃ t, exec (.tileRejoin who n) s = .next t ∧ Only [.tiles] s t ∧ OtherTiles n.val s t ∧ t.tile n.val = { s.tile n.val with st := .testing }) ∧
    ((s.tile n.val).st ≠ .quarantined → exec (.tileRejoin who n) s = .next s)) ∧
  (∀ (who : Who) (c : CsIx) (s : State), Takes s who .ownCsRejoin (BitVec.ofNat 64 (2 ^ c.val)) →
    (s.csSt c.val = .failed → ∃ t, exec (.csRejoin who c) s = .next t ∧ Only [.css] s t ∧ t.csSt c.val = .testing) ∧
    (s.csSt c.val ≠ .failed → exec (.csRejoin who c) s = .next s)) ∧
  (∀ (n : TileIx) (s : State), (s.tile n.val).st = .testing →
    (∃ t, exec (.rejoinTestDone (.tile n) true) s = .next t ∧ Only (.tiles :: recordParts) s t ∧ (t.tile n.val).st = .healthy ∧
      bitOf t.evPend gTileRejoin = true ∧ t.jrn.seq = s.jrn.seq + 1) ∧
    (∃ t, exec (.rejoinTestDone (.tile n) false) s = .next t ∧ Only (.tiles :: recordParts) s t ∧ t.jrn.seq = s.jrn.seq + 1 ∧
      (t.tile n.val).st = (if 2 ≤ (s.tile n.val).qcount.toNat then .retired else .quarantined))) ∧
  (∀ (c : CsIx) (pass : Bool) (s : State), s.csSt c.val = .testing →
    ∃ t, exec (.rejoinTestDone (.cs c) pass) s = .next t ∧ Only (.css :: recordParts) s t ∧ t.jrn.seq = s.jrn.seq + 1 ∧
      t.csSt c.val = (if pass then .healthy else .failed)) ∧
  (∀ (c : CsIx) (s : State), s.csSt c.val = .healthy → 0 < csLoad s c.val →
    ∃ t, exec (.csWatchdog c) s = .next t ∧ Only (.reqs :: .css :: recordParts) s t ∧ t.csSt c.val = .failed ∧ bitOf t.evPend gCsFail = true ∧
      t.jrn.seq = s.jrn.seq + 1 ∧
      ((∃ d, d < 12 ∧ d ≠ c.val ∧ s.csSt d = .healthy) → ∀ r ∈ t.reqs, holdsContext r = true → r.cs ≠ c.val)) ∧
  (∀ (c : CsIx) (s : State), s.csSt c.val = .healthy →
    (∃ t, exec (.csWatchdog c .registers) s = .next t ∧ Only (.reqs :: .css :: recordParts) s t ∧ t.csSt c.val = .failed ∧ bitOf t.evPend gCsFail = true ∧
      t.jrn.seq = s.jrn.seq + 1) ∧
    (∃ t, exec (.csWatchdog c .patchOne) s = .next t ∧ Only recordParts s t ∧ bitOf t.evPend gUe = true ∧ t.jrn.seq = s.jrn.seq + 1) ∧
    (∃ t, exec (.csWatchdog c .patchBoth) s = .next t ∧ Only (.reqs :: .css :: recordParts) s t ∧ t.csSt c.val = .failed ∧
      bitOf t.evPend gUeFatal = true ∧ t.jrn.seq = s.jrn.seq + 2))

/-- O34. The key cache (R255, R262, R271, R274, R275): a blob that passes its checks is loaded, with its stamp, what is kept with it and its tag, or
its material goes to the end of the operation, which writes the target slot; the first failing check ends the chain, and no key is loaded; an
ML-DSA seed whose public key no tile can make ends with TILE_FAULT 0x02 (R213); an unload clears the entries of a marked key, and of no other.
What the model chose or read where the spec is open: log entries 4, 18 and 33. -/
def Obligations.KeyCacheCommands : Prop :=
  (∀ (id : Nat) (op : Fin 8) (r : Req) (s : State), s.req id = some r → loadReady s r op.val 0 = true → s.ks.kTag.isSome = true →
    let h := fwHandle (r.par op.val)
    let a := blobAttr (r.src op.val)
    (∀ m, blobCheck s r op.val false = .ok m → (aClass a = 0x17 → bankOrder s ≠ [] ∧ healthyOf s 2 ≠ []) →
      ∃ t, exec (.keyCacheLoad id op) s = .next t ∧ RunsOn t id r (fun r' => (r'.op op.val).phase = .done) ∧
        ((∀ j, j < entriesOf m.length → inPartition s s.gen.act r.tenant.val (h + j) = true) → t.cacheEnt h =
          some { tenant := r.tenant, attr := a, material := m, mstamp := stampNow s (aMpol a), kept := (cacheKey s r h a m).kept,
                 tag := keyTag s m a 0 (stampNow s (aMpol a)) (cacheKey s r h a m).kept }) ∧
        ∀ g, g ≠ h → (∀ c, s.cacheEnt g = some c → c.unload = true → s.reqs.any (bindsHandle g) = true) → t.cacheEnt g = s.cacheEnt g) ∧
    (∀ m, blobCheck s r op.val false = .ok m → aClass a = 0x17 → (healthyOf s 3 = [] ∨ healthyOf s 2 = []) →
      ∃ t, exec (.keyCacheLoad id op) s = .next t ∧ EndedWith t id r ⟨0x61, 2, op.val⟩ ∧ ∀ g, t.cacheEnt g = s.cacheEnt g) ∧
    (∀ f, blobCheck s r op.val false = .error f → ∃ t, exec (.keyCacheLoad id op) s = .next t ∧ EndedWith t id r (mkOut f op.val) ∧
      ∀ h, t.cacheEnt h = s.cacheEnt h)) ∧
  (∀ (id : Nat) (op : Fin 8) (r : Req) (s : State), s.req id = some r → loadReady s r op.val 1 = true → s.ks.kTag.isSome = true →
    (∀ m, blobCheck s r op.val true = .ok m → exec (.keyInstall id op) s = .next (finishOp id op.val { made := m } s) ∧
      RunsOn (finishOp id op.val { made := m } s) id r (fun r' => (r'.op op.val).phase = .done)) ∧
    (∀ f, blobCheck s r op.val true = .error f → ∃ t, exec (.keyInstall id op) s = .next t ∧ EndedWith t id r (mkOut f op.val))) ∧
  (∀ (x : Nat) (m : Bytes) (s : State), OtherSlots x s (writeTarget x m s) ∧ ((writeTarget x m s).slot x).idle.material = m ∧
    ((writeTarget x m s).slot x).act = (s.slot x).act) ∧
  (∀ (id : Nat) (op : Fin 8) (r : Req) (s : State), s.req id = some r → r.canStart op.val = true → (r.op op.val).w.opc = 0x93 →
    (r.op op.val).w.opt % 4 = 2 → s.reqs.any (bindsHandle (fwHandle (r.par op.val))) = false →
    ∃ t, exec (.keyCacheUnload id op) s = .next t ∧ RunsOn t id r (fun r' => (r'.op op.val).phase = .done) ∧
      (∀ c, s.cacheEnt (fwHandle (r.par op.val)) = some c → c.unload = true → t.cacheEnt (fwHandle (r.par op.val)) = none) ∧
      ∀ h, h ≠ fwHandle (r.par op.val) → t.cacheEnt h = s.cacheEnt h)

/-- O35. Derivations, draws and statements (R263, R264, R266, R269, R289, R293, R296): a kiln operation whose turn it is delivers its derived
output; a draw delivers the bytes of one generate call with its additional input, and a statement its signed form; without a generator, or without tiles for the signatures, the chain ends with
TILE_FAULT 0x03 or 0x02; a result check of a signature that fails leaves no statement, and its tile is quarantined (R203, R297).
What the model chose or read where the spec is open: log entries 4, 5 and 33. -/
def Obligations.DerivedOutputs : Prop :=
  (∀ (id : Nat) (op : Fin 8) (r : Req) (s : State), s.req id = some r → r.canStart op.val = true → s.sup.active = false →
    ((r.op op.val).w.opc = 0x90 → kilnFirst s (id, op.val) = true → ∃ t, exec (.hkdf id op) s = .next t ∧
      RunsOn t id r (fun r' => (r'.op op.val).phase = .done ∧ (r'.op op.val).output = kilnOut s r op.val)) ∧
    ((r.op op.val).w.opc = 0x91 → kilnFirst s (id, op.val) = true → ∃ t, exec (.counterModeKdf id op) s = .next t ∧
      RunsOn t id r (fun r' => (r'.op op.val).phase = .done ∧ (r'.op op.val).output = kilnOut s r op.val)) ∧
    ((r.op op.val).w.opc = 0x92 → kilnFirst s (id, op.val) = true → ∃ t, exec (.kilnDerivation id op) s = .next t ∧
      RunsOn t id r (fun r' => (r'.op op.val).phase = .done ∧ (r'.op op.val).output = kilnOut s r op.val)) ∧
    ((r.op op.val).w.opc = 0x94 → drawTurn s r = true → (fgPr (r.par op.val) = true → s.es.pool ≠ [] ∨ rbgHealthy s = false) →
      (∀ b s1, generateAdd (fgPr (r.par op.val)) (fgOut (r.par op.val)) (slice (r.par op.val) 8 (fgAddLen (r.par op.val)))
        (genOrder r.tenant.val) s = (some b, s1) →
        ∃ t, exec (.randomDraw id op) s = .next t ∧
          RunsOn t id r (fun r' => (r'.op op.val).phase = .done ∧ (r'.op op.val).output = b)) ∧
      (∀ s1, generateAdd (fgPr (r.par op.val)) (fgOut (r.par op.val)) (slice (r.par op.val) 8 (fgAddLen (r.par op.val)))
        (genOrder r.tenant.val) s = (none, s1) →
        ∃ t, exec (.randomDraw id op) s = .next t ∧ EndedWith t id r ⟨0x61, 3, op.val⟩))) ∧
  (∀ (id : Nat) (op : Fin 8) (r : Req) (s : State), s.req id = some r → r.canStart op.val = true → tilesOpen s = true → (r.op op.val).w.opc = 0x95 →
    ((healthyOf s 3 = [] ∨ healthyOf s 2 = []) → ∃ t, exec (.attestationStatement id op) s = .next t ∧ EndedWith t id r ⟨0x61, 2, op.val⟩) ∧
    (healthyOf s 3 ≠ [] → healthyOf s 2 ≠ [] → pkFirst s (id, op.val) = true → ∀ a b, signTiles s = some (a, b) →
      (∀ kC kQ s1 s2, generate 512 (genOrder (a - 20)) s = (some kC, s1) → generate 64 (genOrder (b - 20)) s1 = (some kQ, s2) →
        ∃ t, exec (.attestationStatement id op) s = .next t ∧
          RunsOn t id r (fun r' => (r'.op op.val).phase = .done ∧ (r'.op op.val).output = reqStatement s r (r.par op.val) kC kQ)) ∧
      (∀ kC kQ s1 s2, generate 512 (genOrder (a - 20)) s = (some kC, s1) → generate 64 (genOrder (b - 20)) s1 = (some kQ, s2) →
        ∀ okC okQ, (okC && okQ) = false → ∃ t, exec (.attestationStatement id op okC okQ) s = .next t ∧ StillThere t id r ∧
          (okC = false → OutOfService s t a 2) ∧ (okQ = false → OutOfService s t b 2)) ∧
      (∀ s1, generate 512 (genOrder (a - 20)) s = (none, s1) →
        ∃ t, exec (.attestationStatement id op) s = .next t ∧ EndedWith t id r ⟨0x61, 3, op.val⟩) ∧
      (∀ kC s1 s2, generate 512 (genOrder (a - 20)) s = (some kC, s1) → generate 64 (genOrder (b - 20)) s1 = (none, s2) →
        ∃ t, exec (.attestationStatement id op) s = .next t ∧ EndedWith t id r ⟨0x61, 3, op.val⟩)))

/-- O36. COMPLETION_RECORD_WRITE (R115, R120, R122, R128, R461, R477): the record goes to the slot at its ring's tail; the tail, the ledger and the
requests in flight move with it; a record that the check stops sets FAULT, with its capture and its event, and moves neither; it, and a record
of a ring that has faulted or has rescued records, is kept in the rescue area or in its context; a reservoir record waits in the reservoir; a boot record and a forwarded request are counted by the boot ring and the course.
What the model chose or read where the spec is open: log entry 22. -/
def Obligations.RecordsWritten : Prop :=
  ∀ (id : Nat) (ecc : Ecc) (r : Req) (s : State), s.req id = some r → recordReady s r = true →
    let n := r.tenant.val
    let m := r.cq.val
    let c := s.cq n m
    let o := finalOutcome s r
    let b := assemble s r
    let a := c.slotAddr c.tail
    let fl := decide (byteAt b 4 = stFlushed)
    (∀ k, r.origin = .ring k → r.place = .cq → c.fault = false → c.rescued = [] →
      (reqCheck s r .write a 32 = none →
        ∃ t, exec (.completionRecordWrite id ecc) s = .next t ∧ t.req id = none ∧ OtherTens n s t ∧ (t.cq n m).head = c.head ∧
          (t.cq n m).tail = (c.tail + 1) % 2 ^ (c.k + 1) ∧
          (t.ten n).led.posted = (s.ten n).led.posted ∧ (t.ten n).led.clamped = (s.ten n).led.clamped ∧
          (t.ten n).led.admitted = (s.ten n).led.admitted ∧
          (t.ten n).led.completed = (if fl then (s.ten n).led.completed else (s.ten n).led.completed + 1) ∧
          (t.ten n).led.flushed = (if fl then (s.ten n).led.flushed + 1 else (s.ten n).led.flushed) ∧
          (t.ten n).led.inflight = (s.ten n).led.inflight - 1 ∧
          (ecc = .clean → t.out = (emitRecord a (stampRecord (nextLseq s n) (phaseAt c.k c.tail) false b) s).out)) ∧
      (∀ fa cause, reqCheck s r .write a 32 = some (fa, cause) →
        ∃ t, exec (.completionRecordWrite id ecc) s = .next t ∧ (t.cq n m).fault = true ∧
          (t.cq n m).fcap = ⟨BitVec.ofNat 48 fa, 1, BitVec.ofNat 4 cause, false⟩ ∧ (t.cq n m).tail = c.tail ∧ TenEvent t n evCqFault ∧
          (t.ten n).led = (s.ten n).led ∧
          ∃ r', t.req id = some r' ∧ r'.record = b ∧ (r'.phase = .held ∨ ∃ p, r'.phase = .rescued p))) ∧
    (∀ k, r.origin = .ring k → r.place = .cq → (c.fault = true ∨ c.rescued ≠ []) →
      ∃ t r', exec (.completionRecordWrite id ecc) s = .next t ∧ (t.cq n m).tail = c.tail ∧ (t.ten n).led = (s.ten n).led ∧
        t.req id = some r' ∧ r'.record = b ∧ (r'.phase = .held ∨ ∃ p, r'.phase = .rescued p)) ∧
    (∀ k, r.origin = .ring k → r.place = .reservoir →
      ∃ t, exec (.completionRecordWrite id ecc) s = .next t ∧ (t.ten n).led = (s.ten n).led ∧
        ∃ r', t.req id = some r' ∧ r'.phase = .waiting ∧ r'.record = b ∧ r'.finishNo = s.sch.nextId) ∧
    (∀ i, r.origin = .boot i →
      ∃ t, exec (.completionRecordWrite id ecc) s = .next t ∧ t.req id = none ∧ t.boot.completed = s.boot.completed + 1 ∧
        t.boot.inflight = s.boot.inflight - 1) ∧
    (∀ p number ring, r.origin = .course p number ring →
      ∃ t, exec (.completionRecordWrite id ecc) s = .next t ∧ t.req id = none ∧ t.crs.cnt.fwdRet = s.crs.cnt.fwdRet + 1 ∧
        t.crs.cnt.fwdRun = s.crs.cnt.fwdRun - 1)

/-- O37. Records outside their rings, and bus errors (R97, R120, R122, R124, R130, R432): the oldest finished reservoir record goes to its ring when
a slot is free, or to rescue where the ring refuses it, and waits otherwise; the first rescued record goes to its ring once it has been read
back, and an error of that read sets FAULT and moves nothing; a failed read-back of a FENCE, on a port or of a frame, is noted with its request and counted. A bus error
of a record write sets FAULT with its capture: the tail is left at that record, and it and every later record of the ring are rescued, with
their requests in flight again; of a record that the ring's reader has passed it moves nothing else. A bus error of a request stops the buffer
read, or ends the chain at a write, as long as no frame of it has gone back; one that comes after the request's record is counted; so is one of the
boot ring. No record leaves while a clock trip or a reset of the control island holds the engine (R404).
What the model chose or read where the spec is open: log entry 22. -/
def Obligations.RecordsMoved : Prop :=
  (∀ (n : TenantIx) (m : RingIx) (ecc : Ecc) (s : State),
    let c := s.cq n m
    (∀ r, oldestReservoir s n m = some r → c.en = true → c.occ + resvOf s n m < 2 ^ c.k →
      (s.held = false → c.fault = false → c.rescued = [] → reqCheck s r .write (c.slotAddr c.tail) 32 = none →
        ∃ t, exec (.reservoirRecordWrite n m ecc) s = .next t ∧ t.req r.id = none ∧ (t.cq n m).tail = (c.tail + 1) % 2 ^ (c.k + 1) ∧
          (t.ten n).led.inflight = (s.ten n).led.inflight - 1 ∧
          (ecc = .clean → t.out = (emitRecord (c.slotAddr c.tail) (stampRecord (nextLseq s n) (phaseAt c.k c.tail) false r.record) s).out)) ∧
      (s.held = false → (c.fault = true ∨ c.rescued ≠ [] ∨ (reqCheck s r .write (c.slotAddr c.tail) 32).isSome = true) →
        ∃ t r', exec (.reservoirRecordWrite n m ecc) s = .next t ∧ (t.cq n m).tail = c.tail ∧ (t.ten n).led = (s.ten n).led ∧
          t.req r.id = some r' ∧ r'.record = r.record ∧ (r'.phase = .held ∨ ∃ p, r'.phase = .rescued p))) ∧
    ((s.held = true ∨ oldestReservoir s n m = none ∨ c.en = false ∨ 2 ^ c.k ≤ c.occ + resvOf s n m) → exec (.reservoirRecordWrite n m ecc) s = .next s)) ∧
  (∀ (n : TenantIx) (m : RingIx) (id place : Nat) (rest : List (Nat × Nat)) (r : Req) (data : Bytes) (s : State),
    s.held = false → (s.cq n m).rescued = (id, place) :: rest → (s.cq n m).fault = false → s.req id = some r → r.phase = .rescued place → r.tenant = n →
    r.cq = m →
    (reqCheck s r .write ((s.cq n m).slotAddr (s.cq n m).tail) 32 = none →
      (∀ x, rest.head? = some x → x.1 ≠ id ∧ ∃ r2, s.req x.1 = some r2 ∧ r2.phase ≠ .held) →
      ∃ t, exec (.rescueCopy n m (.ok data)) s = .next t ∧ t.req id = none ∧ (t.cq n m).rescued = rest ∧
        (t.cq n m).tail = ((s.cq n m).tail + 1) % 2 ^ ((s.cq n m).k + 1) ∧ (t.ten n).led.inflight = (s.ten n).led.inflight - 1 ∧
        (rest = [] → t.out = (emitRecord ((s.cq n m).slotAddr (s.cq n m).tail)
          (stampRecord (nextLseq s n) (phaseAt (s.cq n m).k (s.cq n m).tail) true (fit 32 data)) s).out)) ∧
    (∃ t, exec (.rescueCopy n m .err) s = .next t ∧ (t.cq n m).fault = true ∧ (t.cq n m).tail = (s.cq n m).tail ∧
      (t.cq n m).rescued = (id, place) :: rest ∧ (t.ten n).led = (s.ten n).led ∧ TenEvent t n evCqFault)) ∧
  (∀ (id : Nat) (port : Bool) (r : Req) (s : State), s.req id = some r → r.phase = .ended → (if port then r.port1 else r.port0).isSome = true →
    (∀ d, ∃ t, exec (.fenceReadbackReturn id port (.ok d)) s = .next t ∧ Only [.reqs] s t ∧
      ∃ r', t.req id = some r' ∧ r'.fenceFail = r.fenceFail ∧ (if port then r'.port1 else r'.port0) = none) ∧
    (∃ t, exec (.fenceReadbackReturn id port .err) s = .next t ∧ t.jrn.seq = s.jrn.seq + 1 ∧
      (∀ n, r.priv = some n → (t.ten n).becnt = (s.ten n).becnt.bump) ∧ (r.priv = none → t.becnt = s.becnt.bump) ∧
      ∃ r', t.req id = some r' ∧ r'.fenceFail = r.fenceFail.or (some ⟨0x31, 3, 0⟩) ∧ (if port then r'.port1 else r'.port0) = none)) ∧
  (∀ (id : Nat) (port : Bool) (b : Fin 8) (r : Req) (s : State), s.req id = some r → r.phase = .ended → (r.buf b.val).fence = true →
    (∀ d, ∃ t, exec (.fenceReadbackReturn id port (.ok d) (some b)) s = .next t ∧ Only [.reqs] s t ∧
      ∃ r', t.req id = some r' ∧ r'.fenceFail = r.fenceFail ∧ (r'.buf b.val).fence = false) ∧
    (∃ t, exec (.fenceReadbackReturn id port .err (some b)) s = .next t ∧ t.jrn.seq = s.jrn.seq + 1 ∧
      (∀ n, r.priv = some n → (t.ten n).becnt = (s.ten n).becnt.bump) ∧ (r.priv = none → t.becnt = s.becnt.bump) ∧
      ∃ r', t.req id = some r' ∧ r'.fenceFail = r.fenceFail.or (some ⟨0x31, 3, 0⟩) ∧ (r'.buf b.val).fence = false)) ∧
  (∀ (n : TenantIx) (m : RingIx) (k id : Nat) (addr : BitVec 48) (s : State),
    let late := (s.sent.filter (fun r => r.ofCq n m)).dropWhile (fun r => decide (r.id ≠ id))
    let md := 2 ^ ((s.cq n m).k + 1)
    (late = [] → ∃ t, exec (.busErrorResponse (.record n m k id) addr .write) s = .next t ∧ OtherCqs n m s t ∧ (t.cq n m).fault = true ∧
      (t.cq n m).fcap = ⟨addr, 2, 0, false⟩ ∧ (t.cq n m).tail = (s.cq n m).tail ∧ (t.ten n).led = (s.ten n).led ∧ TenEvent t n evCqFault ∧
      (t.ten n).becnt = (s.ten n).becnt.bump ∧ t.jrn.seq = s.jrn.seq + 1) ∧
    (late ≠ [] → ∃ t, exec (.busErrorResponse (.record n m k id) addr .write) s = .next t ∧ (t.cq n m).fault = true ∧
      (t.cq n m).fcap = ⟨addr, 2, 0, false⟩ ∧ (t.cq n m).tail = ((s.cq n m).tail + late.length * (md - 1)) % md ∧
      (t.ten n).led.inflight = (s.ten n).led.inflight + BitVec.ofNat 64 late.length ∧ TenEvent t n evCqFault ∧
      ((late.map Req.id).Nodup → ∀ r ∈ late, ∃ r', t.req r.id = some r' ∧ r'.record = r.record ∧
        (r'.phase = .held ∨ ∃ p, r'.phase = .rescued p)))) ∧
  (∀ (id b : Nat) (addr : BitVec 48) (frame : Option (Fin 8)) (r : Req) (s : State), s.req id = some r →
    (r.phase = .running → r.errBuf addr.toNat .read frame = some b → (r.buf b).fence = false → (r.buf b).started = true → (∀ j, (r.op j).disputed = false) →
      ∃ t, exec (.busErrorResponse (.request id frame) addr .read) s = .next t ∧ t.jrn.seq = s.jrn.seq + 1 ∧
        RunsOn t id r (fun r' => (r'.buf b).stop = some (stBus, if (r.buf b).asking then 4 else 1))) ∧
    (r.openTo s = true → r.errBuf addr.toNat .write frame = some b →
      ∃ t, exec (.busErrorResponse (.request id frame) addr .write) s = .next t ∧ t.jrn.seq = s.jrn.seq + 1 ∧ EndedWith t id r ⟨0x31, 2, r.writer b⟩)) ∧
  (∀ (id : Nat) (addr : BitVec 48) (dir : Dir) (frame : Option (Fin 8)) (n : TenantIx) (l : Left) (s : State), s.req id = none →
    leftOf s id = some (some n, l) → ∃ t, exec (.busErrorResponse (.request id frame) addr dir) s = .next t ∧
      Only (.tens :: recordParts) s t ∧ OtherTens n s t ∧ (t.ten n).becnt = (s.ten n).becnt.bump ∧ t.jrn.seq = s.jrn.seq + 1) ∧
  (∀ (addr : BitVec 48) (dir : Dir) (s : State), ∃ t, exec (.busErrorResponse .boot addr dir) s = .next t ∧
    Only ([.becnt, .buserr] ++ recordParts) s t ∧ t.becnt = s.becnt.bump ∧ bitOf t.evPend gBuserrPriv = true ∧ t.jrn.seq = s.jrn.seq + 1)

/-- O38. A head write to a completion ring (R116): within the occupancy the head becomes HEAD, beyond it the tail, and behind the head it does not
move; the last two set HCLAMP and raise EV_CQ_HEAD_CLAMP; no ledger counter moves. A read of the doorbell gives the head in use. -/
def Obligations.HeadWrites : Prop :=
  (∀ (who : Who) (n : TenantIx) (m : RingIx) (head : BitVec 17) (s : State), Takes s who (.dbCq n m) (head.setWidth 64) →
    let c := s.cq n m
    let md := 2 ^ (c.k + 1)
    let a := (head.toNat % md + md - c.head % md) % md
    ∃ t, exec (.cqDoorbell who n m head) s = .next t ∧ Only [.tens, .cqs, .sent] s t ∧ OtherTens n s t ∧ (t.ten n).led = (s.ten n).led ∧
      (t.cq n m).tail = c.tail ∧
      (a ≤ c.occ → (t.cq n m).head = head.toNat % md ∧ (t.cq n m).hclamp = c.hclamp) ∧
      (c.occ < a → a ≤ 2 ^ c.k → (t.cq n m).head = c.tail ∧ (t.cq n m).hclamp = true ∧ TenEvent t n evCqHeadClamp) ∧
      (c.occ < a → 2 ^ c.k < a → (t.cq n m).head = c.head ∧ (t.cq n m).hclamp = true ∧ TenEvent t n evCqHeadClamp)) ∧
  (∀ (n : TenantIx) (m : RingIx) (s : State), readRing s (.dbCq n m) = BitVec.ofNat 64 ((s.cq n m).head % 2 ^ 17))

/-- O39. Setting up, disabling and going on of a completion ring (R110, R117, R122): BASE and SIZE are taken, with head and tail set to 0, only while
EN is 0 and no place or record is held; EN is not cleared while a ring names it or a place or a record is held; clearing FAULT copies the
records that are held; the coalescing timer gives a notice, and so does a COAL_CNT that the records since the last notice have reached.
What the model chose or read where the spec is open: log entry 8. -/
def Obligations.CompletionRings : Prop :=
  (∀ (who : Who) (n : TenantIx) (m : RingIx) (v : Word) (s : State), Takes s who (.cqBase n m) v →
    (cqMutable s n m = true → ∃ t, exec (.cqSetupWrite who n m .base v) s = .next t ∧ Only [.cqs, .sent] s t ∧ OtherCqs n m s t ∧
      t.cq n m = { s.cq n m with base := Reg.write (.cqBase n m) (s.cq n m).base (~~~ 0) v, head := 0, tail := 0 }) ∧
    (cqMutable s n m = false → ∃ t, exec (.cqSetupWrite who n m .base v) s = .next t ∧ Dropped s t)) ∧
  (∀ (who : Who) (n : TenantIx) (m : RingIx) (v : Word) (s : State), Takes s who (.cqCfg n m) v →
    let c := { s.cq n m with cfg := Reg.write (.cqCfg n m) (s.cq n m).cfg (~~~ 0) v }
    let noted (d : Cq) : Cq := if 0 < d.coal ∧ d.coalCnt ≤ d.coal then { d with coal := 0, timer := false } else d
    (cqMutable s n m = true → ∃ t, exec (.cqSetupWrite who n m .cfg v) s = .next t ∧ Only [.tens, .cqs, .sent] s t ∧ OtherTens n s t ∧
      OtherCqs n m s t ∧ t.cq n m = noted { c with head := 0, tail := 0 } ∧ (0 < c.coal → c.coalCnt ≤ c.coal → TenEvent t n evCqNotify)) ∧
    (cqMutable s n m = false → fld v 4 0 = (s.cq n m).k → ∃ t, exec (.cqSetupWrite who n m .cfg v) s = .next t ∧ Only [.tens, .cqs] s t ∧
      OtherTens n s t ∧ OtherCqs n m s t ∧ t.cq n m = noted c ∧ (0 < c.coal → c.coalCnt ≤ c.coal → TenEvent t n evCqNotify)) ∧
    (cqMutable s n m = false → fld v 4 0 ≠ (s.cq n m).k → ∃ t, exec (.cqSetupWrite who n m .cfg v) s = .next t ∧ Dropped s t)) ∧
  (∀ (who : Who) (n : TenantIx) (m : RingIx) (s : State), Takes s who (.cqCtl n m) 0 →
    ((s.cq n m).en = false → exec (.cqEnWrite who n m false) s = .next s) ∧
    ((s.cq n m).en = true → (cqFed s n m || cqBusy s n m) = true → ∃ t, exec (.cqEnWrite who n m false) s = .next t ∧ Dropped s t) ∧
    ((s.cq n m).en = true → (cqFed s n m || cqBusy s n m) = false → ∃ t, exec (.cqEnWrite who n m false) s = .next t ∧ Only [.cqs] s t ∧
      OtherCqs n m s t ∧ t.cq n m = { s.cq n m with en := false })) ∧
  (∀ (who : Who) (n : TenantIx) (m : RingIx) (s : State), Takes s who (.cqCtl n m) 1 →
    ∃ t, exec (.cqEnWrite who n m true) s = .next t ∧ Only [.cqs] s t ∧ (t.cq n m).en = true ∧ (t.cq n m).tail = (s.cq n m).tail) ∧
  (∀ (who : Who) (n : TenantIx) (m : RingIx) (s : State), Takes s who (.cqStat n m) (BitVec.ofNat 64 (2 ^ 26)) →
    ((s.cq n m).fault = false → exec (.cqFaultClear who n m) s = .next s) ∧
    ((s.cq n m).rescued = [] → ∃ t, exec (.cqFaultClear who n m) s = .next t ∧ Only [.cqs] s t ∧ OtherCqs n m s t ∧ t.cq n m = { s.cq n m with fault := false }) ∧
    (∀ id place l r, (s.cq n m).rescued = (id, place) :: l → (s.cq n m).fault = true → s.req id = some r → r.phase = .rescued place →
      check s s.gen.act none .secure .read (rescueAddr s n place) 32 = none →
      ∃ t, exec (.cqFaultClear who n m) s = .next t ∧ Only [.cqs, .out] s t ∧ (t.cq n m).fault = false ∧
        t.out = (emitRd (rescueAddr s n place) 32 s).out)) ∧
  (∀ (n : TenantIx) (m : RingIx) (s : State), (s.cq n m).timer = true → (s.cq n m).coalTime ≠ 0 →
    ∃ t, exec (.cqCoalTimeout n m) s = .next t ∧ Only [.tens, .cqs] s t ∧ OtherCqs n m s t ∧ TenEvent t n evCqNotify ∧
      t.cq n m = { s.cq n m with coal := 0, timer := false })

/-- O40. A ledger snapshot (R130): the six counters, QUEUED and the time count are copied at once, and the counters stay; reads return the copy;
the owner, and a master bound to the set-up page, may take one. -/
def Obligations.LedgerSnapshot : Prop :=
  (∀ (who : Who) (n : TenantIx) (s : State), s.isOwner who = true ∨ (s.enabled n = true ∧ s.boundSetup who n = true) →
    mayWrite s who (Reg.cls (.tnLedgerCtl n)) = true) ∧
  ∀ (who : Who) (n : TenantIx) (s : State), Takes s who (.tnLedgerCtl n) 1 →
    ∃ t, exec (.ledgerSnap who n) s = .next t ∧ Only [.tens] s t ∧ OtherTens n s t ∧
      t.ten n = { s.ten n with snap := (s.ten n).led, snapQueued := queuedOf s n, snapTime := s.time.ns } ∧
      (s.enabled n = true →
      readTenant t (.tnSnap n 0) = (s.ten n).led.posted ∧ readTenant t (.tnSnap n 1) = (s.ten n).led.clamped ∧
      readTenant t (.tnSnap n 2) = (s.ten n).led.admitted ∧ readTenant t (.tnSnap n 3) = (s.ten n).led.completed ∧
      readTenant t (.tnSnap n 4) = (s.ten n).led.flushed ∧ readTenant t (.tnSnap n 5) = (s.ten n).led.inflight ∧
      readTenant t (.tnSnap n 6) = queuedOf s n ∧ readTenant t (.tnSnap n 7) = s.time.ns)

/-- O41. The owner's procedure (R174, R257, R258, R260, R278): OPEN and OPENC claim the pending bank of the selected slot, or set ERR; the W
registers write that bank only, and are dropped while no slot is staged; COMMIT starts verification, with the work on tiles that the key's class
needs, and ABORT gives the bank up. While a supply warning lasts the copy, the writes and that work are deferred.
What the model chose or read where the spec is open: log entry 18. -/
def Obligations.OwnerReplacesKey : Prop :=
  (∀ (who : Who) (s : State), Takes s who .ksCmd 1 → s.ks.kTag.isSome = true →
    let x := ksSel s
    (courseLocked s x = true → ∃ t, exec (.ksOpen who) s = .next t ∧ t = ksErr 6 s) ∧
    (courseLocked s x = false → (s.ks.isOpen = true ∨ (s.slot x).zeroing = true ∨ (s.slot x).draining = true ∨ (s.slot x).code ∉ [0, 1, 5]) →
      ∃ t, exec (.ksOpen who) s = .next t ∧ t = ksErr 1 s) ∧
    (courseLocked s x = false → s.ks.isOpen = false → (s.slot x).zeroing = false → (s.slot x).draining = false → (s.slot x).code ∈ [0, 1, 5] →
      ∃ t, exec (.ksOpen who) s = .next t ∧ Only [.own, .ks] s t ∧ OtherSlots x s t ∧ t.ks.isOpen = true ∧ t.ks.openSlot = x ∧ t.ks.err = 0 ∧
        (t.slot x).code = 2 ∧ (t.slot x).act = (s.slot x).act ∧ (t.slot x).idle.material = zeros 64)) ∧
  (∀ (who : Who) (s : State), Takes s who .ksCmd 2 → s.ks.kTag.isSome = true → courseLocked s (ksSel s) = false → s.ks.isOpen = false →
    (s.slot (ksSel s)).zeroing = false → (s.slot (ksSel s)).draining = false →
    let x := ksSel s
    ((s.slot x).code = 0 ∨ (s.slot x).code = 5 → ∃ t, exec (.ksOpenc who) s = .next t ∧ t = ksErr 7 s) ∧
    ((s.slot x).code = 1 → ∃ t, exec (.ksOpenc who) s = .next t ∧ Only [.own, .ks] s t ∧ OtherSlots x s t ∧ t.ks.isOpen = true ∧ t.ks.openSlot = x ∧
      t.ks.err = 0 ∧ (t.slot x).code = 2 ∧ (t.slot x).act = (s.slot x).act ∧
      (s.sup.active = true → t.ks.deferred = s.ks.deferred ++ [.copy x] ∧ (t.slot x).idle.material = zeros 64) ∧
      (s.sup.active = false → (t.slot x).idle.material = fit 64 (s.slot x).act.material ∧ (t.slot x).idle.next = (s.slot x).act.next ∧
        (t.slot x).idle.soft = (s.slot x).act.soft))) ∧
  (∀ (who : Who) (r : KsBankReg) (v : Word) (s : State), Takes s who (ksBankReg r) v → r ≠ .wkcvEn →
    (ksStaged s = false → ∃ t, exec (.ksBankWrite who r v) s = .next t ∧ Dropped s t) ∧
    (ksStaged s = true → s.ks.openc = false → s.sup.active = true →
      ∃ t, exec (.ksBankWrite who r v) s = .next t ∧ Only [.ks] s t ∧ t.ks.slots = s.ks.slots ∧ t.ks.deferred = s.ks.deferred ++ [.bank r (~~~ 0) v]) ∧
    (ksStaged s = true → s.ks.openc = false → s.sup.active = false →
      ∃ t, exec (.ksBankWrite who r v) s = .next t ∧ Only [.ks] s t ∧ OtherSlots s.ks.openSlot s t ∧
        (t.slot s.ks.openSlot).act = (s.slot s.ks.openSlot).act ∧
        (r = .wnext → (t.slot s.ks.openSlot).idle.next = v) ∧ (r = .wsoft → (t.slot s.ks.openSlot).idle.soft = v) ∧
        (∀ i, r = .wdata i → (t.slot s.ks.openSlot).idle.material = putWord (s.slot s.ks.openSlot).idle.material 64 i.val (~~~ 0) v) ∧
        (∀ i, r = .wattr i → (t.slot s.ks.openSlot).idle.attr = putWord (s.slot s.ks.openSlot).idle.attr 16 i.val (~~~ 0) v) ∧
        (r = .wkcv → t.ks.wkcv = putWord s.ks.wkcv 8 0 (~~~ 0) v))) ∧
  (∀ (who : Who) (s : State), Takes s who .ksCmd 3 → s.ks.kTag.isSome = true →
    (s.ks.isOpen = false → ∃ t, exec (.ksCommit who) s = .next t ∧ t = ksErr 8 s) ∧
    (s.ks.isOpen = true → (s.slot s.ks.openSlot).verify = true → ∃ t, exec (.ksCommit who) s = .next t ∧ t = ksErr 1 s) ∧
    (s.ks.isOpen = true → (s.slot s.ks.openSlot).verify = false →
      let x := s.ks.openSlot
      let cls := aClass (s.slot x).idle.attr
      ∃ t, exec (.ksCommit who) s = .next t ∧ Only [.ks, .sch] s t ∧ OtherSlots x s t ∧ t.ks.busy = true ∧ (t.slot x).code = 3 ∧
        t.slot x = { s.slot x with staged := false, verify := true } ∧
        (s.sup.active = true → t.ks.deferred = s.ks.deferred ++ [.prepare x] ∧ t.sch = s.sch) ∧
        (s.sup.active = false → t.ks.deferred = s.ks.deferred ∧ t.sch.jobs = s.sch.jobs ++
          (if cls = 4 ∨ cls = 5 then [{ id := s.sch.nextId, kind := 2, work := .slot x }]
            else if cls = 0x17 then [{ id := s.sch.nextId, kind := 3, work := .slot x }] else [])))) ∧
  (∀ (who : Who) (s : State), Takes s who .ksCmd 4 → s.ks.kTag.isSome = true →
    (s.ks.isOpen = false → ∃ t, exec (.ksAbort who) s = .next t ∧ t = ksErr 8 s) ∧
    (s.ks.isOpen = true → (s.slot s.ks.openSlot).verify = true → ∃ t, exec (.ksAbort who) s = .next t ∧ t = ksErr 1 s) ∧
    (s.ks.isOpen = true → (s.slot s.ks.openSlot).verify = false →
      ∃ t, exec (.ksAbort who) s = .next t ∧ Only [.ks, .sch, .tiles] s t ∧ OtherSlots s.ks.openSlot s t ∧ t.ks.isOpen = false ∧ t.ks.err = 0 ∧
        (t.slot s.ks.openSlot).staged = false ∧ (t.slot s.ks.openSlot).act = (s.slot s.ks.openSlot).act ∧ (t.slot s.ks.openSlot).idle = {}))

/-- O42. Verification, swap, drain, zeroize, scan and extend (R174, R244, R245, R255, R256, R258 to R261, R278): a bank that passes becomes the
active one, with its stamp, its prepared state and its tag, and the former one drains until no request is bound to it; one that fails is given
up with its ERR; ZEROIZE clears each bank, and then the slot, once nothing is bound to it; while a supply warning lasts a swap and an extend are
deferred; a failing scan makes the slot CORRUPT; an extend sets Mi to SHA-384(Mi || E) and raises its count, and a refused one sets LOCKED.
What the model chose or read where the spec is open: log entry 18. -/
def Obligations.SlotsSwapAndDrain : Prop :=
  (∀ (slot : Fin 2048) (s : State), verifiable s slot.val = true → KsDefer.verify slot.val ∉ s.ks.deferred → s.sup.active = true →
    ∃ t, exec (.ksVerifyDone slot) s = .next t ∧ Only [.ks] s t ∧ t.ks = { s.ks with deferred := s.ks.deferred ++ [.verify slot.val] }) ∧
  (∀ (slot : Fin 2048) (s : State), verifiable s slot.val = true → KsDefer.verify slot.val ∉ s.ks.deferred → s.sup.active = false →
    ownerHolds s slot.val = true →
    let a := fit 16 (s.slot slot.val).idle.attr
    let m := (fit 64 (s.slot slot.val).idle.material).take (aLen a)
    (verifyErr s slot.val = 0 → ∃ t, exec (.ksVerifyDone slot) s = .next t ∧ OtherSlots slot.val s t ∧ t.ks.err = 0 ∧ t.ks.isOpen = false ∧ t.ks.busy = false ∧
      bitOf t.evPend gKsCommitDone = true ∧ (t.slot slot.val).cur = !(s.slot slot.val).cur ∧ (t.slot slot.val).hasCur = true ∧
      (t.slot slot.val).draining = (s.slot slot.val).hasCur ∧ (t.slot slot.val).idle = (s.slot slot.val).act ∧
      (t.slot slot.val).act.attr = a ∧ (t.slot slot.val).act.material = m ∧ (t.slot slot.val).act.next = (s.slot slot.val).idle.next ∧
      (t.slot slot.val).act.mstamp = stampNow s (aMpol a) ∧ (t.slot slot.val).act.prep = prepOf a m ∧
      (t.slot slot.val).act.tag = keyTag s m a (s.slot slot.val).idle.soft (stampNow s (aMpol a)) (prepOf a m)) ∧
    (verifyErr s slot.val ≠ 0 → ∃ t, exec (.ksVerifyDone slot) s = .next t ∧ Only [.ks, .sch, .tiles, .evPend] s t ∧ OtherSlots slot.val s t ∧
      t.ks.err = BitVec.ofNat 4 (verifyErr s slot.val) ∧ t.ks.isOpen = false ∧ bitOf t.evPend gKsCommitFail = true ∧
      (t.slot slot.val).act = (s.slot slot.val).act ∧ (t.slot slot.val).idle = {})) ∧
  (∀ (slot : Fin 2048) (s : State), (s.slot slot.val).zeroing = false → (s.slot slot.val).draining = true →
    (boundCount s slot.val (!(s.slot slot.val).cur) ≠ 0 → exec (.ksDrained slot) s = .next s) ∧
    (boundCount s slot.val (!(s.slot slot.val).cur) = 0 → ∃ t, exec (.ksDrained slot) s = .next t ∧ Only [.ks, .evPend] s t ∧ OtherSlots slot.val s t ∧
      bitOf t.evPend gKsDrained = true ∧ (t.slot slot.val).draining = false ∧ (t.slot slot.val).act = (s.slot slot.val).act ∧ (t.slot slot.val).idle = {})) ∧
  (∀ (slot : Fin 2048) (s : State), (s.slot slot.val).zeroing = true → (s.slot slot.val).staged = false → (s.slot slot.val).verify = false →
    boundCount s slot.val true = 0 → boundCount s slot.val false = 0 →
    ∃ t, exec (.ksDrained slot) s = .next t ∧ Only [.ks, .evPend] s t ∧ OtherSlots slot.val s t ∧ t.slot slot.val = {}) ∧
  (∀ (slot : Fin 2048) (s : State), (s.slot slot.val).zeroing = true →
    (boundCount s slot.val true ≠ 0 ∨ boundCount s slot.val false ≠ 0 ∨ (s.slot slot.val).staged = true ∨ (s.slot slot.val).verify = true) →
    let v := s.slot slot.val
    let stays (b : Bool) : Prop := boundCount s slot.val b ≠ 0 ∨ ((v.staged = true ∨ v.verify = true) ∧ b ≠ v.cur)
    ∃ t, exec (.ksDrained slot) s = .next t ∧ Only [.ks, .evPend] s t ∧ OtherSlots slot.val s t ∧ (t.slot slot.val).zeroing = true ∧
      (stays false → (t.slot slot.val).bankA = v.bankA) ∧ (¬stays false → (t.slot slot.val).bankA = {}) ∧
      (stays true → (t.slot slot.val).bankB = v.bankB) ∧ (¬stays true → (t.slot slot.val).bankB = {})) ∧
  (∀ (who : Who) (s : State), Takes s who .ksCmd 5 → s.ks.kTag.isSome = true → courseLocked s (ksSel s) = false → ownerHolds s (ksSel s) = false →
    s.slot (ksSel s) ≠ {} →
    ∃ t, exec (.ksZeroize who) s = .next t ∧ Only [.ks] s t ∧ OtherSlots (ksSel s) s t ∧ t.ks.err = 0 ∧
      t.slot (ksSel s) = { s.slot (ksSel s) with zeroing := true }) ∧
  (∀ (who : Who) (s : State), Takes s who .ksCmd 5 → s.ks.kTag.isSome = true → courseLocked s (ksSel s) = false → ownerHolds s (ksSel s) = true →
    ∃ t, exec (.ksZeroize who) s = .next t ∧ Only [.ks, .sch, .tiles] s t ∧ OtherSlots (ksSel s) s t ∧ t.ks.err = 0 ∧ t.ks.isOpen = false ∧
      (t.slot (ksSel s)).idle = {} ∧ (t.slot (ksSel s) = {} ∨ (t.slot (ksSel s)).zeroing = true)) ∧
  (∀ (slot : Fin 2048) (s : State), (s.slot slot.val).hasCur = true → (s.slot slot.val).corrupt = false →
    exec (.ksBackgroundScan slot .clean) s = .next s ∧
    (∃ t, exec (.ksBackgroundScan slot .corrected) s = .next t ∧ t.ks.ce = s.ks.ce.bump ∧ t.ks.slots = s.ks.slots) ∧
    (∃ t, exec (.ksBackgroundScan slot .tagMismatch) s = .next t ∧ OtherSlots slot.val s t ∧ (t.slot slot.val).corrupt = true ∧
      (t.slot slot.val).ueBank = false ∧ bitOf t.evPend gKsSlotCorrupt = true ∧ t.jrn.seq = s.jrn.seq + 1) ∧
    (∃ t, exec (.ksBackgroundScan slot .uncorrectable) s = .next t ∧ OtherSlots slot.val s t ∧ (t.slot slot.val).corrupt = true ∧
      (t.slot slot.val).ueBank = true ∧ bitOf t.evPend gKsSlotCorrupt = true ∧ t.jrn.seq = s.jrn.seq + 2)) ∧
  (∀ (who : Who) (s : State), Takes s who .ksCmd 6 → s.ks.kTag.isSome = true →
    let i := fld s.own.measSel 2 0
    ((i = 0 ∨ extendRefused s i = true) → ∃ t, exec (.ksExtend who) s = .next t ∧ t.meas = s.meas ∧ t.ks.err = 6 ∧ t.jrn.seq = s.jrn.seq + 1) ∧
    (i ≠ 0 → extendRefused s i = false → s.sup.active = false → ∃ t, exec (.ksExtend who) s = .next t ∧ Only [.ks, .meas] s t ∧ t.ks.err = 0 ∧
      measVal t i = fit 48 (sha384 (measVal s i ++ fit 48 s.meas.data)) ∧ measCnt t i = measCnt s i + 1 ∧
      (∀ j, j ≠ i → measVal t j = measVal s j ∧ measCnt t j = measCnt s j) ∧ t.meas.lock = s.meas.lock) ∧
    (i ≠ 0 → extendRefused s i = false → s.sup.active = true → ∃ t, exec (.ksExtend who) s = .next t ∧ Only [.ks] s t ∧ t.ks.err = 0 ∧
      t.ks.slots = s.ks.slots ∧ t.ks.deferred = s.ks.deferred ++ [.extend i (fit 48 s.meas.data)]))

/-- O43. The entropy source (R281 to R284): a sample that makes a run of 41, or the 800th recurrence of a window's first sample, is a failure, which
is counted, recorded and moves the source to RECOVERING, or to FAILED on the third in RECOVERING; 1024 samples that pass make it HEALTHY; a
block of 1024 tested samples is conditioned with SHA-384, enters the pool and resets the failure count, and a STARVED generator takes it at once,
or finds an uncorrectable error in it and discards it; in FAILED, and while RAW is 1, none is conditioned; RESTART acts in FAILED only; AH_ES_RAW
gives 32 samples, or zero.
What the model chose or read where the spec is open: log entries 5 and 12. -/
def Obligations.EntropySource : Prop :=
  (∀ (bit : Bool) (s : State), s.start.osc = true → s.es.st ≠ .failed →
    let e := esAdvance bit s.es
    let startup := s.es.st = .starting ∨ s.es.st = .recovering
    let dead := s.es.st = .recovering ∧ 2 ≤ s.es.fails
    (41 ≤ e.run → ∃ t, exec (.entropySample bit) s = .next t ∧ Only (.es :: recordParts) s t ∧ t.es.rctFails = s.es.rctFails.bump ∧
      t.es.aptFails = s.es.aptFails ∧ t.es.pool = s.es.pool ∧ (dead → t.es.st = .failed ∧ bitOf t.evPend gEsFail = true ∧ t.jrn.seq = s.jrn.seq + 2) ∧
      (¬dead → t.es.st = .recovering ∧ t.jrn.seq = s.jrn.seq + 1)) ∧
    (e.run < 41 → 800 ≤ e.winSame → ∃ t, exec (.entropySample bit) s = .next t ∧ Only (.es :: recordParts) s t ∧ t.es.rctFails = s.es.rctFails ∧
      t.es.aptFails = s.es.aptFails.bump ∧ t.es.pool = s.es.pool ∧ (dead → t.es.st = .failed ∧ bitOf t.evPend gEsFail = true ∧ t.jrn.seq = s.jrn.seq + 2) ∧
      (¬dead → t.es.st = .recovering ∧ t.jrn.seq = s.jrn.seq + 1)) ∧
    (e.run < 41 → e.winSame < 800 → ∃ t, exec (.entropySample bit) s = .next t ∧ Only [.es] s t ∧ t.es.rctFails = s.es.rctFails ∧
      t.es.aptFails = s.es.aptFails ∧ t.es.pool = s.es.pool ∧
      (startup → s.es.tested + 1 = 1024 → t.es.st = .healthy) ∧ (startup → s.es.tested + 1 ≠ 1024 → t.es.st = s.es.st ∧ t.es.tested = s.es.tested + 1) ∧
      (¬startup → t.es.st = s.es.st ∧ t.es.samples = if rawOn s then s.es.samples else s.es.samples ++ [bit]))) ∧
  (∀ (bit : Bool) (s : State), s.start.osc = true → s.es.st = .failed →
    ∃ t, exec (.entropySample bit) s = .next t ∧ Only [.es] s t ∧ t.es.st = .failed ∧ t.es.samples = s.es.samples ∧ t.es.pool = s.es.pool) ∧
  (∀ (ecc : Ecc) (s : State), (s.es.st = .failed ∨ rawOn s = true) → exec (.entropyBlockConditioned ecc) s = .next s) ∧
  (∀ (s : State), 1024 ≤ s.es.samples.length → s.es.st ≠ .failed → rawOn s = false →
    let block := conditioned (s.es.samples.take 1024)
    ((∀ k, k < 4 → (s.rbg k).st ≠ .starved) →
      ∃ t, exec (.entropyBlockConditioned .clean) s = .next t ∧ Only [.es] s t ∧ t.es.fails = 0 ∧ t.es.samples = s.es.samples.drop 1024 ∧
        t.es.pool = if s.es.pool.length < 8 then s.es.pool ++ [block] else s.es.pool) ∧
    (∀ k, k < 4 → s.sup.active = false → (s.rbg k).st = .starved → (∀ j, j < k → (s.rbg j).st ≠ .starved) → s.es.pool = [] →
      (Config.blockBad block = false → ∃ t, exec (.entropyBlockConditioned .clean) s = .next t ∧ Only [.es, .rbgs] s t ∧ t.es.pool = [] ∧
        t.es.fails = 0 ∧ t.es.samples = s.es.samples.drop 1024 ∧ t.rbg k = (s.rbg k).seed (rbgPers s k) block ∧ ∀ j, j ≠ k → t.rbg j = s.rbg j) ∧
      (Config.blockBad block = true → ∃ t, exec (.entropyBlockConditioned .clean) s = .next t ∧ Only ([.es, .rbgs] ++ recordParts) s t ∧
        t.es.pool = [] ∧ t.es.fails = 0 ∧ t.es.samples = s.es.samples.drop 1024 ∧ (∀ j, t.rbg j = s.rbg j) ∧ t.jrn.seq = s.jrn.seq + 1)) ∧
    (∃ t, exec (.entropyBlockConditioned .uncorrectable) s = .next t ∧ Only (.es :: recordParts) s t ∧ t.es.pool = s.es.pool ∧
      t.es.samples = s.es.samples.drop 1024 ∧ t.jrn.seq = s.jrn.seq + 1)) ∧
  (∀ (who : Who) (s : State), Takes s who .esCtl 2 →
    (s.es.st = .failed → ∃ t, exec (.esRestart who) s = .next t ∧ Only [.es] s t ∧ t.es.st = .starting ∧ t.es.tested = 0) ∧
    (s.es.st ≠ .failed → exec (.esRestart who) s = .next s)) ∧
  (∀ (who : Who) (s : State), who.dbg = false → readable s who .esRaw = true →
    (rawOn s = false → ∃ t, exec (.esRawRead who) s = .next t ∧ Only [.out] s t ∧ t.out = s.out ++ [.cfgRd who 0]) ∧
    (rawOn s = true → s.es.raw.length = 32 → ∃ t, exec (.esRawRead who) s = .next t ∧ Only [.es, .out] s t ∧ t.es.raw = [] ∧
      t.out = s.out ++ [.cfgRd who (BitVec.ofNat 64 (bitsNat s.es.raw))]) ∧
    (rawOn s = true → s.es.raw.length < 32 → exec (.esRawRead who) s = .next s))

/-- O44. The generators (R283, R285 to R287, R407, R431): a reseed takes one block of the pool and makes the generator HEALTHY with the key and V that
the block gives it, and with the pool empty STARVED; a block with an uncorrectable error is discarded, and the next one serves; an uncorrectable
error of its state or a failing known-answer test makes it FAILED, with its state zeroized; none is instantiated before the fuse read; K_tag is
drawn once, from RBG0 or, where that has failed, from the first one that is HEALTHY; RESTART makes it UNINIT; nothing of this runs while a supply
warning lasts.
What the model chose or read where the spec is open: log entries 5 and 12. -/
def Obligations.Generators : Prop :=
  (∀ (k : Fin 4) (ecc block : Ecc) (katOk : Bool) (s : State), s.sup.active = true →
    exec (.rbgReseed k ecc block) s = .next s ∧ exec (.rbgInstantiate k katOk block) s = .next s) ∧
  (∀ (k : Fin 4) (block : Ecc) (s : State), s.sup.active = false → ((s.rbg k.val).st = .healthy ∨ (s.rbg k.val).st = .starved) →
    (∀ b l, s.es.pool = b :: l → ∃ t, exec (.rbgReseed k .clean .clean) s = .next t ∧ Only [.es, .rbgs] s t ∧ t.es = { s.es with pool := l } ∧
      t.rbg k.val = (s.rbg k.val).seed (rbgPers s k.val) b ∧ (t.rbg k.val).st = .healthy ∧ ∀ j, j ≠ k.val → t.rbg j = s.rbg j) ∧
    (∀ b c l, s.es.pool = b :: c :: l → ∃ t, exec (.rbgReseed k .clean .uncorrectable) s = .next t ∧ Only ([.es, .rbgs] ++ recordParts) s t ∧
      t.es = { s.es with pool := l } ∧ t.rbg k.val = (s.rbg k.val).seed (rbgPers s k.val) c ∧ t.jrn.seq = s.jrn.seq + 1) ∧
    (s.es.pool = [] → ∃ t, exec (.rbgReseed k .clean block) s = .next t ∧ Only [.rbgs, .evPend] s t ∧ (t.rbg k.val).st = .starved ∧
      ((s.rbg k.val).st = .healthy → bitOf t.evPend gRbgStarved = true) ∧ ∀ j, j ≠ k.val → t.rbg j = s.rbg j) ∧
    (∃ t, exec (.rbgReseed k .uncorrectable block) s = .next t ∧ Only (.rbgs :: recordParts) s t ∧ t.rbg k.val = { st := .failed } ∧
      bitOf t.evPend gRbgFail = true ∧ t.jrn.seq = s.jrn.seq + 2 ∧ ∀ j, j ≠ k.val → t.rbg j = s.rbg j)) ∧
  (∀ (k : Fin 4) (katOk : Bool) (block : Ecc) (s : State), s.start.fuses = false → exec (.rbgInstantiate k katOk block) s = .next s) ∧
  (∀ (k : Fin 4) (block : Ecc) (s : State), s.start.fuses = true → s.sup.active = false → (s.rbg k.val).st = .uninit →
    let noDraw := s.ks.kTag.isSome = true ∨ (k.val ≠ 0 ∧ (s.rbg 0).st = .uninit)
    let draws := s.ks.kTag = none ∧ (k.val = 0 ∨ (s.rbg 0).st ≠ .uninit) ∧ ∀ j, j < k.val → (s.rbg j).st ≠ .healthy
    (∃ t, exec (.rbgInstantiate k false block) s = .next t ∧ t.rbg k.val = { st := .failed } ∧ bitOf t.evPend gRbgFail = true ∧
      (noDraw ∨ (∀ j, j < 4 → (s.rbg j).st ≠ .healthy) → Only (.rbgs :: recordParts) s t ∧ t.jrn.seq = s.jrn.seq + 1 ∧
        ∀ j, j ≠ k.val → t.rbg j = s.rbg j)) ∧
    (s.es.pool = [] → exec (.rbgInstantiate k true block) s = .next s) ∧
    (∀ b l, s.es.pool = b :: l → noDraw → ∃ t, exec (.rbgInstantiate k true .clean) s = .next t ∧
      Only [.es, .rbgs] s t ∧ t.rbg k.val = (s.rbg k.val).seed (rbgPers s k.val) b ∧ t.es = { s.es with pool := l }) ∧
    (∀ b l, s.es.pool = b :: l → draws →
      let g := (s.rbg k.val).seed (rbgPers s k.val) b
      ∃ t, exec (.rbgInstantiate k true .clean) s = .next t ∧
        (equalBlocks 2 g.last (g.draw 32 []).1 = false → Only [.es, .rbgs, .ks] s t ∧ t.es = { s.es with pool := l } ∧
          t.rbg k.val = (g.draw 32 []).2 ∧ (∀ j, j ≠ k.val → t.rbg j = s.rbg j) ∧
          t.ks = { s.ks with kTag := some ((g.draw 32 []).1.take 32) }))) ∧
  (∀ (who : Who) (k : Fin 4) (s : State), Takes s who .rbgCtl (BitVec.ofNat 64 (2 ^ k.val)) →
    ∃ t, exec (.rbgRestart who k) s = .next t ∧ Only [.rbgs] s t ∧ t.rbg k.val = {} ∧ ∀ j, j ≠ k.val → t.rbg j = s.rbg j)

/-- O45. Software and its channels (R301, R304, R312, R318, R320 to R322, R503): GO, PAUSE, RESUME, ABORT, REFETCH and CLRCRED act as the states of
a channel say, and are dropped where no enabled tenant holds it; its configuration takes writes only while it is IDLE, and its record ring
while it is disabled; a record head is judged as that of a completion ring; a pace pulse adds one credit, up to 15, and is counted as lost above, and
so while the unit is gated (R395). A channel that begins to run while the unit is to be gated, or retention is asked for, pauses at once (R394, R412).
What the model chose or read where the spec is open: log entries 15 and 19. -/
def Obligations.ChannelControl : Prop :=
  (∀ (who : Who) (k : ChanIx) (s : State), dcAssigned s k.val = false →
    (Takes s who (.dcCtl k) 1 → ∃ t, exec (.dcGo who k) s = .next t ∧ Dropped s t) ∧
    (Takes s who (.dcCtl k) 2 → ∃ t, exec (.dcPause who k) s = .next t ∧ Dropped s t) ∧
    (Takes s who (.dcCtl k) 0 → ∃ t, exec (.dcResume who k) s = .next t ∧ Dropped s t) ∧
    (Takes s who (.dcCtl k) 4 → ∃ t, exec (.dcAbort who k) s = .next t ∧ Dropped s t) ∧
    (Takes s who (.dcCtl k) 0xA → ∃ t, exec (.dcRefetch who k) s = .next t ∧ Dropped s t) ∧
    (Takes s who (.dcCtl k) 0x10 → ∃ t, exec (.dcClrcred who k) s = .next t ∧ Dropped s t)) ∧
  (∀ (who : Who) (k : ChanIx) (s : State), dcAssigned s k.val = true →
    let c := s.dc k.val
    let first := fld c.first 15 0
    let back := s.clk.pending.toNat.testBit 24 = true ∨ s.ret.req = true
    (Takes s who (.dcCtl k) 1 →
      (back → (c.st = .idle ∨ c.st = .paused ∨ (c.st = .stopped ∧ c.fault = false)) → ∃ t, exec (.dcGo who k) s = .next t ∧ Only chanParts s t ∧
        OtherDcs k.val s t ∧ (((t.dc k.val).st = .paused ∧ (t.dc k.val).pause = true) ∨ (t.dc k.val).st = .stopped)) ∧
      (c.st = .idle → c.count ≤ first → ∃ t, exec (.dcGo who k) s = .next t ∧ Only chanParts s t ∧ OtherDcs k.val s t ∧ ChanStopped s t k.val stUnsupported 0x80) ∧
      (c.st = .idle → first < c.count → ¬back → itemOk s k.val first → ∃ t, exec (.dcGo who k) s = .next t ∧ Only [.dcs, .out] s t ∧
        OtherDcs k.val s t ∧ (t.dc k.val).st = .running ∧ (t.dc k.val).pause = false ∧ (t.dc k.val).fetching = true ∧ (t.dc k.val).held = none ∧
        (t.dc k.val).prog = { c.prog with desc := first, aregs := [], cregs := [], xcfg := none } ∧
        t.out = (emitRd (c.itemAddr first) c.itemLen s).out) ∧
      (c.st = .paused → c.held.isSome = true → ¬back → ∃ t, exec (.dcGo who k) s = .next t ∧ Only [.dcs, .tens] s t ∧ OtherDcs k.val s t ∧
        ((t.dc k.val).st = .running ∨ (t.dc k.val).st = .waiting) ∧ (t.dc k.val).pause = false ∧ (t.dc k.val).held = c.held ∧
        (t.dc k.val).i0 = c.i0 ∧ (t.dc k.val).i1 = c.i1 ∧ (t.dc k.val).i2 = c.i2 ∧ (t.dc k.val).prog = c.prog) ∧
      (c.st = .stopped ∧ c.fault = true ∨ c.st = .running ∨ c.st = .waiting → ∃ t, exec (.dcGo who k) s = .next t ∧ Only [.dcs] s t ∧
        OtherDcs k.val s t ∧ t.dc k.val = { c with pause := false }) ∧
      (c.st = .stopped → c.fault = false → c.held = none → c.fetching = false → c.count ≤ c.desc →
        ∃ t, exec (.dcGo who k) s = .next t ∧ Only chanParts s t ∧ OtherDcs k.val s t ∧ ChanStopped s t k.val stUnsupported 0x80) ∧
      (c.st = .stopped → c.fault = false → c.held = none → c.fetching = false → c.pref = [] → c.desc < c.count → ¬back → itemOk s k.val c.desc →
        ∃ t, exec (.dcGo who k) s = .next t ∧ Only [.dcs, .out] s t ∧ OtherDcs k.val s t ∧ (t.dc k.val).st = .running ∧ (t.dc k.val).fetching = true ∧
          (t.dc k.val).i0 = c.i0 ∧ (t.dc k.val).i1 = c.i1 ∧ (t.dc k.val).i2 = c.i2 ∧ (t.dc k.val).prog = c.prog)) ∧
    (Takes s who (.dcCtl k) 2 →
      ((c.st = .running ∨ c.st = .waiting) → c.lines = [] → c.ahead = [] → ∃ t, exec (.dcPause who k) s = .next t ∧ Only [.dcs] s t ∧
        OtherDcs k.val s t ∧ t.dc k.val = { c with st := .paused, pause := true, rstall := false }) ∧
      ((c.st = .running ∨ c.st = .waiting) → ∃ t, exec (.dcPause who k) s = .next t ∧ Only chanParts s t ∧ OtherDcs k.val s t ∧
        (((t.dc k.val).st = .paused ∧ (t.dc k.val).pause = true ∧ (t.dc k.val).lines = [] ∧ (t.dc k.val).ahead = []) ∨ (t.dc k.val).st = .stopped)) ∧
      (c.st = .idle ∨ c.st = .stopped ∨ c.st = .paused → ∃ t, exec (.dcPause who k) s = .next t ∧ Only [.dcs] s t ∧ OtherDcs k.val s t ∧ t.dc k.val = { c with pause := true })) ∧
    (Takes s who (.dcCtl k) 0 →
      (c.st ≠ .paused → ∃ t, exec (.dcResume who k) s = .next t ∧ Only [.dcs] s t ∧ OtherDcs k.val s t ∧ t.dc k.val = { c with pause := false }) ∧
      (c.st = .paused → c.held.isSome = true → ¬back → ∃ t, exec (.dcResume who k) s = .next t ∧ Only [.dcs, .tens] s t ∧ OtherDcs k.val s t ∧
        ((t.dc k.val).st = .running ∨ (t.dc k.val).st = .waiting) ∧ (t.dc k.val).pause = false ∧ (t.dc k.val).held = c.held ∧ (t.dc k.val).prog = c.prog)) ∧
    (Takes s who (.dcCtl k) 4 →
      (c.st = .idle → exec (.dcAbort who k) s = .next s) ∧
      (c.st ≠ .idle → c.recEn = false → ∃ t, exec (.dcAbort who k) s = .next t ∧ Only [.dcs] s t ∧ OtherDcs k.val s t ∧ (t.dc k.val).st = .idle ∧
        (t.dc k.val).lines = [] ∧ (t.dc k.val).i2 = (earliest c).getD 0 0 ∧ (t.dc k.val).i1 = (earliest c).getD 1 0 ∧ (t.dc k.val).i0 = (earliest c).getD 2 0)) ∧
    (Takes s who (.dcCtl k) 0xA →
      (c.st = .paused → ∃ t, exec (.dcRefetch who k) s = .next t ∧ Only [.dcs] s t ∧ OtherDcs k.val s t ∧ (t.dc k.val).held = none ∧
        (t.dc k.val).pref = [] ∧ (t.dc k.val).ahead = [] ∧ (t.dc k.val).fetching = false ∧ (t.dc k.val).st = .paused ∧ (t.dc k.val).pos = c.pos ∧
        (t.dc k.val).credit = c.credit ∧ (t.dc k.val).lines = c.lines ∧ (t.dc k.val).prog = c.prog) ∧
      (c.st ≠ .paused → ∃ t, exec (.dcRefetch who k) s = .next t ∧ Only [.dcs] s t ∧ OtherDcs k.val s t ∧ t.dc k.val = c)) ∧
    (Takes s who (.dcCtl k) 0x10 → ∃ t, exec (.dcClrcred who k) s = .next t ∧ Only [.dcs, .tens] s t ∧ OtherDcs k.val s t ∧ (t.dc k.val).credit = 0 ∧
      (t.dc k.val).held = c.held ∧ (t.dc k.val).pos = c.pos ∧ (t.dc k.val).prog = c.prog ∧
      (c.st ≠ .running → c.st ≠ .waiting → t.dc k.val = { c with credit := 0 }) ∧
      (c.st = .running → c.inUnit = false → c.atPoint = false → c.place = true → ({ c with credit := 0 } : Chan).needsCredit = true →
        (t.dc k.val).st = .waiting))) ∧
  (∀ (who : Who) (k : ChanIx) (r : DcSetup) (v : Word) (s : State), Takes s who (dcSetupReg k r) v →
    let c := s.dc k.val
    ((r = .cfg ∨ r = .dbase ∨ r = .dcount ∨ r = .first) → c.st ≠ .idle → ∃ t, exec (.dcConfigWrite who k r v) s = .next t ∧ Dropped s t) ∧
    (r = .recBase → c.recEn = true → ∃ t, exec (.dcConfigWrite who k r v) s = .next t ∧ Dropped s t) ∧
    (r = .recCfg → c.recEn = true → fld ((Reg.dcRecCfg k).write c.recCfg (~~~ 0) v) 3 0 ≠ c.recK → ∃ t, exec (.dcConfigWrite who k r v) s = .next t ∧ Dropped s t) ∧
    (r = .dbase → c.st = .idle → ∃ t, exec (.dcConfigWrite who k r v) s = .next t ∧ Only [.dcs] s t ∧ OtherDcs k.val s t ∧
      t.dc k.val = { c with dbase := (Reg.dcDbase k).write c.dbase (~~~ 0) v }) ∧
    (r = .dcount → c.st = .idle → ∃ t, exec (.dcConfigWrite who k r v) s = .next t ∧ Only [.dcs] s t ∧ OtherDcs k.val s t ∧
      t.dc k.val = { c with dcount := dcountClamp c.trowel ((Reg.dcDcount k).write c.dcount (~~~ 0) v) }) ∧
    (r = .first → c.st = .idle → ∃ t, exec (.dcConfigWrite who k r v) s = .next t ∧ Only [.dcs] s t ∧ OtherDcs k.val s t ∧
      t.dc k.val = { c with first := (Reg.dcFirst k).write c.first (~~~ 0) v }) ∧
    (r = .cfg → c.st = .idle → ∃ t, exec (.dcConfigWrite who k r v) s = .next t ∧ Only [.dcs] s t ∧ OtherDcs k.val s t ∧
      (t.dc k.val).cfg = (Reg.dcCfg k).write c.cfg (~~~ 0) v) ∧
    (r = .post → ∃ t, exec (.dcConfigWrite who k r v) s = .next t ∧ Only [.dcs] s t ∧ OtherDcs k.val s t ∧
      t.dc k.val = { c with post := (Reg.dcPost k).write c.post (~~~ 0) v }) ∧
    (r = .recBase → c.recEn = false → ∃ t, exec (.dcConfigWrite who k r v) s = .next t ∧ Only [.dcs] s t ∧ OtherDcs k.val s t ∧
      t.dc k.val = { c with recBase := (Reg.dcRecBase k).write c.recBase (~~~ 0) v, recHead := 0, recTail := 0 }) ∧
    (r = .recCfg → fld ((Reg.dcRecCfg k).write c.recCfg (~~~ 0) v) 3 0 = c.recK → ∃ t, exec (.dcConfigWrite who k r v) s = .next t ∧ Only [.dcs, .tens] s t ∧
      OtherDcs k.val s t ∧ (t.dc k.val).prog = { c.prog with recCfg := (Reg.dcRecCfg k).write c.recCfg (~~~ 0) v } ∧ (t.dc k.val).credit = c.credit ∧
      (t.dc k.val).held = c.held ∧ (t.dc k.val).pos = c.pos ∧ (t.dc k.val).recTail = c.recTail ∧
      (c.st ≠ .running → c.st ≠ .waiting → t.dc k.val = { c with recCfg := (Reg.dcRecCfg k).write c.recCfg (~~~ 0) v })) ∧
    (r = .recCfg → c.recEn = false → fld ((Reg.dcRecCfg k).write c.recCfg (~~~ 0) v) 3 0 ≠ c.recK → ∃ t, exec (.dcConfigWrite who k r v) s = .next t ∧ Only [.dcs] s t ∧
      OtherDcs k.val s t ∧ t.dc k.val = { c with recCfg := (Reg.dcRecCfg k).write c.recCfg (~~~ 0) v, recHead := 0, recTail := 0 })) ∧
  (∀ (who : Who) (k : ChanIx) (head : BitVec 11) (s : State), Takes s who (.dcRecHead k) (head.setWidth 64) →
    let c := s.dc k.val
    let md := 2 ^ (c.recK + 1)
    let a := (head.toNat % md + md - c.recHead % md) % md
    ∃ t, exec (.dcRecHeadWrite who k head) s = .next t ∧ Only [.dcs, .tens] s t ∧ OtherDcs k.val s t ∧
      (a ≤ c.recOcc → (t.dc k.val).recHead = head.toNat % md) ∧ (c.recOcc < a → a ≤ 2 ^ c.recK → (t.dc k.val).recHead = c.recTail) ∧
      (c.recOcc < a → 2 ^ c.recK < a → (t.dc k.val).recHead = c.recHead) ∧
      (t.dc k.val).held = c.held ∧ (t.dc k.val).i0 = c.i0 ∧ (t.dc k.val).i1 = c.i1 ∧ (t.dc k.val).i2 = c.i2 ∧ (t.dc k.val).recTail = c.recTail) ∧
  (∀ (src : BitVec 6) (s : State), s.start.serving = true → s.ret.asleep = false → 1 ≤ src.toNat → src.toNat ≤ 16 →
    ∃ t, exec (.dcPacePulse src) s = .next t ∧ Only [.dcs, .tens] s t ∧
      ∀ k, k < 64 →
        ((s.dc k).psrc ≠ src.toNat ∨ (s.dc k).st = .idle → t.dc k = s.dc k) ∧
        ((s.dc k).psrc = src.toNat → (s.dc k).st ≠ .idle → (s.dc k).credit < 15 → (t.dc k).credit = (s.dc k).credit + 1 ∧ (t.dc k).lost = (s.dc k).lost ∧ (t.dc k).held = (s.dc k).held) ∧
        ((s.dc k).psrc = src.toNat → (s.dc k).st ≠ .idle → 15 ≤ (s.dc k).credit → t.dc k = { s.dc k with lost := (s.dc k).lost.bump } ∧
          TenEvent t (dcTen s k).val evDcPaceLost)) ∧
  (∀ (src : BitVec 6) (s : State), src.toNat = 0 ∨ 16 < src.toNat → exec (.dcPacePulse src) s = .next s)

/-- O46. How a channel moves data (R302, R305, R307 to R312, R315, R316, R326): a unit takes its credit and the active generation; a descriptor
reached with a reserved value, or an extent outside memory, stops the channel; when it is the channel's turn, an element is read, or taken from what was
read ahead, converted, and joins the write of the element before it where the two are contiguous, up to 64 bytes; a failing check stops the channel at the
first element that is not written; the completion point, whose read-backs have returned, writes its doorbell, halts, or goes on at NEXT. A fetch or a
read-back that a stopped channel left behind returns to no effect.
What the model chose or read where the spec is open: log entry 15. -/
def Obligations.ChannelUnits : Prop :=
  (∀ (k : ChanIx) (s : State), dcuOn s = true →
    let c := s.dc k.val
    (c.st = .running ∨ c.st = .waiting) → c.trowel = false → c.held.isSome = true → c.inUnit = false → c.atPoint = false →
    ((c.place = true ∨ c.needsPlace = false) → c.needsCredit = false → ∃ t, exec (.dcUnitStart k) s = .next t ∧ Only [.dcs] s t ∧ OtherDcs k.val s t ∧
      t.dc k.val = { c with st := .running, inUnit := true, rstall := false, credit := if c.psrc = 0 then c.credit else c.credit - 1, heldTag := s.gen.active, unitPrev := false, moved := 0 }) ∧
    (c.needsCredit = true → exec (.dcUnitStart k) s = .next s) ∧
    (c.place = false → c.needsPlace = true → exec (.dcUnitStart k) s = .next s)) ∧
  (∀ (k : ChanIx) (data : Bytes) (meets : Bool) (s : State), dcuOn s = true →
    let c := s.dc k.val
    (data.length = c.itemLen → c.strays.any (fun x => !x.back) = true →
      ∃ t, exec (.descriptorFetchReturn k data) s = .next t ∧ Only [.dcs] s t ∧ OtherDcs k.val s t ∧ t.dc k.val = Chan.drop false c) ∧
    (c.strays.any (fun x => x.back) = true →
      ∃ t, exec (.dcCompletionPoint k meets) s = .next t ∧ Only [.dcs] s t ∧ OtherDcs k.val s t ∧ t.dc k.val = Chan.drop true c) ∧
    (∀ b, c.strays.any (fun x => x.back) = false → c.st ≠ .running → c.trowel = false → c.held = some b → c.atPoint = true →
      ∃ t, exec (.dcCompletionPoint k meets) s = .next t ∧ Only [.dcs] s t ∧ OtherDcs k.val s t ∧ t.dc k.val = { c with backs := false })) ∧
  (∀ (k : ChanIx) (data : Bytes) (s : State), dcuOn s = true → data.length = (s.dc k.val).itemLen → (s.dc k.val).strays.any (fun x => !x.back) = false →
    let c := s.dc k.val
    let d := readDesc data
    (c.fetching = true → c.st ≠ .paused → c.trowel = false →
      (d.reservedOk = false → ∃ t, exec (.descriptorFetchReturn k data) s = .next t ∧ Only chanParts s t ∧ OtherDcs k.val s t ∧ ChanStopped s t k.val stUnsupported 0x02) ∧
      (d.reservedOk = true → (18 ≤ d.psrc ∨ d.punit = 3) → ∃ t, exec (.descriptorFetchReturn k data) s = .next t ∧ Only chanParts s t ∧ OtherDcs k.val s t ∧
        ChanStopped s t k.val stUnsupported 0x81) ∧
      (d.reservedOk = true → d.psrc < 18 → d.punit ≠ 3 → d.extents = false → ∃ t, exec (.descriptorFetchReturn k data) s = .next t ∧ Only chanParts s t ∧
        OtherDcs k.val s t ∧ ChanStopped s t k.val stUnsupported 0x82) ∧
      (d.reservedOk = true → d.psrc < 18 → d.punit ≠ 3 → d.extents = true → c.atPoint = false → c.i0 < d.count0 → c.i1 < d.n1 → c.i2 < d.n2 →
        ∃ t, exec (.descriptorFetchReturn k data) s = .next t ∧ Only [.dcs, .tens] s t ∧ OtherDcs k.val s t ∧ (t.dc k.val).held = some data ∧ (t.dc k.val).fetching = false ∧
          (t.dc k.val).psrc = d.psrc ∧ (t.dc k.val).credit = (if c.psrc = d.psrc then c.credit else 0) ∧ (t.dc k.val).prog = c.prog)) ∧
    (c.fetching = true → c.st ≠ .paused → c.trowel = true →
      (∀ e, tJudge c data = some e → ∃ t, exec (.descriptorFetchReturn k data) s = .next t ∧ Only chanParts s t ∧ OtherDcs k.val s t ∧ ChanStopped s t k.val stUnsupported e) ∧
      (tJudge c data = none → tOpc data ≠ 0x0B → ∃ t, exec (.descriptorFetchReturn k data) s = .next t ∧ Only [.dcs, .tens] s t ∧ OtherDcs k.val s t ∧
        (t.dc k.val).held = some data ∧ (t.dc k.val).fetching = false ∧ (t.dc k.val).prog = c.prog)) ∧
    (c.fetching = false → ∀ n, c.following = some n → c.pref.length < (if c.trowel then 8 else 2) →
      noPrefetch s s.gen.act (some (dcTen s k.val)) (dcWorld s k.val) (c.itemAddr n) c.itemLen = false → itemOk s k.val n →
      ∃ t, exec (.descriptorFetchReturn k data) s = .next t ∧ Only [.dcs, .out] s t ∧ OtherDcs k.val s t ∧ t.dc k.val = { c with pref := c.pref ++ [(n, data)] })) ∧
  (∀ (k : ChanIx) (b data : Bytes) (s : State), dcuOn s = true →
    let c := s.dc k.val
    let d := readDesc b
    let ix := [c.i0, c.i1, c.i2]
    let sa := (patAddr d.src d.ss ix).toNat
    let da := (patAddr d.dst d.ds ix).toNat
    let new := if d.xmode = 0 then data else convSample d.lenOut (d.ctl.testBit 12) (d.ctl.testBit 13) data
    let key := if d.xmode = 2 then c.i0 else 0
    let rest := c.lines.filter (fun g => g.key != key)
    let mine := c.lines.find? (fun g => g.key = key)
    let joins := fun (g : GLine) => g.addr + g.data.length = da ∧ g.data.length + new.length ≤ 64
    let moved := fun (t : State) => Only [.sch, .dcs, .out] s t ∧ OtherDcs k.val s t ∧ (t.dc k.val).st = .running ∧ (t.dc k.val).held = some b ∧
      (t.dc k.val).ahead = [] ∧ (t.dc k.val).i0 = c.i0 + 1 ∧ (t.dc k.val).i1 = c.i1 ∧ (t.dc k.val).i2 = c.i2
    let stops := fun (t : State) (detail : Nat) (at3 : List Nat) => Only (.sch :: chanParts) s t ∧ OtherDcs k.val s t ∧ ChanStopped s t k.val stAccess detail ∧
      (t.dc k.val).i2 = at3.getD 0 0 ∧ (t.dc k.val).i1 = at3.getD 1 0 ∧ (t.dc k.val).i0 = at3.getD 2 0
    let okR := dcCheck s k.val .read sa d.lenIn = none
    let okW := fun (g : GLine) => dcCheck s k.val .write g.addr g.data.length = none
    c.st = .running → c.trowel = false → c.held = some b → c.inUnit = true → c.atPoint = false → c.ahead = [] → data.length = d.lenIn →
    (dcTurn s k.val = false → exec (.dcElementGrant k data) s = .next s) ∧ (dcTurn s k.val = true →
    (c.lines = [] → ¬okR → ∃ t, exec (.dcElementGrant k data) s = .next t ∧ stops t 0x01 [c.i2, c.i1, c.i0]) ∧
    (okR → c.i0 + 1 < d.count0 → mine = none → new.length < 64 → ∃ t, exec (.dcElementGrant k data) s = .next t ∧ moved t ∧
      t.out = (emitRd sa d.lenIn s).out ∧ (t.dc k.val).lines = c.lines ++ [⟨key, da, new, c.i0, c.i1, c.i2⟩]) ∧
    (okR → c.i0 + 1 < d.count0 → mine = none → new.length = 64 → dcCheck s k.val .write da 64 = none → ∃ t, exec (.dcElementGrant k data) s = .next t ∧
      moved t ∧ t.out = (emitWr da new (emitRd sa d.lenIn s)).out ∧ (t.dc k.val).lines = c.lines) ∧
    (okR → c.lines = [] → new.length = 64 → dcCheck s k.val .write da 64 ≠ none → ∃ t, exec (.dcElementGrant k data) s = .next t ∧
      stops t 0x02 [c.i2, c.i1, c.i0]) ∧
    (∀ g, okR → mine = some g → joins g → g.data.length + new.length < 64 → c.i0 + 1 < d.count0 → ∃ t, exec (.dcElementGrant k data) s = .next t ∧
      moved t ∧ t.out = (emitRd sa d.lenIn s).out ∧ (t.dc k.val).lines = rest ++ [{ g with data := g.data ++ new }]) ∧
    (∀ g, okR → mine = some g → joins g → g.data.length + new.length = 64 → c.i0 + 1 < d.count0 → dcCheck s k.val .write g.addr 64 = none →
      ∃ t, exec (.dcElementGrant k data) s = .next t ∧ moved t ∧ t.out = (emitWr g.addr (g.data ++ new) (emitRd sa d.lenIn s)).out ∧
        (t.dc k.val).lines = rest) ∧
    (∀ g, okR → mine = some g → ¬joins g → new.length < 64 → c.i0 + 1 < d.count0 → okW g →
      ∃ t, exec (.dcElementGrant k data) s = .next t ∧ moved t ∧ t.out = (emitWr g.addr g.data (emitRd sa d.lenIn s)).out ∧
        (t.dc k.val).lines = rest ++ [⟨key, da, new, c.i0, c.i1, c.i2⟩]) ∧
    (∀ g, okR → mine = some g → ¬joins g → ¬okW g → ∃ t, exec (.dcElementGrant k data) s = .next t ∧ stops t 0x02 (earliest c)))) ∧
  (∀ (k : ChanIx) (b data : Bytes) (s : State), dcuOn s = true →
    let c := s.dc k.val
    let d := readDesc b
    let is := ((c.unread d c.ahead.length c.pos).map (d.reads (data.length / d.lenIn))).getD []
    (c.st = .running ∨ c.st = .waiting) → c.trowel = false → c.held = some b → c.atPoint = false → data ≠ [] → data.length = is.length * d.lenIn →
    (dcMayRead s k.val d is false = false → exec (.dcElementGrant k data false) s = .next s) ∧
    (dcMayRead s k.val d is false = true → ∃ t, exec (.dcElementGrant k data false) s = .next t ∧ Only [.dcs, .out] s t ∧ OtherDcs k.val s t ∧
      t.out = (emitRd (d.srcAt (is.headD (0, 0, 0))) data.length s).out ∧ t.dc k.val = { c with ahead := (t.dc k.val).ahead } ∧
      (t.dc k.val).ahead.length = c.ahead.length + is.length)) ∧
  (∀ (k : ChanIx) (b : Bytes) (meets : Bool) (s : State), dcuOn s = true →
    let c := s.dc k.val
    let d := readDesc b
    let m : RingIx := Fin.ofNat 16 (fld c.post 3 0)
    c.st = .running → c.trowel = false → c.held = some b → c.atPoint = true → c.fetching = false → c.strays.any (fun x => x.back) = false →
    d.ctl.testBit 22 = false →
    ∃ t, exec (.dcCompletionPoint k meets) s = .next t ∧ Only (.sqs :: chanParts ++ dropParts) s t ∧
      (d.ctl.testBit 23 = false → t.sqs = s.sqs) ∧
      (d.ctl.testBit 23 = true → doorbellDropped s (dcTen s k.val) m = false →
        t.sqs = (dbWrite (dcWho s k.val) (dcTen s k.val) m (((s.sq (dcTen s k.val) m).tail + fld c.post 48 32) % 2 ^ 17) (fld c.post 30 16) meets s).sqs) ∧
      (d.ctl.testBit 23 = true → doorbellDropped s (dcTen s k.val) m = true → (t.dc k.val).postdrop = true ∧ TenEvent t (dcTen s k.val).val evDcPostDrop ∧ t.denied = s.denied.bump) ∧
      (d.ctl.testBit 24 = true → TenEvent t (dcTen s k.val).val evDcDesc) ∧
      (d.ctl.testBit 25 = true ∨ d.next = 0xFFFF → (t.dc k.val).st = .idle) ∧
      (d.ctl.testBit 25 = false → d.next ≠ 0xFFFF → (t.dc k.val).desc = d.next ∧ (c.count ≤ d.next → ChanStopped s t k.val stUnsupported 0x80)) ∧
      (∀ j, j < 64 → j ≠ k.val → (s.dc j).psrc = 0x11 → (s.dc j).pch = k.val → dcTen s j = dcTen s k.val → dcAssigned s j = true → (s.dc j).st ≠ .idle →
        (s.dc j).credit < 15 → (t.dc j).credit = (s.dc j).credit + 1)) ∧
  (∀ (k : ChanIx) (b : Bytes) (s : State), dcuOn s = true →
    let c := s.dc k.val
    c.st = .running → c.trowel = false → c.held = some b → c.atPoint = true → (readDesc b).ctl.testBit 22 = true → (readDesc b).ctl.testBit 23 = false →
    c.strays.any (fun x => x.back) = false → c.recEn = true → c.place = true → dcCheck s k.val .write (dcRecAddr c) 32 ≠ none →
    ∃ t, exec (.dcCompletionPoint k) s = .next t ∧ Only chanParts s t ∧ OtherDcs k.val s t ∧ ChanStopped s t k.val stAccess 0x02 ∧ (t.dc k.val).recTail = c.recTail)

/-- O47. The instructions of a trowel program but MOVE and XMOVE (R330): each has the effect that the table gives it, on its registers and
on nothing else of the program, and the channel goes on at the next instruction, at the target of a jump, or halts; an ADDA whose sum falls
outside 0 to 2^48 - 1 stops it; a WAIT without a credit, or a RECORD without a place, does not run; a read-back that the channel no longer waits for
returns before those of a FENCE.
What the model chose or read where the spec is open: log entry 15. -/
def Obligations.TrowelInstructions : Prop :=
  (∀ (k : ChanIx) (b : Bytes) (s : State),
    let c := s.dc k.val
    (AtOp s k 0x01 b → ∃ t, exec (.seta k) s = .next t ∧ Only chanParts s t ∧ OtherDcs k.val s t ∧ GoesOn s t k.val (c.desc + 1) ∧
      (t.dc k.val).prog = { c.prog with desc := c.desc + 1, aregs := c.aregs.put 0 (tRa b) (BitVec.ofNat 48 (tI64 b)) }) ∧
    (AtOp s k 0x02 b →
      let v := ((c.aregs.look 0 (tRa b)).toNat : Int) + signed 32 (tI32 b)
      (0 ≤ v → v < 2 ^ 48 → ∃ t, exec (.adda k) s = .next t ∧ Only chanParts s t ∧ OtherDcs k.val s t ∧ GoesOn s t k.val (c.desc + 1) ∧
        (t.dc k.val).prog = { c.prog with desc := c.desc + 1, aregs := c.aregs.put 0 (tRa b) (BitVec.ofNat 48 v.toNat) }) ∧
      (v < 0 ∨ 2 ^ 48 ≤ v → ∃ t, exec (.adda k) s = .next t ∧ Only chanParts s t ∧ OtherDcs k.val s t ∧ ChanStopped s t k.val stUnsupported 0x82 ∧
        (t.dc k.val).prog = c.prog)) ∧
    (AtOp s k 0x03 b → ∃ t, exec (.setc k) s = .next t ∧ Only chanParts s t ∧ OtherDcs k.val s t ∧ GoesOn s t k.val (c.desc + 1) ∧
      (t.dc k.val).prog = { c.prog with desc := c.desc + 1, cregs := c.cregs.put 0 (tRa b) (BitVec.ofNat 32 (tI32 b)) }) ∧
    (AtOp s k 0x06 b → ∃ t, exec (.xcfg k) s = .next t ∧ Only chanParts s t ∧ OtherDcs k.val s t ∧ GoesOn s t k.val (c.desc + 1) ∧
      (t.dc k.val).prog = { c.prog with desc := c.desc + 1, xcfg := some (BitVec.ofNat 13 (tF b + 256 * tI32 b)) }) ∧
    (AtOp s k 0x08 b →
      let v := (c.cregs.look 0 (tRa b)).toNat
      (2 ≤ v → ∃ t, exec (.loop k) s = .next t ∧ Only chanParts s t ∧ OtherDcs k.val s t ∧ GoesOn s t k.val (tI32 b) ∧
        (t.dc k.val).prog = { c.prog with desc := tI32 b, cregs := c.cregs.put 0 (tRa b) (BitVec.ofNat 32 (v - 1)) }) ∧
      (v = 1 → ∃ t, exec (.loop k) s = .next t ∧ Only chanParts s t ∧ OtherDcs k.val s t ∧ GoesOn s t k.val (c.desc + 1) ∧
        (t.dc k.val).prog = { c.prog with desc := c.desc + 1, cregs := c.cregs.put 0 (tRa b) 0 }) ∧
      (v = 0 → ∃ t, exec (.loop k) s = .next t ∧ Only chanParts s t ∧ OtherDcs k.val s t ∧ GoesOn s t k.val (c.desc + 1) ∧
        (t.dc k.val).prog = { c.prog with desc := c.desc + 1 })) ∧
    (AtOp s k 0x09 b → ∃ t, exec (.jump k) s = .next t ∧ Only chanParts s t ∧ OtherDcs k.val s t ∧ GoesOn s t k.val (tI32 b) ∧
      (t.dc k.val).prog = { c.prog with desc := tI32 b }) ∧
    (AtOp s k 0x0A b →
      (c.psrc = 0 → ∃ t, exec (.wait k) s = .next t ∧ Only chanParts s t ∧ OtherDcs k.val s t ∧ GoesOn s t k.val (c.desc + 1)) ∧
      (c.psrc ≠ 0 → c.credit ≠ 0 → ∃ t, exec (.wait k) s = .next t ∧ Only chanParts s t ∧ OtherDcs k.val s t ∧
        GoesOn (modDc k.val (fun c => { c with credit := c.credit - 1 }) s) t k.val (c.desc + 1)) ∧
      (c.psrc ≠ 0 → c.credit = 0 → exec (.wait k) s = .next s)) ∧
    (c.strays.any (fun x => x.back) = true → dcuOn s = true → ∃ t, exec (.fence k) s = .next t ∧ Only [.dcs] s t ∧ OtherDcs k.val s t ∧
      t.dc k.val = Chan.drop true c) ∧
    (AtOp s k 0x0B b → c.strays.any (fun x => x.back) = false → ∃ t, exec (.fence k) s = .next t ∧ Only chanParts s t ∧ OtherDcs k.val s t ∧ GoesOn s t k.val (c.desc + 1) ∧
      (t.dc k.val).prog = { c.prog with desc := c.desc + 1 }) ∧
    (AtOp s k 0x0E b → ∃ t, exec (.event k) s = .next t ∧ Only chanParts s t ∧ OtherDcs k.val s t ∧ GoesOn s t k.val (c.desc + 1) ∧
      (t.dc k.val).prog = { c.prog with desc := c.desc + 1 } ∧ TenEvent t (dcTen s k.val).val evDcDesc) ∧
    (AtOp s k 0x0F b → ∃ t, exec (.halt k) s = .next t ∧ Only [.dcs] s t ∧ OtherDcs k.val s t ∧ (t.dc k.val).st = .idle ∧
      (t.dc k.val).held = none ∧ (t.dc k.val).pref = [] ∧ (t.dc k.val).prog = c.prog)) ∧
  (∀ (k : ChanIx) (b : Bytes) (meets : Bool) (s : State), AtOp s k 0x0C b →
    let c := s.dc k.val
    let n := dcTen s k.val
    let m : RingIx := Fin.ofNat 16 (tF b)
    (doorbellDropped s n m = false → ∃ t, exec (.post k meets) s = .next t ∧ Only (.sqs :: chanParts) s t ∧ OtherDcs k.val s t ∧ GoesOn s t k.val (c.desc + 1) ∧
      t.sqs = (dbWrite (dcWho s k.val) n m (((s.sq n m).tail + tI32 b) % 2 ^ 17) (tI64 b) meets s).sqs ∧
      (t.dc k.val).prog = { c.prog with desc := c.desc + 1 }) ∧
    (doorbellDropped s n m = true → ∃ t, exec (.post k meets) s = .next t ∧ Only (chanParts ++ dropParts) s t ∧ OtherDcs k.val s t ∧ GoesOn s t k.val (c.desc + 1) ∧
      t.denied = s.denied.bump ∧ t.jrn.seq = s.jrn.seq + 1 ∧ (t.dc k.val).prog = { c.prog with desc := c.desc + 1, postdrop := true } ∧
      TenEvent t n evDcPostDrop)) ∧
  (∀ (k : ChanIx) (b : Bytes) (s : State), AtOp s k 0x0D b →
    let c := s.dc k.val
    (c.recEn = false → ∃ t, exec (.record k) s = .next t ∧ Only chanParts s t ∧ OtherDcs k.val s t ∧ GoesOn s t k.val (c.desc + 1) ∧
      (c.desc + 1 < c.count → c.pref = [] → itemOk s k.val (c.desc + 1) → (t.dc k.val).recTail = c.recTail ∧
        t.out = (emitRd (c.itemAddr (c.desc + 1)) c.itemLen s).out)) ∧
    (c.recEn = true → c.place = false → exec (.record k) s = .next s) ∧
    (c.recEn = true → c.place = true → dcCheck s k.val .write (dcRecAddr c) 32 = none →
      ∃ t, exec (.record k) s = .next t ∧ Only chanParts s t ∧ OtherDcs k.val s t ∧ GoesOn s t k.val (c.desc + 1) ∧
        (t.dc k.val).prog = { c.prog with desc := c.desc + 1 } ∧
        (c.desc + 1 < c.count → c.pref = [] → itemOk s k.val (c.desc + 1) → (t.dc k.val).recTail = (c.recTail + 1) % 2 ^ (c.recK + 1) ∧
          t.out = (emitRd (c.itemAddr (c.desc + 1)) c.itemLen
            (emitRecord (dcRecAddr c) (recordBytes k.val c stDone 0 [0, 0, 0] 0 .read s.time.ns) s)).out)) ∧
    (c.recEn = true → c.place = true → dcCheck s k.val .write (dcRecAddr c) 32 ≠ none →
      ∃ t, exec (.record k) s = .next t ∧ Only chanParts s t ∧ OtherDcs k.val s t ∧ ChanStopped s t k.val stAccess 0x02 ∧ (t.dc k.val).recTail = c.recTail))

/-- O48. MOVE and XMOVE (R302, R309 to R311, R321, R325, R330): the bytes, or the converted samples, are read at the source and written at the
destination addresses of the instruction, in order, in accesses of at most 64 bytes, under the generation of the unit; a failing check, or an address
outside 0 to 2^48 - 1, stops the channel, for a MOVE at the first byte that is not written, for an XMOVE at the frame whose sample is not read; while
it is not the channel's turn, nothing happens; a held offset or frame that is not below the count takes the move as complete; after the last byte or
frame INCS and INCD advance their registers, and the channel goes on.
What the model chose or read where the spec is open: log entry 15. -/
def Obligations.TrowelMoves : Prop :=
  (∀ (k : ChanIx) (b data : Bytes) (s : State), AtOp s k 0x04 b →
    let c := s.dc k.val
    let l := tI32 b
    let s0 := if c.off = 0 then dcTag k.val s else s
    let a := (c.aregs.look 0 (tRa b)).toNat
    let d := (c.aregs.look 0 (tRb b)).toNat
    let sa := a + c.off
    let da := d + c.off
    let badR := dcCheck s0 k.val .read sa data.length
    let badW := dcCheck s0 k.val .write da data.length
    let a1 := if (tF b).testBit 0 then c.aregs.put 0 (tRa b) (BitVec.ofNat 48 (a + l)) else c.aregs
    let a2 := if (tF b).testBit 1 then a1.put 0 (tRb b) (BitVec.ofNat 48 ((a1.look 0 (tRb b)).toNat + l)) else a1
    let fits := ((tF b).testBit 0 = true → a + l < 2 ^ 48) ∧ ((tF b).testBit 1 = true → (a1.look 0 (tRb b)).toNat + l < 2 ^ 48)
    let ends := ∃ t, exec (.move k data) s = .next t ∧ Only (.sch :: chanParts) s t ∧ OtherDcs k.val s t ∧ GoesOn s t k.val (c.desc + 1) ∧
      (t.dc k.val).prog = { c.prog with desc := c.desc + 1, aregs := a2 }
    let stops := fun (st detail : Nat) (o : Nat) => ∃ t, exec (.move k data) s = .next t ∧ Only (.sch :: chanParts) s t ∧ OtherDcs k.val s t ∧
      ChanStopped s t k.val st detail ∧ (t.dc k.val).off = o ∧ (t.dc k.val).prog = c.prog
    ((c.place = false ∧ c.needsPlace = true) ∨ dcTurn s k.val = false → exec (.move k data) s = .next s) ∧
    ((c.place = true ∨ c.needsPlace = false) → dcTurn s k.val = true → data.length ≤ l - c.off → data.length ≤ 4096 - c.moved % 4096 →
      (l ≤ c.off → fits → ends) ∧
      (0 < data.length → (2 ^ 48 < a + l ∨ 2 ^ 48 < d + l) → stops stUnsupported 0x82 c.off) ∧
      (0 < data.length → a + l ≤ 2 ^ 48 → d + l ≤ 2 ^ 48 →
        (∀ fa cause, badR = some (fa, cause) → (∀ wa cw, badW = some (wa, cw) → fa - sa ≤ wa - da) → stops stAccess 0x01 (c.off + (fa - sa))) ∧
        (∀ wa cw, badW = some (wa, cw) → (∀ fa cause, badR = some (fa, cause) → wa - da < fa - sa) → stops stAccess 0x02 (c.off + (wa - da))) ∧
        (badR = none → badW = none → c.off + data.length < l → ∃ t, exec (.move k data) s = .next t ∧ Only [.sch, .dcs, .out] s t ∧ OtherDcs k.val s t ∧
          t.out = ((runs64 da data.length).foldl (fun s p => emitWr p.1 (slice data (p.1 - da) p.2) s)
            ((runs64 sa data.length).foldl (fun s p => emitRd p.1 p.2 s) s)).out ∧ (t.dc k.val).st = .running ∧ (t.dc k.val).held = some b ∧
          (t.dc k.val).off = c.off + data.length ∧ (t.dc k.val).prog = c.prog) ∧
        (badR = none → badW = none → c.off + data.length = l → fits → ends)))) ∧
  (∀ (k : ChanIx) (b data : Bytes) (s : State), AtOp s k 0x05 b →
    let c := s.dc k.val
    let n := tI32 b + 1
    (c.xcfg = none → ∃ t, exec (.xmove k data) s = .next t ∧ Only chanParts s t ∧ OtherDcs k.val s t ∧ ChanStopped s t k.val stUnsupported 0x83) ∧
    ((c.place = false ∧ c.needsPlace = true) ∨ dcTurn s k.val = false → c.xcfg.isSome = true → exec (.xmove k data) s = .next s) ∧
    (∀ x m, c.xcfg = some x → (c.place = true ∨ c.needsPlace = false) → dcTurn s k.val = true → data.length = m * (xNch x * xIn x) →
      (if n ≤ c.i2 then m = 0 else 1 ≤ m ∧ c.i2 + m ≤ n) →
      let p := signed 32 (tI64 b)
      let a := (c.aregs.look 0 (tRa b)).toNat
      let d := (c.aregs.look 0 (tRb b)).toNat
      let rd := fun j => (xSrc x a p (c.i2 + j / xNch x) (j % xNch x)).toNat
      let wr := fun j => (xDst x d p (c.i2 + j / xNch x) (j % xNch x)).toNat
      let new := fun j => convSample (xOut x) (xIbe x) (xObe x) (slice data (j * xIn x) (xIn x))
      let ok := fun (dir : Dir) (ad len : Nat) => check s s.gen.act (some (dcTen s k.val)) (dcWorld s k.val) dir ad len = none
      let cnt := m * xNch x
      let lineOk := ∀ g, g ∈ c.lines → ok .write g.addr g.data.length
      let readsOk := ∀ j, j < cnt → ok .read (rd j) (xIn x)
      let writesOk := ∀ j, j < cnt → ok .write (wr j) (xOut x)
      let noInc := (tF b).testBit 0 = false ∧ (tF b).testBit 1 = false
      let bytes := (List.range cnt).flatMap new
      let stops := fun (st detail : Nat) => ∃ t, exec (.xmove k data) s = .next t ∧ Only (.sch :: chanParts) s t ∧ OtherDcs k.val s t ∧ ChanStopped s t k.val st detail
      (xExtent x a d p n = false → stops stUnsupported 0x82) ∧
      (xExtent x a d p n = true → n ≤ c.i2 → noInc → ∃ t, exec (.xmove k data) s = .next t ∧ Only (.sch :: chanParts) s t ∧ OtherDcs k.val s t ∧
        GoesOn s t k.val (c.desc + 1) ∧ (t.dc k.val).prog = { c.prog with desc := c.desc + 1 }) ∧
      (xExtent x a d p n = true → c.i2 < n → (c.unitPrev = false ∨ c.i2 = 0) →
        (readsOk → writesOk → lineOk → c.i2 + m < n → ∃ t, exec (.xmove k data) s = .next t ∧ Only [.sch, .dcs, .out] s t ∧ OtherDcs k.val s t ∧
          (t.dc k.val).i2 = c.i2 + m ∧ (t.dc k.val).st = .running ∧ (t.dc k.val).held = some b ∧ (t.dc k.val).prog = c.prog ∧
          (∃ w, t.out = (xReads x a p c.i2 cnt s).out ++ w) ∧
          (c.lines = [] → xMode x ≠ 2 → cnt * xOut x < 64 → t.out = (xReads x a p c.i2 cnt s).out ∧ ∃ g, (t.dc k.val).lines = [g] ∧ g.addr = wr 0 ∧ g.data = bytes)) ∧
        (readsOk → writesOk → lineOk → c.i2 + m = n → noInc → ∃ t, exec (.xmove k data) s = .next t ∧ Only (.sch :: chanParts) s t ∧ OtherDcs k.val s t ∧
          GoesOn s t k.val (c.desc + 1) ∧ (t.dc k.val).prog = { c.prog with desc := c.desc + 1 } ∧
          (c.lines = [] → xMode x ≠ 2 → cnt * xOut x < 64 → c.desc + 1 < c.count → c.pref = [] → itemOk s k.val (c.desc + 1) →
            t.out = (emitRd (c.itemAddr (c.desc + 1)) c.itemLen (emitWr (wr 0) bytes (xReads x a p c.i2 cnt s))).out)) ∧
        (∀ j, j < cnt → (∀ i, i < j → ok .read (rd i) (xIn x)) → ¬ok .read (rd j) (xIn x) → writesOk → lineOk →
          ∃ t, exec (.xmove k data) s = .next t ∧ Only (.sch :: chanParts) s t ∧ OtherDcs k.val s t ∧ ChanStopped s t k.val stAccess 0x01 ∧
            (t.dc k.val).i2 = c.i2 + j / xNch x) ∧
        (∀ j, j < cnt → ¬ok .write (wr j) (xOut x) → readsOk → c.i2 + m = n → stops stAccess 0x02))))

/-- O49. The frame path (R334 to R336, R338, R341, R342): a header query fails for a port that is not granted, then for a handle that is not held or
of another port; with its last header a request whose need is above MAX_CELLS ends, and any other waits; the loan of the whole need is made
when it is the request's turn and the limits allow it, and counted; a wait that is too long ends the request; a return, once
the read-backs of the request's FENCE are in, gives the switch the outcome of the frame and is counted, and an uncorrectable error in the loan lists marks
the tenant's counters invalid; SNAP copies the counters.
What the model chose or read where the spec is open: log entries 8 and 13. -/
def Obligations.Frames : Prop :=
  (∀ (id : Nat) (buf : Fin 8) (hdr : Option FrameHdr) (r : Req) (s : State), s.req id = some r → r.phase = .running → buf.val ∈ r.frames →
    (r.buf buf.val).hdr = none →
    let all := r.refsOf (r.ref buf.val).handle
    (∀ c, all.find? (fun c => !portGranted s r c) = some c →
      ∃ t, exec (.frameHeaderQueryReturn id buf hdr) s = .next t ∧ EndedWith t id r ⟨0x30, 0x20, selectorOf r.entry c⟩) ∧
    ((∀ c ∈ all, portGranted s r c = true) →
      (hdr = none → ∃ t, exec (.frameHeaderQueryReturn id buf hdr) s = .next t ∧ EndedWith t id r ⟨0x30, 0x21, selectorOf r.entry buf.val⟩) ∧
      (∀ h c, hdr = some h → all.find? (fun c => decide ((r.ref c).fport ≠ h.port.toNat)) = some c →
        ∃ t, exec (.frameHeaderQueryReturn id buf hdr) s = .next t ∧ EndedWith t id r ⟨0x30, 0x21, selectorOf r.entry c⟩) ∧
      (∀ h, hdr = some h → (∀ c ∈ all, (r.ref c).fport = h.port.toNat) →
        ∃ t r1, exec (.frameHeaderQueryReturn id buf hdr) s = .next t ∧ r1.refs = r.refs ∧ r1.entry = r.entry ∧ r1.tenant = r.tenant ∧
          (∀ c ∈ all, (r1.buf c).hdr = some h) ∧ (∀ c, c ∉ all → r1.buf c = r.buf c) ∧
          (r1.frames.all (fun b => (r1.buf b).hdr.isSome) = false → t.req id = some r1 ∧ Only [.reqs] s t) ∧
          (r1.frames.all (fun b => (r1.buf b).hdr.isSome) = true → maxCells s r1 < r1.cellNeed → EndedWith t id r ⟨0x30, 0x22, selectorOf r.entry (r.frames.headD 0)⟩) ∧
          (r1.frames.all (fun b => (r1.buf b).hdr.isSome) = true → r1.cellNeed ≤ maxCells s r1 →
            t.req id = some r1 ∧ Only [.reqs, .fp] s t ∧ t.fp = { s.fp with waiting := s.fp.waiting ++ [id] })))) ∧
  (∀ (id : Nat) (r : Req) (s : State), s.req id = some r → id ∈ s.fp.waiting →
    (fpOpen s = true → mayLend s r = true → loanTurn s r = true → ∃ t, exec (.frameLoan id) s = .next t ∧ RunsOn t id r (fun _ => True) ∧
      t.fp.loans = s.fp.loans ++ loansOf r ∧
      (t.ten r.tenant.val).fp.borrowed = (s.ten r.tenant.val).fp.borrowed + BitVec.ofNat 64 r.cellNeed ∧
      (t.ten r.tenant.val).fp.onloan = (s.ten r.tenant.val).fp.onloan + BitVec.ofNat 64 r.cellNeed ∧
      (t.ten r.tenant.val).fp.returned = (s.ten r.tenant.val).fp.returned) ∧
    (mayLend s r = false ∨ loanTurn s r = false → exec (.frameLoan id) s = .next s) ∧
    (∃ t, exec (.frameWaitTimeout id) s = .next t ∧ EndedWith t id r ⟨0x30, 0x23, selectorOf r.entry (r.frames.headD 0)⟩)) ∧
  (∀ (id : Nat) (buf : Fin 8) (r : Req) (s : State), s.req id = some r → r.phase = .ended → buf.val ∈ r.frames →
    let h := (r.ref buf.val).handle
    let mine := fun (l : Loan) => decide (l.req = id) && decide (l.handle = h)
    let n := BitVec.ofNat 64 ((s.fp.loans.filter mine).map Loan.cells).sum
    (∀ ecc, r.fencesIn = false → exec (.frameReturn id buf ecc) s = .next s) ∧
    (r.fencesIn = true → s.fp.loans.any mine = true → ∃ t, exec (.frameReturn id buf .uncorrectable) s = .next t ∧ t.jrn.seq = s.jrn.seq + 1 ∧
      t.out = s.out ++ [.fpReturn h (frameOutcome s r h)] ∧ bitOf t.evPend gUeFatal = true ∧ (t.ten r.tenant.val).fpInvalid = true ∧
      (t.ten r.tenant.val).ledInvalid = true ∧ TenEvent t r.tenant.val evFpInvalid ∧ TenEvent t r.tenant.val evLedgerInvalid) ∧
    (r.fencesIn = true → s.fp.loans.any mine = true →
    ∃ t, exec (.frameReturn id buf .clean) s = .next t ∧ Only [.fp, .tens, .out] s t ∧ OtherTens r.tenant.val s t ∧
      t.out = s.out ++ [.fpReturn h (frameOutcome s r h)] ∧ t.fp = { s.fp with loans := s.fp.loans.filter (fun l => !mine l) } ∧
      t.ten r.tenant.val = { s.ten r.tenant.val with fp := { (s.ten r.tenant.val).fp with returned := (s.ten r.tenant.val).fp.returned + n, onloan := (s.ten r.tenant.val).fp.onloan - n } })) ∧
  (∀ (who : Who) (n : TenantIx) (s : State), Takes s who (.tnFpCtl n) 1 →
    ∃ t, exec (.fpSnap who n) s = .next t ∧ Only [.tens] s t ∧ OtherTens n s t ∧ t.ten n = { s.ten n with fpSnap := (s.ten n).fp })

/-- O50. The time count (R347, R349, R350, R351, R352, R441): a capture and a load are armed; a strobe takes both snapshots, clears the arms, and
with a load armed sets the count to the captured time plus SYNCOFS; a step, by a load or by ADJ_GO, raises EV_TIME_STEP and writes its
TIME_STEP record and a TIME_MARK; a change of RUN writes a TIME_MARK, clearing it raises EV_TIME_STOPPED and setting it releases what POST
rings took while the count stood; the wrap of the low word writes its TIME_MARK; the output of a comparator ends. A step moves the next boundary of the budget
period back where it would be passed again (R366), and no other part of the schedule.
What the model chose or read where the spec is open: log entry 26. -/
def Obligations.Clock : Prop :=
  (∀ (who : Who) (s : State),
    (Takes s who .ownTimeCtl 2 → ∃ t, exec (.timeCapt who) s = .next t ∧ Only [.own] s t ∧ t.own = { s.own with timeCtl := s.own.timeCtl ||| 2 }) ∧
    (Takes s who .ownTimeCtl 4 → ∃ t, exec (.timeSync who) s = .next t ∧ Only [.own] s t ∧ t.own = { s.own with timeCtl := s.own.timeCtl ||| 4 })) ∧
  (∀ (ns : Word) (frac : BitVec 32) (s : State),
    let capt := bitOf s.own.timeCtl 1
    let sync := bitOf s.own.timeCtl 2
    (capt = false → sync = false → exec (.tsuStrobe ns frac) s = .next s) ∧
    (capt = true ∨ sync = true → ∃ t, exec (.tsuStrobe ns frac) s = .next t ∧ Only (.own :: .time :: .sch :: recordParts) s t ∧
      t.own.timeCtl = s.own.timeCtl &&& ~~~ 6 ∧ t.time.tsuNs = ns ∧ t.time.tsuFrac = frac ∧ t.time.captNs = s.time.ns ∧
      t.time.captFrac = s.time.frac ∧ t.time.captDone = true ∧
      (sync = false → Only [.own, .time] s t ∧ t.time.ns = s.time.ns ∧ t.time.frac = s.time.frac) ∧
      (sync = true → t.time.ns = ns + ((s.own.syncofs.setWidth 32 : BitVec 32).signExtend 64) ∧ t.time.frac = frac ∧
        t.sch = { s.sch with due := min s.sch.due (boundaryAt s.period t.time.ns.toNat) } ∧ bitOf t.evPend gTimeStep = true ∧ t.jrn.seq = s.jrn.seq + 2))) ∧
  (∀ (who : Who) (s : State), Takes s who .ownTimeCtl 8 →
    ∃ t, exec (.adjGo who) s = .next t ∧ Only (.time :: .sch :: recordParts) s t ∧ t.sch = { s.sch with due := min s.sch.due (boundaryAt s.period t.time.ns.toNat) } ∧
      t.time = { s.time with ns := s.time.ns + ((s.own.timeAdj.setWidth 32 : BitVec 32).signExtend 64) } ∧
      bitOf t.evPend gTimeStep = true ∧ t.jrn.seq = s.jrn.seq + 2) ∧
  (∀ (who : Who) (run : Bool) (s : State), Takes s who .ownTimeCtl (if run then 1 else 0) →
    (run = s.run → exec (.timeRunWrite who run) s = .next s) ∧
    (run = false → s.run = true → ∃ t, exec (.timeRunWrite who run) s = .next t ∧ Only (.own :: .time :: recordParts) s t ∧
      t.time = { s.time with stopNs := s.time.ns } ∧ t.own.timeCtl = s.own.timeCtl &&& ~~~ 1 ∧ bitOf t.evPend gTimeStopped = true ∧ t.jrn.seq = s.jrn.seq + 1) ∧
    (run = true → s.run = false → ∃ t, exec (.timeRunWrite who run) s = .next t ∧ Only (.own :: .sqs :: recordParts) s t ∧
      t.own.timeCtl = s.own.timeCtl ||| 1 ∧ t.jrn.seq = s.jrn.seq + 1 ∧
      ∀ n m, n < 16 → m < 16 → (s.sq n m).pulseMode = false →
        t.sq n m = { s.sq n m with posts := (s.sq n m).posts.map (fun p => if p.release.isSome then p else { p with release := some p.taken, deadline := deadlineAt (s.sq n m) p.taken }) })) ∧
  (∀ (s : State),
    (s.time.wrapDue = true → ∃ t, exec .timeLowWrap s = .next t ∧ Only (.time :: recordParts) s t ∧ t.time = { s.time with wrapDue := false } ∧
      t.jrn.seq = s.jrn.seq + 1) ∧
    (s.time.wrapDue = false → exec .timeLowWrap s = .next s)) ∧
  (∀ (j : Fin 8) (s : State),
    ∃ t, exec (.tcmpPulseEnd j) s = .next t ∧ Only [.time] s t ∧ t.time = { s.time with pulse := s.time.pulse &&& ~~~ BitVec.ofNat 8 (2 ^ j.val) })

/-- O51. Work that the time count starts (R312, R314, R352 to R355, R357, R359): a comparator fires at its target, drives its output, gives
its pulse of time TGT, raises its event with EVT, and with no period clears EN, else raises TGT above the count by whole periods and counts
those it skipped; before its target, disabled, or with the count stopped, it does nothing; a trigger's edge keeps its time and gives a pulse;
a refill sets every ring's credits when the count has reached a boundary of the period, once for boundaries that it passed together.
What the model chose or read where the spec is open: log entries 8 and 26. -/
def Obligations.TimedWork : Prop :=
  (∀ (j : Fin 8) (s : State),
    let c := s.tcmp j.val
    let due := s.run = true ∧ bitOf c.ctl 0 = true ∧ c.tgt.toNat ≤ s.time.ns.toNat
    (¬due → exec (.comparatorFire j) s = .next s) ∧
    (due → ∃ t, exec (.comparatorFire j) s = .next t ∧ Only [.own, .tens, .sqs, .dcs, .time, .evPend] s t ∧ PulseGiven (9 + j.val) c.tgt s t ∧
      t.time.pulse = s.time.pulse ||| BitVec.ofNat 8 (2 ^ j.val) ∧ t.time.ns = s.time.ns ∧
      (bitOf c.ctl 16 = true → bitOf t.evPend (gTcmp0 + j.val) = true) ∧ (bitOf c.ctl 16 = false → t.evPend = s.evPend) ∧
      (∀ i, i ≠ j.val → t.tcmp i = s.tcmp i ∧ t.time.tlost.look {} i = s.time.tlost.look {} i) ∧
      (c.per = 0 → t.tcmp j.val = { c with ctl := c.ctl &&& ~~~ 1 } ∧ t.time.tlost = s.time.tlost) ∧
      (c.per ≠ 0 → t.tcmp j.val = { c with tgt := BitVec.ofNat 64 (nextTarget c.tgt.toNat c.per.toNat s.time.ns.toNat).1 } ∧
        t.time.tlost.look {} j.val = (s.time.tlost.look {} j.val).addN (nextTarget c.tgt.toNat c.per.toNat s.time.ns.toNat).2))) ∧
  (∀ tgt per ns : Nat, 0 < per → tgt ≤ ns →
    let p := nextTarget tgt per ns
    ns < p.1 ∧ p.1 = tgt + per + p.2 * per ∧ (ns < tgt + per → p.2 = 0) ∧ (p.2 ≠ 0 → p.1 ≤ ns + per)) ∧
  (∀ (i : Fin 8) (s : State), s.start.rst = false →
    ∃ t, exec (.triggerEdge i) s = .next t ∧ Only [.tens, .sqs, .dcs, .time] s t ∧ PulseGiven (1 + i.val) s.time.ns s t ∧
      t.time.trig.look 0 i.val = s.time.ns ∧ (∀ x, x ≠ i.val → t.time.trig.look 0 x = s.time.trig.look 0 x) ∧ t.time.ns = s.time.ns) ∧
  (∀ (s : State),
    (s.run = true → 0 < s.resv → s.sch.due ≤ s.time.ns.toNat → ∃ t, exec .budgetRefill s = .next t ∧ Only [.sqs, .sch] s t ∧
      t.sch = { s.sch with due := boundaryAt s.period (s.time.ns.toNat + 1) } ∧
      ∀ (n m : Fin 16), t.sq n.val m.val = { s.sq n.val m.val with rcred := sbReqs (s.eff (.ownSbud n m)), ccred := sbCycles (s.eff (.ownSbud n m)) }) ∧
    (s.run = false ∨ s.resv = 0 ∨ s.time.ns.toNat < s.sch.due → exec .budgetRefill s = .next s)) ∧
  (∀ period ns : Nat, 0 < period → ns ≤ boundaryAt period ns ∧ boundaryAt period ns < ns + period ∧ period ∣ boundaryAt period ns)

/-- O52. Configuration generations (R378 to R384, R386 to R390), and the end of the engine's own work (R515): every command but CANCEL is refused with
BUSY while STATE is not IDLE; LOAD reads the image, and its first failing check leaves every shadow as it was, that of a signature when its work
on a public-key tile ends, two for each patch section; COMMIT takes the fitted shadows as the pending generation and issues its digest, ROLLBACK takes the previous content, or fails
with NOPREV; the fence puts each tenant that it disables into reset and each channel that it takes away at its reset values, but for what is still in flight; the pending generation takes
effect, whole, when the wait is over; CANCEL ends a fence; DISCARD resets the shadows; work that ends leaves its tile, and a failing result check
quarantines the tile.
What the model chose or read where the spec is open: log entry 27. -/
def Obligations.Generations : Prop :=
  (∀ (who : Who) (s : State),
    let busy := fun t => Only [.gen] s t ∧ t.gen = { s.gen with err := 1 }
    (Takes s who .ownGenCmd 1 → s.gen.st ≠ .idle → ∃ t, exec (.genLoad who) s = .next t ∧ busy t) ∧
    (Takes s who .ownGenCmd 2 → s.gen.st ≠ .idle → ∃ t, exec (.genCommit who) s = .next t ∧ busy t) ∧
    (Takes s who .ownGenCmd 4 → s.gen.st ≠ .idle → ∃ t, exec (.genRollback who) s = .next t ∧ busy t) ∧
    (Takes s who .ownGenCmd 5 → s.gen.st ≠ .idle → ∃ t, exec (.genDiscard who) s = .next t ∧ busy t) ∧
    (Takes s who .ownGenCmd 1 → s.gen.st = .idle → ∃ t, exec (.genLoad who) s = .next t ∧ Only [.gen, .evPend, .pviol, .pvcnt, .out] s t ∧
      (check s s.gen.act none .secure .read s.own.imgBase.toNat (imgLen s) = none →
        t.gen = { s.gen with st := .loading, imgFail := false } ∧ t.out = (emitRd s.own.imgBase.toNat (imgLen s) s).out) ∧
      (check s s.gen.act none .secure .read s.own.imgBase.toNat (imgLen s) ≠ none →
        t.gen = { s.gen with st := .loading, imgFail := true } ∧ t.pvcnt = s.pvcnt.bump)) ∧
    (Takes s who .ownGenCmd 5 → s.gen.st = .idle → ∃ t, exec (.genDiscard who) s = .next t ∧ Only [.gen] s t ∧
      t.gen = { s.gen with shadow := s.gen.act, err := 0 }) ∧
    (Takes s who .ownGenCmd 3 → s.gen.st = .fence → ∃ t, exec (.genCancel who) s = .next t ∧ Only [.gen, .sch, .tiles] s t ∧
      t.gen = { s.gen with st := .idle, err := 9, pend := {}, digPend := [], disabling := [] } ∧ working t .generation = false ∧
      (working s .generation = false → t.sch = s.sch ∧ t.tiles = s.tiles)) ∧
    (Takes s who .ownGenCmd 3 → s.gen.st ≠ .fence → exec (.genCancel who) s = .next s)) ∧
  (∀ (image : Bytes) (s : State),
    let b := fit (imgLen s) image
    let due := s.gen.st = .loading ∧ working s .patches = false
    let n := (imgSections b).length
    (¬due → exec (.genLoadDone image) s = .next s) ∧
    (due → imgCheck s b = 0 → imgSections b = [] → ∃ t, exec (.genLoadDone image) s = .next t ∧ Only [.gen] s t ∧
      t.gen = { s.gen with st := .idle, image := [], imgFail := false, err := 0, shadow := imgApply s b }) ∧
    (due → imgCheck s b = 0 → imgSections b ≠ [] → ∃ t, exec (.genLoadDone image) s = .next t ∧ Only [.gen, .sch] s t ∧
      t.gen = { s.gen with image := b } ∧ t.sch = { s.sch with nextId := s.sch.nextId + 2 * n, jobs := s.sch.jobs ++ (List.range n).flatMap (fun i =>
        [{ id := s.sch.nextId + 2 * i, kind := 3, work := .patch i false }, { id := s.sch.nextId + 2 * i + 1, kind := 3, work := .patch i true }]) }) ∧
    (due → imgCheck s b ≠ 0 → ∃ t, exec (.genLoadDone image) s = .next t ∧ Only [.gen, .evPend] s t ∧
      t.gen = { s.gen with st := .idle, image := [], imgFail := false, err := BitVec.ofNat 4 (imgCheck s b) } ∧ bitOf t.evPend gGenFail = true) ∧
    (s.gen.imgFail = true → imgCheck s b = 8) ∧ (s.gen.imgFail = false → imgFormat (imgLen s) b = false → imgCheck s b = 3) ∧
    (s.gen.imgFail = false → imgFormat (imgLen s) b = true → sha384 (b.drop 0x40) ≠ slice b 0x10 48 → imgCheck s b = 4)) ∧
  (∀ (who : Who) (s : State) (rollback : Bool), Takes s who .ownGenCmd (if rollback then 4 else 2) → s.gen.st = .idle →
    let f := fitBudgets s s.gen.shadow
    let c := if rollback then s.gen.prev else f.1
    let i := if rollback then Instr.genRollback who else Instr.genCommit who
    (rollback = true → s.gen.previous = 0 → ∃ t, exec i s = .next t ∧ Only [.gen] s t ∧ t.gen = { s.gen with err := 2 }) ∧
    ((rollback = true → s.gen.previous ≠ 0) → ∃ t, exec i s = .next t ∧ Only ([.gen, .tens, .sqs, .sch, .reqs, .tiles, .streams, .ks, .dcs, .fp, .crs] ++ dropParts) s t ∧
      t.gen = { s.gen with st := .fence, pend := c, clamped := if rollback then false else f.2, rollback := rollback, disabling := disabledBy s c, digPend := if rollback then s.gen.digPrev else contentDigest s c } ∧
      (∀ n, n ∈ disabledBy s c → (t.ten n.val).inReset = true) ∧
      (disabledBy s c = [] → (∀ k, k ∈ changedChans s c → t.dc k = { strays := (t.dc k).strays }) ∧
        t.sch = (if rollback then s.sch else { s.sch with nextId := s.sch.nextId + 1, jobs := s.sch.jobs ++ [{ id := s.sch.nextId, kind := 2, work := .generation }] }) ∧
        ((∀ k, k ∈ changedChans s c → (s.dc k).due = false) → Only [.gen, .tens, .dcs, .sch, .out] s t ∧ ∀ k, k ∉ changedChans s c → t.dc k = s.dc k)))) ∧
  (∀ (s : State), s.gen.st = .fence → s.sup.active = false →
    (∀ n, n ∈ s.gen.disabling → (s.ten n.val).inReset = false ∧ ∀ r, r ∈ s.reqs → r.ofTenant n = false) →
    s.dcs.all (fun p => p.2.strays.all (fun x => !x.taken)) = true →
    (s.gen.rollback = false → drained s = true ∧ working s .generation = false) →
    ∃ t, exec .genTakeEffect s = .next t ∧ Only ([.gen, .act, .tens, .sqs, .cqs, .sch, .reqs, .tiles, .streams, .ks, .dcs, .fp, .crs] ++ dropParts) s t ∧
      t.gen = { s.gen with prev := s.gen.act, act := s.gen.pend, pend := {}, shadow := if s.gen.rollback then s.gen.pend else s.gen.shadow, previous := s.gen.active, active := nextGen s.gen.active, digPrev := s.gen.digAct, digAct := s.gen.digPend, digPend := [], disabling := [], st := .idle, err := 0 } ∧
      (s.gen.active = 0xFFFFFFFF → t.gen.active = 1) ∧ (s.gen.active ≠ 0xFFFFFFFF → t.gen.active = s.gen.active + 1) ∧
      bitOf t.evPend gGenDone = true ∧ (s.gen.clamped = true → bitOf t.evPend gSchedBudgetClamp = true) ∧
      (∀ n, n ∈ enabledBy s s.gen.pend → t.ten n.val = { left := (t.ten n.val).left }) ∧
      (courseSet s s.gen.pend = courseSet s s.gen.act → t.crs = s.crs ∧ t.reqs = s.reqs.map (fun r => { r with rulesPrev := if s.gen.rollback then !r.rulesPrev else true }))) ∧
  (∀ (s : State), fenceOver s = false → exec .genTakeEffect s = .next s) ∧
  (∀ (id x : Nat) (j : Job) (ok meets : Bool) (s : State), tilesOpen s = true → s.req id = none → s.sch.jobs.find? (fun q => decide (q.id = id)) = some j →
    jobTile s j = some x →
    let left := { s.sch with jobs := s.sch.jobs.filter (fun q => decide (q.id ≠ j.id)) }
    let run := exec (.operationEnd id 0 ok .clean meets) s
    (j.work = .generation → j.kind = 2 → ∃ t, run = .next t ∧ Only [.sch, .reqs, .tiles] s t ∧ t.sch = left) ∧
    (∀ i second, j.work = .patch i second →
      let signed := sectSigned ((imgSections s.gen.image).getD i []) second
      let more := left.jobs.any (fun q => decide (q.work.purpose = .patches))
      (signed = true → more = true → ∃ t, run = .next t ∧ Only [.sch, .reqs, .tiles] s t ∧ t.sch = left) ∧
      (signed = true → more = false → ∃ t, run = .next t ∧ Only [.gen, .sch, .reqs, .tiles] s t ∧ t.sch = left ∧
        t.gen = { s.gen with st := .idle, image := [], imgFail := false, err := 0, shadow := imgApply s s.gen.image }) ∧
      (signed = false → ∃ t, run = .next t ∧ Only [.gen, .sch, .reqs, .tiles, .evPend] s t ∧ working t .patches = false ∧
        t.gen = { s.gen with st := .idle, image := [], imgFail := false, err := 6 } ∧ bitOf t.evPend gGenFail = true)) ∧
    (∀ y, j.work = .slot y → j.kind = 3 → ok = true → ∃ t, run = .next t ∧ Only [.sch, .reqs, .tiles] s t ∧
      t.sch = { left with nextId := s.sch.nextId + 1, jobs := left.jobs ++ [{ id := s.sch.nextId, kind := 2, work := .slot y }] }) ∧
    (∀ y, j.work = .slot y → j.kind ≠ 3 → ∃ t, run = .next t ∧ Only [.sch, .reqs, .tiles] s t ∧ t.sch = left) ∧
    (j.kind = 3 → j.work.purpose ≠ .patches → ok = false → ∃ t, run = .next t ∧ OutOfService s t x 2)) ∧
  (∀ (s : State), (s.gen.st ≠ .fence → exec .genSlow s = .next s) ∧
    (s.gen.st = .fence → ∃ t, exec .genSlow s = .next t ∧ Only recordParts s t ∧ bitOf t.evPend gGenSlow = true ∧ t.jrn.seq = s.jrn.seq + 1))

/-- O53. Gates and clock monitor enables (R320, R394 to R397, R399): a write of 1 to a bit that is 1 does nothing, and to one that is 0 makes the
unit GATE_PENDING, pauses the channels for the data channel unit, and takes the tile out of the healthy ones; the idle handshake gates it; a write
of 0 ends either, but is dropped for a unit whose clock is not monitored; a monitor that is turned on begins its window under the limits as they are, and is
turned off only while all that its clock feeds is gated.
What the model chose or read where the spec is open: log entries 19 and 21. -/
def Obligations.Gates : Prop :=
  (∀ (who : Who) (u : GateUnit) (s : State), Takes s who .ownGate (s.own.gate ||| put (gateIx u) 1) →
    let bit := BitVec.ofNat 26 (2 ^ gateIx u)
    (bitOf s.own.gate (gateIx u) = true → exec (.gateWrite who u) s = .next s) ∧
    (bitOf s.own.gate (gateIx u) = false → ∃ t, exec (.gateWrite who u) s = .next t ∧
      Only ([.own, .tens, .sch, .reqs, .tiles, .streams, .ks, .dcs, .fp, .clk] ++ recordParts) s t ∧
      t.own = { s.own with gate := s.own.gate ||| put (gateIx u) 1 } ∧ t.clk = { s.clk with pending := s.clk.pending ||| bit } ∧
      (u = .fp → Only [.own, .clk] s t) ∧
      (u = .dcu → Only [.own, .clk, .tens, .dcs, .out] s t ∧ (∀ k, (s.dc k).st = .idle → t.dc k = s.dc k) ∧
        ∀ k, k < 64 → ((s.dc k).st = .running ∨ (s.dc k).st = .waiting) → (s.dc k).lines = [] → (s.dc k).ahead = [] →
          t.dc k = { s.dc k with st := .paused, pause := true, rstall := false }) ∧
      (∀ x, u = .tile x → ∀ kind, x.val ∉ healthyOf t kind))) ∧
  (∀ (u : GateUnit) (s : State),
    let bit := BitVec.ofNat 26 (2 ^ gateIx u)
    let ready := (∀ x, u = .tile x → x.val < 16 ∨ 20 ≤ x.val)
    (s.clk.pending.toNat.testBit (gateIx u) = false → exec (.gateIdle u) s = .next s) ∧
    (s.clk.pending.toNat.testBit (gateIx u) = true → ready → unitIdle s u = false → exec (.gateIdle u) s = .next s) ∧
    (s.clk.pending.toNat.testBit (gateIx u) = true → ready → unitIdle s u = true → ∃ t, exec (.gateIdle u) s = .next t ∧ Only [.clk] s t ∧
      t.clk = { s.clk with pending := s.clk.pending &&& ~~~ bit, gated := s.clk.gated ||| bit }) ∧
    (∀ x, u = .tile x → 16 ≤ x.val → x.val < 20 → s.clk.pending.toNat.testBit (gateIx u) = true →
      ∃ t, exec (.gateIdle u) s = .next t ∧ Only [.reqs, .tiles, .streams, .clk] s t ∧
        (unitIdle (moveOut x.val s) u = true → t.clk = { s.clk with pending := s.clk.pending &&& ~~~ bit, gated := s.clk.gated ||| bit }) ∧
        (unitIdle (moveOut x.val s) u = false → t.clk = s.clk))) ∧
  (∀ (who : Who) (u : GateUnit) (s : State), Takes s who .ownGate (s.own.gate &&& ~~~ put (gateIx u) 1) →
    let bit := BitVec.ofNat 26 (2 ^ gateIx u)
    (bitOf s.own.gate (gateIx u) = true → unitMonitored s u = false → ∃ t, exec (.ungate who u) s = .next t ∧ Dropped s t) ∧
    (bitOf s.own.gate (gateIx u) = false ∨ unitMonitored s u = true → ∃ t, exec (.ungate who u) s = .next t ∧ Only [.own, .clk] s t ∧
      t.own = { s.own with gate := s.own.gate &&& ~~~ put (gateIx u) 1 } ∧ t.clk = { s.clk with gated := s.clk.gated &&& ~~~ bit, pending := s.clk.pending &&& ~~~ bit })) ∧
  (∀ (who : Who) (k : ClkName) (en : Bool) (s : State), Takes s who .ownClkmon (if en then s.own.clkmon ||| put (clkIx k) 1 else s.own.clkmon &&& ~~~ put (clkIx k) 1) →
    (k = .ctl → exec (.clkmonEnWrite who k en) s = .next s) ∧
    (k ≠ .ctl → en = true → ∃ t, exec (.clkmonEnWrite who k en) s = .next t ∧ Only [.own, .clk] s t ∧ t.own = { s.own with clkmon := s.own.clkmon ||| put (clkIx k) 1 } ∧
      t.mon k = { s.mon k with lim := limits s k } ∧ ∀ j, j ≠ k → t.mon j = s.mon j) ∧
    (k ≠ .ctl → en = false → (∀ x, x ∈ clkTiles k → s.clk.gated.toNat.testBit x = true) →
      ∃ t, exec (.clkmonEnWrite who k en) s = .next t ∧ Only [.own] s t ∧ t.own = { s.own with clkmon := s.own.clkmon &&& ~~~ put (clkIx k) 1 }) ∧
    (k ≠ .ctl → en = false → (∃ x, x ∈ clkTiles k ∧ s.clk.gated.toNat.testBit x = false) →
      ∃ t, exec (.clkmonEnWrite who k en) s = .next t ∧ Dropped s t))

/-- O54. Faults of the clocks (R398 to R406): a stop, or a count outside the limits, trips a monitored clock; a count inside them makes the window
clean, and the next begins under the limits as they are then; an oscillator fault stops the counters; when the fenced islands are zeroized, the contain response ends each request that they were at work
for and empties their tiles, and the reset response resets the engine; a fenced clock in band is released, and its tiles rejoin or stay out;
what rested in the banks of public-key tiles may run again.
What the model chose or read where the spec is open: log entry 21. -/
def Obligations.ClockFaults : Prop :=
  (∀ (k : ClkName) (s : State),
    (watching s = true → monitored s k = true → ∃ t, exec (.clockStopTrip k) s = .next t ∧ Tripped s t k (clkIx k)) ∧
    (watching s = false ∨ monitored s k = false → exec (.clockStopTrip k) s = .next s)) ∧
  (∀ (k : ClkName) (count : BitVec 14) (s : State), s.start.osc = true → s.clk.oscStopped = false → watching s = true → monitored s k = true → s.start.rst = false →
    let inside := fld (s.mon k).lim 13 0 ≤ count.toNat ∧ count.toNat ≤ fld (s.mon k).lim 29 16
    (inside → ∃ t, exec (.clkmonWindow k count) s = .next t ∧ Only [.clk] s t ∧
      t.mon k = { s.mon k with lim := limits s k, count := count, clean := min 4 ((s.mon k).clean + 1) } ∧
      (∀ j, j ≠ k → t.mon j = s.mon j) ∧ t.clk.cause = s.clk.cause) ∧
    (¬inside → ∃ t, exec (.clkmonWindow k count) s = .next t ∧ Tripped s t k (3 + clkIx k) ∧ (t.mon k).count = count ∧ (t.mon k).lim = limits s k)) ∧
  (∀ (s : State),
    (watching s = true → s.start.osc = true → ∃ t, exec .oscFault s = .next t ∧ Only [.clk, .evPend] s t ∧
      t.clk = { s.clk with oscStopped := true, cause := s.clk.cause ||| 0x80 } ∧ bitOf t.evPend gOscFault = true) ∧
    (watching s = false ∨ s.start.osc = false → exec .oscFault s = .next s)) ∧
  (∀ (s : State),
    let due := fun k => (s.mon k).zeroDue = true
    (s.start.osc = false ∨ (∀ k, ¬due k) → exec .fencedZeroizeDone s = .next s) ∧
    (s.start.osc = true → (due .ctl ∨ (respReset s = true ∧ ∃ k, due k)) → ∃ t, exec .fencedZeroizeDone s = .next t ∧
      t.reqs = [] ∧ t.own = State.reset.own ∧ t.gen = State.reset.gen ∧ t.ks = State.reset.ks ∧ t.jrn = State.reset.jrn ∧ t.roots = State.reset.roots ∧
      t.clk.cause = s.clk.cause ∧ t.start = { State.reset.start with cause := 2, osc := true, nmi := true } ∧ t.out = s.out ∧ t.free = s.free) ∧
    (∀ k, s.start.osc = true → ¬due .ctl → respReset s = false → due k → (∀ j, j ≠ k → ¬due j) → ∃ t, exec .fencedZeroizeDone s = .next t ∧
      Only ([.tens, .sch, .reqs, .tiles, .streams, .ks, .fp, .clk] ++ recordParts) s t ∧
      t.mon k = { s.mon k with zeroDue := false } ∧
      (∀ id r i, s.req id = some r → r.phase = .running → heldOp s (clkTiles k) id = some i → EndedWith t id r ⟨0x51, 2, i⟩) ∧
      (∀ x, x ∈ clkTiles k → (t.tile x).run = none ∧ (t.tile x).saved = [] ∧ (t.tile x).bankA = .empty ∧ (t.tile x).bankB = .empty) ∧
      (∀ x v, x < 64 → s.stream x = some v → v.tile ∈ clkTiles k → t.stream x = none))) ∧
  (∀ (who : Who) (k : ClkName) (s : State),
    (k = .ctl → exec (.clkmonRelease who k) s = .next s) ∧
    (k ≠ .ctl → Takes s who .ownClkmon (s.own.clkmon ||| put (3 + clkIx k) 1) →
      (inBand s k = false → ∃ t, exec (.clkmonRelease who k) s = .next t ∧ Dropped s t) ∧
      (inBand s k = true → (s.mon k).fenced = true → (s.mon k).zeroDue = false → ∃ t, exec (.clkmonRelease who k) s = .next t ∧ Only [.clk] s t ∧
        t.mon k = { s.mon k with release := true } ∧ ∀ j, j ≠ k → t.mon j = s.mon j) ∧
      (inBand s k = true → ((s.mon k).fenced = false ∨ (s.mon k).zeroDue = true) → exec (.clkmonRelease who k) s = .next s))) ∧
  (∀ (k : ClkName) (failed : BitVec 24) (s : State),
    ((s.mon k).release = false → exec (.islandRejoin k failed) s = .next s) ∧
    ((s.mon k).release = true → ∃ t, exec (.islandRejoin k failed) s = .next t ∧ Only ([.reqs, .tiles, .clk] ++ recordParts) s t ∧
      t.mon k = { s.mon k with fenced := false, release := false } ∧
      (∀ x, x ∉ clkTiles k ∨ (s.tile x).st ≠ .fenced → (x < 20 → t.tile x = s.tile x) ∧
        t.tile x = { s.tile x with bankA := (t.tile x).bankA, bankB := (t.tile x).bankB } ∧
        (s.tile x).bankA.same (t.tile x).bankA ∧ (s.tile x).bankB.same (t.tile x).bankB) ∧
      (∀ x, x ∈ clkTiles k → (s.tile x).st = .fenced →
        (failed.toNat.testBit x = false → (t.tile x).st = .healthy ∧ bitOf t.evPend gTileRejoin = true) ∧
        (failed.toNat.testBit x = true → (t.tile x).st = (if 2 ≤ (s.tile x).qcount.toNat then .retired else .quarantined) ∧ (t.tile x).qcause = BitVec.ofNat 3 qGrout))))

/-- O55. Supply events and retention (R278, R351, R407 to R410, R412 to R414): a warning is counted and recorded, ends a request of which output had
left a tile, and runs every other operation at work again from its start, work of the engine itself too; its end does the deferred writes and is flagged; a request for
retention pauses the channels; retention is entered when nothing is in flight, no channel running, stops the count and loses what it does not keep, the state
of the tiles too, but that a fenced tile stays fenced; a fall of the request before that ends it, and after it starts a wake, which makes the known-answer
tests behind a first window in band of every monitored clock, and whose end is flagged; a supply warning holds the wake.
What the model chose or read where the spec is open: log entry 20. -/
def Obligations.SupplyAndRetention : Prop :=
  (∀ (s : State), s.start.rst = true ∨ s.sup.active = true → exec .supplyWarn s = .next s) ∧
  (∀ (s : State), s.start.rst = false → s.sup.active = false → ∃ t, exec .supplyWarn s = .next t ∧
    Only [.notice, .tens, .sch, .reqs, .tiles, .streams, .ks, .fp, .sup, .jrn, .evPend, .pviol, .pvcnt, .out] s t ∧
    t.sup.active = true ∧ t.sup.warns = bump32 s.sup.warns ∧ bitOf t.evPend gSupWarn = true ∧ (s.start.cleared = true → t.jrn.seq = s.jrn.seq + 1) ∧
    let rests := fun (r : Req) => r.phase ≠ .running ∨ (List.range r.ops.length).filter (atWork r) = []
    (jobsAtWork s = [] → (∀ r, r ∈ s.reqs → rests r) → t.reqs = s.reqs ∧ t.tiles = s.tiles ∧ t.sup.reruns = s.sup.reruns) ∧
    (∀ j, jobsAtWork s = [j] → (∀ r, r ∈ s.reqs → rests r) → t.sup.reruns = bump32 s.sup.reruns ∧ t.sch.jobs = s.sch.jobs ∧ jobTile t j = none) ∧
    (∀ r l1 l2 i, s.reqs = l1 ++ r :: l2 → (∀ x, x ∈ l1 ++ l2 → x.id ≠ r.id) → r.phase = .running →
      ((List.range r.ops.length).filter (atWork r)).find? (fun i => decide (kindOfW (r.op i).w ≠ 3) && decide ((r.op i).output ≠ [])) = some i →
      EndedWith t r.id r ⟨0x60, 1, i⟩) ∧
    (∀ r l1 l2 i, s.reqs = l1 ++ r :: l2 → (∀ x, x ∈ l1 ++ l2 → x.id ≠ r.id ∧ rests x) → r.phase = .running →
      (List.range r.ops.length).filter (atWork r) = [i] → (kindOfW (r.op i).w = 3 ∨ (r.op i).output = []) → drawLeft r i = false →
      ((r.op i).w.src = 0 ∨ i < (r.op i).w.src ∨ 8 ≤ (r.op i).w.src ∨ kindOfW (r.op i).w = 3) → jobsAtWork s = [] →
      t.sup.reruns = bump32 s.sup.reruns ∧ RunsOn t r.id r (fun r' => (r'.op i).phase = .waiting ∧ (r'.op i).tiles = [] ∧ (r'.op i).output = [] ∧ (r'.op i).consumed = 0))) ∧
  (∀ (s : State),
    (s.sup.active = false → exec .supplyClear s = .next s) ∧
    (s.sup.active = true → ∃ t, exec .supplyClear s = .next t ∧
      Only ([.own, .tens, .sch, .reqs, .tiles, .ces, .streams, .ks, .meas, .es, .rbgs, .fp, .sup, .crs, .free] ++ recordParts) s t ∧
      t.sup = { s.sup with active := false } ∧ bitOf t.evPend gSupClear = true ∧
      t.meas = (s.ks.deferred.foldl (fun s d => undefer d s) (modKs (fun k => { k with deferred := [] }) (modSup (fun p => { p with active := false }) s))).meas)) ∧
  (∀ (s : State),
    (s.start.serving = true → s.ret.req = false → s.ret.asleep = false → ∃ t, exec .retReqRise s = .next t ∧ Only [.tens, .dcs, .ret, .out] s t ∧
      t.ret = { s.ret with req := true } ∧ (∀ k, (s.dc k).st ≠ .running → (s.dc k).st ≠ .waiting → t.dc k = s.dc k) ∧
      ∀ k, k < 64 → ((s.dc k).st = .running ∨ (s.dc k).st = .waiting) → (s.dc k).lines = [] → (s.dc k).ahead = [] →
        t.dc k = { s.dc k with st := .paused, pause := true, rstall := false }) ∧
    (s.start.serving = false ∨ s.ret.req = true ∨ s.ret.asleep = true → exec .retReqRise s = .next s)) ∧
  (∀ (s : State),
    let ready := s.ret.req = true ∧ s.ret.asleep = false ∧ s.reqs = [] ∧ s.fp.loans = [] ∧ s.gen.st ≠ .fence ∧ replacing s = false ∧ s.sup.active = false ∧ allInBand s = true ∧
      s.crs.queue = [] ∧ s.dcs.all (fun p => decide (p.2.st ≠ .running ∧ p.2.st ≠ .waiting)) = true
    (¬ready → exec .retentionEntry s = .next s) ∧
    (ready → ∃ t, exec .retentionEntry s = .next t ∧ Only ([.own, .sqs, .tiles, .time, .clk, .ret] ++ recordParts) s t ∧
      t.ret = { s.ret with ack := true, asleep := true, tested := false } ∧ t.run = false ∧ t.time.ns = s.time.ns ∧
      (∀ x, x < 24 → t.tile x = if (s.tile x).st = .fenced then { st := .fenced } else {}) ∧
      (∀ n m, n < 16 → m < 16 → t.sq n m = { s.sq n m with cache := [], flight := [], charges := [] }) ∧
      t.clk = { s.clk with ctl := { s.clk.ctl with count := 0, clean := 0 }, tile := { s.clk.tile with count := 0, clean := 0 }, aux := { s.clk.aux with count := 0, clean := 0 } })) ∧
  (∀ (s : State),
    (s.ret.req = false → exec .retReqFall s = .next s) ∧
    (s.ret.req = true → s.ret.asleep = false → ∃ t, exec .retReqFall s = .next t ∧ Only [.ret] s t ∧ t.ret = { s.ret with req := false }) ∧
    (s.ret.req = true → s.ret.asleep = true → ∃ t, exec .retReqFall s = .next t ∧ Only [.start, .ret] s t ∧ t.ret = { s.ret with req := false } ∧
      t.start = { s.start with osc := false })) ∧
  (∀ (s : State),
    let under := s.ret.asleep = true ∧ s.ret.req = false ∧ s.start.osc = true ∧ s.sup.active = false ∧ ∀ k, monitored s k = true → 1 ≤ (s.mon k).clean
    let woken := under ∧ s.ret.tested = true
    (under → ∃ t, exec (.knownAnswerTestsDone 0 0 true) s = .next t ∧ Only [.ret] s t ∧ t.ret = { s.ret with tested := true }) ∧
    (¬woken → exec .wakeComplete s = .next s) ∧
    (woken → ∃ t, exec .wakeComplete s = .next t ∧ Only [.ret, .evPend] s t ∧ t.ret = { s.ret with ack := false, asleep := false, tested := false } ∧
      bitOf t.evPend gWake = true))

/-- O56. The event journal (R442 to R445, R487): a read of 8 or 16 bits, and a read that its role does not permit, returns zero and removes
nothing; a read of 32 bits returns the next word and removes it, one of 64 bits the next two, the earlier in the low half; the read of an empty
journal stalls, and returns zero when its limit has elapsed; a record with an uncorrectable word is delivered as a CORRUPT record, also where a read of 64 bits goes on with it; a flush removes
every record but one whose reading has begun, and stores FLUSHED and TIME_MARK, though a LOST record is pending; a pending LOST record is stored once 6 words are free; the head of the
notice ring is judged as a completion ring's, and its base and size are taken, with head and tail 0, while notices are disabled.
What the model chose or read where the spec is open: log entry 8. -/
def Obligations.Journal : Prop :=
  (∀ (who : Who) (size : AccSize) (ecc : Ecc) (s : State), size = .b8 ∨ size = .b16 ∨ (s.start.serving && mayRead s who .jr) = false →
    ∃ t, exec (.journalRead who size ecc) s = .next t ∧ Only [.notice, .jrn, .evPend, .pviol, .pvcnt, .out] s t ∧ t.out.getLast? = some (.cfgRd who 0) ∧
      (who.dbg = false ∨ s.dbgEn = true → t = emit (.cfgRd who 0) s) ∧
      (s.start.serving = true → who.dbg = true → s.dbgEn = false → t.jrn.seq = s.jrn.seq + 1)) ∧
  (∀ (who : Who) (size : AccSize) (ecc : Ecc) (s : State), size = .b32 ∨ size = .b64 → (s.start.serving && mayRead s who .jr) = true → (who.dbg = true → s.dbgEn = true) →
    (s.jrn.reading = [] → s.jrn.recs = [] →
      ∃ t, exec (.journalRead who size ecc) s = .next t ∧ Only [.jrn] s t ∧ t.jrn = { s.jrn with stalled := s.jrn.stalled ++ [(who, size)] }) ∧
    (∀ a l, size = .b32 → ecc = .clean → s.jrn.reading = a :: l →
      ∃ t, exec (.journalRead who size ecc) s = .next t ∧ Only [.jrn, .out] s t ∧ t.jrn = { s.jrn with reading := l } ∧
        t.out = s.out ++ [.cfgRd who (BitVec.ofNat 64 a.toNat)]) ∧
    (∀ a l rs, size = .b32 → ecc = .clean → s.jrn.reading = [] → s.jrn.recs = (a :: l) :: rs →
      ∃ t, exec (.journalRead who size ecc) s = .next t ∧ Only [.jrn, .out] s t ∧ t.jrn = { s.jrn with reading := l, recs := rs } ∧
        t.out = s.out ++ [.cfgRd who (BitVec.ofNat 64 a.toNat)]) ∧
    (∀ a b l, size = .b64 → ecc = .clean → s.jrn.reading = a :: b :: l →
      ∃ t, exec (.journalRead who size ecc) s = .next t ∧ Only [.jrn, .out] s t ∧ t.jrn = { s.jrn with reading := l } ∧
        t.out = s.out ++ [.cfgRd who (BitVec.ofNat 64 (a.toNat + 2 ^ 32 * b.toNat))]) ∧
    (∀ a b l rs, size = .b64 → ecc = .clean → s.jrn.reading = [] → s.jrn.recs = (a :: b :: l) :: rs →
      ∃ t, exec (.journalRead who size ecc) s = .next t ∧ Only [.jrn, .out] s t ∧ t.jrn = { s.jrn with reading := l, recs := rs } ∧
        t.out = s.out ++ [.cfgRd who (BitVec.ofNat 64 (a.toNat + 2 ^ 32 * b.toNat))]) ∧
    (∀ a b l rs, size = .b64 → ecc = .clean → s.jrn.reading = [a] → s.jrn.recs = (b :: l) :: rs →
      ∃ t, exec (.journalRead who size ecc) s = .next t ∧ Only [.jrn, .out] s t ∧ t.jrn = { s.jrn with reading := l, recs := rs } ∧
        t.out = s.out ++ [.cfgRd who (BitVec.ofNat 64 (a.toNat + 2 ^ 32 * b.toNat))]) ∧
    (∀ a, size = .b64 → ecc = .clean → s.jrn.reading = [a] → s.jrn.recs = [] →
      ∃ t, exec (.journalRead who size ecc) s = .next t ∧ Only [.jrn, .out] s t ∧ t.jrn = { s.jrn with reading := [] } ∧
        t.out = s.out ++ [.cfgRd who (BitVec.ofNat 64 a.toNat)]) ∧
    (∀ a b l rs, size = .b32 → ecc = .uncorrectable → s.jrn.reading = [] → s.jrn.recs = (a :: b :: l) :: rs → s.jrn.stalled = [] →
      ∃ t, exec (.journalRead who size ecc) s = .next t ∧ Only [.notice, .jrn, .evPend, .pviol, .pvcnt, .out] s t ∧
        t.jrn.reading = [b, BitVec.ofNat 32 (l.length + 2)] ∧ bitOf t.evPend gUe = true ∧ t.jrn.seq = s.jrn.seq + 1) ∧
    (∀ a b c l rs, size = .b64 → ecc = .uncorrectable → s.jrn.reading = [a] → s.jrn.recs = (b :: c :: l) :: rs → s.jrn.stalled = [] →
      ∃ t, exec (.journalRead who size ecc) s = .next t ∧ Only [.notice, .jrn, .evPend, .pviol, .pvcnt, .out] s t ∧
        t.jrn.reading = [c, BitVec.ofNat 32 (l.length + 2)] ∧ bitOf t.evPend gUe = true ∧ t.jrn.seq = s.jrn.seq + 1)) ∧
  (∀ (s : State), (s.jrn.stalled = [] → exec .journalReadTimeout s = .next s) ∧
    (∀ w z l, s.jrn.stalled = (w, z) :: l → ∃ t, exec .journalReadTimeout s = .next t ∧ Only [.jrn, .out] s t ∧
      t.jrn = { s.jrn with stalled := l } ∧ t.out = s.out ++ [.cfgRd w 0])) ∧
  (∀ (who : Who) (s : State), Takes s who .ownJrnCtl 1 →
    ∃ t, exec (.journalFlush who) s = .next t ∧ Only [.notice, .jrn, .evPend, .pviol, .pvcnt, .out] s t ∧ t.jrn.seq = s.jrn.seq + 2 ∧
      (s.jrn.stalled = [] → s.jrn.reading.length ≤ 16 → t.jrn.reading = s.jrn.reading ∧ t.jrn.lost = s.jrn.lost ∧ t.jrn.lostDue = s.jrn.lostDue ∧
        t.jrn.recs = [jrnRecord s.jrn.seq 0x10 0x03 s.time.ns [s.jrn.recs.length], jrnRecord (s.jrn.seq + 1) 0x10 0x01 s.time.ns [s.time.ns.toNat / 2 ^ 32]])) ∧
  (∀ (s : State),
    (s.jrn.lostDue = 0 ∨ jrnWords < s.jrn.level + 6 → exec .journalLostStore s = .next s) ∧
    (0 < s.jrn.lostDue → s.jrn.level + 6 ≤ jrnWords → ∃ t, exec .journalLostStore s = .next t ∧ Only [.notice, .jrn, .evPend, .pviol, .pvcnt, .out] s t ∧
      t.jrn.lostDue = 0 ∧ t.jrn.seq = s.jrn.seq + 1 ∧ t.jrn.lost = s.jrn.lost ∧
      (s.jrn.stalled = [] → t.jrn.reading = s.jrn.reading ∧ t.jrn.recs = s.jrn.recs ++ [jrnRecord s.jrn.seq 0x10 0x02 s.time.ns [s.jrn.lostDue]]))) ∧
  (∀ (who : Who) (head : BitVec 13) (s : State), Takes s who .ownJrnNhead (head.setWidth 64) →
    let md := 2 ^ (s.noticeK + 1)
    let a := (head.toNat % md + md - s.jrn.nhead % md) % md
    let o := occ s.noticeK s.jrn.nhead s.jrn.ntail
    ∃ t, exec (.noticeHeadWrite who head) s = .next t ∧ Only [.jrn] s t ∧
      t.jrn = { s.jrn with nhead := if a ≤ o then head.toNat % md else if a ≤ 2 ^ s.noticeK then s.jrn.ntail else s.jrn.nhead }) ∧
  (∀ (who : Who) (r : NoticeReg) (v : Word) (s : State), Takes s who (noticeReg r) v →
    (s.noticeEn = true → ∃ t, exec (.noticeRingSetup who r v) s = .next t ∧ Dropped s t) ∧
    (s.noticeEn = false → ∃ t, exec (.noticeRingSetup who r v) s = .next t ∧ Only [.own, .jrn] s t ∧ t.jrn = { s.jrn with nhead := 0, ntail := 0 } ∧
      (r = .nbase → t.own = { s.own with nbase := Reg.write .ownJrnNbase s.own.nbase (~~~ 0) v }) ∧
      (r = .ncfg → t.own = { s.own with ncfg := Reg.write .ownJrnNcfg s.own.ncfg (~~~ 0) v })))

/-- O57. Reads at the register target port (R14, R37, R348, R376, R377, R443, R490, R501): the read of the low half of the time returns it and latches the
high half and the fraction for the master's next reads; the 64-bit read of the first word of a capture returns it and latches the words behind
it; a latched half goes to one read. A read of 32 or 64 bits that is not naturally aligned, and a read of an offset that holds no register, or that its
role does not permit, returns zero; one of 8 or 16 bits returns the addressed bytes of the 32-bit register around them; a debug read refused by role, of a locked page, or opened by
AH_OWN_DBG_UNLOCK, leaves one record, whatever its size and alignment; a 64-bit read of the time takes it in one cycle, whatever half is latched; any other read returns the register and
changes nothing.
What the model chose or read where the spec is open: log entry 19. -/
def Obligations.Reads : Prop :=
  (∀ (who : Who) (s : State),
    let off := Reg.off (.statTime 0)
    (readable s who (.statTime 0) = false → exec (.statTimeLowRead who) s = .next (emit (.cfgRd who 0) s)) ∧
    (readable s who (.statTime 0) = true → latched s who off = none → ∃ t, exec (.statTimeLowRead who) s = .next t ∧ Only [.latch, .out] s t ∧
      t.out = s.out ++ [.cfgRd who (s.time.ns &&& 0xFFFFFFFF)] ∧ latched t who (off + 4) = some ⟨who, off + 4, s.time.ns >>> 32⟩ ∧
      latched t who (Reg.off .statTimeFrac) = some ⟨who, Reg.off .statTimeFrac, halfOf (readWord s who .statTimeFrac) false⟩) ∧
    (∀ l, readable s who (.statTime 0) = true → latched s who off = some l → ∃ t, exec (.statTimeLowRead who) s = .next t ∧ Only [.latch, .out] s t ∧
      t.out = s.out ++ [.cfgRd who l.value] ∧ latched t who off = none)) ∧
  (∀ (who : Who) (off : BitVec 22) (s : State),
    let held (t : State) (q : Reg) : Prop := latched t who q.off = some ⟨who, q.off, halfOf (readWord s who q) false⟩ ∧
      latched t who (q.off + 4) = some ⟨who, q.off + 4, halfOf (readWord s who q) true⟩
    (isLatching off.toNat = false → exec (.captureReadLatch who off) s = .next s) ∧
    (∀ r, isLatching off.toNat = true → off.toNat % 8 = 0 → regAt off.toNat = some r → readable s who r = false →
      ∃ t, exec (.captureReadLatch who off) s = .next t ∧ t.out.getLast? = some (.cfgRd who 0)) ∧
    (∀ r, isLatching off.toNat = true → off.toNat % 8 = 0 → regAt off.toNat = some r → readable s who r = true → latched s who r.off = none →
      latched s who (r.off + 4) = none → ∃ t, exec (.captureReadLatch who off) s = .next t ∧ Only [.latch, .out] s t ∧
        t.out = s.out ++ [.cfgRd who (readWord s who r)] ∧ (∀ n, r = .tnViol n 0 → held t (.tnViol n 1)) ∧
        (∀ n, r = .tnBuserr n 0 → held t (.tnBuserr n 1)) ∧ (r = .statBoot 1 → held t (.statBoot 2) ∧ held t (.statBoot 3)))) ∧
  (∀ (who : Who) (size : AccSize) (off : BitVec 22) (s : State),
    let zero : Prop := ∃ t, exec (.debugRead who size off) s = .next t ∧ Only recordParts s t ∧ t.out.getLast? = some (.cfgRd who 0) ∧
      (who.dbg = false → t = emit (.cfgRd who 0) s) ∧
      (s.start.serving = true → who.dbg = true → s.dbgEn = false → regAt (off.toNat / 8 * 8) = none → (lockedPage off.toNat).isSome = true →
        t.jrn.seq = s.jrn.seq + 1) ∧
      (∀ r, s.start.serving = true → who.dbg = true → regAt (off.toNat / 8 * 8) = some r → mayRead s who r.cls = false ∨ debugOpens s who r = true →
        t.jrn.seq = s.jrn.seq + 1)
    (size = .b32 ∧ off.toNat % 4 ≠ 0 ∨ size = .b64 ∧ off.toNat % 8 ≠ 0 → zero) ∧
    (∀ r, size = .b8 ∨ size = .b16 → ¬(0x300000 ≤ off.toNat ∧ off.toNat < 0x310000) → regAt (off.toNat / 8 * 8) = some r → r ≠ .esRaw → readable s who r = true →
      debugOpens s who r = false → latches false (decide (4 ≤ off.toNat % 8)) r = [] → latched s who (halfOff r (decide (4 ≤ off.toNat % 8))) = none →
      exec (.debugRead who size off) s = .next (emit (.cfgRd who ((halfOf (readWord s who r) (decide (4 ≤ off.toNat % 8)) >>> (8 * (off.toNat % 4)))
        &&& BitVec.ofNat 64 (if size = .b8 then 0xFF else 0xFFFF))) s)) ∧
    (∀ r, size = .b8 ∨ size = .b16 → ¬(0x300000 ≤ off.toNat ∧ off.toNat < 0x310000) → regAt (off.toNat / 8 * 8) = some r → readable s who r = false → zero) ∧
    (size = .b8 ∨ size = .b16 → 0x300000 ≤ off.toNat ∧ off.toNat < 0x310000 ∨ regAt (off.toNat / 8 * 8) = none → zero) ∧
    (size = .b32 ∨ size = .b64 → off.toNat = 0x300000 → exec (.debugRead who size off) s = exec (.journalRead who size .clean) s) ∧
    (size = .b32 → off.toNat = 0x300004 → zero) ∧
    (size = .b32 ∧ off.toNat % 4 = 0 ∨ size = .b64 ∧ off.toNat % 8 = 0 → off.toNat ≠ 0x300000 → regAt (off.toNat / 8 * 8) = none → zero) ∧
    (∀ r, size = .b32 ∧ off.toNat % 4 = 0 ∨ size = .b64 ∧ off.toNat % 8 = 0 → off.toNat ≠ 0x300000 → off.toNat ≠ 0x300004 →
      regAt (off.toNat / 8 * 8) = some r → r ≠ .esRaw →
      let hi := decide (off.toNat % 8 = 4)
      (readable s who r = false → zero) ∧
      (readable s who r = true → debugOpens s who r = true → who.dbg = true → s.start.serving = true →
        ∃ t, exec (.debugRead who size off) s = .next t ∧ t.jrn.seq = s.jrn.seq + 1) ∧
      (readable s who r = true → debugOpens s who r = false → size = .b32 → latches false hi r = [] → latched s who (halfOff r hi) = none →
        exec (.debugRead who size off) s = .next (emit (.cfgRd who (halfOf (readWord s who r) hi)) s)) ∧
      (∀ l, readable s who r = true → debugOpens s who r = false → size = .b32 → latched s who (halfOff r hi) = some l →
        exec (.debugRead who size off) s = .next (emit (.cfgRd who l.value) (dropLatch who (halfOff r hi) s))) ∧
      (readable s who r = true → debugOpens s who r = false → size = .b64 → latches true hi r = [] → latched s who r.off = none →
        latched s who (r.off + 4) = none → exec (.debugRead who size off) s = .next (emit (.cfgRd who (readWord s who r)) s)) ∧
      (readable s who r = true → r = .statTime 0 → size = .b64 → exec (.debugRead who size off) s = .next (emit (.cfgRd who s.time.ns) s))))

/-- O58. Forming a course (R448 to R454, R464, R465, R488): a lane that goes down is flagged; HELLO keeps the nonce and the role that the peer sent, and
of two masters the lower POS stays, whether HELLO or BEAT tells of the second; the peer's output and statement go to the exchange buffer, and owner
software is told; ACCEPT issues the next step as work on public-key tiles, its hybrid operation and then the two signatures of its statement, whose end
on the master makes the pair's key, and stops without an attestation grant; REJECT and the time limit end the pairing with their cause; GROUP gives every position the group key; an elect with no
master heard and no lower elect becomes master; REFORM takes the next epoch; LEAVE ends the role and forgets peers, blocks and keys; a frame for
another position passes on, and one whose tag or counter fails is dropped, counted and recorded.
What the model chose or read where the spec is open: log entries 4, 5, 16 and 17. -/
def Obligations.CourseForms : Prop :=
  (∀ (l : Fin 2) (s : State),
    (s.crs.laneUp.toNat.testBit l.val = false → exec (.courseLaneDown l) s = .next s) ∧
    (s.crs.laneUp.toNat.testBit l.val = true → ∃ t, exec (.courseLaneDown l) s = .next t ∧ Only [.crs, .evPend] s t ∧
      t.crs = { s.crs with laneUp := s.crs.laneUp &&& ~~~ BitVec.ofNat 2 (2 ^ l.val) } ∧ bitOf t.evPend gCrsLane = true) ∧
    let due := s.start.serving = true ∧ crsRole s ≠ roStandalone ∧ s.crs.laneUp.toNat.testBit l.val = false
    (¬due → exec (.courseLaneUp l) s = .next s) ∧
    (due → ∃ t, exec (.courseLaneUp l) s = .next t ∧ t.crs.laneUp = s.crs.laneUp ||| BitVec.ofNat 2 (2 ^ l.val) ∧ t.crs.role = s.crs.role ∧
      (s.crs.laneUp ≠ 0 ∨ formedPeers s ≠ [] ∨ s.eff .ownCourseXbuf = 0 → Only [.crs] s t) ∧
      (s.crs.laneUp = 0 → formedPeers s = [] → s.eff .ownCourseXbuf ≠ 0 → t.crs.forming = max 1 s.crs.forming))) ∧
  (∀ (s : State),
    (crsRole s = roStandalone ∨ s.crs.laneUp = 0 → exec .beat s = .next s) ∧
    (crsRole s ≠ roStandalone → s.crs.laneUp ≠ 0 → crsIsMaster s = false → (s.peer s.crs.master.toNat).formed = true →
      exec .beat s = .next (sendFrame ftBeat s.crs.master.toNat [] s)) ∧
    (crsIsMaster s = true → s.crs.laneUp ≠ 0 → ∃ t, exec .beat s = .next t ∧ Only [.crs, .out] s t ∧ t.crs.peers = s.crs.peers ∧
      t.out.length = s.out.length + (formedPeers s).length)) ∧
  (∀ (type dst : Nat) (payload : Bytes) (s : State),
    let lane := laneTo s dst
    let q := s.peer dst
    let epoch := if clearType type then s.crs.forming else q.epoch
    let cnt := s.crs.sendCnt.look 0 (2 * epoch + lane) + 1
    let h := frameHeader dst (crsPos s) lane type payload.length epoch cnt
    (sendFrame type dst payload s).crs = { s.crs with sendCnt := s.crs.sendCnt.put 0 (2 * epoch + lane) cnt } ∧
    (clearType type = true → (sendFrame type dst payload s).out = s.out ++ [.frame lane (h ++ (payload ++ zeros 16))]) ∧
    (clearType type = false → (sendFrame type dst payload s).out =
      s.out ++ [.frame lane (h ++ aeadSeal 0x19 (frameKey q.gkey epoch (crsPos s)) (frameNonce (crsPos s) lane cnt) h payload)])) ∧
  (∀ (p : Fin 4) (m : Hello) (s : State),
    let b := m.payload
    let fits := p.val ∈ crsOthers s ∧ crsRole s ≠ roStandalone ∧ b.length = 47 ∧ beNat (b.take 8) = (s.eff .ownCourseId).toNat ∧ byteAt b 8 = p.val ∧
      s.eff .ownCourseXbuf ≠ 0
    let parts : List Part := [.sch, .tiles, .ces, .es, .rbgs, .crs, .free] ++ recordParts
    (s.start.serving = false ∨ ¬fits → exec (.courseHello p m) s = .next s) ∧
    (s.start.serving = true → fits → ∃ t, exec (.courseHello p m) s = .next t ∧ Only parts s t ∧ (t.peer p.val).nonce = slice b 11 32 ∧
      (t.peer p.val).role = byteAt b 9 ∧ t.crs.forming = max s.crs.forming (leAt b 43 4) ∧ t.crs.laneUp = s.crs.laneUp ∧
      (byteAt b 9 = roMaster → crsRole s = roMaster → p.val < crsPos s → t.crs.role = BitVec.ofNat 2 roElect ∧ t.crs.master = BitVec.ofNat 2 p.val ∧
        bitOf t.evPend gCrsState = true ∧ ((s.peer p.val).formed = false → ∀ j, j ∈ t.sch.jobs → j.work.purpose ≠ .pairing p.val)) ∧
      (byteAt b 9 ≠ roMaster ∨ crsRole s ≠ roMaster ∨ crsPos s ≤ p.val → t.crs.role = s.crs.role) ∧
      (byteAt b 9 = roMaster → crsRole s ≠ roMaster → s.crs.heard = false → t.crs.master = BitVec.ofNat 2 p.val ∧ t.crs.heard = true))) ∧
  (∀ (p : Fin 4) (o st : Bytes) (s : State),
    let due := s.start.serving = true ∧ (s.peer p.val).step = (if crsIsMaster s then PairStep.agreed else PairStep.hello) ∧
      (crsIsMaster s = true ∨ s.crs.heard = false ∨ s.crs.master.toNat = p.val) ∧ (crsOthers s).any (fun q => decide ((s.peer q).step = .waiting)) = false
    let a := (s.eff .ownCourseXbuf).toNat
    let b := xbufBytes p.val (o ++ st)
    (¬due → exec (.courseAgreeReceived p o st) s = .next s) ∧
    (due → check s s.gen.act none .secure .write a b.length = none → ∃ t, exec (.courseAgreeReceived p o st) s = .next t ∧ Only [.evPend, .crs, .out] s t ∧
      t.peer p.val = { s.peer p.val with step := .waiting, got := o } ∧ t.out = (emitWr a b s).out ∧ bitOf t.evPend gCrsPeer = true ∧ t.crs.role = s.crs.role) ∧
    (due → check s s.gen.act none .secure .write a b.length ≠ none → ∃ t, exec (.courseAgreeReceived p o st) s = .next t ∧ Only [.evPend, .pviol, .pvcnt] s t)) ∧
  (∀ (who : Who) (s : State), Takes s who .ownCourseCmd 1 →
    (waitingPair s = none → exec (.courseAccept who) s = .next s) ∧
    (∀ p, waitingPair s = some p → ∃ t, exec (.courseAccept who) s = .next t ∧
      Only [.notice, .sch, .tiles, .jrn, .evPend, .pviol, .pvcnt, .crs, .out] s t ∧ t.crs.role = s.crs.role ∧ t.crs.forming = s.crs.forming ∧
      (crsIsMaster s = false → mayAttest s = false → (t.peer p).step = .idle ∧ bitOf t.evPend gCrsState = true ∧ t.jrn.seq = s.jrn.seq + 2 ∧
        t.crs.peerPos = BitVec.ofNat 2 p ∧ t.crs.peerCause = (if bitOf (s.eff .ksAttEn) (crsTen s) then 4 else 3)) ∧
      (crsIsMaster s = true ∨ mayAttest s = true → t.jrn.seq = s.jrn.seq + 1 ∧ t.peer p = { s.peer p with step := .working } ∧ t.tiles = s.tiles ∧
        (working s (.pairing p) = false → t.sch = { s.sch with
          nextId := s.sch.nextId + 1, jobs := s.sch.jobs ++ [{ id := s.sch.nextId, kind := 3, work := .pairing p .hybrid }] })))) ∧
  (∀ (id x p : Nat) (op : PairOp) (j : Job) (s : State), tilesOpen s = true → s.req id = none → s.sch.jobs.find? (fun q => decide (q.id = id)) = some j →
    jobTile s j = some x → j.kind = 3 → j.work = .pairing p op →
    let rest := s.sch.jobs.filter (fun q => decide (q.id ≠ id))
    let last := ∀ q, q ∈ rest → q.work.purpose ≠ .pairing p
    let signs := op = .hybrid ∧ ((s.peer p).step = .hello ∨ crsIsMaster s = false)
    (signs → ∃ t, exec (.operationEnd id 0 true .clean) s = .next t ∧ Only [.sch, .reqs, .tiles] s t ∧ t.sch = { s.sch with
      nextId := s.sch.nextId + 2
      jobs := rest ++ [{ id := s.sch.nextId, kind := 3, work := .pairing p .es384 }, { id := s.sch.nextId + 1, kind := 3, work := .pairing p .mldsa }] }) ∧
    (¬signs → ¬last → ∃ t, exec (.operationEnd id 0 true .clean) s = .next t ∧ Only [.sch, .reqs, .tiles] s t ∧ t.sch = { s.sch with jobs := rest }) ∧
    (¬signs → last → (s.peer p).step = .working → crsIsMaster s = true → ∃ t, exec (.operationEnd id 0 true .clean) s = .next t ∧
      Only ([.sch, .reqs, .tiles, .ces, .es, .rbgs, .crs, .free] ++ recordParts) s t ∧
      (t.peer p).key = pairKey s (hybFinish (s.peer p).seed (s.peer p).got (pairCtx s (crsPos s) p)) (crsPos s) p ∧
      t.crs.role = s.crs.role ∧ t.crs.forming = s.crs.forming ∧ (s.crs.newKey ≠ [] → t.crs.newKey = s.crs.newKey) ∧
      ((t.peer p).step = .accepted ∨ (t.peer p).step = .idle ∧ (t.peer p).formed = true ∧ (t.peer p).gkey = t.crs.newKey ∧ (t.peer p).epoch = s.crs.forming ∧
        bitOf t.evPend gCrsFormed = true)) ∧
    (¬signs → last → (s.peer p).step = .hello ∨ (s.peer p).step = .working ∧ crsIsMaster s = false → mayAttest s = false →
      ∃ t, exec (.operationEnd id 0 true .clean) s = .next t ∧ (t.peer p).step = .idle ∧ t.jrn.seq = s.jrn.seq + 1 ∧ t.crs.peerPos = BitVec.ofNat 2 p ∧
        t.crs.peerCause = (if bitOf (s.eff .ksAttEn) (crsTen s) then 4 else 3))) ∧
  (∀ (who : Who) (s : State), (waitingPair s = none → exec .coursePairingTimeout s = .next s ∧ (Takes s who .ownCourseCmd 2 → exec (.courseReject who) s = .next s)) ∧
    (∀ p, waitingPair s = some p →
      (∃ t, exec .coursePairingTimeout s = .next t ∧ Only [.notice, .sch, .tiles, .jrn, .evPend, .pviol, .pvcnt, .crs, .out] s t ∧ t.crs.peerCause = 2 ∧
        t.crs.peerPos = BitVec.ofNat 2 p ∧ (t.peer p).step = .idle ∧ bitOf t.evPend gCrsPeer = true ∧ t.jrn.seq = s.jrn.seq + 1) ∧
      (Takes s who .ownCourseCmd 2 → ∃ t, exec (.courseReject who) s = .next t ∧ Only [.notice, .sch, .tiles, .jrn, .evPend, .pviol, .pvcnt, .crs, .out] s t ∧
        t.crs.peerCause = 1 ∧ t.crs.peerPos = BitVec.ofNat 2 p ∧ (t.peer p).step = .idle ∧ bitOf t.evPend gCrsPeer = true ∧ t.jrn.seq = s.jrn.seq + 1))) ∧
  (∀ (p : Fin 4) (b : Bytes) (s : State),
    let key := (s.peer p.val).key
    let due := (s.peer p.val).step = .accepted ∧ crsIsMaster s = false ∧ aeadOpens 0x1D key (b.take 12) [] (b.drop 12) = true
    let g := aeadText 0x1D key (b.take 12) [] (b.drop 12)
    (¬due → exec (.courseGroup p b) s = .next s) ∧
    (due → ∃ t, exec (.courseGroup p b) s = .next t ∧ bitOf t.evPend gCrsFormed = true ∧ t.crs.role = s.crs.role ∧
      (∀ q, q ∈ crsOthers s → (t.peer q).gkey = g ∧ (t.peer q).epoch = s.crs.forming ∧ (t.peer q).silent = false) ∧
      (t.peer p.val).formed = true ∧ (t.peer p.val).step = .idle ∧ (s.crs.asked = [] → Only [.evPend, .crs] s t))) ∧
  (∀ (s : State),
    let due := s.start.serving = true ∧ s.crs.heard = false ∧ s.crs.laneUp ≠ 0 ∧ lowestElect s = true
    (¬due → exec .courseMasterTimeout s = .next s) ∧
    (due → ∃ t, exec .courseMasterTimeout s = .next t ∧ Only [.notice, .sch, .tiles, .jrn, .evPend, .pviol, .pvcnt, .crs, .out] s t ∧
      t.crs.role = BitVec.ofNat 2 roMaster ∧ t.crs.master = BitVec.ofNat 2 (crsPos s) ∧ t.crs.heard = true)) ∧
  (∀ (who : Who) (s : State),
    (Takes s who .ownCourseCmd 3 → crsIsMaster s = false → exec (.courseReform who) s = .next s) ∧
    (Takes s who .ownCourseCmd 3 → crsIsMaster s = true → ∃ t, exec (.courseReform who) s = .next t ∧ t.crs.role = s.crs.role ∧
      t.crs.forming = s.crs.forming + 1 ∧ bitOf t.evPend gCrsState = true ∧ Only ([.sch, .tiles, .ces, .es, .rbgs, .crs, .free] ++ recordParts) s t) ∧
    (Takes s who .ownCourseCmd 4 → crsRole s = roStandalone → exec (.courseLeave who) s = .next s) ∧
    (Takes s who .ownCourseCmd 4 → crsRole s ≠ roStandalone → ∃ t, exec (.courseLeave who) s = .next t ∧ bitOf t.evPend gCrsState = true ∧
      t.crs.role = 0 ∧ t.crs.laneUp = 0 ∧ t.crs.newKey = [] ∧ t.crs.peers = [] ∧ t.crs.blocks = [] ∧ t.crs.mirror = [] ∧ t.crs.queue = [] ∧
      Only [.notice, .tens, .sch, .reqs, .tiles, .streams, .ks, .fp, .jrn, .evPend, .pviol, .pvcnt, .crs, .out] s t)) ∧
  (∀ (lane : Fin 2) (f : Bytes) (s : State),
    let p : Fin 4 := Fin.ofNat 4 (byteAt f 0 / 4)
    let bit := byteAt f 0 / 16 % 2
    let q := s.peer p.val
    let len := leAt f 2 2
    let on := s.start.serving = true ∧ crsRole s ≠ roStandalone ∧ s.crs.laneUp.toNat.testBit lane.val = true
    let here := byteAt f 0 % 4 = crsPos s ∧ f.length = 32 + len ∧ len ≤ 1024 ∧ p.val ∈ crsOthers s
    let opens := q.gkey ≠ [] ∧ leAt f 4 4 = q.epoch ∧
      aeadOpens 0x19 (frameKey q.gkey (leAt f 4 4) p.val) (frameNonce p.val bit (leAt f 8 8)) (f.take 16) (f.drop 16) = true
    let bad : Prop := ∃ t, exec (.courseFrameReceive lane f) s = .next t ∧ Only [.notice, .jrn, .evPend, .pviol, .pvcnt, .crs, .out] s t ∧
      t.crs = { s.crs with bad := s.crs.bad.bump } ∧ bitOf t.evPend gCrsFrameBad = true ∧ t.jrn.seq = s.jrn.seq + 1
    (¬on → exec (.courseFrameReceive lane f) s = .next s) ∧
    (on → byteAt f 0 % 4 ≠ crsPos s → exec (.courseFrameReceive lane f) s = .next (emit (.frame lane.val f) s)) ∧
    (on → byteAt f 0 % 4 = crsPos s → ¬here → exec (.courseFrameReceive lane f) s = .next s) ∧
    (on → here → byteAt f 1 = ftHello → exec (.courseFrameReceive lane f) s = exec (.courseHello p ⟨(f.drop 16).take len⟩) s) ∧
    (on → here → byteAt f 1 = ftGroup → exec (.courseFrameReceive lane f) s = exec (.courseGroup p ((f.drop 16).take len)) s) ∧
    (on → here → clearType (byteAt f 1) = false → ¬opens → bad) ∧
    (on → here → clearType (byteAt f 1) = false → opens → leAt f 8 8 ≤ (if bit = 0 then q.cntA else q.cntB) → bad) ∧
    (on → here → byteAt f 1 = ftBeat → opens → (if bit = 0 then q.cntA else q.cntB) < leAt f 8 8 → q.silent = false →
      q.role ≠ roMaster ∨ crsRole s ≠ roMaster ∧ s.crs.heard = true ∧ s.crs.master.toNat = p.val →
      ∃ t, exec (.courseFrameReceive lane f) s = .next t ∧ Only [.crs] s t ∧ t.peer p.val = { q with
        cntA := if bit = 0 then leAt f 8 8 else q.cntA, cntB := if bit = 0 then q.cntB else leAt f 8 8 } ∧
        ∀ r, r ≠ p.val → t.peer r = s.peer r) ∧
    (on → here → byteAt f 1 = ftBeat → opens → (if bit = 0 then q.cntA else q.cntB) < leAt f 8 8 → q.role = roMaster → crsRole s = roMaster →
      (p.val < crsPos s → ∃ t, exec (.courseFrameReceive lane f) s = .next t ∧ t.crs.role = BitVec.ofNat 2 roElect ∧ t.crs.master = BitVec.ofNat 2 p.val ∧
        bitOf t.evPend gCrsState = true) ∧
      (crsPos s ≤ p.val → ∃ t, exec (.courseFrameReceive lane f) s = .next t ∧ t.crs.role = s.crs.role)))

/-- O59. What a course shares (R456 to R465): a block asked for is mirrored first where an elect is in the course, else granted at once: NEXT rises by the
block and a record says so; the elect keeps the mirrored value and acknowledges; the last acknowledgement makes the grant; a granted block is stored;
SLOT_BANK puts the bank that opens under the wrap key into the member's slot, to be verified, and waits while a supply warning lasts; a request forwarded, taken into
the queue behind the rings, returned, or recalled moves the course counters by one and its credit, which goes by the request's number; a silent peer is flagged and recorded; an elect whose master is silent takes over, and another's takeover is
followed; a frame that only a master sends tells of a second master as HELLO does; SNAP copies the counters.
What the model chose or read where the spec is open: log entries 16 and 17. -/
def Obligations.CourseShares : Prop :=
  (∀ (p : Nat) (s : State),
    let u := hearMaster p s
    Only ([.sch, .tiles, .ces, .es, .rbgs, .crs, .free] ++ recordParts) s u ∧
    (p ∉ crsOthers s ∨ (crsRole s = roMaster ∧ crsPos s ≤ p) ∨ (crsRole s ≠ roMaster ∧ s.crs.heard = true ∧ s.crs.master.toNat = p) ∨
      (crsRole s ≠ roMaster ∧ keepsMaster p 1 s = true) → u = s) ∧
    (p ∈ crsOthers s → crsRole s = roMaster → p < crsPos s → u.crs.role = BitVec.ofNat 2 roElect ∧ u.crs.master = BitVec.ofNat 2 p ∧
      u.crs.grants = [] ∧ bitOf u.evPend gCrsState = true) ∧
    (p ∈ crsOthers s → crsRole s ≠ roMaster → ¬(s.crs.heard = true ∧ s.crs.master.toNat = p) → keepsMaster p 1 s = false →
      Only [.crs] s u ∧ u.crs = { s.crs with master := BitVec.ofNat 2 p, heard := true, took := false })) ∧
  (∀ (p : Fin 4) (b : Bytes) (s : State),
    let u := hearMaster p.val s
    (fromMaster u p.val = false → exec (.blockGrant p b) s = .next u) ∧
    (fromMaster u p.val = true → ∃ t, exec (.blockGrant p b) s = .next t ∧ Only [.crs] u t ∧
      blocksOf t (bankOfPayload b) = blocksOf u (bankOfPayload b) ++ [(leAt b 3 8, leAt b 11 8)] ∧
      (∀ j, j ≠ bankOfPayload b → blocksOf t j = blocksOf u j) ∧ bankOfPayload b ∉ t.crs.asked)) ∧
  (∀ (p : Fin 4) (b : Bytes) (s : State),
    let k := bankOfPayload b
    let room := courseBank s k = true ∧ blockEnd s k ≠ bankNext s k
    let heard := asMaster s p.val = true ∧ (s.peer p.val).silent = false
    let v := if k % 2 = 1 then (s.slot (k / 2)).bankB else (s.slot (k / 2)).bankA
    let records : BitVec 16 := if v.soft.toNat < blockEnd s k ∧ v.softHit = false then 2 else 1
    (¬heard ∨ ¬room → exec (.blockReq p b) s = .next s) ∧
    (heard → room → p.val ≠ crsPos s → s.crs.grants.any (fun g => decide (g.2.1 = k)) = false → electPeers s = [] →
      ∃ t, exec (.blockReq p b) s = .next t ∧ Only [.notice, .tens, .ks, .jrn, .evPend, .pviol, .pvcnt, .crs, .out] s t ∧
        bankNext t k = blockEnd s k ∧ t.jrn.seq = s.jrn.seq + records ∧ t.crs.blocks = s.crs.blocks) ∧
    (heard → room → p.val ≠ crsPos s → s.crs.grants.any (fun g => decide (g.2.1 = k)) = false → electPeers s ≠ [] →
      ∃ t, exec (.blockReq p b) s = .next t ∧ Only [.crs, .out] s t ∧ t.crs.grants = s.crs.grants ++ [(p.val, k, electPeers s)] ∧
        t.out.length = s.out.length + (electPeers s).length) ∧
    (heard → room → p.val ≠ crsPos s → s.crs.grants.any (fun g => decide (g.2.1 = k)) = true →
      exec (.blockReq p b) s = .next (modCrs (fun c => { c with grants := c.grants ++ [(p.val, k, [])] }) s))) ∧
  (∀ (p : Fin 4) (b : Bytes) (s : State),
    let u := hearMaster p.val s
    let mine := fromMaster u p.val = true ∧ crsRole u = roElect
    (¬mine → exec (.ctrSync p b) s = .next u) ∧
    (mine → ∃ t, exec (.ctrSync p b) s = .next t ∧ Only [.crs, .out] u t ∧ t.crs.mirror = u.crs.mirror.put 0 (bankOfPayload b) (leAt b 3 8) ∧
      t.out.length = u.out.length + 1 ∧ t.crs.blocks = u.crs.blocks)) ∧
  (∀ (p : Fin 4) (b : Bytes) (s : State),
    let k := bankOfPayload b
    let first := s.crs.grants.find? (fun g => decide (g.2.1 = k))
    let v := if k % 2 = 1 then (s.slot (k / 2)).bankB else (s.slot (k / 2)).bankA
    let records : BitVec 16 := if v.soft.toNat < blockEnd s k ∧ v.softHit = false then 2 else 1
    (asMaster s p.val = false ∨ first = none → exec (.ctrAck p b) s = .next s) ∧
    (∀ g, asMaster s p.val = true → first = some g → p.val ∉ g.2.2 → exec (.ctrAck p b) s = .next s) ∧
    (∀ g, asMaster s p.val = true → first = some g → p.val ∈ g.2.2 → (∃ q, q ∈ g.2.2 ∧ q ≠ p.val) → ∃ t, exec (.ctrAck p b) s = .next t ∧ Only [.crs] s t ∧
      (g.1, k, g.2.2.filter (· ≠ p.val)) ∈ t.crs.grants ∧ t.crs.blocks = s.crs.blocks) ∧
    (∀ g, asMaster s p.val = true → first = some g → g.2.2 = [p.val] → s.crs.grants.filter (fun g => decide (g.2.1 = k)) = [g] → goneFrom s g.1 = false →
      ∃ t, exec (.ctrAck p b) s = .next t ∧ Only [.notice, .tens, .ks, .jrn, .evPend, .pviol, .pvcnt, .crs, .out] s t ∧ bankNext t k = blockEnd s k ∧
        t.jrn.seq = s.jrn.seq + records ∧ t.crs.grants = s.crs.grants.filter (fun q => decide (q.2.1 ≠ k)))) ∧
  (∀ (p : Fin 4) (b : Bytes) (s : State),
    let x := leAt b 0 2 % 2048
    let bank := decide (byteAt b 2 % 2 = 1)
    let u := hearMaster p.val s
    let wk := wrapKey (u.peer p.val).gkey (u.peer p.val).epoch
    let due := fromMaster u p.val = true ∧ courseSlot u x = true ∧ (u.slot x).verify = false
    let prep := fun (k : Nat) => { u.sch with nextId := u.sch.nextId + 1, jobs := u.sch.jobs ++ [{ id := u.sch.nextId, kind := k, work := .slot x }] }
    (u.sup.active = true → exec (.slotBank p b) s = .next (modKs (fun k => { k with deferred := k.deferred ++ [.blob p.val b] }) u)) ∧
    (u.sup.active = false → (¬due ∨ blobOpen wk (b.drop 11) = none) → exec (.slotBank p b) s = .next u) ∧
    (∀ m, u.sup.active = false → due → blobOpen wk (b.drop 11) = some m → ∃ t, exec (.slotBank p b) s = .next t ∧ Only [.sch, .ks] u t ∧ (t.slot x).verify = true ∧
      (if bank then (t.slot x).bankB else (t.slot x).bankA) = { material := m, attr := blobAttr (b.drop 11), soft := BitVec.ofNat 64 (leAt b 3 8) } ∧
      (∀ y, y ≠ x → t.slot y = u.slot y) ∧
      t.sch = (if aClass (blobAttr (b.drop 11)) = 4 ∨ aClass (blobAttr (b.drop 11)) = 5 then prep 2 else if aClass (blobAttr (b.drop 11)) = 0x17 then prep 3 else u.sch))) ∧
  (∀ (id : Nat) (p : Fin 4) (r : Req) (s : State), s.req id = some r →
    let due := tilesOpen s = true ∧ crsIsMaster s = true ∧ eligible s r = true ∧ mustForward s r = true ∧ nextMember s = some p.val
    (¬due → exec (.courseForward id p) s = .next s) ∧
    (due → ∃ t, exec (.courseForward id p) s = .next t ∧ Only [.reqs, .crs, .out, .free] s t ∧ t.req id = some { r with fwd := some p } ∧
      t.crs.cnt = { s.crs.cnt with fwdOut := s.crs.cnt.fwdOut + 1, fwdOpen := s.crs.cnt.fwdOpen + 1 } ∧ t.crs.lastFwd = p.val ∧
      (t.peer p.val).owed = (s.peer p.val).owed ++ [id])) ∧
  (∀ (p : Fin 4) (b : Bytes) (s : State),
    let u := hearMaster p.val s
    let due := fromMaster u p.val = true ∧ (u.peer p.val).credits < crsCredits u
    (¬due → exec (.fwdReq p b) s = .next u) ∧
    (due → ∃ t, exec (.fwdReq p b) s = .next t ∧ Only [.crs] u t ∧ t.crs.queue = u.crs.queue ++ [foreignReq u p b] ∧
      t.crs.cnt = { u.crs.cnt with fwdIn := u.crs.cnt.fwdIn + 1, fwdRun := u.crs.cnt.fwdRun + 1 } ∧
      (t.peer p.val).owed = (u.peer p.val).owed ++ [leAt b 0 4])) ∧
  (∀ (p : Fin 4) (b : Bytes) (r : Req) (s : State), s.req (leAt b 0 4) = some r →
    (r.fwd ≠ some p → exec (.fwdResult p b) s = .next s) ∧
    (r.fwd = some p → 1 < byteAt b 4 → ∃ t, exec (.fwdResult p b) s = .next t ∧
      t.crs.cnt = { s.crs.cnt with fwdBack := s.crs.cnt.fwdBack + 1, fwdOpen := s.crs.cnt.fwdOpen - 1 } ∧
      EndedWith t (leAt b 0 4) r ⟨BitVec.ofNat 8 (byteAt b 4), BitVec.ofNat 8 (byteAt b 5), byteAt b 6⟩)) ∧
  (∀ (p : Fin 4) (b : Bytes) (s : State),
    let n := leAt b 0 4
    let waits := s.crs.queue.any (fun r => r.isForeign p.val n) = true
    let gone (t : State) : Prop := t.crs.cnt = { s.crs.cnt with fwdDrop := s.crs.cnt.fwdDrop + 1, fwdRun := s.crs.cnt.fwdRun - 1 } ∧
      (t.peer p.val).owed = (s.peer p.val).owed.erase n ∧ t.out.length = s.out.length + 1
    (foreignOf s p.val n = none → ¬waits → exec (.fwdCancel p b) s = .next s) ∧
    (foreignOf s p.val n = none → waits → ∃ t, exec (.fwdCancel p b) s = .next t ∧ Only [.crs, .out] s t ∧ gone t ∧
      t.crs.queue = s.crs.queue.filter (fun r => !r.isForeign p.val n)) ∧
    (∀ r, foreignOf s p.val n = some r → ∃ t, exec (.fwdCancel p b) s = .next t ∧ Only [.reqs, .tiles, .ks, .crs, .out] s t ∧ gone t ∧ t.req r.id = none ∧
      t.crs.queue = s.crs.queue)) ∧
  (∀ (p : Fin 4) (b : Bytes) (s : State),
    (asMaster s p.val = false → exec (.credit p b) s = .next s) ∧
    (asMaster s p.val = true → ∃ t, exec (.credit p b) s = .next t ∧ Only [.crs] s t ∧
      t.peer p.val = { s.peer p.val with owed := (s.peer p.val).owed.filter (fun n => decide (n ∉ creditNumbers b)) } ∧
      ∀ q, q ≠ p.val → t.peer q = s.peer q)) ∧
  (∀ (p : Fin 4) (s : State),
    ((s.peer p.val).formed = false ∨ (s.peer p.val).silent = true → exec (.coursePeerSilent p) s = .next s) ∧
    ((s.peer p.val).formed = true → (s.peer p.val).silent = false → ∃ t, exec (.coursePeerSilent p) s = .next t ∧ t.crs.role = s.crs.role ∧
      (t.peer p.val).silent = true ∧ (t.peer p.val).owed = [] ∧ bitOf t.evPend gCrsSilent = true)) ∧
  (∀ (p : Fin 4) (b : Bytes) (s : State),
    let m := s.peer s.crs.master.toNat
    let own := crsRole s = roElect ∧ m.formed = true ∧ m.silent = true
    let other := crsRole s ≠ roStandalone ∧ p.val ∈ crsOthers s ∧ (s.peer p.val).gkey ≠ []
    (p.val = crsPos s → ¬own → exec (.takeover p b) s = .next s) ∧
    (p.val = crsPos s → own → ∃ t, exec (.takeover p b) s = .next t ∧ Only [.notice, .tens, .ks, .jrn, .evPend, .pviol, .pvcnt, .crs, .out] s t ∧
      t.crs.role = BitVec.ofNat 2 roMaster ∧ t.crs.master = BitVec.ofNat 2 (crsPos s) ∧ t.crs.newKey = m.gkey ∧ bitOf t.evPend gCrsTakeover = true) ∧
    (p.val ≠ crsPos s → ¬other → exec (.takeover p b) s = .next s) ∧
    (p.val ≠ crsPos s → other → crsRole s ≠ roMaster → keepsMaster p.val 2 s = false → ∃ t, exec (.takeover p b) s = .next t ∧
      t.crs.role = s.crs.role ∧ t.crs.master = BitVec.ofNat 2 p.val ∧ (t.peer p.val).formed = true ∧ (t.peer p.val).silent = false) ∧
    (p.val ≠ crsPos s → other → crsRole s = roMaster → p.val < crsPos s → ∃ t, exec (.takeover p b) s = .next t ∧
      t.crs.role = BitVec.ofNat 2 roElect ∧ t.crs.master = BitVec.ofNat 2 p.val ∧ bitOf t.evPend gCrsState = true) ∧
    (p.val ≠ crsPos s → other → (crsRole s = roMaster ∧ crsPos s < p.val) ∨ (crsRole s ≠ roMaster ∧ keepsMaster p.val 2 s = true) →
      exec (.takeover p b) s = .next s)) ∧
  (∀ (who : Who) (s : State), Takes s who .crsCtl 1 → ∃ t, exec (.crsSnap who) s = .next t ∧ Only [.crs] s t ∧ t.crs = { s.crs with snap := s.crs.cnt })

/-- O60. The boot ring (R472 to R478): the poll of the slot at the head keeps the boot slot once its SEQ is the expected one, with the slots of its
entry behind it for a REQUEST; a REQUEST is admitted in ring order, at most 4 at once, as an EXPEDITE request of the privileged master, a paired one only while two healthy tiles
of its kind are free; an unknown
kind or a reserved field that is set is answered UNSUPPORTED 0x02; an EXTEND is taken after every earlier entry, extends M0 while the claim window
is open, and is answered UNSUPPORTED 0x91 after it; EN = 0 stops the reading, and the ring is OFF once no request is left.
What the model chose or read where the spec is open: log entries 6 and 23. -/
def Obligations.BootRing : Prop :=
  (∀ (resp : Resp) (s : State),
    let a := s.boot.slotAddr s.boot.head
    let due := s.boot.st = .polling ∧ s.boot.slot = [] ∧ s.ret.req = false ∧ s.ret.asleep = false
    let rest (b : Bytes) := (List.range (bootSpan b - 1)).map (fun j => s.boot.head + 1 + j)
    (¬due → exec (.bootSlotPoll resp) s = .next s) ∧
    (due → bootReads s [s.boot.head] ≠ none → ∃ t, exec (.bootSlotPoll resp) s = .next t ∧ Only [.evPend, .pviol, .pvcnt] s t) ∧
    (due → bootReads s [s.boot.head] = none → resp = .err → ∃ t, exec (.bootSlotPoll resp) s = .next t ∧ t.boot = s.boot ∧ t.jrn.seq = s.jrn.seq + 1) ∧
    (∀ d, due → bootReads s [s.boot.head] = none → resp = .ok d →
      let b := fit 32 d ++ d.drop 32
      (leAt b 0 2 ≠ s.boot.seq → exec (.bootSlotPoll resp) s = .next (emitRd a 32 s)) ∧
      (leAt b 0 2 = s.boot.seq → bootKind b ≠ 1 → ∃ t, exec (.bootSlotPoll resp) s = .next t ∧ Only [.boot, .out] s t ∧
        t.boot = { s.boot with slot := fit 32 d } ∧ t.out = (emitRd a 32 s).out) ∧
      (leAt b 0 2 = s.boot.seq → bootKind b = 1 → bootReads s (rest b) = none → ∃ t, exec (.bootSlotPoll resp) s = .next t ∧ Only [.boot, .out] s t ∧
        t.boot = { s.boot with slot := fit (32 * bootSpan b) b }) ∧
      (leAt b 0 2 = s.boot.seq → bootKind b = 1 → bootReads s (rest b) ≠ none → ∃ t, exec (.bootSlotPoll resp) s = .next t ∧
        Only [.evPend, .pviol, .pvcnt, .out] s t))) ∧
  (∀ (s : State),
    let due := bootAdmits s = true ∧ s.boot.inflight.toNat < 4 ∧ (bootKind s.boot.slot ≠ 2 ∨ bootClean s.boot.slot = false)
    (¬due → exec .bootRequest s = .next s) ∧
    (due → (bootKind s.boot.slot ≠ 1 ∨ bootClean s.boot.slot = false) → ∃ t, exec .bootRequest s = .next t ∧ BootAnswered s s t stUnsupported 2 0) ∧
    (due → bootKind s.boot.slot = 1 → bootClean s.boot.slot = true → freeCs s 1 = none → exec .bootRequest s = .next s) ∧
    (∀ cs, due → bootKind s.boot.slot = 1 → bootClean s.boot.slot = true → freeCs s 1 = some cs →
      bootPaired s.boot = true → pairFits s (s.boot.slot.drop 32) = false → exec .bootRequest s = .next s) ∧
    (∀ cs, due → bootKind s.boot.slot = 1 → bootClean s.boot.slot = true → freeCs s 1 = some cs →
      bootPaired s.boot = false ∨ pairFits s (s.boot.slot.drop 32) = true →
      ∃ t r, exec .bootRequest s = .next t ∧ Only [.sch, .reqs, .boot] s t ∧ t.reqs = s.reqs ++ [r] ∧ r.id = s.sch.nextId ∧ r.origin = .boot s.boot.head ∧
        r.cls = 1 ∧ r.gen = s.gen.active ∧ r.cs = cs ∧ r.entry = s.boot.slot.drop 32 ∧ r.paired = bootPaired s.boot ∧ t.boot = { s.boot with
          head := (s.boot.head + bootSpan s.boot.slot) % (2 * s.boot.slots), seq := nextSeq s.boot.seq, slot := []
          admitted := s.boot.admitted + 1, inflight := s.boot.inflight + 1 })) ∧
  (∀ (resp : Resp) (s : State),
    let x := leAt s.boot.slot 8 6
    let due := bootAdmits s = true ∧ bootKind s.boot.slot = 2 ∧ bootClean s.boot.slot = true ∧ s.boot.inflight = 0 ∧ (freeCs s 1).isSome = true
    let bad := check s s.gen.act none .secure .read x 48
    (¬due → exec (.bootExtend resp) s = .next s) ∧
    (due → s.owner.st ≠ .claimOpen → ∃ t, exec (.bootExtend resp) s = .next t ∧ t.meas = s.meas ∧ BootAnswered s s t stUnsupported 0x91 0) ∧
    (due → s.owner.st = .claimOpen → bad ≠ none → ∃ t, exec (.bootExtend resp) s = .next t ∧ t.meas = s.meas ∧ BootAnswered s s t stAccess 1 0) ∧
    (due → s.owner.st = .claimOpen → bad = none → resp = .err → ∃ t, exec (.bootExtend resp) s = .next t ∧ t.meas = s.meas ∧ t.boot.head = (s.boot.head + bootSpan s.boot.slot) % (2 * s.boot.slots) ∧
      t.boot.completed = s.boot.completed + 1 ∧ t.boot.inflight = s.boot.inflight) ∧
    (∀ d, due → s.owner.st = .claimOpen → bad = none → resp = .ok d → extendRefused s 0 = false → s.sup.active = false →
      ∃ t, exec (.bootExtend resp) s = .next t ∧ BootAnswered s (emitRd x 48 s) t stDone 0 48 ∧
        t.meas = { s.meas with vals := s.meas.vals.put [] 0 (sha384 (measVal s 0 ++ fit 48 d)), cnt := s.meas.cnt.put 0 0 (measCnt s 0 + 1) })) ∧
  (∀ (who : Who) (s : State), Takes s who .ownBoot 0 →
    ∃ t, exec (.bootEnClear who) s = .next t ∧ Only [.own, .boot] s t ∧ t.own = { s.own with boot := 0 } ∧
      (s.boot.st ≠ .polling → t.boot = s.boot) ∧
      (s.boot.st = .polling → t.boot = { s.boot with st := if s.boot.inflight = 0 then .off else .draining, slot := [] }))
end

