-- ==== Sys2Proof/Laws/Frame.lean ====
section
/-!
SUPPORT. Frames: each accessor changes its own part of the state alone, and frames compose. One lemma per shared operation follows in
the Frame files, named Only.<operation>: the parts that it may change, whatever it is applied to.
-/

set_option Elab.async false

namespace Sys2Proof.Machine

variable {A : List Part} {s0 s : State}

theorem Only.refl (A : List Part) (s : State) : Only A s s := ⟨rfl, fun p _ => by cases p <;> rfl⟩

theorem Only.mono {B : List Part} {t : State} (h : Only A s t) (hAB : A ⊆ B) : Only B s t :=
  ⟨h.1, fun p hp => h.2 p (fun ha => hp (hAB ha))⟩

theorem Part.same_trans {p : Part} {t u : State} (h : p.same s t) (g : p.same t u) : p.same s u := by
  cases p <;> exact Eq.trans g h

theorem Only.trans {t u : State} (h : Only A s t) (g : Only A t u) : Only A s u :=
  ⟨g.1.trans h.1, fun p hp => Part.same_trans (h.2 p hp) (g.2 p hp)⟩

theorem Only.idS (h : Only A s0 s) : Only A s0 (id s) := h

theorem Only.ite {c : Prop} [Decidable c] {a b : State} (ha : c → Only A s0 a) (hb : ¬c → Only A s0 b) :
    Only A s0 (if c then a else b) := by
  by_cases h : c
  · rw [if_pos h]; exact ha h
  · rw [if_neg h]; exact hb h

theorem Only.whenS {b : Bool} {f : State → State} (h : Only A s0 s) (hf : b = true → ∀ s, Only A s0 s → Only A s0 (f s)) :
    Only A s0 (Machine.whenS b f s) := by
  unfold Machine.whenS
  split
  · next e => exact hf e s h
  · exact h

theorem Only.withReq {id : Nat} {f : Req → State → State} (h : Only A s0 s) (hf : ∀ r s, Only A s0 s → Only A s0 (f r s)) :
    Only A s0 (Machine.withReq id f s) := by
  unfold Machine.withReq
  split
  · exact hf _ s h
  · exact h

theorem Only.foldl {α : Type} {f : State → α → State} (l : List α) (h : Only A s0 s) (hf : ∀ s a, Only A s0 s → Only A s0 (f s a)) :
    Only A s0 (l.foldl f s) := by
  induction l generalizing s with
  | nil => exact h
  | cons a t ih => exact ih (hf s a h)

theorem Only.eachN {f : Nat → State → State} (l : List Nat) (h : Only A s0 s) (hf : ∀ i s, Only A s0 s → Only A s0 (f i s)) :
    Only A s0 (Machine.eachN l f s) := Only.foldl l h (fun s i hs => hf i s hs)

/-- An update that leaves every part but one as it is. -/
theorem Only.set {t : State} (p : Part) (hA : [p] ⊆ A) (h : Only A s0 s) (hp : t.pending = s.pending) (hq : ∀ q, q ≠ p → q.same s t) :
    Only A s0 t :=
  h.trans ⟨hp, fun q hn => hq q (fun e => hn (hA (by simp [e])))⟩

theorem Only.modTen (n f) (hA : [.tens] ⊆ A) (h : Only A s0 s) : Only A s0 (Machine.modTen n f s) :=
  Only.set .tens hA h rfl (fun q hq => by cases q <;> first | rfl | exact absurd rfl hq)

theorem Only.modSq (n m f) (hA : [.sqs] ⊆ A) (h : Only A s0 s) : Only A s0 (Machine.modSq n m f s) :=
  Only.set .sqs hA h rfl (fun q hq => by cases q <;> first | rfl | exact absurd rfl hq)

theorem Only.modCq (n m f) (hA : [.cqs] ⊆ A) (h : Only A s0 s) : Only A s0 (Machine.modCq n m f s) :=
  Only.set .cqs hA h rfl (fun q hq => by cases q <;> first | rfl | exact absurd rfl hq)

theorem Only.modDc (k f) (hA : [.dcs] ⊆ A) (h : Only A s0 s) : Only A s0 (Machine.modDc k f s) :=
  Only.set .dcs hA h rfl (fun q hq => by cases q <;> first | rfl | exact absurd rfl hq)

theorem Only.modTile (t f) (hA : [.tiles] ⊆ A) (h : Only A s0 s) : Only A s0 (Machine.modTile t f s) :=
  Only.set .tiles hA h rfl (fun q hq => by cases q <;> first | rfl | exact absurd rfl hq)

theorem Only.setCs (c v) (hA : [.css] ⊆ A) (h : Only A s0 s) : Only A s0 (Machine.setCs c v s) :=
  Only.set .css hA h rfl (fun q hq => by cases q <;> first | rfl | exact absurd rfl hq)

theorem Only.modKs (f) (hA : [.ks] ⊆ A) (h : Only A s0 s) : Only A s0 (Machine.modKs f s) :=
  Only.set .ks hA h rfl (fun q hq => by cases q <;> first | rfl | exact absurd rfl hq)

theorem Only.modSlot (x f) (hA : [.ks] ⊆ A) (h : Only A s0 s) : Only A s0 (Machine.modSlot x f s) :=
  Only.set .ks hA h rfl (fun q hq => by cases q <;> first | rfl | exact absurd rfl hq)

theorem Only.modRbg (k f) (hA : [.rbgs] ⊆ A) (h : Only A s0 s) : Only A s0 (Machine.modRbg k f s) :=
  Only.set .rbgs hA h rfl (fun q hq => by cases q <;> first | rfl | exact absurd rfl hq)

theorem Only.setStream (i v) (hA : [.streams] ⊆ A) (h : Only A s0 s) : Only A s0 (Machine.setStream i v s) :=
  Only.set .streams hA h rfl (fun q hq => by cases q <;> first | rfl | exact absurd rfl hq)

theorem Only.setCacheEnt (h' v) (hA : [.ks] ⊆ A) (h : Only A s0 s) : Only A s0 (Machine.setCacheEnt h' v s) :=
  Only.set .ks hA h rfl (fun q hq => by cases q <;> first | rfl | exact absurd rfl hq)

theorem Only.modCrs (f) (hA : [.crs] ⊆ A) (h : Only A s0 s) : Only A s0 (Machine.modCrs f s) :=
  Only.set .crs hA h rfl (fun q hq => by cases q <;> first | rfl | exact absurd rfl hq)

theorem Only.modPeer (p f) (hA : [.crs] ⊆ A) (h : Only A s0 s) : Only A s0 (Machine.modPeer p f s) :=
  Only.set .crs hA h rfl (fun q hq => by cases q <;> first | rfl | exact absurd rfl hq)

theorem Only.modTcmp (j f) (hA : [.own] ⊆ A) (h : Only A s0 s) : Only A s0 (Machine.modTcmp j f s) :=
  Only.set .own hA h rfl (fun q hq => by cases q <;> first | rfl | exact absurd rfl hq)

theorem Only.modJrn (f) (hA : [.jrn] ⊆ A) (h : Only A s0 s) : Only A s0 (Machine.modJrn f s) :=
  Only.set .jrn hA h rfl (fun q hq => by cases q <;> first | rfl | exact absurd rfl hq)

theorem Only.modTime (f) (hA : [.time] ⊆ A) (h : Only A s0 s) : Only A s0 (Machine.modTime f s) :=
  Only.set .time hA h rfl (fun q hq => by cases q <;> first | rfl | exact absurd rfl hq)

theorem Only.modClk (f) (hA : [.clk] ⊆ A) (h : Only A s0 s) : Only A s0 (Machine.modClk f s) :=
  Only.set .clk hA h rfl (fun q hq => by cases q <;> first | rfl | exact absurd rfl hq)

theorem Only.modStart (f) (hA : [.start] ⊆ A) (h : Only A s0 s) : Only A s0 (Machine.modStart f s) :=
  Only.set .start hA h rfl (fun q hq => by cases q <;> first | rfl | exact absurd rfl hq)

theorem Only.modOwner (f) (hA : [.owner] ⊆ A) (h : Only A s0 s) : Only A s0 (Machine.modOwner f s) :=
  Only.set .owner hA h rfl (fun q hq => by cases q <;> first | rfl | exact absurd rfl hq)

theorem Only.modMeas (f) (hA : [.meas] ⊆ A) (h : Only A s0 s) : Only A s0 (Machine.modMeas f s) :=
  Only.set .meas hA h rfl (fun q hq => by cases q <;> first | rfl | exact absurd rfl hq)

theorem Only.modEs (f) (hA : [.es] ⊆ A) (h : Only A s0 s) : Only A s0 (Machine.modEs f s) :=
  Only.set .es hA h rfl (fun q hq => by cases q <;> first | rfl | exact absurd rfl hq)

theorem Only.modBoot (f) (hA : [.boot] ⊆ A) (h : Only A s0 s) : Only A s0 (Machine.modBoot f s) :=
  Only.set .boot hA h rfl (fun q hq => by cases q <;> first | rfl | exact absurd rfl hq)

theorem Only.modFp (f) (hA : [.fp] ⊆ A) (h : Only A s0 s) : Only A s0 (Machine.modFp f s) :=
  Only.set .fp hA h rfl (fun q hq => by cases q <;> first | rfl | exact absurd rfl hq)

theorem Only.modSup (f) (hA : [.sup] ⊆ A) (h : Only A s0 s) : Only A s0 (Machine.modSup f s) :=
  Only.set .sup hA h rfl (fun q hq => by cases q <;> first | rfl | exact absurd rfl hq)

theorem Only.modSch (f) (hA : [.sch] ⊆ A) (h : Only A s0 s) : Only A s0 (Machine.modSch f s) :=
  Only.set .sch hA h rfl (fun q hq => by cases q <;> first | rfl | exact absurd rfl hq)

theorem Only.modReq (id f) (hA : [.reqs] ⊆ A) (h : Only A s0 s) : Only A s0 (Machine.modReq id f s) :=
  Only.set .reqs hA h rfl (fun q hq => by cases q <;> first | rfl | exact absurd rfl hq)

theorem Only.dropReq (id) (hA : [.reqs] ⊆ A) (h : Only A s0 s) : Only A s0 (Machine.dropReq id s) :=
  Only.set .reqs hA h rfl (fun q hq => by cases q <;> first | rfl | exact absurd rfl hq)

theorem Only.emit (o) (hA : [.out] ⊆ A) (h : Only A s0 s) : Only A s0 (Machine.emit o s) :=
  Only.set .out hA h rfl (fun q hq => by cases q <;> first | rfl | exact absurd rfl hq)

theorem Only.nextFree  (hA : [.free] ⊆ A) (h : Only A s0 s) : Only A s0 (Machine.nextFree s) :=
  Only.set .free hA h rfl (fun q hq => by cases q <;> first | rfl | exact absurd rfl hq)

theorem Only.modRoots (f) (hA : [.roots] ⊆ A) (h : Only A s0 s) : Only A s0 (Machine.modRoots f s) :=
  Only.set .roots hA h rfl (fun q hq => by cases q <;> first | rfl | exact absurd rfl hq)

theorem Only.modIdent (f) (hA : [.ident] ⊆ A) (h : Only A s0 s) : Only A s0 (Machine.modIdent f s) :=
  Only.set .ident hA h rfl (fun q hq => by cases q <;> first | rfl | exact absurd rfl hq)

theorem Only.modRet (f) (hA : [.ret] ⊆ A) (h : Only A s0 s) : Only A s0 (Machine.modRet f s) :=
  Only.set .ret hA h rfl (fun q hq => by cases q <;> first | rfl | exact absurd rfl hq)

theorem Only.modDenied (f) (hA : [.denied] ⊆ A) (h : Only A s0 s) : Only A s0 (Machine.modDenied f s) :=
  Only.set .denied hA h rfl (fun q hq => by cases q <;> first | rfl | exact absurd rfl hq)

theorem Only.modEvPend (f) (hA : [.evPend] ⊆ A) (h : Only A s0 s) : Only A s0 (Machine.modEvPend f s) :=
  Only.set .evPend hA h rfl (fun q hq => by cases q <;> first | rfl | exact absurd rfl hq)

theorem Only.modBuserr (f) (hA : [.buserr] ⊆ A) (h : Only A s0 s) : Only A s0 (Machine.modBuserr f s) :=
  Only.set .buserr hA h rfl (fun q hq => by cases q <;> first | rfl | exact absurd rfl hq)

theorem Only.modBecnt (f) (hA : [.becnt] ⊆ A) (h : Only A s0 s) : Only A s0 (Machine.modBecnt f s) :=
  Only.set .becnt hA h rfl (fun q hq => by cases q <;> first | rfl | exact absurd rfl hq)

theorem Only.modPviol (f) (hA : [.pviol] ⊆ A) (h : Only A s0 s) : Only A s0 (Machine.modPviol f s) :=
  Only.set .pviol hA h rfl (fun q hq => by cases q <;> first | rfl | exact absurd rfl hq)

theorem Only.modPvcnt (f) (hA : [.pvcnt] ⊆ A) (h : Only A s0 s) : Only A s0 (Machine.modPvcnt f s) :=
  Only.set .pvcnt hA h rfl (fun q hq => by cases q <;> first | rfl | exact absurd rfl hq)

theorem Only.modSent (f) (hA : [.sent] ⊆ A) (h : Only A s0 s) : Only A s0 (Machine.modSent f s) :=
  Only.set .sent hA h rfl (fun q hq => by cases q <;> first | rfl | exact absurd rfl hq)

theorem Only.modReqs (f) (hA : [.reqs] ⊆ A) (h : Only A s0 s) : Only A s0 (Machine.modReqs f s) :=
  Only.set .reqs hA h rfl (fun q hq => by cases q <;> first | rfl | exact absurd rfl hq)

theorem Only.modHeld (f) (hA : [.heldWr] ⊆ A) (h : Only A s0 s) : Only A s0 (Machine.modHeld f s) :=
  Only.set .heldWr hA h rfl (fun q hq => by cases q <;> first | rfl | exact absurd rfl hq)

theorem Only.modLatch (f) (hA : [.latch] ⊆ A) (h : Only A s0 s) : Only A s0 (Machine.modLatch f s) :=
  Only.set .latch hA h rfl (fun q hq => by cases q <;> first | rfl | exact absurd rfl hq)

theorem Only.modCe (c f) (hA : [.ces] ⊆ A) (h : Only A s0 s) : Only A s0 (Machine.modCe c f s) :=
  Only.set .ces hA h rfl (fun q hq => by cases q <;> first | rfl | exact absurd rfl hq)

theorem Only.modNotice (f) (hA : [.notice] ⊆ A) (h : Only A s0 s) : Only A s0 (Machine.modNotice f s) :=
  Only.set .notice hA h rfl (fun q hq => by cases q <;> first | rfl | exact absurd rfl hq)

theorem Only.setAct (c) (hA : [.act] ⊆ A) (h : Only A s0 s) : Only A s0 (Machine.setAct c s) :=
  Only.set .act hA h rfl (fun q hq => by cases q <;> first | rfl | exact absurd rfl hq)

theorem Only.modOwn (f) (hA : [.own] ⊆ A) (h : Only A s0 s) (hf : ∀ o, (f o).notice = o.notice := by intro o; rfl) :
    Only A s0 (Machine.modOwn f s) :=
  Only.set .own hA h rfl (fun q hq => by cases q <;> first | rfl | exact absurd rfl hq | exact hf _)

theorem Only.modGen (f) (hA : [.gen] ⊆ A) (h : Only A s0 s) (hf : ∀ g, (f g).act = g.act := by intro g; rfl) :
    Only A s0 (Machine.modGen f s) :=
  Only.set .gen hA h rfl (fun q hq => by cases q <;> first | rfl | exact absurd rfl hq | exact hf _)

end Sys2Proof.Machine
end

