-- ==== Sys2Proof/Laws/FrameOps.lean ====
section
/-!
SUPPORT. Frames of the operations of Machine/Ops.lean: the parts of the state that each may change.
-/

set_option Elab.async false

namespace Sys2Proof.Machine

theorem Only.emitWr {A : List Part} {sB : State} (addr : Nat) (data : Bytes) (s : State) (hA : [.out] ⊆ A) (h : Only A sB s) : Only A sB (Machine.emitWr addr data s) := by
  unfold Machine.emitWr
  repeat' first
    | with_reducible assumption
    | intro _
    | with_reducible apply Only.emit (hA := List.Subset.trans (by decide) hA)
    | with_reducible apply Only.foldl

theorem Only.emitRd {A : List Part} {sB : State} (addr len : Nat) (s : State) (hA : [.out] ⊆ A) (h : Only A sB s) : Only A sB (Machine.emitRd addr len s) := by
  unfold Machine.emitRd
  repeat' first
    | with_reducible assumption
    | intro _
    | with_reducible apply Only.emit (hA := List.Subset.trans (by decide) hA)
    | with_reducible apply Only.foldl

theorem Only.emitRecord {A : List Part} {sB : State} (addr : Nat) (b : Bytes) (s : State) (hA : [.out] ⊆ A) (h : Only A sB s) : Only A sB (Machine.emitRecord addr b s) := by
  unfold Machine.emitRecord
  repeat' first
    | with_reducible assumption
    | with_reducible apply Only.emitWr (hA := List.Subset.trans (by decide) hA)

end Sys2Proof.Machine
end

