-- ==== Sys2Proof/Laws/FrameKeySpec.lean ====
section
/-!
SUPPORT. Frames of the operations of Machine/KeySpec.lean: the parts of the state that each may change.
-/

set_option Elab.async false

namespace Sys2Proof.Machine

theorem Only.sweepCache {A : List Part} {sB : State} (s : State) (hA : [.ks] ⊆ A) (h : Only A sB s) : Only A sB (Machine.sweepCache s) := by
  unfold Machine.sweepCache
  repeat' first
    | with_reducible assumption
    | with_reducible apply Only.modKs (hA := List.Subset.trans (by decide) hA)

theorem Only.retireReq {A : List Part} {sB : State} (id : Nat) (s : State) (hA : [.reqs, .ks] ⊆ A) (h : Only A sB s) : Only A sB (Machine.retireReq id s) := by
  unfold Machine.retireReq
  repeat' first
    | with_reducible assumption
    | with_reducible apply Only.dropReq (hA := List.Subset.trans (by decide) hA)
    | with_reducible apply Only.sweepCache (hA := List.Subset.trans (by decide) hA)

end Sys2Proof.Machine
end

