-- ==== Sys2Proof/Laws/FrameFlags.lean ====
section
/-!
SUPPORT. Frames of the operations of Machine/Flags.lean: the parts of the state that each may change.
-/

set_option Elab.async false

namespace Sys2Proof.Machine

theorem Only.raiseT {A : List Part} {sB : State} (n e : Nat) (s : State) (hA : [.tens] ⊆ A) (h : Only A sB s) : Only A sB (Machine.raiseT n e s) := by
  unfold Machine.raiseT
  repeat' first
    | with_reducible assumption
    | with_reducible apply Only.modTen (hA := List.Subset.trans (by decide) hA)

theorem Only.raiseG {A : List Part} {sB : State} (e : Nat) (s : State) (hA : [.evPend] ⊆ A) (h : Only A sB s) : Only A sB (Machine.raiseG e s) := by
  unfold Machine.raiseG
  repeat' first
    | with_reducible assumption
    | with_reducible apply Only.modEvPend (hA := List.Subset.trans (by decide) hA)

end Sys2Proof.Machine
end

