-- ==== Sys2Proof/Laws/FrameAccess.lean ====
section
/-!
SUPPORT. Frames of the operations of Machine/Access.lean: the parts of the state that each may change.
-/

set_option Elab.async false

namespace Sys2Proof.Machine

theorem Only.violT {A : List Part} {sB : State} (n : Nat) (addr : Nat) (d : Dir) (cause kind number tag gen : Nat) (s : State) (hA : [.tens] ⊆ A) (h : Only A sB s) : Only A sB (Machine.violT n addr d cause kind number tag gen s) := by
  unfold Machine.violT
  repeat' first
    | dsimp only
    | with_reducible assumption
    | intro _
    | with_reducible apply Only.modTen (hA := List.Subset.trans (by decide) hA)
    | with_reducible apply Only.raiseT (hA := List.Subset.trans (by decide) hA)
    | with_reducible refine Only.ite ?_ ?_

theorem Only.violP {A : List Part} {sB : State} (addr : Nat) (d : Dir) (cause kind number tag gen : Nat) (s : State) (hA : [.evPend, .pviol, .pvcnt] ⊆ A) (h : Only A sB s) : Only A sB (Machine.violP addr d cause kind number tag gen s) := by
  unfold Machine.violP
  repeat' first
    | dsimp only
    | with_reducible assumption
    | intro _
    | with_reducible apply Only.modPvcnt (hA := List.Subset.trans (by decide) hA)
    | with_reducible apply Only.modPviol (hA := List.Subset.trans (by decide) hA)
    | with_reducible apply Only.raiseG (hA := List.Subset.trans (by decide) hA)
    | with_reducible refine Only.ite ?_ ?_

theorem Only.viol {A : List Part} {sB : State} (t : Option TenantIx) (addr : Nat) (d : Dir) (cause kind number tag gen : Nat) (s : State) (hA : [.tens, .evPend, .pviol, .pvcnt] ⊆ A) (h : Only A sB s) : Only A sB (Machine.viol t addr d cause kind number tag gen s) := by
  unfold Machine.viol
  repeat' first
    | with_reducible assumption
    | with_reducible apply Only.violP (hA := List.Subset.trans (by decide) hA)
    | with_reducible apply Only.violT (hA := List.Subset.trans (by decide) hA)
    | split

end Sys2Proof.Machine
end

