-- ==== Sys2Proof/Laws/FrameJournal.lean ====
section
/-!
SUPPORT. Frames of the operations of Machine/Journal.lean: the parts of the state that each may change.
-/

set_option Elab.async false

namespace Sys2Proof.Machine

theorem Only.jrnLose {A : List Part} {sB : State} (s : State) (hA : [.jrn, .evPend] ⊆ A) (h : Only A sB s) : Only A sB (Machine.jrnLose s) := by
  unfold Machine.jrnLose
  repeat' first
    | with_reducible assumption
    | with_reducible apply Only.modJrn (hA := List.Subset.trans (by decide) hA)
    | with_reducible apply Only.raiseG (hA := List.Subset.trans (by decide) hA)

theorem Only.jrnNlose {A : List Part} {sB : State} (s : State) (hA : [.jrn] ⊆ A) (h : Only A sB s) : Only A sB (Machine.jrnNlose s) := by
  unfold Machine.jrnNlose
  repeat' first
    | with_reducible assumption
    | with_reducible apply Only.modJrn (hA := List.Subset.trans (by decide) hA)

theorem Only.jrnPush {A : List Part} {sB : State} (rec : List (BitVec 32)) (s : State) (hA : [.jrn, .evPend] ⊆ A) (h : Only A sB s) : Only A sB (Machine.jrnPush rec s) := by
  unfold Machine.jrnPush
  repeat' first
    | dsimp only
    | with_reducible assumption
    | intro _
    | with_reducible apply Only.modJrn (hA := List.Subset.trans (by decide) hA)
    | with_reducible apply Only.raiseG (hA := List.Subset.trans (by decide) hA)
    | with_reducible refine Only.ite ?_ ?_

theorem Only.jrnMakeRoom {A : List Part} {sB : State} (need : Nat) (x : Nat) (s : State) (hA : [.jrn, .evPend] ⊆ A) (h : Only A sB s) : Only A sB (Machine.jrnMakeRoom need x s) := by
  induction x generalizing s with
  | zero => exact h
  | succ n ih =>
    unfold Machine.jrnMakeRoom
    repeat' first
      | with_reducible assumption
      | intro _
      | with_reducible apply Only.jrnLose (hA := List.Subset.trans (by decide) hA)
      | with_reducible apply Only.modJrn (hA := List.Subset.trans (by decide) hA)
      | with_reducible refine Only.ite ?_ ?_
      | with_reducible apply ih

theorem Only.noticeFault {A : List Part} {sB : State} (s : State) (hA : [.notice, .evPend] ⊆ A) (h : Only A sB s) : Only A sB (Machine.noticeFault s) := by
  unfold Machine.noticeFault
  repeat' first
    | with_reducible assumption
    | with_reducible apply Only.modNotice (hA := List.Subset.trans (by decide) hA)
    | with_reducible apply Only.raiseG (hA := List.Subset.trans (by decide) hA)

theorem Only.notice {A : List Part} {sB : State} (rec : List (BitVec 32)) (s : State) (hA : [.notice, .jrn, .evPend, .pviol, .pvcnt, .out] ⊆ A) (h : Only A sB s) : Only A sB (Machine.notice rec s) := by
  unfold Machine.notice
  repeat' first
    | dsimp only
    | with_reducible assumption
    | intro _
    | with_reducible apply Only.emitRecord (hA := List.Subset.trans (by decide) hA)
    | with_reducible apply Only.jrnNlose (hA := List.Subset.trans (by decide) hA)
    | with_reducible apply Only.modJrn (hA := List.Subset.trans (by decide) hA)
    | with_reducible apply Only.noticeFault (hA := List.Subset.trans (by decide) hA)
    | with_reducible apply Only.violP (hA := List.Subset.trans (by decide) hA)
    | with_reducible refine Only.ite ?_ ?_
    | split

theorem Only.jrnOpen {A : List Part} {sB : State} (bad : Bool) (s : State) (hA : [.jrn] ⊆ A) (h : Only A sB s) : Only A sB (Machine.jrnOpen bad s) := by
  unfold Machine.jrnOpen
  repeat' first
    | dsimp only
    | with_reducible assumption
    | with_reducible apply Only.modJrn (hA := List.Subset.trans (by decide) hA)
    | split

theorem Only.jrnDeliver {A : List Part} {sB : State} (who : Who) (size : AccSize) (bad : Bool) (s : State) (hA : [.jrn, .out] ⊆ A) (h : Only A sB s) : Only A sB (Machine.jrnDeliver who size bad s) := by
  unfold Machine.jrnDeliver
  repeat' first
    | dsimp only
    | with_reducible assumption
    | with_reducible apply Only.emit (hA := List.Subset.trans (by decide) hA)
    | with_reducible apply Only.jrnOpen (hA := List.Subset.trans (by decide) hA)
    | with_reducible apply Only.modJrn (hA := List.Subset.trans (by decide) hA)
    | split

theorem Only.jrnServe {A : List Part} {sB : State}  (x : List (Who × AccSize)) (s : State) (hA : [.jrn, .out] ⊆ A) (h : Only A sB s) : Only A sB (Machine.jrnServe x s) := by
  induction x generalizing s with
  | nil => exact h
  | cons a l ih =>
    try obtain ⟨_, _⟩ := a
    unfold Machine.jrnServe
    repeat' first
      | with_reducible assumption
      | intro _
      | with_reducible apply Only.jrnDeliver (hA := List.Subset.trans (by decide) hA)
      | with_reducible apply Only.modJrn (hA := List.Subset.trans (by decide) hA)
      | with_reducible refine Only.ite ?_ ?_
      | with_reducible apply ih

theorem Only.jrnStore {A : List Part} {sB : State} (rec : List (BitVec 32)) (s : State) (hA : [.notice, .jrn, .evPend, .pviol, .pvcnt, .out] ⊆ A) (h : Only A sB s) : Only A sB (Machine.jrnStore rec s) := by
  unfold Machine.jrnStore
  repeat' first
    | dsimp only
    | with_reducible assumption
    | with_reducible apply Only.jrnPush (hA := List.Subset.trans (by decide) hA)
    | with_reducible apply Only.jrnServe (hA := List.Subset.trans (by decide) hA)
    | with_reducible apply Only.notice (hA := List.Subset.trans (by decide) hA)

theorem Only.journal {A : List Part} {sB : State} (type origin : Nat) (payload : List Nat) (s : State) (hA : [.notice, .jrn, .evPend, .pviol, .pvcnt, .out] ⊆ A) (h : Only A sB s) : Only A sB (Machine.journal type origin payload s) := by
  unfold Machine.journal
  repeat' first
    | dsimp only
    | with_reducible assumption
    | intro _
    | with_reducible apply Only.jrnLose (hA := List.Subset.trans (by decide) hA)
    | with_reducible apply Only.jrnMakeRoom (hA := List.Subset.trans (by decide) hA)
    | with_reducible apply Only.jrnStore (hA := List.Subset.trans (by decide) hA)
    | with_reducible apply Only.modJrn (hA := List.Subset.trans (by decide) hA)
    | with_reducible refine Only.ite ?_ ?_

theorem Only.timeMark {A : List Part} {sB : State} (s : State) (hA : [.notice, .jrn, .evPend, .pviol, .pvcnt, .out] ⊆ A) (h : Only A sB s) : Only A sB (Machine.timeMark s) := by
  unfold Machine.timeMark
  repeat' first
    | with_reducible assumption
    | with_reducible apply Only.journal (hA := List.Subset.trans (by decide) hA)

theorem Only.countCe {A : List Part} {sB : State} (c : Nat) (s : State) (hA : [.ces, .evPend] ⊆ A) (h : Only A sB s) : Only A sB (Machine.countCe c s) := by
  unfold Machine.countCe
  repeat' first
    | dsimp only
    | with_reducible assumption
    | intro _
    | with_reducible apply Only.modCe (hA := List.Subset.trans (by decide) hA)
    | with_reducible apply Only.raiseG (hA := List.Subset.trans (by decide) hA)
    | with_reducible refine Only.ite ?_ ?_

theorem Only.journalUe {A : List Part} {sB : State} (c loc : Nat) (s : State) (hA : [.notice, .jrn, .evPend, .pviol, .pvcnt, .out] ⊆ A) (h : Only A sB s) : Only A sB (Machine.journalUe c loc s) := by
  unfold Machine.journalUe
  repeat' first
    | with_reducible assumption
    | with_reducible apply Only.journal (hA := List.Subset.trans (by decide) hA)

theorem Only.ledgerUe {A : List Part} {sB : State} (c : Nat) (t : Option Nat) (s : State) (hA : [.notice, .tens, .jrn, .evPend, .pviol, .pvcnt, .out] ⊆ A) (h : Only A sB s) : Only A sB (Machine.ledgerUe c t s) := by
  unfold Machine.ledgerUe
  repeat' first
    | dsimp only
    | with_reducible assumption
    | intro _
    | with_reducible apply Only.journalUe (hA := List.Subset.trans (by decide) hA)
    | with_reducible apply Only.modTen (hA := List.Subset.trans (by decide) hA)
    | with_reducible apply Only.raiseG (hA := List.Subset.trans (by decide) hA)
    | with_reducible apply Only.raiseT (hA := List.Subset.trans (by decide) hA)
    | with_reducible refine Only.ite ?_ ?_
    | split

theorem Only.memCheck {A : List Part} {sB : State} (c : Nat) (t : Option Nat) (ecc : Ecc) (s : State) (hA : [.notice, .tens, .ces, .jrn, .evPend, .pviol, .pvcnt, .out] ⊆ A) (h : Only A sB s) : Only A sB (Machine.memCheck c t ecc s) := by
  unfold Machine.memCheck
  repeat' first
    | dsimp only
    | with_reducible assumption
    | intro _
    | with_reducible apply Only.countCe (hA := List.Subset.trans (by decide) hA)
    | with_reducible apply Only.ledgerUe (hA := List.Subset.trans (by decide) hA)
    | with_reducible refine Only.ite ?_ ?_
    | split

theorem Only.fxJournalRead {A : List Part} {sB : State} (who : Who) (size : AccSize) (ecc : Ecc) (s : State) (hA : [.notice, .ces, .jrn, .evPend, .pviol, .pvcnt, .out] ⊆ A) (h : Only A sB s) : Only A sB (Machine.fxJournalRead who size ecc s) := by
  unfold Machine.fxJournalRead
  repeat' first
    | dsimp only
    | with_reducible assumption
    | intro _
    | with_reducible apply Only.countCe (hA := List.Subset.trans (by decide) hA)
    | with_reducible apply Only.emit (hA := List.Subset.trans (by decide) hA)
    | with_reducible apply Only.journal (hA := List.Subset.trans (by decide) hA)
    | with_reducible apply Only.journalUe (hA := List.Subset.trans (by decide) hA)
    | with_reducible apply Only.jrnDeliver (hA := List.Subset.trans (by decide) hA)
    | with_reducible apply Only.modJrn (hA := List.Subset.trans (by decide) hA)
    | with_reducible apply Only.raiseG (hA := List.Subset.trans (by decide) hA)
    | with_reducible refine Only.ite ?_ ?_
    | split

theorem Only.fxJournalReadTimeout {A : List Part} {sB : State} (s : State) (hA : [.jrn, .out] ⊆ A) (h : Only A sB s) : Only A sB (Machine.fxJournalReadTimeout s) := by
  unfold Machine.fxJournalReadTimeout
  repeat' first
    | with_reducible assumption
    | with_reducible apply Only.emit (hA := List.Subset.trans (by decide) hA)
    | with_reducible apply Only.modJrn (hA := List.Subset.trans (by decide) hA)
    | split

theorem Only.jrnNow {A : List Part} {sB : State} (type : Nat) (payload : List Nat) (s : State) (hA : [.notice, .jrn, .evPend, .pviol, .pvcnt, .out] ⊆ A) (h : Only A sB s) : Only A sB (Machine.jrnNow type payload s) := by
  unfold Machine.jrnNow
  repeat' first
    | dsimp only
    | with_reducible assumption
    | intro _
    | with_reducible apply Only.jrnLose (hA := List.Subset.trans (by decide) hA)
    | with_reducible apply Only.jrnStore (hA := List.Subset.trans (by decide) hA)
    | with_reducible apply Only.modJrn (hA := List.Subset.trans (by decide) hA)
    | with_reducible refine Only.ite ?_ ?_
    | split

theorem Only.jrnFlush {A : List Part} {sB : State} (s : State) (hA : [.notice, .jrn, .evPend, .pviol, .pvcnt, .out] ⊆ A) (h : Only A sB s) : Only A sB (Machine.jrnFlush s) := by
  unfold Machine.jrnFlush
  repeat' first
    | dsimp only
    | with_reducible assumption
    | intro _
    | with_reducible apply Only.jrnNow (hA := List.Subset.trans (by decide) hA)
    | with_reducible apply Only.modJrn (hA := List.Subset.trans (by decide) hA)
    | with_reducible refine Only.ite ?_ ?_
    | split

theorem Only.fxJournalLostStore {A : List Part} {sB : State} (s : State) (hA : [.notice, .jrn, .evPend, .pviol, .pvcnt, .out] ⊆ A) (h : Only A sB s) : Only A sB (Machine.fxJournalLostStore s) := by
  unfold Machine.fxJournalLostStore
  repeat' first
    | with_reducible assumption
    | intro _
    | with_reducible apply Only.journal (hA := List.Subset.trans (by decide) hA)
    | with_reducible apply Only.modJrn (hA := List.Subset.trans (by decide) hA)
    | with_reducible apply Only.whenS

end Sys2Proof.Machine
end

