-- ==== Sys2Proof/Laws/FrameLink.lean ====
section
/-!
SUPPORT. Frames of the operations of Machine/Link.lean: the parts of the state that each may change.
-/

set_option Elab.async false

namespace Sys2Proof.Machine

theorem Only.sendFrame {A : List Part} {sB : State} (type dst : Nat) (payload : Bytes) (s : State) (hA : [.crs, .out] ⊆ A) (h : Only A sB s) : Only A sB (Machine.sendFrame type dst payload s) := by
  unfold Machine.sendFrame
  repeat' first
    | dsimp only
    | with_reducible assumption
    | with_reducible apply Only.emit (hA := List.Subset.trans (by decide) hA)
    | with_reducible apply Only.modCrs (hA := List.Subset.trans (by decide) hA)

theorem Only.sendLong {A : List Part} {sB : State} (type dst : Nat) (payload : Bytes) (s : State) (hA : [.crs, .out] ⊆ A) (h : Only A sB s) : Only A sB (Machine.sendLong type dst payload s) := by
  unfold Machine.sendLong
  repeat' first
    | with_reducible assumption
    | intro _
    | with_reducible apply Only.sendFrame (hA := List.Subset.trans (by decide) hA)
    | with_reducible apply Only.foldl

theorem Only.sendAll {A : List Part} {sB : State} (type : Nat) (payload : Bytes) (s : State) (hA : [.crs, .out] ⊆ A) (h : Only A sB s) : Only A sB (Machine.sendAll type payload s) := by
  unfold Machine.sendAll
  repeat' first
    | with_reducible assumption
    | intro _
    | with_reducible apply Only.eachN
    | with_reducible apply Only.sendFrame (hA := List.Subset.trans (by decide) hA)

theorem Only.storeBlock {A : List Part} {sB : State} (k lo hi : Nat) (s : State) (hA : [.crs] ⊆ A) (h : Only A sB s) : Only A sB (Machine.storeBlock k lo hi s) := by
  unfold Machine.storeBlock
  repeat' first
    | with_reducible assumption
    | with_reducible apply Only.modCrs (hA := List.Subset.trans (by decide) hA)

theorem Only.crsRecord {A : List Part} {sB : State} (type : Nat) (payload : List Nat) (s : State) (hA : [.notice, .jrn, .evPend, .pviol, .pvcnt, .out] ⊆ A) (h : Only A sB s) : Only A sB (Machine.crsRecord type payload s) := by
  unfold Machine.crsRecord
  repeat' first
    | with_reducible assumption
    | with_reducible apply Only.journal (hA := List.Subset.trans (by decide) hA)

theorem Only.grantBlock {A : List Part} {sB : State} (dest k : Nat) (s : State) (hA : [.notice, .tens, .ks, .jrn, .evPend, .pviol, .pvcnt, .crs, .out] ⊆ A) (h : Only A sB s) : Only A sB (Machine.grantBlock dest k s) := by
  unfold Machine.grantBlock
  repeat' first
    | dsimp only
    | with_reducible assumption
    | intro _
    | with_reducible apply Only.crsRecord (hA := List.Subset.trans (by decide) hA)
    | with_reducible apply Only.journal (hA := List.Subset.trans (by decide) hA)
    | with_reducible apply Only.modSlot (hA := List.Subset.trans (by decide) hA)
    | with_reducible apply Only.raiseT (hA := List.Subset.trans (by decide) hA)
    | with_reducible apply Only.sendFrame (hA := List.Subset.trans (by decide) hA)
    | with_reducible apply Only.storeBlock (hA := List.Subset.trans (by decide) hA)
    | with_reducible refine Only.ite ?_ ?_
    | split

theorem Only.beginGrant {A : List Part} {sB : State} (dest k : Nat) (s : State) (hA : [.notice, .tens, .ks, .jrn, .evPend, .pviol, .pvcnt, .crs, .out] ⊆ A) (h : Only A sB s) : Only A sB (Machine.beginGrant dest k s) := by
  unfold Machine.beginGrant
  repeat' first
    | dsimp only
    | with_reducible assumption
    | intro _
    | with_reducible apply Only.eachN
    | with_reducible apply Only.grantBlock (hA := List.Subset.trans (by decide) hA)
    | with_reducible apply Only.modCrs (hA := List.Subset.trans (by decide) hA)
    | with_reducible apply Only.sendFrame (hA := List.Subset.trans (by decide) hA)
    | with_reducible refine Only.ite ?_ ?_

theorem Only.askBlock {A : List Part} {sB : State} (k : Nat) (s : State) (hA : [.notice, .tens, .ks, .jrn, .evPend, .pviol, .pvcnt, .crs, .out] ⊆ A) (h : Only A sB s) : Only A sB (Machine.askBlock k s) := by
  unfold Machine.askBlock
  repeat' first
    | dsimp only
    | with_reducible assumption
    | intro _
    | with_reducible apply Only.beginGrant (hA := List.Subset.trans (by decide) hA)
    | with_reducible apply Only.modCrs (hA := List.Subset.trans (by decide) hA)
    | with_reducible apply Only.sendFrame (hA := List.Subset.trans (by decide) hA)
    | with_reducible refine Only.ite ?_ ?_

theorem Only.waitBlocks {A : List Part} {sB : State} (ks : List Nat) (s : State) (hA : [.notice, .tens, .ks, .jrn, .evPend, .pviol, .pvcnt, .crs, .out] ⊆ A) (h : Only A sB s) : Only A sB (Machine.waitBlocks ks s) := by
  unfold Machine.waitBlocks
  repeat' first
    | dsimp only
    | with_reducible assumption
    | intro _
    | with_reducible apply Only.askBlock (hA := List.Subset.trans (by decide) hA)
    | with_reducible apply Only.raiseG (hA := List.Subset.trans (by decide) hA)
    | with_reducible apply Only.foldl
    | with_reducible refine Only.ite ?_ ?_

end Sys2Proof.Machine
end

