-- ==== Sys2Proof/Laws/FramePort.lean ====
section
/-!
SUPPORT. Frames of the operations of Machine/Port.lean: the parts of the state that each may change.
-/

set_option Elab.async false

namespace Sys2Proof.Machine

theorem Only.countDenied {A : List Part} {sB : State} (s : State) (hA : [.denied, .evPend] ⊆ A) (h : Only A sB s) : Only A sB (Machine.countDenied s) := by
  unfold Machine.countDenied
  repeat' first
    | dsimp only
    | with_reducible assumption
    | intro _
    | with_reducible apply Only.modDenied (hA := List.Subset.trans (by decide) hA)
    | with_reducible apply Only.raiseG (hA := List.Subset.trans (by decide) hA)
    | with_reducible refine Only.ite ?_ ?_

theorem Only.debugRecord {A : List Part} {sB : State} (who : Who) (off : Nat) (d : Dir) (opened : Bool) (s : State) (hA : [.notice, .jrn, .evPend, .pviol, .pvcnt, .out] ⊆ A) (h : Only A sB s) : Only A sB (Machine.debugRecord who off d opened s) := by
  unfold Machine.debugRecord
  repeat' first
    | with_reducible assumption
    | with_reducible apply Only.journal (hA := List.Subset.trans (by decide) hA)

theorem Only.dropWrite {A : List Part} {sB : State} (who : Who) (off value : Nat) (s : State) (hA : [.denied, .notice, .jrn, .evPend, .pviol, .pvcnt, .out] ⊆ A) (h : Only A sB s) : Only A sB (Machine.dropWrite who off value s) := by
  unfold Machine.dropWrite
  repeat' first
    | with_reducible assumption
    | intro _
    | with_reducible apply Only.countDenied (hA := List.Subset.trans (by decide) hA)
    | with_reducible apply Only.debugRecord (hA := List.Subset.trans (by decide) hA)
    | with_reducible apply Only.journal (hA := List.Subset.trans (by decide) hA)
    | with_reducible refine Only.ite ?_ ?_

theorem Only.dropSubword {A : List Part} {sB : State} (who : Who) (size : AccSize) (off : Nat) (s : State) (hA : [.denied, .notice, .jrn, .evPend, .pviol, .pvcnt, .out] ⊆ A) (h : Only A sB s) : Only A sB (Machine.dropSubword who size off s) := by
  unfold Machine.dropSubword
  repeat' first
    | dsimp only
    | with_reducible assumption
    | intro _
    | with_reducible apply Only.countDenied (hA := List.Subset.trans (by decide) hA)
    | with_reducible apply Only.debugRecord (hA := List.Subset.trans (by decide) hA)
    | with_reducible apply Only.journal (hA := List.Subset.trans (by decide) hA)
    | with_reducible refine Only.ite ?_ ?_

theorem Only.dropPiece {A : List Part} {sB : State} (who : Who) (r : Reg) (mask val : Word) (s : State) (hA : [.denied, .notice, .jrn, .evPend, .pviol, .pvcnt, .out] ⊆ A) (h : Only A sB s) : Only A sB (Machine.dropPiece who r mask val s) := by
  unfold Machine.dropPiece
  repeat' first
    | with_reducible assumption
    | with_reducible apply Only.dropWrite (hA := List.Subset.trans (by decide) hA)

theorem Only.gateP {A : List Part} {sB : State} (who : Who) (r : Reg) (mask val : Word) (f : State → State) (s : State) (hA : [.denied, .notice, .jrn, .evPend, .pviol, .pvcnt, .out] ⊆ A) (h : Only A sB s) (hf : ∀ x0, Only A sB x0 → Only A sB (f x0)) : Only A sB (Machine.gateP who r mask val f s) := by
  unfold Machine.gateP
  repeat' first
    | with_reducible assumption
    | intro _
    | with_reducible apply Only.dropPiece (hA := List.Subset.trans (by decide) hA)
    | with_reducible refine Only.ite ?_ ?_
    | apply hf

theorem Only.gateW {A : List Part} {sB : State} (who : Who) (r : Reg) (val : Word) (f : State → State) (s : State) (hA : [.denied, .notice, .jrn, .evPend, .pviol, .pvcnt, .out] ⊆ A) (h : Only A sB s) (hf : ∀ x0, Only A sB x0 → Only A sB (f x0)) : Only A sB (Machine.gateW who r val f s) := by
  unfold Machine.gateW
  repeat' first
    | with_reducible assumption
    | with_reducible apply Only.gateP (hA := List.Subset.trans (by decide) hA)

theorem Only.debugRead {A : List Part} {sB : State} (who : Who) (r : Reg) (off : Nat) (s : State) (hA : [.notice, .jrn, .evPend, .pviol, .pvcnt, .out] ⊆ A) (h : Only A sB s) : Only A sB (Machine.debugRead who r off s) := by
  unfold Machine.debugRead
  repeat' first
    | with_reducible assumption
    | intro _
    | with_reducible apply Only.debugRecord (hA := List.Subset.trans (by decide) hA)
    | with_reducible refine Only.ite ?_ ?_

theorem Only.gateR {A : List Part} {sB : State} (who : Who) (r : Reg) (f : State → State) (s : State) (hA : [.notice, .jrn, .evPend, .pviol, .pvcnt, .out] ⊆ A) (h : Only A sB s) (hf : ∀ x0, Only A sB x0 → Only A sB (f x0)) : Only A sB (Machine.gateR who r f s) := by
  unfold Machine.gateR
  repeat' first
    | dsimp only
    | with_reducible assumption
    | intro _
    | with_reducible apply Only.debugRead (hA := List.Subset.trans (by decide) hA)
    | with_reducible apply Only.emit (hA := List.Subset.trans (by decide) hA)
    | with_reducible refine Only.ite ?_ ?_
    | apply hf

theorem Only.dropReg {A : List Part} {sB : State} (who : Who) (r : Reg) (val : Word) (s : State) (hA : [.denied, .notice, .jrn, .evPend, .pviol, .pvcnt, .out] ⊆ A) (h : Only A sB s) : Only A sB (Machine.dropReg who r val s) := by
  unfold Machine.dropReg
  repeat' first
    | with_reducible assumption
    | with_reducible apply Only.dropPiece (hA := List.Subset.trans (by decide) hA)

end Sys2Proof.Machine
end

