-- ==== Sys2Proof/Laws/FrameRings.lean ====
section
/-!
SUPPORT. Frames of the operations of Machine/Rings.lean: the parts of the state that each may change.
-/

set_option Elab.async false

namespace Sys2Proof.Machine

theorem Only.settleRing {A : List Part} {sB : State} (n m : Nat) (s : State) (hA : [.tens, .sqs] ⊆ A) (h : Only A sB s) : Only A sB (Machine.settleRing n m s) := by
  unfold Machine.settleRing
  repeat' first
    | dsimp only
    | with_reducible assumption
    | intro _
    | with_reducible apply Only.modSq (hA := List.Subset.trans (by decide) hA)
    | with_reducible apply Only.raiseT (hA := List.Subset.trans (by decide) hA)
    | with_reducible refine Only.ite ?_ ?_
    | split

theorem Only.drainPulses {A : List Part} {sB : State} (n m : Nat) (x : Nat) (s : State) (hA : [.sqs] ⊆ A) (h : Only A sB s) : Only A sB (Machine.drainPulses n m x s) := by
  induction x generalizing s with
  | zero => exact h
  | succ n ih =>
    unfold Machine.drainPulses
    repeat' first
      | dsimp only
      | with_reducible assumption
      | intro _
      | with_reducible apply Only.modSq (hA := List.Subset.trans (by decide) hA)
      | with_reducible refine Only.ite ?_ ?_
      | split
      | with_reducible apply ih

theorem Only.ringPulse {A : List Part} {sB : State} (n m : Nat) (t : Word) (s : State) (hA : [.tens, .sqs] ⊆ A) (h : Only A sB s) : Only A sB (Machine.ringPulse n m t s) := by
  unfold Machine.ringPulse
  repeat' first
    | dsimp only
    | with_reducible assumption
    | intro _
    | with_reducible apply Only.drainPulses (hA := List.Subset.trans (by decide) hA)
    | with_reducible apply Only.modSq (hA := List.Subset.trans (by decide) hA)
    | with_reducible apply Only.raiseT (hA := List.Subset.trans (by decide) hA)
    | with_reducible refine Only.ite ?_ ?_

theorem Only.pulseRings {A : List Part} {sB : State} (src : Nat) (t : Word) (s : State) (hA : [.tens, .sqs] ⊆ A) (h : Only A sB s) : Only A sB (Machine.pulseRings src t s) := by
  unfold Machine.pulseRings
  repeat' first
    | dsimp only
    | with_reducible assumption
    | intro _
    | with_reducible apply Only.eachN
    | with_reducible apply Only.ringPulse (hA := List.Subset.trans (by decide) hA)
    | with_reducible refine Only.ite ?_ ?_

theorem Only.releasePosted {A : List Part} {sB : State} (s : State) (hA : [.sqs] ⊆ A) (h : Only A sB s) : Only A sB (Machine.releasePosted s) := by
  unfold Machine.releasePosted
  repeat' first
    | dsimp only
    | with_reducible assumption
    | intro _
    | with_reducible apply Only.drainPulses (hA := List.Subset.trans (by decide) hA)
    | with_reducible apply Only.eachN
    | with_reducible apply Only.modSq (hA := List.Subset.trans (by decide) hA)
    | with_reducible refine Only.ite ?_ ?_

theorem Only.addPosted {A : List Part} {sB : State} (n : Nat) (posted clamped : Nat) (s : State) (hA : [.tens] ⊆ A) (h : Only A sB s) : Only A sB (Machine.addPosted n posted clamped s) := by
  unfold Machine.addPosted
  repeat' first
    | dsimp only
    | with_reducible assumption
    | with_reducible apply Only.modTen (hA := List.Subset.trans (by decide) hA)

theorem Only.sqClampEvent {A : List Part} {sB : State} (n m : Nat) (s : State) (hA : [.tens, .sqs] ⊆ A) (h : Only A sB s) : Only A sB (Machine.sqClampEvent n m s) := by
  unfold Machine.sqClampEvent
  repeat' first
    | with_reducible assumption
    | with_reducible apply Only.modSq (hA := List.Subset.trans (by decide) hA)
    | with_reducible apply Only.raiseT (hA := List.Subset.trans (by decide) hA)

theorem Only.doorbell {A : List Part} {sB : State} (n m : Nat) (mid : BitVec 8) (w : World) (tail count : Nat) (meets : Bool) (s : State) (hA : [.tens, .sqs] ⊆ A) (h : Only A sB s) : Only A sB (Machine.doorbell n m mid w tail count meets s) := by
  unfold Machine.doorbell
  repeat' first
    | dsimp only
    | with_reducible assumption
    | intro _
    | with_reducible apply Only.addPosted (hA := List.Subset.trans (by decide) hA)
    | with_reducible apply Only.drainPulses (hA := List.Subset.trans (by decide) hA)
    | with_reducible apply Only.modSq (hA := List.Subset.trans (by decide) hA)
    | with_reducible apply Only.settleRing (hA := List.Subset.trans (by decide) hA)
    | with_reducible apply Only.sqClampEvent (hA := List.Subset.trans (by decide) hA)
    | with_reducible refine Only.ite ?_ ?_
    | split

theorem Only.dbWrite {A : List Part} {sB : State} (who : Who) (n : TenantIx) (m : RingIx) (tail count : Nat) (meets : Bool) (s : State) (hA : [.denied, .notice, .tens, .sqs, .jrn, .evPend, .pviol, .pvcnt, .out] ⊆ A) (h : Only A sB s) : Only A sB (Machine.dbWrite who n m tail count meets s) := by
  unfold Machine.dbWrite
  repeat' first
    | dsimp only
    | with_reducible assumption
    | intro _
    | with_reducible apply Only.doorbell (hA := List.Subset.trans (by decide) hA)
    | with_reducible apply Only.dropReg (hA := List.Subset.trans (by decide) hA)
    | with_reducible apply Only.modSq (hA := List.Subset.trans (by decide) hA)
    | with_reducible refine Only.ite ?_ ?_
    | split

theorem Only.fxSqDoorbell {A : List Part} {sB : State} (who : Who) (n : TenantIx) (m : RingIx) (tail : BitVec 17) (count : BitVec 15) (meets : Bool) (s : State) (hA : [.denied, .notice, .tens, .sqs, .jrn, .evPend, .pviol, .pvcnt, .out] ⊆ A) (h : Only A sB s) : Only A sB (Machine.fxSqDoorbell who n m tail count meets s) := by
  unfold Machine.fxSqDoorbell
  repeat' first
    | dsimp only
    | with_reducible assumption
    | intro _
    | with_reducible apply Only.dbWrite (hA := List.Subset.trans (by decide) hA)
    | with_reducible apply Only.gateW (hA := List.Subset.trans (by decide) hA)
    | with_reducible refine Only.ite ?_ ?_
    | split

theorem Only.sqBaseWrite {A : List Part} {sB : State} (who : Who) (n : TenantIx) (m : RingIx) (mask val : Word) (s : State) (hA : [.denied, .notice, .sqs, .jrn, .evPend, .pviol, .pvcnt, .out] ⊆ A) (h : Only A sB s) : Only A sB (Machine.sqBaseWrite who n m mask val s) := by
  unfold Machine.sqBaseWrite
  repeat' first
    | with_reducible assumption
    | intro _
    | with_reducible apply Only.dropPiece (hA := List.Subset.trans (by decide) hA)
    | with_reducible apply Only.modSq (hA := List.Subset.trans (by decide) hA)
    | with_reducible refine Only.ite ?_ ?_

theorem Only.sqCfgWrite {A : List Part} {sB : State} (who : Who) (n : TenantIx) (m : RingIx) (mask val : Word) (s : State) (hA : [.denied, .notice, .sqs, .jrn, .evPend, .pviol, .pvcnt, .out] ⊆ A) (h : Only A sB s) : Only A sB (Machine.sqCfgWrite who n m mask val s) := by
  unfold Machine.sqCfgWrite
  repeat' first
    | dsimp only
    | with_reducible assumption
    | intro _
    | with_reducible apply Only.dropPiece (hA := List.Subset.trans (by decide) hA)
    | with_reducible apply Only.modSq (hA := List.Subset.trans (by decide) hA)
    | with_reducible refine Only.ite ?_ ?_
    | split

theorem Only.sqSchedWrite {A : List Part} {sB : State} (n : TenantIx) (m : RingIx) (mask val : Word) (s : State) (hA : [.sqs] ⊆ A) (h : Only A sB s) : Only A sB (Machine.sqSchedWrite n m mask val s) := by
  unfold Machine.sqSchedWrite
  repeat' first
    | dsimp only
    | with_reducible assumption
    | with_reducible apply Only.modSq (hA := List.Subset.trans (by decide) hA)

theorem Only.fxSqSetupWrite {A : List Part} {sB : State} (who : Who) (n : TenantIx) (m : RingIx) (r : SqSetup) (v : Word) (s : State) (hA : [.denied, .notice, .sqs, .jrn, .evPend, .pviol, .pvcnt, .out] ⊆ A) (h : Only A sB s) : Only A sB (Machine.fxSqSetupWrite who n m r v s) := by
  unfold Machine.fxSqSetupWrite
  repeat' first
    | with_reducible assumption
    | intro _
    | with_reducible apply Only.gateW (hA := List.Subset.trans (by decide) hA)
    | with_reducible apply Only.sqBaseWrite (hA := List.Subset.trans (by decide) hA)
    | with_reducible apply Only.sqCfgWrite (hA := List.Subset.trans (by decide) hA)
    | with_reducible apply Only.sqSchedWrite (hA := List.Subset.trans (by decide) hA)
    | split

theorem Only.sqSetEn {A : List Part} {sB : State} (n m : Nat) (s : State) (hA : [.tens, .sqs] ⊆ A) (h : Only A sB s) : Only A sB (Machine.sqSetEn n m s) := by
  unfold Machine.sqSetEn
  repeat' first
    | with_reducible assumption
    | with_reducible apply Only.modSq (hA := List.Subset.trans (by decide) hA)
    | with_reducible apply Only.settleRing (hA := List.Subset.trans (by decide) hA)

theorem Only.sqClearEn {A : List Part} {sB : State} (n m : Nat) (s : State) (hA : [.sqs] ⊆ A) (h : Only A sB s) : Only A sB (Machine.sqClearEn n m s) := by
  unfold Machine.sqClearEn
  repeat' first
    | dsimp only
    | with_reducible assumption
    | intro _
    | with_reducible apply Only.modSq (hA := List.Subset.trans (by decide) hA)
    | with_reducible refine Only.ite ?_ ?_
    | split

theorem Only.sqSetPause {A : List Part} {sB : State} (n m : Nat) (s : State) (hA : [.sqs] ⊆ A) (h : Only A sB s) : Only A sB (Machine.sqSetPause n m s) := by
  unfold Machine.sqSetPause
  repeat' first
    | with_reducible assumption
    | with_reducible apply Only.modSq (hA := List.Subset.trans (by decide) hA)

theorem Only.sqClearPause {A : List Part} {sB : State} (n m : Nat) (s : State) (hA : [.tens, .sqs] ⊆ A) (h : Only A sB s) : Only A sB (Machine.sqClearPause n m s) := by
  unfold Machine.sqClearPause
  repeat' first
    | with_reducible assumption
    | with_reducible apply Only.modSq (hA := List.Subset.trans (by decide) hA)
    | with_reducible apply Only.settleRing (hA := List.Subset.trans (by decide) hA)

theorem Only.sqSetInval {A : List Part} {sB : State} (n m : Nat) (s : State) (hA : [.sqs] ⊆ A) (h : Only A sB s) : Only A sB (Machine.sqSetInval n m s) := by
  unfold Machine.sqSetInval
  repeat' first
    | dsimp only
    | with_reducible assumption
    | intro _
    | with_reducible apply Only.modSq (hA := List.Subset.trans (by decide) hA)
    | with_reducible refine Only.ite ?_ ?_
    | split

theorem Only.sqCtlWrite {A : List Part} {sB : State} (n m : Nat) (mask val : Word) (s : State) (hA : [.tens, .sqs] ⊆ A) (h : Only A sB s) : Only A sB (Machine.sqCtlWrite n m mask val s) := by
  unfold Machine.sqCtlWrite
  repeat' first
    | dsimp only
    | with_reducible assumption
    | intro _
    | with_reducible apply Only.sqClearEn (hA := List.Subset.trans (by decide) hA)
    | with_reducible apply Only.sqClearPause (hA := List.Subset.trans (by decide) hA)
    | with_reducible apply Only.sqSetEn (hA := List.Subset.trans (by decide) hA)
    | with_reducible apply Only.sqSetInval (hA := List.Subset.trans (by decide) hA)
    | with_reducible apply Only.sqSetPause (hA := List.Subset.trans (by decide) hA)
    | with_reducible refine Only.ite ?_ ?_

theorem Only.fxSqEnable {A : List Part} {sB : State} (who : Who) (n : TenantIx) (m : RingIx) (s : State) (hA : [.denied, .notice, .tens, .sqs, .jrn, .evPend, .pviol, .pvcnt, .out] ⊆ A) (h : Only A sB s) : Only A sB (Machine.fxSqEnable who n m s) := by
  unfold Machine.fxSqEnable
  repeat' first
    | with_reducible assumption
    | intro _
    | with_reducible apply Only.gateW (hA := List.Subset.trans (by decide) hA)
    | with_reducible apply Only.sqSetEn (hA := List.Subset.trans (by decide) hA)

theorem Only.fxSqDisable {A : List Part} {sB : State} (who : Who) (n : TenantIx) (m : RingIx) (s : State) (hA : [.denied, .notice, .sqs, .jrn, .evPend, .pviol, .pvcnt, .out] ⊆ A) (h : Only A sB s) : Only A sB (Machine.fxSqDisable who n m s) := by
  unfold Machine.fxSqDisable
  repeat' first
    | with_reducible assumption
    | intro _
    | with_reducible apply Only.gateW (hA := List.Subset.trans (by decide) hA)
    | with_reducible apply Only.sqClearEn (hA := List.Subset.trans (by decide) hA)

theorem Only.fxSqPause {A : List Part} {sB : State} (who : Who) (n : TenantIx) (m : RingIx) (s : State) (hA : [.denied, .notice, .sqs, .jrn, .evPend, .pviol, .pvcnt, .out] ⊆ A) (h : Only A sB s) : Only A sB (Machine.fxSqPause who n m s) := by
  unfold Machine.fxSqPause
  repeat' first
    | with_reducible assumption
    | intro _
    | with_reducible apply Only.gateW (hA := List.Subset.trans (by decide) hA)
    | with_reducible apply Only.sqSetPause (hA := List.Subset.trans (by decide) hA)

theorem Only.fxSqPaused {A : List Part} {sB : State} (n : TenantIx) (m : RingIx) (s : State) (hA : [.sqs] ⊆ A) (h : Only A sB s) : Only A sB (Machine.fxSqPaused n m s) := by
  unfold Machine.fxSqPaused
  repeat' first
    | dsimp only
    | with_reducible assumption
    | intro _
    | with_reducible apply Only.modSq (hA := List.Subset.trans (by decide) hA)
    | with_reducible apply Only.whenS
    | with_reducible refine Only.ite ?_ ?_
    | split

theorem Only.fxSqInval {A : List Part} {sB : State} (who : Who) (n : TenantIx) (m : RingIx) (s : State) (hA : [.denied, .notice, .sqs, .jrn, .evPend, .pviol, .pvcnt, .out] ⊆ A) (h : Only A sB s) : Only A sB (Machine.fxSqInval who n m s) := by
  unfold Machine.fxSqInval
  repeat' first
    | with_reducible assumption
    | intro _
    | with_reducible apply Only.gateW (hA := List.Subset.trans (by decide) hA)
    | with_reducible apply Only.sqSetInval (hA := List.Subset.trans (by decide) hA)

theorem Only.fxSqInvalDone {A : List Part} {sB : State} (n : TenantIx) (m : RingIx) (s : State) (hA : [.tens, .sqs] ⊆ A) (h : Only A sB s) : Only A sB (Machine.fxSqInvalDone n m s) := by
  unfold Machine.fxSqInvalDone
  repeat' first
    | dsimp only
    | with_reducible assumption
    | intro _
    | with_reducible apply Only.modSq (hA := List.Subset.trans (by decide) hA)
    | with_reducible apply Only.settleRing (hA := List.Subset.trans (by decide) hA)
    | with_reducible apply Only.whenS
    | with_reducible refine Only.ite ?_ ?_
    | split

theorem Only.fxSqUnpause {A : List Part} {sB : State} (who : Who) (n : TenantIx) (m : RingIx) (s : State) (hA : [.denied, .notice, .tens, .sqs, .jrn, .evPend, .pviol, .pvcnt, .out] ⊆ A) (h : Only A sB s) : Only A sB (Machine.fxSqUnpause who n m s) := by
  unfold Machine.fxSqUnpause
  repeat' first
    | with_reducible assumption
    | intro _
    | with_reducible apply Only.gateW (hA := List.Subset.trans (by decide) hA)
    | with_reducible apply Only.sqClearPause (hA := List.Subset.trans (by decide) hA)

theorem Only.sqFaultClear {A : List Part} {sB : State} (n m : Nat) (s : State) (hA : [.sqs] ⊆ A) (h : Only A sB s) : Only A sB (Machine.sqFaultClear n m s) := by
  unfold Machine.sqFaultClear
  repeat' first
    | with_reducible assumption
    | with_reducible apply Only.modSq (hA := List.Subset.trans (by decide) hA)

theorem Only.fxSqFaultClear {A : List Part} {sB : State} (who : Who) (n : TenantIx) (m : RingIx) (s : State) (hA : [.denied, .notice, .sqs, .jrn, .evPend, .pviol, .pvcnt, .out] ⊆ A) (h : Only A sB s) : Only A sB (Machine.fxSqFaultClear who n m s) := by
  unfold Machine.fxSqFaultClear
  repeat' first
    | with_reducible assumption
    | intro _
    | with_reducible apply Only.gateW (hA := List.Subset.trans (by decide) hA)
    | with_reducible apply Only.sqFaultClear (hA := List.Subset.trans (by decide) hA)

theorem Only.sqFault {A : List Part} {sB : State} (n m : Nat) (addr kind cause : Nat) (pref : Bool) (s : State) (hA : [.tens, .sqs] ⊆ A) (h : Only A sB s) : Only A sB (Machine.sqFault n m addr kind cause pref s) := by
  unfold Machine.sqFault
  repeat' first
    | dsimp only
    | with_reducible assumption
    | intro _
    | with_reducible apply Only.modSq (hA := List.Subset.trans (by decide) hA)
    | with_reducible apply Only.raiseT (hA := List.Subset.trans (by decide) hA)
    | with_reducible refine Only.ite ?_ ?_
    | split

theorem Only.fxEntryCacheRead {A : List Part} {sB : State} (n : TenantIx) (m : RingIx) (slots : Nat) (s : State) (hA : [.tens, .sqs, .out] ⊆ A) (h : Only A sB s) : Only A sB (Machine.fxEntryCacheRead n m slots s) := by
  unfold Machine.fxEntryCacheRead
  repeat' first
    | dsimp only
    | with_reducible assumption
    | intro _
    | with_reducible apply Only.emitRd (hA := List.Subset.trans (by decide) hA)
    | with_reducible apply Only.modSq (hA := List.Subset.trans (by decide) hA)
    | with_reducible apply Only.sqFault (hA := List.Subset.trans (by decide) hA)
    | with_reducible apply Only.violT (hA := List.Subset.trans (by decide) hA)
    | with_reducible apply Only.whenS
    | with_reducible refine Only.ite ?_ ?_
    | split

theorem Only.chargeNew {A : List Part} {sB : State} (n : TenantIx) (m : RingIx) (s : State) (hA : [.sqs] ⊆ A) (h : Only A sB s) : Only A sB (Machine.chargeNew n m s) := by
  unfold Machine.chargeNew
  repeat' first
    | dsimp only
    | with_reducible assumption
    | intro _
    | with_reducible apply Only.modSq (hA := List.Subset.trans (by decide) hA)
    | with_reducible refine Only.ite ?_ ?_
    | split

theorem Only.fxRingSlotReadReturn {A : List Part} {sB : State} (n : TenantIx) (m : RingIx) (data : Bytes) (ecc : Ecc) (s : State) (hA : [.notice, .sqs, .ces, .jrn, .evPend, .pviol, .pvcnt, .out] ⊆ A) (h : Only A sB s) : Only A sB (Machine.fxRingSlotReadReturn n m data ecc s) := by
  unfold Machine.fxRingSlotReadReturn
  repeat' first
    | dsimp only
    | with_reducible assumption
    | intro _
    | with_reducible apply Only.chargeNew (hA := List.Subset.trans (by decide) hA)
    | with_reducible apply Only.countCe (hA := List.Subset.trans (by decide) hA)
    | with_reducible apply Only.journalUe (hA := List.Subset.trans (by decide) hA)
    | with_reducible apply Only.modSq (hA := List.Subset.trans (by decide) hA)
    | with_reducible apply Only.raiseG (hA := List.Subset.trans (by decide) hA)
    | with_reducible apply Only.whenS
    | with_reducible refine Only.ite ?_ ?_
    | split

end Sys2Proof.Machine
end

