-- ==== Sys2Proof/Laws/FrameChannels.lean ====
section
/-!
SUPPORT. Frames of the operations of Machine/Channels.lean: the parts of the state that each may change.
-/

set_option Elab.async false

namespace Sys2Proof.Machine

theorem Only.dcViol {A : List Part} {sB : State} (k : Nat) (addr : Nat) (d : Dir) (cause : Nat) (s : State) (hA : [.tens] ⊆ A) (h : Only A sB s) : Only A sB (Machine.dcViol k addr d cause s) := by
  unfold Machine.dcViol
  repeat' first
    | dsimp only
    | with_reducible assumption
    | intro _
    | with_reducible apply Only.violT (hA := List.Subset.trans (by decide) hA)
    | with_reducible refine Only.ite ?_ ?_
    | split

theorem Only.dcRecord_eq {A : List Part} {sB : State} {k st detail : Nat} {i : List Nat} {addr : Nat} {d : Dir} {s : State}  {t : State} (hA : [.dcs, .out] ⊆ A) (e : Machine.dcRecord k st detail i addr d s = some t) (h : Only A sB s) : Only A sB t := by
  unfold Machine.dcRecord at e
  repeat' first
    | split at e
    | (simp only [reduceCtorEq] at e; done)
    | (simp only [Option.some.injEq, Prod.mk.injEq] at e; first | subst e | (obtain ⟨_, rfl⟩ := e) | (obtain ⟨_, _, rfl⟩ := e))
    | dsimp only at e
    | with_reducible assumption
    | with_reducible apply Only.emitRecord (hA := List.Subset.trans (by decide) hA)
    | with_reducible apply Only.modDc (hA := List.Subset.trans (by decide) hA)

theorem Only.dcStop {A : List Part} {sB : State} (k st detail : Nat) (addr : Nat) (d : Dir) (cause : Nat) (s : State) (hA : [.tens, .dcs, .out] ⊆ A) (h : Only A sB s) : Only A sB (Machine.dcStop k st detail addr d cause s) := by
  unfold Machine.dcStop
  repeat' first
    | dsimp only
    | with_reducible assumption
    | intro _
    | with_reducible apply Only.dcViol (hA := List.Subset.trans (by decide) hA)
    | with_reducible apply Only.modDc (hA := List.Subset.trans (by decide) hA)
    | with_reducible apply Only.raiseT (hA := List.Subset.trans (by decide) hA)
    | with_reducible refine Only.dcRecord_eq (hA := List.Subset.trans (by decide) hA) (by assumption) ?_
    | with_reducible refine Only.ite ?_ ?_
    | split

theorem Only.dcRecordFault {A : List Part} {sB : State} (k st addr cause : Nat) (s : State) (hA : [.tens, .dcs] ⊆ A) (h : Only A sB s) : Only A sB (Machine.dcRecordFault k st addr cause s) := by
  unfold Machine.dcRecordFault
  repeat' first
    | dsimp only
    | with_reducible assumption
    | intro _
    | with_reducible apply Only.modDc (hA := List.Subset.trans (by decide) hA)
    | with_reducible apply Only.raiseT (hA := List.Subset.trans (by decide) hA)
    | with_reducible refine Only.ite ?_ ?_
    | split

theorem Only.dcUnsup {A : List Part} {sB : State} (k detail : Nat) (s : State) (hA : [.tens, .dcs, .out] ⊆ A) (h : Only A sB s) : Only A sB (Machine.dcUnsup k detail s) := by
  unfold Machine.dcUnsup
  repeat' first
    | with_reducible assumption
    | with_reducible apply Only.dcStop (hA := List.Subset.trans (by decide) hA)

theorem Only.dcWrote {A : List Part} {sB : State} (k addr len : Nat) (s : State) (hA : [.dcs] ⊆ A) (h : Only A sB s) : Only A sB (Machine.dcWrote k addr len s) := by
  unfold Machine.dcWrote
  repeat' first
    | with_reducible assumption
    | intro _
    | with_reducible apply Only.modDc (hA := List.Subset.trans (by decide) hA)
    | with_reducible apply Only.foldl

theorem Only.dcWrite {A : List Part} {sB : State} (k : Nat) (addr : Nat) (data : Bytes) (resume : List Nat) (s : State) (hA : [.tens, .dcs, .out] ⊆ A) (h : Only A sB s) : Only A sB (Machine.dcWrite k addr data resume s) := by
  unfold Machine.dcWrite
  repeat' first
    | dsimp only
    | with_reducible assumption
    | intro _
    | with_reducible apply Only.dcStop (hA := List.Subset.trans (by decide) hA)
    | with_reducible apply Only.dcViol (hA := List.Subset.trans (by decide) hA)
    | with_reducible apply Only.dcWrote (hA := List.Subset.trans (by decide) hA)
    | with_reducible apply Only.emitWr (hA := List.Subset.trans (by decide) hA)
    | with_reducible apply Only.modDc (hA := List.Subset.trans (by decide) hA)
    | with_reducible refine Only.ite ?_ ?_
    | split

theorem Only.dcFlush {A : List Part} {sB : State} (k : Nat) (x : Nat) (s : State) (hA : [.tens, .dcs, .out] ⊆ A) (h : Only A sB s) : Only A sB (Machine.dcFlush k x s) := by
  induction x generalizing s with
  | zero => exact h
  | succ n ih =>
    unfold Machine.dcFlush
    repeat' first
      | dsimp only
      | with_reducible assumption
      | intro _
      | with_reducible apply Only.dcWrite (hA := List.Subset.trans (by decide) hA)
      | with_reducible apply Only.modDc (hA := List.Subset.trans (by decide) hA)
      | with_reducible refine Only.ite ?_ ?_
      | split
      | with_reducible apply ih

theorem Only.dcFlushAll {A : List Part} {sB : State} (k : Nat) (s : State) (hA : [.tens, .dcs, .out] ⊆ A) (h : Only A sB s) : Only A sB (Machine.dcFlushAll k s) := by
  unfold Machine.dcFlushAll
  repeat' first
    | with_reducible assumption
    | with_reducible apply Only.dcFlush (hA := List.Subset.trans (by decide) hA)

theorem Only.dcReadFault {A : List Part} {sB : State} (k fa cause : Nat) (s : State) (hA : [.tens, .dcs, .out] ⊆ A) (h : Only A sB s) : Only A sB (Machine.dcReadFault k fa cause s) := by
  unfold Machine.dcReadFault
  repeat' first
    | dsimp only
    | with_reducible assumption
    | intro _
    | with_reducible apply Only.dcFlushAll (hA := List.Subset.trans (by decide) hA)
    | with_reducible apply Only.dcStop (hA := List.Subset.trans (by decide) hA)
    | with_reducible apply Only.dcViol (hA := List.Subset.trans (by decide) hA)
    | with_reducible refine Only.ite ?_ ?_

theorem Only.dcFence {A : List Part} {sB : State} (k : Nat) (s : State) (hA : [.tens, .dcs, .out] ⊆ A) (h : Only A sB s) : Only A sB (Machine.dcFence k s) := by
  unfold Machine.dcFence
  repeat' first
    | dsimp only
    | with_reducible assumption
    | intro _
    | with_reducible apply Only.dcStop (hA := List.Subset.trans (by decide) hA)
    | with_reducible apply Only.dcViol (hA := List.Subset.trans (by decide) hA)
    | with_reducible apply Only.emitRd (hA := List.Subset.trans (by decide) hA)
    | with_reducible apply Only.foldl
    | with_reducible apply Only.modDc (hA := List.Subset.trans (by decide) hA)
    | with_reducible refine Only.ite ?_ ?_
    | split

theorem Only.dcAtPoint {A : List Part} {sB : State} (k : Nat) (s : State) (hA : [.tens, .dcs, .out] ⊆ A) (h : Only A sB s) : Only A sB (Machine.dcAtPoint k s) := by
  unfold Machine.dcAtPoint
  repeat' first
    | dsimp only
    | with_reducible assumption
    | intro _
    | with_reducible apply Only.dcFence (hA := List.Subset.trans (by decide) hA)
    | with_reducible apply Only.dcFlushAll (hA := List.Subset.trans (by decide) hA)
    | with_reducible apply Only.modDc (hA := List.Subset.trans (by decide) hA)
    | with_reducible refine Only.ite ?_ ?_
    | split

theorem Only.usePsrc {A : List Part} {sB : State} (k p : Nat) (s : State) (hA : [.dcs] ⊆ A) (h : Only A sB s) : Only A sB (Machine.usePsrc k p s) := by
  unfold Machine.usePsrc
  repeat' first
    | with_reducible assumption
    | with_reducible apply Only.modDc (hA := List.Subset.trans (by decide) hA)

theorem Only.dcSettle {A : List Part} {sB : State} (k : Nat) (s : State) (hA : [.tens, .dcs] ⊆ A) (h : Only A sB s) : Only A sB (Machine.dcSettle k s) := by
  unfold Machine.dcSettle
  repeat' first
    | dsimp only
    | with_reducible assumption
    | intro _
    | with_reducible apply Only.modDc (hA := List.Subset.trans (by decide) hA)
    | with_reducible apply Only.raiseT (hA := List.Subset.trans (by decide) hA)
    | with_reducible refine Only.ite ?_ ?_

theorem Only.dcTake {A : List Part} {sB : State} (k : Nat) (b : Bytes) (s : State) (hA : [.tens, .dcs, .out] ⊆ A) (h : Only A sB s) : Only A sB (Machine.dcTake k b s) := by
  unfold Machine.dcTake
  repeat' first
    | dsimp only
    | with_reducible assumption
    | intro _
    | with_reducible apply Only.dcAtPoint (hA := List.Subset.trans (by decide) hA)
    | with_reducible apply Only.dcFence (hA := List.Subset.trans (by decide) hA)
    | with_reducible apply Only.dcSettle (hA := List.Subset.trans (by decide) hA)
    | with_reducible apply Only.dcUnsup (hA := List.Subset.trans (by decide) hA)
    | with_reducible apply Only.modDc (hA := List.Subset.trans (by decide) hA)
    | with_reducible apply Only.usePsrc (hA := List.Subset.trans (by decide) hA)
    | with_reducible refine Only.ite ?_ ?_
    | split

theorem Only.dcReach {A : List Part} {sB : State} (k : Nat) (s : State) (hA : [.tens, .dcs, .out] ⊆ A) (h : Only A sB s) : Only A sB (Machine.dcReach k s) := by
  unfold Machine.dcReach
  repeat' first
    | dsimp only
    | with_reducible assumption
    | intro _
    | with_reducible apply Only.dcStop (hA := List.Subset.trans (by decide) hA)
    | with_reducible apply Only.dcTake (hA := List.Subset.trans (by decide) hA)
    | with_reducible apply Only.dcUnsup (hA := List.Subset.trans (by decide) hA)
    | with_reducible apply Only.emitRd (hA := List.Subset.trans (by decide) hA)
    | with_reducible apply Only.modDc (hA := List.Subset.trans (by decide) hA)
    | with_reducible apply Only.violT (hA := List.Subset.trans (by decide) hA)
    | with_reducible refine Only.ite ?_ ?_
    | split

theorem Only.dcGoto {A : List Part} {sB : State} (k d : Nat) (s : State) (hA : [.tens, .dcs, .out] ⊆ A) (h : Only A sB s) : Only A sB (Machine.dcGoto k d s) := by
  unfold Machine.dcGoto
  repeat' first
    | dsimp only
    | with_reducible assumption
    | intro _
    | with_reducible apply Only.dcReach (hA := List.Subset.trans (by decide) hA)
    | with_reducible apply Only.modDc (hA := List.Subset.trans (by decide) hA)
    | with_reducible refine Only.ite ?_ ?_
    | split

theorem Only.dcIdle {A : List Part} {sB : State} (k : Nat) (s : State) (hA : [.dcs] ⊆ A) (h : Only A sB s) : Only A sB (Machine.dcIdle k s) := by
  unfold Machine.dcIdle
  repeat' first
    | dsimp only
    | with_reducible assumption
    | intro _
    | with_reducible apply Only.modDc (hA := List.Subset.trans (by decide) hA)
    | with_reducible refine Only.ite ?_ ?_
    | split

theorem Only.dcCredit {A : List Part} {sB : State} (k : Nat) (s : State) (hA : [.tens, .dcs] ⊆ A) (h : Only A sB s) : Only A sB (Machine.dcCredit k s) := by
  unfold Machine.dcCredit
  repeat' first
    | dsimp only
    | with_reducible assumption
    | intro _
    | with_reducible apply Only.dcSettle (hA := List.Subset.trans (by decide) hA)
    | with_reducible apply Only.modDc (hA := List.Subset.trans (by decide) hA)
    | with_reducible apply Only.raiseT (hA := List.Subset.trans (by decide) hA)
    | with_reducible refine Only.ite ?_ ?_

theorem Only.pulseChans {A : List Part} {sB : State} (src : Nat) (s : State) (hA : [.tens, .dcs] ⊆ A) (h : Only A sB s) : Only A sB (Machine.pulseChans src s) := by
  unfold Machine.pulseChans
  repeat' first
    | with_reducible assumption
    | intro _
    | with_reducible apply Only.dcCredit (hA := List.Subset.trans (by decide) hA)
    | with_reducible apply Only.eachN
    | with_reducible refine Only.ite ?_ ?_

theorem Only.fxDcPacePulse {A : List Part} {sB : State} (src : BitVec 6) (s : State) (hA : [.tens, .dcs] ⊆ A) (h : Only A sB s) : Only A sB (Machine.fxDcPacePulse src s) := by
  unfold Machine.fxDcPacePulse
  repeat' first
    | dsimp only
    | with_reducible assumption
    | intro _
    | with_reducible apply Only.pulseChans (hA := List.Subset.trans (by decide) hA)
    | with_reducible apply Only.whenS
    | with_reducible refine Only.ite ?_ ?_
    | split

theorem Only.chanCredits {A : List Part} {sB : State} (j : Nat) (s : State) (hA : [.tens, .dcs] ⊆ A) (h : Only A sB s) : Only A sB (Machine.chanCredits j s) := by
  unfold Machine.chanCredits
  repeat' first
    | with_reducible assumption
    | intro _
    | with_reducible apply Only.dcCredit (hA := List.Subset.trans (by decide) hA)
    | with_reducible apply Only.eachN
    | with_reducible refine Only.ite ?_ ?_

theorem Only.dcDropCopies {A : List Part} {sB : State} (k : Nat) (s : State) (hA : [.dcs] ⊆ A) (h : Only A sB s) : Only A sB (Machine.dcDropCopies k s) := by
  unfold Machine.dcDropCopies
  repeat' first
    | dsimp only
    | with_reducible assumption
    | intro _
    | with_reducible apply Only.modDc (hA := List.Subset.trans (by decide) hA)
    | with_reducible refine Only.ite ?_ ?_
    | split

theorem Only.dcAbort {A : List Part} {sB : State} (k : Nat) (s : State) (hA : [.tens, .dcs, .out] ⊆ A) (h : Only A sB s) : Only A sB (Machine.dcAbort k s) := by
  unfold Machine.dcAbort
  repeat' first
    | dsimp only
    | with_reducible assumption
    | intro _
    | with_reducible apply Only.dcIdle (hA := List.Subset.trans (by decide) hA)
    | with_reducible apply Only.dcRecordFault (hA := List.Subset.trans (by decide) hA)
    | with_reducible apply Only.dcViol (hA := List.Subset.trans (by decide) hA)
    | with_reducible apply Only.modDc (hA := List.Subset.trans (by decide) hA)
    | with_reducible refine Only.dcRecord_eq (hA := List.Subset.trans (by decide) hA) (by assumption) ?_
    | with_reducible apply Only.dcRecord (hA := List.Subset.trans (by decide) hA)
    | with_reducible refine Only.ite ?_ ?_
    | split

theorem Only.gateDc {A : List Part} {sB : State} (who : Who) (k : ChanIx) (val : Word) (f : State → State) (s : State) (hA : [.denied, .notice, .jrn, .evPend, .pviol, .pvcnt, .out] ⊆ A) (h : Only A sB s) (hf : ∀ x0, Only A sB x0 → Only A sB (f x0)) : Only A sB (Machine.gateDc who k val f s) := by
  unfold Machine.gateDc
  repeat' first
    | with_reducible assumption
    | intro _
    | with_reducible apply Only.dropReg (hA := List.Subset.trans (by decide) hA)
    | with_reducible apply Only.gateW (hA := List.Subset.trans (by decide) hA)
    | with_reducible refine Only.ite ?_ ?_
    | apply hf

theorem Only.dcClrcred {A : List Part} {sB : State} (k : Nat) (s : State) (hA : [.tens, .dcs] ⊆ A) (h : Only A sB s) : Only A sB (Machine.dcClrcred k s) := by
  unfold Machine.dcClrcred
  repeat' first
    | dsimp only
    | with_reducible assumption
    | intro _
    | with_reducible apply Only.dcSettle (hA := List.Subset.trans (by decide) hA)
    | with_reducible apply Only.modDc (hA := List.Subset.trans (by decide) hA)
    | with_reducible refine Only.ite ?_ ?_
    | split

theorem Only.fxDcAbort {A : List Part} {sB : State} (who : Who) (k : ChanIx) (s : State) (hA : [.denied, .notice, .tens, .dcs, .jrn, .evPend, .pviol, .pvcnt, .out] ⊆ A) (h : Only A sB s) : Only A sB (Machine.fxDcAbort who k s) := by
  unfold Machine.fxDcAbort
  repeat' first
    | with_reducible assumption
    | intro _
    | with_reducible apply Only.dcAbort (hA := List.Subset.trans (by decide) hA)
    | with_reducible apply Only.gateDc (hA := List.Subset.trans (by decide) hA)

theorem Only.fxDcRefetch {A : List Part} {sB : State} (who : Who) (k : ChanIx) (s : State) (hA : [.denied, .notice, .dcs, .jrn, .evPend, .pviol, .pvcnt, .out] ⊆ A) (h : Only A sB s) : Only A sB (Machine.fxDcRefetch who k s) := by
  unfold Machine.fxDcRefetch
  repeat' first
    | with_reducible assumption
    | intro _
    | with_reducible apply Only.dcDropCopies (hA := List.Subset.trans (by decide) hA)
    | with_reducible apply Only.gateDc (hA := List.Subset.trans (by decide) hA)

theorem Only.fxDcClrcred {A : List Part} {sB : State} (who : Who) (k : ChanIx) (s : State) (hA : [.denied, .notice, .tens, .dcs, .jrn, .evPend, .pviol, .pvcnt, .out] ⊆ A) (h : Only A sB s) : Only A sB (Machine.fxDcClrcred who k s) := by
  unfold Machine.fxDcClrcred
  repeat' first
    | dsimp only
    | with_reducible assumption
    | intro _
    | with_reducible apply Only.dcClrcred (hA := List.Subset.trans (by decide) hA)
    | with_reducible apply Only.gateDc (hA := List.Subset.trans (by decide) hA)
    | with_reducible refine Only.ite ?_ ?_
    | split

theorem Only.dcConfig {A : List Part} {sB : State} (who : Who) (k : ChanIx) (r : DcSetup) (mask val : Word) (s : State) (hA : [.denied, .notice, .tens, .dcs, .jrn, .evPend, .pviol, .pvcnt, .out] ⊆ A) (h : Only A sB s) : Only A sB (Machine.dcConfig who k r mask val s) := by
  unfold Machine.dcConfig
  repeat' first
    | dsimp only
    | with_reducible assumption
    | intro _
    | with_reducible apply Only.dcSettle (hA := List.Subset.trans (by decide) hA)
    | with_reducible apply Only.dropPiece (hA := List.Subset.trans (by decide) hA)
    | with_reducible apply Only.modDc (hA := List.Subset.trans (by decide) hA)
    | with_reducible refine Only.ite ?_ ?_
    | split

theorem Only.fxDcConfigWrite {A : List Part} {sB : State} (who : Who) (k : ChanIx) (r : DcSetup) (v : Word) (s : State) (hA : [.denied, .notice, .tens, .dcs, .jrn, .evPend, .pviol, .pvcnt, .out] ⊆ A) (h : Only A sB s) : Only A sB (Machine.fxDcConfigWrite who k r v s) := by
  unfold Machine.fxDcConfigWrite
  repeat' first
    | with_reducible assumption
    | intro _
    | with_reducible apply Only.dcConfig (hA := List.Subset.trans (by decide) hA)
    | with_reducible apply Only.gateW (hA := List.Subset.trans (by decide) hA)

theorem Only.dcHead {A : List Part} {sB : State} (k new : Nat) (s : State) (hA : [.tens, .dcs] ⊆ A) (h : Only A sB s) : Only A sB (Machine.dcHead k new s) := by
  unfold Machine.dcHead
  repeat' first
    | with_reducible assumption
    | with_reducible apply Only.dcSettle (hA := List.Subset.trans (by decide) hA)
    | with_reducible apply Only.modDc (hA := List.Subset.trans (by decide) hA)

theorem Only.fxDcRecHeadWrite {A : List Part} {sB : State} (who : Who) (k : ChanIx) (head : BitVec 11) (s : State) (hA : [.denied, .notice, .tens, .dcs, .jrn, .evPend, .pviol, .pvcnt, .out] ⊆ A) (h : Only A sB s) : Only A sB (Machine.fxDcRecHeadWrite who k head s) := by
  unfold Machine.fxDcRecHeadWrite
  repeat' first
    | with_reducible assumption
    | intro _
    | with_reducible apply Only.dcHead (hA := List.Subset.trans (by decide) hA)
    | with_reducible apply Only.gateW (hA := List.Subset.trans (by decide) hA)

theorem Only.fxDescriptorFetchReturn {A : List Part} {sB : State} (k : ChanIx) (data : Bytes) (s : State) (hA : [.tens, .dcs, .out] ⊆ A) (h : Only A sB s) : Only A sB (Machine.fxDescriptorFetchReturn k data s) := by
  unfold Machine.fxDescriptorFetchReturn
  repeat' first
    | dsimp only
    | with_reducible assumption
    | intro _
    | with_reducible apply Only.dcTake (hA := List.Subset.trans (by decide) hA)
    | with_reducible apply Only.emitRd (hA := List.Subset.trans (by decide) hA)
    | with_reducible apply Only.modDc (hA := List.Subset.trans (by decide) hA)
    | with_reducible apply Only.whenS
    | with_reducible refine Only.ite ?_ ?_
    | split

theorem Only.dcTag {A : List Part} {sB : State} (k : Nat) (s : State) (hA : [.dcs] ⊆ A) (h : Only A sB s) : Only A sB (Machine.dcTag k s) := by
  unfold Machine.dcTag
  repeat' first
    | with_reducible assumption
    | with_reducible apply Only.modDc (hA := List.Subset.trans (by decide) hA)

theorem Only.fxDcUnitStart {A : List Part} {sB : State} (k : ChanIx) (s : State) (hA : [.dcs] ⊆ A) (h : Only A sB s) : Only A sB (Machine.fxDcUnitStart k s) := by
  unfold Machine.fxDcUnitStart
  repeat' first
    | dsimp only
    | with_reducible assumption
    | intro _
    | with_reducible apply Only.dcTag (hA := List.Subset.trans (by decide) hA)
    | with_reducible apply Only.modDc (hA := List.Subset.trans (by decide) hA)
    | with_reducible apply Only.whenS

theorem Only.dcServed {A : List Part} {sB : State} (k : Nat) (s : State) (hA : [.sch] ⊆ A) (h : Only A sB s) : Only A sB (Machine.dcServed k s) := by
  unfold Machine.dcServed
  repeat' first
    | dsimp only
    | with_reducible assumption
    | intro _
    | with_reducible apply Only.modSch (hA := List.Subset.trans (by decide) hA)
    | with_reducible refine Only.ite ?_ ?_
    | split

theorem Only.dcRead {A : List Part} {sB : State} (k : Nat) (d : Desc) (is : List (Nat × Nat × Nat)) (data : Bytes) (s : State) (hA : [.dcs, .out] ⊆ A) (h : Only A sB s) : Only A sB (Machine.dcRead k d is data s) := by
  unfold Machine.dcRead
  repeat' first
    | dsimp only
    | with_reducible assumption
    | intro _
    | with_reducible apply Only.emitRd (hA := List.Subset.trans (by decide) hA)
    | with_reducible apply Only.modDc (hA := List.Subset.trans (by decide) hA)
    | with_reducible refine Only.ite ?_ ?_
    | split

theorem Only.dcMoved {A : List Part} {sB : State} (k n : Nat) (s : State) (hA : [.dcs] ⊆ A) (h : Only A sB s) : Only A sB (Machine.dcMoved k n s) := by
  unfold Machine.dcMoved
  repeat' first
    | dsimp only
    | with_reducible assumption
    | intro _
    | with_reducible apply Only.dcTag (hA := List.Subset.trans (by decide) hA)
    | with_reducible apply Only.modDc (hA := List.Subset.trans (by decide) hA)
    | with_reducible refine Only.ite ?_ ?_

theorem Only.dcGather {A : List Part} {sB : State} (k key addr : Nat) (data : Bytes) (s : State) (hA : [.tens, .dcs, .out] ⊆ A) (h : Only A sB s) : Only A sB (Machine.dcGather k key addr data s) := by
  unfold Machine.dcGather
  repeat' first
    | dsimp only
    | with_reducible assumption
    | intro _
    | with_reducible apply Only.dcWrite (hA := List.Subset.trans (by decide) hA)
    | with_reducible apply Only.modDc (hA := List.Subset.trans (by decide) hA)
    | with_reducible refine Only.ite ?_ ?_
    | split

theorem Only.dcAdvance {A : List Part} {sB : State} (k : Nat) (d : Desc) (s : State) (hA : [.tens, .dcs, .out] ⊆ A) (h : Only A sB s) : Only A sB (Machine.dcAdvance k d s) := by
  unfold Machine.dcAdvance
  repeat' first
    | dsimp only
    | with_reducible assumption
    | intro _
    | with_reducible apply Only.dcAtPoint (hA := List.Subset.trans (by decide) hA)
    | with_reducible apply Only.dcFlushAll (hA := List.Subset.trans (by decide) hA)
    | with_reducible apply Only.dcSettle (hA := List.Subset.trans (by decide) hA)
    | with_reducible apply Only.modDc (hA := List.Subset.trans (by decide) hA)
    | with_reducible refine Only.ite ?_ ?_

theorem Only.dcMove {A : List Part} {sB : State} (k : Nat) (d : Desc) (data : Bytes) (s : State) (hA : [.tens, .dcs, .out] ⊆ A) (h : Only A sB s) : Only A sB (Machine.dcMove k d data s) := by
  unfold Machine.dcMove
  repeat' first
    | dsimp only
    | with_reducible assumption
    | intro _
    | with_reducible apply Only.dcAdvance (hA := List.Subset.trans (by decide) hA)
    | with_reducible apply Only.dcGather (hA := List.Subset.trans (by decide) hA)
    | with_reducible apply Only.dcMoved (hA := List.Subset.trans (by decide) hA)
    | with_reducible refine Only.ite ?_ ?_
    | split

theorem Only.dcMoveRead {A : List Part} {sB : State} (k : Nat) (d : Desc) (s : State) (hA : [.tens, .dcs, .out] ⊆ A) (h : Only A sB s) : Only A sB (Machine.dcMoveRead k d s) := by
  unfold Machine.dcMoveRead
  repeat' first
    | dsimp only
    | with_reducible assumption
    | intro _
    | with_reducible apply Only.dcMove (hA := List.Subset.trans (by decide) hA)
    | with_reducible apply Only.modDc (hA := List.Subset.trans (by decide) hA)
    | with_reducible refine Only.ite ?_ ?_
    | split

theorem Only.dcComplete {A : List Part} {sB : State} (k : Nat) (x : Nat) (s : State) (hA : [.tens, .dcs, .out] ⊆ A) (h : Only A sB s) : Only A sB (Machine.dcComplete k x s) := by
  induction x generalizing s with
  | zero => exact h
  | succ l ih =>
    unfold Machine.dcComplete
    repeat' first
      | dsimp only
      | with_reducible assumption
      | intro _
      | with_reducible apply Only.dcMoveRead (hA := List.Subset.trans (by decide) hA)
      | with_reducible refine Only.ite ?_ ?_
      | split
      | with_reducible apply ih

theorem Only.dcSetPause {A : List Part} {sB : State} (k : Nat) (s : State) (hA : [.tens, .dcs, .out] ⊆ A) (h : Only A sB s) : Only A sB (Machine.dcSetPause k s) := by
  unfold Machine.dcSetPause
  repeat' first
    | dsimp only
    | with_reducible assumption
    | intro _
    | with_reducible apply Only.dcComplete (hA := List.Subset.trans (by decide) hA)
    | with_reducible apply Only.dcFlushAll (hA := List.Subset.trans (by decide) hA)
    | with_reducible apply Only.modDc (hA := List.Subset.trans (by decide) hA)
    | with_reducible refine Only.ite ?_ ?_
    | split

theorem Only.dcHoldBack {A : List Part} {sB : State} (k : Nat) (s : State) (hA : [.tens, .dcs, .out] ⊆ A) (h : Only A sB s) : Only A sB (Machine.dcHoldBack k s) := by
  unfold Machine.dcHoldBack
  repeat' first
    | dsimp only
    | with_reducible assumption
    | intro _
    | with_reducible apply Only.dcSetPause (hA := List.Subset.trans (by decide) hA)
    | with_reducible apply Only.whenS
    | with_reducible refine Only.ite ?_ ?_
    | split

theorem Only.dcStart {A : List Part} {sB : State} (k : Nat) (s : State) (hA : [.tens, .dcs, .out] ⊆ A) (h : Only A sB s) : Only A sB (Machine.dcStart k s) := by
  unfold Machine.dcStart
  repeat' first
    | dsimp only
    | with_reducible assumption
    | intro _
    | with_reducible apply Only.dcHoldBack (hA := List.Subset.trans (by decide) hA)
    | with_reducible apply Only.dcReach (hA := List.Subset.trans (by decide) hA)
    | with_reducible apply Only.dcSettle (hA := List.Subset.trans (by decide) hA)
    | with_reducible apply Only.modDc (hA := List.Subset.trans (by decide) hA)
    | with_reducible refine Only.ite ?_ ?_
    | split

theorem Only.dcClearPause {A : List Part} {sB : State} (k : Nat) (s : State) (hA : [.tens, .dcs, .out] ⊆ A) (h : Only A sB s) : Only A sB (Machine.dcClearPause k s) := by
  unfold Machine.dcClearPause
  repeat' first
    | with_reducible assumption
    | intro _
    | with_reducible apply Only.dcStart (hA := List.Subset.trans (by decide) hA)
    | with_reducible apply Only.modDc (hA := List.Subset.trans (by decide) hA)
    | with_reducible refine Only.ite ?_ ?_

theorem Only.dcCtlWrite {A : List Part} {sB : State} (k : Nat) (mask val : Word) (s : State) (hA : [.tens, .dcs, .out] ⊆ A) (h : Only A sB s) : Only A sB (Machine.dcCtlWrite k mask val s) := by
  unfold Machine.dcCtlWrite
  repeat' first
    | dsimp only
    | with_reducible assumption
    | intro _
    | with_reducible apply Only.dcAbort (hA := List.Subset.trans (by decide) hA)
    | with_reducible apply Only.dcClearPause (hA := List.Subset.trans (by decide) hA)
    | with_reducible apply Only.dcClrcred (hA := List.Subset.trans (by decide) hA)
    | with_reducible apply Only.dcDropCopies (hA := List.Subset.trans (by decide) hA)
    | with_reducible apply Only.dcSetPause (hA := List.Subset.trans (by decide) hA)
    | with_reducible apply Only.dcStart (hA := List.Subset.trans (by decide) hA)
    | with_reducible refine Only.ite ?_ ?_
    | split

theorem Only.fxDcResume {A : List Part} {sB : State} (who : Who) (k : ChanIx) (s : State) (hA : [.denied, .notice, .tens, .dcs, .jrn, .evPend, .pviol, .pvcnt, .out] ⊆ A) (h : Only A sB s) : Only A sB (Machine.fxDcResume who k s) := by
  unfold Machine.fxDcResume
  repeat' first
    | with_reducible assumption
    | intro _
    | with_reducible apply Only.dcClearPause (hA := List.Subset.trans (by decide) hA)
    | with_reducible apply Only.gateDc (hA := List.Subset.trans (by decide) hA)

theorem Only.fxDcGo {A : List Part} {sB : State} (who : Who) (k : ChanIx) (s : State) (hA : [.denied, .notice, .tens, .dcs, .jrn, .evPend, .pviol, .pvcnt, .out] ⊆ A) (h : Only A sB s) : Only A sB (Machine.fxDcGo who k s) := by
  unfold Machine.fxDcGo
  repeat' first
    | with_reducible assumption
    | intro _
    | with_reducible apply Only.dcStart (hA := List.Subset.trans (by decide) hA)
    | with_reducible apply Only.gateDc (hA := List.Subset.trans (by decide) hA)

theorem Only.fxDcPause {A : List Part} {sB : State} (who : Who) (k : ChanIx) (s : State) (hA : [.denied, .notice, .tens, .dcs, .jrn, .evPend, .pviol, .pvcnt, .out] ⊆ A) (h : Only A sB s) : Only A sB (Machine.fxDcPause who k s) := by
  unfold Machine.fxDcPause
  repeat' first
    | with_reducible assumption
    | intro _
    | with_reducible apply Only.dcSetPause (hA := List.Subset.trans (by decide) hA)
    | with_reducible apply Only.gateDc (hA := List.Subset.trans (by decide) hA)

theorem Only.fxDcElementGrant {A : List Part} {sB : State} (k : ChanIx) (data : Bytes) (move : Bool) (s : State) (hA : [.tens, .sch, .dcs, .out] ⊆ A) (h : Only A sB s) : Only A sB (Machine.fxDcElementGrant k data move s) := by
  unfold Machine.fxDcElementGrant
  repeat' first
    | dsimp only
    | with_reducible assumption
    | intro _
    | with_reducible apply Only.dcMoveRead (hA := List.Subset.trans (by decide) hA)
    | with_reducible apply Only.dcRead (hA := List.Subset.trans (by decide) hA)
    | with_reducible apply Only.dcReadFault (hA := List.Subset.trans (by decide) hA)
    | with_reducible apply Only.dcServed (hA := List.Subset.trans (by decide) hA)
    | with_reducible apply Only.whenS
    | with_reducible refine Only.ite ?_ ?_
    | split

theorem Only.dcPost {A : List Part} {sB : State} (k sq adv count : Nat) (meets : Bool) (s : State) (hA : [.denied, .notice, .tens, .sqs, .dcs, .jrn, .evPend, .pviol, .pvcnt, .out] ⊆ A) (h : Only A sB s) : Only A sB (Machine.dcPost k sq adv count meets s) := by
  unfold Machine.dcPost
  repeat' first
    | dsimp only
    | with_reducible assumption
    | intro _
    | with_reducible apply Only.dbWrite (hA := List.Subset.trans (by decide) hA)
    | with_reducible apply Only.modDc (hA := List.Subset.trans (by decide) hA)
    | with_reducible apply Only.raiseT (hA := List.Subset.trans (by decide) hA)
    | with_reducible refine Only.ite ?_ ?_
    | split

theorem Only.dcDone {A : List Part} {sB : State} (k : Nat) (s : State) (hA : [.tens, .dcs, .out] ⊆ A) (h : Only A sB s) : Only A sB (Machine.dcDone k s) := by
  unfold Machine.dcDone
  repeat' first
    | with_reducible assumption
    | with_reducible apply Only.dcRecordFault (hA := List.Subset.trans (by decide) hA)
    | with_reducible apply Only.dcViol (hA := List.Subset.trans (by decide) hA)
    | with_reducible refine Only.dcRecord_eq (hA := List.Subset.trans (by decide) hA) (by assumption) ?_
    | split

theorem Only.dcActs {A : List Part} {sB : State} (k : Nat) (b : Bytes) (meets : Bool) (s : State) (hA : [.denied, .notice, .tens, .sqs, .dcs, .jrn, .evPend, .pviol, .pvcnt, .out] ⊆ A) (h : Only A sB s) : Only A sB (Machine.dcActs k b meets s) := by
  unfold Machine.dcActs
  repeat' first
    | dsimp only
    | with_reducible assumption
    | intro _
    | with_reducible apply Only.chanCredits (hA := List.Subset.trans (by decide) hA)
    | with_reducible apply Only.dcDone (hA := List.Subset.trans (by decide) hA)
    | with_reducible apply Only.dcPost (hA := List.Subset.trans (by decide) hA)
    | with_reducible apply Only.raiseT (hA := List.Subset.trans (by decide) hA)
    | with_reducible refine Only.ite ?_ ?_
    | split

theorem Only.dcNext {A : List Part} {sB : State} (k : Nat) (d : Desc) (s : State) (hA : [.tens, .dcs, .out] ⊆ A) (h : Only A sB s) : Only A sB (Machine.dcNext k d s) := by
  unfold Machine.dcNext
  repeat' first
    | dsimp only
    | with_reducible assumption
    | intro _
    | with_reducible apply Only.dcGoto (hA := List.Subset.trans (by decide) hA)
    | with_reducible apply Only.dcIdle (hA := List.Subset.trans (by decide) hA)
    | with_reducible refine Only.ite ?_ ?_
    | split

theorem Only.fxDcCompletionPoint {A : List Part} {sB : State} (k : ChanIx) (meets : Bool) (s : State) (hA : [.denied, .notice, .tens, .sqs, .dcs, .jrn, .evPend, .pviol, .pvcnt, .out] ⊆ A) (h : Only A sB s) : Only A sB (Machine.fxDcCompletionPoint k meets s) := by
  unfold Machine.fxDcCompletionPoint
  repeat' first
    | dsimp only
    | with_reducible assumption
    | intro _
    | with_reducible apply Only.dcActs (hA := List.Subset.trans (by decide) hA)
    | with_reducible apply Only.dcNext (hA := List.Subset.trans (by decide) hA)
    | with_reducible apply Only.modDc (hA := List.Subset.trans (by decide) hA)
    | with_reducible apply Only.whenS
    | with_reducible refine Only.ite ?_ ?_
    | split

theorem Only.dcClear {A : List Part} {sB : State} (k : Nat) (s : State) (hA : [.dcs] ⊆ A) (h : Only A sB s) : Only A sB (Machine.dcClear k s) := by
  unfold Machine.dcClear
  repeat' first
    | dsimp only
    | with_reducible assumption
    | intro _
    | with_reducible apply Only.modDc (hA := List.Subset.trans (by decide) hA)
    | with_reducible refine Only.ite ?_ ?_
    | split

theorem Only.dcReassign {A : List Part} {sB : State} (k detail : Nat) (s : State) (hA : [.denied, .notice, .tens, .sqs, .dcs, .jrn, .evPend, .pviol, .pvcnt, .out] ⊆ A) (h : Only A sB s) : Only A sB (Machine.dcReassign k detail s) := by
  unfold Machine.dcReassign
  repeat' first
    | dsimp only
    | with_reducible assumption
    | intro _
    | with_reducible apply Only.dcActs (hA := List.Subset.trans (by decide) hA)
    | with_reducible apply Only.dcClear (hA := List.Subset.trans (by decide) hA)
    | with_reducible apply Only.dcViol (hA := List.Subset.trans (by decide) hA)
    | with_reducible apply Only.modDc (hA := List.Subset.trans (by decide) hA)
    | with_reducible refine Only.dcRecord_eq (hA := List.Subset.trans (by decide) hA) (by assumption) ?_
    | with_reducible apply Only.dcRecord (hA := List.Subset.trans (by decide) hA)
    | with_reducible refine Only.ite ?_ ?_
    | split

theorem Only.dcReset {A : List Part} {sB : State} (k : Nat) (s : State) (hA : [.denied, .notice, .dcs, .jrn, .evPend, .pviol, .pvcnt, .out] ⊆ A) (h : Only A sB s) : Only A sB (Machine.dcReset k s) := by
  unfold Machine.dcReset
  repeat' first
    | dsimp only
    | with_reducible assumption
    | intro _
    | with_reducible apply Only.dcClear (hA := List.Subset.trans (by decide) hA)
    | with_reducible apply Only.dropReg (hA := List.Subset.trans (by decide) hA)
    | with_reducible refine Only.ite ?_ ?_
    | split

theorem Only.dcMergedFault {A : List Part} {sB : State} (n : Nat) (addr : Nat) (s : State) (hA : [.tens, .dcs, .evPend, .out] ⊆ A) (h : Only A sB s) : Only A sB (Machine.dcMergedFault n addr s) := by
  unfold Machine.dcMergedFault
  repeat' first
    | dsimp only
    | with_reducible assumption
    | intro _
    | with_reducible apply Only.dcFlushAll (hA := List.Subset.trans (by decide) hA)
    | with_reducible apply Only.dcStop (hA := List.Subset.trans (by decide) hA)
    | with_reducible apply Only.eachN
    | with_reducible apply Only.modTen (hA := List.Subset.trans (by decide) hA)
    | with_reducible apply Only.raiseG (hA := List.Subset.trans (by decide) hA)
    | with_reducible apply Only.raiseT (hA := List.Subset.trans (by decide) hA)
    | with_reducible refine Only.ite ?_ ?_
    | split

theorem Only.dcElementError {A : List Part} {sB : State} (k addr : Nat) (s : State) (hA : [.tens, .dcs, .out] ⊆ A) (h : Only A sB s) : Only A sB (Machine.dcElementError k addr s) := by
  unfold Machine.dcElementError
  repeat' first
    | dsimp only
    | with_reducible assumption
    | intro _
    | with_reducible apply Only.dcComplete (hA := List.Subset.trans (by decide) hA)
    | with_reducible apply Only.dcFlushAll (hA := List.Subset.trans (by decide) hA)
    | with_reducible apply Only.dcStop (hA := List.Subset.trans (by decide) hA)
    | with_reducible apply Only.modDc (hA := List.Subset.trans (by decide) hA)
    | with_reducible refine Only.ite ?_ ?_
    | split

theorem Only.dcBusError {A : List Part} {sB : State} (k : Nat) (addr : Nat) (d : Dir) (pref : Bool) (s : State) (hA : [.tens, .dcs, .out] ⊆ A) (h : Only A sB s) : Only A sB (Machine.dcBusError k addr d pref s) := by
  unfold Machine.dcBusError
  repeat' first
    | dsimp only
    | with_reducible assumption
    | intro _
    | with_reducible apply Only.dcElementError (hA := List.Subset.trans (by decide) hA)
    | with_reducible apply Only.dcRecordFault (hA := List.Subset.trans (by decide) hA)
    | with_reducible apply Only.dcStop (hA := List.Subset.trans (by decide) hA)
    | with_reducible apply Only.modDc (hA := List.Subset.trans (by decide) hA)
    | with_reducible refine Only.ite ?_ ?_
    | split

end Sys2Proof.Machine
end

