-- ==== Sys2Proof/Laws/FrameTrowel.lean ====
section
/-!
SUPPORT. Frames of the operations of Machine/Trowel.lean: the parts of the state that each may change.
-/

set_option Elab.async false

namespace Sys2Proof.Machine

theorem Only.tRun {A : List Part} {sB : State} (k : ChanIx) (opc : Nat) (f : Bytes → State → State) (s : State) (hA : [] ⊆ A) (h : Only A sB s) (hf : ∀ x0 x1, Only A sB x1 → Only A sB (f x0 x1)) : Only A sB (Machine.tRun k opc f s) := by
  unfold Machine.tRun
  repeat' first
    | with_reducible assumption
    | intro _
    | with_reducible apply Only.whenS
    | split
    | apply hf

theorem Only.tNext {A : List Part} {sB : State} (k : ChanIx) (s : State) (hA : [.tens, .dcs, .out] ⊆ A) (h : Only A sB s) : Only A sB (Machine.tNext k s) := by
  unfold Machine.tNext
  repeat' first
    | with_reducible assumption
    | with_reducible apply Only.dcGoto (hA := List.Subset.trans (by decide) hA)

theorem Only.tSetA {A : List Part} {sB : State} (k : ChanIx) (r v : Nat) (s : State) (hA : [.dcs] ⊆ A) (h : Only A sB s) : Only A sB (Machine.tSetA k r v s) := by
  unfold Machine.tSetA
  repeat' first
    | with_reducible assumption
    | with_reducible apply Only.modDc (hA := List.Subset.trans (by decide) hA)

theorem Only.tSetC {A : List Part} {sB : State} (k : ChanIx) (r v : Nat) (s : State) (hA : [.dcs] ⊆ A) (h : Only A sB s) : Only A sB (Machine.tSetC k r v s) := by
  unfold Machine.tSetC
  repeat' first
    | with_reducible assumption
    | with_reducible apply Only.modDc (hA := List.Subset.trans (by decide) hA)

theorem Only.fxSeta {A : List Part} {sB : State} (k : ChanIx) (s : State) (hA : [.tens, .dcs, .out] ⊆ A) (h : Only A sB s) : Only A sB (Machine.fxSeta k s) := by
  unfold Machine.fxSeta
  repeat' first
    | with_reducible assumption
    | intro _
    | with_reducible apply Only.tNext (hA := List.Subset.trans (by decide) hA)
    | with_reducible apply Only.tRun (hA := List.Subset.trans (by decide) hA)
    | with_reducible apply Only.tSetA (hA := List.Subset.trans (by decide) hA)

theorem Only.fxAdda {A : List Part} {sB : State} (k : ChanIx) (s : State) (hA : [.tens, .dcs, .out] ⊆ A) (h : Only A sB s) : Only A sB (Machine.fxAdda k s) := by
  unfold Machine.fxAdda
  repeat' first
    | dsimp only
    | with_reducible assumption
    | intro _
    | with_reducible apply Only.dcUnsup (hA := List.Subset.trans (by decide) hA)
    | with_reducible apply Only.tNext (hA := List.Subset.trans (by decide) hA)
    | with_reducible apply Only.tRun (hA := List.Subset.trans (by decide) hA)
    | with_reducible apply Only.tSetA (hA := List.Subset.trans (by decide) hA)
    | with_reducible refine Only.ite ?_ ?_

theorem Only.fxSetc {A : List Part} {sB : State} (k : ChanIx) (s : State) (hA : [.tens, .dcs, .out] ⊆ A) (h : Only A sB s) : Only A sB (Machine.fxSetc k s) := by
  unfold Machine.fxSetc
  repeat' first
    | with_reducible assumption
    | intro _
    | with_reducible apply Only.tNext (hA := List.Subset.trans (by decide) hA)
    | with_reducible apply Only.tRun (hA := List.Subset.trans (by decide) hA)
    | with_reducible apply Only.tSetC (hA := List.Subset.trans (by decide) hA)

theorem Only.tSetOff {A : List Part} {sB : State} (k : ChanIx) (o : Nat) (s : State) (hA : [.dcs] ⊆ A) (h : Only A sB s) : Only A sB (Machine.tSetOff k o s) := by
  unfold Machine.tSetOff
  repeat' first
    | with_reducible assumption
    | with_reducible apply Only.modDc (hA := List.Subset.trans (by decide) hA)

theorem Only.tInc {A : List Part} {sB : State} (k : ChanIx) (r : Nat) (n : Nat) (on : Bool) (s : State) (hA : [.tens, .dcs, .out] ⊆ A) (h : Only A sB s) : Only A sB (Machine.tInc k r n on s) := by
  unfold Machine.tInc
  repeat' first
    | with_reducible assumption
    | intro _
    | with_reducible apply Only.dcUnsup (hA := List.Subset.trans (by decide) hA)
    | with_reducible apply Only.tSetA (hA := List.Subset.trans (by decide) hA)
    | with_reducible refine Only.ite ?_ ?_

theorem Only.tMoveEnd {A : List Part} {sB : State} (k : ChanIx) (b : Bytes) (ns nd : Nat) (s : State) (hA : [.tens, .dcs, .out] ⊆ A) (h : Only A sB s) : Only A sB (Machine.tMoveEnd k b ns nd s) := by
  unfold Machine.tMoveEnd
  repeat' first
    | dsimp only
    | with_reducible assumption
    | intro _
    | with_reducible apply Only.tInc (hA := List.Subset.trans (by decide) hA)
    | with_reducible apply Only.tNext (hA := List.Subset.trans (by decide) hA)
    | with_reducible refine Only.ite ?_ ?_

theorem Only.tCopy {A : List Part} {sB : State} (k : ChanIx) (sa da : Nat) (data : Bytes) (s : State) (hA : [.dcs, .out] ⊆ A) (h : Only A sB s) : Only A sB (Machine.tCopy k sa da data s) := by
  unfold Machine.tCopy
  repeat' first
    | dsimp only
    | with_reducible assumption
    | intro _
    | with_reducible apply Only.dcWrote (hA := List.Subset.trans (by decide) hA)
    | with_reducible apply Only.emitRd (hA := List.Subset.trans (by decide) hA)
    | with_reducible apply Only.emitWr (hA := List.Subset.trans (by decide) hA)
    | with_reducible apply Only.foldl
    | with_reducible apply Only.modDc (hA := List.Subset.trans (by decide) hA)
    | with_reducible refine Only.ite ?_ ?_
    | split

theorem Only.fxMove {A : List Part} {sB : State} (k : ChanIx) (data : Bytes) (s : State) (hA : [.tens, .sch, .dcs, .out] ⊆ A) (h : Only A sB s) : Only A sB (Machine.fxMove k data s) := by
  unfold Machine.fxMove
  repeat' first
    | dsimp only
    | with_reducible assumption
    | intro _
    | with_reducible apply Only.dcMoved (hA := List.Subset.trans (by decide) hA)
    | with_reducible apply Only.dcServed (hA := List.Subset.trans (by decide) hA)
    | with_reducible apply Only.dcStop (hA := List.Subset.trans (by decide) hA)
    | with_reducible apply Only.dcTag (hA := List.Subset.trans (by decide) hA)
    | with_reducible apply Only.dcUnsup (hA := List.Subset.trans (by decide) hA)
    | with_reducible apply Only.dcViol (hA := List.Subset.trans (by decide) hA)
    | with_reducible apply Only.tCopy (hA := List.Subset.trans (by decide) hA)
    | with_reducible apply Only.tMoveEnd (hA := List.Subset.trans (by decide) hA)
    | with_reducible apply Only.tRun (hA := List.Subset.trans (by decide) hA)
    | with_reducible apply Only.tSetOff (hA := List.Subset.trans (by decide) hA)
    | with_reducible apply Only.whenS
    | with_reducible refine Only.ite ?_ ?_
    | split

theorem Only.xReads {A : List Part} {sB : State} (x : BitVec 13) (a : Nat) (p : Int) (f0 g : Nat) (s : State) (hA : [.out] ⊆ A) (h : Only A sB s) : Only A sB (Machine.xReads x a p f0 g s) := by
  unfold Machine.xReads
  repeat' first
    | dsimp only
    | with_reducible assumption
    | intro _
    | with_reducible apply Only.eachN
    | with_reducible apply Only.emitRd (hA := List.Subset.trans (by decide) hA)
    | with_reducible apply Only.foldl
    | with_reducible refine Only.ite ?_ ?_
    | split

theorem Only.xSample {A : List Part} {sB : State} (k : ChanIx) (x : BitVec 13) (da f ch : Nat) (b : Bytes) (s : State) (hA : [.tens, .dcs, .out] ⊆ A) (h : Only A sB s) : Only A sB (Machine.xSample k x da f ch b s) := by
  unfold Machine.xSample
  repeat' first
    | dsimp only
    | with_reducible assumption
    | intro _
    | with_reducible apply Only.dcGather (hA := List.Subset.trans (by decide) hA)
    | with_reducible apply Only.dcMoved (hA := List.Subset.trans (by decide) hA)
    | with_reducible apply Only.modDc (hA := List.Subset.trans (by decide) hA)
    | with_reducible refine Only.ite ?_ ?_
    | split

theorem Only.fxXmove {A : List Part} {sB : State} (k : ChanIx) (data : Bytes) (s : State) (hA : [.tens, .sch, .dcs, .out] ⊆ A) (h : Only A sB s) : Only A sB (Machine.fxXmove k data s) := by
  unfold Machine.fxXmove
  repeat' first
    | dsimp only
    | with_reducible assumption
    | intro _
    | with_reducible apply Only.dcFlushAll (hA := List.Subset.trans (by decide) hA)
    | with_reducible apply Only.dcReadFault (hA := List.Subset.trans (by decide) hA)
    | with_reducible apply Only.dcServed (hA := List.Subset.trans (by decide) hA)
    | with_reducible apply Only.dcTag (hA := List.Subset.trans (by decide) hA)
    | with_reducible apply Only.dcUnsup (hA := List.Subset.trans (by decide) hA)
    | with_reducible apply Only.eachN
    | with_reducible apply Only.modDc (hA := List.Subset.trans (by decide) hA)
    | with_reducible apply Only.tMoveEnd (hA := List.Subset.trans (by decide) hA)
    | with_reducible apply Only.tRun (hA := List.Subset.trans (by decide) hA)
    | with_reducible apply Only.whenS
    | with_reducible apply Only.xReads (hA := List.Subset.trans (by decide) hA)
    | with_reducible apply Only.xSample (hA := List.Subset.trans (by decide) hA)
    | with_reducible refine Only.ite ?_ ?_
    | split

theorem Only.fxXcfg {A : List Part} {sB : State} (k : ChanIx) (s : State) (hA : [.tens, .dcs, .out] ⊆ A) (h : Only A sB s) : Only A sB (Machine.fxXcfg k s) := by
  unfold Machine.fxXcfg
  repeat' first
    | with_reducible assumption
    | intro _
    | with_reducible apply Only.modDc (hA := List.Subset.trans (by decide) hA)
    | with_reducible apply Only.tNext (hA := List.Subset.trans (by decide) hA)
    | with_reducible apply Only.tRun (hA := List.Subset.trans (by decide) hA)

theorem Only.fxLoop {A : List Part} {sB : State} (k : ChanIx) (s : State) (hA : [.tens, .dcs, .out] ⊆ A) (h : Only A sB s) : Only A sB (Machine.fxLoop k s) := by
  unfold Machine.fxLoop
  repeat' first
    | dsimp only
    | with_reducible assumption
    | intro _
    | with_reducible apply Only.dcGoto (hA := List.Subset.trans (by decide) hA)
    | with_reducible apply Only.tNext (hA := List.Subset.trans (by decide) hA)
    | with_reducible apply Only.tRun (hA := List.Subset.trans (by decide) hA)
    | with_reducible apply Only.tSetC (hA := List.Subset.trans (by decide) hA)
    | with_reducible refine Only.ite ?_ ?_

theorem Only.fxJump {A : List Part} {sB : State} (k : ChanIx) (s : State) (hA : [.tens, .dcs, .out] ⊆ A) (h : Only A sB s) : Only A sB (Machine.fxJump k s) := by
  unfold Machine.fxJump
  repeat' first
    | with_reducible assumption
    | intro _
    | with_reducible apply Only.dcGoto (hA := List.Subset.trans (by decide) hA)
    | with_reducible apply Only.tRun (hA := List.Subset.trans (by decide) hA)

theorem Only.fxWait {A : List Part} {sB : State} (k : ChanIx) (s : State) (hA : [.tens, .dcs, .out] ⊆ A) (h : Only A sB s) : Only A sB (Machine.fxWait k s) := by
  unfold Machine.fxWait
  repeat' first
    | dsimp only
    | with_reducible assumption
    | intro _
    | with_reducible apply Only.modDc (hA := List.Subset.trans (by decide) hA)
    | with_reducible apply Only.tNext (hA := List.Subset.trans (by decide) hA)
    | with_reducible apply Only.tRun (hA := List.Subset.trans (by decide) hA)
    | with_reducible apply Only.whenS
    | with_reducible refine Only.ite ?_ ?_

theorem Only.fxFence {A : List Part} {sB : State} (k : ChanIx) (s : State) (hA : [.tens, .dcs, .out] ⊆ A) (h : Only A sB s) : Only A sB (Machine.fxFence k s) := by
  unfold Machine.fxFence
  repeat' first
    | dsimp only
    | with_reducible assumption
    | intro _
    | with_reducible apply Only.modDc (hA := List.Subset.trans (by decide) hA)
    | with_reducible apply Only.tNext (hA := List.Subset.trans (by decide) hA)
    | with_reducible apply Only.whenS
    | with_reducible refine Only.ite ?_ ?_
    | split

theorem Only.fxPost {A : List Part} {sB : State} (k : ChanIx) (meets : Bool) (s : State) (hA : [.denied, .notice, .tens, .sqs, .dcs, .jrn, .evPend, .pviol, .pvcnt, .out] ⊆ A) (h : Only A sB s) : Only A sB (Machine.fxPost k meets s) := by
  unfold Machine.fxPost
  repeat' first
    | dsimp only
    | with_reducible assumption
    | intro _
    | with_reducible apply Only.dcPost (hA := List.Subset.trans (by decide) hA)
    | with_reducible apply Only.tNext (hA := List.Subset.trans (by decide) hA)
    | with_reducible apply Only.tRun (hA := List.Subset.trans (by decide) hA)
    | with_reducible refine Only.ite ?_ ?_
    | split

theorem Only.fxRecord {A : List Part} {sB : State} (k : ChanIx) (s : State) (hA : [.tens, .dcs, .out] ⊆ A) (h : Only A sB s) : Only A sB (Machine.fxRecord k s) := by
  unfold Machine.fxRecord
  repeat' first
    | dsimp only
    | with_reducible assumption
    | intro _
    | with_reducible apply Only.dcDone (hA := List.Subset.trans (by decide) hA)
    | with_reducible apply Only.tNext (hA := List.Subset.trans (by decide) hA)
    | with_reducible apply Only.tRun (hA := List.Subset.trans (by decide) hA)
    | with_reducible apply Only.whenS
    | with_reducible refine Only.ite ?_ ?_

theorem Only.fxEvent {A : List Part} {sB : State} (k : ChanIx) (s : State) (hA : [.tens, .dcs, .out] ⊆ A) (h : Only A sB s) : Only A sB (Machine.fxEvent k s) := by
  unfold Machine.fxEvent
  repeat' first
    | with_reducible assumption
    | intro _
    | with_reducible apply Only.raiseT (hA := List.Subset.trans (by decide) hA)
    | with_reducible apply Only.tNext (hA := List.Subset.trans (by decide) hA)
    | with_reducible apply Only.tRun (hA := List.Subset.trans (by decide) hA)

theorem Only.fxHalt {A : List Part} {sB : State} (k : ChanIx) (s : State) (hA : [.dcs] ⊆ A) (h : Only A sB s) : Only A sB (Machine.fxHalt k s) := by
  unfold Machine.fxHalt
  repeat' first
    | with_reducible assumption
    | intro _
    | with_reducible apply Only.dcIdle (hA := List.Subset.trans (by decide) hA)
    | with_reducible apply Only.tRun (hA := List.Subset.trans (by decide) hA)

end Sys2Proof.Machine
end

