-- ==== Sys2Proof/Laws/FrameTime.lean ====
section
/-!
SUPPORT. Frames of the operations of Machine/Time.lean: the parts of the state that each may change.
-/

set_option Elab.async false

namespace Sys2Proof.Machine

theorem Only.tick {A : List Part} {sB : State} (s : State) (hA : [.time] ⊆ A) (h : Only A sB s) : Only A sB (Machine.tick s) := by
  unfold Machine.tick
  repeat' first
    | dsimp only
    | with_reducible assumption
    | intro _
    | with_reducible apply Only.modTime (hA := List.Subset.trans (by decide) hA)
    | with_reducible refine Only.ite ?_ ?_

theorem Only.fxTimeLowWrap {A : List Part} {sB : State} (s : State) (hA : [.notice, .time, .jrn, .evPend, .pviol, .pvcnt, .out] ⊆ A) (h : Only A sB s) : Only A sB (Machine.fxTimeLowWrap s) := by
  unfold Machine.fxTimeLowWrap
  repeat' first
    | with_reducible assumption
    | intro _
    | with_reducible apply Only.modTime (hA := List.Subset.trans (by decide) hA)
    | with_reducible apply Only.timeMark (hA := List.Subset.trans (by decide) hA)
    | with_reducible apply Only.whenS

theorem Only.timeStep {A : List Part} {sB : State} (ns : Word) (s : State) (hA : [.notice, .sch, .time, .jrn, .evPend, .pviol, .pvcnt, .out] ⊆ A) (h : Only A sB s) : Only A sB (Machine.timeStep ns s) := by
  unfold Machine.timeStep
  repeat' first
    | dsimp only
    | with_reducible assumption
    | intro _
    | with_reducible apply Only.journal (hA := List.Subset.trans (by decide) hA)
    | with_reducible apply Only.modSch (hA := List.Subset.trans (by decide) hA)
    | with_reducible apply Only.modTime (hA := List.Subset.trans (by decide) hA)
    | with_reducible apply Only.raiseG (hA := List.Subset.trans (by decide) hA)
    | with_reducible apply Only.timeMark (hA := List.Subset.trans (by decide) hA)
    | with_reducible refine Only.ite ?_ ?_
    | split

theorem Only.armCapt {A : List Part} {sB : State} (s : State) (hA : [.own] ⊆ A) (h : Only A sB s) : Only A sB (Machine.armCapt s) := by
  unfold Machine.armCapt
  repeat' first
    | dsimp only
    | with_reducible assumption
    | intro _
    | with_reducible refine Only.modOwn _ (List.Subset.trans (by decide) hA) ?_ ?_

theorem Only.armSync {A : List Part} {sB : State} (s : State) (hA : [.own] ⊆ A) (h : Only A sB s) : Only A sB (Machine.armSync s) := by
  unfold Machine.armSync
  repeat' first
    | dsimp only
    | with_reducible assumption
    | intro _
    | with_reducible refine Only.modOwn _ (List.Subset.trans (by decide) hA) ?_ ?_

theorem Only.fxTimeCapt {A : List Part} {sB : State} (who : Who) (s : State) (hA : [.denied, .own, .notice, .jrn, .evPend, .pviol, .pvcnt, .out] ⊆ A) (h : Only A sB s) : Only A sB (Machine.fxTimeCapt who s) := by
  unfold Machine.fxTimeCapt
  repeat' first
    | with_reducible assumption
    | intro _
    | with_reducible apply Only.armCapt (hA := List.Subset.trans (by decide) hA)
    | with_reducible apply Only.gateW (hA := List.Subset.trans (by decide) hA)

theorem Only.fxTimeSync {A : List Part} {sB : State} (who : Who) (s : State) (hA : [.denied, .own, .notice, .jrn, .evPend, .pviol, .pvcnt, .out] ⊆ A) (h : Only A sB s) : Only A sB (Machine.fxTimeSync who s) := by
  unfold Machine.fxTimeSync
  repeat' first
    | with_reducible assumption
    | intro _
    | with_reducible apply Only.armSync (hA := List.Subset.trans (by decide) hA)
    | with_reducible apply Only.gateW (hA := List.Subset.trans (by decide) hA)

theorem Only.adjust {A : List Part} {sB : State} (s : State) (hA : [.notice, .sch, .time, .jrn, .evPend, .pviol, .pvcnt, .out] ⊆ A) (h : Only A sB s) : Only A sB (Machine.adjust s) := by
  unfold Machine.adjust
  repeat' first
    | with_reducible assumption
    | with_reducible apply Only.timeStep (hA := List.Subset.trans (by decide) hA)

theorem Only.fxAdjGo {A : List Part} {sB : State} (who : Who) (s : State) (hA : [.denied, .notice, .sch, .time, .jrn, .evPend, .pviol, .pvcnt, .out] ⊆ A) (h : Only A sB s) : Only A sB (Machine.fxAdjGo who s) := by
  unfold Machine.fxAdjGo
  repeat' first
    | with_reducible assumption
    | intro _
    | with_reducible apply Only.adjust (hA := List.Subset.trans (by decide) hA)
    | with_reducible apply Only.gateW (hA := List.Subset.trans (by decide) hA)

theorem Only.setRun {A : List Part} {sB : State} (run : Bool) (s : State) (hA : [.own, .notice, .sqs, .time, .jrn, .evPend, .pviol, .pvcnt, .out] ⊆ A) (h : Only A sB s) : Only A sB (Machine.setRun run s) := by
  unfold Machine.setRun
  repeat' first
    | dsimp only
    | with_reducible assumption
    | intro _
    | with_reducible refine Only.modOwn _ (List.Subset.trans (by decide) hA) ?_ ?_
    | with_reducible apply Only.modTime (hA := List.Subset.trans (by decide) hA)
    | with_reducible apply Only.raiseG (hA := List.Subset.trans (by decide) hA)
    | with_reducible apply Only.releasePosted (hA := List.Subset.trans (by decide) hA)
    | with_reducible apply Only.timeMark (hA := List.Subset.trans (by decide) hA)
    | with_reducible refine Only.ite ?_ ?_
    | split

theorem Only.fxTimeRunWrite {A : List Part} {sB : State} (who : Who) (run : Bool) (s : State) (hA : [.denied, .own, .notice, .sqs, .time, .jrn, .evPend, .pviol, .pvcnt, .out] ⊆ A) (h : Only A sB s) : Only A sB (Machine.fxTimeRunWrite who run s) := by
  unfold Machine.fxTimeRunWrite
  repeat' first
    | with_reducible assumption
    | intro _
    | with_reducible apply Only.gateW (hA := List.Subset.trans (by decide) hA)
    | with_reducible apply Only.setRun (hA := List.Subset.trans (by decide) hA)

theorem Only.fxTsuStrobe {A : List Part} {sB : State} (ns : Word) (frac : BitVec 32) (s : State) (hA : [.own, .notice, .sch, .time, .jrn, .evPend, .pviol, .pvcnt, .out] ⊆ A) (h : Only A sB s) : Only A sB (Machine.fxTsuStrobe ns frac s) := by
  unfold Machine.fxTsuStrobe
  repeat' first
    | dsimp only
    | with_reducible assumption
    | intro _
    | with_reducible refine Only.modOwn _ (List.Subset.trans (by decide) hA) ?_ ?_
    | with_reducible apply Only.modTime (hA := List.Subset.trans (by decide) hA)
    | with_reducible apply Only.timeStep (hA := List.Subset.trans (by decide) hA)
    | with_reducible apply Only.whenS
    | with_reducible refine Only.ite ?_ ?_

theorem Only.fxComparatorFire {A : List Part} {sB : State} (j : Fin 8) (s : State) (hA : [.own, .tens, .sqs, .dcs, .time, .evPend] ⊆ A) (h : Only A sB s) : Only A sB (Machine.fxComparatorFire j s) := by
  unfold Machine.fxComparatorFire
  repeat' first
    | dsimp only
    | with_reducible assumption
    | intro _
    | with_reducible apply Only.modTcmp (hA := List.Subset.trans (by decide) hA)
    | with_reducible apply Only.modTime (hA := List.Subset.trans (by decide) hA)
    | with_reducible apply Only.pulseChans (hA := List.Subset.trans (by decide) hA)
    | with_reducible apply Only.pulseRings (hA := List.Subset.trans (by decide) hA)
    | with_reducible apply Only.raiseG (hA := List.Subset.trans (by decide) hA)
    | with_reducible apply Only.whenS
    | with_reducible refine Only.ite ?_ ?_

theorem Only.fxTcmpPulseEnd {A : List Part} {sB : State} (j : Fin 8) (s : State) (hA : [.time] ⊆ A) (h : Only A sB s) : Only A sB (Machine.fxTcmpPulseEnd j s) := by
  unfold Machine.fxTcmpPulseEnd
  repeat' first
    | with_reducible assumption
    | with_reducible apply Only.modTime (hA := List.Subset.trans (by decide) hA)

theorem Only.fxTriggerEdge {A : List Part} {sB : State} (i : Fin 8) (s : State) (hA : [.tens, .sqs, .dcs, .time] ⊆ A) (h : Only A sB s) : Only A sB (Machine.fxTriggerEdge i s) := by
  unfold Machine.fxTriggerEdge
  repeat' first
    | with_reducible assumption
    | intro _
    | with_reducible apply Only.modTime (hA := List.Subset.trans (by decide) hA)
    | with_reducible apply Only.pulseChans (hA := List.Subset.trans (by decide) hA)
    | with_reducible apply Only.pulseRings (hA := List.Subset.trans (by decide) hA)
    | with_reducible apply Only.whenS

theorem Only.fxBudgetRefill {A : List Part} {sB : State} (s : State) (hA : [.sqs, .sch] ⊆ A) (h : Only A sB s) : Only A sB (Machine.fxBudgetRefill s) := by
  unfold Machine.fxBudgetRefill
  repeat' first
    | dsimp only
    | with_reducible assumption
    | intro _
    | with_reducible apply Only.eachN
    | with_reducible apply Only.modSch (hA := List.Subset.trans (by decide) hA)
    | with_reducible apply Only.modSq (hA := List.Subset.trans (by decide) hA)
    | with_reducible apply Only.whenS
    | with_reducible refine Only.ite ?_ ?_
    | split

end Sys2Proof.Machine
end

