-- ==== Sys2Proof/Laws/FrameScheduler.lean ====
section
/-!
SUPPORT. Frames of the operations of Machine/Scheduler.lean: the parts of the state that each may change.
-/

set_option Elab.async false

namespace Sys2Proof.Machine

theorem Only.unstall {A : List Part} {sB : State} (n : Nat) (s : State) (hA : [.cqs] ⊆ A) (h : Only A sB s) : Only A sB (Machine.unstall n s) := by
  unfold Machine.unstall
  repeat' first
    | with_reducible assumption
    | intro _
    | with_reducible apply Only.eachN
    | with_reducible apply Only.modCq (hA := List.Subset.trans (by decide) hA)
    | with_reducible refine Only.ite ?_ ?_

theorem Only.newRound {A : List Part} {sB : State} (cls : Nat) (s : State) (hA : [.sqs, .crs] ⊆ A) (h : Only A sB s) : Only A sB (Machine.newRound cls s) := by
  unfold Machine.newRound
  repeat' first
    | dsimp only
    | with_reducible assumption
    | intro _
    | with_reducible apply Only.eachN
    | with_reducible apply Only.modCrs (hA := List.Subset.trans (by decide) hA)
    | with_reducible apply Only.modSq (hA := List.Subset.trans (by decide) hA)
    | with_reducible refine Only.ite ?_ ?_
    | split

theorem Only.endVisit {A : List Part} {sB : State} (cls : Nat) (s : State) (hA : [.sch] ⊆ A) (h : Only A sB s) : Only A sB (Machine.endVisit cls s) := by
  unfold Machine.endVisit
  repeat' first
    | dsimp only
    | with_reducible assumption
    | intro _
    | with_reducible apply Only.modSch (hA := List.Subset.trans (by decide) hA)
    | with_reducible refine Only.ite ?_ ?_
    | split

theorem Only.endRound {A : List Part} {sB : State} (cls : Nat) (s : State) (hA : [.sqs, .crs] ⊆ A) (h : Only A sB s) : Only A sB (Machine.endRound cls s) := by
  unfold Machine.endRound
  repeat' first
    | dsimp only
    | with_reducible assumption
    | intro _
    | with_reducible apply Only.newRound (hA := List.Subset.trans (by decide) hA)
    | with_reducible refine Only.ite ?_ ?_
    | split

theorem Only.turnRounds {A : List Part} {sB : State} (s : State) (hA : [.sqs, .sch, .crs] ⊆ A) (h : Only A sB s) : Only A sB (Machine.turnRounds s) := by
  unfold Machine.turnRounds
  repeat' first
    | dsimp only
    | with_reducible assumption
    | intro _
    | with_reducible apply Only.eachN
    | with_reducible apply Only.endRound (hA := List.Subset.trans (by decide) hA)
    | with_reducible apply Only.endVisit (hA := List.Subset.trans (by decide) hA)
    | with_reducible refine Only.ite ?_ ?_
    | split

theorem Only.admitReq {A : List Part} {sB : State} (n : TenantIx) (m : RingIx) (cls : Nat) (s : State) (hA : [.tens, .sqs, .sch, .reqs] ⊆ A) (h : Only A sB s) : Only A sB (Machine.admitReq n m cls s) := by
  unfold Machine.admitReq
  repeat' first
    | dsimp only
    | with_reducible assumption
    | intro _
    | with_reducible apply Only.modReqs (hA := List.Subset.trans (by decide) hA)
    | with_reducible apply Only.modSch (hA := List.Subset.trans (by decide) hA)
    | with_reducible apply Only.modSq (hA := List.Subset.trans (by decide) hA)
    | with_reducible apply Only.modTen (hA := List.Subset.trans (by decide) hA)
    | with_reducible apply Only.settleRing (hA := List.Subset.trans (by decide) hA)
    | with_reducible refine Only.ite ?_ ?_
    | split

theorem Only.admitForeign {A : List Part} {sB : State} (s : State) (hA : [.sch, .reqs, .crs] ⊆ A) (h : Only A sB s) : Only A sB (Machine.admitForeign s) := by
  unfold Machine.admitForeign
  repeat' first
    | dsimp only
    | with_reducible assumption
    | intro _
    | with_reducible apply Only.modCrs (hA := List.Subset.trans (by decide) hA)
    | with_reducible apply Only.modReqs (hA := List.Subset.trans (by decide) hA)
    | with_reducible apply Only.modSch (hA := List.Subset.trans (by decide) hA)
    | with_reducible refine Only.ite ?_ ?_
    | split

theorem Only.admitOne {A : List Part} {sB : State} (i cls : Nat) (ecc : Ecc) (s : State) (hA : [.notice, .tens, .sqs, .sch, .reqs, .ces, .jrn, .evPend, .pviol, .pvcnt, .crs, .out] ⊆ A) (h : Only A sB s) : Only A sB (Machine.admitOne i cls ecc s) := by
  unfold Machine.admitOne
  repeat' first
    | dsimp only
    | with_reducible assumption
    | intro _
    | with_reducible apply Only.admitForeign (hA := List.Subset.trans (by decide) hA)
    | with_reducible apply Only.admitReq (hA := List.Subset.trans (by decide) hA)
    | with_reducible apply Only.memCheck (hA := List.Subset.trans (by decide) hA)
    | with_reducible refine Only.ite ?_ ?_
    | split

theorem Only.markWaiting {A : List Part} {sB : State} (s : State) (hA : [.notice, .tens, .sqs, .cqs, .ks, .jrn, .evPend, .pviol, .pvcnt, .crs, .out] ⊆ A) (h : Only A sB s) : Only A sB (Machine.markWaiting s) := by
  unfold Machine.markWaiting
  repeat' first
    | dsimp only
    | with_reducible assumption
    | intro _
    | with_reducible apply Only.eachN
    | with_reducible apply Only.modCq (hA := List.Subset.trans (by decide) hA)
    | with_reducible apply Only.modSq (hA := List.Subset.trans (by decide) hA)
    | with_reducible apply Only.raiseT (hA := List.Subset.trans (by decide) hA)
    | with_reducible apply Only.waitBlocks (hA := List.Subset.trans (by decide) hA)
    | with_reducible refine Only.ite ?_ ?_
    | split

theorem Only.fxSchedulerGrant {A : List Part} {sB : State} (ecc : Ecc) (s : State) (hA : [.notice, .tens, .sqs, .cqs, .sch, .reqs, .ces, .ks, .jrn, .evPend, .pviol, .pvcnt, .crs, .out] ⊆ A) (h : Only A sB s) : Only A sB (Machine.fxSchedulerGrant ecc s) := by
  unfold Machine.fxSchedulerGrant
  repeat' first
    | dsimp only
    | with_reducible assumption
    | intro _
    | with_reducible apply Only.admitOne (hA := List.Subset.trans (by decide) hA)
    | with_reducible apply Only.markWaiting (hA := List.Subset.trans (by decide) hA)
    | with_reducible apply Only.modSch (hA := List.Subset.trans (by decide) hA)
    | with_reducible apply Only.turnRounds (hA := List.Subset.trans (by decide) hA)
    | with_reducible apply Only.whenS
    | with_reducible refine Only.ite ?_ ?_
    | split

/-- While no tenant is enabled and no forwarded request is ready, no class is granted (R41, R74, R461). -/
theorem grantClass_of_disabled (s : State) (h : ∀ n, s.enabled n = false) (hf : fwdReady (turnRounds (markWaiting s)) = false) :
    grantClass (turnRounds (markWaiting s)) = none := by
  have o : Only [.notice, .tens, .sqs, .cqs, .ks, .jrn, .evPend, .pviol, .pvcnt, .crs, .out, .sch] s (turnRounds (markWaiting s)) :=
    Only.turnRounds _ (by decide) (Only.markWaiting _ (by decide) (Only.refl _ _))
  have e (n : Nat) : (turnRounds (markWaiting s)).enabled n = false := by
    have a := o.2 .act (by decide)
    have b := o.2 .start (by decide)
    simp only [Part.same] at a b
    have := h n
    simp only [State.enabled, enabledIn, State.word, a, b] at this ⊢
    exact this
  simp [grantClass, turnClass, canGrant, hf, admissibleIn, admissible, readyHead, e]

end Sys2Proof.Machine
end

