-- ==== Sys2Proof/Laws/FrameOpRun.lean ====
section
/-!
SUPPORT. Frames of the operations of Machine/OpRun.lean: the parts of the state that each may change.
-/

set_option Elab.async false

namespace Sys2Proof.Machine

theorem Only.modOp {A : List Part} {sB : State} (id i : Nat) (f : OpSt → OpSt) (s : State) (hA : [.reqs] ⊆ A) (h : Only A sB s) : Only A sB (Machine.modOp id i f s) := by
  unfold Machine.modOp
  repeat' first
    | with_reducible assumption
    | with_reducible apply Only.modReq (hA := List.Subset.trans (by decide) hA)

theorem Only.modBuf {A : List Part} {sB : State} (id b : Nat) (f : BufSt → BufSt) (s : State) (hA : [.reqs] ⊆ A) (h : Only A sB s) : Only A sB (Machine.modBuf id b f s) := by
  unfold Machine.modBuf
  repeat' first
    | with_reducible assumption
    | with_reducible apply Only.modReq (hA := List.Subset.trans (by decide) hA)

end Sys2Proof.Machine
end

