-- ==== Sys2Proof/Laws/FrameChain.lean ====
section
/-!
SUPPORT. Frames of the operations of Machine/Chain.lean: the parts of the state that each may change.
-/

set_option Elab.async false

namespace Sys2Proof.Machine

theorem Only.reqViol {A : List Part} {sB : State} (r : Req) (addr : Nat) (d : Dir) (cause : Nat) (s : State) (hA : [.tens, .evPend, .pviol, .pvcnt] ⊆ A) (h : Only A sB s) : Only A sB (Machine.reqViol r addr d cause s) := by
  unfold Machine.reqViol
  repeat' first
    | with_reducible assumption
    | with_reducible apply Only.viol (hA := List.Subset.trans (by decide) hA)

theorem Only.ksEvent {A : List Part} {sB : State} (slot : Nat) (bank : Bool) (cause : Nat) (s : State) (hA : [.notice, .jrn, .evPend, .pviol, .pvcnt, .out] ⊆ A) (h : Only A sB s) : Only A sB (Machine.ksEvent slot bank cause s) := by
  unfold Machine.ksEvent
  repeat' first
    | with_reducible assumption
    | with_reducible apply Only.journal (hA := List.Subset.trans (by decide) hA)

theorem Only.failBank {A : List Part} {sB : State} (x : Nat) (ue : Bool) (s : State) (hA : [.notice, .ks, .jrn, .evPend, .pviol, .pvcnt, .out] ⊆ A) (h : Only A sB s) : Only A sB (Machine.failBank x ue s) := by
  unfold Machine.failBank
  repeat' first
    | dsimp only
    | with_reducible assumption
    | intro _
    | with_reducible apply Only.ksEvent (hA := List.Subset.trans (by decide) hA)
    | with_reducible apply Only.modSlot (hA := List.Subset.trans (by decide) hA)
    | with_reducible apply Only.raiseG (hA := List.Subset.trans (by decide) hA)
    | with_reducible refine Only.ite ?_ ?_
    | split

theorem Only.failBankUe {A : List Part} {sB : State} (x : Nat) (s : State) (hA : [.notice, .ks, .jrn, .evPend, .pviol, .pvcnt, .out] ⊆ A) (h : Only A sB s) : Only A sB (Machine.failBankUe x s) := by
  unfold Machine.failBankUe
  repeat' first
    | dsimp only
    | with_reducible assumption
    | intro _
    | with_reducible apply Only.failBank (hA := List.Subset.trans (by decide) hA)
    | with_reducible apply Only.journalUe (hA := List.Subset.trans (by decide) hA)
    | with_reducible refine Only.ite ?_ ?_
    | split

theorem Only.ksCe {A : List Part} {sB : State} (cls : Nat) (s : State) (hA : [.ces, .ks, .evPend] ⊆ A) (h : Only A sB s) : Only A sB (Machine.ksCe cls s) := by
  unfold Machine.ksCe
  repeat' first
    | dsimp only
    | with_reducible assumption
    | intro _
    | with_reducible apply Only.countCe (hA := List.Subset.trans (by decide) hA)
    | with_reducible apply Only.modKs (hA := List.Subset.trans (by decide) hA)
    | with_reducible refine Only.ite ?_ ?_
    | split

theorem Only.failCache {A : List Part} {sB : State} (a : Nat) (ue : Bool) (s : State) (hA : [.notice, .ks, .jrn, .evPend, .pviol, .pvcnt, .out] ⊆ A) (h : Only A sB s) : Only A sB (Machine.failCache a ue s) := by
  unfold Machine.failCache
  repeat' first
    | dsimp only
    | with_reducible assumption
    | intro _
    | with_reducible apply Only.journalUe (hA := List.Subset.trans (by decide) hA)
    | with_reducible apply Only.setCacheEnt (hA := List.Subset.trans (by decide) hA)
    | with_reducible refine Only.ite ?_ ?_
    | split

theorem Only.readKey {A : List Part} {sB : State} (r : Req) (w : OpWord) (p : Bytes) (f : KeyFault) (s : State) (hA : [.notice, .ces, .ks, .jrn, .evPend, .pviol, .pvcnt, .out] ⊆ A) (h : Only A sB s) : Only A sB (Machine.readKey r w p f s) := by
  unfold Machine.readKey
  repeat' first
    | dsimp only
    | with_reducible assumption
    | intro _
    | with_reducible apply Only.failBank (hA := List.Subset.trans (by decide) hA)
    | with_reducible apply Only.failBankUe (hA := List.Subset.trans (by decide) hA)
    | with_reducible apply Only.failCache (hA := List.Subset.trans (by decide) hA)
    | with_reducible apply Only.ksCe (hA := List.Subset.trans (by decide) hA)
    | with_reducible apply Only.modSlot (hA := List.Subset.trans (by decide) hA)
    | with_reducible refine Only.ite ?_ ?_
    | split

theorem Only.resolveOp {A : List Part} {sB : State} (found : Option (Fin 8 × KeyFault)) (id i : Nat) (s0 : State) (hA : [.notice, .reqs, .ces, .ks, .jrn, .evPend, .pviol, .pvcnt, .out] ⊆ A) (h : Only A sB s0) : Only A sB (Machine.resolveOp found id i s0).1 := by
  unfold Machine.resolveOp
  repeat' first
    | dsimp only
    | with_reducible assumption
    | intro _
    | with_reducible apply Only.modOp (hA := List.Subset.trans (by decide) hA)
    | with_reducible apply Only.modSlot (hA := List.Subset.trans (by decide) hA)
    | with_reducible apply Only.readKey (hA := List.Subset.trans (by decide) hA)
    | with_reducible apply Only.setCacheEnt (hA := List.Subset.trans (by decide) hA)
    | with_reducible refine Only.ite ?_ ?_
    | split

theorem Only.resolveOp_eq {A : List Part} {sB : State} {found : Option (Fin 8 × KeyFault)} {id i : Nat} {s0 : State} {y : Option Fail} {t : State} (hA : [.notice, .reqs, .ces, .ks, .jrn, .evPend, .pviol, .pvcnt, .out] ⊆ A) (e : Machine.resolveOp found id i s0 = (t, y)) (h : Only A sB s0) : Only A sB t := by
  have := Only.resolveOp found id i s0 hA h
  rwa [e] at this

theorem Only.resolveAll {A : List Part} {sB : State} (found : Option (Fin 8 × KeyFault)) (id : Nat) (x : List Nat) (s : State) (hA : [.notice, .reqs, .ces, .ks, .jrn, .evPend, .pviol, .pvcnt, .out] ⊆ A) (h : Only A sB s) : Only A sB (Machine.resolveAll found id x s).1 := by
  induction x generalizing s with
  | nil => exact h
  | cons a l ih =>
    unfold Machine.resolveAll
    repeat' first
      | dsimp only
      | with_reducible assumption
      | intro _
      | with_reducible refine Only.resolveOp_eq (hA := List.Subset.trans (by decide) hA) (by assumption) ?_
      | with_reducible apply Only.resolveOp (hA := List.Subset.trans (by decide) hA)
      | with_reducible refine Only.ite ?_ ?_
      | split
      | with_reducible apply ih

theorem Only.resolveAll_eq {A : List Part} {sB : State} {found : Option (Fin 8 × KeyFault)} {id : Nat} {x : List Nat} {s : State} {y : Option Outcome} {t : State} (hA : [.notice, .reqs, .ces, .ks, .jrn, .evPend, .pviol, .pvcnt, .out] ⊆ A) (e : Machine.resolveAll found id x s = (t, y)) (h : Only A sB s) : Only A sB t := by
  have := Only.resolveAll found id x s hA h
  rwa [e] at this

theorem Only.allocateNext {A : List Part} {sB : State} (tenant i : Nat) (w : OpWord) (p : Bytes) (x : Nat) (b : Bool) (s : State) (hA : [.notice, .tens, .ks, .jrn, .evPend, .pviol, .pvcnt, .out] ⊆ A) (h : Only A sB s) : Only A sB (Machine.allocateNext tenant i w p x b s).1 := by
  unfold Machine.allocateNext
  repeat' first
    | dsimp only
    | with_reducible assumption
    | intro _
    | with_reducible apply Only.failBank (hA := List.Subset.trans (by decide) hA)
    | with_reducible apply Only.ksEvent (hA := List.Subset.trans (by decide) hA)
    | with_reducible apply Only.modSlot (hA := List.Subset.trans (by decide) hA)
    | with_reducible apply Only.raiseT (hA := List.Subset.trans (by decide) hA)
    | with_reducible refine Only.ite ?_ ?_
    | split

theorem Only.allocateNext_eq {A : List Part} {sB : State} {tenant i : Nat} {w : OpWord} {p : Bytes} {x : Nat} {b : Bool} {s : State} {y : Except Fail Nat} {t : State} (hA : [.notice, .tens, .ks, .jrn, .evPend, .pviol, .pvcnt, .out] ⊆ A) (e : Machine.allocateNext tenant i w p x b s = (t, y)) (h : Only A sB s) : Only A sB t := by
  have := Only.allocateNext tenant i w p x b s hA h
  rwa [e] at this

theorem Only.allocateBlock {A : List Part} {sB : State} (i : Nat) (w : OpWord) (p : Bytes) (x : Nat) (b : Bool) (s : State) (hA : [.notice, .tens, .ks, .jrn, .evPend, .pviol, .pvcnt, .crs, .out] ⊆ A) (h : Only A sB s) : Only A sB (Machine.allocateBlock i w p x b s).1 := by
  unfold Machine.allocateBlock
  repeat' first
    | dsimp only
    | with_reducible assumption
    | intro _
    | with_reducible apply Only.askBlock (hA := List.Subset.trans (by decide) hA)
    | with_reducible apply Only.modCrs (hA := List.Subset.trans (by decide) hA)
    | with_reducible refine Only.ite ?_ ?_
    | split

theorem Only.allocateBlock_eq {A : List Part} {sB : State} {i : Nat} {w : OpWord} {p : Bytes} {x : Nat} {b : Bool} {s : State} {y : Except Fail Nat} {t : State} (hA : [.notice, .tens, .ks, .jrn, .evPend, .pviol, .pvcnt, .crs, .out] ⊆ A) (e : Machine.allocateBlock i w p x b s = (t, y)) (h : Only A sB s) : Only A sB t := by
  have := Only.allocateBlock i w p x b s hA h
  rwa [e] at this

theorem Only.allocate {A : List Part} {sB : State} (r : Req) (i : Nat) (x : Nat) (b : Bool) (s : State) (hA : [.notice, .tens, .ks, .jrn, .evPend, .pviol, .pvcnt, .crs, .out] ⊆ A) (h : Only A sB s) : Only A sB (Machine.allocate r i x b s).1 := by
  unfold Machine.allocate
  repeat' first
    | dsimp only
    | with_reducible assumption
    | intro _
    | with_reducible refine Only.allocateBlock_eq (hA := List.Subset.trans (by decide) hA) (by assumption) ?_
    | with_reducible apply Only.allocateBlock (hA := List.Subset.trans (by decide) hA)
    | with_reducible refine Only.allocateNext_eq (hA := List.Subset.trans (by decide) hA) (by assumption) ?_
    | with_reducible apply Only.allocateNext (hA := List.Subset.trans (by decide) hA)
    | with_reducible refine Only.ite ?_ ?_
    | split

theorem Only.allocate_eq {A : List Part} {sB : State} {r : Req} {i : Nat} {x : Nat} {b : Bool} {s : State} {y : Except Fail Nat} {t : State} (hA : [.notice, .tens, .ks, .jrn, .evPend, .pviol, .pvcnt, .crs, .out] ⊆ A) (e : Machine.allocate r i x b s = (t, y)) (h : Only A sB s) : Only A sB t := by
  have := Only.allocate r i x b s hA h
  rwa [e] at this

theorem Only.allocateAll {A : List Part} {sB : State} (id : Nat) (x : List Nat) (s : State) (hA : [.notice, .tens, .reqs, .ks, .jrn, .evPend, .pviol, .pvcnt, .crs, .out] ⊆ A) (h : Only A sB s) : Only A sB (Machine.allocateAll id x s).1 := by
  induction x generalizing s with
  | nil => exact h
  | cons a l ih =>
    unfold Machine.allocateAll
    repeat' first
      | dsimp only
      | with_reducible assumption
      | intro _
      | with_reducible refine Only.allocate_eq (hA := List.Subset.trans (by decide) hA) (by assumption) ?_
      | with_reducible apply Only.allocate (hA := List.Subset.trans (by decide) hA)
      | with_reducible apply Only.modOp (hA := List.Subset.trans (by decide) hA)
      | with_reducible refine Only.ite ?_ ?_
      | split
      | with_reducible apply ih

theorem Only.allocateAll_eq {A : List Part} {sB : State} {id : Nat} {x : List Nat} {s : State} {y : Option Outcome} {t : State} (hA : [.notice, .tens, .reqs, .ks, .jrn, .evPend, .pviol, .pvcnt, .crs, .out] ⊆ A) (e : Machine.allocateAll id x s = (t, y)) (h : Only A sB s) : Only A sB t := by
  have := Only.allocateAll id x s hA h
  rwa [e] at this

theorem Only.freeTiles {A : List Part} {sB : State} (id : Nat) (s : State) (hA : [.tiles] ⊆ A) (h : Only A sB s) : Only A sB (Machine.freeTiles id s) := by
  unfold Machine.freeTiles
  repeat' first
    | dsimp only
    | with_reducible assumption
    | intro _
    | with_reducible apply Only.eachN
    | with_reducible apply Only.modTile (hA := List.Subset.trans (by decide) hA)

theorem Only.dropWork {A : List Part} {sB : State} (aim : Purpose) (s : State) (hA : [.sch, .tiles] ⊆ A) (h : Only A sB s) : Only A sB (Machine.dropWork aim s) := by
  unfold Machine.dropWork
  repeat' first
    | dsimp only
    | with_reducible assumption
    | intro _
    | with_reducible apply Only.foldl
    | with_reducible apply Only.freeTiles (hA := List.Subset.trans (by decide) hA)
    | with_reducible apply Only.modSch (hA := List.Subset.trans (by decide) hA)
    | with_reducible refine Only.ite ?_ ?_
    | split

theorem Only.unclaim {A : List Part} {sB : State} (x : Nat) (s : State) (hA : [.sch, .tiles, .ks] ⊆ A) (h : Only A sB s) : Only A sB (Machine.unclaim x s) := by
  unfold Machine.unclaim
  repeat' first
    | dsimp only
    | with_reducible assumption
    | intro _
    | with_reducible apply Only.dropWork (hA := List.Subset.trans (by decide) hA)
    | with_reducible apply Only.modKs (hA := List.Subset.trans (by decide) hA)
    | with_reducible apply Only.modSlot (hA := List.Subset.trans (by decide) hA)
    | with_reducible refine Only.ite ?_ ?_
    | split

theorem Only.closeStream {A : List Part} {sB : State} (ix : Nat) (s : State) (hA : [.streams] ⊆ A) (h : Only A sB s) : Only A sB (Machine.closeStream ix s) := by
  unfold Machine.closeStream
  repeat' first
    | dsimp only
    | with_reducible assumption
    | intro _
    | with_reducible apply Only.setStream (hA := List.Subset.trans (by decide) hA)
    | with_reducible refine Only.ite ?_ ?_
    | split

theorem Only.issueJob {A : List Part} {sB : State} (kind : Nat) (work : JobWork) (s : State) (hA : [.sch] ⊆ A) (h : Only A sB s) : Only A sB (Machine.issueJob kind work s) := by
  unfold Machine.issueJob
  repeat' first
    | dsimp only
    | with_reducible assumption
    | intro _
    | with_reducible apply Only.modSch (hA := List.Subset.trans (by decide) hA)
    | with_reducible refine Only.ite ?_ ?_
    | split

theorem Only.prepareBank {A : List Part} {sB : State} (x : Nat) (s : State) (hA : [.sch] ⊆ A) (h : Only A sB s) : Only A sB (Machine.prepareBank x s) := by
  unfold Machine.prepareBank
  repeat' first
    | dsimp only
    | with_reducible assumption
    | intro _
    | with_reducible apply Only.issueJob (hA := List.Subset.trans (by decide) hA)
    | with_reducible refine Only.ite ?_ ?_
    | split

theorem Only.beginVerify {A : List Part} {sB : State} (x : Nat) (s : State) (hA : [.sch, .ks] ⊆ A) (h : Only A sB s) : Only A sB (Machine.beginVerify x s) := by
  unfold Machine.beginVerify
  repeat' first
    | dsimp only
    | with_reducible assumption
    | intro _
    | with_reducible apply Only.modKs (hA := List.Subset.trans (by decide) hA)
    | with_reducible apply Only.modSlot (hA := List.Subset.trans (by decide) hA)
    | with_reducible apply Only.prepareBank (hA := List.Subset.trans (by decide) hA)
    | with_reducible refine Only.ite ?_ ?_
    | split

theorem Only.endStreams {A : List Part} {sB : State} (r : Req) (o : Outcome) (s : State) (hA : [.streams] ⊆ A) (h : Only A sB s) : Only A sB (Machine.endStreams r o s) := by
  unfold Machine.endStreams
  repeat' first
    | dsimp only
    | with_reducible assumption
    | intro _
    | with_reducible apply Only.closeStream (hA := List.Subset.trans (by decide) hA)
    | with_reducible apply Only.eachN
    | with_reducible apply Only.setStream (hA := List.Subset.trans (by decide) hA)
    | with_reducible refine Only.ite ?_ ?_
    | split

theorem Only.dropStreams {A : List Part} {sB : State} (r : Req) (o : Outcome) (s : State) (hA : [.streams] ⊆ A) (h : Only A sB s) : Only A sB (Machine.dropStreams r o s) := by
  unfold Machine.dropStreams
  repeat' first
    | dsimp only
    | with_reducible assumption
    | intro _
    | with_reducible apply Only.closeStream (hA := List.Subset.trans (by decide) hA)
    | with_reducible apply Only.foldl
    | with_reducible refine Only.ite ?_ ?_
    | split

theorem Only.scrubSeg {A : List Part} {sB : State} (r : Req) (a len : Nat) (s : State) (hA : [.tens, .reqs, .evPend, .pviol, .pvcnt, .out] ⊆ A) (h : Only A sB s) : Only A sB (Machine.scrubSeg r a len s) := by
  unfold Machine.scrubSeg
  repeat' first
    | dsimp only
    | with_reducible assumption
    | intro _
    | with_reducible apply Only.emitWr (hA := List.Subset.trans (by decide) hA)
    | with_reducible apply Only.modReq (hA := List.Subset.trans (by decide) hA)
    | with_reducible apply Only.reqViol (hA := List.Subset.trans (by decide) hA)
    | with_reducible refine Only.ite ?_ ?_
    | split

theorem Only.scrubAll {A : List Part} {sB : State} (r : Req) (s : State) (hA : [.tens, .reqs, .evPend, .pviol, .pvcnt, .out] ⊆ A) (h : Only A sB s) : Only A sB (Machine.scrubAll r s) := by
  unfold Machine.scrubAll
  repeat' first
    | dsimp only
    | with_reducible assumption
    | intro _
    | with_reducible apply Only.eachN
    | with_reducible apply Only.emit (hA := List.Subset.trans (by decide) hA)
    | with_reducible apply Only.foldl
    | with_reducible apply Only.scrubSeg (hA := List.Subset.trans (by decide) hA)
    | with_reducible refine Only.ite ?_ ?_
    | split

theorem Only.fencePort {A : List Part} {sB : State} (id : Nat) (port : Bool) (s : State) (hA : [.tens, .reqs, .evPend, .pviol, .pvcnt, .out] ⊆ A) (h : Only A sB s) : Only A sB (Machine.fencePort id port s) := by
  unfold Machine.fencePort
  repeat' first
    | with_reducible assumption
    | with_reducible apply Only.emitRd (hA := List.Subset.trans (by decide) hA)
    | with_reducible apply Only.modReq (hA := List.Subset.trans (by decide) hA)
    | with_reducible apply Only.reqViol (hA := List.Subset.trans (by decide) hA)
    | split

theorem Only.fenceFrame {A : List Part} {sB : State} (r : Req) (s : State) (hA : [.reqs, .out] ⊆ A) (h : Only A sB s) : Only A sB (Machine.fenceFrame r s) := by
  unfold Machine.fenceFrame
  repeat' first
    | dsimp only
    | with_reducible assumption
    | intro _
    | with_reducible apply Only.eachN
    | with_reducible apply Only.emit (hA := List.Subset.trans (by decide) hA)
    | with_reducible apply Only.modBuf (hA := List.Subset.trans (by decide) hA)
    | with_reducible refine Only.ite ?_ ?_
    | split

theorem Only.endChain {A : List Part} {sB : State} (id : Nat) (o : Outcome) (s : State) (hA : [.tens, .sch, .reqs, .tiles, .streams, .ks, .fp, .evPend, .pviol, .pvcnt, .out] ⊆ A) (h : Only A sB s) : Only A sB (Machine.endChain id o s) := by
  unfold Machine.endChain
  repeat' first
    | dsimp only
    | with_reducible assumption
    | intro _
    | with_reducible apply Only.beginVerify (hA := List.Subset.trans (by decide) hA)
    | with_reducible apply Only.dropStreams (hA := List.Subset.trans (by decide) hA)
    | with_reducible apply Only.eachN
    | with_reducible apply Only.endStreams (hA := List.Subset.trans (by decide) hA)
    | with_reducible apply Only.fenceFrame (hA := List.Subset.trans (by decide) hA)
    | with_reducible apply Only.fencePort (hA := List.Subset.trans (by decide) hA)
    | with_reducible apply Only.freeTiles (hA := List.Subset.trans (by decide) hA)
    | with_reducible apply Only.modFp (hA := List.Subset.trans (by decide) hA)
    | with_reducible apply Only.modReq (hA := List.Subset.trans (by decide) hA)
    | with_reducible apply Only.modSch (hA := List.Subset.trans (by decide) hA)
    | with_reducible apply Only.scrubAll (hA := List.Subset.trans (by decide) hA)
    | with_reducible apply Only.unclaim (hA := List.Subset.trans (by decide) hA)
    | with_reducible refine Only.ite ?_ ?_
    | split

theorem Only.endDone {A : List Part} {sB : State} (id : Nat) (s : State) (hA : [.tens, .sch, .reqs, .tiles, .streams, .ks, .fp, .evPend, .pviol, .pvcnt, .out] ⊆ A) (h : Only A sB s) : Only A sB (Machine.endDone id s) := by
  unfold Machine.endDone
  repeat' first
    | dsimp only
    | with_reducible assumption
    | intro _
    | with_reducible apply Only.endChain (hA := List.Subset.trans (by decide) hA)
    | with_reducible refine Only.ite ?_ ?_
    | split

theorem Only.issueRange {A : List Part} {sB : State} (id b a l : Nat) (s : State) (hA : [.tens, .reqs, .evPend, .pviol, .pvcnt, .out] ⊆ A) (h : Only A sB s) : Only A sB (Machine.issueRange id b a l s) := by
  unfold Machine.issueRange
  repeat' first
    | with_reducible assumption
    | with_reducible apply Only.emitRd (hA := List.Subset.trans (by decide) hA)
    | with_reducible apply Only.modBuf (hA := List.Subset.trans (by decide) hA)
    | with_reducible apply Only.reqViol (hA := List.Subset.trans (by decide) hA)
    | split

theorem Only.askElem {A : List Part} {sB : State} (id b : Nat) (short : Fail) (s : State) (hA : [.tens, .reqs, .evPend, .pviol, .pvcnt, .out] ⊆ A) (h : Only A sB s) : Only A sB (Machine.askElem id b short s) := by
  unfold Machine.askElem
  repeat' first
    | dsimp only
    | with_reducible assumption
    | intro _
    | with_reducible apply Only.emitRd (hA := List.Subset.trans (by decide) hA)
    | with_reducible apply Only.modBuf (hA := List.Subset.trans (by decide) hA)
    | with_reducible apply Only.reqViol (hA := List.Subset.trans (by decide) hA)
    | with_reducible refine Only.ite ?_ ?_
    | split

theorem Only.startBuf {A : List Part} {sB : State} (id b : Nat) (s : State) (hA : [.tens, .reqs, .evPend, .pviol, .pvcnt, .out] ⊆ A) (h : Only A sB s) : Only A sB (Machine.startBuf id b s) := by
  unfold Machine.startBuf
  repeat' first
    | dsimp only
    | with_reducible assumption
    | intro _
    | with_reducible apply Only.askElem (hA := List.Subset.trans (by decide) hA)
    | with_reducible apply Only.emit (hA := List.Subset.trans (by decide) hA)
    | with_reducible apply Only.issueRange (hA := List.Subset.trans (by decide) hA)
    | with_reducible apply Only.modBuf (hA := List.Subset.trans (by decide) hA)
    | with_reducible apply Only.modReq (hA := List.Subset.trans (by decide) hA)
    | with_reducible refine Only.ite ?_ ?_
    | split

theorem Only.startBufs {A : List Part} {sB : State} (id : Nat) (s : State) (hA : [.tens, .reqs, .evPend, .pviol, .pvcnt, .out] ⊆ A) (h : Only A sB s) : Only A sB (Machine.startBufs id s) := by
  unfold Machine.startBufs
  repeat' first
    | with_reducible assumption
    | intro _
    | with_reducible apply Only.eachN
    | with_reducible apply Only.startBuf (hA := List.Subset.trans (by decide) hA)
    | split

theorem Only.reqWrote {A : List Part} {sB : State} (id b a off len : Nat) (s : State) (hA : [.reqs] ⊆ A) (h : Only A sB s) : Only A sB (Machine.reqWrote id b a off len s) := by
  unfold Machine.reqWrote
  repeat' first
    | dsimp only
    | with_reducible assumption
    | intro _
    | with_reducible apply Only.modReq (hA := List.Subset.trans (by decide) hA)
    | with_reducible refine Only.ite ?_ ?_
    | split

theorem Only.writeSegs {A : List Part} {sB : State} (id b : Nat) (data : Bytes) (x : List (Nat × Nat × Nat)) (s : State) (hA : [.tens, .reqs, .evPend, .pviol, .pvcnt, .out] ⊆ A) (h : Only A sB s) : Only A sB (Machine.writeSegs id b data x s).1 := by
  induction x generalizing s with
  | nil => exact h
  | cons a l ih =>
    try obtain ⟨_, _, _⟩ := a
    unfold Machine.writeSegs
    repeat' first
      | dsimp only
      | with_reducible assumption
      | intro _
      | with_reducible apply Only.emitWr (hA := List.Subset.trans (by decide) hA)
      | with_reducible apply Only.modBuf (hA := List.Subset.trans (by decide) hA)
      | with_reducible apply Only.reqViol (hA := List.Subset.trans (by decide) hA)
      | with_reducible apply Only.reqWrote (hA := List.Subset.trans (by decide) hA)
      | with_reducible refine Only.ite ?_ ?_
      | split
      | with_reducible apply ih

theorem Only.writeSegs_eq {A : List Part} {sB : State} {id b : Nat} {data : Bytes} {x : List (Nat × Nat × Nat)} {s : State} {y : Option Nat} {t : State} (hA : [.tens, .reqs, .evPend, .pviol, .pvcnt, .out] ⊆ A) (e : Machine.writeSegs id b data x s = (t, y)) (h : Only A sB s) : Only A sB t := by
  have := Only.writeSegs id b data x s hA h
  rwa [e] at this

theorem Only.writeOut {A : List Part} {sB : State} (r : Req) (i n : Nat) (s : State) (hA : [.tens, .reqs, .evPend, .pviol, .pvcnt, .out] ⊆ A) (h : Only A sB s) : Only A sB (Machine.writeOut r i n s).1 := by
  unfold Machine.writeOut
  repeat' first
    | dsimp only
    | with_reducible assumption
    | intro _
    | with_reducible apply Only.reqViol (hA := List.Subset.trans (by decide) hA)
    | with_reducible refine Only.writeSegs_eq (hA := List.Subset.trans (by decide) hA) (by assumption) ?_
    | with_reducible apply Only.writeSegs (hA := List.Subset.trans (by decide) hA)
    | with_reducible refine Only.ite ?_ ?_
    | split

theorem Only.writeOut_eq {A : List Part} {sB : State} {r : Req} {i n : Nat} {s : State} {y : Option Nat} {t : State} (hA : [.tens, .reqs, .evPend, .pviol, .pvcnt, .out] ⊆ A) (e : Machine.writeOut r i n s = (t, y)) (h : Only A sB s) : Only A sB t := by
  have := Only.writeOut r i n s hA h
  rwa [e] at this

theorem Only.flushOp {A : List Part} {sB : State} (id i : Nat) (s : State) (hA : [.tens, .reqs, .evPend, .pviol, .pvcnt, .out] ⊆ A) (h : Only A sB s) : Only A sB (Machine.flushOp id i s).1 := by
  unfold Machine.flushOp
  repeat' first
    | dsimp only
    | with_reducible assumption
    | intro _
    | with_reducible apply Only.askElem (hA := List.Subset.trans (by decide) hA)
    | with_reducible apply Only.emit (hA := List.Subset.trans (by decide) hA)
    | with_reducible apply Only.modBuf (hA := List.Subset.trans (by decide) hA)
    | with_reducible apply Only.modOp (hA := List.Subset.trans (by decide) hA)
    | with_reducible apply Only.modReq (hA := List.Subset.trans (by decide) hA)
    | with_reducible refine Only.writeOut_eq (hA := List.Subset.trans (by decide) hA) (by assumption) ?_
    | with_reducible apply Only.writeOut (hA := List.Subset.trans (by decide) hA)
    | with_reducible refine Only.ite ?_ ?_
    | split

theorem Only.flushOp_eq {A : List Part} {sB : State} {id i : Nat} {s : State} {y : Option Fail} {t : State} (hA : [.tens, .reqs, .evPend, .pviol, .pvcnt, .out] ⊆ A) (e : Machine.flushOp id i s = (t, y)) (h : Only A sB s) : Only A sB t := by
  have := Only.flushOp id i s hA h
  rwa [e] at this

theorem Only.receiveKey {A : List Part} {sB : State} (id i : Nat) (s : State) (hA : [.reqs] ⊆ A) (h : Only A sB s) : Only A sB (Machine.receiveKey id i s).1 := by
  unfold Machine.receiveKey
  repeat' first
    | dsimp only
    | with_reducible assumption
    | intro _
    | with_reducible apply Only.modOp (hA := List.Subset.trans (by decide) hA)
    | with_reducible refine Only.ite ?_ ?_
    | split

theorem Only.receiveKey_eq {A : List Part} {sB : State} {id i : Nat} {s : State} {y : Option Fail} {t : State} (hA : [.reqs] ⊆ A) (e : Machine.receiveKey id i s = (t, y)) (h : Only A sB s) : Only A sB t := by
  have := Only.receiveKey id i s hA h
  rwa [e] at this

theorem Only.pairRecord {A : List Part} {sB : State} (r : Req) (o : OpSt) (voter outcome : Nat) (s : State) (hA : [.notice, .jrn, .evPend, .pviol, .pvcnt, .out] ⊆ A) (h : Only A sB s) : Only A sB (Machine.pairRecord r o voter outcome s) := by
  unfold Machine.pairRecord
  repeat' first
    | dsimp only
    | with_reducible assumption
    | intro _
    | with_reducible apply Only.journal (hA := List.Subset.trans (by decide) hA)
    | with_reducible refine Only.ite ?_ ?_
    | split

theorem Only.settleOp {A : List Part} {sB : State} (id i : Nat) (s : State) (hA : [.notice, .tens, .reqs, .jrn, .evPend, .pviol, .pvcnt, .out] ⊆ A) (h : Only A sB s) : Only A sB (Machine.settleOp id i s).1 := by
  unfold Machine.settleOp
  repeat' first
    | dsimp only
    | with_reducible assumption
    | intro _
    | with_reducible refine Only.flushOp_eq (hA := List.Subset.trans (by decide) hA) (by assumption) ?_
    | with_reducible apply Only.flushOp (hA := List.Subset.trans (by decide) hA)
    | with_reducible apply Only.modOp (hA := List.Subset.trans (by decide) hA)
    | with_reducible apply Only.pairRecord (hA := List.Subset.trans (by decide) hA)
    | with_reducible refine Only.receiveKey_eq (hA := List.Subset.trans (by decide) hA) (by assumption) ?_
    | with_reducible apply Only.receiveKey (hA := List.Subset.trans (by decide) hA)
    | with_reducible refine Only.ite ?_ ?_
    | split

theorem Only.settleOp_eq {A : List Part} {sB : State} {id i : Nat} {s : State} {y : Option Fail} {t : State} (hA : [.notice, .tens, .reqs, .jrn, .evPend, .pviol, .pvcnt, .out] ⊆ A) (e : Machine.settleOp id i s = (t, y)) (h : Only A sB s) : Only A sB t := by
  have := Only.settleOp id i s hA h
  rwa [e] at this

theorem Only.settleOps {A : List Part} {sB : State} (id : Nat) (x : List Nat) (s : State) (hA : [.notice, .tens, .reqs, .streams, .jrn, .evPend, .pviol, .pvcnt, .out] ⊆ A) (h : Only A sB s) : Only A sB (Machine.settleOps id x s).1 := by
  induction x generalizing s with
  | nil => exact h
  | cons a l ih =>
    unfold Machine.settleOps
    repeat' first
      | dsimp only
      | with_reducible assumption
      | with_reducible refine Only.settleOp_eq (hA := List.Subset.trans (by decide) hA) (by assumption) ?_
      | with_reducible apply Only.settleOp (hA := List.Subset.trans (by decide) hA)
      | split
      | with_reducible apply ih

theorem Only.settleOps_eq {A : List Part} {sB : State} {id : Nat} {x : List Nat} {s : State} {y : Option Outcome} {t : State} (hA : [.notice, .tens, .reqs, .streams, .jrn, .evPend, .pviol, .pvcnt, .out] ⊆ A) (e : Machine.settleOps id x s = (t, y)) (h : Only A sB s) : Only A sB t := by
  have := Only.settleOps id x s hA h
  rwa [e] at this

theorem Only.settle {A : List Part} {sB : State} (id : Nat) (s : State) (hA : [.notice, .tens, .sch, .reqs, .tiles, .streams, .ks, .fp, .jrn, .evPend, .pviol, .pvcnt, .out] ⊆ A) (h : Only A sB s) : Only A sB (Machine.settle id s) := by
  unfold Machine.settle
  repeat' first
    | dsimp only
    | with_reducible assumption
    | intro _
    | with_reducible apply Only.endChain (hA := List.Subset.trans (by decide) hA)
    | with_reducible apply Only.endDone (hA := List.Subset.trans (by decide) hA)
    | with_reducible refine Only.settleOps_eq (hA := List.Subset.trans (by decide) hA) (by assumption) ?_
    | with_reducible apply Only.settleOps (hA := List.Subset.trans (by decide) hA)
    | with_reducible apply Only.startBufs (hA := List.Subset.trans (by decide) hA)
    | with_reducible refine Only.ite ?_ ?_
    | split

theorem Only.settleAll {A : List Part} {sB : State} (s : State) (hA : [.notice, .tens, .sch, .reqs, .tiles, .streams, .ks, .fp, .jrn, .evPend, .pviol, .pvcnt, .out] ⊆ A) (h : Only A sB s) : Only A sB (Machine.settleAll s) := by
  unfold Machine.settleAll
  repeat' first
    | with_reducible assumption
    | intro _
    | with_reducible apply Only.settle (hA := List.Subset.trans (by decide) hA)
    | with_reducible apply Only.foldl

theorem Only.openEntry {A : List Part} {sB : State} (id : Nat) (s : State) (hA : [.reqs] ⊆ A) (h : Only A sB s) : Only A sB (Machine.openEntry id s) := by
  unfold Machine.openEntry
  repeat' first
    | with_reducible assumption
    | with_reducible apply Only.modReq (hA := List.Subset.trans (by decide) hA)

theorem Only.startChain {A : List Part} {sB : State} (found : Option (Fin 8 × KeyFault)) (id : Nat) (s : State) (hA : [.notice, .tens, .sch, .reqs, .tiles, .ces, .streams, .ks, .fp, .jrn, .evPend, .pviol, .pvcnt, .crs, .out] ⊆ A) (h : Only A sB s) : Only A sB (Machine.startChain found id s) := by
  unfold Machine.startChain
  repeat' first
    | dsimp only
    | with_reducible assumption
    | intro _
    | with_reducible refine Only.allocateAll_eq (hA := List.Subset.trans (by decide) hA) (by assumption) ?_
    | with_reducible apply Only.allocateAll (hA := List.Subset.trans (by decide) hA)
    | with_reducible apply Only.emit (hA := List.Subset.trans (by decide) hA)
    | with_reducible apply Only.endChain (hA := List.Subset.trans (by decide) hA)
    | with_reducible apply Only.foldl
    | with_reducible apply Only.modReq (hA := List.Subset.trans (by decide) hA)
    | with_reducible apply Only.openEntry (hA := List.Subset.trans (by decide) hA)
    | with_reducible refine Only.resolveAll_eq (hA := List.Subset.trans (by decide) hA) (by assumption) ?_
    | with_reducible apply Only.resolveAll (hA := List.Subset.trans (by decide) hA)
    | with_reducible apply Only.settle (hA := List.Subset.trans (by decide) hA)
    | with_reducible refine Only.ite ?_ ?_
    | split

theorem Only.fxChainStart {A : List Part} {sB : State} (id : Nat) (ecc : Ecc) (found : Option (Fin 8 × KeyFault)) (s : State) (hA : [.notice, .tens, .sch, .reqs, .tiles, .ces, .streams, .ks, .fp, .jrn, .evPend, .pviol, .pvcnt, .crs, .out] ⊆ A) (h : Only A sB s) : Only A sB (Machine.fxChainStart id ecc found s) := by
  unfold Machine.fxChainStart
  repeat' first
    | dsimp only
    | with_reducible assumption
    | intro _
    | with_reducible apply Only.memCheck (hA := List.Subset.trans (by decide) hA)
    | with_reducible apply Only.startChain (hA := List.Subset.trans (by decide) hA)
    | with_reducible apply Only.whenS
    | with_reducible apply Only.withReq
    | with_reducible refine Only.ite ?_ ?_
    | split

theorem Only.takeElem {A : List Part} {sB : State} (id b : Nat) (data : Bytes) (s : State) (hA : [.tens, .reqs, .evPend, .pviol, .pvcnt, .out] ⊆ A) (h : Only A sB s) : Only A sB (Machine.takeElem id b data s) := by
  unfold Machine.takeElem
  repeat' first
    | dsimp only
    | with_reducible assumption
    | intro _
    | with_reducible apply Only.askElem (hA := List.Subset.trans (by decide) hA)
    | with_reducible apply Only.issueRange (hA := List.Subset.trans (by decide) hA)
    | with_reducible apply Only.modBuf (hA := List.Subset.trans (by decide) hA)
    | with_reducible refine Only.ite ?_ ?_
    | split

theorem Only.takeData {A : List Part} {sB : State} (id b : Nat) (data : Bytes) (s : State) (hA : [.tens, .reqs, .evPend, .pviol, .pvcnt, .out] ⊆ A) (h : Only A sB s) : Only A sB (Machine.takeData id b data s) := by
  unfold Machine.takeData
  repeat' first
    | dsimp only
    | with_reducible assumption
    | intro _
    | with_reducible apply Only.askElem (hA := List.Subset.trans (by decide) hA)
    | with_reducible apply Only.modBuf (hA := List.Subset.trans (by decide) hA)
    | with_reducible refine Only.ite ?_ ?_
    | split

theorem Only.readSegs {A : List Part} {sB : State} (id b : Nat) (x : List (Nat × Nat × Nat)) (s : State) (hA : [.tens, .reqs, .evPend, .pviol, .pvcnt, .out] ⊆ A) (h : Only A sB s) : Only A sB (Machine.readSegs id b x s) := by
  induction x generalizing s with
  | nil => exact h
  | cons a l ih =>
    try obtain ⟨_, _, _⟩ := a
    unfold Machine.readSegs
    repeat' first
      | dsimp only
      | with_reducible assumption
      | intro _
      | with_reducible apply Only.issueRange (hA := List.Subset.trans (by decide) hA)
      | with_reducible refine Only.ite ?_ ?_
      | split
      | with_reducible apply ih

theorem Only.rereadBuf {A : List Part} {sB : State} (r : Req) (b : Nat) (s : State) (hA : [.tens, .reqs, .evPend, .pviol, .pvcnt, .out] ⊆ A) (h : Only A sB s) : Only A sB (Machine.rereadBuf r b s) := by
  unfold Machine.rereadBuf
  repeat' first
    | dsimp only
    | with_reducible assumption
    | intro _
    | with_reducible apply Only.askElem (hA := List.Subset.trans (by decide) hA)
    | with_reducible apply Only.emit (hA := List.Subset.trans (by decide) hA)
    | with_reducible apply Only.modBuf (hA := List.Subset.trans (by decide) hA)
    | with_reducible apply Only.readSegs (hA := List.Subset.trans (by decide) hA)
    | with_reducible refine Only.ite ?_ ?_
    | split

theorem Only.fxDataReadReturn {A : List Part} {sB : State} (id : Nat) (buf : Fin 8) (data : Bytes) (ecc : Ecc) (s : State) (hA : [.notice, .tens, .sch, .reqs, .tiles, .ces, .streams, .ks, .fp, .jrn, .evPend, .pviol, .pvcnt, .out] ⊆ A) (h : Only A sB s) : Only A sB (Machine.fxDataReadReturn id buf data ecc s) := by
  unfold Machine.fxDataReadReturn
  repeat' first
    | dsimp only
    | with_reducible assumption
    | intro _
    | with_reducible apply Only.countCe (hA := List.Subset.trans (by decide) hA)
    | with_reducible apply Only.journalUe (hA := List.Subset.trans (by decide) hA)
    | with_reducible apply Only.modBuf (hA := List.Subset.trans (by decide) hA)
    | with_reducible apply Only.raiseG (hA := List.Subset.trans (by decide) hA)
    | with_reducible apply Only.rereadBuf (hA := List.Subset.trans (by decide) hA)
    | with_reducible apply Only.settle (hA := List.Subset.trans (by decide) hA)
    | with_reducible apply Only.takeData (hA := List.Subset.trans (by decide) hA)
    | with_reducible apply Only.takeElem (hA := List.Subset.trans (by decide) hA)
    | with_reducible apply Only.whenS
    | with_reducible apply Only.withReq
    | with_reducible refine Only.ite ?_ ?_
    | split

theorem Only.fxCopyOperation {A : List Part} {sB : State} (id : Nat) (op : Fin 8) (s : State) (hA : [.notice, .tens, .sch, .reqs, .tiles, .streams, .ks, .fp, .jrn, .evPend, .pviol, .pvcnt, .out] ⊆ A) (h : Only A sB s) : Only A sB (Machine.fxCopyOperation id op s) := by
  unfold Machine.fxCopyOperation
  repeat' first
    | with_reducible assumption
    | intro _
    | with_reducible apply Only.modOp (hA := List.Subset.trans (by decide) hA)
    | with_reducible apply Only.settle (hA := List.Subset.trans (by decide) hA)
    | with_reducible apply Only.whenS
    | with_reducible apply Only.withReq

end Sys2Proof.Machine
end

