-- ==== Sys2Proof/Laws/Tables.lean ====
section
/-!
SUPPORT. Sparse tables: a read after a write gives the value written, a write leaves every other item alone, and it keeps the one
canonical form, so that equal tables are equal data.
-/

set_option Elab.async false

namespace Sys2Proof.Machine

variable {α : Type} (d : α)

theorem look_filter_same (t : Tbl α) (i : Nat) : Tbl.look d (t.filter (fun p => p.1 != i)) i = d := by
  induction t with
  | nil => rfl
  | cons p t ih => by_cases h : p.1 = i <;> simp [h, Tbl.look, ih]

theorem look_filter_ne (t : Tbl α) {i j : Nat} (h : j ≠ i) : Tbl.look d (t.filter (fun p => p.1 != i)) j = t.look d j := by
  induction t with
  | nil => rfl
  | cons p t ih =>
    by_cases hp : p.1 = i
    · simp [hp, Tbl.look, Ne.symm h, ih]
    · simp [hp, Tbl.look, ih]

theorem look_ins_ne (t : Tbl α) {i j : Nat} (v : α) (h : j ≠ i) : Tbl.look d (Tbl.ins i v t) j = t.look d j := by
  induction t with
  | nil => simp [Tbl.ins, Tbl.look, Ne.symm h]
  | cons p t ih =>
    unfold Tbl.ins
    split
    · simp [Tbl.look, Ne.symm h]
    · simp [Tbl.look, ih]

theorem look_ins_same (t : Tbl α) (i : Nat) (v : α) (h : ∀ p ∈ t, p.1 ≠ i) : Tbl.look d (Tbl.ins i v t) i = v := by
  induction t with
  | nil => simp [Tbl.ins, Tbl.look]
  | cons p t ih =>
    unfold Tbl.ins
    split
    · simp [Tbl.look]
    · have hp : p.1 ≠ i := h p (by simp)
      simp [Tbl.look, hp, ih (fun q hq => h q (by simp [hq]))]

variable [DecidableEq α]

theorem look_put_same (t : Tbl α) (i : Nat) (v : α) : (t.put d i v).look d i = v := by
  unfold Tbl.put
  by_cases hv : v = d
  · simp [hv, look_filter_same]
  · simp only [hv, ↓reduceIte]
    exact look_ins_same d _ i v (fun p hp => by simpa using (List.mem_filter.1 hp).2)

theorem look_put_ne (t : Tbl α) {i j : Nat} (v : α) (h : j ≠ i) : (t.put d i v).look d j = t.look d j := by
  unfold Tbl.put
  by_cases hv : v = d
  · simp [hv, look_filter_ne d t h]
  · simp only [hv, ↓reduceIte]
    rw [look_ins_ne d _ v h, look_filter_ne d t h]

/-- The canonical form, said of the items. -/
theorem wf_iff (t : Tbl α) : Tbl.wf d t = true ↔ (∀ p ∈ t, p.2 ≠ d) ∧ t.Pairwise (fun p q => p.1 < q.1) := by
  induction t with
  | nil => simp [Tbl.wf]
  | cons p t ih =>
    cases t with
    | nil => simp [Tbl.wf]
    | cons q t =>
      obtain ⟨k, v⟩ := p
      obtain ⟨k', v'⟩ := q
      simp only [Tbl.wf, Bool.and_eq_true, decide_eq_true_eq, ih, List.pairwise_cons, List.mem_cons, forall_eq_or_imp]
      constructor
      · rintro ⟨⟨h1, h2⟩, h3, h4, h5⟩
        exact ⟨⟨h1, h3⟩, ⟨h2, fun a ha => Nat.lt_trans h2 (h4 a ha)⟩, h4, h5⟩
      · rintro ⟨⟨h1, h3⟩, ⟨h2, _⟩, h4, h5⟩
        exact ⟨⟨h1, h2⟩, h3, h4, h5⟩

omit [DecidableEq α] in
theorem mem_ins {t : Tbl α} {i : Nat} {v : α} {p : Nat × α} (h : p ∈ Tbl.ins i v t) : p = (i, v) ∨ p ∈ t := by
  induction t with
  | nil => simpa [Tbl.ins] using h
  | cons q t ih =>
    unfold Tbl.ins at h
    split at h
    · simpa using h
    · rcases List.mem_cons.1 h with h | h
      · exact Or.inr (by simp [h])
      · rcases ih h with h | h
        · exact Or.inl h
        · exact Or.inr (by simp [h])

omit [DecidableEq α] in
theorem pairwise_ins {t : Tbl α} {i : Nat} (v : α) (h : t.Pairwise (fun p q => p.1 < q.1)) (hi : ∀ p ∈ t, p.1 ≠ i) :
    (Tbl.ins i v t).Pairwise (fun p q => p.1 < q.1) := by
  induction t with
  | nil => simp [Tbl.ins]
  | cons q t ih =>
    rw [List.pairwise_cons] at h
    unfold Tbl.ins
    split
    · next hlt =>
      refine List.pairwise_cons.2 ⟨?_, List.pairwise_cons.2 h⟩
      intro p hp
      rcases List.mem_cons.1 hp with rfl | hp
      · exact hlt
      · exact Nat.lt_trans hlt (h.1 p hp)
    · next hge =>
      refine List.pairwise_cons.2 ⟨?_, ih h.2 (fun p hp => hi p (by simp [hp]))⟩
      intro p hp
      rcases mem_ins hp with rfl | hp
      · have : q.1 ≠ i := hi q (by simp)
        simp only
        omega
      · exact h.1 p hp

/-- A write keeps the canonical form. -/
theorem put_wf (t : Tbl α) (i : Nat) (v : α) (h : Tbl.wf d t = true) : Tbl.wf d (t.put d i v) = true := by
  rw [wf_iff] at h ⊢
  have hf : (∀ p ∈ t.filter (fun p => p.1 != i), p.2 ≠ d) ∧ (t.filter (fun p => p.1 != i)).Pairwise (fun p q => p.1 < q.1) :=
    ⟨fun p hp => h.1 p (List.mem_of_mem_filter hp), h.2.filter _⟩
  unfold Tbl.put
  by_cases hv : v = d
  · simpa only [hv, if_true] using hf
  · simp only [hv, if_false]
    refine ⟨?_, pairwise_ins v hf.2 (fun p hp => by simpa using (List.mem_filter.1 hp).2)⟩
    intro p hp
    rcases mem_ins hp with rfl | hp
    · exact hv
    · exact hf.1 p hp

end Sys2Proof.Machine
end

