-- ==== Sys2Proof/Laws/State.lean ====
section
/-!
SUPPORT. What each update of the state leaves as it was, field by field and through the readers, and what the updates of the tables
write. Each line holds by unfolding.
-/

set_option Elab.async false

namespace Sys2Proof.Machine

@[simp] theorem modTen_start (n : Nat) (f : Tenant → Tenant) (s : State) : (modTen n f s).start = s.start := rfl
@[simp] theorem modTen_roots (n : Nat) (f : Tenant → Tenant) (s : State) : (modTen n f s).roots = s.roots := rfl
@[simp] theorem modTen_ident (n : Nat) (f : Tenant → Tenant) (s : State) : (modTen n f s).ident = s.ident := rfl
@[simp] theorem modTen_owner (n : Nat) (f : Tenant → Tenant) (s : State) : (modTen n f s).owner = s.owner := rfl
@[simp] theorem modTen_denied (n : Nat) (f : Tenant → Tenant) (s : State) : (modTen n f s).denied = s.denied := rfl
@[simp] theorem modTen_own (n : Nat) (f : Tenant → Tenant) (s : State) : (modTen n f s).own = s.own := rfl
@[simp] theorem modTen_gen (n : Nat) (f : Tenant → Tenant) (s : State) : (modTen n f s).gen = s.gen := rfl
@[simp] theorem modTen_sqs (n : Nat) (f : Tenant → Tenant) (s : State) : (modTen n f s).sqs = s.sqs := rfl
@[simp] theorem modTen_cqs (n : Nat) (f : Tenant → Tenant) (s : State) : (modTen n f s).cqs = s.cqs := rfl
@[simp] theorem modTen_sch (n : Nat) (f : Tenant → Tenant) (s : State) : (modTen n f s).sch = s.sch := rfl
@[simp] theorem modTen_reqs (n : Nat) (f : Tenant → Tenant) (s : State) : (modTen n f s).reqs = s.reqs := rfl
@[simp] theorem modTen_sent (n : Nat) (f : Tenant → Tenant) (s : State) : (modTen n f s).sent = s.sent := rfl
@[simp] theorem modTen_tiles (n : Nat) (f : Tenant → Tenant) (s : State) : (modTen n f s).tiles = s.tiles := rfl
@[simp] theorem modTen_css (n : Nat) (f : Tenant → Tenant) (s : State) : (modTen n f s).css = s.css := rfl
@[simp] theorem modTen_ces (n : Nat) (f : Tenant → Tenant) (s : State) : (modTen n f s).ces = s.ces := rfl
@[simp] theorem modTen_streams (n : Nat) (f : Tenant → Tenant) (s : State) : (modTen n f s).streams = s.streams := rfl
@[simp] theorem modTen_ks (n : Nat) (f : Tenant → Tenant) (s : State) : (modTen n f s).ks = s.ks := rfl
@[simp] theorem modTen_meas (n : Nat) (f : Tenant → Tenant) (s : State) : (modTen n f s).meas = s.meas := rfl
@[simp] theorem modTen_es (n : Nat) (f : Tenant → Tenant) (s : State) : (modTen n f s).es = s.es := rfl
@[simp] theorem modTen_rbgs (n : Nat) (f : Tenant → Tenant) (s : State) : (modTen n f s).rbgs = s.rbgs := rfl
@[simp] theorem modTen_dcs (n : Nat) (f : Tenant → Tenant) (s : State) : (modTen n f s).dcs = s.dcs := rfl
@[simp] theorem modTen_fp (n : Nat) (f : Tenant → Tenant) (s : State) : (modTen n f s).fp = s.fp := rfl
@[simp] theorem modTen_time (n : Nat) (f : Tenant → Tenant) (s : State) : (modTen n f s).time = s.time := rfl
@[simp] theorem modTen_clk (n : Nat) (f : Tenant → Tenant) (s : State) : (modTen n f s).clk = s.clk := rfl
@[simp] theorem modTen_sup (n : Nat) (f : Tenant → Tenant) (s : State) : (modTen n f s).sup = s.sup := rfl
@[simp] theorem modTen_ret (n : Nat) (f : Tenant → Tenant) (s : State) : (modTen n f s).ret = s.ret := rfl
@[simp] theorem modTen_jrn (n : Nat) (f : Tenant → Tenant) (s : State) : (modTen n f s).jrn = s.jrn := rfl
@[simp] theorem modTen_evPend (n : Nat) (f : Tenant → Tenant) (s : State) : (modTen n f s).evPend = s.evPend := rfl
@[simp] theorem modTen_buserr (n : Nat) (f : Tenant → Tenant) (s : State) : (modTen n f s).buserr = s.buserr := rfl
@[simp] theorem modTen_becnt (n : Nat) (f : Tenant → Tenant) (s : State) : (modTen n f s).becnt = s.becnt := rfl
@[simp] theorem modTen_pviol (n : Nat) (f : Tenant → Tenant) (s : State) : (modTen n f s).pviol = s.pviol := rfl
@[simp] theorem modTen_pvcnt (n : Nat) (f : Tenant → Tenant) (s : State) : (modTen n f s).pvcnt = s.pvcnt := rfl
@[simp] theorem modTen_crs (n : Nat) (f : Tenant → Tenant) (s : State) : (modTen n f s).crs = s.crs := rfl
@[simp] theorem modTen_boot (n : Nat) (f : Tenant → Tenant) (s : State) : (modTen n f s).boot = s.boot := rfl
@[simp] theorem modTen_heldWr (n : Nat) (f : Tenant → Tenant) (s : State) : (modTen n f s).heldWr = s.heldWr := rfl
@[simp] theorem modTen_latch (n : Nat) (f : Tenant → Tenant) (s : State) : (modTen n f s).latch = s.latch := rfl
@[simp] theorem modTen_out (n : Nat) (f : Tenant → Tenant) (s : State) : (modTen n f s).out = s.out := rfl
@[simp] theorem modTen_free (n : Nat) (f : Tenant → Tenant) (s : State) : (modTen n f s).free = s.free := rfl
@[simp] theorem modTen_pending (n : Nat) (f : Tenant → Tenant) (s : State) : (modTen n f s).pending = s.pending := rfl
theorem modTen_tens (n : Nat) (f : Tenant → Tenant) (s : State) : (modTen n f s).tens = s.tens.put {} n (f (s.ten n)) := rfl
@[simp] theorem modTen_sq (n : Nat) (f : Tenant → Tenant) (s : State) (a b : Nat) : (modTen n f s).sq a b = s.sq a b := rfl
@[simp] theorem modTen_cq (n : Nat) (f : Tenant → Tenant) (s : State) (a b : Nat) : (modTen n f s).cq a b = s.cq a b := rfl
@[simp] theorem modTen_dc (n : Nat) (f : Tenant → Tenant) (s : State) (k : Nat) : (modTen n f s).dc k = s.dc k := rfl
@[simp] theorem modTen_tile (n : Nat) (f : Tenant → Tenant) (s : State) (k : Nat) : (modTen n f s).tile k = s.tile k := rfl
@[simp] theorem modTen_csSt (n : Nat) (f : Tenant → Tenant) (s : State) (k : Nat) : (modTen n f s).csSt k = s.csSt k := rfl
@[simp] theorem modTen_slot (n : Nat) (f : Tenant → Tenant) (s : State) (k : Nat) : (modTen n f s).slot k = s.slot k := rfl
@[simp] theorem modTen_rbg (n : Nat) (f : Tenant → Tenant) (s : State) (k : Nat) : (modTen n f s).rbg k = s.rbg k := rfl
@[simp] theorem modTen_stream (n : Nat) (f : Tenant → Tenant) (s : State) (k : Nat) : (modTen n f s).stream k = s.stream k := rfl
@[simp] theorem modTen_cacheEnt (n : Nat) (f : Tenant → Tenant) (s : State) (k : Nat) : (modTen n f s).cacheEnt k = s.cacheEnt k := rfl
@[simp] theorem modTen_peer (n : Nat) (f : Tenant → Tenant) (s : State) (k : Nat) : (modTen n f s).peer k = s.peer k := rfl
@[simp] theorem modTen_tcmp (n : Nat) (f : Tenant → Tenant) (s : State) (k : Nat) : (modTen n f s).tcmp k = s.tcmp k := rfl
@[simp] theorem modTen_req (n : Nat) (f : Tenant → Tenant) (s : State) (k : Nat) : (modTen n f s).req k = s.req k := rfl

@[simp] theorem modSq_start (n m : Nat) (f : Sq → Sq) (s : State) : (modSq n m f s).start = s.start := rfl
@[simp] theorem modSq_roots (n m : Nat) (f : Sq → Sq) (s : State) : (modSq n m f s).roots = s.roots := rfl
@[simp] theorem modSq_ident (n m : Nat) (f : Sq → Sq) (s : State) : (modSq n m f s).ident = s.ident := rfl
@[simp] theorem modSq_owner (n m : Nat) (f : Sq → Sq) (s : State) : (modSq n m f s).owner = s.owner := rfl
@[simp] theorem modSq_denied (n m : Nat) (f : Sq → Sq) (s : State) : (modSq n m f s).denied = s.denied := rfl
@[simp] theorem modSq_own (n m : Nat) (f : Sq → Sq) (s : State) : (modSq n m f s).own = s.own := rfl
@[simp] theorem modSq_gen (n m : Nat) (f : Sq → Sq) (s : State) : (modSq n m f s).gen = s.gen := rfl
@[simp] theorem modSq_tens (n m : Nat) (f : Sq → Sq) (s : State) : (modSq n m f s).tens = s.tens := rfl
@[simp] theorem modSq_cqs (n m : Nat) (f : Sq → Sq) (s : State) : (modSq n m f s).cqs = s.cqs := rfl
@[simp] theorem modSq_sch (n m : Nat) (f : Sq → Sq) (s : State) : (modSq n m f s).sch = s.sch := rfl
@[simp] theorem modSq_reqs (n m : Nat) (f : Sq → Sq) (s : State) : (modSq n m f s).reqs = s.reqs := rfl
@[simp] theorem modSq_sent (n m : Nat) (f : Sq → Sq) (s : State) : (modSq n m f s).sent = s.sent := rfl
@[simp] theorem modSq_tiles (n m : Nat) (f : Sq → Sq) (s : State) : (modSq n m f s).tiles = s.tiles := rfl
@[simp] theorem modSq_css (n m : Nat) (f : Sq → Sq) (s : State) : (modSq n m f s).css = s.css := rfl
@[simp] theorem modSq_ces (n m : Nat) (f : Sq → Sq) (s : State) : (modSq n m f s).ces = s.ces := rfl
@[simp] theorem modSq_streams (n m : Nat) (f : Sq → Sq) (s : State) : (modSq n m f s).streams = s.streams := rfl
@[simp] theorem modSq_ks (n m : Nat) (f : Sq → Sq) (s : State) : (modSq n m f s).ks = s.ks := rfl
@[simp] theorem modSq_meas (n m : Nat) (f : Sq → Sq) (s : State) : (modSq n m f s).meas = s.meas := rfl
@[simp] theorem modSq_es (n m : Nat) (f : Sq → Sq) (s : State) : (modSq n m f s).es = s.es := rfl
@[simp] theorem modSq_rbgs (n m : Nat) (f : Sq → Sq) (s : State) : (modSq n m f s).rbgs = s.rbgs := rfl
@[simp] theorem modSq_dcs (n m : Nat) (f : Sq → Sq) (s : State) : (modSq n m f s).dcs = s.dcs := rfl
@[simp] theorem modSq_fp (n m : Nat) (f : Sq → Sq) (s : State) : (modSq n m f s).fp = s.fp := rfl
@[simp] theorem modSq_time (n m : Nat) (f : Sq → Sq) (s : State) : (modSq n m f s).time = s.time := rfl
@[simp] theorem modSq_clk (n m : Nat) (f : Sq → Sq) (s : State) : (modSq n m f s).clk = s.clk := rfl
@[simp] theorem modSq_sup (n m : Nat) (f : Sq → Sq) (s : State) : (modSq n m f s).sup = s.sup := rfl
@[simp] theorem modSq_ret (n m : Nat) (f : Sq → Sq) (s : State) : (modSq n m f s).ret = s.ret := rfl
@[simp] theorem modSq_jrn (n m : Nat) (f : Sq → Sq) (s : State) : (modSq n m f s).jrn = s.jrn := rfl
@[simp] theorem modSq_evPend (n m : Nat) (f : Sq → Sq) (s : State) : (modSq n m f s).evPend = s.evPend := rfl
@[simp] theorem modSq_buserr (n m : Nat) (f : Sq → Sq) (s : State) : (modSq n m f s).buserr = s.buserr := rfl
@[simp] theorem modSq_becnt (n m : Nat) (f : Sq → Sq) (s : State) : (modSq n m f s).becnt = s.becnt := rfl
@[simp] theorem modSq_pviol (n m : Nat) (f : Sq → Sq) (s : State) : (modSq n m f s).pviol = s.pviol := rfl
@[simp] theorem modSq_pvcnt (n m : Nat) (f : Sq → Sq) (s : State) : (modSq n m f s).pvcnt = s.pvcnt := rfl
@[simp] theorem modSq_crs (n m : Nat) (f : Sq → Sq) (s : State) : (modSq n m f s).crs = s.crs := rfl
@[simp] theorem modSq_boot (n m : Nat) (f : Sq → Sq) (s : State) : (modSq n m f s).boot = s.boot := rfl
@[simp] theorem modSq_heldWr (n m : Nat) (f : Sq → Sq) (s : State) : (modSq n m f s).heldWr = s.heldWr := rfl
@[simp] theorem modSq_latch (n m : Nat) (f : Sq → Sq) (s : State) : (modSq n m f s).latch = s.latch := rfl
@[simp] theorem modSq_out (n m : Nat) (f : Sq → Sq) (s : State) : (modSq n m f s).out = s.out := rfl
@[simp] theorem modSq_free (n m : Nat) (f : Sq → Sq) (s : State) : (modSq n m f s).free = s.free := rfl
@[simp] theorem modSq_pending (n m : Nat) (f : Sq → Sq) (s : State) : (modSq n m f s).pending = s.pending := rfl
theorem modSq_sqs (n m : Nat) (f : Sq → Sq) (s : State) : (modSq n m f s).sqs = s.sqs.put {} (rix n m) (f (s.sq n m)) := rfl
@[simp] theorem modSq_ten (n m : Nat) (f : Sq → Sq) (s : State) (k : Nat) : (modSq n m f s).ten k = s.ten k := rfl
@[simp] theorem modSq_cq (n m : Nat) (f : Sq → Sq) (s : State) (a b : Nat) : (modSq n m f s).cq a b = s.cq a b := rfl
@[simp] theorem modSq_dc (n m : Nat) (f : Sq → Sq) (s : State) (k : Nat) : (modSq n m f s).dc k = s.dc k := rfl
@[simp] theorem modSq_tile (n m : Nat) (f : Sq → Sq) (s : State) (k : Nat) : (modSq n m f s).tile k = s.tile k := rfl
@[simp] theorem modSq_csSt (n m : Nat) (f : Sq → Sq) (s : State) (k : Nat) : (modSq n m f s).csSt k = s.csSt k := rfl
@[simp] theorem modSq_slot (n m : Nat) (f : Sq → Sq) (s : State) (k : Nat) : (modSq n m f s).slot k = s.slot k := rfl
@[simp] theorem modSq_rbg (n m : Nat) (f : Sq → Sq) (s : State) (k : Nat) : (modSq n m f s).rbg k = s.rbg k := rfl
@[simp] theorem modSq_stream (n m : Nat) (f : Sq → Sq) (s : State) (k : Nat) : (modSq n m f s).stream k = s.stream k := rfl
@[simp] theorem modSq_cacheEnt (n m : Nat) (f : Sq → Sq) (s : State) (k : Nat) : (modSq n m f s).cacheEnt k = s.cacheEnt k := rfl
@[simp] theorem modSq_peer (n m : Nat) (f : Sq → Sq) (s : State) (k : Nat) : (modSq n m f s).peer k = s.peer k := rfl
@[simp] theorem modSq_tcmp (n m : Nat) (f : Sq → Sq) (s : State) (k : Nat) : (modSq n m f s).tcmp k = s.tcmp k := rfl
@[simp] theorem modSq_req (n m : Nat) (f : Sq → Sq) (s : State) (k : Nat) : (modSq n m f s).req k = s.req k := rfl

@[simp] theorem modCq_start (n m : Nat) (f : Cq → Cq) (s : State) : (modCq n m f s).start = s.start := rfl
@[simp] theorem modCq_roots (n m : Nat) (f : Cq → Cq) (s : State) : (modCq n m f s).roots = s.roots := rfl
@[simp] theorem modCq_ident (n m : Nat) (f : Cq → Cq) (s : State) : (modCq n m f s).ident = s.ident := rfl
@[simp] theorem modCq_owner (n m : Nat) (f : Cq → Cq) (s : State) : (modCq n m f s).owner = s.owner := rfl
@[simp] theorem modCq_denied (n m : Nat) (f : Cq → Cq) (s : State) : (modCq n m f s).denied = s.denied := rfl
@[simp] theorem modCq_own (n m : Nat) (f : Cq → Cq) (s : State) : (modCq n m f s).own = s.own := rfl
@[simp] theorem modCq_gen (n m : Nat) (f : Cq → Cq) (s : State) : (modCq n m f s).gen = s.gen := rfl
@[simp] theorem modCq_tens (n m : Nat) (f : Cq → Cq) (s : State) : (modCq n m f s).tens = s.tens := rfl
@[simp] theorem modCq_sqs (n m : Nat) (f : Cq → Cq) (s : State) : (modCq n m f s).sqs = s.sqs := rfl
@[simp] theorem modCq_sch (n m : Nat) (f : Cq → Cq) (s : State) : (modCq n m f s).sch = s.sch := rfl
@[simp] theorem modCq_reqs (n m : Nat) (f : Cq → Cq) (s : State) : (modCq n m f s).reqs = s.reqs := rfl
@[simp] theorem modCq_sent (n m : Nat) (f : Cq → Cq) (s : State) : (modCq n m f s).sent = s.sent := rfl
@[simp] theorem modCq_tiles (n m : Nat) (f : Cq → Cq) (s : State) : (modCq n m f s).tiles = s.tiles := rfl
@[simp] theorem modCq_css (n m : Nat) (f : Cq → Cq) (s : State) : (modCq n m f s).css = s.css := rfl
@[simp] theorem modCq_ces (n m : Nat) (f : Cq → Cq) (s : State) : (modCq n m f s).ces = s.ces := rfl
@[simp] theorem modCq_streams (n m : Nat) (f : Cq → Cq) (s : State) : (modCq n m f s).streams = s.streams := rfl
@[simp] theorem modCq_ks (n m : Nat) (f : Cq → Cq) (s : State) : (modCq n m f s).ks = s.ks := rfl
@[simp] theorem modCq_meas (n m : Nat) (f : Cq → Cq) (s : State) : (modCq n m f s).meas = s.meas := rfl
@[simp] theorem modCq_es (n m : Nat) (f : Cq → Cq) (s : State) : (modCq n m f s).es = s.es := rfl
@[simp] theorem modCq_rbgs (n m : Nat) (f : Cq → Cq) (s : State) : (modCq n m f s).rbgs = s.rbgs := rfl
@[simp] theorem modCq_dcs (n m : Nat) (f : Cq → Cq) (s : State) : (modCq n m f s).dcs = s.dcs := rfl
@[simp] theorem modCq_fp (n m : Nat) (f : Cq → Cq) (s : State) : (modCq n m f s).fp = s.fp := rfl
@[simp] theorem modCq_time (n m : Nat) (f : Cq → Cq) (s : State) : (modCq n m f s).time = s.time := rfl
@[simp] theorem modCq_clk (n m : Nat) (f : Cq → Cq) (s : State) : (modCq n m f s).clk = s.clk := rfl
@[simp] theorem modCq_sup (n m : Nat) (f : Cq → Cq) (s : State) : (modCq n m f s).sup = s.sup := rfl
@[simp] theorem modCq_ret (n m : Nat) (f : Cq → Cq) (s : State) : (modCq n m f s).ret = s.ret := rfl
@[simp] theorem modCq_jrn (n m : Nat) (f : Cq → Cq) (s : State) : (modCq n m f s).jrn = s.jrn := rfl
@[simp] theorem modCq_evPend (n m : Nat) (f : Cq → Cq) (s : State) : (modCq n m f s).evPend = s.evPend := rfl
@[simp] theorem modCq_buserr (n m : Nat) (f : Cq → Cq) (s : State) : (modCq n m f s).buserr = s.buserr := rfl
@[simp] theorem modCq_becnt (n m : Nat) (f : Cq → Cq) (s : State) : (modCq n m f s).becnt = s.becnt := rfl
@[simp] theorem modCq_pviol (n m : Nat) (f : Cq → Cq) (s : State) : (modCq n m f s).pviol = s.pviol := rfl
@[simp] theorem modCq_pvcnt (n m : Nat) (f : Cq → Cq) (s : State) : (modCq n m f s).pvcnt = s.pvcnt := rfl
@[simp] theorem modCq_crs (n m : Nat) (f : Cq → Cq) (s : State) : (modCq n m f s).crs = s.crs := rfl
@[simp] theorem modCq_boot (n m : Nat) (f : Cq → Cq) (s : State) : (modCq n m f s).boot = s.boot := rfl
@[simp] theorem modCq_heldWr (n m : Nat) (f : Cq → Cq) (s : State) : (modCq n m f s).heldWr = s.heldWr := rfl
@[simp] theorem modCq_latch (n m : Nat) (f : Cq → Cq) (s : State) : (modCq n m f s).latch = s.latch := rfl
@[simp] theorem modCq_out (n m : Nat) (f : Cq → Cq) (s : State) : (modCq n m f s).out = s.out := rfl
@[simp] theorem modCq_free (n m : Nat) (f : Cq → Cq) (s : State) : (modCq n m f s).free = s.free := rfl
@[simp] theorem modCq_pending (n m : Nat) (f : Cq → Cq) (s : State) : (modCq n m f s).pending = s.pending := rfl
theorem modCq_cqs (n m : Nat) (f : Cq → Cq) (s : State) : (modCq n m f s).cqs = s.cqs.put {} (rix n m) (f (s.cq n m)) := rfl
@[simp] theorem modCq_ten (n m : Nat) (f : Cq → Cq) (s : State) (k : Nat) : (modCq n m f s).ten k = s.ten k := rfl
@[simp] theorem modCq_sq (n m : Nat) (f : Cq → Cq) (s : State) (a b : Nat) : (modCq n m f s).sq a b = s.sq a b := rfl
@[simp] theorem modCq_dc (n m : Nat) (f : Cq → Cq) (s : State) (k : Nat) : (modCq n m f s).dc k = s.dc k := rfl
@[simp] theorem modCq_tile (n m : Nat) (f : Cq → Cq) (s : State) (k : Nat) : (modCq n m f s).tile k = s.tile k := rfl
@[simp] theorem modCq_csSt (n m : Nat) (f : Cq → Cq) (s : State) (k : Nat) : (modCq n m f s).csSt k = s.csSt k := rfl
@[simp] theorem modCq_slot (n m : Nat) (f : Cq → Cq) (s : State) (k : Nat) : (modCq n m f s).slot k = s.slot k := rfl
@[simp] theorem modCq_rbg (n m : Nat) (f : Cq → Cq) (s : State) (k : Nat) : (modCq n m f s).rbg k = s.rbg k := rfl
@[simp] theorem modCq_stream (n m : Nat) (f : Cq → Cq) (s : State) (k : Nat) : (modCq n m f s).stream k = s.stream k := rfl
@[simp] theorem modCq_cacheEnt (n m : Nat) (f : Cq → Cq) (s : State) (k : Nat) : (modCq n m f s).cacheEnt k = s.cacheEnt k := rfl
@[simp] theorem modCq_peer (n m : Nat) (f : Cq → Cq) (s : State) (k : Nat) : (modCq n m f s).peer k = s.peer k := rfl
@[simp] theorem modCq_tcmp (n m : Nat) (f : Cq → Cq) (s : State) (k : Nat) : (modCq n m f s).tcmp k = s.tcmp k := rfl
@[simp] theorem modCq_req (n m : Nat) (f : Cq → Cq) (s : State) (k : Nat) : (modCq n m f s).req k = s.req k := rfl

@[simp] theorem modDc_start (k : Nat) (f : Chan → Chan) (s : State) : (modDc k f s).start = s.start := rfl
@[simp] theorem modDc_roots (k : Nat) (f : Chan → Chan) (s : State) : (modDc k f s).roots = s.roots := rfl
@[simp] theorem modDc_ident (k : Nat) (f : Chan → Chan) (s : State) : (modDc k f s).ident = s.ident := rfl
@[simp] theorem modDc_owner (k : Nat) (f : Chan → Chan) (s : State) : (modDc k f s).owner = s.owner := rfl
@[simp] theorem modDc_denied (k : Nat) (f : Chan → Chan) (s : State) : (modDc k f s).denied = s.denied := rfl
@[simp] theorem modDc_own (k : Nat) (f : Chan → Chan) (s : State) : (modDc k f s).own = s.own := rfl
@[simp] theorem modDc_gen (k : Nat) (f : Chan → Chan) (s : State) : (modDc k f s).gen = s.gen := rfl
@[simp] theorem modDc_tens (k : Nat) (f : Chan → Chan) (s : State) : (modDc k f s).tens = s.tens := rfl
@[simp] theorem modDc_sqs (k : Nat) (f : Chan → Chan) (s : State) : (modDc k f s).sqs = s.sqs := rfl
@[simp] theorem modDc_cqs (k : Nat) (f : Chan → Chan) (s : State) : (modDc k f s).cqs = s.cqs := rfl
@[simp] theorem modDc_sch (k : Nat) (f : Chan → Chan) (s : State) : (modDc k f s).sch = s.sch := rfl
@[simp] theorem modDc_reqs (k : Nat) (f : Chan → Chan) (s : State) : (modDc k f s).reqs = s.reqs := rfl
@[simp] theorem modDc_sent (k : Nat) (f : Chan → Chan) (s : State) : (modDc k f s).sent = s.sent := rfl
@[simp] theorem modDc_tiles (k : Nat) (f : Chan → Chan) (s : State) : (modDc k f s).tiles = s.tiles := rfl
@[simp] theorem modDc_css (k : Nat) (f : Chan → Chan) (s : State) : (modDc k f s).css = s.css := rfl
@[simp] theorem modDc_ces (k : Nat) (f : Chan → Chan) (s : State) : (modDc k f s).ces = s.ces := rfl
@[simp] theorem modDc_streams (k : Nat) (f : Chan → Chan) (s : State) : (modDc k f s).streams = s.streams := rfl
@[simp] theorem modDc_ks (k : Nat) (f : Chan → Chan) (s : State) : (modDc k f s).ks = s.ks := rfl
@[simp] theorem modDc_meas (k : Nat) (f : Chan → Chan) (s : State) : (modDc k f s).meas = s.meas := rfl
@[simp] theorem modDc_es (k : Nat) (f : Chan → Chan) (s : State) : (modDc k f s).es = s.es := rfl
@[simp] theorem modDc_rbgs (k : Nat) (f : Chan → Chan) (s : State) : (modDc k f s).rbgs = s.rbgs := rfl
@[simp] theorem modDc_fp (k : Nat) (f : Chan → Chan) (s : State) : (modDc k f s).fp = s.fp := rfl
@[simp] theorem modDc_time (k : Nat) (f : Chan → Chan) (s : State) : (modDc k f s).time = s.time := rfl
@[simp] theorem modDc_clk (k : Nat) (f : Chan → Chan) (s : State) : (modDc k f s).clk = s.clk := rfl
@[simp] theorem modDc_sup (k : Nat) (f : Chan → Chan) (s : State) : (modDc k f s).sup = s.sup := rfl
@[simp] theorem modDc_ret (k : Nat) (f : Chan → Chan) (s : State) : (modDc k f s).ret = s.ret := rfl
@[simp] theorem modDc_jrn (k : Nat) (f : Chan → Chan) (s : State) : (modDc k f s).jrn = s.jrn := rfl
@[simp] theorem modDc_evPend (k : Nat) (f : Chan → Chan) (s : State) : (modDc k f s).evPend = s.evPend := rfl
@[simp] theorem modDc_buserr (k : Nat) (f : Chan → Chan) (s : State) : (modDc k f s).buserr = s.buserr := rfl
@[simp] theorem modDc_becnt (k : Nat) (f : Chan → Chan) (s : State) : (modDc k f s).becnt = s.becnt := rfl
@[simp] theorem modDc_pviol (k : Nat) (f : Chan → Chan) (s : State) : (modDc k f s).pviol = s.pviol := rfl
@[simp] theorem modDc_pvcnt (k : Nat) (f : Chan → Chan) (s : State) : (modDc k f s).pvcnt = s.pvcnt := rfl
@[simp] theorem modDc_crs (k : Nat) (f : Chan → Chan) (s : State) : (modDc k f s).crs = s.crs := rfl
@[simp] theorem modDc_boot (k : Nat) (f : Chan → Chan) (s : State) : (modDc k f s).boot = s.boot := rfl
@[simp] theorem modDc_heldWr (k : Nat) (f : Chan → Chan) (s : State) : (modDc k f s).heldWr = s.heldWr := rfl
@[simp] theorem modDc_latch (k : Nat) (f : Chan → Chan) (s : State) : (modDc k f s).latch = s.latch := rfl
@[simp] theorem modDc_out (k : Nat) (f : Chan → Chan) (s : State) : (modDc k f s).out = s.out := rfl
@[simp] theorem modDc_free (k : Nat) (f : Chan → Chan) (s : State) : (modDc k f s).free = s.free := rfl
@[simp] theorem modDc_pending (k : Nat) (f : Chan → Chan) (s : State) : (modDc k f s).pending = s.pending := rfl
theorem modDc_dcs (k : Nat) (f : Chan → Chan) (s : State) : (modDc k f s).dcs = s.dcs.put {} k (f (s.dc k)) := rfl
@[simp] theorem modDc_ten (k : Nat) (f : Chan → Chan) (s : State) (j : Nat) : (modDc k f s).ten j = s.ten j := rfl
@[simp] theorem modDc_sq (k : Nat) (f : Chan → Chan) (s : State) (a b : Nat) : (modDc k f s).sq a b = s.sq a b := rfl
@[simp] theorem modDc_cq (k : Nat) (f : Chan → Chan) (s : State) (a b : Nat) : (modDc k f s).cq a b = s.cq a b := rfl
@[simp] theorem modDc_tile (k : Nat) (f : Chan → Chan) (s : State) (j : Nat) : (modDc k f s).tile j = s.tile j := rfl
@[simp] theorem modDc_csSt (k : Nat) (f : Chan → Chan) (s : State) (j : Nat) : (modDc k f s).csSt j = s.csSt j := rfl
@[simp] theorem modDc_slot (k : Nat) (f : Chan → Chan) (s : State) (j : Nat) : (modDc k f s).slot j = s.slot j := rfl
@[simp] theorem modDc_rbg (k : Nat) (f : Chan → Chan) (s : State) (j : Nat) : (modDc k f s).rbg j = s.rbg j := rfl
@[simp] theorem modDc_stream (k : Nat) (f : Chan → Chan) (s : State) (j : Nat) : (modDc k f s).stream j = s.stream j := rfl
@[simp] theorem modDc_cacheEnt (k : Nat) (f : Chan → Chan) (s : State) (j : Nat) : (modDc k f s).cacheEnt j = s.cacheEnt j := rfl
@[simp] theorem modDc_peer (k : Nat) (f : Chan → Chan) (s : State) (j : Nat) : (modDc k f s).peer j = s.peer j := rfl
@[simp] theorem modDc_tcmp (k : Nat) (f : Chan → Chan) (s : State) (j : Nat) : (modDc k f s).tcmp j = s.tcmp j := rfl
@[simp] theorem modDc_req (k : Nat) (f : Chan → Chan) (s : State) (j : Nat) : (modDc k f s).req j = s.req j := rfl

@[simp] theorem modTile_start (t : Nat) (f : Tile → Tile) (s : State) : (modTile t f s).start = s.start := rfl
@[simp] theorem modTile_roots (t : Nat) (f : Tile → Tile) (s : State) : (modTile t f s).roots = s.roots := rfl
@[simp] theorem modTile_ident (t : Nat) (f : Tile → Tile) (s : State) : (modTile t f s).ident = s.ident := rfl
@[simp] theorem modTile_owner (t : Nat) (f : Tile → Tile) (s : State) : (modTile t f s).owner = s.owner := rfl
@[simp] theorem modTile_denied (t : Nat) (f : Tile → Tile) (s : State) : (modTile t f s).denied = s.denied := rfl
@[simp] theorem modTile_own (t : Nat) (f : Tile → Tile) (s : State) : (modTile t f s).own = s.own := rfl
@[simp] theorem modTile_gen (t : Nat) (f : Tile → Tile) (s : State) : (modTile t f s).gen = s.gen := rfl
@[simp] theorem modTile_tens (t : Nat) (f : Tile → Tile) (s : State) : (modTile t f s).tens = s.tens := rfl
@[simp] theorem modTile_sqs (t : Nat) (f : Tile → Tile) (s : State) : (modTile t f s).sqs = s.sqs := rfl
@[simp] theorem modTile_cqs (t : Nat) (f : Tile → Tile) (s : State) : (modTile t f s).cqs = s.cqs := rfl
@[simp] theorem modTile_sch (t : Nat) (f : Tile → Tile) (s : State) : (modTile t f s).sch = s.sch := rfl
@[simp] theorem modTile_reqs (t : Nat) (f : Tile → Tile) (s : State) : (modTile t f s).reqs = s.reqs := rfl
@[simp] theorem modTile_sent (t : Nat) (f : Tile → Tile) (s : State) : (modTile t f s).sent = s.sent := rfl
@[simp] theorem modTile_css (t : Nat) (f : Tile → Tile) (s : State) : (modTile t f s).css = s.css := rfl
@[simp] theorem modTile_ces (t : Nat) (f : Tile → Tile) (s : State) : (modTile t f s).ces = s.ces := rfl
@[simp] theorem modTile_streams (t : Nat) (f : Tile → Tile) (s : State) : (modTile t f s).streams = s.streams := rfl
@[simp] theorem modTile_ks (t : Nat) (f : Tile → Tile) (s : State) : (modTile t f s).ks = s.ks := rfl
@[simp] theorem modTile_meas (t : Nat) (f : Tile → Tile) (s : State) : (modTile t f s).meas = s.meas := rfl
@[simp] theorem modTile_es (t : Nat) (f : Tile → Tile) (s : State) : (modTile t f s).es = s.es := rfl
@[simp] theorem modTile_rbgs (t : Nat) (f : Tile → Tile) (s : State) : (modTile t f s).rbgs = s.rbgs := rfl
@[simp] theorem modTile_dcs (t : Nat) (f : Tile → Tile) (s : State) : (modTile t f s).dcs = s.dcs := rfl
@[simp] theorem modTile_fp (t : Nat) (f : Tile → Tile) (s : State) : (modTile t f s).fp = s.fp := rfl
@[simp] theorem modTile_time (t : Nat) (f : Tile → Tile) (s : State) : (modTile t f s).time = s.time := rfl
@[simp] theorem modTile_clk (t : Nat) (f : Tile → Tile) (s : State) : (modTile t f s).clk = s.clk := rfl
@[simp] theorem modTile_sup (t : Nat) (f : Tile → Tile) (s : State) : (modTile t f s).sup = s.sup := rfl
@[simp] theorem modTile_ret (t : Nat) (f : Tile → Tile) (s : State) : (modTile t f s).ret = s.ret := rfl
@[simp] theorem modTile_jrn (t : Nat) (f : Tile → Tile) (s : State) : (modTile t f s).jrn = s.jrn := rfl
@[simp] theorem modTile_evPend (t : Nat) (f : Tile → Tile) (s : State) : (modTile t f s).evPend = s.evPend := rfl
@[simp] theorem modTile_buserr (t : Nat) (f : Tile → Tile) (s : State) : (modTile t f s).buserr = s.buserr := rfl
@[simp] theorem modTile_becnt (t : Nat) (f : Tile → Tile) (s : State) : (modTile t f s).becnt = s.becnt := rfl
@[simp] theorem modTile_pviol (t : Nat) (f : Tile → Tile) (s : State) : (modTile t f s).pviol = s.pviol := rfl
@[simp] theorem modTile_pvcnt (t : Nat) (f : Tile → Tile) (s : State) : (modTile t f s).pvcnt = s.pvcnt := rfl
@[simp] theorem modTile_crs (t : Nat) (f : Tile → Tile) (s : State) : (modTile t f s).crs = s.crs := rfl
@[simp] theorem modTile_boot (t : Nat) (f : Tile → Tile) (s : State) : (modTile t f s).boot = s.boot := rfl
@[simp] theorem modTile_heldWr (t : Nat) (f : Tile → Tile) (s : State) : (modTile t f s).heldWr = s.heldWr := rfl
@[simp] theorem modTile_latch (t : Nat) (f : Tile → Tile) (s : State) : (modTile t f s).latch = s.latch := rfl
@[simp] theorem modTile_out (t : Nat) (f : Tile → Tile) (s : State) : (modTile t f s).out = s.out := rfl
@[simp] theorem modTile_free (t : Nat) (f : Tile → Tile) (s : State) : (modTile t f s).free = s.free := rfl
@[simp] theorem modTile_pending (t : Nat) (f : Tile → Tile) (s : State) : (modTile t f s).pending = s.pending := rfl
theorem modTile_tiles (t : Nat) (f : Tile → Tile) (s : State) : (modTile t f s).tiles = s.tiles.put {} t (f (s.tile t)) := rfl
@[simp] theorem modTile_ten (t : Nat) (f : Tile → Tile) (s : State) (k : Nat) : (modTile t f s).ten k = s.ten k := rfl
@[simp] theorem modTile_sq (t : Nat) (f : Tile → Tile) (s : State) (a b : Nat) : (modTile t f s).sq a b = s.sq a b := rfl
@[simp] theorem modTile_cq (t : Nat) (f : Tile → Tile) (s : State) (a b : Nat) : (modTile t f s).cq a b = s.cq a b := rfl
@[simp] theorem modTile_dc (t : Nat) (f : Tile → Tile) (s : State) (k : Nat) : (modTile t f s).dc k = s.dc k := rfl
@[simp] theorem modTile_csSt (t : Nat) (f : Tile → Tile) (s : State) (k : Nat) : (modTile t f s).csSt k = s.csSt k := rfl
@[simp] theorem modTile_slot (t : Nat) (f : Tile → Tile) (s : State) (k : Nat) : (modTile t f s).slot k = s.slot k := rfl
@[simp] theorem modTile_rbg (t : Nat) (f : Tile → Tile) (s : State) (k : Nat) : (modTile t f s).rbg k = s.rbg k := rfl
@[simp] theorem modTile_stream (t : Nat) (f : Tile → Tile) (s : State) (k : Nat) : (modTile t f s).stream k = s.stream k := rfl
@[simp] theorem modTile_cacheEnt (t : Nat) (f : Tile → Tile) (s : State) (k : Nat) : (modTile t f s).cacheEnt k = s.cacheEnt k := rfl
@[simp] theorem modTile_peer (t : Nat) (f : Tile → Tile) (s : State) (k : Nat) : (modTile t f s).peer k = s.peer k := rfl
@[simp] theorem modTile_tcmp (t : Nat) (f : Tile → Tile) (s : State) (k : Nat) : (modTile t f s).tcmp k = s.tcmp k := rfl
@[simp] theorem modTile_req (t : Nat) (f : Tile → Tile) (s : State) (k : Nat) : (modTile t f s).req k = s.req k := rfl

@[simp] theorem setCs_start (c : Nat) (v : CsSt) (s : State) : (setCs c v s).start = s.start := rfl
@[simp] theorem setCs_roots (c : Nat) (v : CsSt) (s : State) : (setCs c v s).roots = s.roots := rfl
@[simp] theorem setCs_ident (c : Nat) (v : CsSt) (s : State) : (setCs c v s).ident = s.ident := rfl
@[simp] theorem setCs_owner (c : Nat) (v : CsSt) (s : State) : (setCs c v s).owner = s.owner := rfl
@[simp] theorem setCs_denied (c : Nat) (v : CsSt) (s : State) : (setCs c v s).denied = s.denied := rfl
@[simp] theorem setCs_own (c : Nat) (v : CsSt) (s : State) : (setCs c v s).own = s.own := rfl
@[simp] theorem setCs_gen (c : Nat) (v : CsSt) (s : State) : (setCs c v s).gen = s.gen := rfl
@[simp] theorem setCs_tens (c : Nat) (v : CsSt) (s : State) : (setCs c v s).tens = s.tens := rfl
@[simp] theorem setCs_sqs (c : Nat) (v : CsSt) (s : State) : (setCs c v s).sqs = s.sqs := rfl
@[simp] theorem setCs_cqs (c : Nat) (v : CsSt) (s : State) : (setCs c v s).cqs = s.cqs := rfl
@[simp] theorem setCs_sch (c : Nat) (v : CsSt) (s : State) : (setCs c v s).sch = s.sch := rfl
@[simp] theorem setCs_reqs (c : Nat) (v : CsSt) (s : State) : (setCs c v s).reqs = s.reqs := rfl
@[simp] theorem setCs_sent (c : Nat) (v : CsSt) (s : State) : (setCs c v s).sent = s.sent := rfl
@[simp] theorem setCs_tiles (c : Nat) (v : CsSt) (s : State) : (setCs c v s).tiles = s.tiles := rfl
@[simp] theorem setCs_ces (c : Nat) (v : CsSt) (s : State) : (setCs c v s).ces = s.ces := rfl
@[simp] theorem setCs_streams (c : Nat) (v : CsSt) (s : State) : (setCs c v s).streams = s.streams := rfl
@[simp] theorem setCs_ks (c : Nat) (v : CsSt) (s : State) : (setCs c v s).ks = s.ks := rfl
@[simp] theorem setCs_meas (c : Nat) (v : CsSt) (s : State) : (setCs c v s).meas = s.meas := rfl
@[simp] theorem setCs_es (c : Nat) (v : CsSt) (s : State) : (setCs c v s).es = s.es := rfl
@[simp] theorem setCs_rbgs (c : Nat) (v : CsSt) (s : State) : (setCs c v s).rbgs = s.rbgs := rfl
@[simp] theorem setCs_dcs (c : Nat) (v : CsSt) (s : State) : (setCs c v s).dcs = s.dcs := rfl
@[simp] theorem setCs_fp (c : Nat) (v : CsSt) (s : State) : (setCs c v s).fp = s.fp := rfl
@[simp] theorem setCs_time (c : Nat) (v : CsSt) (s : State) : (setCs c v s).time = s.time := rfl
@[simp] theorem setCs_clk (c : Nat) (v : CsSt) (s : State) : (setCs c v s).clk = s.clk := rfl
@[simp] theorem setCs_sup (c : Nat) (v : CsSt) (s : State) : (setCs c v s).sup = s.sup := rfl
@[simp] theorem setCs_ret (c : Nat) (v : CsSt) (s : State) : (setCs c v s).ret = s.ret := rfl
@[simp] theorem setCs_jrn (c : Nat) (v : CsSt) (s : State) : (setCs c v s).jrn = s.jrn := rfl
@[simp] theorem setCs_evPend (c : Nat) (v : CsSt) (s : State) : (setCs c v s).evPend = s.evPend := rfl
@[simp] theorem setCs_buserr (c : Nat) (v : CsSt) (s : State) : (setCs c v s).buserr = s.buserr := rfl
@[simp] theorem setCs_becnt (c : Nat) (v : CsSt) (s : State) : (setCs c v s).becnt = s.becnt := rfl
@[simp] theorem setCs_pviol (c : Nat) (v : CsSt) (s : State) : (setCs c v s).pviol = s.pviol := rfl
@[simp] theorem setCs_pvcnt (c : Nat) (v : CsSt) (s : State) : (setCs c v s).pvcnt = s.pvcnt := rfl
@[simp] theorem setCs_crs (c : Nat) (v : CsSt) (s : State) : (setCs c v s).crs = s.crs := rfl
@[simp] theorem setCs_boot (c : Nat) (v : CsSt) (s : State) : (setCs c v s).boot = s.boot := rfl
@[simp] theorem setCs_heldWr (c : Nat) (v : CsSt) (s : State) : (setCs c v s).heldWr = s.heldWr := rfl
@[simp] theorem setCs_latch (c : Nat) (v : CsSt) (s : State) : (setCs c v s).latch = s.latch := rfl
@[simp] theorem setCs_out (c : Nat) (v : CsSt) (s : State) : (setCs c v s).out = s.out := rfl
@[simp] theorem setCs_free (c : Nat) (v : CsSt) (s : State) : (setCs c v s).free = s.free := rfl
@[simp] theorem setCs_pending (c : Nat) (v : CsSt) (s : State) : (setCs c v s).pending = s.pending := rfl
theorem setCs_css (c : Nat) (v : CsSt) (s : State) : (setCs c v s).css = s.css.put .healthy c v := rfl
@[simp] theorem setCs_ten (c : Nat) (v : CsSt) (s : State) (k : Nat) : (setCs c v s).ten k = s.ten k := rfl
@[simp] theorem setCs_sq (c : Nat) (v : CsSt) (s : State) (a b : Nat) : (setCs c v s).sq a b = s.sq a b := rfl
@[simp] theorem setCs_cq (c : Nat) (v : CsSt) (s : State) (a b : Nat) : (setCs c v s).cq a b = s.cq a b := rfl
@[simp] theorem setCs_dc (c : Nat) (v : CsSt) (s : State) (k : Nat) : (setCs c v s).dc k = s.dc k := rfl
@[simp] theorem setCs_tile (c : Nat) (v : CsSt) (s : State) (k : Nat) : (setCs c v s).tile k = s.tile k := rfl
@[simp] theorem setCs_slot (c : Nat) (v : CsSt) (s : State) (k : Nat) : (setCs c v s).slot k = s.slot k := rfl
@[simp] theorem setCs_rbg (c : Nat) (v : CsSt) (s : State) (k : Nat) : (setCs c v s).rbg k = s.rbg k := rfl
@[simp] theorem setCs_stream (c : Nat) (v : CsSt) (s : State) (k : Nat) : (setCs c v s).stream k = s.stream k := rfl
@[simp] theorem setCs_cacheEnt (c : Nat) (v : CsSt) (s : State) (k : Nat) : (setCs c v s).cacheEnt k = s.cacheEnt k := rfl
@[simp] theorem setCs_peer (c : Nat) (v : CsSt) (s : State) (k : Nat) : (setCs c v s).peer k = s.peer k := rfl
@[simp] theorem setCs_tcmp (c : Nat) (v : CsSt) (s : State) (k : Nat) : (setCs c v s).tcmp k = s.tcmp k := rfl
@[simp] theorem setCs_req (c : Nat) (v : CsSt) (s : State) (k : Nat) : (setCs c v s).req k = s.req k := rfl

@[simp] theorem modKs_start (f : KeyStore → KeyStore) (s : State) : (modKs f s).start = s.start := rfl
@[simp] theorem modKs_roots (f : KeyStore → KeyStore) (s : State) : (modKs f s).roots = s.roots := rfl
@[simp] theorem modKs_ident (f : KeyStore → KeyStore) (s : State) : (modKs f s).ident = s.ident := rfl
@[simp] theorem modKs_owner (f : KeyStore → KeyStore) (s : State) : (modKs f s).owner = s.owner := rfl
@[simp] theorem modKs_denied (f : KeyStore → KeyStore) (s : State) : (modKs f s).denied = s.denied := rfl
@[simp] theorem modKs_own (f : KeyStore → KeyStore) (s : State) : (modKs f s).own = s.own := rfl
@[simp] theorem modKs_gen (f : KeyStore → KeyStore) (s : State) : (modKs f s).gen = s.gen := rfl
@[simp] theorem modKs_tens (f : KeyStore → KeyStore) (s : State) : (modKs f s).tens = s.tens := rfl
@[simp] theorem modKs_sqs (f : KeyStore → KeyStore) (s : State) : (modKs f s).sqs = s.sqs := rfl
@[simp] theorem modKs_cqs (f : KeyStore → KeyStore) (s : State) : (modKs f s).cqs = s.cqs := rfl
@[simp] theorem modKs_sch (f : KeyStore → KeyStore) (s : State) : (modKs f s).sch = s.sch := rfl
@[simp] theorem modKs_reqs (f : KeyStore → KeyStore) (s : State) : (modKs f s).reqs = s.reqs := rfl
@[simp] theorem modKs_sent (f : KeyStore → KeyStore) (s : State) : (modKs f s).sent = s.sent := rfl
@[simp] theorem modKs_tiles (f : KeyStore → KeyStore) (s : State) : (modKs f s).tiles = s.tiles := rfl
@[simp] theorem modKs_css (f : KeyStore → KeyStore) (s : State) : (modKs f s).css = s.css := rfl
@[simp] theorem modKs_ces (f : KeyStore → KeyStore) (s : State) : (modKs f s).ces = s.ces := rfl
@[simp] theorem modKs_streams (f : KeyStore → KeyStore) (s : State) : (modKs f s).streams = s.streams := rfl
@[simp] theorem modKs_meas (f : KeyStore → KeyStore) (s : State) : (modKs f s).meas = s.meas := rfl
@[simp] theorem modKs_es (f : KeyStore → KeyStore) (s : State) : (modKs f s).es = s.es := rfl
@[simp] theorem modKs_rbgs (f : KeyStore → KeyStore) (s : State) : (modKs f s).rbgs = s.rbgs := rfl
@[simp] theorem modKs_dcs (f : KeyStore → KeyStore) (s : State) : (modKs f s).dcs = s.dcs := rfl
@[simp] theorem modKs_fp (f : KeyStore → KeyStore) (s : State) : (modKs f s).fp = s.fp := rfl
@[simp] theorem modKs_time (f : KeyStore → KeyStore) (s : State) : (modKs f s).time = s.time := rfl
@[simp] theorem modKs_clk (f : KeyStore → KeyStore) (s : State) : (modKs f s).clk = s.clk := rfl
@[simp] theorem modKs_sup (f : KeyStore → KeyStore) (s : State) : (modKs f s).sup = s.sup := rfl
@[simp] theorem modKs_ret (f : KeyStore → KeyStore) (s : State) : (modKs f s).ret = s.ret := rfl
@[simp] theorem modKs_jrn (f : KeyStore → KeyStore) (s : State) : (modKs f s).jrn = s.jrn := rfl
@[simp] theorem modKs_evPend (f : KeyStore → KeyStore) (s : State) : (modKs f s).evPend = s.evPend := rfl
@[simp] theorem modKs_buserr (f : KeyStore → KeyStore) (s : State) : (modKs f s).buserr = s.buserr := rfl
@[simp] theorem modKs_becnt (f : KeyStore → KeyStore) (s : State) : (modKs f s).becnt = s.becnt := rfl
@[simp] theorem modKs_pviol (f : KeyStore → KeyStore) (s : State) : (modKs f s).pviol = s.pviol := rfl
@[simp] theorem modKs_pvcnt (f : KeyStore → KeyStore) (s : State) : (modKs f s).pvcnt = s.pvcnt := rfl
@[simp] theorem modKs_crs (f : KeyStore → KeyStore) (s : State) : (modKs f s).crs = s.crs := rfl
@[simp] theorem modKs_boot (f : KeyStore → KeyStore) (s : State) : (modKs f s).boot = s.boot := rfl
@[simp] theorem modKs_heldWr (f : KeyStore → KeyStore) (s : State) : (modKs f s).heldWr = s.heldWr := rfl
@[simp] theorem modKs_latch (f : KeyStore → KeyStore) (s : State) : (modKs f s).latch = s.latch := rfl
@[simp] theorem modKs_out (f : KeyStore → KeyStore) (s : State) : (modKs f s).out = s.out := rfl
@[simp] theorem modKs_free (f : KeyStore → KeyStore) (s : State) : (modKs f s).free = s.free := rfl
@[simp] theorem modKs_pending (f : KeyStore → KeyStore) (s : State) : (modKs f s).pending = s.pending := rfl
theorem modKs_ks (f : KeyStore → KeyStore) (s : State) : (modKs f s).ks = f s.ks := rfl
@[simp] theorem modKs_ten (f : KeyStore → KeyStore) (s : State) (k : Nat) : (modKs f s).ten k = s.ten k := rfl
@[simp] theorem modKs_sq (f : KeyStore → KeyStore) (s : State) (a b : Nat) : (modKs f s).sq a b = s.sq a b := rfl
@[simp] theorem modKs_cq (f : KeyStore → KeyStore) (s : State) (a b : Nat) : (modKs f s).cq a b = s.cq a b := rfl
@[simp] theorem modKs_dc (f : KeyStore → KeyStore) (s : State) (k : Nat) : (modKs f s).dc k = s.dc k := rfl
@[simp] theorem modKs_tile (f : KeyStore → KeyStore) (s : State) (k : Nat) : (modKs f s).tile k = s.tile k := rfl
@[simp] theorem modKs_csSt (f : KeyStore → KeyStore) (s : State) (k : Nat) : (modKs f s).csSt k = s.csSt k := rfl
@[simp] theorem modKs_rbg (f : KeyStore → KeyStore) (s : State) (k : Nat) : (modKs f s).rbg k = s.rbg k := rfl
@[simp] theorem modKs_stream (f : KeyStore → KeyStore) (s : State) (k : Nat) : (modKs f s).stream k = s.stream k := rfl
@[simp] theorem modKs_peer (f : KeyStore → KeyStore) (s : State) (k : Nat) : (modKs f s).peer k = s.peer k := rfl
@[simp] theorem modKs_tcmp (f : KeyStore → KeyStore) (s : State) (k : Nat) : (modKs f s).tcmp k = s.tcmp k := rfl
@[simp] theorem modKs_req (f : KeyStore → KeyStore) (s : State) (k : Nat) : (modKs f s).req k = s.req k := rfl

@[simp] theorem modSlot_start (i : Nat) (f : Slot → Slot) (s : State) : (modSlot i f s).start = s.start := rfl
@[simp] theorem modSlot_roots (i : Nat) (f : Slot → Slot) (s : State) : (modSlot i f s).roots = s.roots := rfl
@[simp] theorem modSlot_ident (i : Nat) (f : Slot → Slot) (s : State) : (modSlot i f s).ident = s.ident := rfl
@[simp] theorem modSlot_owner (i : Nat) (f : Slot → Slot) (s : State) : (modSlot i f s).owner = s.owner := rfl
@[simp] theorem modSlot_denied (i : Nat) (f : Slot → Slot) (s : State) : (modSlot i f s).denied = s.denied := rfl
@[simp] theorem modSlot_own (i : Nat) (f : Slot → Slot) (s : State) : (modSlot i f s).own = s.own := rfl
@[simp] theorem modSlot_gen (i : Nat) (f : Slot → Slot) (s : State) : (modSlot i f s).gen = s.gen := rfl
@[simp] theorem modSlot_tens (i : Nat) (f : Slot → Slot) (s : State) : (modSlot i f s).tens = s.tens := rfl
@[simp] theorem modSlot_sqs (i : Nat) (f : Slot → Slot) (s : State) : (modSlot i f s).sqs = s.sqs := rfl
@[simp] theorem modSlot_cqs (i : Nat) (f : Slot → Slot) (s : State) : (modSlot i f s).cqs = s.cqs := rfl
@[simp] theorem modSlot_sch (i : Nat) (f : Slot → Slot) (s : State) : (modSlot i f s).sch = s.sch := rfl
@[simp] theorem modSlot_reqs (i : Nat) (f : Slot → Slot) (s : State) : (modSlot i f s).reqs = s.reqs := rfl
@[simp] theorem modSlot_sent (i : Nat) (f : Slot → Slot) (s : State) : (modSlot i f s).sent = s.sent := rfl
@[simp] theorem modSlot_tiles (i : Nat) (f : Slot → Slot) (s : State) : (modSlot i f s).tiles = s.tiles := rfl
@[simp] theorem modSlot_css (i : Nat) (f : Slot → Slot) (s : State) : (modSlot i f s).css = s.css := rfl
@[simp] theorem modSlot_ces (i : Nat) (f : Slot → Slot) (s : State) : (modSlot i f s).ces = s.ces := rfl
@[simp] theorem modSlot_streams (i : Nat) (f : Slot → Slot) (s : State) : (modSlot i f s).streams = s.streams := rfl
@[simp] theorem modSlot_meas (i : Nat) (f : Slot → Slot) (s : State) : (modSlot i f s).meas = s.meas := rfl
@[simp] theorem modSlot_es (i : Nat) (f : Slot → Slot) (s : State) : (modSlot i f s).es = s.es := rfl
@[simp] theorem modSlot_rbgs (i : Nat) (f : Slot → Slot) (s : State) : (modSlot i f s).rbgs = s.rbgs := rfl
@[simp] theorem modSlot_dcs (i : Nat) (f : Slot → Slot) (s : State) : (modSlot i f s).dcs = s.dcs := rfl
@[simp] theorem modSlot_fp (i : Nat) (f : Slot → Slot) (s : State) : (modSlot i f s).fp = s.fp := rfl
@[simp] theorem modSlot_time (i : Nat) (f : Slot → Slot) (s : State) : (modSlot i f s).time = s.time := rfl
@[simp] theorem modSlot_clk (i : Nat) (f : Slot → Slot) (s : State) : (modSlot i f s).clk = s.clk := rfl
@[simp] theorem modSlot_sup (i : Nat) (f : Slot → Slot) (s : State) : (modSlot i f s).sup = s.sup := rfl
@[simp] theorem modSlot_ret (i : Nat) (f : Slot → Slot) (s : State) : (modSlot i f s).ret = s.ret := rfl
@[simp] theorem modSlot_jrn (i : Nat) (f : Slot → Slot) (s : State) : (modSlot i f s).jrn = s.jrn := rfl
@[simp] theorem modSlot_evPend (i : Nat) (f : Slot → Slot) (s : State) : (modSlot i f s).evPend = s.evPend := rfl
@[simp] theorem modSlot_buserr (i : Nat) (f : Slot → Slot) (s : State) : (modSlot i f s).buserr = s.buserr := rfl
@[simp] theorem modSlot_becnt (i : Nat) (f : Slot → Slot) (s : State) : (modSlot i f s).becnt = s.becnt := rfl
@[simp] theorem modSlot_pviol (i : Nat) (f : Slot → Slot) (s : State) : (modSlot i f s).pviol = s.pviol := rfl
@[simp] theorem modSlot_pvcnt (i : Nat) (f : Slot → Slot) (s : State) : (modSlot i f s).pvcnt = s.pvcnt := rfl
@[simp] theorem modSlot_crs (i : Nat) (f : Slot → Slot) (s : State) : (modSlot i f s).crs = s.crs := rfl
@[simp] theorem modSlot_boot (i : Nat) (f : Slot → Slot) (s : State) : (modSlot i f s).boot = s.boot := rfl
@[simp] theorem modSlot_heldWr (i : Nat) (f : Slot → Slot) (s : State) : (modSlot i f s).heldWr = s.heldWr := rfl
@[simp] theorem modSlot_latch (i : Nat) (f : Slot → Slot) (s : State) : (modSlot i f s).latch = s.latch := rfl
@[simp] theorem modSlot_out (i : Nat) (f : Slot → Slot) (s : State) : (modSlot i f s).out = s.out := rfl
@[simp] theorem modSlot_free (i : Nat) (f : Slot → Slot) (s : State) : (modSlot i f s).free = s.free := rfl
@[simp] theorem modSlot_pending (i : Nat) (f : Slot → Slot) (s : State) : (modSlot i f s).pending = s.pending := rfl
@[simp] theorem modSlot_ten (i : Nat) (f : Slot → Slot) (s : State) (k : Nat) : (modSlot i f s).ten k = s.ten k := rfl
@[simp] theorem modSlot_sq (i : Nat) (f : Slot → Slot) (s : State) (a b : Nat) : (modSlot i f s).sq a b = s.sq a b := rfl
@[simp] theorem modSlot_cq (i : Nat) (f : Slot → Slot) (s : State) (a b : Nat) : (modSlot i f s).cq a b = s.cq a b := rfl
@[simp] theorem modSlot_dc (i : Nat) (f : Slot → Slot) (s : State) (k : Nat) : (modSlot i f s).dc k = s.dc k := rfl
@[simp] theorem modSlot_tile (i : Nat) (f : Slot → Slot) (s : State) (k : Nat) : (modSlot i f s).tile k = s.tile k := rfl
@[simp] theorem modSlot_csSt (i : Nat) (f : Slot → Slot) (s : State) (k : Nat) : (modSlot i f s).csSt k = s.csSt k := rfl
@[simp] theorem modSlot_rbg (i : Nat) (f : Slot → Slot) (s : State) (k : Nat) : (modSlot i f s).rbg k = s.rbg k := rfl
@[simp] theorem modSlot_stream (i : Nat) (f : Slot → Slot) (s : State) (k : Nat) : (modSlot i f s).stream k = s.stream k := rfl
@[simp] theorem modSlot_peer (i : Nat) (f : Slot → Slot) (s : State) (k : Nat) : (modSlot i f s).peer k = s.peer k := rfl
@[simp] theorem modSlot_tcmp (i : Nat) (f : Slot → Slot) (s : State) (k : Nat) : (modSlot i f s).tcmp k = s.tcmp k := rfl
@[simp] theorem modSlot_req (i : Nat) (f : Slot → Slot) (s : State) (k : Nat) : (modSlot i f s).req k = s.req k := rfl

@[simp] theorem modRbg_start (k : Nat) (f : Rbg → Rbg) (s : State) : (modRbg k f s).start = s.start := rfl
@[simp] theorem modRbg_roots (k : Nat) (f : Rbg → Rbg) (s : State) : (modRbg k f s).roots = s.roots := rfl
@[simp] theorem modRbg_ident (k : Nat) (f : Rbg → Rbg) (s : State) : (modRbg k f s).ident = s.ident := rfl
@[simp] theorem modRbg_owner (k : Nat) (f : Rbg → Rbg) (s : State) : (modRbg k f s).owner = s.owner := rfl
@[simp] theorem modRbg_denied (k : Nat) (f : Rbg → Rbg) (s : State) : (modRbg k f s).denied = s.denied := rfl
@[simp] theorem modRbg_own (k : Nat) (f : Rbg → Rbg) (s : State) : (modRbg k f s).own = s.own := rfl
@[simp] theorem modRbg_gen (k : Nat) (f : Rbg → Rbg) (s : State) : (modRbg k f s).gen = s.gen := rfl
@[simp] theorem modRbg_tens (k : Nat) (f : Rbg → Rbg) (s : State) : (modRbg k f s).tens = s.tens := rfl
@[simp] theorem modRbg_sqs (k : Nat) (f : Rbg → Rbg) (s : State) : (modRbg k f s).sqs = s.sqs := rfl
@[simp] theorem modRbg_cqs (k : Nat) (f : Rbg → Rbg) (s : State) : (modRbg k f s).cqs = s.cqs := rfl
@[simp] theorem modRbg_sch (k : Nat) (f : Rbg → Rbg) (s : State) : (modRbg k f s).sch = s.sch := rfl
@[simp] theorem modRbg_reqs (k : Nat) (f : Rbg → Rbg) (s : State) : (modRbg k f s).reqs = s.reqs := rfl
@[simp] theorem modRbg_sent (k : Nat) (f : Rbg → Rbg) (s : State) : (modRbg k f s).sent = s.sent := rfl
@[simp] theorem modRbg_tiles (k : Nat) (f : Rbg → Rbg) (s : State) : (modRbg k f s).tiles = s.tiles := rfl
@[simp] theorem modRbg_css (k : Nat) (f : Rbg → Rbg) (s : State) : (modRbg k f s).css = s.css := rfl
@[simp] theorem modRbg_ces (k : Nat) (f : Rbg → Rbg) (s : State) : (modRbg k f s).ces = s.ces := rfl
@[simp] theorem modRbg_streams (k : Nat) (f : Rbg → Rbg) (s : State) : (modRbg k f s).streams = s.streams := rfl
@[simp] theorem modRbg_ks (k : Nat) (f : Rbg → Rbg) (s : State) : (modRbg k f s).ks = s.ks := rfl
@[simp] theorem modRbg_meas (k : Nat) (f : Rbg → Rbg) (s : State) : (modRbg k f s).meas = s.meas := rfl
@[simp] theorem modRbg_es (k : Nat) (f : Rbg → Rbg) (s : State) : (modRbg k f s).es = s.es := rfl
@[simp] theorem modRbg_dcs (k : Nat) (f : Rbg → Rbg) (s : State) : (modRbg k f s).dcs = s.dcs := rfl
@[simp] theorem modRbg_fp (k : Nat) (f : Rbg → Rbg) (s : State) : (modRbg k f s).fp = s.fp := rfl
@[simp] theorem modRbg_time (k : Nat) (f : Rbg → Rbg) (s : State) : (modRbg k f s).time = s.time := rfl
@[simp] theorem modRbg_clk (k : Nat) (f : Rbg → Rbg) (s : State) : (modRbg k f s).clk = s.clk := rfl
@[simp] theorem modRbg_sup (k : Nat) (f : Rbg → Rbg) (s : State) : (modRbg k f s).sup = s.sup := rfl
@[simp] theorem modRbg_ret (k : Nat) (f : Rbg → Rbg) (s : State) : (modRbg k f s).ret = s.ret := rfl
@[simp] theorem modRbg_jrn (k : Nat) (f : Rbg → Rbg) (s : State) : (modRbg k f s).jrn = s.jrn := rfl
@[simp] theorem modRbg_evPend (k : Nat) (f : Rbg → Rbg) (s : State) : (modRbg k f s).evPend = s.evPend := rfl
@[simp] theorem modRbg_buserr (k : Nat) (f : Rbg → Rbg) (s : State) : (modRbg k f s).buserr = s.buserr := rfl
@[simp] theorem modRbg_becnt (k : Nat) (f : Rbg → Rbg) (s : State) : (modRbg k f s).becnt = s.becnt := rfl
@[simp] theorem modRbg_pviol (k : Nat) (f : Rbg → Rbg) (s : State) : (modRbg k f s).pviol = s.pviol := rfl
@[simp] theorem modRbg_pvcnt (k : Nat) (f : Rbg → Rbg) (s : State) : (modRbg k f s).pvcnt = s.pvcnt := rfl
@[simp] theorem modRbg_crs (k : Nat) (f : Rbg → Rbg) (s : State) : (modRbg k f s).crs = s.crs := rfl
@[simp] theorem modRbg_boot (k : Nat) (f : Rbg → Rbg) (s : State) : (modRbg k f s).boot = s.boot := rfl
@[simp] theorem modRbg_heldWr (k : Nat) (f : Rbg → Rbg) (s : State) : (modRbg k f s).heldWr = s.heldWr := rfl
@[simp] theorem modRbg_latch (k : Nat) (f : Rbg → Rbg) (s : State) : (modRbg k f s).latch = s.latch := rfl
@[simp] theorem modRbg_out (k : Nat) (f : Rbg → Rbg) (s : State) : (modRbg k f s).out = s.out := rfl
@[simp] theorem modRbg_free (k : Nat) (f : Rbg → Rbg) (s : State) : (modRbg k f s).free = s.free := rfl
@[simp] theorem modRbg_pending (k : Nat) (f : Rbg → Rbg) (s : State) : (modRbg k f s).pending = s.pending := rfl
theorem modRbg_rbgs (k : Nat) (f : Rbg → Rbg) (s : State) : (modRbg k f s).rbgs = s.rbgs.put {} k (f (s.rbg k)) := rfl
@[simp] theorem modRbg_ten (k : Nat) (f : Rbg → Rbg) (s : State) (j : Nat) : (modRbg k f s).ten j = s.ten j := rfl
@[simp] theorem modRbg_sq (k : Nat) (f : Rbg → Rbg) (s : State) (a b : Nat) : (modRbg k f s).sq a b = s.sq a b := rfl
@[simp] theorem modRbg_cq (k : Nat) (f : Rbg → Rbg) (s : State) (a b : Nat) : (modRbg k f s).cq a b = s.cq a b := rfl
@[simp] theorem modRbg_dc (k : Nat) (f : Rbg → Rbg) (s : State) (j : Nat) : (modRbg k f s).dc j = s.dc j := rfl
@[simp] theorem modRbg_tile (k : Nat) (f : Rbg → Rbg) (s : State) (j : Nat) : (modRbg k f s).tile j = s.tile j := rfl
@[simp] theorem modRbg_csSt (k : Nat) (f : Rbg → Rbg) (s : State) (j : Nat) : (modRbg k f s).csSt j = s.csSt j := rfl
@[simp] theorem modRbg_slot (k : Nat) (f : Rbg → Rbg) (s : State) (j : Nat) : (modRbg k f s).slot j = s.slot j := rfl
@[simp] theorem modRbg_stream (k : Nat) (f : Rbg → Rbg) (s : State) (j : Nat) : (modRbg k f s).stream j = s.stream j := rfl
@[simp] theorem modRbg_cacheEnt (k : Nat) (f : Rbg → Rbg) (s : State) (j : Nat) : (modRbg k f s).cacheEnt j = s.cacheEnt j := rfl
@[simp] theorem modRbg_peer (k : Nat) (f : Rbg → Rbg) (s : State) (j : Nat) : (modRbg k f s).peer j = s.peer j := rfl
@[simp] theorem modRbg_tcmp (k : Nat) (f : Rbg → Rbg) (s : State) (j : Nat) : (modRbg k f s).tcmp j = s.tcmp j := rfl
@[simp] theorem modRbg_req (k : Nat) (f : Rbg → Rbg) (s : State) (j : Nat) : (modRbg k f s).req j = s.req j := rfl

@[simp] theorem setStream_start (i : Nat) (v : Option Stream) (s : State) : (setStream i v s).start = s.start := rfl
@[simp] theorem setStream_roots (i : Nat) (v : Option Stream) (s : State) : (setStream i v s).roots = s.roots := rfl
@[simp] theorem setStream_ident (i : Nat) (v : Option Stream) (s : State) : (setStream i v s).ident = s.ident := rfl
@[simp] theorem setStream_owner (i : Nat) (v : Option Stream) (s : State) : (setStream i v s).owner = s.owner := rfl
@[simp] theorem setStream_denied (i : Nat) (v : Option Stream) (s : State) : (setStream i v s).denied = s.denied := rfl
@[simp] theorem setStream_own (i : Nat) (v : Option Stream) (s : State) : (setStream i v s).own = s.own := rfl
@[simp] theorem setStream_gen (i : Nat) (v : Option Stream) (s : State) : (setStream i v s).gen = s.gen := rfl
@[simp] theorem setStream_tens (i : Nat) (v : Option Stream) (s : State) : (setStream i v s).tens = s.tens := rfl
@[simp] theorem setStream_sqs (i : Nat) (v : Option Stream) (s : State) : (setStream i v s).sqs = s.sqs := rfl
@[simp] theorem setStream_cqs (i : Nat) (v : Option Stream) (s : State) : (setStream i v s).cqs = s.cqs := rfl
@[simp] theorem setStream_sch (i : Nat) (v : Option Stream) (s : State) : (setStream i v s).sch = s.sch := rfl
@[simp] theorem setStream_reqs (i : Nat) (v : Option Stream) (s : State) : (setStream i v s).reqs = s.reqs := rfl
@[simp] theorem setStream_sent (i : Nat) (v : Option Stream) (s : State) : (setStream i v s).sent = s.sent := rfl
@[simp] theorem setStream_tiles (i : Nat) (v : Option Stream) (s : State) : (setStream i v s).tiles = s.tiles := rfl
@[simp] theorem setStream_css (i : Nat) (v : Option Stream) (s : State) : (setStream i v s).css = s.css := rfl
@[simp] theorem setStream_ces (i : Nat) (v : Option Stream) (s : State) : (setStream i v s).ces = s.ces := rfl
@[simp] theorem setStream_ks (i : Nat) (v : Option Stream) (s : State) : (setStream i v s).ks = s.ks := rfl
@[simp] theorem setStream_meas (i : Nat) (v : Option Stream) (s : State) : (setStream i v s).meas = s.meas := rfl
@[simp] theorem setStream_es (i : Nat) (v : Option Stream) (s : State) : (setStream i v s).es = s.es := rfl
@[simp] theorem setStream_rbgs (i : Nat) (v : Option Stream) (s : State) : (setStream i v s).rbgs = s.rbgs := rfl
@[simp] theorem setStream_dcs (i : Nat) (v : Option Stream) (s : State) : (setStream i v s).dcs = s.dcs := rfl
@[simp] theorem setStream_fp (i : Nat) (v : Option Stream) (s : State) : (setStream i v s).fp = s.fp := rfl
@[simp] theorem setStream_time (i : Nat) (v : Option Stream) (s : State) : (setStream i v s).time = s.time := rfl
@[simp] theorem setStream_clk (i : Nat) (v : Option Stream) (s : State) : (setStream i v s).clk = s.clk := rfl
@[simp] theorem setStream_sup (i : Nat) (v : Option Stream) (s : State) : (setStream i v s).sup = s.sup := rfl
@[simp] theorem setStream_ret (i : Nat) (v : Option Stream) (s : State) : (setStream i v s).ret = s.ret := rfl
@[simp] theorem setStream_jrn (i : Nat) (v : Option Stream) (s : State) : (setStream i v s).jrn = s.jrn := rfl
@[simp] theorem setStream_evPend (i : Nat) (v : Option Stream) (s : State) : (setStream i v s).evPend = s.evPend := rfl
@[simp] theorem setStream_buserr (i : Nat) (v : Option Stream) (s : State) : (setStream i v s).buserr = s.buserr := rfl
@[simp] theorem setStream_becnt (i : Nat) (v : Option Stream) (s : State) : (setStream i v s).becnt = s.becnt := rfl
@[simp] theorem setStream_pviol (i : Nat) (v : Option Stream) (s : State) : (setStream i v s).pviol = s.pviol := rfl
@[simp] theorem setStream_pvcnt (i : Nat) (v : Option Stream) (s : State) : (setStream i v s).pvcnt = s.pvcnt := rfl
@[simp] theorem setStream_crs (i : Nat) (v : Option Stream) (s : State) : (setStream i v s).crs = s.crs := rfl
@[simp] theorem setStream_boot (i : Nat) (v : Option Stream) (s : State) : (setStream i v s).boot = s.boot := rfl
@[simp] theorem setStream_heldWr (i : Nat) (v : Option Stream) (s : State) : (setStream i v s).heldWr = s.heldWr := rfl
@[simp] theorem setStream_latch (i : Nat) (v : Option Stream) (s : State) : (setStream i v s).latch = s.latch := rfl
@[simp] theorem setStream_out (i : Nat) (v : Option Stream) (s : State) : (setStream i v s).out = s.out := rfl
@[simp] theorem setStream_free (i : Nat) (v : Option Stream) (s : State) : (setStream i v s).free = s.free := rfl
@[simp] theorem setStream_pending (i : Nat) (v : Option Stream) (s : State) : (setStream i v s).pending = s.pending := rfl
theorem setStream_streams (i : Nat) (v : Option Stream) (s : State) : (setStream i v s).streams = s.streams.put none i v := rfl
@[simp] theorem setStream_ten (i : Nat) (v : Option Stream) (s : State) (k : Nat) : (setStream i v s).ten k = s.ten k := rfl
@[simp] theorem setStream_sq (i : Nat) (v : Option Stream) (s : State) (a b : Nat) : (setStream i v s).sq a b = s.sq a b := rfl
@[simp] theorem setStream_cq (i : Nat) (v : Option Stream) (s : State) (a b : Nat) : (setStream i v s).cq a b = s.cq a b := rfl
@[simp] theorem setStream_dc (i : Nat) (v : Option Stream) (s : State) (k : Nat) : (setStream i v s).dc k = s.dc k := rfl
@[simp] theorem setStream_tile (i : Nat) (v : Option Stream) (s : State) (k : Nat) : (setStream i v s).tile k = s.tile k := rfl
@[simp] theorem setStream_csSt (i : Nat) (v : Option Stream) (s : State) (k : Nat) : (setStream i v s).csSt k = s.csSt k := rfl
@[simp] theorem setStream_slot (i : Nat) (v : Option Stream) (s : State) (k : Nat) : (setStream i v s).slot k = s.slot k := rfl
@[simp] theorem setStream_rbg (i : Nat) (v : Option Stream) (s : State) (k : Nat) : (setStream i v s).rbg k = s.rbg k := rfl
@[simp] theorem setStream_cacheEnt (i : Nat) (v : Option Stream) (s : State) (k : Nat) : (setStream i v s).cacheEnt k = s.cacheEnt k := rfl
@[simp] theorem setStream_peer (i : Nat) (v : Option Stream) (s : State) (k : Nat) : (setStream i v s).peer k = s.peer k := rfl
@[simp] theorem setStream_tcmp (i : Nat) (v : Option Stream) (s : State) (k : Nat) : (setStream i v s).tcmp k = s.tcmp k := rfl
@[simp] theorem setStream_req (i : Nat) (v : Option Stream) (s : State) (k : Nat) : (setStream i v s).req k = s.req k := rfl

@[simp] theorem setCacheEnt_start (h : Nat) (v : Option CacheEnt) (s : State) : (setCacheEnt h v s).start = s.start := rfl
@[simp] theorem setCacheEnt_roots (h : Nat) (v : Option CacheEnt) (s : State) : (setCacheEnt h v s).roots = s.roots := rfl
@[simp] theorem setCacheEnt_ident (h : Nat) (v : Option CacheEnt) (s : State) : (setCacheEnt h v s).ident = s.ident := rfl
@[simp] theorem setCacheEnt_owner (h : Nat) (v : Option CacheEnt) (s : State) : (setCacheEnt h v s).owner = s.owner := rfl
@[simp] theorem setCacheEnt_denied (h : Nat) (v : Option CacheEnt) (s : State) : (setCacheEnt h v s).denied = s.denied := rfl
@[simp] theorem setCacheEnt_own (h : Nat) (v : Option CacheEnt) (s : State) : (setCacheEnt h v s).own = s.own := rfl
@[simp] theorem setCacheEnt_gen (h : Nat) (v : Option CacheEnt) (s : State) : (setCacheEnt h v s).gen = s.gen := rfl
@[simp] theorem setCacheEnt_tens (h : Nat) (v : Option CacheEnt) (s : State) : (setCacheEnt h v s).tens = s.tens := rfl
@[simp] theorem setCacheEnt_sqs (h : Nat) (v : Option CacheEnt) (s : State) : (setCacheEnt h v s).sqs = s.sqs := rfl
@[simp] theorem setCacheEnt_cqs (h : Nat) (v : Option CacheEnt) (s : State) : (setCacheEnt h v s).cqs = s.cqs := rfl
@[simp] theorem setCacheEnt_sch (h : Nat) (v : Option CacheEnt) (s : State) : (setCacheEnt h v s).sch = s.sch := rfl
@[simp] theorem setCacheEnt_reqs (h : Nat) (v : Option CacheEnt) (s : State) : (setCacheEnt h v s).reqs = s.reqs := rfl
@[simp] theorem setCacheEnt_sent (h : Nat) (v : Option CacheEnt) (s : State) : (setCacheEnt h v s).sent = s.sent := rfl
@[simp] theorem setCacheEnt_tiles (h : Nat) (v : Option CacheEnt) (s : State) : (setCacheEnt h v s).tiles = s.tiles := rfl
@[simp] theorem setCacheEnt_css (h : Nat) (v : Option CacheEnt) (s : State) : (setCacheEnt h v s).css = s.css := rfl
@[simp] theorem setCacheEnt_ces (h : Nat) (v : Option CacheEnt) (s : State) : (setCacheEnt h v s).ces = s.ces := rfl
@[simp] theorem setCacheEnt_streams (h : Nat) (v : Option CacheEnt) (s : State) : (setCacheEnt h v s).streams = s.streams := rfl
@[simp] theorem setCacheEnt_meas (h : Nat) (v : Option CacheEnt) (s : State) : (setCacheEnt h v s).meas = s.meas := rfl
@[simp] theorem setCacheEnt_es (h : Nat) (v : Option CacheEnt) (s : State) : (setCacheEnt h v s).es = s.es := rfl
@[simp] theorem setCacheEnt_rbgs (h : Nat) (v : Option CacheEnt) (s : State) : (setCacheEnt h v s).rbgs = s.rbgs := rfl
@[simp] theorem setCacheEnt_dcs (h : Nat) (v : Option CacheEnt) (s : State) : (setCacheEnt h v s).dcs = s.dcs := rfl
@[simp] theorem setCacheEnt_fp (h : Nat) (v : Option CacheEnt) (s : State) : (setCacheEnt h v s).fp = s.fp := rfl
@[simp] theorem setCacheEnt_time (h : Nat) (v : Option CacheEnt) (s : State) : (setCacheEnt h v s).time = s.time := rfl
@[simp] theorem setCacheEnt_clk (h : Nat) (v : Option CacheEnt) (s : State) : (setCacheEnt h v s).clk = s.clk := rfl
@[simp] theorem setCacheEnt_sup (h : Nat) (v : Option CacheEnt) (s : State) : (setCacheEnt h v s).sup = s.sup := rfl
@[simp] theorem setCacheEnt_ret (h : Nat) (v : Option CacheEnt) (s : State) : (setCacheEnt h v s).ret = s.ret := rfl
@[simp] theorem setCacheEnt_jrn (h : Nat) (v : Option CacheEnt) (s : State) : (setCacheEnt h v s).jrn = s.jrn := rfl
@[simp] theorem setCacheEnt_evPend (h : Nat) (v : Option CacheEnt) (s : State) : (setCacheEnt h v s).evPend = s.evPend := rfl
@[simp] theorem setCacheEnt_buserr (h : Nat) (v : Option CacheEnt) (s : State) : (setCacheEnt h v s).buserr = s.buserr := rfl
@[simp] theorem setCacheEnt_becnt (h : Nat) (v : Option CacheEnt) (s : State) : (setCacheEnt h v s).becnt = s.becnt := rfl
@[simp] theorem setCacheEnt_pviol (h : Nat) (v : Option CacheEnt) (s : State) : (setCacheEnt h v s).pviol = s.pviol := rfl
@[simp] theorem setCacheEnt_pvcnt (h : Nat) (v : Option CacheEnt) (s : State) : (setCacheEnt h v s).pvcnt = s.pvcnt := rfl
@[simp] theorem setCacheEnt_crs (h : Nat) (v : Option CacheEnt) (s : State) : (setCacheEnt h v s).crs = s.crs := rfl
@[simp] theorem setCacheEnt_boot (h : Nat) (v : Option CacheEnt) (s : State) : (setCacheEnt h v s).boot = s.boot := rfl
@[simp] theorem setCacheEnt_heldWr (h : Nat) (v : Option CacheEnt) (s : State) : (setCacheEnt h v s).heldWr = s.heldWr := rfl
@[simp] theorem setCacheEnt_latch (h : Nat) (v : Option CacheEnt) (s : State) : (setCacheEnt h v s).latch = s.latch := rfl
@[simp] theorem setCacheEnt_out (h : Nat) (v : Option CacheEnt) (s : State) : (setCacheEnt h v s).out = s.out := rfl
@[simp] theorem setCacheEnt_free (h : Nat) (v : Option CacheEnt) (s : State) : (setCacheEnt h v s).free = s.free := rfl
@[simp] theorem setCacheEnt_pending (h : Nat) (v : Option CacheEnt) (s : State) : (setCacheEnt h v s).pending = s.pending := rfl
@[simp] theorem setCacheEnt_ten (h : Nat) (v : Option CacheEnt) (s : State) (k : Nat) : (setCacheEnt h v s).ten k = s.ten k := rfl
@[simp] theorem setCacheEnt_sq (h : Nat) (v : Option CacheEnt) (s : State) (a b : Nat) : (setCacheEnt h v s).sq a b = s.sq a b := rfl
@[simp] theorem setCacheEnt_cq (h : Nat) (v : Option CacheEnt) (s : State) (a b : Nat) : (setCacheEnt h v s).cq a b = s.cq a b := rfl
@[simp] theorem setCacheEnt_dc (h : Nat) (v : Option CacheEnt) (s : State) (k : Nat) : (setCacheEnt h v s).dc k = s.dc k := rfl
@[simp] theorem setCacheEnt_tile (h : Nat) (v : Option CacheEnt) (s : State) (k : Nat) : (setCacheEnt h v s).tile k = s.tile k := rfl
@[simp] theorem setCacheEnt_csSt (h : Nat) (v : Option CacheEnt) (s : State) (k : Nat) : (setCacheEnt h v s).csSt k = s.csSt k := rfl
@[simp] theorem setCacheEnt_rbg (h : Nat) (v : Option CacheEnt) (s : State) (k : Nat) : (setCacheEnt h v s).rbg k = s.rbg k := rfl
@[simp] theorem setCacheEnt_stream (h : Nat) (v : Option CacheEnt) (s : State) (k : Nat) : (setCacheEnt h v s).stream k = s.stream k := rfl
@[simp] theorem setCacheEnt_peer (h : Nat) (v : Option CacheEnt) (s : State) (k : Nat) : (setCacheEnt h v s).peer k = s.peer k := rfl
@[simp] theorem setCacheEnt_tcmp (h : Nat) (v : Option CacheEnt) (s : State) (k : Nat) : (setCacheEnt h v s).tcmp k = s.tcmp k := rfl
@[simp] theorem setCacheEnt_req (h : Nat) (v : Option CacheEnt) (s : State) (k : Nat) : (setCacheEnt h v s).req k = s.req k := rfl

@[simp] theorem modCrs_start (f : Course → Course) (s : State) : (modCrs f s).start = s.start := rfl
@[simp] theorem modCrs_roots (f : Course → Course) (s : State) : (modCrs f s).roots = s.roots := rfl
@[simp] theorem modCrs_ident (f : Course → Course) (s : State) : (modCrs f s).ident = s.ident := rfl
@[simp] theorem modCrs_owner (f : Course → Course) (s : State) : (modCrs f s).owner = s.owner := rfl
@[simp] theorem modCrs_denied (f : Course → Course) (s : State) : (modCrs f s).denied = s.denied := rfl
@[simp] theorem modCrs_own (f : Course → Course) (s : State) : (modCrs f s).own = s.own := rfl
@[simp] theorem modCrs_gen (f : Course → Course) (s : State) : (modCrs f s).gen = s.gen := rfl
@[simp] theorem modCrs_tens (f : Course → Course) (s : State) : (modCrs f s).tens = s.tens := rfl
@[simp] theorem modCrs_sqs (f : Course → Course) (s : State) : (modCrs f s).sqs = s.sqs := rfl
@[simp] theorem modCrs_cqs (f : Course → Course) (s : State) : (modCrs f s).cqs = s.cqs := rfl
@[simp] theorem modCrs_sch (f : Course → Course) (s : State) : (modCrs f s).sch = s.sch := rfl
@[simp] theorem modCrs_reqs (f : Course → Course) (s : State) : (modCrs f s).reqs = s.reqs := rfl
@[simp] theorem modCrs_sent (f : Course → Course) (s : State) : (modCrs f s).sent = s.sent := rfl
@[simp] theorem modCrs_tiles (f : Course → Course) (s : State) : (modCrs f s).tiles = s.tiles := rfl
@[simp] theorem modCrs_css (f : Course → Course) (s : State) : (modCrs f s).css = s.css := rfl
@[simp] theorem modCrs_ces (f : Course → Course) (s : State) : (modCrs f s).ces = s.ces := rfl
@[simp] theorem modCrs_streams (f : Course → Course) (s : State) : (modCrs f s).streams = s.streams := rfl
@[simp] theorem modCrs_ks (f : Course → Course) (s : State) : (modCrs f s).ks = s.ks := rfl
@[simp] theorem modCrs_meas (f : Course → Course) (s : State) : (modCrs f s).meas = s.meas := rfl
@[simp] theorem modCrs_es (f : Course → Course) (s : State) : (modCrs f s).es = s.es := rfl
@[simp] theorem modCrs_rbgs (f : Course → Course) (s : State) : (modCrs f s).rbgs = s.rbgs := rfl
@[simp] theorem modCrs_dcs (f : Course → Course) (s : State) : (modCrs f s).dcs = s.dcs := rfl
@[simp] theorem modCrs_fp (f : Course → Course) (s : State) : (modCrs f s).fp = s.fp := rfl
@[simp] theorem modCrs_time (f : Course → Course) (s : State) : (modCrs f s).time = s.time := rfl
@[simp] theorem modCrs_clk (f : Course → Course) (s : State) : (modCrs f s).clk = s.clk := rfl
@[simp] theorem modCrs_sup (f : Course → Course) (s : State) : (modCrs f s).sup = s.sup := rfl
@[simp] theorem modCrs_ret (f : Course → Course) (s : State) : (modCrs f s).ret = s.ret := rfl
@[simp] theorem modCrs_jrn (f : Course → Course) (s : State) : (modCrs f s).jrn = s.jrn := rfl
@[simp] theorem modCrs_evPend (f : Course → Course) (s : State) : (modCrs f s).evPend = s.evPend := rfl
@[simp] theorem modCrs_buserr (f : Course → Course) (s : State) : (modCrs f s).buserr = s.buserr := rfl
@[simp] theorem modCrs_becnt (f : Course → Course) (s : State) : (modCrs f s).becnt = s.becnt := rfl
@[simp] theorem modCrs_pviol (f : Course → Course) (s : State) : (modCrs f s).pviol = s.pviol := rfl
@[simp] theorem modCrs_pvcnt (f : Course → Course) (s : State) : (modCrs f s).pvcnt = s.pvcnt := rfl
@[simp] theorem modCrs_boot (f : Course → Course) (s : State) : (modCrs f s).boot = s.boot := rfl
@[simp] theorem modCrs_heldWr (f : Course → Course) (s : State) : (modCrs f s).heldWr = s.heldWr := rfl
@[simp] theorem modCrs_latch (f : Course → Course) (s : State) : (modCrs f s).latch = s.latch := rfl
@[simp] theorem modCrs_out (f : Course → Course) (s : State) : (modCrs f s).out = s.out := rfl
@[simp] theorem modCrs_free (f : Course → Course) (s : State) : (modCrs f s).free = s.free := rfl
@[simp] theorem modCrs_pending (f : Course → Course) (s : State) : (modCrs f s).pending = s.pending := rfl
theorem modCrs_crs (f : Course → Course) (s : State) : (modCrs f s).crs = f s.crs := rfl
@[simp] theorem modCrs_ten (f : Course → Course) (s : State) (k : Nat) : (modCrs f s).ten k = s.ten k := rfl
@[simp] theorem modCrs_sq (f : Course → Course) (s : State) (a b : Nat) : (modCrs f s).sq a b = s.sq a b := rfl
@[simp] theorem modCrs_cq (f : Course → Course) (s : State) (a b : Nat) : (modCrs f s).cq a b = s.cq a b := rfl
@[simp] theorem modCrs_dc (f : Course → Course) (s : State) (k : Nat) : (modCrs f s).dc k = s.dc k := rfl
@[simp] theorem modCrs_tile (f : Course → Course) (s : State) (k : Nat) : (modCrs f s).tile k = s.tile k := rfl
@[simp] theorem modCrs_csSt (f : Course → Course) (s : State) (k : Nat) : (modCrs f s).csSt k = s.csSt k := rfl
@[simp] theorem modCrs_slot (f : Course → Course) (s : State) (k : Nat) : (modCrs f s).slot k = s.slot k := rfl
@[simp] theorem modCrs_rbg (f : Course → Course) (s : State) (k : Nat) : (modCrs f s).rbg k = s.rbg k := rfl
@[simp] theorem modCrs_stream (f : Course → Course) (s : State) (k : Nat) : (modCrs f s).stream k = s.stream k := rfl
@[simp] theorem modCrs_cacheEnt (f : Course → Course) (s : State) (k : Nat) : (modCrs f s).cacheEnt k = s.cacheEnt k := rfl
@[simp] theorem modCrs_tcmp (f : Course → Course) (s : State) (k : Nat) : (modCrs f s).tcmp k = s.tcmp k := rfl
@[simp] theorem modCrs_req (f : Course → Course) (s : State) (k : Nat) : (modCrs f s).req k = s.req k := rfl

@[simp] theorem modPeer_start (p : Nat) (f : Peer → Peer) (s : State) : (modPeer p f s).start = s.start := rfl
@[simp] theorem modPeer_roots (p : Nat) (f : Peer → Peer) (s : State) : (modPeer p f s).roots = s.roots := rfl
@[simp] theorem modPeer_ident (p : Nat) (f : Peer → Peer) (s : State) : (modPeer p f s).ident = s.ident := rfl
@[simp] theorem modPeer_owner (p : Nat) (f : Peer → Peer) (s : State) : (modPeer p f s).owner = s.owner := rfl
@[simp] theorem modPeer_denied (p : Nat) (f : Peer → Peer) (s : State) : (modPeer p f s).denied = s.denied := rfl
@[simp] theorem modPeer_own (p : Nat) (f : Peer → Peer) (s : State) : (modPeer p f s).own = s.own := rfl
@[simp] theorem modPeer_gen (p : Nat) (f : Peer → Peer) (s : State) : (modPeer p f s).gen = s.gen := rfl
@[simp] theorem modPeer_tens (p : Nat) (f : Peer → Peer) (s : State) : (modPeer p f s).tens = s.tens := rfl
@[simp] theorem modPeer_sqs (p : Nat) (f : Peer → Peer) (s : State) : (modPeer p f s).sqs = s.sqs := rfl
@[simp] theorem modPeer_cqs (p : Nat) (f : Peer → Peer) (s : State) : (modPeer p f s).cqs = s.cqs := rfl
@[simp] theorem modPeer_sch (p : Nat) (f : Peer → Peer) (s : State) : (modPeer p f s).sch = s.sch := rfl
@[simp] theorem modPeer_reqs (p : Nat) (f : Peer → Peer) (s : State) : (modPeer p f s).reqs = s.reqs := rfl
@[simp] theorem modPeer_sent (p : Nat) (f : Peer → Peer) (s : State) : (modPeer p f s).sent = s.sent := rfl
@[simp] theorem modPeer_tiles (p : Nat) (f : Peer → Peer) (s : State) : (modPeer p f s).tiles = s.tiles := rfl
@[simp] theorem modPeer_css (p : Nat) (f : Peer → Peer) (s : State) : (modPeer p f s).css = s.css := rfl
@[simp] theorem modPeer_ces (p : Nat) (f : Peer → Peer) (s : State) : (modPeer p f s).ces = s.ces := rfl
@[simp] theorem modPeer_streams (p : Nat) (f : Peer → Peer) (s : State) : (modPeer p f s).streams = s.streams := rfl
@[simp] theorem modPeer_ks (p : Nat) (f : Peer → Peer) (s : State) : (modPeer p f s).ks = s.ks := rfl
@[simp] theorem modPeer_meas (p : Nat) (f : Peer → Peer) (s : State) : (modPeer p f s).meas = s.meas := rfl
@[simp] theorem modPeer_es (p : Nat) (f : Peer → Peer) (s : State) : (modPeer p f s).es = s.es := rfl
@[simp] theorem modPeer_rbgs (p : Nat) (f : Peer → Peer) (s : State) : (modPeer p f s).rbgs = s.rbgs := rfl
@[simp] theorem modPeer_dcs (p : Nat) (f : Peer → Peer) (s : State) : (modPeer p f s).dcs = s.dcs := rfl
@[simp] theorem modPeer_fp (p : Nat) (f : Peer → Peer) (s : State) : (modPeer p f s).fp = s.fp := rfl
@[simp] theorem modPeer_time (p : Nat) (f : Peer → Peer) (s : State) : (modPeer p f s).time = s.time := rfl
@[simp] theorem modPeer_clk (p : Nat) (f : Peer → Peer) (s : State) : (modPeer p f s).clk = s.clk := rfl
@[simp] theorem modPeer_sup (p : Nat) (f : Peer → Peer) (s : State) : (modPeer p f s).sup = s.sup := rfl
@[simp] theorem modPeer_ret (p : Nat) (f : Peer → Peer) (s : State) : (modPeer p f s).ret = s.ret := rfl
@[simp] theorem modPeer_jrn (p : Nat) (f : Peer → Peer) (s : State) : (modPeer p f s).jrn = s.jrn := rfl
@[simp] theorem modPeer_evPend (p : Nat) (f : Peer → Peer) (s : State) : (modPeer p f s).evPend = s.evPend := rfl
@[simp] theorem modPeer_buserr (p : Nat) (f : Peer → Peer) (s : State) : (modPeer p f s).buserr = s.buserr := rfl
@[simp] theorem modPeer_becnt (p : Nat) (f : Peer → Peer) (s : State) : (modPeer p f s).becnt = s.becnt := rfl
@[simp] theorem modPeer_pviol (p : Nat) (f : Peer → Peer) (s : State) : (modPeer p f s).pviol = s.pviol := rfl
@[simp] theorem modPeer_pvcnt (p : Nat) (f : Peer → Peer) (s : State) : (modPeer p f s).pvcnt = s.pvcnt := rfl
@[simp] theorem modPeer_boot (p : Nat) (f : Peer → Peer) (s : State) : (modPeer p f s).boot = s.boot := rfl
@[simp] theorem modPeer_heldWr (p : Nat) (f : Peer → Peer) (s : State) : (modPeer p f s).heldWr = s.heldWr := rfl
@[simp] theorem modPeer_latch (p : Nat) (f : Peer → Peer) (s : State) : (modPeer p f s).latch = s.latch := rfl
@[simp] theorem modPeer_out (p : Nat) (f : Peer → Peer) (s : State) : (modPeer p f s).out = s.out := rfl
@[simp] theorem modPeer_free (p : Nat) (f : Peer → Peer) (s : State) : (modPeer p f s).free = s.free := rfl
@[simp] theorem modPeer_pending (p : Nat) (f : Peer → Peer) (s : State) : (modPeer p f s).pending = s.pending := rfl
@[simp] theorem modPeer_ten (p : Nat) (f : Peer → Peer) (s : State) (k : Nat) : (modPeer p f s).ten k = s.ten k := rfl
@[simp] theorem modPeer_sq (p : Nat) (f : Peer → Peer) (s : State) (a b : Nat) : (modPeer p f s).sq a b = s.sq a b := rfl
@[simp] theorem modPeer_cq (p : Nat) (f : Peer → Peer) (s : State) (a b : Nat) : (modPeer p f s).cq a b = s.cq a b := rfl
@[simp] theorem modPeer_dc (p : Nat) (f : Peer → Peer) (s : State) (k : Nat) : (modPeer p f s).dc k = s.dc k := rfl
@[simp] theorem modPeer_tile (p : Nat) (f : Peer → Peer) (s : State) (k : Nat) : (modPeer p f s).tile k = s.tile k := rfl
@[simp] theorem modPeer_csSt (p : Nat) (f : Peer → Peer) (s : State) (k : Nat) : (modPeer p f s).csSt k = s.csSt k := rfl
@[simp] theorem modPeer_slot (p : Nat) (f : Peer → Peer) (s : State) (k : Nat) : (modPeer p f s).slot k = s.slot k := rfl
@[simp] theorem modPeer_rbg (p : Nat) (f : Peer → Peer) (s : State) (k : Nat) : (modPeer p f s).rbg k = s.rbg k := rfl
@[simp] theorem modPeer_stream (p : Nat) (f : Peer → Peer) (s : State) (k : Nat) : (modPeer p f s).stream k = s.stream k := rfl
@[simp] theorem modPeer_cacheEnt (p : Nat) (f : Peer → Peer) (s : State) (k : Nat) : (modPeer p f s).cacheEnt k = s.cacheEnt k := rfl
@[simp] theorem modPeer_tcmp (p : Nat) (f : Peer → Peer) (s : State) (k : Nat) : (modPeer p f s).tcmp k = s.tcmp k := rfl
@[simp] theorem modPeer_req (p : Nat) (f : Peer → Peer) (s : State) (k : Nat) : (modPeer p f s).req k = s.req k := rfl

@[simp] theorem modOwn_start (f : OwnRegs → OwnRegs) (s : State) : (modOwn f s).start = s.start := rfl
@[simp] theorem modOwn_roots (f : OwnRegs → OwnRegs) (s : State) : (modOwn f s).roots = s.roots := rfl
@[simp] theorem modOwn_ident (f : OwnRegs → OwnRegs) (s : State) : (modOwn f s).ident = s.ident := rfl
@[simp] theorem modOwn_owner (f : OwnRegs → OwnRegs) (s : State) : (modOwn f s).owner = s.owner := rfl
@[simp] theorem modOwn_denied (f : OwnRegs → OwnRegs) (s : State) : (modOwn f s).denied = s.denied := rfl
@[simp] theorem modOwn_gen (f : OwnRegs → OwnRegs) (s : State) : (modOwn f s).gen = s.gen := rfl
@[simp] theorem modOwn_tens (f : OwnRegs → OwnRegs) (s : State) : (modOwn f s).tens = s.tens := rfl
@[simp] theorem modOwn_sqs (f : OwnRegs → OwnRegs) (s : State) : (modOwn f s).sqs = s.sqs := rfl
@[simp] theorem modOwn_cqs (f : OwnRegs → OwnRegs) (s : State) : (modOwn f s).cqs = s.cqs := rfl
@[simp] theorem modOwn_sch (f : OwnRegs → OwnRegs) (s : State) : (modOwn f s).sch = s.sch := rfl
@[simp] theorem modOwn_reqs (f : OwnRegs → OwnRegs) (s : State) : (modOwn f s).reqs = s.reqs := rfl
@[simp] theorem modOwn_sent (f : OwnRegs → OwnRegs) (s : State) : (modOwn f s).sent = s.sent := rfl
@[simp] theorem modOwn_tiles (f : OwnRegs → OwnRegs) (s : State) : (modOwn f s).tiles = s.tiles := rfl
@[simp] theorem modOwn_css (f : OwnRegs → OwnRegs) (s : State) : (modOwn f s).css = s.css := rfl
@[simp] theorem modOwn_ces (f : OwnRegs → OwnRegs) (s : State) : (modOwn f s).ces = s.ces := rfl
@[simp] theorem modOwn_streams (f : OwnRegs → OwnRegs) (s : State) : (modOwn f s).streams = s.streams := rfl
@[simp] theorem modOwn_ks (f : OwnRegs → OwnRegs) (s : State) : (modOwn f s).ks = s.ks := rfl
@[simp] theorem modOwn_meas (f : OwnRegs → OwnRegs) (s : State) : (modOwn f s).meas = s.meas := rfl
@[simp] theorem modOwn_es (f : OwnRegs → OwnRegs) (s : State) : (modOwn f s).es = s.es := rfl
@[simp] theorem modOwn_rbgs (f : OwnRegs → OwnRegs) (s : State) : (modOwn f s).rbgs = s.rbgs := rfl
@[simp] theorem modOwn_dcs (f : OwnRegs → OwnRegs) (s : State) : (modOwn f s).dcs = s.dcs := rfl
@[simp] theorem modOwn_fp (f : OwnRegs → OwnRegs) (s : State) : (modOwn f s).fp = s.fp := rfl
@[simp] theorem modOwn_time (f : OwnRegs → OwnRegs) (s : State) : (modOwn f s).time = s.time := rfl
@[simp] theorem modOwn_clk (f : OwnRegs → OwnRegs) (s : State) : (modOwn f s).clk = s.clk := rfl
@[simp] theorem modOwn_sup (f : OwnRegs → OwnRegs) (s : State) : (modOwn f s).sup = s.sup := rfl
@[simp] theorem modOwn_ret (f : OwnRegs → OwnRegs) (s : State) : (modOwn f s).ret = s.ret := rfl
@[simp] theorem modOwn_jrn (f : OwnRegs → OwnRegs) (s : State) : (modOwn f s).jrn = s.jrn := rfl
@[simp] theorem modOwn_evPend (f : OwnRegs → OwnRegs) (s : State) : (modOwn f s).evPend = s.evPend := rfl
@[simp] theorem modOwn_buserr (f : OwnRegs → OwnRegs) (s : State) : (modOwn f s).buserr = s.buserr := rfl
@[simp] theorem modOwn_becnt (f : OwnRegs → OwnRegs) (s : State) : (modOwn f s).becnt = s.becnt := rfl
@[simp] theorem modOwn_pviol (f : OwnRegs → OwnRegs) (s : State) : (modOwn f s).pviol = s.pviol := rfl
@[simp] theorem modOwn_pvcnt (f : OwnRegs → OwnRegs) (s : State) : (modOwn f s).pvcnt = s.pvcnt := rfl
@[simp] theorem modOwn_crs (f : OwnRegs → OwnRegs) (s : State) : (modOwn f s).crs = s.crs := rfl
@[simp] theorem modOwn_boot (f : OwnRegs → OwnRegs) (s : State) : (modOwn f s).boot = s.boot := rfl
@[simp] theorem modOwn_heldWr (f : OwnRegs → OwnRegs) (s : State) : (modOwn f s).heldWr = s.heldWr := rfl
@[simp] theorem modOwn_latch (f : OwnRegs → OwnRegs) (s : State) : (modOwn f s).latch = s.latch := rfl
@[simp] theorem modOwn_out (f : OwnRegs → OwnRegs) (s : State) : (modOwn f s).out = s.out := rfl
@[simp] theorem modOwn_free (f : OwnRegs → OwnRegs) (s : State) : (modOwn f s).free = s.free := rfl
@[simp] theorem modOwn_pending (f : OwnRegs → OwnRegs) (s : State) : (modOwn f s).pending = s.pending := rfl
theorem modOwn_own (f : OwnRegs → OwnRegs) (s : State) : (modOwn f s).own = f s.own := rfl
@[simp] theorem modOwn_ten (f : OwnRegs → OwnRegs) (s : State) (k : Nat) : (modOwn f s).ten k = s.ten k := rfl
@[simp] theorem modOwn_sq (f : OwnRegs → OwnRegs) (s : State) (a b : Nat) : (modOwn f s).sq a b = s.sq a b := rfl
@[simp] theorem modOwn_cq (f : OwnRegs → OwnRegs) (s : State) (a b : Nat) : (modOwn f s).cq a b = s.cq a b := rfl
@[simp] theorem modOwn_dc (f : OwnRegs → OwnRegs) (s : State) (k : Nat) : (modOwn f s).dc k = s.dc k := rfl
@[simp] theorem modOwn_tile (f : OwnRegs → OwnRegs) (s : State) (k : Nat) : (modOwn f s).tile k = s.tile k := rfl
@[simp] theorem modOwn_csSt (f : OwnRegs → OwnRegs) (s : State) (k : Nat) : (modOwn f s).csSt k = s.csSt k := rfl
@[simp] theorem modOwn_slot (f : OwnRegs → OwnRegs) (s : State) (k : Nat) : (modOwn f s).slot k = s.slot k := rfl
@[simp] theorem modOwn_rbg (f : OwnRegs → OwnRegs) (s : State) (k : Nat) : (modOwn f s).rbg k = s.rbg k := rfl
@[simp] theorem modOwn_stream (f : OwnRegs → OwnRegs) (s : State) (k : Nat) : (modOwn f s).stream k = s.stream k := rfl
@[simp] theorem modOwn_cacheEnt (f : OwnRegs → OwnRegs) (s : State) (k : Nat) : (modOwn f s).cacheEnt k = s.cacheEnt k := rfl
@[simp] theorem modOwn_peer (f : OwnRegs → OwnRegs) (s : State) (k : Nat) : (modOwn f s).peer k = s.peer k := rfl
@[simp] theorem modOwn_req (f : OwnRegs → OwnRegs) (s : State) (k : Nat) : (modOwn f s).req k = s.req k := rfl

@[simp] theorem modTcmp_start (j : Nat) (f : Tcmp → Tcmp) (s : State) : (modTcmp j f s).start = s.start := rfl
@[simp] theorem modTcmp_roots (j : Nat) (f : Tcmp → Tcmp) (s : State) : (modTcmp j f s).roots = s.roots := rfl
@[simp] theorem modTcmp_ident (j : Nat) (f : Tcmp → Tcmp) (s : State) : (modTcmp j f s).ident = s.ident := rfl
@[simp] theorem modTcmp_owner (j : Nat) (f : Tcmp → Tcmp) (s : State) : (modTcmp j f s).owner = s.owner := rfl
@[simp] theorem modTcmp_denied (j : Nat) (f : Tcmp → Tcmp) (s : State) : (modTcmp j f s).denied = s.denied := rfl
@[simp] theorem modTcmp_gen (j : Nat) (f : Tcmp → Tcmp) (s : State) : (modTcmp j f s).gen = s.gen := rfl
@[simp] theorem modTcmp_tens (j : Nat) (f : Tcmp → Tcmp) (s : State) : (modTcmp j f s).tens = s.tens := rfl
@[simp] theorem modTcmp_sqs (j : Nat) (f : Tcmp → Tcmp) (s : State) : (modTcmp j f s).sqs = s.sqs := rfl
@[simp] theorem modTcmp_cqs (j : Nat) (f : Tcmp → Tcmp) (s : State) : (modTcmp j f s).cqs = s.cqs := rfl
@[simp] theorem modTcmp_sch (j : Nat) (f : Tcmp → Tcmp) (s : State) : (modTcmp j f s).sch = s.sch := rfl
@[simp] theorem modTcmp_reqs (j : Nat) (f : Tcmp → Tcmp) (s : State) : (modTcmp j f s).reqs = s.reqs := rfl
@[simp] theorem modTcmp_sent (j : Nat) (f : Tcmp → Tcmp) (s : State) : (modTcmp j f s).sent = s.sent := rfl
@[simp] theorem modTcmp_tiles (j : Nat) (f : Tcmp → Tcmp) (s : State) : (modTcmp j f s).tiles = s.tiles := rfl
@[simp] theorem modTcmp_css (j : Nat) (f : Tcmp → Tcmp) (s : State) : (modTcmp j f s).css = s.css := rfl
@[simp] theorem modTcmp_ces (j : Nat) (f : Tcmp → Tcmp) (s : State) : (modTcmp j f s).ces = s.ces := rfl
@[simp] theorem modTcmp_streams (j : Nat) (f : Tcmp → Tcmp) (s : State) : (modTcmp j f s).streams = s.streams := rfl
@[simp] theorem modTcmp_ks (j : Nat) (f : Tcmp → Tcmp) (s : State) : (modTcmp j f s).ks = s.ks := rfl
@[simp] theorem modTcmp_meas (j : Nat) (f : Tcmp → Tcmp) (s : State) : (modTcmp j f s).meas = s.meas := rfl
@[simp] theorem modTcmp_es (j : Nat) (f : Tcmp → Tcmp) (s : State) : (modTcmp j f s).es = s.es := rfl
@[simp] theorem modTcmp_rbgs (j : Nat) (f : Tcmp → Tcmp) (s : State) : (modTcmp j f s).rbgs = s.rbgs := rfl
@[simp] theorem modTcmp_dcs (j : Nat) (f : Tcmp → Tcmp) (s : State) : (modTcmp j f s).dcs = s.dcs := rfl
@[simp] theorem modTcmp_fp (j : Nat) (f : Tcmp → Tcmp) (s : State) : (modTcmp j f s).fp = s.fp := rfl
@[simp] theorem modTcmp_time (j : Nat) (f : Tcmp → Tcmp) (s : State) : (modTcmp j f s).time = s.time := rfl
@[simp] theorem modTcmp_clk (j : Nat) (f : Tcmp → Tcmp) (s : State) : (modTcmp j f s).clk = s.clk := rfl
@[simp] theorem modTcmp_sup (j : Nat) (f : Tcmp → Tcmp) (s : State) : (modTcmp j f s).sup = s.sup := rfl
@[simp] theorem modTcmp_ret (j : Nat) (f : Tcmp → Tcmp) (s : State) : (modTcmp j f s).ret = s.ret := rfl
@[simp] theorem modTcmp_jrn (j : Nat) (f : Tcmp → Tcmp) (s : State) : (modTcmp j f s).jrn = s.jrn := rfl
@[simp] theorem modTcmp_evPend (j : Nat) (f : Tcmp → Tcmp) (s : State) : (modTcmp j f s).evPend = s.evPend := rfl
@[simp] theorem modTcmp_buserr (j : Nat) (f : Tcmp → Tcmp) (s : State) : (modTcmp j f s).buserr = s.buserr := rfl
@[simp] theorem modTcmp_becnt (j : Nat) (f : Tcmp → Tcmp) (s : State) : (modTcmp j f s).becnt = s.becnt := rfl
@[simp] theorem modTcmp_pviol (j : Nat) (f : Tcmp → Tcmp) (s : State) : (modTcmp j f s).pviol = s.pviol := rfl
@[simp] theorem modTcmp_pvcnt (j : Nat) (f : Tcmp → Tcmp) (s : State) : (modTcmp j f s).pvcnt = s.pvcnt := rfl
@[simp] theorem modTcmp_crs (j : Nat) (f : Tcmp → Tcmp) (s : State) : (modTcmp j f s).crs = s.crs := rfl
@[simp] theorem modTcmp_boot (j : Nat) (f : Tcmp → Tcmp) (s : State) : (modTcmp j f s).boot = s.boot := rfl
@[simp] theorem modTcmp_heldWr (j : Nat) (f : Tcmp → Tcmp) (s : State) : (modTcmp j f s).heldWr = s.heldWr := rfl
@[simp] theorem modTcmp_latch (j : Nat) (f : Tcmp → Tcmp) (s : State) : (modTcmp j f s).latch = s.latch := rfl
@[simp] theorem modTcmp_out (j : Nat) (f : Tcmp → Tcmp) (s : State) : (modTcmp j f s).out = s.out := rfl
@[simp] theorem modTcmp_free (j : Nat) (f : Tcmp → Tcmp) (s : State) : (modTcmp j f s).free = s.free := rfl
@[simp] theorem modTcmp_pending (j : Nat) (f : Tcmp → Tcmp) (s : State) : (modTcmp j f s).pending = s.pending := rfl
@[simp] theorem modTcmp_ten (j : Nat) (f : Tcmp → Tcmp) (s : State) (k : Nat) : (modTcmp j f s).ten k = s.ten k := rfl
@[simp] theorem modTcmp_sq (j : Nat) (f : Tcmp → Tcmp) (s : State) (a b : Nat) : (modTcmp j f s).sq a b = s.sq a b := rfl
@[simp] theorem modTcmp_cq (j : Nat) (f : Tcmp → Tcmp) (s : State) (a b : Nat) : (modTcmp j f s).cq a b = s.cq a b := rfl
@[simp] theorem modTcmp_dc (j : Nat) (f : Tcmp → Tcmp) (s : State) (k : Nat) : (modTcmp j f s).dc k = s.dc k := rfl
@[simp] theorem modTcmp_tile (j : Nat) (f : Tcmp → Tcmp) (s : State) (k : Nat) : (modTcmp j f s).tile k = s.tile k := rfl
@[simp] theorem modTcmp_csSt (j : Nat) (f : Tcmp → Tcmp) (s : State) (k : Nat) : (modTcmp j f s).csSt k = s.csSt k := rfl
@[simp] theorem modTcmp_slot (j : Nat) (f : Tcmp → Tcmp) (s : State) (k : Nat) : (modTcmp j f s).slot k = s.slot k := rfl
@[simp] theorem modTcmp_rbg (j : Nat) (f : Tcmp → Tcmp) (s : State) (k : Nat) : (modTcmp j f s).rbg k = s.rbg k := rfl
@[simp] theorem modTcmp_stream (j : Nat) (f : Tcmp → Tcmp) (s : State) (k : Nat) : (modTcmp j f s).stream k = s.stream k := rfl
@[simp] theorem modTcmp_cacheEnt (j : Nat) (f : Tcmp → Tcmp) (s : State) (k : Nat) : (modTcmp j f s).cacheEnt k = s.cacheEnt k := rfl
@[simp] theorem modTcmp_peer (j : Nat) (f : Tcmp → Tcmp) (s : State) (k : Nat) : (modTcmp j f s).peer k = s.peer k := rfl
@[simp] theorem modTcmp_req (j : Nat) (f : Tcmp → Tcmp) (s : State) (k : Nat) : (modTcmp j f s).req k = s.req k := rfl

@[simp] theorem modNotice_start (f : Word → Word) (s : State) : (modNotice f s).start = s.start := rfl
@[simp] theorem modNotice_roots (f : Word → Word) (s : State) : (modNotice f s).roots = s.roots := rfl
@[simp] theorem modNotice_ident (f : Word → Word) (s : State) : (modNotice f s).ident = s.ident := rfl
@[simp] theorem modNotice_owner (f : Word → Word) (s : State) : (modNotice f s).owner = s.owner := rfl
@[simp] theorem modNotice_denied (f : Word → Word) (s : State) : (modNotice f s).denied = s.denied := rfl
@[simp] theorem modNotice_gen (f : Word → Word) (s : State) : (modNotice f s).gen = s.gen := rfl
@[simp] theorem modNotice_tens (f : Word → Word) (s : State) : (modNotice f s).tens = s.tens := rfl
@[simp] theorem modNotice_sqs (f : Word → Word) (s : State) : (modNotice f s).sqs = s.sqs := rfl
@[simp] theorem modNotice_cqs (f : Word → Word) (s : State) : (modNotice f s).cqs = s.cqs := rfl
@[simp] theorem modNotice_sch (f : Word → Word) (s : State) : (modNotice f s).sch = s.sch := rfl
@[simp] theorem modNotice_reqs (f : Word → Word) (s : State) : (modNotice f s).reqs = s.reqs := rfl
@[simp] theorem modNotice_sent (f : Word → Word) (s : State) : (modNotice f s).sent = s.sent := rfl
@[simp] theorem modNotice_tiles (f : Word → Word) (s : State) : (modNotice f s).tiles = s.tiles := rfl
@[simp] theorem modNotice_css (f : Word → Word) (s : State) : (modNotice f s).css = s.css := rfl
@[simp] theorem modNotice_ces (f : Word → Word) (s : State) : (modNotice f s).ces = s.ces := rfl
@[simp] theorem modNotice_streams (f : Word → Word) (s : State) : (modNotice f s).streams = s.streams := rfl
@[simp] theorem modNotice_ks (f : Word → Word) (s : State) : (modNotice f s).ks = s.ks := rfl
@[simp] theorem modNotice_meas (f : Word → Word) (s : State) : (modNotice f s).meas = s.meas := rfl
@[simp] theorem modNotice_es (f : Word → Word) (s : State) : (modNotice f s).es = s.es := rfl
@[simp] theorem modNotice_rbgs (f : Word → Word) (s : State) : (modNotice f s).rbgs = s.rbgs := rfl
@[simp] theorem modNotice_dcs (f : Word → Word) (s : State) : (modNotice f s).dcs = s.dcs := rfl
@[simp] theorem modNotice_fp (f : Word → Word) (s : State) : (modNotice f s).fp = s.fp := rfl
@[simp] theorem modNotice_time (f : Word → Word) (s : State) : (modNotice f s).time = s.time := rfl
@[simp] theorem modNotice_clk (f : Word → Word) (s : State) : (modNotice f s).clk = s.clk := rfl
@[simp] theorem modNotice_sup (f : Word → Word) (s : State) : (modNotice f s).sup = s.sup := rfl
@[simp] theorem modNotice_ret (f : Word → Word) (s : State) : (modNotice f s).ret = s.ret := rfl
@[simp] theorem modNotice_jrn (f : Word → Word) (s : State) : (modNotice f s).jrn = s.jrn := rfl
@[simp] theorem modNotice_evPend (f : Word → Word) (s : State) : (modNotice f s).evPend = s.evPend := rfl
@[simp] theorem modNotice_buserr (f : Word → Word) (s : State) : (modNotice f s).buserr = s.buserr := rfl
@[simp] theorem modNotice_becnt (f : Word → Word) (s : State) : (modNotice f s).becnt = s.becnt := rfl
@[simp] theorem modNotice_pviol (f : Word → Word) (s : State) : (modNotice f s).pviol = s.pviol := rfl
@[simp] theorem modNotice_pvcnt (f : Word → Word) (s : State) : (modNotice f s).pvcnt = s.pvcnt := rfl
@[simp] theorem modNotice_crs (f : Word → Word) (s : State) : (modNotice f s).crs = s.crs := rfl
@[simp] theorem modNotice_boot (f : Word → Word) (s : State) : (modNotice f s).boot = s.boot := rfl
@[simp] theorem modNotice_heldWr (f : Word → Word) (s : State) : (modNotice f s).heldWr = s.heldWr := rfl
@[simp] theorem modNotice_latch (f : Word → Word) (s : State) : (modNotice f s).latch = s.latch := rfl
@[simp] theorem modNotice_out (f : Word → Word) (s : State) : (modNotice f s).out = s.out := rfl
@[simp] theorem modNotice_free (f : Word → Word) (s : State) : (modNotice f s).free = s.free := rfl
@[simp] theorem modNotice_pending (f : Word → Word) (s : State) : (modNotice f s).pending = s.pending := rfl
@[simp] theorem modNotice_ten (f : Word → Word) (s : State) (k : Nat) : (modNotice f s).ten k = s.ten k := rfl
@[simp] theorem modNotice_sq (f : Word → Word) (s : State) (a b : Nat) : (modNotice f s).sq a b = s.sq a b := rfl
@[simp] theorem modNotice_cq (f : Word → Word) (s : State) (a b : Nat) : (modNotice f s).cq a b = s.cq a b := rfl
@[simp] theorem modNotice_dc (f : Word → Word) (s : State) (k : Nat) : (modNotice f s).dc k = s.dc k := rfl
@[simp] theorem modNotice_tile (f : Word → Word) (s : State) (k : Nat) : (modNotice f s).tile k = s.tile k := rfl
@[simp] theorem modNotice_csSt (f : Word → Word) (s : State) (k : Nat) : (modNotice f s).csSt k = s.csSt k := rfl
@[simp] theorem modNotice_slot (f : Word → Word) (s : State) (k : Nat) : (modNotice f s).slot k = s.slot k := rfl
@[simp] theorem modNotice_rbg (f : Word → Word) (s : State) (k : Nat) : (modNotice f s).rbg k = s.rbg k := rfl
@[simp] theorem modNotice_stream (f : Word → Word) (s : State) (k : Nat) : (modNotice f s).stream k = s.stream k := rfl
@[simp] theorem modNotice_cacheEnt (f : Word → Word) (s : State) (k : Nat) : (modNotice f s).cacheEnt k = s.cacheEnt k := rfl
@[simp] theorem modNotice_peer (f : Word → Word) (s : State) (k : Nat) : (modNotice f s).peer k = s.peer k := rfl
@[simp] theorem modNotice_req (f : Word → Word) (s : State) (k : Nat) : (modNotice f s).req k = s.req k := rfl

@[simp] theorem setAct_start (c : Content) (s : State) : (setAct c s).start = s.start := rfl
@[simp] theorem setAct_roots (c : Content) (s : State) : (setAct c s).roots = s.roots := rfl
@[simp] theorem setAct_ident (c : Content) (s : State) : (setAct c s).ident = s.ident := rfl
@[simp] theorem setAct_owner (c : Content) (s : State) : (setAct c s).owner = s.owner := rfl
@[simp] theorem setAct_denied (c : Content) (s : State) : (setAct c s).denied = s.denied := rfl
@[simp] theorem setAct_own (c : Content) (s : State) : (setAct c s).own = s.own := rfl
@[simp] theorem setAct_tens (c : Content) (s : State) : (setAct c s).tens = s.tens := rfl
@[simp] theorem setAct_sqs (c : Content) (s : State) : (setAct c s).sqs = s.sqs := rfl
@[simp] theorem setAct_cqs (c : Content) (s : State) : (setAct c s).cqs = s.cqs := rfl
@[simp] theorem setAct_sch (c : Content) (s : State) : (setAct c s).sch = s.sch := rfl
@[simp] theorem setAct_reqs (c : Content) (s : State) : (setAct c s).reqs = s.reqs := rfl
@[simp] theorem setAct_sent (c : Content) (s : State) : (setAct c s).sent = s.sent := rfl
@[simp] theorem setAct_tiles (c : Content) (s : State) : (setAct c s).tiles = s.tiles := rfl
@[simp] theorem setAct_css (c : Content) (s : State) : (setAct c s).css = s.css := rfl
@[simp] theorem setAct_ces (c : Content) (s : State) : (setAct c s).ces = s.ces := rfl
@[simp] theorem setAct_streams (c : Content) (s : State) : (setAct c s).streams = s.streams := rfl
@[simp] theorem setAct_ks (c : Content) (s : State) : (setAct c s).ks = s.ks := rfl
@[simp] theorem setAct_meas (c : Content) (s : State) : (setAct c s).meas = s.meas := rfl
@[simp] theorem setAct_es (c : Content) (s : State) : (setAct c s).es = s.es := rfl
@[simp] theorem setAct_rbgs (c : Content) (s : State) : (setAct c s).rbgs = s.rbgs := rfl
@[simp] theorem setAct_dcs (c : Content) (s : State) : (setAct c s).dcs = s.dcs := rfl
@[simp] theorem setAct_fp (c : Content) (s : State) : (setAct c s).fp = s.fp := rfl
@[simp] theorem setAct_time (c : Content) (s : State) : (setAct c s).time = s.time := rfl
@[simp] theorem setAct_clk (c : Content) (s : State) : (setAct c s).clk = s.clk := rfl
@[simp] theorem setAct_sup (c : Content) (s : State) : (setAct c s).sup = s.sup := rfl
@[simp] theorem setAct_ret (c : Content) (s : State) : (setAct c s).ret = s.ret := rfl
@[simp] theorem setAct_jrn (c : Content) (s : State) : (setAct c s).jrn = s.jrn := rfl
@[simp] theorem setAct_evPend (c : Content) (s : State) : (setAct c s).evPend = s.evPend := rfl
@[simp] theorem setAct_buserr (c : Content) (s : State) : (setAct c s).buserr = s.buserr := rfl
@[simp] theorem setAct_becnt (c : Content) (s : State) : (setAct c s).becnt = s.becnt := rfl
@[simp] theorem setAct_pviol (c : Content) (s : State) : (setAct c s).pviol = s.pviol := rfl
@[simp] theorem setAct_pvcnt (c : Content) (s : State) : (setAct c s).pvcnt = s.pvcnt := rfl
@[simp] theorem setAct_crs (c : Content) (s : State) : (setAct c s).crs = s.crs := rfl
@[simp] theorem setAct_boot (c : Content) (s : State) : (setAct c s).boot = s.boot := rfl
@[simp] theorem setAct_heldWr (c : Content) (s : State) : (setAct c s).heldWr = s.heldWr := rfl
@[simp] theorem setAct_latch (c : Content) (s : State) : (setAct c s).latch = s.latch := rfl
@[simp] theorem setAct_out (c : Content) (s : State) : (setAct c s).out = s.out := rfl
@[simp] theorem setAct_free (c : Content) (s : State) : (setAct c s).free = s.free := rfl
@[simp] theorem setAct_pending (c : Content) (s : State) : (setAct c s).pending = s.pending := rfl
@[simp] theorem setAct_ten (c : Content) (s : State) (k : Nat) : (setAct c s).ten k = s.ten k := rfl
@[simp] theorem setAct_sq (c : Content) (s : State) (a b : Nat) : (setAct c s).sq a b = s.sq a b := rfl
@[simp] theorem setAct_cq (c : Content) (s : State) (a b : Nat) : (setAct c s).cq a b = s.cq a b := rfl
@[simp] theorem setAct_dc (c : Content) (s : State) (k : Nat) : (setAct c s).dc k = s.dc k := rfl
@[simp] theorem setAct_tile (c : Content) (s : State) (k : Nat) : (setAct c s).tile k = s.tile k := rfl
@[simp] theorem setAct_csSt (c : Content) (s : State) (k : Nat) : (setAct c s).csSt k = s.csSt k := rfl
@[simp] theorem setAct_slot (c : Content) (s : State) (k : Nat) : (setAct c s).slot k = s.slot k := rfl
@[simp] theorem setAct_rbg (c : Content) (s : State) (k : Nat) : (setAct c s).rbg k = s.rbg k := rfl
@[simp] theorem setAct_stream (c : Content) (s : State) (k : Nat) : (setAct c s).stream k = s.stream k := rfl
@[simp] theorem setAct_cacheEnt (c : Content) (s : State) (k : Nat) : (setAct c s).cacheEnt k = s.cacheEnt k := rfl
@[simp] theorem setAct_peer (c : Content) (s : State) (k : Nat) : (setAct c s).peer k = s.peer k := rfl
@[simp] theorem setAct_tcmp (c : Content) (s : State) (k : Nat) : (setAct c s).tcmp k = s.tcmp k := rfl
@[simp] theorem setAct_req (c : Content) (s : State) (k : Nat) : (setAct c s).req k = s.req k := rfl

@[simp] theorem modGen_start (f : Gen → Gen) (s : State) : (modGen f s).start = s.start := rfl
@[simp] theorem modGen_roots (f : Gen → Gen) (s : State) : (modGen f s).roots = s.roots := rfl
@[simp] theorem modGen_ident (f : Gen → Gen) (s : State) : (modGen f s).ident = s.ident := rfl
@[simp] theorem modGen_owner (f : Gen → Gen) (s : State) : (modGen f s).owner = s.owner := rfl
@[simp] theorem modGen_denied (f : Gen → Gen) (s : State) : (modGen f s).denied = s.denied := rfl
@[simp] theorem modGen_own (f : Gen → Gen) (s : State) : (modGen f s).own = s.own := rfl
@[simp] theorem modGen_tens (f : Gen → Gen) (s : State) : (modGen f s).tens = s.tens := rfl
@[simp] theorem modGen_sqs (f : Gen → Gen) (s : State) : (modGen f s).sqs = s.sqs := rfl
@[simp] theorem modGen_cqs (f : Gen → Gen) (s : State) : (modGen f s).cqs = s.cqs := rfl
@[simp] theorem modGen_sch (f : Gen → Gen) (s : State) : (modGen f s).sch = s.sch := rfl
@[simp] theorem modGen_reqs (f : Gen → Gen) (s : State) : (modGen f s).reqs = s.reqs := rfl
@[simp] theorem modGen_sent (f : Gen → Gen) (s : State) : (modGen f s).sent = s.sent := rfl
@[simp] theorem modGen_tiles (f : Gen → Gen) (s : State) : (modGen f s).tiles = s.tiles := rfl
@[simp] theorem modGen_css (f : Gen → Gen) (s : State) : (modGen f s).css = s.css := rfl
@[simp] theorem modGen_ces (f : Gen → Gen) (s : State) : (modGen f s).ces = s.ces := rfl
@[simp] theorem modGen_streams (f : Gen → Gen) (s : State) : (modGen f s).streams = s.streams := rfl
@[simp] theorem modGen_ks (f : Gen → Gen) (s : State) : (modGen f s).ks = s.ks := rfl
@[simp] theorem modGen_meas (f : Gen → Gen) (s : State) : (modGen f s).meas = s.meas := rfl
@[simp] theorem modGen_es (f : Gen → Gen) (s : State) : (modGen f s).es = s.es := rfl
@[simp] theorem modGen_rbgs (f : Gen → Gen) (s : State) : (modGen f s).rbgs = s.rbgs := rfl
@[simp] theorem modGen_dcs (f : Gen → Gen) (s : State) : (modGen f s).dcs = s.dcs := rfl
@[simp] theorem modGen_fp (f : Gen → Gen) (s : State) : (modGen f s).fp = s.fp := rfl
@[simp] theorem modGen_time (f : Gen → Gen) (s : State) : (modGen f s).time = s.time := rfl
@[simp] theorem modGen_clk (f : Gen → Gen) (s : State) : (modGen f s).clk = s.clk := rfl
@[simp] theorem modGen_sup (f : Gen → Gen) (s : State) : (modGen f s).sup = s.sup := rfl
@[simp] theorem modGen_ret (f : Gen → Gen) (s : State) : (modGen f s).ret = s.ret := rfl
@[simp] theorem modGen_jrn (f : Gen → Gen) (s : State) : (modGen f s).jrn = s.jrn := rfl
@[simp] theorem modGen_evPend (f : Gen → Gen) (s : State) : (modGen f s).evPend = s.evPend := rfl
@[simp] theorem modGen_buserr (f : Gen → Gen) (s : State) : (modGen f s).buserr = s.buserr := rfl
@[simp] theorem modGen_becnt (f : Gen → Gen) (s : State) : (modGen f s).becnt = s.becnt := rfl
@[simp] theorem modGen_pviol (f : Gen → Gen) (s : State) : (modGen f s).pviol = s.pviol := rfl
@[simp] theorem modGen_pvcnt (f : Gen → Gen) (s : State) : (modGen f s).pvcnt = s.pvcnt := rfl
@[simp] theorem modGen_crs (f : Gen → Gen) (s : State) : (modGen f s).crs = s.crs := rfl
@[simp] theorem modGen_boot (f : Gen → Gen) (s : State) : (modGen f s).boot = s.boot := rfl
@[simp] theorem modGen_heldWr (f : Gen → Gen) (s : State) : (modGen f s).heldWr = s.heldWr := rfl
@[simp] theorem modGen_latch (f : Gen → Gen) (s : State) : (modGen f s).latch = s.latch := rfl
@[simp] theorem modGen_out (f : Gen → Gen) (s : State) : (modGen f s).out = s.out := rfl
@[simp] theorem modGen_free (f : Gen → Gen) (s : State) : (modGen f s).free = s.free := rfl
@[simp] theorem modGen_pending (f : Gen → Gen) (s : State) : (modGen f s).pending = s.pending := rfl
theorem modGen_gen (f : Gen → Gen) (s : State) : (modGen f s).gen = f s.gen := rfl
@[simp] theorem modGen_ten (f : Gen → Gen) (s : State) (k : Nat) : (modGen f s).ten k = s.ten k := rfl
@[simp] theorem modGen_sq (f : Gen → Gen) (s : State) (a b : Nat) : (modGen f s).sq a b = s.sq a b := rfl
@[simp] theorem modGen_cq (f : Gen → Gen) (s : State) (a b : Nat) : (modGen f s).cq a b = s.cq a b := rfl
@[simp] theorem modGen_dc (f : Gen → Gen) (s : State) (k : Nat) : (modGen f s).dc k = s.dc k := rfl
@[simp] theorem modGen_tile (f : Gen → Gen) (s : State) (k : Nat) : (modGen f s).tile k = s.tile k := rfl
@[simp] theorem modGen_csSt (f : Gen → Gen) (s : State) (k : Nat) : (modGen f s).csSt k = s.csSt k := rfl
@[simp] theorem modGen_slot (f : Gen → Gen) (s : State) (k : Nat) : (modGen f s).slot k = s.slot k := rfl
@[simp] theorem modGen_rbg (f : Gen → Gen) (s : State) (k : Nat) : (modGen f s).rbg k = s.rbg k := rfl
@[simp] theorem modGen_stream (f : Gen → Gen) (s : State) (k : Nat) : (modGen f s).stream k = s.stream k := rfl
@[simp] theorem modGen_cacheEnt (f : Gen → Gen) (s : State) (k : Nat) : (modGen f s).cacheEnt k = s.cacheEnt k := rfl
@[simp] theorem modGen_peer (f : Gen → Gen) (s : State) (k : Nat) : (modGen f s).peer k = s.peer k := rfl
@[simp] theorem modGen_tcmp (f : Gen → Gen) (s : State) (k : Nat) : (modGen f s).tcmp k = s.tcmp k := rfl
@[simp] theorem modGen_req (f : Gen → Gen) (s : State) (k : Nat) : (modGen f s).req k = s.req k := rfl

@[simp] theorem modJrn_start (f : Journal → Journal) (s : State) : (modJrn f s).start = s.start := rfl
@[simp] theorem modJrn_roots (f : Journal → Journal) (s : State) : (modJrn f s).roots = s.roots := rfl
@[simp] theorem modJrn_ident (f : Journal → Journal) (s : State) : (modJrn f s).ident = s.ident := rfl
@[simp] theorem modJrn_owner (f : Journal → Journal) (s : State) : (modJrn f s).owner = s.owner := rfl
@[simp] theorem modJrn_denied (f : Journal → Journal) (s : State) : (modJrn f s).denied = s.denied := rfl
@[simp] theorem modJrn_own (f : Journal → Journal) (s : State) : (modJrn f s).own = s.own := rfl
@[simp] theorem modJrn_gen (f : Journal → Journal) (s : State) : (modJrn f s).gen = s.gen := rfl
@[simp] theorem modJrn_tens (f : Journal → Journal) (s : State) : (modJrn f s).tens = s.tens := rfl
@[simp] theorem modJrn_sqs (f : Journal → Journal) (s : State) : (modJrn f s).sqs = s.sqs := rfl
@[simp] theorem modJrn_cqs (f : Journal → Journal) (s : State) : (modJrn f s).cqs = s.cqs := rfl
@[simp] theorem modJrn_sch (f : Journal → Journal) (s : State) : (modJrn f s).sch = s.sch := rfl
@[simp] theorem modJrn_reqs (f : Journal → Journal) (s : State) : (modJrn f s).reqs = s.reqs := rfl
@[simp] theorem modJrn_sent (f : Journal → Journal) (s : State) : (modJrn f s).sent = s.sent := rfl
@[simp] theorem modJrn_tiles (f : Journal → Journal) (s : State) : (modJrn f s).tiles = s.tiles := rfl
@[simp] theorem modJrn_css (f : Journal → Journal) (s : State) : (modJrn f s).css = s.css := rfl
@[simp] theorem modJrn_ces (f : Journal → Journal) (s : State) : (modJrn f s).ces = s.ces := rfl
@[simp] theorem modJrn_streams (f : Journal → Journal) (s : State) : (modJrn f s).streams = s.streams := rfl
@[simp] theorem modJrn_ks (f : Journal → Journal) (s : State) : (modJrn f s).ks = s.ks := rfl
@[simp] theorem modJrn_meas (f : Journal → Journal) (s : State) : (modJrn f s).meas = s.meas := rfl
@[simp] theorem modJrn_es (f : Journal → Journal) (s : State) : (modJrn f s).es = s.es := rfl
@[simp] theorem modJrn_rbgs (f : Journal → Journal) (s : State) : (modJrn f s).rbgs = s.rbgs := rfl
@[simp] theorem modJrn_dcs (f : Journal → Journal) (s : State) : (modJrn f s).dcs = s.dcs := rfl
@[simp] theorem modJrn_fp (f : Journal → Journal) (s : State) : (modJrn f s).fp = s.fp := rfl
@[simp] theorem modJrn_time (f : Journal → Journal) (s : State) : (modJrn f s).time = s.time := rfl
@[simp] theorem modJrn_clk (f : Journal → Journal) (s : State) : (modJrn f s).clk = s.clk := rfl
@[simp] theorem modJrn_sup (f : Journal → Journal) (s : State) : (modJrn f s).sup = s.sup := rfl
@[simp] theorem modJrn_ret (f : Journal → Journal) (s : State) : (modJrn f s).ret = s.ret := rfl
@[simp] theorem modJrn_evPend (f : Journal → Journal) (s : State) : (modJrn f s).evPend = s.evPend := rfl
@[simp] theorem modJrn_buserr (f : Journal → Journal) (s : State) : (modJrn f s).buserr = s.buserr := rfl
@[simp] theorem modJrn_becnt (f : Journal → Journal) (s : State) : (modJrn f s).becnt = s.becnt := rfl
@[simp] theorem modJrn_pviol (f : Journal → Journal) (s : State) : (modJrn f s).pviol = s.pviol := rfl
@[simp] theorem modJrn_pvcnt (f : Journal → Journal) (s : State) : (modJrn f s).pvcnt = s.pvcnt := rfl
@[simp] theorem modJrn_crs (f : Journal → Journal) (s : State) : (modJrn f s).crs = s.crs := rfl
@[simp] theorem modJrn_boot (f : Journal → Journal) (s : State) : (modJrn f s).boot = s.boot := rfl
@[simp] theorem modJrn_heldWr (f : Journal → Journal) (s : State) : (modJrn f s).heldWr = s.heldWr := rfl
@[simp] theorem modJrn_latch (f : Journal → Journal) (s : State) : (modJrn f s).latch = s.latch := rfl
@[simp] theorem modJrn_out (f : Journal → Journal) (s : State) : (modJrn f s).out = s.out := rfl
@[simp] theorem modJrn_free (f : Journal → Journal) (s : State) : (modJrn f s).free = s.free := rfl
@[simp] theorem modJrn_pending (f : Journal → Journal) (s : State) : (modJrn f s).pending = s.pending := rfl
theorem modJrn_jrn (f : Journal → Journal) (s : State) : (modJrn f s).jrn = f s.jrn := rfl
@[simp] theorem modJrn_ten (f : Journal → Journal) (s : State) (k : Nat) : (modJrn f s).ten k = s.ten k := rfl
@[simp] theorem modJrn_sq (f : Journal → Journal) (s : State) (a b : Nat) : (modJrn f s).sq a b = s.sq a b := rfl
@[simp] theorem modJrn_cq (f : Journal → Journal) (s : State) (a b : Nat) : (modJrn f s).cq a b = s.cq a b := rfl
@[simp] theorem modJrn_dc (f : Journal → Journal) (s : State) (k : Nat) : (modJrn f s).dc k = s.dc k := rfl
@[simp] theorem modJrn_tile (f : Journal → Journal) (s : State) (k : Nat) : (modJrn f s).tile k = s.tile k := rfl
@[simp] theorem modJrn_csSt (f : Journal → Journal) (s : State) (k : Nat) : (modJrn f s).csSt k = s.csSt k := rfl
@[simp] theorem modJrn_slot (f : Journal → Journal) (s : State) (k : Nat) : (modJrn f s).slot k = s.slot k := rfl
@[simp] theorem modJrn_rbg (f : Journal → Journal) (s : State) (k : Nat) : (modJrn f s).rbg k = s.rbg k := rfl
@[simp] theorem modJrn_stream (f : Journal → Journal) (s : State) (k : Nat) : (modJrn f s).stream k = s.stream k := rfl
@[simp] theorem modJrn_cacheEnt (f : Journal → Journal) (s : State) (k : Nat) : (modJrn f s).cacheEnt k = s.cacheEnt k := rfl
@[simp] theorem modJrn_peer (f : Journal → Journal) (s : State) (k : Nat) : (modJrn f s).peer k = s.peer k := rfl
@[simp] theorem modJrn_tcmp (f : Journal → Journal) (s : State) (k : Nat) : (modJrn f s).tcmp k = s.tcmp k := rfl
@[simp] theorem modJrn_req (f : Journal → Journal) (s : State) (k : Nat) : (modJrn f s).req k = s.req k := rfl

@[simp] theorem modTime_start (f : TimeUnit → TimeUnit) (s : State) : (modTime f s).start = s.start := rfl
@[simp] theorem modTime_roots (f : TimeUnit → TimeUnit) (s : State) : (modTime f s).roots = s.roots := rfl
@[simp] theorem modTime_ident (f : TimeUnit → TimeUnit) (s : State) : (modTime f s).ident = s.ident := rfl
@[simp] theorem modTime_owner (f : TimeUnit → TimeUnit) (s : State) : (modTime f s).owner = s.owner := rfl
@[simp] theorem modTime_denied (f : TimeUnit → TimeUnit) (s : State) : (modTime f s).denied = s.denied := rfl
@[simp] theorem modTime_own (f : TimeUnit → TimeUnit) (s : State) : (modTime f s).own = s.own := rfl
@[simp] theorem modTime_gen (f : TimeUnit → TimeUnit) (s : State) : (modTime f s).gen = s.gen := rfl
@[simp] theorem modTime_tens (f : TimeUnit → TimeUnit) (s : State) : (modTime f s).tens = s.tens := rfl
@[simp] theorem modTime_sqs (f : TimeUnit → TimeUnit) (s : State) : (modTime f s).sqs = s.sqs := rfl
@[simp] theorem modTime_cqs (f : TimeUnit → TimeUnit) (s : State) : (modTime f s).cqs = s.cqs := rfl
@[simp] theorem modTime_sch (f : TimeUnit → TimeUnit) (s : State) : (modTime f s).sch = s.sch := rfl
@[simp] theorem modTime_reqs (f : TimeUnit → TimeUnit) (s : State) : (modTime f s).reqs = s.reqs := rfl
@[simp] theorem modTime_sent (f : TimeUnit → TimeUnit) (s : State) : (modTime f s).sent = s.sent := rfl
@[simp] theorem modTime_tiles (f : TimeUnit → TimeUnit) (s : State) : (modTime f s).tiles = s.tiles := rfl
@[simp] theorem modTime_css (f : TimeUnit → TimeUnit) (s : State) : (modTime f s).css = s.css := rfl
@[simp] theorem modTime_ces (f : TimeUnit → TimeUnit) (s : State) : (modTime f s).ces = s.ces := rfl
@[simp] theorem modTime_streams (f : TimeUnit → TimeUnit) (s : State) : (modTime f s).streams = s.streams := rfl
@[simp] theorem modTime_ks (f : TimeUnit → TimeUnit) (s : State) : (modTime f s).ks = s.ks := rfl
@[simp] theorem modTime_meas (f : TimeUnit → TimeUnit) (s : State) : (modTime f s).meas = s.meas := rfl
@[simp] theorem modTime_es (f : TimeUnit → TimeUnit) (s : State) : (modTime f s).es = s.es := rfl
@[simp] theorem modTime_rbgs (f : TimeUnit → TimeUnit) (s : State) : (modTime f s).rbgs = s.rbgs := rfl
@[simp] theorem modTime_dcs (f : TimeUnit → TimeUnit) (s : State) : (modTime f s).dcs = s.dcs := rfl
@[simp] theorem modTime_fp (f : TimeUnit → TimeUnit) (s : State) : (modTime f s).fp = s.fp := rfl
@[simp] theorem modTime_clk (f : TimeUnit → TimeUnit) (s : State) : (modTime f s).clk = s.clk := rfl
@[simp] theorem modTime_sup (f : TimeUnit → TimeUnit) (s : State) : (modTime f s).sup = s.sup := rfl
@[simp] theorem modTime_ret (f : TimeUnit → TimeUnit) (s : State) : (modTime f s).ret = s.ret := rfl
@[simp] theorem modTime_jrn (f : TimeUnit → TimeUnit) (s : State) : (modTime f s).jrn = s.jrn := rfl
@[simp] theorem modTime_evPend (f : TimeUnit → TimeUnit) (s : State) : (modTime f s).evPend = s.evPend := rfl
@[simp] theorem modTime_buserr (f : TimeUnit → TimeUnit) (s : State) : (modTime f s).buserr = s.buserr := rfl
@[simp] theorem modTime_becnt (f : TimeUnit → TimeUnit) (s : State) : (modTime f s).becnt = s.becnt := rfl
@[simp] theorem modTime_pviol (f : TimeUnit → TimeUnit) (s : State) : (modTime f s).pviol = s.pviol := rfl
@[simp] theorem modTime_pvcnt (f : TimeUnit → TimeUnit) (s : State) : (modTime f s).pvcnt = s.pvcnt := rfl
@[simp] theorem modTime_crs (f : TimeUnit → TimeUnit) (s : State) : (modTime f s).crs = s.crs := rfl
@[simp] theorem modTime_boot (f : TimeUnit → TimeUnit) (s : State) : (modTime f s).boot = s.boot := rfl
@[simp] theorem modTime_heldWr (f : TimeUnit → TimeUnit) (s : State) : (modTime f s).heldWr = s.heldWr := rfl
@[simp] theorem modTime_latch (f : TimeUnit → TimeUnit) (s : State) : (modTime f s).latch = s.latch := rfl
@[simp] theorem modTime_out (f : TimeUnit → TimeUnit) (s : State) : (modTime f s).out = s.out := rfl
@[simp] theorem modTime_free (f : TimeUnit → TimeUnit) (s : State) : (modTime f s).free = s.free := rfl
@[simp] theorem modTime_pending (f : TimeUnit → TimeUnit) (s : State) : (modTime f s).pending = s.pending := rfl
theorem modTime_time (f : TimeUnit → TimeUnit) (s : State) : (modTime f s).time = f s.time := rfl
@[simp] theorem modTime_ten (f : TimeUnit → TimeUnit) (s : State) (k : Nat) : (modTime f s).ten k = s.ten k := rfl
@[simp] theorem modTime_sq (f : TimeUnit → TimeUnit) (s : State) (a b : Nat) : (modTime f s).sq a b = s.sq a b := rfl
@[simp] theorem modTime_cq (f : TimeUnit → TimeUnit) (s : State) (a b : Nat) : (modTime f s).cq a b = s.cq a b := rfl
@[simp] theorem modTime_dc (f : TimeUnit → TimeUnit) (s : State) (k : Nat) : (modTime f s).dc k = s.dc k := rfl
@[simp] theorem modTime_tile (f : TimeUnit → TimeUnit) (s : State) (k : Nat) : (modTime f s).tile k = s.tile k := rfl
@[simp] theorem modTime_csSt (f : TimeUnit → TimeUnit) (s : State) (k : Nat) : (modTime f s).csSt k = s.csSt k := rfl
@[simp] theorem modTime_slot (f : TimeUnit → TimeUnit) (s : State) (k : Nat) : (modTime f s).slot k = s.slot k := rfl
@[simp] theorem modTime_rbg (f : TimeUnit → TimeUnit) (s : State) (k : Nat) : (modTime f s).rbg k = s.rbg k := rfl
@[simp] theorem modTime_stream (f : TimeUnit → TimeUnit) (s : State) (k : Nat) : (modTime f s).stream k = s.stream k := rfl
@[simp] theorem modTime_cacheEnt (f : TimeUnit → TimeUnit) (s : State) (k : Nat) : (modTime f s).cacheEnt k = s.cacheEnt k := rfl
@[simp] theorem modTime_peer (f : TimeUnit → TimeUnit) (s : State) (k : Nat) : (modTime f s).peer k = s.peer k := rfl
@[simp] theorem modTime_tcmp (f : TimeUnit → TimeUnit) (s : State) (k : Nat) : (modTime f s).tcmp k = s.tcmp k := rfl
@[simp] theorem modTime_req (f : TimeUnit → TimeUnit) (s : State) (k : Nat) : (modTime f s).req k = s.req k := rfl

@[simp] theorem modClk_start (f : Clocks → Clocks) (s : State) : (modClk f s).start = s.start := rfl
@[simp] theorem modClk_roots (f : Clocks → Clocks) (s : State) : (modClk f s).roots = s.roots := rfl
@[simp] theorem modClk_ident (f : Clocks → Clocks) (s : State) : (modClk f s).ident = s.ident := rfl
@[simp] theorem modClk_owner (f : Clocks → Clocks) (s : State) : (modClk f s).owner = s.owner := rfl
@[simp] theorem modClk_denied (f : Clocks → Clocks) (s : State) : (modClk f s).denied = s.denied := rfl
@[simp] theorem modClk_own (f : Clocks → Clocks) (s : State) : (modClk f s).own = s.own := rfl
@[simp] theorem modClk_gen (f : Clocks → Clocks) (s : State) : (modClk f s).gen = s.gen := rfl
@[simp] theorem modClk_tens (f : Clocks → Clocks) (s : State) : (modClk f s).tens = s.tens := rfl
@[simp] theorem modClk_sqs (f : Clocks → Clocks) (s : State) : (modClk f s).sqs = s.sqs := rfl
@[simp] theorem modClk_cqs (f : Clocks → Clocks) (s : State) : (modClk f s).cqs = s.cqs := rfl
@[simp] theorem modClk_sch (f : Clocks → Clocks) (s : State) : (modClk f s).sch = s.sch := rfl
@[simp] theorem modClk_reqs (f : Clocks → Clocks) (s : State) : (modClk f s).reqs = s.reqs := rfl
@[simp] theorem modClk_sent (f : Clocks → Clocks) (s : State) : (modClk f s).sent = s.sent := rfl
@[simp] theorem modClk_tiles (f : Clocks → Clocks) (s : State) : (modClk f s).tiles = s.tiles := rfl
@[simp] theorem modClk_css (f : Clocks → Clocks) (s : State) : (modClk f s).css = s.css := rfl
@[simp] theorem modClk_ces (f : Clocks → Clocks) (s : State) : (modClk f s).ces = s.ces := rfl
@[simp] theorem modClk_streams (f : Clocks → Clocks) (s : State) : (modClk f s).streams = s.streams := rfl
@[simp] theorem modClk_ks (f : Clocks → Clocks) (s : State) : (modClk f s).ks = s.ks := rfl
@[simp] theorem modClk_meas (f : Clocks → Clocks) (s : State) : (modClk f s).meas = s.meas := rfl
@[simp] theorem modClk_es (f : Clocks → Clocks) (s : State) : (modClk f s).es = s.es := rfl
@[simp] theorem modClk_rbgs (f : Clocks → Clocks) (s : State) : (modClk f s).rbgs = s.rbgs := rfl
@[simp] theorem modClk_dcs (f : Clocks → Clocks) (s : State) : (modClk f s).dcs = s.dcs := rfl
@[simp] theorem modClk_fp (f : Clocks → Clocks) (s : State) : (modClk f s).fp = s.fp := rfl
@[simp] theorem modClk_time (f : Clocks → Clocks) (s : State) : (modClk f s).time = s.time := rfl
@[simp] theorem modClk_sup (f : Clocks → Clocks) (s : State) : (modClk f s).sup = s.sup := rfl
@[simp] theorem modClk_ret (f : Clocks → Clocks) (s : State) : (modClk f s).ret = s.ret := rfl
@[simp] theorem modClk_jrn (f : Clocks → Clocks) (s : State) : (modClk f s).jrn = s.jrn := rfl
@[simp] theorem modClk_evPend (f : Clocks → Clocks) (s : State) : (modClk f s).evPend = s.evPend := rfl
@[simp] theorem modClk_buserr (f : Clocks → Clocks) (s : State) : (modClk f s).buserr = s.buserr := rfl
@[simp] theorem modClk_becnt (f : Clocks → Clocks) (s : State) : (modClk f s).becnt = s.becnt := rfl
@[simp] theorem modClk_pviol (f : Clocks → Clocks) (s : State) : (modClk f s).pviol = s.pviol := rfl
@[simp] theorem modClk_pvcnt (f : Clocks → Clocks) (s : State) : (modClk f s).pvcnt = s.pvcnt := rfl
@[simp] theorem modClk_crs (f : Clocks → Clocks) (s : State) : (modClk f s).crs = s.crs := rfl
@[simp] theorem modClk_boot (f : Clocks → Clocks) (s : State) : (modClk f s).boot = s.boot := rfl
@[simp] theorem modClk_heldWr (f : Clocks → Clocks) (s : State) : (modClk f s).heldWr = s.heldWr := rfl
@[simp] theorem modClk_latch (f : Clocks → Clocks) (s : State) : (modClk f s).latch = s.latch := rfl
@[simp] theorem modClk_out (f : Clocks → Clocks) (s : State) : (modClk f s).out = s.out := rfl
@[simp] theorem modClk_free (f : Clocks → Clocks) (s : State) : (modClk f s).free = s.free := rfl
@[simp] theorem modClk_pending (f : Clocks → Clocks) (s : State) : (modClk f s).pending = s.pending := rfl
theorem modClk_clk (f : Clocks → Clocks) (s : State) : (modClk f s).clk = f s.clk := rfl
@[simp] theorem modClk_ten (f : Clocks → Clocks) (s : State) (k : Nat) : (modClk f s).ten k = s.ten k := rfl
@[simp] theorem modClk_sq (f : Clocks → Clocks) (s : State) (a b : Nat) : (modClk f s).sq a b = s.sq a b := rfl
@[simp] theorem modClk_cq (f : Clocks → Clocks) (s : State) (a b : Nat) : (modClk f s).cq a b = s.cq a b := rfl
@[simp] theorem modClk_dc (f : Clocks → Clocks) (s : State) (k : Nat) : (modClk f s).dc k = s.dc k := rfl
@[simp] theorem modClk_tile (f : Clocks → Clocks) (s : State) (k : Nat) : (modClk f s).tile k = s.tile k := rfl
@[simp] theorem modClk_csSt (f : Clocks → Clocks) (s : State) (k : Nat) : (modClk f s).csSt k = s.csSt k := rfl
@[simp] theorem modClk_slot (f : Clocks → Clocks) (s : State) (k : Nat) : (modClk f s).slot k = s.slot k := rfl
@[simp] theorem modClk_rbg (f : Clocks → Clocks) (s : State) (k : Nat) : (modClk f s).rbg k = s.rbg k := rfl
@[simp] theorem modClk_stream (f : Clocks → Clocks) (s : State) (k : Nat) : (modClk f s).stream k = s.stream k := rfl
@[simp] theorem modClk_cacheEnt (f : Clocks → Clocks) (s : State) (k : Nat) : (modClk f s).cacheEnt k = s.cacheEnt k := rfl
@[simp] theorem modClk_peer (f : Clocks → Clocks) (s : State) (k : Nat) : (modClk f s).peer k = s.peer k := rfl
@[simp] theorem modClk_tcmp (f : Clocks → Clocks) (s : State) (k : Nat) : (modClk f s).tcmp k = s.tcmp k := rfl
@[simp] theorem modClk_req (f : Clocks → Clocks) (s : State) (k : Nat) : (modClk f s).req k = s.req k := rfl

@[simp] theorem modStart_roots (f : Start → Start) (s : State) : (modStart f s).roots = s.roots := rfl
@[simp] theorem modStart_ident (f : Start → Start) (s : State) : (modStart f s).ident = s.ident := rfl
@[simp] theorem modStart_owner (f : Start → Start) (s : State) : (modStart f s).owner = s.owner := rfl
@[simp] theorem modStart_denied (f : Start → Start) (s : State) : (modStart f s).denied = s.denied := rfl
@[simp] theorem modStart_own (f : Start → Start) (s : State) : (modStart f s).own = s.own := rfl
@[simp] theorem modStart_gen (f : Start → Start) (s : State) : (modStart f s).gen = s.gen := rfl
@[simp] theorem modStart_tens (f : Start → Start) (s : State) : (modStart f s).tens = s.tens := rfl
@[simp] theorem modStart_sqs (f : Start → Start) (s : State) : (modStart f s).sqs = s.sqs := rfl
@[simp] theorem modStart_cqs (f : Start → Start) (s : State) : (modStart f s).cqs = s.cqs := rfl
@[simp] theorem modStart_sch (f : Start → Start) (s : State) : (modStart f s).sch = s.sch := rfl
@[simp] theorem modStart_reqs (f : Start → Start) (s : State) : (modStart f s).reqs = s.reqs := rfl
@[simp] theorem modStart_sent (f : Start → Start) (s : State) : (modStart f s).sent = s.sent := rfl
@[simp] theorem modStart_tiles (f : Start → Start) (s : State) : (modStart f s).tiles = s.tiles := rfl
@[simp] theorem modStart_css (f : Start → Start) (s : State) : (modStart f s).css = s.css := rfl
@[simp] theorem modStart_ces (f : Start → Start) (s : State) : (modStart f s).ces = s.ces := rfl
@[simp] theorem modStart_streams (f : Start → Start) (s : State) : (modStart f s).streams = s.streams := rfl
@[simp] theorem modStart_ks (f : Start → Start) (s : State) : (modStart f s).ks = s.ks := rfl
@[simp] theorem modStart_meas (f : Start → Start) (s : State) : (modStart f s).meas = s.meas := rfl
@[simp] theorem modStart_es (f : Start → Start) (s : State) : (modStart f s).es = s.es := rfl
@[simp] theorem modStart_rbgs (f : Start → Start) (s : State) : (modStart f s).rbgs = s.rbgs := rfl
@[simp] theorem modStart_dcs (f : Start → Start) (s : State) : (modStart f s).dcs = s.dcs := rfl
@[simp] theorem modStart_fp (f : Start → Start) (s : State) : (modStart f s).fp = s.fp := rfl
@[simp] theorem modStart_time (f : Start → Start) (s : State) : (modStart f s).time = s.time := rfl
@[simp] theorem modStart_clk (f : Start → Start) (s : State) : (modStart f s).clk = s.clk := rfl
@[simp] theorem modStart_sup (f : Start → Start) (s : State) : (modStart f s).sup = s.sup := rfl
@[simp] theorem modStart_ret (f : Start → Start) (s : State) : (modStart f s).ret = s.ret := rfl
@[simp] theorem modStart_jrn (f : Start → Start) (s : State) : (modStart f s).jrn = s.jrn := rfl
@[simp] theorem modStart_evPend (f : Start → Start) (s : State) : (modStart f s).evPend = s.evPend := rfl
@[simp] theorem modStart_buserr (f : Start → Start) (s : State) : (modStart f s).buserr = s.buserr := rfl
@[simp] theorem modStart_becnt (f : Start → Start) (s : State) : (modStart f s).becnt = s.becnt := rfl
@[simp] theorem modStart_pviol (f : Start → Start) (s : State) : (modStart f s).pviol = s.pviol := rfl
@[simp] theorem modStart_pvcnt (f : Start → Start) (s : State) : (modStart f s).pvcnt = s.pvcnt := rfl
@[simp] theorem modStart_crs (f : Start → Start) (s : State) : (modStart f s).crs = s.crs := rfl
@[simp] theorem modStart_boot (f : Start → Start) (s : State) : (modStart f s).boot = s.boot := rfl
@[simp] theorem modStart_heldWr (f : Start → Start) (s : State) : (modStart f s).heldWr = s.heldWr := rfl
@[simp] theorem modStart_latch (f : Start → Start) (s : State) : (modStart f s).latch = s.latch := rfl
@[simp] theorem modStart_out (f : Start → Start) (s : State) : (modStart f s).out = s.out := rfl
@[simp] theorem modStart_free (f : Start → Start) (s : State) : (modStart f s).free = s.free := rfl
@[simp] theorem modStart_pending (f : Start → Start) (s : State) : (modStart f s).pending = s.pending := rfl
theorem modStart_start (f : Start → Start) (s : State) : (modStart f s).start = f s.start := rfl
@[simp] theorem modStart_ten (f : Start → Start) (s : State) (k : Nat) : (modStart f s).ten k = s.ten k := rfl
@[simp] theorem modStart_sq (f : Start → Start) (s : State) (a b : Nat) : (modStart f s).sq a b = s.sq a b := rfl
@[simp] theorem modStart_cq (f : Start → Start) (s : State) (a b : Nat) : (modStart f s).cq a b = s.cq a b := rfl
@[simp] theorem modStart_dc (f : Start → Start) (s : State) (k : Nat) : (modStart f s).dc k = s.dc k := rfl
@[simp] theorem modStart_tile (f : Start → Start) (s : State) (k : Nat) : (modStart f s).tile k = s.tile k := rfl
@[simp] theorem modStart_csSt (f : Start → Start) (s : State) (k : Nat) : (modStart f s).csSt k = s.csSt k := rfl
@[simp] theorem modStart_slot (f : Start → Start) (s : State) (k : Nat) : (modStart f s).slot k = s.slot k := rfl
@[simp] theorem modStart_rbg (f : Start → Start) (s : State) (k : Nat) : (modStart f s).rbg k = s.rbg k := rfl
@[simp] theorem modStart_stream (f : Start → Start) (s : State) (k : Nat) : (modStart f s).stream k = s.stream k := rfl
@[simp] theorem modStart_cacheEnt (f : Start → Start) (s : State) (k : Nat) : (modStart f s).cacheEnt k = s.cacheEnt k := rfl
@[simp] theorem modStart_peer (f : Start → Start) (s : State) (k : Nat) : (modStart f s).peer k = s.peer k := rfl
@[simp] theorem modStart_tcmp (f : Start → Start) (s : State) (k : Nat) : (modStart f s).tcmp k = s.tcmp k := rfl
@[simp] theorem modStart_req (f : Start → Start) (s : State) (k : Nat) : (modStart f s).req k = s.req k := rfl

@[simp] theorem modOwner_start (f : Owner → Owner) (s : State) : (modOwner f s).start = s.start := rfl
@[simp] theorem modOwner_roots (f : Owner → Owner) (s : State) : (modOwner f s).roots = s.roots := rfl
@[simp] theorem modOwner_ident (f : Owner → Owner) (s : State) : (modOwner f s).ident = s.ident := rfl
@[simp] theorem modOwner_denied (f : Owner → Owner) (s : State) : (modOwner f s).denied = s.denied := rfl
@[simp] theorem modOwner_own (f : Owner → Owner) (s : State) : (modOwner f s).own = s.own := rfl
@[simp] theorem modOwner_gen (f : Owner → Owner) (s : State) : (modOwner f s).gen = s.gen := rfl
@[simp] theorem modOwner_tens (f : Owner → Owner) (s : State) : (modOwner f s).tens = s.tens := rfl
@[simp] theorem modOwner_sqs (f : Owner → Owner) (s : State) : (modOwner f s).sqs = s.sqs := rfl
@[simp] theorem modOwner_cqs (f : Owner → Owner) (s : State) : (modOwner f s).cqs = s.cqs := rfl
@[simp] theorem modOwner_sch (f : Owner → Owner) (s : State) : (modOwner f s).sch = s.sch := rfl
@[simp] theorem modOwner_reqs (f : Owner → Owner) (s : State) : (modOwner f s).reqs = s.reqs := rfl
@[simp] theorem modOwner_sent (f : Owner → Owner) (s : State) : (modOwner f s).sent = s.sent := rfl
@[simp] theorem modOwner_tiles (f : Owner → Owner) (s : State) : (modOwner f s).tiles = s.tiles := rfl
@[simp] theorem modOwner_css (f : Owner → Owner) (s : State) : (modOwner f s).css = s.css := rfl
@[simp] theorem modOwner_ces (f : Owner → Owner) (s : State) : (modOwner f s).ces = s.ces := rfl
@[simp] theorem modOwner_streams (f : Owner → Owner) (s : State) : (modOwner f s).streams = s.streams := rfl
@[simp] theorem modOwner_ks (f : Owner → Owner) (s : State) : (modOwner f s).ks = s.ks := rfl
@[simp] theorem modOwner_meas (f : Owner → Owner) (s : State) : (modOwner f s).meas = s.meas := rfl
@[simp] theorem modOwner_es (f : Owner → Owner) (s : State) : (modOwner f s).es = s.es := rfl
@[simp] theorem modOwner_rbgs (f : Owner → Owner) (s : State) : (modOwner f s).rbgs = s.rbgs := rfl
@[simp] theorem modOwner_dcs (f : Owner → Owner) (s : State) : (modOwner f s).dcs = s.dcs := rfl
@[simp] theorem modOwner_fp (f : Owner → Owner) (s : State) : (modOwner f s).fp = s.fp := rfl
@[simp] theorem modOwner_time (f : Owner → Owner) (s : State) : (modOwner f s).time = s.time := rfl
@[simp] theorem modOwner_clk (f : Owner → Owner) (s : State) : (modOwner f s).clk = s.clk := rfl
@[simp] theorem modOwner_sup (f : Owner → Owner) (s : State) : (modOwner f s).sup = s.sup := rfl
@[simp] theorem modOwner_ret (f : Owner → Owner) (s : State) : (modOwner f s).ret = s.ret := rfl
@[simp] theorem modOwner_jrn (f : Owner → Owner) (s : State) : (modOwner f s).jrn = s.jrn := rfl
@[simp] theorem modOwner_evPend (f : Owner → Owner) (s : State) : (modOwner f s).evPend = s.evPend := rfl
@[simp] theorem modOwner_buserr (f : Owner → Owner) (s : State) : (modOwner f s).buserr = s.buserr := rfl
@[simp] theorem modOwner_becnt (f : Owner → Owner) (s : State) : (modOwner f s).becnt = s.becnt := rfl
@[simp] theorem modOwner_pviol (f : Owner → Owner) (s : State) : (modOwner f s).pviol = s.pviol := rfl
@[simp] theorem modOwner_pvcnt (f : Owner → Owner) (s : State) : (modOwner f s).pvcnt = s.pvcnt := rfl
@[simp] theorem modOwner_crs (f : Owner → Owner) (s : State) : (modOwner f s).crs = s.crs := rfl
@[simp] theorem modOwner_boot (f : Owner → Owner) (s : State) : (modOwner f s).boot = s.boot := rfl
@[simp] theorem modOwner_heldWr (f : Owner → Owner) (s : State) : (modOwner f s).heldWr = s.heldWr := rfl
@[simp] theorem modOwner_latch (f : Owner → Owner) (s : State) : (modOwner f s).latch = s.latch := rfl
@[simp] theorem modOwner_out (f : Owner → Owner) (s : State) : (modOwner f s).out = s.out := rfl
@[simp] theorem modOwner_free (f : Owner → Owner) (s : State) : (modOwner f s).free = s.free := rfl
@[simp] theorem modOwner_pending (f : Owner → Owner) (s : State) : (modOwner f s).pending = s.pending := rfl
theorem modOwner_owner (f : Owner → Owner) (s : State) : (modOwner f s).owner = f s.owner := rfl
@[simp] theorem modOwner_ten (f : Owner → Owner) (s : State) (k : Nat) : (modOwner f s).ten k = s.ten k := rfl
@[simp] theorem modOwner_sq (f : Owner → Owner) (s : State) (a b : Nat) : (modOwner f s).sq a b = s.sq a b := rfl
@[simp] theorem modOwner_cq (f : Owner → Owner) (s : State) (a b : Nat) : (modOwner f s).cq a b = s.cq a b := rfl
@[simp] theorem modOwner_dc (f : Owner → Owner) (s : State) (k : Nat) : (modOwner f s).dc k = s.dc k := rfl
@[simp] theorem modOwner_tile (f : Owner → Owner) (s : State) (k : Nat) : (modOwner f s).tile k = s.tile k := rfl
@[simp] theorem modOwner_csSt (f : Owner → Owner) (s : State) (k : Nat) : (modOwner f s).csSt k = s.csSt k := rfl
@[simp] theorem modOwner_slot (f : Owner → Owner) (s : State) (k : Nat) : (modOwner f s).slot k = s.slot k := rfl
@[simp] theorem modOwner_rbg (f : Owner → Owner) (s : State) (k : Nat) : (modOwner f s).rbg k = s.rbg k := rfl
@[simp] theorem modOwner_stream (f : Owner → Owner) (s : State) (k : Nat) : (modOwner f s).stream k = s.stream k := rfl
@[simp] theorem modOwner_cacheEnt (f : Owner → Owner) (s : State) (k : Nat) : (modOwner f s).cacheEnt k = s.cacheEnt k := rfl
@[simp] theorem modOwner_peer (f : Owner → Owner) (s : State) (k : Nat) : (modOwner f s).peer k = s.peer k := rfl
@[simp] theorem modOwner_tcmp (f : Owner → Owner) (s : State) (k : Nat) : (modOwner f s).tcmp k = s.tcmp k := rfl
@[simp] theorem modOwner_req (f : Owner → Owner) (s : State) (k : Nat) : (modOwner f s).req k = s.req k := rfl

@[simp] theorem modMeas_start (f : Meas → Meas) (s : State) : (modMeas f s).start = s.start := rfl
@[simp] theorem modMeas_roots (f : Meas → Meas) (s : State) : (modMeas f s).roots = s.roots := rfl
@[simp] theorem modMeas_ident (f : Meas → Meas) (s : State) : (modMeas f s).ident = s.ident := rfl
@[simp] theorem modMeas_owner (f : Meas → Meas) (s : State) : (modMeas f s).owner = s.owner := rfl
@[simp] theorem modMeas_denied (f : Meas → Meas) (s : State) : (modMeas f s).denied = s.denied := rfl
@[simp] theorem modMeas_own (f : Meas → Meas) (s : State) : (modMeas f s).own = s.own := rfl
@[simp] theorem modMeas_gen (f : Meas → Meas) (s : State) : (modMeas f s).gen = s.gen := rfl
@[simp] theorem modMeas_tens (f : Meas → Meas) (s : State) : (modMeas f s).tens = s.tens := rfl
@[simp] theorem modMeas_sqs (f : Meas → Meas) (s : State) : (modMeas f s).sqs = s.sqs := rfl
@[simp] theorem modMeas_cqs (f : Meas → Meas) (s : State) : (modMeas f s).cqs = s.cqs := rfl
@[simp] theorem modMeas_sch (f : Meas → Meas) (s : State) : (modMeas f s).sch = s.sch := rfl
@[simp] theorem modMeas_reqs (f : Meas → Meas) (s : State) : (modMeas f s).reqs = s.reqs := rfl
@[simp] theorem modMeas_sent (f : Meas → Meas) (s : State) : (modMeas f s).sent = s.sent := rfl
@[simp] theorem modMeas_tiles (f : Meas → Meas) (s : State) : (modMeas f s).tiles = s.tiles := rfl
@[simp] theorem modMeas_css (f : Meas → Meas) (s : State) : (modMeas f s).css = s.css := rfl
@[simp] theorem modMeas_ces (f : Meas → Meas) (s : State) : (modMeas f s).ces = s.ces := rfl
@[simp] theorem modMeas_streams (f : Meas → Meas) (s : State) : (modMeas f s).streams = s.streams := rfl
@[simp] theorem modMeas_ks (f : Meas → Meas) (s : State) : (modMeas f s).ks = s.ks := rfl
@[simp] theorem modMeas_es (f : Meas → Meas) (s : State) : (modMeas f s).es = s.es := rfl
@[simp] theorem modMeas_rbgs (f : Meas → Meas) (s : State) : (modMeas f s).rbgs = s.rbgs := rfl
@[simp] theorem modMeas_dcs (f : Meas → Meas) (s : State) : (modMeas f s).dcs = s.dcs := rfl
@[simp] theorem modMeas_fp (f : Meas → Meas) (s : State) : (modMeas f s).fp = s.fp := rfl
@[simp] theorem modMeas_time (f : Meas → Meas) (s : State) : (modMeas f s).time = s.time := rfl
@[simp] theorem modMeas_clk (f : Meas → Meas) (s : State) : (modMeas f s).clk = s.clk := rfl
@[simp] theorem modMeas_sup (f : Meas → Meas) (s : State) : (modMeas f s).sup = s.sup := rfl
@[simp] theorem modMeas_ret (f : Meas → Meas) (s : State) : (modMeas f s).ret = s.ret := rfl
@[simp] theorem modMeas_jrn (f : Meas → Meas) (s : State) : (modMeas f s).jrn = s.jrn := rfl
@[simp] theorem modMeas_evPend (f : Meas → Meas) (s : State) : (modMeas f s).evPend = s.evPend := rfl
@[simp] theorem modMeas_buserr (f : Meas → Meas) (s : State) : (modMeas f s).buserr = s.buserr := rfl
@[simp] theorem modMeas_becnt (f : Meas → Meas) (s : State) : (modMeas f s).becnt = s.becnt := rfl
@[simp] theorem modMeas_pviol (f : Meas → Meas) (s : State) : (modMeas f s).pviol = s.pviol := rfl
@[simp] theorem modMeas_pvcnt (f : Meas → Meas) (s : State) : (modMeas f s).pvcnt = s.pvcnt := rfl
@[simp] theorem modMeas_crs (f : Meas → Meas) (s : State) : (modMeas f s).crs = s.crs := rfl
@[simp] theorem modMeas_boot (f : Meas → Meas) (s : State) : (modMeas f s).boot = s.boot := rfl
@[simp] theorem modMeas_heldWr (f : Meas → Meas) (s : State) : (modMeas f s).heldWr = s.heldWr := rfl
@[simp] theorem modMeas_latch (f : Meas → Meas) (s : State) : (modMeas f s).latch = s.latch := rfl
@[simp] theorem modMeas_out (f : Meas → Meas) (s : State) : (modMeas f s).out = s.out := rfl
@[simp] theorem modMeas_free (f : Meas → Meas) (s : State) : (modMeas f s).free = s.free := rfl
@[simp] theorem modMeas_pending (f : Meas → Meas) (s : State) : (modMeas f s).pending = s.pending := rfl
theorem modMeas_meas (f : Meas → Meas) (s : State) : (modMeas f s).meas = f s.meas := rfl
@[simp] theorem modMeas_ten (f : Meas → Meas) (s : State) (k : Nat) : (modMeas f s).ten k = s.ten k := rfl
@[simp] theorem modMeas_sq (f : Meas → Meas) (s : State) (a b : Nat) : (modMeas f s).sq a b = s.sq a b := rfl
@[simp] theorem modMeas_cq (f : Meas → Meas) (s : State) (a b : Nat) : (modMeas f s).cq a b = s.cq a b := rfl
@[simp] theorem modMeas_dc (f : Meas → Meas) (s : State) (k : Nat) : (modMeas f s).dc k = s.dc k := rfl
@[simp] theorem modMeas_tile (f : Meas → Meas) (s : State) (k : Nat) : (modMeas f s).tile k = s.tile k := rfl
@[simp] theorem modMeas_csSt (f : Meas → Meas) (s : State) (k : Nat) : (modMeas f s).csSt k = s.csSt k := rfl
@[simp] theorem modMeas_slot (f : Meas → Meas) (s : State) (k : Nat) : (modMeas f s).slot k = s.slot k := rfl
@[simp] theorem modMeas_rbg (f : Meas → Meas) (s : State) (k : Nat) : (modMeas f s).rbg k = s.rbg k := rfl
@[simp] theorem modMeas_stream (f : Meas → Meas) (s : State) (k : Nat) : (modMeas f s).stream k = s.stream k := rfl
@[simp] theorem modMeas_cacheEnt (f : Meas → Meas) (s : State) (k : Nat) : (modMeas f s).cacheEnt k = s.cacheEnt k := rfl
@[simp] theorem modMeas_peer (f : Meas → Meas) (s : State) (k : Nat) : (modMeas f s).peer k = s.peer k := rfl
@[simp] theorem modMeas_tcmp (f : Meas → Meas) (s : State) (k : Nat) : (modMeas f s).tcmp k = s.tcmp k := rfl
@[simp] theorem modMeas_req (f : Meas → Meas) (s : State) (k : Nat) : (modMeas f s).req k = s.req k := rfl

@[simp] theorem modEs_start (f : Entropy → Entropy) (s : State) : (modEs f s).start = s.start := rfl
@[simp] theorem modEs_roots (f : Entropy → Entropy) (s : State) : (modEs f s).roots = s.roots := rfl
@[simp] theorem modEs_ident (f : Entropy → Entropy) (s : State) : (modEs f s).ident = s.ident := rfl
@[simp] theorem modEs_owner (f : Entropy → Entropy) (s : State) : (modEs f s).owner = s.owner := rfl
@[simp] theorem modEs_denied (f : Entropy → Entropy) (s : State) : (modEs f s).denied = s.denied := rfl
@[simp] theorem modEs_own (f : Entropy → Entropy) (s : State) : (modEs f s).own = s.own := rfl
@[simp] theorem modEs_gen (f : Entropy → Entropy) (s : State) : (modEs f s).gen = s.gen := rfl
@[simp] theorem modEs_tens (f : Entropy → Entropy) (s : State) : (modEs f s).tens = s.tens := rfl
@[simp] theorem modEs_sqs (f : Entropy → Entropy) (s : State) : (modEs f s).sqs = s.sqs := rfl
@[simp] theorem modEs_cqs (f : Entropy → Entropy) (s : State) : (modEs f s).cqs = s.cqs := rfl
@[simp] theorem modEs_sch (f : Entropy → Entropy) (s : State) : (modEs f s).sch = s.sch := rfl
@[simp] theorem modEs_reqs (f : Entropy → Entropy) (s : State) : (modEs f s).reqs = s.reqs := rfl
@[simp] theorem modEs_sent (f : Entropy → Entropy) (s : State) : (modEs f s).sent = s.sent := rfl
@[simp] theorem modEs_tiles (f : Entropy → Entropy) (s : State) : (modEs f s).tiles = s.tiles := rfl
@[simp] theorem modEs_css (f : Entropy → Entropy) (s : State) : (modEs f s).css = s.css := rfl
@[simp] theorem modEs_ces (f : Entropy → Entropy) (s : State) : (modEs f s).ces = s.ces := rfl
@[simp] theorem modEs_streams (f : Entropy → Entropy) (s : State) : (modEs f s).streams = s.streams := rfl
@[simp] theorem modEs_ks (f : Entropy → Entropy) (s : State) : (modEs f s).ks = s.ks := rfl
@[simp] theorem modEs_meas (f : Entropy → Entropy) (s : State) : (modEs f s).meas = s.meas := rfl
@[simp] theorem modEs_rbgs (f : Entropy → Entropy) (s : State) : (modEs f s).rbgs = s.rbgs := rfl
@[simp] theorem modEs_dcs (f : Entropy → Entropy) (s : State) : (modEs f s).dcs = s.dcs := rfl
@[simp] theorem modEs_fp (f : Entropy → Entropy) (s : State) : (modEs f s).fp = s.fp := rfl
@[simp] theorem modEs_time (f : Entropy → Entropy) (s : State) : (modEs f s).time = s.time := rfl
@[simp] theorem modEs_clk (f : Entropy → Entropy) (s : State) : (modEs f s).clk = s.clk := rfl
@[simp] theorem modEs_sup (f : Entropy → Entropy) (s : State) : (modEs f s).sup = s.sup := rfl
@[simp] theorem modEs_ret (f : Entropy → Entropy) (s : State) : (modEs f s).ret = s.ret := rfl
@[simp] theorem modEs_jrn (f : Entropy → Entropy) (s : State) : (modEs f s).jrn = s.jrn := rfl
@[simp] theorem modEs_evPend (f : Entropy → Entropy) (s : State) : (modEs f s).evPend = s.evPend := rfl
@[simp] theorem modEs_buserr (f : Entropy → Entropy) (s : State) : (modEs f s).buserr = s.buserr := rfl
@[simp] theorem modEs_becnt (f : Entropy → Entropy) (s : State) : (modEs f s).becnt = s.becnt := rfl
@[simp] theorem modEs_pviol (f : Entropy → Entropy) (s : State) : (modEs f s).pviol = s.pviol := rfl
@[simp] theorem modEs_pvcnt (f : Entropy → Entropy) (s : State) : (modEs f s).pvcnt = s.pvcnt := rfl
@[simp] theorem modEs_crs (f : Entropy → Entropy) (s : State) : (modEs f s).crs = s.crs := rfl
@[simp] theorem modEs_boot (f : Entropy → Entropy) (s : State) : (modEs f s).boot = s.boot := rfl
@[simp] theorem modEs_heldWr (f : Entropy → Entropy) (s : State) : (modEs f s).heldWr = s.heldWr := rfl
@[simp] theorem modEs_latch (f : Entropy → Entropy) (s : State) : (modEs f s).latch = s.latch := rfl
@[simp] theorem modEs_out (f : Entropy → Entropy) (s : State) : (modEs f s).out = s.out := rfl
@[simp] theorem modEs_free (f : Entropy → Entropy) (s : State) : (modEs f s).free = s.free := rfl
@[simp] theorem modEs_pending (f : Entropy → Entropy) (s : State) : (modEs f s).pending = s.pending := rfl
theorem modEs_es (f : Entropy → Entropy) (s : State) : (modEs f s).es = f s.es := rfl
@[simp] theorem modEs_ten (f : Entropy → Entropy) (s : State) (k : Nat) : (modEs f s).ten k = s.ten k := rfl
@[simp] theorem modEs_sq (f : Entropy → Entropy) (s : State) (a b : Nat) : (modEs f s).sq a b = s.sq a b := rfl
@[simp] theorem modEs_cq (f : Entropy → Entropy) (s : State) (a b : Nat) : (modEs f s).cq a b = s.cq a b := rfl
@[simp] theorem modEs_dc (f : Entropy → Entropy) (s : State) (k : Nat) : (modEs f s).dc k = s.dc k := rfl
@[simp] theorem modEs_tile (f : Entropy → Entropy) (s : State) (k : Nat) : (modEs f s).tile k = s.tile k := rfl
@[simp] theorem modEs_csSt (f : Entropy → Entropy) (s : State) (k : Nat) : (modEs f s).csSt k = s.csSt k := rfl
@[simp] theorem modEs_slot (f : Entropy → Entropy) (s : State) (k : Nat) : (modEs f s).slot k = s.slot k := rfl
@[simp] theorem modEs_rbg (f : Entropy → Entropy) (s : State) (k : Nat) : (modEs f s).rbg k = s.rbg k := rfl
@[simp] theorem modEs_stream (f : Entropy → Entropy) (s : State) (k : Nat) : (modEs f s).stream k = s.stream k := rfl
@[simp] theorem modEs_cacheEnt (f : Entropy → Entropy) (s : State) (k : Nat) : (modEs f s).cacheEnt k = s.cacheEnt k := rfl
@[simp] theorem modEs_peer (f : Entropy → Entropy) (s : State) (k : Nat) : (modEs f s).peer k = s.peer k := rfl
@[simp] theorem modEs_tcmp (f : Entropy → Entropy) (s : State) (k : Nat) : (modEs f s).tcmp k = s.tcmp k := rfl
@[simp] theorem modEs_req (f : Entropy → Entropy) (s : State) (k : Nat) : (modEs f s).req k = s.req k := rfl

@[simp] theorem modBoot_start (f : Boot → Boot) (s : State) : (modBoot f s).start = s.start := rfl
@[simp] theorem modBoot_roots (f : Boot → Boot) (s : State) : (modBoot f s).roots = s.roots := rfl
@[simp] theorem modBoot_ident (f : Boot → Boot) (s : State) : (modBoot f s).ident = s.ident := rfl
@[simp] theorem modBoot_owner (f : Boot → Boot) (s : State) : (modBoot f s).owner = s.owner := rfl
@[simp] theorem modBoot_denied (f : Boot → Boot) (s : State) : (modBoot f s).denied = s.denied := rfl
@[simp] theorem modBoot_own (f : Boot → Boot) (s : State) : (modBoot f s).own = s.own := rfl
@[simp] theorem modBoot_gen (f : Boot → Boot) (s : State) : (modBoot f s).gen = s.gen := rfl
@[simp] theorem modBoot_tens (f : Boot → Boot) (s : State) : (modBoot f s).tens = s.tens := rfl
@[simp] theorem modBoot_sqs (f : Boot → Boot) (s : State) : (modBoot f s).sqs = s.sqs := rfl
@[simp] theorem modBoot_cqs (f : Boot → Boot) (s : State) : (modBoot f s).cqs = s.cqs := rfl
@[simp] theorem modBoot_sch (f : Boot → Boot) (s : State) : (modBoot f s).sch = s.sch := rfl
@[simp] theorem modBoot_reqs (f : Boot → Boot) (s : State) : (modBoot f s).reqs = s.reqs := rfl
@[simp] theorem modBoot_sent (f : Boot → Boot) (s : State) : (modBoot f s).sent = s.sent := rfl
@[simp] theorem modBoot_tiles (f : Boot → Boot) (s : State) : (modBoot f s).tiles = s.tiles := rfl
@[simp] theorem modBoot_css (f : Boot → Boot) (s : State) : (modBoot f s).css = s.css := rfl
@[simp] theorem modBoot_ces (f : Boot → Boot) (s : State) : (modBoot f s).ces = s.ces := rfl
@[simp] theorem modBoot_streams (f : Boot → Boot) (s : State) : (modBoot f s).streams = s.streams := rfl
@[simp] theorem modBoot_ks (f : Boot → Boot) (s : State) : (modBoot f s).ks = s.ks := rfl
@[simp] theorem modBoot_meas (f : Boot → Boot) (s : State) : (modBoot f s).meas = s.meas := rfl
@[simp] theorem modBoot_es (f : Boot → Boot) (s : State) : (modBoot f s).es = s.es := rfl
@[simp] theorem modBoot_rbgs (f : Boot → Boot) (s : State) : (modBoot f s).rbgs = s.rbgs := rfl
@[simp] theorem modBoot_dcs (f : Boot → Boot) (s : State) : (modBoot f s).dcs = s.dcs := rfl
@[simp] theorem modBoot_fp (f : Boot → Boot) (s : State) : (modBoot f s).fp = s.fp := rfl
@[simp] theorem modBoot_time (f : Boot → Boot) (s : State) : (modBoot f s).time = s.time := rfl
@[simp] theorem modBoot_clk (f : Boot → Boot) (s : State) : (modBoot f s).clk = s.clk := rfl
@[simp] theorem modBoot_sup (f : Boot → Boot) (s : State) : (modBoot f s).sup = s.sup := rfl
@[simp] theorem modBoot_ret (f : Boot → Boot) (s : State) : (modBoot f s).ret = s.ret := rfl
@[simp] theorem modBoot_jrn (f : Boot → Boot) (s : State) : (modBoot f s).jrn = s.jrn := rfl
@[simp] theorem modBoot_evPend (f : Boot → Boot) (s : State) : (modBoot f s).evPend = s.evPend := rfl
@[simp] theorem modBoot_buserr (f : Boot → Boot) (s : State) : (modBoot f s).buserr = s.buserr := rfl
@[simp] theorem modBoot_becnt (f : Boot → Boot) (s : State) : (modBoot f s).becnt = s.becnt := rfl
@[simp] theorem modBoot_pviol (f : Boot → Boot) (s : State) : (modBoot f s).pviol = s.pviol := rfl
@[simp] theorem modBoot_pvcnt (f : Boot → Boot) (s : State) : (modBoot f s).pvcnt = s.pvcnt := rfl
@[simp] theorem modBoot_crs (f : Boot → Boot) (s : State) : (modBoot f s).crs = s.crs := rfl
@[simp] theorem modBoot_heldWr (f : Boot → Boot) (s : State) : (modBoot f s).heldWr = s.heldWr := rfl
@[simp] theorem modBoot_latch (f : Boot → Boot) (s : State) : (modBoot f s).latch = s.latch := rfl
@[simp] theorem modBoot_out (f : Boot → Boot) (s : State) : (modBoot f s).out = s.out := rfl
@[simp] theorem modBoot_free (f : Boot → Boot) (s : State) : (modBoot f s).free = s.free := rfl
@[simp] theorem modBoot_pending (f : Boot → Boot) (s : State) : (modBoot f s).pending = s.pending := rfl
theorem modBoot_boot (f : Boot → Boot) (s : State) : (modBoot f s).boot = f s.boot := rfl
@[simp] theorem modBoot_ten (f : Boot → Boot) (s : State) (k : Nat) : (modBoot f s).ten k = s.ten k := rfl
@[simp] theorem modBoot_sq (f : Boot → Boot) (s : State) (a b : Nat) : (modBoot f s).sq a b = s.sq a b := rfl
@[simp] theorem modBoot_cq (f : Boot → Boot) (s : State) (a b : Nat) : (modBoot f s).cq a b = s.cq a b := rfl
@[simp] theorem modBoot_dc (f : Boot → Boot) (s : State) (k : Nat) : (modBoot f s).dc k = s.dc k := rfl
@[simp] theorem modBoot_tile (f : Boot → Boot) (s : State) (k : Nat) : (modBoot f s).tile k = s.tile k := rfl
@[simp] theorem modBoot_csSt (f : Boot → Boot) (s : State) (k : Nat) : (modBoot f s).csSt k = s.csSt k := rfl
@[simp] theorem modBoot_slot (f : Boot → Boot) (s : State) (k : Nat) : (modBoot f s).slot k = s.slot k := rfl
@[simp] theorem modBoot_rbg (f : Boot → Boot) (s : State) (k : Nat) : (modBoot f s).rbg k = s.rbg k := rfl
@[simp] theorem modBoot_stream (f : Boot → Boot) (s : State) (k : Nat) : (modBoot f s).stream k = s.stream k := rfl
@[simp] theorem modBoot_cacheEnt (f : Boot → Boot) (s : State) (k : Nat) : (modBoot f s).cacheEnt k = s.cacheEnt k := rfl
@[simp] theorem modBoot_peer (f : Boot → Boot) (s : State) (k : Nat) : (modBoot f s).peer k = s.peer k := rfl
@[simp] theorem modBoot_tcmp (f : Boot → Boot) (s : State) (k : Nat) : (modBoot f s).tcmp k = s.tcmp k := rfl
@[simp] theorem modBoot_req (f : Boot → Boot) (s : State) (k : Nat) : (modBoot f s).req k = s.req k := rfl

@[simp] theorem modFp_start (f : FramePort → FramePort) (s : State) : (modFp f s).start = s.start := rfl
@[simp] theorem modFp_roots (f : FramePort → FramePort) (s : State) : (modFp f s).roots = s.roots := rfl
@[simp] theorem modFp_ident (f : FramePort → FramePort) (s : State) : (modFp f s).ident = s.ident := rfl
@[simp] theorem modFp_owner (f : FramePort → FramePort) (s : State) : (modFp f s).owner = s.owner := rfl
@[simp] theorem modFp_denied (f : FramePort → FramePort) (s : State) : (modFp f s).denied = s.denied := rfl
@[simp] theorem modFp_own (f : FramePort → FramePort) (s : State) : (modFp f s).own = s.own := rfl
@[simp] theorem modFp_gen (f : FramePort → FramePort) (s : State) : (modFp f s).gen = s.gen := rfl
@[simp] theorem modFp_tens (f : FramePort → FramePort) (s : State) : (modFp f s).tens = s.tens := rfl
@[simp] theorem modFp_sqs (f : FramePort → FramePort) (s : State) : (modFp f s).sqs = s.sqs := rfl
@[simp] theorem modFp_cqs (f : FramePort → FramePort) (s : State) : (modFp f s).cqs = s.cqs := rfl
@[simp] theorem modFp_sch (f : FramePort → FramePort) (s : State) : (modFp f s).sch = s.sch := rfl
@[simp] theorem modFp_reqs (f : FramePort → FramePort) (s : State) : (modFp f s).reqs = s.reqs := rfl
@[simp] theorem modFp_sent (f : FramePort → FramePort) (s : State) : (modFp f s).sent = s.sent := rfl
@[simp] theorem modFp_tiles (f : FramePort → FramePort) (s : State) : (modFp f s).tiles = s.tiles := rfl
@[simp] theorem modFp_css (f : FramePort → FramePort) (s : State) : (modFp f s).css = s.css := rfl
@[simp] theorem modFp_ces (f : FramePort → FramePort) (s : State) : (modFp f s).ces = s.ces := rfl
@[simp] theorem modFp_streams (f : FramePort → FramePort) (s : State) : (modFp f s).streams = s.streams := rfl
@[simp] theorem modFp_ks (f : FramePort → FramePort) (s : State) : (modFp f s).ks = s.ks := rfl
@[simp] theorem modFp_meas (f : FramePort → FramePort) (s : State) : (modFp f s).meas = s.meas := rfl
@[simp] theorem modFp_es (f : FramePort → FramePort) (s : State) : (modFp f s).es = s.es := rfl
@[simp] theorem modFp_rbgs (f : FramePort → FramePort) (s : State) : (modFp f s).rbgs = s.rbgs := rfl
@[simp] theorem modFp_dcs (f : FramePort → FramePort) (s : State) : (modFp f s).dcs = s.dcs := rfl
@[simp] theorem modFp_time (f : FramePort → FramePort) (s : State) : (modFp f s).time = s.time := rfl
@[simp] theorem modFp_clk (f : FramePort → FramePort) (s : State) : (modFp f s).clk = s.clk := rfl
@[simp] theorem modFp_sup (f : FramePort → FramePort) (s : State) : (modFp f s).sup = s.sup := rfl
@[simp] theorem modFp_ret (f : FramePort → FramePort) (s : State) : (modFp f s).ret = s.ret := rfl
@[simp] theorem modFp_jrn (f : FramePort → FramePort) (s : State) : (modFp f s).jrn = s.jrn := rfl
@[simp] theorem modFp_evPend (f : FramePort → FramePort) (s : State) : (modFp f s).evPend = s.evPend := rfl
@[simp] theorem modFp_buserr (f : FramePort → FramePort) (s : State) : (modFp f s).buserr = s.buserr := rfl
@[simp] theorem modFp_becnt (f : FramePort → FramePort) (s : State) : (modFp f s).becnt = s.becnt := rfl
@[simp] theorem modFp_pviol (f : FramePort → FramePort) (s : State) : (modFp f s).pviol = s.pviol := rfl
@[simp] theorem modFp_pvcnt (f : FramePort → FramePort) (s : State) : (modFp f s).pvcnt = s.pvcnt := rfl
@[simp] theorem modFp_crs (f : FramePort → FramePort) (s : State) : (modFp f s).crs = s.crs := rfl
@[simp] theorem modFp_boot (f : FramePort → FramePort) (s : State) : (modFp f s).boot = s.boot := rfl
@[simp] theorem modFp_heldWr (f : FramePort → FramePort) (s : State) : (modFp f s).heldWr = s.heldWr := rfl
@[simp] theorem modFp_latch (f : FramePort → FramePort) (s : State) : (modFp f s).latch = s.latch := rfl
@[simp] theorem modFp_out (f : FramePort → FramePort) (s : State) : (modFp f s).out = s.out := rfl
@[simp] theorem modFp_free (f : FramePort → FramePort) (s : State) : (modFp f s).free = s.free := rfl
@[simp] theorem modFp_pending (f : FramePort → FramePort) (s : State) : (modFp f s).pending = s.pending := rfl
theorem modFp_fp (f : FramePort → FramePort) (s : State) : (modFp f s).fp = f s.fp := rfl
@[simp] theorem modFp_ten (f : FramePort → FramePort) (s : State) (k : Nat) : (modFp f s).ten k = s.ten k := rfl
@[simp] theorem modFp_sq (f : FramePort → FramePort) (s : State) (a b : Nat) : (modFp f s).sq a b = s.sq a b := rfl
@[simp] theorem modFp_cq (f : FramePort → FramePort) (s : State) (a b : Nat) : (modFp f s).cq a b = s.cq a b := rfl
@[simp] theorem modFp_dc (f : FramePort → FramePort) (s : State) (k : Nat) : (modFp f s).dc k = s.dc k := rfl
@[simp] theorem modFp_tile (f : FramePort → FramePort) (s : State) (k : Nat) : (modFp f s).tile k = s.tile k := rfl
@[simp] theorem modFp_csSt (f : FramePort → FramePort) (s : State) (k : Nat) : (modFp f s).csSt k = s.csSt k := rfl
@[simp] theorem modFp_slot (f : FramePort → FramePort) (s : State) (k : Nat) : (modFp f s).slot k = s.slot k := rfl
@[simp] theorem modFp_rbg (f : FramePort → FramePort) (s : State) (k : Nat) : (modFp f s).rbg k = s.rbg k := rfl
@[simp] theorem modFp_stream (f : FramePort → FramePort) (s : State) (k : Nat) : (modFp f s).stream k = s.stream k := rfl
@[simp] theorem modFp_cacheEnt (f : FramePort → FramePort) (s : State) (k : Nat) : (modFp f s).cacheEnt k = s.cacheEnt k := rfl
@[simp] theorem modFp_peer (f : FramePort → FramePort) (s : State) (k : Nat) : (modFp f s).peer k = s.peer k := rfl
@[simp] theorem modFp_tcmp (f : FramePort → FramePort) (s : State) (k : Nat) : (modFp f s).tcmp k = s.tcmp k := rfl
@[simp] theorem modFp_req (f : FramePort → FramePort) (s : State) (k : Nat) : (modFp f s).req k = s.req k := rfl

@[simp] theorem modSup_start (f : Supply → Supply) (s : State) : (modSup f s).start = s.start := rfl
@[simp] theorem modSup_roots (f : Supply → Supply) (s : State) : (modSup f s).roots = s.roots := rfl
@[simp] theorem modSup_ident (f : Supply → Supply) (s : State) : (modSup f s).ident = s.ident := rfl
@[simp] theorem modSup_owner (f : Supply → Supply) (s : State) : (modSup f s).owner = s.owner := rfl
@[simp] theorem modSup_denied (f : Supply → Supply) (s : State) : (modSup f s).denied = s.denied := rfl
@[simp] theorem modSup_own (f : Supply → Supply) (s : State) : (modSup f s).own = s.own := rfl
@[simp] theorem modSup_gen (f : Supply → Supply) (s : State) : (modSup f s).gen = s.gen := rfl
@[simp] theorem modSup_tens (f : Supply → Supply) (s : State) : (modSup f s).tens = s.tens := rfl
@[simp] theorem modSup_sqs (f : Supply → Supply) (s : State) : (modSup f s).sqs = s.sqs := rfl
@[simp] theorem modSup_cqs (f : Supply → Supply) (s : State) : (modSup f s).cqs = s.cqs := rfl
@[simp] theorem modSup_sch (f : Supply → Supply) (s : State) : (modSup f s).sch = s.sch := rfl
@[simp] theorem modSup_reqs (f : Supply → Supply) (s : State) : (modSup f s).reqs = s.reqs := rfl
@[simp] theorem modSup_sent (f : Supply → Supply) (s : State) : (modSup f s).sent = s.sent := rfl
@[simp] theorem modSup_tiles (f : Supply → Supply) (s : State) : (modSup f s).tiles = s.tiles := rfl
@[simp] theorem modSup_css (f : Supply → Supply) (s : State) : (modSup f s).css = s.css := rfl
@[simp] theorem modSup_ces (f : Supply → Supply) (s : State) : (modSup f s).ces = s.ces := rfl
@[simp] theorem modSup_streams (f : Supply → Supply) (s : State) : (modSup f s).streams = s.streams := rfl
@[simp] theorem modSup_ks (f : Supply → Supply) (s : State) : (modSup f s).ks = s.ks := rfl
@[simp] theorem modSup_meas (f : Supply → Supply) (s : State) : (modSup f s).meas = s.meas := rfl
@[simp] theorem modSup_es (f : Supply → Supply) (s : State) : (modSup f s).es = s.es := rfl
@[simp] theorem modSup_rbgs (f : Supply → Supply) (s : State) : (modSup f s).rbgs = s.rbgs := rfl
@[simp] theorem modSup_dcs (f : Supply → Supply) (s : State) : (modSup f s).dcs = s.dcs := rfl
@[simp] theorem modSup_fp (f : Supply → Supply) (s : State) : (modSup f s).fp = s.fp := rfl
@[simp] theorem modSup_time (f : Supply → Supply) (s : State) : (modSup f s).time = s.time := rfl
@[simp] theorem modSup_clk (f : Supply → Supply) (s : State) : (modSup f s).clk = s.clk := rfl
@[simp] theorem modSup_ret (f : Supply → Supply) (s : State) : (modSup f s).ret = s.ret := rfl
@[simp] theorem modSup_jrn (f : Supply → Supply) (s : State) : (modSup f s).jrn = s.jrn := rfl
@[simp] theorem modSup_evPend (f : Supply → Supply) (s : State) : (modSup f s).evPend = s.evPend := rfl
@[simp] theorem modSup_buserr (f : Supply → Supply) (s : State) : (modSup f s).buserr = s.buserr := rfl
@[simp] theorem modSup_becnt (f : Supply → Supply) (s : State) : (modSup f s).becnt = s.becnt := rfl
@[simp] theorem modSup_pviol (f : Supply → Supply) (s : State) : (modSup f s).pviol = s.pviol := rfl
@[simp] theorem modSup_pvcnt (f : Supply → Supply) (s : State) : (modSup f s).pvcnt = s.pvcnt := rfl
@[simp] theorem modSup_crs (f : Supply → Supply) (s : State) : (modSup f s).crs = s.crs := rfl
@[simp] theorem modSup_boot (f : Supply → Supply) (s : State) : (modSup f s).boot = s.boot := rfl
@[simp] theorem modSup_heldWr (f : Supply → Supply) (s : State) : (modSup f s).heldWr = s.heldWr := rfl
@[simp] theorem modSup_latch (f : Supply → Supply) (s : State) : (modSup f s).latch = s.latch := rfl
@[simp] theorem modSup_out (f : Supply → Supply) (s : State) : (modSup f s).out = s.out := rfl
@[simp] theorem modSup_free (f : Supply → Supply) (s : State) : (modSup f s).free = s.free := rfl
@[simp] theorem modSup_pending (f : Supply → Supply) (s : State) : (modSup f s).pending = s.pending := rfl
theorem modSup_sup (f : Supply → Supply) (s : State) : (modSup f s).sup = f s.sup := rfl
@[simp] theorem modSup_ten (f : Supply → Supply) (s : State) (k : Nat) : (modSup f s).ten k = s.ten k := rfl
@[simp] theorem modSup_sq (f : Supply → Supply) (s : State) (a b : Nat) : (modSup f s).sq a b = s.sq a b := rfl
@[simp] theorem modSup_cq (f : Supply → Supply) (s : State) (a b : Nat) : (modSup f s).cq a b = s.cq a b := rfl
@[simp] theorem modSup_dc (f : Supply → Supply) (s : State) (k : Nat) : (modSup f s).dc k = s.dc k := rfl
@[simp] theorem modSup_tile (f : Supply → Supply) (s : State) (k : Nat) : (modSup f s).tile k = s.tile k := rfl
@[simp] theorem modSup_csSt (f : Supply → Supply) (s : State) (k : Nat) : (modSup f s).csSt k = s.csSt k := rfl
@[simp] theorem modSup_slot (f : Supply → Supply) (s : State) (k : Nat) : (modSup f s).slot k = s.slot k := rfl
@[simp] theorem modSup_rbg (f : Supply → Supply) (s : State) (k : Nat) : (modSup f s).rbg k = s.rbg k := rfl
@[simp] theorem modSup_stream (f : Supply → Supply) (s : State) (k : Nat) : (modSup f s).stream k = s.stream k := rfl
@[simp] theorem modSup_cacheEnt (f : Supply → Supply) (s : State) (k : Nat) : (modSup f s).cacheEnt k = s.cacheEnt k := rfl
@[simp] theorem modSup_peer (f : Supply → Supply) (s : State) (k : Nat) : (modSup f s).peer k = s.peer k := rfl
@[simp] theorem modSup_tcmp (f : Supply → Supply) (s : State) (k : Nat) : (modSup f s).tcmp k = s.tcmp k := rfl
@[simp] theorem modSup_req (f : Supply → Supply) (s : State) (k : Nat) : (modSup f s).req k = s.req k := rfl

@[simp] theorem modSch_start (f : Sched → Sched) (s : State) : (modSch f s).start = s.start := rfl
@[simp] theorem modSch_roots (f : Sched → Sched) (s : State) : (modSch f s).roots = s.roots := rfl
@[simp] theorem modSch_ident (f : Sched → Sched) (s : State) : (modSch f s).ident = s.ident := rfl
@[simp] theorem modSch_owner (f : Sched → Sched) (s : State) : (modSch f s).owner = s.owner := rfl
@[simp] theorem modSch_denied (f : Sched → Sched) (s : State) : (modSch f s).denied = s.denied := rfl
@[simp] theorem modSch_own (f : Sched → Sched) (s : State) : (modSch f s).own = s.own := rfl
@[simp] theorem modSch_gen (f : Sched → Sched) (s : State) : (modSch f s).gen = s.gen := rfl
@[simp] theorem modSch_tens (f : Sched → Sched) (s : State) : (modSch f s).tens = s.tens := rfl
@[simp] theorem modSch_sqs (f : Sched → Sched) (s : State) : (modSch f s).sqs = s.sqs := rfl
@[simp] theorem modSch_cqs (f : Sched → Sched) (s : State) : (modSch f s).cqs = s.cqs := rfl
@[simp] theorem modSch_reqs (f : Sched → Sched) (s : State) : (modSch f s).reqs = s.reqs := rfl
@[simp] theorem modSch_sent (f : Sched → Sched) (s : State) : (modSch f s).sent = s.sent := rfl
@[simp] theorem modSch_tiles (f : Sched → Sched) (s : State) : (modSch f s).tiles = s.tiles := rfl
@[simp] theorem modSch_css (f : Sched → Sched) (s : State) : (modSch f s).css = s.css := rfl
@[simp] theorem modSch_ces (f : Sched → Sched) (s : State) : (modSch f s).ces = s.ces := rfl
@[simp] theorem modSch_streams (f : Sched → Sched) (s : State) : (modSch f s).streams = s.streams := rfl
@[simp] theorem modSch_ks (f : Sched → Sched) (s : State) : (modSch f s).ks = s.ks := rfl
@[simp] theorem modSch_meas (f : Sched → Sched) (s : State) : (modSch f s).meas = s.meas := rfl
@[simp] theorem modSch_es (f : Sched → Sched) (s : State) : (modSch f s).es = s.es := rfl
@[simp] theorem modSch_rbgs (f : Sched → Sched) (s : State) : (modSch f s).rbgs = s.rbgs := rfl
@[simp] theorem modSch_dcs (f : Sched → Sched) (s : State) : (modSch f s).dcs = s.dcs := rfl
@[simp] theorem modSch_fp (f : Sched → Sched) (s : State) : (modSch f s).fp = s.fp := rfl
@[simp] theorem modSch_time (f : Sched → Sched) (s : State) : (modSch f s).time = s.time := rfl
@[simp] theorem modSch_clk (f : Sched → Sched) (s : State) : (modSch f s).clk = s.clk := rfl
@[simp] theorem modSch_sup (f : Sched → Sched) (s : State) : (modSch f s).sup = s.sup := rfl
@[simp] theorem modSch_ret (f : Sched → Sched) (s : State) : (modSch f s).ret = s.ret := rfl
@[simp] theorem modSch_jrn (f : Sched → Sched) (s : State) : (modSch f s).jrn = s.jrn := rfl
@[simp] theorem modSch_evPend (f : Sched → Sched) (s : State) : (modSch f s).evPend = s.evPend := rfl
@[simp] theorem modSch_buserr (f : Sched → Sched) (s : State) : (modSch f s).buserr = s.buserr := rfl
@[simp] theorem modSch_becnt (f : Sched → Sched) (s : State) : (modSch f s).becnt = s.becnt := rfl
@[simp] theorem modSch_pviol (f : Sched → Sched) (s : State) : (modSch f s).pviol = s.pviol := rfl
@[simp] theorem modSch_pvcnt (f : Sched → Sched) (s : State) : (modSch f s).pvcnt = s.pvcnt := rfl
@[simp] theorem modSch_crs (f : Sched → Sched) (s : State) : (modSch f s).crs = s.crs := rfl
@[simp] theorem modSch_boot (f : Sched → Sched) (s : State) : (modSch f s).boot = s.boot := rfl
@[simp] theorem modSch_heldWr (f : Sched → Sched) (s : State) : (modSch f s).heldWr = s.heldWr := rfl
@[simp] theorem modSch_latch (f : Sched → Sched) (s : State) : (modSch f s).latch = s.latch := rfl
@[simp] theorem modSch_out (f : Sched → Sched) (s : State) : (modSch f s).out = s.out := rfl
@[simp] theorem modSch_free (f : Sched → Sched) (s : State) : (modSch f s).free = s.free := rfl
@[simp] theorem modSch_pending (f : Sched → Sched) (s : State) : (modSch f s).pending = s.pending := rfl
theorem modSch_sch (f : Sched → Sched) (s : State) : (modSch f s).sch = f s.sch := rfl
@[simp] theorem modSch_ten (f : Sched → Sched) (s : State) (k : Nat) : (modSch f s).ten k = s.ten k := rfl
@[simp] theorem modSch_sq (f : Sched → Sched) (s : State) (a b : Nat) : (modSch f s).sq a b = s.sq a b := rfl
@[simp] theorem modSch_cq (f : Sched → Sched) (s : State) (a b : Nat) : (modSch f s).cq a b = s.cq a b := rfl
@[simp] theorem modSch_dc (f : Sched → Sched) (s : State) (k : Nat) : (modSch f s).dc k = s.dc k := rfl
@[simp] theorem modSch_tile (f : Sched → Sched) (s : State) (k : Nat) : (modSch f s).tile k = s.tile k := rfl
@[simp] theorem modSch_csSt (f : Sched → Sched) (s : State) (k : Nat) : (modSch f s).csSt k = s.csSt k := rfl
@[simp] theorem modSch_slot (f : Sched → Sched) (s : State) (k : Nat) : (modSch f s).slot k = s.slot k := rfl
@[simp] theorem modSch_rbg (f : Sched → Sched) (s : State) (k : Nat) : (modSch f s).rbg k = s.rbg k := rfl
@[simp] theorem modSch_stream (f : Sched → Sched) (s : State) (k : Nat) : (modSch f s).stream k = s.stream k := rfl
@[simp] theorem modSch_cacheEnt (f : Sched → Sched) (s : State) (k : Nat) : (modSch f s).cacheEnt k = s.cacheEnt k := rfl
@[simp] theorem modSch_peer (f : Sched → Sched) (s : State) (k : Nat) : (modSch f s).peer k = s.peer k := rfl
@[simp] theorem modSch_tcmp (f : Sched → Sched) (s : State) (k : Nat) : (modSch f s).tcmp k = s.tcmp k := rfl
@[simp] theorem modSch_req (f : Sched → Sched) (s : State) (k : Nat) : (modSch f s).req k = s.req k := rfl

@[simp] theorem modRoots_start (f : Roots → Roots) (s : State) : (modRoots f s).start = s.start := rfl
@[simp] theorem modRoots_ident (f : Roots → Roots) (s : State) : (modRoots f s).ident = s.ident := rfl
@[simp] theorem modRoots_owner (f : Roots → Roots) (s : State) : (modRoots f s).owner = s.owner := rfl
@[simp] theorem modRoots_denied (f : Roots → Roots) (s : State) : (modRoots f s).denied = s.denied := rfl
@[simp] theorem modRoots_own (f : Roots → Roots) (s : State) : (modRoots f s).own = s.own := rfl
@[simp] theorem modRoots_gen (f : Roots → Roots) (s : State) : (modRoots f s).gen = s.gen := rfl
@[simp] theorem modRoots_tens (f : Roots → Roots) (s : State) : (modRoots f s).tens = s.tens := rfl
@[simp] theorem modRoots_sqs (f : Roots → Roots) (s : State) : (modRoots f s).sqs = s.sqs := rfl
@[simp] theorem modRoots_cqs (f : Roots → Roots) (s : State) : (modRoots f s).cqs = s.cqs := rfl
@[simp] theorem modRoots_sch (f : Roots → Roots) (s : State) : (modRoots f s).sch = s.sch := rfl
@[simp] theorem modRoots_reqs (f : Roots → Roots) (s : State) : (modRoots f s).reqs = s.reqs := rfl
@[simp] theorem modRoots_sent (f : Roots → Roots) (s : State) : (modRoots f s).sent = s.sent := rfl
@[simp] theorem modRoots_tiles (f : Roots → Roots) (s : State) : (modRoots f s).tiles = s.tiles := rfl
@[simp] theorem modRoots_css (f : Roots → Roots) (s : State) : (modRoots f s).css = s.css := rfl
@[simp] theorem modRoots_ces (f : Roots → Roots) (s : State) : (modRoots f s).ces = s.ces := rfl
@[simp] theorem modRoots_streams (f : Roots → Roots) (s : State) : (modRoots f s).streams = s.streams := rfl
@[simp] theorem modRoots_ks (f : Roots → Roots) (s : State) : (modRoots f s).ks = s.ks := rfl
@[simp] theorem modRoots_meas (f : Roots → Roots) (s : State) : (modRoots f s).meas = s.meas := rfl
@[simp] theorem modRoots_es (f : Roots → Roots) (s : State) : (modRoots f s).es = s.es := rfl
@[simp] theorem modRoots_rbgs (f : Roots → Roots) (s : State) : (modRoots f s).rbgs = s.rbgs := rfl
@[simp] theorem modRoots_dcs (f : Roots → Roots) (s : State) : (modRoots f s).dcs = s.dcs := rfl
@[simp] theorem modRoots_fp (f : Roots → Roots) (s : State) : (modRoots f s).fp = s.fp := rfl
@[simp] theorem modRoots_time (f : Roots → Roots) (s : State) : (modRoots f s).time = s.time := rfl
@[simp] theorem modRoots_clk (f : Roots → Roots) (s : State) : (modRoots f s).clk = s.clk := rfl
@[simp] theorem modRoots_sup (f : Roots → Roots) (s : State) : (modRoots f s).sup = s.sup := rfl
@[simp] theorem modRoots_ret (f : Roots → Roots) (s : State) : (modRoots f s).ret = s.ret := rfl
@[simp] theorem modRoots_jrn (f : Roots → Roots) (s : State) : (modRoots f s).jrn = s.jrn := rfl
@[simp] theorem modRoots_evPend (f : Roots → Roots) (s : State) : (modRoots f s).evPend = s.evPend := rfl
@[simp] theorem modRoots_buserr (f : Roots → Roots) (s : State) : (modRoots f s).buserr = s.buserr := rfl
@[simp] theorem modRoots_becnt (f : Roots → Roots) (s : State) : (modRoots f s).becnt = s.becnt := rfl
@[simp] theorem modRoots_pviol (f : Roots → Roots) (s : State) : (modRoots f s).pviol = s.pviol := rfl
@[simp] theorem modRoots_pvcnt (f : Roots → Roots) (s : State) : (modRoots f s).pvcnt = s.pvcnt := rfl
@[simp] theorem modRoots_crs (f : Roots → Roots) (s : State) : (modRoots f s).crs = s.crs := rfl
@[simp] theorem modRoots_boot (f : Roots → Roots) (s : State) : (modRoots f s).boot = s.boot := rfl
@[simp] theorem modRoots_heldWr (f : Roots → Roots) (s : State) : (modRoots f s).heldWr = s.heldWr := rfl
@[simp] theorem modRoots_latch (f : Roots → Roots) (s : State) : (modRoots f s).latch = s.latch := rfl
@[simp] theorem modRoots_out (f : Roots → Roots) (s : State) : (modRoots f s).out = s.out := rfl
@[simp] theorem modRoots_free (f : Roots → Roots) (s : State) : (modRoots f s).free = s.free := rfl
@[simp] theorem modRoots_pending (f : Roots → Roots) (s : State) : (modRoots f s).pending = s.pending := rfl
theorem modRoots_roots (f : Roots → Roots) (s : State) : (modRoots f s).roots = f s.roots := rfl
@[simp] theorem modRoots_ten (f : Roots → Roots) (s : State) (k : Nat) : (modRoots f s).ten k = s.ten k := rfl
@[simp] theorem modRoots_sq (f : Roots → Roots) (s : State) (a b : Nat) : (modRoots f s).sq a b = s.sq a b := rfl
@[simp] theorem modRoots_cq (f : Roots → Roots) (s : State) (a b : Nat) : (modRoots f s).cq a b = s.cq a b := rfl
@[simp] theorem modRoots_dc (f : Roots → Roots) (s : State) (k : Nat) : (modRoots f s).dc k = s.dc k := rfl
@[simp] theorem modRoots_tile (f : Roots → Roots) (s : State) (k : Nat) : (modRoots f s).tile k = s.tile k := rfl
@[simp] theorem modRoots_csSt (f : Roots → Roots) (s : State) (k : Nat) : (modRoots f s).csSt k = s.csSt k := rfl
@[simp] theorem modRoots_slot (f : Roots → Roots) (s : State) (k : Nat) : (modRoots f s).slot k = s.slot k := rfl
@[simp] theorem modRoots_rbg (f : Roots → Roots) (s : State) (k : Nat) : (modRoots f s).rbg k = s.rbg k := rfl
@[simp] theorem modRoots_stream (f : Roots → Roots) (s : State) (k : Nat) : (modRoots f s).stream k = s.stream k := rfl
@[simp] theorem modRoots_cacheEnt (f : Roots → Roots) (s : State) (k : Nat) : (modRoots f s).cacheEnt k = s.cacheEnt k := rfl
@[simp] theorem modRoots_peer (f : Roots → Roots) (s : State) (k : Nat) : (modRoots f s).peer k = s.peer k := rfl
@[simp] theorem modRoots_tcmp (f : Roots → Roots) (s : State) (k : Nat) : (modRoots f s).tcmp k = s.tcmp k := rfl
@[simp] theorem modRoots_req (f : Roots → Roots) (s : State) (k : Nat) : (modRoots f s).req k = s.req k := rfl

@[simp] theorem modIdent_start (f : Ident → Ident) (s : State) : (modIdent f s).start = s.start := rfl
@[simp] theorem modIdent_roots (f : Ident → Ident) (s : State) : (modIdent f s).roots = s.roots := rfl
@[simp] theorem modIdent_owner (f : Ident → Ident) (s : State) : (modIdent f s).owner = s.owner := rfl
@[simp] theorem modIdent_denied (f : Ident → Ident) (s : State) : (modIdent f s).denied = s.denied := rfl
@[simp] theorem modIdent_own (f : Ident → Ident) (s : State) : (modIdent f s).own = s.own := rfl
@[simp] theorem modIdent_gen (f : Ident → Ident) (s : State) : (modIdent f s).gen = s.gen := rfl
@[simp] theorem modIdent_tens (f : Ident → Ident) (s : State) : (modIdent f s).tens = s.tens := rfl
@[simp] theorem modIdent_sqs (f : Ident → Ident) (s : State) : (modIdent f s).sqs = s.sqs := rfl
@[simp] theorem modIdent_cqs (f : Ident → Ident) (s : State) : (modIdent f s).cqs = s.cqs := rfl
@[simp] theorem modIdent_sch (f : Ident → Ident) (s : State) : (modIdent f s).sch = s.sch := rfl
@[simp] theorem modIdent_reqs (f : Ident → Ident) (s : State) : (modIdent f s).reqs = s.reqs := rfl
@[simp] theorem modIdent_sent (f : Ident → Ident) (s : State) : (modIdent f s).sent = s.sent := rfl
@[simp] theorem modIdent_tiles (f : Ident → Ident) (s : State) : (modIdent f s).tiles = s.tiles := rfl
@[simp] theorem modIdent_css (f : Ident → Ident) (s : State) : (modIdent f s).css = s.css := rfl
@[simp] theorem modIdent_ces (f : Ident → Ident) (s : State) : (modIdent f s).ces = s.ces := rfl
@[simp] theorem modIdent_streams (f : Ident → Ident) (s : State) : (modIdent f s).streams = s.streams := rfl
@[simp] theorem modIdent_ks (f : Ident → Ident) (s : State) : (modIdent f s).ks = s.ks := rfl
@[simp] theorem modIdent_meas (f : Ident → Ident) (s : State) : (modIdent f s).meas = s.meas := rfl
@[simp] theorem modIdent_es (f : Ident → Ident) (s : State) : (modIdent f s).es = s.es := rfl
@[simp] theorem modIdent_rbgs (f : Ident → Ident) (s : State) : (modIdent f s).rbgs = s.rbgs := rfl
@[simp] theorem modIdent_dcs (f : Ident → Ident) (s : State) : (modIdent f s).dcs = s.dcs := rfl
@[simp] theorem modIdent_fp (f : Ident → Ident) (s : State) : (modIdent f s).fp = s.fp := rfl
@[simp] theorem modIdent_time (f : Ident → Ident) (s : State) : (modIdent f s).time = s.time := rfl
@[simp] theorem modIdent_clk (f : Ident → Ident) (s : State) : (modIdent f s).clk = s.clk := rfl
@[simp] theorem modIdent_sup (f : Ident → Ident) (s : State) : (modIdent f s).sup = s.sup := rfl
@[simp] theorem modIdent_ret (f : Ident → Ident) (s : State) : (modIdent f s).ret = s.ret := rfl
@[simp] theorem modIdent_jrn (f : Ident → Ident) (s : State) : (modIdent f s).jrn = s.jrn := rfl
@[simp] theorem modIdent_evPend (f : Ident → Ident) (s : State) : (modIdent f s).evPend = s.evPend := rfl
@[simp] theorem modIdent_buserr (f : Ident → Ident) (s : State) : (modIdent f s).buserr = s.buserr := rfl
@[simp] theorem modIdent_becnt (f : Ident → Ident) (s : State) : (modIdent f s).becnt = s.becnt := rfl
@[simp] theorem modIdent_pviol (f : Ident → Ident) (s : State) : (modIdent f s).pviol = s.pviol := rfl
@[simp] theorem modIdent_pvcnt (f : Ident → Ident) (s : State) : (modIdent f s).pvcnt = s.pvcnt := rfl
@[simp] theorem modIdent_crs (f : Ident → Ident) (s : State) : (modIdent f s).crs = s.crs := rfl
@[simp] theorem modIdent_boot (f : Ident → Ident) (s : State) : (modIdent f s).boot = s.boot := rfl
@[simp] theorem modIdent_heldWr (f : Ident → Ident) (s : State) : (modIdent f s).heldWr = s.heldWr := rfl
@[simp] theorem modIdent_latch (f : Ident → Ident) (s : State) : (modIdent f s).latch = s.latch := rfl
@[simp] theorem modIdent_out (f : Ident → Ident) (s : State) : (modIdent f s).out = s.out := rfl
@[simp] theorem modIdent_free (f : Ident → Ident) (s : State) : (modIdent f s).free = s.free := rfl
@[simp] theorem modIdent_pending (f : Ident → Ident) (s : State) : (modIdent f s).pending = s.pending := rfl
theorem modIdent_ident (f : Ident → Ident) (s : State) : (modIdent f s).ident = f s.ident := rfl
@[simp] theorem modIdent_ten (f : Ident → Ident) (s : State) (k : Nat) : (modIdent f s).ten k = s.ten k := rfl
@[simp] theorem modIdent_sq (f : Ident → Ident) (s : State) (a b : Nat) : (modIdent f s).sq a b = s.sq a b := rfl
@[simp] theorem modIdent_cq (f : Ident → Ident) (s : State) (a b : Nat) : (modIdent f s).cq a b = s.cq a b := rfl
@[simp] theorem modIdent_dc (f : Ident → Ident) (s : State) (k : Nat) : (modIdent f s).dc k = s.dc k := rfl
@[simp] theorem modIdent_tile (f : Ident → Ident) (s : State) (k : Nat) : (modIdent f s).tile k = s.tile k := rfl
@[simp] theorem modIdent_csSt (f : Ident → Ident) (s : State) (k : Nat) : (modIdent f s).csSt k = s.csSt k := rfl
@[simp] theorem modIdent_slot (f : Ident → Ident) (s : State) (k : Nat) : (modIdent f s).slot k = s.slot k := rfl
@[simp] theorem modIdent_rbg (f : Ident → Ident) (s : State) (k : Nat) : (modIdent f s).rbg k = s.rbg k := rfl
@[simp] theorem modIdent_stream (f : Ident → Ident) (s : State) (k : Nat) : (modIdent f s).stream k = s.stream k := rfl
@[simp] theorem modIdent_cacheEnt (f : Ident → Ident) (s : State) (k : Nat) : (modIdent f s).cacheEnt k = s.cacheEnt k := rfl
@[simp] theorem modIdent_peer (f : Ident → Ident) (s : State) (k : Nat) : (modIdent f s).peer k = s.peer k := rfl
@[simp] theorem modIdent_tcmp (f : Ident → Ident) (s : State) (k : Nat) : (modIdent f s).tcmp k = s.tcmp k := rfl
@[simp] theorem modIdent_req (f : Ident → Ident) (s : State) (k : Nat) : (modIdent f s).req k = s.req k := rfl

@[simp] theorem modRet_start (f : Retention → Retention) (s : State) : (modRet f s).start = s.start := rfl
@[simp] theorem modRet_roots (f : Retention → Retention) (s : State) : (modRet f s).roots = s.roots := rfl
@[simp] theorem modRet_ident (f : Retention → Retention) (s : State) : (modRet f s).ident = s.ident := rfl
@[simp] theorem modRet_owner (f : Retention → Retention) (s : State) : (modRet f s).owner = s.owner := rfl
@[simp] theorem modRet_denied (f : Retention → Retention) (s : State) : (modRet f s).denied = s.denied := rfl
@[simp] theorem modRet_own (f : Retention → Retention) (s : State) : (modRet f s).own = s.own := rfl
@[simp] theorem modRet_gen (f : Retention → Retention) (s : State) : (modRet f s).gen = s.gen := rfl
@[simp] theorem modRet_tens (f : Retention → Retention) (s : State) : (modRet f s).tens = s.tens := rfl
@[simp] theorem modRet_sqs (f : Retention → Retention) (s : State) : (modRet f s).sqs = s.sqs := rfl
@[simp] theorem modRet_cqs (f : Retention → Retention) (s : State) : (modRet f s).cqs = s.cqs := rfl
@[simp] theorem modRet_sch (f : Retention → Retention) (s : State) : (modRet f s).sch = s.sch := rfl
@[simp] theorem modRet_reqs (f : Retention → Retention) (s : State) : (modRet f s).reqs = s.reqs := rfl
@[simp] theorem modRet_sent (f : Retention → Retention) (s : State) : (modRet f s).sent = s.sent := rfl
@[simp] theorem modRet_tiles (f : Retention → Retention) (s : State) : (modRet f s).tiles = s.tiles := rfl
@[simp] theorem modRet_css (f : Retention → Retention) (s : State) : (modRet f s).css = s.css := rfl
@[simp] theorem modRet_ces (f : Retention → Retention) (s : State) : (modRet f s).ces = s.ces := rfl
@[simp] theorem modRet_streams (f : Retention → Retention) (s : State) : (modRet f s).streams = s.streams := rfl
@[simp] theorem modRet_ks (f : Retention → Retention) (s : State) : (modRet f s).ks = s.ks := rfl
@[simp] theorem modRet_meas (f : Retention → Retention) (s : State) : (modRet f s).meas = s.meas := rfl
@[simp] theorem modRet_es (f : Retention → Retention) (s : State) : (modRet f s).es = s.es := rfl
@[simp] theorem modRet_rbgs (f : Retention → Retention) (s : State) : (modRet f s).rbgs = s.rbgs := rfl
@[simp] theorem modRet_dcs (f : Retention → Retention) (s : State) : (modRet f s).dcs = s.dcs := rfl
@[simp] theorem modRet_fp (f : Retention → Retention) (s : State) : (modRet f s).fp = s.fp := rfl
@[simp] theorem modRet_time (f : Retention → Retention) (s : State) : (modRet f s).time = s.time := rfl
@[simp] theorem modRet_clk (f : Retention → Retention) (s : State) : (modRet f s).clk = s.clk := rfl
@[simp] theorem modRet_sup (f : Retention → Retention) (s : State) : (modRet f s).sup = s.sup := rfl
@[simp] theorem modRet_jrn (f : Retention → Retention) (s : State) : (modRet f s).jrn = s.jrn := rfl
@[simp] theorem modRet_evPend (f : Retention → Retention) (s : State) : (modRet f s).evPend = s.evPend := rfl
@[simp] theorem modRet_buserr (f : Retention → Retention) (s : State) : (modRet f s).buserr = s.buserr := rfl
@[simp] theorem modRet_becnt (f : Retention → Retention) (s : State) : (modRet f s).becnt = s.becnt := rfl
@[simp] theorem modRet_pviol (f : Retention → Retention) (s : State) : (modRet f s).pviol = s.pviol := rfl
@[simp] theorem modRet_pvcnt (f : Retention → Retention) (s : State) : (modRet f s).pvcnt = s.pvcnt := rfl
@[simp] theorem modRet_crs (f : Retention → Retention) (s : State) : (modRet f s).crs = s.crs := rfl
@[simp] theorem modRet_boot (f : Retention → Retention) (s : State) : (modRet f s).boot = s.boot := rfl
@[simp] theorem modRet_heldWr (f : Retention → Retention) (s : State) : (modRet f s).heldWr = s.heldWr := rfl
@[simp] theorem modRet_latch (f : Retention → Retention) (s : State) : (modRet f s).latch = s.latch := rfl
@[simp] theorem modRet_out (f : Retention → Retention) (s : State) : (modRet f s).out = s.out := rfl
@[simp] theorem modRet_free (f : Retention → Retention) (s : State) : (modRet f s).free = s.free := rfl
@[simp] theorem modRet_pending (f : Retention → Retention) (s : State) : (modRet f s).pending = s.pending := rfl
theorem modRet_ret (f : Retention → Retention) (s : State) : (modRet f s).ret = f s.ret := rfl
@[simp] theorem modRet_ten (f : Retention → Retention) (s : State) (k : Nat) : (modRet f s).ten k = s.ten k := rfl
@[simp] theorem modRet_sq (f : Retention → Retention) (s : State) (a b : Nat) : (modRet f s).sq a b = s.sq a b := rfl
@[simp] theorem modRet_cq (f : Retention → Retention) (s : State) (a b : Nat) : (modRet f s).cq a b = s.cq a b := rfl
@[simp] theorem modRet_dc (f : Retention → Retention) (s : State) (k : Nat) : (modRet f s).dc k = s.dc k := rfl
@[simp] theorem modRet_tile (f : Retention → Retention) (s : State) (k : Nat) : (modRet f s).tile k = s.tile k := rfl
@[simp] theorem modRet_csSt (f : Retention → Retention) (s : State) (k : Nat) : (modRet f s).csSt k = s.csSt k := rfl
@[simp] theorem modRet_slot (f : Retention → Retention) (s : State) (k : Nat) : (modRet f s).slot k = s.slot k := rfl
@[simp] theorem modRet_rbg (f : Retention → Retention) (s : State) (k : Nat) : (modRet f s).rbg k = s.rbg k := rfl
@[simp] theorem modRet_stream (f : Retention → Retention) (s : State) (k : Nat) : (modRet f s).stream k = s.stream k := rfl
@[simp] theorem modRet_cacheEnt (f : Retention → Retention) (s : State) (k : Nat) : (modRet f s).cacheEnt k = s.cacheEnt k := rfl
@[simp] theorem modRet_peer (f : Retention → Retention) (s : State) (k : Nat) : (modRet f s).peer k = s.peer k := rfl
@[simp] theorem modRet_tcmp (f : Retention → Retention) (s : State) (k : Nat) : (modRet f s).tcmp k = s.tcmp k := rfl
@[simp] theorem modRet_req (f : Retention → Retention) (s : State) (k : Nat) : (modRet f s).req k = s.req k := rfl

@[simp] theorem modDenied_start (f : Cnt32 → Cnt32) (s : State) : (modDenied f s).start = s.start := rfl
@[simp] theorem modDenied_roots (f : Cnt32 → Cnt32) (s : State) : (modDenied f s).roots = s.roots := rfl
@[simp] theorem modDenied_ident (f : Cnt32 → Cnt32) (s : State) : (modDenied f s).ident = s.ident := rfl
@[simp] theorem modDenied_owner (f : Cnt32 → Cnt32) (s : State) : (modDenied f s).owner = s.owner := rfl
@[simp] theorem modDenied_own (f : Cnt32 → Cnt32) (s : State) : (modDenied f s).own = s.own := rfl
@[simp] theorem modDenied_gen (f : Cnt32 → Cnt32) (s : State) : (modDenied f s).gen = s.gen := rfl
@[simp] theorem modDenied_tens (f : Cnt32 → Cnt32) (s : State) : (modDenied f s).tens = s.tens := rfl
@[simp] theorem modDenied_sqs (f : Cnt32 → Cnt32) (s : State) : (modDenied f s).sqs = s.sqs := rfl
@[simp] theorem modDenied_cqs (f : Cnt32 → Cnt32) (s : State) : (modDenied f s).cqs = s.cqs := rfl
@[simp] theorem modDenied_sch (f : Cnt32 → Cnt32) (s : State) : (modDenied f s).sch = s.sch := rfl
@[simp] theorem modDenied_reqs (f : Cnt32 → Cnt32) (s : State) : (modDenied f s).reqs = s.reqs := rfl
@[simp] theorem modDenied_sent (f : Cnt32 → Cnt32) (s : State) : (modDenied f s).sent = s.sent := rfl
@[simp] theorem modDenied_tiles (f : Cnt32 → Cnt32) (s : State) : (modDenied f s).tiles = s.tiles := rfl
@[simp] theorem modDenied_css (f : Cnt32 → Cnt32) (s : State) : (modDenied f s).css = s.css := rfl
@[simp] theorem modDenied_ces (f : Cnt32 → Cnt32) (s : State) : (modDenied f s).ces = s.ces := rfl
@[simp] theorem modDenied_streams (f : Cnt32 → Cnt32) (s : State) : (modDenied f s).streams = s.streams := rfl
@[simp] theorem modDenied_ks (f : Cnt32 → Cnt32) (s : State) : (modDenied f s).ks = s.ks := rfl
@[simp] theorem modDenied_meas (f : Cnt32 → Cnt32) (s : State) : (modDenied f s).meas = s.meas := rfl
@[simp] theorem modDenied_es (f : Cnt32 → Cnt32) (s : State) : (modDenied f s).es = s.es := rfl
@[simp] theorem modDenied_rbgs (f : Cnt32 → Cnt32) (s : State) : (modDenied f s).rbgs = s.rbgs := rfl
@[simp] theorem modDenied_dcs (f : Cnt32 → Cnt32) (s : State) : (modDenied f s).dcs = s.dcs := rfl
@[simp] theorem modDenied_fp (f : Cnt32 → Cnt32) (s : State) : (modDenied f s).fp = s.fp := rfl
@[simp] theorem modDenied_time (f : Cnt32 → Cnt32) (s : State) : (modDenied f s).time = s.time := rfl
@[simp] theorem modDenied_clk (f : Cnt32 → Cnt32) (s : State) : (modDenied f s).clk = s.clk := rfl
@[simp] theorem modDenied_sup (f : Cnt32 → Cnt32) (s : State) : (modDenied f s).sup = s.sup := rfl
@[simp] theorem modDenied_ret (f : Cnt32 → Cnt32) (s : State) : (modDenied f s).ret = s.ret := rfl
@[simp] theorem modDenied_jrn (f : Cnt32 → Cnt32) (s : State) : (modDenied f s).jrn = s.jrn := rfl
@[simp] theorem modDenied_evPend (f : Cnt32 → Cnt32) (s : State) : (modDenied f s).evPend = s.evPend := rfl
@[simp] theorem modDenied_buserr (f : Cnt32 → Cnt32) (s : State) : (modDenied f s).buserr = s.buserr := rfl
@[simp] theorem modDenied_becnt (f : Cnt32 → Cnt32) (s : State) : (modDenied f s).becnt = s.becnt := rfl
@[simp] theorem modDenied_pviol (f : Cnt32 → Cnt32) (s : State) : (modDenied f s).pviol = s.pviol := rfl
@[simp] theorem modDenied_pvcnt (f : Cnt32 → Cnt32) (s : State) : (modDenied f s).pvcnt = s.pvcnt := rfl
@[simp] theorem modDenied_crs (f : Cnt32 → Cnt32) (s : State) : (modDenied f s).crs = s.crs := rfl
@[simp] theorem modDenied_boot (f : Cnt32 → Cnt32) (s : State) : (modDenied f s).boot = s.boot := rfl
@[simp] theorem modDenied_heldWr (f : Cnt32 → Cnt32) (s : State) : (modDenied f s).heldWr = s.heldWr := rfl
@[simp] theorem modDenied_latch (f : Cnt32 → Cnt32) (s : State) : (modDenied f s).latch = s.latch := rfl
@[simp] theorem modDenied_out (f : Cnt32 → Cnt32) (s : State) : (modDenied f s).out = s.out := rfl
@[simp] theorem modDenied_free (f : Cnt32 → Cnt32) (s : State) : (modDenied f s).free = s.free := rfl
@[simp] theorem modDenied_pending (f : Cnt32 → Cnt32) (s : State) : (modDenied f s).pending = s.pending := rfl
theorem modDenied_denied (f : Cnt32 → Cnt32) (s : State) : (modDenied f s).denied = f s.denied := rfl
@[simp] theorem modDenied_ten (f : Cnt32 → Cnt32) (s : State) (k : Nat) : (modDenied f s).ten k = s.ten k := rfl
@[simp] theorem modDenied_sq (f : Cnt32 → Cnt32) (s : State) (a b : Nat) : (modDenied f s).sq a b = s.sq a b := rfl
@[simp] theorem modDenied_cq (f : Cnt32 → Cnt32) (s : State) (a b : Nat) : (modDenied f s).cq a b = s.cq a b := rfl
@[simp] theorem modDenied_dc (f : Cnt32 → Cnt32) (s : State) (k : Nat) : (modDenied f s).dc k = s.dc k := rfl
@[simp] theorem modDenied_tile (f : Cnt32 → Cnt32) (s : State) (k : Nat) : (modDenied f s).tile k = s.tile k := rfl
@[simp] theorem modDenied_csSt (f : Cnt32 → Cnt32) (s : State) (k : Nat) : (modDenied f s).csSt k = s.csSt k := rfl
@[simp] theorem modDenied_slot (f : Cnt32 → Cnt32) (s : State) (k : Nat) : (modDenied f s).slot k = s.slot k := rfl
@[simp] theorem modDenied_rbg (f : Cnt32 → Cnt32) (s : State) (k : Nat) : (modDenied f s).rbg k = s.rbg k := rfl
@[simp] theorem modDenied_stream (f : Cnt32 → Cnt32) (s : State) (k : Nat) : (modDenied f s).stream k = s.stream k := rfl
@[simp] theorem modDenied_cacheEnt (f : Cnt32 → Cnt32) (s : State) (k : Nat) : (modDenied f s).cacheEnt k = s.cacheEnt k := rfl
@[simp] theorem modDenied_peer (f : Cnt32 → Cnt32) (s : State) (k : Nat) : (modDenied f s).peer k = s.peer k := rfl
@[simp] theorem modDenied_tcmp (f : Cnt32 → Cnt32) (s : State) (k : Nat) : (modDenied f s).tcmp k = s.tcmp k := rfl
@[simp] theorem modDenied_req (f : Cnt32 → Cnt32) (s : State) (k : Nat) : (modDenied f s).req k = s.req k := rfl

@[simp] theorem modEvPend_start (f : Word → Word) (s : State) : (modEvPend f s).start = s.start := rfl
@[simp] theorem modEvPend_roots (f : Word → Word) (s : State) : (modEvPend f s).roots = s.roots := rfl
@[simp] theorem modEvPend_ident (f : Word → Word) (s : State) : (modEvPend f s).ident = s.ident := rfl
@[simp] theorem modEvPend_owner (f : Word → Word) (s : State) : (modEvPend f s).owner = s.owner := rfl
@[simp] theorem modEvPend_denied (f : Word → Word) (s : State) : (modEvPend f s).denied = s.denied := rfl
@[simp] theorem modEvPend_own (f : Word → Word) (s : State) : (modEvPend f s).own = s.own := rfl
@[simp] theorem modEvPend_gen (f : Word → Word) (s : State) : (modEvPend f s).gen = s.gen := rfl
@[simp] theorem modEvPend_tens (f : Word → Word) (s : State) : (modEvPend f s).tens = s.tens := rfl
@[simp] theorem modEvPend_sqs (f : Word → Word) (s : State) : (modEvPend f s).sqs = s.sqs := rfl
@[simp] theorem modEvPend_cqs (f : Word → Word) (s : State) : (modEvPend f s).cqs = s.cqs := rfl
@[simp] theorem modEvPend_sch (f : Word → Word) (s : State) : (modEvPend f s).sch = s.sch := rfl
@[simp] theorem modEvPend_reqs (f : Word → Word) (s : State) : (modEvPend f s).reqs = s.reqs := rfl
@[simp] theorem modEvPend_sent (f : Word → Word) (s : State) : (modEvPend f s).sent = s.sent := rfl
@[simp] theorem modEvPend_tiles (f : Word → Word) (s : State) : (modEvPend f s).tiles = s.tiles := rfl
@[simp] theorem modEvPend_css (f : Word → Word) (s : State) : (modEvPend f s).css = s.css := rfl
@[simp] theorem modEvPend_ces (f : Word → Word) (s : State) : (modEvPend f s).ces = s.ces := rfl
@[simp] theorem modEvPend_streams (f : Word → Word) (s : State) : (modEvPend f s).streams = s.streams := rfl
@[simp] theorem modEvPend_ks (f : Word → Word) (s : State) : (modEvPend f s).ks = s.ks := rfl
@[simp] theorem modEvPend_meas (f : Word → Word) (s : State) : (modEvPend f s).meas = s.meas := rfl
@[simp] theorem modEvPend_es (f : Word → Word) (s : State) : (modEvPend f s).es = s.es := rfl
@[simp] theorem modEvPend_rbgs (f : Word → Word) (s : State) : (modEvPend f s).rbgs = s.rbgs := rfl
@[simp] theorem modEvPend_dcs (f : Word → Word) (s : State) : (modEvPend f s).dcs = s.dcs := rfl
@[simp] theorem modEvPend_fp (f : Word → Word) (s : State) : (modEvPend f s).fp = s.fp := rfl
@[simp] theorem modEvPend_time (f : Word → Word) (s : State) : (modEvPend f s).time = s.time := rfl
@[simp] theorem modEvPend_clk (f : Word → Word) (s : State) : (modEvPend f s).clk = s.clk := rfl
@[simp] theorem modEvPend_sup (f : Word → Word) (s : State) : (modEvPend f s).sup = s.sup := rfl
@[simp] theorem modEvPend_ret (f : Word → Word) (s : State) : (modEvPend f s).ret = s.ret := rfl
@[simp] theorem modEvPend_jrn (f : Word → Word) (s : State) : (modEvPend f s).jrn = s.jrn := rfl
@[simp] theorem modEvPend_buserr (f : Word → Word) (s : State) : (modEvPend f s).buserr = s.buserr := rfl
@[simp] theorem modEvPend_becnt (f : Word → Word) (s : State) : (modEvPend f s).becnt = s.becnt := rfl
@[simp] theorem modEvPend_pviol (f : Word → Word) (s : State) : (modEvPend f s).pviol = s.pviol := rfl
@[simp] theorem modEvPend_pvcnt (f : Word → Word) (s : State) : (modEvPend f s).pvcnt = s.pvcnt := rfl
@[simp] theorem modEvPend_crs (f : Word → Word) (s : State) : (modEvPend f s).crs = s.crs := rfl
@[simp] theorem modEvPend_boot (f : Word → Word) (s : State) : (modEvPend f s).boot = s.boot := rfl
@[simp] theorem modEvPend_heldWr (f : Word → Word) (s : State) : (modEvPend f s).heldWr = s.heldWr := rfl
@[simp] theorem modEvPend_latch (f : Word → Word) (s : State) : (modEvPend f s).latch = s.latch := rfl
@[simp] theorem modEvPend_out (f : Word → Word) (s : State) : (modEvPend f s).out = s.out := rfl
@[simp] theorem modEvPend_free (f : Word → Word) (s : State) : (modEvPend f s).free = s.free := rfl
@[simp] theorem modEvPend_pending (f : Word → Word) (s : State) : (modEvPend f s).pending = s.pending := rfl
theorem modEvPend_evPend (f : Word → Word) (s : State) : (modEvPend f s).evPend = f s.evPend := rfl
@[simp] theorem modEvPend_ten (f : Word → Word) (s : State) (k : Nat) : (modEvPend f s).ten k = s.ten k := rfl
@[simp] theorem modEvPend_sq (f : Word → Word) (s : State) (a b : Nat) : (modEvPend f s).sq a b = s.sq a b := rfl
@[simp] theorem modEvPend_cq (f : Word → Word) (s : State) (a b : Nat) : (modEvPend f s).cq a b = s.cq a b := rfl
@[simp] theorem modEvPend_dc (f : Word → Word) (s : State) (k : Nat) : (modEvPend f s).dc k = s.dc k := rfl
@[simp] theorem modEvPend_tile (f : Word → Word) (s : State) (k : Nat) : (modEvPend f s).tile k = s.tile k := rfl
@[simp] theorem modEvPend_csSt (f : Word → Word) (s : State) (k : Nat) : (modEvPend f s).csSt k = s.csSt k := rfl
@[simp] theorem modEvPend_slot (f : Word → Word) (s : State) (k : Nat) : (modEvPend f s).slot k = s.slot k := rfl
@[simp] theorem modEvPend_rbg (f : Word → Word) (s : State) (k : Nat) : (modEvPend f s).rbg k = s.rbg k := rfl
@[simp] theorem modEvPend_stream (f : Word → Word) (s : State) (k : Nat) : (modEvPend f s).stream k = s.stream k := rfl
@[simp] theorem modEvPend_cacheEnt (f : Word → Word) (s : State) (k : Nat) : (modEvPend f s).cacheEnt k = s.cacheEnt k := rfl
@[simp] theorem modEvPend_peer (f : Word → Word) (s : State) (k : Nat) : (modEvPend f s).peer k = s.peer k := rfl
@[simp] theorem modEvPend_tcmp (f : Word → Word) (s : State) (k : Nat) : (modEvPend f s).tcmp k = s.tcmp k := rfl
@[simp] theorem modEvPend_req (f : Word → Word) (s : State) (k : Nat) : (modEvPend f s).req k = s.req k := rfl

@[simp] theorem modBuserr_start (f : Capture → Capture) (s : State) : (modBuserr f s).start = s.start := rfl
@[simp] theorem modBuserr_roots (f : Capture → Capture) (s : State) : (modBuserr f s).roots = s.roots := rfl
@[simp] theorem modBuserr_ident (f : Capture → Capture) (s : State) : (modBuserr f s).ident = s.ident := rfl
@[simp] theorem modBuserr_owner (f : Capture → Capture) (s : State) : (modBuserr f s).owner = s.owner := rfl
@[simp] theorem modBuserr_denied (f : Capture → Capture) (s : State) : (modBuserr f s).denied = s.denied := rfl
@[simp] theorem modBuserr_own (f : Capture → Capture) (s : State) : (modBuserr f s).own = s.own := rfl
@[simp] theorem modBuserr_gen (f : Capture → Capture) (s : State) : (modBuserr f s).gen = s.gen := rfl
@[simp] theorem modBuserr_tens (f : Capture → Capture) (s : State) : (modBuserr f s).tens = s.tens := rfl
@[simp] theorem modBuserr_sqs (f : Capture → Capture) (s : State) : (modBuserr f s).sqs = s.sqs := rfl
@[simp] theorem modBuserr_cqs (f : Capture → Capture) (s : State) : (modBuserr f s).cqs = s.cqs := rfl
@[simp] theorem modBuserr_sch (f : Capture → Capture) (s : State) : (modBuserr f s).sch = s.sch := rfl
@[simp] theorem modBuserr_reqs (f : Capture → Capture) (s : State) : (modBuserr f s).reqs = s.reqs := rfl
@[simp] theorem modBuserr_sent (f : Capture → Capture) (s : State) : (modBuserr f s).sent = s.sent := rfl
@[simp] theorem modBuserr_tiles (f : Capture → Capture) (s : State) : (modBuserr f s).tiles = s.tiles := rfl
@[simp] theorem modBuserr_css (f : Capture → Capture) (s : State) : (modBuserr f s).css = s.css := rfl
@[simp] theorem modBuserr_ces (f : Capture → Capture) (s : State) : (modBuserr f s).ces = s.ces := rfl
@[simp] theorem modBuserr_streams (f : Capture → Capture) (s : State) : (modBuserr f s).streams = s.streams := rfl
@[simp] theorem modBuserr_ks (f : Capture → Capture) (s : State) : (modBuserr f s).ks = s.ks := rfl
@[simp] theorem modBuserr_meas (f : Capture → Capture) (s : State) : (modBuserr f s).meas = s.meas := rfl
@[simp] theorem modBuserr_es (f : Capture → Capture) (s : State) : (modBuserr f s).es = s.es := rfl
@[simp] theorem modBuserr_rbgs (f : Capture → Capture) (s : State) : (modBuserr f s).rbgs = s.rbgs := rfl
@[simp] theorem modBuserr_dcs (f : Capture → Capture) (s : State) : (modBuserr f s).dcs = s.dcs := rfl
@[simp] theorem modBuserr_fp (f : Capture → Capture) (s : State) : (modBuserr f s).fp = s.fp := rfl
@[simp] theorem modBuserr_time (f : Capture → Capture) (s : State) : (modBuserr f s).time = s.time := rfl
@[simp] theorem modBuserr_clk (f : Capture → Capture) (s : State) : (modBuserr f s).clk = s.clk := rfl
@[simp] theorem modBuserr_sup (f : Capture → Capture) (s : State) : (modBuserr f s).sup = s.sup := rfl
@[simp] theorem modBuserr_ret (f : Capture → Capture) (s : State) : (modBuserr f s).ret = s.ret := rfl
@[simp] theorem modBuserr_jrn (f : Capture → Capture) (s : State) : (modBuserr f s).jrn = s.jrn := rfl
@[simp] theorem modBuserr_evPend (f : Capture → Capture) (s : State) : (modBuserr f s).evPend = s.evPend := rfl
@[simp] theorem modBuserr_becnt (f : Capture → Capture) (s : State) : (modBuserr f s).becnt = s.becnt := rfl
@[simp] theorem modBuserr_pviol (f : Capture → Capture) (s : State) : (modBuserr f s).pviol = s.pviol := rfl
@[simp] theorem modBuserr_pvcnt (f : Capture → Capture) (s : State) : (modBuserr f s).pvcnt = s.pvcnt := rfl
@[simp] theorem modBuserr_crs (f : Capture → Capture) (s : State) : (modBuserr f s).crs = s.crs := rfl
@[simp] theorem modBuserr_boot (f : Capture → Capture) (s : State) : (modBuserr f s).boot = s.boot := rfl
@[simp] theorem modBuserr_heldWr (f : Capture → Capture) (s : State) : (modBuserr f s).heldWr = s.heldWr := rfl
@[simp] theorem modBuserr_latch (f : Capture → Capture) (s : State) : (modBuserr f s).latch = s.latch := rfl
@[simp] theorem modBuserr_out (f : Capture → Capture) (s : State) : (modBuserr f s).out = s.out := rfl
@[simp] theorem modBuserr_free (f : Capture → Capture) (s : State) : (modBuserr f s).free = s.free := rfl
@[simp] theorem modBuserr_pending (f : Capture → Capture) (s : State) : (modBuserr f s).pending = s.pending := rfl
theorem modBuserr_buserr (f : Capture → Capture) (s : State) : (modBuserr f s).buserr = f s.buserr := rfl
@[simp] theorem modBuserr_ten (f : Capture → Capture) (s : State) (k : Nat) : (modBuserr f s).ten k = s.ten k := rfl
@[simp] theorem modBuserr_sq (f : Capture → Capture) (s : State) (a b : Nat) : (modBuserr f s).sq a b = s.sq a b := rfl
@[simp] theorem modBuserr_cq (f : Capture → Capture) (s : State) (a b : Nat) : (modBuserr f s).cq a b = s.cq a b := rfl
@[simp] theorem modBuserr_dc (f : Capture → Capture) (s : State) (k : Nat) : (modBuserr f s).dc k = s.dc k := rfl
@[simp] theorem modBuserr_tile (f : Capture → Capture) (s : State) (k : Nat) : (modBuserr f s).tile k = s.tile k := rfl
@[simp] theorem modBuserr_csSt (f : Capture → Capture) (s : State) (k : Nat) : (modBuserr f s).csSt k = s.csSt k := rfl
@[simp] theorem modBuserr_slot (f : Capture → Capture) (s : State) (k : Nat) : (modBuserr f s).slot k = s.slot k := rfl
@[simp] theorem modBuserr_rbg (f : Capture → Capture) (s : State) (k : Nat) : (modBuserr f s).rbg k = s.rbg k := rfl
@[simp] theorem modBuserr_stream (f : Capture → Capture) (s : State) (k : Nat) : (modBuserr f s).stream k = s.stream k := rfl
@[simp] theorem modBuserr_cacheEnt (f : Capture → Capture) (s : State) (k : Nat) : (modBuserr f s).cacheEnt k = s.cacheEnt k := rfl
@[simp] theorem modBuserr_peer (f : Capture → Capture) (s : State) (k : Nat) : (modBuserr f s).peer k = s.peer k := rfl
@[simp] theorem modBuserr_tcmp (f : Capture → Capture) (s : State) (k : Nat) : (modBuserr f s).tcmp k = s.tcmp k := rfl
@[simp] theorem modBuserr_req (f : Capture → Capture) (s : State) (k : Nat) : (modBuserr f s).req k = s.req k := rfl

@[simp] theorem modBecnt_start (f : Cnt32 → Cnt32) (s : State) : (modBecnt f s).start = s.start := rfl
@[simp] theorem modBecnt_roots (f : Cnt32 → Cnt32) (s : State) : (modBecnt f s).roots = s.roots := rfl
@[simp] theorem modBecnt_ident (f : Cnt32 → Cnt32) (s : State) : (modBecnt f s).ident = s.ident := rfl
@[simp] theorem modBecnt_owner (f : Cnt32 → Cnt32) (s : State) : (modBecnt f s).owner = s.owner := rfl
@[simp] theorem modBecnt_denied (f : Cnt32 → Cnt32) (s : State) : (modBecnt f s).denied = s.denied := rfl
@[simp] theorem modBecnt_own (f : Cnt32 → Cnt32) (s : State) : (modBecnt f s).own = s.own := rfl
@[simp] theorem modBecnt_gen (f : Cnt32 → Cnt32) (s : State) : (modBecnt f s).gen = s.gen := rfl
@[simp] theorem modBecnt_tens (f : Cnt32 → Cnt32) (s : State) : (modBecnt f s).tens = s.tens := rfl
@[simp] theorem modBecnt_sqs (f : Cnt32 → Cnt32) (s : State) : (modBecnt f s).sqs = s.sqs := rfl
@[simp] theorem modBecnt_cqs (f : Cnt32 → Cnt32) (s : State) : (modBecnt f s).cqs = s.cqs := rfl
@[simp] theorem modBecnt_sch (f : Cnt32 → Cnt32) (s : State) : (modBecnt f s).sch = s.sch := rfl
@[simp] theorem modBecnt_reqs (f : Cnt32 → Cnt32) (s : State) : (modBecnt f s).reqs = s.reqs := rfl
@[simp] theorem modBecnt_sent (f : Cnt32 → Cnt32) (s : State) : (modBecnt f s).sent = s.sent := rfl
@[simp] theorem modBecnt_tiles (f : Cnt32 → Cnt32) (s : State) : (modBecnt f s).tiles = s.tiles := rfl
@[simp] theorem modBecnt_css (f : Cnt32 → Cnt32) (s : State) : (modBecnt f s).css = s.css := rfl
@[simp] theorem modBecnt_ces (f : Cnt32 → Cnt32) (s : State) : (modBecnt f s).ces = s.ces := rfl
@[simp] theorem modBecnt_streams (f : Cnt32 → Cnt32) (s : State) : (modBecnt f s).streams = s.streams := rfl
@[simp] theorem modBecnt_ks (f : Cnt32 → Cnt32) (s : State) : (modBecnt f s).ks = s.ks := rfl
@[simp] theorem modBecnt_meas (f : Cnt32 → Cnt32) (s : State) : (modBecnt f s).meas = s.meas := rfl
@[simp] theorem modBecnt_es (f : Cnt32 → Cnt32) (s : State) : (modBecnt f s).es = s.es := rfl
@[simp] theorem modBecnt_rbgs (f : Cnt32 → Cnt32) (s : State) : (modBecnt f s).rbgs = s.rbgs := rfl
@[simp] theorem modBecnt_dcs (f : Cnt32 → Cnt32) (s : State) : (modBecnt f s).dcs = s.dcs := rfl
@[simp] theorem modBecnt_fp (f : Cnt32 → Cnt32) (s : State) : (modBecnt f s).fp = s.fp := rfl
@[simp] theorem modBecnt_time (f : Cnt32 → Cnt32) (s : State) : (modBecnt f s).time = s.time := rfl
@[simp] theorem modBecnt_clk (f : Cnt32 → Cnt32) (s : State) : (modBecnt f s).clk = s.clk := rfl
@[simp] theorem modBecnt_sup (f : Cnt32 → Cnt32) (s : State) : (modBecnt f s).sup = s.sup := rfl
@[simp] theorem modBecnt_ret (f : Cnt32 → Cnt32) (s : State) : (modBecnt f s).ret = s.ret := rfl
@[simp] theorem modBecnt_jrn (f : Cnt32 → Cnt32) (s : State) : (modBecnt f s).jrn = s.jrn := rfl
@[simp] theorem modBecnt_evPend (f : Cnt32 → Cnt32) (s : State) : (modBecnt f s).evPend = s.evPend := rfl
@[simp] theorem modBecnt_buserr (f : Cnt32 → Cnt32) (s : State) : (modBecnt f s).buserr = s.buserr := rfl
@[simp] theorem modBecnt_pviol (f : Cnt32 → Cnt32) (s : State) : (modBecnt f s).pviol = s.pviol := rfl
@[simp] theorem modBecnt_pvcnt (f : Cnt32 → Cnt32) (s : State) : (modBecnt f s).pvcnt = s.pvcnt := rfl
@[simp] theorem modBecnt_crs (f : Cnt32 → Cnt32) (s : State) : (modBecnt f s).crs = s.crs := rfl
@[simp] theorem modBecnt_boot (f : Cnt32 → Cnt32) (s : State) : (modBecnt f s).boot = s.boot := rfl
@[simp] theorem modBecnt_heldWr (f : Cnt32 → Cnt32) (s : State) : (modBecnt f s).heldWr = s.heldWr := rfl
@[simp] theorem modBecnt_latch (f : Cnt32 → Cnt32) (s : State) : (modBecnt f s).latch = s.latch := rfl
@[simp] theorem modBecnt_out (f : Cnt32 → Cnt32) (s : State) : (modBecnt f s).out = s.out := rfl
@[simp] theorem modBecnt_free (f : Cnt32 → Cnt32) (s : State) : (modBecnt f s).free = s.free := rfl
@[simp] theorem modBecnt_pending (f : Cnt32 → Cnt32) (s : State) : (modBecnt f s).pending = s.pending := rfl
theorem modBecnt_becnt (f : Cnt32 → Cnt32) (s : State) : (modBecnt f s).becnt = f s.becnt := rfl
@[simp] theorem modBecnt_ten (f : Cnt32 → Cnt32) (s : State) (k : Nat) : (modBecnt f s).ten k = s.ten k := rfl
@[simp] theorem modBecnt_sq (f : Cnt32 → Cnt32) (s : State) (a b : Nat) : (modBecnt f s).sq a b = s.sq a b := rfl
@[simp] theorem modBecnt_cq (f : Cnt32 → Cnt32) (s : State) (a b : Nat) : (modBecnt f s).cq a b = s.cq a b := rfl
@[simp] theorem modBecnt_dc (f : Cnt32 → Cnt32) (s : State) (k : Nat) : (modBecnt f s).dc k = s.dc k := rfl
@[simp] theorem modBecnt_tile (f : Cnt32 → Cnt32) (s : State) (k : Nat) : (modBecnt f s).tile k = s.tile k := rfl
@[simp] theorem modBecnt_csSt (f : Cnt32 → Cnt32) (s : State) (k : Nat) : (modBecnt f s).csSt k = s.csSt k := rfl
@[simp] theorem modBecnt_slot (f : Cnt32 → Cnt32) (s : State) (k : Nat) : (modBecnt f s).slot k = s.slot k := rfl
@[simp] theorem modBecnt_rbg (f : Cnt32 → Cnt32) (s : State) (k : Nat) : (modBecnt f s).rbg k = s.rbg k := rfl
@[simp] theorem modBecnt_stream (f : Cnt32 → Cnt32) (s : State) (k : Nat) : (modBecnt f s).stream k = s.stream k := rfl
@[simp] theorem modBecnt_cacheEnt (f : Cnt32 → Cnt32) (s : State) (k : Nat) : (modBecnt f s).cacheEnt k = s.cacheEnt k := rfl
@[simp] theorem modBecnt_peer (f : Cnt32 → Cnt32) (s : State) (k : Nat) : (modBecnt f s).peer k = s.peer k := rfl
@[simp] theorem modBecnt_tcmp (f : Cnt32 → Cnt32) (s : State) (k : Nat) : (modBecnt f s).tcmp k = s.tcmp k := rfl
@[simp] theorem modBecnt_req (f : Cnt32 → Cnt32) (s : State) (k : Nat) : (modBecnt f s).req k = s.req k := rfl

@[simp] theorem modPviol_start (f : Capture → Capture) (s : State) : (modPviol f s).start = s.start := rfl
@[simp] theorem modPviol_roots (f : Capture → Capture) (s : State) : (modPviol f s).roots = s.roots := rfl
@[simp] theorem modPviol_ident (f : Capture → Capture) (s : State) : (modPviol f s).ident = s.ident := rfl
@[simp] theorem modPviol_owner (f : Capture → Capture) (s : State) : (modPviol f s).owner = s.owner := rfl
@[simp] theorem modPviol_denied (f : Capture → Capture) (s : State) : (modPviol f s).denied = s.denied := rfl
@[simp] theorem modPviol_own (f : Capture → Capture) (s : State) : (modPviol f s).own = s.own := rfl
@[simp] theorem modPviol_gen (f : Capture → Capture) (s : State) : (modPviol f s).gen = s.gen := rfl
@[simp] theorem modPviol_tens (f : Capture → Capture) (s : State) : (modPviol f s).tens = s.tens := rfl
@[simp] theorem modPviol_sqs (f : Capture → Capture) (s : State) : (modPviol f s).sqs = s.sqs := rfl
@[simp] theorem modPviol_cqs (f : Capture → Capture) (s : State) : (modPviol f s).cqs = s.cqs := rfl
@[simp] theorem modPviol_sch (f : Capture → Capture) (s : State) : (modPviol f s).sch = s.sch := rfl
@[simp] theorem modPviol_reqs (f : Capture → Capture) (s : State) : (modPviol f s).reqs = s.reqs := rfl
@[simp] theorem modPviol_sent (f : Capture → Capture) (s : State) : (modPviol f s).sent = s.sent := rfl
@[simp] theorem modPviol_tiles (f : Capture → Capture) (s : State) : (modPviol f s).tiles = s.tiles := rfl
@[simp] theorem modPviol_css (f : Capture → Capture) (s : State) : (modPviol f s).css = s.css := rfl
@[simp] theorem modPviol_ces (f : Capture → Capture) (s : State) : (modPviol f s).ces = s.ces := rfl
@[simp] theorem modPviol_streams (f : Capture → Capture) (s : State) : (modPviol f s).streams = s.streams := rfl
@[simp] theorem modPviol_ks (f : Capture → Capture) (s : State) : (modPviol f s).ks = s.ks := rfl
@[simp] theorem modPviol_meas (f : Capture → Capture) (s : State) : (modPviol f s).meas = s.meas := rfl
@[simp] theorem modPviol_es (f : Capture → Capture) (s : State) : (modPviol f s).es = s.es := rfl
@[simp] theorem modPviol_rbgs (f : Capture → Capture) (s : State) : (modPviol f s).rbgs = s.rbgs := rfl
@[simp] theorem modPviol_dcs (f : Capture → Capture) (s : State) : (modPviol f s).dcs = s.dcs := rfl
@[simp] theorem modPviol_fp (f : Capture → Capture) (s : State) : (modPviol f s).fp = s.fp := rfl
@[simp] theorem modPviol_time (f : Capture → Capture) (s : State) : (modPviol f s).time = s.time := rfl
@[simp] theorem modPviol_clk (f : Capture → Capture) (s : State) : (modPviol f s).clk = s.clk := rfl
@[simp] theorem modPviol_sup (f : Capture → Capture) (s : State) : (modPviol f s).sup = s.sup := rfl
@[simp] theorem modPviol_ret (f : Capture → Capture) (s : State) : (modPviol f s).ret = s.ret := rfl
@[simp] theorem modPviol_jrn (f : Capture → Capture) (s : State) : (modPviol f s).jrn = s.jrn := rfl
@[simp] theorem modPviol_evPend (f : Capture → Capture) (s : State) : (modPviol f s).evPend = s.evPend := rfl
@[simp] theorem modPviol_buserr (f : Capture → Capture) (s : State) : (modPviol f s).buserr = s.buserr := rfl
@[simp] theorem modPviol_becnt (f : Capture → Capture) (s : State) : (modPviol f s).becnt = s.becnt := rfl
@[simp] theorem modPviol_pvcnt (f : Capture → Capture) (s : State) : (modPviol f s).pvcnt = s.pvcnt := rfl
@[simp] theorem modPviol_crs (f : Capture → Capture) (s : State) : (modPviol f s).crs = s.crs := rfl
@[simp] theorem modPviol_boot (f : Capture → Capture) (s : State) : (modPviol f s).boot = s.boot := rfl
@[simp] theorem modPviol_heldWr (f : Capture → Capture) (s : State) : (modPviol f s).heldWr = s.heldWr := rfl
@[simp] theorem modPviol_latch (f : Capture → Capture) (s : State) : (modPviol f s).latch = s.latch := rfl
@[simp] theorem modPviol_out (f : Capture → Capture) (s : State) : (modPviol f s).out = s.out := rfl
@[simp] theorem modPviol_free (f : Capture → Capture) (s : State) : (modPviol f s).free = s.free := rfl
@[simp] theorem modPviol_pending (f : Capture → Capture) (s : State) : (modPviol f s).pending = s.pending := rfl
theorem modPviol_pviol (f : Capture → Capture) (s : State) : (modPviol f s).pviol = f s.pviol := rfl
@[simp] theorem modPviol_ten (f : Capture → Capture) (s : State) (k : Nat) : (modPviol f s).ten k = s.ten k := rfl
@[simp] theorem modPviol_sq (f : Capture → Capture) (s : State) (a b : Nat) : (modPviol f s).sq a b = s.sq a b := rfl
@[simp] theorem modPviol_cq (f : Capture → Capture) (s : State) (a b : Nat) : (modPviol f s).cq a b = s.cq a b := rfl
@[simp] theorem modPviol_dc (f : Capture → Capture) (s : State) (k : Nat) : (modPviol f s).dc k = s.dc k := rfl
@[simp] theorem modPviol_tile (f : Capture → Capture) (s : State) (k : Nat) : (modPviol f s).tile k = s.tile k := rfl
@[simp] theorem modPviol_csSt (f : Capture → Capture) (s : State) (k : Nat) : (modPviol f s).csSt k = s.csSt k := rfl
@[simp] theorem modPviol_slot (f : Capture → Capture) (s : State) (k : Nat) : (modPviol f s).slot k = s.slot k := rfl
@[simp] theorem modPviol_rbg (f : Capture → Capture) (s : State) (k : Nat) : (modPviol f s).rbg k = s.rbg k := rfl
@[simp] theorem modPviol_stream (f : Capture → Capture) (s : State) (k : Nat) : (modPviol f s).stream k = s.stream k := rfl
@[simp] theorem modPviol_cacheEnt (f : Capture → Capture) (s : State) (k : Nat) : (modPviol f s).cacheEnt k = s.cacheEnt k := rfl
@[simp] theorem modPviol_peer (f : Capture → Capture) (s : State) (k : Nat) : (modPviol f s).peer k = s.peer k := rfl
@[simp] theorem modPviol_tcmp (f : Capture → Capture) (s : State) (k : Nat) : (modPviol f s).tcmp k = s.tcmp k := rfl
@[simp] theorem modPviol_req (f : Capture → Capture) (s : State) (k : Nat) : (modPviol f s).req k = s.req k := rfl

@[simp] theorem modPvcnt_start (f : Cnt32 → Cnt32) (s : State) : (modPvcnt f s).start = s.start := rfl
@[simp] theorem modPvcnt_roots (f : Cnt32 → Cnt32) (s : State) : (modPvcnt f s).roots = s.roots := rfl
@[simp] theorem modPvcnt_ident (f : Cnt32 → Cnt32) (s : State) : (modPvcnt f s).ident = s.ident := rfl
@[simp] theorem modPvcnt_owner (f : Cnt32 → Cnt32) (s : State) : (modPvcnt f s).owner = s.owner := rfl
@[simp] theorem modPvcnt_denied (f : Cnt32 → Cnt32) (s : State) : (modPvcnt f s).denied = s.denied := rfl
@[simp] theorem modPvcnt_own (f : Cnt32 → Cnt32) (s : State) : (modPvcnt f s).own = s.own := rfl
@[simp] theorem modPvcnt_gen (f : Cnt32 → Cnt32) (s : State) : (modPvcnt f s).gen = s.gen := rfl
@[simp] theorem modPvcnt_tens (f : Cnt32 → Cnt32) (s : State) : (modPvcnt f s).tens = s.tens := rfl
@[simp] theorem modPvcnt_sqs (f : Cnt32 → Cnt32) (s : State) : (modPvcnt f s).sqs = s.sqs := rfl
@[simp] theorem modPvcnt_cqs (f : Cnt32 → Cnt32) (s : State) : (modPvcnt f s).cqs = s.cqs := rfl
@[simp] theorem modPvcnt_sch (f : Cnt32 → Cnt32) (s : State) : (modPvcnt f s).sch = s.sch := rfl
@[simp] theorem modPvcnt_reqs (f : Cnt32 → Cnt32) (s : State) : (modPvcnt f s).reqs = s.reqs := rfl
@[simp] theorem modPvcnt_sent (f : Cnt32 → Cnt32) (s : State) : (modPvcnt f s).sent = s.sent := rfl
@[simp] theorem modPvcnt_tiles (f : Cnt32 → Cnt32) (s : State) : (modPvcnt f s).tiles = s.tiles := rfl
@[simp] theorem modPvcnt_css (f : Cnt32 → Cnt32) (s : State) : (modPvcnt f s).css = s.css := rfl
@[simp] theorem modPvcnt_ces (f : Cnt32 → Cnt32) (s : State) : (modPvcnt f s).ces = s.ces := rfl
@[simp] theorem modPvcnt_streams (f : Cnt32 → Cnt32) (s : State) : (modPvcnt f s).streams = s.streams := rfl
@[simp] theorem modPvcnt_ks (f : Cnt32 → Cnt32) (s : State) : (modPvcnt f s).ks = s.ks := rfl
@[simp] theorem modPvcnt_meas (f : Cnt32 → Cnt32) (s : State) : (modPvcnt f s).meas = s.meas := rfl
@[simp] theorem modPvcnt_es (f : Cnt32 → Cnt32) (s : State) : (modPvcnt f s).es = s.es := rfl
@[simp] theorem modPvcnt_rbgs (f : Cnt32 → Cnt32) (s : State) : (modPvcnt f s).rbgs = s.rbgs := rfl
@[simp] theorem modPvcnt_dcs (f : Cnt32 → Cnt32) (s : State) : (modPvcnt f s).dcs = s.dcs := rfl
@[simp] theorem modPvcnt_fp (f : Cnt32 → Cnt32) (s : State) : (modPvcnt f s).fp = s.fp := rfl
@[simp] theorem modPvcnt_time (f : Cnt32 → Cnt32) (s : State) : (modPvcnt f s).time = s.time := rfl
@[simp] theorem modPvcnt_clk (f : Cnt32 → Cnt32) (s : State) : (modPvcnt f s).clk = s.clk := rfl
@[simp] theorem modPvcnt_sup (f : Cnt32 → Cnt32) (s : State) : (modPvcnt f s).sup = s.sup := rfl
@[simp] theorem modPvcnt_ret (f : Cnt32 → Cnt32) (s : State) : (modPvcnt f s).ret = s.ret := rfl
@[simp] theorem modPvcnt_jrn (f : Cnt32 → Cnt32) (s : State) : (modPvcnt f s).jrn = s.jrn := rfl
@[simp] theorem modPvcnt_evPend (f : Cnt32 → Cnt32) (s : State) : (modPvcnt f s).evPend = s.evPend := rfl
@[simp] theorem modPvcnt_buserr (f : Cnt32 → Cnt32) (s : State) : (modPvcnt f s).buserr = s.buserr := rfl
@[simp] theorem modPvcnt_becnt (f : Cnt32 → Cnt32) (s : State) : (modPvcnt f s).becnt = s.becnt := rfl
@[simp] theorem modPvcnt_pviol (f : Cnt32 → Cnt32) (s : State) : (modPvcnt f s).pviol = s.pviol := rfl
@[simp] theorem modPvcnt_crs (f : Cnt32 → Cnt32) (s : State) : (modPvcnt f s).crs = s.crs := rfl
@[simp] theorem modPvcnt_boot (f : Cnt32 → Cnt32) (s : State) : (modPvcnt f s).boot = s.boot := rfl
@[simp] theorem modPvcnt_heldWr (f : Cnt32 → Cnt32) (s : State) : (modPvcnt f s).heldWr = s.heldWr := rfl
@[simp] theorem modPvcnt_latch (f : Cnt32 → Cnt32) (s : State) : (modPvcnt f s).latch = s.latch := rfl
@[simp] theorem modPvcnt_out (f : Cnt32 → Cnt32) (s : State) : (modPvcnt f s).out = s.out := rfl
@[simp] theorem modPvcnt_free (f : Cnt32 → Cnt32) (s : State) : (modPvcnt f s).free = s.free := rfl
@[simp] theorem modPvcnt_pending (f : Cnt32 → Cnt32) (s : State) : (modPvcnt f s).pending = s.pending := rfl
theorem modPvcnt_pvcnt (f : Cnt32 → Cnt32) (s : State) : (modPvcnt f s).pvcnt = f s.pvcnt := rfl
@[simp] theorem modPvcnt_ten (f : Cnt32 → Cnt32) (s : State) (k : Nat) : (modPvcnt f s).ten k = s.ten k := rfl
@[simp] theorem modPvcnt_sq (f : Cnt32 → Cnt32) (s : State) (a b : Nat) : (modPvcnt f s).sq a b = s.sq a b := rfl
@[simp] theorem modPvcnt_cq (f : Cnt32 → Cnt32) (s : State) (a b : Nat) : (modPvcnt f s).cq a b = s.cq a b := rfl
@[simp] theorem modPvcnt_dc (f : Cnt32 → Cnt32) (s : State) (k : Nat) : (modPvcnt f s).dc k = s.dc k := rfl
@[simp] theorem modPvcnt_tile (f : Cnt32 → Cnt32) (s : State) (k : Nat) : (modPvcnt f s).tile k = s.tile k := rfl
@[simp] theorem modPvcnt_csSt (f : Cnt32 → Cnt32) (s : State) (k : Nat) : (modPvcnt f s).csSt k = s.csSt k := rfl
@[simp] theorem modPvcnt_slot (f : Cnt32 → Cnt32) (s : State) (k : Nat) : (modPvcnt f s).slot k = s.slot k := rfl
@[simp] theorem modPvcnt_rbg (f : Cnt32 → Cnt32) (s : State) (k : Nat) : (modPvcnt f s).rbg k = s.rbg k := rfl
@[simp] theorem modPvcnt_stream (f : Cnt32 → Cnt32) (s : State) (k : Nat) : (modPvcnt f s).stream k = s.stream k := rfl
@[simp] theorem modPvcnt_cacheEnt (f : Cnt32 → Cnt32) (s : State) (k : Nat) : (modPvcnt f s).cacheEnt k = s.cacheEnt k := rfl
@[simp] theorem modPvcnt_peer (f : Cnt32 → Cnt32) (s : State) (k : Nat) : (modPvcnt f s).peer k = s.peer k := rfl
@[simp] theorem modPvcnt_tcmp (f : Cnt32 → Cnt32) (s : State) (k : Nat) : (modPvcnt f s).tcmp k = s.tcmp k := rfl
@[simp] theorem modPvcnt_req (f : Cnt32 → Cnt32) (s : State) (k : Nat) : (modPvcnt f s).req k = s.req k := rfl

@[simp] theorem modCe_start (c : Nat) (f : Cnt32 → Cnt32) (s : State) : (modCe c f s).start = s.start := rfl
@[simp] theorem modCe_roots (c : Nat) (f : Cnt32 → Cnt32) (s : State) : (modCe c f s).roots = s.roots := rfl
@[simp] theorem modCe_ident (c : Nat) (f : Cnt32 → Cnt32) (s : State) : (modCe c f s).ident = s.ident := rfl
@[simp] theorem modCe_owner (c : Nat) (f : Cnt32 → Cnt32) (s : State) : (modCe c f s).owner = s.owner := rfl
@[simp] theorem modCe_denied (c : Nat) (f : Cnt32 → Cnt32) (s : State) : (modCe c f s).denied = s.denied := rfl
@[simp] theorem modCe_own (c : Nat) (f : Cnt32 → Cnt32) (s : State) : (modCe c f s).own = s.own := rfl
@[simp] theorem modCe_gen (c : Nat) (f : Cnt32 → Cnt32) (s : State) : (modCe c f s).gen = s.gen := rfl
@[simp] theorem modCe_tens (c : Nat) (f : Cnt32 → Cnt32) (s : State) : (modCe c f s).tens = s.tens := rfl
@[simp] theorem modCe_sqs (c : Nat) (f : Cnt32 → Cnt32) (s : State) : (modCe c f s).sqs = s.sqs := rfl
@[simp] theorem modCe_cqs (c : Nat) (f : Cnt32 → Cnt32) (s : State) : (modCe c f s).cqs = s.cqs := rfl
@[simp] theorem modCe_sch (c : Nat) (f : Cnt32 → Cnt32) (s : State) : (modCe c f s).sch = s.sch := rfl
@[simp] theorem modCe_reqs (c : Nat) (f : Cnt32 → Cnt32) (s : State) : (modCe c f s).reqs = s.reqs := rfl
@[simp] theorem modCe_sent (c : Nat) (f : Cnt32 → Cnt32) (s : State) : (modCe c f s).sent = s.sent := rfl
@[simp] theorem modCe_tiles (c : Nat) (f : Cnt32 → Cnt32) (s : State) : (modCe c f s).tiles = s.tiles := rfl
@[simp] theorem modCe_css (c : Nat) (f : Cnt32 → Cnt32) (s : State) : (modCe c f s).css = s.css := rfl
@[simp] theorem modCe_streams (c : Nat) (f : Cnt32 → Cnt32) (s : State) : (modCe c f s).streams = s.streams := rfl
@[simp] theorem modCe_ks (c : Nat) (f : Cnt32 → Cnt32) (s : State) : (modCe c f s).ks = s.ks := rfl
@[simp] theorem modCe_meas (c : Nat) (f : Cnt32 → Cnt32) (s : State) : (modCe c f s).meas = s.meas := rfl
@[simp] theorem modCe_es (c : Nat) (f : Cnt32 → Cnt32) (s : State) : (modCe c f s).es = s.es := rfl
@[simp] theorem modCe_rbgs (c : Nat) (f : Cnt32 → Cnt32) (s : State) : (modCe c f s).rbgs = s.rbgs := rfl
@[simp] theorem modCe_dcs (c : Nat) (f : Cnt32 → Cnt32) (s : State) : (modCe c f s).dcs = s.dcs := rfl
@[simp] theorem modCe_fp (c : Nat) (f : Cnt32 → Cnt32) (s : State) : (modCe c f s).fp = s.fp := rfl
@[simp] theorem modCe_time (c : Nat) (f : Cnt32 → Cnt32) (s : State) : (modCe c f s).time = s.time := rfl
@[simp] theorem modCe_clk (c : Nat) (f : Cnt32 → Cnt32) (s : State) : (modCe c f s).clk = s.clk := rfl
@[simp] theorem modCe_sup (c : Nat) (f : Cnt32 → Cnt32) (s : State) : (modCe c f s).sup = s.sup := rfl
@[simp] theorem modCe_ret (c : Nat) (f : Cnt32 → Cnt32) (s : State) : (modCe c f s).ret = s.ret := rfl
@[simp] theorem modCe_jrn (c : Nat) (f : Cnt32 → Cnt32) (s : State) : (modCe c f s).jrn = s.jrn := rfl
@[simp] theorem modCe_evPend (c : Nat) (f : Cnt32 → Cnt32) (s : State) : (modCe c f s).evPend = s.evPend := rfl
@[simp] theorem modCe_buserr (c : Nat) (f : Cnt32 → Cnt32) (s : State) : (modCe c f s).buserr = s.buserr := rfl
@[simp] theorem modCe_becnt (c : Nat) (f : Cnt32 → Cnt32) (s : State) : (modCe c f s).becnt = s.becnt := rfl
@[simp] theorem modCe_pviol (c : Nat) (f : Cnt32 → Cnt32) (s : State) : (modCe c f s).pviol = s.pviol := rfl
@[simp] theorem modCe_pvcnt (c : Nat) (f : Cnt32 → Cnt32) (s : State) : (modCe c f s).pvcnt = s.pvcnt := rfl
@[simp] theorem modCe_crs (c : Nat) (f : Cnt32 → Cnt32) (s : State) : (modCe c f s).crs = s.crs := rfl
@[simp] theorem modCe_boot (c : Nat) (f : Cnt32 → Cnt32) (s : State) : (modCe c f s).boot = s.boot := rfl
@[simp] theorem modCe_heldWr (c : Nat) (f : Cnt32 → Cnt32) (s : State) : (modCe c f s).heldWr = s.heldWr := rfl
@[simp] theorem modCe_latch (c : Nat) (f : Cnt32 → Cnt32) (s : State) : (modCe c f s).latch = s.latch := rfl
@[simp] theorem modCe_out (c : Nat) (f : Cnt32 → Cnt32) (s : State) : (modCe c f s).out = s.out := rfl
@[simp] theorem modCe_free (c : Nat) (f : Cnt32 → Cnt32) (s : State) : (modCe c f s).free = s.free := rfl
@[simp] theorem modCe_pending (c : Nat) (f : Cnt32 → Cnt32) (s : State) : (modCe c f s).pending = s.pending := rfl
theorem modCe_ces (c : Nat) (f : Cnt32 → Cnt32) (s : State) : (modCe c f s).ces = s.ces.put {} c (f (s.ces.look {} c)) := rfl
@[simp] theorem modCe_ten (c : Nat) (f : Cnt32 → Cnt32) (s : State) (k : Nat) : (modCe c f s).ten k = s.ten k := rfl
@[simp] theorem modCe_sq (c : Nat) (f : Cnt32 → Cnt32) (s : State) (a b : Nat) : (modCe c f s).sq a b = s.sq a b := rfl
@[simp] theorem modCe_cq (c : Nat) (f : Cnt32 → Cnt32) (s : State) (a b : Nat) : (modCe c f s).cq a b = s.cq a b := rfl
@[simp] theorem modCe_dc (c : Nat) (f : Cnt32 → Cnt32) (s : State) (k : Nat) : (modCe c f s).dc k = s.dc k := rfl
@[simp] theorem modCe_tile (c : Nat) (f : Cnt32 → Cnt32) (s : State) (k : Nat) : (modCe c f s).tile k = s.tile k := rfl
@[simp] theorem modCe_csSt (c : Nat) (f : Cnt32 → Cnt32) (s : State) (k : Nat) : (modCe c f s).csSt k = s.csSt k := rfl
@[simp] theorem modCe_slot (c : Nat) (f : Cnt32 → Cnt32) (s : State) (k : Nat) : (modCe c f s).slot k = s.slot k := rfl
@[simp] theorem modCe_rbg (c : Nat) (f : Cnt32 → Cnt32) (s : State) (k : Nat) : (modCe c f s).rbg k = s.rbg k := rfl
@[simp] theorem modCe_stream (c : Nat) (f : Cnt32 → Cnt32) (s : State) (k : Nat) : (modCe c f s).stream k = s.stream k := rfl
@[simp] theorem modCe_cacheEnt (c : Nat) (f : Cnt32 → Cnt32) (s : State) (k : Nat) : (modCe c f s).cacheEnt k = s.cacheEnt k := rfl
@[simp] theorem modCe_peer (c : Nat) (f : Cnt32 → Cnt32) (s : State) (k : Nat) : (modCe c f s).peer k = s.peer k := rfl
@[simp] theorem modCe_tcmp (c : Nat) (f : Cnt32 → Cnt32) (s : State) (k : Nat) : (modCe c f s).tcmp k = s.tcmp k := rfl
@[simp] theorem modCe_req (c : Nat) (f : Cnt32 → Cnt32) (s : State) (k : Nat) : (modCe c f s).req k = s.req k := rfl

@[simp] theorem modSent_start (f : List Req → List Req) (s : State) : (modSent f s).start = s.start := rfl
@[simp] theorem modSent_roots (f : List Req → List Req) (s : State) : (modSent f s).roots = s.roots := rfl
@[simp] theorem modSent_ident (f : List Req → List Req) (s : State) : (modSent f s).ident = s.ident := rfl
@[simp] theorem modSent_owner (f : List Req → List Req) (s : State) : (modSent f s).owner = s.owner := rfl
@[simp] theorem modSent_denied (f : List Req → List Req) (s : State) : (modSent f s).denied = s.denied := rfl
@[simp] theorem modSent_own (f : List Req → List Req) (s : State) : (modSent f s).own = s.own := rfl
@[simp] theorem modSent_gen (f : List Req → List Req) (s : State) : (modSent f s).gen = s.gen := rfl
@[simp] theorem modSent_tens (f : List Req → List Req) (s : State) : (modSent f s).tens = s.tens := rfl
@[simp] theorem modSent_sqs (f : List Req → List Req) (s : State) : (modSent f s).sqs = s.sqs := rfl
@[simp] theorem modSent_cqs (f : List Req → List Req) (s : State) : (modSent f s).cqs = s.cqs := rfl
@[simp] theorem modSent_sch (f : List Req → List Req) (s : State) : (modSent f s).sch = s.sch := rfl
@[simp] theorem modSent_reqs (f : List Req → List Req) (s : State) : (modSent f s).reqs = s.reqs := rfl
@[simp] theorem modSent_tiles (f : List Req → List Req) (s : State) : (modSent f s).tiles = s.tiles := rfl
@[simp] theorem modSent_css (f : List Req → List Req) (s : State) : (modSent f s).css = s.css := rfl
@[simp] theorem modSent_ces (f : List Req → List Req) (s : State) : (modSent f s).ces = s.ces := rfl
@[simp] theorem modSent_streams (f : List Req → List Req) (s : State) : (modSent f s).streams = s.streams := rfl
@[simp] theorem modSent_ks (f : List Req → List Req) (s : State) : (modSent f s).ks = s.ks := rfl
@[simp] theorem modSent_meas (f : List Req → List Req) (s : State) : (modSent f s).meas = s.meas := rfl
@[simp] theorem modSent_es (f : List Req → List Req) (s : State) : (modSent f s).es = s.es := rfl
@[simp] theorem modSent_rbgs (f : List Req → List Req) (s : State) : (modSent f s).rbgs = s.rbgs := rfl
@[simp] theorem modSent_dcs (f : List Req → List Req) (s : State) : (modSent f s).dcs = s.dcs := rfl
@[simp] theorem modSent_fp (f : List Req → List Req) (s : State) : (modSent f s).fp = s.fp := rfl
@[simp] theorem modSent_time (f : List Req → List Req) (s : State) : (modSent f s).time = s.time := rfl
@[simp] theorem modSent_clk (f : List Req → List Req) (s : State) : (modSent f s).clk = s.clk := rfl
@[simp] theorem modSent_sup (f : List Req → List Req) (s : State) : (modSent f s).sup = s.sup := rfl
@[simp] theorem modSent_ret (f : List Req → List Req) (s : State) : (modSent f s).ret = s.ret := rfl
@[simp] theorem modSent_jrn (f : List Req → List Req) (s : State) : (modSent f s).jrn = s.jrn := rfl
@[simp] theorem modSent_evPend (f : List Req → List Req) (s : State) : (modSent f s).evPend = s.evPend := rfl
@[simp] theorem modSent_buserr (f : List Req → List Req) (s : State) : (modSent f s).buserr = s.buserr := rfl
@[simp] theorem modSent_becnt (f : List Req → List Req) (s : State) : (modSent f s).becnt = s.becnt := rfl
@[simp] theorem modSent_pviol (f : List Req → List Req) (s : State) : (modSent f s).pviol = s.pviol := rfl
@[simp] theorem modSent_pvcnt (f : List Req → List Req) (s : State) : (modSent f s).pvcnt = s.pvcnt := rfl
@[simp] theorem modSent_crs (f : List Req → List Req) (s : State) : (modSent f s).crs = s.crs := rfl
@[simp] theorem modSent_boot (f : List Req → List Req) (s : State) : (modSent f s).boot = s.boot := rfl
@[simp] theorem modSent_heldWr (f : List Req → List Req) (s : State) : (modSent f s).heldWr = s.heldWr := rfl
@[simp] theorem modSent_latch (f : List Req → List Req) (s : State) : (modSent f s).latch = s.latch := rfl
@[simp] theorem modSent_out (f : List Req → List Req) (s : State) : (modSent f s).out = s.out := rfl
@[simp] theorem modSent_free (f : List Req → List Req) (s : State) : (modSent f s).free = s.free := rfl
@[simp] theorem modSent_pending (f : List Req → List Req) (s : State) : (modSent f s).pending = s.pending := rfl
theorem modSent_sent (f : List Req → List Req) (s : State) : (modSent f s).sent = f s.sent := rfl
@[simp] theorem modSent_ten (f : List Req → List Req) (s : State) (k : Nat) : (modSent f s).ten k = s.ten k := rfl
@[simp] theorem modSent_sq (f : List Req → List Req) (s : State) (a b : Nat) : (modSent f s).sq a b = s.sq a b := rfl
@[simp] theorem modSent_cq (f : List Req → List Req) (s : State) (a b : Nat) : (modSent f s).cq a b = s.cq a b := rfl
@[simp] theorem modSent_dc (f : List Req → List Req) (s : State) (k : Nat) : (modSent f s).dc k = s.dc k := rfl
@[simp] theorem modSent_tile (f : List Req → List Req) (s : State) (k : Nat) : (modSent f s).tile k = s.tile k := rfl
@[simp] theorem modSent_csSt (f : List Req → List Req) (s : State) (k : Nat) : (modSent f s).csSt k = s.csSt k := rfl
@[simp] theorem modSent_slot (f : List Req → List Req) (s : State) (k : Nat) : (modSent f s).slot k = s.slot k := rfl
@[simp] theorem modSent_rbg (f : List Req → List Req) (s : State) (k : Nat) : (modSent f s).rbg k = s.rbg k := rfl
@[simp] theorem modSent_stream (f : List Req → List Req) (s : State) (k : Nat) : (modSent f s).stream k = s.stream k := rfl
@[simp] theorem modSent_cacheEnt (f : List Req → List Req) (s : State) (k : Nat) : (modSent f s).cacheEnt k = s.cacheEnt k := rfl
@[simp] theorem modSent_peer (f : List Req → List Req) (s : State) (k : Nat) : (modSent f s).peer k = s.peer k := rfl
@[simp] theorem modSent_tcmp (f : List Req → List Req) (s : State) (k : Nat) : (modSent f s).tcmp k = s.tcmp k := rfl
@[simp] theorem modSent_req (f : List Req → List Req) (s : State) (k : Nat) : (modSent f s).req k = s.req k := rfl

@[simp] theorem modReqs_start (f : List Req → List Req) (s : State) : (modReqs f s).start = s.start := rfl
@[simp] theorem modReqs_roots (f : List Req → List Req) (s : State) : (modReqs f s).roots = s.roots := rfl
@[simp] theorem modReqs_ident (f : List Req → List Req) (s : State) : (modReqs f s).ident = s.ident := rfl
@[simp] theorem modReqs_owner (f : List Req → List Req) (s : State) : (modReqs f s).owner = s.owner := rfl
@[simp] theorem modReqs_denied (f : List Req → List Req) (s : State) : (modReqs f s).denied = s.denied := rfl
@[simp] theorem modReqs_own (f : List Req → List Req) (s : State) : (modReqs f s).own = s.own := rfl
@[simp] theorem modReqs_gen (f : List Req → List Req) (s : State) : (modReqs f s).gen = s.gen := rfl
@[simp] theorem modReqs_tens (f : List Req → List Req) (s : State) : (modReqs f s).tens = s.tens := rfl
@[simp] theorem modReqs_sqs (f : List Req → List Req) (s : State) : (modReqs f s).sqs = s.sqs := rfl
@[simp] theorem modReqs_cqs (f : List Req → List Req) (s : State) : (modReqs f s).cqs = s.cqs := rfl
@[simp] theorem modReqs_sch (f : List Req → List Req) (s : State) : (modReqs f s).sch = s.sch := rfl
@[simp] theorem modReqs_sent (f : List Req → List Req) (s : State) : (modReqs f s).sent = s.sent := rfl
@[simp] theorem modReqs_tiles (f : List Req → List Req) (s : State) : (modReqs f s).tiles = s.tiles := rfl
@[simp] theorem modReqs_css (f : List Req → List Req) (s : State) : (modReqs f s).css = s.css := rfl
@[simp] theorem modReqs_ces (f : List Req → List Req) (s : State) : (modReqs f s).ces = s.ces := rfl
@[simp] theorem modReqs_streams (f : List Req → List Req) (s : State) : (modReqs f s).streams = s.streams := rfl
@[simp] theorem modReqs_ks (f : List Req → List Req) (s : State) : (modReqs f s).ks = s.ks := rfl
@[simp] theorem modReqs_meas (f : List Req → List Req) (s : State) : (modReqs f s).meas = s.meas := rfl
@[simp] theorem modReqs_es (f : List Req → List Req) (s : State) : (modReqs f s).es = s.es := rfl
@[simp] theorem modReqs_rbgs (f : List Req → List Req) (s : State) : (modReqs f s).rbgs = s.rbgs := rfl
@[simp] theorem modReqs_dcs (f : List Req → List Req) (s : State) : (modReqs f s).dcs = s.dcs := rfl
@[simp] theorem modReqs_fp (f : List Req → List Req) (s : State) : (modReqs f s).fp = s.fp := rfl
@[simp] theorem modReqs_time (f : List Req → List Req) (s : State) : (modReqs f s).time = s.time := rfl
@[simp] theorem modReqs_clk (f : List Req → List Req) (s : State) : (modReqs f s).clk = s.clk := rfl
@[simp] theorem modReqs_sup (f : List Req → List Req) (s : State) : (modReqs f s).sup = s.sup := rfl
@[simp] theorem modReqs_ret (f : List Req → List Req) (s : State) : (modReqs f s).ret = s.ret := rfl
@[simp] theorem modReqs_jrn (f : List Req → List Req) (s : State) : (modReqs f s).jrn = s.jrn := rfl
@[simp] theorem modReqs_evPend (f : List Req → List Req) (s : State) : (modReqs f s).evPend = s.evPend := rfl
@[simp] theorem modReqs_buserr (f : List Req → List Req) (s : State) : (modReqs f s).buserr = s.buserr := rfl
@[simp] theorem modReqs_becnt (f : List Req → List Req) (s : State) : (modReqs f s).becnt = s.becnt := rfl
@[simp] theorem modReqs_pviol (f : List Req → List Req) (s : State) : (modReqs f s).pviol = s.pviol := rfl
@[simp] theorem modReqs_pvcnt (f : List Req → List Req) (s : State) : (modReqs f s).pvcnt = s.pvcnt := rfl
@[simp] theorem modReqs_crs (f : List Req → List Req) (s : State) : (modReqs f s).crs = s.crs := rfl
@[simp] theorem modReqs_boot (f : List Req → List Req) (s : State) : (modReqs f s).boot = s.boot := rfl
@[simp] theorem modReqs_heldWr (f : List Req → List Req) (s : State) : (modReqs f s).heldWr = s.heldWr := rfl
@[simp] theorem modReqs_latch (f : List Req → List Req) (s : State) : (modReqs f s).latch = s.latch := rfl
@[simp] theorem modReqs_out (f : List Req → List Req) (s : State) : (modReqs f s).out = s.out := rfl
@[simp] theorem modReqs_free (f : List Req → List Req) (s : State) : (modReqs f s).free = s.free := rfl
@[simp] theorem modReqs_pending (f : List Req → List Req) (s : State) : (modReqs f s).pending = s.pending := rfl
theorem modReqs_reqs (f : List Req → List Req) (s : State) : (modReqs f s).reqs = f s.reqs := rfl
@[simp] theorem modReqs_ten (f : List Req → List Req) (s : State) (k : Nat) : (modReqs f s).ten k = s.ten k := rfl
@[simp] theorem modReqs_sq (f : List Req → List Req) (s : State) (a b : Nat) : (modReqs f s).sq a b = s.sq a b := rfl
@[simp] theorem modReqs_cq (f : List Req → List Req) (s : State) (a b : Nat) : (modReqs f s).cq a b = s.cq a b := rfl
@[simp] theorem modReqs_dc (f : List Req → List Req) (s : State) (k : Nat) : (modReqs f s).dc k = s.dc k := rfl
@[simp] theorem modReqs_tile (f : List Req → List Req) (s : State) (k : Nat) : (modReqs f s).tile k = s.tile k := rfl
@[simp] theorem modReqs_csSt (f : List Req → List Req) (s : State) (k : Nat) : (modReqs f s).csSt k = s.csSt k := rfl
@[simp] theorem modReqs_slot (f : List Req → List Req) (s : State) (k : Nat) : (modReqs f s).slot k = s.slot k := rfl
@[simp] theorem modReqs_rbg (f : List Req → List Req) (s : State) (k : Nat) : (modReqs f s).rbg k = s.rbg k := rfl
@[simp] theorem modReqs_stream (f : List Req → List Req) (s : State) (k : Nat) : (modReqs f s).stream k = s.stream k := rfl
@[simp] theorem modReqs_cacheEnt (f : List Req → List Req) (s : State) (k : Nat) : (modReqs f s).cacheEnt k = s.cacheEnt k := rfl
@[simp] theorem modReqs_peer (f : List Req → List Req) (s : State) (k : Nat) : (modReqs f s).peer k = s.peer k := rfl
@[simp] theorem modReqs_tcmp (f : List Req → List Req) (s : State) (k : Nat) : (modReqs f s).tcmp k = s.tcmp k := rfl

@[simp] theorem modHeld_start (f : List HeldWrite → List HeldWrite) (s : State) : (modHeld f s).start = s.start := rfl
@[simp] theorem modHeld_roots (f : List HeldWrite → List HeldWrite) (s : State) : (modHeld f s).roots = s.roots := rfl
@[simp] theorem modHeld_ident (f : List HeldWrite → List HeldWrite) (s : State) : (modHeld f s).ident = s.ident := rfl
@[simp] theorem modHeld_owner (f : List HeldWrite → List HeldWrite) (s : State) : (modHeld f s).owner = s.owner := rfl
@[simp] theorem modHeld_denied (f : List HeldWrite → List HeldWrite) (s : State) : (modHeld f s).denied = s.denied := rfl
@[simp] theorem modHeld_own (f : List HeldWrite → List HeldWrite) (s : State) : (modHeld f s).own = s.own := rfl
@[simp] theorem modHeld_gen (f : List HeldWrite → List HeldWrite) (s : State) : (modHeld f s).gen = s.gen := rfl
@[simp] theorem modHeld_tens (f : List HeldWrite → List HeldWrite) (s : State) : (modHeld f s).tens = s.tens := rfl
@[simp] theorem modHeld_sqs (f : List HeldWrite → List HeldWrite) (s : State) : (modHeld f s).sqs = s.sqs := rfl
@[simp] theorem modHeld_cqs (f : List HeldWrite → List HeldWrite) (s : State) : (modHeld f s).cqs = s.cqs := rfl
@[simp] theorem modHeld_sch (f : List HeldWrite → List HeldWrite) (s : State) : (modHeld f s).sch = s.sch := rfl
@[simp] theorem modHeld_reqs (f : List HeldWrite → List HeldWrite) (s : State) : (modHeld f s).reqs = s.reqs := rfl
@[simp] theorem modHeld_sent (f : List HeldWrite → List HeldWrite) (s : State) : (modHeld f s).sent = s.sent := rfl
@[simp] theorem modHeld_tiles (f : List HeldWrite → List HeldWrite) (s : State) : (modHeld f s).tiles = s.tiles := rfl
@[simp] theorem modHeld_css (f : List HeldWrite → List HeldWrite) (s : State) : (modHeld f s).css = s.css := rfl
@[simp] theorem modHeld_ces (f : List HeldWrite → List HeldWrite) (s : State) : (modHeld f s).ces = s.ces := rfl
@[simp] theorem modHeld_streams (f : List HeldWrite → List HeldWrite) (s : State) : (modHeld f s).streams = s.streams := rfl
@[simp] theorem modHeld_ks (f : List HeldWrite → List HeldWrite) (s : State) : (modHeld f s).ks = s.ks := rfl
@[simp] theorem modHeld_meas (f : List HeldWrite → List HeldWrite) (s : State) : (modHeld f s).meas = s.meas := rfl
@[simp] theorem modHeld_es (f : List HeldWrite → List HeldWrite) (s : State) : (modHeld f s).es = s.es := rfl
@[simp] theorem modHeld_rbgs (f : List HeldWrite → List HeldWrite) (s : State) : (modHeld f s).rbgs = s.rbgs := rfl
@[simp] theorem modHeld_dcs (f : List HeldWrite → List HeldWrite) (s : State) : (modHeld f s).dcs = s.dcs := rfl
@[simp] theorem modHeld_fp (f : List HeldWrite → List HeldWrite) (s : State) : (modHeld f s).fp = s.fp := rfl
@[simp] theorem modHeld_time (f : List HeldWrite → List HeldWrite) (s : State) : (modHeld f s).time = s.time := rfl
@[simp] theorem modHeld_clk (f : List HeldWrite → List HeldWrite) (s : State) : (modHeld f s).clk = s.clk := rfl
@[simp] theorem modHeld_sup (f : List HeldWrite → List HeldWrite) (s : State) : (modHeld f s).sup = s.sup := rfl
@[simp] theorem modHeld_ret (f : List HeldWrite → List HeldWrite) (s : State) : (modHeld f s).ret = s.ret := rfl
@[simp] theorem modHeld_jrn (f : List HeldWrite → List HeldWrite) (s : State) : (modHeld f s).jrn = s.jrn := rfl
@[simp] theorem modHeld_evPend (f : List HeldWrite → List HeldWrite) (s : State) : (modHeld f s).evPend = s.evPend := rfl
@[simp] theorem modHeld_buserr (f : List HeldWrite → List HeldWrite) (s : State) : (modHeld f s).buserr = s.buserr := rfl
@[simp] theorem modHeld_becnt (f : List HeldWrite → List HeldWrite) (s : State) : (modHeld f s).becnt = s.becnt := rfl
@[simp] theorem modHeld_pviol (f : List HeldWrite → List HeldWrite) (s : State) : (modHeld f s).pviol = s.pviol := rfl
@[simp] theorem modHeld_pvcnt (f : List HeldWrite → List HeldWrite) (s : State) : (modHeld f s).pvcnt = s.pvcnt := rfl
@[simp] theorem modHeld_crs (f : List HeldWrite → List HeldWrite) (s : State) : (modHeld f s).crs = s.crs := rfl
@[simp] theorem modHeld_boot (f : List HeldWrite → List HeldWrite) (s : State) : (modHeld f s).boot = s.boot := rfl
@[simp] theorem modHeld_latch (f : List HeldWrite → List HeldWrite) (s : State) : (modHeld f s).latch = s.latch := rfl
@[simp] theorem modHeld_out (f : List HeldWrite → List HeldWrite) (s : State) : (modHeld f s).out = s.out := rfl
@[simp] theorem modHeld_free (f : List HeldWrite → List HeldWrite) (s : State) : (modHeld f s).free = s.free := rfl
@[simp] theorem modHeld_pending (f : List HeldWrite → List HeldWrite) (s : State) : (modHeld f s).pending = s.pending := rfl
theorem modHeld_heldWr (f : List HeldWrite → List HeldWrite) (s : State) : (modHeld f s).heldWr = f s.heldWr := rfl
@[simp] theorem modHeld_ten (f : List HeldWrite → List HeldWrite) (s : State) (k : Nat) : (modHeld f s).ten k = s.ten k := rfl
@[simp] theorem modHeld_sq (f : List HeldWrite → List HeldWrite) (s : State) (a b : Nat) : (modHeld f s).sq a b = s.sq a b := rfl
@[simp] theorem modHeld_cq (f : List HeldWrite → List HeldWrite) (s : State) (a b : Nat) : (modHeld f s).cq a b = s.cq a b := rfl
@[simp] theorem modHeld_dc (f : List HeldWrite → List HeldWrite) (s : State) (k : Nat) : (modHeld f s).dc k = s.dc k := rfl
@[simp] theorem modHeld_tile (f : List HeldWrite → List HeldWrite) (s : State) (k : Nat) : (modHeld f s).tile k = s.tile k := rfl
@[simp] theorem modHeld_csSt (f : List HeldWrite → List HeldWrite) (s : State) (k : Nat) : (modHeld f s).csSt k = s.csSt k := rfl
@[simp] theorem modHeld_slot (f : List HeldWrite → List HeldWrite) (s : State) (k : Nat) : (modHeld f s).slot k = s.slot k := rfl
@[simp] theorem modHeld_rbg (f : List HeldWrite → List HeldWrite) (s : State) (k : Nat) : (modHeld f s).rbg k = s.rbg k := rfl
@[simp] theorem modHeld_stream (f : List HeldWrite → List HeldWrite) (s : State) (k : Nat) : (modHeld f s).stream k = s.stream k := rfl
@[simp] theorem modHeld_cacheEnt (f : List HeldWrite → List HeldWrite) (s : State) (k : Nat) : (modHeld f s).cacheEnt k = s.cacheEnt k := rfl
@[simp] theorem modHeld_peer (f : List HeldWrite → List HeldWrite) (s : State) (k : Nat) : (modHeld f s).peer k = s.peer k := rfl
@[simp] theorem modHeld_tcmp (f : List HeldWrite → List HeldWrite) (s : State) (k : Nat) : (modHeld f s).tcmp k = s.tcmp k := rfl
@[simp] theorem modHeld_req (f : List HeldWrite → List HeldWrite) (s : State) (k : Nat) : (modHeld f s).req k = s.req k := rfl

@[simp] theorem modLatch_start (f : List Latch → List Latch) (s : State) : (modLatch f s).start = s.start := rfl
@[simp] theorem modLatch_roots (f : List Latch → List Latch) (s : State) : (modLatch f s).roots = s.roots := rfl
@[simp] theorem modLatch_ident (f : List Latch → List Latch) (s : State) : (modLatch f s).ident = s.ident := rfl
@[simp] theorem modLatch_owner (f : List Latch → List Latch) (s : State) : (modLatch f s).owner = s.owner := rfl
@[simp] theorem modLatch_denied (f : List Latch → List Latch) (s : State) : (modLatch f s).denied = s.denied := rfl
@[simp] theorem modLatch_own (f : List Latch → List Latch) (s : State) : (modLatch f s).own = s.own := rfl
@[simp] theorem modLatch_gen (f : List Latch → List Latch) (s : State) : (modLatch f s).gen = s.gen := rfl
@[simp] theorem modLatch_tens (f : List Latch → List Latch) (s : State) : (modLatch f s).tens = s.tens := rfl
@[simp] theorem modLatch_sqs (f : List Latch → List Latch) (s : State) : (modLatch f s).sqs = s.sqs := rfl
@[simp] theorem modLatch_cqs (f : List Latch → List Latch) (s : State) : (modLatch f s).cqs = s.cqs := rfl
@[simp] theorem modLatch_sch (f : List Latch → List Latch) (s : State) : (modLatch f s).sch = s.sch := rfl
@[simp] theorem modLatch_reqs (f : List Latch → List Latch) (s : State) : (modLatch f s).reqs = s.reqs := rfl
@[simp] theorem modLatch_sent (f : List Latch → List Latch) (s : State) : (modLatch f s).sent = s.sent := rfl
@[simp] theorem modLatch_tiles (f : List Latch → List Latch) (s : State) : (modLatch f s).tiles = s.tiles := rfl
@[simp] theorem modLatch_css (f : List Latch → List Latch) (s : State) : (modLatch f s).css = s.css := rfl
@[simp] theorem modLatch_ces (f : List Latch → List Latch) (s : State) : (modLatch f s).ces = s.ces := rfl
@[simp] theorem modLatch_streams (f : List Latch → List Latch) (s : State) : (modLatch f s).streams = s.streams := rfl
@[simp] theorem modLatch_ks (f : List Latch → List Latch) (s : State) : (modLatch f s).ks = s.ks := rfl
@[simp] theorem modLatch_meas (f : List Latch → List Latch) (s : State) : (modLatch f s).meas = s.meas := rfl
@[simp] theorem modLatch_es (f : List Latch → List Latch) (s : State) : (modLatch f s).es = s.es := rfl
@[simp] theorem modLatch_rbgs (f : List Latch → List Latch) (s : State) : (modLatch f s).rbgs = s.rbgs := rfl
@[simp] theorem modLatch_dcs (f : List Latch → List Latch) (s : State) : (modLatch f s).dcs = s.dcs := rfl
@[simp] theorem modLatch_fp (f : List Latch → List Latch) (s : State) : (modLatch f s).fp = s.fp := rfl
@[simp] theorem modLatch_time (f : List Latch → List Latch) (s : State) : (modLatch f s).time = s.time := rfl
@[simp] theorem modLatch_clk (f : List Latch → List Latch) (s : State) : (modLatch f s).clk = s.clk := rfl
@[simp] theorem modLatch_sup (f : List Latch → List Latch) (s : State) : (modLatch f s).sup = s.sup := rfl
@[simp] theorem modLatch_ret (f : List Latch → List Latch) (s : State) : (modLatch f s).ret = s.ret := rfl
@[simp] theorem modLatch_jrn (f : List Latch → List Latch) (s : State) : (modLatch f s).jrn = s.jrn := rfl
@[simp] theorem modLatch_evPend (f : List Latch → List Latch) (s : State) : (modLatch f s).evPend = s.evPend := rfl
@[simp] theorem modLatch_buserr (f : List Latch → List Latch) (s : State) : (modLatch f s).buserr = s.buserr := rfl
@[simp] theorem modLatch_becnt (f : List Latch → List Latch) (s : State) : (modLatch f s).becnt = s.becnt := rfl
@[simp] theorem modLatch_pviol (f : List Latch → List Latch) (s : State) : (modLatch f s).pviol = s.pviol := rfl
@[simp] theorem modLatch_pvcnt (f : List Latch → List Latch) (s : State) : (modLatch f s).pvcnt = s.pvcnt := rfl
@[simp] theorem modLatch_crs (f : List Latch → List Latch) (s : State) : (modLatch f s).crs = s.crs := rfl
@[simp] theorem modLatch_boot (f : List Latch → List Latch) (s : State) : (modLatch f s).boot = s.boot := rfl
@[simp] theorem modLatch_heldWr (f : List Latch → List Latch) (s : State) : (modLatch f s).heldWr = s.heldWr := rfl
@[simp] theorem modLatch_out (f : List Latch → List Latch) (s : State) : (modLatch f s).out = s.out := rfl
@[simp] theorem modLatch_free (f : List Latch → List Latch) (s : State) : (modLatch f s).free = s.free := rfl
@[simp] theorem modLatch_pending (f : List Latch → List Latch) (s : State) : (modLatch f s).pending = s.pending := rfl
theorem modLatch_latch (f : List Latch → List Latch) (s : State) : (modLatch f s).latch = f s.latch := rfl
@[simp] theorem modLatch_ten (f : List Latch → List Latch) (s : State) (k : Nat) : (modLatch f s).ten k = s.ten k := rfl
@[simp] theorem modLatch_sq (f : List Latch → List Latch) (s : State) (a b : Nat) : (modLatch f s).sq a b = s.sq a b := rfl
@[simp] theorem modLatch_cq (f : List Latch → List Latch) (s : State) (a b : Nat) : (modLatch f s).cq a b = s.cq a b := rfl
@[simp] theorem modLatch_dc (f : List Latch → List Latch) (s : State) (k : Nat) : (modLatch f s).dc k = s.dc k := rfl
@[simp] theorem modLatch_tile (f : List Latch → List Latch) (s : State) (k : Nat) : (modLatch f s).tile k = s.tile k := rfl
@[simp] theorem modLatch_csSt (f : List Latch → List Latch) (s : State) (k : Nat) : (modLatch f s).csSt k = s.csSt k := rfl
@[simp] theorem modLatch_slot (f : List Latch → List Latch) (s : State) (k : Nat) : (modLatch f s).slot k = s.slot k := rfl
@[simp] theorem modLatch_rbg (f : List Latch → List Latch) (s : State) (k : Nat) : (modLatch f s).rbg k = s.rbg k := rfl
@[simp] theorem modLatch_stream (f : List Latch → List Latch) (s : State) (k : Nat) : (modLatch f s).stream k = s.stream k := rfl
@[simp] theorem modLatch_cacheEnt (f : List Latch → List Latch) (s : State) (k : Nat) : (modLatch f s).cacheEnt k = s.cacheEnt k := rfl
@[simp] theorem modLatch_peer (f : List Latch → List Latch) (s : State) (k : Nat) : (modLatch f s).peer k = s.peer k := rfl
@[simp] theorem modLatch_tcmp (f : List Latch → List Latch) (s : State) (k : Nat) : (modLatch f s).tcmp k = s.tcmp k := rfl
@[simp] theorem modLatch_req (f : List Latch → List Latch) (s : State) (k : Nat) : (modLatch f s).req k = s.req k := rfl

@[simp] theorem modReq_start (id : Nat) (f : Req → Req) (s : State) : (modReq id f s).start = s.start := rfl
@[simp] theorem modReq_roots (id : Nat) (f : Req → Req) (s : State) : (modReq id f s).roots = s.roots := rfl
@[simp] theorem modReq_ident (id : Nat) (f : Req → Req) (s : State) : (modReq id f s).ident = s.ident := rfl
@[simp] theorem modReq_owner (id : Nat) (f : Req → Req) (s : State) : (modReq id f s).owner = s.owner := rfl
@[simp] theorem modReq_denied (id : Nat) (f : Req → Req) (s : State) : (modReq id f s).denied = s.denied := rfl
@[simp] theorem modReq_own (id : Nat) (f : Req → Req) (s : State) : (modReq id f s).own = s.own := rfl
@[simp] theorem modReq_gen (id : Nat) (f : Req → Req) (s : State) : (modReq id f s).gen = s.gen := rfl
@[simp] theorem modReq_tens (id : Nat) (f : Req → Req) (s : State) : (modReq id f s).tens = s.tens := rfl
@[simp] theorem modReq_sqs (id : Nat) (f : Req → Req) (s : State) : (modReq id f s).sqs = s.sqs := rfl
@[simp] theorem modReq_cqs (id : Nat) (f : Req → Req) (s : State) : (modReq id f s).cqs = s.cqs := rfl
@[simp] theorem modReq_sch (id : Nat) (f : Req → Req) (s : State) : (modReq id f s).sch = s.sch := rfl
@[simp] theorem modReq_sent (id : Nat) (f : Req → Req) (s : State) : (modReq id f s).sent = s.sent := rfl
@[simp] theorem modReq_tiles (id : Nat) (f : Req → Req) (s : State) : (modReq id f s).tiles = s.tiles := rfl
@[simp] theorem modReq_css (id : Nat) (f : Req → Req) (s : State) : (modReq id f s).css = s.css := rfl
@[simp] theorem modReq_ces (id : Nat) (f : Req → Req) (s : State) : (modReq id f s).ces = s.ces := rfl
@[simp] theorem modReq_streams (id : Nat) (f : Req → Req) (s : State) : (modReq id f s).streams = s.streams := rfl
@[simp] theorem modReq_ks (id : Nat) (f : Req → Req) (s : State) : (modReq id f s).ks = s.ks := rfl
@[simp] theorem modReq_meas (id : Nat) (f : Req → Req) (s : State) : (modReq id f s).meas = s.meas := rfl
@[simp] theorem modReq_es (id : Nat) (f : Req → Req) (s : State) : (modReq id f s).es = s.es := rfl
@[simp] theorem modReq_rbgs (id : Nat) (f : Req → Req) (s : State) : (modReq id f s).rbgs = s.rbgs := rfl
@[simp] theorem modReq_dcs (id : Nat) (f : Req → Req) (s : State) : (modReq id f s).dcs = s.dcs := rfl
@[simp] theorem modReq_fp (id : Nat) (f : Req → Req) (s : State) : (modReq id f s).fp = s.fp := rfl
@[simp] theorem modReq_time (id : Nat) (f : Req → Req) (s : State) : (modReq id f s).time = s.time := rfl
@[simp] theorem modReq_clk (id : Nat) (f : Req → Req) (s : State) : (modReq id f s).clk = s.clk := rfl
@[simp] theorem modReq_sup (id : Nat) (f : Req → Req) (s : State) : (modReq id f s).sup = s.sup := rfl
@[simp] theorem modReq_ret (id : Nat) (f : Req → Req) (s : State) : (modReq id f s).ret = s.ret := rfl
@[simp] theorem modReq_jrn (id : Nat) (f : Req → Req) (s : State) : (modReq id f s).jrn = s.jrn := rfl
@[simp] theorem modReq_evPend (id : Nat) (f : Req → Req) (s : State) : (modReq id f s).evPend = s.evPend := rfl
@[simp] theorem modReq_buserr (id : Nat) (f : Req → Req) (s : State) : (modReq id f s).buserr = s.buserr := rfl
@[simp] theorem modReq_becnt (id : Nat) (f : Req → Req) (s : State) : (modReq id f s).becnt = s.becnt := rfl
@[simp] theorem modReq_pviol (id : Nat) (f : Req → Req) (s : State) : (modReq id f s).pviol = s.pviol := rfl
@[simp] theorem modReq_pvcnt (id : Nat) (f : Req → Req) (s : State) : (modReq id f s).pvcnt = s.pvcnt := rfl
@[simp] theorem modReq_crs (id : Nat) (f : Req → Req) (s : State) : (modReq id f s).crs = s.crs := rfl
@[simp] theorem modReq_boot (id : Nat) (f : Req → Req) (s : State) : (modReq id f s).boot = s.boot := rfl
@[simp] theorem modReq_heldWr (id : Nat) (f : Req → Req) (s : State) : (modReq id f s).heldWr = s.heldWr := rfl
@[simp] theorem modReq_latch (id : Nat) (f : Req → Req) (s : State) : (modReq id f s).latch = s.latch := rfl
@[simp] theorem modReq_out (id : Nat) (f : Req → Req) (s : State) : (modReq id f s).out = s.out := rfl
@[simp] theorem modReq_free (id : Nat) (f : Req → Req) (s : State) : (modReq id f s).free = s.free := rfl
@[simp] theorem modReq_pending (id : Nat) (f : Req → Req) (s : State) : (modReq id f s).pending = s.pending := rfl
@[simp] theorem modReq_ten (id : Nat) (f : Req → Req) (s : State) (k : Nat) : (modReq id f s).ten k = s.ten k := rfl
@[simp] theorem modReq_sq (id : Nat) (f : Req → Req) (s : State) (a b : Nat) : (modReq id f s).sq a b = s.sq a b := rfl
@[simp] theorem modReq_cq (id : Nat) (f : Req → Req) (s : State) (a b : Nat) : (modReq id f s).cq a b = s.cq a b := rfl
@[simp] theorem modReq_dc (id : Nat) (f : Req → Req) (s : State) (k : Nat) : (modReq id f s).dc k = s.dc k := rfl
@[simp] theorem modReq_tile (id : Nat) (f : Req → Req) (s : State) (k : Nat) : (modReq id f s).tile k = s.tile k := rfl
@[simp] theorem modReq_csSt (id : Nat) (f : Req → Req) (s : State) (k : Nat) : (modReq id f s).csSt k = s.csSt k := rfl
@[simp] theorem modReq_slot (id : Nat) (f : Req → Req) (s : State) (k : Nat) : (modReq id f s).slot k = s.slot k := rfl
@[simp] theorem modReq_rbg (id : Nat) (f : Req → Req) (s : State) (k : Nat) : (modReq id f s).rbg k = s.rbg k := rfl
@[simp] theorem modReq_stream (id : Nat) (f : Req → Req) (s : State) (k : Nat) : (modReq id f s).stream k = s.stream k := rfl
@[simp] theorem modReq_cacheEnt (id : Nat) (f : Req → Req) (s : State) (k : Nat) : (modReq id f s).cacheEnt k = s.cacheEnt k := rfl
@[simp] theorem modReq_peer (id : Nat) (f : Req → Req) (s : State) (k : Nat) : (modReq id f s).peer k = s.peer k := rfl
@[simp] theorem modReq_tcmp (id : Nat) (f : Req → Req) (s : State) (k : Nat) : (modReq id f s).tcmp k = s.tcmp k := rfl

@[simp] theorem dropReq_start (id : Nat) (s : State) : (dropReq id s).start = s.start := rfl
@[simp] theorem dropReq_roots (id : Nat) (s : State) : (dropReq id s).roots = s.roots := rfl
@[simp] theorem dropReq_ident (id : Nat) (s : State) : (dropReq id s).ident = s.ident := rfl
@[simp] theorem dropReq_owner (id : Nat) (s : State) : (dropReq id s).owner = s.owner := rfl
@[simp] theorem dropReq_denied (id : Nat) (s : State) : (dropReq id s).denied = s.denied := rfl
@[simp] theorem dropReq_own (id : Nat) (s : State) : (dropReq id s).own = s.own := rfl
@[simp] theorem dropReq_gen (id : Nat) (s : State) : (dropReq id s).gen = s.gen := rfl
@[simp] theorem dropReq_tens (id : Nat) (s : State) : (dropReq id s).tens = s.tens := rfl
@[simp] theorem dropReq_sqs (id : Nat) (s : State) : (dropReq id s).sqs = s.sqs := rfl
@[simp] theorem dropReq_cqs (id : Nat) (s : State) : (dropReq id s).cqs = s.cqs := rfl
@[simp] theorem dropReq_sch (id : Nat) (s : State) : (dropReq id s).sch = s.sch := rfl
@[simp] theorem dropReq_sent (id : Nat) (s : State) : (dropReq id s).sent = s.sent := rfl
@[simp] theorem dropReq_tiles (id : Nat) (s : State) : (dropReq id s).tiles = s.tiles := rfl
@[simp] theorem dropReq_css (id : Nat) (s : State) : (dropReq id s).css = s.css := rfl
@[simp] theorem dropReq_ces (id : Nat) (s : State) : (dropReq id s).ces = s.ces := rfl
@[simp] theorem dropReq_streams (id : Nat) (s : State) : (dropReq id s).streams = s.streams := rfl
@[simp] theorem dropReq_ks (id : Nat) (s : State) : (dropReq id s).ks = s.ks := rfl
@[simp] theorem dropReq_meas (id : Nat) (s : State) : (dropReq id s).meas = s.meas := rfl
@[simp] theorem dropReq_es (id : Nat) (s : State) : (dropReq id s).es = s.es := rfl
@[simp] theorem dropReq_rbgs (id : Nat) (s : State) : (dropReq id s).rbgs = s.rbgs := rfl
@[simp] theorem dropReq_dcs (id : Nat) (s : State) : (dropReq id s).dcs = s.dcs := rfl
@[simp] theorem dropReq_fp (id : Nat) (s : State) : (dropReq id s).fp = s.fp := rfl
@[simp] theorem dropReq_time (id : Nat) (s : State) : (dropReq id s).time = s.time := rfl
@[simp] theorem dropReq_clk (id : Nat) (s : State) : (dropReq id s).clk = s.clk := rfl
@[simp] theorem dropReq_sup (id : Nat) (s : State) : (dropReq id s).sup = s.sup := rfl
@[simp] theorem dropReq_ret (id : Nat) (s : State) : (dropReq id s).ret = s.ret := rfl
@[simp] theorem dropReq_jrn (id : Nat) (s : State) : (dropReq id s).jrn = s.jrn := rfl
@[simp] theorem dropReq_evPend (id : Nat) (s : State) : (dropReq id s).evPend = s.evPend := rfl
@[simp] theorem dropReq_buserr (id : Nat) (s : State) : (dropReq id s).buserr = s.buserr := rfl
@[simp] theorem dropReq_becnt (id : Nat) (s : State) : (dropReq id s).becnt = s.becnt := rfl
@[simp] theorem dropReq_pviol (id : Nat) (s : State) : (dropReq id s).pviol = s.pviol := rfl
@[simp] theorem dropReq_pvcnt (id : Nat) (s : State) : (dropReq id s).pvcnt = s.pvcnt := rfl
@[simp] theorem dropReq_crs (id : Nat) (s : State) : (dropReq id s).crs = s.crs := rfl
@[simp] theorem dropReq_boot (id : Nat) (s : State) : (dropReq id s).boot = s.boot := rfl
@[simp] theorem dropReq_heldWr (id : Nat) (s : State) : (dropReq id s).heldWr = s.heldWr := rfl
@[simp] theorem dropReq_latch (id : Nat) (s : State) : (dropReq id s).latch = s.latch := rfl
@[simp] theorem dropReq_out (id : Nat) (s : State) : (dropReq id s).out = s.out := rfl
@[simp] theorem dropReq_free (id : Nat) (s : State) : (dropReq id s).free = s.free := rfl
@[simp] theorem dropReq_pending (id : Nat) (s : State) : (dropReq id s).pending = s.pending := rfl
theorem dropReq_reqs (id : Nat) (s : State) : (dropReq id s).reqs = s.reqs.filter (fun r => r.id != id) := rfl
@[simp] theorem dropReq_ten (id : Nat) (s : State) (k : Nat) : (dropReq id s).ten k = s.ten k := rfl
@[simp] theorem dropReq_sq (id : Nat) (s : State) (a b : Nat) : (dropReq id s).sq a b = s.sq a b := rfl
@[simp] theorem dropReq_cq (id : Nat) (s : State) (a b : Nat) : (dropReq id s).cq a b = s.cq a b := rfl
@[simp] theorem dropReq_dc (id : Nat) (s : State) (k : Nat) : (dropReq id s).dc k = s.dc k := rfl
@[simp] theorem dropReq_tile (id : Nat) (s : State) (k : Nat) : (dropReq id s).tile k = s.tile k := rfl
@[simp] theorem dropReq_csSt (id : Nat) (s : State) (k : Nat) : (dropReq id s).csSt k = s.csSt k := rfl
@[simp] theorem dropReq_slot (id : Nat) (s : State) (k : Nat) : (dropReq id s).slot k = s.slot k := rfl
@[simp] theorem dropReq_rbg (id : Nat) (s : State) (k : Nat) : (dropReq id s).rbg k = s.rbg k := rfl
@[simp] theorem dropReq_stream (id : Nat) (s : State) (k : Nat) : (dropReq id s).stream k = s.stream k := rfl
@[simp] theorem dropReq_cacheEnt (id : Nat) (s : State) (k : Nat) : (dropReq id s).cacheEnt k = s.cacheEnt k := rfl
@[simp] theorem dropReq_peer (id : Nat) (s : State) (k : Nat) : (dropReq id s).peer k = s.peer k := rfl
@[simp] theorem dropReq_tcmp (id : Nat) (s : State) (k : Nat) : (dropReq id s).tcmp k = s.tcmp k := rfl

@[simp] theorem emit_start (o : Out) (s : State) : (emit o s).start = s.start := rfl
@[simp] theorem emit_roots (o : Out) (s : State) : (emit o s).roots = s.roots := rfl
@[simp] theorem emit_ident (o : Out) (s : State) : (emit o s).ident = s.ident := rfl
@[simp] theorem emit_owner (o : Out) (s : State) : (emit o s).owner = s.owner := rfl
@[simp] theorem emit_denied (o : Out) (s : State) : (emit o s).denied = s.denied := rfl
@[simp] theorem emit_own (o : Out) (s : State) : (emit o s).own = s.own := rfl
@[simp] theorem emit_gen (o : Out) (s : State) : (emit o s).gen = s.gen := rfl
@[simp] theorem emit_tens (o : Out) (s : State) : (emit o s).tens = s.tens := rfl
@[simp] theorem emit_sqs (o : Out) (s : State) : (emit o s).sqs = s.sqs := rfl
@[simp] theorem emit_cqs (o : Out) (s : State) : (emit o s).cqs = s.cqs := rfl
@[simp] theorem emit_sch (o : Out) (s : State) : (emit o s).sch = s.sch := rfl
@[simp] theorem emit_reqs (o : Out) (s : State) : (emit o s).reqs = s.reqs := rfl
@[simp] theorem emit_sent (o : Out) (s : State) : (emit o s).sent = s.sent := rfl
@[simp] theorem emit_tiles (o : Out) (s : State) : (emit o s).tiles = s.tiles := rfl
@[simp] theorem emit_css (o : Out) (s : State) : (emit o s).css = s.css := rfl
@[simp] theorem emit_ces (o : Out) (s : State) : (emit o s).ces = s.ces := rfl
@[simp] theorem emit_streams (o : Out) (s : State) : (emit o s).streams = s.streams := rfl
@[simp] theorem emit_ks (o : Out) (s : State) : (emit o s).ks = s.ks := rfl
@[simp] theorem emit_meas (o : Out) (s : State) : (emit o s).meas = s.meas := rfl
@[simp] theorem emit_es (o : Out) (s : State) : (emit o s).es = s.es := rfl
@[simp] theorem emit_rbgs (o : Out) (s : State) : (emit o s).rbgs = s.rbgs := rfl
@[simp] theorem emit_dcs (o : Out) (s : State) : (emit o s).dcs = s.dcs := rfl
@[simp] theorem emit_fp (o : Out) (s : State) : (emit o s).fp = s.fp := rfl
@[simp] theorem emit_time (o : Out) (s : State) : (emit o s).time = s.time := rfl
@[simp] theorem emit_clk (o : Out) (s : State) : (emit o s).clk = s.clk := rfl
@[simp] theorem emit_sup (o : Out) (s : State) : (emit o s).sup = s.sup := rfl
@[simp] theorem emit_ret (o : Out) (s : State) : (emit o s).ret = s.ret := rfl
@[simp] theorem emit_jrn (o : Out) (s : State) : (emit o s).jrn = s.jrn := rfl
@[simp] theorem emit_evPend (o : Out) (s : State) : (emit o s).evPend = s.evPend := rfl
@[simp] theorem emit_buserr (o : Out) (s : State) : (emit o s).buserr = s.buserr := rfl
@[simp] theorem emit_becnt (o : Out) (s : State) : (emit o s).becnt = s.becnt := rfl
@[simp] theorem emit_pviol (o : Out) (s : State) : (emit o s).pviol = s.pviol := rfl
@[simp] theorem emit_pvcnt (o : Out) (s : State) : (emit o s).pvcnt = s.pvcnt := rfl
@[simp] theorem emit_crs (o : Out) (s : State) : (emit o s).crs = s.crs := rfl
@[simp] theorem emit_boot (o : Out) (s : State) : (emit o s).boot = s.boot := rfl
@[simp] theorem emit_heldWr (o : Out) (s : State) : (emit o s).heldWr = s.heldWr := rfl
@[simp] theorem emit_latch (o : Out) (s : State) : (emit o s).latch = s.latch := rfl
@[simp] theorem emit_free (o : Out) (s : State) : (emit o s).free = s.free := rfl
@[simp] theorem emit_pending (o : Out) (s : State) : (emit o s).pending = s.pending := rfl
theorem emit_out (o : Out) (s : State) : (emit o s).out = s.out ++ [o] := rfl
@[simp] theorem emit_ten (o : Out) (s : State) (k : Nat) : (emit o s).ten k = s.ten k := rfl
@[simp] theorem emit_sq (o : Out) (s : State) (a b : Nat) : (emit o s).sq a b = s.sq a b := rfl
@[simp] theorem emit_cq (o : Out) (s : State) (a b : Nat) : (emit o s).cq a b = s.cq a b := rfl
@[simp] theorem emit_dc (o : Out) (s : State) (k : Nat) : (emit o s).dc k = s.dc k := rfl
@[simp] theorem emit_tile (o : Out) (s : State) (k : Nat) : (emit o s).tile k = s.tile k := rfl
@[simp] theorem emit_csSt (o : Out) (s : State) (k : Nat) : (emit o s).csSt k = s.csSt k := rfl
@[simp] theorem emit_slot (o : Out) (s : State) (k : Nat) : (emit o s).slot k = s.slot k := rfl
@[simp] theorem emit_rbg (o : Out) (s : State) (k : Nat) : (emit o s).rbg k = s.rbg k := rfl
@[simp] theorem emit_stream (o : Out) (s : State) (k : Nat) : (emit o s).stream k = s.stream k := rfl
@[simp] theorem emit_cacheEnt (o : Out) (s : State) (k : Nat) : (emit o s).cacheEnt k = s.cacheEnt k := rfl
@[simp] theorem emit_peer (o : Out) (s : State) (k : Nat) : (emit o s).peer k = s.peer k := rfl
@[simp] theorem emit_tcmp (o : Out) (s : State) (k : Nat) : (emit o s).tcmp k = s.tcmp k := rfl
@[simp] theorem emit_req (o : Out) (s : State) (k : Nat) : (emit o s).req k = s.req k := rfl

@[simp] theorem nextFree_start (s : State) : (nextFree s).start = s.start := rfl
@[simp] theorem nextFree_roots (s : State) : (nextFree s).roots = s.roots := rfl
@[simp] theorem nextFree_ident (s : State) : (nextFree s).ident = s.ident := rfl
@[simp] theorem nextFree_owner (s : State) : (nextFree s).owner = s.owner := rfl
@[simp] theorem nextFree_denied (s : State) : (nextFree s).denied = s.denied := rfl
@[simp] theorem nextFree_own (s : State) : (nextFree s).own = s.own := rfl
@[simp] theorem nextFree_gen (s : State) : (nextFree s).gen = s.gen := rfl
@[simp] theorem nextFree_tens (s : State) : (nextFree s).tens = s.tens := rfl
@[simp] theorem nextFree_sqs (s : State) : (nextFree s).sqs = s.sqs := rfl
@[simp] theorem nextFree_cqs (s : State) : (nextFree s).cqs = s.cqs := rfl
@[simp] theorem nextFree_sch (s : State) : (nextFree s).sch = s.sch := rfl
@[simp] theorem nextFree_reqs (s : State) : (nextFree s).reqs = s.reqs := rfl
@[simp] theorem nextFree_sent (s : State) : (nextFree s).sent = s.sent := rfl
@[simp] theorem nextFree_tiles (s : State) : (nextFree s).tiles = s.tiles := rfl
@[simp] theorem nextFree_css (s : State) : (nextFree s).css = s.css := rfl
@[simp] theorem nextFree_ces (s : State) : (nextFree s).ces = s.ces := rfl
@[simp] theorem nextFree_streams (s : State) : (nextFree s).streams = s.streams := rfl
@[simp] theorem nextFree_ks (s : State) : (nextFree s).ks = s.ks := rfl
@[simp] theorem nextFree_meas (s : State) : (nextFree s).meas = s.meas := rfl
@[simp] theorem nextFree_es (s : State) : (nextFree s).es = s.es := rfl
@[simp] theorem nextFree_rbgs (s : State) : (nextFree s).rbgs = s.rbgs := rfl
@[simp] theorem nextFree_dcs (s : State) : (nextFree s).dcs = s.dcs := rfl
@[simp] theorem nextFree_fp (s : State) : (nextFree s).fp = s.fp := rfl
@[simp] theorem nextFree_time (s : State) : (nextFree s).time = s.time := rfl
@[simp] theorem nextFree_clk (s : State) : (nextFree s).clk = s.clk := rfl
@[simp] theorem nextFree_sup (s : State) : (nextFree s).sup = s.sup := rfl
@[simp] theorem nextFree_ret (s : State) : (nextFree s).ret = s.ret := rfl
@[simp] theorem nextFree_jrn (s : State) : (nextFree s).jrn = s.jrn := rfl
@[simp] theorem nextFree_evPend (s : State) : (nextFree s).evPend = s.evPend := rfl
@[simp] theorem nextFree_buserr (s : State) : (nextFree s).buserr = s.buserr := rfl
@[simp] theorem nextFree_becnt (s : State) : (nextFree s).becnt = s.becnt := rfl
@[simp] theorem nextFree_pviol (s : State) : (nextFree s).pviol = s.pviol := rfl
@[simp] theorem nextFree_pvcnt (s : State) : (nextFree s).pvcnt = s.pvcnt := rfl
@[simp] theorem nextFree_crs (s : State) : (nextFree s).crs = s.crs := rfl
@[simp] theorem nextFree_boot (s : State) : (nextFree s).boot = s.boot := rfl
@[simp] theorem nextFree_heldWr (s : State) : (nextFree s).heldWr = s.heldWr := rfl
@[simp] theorem nextFree_latch (s : State) : (nextFree s).latch = s.latch := rfl
@[simp] theorem nextFree_out (s : State) : (nextFree s).out = s.out := rfl
@[simp] theorem nextFree_pending (s : State) : (nextFree s).pending = s.pending := rfl
@[simp] theorem nextFree_ten (s : State) (k : Nat) : (nextFree s).ten k = s.ten k := rfl
@[simp] theorem nextFree_sq (s : State) (a b : Nat) : (nextFree s).sq a b = s.sq a b := rfl
@[simp] theorem nextFree_cq (s : State) (a b : Nat) : (nextFree s).cq a b = s.cq a b := rfl
@[simp] theorem nextFree_dc (s : State) (k : Nat) : (nextFree s).dc k = s.dc k := rfl
@[simp] theorem nextFree_tile (s : State) (k : Nat) : (nextFree s).tile k = s.tile k := rfl
@[simp] theorem nextFree_csSt (s : State) (k : Nat) : (nextFree s).csSt k = s.csSt k := rfl
@[simp] theorem nextFree_slot (s : State) (k : Nat) : (nextFree s).slot k = s.slot k := rfl
@[simp] theorem nextFree_rbg (s : State) (k : Nat) : (nextFree s).rbg k = s.rbg k := rfl
@[simp] theorem nextFree_stream (s : State) (k : Nat) : (nextFree s).stream k = s.stream k := rfl
@[simp] theorem nextFree_cacheEnt (s : State) (k : Nat) : (nextFree s).cacheEnt k = s.cacheEnt k := rfl
@[simp] theorem nextFree_peer (s : State) (k : Nat) : (nextFree s).peer k = s.peer k := rfl
@[simp] theorem nextFree_tcmp (s : State) (k : Nat) : (nextFree s).tcmp k = s.tcmp k := rfl
@[simp] theorem nextFree_req (s : State) (k : Nat) : (nextFree s).req k = s.req k := rfl

@[simp] theorem raiseG_start (e : Nat) (s : State) : (raiseG e s).start = s.start := rfl
@[simp] theorem raiseG_roots (e : Nat) (s : State) : (raiseG e s).roots = s.roots := rfl
@[simp] theorem raiseG_ident (e : Nat) (s : State) : (raiseG e s).ident = s.ident := rfl
@[simp] theorem raiseG_owner (e : Nat) (s : State) : (raiseG e s).owner = s.owner := rfl
@[simp] theorem raiseG_denied (e : Nat) (s : State) : (raiseG e s).denied = s.denied := rfl
@[simp] theorem raiseG_own (e : Nat) (s : State) : (raiseG e s).own = s.own := rfl
@[simp] theorem raiseG_gen (e : Nat) (s : State) : (raiseG e s).gen = s.gen := rfl
@[simp] theorem raiseG_tens (e : Nat) (s : State) : (raiseG e s).tens = s.tens := rfl
@[simp] theorem raiseG_sqs (e : Nat) (s : State) : (raiseG e s).sqs = s.sqs := rfl
@[simp] theorem raiseG_cqs (e : Nat) (s : State) : (raiseG e s).cqs = s.cqs := rfl
@[simp] theorem raiseG_sch (e : Nat) (s : State) : (raiseG e s).sch = s.sch := rfl
@[simp] theorem raiseG_reqs (e : Nat) (s : State) : (raiseG e s).reqs = s.reqs := rfl
@[simp] theorem raiseG_sent (e : Nat) (s : State) : (raiseG e s).sent = s.sent := rfl
@[simp] theorem raiseG_tiles (e : Nat) (s : State) : (raiseG e s).tiles = s.tiles := rfl
@[simp] theorem raiseG_css (e : Nat) (s : State) : (raiseG e s).css = s.css := rfl
@[simp] theorem raiseG_ces (e : Nat) (s : State) : (raiseG e s).ces = s.ces := rfl
@[simp] theorem raiseG_streams (e : Nat) (s : State) : (raiseG e s).streams = s.streams := rfl
@[simp] theorem raiseG_ks (e : Nat) (s : State) : (raiseG e s).ks = s.ks := rfl
@[simp] theorem raiseG_meas (e : Nat) (s : State) : (raiseG e s).meas = s.meas := rfl
@[simp] theorem raiseG_es (e : Nat) (s : State) : (raiseG e s).es = s.es := rfl
@[simp] theorem raiseG_rbgs (e : Nat) (s : State) : (raiseG e s).rbgs = s.rbgs := rfl
@[simp] theorem raiseG_dcs (e : Nat) (s : State) : (raiseG e s).dcs = s.dcs := rfl
@[simp] theorem raiseG_fp (e : Nat) (s : State) : (raiseG e s).fp = s.fp := rfl
@[simp] theorem raiseG_time (e : Nat) (s : State) : (raiseG e s).time = s.time := rfl
@[simp] theorem raiseG_clk (e : Nat) (s : State) : (raiseG e s).clk = s.clk := rfl
@[simp] theorem raiseG_sup (e : Nat) (s : State) : (raiseG e s).sup = s.sup := rfl
@[simp] theorem raiseG_ret (e : Nat) (s : State) : (raiseG e s).ret = s.ret := rfl
@[simp] theorem raiseG_jrn (e : Nat) (s : State) : (raiseG e s).jrn = s.jrn := rfl
@[simp] theorem raiseG_buserr (e : Nat) (s : State) : (raiseG e s).buserr = s.buserr := rfl
@[simp] theorem raiseG_becnt (e : Nat) (s : State) : (raiseG e s).becnt = s.becnt := rfl
@[simp] theorem raiseG_pviol (e : Nat) (s : State) : (raiseG e s).pviol = s.pviol := rfl
@[simp] theorem raiseG_pvcnt (e : Nat) (s : State) : (raiseG e s).pvcnt = s.pvcnt := rfl
@[simp] theorem raiseG_crs (e : Nat) (s : State) : (raiseG e s).crs = s.crs := rfl
@[simp] theorem raiseG_boot (e : Nat) (s : State) : (raiseG e s).boot = s.boot := rfl
@[simp] theorem raiseG_heldWr (e : Nat) (s : State) : (raiseG e s).heldWr = s.heldWr := rfl
@[simp] theorem raiseG_latch (e : Nat) (s : State) : (raiseG e s).latch = s.latch := rfl
@[simp] theorem raiseG_out (e : Nat) (s : State) : (raiseG e s).out = s.out := rfl
@[simp] theorem raiseG_free (e : Nat) (s : State) : (raiseG e s).free = s.free := rfl
@[simp] theorem raiseG_pending (e : Nat) (s : State) : (raiseG e s).pending = s.pending := rfl
@[simp] theorem raiseG_ten (e : Nat) (s : State) (k : Nat) : (raiseG e s).ten k = s.ten k := rfl
@[simp] theorem raiseG_sq (e : Nat) (s : State) (a b : Nat) : (raiseG e s).sq a b = s.sq a b := rfl
@[simp] theorem raiseG_cq (e : Nat) (s : State) (a b : Nat) : (raiseG e s).cq a b = s.cq a b := rfl
@[simp] theorem raiseG_dc (e : Nat) (s : State) (k : Nat) : (raiseG e s).dc k = s.dc k := rfl
@[simp] theorem raiseG_tile (e : Nat) (s : State) (k : Nat) : (raiseG e s).tile k = s.tile k := rfl
@[simp] theorem raiseG_csSt (e : Nat) (s : State) (k : Nat) : (raiseG e s).csSt k = s.csSt k := rfl
@[simp] theorem raiseG_slot (e : Nat) (s : State) (k : Nat) : (raiseG e s).slot k = s.slot k := rfl
@[simp] theorem raiseG_rbg (e : Nat) (s : State) (k : Nat) : (raiseG e s).rbg k = s.rbg k := rfl
@[simp] theorem raiseG_stream (e : Nat) (s : State) (k : Nat) : (raiseG e s).stream k = s.stream k := rfl
@[simp] theorem raiseG_cacheEnt (e : Nat) (s : State) (k : Nat) : (raiseG e s).cacheEnt k = s.cacheEnt k := rfl
@[simp] theorem raiseG_peer (e : Nat) (s : State) (k : Nat) : (raiseG e s).peer k = s.peer k := rfl
@[simp] theorem raiseG_tcmp (e : Nat) (s : State) (k : Nat) : (raiseG e s).tcmp k = s.tcmp k := rfl
@[simp] theorem raiseG_req (e : Nat) (s : State) (k : Nat) : (raiseG e s).req k = s.req k := rfl

@[simp] theorem raiseT_start (n e : Nat) (s : State) : (raiseT n e s).start = s.start := rfl
@[simp] theorem raiseT_roots (n e : Nat) (s : State) : (raiseT n e s).roots = s.roots := rfl
@[simp] theorem raiseT_ident (n e : Nat) (s : State) : (raiseT n e s).ident = s.ident := rfl
@[simp] theorem raiseT_owner (n e : Nat) (s : State) : (raiseT n e s).owner = s.owner := rfl
@[simp] theorem raiseT_denied (n e : Nat) (s : State) : (raiseT n e s).denied = s.denied := rfl
@[simp] theorem raiseT_own (n e : Nat) (s : State) : (raiseT n e s).own = s.own := rfl
@[simp] theorem raiseT_gen (n e : Nat) (s : State) : (raiseT n e s).gen = s.gen := rfl
@[simp] theorem raiseT_sqs (n e : Nat) (s : State) : (raiseT n e s).sqs = s.sqs := rfl
@[simp] theorem raiseT_cqs (n e : Nat) (s : State) : (raiseT n e s).cqs = s.cqs := rfl
@[simp] theorem raiseT_sch (n e : Nat) (s : State) : (raiseT n e s).sch = s.sch := rfl
@[simp] theorem raiseT_reqs (n e : Nat) (s : State) : (raiseT n e s).reqs = s.reqs := rfl
@[simp] theorem raiseT_sent (n e : Nat) (s : State) : (raiseT n e s).sent = s.sent := rfl
@[simp] theorem raiseT_tiles (n e : Nat) (s : State) : (raiseT n e s).tiles = s.tiles := rfl
@[simp] theorem raiseT_css (n e : Nat) (s : State) : (raiseT n e s).css = s.css := rfl
@[simp] theorem raiseT_ces (n e : Nat) (s : State) : (raiseT n e s).ces = s.ces := rfl
@[simp] theorem raiseT_streams (n e : Nat) (s : State) : (raiseT n e s).streams = s.streams := rfl
@[simp] theorem raiseT_ks (n e : Nat) (s : State) : (raiseT n e s).ks = s.ks := rfl
@[simp] theorem raiseT_meas (n e : Nat) (s : State) : (raiseT n e s).meas = s.meas := rfl
@[simp] theorem raiseT_es (n e : Nat) (s : State) : (raiseT n e s).es = s.es := rfl
@[simp] theorem raiseT_rbgs (n e : Nat) (s : State) : (raiseT n e s).rbgs = s.rbgs := rfl
@[simp] theorem raiseT_dcs (n e : Nat) (s : State) : (raiseT n e s).dcs = s.dcs := rfl
@[simp] theorem raiseT_fp (n e : Nat) (s : State) : (raiseT n e s).fp = s.fp := rfl
@[simp] theorem raiseT_time (n e : Nat) (s : State) : (raiseT n e s).time = s.time := rfl
@[simp] theorem raiseT_clk (n e : Nat) (s : State) : (raiseT n e s).clk = s.clk := rfl
@[simp] theorem raiseT_sup (n e : Nat) (s : State) : (raiseT n e s).sup = s.sup := rfl
@[simp] theorem raiseT_ret (n e : Nat) (s : State) : (raiseT n e s).ret = s.ret := rfl
@[simp] theorem raiseT_jrn (n e : Nat) (s : State) : (raiseT n e s).jrn = s.jrn := rfl
@[simp] theorem raiseT_evPend (n e : Nat) (s : State) : (raiseT n e s).evPend = s.evPend := rfl
@[simp] theorem raiseT_buserr (n e : Nat) (s : State) : (raiseT n e s).buserr = s.buserr := rfl
@[simp] theorem raiseT_becnt (n e : Nat) (s : State) : (raiseT n e s).becnt = s.becnt := rfl
@[simp] theorem raiseT_pviol (n e : Nat) (s : State) : (raiseT n e s).pviol = s.pviol := rfl
@[simp] theorem raiseT_pvcnt (n e : Nat) (s : State) : (raiseT n e s).pvcnt = s.pvcnt := rfl
@[simp] theorem raiseT_crs (n e : Nat) (s : State) : (raiseT n e s).crs = s.crs := rfl
@[simp] theorem raiseT_boot (n e : Nat) (s : State) : (raiseT n e s).boot = s.boot := rfl
@[simp] theorem raiseT_heldWr (n e : Nat) (s : State) : (raiseT n e s).heldWr = s.heldWr := rfl
@[simp] theorem raiseT_latch (n e : Nat) (s : State) : (raiseT n e s).latch = s.latch := rfl
@[simp] theorem raiseT_out (n e : Nat) (s : State) : (raiseT n e s).out = s.out := rfl
@[simp] theorem raiseT_free (n e : Nat) (s : State) : (raiseT n e s).free = s.free := rfl
@[simp] theorem raiseT_pending (n e : Nat) (s : State) : (raiseT n e s).pending = s.pending := rfl
@[simp] theorem raiseT_sq (n e : Nat) (s : State) (a b : Nat) : (raiseT n e s).sq a b = s.sq a b := rfl
@[simp] theorem raiseT_cq (n e : Nat) (s : State) (a b : Nat) : (raiseT n e s).cq a b = s.cq a b := rfl
@[simp] theorem raiseT_dc (n e : Nat) (s : State) (k : Nat) : (raiseT n e s).dc k = s.dc k := rfl
@[simp] theorem raiseT_tile (n e : Nat) (s : State) (k : Nat) : (raiseT n e s).tile k = s.tile k := rfl
@[simp] theorem raiseT_csSt (n e : Nat) (s : State) (k : Nat) : (raiseT n e s).csSt k = s.csSt k := rfl
@[simp] theorem raiseT_slot (n e : Nat) (s : State) (k : Nat) : (raiseT n e s).slot k = s.slot k := rfl
@[simp] theorem raiseT_rbg (n e : Nat) (s : State) (k : Nat) : (raiseT n e s).rbg k = s.rbg k := rfl
@[simp] theorem raiseT_stream (n e : Nat) (s : State) (k : Nat) : (raiseT n e s).stream k = s.stream k := rfl
@[simp] theorem raiseT_cacheEnt (n e : Nat) (s : State) (k : Nat) : (raiseT n e s).cacheEnt k = s.cacheEnt k := rfl
@[simp] theorem raiseT_peer (n e : Nat) (s : State) (k : Nat) : (raiseT n e s).peer k = s.peer k := rfl
@[simp] theorem raiseT_tcmp (n e : Nat) (s : State) (k : Nat) : (raiseT n e s).tcmp k = s.tcmp k := rfl
@[simp] theorem raiseT_req (n e : Nat) (s : State) (k : Nat) : (raiseT n e s).req k = s.req k := rfl
/-! ### Table items after an update -/

@[simp] theorem modTen_ten_same (n : Nat) (f : Tenant → Tenant) (s : State) : (modTen n f s).ten n = f (s.ten n) := look_put_same _ _ _ _
@[simp] theorem modTen_ten_ne {n k : Nat} (f : Tenant → Tenant) (s : State) (h : k ≠ n) : (modTen n f s).ten k = s.ten k := look_put_ne _ _ _ h
@[simp] theorem modSq_sq_same (n m : Nat) (f : Sq → Sq) (s : State) : (modSq n m f s).sq n m = f (s.sq n m) := look_put_same _ _ _ _
@[simp] theorem modSq_sq_ne {n m a b : Nat} (f : Sq → Sq) (s : State) (h : rix a b ≠ rix n m) : (modSq n m f s).sq a b = s.sq a b := look_put_ne _ _ _ h
@[simp] theorem modCq_cq_same (n m : Nat) (f : Cq → Cq) (s : State) : (modCq n m f s).cq n m = f (s.cq n m) := look_put_same _ _ _ _
@[simp] theorem modCq_cq_ne {n m a b : Nat} (f : Cq → Cq) (s : State) (h : rix a b ≠ rix n m) : (modCq n m f s).cq a b = s.cq a b := look_put_ne _ _ _ h
@[simp] theorem modDc_dc_same (k : Nat) (f : Chan → Chan) (s : State) : (modDc k f s).dc k = f (s.dc k) := look_put_same _ _ _ _
@[simp] theorem modDc_dc_ne {k j : Nat} (f : Chan → Chan) (s : State) (h : j ≠ k) : (modDc k f s).dc j = s.dc j := look_put_ne _ _ _ h
@[simp] theorem modTile_tile_same (k : Nat) (f : Tile → Tile) (s : State) : (modTile k f s).tile k = f (s.tile k) := look_put_same _ _ _ _
@[simp] theorem modTile_tile_ne {k j : Nat} (f : Tile → Tile) (s : State) (h : j ≠ k) : (modTile k f s).tile j = s.tile j := look_put_ne _ _ _ h
@[simp] theorem setCs_csSt_same (k : Nat) (v : CsSt) (s : State) : (setCs k v s).csSt k = v := look_put_same _ _ _ _
@[simp] theorem setCs_csSt_ne {k j : Nat} (v : CsSt) (s : State) (h : j ≠ k) : (setCs k v s).csSt j = s.csSt j := look_put_ne _ _ _ h
@[simp] theorem modSlot_slot_same (k : Nat) (f : Slot → Slot) (s : State) : (modSlot k f s).slot k = f (s.slot k) := look_put_same _ _ _ _
@[simp] theorem modSlot_slot_ne {k j : Nat} (f : Slot → Slot) (s : State) (h : j ≠ k) : (modSlot k f s).slot j = s.slot j := look_put_ne _ _ _ h
@[simp] theorem modRbg_rbg_same (k : Nat) (f : Rbg → Rbg) (s : State) : (modRbg k f s).rbg k = f (s.rbg k) := look_put_same _ _ _ _
@[simp] theorem modRbg_rbg_ne {k j : Nat} (f : Rbg → Rbg) (s : State) (h : j ≠ k) : (modRbg k f s).rbg j = s.rbg j := look_put_ne _ _ _ h
@[simp] theorem setStream_stream_same (k : Nat) (v : Option Stream) (s : State) : (setStream k v s).stream k = v := look_put_same _ _ _ _
@[simp] theorem setStream_stream_ne {k j : Nat} (v : Option Stream) (s : State) (h : j ≠ k) : (setStream k v s).stream j = s.stream j := look_put_ne _ _ _ h
@[simp] theorem setCacheEnt_cacheEnt_same (k : Nat) (v : Option CacheEnt) (s : State) : (setCacheEnt k v s).cacheEnt k = v := look_put_same _ _ _ _
@[simp] theorem setCacheEnt_cacheEnt_ne {k j : Nat} (v : Option CacheEnt) (s : State) (h : j ≠ k) : (setCacheEnt k v s).cacheEnt j = s.cacheEnt j := look_put_ne _ _ _ h
@[simp] theorem modPeer_peer_same (k : Nat) (f : Peer → Peer) (s : State) : (modPeer k f s).peer k = f (s.peer k) := look_put_same _ _ _ _
@[simp] theorem modPeer_peer_ne {k j : Nat} (f : Peer → Peer) (s : State) (h : j ≠ k) : (modPeer k f s).peer j = s.peer j := look_put_ne _ _ _ h
@[simp] theorem modTcmp_tcmp_same (k : Nat) (f : Tcmp → Tcmp) (s : State) : (modTcmp k f s).tcmp k = f (s.tcmp k) := look_put_same _ _ _ _
@[simp] theorem modTcmp_tcmp_ne {k j : Nat} (f : Tcmp → Tcmp) (s : State) (h : j ≠ k) : (modTcmp k f s).tcmp j = s.tcmp j := look_put_ne _ _ _ h

end Sys2Proof.Machine
end

