-- ==== Sys2Proof/Laws/Advance.lean ====
section
/-!
SUPPORT. How a running chain moves on: what stays of a request, its operations and its buffers while the chain settles, and how it ends.
-/

set_option Elab.async false

namespace Sys2Proof.Machine

/-! ### Looking up a request -/

theorem find_map (l : List Req) (k : Nat) (f : Req → Req) (hf : ∀ r, (f r).id = r.id) :
    (l.map f).find? (fun r => r.id = k) = (l.find? (fun r => r.id = k)).map f := by
  induction l with
  | nil => rfl
  | cons a t ih =>
    rw [List.map_cons, List.find?_cons, List.find?_cons]
    by_cases h : a.id = k
    · simp [hf, h]
    · simp only [hf, h, decide_false]; exact ih

theorem modReq_req (id k : Nat) (f : Req → Req) (s : State) (hf : ∀ r, (f r).id = r.id) :
    (modReq id f s).req k = (s.req k).map (fun r => if r.id = id then f r else r) :=
  find_map _ _ _ (fun r => by split <;> simp [hf])

theorem req_id {s : State} {k : Nat} {r : Req} (h : s.req k = some r) : r.id = k := by
  have := List.find?_some h; simpa using this

theorem modReq_req_same {s : State} {id : Nat} {r : Req} (f : Req → Req) (hf : ∀ r, (f r).id = r.id) (h : s.req id = some r) :
    (modReq id f s).req id = some (f r) := by
  rw [modReq_req _ _ _ _ hf, h, Option.map_some, if_pos (req_id h)]

theorem modReq_req_ne {s : State} {id k : Nat} (f : Req → Req) (hf : ∀ r, (f r).id = r.id) (h : k ≠ id) :
    (modReq id f s).req k = s.req k := by
  rw [modReq_req _ _ _ _ hf]
  cases e : s.req k with
  | none => rfl
  | some r => rw [Option.map_some, if_neg (by rw [req_id e]; exact h)]

theorem req_of_reqs {s t : State} (h : t.reqs = s.reqs) (k : Nat) : t.req k = s.req k := by unfold State.req; rw [h]

/-! ### Operations and buffers of a request -/

theorem op_modify_same (r : Req) (i : Nat) (f : OpSt → OpSt) (h : i < r.ops.length) :
    Req.op { r with ops := r.ops.modify i f } i = f (r.op i) := by
  simp only [Req.op, List.getD_eq_getElem?_getD, List.getElem?_modify, if_true]
  rw [List.getElem?_eq_getElem h]; rfl

theorem op_modify (r : Req) (i j : Nat) (f : OpSt → OpSt) :
    Req.op { r with ops := r.ops.modify i f } j = if i = j ∧ j < r.ops.length then f (r.op j) else r.op j := by
  by_cases h : j < r.ops.length
  · by_cases hij : i = j
    · subst hij; rw [if_pos ⟨rfl, h⟩, op_modify_same _ _ _ h]
    · rw [if_neg (fun c => hij c.1)]
      simp [Req.op, List.getD_eq_getElem?_getD, List.getElem?_modify, hij]
  · rw [if_neg (fun c => h c.2)]
    simp only [Req.op, List.getD_eq_getElem?_getD, List.getElem?_modify]
    rw [List.getElem?_eq_none (by omega)]; simp

theorem op_map (r : Req) (f : OpSt → OpSt) (j : Nat) (hf : f {} = {}) :
    Req.op { r with ops := r.ops.map f } j = f (r.op j) := by
  simp only [Req.op, List.getD_eq_getElem?_getD, List.getElem?_map]
  cases r.ops[j]? <;> simp [hf]

theorem buf_put (r : Req) (b c : Nat) (x : BufSt) :
    Req.buf { r with bufs := r.bufs.put {} b x } c = if c = b then x else r.buf c := by
  unfold Req.buf
  split
  · next h => subst h; exact look_put_same _ _ _ _
  · next h => exact look_put_ne _ _ _ h

theorem modOp_req_same {s : State} {id : Nat} {r : Req} (i : Nat) (f : OpSt → OpSt) (h : s.req id = some r) :
    (modOp id i f s).req id = some { r with ops := r.ops.modify i f } := modReq_req_same (fun r => { r with ops := r.ops.modify i f }) (fun _ => rfl) h
theorem modOp_req_ne {s : State} {id k : Nat} (i : Nat) (f : OpSt → OpSt) (h : k ≠ id) : (modOp id i f s).req k = s.req k :=
  modReq_req_ne (fun r => { r with ops := r.ops.modify i f }) (fun _ => rfl) h
theorem modBuf_req_same {s : State} {id : Nat} {r : Req} (b : Nat) (f : BufSt → BufSt) (h : s.req id = some r) :
    (modBuf id b f s).req id = some { r with bufs := r.bufs.put {} b (f (r.buf b)) } :=
  modReq_req_same (fun r => { r with bufs := r.bufs.put {} b (f (r.buf b)) }) (fun _ => rfl) h
theorem modBuf_req_ne {s : State} {id k : Nat} (b : Nat) (f : BufSt → BufSt) (h : k ≠ id) : (modBuf id b f s).req k = s.req k :=
  modReq_req_ne (fun r => { r with bufs := r.bufs.put {} b (f (r.buf b)) }) (fun _ => rfl) h

/-! ### What stays while a chain moves on -/

/-- The later record of a request whose chain has moved on and not ended: its identity and phase stay; an operation stays in its phase
or is done; a buffer that was being read keeps the data it has. -/
structure Req.to (r r' : Req) : Prop where
  id : r'.id = r.id
  tenant : r'.tenant = r.tenant
  origin : r'.origin = r.origin
  cq : r'.cq = r.cq
  entry : r'.entry = r.entry
  gen : r'.gen = r.gen
  place : r'.place = r.place
  cs : r'.cs = r.cs
  fwd : r'.fwd = r.fwd
  refs : r'.refs = r.refs
  phase : r'.phase = r.phase
  nops : r'.ops.length = r.ops.length
  op : ∀ i, ((r'.op i).phase = (r.op i).phase ∨ (r'.op i).phase = .done) ∧ (r'.op i).w = (r.op i).w ∧ (r'.op i).tiles = (r.op i).tiles ∧
    (r'.op i).agreed = (r.op i).agreed ∧ (r'.op i).disputed = (r.op i).disputed ∧
    ((r.op i).phase = .done → (r'.op i).phase = .done ∧ (r'.op i).output = (r.op i).output)
  buf : ∀ b, (r.buf b).started = true → (r'.buf b).started = true ∧ (r'.buf b).data = (r.buf b).data

theorem Req.to.refl (r : Req) : r.to r :=
  ⟨rfl, rfl, rfl, rfl, rfl, rfl, rfl, rfl, rfl, rfl, rfl, rfl, fun _ => ⟨Or.inl rfl, rfl, rfl, rfl, rfl, fun h => ⟨h, rfl⟩⟩, fun _ h => ⟨h, rfl⟩⟩

theorem Req.to.trans {a b c : Req} (h : a.to b) (g : b.to c) : a.to c :=
  ⟨g.id.trans h.id, g.tenant.trans h.tenant, g.origin.trans h.origin, g.cq.trans h.cq, g.entry.trans h.entry, g.gen.trans h.gen,
   g.place.trans h.place, g.cs.trans h.cs, g.fwd.trans h.fwd, g.refs.trans h.refs,
   g.phase.trans h.phase,
   g.nops.trans h.nops,
   fun i => ⟨by rcases (g.op i).1 with e | e
                · rw [e]; exact (h.op i).1
                · exact Or.inr e, (g.op i).2.1.trans (h.op i).2.1, (g.op i).2.2.1.trans (h.op i).2.2.1,
     (g.op i).2.2.2.1.trans (h.op i).2.2.2.1, (g.op i).2.2.2.2.1.trans (h.op i).2.2.2.2.1, fun e => by
       have a := (h.op i).2.2.2.2.2 e
       have b := (g.op i).2.2.2.2.2 a.1
       exact ⟨b.1, b.2.trans a.2⟩⟩,
   fun k hk => ⟨(g.buf k (h.buf k hk).1).1, ((g.buf k (h.buf k hk).1).2).trans (h.buf k hk).2⟩⟩

/-- Request k has moved on from the record r0. -/
def Grew (k : Nat) (r0 : Req) (s : State) : Prop := ∃ r, s.req k = some r ∧ r0.to r

variable {k : Nat} {r0 : Req} {s : State}

theorem Grew.refl {r : Req} (h : s.req k = some r) : Grew k r s := ⟨r, h, Req.to.refl r⟩

theorem Grew.reqs {t : State} (h : Grew k r0 s) (e : t.reqs = s.reqs) : Grew k r0 t := by
  obtain ⟨r, h1, h2⟩ := h; exact ⟨r, by rw [req_of_reqs e, h1], h2⟩

theorem Grew.only {A : List Part} {t : State} (h : Grew k r0 s) (f : Only A s t) (hA : Part.reqs ∉ A) : Grew k r0 t := h.reqs (f.2 .reqs hA)

theorem Grew.modReq (id : Nat) (f : Req → Req) (h : Grew k r0 s) (hf : ∀ r : Req, r.to (f r)) : Grew k r0 (Machine.modReq id f s) := by
  obtain ⟨r, h1, h2⟩ := h
  refine ⟨if r.id = id then f r else r, ?_, ?_⟩
  · rw [modReq_req _ _ _ _ (fun r => (hf r).id), h1]; rfl
  · split
    · exact h2.trans (hf r)
    · exact h2

/-- The same where the change is harmless to the record that is there. -/
theorem Grew.modReq_at {r : Req} (f : Req → Req) (h : s.req k = some r) (h0 : r0.to r) (hf : r.to (f r)) (hi : ∀ r, (f r).id = r.id) :
    Grew k r0 (Machine.modReq k f s) := ⟨f r, modReq_req_same f hi h, h0.trans hf⟩

theorem Req.to_modify (r : Req) (i : Nat) (f : OpSt → OpSt)
    (hf : ∀ o, ((f o).phase = o.phase ∨ (f o).phase = .done) ∧ (f o).w = o.w ∧ (f o).tiles = o.tiles ∧ (f o).agreed = o.agreed ∧
      (f o).disputed = o.disputed ∧ (o.phase = .done → (f o).phase = .done ∧ (f o).output = o.output)) :
    r.to { r with ops := r.ops.modify i f } := by
  refine ⟨rfl, rfl, rfl, rfl, rfl, rfl, rfl, rfl, rfl, rfl, rfl, by simp, fun j => ?_, fun _ h => ⟨h, rfl⟩⟩
  rw [op_modify]
  split
  · exact hf _
  · exact ⟨Or.inl rfl, rfl, rfl, rfl, rfl, fun h => ⟨h, rfl⟩⟩

theorem Grew.modOp (id i : Nat) (f : OpSt → OpSt) (h : Grew k r0 s)
    (hf : ∀ o, ((f o).phase = o.phase ∨ (f o).phase = .done) ∧ (f o).w = o.w ∧ (f o).tiles = o.tiles ∧ (f o).agreed = o.agreed ∧
      (f o).disputed = o.disputed ∧ (o.phase = .done → (f o).phase = .done ∧ (f o).output = o.output) := by
      intro o; first | exact ⟨Or.inl rfl, rfl, rfl, rfl, rfl, fun h => ⟨h, rfl⟩⟩ | exact ⟨Or.inr rfl, rfl, rfl, rfl, rfl, fun _ => ⟨rfl, rfl⟩⟩) : Grew k r0 (Machine.modOp id i f s) :=
  Grew.modReq _ _ h (fun r => Req.to_modify r i f hf)

/-- The same where the change is harmless to the operation that is there. -/
theorem Grew.modOp_at {r : Req} (id i : Nat) (f : OpSt → OpSt) (hr : s.req id = some r) (h : Grew k r0 s)
    (hf : ((f (r.op i)).phase = (r.op i).phase ∨ (f (r.op i)).phase = .done) ∧ (f (r.op i)).w = (r.op i).w ∧ (f (r.op i)).tiles = (r.op i).tiles ∧
      (f (r.op i)).agreed = (r.op i).agreed ∧ (f (r.op i)).disputed = (r.op i).disputed ∧
      ((r.op i).phase = .done → (f (r.op i)).phase = .done ∧ (f (r.op i)).output = (r.op i).output)) : Grew k r0 (Machine.modOp id i f s) := by
  obtain ⟨r1, h1, h2⟩ := h
  by_cases e : k = id
  · subst e
    rw [h1] at hr
    obtain rfl : r1 = r := Option.some.inj hr
    refine ⟨_, modOp_req_same i f h1, h2.trans ?_⟩
    refine ⟨rfl, rfl, rfl, rfl, rfl, rfl, rfl, rfl, rfl, rfl, rfl, by simp, fun j => ?_, fun _ h => ⟨h, rfl⟩⟩
    rw [op_modify]
    split
    · next e => rw [← e.1]; exact hf
    · exact ⟨Or.inl rfl, rfl, rfl, rfl, rfl, fun h => ⟨h, rfl⟩⟩
  · exact ⟨r1, by rw [modOp_req_ne _ _ e]; exact h1, h2⟩

theorem Req.to_buf (r : Req) (b : Nat) (f : BufSt → BufSt)
    (hf : (r.buf b).started = true → (f (r.buf b)).started = true ∧ (f (r.buf b)).data = (r.buf b).data) :
    r.to { r with bufs := r.bufs.put {} b (f (r.buf b)) } :=
  ⟨rfl, rfl, rfl, rfl, rfl, rfl, rfl, rfl, rfl, rfl, rfl, rfl, fun _ => ⟨Or.inl rfl, rfl, rfl, rfl, rfl, fun h => ⟨h, rfl⟩⟩, fun c h => by
    rw [buf_put]; split
    · next e => subst e; exact hf h
    · exact ⟨h, rfl⟩⟩

theorem Grew.modBuf (id b : Nat) (f : BufSt → BufSt) (h : Grew k r0 s)
    (hf : ∀ q, q.started = true → (f q).started = true ∧ (f q).data = q.data := by
      intro q h; first | exact ⟨h, rfl⟩ | exact ⟨rfl, rfl⟩) : Grew k r0 (Machine.modBuf id b f s) :=
  Grew.modReq _ _ h (fun r => Req.to_buf r b f (hf _))

theorem Grew.eachN (l : List Nat) {f : Nat → State → State} (h : Grew k r0 s) (hf : ∀ i s, Grew k r0 s → Grew k r0 (f i s)) :
    Grew k r0 (Machine.eachN l f s) := by
  unfold Machine.eachN
  induction l generalizing s with
  | nil => exact h
  | cons a t ih => exact ih (hf a s h)

theorem Grew.emitWr (a : Nat) (d : Bytes) (h : Grew k r0 s) : Grew k r0 (Machine.emitWr a d s) :=
  h.only (Only.emitWr a d s (A := [.out]) (by decide) (Only.refl _ _)) (by decide)
theorem Grew.emitRd (a l : Nat) (h : Grew k r0 s) : Grew k r0 (Machine.emitRd a l s) :=
  h.only (Only.emitRd a l s (A := [.out]) (by decide) (Only.refl _ _)) (by decide)
theorem Grew.emit (o : Out) (h : Grew k r0 s) : Grew k r0 (Machine.emit o s) := h
theorem Grew.reqViol (r : Req) (a : Nat) (d : Dir) (c : Nat) (h : Grew k r0 s) : Grew k r0 (Machine.reqViol r a d c s) :=
  h.only (Only.reqViol r a d c s (A := [.tens, .evPend, .pviol, .pvcnt, .out]) (by decide) (Only.refl _ _)) (by decide)

theorem Grew.reqWrote (id b a off len : Nat) (h : Grew k r0 s) : Grew k r0 (Machine.reqWrote id b a off len s) := by
  unfold Machine.reqWrote
  exact Grew.modReq _ _ h (fun r => ⟨rfl, rfl, rfl, rfl, rfl, rfl, rfl, rfl, rfl, rfl, rfl, rfl, fun _ => ⟨Or.inl rfl, rfl, rfl, rfl, rfl, fun h => ⟨h, rfl⟩⟩, fun _ h => ⟨h, rfl⟩⟩)

theorem Grew.writeSegs (id b : Nat) (data : Bytes) (l : List (Nat × Nat × Nat)) (h : Grew k r0 s) :
    Grew k r0 (Machine.writeSegs id b data l s).1 := by
  induction l generalizing s with
  | nil => exact h
  | cons g t ih =>
    obtain ⟨a, off, len⟩ := g
    unfold Machine.writeSegs
    split
    · exact h
    · dsimp only
      split
      · apply ih
        split
        · exact h
        · exact Grew.modBuf _ _ _ (Grew.reqWrote _ _ _ _ _ (Grew.emitWr _ _ h))
      · apply Grew.reqViol
        split
        · exact h
        · exact Grew.modBuf _ _ _ (Grew.reqWrote _ _ _ _ _ (Grew.emitWr _ _ h))

theorem Grew.askElem (id b : Nat) (f : Fail) (h : Grew k r0 s) : Grew k r0 (Machine.askElem id b f s) := by
  unfold Machine.askElem
  split
  · exact h
  · dsimp only
    split
    · exact h
    · split
      · exact Grew.modBuf _ _ _ h
      · split
        · exact Grew.emitRd _ _ (Grew.modBuf _ _ _ h)
        · exact Grew.reqViol _ _ _ _ (Grew.modBuf _ _ _ h)

theorem Grew.issueRange (id b a l : Nat) (h : Grew k r0 s) : Grew k r0 (Machine.issueRange id b a l s) := by
  unfold Machine.issueRange
  split
  · exact h
  · split
    · exact Grew.emitRd _ _ (Grew.modBuf _ _ _ h)
    · exact Grew.reqViol _ _ _ _ (Grew.emitRd _ _ (Grew.modBuf _ _ _ h))

/-- Only a buffer that was not being read is given data at its start. -/
theorem Grew.startBuf (id b : Nat) (h : Grew k r0 s) : Grew k r0 (Machine.startBuf id b s) := by
  unfold Machine.startBuf
  split
  · exact h
  · next r hr =>
    dsimp only
    split
    · exact h
    · next hs =>
      have g1 : Grew k r0 (Machine.modBuf id b (fun q => { q with started := true }) s) := Grew.modBuf _ _ _ h (fun q _ => ⟨rfl, rfl⟩)
      split
      · exact g1
      · split
        · exact Grew.issueRange _ _ _ _ g1
        · split
          · exact Grew.askElem _ _ _ g1
          · split
            · obtain ⟨r1, e1, t1⟩ := h
              by_cases hk : k = id
              · subst hk
                rw [e1] at hr
                obtain rfl : r1 = r := Option.some.inj hr
                unfold Machine.modBuf
                refine ⟨_, modReq_req_same _ (fun _ => rfl) (modReq_req_same _ (fun _ => rfl) e1), t1.trans ?_⟩
                exact ⟨rfl, rfl, rfl, rfl, rfl, rfl, rfl, rfl, rfl, rfl, rfl, rfl, fun _ => ⟨Or.inl rfl, rfl, rfl, rfl, rfl, fun h => ⟨h, rfl⟩⟩, fun c hc => by
                  by_cases e : c = b
                  · subst e; exact absurd hc hs
                  · rw [buf_put, if_neg e, buf_put, if_neg e]; exact ⟨hc, rfl⟩⟩
              · refine ⟨r1, ?_, t1⟩
                exact (modBuf_req_ne _ _ hk).trans ((modBuf_req_ne _ _ hk).trans e1)
            · have g2 : Grew k r0 (Machine.modBuf id b (fun q => { q with
                  issued := min (r.ref b).len (((r.buf b).hdr.map (fun h => h.len.toNat)).getD 0 - (r.ref b).fstart)
                  stop := if ((r.buf b).hdr.map (fun h => h.len.toNat)).getD 0 < (r.ref b).fstart + (r.ref b).len then some (stShort, 2) else none })
                  (Machine.modBuf id b (fun q => { q with started := true }) s)) := Grew.modBuf _ _ _ g1
              have g3 : ∀ (c : Prop) [Decidable c] (y : State), Grew k r0 y → Grew k r0 (if c then
                  Machine.modReq id (fun r => { r with ops := r.ops.map (fun o => if o.w.src = b + 8 then { o with trunc := true } else o) }) y else y) := by
                intro c _ y hy
                split
                · refine Grew.modReq _ _ hy (fun r => ⟨rfl, rfl, rfl, rfl, rfl, rfl, rfl, rfl, rfl, rfl, rfl, by simp, fun j => ?_, fun _ h => ⟨h, rfl⟩⟩)
                  rw [op_map _ _ _ (by dsimp only; rw [if_neg]; change ¬ (0 = b + 8); omega)]
                  split
                  · exact ⟨Or.inl rfl, rfl, rfl, rfl, rfl, fun h => ⟨h, rfl⟩⟩
                  · exact ⟨Or.inl rfl, rfl, rfl, rfl, rfl, fun h => ⟨h, rfl⟩⟩
                · exact hy
              split
              · exact Grew.emit _ (g3 _ _ g2)
              · exact g3 _ _ g2

theorem Grew.startBufs (id : Nat) (h : Grew k r0 s) : Grew k r0 (Machine.startBufs id s) := by
  unfold Machine.startBufs
  split
  · exact h
  · exact Grew.eachN _ h (fun i s hs => Grew.startBuf _ _ hs)

theorem Grew.writeOut (r : Req) (i n : Nat) (h : Grew k r0 s) : Grew k r0 (Machine.writeOut r i n s).1 := by
  unfold Machine.writeOut
  dsimp only
  split
  · split
    · exact Grew.reqViol _ _ _ _ h
    · exact h
  · exact Grew.writeSegs _ _ _ _ h

theorem Grew.flushOp (id i : Nat) (h : Grew k r0 s) : Grew k r0 (Machine.flushOp id i s).1 := by
  unfold Machine.flushOp
  split
  · exact h
  · rename_i r hr
    dsimp only
    split
    · exact h
    · split
      · exact h
      · split
        · refine Grew.modBuf _ _ _ (Grew.modReq _ _ (Grew.emit _ h) (fun r => ?_))
          exact ⟨rfl, rfl, rfl, rfl, rfl, rfl, rfl, rfl, rfl, rfl, rfl, rfl, fun _ => ⟨Or.inl rfl, rfl, rfl, rfl, rfl, fun h => ⟨h, rfl⟩⟩, fun _ h => ⟨h, rfl⟩⟩
        · split
          · next s1 off e =>
            refine Grew.modOp _ _ _ ?_
            rw [show s1 = (Machine.writeOut r i (r.mayWrite i) s).1 from by rw [e]]
            exact Grew.writeOut _ _ _ h
          · next s1 e =>
            have g1 : Grew k r0 s1 := by
              rw [show s1 = (Machine.writeOut r i (r.mayWrite i) s).1 from by rw [e]]
              exact Grew.writeOut _ _ _ h
            split
            · have g2 : Grew k r0 (Machine.askElem id ((r.op i).w.dst - 8) (stBadInput, 2) s1) := Grew.askElem _ _ _ g1
              split
              · exact g2
              · split
                · exact Grew.modOp _ _ _ g2
                · exact g2
            · exact g1

theorem Grew.receiveKey (id i : Nat) (h : Grew k r0 s) : Grew k r0 (Machine.receiveKey id i s).1 := by
  unfold Machine.receiveKey
  split
  · exact h
  · dsimp only
    split
    · exact h
    · split
      · exact h
      · split
        · exact h
        · first
          | exact Grew.modOp _ _ _ h
          | (split <;> exact Grew.modOp _ _ _ h)

theorem Grew.settleOp (id i : Nat) (h : Grew k r0 s) : Grew k r0 (Machine.settleOp id i s).1 := by
  have g1 : Grew k r0 (Machine.receiveKey id i s).1 := Grew.receiveKey _ _ h
  unfold Machine.settleOp
  split
  · next e => rw [e] at g1; exact g1
  · next s1 e =>
    rw [e] at g1
    split
    · exact g1
    · rename_i r hr
      split
      · dsimp only
        split
        · exact (Grew.modOp _ _ _ g1).only (Only.pairRecord _ _ _ _ _ (A := [.notice, .jrn, .evPend, .pviol, .pvcnt, .out]) (by decide) (Only.refl _ _)) (by decide)
        · exact Grew.modOp _ _ _ g1
      · dsimp only
        generalize hs2 : (if (r.op i).takes = true then Machine.modOp id i (fun o => { o with consumed := (r.src i).length, output := soFar r i (r.src i) }) s1 else s1) = s2
        have g2 : Grew k r0 s2 := by
          rw [← hs2]; split
          · next ht =>
            refine Grew.modOp_at _ _ _ hr g1 ⟨Or.inl rfl, rfl, rfl, rfl, rfl, fun e => ?_⟩
            unfold OpSt.takes at ht
            simp [e] at ht
          · exact g1
        generalize hs3 : (if ((r.op i).takes && decide ((r.op i).w.opc = 0x01) && decide ((r.src i).length = r.srcLen i)) = true then
            Machine.modOp id i (fun o => { o with phase := .done }) s2 else s2) = s3
        have g3 : Grew k r0 s3 := by
          rw [← hs3]; split
          · exact Grew.modOp _ _ _ g2
          · exact g2
        have g4 : Grew k r0 (Machine.flushOp id i s3).1 := Grew.flushOp _ _ g3
        split
        · next e4 => rw [e4] at g4; exact g4
        · next e4 => rw [e4] at g4; exact g4

theorem Grew.settleOps (id : Nat) (l : List Nat) (h : Grew k r0 s) : Grew k r0 (Machine.settleOps id l s).1 := by
  induction l generalizing s with
  | nil => exact h
  | cons i t ih =>
    have g := Grew.settleOp id i h
    unfold Machine.settleOps
    split
    · next e => rw [e] at g; exact g
    · next e => rw [e] at g; exact ih g

/-- The parts that a chain changes while it moves on, before it ends. -/
def runParts : List Part := [.notice, .tens, .reqs, .streams, .jrn, .evPend, .pviol, .pvcnt, .out]

theorem runs_startBufs (id : Nat) (s : State) : Only runParts s (startBufs id s) := Only.startBufs _ _ (by decide) (Only.refl _ _)
theorem runs_settleOps (id : Nat) (l : List Nat) (s : State) : Only runParts s (settleOps id l s).1 := by
  first
  | exact Only.settleOps _ _ _ (by decide) (Only.refl _ _)

/-- A chain that moves on reaches a state in which it goes on or ends; up to there no tile and no key slot has changed. -/
theorem settle_cases {r : Req} (id : Nat) (s : State) (h : s.req id = some r) :
    ∃ y, Only runParts s y ∧ (∀ k r0, Grew k r0 s → Grew k r0 y) ∧ (settle id s = y ∨ ∃ o, settle id s = endChain id o y) := by
  unfold settle
  rw [h]
  dsimp only
  split
  · exact ⟨s, Only.refl _ _, fun _ _ h => h, Or.inl rfl⟩
  · have o1 : Only runParts s (settleOps id (List.range r.ops.length) (startBufs id s)).1 := (runs_startBufs id s).trans (runs_settleOps _ _ _)
    have g1 : ∀ k r0, Grew k r0 s → Grew k r0 (settleOps id (List.range r.ops.length) (startBufs id s)).1 :=
      fun k r0 hg => Grew.settleOps _ _ (Grew.startBufs _ hg)
    split
    · next s1 o e => rw [e] at o1 g1; exact ⟨s1, o1, g1, Or.inr ⟨o, rfl⟩⟩
    · next s1 e =>
      rw [e] at o1 g1
      have o2 : Only runParts s (settleOps id (List.range r.ops.length) (startBufs id s1)).1 :=
        o1.trans ((runs_startBufs id s1).trans (runs_settleOps _ _ _))
      have g2 : ∀ k r0, Grew k r0 s → Grew k r0 (settleOps id (List.range r.ops.length) (startBufs id s1)).1 :=
        fun k r0 hg => Grew.settleOps _ _ (Grew.startBufs _ (g1 k r0 hg))
      split
      · next s2 o e2 => rw [e2] at o2 g2; exact ⟨s2, o2, g2, Or.inr ⟨o, rfl⟩⟩
      · next s2 e2 =>
        rw [e2] at o2 g2
        split
        · exact ⟨s2, o2, g2, Or.inl rfl⟩
        · next r2 hr2 =>
          split
          · unfold endDone
            rw [hr2]
            dsimp only
            split
            · exact ⟨s2, o2, g2, Or.inr ⟨_, rfl⟩⟩
            · split
              · exact ⟨s2, o2, g2, Or.inr ⟨_, rfl⟩⟩
              · exact ⟨s2, o2, g2, Or.inr ⟨_, rfl⟩⟩
          · exact ⟨s2, o2, g2, Or.inl rfl⟩

/-! ### The end of a chain -/

theorem fencePort_req {r : Req} (id : Nat) (p : Bool) (s : State) (h : s.req id = some r) :
    ∃ r', (fencePort id p s).req id = some r' ∧ r.to r' ∧ r'.phase = r.phase ∧ r'.outcome = r.outcome := by
  unfold fencePort
  rw [h]
  dsimp only
  split
  · exact ⟨r, h, Req.to.refl r, rfl, rfl⟩
  · split
    · exact ⟨r, by rw [req_of_reqs ((Only.emitRd _ _ s (A := [.out]) (by decide) (Only.refl _ _)).2 .reqs (by decide)), h], Req.to.refl r, rfl, rfl⟩
    · rw [req_of_reqs ((Only.reqViol _ _ _ _ _ (A := [.tens, .evPend, .pviol, .pvcnt, .out]) (by decide) (Only.refl _ _)).2 .reqs (by decide))]
      refine ⟨_, modReq_req_same _ (fun r => ?_) h, ?_, ?_, ?_⟩
      rotate_left
      · exact ⟨rfl, rfl, rfl, rfl, rfl, rfl, rfl, rfl, rfl, rfl, rfl, rfl, fun _ => ⟨Or.inl rfl, rfl, rfl, rfl, rfl, fun h => ⟨h, rfl⟩⟩, fun _ h => ⟨h, rfl⟩⟩
      all_goals rfl

theorem fenceFrame_req {r : Req} {id : Nat} (q : Req) (s : State) (h : s.req id = some r) :
    ∃ r', (fenceFrame q s).req id = some r' ∧ r.to r' ∧ r'.phase = r.phase ∧ r'.outcome = r.outcome := by
  unfold fenceFrame eachN
  generalize List.range q.refs.length = l
  induction l generalizing s r with
  | nil => exact ⟨r, h, Req.to.refl r, rfl, rfl⟩
  | cons b t ih =>
    simp only [List.foldl_cons]
    split
    · by_cases e : id = q.id
      · subst e
        obtain ⟨r', a1, a2, a3, a4⟩ := ih (r := { r with bufs := r.bufs.put {} b { r.buf b with fence := true } })
          (emit (.fpRd (q.ref b).handle ((q.ref b).fstart + (q.buf b).written - 1) 1) (modBuf q.id b (fun q => { q with fence := true }) s))
          (modBuf_req_same b (fun q => { q with fence := true }) h)
        exact ⟨r', a1, (Req.to_buf r b (fun q => { q with fence := true }) (fun h => ⟨h, rfl⟩)).trans a2, a3, a4⟩
      · exact ih _ ((modBuf_req_ne b (fun q => { q with fence := true }) e).trans h)
    · exact ih _ h

/-- Request id is r but for the last bytes on its ports. -/
def Scrubbing (id : Nat) (r : Req) (s : State) : Prop := ∃ p0 p1, s.req id = some { r with port0 := p0, port1 := p1 }

theorem Scrubbing.only {id : Nat} {r : Req} {A : List Part} {s t : State} (h : Scrubbing id r s) (f : Only A s t) (hA : Part.reqs ∉ A) : Scrubbing id r t := by
  obtain ⟨p0, p1, h⟩ := h; exact ⟨p0, p1, by rw [req_of_reqs (f.2 .reqs hA), h]⟩

theorem Scrubbing.scrubSeg {id : Nat} {r : Req} {s : State} (q : Req) (a len : Nat) (h : Scrubbing id r s) : Scrubbing id r (Machine.scrubSeg q a len s) := by
  have put : ∀ n y, Scrubbing id r y → Scrubbing id r (if n = 0 then y else Machine.modReq q.id (fun r => r.sentOn a n) (Machine.emitWr a (zeros n) y)) := by
    intro n y hy
    split
    · exact hy
    · obtain ⟨p0, p1, e⟩ := hy.only (Only.emitWr a (zeros n) y (A := [.out]) (by decide) (Only.refl _ _)) (by decide)
      by_cases hid : id = q.id
      · subst hid; exact ⟨_, _, by rw [modReq_req_same (fun r => r.sentOn a n) (fun _ => rfl) e]; rfl⟩
      · exact ⟨p0, p1, by rw [modReq_req_ne (fun r => r.sentOn a n) (fun _ => rfl) hid, e]⟩
  unfold Machine.scrubSeg
  dsimp only
  split
  · exact put _ _ h
  · exact (put _ _ h).only (Only.reqViol _ _ _ _ _ (A := [.tens, .evPend, .pviol, .pvcnt, .out]) (by decide) (Only.refl _ _)) (by decide)

/-- Scrubbing changes of the requests the last bytes on their ports alone (R105). -/
theorem scrubAll_req {id : Nat} {r : Req} (q : Req) (s : State) (h : s.req id = some r) : Scrubbing id r (scrubAll q s) := by
  have each : ∀ (l : List Nat) (f : Nat → State → State) y, Scrubbing id r y → (∀ i z, Scrubbing id r z → Scrubbing id r (f i z)) → Scrubbing id r (eachN l f y) := by
    intro l f
    induction l with
    | nil => intro y hy _; exact hy
    | cons b t ih => intro y hy hf; exact ih _ (hf _ _ hy) hf
  unfold scrubAll
  refine each _ _ _ ⟨r.port0, r.port1, h⟩ (fun b z hz => ?_)
  dsimp only
  split
  · split
    · exact hz.only (Only.emit _ (A := [.out]) (by decide) (Only.refl _ _)) (by decide)
    · exact hz
  · generalize segsOf _ _ _ _ = l
    induction l generalizing z with
    | nil => exact hz
    | cons g t ih => exact ih _ (Scrubbing.scrubSeg _ _ _ hz)

/-- A chain that ends leaves its request ended, with the outcome given (R102 to R104). -/
theorem endChain_req {r : Req} (id : Nat) (o : Outcome) (s : State) (h : s.req id = some r) :
    ∃ r', (endChain id o s).req id = some r' ∧ r.to { r' with phase := r.phase } ∧ r'.phase = .ended ∧ r'.outcome = some o := by
  unfold endChain
  rw [h]
  dsimp only
  generalize hs2 : eachN r.claims _ _ = s2
  have e2 : s2.req id = some r := by
    rw [← hs2, req_of_reqs ((Only.eachN (A := [.sch, .tiles, .ks]) r.claims (Only.refl _ _) (fun x y hy => ?_)).2 .reqs (by decide)),
      req_of_reqs ((Only.dropStreams _ _ _ (A := [.tiles, .streams]) (by decide) (Only.endStreams _ _ _ (by decide) (Only.freeTiles _ _ (by decide) (Only.refl _ s)))).2 .reqs (by decide)), h]
    split
    · exact Only.beginVerify _ _ (by decide) hy
    · exact Only.unclaim _ _ (by decide) hy
  generalize hs3 : (if mustScrub r o = true then scrubAll r _ else _) = s3
  have h3 : Scrubbing id r s3 := by
    rw [← hs3]; split
    · exact scrubAll_req _ _ e2
    · exact ⟨r.port0, r.port1, e2⟩
  obtain ⟨p0, p1, h3⟩ := h3
  generalize hs4 : modReq id _ s3 = s4
  have h4 : ∃ r4, s4.req id = some r4 ∧ r.to { r4 with phase := r.phase } ∧ r4.phase = .ended ∧ r4.outcome = some o := by
    rw [← hs4]
    refine ⟨_, modReq_req_same _ (fun r => ?_) h3, ?_, ?_, ?_⟩
    rotate_left
    · refine ⟨rfl, rfl, rfl, rfl, rfl, rfl, rfl, rfl, rfl, rfl, rfl, by simp, fun j => ?_, fun _ h => ⟨h, rfl⟩⟩
      rw [show ∀ (q : Req) (l : List OpSt), q.ops = l → ∀ i, q.op i = l.getD i {} from fun q l e i => by subst e; rfl]
      rotate_left 2
      · rfl
      simp only [List.getD_eq_getElem?_getD, List.getElem?_map, Req.op]
      cases r.ops[j]? <;> exact ⟨Or.inl rfl, rfl, rfl, rfl, rfl, fun h => ⟨h, rfl⟩⟩
    all_goals rfl
  obtain ⟨r4, a1, a2, a3, a4⟩ := h4
  generalize hs5 : modSch _ (modFp _ s4) = s5
  have a5 : s5.req id = some r4 := by rw [← hs5]; exact a1
  split
  · obtain ⟨r5, b1, b2, b3, b4⟩ := fencePort_req id false _ a5
    obtain ⟨r6, c1, c2, c3, c4⟩ := fencePort_req id true _ b1
    obtain ⟨r7, d1, d2, d3, d4⟩ := fenceFrame_req r _ c1
    refine ⟨r7, d1, ?_, by rw [d3, c3, b3, a3], by rw [d4, c4, b4, a4]⟩
    · have d := (b2.trans c2).trans d2
      exact a2.trans ⟨d.id, d.tenant, d.origin, d.cq, d.entry, d.gen, d.place, d.cs, d.fwd, d.refs, rfl, d.nops, d.op, d.buf⟩
  · exact ⟨r4, a5, a2, a3, a4⟩

/-- After settling, the request has moved on: it goes on in its phase, or has ended with an outcome. -/
theorem settle_req {r : Req} (id : Nat) (s : State) (h : s.req id = some r) :
    ∃ r', (settle id s).req id = some r' ∧ r.to { r' with phase := r.phase } ∧ (r'.phase = r.phase ∨ (r'.phase = .ended ∧ r'.outcome.isSome)) := by
  obtain ⟨y, _, hg, hc⟩ := settle_cases id s h
  obtain ⟨r1, e1, t1⟩ := hg id r (Grew.refl h)
  have t1' : r.to { r1 with phase := r.phase } := ⟨t1.id, t1.tenant, t1.origin, t1.cq, t1.entry, t1.gen, t1.place, t1.cs, t1.fwd, t1.refs, rfl, t1.nops, t1.op, t1.buf⟩
  rcases hc with e | ⟨o, e⟩
  · rw [e]
    exact ⟨r1, e1, t1', Or.inl t1.phase⟩
  · obtain ⟨r2, a1, a2, a3, a4⟩ := endChain_req id o y e1
    rw [e]
    refine ⟨r2, a1, t1'.trans ⟨a2.id, a2.tenant, a2.origin, a2.cq, a2.entry, a2.gen, a2.place, a2.cs, a2.fwd, a2.refs, rfl, a2.nops, a2.op, a2.buf⟩, Or.inr ⟨a3, by rw [a4]; rfl⟩⟩

end Sys2Proof.Machine
end

