-- ==== Sys2Proof/Laws/InLedger.lean ====
section
/-!
SUPPORT. A tenant's ledger stays through the operations that record, capture, stop or end work.
-/

set_option Elab.async false

namespace Sys2Proof.Machine

/-- The ledger of tenant n. -/
def Led (n : Nat) (v : Ledger) (s : State) : Prop := (s.ten n).led = v

theorem Led.modTen {n0 : Nat} {v0 : Ledger} {s : State} (n : Nat) (f : Tenant → Tenant) (h : Led n0 v0 s) (hf : ∀ t, (f t).led = t.led) :
    Led n0 v0 (Machine.modTen n f s) := by
  unfold Led at *
  by_cases e : n0 = n
  · subst e; rw [modTen_ten_same, hf]; exact h
  · rw [modTen_ten_ne _ _ e]; exact h
theorem Led.modSq {n0 : Nat} {v0 : Ledger} (n m : Nat) (f : Sq → Sq) (s : State) (hs : Led n0 v0 s) : Led n0 v0 (Machine.modSq n m f s) := hs
theorem Led.modCq {n0 : Nat} {v0 : Ledger} (n m : Nat) (f : Cq → Cq) (s : State) (hs : Led n0 v0 s) : Led n0 v0 (Machine.modCq n m f s) := hs
theorem Led.modDc {n0 : Nat} {v0 : Ledger} (k : Nat) (f : Chan → Chan) (s : State) (hs : Led n0 v0 s) : Led n0 v0 (Machine.modDc k f s) := hs
theorem Led.modTile {n0 : Nat} {v0 : Ledger} (t : Nat) (f : Tile → Tile) (s : State) (hs : Led n0 v0 s) : Led n0 v0 (Machine.modTile t f s) := hs
theorem Led.setCs {n0 : Nat} {v0 : Ledger} (c : Nat) (v : CsSt) (s : State) (hs : Led n0 v0 s) : Led n0 v0 (Machine.setCs c v s) := hs
theorem Led.modKs {n0 : Nat} {v0 : Ledger} (f : KeyStore → KeyStore) (s : State) (hs : Led n0 v0 s) : Led n0 v0 (Machine.modKs f s) := hs
theorem Led.modSlot {n0 : Nat} {v0 : Ledger} (i : Nat) (f : Slot → Slot) (s : State) (hs : Led n0 v0 s) : Led n0 v0 (Machine.modSlot i f s) := hs
theorem Led.modRbg {n0 : Nat} {v0 : Ledger} (k : Nat) (f : Rbg → Rbg) (s : State) (hs : Led n0 v0 s) : Led n0 v0 (Machine.modRbg k f s) := hs
theorem Led.setStream {n0 : Nat} {v0 : Ledger} (i : Nat) (v : Option Stream) (s : State) (hs : Led n0 v0 s) : Led n0 v0 (Machine.setStream i v s) := hs
theorem Led.setCacheEnt {n0 : Nat} {v0 : Ledger} (h : Nat) (v : Option CacheEnt) (s : State) (hs : Led n0 v0 s) : Led n0 v0 (Machine.setCacheEnt h v s) := hs
theorem Led.modCrs {n0 : Nat} {v0 : Ledger} (f : Course → Course) (s : State) (hs : Led n0 v0 s) : Led n0 v0 (Machine.modCrs f s) := hs
theorem Led.modPeer {n0 : Nat} {v0 : Ledger} (p : Nat) (f : Peer → Peer) (s : State) (hs : Led n0 v0 s) : Led n0 v0 (Machine.modPeer p f s) := hs
theorem Led.modOwn {n0 : Nat} {v0 : Ledger} (f : OwnRegs → OwnRegs) (s : State) (hs : Led n0 v0 s) : Led n0 v0 (Machine.modOwn f s) := hs
theorem Led.modTcmp {n0 : Nat} {v0 : Ledger} (j : Nat) (f : Tcmp → Tcmp) (s : State) (hs : Led n0 v0 s) : Led n0 v0 (Machine.modTcmp j f s) := hs
theorem Led.modGen {n0 : Nat} {v0 : Ledger} (f : Gen → Gen) (s : State) (hs : Led n0 v0 s) : Led n0 v0 (Machine.modGen f s) := hs
theorem Led.modJrn {n0 : Nat} {v0 : Ledger} (f : Journal → Journal) (s : State) (hs : Led n0 v0 s) : Led n0 v0 (Machine.modJrn f s) := hs
theorem Led.modTime {n0 : Nat} {v0 : Ledger} (f : TimeUnit → TimeUnit) (s : State) (hs : Led n0 v0 s) : Led n0 v0 (Machine.modTime f s) := hs
theorem Led.modClk {n0 : Nat} {v0 : Ledger} (f : Clocks → Clocks) (s : State) (hs : Led n0 v0 s) : Led n0 v0 (Machine.modClk f s) := hs
theorem Led.modStart {n0 : Nat} {v0 : Ledger} (f : Start → Start) (s : State) (hs : Led n0 v0 s) : Led n0 v0 (Machine.modStart f s) := hs
theorem Led.modOwner {n0 : Nat} {v0 : Ledger} (f : Owner → Owner) (s : State) (hs : Led n0 v0 s) : Led n0 v0 (Machine.modOwner f s) := hs
theorem Led.modMeas {n0 : Nat} {v0 : Ledger} (f : Meas → Meas) (s : State) (hs : Led n0 v0 s) : Led n0 v0 (Machine.modMeas f s) := hs
theorem Led.modEs {n0 : Nat} {v0 : Ledger} (f : Entropy → Entropy) (s : State) (hs : Led n0 v0 s) : Led n0 v0 (Machine.modEs f s) := hs
theorem Led.modBoot {n0 : Nat} {v0 : Ledger} (f : Boot → Boot) (s : State) (hs : Led n0 v0 s) : Led n0 v0 (Machine.modBoot f s) := hs
theorem Led.modFp {n0 : Nat} {v0 : Ledger} (f : FramePort → FramePort) (s : State) (hs : Led n0 v0 s) : Led n0 v0 (Machine.modFp f s) := hs
theorem Led.modSup {n0 : Nat} {v0 : Ledger} (f : Supply → Supply) (s : State) (hs : Led n0 v0 s) : Led n0 v0 (Machine.modSup f s) := hs
theorem Led.modSch {n0 : Nat} {v0 : Ledger} (f : Sched → Sched) (s : State) (hs : Led n0 v0 s) : Led n0 v0 (Machine.modSch f s) := hs
theorem Led.modReq {n0 : Nat} {v0 : Ledger} (id : Nat) (f : Req → Req) (s : State) (hs : Led n0 v0 s) : Led n0 v0 (Machine.modReq id f s) := hs
theorem Led.dropReq {n0 : Nat} {v0 : Ledger} (id : Nat) (s : State) (hs : Led n0 v0 s) : Led n0 v0 (Machine.dropReq id s) := hs
theorem Led.emit {n0 : Nat} {v0 : Ledger} (o : Out) (s : State) (hs : Led n0 v0 s) : Led n0 v0 (Machine.emit o s) := hs
theorem Led.nextFree {n0 : Nat} {v0 : Ledger} (s : State) (hs : Led n0 v0 s) : Led n0 v0 (Machine.nextFree s) := hs
theorem Led.modRoots {n0 : Nat} {v0 : Ledger} (f : Roots → Roots) (s : State) (hs : Led n0 v0 s) : Led n0 v0 (Machine.modRoots f s) := hs
theorem Led.modIdent {n0 : Nat} {v0 : Ledger} (f : Ident → Ident) (s : State) (hs : Led n0 v0 s) : Led n0 v0 (Machine.modIdent f s) := hs
theorem Led.modRet {n0 : Nat} {v0 : Ledger} (f : Retention → Retention) (s : State) (hs : Led n0 v0 s) : Led n0 v0 (Machine.modRet f s) := hs
theorem Led.modDenied {n0 : Nat} {v0 : Ledger} (f : Cnt32 → Cnt32) (s : State) (hs : Led n0 v0 s) : Led n0 v0 (Machine.modDenied f s) := hs
theorem Led.modEvPend {n0 : Nat} {v0 : Ledger} (f : Word → Word) (s : State) (hs : Led n0 v0 s) : Led n0 v0 (Machine.modEvPend f s) := hs
theorem Led.modBuserr {n0 : Nat} {v0 : Ledger} (f : Capture → Capture) (s : State) (hs : Led n0 v0 s) : Led n0 v0 (Machine.modBuserr f s) := hs
theorem Led.modBecnt {n0 : Nat} {v0 : Ledger} (f : Cnt32 → Cnt32) (s : State) (hs : Led n0 v0 s) : Led n0 v0 (Machine.modBecnt f s) := hs
theorem Led.modPviol {n0 : Nat} {v0 : Ledger} (f : Capture → Capture) (s : State) (hs : Led n0 v0 s) : Led n0 v0 (Machine.modPviol f s) := hs
theorem Led.modPvcnt {n0 : Nat} {v0 : Ledger} (f : Cnt32 → Cnt32) (s : State) (hs : Led n0 v0 s) : Led n0 v0 (Machine.modPvcnt f s) := hs
theorem Led.modSent {n0 : Nat} {v0 : Ledger} (f : List Req → List Req) (s : State) (hs : Led n0 v0 s) : Led n0 v0 (Machine.modSent f s) := hs
theorem Led.modReqs {n0 : Nat} {v0 : Ledger} (f : List Req → List Req) (s : State) (hs : Led n0 v0 s) : Led n0 v0 (Machine.modReqs f s) := hs
theorem Led.modHeld {n0 : Nat} {v0 : Ledger} (f : List HeldWrite → List HeldWrite) (s : State) (hs : Led n0 v0 s) : Led n0 v0 (Machine.modHeld f s) := hs
theorem Led.modLatch {n0 : Nat} {v0 : Ledger} (f : List Latch → List Latch) (s : State) (hs : Led n0 v0 s) : Led n0 v0 (Machine.modLatch f s) := hs
theorem Led.modCe {n0 : Nat} {v0 : Ledger} (c : Nat) (f : Cnt32 → Cnt32) (s : State) (hs : Led n0 v0 s) : Led n0 v0 (Machine.modCe c f s) := hs
theorem Led.modNotice {n0 : Nat} {v0 : Ledger} (f : Word → Word) (s : State) (hs : Led n0 v0 s) : Led n0 v0 (Machine.modNotice f s) := hs
theorem Led.setAct {n0 : Nat} {v0 : Ledger} (c : Content) (s : State) (hs : Led n0 v0 s) : Led n0 v0 (Machine.setAct c s) := hs

theorem Led.foldl {n0 : Nat} {v0 : Ledger} {s : State} {α : Type} {f : State → α → State} (l : List α) (h : Led n0 v0 s) (hf : ∀ s a, Led n0 v0 s → Led n0 v0 (f s a)) :
    Led n0 v0 (l.foldl f s) := by
  induction l generalizing s with
  | nil => exact h
  | cons a t ih => exact ih (hf s a h)
theorem Led.eachN {n0 : Nat} {v0 : Ledger} {s : State} {f : Nat → State → State} (l : List Nat) (h : Led n0 v0 s) (hf : ∀ i s, Led n0 v0 s → Led n0 v0 (f i s)) : Led n0 v0 (Machine.eachN l f s) :=
  Led.foldl l h (fun s i hs => hf i s hs)
theorem Led.ite {n0 : Nat} {v0 : Ledger} {c : Prop} [Decidable c] {a b : State} (ha : c → Led n0 v0 a) (hb : ¬c → Led n0 v0 b) : Led n0 v0 (if c then a else b) := by
  by_cases h : c
  · rw [if_pos h]; exact ha h
  · rw [if_neg h]; exact hb h
theorem Led.idS {n0 : Nat} {v0 : Ledger} {s : State} (h : Led n0 v0 s) : Led n0 v0 (id s) := h
theorem Led.whenS {n0 : Nat} {v0 : Ledger} {b : Bool} {f : State → State} {s : State} (h : Led n0 v0 s) (hf : b = true → ∀ s, Led n0 v0 s → Led n0 v0 (f s)) : Led n0 v0 (Machine.whenS b f s) := by
  unfold Machine.whenS
  split
  · next e => exact hf e s h
  · exact h
theorem Led.withReq {n0 : Nat} {v0 : Ledger} {id : Nat} {f : Req → State → State} {s : State} (h : Led n0 v0 s) (hf : ∀ r s, Led n0 v0 s → Led n0 v0 (f r s)) : Led n0 v0 (Machine.withReq id f s) := by
  unfold Machine.withReq
  split
  · exact hf _ s h
  · exact h

theorem Led.emitWr {n0 : Nat} {v0 : Ledger} (addr : Nat) (data : Bytes) (s : State) (h : Led n0 v0 s) : Led n0 v0 (Machine.emitWr addr data s) := by
  unfold Machine.emitWr
  repeat' first
    | dsimp only
    | with_reducible assumption
    | intro _
    | with_reducible apply Led.emit
    | with_reducible apply Led.foldl

theorem Led.emitRd {n0 : Nat} {v0 : Ledger} (addr len : Nat) (s : State) (h : Led n0 v0 s) : Led n0 v0 (Machine.emitRd addr len s) := by
  unfold Machine.emitRd
  repeat' first
    | dsimp only
    | with_reducible assumption
    | intro _
    | with_reducible apply Led.emit
    | with_reducible apply Led.foldl

theorem Led.emitRecord {n0 : Nat} {v0 : Ledger} (addr : Nat) (b : Bytes) (s : State) (h : Led n0 v0 s) : Led n0 v0 (Machine.emitRecord addr b s) := by
  unfold Machine.emitRecord
  repeat' first
    | dsimp only
    | with_reducible assumption
    | intro _
    | with_reducible apply Led.emitWr

theorem Led.raiseT {n0 : Nat} {v0 : Ledger} (n e : Nat) (s : State) (h : Led n0 v0 s) : Led n0 v0 (Machine.raiseT n e s) := by
  unfold Machine.raiseT
  repeat' first
    | dsimp only
    | with_reducible assumption
    | intro _
    | with_reducible refine Led.modTen _ _ ?_ (by intro t; first | rfl | (dsimp only; split <;> rfl))

theorem Led.raiseG {n0 : Nat} {v0 : Ledger} (e : Nat) (s : State) (h : Led n0 v0 s) : Led n0 v0 (Machine.raiseG e s) := by
  unfold Machine.raiseG
  repeat' first
    | dsimp only
    | with_reducible assumption
    | intro _
    | with_reducible apply Led.modEvPend

theorem Led.violT {n0 : Nat} {v0 : Ledger} (n : Nat) (addr : Nat) (d : Dir) (cause kind number tag gen : Nat) (s : State) (h : Led n0 v0 s) : Led n0 v0 (Machine.violT n addr d cause kind number tag gen s) := by
  unfold Machine.violT
  repeat' first
    | dsimp only
    | with_reducible assumption
    | intro _
    | with_reducible refine Led.modTen _ _ ?_ (by intro t; first | rfl | (dsimp only; split <;> rfl))
    | with_reducible apply Led.raiseT
    | with_reducible refine Led.ite ?_ ?_

theorem Led.violP {n0 : Nat} {v0 : Ledger} (addr : Nat) (d : Dir) (cause kind number tag gen : Nat) (s : State) (h : Led n0 v0 s) : Led n0 v0 (Machine.violP addr d cause kind number tag gen s) := by
  unfold Machine.violP
  repeat' first
    | dsimp only
    | with_reducible assumption
    | intro _
    | with_reducible apply Led.modPvcnt
    | with_reducible apply Led.modPviol
    | with_reducible apply Led.raiseG
    | with_reducible refine Led.ite ?_ ?_

theorem Led.viol {n0 : Nat} {v0 : Ledger} (t : Option TenantIx) (addr : Nat) (d : Dir) (cause kind number tag gen : Nat) (s : State) (h : Led n0 v0 s) : Led n0 v0 (Machine.viol t addr d cause kind number tag gen s) := by
  unfold Machine.viol
  repeat' first
    | dsimp only
    | with_reducible assumption
    | intro _
    | with_reducible apply Led.violP
    | with_reducible apply Led.violT
    | with_reducible refine Led.ite ?_ ?_
    | split

theorem Led.jrnLose {n0 : Nat} {v0 : Ledger} (s : State) (h : Led n0 v0 s) : Led n0 v0 (Machine.jrnLose s) := by
  unfold Machine.jrnLose
  repeat' first
    | dsimp only
    | with_reducible assumption
    | intro _
    | with_reducible apply Led.modJrn
    | with_reducible apply Led.raiseG

theorem Led.jrnNlose {n0 : Nat} {v0 : Ledger} (s : State) (h : Led n0 v0 s) : Led n0 v0 (Machine.jrnNlose s) := by
  unfold Machine.jrnNlose
  repeat' first
    | dsimp only
    | with_reducible assumption
    | intro _
    | with_reducible apply Led.modJrn

theorem Led.jrnPush {n0 : Nat} {v0 : Ledger} (rec : List (BitVec 32)) (s : State) (h : Led n0 v0 s) : Led n0 v0 (Machine.jrnPush rec s) := by
  unfold Machine.jrnPush
  repeat' first
    | dsimp only
    | with_reducible assumption
    | intro _
    | with_reducible apply Led.modJrn
    | with_reducible apply Led.raiseG
    | with_reducible refine Led.ite ?_ ?_

theorem Led.jrnMakeRoom {n0 : Nat} {v0 : Ledger} (need : Nat) (x : Nat) (s : State) (h : Led n0 v0 s) : Led n0 v0 (Machine.jrnMakeRoom need x s) := by
  induction x generalizing s with
  | zero => exact h
  | succ n ih =>
    unfold Machine.jrnMakeRoom
    repeat' first
      | dsimp only
      | with_reducible assumption
      | intro _
      | with_reducible apply Led.jrnLose
      | with_reducible apply Led.modJrn
      | with_reducible refine Led.ite ?_ ?_
      | split
      | rfl
      | exact hes
      | (simp_all; done)
      | with_reducible apply ih

theorem Led.noticeFault {n0 : Nat} {v0 : Ledger} (s : State) (h : Led n0 v0 s) : Led n0 v0 (Machine.noticeFault s) := by
  unfold Machine.noticeFault
  repeat' first
    | dsimp only
    | with_reducible assumption
    | intro _
    | with_reducible apply Led.modNotice
    | with_reducible apply Led.raiseG

theorem Led.notice {n0 : Nat} {v0 : Ledger} (rec : List (BitVec 32)) (s : State) (h : Led n0 v0 s) : Led n0 v0 (Machine.notice rec s) := by
  unfold Machine.notice
  repeat' first
    | dsimp only
    | with_reducible assumption
    | intro _
    | with_reducible apply Led.emitRecord
    | with_reducible apply Led.jrnNlose
    | with_reducible apply Led.modJrn
    | with_reducible apply Led.noticeFault
    | with_reducible apply Led.violP
    | with_reducible refine Led.ite ?_ ?_
    | split

theorem Led.jrnOpen {n0 : Nat} {v0 : Ledger} (bad : Bool) (s : State) (h : Led n0 v0 s) : Led n0 v0 (Machine.jrnOpen bad s) := by
  unfold Machine.jrnOpen
  repeat' first
    | dsimp only
    | with_reducible assumption
    | intro _
    | with_reducible apply Led.modJrn
    | with_reducible refine Led.ite ?_ ?_
    | split

theorem Led.jrnDeliver {n0 : Nat} {v0 : Ledger} (who : Who) (size : AccSize) (bad : Bool) (s : State) (h : Led n0 v0 s) : Led n0 v0 (Machine.jrnDeliver who size bad s) := by
  unfold Machine.jrnDeliver
  repeat' first
    | dsimp only
    | with_reducible assumption
    | intro _
    | with_reducible apply Led.emit
    | with_reducible apply Led.jrnOpen
    | with_reducible apply Led.modJrn
    | with_reducible refine Led.ite ?_ ?_
    | split

theorem Led.jrnServe {n0 : Nat} {v0 : Ledger}  (x : List (Who × AccSize)) (s : State) (h : Led n0 v0 s) : Led n0 v0 (Machine.jrnServe x s) := by
  induction x generalizing s with
  | nil => exact h
  | cons a l ih =>
    try obtain ⟨_, _⟩ := a
    unfold Machine.jrnServe
    repeat' first
      | dsimp only
      | with_reducible assumption
      | intro _
      | with_reducible apply Led.jrnDeliver
      | with_reducible apply Led.modJrn
      | with_reducible refine Led.ite ?_ ?_
      | split
      | rfl
      | exact hes
      | with_reducible apply ih

theorem Led.jrnStore {n0 : Nat} {v0 : Ledger} (rec : List (BitVec 32)) (s : State) (h : Led n0 v0 s) : Led n0 v0 (Machine.jrnStore rec s) := by
  unfold Machine.jrnStore
  repeat' first
    | dsimp only
    | with_reducible assumption
    | intro _
    | with_reducible apply Led.jrnPush
    | with_reducible apply Led.jrnServe
    | with_reducible apply Led.notice

theorem Led.journal {n0 : Nat} {v0 : Ledger} (type origin : Nat) (payload : List Nat) (s : State) (h : Led n0 v0 s) : Led n0 v0 (Machine.journal type origin payload s) := by
  unfold Machine.journal
  repeat' first
    | dsimp only
    | with_reducible assumption
    | intro _
    | with_reducible apply Led.jrnLose
    | with_reducible apply Led.jrnMakeRoom
    | with_reducible apply Led.jrnStore
    | with_reducible apply Led.modJrn
    | with_reducible refine Led.ite ?_ ?_

theorem Led.countCe {n0 : Nat} {v0 : Ledger} (c : Nat) (s : State) (h : Led n0 v0 s) : Led n0 v0 (Machine.countCe c s) := by
  unfold Machine.countCe
  repeat' first
    | dsimp only
    | with_reducible assumption
    | intro _
    | with_reducible apply Led.modCe
    | with_reducible apply Led.raiseG
    | with_reducible refine Led.ite ?_ ?_

theorem Led.journalUe {n0 : Nat} {v0 : Ledger} (c loc : Nat) (s : State) (h : Led n0 v0 s) : Led n0 v0 (Machine.journalUe c loc s) := by
  unfold Machine.journalUe
  repeat' first
    | dsimp only
    | with_reducible assumption
    | intro _
    | with_reducible apply Led.journal

theorem Led.sendFrame {n0 : Nat} {v0 : Ledger} (type dst : Nat) (payload : Bytes) (s : State) (h : Led n0 v0 s) : Led n0 v0 (Machine.sendFrame type dst payload s) := by
  unfold Machine.sendFrame
  repeat' first
    | dsimp only
    | with_reducible assumption
    | intro _
    | with_reducible apply Led.emit
    | with_reducible apply Led.modCrs

theorem Led.unstall {n0 : Nat} {v0 : Ledger} (n : Nat) (s : State) (h : Led n0 v0 s) : Led n0 v0 (Machine.unstall n s) := by
  unfold Machine.unstall
  repeat' first
    | dsimp only
    | with_reducible assumption
    | intro _
    | with_reducible apply Led.eachN
    | with_reducible apply Led.modCq
    | with_reducible refine Led.ite ?_ ?_

theorem Led.modBuf {n0 : Nat} {v0 : Ledger} (id b : Nat) (f : BufSt → BufSt) (s : State) (h : Led n0 v0 s) : Led n0 v0 (Machine.modBuf id b f s) := by
  unfold Machine.modBuf
  repeat' first
    | dsimp only
    | with_reducible assumption
    | intro _
    | with_reducible apply Led.modReq
    | with_reducible refine Led.ite ?_ ?_
    | split

theorem Led.reqViol {n0 : Nat} {v0 : Ledger} (r : Req) (addr : Nat) (d : Dir) (cause : Nat) (s : State) (h : Led n0 v0 s) : Led n0 v0 (Machine.reqViol r addr d cause s) := by
  unfold Machine.reqViol
  repeat' first
    | dsimp only
    | with_reducible assumption
    | intro _
    | with_reducible apply Led.viol

theorem Led.freeTiles {n0 : Nat} {v0 : Ledger} (id : Nat) (s : State) (h : Led n0 v0 s) : Led n0 v0 (Machine.freeTiles id s) := by
  unfold Machine.freeTiles
  repeat' first
    | dsimp only
    | with_reducible assumption
    | intro _
    | with_reducible apply Led.eachN
    | with_reducible apply Led.modTile

theorem Led.dropWork {n0 : Nat} {v0 : Ledger} (aim : Purpose) (s : State) (h : Led n0 v0 s) : Led n0 v0 (Machine.dropWork aim s) := by
  unfold Machine.dropWork
  repeat' first
    | dsimp only
    | with_reducible assumption
    | intro _
    | with_reducible apply Led.foldl
    | with_reducible apply Led.freeTiles
    | with_reducible apply Led.modSch
    | with_reducible refine Led.ite ?_ ?_
    | split

theorem Led.unclaim {n0 : Nat} {v0 : Ledger} (x : Nat) (s : State) (h : Led n0 v0 s) : Led n0 v0 (Machine.unclaim x s) := by
  unfold Machine.unclaim
  repeat' first
    | dsimp only
    | with_reducible assumption
    | intro _
    | with_reducible apply Led.dropWork
    | with_reducible apply Led.modKs
    | with_reducible apply Led.modSlot
    | with_reducible refine Led.ite ?_ ?_
    | split

theorem Led.closeStream {n0 : Nat} {v0 : Ledger} (ix : Nat) (s : State) (h : Led n0 v0 s) : Led n0 v0 (Machine.closeStream ix s) := by
  unfold Machine.closeStream
  repeat' first
    | dsimp only
    | with_reducible assumption
    | intro _
    | with_reducible apply Led.setStream
    | with_reducible refine Led.ite ?_ ?_
    | split

theorem Led.issueJob {n0 : Nat} {v0 : Ledger} (kind : Nat) (work : JobWork) (s : State) (h : Led n0 v0 s) : Led n0 v0 (Machine.issueJob kind work s) := by
  unfold Machine.issueJob
  repeat' first
    | dsimp only
    | with_reducible assumption
    | intro _
    | with_reducible apply Led.modSch
    | with_reducible refine Led.ite ?_ ?_
    | split

theorem Led.prepareBank {n0 : Nat} {v0 : Ledger} (x : Nat) (s : State) (h : Led n0 v0 s) : Led n0 v0 (Machine.prepareBank x s) := by
  unfold Machine.prepareBank
  repeat' first
    | dsimp only
    | with_reducible assumption
    | intro _
    | with_reducible apply Led.issueJob
    | with_reducible refine Led.ite ?_ ?_
    | split

theorem Led.beginVerify {n0 : Nat} {v0 : Ledger} (x : Nat) (s : State) (h : Led n0 v0 s) : Led n0 v0 (Machine.beginVerify x s) := by
  unfold Machine.beginVerify
  repeat' first
    | dsimp only
    | with_reducible assumption
    | intro _
    | with_reducible apply Led.modKs
    | with_reducible apply Led.modSlot
    | with_reducible apply Led.prepareBank
    | with_reducible refine Led.ite ?_ ?_
    | split

theorem Led.endStreams {n0 : Nat} {v0 : Ledger} (r : Req) (o : Outcome) (s : State) (h : Led n0 v0 s) : Led n0 v0 (Machine.endStreams r o s) := by
  unfold Machine.endStreams
  repeat' first
    | dsimp only
    | with_reducible assumption
    | intro _
    | with_reducible apply Led.closeStream
    | with_reducible apply Led.eachN
    | with_reducible apply Led.setStream
    | with_reducible refine Led.ite ?_ ?_
    | split

theorem Led.dropStreams {n0 : Nat} {v0 : Ledger} (r : Req) (o : Outcome) (s : State) (h : Led n0 v0 s) : Led n0 v0 (Machine.dropStreams r o s) := by
  unfold Machine.dropStreams
  repeat' first
    | dsimp only
    | with_reducible assumption
    | intro _
    | with_reducible apply Led.closeStream
    | with_reducible apply Led.foldl
    | with_reducible refine Led.ite ?_ ?_
    | split

theorem Led.scrubSeg {n0 : Nat} {v0 : Ledger} (r : Req) (a len : Nat) (s : State) (h : Led n0 v0 s) : Led n0 v0 (Machine.scrubSeg r a len s) := by
  unfold Machine.scrubSeg
  repeat' first
    | dsimp only
    | with_reducible assumption
    | intro _
    | with_reducible apply Led.emitWr
    | with_reducible apply Led.modReq
    | with_reducible apply Led.reqViol
    | with_reducible refine Led.ite ?_ ?_
    | split

theorem Led.scrubAll {n0 : Nat} {v0 : Ledger} (r : Req) (s : State) (h : Led n0 v0 s) : Led n0 v0 (Machine.scrubAll r s) := by
  unfold Machine.scrubAll
  repeat' first
    | dsimp only
    | with_reducible assumption
    | intro _
    | with_reducible apply Led.eachN
    | with_reducible apply Led.emit
    | with_reducible apply Led.foldl
    | with_reducible apply Led.scrubSeg
    | with_reducible refine Led.ite ?_ ?_
    | split

theorem Led.fencePort {n0 : Nat} {v0 : Ledger} (id : Nat) (port : Bool) (s : State) (h : Led n0 v0 s) : Led n0 v0 (Machine.fencePort id port s) := by
  unfold Machine.fencePort
  repeat' first
    | dsimp only
    | with_reducible assumption
    | intro _
    | with_reducible apply Led.emitRd
    | with_reducible apply Led.modReq
    | with_reducible apply Led.reqViol
    | with_reducible apply Led.idS
    | with_reducible refine Led.ite ?_ ?_
    | split

theorem Led.fenceFrame {n0 : Nat} {v0 : Ledger} (r : Req) (s : State) (h : Led n0 v0 s) : Led n0 v0 (Machine.fenceFrame r s) := by
  unfold Machine.fenceFrame
  repeat' first
    | dsimp only
    | with_reducible assumption
    | intro _
    | with_reducible apply Led.eachN
    | with_reducible apply Led.emit
    | with_reducible apply Led.modBuf
    | with_reducible refine Led.ite ?_ ?_
    | split

theorem Led.endChain {n0 : Nat} {v0 : Ledger} (id : Nat) (o : Outcome) (s : State) (h : Led n0 v0 s) : Led n0 v0 (Machine.endChain id o s) := by
  unfold Machine.endChain
  repeat' first
    | dsimp only
    | with_reducible assumption
    | intro _
    | with_reducible apply Led.beginVerify
    | with_reducible apply Led.dropStreams
    | with_reducible apply Led.eachN
    | with_reducible apply Led.endStreams
    | with_reducible apply Led.fenceFrame
    | with_reducible apply Led.fencePort
    | with_reducible apply Led.freeTiles
    | with_reducible apply Led.modFp
    | with_reducible apply Led.modReq
    | with_reducible apply Led.modSch
    | with_reducible apply Led.scrubAll
    | with_reducible apply Led.unclaim
    | with_reducible refine Led.ite ?_ ?_
    | split

theorem Led.unforward {n0 : Nat} {v0 : Ledger} (id : Nat) (s : State) (h : Led n0 v0 s) : Led n0 v0 (Machine.unforward id s) := by
  unfold Machine.unforward
  repeat' first
    | dsimp only
    | with_reducible assumption
    | intro _
    | with_reducible apply Led.modCrs
    | with_reducible apply Led.modReq

theorem Led.stopReq {n0 : Nat} {v0 : Ledger} (id : Nat) (o : Outcome) (s : State) (h : Led n0 v0 s) : Led n0 v0 (Machine.stopReq id o s) := by
  unfold Machine.stopReq
  repeat' first
    | dsimp only
    | with_reducible assumption
    | intro _
    | with_reducible apply Led.endChain
    | with_reducible apply Led.sendFrame
    | with_reducible apply Led.unforward
    | with_reducible apply Led.idS
    | with_reducible refine Led.ite ?_ ?_
    | split

theorem Led.notify {n0 : Nat} {v0 : Ledger} (n m : Nat) (s : State) (h : Led n0 v0 s) : Led n0 v0 (Machine.notify n m s) := by
  unfold Machine.notify
  repeat' first
    | dsimp only
    | with_reducible assumption
    | intro _
    | with_reducible apply Led.modCq
    | with_reducible apply Led.raiseT

theorem Led.cqFault {n0 : Nat} {v0 : Ledger} (n m addr kind cause : Nat) (s : State) (h : Led n0 v0 s) : Led n0 v0 (Machine.cqFault n m addr kind cause s) := by
  unfold Machine.cqFault
  repeat' first
    | dsimp only
    | with_reducible assumption
    | intro _
    | with_reducible apply Led.modCq
    | with_reducible apply Led.raiseT

theorem Led.recViol {n0 : Nat} {v0 : Ledger} (r : Req) (addr cause : Nat) (s : State) (h : Led n0 v0 s) : Led n0 v0 (Machine.recViol r addr cause s) := by
  unfold Machine.recViol
  repeat' first
    | dsimp only
    | with_reducible assumption
    | intro _
    | with_reducible apply Led.viol

theorem Led.rescueFaultRecord {n0 : Nat} {v0 : Ledger} (n m : Nat) (copy : Bool) (addr : Nat) (s : State) (h : Led n0 v0 s) : Led n0 v0 (Machine.rescueFaultRecord n m copy addr s) := by
  unfold Machine.rescueFaultRecord
  repeat' first
    | dsimp only
    | with_reducible assumption
    | intro _
    | with_reducible apply Led.journal
    | with_reducible apply Led.raiseG

theorem Led.rescue {n0 : Nat} {v0 : Ledger} (r : Req) (b : Bytes) (s : State) (h : Led n0 v0 s) : Led n0 v0 (Machine.rescue r b s) := by
  unfold Machine.rescue
  repeat' first
    | dsimp only
    | with_reducible assumption
    | intro _
    | with_reducible apply Led.emitRecord
    | with_reducible apply Led.modCq
    | with_reducible apply Led.modReq
    | with_reducible apply Led.rescueFaultRecord
    | with_reducible apply Led.unstall
    | with_reducible apply Led.violP
    | with_reducible refine Led.ite ?_ ?_
    | split

theorem Led.busErrorOf {n0 : Nat} {v0 : Ledger} (t : Option TenantIx) (addr : Nat) (d : Dir) (port kind number tag gen : Nat) (s : State) (h : Led n0 v0 s) : Led n0 v0 (Machine.busErrorOf t addr d port kind number tag gen s) := by
  unfold Machine.busErrorOf
  repeat' first
    | dsimp only
    | with_reducible assumption
    | intro _
    | with_reducible apply Led.journal
    | with_reducible apply Led.modBecnt
    | with_reducible apply Led.modBuserr
    | with_reducible refine Led.modTen _ _ ?_ (by intro t; first | rfl | (dsimp only; split <;> rfl))
    | with_reducible apply Led.raiseG
    | with_reducible apply Led.raiseT
    | with_reducible refine Led.ite ?_ ?_
    | split

theorem Led.countLate {n0 : Nat} {v0 : Ledger} (r : Req) (s : State) (h : Led n0 v0 s) : Led n0 v0 (Machine.countLate r s) := by
  unfold Machine.countLate
  repeat' first
    | dsimp only
    | with_reducible assumption
    | intro _
    | with_reducible apply Led.modSq
    | with_reducible apply Led.raiseT

theorem Led.scrubContext {n0 : Nat} {v0 : Ledger} (id : Nat) (s : State) (h : Led n0 v0 s) : Led n0 v0 (Machine.scrubContext id s) := by
  unfold Machine.scrubContext
  repeat' first
    | dsimp only
    | with_reducible assumption
    | intro _
    | with_reducible apply Led.modReq
    | with_reducible refine Led.ite ?_ ?_
    | split

theorem Led.ledgerUe {n0 : Nat} {v0 : Ledger} (c : Nat) (t : Option Nat) (s : State) (h : Led n0 v0 s) : Led n0 v0 (Machine.ledgerUe c t s) := by
  unfold Machine.ledgerUe
  repeat' first
    | dsimp only
    | with_reducible assumption
    | intro _
    | with_reducible apply Led.journalUe
    | with_reducible refine Led.modTen _ _ ?_ (by intro t; first | rfl | (dsimp only; split <;> rfl))
    | with_reducible apply Led.raiseG
    | with_reducible apply Led.raiseT
    | with_reducible refine Led.ite ?_ ?_
    | split

theorem Led.memCheck {n0 : Nat} {v0 : Ledger} (c : Nat) (t : Option Nat) (ecc : Ecc) (s : State) (h : Led n0 v0 s) : Led n0 v0 (Machine.memCheck c t ecc s) := by
  unfold Machine.memCheck
  split
  · exact h
  · exact Led.countCe _ _ h
  · exact Led.ledgerUe _ _ _ h

theorem Led.countSupply {n0 : Nat} {v0 : Ledger} (s : State) (h : Led n0 v0 s) : Led n0 v0 (Machine.countSupply s) := by
  unfold Machine.countSupply
  repeat' first
    | dsimp only
    | with_reducible assumption
    | intro _
    | with_reducible apply Led.modSup

end Sys2Proof.Machine
end

