-- ==== Sys2Proof/Laws/Port.lean ====
section
/-!
SUPPORT. The register target port: a write that it takes is the write's effect, and a write that it denies is the drop.
-/

set_option Elab.async false

namespace Sys2Proof.Machine

theorem and_full (val : Word) : val &&& ~~~ 0 = val := BitVec.and_allOnes

theorem gateW_takes {s : State} {who : Who} {r : Reg} {val : Word} {f : State → State} (h : Takes s who r val) :
    gateW who r val f s = f s := by
  obtain ⟨h1, h2, h3, h4⟩ := h
  simp only [gateW, gateP, and_full, h1, h2, h3, h4, Bool.not_true, Bool.false_eq_true, Bool.and_self, if_false, if_true]

theorem gateW_denies {s : State} {who : Who} {r : Reg} {val : Word} {f : State → State} (h : Denies s who r val) :
    gateW who r val f s = dropReg who r val s := by
  obtain ⟨h1, h2, h3⟩ := h
  simp only [gateW, gateP, and_full, h1, h2, h3, Bool.not_true, Bool.false_eq_true, if_false, dropReg]

theorem whenS_true {b : Bool} {f : State → State} {s : State} (h : b = true) : whenS b f s = f s := by simp [whenS, h]

theorem whenS_false {b : Bool} {f : State → State} {s : State} (h : b = false) : whenS b f s = s := by simp [whenS, h]

theorem withReq_some {id : Nat} {r : Req} {f : Req → State → State} {s : State} (h : s.req id = some r) : withReq id f s = f r s := by
  simp [withReq, h]

end Sys2Proof.Machine
end

