-- ==== Sys2Proof/Laws/Events.lean ====
section
/-!
SUPPORT. An event of a tenant that is recorded stays recorded through the operations that move, stop or end work.
-/

set_option Elab.async false

namespace Sys2Proof.Machine

/-- The cause bit and the pending bit of event e of tenant n are set. -/
def TEv (n e : Nat) (s : State) : Prop := (s.ten n).evCause.toNat.testBit e = true ∧ (s.ten n).evPend.toNat.testBit (sourceOf e) = true

theorem TEv.modTen {n0 e0 : Nat} {s : State} (n : Nat) (f : Tenant → Tenant) (h : TEv n0 e0 s)
    (hf : ∀ t, (f t).evCause = t.evCause ∧ (f t).evPend = t.evPend := by intro t; exact ⟨rfl, rfl⟩) : TEv n0 e0 (Machine.modTen n f s) := by
  unfold TEv at *
  by_cases e : n0 = n
  · subst e; rw [modTen_ten_same, (hf _).1, (hf _).2]; exact h
  · rw [modTen_ten_ne _ _ e]; exact h
theorem TEv.modSq {n0 e0 : Nat} (n m : Nat) (f : Sq → Sq) (s : State) (hs : TEv n0 e0 s) : TEv n0 e0 (Machine.modSq n m f s) := hs
theorem TEv.modCq {n0 e0 : Nat} (n m : Nat) (f : Cq → Cq) (s : State) (hs : TEv n0 e0 s) : TEv n0 e0 (Machine.modCq n m f s) := hs
theorem TEv.modDc {n0 e0 : Nat} (k : Nat) (f : Chan → Chan) (s : State) (hs : TEv n0 e0 s) : TEv n0 e0 (Machine.modDc k f s) := hs
theorem TEv.modTile {n0 e0 : Nat} (t : Nat) (f : Tile → Tile) (s : State) (hs : TEv n0 e0 s) : TEv n0 e0 (Machine.modTile t f s) := hs
theorem TEv.setCs {n0 e0 : Nat} (c : Nat) (v : CsSt) (s : State) (hs : TEv n0 e0 s) : TEv n0 e0 (Machine.setCs c v s) := hs
theorem TEv.modKs {n0 e0 : Nat} (f : KeyStore → KeyStore) (s : State) (hs : TEv n0 e0 s) : TEv n0 e0 (Machine.modKs f s) := hs
theorem TEv.modSlot {n0 e0 : Nat} (i : Nat) (f : Slot → Slot) (s : State) (hs : TEv n0 e0 s) : TEv n0 e0 (Machine.modSlot i f s) := hs
theorem TEv.modRbg {n0 e0 : Nat} (k : Nat) (f : Rbg → Rbg) (s : State) (hs : TEv n0 e0 s) : TEv n0 e0 (Machine.modRbg k f s) := hs
theorem TEv.setStream {n0 e0 : Nat} (i : Nat) (v : Option Stream) (s : State) (hs : TEv n0 e0 s) : TEv n0 e0 (Machine.setStream i v s) := hs
theorem TEv.setCacheEnt {n0 e0 : Nat} (h : Nat) (v : Option CacheEnt) (s : State) (hs : TEv n0 e0 s) : TEv n0 e0 (Machine.setCacheEnt h v s) := hs
theorem TEv.modCrs {n0 e0 : Nat} (f : Course → Course) (s : State) (hs : TEv n0 e0 s) : TEv n0 e0 (Machine.modCrs f s) := hs
theorem TEv.modPeer {n0 e0 : Nat} (p : Nat) (f : Peer → Peer) (s : State) (hs : TEv n0 e0 s) : TEv n0 e0 (Machine.modPeer p f s) := hs
theorem TEv.modOwn {n0 e0 : Nat} (f : OwnRegs → OwnRegs) (s : State) (hs : TEv n0 e0 s) : TEv n0 e0 (Machine.modOwn f s) := hs
theorem TEv.modTcmp {n0 e0 : Nat} (j : Nat) (f : Tcmp → Tcmp) (s : State) (hs : TEv n0 e0 s) : TEv n0 e0 (Machine.modTcmp j f s) := hs
theorem TEv.modGen {n0 e0 : Nat} (f : Gen → Gen) (s : State) (hs : TEv n0 e0 s) : TEv n0 e0 (Machine.modGen f s) := hs
theorem TEv.modJrn {n0 e0 : Nat} (f : Journal → Journal) (s : State) (hs : TEv n0 e0 s) : TEv n0 e0 (Machine.modJrn f s) := hs
theorem TEv.modTime {n0 e0 : Nat} (f : TimeUnit → TimeUnit) (s : State) (hs : TEv n0 e0 s) : TEv n0 e0 (Machine.modTime f s) := hs
theorem TEv.modClk {n0 e0 : Nat} (f : Clocks → Clocks) (s : State) (hs : TEv n0 e0 s) : TEv n0 e0 (Machine.modClk f s) := hs
theorem TEv.modStart {n0 e0 : Nat} (f : Start → Start) (s : State) (hs : TEv n0 e0 s) : TEv n0 e0 (Machine.modStart f s) := hs
theorem TEv.modOwner {n0 e0 : Nat} (f : Owner → Owner) (s : State) (hs : TEv n0 e0 s) : TEv n0 e0 (Machine.modOwner f s) := hs
theorem TEv.modMeas {n0 e0 : Nat} (f : Meas → Meas) (s : State) (hs : TEv n0 e0 s) : TEv n0 e0 (Machine.modMeas f s) := hs
theorem TEv.modEs {n0 e0 : Nat} (f : Entropy → Entropy) (s : State) (hs : TEv n0 e0 s) : TEv n0 e0 (Machine.modEs f s) := hs
theorem TEv.modBoot {n0 e0 : Nat} (f : Boot → Boot) (s : State) (hs : TEv n0 e0 s) : TEv n0 e0 (Machine.modBoot f s) := hs
theorem TEv.modFp {n0 e0 : Nat} (f : FramePort → FramePort) (s : State) (hs : TEv n0 e0 s) : TEv n0 e0 (Machine.modFp f s) := hs
theorem TEv.modSup {n0 e0 : Nat} (f : Supply → Supply) (s : State) (hs : TEv n0 e0 s) : TEv n0 e0 (Machine.modSup f s) := hs
theorem TEv.modSch {n0 e0 : Nat} (f : Sched → Sched) (s : State) (hs : TEv n0 e0 s) : TEv n0 e0 (Machine.modSch f s) := hs
theorem TEv.modReq {n0 e0 : Nat} (id : Nat) (f : Req → Req) (s : State) (hs : TEv n0 e0 s) : TEv n0 e0 (Machine.modReq id f s) := hs
theorem TEv.dropReq {n0 e0 : Nat} (id : Nat) (s : State) (hs : TEv n0 e0 s) : TEv n0 e0 (Machine.dropReq id s) := hs
theorem TEv.emit {n0 e0 : Nat} (o : Out) (s : State) (hs : TEv n0 e0 s) : TEv n0 e0 (Machine.emit o s) := hs
theorem TEv.nextFree {n0 e0 : Nat} (s : State) (hs : TEv n0 e0 s) : TEv n0 e0 (Machine.nextFree s) := hs
theorem TEv.modRoots {n0 e0 : Nat} (f : Roots → Roots) (s : State) (hs : TEv n0 e0 s) : TEv n0 e0 (Machine.modRoots f s) := hs
theorem TEv.modIdent {n0 e0 : Nat} (f : Ident → Ident) (s : State) (hs : TEv n0 e0 s) : TEv n0 e0 (Machine.modIdent f s) := hs
theorem TEv.modRet {n0 e0 : Nat} (f : Retention → Retention) (s : State) (hs : TEv n0 e0 s) : TEv n0 e0 (Machine.modRet f s) := hs
theorem TEv.modDenied {n0 e0 : Nat} (f : Cnt32 → Cnt32) (s : State) (hs : TEv n0 e0 s) : TEv n0 e0 (Machine.modDenied f s) := hs
theorem TEv.modEvPend {n0 e0 : Nat} (f : Word → Word) (s : State) (hs : TEv n0 e0 s) : TEv n0 e0 (Machine.modEvPend f s) := hs
theorem TEv.modBuserr {n0 e0 : Nat} (f : Capture → Capture) (s : State) (hs : TEv n0 e0 s) : TEv n0 e0 (Machine.modBuserr f s) := hs
theorem TEv.modBecnt {n0 e0 : Nat} (f : Cnt32 → Cnt32) (s : State) (hs : TEv n0 e0 s) : TEv n0 e0 (Machine.modBecnt f s) := hs
theorem TEv.modPviol {n0 e0 : Nat} (f : Capture → Capture) (s : State) (hs : TEv n0 e0 s) : TEv n0 e0 (Machine.modPviol f s) := hs
theorem TEv.modPvcnt {n0 e0 : Nat} (f : Cnt32 → Cnt32) (s : State) (hs : TEv n0 e0 s) : TEv n0 e0 (Machine.modPvcnt f s) := hs
theorem TEv.modSent {n0 e0 : Nat} (f : List Req → List Req) (s : State) (hs : TEv n0 e0 s) : TEv n0 e0 (Machine.modSent f s) := hs
theorem TEv.modReqs {n0 e0 : Nat} (f : List Req → List Req) (s : State) (hs : TEv n0 e0 s) : TEv n0 e0 (Machine.modReqs f s) := hs
theorem TEv.modHeld {n0 e0 : Nat} (f : List HeldWrite → List HeldWrite) (s : State) (hs : TEv n0 e0 s) : TEv n0 e0 (Machine.modHeld f s) := hs
theorem TEv.modLatch {n0 e0 : Nat} (f : List Latch → List Latch) (s : State) (hs : TEv n0 e0 s) : TEv n0 e0 (Machine.modLatch f s) := hs
theorem TEv.modCe {n0 e0 : Nat} (c : Nat) (f : Cnt32 → Cnt32) (s : State) (hs : TEv n0 e0 s) : TEv n0 e0 (Machine.modCe c f s) := hs
theorem TEv.modNotice {n0 e0 : Nat} (f : Word → Word) (s : State) (hs : TEv n0 e0 s) : TEv n0 e0 (Machine.modNotice f s) := hs
theorem TEv.setAct {n0 e0 : Nat} (c : Content) (s : State) (hs : TEv n0 e0 s) : TEv n0 e0 (Machine.setAct c s) := hs

theorem TEv.foldl {n0 e0 : Nat} {s : State} {α : Type} {f : State → α → State} (l : List α) (h : TEv n0 e0 s) (hf : ∀ s a, TEv n0 e0 s → TEv n0 e0 (f s a)) :
    TEv n0 e0 (l.foldl f s) := by
  induction l generalizing s with
  | nil => exact h
  | cons a t ih => exact ih (hf s a h)
theorem TEv.eachN {n0 e0 : Nat} {s : State} {f : Nat → State → State} (l : List Nat) (h : TEv n0 e0 s) (hf : ∀ i s, TEv n0 e0 s → TEv n0 e0 (f i s)) : TEv n0 e0 (Machine.eachN l f s) :=
  TEv.foldl l h (fun s i hs => hf i s hs)
theorem TEv.ite {n0 e0 : Nat} {c : Prop} [Decidable c] {a b : State} (ha : c → TEv n0 e0 a) (hb : ¬c → TEv n0 e0 b) : TEv n0 e0 (if c then a else b) := by
  by_cases h : c
  · rw [if_pos h]; exact ha h
  · rw [if_neg h]; exact hb h
theorem TEv.idS {n0 e0 : Nat} {s : State} (h : TEv n0 e0 s) : TEv n0 e0 (id s) := h
theorem TEv.whenS {n0 e0 : Nat} {b : Bool} {f : State → State} {s : State} (h : TEv n0 e0 s) (hf : b = true → ∀ s, TEv n0 e0 s → TEv n0 e0 (f s)) : TEv n0 e0 (Machine.whenS b f s) := by
  unfold Machine.whenS
  split
  · next e => exact hf e s h
  · exact h
theorem TEv.withReq {n0 e0 : Nat} {id : Nat} {f : Req → State → State} {s : State} (h : TEv n0 e0 s) (hf : ∀ r s, TEv n0 e0 s → TEv n0 e0 (f r s)) : TEv n0 e0 (Machine.withReq id f s) := by
  unfold Machine.withReq
  split
  · exact hf _ s h
  · exact h

theorem TEv.raiseT {n0 e0 : Nat} (n e : Nat) (s : State) (h : TEv n0 e0 s) : TEv n0 e0 (Machine.raiseT n e s) := by
  unfold TEv Machine.raiseT at *
  by_cases hk : n0 = n
  · subst hk; rw [modTen_ten_same]; dsimp only; rw [BitVec.toNat_or, BitVec.toNat_or, Nat.testBit_or, Nat.testBit_or, h.1, h.2]; simp
  · rw [modTen_ten_ne _ _ hk]; exact h

theorem TEv.emitWr {n0 e0 : Nat} (addr : Nat) (data : Bytes) (s : State) (h : TEv n0 e0 s) : TEv n0 e0 (Machine.emitWr addr data s) := by
  unfold Machine.emitWr
  repeat' first
    | dsimp only
    | with_reducible assumption
    | intro _
    | with_reducible apply TEv.emit
    | with_reducible apply TEv.foldl

theorem TEv.emitRd {n0 e0 : Nat} (addr len : Nat) (s : State) (h : TEv n0 e0 s) : TEv n0 e0 (Machine.emitRd addr len s) := by
  unfold Machine.emitRd
  repeat' first
    | dsimp only
    | with_reducible assumption
    | intro _
    | with_reducible apply TEv.emit
    | with_reducible apply TEv.foldl

theorem TEv.emitRecord {n0 e0 : Nat} (addr : Nat) (b : Bytes) (s : State) (h : TEv n0 e0 s) : TEv n0 e0 (Machine.emitRecord addr b s) := by
  unfold Machine.emitRecord
  repeat' first
    | dsimp only
    | with_reducible assumption
    | intro _
    | with_reducible apply TEv.emitWr

theorem TEv.raiseG {n0 e0 : Nat} (e : Nat) (s : State) (h : TEv n0 e0 s) : TEv n0 e0 (Machine.raiseG e s) := by
  unfold Machine.raiseG
  repeat' first
    | dsimp only
    | with_reducible assumption
    | intro _
    | with_reducible apply TEv.modEvPend

theorem TEv.violT {n0 e0 : Nat} (n : Nat) (addr : Nat) (d : Dir) (cause kind number tag gen : Nat) (s : State) (h : TEv n0 e0 s) : TEv n0 e0 (Machine.violT n addr d cause kind number tag gen s) := by
  unfold Machine.violT
  repeat' first
    | dsimp only
    | with_reducible assumption
    | intro _
    | with_reducible refine TEv.modTen _ _ ?_ ?_
    | with_reducible apply TEv.raiseT
    | with_reducible refine TEv.ite ?_ ?_
    | split
    | rfl
    | exact hes
    | (rename_i hh; obtain ⟨ha, hb⟩ := hh; refine ⟨?_, ?_⟩ <;> first | linear_combination ha | linear_combination hb)

theorem TEv.violP {n0 e0 : Nat} (addr : Nat) (d : Dir) (cause kind number tag gen : Nat) (s : State) (h : TEv n0 e0 s) : TEv n0 e0 (Machine.violP addr d cause kind number tag gen s) := by
  unfold Machine.violP
  repeat' first
    | dsimp only
    | with_reducible assumption
    | intro _
    | with_reducible apply TEv.modPvcnt
    | with_reducible apply TEv.modPviol
    | with_reducible apply TEv.raiseG
    | with_reducible refine TEv.ite ?_ ?_

theorem TEv.viol {n0 e0 : Nat} (t : Option TenantIx) (addr : Nat) (d : Dir) (cause kind number tag gen : Nat) (s : State) (h : TEv n0 e0 s) : TEv n0 e0 (Machine.viol t addr d cause kind number tag gen s) := by
  unfold Machine.viol
  repeat' first
    | dsimp only
    | with_reducible assumption
    | intro _
    | with_reducible apply TEv.violP
    | with_reducible apply TEv.violT
    | with_reducible refine TEv.ite ?_ ?_
    | split

theorem TEv.jrnLose {n0 e0 : Nat} (s : State) (h : TEv n0 e0 s) : TEv n0 e0 (Machine.jrnLose s) := by
  unfold Machine.jrnLose
  repeat' first
    | dsimp only
    | with_reducible assumption
    | intro _
    | with_reducible apply TEv.modJrn
    | with_reducible apply TEv.raiseG

theorem TEv.jrnNlose {n0 e0 : Nat} (s : State) (h : TEv n0 e0 s) : TEv n0 e0 (Machine.jrnNlose s) := by
  unfold Machine.jrnNlose
  repeat' first
    | dsimp only
    | with_reducible assumption
    | intro _
    | with_reducible apply TEv.modJrn

theorem TEv.jrnPush {n0 e0 : Nat} (rec : List (BitVec 32)) (s : State) (h : TEv n0 e0 s) : TEv n0 e0 (Machine.jrnPush rec s) := by
  unfold Machine.jrnPush
  repeat' first
    | dsimp only
    | with_reducible assumption
    | intro _
    | with_reducible apply TEv.modJrn
    | with_reducible apply TEv.raiseG
    | with_reducible refine TEv.ite ?_ ?_

theorem TEv.jrnMakeRoom {n0 e0 : Nat} (need : Nat) (x : Nat) (s : State) (h : TEv n0 e0 s) : TEv n0 e0 (Machine.jrnMakeRoom need x s) := by
  induction x generalizing s with
  | zero => exact h
  | succ n ih =>
    unfold Machine.jrnMakeRoom
    repeat' first
      | dsimp only
      | with_reducible assumption
      | intro _
      | with_reducible apply TEv.jrnLose
      | with_reducible apply TEv.modJrn
      | with_reducible refine TEv.ite ?_ ?_
      | split
      | rfl
      | exact hes
      | (simp_all; done)
      | with_reducible apply ih

theorem TEv.noticeFault {n0 e0 : Nat} (s : State) (h : TEv n0 e0 s) : TEv n0 e0 (Machine.noticeFault s) := by
  unfold Machine.noticeFault
  repeat' first
    | dsimp only
    | with_reducible assumption
    | intro _
    | with_reducible apply TEv.modNotice
    | with_reducible apply TEv.raiseG

theorem TEv.notice {n0 e0 : Nat} (rec : List (BitVec 32)) (s : State) (h : TEv n0 e0 s) : TEv n0 e0 (Machine.notice rec s) := by
  unfold Machine.notice
  repeat' first
    | dsimp only
    | with_reducible assumption
    | intro _
    | with_reducible apply TEv.emitRecord
    | with_reducible apply TEv.jrnNlose
    | with_reducible apply TEv.modJrn
    | with_reducible apply TEv.noticeFault
    | with_reducible apply TEv.violP
    | with_reducible refine TEv.ite ?_ ?_
    | split

theorem TEv.jrnOpen {n0 e0 : Nat} (bad : Bool) (s : State) (h : TEv n0 e0 s) : TEv n0 e0 (Machine.jrnOpen bad s) := by
  unfold Machine.jrnOpen
  repeat' first
    | dsimp only
    | with_reducible assumption
    | intro _
    | with_reducible apply TEv.modJrn
    | with_reducible refine TEv.ite ?_ ?_
    | split

theorem TEv.jrnDeliver {n0 e0 : Nat} (who : Who) (size : AccSize) (bad : Bool) (s : State) (h : TEv n0 e0 s) : TEv n0 e0 (Machine.jrnDeliver who size bad s) := by
  unfold Machine.jrnDeliver
  repeat' first
    | dsimp only
    | with_reducible assumption
    | intro _
    | with_reducible apply TEv.emit
    | with_reducible apply TEv.jrnOpen
    | with_reducible apply TEv.modJrn
    | with_reducible refine TEv.ite ?_ ?_
    | split

theorem TEv.jrnServe {n0 e0 : Nat}  (x : List (Who × AccSize)) (s : State) (h : TEv n0 e0 s) : TEv n0 e0 (Machine.jrnServe x s) := by
  induction x generalizing s with
  | nil => exact h
  | cons a l ih =>
    try obtain ⟨_, _⟩ := a
    unfold Machine.jrnServe
    repeat' first
      | dsimp only
      | with_reducible assumption
      | intro _
      | with_reducible apply TEv.jrnDeliver
      | with_reducible apply TEv.modJrn
      | with_reducible refine TEv.ite ?_ ?_
      | split
      | rfl
      | exact hes
      | with_reducible apply ih

theorem TEv.jrnStore {n0 e0 : Nat} (rec : List (BitVec 32)) (s : State) (h : TEv n0 e0 s) : TEv n0 e0 (Machine.jrnStore rec s) := by
  unfold Machine.jrnStore
  repeat' first
    | dsimp only
    | with_reducible assumption
    | intro _
    | with_reducible apply TEv.jrnPush
    | with_reducible apply TEv.jrnServe
    | with_reducible apply TEv.notice

theorem TEv.journal {n0 e0 : Nat} (type origin : Nat) (payload : List Nat) (s : State) (h : TEv n0 e0 s) : TEv n0 e0 (Machine.journal type origin payload s) := by
  unfold Machine.journal
  repeat' first
    | dsimp only
    | with_reducible assumption
    | intro _
    | with_reducible apply TEv.jrnLose
    | with_reducible apply TEv.jrnMakeRoom
    | with_reducible apply TEv.jrnStore
    | with_reducible apply TEv.modJrn
    | with_reducible refine TEv.ite ?_ ?_

theorem TEv.countCe {n0 e0 : Nat} (c : Nat) (s : State) (h : TEv n0 e0 s) : TEv n0 e0 (Machine.countCe c s) := by
  unfold Machine.countCe
  repeat' first
    | dsimp only
    | with_reducible assumption
    | intro _
    | with_reducible apply TEv.modCe
    | with_reducible apply TEv.raiseG
    | with_reducible refine TEv.ite ?_ ?_

theorem TEv.journalUe {n0 e0 : Nat} (c loc : Nat) (s : State) (h : TEv n0 e0 s) : TEv n0 e0 (Machine.journalUe c loc s) := by
  unfold Machine.journalUe
  repeat' first
    | dsimp only
    | with_reducible assumption
    | intro _
    | with_reducible apply TEv.journal

theorem TEv.sendFrame {n0 e0 : Nat} (type dst : Nat) (payload : Bytes) (s : State) (h : TEv n0 e0 s) : TEv n0 e0 (Machine.sendFrame type dst payload s) := by
  unfold Machine.sendFrame
  repeat' first
    | dsimp only
    | with_reducible assumption
    | intro _
    | with_reducible apply TEv.emit
    | with_reducible apply TEv.modCrs

theorem TEv.settleRing {n0 e0 : Nat} (n m : Nat) (s : State) (h : TEv n0 e0 s) : TEv n0 e0 (Machine.settleRing n m s) := by
  unfold Machine.settleRing
  repeat' first
    | dsimp only
    | with_reducible assumption
    | intro _
    | with_reducible apply TEv.modSq
    | with_reducible apply TEv.raiseT
    | with_reducible refine TEv.ite ?_ ?_
    | split

theorem TEv.drainPulses {n0 e0 : Nat} (n m : Nat) (x : Nat) (s : State) (h : TEv n0 e0 s) : TEv n0 e0 (Machine.drainPulses n m x s) := by
  induction x generalizing s with
  | zero => exact h
  | succ n ih =>
    unfold Machine.drainPulses
    repeat' first
      | dsimp only
      | with_reducible assumption
      | intro _
      | with_reducible apply TEv.modSq
      | with_reducible refine TEv.ite ?_ ?_
      | split
      | rfl
      | exact hes
      | (simp_all; done)
      | with_reducible apply ih

theorem TEv.modOp {n0 e0 : Nat} (id i : Nat) (f : OpSt → OpSt) (s : State) (h : TEv n0 e0 s) : TEv n0 e0 (Machine.modOp id i f s) := by
  unfold Machine.modOp
  repeat' first
    | dsimp only
    | with_reducible assumption
    | intro _
    | with_reducible apply TEv.modReq

theorem TEv.modBuf {n0 e0 : Nat} (id b : Nat) (f : BufSt → BufSt) (s : State) (h : TEv n0 e0 s) : TEv n0 e0 (Machine.modBuf id b f s) := by
  unfold Machine.modBuf
  repeat' first
    | dsimp only
    | with_reducible assumption
    | intro _
    | with_reducible apply TEv.modReq

theorem TEv.reqViol {n0 e0 : Nat} (r : Req) (addr : Nat) (d : Dir) (cause : Nat) (s : State) (h : TEv n0 e0 s) : TEv n0 e0 (Machine.reqViol r addr d cause s) := by
  unfold Machine.reqViol
  repeat' first
    | dsimp only
    | with_reducible assumption
    | intro _
    | with_reducible apply TEv.viol

theorem TEv.freeTiles {n0 e0 : Nat} (id : Nat) (s : State) (h : TEv n0 e0 s) : TEv n0 e0 (Machine.freeTiles id s) := by
  unfold Machine.freeTiles
  repeat' first
    | dsimp only
    | with_reducible assumption
    | intro _
    | with_reducible apply TEv.eachN
    | with_reducible apply TEv.modTile

theorem TEv.dropWork {n0 e0 : Nat} (aim : Purpose) (s : State) (h : TEv n0 e0 s) : TEv n0 e0 (Machine.dropWork aim s) := by
  unfold Machine.dropWork
  repeat' first
    | dsimp only
    | with_reducible assumption
    | intro _
    | with_reducible apply TEv.foldl
    | with_reducible apply TEv.freeTiles
    | with_reducible apply TEv.modSch
    | with_reducible refine TEv.ite ?_ ?_
    | split

theorem TEv.unclaim {n0 e0 : Nat} (x : Nat) (s : State) (h : TEv n0 e0 s) : TEv n0 e0 (Machine.unclaim x s) := by
  unfold Machine.unclaim
  repeat' first
    | dsimp only
    | with_reducible assumption
    | intro _
    | with_reducible apply TEv.dropWork
    | with_reducible apply TEv.modKs
    | with_reducible apply TEv.modSlot
    | with_reducible refine TEv.ite ?_ ?_
    | split

theorem TEv.closeStream {n0 e0 : Nat} (ix : Nat) (s : State) (h : TEv n0 e0 s) : TEv n0 e0 (Machine.closeStream ix s) := by
  unfold Machine.closeStream
  repeat' first
    | dsimp only
    | with_reducible assumption
    | intro _
    | with_reducible apply TEv.setStream
    | with_reducible refine TEv.ite ?_ ?_
    | split

theorem TEv.issueJob {n0 e0 : Nat} (kind : Nat) (work : JobWork) (s : State) (h : TEv n0 e0 s) : TEv n0 e0 (Machine.issueJob kind work s) := by
  unfold Machine.issueJob
  repeat' first
    | dsimp only
    | with_reducible assumption
    | intro _
    | with_reducible apply TEv.modSch
    | with_reducible refine TEv.ite ?_ ?_
    | split

theorem TEv.prepareBank {n0 e0 : Nat} (x : Nat) (s : State) (h : TEv n0 e0 s) : TEv n0 e0 (Machine.prepareBank x s) := by
  unfold Machine.prepareBank
  repeat' first
    | dsimp only
    | with_reducible assumption
    | intro _
    | with_reducible apply TEv.issueJob
    | with_reducible refine TEv.ite ?_ ?_
    | split

theorem TEv.beginVerify {n0 e0 : Nat} (x : Nat) (s : State) (h : TEv n0 e0 s) : TEv n0 e0 (Machine.beginVerify x s) := by
  unfold Machine.beginVerify
  repeat' first
    | dsimp only
    | with_reducible assumption
    | intro _
    | with_reducible apply TEv.modKs
    | with_reducible apply TEv.modSlot
    | with_reducible apply TEv.prepareBank
    | with_reducible refine TEv.ite ?_ ?_
    | split

theorem TEv.endStreams {n0 e0 : Nat} (r : Req) (o : Outcome) (s : State) (h : TEv n0 e0 s) : TEv n0 e0 (Machine.endStreams r o s) := by
  unfold Machine.endStreams
  repeat' first
    | dsimp only
    | with_reducible assumption
    | intro _
    | with_reducible apply TEv.closeStream
    | with_reducible apply TEv.eachN
    | with_reducible apply TEv.setStream
    | with_reducible refine TEv.ite ?_ ?_
    | split

theorem TEv.dropStreams {n0 e0 : Nat} (r : Req) (o : Outcome) (s : State) (h : TEv n0 e0 s) : TEv n0 e0 (Machine.dropStreams r o s) := by
  unfold Machine.dropStreams
  repeat' first
    | dsimp only
    | with_reducible assumption
    | intro _
    | with_reducible apply TEv.closeStream
    | with_reducible apply TEv.foldl
    | with_reducible refine TEv.ite ?_ ?_
    | split

theorem TEv.scrubSeg {n0 e0 : Nat} (r : Req) (a len : Nat) (s : State) (h : TEv n0 e0 s) : TEv n0 e0 (Machine.scrubSeg r a len s) := by
  unfold Machine.scrubSeg
  repeat' first
    | dsimp only
    | with_reducible assumption
    | intro _
    | with_reducible apply TEv.emitWr
    | with_reducible apply TEv.modReq
    | with_reducible apply TEv.reqViol
    | with_reducible refine TEv.ite ?_ ?_
    | split

theorem TEv.scrubAll {n0 e0 : Nat} (r : Req) (s : State) (h : TEv n0 e0 s) : TEv n0 e0 (Machine.scrubAll r s) := by
  unfold Machine.scrubAll
  repeat' first
    | dsimp only
    | with_reducible assumption
    | intro _
    | with_reducible apply TEv.eachN
    | with_reducible apply TEv.emit
    | with_reducible apply TEv.foldl
    | with_reducible apply TEv.scrubSeg
    | with_reducible refine TEv.ite ?_ ?_
    | split

theorem TEv.fencePort {n0 e0 : Nat} (id : Nat) (port : Bool) (s : State) (h : TEv n0 e0 s) : TEv n0 e0 (Machine.fencePort id port s) := by
  unfold Machine.fencePort
  repeat' first
    | dsimp only
    | with_reducible assumption
    | intro _
    | with_reducible apply TEv.emitRd
    | with_reducible apply TEv.modReq
    | with_reducible apply TEv.reqViol
    | with_reducible apply TEv.idS
    | with_reducible refine TEv.ite ?_ ?_
    | split

theorem TEv.fenceFrame {n0 e0 : Nat} (r : Req) (s : State) (h : TEv n0 e0 s) : TEv n0 e0 (Machine.fenceFrame r s) := by
  unfold Machine.fenceFrame
  repeat' first
    | dsimp only
    | with_reducible assumption
    | intro _
    | with_reducible apply TEv.eachN
    | with_reducible apply TEv.emit
    | with_reducible apply TEv.modBuf
    | with_reducible refine TEv.ite ?_ ?_
    | split

theorem TEv.endChain {n0 e0 : Nat} (id : Nat) (o : Outcome) (s : State) (h : TEv n0 e0 s) : TEv n0 e0 (Machine.endChain id o s) := by
  unfold Machine.endChain
  repeat' first
    | dsimp only
    | with_reducible assumption
    | intro _
    | with_reducible apply TEv.beginVerify
    | with_reducible apply TEv.dropStreams
    | with_reducible apply TEv.eachN
    | with_reducible apply TEv.endStreams
    | with_reducible apply TEv.fenceFrame
    | with_reducible apply TEv.fencePort
    | with_reducible apply TEv.freeTiles
    | with_reducible apply TEv.modFp
    | with_reducible apply TEv.modReq
    | with_reducible apply TEv.modSch
    | with_reducible apply TEv.scrubAll
    | with_reducible apply TEv.unclaim
    | with_reducible refine TEv.ite ?_ ?_
    | split

theorem TEv.endDone {n0 e0 : Nat} (id : Nat) (s : State) (h : TEv n0 e0 s) : TEv n0 e0 (Machine.endDone id s) := by
  unfold Machine.endDone
  repeat' first
    | dsimp only
    | with_reducible assumption
    | intro _
    | with_reducible apply TEv.endChain
    | with_reducible refine TEv.ite ?_ ?_
    | split

theorem TEv.issueRange {n0 e0 : Nat} (id b a l : Nat) (s : State) (h : TEv n0 e0 s) : TEv n0 e0 (Machine.issueRange id b a l s) := by
  unfold Machine.issueRange
  repeat' first
    | dsimp only
    | with_reducible assumption
    | intro _
    | with_reducible apply TEv.emitRd
    | with_reducible apply TEv.modBuf
    | with_reducible apply TEv.reqViol
    | with_reducible apply TEv.idS
    | with_reducible refine TEv.ite ?_ ?_
    | split

theorem TEv.askElem {n0 e0 : Nat} (id b : Nat) (short : Fail) (s : State) (h : TEv n0 e0 s) : TEv n0 e0 (Machine.askElem id b short s) := by
  unfold Machine.askElem
  repeat' first
    | dsimp only
    | with_reducible assumption
    | intro _
    | with_reducible apply TEv.emitRd
    | with_reducible apply TEv.modBuf
    | with_reducible apply TEv.reqViol
    | with_reducible apply TEv.idS
    | with_reducible refine TEv.ite ?_ ?_
    | split

theorem TEv.startBuf {n0 e0 : Nat} (id b : Nat) (s : State) (h : TEv n0 e0 s) : TEv n0 e0 (Machine.startBuf id b s) := by
  unfold Machine.startBuf
  repeat' first
    | dsimp only
    | with_reducible assumption
    | intro _
    | with_reducible apply TEv.askElem
    | with_reducible apply TEv.emit
    | with_reducible apply TEv.issueRange
    | with_reducible apply TEv.modBuf
    | with_reducible apply TEv.modReq
    | with_reducible refine TEv.ite ?_ ?_
    | split

theorem TEv.startBufs {n0 e0 : Nat} (id : Nat) (s : State) (h : TEv n0 e0 s) : TEv n0 e0 (Machine.startBufs id s) := by
  unfold Machine.startBufs
  repeat' first
    | dsimp only
    | with_reducible assumption
    | intro _
    | with_reducible apply TEv.eachN
    | with_reducible apply TEv.startBuf
    | with_reducible apply TEv.idS
    | with_reducible refine TEv.ite ?_ ?_
    | split

theorem TEv.reqWrote {n0 e0 : Nat} (id b a off len : Nat) (s : State) (h : TEv n0 e0 s) : TEv n0 e0 (Machine.reqWrote id b a off len s) := by
  unfold Machine.reqWrote
  repeat' first
    | dsimp only
    | with_reducible assumption
    | intro _
    | with_reducible apply TEv.modReq
    | with_reducible refine TEv.ite ?_ ?_
    | split

theorem TEv.writeSegs {n0 e0 : Nat} (id b : Nat) (data : Bytes) (x : List (Nat × Nat × Nat)) (s : State) (h : TEv n0 e0 s) : TEv n0 e0 (Machine.writeSegs id b data x s).1 := by
  induction x generalizing s with
  | nil => exact h
  | cons a l ih =>
    try obtain ⟨_, _, _⟩ := a
    unfold Machine.writeSegs
    repeat' first
      | dsimp only
      | with_reducible assumption
      | intro _
      | with_reducible apply TEv.emitWr
      | with_reducible apply TEv.modBuf
      | with_reducible apply TEv.reqViol
      | with_reducible apply TEv.reqWrote
      | with_reducible apply TEv.idS
      | with_reducible refine TEv.ite ?_ ?_
      | split
      | rfl
      | exact hes
      | (rename_i hh; obtain ⟨ha, hb⟩ := hh; refine ⟨?_, ?_⟩ <;> first | linear_combination ha | linear_combination hb)
      | (simp_all; done)
      | with_reducible apply ih

theorem TEv.writeSegs_eq {n0 e0 : Nat} {id b : Nat} {data : Bytes} {x : List (Nat × Nat × Nat)} {s : State} {y : Option Nat} {t : State} (e : Machine.writeSegs id b data x s = (t, y)) (h : TEv n0 e0 s) : TEv n0 e0 t := by
  have := TEv.writeSegs id b data x s h
  rwa [e] at this

theorem TEv.writeOut {n0 e0 : Nat} (r : Req) (i n : Nat) (s : State) (h : TEv n0 e0 s) : TEv n0 e0 (Machine.writeOut r i n s).1 := by
  unfold Machine.writeOut
  repeat' first
    | dsimp only
    | with_reducible assumption
    | intro _
    | with_reducible apply TEv.reqViol
    | with_reducible apply TEv.writeSegs
    | with_reducible refine TEv.writeSegs_eq (by assumption) ?_
    | with_reducible refine TEv.ite ?_ ?_
    | split

theorem TEv.writeOut_eq {n0 e0 : Nat} {r : Req} {i n : Nat} {s : State} {y : Option Nat} {t : State} (e : Machine.writeOut r i n s = (t, y)) (h : TEv n0 e0 s) : TEv n0 e0 t := by
  have := TEv.writeOut r i n s h
  rwa [e] at this

theorem TEv.flushOp {n0 e0 : Nat} (id i : Nat) (s : State) (h : TEv n0 e0 s) : TEv n0 e0 (Machine.flushOp id i s).1 := by
  unfold Machine.flushOp
  repeat' first
    | dsimp only
    | with_reducible assumption
    | intro _
    | with_reducible apply TEv.askElem
    | with_reducible apply TEv.emit
    | with_reducible apply TEv.modBuf
    | with_reducible apply TEv.modOp
    | with_reducible apply TEv.modReq
    | with_reducible refine TEv.writeOut_eq (by assumption) ?_
    | with_reducible apply TEv.writeOut
    | with_reducible refine TEv.ite ?_ ?_
    | split

theorem TEv.flushOp_eq {n0 e0 : Nat} {id i : Nat} {s : State} {y : Option Fail} {t : State} (e : Machine.flushOp id i s = (t, y)) (h : TEv n0 e0 s) : TEv n0 e0 t := by
  have := TEv.flushOp id i s h
  rwa [e] at this

theorem TEv.receiveKey {n0 e0 : Nat} (id i : Nat) (s : State) (h : TEv n0 e0 s) : TEv n0 e0 (Machine.receiveKey id i s).1 := by
  unfold Machine.receiveKey
  repeat' first
    | dsimp only
    | with_reducible assumption
    | intro _
    | with_reducible apply TEv.modOp
    | with_reducible refine TEv.ite ?_ ?_
    | split

theorem TEv.receiveKey_eq {n0 e0 : Nat} {id i : Nat} {s : State} {y : Option Fail} {t : State} (e : Machine.receiveKey id i s = (t, y)) (h : TEv n0 e0 s) : TEv n0 e0 t := by
  have := TEv.receiveKey id i s h
  rwa [e] at this

theorem TEv.pairRecord {n0 e0 : Nat} (r : Req) (o : OpSt) (voter outcome : Nat) (s : State) (h : TEv n0 e0 s) : TEv n0 e0 (Machine.pairRecord r o voter outcome s) := by
  unfold Machine.pairRecord
  repeat' first
    | dsimp only
    | with_reducible assumption
    | intro _
    | with_reducible apply TEv.journal

theorem TEv.settleOp {n0 e0 : Nat} (id i : Nat) (s : State) (h : TEv n0 e0 s) : TEv n0 e0 (Machine.settleOp id i s).1 := by
  unfold Machine.settleOp
  repeat' first
    | dsimp only
    | with_reducible assumption
    | intro _
    | with_reducible refine TEv.flushOp_eq (by assumption) ?_
    | with_reducible apply TEv.flushOp
    | with_reducible apply TEv.modOp
    | with_reducible apply TEv.pairRecord
    | with_reducible refine TEv.receiveKey_eq (by assumption) ?_
    | with_reducible apply TEv.receiveKey
    | with_reducible refine TEv.ite ?_ ?_
    | split

theorem TEv.settleOp_eq {n0 e0 : Nat} {id i : Nat} {s : State} {y : Option Fail} {t : State} (e : Machine.settleOp id i s = (t, y)) (h : TEv n0 e0 s) : TEv n0 e0 t := by
  have := TEv.settleOp id i s h
  rwa [e] at this

theorem TEv.settleOps {n0 e0 : Nat} (id : Nat) (x : List Nat) (s : State) (h : TEv n0 e0 s) : TEv n0 e0 (Machine.settleOps id x s).1 := by
  induction x generalizing s with
  | nil => exact h
  | cons a l ih =>
    unfold Machine.settleOps
    repeat' first
      | dsimp only
      | with_reducible assumption
      | intro _
      | with_reducible refine TEv.settleOp_eq (by assumption) ?_
      | with_reducible apply TEv.settleOp
      | with_reducible apply TEv.idS
      | with_reducible refine TEv.ite ?_ ?_
      | split
      | rfl
      | exact hes
      | with_reducible apply ih

theorem TEv.settleOps_eq {n0 e0 : Nat} {id : Nat} {x : List Nat} {s : State} {y : Option Outcome} {t : State} (e : Machine.settleOps id x s = (t, y)) (h : TEv n0 e0 s) : TEv n0 e0 t := by
  have := TEv.settleOps id x s h
  rwa [e] at this

theorem TEv.settle {n0 e0 : Nat} (id : Nat) (s : State) (h : TEv n0 e0 s) : TEv n0 e0 (Machine.settle id s) := by
  unfold Machine.settle
  repeat' first
    | dsimp only
    | with_reducible assumption
    | intro _
    | with_reducible apply TEv.endChain
    | with_reducible apply TEv.endDone
    | with_reducible apply TEv.settleOps
    | with_reducible refine TEv.settleOps_eq (by assumption) ?_
    | with_reducible apply TEv.startBufs
    | with_reducible refine TEv.ite ?_ ?_
    | split

theorem TEv.settleAll {n0 e0 : Nat} (s : State) (h : TEv n0 e0 s) : TEv n0 e0 (Machine.settleAll s) := by
  unfold Machine.settleAll
  repeat' first
    | dsimp only
    | with_reducible assumption
    | intro _
    | with_reducible apply TEv.settle
    | with_reducible apply TEv.foldl

theorem TEv.openStream {n0 e0 : Nat} (r : Req) (i t : Nat) (s : State) (h : TEv n0 e0 s) : TEv n0 e0 (Machine.openStream r i t s) := by
  unfold Machine.openStream
  repeat' first
    | dsimp only
    | with_reducible assumption
    | intro _
    | with_reducible apply TEv.setStream
    | with_reducible refine TEv.ite ?_ ?_
    | split

theorem TEv.parkStream {n0 e0 : Nat} (r : Req) (i : Nat) (s : State) (h : TEv n0 e0 s) : TEv n0 e0 (Machine.parkStream r i s) := by
  unfold Machine.parkStream
  repeat' first
    | dsimp only
    | with_reducible assumption
    | intro _
    | with_reducible apply TEv.modOp
    | with_reducible apply TEv.setStream
    | with_reducible refine TEv.ite ?_ ?_
    | split

theorem TEv.holdTile {n0 e0 : Nat} (p : Nat × Nat) (t : Nat) (s : State) (h : TEv n0 e0 s) : TEv n0 e0 (Machine.holdTile p t s) := by
  unfold Machine.holdTile
  repeat' first
    | dsimp only
    | with_reducible assumption
    | intro _
    | with_reducible apply TEv.modTile
    | with_reducible refine TEv.ite ?_ ?_
    | split

theorem TEv.dropHold {n0 e0 : Nat} (k : Nat) (p : Nat × Nat) (s : State) (h : TEv n0 e0 s) : TEv n0 e0 (Machine.dropHold k p s) := by
  unfold Machine.dropHold
  repeat' first
    | dsimp only
    | with_reducible assumption
    | intro _
    | with_reducible apply TEv.eachN
    | with_reducible apply TEv.modTile
    | with_reducible refine TEv.ite ?_ ?_
    | split

theorem TEv.startOn {n0 e0 : Nat} (id i : Nat) (ts : List Nat) (s : State) (h : TEv n0 e0 s) : TEv n0 e0 (Machine.startOn id i ts s) := by
  unfold Machine.startOn
  repeat' first
    | dsimp only
    | with_reducible assumption
    | intro _
    | with_reducible apply TEv.eachN
    | with_reducible apply TEv.endChain
    | with_reducible apply TEv.holdTile
    | with_reducible apply TEv.modOp
    | with_reducible apply TEv.openStream
    | with_reducible apply TEv.settle
    | with_reducible refine TEv.ite ?_ ?_
    | split

theorem TEv.runBank {n0 e0 : Nat} (t : Nat) (p : Nat × Nat) (s : State) (h : TEv n0 e0 s) : TEv n0 e0 (Machine.runBank t p s) := by
  unfold Machine.runBank
  repeat' first
    | dsimp only
    | with_reducible assumption
    | intro _
    | with_reducible apply TEv.eachN
    | with_reducible apply TEv.modOp
    | with_reducible apply TEv.modTile
    | with_reducible refine TEv.ite ?_ ?_
    | split

theorem TEv.wakeBank {n0 e0 : Nat} (t : Nat) (s : State) (h : TEv n0 e0 s) : TEv n0 e0 (Machine.wakeBank t s) := by
  unfold Machine.wakeBank
  repeat' first
    | dsimp only
    | with_reducible assumption
    | intro _
    | with_reducible apply TEv.runBank
    | with_reducible refine TEv.ite ?_ ?_
    | split

theorem TEv.setBank {n0 e0 : Nat} (t : Nat) (b : Bool) (v : BankSt) (s : State) (h : TEv n0 e0 s) : TEv n0 e0 (Machine.setBank t b v s) := by
  unfold Machine.setBank
  repeat' first
    | dsimp only
    | with_reducible assumption
    | intro _
    | with_reducible apply TEv.modTile

theorem TEv.releaseOp {n0 e0 : Nat} (id i : Nat) (s : State) (h : TEv n0 e0 s) : TEv n0 e0 (Machine.releaseOp id i s) := by
  unfold Machine.releaseOp
  repeat' first
    | dsimp only
    | with_reducible assumption
    | intro _
    | with_reducible apply TEv.eachN
    | with_reducible apply TEv.modTile
    | with_reducible apply TEv.wakeBank
    | with_reducible apply TEv.idS
    | with_reducible refine TEv.ite ?_ ?_

theorem TEv.rerunOp {n0 e0 : Nat} (id i : Nat) (s : State) (h : TEv n0 e0 s) : TEv n0 e0 (Machine.rerunOp id i s) := by
  unfold Machine.rerunOp
  repeat' first
    | dsimp only
    | with_reducible assumption
    | intro _
    | with_reducible apply TEv.modBuf
    | with_reducible apply TEv.modOp
    | with_reducible apply TEv.releaseOp
    | with_reducible apply TEv.setStream
    | with_reducible refine TEv.ite ?_ ?_
    | split

theorem TEv.rerunFrom {n0 e0 : Nat} (id i : Nat) (s : State) (h : TEv n0 e0 s) : TEv n0 e0 (Machine.rerunFrom id i s) := by
  unfold Machine.rerunFrom
  repeat' first
    | dsimp only
    | with_reducible assumption
    | intro _
    | with_reducible apply TEv.eachN
    | with_reducible apply TEv.endChain
    | with_reducible apply TEv.rerunOp
    | with_reducible refine TEv.ite ?_ ?_
    | split

theorem TEv.loseOp {n0 e0 : Nat} (id i : Nat) (s : State) (h : TEv n0 e0 s) : TEv n0 e0 (Machine.loseOp id i s) := by
  unfold Machine.loseOp
  repeat' first
    | dsimp only
    | with_reducible assumption
    | intro _
    | with_reducible apply TEv.endChain
    | with_reducible apply TEv.rerunFrom
    | with_reducible apply TEv.settle
    | with_reducible refine TEv.ite ?_ ?_
    | split

theorem TEv.markQuarantine {n0 e0 : Nat} (t cause : Nat) (req : Option Nat) (s : State) (h : TEv n0 e0 s) : TEv n0 e0 (Machine.markQuarantine t cause req s) := by
  unfold Machine.markQuarantine
  repeat' first
    | dsimp only
    | with_reducible assumption
    | intro _
    | with_reducible apply TEv.journal
    | with_reducible apply TEv.modTile
    | with_reducible apply TEv.raiseG

theorem TEv.streamTo {n0 e0 : Nat} (p : Nat × Nat) (x : Nat) (s : State) (h : TEv n0 e0 s) : TEv n0 e0 (Machine.streamTo p x s) := by
  unfold Machine.streamTo
  repeat' first
    | dsimp only
    | with_reducible assumption
    | intro _
    | with_reducible apply TEv.setStream
    | with_reducible refine TEv.ite ?_ ?_
    | split

theorem TEv.shiftSaved {n0 e0 : Nat} (t x : Nat) (p : Nat × Nat) (s : State) (h : TEv n0 e0 s) : TEv n0 e0 (Machine.shiftSaved t x p s) := by
  unfold Machine.shiftSaved
  repeat' first
    | dsimp only
    | with_reducible assumption
    | intro _
    | with_reducible apply TEv.modOp
    | with_reducible apply TEv.modTile
    | with_reducible apply TEv.streamTo
    | with_reducible refine TEv.ite ?_ ?_
    | split

theorem TEv.moveSaved {n0 e0 : Nat} (t : Nat) (move : Bool) (p : Nat × Nat) (s0 : State) (h : TEv n0 e0 s0) : TEv n0 e0 (Machine.moveSaved t move p s0) := by
  unfold Machine.moveSaved
  repeat' first
    | dsimp only
    | with_reducible assumption
    | intro _
    | with_reducible apply TEv.dropHold
    | with_reducible apply TEv.endChain
    | with_reducible apply TEv.foldl
    | with_reducible apply TEv.loseOp
    | with_reducible apply TEv.nextFree
    | with_reducible apply TEv.shiftSaved
    | with_reducible refine TEv.ite ?_ ?_
    | split

theorem TEv.moveParked {n0 e0 : Nat} (t : Nat) (move : Bool) (s : State) (h : TEv n0 e0 s) : TEv n0 e0 (Machine.moveParked t move s) := by
  unfold Machine.moveParked
  repeat' first
    | dsimp only
    | with_reducible assumption
    | intro _
    | with_reducible apply TEv.eachN
    | with_reducible apply TEv.nextFree
    | with_reducible apply TEv.setStream
    | with_reducible refine TEv.ite ?_ ?_
    | split

theorem TEv.dropRun {n0 e0 : Nat} (t : Nat) (keep : Bool) (p : Nat × Nat) (s : State) (h : TEv n0 e0 s) : TEv n0 e0 (Machine.dropRun t keep p s) := by
  unfold Machine.dropRun
  repeat' first
    | dsimp only
    | with_reducible assumption
    | intro _
    | with_reducible apply TEv.loseOp
    | with_reducible apply TEv.modOp
    | with_reducible apply TEv.modTile
    | with_reducible apply TEv.rerunFrom
    | with_reducible apply TEv.setBank
    | with_reducible refine TEv.ite ?_ ?_
    | split

theorem TEv.quarantine {n0 e0 : Nat} (t cause : Nat) (keep : Bool) (s : State) (h : TEv n0 e0 s) : TEv n0 e0 (Machine.quarantine t cause keep s) := by
  unfold Machine.quarantine
  repeat' first
    | dsimp only
    | with_reducible assumption
    | intro _
    | with_reducible apply TEv.dropRun
    | with_reducible apply TEv.foldl
    | with_reducible apply TEv.markQuarantine
    | with_reducible apply TEv.moveParked
    | with_reducible apply TEv.moveSaved
    | with_reducible apply TEv.settleAll
    | with_reducible refine TEv.ite ?_ ?_
    | split

theorem TEv.tileCe {n0 e0 : Nat} (t : Nat) (s : State) (h : TEv n0 e0 s) : TEv n0 e0 (Machine.tileCe t s) := by
  unfold Machine.tileCe
  repeat' first
    | dsimp only
    | with_reducible assumption
    | intro _
    | with_reducible apply TEv.countCe
    | with_reducible apply TEv.modTile
    | with_reducible apply TEv.quarantine
    | with_reducible refine TEv.ite ?_ ?_
    | split

theorem TEv.tileUe {n0 e0 : Nat} (t : Nat) (s : State) (h : TEv n0 e0 s) : TEv n0 e0 (Machine.tileUe t s) := by
  unfold Machine.tileUe
  repeat' first
    | dsimp only
    | with_reducible assumption
    | intro _
    | with_reducible apply TEv.journalUe
    | with_reducible apply TEv.quarantine
    | with_reducible apply TEv.raiseG

theorem TEv.restIn {n0 e0 : Nat} (id i t : Nat) (s : State) (h : TEv n0 e0 s) : TEv n0 e0 (Machine.restIn id i t s) := by
  unfold Machine.restIn
  repeat' first
    | dsimp only
    | with_reducible assumption
    | intro _
    | with_reducible apply TEv.setBank
    | with_reducible refine TEv.ite ?_ ?_
    | split

theorem TEv.enterBank {n0 e0 : Nat} (id i t : Nat) (s : State) (h : TEv n0 e0 s) : TEv n0 e0 (Machine.enterBank id i t s) := by
  unfold Machine.enterBank
  repeat' first
    | dsimp only
    | with_reducible assumption
    | intro _
    | with_reducible apply TEv.restIn
    | with_reducible apply TEv.wakeBank
    | with_reducible refine TEv.ite ?_ ?_
    | split

theorem TEv.writeTarget {n0 e0 : Nat} (x : Nat) (material : Bytes) (s : State) (h : TEv n0 e0 s) : TEv n0 e0 (Machine.writeTarget x material s) := by
  unfold Machine.writeTarget
  repeat' first
    | dsimp only
    | with_reducible assumption
    | intro _
    | with_reducible apply TEv.modSlot

theorem TEv.finishOp {n0 e0 : Nat} (id i : Nat) (e : OpEnd) (s : State) (h : TEv n0 e0 s) : TEv n0 e0 (Machine.finishOp id i e s) := by
  unfold Machine.finishOp
  repeat' first
    | dsimp only
    | with_reducible assumption
    | intro _
    | with_reducible apply TEv.modOp
    | with_reducible apply TEv.parkStream
    | with_reducible apply TEv.releaseOp
    | with_reducible apply TEv.settle
    | with_reducible apply TEv.writeTarget
    | with_reducible apply TEv.idS
    | with_reducible refine TEv.ite ?_ ?_
    | split

theorem TEv.groutRound {n0 e0 : Nat} (t : Nat) (s : State) (h : TEv n0 e0 s) : TEv n0 e0 (Machine.groutRound t s) := by
  unfold Machine.groutRound
  repeat' first
    | dsimp only
    | with_reducible assumption
    | intro _
    | with_reducible apply TEv.modTile
    | with_reducible refine TEv.ite ?_ ?_
    | split

theorem TEv.unforward {n0 e0 : Nat} (id : Nat) (s : State) (h : TEv n0 e0 s) : TEv n0 e0 (Machine.unforward id s) := by
  unfold Machine.unforward
  repeat' first
    | dsimp only
    | with_reducible assumption
    | intro _
    | with_reducible apply TEv.modCrs
    | with_reducible apply TEv.modReq

theorem TEv.stopReq {n0 e0 : Nat} (id : Nat) (o : Outcome) (s : State) (h : TEv n0 e0 s) : TEv n0 e0 (Machine.stopReq id o s) := by
  unfold Machine.stopReq
  repeat' first
    | dsimp only
    | with_reducible assumption
    | intro _
    | with_reducible apply TEv.endChain
    | with_reducible apply TEv.sendFrame
    | with_reducible apply TEv.unforward
    | with_reducible apply TEv.idS
    | with_reducible refine TEv.ite ?_ ?_
    | split

end Sys2Proof.Machine
end

