-- ==== Sys2Proof/Laws/FrameEntropy.lean ====
section
/-!
SUPPORT. Frames of the operations of Machine/Entropy.lean: the parts of the state that each may change.
-/

set_option Elab.async false

namespace Sys2Proof.Machine

theorem Only.esRecord {A : List Part} {sB : State} (unit cause : Nat) (s : State) (hA : [.notice, .jrn, .evPend, .pviol, .pvcnt, .out] ⊆ A) (h : Only A sB s) : Only A sB (Machine.esRecord unit cause s) := by
  unfold Machine.esRecord
  repeat' first
    | with_reducible assumption
    | with_reducible apply Only.journal (hA := List.Subset.trans (by decide) hA)

theorem Only.rbgFail {A : List Part} {sB : State} (k cause : Nat) (s : State) (hA : [.notice, .rbgs, .jrn, .evPend, .pviol, .pvcnt, .out] ⊆ A) (h : Only A sB s) : Only A sB (Machine.rbgFail k cause s) := by
  unfold Machine.rbgFail
  repeat' first
    | with_reducible assumption
    | with_reducible apply Only.esRecord (hA := List.Subset.trans (by decide) hA)
    | with_reducible apply Only.modRbg (hA := List.Subset.trans (by decide) hA)
    | with_reducible apply Only.raiseG (hA := List.Subset.trans (by decide) hA)

theorem Only.reseed {A : List Part} {sB : State} (k : Nat) (s : State) (hA : [.es, .rbgs, .evPend] ⊆ A) (h : Only A sB s) : Only A sB (Machine.reseed k s) := by
  unfold Machine.reseed
  repeat' first
    | dsimp only
    | with_reducible assumption
    | intro _
    | with_reducible apply Only.modEs (hA := List.Subset.trans (by decide) hA)
    | with_reducible apply Only.modRbg (hA := List.Subset.trans (by decide) hA)
    | with_reducible apply Only.raiseG (hA := List.Subset.trans (by decide) hA)
    | with_reducible refine Only.ite ?_ ?_
    | split

theorem Only.readBlock {A : List Part} {sB : State} (ecc : Ecc) (s : State) (hA : [.notice, .ces, .es, .jrn, .evPend, .pviol, .pvcnt, .out] ⊆ A) (h : Only A sB s) : Only A sB (Machine.readBlock ecc s) := by
  unfold Machine.readBlock
  repeat' first
    | dsimp only
    | with_reducible assumption
    | intro _
    | with_reducible apply Only.countCe (hA := List.Subset.trans (by decide) hA)
    | with_reducible apply Only.journalUe (hA := List.Subset.trans (by decide) hA)
    | with_reducible apply Only.modEs (hA := List.Subset.trans (by decide) hA)
    | with_reducible refine Only.ite ?_ ?_
    | split

theorem Only.reseedRead {A : List Part} {sB : State} (k : Nat) (s : State) (hA : [.notice, .ces, .es, .rbgs, .jrn, .evPend, .pviol, .pvcnt, .out] ⊆ A) (h : Only A sB s) : Only A sB (Machine.reseedRead k s) := by
  unfold Machine.reseedRead
  repeat' first
    | dsimp only
    | with_reducible assumption
    | intro _
    | with_reducible apply Only.readBlock (hA := List.Subset.trans (by decide) hA)
    | with_reducible apply Only.reseed (hA := List.Subset.trans (by decide) hA)
    | with_reducible refine Only.ite ?_ ?_
    | split

theorem Only.generateAdd {A : List Part} {sB : State} (pr : Bool) (n : Nat) (add : Bytes) (x : List Nat) (s : State) (hA : [.notice, .ces, .es, .rbgs, .jrn, .evPend, .pviol, .pvcnt, .out] ⊆ A) (h : Only A sB s) : Only A sB (Machine.generateAdd pr n add x s).2 := by
  induction x generalizing s with
  | nil => exact h
  | cons a l ih =>
    unfold Machine.generateAdd
    repeat' first
      | dsimp only
      | with_reducible assumption
      | intro _
      | with_reducible apply Only.modRbg (hA := List.Subset.trans (by decide) hA)
      | with_reducible apply Only.rbgFail (hA := List.Subset.trans (by decide) hA)
      | with_reducible apply Only.reseedRead (hA := List.Subset.trans (by decide) hA)
      | with_reducible refine Only.ite ?_ ?_
      | split
      | with_reducible apply ih

theorem Only.generateAdd_eq {A : List Part} {sB : State} {pr : Bool} {n : Nat} {add : Bytes} {x : List Nat} {s : State} {y : Option Bytes} {t : State} (hA : [.notice, .ces, .es, .rbgs, .jrn, .evPend, .pviol, .pvcnt, .out] ⊆ A) (e : Machine.generateAdd pr n add x s = (y, t)) (h : Only A sB s) : Only A sB t := by
  have := Only.generateAdd pr n add x s hA h
  rwa [e] at this

theorem Only.generate {A : List Part} {sB : State} (n : Nat) (order : List Nat) (s : State) (hA : [.notice, .ces, .es, .rbgs, .jrn, .evPend, .pviol, .pvcnt, .out] ⊆ A) (h : Only A sB s) : Only A sB (Machine.generate n order s).2 := by
  unfold Machine.generate
  repeat' first
    | dsimp only
    | with_reducible assumption
    | intro _
    | with_reducible refine Only.generateAdd_eq (hA := List.Subset.trans (by decide) hA) (by assumption) ?_
    | with_reducible apply Only.generateAdd (hA := List.Subset.trans (by decide) hA)
    | with_reducible refine Only.ite ?_ ?_
    | split

theorem Only.generate_eq {A : List Part} {sB : State} {n : Nat} {order : List Nat} {s : State} {y : Option Bytes} {t : State} (hA : [.notice, .ces, .es, .rbgs, .jrn, .evPend, .pviol, .pvcnt, .out] ⊆ A) (e : Machine.generate n order s = (y, t)) (h : Only A sB s) : Only A sB t := by
  have := Only.generate n order s hA h
  rwa [e] at this

theorem Only.fxRbgReseed {A : List Part} {sB : State} (k : Fin 4) (ecc block : Ecc) (s : State) (hA : [.notice, .ces, .es, .rbgs, .jrn, .evPend, .pviol, .pvcnt, .out] ⊆ A) (h : Only A sB s) : Only A sB (Machine.fxRbgReseed k ecc block s) := by
  unfold Machine.fxRbgReseed
  repeat' first
    | dsimp only
    | with_reducible assumption
    | intro _
    | with_reducible apply Only.countCe (hA := List.Subset.trans (by decide) hA)
    | with_reducible apply Only.journalUe (hA := List.Subset.trans (by decide) hA)
    | with_reducible apply Only.rbgFail (hA := List.Subset.trans (by decide) hA)
    | with_reducible apply Only.readBlock (hA := List.Subset.trans (by decide) hA)
    | with_reducible apply Only.reseed (hA := List.Subset.trans (by decide) hA)
    | with_reducible apply Only.whenS
    | with_reducible refine Only.ite ?_ ?_
    | split

theorem Only.drawTag {A : List Part} {sB : State} (s : State) (hA : [.notice, .ces, .ks, .es, .rbgs, .jrn, .evPend, .pviol, .pvcnt, .out] ⊆ A) (h : Only A sB s) : Only A sB (Machine.drawTag s) := by
  unfold Machine.drawTag
  repeat' first
    | dsimp only
    | with_reducible assumption
    | intro _
    | with_reducible refine Only.generate_eq (hA := List.Subset.trans (by decide) hA) (by assumption) ?_
    | with_reducible apply Only.generate (hA := List.Subset.trans (by decide) hA)
    | with_reducible apply Only.modKs (hA := List.Subset.trans (by decide) hA)
    | with_reducible refine Only.ite ?_ ?_
    | split

theorem Only.fxRbgInstantiate {A : List Part} {sB : State} (k : Fin 4) (katOk : Bool) (block : Ecc) (s : State) (hA : [.notice, .ces, .ks, .es, .rbgs, .jrn, .evPend, .pviol, .pvcnt, .out] ⊆ A) (h : Only A sB s) : Only A sB (Machine.fxRbgInstantiate k katOk block s) := by
  unfold Machine.fxRbgInstantiate
  repeat' first
    | dsimp only
    | with_reducible assumption
    | intro _
    | with_reducible apply Only.drawTag (hA := List.Subset.trans (by decide) hA)
    | with_reducible apply Only.rbgFail (hA := List.Subset.trans (by decide) hA)
    | with_reducible apply Only.readBlock (hA := List.Subset.trans (by decide) hA)
    | with_reducible apply Only.reseed (hA := List.Subset.trans (by decide) hA)
    | with_reducible apply Only.whenS
    | with_reducible refine Only.ite ?_ ?_
    | split

theorem Only.rbgRestart {A : List Part} {sB : State} (k : Nat) (s : State) (hA : [.rbgs] ⊆ A) (h : Only A sB s) : Only A sB (Machine.rbgRestart k s) := by
  unfold Machine.rbgRestart
  repeat' first
    | with_reducible assumption
    | with_reducible apply Only.modRbg (hA := List.Subset.trans (by decide) hA)

theorem Only.fxRbgRestart {A : List Part} {sB : State} (who : Who) (k : Fin 4) (s : State) (hA : [.denied, .notice, .rbgs, .jrn, .evPend, .pviol, .pvcnt, .out] ⊆ A) (h : Only A sB s) : Only A sB (Machine.fxRbgRestart who k s) := by
  unfold Machine.fxRbgRestart
  repeat' first
    | with_reducible assumption
    | intro _
    | with_reducible apply Only.gateW (hA := List.Subset.trans (by decide) hA)
    | with_reducible apply Only.rbgRestart (hA := List.Subset.trans (by decide) hA)

theorem Only.esFailure {A : List Part} {sB : State} (rct : Bool) (s : State) (hA : [.notice, .es, .jrn, .evPend, .pviol, .pvcnt, .out] ⊆ A) (h : Only A sB s) : Only A sB (Machine.esFailure rct s) := by
  unfold Machine.esFailure
  repeat' first
    | dsimp only
    | with_reducible assumption
    | intro _
    | with_reducible apply Only.esRecord (hA := List.Subset.trans (by decide) hA)
    | with_reducible apply Only.modEs (hA := List.Subset.trans (by decide) hA)
    | with_reducible apply Only.raiseG (hA := List.Subset.trans (by decide) hA)
    | with_reducible refine Only.ite ?_ ?_
    | split

theorem Only.fxEntropySample {A : List Part} {sB : State} (bit : Bool) (s : State) (hA : [.notice, .es, .jrn, .evPend, .pviol, .pvcnt, .out] ⊆ A) (h : Only A sB s) : Only A sB (Machine.fxEntropySample bit s) := by
  unfold Machine.fxEntropySample
  repeat' first
    | dsimp only
    | with_reducible assumption
    | intro _
    | with_reducible apply Only.esFailure (hA := List.Subset.trans (by decide) hA)
    | with_reducible apply Only.modEs (hA := List.Subset.trans (by decide) hA)
    | with_reducible apply Only.whenS
    | with_reducible refine Only.ite ?_ ?_
    | split

theorem Only.fxEntropyBlockConditioned {A : List Part} {sB : State} (ecc : Ecc) (s : State) (hA : [.notice, .ces, .es, .rbgs, .jrn, .evPend, .pviol, .pvcnt, .out] ⊆ A) (h : Only A sB s) : Only A sB (Machine.fxEntropyBlockConditioned ecc s) := by
  unfold Machine.fxEntropyBlockConditioned
  repeat' first
    | dsimp only
    | with_reducible assumption
    | intro _
    | with_reducible apply Only.countCe (hA := List.Subset.trans (by decide) hA)
    | with_reducible apply Only.journalUe (hA := List.Subset.trans (by decide) hA)
    | with_reducible apply Only.modEs (hA := List.Subset.trans (by decide) hA)
    | with_reducible apply Only.reseedRead (hA := List.Subset.trans (by decide) hA)
    | with_reducible apply Only.whenS
    | with_reducible refine Only.ite ?_ ?_
    | split

theorem Only.esRestart {A : List Part} {sB : State} (s : State) (hA : [.es] ⊆ A) (h : Only A sB s) : Only A sB (Machine.esRestart s) := by
  unfold Machine.esRestart
  repeat' first
    | dsimp only
    | with_reducible assumption
    | intro _
    | with_reducible apply Only.modEs (hA := List.Subset.trans (by decide) hA)
    | with_reducible refine Only.ite ?_ ?_

theorem Only.fxEsRestart {A : List Part} {sB : State} (who : Who) (s : State) (hA : [.denied, .notice, .es, .jrn, .evPend, .pviol, .pvcnt, .out] ⊆ A) (h : Only A sB s) : Only A sB (Machine.fxEsRestart who s) := by
  unfold Machine.fxEsRestart
  repeat' first
    | with_reducible assumption
    | intro _
    | with_reducible apply Only.esRestart (hA := List.Subset.trans (by decide) hA)
    | with_reducible apply Only.gateW (hA := List.Subset.trans (by decide) hA)

theorem Only.rawRead {A : List Part} {sB : State} (who : Who) (done : Word → Word) (s : State) (hA : [.es, .out] ⊆ A) (h : Only A sB s) : Only A sB (Machine.rawRead who done s) := by
  unfold Machine.rawRead
  repeat' first
    | with_reducible assumption
    | intro _
    | with_reducible apply Only.emit (hA := List.Subset.trans (by decide) hA)
    | with_reducible apply Only.modEs (hA := List.Subset.trans (by decide) hA)
    | with_reducible refine Only.ite ?_ ?_

theorem Only.fxEsRawRead {A : List Part} {sB : State} (who : Who) (s : State) (hA : [.notice, .es, .jrn, .evPend, .pviol, .pvcnt, .out] ⊆ A) (h : Only A sB s) : Only A sB (Machine.fxEsRawRead who s) := by
  unfold Machine.fxEsRawRead
  repeat' first
    | with_reducible assumption
    | intro _
    | with_reducible apply Only.gateR (hA := List.Subset.trans (by decide) hA)
    | with_reducible apply Only.rawRead (hA := List.Subset.trans (by decide) hA)

end Sys2Proof.Machine
end

