-- ==== Sys2Proof/Laws/FrameTiles.lean ====
section
/-!
SUPPORT. Frames of the operations of Machine/Tiles.lean: the parts of the state that each may change.
-/

set_option Elab.async false

namespace Sys2Proof.Machine

theorem Only.openStream {A : List Part} {sB : State} (r : Req) (i t : Nat) (s : State) (hA : [.streams] ⊆ A) (h : Only A sB s) : Only A sB (Machine.openStream r i t s) := by
  unfold Machine.openStream
  repeat' first
    | dsimp only
    | with_reducible assumption
    | intro _
    | with_reducible apply Only.setStream (hA := List.Subset.trans (by decide) hA)
    | with_reducible refine Only.ite ?_ ?_
    | split

theorem Only.parkStream {A : List Part} {sB : State} (r : Req) (i : Nat) (s : State) (hA : [.reqs, .streams] ⊆ A) (h : Only A sB s) : Only A sB (Machine.parkStream r i s) := by
  unfold Machine.parkStream
  repeat' first
    | dsimp only
    | with_reducible assumption
    | intro _
    | with_reducible apply Only.modOp (hA := List.Subset.trans (by decide) hA)
    | with_reducible apply Only.setStream (hA := List.Subset.trans (by decide) hA)
    | with_reducible refine Only.ite ?_ ?_
    | split

theorem Only.holdTile {A : List Part} {sB : State} (p : Nat × Nat) (t : Nat) (s : State) (hA : [.tiles] ⊆ A) (h : Only A sB s) : Only A sB (Machine.holdTile p t s) := by
  unfold Machine.holdTile
  repeat' first
    | dsimp only
    | with_reducible assumption
    | intro _
    | with_reducible apply Only.modTile (hA := List.Subset.trans (by decide) hA)
    | with_reducible refine Only.ite ?_ ?_
    | split

theorem Only.dropHold {A : List Part} {sB : State} (k : Nat) (p : Nat × Nat) (s : State) (hA : [.tiles] ⊆ A) (h : Only A sB s) : Only A sB (Machine.dropHold k p s) := by
  unfold Machine.dropHold
  repeat' first
    | dsimp only
    | with_reducible assumption
    | intro _
    | with_reducible apply Only.eachN
    | with_reducible apply Only.modTile (hA := List.Subset.trans (by decide) hA)
    | with_reducible refine Only.ite ?_ ?_
    | split

theorem Only.startOn {A : List Part} {sB : State} (id i : Nat) (ts : List Nat) (s : State) (hA : [.notice, .tens, .sch, .reqs, .tiles, .streams, .ks, .fp, .jrn, .evPend, .pviol, .pvcnt, .out] ⊆ A) (h : Only A sB s) : Only A sB (Machine.startOn id i ts s) := by
  unfold Machine.startOn
  repeat' first
    | dsimp only
    | with_reducible assumption
    | intro _
    | with_reducible apply Only.eachN
    | with_reducible apply Only.endChain (hA := List.Subset.trans (by decide) hA)
    | with_reducible apply Only.holdTile (hA := List.Subset.trans (by decide) hA)
    | with_reducible apply Only.modOp (hA := List.Subset.trans (by decide) hA)
    | with_reducible apply Only.openStream (hA := List.Subset.trans (by decide) hA)
    | with_reducible apply Only.settle (hA := List.Subset.trans (by decide) hA)
    | with_reducible refine Only.ite ?_ ?_
    | split

theorem Only.takeUp {A : List Part} {sB : State} (k : Nat) (p : Nat × Nat) (t : Nat) (s : State) (hA : [.notice, .tens, .sch, .reqs, .tiles, .streams, .ks, .fp, .jrn, .evPend, .pviol, .pvcnt, .out] ⊆ A) (h : Only A sB s) : Only A sB (Machine.takeUp k p t s) := by
  unfold Machine.takeUp
  repeat' first
    | dsimp only
    | with_reducible assumption
    | intro _
    | with_reducible apply Only.holdTile (hA := List.Subset.trans (by decide) hA)
    | with_reducible apply Only.startOn (hA := List.Subset.trans (by decide) hA)
    | with_reducible refine Only.ite ?_ ?_
    | split

theorem Only.runBank {A : List Part} {sB : State} (t : Nat) (p : Nat × Nat) (s : State) (hA : [.reqs, .tiles] ⊆ A) (h : Only A sB s) : Only A sB (Machine.runBank t p s) := by
  unfold Machine.runBank
  repeat' first
    | dsimp only
    | with_reducible assumption
    | intro _
    | with_reducible apply Only.eachN
    | with_reducible apply Only.modOp (hA := List.Subset.trans (by decide) hA)
    | with_reducible apply Only.modTile (hA := List.Subset.trans (by decide) hA)
    | with_reducible refine Only.ite ?_ ?_
    | split

theorem Only.wakeBank {A : List Part} {sB : State} (t : Nat) (s : State) (hA : [.reqs, .tiles] ⊆ A) (h : Only A sB s) : Only A sB (Machine.wakeBank t s) := by
  unfold Machine.wakeBank
  repeat' first
    | dsimp only
    | with_reducible assumption
    | intro _
    | with_reducible apply Only.runBank (hA := List.Subset.trans (by decide) hA)
    | with_reducible refine Only.ite ?_ ?_
    | split

theorem Only.wakeBanks {A : List Part} {sB : State} (s : State) (hA : [.reqs, .tiles] ⊆ A) (h : Only A sB s) : Only A sB (Machine.wakeBanks s) := by
  unfold Machine.wakeBanks
  repeat' first
    | dsimp only
    | with_reducible assumption
    | intro _
    | with_reducible apply Only.eachN
    | with_reducible apply Only.wakeBank (hA := List.Subset.trans (by decide) hA)
    | with_reducible refine Only.ite ?_ ?_
    | split

theorem Only.setBank {A : List Part} {sB : State} (t : Nat) (b : Bool) (v : BankSt) (s : State) (hA : [.tiles] ⊆ A) (h : Only A sB s) : Only A sB (Machine.setBank t b v s) := by
  unfold Machine.setBank
  repeat' first
    | with_reducible assumption
    | with_reducible apply Only.modTile (hA := List.Subset.trans (by decide) hA)

theorem Only.releaseOp {A : List Part} {sB : State} (id i : Nat) (s : State) (hA : [.reqs, .tiles] ⊆ A) (h : Only A sB s) : Only A sB (Machine.releaseOp id i s) := by
  unfold Machine.releaseOp
  repeat' first
    | dsimp only
    | with_reducible assumption
    | intro _
    | with_reducible apply Only.eachN
    | with_reducible apply Only.modTile (hA := List.Subset.trans (by decide) hA)
    | with_reducible apply Only.wakeBank (hA := List.Subset.trans (by decide) hA)
    | with_reducible refine Only.ite ?_ ?_

theorem Only.rerunOp {A : List Part} {sB : State} (id i : Nat) (s : State) (hA : [.reqs, .tiles, .streams] ⊆ A) (h : Only A sB s) : Only A sB (Machine.rerunOp id i s) := by
  unfold Machine.rerunOp
  repeat' first
    | dsimp only
    | with_reducible assumption
    | intro _
    | with_reducible apply Only.modBuf (hA := List.Subset.trans (by decide) hA)
    | with_reducible apply Only.modOp (hA := List.Subset.trans (by decide) hA)
    | with_reducible apply Only.releaseOp (hA := List.Subset.trans (by decide) hA)
    | with_reducible apply Only.setStream (hA := List.Subset.trans (by decide) hA)
    | with_reducible refine Only.ite ?_ ?_
    | split

theorem Only.rerunFrom {A : List Part} {sB : State} (id i : Nat) (s : State) (hA : [.tens, .sch, .reqs, .tiles, .streams, .ks, .fp, .evPend, .pviol, .pvcnt, .out] ⊆ A) (h : Only A sB s) : Only A sB (Machine.rerunFrom id i s) := by
  unfold Machine.rerunFrom
  repeat' first
    | dsimp only
    | with_reducible assumption
    | intro _
    | with_reducible apply Only.eachN
    | with_reducible apply Only.endChain (hA := List.Subset.trans (by decide) hA)
    | with_reducible apply Only.rerunOp (hA := List.Subset.trans (by decide) hA)
    | with_reducible refine Only.ite ?_ ?_
    | split

theorem Only.loseOp {A : List Part} {sB : State} (id i : Nat) (s : State) (hA : [.notice, .tens, .sch, .reqs, .tiles, .streams, .ks, .fp, .jrn, .evPend, .pviol, .pvcnt, .out] ⊆ A) (h : Only A sB s) : Only A sB (Machine.loseOp id i s) := by
  unfold Machine.loseOp
  repeat' first
    | dsimp only
    | with_reducible assumption
    | intro _
    | with_reducible apply Only.endChain (hA := List.Subset.trans (by decide) hA)
    | with_reducible apply Only.rerunFrom (hA := List.Subset.trans (by decide) hA)
    | with_reducible apply Only.settle (hA := List.Subset.trans (by decide) hA)
    | with_reducible refine Only.ite ?_ ?_
    | split

theorem Only.markQuarantine {A : List Part} {sB : State} (t cause : Nat) (req : Option Nat) (s : State) (hA : [.notice, .tiles, .jrn, .evPend, .pviol, .pvcnt, .out] ⊆ A) (h : Only A sB s) : Only A sB (Machine.markQuarantine t cause req s) := by
  unfold Machine.markQuarantine
  repeat' first
    | dsimp only
    | with_reducible assumption
    | with_reducible apply Only.journal (hA := List.Subset.trans (by decide) hA)
    | with_reducible apply Only.modTile (hA := List.Subset.trans (by decide) hA)
    | with_reducible apply Only.raiseG (hA := List.Subset.trans (by decide) hA)

theorem Only.streamTo {A : List Part} {sB : State} (p : Nat × Nat) (x : Nat) (s : State) (hA : [.streams] ⊆ A) (h : Only A sB s) : Only A sB (Machine.streamTo p x s) := by
  unfold Machine.streamTo
  repeat' first
    | dsimp only
    | with_reducible assumption
    | intro _
    | with_reducible apply Only.setStream (hA := List.Subset.trans (by decide) hA)
    | with_reducible refine Only.ite ?_ ?_
    | split

theorem Only.shiftSaved {A : List Part} {sB : State} (t x : Nat) (p : Nat × Nat) (s : State) (hA : [.reqs, .tiles, .streams] ⊆ A) (h : Only A sB s) : Only A sB (Machine.shiftSaved t x p s) := by
  unfold Machine.shiftSaved
  repeat' first
    | dsimp only
    | with_reducible assumption
    | intro _
    | with_reducible apply Only.modOp (hA := List.Subset.trans (by decide) hA)
    | with_reducible apply Only.modTile (hA := List.Subset.trans (by decide) hA)
    | with_reducible apply Only.streamTo (hA := List.Subset.trans (by decide) hA)
    | with_reducible refine Only.ite ?_ ?_
    | split

theorem Only.moveSaved {A : List Part} {sB : State} (t : Nat) (move : Bool) (p : Nat × Nat) (s0 : State) (hA : [.notice, .tens, .sch, .reqs, .tiles, .streams, .ks, .fp, .jrn, .evPend, .pviol, .pvcnt, .out, .free] ⊆ A) (h : Only A sB s0) : Only A sB (Machine.moveSaved t move p s0) := by
  unfold Machine.moveSaved
  repeat' first
    | dsimp only
    | with_reducible assumption
    | intro _
    | with_reducible apply Only.dropHold (hA := List.Subset.trans (by decide) hA)
    | with_reducible apply Only.endChain (hA := List.Subset.trans (by decide) hA)
    | with_reducible apply Only.foldl
    | with_reducible apply Only.loseOp (hA := List.Subset.trans (by decide) hA)
    | with_reducible apply Only.nextFree (hA := List.Subset.trans (by decide) hA)
    | with_reducible apply Only.shiftSaved (hA := List.Subset.trans (by decide) hA)
    | with_reducible refine Only.ite ?_ ?_
    | split

theorem Only.moveParked {A : List Part} {sB : State} (t : Nat) (move : Bool) (s : State) (hA : [.streams, .free] ⊆ A) (h : Only A sB s) : Only A sB (Machine.moveParked t move s) := by
  unfold Machine.moveParked
  repeat' first
    | dsimp only
    | with_reducible assumption
    | intro _
    | with_reducible apply Only.eachN
    | with_reducible apply Only.nextFree (hA := List.Subset.trans (by decide) hA)
    | with_reducible apply Only.setStream (hA := List.Subset.trans (by decide) hA)
    | with_reducible refine Only.ite ?_ ?_
    | split

theorem Only.dropRun {A : List Part} {sB : State} (t : Nat) (keep : Bool) (p : Nat × Nat) (s : State) (hA : [.notice, .tens, .sch, .reqs, .tiles, .streams, .ks, .fp, .jrn, .evPend, .pviol, .pvcnt, .out] ⊆ A) (h : Only A sB s) : Only A sB (Machine.dropRun t keep p s) := by
  unfold Machine.dropRun
  repeat' first
    | dsimp only
    | with_reducible assumption
    | intro _
    | with_reducible apply Only.loseOp (hA := List.Subset.trans (by decide) hA)
    | with_reducible apply Only.modOp (hA := List.Subset.trans (by decide) hA)
    | with_reducible apply Only.modTile (hA := List.Subset.trans (by decide) hA)
    | with_reducible apply Only.rerunFrom (hA := List.Subset.trans (by decide) hA)
    | with_reducible apply Only.setBank (hA := List.Subset.trans (by decide) hA)
    | with_reducible refine Only.ite ?_ ?_
    | split

theorem Only.quarantine {A : List Part} {sB : State} (t cause : Nat) (keep : Bool) (s : State) (hA : [.notice, .tens, .sch, .reqs, .tiles, .streams, .ks, .fp, .jrn, .evPend, .pviol, .pvcnt, .out, .free] ⊆ A) (h : Only A sB s) : Only A sB (Machine.quarantine t cause keep s) := by
  unfold Machine.quarantine
  repeat' first
    | dsimp only
    | with_reducible assumption
    | intro _
    | with_reducible apply Only.dropRun (hA := List.Subset.trans (by decide) hA)
    | with_reducible apply Only.foldl
    | with_reducible apply Only.markQuarantine (hA := List.Subset.trans (by decide) hA)
    | with_reducible apply Only.moveParked (hA := List.Subset.trans (by decide) hA)
    | with_reducible apply Only.moveSaved (hA := List.Subset.trans (by decide) hA)
    | with_reducible apply Only.settleAll (hA := List.Subset.trans (by decide) hA)
    | with_reducible refine Only.ite ?_ ?_
    | split

theorem Only.tileCe {A : List Part} {sB : State} (t : Nat) (s : State) (hA : [.notice, .tens, .sch, .reqs, .tiles, .ces, .streams, .ks, .fp, .jrn, .evPend, .pviol, .pvcnt, .out, .free] ⊆ A) (h : Only A sB s) : Only A sB (Machine.tileCe t s) := by
  unfold Machine.tileCe
  repeat' first
    | dsimp only
    | with_reducible assumption
    | intro _
    | with_reducible apply Only.countCe (hA := List.Subset.trans (by decide) hA)
    | with_reducible apply Only.modTile (hA := List.Subset.trans (by decide) hA)
    | with_reducible apply Only.quarantine (hA := List.Subset.trans (by decide) hA)
    | with_reducible refine Only.ite ?_ ?_
    | split

theorem Only.tileUe {A : List Part} {sB : State} (t : Nat) (s : State) (hA : [.notice, .tens, .sch, .reqs, .tiles, .streams, .ks, .fp, .jrn, .evPend, .pviol, .pvcnt, .out, .free] ⊆ A) (h : Only A sB s) : Only A sB (Machine.tileUe t s) := by
  unfold Machine.tileUe
  repeat' first
    | with_reducible assumption
    | with_reducible apply Only.journalUe (hA := List.Subset.trans (by decide) hA)
    | with_reducible apply Only.quarantine (hA := List.Subset.trans (by decide) hA)
    | with_reducible apply Only.raiseG (hA := List.Subset.trans (by decide) hA)

theorem Only.allocTile {A : List Part} {sB : State} (k id i t : Nat) (t2 : Option Nat) (s : State) (hA : [.notice, .tens, .sch, .reqs, .tiles, .streams, .ks, .fp, .jrn, .evPend, .pviol, .pvcnt, .out] ⊆ A) (h : Only A sB s) : Only A sB (Machine.allocTile k id i t t2 s) := by
  unfold Machine.allocTile
  repeat' first
    | dsimp only
    | with_reducible assumption
    | intro _
    | with_reducible apply Only.startOn (hA := List.Subset.trans (by decide) hA)
    | with_reducible apply Only.whenS
    | with_reducible apply Only.withReq
    | with_reducible refine Only.ite ?_ ?_
    | split

theorem Only.fxCipherTileAllocate {A : List Part} {sB : State} (id : Nat) (op : Fin 8) (tile : Fin 16) (second : Option (Fin 16)) (s : State) (hA : [.notice, .tens, .sch, .reqs, .tiles, .streams, .ks, .fp, .jrn, .evPend, .pviol, .pvcnt, .out] ⊆ A) (h : Only A sB s) : Only A sB (Machine.fxCipherTileAllocate id op tile second s) := by
  unfold Machine.fxCipherTileAllocate
  repeat' first
    | with_reducible assumption
    | with_reducible apply Only.allocTile (hA := List.Subset.trans (by decide) hA)

theorem Only.allocService {A : List Part} {sB : State} (p : Nat × Nat) (t : Nat) (s : State) (hA : [.tiles] ⊆ A) (h : Only A sB s) : Only A sB (Machine.allocService p t s) := by
  unfold Machine.allocService
  repeat' first
    | dsimp only
    | with_reducible assumption
    | intro _
    | with_reducible apply Only.holdTile (hA := List.Subset.trans (by decide) hA)
    | with_reducible apply Only.whenS
    | with_reducible refine Only.ite ?_ ?_
    | split

theorem Only.restoreFails {A : List Part} {sB : State} (p : Nat × Nat) (t : Nat) (s : State) (hA : [.notice, .tens, .sch, .reqs, .tiles, .streams, .ks, .fp, .jrn, .evPend, .pviol, .pvcnt, .out, .free] ⊆ A) (h : Only A sB s) : Only A sB (Machine.restoreFails p t s) := by
  unfold Machine.restoreFails
  repeat' first
    | dsimp only
    | with_reducible assumption
    | intro _
    | with_reducible apply Only.dropHold (hA := List.Subset.trans (by decide) hA)
    | with_reducible apply Only.endChain (hA := List.Subset.trans (by decide) hA)
    | with_reducible apply Only.setStream (hA := List.Subset.trans (by decide) hA)
    | with_reducible apply Only.tileUe (hA := List.Subset.trans (by decide) hA)
    | with_reducible refine Only.ite ?_ ?_
    | split

theorem Only.fxDigestTileAllocate {A : List Part} {sB : State} (id : Nat) (op : Fin 8) (tile : Fin 4) (second : Option (Fin 4)) (ecc : Ecc) (s : State) (hA : [.notice, .tens, .sch, .reqs, .tiles, .ces, .streams, .ks, .fp, .jrn, .evPend, .pviol, .pvcnt, .out, .free] ⊆ A) (h : Only A sB s) : Only A sB (Machine.fxDigestTileAllocate id op tile second ecc s) := by
  unfold Machine.fxDigestTileAllocate
  repeat' first
    | dsimp only
    | with_reducible assumption
    | intro _
    | with_reducible apply Only.allocService (hA := List.Subset.trans (by decide) hA)
    | with_reducible apply Only.allocTile (hA := List.Subset.trans (by decide) hA)
    | with_reducible apply Only.restoreFails (hA := List.Subset.trans (by decide) hA)
    | with_reducible apply Only.tileCe (hA := List.Subset.trans (by decide) hA)
    | with_reducible refine Only.ite ?_ ?_
    | split

theorem Only.yieldTile {A : List Part} {sB : State} (k t : Nat) (s : State) (hA : [.notice, .tens, .sch, .reqs, .tiles, .streams, .ks, .fp, .jrn, .evPend, .pviol, .pvcnt, .out] ⊆ A) (h : Only A sB s) : Only A sB (Machine.yieldTile k t s) := by
  unfold Machine.yieldTile
  repeat' first
    | dsimp only
    | with_reducible assumption
    | intro _
    | with_reducible apply Only.eachN
    | with_reducible apply Only.modOp (hA := List.Subset.trans (by decide) hA)
    | with_reducible apply Only.modTile (hA := List.Subset.trans (by decide) hA)
    | with_reducible apply Only.takeUp (hA := List.Subset.trans (by decide) hA)
    | with_reducible apply Only.whenS
    | with_reducible refine Only.ite ?_ ?_
    | split

theorem Only.useBank {A : List Part} {sB : State} (id t : Nat) (s : State) (hA : [.tiles] ⊆ A) (h : Only A sB s) : Only A sB (Machine.useBank id t s) := by
  unfold Machine.useBank
  repeat' first
    | dsimp only
    | with_reducible assumption
    | intro _
    | with_reducible apply Only.setBank (hA := List.Subset.trans (by decide) hA)
    | with_reducible refine Only.ite ?_ ?_
    | split

theorem Only.restIn {A : List Part} {sB : State} (id i t : Nat) (s : State) (hA : [.tiles] ⊆ A) (h : Only A sB s) : Only A sB (Machine.restIn id i t s) := by
  unfold Machine.restIn
  repeat' first
    | dsimp only
    | with_reducible assumption
    | intro _
    | with_reducible apply Only.setBank (hA := List.Subset.trans (by decide) hA)
    | with_reducible refine Only.ite ?_ ?_
    | split

theorem Only.enterBank {A : List Part} {sB : State} (id i t : Nat) (s : State) (hA : [.reqs, .tiles] ⊆ A) (h : Only A sB s) : Only A sB (Machine.enterBank id i t s) := by
  unfold Machine.enterBank
  repeat' first
    | dsimp only
    | with_reducible assumption
    | intro _
    | with_reducible apply Only.restIn (hA := List.Subset.trans (by decide) hA)
    | with_reducible apply Only.wakeBank (hA := List.Subset.trans (by decide) hA)
    | with_reducible refine Only.ite ?_ ?_
    | split

theorem Only.fxPkBankAssign {A : List Part} {sB : State} (id : Nat) (op : Fin 8) (tile : Fin 4) (second : Option (Fin 4)) (s : State) (hA : [.notice, .tens, .sch, .reqs, .tiles, .streams, .ks, .fp, .jrn, .evPend, .pviol, .pvcnt, .out] ⊆ A) (h : Only A sB s) : Only A sB (Machine.fxPkBankAssign id op tile second s) := by
  unfold Machine.fxPkBankAssign
  repeat' first
    | dsimp only
    | with_reducible assumption
    | intro _
    | with_reducible apply Only.eachN
    | with_reducible apply Only.enterBank (hA := List.Subset.trans (by decide) hA)
    | with_reducible apply Only.modOp (hA := List.Subset.trans (by decide) hA)
    | with_reducible apply Only.restIn (hA := List.Subset.trans (by decide) hA)
    | with_reducible apply Only.settle (hA := List.Subset.trans (by decide) hA)
    | with_reducible apply Only.wakeBanks (hA := List.Subset.trans (by decide) hA)
    | with_reducible apply Only.whenS
    | with_reducible refine Only.ite ?_ ?_
    | split

theorem Only.keepLeft {A : List Part} {sB : State} (p : Nat × Nat) (left : Nat) (s : State) (hA : [.sch, .reqs] ⊆ A) (h : Only A sB s) : Only A sB (Machine.keepLeft p left s) := by
  unfold Machine.keepLeft
  repeat' first
    | dsimp only
    | with_reducible assumption
    | intro _
    | with_reducible apply Only.modOp (hA := List.Subset.trans (by decide) hA)
    | with_reducible apply Only.modSch (hA := List.Subset.trans (by decide) hA)
    | with_reducible refine Only.ite ?_ ?_
    | split

theorem Only.yieldBank {A : List Part} {sB : State} (t : Nat) (p : Nat × Nat) (s : State) (hA : [.reqs, .tiles] ⊆ A) (h : Only A sB s) : Only A sB (Machine.yieldBank t p s) := by
  unfold Machine.yieldBank
  repeat' first
    | dsimp only
    | with_reducible assumption
    | intro _
    | with_reducible apply Only.eachN
    | with_reducible apply Only.foldl
    | with_reducible apply Only.modOp (hA := List.Subset.trans (by decide) hA)
    | with_reducible apply Only.modTile (hA := List.Subset.trans (by decide) hA)
    | with_reducible apply Only.runBank (hA := List.Subset.trans (by decide) hA)
    | with_reducible refine Only.ite ?_ ?_
    | split

theorem Only.fxPkCheckPhaseEnd {A : List Part} {sB : State} (tile : Fin 4) (s : State) (hA : [.notice, .tens, .sch, .reqs, .tiles, .ces, .streams, .ks, .es, .rbgs, .fp, .jrn, .evPend, .pviol, .pvcnt, .out] ⊆ A) (h : Only A sB s) : Only A sB (Machine.fxPkCheckPhaseEnd tile s) := by
  unfold Machine.fxPkCheckPhaseEnd
  repeat' first
    | dsimp only
    | with_reducible assumption
    | intro _
    | with_reducible apply Only.endChain (hA := List.Subset.trans (by decide) hA)
    | with_reducible refine Only.generate_eq (hA := List.Subset.trans (by decide) hA) (by assumption) ?_
    | with_reducible apply Only.generate (hA := List.Subset.trans (by decide) hA)
    | with_reducible apply Only.modOp (hA := List.Subset.trans (by decide) hA)
    | with_reducible apply Only.whenS
    | with_reducible apply Only.withReq
    | with_reducible refine Only.ite ?_ ?_
    | split

theorem Only.hashDone {A : List Part} {sB : State} (p : Nat × Nat) (s : State) (hA : [.notice, .tens, .sch, .reqs, .tiles, .streams, .ks, .fp, .jrn, .evPend, .pviol, .pvcnt, .out] ⊆ A) (h : Only A sB s) : Only A sB (Machine.hashDone p s) := by
  unfold Machine.hashDone
  repeat' first
    | dsimp only
    | with_reducible assumption
    | intro _
    | with_reducible apply Only.dropHold (hA := List.Subset.trans (by decide) hA)
    | with_reducible apply Only.modOp (hA := List.Subset.trans (by decide) hA)
    | with_reducible apply Only.settle (hA := List.Subset.trans (by decide) hA)
    | with_reducible refine Only.ite ?_ ?_
    | split

theorem Only.fxDigestServiceDone {A : List Part} {sB : State} (tile : Fin 4) (s : State) (hA : [.notice, .tens, .sch, .reqs, .tiles, .streams, .ks, .fp, .jrn, .evPend, .pviol, .pvcnt, .out] ⊆ A) (h : Only A sB s) : Only A sB (Machine.fxDigestServiceDone tile s) := by
  unfold Machine.fxDigestServiceDone
  repeat' first
    | dsimp only
    | with_reducible assumption
    | intro _
    | with_reducible apply Only.hashDone (hA := List.Subset.trans (by decide) hA)
    | with_reducible apply Only.whenS
    | with_reducible refine Only.ite ?_ ?_
    | split

theorem Only.fxMlDsaIterationCap {A : List Part} {sB : State} (tile : Fin 4) (s : State) (hA : [.tens, .sch, .reqs, .tiles, .streams, .ks, .fp, .evPend, .pviol, .pvcnt, .out] ⊆ A) (h : Only A sB s) : Only A sB (Machine.fxMlDsaIterationCap tile s) := by
  unfold Machine.fxMlDsaIterationCap
  repeat' first
    | dsimp only
    | with_reducible assumption
    | intro _
    | with_reducible apply Only.endChain (hA := List.Subset.trans (by decide) hA)
    | with_reducible apply Only.whenS
    | with_reducible apply Only.withReq
    | with_reducible refine Only.ite ?_ ?_
    | split

theorem Only.fxPkBankZeroized {A : List Part} {sB : State} (tile : Fin 4) (bank : Bool) (s : State) (hA : [.reqs, .tiles] ⊆ A) (h : Only A sB s) : Only A sB (Machine.fxPkBankZeroized tile bank s) := by
  unfold Machine.fxPkBankZeroized
  repeat' first
    | dsimp only
    | with_reducible assumption
    | with_reducible apply Only.modReq (hA := List.Subset.trans (by decide) hA)
    | with_reducible apply Only.setBank (hA := List.Subset.trans (by decide) hA)
    | with_reducible apply Only.wakeBank (hA := List.Subset.trans (by decide) hA)
    | split

theorem Only.agreeOn {A : List Part} {sB : State} (r : Req) (i : Nat) (s : State) (hA : [.reqs] ⊆ A) (h : Only A sB s) : Only A sB (Machine.agreeOn r i s) := by
  unfold Machine.agreeOn
  repeat' first
    | dsimp only
    | with_reducible assumption
    | intro _
    | with_reducible apply Only.modOp (hA := List.Subset.trans (by decide) hA)
    | with_reducible refine Only.ite ?_ ?_
    | split

theorem Only.fxPairedPieceCompare {A : List Part} {sB : State} (id : Nat) (op : Fin 8) (agree : Bool) (s : State) (hA : [.notice, .tens, .sch, .reqs, .tiles, .streams, .ks, .fp, .jrn, .evPend, .pviol, .pvcnt, .out] ⊆ A) (h : Only A sB s) : Only A sB (Machine.fxPairedPieceCompare id op agree s) := by
  unfold Machine.fxPairedPieceCompare
  repeat' first
    | dsimp only
    | with_reducible assumption
    | intro _
    | with_reducible apply Only.agreeOn (hA := List.Subset.trans (by decide) hA)
    | with_reducible apply Only.modOp (hA := List.Subset.trans (by decide) hA)
    | with_reducible apply Only.pairRecord (hA := List.Subset.trans (by decide) hA)
    | with_reducible apply Only.raiseG (hA := List.Subset.trans (by decide) hA)
    | with_reducible apply Only.settle (hA := List.Subset.trans (by decide) hA)
    | with_reducible apply Only.whenS
    | with_reducible apply Only.withReq
    | with_reducible refine Only.ite ?_ ?_
    | split

theorem Only.fxVoterAssign {A : List Part} {sB : State} (id : Nat) (op : Fin 8) (tile : TileIx) (s : State) (hA : [.reqs, .tiles] ⊆ A) (h : Only A sB s) : Only A sB (Machine.fxVoterAssign id op tile s) := by
  unfold Machine.fxVoterAssign
  repeat' first
    | dsimp only
    | with_reducible assumption
    | intro _
    | with_reducible apply Only.enterBank (hA := List.Subset.trans (by decide) hA)
    | with_reducible apply Only.modOp (hA := List.Subset.trans (by decide) hA)
    | with_reducible apply Only.modTile (hA := List.Subset.trans (by decide) hA)
    | with_reducible apply Only.whenS
    | with_reducible apply Only.withReq
    | with_reducible refine Only.ite ?_ ?_
    | split

theorem Only.forceRound {A : List Part} {sB : State} (t : Nat) (s : State) (hA : [.sch, .tiles] ⊆ A) (h : Only A sB s) : Only A sB (Machine.forceRound t s) := by
  unfold Machine.forceRound
  repeat' first
    | dsimp only
    | with_reducible assumption
    | intro _
    | with_reducible apply Only.modSch (hA := List.Subset.trans (by decide) hA)
    | with_reducible apply Only.modTile (hA := List.Subset.trans (by decide) hA)
    | with_reducible refine Only.ite ?_ ?_
    | split

theorem Only.fxVoteResult {A : List Part} {sB : State} (id : Nat) (op : Fin 8) (verdict : Verdict) (s : State) (hA : [.notice, .tens, .sch, .reqs, .tiles, .streams, .ks, .fp, .jrn, .evPend, .pviol, .pvcnt, .out, .free] ⊆ A) (h : Only A sB s) : Only A sB (Machine.fxVoteResult id op verdict s) := by
  unfold Machine.fxVoteResult
  repeat' first
    | dsimp only
    | with_reducible assumption
    | intro _
    | with_reducible apply Only.agreeOn (hA := List.Subset.trans (by decide) hA)
    | with_reducible apply Only.eachN
    | with_reducible apply Only.endChain (hA := List.Subset.trans (by decide) hA)
    | with_reducible apply Only.forceRound (hA := List.Subset.trans (by decide) hA)
    | with_reducible apply Only.modOp (hA := List.Subset.trans (by decide) hA)
    | with_reducible apply Only.modReq (hA := List.Subset.trans (by decide) hA)
    | with_reducible apply Only.pairRecord (hA := List.Subset.trans (by decide) hA)
    | with_reducible apply Only.quarantine (hA := List.Subset.trans (by decide) hA)
    | with_reducible apply Only.settle (hA := List.Subset.trans (by decide) hA)
    | with_reducible apply Only.streamTo (hA := List.Subset.trans (by decide) hA)
    | with_reducible apply Only.whenS
    | with_reducible apply Only.withReq
    | with_reducible refine Only.ite ?_ ?_
    | split

theorem Only.writeTarget {A : List Part} {sB : State} (x : Nat) (material : Bytes) (s : State) (hA : [.ks] ⊆ A) (h : Only A sB s) : Only A sB (Machine.writeTarget x material s) := by
  unfold Machine.writeTarget
  repeat' first
    | with_reducible assumption
    | with_reducible apply Only.modSlot (hA := List.Subset.trans (by decide) hA)

theorem Only.finishOp {A : List Part} {sB : State} (id i : Nat) (e : OpEnd) (s : State) (hA : [.notice, .tens, .sch, .reqs, .tiles, .streams, .ks, .fp, .jrn, .evPend, .pviol, .pvcnt, .out] ⊆ A) (h : Only A sB s) : Only A sB (Machine.finishOp id i e s) := by
  unfold Machine.finishOp
  repeat' first
    | dsimp only
    | with_reducible assumption
    | with_reducible apply Only.modOp (hA := List.Subset.trans (by decide) hA)
    | with_reducible apply Only.parkStream (hA := List.Subset.trans (by decide) hA)
    | with_reducible apply Only.releaseOp (hA := List.Subset.trans (by decide) hA)
    | with_reducible apply Only.settle (hA := List.Subset.trans (by decide) hA)
    | with_reducible apply Only.writeTarget (hA := List.Subset.trans (by decide) hA)
    | split

theorem Only.tileChecked {A : List Part} {sB : State} (t : Nat) (ecc : Ecc) (f : State → State) (s : State) (hA : [.notice, .tens, .sch, .reqs, .tiles, .ces, .streams, .ks, .fp, .jrn, .evPend, .pviol, .pvcnt, .out, .free] ⊆ A) (h : Only A sB s) (hf : ∀ s, Only A sB s → Only A sB (f s)) : Only A sB (Machine.tileChecked t ecc f s) := by
  unfold Machine.tileChecked
  repeat' first
    | dsimp only
    | with_reducible assumption
    | intro _
    | with_reducible apply Only.tileCe (hA := List.Subset.trans (by decide) hA)
    | with_reducible apply Only.tileUe (hA := List.Subset.trans (by decide) hA)
    | with_reducible apply hf
    | with_reducible refine Only.ite ?_ ?_
    | split

theorem Only.fxPkYieldPoint {A : List Part} {sB : State} (tile : Fin 4) (left : Nat) (long : Bool) (ecc : Ecc) (s : State) (hA : [.notice, .tens, .sch, .reqs, .tiles, .ces, .streams, .ks, .fp, .jrn, .evPend, .pviol, .pvcnt, .out, .free] ⊆ A) (h : Only A sB s) : Only A sB (Machine.fxPkYieldPoint tile left long ecc s) := by
  unfold Machine.fxPkYieldPoint
  repeat' first
    | dsimp only
    | with_reducible assumption
    | intro _
    | with_reducible apply Only.keepLeft (hA := List.Subset.trans (by decide) hA)
    | with_reducible apply Only.tileChecked (hA := List.Subset.trans (by decide) hA)
    | with_reducible apply Only.whenS
    | with_reducible apply Only.yieldBank (hA := List.Subset.trans (by decide) hA)
    | with_reducible refine Only.ite ?_ ?_
    | split

theorem Only.atYield {A : List Part} {sB : State} (k t : Nat) (ecc : Ecc) (s : State) (hA : [.notice, .tens, .sch, .reqs, .tiles, .ces, .streams, .ks, .fp, .jrn, .evPend, .pviol, .pvcnt, .out, .free] ⊆ A) (h : Only A sB s) : Only A sB (Machine.atYield k t ecc s) := by
  unfold Machine.atYield
  repeat' first
    | dsimp only
    | with_reducible assumption
    | intro _
    | with_reducible apply Only.tileChecked (hA := List.Subset.trans (by decide) hA)
    | with_reducible apply Only.whenS
    | with_reducible apply Only.yieldTile (hA := List.Subset.trans (by decide) hA)
    | with_reducible refine Only.ite ?_ ?_
    | split

theorem Only.fxDigestSliceBoundary {A : List Part} {sB : State} (tile : Fin 4) (ecc : Ecc) (s : State) (hA : [.notice, .tens, .sch, .reqs, .tiles, .ces, .streams, .ks, .fp, .jrn, .evPend, .pviol, .pvcnt, .out, .free] ⊆ A) (h : Only A sB s) : Only A sB (Machine.fxDigestSliceBoundary tile ecc s) := by
  unfold Machine.fxDigestSliceBoundary
  repeat' first
    | dsimp only
    | with_reducible assumption
    | intro _
    | with_reducible apply Only.atYield (hA := List.Subset.trans (by decide) hA)
    | with_reducible refine Only.ite ?_ ?_
    | split

theorem Only.fxCipherYieldPoint {A : List Part} {sB : State} (tile : Fin 16) (ecc : Ecc) (s : State) (hA : [.notice, .tens, .sch, .reqs, .tiles, .ces, .streams, .ks, .fp, .jrn, .evPend, .pviol, .pvcnt, .out, .free] ⊆ A) (h : Only A sB s) : Only A sB (Machine.fxCipherYieldPoint tile ecc s) := by
  unfold Machine.fxCipherYieldPoint
  repeat' first
    | dsimp only
    | with_reducible assumption
    | intro _
    | with_reducible apply Only.atYield (hA := List.Subset.trans (by decide) hA)
    | with_reducible refine Only.ite ?_ ?_
    | split

theorem Only.resultFails {A : List Part} {sB : State} (r : Req) (t : Nat) (meets : Bool) (s : State) (hA : [.notice, .tens, .sch, .reqs, .tiles, .streams, .ks, .fp, .jrn, .evPend, .pviol, .pvcnt, .out, .free] ⊆ A) (h : Only A sB s) : Only A sB (Machine.resultFails r t meets s) := by
  unfold Machine.resultFails
  repeat' first
    | dsimp only
    | with_reducible assumption
    | intro _
    | with_reducible apply Only.endChain (hA := List.Subset.trans (by decide) hA)
    | with_reducible apply Only.quarantine (hA := List.Subset.trans (by decide) hA)
    | with_reducible refine Only.ite ?_ ?_
    | split

theorem Only.endOp {A : List Part} {sB : State} (id i : Nat) (s : State) (hA : [.notice, .tens, .sch, .reqs, .tiles, .streams, .ks, .fp, .jrn, .evPend, .pviol, .pvcnt, .out] ⊆ A) (h : Only A sB s) : Only A sB (Machine.endOp id i s) := by
  unfold Machine.endOp
  repeat' first
    | dsimp only
    | with_reducible assumption
    | intro _
    | with_reducible apply Only.endChain (hA := List.Subset.trans (by decide) hA)
    | with_reducible apply Only.finishOp (hA := List.Subset.trans (by decide) hA)
    | with_reducible apply Only.modOp (hA := List.Subset.trans (by decide) hA)
    | with_reducible refine Only.ite ?_ ?_
    | split

theorem Only.stagingUe {A : List Part} {sB : State} (r : Req) (i : Nat) (s : State) (hA : [.notice, .tens, .sch, .reqs, .tiles, .streams, .ks, .fp, .jrn, .evPend, .pviol, .pvcnt, .out, .free] ⊆ A) (h : Only A sB s) : Only A sB (Machine.stagingUe r i s) := by
  unfold Machine.stagingUe
  repeat' first
    | dsimp only
    | with_reducible assumption
    | intro _
    | with_reducible apply Only.endChain (hA := List.Subset.trans (by decide) hA)
    | with_reducible apply Only.settle (hA := List.Subset.trans (by decide) hA)
    | with_reducible apply Only.rerunOp (hA := List.Subset.trans (by decide) hA)
    | with_reducible apply Only.raiseG (hA := List.Subset.trans (by decide) hA)
    | with_reducible apply Only.journalUe (hA := List.Subset.trans (by decide) hA)
    | with_reducible apply Only.eachN
    | with_reducible refine Only.ite ?_ ?_

theorem Only.checkPair {A : List Part} {sB : State} (ts : List Nat) (ecc second : Ecc) (f : State → State) (s : State) (hA : [.notice, .tens, .sch, .reqs, .tiles, .ces, .streams, .ks, .fp, .jrn, .evPend, .pviol, .pvcnt, .out, .free] ⊆ A) (h : Only A sB s) (hf : ∀ s, Only A sB s → Only A sB (f s)) : Only A sB (Machine.checkPair ts ecc second f s) := by
  unfold Machine.checkPair
  repeat' first
    | dsimp only
    | with_reducible assumption
    | intro _
    | with_reducible apply Only.tileCe (hA := List.Subset.trans (by decide) hA)
    | with_reducible apply Only.tileChecked (hA := List.Subset.trans (by decide) hA)
    | with_reducible apply Only.tileUe (hA := List.Subset.trans (by decide) hA)
    | with_reducible apply hf
    | with_reducible refine Only.ite ?_ ?_
    | split

theorem Only.opEnds {A : List Part} {sB : State} (r : Req) (i : Nat) (resultOk : Bool) (ecc : Ecc) (meets : Bool) (staging second : Ecc) (s : State) (hA : [.notice, .tens, .sch, .reqs, .tiles, .ces, .streams, .ks, .fp, .jrn, .evPend, .pviol, .pvcnt, .out, .free] ⊆ A) (h : Only A sB s) : Only A sB (Machine.opEnds r i resultOk ecc meets staging second s) := by
  unfold Machine.opEnds
  repeat' first
    | dsimp only
    | with_reducible assumption
    | intro _
    | with_reducible apply Only.checkPair (hA := List.Subset.trans (by decide) hA)
    | with_reducible apply Only.countCe (hA := List.Subset.trans (by decide) hA)
    | with_reducible apply Only.endOp (hA := List.Subset.trans (by decide) hA)
    | with_reducible apply Only.hashDone (hA := List.Subset.trans (by decide) hA)
    | with_reducible apply Only.resultFails (hA := List.Subset.trans (by decide) hA)
    | with_reducible apply Only.stagingUe (hA := List.Subset.trans (by decide) hA)
    | with_reducible apply Only.tileChecked (hA := List.Subset.trans (by decide) hA)
    | with_reducible apply Only.whenS
    | with_reducible refine Only.ite ?_ ?_
    | split

theorem Only.groutRound {A : List Part} {sB : State} (t : Nat) (s : State) (hA : [.tiles] ⊆ A) (h : Only A sB s) : Only A sB (Machine.groutRound t s) := by
  unfold Machine.groutRound
  repeat' first
    | dsimp only
    | with_reducible assumption
    | intro _
    | with_reducible apply Only.modTile (hA := List.Subset.trans (by decide) hA)
    | with_reducible refine Only.ite ?_ ?_
    | split

theorem Only.fxGroutStep {A : List Part} {sB : State} (t : TileIx) (result : GroutResult) (s : State) (hA : [.notice, .tens, .sch, .reqs, .tiles, .streams, .ks, .fp, .jrn, .evPend, .pviol, .pvcnt, .out, .free] ⊆ A) (h : Only A sB s) : Only A sB (Machine.fxGroutStep t result s) := by
  unfold Machine.fxGroutStep
  repeat' first
    | with_reducible assumption
    | intro _
    | with_reducible apply Only.groutRound (hA := List.Subset.trans (by decide) hA)
    | with_reducible apply Only.journal (hA := List.Subset.trans (by decide) hA)
    | with_reducible apply Only.quarantine (hA := List.Subset.trans (by decide) hA)
    | with_reducible apply Only.raiseG (hA := List.Subset.trans (by decide) hA)
    | with_reducible apply Only.whenS
    | split

theorem Only.fxGroutForce {A : List Part} {sB : State} (t : TileIx) (s : State) (hA : [.sch, .tiles] ⊆ A) (h : Only A sB s) : Only A sB (Machine.fxGroutForce t s) := by
  unfold Machine.fxGroutForce
  repeat' first
    | dsimp only
    | with_reducible assumption
    | intro _
    | with_reducible apply Only.forceRound (hA := List.Subset.trans (by decide) hA)
    | with_reducible apply Only.whenS
    | with_reducible refine Only.ite ?_ ?_
    | split

theorem Only.tileRejoin {A : List Part} {sB : State} (t : Nat) (s : State) (hA : [.tiles] ⊆ A) (h : Only A sB s) : Only A sB (Machine.tileRejoin t s) := by
  unfold Machine.tileRejoin
  repeat' first
    | with_reducible assumption
    | intro _
    | with_reducible apply Only.modTile (hA := List.Subset.trans (by decide) hA)
    | with_reducible refine Only.ite ?_ ?_

theorem Only.fxTileRejoin {A : List Part} {sB : State} (who : Who) (t : TileIx) (s : State) (hA : [.denied, .notice, .tiles, .jrn, .evPend, .pviol, .pvcnt, .out] ⊆ A) (h : Only A sB s) : Only A sB (Machine.fxTileRejoin who t s) := by
  unfold Machine.fxTileRejoin
  repeat' first
    | with_reducible assumption
    | intro _
    | with_reducible apply Only.gateW (hA := List.Subset.trans (by decide) hA)
    | with_reducible apply Only.tileRejoin (hA := List.Subset.trans (by decide) hA)

theorem Only.csRejoin {A : List Part} {sB : State} (c : Nat) (s : State) (hA : [.css] ⊆ A) (h : Only A sB s) : Only A sB (Machine.csRejoin c s) := by
  unfold Machine.csRejoin
  repeat' first
    | with_reducible assumption
    | intro _
    | with_reducible apply Only.setCs (hA := List.Subset.trans (by decide) hA)
    | with_reducible refine Only.ite ?_ ?_

theorem Only.fxCsRejoin {A : List Part} {sB : State} (who : Who) (c : CsIx) (s : State) (hA : [.denied, .notice, .css, .jrn, .evPend, .pviol, .pvcnt, .out] ⊆ A) (h : Only A sB s) : Only A sB (Machine.fxCsRejoin who c s) := by
  unfold Machine.fxCsRejoin
  repeat' first
    | with_reducible assumption
    | intro _
    | with_reducible apply Only.csRejoin (hA := List.Subset.trans (by decide) hA)
    | with_reducible apply Only.gateW (hA := List.Subset.trans (by decide) hA)

theorem Only.rejoinTile {A : List Part} {sB : State} (t : Nat) (pass : Bool) (s : State) (hA : [.tiles, .evPend] ⊆ A) (h : Only A sB s) : Only A sB (Machine.rejoinTile t pass s) := by
  unfold Machine.rejoinTile
  repeat' first
    | dsimp only
    | with_reducible assumption
    | intro _
    | with_reducible apply Only.modTile (hA := List.Subset.trans (by decide) hA)
    | with_reducible apply Only.raiseG (hA := List.Subset.trans (by decide) hA)
    | with_reducible refine Only.ite ?_ ?_
    | split

theorem Only.fxRejoinTestDone {A : List Part} {sB : State} (unit : RejoinUnit) (pass : Bool) (s : State) (hA : [.notice, .tiles, .css, .jrn, .evPend, .pviol, .pvcnt, .out] ⊆ A) (h : Only A sB s) : Only A sB (Machine.fxRejoinTestDone unit pass s) := by
  unfold Machine.fxRejoinTestDone
  repeat' first
    | with_reducible assumption
    | intro _
    | with_reducible apply Only.journal (hA := List.Subset.trans (by decide) hA)
    | with_reducible apply Only.rejoinTile (hA := List.Subset.trans (by decide) hA)
    | with_reducible apply Only.setCs (hA := List.Subset.trans (by decide) hA)
    | with_reducible apply Only.whenS
    | split

theorem Only.fxTileWatchdog {A : List Part} {sB : State} (t : TileIx) (both : Bool) (s : State) (hA : [.notice, .tens, .sch, .reqs, .tiles, .streams, .ks, .fp, .jrn, .evPend, .pviol, .pvcnt, .out, .free] ⊆ A) (h : Only A sB s) : Only A sB (Machine.fxTileWatchdog t both s) := by
  unfold Machine.fxTileWatchdog
  repeat' first
    | dsimp only
    | with_reducible assumption
    | intro _
    | with_reducible apply Only.eachN
    | with_reducible apply Only.quarantine (hA := List.Subset.trans (by decide) hA)
    | with_reducible apply Only.whenS
    | with_reducible refine Only.ite ?_ ?_
    | split

theorem Only.csFails {A : List Part} {sB : State} (c : Nat) (s : State) (hA : [.notice, .reqs, .css, .jrn, .evPend, .pviol, .pvcnt, .out] ⊆ A) (h : Only A sB s) : Only A sB (Machine.csFails c s) := by
  unfold Machine.csFails
  repeat' first
    | dsimp only
    | with_reducible assumption
    | intro _
    | with_reducible apply Only.journal (hA := List.Subset.trans (by decide) hA)
    | with_reducible apply Only.modReq (hA := List.Subset.trans (by decide) hA)
    | with_reducible apply Only.raiseG (hA := List.Subset.trans (by decide) hA)
    | with_reducible apply Only.setCs (hA := List.Subset.trans (by decide) hA)
    | with_reducible apply Only.whenS
    | with_reducible apply Only.foldl
    | with_reducible refine Only.ite ?_ ?_
    | split

theorem Only.fxCsWatchdog {A : List Part} {sB : State} (c : CsIx) (error : CsError) (s : State) (hA : [.notice, .reqs, .css, .jrn, .evPend, .pviol, .pvcnt, .out] ⊆ A) (h : Only A sB s) : Only A sB (Machine.fxCsWatchdog c error s) := by
  unfold Machine.fxCsWatchdog
  repeat' first
    | dsimp only
    | with_reducible assumption
    | intro _
    | with_reducible apply Only.csFails (hA := List.Subset.trans (by decide) hA)
    | with_reducible apply Only.journalUe (hA := List.Subset.trans (by decide) hA)
    | with_reducible apply Only.raiseG (hA := List.Subset.trans (by decide) hA)
    | with_reducible apply Only.whenS
    | with_reducible refine Only.ite ?_ ?_
    | split

theorem Only.unforward {A : List Part} {sB : State} (id : Nat) (s : State) (hA : [.reqs, .crs] ⊆ A) (h : Only A sB s) : Only A sB (Machine.unforward id s) := by
  unfold Machine.unforward
  repeat' first
    | dsimp only
    | with_reducible assumption
    | with_reducible apply Only.modCrs (hA := List.Subset.trans (by decide) hA)
    | with_reducible apply Only.modReq (hA := List.Subset.trans (by decide) hA)

theorem Only.stopReq {A : List Part} {sB : State} (id : Nat) (o : Outcome) (s : State) (hA : [.tens, .sch, .reqs, .tiles, .streams, .ks, .fp, .evPend, .pviol, .pvcnt, .crs, .out] ⊆ A) (h : Only A sB s) : Only A sB (Machine.stopReq id o s) := by
  unfold Machine.stopReq
  repeat' first
    | dsimp only
    | with_reducible assumption
    | with_reducible apply Only.endChain (hA := List.Subset.trans (by decide) hA)
    | with_reducible apply Only.sendFrame (hA := List.Subset.trans (by decide) hA)
    | with_reducible apply Only.unforward (hA := List.Subset.trans (by decide) hA)
    | split

theorem Only.fxRequestWatchdog {A : List Part} {sB : State} (id : Nat) (s : State) (hA : [.notice, .tens, .sch, .reqs, .tiles, .streams, .ks, .fp, .jrn, .evPend, .pviol, .pvcnt, .crs, .out] ⊆ A) (h : Only A sB s) : Only A sB (Machine.fxRequestWatchdog id s) := by
  unfold Machine.fxRequestWatchdog
  repeat' first
    | dsimp only
    | with_reducible assumption
    | intro _
    | with_reducible apply Only.journal (hA := List.Subset.trans (by decide) hA)
    | with_reducible apply Only.raiseT (hA := List.Subset.trans (by decide) hA)
    | with_reducible apply Only.stopReq (hA := List.Subset.trans (by decide) hA)
    | with_reducible apply Only.whenS
    | with_reducible apply Only.withReq

end Sys2Proof.Machine
end

