-- ==== Sys2Proof/Laws/FrameCompletion.lean ====
section
/-!
SUPPORT. Frames of the operations of Machine/Completion.lean: the parts of the state that each may change.
-/

set_option Elab.async false

namespace Sys2Proof.Machine

theorem Only.ledgerRecord {A : List Part} {sB : State} (n : Nat) (flushed : Bool) (s : State) (hA : [.tens] ⊆ A) (h : Only A sB s) : Only A sB (Machine.ledgerRecord n flushed s) := by
  unfold Machine.ledgerRecord
  repeat' first
    | dsimp only
    | with_reducible assumption
    | with_reducible apply Only.modTen (hA := List.Subset.trans (by decide) hA)

theorem Only.notify {A : List Part} {sB : State} (n m : Nat) (s : State) (hA : [.tens, .cqs] ⊆ A) (h : Only A sB s) : Only A sB (Machine.notify n m s) := by
  unfold Machine.notify
  repeat' first
    | with_reducible assumption
    | with_reducible apply Only.modCq (hA := List.Subset.trans (by decide) hA)
    | with_reducible apply Only.raiseT (hA := List.Subset.trans (by decide) hA)

theorem Only.coalesce {A : List Part} {sB : State} (n m : Nat) (s : State) (hA : [.tens, .cqs] ⊆ A) (h : Only A sB s) : Only A sB (Machine.coalesce n m s) := by
  unfold Machine.coalesce
  repeat' first
    | dsimp only
    | with_reducible assumption
    | intro _
    | with_reducible apply Only.modCq (hA := List.Subset.trans (by decide) hA)
    | with_reducible apply Only.notify (hA := List.Subset.trans (by decide) hA)
    | with_reducible refine Only.ite ?_ ?_
    | split

theorem Only.cqFault {A : List Part} {sB : State} (n m addr kind cause : Nat) (s : State) (hA : [.tens, .cqs] ⊆ A) (h : Only A sB s) : Only A sB (Machine.cqFault n m addr kind cause s) := by
  unfold Machine.cqFault
  repeat' first
    | with_reducible assumption
    | with_reducible apply Only.modCq (hA := List.Subset.trans (by decide) hA)
    | with_reducible apply Only.raiseT (hA := List.Subset.trans (by decide) hA)

theorem Only.recViol {A : List Part} {sB : State} (r : Req) (addr cause : Nat) (s : State) (hA : [.tens, .evPend, .pviol, .pvcnt] ⊆ A) (h : Only A sB s) : Only A sB (Machine.recViol r addr cause s) := by
  unfold Machine.recViol
  repeat' first
    | with_reducible assumption
    | with_reducible apply Only.viol (hA := List.Subset.trans (by decide) hA)

theorem Only.noteLeft {A : List Part} {sB : State} (r : Req) (s : State) (hA : [.tens, .boot] ⊆ A) (h : Only A sB s) : Only A sB (Machine.noteLeft r s) := by
  unfold Machine.noteLeft
  repeat' first
    | dsimp only
    | with_reducible assumption
    | intro _
    | with_reducible apply Only.modBoot (hA := List.Subset.trans (by decide) hA)
    | with_reducible apply Only.modTen (hA := List.Subset.trans (by decide) hA)
    | with_reducible refine Only.ite ?_ ?_
    | split

theorem Only.trimSent {A : List Part} {sB : State} (n m : Nat) (s : State) (hA : [.sent] ⊆ A) (h : Only A sB s) : Only A sB (Machine.trimSent n m s) := by
  unfold Machine.trimSent
  repeat' first
    | dsimp only
    | with_reducible assumption
    | intro _
    | with_reducible apply Only.modSent (hA := List.Subset.trans (by decide) hA)
    | with_reducible refine Only.ite ?_ ?_
    | split

theorem Only.recordDone {A : List Part} {sB : State} (r : Req) (addr : Nat) (b : Bytes) (s : State) (hA : [.tens, .cqs, .reqs, .sent, .ks, .boot, .out] ⊆ A) (h : Only A sB s) : Only A sB (Machine.recordDone r addr b s) := by
  unfold Machine.recordDone
  repeat' first
    | dsimp only
    | with_reducible assumption
    | intro _
    | with_reducible apply Only.coalesce (hA := List.Subset.trans (by decide) hA)
    | with_reducible apply Only.emitRecord (hA := List.Subset.trans (by decide) hA)
    | with_reducible apply Only.ledgerRecord (hA := List.Subset.trans (by decide) hA)
    | with_reducible apply Only.modCq (hA := List.Subset.trans (by decide) hA)
    | with_reducible apply Only.modSent (hA := List.Subset.trans (by decide) hA)
    | with_reducible apply Only.noteLeft (hA := List.Subset.trans (by decide) hA)
    | with_reducible apply Only.retireReq (hA := List.Subset.trans (by decide) hA)
    | with_reducible apply Only.trimSent (hA := List.Subset.trans (by decide) hA)
    | with_reducible apply Only.unstall (hA := List.Subset.trans (by decide) hA)
    | with_reducible refine Only.ite ?_ ?_
    | split

theorem Only.putRecord {A : List Part} {sB : State} (r : Req) (rescued : Bool) (b : Bytes) (s : State) (hA : [.tens, .cqs, .reqs, .sent, .ks, .evPend, .pviol, .pvcnt, .boot, .out] ⊆ A) (h : Only A sB s) : Only A sB (Machine.putRecord r rescued b s).1 := by
  unfold Machine.putRecord
  repeat' first
    | dsimp only
    | with_reducible assumption
    | with_reducible apply Only.cqFault (hA := List.Subset.trans (by decide) hA)
    | with_reducible apply Only.recViol (hA := List.Subset.trans (by decide) hA)
    | with_reducible apply Only.recordDone (hA := List.Subset.trans (by decide) hA)
    | split

theorem Only.putRecord_eq {A : List Part} {sB : State} {r : Req} {rescued : Bool} {b : Bytes} {s : State} {y : Bool} {t : State} (hA : [.tens, .cqs, .reqs, .sent, .ks, .evPend, .pviol, .pvcnt, .boot, .out] ⊆ A) (e : Machine.putRecord r rescued b s = (t, y)) (h : Only A sB s) : Only A sB t := by
  have := Only.putRecord r rescued b s hA h
  rwa [e] at this

theorem Only.rescueFaultRecord {A : List Part} {sB : State} (n m : Nat) (copy : Bool) (addr : Nat) (s : State) (hA : [.notice, .jrn, .evPend, .pviol, .pvcnt, .out] ⊆ A) (h : Only A sB s) : Only A sB (Machine.rescueFaultRecord n m copy addr s) := by
  unfold Machine.rescueFaultRecord
  repeat' first
    | with_reducible assumption
    | with_reducible apply Only.journal (hA := List.Subset.trans (by decide) hA)
    | with_reducible apply Only.raiseG (hA := List.Subset.trans (by decide) hA)

theorem Only.rescue {A : List Part} {sB : State} (r : Req) (b : Bytes) (s : State) (hA : [.notice, .cqs, .reqs, .jrn, .evPend, .pviol, .pvcnt, .out] ⊆ A) (h : Only A sB s) : Only A sB (Machine.rescue r b s) := by
  unfold Machine.rescue
  repeat' first
    | dsimp only
    | with_reducible assumption
    | intro _
    | with_reducible apply Only.emitRecord (hA := List.Subset.trans (by decide) hA)
    | with_reducible apply Only.modCq (hA := List.Subset.trans (by decide) hA)
    | with_reducible apply Only.modReq (hA := List.Subset.trans (by decide) hA)
    | with_reducible apply Only.rescueFaultRecord (hA := List.Subset.trans (by decide) hA)
    | with_reducible apply Only.unstall (hA := List.Subset.trans (by decide) hA)
    | with_reducible apply Only.violP (hA := List.Subset.trans (by decide) hA)
    | with_reducible refine Only.ite ?_ ?_
    | split

theorem Only.deliver {A : List Part} {sB : State} (r : Req) (b : Bytes) (s : State) (hA : [.notice, .tens, .cqs, .reqs, .sent, .ks, .jrn, .evPend, .pviol, .pvcnt, .boot, .out] ⊆ A) (h : Only A sB s) : Only A sB (Machine.deliver r b s) := by
  unfold Machine.deliver
  repeat' first
    | dsimp only
    | with_reducible assumption
    | intro _
    | with_reducible apply Only.rescue (hA := List.Subset.trans (by decide) hA)
    | with_reducible refine Only.putRecord_eq (hA := List.Subset.trans (by decide) hA) (by assumption) ?_
    | with_reducible apply Only.putRecord (hA := List.Subset.trans (by decide) hA)
    | with_reducible refine Only.ite ?_ ?_
    | split

theorem Only.startCopy {A : List Part} {sB : State} (n m : Nat) (x : Nat) (s : State) (hA : [.notice, .tens, .cqs, .reqs, .sent, .ks, .jrn, .evPend, .pviol, .pvcnt, .boot, .out] ⊆ A) (h : Only A sB s) : Only A sB (Machine.startCopy n m x s) := by
  induction x generalizing s with
  | zero => exact h
  | succ l ih =>
    unfold Machine.startCopy
    repeat' first
      | dsimp only
      | with_reducible assumption
      | intro _
      | with_reducible apply Only.cqFault (hA := List.Subset.trans (by decide) hA)
      | with_reducible apply Only.emitRd (hA := List.Subset.trans (by decide) hA)
      | with_reducible apply Only.modCq (hA := List.Subset.trans (by decide) hA)
      | with_reducible refine Only.putRecord_eq (hA := List.Subset.trans (by decide) hA) (by assumption) ?_
      | with_reducible apply Only.putRecord (hA := List.Subset.trans (by decide) hA)
      | with_reducible apply Only.rescueFaultRecord (hA := List.Subset.trans (by decide) hA)
      | with_reducible apply Only.violP (hA := List.Subset.trans (by decide) hA)
      | with_reducible refine Only.ite ?_ ?_
      | split
      | with_reducible apply ih

theorem Only.startCopies {A : List Part} {sB : State} (n m : Nat) (s : State) (hA : [.notice, .tens, .cqs, .reqs, .sent, .ks, .jrn, .evPend, .pviol, .pvcnt, .boot, .out] ⊆ A) (h : Only A sB s) : Only A sB (Machine.startCopies n m s) := by
  unfold Machine.startCopies
  repeat' first
    | with_reducible assumption
    | with_reducible apply Only.startCopy (hA := List.Subset.trans (by decide) hA)

theorem Only.busErrorOf {A : List Part} {sB : State} (t : Option TenantIx) (addr : Nat) (d : Dir) (port kind number tag gen : Nat) (s : State) (hA : [.notice, .tens, .jrn, .evPend, .buserr, .becnt, .pviol, .pvcnt, .out] ⊆ A) (h : Only A sB s) : Only A sB (Machine.busErrorOf t addr d port kind number tag gen s) := by
  unfold Machine.busErrorOf
  repeat' first
    | dsimp only
    | with_reducible assumption
    | intro _
    | with_reducible apply Only.journal (hA := List.Subset.trans (by decide) hA)
    | with_reducible apply Only.modBecnt (hA := List.Subset.trans (by decide) hA)
    | with_reducible apply Only.modBuserr (hA := List.Subset.trans (by decide) hA)
    | with_reducible apply Only.modTen (hA := List.Subset.trans (by decide) hA)
    | with_reducible apply Only.raiseG (hA := List.Subset.trans (by decide) hA)
    | with_reducible apply Only.raiseT (hA := List.Subset.trans (by decide) hA)
    | with_reducible refine Only.ite ?_ ?_
    | split

theorem Only.fenceError {A : List Part} {sB : State} (r : Req) (addr port : Nat) (s : State) (hA : [.notice, .tens, .reqs, .jrn, .evPend, .buserr, .becnt, .pviol, .pvcnt, .out] ⊆ A) (h : Only A sB s) : Only A sB (Machine.fenceError r addr port s) := by
  unfold Machine.fenceError
  repeat' first
    | dsimp only
    | with_reducible assumption
    | intro _
    | with_reducible apply Only.busErrorOf (hA := List.Subset.trans (by decide) hA)
    | with_reducible apply Only.modReq (hA := List.Subset.trans (by decide) hA)
    | with_reducible refine Only.ite ?_ ?_
    | split

theorem Only.frameReadback {A : List Part} {sB : State} (r : Req) (b : Nat) (resp : Resp) (s : State) (hA : [.notice, .tens, .reqs, .jrn, .evPend, .buserr, .becnt, .pviol, .pvcnt, .out] ⊆ A) (h : Only A sB s) : Only A sB (Machine.frameReadback r b resp s) := by
  unfold Machine.frameReadback
  repeat' first
    | dsimp only
    | with_reducible assumption
    | intro _
    | with_reducible apply Only.fenceError (hA := List.Subset.trans (by decide) hA)
    | with_reducible apply Only.modBuf (hA := List.Subset.trans (by decide) hA)
    | with_reducible apply Only.whenS
    | with_reducible refine Only.ite ?_ ?_
    | split

theorem Only.portReadback {A : List Part} {sB : State} (r : Req) (port : Bool) (resp : Resp) (s : State) (hA : [.notice, .tens, .reqs, .jrn, .evPend, .buserr, .becnt, .pviol, .pvcnt, .out] ⊆ A) (h : Only A sB s) : Only A sB (Machine.portReadback r port resp s) := by
  unfold Machine.portReadback
  repeat' first
    | dsimp only
    | with_reducible assumption
    | intro _
    | with_reducible apply Only.fenceError (hA := List.Subset.trans (by decide) hA)
    | with_reducible apply Only.modReq (hA := List.Subset.trans (by decide) hA)
    | with_reducible refine Only.ite ?_ ?_
    | split

theorem Only.fxFenceReadbackReturn {A : List Part} {sB : State} (id : Nat) (port : Bool) (resp : Resp) (frame : Option (Fin 8)) (s : State) (hA : [.notice, .tens, .reqs, .jrn, .evPend, .buserr, .becnt, .pviol, .pvcnt, .out] ⊆ A) (h : Only A sB s) : Only A sB (Machine.fxFenceReadbackReturn id port resp frame s) := by
  unfold Machine.fxFenceReadbackReturn
  repeat' first
    | dsimp only
    | with_reducible assumption
    | intro _
    | with_reducible apply Only.frameReadback (hA := List.Subset.trans (by decide) hA)
    | with_reducible apply Only.portReadback (hA := List.Subset.trans (by decide) hA)
    | with_reducible apply Only.whenS
    | with_reducible apply Only.withReq
    | with_reducible refine Only.ite ?_ ?_
    | split

theorem Only.fxRescueCopy {A : List Part} {sB : State} (n : TenantIx) (m : RingIx) (resp : Resp) (s : State) (hA : [.notice, .tens, .cqs, .reqs, .sent, .ks, .jrn, .evPend, .buserr, .becnt, .pviol, .pvcnt, .boot, .out] ⊆ A) (h : Only A sB s) : Only A sB (Machine.fxRescueCopy n m resp s) := by
  unfold Machine.fxRescueCopy
  repeat' first
    | dsimp only
    | with_reducible assumption
    | intro _
    | with_reducible apply Only.busErrorOf (hA := List.Subset.trans (by decide) hA)
    | with_reducible apply Only.cqFault (hA := List.Subset.trans (by decide) hA)
    | with_reducible apply Only.modCq (hA := List.Subset.trans (by decide) hA)
    | with_reducible refine Only.putRecord_eq (hA := List.Subset.trans (by decide) hA) (by assumption) ?_
    | with_reducible apply Only.putRecord (hA := List.Subset.trans (by decide) hA)
    | with_reducible apply Only.rescueFaultRecord (hA := List.Subset.trans (by decide) hA)
    | with_reducible apply Only.startCopies (hA := List.Subset.trans (by decide) hA)
    | with_reducible apply Only.whenS
    | with_reducible apply Only.withReq
    | with_reducible refine Only.ite ?_ ?_
    | split

theorem Only.cqFaultClear {A : List Part} {sB : State} (n m : Nat) (s : State) (hA : [.notice, .tens, .cqs, .reqs, .sent, .ks, .jrn, .evPend, .pviol, .pvcnt, .boot, .out] ⊆ A) (h : Only A sB s) : Only A sB (Machine.cqFaultClear n m s) := by
  unfold Machine.cqFaultClear
  repeat' first
    | with_reducible assumption
    | intro _
    | with_reducible apply Only.modCq (hA := List.Subset.trans (by decide) hA)
    | with_reducible apply Only.startCopies (hA := List.Subset.trans (by decide) hA)
    | with_reducible refine Only.ite ?_ ?_

theorem Only.fxCqFaultClear {A : List Part} {sB : State} (who : Who) (n : TenantIx) (m : RingIx) (s : State) (hA : [.denied, .notice, .tens, .cqs, .reqs, .sent, .ks, .jrn, .evPend, .pviol, .pvcnt, .boot, .out] ⊆ A) (h : Only A sB s) : Only A sB (Machine.fxCqFaultClear who n m s) := by
  unfold Machine.fxCqFaultClear
  repeat' first
    | with_reducible assumption
    | intro _
    | with_reducible apply Only.cqFaultClear (hA := List.Subset.trans (by decide) hA)
    | with_reducible apply Only.gateW (hA := List.Subset.trans (by decide) hA)

theorem Only.bootRecord {A : List Part} {sB : State} (index : Nat) (b : Bytes) (s : State) (hA : [.evPend, .pviol, .pvcnt, .boot, .out] ⊆ A) (h : Only A sB s) : Only A sB (Machine.bootRecord index b s) := by
  unfold Machine.bootRecord
  repeat' first
    | dsimp only
    | with_reducible assumption
    | with_reducible apply Only.emitRecord (hA := List.Subset.trans (by decide) hA)
    | with_reducible apply Only.modBoot (hA := List.Subset.trans (by decide) hA)
    | with_reducible apply Only.violP (hA := List.Subset.trans (by decide) hA)
    | split

theorem Only.bootSettle {A : List Part} {sB : State} (s : State) (hA : [.boot] ⊆ A) (h : Only A sB s) : Only A sB (Machine.bootSettle s) := by
  unfold Machine.bootSettle
  repeat' first
    | with_reducible assumption
    | intro _
    | with_reducible apply Only.modBoot (hA := List.Subset.trans (by decide) hA)
    | with_reducible refine Only.ite ?_ ?_

theorem Only.giveCredit {A : List Part} {sB : State} (peer number : Nat) (s : State) (hA : [.crs, .out] ⊆ A) (h : Only A sB s) : Only A sB (Machine.giveCredit peer number s) := by
  unfold Machine.giveCredit
  repeat' first
    | dsimp only
    | with_reducible assumption
    | intro _
    | with_reducible apply Only.modPeer (hA := List.Subset.trans (by decide) hA)
    | with_reducible apply Only.sendFrame (hA := List.Subset.trans (by decide) hA)
    | with_reducible refine Only.ite ?_ ?_
    | split

theorem Only.sendResult {A : List Part} {sB : State} (peer number : Nat) (r : Req) (o : Outcome) (s : State) (hA : [.crs, .out] ⊆ A) (h : Only A sB s) : Only A sB (Machine.sendResult peer number r o s) := by
  unfold Machine.sendResult
  repeat' first
    | dsimp only
    | with_reducible assumption
    | intro _
    | with_reducible apply Only.giveCredit (hA := List.Subset.trans (by decide) hA)
    | with_reducible apply Only.modCrs (hA := List.Subset.trans (by decide) hA)
    | with_reducible apply Only.sendLong (hA := List.Subset.trans (by decide) hA)
    | with_reducible refine Only.ite ?_ ?_
    | split

theorem Only.countLate {A : List Part} {sB : State} (r : Req) (s : State) (hA : [.tens, .sqs] ⊆ A) (h : Only A sB s) : Only A sB (Machine.countLate r s) := by
  unfold Machine.countLate
  repeat' first
    | with_reducible assumption
    | with_reducible apply Only.modSq (hA := List.Subset.trans (by decide) hA)
    | with_reducible apply Only.raiseT (hA := List.Subset.trans (by decide) hA)

theorem Only.scrubContext {A : List Part} {sB : State} (id : Nat) (s : State) (hA : [.reqs] ⊆ A) (h : Only A sB s) : Only A sB (Machine.scrubContext id s) := by
  unfold Machine.scrubContext
  repeat' first
    | dsimp only
    | with_reducible assumption
    | intro _
    | with_reducible apply Only.modReq (hA := List.Subset.trans (by decide) hA)
    | with_reducible refine Only.ite ?_ ?_
    | split

theorem Only.countSupply {A : List Part} {sB : State} (s : State) (hA : [.sup] ⊆ A) (h : Only A sB s) : Only A sB (Machine.countSupply s) := by
  unfold Machine.countSupply
  repeat' first
    | with_reducible assumption
    | with_reducible apply Only.modSup (hA := List.Subset.trans (by decide) hA)

theorem Only.recordCounts {A : List Part} {sB : State} (id : Nat) (ecc : Ecc) (r : Req) (o : Outcome) (s : State) (hA : [.notice, .tens, .sqs, .reqs, .ces, .sup, .jrn, .evPend, .pviol, .pvcnt, .out] ⊆ A) (h : Only A sB s) : Only A sB (Machine.recordCounts id ecc r o s) := by
  unfold Machine.recordCounts
  repeat' first
    | dsimp only
    | with_reducible assumption
    | intro _
    | with_reducible apply Only.countLate (hA := List.Subset.trans (by decide) hA)
    | with_reducible apply Only.countSupply (hA := List.Subset.trans (by decide) hA)
    | with_reducible apply Only.memCheck (hA := List.Subset.trans (by decide) hA)
    | with_reducible apply Only.scrubContext (hA := List.Subset.trans (by decide) hA)
    | with_reducible refine Only.ite ?_ ?_
    | split

theorem Only.fxCompletionRecordWrite {A : List Part} {sB : State} (id : Nat) (ecc : Ecc) (s : State) (hA : [.notice, .tens, .sqs, .cqs, .sch, .reqs, .sent, .ces, .ks, .sup, .jrn, .evPend, .pviol, .pvcnt, .crs, .boot, .out] ⊆ A) (h : Only A sB s) : Only A sB (Machine.fxCompletionRecordWrite id ecc s) := by
  unfold Machine.fxCompletionRecordWrite
  repeat' first
    | dsimp only
    | with_reducible assumption
    | intro _
    | with_reducible apply Only.bootRecord (hA := List.Subset.trans (by decide) hA)
    | with_reducible apply Only.bootSettle (hA := List.Subset.trans (by decide) hA)
    | with_reducible apply Only.deliver (hA := List.Subset.trans (by decide) hA)
    | with_reducible apply Only.modReq (hA := List.Subset.trans (by decide) hA)
    | with_reducible apply Only.modSch (hA := List.Subset.trans (by decide) hA)
    | with_reducible apply Only.noteLeft (hA := List.Subset.trans (by decide) hA)
    | with_reducible apply Only.recordCounts (hA := List.Subset.trans (by decide) hA)
    | with_reducible apply Only.retireReq (hA := List.Subset.trans (by decide) hA)
    | with_reducible apply Only.sendResult (hA := List.Subset.trans (by decide) hA)
    | with_reducible apply Only.whenS
    | with_reducible apply Only.withReq
    | with_reducible refine Only.ite ?_ ?_
    | split

theorem Only.fxReservoirRecordWrite {A : List Part} {sB : State} (n : TenantIx) (m : RingIx) (ecc : Ecc) (s : State) (hA : [.notice, .tens, .cqs, .reqs, .sent, .ces, .ks, .jrn, .evPend, .pviol, .pvcnt, .boot, .out] ⊆ A) (h : Only A sB s) : Only A sB (Machine.fxReservoirRecordWrite n m ecc s) := by
  unfold Machine.fxReservoirRecordWrite
  repeat' first
    | dsimp only
    | with_reducible assumption
    | intro _
    | with_reducible apply Only.deliver (hA := List.Subset.trans (by decide) hA)
    | with_reducible apply Only.memCheck (hA := List.Subset.trans (by decide) hA)
    | with_reducible apply Only.whenS
    | with_reducible refine Only.ite ?_ ?_
    | split

theorem Only.fxCqCoalTimeout {A : List Part} {sB : State} (n : TenantIx) (m : RingIx) (s : State) (hA : [.tens, .cqs] ⊆ A) (h : Only A sB s) : Only A sB (Machine.fxCqCoalTimeout n m s) := by
  unfold Machine.fxCqCoalTimeout
  repeat' first
    | with_reducible assumption
    | intro _
    | with_reducible apply Only.notify (hA := List.Subset.trans (by decide) hA)
    | with_reducible apply Only.whenS

theorem Only.cqHead {A : List Part} {sB : State} (n m new : Nat) (s : State) (hA : [.tens, .cqs, .sent] ⊆ A) (h : Only A sB s) : Only A sB (Machine.cqHead n m new s) := by
  unfold Machine.cqHead
  repeat' first
    | dsimp only
    | with_reducible assumption
    | intro _
    | with_reducible apply Only.modCq (hA := List.Subset.trans (by decide) hA)
    | with_reducible apply Only.raiseT (hA := List.Subset.trans (by decide) hA)
    | with_reducible apply Only.trimSent (hA := List.Subset.trans (by decide) hA)
    | with_reducible apply Only.unstall (hA := List.Subset.trans (by decide) hA)
    | with_reducible refine Only.ite ?_ ?_
    | split

theorem Only.fxCqDoorbell {A : List Part} {sB : State} (who : Who) (n : TenantIx) (m : RingIx) (head : BitVec 17) (s : State) (hA : [.denied, .notice, .tens, .cqs, .sent, .jrn, .evPend, .pviol, .pvcnt, .out] ⊆ A) (h : Only A sB s) : Only A sB (Machine.fxCqDoorbell who n m head s) := by
  unfold Machine.fxCqDoorbell
  repeat' first
    | with_reducible assumption
    | intro _
    | with_reducible apply Only.cqHead (hA := List.Subset.trans (by decide) hA)
    | with_reducible apply Only.gateW (hA := List.Subset.trans (by decide) hA)

theorem Only.cqBaseWrite {A : List Part} {sB : State} (who : Who) (n : TenantIx) (m : RingIx) (mask val : Word) (s : State) (hA : [.denied, .notice, .cqs, .sent, .jrn, .evPend, .pviol, .pvcnt, .out] ⊆ A) (h : Only A sB s) : Only A sB (Machine.cqBaseWrite who n m mask val s) := by
  unfold Machine.cqBaseWrite
  repeat' first
    | dsimp only
    | with_reducible assumption
    | intro _
    | with_reducible apply Only.dropPiece (hA := List.Subset.trans (by decide) hA)
    | with_reducible apply Only.modCq (hA := List.Subset.trans (by decide) hA)
    | with_reducible apply Only.trimSent (hA := List.Subset.trans (by decide) hA)
    | with_reducible refine Only.ite ?_ ?_
    | split

theorem Only.noticeDue {A : List Part} {sB : State} (n m : Nat) (s : State) (hA : [.tens, .cqs] ⊆ A) (h : Only A sB s) : Only A sB (Machine.noticeDue n m s) := by
  unfold Machine.noticeDue
  repeat' first
    | dsimp only
    | with_reducible assumption
    | intro _
    | with_reducible apply Only.notify (hA := List.Subset.trans (by decide) hA)
    | with_reducible refine Only.ite ?_ ?_
    | split

theorem Only.cqCfgWrite {A : List Part} {sB : State} (who : Who) (n : TenantIx) (m : RingIx) (mask val : Word) (s : State) (hA : [.denied, .notice, .tens, .cqs, .sent, .jrn, .evPend, .pviol, .pvcnt, .out] ⊆ A) (h : Only A sB s) : Only A sB (Machine.cqCfgWrite who n m mask val s) := by
  unfold Machine.cqCfgWrite
  repeat' first
    | dsimp only
    | with_reducible assumption
    | intro _
    | with_reducible apply Only.dropPiece (hA := List.Subset.trans (by decide) hA)
    | with_reducible apply Only.modCq (hA := List.Subset.trans (by decide) hA)
    | with_reducible apply Only.noticeDue (hA := List.Subset.trans (by decide) hA)
    | with_reducible apply Only.trimSent (hA := List.Subset.trans (by decide) hA)
    | with_reducible refine Only.ite ?_ ?_
    | split

theorem Only.cqSetup {A : List Part} {sB : State} (who : Who) (n : TenantIx) (m : RingIx) (r : CqSetup) (mask val : Word) (s : State) (hA : [.denied, .notice, .tens, .cqs, .sent, .jrn, .evPend, .pviol, .pvcnt, .out] ⊆ A) (h : Only A sB s) : Only A sB (Machine.cqSetup who n m r mask val s) := by
  unfold Machine.cqSetup
  repeat' first
    | with_reducible assumption
    | with_reducible apply Only.cqBaseWrite (hA := List.Subset.trans (by decide) hA)
    | with_reducible apply Only.cqCfgWrite (hA := List.Subset.trans (by decide) hA)
    | split

theorem Only.fxCqSetupWrite {A : List Part} {sB : State} (who : Who) (n : TenantIx) (m : RingIx) (r : CqSetup) (v : Word) (s : State) (hA : [.denied, .notice, .tens, .cqs, .sent, .jrn, .evPend, .pviol, .pvcnt, .out] ⊆ A) (h : Only A sB s) : Only A sB (Machine.fxCqSetupWrite who n m r v s) := by
  unfold Machine.fxCqSetupWrite
  repeat' first
    | with_reducible assumption
    | intro _
    | with_reducible apply Only.cqSetup (hA := List.Subset.trans (by decide) hA)
    | with_reducible apply Only.gateW (hA := List.Subset.trans (by decide) hA)

theorem Only.cqEnWrite {A : List Part} {sB : State} (who : Who) (n : TenantIx) (m : RingIx) (mask val : Word) (s : State) (hA : [.denied, .notice, .cqs, .jrn, .evPend, .pviol, .pvcnt, .out] ⊆ A) (h : Only A sB s) : Only A sB (Machine.cqEnWrite who n m mask val s) := by
  unfold Machine.cqEnWrite
  repeat' first
    | dsimp only
    | with_reducible assumption
    | intro _
    | with_reducible apply Only.dropPiece (hA := List.Subset.trans (by decide) hA)
    | with_reducible apply Only.modCq (hA := List.Subset.trans (by decide) hA)
    | with_reducible apply Only.unstall (hA := List.Subset.trans (by decide) hA)
    | with_reducible refine Only.ite ?_ ?_
    | split

theorem Only.fxCqEnWrite {A : List Part} {sB : State} (who : Who) (n : TenantIx) (m : RingIx) (en : Bool) (s : State) (hA : [.denied, .notice, .cqs, .jrn, .evPend, .pviol, .pvcnt, .out] ⊆ A) (h : Only A sB s) : Only A sB (Machine.fxCqEnWrite who n m en s) := by
  unfold Machine.fxCqEnWrite
  repeat' first
    | dsimp only
    | with_reducible assumption
    | intro _
    | with_reducible apply Only.cqEnWrite (hA := List.Subset.trans (by decide) hA)
    | with_reducible apply Only.gateW (hA := List.Subset.trans (by decide) hA)
    | with_reducible refine Only.ite ?_ ?_
    | split

theorem Only.ledgerSnap {A : List Part} {sB : State} (n : Nat) (s : State) (hA : [.tens] ⊆ A) (h : Only A sB s) : Only A sB (Machine.ledgerSnap n s) := by
  unfold Machine.ledgerSnap
  repeat' first
    | with_reducible assumption
    | with_reducible apply Only.modTen (hA := List.Subset.trans (by decide) hA)

theorem Only.fxLedgerSnap {A : List Part} {sB : State} (who : Who) (n : TenantIx) (s : State) (hA : [.denied, .notice, .tens, .jrn, .evPend, .pviol, .pvcnt, .out] ⊆ A) (h : Only A sB s) : Only A sB (Machine.fxLedgerSnap who n s) := by
  unfold Machine.fxLedgerSnap
  repeat' first
    | with_reducible assumption
    | intro _
    | with_reducible apply Only.gateW (hA := List.Subset.trans (by decide) hA)
    | with_reducible apply Only.ledgerSnap (hA := List.Subset.trans (by decide) hA)

end Sys2Proof.Machine
end

