-- ==== Sys2Proof/Laws/FrameKeyStore.lean ====
section
/-!
SUPPORT. Frames of the operations of Machine/KeyStore.lean: the parts of the state that each may change.
-/

set_option Elab.async false

namespace Sys2Proof.Machine

theorem Only.ksErr {A : List Part} {sB : State} (e : Nat) (s : State) (hA : [.ks] ⊆ A) (h : Only A sB s) : Only A sB (Machine.ksErr e s) := by
  unfold Machine.ksErr
  repeat' first
    | with_reducible assumption
    | with_reducible apply Only.modKs (hA := List.Subset.trans (by decide) hA)

theorem Only.ksCmd {A : List Part} {sB : State} (f : State → State) (s : State) (hA : [.ks] ⊆ A) (h : Only A sB s) (hf : ∀ x0, Only A sB x0 → Only A sB (f x0)) : Only A sB (Machine.ksCmd f s) := by
  unfold Machine.ksCmd
  repeat' first
    | with_reducible assumption
    | intro _
    | with_reducible apply Only.ksErr (hA := List.Subset.trans (by decide) hA)
    | with_reducible refine Only.ite ?_ ?_
    | apply hf

theorem Only.copyBank {A : List Part} {sB : State} (x : Nat) (s : State) (hA : [.ks] ⊆ A) (h : Only A sB s) : Only A sB (Machine.copyBank x s) := by
  unfold Machine.copyBank
  repeat' first
    | dsimp only
    | with_reducible assumption
    | intro _
    | with_reducible apply Only.modSlot (hA := List.Subset.trans (by decide) hA)
    | with_reducible refine Only.ite ?_ ?_
    | split

theorem Only.orDefer {A : List Part} {sB : State} (d : KsDefer) (f : State → State) (s : State) (hA : [.ks] ⊆ A) (h : Only A sB s) (hf : ∀ s, Only A sB s → Only A sB (f s)) : Only A sB (Machine.orDefer d f s) := by
  unfold Machine.orDefer
  repeat' first
    | dsimp only
    | with_reducible assumption
    | intro _
    | with_reducible apply Only.modKs (hA := List.Subset.trans (by decide) hA)
    | with_reducible apply hf
    | with_reducible refine Only.ite ?_ ?_
    | split

theorem Only.ksOpenAs {A : List Part} {sB : State} (copy : Bool) (s : State) (hA : [.own, .ks] ⊆ A) (h : Only A sB s) : Only A sB (Machine.ksOpenAs copy s) := by
  unfold Machine.ksOpenAs
  repeat' first
    | dsimp only
    | with_reducible assumption
    | intro _
    | with_reducible apply Only.copyBank (hA := List.Subset.trans (by decide) hA)
    | with_reducible apply Only.ksErr (hA := List.Subset.trans (by decide) hA)
    | with_reducible apply Only.modKs (hA := List.Subset.trans (by decide) hA)
    | with_reducible refine Only.modOwn _ (List.Subset.trans (by decide) hA) ?_ ?_
    | rfl
    | with_reducible apply Only.modSlot (hA := List.Subset.trans (by decide) hA)
    | with_reducible apply Only.orDefer (hA := List.Subset.trans (by decide) hA)
    | with_reducible refine Only.ite ?_ ?_
    | split

theorem Only.fxKsOpen {A : List Part} {sB : State} (who : Who) (s : State) (hA : [.denied, .own, .notice, .ks, .jrn, .evPend, .pviol, .pvcnt, .out] ⊆ A) (h : Only A sB s) : Only A sB (Machine.fxKsOpen who s) := by
  unfold Machine.fxKsOpen
  repeat' first
    | with_reducible assumption
    | intro _
    | with_reducible apply Only.gateW (hA := List.Subset.trans (by decide) hA)
    | with_reducible apply Only.ksCmd (hA := List.Subset.trans (by decide) hA)
    | with_reducible apply Only.ksOpenAs (hA := List.Subset.trans (by decide) hA)

theorem Only.fxKsOpenc {A : List Part} {sB : State} (who : Who) (s : State) (hA : [.denied, .own, .notice, .ks, .jrn, .evPend, .pviol, .pvcnt, .out] ⊆ A) (h : Only A sB s) : Only A sB (Machine.fxKsOpenc who s) := by
  unfold Machine.fxKsOpenc
  repeat' first
    | with_reducible assumption
    | intro _
    | with_reducible apply Only.gateW (hA := List.Subset.trans (by decide) hA)
    | with_reducible apply Only.ksCmd (hA := List.Subset.trans (by decide) hA)
    | with_reducible apply Only.ksOpenAs (hA := List.Subset.trans (by decide) hA)

theorem Only.bankWrite {A : List Part} {sB : State} (r : KsBankReg) (mask val : Word) (s : State) (hA : [.own, .ks] ⊆ A) (h : Only A sB s) : Only A sB (Machine.bankWrite r mask val s) := by
  unfold Machine.bankWrite
  repeat' first
    | dsimp only
    | with_reducible assumption
    | intro _
    | with_reducible apply Only.modKs (hA := List.Subset.trans (by decide) hA)
    | with_reducible refine Only.modOwn _ (List.Subset.trans (by decide) hA) ?_ ?_
    | rfl
    | with_reducible apply Only.modSlot (hA := List.Subset.trans (by decide) hA)
    | with_reducible refine Only.ite ?_ ?_
    | split

theorem Only.ksBank {A : List Part} {sB : State} (who : Who) (r : KsBankReg) (mask val : Word) (s : State) (hA : [.denied, .own, .notice, .ks, .jrn, .evPend, .pviol, .pvcnt, .out] ⊆ A) (h : Only A sB s) : Only A sB (Machine.ksBank who r mask val s) := by
  unfold Machine.ksBank
  repeat' first
    | dsimp only
    | with_reducible assumption
    | intro _
    | with_reducible apply Only.bankWrite (hA := List.Subset.trans (by decide) hA)
    | with_reducible apply Only.dropPiece (hA := List.Subset.trans (by decide) hA)
    | with_reducible apply Only.orDefer (hA := List.Subset.trans (by decide) hA)
    | with_reducible refine Only.ite ?_ ?_
    | split

theorem Only.fxKsBankWrite {A : List Part} {sB : State} (who : Who) (r : KsBankReg) (v : Word) (s : State) (hA : [.denied, .own, .notice, .ks, .jrn, .evPend, .pviol, .pvcnt, .out] ⊆ A) (h : Only A sB s) : Only A sB (Machine.fxKsBankWrite who r v s) := by
  unfold Machine.fxKsBankWrite
  repeat' first
    | with_reducible assumption
    | intro _
    | with_reducible apply Only.gateW (hA := List.Subset.trans (by decide) hA)
    | with_reducible apply Only.ksBank (hA := List.Subset.trans (by decide) hA)

theorem Only.ksCommit {A : List Part} {sB : State} (s : State) (hA : [.sch, .ks] ⊆ A) (h : Only A sB s) : Only A sB (Machine.ksCommit s) := by
  unfold Machine.ksCommit
  repeat' first
    | dsimp only
    | with_reducible assumption
    | intro _
    | with_reducible apply Only.beginVerify (hA := List.Subset.trans (by decide) hA)
    | with_reducible apply Only.ksErr (hA := List.Subset.trans (by decide) hA)
    | with_reducible apply Only.modKs (hA := List.Subset.trans (by decide) hA)
    | with_reducible refine Only.ite ?_ ?_
    | split

theorem Only.fxKsCommit {A : List Part} {sB : State} (who : Who) (s : State) (hA : [.denied, .notice, .sch, .ks, .jrn, .evPend, .pviol, .pvcnt, .out] ⊆ A) (h : Only A sB s) : Only A sB (Machine.fxKsCommit who s) := by
  unfold Machine.fxKsCommit
  repeat' first
    | with_reducible assumption
    | intro _
    | with_reducible apply Only.gateW (hA := List.Subset.trans (by decide) hA)
    | with_reducible apply Only.ksCmd (hA := List.Subset.trans (by decide) hA)
    | with_reducible apply Only.ksCommit (hA := List.Subset.trans (by decide) hA)

theorem Only.ksDiscard {A : List Part} {sB : State} (e : Nat) (s : State) (hA : [.sch, .tiles, .ks] ⊆ A) (h : Only A sB s) : Only A sB (Machine.ksDiscard e s) := by
  unfold Machine.ksDiscard
  repeat' first
    | dsimp only
    | with_reducible assumption
    | intro _
    | with_reducible apply Only.modKs (hA := List.Subset.trans (by decide) hA)
    | with_reducible apply Only.unclaim (hA := List.Subset.trans (by decide) hA)
    | with_reducible refine Only.ite ?_ ?_
    | split

theorem Only.ksAbort {A : List Part} {sB : State} (s : State) (hA : [.sch, .tiles, .ks] ⊆ A) (h : Only A sB s) : Only A sB (Machine.ksAbort s) := by
  unfold Machine.ksAbort
  repeat' first
    | with_reducible assumption
    | intro _
    | with_reducible apply Only.ksDiscard (hA := List.Subset.trans (by decide) hA)
    | with_reducible apply Only.ksErr (hA := List.Subset.trans (by decide) hA)
    | with_reducible refine Only.ite ?_ ?_

theorem Only.fxKsAbort {A : List Part} {sB : State} (who : Who) (s : State) (hA : [.denied, .notice, .sch, .tiles, .ks, .jrn, .evPend, .pviol, .pvcnt, .out] ⊆ A) (h : Only A sB s) : Only A sB (Machine.fxKsAbort who s) := by
  unfold Machine.fxKsAbort
  repeat' first
    | with_reducible assumption
    | intro _
    | with_reducible apply Only.gateW (hA := List.Subset.trans (by decide) hA)
    | with_reducible apply Only.ksAbort (hA := List.Subset.trans (by decide) hA)
    | with_reducible apply Only.ksCmd (hA := List.Subset.trans (by decide) hA)

theorem Only.ksZeroize {A : List Part} {sB : State} (s : State) (hA : [.sch, .tiles, .ks] ⊆ A) (h : Only A sB s) : Only A sB (Machine.ksZeroize s) := by
  unfold Machine.ksZeroize
  repeat' first
    | dsimp only
    | with_reducible assumption
    | intro _
    | with_reducible apply Only.ksDiscard (hA := List.Subset.trans (by decide) hA)
    | with_reducible apply Only.ksErr (hA := List.Subset.trans (by decide) hA)
    | with_reducible apply Only.modSlot (hA := List.Subset.trans (by decide) hA)
    | with_reducible refine Only.ite ?_ ?_

theorem Only.fxKsZeroize {A : List Part} {sB : State} (who : Who) (s : State) (hA : [.denied, .notice, .sch, .tiles, .ks, .jrn, .evPend, .pviol, .pvcnt, .out] ⊆ A) (h : Only A sB s) : Only A sB (Machine.fxKsZeroize who s) := by
  unfold Machine.fxKsZeroize
  repeat' first
    | with_reducible assumption
    | intro _
    | with_reducible apply Only.gateW (hA := List.Subset.trans (by decide) hA)
    | with_reducible apply Only.ksCmd (hA := List.Subset.trans (by decide) hA)
    | with_reducible apply Only.ksZeroize (hA := List.Subset.trans (by decide) hA)

theorem Only.extend {A : List Part} {sB : State} (i : Nat) (e : Bytes) (s : State) (hA : [.meas] ⊆ A) (h : Only A sB s) : Only A sB (Machine.extend i e s) := by
  unfold Machine.extend
  repeat' first
    | with_reducible assumption
    | with_reducible apply Only.modMeas (hA := List.Subset.trans (by decide) hA)

theorem Only.extendOrDefer {A : List Part} {sB : State} (i : Nat) (e : Bytes) (s : State) (hA : [.ks, .meas] ⊆ A) (h : Only A sB s) : Only A sB (Machine.extendOrDefer i e s) := by
  unfold Machine.extendOrDefer
  repeat' first
    | dsimp only
    | with_reducible assumption
    | intro _
    | with_reducible apply Only.extend (hA := List.Subset.trans (by decide) hA)
    | with_reducible apply Only.orDefer (hA := List.Subset.trans (by decide) hA)
    | with_reducible refine Only.ite ?_ ?_
    | split

theorem Only.extendRecord {A : List Part} {sB : State} (i : Nat) (s : State) (hA : [.notice, .jrn, .evPend, .pviol, .pvcnt, .out] ⊆ A) (h : Only A sB s) : Only A sB (Machine.extendRecord i s) := by
  unfold Machine.extendRecord
  repeat' first
    | dsimp only
    | with_reducible assumption
    | intro _
    | with_reducible apply Only.ksEvent (hA := List.Subset.trans (by decide) hA)
    | with_reducible refine Only.ite ?_ ?_
    | split

theorem Only.extendDue {A : List Part} {sB : State} (i : Nat) (e : Bytes) (s : State) (hA : [.notice, .ks, .meas, .jrn, .evPend, .pviol, .pvcnt, .out] ⊆ A) (h : Only A sB s) : Only A sB (Machine.extendDue i e s) := by
  unfold Machine.extendDue
  repeat' first
    | dsimp only
    | with_reducible assumption
    | intro _
    | with_reducible apply Only.extend (hA := List.Subset.trans (by decide) hA)
    | with_reducible apply Only.extendRecord (hA := List.Subset.trans (by decide) hA)
    | with_reducible apply Only.ksErr (hA := List.Subset.trans (by decide) hA)
    | with_reducible refine Only.ite ?_ ?_
    | split

theorem Only.ksExtend {A : List Part} {sB : State} (s : State) (hA : [.notice, .ks, .meas, .jrn, .evPend, .pviol, .pvcnt, .out] ⊆ A) (h : Only A sB s) : Only A sB (Machine.ksExtend s) := by
  unfold Machine.ksExtend
  repeat' first
    | dsimp only
    | with_reducible assumption
    | intro _
    | with_reducible apply Only.extendOrDefer (hA := List.Subset.trans (by decide) hA)
    | with_reducible apply Only.extendRecord (hA := List.Subset.trans (by decide) hA)
    | with_reducible apply Only.ksErr (hA := List.Subset.trans (by decide) hA)
    | with_reducible refine Only.ite ?_ ?_
    | split

theorem Only.fxKsExtend {A : List Part} {sB : State} (who : Who) (s : State) (hA : [.denied, .notice, .ks, .meas, .jrn, .evPend, .pviol, .pvcnt, .out] ⊆ A) (h : Only A sB s) : Only A sB (Machine.fxKsExtend who s) := by
  unfold Machine.fxKsExtend
  repeat' first
    | with_reducible assumption
    | intro _
    | with_reducible apply Only.gateW (hA := List.Subset.trans (by decide) hA)
    | with_reducible apply Only.ksCmd (hA := List.Subset.trans (by decide) hA)
    | with_reducible apply Only.ksExtend (hA := List.Subset.trans (by decide) hA)

theorem Only.sendSlotBank {A : List Part} {sB : State} (x : Nat) (s : State) (hA : [.crs, .out, .free] ⊆ A) (h : Only A sB s) : Only A sB (Machine.sendSlotBank x s) := by
  unfold Machine.sendSlotBank
  repeat' first
    | dsimp only
    | with_reducible assumption
    | intro _
    | with_reducible apply Only.eachN
    | with_reducible apply Only.nextFree (hA := List.Subset.trans (by decide) hA)
    | with_reducible apply Only.sendLong (hA := List.Subset.trans (by decide) hA)
    | with_reducible refine Only.ite ?_ ?_

theorem Only.swapBank {A : List Part} {sB : State} (x : Nat) (s : State) (hA : [.ks, .crs, .out, .free] ⊆ A) (h : Only A sB s) : Only A sB (Machine.swapBank x s) := by
  unfold Machine.swapBank
  repeat' first
    | dsimp only
    | with_reducible assumption
    | intro _
    | with_reducible apply Only.modCrs (hA := List.Subset.trans (by decide) hA)
    | with_reducible apply Only.modSlot (hA := List.Subset.trans (by decide) hA)
    | with_reducible apply Only.sendSlotBank (hA := List.Subset.trans (by decide) hA)
    | with_reducible refine Only.ite ?_ ?_
    | split

theorem Only.dropClaim {A : List Part} {sB : State} (r : Req) (x : Nat) (s : State) (hA : [.reqs] ⊆ A) (h : Only A sB s) : Only A sB (Machine.dropClaim r x s) := by
  unfold Machine.dropClaim
  repeat' first
    | dsimp only
    | with_reducible assumption
    | intro _
    | with_reducible apply Only.eachN
    | with_reducible apply Only.modOp (hA := List.Subset.trans (by decide) hA)
    | with_reducible refine Only.ite ?_ ?_
    | split

theorem Only.installEnds {A : List Part} {sB : State} (r : Req) (x : Nat) (s : State) (hA : [.sch, .reqs, .tiles, .ks, .crs, .out, .free] ⊆ A) (h : Only A sB s) : Only A sB (Machine.installEnds r x s) := by
  unfold Machine.installEnds
  repeat' first
    | dsimp only
    | with_reducible assumption
    | intro _
    | with_reducible apply Only.dropClaim (hA := List.Subset.trans (by decide) hA)
    | with_reducible apply Only.modReq (hA := List.Subset.trans (by decide) hA)
    | with_reducible apply Only.swapBank (hA := List.Subset.trans (by decide) hA)
    | with_reducible apply Only.unclaim (hA := List.Subset.trans (by decide) hA)
    | with_reducible refine Only.ite ?_ ?_
    | split

theorem Only.verifyEnds {A : List Part} {sB : State} (x : Nat) (s : State) (hA : [.sch, .reqs, .tiles, .ks, .evPend, .crs, .out, .free] ⊆ A) (h : Only A sB s) : Only A sB (Machine.verifyEnds x s) := by
  unfold Machine.verifyEnds
  repeat' first
    | dsimp only
    | with_reducible assumption
    | intro _
    | with_reducible apply Only.installEnds (hA := List.Subset.trans (by decide) hA)
    | with_reducible apply Only.ksDiscard (hA := List.Subset.trans (by decide) hA)
    | with_reducible apply Only.modKs (hA := List.Subset.trans (by decide) hA)
    | with_reducible apply Only.raiseG (hA := List.Subset.trans (by decide) hA)
    | with_reducible apply Only.swapBank (hA := List.Subset.trans (by decide) hA)
    | with_reducible apply Only.unclaim (hA := List.Subset.trans (by decide) hA)
    | with_reducible refine Only.ite ?_ ?_
    | split

theorem Only.fxKsVerifyDone {A : List Part} {sB : State} (slot : Fin 2048) (s : State) (hA : [.sch, .reqs, .tiles, .ks, .evPend, .crs, .out, .free] ⊆ A) (h : Only A sB s) : Only A sB (Machine.fxKsVerifyDone slot s) := by
  unfold Machine.fxKsVerifyDone
  repeat' first
    | dsimp only
    | with_reducible assumption
    | intro _
    | with_reducible apply Only.orDefer (hA := List.Subset.trans (by decide) hA)
    | with_reducible apply Only.verifyEnds (hA := List.Subset.trans (by decide) hA)
    | with_reducible apply Only.whenS
    | with_reducible refine Only.ite ?_ ?_
    | split

theorem Only.zeroFree {A : List Part} {sB : State} (x : Nat) (s : State) (hA : [.ks] ⊆ A) (h : Only A sB s) : Only A sB (Machine.zeroFree x s) := by
  unfold Machine.zeroFree
  repeat' first
    | dsimp only
    | with_reducible assumption
    | intro _
    | with_reducible apply Only.modSlot (hA := List.Subset.trans (by decide) hA)
    | with_reducible refine Only.ite ?_ ?_
    | split

theorem Only.fxKsDrained {A : List Part} {sB : State} (slot : Fin 2048) (s : State) (hA : [.ks, .evPend] ⊆ A) (h : Only A sB s) : Only A sB (Machine.fxKsDrained slot s) := by
  unfold Machine.fxKsDrained
  repeat' first
    | dsimp only
    | with_reducible assumption
    | intro _
    | with_reducible apply Only.modSlot (hA := List.Subset.trans (by decide) hA)
    | with_reducible apply Only.raiseG (hA := List.Subset.trans (by decide) hA)
    | with_reducible apply Only.whenS
    | with_reducible apply Only.zeroFree (hA := List.Subset.trans (by decide) hA)
    | with_reducible refine Only.ite ?_ ?_
    | split

theorem Only.fxKsBackgroundScan {A : List Part} {sB : State} (slot : Fin 2048) (found : BankCheck) (s : State) (hA : [.notice, .ces, .ks, .jrn, .evPend, .pviol, .pvcnt, .out] ⊆ A) (h : Only A sB s) : Only A sB (Machine.fxKsBackgroundScan slot found s) := by
  unfold Machine.fxKsBackgroundScan
  repeat' first
    | dsimp only
    | with_reducible assumption
    | intro _
    | with_reducible apply Only.failBank (hA := List.Subset.trans (by decide) hA)
    | with_reducible apply Only.failBankUe (hA := List.Subset.trans (by decide) hA)
    | with_reducible apply Only.ksCe (hA := List.Subset.trans (by decide) hA)
    | with_reducible apply Only.whenS
    | with_reducible refine Only.ite ?_ ?_
    | split

theorem Only.seedLoad {A : List Part} {sB : State} (id i : Nat) (f : State → State) (s : State) (hA : [.tens, .sch, .reqs, .tiles, .streams, .ks, .fp, .evPend, .pviol, .pvcnt, .out] ⊆ A) (h : Only A sB s) (hf : ∀ s, Only A sB s → Only A sB (f s)) : Only A sB (Machine.seedLoad id i f s) := by
  unfold Machine.seedLoad
  repeat' first
    | dsimp only
    | with_reducible assumption
    | intro _
    | with_reducible apply Only.endChain (hA := List.Subset.trans (by decide) hA)
    | with_reducible apply Only.useBank (hA := List.Subset.trans (by decide) hA)
    | with_reducible apply hf
    | with_reducible refine Only.ite ?_ ?_
    | split

theorem Only.fxKeyCacheLoad {A : List Part} {sB : State} (id : Nat) (op : Fin 8) (s : State) (hA : [.notice, .tens, .sch, .reqs, .tiles, .streams, .ks, .fp, .jrn, .evPend, .pviol, .pvcnt, .out] ⊆ A) (h : Only A sB s) : Only A sB (Machine.fxKeyCacheLoad id op s) := by
  unfold Machine.fxKeyCacheLoad
  repeat' first
    | dsimp only
    | with_reducible assumption
    | intro _
    | with_reducible apply Only.endChain (hA := List.Subset.trans (by decide) hA)
    | with_reducible apply Only.finishOp (hA := List.Subset.trans (by decide) hA)
    | with_reducible apply Only.seedLoad (hA := List.Subset.trans (by decide) hA)
    | with_reducible apply Only.setCacheEnt (hA := List.Subset.trans (by decide) hA)
    | with_reducible apply Only.sweepCache (hA := List.Subset.trans (by decide) hA)
    | with_reducible apply Only.whenS
    | with_reducible apply Only.withReq
    | with_reducible refine Only.ite ?_ ?_
    | split

theorem Only.fxKeyInstall {A : List Part} {sB : State} (id : Nat) (op : Fin 8) (s : State) (hA : [.notice, .tens, .sch, .reqs, .tiles, .streams, .ks, .fp, .jrn, .evPend, .pviol, .pvcnt, .out] ⊆ A) (h : Only A sB s) : Only A sB (Machine.fxKeyInstall id op s) := by
  unfold Machine.fxKeyInstall
  repeat' first
    | with_reducible assumption
    | intro _
    | with_reducible apply Only.endChain (hA := List.Subset.trans (by decide) hA)
    | with_reducible apply Only.finishOp (hA := List.Subset.trans (by decide) hA)
    | with_reducible apply Only.whenS
    | with_reducible apply Only.withReq
    | with_reducible refine Only.ite ?_ ?_
    | split

theorem Only.fxKeyCacheUnload {A : List Part} {sB : State} (id : Nat) (op : Fin 8) (s : State) (hA : [.notice, .tens, .sch, .reqs, .tiles, .streams, .ks, .fp, .jrn, .evPend, .pviol, .pvcnt, .out] ⊆ A) (h : Only A sB s) : Only A sB (Machine.fxKeyCacheUnload id op s) := by
  unfold Machine.fxKeyCacheUnload
  repeat' first
    | dsimp only
    | with_reducible assumption
    | intro _
    | with_reducible apply Only.finishOp (hA := List.Subset.trans (by decide) hA)
    | with_reducible apply Only.setCacheEnt (hA := List.Subset.trans (by decide) hA)
    | with_reducible apply Only.whenS
    | with_reducible apply Only.withReq
    | with_reducible refine Only.ite ?_ ?_

theorem Only.kilnRun {A : List Part} {sB : State} (opc id i : Nat) (s : State) (hA : [.notice, .tens, .sch, .reqs, .tiles, .streams, .ks, .fp, .jrn, .evPend, .pviol, .pvcnt, .out] ⊆ A) (h : Only A sB s) : Only A sB (Machine.kilnRun opc id i s) := by
  unfold Machine.kilnRun
  repeat' first
    | dsimp only
    | with_reducible assumption
    | intro _
    | with_reducible apply Only.finishOp (hA := List.Subset.trans (by decide) hA)
    | with_reducible apply Only.whenS
    | with_reducible apply Only.withReq
    | with_reducible refine Only.ite ?_ ?_
    | split

theorem Only.fxHkdf {A : List Part} {sB : State} (id : Nat) (op : Fin 8) (s : State) (hA : [.notice, .tens, .sch, .reqs, .tiles, .streams, .ks, .fp, .jrn, .evPend, .pviol, .pvcnt, .out] ⊆ A) (h : Only A sB s) : Only A sB (Machine.fxHkdf id op s) := by
  unfold Machine.fxHkdf
  repeat' first
    | with_reducible assumption
    | with_reducible apply Only.kilnRun (hA := List.Subset.trans (by decide) hA)

theorem Only.fxCounterModeKdf {A : List Part} {sB : State} (id : Nat) (op : Fin 8) (s : State) (hA : [.notice, .tens, .sch, .reqs, .tiles, .streams, .ks, .fp, .jrn, .evPend, .pviol, .pvcnt, .out] ⊆ A) (h : Only A sB s) : Only A sB (Machine.fxCounterModeKdf id op s) := by
  unfold Machine.fxCounterModeKdf
  repeat' first
    | with_reducible assumption
    | with_reducible apply Only.kilnRun (hA := List.Subset.trans (by decide) hA)

theorem Only.fxKilnDerivation {A : List Part} {sB : State} (id : Nat) (op : Fin 8) (s : State) (hA : [.notice, .tens, .sch, .reqs, .tiles, .streams, .ks, .fp, .jrn, .evPend, .pviol, .pvcnt, .out] ⊆ A) (h : Only A sB s) : Only A sB (Machine.fxKilnDerivation id op s) := by
  unfold Machine.fxKilnDerivation
  repeat' first
    | with_reducible assumption
    | with_reducible apply Only.kilnRun (hA := List.Subset.trans (by decide) hA)

end Sys2Proof.Machine
end

