-- ==== Sys2Proof/Laws/FrameAttest.lean ====
section
/-!
SUPPORT. Frames of the operations of Machine/Attest.lean: the parts of the state that each may change.
-/

set_option Elab.async false

namespace Sys2Proof.Machine

theorem Only.fxRandomDraw {A : List Part} {sB : State} (id : Nat) (op : Fin 8) (s : State) (hA : [.notice, .tens, .sch, .reqs, .tiles, .ces, .streams, .ks, .es, .rbgs, .fp, .jrn, .evPend, .pviol, .pvcnt, .out] ⊆ A) (h : Only A sB s) : Only A sB (Machine.fxRandomDraw id op s) := by
  unfold Machine.fxRandomDraw
  repeat' first
    | dsimp only
    | with_reducible assumption
    | intro _
    | with_reducible apply Only.endChain (hA := List.Subset.trans (by decide) hA)
    | with_reducible apply Only.finishOp (hA := List.Subset.trans (by decide) hA)
    | with_reducible refine Only.generateAdd_eq (hA := List.Subset.trans (by decide) hA) (by assumption) ?_
    | with_reducible apply Only.generateAdd (hA := List.Subset.trans (by decide) hA)
    | with_reducible apply Only.whenS
    | with_reducible apply Only.withReq
    | with_reducible refine Only.ite ?_ ?_
    | split

theorem Only.failChecks {A : List Part} {sB : State} (bad : List Nat) (s : State) (hA : [.notice, .tens, .sch, .reqs, .tiles, .streams, .ks, .fp, .jrn, .evPend, .pviol, .pvcnt, .out, .free] ⊆ A) (h : Only A sB s) : Only A sB (Machine.failChecks bad s) := by
  unfold Machine.failChecks
  repeat' first
    | dsimp only
    | with_reducible assumption
    | intro _
    | with_reducible apply Only.foldl
    | with_reducible apply Only.quarantine (hA := List.Subset.trans (by decide) hA)
    | with_reducible refine Only.ite ?_ ?_
    | split

theorem Only.fxAttestationStatement {A : List Part} {sB : State} (id : Nat) (op : Fin 8) (okC okQ : Bool) (s : State) (hA : [.notice, .tens, .sch, .reqs, .tiles, .ces, .streams, .ks, .es, .rbgs, .fp, .jrn, .evPend, .pviol, .pvcnt, .out, .free] ⊆ A) (h : Only A sB s) : Only A sB (Machine.fxAttestationStatement id op okC okQ s) := by
  unfold Machine.fxAttestationStatement
  repeat' first
    | dsimp only
    | with_reducible assumption
    | intro _
    | with_reducible apply Only.endChain (hA := List.Subset.trans (by decide) hA)
    | with_reducible apply Only.failChecks (hA := List.Subset.trans (by decide) hA)
    | with_reducible apply Only.finishOp (hA := List.Subset.trans (by decide) hA)
    | with_reducible refine Only.generate_eq (hA := List.Subset.trans (by decide) hA) (by assumption) ?_
    | with_reducible apply Only.generate (hA := List.Subset.trans (by decide) hA)
    | with_reducible apply Only.modOp (hA := List.Subset.trans (by decide) hA)
    | with_reducible apply Only.useBank (hA := List.Subset.trans (by decide) hA)
    | with_reducible apply Only.whenS
    | with_reducible apply Only.withReq
    | with_reducible refine Only.ite ?_ ?_
    | split

end Sys2Proof.Machine
end

