-- ==== Sys2Proof/Laws/FrameFrame.lean ====
section
/-!
SUPPORT. Frames of the operations of Machine/Frame.lean: the parts of the state that each may change.
-/

set_option Elab.async false

namespace Sys2Proof.Machine

theorem Only.joinWait {A : List Part} {sB : State} (id : Nat) (s : State) (hA : [.tens, .sch, .reqs, .tiles, .streams, .ks, .fp, .evPend, .pviol, .pvcnt, .out] ⊆ A) (h : Only A sB s) : Only A sB (Machine.joinWait id s) := by
  unfold Machine.joinWait
  repeat' first
    | with_reducible assumption
    | intro _
    | with_reducible apply Only.endChain (hA := List.Subset.trans (by decide) hA)
    | with_reducible apply Only.modFp (hA := List.Subset.trans (by decide) hA)
    | with_reducible refine Only.ite ?_ ?_
    | split

theorem Only.fxFrameHeaderQueryReturn {A : List Part} {sB : State} (id : Nat) (buf : Fin 8) (hdr : Option FrameHdr) (s : State) (hA : [.tens, .sch, .reqs, .tiles, .streams, .ks, .fp, .evPend, .pviol, .pvcnt, .out] ⊆ A) (h : Only A sB s) : Only A sB (Machine.fxFrameHeaderQueryReturn id buf hdr s) := by
  unfold Machine.fxFrameHeaderQueryReturn
  repeat' first
    | dsimp only
    | with_reducible assumption
    | intro _
    | with_reducible apply Only.eachN
    | with_reducible apply Only.endChain (hA := List.Subset.trans (by decide) hA)
    | with_reducible apply Only.joinWait (hA := List.Subset.trans (by decide) hA)
    | with_reducible apply Only.modBuf (hA := List.Subset.trans (by decide) hA)
    | with_reducible apply Only.whenS
    | with_reducible apply Only.withReq
    | split

theorem Only.lend {A : List Part} {sB : State} (r : Req) (s : State) (hA : [.notice, .tens, .sch, .reqs, .tiles, .streams, .ks, .fp, .jrn, .evPend, .pviol, .pvcnt, .out] ⊆ A) (h : Only A sB s) : Only A sB (Machine.lend r s) := by
  unfold Machine.lend
  repeat' first
    | dsimp only
    | with_reducible assumption
    | intro _
    | with_reducible apply Only.eachN
    | with_reducible apply Only.emit (hA := List.Subset.trans (by decide) hA)
    | with_reducible apply Only.modBuf (hA := List.Subset.trans (by decide) hA)
    | with_reducible apply Only.modFp (hA := List.Subset.trans (by decide) hA)
    | with_reducible apply Only.modTen (hA := List.Subset.trans (by decide) hA)
    | with_reducible apply Only.settle (hA := List.Subset.trans (by decide) hA)
    | with_reducible refine Only.ite ?_ ?_

theorem Only.fxFrameLoan {A : List Part} {sB : State} (id : Nat) (s : State) (hA : [.notice, .tens, .sch, .reqs, .tiles, .streams, .ks, .fp, .jrn, .evPend, .pviol, .pvcnt, .out] ⊆ A) (h : Only A sB s) : Only A sB (Machine.fxFrameLoan id s) := by
  unfold Machine.fxFrameLoan
  repeat' first
    | with_reducible assumption
    | intro _
    | with_reducible apply Only.lend (hA := List.Subset.trans (by decide) hA)
    | with_reducible apply Only.whenS
    | with_reducible apply Only.withReq

theorem Only.fxFrameWaitTimeout {A : List Part} {sB : State} (id : Nat) (s : State) (hA : [.tens, .sch, .reqs, .tiles, .streams, .ks, .fp, .evPend, .pviol, .pvcnt, .out] ⊆ A) (h : Only A sB s) : Only A sB (Machine.fxFrameWaitTimeout id s) := by
  unfold Machine.fxFrameWaitTimeout
  repeat' first
    | with_reducible assumption
    | intro _
    | with_reducible apply Only.endChain (hA := List.Subset.trans (by decide) hA)
    | with_reducible apply Only.whenS
    | with_reducible apply Only.withReq

theorem Only.fpUe {A : List Part} {sB : State} (n : Nat) (s : State) (hA : [.notice, .tens, .jrn, .evPend, .pviol, .pvcnt, .out] ⊆ A) (h : Only A sB s) : Only A sB (Machine.fpUe n s) := by
  unfold Machine.fpUe
  repeat' first
    | dsimp only
    | with_reducible assumption
    | intro _
    | with_reducible apply Only.journalUe (hA := List.Subset.trans (by decide) hA)
    | with_reducible apply Only.modTen (hA := List.Subset.trans (by decide) hA)
    | with_reducible apply Only.raiseG (hA := List.Subset.trans (by decide) hA)
    | with_reducible apply Only.raiseT (hA := List.Subset.trans (by decide) hA)
    | with_reducible refine Only.ite ?_ ?_
    | split

theorem Only.fxFrameReturn {A : List Part} {sB : State} (id : Nat) (buf : Fin 8) (ecc : Ecc) (s : State) (hA : [.notice, .tens, .ces, .fp, .jrn, .evPend, .pviol, .pvcnt, .out] ⊆ A) (h : Only A sB s) : Only A sB (Machine.fxFrameReturn id buf ecc s) := by
  unfold Machine.fxFrameReturn
  repeat' first
    | dsimp only
    | with_reducible assumption
    | intro _
    | with_reducible apply Only.countCe (hA := List.Subset.trans (by decide) hA)
    | with_reducible apply Only.emit (hA := List.Subset.trans (by decide) hA)
    | with_reducible apply Only.fpUe (hA := List.Subset.trans (by decide) hA)
    | with_reducible apply Only.modFp (hA := List.Subset.trans (by decide) hA)
    | with_reducible apply Only.modTen (hA := List.Subset.trans (by decide) hA)
    | with_reducible apply Only.whenS
    | with_reducible apply Only.withReq
    | with_reducible refine Only.ite ?_ ?_
    | split

theorem Only.fpSnap {A : List Part} {sB : State} (n : Nat) (s : State) (hA : [.tens] ⊆ A) (h : Only A sB s) : Only A sB (Machine.fpSnap n s) := by
  unfold Machine.fpSnap
  repeat' first
    | with_reducible assumption
    | with_reducible apply Only.modTen (hA := List.Subset.trans (by decide) hA)

theorem Only.fxFpSnap {A : List Part} {sB : State} (who : Who) (n : TenantIx) (s : State) (hA : [.denied, .notice, .tens, .jrn, .evPend, .pviol, .pvcnt, .out] ⊆ A) (h : Only A sB s) : Only A sB (Machine.fxFpSnap who n s) := by
  unfold Machine.fxFpSnap
  repeat' first
    | with_reducible assumption
    | intro _
    | with_reducible apply Only.fpSnap (hA := List.Subset.trans (by decide) hA)
    | with_reducible apply Only.gateW (hA := List.Subset.trans (by decide) hA)

end Sys2Proof.Machine
end

