-- ==== Sys2Proof/Laws/FrameFaults.lean ====
section
/-!
SUPPORT. Frames of the operations of Machine/Faults.lean: the parts of the state that each may change.
-/

set_option Elab.async false

namespace Sys2Proof.Machine

theorem Only.discardQueued {A : List Part} {sB : State} (n : TenantIx) (s : State) (hA : [.tens, .sqs] ⊆ A) (h : Only A sB s) : Only A sB (Machine.discardQueued n s) := by
  unfold Machine.discardQueued
  repeat' first
    | dsimp only
    | with_reducible assumption
    | intro _
    | with_reducible apply Only.eachN
    | with_reducible apply Only.modSq (hA := List.Subset.trans (by decide) hA)
    | with_reducible apply Only.modTen (hA := List.Subset.trans (by decide) hA)
    | with_reducible refine Only.ite ?_ ?_
    | split

theorem Only.stopTenant {A : List Part} {sB : State} (n : TenantIx) (detail : Nat) (s : State) (hA : [.denied, .notice, .tens, .sch, .reqs, .tiles, .streams, .ks, .dcs, .fp, .jrn, .evPend, .pviol, .pvcnt, .crs, .out] ⊆ A) (h : Only A sB s) : Only A sB (Machine.stopTenant n detail s) := by
  unfold Machine.stopTenant
  repeat' first
    | dsimp only
    | with_reducible assumption
    | intro _
    | with_reducible apply Only.dcReset (hA := List.Subset.trans (by decide) hA)
    | with_reducible apply Only.eachN
    | with_reducible apply Only.foldl
    | with_reducible apply Only.setStream (hA := List.Subset.trans (by decide) hA)
    | with_reducible apply Only.stopReq (hA := List.Subset.trans (by decide) hA)
    | with_reducible refine Only.ite ?_ ?_
    | split

theorem Only.resetTenant {A : List Part} {sB : State} (detail : Nat) (n : TenantIx) (s : State) (hA : [.denied, .notice, .tens, .sqs, .sch, .reqs, .tiles, .streams, .ks, .dcs, .fp, .jrn, .evPend, .pviol, .pvcnt, .crs, .out] ⊆ A) (h : Only A sB s) : Only A sB (Machine.resetTenant detail n s) := by
  unfold Machine.resetTenant
  repeat' first
    | with_reducible assumption
    | intro _
    | with_reducible apply Only.discardQueued (hA := List.Subset.trans (by decide) hA)
    | with_reducible apply Only.modTen (hA := List.Subset.trans (by decide) hA)
    | with_reducible apply Only.stopTenant (hA := List.Subset.trans (by decide) hA)
    | with_reducible refine Only.ite ?_ ?_

theorem Only.ownTrst {A : List Part} {sB : State} (mask : Nat) (s : State) (hA : [.denied, .notice, .tens, .sqs, .sch, .reqs, .tiles, .streams, .ks, .dcs, .fp, .jrn, .evPend, .pviol, .pvcnt, .crs, .out] ⊆ A) (h : Only A sB s) : Only A sB (Machine.ownTrst mask s) := by
  unfold Machine.ownTrst
  repeat' first
    | with_reducible assumption
    | intro _
    | with_reducible apply Only.eachN
    | with_reducible apply Only.resetTenant (hA := List.Subset.trans (by decide) hA)

theorem Only.fxOwnTrst {A : List Part} {sB : State} (who : Who) (mask : BitVec 16) (s : State) (hA : [.denied, .notice, .tens, .sqs, .sch, .reqs, .tiles, .streams, .ks, .dcs, .fp, .jrn, .evPend, .pviol, .pvcnt, .crs, .out] ⊆ A) (h : Only A sB s) : Only A sB (Machine.fxOwnTrst who mask s) := by
  unfold Machine.fxOwnTrst
  repeat' first
    | with_reducible assumption
    | intro _
    | with_reducible apply Only.gateW (hA := List.Subset.trans (by decide) hA)
    | with_reducible apply Only.ownTrst (hA := List.Subset.trans (by decide) hA)

theorem Only.fxTenantCtlReset {A : List Part} {sB : State} (who : Who) (n : TenantIx) (s : State) (hA : [.denied, .notice, .tens, .sqs, .sch, .reqs, .tiles, .streams, .ks, .dcs, .fp, .jrn, .evPend, .pviol, .pvcnt, .crs, .out] ⊆ A) (h : Only A sB s) : Only A sB (Machine.fxTenantCtlReset who n s) := by
  unfold Machine.fxTenantCtlReset
  repeat' first
    | with_reducible assumption
    | intro _
    | with_reducible apply Only.gateW (hA := List.Subset.trans (by decide) hA)
    | with_reducible apply Only.resetTenant (hA := List.Subset.trans (by decide) hA)

theorem Only.zeroizeKeys {A : List Part} {sB : State} (n : TenantIx) (s : State) (hA : [.ks] ⊆ A) (h : Only A sB s) : Only A sB (Machine.zeroizeKeys n s) := by
  unfold Machine.zeroizeKeys
  repeat' first
    | dsimp only
    | with_reducible assumption
    | with_reducible apply Only.modKs (hA := List.Subset.trans (by decide) hA)

theorem Only.clearTenant {A : List Part} {sB : State} (n : TenantIx) (s : State) (hA : [.tens, .sqs, .cqs, .sent] ⊆ A) (h : Only A sB s) : Only A sB (Machine.clearTenant n s) := by
  unfold Machine.clearTenant
  repeat' first
    | dsimp only
    | with_reducible assumption
    | intro _
    | with_reducible apply Only.eachN
    | with_reducible apply Only.modCq (hA := List.Subset.trans (by decide) hA)
    | with_reducible apply Only.modSent (hA := List.Subset.trans (by decide) hA)
    | with_reducible apply Only.modSq (hA := List.Subset.trans (by decide) hA)
    | with_reducible apply Only.modTen (hA := List.Subset.trans (by decide) hA)
    | with_reducible refine Only.ite ?_ ?_
    | split

theorem Only.fxTenantResetDone {A : List Part} {sB : State} (n : TenantIx) (s : State) (hA : [.tens, .sqs, .cqs, .sent, .ks, .evPend] ⊆ A) (h : Only A sB s) : Only A sB (Machine.fxTenantResetDone n s) := by
  unfold Machine.fxTenantResetDone
  repeat' first
    | with_reducible assumption
    | intro _
    | with_reducible apply Only.clearTenant (hA := List.Subset.trans (by decide) hA)
    | with_reducible apply Only.raiseG (hA := List.Subset.trans (by decide) hA)
    | with_reducible apply Only.whenS
    | with_reducible apply Only.zeroizeKeys (hA := List.Subset.trans (by decide) hA)

theorem Only.fxTenantResetWait {A : List Part} {sB : State} (n : TenantIx) (s : State) (hA : [.tens, .evPend] ⊆ A) (h : Only A sB s) : Only A sB (Machine.fxTenantResetWait n s) := by
  unfold Machine.fxTenantResetWait
  repeat' first
    | with_reducible assumption
    | intro _
    | with_reducible apply Only.modTen (hA := List.Subset.trans (by decide) hA)
    | with_reducible apply Only.raiseG (hA := List.Subset.trans (by decide) hA)
    | with_reducible apply Only.whenS

theorem Only.bufBusError {A : List Part} {sB : State} (r : Req) (b : Nat) (d : Dir) (s : State) (hA : [.notice, .tens, .sch, .reqs, .tiles, .streams, .ks, .fp, .jrn, .evPend, .pviol, .pvcnt, .out] ⊆ A) (h : Only A sB s) : Only A sB (Machine.bufBusError r b d s) := by
  unfold Machine.bufBusError
  repeat' first
    | dsimp only
    | with_reducible assumption
    | intro _
    | with_reducible apply Only.endChain (hA := List.Subset.trans (by decide) hA)
    | with_reducible apply Only.modBuf (hA := List.Subset.trans (by decide) hA)
    | with_reducible apply Only.modReq (hA := List.Subset.trans (by decide) hA)
    | with_reducible apply Only.settle (hA := List.Subset.trans (by decide) hA)
    | with_reducible apply Only.whenS
    | with_reducible refine Only.ite ?_ ?_
    | split

theorem Only.flightBusError {A : List Part} {sB : State} (r : Req) (addr : Nat) (d : Dir) (frame : Option (Fin 8)) (s : State) (hA : [.notice, .tens, .sch, .reqs, .tiles, .streams, .ks, .fp, .jrn, .evPend, .buserr, .becnt, .pviol, .pvcnt, .out] ⊆ A) (h : Only A sB s) : Only A sB (Machine.flightBusError r addr d frame s) := by
  unfold Machine.flightBusError
  repeat' first
    | dsimp only
    | with_reducible assumption
    | intro _
    | with_reducible apply Only.bufBusError (hA := List.Subset.trans (by decide) hA)
    | with_reducible apply Only.busErrorOf (hA := List.Subset.trans (by decide) hA)
    | with_reducible apply Only.whenS
    | with_reducible refine Only.ite ?_ ?_
    | split

theorem Only.leftBusError {A : List Part} {sB : State} (id addr : Nat) (d : Dir) (frame : Option (Fin 8)) (s : State) (hA : [.notice, .tens, .jrn, .evPend, .buserr, .becnt, .pviol, .pvcnt, .out] ⊆ A) (h : Only A sB s) : Only A sB (Machine.leftBusError id addr d frame s) := by
  unfold Machine.leftBusError
  repeat' first
    | dsimp only
    | with_reducible assumption
    | intro _
    | with_reducible apply Only.busErrorOf (hA := List.Subset.trans (by decide) hA)
    | with_reducible refine Only.ite ?_ ?_
    | split

theorem Only.reqBusError {A : List Part} {sB : State} (id addr : Nat) (d : Dir) (frame : Option (Fin 8)) (s : State) (hA : [.notice, .tens, .sch, .reqs, .tiles, .streams, .ks, .fp, .jrn, .evPend, .buserr, .becnt, .pviol, .pvcnt, .out] ⊆ A) (h : Only A sB s) : Only A sB (Machine.reqBusError id addr d frame s) := by
  unfold Machine.reqBusError
  repeat' first
    | dsimp only
    | with_reducible assumption
    | intro _
    | with_reducible apply Only.flightBusError (hA := List.Subset.trans (by decide) hA)
    | with_reducible apply Only.leftBusError (hA := List.Subset.trans (by decide) hA)
    | with_reducible refine Only.ite ?_ ?_
    | split

theorem Only.takeBack {A : List Part} {sB : State} (n m : Nat) (r : Req) (s : State) (hA : [.tens, .cqs, .reqs, .sent] ⊆ A) (h : Only A sB s) : Only A sB (Machine.takeBack n m r s) := by
  unfold Machine.takeBack
  repeat' first
    | dsimp only
    | with_reducible assumption
    | intro _
    | with_reducible apply Only.modCq (hA := List.Subset.trans (by decide) hA)
    | with_reducible apply Only.modReqs (hA := List.Subset.trans (by decide) hA)
    | with_reducible apply Only.modSent (hA := List.Subset.trans (by decide) hA)
    | with_reducible apply Only.modTen (hA := List.Subset.trans (by decide) hA)
    | with_reducible refine Only.ite ?_ ?_
    | split

theorem Only.foldr {A : List Part} {s0 s : State} {α : Type} {f : α → State → State} (l : List α) (h : Only A s0 s) (hf : ∀ a s, Only A s0 s → Only A s0 (f a s)) :
    Only A s0 (l.foldr f s) := by
  induction l with
  | nil => exact h
  | cons a t ih => exact hf a _ ih

theorem Only.recordBusError {A : List Part} {sB : State} (n : TenantIx) (m : RingIx) (id addr : Nat) (s : State) (hA : [.notice, .tens, .cqs, .reqs, .sent, .jrn, .evPend, .buserr, .becnt, .pviol, .pvcnt, .out] ⊆ A) (h : Only A sB s) : Only A sB (Machine.recordBusError n m id addr s) := by
  unfold Machine.recordBusError
  repeat' first
    | dsimp only
    | with_reducible assumption
    | intro _
    | with_reducible apply Only.busErrorOf (hA := List.Subset.trans (by decide) hA)
    | with_reducible apply Only.cqFault (hA := List.Subset.trans (by decide) hA)
    | with_reducible apply Only.foldl
    | with_reducible apply Only.foldr
    | with_reducible apply Only.rescue (hA := List.Subset.trans (by decide) hA)
    | with_reducible apply Only.takeBack (hA := List.Subset.trans (by decide) hA)
    | with_reducible refine Only.ite ?_ ?_
    | split

theorem Only.rescueBusError {A : List Part} {sB : State} (n : TenantIx) (m : RingIx) (addr : Nat) (s : State) (hA : [.notice, .tens, .reqs, .jrn, .evPend, .buserr, .becnt, .pviol, .pvcnt, .out] ⊆ A) (h : Only A sB s) : Only A sB (Machine.rescueBusError n m addr s) := by
  unfold Machine.rescueBusError
  repeat' first
    | dsimp only
    | with_reducible assumption
    | intro _
    | with_reducible apply Only.busErrorOf (hA := List.Subset.trans (by decide) hA)
    | with_reducible apply Only.modReq (hA := List.Subset.trans (by decide) hA)
    | with_reducible apply Only.rescueFaultRecord (hA := List.Subset.trans (by decide) hA)
    | with_reducible refine Only.ite ?_ ?_
    | split

theorem Only.ringBusError {A : List Part} {sB : State} (n : TenantIx) (m : RingIx) (addr : Nat) (s : State) (hA : [.notice, .tens, .sqs, .jrn, .evPend, .buserr, .becnt, .pviol, .pvcnt, .out] ⊆ A) (h : Only A sB s) : Only A sB (Machine.ringBusError n m addr s) := by
  unfold Machine.ringBusError
  repeat' first
    | dsimp only
    | with_reducible assumption
    | intro _
    | with_reducible apply Only.busErrorOf (hA := List.Subset.trans (by decide) hA)
    | with_reducible apply Only.modSq (hA := List.Subset.trans (by decide) hA)
    | with_reducible apply Only.sqFault (hA := List.Subset.trans (by decide) hA)
    | with_reducible refine Only.ite ?_ ?_
    | split

theorem Only.chanBusError {A : List Part} {sB : State} (k : ChanIx) (addr : Nat) (d : Dir) (pref merged : Bool) (s : State) (hA : [.notice, .tens, .dcs, .jrn, .evPend, .buserr, .becnt, .pviol, .pvcnt, .out] ⊆ A) (h : Only A sB s) : Only A sB (Machine.chanBusError k addr d pref merged s) := by
  unfold Machine.chanBusError
  repeat' first
    | dsimp only
    | with_reducible assumption
    | intro _
    | with_reducible apply Only.busErrorOf (hA := List.Subset.trans (by decide) hA)
    | with_reducible apply Only.dcBusError (hA := List.Subset.trans (by decide) hA)
    | with_reducible apply Only.dcMergedFault (hA := List.Subset.trans (by decide) hA)
    | with_reducible refine Only.ite ?_ ?_
    | split

theorem Only.imageBusError {A : List Part} {sB : State} (addr : Nat) (d : Dir) (s : State) (hA : [.notice, .gen, .tens, .jrn, .evPend, .buserr, .becnt, .pviol, .pvcnt, .out] ⊆ A) (h : Only A sB s) : Only A sB (Machine.imageBusError addr d s) := by
  unfold Machine.imageBusError
  repeat' first
    | dsimp only
    | with_reducible assumption
    | intro _
    | with_reducible apply Only.busErrorOf (hA := List.Subset.trans (by decide) hA)
    | with_reducible refine Only.modGen _ (List.Subset.trans (by decide) hA) ?_ ?_
    | with_reducible refine Only.ite ?_ ?_
    | split

theorem Only.fxBusErrorResponse {A : List Part} {sB : State} (src : Src) (addr : BitVec 48) (dir : Dir) (s : State) (hA : [.notice, .gen, .tens, .sqs, .cqs, .sch, .reqs, .sent, .tiles, .streams, .ks, .dcs, .fp, .jrn, .evPend, .buserr, .becnt, .pviol, .pvcnt, .out] ⊆ A) (h : Only A sB s) : Only A sB (Machine.fxBusErrorResponse src addr dir s) := by
  unfold Machine.fxBusErrorResponse
  repeat' first
    | dsimp only
    | with_reducible assumption
    | intro _
    | with_reducible apply Only.busErrorOf (hA := List.Subset.trans (by decide) hA)
    | with_reducible apply Only.chanBusError (hA := List.Subset.trans (by decide) hA)
    | with_reducible apply Only.imageBusError (hA := List.Subset.trans (by decide) hA)
    | with_reducible apply Only.noticeFault (hA := List.Subset.trans (by decide) hA)
    | with_reducible apply Only.recordBusError (hA := List.Subset.trans (by decide) hA)
    | with_reducible apply Only.reqBusError (hA := List.Subset.trans (by decide) hA)
    | with_reducible apply Only.rescueBusError (hA := List.Subset.trans (by decide) hA)
    | with_reducible apply Only.ringBusError (hA := List.Subset.trans (by decide) hA)
    | with_reducible refine Only.ite ?_ ?_
    | split
    | rfl

end Sys2Proof.Machine
end

