-- ==== Sys2Proof/Laws/FrameCourse.lean ====
section
/-!
SUPPORT. Frames of the operations of Machine/Course.lean: the parts of the state that each may change.
-/

set_option Elab.async false

namespace Sys2Proof.Machine

theorem Only.crsState {A : List Part} {sB : State} (before after cause : Nat) (s : State) (hA : [.notice, .jrn, .evPend, .pviol, .pvcnt, .out] ⊆ A) (h : Only A sB s) : Only A sB (Machine.crsState before after cause s) := by
  unfold Machine.crsState
  repeat' first
    | with_reducible assumption
    | with_reducible apply Only.crsRecord (hA := List.Subset.trans (by decide) hA)
    | with_reducible apply Only.raiseG (hA := List.Subset.trans (by decide) hA)

theorem Only.idlePair {A : List Part} {sB : State} (p : Nat) (s : State) (hA : [.sch, .tiles, .crs] ⊆ A) (h : Only A sB s) : Only A sB (Machine.idlePair p s) := by
  unfold Machine.idlePair
  repeat' first
    | dsimp only
    | with_reducible assumption
    | intro _
    | with_reducible apply Only.dropWork (hA := List.Subset.trans (by decide) hA)
    | with_reducible apply Only.modPeer (hA := List.Subset.trans (by decide) hA)
    | with_reducible refine Only.ite ?_ ?_
    | split

theorem Only.stopPairing {A : List Part} {sB : State} (p cause : Nat) (s : State) (hA : [.sch, .tiles, .crs] ⊆ A) (h : Only A sB s) : Only A sB (Machine.stopPairing p cause s) := by
  unfold Machine.stopPairing
  repeat' first
    | dsimp only
    | with_reducible assumption
    | intro _
    | with_reducible apply Only.idlePair (hA := List.Subset.trans (by decide) hA)
    | with_reducible apply Only.modCrs (hA := List.Subset.trans (by decide) hA)
    | with_reducible refine Only.ite ?_ ?_
    | split

theorem Only.formationStops {A : List Part} {sB : State} (p : Nat) (s : State) (hA : [.notice, .sch, .tiles, .jrn, .evPend, .pviol, .pvcnt, .crs, .out] ⊆ A) (h : Only A sB s) : Only A sB (Machine.formationStops p s) := by
  unfold Machine.formationStops
  repeat' first
    | dsimp only
    | with_reducible assumption
    | with_reducible apply Only.crsState (hA := List.Subset.trans (by decide) hA)
    | with_reducible apply Only.stopPairing (hA := List.Subset.trans (by decide) hA)

theorem Only.sayHello {A : List Part} {sB : State} (p : Nat) (s : State) (hA : [.notice, .ces, .es, .rbgs, .jrn, .evPend, .pviol, .pvcnt, .crs, .out] ⊆ A) (h : Only A sB s) : Only A sB (Machine.sayHello p s) := by
  unfold Machine.sayHello
  repeat' first
    | dsimp only
    | with_reducible assumption
    | intro _
    | with_reducible refine Only.generate_eq (hA := List.Subset.trans (by decide) hA) (by assumption) ?_
    | with_reducible apply Only.generate (hA := List.Subset.trans (by decide) hA)
    | with_reducible apply Only.modPeer (hA := List.Subset.trans (by decide) hA)
    | with_reducible apply Only.sendFrame (hA := List.Subset.trans (by decide) hA)
    | with_reducible refine Only.ite ?_ ?_
    | split

theorem Only.startForming {A : List Part} {sB : State} (s : State) (hA : [.notice, .ces, .es, .rbgs, .jrn, .evPend, .pviol, .pvcnt, .crs, .out, .free] ⊆ A) (h : Only A sB s) : Only A sB (Machine.startForming s) := by
  unfold Machine.startForming
  repeat' first
    | with_reducible assumption
    | intro _
    | with_reducible apply Only.eachN
    | with_reducible apply Only.modCrs (hA := List.Subset.trans (by decide) hA)
    | with_reducible apply Only.sayHello (hA := List.Subset.trans (by decide) hA)
    | with_reducible refine Only.ite ?_ ?_

theorem Only.courseStatement {A : List Part} {sB : State} (p : Nat) (out : Bytes) (s : State) (hA : [.notice, .ces, .es, .rbgs, .jrn, .evPend, .pviol, .pvcnt, .out] ⊆ A) (h : Only A sB s) : Only A sB (Machine.courseStatement p out s).2 := by
  unfold Machine.courseStatement
  repeat' first
    | dsimp only
    | with_reducible assumption
    | intro _
    | with_reducible refine Only.generate_eq (hA := List.Subset.trans (by decide) hA) (by assumption) ?_
    | with_reducible apply Only.generate (hA := List.Subset.trans (by decide) hA)
    | with_reducible refine Only.ite ?_ ?_
    | split

theorem Only.courseStatement_eq {A : List Part} {sB : State} {p : Nat} {out : Bytes} {s : State} {y : Option Bytes} {t : State} (hA : [.notice, .ces, .es, .rbgs, .jrn, .evPend, .pviol, .pvcnt, .out] ⊆ A) (e : Machine.courseStatement p out s = (y, t)) (h : Only A sB s) : Only A sB t := by
  have := Only.courseStatement p out s hA h
  rwa [e] at this

theorem Only.issueStep {A : List Part} {sB : State} (attests : Bool) (p : Nat) (s : State) (hA : [.notice, .sch, .tiles, .jrn, .evPend, .pviol, .pvcnt, .crs, .out] ⊆ A) (h : Only A sB s) : Only A sB (Machine.issueStep attests p s) := by
  unfold Machine.issueStep
  repeat' first
    | dsimp only
    | with_reducible assumption
    | intro _
    | with_reducible apply Only.formationStops (hA := List.Subset.trans (by decide) hA)
    | with_reducible apply Only.issueJob (hA := List.Subset.trans (by decide) hA)
    | with_reducible refine Only.ite ?_ ?_
    | split

theorem Only.masterAgree {A : List Part} {sB : State} (p : Nat) (s : State) (hA : [.notice, .sch, .tiles, .ces, .es, .rbgs, .jrn, .evPend, .pviol, .pvcnt, .crs, .out] ⊆ A) (h : Only A sB s) : Only A sB (Machine.masterAgree p s) := by
  unfold Machine.masterAgree
  repeat' first
    | dsimp only
    | with_reducible assumption
    | intro _
    | with_reducible refine Only.courseStatement_eq (hA := List.Subset.trans (by decide) hA) (by assumption) ?_
    | with_reducible apply Only.courseStatement (hA := List.Subset.trans (by decide) hA)
    | with_reducible apply Only.formationStops (hA := List.Subset.trans (by decide) hA)
    | with_reducible refine Only.generate_eq (hA := List.Subset.trans (by decide) hA) (by assumption) ?_
    | with_reducible apply Only.generate (hA := List.Subset.trans (by decide) hA)
    | with_reducible apply Only.modPeer (hA := List.Subset.trans (by decide) hA)
    | with_reducible apply Only.sendLong (hA := List.Subset.trans (by decide) hA)
    | with_reducible refine Only.ite ?_ ?_
    | split

theorem Only.demote {A : List Part} {sB : State} (p cause : Nat) (s : State) (hA : [.notice, .sch, .tiles, .ces, .es, .rbgs, .jrn, .evPend, .pviol, .pvcnt, .crs, .out] ⊆ A) (h : Only A sB s) : Only A sB (Machine.demote p cause s) := by
  unfold Machine.demote
  repeat' first
    | dsimp only
    | with_reducible assumption
    | intro _
    | with_reducible apply Only.crsState (hA := List.Subset.trans (by decide) hA)
    | with_reducible apply Only.idlePair (hA := List.Subset.trans (by decide) hA)
    | with_reducible apply Only.modCrs (hA := List.Subset.trans (by decide) hA)
    | with_reducible apply Only.sayHello (hA := List.Subset.trans (by decide) hA)
    | with_reducible refine Only.ite ?_ ?_
    | split

theorem Only.secondMaster {A : List Part} {sB : State} (p cause : Nat) (s : State) (hA : [.notice, .sch, .tiles, .ces, .es, .rbgs, .jrn, .evPend, .pviol, .pvcnt, .crs, .out] ⊆ A) (h : Only A sB s) : Only A sB (Machine.secondMaster p cause s) := by
  unfold Machine.secondMaster
  repeat' first
    | dsimp only
    | with_reducible assumption
    | intro _
    | with_reducible apply Only.demote (hA := List.Subset.trans (by decide) hA)
    | with_reducible apply Only.modCrs (hA := List.Subset.trans (by decide) hA)
    | with_reducible refine Only.ite ?_ ?_
    | split

theorem Only.hearMaster {A : List Part} {sB : State} (p : Nat) (s : State) (hA : [.notice, .sch, .tiles, .ces, .es, .rbgs, .jrn, .evPend, .pviol, .pvcnt, .crs, .out] ⊆ A) (h : Only A sB s) : Only A sB (Machine.hearMaster p s) := by
  unfold Machine.hearMaster
  repeat' first
    | dsimp only
    | with_reducible assumption
    | intro _
    | with_reducible apply Only.secondMaster (hA := List.Subset.trans (by decide) hA)
    | with_reducible refine Only.ite ?_ ?_
    | split

theorem Only.hearBeat {A : List Part} {sB : State} (p : Nat) (s : State) (hA : [.notice, .sch, .tiles, .ces, .es, .rbgs, .jrn, .evPend, .pviol, .pvcnt, .crs, .out] ⊆ A) (h : Only A sB s) : Only A sB (Machine.hearBeat p s) := by
  unfold Machine.hearBeat
  repeat' first
    | dsimp only
    | with_reducible assumption
    | intro _
    | with_reducible apply Only.hearMaster (hA := List.Subset.trans (by decide) hA)
    | with_reducible refine Only.ite ?_ ?_
    | split

theorem Only.hearHello {A : List Part} {sB : State} (p : Nat) (b : Bytes) (s : State) (hA : [.notice, .sch, .tiles, .ces, .es, .rbgs, .jrn, .evPend, .pviol, .pvcnt, .crs, .out] ⊆ A) (h : Only A sB s) : Only A sB (Machine.hearHello p b s) := by
  unfold Machine.hearHello
  repeat' first
    | dsimp only
    | with_reducible assumption
    | intro _
    | with_reducible apply Only.idlePair (hA := List.Subset.trans (by decide) hA)
    | with_reducible apply Only.issueStep (hA := List.Subset.trans (by decide) hA)
    | with_reducible apply Only.modCrs (hA := List.Subset.trans (by decide) hA)
    | with_reducible apply Only.modPeer (hA := List.Subset.trans (by decide) hA)
    | with_reducible apply Only.sayHello (hA := List.Subset.trans (by decide) hA)
    | with_reducible apply Only.secondMaster (hA := List.Subset.trans (by decide) hA)
    | with_reducible refine Only.ite ?_ ?_
    | split

theorem Only.fxCourseHello {A : List Part} {sB : State} (peer : Fin 4) (hello : Hello) (s : State) (hA : [.notice, .sch, .tiles, .ces, .es, .rbgs, .jrn, .evPend, .pviol, .pvcnt, .crs, .out, .free] ⊆ A) (h : Only A sB s) : Only A sB (Machine.fxCourseHello peer hello s) := by
  unfold Machine.fxCourseHello
  repeat' first
    | with_reducible assumption
    | intro _
    | with_reducible apply Only.hearHello (hA := List.Subset.trans (by decide) hA)
    | with_reducible apply Only.whenS

theorem Only.followAgree {A : List Part} {sB : State} (p : Nat) (s : State) (hA : [.crs] ⊆ A) (h : Only A sB s) : Only A sB (Machine.followAgree p s) := by
  unfold Machine.followAgree
  repeat' first
    | dsimp only
    | with_reducible assumption
    | intro _
    | with_reducible apply Only.modCrs (hA := List.Subset.trans (by decide) hA)
    | with_reducible refine Only.ite ?_ ?_

theorem Only.hearAgree {A : List Part} {sB : State} (p : Nat) (output stmt : Bytes) (s : State) (hA : [.evPend, .pviol, .pvcnt, .crs, .out] ⊆ A) (h : Only A sB s) : Only A sB (Machine.hearAgree p output stmt s) := by
  unfold Machine.hearAgree
  repeat' first
    | dsimp only
    | with_reducible assumption
    | intro _
    | with_reducible apply Only.emitWr (hA := List.Subset.trans (by decide) hA)
    | with_reducible apply Only.followAgree (hA := List.Subset.trans (by decide) hA)
    | with_reducible apply Only.modPeer (hA := List.Subset.trans (by decide) hA)
    | with_reducible apply Only.raiseG (hA := List.Subset.trans (by decide) hA)
    | with_reducible apply Only.violP (hA := List.Subset.trans (by decide) hA)
    | with_reducible refine Only.ite ?_ ?_
    | split

theorem Only.fxCourseAgreeReceived {A : List Part} {sB : State} (peer : Fin 4) (output stmt : Bytes) (s : State) (hA : [.evPend, .pviol, .pvcnt, .crs, .out] ⊆ A) (h : Only A sB s) : Only A sB (Machine.fxCourseAgreeReceived peer output stmt s) := by
  unfold Machine.fxCourseAgreeReceived
  repeat' first
    | with_reducible assumption
    | intro _
    | with_reducible apply Only.hearAgree (hA := List.Subset.trans (by decide) hA)
    | with_reducible apply Only.whenS

theorem Only.joined {A : List Part} {sB : State} (p : Nat) (gkey : Bytes) (epoch : Nat) (s : State) (hA : [.crs] ⊆ A) (h : Only A sB s) : Only A sB (Machine.joined p gkey epoch s) := by
  unfold Machine.joined
  repeat' first
    | with_reducible assumption
    | with_reducible apply Only.modPeer (hA := List.Subset.trans (by decide) hA)

theorem Only.sendGroup {A : List Part} {sB : State} (p : Nat) (s : State) (hA : [.notice, .ces, .es, .rbgs, .jrn, .evPend, .pviol, .pvcnt, .crs, .out] ⊆ A) (h : Only A sB s) : Only A sB (Machine.sendGroup p s) := by
  unfold Machine.sendGroup
  repeat' first
    | dsimp only
    | with_reducible assumption
    | intro _
    | with_reducible refine Only.generate_eq (hA := List.Subset.trans (by decide) hA) (by assumption) ?_
    | with_reducible apply Only.generate (hA := List.Subset.trans (by decide) hA)
    | with_reducible apply Only.joined (hA := List.Subset.trans (by decide) hA)
    | with_reducible apply Only.modPeer (hA := List.Subset.trans (by decide) hA)
    | with_reducible apply Only.raiseG (hA := List.Subset.trans (by decide) hA)
    | with_reducible apply Only.sendFrame (hA := List.Subset.trans (by decide) hA)
    | with_reducible refine Only.ite ?_ ?_
    | split

theorem Only.masterFinish {A : List Part} {sB : State} (p : Nat) (s : State) (hA : [.notice, .ces, .es, .rbgs, .jrn, .evPend, .pviol, .pvcnt, .crs, .out] ⊆ A) (h : Only A sB s) : Only A sB (Machine.masterFinish p s) := by
  unfold Machine.masterFinish
  repeat' first
    | dsimp only
    | with_reducible assumption
    | intro _
    | with_reducible refine Only.generate_eq (hA := List.Subset.trans (by decide) hA) (by assumption) ?_
    | with_reducible apply Only.generate (hA := List.Subset.trans (by decide) hA)
    | with_reducible apply Only.modCrs (hA := List.Subset.trans (by decide) hA)
    | with_reducible apply Only.modPeer (hA := List.Subset.trans (by decide) hA)
    | with_reducible apply Only.sendGroup (hA := List.Subset.trans (by decide) hA)
    | with_reducible refine Only.ite ?_ ?_
    | split

theorem Only.memberRespond {A : List Part} {sB : State} (p : Nat) (s : State) (hA : [.notice, .sch, .tiles, .ces, .es, .rbgs, .jrn, .evPend, .pviol, .pvcnt, .crs, .out] ⊆ A) (h : Only A sB s) : Only A sB (Machine.memberRespond p s) := by
  unfold Machine.memberRespond
  repeat' first
    | dsimp only
    | with_reducible assumption
    | intro _
    | with_reducible refine Only.courseStatement_eq (hA := List.Subset.trans (by decide) hA) (by assumption) ?_
    | with_reducible apply Only.courseStatement (hA := List.Subset.trans (by decide) hA)
    | with_reducible apply Only.formationStops (hA := List.Subset.trans (by decide) hA)
    | with_reducible refine Only.generate_eq (hA := List.Subset.trans (by decide) hA) (by assumption) ?_
    | with_reducible apply Only.generate (hA := List.Subset.trans (by decide) hA)
    | with_reducible apply Only.modPeer (hA := List.Subset.trans (by decide) hA)
    | with_reducible apply Only.sendLong (hA := List.Subset.trans (by decide) hA)
    | with_reducible refine Only.ite ?_ ?_
    | split

theorem Only.peerRecord {A : List Part} {sB : State} (p outcome : Nat) (s : State) (hA : [.notice, .jrn, .evPend, .pviol, .pvcnt, .out] ⊆ A) (h : Only A sB s) : Only A sB (Machine.peerRecord p outcome s) := by
  unfold Machine.peerRecord
  repeat' first
    | with_reducible assumption
    | with_reducible apply Only.crsRecord (hA := List.Subset.trans (by decide) hA)

theorem Only.courseAccept {A : List Part} {sB : State} (s : State) (hA : [.notice, .sch, .tiles, .jrn, .evPend, .pviol, .pvcnt, .crs, .out] ⊆ A) (h : Only A sB s) : Only A sB (Machine.courseAccept s) := by
  unfold Machine.courseAccept
  repeat' first
    | dsimp only
    | with_reducible assumption
    | intro _
    | with_reducible apply Only.issueStep (hA := List.Subset.trans (by decide) hA)
    | with_reducible apply Only.modPeer (hA := List.Subset.trans (by decide) hA)
    | with_reducible apply Only.peerRecord (hA := List.Subset.trans (by decide) hA)
    | with_reducible refine Only.ite ?_ ?_
    | split

theorem Only.stepEnds {A : List Part} {sB : State} (p : Nat) (s : State) (hA : [.notice, .sch, .tiles, .ces, .es, .rbgs, .jrn, .evPend, .pviol, .pvcnt, .crs, .out] ⊆ A) (h : Only A sB s) : Only A sB (Machine.stepEnds p s) := by
  unfold Machine.stepEnds
  repeat' first
    | dsimp only
    | with_reducible assumption
    | intro _
    | with_reducible apply Only.masterAgree (hA := List.Subset.trans (by decide) hA)
    | with_reducible apply Only.masterFinish (hA := List.Subset.trans (by decide) hA)
    | with_reducible apply Only.memberRespond (hA := List.Subset.trans (by decide) hA)
    | with_reducible refine Only.ite ?_ ?_
    | split

theorem Only.fxCourseAccept {A : List Part} {sB : State} (who : Who) (s : State) (hA : [.denied, .notice, .sch, .tiles, .es, .rbgs, .jrn, .evPend, .pviol, .pvcnt, .crs, .out, .free] ⊆ A) (h : Only A sB s) : Only A sB (Machine.fxCourseAccept who s) := by
  unfold Machine.fxCourseAccept
  repeat' first
    | with_reducible assumption
    | intro _
    | with_reducible apply Only.courseAccept (hA := List.Subset.trans (by decide) hA)
    | with_reducible apply Only.gateW (hA := List.Subset.trans (by decide) hA)

theorem Only.abandon {A : List Part} {sB : State} (cause : Nat) (s : State) (hA : [.notice, .sch, .tiles, .jrn, .evPend, .pviol, .pvcnt, .crs, .out] ⊆ A) (h : Only A sB s) : Only A sB (Machine.abandon cause s) := by
  unfold Machine.abandon
  repeat' first
    | with_reducible assumption
    | with_reducible apply Only.peerRecord (hA := List.Subset.trans (by decide) hA)
    | with_reducible apply Only.raiseG (hA := List.Subset.trans (by decide) hA)
    | with_reducible apply Only.stopPairing (hA := List.Subset.trans (by decide) hA)
    | split

theorem Only.fxCourseReject {A : List Part} {sB : State} (who : Who) (s : State) (hA : [.denied, .notice, .sch, .tiles, .jrn, .evPend, .pviol, .pvcnt, .crs, .out] ⊆ A) (h : Only A sB s) : Only A sB (Machine.fxCourseReject who s) := by
  unfold Machine.fxCourseReject
  repeat' first
    | with_reducible assumption
    | intro _
    | with_reducible apply Only.abandon (hA := List.Subset.trans (by decide) hA)
    | with_reducible apply Only.gateW (hA := List.Subset.trans (by decide) hA)

theorem Only.fxCoursePairingTimeout {A : List Part} {sB : State} (s : State) (hA : [.notice, .sch, .tiles, .jrn, .evPend, .pviol, .pvcnt, .crs, .out] ⊆ A) (h : Only A sB s) : Only A sB (Machine.fxCoursePairingTimeout s) := by
  unfold Machine.fxCoursePairingTimeout
  repeat' first
    | with_reducible assumption
    | with_reducible apply Only.abandon (hA := List.Subset.trans (by decide) hA)

theorem Only.reAsk {A : List Part} {sB : State} (s : State) (hA : [.notice, .tens, .ks, .jrn, .evPend, .pviol, .pvcnt, .crs, .out] ⊆ A) (h : Only A sB s) : Only A sB (Machine.reAsk s) := by
  unfold Machine.reAsk
  repeat' first
    | dsimp only
    | with_reducible assumption
    | intro _
    | with_reducible apply Only.askBlock (hA := List.Subset.trans (by decide) hA)
    | with_reducible apply Only.modCrs (hA := List.Subset.trans (by decide) hA)
    | with_reducible apply Only.foldl

theorem Only.hearGroup {A : List Part} {sB : State} (p : Nat) (b : Bytes) (s : State) (hA : [.notice, .tens, .ks, .jrn, .evPend, .pviol, .pvcnt, .crs, .out] ⊆ A) (h : Only A sB s) : Only A sB (Machine.hearGroup p b s) := by
  unfold Machine.hearGroup
  repeat' first
    | dsimp only
    | with_reducible assumption
    | intro _
    | with_reducible apply Only.eachN
    | with_reducible apply Only.joined (hA := List.Subset.trans (by decide) hA)
    | with_reducible apply Only.modPeer (hA := List.Subset.trans (by decide) hA)
    | with_reducible apply Only.raiseG (hA := List.Subset.trans (by decide) hA)
    | with_reducible apply Only.reAsk (hA := List.Subset.trans (by decide) hA)
    | with_reducible refine Only.ite ?_ ?_

theorem Only.fxCourseGroup {A : List Part} {sB : State} (peer : Fin 4) (payload : Bytes) (s : State) (hA : [.notice, .tens, .ks, .jrn, .evPend, .pviol, .pvcnt, .crs, .out] ⊆ A) (h : Only A sB s) : Only A sB (Machine.fxCourseGroup peer payload s) := by
  unfold Machine.fxCourseGroup
  repeat' first
    | dsimp only
    | with_reducible assumption
    | intro _
    | with_reducible apply Only.hearGroup (hA := List.Subset.trans (by decide) hA)

theorem Only.becomeMaster {A : List Part} {sB : State} (s : State) (hA : [.crs] ⊆ A) (h : Only A sB s) : Only A sB (Machine.becomeMaster s) := by
  unfold Machine.becomeMaster
  repeat' first
    | dsimp only
    | with_reducible assumption
    | intro _
    | with_reducible apply Only.modCrs (hA := List.Subset.trans (by decide) hA)

theorem Only.fxCourseMasterTimeout {A : List Part} {sB : State} (s : State) (hA : [.notice, .sch, .tiles, .jrn, .evPend, .pviol, .pvcnt, .crs, .out] ⊆ A) (h : Only A sB s) : Only A sB (Machine.fxCourseMasterTimeout s) := by
  unfold Machine.fxCourseMasterTimeout
  repeat' first
    | dsimp only
    | with_reducible assumption
    | intro _
    | with_reducible apply Only.becomeMaster (hA := List.Subset.trans (by decide) hA)
    | with_reducible apply Only.eachN
    | with_reducible apply Only.issueStep (hA := List.Subset.trans (by decide) hA)
    | with_reducible apply Only.whenS
    | with_reducible refine Only.ite ?_ ?_
    | split

theorem Only.fxCourseLaneDown {A : List Part} {sB : State} (lane : Fin 2) (s : State) (hA : [.evPend, .crs] ⊆ A) (h : Only A sB s) : Only A sB (Machine.fxCourseLaneDown lane s) := by
  unfold Machine.fxCourseLaneDown
  repeat' first
    | with_reducible assumption
    | intro _
    | with_reducible apply Only.modCrs (hA := List.Subset.trans (by decide) hA)
    | with_reducible apply Only.raiseG (hA := List.Subset.trans (by decide) hA)
    | with_reducible apply Only.whenS

theorem Only.fxCourseLaneUp {A : List Part} {sB : State} (lane : Fin 2) (s : State) (hA : [.notice, .ces, .es, .rbgs, .jrn, .evPend, .pviol, .pvcnt, .crs, .out, .free] ⊆ A) (h : Only A sB s) : Only A sB (Machine.fxCourseLaneUp lane s) := by
  unfold Machine.fxCourseLaneUp
  repeat' first
    | dsimp only
    | with_reducible assumption
    | intro _
    | with_reducible apply Only.modCrs (hA := List.Subset.trans (by decide) hA)
    | with_reducible apply Only.startForming (hA := List.Subset.trans (by decide) hA)
    | with_reducible apply Only.whenS
    | with_reducible refine Only.ite ?_ ?_

theorem Only.fxBeat {A : List Part} {sB : State} (s : State) (hA : [.crs, .out] ⊆ A) (h : Only A sB s) : Only A sB (Machine.fxBeat s) := by
  unfold Machine.fxBeat
  repeat' first
    | with_reducible assumption
    | intro _
    | with_reducible apply Only.sendAll (hA := List.Subset.trans (by decide) hA)
    | with_reducible apply Only.sendFrame (hA := List.Subset.trans (by decide) hA)
    | with_reducible apply Only.whenS
    | with_reducible refine Only.ite ?_ ?_

theorem Only.hearBlockReq {A : List Part} {sB : State} (p : Nat) (b : Bytes) (s : State) (hA : [.notice, .tens, .ks, .jrn, .evPend, .pviol, .pvcnt, .crs, .out] ⊆ A) (h : Only A sB s) : Only A sB (Machine.hearBlockReq p b s) := by
  unfold Machine.hearBlockReq
  repeat' first
    | with_reducible assumption
    | intro _
    | with_reducible apply Only.beginGrant (hA := List.Subset.trans (by decide) hA)
    | with_reducible refine Only.ite ?_ ?_

theorem Only.fxBlockReq {A : List Part} {sB : State} (peer : Fin 4) (payload : Bytes) (s : State) (hA : [.notice, .tens, .ks, .jrn, .evPend, .pviol, .pvcnt, .crs, .out] ⊆ A) (h : Only A sB s) : Only A sB (Machine.fxBlockReq peer payload s) := by
  unfold Machine.fxBlockReq
  repeat' first
    | with_reducible assumption
    | with_reducible apply Only.hearBlockReq (hA := List.Subset.trans (by decide) hA)

theorem Only.hearBlockGrant {A : List Part} {sB : State} (p : Nat) (b : Bytes) (s0 : State) (hA : [.notice, .sch, .tiles, .ces, .es, .rbgs, .jrn, .evPend, .pviol, .pvcnt, .crs, .out] ⊆ A) (h : Only A sB s0) : Only A sB (Machine.hearBlockGrant p b s0) := by
  unfold Machine.hearBlockGrant
  repeat' first
    | dsimp only
    | with_reducible assumption
    | intro _
    | with_reducible apply Only.hearMaster (hA := List.Subset.trans (by decide) hA)
    | with_reducible apply Only.storeBlock (hA := List.Subset.trans (by decide) hA)
    | with_reducible refine Only.ite ?_ ?_
    | split

theorem Only.fxBlockGrant {A : List Part} {sB : State} (peer : Fin 4) (payload : Bytes) (s : State) (hA : [.notice, .sch, .tiles, .ces, .es, .rbgs, .jrn, .evPend, .pviol, .pvcnt, .crs, .out] ⊆ A) (h : Only A sB s) : Only A sB (Machine.fxBlockGrant peer payload s) := by
  unfold Machine.fxBlockGrant
  repeat' first
    | with_reducible assumption
    | with_reducible apply Only.hearBlockGrant (hA := List.Subset.trans (by decide) hA)

theorem Only.hearCtrSync {A : List Part} {sB : State} (p : Nat) (b : Bytes) (s0 : State) (hA : [.notice, .sch, .tiles, .ces, .es, .rbgs, .jrn, .evPend, .pviol, .pvcnt, .crs, .out] ⊆ A) (h : Only A sB s0) : Only A sB (Machine.hearCtrSync p b s0) := by
  unfold Machine.hearCtrSync
  repeat' first
    | dsimp only
    | with_reducible assumption
    | intro _
    | with_reducible apply Only.hearMaster (hA := List.Subset.trans (by decide) hA)
    | with_reducible apply Only.modCrs (hA := List.Subset.trans (by decide) hA)
    | with_reducible apply Only.sendFrame (hA := List.Subset.trans (by decide) hA)
    | with_reducible refine Only.ite ?_ ?_
    | split

theorem Only.fxCtrSync {A : List Part} {sB : State} (peer : Fin 4) (payload : Bytes) (s : State) (hA : [.notice, .sch, .tiles, .ces, .es, .rbgs, .jrn, .evPend, .pviol, .pvcnt, .crs, .out] ⊆ A) (h : Only A sB s) : Only A sB (Machine.fxCtrSync peer payload s) := by
  unfold Machine.fxCtrSync
  repeat' first
    | with_reducible assumption
    | with_reducible apply Only.hearCtrSync (hA := List.Subset.trans (by decide) hA)

theorem Only.finishGrant {A : List Part} {sB : State} (k : Nat) (s : State) (hA : [.notice, .tens, .ks, .jrn, .evPend, .pviol, .pvcnt, .crs, .out] ⊆ A) (h : Only A sB s) : Only A sB (Machine.finishGrant k s) := by
  unfold Machine.finishGrant
  repeat' first
    | dsimp only
    | with_reducible assumption
    | intro _
    | with_reducible apply Only.beginGrant (hA := List.Subset.trans (by decide) hA)
    | with_reducible apply Only.grantBlock (hA := List.Subset.trans (by decide) hA)
    | with_reducible apply Only.modCrs (hA := List.Subset.trans (by decide) hA)
    | with_reducible apply Only.foldl
    | with_reducible refine Only.ite ?_ ?_
    | split

theorem Only.acknowledged {A : List Part} {sB : State} (p k : Nat) (s : State) (hA : [.notice, .tens, .ks, .jrn, .evPend, .pviol, .pvcnt, .crs, .out] ⊆ A) (h : Only A sB s) : Only A sB (Machine.acknowledged p k s) := by
  unfold Machine.acknowledged
  repeat' first
    | dsimp only
    | with_reducible assumption
    | intro _
    | with_reducible apply Only.finishGrant (hA := List.Subset.trans (by decide) hA)
    | with_reducible apply Only.modCrs (hA := List.Subset.trans (by decide) hA)
    | with_reducible refine Only.ite ?_ ?_
    | split

theorem Only.withoutAcks {A : List Part} {sB : State} (p : Nat) (s0 s : State) (hA : [.notice, .tens, .ks, .jrn, .evPend, .pviol, .pvcnt, .crs, .out] ⊆ A) (h : Only A sB s) : Only A sB (Machine.withoutAcks p s0 s) := by
  unfold Machine.withoutAcks
  repeat' first
    | dsimp only
    | with_reducible assumption
    | intro _
    | with_reducible apply Only.acknowledged (hA := List.Subset.trans (by decide) hA)
    | with_reducible apply Only.foldl

theorem Only.hearCtrAck {A : List Part} {sB : State} (p : Nat) (b : Bytes) (s : State) (hA : [.notice, .tens, .ks, .jrn, .evPend, .pviol, .pvcnt, .crs, .out] ⊆ A) (h : Only A sB s) : Only A sB (Machine.hearCtrAck p b s) := by
  unfold Machine.hearCtrAck
  repeat' first
    | with_reducible assumption
    | intro _
    | with_reducible apply Only.acknowledged (hA := List.Subset.trans (by decide) hA)
    | with_reducible refine Only.ite ?_ ?_

theorem Only.fxCtrAck {A : List Part} {sB : State} (peer : Fin 4) (payload : Bytes) (s : State) (hA : [.notice, .tens, .ks, .jrn, .evPend, .pviol, .pvcnt, .crs, .out] ⊆ A) (h : Only A sB s) : Only A sB (Machine.fxCtrAck peer payload s) := by
  unfold Machine.fxCtrAck
  repeat' first
    | with_reducible assumption
    | with_reducible apply Only.hearCtrAck (hA := List.Subset.trans (by decide) hA)

theorem Only.takeSlotBank {A : List Part} {sB : State} (p : Nat) (b : Bytes) (s : State) (hA : [.sch, .ks] ⊆ A) (h : Only A sB s) : Only A sB (Machine.takeSlotBank p b s) := by
  unfold Machine.takeSlotBank
  repeat' first
    | dsimp only
    | with_reducible assumption
    | intro _
    | with_reducible apply Only.modSlot (hA := List.Subset.trans (by decide) hA)
    | with_reducible apply Only.prepareBank (hA := List.Subset.trans (by decide) hA)
    | with_reducible refine Only.ite ?_ ?_
    | split

theorem Only.hearSlotBank {A : List Part} {sB : State} (p : Nat) (b : Bytes) (s : State) (hA : [.notice, .sch, .tiles, .ces, .ks, .es, .rbgs, .jrn, .evPend, .pviol, .pvcnt, .crs, .out] ⊆ A) (h : Only A sB s) : Only A sB (Machine.hearSlotBank p b s) := by
  unfold Machine.hearSlotBank
  repeat' first
    | dsimp only
    | with_reducible assumption
    | intro _
    | with_reducible apply Only.hearMaster (hA := List.Subset.trans (by decide) hA)
    | with_reducible apply Only.orDefer (hA := List.Subset.trans (by decide) hA)
    | with_reducible apply Only.takeSlotBank (hA := List.Subset.trans (by decide) hA)
    | with_reducible refine Only.ite ?_ ?_
    | split

theorem Only.fxSlotBank {A : List Part} {sB : State} (peer : Fin 4) (payload : Bytes) (s : State) (hA : [.notice, .sch, .tiles, .ces, .ks, .es, .rbgs, .jrn, .evPend, .pviol, .pvcnt, .crs, .out] ⊆ A) (h : Only A sB s) : Only A sB (Machine.fxSlotBank peer payload s) := by
  unfold Machine.fxSlotBank
  repeat' first
    | with_reducible assumption
    | with_reducible apply Only.hearSlotBank (hA := List.Subset.trans (by decide) hA)

theorem Only.fxCourseForward {A : List Part} {sB : State} (id : Nat) (peer : Fin 4) (s : State) (hA : [.reqs, .crs, .out, .free] ⊆ A) (h : Only A sB s) : Only A sB (Machine.fxCourseForward id peer s) := by
  unfold Machine.fxCourseForward
  repeat' first
    | dsimp only
    | with_reducible assumption
    | intro _
    | with_reducible apply Only.eachN
    | with_reducible apply Only.foldl
    | with_reducible apply Only.modCrs (hA := List.Subset.trans (by decide) hA)
    | with_reducible apply Only.modPeer (hA := List.Subset.trans (by decide) hA)
    | with_reducible apply Only.modReq (hA := List.Subset.trans (by decide) hA)
    | with_reducible apply Only.nextFree (hA := List.Subset.trans (by decide) hA)
    | with_reducible apply Only.sendFrame (hA := List.Subset.trans (by decide) hA)
    | with_reducible apply Only.sendLong (hA := List.Subset.trans (by decide) hA)
    | with_reducible apply Only.whenS
    | with_reducible apply Only.withReq
    | with_reducible refine Only.ite ?_ ?_
    | split

theorem Only.hearFwdReq {A : List Part} {sB : State} (p : Fin 4) (b : Bytes) (s0 : State) (hA : [.notice, .sch, .tiles, .ces, .es, .rbgs, .jrn, .evPend, .pviol, .pvcnt, .crs, .out] ⊆ A) (h : Only A sB s0) : Only A sB (Machine.hearFwdReq p b s0) := by
  unfold Machine.hearFwdReq
  repeat' first
    | dsimp only
    | with_reducible assumption
    | intro _
    | with_reducible apply Only.hearMaster (hA := List.Subset.trans (by decide) hA)
    | with_reducible apply Only.modCrs (hA := List.Subset.trans (by decide) hA)
    | with_reducible apply Only.modPeer (hA := List.Subset.trans (by decide) hA)
    | with_reducible refine Only.ite ?_ ?_
    | split

theorem Only.fxFwdReq {A : List Part} {sB : State} (peer : Fin 4) (payload : Bytes) (s : State) (hA : [.notice, .tens, .sch, .reqs, .tiles, .ces, .streams, .ks, .es, .rbgs, .fp, .jrn, .evPend, .pviol, .pvcnt, .crs, .out] ⊆ A) (h : Only A sB s) : Only A sB (Machine.fxFwdReq peer payload s) := by
  unfold Machine.fxFwdReq
  repeat' first
    | with_reducible assumption
    | with_reducible apply Only.hearFwdReq (hA := List.Subset.trans (by decide) hA)

theorem Only.hearFwdData {A : List Part} {sB : State} (p : Nat) (b : Bytes) (s : State) (hA : [.notice, .tens, .sch, .reqs, .tiles, .streams, .ks, .fp, .jrn, .evPend, .pviol, .pvcnt, .crs, .out] ⊆ A) (h : Only A sB s) : Only A sB (Machine.hearFwdData p b s) := by
  unfold Machine.hearFwdData
  repeat' first
    | dsimp only
    | with_reducible assumption
    | intro _
    | with_reducible apply Only.modBuf (hA := List.Subset.trans (by decide) hA)
    | with_reducible apply Only.modCrs (hA := List.Subset.trans (by decide) hA)
    | with_reducible apply Only.settle (hA := List.Subset.trans (by decide) hA)
    | with_reducible refine Only.ite ?_ ?_
    | split

theorem Only.hearFwdResult {A : List Part} {sB : State} (p : Fin 4) (b : Bytes) (s : State) (hA : [.notice, .tens, .sch, .reqs, .tiles, .streams, .ks, .fp, .jrn, .evPend, .pviol, .pvcnt, .crs, .out] ⊆ A) (h : Only A sB s) : Only A sB (Machine.hearFwdResult p b s) := by
  unfold Machine.hearFwdResult
  repeat' first
    | dsimp only
    | with_reducible assumption
    | intro _
    | with_reducible apply Only.endChain (hA := List.Subset.trans (by decide) hA)
    | with_reducible apply Only.modCrs (hA := List.Subset.trans (by decide) hA)
    | with_reducible apply Only.modOp (hA := List.Subset.trans (by decide) hA)
    | with_reducible apply Only.modReq (hA := List.Subset.trans (by decide) hA)
    | with_reducible apply Only.settle (hA := List.Subset.trans (by decide) hA)
    | with_reducible apply Only.whenS
    | with_reducible apply Only.withReq
    | with_reducible refine Only.ite ?_ ?_
    | split

theorem Only.fxFwdResult {A : List Part} {sB : State} (peer : Fin 4) (payload : Bytes) (s : State) (hA : [.notice, .tens, .sch, .reqs, .tiles, .streams, .ks, .fp, .jrn, .evPend, .pviol, .pvcnt, .crs, .out] ⊆ A) (h : Only A sB s) : Only A sB (Machine.fxFwdResult peer payload s) := by
  unfold Machine.fxFwdResult
  repeat' first
    | dsimp only
    | with_reducible assumption
    | intro _
    | with_reducible apply Only.hearFwdResult (hA := List.Subset.trans (by decide) hA)

theorem Only.countDrop {A : List Part} {sB : State} (s : State) (hA : [.crs] ⊆ A) (h : Only A sB s) : Only A sB (Machine.countDrop s) := by
  unfold Machine.countDrop
  repeat' first
    | dsimp only
    | with_reducible assumption
    | intro _
    | with_reducible apply Only.modCrs (hA := List.Subset.trans (by decide) hA)
    | with_reducible refine Only.ite ?_ ?_
    | split

theorem Only.dropForeign {A : List Part} {sB : State} (r : Req) (s : State) (hA : [.reqs, .tiles, .ks, .crs] ⊆ A) (h : Only A sB s) : Only A sB (Machine.dropForeign r s) := by
  unfold Machine.dropForeign
  repeat' first
    | dsimp only
    | with_reducible assumption
    | intro _
    | with_reducible apply Only.countDrop (hA := List.Subset.trans (by decide) hA)
    | with_reducible apply Only.freeTiles (hA := List.Subset.trans (by decide) hA)
    | with_reducible apply Only.retireReq (hA := List.Subset.trans (by decide) hA)
    | with_reducible refine Only.ite ?_ ?_
    | split

theorem Only.dropQueued {A : List Part} {sB : State} (p number : Nat) (s : State) (hA : [.crs] ⊆ A) (h : Only A sB s) : Only A sB (Machine.dropQueued p number s) := by
  unfold Machine.dropQueued
  repeat' first
    | dsimp only
    | with_reducible assumption
    | intro _
    | with_reducible apply Only.countDrop (hA := List.Subset.trans (by decide) hA)
    | with_reducible apply Only.modCrs (hA := List.Subset.trans (by decide) hA)
    | with_reducible refine Only.ite ?_ ?_
    | split

theorem Only.hearFwdCancel {A : List Part} {sB : State} (p : Nat) (b : Bytes) (s : State) (hA : [.reqs, .tiles, .ks, .crs, .out] ⊆ A) (h : Only A sB s) : Only A sB (Machine.hearFwdCancel p b s) := by
  unfold Machine.hearFwdCancel
  repeat' first
    | dsimp only
    | with_reducible assumption
    | intro _
    | with_reducible apply Only.dropForeign (hA := List.Subset.trans (by decide) hA)
    | with_reducible apply Only.dropQueued (hA := List.Subset.trans (by decide) hA)
    | with_reducible apply Only.giveCredit (hA := List.Subset.trans (by decide) hA)
    | with_reducible refine Only.ite ?_ ?_
    | split

theorem Only.fxFwdCancel {A : List Part} {sB : State} (peer : Fin 4) (payload : Bytes) (s : State) (hA : [.reqs, .tiles, .ks, .crs, .out] ⊆ A) (h : Only A sB s) : Only A sB (Machine.fxFwdCancel peer payload s) := by
  unfold Machine.fxFwdCancel
  repeat' first
    | with_reducible assumption
    | with_reducible apply Only.hearFwdCancel (hA := List.Subset.trans (by decide) hA)

theorem Only.hearCredit {A : List Part} {sB : State} (p : Nat) (b : Bytes) (s : State) (hA : [.crs] ⊆ A) (h : Only A sB s) : Only A sB (Machine.hearCredit p b s) := by
  unfold Machine.hearCredit
  repeat' first
    | dsimp only
    | with_reducible assumption
    | intro _
    | with_reducible apply Only.modPeer (hA := List.Subset.trans (by decide) hA)
    | with_reducible refine Only.ite ?_ ?_
    | split

theorem Only.fxCredit {A : List Part} {sB : State} (peer : Fin 4) (payload : Bytes) (s : State) (hA : [.crs] ⊆ A) (h : Only A sB s) : Only A sB (Machine.fxCredit peer payload s) := by
  unfold Machine.fxCredit
  repeat' first
    | with_reducible assumption
    | with_reducible apply Only.hearCredit (hA := List.Subset.trans (by decide) hA)

theorem Only.runHere {A : List Part} {sB : State} (id : Nat) (s : State) (hA : [.notice, .tens, .sch, .reqs, .tiles, .streams, .ks, .fp, .jrn, .evPend, .pviol, .pvcnt, .crs, .out] ⊆ A) (h : Only A sB s) : Only A sB (Machine.runHere id s) := by
  unfold Machine.runHere
  repeat' first
    | dsimp only
    | with_reducible assumption
    | intro _
    | with_reducible apply Only.modReq (hA := List.Subset.trans (by decide) hA)
    | with_reducible apply Only.settle (hA := List.Subset.trans (by decide) hA)
    | with_reducible apply Only.unforward (hA := List.Subset.trans (by decide) hA)
    | with_reducible refine Only.ite ?_ ?_
    | split

theorem Only.recallAll {A : List Part} {sB : State} (p : Nat) (s : State) (hA : [.notice, .tens, .sch, .reqs, .tiles, .streams, .ks, .fp, .jrn, .evPend, .pviol, .pvcnt, .crs, .out] ⊆ A) (h : Only A sB s) : Only A sB (Machine.recallAll p s) := by
  unfold Machine.recallAll
  repeat' first
    | dsimp only
    | with_reducible assumption
    | intro _
    | with_reducible apply Only.foldl
    | with_reducible apply Only.modPeer (hA := List.Subset.trans (by decide) hA)
    | with_reducible apply Only.runHere (hA := List.Subset.trans (by decide) hA)
    | with_reducible refine Only.ite ?_ ?_
    | split

theorem Only.dropWaiting {A : List Part} {sB : State} (p : Nat) (r : Req) (s : State) (hA : [.crs] ⊆ A) (h : Only A sB s) : Only A sB (Machine.dropWaiting p r s) := by
  unfold Machine.dropWaiting
  repeat' first
    | dsimp only
    | with_reducible assumption
    | intro _
    | with_reducible apply Only.dropQueued (hA := List.Subset.trans (by decide) hA)
    | with_reducible refine Only.ite ?_ ?_
    | split

theorem Only.dropAll {A : List Part} {sB : State} (p : Nat) (s : State) (hA : [.reqs, .tiles, .ks, .crs] ⊆ A) (h : Only A sB s) : Only A sB (Machine.dropAll p s) := by
  unfold Machine.dropAll
  repeat' first
    | dsimp only
    | with_reducible assumption
    | intro _
    | with_reducible apply Only.dropForeign (hA := List.Subset.trans (by decide) hA)
    | with_reducible apply Only.dropWaiting (hA := List.Subset.trans (by decide) hA)
    | with_reducible apply Only.foldl
    | with_reducible apply Only.modPeer (hA := List.Subset.trans (by decide) hA)
    | with_reducible refine Only.ite ?_ ?_
    | split

theorem Only.fxCoursePeerSilent {A : List Part} {sB : State} (peer : Fin 4) (s : State) (hA : [.notice, .tens, .sch, .reqs, .tiles, .streams, .ks, .fp, .jrn, .evPend, .pviol, .pvcnt, .crs, .out] ⊆ A) (h : Only A sB s) : Only A sB (Machine.fxCoursePeerSilent peer s) := by
  unfold Machine.fxCoursePeerSilent
  repeat' first
    | dsimp only
    | with_reducible assumption
    | intro _
    | with_reducible apply Only.crsRecord (hA := List.Subset.trans (by decide) hA)
    | with_reducible apply Only.dropAll (hA := List.Subset.trans (by decide) hA)
    | with_reducible apply Only.modPeer (hA := List.Subset.trans (by decide) hA)
    | with_reducible apply Only.raiseG (hA := List.Subset.trans (by decide) hA)
    | with_reducible apply Only.recallAll (hA := List.Subset.trans (by decide) hA)
    | with_reducible apply Only.whenS
    | with_reducible apply Only.withoutAcks (hA := List.Subset.trans (by decide) hA)
    | with_reducible refine Only.ite ?_ ?_
    | split

theorem Only.resumeCounters {A : List Part} {sB : State} (s : State) (hA : [.ks] ⊆ A) (h : Only A sB s) : Only A sB (Machine.resumeCounters s) := by
  unfold Machine.resumeCounters
  repeat' first
    | dsimp only
    | with_reducible assumption
    | intro _
    | with_reducible apply Only.foldl
    | with_reducible apply Only.modSlot (hA := List.Subset.trans (by decide) hA)
    | with_reducible refine Only.ite ?_ ?_
    | split

theorem Only.takeOver {A : List Part} {sB : State} (s : State) (hA : [.notice, .tens, .ks, .jrn, .evPend, .pviol, .pvcnt, .crs, .out] ⊆ A) (h : Only A sB s) : Only A sB (Machine.takeOver s) := by
  unfold Machine.takeOver
  repeat' first
    | dsimp only
    | with_reducible assumption
    | intro _
    | with_reducible apply Only.becomeMaster (hA := List.Subset.trans (by decide) hA)
    | with_reducible apply Only.crsRecord (hA := List.Subset.trans (by decide) hA)
    | with_reducible apply Only.eachN
    | with_reducible apply Only.modCrs (hA := List.Subset.trans (by decide) hA)
    | with_reducible apply Only.modPeer (hA := List.Subset.trans (by decide) hA)
    | with_reducible apply Only.raiseG (hA := List.Subset.trans (by decide) hA)
    | with_reducible apply Only.reAsk (hA := List.Subset.trans (by decide) hA)
    | with_reducible apply Only.resumeCounters (hA := List.Subset.trans (by decide) hA)
    | with_reducible apply Only.sendFrame (hA := List.Subset.trans (by decide) hA)

theorem Only.hearTakeover {A : List Part} {sB : State} (p : Nat) (s : State) (hA : [.notice, .tens, .sch, .tiles, .ces, .ks, .es, .rbgs, .jrn, .evPend, .pviol, .pvcnt, .crs, .out] ⊆ A) (h : Only A sB s) : Only A sB (Machine.hearTakeover p s) := by
  unfold Machine.hearTakeover
  repeat' first
    | dsimp only
    | with_reducible assumption
    | intro _
    | with_reducible apply Only.modPeer (hA := List.Subset.trans (by decide) hA)
    | with_reducible apply Only.reAsk (hA := List.Subset.trans (by decide) hA)
    | with_reducible apply Only.secondMaster (hA := List.Subset.trans (by decide) hA)
    | with_reducible refine Only.ite ?_ ?_
    | split

theorem Only.fxTakeover {A : List Part} {sB : State} (peer : Fin 4) (_payload : Bytes) (s : State) (hA : [.notice, .tens, .sch, .tiles, .ces, .ks, .es, .rbgs, .jrn, .evPend, .pviol, .pvcnt, .crs, .out] ⊆ A) (h : Only A sB s) : Only A sB (Machine.fxTakeover peer _payload s) := by
  unfold Machine.fxTakeover
  repeat' first
    | dsimp only
    | with_reducible assumption
    | intro _
    | with_reducible apply Only.hearTakeover (hA := List.Subset.trans (by decide) hA)
    | with_reducible apply Only.takeOver (hA := List.Subset.trans (by decide) hA)
    | with_reducible apply Only.whenS
    | with_reducible refine Only.ite ?_ ?_

theorem Only.leaveCourse {A : List Part} {sB : State} (cause : Nat) (tell : Bool) (s : State) (hA : [.notice, .tens, .sch, .reqs, .tiles, .streams, .ks, .fp, .jrn, .evPend, .pviol, .pvcnt, .crs, .out] ⊆ A) (h : Only A sB s) : Only A sB (Machine.leaveCourse cause tell s) := by
  unfold Machine.leaveCourse
  repeat' first
    | dsimp only
    | with_reducible assumption
    | intro _
    | with_reducible apply Only.crsState (hA := List.Subset.trans (by decide) hA)
    | with_reducible apply Only.dropAll (hA := List.Subset.trans (by decide) hA)
    | with_reducible apply Only.dropWork (hA := List.Subset.trans (by decide) hA)
    | with_reducible apply Only.eachN
    | with_reducible apply Only.modCrs (hA := List.Subset.trans (by decide) hA)
    | with_reducible apply Only.recallAll (hA := List.Subset.trans (by decide) hA)
    | with_reducible apply Only.sendAll (hA := List.Subset.trans (by decide) hA)
    | with_reducible refine Only.ite ?_ ?_
    | split

theorem Only.fxCourseLeave {A : List Part} {sB : State} (who : Who) (s : State) (hA : [.denied, .notice, .tens, .sch, .reqs, .tiles, .streams, .ks, .fp, .jrn, .evPend, .pviol, .pvcnt, .crs, .out] ⊆ A) (h : Only A sB s) : Only A sB (Machine.fxCourseLeave who s) := by
  unfold Machine.fxCourseLeave
  repeat' first
    | with_reducible assumption
    | intro _
    | with_reducible apply Only.gateW (hA := List.Subset.trans (by decide) hA)
    | with_reducible apply Only.leaveCourse (hA := List.Subset.trans (by decide) hA)

theorem Only.enterCourse {A : List Part} {sB : State} (s : State) (hA : [.crs] ⊆ A) (h : Only A sB s) : Only A sB (Machine.enterCourse s) := by
  unfold Machine.enterCourse
  repeat' first
    | dsimp only
    | with_reducible assumption
    | intro _
    | with_reducible apply Only.modCrs (hA := List.Subset.trans (by decide) hA)

theorem Only.hearLeave {A : List Part} {sB : State} (p : Nat) (s : State) (hA : [.notice, .tens, .sch, .reqs, .tiles, .streams, .ks, .fp, .jrn, .evPend, .pviol, .pvcnt, .crs, .out] ⊆ A) (h : Only A sB s) : Only A sB (Machine.hearLeave p s) := by
  unfold Machine.hearLeave
  repeat' first
    | dsimp only
    | with_reducible assumption
    | intro _
    | with_reducible apply Only.dropAll (hA := List.Subset.trans (by decide) hA)
    | with_reducible apply Only.dropWork (hA := List.Subset.trans (by decide) hA)
    | with_reducible apply Only.leaveCourse (hA := List.Subset.trans (by decide) hA)
    | with_reducible apply Only.modPeer (hA := List.Subset.trans (by decide) hA)
    | with_reducible apply Only.recallAll (hA := List.Subset.trans (by decide) hA)
    | with_reducible apply Only.withoutAcks (hA := List.Subset.trans (by decide) hA)
    | with_reducible refine Only.ite ?_ ?_
    | split

theorem Only.courseReform {A : List Part} {sB : State} (s : State) (hA : [.notice, .sch, .tiles, .ces, .es, .rbgs, .jrn, .evPend, .pviol, .pvcnt, .crs, .out, .free] ⊆ A) (h : Only A sB s) : Only A sB (Machine.courseReform s) := by
  unfold Machine.courseReform
  repeat' first
    | dsimp only
    | with_reducible assumption
    | intro _
    | with_reducible apply Only.crsState (hA := List.Subset.trans (by decide) hA)
    | with_reducible apply Only.dropWork (hA := List.Subset.trans (by decide) hA)
    | with_reducible apply Only.eachN
    | with_reducible apply Only.modCrs (hA := List.Subset.trans (by decide) hA)
    | with_reducible apply Only.modPeer (hA := List.Subset.trans (by decide) hA)
    | with_reducible apply Only.startForming (hA := List.Subset.trans (by decide) hA)
    | with_reducible refine Only.ite ?_ ?_
    | split

theorem Only.fxCourseReform {A : List Part} {sB : State} (who : Who) (s : State) (hA : [.denied, .notice, .sch, .tiles, .ces, .es, .rbgs, .jrn, .evPend, .pviol, .pvcnt, .crs, .out, .free] ⊆ A) (h : Only A sB s) : Only A sB (Machine.fxCourseReform who s) := by
  unfold Machine.fxCourseReform
  repeat' first
    | with_reducible assumption
    | intro _
    | with_reducible apply Only.courseReform (hA := List.Subset.trans (by decide) hA)
    | with_reducible apply Only.gateW (hA := List.Subset.trans (by decide) hA)

theorem Only.crsSnap {A : List Part} {sB : State} (s : State) (hA : [.crs] ⊆ A) (h : Only A sB s) : Only A sB (Machine.crsSnap s) := by
  unfold Machine.crsSnap
  repeat' first
    | with_reducible assumption
    | with_reducible apply Only.modCrs (hA := List.Subset.trans (by decide) hA)

theorem Only.fxCrsSnap {A : List Part} {sB : State} (who : Who) (s : State) (hA : [.denied, .notice, .jrn, .evPend, .pviol, .pvcnt, .crs, .out] ⊆ A) (h : Only A sB s) : Only A sB (Machine.fxCrsSnap who s) := by
  unfold Machine.fxCrsSnap
  repeat' first
    | with_reducible assumption
    | intro _
    | with_reducible apply Only.crsSnap (hA := List.Subset.trans (by decide) hA)
    | with_reducible apply Only.gateW (hA := List.Subset.trans (by decide) hA)

theorem Only.reassemble {A : List Part} {sB : State} (p type : Nat) (b : Bytes) (done : Bytes → State → State) (s : State) (hA : [.crs] ⊆ A) (h : Only A sB s) (hdone : ∀ x0 x1, Only A sB x1 → Only A sB (done x0 x1)) : Only A sB (Machine.reassemble p type b done s) := by
  unfold Machine.reassemble
  repeat' first
    | dsimp only
    | with_reducible assumption
    | intro _
    | with_reducible apply Only.modPeer (hA := List.Subset.trans (by decide) hA)
    | with_reducible refine Only.ite ?_ ?_
    | apply hdone

theorem Only.takeFrame {A : List Part} {sB : State} (p : Fin 4) (type : Nat) (b : Bytes) (s : State) (hA : [.notice, .tens, .sch, .reqs, .tiles, .ces, .streams, .ks, .es, .rbgs, .fp, .jrn, .evPend, .pviol, .pvcnt, .crs, .out] ⊆ A) (h : Only A sB s) : Only A sB (Machine.takeFrame p type b s) := by
  unfold Machine.takeFrame
  repeat' first
    | dsimp only
    | with_reducible assumption
    | intro _
    | with_reducible apply Only.hearAgree (hA := List.Subset.trans (by decide) hA)
    | with_reducible apply Only.hearBeat (hA := List.Subset.trans (by decide) hA)
    | with_reducible apply Only.hearBlockGrant (hA := List.Subset.trans (by decide) hA)
    | with_reducible apply Only.hearBlockReq (hA := List.Subset.trans (by decide) hA)
    | with_reducible apply Only.hearCredit (hA := List.Subset.trans (by decide) hA)
    | with_reducible apply Only.hearCtrAck (hA := List.Subset.trans (by decide) hA)
    | with_reducible apply Only.hearCtrSync (hA := List.Subset.trans (by decide) hA)
    | with_reducible apply Only.hearFwdCancel (hA := List.Subset.trans (by decide) hA)
    | with_reducible apply Only.hearFwdData (hA := List.Subset.trans (by decide) hA)
    | with_reducible apply Only.hearFwdReq (hA := List.Subset.trans (by decide) hA)
    | with_reducible apply Only.hearFwdResult (hA := List.Subset.trans (by decide) hA)
    | with_reducible apply Only.hearGroup (hA := List.Subset.trans (by decide) hA)
    | with_reducible apply Only.hearHello (hA := List.Subset.trans (by decide) hA)
    | with_reducible apply Only.hearLeave (hA := List.Subset.trans (by decide) hA)
    | with_reducible apply Only.hearSlotBank (hA := List.Subset.trans (by decide) hA)
    | with_reducible apply Only.hearTakeover (hA := List.Subset.trans (by decide) hA)
    | with_reducible apply Only.reassemble (hA := List.Subset.trans (by decide) hA)
    | with_reducible refine Only.ite ?_ ?_
    | split

theorem Only.badFrame {A : List Part} {sB : State} (p lane type kind cnt : Nat) (s : State) (hA : [.notice, .jrn, .evPend, .pviol, .pvcnt, .crs, .out] ⊆ A) (h : Only A sB s) : Only A sB (Machine.badFrame p lane type kind cnt s) := by
  unfold Machine.badFrame
  repeat' first
    | with_reducible assumption
    | with_reducible apply Only.crsRecord (hA := List.Subset.trans (by decide) hA)
    | with_reducible apply Only.modCrs (hA := List.Subset.trans (by decide) hA)
    | with_reducible apply Only.raiseG (hA := List.Subset.trans (by decide) hA)

theorem Only.fxCourseFrameReceive {A : List Part} {sB : State} (lane : Fin 2) (frame : Bytes) (s : State) (hA : [.notice, .tens, .sch, .reqs, .tiles, .ces, .streams, .ks, .es, .rbgs, .fp, .jrn, .evPend, .pviol, .pvcnt, .crs, .out, .free] ⊆ A) (h : Only A sB s) : Only A sB (Machine.fxCourseFrameReceive lane frame s) := by
  unfold Machine.fxCourseFrameReceive
  repeat' first
    | dsimp only
    | with_reducible assumption
    | intro _
    | with_reducible apply Only.badFrame (hA := List.Subset.trans (by decide) hA)
    | with_reducible apply Only.emit (hA := List.Subset.trans (by decide) hA)
    | with_reducible apply Only.modPeer (hA := List.Subset.trans (by decide) hA)
    | with_reducible apply Only.reAsk (hA := List.Subset.trans (by decide) hA)
    | with_reducible apply Only.takeFrame (hA := List.Subset.trans (by decide) hA)
    | with_reducible apply Only.whenS
    | with_reducible refine Only.ite ?_ ?_

end Sys2Proof.Machine
end

