-- ==== Sys2Proof/Laws/FrameGenerations.lean ====
section
/-!
SUPPORT. Frames of the operations of Machine/Generations.lean: the parts of the state that each may change.
-/

set_option Elab.async false

namespace Sys2Proof.Machine

theorem Only.genErr {A : List Part} {sB : State} (e : Nat) (s : State) (hA : [.gen] ⊆ A) (h : Only A sB s) : Only A sB (Machine.genErr e s) := by
  unfold Machine.genErr
  repeat' first
    | dsimp only
    | with_reducible assumption
    | intro _
    | with_reducible refine Only.modGen _ (List.Subset.trans (by decide) hA) ?_ ?_

theorem Only.whenIdle {A : List Part} {sB : State} (f : State → State) (s : State) (hA : [.gen] ⊆ A) (h : Only A sB s) (hf : ∀ x0, Only A sB x0 → Only A sB (f x0)) : Only A sB (Machine.whenIdle f s) := by
  unfold Machine.whenIdle
  repeat' first
    | with_reducible assumption
    | intro _
    | with_reducible apply Only.genErr (hA := List.Subset.trans (by decide) hA)
    | with_reducible refine Only.ite ?_ ?_
    | apply hf

theorem Only.genLoad {A : List Part} {sB : State} (s : State) (hA : [.gen, .evPend, .pviol, .pvcnt, .out] ⊆ A) (h : Only A sB s) : Only A sB (Machine.genLoad s) := by
  unfold Machine.genLoad
  repeat' first
    | dsimp only
    | with_reducible assumption
    | intro _
    | with_reducible apply Only.emitRd (hA := List.Subset.trans (by decide) hA)
    | with_reducible refine Only.modGen _ (List.Subset.trans (by decide) hA) ?_ ?_
    | with_reducible apply Only.violP (hA := List.Subset.trans (by decide) hA)
    | with_reducible apply Only.foldl
    | split

theorem Only.fxGenLoad {A : List Part} {sB : State} (who : Who) (s : State) (hA : [.denied, .notice, .gen, .jrn, .evPend, .pviol, .pvcnt, .out] ⊆ A) (h : Only A sB s) : Only A sB (Machine.fxGenLoad who s) := by
  unfold Machine.fxGenLoad
  repeat' first
    | with_reducible assumption
    | intro _
    | with_reducible apply Only.gateW (hA := List.Subset.trans (by decide) hA)
    | with_reducible apply Only.genLoad (hA := List.Subset.trans (by decide) hA)
    | with_reducible apply Only.whenIdle (hA := List.Subset.trans (by decide) hA)

theorem Only.endLoad {A : List Part} {sB : State} (e : Nat) (b : Bytes) (s : State) (hA : [.gen, .evPend] ⊆ A) (h : Only A sB s) : Only A sB (Machine.endLoad e b s) := by
  unfold Machine.endLoad
  repeat' first
    | dsimp only
    | with_reducible assumption
    | intro _
    | with_reducible refine Only.modGen _ (List.Subset.trans (by decide) hA) ?_ ?_
    | rfl
    | with_reducible apply Only.raiseG (hA := List.Subset.trans (by decide) hA)
    | with_reducible refine Only.ite ?_ ?_
    | split

theorem Only.checkSections {A : List Part} {sB : State} (b : Bytes) (s : State) (hA : [.sch] ⊆ A) (h : Only A sB s) : Only A sB (Machine.checkSections b s) := by
  unfold Machine.checkSections
  repeat' first
    | dsimp only
    | with_reducible assumption
    | intro _
    | with_reducible apply Only.eachN
    | with_reducible apply Only.issueJob (hA := List.Subset.trans (by decide) hA)
    | with_reducible refine Only.ite ?_ ?_
    | split

theorem Only.fxGenLoadDone {A : List Part} {sB : State} (image : Bytes) (s : State) (hA : [.gen, .sch, .evPend] ⊆ A) (h : Only A sB s) : Only A sB (Machine.fxGenLoadDone image s) := by
  unfold Machine.fxGenLoadDone
  repeat' first
    | dsimp only
    | with_reducible assumption
    | intro _
    | with_reducible apply Only.checkSections (hA := List.Subset.trans (by decide) hA)
    | with_reducible apply Only.endLoad (hA := List.Subset.trans (by decide) hA)
    | with_reducible refine Only.modGen _ (List.Subset.trans (by decide) hA) ?_ ?_
    | with_reducible apply Only.whenS
    | with_reducible refine Only.ite ?_ ?_
    | split
    | rfl

theorem Only.stopChans {A : List Part} {sB : State} (c : Content) (s : State) (hA : [.denied, .notice, .tens, .sqs, .dcs, .jrn, .evPend, .pviol, .pvcnt, .out] ⊆ A) (h : Only A sB s) : Only A sB (Machine.stopChans c s) := by
  unfold Machine.stopChans
  repeat' first
    | dsimp only
    | with_reducible assumption
    | intro _
    | with_reducible apply Only.dcReassign (hA := List.Subset.trans (by decide) hA)
    | with_reducible apply Only.eachN

theorem Only.startFence {A : List Part} {sB : State} (c : Content) (clamped rollback : Bool) (s : State) (hA : [.denied, .notice, .gen, .tens, .sqs, .sch, .reqs, .tiles, .streams, .ks, .dcs, .fp, .jrn, .evPend, .pviol, .pvcnt, .crs, .out] ⊆ A) (h : Only A sB s) : Only A sB (Machine.startFence c clamped rollback s) := by
  unfold Machine.startFence
  repeat' first
    | dsimp only
    | with_reducible assumption
    | intro _
    | with_reducible apply Only.foldl
    | with_reducible apply Only.issueJob (hA := List.Subset.trans (by decide) hA)
    | with_reducible refine Only.modGen _ (List.Subset.trans (by decide) hA) ?_ ?_
    | rfl
    | with_reducible apply Only.resetTenant (hA := List.Subset.trans (by decide) hA)
    | with_reducible apply Only.stopChans (hA := List.Subset.trans (by decide) hA)
    | with_reducible refine Only.ite ?_ ?_
    | split

theorem Only.genCommit {A : List Part} {sB : State} (s : State) (hA : [.denied, .notice, .gen, .tens, .sqs, .sch, .reqs, .tiles, .streams, .ks, .dcs, .fp, .jrn, .evPend, .pviol, .pvcnt, .crs, .out] ⊆ A) (h : Only A sB s) : Only A sB (Machine.genCommit s) := by
  unfold Machine.genCommit
  repeat' first
    | dsimp only
    | with_reducible assumption
    | with_reducible apply Only.startFence (hA := List.Subset.trans (by decide) hA)

theorem Only.fxGenCommit {A : List Part} {sB : State} (who : Who) (s : State) (hA : [.denied, .notice, .gen, .tens, .sqs, .sch, .reqs, .tiles, .streams, .ks, .dcs, .fp, .jrn, .evPend, .pviol, .pvcnt, .crs, .out] ⊆ A) (h : Only A sB s) : Only A sB (Machine.fxGenCommit who s) := by
  unfold Machine.fxGenCommit
  repeat' first
    | with_reducible assumption
    | intro _
    | with_reducible apply Only.gateW (hA := List.Subset.trans (by decide) hA)
    | with_reducible apply Only.genCommit (hA := List.Subset.trans (by decide) hA)
    | with_reducible apply Only.whenIdle (hA := List.Subset.trans (by decide) hA)

theorem Only.genRollback {A : List Part} {sB : State} (s : State) (hA : [.denied, .notice, .gen, .tens, .sqs, .sch, .reqs, .tiles, .streams, .ks, .dcs, .fp, .jrn, .evPend, .pviol, .pvcnt, .crs, .out] ⊆ A) (h : Only A sB s) : Only A sB (Machine.genRollback s) := by
  unfold Machine.genRollback
  repeat' first
    | with_reducible assumption
    | intro _
    | with_reducible apply Only.genErr (hA := List.Subset.trans (by decide) hA)
    | with_reducible apply Only.startFence (hA := List.Subset.trans (by decide) hA)
    | with_reducible refine Only.ite ?_ ?_

theorem Only.fxGenRollback {A : List Part} {sB : State} (who : Who) (s : State) (hA : [.denied, .notice, .gen, .tens, .sqs, .sch, .reqs, .tiles, .streams, .ks, .dcs, .fp, .jrn, .evPend, .pviol, .pvcnt, .crs, .out] ⊆ A) (h : Only A sB s) : Only A sB (Machine.fxGenRollback who s) := by
  unfold Machine.fxGenRollback
  repeat' first
    | with_reducible assumption
    | intro _
    | with_reducible apply Only.gateW (hA := List.Subset.trans (by decide) hA)
    | with_reducible apply Only.genRollback (hA := List.Subset.trans (by decide) hA)
    | with_reducible apply Only.whenIdle (hA := List.Subset.trans (by decide) hA)

theorem Only.genCancel {A : List Part} {sB : State} (s : State) (hA : [.gen, .sch, .tiles] ⊆ A) (h : Only A sB s) : Only A sB (Machine.genCancel s) := by
  unfold Machine.genCancel
  repeat' first
    | dsimp only
    | with_reducible assumption
    | intro _
    | with_reducible apply Only.dropWork (hA := List.Subset.trans (by decide) hA)
    | with_reducible refine Only.modGen _ (List.Subset.trans (by decide) hA) ?_ ?_
    | rfl
    | with_reducible refine Only.ite ?_ ?_
    | split

theorem Only.fxGenCancel {A : List Part} {sB : State} (who : Who) (s : State) (hA : [.denied, .notice, .gen, .sch, .tiles, .jrn, .evPend, .pviol, .pvcnt, .out] ⊆ A) (h : Only A sB s) : Only A sB (Machine.fxGenCancel who s) := by
  unfold Machine.fxGenCancel
  repeat' first
    | with_reducible assumption
    | intro _
    | with_reducible apply Only.gateW (hA := List.Subset.trans (by decide) hA)
    | with_reducible apply Only.genCancel (hA := List.Subset.trans (by decide) hA)

theorem Only.genDiscard {A : List Part} {sB : State} (s : State) (hA : [.gen] ⊆ A) (h : Only A sB s) : Only A sB (Machine.genDiscard s) := by
  unfold Machine.genDiscard
  repeat' first
    | dsimp only
    | with_reducible assumption
    | intro _
    | with_reducible refine Only.modGen _ (List.Subset.trans (by decide) hA) ?_ ?_

theorem Only.fxGenDiscard {A : List Part} {sB : State} (who : Who) (s : State) (hA : [.denied, .notice, .gen, .jrn, .evPend, .pviol, .pvcnt, .out] ⊆ A) (h : Only A sB s) : Only A sB (Machine.fxGenDiscard who s) := by
  unfold Machine.fxGenDiscard
  repeat' first
    | with_reducible assumption
    | intro _
    | with_reducible apply Only.gateW (hA := List.Subset.trans (by decide) hA)
    | with_reducible apply Only.genDiscard (hA := List.Subset.trans (by decide) hA)
    | with_reducible apply Only.whenIdle (hA := List.Subset.trans (by decide) hA)

theorem Only.turnRules {A : List Part} {sB : State} (rollback : Bool) (s : State) (hA : [.sqs, .reqs, .dcs] ⊆ A) (h : Only A sB s) : Only A sB (Machine.turnRules rollback s) := by
  unfold Machine.turnRules
  repeat' first
    | dsimp only
    | with_reducible assumption
    | intro _
    | with_reducible apply Only.eachN
    | with_reducible apply Only.modDc (hA := List.Subset.trans (by decide) hA)
    | with_reducible apply Only.modReqs (hA := List.Subset.trans (by decide) hA)
    | with_reducible apply Only.modSq (hA := List.Subset.trans (by decide) hA)
    | with_reducible refine Only.ite ?_ ?_
    | split

theorem Only.freshTenant {A : List Part} {sB : State} (n : TenantIx) (s : State) (hA : [.tens, .sqs, .cqs] ⊆ A) (h : Only A sB s) : Only A sB (Machine.freshTenant n s) := by
  unfold Machine.freshTenant
  repeat' first
    | dsimp only
    | with_reducible assumption
    | intro _
    | with_reducible apply Only.eachN
    | with_reducible apply Only.modCq (hA := List.Subset.trans (by decide) hA)
    | with_reducible apply Only.modSq (hA := List.Subset.trans (by decide) hA)
    | with_reducible apply Only.modTen (hA := List.Subset.trans (by decide) hA)
    | with_reducible refine Only.ite ?_ ?_
    | split

theorem Only.lowerCredits {A : List Part} {sB : State} (s : State) (hA : [.sqs] ⊆ A) (h : Only A sB s) : Only A sB (Machine.lowerCredits s) := by
  unfold Machine.lowerCredits
  repeat' first
    | dsimp only
    | with_reducible assumption
    | intro _
    | with_reducible apply Only.eachN
    | with_reducible apply Only.modSq (hA := List.Subset.trans (by decide) hA)

theorem Only.newPeriod {A : List Part} {sB : State} (s0 s : State) (hA : [.sch] ⊆ A) (h : Only A sB s) : Only A sB (Machine.newPeriod s0 s) := by
  unfold Machine.newPeriod
  repeat' first
    | dsimp only
    | with_reducible assumption
    | intro _
    | with_reducible apply Only.modSch (hA := List.Subset.trans (by decide) hA)
    | with_reducible refine Only.ite ?_ ?_
    | split

theorem Only.unloadOutside {A : List Part} {sB : State} (s : State) (hA : [.ks] ⊆ A) (h : Only A sB s) : Only A sB (Machine.unloadOutside s) := by
  unfold Machine.unloadOutside
  repeat' first
    | with_reducible assumption
    | with_reducible apply Only.modKs (hA := List.Subset.trans (by decide) hA)
    | with_reducible apply Only.sweepCache (hA := List.Subset.trans (by decide) hA)

theorem Only.takeEffect {A : List Part} {sB : State} (s0 : State) (hA : [.denied, .notice, .gen, .act, .tens, .sqs, .cqs, .sch, .reqs, .tiles, .streams, .ks, .dcs, .fp, .jrn, .evPend, .pviol, .pvcnt, .crs, .out] ⊆ A) (h : Only A sB s0) : Only A sB (Machine.takeEffect s0) := by
  unfold Machine.takeEffect
  repeat' first
    | dsimp only
    | with_reducible assumption
    | intro _
    | with_reducible apply Only.enterCourse (hA := List.Subset.trans (by decide) hA)
    | with_reducible apply Only.foldl
    | with_reducible apply Only.freshTenant (hA := List.Subset.trans (by decide) hA)
    | with_reducible apply Only.leaveCourse (hA := List.Subset.trans (by decide) hA)
    | with_reducible apply Only.lowerCredits (hA := List.Subset.trans (by decide) hA)
    | with_reducible refine Only.modGen _ (List.Subset.trans (by decide) hA) ?_ ?_
    | with_reducible apply Only.modSch (hA := List.Subset.trans (by decide) hA)
    | with_reducible apply Only.newPeriod (hA := List.Subset.trans (by decide) hA)
    | with_reducible apply Only.raiseG (hA := List.Subset.trans (by decide) hA)
    | with_reducible apply Only.setAct (hA := List.Subset.trans (by decide) hA)
    | with_reducible apply Only.stopChans (hA := List.Subset.trans (by decide) hA)
    | with_reducible apply Only.turnRules (hA := List.Subset.trans (by decide) hA)
    | with_reducible apply Only.unloadOutside (hA := List.Subset.trans (by decide) hA)
    | with_reducible refine Only.ite ?_ ?_
    | split

theorem Only.fxGenTakeEffect {A : List Part} {sB : State} (s : State) (hA : [.denied, .notice, .gen, .act, .tens, .sqs, .cqs, .sch, .reqs, .tiles, .streams, .ks, .dcs, .fp, .jrn, .evPend, .pviol, .pvcnt, .crs, .out] ⊆ A) (h : Only A sB s) : Only A sB (Machine.fxGenTakeEffect s) := by
  unfold Machine.fxGenTakeEffect
  repeat' first
    | with_reducible assumption
    | intro _
    | with_reducible apply Only.takeEffect (hA := List.Subset.trans (by decide) hA)
    | with_reducible apply Only.whenS

theorem Only.fxGenSlow {A : List Part} {sB : State} (s : State) (hA : [.notice, .jrn, .evPend, .pviol, .pvcnt, .out] ⊆ A) (h : Only A sB s) : Only A sB (Machine.fxGenSlow s) := by
  unfold Machine.fxGenSlow
  repeat' first
    | with_reducible assumption
    | intro _
    | with_reducible apply Only.journal (hA := List.Subset.trans (by decide) hA)
    | with_reducible apply Only.raiseG (hA := List.Subset.trans (by decide) hA)
    | with_reducible apply Only.whenS

theorem Only.sectChecked {A : List Part} {sB : State} (i : Nat) (second : Bool) (s : State) (hA : [.gen, .sch, .tiles, .evPend] ⊆ A) (h : Only A sB s) : Only A sB (Machine.sectChecked i second s) := by
  unfold Machine.sectChecked
  repeat' first
    | dsimp only
    | with_reducible assumption
    | intro _
    | with_reducible apply Only.dropWork (hA := List.Subset.trans (by decide) hA)
    | with_reducible apply Only.endLoad (hA := List.Subset.trans (by decide) hA)
    | with_reducible refine Only.ite ?_ ?_
    | split

theorem Only.pairDone {A : List Part} {sB : State} (p : Nat) (op : PairOp) (s : State) (hA : [.notice, .sch, .tiles, .ces, .es, .rbgs, .jrn, .evPend, .pviol, .pvcnt, .crs, .out] ⊆ A) (h : Only A sB s) : Only A sB (Machine.pairDone p op s) := by
  unfold Machine.pairDone
  repeat' first
    | dsimp only
    | with_reducible assumption
    | intro _
    | with_reducible apply Only.issueJob (hA := List.Subset.trans (by decide) hA)
    | with_reducible apply Only.stepEnds (hA := List.Subset.trans (by decide) hA)
    | with_reducible refine Only.ite ?_ ?_
    | split

theorem Only.jobDone {A : List Part} {sB : State} (j : Job) (s : State) (hA : [.notice, .gen, .sch, .tiles, .ces, .es, .rbgs, .jrn, .evPend, .pviol, .pvcnt, .crs, .out] ⊆ A) (h : Only A sB s) : Only A sB (Machine.jobDone j s) := by
  unfold Machine.jobDone
  repeat' first
    | dsimp only
    | with_reducible assumption
    | intro _
    | with_reducible apply Only.issueJob (hA := List.Subset.trans (by decide) hA)
    | with_reducible apply Only.pairDone (hA := List.Subset.trans (by decide) hA)
    | with_reducible apply Only.sectChecked (hA := List.Subset.trans (by decide) hA)
    | with_reducible refine Only.ite ?_ ?_
    | split

theorem Only.jobEnds {A : List Part} {sB : State} (j : Job) (resultOk : Bool) (ecc : Ecc) (s : State) (hA : [.notice, .gen, .tens, .sch, .reqs, .tiles, .ces, .streams, .ks, .es, .rbgs, .fp, .jrn, .evPend, .pviol, .pvcnt, .crs, .out, .free] ⊆ A) (h : Only A sB s) : Only A sB (Machine.jobEnds j resultOk ecc s) := by
  unfold Machine.jobEnds
  repeat' first
    | dsimp only
    | with_reducible assumption
    | intro _
    | with_reducible apply Only.jobDone (hA := List.Subset.trans (by decide) hA)
    | with_reducible apply Only.modSch (hA := List.Subset.trans (by decide) hA)
    | with_reducible apply Only.quarantine (hA := List.Subset.trans (by decide) hA)
    | with_reducible apply Only.releaseOp (hA := List.Subset.trans (by decide) hA)
    | with_reducible apply Only.tileChecked (hA := List.Subset.trans (by decide) hA)
    | with_reducible refine Only.ite ?_ ?_
    | split

theorem Only.fxOperationEnd {A : List Part} {sB : State} (id : Nat) (op : Fin 8) (resultOk : Bool) (ecc : Ecc) (meets : Bool) (staging second : Ecc) (s : State) (hA : [.notice, .gen, .tens, .sch, .reqs, .tiles, .ces, .streams, .ks, .es, .rbgs, .fp, .jrn, .evPend, .pviol, .pvcnt, .crs, .out, .free] ⊆ A) (h : Only A sB s) : Only A sB (Machine.fxOperationEnd id op resultOk ecc meets staging second s) := by
  unfold Machine.fxOperationEnd
  repeat' first
    | dsimp only
    | with_reducible assumption
    | intro _
    | with_reducible apply Only.jobEnds (hA := List.Subset.trans (by decide) hA)
    | with_reducible apply Only.opEnds (hA := List.Subset.trans (by decide) hA)
    | with_reducible apply Only.whenS
    | with_reducible refine Only.ite ?_ ?_
    | split

end Sys2Proof.Machine
end

