-- ==== Sys2Proof/Laws/FrameClocks.lean ====
section
/-!
SUPPORT. Frames of the operations of Machine/Clocks.lean: the parts of the state that each may change.
-/

set_option Elab.async false

namespace Sys2Proof.Machine

theorem Only.engineReset {A : List Part} {s0 : State} (cause : Nat) (s : State) (hA : resetParts ⊆ A) (h : Only A s0 s) :
    Only A s0 (Machine.engineReset cause s) :=
  h.trans ⟨rfl, fun p hp => by
    have hn : p ∉ resetParts := fun hc => hp (hA hc)
    cases p <;> first | rfl | exact absurd (by decide) hn⟩

theorem Only.moveOut {A : List Part} {sB : State} (t : Nat) (s : State) (hA : [.reqs, .tiles, .streams] ⊆ A) (h : Only A sB s) : Only A sB (Machine.moveOut t s) := by
  unfold Machine.moveOut
  repeat' first
    | dsimp only
    | with_reducible assumption
    | intro _
    | with_reducible apply Only.eachN
    | with_reducible apply Only.foldl
    | with_reducible apply Only.setStream (hA := List.Subset.trans (by decide) hA)
    | with_reducible apply Only.shiftSaved (hA := List.Subset.trans (by decide) hA)
    | with_reducible refine Only.ite ?_ ?_
    | split

theorem Only.gateStart {A : List Part} {sB : State} (u : GateUnit) (s : State) (hA : [.own, .notice, .tens, .sch, .reqs, .tiles, .streams, .ks, .dcs, .fp, .clk, .jrn, .evPend, .pviol, .pvcnt, .out] ⊆ A) (h : Only A sB s) : Only A sB (Machine.gateStart u s) := by
  unfold Machine.gateStart
  repeat' first
    | dsimp only
    | with_reducible assumption
    | intro _
    | with_reducible apply Only.dcSetPause (hA := List.Subset.trans (by decide) hA)
    | with_reducible apply Only.eachN
    | with_reducible apply Only.modClk (hA := List.Subset.trans (by decide) hA)
    | with_reducible refine Only.modOwn _ (List.Subset.trans (by decide) hA) ?_ ?_
    | with_reducible apply Only.moveOut (hA := List.Subset.trans (by decide) hA)
    | with_reducible apply Only.settleAll (hA := List.Subset.trans (by decide) hA)
    | with_reducible refine Only.ite ?_ ?_
    | split

theorem Only.gateEnd {A : List Part} {sB : State} (u : GateUnit) (s : State) (hA : [.own, .clk] ⊆ A) (h : Only A sB s) : Only A sB (Machine.gateEnd u s) := by
  unfold Machine.gateEnd
  repeat' first
    | dsimp only
    | with_reducible assumption
    | intro _
    | with_reducible apply Only.modClk (hA := List.Subset.trans (by decide) hA)
    | with_reducible refine Only.modOwn _ (List.Subset.trans (by decide) hA) ?_ ?_

theorem Only.fxGateWrite {A : List Part} {sB : State} (who : Who) (unit : GateUnit) (s : State) (hA : [.denied, .own, .notice, .tens, .sch, .reqs, .tiles, .streams, .ks, .dcs, .fp, .clk, .jrn, .evPend, .pviol, .pvcnt, .out] ⊆ A) (h : Only A sB s) : Only A sB (Machine.fxGateWrite who unit s) := by
  unfold Machine.fxGateWrite
  repeat' first
    | with_reducible assumption
    | intro _
    | with_reducible apply Only.gateStart (hA := List.Subset.trans (by decide) hA)
    | with_reducible apply Only.gateW (hA := List.Subset.trans (by decide) hA)

theorem Only.fxUngate {A : List Part} {sB : State} (who : Who) (unit : GateUnit) (s : State) (hA : [.denied, .own, .notice, .clk, .jrn, .evPend, .pviol, .pvcnt, .out] ⊆ A) (h : Only A sB s) : Only A sB (Machine.fxUngate who unit s) := by
  unfold Machine.fxUngate
  repeat' first
    | dsimp only
    | with_reducible assumption
    | intro _
    | with_reducible apply Only.dropReg (hA := List.Subset.trans (by decide) hA)
    | with_reducible apply Only.gateEnd (hA := List.Subset.trans (by decide) hA)
    | with_reducible apply Only.gateW (hA := List.Subset.trans (by decide) hA)
    | with_reducible refine Only.ite ?_ ?_

theorem Only.fxGateIdle {A : List Part} {sB : State} (unit : GateUnit) (s : State) (hA : [.reqs, .tiles, .streams, .clk] ⊆ A) (h : Only A sB s) : Only A sB (Machine.fxGateIdle unit s) := by
  unfold Machine.fxGateIdle
  repeat' first
    | dsimp only
    | with_reducible assumption
    | intro _
    | with_reducible apply Only.modClk (hA := List.Subset.trans (by decide) hA)
    | with_reducible apply Only.moveOut (hA := List.Subset.trans (by decide) hA)
    | with_reducible apply Only.whenS
    | with_reducible refine Only.ite ?_ ?_
    | split

theorem Only.modMon {A : List Part} {sB : State} (k : ClkName) (f : ClkMon → ClkMon) (s : State) (hA : [.clk] ⊆ A) (h : Only A sB s) : Only A sB (Machine.modMon k f s) := by
  unfold Machine.modMon
  repeat' first
    | with_reducible assumption
    | with_reducible apply Only.modClk (hA := List.Subset.trans (by decide) hA)
    | split

theorem Only.openWindow {A : List Part} {sB : State} (k : ClkName) (s : State) (hA : [.clk] ⊆ A) (h : Only A sB s) : Only A sB (Machine.openWindow k s) := by
  unfold Machine.openWindow
  repeat' first
    | dsimp only
    | with_reducible assumption
    | intro _
    | with_reducible apply Only.modMon (hA := List.Subset.trans (by decide) hA)
    | with_reducible refine Only.ite ?_ ?_
    | split

theorem Only.clkmonEn {A : List Part} {sB : State} (who : Who) (k : ClkName) (en : Bool) (s : State) (hA : [.denied, .own, .notice, .clk, .jrn, .evPend, .pviol, .pvcnt, .out] ⊆ A) (h : Only A sB s) : Only A sB (Machine.clkmonEn who k en s) := by
  unfold Machine.clkmonEn
  repeat' first
    | dsimp only
    | with_reducible assumption
    | intro _
    | with_reducible apply Only.dropReg (hA := List.Subset.trans (by decide) hA)
    | with_reducible refine Only.modOwn _ (List.Subset.trans (by decide) hA) ?_ ?_
    | with_reducible apply Only.openWindow (hA := List.Subset.trans (by decide) hA)
    | with_reducible refine Only.ite ?_ ?_
    | split

theorem Only.fxClkmonEnWrite {A : List Part} {sB : State} (who : Who) (clk : ClkName) (en : Bool) (s : State) (hA : [.denied, .own, .notice, .clk, .jrn, .evPend, .pviol, .pvcnt, .out] ⊆ A) (h : Only A sB s) : Only A sB (Machine.fxClkmonEnWrite who clk en s) := by
  unfold Machine.fxClkmonEnWrite
  repeat' first
    | with_reducible assumption
    | intro _
    | with_reducible apply Only.clkmonEn (hA := List.Subset.trans (by decide) hA)
    | with_reducible apply Only.gateW (hA := List.Subset.trans (by decide) hA)

theorem Only.clkRecord {A : List Part} {sB : State} (event : Nat) (reset : Bool) (s : State) (hA : [.notice, .jrn, .evPend, .pviol, .pvcnt, .out] ⊆ A) (h : Only A sB s) : Only A sB (Machine.clkRecord event reset s) := by
  unfold Machine.clkRecord
  repeat' first
    | with_reducible assumption
    | intro _
    | with_reducible apply Only.journal (hA := List.Subset.trans (by decide) hA)
    | with_reducible refine Only.ite ?_ ?_

theorem Only.fenceTile {A : List Part} {sB : State} (t : Nat) (s : State) (hA : [.reqs, .tiles] ⊆ A) (h : Only A sB s) : Only A sB (Machine.fenceTile t s) := by
  unfold Machine.fenceTile
  repeat' first
    | dsimp only
    | with_reducible assumption
    | intro _
    | with_reducible apply Only.modOp (hA := List.Subset.trans (by decide) hA)
    | with_reducible apply Only.modTile (hA := List.Subset.trans (by decide) hA)
    | with_reducible apply Only.foldl

theorem Only.holdControl {A : List Part} {sB : State} (s : State) (hA : [.start] ⊆ A) (h : Only A sB s) : Only A sB (Machine.holdControl s) := by
  unfold Machine.holdControl
  repeat' first
    | dsimp only
    | with_reducible assumption
    | intro _
    | with_reducible apply Only.modStart (hA := List.Subset.trans (by decide) hA)
    | with_reducible refine Only.ite ?_ ?_
    | split

theorem Only.trip {A : List Part} {sB : State} (k : ClkName) (bit : Nat) (s : State) (hA : [.start, .notice, .reqs, .tiles, .clk, .jrn, .evPend, .pviol, .pvcnt, .out] ⊆ A) (h : Only A sB s) : Only A sB (Machine.trip k bit s) := by
  unfold Machine.trip
  repeat' first
    | dsimp only
    | with_reducible assumption
    | intro _
    | with_reducible apply Only.clkRecord (hA := List.Subset.trans (by decide) hA)
    | with_reducible apply Only.eachN
    | with_reducible apply Only.fenceTile (hA := List.Subset.trans (by decide) hA)
    | with_reducible apply Only.holdControl (hA := List.Subset.trans (by decide) hA)
    | with_reducible apply Only.modClk (hA := List.Subset.trans (by decide) hA)
    | with_reducible apply Only.modMon (hA := List.Subset.trans (by decide) hA)
    | with_reducible apply Only.raiseG (hA := List.Subset.trans (by decide) hA)
    | with_reducible refine Only.ite ?_ ?_
    | split

theorem Only.fxClockStopTrip {A : List Part} {sB : State} (clk : ClkName) (s : State) (hA : [.start, .notice, .reqs, .tiles, .clk, .jrn, .evPend, .pviol, .pvcnt, .out] ⊆ A) (h : Only A sB s) : Only A sB (Machine.fxClockStopTrip clk s) := by
  unfold Machine.fxClockStopTrip
  repeat' first
    | with_reducible assumption
    | intro _
    | with_reducible apply Only.trip (hA := List.Subset.trans (by decide) hA)
    | with_reducible apply Only.whenS

theorem Only.countWindow {A : List Part} {sB : State} (k : ClkName) (s : State) (hA : [.clk] ⊆ A) (h : Only A sB s) : Only A sB (Machine.countWindow k s) := by
  unfold Machine.countWindow
  repeat' first
    | dsimp only
    | with_reducible assumption
    | intro _
    | with_reducible apply Only.modClk (hA := List.Subset.trans (by decide) hA)
    | with_reducible refine Only.ite ?_ ?_
    | split

theorem Only.fxClkmonWindow {A : List Part} {sB : State} (clk : ClkName) (count : BitVec 14) (s : State) (hA : [.start, .notice, .reqs, .tiles, .clk, .jrn, .evPend, .pviol, .pvcnt, .out] ⊆ A) (h : Only A sB s) : Only A sB (Machine.fxClkmonWindow clk count s) := by
  unfold Machine.fxClkmonWindow
  repeat' first
    | dsimp only
    | with_reducible assumption
    | intro _
    | with_reducible apply Only.countWindow (hA := List.Subset.trans (by decide) hA)
    | with_reducible apply Only.modMon (hA := List.Subset.trans (by decide) hA)
    | with_reducible apply Only.openWindow (hA := List.Subset.trans (by decide) hA)
    | with_reducible apply Only.trip (hA := List.Subset.trans (by decide) hA)
    | with_reducible apply Only.whenS
    | with_reducible refine Only.ite ?_ ?_
    | split

theorem Only.fxOscFault {A : List Part} {sB : State} (s : State) (hA : [.clk, .evPend] ⊆ A) (h : Only A sB s) : Only A sB (Machine.fxOscFault s) := by
  unfold Machine.fxOscFault
  repeat' first
    | with_reducible assumption
    | intro _
    | with_reducible apply Only.modClk (hA := List.Subset.trans (by decide) hA)
    | with_reducible apply Only.raiseG (hA := List.Subset.trans (by decide) hA)
    | with_reducible apply Only.whenS

theorem Only.contain {A : List Part} {sB : State} (k : ClkName) (s : State) (hA : [.tens, .sch, .reqs, .tiles, .streams, .ks, .fp, .evPend, .pviol, .pvcnt, .out] ⊆ A) (h : Only A sB s) : Only A sB (Machine.contain k s) := by
  unfold Machine.contain
  repeat' first
    | dsimp only
    | with_reducible assumption
    | intro _
    | with_reducible apply Only.eachN
    | with_reducible apply Only.endChain (hA := List.Subset.trans (by decide) hA)
    | with_reducible apply Only.modReq (hA := List.Subset.trans (by decide) hA)
    | with_reducible apply Only.modTile (hA := List.Subset.trans (by decide) hA)
    | with_reducible apply Only.setStream (hA := List.Subset.trans (by decide) hA)
    | with_reducible apply Only.foldl
    | with_reducible refine Only.ite ?_ ?_
    | split

theorem Only.fxFencedZeroizeDone {A : List Part} {sB : State} (s : State) (hA : [.start, .roots, .ident, .owner, .denied, .own, .notice, .gen, .act, .tens, .sqs, .cqs, .sch, .reqs, .sent, .tiles, .css, .ces, .streams, .ks, .meas, .es, .rbgs, .dcs, .fp, .time, .clk, .sup, .ret, .jrn, .evPend, .buserr, .becnt, .pviol, .pvcnt, .crs, .boot, .heldWr, .latch, .out] ⊆ A) (h : Only A sB s) : Only A sB (Machine.fxFencedZeroizeDone s) := by
  unfold Machine.fxFencedZeroizeDone
  repeat' first
    | dsimp only
    | with_reducible assumption
    | intro _
    | with_reducible apply Only.contain (hA := List.Subset.trans (by decide) hA)
    | with_reducible apply Only.engineReset (hA := List.Subset.trans (by decide) hA)
    | with_reducible apply Only.modClk (hA := List.Subset.trans (by decide) hA)
    | with_reducible apply Only.modMon (hA := List.Subset.trans (by decide) hA)
    | with_reducible apply Only.modStart (hA := List.Subset.trans (by decide) hA)
    | with_reducible apply Only.settleAll (hA := List.Subset.trans (by decide) hA)
    | with_reducible apply Only.whenS
    | with_reducible refine Only.ite ?_ ?_

theorem Only.clkmonRelease {A : List Part} {sB : State} (who : Who) (k : ClkName) (s : State) (hA : [.denied, .notice, .clk, .jrn, .evPend, .pviol, .pvcnt, .out] ⊆ A) (h : Only A sB s) : Only A sB (Machine.clkmonRelease who k s) := by
  unfold Machine.clkmonRelease
  repeat' first
    | with_reducible assumption
    | intro _
    | with_reducible apply Only.dropReg (hA := List.Subset.trans (by decide) hA)
    | with_reducible apply Only.modMon (hA := List.Subset.trans (by decide) hA)
    | with_reducible refine Only.ite ?_ ?_

theorem Only.fxClkmonRelease {A : List Part} {sB : State} (who : Who) (clk : ClkName) (s : State) (hA : [.denied, .notice, .clk, .jrn, .evPend, .pviol, .pvcnt, .out] ⊆ A) (h : Only A sB s) : Only A sB (Machine.fxClkmonRelease who clk s) := by
  unfold Machine.fxClkmonRelease
  repeat' first
    | with_reducible assumption
    | intro _
    | with_reducible apply Only.clkmonRelease (hA := List.Subset.trans (by decide) hA)
    | with_reducible apply Only.gateW (hA := List.Subset.trans (by decide) hA)
    | with_reducible refine Only.ite ?_ ?_

theorem Only.releaseTile {A : List Part} {sB : State} (pass : Bool) (t : Nat) (s : State) (hA : [.notice, .tiles, .jrn, .evPend, .pviol, .pvcnt, .out] ⊆ A) (h : Only A sB s) : Only A sB (Machine.releaseTile pass t s) := by
  unfold Machine.releaseTile
  repeat' first
    | dsimp only
    | with_reducible assumption
    | intro _
    | with_reducible apply Only.journal (hA := List.Subset.trans (by decide) hA)
    | with_reducible apply Only.modTile (hA := List.Subset.trans (by decide) hA)
    | with_reducible apply Only.rejoinTile (hA := List.Subset.trans (by decide) hA)
    | with_reducible refine Only.ite ?_ ?_

theorem Only.fxIslandRejoin {A : List Part} {sB : State} (clk : ClkName) (failed : BitVec 24) (s : State) (hA : [.notice, .reqs, .tiles, .clk, .jrn, .evPend, .pviol, .pvcnt, .out] ⊆ A) (h : Only A sB s) : Only A sB (Machine.fxIslandRejoin clk failed s) := by
  unfold Machine.fxIslandRejoin
  repeat' first
    | dsimp only
    | with_reducible assumption
    | intro _
    | with_reducible apply Only.eachN
    | with_reducible apply Only.modMon (hA := List.Subset.trans (by decide) hA)
    | with_reducible apply Only.releaseTile (hA := List.Subset.trans (by decide) hA)
    | with_reducible apply Only.wakeBanks (hA := List.Subset.trans (by decide) hA)
    | with_reducible apply Only.whenS
    | with_reducible refine Only.ite ?_ ?_
    | split

theorem Only.countWarn {A : List Part} {sB : State} (s : State) (hA : [.sup] ⊆ A) (h : Only A sB s) : Only A sB (Machine.countWarn s) := by
  unfold Machine.countWarn
  repeat' first
    | with_reducible assumption
    | with_reducible apply Only.modSup (hA := List.Subset.trans (by decide) hA)

theorem Only.countRerun {A : List Part} {sB : State} (s : State) (hA : [.sup] ⊆ A) (h : Only A sB s) : Only A sB (Machine.countRerun s) := by
  unfold Machine.countRerun
  repeat' first
    | with_reducible assumption
    | with_reducible apply Only.modSup (hA := List.Subset.trans (by decide) hA)

theorem Only.runAgain {A : List Part} {sB : State} (id i : Nat) (s : State) (hA : [.reqs, .tiles, .streams, .sup] ⊆ A) (h : Only A sB s) : Only A sB (Machine.runAgain id i s) := by
  unfold Machine.runAgain
  repeat' first
    | dsimp only
    | with_reducible assumption
    | intro _
    | with_reducible apply Only.countRerun (hA := List.Subset.trans (by decide) hA)
    | with_reducible apply Only.modOp (hA := List.Subset.trans (by decide) hA)
    | with_reducible apply Only.rerunOp (hA := List.Subset.trans (by decide) hA)
    | with_reducible refine Only.ite ?_ ?_
    | split

theorem Only.supplyHit {A : List Part} {sB : State} (s : State) (r : Req) (hA : [.tens, .sch, .reqs, .tiles, .streams, .ks, .fp, .sup, .evPend, .pviol, .pvcnt, .out] ⊆ A) (h : Only A sB s) : Only A sB (Machine.supplyHit s r) := by
  unfold Machine.supplyHit
  repeat' first
    | dsimp only
    | with_reducible assumption
    | intro _
    | with_reducible apply Only.countRerun (hA := List.Subset.trans (by decide) hA)
    | with_reducible apply Only.eachN
    | with_reducible apply Only.endChain (hA := List.Subset.trans (by decide) hA)
    | with_reducible apply Only.runAgain (hA := List.Subset.trans (by decide) hA)
    | with_reducible refine Only.ite ?_ ?_
    | split

theorem Only.jobHit {A : List Part} {sB : State} (s : State) (j : Job) (hA : [.reqs, .tiles, .sup] ⊆ A) (h : Only A sB s) : Only A sB (Machine.jobHit s j) := by
  unfold Machine.jobHit
  repeat' first
    | with_reducible assumption
    | with_reducible apply Only.countRerun (hA := List.Subset.trans (by decide) hA)
    | with_reducible apply Only.releaseOp (hA := List.Subset.trans (by decide) hA)

theorem Only.fxSupplyWarn {A : List Part} {sB : State} (s : State) (hA : [.notice, .tens, .sch, .reqs, .tiles, .streams, .ks, .fp, .sup, .jrn, .evPend, .pviol, .pvcnt, .out] ⊆ A) (h : Only A sB s) : Only A sB (Machine.fxSupplyWarn s) := by
  unfold Machine.fxSupplyWarn
  repeat' first
    | dsimp only
    | with_reducible assumption
    | intro _
    | with_reducible apply Only.clkRecord (hA := List.Subset.trans (by decide) hA)
    | with_reducible apply Only.countWarn (hA := List.Subset.trans (by decide) hA)
    | with_reducible apply Only.modSup (hA := List.Subset.trans (by decide) hA)
    | with_reducible apply Only.raiseG (hA := List.Subset.trans (by decide) hA)
    | with_reducible apply Only.supplyHit (hA := List.Subset.trans (by decide) hA)
    | with_reducible apply Only.jobHit (hA := List.Subset.trans (by decide) hA)
    | with_reducible apply Only.whenS
    | with_reducible apply Only.foldl

theorem Only.undefer {A : List Part} {sB : State} (d : KsDefer) (s : State) (hA : [.own, .notice, .sch, .reqs, .tiles, .ks, .meas, .jrn, .evPend, .pviol, .pvcnt, .crs, .out, .free] ⊆ A) (h : Only A sB s) : Only A sB (Machine.undefer d s) := by
  unfold Machine.undefer
  repeat' first
    | dsimp only
    | with_reducible assumption
    | intro _
    | with_reducible apply Only.bankWrite (hA := List.Subset.trans (by decide) hA)
    | with_reducible apply Only.copyBank (hA := List.Subset.trans (by decide) hA)
    | with_reducible apply Only.extendDue (hA := List.Subset.trans (by decide) hA)
    | with_reducible apply Only.prepareBank (hA := List.Subset.trans (by decide) hA)
    | with_reducible apply Only.takeSlotBank (hA := List.Subset.trans (by decide) hA)
    | with_reducible apply Only.verifyEnds (hA := List.Subset.trans (by decide) hA)
    | with_reducible apply Only.whenS
    | with_reducible refine Only.ite ?_ ?_
    | split

theorem Only.fxSupplyClear {A : List Part} {sB : State} (s : State) (hA : [.own, .notice, .tens, .sch, .reqs, .tiles, .ces, .streams, .ks, .meas, .es, .rbgs, .fp, .sup, .jrn, .evPend, .pviol, .pvcnt, .crs, .out, .free] ⊆ A) (h : Only A sB s) : Only A sB (Machine.fxSupplyClear s) := by
  unfold Machine.fxSupplyClear
  repeat' first
    | dsimp only
    | with_reducible assumption
    | intro _
    | with_reducible apply Only.clkRecord (hA := List.Subset.trans (by decide) hA)
    | with_reducible apply Only.eachN
    | with_reducible apply Only.foldl
    | with_reducible apply Only.modKs (hA := List.Subset.trans (by decide) hA)
    | with_reducible apply Only.modSup (hA := List.Subset.trans (by decide) hA)
    | with_reducible apply Only.raiseG (hA := List.Subset.trans (by decide) hA)
    | with_reducible apply Only.sendGroup (hA := List.Subset.trans (by decide) hA)
    | with_reducible apply Only.settleAll (hA := List.Subset.trans (by decide) hA)
    | with_reducible apply Only.undefer (hA := List.Subset.trans (by decide) hA)
    | with_reducible apply Only.wakeBanks (hA := List.Subset.trans (by decide) hA)
    | with_reducible apply Only.whenS
    | with_reducible refine Only.ite ?_ ?_
    | split

theorem Only.fxSupplyFailureReset {A : List Part} {sB : State} (s : State) (hA : [.start, .roots, .ident, .owner, .denied, .own, .notice, .gen, .act, .tens, .sqs, .cqs, .sch, .reqs, .sent, .tiles, .css, .ces, .streams, .ks, .meas, .es, .rbgs, .dcs, .fp, .time, .clk, .sup, .ret, .jrn, .evPend, .buserr, .becnt, .pviol, .pvcnt, .crs, .boot, .heldWr, .latch] ⊆ A) (h : Only A sB s) : Only A sB (Machine.fxSupplyFailureReset s) := by
  unfold Machine.fxSupplyFailureReset
  repeat' first
    | with_reducible assumption
    | with_reducible apply Only.engineReset (hA := List.Subset.trans (by decide) hA)

theorem Only.fxRetReqRise {A : List Part} {sB : State} (s : State) (hA : [.tens, .dcs, .ret, .out] ⊆ A) (h : Only A sB s) : Only A sB (Machine.fxRetReqRise s) := by
  unfold Machine.fxRetReqRise
  repeat' first
    | with_reducible assumption
    | intro _
    | with_reducible apply Only.dcSetPause (hA := List.Subset.trans (by decide) hA)
    | with_reducible apply Only.eachN
    | with_reducible apply Only.modRet (hA := List.Subset.trans (by decide) hA)
    | with_reducible apply Only.whenS

theorem Only.fxRetentionEntry {A : List Part} {sB : State} (s : State) (hA : [.own, .notice, .sqs, .tiles, .time, .clk, .ret, .jrn, .evPend, .pviol, .pvcnt, .out] ⊆ A) (h : Only A sB s) : Only A sB (Machine.fxRetentionEntry s) := by
  unfold Machine.fxRetentionEntry
  repeat' first
    | dsimp only
    | with_reducible assumption
    | intro _
    | with_reducible apply Only.eachN
    | with_reducible apply Only.modClk (hA := List.Subset.trans (by decide) hA)
    | with_reducible apply Only.modRet (hA := List.Subset.trans (by decide) hA)
    | with_reducible apply Only.modSq (hA := List.Subset.trans (by decide) hA)
    | with_reducible apply Only.modTile (hA := List.Subset.trans (by decide) hA)
    | with_reducible apply Only.setRun (hA := List.Subset.trans (by decide) hA)
    | with_reducible apply Only.whenS
    | with_reducible refine Only.ite ?_ ?_
    | split

theorem Only.fxRetReqFall {A : List Part} {sB : State} (s : State) (hA : [.start, .ret] ⊆ A) (h : Only A sB s) : Only A sB (Machine.fxRetReqFall s) := by
  unfold Machine.fxRetReqFall
  repeat' first
    | dsimp only
    | with_reducible assumption
    | intro _
    | with_reducible apply Only.modRet (hA := List.Subset.trans (by decide) hA)
    | with_reducible apply Only.modStart (hA := List.Subset.trans (by decide) hA)
    | with_reducible apply Only.whenS
    | with_reducible refine Only.ite ?_ ?_

theorem Only.fxWakeComplete {A : List Part} {sB : State} (s : State) (hA : [.ret, .evPend] ⊆ A) (h : Only A sB s) : Only A sB (Machine.fxWakeComplete s) := by
  unfold Machine.fxWakeComplete
  repeat' first
    | dsimp only
    | with_reducible assumption
    | intro _
    | with_reducible apply Only.modRet (hA := List.Subset.trans (by decide) hA)
    | with_reducible apply Only.raiseG (hA := List.Subset.trans (by decide) hA)
    | with_reducible apply Only.whenS
    | with_reducible refine Only.ite ?_ ?_
    | split

end Sys2Proof.Machine
end

