-- ==== Sys2Proof/Laws/FrameOwner.lean ====
section
/-!
SUPPORT. Frames of the operations of Machine/Owner.lean: the parts of the state that each may change.
-/

set_option Elab.async false

namespace Sys2Proof.Machine

theorem Only.ignoredRecord {A : List Part} {sB : State} (who : Who) (prio : Nat) (accept : Bool) (s : State) (hA : [.owner, .denied, .notice, .jrn, .evPend, .pviol, .pvcnt, .out] ⊆ A) (h : Only A sB s) : Only A sB (Machine.ignoredRecord who prio accept s) := by
  unfold Machine.ignoredRecord
  repeat' first
    | with_reducible assumption
    | with_reducible apply Only.journal (hA := List.Subset.trans (by decide) hA)

theorem Only.claim {A : List Part} {sB : State} (who : Who) (prio : BitVec 8) (s : State) (hA : [.owner, .denied, .notice, .jrn, .evPend, .pviol, .pvcnt, .out] ⊆ A) (h : Only A sB s) : Only A sB (Machine.claim who prio s) := by
  unfold Machine.claim
  repeat' first
    | dsimp only
    | with_reducible assumption
    | intro _
    | with_reducible apply Only.countDenied (hA := List.Subset.trans (by decide) hA)
    | with_reducible apply Only.dropWrite (hA := List.Subset.trans (by decide) hA)
    | with_reducible apply Only.ignoredRecord (hA := List.Subset.trans (by decide) hA)
    | with_reducible apply Only.modOwner (hA := List.Subset.trans (by decide) hA)
    | with_reducible refine Only.ite ?_ ?_
    | split

theorem Only.claimPiece {A : List Part} {sB : State} (who : Who) (mask val : Word) (s : State) (hA : [.owner, .denied, .notice, .jrn, .evPend, .pviol, .pvcnt, .out] ⊆ A) (h : Only A sB s) : Only A sB (Machine.claimPiece who mask val s) := by
  unfold Machine.claimPiece
  repeat' first
    | dsimp only
    | with_reducible assumption
    | intro _
    | with_reducible apply Only.claim (hA := List.Subset.trans (by decide) hA)
    | with_reducible apply Only.dropPiece (hA := List.Subset.trans (by decide) hA)
    | with_reducible refine Only.ite ?_ ?_
    | split

theorem Only.fxOwnClaim {A : List Part} {sB : State} (who : Who) (prio : BitVec 8) (s : State) (hA : [.owner, .denied, .notice, .jrn, .evPend, .pviol, .pvcnt, .out] ⊆ A) (h : Only A sB s) : Only A sB (Machine.fxOwnClaim who prio s) := by
  unfold Machine.fxOwnClaim
  repeat' first
    | with_reducible assumption
    | with_reducible apply Only.claim (hA := List.Subset.trans (by decide) hA)

theorem Only.fxClaimWindowClose {A : List Part} {sB : State} (s : State) (hA : [.owner, .evPend] ⊆ A) (h : Only A sB s) : Only A sB (Machine.fxClaimWindowClose s) := by
  unfold Machine.fxClaimWindowClose
  repeat' first
    | dsimp only
    | with_reducible assumption
    | intro _
    | with_reducible apply Only.modOwner (hA := List.Subset.trans (by decide) hA)
    | with_reducible apply Only.raiseG (hA := List.Subset.trans (by decide) hA)
    | with_reducible apply Only.whenS

theorem Only.handover {A : List Part} {sB : State} (target : BitVec 8) (s : State) (hA : [.owner] ⊆ A) (h : Only A sB s) : Only A sB (Machine.handover target s) := by
  unfold Machine.handover
  repeat' first
    | with_reducible assumption
    | intro _
    | with_reducible apply Only.modOwner (hA := List.Subset.trans (by decide) hA)
    | with_reducible refine Only.ite ?_ ?_

theorem Only.fxOwnHandover {A : List Part} {sB : State} (who : Who) (target : BitVec 8) (s : State) (hA : [.owner, .denied, .notice, .jrn, .evPend, .pviol, .pvcnt, .out] ⊆ A) (h : Only A sB s) : Only A sB (Machine.fxOwnHandover who target s) := by
  unfold Machine.fxOwnHandover
  repeat' first
    | with_reducible assumption
    | intro _
    | with_reducible apply Only.gateW (hA := List.Subset.trans (by decide) hA)
    | with_reducible apply Only.handover (hA := List.Subset.trans (by decide) hA)

theorem Only.accept {A : List Part} {sB : State} (who : Who) (meets : Bool) (s : State) (hA : [.owner, .denied, .notice, .jrn, .evPend, .pviol, .pvcnt, .out] ⊆ A) (h : Only A sB s) : Only A sB (Machine.accept who meets s) := by
  unfold Machine.accept
  repeat' first
    | dsimp only
    | with_reducible assumption
    | intro _
    | with_reducible apply Only.countDenied (hA := List.Subset.trans (by decide) hA)
    | with_reducible apply Only.dropWrite (hA := List.Subset.trans (by decide) hA)
    | with_reducible apply Only.ignoredRecord (hA := List.Subset.trans (by decide) hA)
    | with_reducible apply Only.modOwner (hA := List.Subset.trans (by decide) hA)
    | with_reducible apply Only.raiseG (hA := List.Subset.trans (by decide) hA)
    | with_reducible refine Only.ite ?_ ?_
    | split

theorem Only.acceptPiece {A : List Part} {sB : State} (who : Who) (meets : Bool) (mask val : Word) (s : State) (hA : [.owner, .denied, .notice, .jrn, .evPend, .pviol, .pvcnt, .out] ⊆ A) (h : Only A sB s) : Only A sB (Machine.acceptPiece who meets mask val s) := by
  unfold Machine.acceptPiece
  repeat' first
    | dsimp only
    | with_reducible assumption
    | intro _
    | with_reducible apply Only.accept (hA := List.Subset.trans (by decide) hA)
    | with_reducible apply Only.dropPiece (hA := List.Subset.trans (by decide) hA)
    | with_reducible refine Only.ite ?_ ?_
    | split

theorem Only.fxOwnAccept {A : List Part} {sB : State} (who : Who) (go meets : Bool) (s : State) (hA : [.owner, .denied, .notice, .jrn, .evPend, .pviol, .pvcnt, .out] ⊆ A) (h : Only A sB s) : Only A sB (Machine.fxOwnAccept who go meets s) := by
  unfold Machine.fxOwnAccept
  repeat' first
    | dsimp only
    | with_reducible assumption
    | intro _
    | with_reducible apply Only.acceptPiece (hA := List.Subset.trans (by decide) hA)
    | with_reducible refine Only.ite ?_ ?_
    | split

theorem Only.fxHandoverLapsed {A : List Part} {sB : State} (s : State) (hA : [.owner, .evPend] ⊆ A) (h : Only A sB s) : Only A sB (Machine.fxHandoverLapsed s) := by
  unfold Machine.fxHandoverLapsed
  repeat' first
    | with_reducible assumption
    | intro _
    | with_reducible apply Only.modOwner (hA := List.Subset.trans (by decide) hA)
    | with_reducible apply Only.raiseG (hA := List.Subset.trans (by decide) hA)
    | with_reducible apply Only.whenS

end Sys2Proof.Machine
end

