-- ==== Sys2Proof/Laws/FrameStartUp.lean ====
section
/-!
SUPPORT. Frames of the operations of Machine/StartUp.lean: the parts of the state that each may change.
-/

set_option Elab.async false

namespace Sys2Proof.Machine

theorem Only.setPhase {A : List Part} {sB : State} (p : Nat) (s : State) (hA : [.start] ⊆ A) (h : Only A sB s) : Only A sB (Machine.setPhase p s) := by
  unfold Machine.setPhase
  repeat' first
    | with_reducible assumption
    | with_reducible apply Only.modStart (hA := List.Subset.trans (by decide) hA)

theorem Only.setFail {A : List Part} {sB : State} (b : Nat) (s : State) (hA : [.start] ⊆ A) (h : Only A sB s) : Only A sB (Machine.setFail b s) := by
  unfold Machine.setFail
  repeat' first
    | with_reducible assumption
    | with_reducible apply Only.modStart (hA := List.Subset.trans (by decide) hA)

theorem Only.fxEngineResetAssert {A : List Part} {sB : State} (s : State) (hA : [.start, .roots, .ident, .owner, .denied, .own, .notice, .gen, .act, .tens, .sqs, .cqs, .sch, .reqs, .sent, .tiles, .css, .ces, .streams, .ks, .meas, .es, .rbgs, .dcs, .fp, .time, .clk, .sup, .ret, .jrn, .evPend, .buserr, .becnt, .pviol, .pvcnt, .crs, .boot, .heldWr, .latch] ⊆ A) (h : Only A sB s) : Only A sB (Machine.fxEngineResetAssert s) := by
  unfold Machine.fxEngineResetAssert
  repeat' first
    | with_reducible assumption
    | with_reducible apply Only.engineReset (hA := List.Subset.trans (by decide) hA)

theorem Only.fxEngineResetRelease {A : List Part} {sB : State} (strap : BitVec 16) (s : State) (hA : [.start, .own] ⊆ A) (h : Only A sB s) : Only A sB (Machine.fxEngineResetRelease strap s) := by
  unfold Machine.fxEngineResetRelease
  repeat' first
    | dsimp only
    | with_reducible assumption
    | intro _
    | with_reducible refine Only.modOwn _ (List.Subset.trans (by decide) hA) ?_ ?_
    | with_reducible apply Only.modStart (hA := List.Subset.trans (by decide) hA)
    | with_reducible apply Only.whenS

theorem Only.fxOscStartTimeout {A : List Part} {sB : State} (s : State) (hA : [.start] ⊆ A) (h : Only A sB s) : Only A sB (Machine.fxOscStartTimeout s) := by
  unfold Machine.fxOscStartTimeout
  repeat' first
    | with_reducible assumption
    | intro _
    | with_reducible apply Only.modStart (hA := List.Subset.trans (by decide) hA)
    | with_reducible apply Only.setFail (hA := List.Subset.trans (by decide) hA)
    | with_reducible apply Only.whenS

theorem Only.fxOscillatorReady {A : List Part} {sB : State} (s : State) (hA : [.start, .clk] ⊆ A) (h : Only A sB s) : Only A sB (Machine.fxOscillatorReady s) := by
  unfold Machine.fxOscillatorReady
  repeat' first
    | dsimp only
    | with_reducible assumption
    | intro _
    | with_reducible apply Only.modStart (hA := List.Subset.trans (by decide) hA)
    | with_reducible apply Only.openWindow (hA := List.Subset.trans (by decide) hA)
    | with_reducible apply Only.setPhase (hA := List.Subset.trans (by decide) hA)
    | with_reducible apply Only.whenS
    | with_reducible refine Only.ite ?_ ?_
    | split

theorem Only.fxStartupClearDone {A : List Part} {sB : State} (s : State) (hA : [.start, .notice, .jrn, .evPend, .pviol, .pvcnt, .out] ⊆ A) (h : Only A sB s) : Only A sB (Machine.fxStartupClearDone s) := by
  unfold Machine.fxStartupClearDone
  repeat' first
    | dsimp only
    | with_reducible assumption
    | intro _
    | with_reducible apply Only.clkRecord (hA := List.Subset.trans (by decide) hA)
    | with_reducible apply Only.modStart (hA := List.Subset.trans (by decide) hA)
    | with_reducible apply Only.setPhase (hA := List.Subset.trans (by decide) hA)
    | with_reducible apply Only.timeMark (hA := List.Subset.trans (by decide) hA)
    | with_reducible apply Only.whenS
    | with_reducible refine Only.ite ?_ ?_

theorem Only.failCs {A : List Part} {sB : State} (c : Nat) (s : State) (hA : [.start, .notice, .css, .jrn, .evPend, .pviol, .pvcnt, .out] ⊆ A) (h : Only A sB s) : Only A sB (Machine.failCs c s) := by
  unfold Machine.failCs
  repeat' first
    | with_reducible assumption
    | with_reducible apply Only.journal (hA := List.Subset.trans (by decide) hA)
    | with_reducible apply Only.raiseG (hA := List.Subset.trans (by decide) hA)
    | with_reducible apply Only.setCs (hA := List.Subset.trans (by decide) hA)
    | with_reducible apply Only.setFail (hA := List.Subset.trans (by decide) hA)

theorem Only.fxKnownAnswerTestsDone {A : List Part} {sB : State} (tileFail : BitVec 24) (csFail : BitVec 12) (hashOk : Bool) (s : State) (hA : [.start, .notice, .gen, .tens, .sch, .reqs, .tiles, .css, .streams, .ks, .fp, .ret, .jrn, .evPend, .pviol, .pvcnt, .out, .free] ⊆ A) (h : Only A sB s) : Only A sB (Machine.fxKnownAnswerTestsDone tileFail csFail hashOk s) := by
  unfold Machine.fxKnownAnswerTestsDone
  repeat' first
    | dsimp only
    | with_reducible assumption
    | intro _
    | with_reducible apply Only.eachN
    | with_reducible apply Only.failCs (hA := List.Subset.trans (by decide) hA)
    | with_reducible refine Only.modGen _ (List.Subset.trans (by decide) hA) ?_ ?_
    | with_reducible apply Only.modRet (hA := List.Subset.trans (by decide) hA)
    | with_reducible apply Only.modStart (hA := List.Subset.trans (by decide) hA)
    | with_reducible apply Only.quarantine (hA := List.Subset.trans (by decide) hA)
    | with_reducible apply Only.setFail (hA := List.Subset.trans (by decide) hA)
    | with_reducible apply Only.setPhase (hA := List.Subset.trans (by decide) hA)
    | with_reducible apply Only.whenS
    | with_reducible apply Only.idS
    | with_reducible refine Only.ite ?_ ?_
    | split

theorem Only.fxFuseReadDone {A : List Part} {sB : State} (f : FuseWord) (s : State) (hA : [.start, .roots, .ident, .boot] ⊆ A) (h : Only A sB s) : Only A sB (Machine.fxFuseReadDone f s) := by
  unfold Machine.fxFuseReadDone
  repeat' first
    | dsimp only
    | with_reducible assumption
    | intro _
    | with_reducible apply Only.modBoot (hA := List.Subset.trans (by decide) hA)
    | with_reducible apply Only.modIdent (hA := List.Subset.trans (by decide) hA)
    | with_reducible apply Only.modRoots (hA := List.Subset.trans (by decide) hA)
    | with_reducible apply Only.modStart (hA := List.Subset.trans (by decide) hA)
    | with_reducible apply Only.setFail (hA := List.Subset.trans (by decide) hA)
    | with_reducible apply Only.setPhase (hA := List.Subset.trans (by decide) hA)
    | with_reducible apply Only.whenS
    | with_reducible refine Only.ite ?_ ?_

theorem Only.fxIdentityReady {A : List Part} {sB : State} (okC okQ : Bool) (s : State) (hA : [.start, .ident, .notice, .tens, .sch, .reqs, .tiles, .streams, .ks, .fp, .jrn, .evPend, .pviol, .pvcnt, .out, .free] ⊆ A) (h : Only A sB s) : Only A sB (Machine.fxIdentityReady okC okQ s) := by
  unfold Machine.fxIdentityReady
  repeat' first
    | dsimp only
    | with_reducible assumption
    | intro _
    | with_reducible apply Only.failChecks (hA := List.Subset.trans (by decide) hA)
    | with_reducible apply Only.modIdent (hA := List.Subset.trans (by decide) hA)
    | with_reducible apply Only.setPhase (hA := List.Subset.trans (by decide) hA)
    | with_reducible apply Only.whenS
    | with_reducible refine Only.ite ?_ ?_
    | split

theorem Only.fxFirstServicePoint {A : List Part} {sB : State} (s : State) (hA : [.start, .owner, .crs, .boot] ⊆ A) (h : Only A sB s) : Only A sB (Machine.fxFirstServicePoint s) := by
  unfold Machine.fxFirstServicePoint
  repeat' first
    | dsimp only
    | with_reducible assumption
    | intro _
    | with_reducible apply Only.enterCourse (hA := List.Subset.trans (by decide) hA)
    | with_reducible apply Only.modBoot (hA := List.Subset.trans (by decide) hA)
    | with_reducible apply Only.modOwner (hA := List.Subset.trans (by decide) hA)
    | with_reducible apply Only.modStart (hA := List.Subset.trans (by decide) hA)
    | with_reducible apply Only.setFail (hA := List.Subset.trans (by decide) hA)
    | with_reducible apply Only.setPhase (hA := List.Subset.trans (by decide) hA)
    | with_reducible apply Only.whenS
    | with_reducible refine Only.ite ?_ ?_

theorem Only.bootViol {A : List Part} {sB : State} (p : Nat × Nat) (s : State) (hA : [.evPend, .pviol, .pvcnt] ⊆ A) (h : Only A sB s) : Only A sB (Machine.bootViol p s) := by
  unfold Machine.bootViol
  repeat' first
    | with_reducible assumption
    | with_reducible apply Only.violP (hA := List.Subset.trans (by decide) hA)

theorem Only.fxBootSlotPoll {A : List Part} {sB : State} (resp : Resp) (s : State) (hA : [.notice, .tens, .jrn, .evPend, .buserr, .becnt, .pviol, .pvcnt, .boot, .out] ⊆ A) (h : Only A sB s) : Only A sB (Machine.fxBootSlotPoll resp s) := by
  unfold Machine.fxBootSlotPoll
  repeat' first
    | dsimp only
    | with_reducible assumption
    | intro _
    | with_reducible apply Only.bootViol (hA := List.Subset.trans (by decide) hA)
    | with_reducible apply Only.busErrorOf (hA := List.Subset.trans (by decide) hA)
    | with_reducible apply Only.emitRd (hA := List.Subset.trans (by decide) hA)
    | with_reducible apply Only.foldl
    | with_reducible apply Only.modBoot (hA := List.Subset.trans (by decide) hA)
    | with_reducible apply Only.whenS
    | with_reducible refine Only.ite ?_ ?_
    | split

theorem Only.bootTake {A : List Part} {sB : State} (s : State) (hA : [.boot] ⊆ A) (h : Only A sB s) : Only A sB (Machine.bootTake s) := by
  unfold Machine.bootTake
  repeat' first
    | with_reducible assumption
    | with_reducible apply Only.modBoot (hA := List.Subset.trans (by decide) hA)

theorem Only.bootAnswer {A : List Part} {sB : State} (tag status detail consumed : Nat) (s : State) (hA : [.evPend, .pviol, .pvcnt, .boot, .out] ⊆ A) (h : Only A sB s) : Only A sB (Machine.bootAnswer tag status detail consumed s) := by
  unfold Machine.bootAnswer
  repeat' first
    | dsimp only
    | with_reducible assumption
    | with_reducible apply Only.bootRecord (hA := List.Subset.trans (by decide) hA)
    | with_reducible apply Only.bootSettle (hA := List.Subset.trans (by decide) hA)
    | with_reducible apply Only.bootTake (hA := List.Subset.trans (by decide) hA)

theorem Only.fxBootRequest {A : List Part} {sB : State} (s : State) (hA : [.sch, .reqs, .evPend, .pviol, .pvcnt, .boot, .out, .free] ⊆ A) (h : Only A sB s) : Only A sB (Machine.fxBootRequest s) := by
  unfold Machine.fxBootRequest
  repeat' first
    | dsimp only
    | with_reducible assumption
    | intro _
    | with_reducible apply Only.bootAnswer (hA := List.Subset.trans (by decide) hA)
    | with_reducible apply Only.bootTake (hA := List.Subset.trans (by decide) hA)
    | with_reducible apply Only.modReqs (hA := List.Subset.trans (by decide) hA)
    | with_reducible apply Only.modSch (hA := List.Subset.trans (by decide) hA)
    | with_reducible apply Only.nextFree (hA := List.Subset.trans (by decide) hA)
    | with_reducible apply Only.whenS
    | with_reducible refine Only.ite ?_ ?_
    | split

theorem Only.fxBootExtend {A : List Part} {sB : State} (resp : Resp) (s : State) (hA : [.notice, .tens, .ks, .meas, .jrn, .evPend, .buserr, .becnt, .pviol, .pvcnt, .boot, .out, .free] ⊆ A) (h : Only A sB s) : Only A sB (Machine.fxBootExtend resp s) := by
  unfold Machine.fxBootExtend
  repeat' first
    | dsimp only
    | with_reducible assumption
    | intro _
    | with_reducible apply Only.bootAnswer (hA := List.Subset.trans (by decide) hA)
    | with_reducible apply Only.bootViol (hA := List.Subset.trans (by decide) hA)
    | with_reducible apply Only.busErrorOf (hA := List.Subset.trans (by decide) hA)
    | with_reducible apply Only.emitRd (hA := List.Subset.trans (by decide) hA)
    | with_reducible apply Only.extendOrDefer (hA := List.Subset.trans (by decide) hA)
    | with_reducible apply Only.ksErr (hA := List.Subset.trans (by decide) hA)
    | with_reducible apply Only.ksEvent (hA := List.Subset.trans (by decide) hA)
    | with_reducible apply Only.nextFree (hA := List.Subset.trans (by decide) hA)
    | with_reducible apply Only.whenS
    | with_reducible refine Only.ite ?_ ?_
    | split

theorem Only.bootOff {A : List Part} {sB : State} (s : State) (hA : [.own, .boot] ⊆ A) (h : Only A sB s) : Only A sB (Machine.bootOff s) := by
  unfold Machine.bootOff
  repeat' first
    | dsimp only
    | with_reducible assumption
    | intro _
    | with_reducible apply Only.bootSettle (hA := List.Subset.trans (by decide) hA)
    | with_reducible apply Only.modBoot (hA := List.Subset.trans (by decide) hA)
    | with_reducible refine Only.modOwn _ (List.Subset.trans (by decide) hA) ?_ ?_
    | with_reducible refine Only.ite ?_ ?_

theorem Only.fxBootEnClear {A : List Part} {sB : State} (who : Who) (s : State) (hA : [.denied, .own, .notice, .jrn, .evPend, .pviol, .pvcnt, .boot, .out] ⊆ A) (h : Only A sB s) : Only A sB (Machine.fxBootEnClear who s) := by
  unfold Machine.fxBootEnClear
  repeat' first
    | with_reducible assumption
    | intro _
    | with_reducible apply Only.bootOff (hA := List.Subset.trans (by decide) hA)
    | with_reducible apply Only.gateW (hA := List.Subset.trans (by decide) hA)

end Sys2Proof.Machine
end

