-- ==== Sys2Proof/Laws/FrameRegRead.lean ====
section
/-!
SUPPORT. Frames of the operations of Machine/RegRead.lean: the parts of the state that each may change.
-/

set_option Elab.async false

namespace Sys2Proof.Machine

theorem Only.dropLatch {A : List Part} {sB : State} (who : Who) (off : Nat) (s : State) (hA : [.latch] ⊆ A) (h : Only A sB s) : Only A sB (Machine.dropLatch who off s) := by
  unfold Machine.dropLatch
  repeat' first
    | dsimp only
    | with_reducible assumption
    | intro _
    | with_reducible apply Only.modLatch (hA := List.Subset.trans (by decide) hA)
    | with_reducible refine Only.ite ?_ ?_
    | split

theorem Only.setLatch {A : List Part} {sB : State} (who : Who) (off : Nat) (v : Word) (s : State) (hA : [.latch] ⊆ A) (h : Only A sB s) : Only A sB (Machine.setLatch who off v s) := by
  unfold Machine.setLatch
  repeat' first
    | with_reducible assumption
    | with_reducible apply Only.dropLatch (hA := List.Subset.trans (by decide) hA)
    | with_reducible apply Only.modLatch (hA := List.Subset.trans (by decide) hA)

theorem Only.readHalf {A : List Part} {sB : State} (who : Who) (r : Reg) (hi : Bool) (s : State) (hA : [.latch] ⊆ A) (h : Only A sB s) : Only A sB (Machine.readHalf who r hi s).2 := by
  unfold Machine.readHalf
  repeat' first
    | dsimp only
    | with_reducible assumption
    | with_reducible apply Only.dropLatch (hA := List.Subset.trans (by decide) hA)
    | split

theorem Only.readHalf_eq {A : List Part} {sB : State} {who : Who} {r : Reg} {hi : Bool} {s : State} {y : Word} {t : State} (hA : [.latch] ⊆ A) (e : Machine.readHalf who r hi s = (y, t)) (h : Only A sB s) : Only A sB t := by
  have := Only.readHalf who r hi s hA h
  rwa [e] at this

theorem Only.setLatches {A : List Part} {sB : State} (who : Who) (r : Reg) (whole hi : Bool) (s : State) (hA : [.latch] ⊆ A) (h : Only A sB s) : Only A sB (Machine.setLatches who r whole hi s) := by
  unfold Machine.setLatches
  repeat' first
    | with_reducible assumption
    | intro _
    | with_reducible apply Only.setLatch (hA := List.Subset.trans (by decide) hA)
    | with_reducible apply Only.foldl
    | with_reducible refine Only.ite ?_ ?_

theorem Only.readReg {A : List Part} {sB : State} (who : Who) (r : Reg) (whole hi : Bool) (s : State) (hA : [.latch] ⊆ A) (h : Only A sB s) : Only A sB (Machine.readReg who r whole hi s).2 := by
  unfold Machine.readReg
  repeat' first
    | dsimp only
    | with_reducible assumption
    | with_reducible apply Only.setLatches (hA := List.Subset.trans (by decide) hA)
    | with_reducible apply Only.readHalf (hA := List.Subset.trans (by decide) hA)
    | split

theorem Only.readReg_eq {A : List Part} {sB : State} {who : Who} {r : Reg} {whole hi : Bool} {s : State} {y : Word} {t : State} (hA : [.latch] ⊆ A) (e : Machine.readReg who r whole hi s = (y, t)) (h : Only A sB s) : Only A sB t := by
  have := Only.readReg who r whole hi s hA h
  rwa [e] at this

theorem Only.zeroRead {A : List Part} {sB : State} (who : Who) (off : Nat) (s : State) (hA : [.notice, .jrn, .evPend, .pviol, .pvcnt, .out] ⊆ A) (h : Only A sB s) : Only A sB (Machine.zeroRead who off s) := by
  unfold Machine.zeroRead
  repeat' first
    | dsimp only
    | with_reducible assumption
    | intro _
    | with_reducible apply Only.debugRead (hA := List.Subset.trans (by decide) hA)
    | with_reducible apply Only.debugRecord (hA := List.Subset.trans (by decide) hA)
    | with_reducible apply Only.emit (hA := List.Subset.trans (by decide) hA)
    | with_reducible refine Only.ite ?_ ?_
    | split

theorem Only.readAligned {A : List Part} {sB : State} (who : Who) (whole : Bool) (off : Nat) (done : Word → Word) (s : State) (hA : [.notice, .es, .jrn, .evPend, .pviol, .pvcnt, .latch, .out] ⊆ A) (h : Only A sB s) : Only A sB (Machine.readAligned who whole off done s) := by
  unfold Machine.readAligned
  repeat' first
    | dsimp only
    | with_reducible assumption
    | intro _
    | with_reducible apply Only.debugRead (hA := List.Subset.trans (by decide) hA)
    | with_reducible apply Only.emit (hA := List.Subset.trans (by decide) hA)
    | with_reducible apply Only.rawRead (hA := List.Subset.trans (by decide) hA)
    | with_reducible apply Only.readReg (hA := List.Subset.trans (by decide) hA)
    | with_reducible apply Only.zeroRead (hA := List.Subset.trans (by decide) hA)
    | with_reducible refine Only.ite ?_ ?_
    | split

theorem Only.readPort {A : List Part} {sB : State} (who : Who) (size : AccSize) (off : Nat) (s : State) (hA : [.notice, .ces, .es, .jrn, .evPend, .pviol, .pvcnt, .latch, .out] ⊆ A) (h : Only A sB s) : Only A sB (Machine.readPort who size off s) := by
  unfold Machine.readPort
  repeat' first
    | dsimp only
    | with_reducible assumption
    | intro _
    | with_reducible apply Only.fxJournalRead (hA := List.Subset.trans (by decide) hA)
    | with_reducible apply Only.readAligned (hA := List.Subset.trans (by decide) hA)
    | with_reducible apply Only.zeroRead (hA := List.Subset.trans (by decide) hA)
    | with_reducible refine Only.ite ?_ ?_
    | split

theorem Only.fxStatTimeLowRead {A : List Part} {sB : State} (who : Who) (s : State) (hA : [.notice, .ces, .es, .jrn, .evPend, .pviol, .pvcnt, .latch, .out] ⊆ A) (h : Only A sB s) : Only A sB (Machine.fxStatTimeLowRead who s) := by
  unfold Machine.fxStatTimeLowRead
  repeat' first
    | with_reducible assumption
    | with_reducible apply Only.readPort (hA := List.Subset.trans (by decide) hA)

theorem Only.fxCaptureReadLatch {A : List Part} {sB : State} (who : Who) (off : BitVec 22) (s : State) (hA : [.notice, .ces, .es, .jrn, .evPend, .pviol, .pvcnt, .latch, .out] ⊆ A) (h : Only A sB s) : Only A sB (Machine.fxCaptureReadLatch who off s) := by
  unfold Machine.fxCaptureReadLatch
  repeat' first
    | with_reducible assumption
    | intro _
    | with_reducible apply Only.readPort (hA := List.Subset.trans (by decide) hA)
    | with_reducible apply Only.whenS

theorem Only.fxDebugRead {A : List Part} {sB : State} (who : Who) (size : AccSize) (off : BitVec 22) (s : State) (hA : [.notice, .ces, .es, .jrn, .evPend, .pviol, .pvcnt, .latch, .out] ⊆ A) (h : Only A sB s) : Only A sB (Machine.fxDebugRead who size off s) := by
  unfold Machine.fxDebugRead
  repeat' first
    | with_reducible assumption
    | with_reducible apply Only.readPort (hA := List.Subset.trans (by decide) hA)

end Sys2Proof.Machine
end

