-- ==== Sys2Proof/Laws/FrameRegWrite.lean ====
section
/-!
SUPPORT. Frames of the operations of Machine/RegWrite.lean: the parts of the state that each may change.
-/

set_option Elab.async false

namespace Sys2Proof.Machine

theorem Only.keepOwn {A : List Part} {sB : State} (r : Reg) (mask val : Word) (s : State) (hA : [.own, .notice] ⊆ A) (h : Only A sB s) : Only A sB (Machine.keepOwn r mask val s) := by
  unfold Machine.keepOwn
  repeat' first
    | dsimp only
    | with_reducible assumption
    | intro _
    | with_reducible apply Only.modNotice (hA := List.Subset.trans (by decide) hA)
    | with_reducible refine Only.modOwn _ (List.Subset.trans (by decide) hA) ?_ ?_
    | with_reducible apply Only.modTcmp (hA := List.Subset.trans (by decide) hA)
    | split

theorem Only.stageWrite {A : List Part} {sB : State} (who : Who) (r : Reg) (mask val : Word) (s : State) (hA : [.denied, .notice, .gen, .jrn, .evPend, .pviol, .pvcnt, .out] ⊆ A) (h : Only A sB s) : Only A sB (Machine.stageWrite who r mask val s) := by
  unfold Machine.stageWrite
  repeat' first
    | dsimp only
    | with_reducible assumption
    | intro _
    | with_reducible apply Only.dropPiece (hA := List.Subset.trans (by decide) hA)
    | with_reducible refine Only.modGen _ (List.Subset.trans (by decide) hA) ?_ ?_
    | with_reducible refine Only.ite ?_ ?_

theorem Only.timeCtlWrite {A : List Part} {sB : State} (mask val : Word) (s : State) (hA : [.own, .notice, .sqs, .sch, .time, .jrn, .evPend, .pviol, .pvcnt, .out] ⊆ A) (h : Only A sB s) : Only A sB (Machine.timeCtlWrite mask val s) := by
  unfold Machine.timeCtlWrite
  repeat' first
    | dsimp only
    | with_reducible assumption
    | intro _
    | with_reducible apply Only.adjust (hA := List.Subset.trans (by decide) hA)
    | with_reducible apply Only.armCapt (hA := List.Subset.trans (by decide) hA)
    | with_reducible apply Only.armSync (hA := List.Subset.trans (by decide) hA)
    | with_reducible apply Only.setRun (hA := List.Subset.trans (by decide) hA)
    | with_reducible refine Only.ite ?_ ?_

theorem Only.gateBits {A : List Part} {sB : State} (who : Who) (mask val : Word) (s : State) (hA : [.denied, .own, .notice, .tens, .sch, .reqs, .tiles, .streams, .ks, .dcs, .fp, .clk, .jrn, .evPend, .pviol, .pvcnt, .out] ⊆ A) (h : Only A sB s) : Only A sB (Machine.gateBits who mask val s) := by
  unfold Machine.gateBits
  repeat' first
    | dsimp only
    | with_reducible assumption
    | intro _
    | with_reducible apply Only.dropPiece (hA := List.Subset.trans (by decide) hA)
    | with_reducible apply Only.gateEnd (hA := List.Subset.trans (by decide) hA)
    | with_reducible apply Only.gateStart (hA := List.Subset.trans (by decide) hA)
    | with_reducible apply Only.foldl
    | with_reducible refine Only.ite ?_ ?_

theorem Only.clkmonWrite {A : List Part} {sB : State} (who : Who) (mask val : Word) (s : State) (hA : [.denied, .own, .notice, .clk, .jrn, .evPend, .pviol, .pvcnt, .out] ⊆ A) (h : Only A sB s) : Only A sB (Machine.clkmonWrite who mask val s) := by
  unfold Machine.clkmonWrite
  repeat' first
    | dsimp only
    | with_reducible assumption
    | intro _
    | with_reducible apply Only.clkmonEn (hA := List.Subset.trans (by decide) hA)
    | with_reducible apply Only.clkmonRelease (hA := List.Subset.trans (by decide) hA)
    | with_reducible apply Only.dropPiece (hA := List.Subset.trans (by decide) hA)
    | with_reducible refine Only.modOwn _ (List.Subset.trans (by decide) hA) ?_ ?_
    | with_reducible refine Only.ite ?_ ?_

theorem Only.genCommand {A : List Part} {sB : State} (cmd : Nat) (s : State) (hA : [.denied, .notice, .gen, .tens, .sqs, .sch, .reqs, .tiles, .streams, .ks, .dcs, .fp, .jrn, .evPend, .pviol, .pvcnt, .crs, .out] ⊆ A) (h : Only A sB s) : Only A sB (Machine.genCommand cmd s) := by
  unfold Machine.genCommand
  repeat' first
    | with_reducible assumption
    | intro _
    | with_reducible apply Only.genCancel (hA := List.Subset.trans (by decide) hA)
    | with_reducible apply Only.genCommit (hA := List.Subset.trans (by decide) hA)
    | with_reducible apply Only.genDiscard (hA := List.Subset.trans (by decide) hA)
    | with_reducible apply Only.genLoad (hA := List.Subset.trans (by decide) hA)
    | with_reducible apply Only.genRollback (hA := List.Subset.trans (by decide) hA)
    | with_reducible apply Only.whenIdle (hA := List.Subset.trans (by decide) hA)
    | split

theorem Only.courseCommand {A : List Part} {sB : State} (cmd : Nat) (s : State) (hA : [.notice, .tens, .sch, .reqs, .tiles, .ces, .streams, .ks, .es, .rbgs, .fp, .jrn, .evPend, .pviol, .pvcnt, .crs, .out, .free] ⊆ A) (h : Only A sB s) : Only A sB (Machine.courseCommand cmd s) := by
  unfold Machine.courseCommand
  repeat' first
    | with_reducible assumption
    | with_reducible apply Only.abandon (hA := List.Subset.trans (by decide) hA)
    | with_reducible apply Only.courseAccept (hA := List.Subset.trans (by decide) hA)
    | with_reducible apply Only.courseReform (hA := List.Subset.trans (by decide) hA)
    | with_reducible apply Only.leaveCourse (hA := List.Subset.trans (by decide) hA)
    | split

theorem Only.ksCommand {A : List Part} {sB : State} (cmd : Nat) (s : State) (hA : [.own, .notice, .sch, .tiles, .ks, .meas, .jrn, .evPend, .pviol, .pvcnt, .out] ⊆ A) (h : Only A sB s) : Only A sB (Machine.ksCommand cmd s) := by
  unfold Machine.ksCommand
  repeat' first
    | with_reducible assumption
    | intro _
    | with_reducible apply Only.ksAbort (hA := List.Subset.trans (by decide) hA)
    | with_reducible apply Only.ksCmd (hA := List.Subset.trans (by decide) hA)
    | with_reducible apply Only.ksCommit (hA := List.Subset.trans (by decide) hA)
    | with_reducible apply Only.ksExtend (hA := List.Subset.trans (by decide) hA)
    | with_reducible apply Only.ksOpenAs (hA := List.Subset.trans (by decide) hA)
    | with_reducible apply Only.ksZeroize (hA := List.Subset.trans (by decide) hA)
    | split

theorem Only.noticeSetup {A : List Part} {sB : State} (who : Who) (r : NoticeReg) (mask val : Word) (s : State) (hA : [.denied, .own, .notice, .jrn, .evPend, .pviol, .pvcnt, .out] ⊆ A) (h : Only A sB s) : Only A sB (Machine.noticeSetup who r mask val s) := by
  unfold Machine.noticeSetup
  repeat' first
    | dsimp only
    | with_reducible assumption
    | intro _
    | with_reducible apply Only.dropPiece (hA := List.Subset.trans (by decide) hA)
    | with_reducible apply Only.modJrn (hA := List.Subset.trans (by decide) hA)
    | with_reducible refine Only.modOwn _ (List.Subset.trans (by decide) hA) ?_ ?_
    | with_reducible refine Only.ite ?_ ?_
    | split

theorem Only.noticeHead {A : List Part} {sB : State} (new : Nat) (s : State) (hA : [.jrn] ⊆ A) (h : Only A sB s) : Only A sB (Machine.noticeHead new s) := by
  unfold Machine.noticeHead
  repeat' first
    | with_reducible assumption
    | with_reducible apply Only.modJrn (hA := List.Subset.trans (by decide) hA)

theorem Only.writeOwn {A : List Part} {sB : State} (who : Who) (r : Reg) (mask val : Word) (s : State) (hA : [.owner, .denied, .own, .notice, .gen, .tens, .sqs, .sch, .reqs, .tiles, .css, .ces, .streams, .ks, .es, .rbgs, .dcs, .fp, .time, .clk, .jrn, .evPend, .pviol, .pvcnt, .crs, .boot, .out, .free] ⊆ A) (h : Only A sB s) : Only A sB (Machine.writeOwn who r mask val s) := by
  unfold Machine.writeOwn
  repeat' first
    | dsimp only
    | with_reducible assumption
    | intro _
    | with_reducible apply Only.bootOff (hA := List.Subset.trans (by decide) hA)
    | with_reducible apply Only.clkmonWrite (hA := List.Subset.trans (by decide) hA)
    | with_reducible apply Only.courseCommand (hA := List.Subset.trans (by decide) hA)
    | with_reducible apply Only.crsSnap (hA := List.Subset.trans (by decide) hA)
    | with_reducible apply Only.csRejoin (hA := List.Subset.trans (by decide) hA)
    | with_reducible apply Only.eachN
    | with_reducible apply Only.gateBits (hA := List.Subset.trans (by decide) hA)
    | with_reducible apply Only.genCommand (hA := List.Subset.trans (by decide) hA)
    | with_reducible apply Only.handover (hA := List.Subset.trans (by decide) hA)
    | with_reducible apply Only.jrnFlush (hA := List.Subset.trans (by decide) hA)
    | with_reducible apply Only.keepOwn (hA := List.Subset.trans (by decide) hA)
    | with_reducible apply Only.noticeHead (hA := List.Subset.trans (by decide) hA)
    | with_reducible apply Only.noticeSetup (hA := List.Subset.trans (by decide) hA)
    | with_reducible apply Only.ownTrst (hA := List.Subset.trans (by decide) hA)
    | with_reducible apply Only.tileRejoin (hA := List.Subset.trans (by decide) hA)
    | with_reducible apply Only.timeCtlWrite (hA := List.Subset.trans (by decide) hA)
    | with_reducible refine Only.ite ?_ ?_
    | split

theorem Only.writeStat {A : List Part} {sB : State} (r : Reg) (w : Word) (s : State) (hA : [.denied, .sch, .tiles, .ces, .time, .clk, .sup, .jrn, .evPend, .buserr, .becnt, .crs] ⊆ A) (h : Only A sB s) : Only A sB (Machine.writeStat r w s) := by
  unfold Machine.writeStat
  repeat' first
    | with_reducible assumption
    | intro _
    | with_reducible apply Only.modBecnt (hA := List.Subset.trans (by decide) hA)
    | with_reducible apply Only.modBuserr (hA := List.Subset.trans (by decide) hA)
    | with_reducible apply Only.modCe (hA := List.Subset.trans (by decide) hA)
    | with_reducible apply Only.modClk (hA := List.Subset.trans (by decide) hA)
    | with_reducible apply Only.modCrs (hA := List.Subset.trans (by decide) hA)
    | with_reducible apply Only.modDenied (hA := List.Subset.trans (by decide) hA)
    | with_reducible apply Only.modEvPend (hA := List.Subset.trans (by decide) hA)
    | with_reducible apply Only.modJrn (hA := List.Subset.trans (by decide) hA)
    | with_reducible apply Only.modSch (hA := List.Subset.trans (by decide) hA)
    | with_reducible apply Only.modSup (hA := List.Subset.trans (by decide) hA)
    | with_reducible apply Only.modTile (hA := List.Subset.trans (by decide) hA)
    | with_reducible apply Only.modTime (hA := List.Subset.trans (by decide) hA)
    | with_reducible refine Only.ite ?_ ?_
    | split

theorem Only.writeKs {A : List Part} {sB : State} (who : Who) (r : Reg) (mask val : Word) (s : State) (hA : [.denied, .own, .notice, .sch, .tiles, .ks, .meas, .es, .rbgs, .jrn, .evPend, .pviol, .pvcnt, .out] ⊆ A) (h : Only A sB s) : Only A sB (Machine.writeKs who r mask val s) := by
  unfold Machine.writeKs
  repeat' first
    | dsimp only
    | with_reducible assumption
    | intro _
    | with_reducible apply Only.eachN
    | with_reducible apply Only.esRestart (hA := List.Subset.trans (by decide) hA)
    | with_reducible apply Only.keepOwn (hA := List.Subset.trans (by decide) hA)
    | with_reducible apply Only.ksBank (hA := List.Subset.trans (by decide) hA)
    | with_reducible apply Only.ksCommand (hA := List.Subset.trans (by decide) hA)
    | with_reducible apply Only.modEs (hA := List.Subset.trans (by decide) hA)
    | with_reducible apply Only.modKs (hA := List.Subset.trans (by decide) hA)
    | with_reducible apply Only.modMeas (hA := List.Subset.trans (by decide) hA)
    | with_reducible refine Only.modOwn _ (List.Subset.trans (by decide) hA) ?_ ?_
    | with_reducible apply Only.rbgRestart (hA := List.Subset.trans (by decide) hA)
    | with_reducible refine Only.ite ?_ ?_
    | split

theorem Only.writeAcc {A : List Part} {sB : State} (r : Reg) (w : Word) (s : State) (hA : [.pviol, .pvcnt] ⊆ A) (h : Only A sB s) : Only A sB (Machine.writeAcc r w s) := by
  unfold Machine.writeAcc
  repeat' first
    | with_reducible assumption
    | intro _
    | with_reducible apply Only.modPvcnt (hA := List.Subset.trans (by decide) hA)
    | with_reducible apply Only.modPviol (hA := List.Subset.trans (by decide) hA)
    | with_reducible refine Only.ite ?_ ?_
    | split

theorem Only.writeTenant {A : List Part} {sB : State} (r : Reg) (mask w : Word) (s : State) (hA : [.denied, .notice, .tens, .sqs, .sch, .reqs, .tiles, .streams, .ks, .dcs, .fp, .jrn, .evPend, .pviol, .pvcnt, .crs, .out] ⊆ A) (h : Only A sB s) : Only A sB (Machine.writeTenant r mask w s) := by
  unfold Machine.writeTenant
  repeat' first
    | dsimp only
    | with_reducible assumption
    | intro _
    | with_reducible apply Only.fpSnap (hA := List.Subset.trans (by decide) hA)
    | with_reducible apply Only.ledgerSnap (hA := List.Subset.trans (by decide) hA)
    | with_reducible apply Only.modTen (hA := List.Subset.trans (by decide) hA)
    | with_reducible apply Only.resetTenant (hA := List.Subset.trans (by decide) hA)
    | with_reducible refine Only.ite ?_ ?_
    | split

theorem Only.writeRing {A : List Part} {sB : State} (who : Who) (r : Reg) (mask val : Word) (s : State) (hA : [.denied, .notice, .tens, .sqs, .cqs, .reqs, .sent, .ks, .jrn, .evPend, .pviol, .pvcnt, .boot, .out] ⊆ A) (h : Only A sB s) : Only A sB (Machine.writeRing who r mask val s) := by
  unfold Machine.writeRing
  repeat' first
    | dsimp only
    | with_reducible assumption
    | intro _
    | with_reducible apply Only.cqEnWrite (hA := List.Subset.trans (by decide) hA)
    | with_reducible apply Only.cqFaultClear (hA := List.Subset.trans (by decide) hA)
    | with_reducible apply Only.cqSetup (hA := List.Subset.trans (by decide) hA)
    | with_reducible apply Only.modCq (hA := List.Subset.trans (by decide) hA)
    | with_reducible apply Only.modSq (hA := List.Subset.trans (by decide) hA)
    | with_reducible apply Only.sqBaseWrite (hA := List.Subset.trans (by decide) hA)
    | with_reducible apply Only.sqCfgWrite (hA := List.Subset.trans (by decide) hA)
    | with_reducible apply Only.sqCtlWrite (hA := List.Subset.trans (by decide) hA)
    | with_reducible apply Only.sqFaultClear (hA := List.Subset.trans (by decide) hA)
    | with_reducible apply Only.sqSchedWrite (hA := List.Subset.trans (by decide) hA)
    | with_reducible refine Only.ite ?_ ?_
    | split

theorem Only.writeDoorbell {A : List Part} {sB : State} (who : Who) (r : Reg) (mask val : Word) (s : State) (hA : [.denied, .notice, .tens, .sqs, .cqs, .sent, .jrn, .evPend, .pviol, .pvcnt, .out] ⊆ A) (h : Only A sB s) : Only A sB (Machine.writeDoorbell who r mask val s) := by
  unfold Machine.writeDoorbell
  repeat' first
    | dsimp only
    | with_reducible assumption
    | intro _
    | with_reducible apply Only.cqHead (hA := List.Subset.trans (by decide) hA)
    | with_reducible apply Only.dbWrite (hA := List.Subset.trans (by decide) hA)
    | with_reducible apply Only.dropPiece (hA := List.Subset.trans (by decide) hA)
    | with_reducible refine Only.ite ?_ ?_
    | split

theorem Only.writeChan {A : List Part} {sB : State} (who : Who) (r : Reg) (mask val : Word) (s : State) (hA : [.denied, .notice, .tens, .dcs, .jrn, .evPend, .pviol, .pvcnt, .out] ⊆ A) (h : Only A sB s) : Only A sB (Machine.writeChan who r mask val s) := by
  unfold Machine.writeChan
  repeat' first
    | dsimp only
    | with_reducible assumption
    | intro _
    | with_reducible apply Only.dcConfig (hA := List.Subset.trans (by decide) hA)
    | with_reducible apply Only.dcCtlWrite (hA := List.Subset.trans (by decide) hA)
    | with_reducible apply Only.dcHead (hA := List.Subset.trans (by decide) hA)
    | with_reducible apply Only.dropPiece (hA := List.Subset.trans (by decide) hA)
    | with_reducible apply Only.modDc (hA := List.Subset.trans (by decide) hA)
    | with_reducible apply Only.modTen (hA := List.Subset.trans (by decide) hA)
    | with_reducible refine Only.ite ?_ ?_
    | split

theorem Only.writeWord {A : List Part} {sB : State} (who : Who) (r : Reg) (mask val : Word) (s : State) (hA : [.owner, .denied, .own, .notice, .gen, .tens, .sqs, .cqs, .sch, .reqs, .sent, .tiles, .css, .ces, .streams, .ks, .meas, .es, .rbgs, .dcs, .fp, .time, .clk, .sup, .jrn, .evPend, .buserr, .becnt, .pviol, .pvcnt, .crs, .boot, .out, .free] ⊆ A) (h : Only A sB s) : Only A sB (Machine.writeWord who r mask val s) := by
  unfold Machine.writeWord
  repeat' first
    | with_reducible assumption
    | intro _
    | with_reducible apply Only.dropPiece (hA := List.Subset.trans (by decide) hA)
    | with_reducible apply Only.stageWrite (hA := List.Subset.trans (by decide) hA)
    | with_reducible apply Only.writeAcc (hA := List.Subset.trans (by decide) hA)
    | with_reducible apply Only.writeChan (hA := List.Subset.trans (by decide) hA)
    | with_reducible apply Only.writeDoorbell (hA := List.Subset.trans (by decide) hA)
    | with_reducible apply Only.writeKs (hA := List.Subset.trans (by decide) hA)
    | with_reducible apply Only.writeOwn (hA := List.Subset.trans (by decide) hA)
    | with_reducible apply Only.writeRing (hA := List.Subset.trans (by decide) hA)
    | with_reducible apply Only.writeStat (hA := List.Subset.trans (by decide) hA)
    | with_reducible apply Only.writeTenant (hA := List.Subset.trans (by decide) hA)
    | with_reducible refine Only.ite ?_ ?_
    | split

theorem Only.holdLow {A : List Part} {sB : State} (who : Who) (r : Reg) (val : Word) (s : State) (hA : [.denied, .notice, .jrn, .evPend, .pviol, .pvcnt, .heldWr, .out] ⊆ A) (h : Only A sB s) : Only A sB (Machine.holdLow who r val s) := by
  unfold Machine.holdLow
  repeat' first
    | dsimp only
    | with_reducible assumption
    | intro _
    | with_reducible apply Only.dropPiece (hA := List.Subset.trans (by decide) hA)
    | with_reducible apply Only.modHeld (hA := List.Subset.trans (by decide) hA)
    | with_reducible refine Only.ite ?_ ?_

theorem Only.writeHigh {A : List Part} {sB : State} (who : Who) (r : Reg) (val : Word) (s : State) (hA : [.owner, .denied, .own, .notice, .gen, .tens, .sqs, .cqs, .sch, .reqs, .sent, .tiles, .css, .ces, .streams, .ks, .meas, .es, .rbgs, .dcs, .fp, .time, .clk, .sup, .jrn, .evPend, .buserr, .becnt, .pviol, .pvcnt, .crs, .boot, .heldWr, .out, .free] ⊆ A) (h : Only A sB s) : Only A sB (Machine.writeHigh who r val s) := by
  unfold Machine.writeHigh
  repeat' first
    | with_reducible assumption
    | with_reducible apply Only.modHeld (hA := List.Subset.trans (by decide) hA)
    | with_reducible apply Only.writeWord (hA := List.Subset.trans (by decide) hA)
    | split

theorem Only.writeReg {A : List Part} {sB : State} (who : Who) (r : Reg) (whole hi : Bool) (value : Word) (s : State) (hA : [.owner, .denied, .own, .notice, .gen, .tens, .sqs, .cqs, .sch, .reqs, .sent, .tiles, .css, .ces, .streams, .ks, .meas, .es, .rbgs, .dcs, .fp, .time, .clk, .sup, .jrn, .evPend, .buserr, .becnt, .pviol, .pvcnt, .crs, .boot, .heldWr, .out, .free] ⊆ A) (h : Only A sB s) : Only A sB (Machine.writeReg who r whole hi value s) := by
  unfold Machine.writeReg
  repeat' first
    | dsimp only
    | with_reducible assumption
    | intro _
    | with_reducible apply Only.acceptPiece (hA := List.Subset.trans (by decide) hA)
    | with_reducible apply Only.claimPiece (hA := List.Subset.trans (by decide) hA)
    | with_reducible apply Only.gateP (hA := List.Subset.trans (by decide) hA)
    | with_reducible apply Only.holdLow (hA := List.Subset.trans (by decide) hA)
    | with_reducible apply Only.writeHigh (hA := List.Subset.trans (by decide) hA)
    | with_reducible apply Only.writeWord (hA := List.Subset.trans (by decide) hA)
    | with_reducible refine Only.ite ?_ ?_
    | split

theorem Only.dropEarly {A : List Part} {sB : State} (off : Nat) (f : State → State) (s : State) (hA : [] ⊆ A) (h : Only A sB s) (hf : ∀ x0, Only A sB x0 → Only A sB (f x0)) : Only A sB (Machine.dropEarly off f s) := by
  unfold Machine.dropEarly
  repeat' first
    | with_reducible assumption
    | intro _
    | with_reducible refine Only.ite ?_ ?_
    | apply hf

theorem Only.writePort {A : List Part} {sB : State} (who : Who) (size : AccSize) (off : Nat) (value : Word) (s : State) (hA : [.owner, .denied, .own, .notice, .gen, .tens, .sqs, .cqs, .sch, .reqs, .sent, .tiles, .css, .ces, .streams, .ks, .meas, .es, .rbgs, .dcs, .fp, .time, .clk, .sup, .jrn, .evPend, .buserr, .becnt, .pviol, .pvcnt, .crs, .boot, .heldWr, .out, .free] ⊆ A) (h : Only A sB s) : Only A sB (Machine.writePort who size off value s) := by
  unfold Machine.writePort
  repeat' first
    | dsimp only
    | with_reducible assumption
    | intro _
    | with_reducible apply Only.dropEarly (hA := List.Subset.trans (by decide) hA)
    | with_reducible apply Only.dropSubword (hA := List.Subset.trans (by decide) hA)
    | with_reducible apply Only.dropWrite (hA := List.Subset.trans (by decide) hA)
    | with_reducible apply Only.writeReg (hA := List.Subset.trans (by decide) hA)
    | with_reducible refine Only.ite ?_ ?_
    | split

theorem Only.fxRegisterWrite {A : List Part} {sB : State} (who : Who) (size : AccSize) (off : BitVec 22) (value : Word) (s : State) (hA : [.owner, .denied, .own, .notice, .gen, .tens, .sqs, .cqs, .sch, .reqs, .sent, .tiles, .css, .ces, .streams, .ks, .meas, .es, .rbgs, .dcs, .fp, .time, .clk, .sup, .jrn, .evPend, .buserr, .becnt, .pviol, .pvcnt, .crs, .boot, .heldWr, .out, .free] ⊆ A) (h : Only A sB s) : Only A sB (Machine.fxRegisterWrite who size off value s) := by
  unfold Machine.fxRegisterWrite
  repeat' first
    | with_reducible assumption
    | with_reducible apply Only.writePort (hA := List.Subset.trans (by decide) hA)

theorem Only.fxJournalFlush {A : List Part} {sB : State} (who : Who) (s : State) (hA : [.denied, .notice, .jrn, .evPend, .pviol, .pvcnt, .out] ⊆ A) (h : Only A sB s) : Only A sB (Machine.fxJournalFlush who s) := by
  unfold Machine.fxJournalFlush
  repeat' first
    | with_reducible assumption
    | intro _
    | with_reducible apply Only.gateW (hA := List.Subset.trans (by decide) hA)
    | with_reducible apply Only.jrnFlush (hA := List.Subset.trans (by decide) hA)

theorem Only.fxNoticeHeadWrite {A : List Part} {sB : State} (who : Who) (head : BitVec 13) (s : State) (hA : [.denied, .notice, .jrn, .evPend, .pviol, .pvcnt, .out] ⊆ A) (h : Only A sB s) : Only A sB (Machine.fxNoticeHeadWrite who head s) := by
  unfold Machine.fxNoticeHeadWrite
  repeat' first
    | with_reducible assumption
    | intro _
    | with_reducible apply Only.gateW (hA := List.Subset.trans (by decide) hA)
    | with_reducible apply Only.noticeHead (hA := List.Subset.trans (by decide) hA)

theorem Only.fxNoticeRingSetup {A : List Part} {sB : State} (who : Who) (r : NoticeReg) (v : Word) (s : State) (hA : [.denied, .own, .notice, .jrn, .evPend, .pviol, .pvcnt, .out] ⊆ A) (h : Only A sB s) : Only A sB (Machine.fxNoticeRingSetup who r v s) := by
  unfold Machine.fxNoticeRingSetup
  repeat' first
    | with_reducible assumption
    | intro _
    | with_reducible apply Only.gateW (hA := List.Subset.trans (by decide) hA)
    | with_reducible apply Only.noticeSetup (hA := List.Subset.trans (by decide) hA)

end Sys2Proof.Machine
end

