-- ==== Sys2Proof/Laws/Journal.lean ====
section
/-!
SUPPORT. Records and events: the sequence number of the journal rises by one with every record created, and an event leaves its pending
bit set (R438, R440).
-/

set_option Elab.async false

namespace Sys2Proof.Machine

/-- What a frame says of one part. -/
theorem Only.jrn {A : List Part} {s t : State} (h : Only A s t) (hA : Part.jrn ∉ A) : t.jrn = s.jrn := h.2 .jrn hA

theorem Only.own_eq {A : List Part} {s t : State} (h : Only A s t) (h1 : Part.own ∉ A) (h2 : Part.notice ∉ A) : t.own = s.own := by
  have e1 : { t.own with notice := 0 } = { s.own with notice := 0 } := h.2 .own h1
  have e2 : t.own.notice = s.own.notice := h.2 .notice h2
  generalize t.own = a at e1 e2
  generalize s.own = b at e1 e2
  cases a; cases b
  simp_all

theorem Only.gen_eq {A : List Part} {s t : State} (h : Only A s t) (h1 : Part.gen ∉ A) (h2 : Part.act ∉ A) : t.gen = s.gen := by
  have e1 : { t.gen with act := {} } = { s.gen with act := {} } := h.2 .gen h1
  have e2 : t.gen.act = s.gen.act := h.2 .act h2
  generalize t.gen = a at e1 e2
  generalize s.gen = b at e1 e2
  cases a; cases b
  simp_all

theorem raiseG_pend (e : Nat) (s : State) : (raiseG e s).evPend = s.evPend ||| BitVec.ofNat 64 (2 ^ e) := rfl

theorem bitOf_or (a b : Word) (k : Nat) : bitOf (a ||| b) k = (bitOf a k || bitOf b k) := by simp [bitOf]

theorem bitOf_pow (e : Nat) (h : e < 64) : bitOf (BitVec.ofNat 64 (2 ^ e)) e = true := by
  have : 2 ^ e < 2 ^ 64 := Nat.pow_lt_pow_right (by omega) h
  simp only [bitOf, BitVec.toNat_ofNat]
  rw [Nat.mod_eq_of_lt this]
  exact Nat.testBit_two_pow_self

theorem raiseG_bit (e : Nat) (s : State) (h : e < 64) : bitOf (raiseG e s).evPend e = true := by
  rw [raiseG_pend, bitOf_or, bitOf_pow e h, Bool.or_true]

theorem jrnLose_seq (s : State) : (jrnLose s).jrn.seq = s.jrn.seq := rfl

theorem jrnPush_seq (rec : List (BitVec 32)) (s : State) : (jrnPush rec s).jrn.seq = s.jrn.seq := by
  unfold jrnPush
  dsimp only
  split <;> rfl

theorem jrnMakeRoom_seq (need fuel : Nat) (s : State) : (jrnMakeRoom need fuel s).jrn.seq = s.jrn.seq := by
  induction fuel generalizing s with
  | zero => rfl
  | succ n ih =>
    unfold jrnMakeRoom
    split
    · rfl
    · rw [ih]; rfl

theorem notice_seq (rec : List (BitVec 32)) (s : State) : (notice rec s).jrn.seq = s.jrn.seq := by
  unfold notice
  dsimp only
  split
  · rfl
  · split
    · rfl
    · split
      · exact congrArg Journal.seq ((Only.noticeFault _ (A := recordParts.erase .jrn) (by decide)
          (Only.violP _ _ _ _ _ _ _ _ (by decide) (Only.refl _ _))).jrn (by decide))
      · change (emitRecord _ _ s).jrn.seq = s.jrn.seq
        exact congrArg Journal.seq ((Only.emitRecord _ _ s (A := [.out]) (by decide) (Only.refl _ _)).jrn (by decide))

theorem jrnOpen_seq (bad : Bool) (s : State) : (jrnOpen bad s).jrn.seq = s.jrn.seq := by
  unfold jrnOpen
  split <;> rfl

theorem jrnDeliver_seq (who : Who) (size : AccSize) (bad : Bool) (s : State) : (jrnDeliver who size bad s).jrn.seq = s.jrn.seq := by
  unfold jrnDeliver
  dsimp only
  split
  · split
    · split <;> (refine Eq.trans ?_ (jrnOpen_seq bad s)) <;> exact jrnOpen_seq bad _
    · exact jrnOpen_seq bad s
  · exact jrnOpen_seq bad s

theorem jrnServe_seq (l : List (Who × AccSize)) (s : State) : (jrnServe l s).jrn.seq = s.jrn.seq := by
  induction l generalizing s with
  | nil => rfl
  | cons a t ih =>
    obtain ⟨w, z⟩ := a
    unfold jrnServe
    split
    · rfl
    · rw [ih, jrnDeliver_seq]; rfl

theorem jrnStore_seq (rec : List (BitVec 32)) (s : State) : (jrnStore rec s).jrn.seq = s.jrn.seq := by
  unfold jrnStore
  rw [jrnServe_seq, notice_seq, jrnPush_seq]

/-- Every record created takes the next sequence number, stored or not (R440). -/
theorem journal_seq (type origin : Nat) (payload : List Nat) (s : State) : (journal type origin payload s).jrn.seq = s.jrn.seq + 1 := by
  unfold journal
  dsimp only
  split
  · split
    · rw [jrnStore_seq, jrnMakeRoom_seq]; rfl
    · rw [jrnLose_seq, jrnMakeRoom_seq]; rfl
  · split
    · rw [jrnStore_seq]; rfl
    · rfl

/-- A dropped write: one record, one count, and nothing but the parts of a drop changes (R38). -/
theorem dropWrite_facts (who : Who) (off value : Nat) (s : State) :
    Only dropParts s (dropWrite who off value s) ∧ (dropWrite who off value s).jrn.seq = s.jrn.seq + 1 ∧
      (dropWrite who off value s).denied = s.denied.bump := by
  refine ⟨Only.dropWrite _ _ _ _ (by decide) (Only.refl _ _), ?_, ?_⟩
  · unfold dropWrite
    rw [(Only.countDenied _ (A := [.denied, .evPend]) (by decide) (Only.refl _ _)).jrn (by decide)]
    split
    · exact journal_seq _ _ _ _
    · exact journal_seq _ _ _ _
  · have key : ∀ x : State, x.denied = s.denied → (countDenied x).denied = s.denied.bump := by
      intro x hx
      unfold countDenied
      dsimp only
      split <;> (change Cnt32.bump x.denied = _; rw [hx])
    unfold dropWrite
    split
    · exact key _ ((Only.debugRecord who off .write false s (A := recordParts) (by decide) (Only.refl _ _)).2 .denied (by decide))
    · exact key _ ((Only.journal _ _ _ s (A := recordParts) (by decide) (Only.refl _ _)).2 .denied (by decide))

theorem dropReg_facts (who : Who) (r : Reg) (val : Word) (s : State) :
    Only dropParts s (dropReg who r val s) ∧ (dropReg who r val s).jrn.seq = s.jrn.seq + 1 ∧ (dropReg who r val s).denied = s.denied.bump :=
  dropWrite_facts _ _ _ _

end Sys2Proof.Machine
end

