-- ==== Sys2Proof/Laws/InCache.lean ====
section
/-!
SUPPORT. The key cache stays through the operations that end an operation or a chain.
-/

set_option Elab.async false

namespace Sys2Proof.Machine

/-- The key cache holds c. -/
def Cch (c : Tbl (Option CacheEnt)) (s : State) : Prop := s.ks.cache = c

theorem Cch.modTen {c0 : Tbl (Option CacheEnt)} (n : Nat) (f : Tenant → Tenant) (s : State) (hs : Cch c0 s) : Cch c0 (Machine.modTen n f s) := hs
theorem Cch.modSq {c0 : Tbl (Option CacheEnt)} (n m : Nat) (f : Sq → Sq) (s : State) (hs : Cch c0 s) : Cch c0 (Machine.modSq n m f s) := hs
theorem Cch.modCq {c0 : Tbl (Option CacheEnt)} (n m : Nat) (f : Cq → Cq) (s : State) (hs : Cch c0 s) : Cch c0 (Machine.modCq n m f s) := hs
theorem Cch.modDc {c0 : Tbl (Option CacheEnt)} (k : Nat) (f : Chan → Chan) (s : State) (hs : Cch c0 s) : Cch c0 (Machine.modDc k f s) := hs
theorem Cch.modTile {c0 : Tbl (Option CacheEnt)} (t : Nat) (f : Tile → Tile) (s : State) (hs : Cch c0 s) : Cch c0 (Machine.modTile t f s) := hs
theorem Cch.setCs {c0 : Tbl (Option CacheEnt)} (c : Nat) (v : CsSt) (s : State) (hs : Cch c0 s) : Cch c0 (Machine.setCs c v s) := hs
theorem Cch.modKs {c0 : Tbl (Option CacheEnt)} {s : State} (f : KeyStore → KeyStore) (h : Cch c0 s) (hf : ∀ k, (f k).cache = k.cache) :
    Cch c0 (Machine.modKs f s) := (hf _).trans h
theorem Cch.modSlot {c0 : Tbl (Option CacheEnt)} (i : Nat) (f : Slot → Slot) (s : State) (hs : Cch c0 s) : Cch c0 (Machine.modSlot i f s) := hs
theorem Cch.modRbg {c0 : Tbl (Option CacheEnt)} (k : Nat) (f : Rbg → Rbg) (s : State) (hs : Cch c0 s) : Cch c0 (Machine.modRbg k f s) := hs
theorem Cch.setStream {c0 : Tbl (Option CacheEnt)} (i : Nat) (v : Option Stream) (s : State) (hs : Cch c0 s) : Cch c0 (Machine.setStream i v s) := hs

theorem Cch.modCrs {c0 : Tbl (Option CacheEnt)} (f : Course → Course) (s : State) (hs : Cch c0 s) : Cch c0 (Machine.modCrs f s) := hs
theorem Cch.modPeer {c0 : Tbl (Option CacheEnt)} (p : Nat) (f : Peer → Peer) (s : State) (hs : Cch c0 s) : Cch c0 (Machine.modPeer p f s) := hs
theorem Cch.modOwn {c0 : Tbl (Option CacheEnt)} (f : OwnRegs → OwnRegs) (s : State) (hs : Cch c0 s) : Cch c0 (Machine.modOwn f s) := hs
theorem Cch.modTcmp {c0 : Tbl (Option CacheEnt)} (j : Nat) (f : Tcmp → Tcmp) (s : State) (hs : Cch c0 s) : Cch c0 (Machine.modTcmp j f s) := hs
theorem Cch.modGen {c0 : Tbl (Option CacheEnt)} (f : Gen → Gen) (s : State) (hs : Cch c0 s) : Cch c0 (Machine.modGen f s) := hs
theorem Cch.modJrn {c0 : Tbl (Option CacheEnt)} (f : Journal → Journal) (s : State) (hs : Cch c0 s) : Cch c0 (Machine.modJrn f s) := hs
theorem Cch.modTime {c0 : Tbl (Option CacheEnt)} (f : TimeUnit → TimeUnit) (s : State) (hs : Cch c0 s) : Cch c0 (Machine.modTime f s) := hs
theorem Cch.modClk {c0 : Tbl (Option CacheEnt)} (f : Clocks → Clocks) (s : State) (hs : Cch c0 s) : Cch c0 (Machine.modClk f s) := hs
theorem Cch.modStart {c0 : Tbl (Option CacheEnt)} (f : Start → Start) (s : State) (hs : Cch c0 s) : Cch c0 (Machine.modStart f s) := hs
theorem Cch.modOwner {c0 : Tbl (Option CacheEnt)} (f : Owner → Owner) (s : State) (hs : Cch c0 s) : Cch c0 (Machine.modOwner f s) := hs
theorem Cch.modMeas {c0 : Tbl (Option CacheEnt)} (f : Meas → Meas) (s : State) (hs : Cch c0 s) : Cch c0 (Machine.modMeas f s) := hs
theorem Cch.modEs {c0 : Tbl (Option CacheEnt)} (f : Entropy → Entropy) (s : State) (hs : Cch c0 s) : Cch c0 (Machine.modEs f s) := hs
theorem Cch.modBoot {c0 : Tbl (Option CacheEnt)} (f : Boot → Boot) (s : State) (hs : Cch c0 s) : Cch c0 (Machine.modBoot f s) := hs
theorem Cch.modFp {c0 : Tbl (Option CacheEnt)} (f : FramePort → FramePort) (s : State) (hs : Cch c0 s) : Cch c0 (Machine.modFp f s) := hs
theorem Cch.modSup {c0 : Tbl (Option CacheEnt)} (f : Supply → Supply) (s : State) (hs : Cch c0 s) : Cch c0 (Machine.modSup f s) := hs
theorem Cch.modSch {c0 : Tbl (Option CacheEnt)} (f : Sched → Sched) (s : State) (hs : Cch c0 s) : Cch c0 (Machine.modSch f s) := hs
theorem Cch.modReq {c0 : Tbl (Option CacheEnt)} (id : Nat) (f : Req → Req) (s : State) (hs : Cch c0 s) : Cch c0 (Machine.modReq id f s) := hs
theorem Cch.dropReq {c0 : Tbl (Option CacheEnt)} (id : Nat) (s : State) (hs : Cch c0 s) : Cch c0 (Machine.dropReq id s) := hs
theorem Cch.emit {c0 : Tbl (Option CacheEnt)} (o : Out) (s : State) (hs : Cch c0 s) : Cch c0 (Machine.emit o s) := hs
theorem Cch.nextFree {c0 : Tbl (Option CacheEnt)} (s : State) (hs : Cch c0 s) : Cch c0 (Machine.nextFree s) := hs
theorem Cch.modRoots {c0 : Tbl (Option CacheEnt)} (f : Roots → Roots) (s : State) (hs : Cch c0 s) : Cch c0 (Machine.modRoots f s) := hs
theorem Cch.modIdent {c0 : Tbl (Option CacheEnt)} (f : Ident → Ident) (s : State) (hs : Cch c0 s) : Cch c0 (Machine.modIdent f s) := hs
theorem Cch.modRet {c0 : Tbl (Option CacheEnt)} (f : Retention → Retention) (s : State) (hs : Cch c0 s) : Cch c0 (Machine.modRet f s) := hs
theorem Cch.modDenied {c0 : Tbl (Option CacheEnt)} (f : Cnt32 → Cnt32) (s : State) (hs : Cch c0 s) : Cch c0 (Machine.modDenied f s) := hs
theorem Cch.modEvPend {c0 : Tbl (Option CacheEnt)} (f : Word → Word) (s : State) (hs : Cch c0 s) : Cch c0 (Machine.modEvPend f s) := hs
theorem Cch.modBuserr {c0 : Tbl (Option CacheEnt)} (f : Capture → Capture) (s : State) (hs : Cch c0 s) : Cch c0 (Machine.modBuserr f s) := hs
theorem Cch.modBecnt {c0 : Tbl (Option CacheEnt)} (f : Cnt32 → Cnt32) (s : State) (hs : Cch c0 s) : Cch c0 (Machine.modBecnt f s) := hs
theorem Cch.modPviol {c0 : Tbl (Option CacheEnt)} (f : Capture → Capture) (s : State) (hs : Cch c0 s) : Cch c0 (Machine.modPviol f s) := hs
theorem Cch.modPvcnt {c0 : Tbl (Option CacheEnt)} (f : Cnt32 → Cnt32) (s : State) (hs : Cch c0 s) : Cch c0 (Machine.modPvcnt f s) := hs
theorem Cch.modSent {c0 : Tbl (Option CacheEnt)} (f : List Req → List Req) (s : State) (hs : Cch c0 s) : Cch c0 (Machine.modSent f s) := hs
theorem Cch.modReqs {c0 : Tbl (Option CacheEnt)} (f : List Req → List Req) (s : State) (hs : Cch c0 s) : Cch c0 (Machine.modReqs f s) := hs
theorem Cch.modHeld {c0 : Tbl (Option CacheEnt)} (f : List HeldWrite → List HeldWrite) (s : State) (hs : Cch c0 s) : Cch c0 (Machine.modHeld f s) := hs
theorem Cch.modLatch {c0 : Tbl (Option CacheEnt)} (f : List Latch → List Latch) (s : State) (hs : Cch c0 s) : Cch c0 (Machine.modLatch f s) := hs
theorem Cch.modCe {c0 : Tbl (Option CacheEnt)} (c : Nat) (f : Cnt32 → Cnt32) (s : State) (hs : Cch c0 s) : Cch c0 (Machine.modCe c f s) := hs
theorem Cch.modNotice {c0 : Tbl (Option CacheEnt)} (f : Word → Word) (s : State) (hs : Cch c0 s) : Cch c0 (Machine.modNotice f s) := hs
theorem Cch.setAct {c0 : Tbl (Option CacheEnt)} (c : Content) (s : State) (hs : Cch c0 s) : Cch c0 (Machine.setAct c s) := hs

theorem Cch.foldl {c0 : Tbl (Option CacheEnt)} {s : State} {α : Type} {f : State → α → State} (l : List α) (h : Cch c0 s) (hf : ∀ s a, Cch c0 s → Cch c0 (f s a)) :
    Cch c0 (l.foldl f s) := by
  induction l generalizing s with
  | nil => exact h
  | cons a t ih => exact ih (hf s a h)
theorem Cch.eachN {c0 : Tbl (Option CacheEnt)} {s : State} {f : Nat → State → State} (l : List Nat) (h : Cch c0 s) (hf : ∀ i s, Cch c0 s → Cch c0 (f i s)) : Cch c0 (Machine.eachN l f s) :=
  Cch.foldl l h (fun s i hs => hf i s hs)
theorem Cch.ite {c0 : Tbl (Option CacheEnt)} {c : Prop} [Decidable c] {a b : State} (ha : c → Cch c0 a) (hb : ¬c → Cch c0 b) : Cch c0 (if c then a else b) := by
  by_cases h : c
  · rw [if_pos h]; exact ha h
  · rw [if_neg h]; exact hb h
theorem Cch.idS {c0 : Tbl (Option CacheEnt)} {s : State} (h : Cch c0 s) : Cch c0 (id s) := h
theorem Cch.whenS {c0 : Tbl (Option CacheEnt)} {b : Bool} {f : State → State} {s : State} (h : Cch c0 s) (hf : b = true → ∀ s, Cch c0 s → Cch c0 (f s)) : Cch c0 (Machine.whenS b f s) := by
  unfold Machine.whenS
  split
  · next e => exact hf e s h
  · exact h
theorem Cch.withReq {c0 : Tbl (Option CacheEnt)} {id : Nat} {f : Req → State → State} {s : State} (h : Cch c0 s) (hf : ∀ r s, Cch c0 s → Cch c0 (f r s)) : Cch c0 (Machine.withReq id f s) := by
  unfold Machine.withReq
  split
  · exact hf _ s h
  · exact h

theorem Cch.emitWr {c0 : Tbl (Option CacheEnt)} (addr : Nat) (data : Bytes) (s : State) (h : Cch c0 s) : Cch c0 (Machine.emitWr addr data s) := by
  unfold Machine.emitWr
  repeat' first
    | dsimp only
    | with_reducible assumption
    | intro _
    | with_reducible apply Cch.emit
    | with_reducible apply Cch.foldl

theorem Cch.emitRd {c0 : Tbl (Option CacheEnt)} (addr len : Nat) (s : State) (h : Cch c0 s) : Cch c0 (Machine.emitRd addr len s) := by
  unfold Machine.emitRd
  repeat' first
    | dsimp only
    | with_reducible assumption
    | intro _
    | with_reducible apply Cch.emit
    | with_reducible apply Cch.foldl

theorem Cch.emitRecord {c0 : Tbl (Option CacheEnt)} (addr : Nat) (b : Bytes) (s : State) (h : Cch c0 s) : Cch c0 (Machine.emitRecord addr b s) := by
  unfold Machine.emitRecord
  repeat' first
    | dsimp only
    | with_reducible assumption
    | intro _
    | with_reducible apply Cch.emitWr
    | with_reducible refine Cch.ite ?_ ?_
    | split

theorem Cch.raiseT {c0 : Tbl (Option CacheEnt)} (n e : Nat) (s : State) (h : Cch c0 s) : Cch c0 (Machine.raiseT n e s) := by
  unfold Machine.raiseT
  repeat' first
    | dsimp only
    | with_reducible assumption
    | intro _
    | with_reducible apply Cch.modTen

theorem Cch.raiseG {c0 : Tbl (Option CacheEnt)} (e : Nat) (s : State) (h : Cch c0 s) : Cch c0 (Machine.raiseG e s) := by
  unfold Machine.raiseG
  repeat' first
    | dsimp only
    | with_reducible assumption
    | intro _
    | with_reducible apply Cch.modEvPend

theorem Cch.violT {c0 : Tbl (Option CacheEnt)} (n : Nat) (addr : Nat) (d : Dir) (cause kind number tag gen : Nat) (s : State) (h : Cch c0 s) : Cch c0 (Machine.violT n addr d cause kind number tag gen s) := by
  unfold Machine.violT
  repeat' first
    | dsimp only
    | with_reducible assumption
    | intro _
    | with_reducible apply Cch.modTen
    | with_reducible apply Cch.raiseT
    | with_reducible refine Cch.ite ?_ ?_

theorem Cch.violP {c0 : Tbl (Option CacheEnt)} (addr : Nat) (d : Dir) (cause kind number tag gen : Nat) (s : State) (h : Cch c0 s) : Cch c0 (Machine.violP addr d cause kind number tag gen s) := by
  unfold Machine.violP
  repeat' first
    | dsimp only
    | with_reducible assumption
    | intro _
    | with_reducible apply Cch.modPvcnt
    | with_reducible apply Cch.modPviol
    | with_reducible apply Cch.raiseG
    | with_reducible refine Cch.ite ?_ ?_

theorem Cch.viol {c0 : Tbl (Option CacheEnt)} (t : Option TenantIx) (addr : Nat) (d : Dir) (cause kind number tag gen : Nat) (s : State) (h : Cch c0 s) : Cch c0 (Machine.viol t addr d cause kind number tag gen s) := by
  unfold Machine.viol
  repeat' first
    | dsimp only
    | with_reducible assumption
    | intro _
    | with_reducible apply Cch.violP
    | with_reducible apply Cch.violT
    | with_reducible refine Cch.ite ?_ ?_
    | split

theorem Cch.jrnLose {c0 : Tbl (Option CacheEnt)} (s : State) (h : Cch c0 s) : Cch c0 (Machine.jrnLose s) := by
  unfold Machine.jrnLose
  repeat' first
    | dsimp only
    | with_reducible assumption
    | intro _
    | with_reducible apply Cch.modJrn
    | with_reducible apply Cch.raiseG
    | with_reducible refine Cch.ite ?_ ?_
    | split

theorem Cch.jrnNlose {c0 : Tbl (Option CacheEnt)} (s : State) (h : Cch c0 s) : Cch c0 (Machine.jrnNlose s) := by
  unfold Machine.jrnNlose
  repeat' first
    | dsimp only
    | with_reducible assumption
    | intro _
    | with_reducible apply Cch.modJrn
    | with_reducible refine Cch.ite ?_ ?_
    | split

theorem Cch.jrnPush {c0 : Tbl (Option CacheEnt)} (rec : List (BitVec 32)) (s : State) (h : Cch c0 s) : Cch c0 (Machine.jrnPush rec s) := by
  unfold Machine.jrnPush
  repeat' first
    | dsimp only
    | with_reducible assumption
    | intro _
    | with_reducible apply Cch.modJrn
    | with_reducible apply Cch.raiseG
    | with_reducible refine Cch.ite ?_ ?_
    | split

theorem Cch.jrnMakeRoom {c0 : Tbl (Option CacheEnt)} (need : Nat) (x : Nat) (s : State) (h : Cch c0 s) : Cch c0 (Machine.jrnMakeRoom need x s) := by
  induction x generalizing s with
  | zero => exact h
  | succ l ih =>
    unfold Machine.jrnMakeRoom
    repeat' first
      | dsimp only
      | with_reducible assumption
      | intro _
      | with_reducible apply Cch.jrnLose
      | with_reducible apply Cch.modJrn
      | with_reducible refine Cch.ite ?_ ?_
      | split
      | with_reducible apply ih

theorem Cch.noticeFault {c0 : Tbl (Option CacheEnt)} (s : State) (h : Cch c0 s) : Cch c0 (Machine.noticeFault s) := by
  unfold Machine.noticeFault
  repeat' first
    | dsimp only
    | with_reducible assumption
    | intro _
    | with_reducible apply Cch.modNotice
    | with_reducible apply Cch.raiseG
    | with_reducible refine Cch.ite ?_ ?_
    | split

theorem Cch.notice {c0 : Tbl (Option CacheEnt)} (rec : List (BitVec 32)) (s : State) (h : Cch c0 s) : Cch c0 (Machine.notice rec s) := by
  unfold Machine.notice
  repeat' first
    | dsimp only
    | with_reducible assumption
    | intro _
    | with_reducible apply Cch.emitRecord
    | with_reducible apply Cch.jrnNlose
    | with_reducible apply Cch.modJrn
    | with_reducible apply Cch.noticeFault
    | with_reducible apply Cch.violP
    | with_reducible refine Cch.ite ?_ ?_
    | split

theorem Cch.jrnOpen {c0 : Tbl (Option CacheEnt)} (bad : Bool) (s : State) (h : Cch c0 s) : Cch c0 (Machine.jrnOpen bad s) := by
  unfold Machine.jrnOpen
  repeat' first
    | dsimp only
    | with_reducible assumption
    | intro _
    | with_reducible apply Cch.modJrn
    | with_reducible refine Cch.ite ?_ ?_
    | split

theorem Cch.jrnDeliver {c0 : Tbl (Option CacheEnt)} (who : Who) (size : AccSize) (bad : Bool) (s : State) (h : Cch c0 s) : Cch c0 (Machine.jrnDeliver who size bad s) := by
  unfold Machine.jrnDeliver
  repeat' first
    | dsimp only
    | with_reducible assumption
    | intro _
    | with_reducible apply Cch.emit
    | with_reducible apply Cch.jrnOpen
    | with_reducible apply Cch.modJrn
    | with_reducible refine Cch.ite ?_ ?_
    | split

theorem Cch.jrnServe {c0 : Tbl (Option CacheEnt)} (x : List (Who × AccSize)) (s : State) (h : Cch c0 s) : Cch c0 (Machine.jrnServe x s) := by
  induction x generalizing s with
  | nil => exact h
  | cons a l ih =>
    obtain ⟨_, _⟩ := a
    unfold Machine.jrnServe
    repeat' first
      | dsimp only
      | with_reducible assumption
      | intro _
      | with_reducible apply Cch.jrnDeliver
      | with_reducible apply Cch.modJrn
      | with_reducible refine Cch.ite ?_ ?_
      | split
      | with_reducible apply ih

theorem Cch.jrnStore {c0 : Tbl (Option CacheEnt)} (rec : List (BitVec 32)) (s : State) (h : Cch c0 s) : Cch c0 (Machine.jrnStore rec s) := by
  unfold Machine.jrnStore
  repeat' first
    | dsimp only
    | with_reducible assumption
    | intro _
    | with_reducible apply Cch.jrnPush
    | with_reducible apply Cch.jrnServe
    | with_reducible apply Cch.notice
    | with_reducible refine Cch.ite ?_ ?_
    | split

theorem Cch.journal {c0 : Tbl (Option CacheEnt)} (type origin : Nat) (payload : List Nat) (s : State) (h : Cch c0 s) : Cch c0 (Machine.journal type origin payload s) := by
  unfold Machine.journal
  repeat' first
    | dsimp only
    | with_reducible assumption
    | intro _
    | with_reducible apply Cch.jrnLose
    | with_reducible apply Cch.jrnMakeRoom
    | with_reducible apply Cch.jrnStore
    | with_reducible apply Cch.modJrn
    | with_reducible refine Cch.ite ?_ ?_
    | split

theorem Cch.sendFrame {c0 : Tbl (Option CacheEnt)} (type dst : Nat) (payload : Bytes) (s : State) (h : Cch c0 s) : Cch c0 (Machine.sendFrame type dst payload s) := by
  unfold Machine.sendFrame
  repeat' first
    | dsimp only
    | with_reducible assumption
    | intro _
    | with_reducible apply Cch.emit
    | with_reducible apply Cch.modCrs

theorem Cch.modOp {c0 : Tbl (Option CacheEnt)} (id i : Nat) (f : OpSt → OpSt) (s : State) (h : Cch c0 s) : Cch c0 (Machine.modOp id i f s) := by
  unfold Machine.modOp
  repeat' first
    | dsimp only
    | with_reducible assumption
    | intro _
    | with_reducible apply Cch.modReq

theorem Cch.modBuf {c0 : Tbl (Option CacheEnt)} (id b : Nat) (f : BufSt → BufSt) (s : State) (h : Cch c0 s) : Cch c0 (Machine.modBuf id b f s) := by
  unfold Machine.modBuf
  repeat' first
    | dsimp only
    | with_reducible assumption
    | intro _
    | with_reducible apply Cch.modReq

theorem Cch.reqViol {c0 : Tbl (Option CacheEnt)} (r : Req) (addr : Nat) (d : Dir) (cause : Nat) (s : State) (h : Cch c0 s) : Cch c0 (Machine.reqViol r addr d cause s) := by
  unfold Machine.reqViol
  repeat' first
    | dsimp only
    | with_reducible assumption
    | intro _
    | with_reducible apply Cch.viol

theorem Cch.freeTiles {c0 : Tbl (Option CacheEnt)} (id : Nat) (s : State) (h : Cch c0 s) : Cch c0 (Machine.freeTiles id s) := by
  unfold Machine.freeTiles
  repeat' first
    | dsimp only
    | with_reducible assumption
    | intro _
    | with_reducible apply Cch.eachN
    | with_reducible apply Cch.modTile

theorem Cch.dropWork {c0 : Tbl (Option CacheEnt)} (aim : Purpose) (s : State) (h : Cch c0 s) : Cch c0 (Machine.dropWork aim s) := by
  unfold Machine.dropWork
  repeat' first
    | dsimp only
    | with_reducible assumption
    | intro _
    | with_reducible apply Cch.foldl
    | with_reducible apply Cch.freeTiles
    | with_reducible apply Cch.modSch
    | with_reducible refine Cch.ite ?_ ?_
    | split

theorem Cch.unclaim {c0 : Tbl (Option CacheEnt)} (x : Nat) (s : State) (h : Cch c0 s) : Cch c0 (Machine.unclaim x s) := by
  unfold Machine.unclaim
  repeat' first
    | dsimp only
    | with_reducible assumption
    | intro _
    | with_reducible apply Cch.dropWork
    | with_reducible apply Cch.modKs
    | with_reducible apply Cch.modSlot
    | with_reducible refine Cch.ite ?_ ?_
    | split

theorem Cch.closeStream {c0 : Tbl (Option CacheEnt)} (ix : Nat) (s : State) (h : Cch c0 s) : Cch c0 (Machine.closeStream ix s) := by
  unfold Machine.closeStream
  repeat' first
    | dsimp only
    | with_reducible assumption
    | intro _
    | with_reducible apply Cch.setStream
    | with_reducible refine Cch.ite ?_ ?_
    | split

theorem Cch.issueJob {c0 : Tbl (Option CacheEnt)} (kind : Nat) (work : JobWork) (s : State) (h : Cch c0 s) : Cch c0 (Machine.issueJob kind work s) := by
  unfold Machine.issueJob
  repeat' first
    | dsimp only
    | with_reducible assumption
    | intro _
    | with_reducible apply Cch.modSch
    | with_reducible refine Cch.ite ?_ ?_
    | split

theorem Cch.prepareBank {c0 : Tbl (Option CacheEnt)} (x : Nat) (s : State) (h : Cch c0 s) : Cch c0 (Machine.prepareBank x s) := by
  unfold Machine.prepareBank
  repeat' first
    | dsimp only
    | with_reducible assumption
    | intro _
    | with_reducible apply Cch.issueJob
    | with_reducible refine Cch.ite ?_ ?_
    | split

theorem Cch.beginVerify {c0 : Tbl (Option CacheEnt)} (x : Nat) (s : State) (h : Cch c0 s) : Cch c0 (Machine.beginVerify x s) := by
  unfold Machine.beginVerify
  repeat' first
    | dsimp only
    | with_reducible assumption
    | intro _
    | with_reducible apply Cch.modKs
    | with_reducible apply Cch.modSlot
    | with_reducible apply Cch.prepareBank
    | with_reducible refine Cch.ite ?_ ?_
    | split

theorem Cch.endStreams {c0 : Tbl (Option CacheEnt)} (r : Req) (o : Outcome) (s : State) (h : Cch c0 s) : Cch c0 (Machine.endStreams r o s) := by
  unfold Machine.endStreams
  repeat' first
    | dsimp only
    | with_reducible assumption
    | intro _
    | with_reducible apply Cch.closeStream
    | with_reducible apply Cch.eachN
    | with_reducible apply Cch.setStream
    | with_reducible refine Cch.ite ?_ ?_
    | split

theorem Cch.dropStreams {c0 : Tbl (Option CacheEnt)} (r : Req) (o : Outcome) (s : State) (h : Cch c0 s) : Cch c0 (Machine.dropStreams r o s) := by
  unfold Machine.dropStreams
  repeat' first
    | dsimp only
    | with_reducible assumption
    | intro _
    | with_reducible apply Cch.closeStream
    | with_reducible apply Cch.foldl
    | with_reducible refine Cch.ite ?_ ?_
    | split

theorem Cch.scrubSeg {c0 : Tbl (Option CacheEnt)} (r : Req) (a len : Nat) (s : State) (h : Cch c0 s) : Cch c0 (Machine.scrubSeg r a len s) := by
  unfold Machine.scrubSeg
  repeat' first
    | dsimp only
    | with_reducible assumption
    | intro _
    | with_reducible apply Cch.emitWr
    | with_reducible apply Cch.modReq
    | with_reducible apply Cch.reqViol
    | with_reducible refine Cch.ite ?_ ?_
    | split

theorem Cch.scrubAll {c0 : Tbl (Option CacheEnt)} (r : Req) (s : State) (h : Cch c0 s) : Cch c0 (Machine.scrubAll r s) := by
  unfold Machine.scrubAll
  repeat' first
    | dsimp only
    | with_reducible assumption
    | intro _
    | with_reducible apply Cch.eachN
    | with_reducible apply Cch.emit
    | with_reducible apply Cch.foldl
    | with_reducible apply Cch.scrubSeg
    | with_reducible refine Cch.ite ?_ ?_
    | split

theorem Cch.fencePort {c0 : Tbl (Option CacheEnt)} (id : Nat) (port : Bool) (s : State) (h : Cch c0 s) : Cch c0 (Machine.fencePort id port s) := by
  unfold Machine.fencePort
  repeat' first
    | dsimp only
    | with_reducible assumption
    | intro _
    | with_reducible apply Cch.emitRd
    | with_reducible apply Cch.modReq
    | with_reducible apply Cch.reqViol
    | with_reducible apply Cch.idS
    | with_reducible refine Cch.ite ?_ ?_
    | split

theorem Cch.fenceFrame {c0 : Tbl (Option CacheEnt)} (r : Req) (s : State) (h : Cch c0 s) : Cch c0 (Machine.fenceFrame r s) := by
  unfold Machine.fenceFrame
  repeat' first
    | dsimp only
    | with_reducible assumption
    | intro _
    | with_reducible apply Cch.eachN
    | with_reducible apply Cch.emit
    | with_reducible apply Cch.modBuf
    | with_reducible refine Cch.ite ?_ ?_
    | split

theorem Cch.endChain {c0 : Tbl (Option CacheEnt)} (id : Nat) (o : Outcome) (s : State) (h : Cch c0 s) : Cch c0 (Machine.endChain id o s) := by
  unfold Machine.endChain
  repeat' first
    | dsimp only
    | with_reducible assumption
    | intro _
    | with_reducible apply Cch.beginVerify
    | with_reducible apply Cch.dropStreams
    | with_reducible apply Cch.eachN
    | with_reducible apply Cch.endStreams
    | with_reducible apply Cch.fenceFrame
    | with_reducible apply Cch.fencePort
    | with_reducible apply Cch.freeTiles
    | with_reducible apply Cch.modFp
    | with_reducible apply Cch.modReq
    | with_reducible apply Cch.modSch
    | with_reducible apply Cch.scrubAll
    | with_reducible apply Cch.unclaim
    | with_reducible refine Cch.ite ?_ ?_
    | split

theorem Cch.endDone {c0 : Tbl (Option CacheEnt)} (id : Nat) (s : State) (h : Cch c0 s) : Cch c0 (Machine.endDone id s) := by
  unfold Machine.endDone
  repeat' first
    | dsimp only
    | with_reducible assumption
    | intro _
    | with_reducible apply Cch.endChain
    | with_reducible refine Cch.ite ?_ ?_
    | split

theorem Cch.issueRange {c0 : Tbl (Option CacheEnt)} (id b a l : Nat) (s : State) (h : Cch c0 s) : Cch c0 (Machine.issueRange id b a l s) := by
  unfold Machine.issueRange
  repeat' first
    | dsimp only
    | with_reducible assumption
    | intro _
    | with_reducible apply Cch.emitRd
    | with_reducible apply Cch.modBuf
    | with_reducible apply Cch.reqViol
    | with_reducible apply Cch.idS
    | with_reducible refine Cch.ite ?_ ?_
    | split

theorem Cch.askElem {c0 : Tbl (Option CacheEnt)} (id b : Nat) (short : Fail) (s : State) (h : Cch c0 s) : Cch c0 (Machine.askElem id b short s) := by
  unfold Machine.askElem
  repeat' first
    | dsimp only
    | with_reducible assumption
    | intro _
    | with_reducible apply Cch.emitRd
    | with_reducible apply Cch.modBuf
    | with_reducible apply Cch.reqViol
    | with_reducible apply Cch.idS
    | with_reducible refine Cch.ite ?_ ?_
    | split

theorem Cch.startBuf {c0 : Tbl (Option CacheEnt)} (id b : Nat) (s : State) (h : Cch c0 s) : Cch c0 (Machine.startBuf id b s) := by
  unfold Machine.startBuf
  repeat' first
    | dsimp only
    | with_reducible assumption
    | intro _
    | with_reducible apply Cch.askElem
    | with_reducible apply Cch.emit
    | with_reducible apply Cch.issueRange
    | with_reducible apply Cch.modBuf
    | with_reducible apply Cch.modReq
    | with_reducible refine Cch.ite ?_ ?_
    | split

theorem Cch.startBufs {c0 : Tbl (Option CacheEnt)} (id : Nat) (s : State) (h : Cch c0 s) : Cch c0 (Machine.startBufs id s) := by
  unfold Machine.startBufs
  repeat' first
    | dsimp only
    | with_reducible assumption
    | intro _
    | with_reducible apply Cch.eachN
    | with_reducible apply Cch.startBuf
    | with_reducible apply Cch.idS
    | with_reducible refine Cch.ite ?_ ?_
    | split

theorem Cch.reqWrote {c0 : Tbl (Option CacheEnt)} (id b a off len : Nat) (s : State) (h : Cch c0 s) : Cch c0 (Machine.reqWrote id b a off len s) := by
  unfold Machine.reqWrote
  repeat' first
    | dsimp only
    | with_reducible assumption
    | intro _
    | with_reducible apply Cch.modReq
    | with_reducible refine Cch.ite ?_ ?_
    | split

theorem Cch.writeSegs {c0 : Tbl (Option CacheEnt)} (id b : Nat) (data : Bytes) (x : List (Nat × Nat × Nat)) (s : State) (h : Cch c0 s) : Cch c0 (Machine.writeSegs id b data x s).1 := by
  induction x generalizing s with
  | nil => exact h
  | cons a l ih =>
    try obtain ⟨_, _, _⟩ := a
    unfold Machine.writeSegs
    repeat' first
      | dsimp only
      | with_reducible assumption
      | intro _
      | with_reducible apply Cch.emitWr
      | with_reducible apply Cch.modBuf
      | with_reducible apply Cch.reqViol
      | with_reducible apply Cch.reqWrote
      | with_reducible apply Cch.idS
      | with_reducible refine Cch.ite ?_ ?_
      | split
      | rfl
      | exact hes
      | (simp_all; done)
      | with_reducible apply ih

theorem Cch.writeSegs_eq {c0 : Tbl (Option CacheEnt)} {id b : Nat} {data : Bytes} {x : List (Nat × Nat × Nat)} {s : State} {y : Option Nat} {t : State} (e : Machine.writeSegs id b data x s = (t, y)) (h : Cch c0 s) : Cch c0 t := by
  have := Cch.writeSegs id b data x s h
  rwa [e] at this

theorem Cch.writeOut {c0 : Tbl (Option CacheEnt)} (r : Req) (i n : Nat) (s : State) (h : Cch c0 s) : Cch c0 (Machine.writeOut r i n s).1 := by
  unfold Machine.writeOut
  repeat' first
    | dsimp only
    | with_reducible assumption
    | intro _
    | with_reducible apply Cch.reqViol
    | with_reducible apply Cch.writeSegs
    | with_reducible refine Cch.writeSegs_eq (by assumption) ?_
    | with_reducible refine Cch.ite ?_ ?_
    | split

theorem Cch.writeOut_eq {c0 : Tbl (Option CacheEnt)} {r : Req} {i n : Nat} {s : State} {y : Option Nat} {t : State} (e : Machine.writeOut r i n s = (t, y)) (h : Cch c0 s) : Cch c0 t := by
  have := Cch.writeOut r i n s h
  rwa [e] at this

theorem Cch.flushOp {c0 : Tbl (Option CacheEnt)} (id i : Nat) (s : State) (h : Cch c0 s) : Cch c0 (Machine.flushOp id i s).1 := by
  unfold Machine.flushOp
  repeat' first
    | dsimp only
    | with_reducible assumption
    | intro _
    | with_reducible apply Cch.askElem
    | with_reducible apply Cch.emit
    | with_reducible apply Cch.modBuf
    | with_reducible apply Cch.modOp
    | with_reducible apply Cch.modReq
    | with_reducible refine Cch.writeOut_eq (by assumption) ?_
    | with_reducible apply Cch.writeOut
    | with_reducible refine Cch.ite ?_ ?_
    | split

theorem Cch.flushOp_eq {c0 : Tbl (Option CacheEnt)} {id i : Nat} {s : State} {y : Option Fail} {t : State} (e : Machine.flushOp id i s = (t, y)) (h : Cch c0 s) : Cch c0 t := by
  have := Cch.flushOp id i s h
  rwa [e] at this

theorem Cch.receiveKey {c0 : Tbl (Option CacheEnt)} (id i : Nat) (s : State) (h : Cch c0 s) : Cch c0 (Machine.receiveKey id i s).1 := by
  unfold Machine.receiveKey
  repeat' first
    | dsimp only
    | with_reducible assumption
    | intro _
    | with_reducible apply Cch.modOp
    | with_reducible refine Cch.ite ?_ ?_
    | split

theorem Cch.receiveKey_eq {c0 : Tbl (Option CacheEnt)} {id i : Nat} {s : State} {y : Option Fail} {t : State} (e : Machine.receiveKey id i s = (t, y)) (h : Cch c0 s) : Cch c0 t := by
  have := Cch.receiveKey id i s h
  rwa [e] at this

theorem Cch.pairRecord {c0 : Tbl (Option CacheEnt)} (r : Req) (o : OpSt) (voter outcome : Nat) (s : State) (h : Cch c0 s) : Cch c0 (Machine.pairRecord r o voter outcome s) := by
  unfold Machine.pairRecord
  repeat' first
    | dsimp only
    | with_reducible assumption
    | intro _
    | with_reducible apply Cch.journal
    | with_reducible refine Cch.ite ?_ ?_
    | split

theorem Cch.settleOp {c0 : Tbl (Option CacheEnt)} (id i : Nat) (s : State) (h : Cch c0 s) : Cch c0 (Machine.settleOp id i s).1 := by
  unfold Machine.settleOp
  repeat' first
    | dsimp only
    | with_reducible assumption
    | intro _
    | with_reducible refine Cch.flushOp_eq (by assumption) ?_
    | with_reducible apply Cch.flushOp
    | with_reducible apply Cch.modOp
    | with_reducible apply Cch.pairRecord
    | with_reducible refine Cch.receiveKey_eq (by assumption) ?_
    | with_reducible apply Cch.receiveKey
    | with_reducible refine Cch.ite ?_ ?_
    | split

theorem Cch.settleOp_eq {c0 : Tbl (Option CacheEnt)} {id i : Nat} {s : State} {y : Option Fail} {t : State} (e : Machine.settleOp id i s = (t, y)) (h : Cch c0 s) : Cch c0 t := by
  have := Cch.settleOp id i s h
  rwa [e] at this

theorem Cch.settleOps {c0 : Tbl (Option CacheEnt)} (id : Nat) (x : List Nat) (s : State) (h : Cch c0 s) : Cch c0 (Machine.settleOps id x s).1 := by
  induction x generalizing s with
  | nil => exact h
  | cons a l ih =>
    unfold Machine.settleOps
    repeat' first
      | dsimp only
      | with_reducible assumption
      | intro _
      | with_reducible refine Cch.settleOp_eq (by assumption) ?_
      | with_reducible apply Cch.settleOp
      | with_reducible apply Cch.idS
      | with_reducible refine Cch.ite ?_ ?_
      | split
      | rfl
      | exact hes
      | with_reducible apply ih

theorem Cch.settleOps_eq {c0 : Tbl (Option CacheEnt)} {id : Nat} {x : List Nat} {s : State} {y : Option Outcome} {t : State} (e : Machine.settleOps id x s = (t, y)) (h : Cch c0 s) : Cch c0 t := by
  have := Cch.settleOps id x s h
  rwa [e] at this

theorem Cch.settle {c0 : Tbl (Option CacheEnt)} (id : Nat) (s : State) (h : Cch c0 s) : Cch c0 (Machine.settle id s) := by
  unfold Machine.settle
  repeat' first
    | dsimp only
    | with_reducible assumption
    | intro _
    | with_reducible apply Cch.endChain
    | with_reducible apply Cch.endDone
    | with_reducible apply Cch.settleOps
    | with_reducible refine Cch.settleOps_eq (by assumption) ?_
    | with_reducible apply Cch.startBufs
    | with_reducible refine Cch.ite ?_ ?_
    | split

theorem Cch.parkStream {c0 : Tbl (Option CacheEnt)} (r : Req) (i : Nat) (s : State) (h : Cch c0 s) : Cch c0 (Machine.parkStream r i s) := by
  unfold Machine.parkStream
  repeat' first
    | dsimp only
    | with_reducible assumption
    | intro _
    | with_reducible apply Cch.modOp
    | with_reducible apply Cch.setStream
    | with_reducible refine Cch.ite ?_ ?_
    | split

theorem Cch.runBank {c0 : Tbl (Option CacheEnt)} (t : Nat) (p : Nat × Nat) (s : State) (h : Cch c0 s) : Cch c0 (Machine.runBank t p s) := by
  unfold Machine.runBank
  repeat' first
    | dsimp only
    | with_reducible assumption
    | intro _
    | with_reducible apply Cch.eachN
    | with_reducible apply Cch.modOp
    | with_reducible apply Cch.modTile
    | with_reducible refine Cch.ite ?_ ?_
    | split

theorem Cch.wakeBank {c0 : Tbl (Option CacheEnt)} (t : Nat) (s : State) (h : Cch c0 s) : Cch c0 (Machine.wakeBank t s) := by
  unfold Machine.wakeBank
  repeat' first
    | dsimp only
    | with_reducible assumption
    | intro _
    | with_reducible apply Cch.runBank
    | with_reducible refine Cch.ite ?_ ?_
    | split

theorem Cch.releaseOp {c0 : Tbl (Option CacheEnt)} (id i : Nat) (s : State) (h : Cch c0 s) : Cch c0 (Machine.releaseOp id i s) := by
  unfold Machine.releaseOp
  repeat' first
    | dsimp only
    | with_reducible assumption
    | intro _
    | with_reducible apply Cch.eachN
    | with_reducible apply Cch.modTile
    | with_reducible apply Cch.wakeBank
    | with_reducible apply Cch.idS
    | with_reducible refine Cch.ite ?_ ?_

theorem Cch.writeTarget {c0 : Tbl (Option CacheEnt)} (x : Nat) (material : Bytes) (s : State) (h : Cch c0 s) : Cch c0 (Machine.writeTarget x material s) := by
  unfold Machine.writeTarget
  repeat' first
    | dsimp only
    | with_reducible assumption
    | intro _
    | with_reducible apply Cch.modSlot

theorem Cch.finishOp {c0 : Tbl (Option CacheEnt)} (id i : Nat) (e : OpEnd) (s : State) (h : Cch c0 s) : Cch c0 (Machine.finishOp id i e s) := by
  unfold Machine.finishOp
  repeat' first
    | dsimp only
    | with_reducible assumption
    | intro _
    | with_reducible apply Cch.modOp
    | with_reducible apply Cch.parkStream
    | with_reducible apply Cch.releaseOp
    | with_reducible apply Cch.settle
    | with_reducible apply Cch.writeTarget
    | with_reducible apply Cch.idS
    | with_reducible refine Cch.ite ?_ ?_
    | split

theorem Cch.unforward {c0 : Tbl (Option CacheEnt)} (id : Nat) (s : State) (h : Cch c0 s) : Cch c0 (Machine.unforward id s) := by
  unfold Machine.unforward
  repeat' first
    | dsimp only
    | with_reducible assumption
    | intro _
    | with_reducible apply Cch.modCrs
    | with_reducible apply Cch.modReq

theorem Cch.stopReq {c0 : Tbl (Option CacheEnt)} (id : Nat) (o : Outcome) (s : State) (h : Cch c0 s) : Cch c0 (Machine.stopReq id o s) := by
  unfold Machine.stopReq
  repeat' first
    | dsimp only
    | with_reducible assumption
    | intro _
    | with_reducible apply Cch.endChain
    | with_reducible apply Cch.sendFrame
    | with_reducible apply Cch.unforward
    | with_reducible apply Cch.idS
    | with_reducible refine Cch.ite ?_ ?_
    | split

end Sys2Proof.Machine
end

