-- ==== Sys2Proof/Laws/InFlight.lean ====
section
/-!
SUPPORT. A request stays in flight, with its tenant and its entry, through the operations that move, stop or end work.
-/

set_option Elab.async false

namespace Sys2Proof.Machine

/-- Request k is there, of the tenant and with the entry of r. -/
def Has (k : Nat) (r : Req) (s : State) : Prop := ∃ r', s.req k = some r' ∧ r'.tenant = r.tenant ∧ r'.entry = r.entry

theorem Has.modTen {k0 : Nat} {r0 : Req} (n : Nat) (f : Tenant → Tenant) (s : State) (hs : Has k0 r0 s) : Has k0 r0 (Machine.modTen n f s) := hs
theorem Has.modSq {k0 : Nat} {r0 : Req} (n m : Nat) (f : Sq → Sq) (s : State) (hs : Has k0 r0 s) : Has k0 r0 (Machine.modSq n m f s) := hs
theorem Has.modCq {k0 : Nat} {r0 : Req} (n m : Nat) (f : Cq → Cq) (s : State) (hs : Has k0 r0 s) : Has k0 r0 (Machine.modCq n m f s) := hs
theorem Has.modDc {k0 : Nat} {r0 : Req} (k : Nat) (f : Chan → Chan) (s : State) (hs : Has k0 r0 s) : Has k0 r0 (Machine.modDc k f s) := hs
theorem Has.modTile {k0 : Nat} {r0 : Req} (t : Nat) (f : Tile → Tile) (s : State) (hs : Has k0 r0 s) : Has k0 r0 (Machine.modTile t f s) := hs
theorem Has.setCs {k0 : Nat} {r0 : Req} (c : Nat) (v : CsSt) (s : State) (hs : Has k0 r0 s) : Has k0 r0 (Machine.setCs c v s) := hs
theorem Has.modKs {k0 : Nat} {r0 : Req} (f : KeyStore → KeyStore) (s : State) (hs : Has k0 r0 s) : Has k0 r0 (Machine.modKs f s) := hs
theorem Has.modSlot {k0 : Nat} {r0 : Req} (i : Nat) (f : Slot → Slot) (s : State) (hs : Has k0 r0 s) : Has k0 r0 (Machine.modSlot i f s) := hs
theorem Has.modRbg {k0 : Nat} {r0 : Req} (k : Nat) (f : Rbg → Rbg) (s : State) (hs : Has k0 r0 s) : Has k0 r0 (Machine.modRbg k f s) := hs
theorem Has.setStream {k0 : Nat} {r0 : Req} (i : Nat) (v : Option Stream) (s : State) (hs : Has k0 r0 s) : Has k0 r0 (Machine.setStream i v s) := hs
theorem Has.setCacheEnt {k0 : Nat} {r0 : Req} (h : Nat) (v : Option CacheEnt) (s : State) (hs : Has k0 r0 s) : Has k0 r0 (Machine.setCacheEnt h v s) := hs
theorem Has.modCrs {k0 : Nat} {r0 : Req} (f : Course → Course) (s : State) (hs : Has k0 r0 s) : Has k0 r0 (Machine.modCrs f s) := hs
theorem Has.modPeer {k0 : Nat} {r0 : Req} (p : Nat) (f : Peer → Peer) (s : State) (hs : Has k0 r0 s) : Has k0 r0 (Machine.modPeer p f s) := hs
theorem Has.modOwn {k0 : Nat} {r0 : Req} (f : OwnRegs → OwnRegs) (s : State) (hs : Has k0 r0 s) : Has k0 r0 (Machine.modOwn f s) := hs
theorem Has.modTcmp {k0 : Nat} {r0 : Req} (j : Nat) (f : Tcmp → Tcmp) (s : State) (hs : Has k0 r0 s) : Has k0 r0 (Machine.modTcmp j f s) := hs
theorem Has.modGen {k0 : Nat} {r0 : Req} (f : Gen → Gen) (s : State) (hs : Has k0 r0 s) : Has k0 r0 (Machine.modGen f s) := hs
theorem Has.modJrn {k0 : Nat} {r0 : Req} (f : Journal → Journal) (s : State) (hs : Has k0 r0 s) : Has k0 r0 (Machine.modJrn f s) := hs
theorem Has.modTime {k0 : Nat} {r0 : Req} (f : TimeUnit → TimeUnit) (s : State) (hs : Has k0 r0 s) : Has k0 r0 (Machine.modTime f s) := hs
theorem Has.modClk {k0 : Nat} {r0 : Req} (f : Clocks → Clocks) (s : State) (hs : Has k0 r0 s) : Has k0 r0 (Machine.modClk f s) := hs
theorem Has.modStart {k0 : Nat} {r0 : Req} (f : Start → Start) (s : State) (hs : Has k0 r0 s) : Has k0 r0 (Machine.modStart f s) := hs
theorem Has.modOwner {k0 : Nat} {r0 : Req} (f : Owner → Owner) (s : State) (hs : Has k0 r0 s) : Has k0 r0 (Machine.modOwner f s) := hs
theorem Has.modMeas {k0 : Nat} {r0 : Req} (f : Meas → Meas) (s : State) (hs : Has k0 r0 s) : Has k0 r0 (Machine.modMeas f s) := hs
theorem Has.modEs {k0 : Nat} {r0 : Req} (f : Entropy → Entropy) (s : State) (hs : Has k0 r0 s) : Has k0 r0 (Machine.modEs f s) := hs
theorem Has.modBoot {k0 : Nat} {r0 : Req} (f : Boot → Boot) (s : State) (hs : Has k0 r0 s) : Has k0 r0 (Machine.modBoot f s) := hs
theorem Has.modFp {k0 : Nat} {r0 : Req} (f : FramePort → FramePort) (s : State) (hs : Has k0 r0 s) : Has k0 r0 (Machine.modFp f s) := hs
theorem Has.modSup {k0 : Nat} {r0 : Req} (f : Supply → Supply) (s : State) (hs : Has k0 r0 s) : Has k0 r0 (Machine.modSup f s) := hs
theorem Has.modSch {k0 : Nat} {r0 : Req} (f : Sched → Sched) (s : State) (hs : Has k0 r0 s) : Has k0 r0 (Machine.modSch f s) := hs
theorem Has.modReq {k0 : Nat} {r0 : Req} {s : State} (id : Nat) (f : Req → Req) (h : Has k0 r0 s)
    (hf : ∀ r, (f r).id = r.id ∧ (f r).tenant = r.tenant ∧ (f r).entry = r.entry := by intro r; exact ⟨rfl, rfl, rfl⟩) : Has k0 r0 (Machine.modReq id f s) := by
  obtain ⟨r, h1, h2, h3⟩ := h
  refine ⟨if r.id = id then f r else r, ?_, ?_, ?_⟩
  · rw [modReq_req _ _ _ _ (fun r => (hf r).1), h1]; rfl
  · split
    · exact (hf r).2.1.trans h2
    · exact h2
  · split
    · exact (hf r).2.2.trans h3
    · exact h3

theorem Has.emit {k0 : Nat} {r0 : Req} (o : Out) (s : State) (hs : Has k0 r0 s) : Has k0 r0 (Machine.emit o s) := hs
theorem Has.nextFree {k0 : Nat} {r0 : Req} (s : State) (hs : Has k0 r0 s) : Has k0 r0 (Machine.nextFree s) := hs
theorem Has.modRoots {k0 : Nat} {r0 : Req} (f : Roots → Roots) (s : State) (hs : Has k0 r0 s) : Has k0 r0 (Machine.modRoots f s) := hs
theorem Has.modIdent {k0 : Nat} {r0 : Req} (f : Ident → Ident) (s : State) (hs : Has k0 r0 s) : Has k0 r0 (Machine.modIdent f s) := hs
theorem Has.modRet {k0 : Nat} {r0 : Req} (f : Retention → Retention) (s : State) (hs : Has k0 r0 s) : Has k0 r0 (Machine.modRet f s) := hs
theorem Has.modDenied {k0 : Nat} {r0 : Req} (f : Cnt32 → Cnt32) (s : State) (hs : Has k0 r0 s) : Has k0 r0 (Machine.modDenied f s) := hs
theorem Has.modEvPend {k0 : Nat} {r0 : Req} (f : Word → Word) (s : State) (hs : Has k0 r0 s) : Has k0 r0 (Machine.modEvPend f s) := hs
theorem Has.modBuserr {k0 : Nat} {r0 : Req} (f : Capture → Capture) (s : State) (hs : Has k0 r0 s) : Has k0 r0 (Machine.modBuserr f s) := hs
theorem Has.modBecnt {k0 : Nat} {r0 : Req} (f : Cnt32 → Cnt32) (s : State) (hs : Has k0 r0 s) : Has k0 r0 (Machine.modBecnt f s) := hs
theorem Has.modPviol {k0 : Nat} {r0 : Req} (f : Capture → Capture) (s : State) (hs : Has k0 r0 s) : Has k0 r0 (Machine.modPviol f s) := hs
theorem Has.modPvcnt {k0 : Nat} {r0 : Req} (f : Cnt32 → Cnt32) (s : State) (hs : Has k0 r0 s) : Has k0 r0 (Machine.modPvcnt f s) := hs
theorem Has.modSent {k0 : Nat} {r0 : Req} (f : List Req → List Req) (s : State) (hs : Has k0 r0 s) : Has k0 r0 (Machine.modSent f s) := hs

theorem Has.modHeld {k0 : Nat} {r0 : Req} (f : List HeldWrite → List HeldWrite) (s : State) (hs : Has k0 r0 s) : Has k0 r0 (Machine.modHeld f s) := hs
theorem Has.modLatch {k0 : Nat} {r0 : Req} (f : List Latch → List Latch) (s : State) (hs : Has k0 r0 s) : Has k0 r0 (Machine.modLatch f s) := hs
theorem Has.modCe {k0 : Nat} {r0 : Req} (c : Nat) (f : Cnt32 → Cnt32) (s : State) (hs : Has k0 r0 s) : Has k0 r0 (Machine.modCe c f s) := hs
theorem Has.modNotice {k0 : Nat} {r0 : Req} (f : Word → Word) (s : State) (hs : Has k0 r0 s) : Has k0 r0 (Machine.modNotice f s) := hs
theorem Has.setAct {k0 : Nat} {r0 : Req} (c : Content) (s : State) (hs : Has k0 r0 s) : Has k0 r0 (Machine.setAct c s) := hs

theorem Has.foldl {k0 : Nat} {r0 : Req} {s : State} {α : Type} {f : State → α → State} (l : List α) (h : Has k0 r0 s) (hf : ∀ s a, Has k0 r0 s → Has k0 r0 (f s a)) :
    Has k0 r0 (l.foldl f s) := by
  induction l generalizing s with
  | nil => exact h
  | cons a t ih => exact ih (hf s a h)
theorem Has.eachN {k0 : Nat} {r0 : Req} {s : State} {f : Nat → State → State} (l : List Nat) (h : Has k0 r0 s) (hf : ∀ i s, Has k0 r0 s → Has k0 r0 (f i s)) : Has k0 r0 (Machine.eachN l f s) :=
  Has.foldl l h (fun s i hs => hf i s hs)
theorem Has.ite {k0 : Nat} {r0 : Req} {c : Prop} [Decidable c] {a b : State} (ha : c → Has k0 r0 a) (hb : ¬c → Has k0 r0 b) : Has k0 r0 (if c then a else b) := by
  by_cases h : c
  · rw [if_pos h]; exact ha h
  · rw [if_neg h]; exact hb h
theorem Has.idS {k0 : Nat} {r0 : Req} {s : State} (h : Has k0 r0 s) : Has k0 r0 (id s) := h
theorem Has.whenS {k0 : Nat} {r0 : Req} {b : Bool} {f : State → State} {s : State} (h : Has k0 r0 s) (hf : b = true → ∀ s, Has k0 r0 s → Has k0 r0 (f s)) : Has k0 r0 (Machine.whenS b f s) := by
  unfold Machine.whenS
  split
  · next e => exact hf e s h
  · exact h
theorem Has.withReq {k0 : Nat} {r0 : Req} {id : Nat} {f : Req → State → State} {s : State} (h : Has k0 r0 s) (hf : ∀ r s, Has k0 r0 s → Has k0 r0 (f r s)) : Has k0 r0 (Machine.withReq id f s) := by
  unfold Machine.withReq
  split
  · exact hf _ s h
  · exact h

theorem Has.emitWr {k0 : Nat} {r0 : Req} (addr : Nat) (data : Bytes) (s : State) (h : Has k0 r0 s) : Has k0 r0 (Machine.emitWr addr data s) := by
  unfold Machine.emitWr
  repeat' first
    | dsimp only
    | with_reducible assumption
    | intro _
    | with_reducible apply Has.emit
    | with_reducible apply Has.foldl

theorem Has.emitRd {k0 : Nat} {r0 : Req} (addr len : Nat) (s : State) (h : Has k0 r0 s) : Has k0 r0 (Machine.emitRd addr len s) := by
  unfold Machine.emitRd
  repeat' first
    | dsimp only
    | with_reducible assumption
    | intro _
    | with_reducible apply Has.emit
    | with_reducible apply Has.foldl

theorem Has.emitRecord {k0 : Nat} {r0 : Req} (addr : Nat) (b : Bytes) (s : State) (h : Has k0 r0 s) : Has k0 r0 (Machine.emitRecord addr b s) := by
  unfold Machine.emitRecord
  repeat' first
    | dsimp only
    | with_reducible assumption
    | intro _
    | with_reducible apply Has.emitWr

theorem Has.raiseT {k0 : Nat} {r0 : Req} (n e : Nat) (s : State) (h : Has k0 r0 s) : Has k0 r0 (Machine.raiseT n e s) := by
  unfold Machine.raiseT
  repeat' first
    | dsimp only
    | with_reducible assumption
    | intro _
    | with_reducible apply Has.modTen

theorem Has.raiseG {k0 : Nat} {r0 : Req} (e : Nat) (s : State) (h : Has k0 r0 s) : Has k0 r0 (Machine.raiseG e s) := by
  unfold Machine.raiseG
  repeat' first
    | dsimp only
    | with_reducible assumption
    | intro _
    | with_reducible apply Has.modEvPend

theorem Has.violT {k0 : Nat} {r0 : Req} (n : Nat) (addr : Nat) (d : Dir) (cause kind number tag gen : Nat) (s : State) (h : Has k0 r0 s) : Has k0 r0 (Machine.violT n addr d cause kind number tag gen s) := by
  unfold Machine.violT
  repeat' first
    | dsimp only
    | with_reducible assumption
    | intro _
    | with_reducible apply Has.modTen
    | with_reducible apply Has.raiseT
    | with_reducible refine Has.ite ?_ ?_

theorem Has.violP {k0 : Nat} {r0 : Req} (addr : Nat) (d : Dir) (cause kind number tag gen : Nat) (s : State) (h : Has k0 r0 s) : Has k0 r0 (Machine.violP addr d cause kind number tag gen s) := by
  unfold Machine.violP
  repeat' first
    | dsimp only
    | with_reducible assumption
    | intro _
    | with_reducible apply Has.modPvcnt
    | with_reducible apply Has.modPviol
    | with_reducible apply Has.raiseG
    | with_reducible refine Has.ite ?_ ?_

theorem Has.viol {k0 : Nat} {r0 : Req} (t : Option TenantIx) (addr : Nat) (d : Dir) (cause kind number tag gen : Nat) (s : State) (h : Has k0 r0 s) : Has k0 r0 (Machine.viol t addr d cause kind number tag gen s) := by
  unfold Machine.viol
  repeat' first
    | dsimp only
    | with_reducible assumption
    | intro _
    | with_reducible apply Has.violP
    | with_reducible apply Has.violT
    | with_reducible refine Has.ite ?_ ?_
    | split

theorem Has.jrnLose {k0 : Nat} {r0 : Req} (s : State) (h : Has k0 r0 s) : Has k0 r0 (Machine.jrnLose s) := by
  unfold Machine.jrnLose
  repeat' first
    | dsimp only
    | with_reducible assumption
    | intro _
    | with_reducible apply Has.modJrn
    | with_reducible apply Has.raiseG

theorem Has.jrnNlose {k0 : Nat} {r0 : Req} (s : State) (h : Has k0 r0 s) : Has k0 r0 (Machine.jrnNlose s) := by
  unfold Machine.jrnNlose
  repeat' first
    | dsimp only
    | with_reducible assumption
    | intro _
    | with_reducible apply Has.modJrn

theorem Has.jrnPush {k0 : Nat} {r0 : Req} (rec : List (BitVec 32)) (s : State) (h : Has k0 r0 s) : Has k0 r0 (Machine.jrnPush rec s) := by
  unfold Machine.jrnPush
  repeat' first
    | dsimp only
    | with_reducible assumption
    | intro _
    | with_reducible apply Has.modJrn
    | with_reducible apply Has.raiseG
    | with_reducible refine Has.ite ?_ ?_

theorem Has.jrnMakeRoom {k0 : Nat} {r0 : Req} (need : Nat) (x : Nat) (s : State) (h : Has k0 r0 s) : Has k0 r0 (Machine.jrnMakeRoom need x s) := by
  induction x generalizing s with
  | zero => exact h
  | succ n ih =>
    unfold Machine.jrnMakeRoom
    repeat' first
      | dsimp only
      | with_reducible assumption
      | intro _
      | with_reducible apply Has.jrnLose
      | with_reducible apply Has.modJrn
      | with_reducible refine Has.ite ?_ ?_
      | split
      | rfl
      | exact hes
      | (simp_all; done)
      | with_reducible apply ih

theorem Has.noticeFault {k0 : Nat} {r0 : Req} (s : State) (h : Has k0 r0 s) : Has k0 r0 (Machine.noticeFault s) := by
  unfold Machine.noticeFault
  repeat' first
    | dsimp only
    | with_reducible assumption
    | intro _
    | with_reducible apply Has.modNotice
    | with_reducible apply Has.raiseG

theorem Has.notice {k0 : Nat} {r0 : Req} (rec : List (BitVec 32)) (s : State) (h : Has k0 r0 s) : Has k0 r0 (Machine.notice rec s) := by
  unfold Machine.notice
  repeat' first
    | dsimp only
    | with_reducible assumption
    | intro _
    | with_reducible apply Has.emitRecord
    | with_reducible apply Has.jrnNlose
    | with_reducible apply Has.modJrn
    | with_reducible apply Has.noticeFault
    | with_reducible apply Has.violP
    | with_reducible refine Has.ite ?_ ?_
    | split

theorem Has.jrnOpen {k0 : Nat} {r0 : Req} (bad : Bool) (s : State) (h : Has k0 r0 s) : Has k0 r0 (Machine.jrnOpen bad s) := by
  unfold Machine.jrnOpen
  repeat' first
    | dsimp only
    | with_reducible assumption
    | intro _
    | with_reducible apply Has.modJrn
    | with_reducible refine Has.ite ?_ ?_
    | split

theorem Has.jrnDeliver {k0 : Nat} {r0 : Req} (who : Who) (size : AccSize) (bad : Bool) (s : State) (h : Has k0 r0 s) : Has k0 r0 (Machine.jrnDeliver who size bad s) := by
  unfold Machine.jrnDeliver
  repeat' first
    | dsimp only
    | with_reducible assumption
    | intro _
    | with_reducible apply Has.emit
    | with_reducible apply Has.jrnOpen
    | with_reducible apply Has.modJrn
    | with_reducible refine Has.ite ?_ ?_
    | split

theorem Has.jrnServe {k0 : Nat} {r0 : Req}  (x : List (Who × AccSize)) (s : State) (h : Has k0 r0 s) : Has k0 r0 (Machine.jrnServe x s) := by
  induction x generalizing s with
  | nil => exact h
  | cons a l ih =>
    try obtain ⟨_, _⟩ := a
    unfold Machine.jrnServe
    repeat' first
      | dsimp only
      | with_reducible assumption
      | intro _
      | with_reducible apply Has.jrnDeliver
      | with_reducible apply Has.modJrn
      | with_reducible refine Has.ite ?_ ?_
      | split
      | rfl
      | exact hes
      | with_reducible apply ih

theorem Has.jrnStore {k0 : Nat} {r0 : Req} (rec : List (BitVec 32)) (s : State) (h : Has k0 r0 s) : Has k0 r0 (Machine.jrnStore rec s) := by
  unfold Machine.jrnStore
  repeat' first
    | dsimp only
    | with_reducible assumption
    | intro _
    | with_reducible apply Has.jrnPush
    | with_reducible apply Has.jrnServe
    | with_reducible apply Has.notice

theorem Has.journal {k0 : Nat} {r0 : Req} (type origin : Nat) (payload : List Nat) (s : State) (h : Has k0 r0 s) : Has k0 r0 (Machine.journal type origin payload s) := by
  unfold Machine.journal
  repeat' first
    | dsimp only
    | with_reducible assumption
    | intro _
    | with_reducible apply Has.jrnLose
    | with_reducible apply Has.jrnMakeRoom
    | with_reducible apply Has.jrnStore
    | with_reducible apply Has.modJrn
    | with_reducible refine Has.ite ?_ ?_

theorem Has.countCe {k0 : Nat} {r0 : Req} (c : Nat) (s : State) (h : Has k0 r0 s) : Has k0 r0 (Machine.countCe c s) := by
  unfold Machine.countCe
  repeat' first
    | dsimp only
    | with_reducible assumption
    | intro _
    | with_reducible apply Has.modCe
    | with_reducible apply Has.raiseG
    | with_reducible refine Has.ite ?_ ?_

theorem Has.journalUe {k0 : Nat} {r0 : Req} (c loc : Nat) (s : State) (h : Has k0 r0 s) : Has k0 r0 (Machine.journalUe c loc s) := by
  unfold Machine.journalUe
  repeat' first
    | dsimp only
    | with_reducible assumption
    | intro _
    | with_reducible apply Has.journal

theorem Has.sendFrame {k0 : Nat} {r0 : Req} (type dst : Nat) (payload : Bytes) (s : State) (h : Has k0 r0 s) : Has k0 r0 (Machine.sendFrame type dst payload s) := by
  unfold Machine.sendFrame
  repeat' first
    | dsimp only
    | with_reducible assumption
    | intro _
    | with_reducible apply Has.emit
    | with_reducible apply Has.modCrs

theorem Has.modOp {k0 : Nat} {r0 : Req} (id i : Nat) (f : OpSt → OpSt) (s : State) (h : Has k0 r0 s) : Has k0 r0 (Machine.modOp id i f s) := by
  unfold Machine.modOp
  repeat' first
    | dsimp only
    | with_reducible assumption
    | intro _
    | with_reducible refine Has.modReq _ _ ?_ ?_
    | with_reducible apply Has.idS
    | with_reducible refine Has.ite ?_ ?_
    | split
    | rfl
    | exact hes
    | (rename_i hh; obtain ⟨ha, hb⟩ := hh; refine ⟨?_, ?_⟩ <;> first | linear_combination ha | linear_combination hb)
    | (simp_all; done)

theorem Has.modBuf {k0 : Nat} {r0 : Req} (id b : Nat) (f : BufSt → BufSt) (s : State) (h : Has k0 r0 s) : Has k0 r0 (Machine.modBuf id b f s) := by
  unfold Machine.modBuf
  repeat' first
    | dsimp only
    | with_reducible assumption
    | intro _
    | with_reducible refine Has.modReq _ _ ?_ ?_
    | with_reducible apply Has.idS
    | with_reducible refine Has.ite ?_ ?_
    | split
    | rfl
    | exact hes
    | (rename_i hh; obtain ⟨ha, hb⟩ := hh; refine ⟨?_, ?_⟩ <;> first | linear_combination ha | linear_combination hb)
    | (simp_all; done)

theorem Has.reqViol {k0 : Nat} {r0 : Req} (r : Req) (addr : Nat) (d : Dir) (cause : Nat) (s : State) (h : Has k0 r0 s) : Has k0 r0 (Machine.reqViol r addr d cause s) := by
  unfold Machine.reqViol
  repeat' first
    | dsimp only
    | with_reducible assumption
    | intro _
    | with_reducible apply Has.viol

theorem Has.freeTiles {k0 : Nat} {r0 : Req} (id : Nat) (s : State) (h : Has k0 r0 s) : Has k0 r0 (Machine.freeTiles id s) := by
  unfold Machine.freeTiles
  repeat' first
    | dsimp only
    | with_reducible assumption
    | intro _
    | with_reducible apply Has.eachN
    | with_reducible apply Has.modTile

theorem Has.dropWork {k0 : Nat} {r0 : Req} (aim : Purpose) (s : State) (h : Has k0 r0 s) : Has k0 r0 (Machine.dropWork aim s) := by
  unfold Machine.dropWork
  repeat' first
    | dsimp only
    | with_reducible assumption
    | intro _
    | with_reducible apply Has.foldl
    | with_reducible apply Has.freeTiles
    | with_reducible apply Has.modSch
    | with_reducible refine Has.ite ?_ ?_
    | split

theorem Has.unclaim {k0 : Nat} {r0 : Req} (x : Nat) (s : State) (h : Has k0 r0 s) : Has k0 r0 (Machine.unclaim x s) := by
  unfold Machine.unclaim
  repeat' first
    | dsimp only
    | with_reducible assumption
    | intro _
    | with_reducible apply Has.dropWork
    | with_reducible apply Has.modKs
    | with_reducible apply Has.modSlot
    | with_reducible refine Has.ite ?_ ?_
    | split

theorem Has.closeStream {k0 : Nat} {r0 : Req} (ix : Nat) (s : State) (h : Has k0 r0 s) : Has k0 r0 (Machine.closeStream ix s) := by
  unfold Machine.closeStream
  repeat' first
    | dsimp only
    | with_reducible assumption
    | intro _
    | with_reducible apply Has.setStream
    | with_reducible refine Has.ite ?_ ?_
    | split

theorem Has.issueJob {k0 : Nat} {r0 : Req} (kind : Nat) (work : JobWork) (s : State) (h : Has k0 r0 s) : Has k0 r0 (Machine.issueJob kind work s) := by
  unfold Machine.issueJob
  repeat' first
    | dsimp only
    | with_reducible assumption
    | intro _
    | with_reducible apply Has.modSch
    | with_reducible refine Has.ite ?_ ?_
    | split

theorem Has.prepareBank {k0 : Nat} {r0 : Req} (x : Nat) (s : State) (h : Has k0 r0 s) : Has k0 r0 (Machine.prepareBank x s) := by
  unfold Machine.prepareBank
  repeat' first
    | dsimp only
    | with_reducible assumption
    | intro _
    | with_reducible apply Has.issueJob
    | with_reducible refine Has.ite ?_ ?_
    | split

theorem Has.beginVerify {k0 : Nat} {r0 : Req} (x : Nat) (s : State) (h : Has k0 r0 s) : Has k0 r0 (Machine.beginVerify x s) := by
  unfold Machine.beginVerify
  repeat' first
    | dsimp only
    | with_reducible assumption
    | intro _
    | with_reducible apply Has.modKs
    | with_reducible apply Has.modSlot
    | with_reducible apply Has.prepareBank
    | with_reducible refine Has.ite ?_ ?_
    | split

theorem Has.endStreams {k0 : Nat} {r0 : Req} (r : Req) (o : Outcome) (s : State) (h : Has k0 r0 s) : Has k0 r0 (Machine.endStreams r o s) := by
  unfold Machine.endStreams
  repeat' first
    | dsimp only
    | with_reducible assumption
    | intro _
    | with_reducible apply Has.closeStream
    | with_reducible apply Has.eachN
    | with_reducible apply Has.setStream
    | with_reducible refine Has.ite ?_ ?_
    | split

theorem Has.dropStreams {k0 : Nat} {r0 : Req} (r : Req) (o : Outcome) (s : State) (h : Has k0 r0 s) : Has k0 r0 (Machine.dropStreams r o s) := by
  unfold Machine.dropStreams
  repeat' first
    | dsimp only
    | with_reducible assumption
    | intro _
    | with_reducible apply Has.closeStream
    | with_reducible apply Has.foldl
    | with_reducible refine Has.ite ?_ ?_
    | split

theorem Has.scrubSeg {k0 : Nat} {r0 : Req} (r : Req) (a len : Nat) (s : State) (h : Has k0 r0 s) : Has k0 r0 (Machine.scrubSeg r a len s) := by
  unfold Machine.scrubSeg
  repeat' first
    | dsimp only
    | with_reducible assumption
    | intro _
    | with_reducible apply Has.emitWr
    | with_reducible refine Has.modReq _ _ ?_ ?_
    | with_reducible apply Has.reqViol
    | with_reducible refine Has.ite ?_ ?_
    | split
    | exact ⟨rfl, rfl, rfl⟩

theorem Has.scrubAll {k0 : Nat} {r0 : Req} (r : Req) (s : State) (h : Has k0 r0 s) : Has k0 r0 (Machine.scrubAll r s) := by
  unfold Machine.scrubAll
  repeat' first
    | dsimp only
    | with_reducible assumption
    | intro _
    | with_reducible apply Has.eachN
    | with_reducible apply Has.emit
    | with_reducible apply Has.foldl
    | with_reducible apply Has.scrubSeg
    | with_reducible refine Has.ite ?_ ?_
    | split

theorem Has.fencePort {k0 : Nat} {r0 : Req} (id : Nat) (port : Bool) (s : State) (h : Has k0 r0 s) : Has k0 r0 (Machine.fencePort id port s) := by
  unfold Machine.fencePort
  repeat' first
    | dsimp only
    | with_reducible assumption
    | intro _
    | with_reducible apply Has.emitRd
    | with_reducible refine Has.modReq _ _ ?_ ?_
    | with_reducible apply Has.reqViol
    | with_reducible apply Has.idS
    | with_reducible refine Has.ite ?_ ?_
    | split
    | rfl
    | exact hes
    | (rename_i hh; obtain ⟨ha, hb⟩ := hh; refine ⟨?_, ?_⟩ <;> first | linear_combination ha | linear_combination hb)
    | (simp_all; done)

theorem Has.fenceFrame {k0 : Nat} {r0 : Req} (r : Req) (s : State) (h : Has k0 r0 s) : Has k0 r0 (Machine.fenceFrame r s) := by
  unfold Machine.fenceFrame
  repeat' first
    | dsimp only
    | with_reducible assumption
    | intro _
    | with_reducible apply Has.eachN
    | with_reducible apply Has.emit
    | with_reducible apply Has.modBuf
    | with_reducible refine Has.ite ?_ ?_
    | split

theorem Has.endChain {k0 : Nat} {r0 : Req} (id : Nat) (o : Outcome) (s : State) (h : Has k0 r0 s) : Has k0 r0 (Machine.endChain id o s) := by
  unfold Machine.endChain
  repeat' first
    | dsimp only
    | with_reducible assumption
    | intro _
    | with_reducible apply Has.beginVerify
    | with_reducible apply Has.dropStreams
    | with_reducible apply Has.eachN
    | with_reducible apply Has.endStreams
    | with_reducible apply Has.fenceFrame
    | with_reducible apply Has.fencePort
    | with_reducible apply Has.freeTiles
    | with_reducible apply Has.modFp
    | with_reducible refine Has.modReq _ _ ?_ ?_
    | with_reducible apply Has.modSch
    | with_reducible apply Has.scrubAll
    | with_reducible apply Has.unclaim
    | with_reducible refine Has.ite ?_ ?_
    | split
    | rfl
    | exact hes
    | (rename_i hh; obtain ⟨ha, hb⟩ := hh; refine ⟨?_, ?_⟩ <;> first | linear_combination ha | linear_combination hb)
    | (simp_all; done)

theorem Has.endDone {k0 : Nat} {r0 : Req} (id : Nat) (s : State) (h : Has k0 r0 s) : Has k0 r0 (Machine.endDone id s) := by
  unfold Machine.endDone
  repeat' first
    | dsimp only
    | with_reducible assumption
    | intro _
    | with_reducible apply Has.endChain
    | with_reducible refine Has.ite ?_ ?_
    | split

theorem Has.issueRange {k0 : Nat} {r0 : Req} (id b a l : Nat) (s : State) (h : Has k0 r0 s) : Has k0 r0 (Machine.issueRange id b a l s) := by
  unfold Machine.issueRange
  repeat' first
    | dsimp only
    | with_reducible assumption
    | intro _
    | with_reducible apply Has.emitRd
    | with_reducible apply Has.modBuf
    | with_reducible apply Has.reqViol
    | with_reducible apply Has.idS
    | with_reducible refine Has.ite ?_ ?_
    | split

theorem Has.askElem {k0 : Nat} {r0 : Req} (id b : Nat) (short : Fail) (s : State) (h : Has k0 r0 s) : Has k0 r0 (Machine.askElem id b short s) := by
  unfold Machine.askElem
  repeat' first
    | dsimp only
    | with_reducible assumption
    | intro _
    | with_reducible apply Has.emitRd
    | with_reducible apply Has.modBuf
    | with_reducible apply Has.reqViol
    | with_reducible apply Has.idS
    | with_reducible refine Has.ite ?_ ?_
    | split

theorem Has.startBuf {k0 : Nat} {r0 : Req} (id b : Nat) (s : State) (h : Has k0 r0 s) : Has k0 r0 (Machine.startBuf id b s) := by
  unfold Machine.startBuf
  repeat' first
    | dsimp only
    | with_reducible assumption
    | intro _
    | with_reducible apply Has.askElem
    | with_reducible apply Has.emit
    | with_reducible apply Has.issueRange
    | with_reducible apply Has.modBuf
    | with_reducible refine Has.modReq _ _ ?_ ?_
    | with_reducible refine Has.ite ?_ ?_
    | split
    | rfl
    | exact hes
    | (rename_i hh; obtain ⟨ha, hb⟩ := hh; refine ⟨?_, ?_⟩ <;> first | linear_combination ha | linear_combination hb)
    | (simp_all; done)

theorem Has.startBufs {k0 : Nat} {r0 : Req} (id : Nat) (s : State) (h : Has k0 r0 s) : Has k0 r0 (Machine.startBufs id s) := by
  unfold Machine.startBufs
  repeat' first
    | dsimp only
    | with_reducible assumption
    | intro _
    | with_reducible apply Has.eachN
    | with_reducible apply Has.startBuf
    | with_reducible apply Has.idS
    | with_reducible refine Has.ite ?_ ?_
    | split

theorem Has.reqWrote {k0 : Nat} {r0 : Req} (id b a off len : Nat) (s : State) (h : Has k0 r0 s) : Has k0 r0 (Machine.reqWrote id b a off len s) := by
  unfold Machine.reqWrote
  repeat' first
    | dsimp only
    | with_reducible assumption
    | intro _
    | with_reducible refine Has.modReq _ _ ?_ ?_
    | with_reducible refine Has.ite ?_ ?_
    | split
    | rfl
    | exact hes
    | (rename_i hh; obtain ⟨ha, hb⟩ := hh; refine ⟨?_, ?_⟩ <;> first | linear_combination ha | linear_combination hb)
    | (simp_all; done)
    | exact ⟨rfl, rfl, rfl⟩

theorem Has.writeSegs {k0 : Nat} {r0 : Req} (id b : Nat) (data : Bytes) (x : List (Nat × Nat × Nat)) (s : State) (h : Has k0 r0 s) : Has k0 r0 (Machine.writeSegs id b data x s).1 := by
  induction x generalizing s with
  | nil => exact h
  | cons a l ih =>
    try obtain ⟨_, _, _⟩ := a
    unfold Machine.writeSegs
    repeat' first
      | dsimp only
      | with_reducible assumption
      | intro _
      | with_reducible apply Has.emitWr
      | with_reducible apply Has.modBuf
      | with_reducible apply Has.reqViol
      | with_reducible apply Has.reqWrote
      | with_reducible apply Has.idS
      | with_reducible refine Has.ite ?_ ?_
      | split
      | rfl
      | exact hes
      | (rename_i hh; obtain ⟨ha, hb⟩ := hh; refine ⟨?_, ?_⟩ <;> first | linear_combination ha | linear_combination hb)
      | (simp_all; done)
      | with_reducible apply ih

theorem Has.writeSegs_eq {k0 : Nat} {r0 : Req} {id b : Nat} {data : Bytes} {x : List (Nat × Nat × Nat)} {s : State} {y : Option Nat} {t : State} (e : Machine.writeSegs id b data x s = (t, y)) (h : Has k0 r0 s) : Has k0 r0 t := by
  have := Has.writeSegs id b data x s h
  rwa [e] at this

theorem Has.writeOut {k0 : Nat} {r0 : Req} (r : Req) (i n : Nat) (s : State) (h : Has k0 r0 s) : Has k0 r0 (Machine.writeOut r i n s).1 := by
  unfold Machine.writeOut
  repeat' first
    | dsimp only
    | with_reducible assumption
    | intro _
    | with_reducible apply Has.reqViol
    | with_reducible apply Has.writeSegs
    | with_reducible refine Has.writeSegs_eq (by assumption) ?_
    | with_reducible refine Has.ite ?_ ?_
    | split

theorem Has.writeOut_eq {k0 : Nat} {r0 : Req} {r : Req} {i n : Nat} {s : State} {y : Option Nat} {t : State} (e : Machine.writeOut r i n s = (t, y)) (h : Has k0 r0 s) : Has k0 r0 t := by
  have := Has.writeOut r i n s h
  rwa [e] at this

theorem Has.flushOp {k0 : Nat} {r0 : Req} (id i : Nat) (s : State) (h : Has k0 r0 s) : Has k0 r0 (Machine.flushOp id i s).1 := by
  unfold Machine.flushOp
  repeat' first
    | dsimp only
    | with_reducible assumption
    | intro _
    | with_reducible apply Has.askElem
    | with_reducible apply Has.emit
    | with_reducible apply Has.modBuf
    | with_reducible apply Has.modOp
    | with_reducible refine Has.modReq _ _ ?_ ?_
    | with_reducible refine Has.writeOut_eq (by assumption) ?_
    | with_reducible apply Has.writeOut
    | with_reducible refine Has.ite ?_ ?_
    | split
    | rfl
    | exact hes
    | (rename_i hh; obtain ⟨ha, hb⟩ := hh; refine ⟨?_, ?_⟩ <;> first | linear_combination ha | linear_combination hb)
    | (simp_all; done)

theorem Has.flushOp_eq {k0 : Nat} {r0 : Req} {id i : Nat} {s : State} {y : Option Fail} {t : State} (e : Machine.flushOp id i s = (t, y)) (h : Has k0 r0 s) : Has k0 r0 t := by
  have := Has.flushOp id i s h
  rwa [e] at this

theorem Has.receiveKey {k0 : Nat} {r0 : Req} (id i : Nat) (s : State) (h : Has k0 r0 s) : Has k0 r0 (Machine.receiveKey id i s).1 := by
  unfold Machine.receiveKey
  repeat' first
    | dsimp only
    | with_reducible assumption
    | intro _
    | with_reducible apply Has.modOp
    | with_reducible refine Has.ite ?_ ?_
    | split

theorem Has.receiveKey_eq {k0 : Nat} {r0 : Req} {id i : Nat} {s : State} {y : Option Fail} {t : State} (e : Machine.receiveKey id i s = (t, y)) (h : Has k0 r0 s) : Has k0 r0 t := by
  have := Has.receiveKey id i s h
  rwa [e] at this

theorem Has.pairRecord {k0 : Nat} {r0 : Req} (r : Req) (o : OpSt) (voter outcome : Nat) (s : State) (h : Has k0 r0 s) : Has k0 r0 (Machine.pairRecord r o voter outcome s) := by
  unfold Machine.pairRecord
  repeat' first
    | dsimp only
    | with_reducible assumption
    | intro _
    | with_reducible apply Has.journal

theorem Has.settleOp {k0 : Nat} {r0 : Req} (id i : Nat) (s : State) (h : Has k0 r0 s) : Has k0 r0 (Machine.settleOp id i s).1 := by
  unfold Machine.settleOp
  repeat' first
    | dsimp only
    | with_reducible assumption
    | intro _
    | with_reducible refine Has.flushOp_eq (by assumption) ?_
    | with_reducible apply Has.flushOp
    | with_reducible apply Has.modOp
    | with_reducible apply Has.pairRecord
    | with_reducible refine Has.receiveKey_eq (by assumption) ?_
    | with_reducible apply Has.receiveKey
    | with_reducible refine Has.ite ?_ ?_
    | split

theorem Has.settleOp_eq {k0 : Nat} {r0 : Req} {id i : Nat} {s : State} {y : Option Fail} {t : State} (e : Machine.settleOp id i s = (t, y)) (h : Has k0 r0 s) : Has k0 r0 t := by
  have := Has.settleOp id i s h
  rwa [e] at this

theorem Has.settleOps {k0 : Nat} {r0 : Req} (id : Nat) (x : List Nat) (s : State) (h : Has k0 r0 s) : Has k0 r0 (Machine.settleOps id x s).1 := by
  induction x generalizing s with
  | nil => exact h
  | cons a l ih =>
    unfold Machine.settleOps
    repeat' first
      | dsimp only
      | with_reducible assumption
      | intro _
      | with_reducible refine Has.settleOp_eq (by assumption) ?_
      | with_reducible apply Has.settleOp
      | with_reducible apply Has.idS
      | with_reducible refine Has.ite ?_ ?_
      | split
      | rfl
      | exact hes
      | with_reducible apply ih

theorem Has.settleOps_eq {k0 : Nat} {r0 : Req} {id : Nat} {x : List Nat} {s : State} {y : Option Outcome} {t : State} (e : Machine.settleOps id x s = (t, y)) (h : Has k0 r0 s) : Has k0 r0 t := by
  have := Has.settleOps id x s h
  rwa [e] at this

theorem Has.settle {k0 : Nat} {r0 : Req} (id : Nat) (s : State) (h : Has k0 r0 s) : Has k0 r0 (Machine.settle id s) := by
  unfold Machine.settle
  repeat' first
    | dsimp only
    | with_reducible assumption
    | intro _
    | with_reducible apply Has.endChain
    | with_reducible apply Has.endDone
    | with_reducible apply Has.settleOps
    | with_reducible refine Has.settleOps_eq (by assumption) ?_
    | with_reducible apply Has.startBufs
    | with_reducible refine Has.ite ?_ ?_
    | split

theorem Has.settleAll {k0 : Nat} {r0 : Req} (s : State) (h : Has k0 r0 s) : Has k0 r0 (Machine.settleAll s) := by
  unfold Machine.settleAll
  repeat' first
    | dsimp only
    | with_reducible assumption
    | intro _
    | with_reducible apply Has.settle
    | with_reducible apply Has.foldl

theorem Has.openStream {k0 : Nat} {r0 : Req} (r : Req) (i t : Nat) (s : State) (h : Has k0 r0 s) : Has k0 r0 (Machine.openStream r i t s) := by
  unfold Machine.openStream
  repeat' first
    | dsimp only
    | with_reducible assumption
    | intro _
    | with_reducible apply Has.setStream
    | with_reducible refine Has.ite ?_ ?_
    | split

theorem Has.parkStream {k0 : Nat} {r0 : Req} (r : Req) (i : Nat) (s : State) (h : Has k0 r0 s) : Has k0 r0 (Machine.parkStream r i s) := by
  unfold Machine.parkStream
  repeat' first
    | dsimp only
    | with_reducible assumption
    | intro _
    | with_reducible apply Has.modOp
    | with_reducible apply Has.setStream
    | with_reducible refine Has.ite ?_ ?_
    | split

theorem Has.holdTile {k0 : Nat} {r0 : Req} (p : Nat × Nat) (t : Nat) (s : State) (h : Has k0 r0 s) : Has k0 r0 (Machine.holdTile p t s) := by
  unfold Machine.holdTile
  repeat' first
    | dsimp only
    | with_reducible assumption
    | intro _
    | with_reducible apply Has.modTile
    | with_reducible refine Has.ite ?_ ?_
    | split

theorem Has.dropHold {k0 : Nat} {r0 : Req} (k : Nat) (p : Nat × Nat) (s : State) (h : Has k0 r0 s) : Has k0 r0 (Machine.dropHold k p s) := by
  unfold Machine.dropHold
  repeat' first
    | dsimp only
    | with_reducible assumption
    | intro _
    | with_reducible apply Has.eachN
    | with_reducible apply Has.modTile
    | with_reducible refine Has.ite ?_ ?_
    | split

theorem Has.startOn {k0 : Nat} {r0 : Req} (id i : Nat) (ts : List Nat) (s : State) (h : Has k0 r0 s) : Has k0 r0 (Machine.startOn id i ts s) := by
  unfold Machine.startOn
  repeat' first
    | dsimp only
    | with_reducible assumption
    | intro _
    | with_reducible apply Has.eachN
    | with_reducible apply Has.endChain
    | with_reducible apply Has.holdTile
    | with_reducible apply Has.modOp
    | with_reducible apply Has.openStream
    | with_reducible apply Has.settle
    | with_reducible refine Has.ite ?_ ?_
    | split

theorem Has.runBank {k0 : Nat} {r0 : Req} (t : Nat) (p : Nat × Nat) (s : State) (h : Has k0 r0 s) : Has k0 r0 (Machine.runBank t p s) := by
  unfold Machine.runBank
  repeat' first
    | dsimp only
    | with_reducible assumption
    | intro _
    | with_reducible apply Has.eachN
    | with_reducible apply Has.modOp
    | with_reducible apply Has.modTile
    | with_reducible refine Has.ite ?_ ?_
    | split

theorem Has.wakeBank {k0 : Nat} {r0 : Req} (t : Nat) (s : State) (h : Has k0 r0 s) : Has k0 r0 (Machine.wakeBank t s) := by
  unfold Machine.wakeBank
  repeat' first
    | dsimp only
    | with_reducible assumption
    | intro _
    | with_reducible apply Has.runBank
    | with_reducible refine Has.ite ?_ ?_
    | split

theorem Has.setBank {k0 : Nat} {r0 : Req} (t : Nat) (b : Bool) (v : BankSt) (s : State) (h : Has k0 r0 s) : Has k0 r0 (Machine.setBank t b v s) := by
  unfold Machine.setBank
  repeat' first
    | dsimp only
    | with_reducible assumption
    | intro _
    | with_reducible apply Has.modTile

theorem Has.releaseOp {k0 : Nat} {r0 : Req} (id i : Nat) (s : State) (h : Has k0 r0 s) : Has k0 r0 (Machine.releaseOp id i s) := by
  unfold Machine.releaseOp
  repeat' first
    | dsimp only
    | with_reducible assumption
    | intro _
    | with_reducible apply Has.eachN
    | with_reducible apply Has.modTile
    | with_reducible apply Has.wakeBank
    | with_reducible apply Has.idS
    | with_reducible refine Has.ite ?_ ?_

theorem Has.rerunOp {k0 : Nat} {r0 : Req} (id i : Nat) (s : State) (h : Has k0 r0 s) : Has k0 r0 (Machine.rerunOp id i s) := by
  unfold Machine.rerunOp
  repeat' first
    | dsimp only
    | with_reducible assumption
    | intro _
    | with_reducible apply Has.modBuf
    | with_reducible apply Has.modOp
    | with_reducible apply Has.releaseOp
    | with_reducible apply Has.setStream
    | with_reducible refine Has.ite ?_ ?_
    | split

theorem Has.rerunFrom {k0 : Nat} {r0 : Req} (id i : Nat) (s : State) (h : Has k0 r0 s) : Has k0 r0 (Machine.rerunFrom id i s) := by
  unfold Machine.rerunFrom
  repeat' first
    | dsimp only
    | with_reducible assumption
    | intro _
    | with_reducible apply Has.eachN
    | with_reducible apply Has.endChain
    | with_reducible apply Has.rerunOp
    | with_reducible refine Has.ite ?_ ?_
    | split

theorem Has.loseOp {k0 : Nat} {r0 : Req} (id i : Nat) (s : State) (h : Has k0 r0 s) : Has k0 r0 (Machine.loseOp id i s) := by
  unfold Machine.loseOp
  repeat' first
    | dsimp only
    | with_reducible assumption
    | intro _
    | with_reducible apply Has.endChain
    | with_reducible apply Has.rerunFrom
    | with_reducible apply Has.settle
    | with_reducible refine Has.ite ?_ ?_
    | split

theorem Has.markQuarantine {k0 : Nat} {r0 : Req} (t cause : Nat) (req : Option Nat) (s : State) (h : Has k0 r0 s) : Has k0 r0 (Machine.markQuarantine t cause req s) := by
  unfold Machine.markQuarantine
  repeat' first
    | dsimp only
    | with_reducible assumption
    | intro _
    | with_reducible apply Has.journal
    | with_reducible apply Has.modTile
    | with_reducible apply Has.raiseG

theorem Has.streamTo {k0 : Nat} {r0 : Req} (p : Nat × Nat) (x : Nat) (s : State) (h : Has k0 r0 s) : Has k0 r0 (Machine.streamTo p x s) := by
  unfold Machine.streamTo
  repeat' first
    | dsimp only
    | with_reducible assumption
    | intro _
    | with_reducible apply Has.setStream
    | with_reducible refine Has.ite ?_ ?_
    | split

theorem Has.shiftSaved {k0 : Nat} {r0 : Req} (t x : Nat) (p : Nat × Nat) (s : State) (h : Has k0 r0 s) : Has k0 r0 (Machine.shiftSaved t x p s) := by
  unfold Machine.shiftSaved
  repeat' first
    | dsimp only
    | with_reducible assumption
    | intro _
    | with_reducible apply Has.modOp
    | with_reducible apply Has.modTile
    | with_reducible apply Has.streamTo
    | with_reducible refine Has.ite ?_ ?_
    | split

theorem Has.moveSaved {k0 : Nat} {r0 : Req} (t : Nat) (move : Bool) (p : Nat × Nat) (s0 : State) (h : Has k0 r0 s0) : Has k0 r0 (Machine.moveSaved t move p s0) := by
  unfold Machine.moveSaved
  repeat' first
    | dsimp only
    | with_reducible assumption
    | intro _
    | with_reducible apply Has.dropHold
    | with_reducible apply Has.endChain
    | with_reducible apply Has.foldl
    | with_reducible apply Has.loseOp
    | with_reducible apply Has.nextFree
    | with_reducible apply Has.shiftSaved
    | with_reducible refine Has.ite ?_ ?_
    | split

theorem Has.moveParked {k0 : Nat} {r0 : Req} (t : Nat) (move : Bool) (s : State) (h : Has k0 r0 s) : Has k0 r0 (Machine.moveParked t move s) := by
  unfold Machine.moveParked
  repeat' first
    | dsimp only
    | with_reducible assumption
    | intro _
    | with_reducible apply Has.eachN
    | with_reducible apply Has.nextFree
    | with_reducible apply Has.setStream
    | with_reducible refine Has.ite ?_ ?_
    | split

theorem Has.dropRun {k0 : Nat} {r0 : Req} (t : Nat) (keep : Bool) (p : Nat × Nat) (s : State) (h : Has k0 r0 s) : Has k0 r0 (Machine.dropRun t keep p s) := by
  unfold Machine.dropRun
  repeat' first
    | dsimp only
    | with_reducible assumption
    | intro _
    | with_reducible apply Has.loseOp
    | with_reducible apply Has.modOp
    | with_reducible apply Has.modTile
    | with_reducible apply Has.rerunFrom
    | with_reducible apply Has.setBank
    | with_reducible refine Has.ite ?_ ?_
    | split

theorem Has.quarantine {k0 : Nat} {r0 : Req} (t cause : Nat) (keep : Bool) (s : State) (h : Has k0 r0 s) : Has k0 r0 (Machine.quarantine t cause keep s) := by
  unfold Machine.quarantine
  repeat' first
    | dsimp only
    | with_reducible assumption
    | intro _
    | with_reducible apply Has.dropRun
    | with_reducible apply Has.foldl
    | with_reducible apply Has.markQuarantine
    | with_reducible apply Has.moveParked
    | with_reducible apply Has.moveSaved
    | with_reducible apply Has.settleAll
    | with_reducible refine Has.ite ?_ ?_
    | split

theorem Has.tileCe {k0 : Nat} {r0 : Req} (t : Nat) (s : State) (h : Has k0 r0 s) : Has k0 r0 (Machine.tileCe t s) := by
  unfold Machine.tileCe
  repeat' first
    | dsimp only
    | with_reducible assumption
    | intro _
    | with_reducible apply Has.countCe
    | with_reducible apply Has.modTile
    | with_reducible apply Has.quarantine
    | with_reducible refine Has.ite ?_ ?_
    | split

theorem Has.tileUe {k0 : Nat} {r0 : Req} (t : Nat) (s : State) (h : Has k0 r0 s) : Has k0 r0 (Machine.tileUe t s) := by
  unfold Machine.tileUe
  repeat' first
    | dsimp only
    | with_reducible assumption
    | intro _
    | with_reducible apply Has.journalUe
    | with_reducible apply Has.quarantine
    | with_reducible apply Has.raiseG

theorem Has.restIn {k0 : Nat} {r0 : Req} (id i t : Nat) (s : State) (h : Has k0 r0 s) : Has k0 r0 (Machine.restIn id i t s) := by
  unfold Machine.restIn
  repeat' first
    | dsimp only
    | with_reducible assumption
    | intro _
    | with_reducible apply Has.setBank
    | with_reducible refine Has.ite ?_ ?_
    | split

theorem Has.enterBank {k0 : Nat} {r0 : Req} (id i t : Nat) (s : State) (h : Has k0 r0 s) : Has k0 r0 (Machine.enterBank id i t s) := by
  unfold Machine.enterBank
  repeat' first
    | dsimp only
    | with_reducible assumption
    | intro _
    | with_reducible apply Has.restIn
    | with_reducible apply Has.wakeBank
    | with_reducible refine Has.ite ?_ ?_
    | split

theorem Has.writeTarget {k0 : Nat} {r0 : Req} (x : Nat) (material : Bytes) (s : State) (h : Has k0 r0 s) : Has k0 r0 (Machine.writeTarget x material s) := by
  unfold Machine.writeTarget
  repeat' first
    | dsimp only
    | with_reducible assumption
    | intro _
    | with_reducible apply Has.modSlot

theorem Has.finishOp {k0 : Nat} {r0 : Req} (id i : Nat) (e : OpEnd) (s : State) (h : Has k0 r0 s) : Has k0 r0 (Machine.finishOp id i e s) := by
  unfold Machine.finishOp
  repeat' first
    | dsimp only
    | with_reducible assumption
    | intro _
    | with_reducible apply Has.modOp
    | with_reducible apply Has.parkStream
    | with_reducible apply Has.releaseOp
    | with_reducible apply Has.settle
    | with_reducible apply Has.writeTarget
    | with_reducible apply Has.idS
    | with_reducible refine Has.ite ?_ ?_
    | split

theorem Has.groutRound {k0 : Nat} {r0 : Req} (t : Nat) (s : State) (h : Has k0 r0 s) : Has k0 r0 (Machine.groutRound t s) := by
  unfold Machine.groutRound
  repeat' first
    | dsimp only
    | with_reducible assumption
    | intro _
    | with_reducible apply Has.modTile
    | with_reducible refine Has.ite ?_ ?_
    | split

theorem Has.unforward {k0 : Nat} {r0 : Req} (id : Nat) (s : State) (h : Has k0 r0 s) : Has k0 r0 (Machine.unforward id s) := by
  unfold Machine.unforward
  repeat' first
    | dsimp only
    | with_reducible assumption
    | intro _
    | with_reducible apply Has.modCrs
    | with_reducible refine Has.modReq _ _ ?_ ?_
    | with_reducible apply Has.idS
    | with_reducible refine Has.ite ?_ ?_
    | split
    | rfl
    | exact hes
    | (rename_i hh; obtain ⟨ha, hb⟩ := hh; refine ⟨?_, ?_⟩ <;> first | linear_combination ha | linear_combination hb)
    | (simp_all; done)

theorem Has.stopReq {k0 : Nat} {r0 : Req} (id : Nat) (o : Outcome) (s : State) (h : Has k0 r0 s) : Has k0 r0 (Machine.stopReq id o s) := by
  unfold Machine.stopReq
  repeat' first
    | dsimp only
    | with_reducible assumption
    | intro _
    | with_reducible apply Has.endChain
    | with_reducible apply Has.sendFrame
    | with_reducible apply Has.unforward
    | with_reducible apply Has.idS
    | with_reducible refine Has.ite ?_ ?_
    | split

end Sys2Proof.Machine
end

