-- ==== Sys2Proof/Laws/InReset.lean ====
section
/-!
SUPPORT. A tenant in reset stays in reset through the operations that stop its requests.
-/

set_option Elab.async false

namespace Sys2Proof.Machine

/-- Tenant n is in reset. -/
def Rst (n : Nat) (s : State) : Prop := (s.ten n).inReset = true

theorem Rst.modTen {n0 : Nat} {s : State} (n : Nat) (f : Tenant → Tenant) (h : Rst n0 s) (hf : ∀ t, t.inReset = true → (f t).inReset = true := by intro t h; exact h) :
    Rst n0 (Machine.modTen n f s) := by
  unfold Rst at *
  by_cases e : n0 = n
  · subst e; simp [hf _ h]
  · simp [e, h]
theorem Rst.modSq {n0 : Nat} (n m : Nat) (f : Sq → Sq) (s : State) (hs : Rst n0 s) : Rst n0 (Machine.modSq n m f s) := hs
theorem Rst.modCq {n0 : Nat} (n m : Nat) (f : Cq → Cq) (s : State) (hs : Rst n0 s) : Rst n0 (Machine.modCq n m f s) := hs
theorem Rst.modDc {n0 : Nat} (k : Nat) (f : Chan → Chan) (s : State) (hs : Rst n0 s) : Rst n0 (Machine.modDc k f s) := hs
theorem Rst.modTile {n0 : Nat} (t : Nat) (f : Tile → Tile) (s : State) (hs : Rst n0 s) : Rst n0 (Machine.modTile t f s) := hs
theorem Rst.setCs {n0 : Nat} (c : Nat) (v : CsSt) (s : State) (hs : Rst n0 s) : Rst n0 (Machine.setCs c v s) := hs
theorem Rst.modKs {n0 : Nat} (f : KeyStore → KeyStore) (s : State) (hs : Rst n0 s) : Rst n0 (Machine.modKs f s) := hs
theorem Rst.modSlot {n0 : Nat} (i : Nat) (f : Slot → Slot) (s : State) (hs : Rst n0 s) : Rst n0 (Machine.modSlot i f s) := hs
theorem Rst.modRbg {n0 : Nat} (k : Nat) (f : Rbg → Rbg) (s : State) (hs : Rst n0 s) : Rst n0 (Machine.modRbg k f s) := hs
theorem Rst.setStream {n0 : Nat} (i : Nat) (v : Option Stream) (s : State) (hs : Rst n0 s) : Rst n0 (Machine.setStream i v s) := hs
theorem Rst.setCacheEnt {n0 : Nat} (h : Nat) (v : Option CacheEnt) (s : State) (hs : Rst n0 s) : Rst n0 (Machine.setCacheEnt h v s) := hs
theorem Rst.modCrs {n0 : Nat} (f : Course → Course) (s : State) (hs : Rst n0 s) : Rst n0 (Machine.modCrs f s) := hs
theorem Rst.modPeer {n0 : Nat} (p : Nat) (f : Peer → Peer) (s : State) (hs : Rst n0 s) : Rst n0 (Machine.modPeer p f s) := hs
theorem Rst.modOwn {n0 : Nat} (f : OwnRegs → OwnRegs) (s : State) (hs : Rst n0 s) : Rst n0 (Machine.modOwn f s) := hs
theorem Rst.modTcmp {n0 : Nat} (j : Nat) (f : Tcmp → Tcmp) (s : State) (hs : Rst n0 s) : Rst n0 (Machine.modTcmp j f s) := hs
theorem Rst.modNotice {n0 : Nat} (f : Word → Word) (s : State) (hs : Rst n0 s) : Rst n0 (Machine.modNotice f s) := hs
theorem Rst.modGen {n0 : Nat} (f : Gen → Gen) (s : State) (hs : Rst n0 s) : Rst n0 (Machine.modGen f s) := hs
theorem Rst.modJrn {n0 : Nat} (f : Journal → Journal) (s : State) (hs : Rst n0 s) : Rst n0 (Machine.modJrn f s) := hs
theorem Rst.modTime {n0 : Nat} (f : TimeUnit → TimeUnit) (s : State) (hs : Rst n0 s) : Rst n0 (Machine.modTime f s) := hs
theorem Rst.modClk {n0 : Nat} (f : Clocks → Clocks) (s : State) (hs : Rst n0 s) : Rst n0 (Machine.modClk f s) := hs
theorem Rst.modStart {n0 : Nat} (f : Start → Start) (s : State) (hs : Rst n0 s) : Rst n0 (Machine.modStart f s) := hs
theorem Rst.modOwner {n0 : Nat} (f : Owner → Owner) (s : State) (hs : Rst n0 s) : Rst n0 (Machine.modOwner f s) := hs
theorem Rst.modMeas {n0 : Nat} (f : Meas → Meas) (s : State) (hs : Rst n0 s) : Rst n0 (Machine.modMeas f s) := hs
theorem Rst.modEs {n0 : Nat} (f : Entropy → Entropy) (s : State) (hs : Rst n0 s) : Rst n0 (Machine.modEs f s) := hs
theorem Rst.modBoot {n0 : Nat} (f : Boot → Boot) (s : State) (hs : Rst n0 s) : Rst n0 (Machine.modBoot f s) := hs
theorem Rst.modFp {n0 : Nat} (f : FramePort → FramePort) (s : State) (hs : Rst n0 s) : Rst n0 (Machine.modFp f s) := hs
theorem Rst.modSup {n0 : Nat} (f : Supply → Supply) (s : State) (hs : Rst n0 s) : Rst n0 (Machine.modSup f s) := hs
theorem Rst.modSch {n0 : Nat} (f : Sched → Sched) (s : State) (hs : Rst n0 s) : Rst n0 (Machine.modSch f s) := hs
theorem Rst.modReq {n0 : Nat} (id : Nat) (f : Req → Req) (s : State) (hs : Rst n0 s) : Rst n0 (Machine.modReq id f s) := hs
theorem Rst.dropReq {n0 : Nat} (id : Nat) (s : State) (hs : Rst n0 s) : Rst n0 (Machine.dropReq id s) := hs
theorem Rst.emit {n0 : Nat} (o : Out) (s : State) (hs : Rst n0 s) : Rst n0 (Machine.emit o s) := hs
theorem Rst.nextFree {n0 : Nat} (s : State) (hs : Rst n0 s) : Rst n0 (Machine.nextFree s) := hs
theorem Rst.modRoots {n0 : Nat} (f : Roots → Roots) (s : State) (hs : Rst n0 s) : Rst n0 (Machine.modRoots f s) := hs
theorem Rst.modIdent {n0 : Nat} (f : Ident → Ident) (s : State) (hs : Rst n0 s) : Rst n0 (Machine.modIdent f s) := hs
theorem Rst.modRet {n0 : Nat} (f : Retention → Retention) (s : State) (hs : Rst n0 s) : Rst n0 (Machine.modRet f s) := hs
theorem Rst.modDenied {n0 : Nat} (f : Cnt32 → Cnt32) (s : State) (hs : Rst n0 s) : Rst n0 (Machine.modDenied f s) := hs
theorem Rst.modEvPend {n0 : Nat} (f : Word → Word) (s : State) (hs : Rst n0 s) : Rst n0 (Machine.modEvPend f s) := hs
theorem Rst.modBuserr {n0 : Nat} (f : Capture → Capture) (s : State) (hs : Rst n0 s) : Rst n0 (Machine.modBuserr f s) := hs
theorem Rst.modBecnt {n0 : Nat} (f : Cnt32 → Cnt32) (s : State) (hs : Rst n0 s) : Rst n0 (Machine.modBecnt f s) := hs
theorem Rst.modPviol {n0 : Nat} (f : Capture → Capture) (s : State) (hs : Rst n0 s) : Rst n0 (Machine.modPviol f s) := hs
theorem Rst.modPvcnt {n0 : Nat} (f : Cnt32 → Cnt32) (s : State) (hs : Rst n0 s) : Rst n0 (Machine.modPvcnt f s) := hs
theorem Rst.modSent {n0 : Nat} (f : List Req → List Req) (s : State) (hs : Rst n0 s) : Rst n0 (Machine.modSent f s) := hs
theorem Rst.modReqs {n0 : Nat} (f : List Req → List Req) (s : State) (hs : Rst n0 s) : Rst n0 (Machine.modReqs f s) := hs
theorem Rst.modHeld {n0 : Nat} (f : List HeldWrite → List HeldWrite) (s : State) (hs : Rst n0 s) : Rst n0 (Machine.modHeld f s) := hs
theorem Rst.modLatch {n0 : Nat} (f : List Latch → List Latch) (s : State) (hs : Rst n0 s) : Rst n0 (Machine.modLatch f s) := hs
theorem Rst.modCe {n0 : Nat} (c : Nat) (f : Cnt32 → Cnt32) (s : State) (hs : Rst n0 s) : Rst n0 (Machine.modCe c f s) := hs

theorem Rst.foldl {n0 : Nat} {s : State} {α : Type} {f : State → α → State} (l : List α) (h : Rst n0 s) (hf : ∀ s a, Rst n0 s → Rst n0 (f s a)) :
    Rst n0 (l.foldl f s) := by
  induction l generalizing s with
  | nil => exact h
  | cons a t ih => exact ih (hf s a h)
theorem Rst.eachN {n0 : Nat} {s : State} {f : Nat → State → State} (l : List Nat) (h : Rst n0 s) (hf : ∀ i s, Rst n0 s → Rst n0 (f i s)) : Rst n0 (Machine.eachN l f s) :=
  Rst.foldl l h (fun s i hs => hf i s hs)
theorem Rst.ite {n0 : Nat} {c : Prop} [Decidable c] {a b : State} (ha : c → Rst n0 a) (hb : ¬c → Rst n0 b) : Rst n0 (if c then a else b) := by
  by_cases h : c
  · rw [if_pos h]; exact ha h
  · rw [if_neg h]; exact hb h
theorem Rst.idS {n0 : Nat} {s : State} (h : Rst n0 s) : Rst n0 (id s) := h

theorem Rst.emitWr {n0 : Nat} (addr : Nat) (data : Bytes) (s : State) (h : Rst n0 s) : Rst n0 (Machine.emitWr addr data s) := by
  unfold Machine.emitWr
  repeat' first
    | dsimp only
    | with_reducible assumption
    | intro _
    | with_reducible apply Rst.emit
    | with_reducible apply Rst.foldl

theorem Rst.emitRd {n0 : Nat} (addr len : Nat) (s : State) (h : Rst n0 s) : Rst n0 (Machine.emitRd addr len s) := by
  unfold Machine.emitRd
  repeat' first
    | dsimp only
    | with_reducible assumption
    | intro _
    | with_reducible apply Rst.emit
    | with_reducible apply Rst.foldl

theorem Rst.emitRecord {n0 : Nat} (addr : Nat) (b : Bytes) (s : State) (h : Rst n0 s) : Rst n0 (Machine.emitRecord addr b s) := by
  unfold Machine.emitRecord
  repeat' first
    | dsimp only
    | with_reducible assumption
    | intro _
    | with_reducible apply Rst.emitWr
    | with_reducible refine Rst.ite ?_ ?_
    | split

theorem Rst.raiseT {n0 : Nat} (n e : Nat) (s : State) (h : Rst n0 s) : Rst n0 (Machine.raiseT n e s) := by
  unfold Machine.raiseT
  repeat' first
    | dsimp only
    | with_reducible assumption
    | intro _
    | with_reducible refine Rst.modTen _ _ ?_ ?_

theorem Rst.raiseG {n0 : Nat} (e : Nat) (s : State) (h : Rst n0 s) : Rst n0 (Machine.raiseG e s) := by
  unfold Machine.raiseG
  repeat' first
    | dsimp only
    | with_reducible assumption
    | intro _
    | with_reducible apply Rst.modEvPend

theorem Rst.violT {n0 : Nat} (n : Nat) (addr : Nat) (d : Dir) (cause kind number tag gen : Nat) (s : State) (h : Rst n0 s) : Rst n0 (Machine.violT n addr d cause kind number tag gen s) := by
  unfold Machine.violT
  repeat' first
    | dsimp only
    | with_reducible assumption
    | intro _
    | with_reducible refine Rst.modTen _ _ ?_ ?_
    | with_reducible apply Rst.raiseT
    | with_reducible refine Rst.ite ?_ ?_

theorem Rst.violP {n0 : Nat} (addr : Nat) (d : Dir) (cause kind number tag gen : Nat) (s : State) (h : Rst n0 s) : Rst n0 (Machine.violP addr d cause kind number tag gen s) := by
  unfold Machine.violP
  repeat' first
    | dsimp only
    | with_reducible assumption
    | intro _
    | with_reducible apply Rst.modPvcnt
    | with_reducible apply Rst.modPviol
    | with_reducible apply Rst.raiseG
    | with_reducible refine Rst.ite ?_ ?_

theorem Rst.viol {n0 : Nat} (t : Option TenantIx) (addr : Nat) (d : Dir) (cause kind number tag gen : Nat) (s : State) (h : Rst n0 s) : Rst n0 (Machine.viol t addr d cause kind number tag gen s) := by
  unfold Machine.viol
  repeat' first
    | dsimp only
    | with_reducible assumption
    | intro _
    | with_reducible apply Rst.violP
    | with_reducible apply Rst.violT
    | with_reducible refine Rst.ite ?_ ?_
    | split

theorem Rst.jrnLose {n0 : Nat} (s : State) (h : Rst n0 s) : Rst n0 (Machine.jrnLose s) := by
  unfold Machine.jrnLose
  repeat' first
    | dsimp only
    | with_reducible assumption
    | intro _
    | with_reducible apply Rst.modJrn
    | with_reducible apply Rst.raiseG
    | with_reducible refine Rst.ite ?_ ?_
    | split

theorem Rst.jrnNlose {n0 : Nat} (s : State) (h : Rst n0 s) : Rst n0 (Machine.jrnNlose s) := by
  unfold Machine.jrnNlose
  repeat' first
    | dsimp only
    | with_reducible assumption
    | intro _
    | with_reducible apply Rst.modJrn
    | with_reducible refine Rst.ite ?_ ?_
    | split

theorem Rst.jrnPush {n0 : Nat} (rec : List (BitVec 32)) (s : State) (h : Rst n0 s) : Rst n0 (Machine.jrnPush rec s) := by
  unfold Machine.jrnPush
  repeat' first
    | dsimp only
    | with_reducible assumption
    | intro _
    | with_reducible apply Rst.modJrn
    | with_reducible apply Rst.raiseG
    | with_reducible refine Rst.ite ?_ ?_
    | split

theorem Rst.jrnMakeRoom {n0 : Nat} (need : Nat) (x : Nat) (s : State) (h : Rst n0 s) : Rst n0 (Machine.jrnMakeRoom need x s) := by
  induction x generalizing s with
  | zero => exact h
  | succ l ih =>
    unfold Machine.jrnMakeRoom
    repeat' first
      | dsimp only
      | with_reducible assumption
      | intro _
      | with_reducible apply Rst.jrnLose
      | with_reducible apply Rst.modJrn
      | with_reducible refine Rst.ite ?_ ?_
      | split
      | with_reducible apply ih

theorem Rst.noticeFault {n0 : Nat} (s : State) (h : Rst n0 s) : Rst n0 (Machine.noticeFault s) := by
  unfold Machine.noticeFault
  repeat' first
    | dsimp only
    | with_reducible assumption
    | intro _
    | with_reducible apply Rst.modNotice
    | with_reducible apply Rst.raiseG
    | with_reducible refine Rst.ite ?_ ?_
    | split

theorem Rst.notice {n0 : Nat} (rec : List (BitVec 32)) (s : State) (h : Rst n0 s) : Rst n0 (Machine.notice rec s) := by
  unfold Machine.notice
  repeat' first
    | dsimp only
    | with_reducible assumption
    | intro _
    | with_reducible apply Rst.emitRecord
    | with_reducible apply Rst.jrnNlose
    | with_reducible apply Rst.modJrn
    | with_reducible apply Rst.noticeFault
    | with_reducible apply Rst.violP
    | with_reducible refine Rst.ite ?_ ?_
    | split

theorem Rst.jrnOpen {n0 : Nat} (bad : Bool) (s : State) (h : Rst n0 s) : Rst n0 (Machine.jrnOpen bad s) := by
  unfold Machine.jrnOpen
  repeat' first
    | dsimp only
    | with_reducible assumption
    | intro _
    | with_reducible apply Rst.modJrn
    | with_reducible refine Rst.ite ?_ ?_
    | split

theorem Rst.jrnDeliver {n0 : Nat} (who : Who) (size : AccSize) (bad : Bool) (s : State) (h : Rst n0 s) : Rst n0 (Machine.jrnDeliver who size bad s) := by
  unfold Machine.jrnDeliver
  repeat' first
    | dsimp only
    | with_reducible assumption
    | intro _
    | with_reducible apply Rst.emit
    | with_reducible apply Rst.jrnOpen
    | with_reducible apply Rst.modJrn
    | with_reducible refine Rst.ite ?_ ?_
    | split

theorem Rst.jrnServe {n0 : Nat} (x : List (Who × AccSize)) (s : State) (h : Rst n0 s) : Rst n0 (Machine.jrnServe x s) := by
  induction x generalizing s with
  | nil => exact h
  | cons a l ih =>
    obtain ⟨w, z⟩ := a
    unfold Machine.jrnServe
    repeat' first
      | dsimp only
      | with_reducible assumption
      | intro _
      | with_reducible apply Rst.jrnDeliver
      | with_reducible apply Rst.modJrn
      | with_reducible refine Rst.ite ?_ ?_
      | split
      | with_reducible apply ih

theorem Rst.jrnStore {n0 : Nat} (rec : List (BitVec 32)) (s : State) (h : Rst n0 s) : Rst n0 (Machine.jrnStore rec s) := by
  unfold Machine.jrnStore
  repeat' first
    | dsimp only
    | with_reducible assumption
    | intro _
    | with_reducible apply Rst.jrnPush
    | with_reducible apply Rst.jrnServe
    | with_reducible apply Rst.notice
    | with_reducible refine Rst.ite ?_ ?_
    | split

theorem Rst.journal {n0 : Nat} (type origin : Nat) (payload : List Nat) (s : State) (h : Rst n0 s) : Rst n0 (Machine.journal type origin payload s) := by
  unfold Machine.journal
  repeat' first
    | dsimp only
    | with_reducible assumption
    | intro _
    | with_reducible apply Rst.jrnLose
    | with_reducible apply Rst.jrnMakeRoom
    | with_reducible apply Rst.jrnStore
    | with_reducible apply Rst.modJrn
    | with_reducible refine Rst.ite ?_ ?_
    | split

theorem Rst.sendFrame {n0 : Nat} (type dst : Nat) (payload : Bytes) (s : State) (h : Rst n0 s) : Rst n0 (Machine.sendFrame type dst payload s) := by
  unfold Machine.sendFrame
  repeat' first
    | dsimp only
    | with_reducible assumption
    | intro _
    | with_reducible apply Rst.emit
    | with_reducible apply Rst.modCrs

theorem Rst.countDenied {n0 : Nat} (s : State) (h : Rst n0 s) : Rst n0 (Machine.countDenied s) := by
  unfold Machine.countDenied
  repeat' first
    | dsimp only
    | with_reducible assumption
    | intro _
    | with_reducible apply Rst.modDenied
    | with_reducible apply Rst.raiseG
    | with_reducible refine Rst.ite ?_ ?_
    | split

theorem Rst.debugRecord {n0 : Nat} (who : Who) (off : Nat) (d : Dir) (opened : Bool) (s : State) (h : Rst n0 s) : Rst n0 (Machine.debugRecord who off d opened s) := by
  unfold Machine.debugRecord
  repeat' first
    | dsimp only
    | with_reducible assumption
    | intro _
    | with_reducible apply Rst.journal
    | with_reducible refine Rst.ite ?_ ?_
    | split

theorem Rst.dropWrite {n0 : Nat} (who : Who) (off value : Nat) (s : State) (h : Rst n0 s) : Rst n0 (Machine.dropWrite who off value s) := by
  unfold Machine.dropWrite
  repeat' first
    | dsimp only
    | with_reducible assumption
    | intro _
    | with_reducible apply Rst.countDenied
    | with_reducible apply Rst.debugRecord
    | with_reducible apply Rst.journal
    | with_reducible refine Rst.ite ?_ ?_
    | split

theorem Rst.dropPiece {n0 : Nat} (who : Who) (r : Reg) (mask val : Word) (s : State) (h : Rst n0 s) : Rst n0 (Machine.dropPiece who r mask val s) := by
  unfold Machine.dropPiece
  repeat' first
    | dsimp only
    | with_reducible assumption
    | intro _
    | with_reducible apply Rst.dropWrite
    | with_reducible refine Rst.ite ?_ ?_
    | split

theorem Rst.dropReg {n0 : Nat} (who : Who) (r : Reg) (val : Word) (s : State) (h : Rst n0 s) : Rst n0 (Machine.dropReg who r val s) := by
  unfold Machine.dropReg
  repeat' first
    | dsimp only
    | with_reducible assumption
    | intro _
    | with_reducible apply Rst.dropPiece
    | with_reducible refine Rst.ite ?_ ?_
    | split

theorem Rst.dcClear {n0 : Nat} (k : Nat) (s : State) (h : Rst n0 s) : Rst n0 (Machine.dcClear k s) := by
  unfold Machine.dcClear
  repeat' first
    | dsimp only
    | with_reducible assumption
    | intro _
    | with_reducible apply Rst.modDc
    | with_reducible refine Rst.ite ?_ ?_
    | split

theorem Rst.dcReset {n0 : Nat} (k : Nat) (s : State) (h : Rst n0 s) : Rst n0 (Machine.dcReset k s) := by
  unfold Machine.dcReset
  repeat' first
    | dsimp only
    | with_reducible assumption
    | intro _
    | with_reducible apply Rst.dcClear
    | with_reducible apply Rst.dropReg
    | with_reducible refine Rst.ite ?_ ?_
    | split

theorem Rst.modBuf {n0 : Nat} (id b : Nat) (f : BufSt → BufSt) (s : State) (h : Rst n0 s) : Rst n0 (Machine.modBuf id b f s) := by
  unfold Machine.modBuf
  repeat' first
    | dsimp only
    | with_reducible assumption
    | intro _
    | with_reducible apply Rst.modReq
    | with_reducible refine Rst.ite ?_ ?_
    | split

theorem Rst.reqViol {n0 : Nat} (r : Req) (addr : Nat) (d : Dir) (cause : Nat) (s : State) (h : Rst n0 s) : Rst n0 (Machine.reqViol r addr d cause s) := by
  unfold Machine.reqViol
  repeat' first
    | dsimp only
    | with_reducible assumption
    | intro _
    | with_reducible apply Rst.viol

theorem Rst.freeTiles {n0 : Nat} (id : Nat) (s : State) (h : Rst n0 s) : Rst n0 (Machine.freeTiles id s) := by
  unfold Machine.freeTiles
  repeat' first
    | dsimp only
    | with_reducible assumption
    | intro _
    | with_reducible apply Rst.eachN
    | with_reducible apply Rst.modTile

theorem Rst.dropWork {n0 : Nat} (aim : Purpose) (s : State) (h : Rst n0 s) : Rst n0 (Machine.dropWork aim s) := by
  unfold Machine.dropWork
  repeat' first
    | dsimp only
    | with_reducible assumption
    | intro _
    | with_reducible apply Rst.foldl
    | with_reducible apply Rst.freeTiles
    | with_reducible apply Rst.modSch
    | with_reducible refine Rst.ite ?_ ?_
    | split

theorem Rst.unclaim {n0 : Nat} (x : Nat) (s : State) (h : Rst n0 s) : Rst n0 (Machine.unclaim x s) := by
  unfold Machine.unclaim
  repeat' first
    | dsimp only
    | with_reducible assumption
    | intro _
    | with_reducible apply Rst.dropWork
    | with_reducible apply Rst.modKs
    | with_reducible apply Rst.modSlot
    | with_reducible refine Rst.ite ?_ ?_
    | split

theorem Rst.closeStream {n0 : Nat} (ix : Nat) (s : State) (h : Rst n0 s) : Rst n0 (Machine.closeStream ix s) := by
  unfold Machine.closeStream
  repeat' first
    | dsimp only
    | with_reducible assumption
    | intro _
    | with_reducible apply Rst.setStream
    | with_reducible refine Rst.ite ?_ ?_
    | split

theorem Rst.issueJob {n0 : Nat} (kind : Nat) (work : JobWork) (s : State) (h : Rst n0 s) : Rst n0 (Machine.issueJob kind work s) := by
  unfold Machine.issueJob
  repeat' first
    | dsimp only
    | with_reducible assumption
    | intro _
    | with_reducible apply Rst.modSch
    | with_reducible refine Rst.ite ?_ ?_
    | split

theorem Rst.prepareBank {n0 : Nat} (x : Nat) (s : State) (h : Rst n0 s) : Rst n0 (Machine.prepareBank x s) := by
  unfold Machine.prepareBank
  repeat' first
    | dsimp only
    | with_reducible assumption
    | intro _
    | with_reducible apply Rst.issueJob
    | with_reducible refine Rst.ite ?_ ?_
    | split

theorem Rst.beginVerify {n0 : Nat} (x : Nat) (s : State) (h : Rst n0 s) : Rst n0 (Machine.beginVerify x s) := by
  unfold Machine.beginVerify
  repeat' first
    | dsimp only
    | with_reducible assumption
    | intro _
    | with_reducible apply Rst.modKs
    | with_reducible apply Rst.modSlot
    | with_reducible apply Rst.prepareBank
    | with_reducible refine Rst.ite ?_ ?_
    | split

theorem Rst.endStreams {n0 : Nat} (r : Req) (o : Outcome) (s : State) (h : Rst n0 s) : Rst n0 (Machine.endStreams r o s) := by
  unfold Machine.endStreams
  repeat' first
    | dsimp only
    | with_reducible assumption
    | intro _
    | with_reducible apply Rst.closeStream
    | with_reducible apply Rst.eachN
    | with_reducible apply Rst.setStream
    | with_reducible refine Rst.ite ?_ ?_
    | split

theorem Rst.dropStreams {n0 : Nat} (r : Req) (o : Outcome) (s : State) (h : Rst n0 s) : Rst n0 (Machine.dropStreams r o s) := by
  unfold Machine.dropStreams
  repeat' first
    | dsimp only
    | with_reducible assumption
    | intro _
    | with_reducible apply Rst.closeStream
    | with_reducible apply Rst.foldl
    | with_reducible refine Rst.ite ?_ ?_
    | split

theorem Rst.scrubSeg {n0 : Nat} (r : Req) (a len : Nat) (s : State) (h : Rst n0 s) : Rst n0 (Machine.scrubSeg r a len s) := by
  unfold Machine.scrubSeg
  repeat' first
    | dsimp only
    | with_reducible assumption
    | intro _
    | with_reducible apply Rst.emitWr
    | with_reducible apply Rst.modReq
    | with_reducible apply Rst.reqViol
    | with_reducible refine Rst.ite ?_ ?_
    | split

theorem Rst.scrubAll {n0 : Nat} (r : Req) (s : State) (h : Rst n0 s) : Rst n0 (Machine.scrubAll r s) := by
  unfold Machine.scrubAll
  repeat' first
    | dsimp only
    | with_reducible assumption
    | intro _
    | with_reducible apply Rst.eachN
    | with_reducible apply Rst.emit
    | with_reducible apply Rst.foldl
    | with_reducible apply Rst.scrubSeg
    | with_reducible refine Rst.ite ?_ ?_
    | split

theorem Rst.fencePort {n0 : Nat} (id : Nat) (port : Bool) (s : State) (h : Rst n0 s) : Rst n0 (Machine.fencePort id port s) := by
  unfold Machine.fencePort
  repeat' first
    | dsimp only
    | with_reducible assumption
    | intro _
    | with_reducible apply Rst.emitRd
    | with_reducible apply Rst.modReq
    | with_reducible apply Rst.reqViol
    | with_reducible apply Rst.idS
    | with_reducible refine Rst.ite ?_ ?_
    | split

theorem Rst.fenceFrame {n0 : Nat} (r : Req) (s : State) (h : Rst n0 s) : Rst n0 (Machine.fenceFrame r s) := by
  unfold Machine.fenceFrame
  repeat' first
    | dsimp only
    | with_reducible assumption
    | intro _
    | with_reducible apply Rst.eachN
    | with_reducible apply Rst.emit
    | with_reducible apply Rst.modBuf
    | with_reducible refine Rst.ite ?_ ?_
    | split

theorem Rst.endChain {n0 : Nat} (id : Nat) (o : Outcome) (s : State) (h : Rst n0 s) : Rst n0 (Machine.endChain id o s) := by
  unfold Machine.endChain
  repeat' first
    | dsimp only
    | with_reducible assumption
    | intro _
    | with_reducible apply Rst.beginVerify
    | with_reducible apply Rst.dropStreams
    | with_reducible apply Rst.eachN
    | with_reducible apply Rst.endStreams
    | with_reducible apply Rst.fenceFrame
    | with_reducible apply Rst.fencePort
    | with_reducible apply Rst.freeTiles
    | with_reducible apply Rst.modFp
    | with_reducible apply Rst.modReq
    | with_reducible apply Rst.modSch
    | with_reducible apply Rst.scrubAll
    | with_reducible apply Rst.unclaim
    | with_reducible refine Rst.ite ?_ ?_
    | split

theorem Rst.unforward {n0 : Nat} (id : Nat) (s : State) (h : Rst n0 s) : Rst n0 (Machine.unforward id s) := by
  unfold Machine.unforward
  repeat' first
    | dsimp only
    | with_reducible assumption
    | intro _
    | with_reducible apply Rst.modCrs
    | with_reducible apply Rst.modReq

theorem Rst.stopReq {n0 : Nat} (id : Nat) (o : Outcome) (s : State) (h : Rst n0 s) : Rst n0 (Machine.stopReq id o s) := by
  unfold Machine.stopReq
  repeat' first
    | dsimp only
    | with_reducible assumption
    | intro _
    | with_reducible apply Rst.endChain
    | with_reducible apply Rst.sendFrame
    | with_reducible apply Rst.unforward
    | with_reducible apply Rst.idS
    | with_reducible refine Rst.ite ?_ ?_
    | split

theorem Rst.stopTenant {n0 : Nat} (n : TenantIx) (detail : Nat) (s : State) (h : Rst n0 s) : Rst n0 (Machine.stopTenant n detail s) := by
  unfold Machine.stopTenant
  repeat' first
    | dsimp only
    | with_reducible assumption
    | intro _
    | with_reducible apply Rst.dcReset
    | with_reducible apply Rst.eachN
    | with_reducible apply Rst.foldl
    | with_reducible apply Rst.setStream
    | with_reducible apply Rst.stopReq
    | with_reducible refine Rst.ite ?_ ?_
    | split

end Sys2Proof.Machine
end

