-- ==== Sys2Proof/Laws/InTile.lean ====
section
/-!
SUPPORT. A tile keeps its state and its cause through the operations that follow a quarantine.
-/

set_option Elab.async false

namespace Sys2Proof.Machine

/-- Tile t has the state and the cause v. -/
def TSt (t : Nat) (v : TileSt × BitVec 3) (s : State) : Prop := ((s.tile t).st, (s.tile t).qcause) = v

theorem TSt.modTen {t0 : Nat} {v0 : TileSt × BitVec 3} (n : Nat) (f : Tenant → Tenant) (s : State) (hs : TSt t0 v0 s) : TSt t0 v0 (Machine.modTen n f s) := hs
theorem TSt.modSq {t0 : Nat} {v0 : TileSt × BitVec 3} (n m : Nat) (f : Sq → Sq) (s : State) (hs : TSt t0 v0 s) : TSt t0 v0 (Machine.modSq n m f s) := hs
theorem TSt.modCq {t0 : Nat} {v0 : TileSt × BitVec 3} (n m : Nat) (f : Cq → Cq) (s : State) (hs : TSt t0 v0 s) : TSt t0 v0 (Machine.modCq n m f s) := hs
theorem TSt.modDc {t0 : Nat} {v0 : TileSt × BitVec 3} (k : Nat) (f : Chan → Chan) (s : State) (hs : TSt t0 v0 s) : TSt t0 v0 (Machine.modDc k f s) := hs
theorem TSt.modTile {t0 : Nat} {v0 : TileSt × BitVec 3} {s : State} (t : Nat) (f : Tile → Tile) (h : TSt t0 v0 s)
    (hf : ∀ u, (f u).st = u.st ∧ (f u).qcause = u.qcause := by intro u; exact ⟨rfl, rfl⟩) : TSt t0 v0 (Machine.modTile t f s) := by
  unfold TSt at *
  by_cases e : t0 = t
  · subst e; rw [modTile_tile_same, (hf _).1, (hf _).2]; exact h
  · rw [modTile_tile_ne _ _ e]; exact h
theorem TSt.setCs {t0 : Nat} {v0 : TileSt × BitVec 3} (c : Nat) (v : CsSt) (s : State) (hs : TSt t0 v0 s) : TSt t0 v0 (Machine.setCs c v s) := hs
theorem TSt.modKs {t0 : Nat} {v0 : TileSt × BitVec 3} (f : KeyStore → KeyStore) (s : State) (hs : TSt t0 v0 s) : TSt t0 v0 (Machine.modKs f s) := hs
theorem TSt.modSlot {t0 : Nat} {v0 : TileSt × BitVec 3} (i : Nat) (f : Slot → Slot) (s : State) (hs : TSt t0 v0 s) : TSt t0 v0 (Machine.modSlot i f s) := hs
theorem TSt.modRbg {t0 : Nat} {v0 : TileSt × BitVec 3} (k : Nat) (f : Rbg → Rbg) (s : State) (hs : TSt t0 v0 s) : TSt t0 v0 (Machine.modRbg k f s) := hs
theorem TSt.setStream {t0 : Nat} {v0 : TileSt × BitVec 3} (i : Nat) (v : Option Stream) (s : State) (hs : TSt t0 v0 s) : TSt t0 v0 (Machine.setStream i v s) := hs
theorem TSt.setCacheEnt {t0 : Nat} {v0 : TileSt × BitVec 3} (h : Nat) (v : Option CacheEnt) (s : State) (hs : TSt t0 v0 s) : TSt t0 v0 (Machine.setCacheEnt h v s) := hs
theorem TSt.modCrs {t0 : Nat} {v0 : TileSt × BitVec 3} (f : Course → Course) (s : State) (hs : TSt t0 v0 s) : TSt t0 v0 (Machine.modCrs f s) := hs
theorem TSt.modPeer {t0 : Nat} {v0 : TileSt × BitVec 3} (p : Nat) (f : Peer → Peer) (s : State) (hs : TSt t0 v0 s) : TSt t0 v0 (Machine.modPeer p f s) := hs
theorem TSt.modOwn {t0 : Nat} {v0 : TileSt × BitVec 3} (f : OwnRegs → OwnRegs) (s : State) (hs : TSt t0 v0 s) : TSt t0 v0 (Machine.modOwn f s) := hs
theorem TSt.modTcmp {t0 : Nat} {v0 : TileSt × BitVec 3} (j : Nat) (f : Tcmp → Tcmp) (s : State) (hs : TSt t0 v0 s) : TSt t0 v0 (Machine.modTcmp j f s) := hs
theorem TSt.modGen {t0 : Nat} {v0 : TileSt × BitVec 3} (f : Gen → Gen) (s : State) (hs : TSt t0 v0 s) : TSt t0 v0 (Machine.modGen f s) := hs
theorem TSt.modJrn {t0 : Nat} {v0 : TileSt × BitVec 3} (f : Journal → Journal) (s : State) (hs : TSt t0 v0 s) : TSt t0 v0 (Machine.modJrn f s) := hs
theorem TSt.modTime {t0 : Nat} {v0 : TileSt × BitVec 3} (f : TimeUnit → TimeUnit) (s : State) (hs : TSt t0 v0 s) : TSt t0 v0 (Machine.modTime f s) := hs
theorem TSt.modClk {t0 : Nat} {v0 : TileSt × BitVec 3} (f : Clocks → Clocks) (s : State) (hs : TSt t0 v0 s) : TSt t0 v0 (Machine.modClk f s) := hs
theorem TSt.modStart {t0 : Nat} {v0 : TileSt × BitVec 3} (f : Start → Start) (s : State) (hs : TSt t0 v0 s) : TSt t0 v0 (Machine.modStart f s) := hs
theorem TSt.modOwner {t0 : Nat} {v0 : TileSt × BitVec 3} (f : Owner → Owner) (s : State) (hs : TSt t0 v0 s) : TSt t0 v0 (Machine.modOwner f s) := hs
theorem TSt.modMeas {t0 : Nat} {v0 : TileSt × BitVec 3} (f : Meas → Meas) (s : State) (hs : TSt t0 v0 s) : TSt t0 v0 (Machine.modMeas f s) := hs
theorem TSt.modEs {t0 : Nat} {v0 : TileSt × BitVec 3} (f : Entropy → Entropy) (s : State) (hs : TSt t0 v0 s) : TSt t0 v0 (Machine.modEs f s) := hs
theorem TSt.modBoot {t0 : Nat} {v0 : TileSt × BitVec 3} (f : Boot → Boot) (s : State) (hs : TSt t0 v0 s) : TSt t0 v0 (Machine.modBoot f s) := hs
theorem TSt.modFp {t0 : Nat} {v0 : TileSt × BitVec 3} (f : FramePort → FramePort) (s : State) (hs : TSt t0 v0 s) : TSt t0 v0 (Machine.modFp f s) := hs
theorem TSt.modSup {t0 : Nat} {v0 : TileSt × BitVec 3} (f : Supply → Supply) (s : State) (hs : TSt t0 v0 s) : TSt t0 v0 (Machine.modSup f s) := hs
theorem TSt.modSch {t0 : Nat} {v0 : TileSt × BitVec 3} (f : Sched → Sched) (s : State) (hs : TSt t0 v0 s) : TSt t0 v0 (Machine.modSch f s) := hs
theorem TSt.modReq {t0 : Nat} {v0 : TileSt × BitVec 3} (id : Nat) (f : Req → Req) (s : State) (hs : TSt t0 v0 s) : TSt t0 v0 (Machine.modReq id f s) := hs
theorem TSt.dropReq {t0 : Nat} {v0 : TileSt × BitVec 3} (id : Nat) (s : State) (hs : TSt t0 v0 s) : TSt t0 v0 (Machine.dropReq id s) := hs
theorem TSt.emit {t0 : Nat} {v0 : TileSt × BitVec 3} (o : Out) (s : State) (hs : TSt t0 v0 s) : TSt t0 v0 (Machine.emit o s) := hs
theorem TSt.nextFree {t0 : Nat} {v0 : TileSt × BitVec 3} (s : State) (hs : TSt t0 v0 s) : TSt t0 v0 (Machine.nextFree s) := hs
theorem TSt.modRoots {t0 : Nat} {v0 : TileSt × BitVec 3} (f : Roots → Roots) (s : State) (hs : TSt t0 v0 s) : TSt t0 v0 (Machine.modRoots f s) := hs
theorem TSt.modIdent {t0 : Nat} {v0 : TileSt × BitVec 3} (f : Ident → Ident) (s : State) (hs : TSt t0 v0 s) : TSt t0 v0 (Machine.modIdent f s) := hs
theorem TSt.modRet {t0 : Nat} {v0 : TileSt × BitVec 3} (f : Retention → Retention) (s : State) (hs : TSt t0 v0 s) : TSt t0 v0 (Machine.modRet f s) := hs
theorem TSt.modDenied {t0 : Nat} {v0 : TileSt × BitVec 3} (f : Cnt32 → Cnt32) (s : State) (hs : TSt t0 v0 s) : TSt t0 v0 (Machine.modDenied f s) := hs
theorem TSt.modEvPend {t0 : Nat} {v0 : TileSt × BitVec 3} (f : Word → Word) (s : State) (hs : TSt t0 v0 s) : TSt t0 v0 (Machine.modEvPend f s) := hs
theorem TSt.modBuserr {t0 : Nat} {v0 : TileSt × BitVec 3} (f : Capture → Capture) (s : State) (hs : TSt t0 v0 s) : TSt t0 v0 (Machine.modBuserr f s) := hs
theorem TSt.modBecnt {t0 : Nat} {v0 : TileSt × BitVec 3} (f : Cnt32 → Cnt32) (s : State) (hs : TSt t0 v0 s) : TSt t0 v0 (Machine.modBecnt f s) := hs
theorem TSt.modPviol {t0 : Nat} {v0 : TileSt × BitVec 3} (f : Capture → Capture) (s : State) (hs : TSt t0 v0 s) : TSt t0 v0 (Machine.modPviol f s) := hs
theorem TSt.modPvcnt {t0 : Nat} {v0 : TileSt × BitVec 3} (f : Cnt32 → Cnt32) (s : State) (hs : TSt t0 v0 s) : TSt t0 v0 (Machine.modPvcnt f s) := hs
theorem TSt.modSent {t0 : Nat} {v0 : TileSt × BitVec 3} (f : List Req → List Req) (s : State) (hs : TSt t0 v0 s) : TSt t0 v0 (Machine.modSent f s) := hs
theorem TSt.modReqs {t0 : Nat} {v0 : TileSt × BitVec 3} (f : List Req → List Req) (s : State) (hs : TSt t0 v0 s) : TSt t0 v0 (Machine.modReqs f s) := hs
theorem TSt.modHeld {t0 : Nat} {v0 : TileSt × BitVec 3} (f : List HeldWrite → List HeldWrite) (s : State) (hs : TSt t0 v0 s) : TSt t0 v0 (Machine.modHeld f s) := hs
theorem TSt.modLatch {t0 : Nat} {v0 : TileSt × BitVec 3} (f : List Latch → List Latch) (s : State) (hs : TSt t0 v0 s) : TSt t0 v0 (Machine.modLatch f s) := hs
theorem TSt.modCe {t0 : Nat} {v0 : TileSt × BitVec 3} (c : Nat) (f : Cnt32 → Cnt32) (s : State) (hs : TSt t0 v0 s) : TSt t0 v0 (Machine.modCe c f s) := hs
theorem TSt.modNotice {t0 : Nat} {v0 : TileSt × BitVec 3} (f : Word → Word) (s : State) (hs : TSt t0 v0 s) : TSt t0 v0 (Machine.modNotice f s) := hs
theorem TSt.setAct {t0 : Nat} {v0 : TileSt × BitVec 3} (c : Content) (s : State) (hs : TSt t0 v0 s) : TSt t0 v0 (Machine.setAct c s) := hs

theorem TSt.foldl {t0 : Nat} {v0 : TileSt × BitVec 3} {s : State} {α : Type} {f : State → α → State} (l : List α) (h : TSt t0 v0 s) (hf : ∀ s a, TSt t0 v0 s → TSt t0 v0 (f s a)) :
    TSt t0 v0 (l.foldl f s) := by
  induction l generalizing s with
  | nil => exact h
  | cons a t ih => exact ih (hf s a h)
theorem TSt.eachN {t0 : Nat} {v0 : TileSt × BitVec 3} {s : State} {f : Nat → State → State} (l : List Nat) (h : TSt t0 v0 s) (hf : ∀ i s, TSt t0 v0 s → TSt t0 v0 (f i s)) : TSt t0 v0 (Machine.eachN l f s) :=
  TSt.foldl l h (fun s i hs => hf i s hs)
theorem TSt.ite {t0 : Nat} {v0 : TileSt × BitVec 3} {c : Prop} [Decidable c] {a b : State} (ha : c → TSt t0 v0 a) (hb : ¬c → TSt t0 v0 b) : TSt t0 v0 (if c then a else b) := by
  by_cases h : c
  · rw [if_pos h]; exact ha h
  · rw [if_neg h]; exact hb h
theorem TSt.idS {t0 : Nat} {v0 : TileSt × BitVec 3} {s : State} (h : TSt t0 v0 s) : TSt t0 v0 (id s) := h
theorem TSt.whenS {t0 : Nat} {v0 : TileSt × BitVec 3} {b : Bool} {f : State → State} {s : State} (h : TSt t0 v0 s) (hf : b = true → ∀ s, TSt t0 v0 s → TSt t0 v0 (f s)) : TSt t0 v0 (Machine.whenS b f s) := by
  unfold Machine.whenS
  split
  · next e => exact hf e s h
  · exact h
theorem TSt.withReq {t0 : Nat} {v0 : TileSt × BitVec 3} {id : Nat} {f : Req → State → State} {s : State} (h : TSt t0 v0 s) (hf : ∀ r s, TSt t0 v0 s → TSt t0 v0 (f r s)) : TSt t0 v0 (Machine.withReq id f s) := by
  unfold Machine.withReq
  split
  · exact hf _ s h
  · exact h

theorem TSt.emitWr {t0 : Nat} {v0 : TileSt × BitVec 3} (addr : Nat) (data : Bytes) (s : State) (h : TSt t0 v0 s) : TSt t0 v0 (Machine.emitWr addr data s) := by
  unfold Machine.emitWr
  repeat' first
    | dsimp only
    | with_reducible assumption
    | intro _
    | with_reducible apply TSt.emit
    | with_reducible apply TSt.foldl

theorem TSt.emitRd {t0 : Nat} {v0 : TileSt × BitVec 3} (addr len : Nat) (s : State) (h : TSt t0 v0 s) : TSt t0 v0 (Machine.emitRd addr len s) := by
  unfold Machine.emitRd
  repeat' first
    | dsimp only
    | with_reducible assumption
    | intro _
    | with_reducible apply TSt.emit
    | with_reducible apply TSt.foldl

theorem TSt.emitRecord {t0 : Nat} {v0 : TileSt × BitVec 3} (addr : Nat) (b : Bytes) (s : State) (h : TSt t0 v0 s) : TSt t0 v0 (Machine.emitRecord addr b s) := by
  unfold Machine.emitRecord
  repeat' first
    | dsimp only
    | with_reducible assumption
    | intro _
    | with_reducible apply TSt.emitWr

theorem TSt.raiseT {t0 : Nat} {v0 : TileSt × BitVec 3} (n e : Nat) (s : State) (h : TSt t0 v0 s) : TSt t0 v0 (Machine.raiseT n e s) := by
  unfold Machine.raiseT
  repeat' first
    | dsimp only
    | with_reducible assumption
    | intro _
    | with_reducible apply TSt.modTen

theorem TSt.raiseG {t0 : Nat} {v0 : TileSt × BitVec 3} (e : Nat) (s : State) (h : TSt t0 v0 s) : TSt t0 v0 (Machine.raiseG e s) := by
  unfold Machine.raiseG
  repeat' first
    | dsimp only
    | with_reducible assumption
    | intro _
    | with_reducible apply TSt.modEvPend

theorem TSt.violT {t0 : Nat} {v0 : TileSt × BitVec 3} (n : Nat) (addr : Nat) (d : Dir) (cause kind number tag gen : Nat) (s : State) (h : TSt t0 v0 s) : TSt t0 v0 (Machine.violT n addr d cause kind number tag gen s) := by
  unfold Machine.violT
  repeat' first
    | dsimp only
    | with_reducible assumption
    | intro _
    | with_reducible apply TSt.modTen
    | with_reducible apply TSt.raiseT
    | with_reducible refine TSt.ite ?_ ?_

theorem TSt.violP {t0 : Nat} {v0 : TileSt × BitVec 3} (addr : Nat) (d : Dir) (cause kind number tag gen : Nat) (s : State) (h : TSt t0 v0 s) : TSt t0 v0 (Machine.violP addr d cause kind number tag gen s) := by
  unfold Machine.violP
  repeat' first
    | dsimp only
    | with_reducible assumption
    | intro _
    | with_reducible apply TSt.modPvcnt
    | with_reducible apply TSt.modPviol
    | with_reducible apply TSt.raiseG
    | with_reducible refine TSt.ite ?_ ?_

theorem TSt.viol {t0 : Nat} {v0 : TileSt × BitVec 3} (t : Option TenantIx) (addr : Nat) (d : Dir) (cause kind number tag gen : Nat) (s : State) (h : TSt t0 v0 s) : TSt t0 v0 (Machine.viol t addr d cause kind number tag gen s) := by
  unfold Machine.viol
  repeat' first
    | dsimp only
    | with_reducible assumption
    | intro _
    | with_reducible apply TSt.violP
    | with_reducible apply TSt.violT
    | with_reducible refine TSt.ite ?_ ?_
    | split

theorem TSt.jrnLose {t0 : Nat} {v0 : TileSt × BitVec 3} (s : State) (h : TSt t0 v0 s) : TSt t0 v0 (Machine.jrnLose s) := by
  unfold Machine.jrnLose
  repeat' first
    | dsimp only
    | with_reducible assumption
    | intro _
    | with_reducible apply TSt.modJrn
    | with_reducible apply TSt.raiseG

theorem TSt.jrnNlose {t0 : Nat} {v0 : TileSt × BitVec 3} (s : State) (h : TSt t0 v0 s) : TSt t0 v0 (Machine.jrnNlose s) := by
  unfold Machine.jrnNlose
  repeat' first
    | dsimp only
    | with_reducible assumption
    | intro _
    | with_reducible apply TSt.modJrn

theorem TSt.jrnPush {t0 : Nat} {v0 : TileSt × BitVec 3} (rec : List (BitVec 32)) (s : State) (h : TSt t0 v0 s) : TSt t0 v0 (Machine.jrnPush rec s) := by
  unfold Machine.jrnPush
  repeat' first
    | dsimp only
    | with_reducible assumption
    | intro _
    | with_reducible apply TSt.modJrn
    | with_reducible apply TSt.raiseG
    | with_reducible refine TSt.ite ?_ ?_

theorem TSt.jrnMakeRoom {t0 : Nat} {v0 : TileSt × BitVec 3} (need : Nat) (x : Nat) (s : State) (h : TSt t0 v0 s) : TSt t0 v0 (Machine.jrnMakeRoom need x s) := by
  induction x generalizing s with
  | zero => exact h
  | succ n ih =>
    unfold Machine.jrnMakeRoom
    repeat' first
      | dsimp only
      | with_reducible assumption
      | intro _
      | with_reducible apply TSt.jrnLose
      | with_reducible apply TSt.modJrn
      | with_reducible refine TSt.ite ?_ ?_
      | split
      | rfl
      | exact hes
      | (simp_all; done)
      | with_reducible apply ih

theorem TSt.noticeFault {t0 : Nat} {v0 : TileSt × BitVec 3} (s : State) (h : TSt t0 v0 s) : TSt t0 v0 (Machine.noticeFault s) := by
  unfold Machine.noticeFault
  repeat' first
    | dsimp only
    | with_reducible assumption
    | intro _
    | with_reducible apply TSt.modNotice
    | with_reducible apply TSt.raiseG

theorem TSt.notice {t0 : Nat} {v0 : TileSt × BitVec 3} (rec : List (BitVec 32)) (s : State) (h : TSt t0 v0 s) : TSt t0 v0 (Machine.notice rec s) := by
  unfold Machine.notice
  repeat' first
    | dsimp only
    | with_reducible assumption
    | intro _
    | with_reducible apply TSt.emitRecord
    | with_reducible apply TSt.jrnNlose
    | with_reducible apply TSt.modJrn
    | with_reducible apply TSt.noticeFault
    | with_reducible apply TSt.violP
    | with_reducible refine TSt.ite ?_ ?_
    | split

theorem TSt.jrnOpen {t0 : Nat} {v0 : TileSt × BitVec 3} (bad : Bool) (s : State) (h : TSt t0 v0 s) : TSt t0 v0 (Machine.jrnOpen bad s) := by
  unfold Machine.jrnOpen
  repeat' first
    | dsimp only
    | with_reducible assumption
    | intro _
    | with_reducible apply TSt.modJrn
    | with_reducible refine TSt.ite ?_ ?_
    | split

theorem TSt.jrnDeliver {t0 : Nat} {v0 : TileSt × BitVec 3} (who : Who) (size : AccSize) (bad : Bool) (s : State) (h : TSt t0 v0 s) : TSt t0 v0 (Machine.jrnDeliver who size bad s) := by
  unfold Machine.jrnDeliver
  repeat' first
    | dsimp only
    | with_reducible assumption
    | intro _
    | with_reducible apply TSt.emit
    | with_reducible apply TSt.jrnOpen
    | with_reducible apply TSt.modJrn
    | with_reducible refine TSt.ite ?_ ?_
    | split

theorem TSt.jrnServe {t0 : Nat} {v0 : TileSt × BitVec 3}  (x : List (Who × AccSize)) (s : State) (h : TSt t0 v0 s) : TSt t0 v0 (Machine.jrnServe x s) := by
  induction x generalizing s with
  | nil => exact h
  | cons a l ih =>
    try obtain ⟨_, _⟩ := a
    unfold Machine.jrnServe
    repeat' first
      | dsimp only
      | with_reducible assumption
      | intro _
      | with_reducible apply TSt.jrnDeliver
      | with_reducible apply TSt.modJrn
      | with_reducible refine TSt.ite ?_ ?_
      | split
      | rfl
      | exact hes
      | with_reducible apply ih

theorem TSt.jrnStore {t0 : Nat} {v0 : TileSt × BitVec 3} (rec : List (BitVec 32)) (s : State) (h : TSt t0 v0 s) : TSt t0 v0 (Machine.jrnStore rec s) := by
  unfold Machine.jrnStore
  repeat' first
    | dsimp only
    | with_reducible assumption
    | intro _
    | with_reducible apply TSt.jrnPush
    | with_reducible apply TSt.jrnServe
    | with_reducible apply TSt.notice

theorem TSt.journal {t0 : Nat} {v0 : TileSt × BitVec 3} (type origin : Nat) (payload : List Nat) (s : State) (h : TSt t0 v0 s) : TSt t0 v0 (Machine.journal type origin payload s) := by
  unfold Machine.journal
  repeat' first
    | dsimp only
    | with_reducible assumption
    | intro _
    | with_reducible apply TSt.jrnLose
    | with_reducible apply TSt.jrnMakeRoom
    | with_reducible apply TSt.jrnStore
    | with_reducible apply TSt.modJrn
    | with_reducible refine TSt.ite ?_ ?_

theorem TSt.sendFrame {t0 : Nat} {v0 : TileSt × BitVec 3} (type dst : Nat) (payload : Bytes) (s : State) (h : TSt t0 v0 s) : TSt t0 v0 (Machine.sendFrame type dst payload s) := by
  unfold Machine.sendFrame
  repeat' first
    | dsimp only
    | with_reducible assumption
    | intro _
    | with_reducible apply TSt.emit
    | with_reducible apply TSt.modCrs

theorem TSt.modOp {t0 : Nat} {v0 : TileSt × BitVec 3} (id i : Nat) (f : OpSt → OpSt) (s : State) (h : TSt t0 v0 s) : TSt t0 v0 (Machine.modOp id i f s) := by
  unfold Machine.modOp
  repeat' first
    | dsimp only
    | with_reducible assumption
    | intro _
    | with_reducible apply TSt.modReq

theorem TSt.modBuf {t0 : Nat} {v0 : TileSt × BitVec 3} (id b : Nat) (f : BufSt → BufSt) (s : State) (h : TSt t0 v0 s) : TSt t0 v0 (Machine.modBuf id b f s) := by
  unfold Machine.modBuf
  repeat' first
    | dsimp only
    | with_reducible assumption
    | intro _
    | with_reducible apply TSt.modReq

theorem TSt.reqViol {t0 : Nat} {v0 : TileSt × BitVec 3} (r : Req) (addr : Nat) (d : Dir) (cause : Nat) (s : State) (h : TSt t0 v0 s) : TSt t0 v0 (Machine.reqViol r addr d cause s) := by
  unfold Machine.reqViol
  repeat' first
    | dsimp only
    | with_reducible assumption
    | intro _
    | with_reducible apply TSt.viol

theorem TSt.freeTiles {t0 : Nat} {v0 : TileSt × BitVec 3} (id : Nat) (s : State) (h : TSt t0 v0 s) : TSt t0 v0 (Machine.freeTiles id s) := by
  unfold Machine.freeTiles
  repeat' first
    | dsimp only
    | with_reducible assumption
    | intro _
    | with_reducible apply TSt.eachN
    | with_reducible refine TSt.modTile _ _ ?_ ?_
    | with_reducible apply TSt.idS
    | with_reducible refine TSt.ite ?_ ?_
    | split
    | rfl
    | exact hes
    | (rename_i hh; obtain ⟨ha, hb⟩ := hh; refine ⟨?_, ?_⟩ <;> first | linear_combination ha | linear_combination hb)
    | (simp_all; done)

theorem TSt.dropWork {t0 : Nat} {v0 : TileSt × BitVec 3} (aim : Purpose) (s : State) (h : TSt t0 v0 s) : TSt t0 v0 (Machine.dropWork aim s) := by
  unfold Machine.dropWork
  repeat' first
    | dsimp only
    | with_reducible assumption
    | intro _
    | with_reducible apply TSt.foldl
    | with_reducible apply TSt.freeTiles
    | with_reducible apply TSt.modSch
    | with_reducible refine TSt.ite ?_ ?_
    | split

theorem TSt.unclaim {t0 : Nat} {v0 : TileSt × BitVec 3} (x : Nat) (s : State) (h : TSt t0 v0 s) : TSt t0 v0 (Machine.unclaim x s) := by
  unfold Machine.unclaim
  repeat' first
    | dsimp only
    | with_reducible assumption
    | intro _
    | with_reducible apply TSt.dropWork
    | with_reducible apply TSt.modKs
    | with_reducible apply TSt.modSlot
    | with_reducible refine TSt.ite ?_ ?_
    | split

theorem TSt.closeStream {t0 : Nat} {v0 : TileSt × BitVec 3} (ix : Nat) (s : State) (h : TSt t0 v0 s) : TSt t0 v0 (Machine.closeStream ix s) := by
  unfold Machine.closeStream
  repeat' first
    | dsimp only
    | with_reducible assumption
    | intro _
    | with_reducible apply TSt.setStream
    | with_reducible refine TSt.ite ?_ ?_
    | split

theorem TSt.issueJob {t0 : Nat} {v0 : TileSt × BitVec 3} (kind : Nat) (work : JobWork) (s : State) (h : TSt t0 v0 s) : TSt t0 v0 (Machine.issueJob kind work s) := by
  unfold Machine.issueJob
  repeat' first
    | dsimp only
    | with_reducible assumption
    | intro _
    | with_reducible apply TSt.modSch
    | with_reducible refine TSt.ite ?_ ?_
    | split

theorem TSt.prepareBank {t0 : Nat} {v0 : TileSt × BitVec 3} (x : Nat) (s : State) (h : TSt t0 v0 s) : TSt t0 v0 (Machine.prepareBank x s) := by
  unfold Machine.prepareBank
  repeat' first
    | dsimp only
    | with_reducible assumption
    | intro _
    | with_reducible apply TSt.issueJob
    | with_reducible refine TSt.ite ?_ ?_
    | split

theorem TSt.beginVerify {t0 : Nat} {v0 : TileSt × BitVec 3} (x : Nat) (s : State) (h : TSt t0 v0 s) : TSt t0 v0 (Machine.beginVerify x s) := by
  unfold Machine.beginVerify
  repeat' first
    | dsimp only
    | with_reducible assumption
    | intro _
    | with_reducible apply TSt.modKs
    | with_reducible apply TSt.modSlot
    | with_reducible apply TSt.prepareBank
    | with_reducible refine TSt.ite ?_ ?_
    | split

theorem TSt.endStreams {t0 : Nat} {v0 : TileSt × BitVec 3} (r : Req) (o : Outcome) (s : State) (h : TSt t0 v0 s) : TSt t0 v0 (Machine.endStreams r o s) := by
  unfold Machine.endStreams
  repeat' first
    | dsimp only
    | with_reducible assumption
    | intro _
    | with_reducible apply TSt.closeStream
    | with_reducible apply TSt.eachN
    | with_reducible apply TSt.setStream
    | with_reducible refine TSt.ite ?_ ?_
    | split

theorem TSt.dropStreams {t0 : Nat} {v0 : TileSt × BitVec 3} (r : Req) (o : Outcome) (s : State) (h : TSt t0 v0 s) : TSt t0 v0 (Machine.dropStreams r o s) := by
  unfold Machine.dropStreams
  repeat' first
    | dsimp only
    | with_reducible assumption
    | intro _
    | with_reducible apply TSt.closeStream
    | with_reducible apply TSt.foldl
    | with_reducible refine TSt.ite ?_ ?_
    | split

theorem TSt.scrubSeg {t0 : Nat} {v0 : TileSt × BitVec 3} (r : Req) (a len : Nat) (s : State) (h : TSt t0 v0 s) : TSt t0 v0 (Machine.scrubSeg r a len s) := by
  unfold Machine.scrubSeg
  repeat' first
    | dsimp only
    | with_reducible assumption
    | intro _
    | with_reducible apply TSt.emitWr
    | with_reducible apply TSt.modReq
    | with_reducible apply TSt.reqViol
    | with_reducible refine TSt.ite ?_ ?_
    | split

theorem TSt.scrubAll {t0 : Nat} {v0 : TileSt × BitVec 3} (r : Req) (s : State) (h : TSt t0 v0 s) : TSt t0 v0 (Machine.scrubAll r s) := by
  unfold Machine.scrubAll
  repeat' first
    | dsimp only
    | with_reducible assumption
    | intro _
    | with_reducible apply TSt.eachN
    | with_reducible apply TSt.emit
    | with_reducible apply TSt.foldl
    | with_reducible apply TSt.scrubSeg
    | with_reducible refine TSt.ite ?_ ?_
    | split

theorem TSt.fencePort {t0 : Nat} {v0 : TileSt × BitVec 3} (id : Nat) (port : Bool) (s : State) (h : TSt t0 v0 s) : TSt t0 v0 (Machine.fencePort id port s) := by
  unfold Machine.fencePort
  repeat' first
    | dsimp only
    | with_reducible assumption
    | intro _
    | with_reducible apply TSt.emitRd
    | with_reducible apply TSt.modReq
    | with_reducible apply TSt.reqViol
    | with_reducible apply TSt.idS
    | with_reducible refine TSt.ite ?_ ?_
    | split

theorem TSt.fenceFrame {t0 : Nat} {v0 : TileSt × BitVec 3} (r : Req) (s : State) (h : TSt t0 v0 s) : TSt t0 v0 (Machine.fenceFrame r s) := by
  unfold Machine.fenceFrame
  repeat' first
    | dsimp only
    | with_reducible assumption
    | intro _
    | with_reducible apply TSt.eachN
    | with_reducible apply TSt.emit
    | with_reducible apply TSt.modBuf
    | with_reducible refine TSt.ite ?_ ?_
    | split

theorem TSt.endChain {t0 : Nat} {v0 : TileSt × BitVec 3} (id : Nat) (o : Outcome) (s : State) (h : TSt t0 v0 s) : TSt t0 v0 (Machine.endChain id o s) := by
  unfold Machine.endChain
  repeat' first
    | dsimp only
    | with_reducible assumption
    | intro _
    | with_reducible apply TSt.beginVerify
    | with_reducible apply TSt.dropStreams
    | with_reducible apply TSt.eachN
    | with_reducible apply TSt.endStreams
    | with_reducible apply TSt.fenceFrame
    | with_reducible apply TSt.fencePort
    | with_reducible apply TSt.freeTiles
    | with_reducible apply TSt.modFp
    | with_reducible apply TSt.modReq
    | with_reducible apply TSt.modSch
    | with_reducible apply TSt.scrubAll
    | with_reducible apply TSt.unclaim
    | with_reducible refine TSt.ite ?_ ?_
    | split

theorem TSt.endDone {t0 : Nat} {v0 : TileSt × BitVec 3} (id : Nat) (s : State) (h : TSt t0 v0 s) : TSt t0 v0 (Machine.endDone id s) := by
  unfold Machine.endDone
  repeat' first
    | dsimp only
    | with_reducible assumption
    | intro _
    | with_reducible apply TSt.endChain
    | with_reducible refine TSt.ite ?_ ?_
    | split

theorem TSt.issueRange {t0 : Nat} {v0 : TileSt × BitVec 3} (id b a l : Nat) (s : State) (h : TSt t0 v0 s) : TSt t0 v0 (Machine.issueRange id b a l s) := by
  unfold Machine.issueRange
  repeat' first
    | dsimp only
    | with_reducible assumption
    | intro _
    | with_reducible apply TSt.emitRd
    | with_reducible apply TSt.modBuf
    | with_reducible apply TSt.reqViol
    | with_reducible apply TSt.idS
    | with_reducible refine TSt.ite ?_ ?_
    | split

theorem TSt.askElem {t0 : Nat} {v0 : TileSt × BitVec 3} (id b : Nat) (short : Fail) (s : State) (h : TSt t0 v0 s) : TSt t0 v0 (Machine.askElem id b short s) := by
  unfold Machine.askElem
  repeat' first
    | dsimp only
    | with_reducible assumption
    | intro _
    | with_reducible apply TSt.emitRd
    | with_reducible apply TSt.modBuf
    | with_reducible apply TSt.reqViol
    | with_reducible apply TSt.idS
    | with_reducible refine TSt.ite ?_ ?_
    | split

theorem TSt.startBuf {t0 : Nat} {v0 : TileSt × BitVec 3} (id b : Nat) (s : State) (h : TSt t0 v0 s) : TSt t0 v0 (Machine.startBuf id b s) := by
  unfold Machine.startBuf
  repeat' first
    | dsimp only
    | with_reducible assumption
    | intro _
    | with_reducible apply TSt.askElem
    | with_reducible apply TSt.emit
    | with_reducible apply TSt.issueRange
    | with_reducible apply TSt.modBuf
    | with_reducible apply TSt.modReq
    | with_reducible refine TSt.ite ?_ ?_
    | split

theorem TSt.startBufs {t0 : Nat} {v0 : TileSt × BitVec 3} (id : Nat) (s : State) (h : TSt t0 v0 s) : TSt t0 v0 (Machine.startBufs id s) := by
  unfold Machine.startBufs
  repeat' first
    | dsimp only
    | with_reducible assumption
    | intro _
    | with_reducible apply TSt.eachN
    | with_reducible apply TSt.startBuf
    | with_reducible apply TSt.idS
    | with_reducible refine TSt.ite ?_ ?_
    | split

theorem TSt.reqWrote {t0 : Nat} {v0 : TileSt × BitVec 3} (id b a off len : Nat) (s : State) (h : TSt t0 v0 s) : TSt t0 v0 (Machine.reqWrote id b a off len s) := by
  unfold Machine.reqWrote
  repeat' first
    | dsimp only
    | with_reducible assumption
    | intro _
    | with_reducible apply TSt.modReq
    | with_reducible refine TSt.ite ?_ ?_
    | split

theorem TSt.writeSegs {t0 : Nat} {v0 : TileSt × BitVec 3} (id b : Nat) (data : Bytes) (x : List (Nat × Nat × Nat)) (s : State) (h : TSt t0 v0 s) : TSt t0 v0 (Machine.writeSegs id b data x s).1 := by
  induction x generalizing s with
  | nil => exact h
  | cons a l ih =>
    try obtain ⟨_, _, _⟩ := a
    unfold Machine.writeSegs
    repeat' first
      | dsimp only
      | with_reducible assumption
      | intro _
      | with_reducible apply TSt.emitWr
      | with_reducible apply TSt.modBuf
      | with_reducible apply TSt.reqViol
      | with_reducible apply TSt.reqWrote
      | with_reducible apply TSt.idS
      | with_reducible refine TSt.ite ?_ ?_
      | split
      | rfl
      | exact hes
      | (simp_all; done)
      | with_reducible apply ih

theorem TSt.writeSegs_eq {t0 : Nat} {v0 : TileSt × BitVec 3} {id b : Nat} {data : Bytes} {x : List (Nat × Nat × Nat)} {s : State} {y : Option Nat} {t : State} (e : Machine.writeSegs id b data x s = (t, y)) (h : TSt t0 v0 s) : TSt t0 v0 t := by
  have := TSt.writeSegs id b data x s h
  rwa [e] at this

theorem TSt.writeOut {t0 : Nat} {v0 : TileSt × BitVec 3} (r : Req) (i n : Nat) (s : State) (h : TSt t0 v0 s) : TSt t0 v0 (Machine.writeOut r i n s).1 := by
  unfold Machine.writeOut
  repeat' first
    | dsimp only
    | with_reducible assumption
    | intro _
    | with_reducible apply TSt.reqViol
    | with_reducible apply TSt.writeSegs
    | with_reducible refine TSt.writeSegs_eq (by assumption) ?_
    | with_reducible refine TSt.ite ?_ ?_
    | split

theorem TSt.writeOut_eq {t0 : Nat} {v0 : TileSt × BitVec 3} {r : Req} {i n : Nat} {s : State} {y : Option Nat} {t : State} (e : Machine.writeOut r i n s = (t, y)) (h : TSt t0 v0 s) : TSt t0 v0 t := by
  have := TSt.writeOut r i n s h
  rwa [e] at this

theorem TSt.flushOp {t0 : Nat} {v0 : TileSt × BitVec 3} (id i : Nat) (s : State) (h : TSt t0 v0 s) : TSt t0 v0 (Machine.flushOp id i s).1 := by
  unfold Machine.flushOp
  repeat' first
    | dsimp only
    | with_reducible assumption
    | intro _
    | with_reducible apply TSt.askElem
    | with_reducible apply TSt.emit
    | with_reducible apply TSt.modBuf
    | with_reducible apply TSt.modOp
    | with_reducible apply TSt.modReq
    | with_reducible refine TSt.writeOut_eq (by assumption) ?_
    | with_reducible apply TSt.writeOut
    | with_reducible refine TSt.ite ?_ ?_
    | split

theorem TSt.flushOp_eq {t0 : Nat} {v0 : TileSt × BitVec 3} {id i : Nat} {s : State} {y : Option Fail} {t : State} (e : Machine.flushOp id i s = (t, y)) (h : TSt t0 v0 s) : TSt t0 v0 t := by
  have := TSt.flushOp id i s h
  rwa [e] at this

theorem TSt.receiveKey {t0 : Nat} {v0 : TileSt × BitVec 3} (id i : Nat) (s : State) (h : TSt t0 v0 s) : TSt t0 v0 (Machine.receiveKey id i s).1 := by
  unfold Machine.receiveKey
  repeat' first
    | dsimp only
    | with_reducible assumption
    | intro _
    | with_reducible apply TSt.modOp
    | with_reducible refine TSt.ite ?_ ?_
    | split

theorem TSt.receiveKey_eq {t0 : Nat} {v0 : TileSt × BitVec 3} {id i : Nat} {s : State} {y : Option Fail} {t : State} (e : Machine.receiveKey id i s = (t, y)) (h : TSt t0 v0 s) : TSt t0 v0 t := by
  have := TSt.receiveKey id i s h
  rwa [e] at this

theorem TSt.pairRecord {t0 : Nat} {v0 : TileSt × BitVec 3} (r : Req) (o : OpSt) (voter outcome : Nat) (s : State) (h : TSt t0 v0 s) : TSt t0 v0 (Machine.pairRecord r o voter outcome s) := by
  unfold Machine.pairRecord
  repeat' first
    | dsimp only
    | with_reducible assumption
    | intro _
    | with_reducible apply TSt.journal

theorem TSt.settleOp {t0 : Nat} {v0 : TileSt × BitVec 3} (id i : Nat) (s : State) (h : TSt t0 v0 s) : TSt t0 v0 (Machine.settleOp id i s).1 := by
  unfold Machine.settleOp
  repeat' first
    | dsimp only
    | with_reducible assumption
    | intro _
    | with_reducible refine TSt.flushOp_eq (by assumption) ?_
    | with_reducible apply TSt.flushOp
    | with_reducible apply TSt.modOp
    | with_reducible apply TSt.pairRecord
    | with_reducible refine TSt.receiveKey_eq (by assumption) ?_
    | with_reducible apply TSt.receiveKey
    | with_reducible refine TSt.ite ?_ ?_
    | split

theorem TSt.settleOp_eq {t0 : Nat} {v0 : TileSt × BitVec 3} {id i : Nat} {s : State} {y : Option Fail} {t : State} (e : Machine.settleOp id i s = (t, y)) (h : TSt t0 v0 s) : TSt t0 v0 t := by
  have := TSt.settleOp id i s h
  rwa [e] at this

theorem TSt.settleOps {t0 : Nat} {v0 : TileSt × BitVec 3} (id : Nat) (x : List Nat) (s : State) (h : TSt t0 v0 s) : TSt t0 v0 (Machine.settleOps id x s).1 := by
  induction x generalizing s with
  | nil => exact h
  | cons a l ih =>
    unfold Machine.settleOps
    repeat' first
      | dsimp only
      | with_reducible assumption
      | intro _
      | with_reducible refine TSt.settleOp_eq (by assumption) ?_
      | with_reducible apply TSt.settleOp
      | with_reducible apply TSt.idS
      | with_reducible refine TSt.ite ?_ ?_
      | split
      | rfl
      | exact hes
      | with_reducible apply ih

theorem TSt.settleOps_eq {t0 : Nat} {v0 : TileSt × BitVec 3} {id : Nat} {x : List Nat} {s : State} {y : Option Outcome} {t : State} (e : Machine.settleOps id x s = (t, y)) (h : TSt t0 v0 s) : TSt t0 v0 t := by
  have := TSt.settleOps id x s h
  rwa [e] at this

theorem TSt.settle {t0 : Nat} {v0 : TileSt × BitVec 3} (id : Nat) (s : State) (h : TSt t0 v0 s) : TSt t0 v0 (Machine.settle id s) := by
  unfold Machine.settle
  repeat' first
    | dsimp only
    | with_reducible assumption
    | intro _
    | with_reducible apply TSt.endChain
    | with_reducible apply TSt.endDone
    | with_reducible apply TSt.settleOps
    | with_reducible refine TSt.settleOps_eq (by assumption) ?_
    | with_reducible apply TSt.startBufs
    | with_reducible refine TSt.ite ?_ ?_
    | split

theorem TSt.settleAll {t0 : Nat} {v0 : TileSt × BitVec 3} (s : State) (h : TSt t0 v0 s) : TSt t0 v0 (Machine.settleAll s) := by
  unfold Machine.settleAll
  repeat' first
    | dsimp only
    | with_reducible assumption
    | intro _
    | with_reducible apply TSt.settle
    | with_reducible apply TSt.foldl

theorem TSt.dropHold {t0 : Nat} {v0 : TileSt × BitVec 3} (k : Nat) (p : Nat × Nat) (s : State) (h : TSt t0 v0 s) : TSt t0 v0 (Machine.dropHold k p s) := by
  unfold Machine.dropHold
  repeat' first
    | dsimp only
    | with_reducible assumption
    | intro _
    | with_reducible apply TSt.eachN
    | with_reducible refine TSt.modTile _ _ ?_ ?_
    | with_reducible refine TSt.ite ?_ ?_
    | split
    | exact ⟨rfl, rfl⟩

theorem TSt.runBank {t0 : Nat} {v0 : TileSt × BitVec 3} (t : Nat) (p : Nat × Nat) (s : State) (h : TSt t0 v0 s) : TSt t0 v0 (Machine.runBank t p s) := by
  unfold Machine.runBank
  repeat' first
    | dsimp only
    | with_reducible assumption
    | intro _
    | with_reducible apply TSt.eachN
    | with_reducible apply TSt.modOp
    | with_reducible refine TSt.modTile _ _ ?_ ?_
    | with_reducible refine TSt.ite ?_ ?_
    | split
    | exact ⟨rfl, rfl⟩

theorem TSt.wakeBank {t0 : Nat} {v0 : TileSt × BitVec 3} (t : Nat) (s : State) (h : TSt t0 v0 s) : TSt t0 v0 (Machine.wakeBank t s) := by
  unfold Machine.wakeBank
  repeat' first
    | dsimp only
    | with_reducible assumption
    | intro _
    | with_reducible apply TSt.runBank
    | with_reducible refine TSt.ite ?_ ?_
    | split
    | rfl
    | exact hes
    | (rename_i hh; obtain ⟨ha, hb⟩ := hh; refine ⟨?_, ?_⟩ <;> first | linear_combination ha | linear_combination hb)
    | (simp_all; done)

theorem TSt.releaseOp {t0 : Nat} {v0 : TileSt × BitVec 3} (id i : Nat) (s : State) (h : TSt t0 v0 s) : TSt t0 v0 (Machine.releaseOp id i s) := by
  unfold Machine.releaseOp
  repeat' first
    | dsimp only
    | with_reducible assumption
    | intro _
    | with_reducible apply TSt.eachN
    | with_reducible refine TSt.modTile _ _ ?_ ?_
    | with_reducible apply TSt.wakeBank
    | with_reducible apply TSt.idS
    | with_reducible refine TSt.ite ?_ ?_
    | split
    | rfl
    | exact hes
    | (rename_i hh; obtain ⟨ha, hb⟩ := hh; refine ⟨?_, ?_⟩ <;> first | linear_combination ha | linear_combination hb)
    | (simp_all; done)

theorem TSt.rerunOp {t0 : Nat} {v0 : TileSt × BitVec 3} (id i : Nat) (s : State) (h : TSt t0 v0 s) : TSt t0 v0 (Machine.rerunOp id i s) := by
  unfold Machine.rerunOp
  repeat' first
    | dsimp only
    | with_reducible assumption
    | intro _
    | with_reducible apply TSt.modBuf
    | with_reducible apply TSt.modOp
    | with_reducible apply TSt.releaseOp
    | with_reducible apply TSt.setStream
    | with_reducible refine TSt.ite ?_ ?_
    | split

theorem TSt.rerunFrom {t0 : Nat} {v0 : TileSt × BitVec 3} (id i : Nat) (s : State) (h : TSt t0 v0 s) : TSt t0 v0 (Machine.rerunFrom id i s) := by
  unfold Machine.rerunFrom
  repeat' first
    | dsimp only
    | with_reducible assumption
    | intro _
    | with_reducible apply TSt.eachN
    | with_reducible apply TSt.endChain
    | with_reducible apply TSt.rerunOp
    | with_reducible refine TSt.ite ?_ ?_
    | split

theorem TSt.loseOp {t0 : Nat} {v0 : TileSt × BitVec 3} (id i : Nat) (s : State) (h : TSt t0 v0 s) : TSt t0 v0 (Machine.loseOp id i s) := by
  unfold Machine.loseOp
  repeat' first
    | dsimp only
    | with_reducible assumption
    | intro _
    | with_reducible apply TSt.endChain
    | with_reducible apply TSt.rerunFrom
    | with_reducible apply TSt.settle
    | with_reducible refine TSt.ite ?_ ?_
    | split

theorem TSt.streamTo {t0 : Nat} {v0 : TileSt × BitVec 3} (p : Nat × Nat) (x : Nat) (s : State) (h : TSt t0 v0 s) : TSt t0 v0 (Machine.streamTo p x s) := by
  unfold Machine.streamTo
  repeat' first
    | dsimp only
    | with_reducible assumption
    | intro _
    | with_reducible apply TSt.setStream
    | with_reducible refine TSt.ite ?_ ?_
    | split

theorem TSt.shiftSaved {t0 : Nat} {v0 : TileSt × BitVec 3} (t x : Nat) (p : Nat × Nat) (s : State) (h : TSt t0 v0 s) : TSt t0 v0 (Machine.shiftSaved t x p s) := by
  unfold Machine.shiftSaved
  repeat' first
    | dsimp only
    | with_reducible assumption
    | intro _
    | with_reducible apply TSt.modOp
    | with_reducible refine TSt.modTile _ _ ?_ ?_
    | with_reducible apply TSt.streamTo
    | with_reducible refine TSt.ite ?_ ?_
    | split
    | rfl
    | exact hes
    | (rename_i hh; obtain ⟨ha, hb⟩ := hh; refine ⟨?_, ?_⟩ <;> first | linear_combination ha | linear_combination hb)
    | (simp_all; done)

theorem TSt.moveSaved {t0 : Nat} {v0 : TileSt × BitVec 3} (t : Nat) (move : Bool) (p : Nat × Nat) (s0 : State) (h : TSt t0 v0 s0) : TSt t0 v0 (Machine.moveSaved t move p s0) := by
  unfold Machine.moveSaved
  repeat' first
    | dsimp only
    | with_reducible assumption
    | intro _
    | with_reducible apply TSt.dropHold
    | with_reducible apply TSt.endChain
    | with_reducible apply TSt.foldl
    | with_reducible apply TSt.loseOp
    | with_reducible apply TSt.nextFree
    | with_reducible apply TSt.shiftSaved
    | with_reducible refine TSt.ite ?_ ?_
    | split

theorem TSt.moveParked {t0 : Nat} {v0 : TileSt × BitVec 3} (t : Nat) (move : Bool) (s : State) (h : TSt t0 v0 s) : TSt t0 v0 (Machine.moveParked t move s) := by
  unfold Machine.moveParked
  repeat' first
    | dsimp only
    | with_reducible assumption
    | intro _
    | with_reducible apply TSt.eachN
    | with_reducible apply TSt.nextFree
    | with_reducible apply TSt.setStream
    | with_reducible refine TSt.ite ?_ ?_
    | split

theorem TSt.unforward {t0 : Nat} {v0 : TileSt × BitVec 3} (id : Nat) (s : State) (h : TSt t0 v0 s) : TSt t0 v0 (Machine.unforward id s) := by
  unfold Machine.unforward
  repeat' first
    | dsimp only
    | with_reducible assumption
    | intro _
    | with_reducible apply TSt.modCrs
    | with_reducible apply TSt.modReq

theorem TSt.stopReq {t0 : Nat} {v0 : TileSt × BitVec 3} (id : Nat) (o : Outcome) (s : State) (h : TSt t0 v0 s) : TSt t0 v0 (Machine.stopReq id o s) := by
  unfold Machine.stopReq
  repeat' first
    | dsimp only
    | with_reducible assumption
    | intro _
    | with_reducible apply TSt.endChain
    | with_reducible apply TSt.sendFrame
    | with_reducible apply TSt.unforward
    | with_reducible apply TSt.idS
    | with_reducible refine TSt.ite ?_ ?_
    | split

end Sys2Proof.Machine
end

