-- ==== Sys2Proof/Laws/Keep.lean ====
section
/-!
SUPPORT. The invariant of Safety.lean under the accessors: which updates keep it, and what an update of the counters must satisfy. One
lemma per shared operation follows in the Keep files, named Ok.<operation>: it keeps the invariant and leaves the queue alone.
-/

set_option Elab.async false

namespace Sys2Proof.Machine

/-- The invariant holds, and the queue is the given one. -/
structure Ok (q : List Instr) (s : State) : Prop where
  inv : Inv s
  pend : s.pending = q

theorem ten_modTen (n k : Nat) (f) (s : State) : (modTen n f s).ten k = if k = n then f (s.ten n) else s.ten k := by
  unfold modTen State.ten
  by_cases h : k = n
  · subst h; simp [look_put_same]
  · simp [h, look_put_ne]

theorem sq_modSq (n m a b : Nat) (f) (s : State) : (modSq n m f s).sq a b = if rix a b = rix n m then f (s.sq n m) else s.sq a b := by
  unfold modSq State.sq
  by_cases h : rix a b = rix n m
  · simp [h, look_put_same]
  · simp [h, look_put_ne]

theorem foldl_congr' {α β} (l : List α) (f g : β → α → β) (b : β) (h : ∀ b a, a ∈ l → f b a = g b a) : l.foldl f b = l.foldl g b := by
  induction l generalizing b with
  | nil => rfl
  | cons a t ih =>
    simp only [List.foldl_cons]
    rw [h b a (by simp), ih]
    intro b a ha; exact h b a (by simp [ha])

theorem queuedOf_congr {s t : State} {n : Nat} (h : ∀ m, m < 16 → (t.sq n m).queued = (s.sq n m).queued) : queuedOf t n = queuedOf s n := by
  unfold queuedOf
  apply foldl_congr'
  intro b a ha
  rw [h a (by simpa using ha)]

theorem TenOk.congr {s t : State} {n : Nat} (h : TenOk s n) (hl : (t.ten n).led = (s.ten n).led) (hf : (t.ten n).fp = (s.ten n).fp)
    (hr : (t.ten n).inReset = true → (s.ten n).inReset = true)
    (hq : ∀ m, m < 16 → (t.sq n m).queued = (s.sq n m).queued) : TenOk t n := by
  refine ⟨?_, ?_, ?_⟩
  · rw [hl, queuedOf_congr hq]; exact h.1
  · rw [hf]; exact h.2.1
  · intro hi m hm; rw [hq m hm]; exact h.2.2 (hr hi) m hm

theorem Ok.congr {q} {s t : State} (h : Ok q s) (h1 : t.pending = s.pending := by rfl) (h2 : t.tens = s.tens := by rfl) (h3 : t.sqs = s.sqs := by rfl)
    (h4 : t.crs.cnt = s.crs.cnt := by rfl) (h5 : t.boot.admitted = s.boot.admitted := by rfl) (h6 : t.boot.completed = s.boot.completed := by rfl)
    (h7 : t.boot.inflight = s.boot.inflight := by rfl) (h8 : t.jrn.recs = s.jrn.recs := by rfl) (h9 : t.jrn.reading = s.jrn.reading := by rfl)
    (h10 : t.fp.loans = s.fp.loans := by rfl) (h11 : t.es.pool = s.es.pool := by rfl) : Ok q t := by
  refine ⟨⟨?_, ?_, ?_, ?_, ?_, ?_⟩, ?_⟩
  · intro n hn
    apply (h.inv.ten n hn).congr
    · simp [State.ten, h2]
    · simp [State.ten, h2]
    · simp [State.ten, h2]
    · intro m _; simp [State.sq, h3]
  · rw [h4]; exact h.inv.crs
  · rw [h5, h6, h7]; exact h.inv.boot
  · have := h.inv.jrn
    unfold Journal.fits Journal.level at *
    rw [h8, h9]; exact this
  · have := h.inv.loans
    unfold fpOnLoan at *
    rw [h10]; exact this
  · rw [h11]; exact h.inv.pool
  · rw [h1]; exact h.pend

variable {q : List Instr} {s : State}

theorem Ok.modTen (n : Nat) (f : Tenant → Tenant) (h : Ok q s) (hl : ∀ t, (f t).led = t.led := by intro t; rfl)
    (hf : ∀ t, (f t).fp = t.fp := by intro t; rfl) (hr : ∀ t, (f t).inReset = true → t.inReset = true := by intro t h; exact h) :
    Ok q (modTen n f s) := by
  refine ⟨⟨?_, h.inv.crs, h.inv.boot, h.inv.jrn, h.inv.loans, h.inv.pool⟩, h.pend⟩
  intro k hk
  apply (h.inv.ten k hk).congr
  · rw [ten_modTen]; split
    · next e => rw [hl, e]
    · rfl
  · rw [ten_modTen]; split
    · next e => rw [hf, e]
    · rfl
  · rw [ten_modTen]; split
    · next e => intro hi; rw [e]; exact hr _ hi
    · exact id
  · intro m _; rfl

theorem Ok.modSq (n m : Nat) (f : Sq → Sq) (h : Ok q s) (hq : ∀ t, (f t).queued = t.queued := by intro t; rfl) :
    Ok q (modSq n m f s) := by
  refine ⟨⟨?_, h.inv.crs, h.inv.boot, h.inv.jrn, h.inv.loans, h.inv.pool⟩, h.pend⟩
  intro k hk
  have e : (Machine.modSq n m f s).ten k = s.ten k := rfl
  apply (h.inv.ten k hk).congr (by rw [e]) (by rw [e]) (by rw [e]; exact id)
  intro m' _
  rw [sq_modSq]; split
  · next e => rw [hq]; unfold State.sq; rw [e]
  · rfl

theorem Ok.whenS {b f} (h : Ok q s) (hf : b = true → ∀ s, Ok q s → Ok q (f s)) : Ok q (whenS b f s) := by
  unfold Machine.whenS; split
  · next e => exact hf e _ h
  · exact h

theorem Ok.withReq {id f} (h : Ok q s) (hf : ∀ r s, Ok q s → Ok q (f r s)) : Ok q (withReq id f s) := by
  unfold Machine.withReq; split
  · exact hf _ _ h
  · exact h

theorem Ok.eachN {f : Nat → State → State} (l : List Nat) (h : Ok q s) (hf : ∀ i s, Ok q s → Ok q (f i s)) : Ok q (eachN l f s) := by
  unfold Machine.eachN
  induction l generalizing s with
  | nil => exact h
  | cons a t ih => exact ih (hf a s h)

theorem Ok.foldl {α} {f : State → α → State} (l : List α) (h : Ok q s) (hf : ∀ s a, Ok q s → Ok q (f s a)) : Ok q (l.foldl f s) := by
  induction l generalizing s with
  | nil => exact h
  | cons a t ih => exact ih (hf s a h)

theorem Ok.modCq (n m f) (h : Ok q s) : Ok q (modCq n m f s) := Ok.congr h
theorem Ok.modDc (n f) (h : Ok q s) : Ok q (modDc n f s) := Ok.congr h
theorem Ok.modTile (n f) (h : Ok q s) : Ok q (modTile n f s) := Ok.congr h
theorem Ok.setCs (n f) (h : Ok q s) : Ok q (setCs n f s) := Ok.congr h
theorem Ok.modKs (f) (h : Ok q s) : Ok q (modKs f s) := Ok.congr h
theorem Ok.modSlot (n f) (h : Ok q s) : Ok q (modSlot n f s) := Ok.congr h
theorem Ok.modRbg (n f) (h : Ok q s) : Ok q (modRbg n f s) := Ok.congr h
theorem Ok.setStream (n f) (h : Ok q s) : Ok q (setStream n f s) := Ok.congr h
theorem Ok.setCacheEnt (n f) (h : Ok q s) : Ok q (setCacheEnt n f s) := Ok.congr h
theorem Ok.modPeer (n f) (h : Ok q s) : Ok q (modPeer n f s) := Ok.congr h
theorem Ok.modOwn (f) (h : Ok q s) : Ok q (modOwn f s) := Ok.congr h
theorem Ok.modTcmp (n f) (h : Ok q s) : Ok q (modTcmp n f s) := Ok.congr h
theorem Ok.modGen (f) (h : Ok q s) : Ok q (modGen f s) := Ok.congr h
theorem Ok.modTime (f) (h : Ok q s) : Ok q (modTime f s) := Ok.congr h
theorem Ok.modClk (f) (h : Ok q s) : Ok q (modClk f s) := Ok.congr h
theorem Ok.modStart (f) (h : Ok q s) : Ok q (modStart f s) := Ok.congr h
theorem Ok.modOwner (f) (h : Ok q s) : Ok q (modOwner f s) := Ok.congr h
theorem Ok.modMeas (f) (h : Ok q s) : Ok q (modMeas f s) := Ok.congr h
theorem Ok.modSup (f) (h : Ok q s) : Ok q (modSup f s) := Ok.congr h
theorem Ok.modSch (f) (h : Ok q s) : Ok q (modSch f s) := Ok.congr h
theorem Ok.modReq (n f) (h : Ok q s) : Ok q (modReq n f s) := Ok.congr h
theorem Ok.dropReq (n) (h : Ok q s) : Ok q (dropReq n s) := Ok.congr h
theorem Ok.emit (n) (h : Ok q s) : Ok q (emit n s) := Ok.congr h
theorem Ok.nextFree (h : Ok q s) : Ok q (nextFree s) := Ok.congr h
theorem Ok.modRoots (f) (h : Ok q s) : Ok q (modRoots f s) := Ok.congr h
theorem Ok.modIdent (f) (h : Ok q s) : Ok q (modIdent f s) := Ok.congr h
theorem Ok.modRet (f) (h : Ok q s) : Ok q (modRet f s) := Ok.congr h
theorem Ok.modDenied (f) (h : Ok q s) : Ok q (modDenied f s) := Ok.congr h
theorem Ok.modEvPend (f) (h : Ok q s) : Ok q (modEvPend f s) := Ok.congr h
theorem Ok.modBuserr (f) (h : Ok q s) : Ok q (modBuserr f s) := Ok.congr h
theorem Ok.modBecnt (f) (h : Ok q s) : Ok q (modBecnt f s) := Ok.congr h
theorem Ok.modPviol (f) (h : Ok q s) : Ok q (modPviol f s) := Ok.congr h
theorem Ok.modPvcnt (f) (h : Ok q s) : Ok q (modPvcnt f s) := Ok.congr h
theorem Ok.modSent (f) (h : Ok q s) : Ok q (modSent f s) := Ok.congr h
theorem Ok.modReqs (f) (h : Ok q s) : Ok q (modReqs f s) := Ok.congr h
theorem Ok.modHeld (f) (h : Ok q s) : Ok q (modHeld f s) := Ok.congr h
theorem Ok.modLatch (f) (h : Ok q s) : Ok q (modLatch f s) := Ok.congr h
theorem Ok.modCe (c f) (h : Ok q s) : Ok q (modCe c f s) := Ok.congr h
theorem Ok.modNotice (f) (h : Ok q s) : Ok q (modNotice f s) := Ok.congr h
theorem Ok.setAct (f) (h : Ok q s) : Ok q (setAct f s) := Ok.congr h
theorem Ok.raiseG (e) (h : Ok q s) : Ok q (raiseG e s) := Ok.congr h
theorem Ok.modCrs (f : Course → Course) (h : Ok q s) (hf : ∀ c, c.cnt.balanced → (f c).cnt.balanced := by intro c h; exact h) : Ok q (modCrs f s) :=
  ⟨⟨h.inv.ten, hf _ h.inv.crs, h.inv.boot, h.inv.jrn, h.inv.loans, h.inv.pool⟩, h.pend⟩
theorem Ok.modBoot (f : Boot → Boot) (h : Ok q s) (hf : ∀ c, c.admitted = c.completed + c.inflight → (f c).admitted = (f c).completed + (f c).inflight := by intro c h; exact h) : Ok q (modBoot f s) :=
  ⟨⟨h.inv.ten, h.inv.crs, hf _ h.inv.boot, h.inv.jrn, h.inv.loans, h.inv.pool⟩, h.pend⟩
theorem Ok.modEs (f : Entropy → Entropy) (h : Ok q s) (hf : s.es.pool.length ≤ 8 → (f s.es).pool.length ≤ 8 := by exact id) : Ok q (modEs f s) :=
  ⟨⟨h.inv.ten, h.inv.crs, h.inv.boot, h.inv.jrn, h.inv.loans, hf h.inv.pool⟩, h.pend⟩
theorem Ok.modJrn (f : Journal → Journal) (h : Ok q s) (hf : ∀ c, (f c).recs = c.recs := by intro c; rfl) (hg : ∀ c, (f c).reading = c.reading := by intro c; rfl) : Ok q (modJrn f s) :=
  Ok.congr h (h8 := hf _) (h9 := hg _)
theorem Ok.modFp (f : FramePort → FramePort) (h : Ok q s) (hf : ∀ c, (f c).loans = c.loans := by intro c; rfl) : Ok q (modFp f s) :=
  Ok.congr h (h10 := hf _)
theorem Ok.whenS1 {b f} (h : Ok q s) (hf : b = true → Ok q (f s)) : Ok q (Machine.whenS b f s) := by
  unfold Machine.whenS; split
  · next e => exact hf e
  · exact h
theorem Ok.withReq1 {id f} (h : Ok q s) (hf : ∀ r, s.req id = some r → Ok q (f r s)) : Ok q (Machine.withReq id f s) := by
  unfold Machine.withReq; split
  · next e => exact hf _ e
  · exact h
theorem Ok.modFpLe (f : FramePort → FramePort) (h : Ok q s) (hf : (((f s.fp).loans).map Loan.cells).sum ≤ ((s.fp.loans).map Loan.cells).sum) : Ok q (Machine.modFp f s) :=
  ⟨⟨h.inv.ten, h.inv.crs, h.inv.boot, h.inv.jrn, Nat.le_trans hf h.inv.loans, h.inv.pool⟩, h.pend⟩
theorem Ok.modJrnFits (f : Journal → Journal) (h : Ok q s) (hf : s.jrn.fits → (f s.jrn).fits) : Ok q (Machine.modJrn f s) :=
  ⟨⟨h.inv.ten, h.inv.crs, h.inv.boot, hf h.inv.jrn, h.inv.loans, h.inv.pool⟩, h.pend⟩

theorem Ok.ite {c : Prop} [Decidable c] {a b : State} (ha : c → Ok q a) (hb : ¬c → Ok q b) : Ok q (if c then a else b) := by
  by_cases h : c
  · rw [if_pos h]; exact ha h
  · rw [if_neg h]; exact hb h
theorem Ok.idS (h : Ok q s) : Ok q (id s) := h
theorem sq_modTen (n f) (s : State) (a b : Nat) : (modTen n f s).sq a b = s.sq a b := rfl
theorem sq_modCq (n m f) (s : State) (a b : Nat) : (modCq n m f s).sq a b = s.sq a b := rfl
theorem rix_inj {n m a b : Nat} (hm : m < 16) (hb : b < 16) : rix n m = rix a b ↔ n = a ∧ m = b := by
  unfold rix; omega

theorem queuedOf_eq_sum (s : State) (n : Nat) : queuedOf s n = ((List.range 16).map (fun m => (s.sq n m).queued)).sum := by
  unfold queuedOf
  have : ∀ (l : List Nat) (a : Word), l.foldl (fun a m => a + (s.sq n m).queued) a = a + (l.map (fun m => (s.sq n m).queued)).sum := by
    intro l; induction l with
    | nil => intro a; simp
    | cons x t ih => intro a; simp [ih, add_assoc]
  rw [this]; simp

theorem sum_upd (l : List Nat) (hl : l.Nodup) (f g : Nat → Word) (m : Nat) (hm : m ∈ l) (h : ∀ k, k ≠ m → g k = f k) :
    (l.map g).sum = (l.map f).sum - f m + g m := by
  induction l with
  | nil => simp at hm
  | cons x t ih =>
    simp only [List.nodup_cons] at hl
    by_cases hx : x = m
    · subst hx
      have : t.map g = t.map f := List.map_congr_left (fun a ha => h a (by rintro rfl; exact hl.1 ha))
      simp only [List.map_cons, List.sum_cons, this]
      ring
    · have hm' : m ∈ t := by simpa [Ne.symm hx] using hm
      simp only [List.map_cons, List.sum_cons, ih hl.2 hm', h x hx]
      ring

theorem queuedOf_modSq (n m : Nat) (hm : m < 16) (g : Sq → Sq) (s : State) :
    queuedOf (modSq n m g s) n = queuedOf s n - (s.sq n m).queued + (g (s.sq n m)).queued := by
  rw [queuedOf_eq_sum, queuedOf_eq_sum]
  rw [sum_upd (List.range 16) List.nodup_range (fun a => (s.sq n a).queued) (fun a => ((modSq n m g s).sq n a).queued) m (by simpa using hm)]
  · simp only [sq_modSq, if_true]
  · intro k hk
    simp only [sq_modSq]
    rw [if_neg]
    unfold rix; omega

theorem queuedOf_modSq_ne (n m k : Nat) (hm : m < 16) (hk : k ≠ n) (g : Sq → Sq) (s : State) :
    queuedOf (modSq n m g s) k = queuedOf s k := by
  apply queuedOf_congr
  intro a ha
  rw [sq_modSq, if_neg]
  rw [rix_inj ha hm]; omega

/-- The ledger of one tenant and one of its rings move together. -/
theorem Ok.ledSq (n m : Nat) (hm : m < 16) (f : Tenant → Tenant) (g : Sq → Sq) (h : Ok q s)
    (hbal : ∀ Q, (s.ten n).led.balanced Q → (f (s.ten n)).led.balanced (Q - (s.sq n m).queued + (g (s.sq n m)).queued))
    (hfp : (f (s.ten n)).fp = (s.ten n).fp)
    (hr : (f (s.ten n)).inReset = true → (s.ten n).inReset = true ∧ ((s.sq n m).queued = 0 → (g (s.sq n m)).queued = 0)) :
    Ok q (Machine.modTen n f (Machine.modSq n m g s)) := by
  refine ⟨⟨?_, h.inv.crs, h.inv.boot, h.inv.jrn, h.inv.loans, h.inv.pool⟩, h.pend⟩
  intro k hk
  have e1 : ∀ j, (Machine.modSq n m g s).ten j = s.ten j := fun _ => rfl
  have e2 : ∀ a b, (Machine.modTen n f (Machine.modSq n m g s)).sq a b = (Machine.modSq n m g s).sq a b := fun _ _ => rfl
  have e3 : queuedOf (Machine.modTen n f (Machine.modSq n m g s)) k = queuedOf (Machine.modSq n m g s) k := rfl
  by_cases hkn : k = n
  · subst hkn
    have h0 := h.inv.ten k hk
    refine ⟨?_, ?_, ?_⟩
    · rw [e3, ten_modTen, if_pos rfl, e1, queuedOf_modSq _ _ hm]
      exact hbal _ h0.1
    · rw [ten_modTen, if_pos rfl, e1, hfp]; exact h0.2.1
    · intro hi a ha
      rw [ten_modTen, if_pos rfl, e1] at hi
      rw [e2, sq_modSq]
      split
      · next e => exact (hr hi).2 (by have := h0.2.2 (hr hi).1 m hm; exact this)
      · exact h0.2.2 (hr hi).1 a ha
  · have h0 := h.inv.ten k hk
    refine ⟨?_, ?_, ?_⟩
    · rw [e3, ten_modTen, if_neg hkn, e1, queuedOf_modSq_ne _ _ _ hm hkn]; exact h0.1
    · rw [ten_modTen, if_neg hkn, e1]; exact h0.2.1
    · intro hi a ha
      rw [ten_modTen, if_neg hkn, e1] at hi
      rw [e2, sq_modSq, if_neg (by rw [rix_inj ha hm]; omega)]
      exact h0.2.2 hi a ha

theorem Ok.modTenLed (n : Nat) (f : Tenant → Tenant) (h : Ok q s) (hl : ∀ Q, (s.ten n).led.balanced Q → (f (s.ten n)).led.balanced Q)
    (hf : (s.ten n).fp.balanced → (f (s.ten n)).fp.balanced) (hr : (f (s.ten n)).inReset = true → (s.ten n).inReset = true) :
    Ok q (Machine.modTen n f s) := by
  refine ⟨⟨?_, h.inv.crs, h.inv.boot, h.inv.jrn, h.inv.loans, h.inv.pool⟩, h.pend⟩
  intro k hk
  have e2 : ∀ a b, (Machine.modTen n f s).sq a b = s.sq a b := fun _ _ => rfl
  have e3 : queuedOf (Machine.modTen n f s) k = queuedOf s k := rfl
  have h0 := h.inv.ten k hk
  by_cases hkn : k = n
  · subst hkn
    refine ⟨?_, ?_, ?_⟩
    · rw [e3, ten_modTen, if_pos rfl]; exact hl _ h0.1
    · rw [ten_modTen, if_pos rfl]; exact hf h0.2.1
    · intro hi a ha
      rw [ten_modTen, if_pos rfl] at hi
      exact h0.2.2 (hr hi) a ha
  · refine ⟨?_, ?_, ?_⟩
    · rw [e3, ten_modTen, if_neg hkn]; exact h0.1
    · rw [ten_modTen, if_neg hkn]; exact h0.2.1
    · intro hi a ha
      rw [ten_modTen, if_neg hkn] at hi
      exact h0.2.2 hi a ha

end Sys2Proof.Machine
end

