-- ==== Sys2Proof/Laws/KeepOps.lean ====
section
/-!
SUPPORT. The operations of Machine/Ops.lean keep the invariant and leave the queue alone.
-/

set_option Elab.async false

namespace Sys2Proof.Machine

theorem Ok.emitWr {q : List Instr} (addr : Nat) (data : Bytes) (s : State) (h : Ok q s) : Ok q (Machine.emitWr addr data s) := by
  unfold Machine.emitWr
  repeat' first
    | with_reducible assumption
    | intro _
    | with_reducible apply Ok.emit
    | with_reducible apply Ok.foldl

theorem Ok.emitRd {q : List Instr} (addr len : Nat) (s : State) (h : Ok q s) : Ok q (Machine.emitRd addr len s) := by
  unfold Machine.emitRd
  repeat' first
    | with_reducible assumption
    | intro _
    | with_reducible apply Ok.emit
    | with_reducible apply Ok.foldl

theorem Ok.emitRecord {q : List Instr} (addr : Nat) (b : Bytes) (s : State) (h : Ok q s) : Ok q (Machine.emitRecord addr b s) := by
  unfold Machine.emitRecord
  repeat' first
    | with_reducible assumption
    | with_reducible apply Ok.emitWr

end Sys2Proof.Machine
end

