-- ==== Sys2Proof/Laws/KeepKeySpec.lean ====
section
/-!
SUPPORT. The operations of Machine/KeySpec.lean keep the invariant and leave the queue alone.
-/

set_option Elab.async false

namespace Sys2Proof.Machine

theorem Ok.sweepCache {q : List Instr} (s : State) (h : Ok q s) : Ok q (Machine.sweepCache s) := by
  unfold Machine.sweepCache
  repeat' first
    | with_reducible assumption
    | with_reducible apply Ok.modKs

theorem Ok.retireReq {q : List Instr} (id : Nat) (s : State) (h : Ok q s) : Ok q (Machine.retireReq id s) := by
  unfold Machine.retireReq
  repeat' first
    | with_reducible assumption
    | with_reducible apply Ok.dropReq
    | with_reducible apply Ok.sweepCache

end Sys2Proof.Machine
end

