-- ==== Sys2Proof/Laws/KeepFlags.lean ====
section
/-!
SUPPORT. The operations of Machine/Flags.lean keep the invariant and leave the queue alone.
-/

set_option Elab.async false

namespace Sys2Proof.Machine

theorem Ok.raiseT {q : List Instr} (n e : Nat) (s : State) (h : Ok q s) : Ok q (Machine.raiseT n e s) := by
  unfold Machine.raiseT
  repeat' first
    | dsimp only
    | with_reducible assumption
    | intro _
    | with_reducible refine Ok.modTen _ _ ?_ ?_ ?_ ?_

end Sys2Proof.Machine
end

