-- ==== Sys2Proof/Laws/KeepAccess.lean ====
section
/-!
SUPPORT. The operations of Machine/Access.lean keep the invariant and leave the queue alone.
-/

set_option Elab.async false

namespace Sys2Proof.Machine

theorem Ok.violT {q : List Instr} (n : Nat) (addr : Nat) (d : Dir) (cause kind number tag gen : Nat) (s : State) (h : Ok q s) : Ok q (Machine.violT n addr d cause kind number tag gen s) := by
  unfold Machine.violT
  repeat' first
    | dsimp only
    | with_reducible assumption
    | intro _
    | with_reducible refine Ok.modTen _ _ ?_ ?_ ?_ ?_
    | with_reducible apply Ok.raiseT
    | with_reducible refine Ok.ite ?_ ?_

theorem Ok.violP {q : List Instr} (addr : Nat) (d : Dir) (cause kind number tag gen : Nat) (s : State) (h : Ok q s) : Ok q (Machine.violP addr d cause kind number tag gen s) := by
  unfold Machine.violP
  repeat' first
    | dsimp only
    | with_reducible assumption
    | intro _
    | with_reducible apply Ok.modPvcnt
    | with_reducible apply Ok.modPviol
    | with_reducible apply Ok.raiseG
    | with_reducible refine Ok.ite ?_ ?_

theorem Ok.viol {q : List Instr} (t : Option TenantIx) (addr : Nat) (d : Dir) (cause kind number tag gen : Nat) (s : State) (h : Ok q s) : Ok q (Machine.viol t addr d cause kind number tag gen s) := by
  unfold Machine.viol
  repeat' first
    | with_reducible assumption
    | with_reducible apply Ok.violP
    | with_reducible apply Ok.violT
    | split

end Sys2Proof.Machine
end

