-- ==== Sys2Proof/Laws/KeepJournal.lean ====
section
/-!
SUPPORT. The operations of Machine/Journal.lean keep the invariant and leave the queue alone.
-/

set_option Elab.async false

namespace Sys2Proof.Machine

theorem Ok.jrnLose {q : List Instr} (s : State) (h : Ok q s) : Ok q (Machine.jrnLose s) := by
  unfold Machine.jrnLose
  repeat' first
    | dsimp only
    | with_reducible assumption
    | intro _
    | with_reducible refine Ok.modJrn _ ?_ ?_ ?_
    | with_reducible apply Ok.raiseG

theorem Ok.jrnNlose {q : List Instr} (s : State) (h : Ok q s) : Ok q (Machine.jrnNlose s) := by
  unfold Machine.jrnNlose
  repeat' first
    | dsimp only
    | with_reducible assumption
    | intro _
    | with_reducible refine Ok.modJrn _ ?_ ?_ ?_

theorem Ok.jrnPush {q : List Instr} (rec : List (BitVec 32)) (s : State) (h : Ok q s) (h3 : 3 ≤ rec.length)
    (hl : s.jrn.level + rec.length ≤ jrnWords) : Ok q (jrnPush rec s) := by
  have h1 : Ok q (Machine.modJrn (fun j => { j with recs := j.recs ++ [rec] }) s) := by
    apply Ok.modJrnFits _ h
    rintro ⟨ha, hb⟩
    refine ⟨?_, ?_⟩
    · simp only [Journal.level, List.map_append, List.sum_append, List.map_cons, List.map_nil, List.sum_cons, List.sum_nil] at hl ⊢
      omega
    · intro r hr
      simp only [List.mem_append, List.mem_singleton] at hr
      rcases hr with hr | rfl
      · exact hb r hr
      · exact h3
  unfold Machine.jrnPush
  dsimp only
  split
  · exact Ok.raiseG _ h1
  · exact h1

theorem Ok.jrnMakeRoom {q : List Instr} (need fuel : Nat) (s : State) (h : Ok q s) : Ok q (jrnMakeRoom need fuel s) := by
  induction fuel generalizing s with
  | zero => exact h
  | succ n ih =>
    unfold Machine.jrnMakeRoom
    split
    · exact h
    · apply ih
      apply Ok.jrnLose
      apply Ok.modJrnFits _ h
      rintro ⟨ha, hb⟩
      refine ⟨?_, fun r hr => hb r (List.mem_of_mem_tail hr)⟩
      cases hc : s.jrn.recs with
      | nil => simpa [Journal.level, hc] using ha
      | cons a t =>
        simp only [Journal.level, hc, List.map_cons, List.sum_cons, List.tail_cons] at ha ⊢
        omega

theorem Ok.noticeFault {q : List Instr} (s : State) (h : Ok q s) : Ok q (Machine.noticeFault s) := by
  unfold Machine.noticeFault
  repeat' first
    | with_reducible assumption
    | with_reducible apply Ok.modNotice
    | with_reducible apply Ok.raiseG

theorem Ok.notice {q : List Instr} (rec : List (BitVec 32)) (s : State) (h : Ok q s) : Ok q (Machine.notice rec s) := by
  unfold Machine.notice
  repeat' first
    | dsimp only
    | with_reducible assumption
    | intro _
    | with_reducible apply Ok.emitRecord
    | with_reducible apply Ok.jrnNlose
    | with_reducible refine Ok.modJrn _ ?_ ?_ ?_
    | with_reducible apply Ok.noticeFault
    | with_reducible apply Ok.violP
    | with_reducible refine Ok.ite ?_ ?_
    | split

theorem jrnRecord_length (seq o t ns) (p : List Nat) : (jrnRecord seq o t ns p).length = p.length + 2 := by
  simp [jrnRecord]
theorem Ok.jrnOpen {q : List Instr} (bad : Bool) (s : State) (h : Ok q s) : Ok q (jrnOpen bad s) := by
  unfold Machine.jrnOpen
  split
  · next r t e1 e2 =>
    apply Ok.modJrnFits _ h
    rintro ⟨ha, hb⟩
    simp only [Journal.level, e1, e2, List.map_cons, List.sum_cons, List.length_nil] at ha
    have h3 : 3 ≤ r.length := hb r (by simp [e2])
    refine ⟨?_, fun x hx => hb x (by simp [e2, hx])⟩
    simp only [Journal.level]
    split
    · rw [jrnRecord_length]; simp only [List.length_cons, List.length_nil]; omega
    · omega
  · exact h

theorem Ok.jrnDrop {q : List Instr} (s : State) (n : Nat) (h : Ok q s) : Ok q (Machine.modJrn (fun j => { j with reading := s.jrn.reading.drop n }) s) := by
  apply Ok.modJrnFits _ h
  rintro ⟨ha, hb⟩
  refine ⟨?_, hb⟩
  simp only [Journal.level, List.length_drop] at ha ⊢
  omega
theorem jrnTake_drop (z : AccSize) (w : List (BitVec 32)) : ∃ n, (jrnTake z w).2 = w.drop n := by
  rcases z <;> rcases w with _ | ⟨a, _ | ⟨b, t⟩⟩ <;> simp only [jrnTake] <;> first | exact ⟨0, rfl⟩ | exact ⟨1, rfl⟩ | exact ⟨2, rfl⟩
theorem Ok.jrnDeliver {q : List Instr} (who : Who) (size : AccSize) (bad : Bool) (s : State) (h : Ok q s) : Ok q (jrnDeliver who size bad s) := by
  unfold Machine.jrnDeliver
  dsimp only
  have h1 := Ok.jrnOpen bad s h
  generalize Machine.jrnOpen bad s = s1 at h1 ⊢
  split
  · next a e =>
    have h2 : Ok q (Machine.modJrn (fun j => { j with reading := [] }) s1) := by
      have := Ok.jrnDrop s1 1 h1
      rwa [e] at this
    generalize Machine.modJrn (fun j => { j with reading := [] }) s1 = s2 at h2 ⊢
    split
    · have h3 := Ok.jrnOpen bad s2 h2
      generalize Machine.jrnOpen bad s2 = s3 at h3 ⊢
      split
      · next b t e =>
        apply Ok.emit
        have := Ok.jrnDrop s3 1 h3
        rwa [e] at this
      · exact Ok.emit _ h3
    · exact Ok.emit _ h2
  · apply Ok.emit
    obtain ⟨n, e⟩ := jrnTake_drop size s1.jrn.reading
    rw [e]
    exact Ok.jrnDrop s1 n h1

theorem Ok.jrnServe {q : List Instr} (l : List (Who × AccSize)) (s : State) (h : Ok q s) : Ok q (jrnServe l s) := by
  induction l generalizing s with
  | nil => exact h
  | cons a t ih =>
    obtain ⟨w, z⟩ := a
    unfold Machine.jrnServe
    split
    · exact h
    · exact ih _ (Ok.jrnDeliver _ _ _ _ (Ok.modJrn _ h))

theorem Ok.jrnStore {q : List Instr} (rec : List (BitVec 32)) (s : State) (h : Ok q s) (h3 : 3 ≤ rec.length)
    (hl : s.jrn.level + rec.length ≤ jrnWords) : Ok q (jrnStore rec s) :=
  Ok.jrnServe _ _ (Ok.notice _ _ (Ok.jrnPush _ _ h h3 hl))

theorem Ok.journal {q : List Instr} (type origin : Nat) (payload : List Nat) (s : State) (h : Ok q s) (hp : payload ≠ [] := by simp) :
    Ok q (journal type origin payload s) := by
  have h3 : 3 ≤ (jrnRecord s.jrn.seq origin type s.time.ns payload).length := by
    rw [jrnRecord_length]
    have := List.length_pos_of_ne_nil hp
    omega
  unfold Machine.journal
  dsimp only
  generalize jrnRecord s.jrn.seq origin type s.time.ns payload = rec' at h3 ⊢
  have h1 : Ok q (Machine.modJrn (fun j => { j with seq := j.seq + 1 }) s) := Ok.modJrn _ h
  generalize Machine.modJrn (fun j => { j with seq := j.seq + 1 }) s = s1 at h1 ⊢
  split
  · have h2 := Ok.jrnMakeRoom rec'.length s1.jrn.recs.length s1 h1
    split
    · next hl => exact Ok.jrnStore _ _ h2 h3 hl
    · exact Ok.jrnLose _ h2
  · split
    · next hl => exact Ok.jrnStore _ _ h1 h3 (by omega)
    · exact Ok.jrnLose _ (Ok.modJrn _ h1)

theorem Ok.timeMark {q : List Instr} (s : State) (h : Ok q s) : Ok q (Machine.timeMark s) := by
  unfold Machine.timeMark
  repeat' first
    | with_reducible assumption
    | intro _
    | with_reducible apply Ok.journal
    | (simp_all; done)

theorem Ok.countCe {q : List Instr} (c : Nat) (s : State) (h : Ok q s) : Ok q (Machine.countCe c s) := by
  unfold Machine.countCe
  repeat' first
    | dsimp only
    | with_reducible assumption
    | intro _
    | with_reducible apply Ok.modCe
    | with_reducible apply Ok.raiseG
    | with_reducible refine Ok.ite ?_ ?_

theorem Ok.journalUe {q : List Instr} (c loc : Nat) (s : State) (h : Ok q s) : Ok q (Machine.journalUe c loc s) := by
  unfold Machine.journalUe
  repeat' first
    | with_reducible assumption
    | intro _
    | with_reducible apply Ok.journal
    | (simp_all; done)

theorem Ok.ledgerUe {q : List Instr} (c : Nat) (t : Option Nat) (s : State) (h : Ok q s) : Ok q (Machine.ledgerUe c t s) := by
  unfold Machine.ledgerUe
  repeat' first
    | dsimp only
    | with_reducible assumption
    | intro _
    | with_reducible apply Ok.journalUe
    | with_reducible refine Ok.modTen _ _ ?_ ?_ ?_ ?_
    | with_reducible apply Ok.raiseG
    | with_reducible apply Ok.raiseT
    | with_reducible refine Ok.ite ?_ ?_
    | split

theorem Ok.memCheck {q : List Instr} (c : Nat) (t : Option Nat) (ecc : Ecc) (s : State) (h : Ok q s) : Ok q (Machine.memCheck c t ecc s) := by
  unfold Machine.memCheck
  repeat' first
    | dsimp only
    | with_reducible assumption
    | intro _
    | with_reducible apply Ok.countCe
    | with_reducible apply Ok.ledgerUe
    | with_reducible refine Ok.ite ?_ ?_
    | split

theorem Ok.fxJournalRead {q : List Instr} (who : Who) (size : AccSize) (ecc : Ecc) (s : State) (h : Ok q s) : Ok q (Machine.fxJournalRead who size ecc s) := by
  unfold Machine.fxJournalRead
  repeat' first
    | dsimp only
    | with_reducible assumption
    | intro _
    | with_reducible apply Ok.countCe
    | with_reducible apply Ok.emit
    | with_reducible apply Ok.journal
    | with_reducible apply Ok.journalUe
    | with_reducible apply Ok.jrnDeliver
    | with_reducible refine Ok.modJrn _ ?_ ?_ ?_
    | with_reducible apply Ok.raiseG
    | with_reducible refine Ok.ite ?_ ?_
    | split
    | rfl
    | exact hes
    | (simp_all; done)

theorem Ok.fxJournalReadTimeout {q : List Instr} (s : State) (h : Ok q s) : Ok q (fxJournalReadTimeout s) := by
  unfold Machine.fxJournalReadTimeout
  split
  · exact h
  · exact Ok.emit _ (Ok.modJrn _ h)

theorem Ok.jrnNow {q : List Instr} (type : Nat) (payload : List Nat) (s : State) (h : Ok q s) (hp : payload ≠ [] := by simp) :
    Ok q (Machine.jrnNow type payload s) := by
  have h3 : 3 ≤ (jrnRecord s.jrn.seq 16 type s.time.ns payload).length := by
    rw [jrnRecord_length]
    have := List.length_pos_of_ne_nil hp
    omega
  unfold Machine.jrnNow
  dsimp only
  split
  · next hl => exact Ok.jrnStore _ _ (Ok.modJrn _ h) h3 hl
  · exact Ok.jrnLose _ (Ok.modJrn _ h)

theorem Ok.jrnFlush {q : List Instr} (s : State) (h : Ok q s) : Ok q (Machine.jrnFlush s) := by
  unfold Machine.jrnFlush
  refine Ok.jrnNow _ _ _ (Ok.jrnNow _ _ _ ?_)
  apply Ok.modJrnFits _ h
  rintro ⟨ha, hb⟩
  refine ⟨?_, by simp⟩
  simp only [Journal.level, List.map_nil, List.sum_nil] at ha ⊢
  omega

theorem Ok.fxJournalLostStore {q : List Instr} (s : State) (h : Ok q s) : Ok q (Machine.fxJournalLostStore s) := by
  unfold Machine.fxJournalLostStore
  repeat' first
    | dsimp only
    | with_reducible assumption
    | intro _
    | with_reducible apply Ok.journal
    | with_reducible refine Ok.modJrn _ ?_ ?_ ?_
    | with_reducible apply Ok.whenS
    | (simp_all; done)

end Sys2Proof.Machine
end

