-- ==== Sys2Proof/Laws/KeepLink.lean ====
section
/-!
SUPPORT. The operations of Machine/Link.lean keep the invariant and leave the queue alone.
-/

set_option Elab.async false

namespace Sys2Proof.Machine

theorem Ok.sendFrame {q : List Instr} (type dst : Nat) (payload : Bytes) (s : State) (h : Ok q s) : Ok q (Machine.sendFrame type dst payload s) := by
  unfold Machine.sendFrame
  repeat' first
    | dsimp only
    | with_reducible assumption
    | intro _
    | with_reducible apply Ok.emit
    | with_reducible refine Ok.modCrs _ ?_ ?_

theorem Ok.sendLong {q : List Instr} (type dst : Nat) (payload : Bytes) (s : State) (h : Ok q s) : Ok q (Machine.sendLong type dst payload s) := by
  unfold Machine.sendLong
  repeat' first
    | with_reducible assumption
    | intro _
    | with_reducible apply Ok.sendFrame
    | with_reducible apply Ok.foldl

theorem Ok.sendAll {q : List Instr} (type : Nat) (payload : Bytes) (s : State) (h : Ok q s) : Ok q (Machine.sendAll type payload s) := by
  unfold Machine.sendAll
  repeat' first
    | with_reducible assumption
    | intro _
    | with_reducible apply Ok.eachN
    | with_reducible apply Ok.sendFrame

theorem Ok.storeBlock {q : List Instr} (k lo hi : Nat) (s : State) (h : Ok q s) : Ok q (Machine.storeBlock k lo hi s) := by
  unfold Machine.storeBlock
  repeat' first
    | dsimp only
    | with_reducible assumption
    | intro _
    | with_reducible refine Ok.modCrs _ ?_ ?_

theorem Ok.crsRecord {q : List Instr} (type : Nat) (payload : List Nat) (s : State) (h : Ok q s) (hp : payload ≠ [] := by simp) : Ok q (crsRecord type payload s) := Ok.journal _ _ _ _ h hp

theorem Ok.grantBlock {q : List Instr} (dest k : Nat) (s : State) (h : Ok q s) : Ok q (Machine.grantBlock dest k s) := by
  unfold Machine.grantBlock
  repeat' first
    | dsimp only
    | with_reducible assumption
    | intro _
    | with_reducible apply Ok.crsRecord
    | with_reducible apply Ok.journal
    | with_reducible apply Ok.modSlot
    | with_reducible apply Ok.raiseT
    | with_reducible apply Ok.sendFrame
    | with_reducible apply Ok.storeBlock
    | with_reducible refine Ok.ite ?_ ?_
    | split
    | (simp_all; done)

theorem Ok.beginGrant {q : List Instr} (dest k : Nat) (s : State) (h : Ok q s) : Ok q (Machine.beginGrant dest k s) := by
  unfold Machine.beginGrant
  repeat' first
    | dsimp only
    | with_reducible assumption
    | intro _
    | with_reducible apply Ok.eachN
    | with_reducible apply Ok.grantBlock
    | with_reducible refine Ok.modCrs _ ?_ ?_
    | with_reducible apply Ok.sendFrame
    | with_reducible refine Ok.ite ?_ ?_

theorem Ok.askBlock {q : List Instr} (k : Nat) (s : State) (h : Ok q s) : Ok q (Machine.askBlock k s) := by
  unfold Machine.askBlock
  repeat' first
    | dsimp only
    | with_reducible assumption
    | intro _
    | with_reducible apply Ok.beginGrant
    | with_reducible refine Ok.modCrs _ ?_ ?_
    | with_reducible apply Ok.sendFrame
    | with_reducible refine Ok.ite ?_ ?_

theorem Ok.waitBlocks {q : List Instr} (ks : List Nat) (s : State) (h : Ok q s) : Ok q (Machine.waitBlocks ks s) := by
  unfold Machine.waitBlocks
  repeat' first
    | dsimp only
    | with_reducible assumption
    | intro _
    | with_reducible apply Ok.askBlock
    | with_reducible apply Ok.raiseG
    | with_reducible apply Ok.foldl
    | with_reducible refine Ok.ite ?_ ?_

end Sys2Proof.Machine
end

