-- ==== Sys2Proof/Laws/KeepPort.lean ====
section
/-!
SUPPORT. The operations of Machine/Port.lean keep the invariant and leave the queue alone.
-/

set_option Elab.async false

namespace Sys2Proof.Machine

theorem Ok.countDenied {q : List Instr} (s : State) (h : Ok q s) : Ok q (Machine.countDenied s) := by
  unfold Machine.countDenied
  repeat' first
    | dsimp only
    | with_reducible assumption
    | intro _
    | with_reducible apply Ok.modDenied
    | with_reducible apply Ok.raiseG
    | with_reducible refine Ok.ite ?_ ?_

theorem Ok.debugRecord {q : List Instr} (who : Who) (off : Nat) (d : Dir) (opened : Bool) (s : State) (h : Ok q s) : Ok q (Machine.debugRecord who off d opened s) := by
  unfold Machine.debugRecord
  repeat' first
    | with_reducible assumption
    | intro _
    | with_reducible apply Ok.journal
    | (simp_all; done)

theorem Ok.dropWrite {q : List Instr} (who : Who) (off value : Nat) (s : State) (h : Ok q s) : Ok q (Machine.dropWrite who off value s) := by
  unfold Machine.dropWrite
  repeat' first
    | with_reducible assumption
    | intro _
    | with_reducible apply Ok.countDenied
    | with_reducible apply Ok.debugRecord
    | with_reducible apply Ok.journal
    | with_reducible refine Ok.ite ?_ ?_
    | (simp_all; done)

theorem Ok.dropSubword {q : List Instr} (who : Who) (size : AccSize) (off : Nat) (s : State) (h : Ok q s) : Ok q (Machine.dropSubword who size off s) := by
  unfold Machine.dropSubword
  repeat' first
    | dsimp only
    | with_reducible assumption
    | intro _
    | with_reducible apply Ok.countDenied
    | with_reducible apply Ok.debugRecord
    | with_reducible apply Ok.journal
    | with_reducible refine Ok.ite ?_ ?_
    | (rename_i hh; split at hh <;> first | exact hh | (simp_all; done))

theorem Ok.dropPiece {q : List Instr} (who : Who) (r : Reg) (mask val : Word) (s : State) (h : Ok q s) : Ok q (Machine.dropPiece who r mask val s) := by
  unfold Machine.dropPiece
  repeat' first
    | with_reducible assumption
    | with_reducible apply Ok.dropWrite

theorem Ok.gateP {q : List Instr} (who : Who) (r : Reg) (mask val : Word) (f : State → State) (s : State) (h : Ok q s) (hf : ∀ x0, Ok q x0 → Ok q (f x0)) : Ok q (Machine.gateP who r mask val f s) := by
  unfold Machine.gateP
  repeat' first
    | with_reducible assumption
    | intro _
    | with_reducible apply Ok.dropPiece
    | with_reducible refine Ok.ite ?_ ?_
    | (simp_all; done)

theorem Ok.gateW {q : List Instr} (who : Who) (r : Reg) (val : Word) (f : State → State) (s : State) (h : Ok q s) (hf : ∀ x0, Ok q x0 → Ok q (f x0)) : Ok q (Machine.gateW who r val f s) := by
  unfold Machine.gateW
  repeat' first
    | with_reducible assumption
    | with_reducible apply Ok.gateP

theorem Ok.debugRead {q : List Instr} (who : Who) (r : Reg) (off : Nat) (s : State) (h : Ok q s) : Ok q (Machine.debugRead who r off s) := by
  unfold Machine.debugRead
  repeat' first
    | with_reducible assumption
    | intro _
    | with_reducible apply Ok.debugRecord
    | with_reducible refine Ok.ite ?_ ?_

theorem Ok.gateR {q : List Instr} (who : Who) (r : Reg) (f : State → State) (s : State) (h : Ok q s) (hf : ∀ x0, Ok q x0 → Ok q (f x0)) : Ok q (Machine.gateR who r f s) := by
  unfold Machine.gateR
  repeat' first
    | dsimp only
    | with_reducible assumption
    | intro _
    | with_reducible apply Ok.debugRead
    | with_reducible apply Ok.emit
    | with_reducible refine Ok.ite ?_ ?_
    | apply hf

theorem Ok.dropReg {q : List Instr} (who : Who) (r : Reg) (val : Word) (s : State) (h : Ok q s) : Ok q (Machine.dropReg who r val s) := by
  unfold Machine.dropReg
  repeat' first
    | with_reducible assumption
    | with_reducible apply Ok.dropPiece

end Sys2Proof.Machine
end

