-- ==== Sys2Proof/Laws/KeepRings.lean ====
section
/-!
SUPPORT. The operations of Machine/Rings.lean keep the invariant and leave the queue alone.
-/

set_option Elab.async false

namespace Sys2Proof.Machine

theorem Ok.settleRing {q : List Instr} (n m : Nat) (s : State) (h : Ok q s) : Ok q (Machine.settleRing n m s) := by
  unfold Machine.settleRing
  repeat' first
    | dsimp only
    | with_reducible assumption
    | intro _
    | with_reducible refine Ok.modSq _ _ _ ?_ ?_
    | with_reducible apply Ok.raiseT
    | with_reducible refine Ok.ite ?_ ?_
    | split
    | rfl

theorem Ok.drainPulses {q : List Instr} (n m fuel : Nat) (s : State) (h : Ok q s) : Ok q (drainPulses n m fuel s) := by
  induction fuel generalizing s with
  | zero => exact h
  | succ k ih =>
    unfold Machine.drainPulses
    dsimp only
    split
    · exact h
    · split
      · exact ih _ (Ok.modSq _ _ _ h)
      · exact h

theorem Ok.ringPulse {q : List Instr} (n m : Nat) (t : Word) (s : State) (h : Ok q s) : Ok q (Machine.ringPulse n m t s) := by
  unfold Machine.ringPulse
  repeat' first
    | dsimp only
    | with_reducible assumption
    | intro _
    | with_reducible apply Ok.drainPulses
    | with_reducible refine Ok.modSq _ _ _ ?_ ?_
    | with_reducible apply Ok.raiseT
    | with_reducible refine Ok.ite ?_ ?_

theorem Ok.pulseRings {q : List Instr} (src : Nat) (t : Word) (s : State) (h : Ok q s) : Ok q (Machine.pulseRings src t s) := by
  unfold Machine.pulseRings
  repeat' first
    | dsimp only
    | with_reducible assumption
    | intro _
    | with_reducible apply Ok.eachN
    | with_reducible apply Ok.ringPulse
    | with_reducible refine Ok.ite ?_ ?_

theorem Ok.releasePosted {q : List Instr} (s : State) (h : Ok q s) : Ok q (Machine.releasePosted s) := by
  unfold Machine.releasePosted
  repeat' first
    | dsimp only
    | with_reducible assumption
    | intro _
    | with_reducible apply Ok.drainPulses
    | with_reducible apply Ok.eachN
    | with_reducible refine Ok.modSq _ _ _ ?_ ?_
    | with_reducible refine Ok.ite ?_ ?_

theorem Ok.sqClampEvent {q : List Instr} (n m : Nat) (s : State) (h : Ok q s) : Ok q (Machine.sqClampEvent n m s) := by
  unfold Machine.sqClampEvent
  repeat' first
    | dsimp only
    | with_reducible assumption
    | intro _
    | with_reducible refine Ok.modSq _ _ _ ?_ ?_
    | with_reducible apply Ok.raiseT

theorem ofNat_split (a b : Nat) (h : b ≤ a) : BitVec.ofNat 64 a = BitVec.ofNat 64 (a - b) + BitVec.ofNat 64 b := by
  rw [← BitVec.ofNat_add]; congr 1; omega
theorem Ok.doorbell {q : List Instr} (n m : Nat) (mid : BitVec 8) (w : World) (tail count : Nat) (meets : Bool) (s : State) (h : Ok q s) (hm : m < 16)
    (hr : (s.ten n).inReset = false) :
    Ok q (Machine.doorbell n m mid w tail count meets s) := by
  unfold Machine.doorbell
  dsimp only
  generalize (if meets then (s.sq n m).headWas else (s.sq n m).head) = head
  have h0 : Ok q (Machine.modSq n m (fun q => { q with dbWorld := w, headWas := head }) s) := Ok.modSq _ _ _ h
  have hr0 : ((Machine.modSq n m (fun q => { q with dbWorld := w, headWas := head }) s).ten n).inReset = false := hr
  generalize Machine.modSq n m (fun q => { q with dbWorld := w, headWas := head }) s = s0 at h0 hr0 ⊢
  split
  · have h1 : ∀ c (g : Sq → Sq), c ≤ count → (∀ x, (g x).queued = x.queued + BitVec.ofNat 64 c) →
        Ok q (Machine.addPosted n count (count - c) (Machine.modSq n m g s0)) := by
      intro c g hc hg
      unfold Machine.addPosted
      apply Ok.ledSq n m hm _ _ h0
      · rintro Q ⟨ha, hb⟩
        refine ⟨?_, hb⟩
        simp only [hg]
        rw [ofNat_split count c hc]
        linear_combination ha
      · rfl
      · intro hi
        rw [show (_ : Tenant).inReset = (s0.ten n).inReset from rfl] at hi
        rw [hr0] at hi; cases hi
    apply Ok.settleRing
    split
    · apply Ok.drainPulses
      split
      · exact h1 _ _ (Nat.min_le_left _ _) (fun _ => rfl)
      · exact Ok.sqClampEvent _ _ _ (h1 _ _ (Nat.min_le_left _ _) (fun _ => rfl))
    · split
      · exact h1 _ _ (Nat.min_le_left _ _) (fun _ => rfl)
      · exact Ok.sqClampEvent _ _ _ (h1 _ _ (Nat.min_le_left _ _) (fun _ => rfl))
  · apply Ok.settleRing
    apply Ok.sqClampEvent
    unfold Machine.addPosted
    apply Ok.ledSq n m hm _ _ h0
    · rintro Q ⟨ha, hb⟩
      refine ⟨?_, hb⟩
      linear_combination ha
    · rfl
    · intro hi
      exact ⟨hi, id⟩

theorem Ok.dbWrite {q : List Instr} (who : Who) (n : TenantIx) (m : RingIx) (tail count : Nat) (meets : Bool) (s : State) (h : Ok q s) :
    Ok q (Machine.dbWrite who n m tail count meets s) := by
  unfold Machine.dbWrite
  split
  · exact Ok.dropReg _ _ _ _ h
  · next hd =>
    split
    · split
      · exact h
      · exact Ok.modSq _ _ _ h
    · apply Ok.doorbell _ _ _ _ _ _ _ _ h m.isLt
      simp only [doorbellDropped, Bool.or_eq_true, not_or, Bool.not_eq_true] at hd
      exact hd.1.2

theorem Ok.fxSqDoorbell {q : List Instr} (who : Who) (n : TenantIx) (m : RingIx) (tail : BitVec 17) (count : BitVec 15) (meets : Bool) (s : State) (h : Ok q s) : Ok q (Machine.fxSqDoorbell who n m tail count meets s) := by
  unfold Machine.fxSqDoorbell
  repeat' first
    | dsimp only
    | with_reducible assumption
    | intro _
    | with_reducible apply Ok.dbWrite
    | with_reducible apply Ok.gateW
    | with_reducible refine Ok.ite ?_ ?_
    | split

theorem Ok.sqBaseWrite {q : List Instr} (who : Who) (n : TenantIx) (m : RingIx) (mask val : Word) (s : State) (h : Ok q s) : Ok q (Machine.sqBaseWrite who n m mask val s) := by
  unfold Machine.sqBaseWrite
  repeat' first
    | dsimp only
    | with_reducible assumption
    | intro _
    | with_reducible apply Ok.dropPiece
    | with_reducible refine Ok.modSq _ _ _ ?_ ?_
    | with_reducible refine Ok.ite ?_ ?_

theorem Ok.sqCfgWrite {q : List Instr} (who : Who) (n : TenantIx) (m : RingIx) (mask val : Word) (s : State) (h : Ok q s) : Ok q (Machine.sqCfgWrite who n m mask val s) := by
  unfold Machine.sqCfgWrite
  repeat' first
    | dsimp only
    | with_reducible assumption
    | intro _
    | with_reducible apply Ok.dropPiece
    | with_reducible refine Ok.modSq _ _ _ ?_ ?_
    | with_reducible refine Ok.ite ?_ ?_
    | split

theorem Ok.sqSchedWrite {q : List Instr} (n : TenantIx) (m : RingIx) (mask val : Word) (s : State) (h : Ok q s) : Ok q (Machine.sqSchedWrite n m mask val s) := by
  unfold Machine.sqSchedWrite
  repeat' first
    | dsimp only
    | with_reducible assumption
    | intro _
    | with_reducible refine Ok.modSq _ _ _ ?_ ?_
    | split

theorem Ok.fxSqSetupWrite {q : List Instr} (who : Who) (n : TenantIx) (m : RingIx) (r : SqSetup) (v : Word) (s : State) (h : Ok q s) : Ok q (Machine.fxSqSetupWrite who n m r v s) := by
  unfold Machine.fxSqSetupWrite
  repeat' first
    | with_reducible assumption
    | intro _
    | with_reducible apply Ok.gateW
    | with_reducible apply Ok.sqBaseWrite
    | with_reducible apply Ok.sqCfgWrite
    | with_reducible apply Ok.sqSchedWrite
    | split

theorem Ok.sqSetEn {q : List Instr} (n m : Nat) (s : State) (h : Ok q s) : Ok q (Machine.sqSetEn n m s) := by
  unfold Machine.sqSetEn
  repeat' first
    | dsimp only
    | with_reducible assumption
    | intro _
    | with_reducible refine Ok.modSq _ _ _ ?_ ?_
    | with_reducible apply Ok.settleRing
    | split

theorem Ok.sqClearEn {q : List Instr} (n m : Nat) (s : State) (h : Ok q s) : Ok q (Machine.sqClearEn n m s) := by
  unfold Machine.sqClearEn
  repeat' first
    | dsimp only
    | with_reducible assumption
    | intro _
    | with_reducible refine Ok.modSq _ _ _ ?_ ?_
    | with_reducible refine Ok.ite ?_ ?_
    | split
    | rfl

theorem Ok.sqSetPause {q : List Instr} (n m : Nat) (s : State) (h : Ok q s) : Ok q (Machine.sqSetPause n m s) := by
  unfold Machine.sqSetPause
  repeat' first
    | dsimp only
    | with_reducible assumption
    | intro _
    | with_reducible refine Ok.modSq _ _ _ ?_ ?_

theorem Ok.sqClearPause {q : List Instr} (n m : Nat) (s : State) (h : Ok q s) : Ok q (Machine.sqClearPause n m s) := by
  unfold Machine.sqClearPause
  repeat' first
    | dsimp only
    | with_reducible assumption
    | intro _
    | with_reducible refine Ok.modSq _ _ _ ?_ ?_
    | with_reducible apply Ok.settleRing
    | split

theorem Ok.sqSetInval {q : List Instr} (n m : Nat) (s : State) (h : Ok q s) : Ok q (Machine.sqSetInval n m s) := by
  unfold Machine.sqSetInval
  repeat' first
    | dsimp only
    | with_reducible assumption
    | intro _
    | with_reducible refine Ok.modSq _ _ _ ?_ ?_
    | with_reducible refine Ok.ite ?_ ?_
    | split

theorem Ok.sqCtlWrite {q : List Instr} (n m : Nat) (mask val : Word) (s : State) (h : Ok q s) : Ok q (Machine.sqCtlWrite n m mask val s) := by
  unfold Machine.sqCtlWrite
  repeat' first
    | dsimp only
    | with_reducible assumption
    | intro _
    | with_reducible apply Ok.sqClearEn
    | with_reducible apply Ok.sqClearPause
    | with_reducible apply Ok.sqSetEn
    | with_reducible apply Ok.sqSetInval
    | with_reducible apply Ok.sqSetPause
    | with_reducible refine Ok.ite ?_ ?_

theorem Ok.fxSqEnable {q : List Instr} (who : Who) (n : TenantIx) (m : RingIx) (s : State) (h : Ok q s) : Ok q (Machine.fxSqEnable who n m s) := by
  unfold Machine.fxSqEnable
  repeat' first
    | with_reducible assumption
    | intro _
    | with_reducible apply Ok.gateW
    | with_reducible apply Ok.sqSetEn

theorem Ok.fxSqDisable {q : List Instr} (who : Who) (n : TenantIx) (m : RingIx) (s : State) (h : Ok q s) : Ok q (Machine.fxSqDisable who n m s) := by
  unfold Machine.fxSqDisable
  repeat' first
    | with_reducible assumption
    | intro _
    | with_reducible apply Ok.gateW
    | with_reducible apply Ok.sqClearEn

theorem Ok.fxSqPause {q : List Instr} (who : Who) (n : TenantIx) (m : RingIx) (s : State) (h : Ok q s) : Ok q (Machine.fxSqPause who n m s) := by
  unfold Machine.fxSqPause
  repeat' first
    | with_reducible assumption
    | intro _
    | with_reducible apply Ok.gateW
    | with_reducible apply Ok.sqSetPause

theorem Ok.fxSqPaused {q : List Instr} (n : TenantIx) (m : RingIx) (s : State) (h : Ok q s) : Ok q (Machine.fxSqPaused n m s) := by
  unfold Machine.fxSqPaused
  repeat' first
    | dsimp only
    | with_reducible assumption
    | intro _
    | with_reducible refine Ok.modSq _ _ _ ?_ ?_
    | with_reducible apply Ok.whenS
    | with_reducible refine Ok.ite ?_ ?_
    | split

theorem Ok.fxSqInval {q : List Instr} (who : Who) (n : TenantIx) (m : RingIx) (s : State) (h : Ok q s) : Ok q (Machine.fxSqInval who n m s) := by
  unfold Machine.fxSqInval
  repeat' first
    | with_reducible assumption
    | intro _
    | with_reducible apply Ok.gateW
    | with_reducible apply Ok.sqSetInval

theorem Ok.fxSqInvalDone {q : List Instr} (n : TenantIx) (m : RingIx) (s : State) (h : Ok q s) : Ok q (Machine.fxSqInvalDone n m s) := by
  unfold Machine.fxSqInvalDone
  repeat' first
    | dsimp only
    | with_reducible assumption
    | intro _
    | with_reducible refine Ok.modSq _ _ _ ?_ ?_
    | with_reducible apply Ok.settleRing
    | with_reducible apply Ok.whenS
    | with_reducible refine Ok.ite ?_ ?_
    | split

theorem Ok.fxSqUnpause {q : List Instr} (who : Who) (n : TenantIx) (m : RingIx) (s : State) (h : Ok q s) : Ok q (Machine.fxSqUnpause who n m s) := by
  unfold Machine.fxSqUnpause
  repeat' first
    | with_reducible assumption
    | intro _
    | with_reducible apply Ok.gateW
    | with_reducible apply Ok.sqClearPause

theorem Ok.sqFaultClear {q : List Instr} (n m : Nat) (s : State) (h : Ok q s) : Ok q (Machine.sqFaultClear n m s) := by
  unfold Machine.sqFaultClear
  repeat' first
    | dsimp only
    | with_reducible assumption
    | intro _
    | with_reducible refine Ok.modSq _ _ _ ?_ ?_
    | split

theorem Ok.fxSqFaultClear {q : List Instr} (who : Who) (n : TenantIx) (m : RingIx) (s : State) (h : Ok q s) : Ok q (Machine.fxSqFaultClear who n m s) := by
  unfold Machine.fxSqFaultClear
  repeat' first
    | with_reducible assumption
    | intro _
    | with_reducible apply Ok.gateW
    | with_reducible apply Ok.sqFaultClear

theorem Ok.sqFault {q : List Instr} (n m : Nat) (addr kind cause : Nat) (pref : Bool) (s : State) (h : Ok q s) : Ok q (Machine.sqFault n m addr kind cause pref s) := by
  unfold Machine.sqFault
  repeat' first
    | dsimp only
    | with_reducible assumption
    | intro _
    | with_reducible refine Ok.modSq _ _ _ ?_ ?_
    | with_reducible apply Ok.raiseT
    | with_reducible refine Ok.ite ?_ ?_
    | split

theorem Ok.fxEntryCacheRead {q : List Instr} (n : TenantIx) (m : RingIx) (slots : Nat) (s : State) (h : Ok q s) : Ok q (Machine.fxEntryCacheRead n m slots s) := by
  unfold Machine.fxEntryCacheRead
  repeat' first
    | dsimp only
    | with_reducible assumption
    | intro _
    | with_reducible apply Ok.emitRd
    | with_reducible refine Ok.modSq _ _ _ ?_ ?_
    | with_reducible apply Ok.sqFault
    | with_reducible apply Ok.violT
    | with_reducible apply Ok.whenS
    | with_reducible refine Ok.ite ?_ ?_
    | split

theorem Ok.chargeNew {q : List Instr} (n : TenantIx) (m : RingIx) (s : State) (h : Ok q s) : Ok q (Machine.chargeNew n m s) := by
  unfold Machine.chargeNew
  repeat' first
    | dsimp only
    | with_reducible assumption
    | intro _
    | with_reducible refine Ok.modSq _ _ _ ?_ ?_
    | with_reducible refine Ok.ite ?_ ?_
    | split

theorem Ok.fxRingSlotReadReturn {q : List Instr} (n : TenantIx) (m : RingIx) (data : Bytes) (ecc : Ecc) (s : State) (h : Ok q s) : Ok q (Machine.fxRingSlotReadReturn n m data ecc s) := by
  unfold Machine.fxRingSlotReadReturn
  repeat' first
    | dsimp only
    | with_reducible assumption
    | intro _
    | with_reducible apply Ok.chargeNew
    | with_reducible apply Ok.countCe
    | with_reducible apply Ok.journalUe
    | with_reducible refine Ok.modSq _ _ _ ?_ ?_
    | with_reducible apply Ok.raiseG
    | with_reducible apply Ok.whenS
    | with_reducible refine Ok.ite ?_ ?_
    | split

end Sys2Proof.Machine
end

