-- ==== Sys2Proof/Laws/KeepChannels.lean ====
section
/-!
SUPPORT. The operations of Machine/Channels.lean keep the invariant and leave the queue alone.
-/

set_option Elab.async false

namespace Sys2Proof.Machine

theorem Ok.dcViol {q : List Instr} (k : Nat) (addr : Nat) (d : Dir) (cause : Nat) (s : State) (h : Ok q s) : Ok q (Machine.dcViol k addr d cause s) := by
  unfold Machine.dcViol
  repeat' first
    | dsimp only
    | with_reducible assumption
    | intro _
    | with_reducible apply Ok.violT
    | with_reducible refine Ok.ite ?_ ?_
    | split

theorem Ok.dcRecord_eq {q : List Instr} {k st detail : Nat} {i : List Nat} {addr : Nat} {d : Dir} {s : State}  {t : State} (e : Machine.dcRecord k st detail i addr d s = some t) (h : Ok q s) : Ok q t := by
  unfold Machine.dcRecord at e
  repeat' first
    | split at e
    | (simp only [reduceCtorEq] at e; done)
    | (simp only [Option.some.injEq, Prod.mk.injEq] at e; first | subst e | (obtain ⟨_, rfl⟩ := e) | (obtain ⟨_, _, rfl⟩ := e))
    | dsimp only at e
    | with_reducible assumption
    | with_reducible apply Ok.emitRecord
    | with_reducible apply Ok.modDc

theorem Ok.dcStop {q : List Instr} (k st detail : Nat) (addr : Nat) (d : Dir) (cause : Nat) (s : State) (h : Ok q s) : Ok q (Machine.dcStop k st detail addr d cause s) := by
  unfold Machine.dcStop
  repeat' first
    | dsimp only
    | with_reducible assumption
    | intro _
    | with_reducible apply Ok.dcViol
    | with_reducible apply Ok.modDc
    | with_reducible apply Ok.raiseT
    | with_reducible refine Ok.dcRecord_eq (by assumption) ?_
    | with_reducible apply Ok.dcRecord
    | with_reducible refine Ok.ite ?_ ?_
    | split

theorem Ok.dcRecordFault {q : List Instr} (k st addr cause : Nat) (s : State) (h : Ok q s) : Ok q (Machine.dcRecordFault k st addr cause s) := by
  unfold Machine.dcRecordFault
  repeat' first
    | dsimp only
    | with_reducible assumption
    | intro _
    | with_reducible apply Ok.modDc
    | with_reducible apply Ok.raiseT
    | with_reducible refine Ok.ite ?_ ?_
    | split

theorem Ok.dcUnsup {q : List Instr} (k detail : Nat) (s : State) (h : Ok q s) : Ok q (Machine.dcUnsup k detail s) := by
  unfold Machine.dcUnsup
  repeat' first
    | with_reducible assumption
    | with_reducible apply Ok.dcStop

theorem Ok.dcWrote {q : List Instr} (k addr len : Nat) (s : State) (h : Ok q s) : Ok q (Machine.dcWrote k addr len s) := by
  unfold Machine.dcWrote
  repeat' first
    | with_reducible assumption
    | intro _
    | with_reducible apply Ok.modDc
    | with_reducible apply Ok.foldl

theorem Ok.dcWrite {q : List Instr} (k : Nat) (addr : Nat) (data : Bytes) (resume : List Nat) (s : State) (h : Ok q s) : Ok q (Machine.dcWrite k addr data resume s) := by
  unfold Machine.dcWrite
  repeat' first
    | dsimp only
    | with_reducible assumption
    | intro _
    | with_reducible apply Ok.dcStop
    | with_reducible apply Ok.dcViol
    | with_reducible apply Ok.dcWrote
    | with_reducible apply Ok.emitWr
    | with_reducible apply Ok.modDc
    | with_reducible refine Ok.ite ?_ ?_
    | split

theorem Ok.dcFlush {q : List Instr} (k : Nat) (x : Nat) (s : State) (h : Ok q s) : Ok q (Machine.dcFlush k x s) := by
  induction x generalizing s with
  | zero => exact h
  | succ n ih =>
    unfold Machine.dcFlush
    repeat' first
      | dsimp only
      | with_reducible assumption
      | intro _
      | with_reducible apply Ok.dcWrite
      | with_reducible apply Ok.modDc
      | with_reducible refine Ok.ite ?_ ?_
      | split
      | with_reducible apply ih

theorem Ok.dcFlushAll {q : List Instr} (k : Nat) (s : State) (h : Ok q s) : Ok q (Machine.dcFlushAll k s) := by
  unfold Machine.dcFlushAll
  repeat' first
    | with_reducible assumption
    | with_reducible apply Ok.dcFlush

theorem Ok.dcReadFault {q : List Instr} (k fa cause : Nat) (s : State) (h : Ok q s) : Ok q (Machine.dcReadFault k fa cause s) := by
  unfold Machine.dcReadFault
  repeat' first
    | dsimp only
    | with_reducible assumption
    | intro _
    | with_reducible apply Ok.dcFlushAll
    | with_reducible apply Ok.dcStop
    | with_reducible apply Ok.dcViol
    | with_reducible refine Ok.ite ?_ ?_

theorem Ok.dcFence {q : List Instr} (k : Nat) (s : State) (h : Ok q s) : Ok q (Machine.dcFence k s) := by
  unfold Machine.dcFence
  repeat' first
    | dsimp only
    | with_reducible assumption
    | intro _
    | with_reducible apply Ok.dcStop
    | with_reducible apply Ok.dcViol
    | with_reducible apply Ok.emitRd
    | with_reducible apply Ok.foldl
    | with_reducible apply Ok.modDc
    | with_reducible refine Ok.ite ?_ ?_
    | split

theorem Ok.dcAtPoint {q : List Instr} (k : Nat) (s : State) (h : Ok q s) : Ok q (Machine.dcAtPoint k s) := by
  unfold Machine.dcAtPoint
  repeat' first
    | dsimp only
    | with_reducible assumption
    | intro _
    | with_reducible apply Ok.dcFence
    | with_reducible apply Ok.dcFlushAll
    | with_reducible apply Ok.modDc
    | with_reducible refine Ok.ite ?_ ?_
    | split

theorem Ok.usePsrc {q : List Instr} (k p : Nat) (s : State) (h : Ok q s) : Ok q (Machine.usePsrc k p s) := by
  unfold Machine.usePsrc
  repeat' first
    | with_reducible assumption
    | with_reducible apply Ok.modDc

theorem Ok.dcSettle {q : List Instr} (k : Nat) (s : State) (h : Ok q s) : Ok q (Machine.dcSettle k s) := by
  unfold Machine.dcSettle
  repeat' first
    | dsimp only
    | with_reducible assumption
    | intro _
    | with_reducible apply Ok.modDc
    | with_reducible apply Ok.raiseT
    | with_reducible refine Ok.ite ?_ ?_

theorem Ok.dcTake {q : List Instr} (k : Nat) (b : Bytes) (s : State) (h : Ok q s) : Ok q (Machine.dcTake k b s) := by
  unfold Machine.dcTake
  repeat' first
    | dsimp only
    | with_reducible assumption
    | intro _
    | with_reducible apply Ok.dcAtPoint
    | with_reducible apply Ok.dcFence
    | with_reducible apply Ok.dcSettle
    | with_reducible apply Ok.dcUnsup
    | with_reducible apply Ok.modDc
    | with_reducible apply Ok.usePsrc
    | with_reducible refine Ok.ite ?_ ?_
    | split

theorem Ok.dcReach {q : List Instr} (k : Nat) (s : State) (h : Ok q s) : Ok q (Machine.dcReach k s) := by
  unfold Machine.dcReach
  repeat' first
    | dsimp only
    | with_reducible assumption
    | intro _
    | with_reducible apply Ok.dcStop
    | with_reducible apply Ok.dcTake
    | with_reducible apply Ok.dcUnsup
    | with_reducible apply Ok.emitRd
    | with_reducible apply Ok.modDc
    | with_reducible apply Ok.violT
    | with_reducible refine Ok.ite ?_ ?_
    | split

theorem Ok.dcGoto {q : List Instr} (k d : Nat) (s : State) (h : Ok q s) : Ok q (Machine.dcGoto k d s) := by
  unfold Machine.dcGoto
  repeat' first
    | dsimp only
    | with_reducible assumption
    | intro _
    | with_reducible apply Ok.dcReach
    | with_reducible apply Ok.modDc
    | with_reducible refine Ok.ite ?_ ?_
    | split

theorem Ok.dcIdle {q : List Instr} (k : Nat) (s : State) (h : Ok q s) : Ok q (Machine.dcIdle k s) := by
  unfold Machine.dcIdle
  repeat' first
    | dsimp only
    | with_reducible assumption
    | intro _
    | with_reducible apply Ok.modDc
    | with_reducible refine Ok.ite ?_ ?_
    | split

theorem Ok.dcCredit {q : List Instr} (k : Nat) (s : State) (h : Ok q s) : Ok q (Machine.dcCredit k s) := by
  unfold Machine.dcCredit
  repeat' first
    | dsimp only
    | with_reducible assumption
    | intro _
    | with_reducible apply Ok.dcSettle
    | with_reducible apply Ok.modDc
    | with_reducible apply Ok.raiseT
    | with_reducible refine Ok.ite ?_ ?_

theorem Ok.pulseChans {q : List Instr} (src : Nat) (s : State) (h : Ok q s) : Ok q (Machine.pulseChans src s) := by
  unfold Machine.pulseChans
  repeat' first
    | with_reducible assumption
    | intro _
    | with_reducible apply Ok.dcCredit
    | with_reducible apply Ok.eachN
    | with_reducible refine Ok.ite ?_ ?_

theorem Ok.fxDcPacePulse {q : List Instr} (src : BitVec 6) (s : State) (h : Ok q s) : Ok q (Machine.fxDcPacePulse src s) := by
  unfold Machine.fxDcPacePulse
  repeat' first
    | dsimp only
    | with_reducible assumption
    | intro _
    | with_reducible apply Ok.pulseChans
    | with_reducible apply Ok.whenS
    | with_reducible refine Ok.ite ?_ ?_
    | split

theorem Ok.chanCredits {q : List Instr} (j : Nat) (s : State) (h : Ok q s) : Ok q (Machine.chanCredits j s) := by
  unfold Machine.chanCredits
  repeat' first
    | with_reducible assumption
    | intro _
    | with_reducible apply Ok.dcCredit
    | with_reducible apply Ok.eachN
    | with_reducible refine Ok.ite ?_ ?_

theorem Ok.dcDropCopies {q : List Instr} (k : Nat) (s : State) (h : Ok q s) : Ok q (Machine.dcDropCopies k s) := by
  unfold Machine.dcDropCopies
  repeat' first
    | dsimp only
    | with_reducible assumption
    | intro _
    | with_reducible apply Ok.modDc
    | with_reducible refine Ok.ite ?_ ?_
    | split

theorem Ok.dcAbort {q : List Instr} (k : Nat) (s : State) (h : Ok q s) : Ok q (Machine.dcAbort k s) := by
  unfold Machine.dcAbort
  repeat' first
    | dsimp only
    | with_reducible assumption
    | intro _
    | with_reducible apply Ok.dcIdle
    | with_reducible apply Ok.dcRecordFault
    | with_reducible apply Ok.dcViol
    | with_reducible apply Ok.modDc
    | with_reducible refine Ok.dcRecord_eq (by assumption) ?_
    | with_reducible refine Ok.ite ?_ ?_
    | split

theorem Ok.gateDc {q : List Instr} (who : Who) (k : ChanIx) (val : Word) (f : State → State) (s : State) (h : Ok q s) (hf : ∀ x0, Ok q x0 → Ok q (f x0)) : Ok q (Machine.gateDc who k val f s) := by
  unfold Machine.gateDc
  repeat' first
    | with_reducible assumption
    | intro _
    | with_reducible apply Ok.dropReg
    | with_reducible apply Ok.gateW
    | with_reducible refine Ok.ite ?_ ?_
    | (simp_all; done)

theorem Ok.dcClrcred {q : List Instr} (k : Nat) (s : State) (h : Ok q s) : Ok q (Machine.dcClrcred k s) := by
  unfold Machine.dcClrcred
  repeat' first
    | dsimp only
    | with_reducible assumption
    | intro _
    | with_reducible apply Ok.dcSettle
    | with_reducible apply Ok.modDc
    | with_reducible refine Ok.ite ?_ ?_
    | split

theorem Ok.fxDcAbort {q : List Instr} (who : Who) (k : ChanIx) (s : State) (h : Ok q s) : Ok q (Machine.fxDcAbort who k s) := by
  unfold Machine.fxDcAbort
  repeat' first
    | with_reducible assumption
    | intro _
    | with_reducible apply Ok.dcAbort
    | with_reducible apply Ok.gateDc

theorem Ok.fxDcRefetch {q : List Instr} (who : Who) (k : ChanIx) (s : State) (h : Ok q s) : Ok q (Machine.fxDcRefetch who k s) := by
  unfold Machine.fxDcRefetch
  repeat' first
    | with_reducible assumption
    | intro _
    | with_reducible apply Ok.dcDropCopies
    | with_reducible apply Ok.gateDc

theorem Ok.fxDcClrcred {q : List Instr} (who : Who) (k : ChanIx) (s : State) (h : Ok q s) : Ok q (Machine.fxDcClrcred who k s) := by
  unfold Machine.fxDcClrcred
  repeat' first
    | dsimp only
    | with_reducible assumption
    | intro _
    | with_reducible apply Ok.dcClrcred
    | with_reducible apply Ok.gateDc
    | with_reducible refine Ok.ite ?_ ?_
    | split

theorem Ok.dcConfig {q : List Instr} (who : Who) (k : ChanIx) (r : DcSetup) (mask val : Word) (s : State) (h : Ok q s) : Ok q (Machine.dcConfig who k r mask val s) := by
  unfold Machine.dcConfig
  repeat' first
    | dsimp only
    | with_reducible assumption
    | intro _
    | with_reducible apply Ok.dcSettle
    | with_reducible apply Ok.dropPiece
    | with_reducible apply Ok.modDc
    | with_reducible refine Ok.ite ?_ ?_
    | split

theorem Ok.fxDcConfigWrite {q : List Instr} (who : Who) (k : ChanIx) (r : DcSetup) (v : Word) (s : State) (h : Ok q s) : Ok q (Machine.fxDcConfigWrite who k r v s) := by
  unfold Machine.fxDcConfigWrite
  repeat' first
    | with_reducible assumption
    | intro _
    | with_reducible apply Ok.dcConfig
    | with_reducible apply Ok.gateW

theorem Ok.dcHead {q : List Instr} (k new : Nat) (s : State) (h : Ok q s) : Ok q (Machine.dcHead k new s) := by
  unfold Machine.dcHead
  repeat' first
    | with_reducible assumption
    | with_reducible apply Ok.dcSettle
    | with_reducible apply Ok.modDc

theorem Ok.fxDcRecHeadWrite {q : List Instr} (who : Who) (k : ChanIx) (head : BitVec 11) (s : State) (h : Ok q s) : Ok q (Machine.fxDcRecHeadWrite who k head s) := by
  unfold Machine.fxDcRecHeadWrite
  repeat' first
    | with_reducible assumption
    | intro _
    | with_reducible apply Ok.dcHead
    | with_reducible apply Ok.gateW

theorem Ok.fxDescriptorFetchReturn {q : List Instr} (k : ChanIx) (data : Bytes) (s : State) (h : Ok q s) : Ok q (Machine.fxDescriptorFetchReturn k data s) := by
  unfold Machine.fxDescriptorFetchReturn
  repeat' first
    | dsimp only
    | with_reducible assumption
    | intro _
    | with_reducible apply Ok.dcTake
    | with_reducible apply Ok.emitRd
    | with_reducible apply Ok.modDc
    | with_reducible apply Ok.whenS
    | with_reducible refine Ok.ite ?_ ?_
    | split

theorem Ok.dcTag {q : List Instr} (k : Nat) (s : State) (h : Ok q s) : Ok q (Machine.dcTag k s) := by
  unfold Machine.dcTag
  repeat' first
    | with_reducible assumption
    | with_reducible apply Ok.modDc

theorem Ok.fxDcUnitStart {q : List Instr} (k : ChanIx) (s : State) (h : Ok q s) : Ok q (Machine.fxDcUnitStart k s) := by
  unfold Machine.fxDcUnitStart
  repeat' first
    | dsimp only
    | with_reducible assumption
    | intro _
    | with_reducible apply Ok.dcTag
    | with_reducible apply Ok.modDc
    | with_reducible apply Ok.whenS

theorem Ok.dcServed {q : List Instr} (k : Nat) (s : State) (h : Ok q s) : Ok q (Machine.dcServed k s) := by
  unfold Machine.dcServed
  repeat' first
    | dsimp only
    | with_reducible assumption
    | intro _
    | with_reducible apply Ok.modSch
    | with_reducible refine Ok.ite ?_ ?_
    | split

theorem Ok.dcRead {q : List Instr} (k : Nat) (d : Desc) (is : List (Nat × Nat × Nat)) (data : Bytes) (s : State) (h : Ok q s) : Ok q (Machine.dcRead k d is data s) := by
  unfold Machine.dcRead
  repeat' first
    | dsimp only
    | with_reducible assumption
    | intro _
    | with_reducible apply Ok.emitRd
    | with_reducible apply Ok.modDc
    | with_reducible refine Ok.ite ?_ ?_
    | split

theorem Ok.dcMoved {q : List Instr} (k n : Nat) (s : State) (h : Ok q s) : Ok q (Machine.dcMoved k n s) := by
  unfold Machine.dcMoved
  repeat' first
    | dsimp only
    | with_reducible assumption
    | intro _
    | with_reducible apply Ok.dcTag
    | with_reducible apply Ok.modDc
    | with_reducible refine Ok.ite ?_ ?_

theorem Ok.dcGather {q : List Instr} (k key addr : Nat) (data : Bytes) (s : State) (h : Ok q s) : Ok q (Machine.dcGather k key addr data s) := by
  unfold Machine.dcGather
  repeat' first
    | dsimp only
    | with_reducible assumption
    | intro _
    | with_reducible apply Ok.dcWrite
    | with_reducible apply Ok.modDc
    | with_reducible refine Ok.ite ?_ ?_
    | split

theorem Ok.dcAdvance {q : List Instr} (k : Nat) (d : Desc) (s : State) (h : Ok q s) : Ok q (Machine.dcAdvance k d s) := by
  unfold Machine.dcAdvance
  repeat' first
    | dsimp only
    | with_reducible assumption
    | intro _
    | with_reducible apply Ok.dcAtPoint
    | with_reducible apply Ok.dcFlushAll
    | with_reducible apply Ok.dcSettle
    | with_reducible apply Ok.modDc
    | with_reducible refine Ok.ite ?_ ?_

theorem Ok.dcMove {q : List Instr} (k : Nat) (d : Desc) (data : Bytes) (s : State) (h : Ok q s) : Ok q (Machine.dcMove k d data s) := by
  unfold Machine.dcMove
  repeat' first
    | dsimp only
    | with_reducible assumption
    | intro _
    | with_reducible apply Ok.dcAdvance
    | with_reducible apply Ok.dcGather
    | with_reducible apply Ok.dcMoved
    | with_reducible refine Ok.ite ?_ ?_
    | split

theorem Ok.dcMoveRead {q : List Instr} (k : Nat) (d : Desc) (s : State) (h : Ok q s) : Ok q (Machine.dcMoveRead k d s) := by
  unfold Machine.dcMoveRead
  repeat' first
    | dsimp only
    | with_reducible assumption
    | intro _
    | with_reducible apply Ok.dcMove
    | with_reducible apply Ok.modDc
    | with_reducible refine Ok.ite ?_ ?_
    | split

theorem Ok.dcComplete {q : List Instr} (k : Nat) (x : Nat) (s : State) (h : Ok q s) : Ok q (Machine.dcComplete k x s) := by
  induction x generalizing s with
  | zero => exact h
  | succ l ih =>
    unfold Machine.dcComplete
    repeat' first
      | dsimp only
      | with_reducible assumption
      | intro _
      | with_reducible apply Ok.dcMoveRead
      | with_reducible refine Ok.ite ?_ ?_
      | split
      | with_reducible apply ih

theorem Ok.dcSetPause {q : List Instr} (k : Nat) (s : State) (h : Ok q s) : Ok q (Machine.dcSetPause k s) := by
  unfold Machine.dcSetPause
  repeat' first
    | dsimp only
    | with_reducible assumption
    | intro _
    | with_reducible apply Ok.dcComplete
    | with_reducible apply Ok.dcFlushAll
    | with_reducible apply Ok.modDc
    | with_reducible refine Ok.ite ?_ ?_
    | split

theorem Ok.dcHoldBack {q : List Instr} (k : Nat) (s : State) (h : Ok q s) : Ok q (Machine.dcHoldBack k s) := by
  unfold Machine.dcHoldBack
  repeat' first
    | dsimp only
    | with_reducible assumption
    | intro _
    | with_reducible apply Ok.dcSetPause
    | with_reducible apply Ok.whenS
    | with_reducible refine Ok.ite ?_ ?_
    | split

theorem Ok.dcStart {q : List Instr} (k : Nat) (s : State) (h : Ok q s) : Ok q (Machine.dcStart k s) := by
  unfold Machine.dcStart
  repeat' first
    | dsimp only
    | with_reducible assumption
    | intro _
    | with_reducible apply Ok.dcHoldBack
    | with_reducible apply Ok.dcReach
    | with_reducible apply Ok.dcSettle
    | with_reducible apply Ok.modDc
    | with_reducible refine Ok.ite ?_ ?_
    | split

theorem Ok.dcClearPause {q : List Instr} (k : Nat) (s : State) (h : Ok q s) : Ok q (Machine.dcClearPause k s) := by
  unfold Machine.dcClearPause
  repeat' first
    | with_reducible assumption
    | intro _
    | with_reducible apply Ok.dcStart
    | with_reducible apply Ok.modDc
    | with_reducible refine Ok.ite ?_ ?_

theorem Ok.dcCtlWrite {q : List Instr} (k : Nat) (mask val : Word) (s : State) (h : Ok q s) : Ok q (Machine.dcCtlWrite k mask val s) := by
  unfold Machine.dcCtlWrite
  repeat' first
    | dsimp only
    | with_reducible assumption
    | intro _
    | with_reducible apply Ok.dcAbort
    | with_reducible apply Ok.dcClearPause
    | with_reducible apply Ok.dcClrcred
    | with_reducible apply Ok.dcDropCopies
    | with_reducible apply Ok.dcSetPause
    | with_reducible apply Ok.dcStart
    | with_reducible refine Ok.ite ?_ ?_
    | split

theorem Ok.fxDcResume {q : List Instr} (who : Who) (k : ChanIx) (s : State) (h : Ok q s) : Ok q (Machine.fxDcResume who k s) := by
  unfold Machine.fxDcResume
  repeat' first
    | with_reducible assumption
    | intro _
    | with_reducible apply Ok.dcClearPause
    | with_reducible apply Ok.gateDc

theorem Ok.fxDcGo {q : List Instr} (who : Who) (k : ChanIx) (s : State) (h : Ok q s) : Ok q (Machine.fxDcGo who k s) := by
  unfold Machine.fxDcGo
  repeat' first
    | with_reducible assumption
    | intro _
    | with_reducible apply Ok.dcStart
    | with_reducible apply Ok.gateDc

theorem Ok.fxDcPause {q : List Instr} (who : Who) (k : ChanIx) (s : State) (h : Ok q s) : Ok q (Machine.fxDcPause who k s) := by
  unfold Machine.fxDcPause
  repeat' first
    | with_reducible assumption
    | intro _
    | with_reducible apply Ok.dcSetPause
    | with_reducible apply Ok.gateDc

theorem Ok.fxDcElementGrant {q : List Instr} (k : ChanIx) (data : Bytes) (move : Bool) (s : State) (h : Ok q s) : Ok q (Machine.fxDcElementGrant k data move s) := by
  unfold Machine.fxDcElementGrant
  repeat' first
    | dsimp only
    | with_reducible assumption
    | intro _
    | with_reducible apply Ok.dcMoveRead
    | with_reducible apply Ok.dcRead
    | with_reducible apply Ok.dcReadFault
    | with_reducible apply Ok.dcServed
    | with_reducible apply Ok.whenS
    | with_reducible refine Ok.ite ?_ ?_
    | split

theorem Ok.dcPost {q : List Instr} (k sq adv count : Nat) (meets : Bool) (s : State) (h : Ok q s) : Ok q (Machine.dcPost k sq adv count meets s) := by
  unfold Machine.dcPost
  repeat' first
    | dsimp only
    | with_reducible assumption
    | intro _
    | with_reducible apply Ok.dbWrite
    | with_reducible apply Ok.modDc
    | with_reducible apply Ok.raiseT
    | with_reducible refine Ok.ite ?_ ?_
    | split

theorem Ok.dcDone {q : List Instr} (k : Nat) (s : State) (h : Ok q s) : Ok q (Machine.dcDone k s) := by
  unfold Machine.dcDone
  repeat' first
    | with_reducible assumption
    | with_reducible apply Ok.dcRecordFault
    | with_reducible apply Ok.dcViol
    | with_reducible refine Ok.dcRecord_eq (by assumption) ?_
    | split

theorem Ok.dcActs {q : List Instr} (k : Nat) (b : Bytes) (meets : Bool) (s : State) (h : Ok q s) : Ok q (Machine.dcActs k b meets s) := by
  unfold Machine.dcActs
  repeat' first
    | dsimp only
    | with_reducible assumption
    | intro _
    | with_reducible apply Ok.chanCredits
    | with_reducible apply Ok.dcDone
    | with_reducible apply Ok.dcPost
    | with_reducible apply Ok.raiseT
    | with_reducible refine Ok.ite ?_ ?_
    | split

theorem Ok.dcNext {q : List Instr} (k : Nat) (d : Desc) (s : State) (h : Ok q s) : Ok q (Machine.dcNext k d s) := by
  unfold Machine.dcNext
  repeat' first
    | dsimp only
    | with_reducible assumption
    | intro _
    | with_reducible apply Ok.dcGoto
    | with_reducible apply Ok.dcIdle
    | with_reducible refine Ok.ite ?_ ?_
    | split

theorem Ok.fxDcCompletionPoint {q : List Instr} (k : ChanIx) (meets : Bool) (s : State) (h : Ok q s) : Ok q (Machine.fxDcCompletionPoint k meets s) := by
  unfold Machine.fxDcCompletionPoint
  repeat' first
    | dsimp only
    | with_reducible assumption
    | intro _
    | with_reducible apply Ok.dcActs
    | with_reducible apply Ok.dcNext
    | with_reducible apply Ok.modDc
    | with_reducible apply Ok.whenS
    | with_reducible refine Ok.ite ?_ ?_
    | split

theorem Ok.dcClear {q : List Instr} (k : Nat) (s : State) (h : Ok q s) : Ok q (Machine.dcClear k s) := by
  unfold Machine.dcClear
  repeat' first
    | dsimp only
    | with_reducible assumption
    | intro _
    | with_reducible apply Ok.modDc
    | with_reducible refine Ok.ite ?_ ?_
    | split

theorem Ok.dcReassign {q : List Instr} (k detail : Nat) (s : State) (h : Ok q s) : Ok q (Machine.dcReassign k detail s) := by
  unfold Machine.dcReassign
  repeat' first
    | dsimp only
    | with_reducible assumption
    | intro _
    | with_reducible apply Ok.dcActs
    | with_reducible apply Ok.dcClear
    | with_reducible apply Ok.dcViol
    | with_reducible apply Ok.modDc
    | with_reducible refine Ok.dcRecord_eq (by assumption) ?_
    | with_reducible apply Ok.dcRecord
    | with_reducible refine Ok.ite ?_ ?_
    | split

theorem Ok.dcReset {q : List Instr} (k : Nat) (s : State) (h : Ok q s) : Ok q (Machine.dcReset k s) := by
  unfold Machine.dcReset
  repeat' first
    | dsimp only
    | with_reducible assumption
    | intro _
    | with_reducible apply Ok.dcClear
    | with_reducible apply Ok.dropReg
    | with_reducible refine Ok.ite ?_ ?_
    | split

theorem Ok.dcMergedFault {q : List Instr} (n : Nat) (addr : Nat) (s : State) (h : Ok q s) : Ok q (Machine.dcMergedFault n addr s) := by
  unfold Machine.dcMergedFault
  repeat' first
    | dsimp only
    | with_reducible assumption
    | intro _
    | with_reducible apply Ok.dcFlushAll
    | with_reducible apply Ok.dcStop
    | with_reducible apply Ok.eachN
    | with_reducible refine Ok.modTen _ _ ?_ ?_ ?_ ?_
    | with_reducible apply Ok.raiseG
    | with_reducible apply Ok.raiseT
    | with_reducible refine Ok.ite ?_ ?_
    | split
    | (rename_i hh; split at hh <;> first | exact hh | (simp_all; done))

theorem Ok.dcElementError {q : List Instr} (k addr : Nat) (s : State) (h : Ok q s) : Ok q (Machine.dcElementError k addr s) := by
  unfold Machine.dcElementError
  repeat' first
    | dsimp only
    | with_reducible assumption
    | intro _
    | with_reducible apply Ok.dcComplete
    | with_reducible apply Ok.dcFlushAll
    | with_reducible apply Ok.dcStop
    | with_reducible apply Ok.modDc
    | with_reducible refine Ok.ite ?_ ?_
    | split

theorem Ok.dcBusError {q : List Instr} (k : Nat) (addr : Nat) (d : Dir) (pref : Bool) (s : State) (h : Ok q s) : Ok q (Machine.dcBusError k addr d pref s) := by
  unfold Machine.dcBusError
  repeat' first
    | dsimp only
    | with_reducible assumption
    | intro _
    | with_reducible apply Ok.dcElementError
    | with_reducible apply Ok.dcRecordFault
    | with_reducible apply Ok.dcStop
    | with_reducible apply Ok.modDc
    | with_reducible refine Ok.ite ?_ ?_
    | split

end Sys2Proof.Machine
end

