-- ==== Sys2Proof/Laws/KeepTrowel.lean ====
section
/-!
SUPPORT. The operations of Machine/Trowel.lean keep the invariant and leave the queue alone.
-/

set_option Elab.async false

namespace Sys2Proof.Machine

theorem Ok.tRun {q : List Instr} (k : ChanIx) (opc : Nat) (f : Bytes → State → State) (s : State) (h : Ok q s) (hf : ∀ x0 x1, Ok q x1 → Ok q (f x0 x1)) : Ok q (Machine.tRun k opc f s) := by
  unfold Machine.tRun
  repeat' first
    | with_reducible assumption
    | intro _
    | with_reducible apply Ok.whenS
    | split
    | (simp_all; done)

theorem Ok.tNext {q : List Instr} (k : ChanIx) (s : State) (h : Ok q s) : Ok q (Machine.tNext k s) := by
  unfold Machine.tNext
  repeat' first
    | with_reducible assumption
    | with_reducible apply Ok.dcGoto

theorem Ok.tSetA {q : List Instr} (k : ChanIx) (r v : Nat) (s : State) (h : Ok q s) : Ok q (Machine.tSetA k r v s) := by
  unfold Machine.tSetA
  repeat' first
    | with_reducible assumption
    | with_reducible apply Ok.modDc

theorem Ok.tSetC {q : List Instr} (k : ChanIx) (r v : Nat) (s : State) (h : Ok q s) : Ok q (Machine.tSetC k r v s) := by
  unfold Machine.tSetC
  repeat' first
    | with_reducible assumption
    | with_reducible apply Ok.modDc

theorem Ok.fxSeta {q : List Instr} (k : ChanIx) (s : State) (h : Ok q s) : Ok q (Machine.fxSeta k s) := by
  unfold Machine.fxSeta
  repeat' first
    | with_reducible assumption
    | intro _
    | with_reducible apply Ok.tNext
    | with_reducible apply Ok.tRun
    | with_reducible apply Ok.tSetA

theorem Ok.fxAdda {q : List Instr} (k : ChanIx) (s : State) (h : Ok q s) : Ok q (Machine.fxAdda k s) := by
  unfold Machine.fxAdda
  repeat' first
    | dsimp only
    | with_reducible assumption
    | intro _
    | with_reducible apply Ok.dcUnsup
    | with_reducible apply Ok.tNext
    | with_reducible apply Ok.tRun
    | with_reducible apply Ok.tSetA
    | with_reducible refine Ok.ite ?_ ?_

theorem Ok.fxSetc {q : List Instr} (k : ChanIx) (s : State) (h : Ok q s) : Ok q (Machine.fxSetc k s) := by
  unfold Machine.fxSetc
  repeat' first
    | with_reducible assumption
    | intro _
    | with_reducible apply Ok.tNext
    | with_reducible apply Ok.tRun
    | with_reducible apply Ok.tSetC

theorem Ok.tSetOff {q : List Instr} (k : ChanIx) (o : Nat) (s : State) (h : Ok q s) : Ok q (Machine.tSetOff k o s) := by
  unfold Machine.tSetOff
  repeat' first
    | with_reducible assumption
    | with_reducible apply Ok.modDc

theorem Ok.tInc {q : List Instr} (k : ChanIx) (r : Nat) (n : Nat) (on : Bool) (s : State) (h : Ok q s) : Ok q (Machine.tInc k r n on s) := by
  unfold Machine.tInc
  repeat' first
    | with_reducible assumption
    | intro _
    | with_reducible apply Ok.dcUnsup
    | with_reducible apply Ok.tSetA
    | with_reducible refine Ok.ite ?_ ?_

theorem Ok.tMoveEnd {q : List Instr} (k : ChanIx) (b : Bytes) (ns nd : Nat) (s : State) (h : Ok q s) : Ok q (Machine.tMoveEnd k b ns nd s) := by
  unfold Machine.tMoveEnd
  repeat' first
    | dsimp only
    | with_reducible assumption
    | intro _
    | with_reducible apply Ok.tInc
    | with_reducible apply Ok.tNext
    | with_reducible refine Ok.ite ?_ ?_

theorem Ok.tCopy {q : List Instr} (k : ChanIx) (sa da : Nat) (data : Bytes) (s : State) (h : Ok q s) : Ok q (Machine.tCopy k sa da data s) := by
  unfold Machine.tCopy
  repeat' first
    | dsimp only
    | with_reducible assumption
    | intro _
    | with_reducible apply Ok.dcWrote
    | with_reducible apply Ok.emitRd
    | with_reducible apply Ok.emitWr
    | with_reducible apply Ok.foldl
    | with_reducible apply Ok.modDc
    | with_reducible refine Ok.ite ?_ ?_
    | split

theorem Ok.fxMove {q : List Instr} (k : ChanIx) (data : Bytes) (s : State) (h : Ok q s) : Ok q (Machine.fxMove k data s) := by
  unfold Machine.fxMove
  repeat' first
    | dsimp only
    | with_reducible assumption
    | intro _
    | with_reducible apply Ok.dcMoved
    | with_reducible apply Ok.dcServed
    | with_reducible apply Ok.dcStop
    | with_reducible apply Ok.dcTag
    | with_reducible apply Ok.dcUnsup
    | with_reducible apply Ok.dcViol
    | with_reducible apply Ok.tCopy
    | with_reducible apply Ok.tMoveEnd
    | with_reducible apply Ok.tRun
    | with_reducible apply Ok.tSetOff
    | with_reducible apply Ok.whenS
    | with_reducible refine Ok.ite ?_ ?_
    | split

theorem Ok.xReads {q : List Instr} (x : BitVec 13) (a : Nat) (p : Int) (f0 g : Nat) (s : State) (h : Ok q s) : Ok q (Machine.xReads x a p f0 g s) := by
  unfold Machine.xReads
  repeat' first
    | dsimp only
    | with_reducible assumption
    | intro _
    | with_reducible apply Ok.eachN
    | with_reducible apply Ok.emitRd
    | with_reducible apply Ok.foldl
    | with_reducible refine Ok.ite ?_ ?_
    | split

theorem Ok.xSample {q : List Instr} (k : ChanIx) (x : BitVec 13) (da f ch : Nat) (b : Bytes) (s : State) (h : Ok q s) : Ok q (Machine.xSample k x da f ch b s) := by
  unfold Machine.xSample
  repeat' first
    | dsimp only
    | with_reducible assumption
    | intro _
    | with_reducible apply Ok.dcGather
    | with_reducible apply Ok.dcMoved
    | with_reducible apply Ok.modDc
    | with_reducible refine Ok.ite ?_ ?_
    | split

theorem Ok.fxXmove {q : List Instr} (k : ChanIx) (data : Bytes) (s : State) (h : Ok q s) : Ok q (Machine.fxXmove k data s) := by
  unfold Machine.fxXmove
  repeat' first
    | dsimp only
    | with_reducible assumption
    | intro _
    | with_reducible apply Ok.dcFlushAll
    | with_reducible apply Ok.dcReadFault
    | with_reducible apply Ok.dcServed
    | with_reducible apply Ok.dcTag
    | with_reducible apply Ok.dcUnsup
    | with_reducible apply Ok.eachN
    | with_reducible apply Ok.modDc
    | with_reducible apply Ok.tMoveEnd
    | with_reducible apply Ok.tRun
    | with_reducible apply Ok.whenS
    | with_reducible apply Ok.xReads
    | with_reducible apply Ok.xSample
    | with_reducible refine Ok.ite ?_ ?_
    | split

theorem Ok.fxXcfg {q : List Instr} (k : ChanIx) (s : State) (h : Ok q s) : Ok q (Machine.fxXcfg k s) := by
  unfold Machine.fxXcfg
  repeat' first
    | with_reducible assumption
    | intro _
    | with_reducible apply Ok.modDc
    | with_reducible apply Ok.tNext
    | with_reducible apply Ok.tRun

theorem Ok.fxLoop {q : List Instr} (k : ChanIx) (s : State) (h : Ok q s) : Ok q (Machine.fxLoop k s) := by
  unfold Machine.fxLoop
  repeat' first
    | dsimp only
    | with_reducible assumption
    | intro _
    | with_reducible apply Ok.dcGoto
    | with_reducible apply Ok.tNext
    | with_reducible apply Ok.tRun
    | with_reducible apply Ok.tSetC
    | with_reducible refine Ok.ite ?_ ?_

theorem Ok.fxJump {q : List Instr} (k : ChanIx) (s : State) (h : Ok q s) : Ok q (Machine.fxJump k s) := by
  unfold Machine.fxJump
  repeat' first
    | with_reducible assumption
    | intro _
    | with_reducible apply Ok.dcGoto
    | with_reducible apply Ok.tRun

theorem Ok.fxWait {q : List Instr} (k : ChanIx) (s : State) (h : Ok q s) : Ok q (Machine.fxWait k s) := by
  unfold Machine.fxWait
  repeat' first
    | dsimp only
    | with_reducible assumption
    | intro _
    | with_reducible apply Ok.modDc
    | with_reducible apply Ok.tNext
    | with_reducible apply Ok.tRun
    | with_reducible apply Ok.whenS
    | with_reducible refine Ok.ite ?_ ?_

theorem Ok.fxFence {q : List Instr} (k : ChanIx) (s : State) (h : Ok q s) : Ok q (Machine.fxFence k s) := by
  unfold Machine.fxFence
  repeat' first
    | dsimp only
    | with_reducible assumption
    | intro _
    | with_reducible apply Ok.modDc
    | with_reducible apply Ok.tNext
    | with_reducible apply Ok.whenS
    | with_reducible refine Ok.ite ?_ ?_
    | split

theorem Ok.fxPost {q : List Instr} (k : ChanIx) (meets : Bool) (s : State) (h : Ok q s) : Ok q (Machine.fxPost k meets s) := by
  unfold Machine.fxPost
  repeat' first
    | dsimp only
    | with_reducible assumption
    | intro _
    | with_reducible apply Ok.dcPost
    | with_reducible apply Ok.tNext
    | with_reducible apply Ok.tRun
    | with_reducible refine Ok.ite ?_ ?_
    | split

theorem Ok.fxRecord {q : List Instr} (k : ChanIx) (s : State) (h : Ok q s) : Ok q (Machine.fxRecord k s) := by
  unfold Machine.fxRecord
  repeat' first
    | dsimp only
    | with_reducible assumption
    | intro _
    | with_reducible apply Ok.dcDone
    | with_reducible apply Ok.tNext
    | with_reducible apply Ok.tRun
    | with_reducible apply Ok.whenS
    | with_reducible refine Ok.ite ?_ ?_

theorem Ok.fxEvent {q : List Instr} (k : ChanIx) (s : State) (h : Ok q s) : Ok q (Machine.fxEvent k s) := by
  unfold Machine.fxEvent
  repeat' first
    | with_reducible assumption
    | intro _
    | with_reducible apply Ok.raiseT
    | with_reducible apply Ok.tNext
    | with_reducible apply Ok.tRun

theorem Ok.fxHalt {q : List Instr} (k : ChanIx) (s : State) (h : Ok q s) : Ok q (Machine.fxHalt k s) := by
  unfold Machine.fxHalt
  repeat' first
    | with_reducible assumption
    | intro _
    | with_reducible apply Ok.dcIdle
    | with_reducible apply Ok.tRun

end Sys2Proof.Machine
end

