-- ==== Sys2Proof/Laws/KeepTime.lean ====
section
/-!
SUPPORT. The operations of Machine/Time.lean keep the invariant and leave the queue alone.
-/

set_option Elab.async false

namespace Sys2Proof.Machine

theorem Ok.tick {q : List Instr} (s : State) (h : Ok q s) : Ok q (Machine.tick s) := by
  unfold Machine.tick
  repeat' first
    | dsimp only
    | with_reducible assumption
    | intro _
    | with_reducible apply Ok.modTime
    | with_reducible refine Ok.ite ?_ ?_

theorem Ok.fxTimeLowWrap {q : List Instr} (s : State) (h : Ok q s) : Ok q (Machine.fxTimeLowWrap s) := by
  unfold Machine.fxTimeLowWrap
  repeat' first
    | with_reducible assumption
    | intro _
    | with_reducible apply Ok.modTime
    | with_reducible apply Ok.timeMark
    | with_reducible apply Ok.whenS

theorem Ok.timeStep {q : List Instr} (ns : Word) (s : State) (h : Ok q s) : Ok q (Machine.timeStep ns s) := by
  unfold Machine.timeStep
  repeat' first
    | dsimp only
    | with_reducible assumption
    | intro _
    | with_reducible apply Ok.journal
    | with_reducible apply Ok.modSch
    | with_reducible apply Ok.modTime
    | with_reducible apply Ok.raiseG
    | with_reducible apply Ok.timeMark
    | with_reducible refine Ok.ite ?_ ?_
    | split
    | (simp_all; done)

theorem Ok.armCapt {q : List Instr} (s : State) (h : Ok q s) : Ok q (Machine.armCapt s) := by
  unfold Machine.armCapt
  repeat' first
    | with_reducible assumption
    | with_reducible apply Ok.modOwn

theorem Ok.armSync {q : List Instr} (s : State) (h : Ok q s) : Ok q (Machine.armSync s) := by
  unfold Machine.armSync
  repeat' first
    | with_reducible assumption
    | with_reducible apply Ok.modOwn

theorem Ok.fxTimeCapt {q : List Instr} (who : Who) (s : State) (h : Ok q s) : Ok q (Machine.fxTimeCapt who s) := by
  unfold Machine.fxTimeCapt
  repeat' first
    | with_reducible assumption
    | intro _
    | with_reducible apply Ok.armCapt
    | with_reducible apply Ok.gateW

theorem Ok.fxTimeSync {q : List Instr} (who : Who) (s : State) (h : Ok q s) : Ok q (Machine.fxTimeSync who s) := by
  unfold Machine.fxTimeSync
  repeat' first
    | with_reducible assumption
    | intro _
    | with_reducible apply Ok.armSync
    | with_reducible apply Ok.gateW

theorem Ok.adjust {q : List Instr} (s : State) (h : Ok q s) : Ok q (Machine.adjust s) := by
  unfold Machine.adjust
  repeat' first
    | with_reducible assumption
    | with_reducible apply Ok.timeStep

theorem Ok.fxAdjGo {q : List Instr} (who : Who) (s : State) (h : Ok q s) : Ok q (Machine.fxAdjGo who s) := by
  unfold Machine.fxAdjGo
  repeat' first
    | with_reducible assumption
    | intro _
    | with_reducible apply Ok.adjust
    | with_reducible apply Ok.gateW

theorem Ok.setRun {q : List Instr} (run : Bool) (s : State) (h : Ok q s) : Ok q (Machine.setRun run s) := by
  unfold Machine.setRun
  repeat' first
    | dsimp only
    | with_reducible assumption
    | intro _
    | with_reducible apply Ok.modOwn
    | with_reducible apply Ok.modTime
    | with_reducible apply Ok.raiseG
    | with_reducible apply Ok.releasePosted
    | with_reducible apply Ok.timeMark
    | with_reducible refine Ok.ite ?_ ?_
    | split

theorem Ok.fxTimeRunWrite {q : List Instr} (who : Who) (run : Bool) (s : State) (h : Ok q s) : Ok q (Machine.fxTimeRunWrite who run s) := by
  unfold Machine.fxTimeRunWrite
  repeat' first
    | with_reducible assumption
    | intro _
    | with_reducible apply Ok.gateW
    | with_reducible apply Ok.setRun

theorem Ok.fxTsuStrobe {q : List Instr} (ns : Word) (frac : BitVec 32) (s : State) (h : Ok q s) : Ok q (Machine.fxTsuStrobe ns frac s) := by
  unfold Machine.fxTsuStrobe
  repeat' first
    | dsimp only
    | with_reducible assumption
    | intro _
    | with_reducible apply Ok.modOwn
    | with_reducible apply Ok.modTime
    | with_reducible apply Ok.timeStep
    | with_reducible apply Ok.whenS
    | with_reducible refine Ok.ite ?_ ?_

theorem Ok.fxComparatorFire {q : List Instr} (j : Fin 8) (s : State) (h : Ok q s) : Ok q (Machine.fxComparatorFire j s) := by
  unfold Machine.fxComparatorFire
  repeat' first
    | dsimp only
    | with_reducible assumption
    | intro _
    | with_reducible apply Ok.modTcmp
    | with_reducible apply Ok.modTime
    | with_reducible apply Ok.pulseChans
    | with_reducible apply Ok.pulseRings
    | with_reducible apply Ok.raiseG
    | with_reducible apply Ok.whenS
    | with_reducible refine Ok.ite ?_ ?_

theorem Ok.fxTcmpPulseEnd {q : List Instr} (j : Fin 8) (s : State) (h : Ok q s) : Ok q (Machine.fxTcmpPulseEnd j s) := by
  unfold Machine.fxTcmpPulseEnd
  repeat' first
    | with_reducible assumption
    | with_reducible apply Ok.modTime

theorem Ok.fxTriggerEdge {q : List Instr} (i : Fin 8) (s : State) (h : Ok q s) : Ok q (Machine.fxTriggerEdge i s) := by
  unfold Machine.fxTriggerEdge
  repeat' first
    | with_reducible assumption
    | intro _
    | with_reducible apply Ok.modTime
    | with_reducible apply Ok.pulseChans
    | with_reducible apply Ok.pulseRings
    | with_reducible apply Ok.whenS

theorem Ok.fxBudgetRefill {q : List Instr} (s : State) (h : Ok q s) : Ok q (Machine.fxBudgetRefill s) := by
  unfold Machine.fxBudgetRefill
  repeat' first
    | dsimp only
    | with_reducible assumption
    | intro _
    | with_reducible apply Ok.eachN
    | with_reducible apply Ok.modSch
    | with_reducible refine Ok.modSq _ _ _ ?_ ?_
    | with_reducible apply Ok.whenS
    | with_reducible refine Ok.ite ?_ ?_
    | split

end Sys2Proof.Machine
end

