-- ==== Sys2Proof/Laws/KeepScheduler.lean ====
section
/-!
SUPPORT. The operations of Machine/Scheduler.lean keep the invariant and leave the queue alone.
-/

set_option Elab.async false

namespace Sys2Proof.Machine

theorem Ok.unstall {q : List Instr} (n : Nat) (s : State) (h : Ok q s) : Ok q (Machine.unstall n s) := by
  unfold Machine.unstall
  repeat' first
    | with_reducible assumption
    | intro _
    | with_reducible apply Ok.eachN
    | with_reducible apply Ok.modCq
    | with_reducible refine Ok.ite ?_ ?_

theorem Ok.newRound {q : List Instr} (cls : Nat) (s : State) (h : Ok q s) : Ok q (Machine.newRound cls s) := by
  unfold Machine.newRound
  repeat' first
    | dsimp only
    | with_reducible assumption
    | intro _
    | with_reducible apply Ok.eachN
    | with_reducible refine Ok.modCrs _ ?_ ?_
    | with_reducible refine Ok.modSq _ _ _ ?_ ?_
    | with_reducible refine Ok.ite ?_ ?_
    | split

theorem Ok.endVisit {q : List Instr} (cls : Nat) (s : State) (h : Ok q s) : Ok q (Machine.endVisit cls s) := by
  unfold Machine.endVisit
  repeat' first
    | dsimp only
    | with_reducible assumption
    | intro _
    | with_reducible apply Ok.modSch
    | with_reducible refine Ok.ite ?_ ?_
    | split

theorem Ok.endRound {q : List Instr} (cls : Nat) (s : State) (h : Ok q s) : Ok q (Machine.endRound cls s) := by
  unfold Machine.endRound
  repeat' first
    | dsimp only
    | with_reducible assumption
    | intro _
    | with_reducible apply Ok.newRound
    | with_reducible refine Ok.ite ?_ ?_
    | split

theorem Ok.turnRounds {q : List Instr} (s : State) (h : Ok q s) : Ok q (Machine.turnRounds s) := by
  unfold Machine.turnRounds
  repeat' first
    | dsimp only
    | with_reducible assumption
    | intro _
    | with_reducible apply Ok.eachN
    | with_reducible apply Ok.endRound
    | with_reducible apply Ok.endVisit
    | with_reducible refine Ok.ite ?_ ?_
    | split

theorem Ok.admitReq {q : List Instr} (n : TenantIx) (m : RingIx) (cls : Nat) (s : State) (h : Ok q s)  : Ok q (Machine.admitReq n m cls s) := by
  unfold Machine.admitReq
  dsimp only
  split
  · next e cs pl he _ _ =>
    have hq : (s.sq n m).queued ≠ 0 := by
      unfold headEntry at he
      split at he
      · simp at he
      · dsimp only at he
        split at he
        · next hc => simp only [Bool.and_eq_true, decide_eq_true_eq] at hc; exact hc.1.1.1
        · simp at he
    apply Ok.settleRing
    apply Ok.modReqs
    apply Ok.modSch
    apply Ok.ledSq _ _ m.isLt _ _ h
    · rintro Q ⟨ha, hb⟩
      refine ⟨?_, ?_⟩
      · linear_combination ha
      · linear_combination hb
    · rfl
    · intro hi
      exact ⟨hi, fun h0 => absurd h0 hq⟩
  · exact h

theorem Ok.admitForeign {q : List Instr} (s : State) (h : Ok q s) : Ok q (Machine.admitForeign s) := by
  unfold Machine.admitForeign
  repeat' first
    | dsimp only
    | with_reducible assumption
    | intro _
    | with_reducible refine Ok.modCrs _ ?_ ?_
    | with_reducible apply Ok.modReqs
    | with_reducible apply Ok.modSch
    | with_reducible refine Ok.ite ?_ ?_
    | split

theorem Ok.admitOne {q : List Instr} (i cls : Nat) (ecc : Ecc) (s : State) (h : Ok q s) : Ok q (Machine.admitOne i cls ecc s) := by
  unfold Machine.admitOne
  repeat' first
    | dsimp only
    | with_reducible assumption
    | intro _
    | with_reducible apply Ok.admitForeign
    | with_reducible apply Ok.admitReq
    | with_reducible apply Ok.memCheck
    | with_reducible refine Ok.ite ?_ ?_
    | split

theorem Ok.markWaiting {q : List Instr} (s : State) (h : Ok q s) : Ok q (Machine.markWaiting s) := by
  unfold Machine.markWaiting
  repeat' first
    | dsimp only
    | with_reducible assumption
    | intro _
    | with_reducible apply Ok.eachN
    | with_reducible apply Ok.modCq
    | with_reducible refine Ok.modSq _ _ _ ?_ ?_
    | with_reducible apply Ok.raiseT
    | with_reducible apply Ok.waitBlocks
    | with_reducible refine Ok.ite ?_ ?_
    | split
    | rfl

theorem Ok.fxSchedulerGrant {q : List Instr} (ecc : Ecc) (s : State) (h : Ok q s) : Ok q (Machine.fxSchedulerGrant ecc s) := by
  unfold Machine.fxSchedulerGrant
  repeat' first
    | dsimp only
    | with_reducible assumption
    | intro _
    | with_reducible apply Ok.admitOne
    | with_reducible apply Ok.markWaiting
    | with_reducible apply Ok.modSch
    | with_reducible apply Ok.turnRounds
    | with_reducible apply Ok.whenS
    | with_reducible refine Ok.ite ?_ ?_
    | split

end Sys2Proof.Machine
end

