-- ==== Sys2Proof/Laws/KeepOpRun.lean ====
section
/-!
SUPPORT. The operations of Machine/OpRun.lean keep the invariant and leave the queue alone.
-/

set_option Elab.async false

namespace Sys2Proof.Machine

theorem Ok.modOp {q : List Instr} (id i : Nat) (f : OpSt → OpSt) (s : State) (h : Ok q s) : Ok q (Machine.modOp id i f s) := by
  unfold Machine.modOp
  repeat' first
    | with_reducible assumption
    | with_reducible apply Ok.modReq

theorem Ok.modBuf {q : List Instr} (id b : Nat) (f : BufSt → BufSt) (s : State) (h : Ok q s) : Ok q (Machine.modBuf id b f s) := by
  unfold Machine.modBuf
  repeat' first
    | with_reducible assumption
    | with_reducible apply Ok.modReq

end Sys2Proof.Machine
end

