-- ==== Sys2Proof/Laws/KeepChain.lean ====
section
/-!
SUPPORT. The operations of Machine/Chain.lean keep the invariant and leave the queue alone.
-/

set_option Elab.async false

namespace Sys2Proof.Machine

theorem Ok.reqViol {q : List Instr} (r : Req) (addr : Nat) (d : Dir) (cause : Nat) (s : State) (h : Ok q s) : Ok q (Machine.reqViol r addr d cause s) := by
  unfold Machine.reqViol
  repeat' first
    | with_reducible assumption
    | with_reducible apply Ok.viol

theorem Ok.ksEvent {q : List Instr} (slot : Nat) (bank : Bool) (cause : Nat) (s : State) (h : Ok q s) : Ok q (Machine.ksEvent slot bank cause s) := by
  unfold Machine.ksEvent
  repeat' first
    | with_reducible assumption
    | intro _
    | with_reducible apply Ok.journal
    | (simp_all; done)

theorem Ok.failBank {q : List Instr} (x : Nat) (ue : Bool) (s : State) (h : Ok q s) : Ok q (Machine.failBank x ue s) := by
  unfold Machine.failBank
  repeat' first
    | dsimp only
    | with_reducible assumption
    | intro _
    | with_reducible apply Ok.ksEvent
    | with_reducible apply Ok.modSlot
    | with_reducible apply Ok.raiseG
    | with_reducible refine Ok.ite ?_ ?_
    | split

theorem Ok.failBankUe {q : List Instr} (x : Nat) (s : State) (h : Ok q s) : Ok q (Machine.failBankUe x s) := by
  unfold Machine.failBankUe
  repeat' first
    | dsimp only
    | with_reducible assumption
    | intro _
    | with_reducible apply Ok.failBank
    | with_reducible apply Ok.journalUe
    | with_reducible refine Ok.ite ?_ ?_
    | split

theorem Ok.ksCe {q : List Instr} (cls : Nat) (s : State) (h : Ok q s) : Ok q (Machine.ksCe cls s) := by
  unfold Machine.ksCe
  repeat' first
    | dsimp only
    | with_reducible assumption
    | intro _
    | with_reducible apply Ok.countCe
    | with_reducible apply Ok.modKs
    | with_reducible refine Ok.ite ?_ ?_
    | split

theorem Ok.failCache {q : List Instr} (a : Nat) (ue : Bool) (s : State) (h : Ok q s) : Ok q (Machine.failCache a ue s) := by
  unfold Machine.failCache
  repeat' first
    | dsimp only
    | with_reducible assumption
    | intro _
    | with_reducible apply Ok.journalUe
    | with_reducible apply Ok.setCacheEnt
    | with_reducible refine Ok.ite ?_ ?_
    | split

theorem Ok.readKey {q : List Instr} (r : Req) (w : OpWord) (p : Bytes) (f : KeyFault) (s : State) (h : Ok q s) : Ok q (Machine.readKey r w p f s) := by
  unfold Machine.readKey
  repeat' first
    | dsimp only
    | with_reducible assumption
    | intro _
    | with_reducible apply Ok.failBank
    | with_reducible apply Ok.failBankUe
    | with_reducible apply Ok.failCache
    | with_reducible apply Ok.ksCe
    | with_reducible apply Ok.modSlot
    | with_reducible refine Ok.ite ?_ ?_
    | split

theorem Ok.resolveOp {q : List Instr} (found : Option (Fin 8 × KeyFault)) (id i : Nat) (s0 : State) (h : Ok q s0) : Ok q (Machine.resolveOp found id i s0).1 := by
  unfold Machine.resolveOp
  repeat' first
    | dsimp only
    | with_reducible assumption
    | intro _
    | with_reducible apply Ok.modOp
    | with_reducible apply Ok.modSlot
    | with_reducible apply Ok.readKey
    | with_reducible apply Ok.setCacheEnt
    | with_reducible refine Ok.ite ?_ ?_
    | split

theorem Ok.resolveOp_eq {q : List Instr} {found : Option (Fin 8 × KeyFault)} {id i : Nat} {s0 : State} {y : Option Fail} {t : State} (e : Machine.resolveOp found id i s0 = (t, y)) (h : Ok q s0) : Ok q t := by
  have := Ok.resolveOp found id i s0 h
  rwa [e] at this

theorem Ok.resolveAll {q : List Instr} (found : Option (Fin 8 × KeyFault)) (id : Nat) (x : List Nat) (s : State) (h : Ok q s) : Ok q (Machine.resolveAll found id x s).1 := by
  induction x generalizing s with
  | nil => exact h
  | cons a l ih =>
    unfold Machine.resolveAll
    repeat' first
      | dsimp only
      | with_reducible assumption
      | intro _
      | with_reducible refine Ok.resolveOp_eq (by assumption) ?_
      | with_reducible apply Ok.resolveOp
      | with_reducible refine Ok.ite ?_ ?_
      | split
      | with_reducible apply ih

theorem Ok.resolveAll_eq {q : List Instr} {found : Option (Fin 8 × KeyFault)} {id : Nat} {x : List Nat} {s : State} {y : Option Outcome} {t : State} (e : Machine.resolveAll found id x s = (t, y)) (h : Ok q s) : Ok q t := by
  have := Ok.resolveAll found id x s h
  rwa [e] at this

theorem Ok.allocateNext {q : List Instr} (tenant i : Nat) (w : OpWord) (p : Bytes) (x : Nat) (b : Bool) (s : State) (h : Ok q s) : Ok q (Machine.allocateNext tenant i w p x b s).1 := by
  unfold Machine.allocateNext
  repeat' first
    | dsimp only
    | with_reducible assumption
    | intro _
    | with_reducible apply Ok.failBank
    | with_reducible apply Ok.ksEvent
    | with_reducible apply Ok.modSlot
    | with_reducible apply Ok.raiseT
    | with_reducible refine Ok.ite ?_ ?_
    | split

theorem Ok.allocateNext_eq {q : List Instr} {tenant i : Nat} {w : OpWord} {p : Bytes} {x : Nat} {b : Bool} {s : State} {y : Except Fail Nat} {t : State} (e : Machine.allocateNext tenant i w p x b s = (t, y)) (h : Ok q s) : Ok q t := by
  have := Ok.allocateNext tenant i w p x b s h
  rwa [e] at this

theorem Ok.allocateBlock {q : List Instr} (i : Nat) (w : OpWord) (p : Bytes) (x : Nat) (b : Bool) (s : State) (h : Ok q s) : Ok q (Machine.allocateBlock i w p x b s).1 := by
  unfold Machine.allocateBlock
  repeat' first
    | dsimp only
    | with_reducible assumption
    | intro _
    | with_reducible apply Ok.askBlock
    | with_reducible refine Ok.modCrs _ ?_ ?_
    | with_reducible refine Ok.ite ?_ ?_
    | split

theorem Ok.allocateBlock_eq {q : List Instr} {i : Nat} {w : OpWord} {p : Bytes} {x : Nat} {b : Bool} {s : State} {y : Except Fail Nat} {t : State} (e : Machine.allocateBlock i w p x b s = (t, y)) (h : Ok q s) : Ok q t := by
  have := Ok.allocateBlock i w p x b s h
  rwa [e] at this

theorem Ok.allocate {q : List Instr} (r : Req) (i : Nat) (x : Nat) (b : Bool) (s : State) (h : Ok q s) : Ok q (Machine.allocate r i x b s).1 := by
  unfold Machine.allocate
  repeat' first
    | dsimp only
    | with_reducible assumption
    | intro _
    | with_reducible refine Ok.allocateBlock_eq (by assumption) ?_
    | with_reducible apply Ok.allocateBlock
    | with_reducible refine Ok.allocateNext_eq (by assumption) ?_
    | with_reducible apply Ok.allocateNext
    | with_reducible refine Ok.ite ?_ ?_
    | split

theorem Ok.allocate_eq {q : List Instr} {r : Req} {i : Nat} {x : Nat} {b : Bool} {s : State} {y : Except Fail Nat} {t : State} (e : Machine.allocate r i x b s = (t, y)) (h : Ok q s) : Ok q t := by
  have := Ok.allocate r i x b s h
  rwa [e] at this

theorem Ok.allocateAll {q : List Instr} (id : Nat) (x : List Nat) (s : State) (h : Ok q s) : Ok q (Machine.allocateAll id x s).1 := by
  induction x generalizing s with
  | nil => exact h
  | cons a l ih =>
    unfold Machine.allocateAll
    repeat' first
      | dsimp only
      | with_reducible assumption
      | intro _
      | with_reducible refine Ok.allocate_eq (by assumption) ?_
      | with_reducible apply Ok.allocate
      | with_reducible apply Ok.modOp
      | with_reducible refine Ok.ite ?_ ?_
      | split
      | (simp_all; done)
      | with_reducible apply ih

theorem Ok.allocateAll_eq {q : List Instr} {id : Nat} {x : List Nat} {s : State} {y : Option Outcome} {t : State} (e : Machine.allocateAll id x s = (t, y)) (h : Ok q s) : Ok q t := by
  have := Ok.allocateAll id x s h
  rwa [e] at this

theorem Ok.freeTiles {q : List Instr} (id : Nat) (s : State) (h : Ok q s) : Ok q (Machine.freeTiles id s) := by
  unfold Machine.freeTiles
  repeat' first
    | dsimp only
    | with_reducible assumption
    | intro _
    | with_reducible apply Ok.eachN
    | with_reducible apply Ok.modTile

theorem Ok.dropWork {q : List Instr} (aim : Purpose) (s : State) (h : Ok q s) : Ok q (Machine.dropWork aim s) := by
  unfold Machine.dropWork
  repeat' first
    | dsimp only
    | with_reducible assumption
    | intro _
    | with_reducible apply Ok.foldl
    | with_reducible apply Ok.freeTiles
    | with_reducible apply Ok.modSch
    | with_reducible refine Ok.ite ?_ ?_
    | split

theorem Ok.unclaim {q : List Instr} (x : Nat) (s : State) (h : Ok q s) : Ok q (Machine.unclaim x s) := by
  unfold Machine.unclaim
  repeat' first
    | dsimp only
    | with_reducible assumption
    | intro _
    | with_reducible apply Ok.dropWork
    | with_reducible apply Ok.modKs
    | with_reducible apply Ok.modSlot
    | with_reducible refine Ok.ite ?_ ?_
    | split

theorem Ok.closeStream {q : List Instr} (ix : Nat) (s : State) (h : Ok q s) : Ok q (Machine.closeStream ix s) := by
  unfold Machine.closeStream
  repeat' first
    | dsimp only
    | with_reducible assumption
    | intro _
    | with_reducible apply Ok.setStream
    | with_reducible refine Ok.ite ?_ ?_
    | split

theorem Ok.issueJob {q : List Instr} (kind : Nat) (work : JobWork) (s : State) (h : Ok q s) : Ok q (Machine.issueJob kind work s) := by
  unfold Machine.issueJob
  repeat' first
    | dsimp only
    | with_reducible assumption
    | intro _
    | with_reducible apply Ok.modSch
    | with_reducible refine Ok.ite ?_ ?_
    | split

theorem Ok.prepareBank {q : List Instr} (x : Nat) (s : State) (h : Ok q s) : Ok q (Machine.prepareBank x s) := by
  unfold Machine.prepareBank
  repeat' first
    | dsimp only
    | with_reducible assumption
    | intro _
    | with_reducible apply Ok.issueJob
    | with_reducible refine Ok.ite ?_ ?_
    | split

theorem Ok.beginVerify {q : List Instr} (x : Nat) (s : State) (h : Ok q s) : Ok q (Machine.beginVerify x s) := by
  unfold Machine.beginVerify
  repeat' first
    | dsimp only
    | with_reducible assumption
    | intro _
    | with_reducible apply Ok.modKs
    | with_reducible apply Ok.modSlot
    | with_reducible apply Ok.prepareBank
    | with_reducible refine Ok.ite ?_ ?_
    | split

theorem Ok.endStreams {q : List Instr} (r : Req) (o : Outcome) (s : State) (h : Ok q s) : Ok q (Machine.endStreams r o s) := by
  unfold Machine.endStreams
  repeat' first
    | dsimp only
    | with_reducible assumption
    | intro _
    | with_reducible apply Ok.closeStream
    | with_reducible apply Ok.eachN
    | with_reducible apply Ok.setStream
    | with_reducible refine Ok.ite ?_ ?_
    | split

theorem Ok.dropStreams {q : List Instr} (r : Req) (o : Outcome) (s : State) (h : Ok q s) : Ok q (Machine.dropStreams r o s) := by
  unfold Machine.dropStreams
  repeat' first
    | dsimp only
    | with_reducible assumption
    | intro _
    | with_reducible apply Ok.closeStream
    | with_reducible apply Ok.foldl
    | with_reducible refine Ok.ite ?_ ?_
    | split

theorem Ok.scrubSeg {q : List Instr} (r : Req) (a len : Nat) (s : State) (h : Ok q s) : Ok q (Machine.scrubSeg r a len s) := by
  unfold Machine.scrubSeg
  repeat' first
    | dsimp only
    | with_reducible assumption
    | intro _
    | with_reducible apply Ok.emitWr
    | with_reducible apply Ok.modReq
    | with_reducible apply Ok.reqViol
    | with_reducible refine Ok.ite ?_ ?_
    | split

theorem Ok.scrubAll {q : List Instr} (r : Req) (s : State) (h : Ok q s) : Ok q (Machine.scrubAll r s) := by
  unfold Machine.scrubAll
  repeat' first
    | dsimp only
    | with_reducible assumption
    | intro _
    | with_reducible apply Ok.eachN
    | with_reducible apply Ok.emit
    | with_reducible apply Ok.foldl
    | with_reducible apply Ok.scrubSeg
    | with_reducible refine Ok.ite ?_ ?_
    | split

theorem Ok.fencePort {q : List Instr} (id : Nat) (port : Bool) (s : State) (h : Ok q s) : Ok q (Machine.fencePort id port s) := by
  unfold Machine.fencePort
  repeat' first
    | with_reducible assumption
    | with_reducible apply Ok.emitRd
    | with_reducible apply Ok.modReq
    | with_reducible apply Ok.reqViol
    | split

theorem Ok.fenceFrame {q : List Instr} (r : Req) (s : State) (h : Ok q s) : Ok q (Machine.fenceFrame r s) := by
  unfold Machine.fenceFrame
  repeat' first
    | dsimp only
    | with_reducible assumption
    | intro _
    | with_reducible apply Ok.eachN
    | with_reducible apply Ok.emit
    | with_reducible apply Ok.modBuf
    | with_reducible refine Ok.ite ?_ ?_
    | split

theorem Ok.endChain {q : List Instr} (id : Nat) (o : Outcome) (s : State) (h : Ok q s) : Ok q (Machine.endChain id o s) := by
  unfold Machine.endChain
  repeat' first
    | dsimp only
    | with_reducible assumption
    | intro _
    | with_reducible apply Ok.beginVerify
    | with_reducible apply Ok.dropStreams
    | with_reducible apply Ok.eachN
    | with_reducible apply Ok.endStreams
    | with_reducible apply Ok.fenceFrame
    | with_reducible apply Ok.fencePort
    | with_reducible apply Ok.freeTiles
    | with_reducible refine Ok.modFp _ ?_ ?_
    | with_reducible apply Ok.modReq
    | with_reducible apply Ok.modSch
    | with_reducible apply Ok.scrubAll
    | with_reducible apply Ok.unclaim
    | with_reducible refine Ok.ite ?_ ?_
    | split

theorem Ok.endDone {q : List Instr} (id : Nat) (s : State) (h : Ok q s) : Ok q (Machine.endDone id s) := by
  unfold Machine.endDone
  repeat' first
    | dsimp only
    | with_reducible assumption
    | intro _
    | with_reducible apply Ok.endChain
    | with_reducible refine Ok.ite ?_ ?_
    | split

theorem Ok.issueRange {q : List Instr} (id b a l : Nat) (s : State) (h : Ok q s) : Ok q (Machine.issueRange id b a l s) := by
  unfold Machine.issueRange
  repeat' first
    | with_reducible assumption
    | with_reducible apply Ok.emitRd
    | with_reducible apply Ok.modBuf
    | with_reducible apply Ok.reqViol
    | split

theorem Ok.askElem {q : List Instr} (id b : Nat) (short : Fail) (s : State) (h : Ok q s) : Ok q (Machine.askElem id b short s) := by
  unfold Machine.askElem
  repeat' first
    | dsimp only
    | with_reducible assumption
    | intro _
    | with_reducible apply Ok.emitRd
    | with_reducible apply Ok.modBuf
    | with_reducible apply Ok.reqViol
    | with_reducible refine Ok.ite ?_ ?_
    | split

theorem Ok.startBuf {q : List Instr} (id b : Nat) (s : State) (h : Ok q s) : Ok q (Machine.startBuf id b s) := by
  unfold Machine.startBuf
  repeat' first
    | dsimp only
    | with_reducible assumption
    | intro _
    | with_reducible apply Ok.askElem
    | with_reducible apply Ok.emit
    | with_reducible apply Ok.issueRange
    | with_reducible apply Ok.modBuf
    | with_reducible apply Ok.modReq
    | with_reducible refine Ok.ite ?_ ?_
    | split

theorem Ok.startBufs {q : List Instr} (id : Nat) (s : State) (h : Ok q s) : Ok q (Machine.startBufs id s) := by
  unfold Machine.startBufs
  repeat' first
    | with_reducible assumption
    | intro _
    | with_reducible apply Ok.eachN
    | with_reducible apply Ok.startBuf
    | split

theorem Ok.reqWrote {q : List Instr} (id b a off len : Nat) (s : State) (h : Ok q s) : Ok q (Machine.reqWrote id b a off len s) := by
  unfold Machine.reqWrote
  repeat' first
    | dsimp only
    | with_reducible assumption
    | intro _
    | with_reducible apply Ok.modReq
    | with_reducible refine Ok.ite ?_ ?_
    | split

theorem Ok.writeSegs {q : List Instr} (id b : Nat) (data : Bytes) (x : List (Nat × Nat × Nat)) (s : State) (h : Ok q s) : Ok q (Machine.writeSegs id b data x s).1 := by
  induction x generalizing s with
  | nil => exact h
  | cons a l ih =>
    try obtain ⟨_, _, _⟩ := a
    unfold Machine.writeSegs
    repeat' first
      | dsimp only
      | with_reducible assumption
      | intro _
      | with_reducible apply Ok.emitWr
      | with_reducible apply Ok.modBuf
      | with_reducible apply Ok.reqViol
      | with_reducible apply Ok.reqWrote
      | with_reducible refine Ok.ite ?_ ?_
      | split
      | (simp_all; done)
      | with_reducible apply ih

theorem Ok.writeSegs_eq {q : List Instr} {id b : Nat} {data : Bytes} {x : List (Nat × Nat × Nat)} {s : State} {y : Option Nat} {t : State} (e : Machine.writeSegs id b data x s = (t, y)) (h : Ok q s) : Ok q t := by
  have := Ok.writeSegs id b data x s h
  rwa [e] at this

theorem Ok.writeOut {q : List Instr} (r : Req) (i n : Nat) (s : State) (h : Ok q s) : Ok q (Machine.writeOut r i n s).1 := by
  unfold Machine.writeOut
  repeat' first
    | dsimp only
    | with_reducible assumption
    | intro _
    | with_reducible apply Ok.reqViol
    | with_reducible refine Ok.writeSegs_eq (by assumption) ?_
    | with_reducible apply Ok.writeSegs
    | with_reducible refine Ok.ite ?_ ?_
    | split

theorem Ok.writeOut_eq {q : List Instr} {r : Req} {i n : Nat} {s : State} {y : Option Nat} {t : State} (e : Machine.writeOut r i n s = (t, y)) (h : Ok q s) : Ok q t := by
  have := Ok.writeOut r i n s h
  rwa [e] at this

theorem Ok.flushOp {q : List Instr} (id i : Nat) (s : State) (h : Ok q s) : Ok q (Machine.flushOp id i s).1 := by
  unfold Machine.flushOp
  repeat' first
    | dsimp only
    | with_reducible assumption
    | intro _
    | with_reducible apply Ok.askElem
    | with_reducible apply Ok.emit
    | with_reducible apply Ok.modBuf
    | with_reducible apply Ok.modOp
    | with_reducible apply Ok.modReq
    | with_reducible refine Ok.writeOut_eq (by assumption) ?_
    | with_reducible apply Ok.writeOut
    | with_reducible refine Ok.ite ?_ ?_
    | split

theorem Ok.flushOp_eq {q : List Instr} {id i : Nat} {s : State} {y : Option Fail} {t : State} (e : Machine.flushOp id i s = (t, y)) (h : Ok q s) : Ok q t := by
  have := Ok.flushOp id i s h
  rwa [e] at this

theorem Ok.receiveKey {q : List Instr} (id i : Nat) (s : State) (h : Ok q s) : Ok q (Machine.receiveKey id i s).1 := by
  unfold Machine.receiveKey
  repeat' first
    | dsimp only
    | with_reducible assumption
    | intro _
    | with_reducible apply Ok.modOp
    | with_reducible refine Ok.ite ?_ ?_
    | split

theorem Ok.receiveKey_eq {q : List Instr} {id i : Nat} {s : State} {y : Option Fail} {t : State} (e : Machine.receiveKey id i s = (t, y)) (h : Ok q s) : Ok q t := by
  have := Ok.receiveKey id i s h
  rwa [e] at this

theorem Ok.pairRecord {q : List Instr} (r : Req) (o : OpSt) (voter outcome : Nat) (s : State) (h : Ok q s) : Ok q (Machine.pairRecord r o voter outcome s) := by
  unfold Machine.pairRecord
  repeat' first
    | dsimp only
    | with_reducible assumption
    | intro _
    | with_reducible apply Ok.journal
    | with_reducible refine Ok.ite ?_ ?_
    | split
    | (simp_all; done)

theorem Ok.settleOp {q : List Instr} (id i : Nat) (s : State) (h : Ok q s) : Ok q (Machine.settleOp id i s).1 := by
  unfold Machine.settleOp
  repeat' first
    | dsimp only
    | with_reducible assumption
    | intro _
    | with_reducible refine Ok.flushOp_eq (by assumption) ?_
    | with_reducible apply Ok.flushOp
    | with_reducible apply Ok.modOp
    | with_reducible apply Ok.pairRecord
    | with_reducible refine Ok.receiveKey_eq (by assumption) ?_
    | with_reducible apply Ok.receiveKey
    | with_reducible refine Ok.ite ?_ ?_
    | split

theorem Ok.settleOp_eq {q : List Instr} {id i : Nat} {s : State} {y : Option Fail} {t : State} (e : Machine.settleOp id i s = (t, y)) (h : Ok q s) : Ok q t := by
  have := Ok.settleOp id i s h
  rwa [e] at this

theorem Ok.settleOps {q : List Instr} (id : Nat) (x : List Nat) (s : State) (h : Ok q s) : Ok q (Machine.settleOps id x s).1 := by
  induction x generalizing s with
  | nil => exact h
  | cons a l ih =>
    unfold Machine.settleOps
    repeat' first
      | dsimp only
      | with_reducible assumption
      | with_reducible refine Ok.settleOp_eq (by assumption) ?_
      | split
      | with_reducible apply ih

theorem Ok.settleOps_eq {q : List Instr} {id : Nat} {x : List Nat} {s : State} {y : Option Outcome} {t : State} (e : Machine.settleOps id x s = (t, y)) (h : Ok q s) : Ok q t := by
  have := Ok.settleOps id x s h
  rwa [e] at this

theorem Ok.settle {q : List Instr} (id : Nat) (s : State) (h : Ok q s) : Ok q (Machine.settle id s) := by
  unfold Machine.settle
  repeat' first
    | dsimp only
    | with_reducible assumption
    | intro _
    | with_reducible apply Ok.endChain
    | with_reducible apply Ok.endDone
    | with_reducible refine Ok.settleOps_eq (by assumption) ?_
    | with_reducible apply Ok.settleOps
    | with_reducible apply Ok.startBufs
    | with_reducible refine Ok.ite ?_ ?_
    | split

theorem Ok.settleAll {q : List Instr} (s : State) (h : Ok q s) : Ok q (Machine.settleAll s) := by
  unfold Machine.settleAll
  repeat' first
    | with_reducible assumption
    | intro _
    | with_reducible apply Ok.settle
    | with_reducible apply Ok.foldl

theorem Ok.openEntry {q : List Instr} (id : Nat) (s : State) (h : Ok q s) : Ok q (Machine.openEntry id s) := by
  unfold Machine.openEntry
  repeat' first
    | with_reducible assumption
    | with_reducible apply Ok.modReq

theorem Ok.startChain {q : List Instr} (found : Option (Fin 8 × KeyFault)) (id : Nat) (s : State) (h : Ok q s) : Ok q (Machine.startChain found id s) := by
  unfold Machine.startChain
  repeat' first
    | dsimp only
    | with_reducible assumption
    | intro _
    | with_reducible apply Ok.allocateAll
    | with_reducible refine Ok.allocateAll_eq (by assumption) ?_
    | with_reducible apply Ok.emit
    | with_reducible apply Ok.endChain
    | with_reducible apply Ok.foldl
    | with_reducible apply Ok.modReq
    | with_reducible apply Ok.openEntry
    | with_reducible apply Ok.resolveAll
    | with_reducible refine Ok.resolveAll_eq (by assumption) ?_
    | with_reducible apply Ok.settle
    | with_reducible refine Ok.ite ?_ ?_
    | split

theorem Ok.fxChainStart {q : List Instr} (id : Nat) (ecc : Ecc) (found : Option (Fin 8 × KeyFault)) (s : State) (h : Ok q s) : Ok q (Machine.fxChainStart id ecc found s) := by
  unfold Machine.fxChainStart
  repeat' first
    | dsimp only
    | with_reducible assumption
    | intro _
    | with_reducible apply Ok.memCheck
    | with_reducible apply Ok.startChain
    | with_reducible apply Ok.whenS
    | with_reducible apply Ok.withReq
    | with_reducible refine Ok.ite ?_ ?_
    | split

theorem Ok.takeElem {q : List Instr} (id b : Nat) (data : Bytes) (s : State) (h : Ok q s) : Ok q (Machine.takeElem id b data s) := by
  unfold Machine.takeElem
  repeat' first
    | dsimp only
    | with_reducible assumption
    | intro _
    | with_reducible apply Ok.askElem
    | with_reducible apply Ok.issueRange
    | with_reducible apply Ok.modBuf
    | with_reducible refine Ok.ite ?_ ?_
    | split

theorem Ok.takeData {q : List Instr} (id b : Nat) (data : Bytes) (s : State) (h : Ok q s) : Ok q (Machine.takeData id b data s) := by
  unfold Machine.takeData
  repeat' first
    | dsimp only
    | with_reducible assumption
    | intro _
    | with_reducible apply Ok.askElem
    | with_reducible apply Ok.modBuf
    | with_reducible refine Ok.ite ?_ ?_
    | split

theorem Ok.readSegs {q : List Instr} (id b : Nat) (x : List (Nat × Nat × Nat)) (s : State) (h : Ok q s) : Ok q (Machine.readSegs id b x s) := by
  induction x generalizing s with
  | nil => exact h
  | cons a l ih =>
    try obtain ⟨_, _, _⟩ := a
    unfold Machine.readSegs
    repeat' first
      | dsimp only
      | with_reducible assumption
      | intro _
      | with_reducible apply Ok.issueRange
      | with_reducible refine Ok.ite ?_ ?_
      | split
      | with_reducible apply ih

theorem Ok.rereadBuf {q : List Instr} (r : Req) (b : Nat) (s : State) (h : Ok q s) : Ok q (Machine.rereadBuf r b s) := by
  unfold Machine.rereadBuf
  repeat' first
    | dsimp only
    | with_reducible assumption
    | intro _
    | with_reducible apply Ok.askElem
    | with_reducible apply Ok.emit
    | with_reducible apply Ok.modBuf
    | with_reducible apply Ok.readSegs
    | with_reducible refine Ok.ite ?_ ?_
    | split

theorem Ok.fxDataReadReturn {q : List Instr} (id : Nat) (buf : Fin 8) (data : Bytes) (ecc : Ecc) (s : State) (h : Ok q s) : Ok q (Machine.fxDataReadReturn id buf data ecc s) := by
  unfold Machine.fxDataReadReturn
  repeat' first
    | dsimp only
    | with_reducible assumption
    | intro _
    | with_reducible apply Ok.countCe
    | with_reducible apply Ok.journalUe
    | with_reducible apply Ok.modBuf
    | with_reducible apply Ok.raiseG
    | with_reducible apply Ok.rereadBuf
    | with_reducible apply Ok.settle
    | with_reducible apply Ok.takeData
    | with_reducible apply Ok.takeElem
    | with_reducible apply Ok.whenS
    | with_reducible apply Ok.withReq
    | with_reducible refine Ok.ite ?_ ?_
    | split

theorem Ok.fxCopyOperation {q : List Instr} (id : Nat) (op : Fin 8) (s : State) (h : Ok q s) : Ok q (Machine.fxCopyOperation id op s) := by
  unfold Machine.fxCopyOperation
  repeat' first
    | with_reducible assumption
    | intro _
    | with_reducible apply Ok.modOp
    | with_reducible apply Ok.settle
    | with_reducible apply Ok.whenS
    | with_reducible apply Ok.withReq

end Sys2Proof.Machine
end

