-- ==== Sys2Proof/Laws/KeepEntropy.lean ====
section
/-!
SUPPORT. The operations of Machine/Entropy.lean keep the invariant and leave the queue alone.
-/

set_option Elab.async false

namespace Sys2Proof.Machine

theorem Ok.esRecord {q : List Instr} (unit cause : Nat) (s : State) (h : Ok q s) : Ok q (Machine.esRecord unit cause s) := by
  unfold Machine.esRecord
  repeat' first
    | with_reducible assumption
    | intro _
    | with_reducible apply Ok.journal
    | (simp_all; done)

theorem Ok.rbgFail {q : List Instr} (k cause : Nat) (s : State) (h : Ok q s) : Ok q (Machine.rbgFail k cause s) := by
  unfold Machine.rbgFail
  repeat' first
    | with_reducible assumption
    | with_reducible apply Ok.esRecord
    | with_reducible apply Ok.modRbg
    | with_reducible apply Ok.raiseG

theorem Ok.reseed {q : List Instr} (k : Nat) (s : State) (h : Ok q s) : Ok q (Machine.reseed k s) := by
  unfold Machine.reseed
  repeat' first
    | dsimp only
    | with_reducible assumption
    | intro _
    | with_reducible refine Ok.modEs _ ?_ (fun hes => ?_)
    | with_reducible apply Ok.modRbg
    | with_reducible apply Ok.raiseG
    | with_reducible refine Ok.ite ?_ ?_
    | split
    | (simp_all; omega)

theorem Ok.readBlock {q : List Instr} (ecc : Ecc) (s : State) (h : Ok q s) : Ok q (Machine.readBlock ecc s) := by
  unfold Machine.readBlock
  repeat' first
    | dsimp only
    | with_reducible assumption
    | intro _
    | with_reducible apply Ok.countCe
    | with_reducible apply Ok.journalUe
    | with_reducible refine Ok.modEs _ ?_ (fun hes => ?_)
    | with_reducible refine Ok.ite ?_ ?_
    | split
    | (rw [List.length_drop]; omega)

theorem Ok.reseedRead {q : List Instr} (k : Nat) (s : State) (h : Ok q s) : Ok q (Machine.reseedRead k s) := by
  unfold Machine.reseedRead
  repeat' first
    | dsimp only
    | with_reducible assumption
    | intro _
    | with_reducible apply Ok.readBlock
    | with_reducible apply Ok.reseed
    | with_reducible refine Ok.ite ?_ ?_
    | split

theorem Ok.generateAdd {q : List Instr} (pr : Bool) (n : Nat) (add : Bytes) (x : List Nat) (s : State) (h : Ok q s) : Ok q (Machine.generateAdd pr n add x s).2 := by
  induction x generalizing s with
  | nil => exact h
  | cons a l ih =>
    unfold Machine.generateAdd
    repeat' first
      | dsimp only
      | with_reducible assumption
      | intro _
      | with_reducible apply Ok.modRbg
      | with_reducible apply Ok.rbgFail
      | with_reducible apply Ok.reseedRead
      | with_reducible refine Ok.ite ?_ ?_
      | split
      | with_reducible apply ih

theorem Ok.generateAdd_eq {q : List Instr} {pr : Bool} {n : Nat} {add : Bytes} {x : List Nat} {s : State} {y : Option Bytes} {t : State} (e : Machine.generateAdd pr n add x s = (y, t)) (h : Ok q s) : Ok q t := by
  have := Ok.generateAdd pr n add x s h
  rwa [e] at this

theorem Ok.generate {q : List Instr} (n : Nat) (order : List Nat) (s : State) (h : Ok q s) : Ok q (Machine.generate n order s).2 := by
  unfold Machine.generate
  repeat' first
    | dsimp only
    | with_reducible assumption
    | intro _
    | with_reducible refine Ok.generateAdd_eq (by assumption) ?_
    | with_reducible apply Ok.generateAdd
    | with_reducible refine Ok.ite ?_ ?_
    | split
    | (simp_all; done)

theorem Ok.generate_eq {q : List Instr} {n : Nat} {order : List Nat} {s : State} {y : Option Bytes} {t : State} (e : Machine.generate n order s = (y, t)) (h : Ok q s) : Ok q t := by
  have := Ok.generate n order s h
  rwa [e] at this

theorem Ok.fxRbgReseed {q : List Instr} (k : Fin 4) (ecc block : Ecc) (s : State) (h : Ok q s) : Ok q (Machine.fxRbgReseed k ecc block s) := by
  unfold Machine.fxRbgReseed
  repeat' first
    | dsimp only
    | with_reducible assumption
    | intro _
    | with_reducible apply Ok.countCe
    | with_reducible apply Ok.journalUe
    | with_reducible apply Ok.rbgFail
    | with_reducible apply Ok.readBlock
    | with_reducible apply Ok.reseed
    | with_reducible apply Ok.whenS
    | with_reducible refine Ok.ite ?_ ?_
    | split

theorem Ok.drawTag {q : List Instr} (s : State) (h : Ok q s) : Ok q (Machine.drawTag s) := by
  unfold Machine.drawTag
  repeat' first
    | dsimp only
    | with_reducible assumption
    | intro _
    | with_reducible apply Ok.generate
    | with_reducible refine Ok.generate_eq (by assumption) ?_
    | with_reducible apply Ok.modKs
    | with_reducible refine Ok.ite ?_ ?_
    | split

theorem Ok.fxRbgInstantiate {q : List Instr} (k : Fin 4) (katOk : Bool) (block : Ecc) (s : State) (h : Ok q s) : Ok q (Machine.fxRbgInstantiate k katOk block s) := by
  unfold Machine.fxRbgInstantiate
  repeat' first
    | dsimp only
    | with_reducible assumption
    | intro _
    | with_reducible apply Ok.drawTag
    | with_reducible apply Ok.rbgFail
    | with_reducible apply Ok.readBlock
    | with_reducible apply Ok.reseed
    | with_reducible apply Ok.whenS
    | with_reducible refine Ok.ite ?_ ?_
    | split

theorem Ok.rbgRestart {q : List Instr} (k : Nat) (s : State) (h : Ok q s) : Ok q (Machine.rbgRestart k s) := by
  unfold Machine.rbgRestart
  repeat' first
    | with_reducible assumption
    | with_reducible apply Ok.modRbg

theorem Ok.fxRbgRestart {q : List Instr} (who : Who) (k : Fin 4) (s : State) (h : Ok q s) : Ok q (Machine.fxRbgRestart who k s) := by
  unfold Machine.fxRbgRestart
  repeat' first
    | with_reducible assumption
    | intro _
    | with_reducible apply Ok.gateW
    | with_reducible apply Ok.rbgRestart

theorem Ok.esFailure {q : List Instr} (rct : Bool) (s : State) (h : Ok q s) : Ok q (Machine.esFailure rct s) := by
  unfold Machine.esFailure
  repeat' first
    | dsimp only
    | with_reducible assumption
    | intro _
    | with_reducible apply Ok.esRecord
    | with_reducible refine Ok.modEs _ ?_ (fun hes => ?_)
    | with_reducible apply Ok.raiseG
    | with_reducible refine Ok.ite ?_ ?_
    | split
    | exact hes

theorem Ok.fxEntropySample {q : List Instr} (bit : Bool) (s : State) (h : Ok q s) : Ok q (Machine.fxEntropySample bit s) := by
  unfold Machine.fxEntropySample
  apply Ok.whenS h
  intro _ s h
  dsimp only
  have h0 : Ok q (if rawOn s = true then Machine.modEs (fun e => { e with raw := (e.raw ++ [bit]).take 32 }) s else s) := by
    split
    · exact Ok.modEs _ h
    · exact h
  generalize (if rawOn s = true then Machine.modEs (fun e => { e with raw := (e.raw ++ [bit]).take 32 }) s else s) = s0 at h0 ⊢
  have h1 : Ok q (Machine.modEs (esAdvance bit) s0) := Ok.modEs _ h0
  split
  · exact h0
  · split
    · exact Ok.esFailure _ _ h1
    · split
      · exact Ok.esFailure _ _ h1
      · refine Ok.modEs _ h1 ?_
        unfold esPass
        split
        · split <;> exact id
        · split <;> exact id

theorem Ok.fxEntropyBlockConditioned {q : List Instr} (ecc : Ecc) (s : State) (h : Ok q s) : Ok q (Machine.fxEntropyBlockConditioned ecc s) := by
  unfold Machine.fxEntropyBlockConditioned
  apply Ok.whenS h
  intro _ s h
  dsimp only
  have h1 : Ok q (Machine.modEs (fun e => { e with samples := e.samples.drop esBlock, fails := 0 }) s) := Ok.modEs _ h
  generalize Machine.modEs (fun e => { e with samples := e.samples.drop esBlock, fails := 0 }) s = s1 at h1 ⊢
  split
  · exact Ok.journalUe _ _ _ h1
  · have h2 : Ok q (if ecc = .corrected then Machine.countCe 10 s1 else s1) := by
      split
      · exact Ok.countCe _ _ h1
      · exact h1
    generalize (if ecc = .corrected then Machine.countCe 10 s1 else s1) = s2 at h2 ⊢
    have h3 : Ok q (if s2.es.pool.length < 8 then Machine.modEs (fun e => { e with pool := e.pool ++ [conditioned (s.es.samples.take esBlock)] }) s2 else s2) := by
      split
      · next hl =>
        refine Ok.modEs _ h2 ?_
        intro _
        simp only [List.length_append, List.length_cons, List.length_nil]
        omega
      · exact h2
    split
    · exact Ok.reseedRead _ _ h3
    · exact h3

theorem Ok.esRestart {q : List Instr} (s : State) (h : Ok q s) : Ok q (Machine.esRestart s) := by
  unfold Machine.esRestart
  repeat' first
    | dsimp only
    | with_reducible assumption
    | intro _
    | with_reducible refine Ok.modEs _ ?_ (fun hes => ?_)
    | with_reducible refine Ok.ite ?_ ?_
    | exact hes

theorem Ok.fxEsRestart {q : List Instr} (who : Who) (s : State) (h : Ok q s) : Ok q (Machine.fxEsRestart who s) := by
  unfold Machine.fxEsRestart
  repeat' first
    | with_reducible assumption
    | intro _
    | with_reducible apply Ok.esRestart
    | with_reducible apply Ok.gateW

theorem Ok.rawRead {q : List Instr} (who : Who) (done : Word → Word) (s : State) (h : Ok q s) : Ok q (Machine.rawRead who done s) := by
  unfold Machine.rawRead
  repeat' first
    | dsimp only
    | with_reducible assumption
    | intro _
    | with_reducible apply Ok.emit
    | with_reducible refine Ok.modEs _ ?_ (fun hes => ?_)
    | with_reducible refine Ok.ite ?_ ?_

theorem Ok.fxEsRawRead {q : List Instr} (who : Who) (s : State) (h : Ok q s) : Ok q (Machine.fxEsRawRead who s) := by
  unfold Machine.fxEsRawRead
  repeat' first
    | with_reducible assumption
    | intro _
    | with_reducible apply Ok.gateR
    | with_reducible apply Ok.rawRead

end Sys2Proof.Machine
end

