-- ==== Sys2Proof/Laws/KeepTiles.lean ====
section
/-!
SUPPORT. The operations of Machine/Tiles.lean keep the invariant and leave the queue alone.
-/

set_option Elab.async false

namespace Sys2Proof.Machine

theorem Ok.openStream {q : List Instr} (r : Req) (i t : Nat) (s : State) (h : Ok q s) : Ok q (Machine.openStream r i t s) := by
  unfold Machine.openStream
  repeat' first
    | dsimp only
    | with_reducible assumption
    | intro _
    | with_reducible apply Ok.setStream
    | with_reducible refine Ok.ite ?_ ?_
    | split

theorem Ok.parkStream {q : List Instr} (r : Req) (i : Nat) (s : State) (h : Ok q s) : Ok q (Machine.parkStream r i s) := by
  unfold Machine.parkStream
  repeat' first
    | dsimp only
    | with_reducible assumption
    | intro _
    | with_reducible apply Ok.modOp
    | with_reducible apply Ok.setStream
    | with_reducible refine Ok.ite ?_ ?_
    | split

theorem Ok.holdTile {q : List Instr} (p : Nat × Nat) (t : Nat) (s : State) (h : Ok q s) : Ok q (Machine.holdTile p t s) := by
  unfold Machine.holdTile
  repeat' first
    | dsimp only
    | with_reducible assumption
    | intro _
    | with_reducible apply Ok.modTile
    | with_reducible refine Ok.ite ?_ ?_
    | split

theorem Ok.dropHold {q : List Instr} (k : Nat) (p : Nat × Nat) (s : State) (h : Ok q s) : Ok q (Machine.dropHold k p s) := by
  unfold Machine.dropHold
  repeat' first
    | dsimp only
    | with_reducible assumption
    | intro _
    | with_reducible apply Ok.eachN
    | with_reducible apply Ok.modTile
    | with_reducible refine Ok.ite ?_ ?_
    | split

theorem Ok.startOn {q : List Instr} (id i : Nat) (ts : List Nat) (s : State) (h : Ok q s) : Ok q (Machine.startOn id i ts s) := by
  unfold Machine.startOn
  repeat' first
    | dsimp only
    | with_reducible assumption
    | intro _
    | with_reducible apply Ok.eachN
    | with_reducible apply Ok.endChain
    | with_reducible apply Ok.holdTile
    | with_reducible apply Ok.modOp
    | with_reducible apply Ok.openStream
    | with_reducible apply Ok.settle
    | with_reducible refine Ok.ite ?_ ?_
    | split

theorem Ok.takeUp {q : List Instr} (k : Nat) (p : Nat × Nat) (t : Nat) (s : State) (h : Ok q s) : Ok q (Machine.takeUp k p t s) := by
  unfold Machine.takeUp
  repeat' first
    | dsimp only
    | with_reducible assumption
    | intro _
    | with_reducible apply Ok.holdTile
    | with_reducible apply Ok.startOn
    | with_reducible refine Ok.ite ?_ ?_
    | split

theorem Ok.runBank {q : List Instr} (t : Nat) (p : Nat × Nat) (s : State) (h : Ok q s) : Ok q (Machine.runBank t p s) := by
  unfold Machine.runBank
  repeat' first
    | dsimp only
    | with_reducible assumption
    | intro _
    | with_reducible apply Ok.eachN
    | with_reducible apply Ok.modOp
    | with_reducible apply Ok.modTile
    | with_reducible refine Ok.ite ?_ ?_
    | split

theorem Ok.wakeBank {q : List Instr} (t : Nat) (s : State) (h : Ok q s) : Ok q (Machine.wakeBank t s) := by
  unfold Machine.wakeBank
  repeat' first
    | dsimp only
    | with_reducible assumption
    | intro _
    | with_reducible apply Ok.runBank
    | with_reducible refine Ok.ite ?_ ?_
    | split

theorem Ok.wakeBanks {q : List Instr} (s : State) (h : Ok q s) : Ok q (Machine.wakeBanks s) := by
  unfold Machine.wakeBanks
  repeat' first
    | dsimp only
    | with_reducible assumption
    | intro _
    | with_reducible apply Ok.eachN
    | with_reducible apply Ok.wakeBank
    | with_reducible refine Ok.ite ?_ ?_
    | split

theorem Ok.setBank {q : List Instr} (t : Nat) (b : Bool) (v : BankSt) (s : State) (h : Ok q s) : Ok q (Machine.setBank t b v s) := by
  unfold Machine.setBank
  repeat' first
    | with_reducible assumption
    | with_reducible apply Ok.modTile

theorem Ok.releaseOp {q : List Instr} (id i : Nat) (s : State) (h : Ok q s) : Ok q (Machine.releaseOp id i s) := by
  unfold Machine.releaseOp
  repeat' first
    | dsimp only
    | with_reducible assumption
    | intro _
    | with_reducible apply Ok.eachN
    | with_reducible apply Ok.modTile
    | with_reducible apply Ok.wakeBank
    | with_reducible refine Ok.ite ?_ ?_

theorem Ok.rerunOp {q : List Instr} (id i : Nat) (s : State) (h : Ok q s) : Ok q (Machine.rerunOp id i s) := by
  unfold Machine.rerunOp
  repeat' first
    | dsimp only
    | with_reducible assumption
    | intro _
    | with_reducible apply Ok.modBuf
    | with_reducible apply Ok.modOp
    | with_reducible apply Ok.releaseOp
    | with_reducible apply Ok.setStream
    | with_reducible refine Ok.ite ?_ ?_
    | split

theorem Ok.rerunFrom {q : List Instr} (id i : Nat) (s : State) (h : Ok q s) : Ok q (Machine.rerunFrom id i s) := by
  unfold Machine.rerunFrom
  repeat' first
    | dsimp only
    | with_reducible assumption
    | intro _
    | with_reducible apply Ok.eachN
    | with_reducible apply Ok.endChain
    | with_reducible apply Ok.rerunOp
    | with_reducible refine Ok.ite ?_ ?_
    | split

theorem Ok.loseOp {q : List Instr} (id i : Nat) (s : State) (h : Ok q s) : Ok q (Machine.loseOp id i s) := by
  unfold Machine.loseOp
  repeat' first
    | dsimp only
    | with_reducible assumption
    | intro _
    | with_reducible apply Ok.endChain
    | with_reducible apply Ok.rerunFrom
    | with_reducible apply Ok.settle
    | with_reducible refine Ok.ite ?_ ?_
    | split

theorem Ok.markQuarantine {q : List Instr} (t cause : Nat) (req : Option Nat) (s : State) (h : Ok q s) : Ok q (Machine.markQuarantine t cause req s) := by
  unfold Machine.markQuarantine
  repeat' first
    | dsimp only
    | with_reducible assumption
    | intro _
    | with_reducible apply Ok.journal
    | with_reducible apply Ok.modTile
    | with_reducible apply Ok.raiseG
    | (simp_all; done)

theorem Ok.streamTo {q : List Instr} (p : Nat × Nat) (x : Nat) (s : State) (h : Ok q s) : Ok q (Machine.streamTo p x s) := by
  unfold Machine.streamTo
  repeat' first
    | dsimp only
    | with_reducible assumption
    | intro _
    | with_reducible apply Ok.setStream
    | with_reducible refine Ok.ite ?_ ?_
    | split

theorem Ok.shiftSaved {q : List Instr} (t x : Nat) (p : Nat × Nat) (s : State) (h : Ok q s) : Ok q (Machine.shiftSaved t x p s) := by
  unfold Machine.shiftSaved
  repeat' first
    | dsimp only
    | with_reducible assumption
    | intro _
    | with_reducible apply Ok.modOp
    | with_reducible apply Ok.modTile
    | with_reducible apply Ok.streamTo
    | with_reducible refine Ok.ite ?_ ?_
    | split

theorem Ok.moveSaved {q : List Instr} (t : Nat) (move : Bool) (p : Nat × Nat) (s0 : State) (h : Ok q s0) : Ok q (Machine.moveSaved t move p s0) := by
  unfold Machine.moveSaved
  repeat' first
    | dsimp only
    | with_reducible assumption
    | intro _
    | with_reducible apply Ok.dropHold
    | with_reducible apply Ok.endChain
    | with_reducible apply Ok.foldl
    | with_reducible apply Ok.loseOp
    | with_reducible apply Ok.nextFree
    | with_reducible apply Ok.shiftSaved
    | with_reducible refine Ok.ite ?_ ?_
    | split

theorem Ok.moveParked {q : List Instr} (t : Nat) (move : Bool) (s : State) (h : Ok q s) : Ok q (Machine.moveParked t move s) := by
  unfold Machine.moveParked
  repeat' first
    | dsimp only
    | with_reducible assumption
    | intro _
    | with_reducible apply Ok.eachN
    | with_reducible apply Ok.nextFree
    | with_reducible apply Ok.setStream
    | with_reducible refine Ok.ite ?_ ?_
    | split

theorem Ok.dropRun {q : List Instr} (t : Nat) (keep : Bool) (p : Nat × Nat) (s : State) (h : Ok q s) : Ok q (Machine.dropRun t keep p s) := by
  unfold Machine.dropRun
  repeat' first
    | dsimp only
    | with_reducible assumption
    | intro _
    | with_reducible apply Ok.loseOp
    | with_reducible apply Ok.modOp
    | with_reducible apply Ok.modTile
    | with_reducible apply Ok.rerunFrom
    | with_reducible apply Ok.setBank
    | with_reducible refine Ok.ite ?_ ?_
    | split

theorem Ok.quarantine {q : List Instr} (t cause : Nat) (keep : Bool) (s : State) (h : Ok q s) : Ok q (Machine.quarantine t cause keep s) := by
  unfold Machine.quarantine
  repeat' first
    | dsimp only
    | with_reducible assumption
    | intro _
    | with_reducible apply Ok.dropRun
    | with_reducible apply Ok.foldl
    | with_reducible apply Ok.markQuarantine
    | with_reducible apply Ok.moveParked
    | with_reducible apply Ok.moveSaved
    | with_reducible apply Ok.settleAll
    | with_reducible refine Ok.ite ?_ ?_
    | split

theorem Ok.tileCe {q : List Instr} (t : Nat) (s : State) (h : Ok q s) : Ok q (Machine.tileCe t s) := by
  unfold Machine.tileCe
  repeat' first
    | dsimp only
    | with_reducible assumption
    | intro _
    | with_reducible apply Ok.countCe
    | with_reducible apply Ok.modTile
    | with_reducible apply Ok.quarantine
    | with_reducible refine Ok.ite ?_ ?_
    | split

theorem Ok.tileUe {q : List Instr} (t : Nat) (s : State) (h : Ok q s) : Ok q (Machine.tileUe t s) := by
  unfold Machine.tileUe
  repeat' first
    | with_reducible assumption
    | with_reducible apply Ok.journalUe
    | with_reducible apply Ok.quarantine
    | with_reducible apply Ok.raiseG

theorem Ok.allocTile {q : List Instr} (k id i t : Nat) (t2 : Option Nat) (s : State) (h : Ok q s) : Ok q (Machine.allocTile k id i t t2 s) := by
  unfold Machine.allocTile
  repeat' first
    | dsimp only
    | with_reducible assumption
    | intro _
    | with_reducible apply Ok.startOn
    | with_reducible apply Ok.whenS
    | with_reducible apply Ok.withReq
    | with_reducible refine Ok.ite ?_ ?_
    | split

theorem Ok.fxCipherTileAllocate {q : List Instr} (id : Nat) (op : Fin 8) (tile : Fin 16) (second : Option (Fin 16)) (s : State) (h : Ok q s) : Ok q (Machine.fxCipherTileAllocate id op tile second s) := by
  unfold Machine.fxCipherTileAllocate
  repeat' first
    | with_reducible assumption
    | with_reducible apply Ok.allocTile

theorem Ok.allocService {q : List Instr} (p : Nat × Nat) (t : Nat) (s : State) (h : Ok q s) : Ok q (Machine.allocService p t s) := by
  unfold Machine.allocService
  repeat' first
    | dsimp only
    | with_reducible assumption
    | intro _
    | with_reducible apply Ok.holdTile
    | with_reducible apply Ok.whenS
    | with_reducible refine Ok.ite ?_ ?_
    | split

theorem Ok.restoreFails {q : List Instr} (p : Nat × Nat) (t : Nat) (s : State) (h : Ok q s) : Ok q (Machine.restoreFails p t s) := by
  unfold Machine.restoreFails
  repeat' first
    | dsimp only
    | with_reducible assumption
    | intro _
    | with_reducible apply Ok.dropHold
    | with_reducible apply Ok.endChain
    | with_reducible apply Ok.setStream
    | with_reducible apply Ok.tileUe
    | with_reducible refine Ok.ite ?_ ?_
    | split

theorem Ok.fxDigestTileAllocate {q : List Instr} (id : Nat) (op : Fin 8) (tile : Fin 4) (second : Option (Fin 4)) (ecc : Ecc) (s : State) (h : Ok q s) : Ok q (Machine.fxDigestTileAllocate id op tile second ecc s) := by
  unfold Machine.fxDigestTileAllocate
  repeat' first
    | dsimp only
    | with_reducible assumption
    | intro _
    | with_reducible apply Ok.allocService
    | with_reducible apply Ok.allocTile
    | with_reducible apply Ok.restoreFails
    | with_reducible apply Ok.tileCe
    | with_reducible refine Ok.ite ?_ ?_
    | split

theorem Ok.yieldTile {q : List Instr} (k t : Nat) (s : State) (h : Ok q s) : Ok q (Machine.yieldTile k t s) := by
  unfold Machine.yieldTile
  repeat' first
    | dsimp only
    | with_reducible assumption
    | intro _
    | with_reducible apply Ok.eachN
    | with_reducible apply Ok.modOp
    | with_reducible apply Ok.modTile
    | with_reducible apply Ok.takeUp
    | with_reducible apply Ok.whenS
    | with_reducible refine Ok.ite ?_ ?_
    | split

theorem Ok.useBank {q : List Instr} (id t : Nat) (s : State) (h : Ok q s) : Ok q (Machine.useBank id t s) := by
  unfold Machine.useBank
  repeat' first
    | dsimp only
    | with_reducible assumption
    | intro _
    | with_reducible apply Ok.setBank
    | with_reducible refine Ok.ite ?_ ?_
    | split

theorem Ok.restIn {q : List Instr} (id i t : Nat) (s : State) (h : Ok q s) : Ok q (Machine.restIn id i t s) := by
  unfold Machine.restIn
  repeat' first
    | dsimp only
    | with_reducible assumption
    | intro _
    | with_reducible apply Ok.setBank
    | with_reducible refine Ok.ite ?_ ?_
    | split

theorem Ok.enterBank {q : List Instr} (id i t : Nat) (s : State) (h : Ok q s) : Ok q (Machine.enterBank id i t s) := by
  unfold Machine.enterBank
  repeat' first
    | dsimp only
    | with_reducible assumption
    | intro _
    | with_reducible apply Ok.restIn
    | with_reducible apply Ok.wakeBank
    | with_reducible refine Ok.ite ?_ ?_
    | split

theorem Ok.fxPkBankAssign {q : List Instr} (id : Nat) (op : Fin 8) (tile : Fin 4) (second : Option (Fin 4)) (s : State) (h : Ok q s) : Ok q (Machine.fxPkBankAssign id op tile second s) := by
  unfold Machine.fxPkBankAssign
  repeat' first
    | dsimp only
    | with_reducible assumption
    | intro _
    | with_reducible apply Ok.eachN
    | with_reducible apply Ok.enterBank
    | with_reducible apply Ok.modOp
    | with_reducible apply Ok.restIn
    | with_reducible apply Ok.settle
    | with_reducible apply Ok.wakeBanks
    | with_reducible apply Ok.whenS
    | with_reducible refine Ok.ite ?_ ?_
    | split

theorem Ok.keepLeft {q : List Instr} (p : Nat × Nat) (left : Nat) (s : State) (h : Ok q s) : Ok q (Machine.keepLeft p left s) := by
  unfold Machine.keepLeft
  repeat' first
    | dsimp only
    | with_reducible assumption
    | intro _
    | with_reducible apply Ok.modOp
    | with_reducible apply Ok.modSch
    | with_reducible refine Ok.ite ?_ ?_
    | split

theorem Ok.yieldBank {q : List Instr} (t : Nat) (p : Nat × Nat) (s : State) (h : Ok q s) : Ok q (Machine.yieldBank t p s) := by
  unfold Machine.yieldBank
  repeat' first
    | dsimp only
    | with_reducible assumption
    | intro _
    | with_reducible apply Ok.eachN
    | with_reducible apply Ok.foldl
    | with_reducible apply Ok.modOp
    | with_reducible apply Ok.modTile
    | with_reducible apply Ok.runBank
    | with_reducible refine Ok.ite ?_ ?_
    | split

theorem Ok.fxPkCheckPhaseEnd {q : List Instr} (tile : Fin 4) (s : State) (h : Ok q s) : Ok q (Machine.fxPkCheckPhaseEnd tile s) := by
  unfold Machine.fxPkCheckPhaseEnd
  repeat' first
    | dsimp only
    | with_reducible assumption
    | intro _
    | with_reducible apply Ok.endChain
    | with_reducible refine Ok.generate_eq (by assumption) ?_
    | with_reducible apply Ok.generate
    | with_reducible apply Ok.modOp
    | with_reducible apply Ok.whenS
    | with_reducible apply Ok.withReq
    | with_reducible refine Ok.ite ?_ ?_
    | split

theorem Ok.hashDone {q : List Instr} (p : Nat × Nat) (s : State) (h : Ok q s) : Ok q (Machine.hashDone p s) := by
  unfold Machine.hashDone
  repeat' first
    | dsimp only
    | with_reducible assumption
    | intro _
    | with_reducible apply Ok.dropHold
    | with_reducible apply Ok.modOp
    | with_reducible apply Ok.settle
    | with_reducible refine Ok.ite ?_ ?_
    | split

theorem Ok.fxDigestServiceDone {q : List Instr} (tile : Fin 4) (s : State) (h : Ok q s) : Ok q (Machine.fxDigestServiceDone tile s) := by
  unfold Machine.fxDigestServiceDone
  repeat' first
    | dsimp only
    | with_reducible assumption
    | intro _
    | with_reducible apply Ok.hashDone
    | with_reducible apply Ok.whenS
    | with_reducible refine Ok.ite ?_ ?_
    | split

theorem Ok.fxMlDsaIterationCap {q : List Instr} (tile : Fin 4) (s : State) (h : Ok q s) : Ok q (Machine.fxMlDsaIterationCap tile s) := by
  unfold Machine.fxMlDsaIterationCap
  repeat' first
    | dsimp only
    | with_reducible assumption
    | intro _
    | with_reducible apply Ok.endChain
    | with_reducible apply Ok.whenS
    | with_reducible apply Ok.withReq
    | with_reducible refine Ok.ite ?_ ?_
    | split

theorem Ok.fxPkBankZeroized {q : List Instr} (tile : Fin 4) (bank : Bool) (s : State) (h : Ok q s) : Ok q (Machine.fxPkBankZeroized tile bank s) := by
  unfold Machine.fxPkBankZeroized
  repeat' first
    | dsimp only
    | with_reducible assumption
    | with_reducible apply Ok.modReq
    | with_reducible apply Ok.setBank
    | with_reducible apply Ok.wakeBank
    | split

theorem Ok.agreeOn {q : List Instr} (r : Req) (i : Nat) (s : State) (h : Ok q s) : Ok q (Machine.agreeOn r i s) := by
  unfold Machine.agreeOn
  repeat' first
    | dsimp only
    | with_reducible assumption
    | intro _
    | with_reducible apply Ok.modOp
    | with_reducible refine Ok.ite ?_ ?_
    | split

theorem Ok.fxPairedPieceCompare {q : List Instr} (id : Nat) (op : Fin 8) (agree : Bool) (s : State) (h : Ok q s) : Ok q (Machine.fxPairedPieceCompare id op agree s) := by
  unfold Machine.fxPairedPieceCompare
  repeat' first
    | dsimp only
    | with_reducible assumption
    | intro _
    | with_reducible apply Ok.agreeOn
    | with_reducible apply Ok.modOp
    | with_reducible apply Ok.pairRecord
    | with_reducible apply Ok.raiseG
    | with_reducible apply Ok.settle
    | with_reducible apply Ok.whenS
    | with_reducible apply Ok.withReq
    | with_reducible refine Ok.ite ?_ ?_
    | split

theorem Ok.fxVoterAssign {q : List Instr} (id : Nat) (op : Fin 8) (tile : TileIx) (s : State) (h : Ok q s) : Ok q (Machine.fxVoterAssign id op tile s) := by
  unfold Machine.fxVoterAssign
  repeat' first
    | dsimp only
    | with_reducible assumption
    | intro _
    | with_reducible apply Ok.enterBank
    | with_reducible apply Ok.modOp
    | with_reducible apply Ok.modTile
    | with_reducible apply Ok.whenS
    | with_reducible apply Ok.withReq
    | with_reducible refine Ok.ite ?_ ?_
    | split

theorem Ok.forceRound {q : List Instr} (t : Nat) (s : State) (h : Ok q s) : Ok q (Machine.forceRound t s) := by
  unfold Machine.forceRound
  repeat' first
    | dsimp only
    | with_reducible assumption
    | intro _
    | with_reducible apply Ok.modSch
    | with_reducible apply Ok.modTile
    | with_reducible refine Ok.ite ?_ ?_
    | split

theorem Ok.fxVoteResult {q : List Instr} (id : Nat) (op : Fin 8) (verdict : Verdict) (s : State) (h : Ok q s) : Ok q (Machine.fxVoteResult id op verdict s) := by
  unfold Machine.fxVoteResult
  repeat' first
    | dsimp only
    | with_reducible assumption
    | intro _
    | with_reducible apply Ok.agreeOn
    | with_reducible apply Ok.eachN
    | with_reducible apply Ok.endChain
    | with_reducible apply Ok.forceRound
    | with_reducible apply Ok.modOp
    | with_reducible apply Ok.modReq
    | with_reducible apply Ok.pairRecord
    | with_reducible apply Ok.quarantine
    | with_reducible apply Ok.settle
    | with_reducible apply Ok.streamTo
    | with_reducible apply Ok.whenS
    | with_reducible apply Ok.withReq
    | with_reducible refine Ok.ite ?_ ?_
    | split

theorem Ok.writeTarget {q : List Instr} (x : Nat) (material : Bytes) (s : State) (h : Ok q s) : Ok q (Machine.writeTarget x material s) := by
  unfold Machine.writeTarget
  repeat' first
    | with_reducible assumption
    | with_reducible apply Ok.modSlot

theorem Ok.finishOp {q : List Instr} (id i : Nat) (e : OpEnd) (s : State) (h : Ok q s) : Ok q (Machine.finishOp id i e s) := by
  unfold Machine.finishOp
  repeat' first
    | dsimp only
    | with_reducible assumption
    | with_reducible apply Ok.modOp
    | with_reducible apply Ok.parkStream
    | with_reducible apply Ok.releaseOp
    | with_reducible apply Ok.settle
    | with_reducible apply Ok.writeTarget
    | split

theorem Ok.tileChecked {q : List Instr} (t : Nat) (ecc : Ecc) (f : State → State) (s : State) (h : Ok q s) (hf : ∀ s, Ok q s → Ok q (f s)) : Ok q (Machine.tileChecked t ecc f s) := by
  unfold Machine.tileChecked
  repeat' first
    | dsimp only
    | with_reducible assumption
    | intro _
    | with_reducible apply Ok.tileCe
    | with_reducible apply Ok.tileUe
    | with_reducible apply hf
    | with_reducible refine Ok.ite ?_ ?_
    | split

theorem Ok.fxPkYieldPoint {q : List Instr} (tile : Fin 4) (left : Nat) (long : Bool) (ecc : Ecc) (s : State) (h : Ok q s) : Ok q (Machine.fxPkYieldPoint tile left long ecc s) := by
  unfold Machine.fxPkYieldPoint
  repeat' first
    | dsimp only
    | with_reducible assumption
    | intro _
    | with_reducible apply Ok.keepLeft
    | with_reducible apply Ok.tileChecked
    | with_reducible apply Ok.whenS
    | with_reducible apply Ok.yieldBank
    | with_reducible refine Ok.ite ?_ ?_
    | split

theorem Ok.atYield {q : List Instr} (k t : Nat) (ecc : Ecc) (s : State) (h : Ok q s) : Ok q (Machine.atYield k t ecc s) := by
  unfold Machine.atYield
  repeat' first
    | dsimp only
    | with_reducible assumption
    | intro _
    | with_reducible apply Ok.tileChecked
    | with_reducible apply Ok.whenS
    | with_reducible apply Ok.yieldTile
    | with_reducible refine Ok.ite ?_ ?_
    | split

theorem Ok.fxDigestSliceBoundary {q : List Instr} (tile : Fin 4) (ecc : Ecc) (s : State) (h : Ok q s) : Ok q (Machine.fxDigestSliceBoundary tile ecc s) := by
  unfold Machine.fxDigestSliceBoundary
  repeat' first
    | dsimp only
    | with_reducible assumption
    | intro _
    | with_reducible apply Ok.atYield
    | with_reducible refine Ok.ite ?_ ?_
    | split

theorem Ok.fxCipherYieldPoint {q : List Instr} (tile : Fin 16) (ecc : Ecc) (s : State) (h : Ok q s) : Ok q (Machine.fxCipherYieldPoint tile ecc s) := by
  unfold Machine.fxCipherYieldPoint
  repeat' first
    | dsimp only
    | with_reducible assumption
    | intro _
    | with_reducible apply Ok.atYield
    | with_reducible refine Ok.ite ?_ ?_
    | split

theorem Ok.resultFails {q : List Instr} (r : Req) (t : Nat) (meets : Bool) (s : State) (h : Ok q s) : Ok q (Machine.resultFails r t meets s) := by
  unfold Machine.resultFails
  repeat' first
    | dsimp only
    | with_reducible assumption
    | intro _
    | with_reducible apply Ok.endChain
    | with_reducible apply Ok.quarantine
    | with_reducible refine Ok.ite ?_ ?_
    | split

theorem Ok.endOp {q : List Instr} (id i : Nat) (s : State) (h : Ok q s) : Ok q (Machine.endOp id i s) := by
  unfold Machine.endOp
  repeat' first
    | dsimp only
    | with_reducible assumption
    | intro _
    | with_reducible apply Ok.endChain
    | with_reducible apply Ok.finishOp
    | with_reducible apply Ok.modOp
    | with_reducible refine Ok.ite ?_ ?_
    | split

theorem Ok.stagingUe {q : List Instr} (r : Req) (i : Nat) (s : State) (h : Ok q s) : Ok q (Machine.stagingUe r i s) := by
  unfold Machine.stagingUe
  repeat' first
    | dsimp only
    | with_reducible assumption
    | intro _
    | with_reducible apply Ok.endChain
    | with_reducible apply Ok.settle
    | with_reducible apply Ok.rerunOp
    | with_reducible apply Ok.raiseG
    | with_reducible apply Ok.journalUe
    | with_reducible apply Ok.eachN
    | with_reducible refine Ok.ite ?_ ?_

theorem Ok.checkPair {q : List Instr} (ts : List Nat) (ecc second : Ecc) (f : State → State) (s : State) (h : Ok q s) (hf : ∀ s, Ok q s → Ok q (f s)) : Ok q (Machine.checkPair ts ecc second f s) := by
  unfold Machine.checkPair
  repeat' first
    | dsimp only
    | with_reducible assumption
    | intro _
    | with_reducible apply Ok.tileCe
    | with_reducible apply Ok.tileChecked
    | with_reducible apply Ok.tileUe
    | with_reducible apply hf
    | with_reducible refine Ok.ite ?_ ?_
    | split

theorem Ok.opEnds {q : List Instr} (r : Req) (i : Nat) (resultOk : Bool) (ecc : Ecc) (meets : Bool) (staging second : Ecc) (s : State) (h : Ok q s) : Ok q (Machine.opEnds r i resultOk ecc meets staging second s) := by
  unfold Machine.opEnds
  repeat' first
    | dsimp only
    | with_reducible assumption
    | intro _
    | with_reducible apply Ok.checkPair
    | with_reducible apply Ok.countCe
    | with_reducible apply Ok.endOp
    | with_reducible apply Ok.hashDone
    | with_reducible apply Ok.resultFails
    | with_reducible apply Ok.stagingUe
    | with_reducible apply Ok.tileChecked
    | with_reducible apply Ok.whenS
    | with_reducible refine Ok.ite ?_ ?_
    | split

theorem Ok.groutRound {q : List Instr} (t : Nat) (s : State) (h : Ok q s) : Ok q (Machine.groutRound t s) := by
  unfold Machine.groutRound
  repeat' first
    | dsimp only
    | with_reducible assumption
    | intro _
    | with_reducible apply Ok.modTile
    | with_reducible refine Ok.ite ?_ ?_
    | split

theorem Ok.fxGroutStep {q : List Instr} (t : TileIx) (result : GroutResult) (s : State) (h : Ok q s) : Ok q (Machine.fxGroutStep t result s) := by
  unfold Machine.fxGroutStep
  repeat' first
    | with_reducible assumption
    | intro _
    | with_reducible apply Ok.groutRound
    | with_reducible apply Ok.journal
    | with_reducible apply Ok.quarantine
    | with_reducible apply Ok.raiseG
    | with_reducible apply Ok.whenS
    | split
    | (simp_all; done)

theorem Ok.fxGroutForce {q : List Instr} (t : TileIx) (s : State) (h : Ok q s) : Ok q (Machine.fxGroutForce t s) := by
  unfold Machine.fxGroutForce
  repeat' first
    | dsimp only
    | with_reducible assumption
    | intro _
    | with_reducible apply Ok.forceRound
    | with_reducible apply Ok.whenS
    | with_reducible refine Ok.ite ?_ ?_
    | split

theorem Ok.tileRejoin {q : List Instr} (t : Nat) (s : State) (h : Ok q s) : Ok q (Machine.tileRejoin t s) := by
  unfold Machine.tileRejoin
  repeat' first
    | with_reducible assumption
    | intro _
    | with_reducible apply Ok.modTile
    | with_reducible refine Ok.ite ?_ ?_

theorem Ok.fxTileRejoin {q : List Instr} (who : Who) (t : TileIx) (s : State) (h : Ok q s) : Ok q (Machine.fxTileRejoin who t s) := by
  unfold Machine.fxTileRejoin
  repeat' first
    | with_reducible assumption
    | intro _
    | with_reducible apply Ok.gateW
    | with_reducible apply Ok.tileRejoin

theorem Ok.csRejoin {q : List Instr} (c : Nat) (s : State) (h : Ok q s) : Ok q (Machine.csRejoin c s) := by
  unfold Machine.csRejoin
  repeat' first
    | with_reducible assumption
    | intro _
    | with_reducible apply Ok.setCs
    | with_reducible refine Ok.ite ?_ ?_

theorem Ok.fxCsRejoin {q : List Instr} (who : Who) (c : CsIx) (s : State) (h : Ok q s) : Ok q (Machine.fxCsRejoin who c s) := by
  unfold Machine.fxCsRejoin
  repeat' first
    | with_reducible assumption
    | intro _
    | with_reducible apply Ok.csRejoin
    | with_reducible apply Ok.gateW

theorem Ok.rejoinTile {q : List Instr} (t : Nat) (pass : Bool) (s : State) (h : Ok q s) : Ok q (Machine.rejoinTile t pass s) := by
  unfold Machine.rejoinTile
  repeat' first
    | dsimp only
    | with_reducible assumption
    | intro _
    | with_reducible apply Ok.modTile
    | with_reducible apply Ok.raiseG
    | with_reducible refine Ok.ite ?_ ?_
    | split

theorem Ok.fxRejoinTestDone {q : List Instr} (unit : RejoinUnit) (pass : Bool) (s : State) (h : Ok q s) : Ok q (Machine.fxRejoinTestDone unit pass s) := by
  unfold Machine.fxRejoinTestDone
  repeat' first
    | with_reducible assumption
    | intro _
    | with_reducible apply Ok.journal
    | with_reducible apply Ok.rejoinTile
    | with_reducible apply Ok.setCs
    | with_reducible apply Ok.whenS
    | split
    | (simp_all; done)

theorem Ok.fxTileWatchdog {q : List Instr} (t : TileIx) (both : Bool) (s : State) (h : Ok q s) : Ok q (Machine.fxTileWatchdog t both s) := by
  unfold Machine.fxTileWatchdog
  repeat' first
    | dsimp only
    | with_reducible assumption
    | intro _
    | with_reducible apply Ok.eachN
    | with_reducible apply Ok.quarantine
    | with_reducible apply Ok.whenS
    | with_reducible refine Ok.ite ?_ ?_
    | split

theorem Ok.csFails {q : List Instr} (c : Nat) (s : State) (h : Ok q s) : Ok q (Machine.csFails c s) := by
  unfold Machine.csFails
  repeat' first
    | dsimp only
    | with_reducible assumption
    | intro _
    | with_reducible apply Ok.journal
    | with_reducible apply Ok.modReq
    | with_reducible apply Ok.raiseG
    | with_reducible apply Ok.setCs
    | with_reducible apply Ok.whenS
    | with_reducible apply Ok.foldl
    | with_reducible refine Ok.ite ?_ ?_
    | split
    | (simp_all; done)

theorem Ok.fxCsWatchdog {q : List Instr} (c : CsIx) (error : CsError) (s : State) (h : Ok q s) : Ok q (Machine.fxCsWatchdog c error s) := by
  unfold Machine.fxCsWatchdog
  repeat' first
    | dsimp only
    | with_reducible assumption
    | intro _
    | with_reducible apply Ok.csFails
    | with_reducible apply Ok.journalUe
    | with_reducible apply Ok.raiseG
    | with_reducible apply Ok.whenS
    | with_reducible refine Ok.ite ?_ ?_
    | split

theorem Ok.unforward {q : List Instr} (id : Nat) (s : State) (h : Ok q s) : Ok q (Machine.unforward id s) := by
  unfold Machine.unforward
  repeat' first
    | dsimp only
    | with_reducible assumption
    | intro _
    | with_reducible refine Ok.modCrs _ ?_ ?_
    | with_reducible apply Ok.modReq
    | (rename_i hh; obtain ⟨ha, hb⟩ := hh; refine ⟨?_, ?_⟩ <;> first | linear_combination ha | linear_combination hb)

theorem Ok.stopReq {q : List Instr} (id : Nat) (o : Outcome) (s : State) (h : Ok q s) : Ok q (Machine.stopReq id o s) := by
  unfold Machine.stopReq
  repeat' first
    | dsimp only
    | with_reducible assumption
    | with_reducible apply Ok.endChain
    | with_reducible apply Ok.sendFrame
    | with_reducible apply Ok.unforward
    | split

theorem Ok.fxRequestWatchdog {q : List Instr} (id : Nat) (s : State) (h : Ok q s) : Ok q (Machine.fxRequestWatchdog id s) := by
  unfold Machine.fxRequestWatchdog
  repeat' first
    | dsimp only
    | with_reducible assumption
    | intro _
    | with_reducible apply Ok.journal
    | with_reducible apply Ok.raiseT
    | with_reducible apply Ok.stopReq
    | with_reducible apply Ok.whenS
    | with_reducible apply Ok.withReq
    | (simp_all; done)

end Sys2Proof.Machine
end

