-- ==== Sys2Proof/Laws/KeepCompletion.lean ====
section
/-!
SUPPORT. The operations of Machine/Completion.lean keep the invariant and leave the queue alone.
-/

set_option Elab.async false

namespace Sys2Proof.Machine

theorem Ok.ledgerRecord {q : List Instr} (n : Nat) (flushed : Bool) (s : State) (h : Ok q s) : Ok q (ledgerRecord n flushed s) := by
  unfold Machine.ledgerRecord
  apply Ok.modTenLed _ _ h
  · rintro Q ⟨ha, hb⟩
    cases flushed
    · exact ⟨ha, by simp only [Bool.false_eq_true, if_false]; linear_combination hb⟩
    · exact ⟨ha, by simp only [if_true]; linear_combination hb⟩
  · exact id
  · exact id

theorem Ok.notify {q : List Instr} (n m : Nat) (s : State) (h : Ok q s) : Ok q (Machine.notify n m s) := by
  unfold Machine.notify
  repeat' first
    | with_reducible assumption
    | with_reducible apply Ok.modCq
    | with_reducible apply Ok.raiseT

theorem Ok.coalesce {q : List Instr} (n m : Nat) (s : State) (h : Ok q s) : Ok q (Machine.coalesce n m s) := by
  unfold Machine.coalesce
  repeat' first
    | dsimp only
    | with_reducible assumption
    | intro _
    | with_reducible apply Ok.modCq
    | with_reducible apply Ok.notify
    | with_reducible refine Ok.ite ?_ ?_
    | split

theorem Ok.cqFault {q : List Instr} (n m addr kind cause : Nat) (s : State) (h : Ok q s) : Ok q (Machine.cqFault n m addr kind cause s) := by
  unfold Machine.cqFault
  repeat' first
    | with_reducible assumption
    | with_reducible apply Ok.modCq
    | with_reducible apply Ok.raiseT

theorem Ok.recViol {q : List Instr} (r : Req) (addr cause : Nat) (s : State) (h : Ok q s) : Ok q (Machine.recViol r addr cause s) := by
  unfold Machine.recViol
  repeat' first
    | with_reducible assumption
    | with_reducible apply Ok.viol

theorem Ok.noteLeft {q : List Instr} (r : Req) (s : State) (h : Ok q s) : Ok q (Machine.noteLeft r s) := by
  unfold Machine.noteLeft
  repeat' first
    | dsimp only
    | with_reducible assumption
    | intro _
    | with_reducible refine Ok.modBoot _ ?_ ?_
    | with_reducible refine Ok.modTen _ _ ?_ ?_ ?_ ?_
    | with_reducible refine Ok.ite ?_ ?_
    | split

theorem Ok.trimSent {q : List Instr} (n m : Nat) (s : State) (h : Ok q s) : Ok q (Machine.trimSent n m s) := by
  unfold Machine.trimSent
  repeat' first
    | dsimp only
    | with_reducible assumption
    | intro _
    | with_reducible apply Ok.modSent
    | with_reducible refine Ok.ite ?_ ?_
    | split

theorem Ok.recordDone {q : List Instr} (r : Req) (addr : Nat) (b : Bytes) (s : State) (h : Ok q s) : Ok q (Machine.recordDone r addr b s) := by
  unfold Machine.recordDone
  repeat' first
    | dsimp only
    | with_reducible assumption
    | intro _
    | with_reducible apply Ok.coalesce
    | with_reducible apply Ok.emitRecord
    | with_reducible apply Ok.ledgerRecord
    | with_reducible apply Ok.modCq
    | with_reducible apply Ok.modSent
    | with_reducible apply Ok.noteLeft
    | with_reducible apply Ok.retireReq
    | with_reducible apply Ok.trimSent
    | with_reducible apply Ok.unstall
    | with_reducible refine Ok.ite ?_ ?_
    | split

theorem Ok.putRecord {q : List Instr} (r : Req) (rescued : Bool) (b : Bytes) (s : State) (h : Ok q s) : Ok q (Machine.putRecord r rescued b s).1 := by
  unfold Machine.putRecord
  repeat' first
    | dsimp only
    | with_reducible assumption
    | with_reducible apply Ok.cqFault
    | with_reducible apply Ok.recViol
    | with_reducible apply Ok.recordDone
    | split

theorem Ok.putRecord_eq {q : List Instr} {r : Req} {rescued : Bool} {b : Bytes} {s : State} {y : Bool} {t : State} (e : Machine.putRecord r rescued b s = (t, y)) (h : Ok q s) : Ok q t := by
  have := Ok.putRecord r rescued b s h
  rwa [e] at this

theorem Ok.rescueFaultRecord {q : List Instr} (n m : Nat) (copy : Bool) (addr : Nat) (s : State) (h : Ok q s) : Ok q (Machine.rescueFaultRecord n m copy addr s) := by
  unfold Machine.rescueFaultRecord
  repeat' first
    | with_reducible assumption
    | intro _
    | with_reducible apply Ok.journal
    | with_reducible apply Ok.raiseG
    | (simp_all; done)

theorem Ok.rescue {q : List Instr} (r : Req) (b : Bytes) (s : State) (h : Ok q s) : Ok q (Machine.rescue r b s) := by
  unfold Machine.rescue
  repeat' first
    | dsimp only
    | with_reducible assumption
    | intro _
    | with_reducible apply Ok.emitRecord
    | with_reducible apply Ok.modCq
    | with_reducible apply Ok.modReq
    | with_reducible apply Ok.rescueFaultRecord
    | with_reducible apply Ok.unstall
    | with_reducible apply Ok.violP
    | with_reducible refine Ok.ite ?_ ?_
    | split

theorem Ok.deliver {q : List Instr} (r : Req) (b : Bytes) (s : State) (h : Ok q s) : Ok q (Machine.deliver r b s) := by
  unfold Machine.deliver
  repeat' first
    | dsimp only
    | with_reducible assumption
    | intro _
    | with_reducible apply Ok.rescue
    | with_reducible refine Ok.putRecord_eq (by assumption) ?_
    | with_reducible refine Ok.ite ?_ ?_
    | split

theorem Ok.startCopy {q : List Instr} (n m : Nat) (x : Nat) (s : State) (h : Ok q s) : Ok q (Machine.startCopy n m x s) := by
  induction x generalizing s with
  | zero => exact h
  | succ l ih =>
    unfold Machine.startCopy
    repeat' first
      | dsimp only
      | with_reducible assumption
      | intro _
      | with_reducible apply Ok.cqFault
      | with_reducible apply Ok.emitRd
      | with_reducible apply Ok.modCq
      | with_reducible refine Ok.putRecord_eq (by assumption) ?_
      | with_reducible apply Ok.putRecord
      | with_reducible apply Ok.rescueFaultRecord
      | with_reducible apply Ok.violP
      | with_reducible refine Ok.ite ?_ ?_
      | split
      | with_reducible apply ih

theorem Ok.startCopies {q : List Instr} (n m : Nat) (s : State) (h : Ok q s) : Ok q (Machine.startCopies n m s) := by
  unfold Machine.startCopies
  repeat' first
    | with_reducible assumption
    | with_reducible apply Ok.startCopy

theorem Ok.busErrorOf {q : List Instr} (t : Option TenantIx) (addr : Nat) (d : Dir) (port kind number tag gen : Nat) (s : State) (h : Ok q s) : Ok q (Machine.busErrorOf t addr d port kind number tag gen s) := by
  unfold Machine.busErrorOf
  repeat' first
    | dsimp only
    | with_reducible assumption
    | intro _
    | with_reducible apply Ok.journal
    | with_reducible apply Ok.modBecnt
    | with_reducible apply Ok.modBuserr
    | with_reducible refine Ok.modTen _ _ ?_ ?_ ?_ ?_
    | with_reducible apply Ok.raiseG
    | with_reducible apply Ok.raiseT
    | with_reducible refine Ok.ite ?_ ?_
    | split
    | (simp_all; done)

theorem Ok.fenceError {q : List Instr} (r : Req) (addr port : Nat) (s : State) (h : Ok q s) : Ok q (Machine.fenceError r addr port s) := by
  unfold Machine.fenceError
  repeat' first
    | dsimp only
    | with_reducible assumption
    | intro _
    | with_reducible apply Ok.busErrorOf
    | with_reducible apply Ok.modReq
    | with_reducible refine Ok.ite ?_ ?_
    | split

theorem Ok.frameReadback {q : List Instr} (r : Req) (b : Nat) (resp : Resp) (s : State) (h : Ok q s) : Ok q (Machine.frameReadback r b resp s) := by
  unfold Machine.frameReadback
  repeat' first
    | dsimp only
    | with_reducible assumption
    | intro _
    | with_reducible apply Ok.fenceError
    | with_reducible apply Ok.modBuf
    | with_reducible apply Ok.whenS
    | with_reducible refine Ok.ite ?_ ?_
    | split

theorem Ok.portReadback {q : List Instr} (r : Req) (port : Bool) (resp : Resp) (s : State) (h : Ok q s) : Ok q (Machine.portReadback r port resp s) := by
  unfold Machine.portReadback
  repeat' first
    | dsimp only
    | with_reducible assumption
    | intro _
    | with_reducible apply Ok.fenceError
    | with_reducible apply Ok.modReq
    | with_reducible refine Ok.ite ?_ ?_
    | split

theorem Ok.fxFenceReadbackReturn {q : List Instr} (id : Nat) (port : Bool) (resp : Resp) (frame : Option (Fin 8)) (s : State) (h : Ok q s) : Ok q (Machine.fxFenceReadbackReturn id port resp frame s) := by
  unfold Machine.fxFenceReadbackReturn
  repeat' first
    | dsimp only
    | with_reducible assumption
    | intro _
    | with_reducible apply Ok.frameReadback
    | with_reducible apply Ok.portReadback
    | with_reducible apply Ok.whenS
    | with_reducible apply Ok.withReq
    | with_reducible refine Ok.ite ?_ ?_
    | split

theorem Ok.fxRescueCopy {q : List Instr} (n : TenantIx) (m : RingIx) (resp : Resp) (s : State) (h : Ok q s) : Ok q (Machine.fxRescueCopy n m resp s) := by
  unfold Machine.fxRescueCopy
  repeat' first
    | dsimp only
    | with_reducible assumption
    | intro _
    | with_reducible apply Ok.busErrorOf
    | with_reducible apply Ok.cqFault
    | with_reducible apply Ok.modCq
    | with_reducible apply Ok.putRecord
    | with_reducible refine Ok.putRecord_eq (by assumption) ?_
    | with_reducible apply Ok.rescueFaultRecord
    | with_reducible apply Ok.startCopies
    | with_reducible apply Ok.whenS
    | with_reducible apply Ok.withReq
    | with_reducible refine Ok.ite ?_ ?_
    | split

theorem Ok.cqFaultClear {q : List Instr} (n m : Nat) (s : State) (h : Ok q s) : Ok q (Machine.cqFaultClear n m s) := by
  unfold Machine.cqFaultClear
  repeat' first
    | with_reducible assumption
    | intro _
    | with_reducible apply Ok.modCq
    | with_reducible apply Ok.startCopies
    | with_reducible refine Ok.ite ?_ ?_

theorem Ok.fxCqFaultClear {q : List Instr} (who : Who) (n : TenantIx) (m : RingIx) (s : State) (h : Ok q s) : Ok q (Machine.fxCqFaultClear who n m s) := by
  unfold Machine.fxCqFaultClear
  repeat' first
    | with_reducible assumption
    | intro _
    | with_reducible apply Ok.cqFaultClear
    | with_reducible apply Ok.gateW

theorem Ok.bootRecord {q : List Instr} (index : Nat) (b : Bytes) (s : State) (h : Ok q s) : Ok q (Machine.bootRecord index b s) := by
  unfold Machine.bootRecord
  repeat' first
    | dsimp only
    | with_reducible assumption
    | intro _
    | with_reducible apply Ok.emitRecord
    | with_reducible refine Ok.modBoot _ ?_ ?_
    | with_reducible apply Ok.violP
    | split
    | (rename_i hh; linear_combination hh)

theorem Ok.bootSettle {q : List Instr} (s : State) (h : Ok q s) : Ok q (Machine.bootSettle s) := by
  unfold Machine.bootSettle
  repeat' first
    | dsimp only
    | with_reducible assumption
    | intro _
    | with_reducible refine Ok.modBoot _ ?_ ?_
    | with_reducible refine Ok.ite ?_ ?_

theorem Ok.giveCredit {q : List Instr} (peer number : Nat) (s : State) (h : Ok q s) : Ok q (Machine.giveCredit peer number s) := by
  unfold Machine.giveCredit
  repeat' first
    | dsimp only
    | with_reducible assumption
    | intro _
    | with_reducible apply Ok.modPeer
    | with_reducible apply Ok.sendFrame
    | with_reducible refine Ok.ite ?_ ?_
    | split

theorem Ok.sendResult {q : List Instr} (peer number : Nat) (r : Req) (o : Outcome) (s : State) (h : Ok q s) : Ok q (Machine.sendResult peer number r o s) := by
  unfold Machine.sendResult
  repeat' first
    | dsimp only
    | with_reducible assumption
    | intro _
    | with_reducible apply Ok.giveCredit
    | with_reducible refine Ok.modCrs _ ?_ ?_
    | with_reducible apply Ok.sendLong
    | with_reducible refine Ok.ite ?_ ?_
    | split
    | (rename_i hh; obtain ⟨ha, hb⟩ := hh; refine ⟨?_, ?_⟩ <;> first | linear_combination ha | linear_combination hb)

theorem Ok.countLate {q : List Instr} (r : Req) (s : State) (h : Ok q s) : Ok q (Machine.countLate r s) := by
  unfold Machine.countLate
  repeat' first
    | dsimp only
    | with_reducible assumption
    | intro _
    | with_reducible refine Ok.modSq _ _ _ ?_ ?_
    | with_reducible apply Ok.raiseT

theorem Ok.scrubContext {q : List Instr} (id : Nat) (s : State) (h : Ok q s) : Ok q (Machine.scrubContext id s) := by
  unfold Machine.scrubContext
  repeat' first
    | dsimp only
    | with_reducible assumption
    | intro _
    | with_reducible apply Ok.modReq
    | with_reducible refine Ok.ite ?_ ?_
    | split

theorem Ok.countSupply {q : List Instr} (s : State) (h : Ok q s) : Ok q (Machine.countSupply s) := by
  unfold Machine.countSupply
  repeat' first
    | with_reducible assumption
    | with_reducible apply Ok.modSup

theorem Ok.recordCounts {q : List Instr} (id : Nat) (ecc : Ecc) (r : Req) (o : Outcome) (s : State) (h : Ok q s) : Ok q (Machine.recordCounts id ecc r o s) := by
  unfold Machine.recordCounts
  repeat' first
    | dsimp only
    | with_reducible assumption
    | intro _
    | with_reducible apply Ok.countLate
    | with_reducible apply Ok.countSupply
    | with_reducible apply Ok.memCheck
    | with_reducible apply Ok.scrubContext
    | with_reducible refine Ok.ite ?_ ?_
    | split

theorem Ok.fxCompletionRecordWrite {q : List Instr} (id : Nat) (ecc : Ecc) (s : State) (h : Ok q s) : Ok q (Machine.fxCompletionRecordWrite id ecc s) := by
  unfold Machine.fxCompletionRecordWrite
  repeat' first
    | dsimp only
    | with_reducible assumption
    | intro _
    | with_reducible apply Ok.bootRecord
    | with_reducible apply Ok.bootSettle
    | with_reducible apply Ok.deliver
    | with_reducible apply Ok.modReq
    | with_reducible apply Ok.modSch
    | with_reducible apply Ok.noteLeft
    | with_reducible apply Ok.recordCounts
    | with_reducible apply Ok.retireReq
    | with_reducible apply Ok.sendResult
    | with_reducible apply Ok.whenS
    | with_reducible apply Ok.withReq
    | with_reducible refine Ok.ite ?_ ?_
    | split

theorem Ok.fxReservoirRecordWrite {q : List Instr} (n : TenantIx) (m : RingIx) (ecc : Ecc) (s : State) (h : Ok q s) : Ok q (Machine.fxReservoirRecordWrite n m ecc s) := by
  unfold Machine.fxReservoirRecordWrite
  repeat' first
    | dsimp only
    | with_reducible assumption
    | intro _
    | with_reducible apply Ok.deliver
    | with_reducible apply Ok.memCheck
    | with_reducible apply Ok.whenS
    | with_reducible refine Ok.ite ?_ ?_
    | split

theorem Ok.fxCqCoalTimeout {q : List Instr} (n : TenantIx) (m : RingIx) (s : State) (h : Ok q s) : Ok q (Machine.fxCqCoalTimeout n m s) := by
  unfold Machine.fxCqCoalTimeout
  repeat' first
    | with_reducible assumption
    | intro _
    | with_reducible apply Ok.notify
    | with_reducible apply Ok.whenS

theorem Ok.cqHead {q : List Instr} (n m new : Nat) (s : State) (h : Ok q s) : Ok q (Machine.cqHead n m new s) := by
  unfold Machine.cqHead
  repeat' first
    | dsimp only
    | with_reducible assumption
    | intro _
    | with_reducible apply Ok.modCq
    | with_reducible apply Ok.raiseT
    | with_reducible apply Ok.trimSent
    | with_reducible apply Ok.unstall
    | with_reducible refine Ok.ite ?_ ?_
    | split

theorem Ok.fxCqDoorbell {q : List Instr} (who : Who) (n : TenantIx) (m : RingIx) (head : BitVec 17) (s : State) (h : Ok q s) : Ok q (Machine.fxCqDoorbell who n m head s) := by
  unfold Machine.fxCqDoorbell
  repeat' first
    | with_reducible assumption
    | intro _
    | with_reducible apply Ok.cqHead
    | with_reducible apply Ok.gateW

theorem Ok.cqBaseWrite {q : List Instr} (who : Who) (n : TenantIx) (m : RingIx) (mask val : Word) (s : State) (h : Ok q s) : Ok q (Machine.cqBaseWrite who n m mask val s) := by
  unfold Machine.cqBaseWrite
  repeat' first
    | dsimp only
    | with_reducible assumption
    | intro _
    | with_reducible apply Ok.dropPiece
    | with_reducible apply Ok.modCq
    | with_reducible apply Ok.trimSent
    | with_reducible refine Ok.ite ?_ ?_
    | split

theorem Ok.noticeDue {q : List Instr} (n m : Nat) (s : State) (h : Ok q s) : Ok q (Machine.noticeDue n m s) := by
  unfold Machine.noticeDue
  repeat' first
    | dsimp only
    | with_reducible assumption
    | intro _
    | with_reducible apply Ok.notify
    | with_reducible refine Ok.ite ?_ ?_
    | split

theorem Ok.cqCfgWrite {q : List Instr} (who : Who) (n : TenantIx) (m : RingIx) (mask val : Word) (s : State) (h : Ok q s) : Ok q (Machine.cqCfgWrite who n m mask val s) := by
  unfold Machine.cqCfgWrite
  repeat' first
    | dsimp only
    | with_reducible assumption
    | intro _
    | with_reducible apply Ok.dropPiece
    | with_reducible apply Ok.modCq
    | with_reducible apply Ok.noticeDue
    | with_reducible apply Ok.trimSent
    | with_reducible refine Ok.ite ?_ ?_
    | split

theorem Ok.cqSetup {q : List Instr} (who : Who) (n : TenantIx) (m : RingIx) (r : CqSetup) (mask val : Word) (s : State) (h : Ok q s) : Ok q (Machine.cqSetup who n m r mask val s) := by
  unfold Machine.cqSetup
  repeat' first
    | with_reducible assumption
    | with_reducible apply Ok.cqBaseWrite
    | with_reducible apply Ok.cqCfgWrite
    | split

theorem Ok.fxCqSetupWrite {q : List Instr} (who : Who) (n : TenantIx) (m : RingIx) (r : CqSetup) (v : Word) (s : State) (h : Ok q s) : Ok q (Machine.fxCqSetupWrite who n m r v s) := by
  unfold Machine.fxCqSetupWrite
  repeat' first
    | with_reducible assumption
    | intro _
    | with_reducible apply Ok.cqSetup
    | with_reducible apply Ok.gateW

theorem Ok.cqEnWrite {q : List Instr} (who : Who) (n : TenantIx) (m : RingIx) (mask val : Word) (s : State) (h : Ok q s) : Ok q (Machine.cqEnWrite who n m mask val s) := by
  unfold Machine.cqEnWrite
  repeat' first
    | dsimp only
    | with_reducible assumption
    | intro _
    | with_reducible apply Ok.dropPiece
    | with_reducible apply Ok.modCq
    | with_reducible apply Ok.unstall
    | with_reducible refine Ok.ite ?_ ?_
    | split

theorem Ok.fxCqEnWrite {q : List Instr} (who : Who) (n : TenantIx) (m : RingIx) (en : Bool) (s : State) (h : Ok q s) : Ok q (Machine.fxCqEnWrite who n m en s) := by
  unfold Machine.fxCqEnWrite
  repeat' first
    | dsimp only
    | with_reducible assumption
    | intro _
    | with_reducible apply Ok.cqEnWrite
    | with_reducible apply Ok.gateW
    | with_reducible refine Ok.ite ?_ ?_
    | split

theorem Ok.ledgerSnap {q : List Instr} (n : Nat) (s : State) (h : Ok q s) : Ok q (Machine.ledgerSnap n s) := by
  unfold Machine.ledgerSnap
  repeat' first
    | dsimp only
    | with_reducible assumption
    | intro _
    | with_reducible refine Ok.modTen _ _ ?_ ?_ ?_ ?_

theorem Ok.fxLedgerSnap {q : List Instr} (who : Who) (n : TenantIx) (s : State) (h : Ok q s) : Ok q (Machine.fxLedgerSnap who n s) := by
  unfold Machine.fxLedgerSnap
  repeat' first
    | with_reducible assumption
    | intro _
    | with_reducible apply Ok.gateW
    | with_reducible apply Ok.ledgerSnap

end Sys2Proof.Machine
end

