-- ==== Sys2Proof/Laws/KeepKeyStore.lean ====
section
/-!
SUPPORT. The operations of Machine/KeyStore.lean keep the invariant and leave the queue alone.
-/

set_option Elab.async false

namespace Sys2Proof.Machine

theorem Ok.ksErr {q : List Instr} (e : Nat) (s : State) (h : Ok q s) : Ok q (Machine.ksErr e s) := by
  unfold Machine.ksErr
  repeat' first
    | with_reducible assumption
    | with_reducible apply Ok.modKs

theorem Ok.ksCmd {q : List Instr} (f : State → State) (s : State) (h : Ok q s) (hf : ∀ x0, Ok q x0 → Ok q (f x0)) : Ok q (Machine.ksCmd f s) := by
  unfold Machine.ksCmd
  repeat' first
    | with_reducible assumption
    | intro _
    | with_reducible apply Ok.ksErr
    | with_reducible refine Ok.ite ?_ ?_
    | (simp_all; done)

theorem Ok.copyBank {q : List Instr} (x : Nat) (s : State) (h : Ok q s) : Ok q (Machine.copyBank x s) := by
  unfold Machine.copyBank
  repeat' first
    | dsimp only
    | with_reducible assumption
    | intro _
    | with_reducible apply Ok.modSlot
    | with_reducible refine Ok.ite ?_ ?_
    | split

theorem Ok.orDefer {q : List Instr} (d : KsDefer) (f : State → State) (s : State) (h : Ok q s) (hf : ∀ s, Ok q s → Ok q (f s)) : Ok q (Machine.orDefer d f s) := by
  unfold Machine.orDefer
  repeat' first
    | dsimp only
    | with_reducible assumption
    | intro _
    | with_reducible apply Ok.modKs
    | with_reducible apply hf
    | with_reducible refine Ok.ite ?_ ?_
    | split

theorem Ok.ksOpenAs {q : List Instr} (copy : Bool) (s : State) (h : Ok q s) : Ok q (Machine.ksOpenAs copy s) := by
  unfold Machine.ksOpenAs
  repeat' first
    | dsimp only
    | with_reducible assumption
    | intro _
    | with_reducible apply Ok.copyBank
    | with_reducible apply Ok.ksErr
    | with_reducible apply Ok.modKs
    | with_reducible apply Ok.modOwn
    | with_reducible apply Ok.modSlot
    | with_reducible apply Ok.orDefer
    | with_reducible refine Ok.ite ?_ ?_
    | split

theorem Ok.fxKsOpen {q : List Instr} (who : Who) (s : State) (h : Ok q s) : Ok q (Machine.fxKsOpen who s) := by
  unfold Machine.fxKsOpen
  repeat' first
    | with_reducible assumption
    | intro _
    | with_reducible apply Ok.gateW
    | with_reducible apply Ok.ksCmd
    | with_reducible apply Ok.ksOpenAs

theorem Ok.fxKsOpenc {q : List Instr} (who : Who) (s : State) (h : Ok q s) : Ok q (Machine.fxKsOpenc who s) := by
  unfold Machine.fxKsOpenc
  repeat' first
    | with_reducible assumption
    | intro _
    | with_reducible apply Ok.gateW
    | with_reducible apply Ok.ksCmd
    | with_reducible apply Ok.ksOpenAs

theorem Ok.bankWrite {q : List Instr} (r : KsBankReg) (mask val : Word) (s : State) (h : Ok q s) : Ok q (Machine.bankWrite r mask val s) := by
  unfold Machine.bankWrite
  repeat' first
    | dsimp only
    | with_reducible assumption
    | intro _
    | with_reducible apply Ok.modKs
    | with_reducible apply Ok.modOwn
    | with_reducible apply Ok.modSlot
    | with_reducible refine Ok.ite ?_ ?_
    | split

theorem Ok.ksBank {q : List Instr} (who : Who) (r : KsBankReg) (mask val : Word) (s : State) (h : Ok q s) : Ok q (Machine.ksBank who r mask val s) := by
  unfold Machine.ksBank
  repeat' first
    | dsimp only
    | with_reducible assumption
    | intro _
    | with_reducible apply Ok.bankWrite
    | with_reducible apply Ok.dropPiece
    | with_reducible apply Ok.orDefer
    | with_reducible refine Ok.ite ?_ ?_
    | split

theorem Ok.fxKsBankWrite {q : List Instr} (who : Who) (r : KsBankReg) (v : Word) (s : State) (h : Ok q s) : Ok q (Machine.fxKsBankWrite who r v s) := by
  unfold Machine.fxKsBankWrite
  repeat' first
    | with_reducible assumption
    | intro _
    | with_reducible apply Ok.gateW
    | with_reducible apply Ok.ksBank

theorem Ok.ksCommit {q : List Instr} (s : State) (h : Ok q s) : Ok q (Machine.ksCommit s) := by
  unfold Machine.ksCommit
  repeat' first
    | dsimp only
    | with_reducible assumption
    | intro _
    | with_reducible apply Ok.beginVerify
    | with_reducible apply Ok.ksErr
    | with_reducible apply Ok.modKs
    | with_reducible refine Ok.ite ?_ ?_
    | split

theorem Ok.fxKsCommit {q : List Instr} (who : Who) (s : State) (h : Ok q s) : Ok q (Machine.fxKsCommit who s) := by
  unfold Machine.fxKsCommit
  repeat' first
    | with_reducible assumption
    | intro _
    | with_reducible apply Ok.gateW
    | with_reducible apply Ok.ksCmd
    | with_reducible apply Ok.ksCommit

theorem Ok.ksDiscard {q : List Instr} (e : Nat) (s : State) (h : Ok q s) : Ok q (Machine.ksDiscard e s) := by
  unfold Machine.ksDiscard
  repeat' first
    | dsimp only
    | with_reducible assumption
    | intro _
    | with_reducible apply Ok.modKs
    | with_reducible apply Ok.unclaim
    | with_reducible refine Ok.ite ?_ ?_
    | split

theorem Ok.ksAbort {q : List Instr} (s : State) (h : Ok q s) : Ok q (Machine.ksAbort s) := by
  unfold Machine.ksAbort
  repeat' first
    | with_reducible assumption
    | intro _
    | with_reducible apply Ok.ksDiscard
    | with_reducible apply Ok.ksErr
    | with_reducible refine Ok.ite ?_ ?_

theorem Ok.fxKsAbort {q : List Instr} (who : Who) (s : State) (h : Ok q s) : Ok q (Machine.fxKsAbort who s) := by
  unfold Machine.fxKsAbort
  repeat' first
    | with_reducible assumption
    | intro _
    | with_reducible apply Ok.gateW
    | with_reducible apply Ok.ksAbort
    | with_reducible apply Ok.ksCmd

theorem Ok.ksZeroize {q : List Instr} (s : State) (h : Ok q s) : Ok q (Machine.ksZeroize s) := by
  unfold Machine.ksZeroize
  repeat' first
    | dsimp only
    | with_reducible assumption
    | intro _
    | with_reducible apply Ok.ksDiscard
    | with_reducible apply Ok.ksErr
    | with_reducible apply Ok.modSlot
    | with_reducible refine Ok.ite ?_ ?_

theorem Ok.fxKsZeroize {q : List Instr} (who : Who) (s : State) (h : Ok q s) : Ok q (Machine.fxKsZeroize who s) := by
  unfold Machine.fxKsZeroize
  repeat' first
    | with_reducible assumption
    | intro _
    | with_reducible apply Ok.gateW
    | with_reducible apply Ok.ksCmd
    | with_reducible apply Ok.ksZeroize

theorem Ok.extend {q : List Instr} (i : Nat) (e : Bytes) (s : State) (h : Ok q s) : Ok q (Machine.extend i e s) := by
  unfold Machine.extend
  repeat' first
    | with_reducible assumption
    | with_reducible apply Ok.modMeas

theorem Ok.extendOrDefer {q : List Instr} (i : Nat) (e : Bytes) (s : State) (h : Ok q s) : Ok q (Machine.extendOrDefer i e s) := by
  unfold Machine.extendOrDefer
  repeat' first
    | dsimp only
    | with_reducible assumption
    | intro _
    | with_reducible apply Ok.extend
    | with_reducible apply Ok.orDefer
    | with_reducible refine Ok.ite ?_ ?_
    | split

theorem Ok.extendRecord {q : List Instr} (i : Nat) (s : State) (h : Ok q s) : Ok q (Machine.extendRecord i s) := by
  unfold Machine.extendRecord
  repeat' first
    | dsimp only
    | with_reducible assumption
    | intro _
    | with_reducible apply Ok.ksEvent
    | with_reducible refine Ok.ite ?_ ?_
    | split

theorem Ok.extendDue {q : List Instr} (i : Nat) (e : Bytes) (s : State) (h : Ok q s) : Ok q (Machine.extendDue i e s) := by
  unfold Machine.extendDue
  repeat' first
    | dsimp only
    | with_reducible assumption
    | intro _
    | with_reducible apply Ok.extend
    | with_reducible apply Ok.extendRecord
    | with_reducible apply Ok.ksErr
    | with_reducible refine Ok.ite ?_ ?_
    | split

theorem Ok.ksExtend {q : List Instr} (s : State) (h : Ok q s) : Ok q (Machine.ksExtend s) := by
  unfold Machine.ksExtend
  repeat' first
    | dsimp only
    | with_reducible assumption
    | intro _
    | with_reducible apply Ok.extendOrDefer
    | with_reducible apply Ok.extendRecord
    | with_reducible apply Ok.ksErr
    | with_reducible refine Ok.ite ?_ ?_
    | split

theorem Ok.fxKsExtend {q : List Instr} (who : Who) (s : State) (h : Ok q s) : Ok q (Machine.fxKsExtend who s) := by
  unfold Machine.fxKsExtend
  repeat' first
    | with_reducible assumption
    | intro _
    | with_reducible apply Ok.gateW
    | with_reducible apply Ok.ksCmd
    | with_reducible apply Ok.ksExtend

theorem Ok.sendSlotBank {q : List Instr} (x : Nat) (s : State) (h : Ok q s) : Ok q (Machine.sendSlotBank x s) := by
  unfold Machine.sendSlotBank
  repeat' first
    | dsimp only
    | with_reducible assumption
    | intro _
    | with_reducible apply Ok.eachN
    | with_reducible apply Ok.nextFree
    | with_reducible apply Ok.sendLong
    | with_reducible refine Ok.ite ?_ ?_

theorem Ok.swapBank {q : List Instr} (x : Nat) (s : State) (h : Ok q s) : Ok q (Machine.swapBank x s) := by
  unfold Machine.swapBank
  repeat' first
    | dsimp only
    | with_reducible assumption
    | intro _
    | with_reducible refine Ok.modCrs _ ?_ ?_
    | with_reducible apply Ok.modSlot
    | with_reducible apply Ok.sendSlotBank
    | with_reducible refine Ok.ite ?_ ?_
    | split

theorem Ok.dropClaim {q : List Instr} (r : Req) (x : Nat) (s : State) (h : Ok q s) : Ok q (Machine.dropClaim r x s) := by
  unfold Machine.dropClaim
  repeat' first
    | dsimp only
    | with_reducible assumption
    | intro _
    | with_reducible apply Ok.eachN
    | with_reducible apply Ok.modOp
    | with_reducible refine Ok.ite ?_ ?_
    | split

theorem Ok.installEnds {q : List Instr} (r : Req) (x : Nat) (s : State) (h : Ok q s) : Ok q (Machine.installEnds r x s) := by
  unfold Machine.installEnds
  repeat' first
    | dsimp only
    | with_reducible assumption
    | intro _
    | with_reducible apply Ok.dropClaim
    | with_reducible apply Ok.modReq
    | with_reducible apply Ok.swapBank
    | with_reducible apply Ok.unclaim
    | with_reducible refine Ok.ite ?_ ?_
    | split

theorem Ok.verifyEnds {q : List Instr} (x : Nat) (s : State) (h : Ok q s) : Ok q (Machine.verifyEnds x s) := by
  unfold Machine.verifyEnds
  repeat' first
    | dsimp only
    | with_reducible assumption
    | intro _
    | with_reducible apply Ok.installEnds
    | with_reducible apply Ok.ksDiscard
    | with_reducible apply Ok.modKs
    | with_reducible apply Ok.raiseG
    | with_reducible apply Ok.swapBank
    | with_reducible apply Ok.unclaim
    | with_reducible refine Ok.ite ?_ ?_
    | split

theorem Ok.fxKsVerifyDone {q : List Instr} (slot : Fin 2048) (s : State) (h : Ok q s) : Ok q (Machine.fxKsVerifyDone slot s) := by
  unfold Machine.fxKsVerifyDone
  repeat' first
    | dsimp only
    | with_reducible assumption
    | intro _
    | with_reducible apply Ok.orDefer
    | with_reducible apply Ok.verifyEnds
    | with_reducible apply Ok.whenS
    | with_reducible refine Ok.ite ?_ ?_
    | split

theorem Ok.zeroFree {q : List Instr} (x : Nat) (s : State) (h : Ok q s) : Ok q (Machine.zeroFree x s) := by
  unfold Machine.zeroFree
  repeat' first
    | dsimp only
    | with_reducible assumption
    | intro _
    | with_reducible apply Ok.modSlot
    | with_reducible refine Ok.ite ?_ ?_
    | split

theorem Ok.fxKsDrained {q : List Instr} (slot : Fin 2048) (s : State) (h : Ok q s) : Ok q (Machine.fxKsDrained slot s) := by
  unfold Machine.fxKsDrained
  repeat' first
    | dsimp only
    | with_reducible assumption
    | intro _
    | with_reducible apply Ok.modSlot
    | with_reducible apply Ok.raiseG
    | with_reducible apply Ok.whenS
    | with_reducible apply Ok.zeroFree
    | with_reducible refine Ok.ite ?_ ?_
    | split

theorem Ok.fxKsBackgroundScan {q : List Instr} (slot : Fin 2048) (found : BankCheck) (s : State) (h : Ok q s) : Ok q (Machine.fxKsBackgroundScan slot found s) := by
  unfold Machine.fxKsBackgroundScan
  repeat' first
    | dsimp only
    | with_reducible assumption
    | intro _
    | with_reducible apply Ok.failBank
    | with_reducible apply Ok.failBankUe
    | with_reducible apply Ok.ksCe
    | with_reducible apply Ok.whenS
    | with_reducible refine Ok.ite ?_ ?_
    | split

theorem Ok.seedLoad {q : List Instr} (id i : Nat) (f : State → State) (s : State) (h : Ok q s) (hf : ∀ s, Ok q s → Ok q (f s)) : Ok q (Machine.seedLoad id i f s) := by
  unfold Machine.seedLoad
  repeat' first
    | dsimp only
    | with_reducible assumption
    | intro _
    | with_reducible apply Ok.endChain
    | with_reducible apply Ok.useBank
    | with_reducible apply hf
    | with_reducible refine Ok.ite ?_ ?_
    | split

theorem Ok.fxKeyCacheLoad {q : List Instr} (id : Nat) (op : Fin 8) (s : State) (h : Ok q s) : Ok q (Machine.fxKeyCacheLoad id op s) := by
  unfold Machine.fxKeyCacheLoad
  repeat' first
    | dsimp only
    | with_reducible assumption
    | intro _
    | with_reducible apply Ok.endChain
    | with_reducible apply Ok.finishOp
    | with_reducible apply Ok.seedLoad
    | with_reducible apply Ok.setCacheEnt
    | with_reducible apply Ok.sweepCache
    | with_reducible apply Ok.whenS
    | with_reducible apply Ok.withReq
    | with_reducible refine Ok.ite ?_ ?_
    | split

theorem Ok.fxKeyInstall {q : List Instr} (id : Nat) (op : Fin 8) (s : State) (h : Ok q s) : Ok q (Machine.fxKeyInstall id op s) := by
  unfold Machine.fxKeyInstall
  repeat' first
    | with_reducible assumption
    | intro _
    | with_reducible apply Ok.endChain
    | with_reducible apply Ok.finishOp
    | with_reducible apply Ok.whenS
    | with_reducible apply Ok.withReq
    | with_reducible refine Ok.ite ?_ ?_
    | split

theorem Ok.fxKeyCacheUnload {q : List Instr} (id : Nat) (op : Fin 8) (s : State) (h : Ok q s) : Ok q (Machine.fxKeyCacheUnload id op s) := by
  unfold Machine.fxKeyCacheUnload
  repeat' first
    | dsimp only
    | with_reducible assumption
    | intro _
    | with_reducible apply Ok.finishOp
    | with_reducible apply Ok.setCacheEnt
    | with_reducible apply Ok.whenS
    | with_reducible apply Ok.withReq
    | with_reducible refine Ok.ite ?_ ?_

theorem Ok.kilnRun {q : List Instr} (opc id i : Nat) (s : State) (h : Ok q s) : Ok q (Machine.kilnRun opc id i s) := by
  unfold Machine.kilnRun
  repeat' first
    | dsimp only
    | with_reducible assumption
    | intro _
    | with_reducible apply Ok.finishOp
    | with_reducible apply Ok.whenS
    | with_reducible apply Ok.withReq
    | with_reducible refine Ok.ite ?_ ?_
    | split

theorem Ok.fxHkdf {q : List Instr} (id : Nat) (op : Fin 8) (s : State) (h : Ok q s) : Ok q (Machine.fxHkdf id op s) := by
  unfold Machine.fxHkdf
  repeat' first
    | with_reducible assumption
    | with_reducible apply Ok.kilnRun

theorem Ok.fxCounterModeKdf {q : List Instr} (id : Nat) (op : Fin 8) (s : State) (h : Ok q s) : Ok q (Machine.fxCounterModeKdf id op s) := by
  unfold Machine.fxCounterModeKdf
  repeat' first
    | with_reducible assumption
    | with_reducible apply Ok.kilnRun

theorem Ok.fxKilnDerivation {q : List Instr} (id : Nat) (op : Fin 8) (s : State) (h : Ok q s) : Ok q (Machine.fxKilnDerivation id op s) := by
  unfold Machine.fxKilnDerivation
  repeat' first
    | with_reducible assumption
    | with_reducible apply Ok.kilnRun

end Sys2Proof.Machine
end

