-- ==== Sys2Proof/Laws/KeepAttest.lean ====
section
/-!
SUPPORT. The operations of Machine/Attest.lean keep the invariant and leave the queue alone.
-/

set_option Elab.async false

namespace Sys2Proof.Machine

theorem Ok.fxRandomDraw {q : List Instr} (id : Nat) (op : Fin 8) (s : State) (h : Ok q s) : Ok q (Machine.fxRandomDraw id op s) := by
  unfold Machine.fxRandomDraw
  repeat' first
    | dsimp only
    | with_reducible assumption
    | intro _
    | with_reducible apply Ok.endChain
    | with_reducible apply Ok.finishOp
    | with_reducible refine Ok.generateAdd_eq (by assumption) ?_
    | with_reducible apply Ok.generateAdd
    | with_reducible apply Ok.whenS
    | with_reducible apply Ok.withReq
    | with_reducible refine Ok.ite ?_ ?_
    | split

theorem Ok.failChecks {q : List Instr} (bad : List Nat) (s : State) (h : Ok q s) : Ok q (Machine.failChecks bad s) := by
  unfold Machine.failChecks
  repeat' first
    | dsimp only
    | with_reducible assumption
    | intro _
    | with_reducible apply Ok.foldl
    | with_reducible apply Ok.quarantine
    | with_reducible refine Ok.ite ?_ ?_
    | split

theorem Ok.fxAttestationStatement {q : List Instr} (id : Nat) (op : Fin 8) (okC okQ : Bool) (s : State) (h : Ok q s) : Ok q (Machine.fxAttestationStatement id op okC okQ s) := by
  unfold Machine.fxAttestationStatement
  repeat' first
    | dsimp only
    | with_reducible assumption
    | intro _
    | with_reducible apply Ok.endChain
    | with_reducible apply Ok.failChecks
    | with_reducible apply Ok.finishOp
    | with_reducible apply Ok.generate
    | with_reducible refine Ok.generate_eq (by assumption) ?_
    | with_reducible apply Ok.modOp
    | with_reducible apply Ok.useBank
    | with_reducible apply Ok.whenS
    | with_reducible apply Ok.withReq
    | with_reducible refine Ok.ite ?_ ?_
    | split

end Sys2Proof.Machine
end

