-- ==== Sys2Proof/Laws/KeepFrame.lean ====
section
/-!
SUPPORT. The operations of Machine/Frame.lean keep the invariant and leave the queue alone.
-/

set_option Elab.async false

namespace Sys2Proof.Machine

theorem Ok.joinWait {q : List Instr} (id : Nat) (s : State) (h : Ok q s) : Ok q (Machine.joinWait id s) := by
  unfold Machine.joinWait
  repeat' first
    | dsimp only
    | with_reducible assumption
    | intro _
    | with_reducible apply Ok.endChain
    | with_reducible refine Ok.modFp _ ?_ ?_
    | with_reducible refine Ok.ite ?_ ?_
    | split

theorem Ok.fxFrameHeaderQueryReturn {q : List Instr} (id : Nat) (buf : Fin 8) (hdr : Option FrameHdr) (s : State) (h : Ok q s) : Ok q (Machine.fxFrameHeaderQueryReturn id buf hdr s) := by
  unfold Machine.fxFrameHeaderQueryReturn
  repeat' first
    | dsimp only
    | with_reducible assumption
    | intro _
    | with_reducible apply Ok.eachN
    | with_reducible apply Ok.endChain
    | with_reducible apply Ok.joinWait
    | with_reducible apply Ok.modBuf
    | with_reducible apply Ok.whenS
    | with_reducible apply Ok.withReq
    | split

theorem sum_filter_zero (l : List Nat) (p : Nat → Bool) (f : Nat → Nat) (h : ∀ b, p b = false → f b = 0) :
    ((l.filter p).map f).sum = (l.map f).sum := by
  induction l with
  | nil => rfl
  | cons a t ih =>
    by_cases hp : p a = true
    · simp [List.filter_cons, hp, ih]
    · simp only [Bool.not_eq_true] at hp
      simp [List.filter_cons, hp, ih, h a hp]
theorem loansOf_cells (r : Req) : ((loansOf r).map Loan.cells).sum = r.cellNeed := by
  unfold loansOf Req.cellNeed
  rw [List.map_append, List.sum_append, List.map_map, List.map_map]
  congr 1
  rw [← sum_filter_zero (List.range r.refs.length) r.newCells r.freeNeed]
  · rfl
  · intro b hb; simp [Req.freeNeed, hb]
theorem sum_filter_le (l : List Loan) (p : Loan → Bool) : ((l.filter p).map Loan.cells).sum ≤ (l.map Loan.cells).sum := by
  induction l with
  | nil => simp
  | cons a t ih =>
    by_cases hp : p a = true
    · simp [List.filter_cons, hp, ih]
    · simp only [Bool.not_eq_true] at hp
      simp [List.filter_cons, hp]
      omega
theorem Ok.lend {q : List Instr} (r : Req) (s : State) (h : Ok q s) (hc : fpOnLoan s + r.cellNeed ≤ 4096) : Ok q (lend r s) := by
  unfold Machine.lend
  dsimp only
  have h1 : Ok q (Machine.modFp (fun f => { f with loans := f.loans ++ loansOf r, waiting := f.waiting.filter (· ≠ r.id) }) s) := by
    refine ⟨⟨h.inv.ten, h.inv.crs, h.inv.boot, h.inv.jrn, ?_, h.inv.pool⟩, h.pend⟩
    have : fpOnLoan (Machine.modFp (fun f => { f with loans := f.loans ++ loansOf r, waiting := f.waiting.filter (· ≠ r.id) }) s)
        = fpOnLoan s + r.cellNeed := by
      rw [← loansOf_cells]
      simp only [fpOnLoan, Machine.modFp, List.map_append, List.sum_append]
    rw [this]; exact hc
  apply Ok.settle
  apply Ok.eachN
  · apply Ok.eachN
    · apply Ok.emit
      apply Ok.modTenLed _ _ h1
      · intro Q hb; exact hb
      · intro hb
        unfold FpCnt.balanced at *
        linear_combination hb
      · exact id
    · intro i s hs; exact Ok.emit _ hs
  · intro i s hs
    split
    · exact Ok.modBuf _ _ _ _ hs
    · exact hs

theorem Ok.fxFrameLoan {q : List Instr} (id : Nat) (s : State) (h : Ok q s) : Ok q (fxFrameLoan id s) := by
  unfold Machine.fxFrameLoan
  apply Ok.withReq1 h
  intro r _
  apply Ok.whenS1 h
  intro hc
  apply Ok.lend _ _ h
  simp only [mayLend, Bool.and_eq_true, decide_eq_true_eq] at hc
  exact hc.1.2.1.2

theorem Ok.fxFrameWaitTimeout {q : List Instr} (id : Nat) (s : State) (h : Ok q s) : Ok q (Machine.fxFrameWaitTimeout id s) := by
  unfold Machine.fxFrameWaitTimeout
  repeat' first
    | with_reducible assumption
    | intro _
    | with_reducible apply Ok.endChain
    | with_reducible apply Ok.whenS
    | with_reducible apply Ok.withReq

theorem Ok.fpUe {q : List Instr} (n : Nat) (s : State) (h : Ok q s) : Ok q (Machine.fpUe n s) := by
  unfold Machine.fpUe
  repeat' first
    | dsimp only
    | with_reducible assumption
    | intro _
    | with_reducible apply Ok.journalUe
    | with_reducible refine Ok.modTen _ _ ?_ ?_ ?_ ?_
    | with_reducible apply Ok.raiseG
    | with_reducible apply Ok.raiseT
    | with_reducible refine Ok.ite ?_ ?_
    | split

theorem Ok.fxFrameReturn {q : List Instr} (id : Nat) (buf : Fin 8) (ecc : Ecc) (s : State) (h : Ok q s) : Ok q (fxFrameReturn id buf ecc s) := by
  unfold Machine.fxFrameReturn
  apply Ok.withReq h
  intro r s h
  apply Ok.whenS h
  intro _ s h
  dsimp only
  apply Ok.emit
  refine Ok.modTenLed _ _ (Ok.modFpLe _ ?_ (sum_filter_le _ _)) ?_ ?_ ?_
  · split
    · exact h
    · exact Ok.countCe _ _ h
    · exact Ok.fpUe _ _ h
  · intro Q hb; exact hb
  · intro hb
    unfold FpCnt.balanced at *
    linear_combination hb
  · exact fun hi => hi

theorem Ok.fpSnap {q : List Instr} (n : Nat) (s : State) (h : Ok q s) : Ok q (Machine.fpSnap n s) := by
  unfold Machine.fpSnap
  repeat' first
    | dsimp only
    | with_reducible assumption
    | intro _
    | with_reducible refine Ok.modTen _ _ ?_ ?_ ?_ ?_

theorem Ok.fxFpSnap {q : List Instr} (who : Who) (n : TenantIx) (s : State) (h : Ok q s) : Ok q (Machine.fxFpSnap who n s) := by
  unfold Machine.fxFpSnap
  repeat' first
    | with_reducible assumption
    | intro _
    | with_reducible apply Ok.fpSnap
    | with_reducible apply Ok.gateW

end Sys2Proof.Machine
end

