-- ==== Sys2Proof/Laws/KeepFaults.lean ====
section
/-!
SUPPORT. The operations of Machine/Faults.lean keep the invariant and leave the queue alone.
-/

set_option Elab.async false

namespace Sys2Proof.Machine

theorem Ok.discardQueued {q : List Instr} (n : TenantIx) (s : State) (h : Ok q s) :
    Ok q (Machine.discardQueued n s) ∧ ((Machine.discardQueued n s).ten n).fp.balanced ∧ ∀ m, m < 16 → ((Machine.discardQueued n s).sq n m).queued = 0 := by
  have step : ∀ m, m < 16 → ∀ s, Ok q s → Ok q (Machine.modTen n.val (fun t => { t with led := { t.led with clamped := t.led.clamped + (s.sq n m).queued } })
      (Machine.modSq n.val m (fun q => { q.release with queued := 0, posts := [], pulses := [], credit := 0 }) s)) := by
    intro m hm s h
    apply Ok.ledSq _ _ hm _ _ h
    · rintro Q ⟨ha, hb⟩
      refine ⟨?_, hb⟩
      linear_combination ha
    · rfl
    · intro hi; exact ⟨hi, fun _ => rfl⟩
  have main : ∀ (l : List Nat), (∀ m ∈ l, m < 16) → ∀ s, Ok q s →
      Ok q (Machine.eachN l (fun m s => Machine.modTen n.val (fun t => { t with led := { t.led with clamped := t.led.clamped + (s.sq n m).queued } })
        (Machine.modSq n.val m (fun q => { q.release with queued := 0, posts := [], pulses := [], credit := 0 }) s)) s) ∧
      (∀ m, m < 16 → (m ∈ l ∨ (s.sq n m).queued = 0) → ((Machine.eachN l (fun m s => Machine.modTen n.val (fun t => { t with led := { t.led with clamped := t.led.clamped + (s.sq n m).queued } })
        (Machine.modSq n.val m (fun q => { q.release with queued := 0, posts := [], pulses := [], credit := 0 }) s)) s).sq n m).queued = 0) := by
    intro l
    induction l with
    | nil => intro _ s h; refine ⟨h, ?_⟩; intro m hm hq; exact hq.resolve_left (by simp)
    | cons a t ih =>
      intro hl s h
      have h1 := step a (hl a (by simp)) s h
      obtain ⟨h2, h3⟩ := ih (fun m hm => hl m (by simp [hm])) _ h1
      refine ⟨h2, ?_⟩
      intro m hm hq
      apply h3 m hm
      by_cases hma : m = a
      · subst hma
        right
        rw [sq_modTen, sq_modSq, if_pos rfl]
      · have : m ∈ t ∨ (s.sq n m).queued = 0 := by
          rcases hq with hq | hq
          · left; simpa [hma] using hq
          · right; exact hq
        rcases this with h4 | h4
        · exact Or.inl h4
        · right
          rw [sq_modTen, sq_modSq, if_neg (by rw [rix_inj hm (hl a (by simp))]; omega)]
          exact h4
  obtain ⟨h1, h2⟩ := main (List.range 16) (by simp) s h
  exact ⟨h1, (h1.inv.ten n n.isLt).2.1, fun m hm => h2 m hm (Or.inl (by simpa using hm))⟩

theorem Ok.startReset {q : List Instr} {s : State} (n : TenantIx) (h : Ok q s) (hq : ∀ m, m < 16 → (s.sq n m).queued = 0) :
    Ok q (Machine.modTen n.val (fun t => { t with inReset := true }) s) := by
  refine ⟨⟨?_, h.inv.crs, h.inv.boot, h.inv.jrn, h.inv.loans, h.inv.pool⟩, h.pend⟩
  intro k hk
  have h0 := h.inv.ten k hk
  have e3 : queuedOf (Machine.modTen n.val (fun t => { t with inReset := true }) s) k = queuedOf s k := rfl
  by_cases hkn : k = n.val
  · subst hkn
    refine ⟨?_, ?_, ?_⟩
    · rw [e3, ten_modTen, if_pos rfl]; exact h0.1
    · rw [ten_modTen, if_pos rfl]; exact h0.2.1
    · intro _ m hm; exact hq m hm
  · refine ⟨?_, ?_, ?_⟩
    · rw [e3, ten_modTen, if_neg hkn]; exact h0.1
    · rw [ten_modTen, if_neg hkn]; exact h0.2.1
    · rw [ten_modTen, if_neg hkn]; exact h0.2.2

theorem Ok.stopTenant {q : List Instr} (n : TenantIx) (detail : Nat) (s : State) (h : Ok q s) : Ok q (Machine.stopTenant n detail s) := by
  unfold Machine.stopTenant
  repeat' first
    | dsimp only
    | with_reducible assumption
    | intro _
    | with_reducible apply Ok.dcReset
    | with_reducible apply Ok.eachN
    | with_reducible apply Ok.foldl
    | with_reducible apply Ok.setStream
    | with_reducible apply Ok.stopReq
    | with_reducible refine Ok.ite ?_ ?_
    | split

theorem Ok.resetTenant {q : List Instr} (detail : Nat) (n : TenantIx) (s : State) (h : Ok q s) : Ok q (resetTenant detail n s) := by
  unfold Machine.resetTenant
  split
  · exact h
  · obtain ⟨h1, _, h3⟩ := Ok.discardQueued n s h
    exact Ok.stopTenant _ _ _ (Ok.startReset n h1 h3)

theorem Ok.ownTrst {q : List Instr} (mask : Nat) (s : State) (h : Ok q s) : Ok q (Machine.ownTrst mask s) := by
  unfold Machine.ownTrst
  repeat' first
    | with_reducible assumption
    | intro _
    | with_reducible apply Ok.eachN
    | with_reducible apply Ok.resetTenant

theorem Ok.fxOwnTrst {q : List Instr} (who : Who) (mask : BitVec 16) (s : State) (h : Ok q s) : Ok q (Machine.fxOwnTrst who mask s) := by
  unfold Machine.fxOwnTrst
  repeat' first
    | with_reducible assumption
    | intro _
    | with_reducible apply Ok.gateW
    | with_reducible apply Ok.ownTrst

theorem Ok.fxTenantCtlReset {q : List Instr} (who : Who) (n : TenantIx) (s : State) (h : Ok q s) : Ok q (Machine.fxTenantCtlReset who n s) := by
  unfold Machine.fxTenantCtlReset
  repeat' first
    | with_reducible assumption
    | intro _
    | with_reducible apply Ok.gateW
    | with_reducible apply Ok.resetTenant

theorem Ok.zeroizeKeys {q : List Instr} (n : TenantIx) (s : State) (h : Ok q s) : Ok q (Machine.zeroizeKeys n s) := by
  unfold Machine.zeroizeKeys
  repeat' first
    | dsimp only
    | with_reducible assumption
    | with_reducible apply Ok.modKs

theorem Ok.modSqTo {q : List Instr} {s : State} (n m : Nat) (hm : m < 16) (f : Sq → Sq) (h : Ok q s) (hq : (f (s.sq n m)).queued = (s.sq n m).queued) :
    Ok q (Machine.modSq n m f s) := by
  refine ⟨⟨?_, h.inv.crs, h.inv.boot, h.inv.jrn, h.inv.loans, h.inv.pool⟩, h.pend⟩
  intro k hk
  have e : (Machine.modSq n m f s).ten k = s.ten k := rfl
  apply (h.inv.ten k hk).congr (by rw [e]) (by rw [e]) (by rw [e]; exact id)
  intro m' _
  rw [sq_modSq]; split
  · next e => rw [hq]; unfold State.sq; rw [e]
  · rfl
theorem fresh_queued (q : Sq) : q.fresh.queued = 0 := rfl

/-- The rings of a tenant in reset go to their reset values (R434). -/
def clearRings (n : TenantIx) (l : List Nat) (s : State) : State :=
  Machine.eachN l (fun m s => Machine.modCq n.val m (fun _ => {}) (Machine.modSq n.val m Sq.fresh s)) s

theorem Ok.clearRings {q : List Instr} (n : TenantIx) (l : List Nat) (hl : ∀ m ∈ l, m < 16) (s : State) (h : Ok q s)
    (hq : ∀ m, m < 16 → (s.sq n m).queued = 0) :
    Ok q (Machine.clearRings n l s) ∧ ∀ m, m < 16 → ((Machine.clearRings n l s).sq n m).queued = 0 := by
  induction l generalizing s with
  | nil => exact ⟨h, hq⟩
  | cons a t ih =>
    have ha := hl a (by simp)
    refine ih (fun m hm => hl m (by simp [hm])) (Machine.modCq n.val a (fun _ => {}) (Machine.modSq n.val a Sq.fresh s)) ?_ ?_
    · exact Ok.modCq _ _ _ (Ok.modSqTo n.val a ha Sq.fresh h (by rw [fresh_queued]; exact (hq a ha).symm))
    · intro m hm
      rw [sq_modCq, sq_modSq]
      split
      · rw [fresh_queued]
      · exact hq m hm

theorem clearTenant_eq (n : TenantIx) (s : State) : Machine.clearTenant n s =
    Machine.modTen n.val (fun t => { t with
      inReset := false, rstWait := false, led := if t.ledInvalid then {} else t.led, ledInvalid := false
      fp := if t.fpInvalid then {} else t.fp, fpInvalid := false, evCause := 0, evPend := 0, evEn := 0 })
    (Machine.modSent (·.filter (fun r => r.tenant ≠ n)) (clearRings n (List.range 16) s)) := rfl

/-- The rest of the clearing, once the rings are clear. -/
theorem Ok.clearRest {q : List Instr} (n : TenantIx) (s1 : State) (h1 : Ok q s1) (h2 : ∀ m, m < 16 → (s1.sq n m).queued = 0) :
    Ok q (Machine.modTen n.val (fun t => { t with
      inReset := false, rstWait := false, led := if t.ledInvalid then {} else t.led, ledInvalid := false
      fp := if t.fpInvalid then {} else t.fp, fpInvalid := false, evCause := 0, evPend := 0, evEn := 0 })
    (Machine.modSent (·.filter (fun r => r.tenant ≠ n)) s1)) := by
  have h3 : Ok q (Machine.modSent (·.filter (fun r => r.tenant ≠ n)) s1) := Ok.modSent _ h1
  have hQ : queuedOf (Machine.modSent (·.filter (fun r => r.tenant ≠ n)) s1) n = 0 := by
    rw [queuedOf_eq_sum]
    have : (List.range 16).map (fun m => ((Machine.modSent (·.filter (fun r => r.tenant ≠ n)) s1).sq n m).queued) = (List.range 16).map (fun _ => (0 : Word)) :=
      List.map_congr_left (fun m hm => h2 m (by simpa using hm))
    rw [this]; rfl
  refine ⟨⟨?_, h3.inv.crs, h3.inv.boot, h3.inv.jrn, h3.inv.loans, h3.inv.pool⟩, h3.pend⟩
  generalize Machine.modSent (·.filter (fun r => r.tenant ≠ n)) s1 = s2 at h3 hQ
  intro k hk
  have hk0 := h3.inv.ten k hk
  have e3 : ∀ f, queuedOf (Machine.modTen n.val f s2) k = queuedOf s2 k := fun _ => rfl
  by_cases hkn : k = n.val
  · subst hkn
    refine ⟨?_, ?_, ?_⟩
    · rw [e3, ten_modTen, if_pos rfl, hQ]
      have hb := hk0.1
      rw [hQ] at hb
      dsimp only
      split
      · constructor <;> rfl
      · exact hb
    · rw [ten_modTen, if_pos rfl]
      dsimp only
      split
      · rfl
      · exact hk0.2.1
    · rw [ten_modTen, if_pos rfl]; intro hi; exact absurd hi (by simp)
  · refine ⟨?_, ?_, ?_⟩
    · rw [e3, ten_modTen, if_neg hkn]; exact hk0.1
    · rw [ten_modTen, if_neg hkn]; exact hk0.2.1
    · rw [ten_modTen, if_neg hkn]; exact hk0.2.2

theorem Ok.clearTenant {q : List Instr} (n : TenantIx) (s : State) (h : Ok q s) (hr : (s.ten n).inReset = true) : Ok q (Machine.clearTenant n s) := by
  rw [clearTenant_eq]
  obtain ⟨h1, h2⟩ := Ok.clearRings n (List.range 16) (by simp) s h ((h.inv.ten n n.isLt).2.2 hr)
  exact Ok.clearRest n _ h1 h2

theorem Ok.fxTenantResetDone {q : List Instr} (n : TenantIx) (s : State) (h : Ok q s) : Ok q (fxTenantResetDone n s) := by
  unfold Machine.fxTenantResetDone
  apply Ok.whenS1 h
  intro hc
  apply Ok.raiseG
  apply Ok.clearTenant _ _ (Ok.zeroizeKeys _ _ h)
  simp only [Bool.and_eq_true] at hc
  exact hc.1

theorem Ok.fxTenantResetWait {q : List Instr} (n : TenantIx) (s : State) (h : Ok q s) : Ok q (Machine.fxTenantResetWait n s) := by
  unfold Machine.fxTenantResetWait
  repeat' first
    | dsimp only
    | with_reducible assumption
    | intro _
    | with_reducible refine Ok.modTen _ _ ?_ ?_ ?_ ?_
    | with_reducible apply Ok.raiseG
    | with_reducible apply Ok.whenS

theorem Ok.bufBusError {q : List Instr} (r : Req) (b : Nat) (d : Dir) (s : State) (h : Ok q s) : Ok q (Machine.bufBusError r b d s) := by
  unfold Machine.bufBusError
  repeat' first
    | dsimp only
    | with_reducible assumption
    | intro _
    | with_reducible apply Ok.endChain
    | with_reducible apply Ok.modBuf
    | with_reducible apply Ok.modReq
    | with_reducible apply Ok.settle
    | with_reducible apply Ok.whenS
    | with_reducible refine Ok.ite ?_ ?_
    | split

theorem Ok.flightBusError {q : List Instr} (r : Req) (addr : Nat) (d : Dir) (frame : Option (Fin 8)) (s : State) (h : Ok q s) : Ok q (Machine.flightBusError r addr d frame s) := by
  unfold Machine.flightBusError
  repeat' first
    | dsimp only
    | with_reducible assumption
    | intro _
    | with_reducible apply Ok.bufBusError
    | with_reducible apply Ok.busErrorOf
    | with_reducible apply Ok.whenS
    | with_reducible refine Ok.ite ?_ ?_
    | split

theorem Ok.leftBusError {q : List Instr} (id addr : Nat) (d : Dir) (frame : Option (Fin 8)) (s : State) (h : Ok q s) : Ok q (Machine.leftBusError id addr d frame s) := by
  unfold Machine.leftBusError
  repeat' first
    | dsimp only
    | with_reducible assumption
    | intro _
    | with_reducible apply Ok.busErrorOf
    | with_reducible refine Ok.ite ?_ ?_
    | split

theorem Ok.reqBusError {q : List Instr} (id addr : Nat) (d : Dir) (frame : Option (Fin 8)) (s : State) (h : Ok q s) : Ok q (Machine.reqBusError id addr d frame s) := by
  unfold Machine.reqBusError
  repeat' first
    | dsimp only
    | with_reducible assumption
    | intro _
    | with_reducible apply Ok.flightBusError
    | with_reducible apply Ok.leftBusError
    | with_reducible refine Ok.ite ?_ ?_
    | split

theorem Ok.takeBack {q : List Instr} (n m : Nat) (r : Req) (s : State) (h : Ok q s) : Ok q (Machine.takeBack n m r s) := by
  unfold Machine.takeBack
  dsimp only
  refine Ok.modTenLed _ _ (Ok.modCq _ _ _ (Ok.modReqs _ (Ok.modSent _ h))) ?_ id id
  rintro Q ⟨ha, hb⟩
  split
  · exact ⟨ha, by linear_combination hb⟩
  · exact ⟨ha, by linear_combination hb⟩

theorem Ok.foldr {q : List Instr} {s : State} {α : Type} {f : α → State → State} (l : List α) (h : Ok q s) (hf : ∀ a s, Ok q s → Ok q (f a s)) :
    Ok q (l.foldr f s) := by
  induction l with
  | nil => exact h
  | cons a t ih => exact hf a _ ih

theorem Ok.recordBusError {q : List Instr} (n : TenantIx) (m : RingIx) (id addr : Nat) (s : State) (h : Ok q s) : Ok q (Machine.recordBusError n m id addr s) := by
  unfold Machine.recordBusError
  repeat' first
    | dsimp only
    | with_reducible assumption
    | intro _
    | with_reducible apply Ok.busErrorOf
    | with_reducible apply Ok.cqFault
    | with_reducible apply Ok.foldl
    | with_reducible apply Ok.foldr
    | with_reducible apply Ok.rescue
    | with_reducible apply Ok.takeBack
    | with_reducible refine Ok.ite ?_ ?_
    | split

theorem Ok.rescueBusError {q : List Instr} (n : TenantIx) (m : RingIx) (addr : Nat) (s : State) (h : Ok q s) : Ok q (Machine.rescueBusError n m addr s) := by
  unfold Machine.rescueBusError
  repeat' first
    | dsimp only
    | with_reducible assumption
    | intro _
    | with_reducible apply Ok.busErrorOf
    | with_reducible apply Ok.modReq
    | with_reducible apply Ok.rescueFaultRecord
    | with_reducible refine Ok.ite ?_ ?_
    | split

theorem Ok.ringBusError {q : List Instr} (n : TenantIx) (m : RingIx) (addr : Nat) (s : State) (h : Ok q s) : Ok q (Machine.ringBusError n m addr s) := by
  unfold Machine.ringBusError
  repeat' first
    | dsimp only
    | with_reducible assumption
    | intro _
    | with_reducible apply Ok.busErrorOf
    | with_reducible refine Ok.modSq _ _ _ ?_ ?_
    | with_reducible apply Ok.sqFault
    | with_reducible refine Ok.ite ?_ ?_
    | split

theorem Ok.chanBusError {q : List Instr} (k : ChanIx) (addr : Nat) (d : Dir) (pref merged : Bool) (s : State) (h : Ok q s) : Ok q (Machine.chanBusError k addr d pref merged s) := by
  unfold Machine.chanBusError
  repeat' first
    | dsimp only
    | with_reducible assumption
    | intro _
    | with_reducible apply Ok.busErrorOf
    | with_reducible apply Ok.dcBusError
    | with_reducible apply Ok.dcMergedFault
    | with_reducible refine Ok.ite ?_ ?_
    | split

theorem Ok.imageBusError {q : List Instr} (addr : Nat) (d : Dir) (s : State) (h : Ok q s) : Ok q (Machine.imageBusError addr d s) := by
  unfold Machine.imageBusError
  repeat' first
    | dsimp only
    | with_reducible assumption
    | intro _
    | with_reducible apply Ok.busErrorOf
    | with_reducible apply Ok.modGen
    | with_reducible refine Ok.ite ?_ ?_
    | split

theorem Ok.fxBusErrorResponse {q : List Instr} (src : Src) (addr : BitVec 48) (dir : Dir) (s : State) (h : Ok q s) : Ok q (Machine.fxBusErrorResponse src addr dir s) := by
  unfold Machine.fxBusErrorResponse
  repeat' first
    | dsimp only
    | with_reducible assumption
    | intro _
    | with_reducible apply Ok.busErrorOf
    | with_reducible apply Ok.chanBusError
    | with_reducible apply Ok.imageBusError
    | with_reducible apply Ok.noticeFault
    | with_reducible apply Ok.recordBusError
    | with_reducible apply Ok.reqBusError
    | with_reducible apply Ok.rescueBusError
    | with_reducible apply Ok.ringBusError
    | with_reducible refine Ok.ite ?_ ?_
    | split

end Sys2Proof.Machine
end

