-- ==== Sys2Proof/Laws/KeepCourse.lean ====
section
/-!
SUPPORT. The operations of Machine/Course.lean keep the invariant and leave the queue alone.
-/

set_option Elab.async false

namespace Sys2Proof.Machine

theorem Ok.crsState {q : List Instr} (before after cause : Nat) (s : State) (h : Ok q s) : Ok q (Machine.crsState before after cause s) := by
  unfold Machine.crsState
  repeat' first
    | with_reducible assumption
    | intro _
    | with_reducible apply Ok.crsRecord
    | with_reducible apply Ok.raiseG
    | (simp_all; done)

theorem Ok.idlePair {q : List Instr} (p : Nat) (s : State) (h : Ok q s) : Ok q (Machine.idlePair p s) := by
  unfold Machine.idlePair
  repeat' first
    | dsimp only
    | with_reducible assumption
    | intro _
    | with_reducible apply Ok.dropWork
    | with_reducible apply Ok.modPeer
    | with_reducible refine Ok.ite ?_ ?_
    | split

theorem Ok.stopPairing {q : List Instr} (p cause : Nat) (s : State) (h : Ok q s) : Ok q (Machine.stopPairing p cause s) := by
  unfold Machine.stopPairing
  repeat' first
    | dsimp only
    | with_reducible assumption
    | intro _
    | with_reducible apply Ok.idlePair
    | with_reducible refine Ok.modCrs _ ?_ ?_
    | with_reducible refine Ok.ite ?_ ?_
    | split

theorem Ok.formationStops {q : List Instr} (p : Nat) (s : State) (h : Ok q s) : Ok q (Machine.formationStops p s) := by
  unfold Machine.formationStops
  repeat' first
    | dsimp only
    | with_reducible assumption
    | with_reducible apply Ok.crsState
    | with_reducible apply Ok.stopPairing

theorem Ok.sayHello {q : List Instr} (p : Nat) (s : State) (h : Ok q s) : Ok q (Machine.sayHello p s) := by
  unfold Machine.sayHello
  repeat' first
    | dsimp only
    | with_reducible assumption
    | intro _
    | with_reducible refine Ok.generate_eq (by assumption) ?_
    | with_reducible apply Ok.generate
    | with_reducible apply Ok.modPeer
    | with_reducible apply Ok.sendFrame
    | with_reducible refine Ok.ite ?_ ?_
    | split

theorem Ok.startForming {q : List Instr} (s : State) (h : Ok q s) : Ok q (Machine.startForming s) := by
  unfold Machine.startForming
  repeat' first
    | dsimp only
    | with_reducible assumption
    | intro _
    | with_reducible apply Ok.eachN
    | with_reducible refine Ok.modCrs _ ?_ ?_
    | with_reducible apply Ok.sayHello
    | with_reducible refine Ok.ite ?_ ?_

theorem Ok.courseStatement {q : List Instr} (p : Nat) (out : Bytes) (s : State) (h : Ok q s) : Ok q (Machine.courseStatement p out s).2 := by
  unfold Machine.courseStatement
  repeat' first
    | dsimp only
    | with_reducible assumption
    | intro _
    | with_reducible refine Ok.generate_eq (by assumption) ?_
    | with_reducible apply Ok.generate
    | with_reducible refine Ok.ite ?_ ?_
    | split

theorem Ok.courseStatement_eq {q : List Instr} {p : Nat} {out : Bytes} {s : State} {y : Option Bytes} {t : State} (e : Machine.courseStatement p out s = (y, t)) (h : Ok q s) : Ok q t := by
  have := Ok.courseStatement p out s h
  rwa [e] at this

theorem Ok.issueStep {q : List Instr} (attests : Bool) (p : Nat) (s : State) (h : Ok q s) : Ok q (Machine.issueStep attests p s) := by
  unfold Machine.issueStep
  repeat' first
    | dsimp only
    | with_reducible assumption
    | intro _
    | with_reducible apply Ok.formationStops
    | with_reducible apply Ok.issueJob
    | with_reducible refine Ok.ite ?_ ?_
    | split

theorem Ok.masterAgree {q : List Instr} (p : Nat) (s : State) (h : Ok q s) : Ok q (Machine.masterAgree p s) := by
  unfold Machine.masterAgree
  repeat' first
    | dsimp only
    | with_reducible assumption
    | intro _
    | with_reducible refine Ok.courseStatement_eq (by assumption) ?_
    | with_reducible apply Ok.courseStatement
    | with_reducible apply Ok.formationStops
    | with_reducible refine Ok.generate_eq (by assumption) ?_
    | with_reducible apply Ok.generate
    | with_reducible apply Ok.modPeer
    | with_reducible apply Ok.sendLong
    | with_reducible refine Ok.ite ?_ ?_
    | split

theorem Ok.demote {q : List Instr} (p cause : Nat) (s : State) (h : Ok q s) : Ok q (Machine.demote p cause s) := by
  unfold Machine.demote
  repeat' first
    | dsimp only
    | with_reducible assumption
    | intro _
    | with_reducible apply Ok.crsState
    | with_reducible apply Ok.idlePair
    | with_reducible refine Ok.modCrs _ ?_ ?_
    | with_reducible apply Ok.sayHello
    | with_reducible refine Ok.ite ?_ ?_
    | split

theorem Ok.secondMaster {q : List Instr} (p cause : Nat) (s : State) (h : Ok q s) : Ok q (Machine.secondMaster p cause s) := by
  unfold Machine.secondMaster
  repeat' first
    | dsimp only
    | with_reducible assumption
    | intro _
    | with_reducible apply Ok.demote
    | with_reducible refine Ok.modCrs _ ?_ ?_
    | with_reducible refine Ok.ite ?_ ?_
    | split

theorem Ok.hearMaster {q : List Instr} (p : Nat) (s : State) (h : Ok q s) : Ok q (Machine.hearMaster p s) := by
  unfold Machine.hearMaster
  repeat' first
    | dsimp only
    | with_reducible assumption
    | intro _
    | with_reducible apply Ok.secondMaster
    | with_reducible refine Ok.ite ?_ ?_
    | split

theorem Ok.hearBeat {q : List Instr} (p : Nat) (s : State) (h : Ok q s) : Ok q (Machine.hearBeat p s) := by
  unfold Machine.hearBeat
  repeat' first
    | dsimp only
    | with_reducible assumption
    | intro _
    | with_reducible apply Ok.hearMaster
    | with_reducible refine Ok.ite ?_ ?_
    | split

theorem Ok.hearHello {q : List Instr} (p : Nat) (b : Bytes) (s : State) (h : Ok q s) : Ok q (Machine.hearHello p b s) := by
  unfold Machine.hearHello
  repeat' first
    | dsimp only
    | with_reducible assumption
    | intro _
    | with_reducible apply Ok.idlePair
    | with_reducible apply Ok.issueStep
    | with_reducible refine Ok.modCrs _ ?_ ?_
    | with_reducible apply Ok.modPeer
    | with_reducible apply Ok.sayHello
    | with_reducible apply Ok.secondMaster
    | with_reducible refine Ok.ite ?_ ?_
    | split

theorem Ok.fxCourseHello {q : List Instr} (peer : Fin 4) (hello : Hello) (s : State) (h : Ok q s) : Ok q (Machine.fxCourseHello peer hello s) := by
  unfold Machine.fxCourseHello
  repeat' first
    | with_reducible assumption
    | intro _
    | with_reducible apply Ok.hearHello
    | with_reducible apply Ok.whenS

theorem Ok.followAgree {q : List Instr} (p : Nat) (s : State) (h : Ok q s) : Ok q (Machine.followAgree p s) := by
  unfold Machine.followAgree
  repeat' first
    | dsimp only
    | with_reducible assumption
    | intro _
    | with_reducible refine Ok.modCrs _ ?_ ?_
    | with_reducible refine Ok.ite ?_ ?_

theorem Ok.hearAgree {q : List Instr} (p : Nat) (output stmt : Bytes) (s : State) (h : Ok q s) : Ok q (Machine.hearAgree p output stmt s) := by
  unfold Machine.hearAgree
  repeat' first
    | dsimp only
    | with_reducible assumption
    | intro _
    | with_reducible apply Ok.emitWr
    | with_reducible apply Ok.followAgree
    | with_reducible apply Ok.modPeer
    | with_reducible apply Ok.raiseG
    | with_reducible apply Ok.violP
    | with_reducible refine Ok.ite ?_ ?_
    | split

theorem Ok.fxCourseAgreeReceived {q : List Instr} (peer : Fin 4) (output stmt : Bytes) (s : State) (h : Ok q s) : Ok q (Machine.fxCourseAgreeReceived peer output stmt s) := by
  unfold Machine.fxCourseAgreeReceived
  repeat' first
    | with_reducible assumption
    | intro _
    | with_reducible apply Ok.hearAgree
    | with_reducible apply Ok.whenS

theorem Ok.joined {q : List Instr} (p : Nat) (gkey : Bytes) (epoch : Nat) (s : State) (h : Ok q s) : Ok q (Machine.joined p gkey epoch s) := by
  unfold Machine.joined
  repeat' first
    | with_reducible assumption
    | with_reducible apply Ok.modPeer

theorem Ok.sendGroup {q : List Instr} (p : Nat) (s : State) (h : Ok q s) : Ok q (Machine.sendGroup p s) := by
  unfold Machine.sendGroup
  repeat' first
    | dsimp only
    | with_reducible assumption
    | intro _
    | with_reducible refine Ok.generate_eq (by assumption) ?_
    | with_reducible apply Ok.generate
    | with_reducible apply Ok.joined
    | with_reducible apply Ok.modPeer
    | with_reducible apply Ok.raiseG
    | with_reducible apply Ok.sendFrame
    | with_reducible refine Ok.ite ?_ ?_
    | split

theorem Ok.masterFinish {q : List Instr} (p : Nat) (s : State) (h : Ok q s) : Ok q (Machine.masterFinish p s) := by
  unfold Machine.masterFinish
  repeat' first
    | dsimp only
    | with_reducible assumption
    | intro _
    | with_reducible refine Ok.generate_eq (by assumption) ?_
    | with_reducible apply Ok.generate
    | with_reducible refine Ok.modCrs _ ?_ ?_
    | with_reducible apply Ok.modPeer
    | with_reducible apply Ok.sendGroup
    | with_reducible refine Ok.ite ?_ ?_
    | split

theorem Ok.memberRespond {q : List Instr} (p : Nat) (s : State) (h : Ok q s) : Ok q (Machine.memberRespond p s) := by
  unfold Machine.memberRespond
  repeat' first
    | dsimp only
    | with_reducible assumption
    | intro _
    | with_reducible refine Ok.courseStatement_eq (by assumption) ?_
    | with_reducible apply Ok.courseStatement
    | with_reducible apply Ok.formationStops
    | with_reducible refine Ok.generate_eq (by assumption) ?_
    | with_reducible apply Ok.generate
    | with_reducible apply Ok.modPeer
    | with_reducible apply Ok.sendLong
    | with_reducible refine Ok.ite ?_ ?_
    | split

theorem Ok.peerRecord {q : List Instr} (p outcome : Nat) (s : State) (h : Ok q s) : Ok q (Machine.peerRecord p outcome s) := by
  unfold Machine.peerRecord
  repeat' first
    | with_reducible assumption
    | intro _
    | with_reducible apply Ok.crsRecord
    | (simp_all; done)

theorem Ok.courseAccept {q : List Instr} (s : State) (h : Ok q s) : Ok q (Machine.courseAccept s) := by
  unfold Machine.courseAccept
  repeat' first
    | dsimp only
    | with_reducible assumption
    | intro _
    | with_reducible apply Ok.issueStep
    | with_reducible apply Ok.modPeer
    | with_reducible apply Ok.peerRecord
    | with_reducible refine Ok.ite ?_ ?_
    | split

theorem Ok.stepEnds {q : List Instr} (p : Nat) (s : State) (h : Ok q s) : Ok q (Machine.stepEnds p s) := by
  unfold Machine.stepEnds
  repeat' first
    | dsimp only
    | with_reducible assumption
    | intro _
    | with_reducible apply Ok.masterAgree
    | with_reducible apply Ok.masterFinish
    | with_reducible apply Ok.memberRespond
    | with_reducible refine Ok.ite ?_ ?_
    | split

theorem Ok.fxCourseAccept {q : List Instr} (who : Who) (s : State) (h : Ok q s) : Ok q (Machine.fxCourseAccept who s) := by
  unfold Machine.fxCourseAccept
  repeat' first
    | with_reducible assumption
    | intro _
    | with_reducible apply Ok.courseAccept
    | with_reducible apply Ok.gateW

theorem Ok.abandon {q : List Instr} (cause : Nat) (s : State) (h : Ok q s) : Ok q (Machine.abandon cause s) := by
  unfold Machine.abandon
  repeat' first
    | with_reducible assumption
    | with_reducible apply Ok.peerRecord
    | with_reducible apply Ok.raiseG
    | with_reducible apply Ok.stopPairing
    | split

theorem Ok.fxCourseReject {q : List Instr} (who : Who) (s : State) (h : Ok q s) : Ok q (Machine.fxCourseReject who s) := by
  unfold Machine.fxCourseReject
  repeat' first
    | with_reducible assumption
    | intro _
    | with_reducible apply Ok.abandon
    | with_reducible apply Ok.gateW

theorem Ok.fxCoursePairingTimeout {q : List Instr} (s : State) (h : Ok q s) : Ok q (Machine.fxCoursePairingTimeout s) := by
  unfold Machine.fxCoursePairingTimeout
  repeat' first
    | with_reducible assumption
    | with_reducible apply Ok.abandon

theorem Ok.reAsk {q : List Instr} (s : State) (h : Ok q s) : Ok q (Machine.reAsk s) := by
  unfold Machine.reAsk
  repeat' first
    | dsimp only
    | with_reducible assumption
    | intro _
    | with_reducible apply Ok.askBlock
    | with_reducible refine Ok.modCrs _ ?_ ?_
    | with_reducible apply Ok.foldl

theorem Ok.hearGroup {q : List Instr} (p : Nat) (b : Bytes) (s : State) (h : Ok q s) : Ok q (Machine.hearGroup p b s) := by
  unfold Machine.hearGroup
  repeat' first
    | dsimp only
    | with_reducible assumption
    | intro _
    | with_reducible apply Ok.eachN
    | with_reducible apply Ok.joined
    | with_reducible apply Ok.modPeer
    | with_reducible apply Ok.raiseG
    | with_reducible apply Ok.reAsk
    | with_reducible refine Ok.ite ?_ ?_

theorem Ok.fxCourseGroup {q : List Instr} (peer : Fin 4) (payload : Bytes) (s : State) (h : Ok q s) : Ok q (Machine.fxCourseGroup peer payload s) := by
  unfold Machine.fxCourseGroup
  repeat' first
    | dsimp only
    | with_reducible assumption
    | intro _
    | with_reducible apply Ok.hearGroup

theorem Ok.becomeMaster {q : List Instr} (s : State) (h : Ok q s) : Ok q (Machine.becomeMaster s) := by
  unfold Machine.becomeMaster
  repeat' first
    | dsimp only
    | with_reducible assumption
    | intro _
    | with_reducible refine Ok.modCrs _ ?_ ?_

theorem Ok.fxCourseMasterTimeout {q : List Instr} (s : State) (h : Ok q s) : Ok q (Machine.fxCourseMasterTimeout s) := by
  unfold Machine.fxCourseMasterTimeout
  repeat' first
    | dsimp only
    | with_reducible assumption
    | intro _
    | with_reducible apply Ok.becomeMaster
    | with_reducible apply Ok.eachN
    | with_reducible apply Ok.issueStep
    | with_reducible apply Ok.whenS
    | with_reducible refine Ok.ite ?_ ?_
    | split

theorem Ok.fxCourseLaneDown {q : List Instr} (lane : Fin 2) (s : State) (h : Ok q s) : Ok q (Machine.fxCourseLaneDown lane s) := by
  unfold Machine.fxCourseLaneDown
  repeat' first
    | dsimp only
    | with_reducible assumption
    | intro _
    | with_reducible refine Ok.modCrs _ ?_ ?_
    | with_reducible apply Ok.raiseG
    | with_reducible apply Ok.whenS

theorem Ok.fxCourseLaneUp {q : List Instr} (lane : Fin 2) (s : State) (h : Ok q s) : Ok q (Machine.fxCourseLaneUp lane s) := by
  unfold Machine.fxCourseLaneUp
  repeat' first
    | dsimp only
    | with_reducible assumption
    | intro _
    | with_reducible refine Ok.modCrs _ ?_ ?_
    | with_reducible apply Ok.startForming
    | with_reducible apply Ok.whenS
    | with_reducible refine Ok.ite ?_ ?_

theorem Ok.fxBeat {q : List Instr} (s : State) (h : Ok q s) : Ok q (Machine.fxBeat s) := by
  unfold Machine.fxBeat
  repeat' first
    | with_reducible assumption
    | intro _
    | with_reducible apply Ok.sendAll
    | with_reducible apply Ok.sendFrame
    | with_reducible apply Ok.whenS
    | with_reducible refine Ok.ite ?_ ?_

theorem Ok.hearBlockReq {q : List Instr} (p : Nat) (b : Bytes) (s : State) (h : Ok q s) : Ok q (Machine.hearBlockReq p b s) := by
  unfold Machine.hearBlockReq
  repeat' first
    | with_reducible assumption
    | intro _
    | with_reducible apply Ok.beginGrant
    | with_reducible refine Ok.ite ?_ ?_

theorem Ok.fxBlockReq {q : List Instr} (peer : Fin 4) (payload : Bytes) (s : State) (h : Ok q s) : Ok q (Machine.fxBlockReq peer payload s) := by
  unfold Machine.fxBlockReq
  repeat' first
    | with_reducible assumption
    | with_reducible apply Ok.hearBlockReq

theorem Ok.hearBlockGrant {q : List Instr} (p : Nat) (b : Bytes) (s0 : State) (h : Ok q s0) : Ok q (Machine.hearBlockGrant p b s0) := by
  unfold Machine.hearBlockGrant
  repeat' first
    | dsimp only
    | with_reducible assumption
    | intro _
    | with_reducible apply Ok.hearMaster
    | with_reducible apply Ok.storeBlock
    | with_reducible refine Ok.ite ?_ ?_
    | split

theorem Ok.fxBlockGrant {q : List Instr} (peer : Fin 4) (payload : Bytes) (s : State) (h : Ok q s) : Ok q (Machine.fxBlockGrant peer payload s) := by
  unfold Machine.fxBlockGrant
  repeat' first
    | with_reducible assumption
    | with_reducible apply Ok.hearBlockGrant

theorem Ok.hearCtrSync {q : List Instr} (p : Nat) (b : Bytes) (s0 : State) (h : Ok q s0) : Ok q (Machine.hearCtrSync p b s0) := by
  unfold Machine.hearCtrSync
  repeat' first
    | dsimp only
    | with_reducible assumption
    | intro _
    | with_reducible apply Ok.hearMaster
    | with_reducible refine Ok.modCrs _ ?_ ?_
    | with_reducible apply Ok.sendFrame
    | with_reducible refine Ok.ite ?_ ?_
    | split

theorem Ok.fxCtrSync {q : List Instr} (peer : Fin 4) (payload : Bytes) (s : State) (h : Ok q s) : Ok q (Machine.fxCtrSync peer payload s) := by
  unfold Machine.fxCtrSync
  repeat' first
    | with_reducible assumption
    | with_reducible apply Ok.hearCtrSync

theorem Ok.finishGrant {q : List Instr} (k : Nat) (s : State) (h : Ok q s) : Ok q (Machine.finishGrant k s) := by
  unfold Machine.finishGrant
  repeat' first
    | dsimp only
    | with_reducible assumption
    | intro _
    | with_reducible apply Ok.beginGrant
    | with_reducible apply Ok.grantBlock
    | with_reducible refine Ok.modCrs _ ?_ ?_
    | with_reducible apply Ok.foldl
    | with_reducible refine Ok.ite ?_ ?_
    | split

theorem Ok.acknowledged {q : List Instr} (p k : Nat) (s : State) (h : Ok q s) : Ok q (Machine.acknowledged p k s) := by
  unfold Machine.acknowledged
  repeat' first
    | dsimp only
    | with_reducible assumption
    | intro _
    | with_reducible apply Ok.finishGrant
    | with_reducible refine Ok.modCrs _ ?_ ?_
    | with_reducible refine Ok.ite ?_ ?_
    | split

theorem Ok.withoutAcks {q : List Instr} (p : Nat) (s0 s : State) (h : Ok q s) : Ok q (Machine.withoutAcks p s0 s) := by
  unfold Machine.withoutAcks
  repeat' first
    | dsimp only
    | with_reducible assumption
    | intro _
    | with_reducible apply Ok.acknowledged
    | with_reducible apply Ok.foldl

theorem Ok.hearCtrAck {q : List Instr} (p : Nat) (b : Bytes) (s : State) (h : Ok q s) : Ok q (Machine.hearCtrAck p b s) := by
  unfold Machine.hearCtrAck
  repeat' first
    | with_reducible assumption
    | intro _
    | with_reducible apply Ok.acknowledged
    | with_reducible refine Ok.ite ?_ ?_

theorem Ok.fxCtrAck {q : List Instr} (peer : Fin 4) (payload : Bytes) (s : State) (h : Ok q s) : Ok q (Machine.fxCtrAck peer payload s) := by
  unfold Machine.fxCtrAck
  repeat' first
    | with_reducible assumption
    | with_reducible apply Ok.hearCtrAck

theorem Ok.takeSlotBank {q : List Instr} (p : Nat) (b : Bytes) (s : State) (h : Ok q s) : Ok q (Machine.takeSlotBank p b s) := by
  unfold Machine.takeSlotBank
  repeat' first
    | dsimp only
    | with_reducible assumption
    | intro _
    | with_reducible apply Ok.modSlot
    | with_reducible apply Ok.prepareBank
    | with_reducible refine Ok.ite ?_ ?_
    | split

theorem Ok.hearSlotBank {q : List Instr} (p : Nat) (b : Bytes) (s : State) (h : Ok q s) : Ok q (Machine.hearSlotBank p b s) := by
  unfold Machine.hearSlotBank
  repeat' first
    | dsimp only
    | with_reducible assumption
    | intro _
    | with_reducible apply Ok.hearMaster
    | with_reducible apply Ok.orDefer
    | with_reducible apply Ok.takeSlotBank
    | with_reducible refine Ok.ite ?_ ?_
    | split

theorem Ok.fxSlotBank {q : List Instr} (peer : Fin 4) (payload : Bytes) (s : State) (h : Ok q s) : Ok q (Machine.fxSlotBank peer payload s) := by
  unfold Machine.fxSlotBank
  repeat' first
    | with_reducible assumption
    | with_reducible apply Ok.hearSlotBank

theorem Ok.fxCourseForward {q : List Instr} (id : Nat) (peer : Fin 4) (s : State) (h : Ok q s) : Ok q (Machine.fxCourseForward id peer s) := by
  unfold Machine.fxCourseForward
  repeat' first
    | dsimp only
    | with_reducible assumption
    | intro _
    | with_reducible apply Ok.eachN
    | with_reducible apply Ok.foldl
    | with_reducible refine Ok.modCrs _ ?_ ?_
    | with_reducible apply Ok.modPeer
    | with_reducible apply Ok.modReq
    | with_reducible apply Ok.nextFree
    | with_reducible apply Ok.sendFrame
    | with_reducible apply Ok.sendLong
    | with_reducible apply Ok.whenS
    | with_reducible apply Ok.withReq
    | with_reducible refine Ok.ite ?_ ?_
    | split
    | (rename_i hh; obtain ⟨ha, hb⟩ := hh; refine ⟨?_, ?_⟩ <;> first | linear_combination ha | linear_combination hb)

theorem Ok.hearFwdReq {q : List Instr} (p : Fin 4) (b : Bytes) (s0 : State) (h : Ok q s0) : Ok q (Machine.hearFwdReq p b s0) := by
  unfold Machine.hearFwdReq
  repeat' first
    | dsimp only
    | with_reducible assumption
    | intro _
    | with_reducible apply Ok.hearMaster
    | with_reducible refine Ok.modCrs _ ?_ ?_
    | with_reducible apply Ok.modPeer
    | with_reducible refine Ok.ite ?_ ?_
    | split
    | (rename_i hh; obtain ⟨ha, hb⟩ := hh; refine ⟨?_, ?_⟩ <;> first | linear_combination ha | linear_combination hb)

theorem Ok.fxFwdReq {q : List Instr} (peer : Fin 4) (payload : Bytes) (s : State) (h : Ok q s) : Ok q (Machine.fxFwdReq peer payload s) := by
  unfold Machine.fxFwdReq
  repeat' first
    | with_reducible assumption
    | with_reducible apply Ok.hearFwdReq

theorem Ok.hearFwdData {q : List Instr} (p : Nat) (b : Bytes) (s : State) (h : Ok q s) : Ok q (Machine.hearFwdData p b s) := by
  unfold Machine.hearFwdData
  repeat' first
    | dsimp only
    | with_reducible assumption
    | intro _
    | with_reducible apply Ok.modBuf
    | with_reducible refine Ok.modCrs _ ?_ ?_
    | with_reducible apply Ok.settle
    | with_reducible refine Ok.ite ?_ ?_
    | split

theorem Ok.hearFwdResult {q : List Instr} (p : Fin 4) (b : Bytes) (s : State) (h : Ok q s) : Ok q (Machine.hearFwdResult p b s) := by
  unfold Machine.hearFwdResult
  repeat' first
    | dsimp only
    | with_reducible assumption
    | intro _
    | with_reducible apply Ok.endChain
    | with_reducible refine Ok.modCrs _ ?_ ?_
    | with_reducible apply Ok.modOp
    | with_reducible apply Ok.modReq
    | with_reducible apply Ok.settle
    | with_reducible apply Ok.whenS
    | with_reducible apply Ok.withReq
    | with_reducible refine Ok.ite ?_ ?_
    | split
    | rfl
    | exact hes
    | (rename_i hh; obtain ⟨ha, hb⟩ := hh; refine ⟨?_, ?_⟩ <;> first | linear_combination ha | linear_combination hb)

theorem Ok.fxFwdResult {q : List Instr} (peer : Fin 4) (payload : Bytes) (s : State) (h : Ok q s) : Ok q (Machine.fxFwdResult peer payload s) := by
  unfold Machine.fxFwdResult
  repeat' first
    | dsimp only
    | with_reducible assumption
    | intro _
    | with_reducible apply Ok.hearFwdResult

theorem Ok.countDrop {q : List Instr} (s : State) (h : Ok q s) : Ok q (Machine.countDrop s) := by
  refine Ok.modCrs _ h (fun c hc => ?_)
  obtain ⟨ha, hb⟩ := hc
  exact ⟨ha, by linear_combination hb⟩

theorem Ok.dropForeign {q : List Instr} (r : Req) (s : State) (h : Ok q s) : Ok q (Machine.dropForeign r s) := by
  unfold Machine.dropForeign
  repeat' first
    | dsimp only
    | with_reducible assumption
    | intro _
    | with_reducible apply Ok.countDrop
    | with_reducible apply Ok.freeTiles
    | with_reducible apply Ok.retireReq
    | with_reducible refine Ok.ite ?_ ?_
    | split
    | (rename_i hh; obtain ⟨ha, hb⟩ := hh; refine ⟨?_, ?_⟩ <;> first | linear_combination ha | linear_combination hb)

theorem Ok.dropQueued {q : List Instr} (p number : Nat) (s : State) (h : Ok q s) : Ok q (Machine.dropQueued p number s) := by
  unfold Machine.dropQueued
  repeat' first
    | dsimp only
    | with_reducible assumption
    | intro _
    | with_reducible apply Ok.countDrop
    | with_reducible refine Ok.modCrs _ ?_ ?_
    | with_reducible refine Ok.ite ?_ ?_
    | split

theorem Ok.hearFwdCancel {q : List Instr} (p : Nat) (b : Bytes) (s : State) (h : Ok q s) : Ok q (Machine.hearFwdCancel p b s) := by
  unfold Machine.hearFwdCancel
  repeat' first
    | dsimp only
    | with_reducible assumption
    | intro _
    | with_reducible apply Ok.dropForeign
    | with_reducible apply Ok.dropQueued
    | with_reducible apply Ok.giveCredit
    | with_reducible refine Ok.ite ?_ ?_
    | split

theorem Ok.fxFwdCancel {q : List Instr} (peer : Fin 4) (payload : Bytes) (s : State) (h : Ok q s) : Ok q (Machine.fxFwdCancel peer payload s) := by
  unfold Machine.fxFwdCancel
  repeat' first
    | with_reducible assumption
    | with_reducible apply Ok.hearFwdCancel

theorem Ok.hearCredit {q : List Instr} (p : Nat) (b : Bytes) (s : State) (h : Ok q s) : Ok q (Machine.hearCredit p b s) := by
  unfold Machine.hearCredit
  repeat' first
    | dsimp only
    | with_reducible assumption
    | intro _
    | with_reducible apply Ok.modPeer
    | with_reducible refine Ok.ite ?_ ?_
    | split

theorem Ok.fxCredit {q : List Instr} (peer : Fin 4) (payload : Bytes) (s : State) (h : Ok q s) : Ok q (Machine.fxCredit peer payload s) := by
  unfold Machine.fxCredit
  repeat' first
    | with_reducible assumption
    | with_reducible apply Ok.hearCredit

theorem Ok.runHere {q : List Instr} (id : Nat) (s : State) (h : Ok q s) : Ok q (Machine.runHere id s) := by
  unfold Machine.runHere
  repeat' first
    | dsimp only
    | with_reducible assumption
    | intro _
    | with_reducible apply Ok.modReq
    | with_reducible apply Ok.settle
    | with_reducible apply Ok.unforward
    | with_reducible refine Ok.ite ?_ ?_
    | split

theorem Ok.recallAll {q : List Instr} (p : Nat) (s : State) (h : Ok q s) : Ok q (Machine.recallAll p s) := by
  unfold Machine.recallAll
  repeat' first
    | dsimp only
    | with_reducible assumption
    | intro _
    | with_reducible apply Ok.foldl
    | with_reducible apply Ok.modPeer
    | with_reducible apply Ok.runHere
    | with_reducible refine Ok.ite ?_ ?_
    | split

theorem Ok.dropWaiting {q : List Instr} (p : Nat) (r : Req) (s : State) (h : Ok q s) : Ok q (Machine.dropWaiting p r s) := by
  unfold Machine.dropWaiting
  repeat' first
    | dsimp only
    | with_reducible assumption
    | intro _
    | with_reducible apply Ok.dropQueued
    | with_reducible refine Ok.ite ?_ ?_
    | split

theorem Ok.dropAll {q : List Instr} (p : Nat) (s : State) (h : Ok q s) : Ok q (Machine.dropAll p s) := by
  unfold Machine.dropAll
  repeat' first
    | dsimp only
    | with_reducible assumption
    | intro _
    | with_reducible apply Ok.dropForeign
    | with_reducible apply Ok.dropWaiting
    | with_reducible apply Ok.foldl
    | with_reducible apply Ok.modPeer
    | with_reducible refine Ok.ite ?_ ?_
    | split

theorem Ok.fxCoursePeerSilent {q : List Instr} (peer : Fin 4) (s : State) (h : Ok q s) : Ok q (Machine.fxCoursePeerSilent peer s) := by
  unfold Machine.fxCoursePeerSilent
  repeat' first
    | dsimp only
    | with_reducible assumption
    | intro _
    | with_reducible apply Ok.crsRecord
    | with_reducible apply Ok.dropAll
    | with_reducible apply Ok.modPeer
    | with_reducible apply Ok.raiseG
    | with_reducible apply Ok.recallAll
    | with_reducible apply Ok.whenS
    | with_reducible apply Ok.withoutAcks
    | with_reducible refine Ok.ite ?_ ?_
    | split
    | rfl
    | exact hes
    | (simp_all; done)

theorem Ok.resumeCounters {q : List Instr} (s : State) (h : Ok q s) : Ok q (Machine.resumeCounters s) := by
  unfold Machine.resumeCounters
  repeat' first
    | dsimp only
    | with_reducible assumption
    | intro _
    | with_reducible apply Ok.foldl
    | with_reducible apply Ok.modSlot
    | with_reducible refine Ok.ite ?_ ?_
    | split

theorem Ok.takeOver {q : List Instr} (s : State) (h : Ok q s) : Ok q (Machine.takeOver s) := by
  unfold Machine.takeOver
  repeat' first
    | dsimp only
    | with_reducible assumption
    | intro _
    | with_reducible apply Ok.becomeMaster
    | with_reducible apply Ok.crsRecord
    | with_reducible apply Ok.eachN
    | with_reducible refine Ok.modCrs _ ?_ ?_
    | with_reducible apply Ok.modPeer
    | with_reducible apply Ok.raiseG
    | with_reducible apply Ok.reAsk
    | with_reducible apply Ok.resumeCounters
    | with_reducible apply Ok.sendFrame
    | with_reducible refine Ok.ite ?_ ?_
    | split
    | rfl
    | exact hes
    | (simp_all; done)

theorem Ok.hearTakeover {q : List Instr} (p : Nat) (s : State) (h : Ok q s) : Ok q (Machine.hearTakeover p s) := by
  unfold Machine.hearTakeover
  repeat' first
    | dsimp only
    | with_reducible assumption
    | intro _
    | with_reducible apply Ok.modPeer
    | with_reducible apply Ok.reAsk
    | with_reducible apply Ok.secondMaster
    | with_reducible refine Ok.ite ?_ ?_
    | split

theorem Ok.fxTakeover {q : List Instr} (peer : Fin 4) (_payload : Bytes) (s : State) (h : Ok q s) : Ok q (Machine.fxTakeover peer _payload s) := by
  unfold Machine.fxTakeover
  repeat' first
    | dsimp only
    | with_reducible assumption
    | intro _
    | with_reducible apply Ok.hearTakeover
    | with_reducible apply Ok.takeOver
    | with_reducible apply Ok.whenS
    | with_reducible refine Ok.ite ?_ ?_

theorem Ok.leaveCourse {q : List Instr} (cause : Nat) (tell : Bool) (s : State) (h : Ok q s) : Ok q (Machine.leaveCourse cause tell s) := by
  unfold Machine.leaveCourse
  repeat' first
    | dsimp only
    | with_reducible assumption
    | intro _
    | with_reducible apply Ok.crsState
    | with_reducible apply Ok.dropAll
    | with_reducible apply Ok.dropWork
    | with_reducible apply Ok.eachN
    | with_reducible refine Ok.modCrs _ ?_ ?_
    | with_reducible apply Ok.recallAll
    | with_reducible apply Ok.sendAll
    | with_reducible refine Ok.ite ?_ ?_
    | split

theorem Ok.fxCourseLeave {q : List Instr} (who : Who) (s : State) (h : Ok q s) : Ok q (Machine.fxCourseLeave who s) := by
  unfold Machine.fxCourseLeave
  repeat' first
    | with_reducible assumption
    | intro _
    | with_reducible apply Ok.gateW
    | with_reducible apply Ok.leaveCourse

theorem Ok.enterCourse {q : List Instr} (s : State) (h : Ok q s) : Ok q (Machine.enterCourse s) := by
  unfold Machine.enterCourse
  repeat' first
    | dsimp only
    | with_reducible assumption
    | intro _
    | with_reducible refine Ok.modCrs _ ?_ ?_

theorem Ok.hearLeave {q : List Instr} (p : Nat) (s : State) (h : Ok q s) : Ok q (Machine.hearLeave p s) := by
  unfold Machine.hearLeave
  repeat' first
    | dsimp only
    | with_reducible assumption
    | intro _
    | with_reducible apply Ok.dropAll
    | with_reducible apply Ok.dropWork
    | with_reducible apply Ok.leaveCourse
    | with_reducible apply Ok.modPeer
    | with_reducible apply Ok.recallAll
    | with_reducible apply Ok.withoutAcks
    | with_reducible refine Ok.ite ?_ ?_
    | split

theorem Ok.courseReform {q : List Instr} (s : State) (h : Ok q s) : Ok q (Machine.courseReform s) := by
  unfold Machine.courseReform
  repeat' first
    | dsimp only
    | with_reducible assumption
    | intro _
    | with_reducible apply Ok.crsState
    | with_reducible apply Ok.dropWork
    | with_reducible apply Ok.eachN
    | with_reducible refine Ok.modCrs _ ?_ ?_
    | with_reducible apply Ok.modPeer
    | with_reducible apply Ok.startForming
    | with_reducible refine Ok.ite ?_ ?_
    | split

theorem Ok.fxCourseReform {q : List Instr} (who : Who) (s : State) (h : Ok q s) : Ok q (Machine.fxCourseReform who s) := by
  unfold Machine.fxCourseReform
  repeat' first
    | with_reducible assumption
    | intro _
    | with_reducible apply Ok.courseReform
    | with_reducible apply Ok.gateW

theorem Ok.crsSnap {q : List Instr} (s : State) (h : Ok q s) : Ok q (Machine.crsSnap s) := by
  unfold Machine.crsSnap
  repeat' first
    | dsimp only
    | with_reducible assumption
    | intro _
    | with_reducible refine Ok.modCrs _ ?_ ?_

theorem Ok.fxCrsSnap {q : List Instr} (who : Who) (s : State) (h : Ok q s) : Ok q (Machine.fxCrsSnap who s) := by
  unfold Machine.fxCrsSnap
  repeat' first
    | with_reducible assumption
    | intro _
    | with_reducible apply Ok.crsSnap
    | with_reducible apply Ok.gateW

theorem Ok.reassemble {q : List Instr} (p type : Nat) (b : Bytes) (done : Bytes → State → State) (s : State) (h : Ok q s) (hdone : ∀ x0 x1, Ok q x1 → Ok q (done x0 x1)) : Ok q (Machine.reassemble p type b done s) := by
  unfold Machine.reassemble
  repeat' first
    | dsimp only
    | with_reducible assumption
    | intro _
    | with_reducible apply Ok.modPeer
    | with_reducible refine Ok.ite ?_ ?_
    | apply hdone

theorem Ok.takeFrame {q : List Instr} (p : Fin 4) (type : Nat) (b : Bytes) (s : State) (h : Ok q s) : Ok q (Machine.takeFrame p type b s) := by
  unfold Machine.takeFrame
  repeat' first
    | dsimp only
    | with_reducible assumption
    | intro _
    | with_reducible apply Ok.hearAgree
    | with_reducible apply Ok.hearBeat
    | with_reducible apply Ok.hearBlockGrant
    | with_reducible apply Ok.hearBlockReq
    | with_reducible apply Ok.hearCredit
    | with_reducible apply Ok.hearCtrAck
    | with_reducible apply Ok.hearCtrSync
    | with_reducible apply Ok.hearFwdCancel
    | with_reducible apply Ok.hearFwdData
    | with_reducible apply Ok.hearFwdReq
    | with_reducible apply Ok.hearFwdResult
    | with_reducible apply Ok.hearGroup
    | with_reducible apply Ok.hearHello
    | with_reducible apply Ok.hearLeave
    | with_reducible apply Ok.hearSlotBank
    | with_reducible apply Ok.hearTakeover
    | with_reducible apply Ok.reassemble
    | with_reducible refine Ok.ite ?_ ?_
    | split

theorem Ok.badFrame {q : List Instr} (p lane type kind cnt : Nat) (s : State) (h : Ok q s) : Ok q (Machine.badFrame p lane type kind cnt s) := by
  unfold Machine.badFrame
  repeat' first
    | dsimp only
    | with_reducible assumption
    | intro _
    | with_reducible apply Ok.crsRecord
    | with_reducible refine Ok.modCrs _ ?_ ?_
    | with_reducible apply Ok.raiseG
    | (simp_all; done)

theorem Ok.fxCourseFrameReceive {q : List Instr} (lane : Fin 2) (frame : Bytes) (s : State) (h : Ok q s) : Ok q (Machine.fxCourseFrameReceive lane frame s) := by
  unfold Machine.fxCourseFrameReceive
  repeat' first
    | dsimp only
    | with_reducible assumption
    | intro _
    | with_reducible apply Ok.badFrame
    | with_reducible apply Ok.emit
    | with_reducible apply Ok.modPeer
    | with_reducible apply Ok.reAsk
    | with_reducible apply Ok.takeFrame
    | with_reducible apply Ok.whenS
    | with_reducible refine Ok.ite ?_ ?_

end Sys2Proof.Machine
end

