-- ==== Sys2Proof/Laws/KeepGenerations.lean ====
section
/-!
SUPPORT. The operations of Machine/Generations.lean keep the invariant and leave the queue alone.
-/

set_option Elab.async false

namespace Sys2Proof.Machine

theorem Ok.genErr {q : List Instr} (e : Nat) (s : State) (h : Ok q s) : Ok q (Machine.genErr e s) := by
  unfold Machine.genErr
  repeat' first
    | with_reducible assumption
    | with_reducible apply Ok.modGen

theorem Ok.whenIdle {q : List Instr} (f : State → State) (s : State) (h : Ok q s) (hf : ∀ x0, Ok q x0 → Ok q (f x0)) : Ok q (Machine.whenIdle f s) := by
  unfold Machine.whenIdle
  repeat' first
    | with_reducible assumption
    | intro _
    | with_reducible apply Ok.genErr
    | with_reducible refine Ok.ite ?_ ?_
    | (simp_all; done)

theorem Ok.genLoad {q : List Instr} (s : State) (h : Ok q s) : Ok q (Machine.genLoad s) := by
  unfold Machine.genLoad
  repeat' first
    | dsimp only
    | with_reducible assumption
    | intro _
    | with_reducible apply Ok.emitRd
    | with_reducible apply Ok.modGen
    | with_reducible apply Ok.violP
    | with_reducible apply Ok.foldl
    | split

theorem Ok.fxGenLoad {q : List Instr} (who : Who) (s : State) (h : Ok q s) : Ok q (Machine.fxGenLoad who s) := by
  unfold Machine.fxGenLoad
  repeat' first
    | with_reducible assumption
    | intro _
    | with_reducible apply Ok.gateW
    | with_reducible apply Ok.genLoad
    | with_reducible apply Ok.whenIdle

theorem Ok.endLoad {q : List Instr} (e : Nat) (b : Bytes) (s : State) (h : Ok q s) : Ok q (Machine.endLoad e b s) := by
  unfold Machine.endLoad
  repeat' first
    | dsimp only
    | with_reducible assumption
    | intro _
    | with_reducible apply Ok.modGen
    | with_reducible apply Ok.raiseG
    | with_reducible refine Ok.ite ?_ ?_
    | split

theorem Ok.checkSections {q : List Instr} (b : Bytes) (s : State) (h : Ok q s) : Ok q (Machine.checkSections b s) := by
  unfold Machine.checkSections
  repeat' first
    | dsimp only
    | with_reducible assumption
    | intro _
    | with_reducible apply Ok.eachN
    | with_reducible apply Ok.issueJob
    | with_reducible refine Ok.ite ?_ ?_
    | split

theorem Ok.fxGenLoadDone {q : List Instr} (image : Bytes) (s : State) (h : Ok q s) : Ok q (Machine.fxGenLoadDone image s) := by
  unfold Machine.fxGenLoadDone
  repeat' first
    | dsimp only
    | with_reducible assumption
    | intro _
    | with_reducible apply Ok.checkSections
    | with_reducible apply Ok.endLoad
    | with_reducible apply Ok.modGen
    | with_reducible apply Ok.whenS
    | with_reducible refine Ok.ite ?_ ?_
    | split

theorem Ok.stopChans {q : List Instr} (c : Content) (s : State) (h : Ok q s) : Ok q (Machine.stopChans c s) := by
  unfold Machine.stopChans
  repeat' first
    | dsimp only
    | with_reducible assumption
    | intro _
    | with_reducible apply Ok.dcReassign
    | with_reducible apply Ok.eachN

theorem Ok.startFence {q : List Instr} (c : Content) (clamped rollback : Bool) (s : State) (h : Ok q s) : Ok q (Machine.startFence c clamped rollback s) := by
  unfold Machine.startFence
  repeat' first
    | dsimp only
    | with_reducible assumption
    | intro _
    | with_reducible apply Ok.foldl
    | with_reducible apply Ok.issueJob
    | with_reducible apply Ok.modGen
    | with_reducible apply Ok.resetTenant
    | with_reducible apply Ok.stopChans
    | with_reducible refine Ok.ite ?_ ?_
    | split

theorem Ok.genCommit {q : List Instr} (s : State) (h : Ok q s) : Ok q (Machine.genCommit s) := by
  unfold Machine.genCommit
  repeat' first
    | dsimp only
    | with_reducible assumption
    | with_reducible apply Ok.startFence

theorem Ok.fxGenCommit {q : List Instr} (who : Who) (s : State) (h : Ok q s) : Ok q (Machine.fxGenCommit who s) := by
  unfold Machine.fxGenCommit
  repeat' first
    | with_reducible assumption
    | intro _
    | with_reducible apply Ok.gateW
    | with_reducible apply Ok.genCommit
    | with_reducible apply Ok.whenIdle

theorem Ok.genRollback {q : List Instr} (s : State) (h : Ok q s) : Ok q (Machine.genRollback s) := by
  unfold Machine.genRollback
  repeat' first
    | with_reducible assumption
    | intro _
    | with_reducible apply Ok.genErr
    | with_reducible apply Ok.startFence
    | with_reducible refine Ok.ite ?_ ?_

theorem Ok.fxGenRollback {q : List Instr} (who : Who) (s : State) (h : Ok q s) : Ok q (Machine.fxGenRollback who s) := by
  unfold Machine.fxGenRollback
  repeat' first
    | with_reducible assumption
    | intro _
    | with_reducible apply Ok.gateW
    | with_reducible apply Ok.genRollback
    | with_reducible apply Ok.whenIdle

theorem Ok.genCancel {q : List Instr} (s : State) (h : Ok q s) : Ok q (Machine.genCancel s) := by
  unfold Machine.genCancel
  repeat' first
    | dsimp only
    | with_reducible assumption
    | intro _
    | with_reducible apply Ok.dropWork
    | with_reducible apply Ok.modGen
    | with_reducible refine Ok.ite ?_ ?_
    | split

theorem Ok.fxGenCancel {q : List Instr} (who : Who) (s : State) (h : Ok q s) : Ok q (Machine.fxGenCancel who s) := by
  unfold Machine.fxGenCancel
  repeat' first
    | with_reducible assumption
    | intro _
    | with_reducible apply Ok.gateW
    | with_reducible apply Ok.genCancel

theorem Ok.genDiscard {q : List Instr} (s : State) (h : Ok q s) : Ok q (Machine.genDiscard s) := by
  unfold Machine.genDiscard
  repeat' first
    | with_reducible assumption
    | with_reducible apply Ok.modGen

theorem Ok.fxGenDiscard {q : List Instr} (who : Who) (s : State) (h : Ok q s) : Ok q (Machine.fxGenDiscard who s) := by
  unfold Machine.fxGenDiscard
  repeat' first
    | with_reducible assumption
    | intro _
    | with_reducible apply Ok.gateW
    | with_reducible apply Ok.genDiscard
    | with_reducible apply Ok.whenIdle

theorem Ok.turnRules {q : List Instr} (rollback : Bool) (s : State) (h : Ok q s) : Ok q (Machine.turnRules rollback s) := by
  unfold Machine.turnRules
  repeat' first
    | dsimp only
    | with_reducible assumption
    | intro _
    | with_reducible apply Ok.eachN
    | with_reducible apply Ok.modDc
    | with_reducible apply Ok.modReqs
    | with_reducible refine Ok.modSq _ _ _ ?_ ?_
    | with_reducible refine Ok.ite ?_ ?_
    | split

/-- The clearing of the rings of a tenant changes of the state its rings alone. -/
theorem clearRings_spec (n : TenantIx) (l : List Nat) (hl : ∀ m ∈ l, m < 16) (s : State) :
    let t := clearRings n l s
    t.tens = s.tens ∧ t.crs = s.crs ∧ t.boot = s.boot ∧ t.jrn = s.jrn ∧ t.fp = s.fp ∧ t.es = s.es ∧ t.pending = s.pending ∧
    (∀ m, m < 16 → (m ∈ l ∨ (s.sq n m).queued = 0) → (t.sq n m).queued = 0) ∧
    (∀ a m, a ≠ n.val → m < 16 → t.sq a m = s.sq a m) := by
  induction l generalizing s with
  | nil => exact ⟨rfl, rfl, rfl, rfl, rfl, rfl, rfl, fun m hm hq => hq.resolve_left (by simp), fun _ _ _ _ => rfl⟩
  | cons a t ih =>
    have ha : a < 16 := hl a (by simp)
    have := ih (fun m hm => hl m (by simp [hm])) (Machine.modCq n.val a (fun _ => {}) (Machine.modSq n.val a Sq.fresh s))
    obtain ⟨h1, h2, h3, h4, h5, h6, h7, h8, h9⟩ := this
    refine ⟨h1, h2, h3, h4, h5, h6, h7, ?_, ?_⟩
    · intro m hm hq
      apply h8 m hm
      rw [sq_modCq, sq_modSq]
      split
      · right; exact fresh_queued _
      · next hne =>
        rcases hq with hq | hq
        · left
          rcases List.mem_cons.1 hq with rfl | hq
          · exact absurd rfl hne
          · exact hq
        · right; exact hq
    · intro b m hb hm
      refine Eq.trans (h9 b m hb hm) ?_
      rw [sq_modCq, sq_modSq, if_neg (by rw [rix_inj hm ha]; exact fun hc => hb hc.1)]

theorem freshTenant_eq (n : TenantIx) (s : State) : Machine.freshTenant n s = Machine.modTen n.val (fun t => { left := t.left }) (clearRings n (List.range 16) s) := rfl

theorem Ok.freshRest {q : List Instr} (n : TenantIx) (s t : State) (h : Ok q s) (h1 : t.tens = s.tens) (h2 : t.crs = s.crs) (h3 : t.boot = s.boot)
    (h4 : t.jrn = s.jrn) (h5 : t.fp = s.fp) (h6 : t.es = s.es) (h7 : t.pending = s.pending) (hz : ∀ m, m < 16 → (t.sq n m).queued = 0)
    (h9 : ∀ a m, a ≠ n.val → m < 16 → t.sq a m = s.sq a m) : Ok q (Machine.modTen n.val (fun t => { left := t.left }) t) := by
  have hQ : queuedOf t n = 0 := by
    rw [queuedOf_eq_sum]
    have : (List.range 16).map (fun m => (t.sq n m).queued) = (List.range 16).map (fun _ => (0 : Word)) :=
      List.map_congr_left (fun m hm => hz m (by simpa using hm))
    rw [this]; rfl
  refine ⟨⟨?_, ?_, ?_, ?_, ?_, ?_⟩, ?_⟩
  · intro k hk
    have e3 : ∀ f, queuedOf (Machine.modTen n.val f t) k = queuedOf t k := fun _ => rfl
    have ht : t.ten k = s.ten k := by unfold State.ten; rw [h1]
    by_cases hkn : k = n.val
    · subst hkn
      refine ⟨?_, ?_, ?_⟩
      · rw [e3, ten_modTen, if_pos rfl, hQ]
        change Ledger.balanced {} 0
        constructor <;> rfl
      · rw [ten_modTen, if_pos rfl]
        change FpCnt.balanced {}
        rfl
      · intro _ m hm; exact hz m hm
    · have h0 := h.inv.ten k hk
      refine ⟨?_, ?_, ?_⟩
      · have e4 : queuedOf t k = queuedOf s k := queuedOf_congr (fun m hm => congrArg Sq.queued (h9 k m hkn hm))
        rw [e3, ten_modTen, if_neg hkn, ht, e4]; exact h0.1
      · rw [ten_modTen, if_neg hkn, ht]; exact h0.2.1
      · rw [ten_modTen, if_neg hkn, ht]
        intro hi m hm
        rw [sq_modTen]
        exact (congrArg Sq.queued (h9 k m hkn hm)).trans (h0.2.2 hi m hm)
  · change t.crs.cnt.balanced; rw [h2]; exact h.inv.crs
  · change t.boot.admitted = t.boot.completed + t.boot.inflight; rw [h3]; exact h.inv.boot
  · change t.jrn.fits; rw [h4]; exact h.inv.jrn
  · change fpOnLoan t ≤ 4096; unfold fpOnLoan; rw [h5]; exact h.inv.loans
  · change t.es.pool.length ≤ 8; rw [h6]; exact h.inv.pool
  · change t.pending = q; rw [h7]; exact h.pend

theorem Ok.freshTenant {q : List Instr} (n : TenantIx) (s : State) (h : Ok q s) : Ok q (Machine.freshTenant n s) := by
  obtain ⟨h1, h2, h3, h4, h5, h6, h7, h8, h9⟩ := clearRings_spec n (List.range 16) (by simp) s
  rw [freshTenant_eq]
  exact Ok.freshRest n s _ h h1 h2 h3 h4 h5 h6 h7 (fun m hm => h8 m hm (Or.inl (by simpa using hm))) h9

theorem Ok.lowerCredits {q : List Instr} (s : State) (h : Ok q s) : Ok q (Machine.lowerCredits s) := by
  unfold Machine.lowerCredits
  repeat' first
    | dsimp only
    | with_reducible assumption
    | intro _
    | with_reducible apply Ok.eachN
    | with_reducible refine Ok.modSq _ _ _ ?_ ?_

theorem Ok.newPeriod {q : List Instr} (s0 s : State) (h : Ok q s) : Ok q (Machine.newPeriod s0 s) := by
  unfold Machine.newPeriod
  repeat' first
    | dsimp only
    | with_reducible assumption
    | intro _
    | with_reducible apply Ok.modSch
    | with_reducible refine Ok.ite ?_ ?_
    | split

theorem Ok.unloadOutside {q : List Instr} (s : State) (h : Ok q s) : Ok q (Machine.unloadOutside s) := by
  unfold Machine.unloadOutside
  repeat' first
    | with_reducible assumption
    | with_reducible apply Ok.modKs
    | with_reducible apply Ok.sweepCache

theorem Ok.takeEffect {q : List Instr} (s0 : State) (h : Ok q s0) : Ok q (Machine.takeEffect s0) := by
  unfold Machine.takeEffect
  repeat' first
    | dsimp only
    | with_reducible assumption
    | intro _
    | with_reducible apply Ok.enterCourse
    | with_reducible apply Ok.foldl
    | with_reducible apply Ok.freshTenant
    | with_reducible apply Ok.leaveCourse
    | with_reducible apply Ok.lowerCredits
    | with_reducible apply Ok.modGen
    | with_reducible apply Ok.modSch
    | with_reducible apply Ok.newPeriod
    | with_reducible apply Ok.raiseG
    | with_reducible apply Ok.setAct
    | with_reducible apply Ok.stopChans
    | with_reducible apply Ok.turnRules
    | with_reducible apply Ok.unloadOutside
    | with_reducible refine Ok.ite ?_ ?_
    | split

theorem Ok.fxGenTakeEffect {q : List Instr} (s : State) (h : Ok q s) : Ok q (Machine.fxGenTakeEffect s) := by
  unfold Machine.fxGenTakeEffect
  repeat' first
    | with_reducible assumption
    | intro _
    | with_reducible apply Ok.takeEffect
    | with_reducible apply Ok.whenS

theorem Ok.fxGenSlow {q : List Instr} (s : State) (h : Ok q s) : Ok q (Machine.fxGenSlow s) := by
  unfold Machine.fxGenSlow
  repeat' first
    | with_reducible assumption
    | intro _
    | with_reducible apply Ok.journal
    | with_reducible apply Ok.raiseG
    | with_reducible apply Ok.whenS
    | (simp_all; done)

theorem Ok.sectChecked {q : List Instr} (i : Nat) (second : Bool) (s : State) (h : Ok q s) : Ok q (Machine.sectChecked i second s) := by
  unfold Machine.sectChecked
  repeat' first
    | dsimp only
    | with_reducible assumption
    | intro _
    | with_reducible apply Ok.dropWork
    | with_reducible apply Ok.endLoad
    | with_reducible refine Ok.ite ?_ ?_
    | split

theorem Ok.pairDone {q : List Instr} (p : Nat) (op : PairOp) (s : State) (h : Ok q s) : Ok q (Machine.pairDone p op s) := by
  unfold Machine.pairDone
  repeat' first
    | dsimp only
    | with_reducible assumption
    | intro _
    | with_reducible apply Ok.issueJob
    | with_reducible apply Ok.stepEnds
    | with_reducible refine Ok.ite ?_ ?_
    | split

theorem Ok.jobDone {q : List Instr} (j : Job) (s : State) (h : Ok q s) : Ok q (Machine.jobDone j s) := by
  unfold Machine.jobDone
  repeat' first
    | dsimp only
    | with_reducible assumption
    | intro _
    | with_reducible apply Ok.issueJob
    | with_reducible apply Ok.pairDone
    | with_reducible apply Ok.sectChecked
    | with_reducible refine Ok.ite ?_ ?_
    | split

theorem Ok.jobEnds {q : List Instr} (j : Job) (resultOk : Bool) (ecc : Ecc) (s : State) (h : Ok q s) : Ok q (Machine.jobEnds j resultOk ecc s) := by
  unfold Machine.jobEnds
  repeat' first
    | dsimp only
    | with_reducible assumption
    | intro _
    | with_reducible apply Ok.jobDone
    | with_reducible apply Ok.modSch
    | with_reducible apply Ok.quarantine
    | with_reducible apply Ok.releaseOp
    | with_reducible apply Ok.tileChecked
    | with_reducible refine Ok.ite ?_ ?_
    | split

theorem Ok.fxOperationEnd {q : List Instr} (id : Nat) (op : Fin 8) (resultOk : Bool) (ecc : Ecc) (meets : Bool) (staging second : Ecc) (s : State) (h : Ok q s) : Ok q (Machine.fxOperationEnd id op resultOk ecc meets staging second s) := by
  unfold Machine.fxOperationEnd
  repeat' first
    | dsimp only
    | with_reducible assumption
    | intro _
    | with_reducible apply Ok.jobEnds
    | with_reducible apply Ok.opEnds
    | with_reducible apply Ok.whenS
    | with_reducible refine Ok.ite ?_ ?_
    | split

end Sys2Proof.Machine
end

