-- ==== Sys2Proof/Laws/KeepClocks.lean ====
section
/-!
SUPPORT. The operations of Machine/Clocks.lean keep the invariant and leave the queue alone.
-/

set_option Elab.async false

namespace Sys2Proof.Machine

theorem Inv.reset : Inv State.reset := by
  refine ⟨?_, ?_, ?_, ?_, ?_, ?_⟩
  · intro n hn
    have hq : queuedOf State.reset n = 0 := by
      rw [queuedOf_eq_sum]; simp [State.sq, State.reset, Tbl.look]
    have ht : State.reset.ten n = {} := by simp [State.ten, State.reset, Tbl.look]
    refine ⟨?_, ?_, ?_⟩
    · rw [hq, ht]; constructor <;> decide
    · rw [ht]; unfold FpCnt.balanced; decide
    · rw [ht]; intro h; cases h
  · exact ⟨rfl, rfl⟩
  · rfl
  · exact ⟨by decide, by simp [State.reset]⟩
  · decide
  · decide
theorem Ok.engineReset {q : List Instr} (cause : Nat) (s : State) (h : Ok q s) : Ok q (engineReset cause s) := by
  refine ⟨⟨?_, Inv.reset.crs, Inv.reset.boot, Inv.reset.jrn, Inv.reset.loans, Inv.reset.pool⟩, h.pend⟩
  intro n hn
  exact (Inv.reset.ten n hn).congr rfl rfl id (fun _ _ => rfl)

theorem Ok.moveOut {q : List Instr} (t : Nat) (s : State) (h : Ok q s) : Ok q (Machine.moveOut t s) := by
  unfold Machine.moveOut
  repeat' first
    | dsimp only
    | with_reducible assumption
    | intro _
    | with_reducible apply Ok.eachN
    | with_reducible apply Ok.foldl
    | with_reducible apply Ok.setStream
    | with_reducible apply Ok.shiftSaved
    | with_reducible refine Ok.ite ?_ ?_
    | split

theorem Ok.gateStart {q : List Instr} (u : GateUnit) (s : State) (h : Ok q s) : Ok q (Machine.gateStart u s) := by
  unfold Machine.gateStart
  repeat' first
    | dsimp only
    | with_reducible assumption
    | intro _
    | with_reducible apply Ok.dcSetPause
    | with_reducible apply Ok.eachN
    | with_reducible apply Ok.modClk
    | with_reducible apply Ok.modOwn
    | with_reducible apply Ok.moveOut
    | with_reducible apply Ok.settleAll
    | with_reducible refine Ok.ite ?_ ?_
    | split

theorem Ok.gateEnd {q : List Instr} (u : GateUnit) (s : State) (h : Ok q s) : Ok q (Machine.gateEnd u s) := by
  unfold Machine.gateEnd
  repeat' first
    | dsimp only
    | with_reducible assumption
    | with_reducible apply Ok.modClk
    | with_reducible apply Ok.modOwn

theorem Ok.fxGateWrite {q : List Instr} (who : Who) (unit : GateUnit) (s : State) (h : Ok q s) : Ok q (Machine.fxGateWrite who unit s) := by
  unfold Machine.fxGateWrite
  repeat' first
    | with_reducible assumption
    | intro _
    | with_reducible apply Ok.gateStart
    | with_reducible apply Ok.gateW

theorem Ok.fxUngate {q : List Instr} (who : Who) (unit : GateUnit) (s : State) (h : Ok q s) : Ok q (Machine.fxUngate who unit s) := by
  unfold Machine.fxUngate
  repeat' first
    | dsimp only
    | with_reducible assumption
    | intro _
    | with_reducible apply Ok.dropReg
    | with_reducible apply Ok.gateEnd
    | with_reducible apply Ok.gateW
    | with_reducible refine Ok.ite ?_ ?_

theorem Ok.fxGateIdle {q : List Instr} (unit : GateUnit) (s : State) (h : Ok q s) : Ok q (Machine.fxGateIdle unit s) := by
  unfold Machine.fxGateIdle
  repeat' first
    | dsimp only
    | with_reducible assumption
    | intro _
    | with_reducible apply Ok.modClk
    | with_reducible apply Ok.moveOut
    | with_reducible apply Ok.whenS
    | with_reducible refine Ok.ite ?_ ?_
    | split

theorem Ok.modMon {q : List Instr} (k : ClkName) (f : ClkMon → ClkMon) (s : State) (h : Ok q s) : Ok q (Machine.modMon k f s) := by
  unfold Machine.modMon
  repeat' first
    | with_reducible assumption
    | with_reducible apply Ok.modClk
    | split

theorem Ok.openWindow {q : List Instr} (k : ClkName) (s : State) (h : Ok q s) : Ok q (Machine.openWindow k s) := by
  unfold Machine.openWindow
  repeat' first
    | dsimp only
    | with_reducible assumption
    | intro _
    | with_reducible apply Ok.modMon
    | with_reducible refine Ok.ite ?_ ?_
    | split

theorem Ok.clkmonEn {q : List Instr} (who : Who) (k : ClkName) (en : Bool) (s : State) (h : Ok q s) : Ok q (Machine.clkmonEn who k en s) := by
  unfold Machine.clkmonEn
  repeat' first
    | dsimp only
    | with_reducible assumption
    | intro _
    | with_reducible apply Ok.dropReg
    | with_reducible apply Ok.modOwn
    | with_reducible apply Ok.openWindow
    | with_reducible refine Ok.ite ?_ ?_
    | split

theorem Ok.fxClkmonEnWrite {q : List Instr} (who : Who) (clk : ClkName) (en : Bool) (s : State) (h : Ok q s) : Ok q (Machine.fxClkmonEnWrite who clk en s) := by
  unfold Machine.fxClkmonEnWrite
  repeat' first
    | with_reducible assumption
    | intro _
    | with_reducible apply Ok.clkmonEn
    | with_reducible apply Ok.gateW

theorem Ok.clkRecord {q : List Instr} (event : Nat) (reset : Bool) (s : State) (h : Ok q s) : Ok q (Machine.clkRecord event reset s) := by
  unfold Machine.clkRecord
  repeat' first
    | with_reducible assumption
    | intro _
    | with_reducible apply Ok.journal
    | with_reducible refine Ok.ite ?_ ?_
    | (simp_all; done)

theorem Ok.fenceTile {q : List Instr} (t : Nat) (s : State) (h : Ok q s) : Ok q (Machine.fenceTile t s) := by
  unfold Machine.fenceTile
  repeat' first
    | dsimp only
    | with_reducible assumption
    | intro _
    | with_reducible apply Ok.modOp
    | with_reducible apply Ok.modTile
    | with_reducible apply Ok.foldl

theorem Ok.holdControl {q : List Instr} (s : State) (h : Ok q s) : Ok q (Machine.holdControl s) := by
  unfold Machine.holdControl
  repeat' first
    | dsimp only
    | with_reducible assumption
    | intro _
    | with_reducible apply Ok.modStart
    | with_reducible refine Ok.ite ?_ ?_
    | split

theorem Ok.trip {q : List Instr} (k : ClkName) (bit : Nat) (s : State) (h : Ok q s) : Ok q (Machine.trip k bit s) := by
  unfold Machine.trip
  repeat' first
    | dsimp only
    | with_reducible assumption
    | intro _
    | with_reducible apply Ok.clkRecord
    | with_reducible apply Ok.eachN
    | with_reducible apply Ok.fenceTile
    | with_reducible apply Ok.holdControl
    | with_reducible apply Ok.modClk
    | with_reducible apply Ok.modMon
    | with_reducible apply Ok.raiseG
    | with_reducible refine Ok.ite ?_ ?_
    | split

theorem Ok.fxClockStopTrip {q : List Instr} (clk : ClkName) (s : State) (h : Ok q s) : Ok q (Machine.fxClockStopTrip clk s) := by
  unfold Machine.fxClockStopTrip
  repeat' first
    | with_reducible assumption
    | intro _
    | with_reducible apply Ok.trip
    | with_reducible apply Ok.whenS

theorem Ok.countWindow {q : List Instr} (k : ClkName) (s : State) (h : Ok q s) : Ok q (Machine.countWindow k s) := by
  unfold Machine.countWindow
  repeat' first
    | dsimp only
    | with_reducible assumption
    | intro _
    | with_reducible apply Ok.modClk
    | with_reducible refine Ok.ite ?_ ?_
    | split

theorem Ok.fxClkmonWindow {q : List Instr} (clk : ClkName) (count : BitVec 14) (s : State) (h : Ok q s) : Ok q (Machine.fxClkmonWindow clk count s) := by
  unfold Machine.fxClkmonWindow
  repeat' first
    | dsimp only
    | with_reducible assumption
    | intro _
    | with_reducible apply Ok.countWindow
    | with_reducible apply Ok.modMon
    | with_reducible apply Ok.openWindow
    | with_reducible apply Ok.trip
    | with_reducible apply Ok.whenS
    | with_reducible refine Ok.ite ?_ ?_
    | split

theorem Ok.fxOscFault {q : List Instr} (s : State) (h : Ok q s) : Ok q (Machine.fxOscFault s) := by
  unfold Machine.fxOscFault
  repeat' first
    | with_reducible assumption
    | intro _
    | with_reducible apply Ok.modClk
    | with_reducible apply Ok.raiseG
    | with_reducible apply Ok.whenS

theorem Ok.contain {q : List Instr} (k : ClkName) (s : State) (h : Ok q s) : Ok q (Machine.contain k s) := by
  unfold Machine.contain
  repeat' first
    | dsimp only
    | with_reducible assumption
    | intro _
    | with_reducible apply Ok.eachN
    | with_reducible apply Ok.endChain
    | with_reducible apply Ok.modReq
    | with_reducible apply Ok.modTile
    | with_reducible apply Ok.setStream
    | with_reducible apply Ok.foldl
    | with_reducible refine Ok.ite ?_ ?_
    | split

theorem Ok.fxFencedZeroizeDone {q : List Instr} (s : State) (h : Ok q s) : Ok q (Machine.fxFencedZeroizeDone s) := by
  unfold Machine.fxFencedZeroizeDone
  repeat' first
    | dsimp only
    | with_reducible assumption
    | intro _
    | with_reducible apply Ok.contain
    | with_reducible apply Ok.engineReset
    | with_reducible apply Ok.modClk
    | with_reducible apply Ok.modMon
    | with_reducible apply Ok.modStart
    | with_reducible apply Ok.settleAll
    | with_reducible apply Ok.whenS
    | with_reducible refine Ok.ite ?_ ?_

theorem Ok.clkmonRelease {q : List Instr} (who : Who) (k : ClkName) (s : State) (h : Ok q s) : Ok q (Machine.clkmonRelease who k s) := by
  unfold Machine.clkmonRelease
  repeat' first
    | with_reducible assumption
    | intro _
    | with_reducible apply Ok.dropReg
    | with_reducible apply Ok.modMon
    | with_reducible refine Ok.ite ?_ ?_

theorem Ok.fxClkmonRelease {q : List Instr} (who : Who) (clk : ClkName) (s : State) (h : Ok q s) : Ok q (Machine.fxClkmonRelease who clk s) := by
  unfold Machine.fxClkmonRelease
  repeat' first
    | with_reducible assumption
    | intro _
    | with_reducible apply Ok.clkmonRelease
    | with_reducible apply Ok.gateW
    | with_reducible refine Ok.ite ?_ ?_

theorem Ok.releaseTile {q : List Instr} (pass : Bool) (t : Nat) (s : State) (h : Ok q s) : Ok q (Machine.releaseTile pass t s) := by
  unfold Machine.releaseTile
  repeat' first
    | dsimp only
    | with_reducible assumption
    | intro _
    | with_reducible apply Ok.journal
    | with_reducible apply Ok.modTile
    | with_reducible apply Ok.rejoinTile
    | with_reducible refine Ok.ite ?_ ?_
    | (simp_all; done)

theorem Ok.fxIslandRejoin {q : List Instr} (clk : ClkName) (failed : BitVec 24) (s : State) (h : Ok q s) : Ok q (Machine.fxIslandRejoin clk failed s) := by
  unfold Machine.fxIslandRejoin
  repeat' first
    | dsimp only
    | with_reducible assumption
    | intro _
    | with_reducible apply Ok.eachN
    | with_reducible apply Ok.modMon
    | with_reducible apply Ok.releaseTile
    | with_reducible apply Ok.wakeBanks
    | with_reducible apply Ok.whenS
    | with_reducible refine Ok.ite ?_ ?_
    | split

theorem Ok.countWarn {q : List Instr} (s : State) (h : Ok q s) : Ok q (Machine.countWarn s) := by
  unfold Machine.countWarn
  repeat' first
    | with_reducible assumption
    | with_reducible apply Ok.modSup

theorem Ok.countRerun {q : List Instr} (s : State) (h : Ok q s) : Ok q (Machine.countRerun s) := by
  unfold Machine.countRerun
  repeat' first
    | with_reducible assumption
    | with_reducible apply Ok.modSup

theorem Ok.runAgain {q : List Instr} (id i : Nat) (s : State) (h : Ok q s) : Ok q (Machine.runAgain id i s) := by
  unfold Machine.runAgain
  repeat' first
    | dsimp only
    | with_reducible assumption
    | intro _
    | with_reducible apply Ok.countRerun
    | with_reducible apply Ok.modOp
    | with_reducible apply Ok.rerunOp
    | with_reducible refine Ok.ite ?_ ?_
    | split

theorem Ok.supplyHit {q : List Instr} (s : State) (r : Req) (h : Ok q s) : Ok q (Machine.supplyHit s r) := by
  unfold Machine.supplyHit
  repeat' first
    | dsimp only
    | with_reducible assumption
    | intro _
    | with_reducible apply Ok.countRerun
    | with_reducible apply Ok.eachN
    | with_reducible apply Ok.endChain
    | with_reducible apply Ok.runAgain
    | with_reducible refine Ok.ite ?_ ?_
    | split

theorem Ok.jobHit {q : List Instr} (s : State) (j : Job) (h : Ok q s) : Ok q (Machine.jobHit s j) := by
  unfold Machine.jobHit
  repeat' first
    | with_reducible assumption
    | with_reducible apply Ok.countRerun
    | with_reducible apply Ok.releaseOp

theorem Ok.fxSupplyWarn {q : List Instr} (s : State) (h : Ok q s) : Ok q (Machine.fxSupplyWarn s) := by
  unfold Machine.fxSupplyWarn
  repeat' first
    | dsimp only
    | with_reducible assumption
    | intro _
    | with_reducible apply Ok.clkRecord
    | with_reducible apply Ok.countWarn
    | with_reducible apply Ok.modSup
    | with_reducible apply Ok.raiseG
    | with_reducible apply Ok.supplyHit
    | with_reducible apply Ok.jobHit
    | with_reducible apply Ok.whenS
    | with_reducible apply Ok.foldl

theorem Ok.undefer {q : List Instr} (d : KsDefer) (s : State) (h : Ok q s) : Ok q (Machine.undefer d s) := by
  unfold Machine.undefer
  repeat' first
    | dsimp only
    | with_reducible assumption
    | intro _
    | with_reducible apply Ok.bankWrite
    | with_reducible apply Ok.copyBank
    | with_reducible apply Ok.extendDue
    | with_reducible apply Ok.prepareBank
    | with_reducible apply Ok.takeSlotBank
    | with_reducible apply Ok.verifyEnds
    | with_reducible apply Ok.whenS
    | with_reducible refine Ok.ite ?_ ?_
    | split

theorem Ok.fxSupplyClear {q : List Instr} (s : State) (h : Ok q s) : Ok q (Machine.fxSupplyClear s) := by
  unfold Machine.fxSupplyClear
  repeat' first
    | dsimp only
    | with_reducible assumption
    | intro _
    | with_reducible apply Ok.clkRecord
    | with_reducible apply Ok.eachN
    | with_reducible apply Ok.foldl
    | with_reducible apply Ok.modKs
    | with_reducible apply Ok.modSup
    | with_reducible apply Ok.raiseG
    | with_reducible apply Ok.sendGroup
    | with_reducible apply Ok.settleAll
    | with_reducible apply Ok.undefer
    | with_reducible apply Ok.wakeBanks
    | with_reducible apply Ok.whenS
    | with_reducible refine Ok.ite ?_ ?_
    | split

theorem Ok.fxSupplyFailureReset {q : List Instr} (s : State) (h : Ok q s) : Ok q (Machine.fxSupplyFailureReset s) := by
  unfold Machine.fxSupplyFailureReset
  repeat' first
    | with_reducible assumption
    | with_reducible apply Ok.engineReset

theorem Ok.fxRetReqRise {q : List Instr} (s : State) (h : Ok q s) : Ok q (Machine.fxRetReqRise s) := by
  unfold Machine.fxRetReqRise
  repeat' first
    | with_reducible assumption
    | intro _
    | with_reducible apply Ok.dcSetPause
    | with_reducible apply Ok.eachN
    | with_reducible apply Ok.modRet
    | with_reducible apply Ok.whenS

theorem Ok.fxRetentionEntry {q : List Instr} (s : State) (h : Ok q s) : Ok q (Machine.fxRetentionEntry s) := by
  unfold Machine.fxRetentionEntry
  repeat' first
    | dsimp only
    | with_reducible assumption
    | intro _
    | with_reducible apply Ok.eachN
    | with_reducible apply Ok.modClk
    | with_reducible apply Ok.modRet
    | with_reducible refine Ok.modSq _ _ _ ?_ ?_
    | with_reducible apply Ok.modTile
    | with_reducible apply Ok.setRun
    | with_reducible apply Ok.whenS
    | with_reducible refine Ok.ite ?_ ?_
    | split

theorem Ok.fxRetReqFall {q : List Instr} (s : State) (h : Ok q s) : Ok q (Machine.fxRetReqFall s) := by
  unfold Machine.fxRetReqFall
  repeat' first
    | dsimp only
    | with_reducible assumption
    | intro _
    | with_reducible apply Ok.modRet
    | with_reducible apply Ok.modStart
    | with_reducible apply Ok.whenS
    | with_reducible refine Ok.ite ?_ ?_

theorem Ok.fxWakeComplete {q : List Instr} (s : State) (h : Ok q s) : Ok q (Machine.fxWakeComplete s) := by
  unfold Machine.fxWakeComplete
  repeat' first
    | dsimp only
    | with_reducible assumption
    | intro _
    | with_reducible apply Ok.modRet
    | with_reducible apply Ok.raiseG
    | with_reducible apply Ok.whenS
    | with_reducible refine Ok.ite ?_ ?_
    | split

end Sys2Proof.Machine
end

