-- ==== Sys2Proof/Laws/KeepOwner.lean ====
section
/-!
SUPPORT. The operations of Machine/Owner.lean keep the invariant and leave the queue alone.
-/

set_option Elab.async false

namespace Sys2Proof.Machine

theorem Ok.ignoredRecord {q : List Instr} (who : Who) (prio : Nat) (accept : Bool) (s : State) (h : Ok q s) : Ok q (Machine.ignoredRecord who prio accept s) := by
  unfold Machine.ignoredRecord
  repeat' first
    | with_reducible assumption
    | intro _
    | with_reducible apply Ok.journal
    | (simp_all; done)

theorem Ok.claim {q : List Instr} (who : Who) (prio : BitVec 8) (s : State) (h : Ok q s) : Ok q (Machine.claim who prio s) := by
  unfold Machine.claim
  repeat' first
    | dsimp only
    | with_reducible assumption
    | intro _
    | with_reducible apply Ok.countDenied
    | with_reducible apply Ok.dropWrite
    | with_reducible apply Ok.ignoredRecord
    | with_reducible apply Ok.modOwner
    | with_reducible refine Ok.ite ?_ ?_
    | split

theorem Ok.claimPiece {q : List Instr} (who : Who) (mask val : Word) (s : State) (h : Ok q s) : Ok q (Machine.claimPiece who mask val s) := by
  unfold Machine.claimPiece
  repeat' first
    | dsimp only
    | with_reducible assumption
    | intro _
    | with_reducible apply Ok.claim
    | with_reducible apply Ok.dropPiece
    | with_reducible refine Ok.ite ?_ ?_
    | split

theorem Ok.fxOwnClaim {q : List Instr} (who : Who) (prio : BitVec 8) (s : State) (h : Ok q s) : Ok q (Machine.fxOwnClaim who prio s) := by
  unfold Machine.fxOwnClaim
  repeat' first
    | with_reducible assumption
    | with_reducible apply Ok.claim

theorem Ok.fxClaimWindowClose {q : List Instr} (s : State) (h : Ok q s) : Ok q (Machine.fxClaimWindowClose s) := by
  unfold Machine.fxClaimWindowClose
  repeat' first
    | dsimp only
    | with_reducible assumption
    | intro _
    | with_reducible apply Ok.modOwner
    | with_reducible apply Ok.raiseG
    | with_reducible apply Ok.whenS

theorem Ok.handover {q : List Instr} (target : BitVec 8) (s : State) (h : Ok q s) : Ok q (Machine.handover target s) := by
  unfold Machine.handover
  repeat' first
    | with_reducible assumption
    | intro _
    | with_reducible apply Ok.modOwner
    | with_reducible refine Ok.ite ?_ ?_

theorem Ok.fxOwnHandover {q : List Instr} (who : Who) (target : BitVec 8) (s : State) (h : Ok q s) : Ok q (Machine.fxOwnHandover who target s) := by
  unfold Machine.fxOwnHandover
  repeat' first
    | with_reducible assumption
    | intro _
    | with_reducible apply Ok.gateW
    | with_reducible apply Ok.handover

theorem Ok.accept {q : List Instr} (who : Who) (meets : Bool) (s : State) (h : Ok q s) : Ok q (Machine.accept who meets s) := by
  unfold Machine.accept
  repeat' first
    | dsimp only
    | with_reducible assumption
    | intro _
    | with_reducible apply Ok.countDenied
    | with_reducible apply Ok.dropWrite
    | with_reducible apply Ok.ignoredRecord
    | with_reducible apply Ok.modOwner
    | with_reducible apply Ok.raiseG
    | with_reducible refine Ok.ite ?_ ?_
    | split

theorem Ok.acceptPiece {q : List Instr} (who : Who) (meets : Bool) (mask val : Word) (s : State) (h : Ok q s) : Ok q (Machine.acceptPiece who meets mask val s) := by
  unfold Machine.acceptPiece
  repeat' first
    | dsimp only
    | with_reducible assumption
    | intro _
    | with_reducible apply Ok.accept
    | with_reducible apply Ok.dropPiece
    | with_reducible refine Ok.ite ?_ ?_
    | split

theorem Ok.fxOwnAccept {q : List Instr} (who : Who) (go meets : Bool) (s : State) (h : Ok q s) : Ok q (Machine.fxOwnAccept who go meets s) := by
  unfold Machine.fxOwnAccept
  repeat' first
    | dsimp only
    | with_reducible assumption
    | intro _
    | with_reducible apply Ok.acceptPiece
    | with_reducible refine Ok.ite ?_ ?_
    | split

theorem Ok.fxHandoverLapsed {q : List Instr} (s : State) (h : Ok q s) : Ok q (Machine.fxHandoverLapsed s) := by
  unfold Machine.fxHandoverLapsed
  repeat' first
    | with_reducible assumption
    | intro _
    | with_reducible apply Ok.modOwner
    | with_reducible apply Ok.raiseG
    | with_reducible apply Ok.whenS

end Sys2Proof.Machine
end

