-- ==== Sys2Proof/Laws/KeepStartUp.lean ====
section
/-!
SUPPORT. The operations of Machine/StartUp.lean keep the invariant and leave the queue alone.
-/

set_option Elab.async false

namespace Sys2Proof.Machine

theorem Ok.setPhase {q : List Instr} (p : Nat) (s : State) (h : Ok q s) : Ok q (Machine.setPhase p s) := by
  unfold Machine.setPhase
  repeat' first
    | with_reducible assumption
    | with_reducible apply Ok.modStart

theorem Ok.setFail {q : List Instr} (b : Nat) (s : State) (h : Ok q s) : Ok q (Machine.setFail b s) := by
  unfold Machine.setFail
  repeat' first
    | with_reducible assumption
    | with_reducible apply Ok.modStart

theorem Ok.fxEngineResetAssert {q : List Instr} (s : State) (h : Ok q s) : Ok q (Machine.fxEngineResetAssert s) := by
  unfold Machine.fxEngineResetAssert
  repeat' first
    | with_reducible assumption
    | with_reducible apply Ok.engineReset

theorem Ok.fxEngineResetRelease {q : List Instr} (strap : BitVec 16) (s : State) (h : Ok q s) : Ok q (Machine.fxEngineResetRelease strap s) := by
  unfold Machine.fxEngineResetRelease
  repeat' first
    | dsimp only
    | with_reducible assumption
    | intro _
    | with_reducible apply Ok.modOwn
    | with_reducible apply Ok.modStart
    | with_reducible apply Ok.whenS

theorem Ok.fxOscStartTimeout {q : List Instr} (s : State) (h : Ok q s) : Ok q (Machine.fxOscStartTimeout s) := by
  unfold Machine.fxOscStartTimeout
  repeat' first
    | with_reducible assumption
    | intro _
    | with_reducible apply Ok.modStart
    | with_reducible apply Ok.setFail
    | with_reducible apply Ok.whenS

theorem Ok.fxOscillatorReady {q : List Instr} (s : State) (h : Ok q s) : Ok q (Machine.fxOscillatorReady s) := by
  unfold Machine.fxOscillatorReady
  repeat' first
    | dsimp only
    | with_reducible assumption
    | intro _
    | with_reducible apply Ok.modStart
    | with_reducible apply Ok.openWindow
    | with_reducible apply Ok.setPhase
    | with_reducible apply Ok.whenS
    | with_reducible refine Ok.ite ?_ ?_
    | split

theorem Ok.fxStartupClearDone {q : List Instr} (s : State) (h : Ok q s) : Ok q (Machine.fxStartupClearDone s) := by
  unfold Machine.fxStartupClearDone
  repeat' first
    | dsimp only
    | with_reducible assumption
    | intro _
    | with_reducible apply Ok.clkRecord
    | with_reducible apply Ok.modStart
    | with_reducible apply Ok.setPhase
    | with_reducible apply Ok.timeMark
    | with_reducible apply Ok.whenS
    | with_reducible refine Ok.ite ?_ ?_

theorem Ok.failCs {q : List Instr} (c : Nat) (s : State) (h : Ok q s) : Ok q (Machine.failCs c s) := by
  unfold Machine.failCs
  repeat' first
    | with_reducible assumption
    | intro _
    | with_reducible apply Ok.journal
    | with_reducible apply Ok.raiseG
    | with_reducible apply Ok.setCs
    | with_reducible apply Ok.setFail
    | (simp_all; done)

theorem Ok.fxKnownAnswerTestsDone {q : List Instr} (tileFail : BitVec 24) (csFail : BitVec 12) (hashOk : Bool) (s : State) (h : Ok q s) : Ok q (Machine.fxKnownAnswerTestsDone tileFail csFail hashOk s) := by
  unfold Machine.fxKnownAnswerTestsDone
  repeat' first
    | dsimp only
    | with_reducible assumption
    | intro _
    | with_reducible apply Ok.eachN
    | with_reducible apply Ok.failCs
    | with_reducible apply Ok.modGen
    | with_reducible apply Ok.modRet
    | with_reducible apply Ok.modStart
    | with_reducible apply Ok.quarantine
    | with_reducible apply Ok.setFail
    | with_reducible apply Ok.setPhase
    | with_reducible apply Ok.whenS
    | with_reducible apply Ok.idS
    | with_reducible refine Ok.ite ?_ ?_
    | split

theorem Ok.fxFuseReadDone {q : List Instr} (f : FuseWord) (s : State) (h : Ok q s) : Ok q (Machine.fxFuseReadDone f s) := by
  unfold Machine.fxFuseReadDone
  repeat' first
    | dsimp only
    | with_reducible assumption
    | intro _
    | with_reducible refine Ok.modBoot _ ?_ ?_
    | with_reducible apply Ok.modIdent
    | with_reducible apply Ok.modRoots
    | with_reducible apply Ok.modStart
    | with_reducible apply Ok.setFail
    | with_reducible apply Ok.setPhase
    | with_reducible apply Ok.whenS
    | with_reducible refine Ok.ite ?_ ?_

theorem Ok.fxIdentityReady {q : List Instr} (okC okQ : Bool) (s : State) (h : Ok q s) : Ok q (Machine.fxIdentityReady okC okQ s) := by
  unfold Machine.fxIdentityReady
  repeat' first
    | dsimp only
    | with_reducible assumption
    | intro _
    | with_reducible apply Ok.failChecks
    | with_reducible apply Ok.modIdent
    | with_reducible apply Ok.setPhase
    | with_reducible apply Ok.whenS
    | with_reducible refine Ok.ite ?_ ?_
    | split

theorem Ok.fxFirstServicePoint {q : List Instr} (s : State) (h : Ok q s) : Ok q (Machine.fxFirstServicePoint s) := by
  unfold Machine.fxFirstServicePoint
  repeat' first
    | dsimp only
    | with_reducible assumption
    | intro _
    | with_reducible apply Ok.enterCourse
    | with_reducible refine Ok.modBoot _ ?_ ?_
    | with_reducible apply Ok.modOwner
    | with_reducible apply Ok.modStart
    | with_reducible apply Ok.setFail
    | with_reducible apply Ok.setPhase
    | with_reducible apply Ok.whenS
    | with_reducible refine Ok.ite ?_ ?_

theorem Ok.bootViol {q : List Instr} (p : Nat × Nat) (s : State) (h : Ok q s) : Ok q (Machine.bootViol p s) := by
  unfold Machine.bootViol
  repeat' first
    | with_reducible assumption
    | with_reducible apply Ok.violP

theorem Ok.fxBootSlotPoll {q : List Instr} (resp : Resp) (s : State) (h : Ok q s) : Ok q (Machine.fxBootSlotPoll resp s) := by
  unfold Machine.fxBootSlotPoll
  repeat' first
    | dsimp only
    | with_reducible assumption
    | intro _
    | with_reducible apply Ok.bootViol
    | with_reducible apply Ok.busErrorOf
    | with_reducible apply Ok.emitRd
    | with_reducible apply Ok.foldl
    | with_reducible refine Ok.modBoot _ ?_ ?_
    | with_reducible apply Ok.whenS
    | with_reducible refine Ok.ite ?_ ?_
    | split

theorem Ok.bootTake {q : List Instr} (s : State) (h : Ok q s) : Ok q (Machine.bootTake s) := by
  unfold Machine.bootTake
  repeat' first
    | dsimp only
    | with_reducible assumption
    | intro _
    | with_reducible refine Ok.modBoot _ ?_ ?_
    | (rename_i hh; linear_combination hh)

theorem Ok.bootAnswer {q : List Instr} (tag status detail consumed : Nat) (s : State) (h : Ok q s) : Ok q (Machine.bootAnswer tag status detail consumed s) := by
  unfold Machine.bootAnswer
  repeat' first
    | dsimp only
    | with_reducible assumption
    | with_reducible apply Ok.bootRecord
    | with_reducible apply Ok.bootSettle
    | with_reducible apply Ok.bootTake

theorem Ok.fxBootRequest {q : List Instr} (s : State) (h : Ok q s) : Ok q (Machine.fxBootRequest s) := by
  unfold Machine.fxBootRequest
  repeat' first
    | dsimp only
    | with_reducible assumption
    | intro _
    | with_reducible apply Ok.bootAnswer
    | with_reducible apply Ok.bootTake
    | with_reducible apply Ok.modReqs
    | with_reducible apply Ok.modSch
    | with_reducible apply Ok.nextFree
    | with_reducible apply Ok.whenS
    | with_reducible refine Ok.ite ?_ ?_
    | split

theorem Ok.fxBootExtend {q : List Instr} (resp : Resp) (s : State) (h : Ok q s) : Ok q (Machine.fxBootExtend resp s) := by
  unfold Machine.fxBootExtend
  repeat' first
    | dsimp only
    | with_reducible assumption
    | intro _
    | with_reducible apply Ok.bootAnswer
    | with_reducible apply Ok.bootViol
    | with_reducible apply Ok.busErrorOf
    | with_reducible apply Ok.emitRd
    | with_reducible apply Ok.extendOrDefer
    | with_reducible apply Ok.ksErr
    | with_reducible apply Ok.ksEvent
    | with_reducible apply Ok.nextFree
    | with_reducible apply Ok.whenS
    | with_reducible refine Ok.ite ?_ ?_
    | split

theorem Ok.bootOff {q : List Instr} (s : State) (h : Ok q s) : Ok q (Machine.bootOff s) := by
  unfold Machine.bootOff
  repeat' first
    | dsimp only
    | with_reducible assumption
    | intro _
    | with_reducible apply Ok.bootSettle
    | with_reducible refine Ok.modBoot _ ?_ ?_
    | with_reducible apply Ok.modOwn
    | with_reducible refine Ok.ite ?_ ?_

theorem Ok.fxBootEnClear {q : List Instr} (who : Who) (s : State) (h : Ok q s) : Ok q (Machine.fxBootEnClear who s) := by
  unfold Machine.fxBootEnClear
  repeat' first
    | with_reducible assumption
    | intro _
    | with_reducible apply Ok.bootOff
    | with_reducible apply Ok.gateW

end Sys2Proof.Machine
end

