-- ==== Sys2Proof/Laws/KeepRegRead.lean ====
section
/-!
SUPPORT. The operations of Machine/RegRead.lean keep the invariant and leave the queue alone.
-/

set_option Elab.async false

namespace Sys2Proof.Machine

theorem Ok.dropLatch {q : List Instr} (who : Who) (off : Nat) (s : State) (h : Ok q s) : Ok q (Machine.dropLatch who off s) := by
  unfold Machine.dropLatch
  repeat' first
    | dsimp only
    | with_reducible assumption
    | intro _
    | with_reducible apply Ok.modLatch
    | with_reducible refine Ok.ite ?_ ?_
    | split

theorem Ok.setLatch {q : List Instr} (who : Who) (off : Nat) (v : Word) (s : State) (h : Ok q s) : Ok q (Machine.setLatch who off v s) := by
  unfold Machine.setLatch
  repeat' first
    | with_reducible assumption
    | with_reducible apply Ok.dropLatch
    | with_reducible apply Ok.modLatch

theorem Ok.readHalf {q : List Instr} (who : Who) (r : Reg) (hi : Bool) (s : State) (h : Ok q s) : Ok q (Machine.readHalf who r hi s).2 := by
  unfold Machine.readHalf
  repeat' first
    | dsimp only
    | with_reducible assumption
    | with_reducible apply Ok.dropLatch
    | split

theorem Ok.readHalf_eq {q : List Instr} {who : Who} {r : Reg} {hi : Bool} {s : State} {y : Word} {t : State} (e : Machine.readHalf who r hi s = (y, t)) (h : Ok q s) : Ok q t := by
  have := Ok.readHalf who r hi s h
  rwa [e] at this

theorem Ok.setLatches {q : List Instr} (who : Who) (r : Reg) (whole hi : Bool) (s : State) (h : Ok q s) : Ok q (Machine.setLatches who r whole hi s) := by
  unfold Machine.setLatches
  repeat' first
    | with_reducible assumption
    | intro _
    | with_reducible apply Ok.setLatch
    | with_reducible apply Ok.foldl
    | with_reducible refine Ok.ite ?_ ?_

theorem Ok.readReg {q : List Instr} (who : Who) (r : Reg) (whole hi : Bool) (s : State) (h : Ok q s) : Ok q (Machine.readReg who r whole hi s).2 := by
  unfold Machine.readReg
  repeat' first
    | dsimp only
    | with_reducible assumption
    | with_reducible apply Ok.setLatches
    | with_reducible apply Ok.readHalf
    | split

theorem Ok.readReg_eq {q : List Instr} {who : Who} {r : Reg} {whole hi : Bool} {s : State} {y : Word} {t : State} (e : Machine.readReg who r whole hi s = (y, t)) (h : Ok q s) : Ok q t := by
  have := Ok.readReg who r whole hi s h
  rwa [e] at this

theorem Ok.zeroRead {q : List Instr} (who : Who) (off : Nat) (s : State) (h : Ok q s) : Ok q (Machine.zeroRead who off s) := by
  unfold Machine.zeroRead
  repeat' first
    | dsimp only
    | with_reducible assumption
    | intro _
    | with_reducible apply Ok.debugRead
    | with_reducible apply Ok.debugRecord
    | with_reducible apply Ok.emit
    | with_reducible refine Ok.ite ?_ ?_
    | split

theorem Ok.readAligned {q : List Instr} (who : Who) (whole : Bool) (off : Nat) (done : Word → Word) (s : State) (h : Ok q s) : Ok q (Machine.readAligned who whole off done s) := by
  unfold Machine.readAligned
  repeat' first
    | dsimp only
    | with_reducible assumption
    | intro _
    | with_reducible apply Ok.debugRead
    | with_reducible apply Ok.emit
    | with_reducible apply Ok.rawRead
    | with_reducible apply Ok.readReg
    | with_reducible apply Ok.zeroRead
    | with_reducible refine Ok.ite ?_ ?_
    | split

theorem Ok.readPort {q : List Instr} (who : Who) (size : AccSize) (off : Nat) (s : State) (h : Ok q s) : Ok q (Machine.readPort who size off s) := by
  unfold Machine.readPort
  repeat' first
    | dsimp only
    | with_reducible assumption
    | intro _
    | with_reducible apply Ok.fxJournalRead
    | with_reducible apply Ok.readAligned
    | with_reducible apply Ok.zeroRead
    | with_reducible refine Ok.ite ?_ ?_
    | split

theorem Ok.fxStatTimeLowRead {q : List Instr} (who : Who) (s : State) (h : Ok q s) : Ok q (Machine.fxStatTimeLowRead who s) := by
  unfold Machine.fxStatTimeLowRead
  repeat' first
    | with_reducible assumption
    | with_reducible apply Ok.readPort

theorem Ok.fxCaptureReadLatch {q : List Instr} (who : Who) (off : BitVec 22) (s : State) (h : Ok q s) : Ok q (Machine.fxCaptureReadLatch who off s) := by
  unfold Machine.fxCaptureReadLatch
  repeat' first
    | with_reducible assumption
    | intro _
    | with_reducible apply Ok.readPort
    | with_reducible apply Ok.whenS

theorem Ok.fxDebugRead {q : List Instr} (who : Who) (size : AccSize) (off : BitVec 22) (s : State) (h : Ok q s) : Ok q (Machine.fxDebugRead who size off s) := by
  unfold Machine.fxDebugRead
  repeat' first
    | with_reducible assumption
    | with_reducible apply Ok.readPort

end Sys2Proof.Machine
end

