-- ==== Sys2Proof/Laws/KeepRegWrite.lean ====
section
/-!
SUPPORT. The operations of Machine/RegWrite.lean keep the invariant and leave the queue alone.
-/

set_option Elab.async false

namespace Sys2Proof.Machine

theorem Ok.keepOwn {q : List Instr} (r : Reg) (mask val : Word) (s : State) (h : Ok q s) : Ok q (Machine.keepOwn r mask val s) := by
  unfold Machine.keepOwn
  repeat' first
    | with_reducible assumption
    | with_reducible apply Ok.modNotice
    | with_reducible apply Ok.modOwn
    | with_reducible apply Ok.modTcmp
    | split

theorem Ok.stageWrite {q : List Instr} (who : Who) (r : Reg) (mask val : Word) (s : State) (h : Ok q s) : Ok q (Machine.stageWrite who r mask val s) := by
  unfold Machine.stageWrite
  repeat' first
    | with_reducible assumption
    | intro _
    | with_reducible apply Ok.dropPiece
    | with_reducible apply Ok.modGen
    | with_reducible refine Ok.ite ?_ ?_

theorem Ok.timeCtlWrite {q : List Instr} (mask val : Word) (s : State) (h : Ok q s) : Ok q (Machine.timeCtlWrite mask val s) := by
  unfold Machine.timeCtlWrite
  repeat' first
    | dsimp only
    | with_reducible assumption
    | intro _
    | with_reducible apply Ok.adjust
    | with_reducible apply Ok.armCapt
    | with_reducible apply Ok.armSync
    | with_reducible apply Ok.setRun
    | with_reducible refine Ok.ite ?_ ?_

theorem Ok.gateBits {q : List Instr} (who : Who) (mask val : Word) (s : State) (h : Ok q s) : Ok q (Machine.gateBits who mask val s) := by
  unfold Machine.gateBits
  repeat' first
    | dsimp only
    | with_reducible assumption
    | intro _
    | with_reducible apply Ok.dropPiece
    | with_reducible apply Ok.gateEnd
    | with_reducible apply Ok.gateStart
    | with_reducible apply Ok.foldl
    | with_reducible refine Ok.ite ?_ ?_

theorem Ok.clkmonWrite {q : List Instr} (who : Who) (mask val : Word) (s : State) (h : Ok q s) : Ok q (Machine.clkmonWrite who mask val s) := by
  unfold Machine.clkmonWrite
  repeat' first
    | dsimp only
    | with_reducible assumption
    | intro _
    | with_reducible apply Ok.clkmonEn
    | with_reducible apply Ok.clkmonRelease
    | with_reducible apply Ok.dropPiece
    | with_reducible apply Ok.modOwn
    | with_reducible refine Ok.ite ?_ ?_

theorem Ok.genCommand {q : List Instr} (cmd : Nat) (s : State) (h : Ok q s) : Ok q (Machine.genCommand cmd s) := by
  unfold Machine.genCommand
  repeat' first
    | with_reducible assumption
    | intro _
    | with_reducible apply Ok.genCancel
    | with_reducible apply Ok.genCommit
    | with_reducible apply Ok.genDiscard
    | with_reducible apply Ok.genLoad
    | with_reducible apply Ok.genRollback
    | with_reducible apply Ok.whenIdle
    | split

theorem Ok.courseCommand {q : List Instr} (cmd : Nat) (s : State) (h : Ok q s) : Ok q (Machine.courseCommand cmd s) := by
  unfold Machine.courseCommand
  repeat' first
    | with_reducible assumption
    | with_reducible apply Ok.abandon
    | with_reducible apply Ok.courseAccept
    | with_reducible apply Ok.courseReform
    | with_reducible apply Ok.leaveCourse
    | split

theorem Ok.ksCommand {q : List Instr} (cmd : Nat) (s : State) (h : Ok q s) : Ok q (Machine.ksCommand cmd s) := by
  unfold Machine.ksCommand
  repeat' first
    | with_reducible assumption
    | intro _
    | with_reducible apply Ok.ksAbort
    | with_reducible apply Ok.ksCmd
    | with_reducible apply Ok.ksCommit
    | with_reducible apply Ok.ksExtend
    | with_reducible apply Ok.ksOpenAs
    | with_reducible apply Ok.ksZeroize
    | split

theorem Ok.noticeSetup {q : List Instr} (who : Who) (r : NoticeReg) (mask val : Word) (s : State) (h : Ok q s) : Ok q (Machine.noticeSetup who r mask val s) := by
  unfold Machine.noticeSetup
  repeat' first
    | dsimp only
    | with_reducible assumption
    | intro _
    | with_reducible apply Ok.dropPiece
    | with_reducible refine Ok.modJrn _ ?_ ?_ ?_
    | with_reducible apply Ok.modOwn
    | with_reducible refine Ok.ite ?_ ?_

theorem Ok.noticeHead {q : List Instr} (new : Nat) (s : State) (h : Ok q s) : Ok q (Machine.noticeHead new s) := by
  unfold Machine.noticeHead
  repeat' first
    | dsimp only
    | with_reducible assumption
    | intro _
    | with_reducible refine Ok.modJrn _ ?_ ?_ ?_

theorem Ok.writeOwn {q : List Instr} (who : Who) (r : Reg) (mask val : Word) (s : State) (h : Ok q s) : Ok q (Machine.writeOwn who r mask val s) := by
  unfold Machine.writeOwn
  repeat' first
    | dsimp only
    | with_reducible assumption
    | intro _
    | with_reducible apply Ok.bootOff
    | with_reducible apply Ok.clkmonWrite
    | with_reducible apply Ok.courseCommand
    | with_reducible apply Ok.crsSnap
    | with_reducible apply Ok.csRejoin
    | with_reducible apply Ok.eachN
    | with_reducible apply Ok.gateBits
    | with_reducible apply Ok.genCommand
    | with_reducible apply Ok.handover
    | with_reducible apply Ok.jrnFlush
    | with_reducible apply Ok.keepOwn
    | with_reducible apply Ok.noticeHead
    | with_reducible apply Ok.noticeSetup
    | with_reducible apply Ok.ownTrst
    | with_reducible apply Ok.tileRejoin
    | with_reducible apply Ok.timeCtlWrite
    | with_reducible refine Ok.ite ?_ ?_
    | split

theorem Ok.writeStat {q : List Instr} (r : Reg) (w : Word) (s : State) (h : Ok q s) : Ok q (Machine.writeStat r w s) := by
  unfold Machine.writeStat
  repeat' first
    | dsimp only
    | with_reducible assumption
    | intro _
    | with_reducible apply Ok.modBecnt
    | with_reducible apply Ok.modBuserr
    | with_reducible apply Ok.modCe
    | with_reducible apply Ok.modClk
    | with_reducible refine Ok.modCrs _ ?_ ?_
    | with_reducible apply Ok.modDenied
    | with_reducible apply Ok.modEvPend
    | with_reducible refine Ok.modJrn _ ?_ ?_ ?_
    | with_reducible apply Ok.modSch
    | with_reducible apply Ok.modSup
    | with_reducible apply Ok.modTile
    | with_reducible apply Ok.modTime
    | with_reducible refine Ok.ite ?_ ?_
    | split

theorem Ok.writeKs {q : List Instr} (who : Who) (r : Reg) (mask val : Word) (s : State) (h : Ok q s) : Ok q (Machine.writeKs who r mask val s) := by
  unfold Machine.writeKs
  repeat' first
    | dsimp only
    | with_reducible assumption
    | intro _
    | with_reducible apply Ok.eachN
    | with_reducible apply Ok.esRestart
    | with_reducible apply Ok.keepOwn
    | with_reducible apply Ok.ksBank
    | with_reducible apply Ok.ksCommand
    | with_reducible refine Ok.modEs _ ?_ (fun hes => ?_)
    | with_reducible apply Ok.modKs
    | with_reducible apply Ok.modMeas
    | with_reducible apply Ok.modOwn
    | with_reducible apply Ok.rbgRestart
    | with_reducible refine Ok.ite ?_ ?_
    | split

theorem Ok.writeAcc {q : List Instr} (r : Reg) (w : Word) (s : State) (h : Ok q s) : Ok q (Machine.writeAcc r w s) := by
  unfold Machine.writeAcc
  repeat' first
    | with_reducible assumption
    | intro _
    | with_reducible apply Ok.modPvcnt
    | with_reducible apply Ok.modPviol
    | with_reducible refine Ok.ite ?_ ?_
    | split

theorem Ok.writeTenant {q : List Instr} (r : Reg) (mask w : Word) (s : State) (h : Ok q s) : Ok q (Machine.writeTenant r mask w s) := by
  unfold Machine.writeTenant
  repeat' first
    | dsimp only
    | with_reducible assumption
    | intro _
    | with_reducible apply Ok.fpSnap
    | with_reducible apply Ok.ledgerSnap
    | with_reducible refine Ok.modTen _ _ ?_ ?_ ?_ ?_
    | with_reducible apply Ok.resetTenant
    | with_reducible refine Ok.ite ?_ ?_
    | split

theorem Ok.writeRing {q : List Instr} (who : Who) (r : Reg) (mask val : Word) (s : State) (h : Ok q s) : Ok q (Machine.writeRing who r mask val s) := by
  unfold Machine.writeRing
  repeat' first
    | dsimp only
    | with_reducible assumption
    | intro _
    | with_reducible apply Ok.cqEnWrite
    | with_reducible apply Ok.cqFaultClear
    | with_reducible apply Ok.cqSetup
    | with_reducible apply Ok.modCq
    | with_reducible refine Ok.modSq _ _ _ ?_ ?_
    | with_reducible apply Ok.sqBaseWrite
    | with_reducible apply Ok.sqCfgWrite
    | with_reducible apply Ok.sqCtlWrite
    | with_reducible apply Ok.sqFaultClear
    | with_reducible apply Ok.sqSchedWrite
    | with_reducible refine Ok.ite ?_ ?_
    | split

theorem Ok.writeDoorbell {q : List Instr} (who : Who) (r : Reg) (mask val : Word) (s : State) (h : Ok q s) : Ok q (Machine.writeDoorbell who r mask val s) := by
  unfold Machine.writeDoorbell
  repeat' first
    | dsimp only
    | with_reducible assumption
    | intro _
    | with_reducible apply Ok.cqHead
    | with_reducible apply Ok.dbWrite
    | with_reducible apply Ok.dropPiece
    | with_reducible refine Ok.ite ?_ ?_
    | split

theorem Ok.writeChan {q : List Instr} (who : Who) (r : Reg) (mask val : Word) (s : State) (h : Ok q s) : Ok q (Machine.writeChan who r mask val s) := by
  unfold Machine.writeChan
  repeat' first
    | dsimp only
    | with_reducible assumption
    | intro _
    | with_reducible apply Ok.dcConfig
    | with_reducible apply Ok.dcCtlWrite
    | with_reducible apply Ok.dcHead
    | with_reducible apply Ok.dropPiece
    | with_reducible apply Ok.modDc
    | with_reducible refine Ok.modTen _ _ ?_ ?_ ?_ ?_
    | with_reducible refine Ok.ite ?_ ?_
    | split

theorem Ok.writeWord {q : List Instr} (who : Who) (r : Reg) (mask val : Word) (s : State) (h : Ok q s) : Ok q (Machine.writeWord who r mask val s) := by
  unfold Machine.writeWord
  repeat' first
    | with_reducible assumption
    | intro _
    | with_reducible apply Ok.dropPiece
    | with_reducible apply Ok.stageWrite
    | with_reducible apply Ok.writeAcc
    | with_reducible apply Ok.writeChan
    | with_reducible apply Ok.writeDoorbell
    | with_reducible apply Ok.writeKs
    | with_reducible apply Ok.writeOwn
    | with_reducible apply Ok.writeRing
    | with_reducible apply Ok.writeStat
    | with_reducible apply Ok.writeTenant
    | with_reducible refine Ok.ite ?_ ?_
    | split

theorem Ok.holdLow {q : List Instr} (who : Who) (r : Reg) (val : Word) (s : State) (h : Ok q s) : Ok q (Machine.holdLow who r val s) := by
  unfold Machine.holdLow
  repeat' first
    | dsimp only
    | with_reducible assumption
    | intro _
    | with_reducible apply Ok.dropPiece
    | with_reducible apply Ok.modHeld
    | with_reducible refine Ok.ite ?_ ?_

theorem Ok.writeHigh {q : List Instr} (who : Who) (r : Reg) (val : Word) (s : State) (h : Ok q s) : Ok q (Machine.writeHigh who r val s) := by
  unfold Machine.writeHigh
  repeat' first
    | with_reducible assumption
    | with_reducible apply Ok.modHeld
    | with_reducible apply Ok.writeWord
    | split

theorem Ok.writeReg {q : List Instr} (who : Who) (r : Reg) (whole hi : Bool) (value : Word) (s : State) (h : Ok q s) : Ok q (Machine.writeReg who r whole hi value s) := by
  unfold Machine.writeReg
  repeat' first
    | dsimp only
    | with_reducible assumption
    | intro _
    | with_reducible apply Ok.acceptPiece
    | with_reducible apply Ok.claimPiece
    | with_reducible apply Ok.gateP
    | with_reducible apply Ok.holdLow
    | with_reducible apply Ok.writeHigh
    | with_reducible apply Ok.writeWord
    | with_reducible refine Ok.ite ?_ ?_
    | split

theorem Ok.dropEarly {q : List Instr} (off : Nat) (f : State → State) (s : State) (h : Ok q s) (hf : ∀ x0, Ok q x0 → Ok q (f x0)) : Ok q (Machine.dropEarly off f s) := by
  unfold Machine.dropEarly
  repeat' first
    | with_reducible assumption
    | intro _
    | with_reducible refine Ok.ite ?_ ?_
    | (simp_all; done)

theorem Ok.writePort {q : List Instr} (who : Who) (size : AccSize) (off : Nat) (value : Word) (s : State) (h : Ok q s) : Ok q (Machine.writePort who size off value s) := by
  unfold Machine.writePort
  repeat' first
    | dsimp only
    | with_reducible assumption
    | intro _
    | with_reducible apply Ok.dropEarly
    | with_reducible apply Ok.dropSubword
    | with_reducible apply Ok.dropWrite
    | with_reducible apply Ok.writeReg
    | with_reducible refine Ok.ite ?_ ?_
    | split

theorem Ok.fxRegisterWrite {q : List Instr} (who : Who) (size : AccSize) (off : BitVec 22) (value : Word) (s : State) (h : Ok q s) : Ok q (Machine.fxRegisterWrite who size off value s) := by
  unfold Machine.fxRegisterWrite
  repeat' first
    | with_reducible assumption
    | with_reducible apply Ok.writePort

theorem Ok.fxJournalFlush {q : List Instr} (who : Who) (s : State) (h : Ok q s) : Ok q (Machine.fxJournalFlush who s) := by
  unfold Machine.fxJournalFlush
  repeat' first
    | with_reducible assumption
    | intro _
    | with_reducible apply Ok.gateW
    | with_reducible apply Ok.jrnFlush

theorem Ok.fxNoticeHeadWrite {q : List Instr} (who : Who) (head : BitVec 13) (s : State) (h : Ok q s) : Ok q (Machine.fxNoticeHeadWrite who head s) := by
  unfold Machine.fxNoticeHeadWrite
  repeat' first
    | with_reducible assumption
    | intro _
    | with_reducible apply Ok.gateW
    | with_reducible apply Ok.noticeHead

theorem Ok.fxNoticeRingSetup {q : List Instr} (who : Who) (r : NoticeReg) (v : Word) (s : State) (h : Ok q s) : Ok q (Machine.fxNoticeRingSetup who r v s) := by
  unfold Machine.fxNoticeRingSetup
  repeat' first
    | with_reducible assumption
    | intro _
    | with_reducible apply Ok.gateW
    | with_reducible apply Ok.noticeSetup

end Sys2Proof.Machine
end

