-- ==== Sys2Proof/Laws/Pending.lean ====
section
/-!
SUPPORT. A global event that is pending stays pending through the operations that move, stop or end work.
-/

set_option Elab.async false

namespace Sys2Proof.Machine

/-- Global event e is pending. -/
def Pend (e : Nat) (s : State) : Prop := bitOf s.evPend e = true

theorem Pend.modTen {e0 : Nat} (n : Nat) (f : Tenant → Tenant) (s : State) (hs : Pend e0 s) : Pend e0 (Machine.modTen n f s) := hs
theorem Pend.modSq {e0 : Nat} (n m : Nat) (f : Sq → Sq) (s : State) (hs : Pend e0 s) : Pend e0 (Machine.modSq n m f s) := hs
theorem Pend.modCq {e0 : Nat} (n m : Nat) (f : Cq → Cq) (s : State) (hs : Pend e0 s) : Pend e0 (Machine.modCq n m f s) := hs
theorem Pend.modDc {e0 : Nat} (k : Nat) (f : Chan → Chan) (s : State) (hs : Pend e0 s) : Pend e0 (Machine.modDc k f s) := hs
theorem Pend.modTile {e0 : Nat} (t : Nat) (f : Tile → Tile) (s : State) (hs : Pend e0 s) : Pend e0 (Machine.modTile t f s) := hs
theorem Pend.setCs {e0 : Nat} (c : Nat) (v : CsSt) (s : State) (hs : Pend e0 s) : Pend e0 (Machine.setCs c v s) := hs
theorem Pend.modKs {e0 : Nat} (f : KeyStore → KeyStore) (s : State) (hs : Pend e0 s) : Pend e0 (Machine.modKs f s) := hs
theorem Pend.modSlot {e0 : Nat} (i : Nat) (f : Slot → Slot) (s : State) (hs : Pend e0 s) : Pend e0 (Machine.modSlot i f s) := hs
theorem Pend.modRbg {e0 : Nat} (k : Nat) (f : Rbg → Rbg) (s : State) (hs : Pend e0 s) : Pend e0 (Machine.modRbg k f s) := hs
theorem Pend.setStream {e0 : Nat} (i : Nat) (v : Option Stream) (s : State) (hs : Pend e0 s) : Pend e0 (Machine.setStream i v s) := hs
theorem Pend.setCacheEnt {e0 : Nat} (h : Nat) (v : Option CacheEnt) (s : State) (hs : Pend e0 s) : Pend e0 (Machine.setCacheEnt h v s) := hs
theorem Pend.modCrs {e0 : Nat} (f : Course → Course) (s : State) (hs : Pend e0 s) : Pend e0 (Machine.modCrs f s) := hs
theorem Pend.modPeer {e0 : Nat} (p : Nat) (f : Peer → Peer) (s : State) (hs : Pend e0 s) : Pend e0 (Machine.modPeer p f s) := hs
theorem Pend.modOwn {e0 : Nat} (f : OwnRegs → OwnRegs) (s : State) (hs : Pend e0 s) : Pend e0 (Machine.modOwn f s) := hs
theorem Pend.modTcmp {e0 : Nat} (j : Nat) (f : Tcmp → Tcmp) (s : State) (hs : Pend e0 s) : Pend e0 (Machine.modTcmp j f s) := hs
theorem Pend.modGen {e0 : Nat} (f : Gen → Gen) (s : State) (hs : Pend e0 s) : Pend e0 (Machine.modGen f s) := hs
theorem Pend.modJrn {e0 : Nat} (f : Journal → Journal) (s : State) (hs : Pend e0 s) : Pend e0 (Machine.modJrn f s) := hs
theorem Pend.modTime {e0 : Nat} (f : TimeUnit → TimeUnit) (s : State) (hs : Pend e0 s) : Pend e0 (Machine.modTime f s) := hs
theorem Pend.modClk {e0 : Nat} (f : Clocks → Clocks) (s : State) (hs : Pend e0 s) : Pend e0 (Machine.modClk f s) := hs
theorem Pend.modStart {e0 : Nat} (f : Start → Start) (s : State) (hs : Pend e0 s) : Pend e0 (Machine.modStart f s) := hs
theorem Pend.modOwner {e0 : Nat} (f : Owner → Owner) (s : State) (hs : Pend e0 s) : Pend e0 (Machine.modOwner f s) := hs
theorem Pend.modMeas {e0 : Nat} (f : Meas → Meas) (s : State) (hs : Pend e0 s) : Pend e0 (Machine.modMeas f s) := hs
theorem Pend.modEs {e0 : Nat} (f : Entropy → Entropy) (s : State) (hs : Pend e0 s) : Pend e0 (Machine.modEs f s) := hs
theorem Pend.modBoot {e0 : Nat} (f : Boot → Boot) (s : State) (hs : Pend e0 s) : Pend e0 (Machine.modBoot f s) := hs
theorem Pend.modFp {e0 : Nat} (f : FramePort → FramePort) (s : State) (hs : Pend e0 s) : Pend e0 (Machine.modFp f s) := hs
theorem Pend.modSup {e0 : Nat} (f : Supply → Supply) (s : State) (hs : Pend e0 s) : Pend e0 (Machine.modSup f s) := hs
theorem Pend.modSch {e0 : Nat} (f : Sched → Sched) (s : State) (hs : Pend e0 s) : Pend e0 (Machine.modSch f s) := hs
theorem Pend.modReq {e0 : Nat} (id : Nat) (f : Req → Req) (s : State) (hs : Pend e0 s) : Pend e0 (Machine.modReq id f s) := hs
theorem Pend.dropReq {e0 : Nat} (id : Nat) (s : State) (hs : Pend e0 s) : Pend e0 (Machine.dropReq id s) := hs
theorem Pend.emit {e0 : Nat} (o : Out) (s : State) (hs : Pend e0 s) : Pend e0 (Machine.emit o s) := hs
theorem Pend.nextFree {e0 : Nat} (s : State) (hs : Pend e0 s) : Pend e0 (Machine.nextFree s) := hs
theorem Pend.modRoots {e0 : Nat} (f : Roots → Roots) (s : State) (hs : Pend e0 s) : Pend e0 (Machine.modRoots f s) := hs
theorem Pend.modIdent {e0 : Nat} (f : Ident → Ident) (s : State) (hs : Pend e0 s) : Pend e0 (Machine.modIdent f s) := hs
theorem Pend.modRet {e0 : Nat} (f : Retention → Retention) (s : State) (hs : Pend e0 s) : Pend e0 (Machine.modRet f s) := hs
theorem Pend.modDenied {e0 : Nat} (f : Cnt32 → Cnt32) (s : State) (hs : Pend e0 s) : Pend e0 (Machine.modDenied f s) := hs
theorem Pend.modEvPend {e0 : Nat} {s : State} (f : Word → Word) (h : Pend e0 s) (hf : ∀ w, bitOf w e0 = true → bitOf (f w) e0 = true) :
    Pend e0 (Machine.modEvPend f s) := hf _ h
theorem Pend.modBuserr {e0 : Nat} (f : Capture → Capture) (s : State) (hs : Pend e0 s) : Pend e0 (Machine.modBuserr f s) := hs
theorem Pend.modBecnt {e0 : Nat} (f : Cnt32 → Cnt32) (s : State) (hs : Pend e0 s) : Pend e0 (Machine.modBecnt f s) := hs
theorem Pend.modPviol {e0 : Nat} (f : Capture → Capture) (s : State) (hs : Pend e0 s) : Pend e0 (Machine.modPviol f s) := hs
theorem Pend.modPvcnt {e0 : Nat} (f : Cnt32 → Cnt32) (s : State) (hs : Pend e0 s) : Pend e0 (Machine.modPvcnt f s) := hs
theorem Pend.modSent {e0 : Nat} (f : List Req → List Req) (s : State) (hs : Pend e0 s) : Pend e0 (Machine.modSent f s) := hs
theorem Pend.modReqs {e0 : Nat} (f : List Req → List Req) (s : State) (hs : Pend e0 s) : Pend e0 (Machine.modReqs f s) := hs
theorem Pend.modHeld {e0 : Nat} (f : List HeldWrite → List HeldWrite) (s : State) (hs : Pend e0 s) : Pend e0 (Machine.modHeld f s) := hs
theorem Pend.modLatch {e0 : Nat} (f : List Latch → List Latch) (s : State) (hs : Pend e0 s) : Pend e0 (Machine.modLatch f s) := hs
theorem Pend.modCe {e0 : Nat} (c : Nat) (f : Cnt32 → Cnt32) (s : State) (hs : Pend e0 s) : Pend e0 (Machine.modCe c f s) := hs
theorem Pend.modNotice {e0 : Nat} (f : Word → Word) (s : State) (hs : Pend e0 s) : Pend e0 (Machine.modNotice f s) := hs
theorem Pend.setAct {e0 : Nat} (c : Content) (s : State) (hs : Pend e0 s) : Pend e0 (Machine.setAct c s) := hs

theorem Pend.foldl {e0 : Nat} {s : State} {α : Type} {f : State → α → State} (l : List α) (h : Pend e0 s) (hf : ∀ s a, Pend e0 s → Pend e0 (f s a)) :
    Pend e0 (l.foldl f s) := by
  induction l generalizing s with
  | nil => exact h
  | cons a t ih => exact ih (hf s a h)
theorem Pend.eachN {e0 : Nat} {s : State} {f : Nat → State → State} (l : List Nat) (h : Pend e0 s) (hf : ∀ i s, Pend e0 s → Pend e0 (f i s)) : Pend e0 (Machine.eachN l f s) :=
  Pend.foldl l h (fun s i hs => hf i s hs)
theorem Pend.ite {e0 : Nat} {c : Prop} [Decidable c] {a b : State} (ha : c → Pend e0 a) (hb : ¬c → Pend e0 b) : Pend e0 (if c then a else b) := by
  by_cases h : c
  · rw [if_pos h]; exact ha h
  · rw [if_neg h]; exact hb h
theorem Pend.idS {e0 : Nat} {s : State} (h : Pend e0 s) : Pend e0 (id s) := h
theorem Pend.whenS {e0 : Nat} {b : Bool} {f : State → State} {s : State} (h : Pend e0 s) (hf : b = true → ∀ s, Pend e0 s → Pend e0 (f s)) : Pend e0 (Machine.whenS b f s) := by
  unfold Machine.whenS
  split
  · next e => exact hf e s h
  · exact h
theorem Pend.withReq {e0 : Nat} {id : Nat} {f : Req → State → State} {s : State} (h : Pend e0 s) (hf : ∀ r s, Pend e0 s → Pend e0 (f r s)) : Pend e0 (Machine.withReq id f s) := by
  unfold Machine.withReq
  split
  · exact hf _ s h
  · exact h

theorem Pend.emitWr {e0 : Nat} (addr : Nat) (data : Bytes) (s : State) (h : Pend e0 s) : Pend e0 (Machine.emitWr addr data s) := by
  unfold Machine.emitWr
  repeat' first
    | dsimp only
    | with_reducible assumption
    | intro _
    | with_reducible apply Pend.emit
    | with_reducible apply Pend.foldl

theorem Pend.emitRd {e0 : Nat} (addr len : Nat) (s : State) (h : Pend e0 s) : Pend e0 (Machine.emitRd addr len s) := by
  unfold Machine.emitRd
  repeat' first
    | dsimp only
    | with_reducible assumption
    | intro _
    | with_reducible apply Pend.emit
    | with_reducible apply Pend.foldl

theorem Pend.emitRecord {e0 : Nat} (addr : Nat) (b : Bytes) (s : State) (h : Pend e0 s) : Pend e0 (Machine.emitRecord addr b s) := by
  unfold Machine.emitRecord
  repeat' first
    | dsimp only
    | with_reducible assumption
    | intro _
    | with_reducible apply Pend.emitWr

theorem Pend.sweepCache {e0 : Nat} (s : State) (h : Pend e0 s) : Pend e0 (Machine.sweepCache s) := by
  unfold Machine.sweepCache
  repeat' first
    | dsimp only
    | with_reducible assumption
    | intro _
    | with_reducible apply Pend.modKs

theorem Pend.retireReq {e0 : Nat} (id : Nat) (s : State) (h : Pend e0 s) : Pend e0 (Machine.retireReq id s) := by
  unfold Machine.retireReq
  repeat' first
    | dsimp only
    | with_reducible assumption
    | intro _
    | with_reducible apply Pend.dropReq
    | with_reducible apply Pend.sweepCache

theorem Pend.raiseT {e0 : Nat} (n e : Nat) (s : State) (h : Pend e0 s) : Pend e0 (Machine.raiseT n e s) := by
  unfold Machine.raiseT
  repeat' first
    | dsimp only
    | with_reducible assumption
    | intro _
    | with_reducible apply Pend.modTen

theorem Pend.raiseG {e0 : Nat} (e : Nat) (s : State) (h : Pend e0 s) : Pend e0 (Machine.raiseG e s) := by
  unfold Machine.raiseG
  repeat' first
    | dsimp only
    | with_reducible assumption
    | intro _
    | with_reducible refine Pend.modEvPend _ ?_ (by intro w hw; rw [bitOf_or, hw, Bool.true_or])

theorem Pend.violT {e0 : Nat} (n : Nat) (addr : Nat) (d : Dir) (cause kind number tag gen : Nat) (s : State) (h : Pend e0 s) : Pend e0 (Machine.violT n addr d cause kind number tag gen s) := by
  unfold Machine.violT
  repeat' first
    | dsimp only
    | with_reducible assumption
    | intro _
    | with_reducible apply Pend.modTen
    | with_reducible apply Pend.raiseT
    | with_reducible refine Pend.ite ?_ ?_

theorem Pend.violP {e0 : Nat} (addr : Nat) (d : Dir) (cause kind number tag gen : Nat) (s : State) (h : Pend e0 s) : Pend e0 (Machine.violP addr d cause kind number tag gen s) := by
  unfold Machine.violP
  repeat' first
    | dsimp only
    | with_reducible assumption
    | intro _
    | with_reducible apply Pend.modPvcnt
    | with_reducible apply Pend.modPviol
    | with_reducible apply Pend.raiseG
    | with_reducible refine Pend.ite ?_ ?_

theorem Pend.viol {e0 : Nat} (t : Option TenantIx) (addr : Nat) (d : Dir) (cause kind number tag gen : Nat) (s : State) (h : Pend e0 s) : Pend e0 (Machine.viol t addr d cause kind number tag gen s) := by
  unfold Machine.viol
  repeat' first
    | dsimp only
    | with_reducible assumption
    | intro _
    | with_reducible apply Pend.violP
    | with_reducible apply Pend.violT
    | with_reducible refine Pend.ite ?_ ?_
    | split

theorem Pend.jrnLose {e0 : Nat} (s : State) (h : Pend e0 s) : Pend e0 (Machine.jrnLose s) := by
  unfold Machine.jrnLose
  repeat' first
    | dsimp only
    | with_reducible assumption
    | intro _
    | with_reducible apply Pend.modJrn
    | with_reducible apply Pend.raiseG

theorem Pend.jrnNlose {e0 : Nat} (s : State) (h : Pend e0 s) : Pend e0 (Machine.jrnNlose s) := by
  unfold Machine.jrnNlose
  repeat' first
    | dsimp only
    | with_reducible assumption
    | intro _
    | with_reducible apply Pend.modJrn

theorem Pend.jrnPush {e0 : Nat} (rec : List (BitVec 32)) (s : State) (h : Pend e0 s) : Pend e0 (Machine.jrnPush rec s) := by
  unfold Machine.jrnPush
  repeat' first
    | dsimp only
    | with_reducible assumption
    | intro _
    | with_reducible apply Pend.modJrn
    | with_reducible apply Pend.raiseG
    | with_reducible refine Pend.ite ?_ ?_

theorem Pend.jrnMakeRoom {e0 : Nat} (need : Nat) (x : Nat) (s : State) (h : Pend e0 s) : Pend e0 (Machine.jrnMakeRoom need x s) := by
  induction x generalizing s with
  | zero => exact h
  | succ n ih =>
    unfold Machine.jrnMakeRoom
    repeat' first
      | dsimp only
      | with_reducible assumption
      | intro _
      | with_reducible apply Pend.jrnLose
      | with_reducible apply Pend.modJrn
      | with_reducible refine Pend.ite ?_ ?_
      | split
      | rfl
      | exact hes
      | (simp_all; done)
      | with_reducible apply ih

theorem Pend.noticeFault {e0 : Nat} (s : State) (h : Pend e0 s) : Pend e0 (Machine.noticeFault s) := by
  unfold Machine.noticeFault
  repeat' first
    | dsimp only
    | with_reducible assumption
    | intro _
    | with_reducible apply Pend.modNotice
    | with_reducible apply Pend.raiseG

theorem Pend.notice {e0 : Nat} (rec : List (BitVec 32)) (s : State) (h : Pend e0 s) : Pend e0 (Machine.notice rec s) := by
  unfold Machine.notice
  repeat' first
    | dsimp only
    | with_reducible assumption
    | intro _
    | with_reducible apply Pend.emitRecord
    | with_reducible apply Pend.jrnNlose
    | with_reducible apply Pend.modJrn
    | with_reducible apply Pend.noticeFault
    | with_reducible apply Pend.violP
    | with_reducible refine Pend.ite ?_ ?_
    | split

theorem Pend.jrnOpen {e0 : Nat} (bad : Bool) (s : State) (h : Pend e0 s) : Pend e0 (Machine.jrnOpen bad s) := by
  unfold Machine.jrnOpen
  repeat' first
    | dsimp only
    | with_reducible assumption
    | intro _
    | with_reducible apply Pend.modJrn
    | with_reducible refine Pend.ite ?_ ?_
    | split

theorem Pend.jrnDeliver {e0 : Nat} (who : Who) (size : AccSize) (bad : Bool) (s : State) (h : Pend e0 s) : Pend e0 (Machine.jrnDeliver who size bad s) := by
  unfold Machine.jrnDeliver
  repeat' first
    | dsimp only
    | with_reducible assumption
    | intro _
    | with_reducible apply Pend.emit
    | with_reducible apply Pend.jrnOpen
    | with_reducible apply Pend.modJrn
    | with_reducible refine Pend.ite ?_ ?_
    | split

theorem Pend.jrnServe {e0 : Nat}  (x : List (Who × AccSize)) (s : State) (h : Pend e0 s) : Pend e0 (Machine.jrnServe x s) := by
  induction x generalizing s with
  | nil => exact h
  | cons a l ih =>
    try obtain ⟨_, _⟩ := a
    unfold Machine.jrnServe
    repeat' first
      | dsimp only
      | with_reducible assumption
      | intro _
      | with_reducible apply Pend.jrnDeliver
      | with_reducible apply Pend.modJrn
      | with_reducible refine Pend.ite ?_ ?_
      | split
      | rfl
      | exact hes
      | with_reducible apply ih

theorem Pend.jrnStore {e0 : Nat} (rec : List (BitVec 32)) (s : State) (h : Pend e0 s) : Pend e0 (Machine.jrnStore rec s) := by
  unfold Machine.jrnStore
  repeat' first
    | dsimp only
    | with_reducible assumption
    | intro _
    | with_reducible apply Pend.jrnPush
    | with_reducible apply Pend.jrnServe
    | with_reducible apply Pend.notice

theorem Pend.journal {e0 : Nat} (type origin : Nat) (payload : List Nat) (s : State) (h : Pend e0 s) : Pend e0 (Machine.journal type origin payload s) := by
  unfold Machine.journal
  repeat' first
    | dsimp only
    | with_reducible assumption
    | intro _
    | with_reducible apply Pend.jrnLose
    | with_reducible apply Pend.jrnMakeRoom
    | with_reducible apply Pend.jrnStore
    | with_reducible apply Pend.modJrn
    | with_reducible refine Pend.ite ?_ ?_

theorem Pend.countCe {e0 : Nat} (c : Nat) (s : State) (h : Pend e0 s) : Pend e0 (Machine.countCe c s) := by
  unfold Machine.countCe
  repeat' first
    | dsimp only
    | with_reducible assumption
    | intro _
    | with_reducible apply Pend.modCe
    | with_reducible apply Pend.raiseG
    | with_reducible refine Pend.ite ?_ ?_

theorem Pend.journalUe {e0 : Nat} (c loc : Nat) (s : State) (h : Pend e0 s) : Pend e0 (Machine.journalUe c loc s) := by
  unfold Machine.journalUe
  repeat' first
    | dsimp only
    | with_reducible assumption
    | intro _
    | with_reducible apply Pend.journal

theorem Pend.sendFrame {e0 : Nat} (type dst : Nat) (payload : Bytes) (s : State) (h : Pend e0 s) : Pend e0 (Machine.sendFrame type dst payload s) := by
  unfold Machine.sendFrame
  repeat' first
    | dsimp only
    | with_reducible assumption
    | intro _
    | with_reducible apply Pend.emit
    | with_reducible apply Pend.modCrs

theorem Pend.sendLong {e0 : Nat} (type dst : Nat) (payload : Bytes) (s : State) (h : Pend e0 s) : Pend e0 (Machine.sendLong type dst payload s) := by
  unfold Machine.sendLong
  repeat' first
    | dsimp only
    | with_reducible assumption
    | intro _
    | with_reducible apply Pend.sendFrame
    | with_reducible apply Pend.foldl

theorem Pend.storeBlock {e0 : Nat} (k lo hi : Nat) (s : State) (h : Pend e0 s) : Pend e0 (Machine.storeBlock k lo hi s) := by
  unfold Machine.storeBlock
  repeat' first
    | dsimp only
    | with_reducible assumption
    | intro _
    | with_reducible apply Pend.modCrs

theorem Pend.crsRecord {e0 : Nat} (type : Nat) (payload : List Nat) (s : State) (h : Pend e0 s) : Pend e0 (Machine.crsRecord type payload s) := by
  unfold Machine.crsRecord
  repeat' first
    | dsimp only
    | with_reducible assumption
    | intro _
    | with_reducible apply Pend.journal

theorem Pend.grantBlock {e0 : Nat} (dest k : Nat) (s : State) (h : Pend e0 s) : Pend e0 (Machine.grantBlock dest k s) := by
  unfold Machine.grantBlock
  repeat' first
    | dsimp only
    | with_reducible assumption
    | intro _
    | with_reducible apply Pend.crsRecord
    | with_reducible apply Pend.journal
    | with_reducible apply Pend.modSlot
    | with_reducible apply Pend.raiseT
    | with_reducible apply Pend.sendFrame
    | with_reducible apply Pend.storeBlock
    | with_reducible refine Pend.ite ?_ ?_
    | split

theorem Pend.beginGrant {e0 : Nat} (dest k : Nat) (s : State) (h : Pend e0 s) : Pend e0 (Machine.beginGrant dest k s) := by
  unfold Machine.beginGrant
  repeat' first
    | dsimp only
    | with_reducible assumption
    | intro _
    | with_reducible apply Pend.eachN
    | with_reducible apply Pend.grantBlock
    | with_reducible apply Pend.modCrs
    | with_reducible apply Pend.sendFrame
    | with_reducible refine Pend.ite ?_ ?_

theorem Pend.askBlock {e0 : Nat} (k : Nat) (s : State) (h : Pend e0 s) : Pend e0 (Machine.askBlock k s) := by
  unfold Machine.askBlock
  repeat' first
    | dsimp only
    | with_reducible assumption
    | intro _
    | with_reducible apply Pend.beginGrant
    | with_reducible apply Pend.modCrs
    | with_reducible apply Pend.sendFrame
    | with_reducible refine Pend.ite ?_ ?_

theorem Pend.countDenied {e0 : Nat} (s : State) (h : Pend e0 s) : Pend e0 (Machine.countDenied s) := by
  unfold Machine.countDenied
  repeat' first
    | dsimp only
    | with_reducible assumption
    | intro _
    | with_reducible apply Pend.modDenied
    | with_reducible apply Pend.raiseG
    | with_reducible refine Pend.ite ?_ ?_
    | split

theorem Pend.debugRecord {e0 : Nat} (who : Who) (off : Nat) (d : Dir) (opened : Bool) (s : State) (h : Pend e0 s) : Pend e0 (Machine.debugRecord who off d opened s) := by
  unfold Machine.debugRecord
  repeat' first
    | dsimp only
    | with_reducible assumption
    | intro _
    | with_reducible apply Pend.journal
    | with_reducible refine Pend.ite ?_ ?_
    | split

theorem Pend.dropWrite {e0 : Nat} (who : Who) (off value : Nat) (s : State) (h : Pend e0 s) : Pend e0 (Machine.dropWrite who off value s) := by
  unfold Machine.dropWrite
  repeat' first
    | dsimp only
    | with_reducible assumption
    | intro _
    | with_reducible apply Pend.countDenied
    | with_reducible apply Pend.debugRecord
    | with_reducible apply Pend.journal
    | with_reducible refine Pend.ite ?_ ?_
    | split

theorem Pend.dropPiece {e0 : Nat} (who : Who) (r : Reg) (mask val : Word) (s : State) (h : Pend e0 s) : Pend e0 (Machine.dropPiece who r mask val s) := by
  unfold Machine.dropPiece
  repeat' first
    | dsimp only
    | with_reducible assumption
    | intro _
    | with_reducible apply Pend.dropWrite
    | with_reducible refine Pend.ite ?_ ?_
    | split

theorem Pend.dropReg {e0 : Nat} (who : Who) (r : Reg) (val : Word) (s : State) (h : Pend e0 s) : Pend e0 (Machine.dropReg who r val s) := by
  unfold Machine.dropReg
  repeat' first
    | dsimp only
    | with_reducible assumption
    | intro _
    | with_reducible apply Pend.dropPiece
    | with_reducible refine Pend.ite ?_ ?_
    | split

theorem Pend.dcClear {e0 : Nat} (k : Nat) (s : State) (h : Pend e0 s) : Pend e0 (Machine.dcClear k s) := by
  unfold Machine.dcClear
  repeat' first
    | dsimp only
    | with_reducible assumption
    | intro _
    | with_reducible apply Pend.modDc
    | with_reducible refine Pend.ite ?_ ?_
    | split

theorem Pend.dcReset {e0 : Nat} (k : Nat) (s : State) (h : Pend e0 s) : Pend e0 (Machine.dcReset k s) := by
  unfold Machine.dcReset
  repeat' first
    | dsimp only
    | with_reducible assumption
    | intro _
    | with_reducible apply Pend.dcClear
    | with_reducible apply Pend.dropReg
    | with_reducible refine Pend.ite ?_ ?_
    | split

theorem Pend.modOp {e0 : Nat} (id i : Nat) (f : OpSt → OpSt) (s : State) (h : Pend e0 s) : Pend e0 (Machine.modOp id i f s) := by
  unfold Machine.modOp
  repeat' first
    | dsimp only
    | with_reducible assumption
    | intro _
    | with_reducible apply Pend.modReq

theorem Pend.modBuf {e0 : Nat} (id b : Nat) (f : BufSt → BufSt) (s : State) (h : Pend e0 s) : Pend e0 (Machine.modBuf id b f s) := by
  unfold Machine.modBuf
  repeat' first
    | dsimp only
    | with_reducible assumption
    | intro _
    | with_reducible apply Pend.modReq

theorem Pend.reqViol {e0 : Nat} (r : Req) (addr : Nat) (d : Dir) (cause : Nat) (s : State) (h : Pend e0 s) : Pend e0 (Machine.reqViol r addr d cause s) := by
  unfold Machine.reqViol
  repeat' first
    | dsimp only
    | with_reducible assumption
    | intro _
    | with_reducible apply Pend.viol

theorem Pend.freeTiles {e0 : Nat} (id : Nat) (s : State) (h : Pend e0 s) : Pend e0 (Machine.freeTiles id s) := by
  unfold Machine.freeTiles
  repeat' first
    | dsimp only
    | with_reducible assumption
    | intro _
    | with_reducible apply Pend.eachN
    | with_reducible apply Pend.modTile

theorem Pend.dropWork {e0 : Nat} (aim : Purpose) (s : State) (h : Pend e0 s) : Pend e0 (Machine.dropWork aim s) := by
  unfold Machine.dropWork
  repeat' first
    | dsimp only
    | with_reducible assumption
    | intro _
    | with_reducible apply Pend.foldl
    | with_reducible apply Pend.freeTiles
    | with_reducible apply Pend.modSch
    | with_reducible refine Pend.ite ?_ ?_
    | split

theorem Pend.unclaim {e0 : Nat} (x : Nat) (s : State) (h : Pend e0 s) : Pend e0 (Machine.unclaim x s) := by
  unfold Machine.unclaim
  repeat' first
    | dsimp only
    | with_reducible assumption
    | intro _
    | with_reducible apply Pend.dropWork
    | with_reducible apply Pend.modKs
    | with_reducible apply Pend.modSlot
    | with_reducible refine Pend.ite ?_ ?_
    | split

theorem Pend.closeStream {e0 : Nat} (ix : Nat) (s : State) (h : Pend e0 s) : Pend e0 (Machine.closeStream ix s) := by
  unfold Machine.closeStream
  repeat' first
    | dsimp only
    | with_reducible assumption
    | intro _
    | with_reducible apply Pend.setStream
    | with_reducible refine Pend.ite ?_ ?_
    | split

theorem Pend.issueJob {e0 : Nat} (kind : Nat) (work : JobWork) (s : State) (h : Pend e0 s) : Pend e0 (Machine.issueJob kind work s) := by
  unfold Machine.issueJob
  repeat' first
    | dsimp only
    | with_reducible assumption
    | intro _
    | with_reducible apply Pend.modSch
    | with_reducible refine Pend.ite ?_ ?_
    | split

theorem Pend.prepareBank {e0 : Nat} (x : Nat) (s : State) (h : Pend e0 s) : Pend e0 (Machine.prepareBank x s) := by
  unfold Machine.prepareBank
  repeat' first
    | dsimp only
    | with_reducible assumption
    | intro _
    | with_reducible apply Pend.issueJob
    | with_reducible refine Pend.ite ?_ ?_
    | split

theorem Pend.beginVerify {e0 : Nat} (x : Nat) (s : State) (h : Pend e0 s) : Pend e0 (Machine.beginVerify x s) := by
  unfold Machine.beginVerify
  repeat' first
    | dsimp only
    | with_reducible assumption
    | intro _
    | with_reducible apply Pend.modKs
    | with_reducible apply Pend.modSlot
    | with_reducible apply Pend.prepareBank
    | with_reducible refine Pend.ite ?_ ?_
    | split

theorem Pend.endStreams {e0 : Nat} (r : Req) (o : Outcome) (s : State) (h : Pend e0 s) : Pend e0 (Machine.endStreams r o s) := by
  unfold Machine.endStreams
  repeat' first
    | dsimp only
    | with_reducible assumption
    | intro _
    | with_reducible apply Pend.closeStream
    | with_reducible apply Pend.eachN
    | with_reducible apply Pend.setStream
    | with_reducible refine Pend.ite ?_ ?_
    | split

theorem Pend.dropStreams {e0 : Nat} (r : Req) (o : Outcome) (s : State) (h : Pend e0 s) : Pend e0 (Machine.dropStreams r o s) := by
  unfold Machine.dropStreams
  repeat' first
    | dsimp only
    | with_reducible assumption
    | intro _
    | with_reducible apply Pend.closeStream
    | with_reducible apply Pend.foldl
    | with_reducible refine Pend.ite ?_ ?_
    | split

theorem Pend.scrubSeg {e0 : Nat} (r : Req) (a len : Nat) (s : State) (h : Pend e0 s) : Pend e0 (Machine.scrubSeg r a len s) := by
  unfold Machine.scrubSeg
  repeat' first
    | dsimp only
    | with_reducible assumption
    | intro _
    | with_reducible apply Pend.emitWr
    | with_reducible apply Pend.modReq
    | with_reducible apply Pend.reqViol
    | with_reducible refine Pend.ite ?_ ?_
    | split

theorem Pend.scrubAll {e0 : Nat} (r : Req) (s : State) (h : Pend e0 s) : Pend e0 (Machine.scrubAll r s) := by
  unfold Machine.scrubAll
  repeat' first
    | dsimp only
    | with_reducible assumption
    | intro _
    | with_reducible apply Pend.eachN
    | with_reducible apply Pend.emit
    | with_reducible apply Pend.foldl
    | with_reducible apply Pend.scrubSeg
    | with_reducible refine Pend.ite ?_ ?_
    | split

theorem Pend.fencePort {e0 : Nat} (id : Nat) (port : Bool) (s : State) (h : Pend e0 s) : Pend e0 (Machine.fencePort id port s) := by
  unfold Machine.fencePort
  repeat' first
    | dsimp only
    | with_reducible assumption
    | intro _
    | with_reducible apply Pend.emitRd
    | with_reducible apply Pend.modReq
    | with_reducible apply Pend.reqViol
    | with_reducible apply Pend.idS
    | with_reducible refine Pend.ite ?_ ?_
    | split

theorem Pend.fenceFrame {e0 : Nat} (r : Req) (s : State) (h : Pend e0 s) : Pend e0 (Machine.fenceFrame r s) := by
  unfold Machine.fenceFrame
  repeat' first
    | dsimp only
    | with_reducible assumption
    | intro _
    | with_reducible apply Pend.eachN
    | with_reducible apply Pend.emit
    | with_reducible apply Pend.modBuf
    | with_reducible refine Pend.ite ?_ ?_
    | split

theorem Pend.endChain {e0 : Nat} (id : Nat) (o : Outcome) (s : State) (h : Pend e0 s) : Pend e0 (Machine.endChain id o s) := by
  unfold Machine.endChain
  repeat' first
    | dsimp only
    | with_reducible assumption
    | intro _
    | with_reducible apply Pend.beginVerify
    | with_reducible apply Pend.dropStreams
    | with_reducible apply Pend.eachN
    | with_reducible apply Pend.endStreams
    | with_reducible apply Pend.fenceFrame
    | with_reducible apply Pend.fencePort
    | with_reducible apply Pend.freeTiles
    | with_reducible apply Pend.modFp
    | with_reducible apply Pend.modReq
    | with_reducible apply Pend.modSch
    | with_reducible apply Pend.scrubAll
    | with_reducible apply Pend.unclaim
    | with_reducible refine Pend.ite ?_ ?_
    | split

theorem Pend.endDone {e0 : Nat} (id : Nat) (s : State) (h : Pend e0 s) : Pend e0 (Machine.endDone id s) := by
  unfold Machine.endDone
  repeat' first
    | dsimp only
    | with_reducible assumption
    | intro _
    | with_reducible apply Pend.endChain
    | with_reducible refine Pend.ite ?_ ?_
    | split

theorem Pend.issueRange {e0 : Nat} (id b a l : Nat) (s : State) (h : Pend e0 s) : Pend e0 (Machine.issueRange id b a l s) := by
  unfold Machine.issueRange
  repeat' first
    | dsimp only
    | with_reducible assumption
    | intro _
    | with_reducible apply Pend.emitRd
    | with_reducible apply Pend.modBuf
    | with_reducible apply Pend.reqViol
    | with_reducible apply Pend.idS
    | with_reducible refine Pend.ite ?_ ?_
    | split

theorem Pend.askElem {e0 : Nat} (id b : Nat) (short : Fail) (s : State) (h : Pend e0 s) : Pend e0 (Machine.askElem id b short s) := by
  unfold Machine.askElem
  repeat' first
    | dsimp only
    | with_reducible assumption
    | intro _
    | with_reducible apply Pend.emitRd
    | with_reducible apply Pend.modBuf
    | with_reducible apply Pend.reqViol
    | with_reducible apply Pend.idS
    | with_reducible refine Pend.ite ?_ ?_
    | split

theorem Pend.startBuf {e0 : Nat} (id b : Nat) (s : State) (h : Pend e0 s) : Pend e0 (Machine.startBuf id b s) := by
  unfold Machine.startBuf
  repeat' first
    | dsimp only
    | with_reducible assumption
    | intro _
    | with_reducible apply Pend.askElem
    | with_reducible apply Pend.emit
    | with_reducible apply Pend.issueRange
    | with_reducible apply Pend.modBuf
    | with_reducible apply Pend.modReq
    | with_reducible refine Pend.ite ?_ ?_
    | split

theorem Pend.startBufs {e0 : Nat} (id : Nat) (s : State) (h : Pend e0 s) : Pend e0 (Machine.startBufs id s) := by
  unfold Machine.startBufs
  repeat' first
    | dsimp only
    | with_reducible assumption
    | intro _
    | with_reducible apply Pend.eachN
    | with_reducible apply Pend.startBuf
    | with_reducible apply Pend.idS
    | with_reducible refine Pend.ite ?_ ?_
    | split

theorem Pend.reqWrote {e0 : Nat} (id b a off len : Nat) (s : State) (h : Pend e0 s) : Pend e0 (Machine.reqWrote id b a off len s) := by
  unfold Machine.reqWrote
  repeat' first
    | dsimp only
    | with_reducible assumption
    | intro _
    | with_reducible apply Pend.modReq
    | with_reducible refine Pend.ite ?_ ?_
    | split

theorem Pend.writeSegs {e0 : Nat} (id b : Nat) (data : Bytes) (x : List (Nat × Nat × Nat)) (s : State) (h : Pend e0 s) : Pend e0 (Machine.writeSegs id b data x s).1 := by
  induction x generalizing s with
  | nil => exact h
  | cons a l ih =>
    try obtain ⟨_, _, _⟩ := a
    unfold Machine.writeSegs
    repeat' first
      | dsimp only
      | with_reducible assumption
      | intro _
      | with_reducible apply Pend.emitWr
      | with_reducible apply Pend.modBuf
      | with_reducible apply Pend.reqViol
      | with_reducible apply Pend.reqWrote
      | with_reducible apply Pend.idS
      | with_reducible refine Pend.ite ?_ ?_
      | split
      | rfl
      | exact hes
      | (simp_all; done)
      | with_reducible apply ih

theorem Pend.writeSegs_eq {e0 : Nat} {id b : Nat} {data : Bytes} {x : List (Nat × Nat × Nat)} {s : State} {y : Option Nat} {t : State} (e : Machine.writeSegs id b data x s = (t, y)) (h : Pend e0 s) : Pend e0 t := by
  have := Pend.writeSegs id b data x s h
  rwa [e] at this

theorem Pend.writeOut {e0 : Nat} (r : Req) (i n : Nat) (s : State) (h : Pend e0 s) : Pend e0 (Machine.writeOut r i n s).1 := by
  unfold Machine.writeOut
  repeat' first
    | dsimp only
    | with_reducible assumption
    | intro _
    | with_reducible apply Pend.reqViol
    | with_reducible apply Pend.writeSegs
    | with_reducible refine Pend.writeSegs_eq (by assumption) ?_
    | with_reducible refine Pend.ite ?_ ?_
    | split

theorem Pend.writeOut_eq {e0 : Nat} {r : Req} {i n : Nat} {s : State} {y : Option Nat} {t : State} (e : Machine.writeOut r i n s = (t, y)) (h : Pend e0 s) : Pend e0 t := by
  have := Pend.writeOut r i n s h
  rwa [e] at this

theorem Pend.flushOp {e0 : Nat} (id i : Nat) (s : State) (h : Pend e0 s) : Pend e0 (Machine.flushOp id i s).1 := by
  unfold Machine.flushOp
  repeat' first
    | dsimp only
    | with_reducible assumption
    | intro _
    | with_reducible apply Pend.askElem
    | with_reducible apply Pend.emit
    | with_reducible apply Pend.modBuf
    | with_reducible apply Pend.modOp
    | with_reducible apply Pend.modReq
    | with_reducible refine Pend.writeOut_eq (by assumption) ?_
    | with_reducible apply Pend.writeOut
    | with_reducible refine Pend.ite ?_ ?_
    | split

theorem Pend.flushOp_eq {e0 : Nat} {id i : Nat} {s : State} {y : Option Fail} {t : State} (e : Machine.flushOp id i s = (t, y)) (h : Pend e0 s) : Pend e0 t := by
  have := Pend.flushOp id i s h
  rwa [e] at this

theorem Pend.receiveKey {e0 : Nat} (id i : Nat) (s : State) (h : Pend e0 s) : Pend e0 (Machine.receiveKey id i s).1 := by
  unfold Machine.receiveKey
  repeat' first
    | dsimp only
    | with_reducible assumption
    | intro _
    | with_reducible apply Pend.modOp
    | with_reducible refine Pend.ite ?_ ?_
    | split

theorem Pend.receiveKey_eq {e0 : Nat} {id i : Nat} {s : State} {y : Option Fail} {t : State} (e : Machine.receiveKey id i s = (t, y)) (h : Pend e0 s) : Pend e0 t := by
  have := Pend.receiveKey id i s h
  rwa [e] at this

theorem Pend.pairRecord {e0 : Nat} (r : Req) (o : OpSt) (voter outcome : Nat) (s : State) (h : Pend e0 s) : Pend e0 (Machine.pairRecord r o voter outcome s) := by
  unfold Machine.pairRecord
  repeat' first
    | dsimp only
    | with_reducible assumption
    | intro _
    | with_reducible apply Pend.journal

theorem Pend.settleOp {e0 : Nat} (id i : Nat) (s : State) (h : Pend e0 s) : Pend e0 (Machine.settleOp id i s).1 := by
  unfold Machine.settleOp
  repeat' first
    | dsimp only
    | with_reducible assumption
    | intro _
    | with_reducible refine Pend.flushOp_eq (by assumption) ?_
    | with_reducible apply Pend.flushOp
    | with_reducible apply Pend.modOp
    | with_reducible apply Pend.pairRecord
    | with_reducible refine Pend.receiveKey_eq (by assumption) ?_
    | with_reducible apply Pend.receiveKey
    | with_reducible refine Pend.ite ?_ ?_
    | split

theorem Pend.settleOp_eq {e0 : Nat} {id i : Nat} {s : State} {y : Option Fail} {t : State} (e : Machine.settleOp id i s = (t, y)) (h : Pend e0 s) : Pend e0 t := by
  have := Pend.settleOp id i s h
  rwa [e] at this

theorem Pend.settleOps {e0 : Nat} (id : Nat) (x : List Nat) (s : State) (h : Pend e0 s) : Pend e0 (Machine.settleOps id x s).1 := by
  induction x generalizing s with
  | nil => exact h
  | cons a l ih =>
    unfold Machine.settleOps
    repeat' first
      | dsimp only
      | with_reducible assumption
      | intro _
      | with_reducible refine Pend.settleOp_eq (by assumption) ?_
      | with_reducible apply Pend.settleOp
      | with_reducible apply Pend.idS
      | with_reducible refine Pend.ite ?_ ?_
      | split
      | rfl
      | exact hes
      | with_reducible apply ih

theorem Pend.settleOps_eq {e0 : Nat} {id : Nat} {x : List Nat} {s : State} {y : Option Outcome} {t : State} (e : Machine.settleOps id x s = (t, y)) (h : Pend e0 s) : Pend e0 t := by
  have := Pend.settleOps id x s h
  rwa [e] at this

theorem Pend.settle {e0 : Nat} (id : Nat) (s : State) (h : Pend e0 s) : Pend e0 (Machine.settle id s) := by
  unfold Machine.settle
  repeat' first
    | dsimp only
    | with_reducible assumption
    | intro _
    | with_reducible apply Pend.endChain
    | with_reducible apply Pend.endDone
    | with_reducible apply Pend.settleOps
    | with_reducible refine Pend.settleOps_eq (by assumption) ?_
    | with_reducible apply Pend.startBufs
    | with_reducible refine Pend.ite ?_ ?_
    | split

theorem Pend.settleAll {e0 : Nat} (s : State) (h : Pend e0 s) : Pend e0 (Machine.settleAll s) := by
  unfold Machine.settleAll
  repeat' first
    | dsimp only
    | with_reducible assumption
    | intro _
    | with_reducible apply Pend.settle
    | with_reducible apply Pend.foldl

theorem Pend.esRecord {e0 : Nat} (unit cause : Nat) (s : State) (h : Pend e0 s) : Pend e0 (Machine.esRecord unit cause s) := by
  unfold Machine.esRecord
  repeat' first
    | dsimp only
    | with_reducible assumption
    | intro _
    | with_reducible apply Pend.journal

theorem Pend.rbgFail {e0 : Nat} (k cause : Nat) (s : State) (h : Pend e0 s) : Pend e0 (Machine.rbgFail k cause s) := by
  unfold Machine.rbgFail
  repeat' first
    | dsimp only
    | with_reducible assumption
    | intro _
    | with_reducible apply Pend.esRecord
    | with_reducible apply Pend.modRbg
    | with_reducible apply Pend.raiseG

theorem Pend.reseed {e0 : Nat} (k : Nat) (s : State) (h : Pend e0 s) : Pend e0 (Machine.reseed k s) := by
  unfold Machine.reseed
  repeat' first
    | dsimp only
    | with_reducible assumption
    | intro _
    | with_reducible apply Pend.modEs
    | with_reducible apply Pend.modRbg
    | with_reducible apply Pend.raiseG
    | with_reducible refine Pend.ite ?_ ?_
    | split

theorem Pend.readBlock {e0 : Nat} (ecc : Ecc) (s : State) (h : Pend e0 s) : Pend e0 (Machine.readBlock ecc s) := by
  unfold Machine.readBlock
  repeat' first
    | dsimp only
    | with_reducible assumption
    | intro _
    | with_reducible apply Pend.countCe
    | with_reducible apply Pend.journalUe
    | with_reducible apply Pend.modEs
    | with_reducible refine Pend.ite ?_ ?_
    | split

theorem Pend.reseedRead {e0 : Nat} (k : Nat) (s : State) (h : Pend e0 s) : Pend e0 (Machine.reseedRead k s) := by
  unfold Machine.reseedRead
  repeat' first
    | dsimp only
    | with_reducible assumption
    | intro _
    | with_reducible apply Pend.readBlock
    | with_reducible apply Pend.reseed
    | with_reducible refine Pend.ite ?_ ?_
    | split

theorem Pend.generateAdd {e0 : Nat} (pr : Bool) (n : Nat) (add : Bytes) (x : List Nat) (s : State) (h : Pend e0 s) : Pend e0 (Machine.generateAdd pr n add x s).2 := by
  induction x generalizing s with
  | nil => exact h
  | cons a l ih =>
    unfold Machine.generateAdd
    repeat' first
      | dsimp only
      | with_reducible assumption
      | intro _
      | with_reducible apply Pend.modRbg
      | with_reducible apply Pend.rbgFail
      | with_reducible apply Pend.reseedRead
      | with_reducible refine Pend.ite ?_ ?_
      | split
      | with_reducible apply ih

theorem Pend.generateAdd_eq {e0 : Nat} {pr : Bool} {n : Nat} {add : Bytes} {x : List Nat} {s : State} {y : Option Bytes} {t : State} (e : Machine.generateAdd pr n add x s = (y, t)) (h : Pend e0 s) : Pend e0 t := by
  have := Pend.generateAdd pr n add x s h
  rwa [e] at this

theorem Pend.generate {e0 : Nat} (n : Nat) (order : List Nat) (s : State) (h : Pend e0 s) : Pend e0 (Machine.generate n order s).2 := by
  unfold Machine.generate
  exact Pend.generateAdd _ _ _ _ _ h

theorem Pend.generate_eq {e0 : Nat} {n : Nat} {order : List Nat} {s : State} {y : Option Bytes} {t : State} (e : Machine.generate n order s = (y, t)) (h : Pend e0 s) : Pend e0 t := by
  have := Pend.generate n order s h
  rwa [e] at this

theorem Pend.openStream {e0 : Nat} (r : Req) (i t : Nat) (s : State) (h : Pend e0 s) : Pend e0 (Machine.openStream r i t s) := by
  unfold Machine.openStream
  repeat' first
    | dsimp only
    | with_reducible assumption
    | intro _
    | with_reducible apply Pend.setStream
    | with_reducible refine Pend.ite ?_ ?_
    | split

theorem Pend.parkStream {e0 : Nat} (r : Req) (i : Nat) (s : State) (h : Pend e0 s) : Pend e0 (Machine.parkStream r i s) := by
  unfold Machine.parkStream
  repeat' first
    | dsimp only
    | with_reducible assumption
    | intro _
    | with_reducible apply Pend.modOp
    | with_reducible apply Pend.setStream
    | with_reducible refine Pend.ite ?_ ?_
    | split

theorem Pend.holdTile {e0 : Nat} (p : Nat × Nat) (t : Nat) (s : State) (h : Pend e0 s) : Pend e0 (Machine.holdTile p t s) := by
  unfold Machine.holdTile
  repeat' first
    | dsimp only
    | with_reducible assumption
    | intro _
    | with_reducible apply Pend.modTile
    | with_reducible refine Pend.ite ?_ ?_
    | split

theorem Pend.dropHold {e0 : Nat} (k : Nat) (p : Nat × Nat) (s : State) (h : Pend e0 s) : Pend e0 (Machine.dropHold k p s) := by
  unfold Machine.dropHold
  repeat' first
    | dsimp only
    | with_reducible assumption
    | intro _
    | with_reducible apply Pend.eachN
    | with_reducible apply Pend.modTile
    | with_reducible refine Pend.ite ?_ ?_
    | split

theorem Pend.startOn {e0 : Nat} (id i : Nat) (ts : List Nat) (s : State) (h : Pend e0 s) : Pend e0 (Machine.startOn id i ts s) := by
  unfold Machine.startOn
  repeat' first
    | dsimp only
    | with_reducible assumption
    | intro _
    | with_reducible apply Pend.eachN
    | with_reducible apply Pend.endChain
    | with_reducible apply Pend.holdTile
    | with_reducible apply Pend.modOp
    | with_reducible apply Pend.openStream
    | with_reducible apply Pend.settle
    | with_reducible refine Pend.ite ?_ ?_
    | split

theorem Pend.runBank {e0 : Nat} (t : Nat) (p : Nat × Nat) (s : State) (h : Pend e0 s) : Pend e0 (Machine.runBank t p s) := by
  unfold Machine.runBank
  repeat' first
    | dsimp only
    | with_reducible assumption
    | intro _
    | with_reducible apply Pend.eachN
    | with_reducible apply Pend.modOp
    | with_reducible apply Pend.modTile
    | with_reducible refine Pend.ite ?_ ?_
    | split

theorem Pend.wakeBank {e0 : Nat} (t : Nat) (s : State) (h : Pend e0 s) : Pend e0 (Machine.wakeBank t s) := by
  unfold Machine.wakeBank
  repeat' first
    | dsimp only
    | with_reducible assumption
    | intro _
    | with_reducible apply Pend.runBank
    | with_reducible refine Pend.ite ?_ ?_
    | split

theorem Pend.setBank {e0 : Nat} (t : Nat) (b : Bool) (v : BankSt) (s : State) (h : Pend e0 s) : Pend e0 (Machine.setBank t b v s) := by
  unfold Machine.setBank
  repeat' first
    | dsimp only
    | with_reducible assumption
    | intro _
    | with_reducible apply Pend.modTile

theorem Pend.releaseOp {e0 : Nat} (id i : Nat) (s : State) (h : Pend e0 s) : Pend e0 (Machine.releaseOp id i s) := by
  unfold Machine.releaseOp
  repeat' first
    | dsimp only
    | with_reducible assumption
    | intro _
    | with_reducible apply Pend.eachN
    | with_reducible apply Pend.modTile
    | with_reducible apply Pend.wakeBank
    | with_reducible apply Pend.idS
    | with_reducible refine Pend.ite ?_ ?_

theorem Pend.rerunOp {e0 : Nat} (id i : Nat) (s : State) (h : Pend e0 s) : Pend e0 (Machine.rerunOp id i s) := by
  unfold Machine.rerunOp
  repeat' first
    | dsimp only
    | with_reducible assumption
    | intro _
    | with_reducible apply Pend.modBuf
    | with_reducible apply Pend.modOp
    | with_reducible apply Pend.releaseOp
    | with_reducible apply Pend.setStream
    | with_reducible refine Pend.ite ?_ ?_
    | split

theorem Pend.rerunFrom {e0 : Nat} (id i : Nat) (s : State) (h : Pend e0 s) : Pend e0 (Machine.rerunFrom id i s) := by
  unfold Machine.rerunFrom
  repeat' first
    | dsimp only
    | with_reducible assumption
    | intro _
    | with_reducible apply Pend.eachN
    | with_reducible apply Pend.endChain
    | with_reducible apply Pend.rerunOp
    | with_reducible refine Pend.ite ?_ ?_
    | split

theorem Pend.loseOp {e0 : Nat} (id i : Nat) (s : State) (h : Pend e0 s) : Pend e0 (Machine.loseOp id i s) := by
  unfold Machine.loseOp
  repeat' first
    | dsimp only
    | with_reducible assumption
    | intro _
    | with_reducible apply Pend.endChain
    | with_reducible apply Pend.rerunFrom
    | with_reducible apply Pend.settle
    | with_reducible refine Pend.ite ?_ ?_
    | split

theorem Pend.markQuarantine {e0 : Nat} (t cause : Nat) (req : Option Nat) (s : State) (h : Pend e0 s) : Pend e0 (Machine.markQuarantine t cause req s) := by
  unfold Machine.markQuarantine
  repeat' first
    | dsimp only
    | with_reducible assumption
    | intro _
    | with_reducible apply Pend.journal
    | with_reducible apply Pend.modTile
    | with_reducible apply Pend.raiseG

theorem Pend.streamTo {e0 : Nat} (p : Nat × Nat) (x : Nat) (s : State) (h : Pend e0 s) : Pend e0 (Machine.streamTo p x s) := by
  unfold Machine.streamTo
  repeat' first
    | dsimp only
    | with_reducible assumption
    | intro _
    | with_reducible apply Pend.setStream
    | with_reducible refine Pend.ite ?_ ?_
    | split

theorem Pend.shiftSaved {e0 : Nat} (t x : Nat) (p : Nat × Nat) (s : State) (h : Pend e0 s) : Pend e0 (Machine.shiftSaved t x p s) := by
  unfold Machine.shiftSaved
  repeat' first
    | dsimp only
    | with_reducible assumption
    | intro _
    | with_reducible apply Pend.modOp
    | with_reducible apply Pend.modTile
    | with_reducible apply Pend.streamTo
    | with_reducible refine Pend.ite ?_ ?_
    | split

theorem Pend.moveSaved {e0 : Nat} (t : Nat) (move : Bool) (p : Nat × Nat) (s0 : State) (h : Pend e0 s0) : Pend e0 (Machine.moveSaved t move p s0) := by
  unfold Machine.moveSaved
  repeat' first
    | dsimp only
    | with_reducible assumption
    | intro _
    | with_reducible apply Pend.dropHold
    | with_reducible apply Pend.endChain
    | with_reducible apply Pend.foldl
    | with_reducible apply Pend.loseOp
    | with_reducible apply Pend.nextFree
    | with_reducible apply Pend.shiftSaved
    | with_reducible refine Pend.ite ?_ ?_
    | split

theorem Pend.moveParked {e0 : Nat} (t : Nat) (move : Bool) (s : State) (h : Pend e0 s) : Pend e0 (Machine.moveParked t move s) := by
  unfold Machine.moveParked
  repeat' first
    | dsimp only
    | with_reducible assumption
    | intro _
    | with_reducible apply Pend.eachN
    | with_reducible apply Pend.nextFree
    | with_reducible apply Pend.setStream
    | with_reducible refine Pend.ite ?_ ?_
    | split

theorem Pend.dropRun {e0 : Nat} (t : Nat) (keep : Bool) (p : Nat × Nat) (s : State) (h : Pend e0 s) : Pend e0 (Machine.dropRun t keep p s) := by
  unfold Machine.dropRun
  repeat' first
    | dsimp only
    | with_reducible assumption
    | intro _
    | with_reducible apply Pend.loseOp
    | with_reducible apply Pend.modOp
    | with_reducible apply Pend.modTile
    | with_reducible apply Pend.rerunFrom
    | with_reducible apply Pend.setBank
    | with_reducible refine Pend.ite ?_ ?_
    | split

theorem Pend.quarantine {e0 : Nat} (t cause : Nat) (keep : Bool) (s : State) (h : Pend e0 s) : Pend e0 (Machine.quarantine t cause keep s) := by
  unfold Machine.quarantine
  repeat' first
    | dsimp only
    | with_reducible assumption
    | intro _
    | with_reducible apply Pend.dropRun
    | with_reducible apply Pend.foldl
    | with_reducible apply Pend.markQuarantine
    | with_reducible apply Pend.moveParked
    | with_reducible apply Pend.moveSaved
    | with_reducible apply Pend.settleAll
    | with_reducible refine Pend.ite ?_ ?_
    | split

theorem Pend.tileCe {e0 : Nat} (t : Nat) (s : State) (h : Pend e0 s) : Pend e0 (Machine.tileCe t s) := by
  unfold Machine.tileCe
  repeat' first
    | dsimp only
    | with_reducible assumption
    | intro _
    | with_reducible apply Pend.countCe
    | with_reducible apply Pend.modTile
    | with_reducible apply Pend.quarantine
    | with_reducible refine Pend.ite ?_ ?_
    | split

theorem Pend.tileUe {e0 : Nat} (t : Nat) (s : State) (h : Pend e0 s) : Pend e0 (Machine.tileUe t s) := by
  unfold Machine.tileUe
  repeat' first
    | dsimp only
    | with_reducible assumption
    | intro _
    | with_reducible apply Pend.journalUe
    | with_reducible apply Pend.quarantine
    | with_reducible apply Pend.raiseG

theorem Pend.restIn {e0 : Nat} (id i t : Nat) (s : State) (h : Pend e0 s) : Pend e0 (Machine.restIn id i t s) := by
  unfold Machine.restIn
  repeat' first
    | dsimp only
    | with_reducible assumption
    | intro _
    | with_reducible apply Pend.setBank
    | with_reducible refine Pend.ite ?_ ?_
    | split

theorem Pend.enterBank {e0 : Nat} (id i t : Nat) (s : State) (h : Pend e0 s) : Pend e0 (Machine.enterBank id i t s) := by
  unfold Machine.enterBank
  repeat' first
    | dsimp only
    | with_reducible assumption
    | intro _
    | with_reducible apply Pend.restIn
    | with_reducible apply Pend.wakeBank
    | with_reducible refine Pend.ite ?_ ?_
    | split

theorem Pend.writeTarget {e0 : Nat} (x : Nat) (material : Bytes) (s : State) (h : Pend e0 s) : Pend e0 (Machine.writeTarget x material s) := by
  unfold Machine.writeTarget
  repeat' first
    | dsimp only
    | with_reducible assumption
    | intro _
    | with_reducible apply Pend.modSlot

theorem Pend.finishOp {e0 : Nat} (id i : Nat) (e : OpEnd) (s : State) (h : Pend e0 s) : Pend e0 (Machine.finishOp id i e s) := by
  unfold Machine.finishOp
  repeat' first
    | dsimp only
    | with_reducible assumption
    | intro _
    | with_reducible apply Pend.modOp
    | with_reducible apply Pend.parkStream
    | with_reducible apply Pend.releaseOp
    | with_reducible apply Pend.settle
    | with_reducible apply Pend.writeTarget
    | with_reducible apply Pend.idS
    | with_reducible refine Pend.ite ?_ ?_
    | split

theorem Pend.groutRound {e0 : Nat} (t : Nat) (s : State) (h : Pend e0 s) : Pend e0 (Machine.groutRound t s) := by
  unfold Machine.groutRound
  repeat' first
    | dsimp only
    | with_reducible assumption
    | intro _
    | with_reducible apply Pend.modTile
    | with_reducible refine Pend.ite ?_ ?_
    | split

theorem Pend.unforward {e0 : Nat} (id : Nat) (s : State) (h : Pend e0 s) : Pend e0 (Machine.unforward id s) := by
  unfold Machine.unforward
  repeat' first
    | dsimp only
    | with_reducible assumption
    | intro _
    | with_reducible apply Pend.modCrs
    | with_reducible apply Pend.modReq

theorem Pend.stopReq {e0 : Nat} (id : Nat) (o : Outcome) (s : State) (h : Pend e0 s) : Pend e0 (Machine.stopReq id o s) := by
  unfold Machine.stopReq
  repeat' first
    | dsimp only
    | with_reducible assumption
    | intro _
    | with_reducible apply Pend.endChain
    | with_reducible apply Pend.sendFrame
    | with_reducible apply Pend.unforward
    | with_reducible apply Pend.idS
    | with_reducible refine Pend.ite ?_ ?_
    | split

theorem Pend.stopTenant {e0 : Nat} (n : TenantIx) (detail : Nat) (s : State) (h : Pend e0 s) : Pend e0 (Machine.stopTenant n detail s) := by
  unfold Machine.stopTenant
  repeat' first
    | dsimp only
    | with_reducible assumption
    | intro _
    | with_reducible apply Pend.dcReset
    | with_reducible apply Pend.eachN
    | with_reducible apply Pend.foldl
    | with_reducible apply Pend.setStream
    | with_reducible apply Pend.stopReq
    | with_reducible refine Pend.ite ?_ ?_
    | split

theorem Pend.crsState {e0 : Nat} (before after cause : Nat) (s : State) (h : Pend e0 s) : Pend e0 (Machine.crsState before after cause s) := by
  unfold Machine.crsState
  repeat' first
    | dsimp only
    | with_reducible assumption
    | intro _
    | with_reducible apply Pend.crsRecord
    | with_reducible apply Pend.raiseG

theorem Pend.idlePair {e0 : Nat} (p : Nat) (s : State) (h : Pend e0 s) : Pend e0 (Machine.idlePair p s) := by
  unfold Machine.idlePair
  repeat' first
    | dsimp only
    | with_reducible assumption
    | intro _
    | with_reducible apply Pend.dropWork
    | with_reducible apply Pend.modPeer
    | with_reducible refine Pend.ite ?_ ?_
    | split

theorem Pend.stopPairing {e0 : Nat} (p cause : Nat) (s : State) (h : Pend e0 s) : Pend e0 (Machine.stopPairing p cause s) := by
  unfold Machine.stopPairing
  repeat' first
    | dsimp only
    | with_reducible assumption
    | intro _
    | with_reducible apply Pend.idlePair
    | with_reducible apply Pend.modCrs
    | with_reducible refine Pend.ite ?_ ?_
    | split

theorem Pend.formationStops {e0 : Nat} (p : Nat) (s : State) (h : Pend e0 s) : Pend e0 (Machine.formationStops p s) := by
  unfold Machine.formationStops
  repeat' first
    | dsimp only
    | with_reducible assumption
    | intro _
    | with_reducible apply Pend.crsState
    | with_reducible apply Pend.stopPairing

theorem Pend.sayHello {e0 : Nat} (p : Nat) (s : State) (h : Pend e0 s) : Pend e0 (Machine.sayHello p s) := by
  unfold Machine.sayHello
  repeat' first
    | dsimp only
    | with_reducible assumption
    | intro _
    | with_reducible refine Pend.generate_eq (by assumption) ?_
    | with_reducible apply Pend.generate
    | with_reducible apply Pend.modPeer
    | with_reducible apply Pend.sendFrame
    | with_reducible refine Pend.ite ?_ ?_
    | split

theorem Pend.courseStatement {e0 : Nat} (p : Nat) (out : Bytes) (s : State) (h : Pend e0 s) : Pend e0 (Machine.courseStatement p out s).2 := by
  unfold Machine.courseStatement
  repeat' first
    | dsimp only
    | with_reducible assumption
    | intro _
    | with_reducible refine Pend.generate_eq (by assumption) ?_
    | with_reducible apply Pend.generate
    | with_reducible refine Pend.ite ?_ ?_
    | split

theorem Pend.courseStatement_eq {e0 : Nat} {p : Nat} {out : Bytes} {s : State} {y : Option Bytes} {t : State} (e : Machine.courseStatement p out s = (y, t)) (h : Pend e0 s) : Pend e0 t := by
  have := Pend.courseStatement p out s h
  rwa [e] at this

theorem Pend.masterAgree {e0 : Nat} (p : Nat) (s : State) (h : Pend e0 s) : Pend e0 (Machine.masterAgree p s) := by
  unfold Machine.masterAgree
  repeat' first
    | dsimp only
    | with_reducible assumption
    | intro _
    | with_reducible refine Pend.courseStatement_eq (by assumption) ?_
    | with_reducible apply Pend.courseStatement
    | with_reducible apply Pend.formationStops
    | with_reducible refine Pend.generate_eq (by assumption) ?_
    | with_reducible apply Pend.generate
    | with_reducible apply Pend.modPeer
    | with_reducible apply Pend.sendLong
    | with_reducible refine Pend.ite ?_ ?_
    | split

theorem Pend.joined {e0 : Nat} (p : Nat) (gkey : Bytes) (epoch : Nat) (s : State) (h : Pend e0 s) : Pend e0 (Machine.joined p gkey epoch s) := by
  unfold Machine.joined
  repeat' first
    | dsimp only
    | with_reducible assumption
    | intro _
    | with_reducible apply Pend.modPeer

theorem Pend.sendGroup {e0 : Nat} (p : Nat) (s : State) (h : Pend e0 s) : Pend e0 (Machine.sendGroup p s) := by
  unfold Machine.sendGroup
  repeat' first
    | dsimp only
    | with_reducible assumption
    | intro _
    | with_reducible refine Pend.generate_eq (by assumption) ?_
    | with_reducible apply Pend.generate
    | with_reducible apply Pend.joined
    | with_reducible apply Pend.modPeer
    | with_reducible apply Pend.raiseG
    | with_reducible apply Pend.sendFrame
    | with_reducible refine Pend.ite ?_ ?_
    | split

theorem Pend.masterFinish {e0 : Nat} (p : Nat) (s : State) (h : Pend e0 s) : Pend e0 (Machine.masterFinish p s) := by
  unfold Machine.masterFinish
  repeat' first
    | dsimp only
    | with_reducible assumption
    | intro _
    | with_reducible refine Pend.generate_eq (by assumption) ?_
    | with_reducible apply Pend.generate
    | with_reducible apply Pend.modCrs
    | with_reducible apply Pend.modPeer
    | with_reducible apply Pend.sendGroup
    | with_reducible refine Pend.ite ?_ ?_
    | split

theorem Pend.memberRespond {e0 : Nat} (p : Nat) (s : State) (h : Pend e0 s) : Pend e0 (Machine.memberRespond p s) := by
  unfold Machine.memberRespond
  repeat' first
    | dsimp only
    | with_reducible assumption
    | intro _
    | with_reducible refine Pend.courseStatement_eq (by assumption) ?_
    | with_reducible apply Pend.courseStatement
    | with_reducible apply Pend.formationStops
    | with_reducible refine Pend.generate_eq (by assumption) ?_
    | with_reducible apply Pend.generate
    | with_reducible apply Pend.modPeer
    | with_reducible apply Pend.sendLong
    | with_reducible refine Pend.ite ?_ ?_
    | split

theorem Pend.reAsk {e0 : Nat} (s : State) (h : Pend e0 s) : Pend e0 (Machine.reAsk s) := by
  unfold Machine.reAsk
  repeat' first
    | dsimp only
    | with_reducible assumption
    | intro _
    | with_reducible apply Pend.askBlock
    | with_reducible apply Pend.modCrs
    | with_reducible apply Pend.foldl

theorem Pend.finishGrant {e0 : Nat} (k : Nat) (s : State) (h : Pend e0 s) : Pend e0 (Machine.finishGrant k s) := by
  unfold Machine.finishGrant
  repeat' first
    | dsimp only
    | with_reducible assumption
    | intro _
    | with_reducible apply Pend.beginGrant
    | with_reducible apply Pend.grantBlock
    | with_reducible apply Pend.modCrs
    | with_reducible apply Pend.foldl
    | with_reducible refine Pend.ite ?_ ?_
    | split

theorem Pend.acknowledged {e0 : Nat} (p k : Nat) (s : State) (h : Pend e0 s) : Pend e0 (Machine.acknowledged p k s) := by
  unfold Machine.acknowledged
  repeat' first
    | dsimp only
    | with_reducible assumption
    | intro _
    | with_reducible apply Pend.finishGrant
    | with_reducible apply Pend.modCrs
    | with_reducible refine Pend.ite ?_ ?_
    | split

theorem Pend.withoutAcks {e0 : Nat} (p : Nat) (s0 s : State) (h : Pend e0 s) : Pend e0 (Machine.withoutAcks p s0 s) := by
  unfold Machine.withoutAcks
  repeat' first
    | dsimp only
    | with_reducible assumption
    | intro _
    | with_reducible apply Pend.acknowledged
    | with_reducible apply Pend.foldl

theorem Pend.countDrop {e0 : Nat} (s : State) (h : Pend e0 s) : Pend e0 (Machine.countDrop s) := by
  unfold Machine.countDrop
  repeat' first
    | dsimp only
    | with_reducible assumption
    | intro _
    | with_reducible apply Pend.modCrs
    | with_reducible refine Pend.ite ?_ ?_
    | split

theorem Pend.dropForeign {e0 : Nat} (r : Req) (s : State) (h : Pend e0 s) : Pend e0 (Machine.dropForeign r s) := by
  unfold Machine.dropForeign
  repeat' first
    | dsimp only
    | with_reducible assumption
    | intro _
    | with_reducible apply Pend.countDrop
    | with_reducible apply Pend.freeTiles
    | with_reducible apply Pend.retireReq
    | with_reducible refine Pend.ite ?_ ?_
    | split

theorem Pend.dropQueued {e0 : Nat} (p number : Nat) (s : State) (h : Pend e0 s) : Pend e0 (Machine.dropQueued p number s) := by
  unfold Machine.dropQueued
  repeat' first
    | dsimp only
    | with_reducible assumption
    | intro _
    | with_reducible apply Pend.countDrop
    | with_reducible apply Pend.modCrs
    | with_reducible refine Pend.ite ?_ ?_
    | split

theorem Pend.runHere {e0 : Nat} (id : Nat) (s : State) (h : Pend e0 s) : Pend e0 (Machine.runHere id s) := by
  unfold Machine.runHere
  repeat' first
    | dsimp only
    | with_reducible assumption
    | intro _
    | with_reducible apply Pend.modReq
    | with_reducible apply Pend.settle
    | with_reducible apply Pend.unforward
    | with_reducible refine Pend.ite ?_ ?_
    | split

theorem Pend.recallAll {e0 : Nat} (p : Nat) (s : State) (h : Pend e0 s) : Pend e0 (Machine.recallAll p s) := by
  unfold Machine.recallAll
  repeat' first
    | dsimp only
    | with_reducible assumption
    | intro _
    | with_reducible apply Pend.foldl
    | with_reducible apply Pend.modPeer
    | with_reducible apply Pend.runHere
    | with_reducible refine Pend.ite ?_ ?_
    | split

theorem Pend.dropWaiting {e0 : Nat} (p : Nat) (r : Req) (s : State) (h : Pend e0 s) : Pend e0 (Machine.dropWaiting p r s) := by
  unfold Machine.dropWaiting
  repeat' first
    | dsimp only
    | with_reducible assumption
    | intro _
    | with_reducible apply Pend.dropQueued
    | with_reducible refine Pend.ite ?_ ?_
    | split

theorem Pend.dropAll {e0 : Nat} (p : Nat) (s : State) (h : Pend e0 s) : Pend e0 (Machine.dropAll p s) := by
  unfold Machine.dropAll
  repeat' first
    | dsimp only
    | with_reducible assumption
    | intro _
    | with_reducible apply Pend.dropForeign
    | with_reducible apply Pend.dropWaiting
    | with_reducible apply Pend.foldl
    | with_reducible apply Pend.modPeer
    | with_reducible refine Pend.ite ?_ ?_
    | split

end Sys2Proof.Machine
end

