-- ==== Sys2Proof/Laws/Read.lean ====
section
/-!
SUPPORT. The fields of a register word that is put together from its fields.
-/

set_option Elab.async false

namespace Sys2Proof.Machine

theorem bit_put (l w v i : Nat) (hi : i < 64) :
    (put l (v % 2 ^ w)).toNat.testBit i = (decide (l ≤ i) && decide (i - l < w) && v.testBit (i - l)) := by
  simp only [put, BitVec.toNat_ofNat, Nat.testBit_mod_two_pow, hi, decide_true, Bool.true_and, Nat.testBit_shiftLeft, ge_iff_le, Bool.and_assoc]

/-- Bit i of a word put together from fields. -/
theorem bit_packed (fs : List (Nat × Nat × Nat)) (i : Nat) (hi : i < 64) :
    (packed fs).toNat.testBit i = fs.any (fun f => decide (f.1 ≤ i) && decide (i - f.1 < f.2.1) && f.2.2.testBit (i - f.1)) := by
  have key : ∀ (l : List (Nat × Nat × Nat)) (w : Word), (l.foldl (fun w f => w ||| put f.1 (f.2.2 % 2 ^ f.2.1)) w).toNat.testBit i
      = (w.toNat.testBit i || l.any (fun f => decide (f.1 ≤ i) && decide (i - f.1 < f.2.1) && f.2.2.testBit (i - f.1))) := by
    intro l
    induction l with
    | nil => intro w; simp
    | cons a t ih =>
      intro w
      rw [List.foldl_cons, ih, BitVec.toNat_or, Nat.testBit_or, bit_put _ _ _ _ hi, List.any_cons, Bool.or_assoc]
  rw [packed, key]
  simp

/-- A field of a word, by its bits. -/
theorem fld_eq (w : Word) (msb lsb v : Nat) (hv : v < 2 ^ (msb + 1 - lsb))
    (h : ∀ i, i < msb + 1 - lsb → w.toNat.testBit (i + lsb) = v.testBit i) : fld w msb lsb = v := by
  apply Nat.eq_of_testBit_eq
  intro i
  rw [fld, Nat.testBit_mod_two_pow, Nat.testBit_shiftRight]
  by_cases hi : i < msb + 1 - lsb
  · simp only [hi, decide_true, Bool.true_and]
    rw [Nat.add_comm lsb i]
    exact h i hi
  · simp only [hi, decide_false, Bool.false_and]
    symm
    apply Nat.testBit_eq_false_of_lt
    exact Nat.lt_of_lt_of_le hv (Nat.pow_le_pow_right (by omega) (by omega))

end Sys2Proof.Machine
end

