-- ==== Sys2Proof/Laws/Rings.lean ====
section
/-!
SUPPORT. What draining and settling change of a submission ring, and what a register write that is dropped leaves.
-/

set_option Elab.async false

namespace Sys2Proof.Machine
theorem dropReg_dropped (who : Who) (r : Reg) (val : Word) (s : State) : Dropped s (dropReg who r val s) := dropReg_facts who r val s
theorem dropPiece_full (who : Who) (r : Reg) (val : Word) (s : State) : dropPiece who r (~~~ 0) val s = dropReg who r val s := by rfl
theorem testBit_or12 {w : Nat} (a b : BitVec w) (k : Nat) : (a ||| b).toNat.testBit k = (a.toNat.testBit k || b.toNat.testBit k) := by
  rw [BitVec.toNat_or, Nat.testBit_or]
theorem testBit_pow {w e : Nat} (h : e < w) : (BitVec.ofNat w (2 ^ e)).toNat.testBit e = true := by
  rw [BitVec.toNat_ofNat, Nat.mod_eq_of_lt (Nat.pow_lt_pow_right (by omega) h)]; exact Nat.testBit_two_pow_self
theorem raiseT_event (n e : Nat) (s : State) (h : e < 23) : TenEvent (raiseT n e s) n e := by
  unfold TenEvent raiseT
  rw [modTen_ten_same]
  have h2 : sourceOf e < 12 := by unfold sourceOf; split_ifs <;> omega
  constructor
  · dsimp only; rw [testBit_or12, testBit_pow h, Bool.or_true]
  · dsimp only; rw [testBit_or12, testBit_pow h2, Bool.or_true]
theorem TenEvent.raiseT {n e : Nat} {s : State} (k f : Nat) (h : TenEvent s n e) : TenEvent (raiseT k f s) n e := by
  unfold TenEvent Machine.raiseT at *
  by_cases hk : n = k
  · subst hk; rw [modTen_ten_same]; dsimp only; rw [testBit_or12, testBit_or12, h.1, h.2]; simp
  · rw [modTen_ten_ne _ _ hk]; exact h
theorem TenEvent.of_ten {n e : Nat} {s t : State} (h : TenEvent s n e) (ht : t.ten n = s.ten n) : TenEvent t n e := by
  unfold TenEvent at *; rwa [ht]

/-- Draining held pulses changes nothing of a ring but its posts and its pulses. -/
theorem drainPulses_sq (n m f : Nat) (s : State) :
    (∃ p u, (drainPulses n m f s).sq n m = { s.sq n m with posts := p, pulses := u }) ∧ OtherSqs n m s (drainPulses n m f s) ∧ (drainPulses n m f s).tens = s.tens := by
  induction f generalizing s with
  | zero => exact ⟨⟨_, _, rfl⟩, fun _ _ _ => rfl, rfl⟩
  | succ f ih =>
    unfold drainPulses
    dsimp only
    split
    · exact ⟨⟨_, _, rfl⟩, fun _ _ _ => rfl, rfl⟩
    · split
      · obtain ⟨⟨p, u, e⟩, o, t⟩ := ih (modSq n m (fun q => { q with posts := releaseFor q _ q.rper q.posts, pulses := _ }) s)
        refine ⟨⟨p, u, ?_⟩, ?_, ?_⟩
        · rw [e, modSq_sq_same]
        · intro a b h; rw [o a b h, modSq_sq_ne _ _ h]
        · rw [t]; rfl
      · exact ⟨⟨_, _, rfl⟩, fun _ _ _ => rfl, rfl⟩

/-- What settling a ring can change of it, and that no counter moves (R59, R61). -/
theorem settleRing_sq (n m : Nat) (s : State) :
    (∃ h v su c g fl, (settleRing n m s).sq n m = { s.sq n m with head := h, voids := v, surplus := su, cache := c, charges := g, flight := fl }) ∧
    OtherSqs n m s (settleRing n m s) ∧ ((settleRing n m s).ten n).led = (s.ten n).led ∧ OtherTens n s (settleRing n m s) ∧
    (∀ e, TenEvent s n e → TenEvent (settleRing n m s) n e) := by
  unfold settleRing
  dsimp only
  split
  · exact ⟨⟨_, _, _, _, _, _, rfl⟩, fun _ _ _ => rfl, rfl, fun _ _ => rfl, fun _ h => h⟩
  · split
    · refine ⟨⟨(s.sq n m).tail, [], true, [], [], dropFlight (s.sq n m).flight, by rw [raiseT_sq, modSq_sq_same, modSq_sq_same]; rfl⟩, ?_, ?_, ?_, ?_⟩
      · intro a b h; rw [raiseT_sq, modSq_sq_ne _ _ h, modSq_sq_ne _ _ h]
      · rw [raiseT]; rw [modTen_ten_same]; rfl
      · intro k h; rw [raiseT, modTen_ten_ne _ _ h]; rfl
      · intro e h; exact TenEvent.raiseT _ _ (h.of_ten rfl)
    · refine ⟨⟨_, _, (s.sq n m).surplus, (s.sq n m).cache, (s.sq n m).charges, (s.sq n m).flight, by rw [modSq_sq_same]⟩, ?_, rfl, fun _ _ => rfl, fun e h => h.of_ten rfl⟩
      · intro a b h; rw [modSq_sq_ne _ _ h]

/-- A ring that is disabled or paused stays as it is; so does one with no void at its head and no surplus. -/
theorem settleRing_idle {n m : Nat} {s : State} (h : (s.sq n m).en = false ∨ (s.sq n m).paused = true) : settleRing n m s = s := by
  unfold settleRing
  dsimp only
  rw [if_pos (by rcases h with h | h <;> simp [h])]
theorem settleRing_calm {n m : Nat} {s : State} (hv : (s.sq n m).voids = []) (hq : (s.sq n m).queued ≠ 0 ∨ (s.sq n m).head = (s.sq n m).tail) :
    (settleRing n m s).sq n m = s.sq n m ∧ (settleRing n m s).tens = s.tens := by
  unfold settleRing
  dsimp only
  split
  · exact ⟨rfl, rfl⟩
  · rw [hv]
    simp only [List.length_nil, skipVoids]
    rw [if_neg (by rintro ⟨h1, h2⟩; rcases hq with h | h; exact h h1; exact h2 h)]
    rw [modSq_sq_same]
    refine ⟨?_, rfl⟩
    conv_rhs => rw [show s.sq n m = { s.sq n m with voids := [] } from by rw [← hv]]
end Sys2Proof.Machine
end

