-- ==== Sys2Proof/Laws/Chains.lean ====
section
/-!
SUPPORT. What ending a chain, starting it and resolving its keys leave of a request.
-/

set_option Elab.async false

namespace Sys2Proof.Machine
theorem settle_runs {r : Req} {id : Nat} {s : State} (h : s.req id = some r) {P : Req → Prop} (hP : ∀ r', r.to { r' with phase := r.phase } → P r') :
    RunsOn (settle id s) id r P := by
  obtain ⟨r', h1, h2, h3⟩ := settle_req id s h
  exact ⟨r', h1, h2.tenant, h2.entry, h3, hP r' h2⟩
theorem endChain_ends {r : Req} {id : Nat} {s : State} (o : Outcome) (h : s.req id = some r) : EndedWith (endChain id o s) id r o := by
  obtain ⟨r', h1, h2, h3, h4⟩ := endChain_req id o s h
  exact ⟨r', h1, h2.tenant, h2.entry, h3, h4⟩
theorem endStarts {r r0 : Req} {id : Nat} {s : State} (o : Outcome) (h : s.req id = some r) (h1 : r.tenant = r0.tenant) (h2 : r.entry = r0.entry) :
    EndedWith (endChain id o s) id r0 o := by
  obtain ⟨r', a, b, c, d⟩ := endChain_ends o h
  exact ⟨r', a, b.trans h1, c.trans h2, d⟩

theorem Grew.modSlot {k : Nat} {r0 : Req} {s : State} (x : Nat) (f : Slot → Slot) (h : Grew k r0 s) : Grew k r0 (Machine.modSlot x f s) := h

theorem Grew.resolveOp {k : Nat} {r0 : Req} {s : State} (found : Option (Fin 8 × KeyFault)) (id i : Nat) (h : Grew k r0 s) :
    Grew k r0 (Machine.resolveOp found id i s).1 := by
  have ks : ∀ y : State, Grew k r0 y → ∀ t, t.reqs = y.reqs → Grew k r0 t := fun y hy t e => hy.reqs e
  unfold Machine.resolveOp
  split
  · exact h
  · rename_i r hr
    have rest : ∀ s1 : State, Grew k r0 s1 → Grew k r0 (match resolveKey s1 r (r.op i).w (r.par i) with
        | .error f => (s1, some f)
        | .ok kk =>
          let y := Machine.modOp id i (fun o => { o with key := kk, madeAttr := if isKilnOp (r.op i).w.opc then frD (r.par i) else [] }) s1
          let s2 := if (r.op i).w.opc = 0x93 ∧ (r.op i).w.opt % 4 = 2 then
              setCacheEnt (fwHandle (r.par i)) ((y.cacheEnt (fwHandle (r.par i))).map (fun c : CacheEnt => { c with unload := true })) y
            else y
          match targetSlot (r.op i).w (r.par i) with
          | none => (s2, none)
          | some x =>
            match targetFail s2 r (r.op i).w (r.par i) x with
            | some f => (s2, some f)
            | none =>
              (Machine.modSlot x (fun v => { v with staged := true })
                (Machine.modOp id i (fun o => { o with claimed := true, madeAttr := (s2.slot x).act.attr }) s2), none)).1 := by
      intro s1 h1
      split
      · exact h1
      · rename_i kk hk
        have g1 : Grew k r0 (Machine.modOp id i (fun o => { o with key := kk, madeAttr := if isKilnOp (r.op i).w.opc then frD (r.par i) else [] }) s1) :=
          Grew.modOp id i _ h1 (fun o => ⟨Or.inl rfl, rfl, rfl, rfl, rfl, fun h => ⟨h, rfl⟩⟩)
        dsimp only
        split
        · split
          · exact ks _ g1 _ rfl
          · exact g1
        · split
          · split
            · exact ks _ g1 _ rfl
            · exact g1
          · refine Grew.modSlot _ _ (Grew.modOp id i _ ?_)
            split
            · exact ks _ g1 _ rfl
            · exact g1
    rcases found with _ | ⟨j, f⟩
    · exact rest s h
    · refine rest _ ?_
      dsimp only
      split
      · exact h.only (Only.readKey _ _ _ _ _ (A := [.notice, .ces, .ks, .jrn, .evPend, .pviol, .pvcnt, .out]) (by decide) (Only.refl _ _)) (by decide)
      · exact h
theorem Grew.resolveAll {k : Nat} {r0 : Req} {s : State} (found : Option (Fin 8 × KeyFault)) (id : Nat) (l : List Nat) (h : Grew k r0 s) :
    Grew k r0 (Machine.resolveAll found id l s).1 := by
  induction l generalizing s with
  | nil => exact h
  | cons i t ih =>
    have g := Grew.resolveOp found id i h
    unfold Machine.resolveAll
    split
    · next e => rw [e] at g; exact g
    · next e => rw [e] at g; exact ih g
theorem Grew.allocateAll {k : Nat} {r0 : Req} {s : State} (id : Nat) (l : List Nat) (h : Grew k r0 s) : Grew k r0 (Machine.allocateAll id l s).1 := by
  induction l generalizing s with
  | nil => exact h
  | cons i t ih =>
    unfold Machine.allocateAll
    split
    · exact h
    · dsimp only
      split
      · split
        · next e => exact ih (Grew.modOp _ _ _ (h.only (Only.allocate_eq (A := [.notice, .tens, .ks, .jrn, .evPend, .pviol, .pvcnt, .crs, .out]) (by decide) e (Only.refl _ _)) (by decide)))
        · next e => exact h.only (Only.allocate_eq (A := [.notice, .tens, .ks, .jrn, .evPend, .pviol, .pvcnt, .crs, .out]) (by decide) e (Only.refl _ _)) (by decide)
      · exact ih h
/-- A request that has been opened goes on, or ends. -/
def Going (id : Nat) (r : Req) (t : State) : Prop :=
  ∃ r', t.req id = some r' ∧ r'.tenant = r.tenant ∧ r'.entry = r.entry ∧ (r'.phase = .running ∨ (r'.phase = .ended ∧ r'.outcome.isSome = true))
theorem Going.end {id : Nat} {r r1 : Req} {s : State} (o : Outcome) (h : s.req id = some r1) (h1 : r1.tenant = r.tenant) (h2 : r1.entry = r.entry) : Going id r (endChain id o s) := by
  obtain ⟨r', a, b, c, d, e⟩ := endStarts o h h1 h2
  exact ⟨r', a, b, c, Or.inr ⟨d, by rw [e]; rfl⟩⟩
theorem startChain_goes {id : Nat} {r : Req} {s : State} (found : Option (Fin 8 × KeyFault)) (h : s.req id = some r) : Going id r (startChain found id s) := by
  unfold startChain
  rw [h]
  dsimp only
  split
  · obtain ⟨r', e1, e2, e3⟩ := settle_req id _ (modReq_req_same (fun r => { r with phase := .running }) (fun _ => rfl) h)
    exact ⟨r', e1, e2.tenant, e2.entry, e3⟩
  split
  · refine Going.end _ (modReq_req_same _ (fun _ => ?_) h) ?_ ?_ <;> rfl
  · have h0 : ∃ r1, (openEntry id s).req id = some r1 ∧ r1.tenant = r.tenant ∧ r1.entry = r.entry ∧ r1.phase = .running := by
      unfold openEntry
      refine ⟨_, modReq_req_same _ (fun _ => ?_) h, ?_, ?_, ?_⟩ <;> rfl
    obtain ⟨r1, a1, a2, a3, a4⟩ := h0
    split
    · exact Going.end _ a1 a2 a3
    · split
      · exact Going.end _ a1 a2 a3
      · have g := Grew.resolveAll found id (List.range (eNops r.entry)) (Grew.refl a1)
        split
        · next e =>
          rw [e] at g; obtain ⟨r2, b1, b2⟩ := g
          exact Going.end _ b1 (b2.tenant.trans a2) (b2.entry.trans a3)
        · next s2 e =>
          rw [e] at g; obtain ⟨r2, b1, b2⟩ := g
          rw [b1]
          dsimp only
          split
          · exact Going.end _ b1 (b2.tenant.trans a2) (b2.entry.trans a3)
          · have g2 := Grew.allocateAll id (List.range (eNops r.entry)) (Grew.refl b1)
            split
            · next e2 =>
              rw [e2] at g2; obtain ⟨r3, c1, c2⟩ := g2
              exact Going.end _ c1 ((c2.tenant.trans b2.tenant).trans a2) ((c2.entry.trans b2.entry).trans a3)
            · next s3 e2 =>
              rw [e2] at g2; obtain ⟨r3, c1, c2⟩ := g2
              have d2 := (c2.tenant.trans b2.tenant).trans a2
              have d3 := (c2.entry.trans b2.entry).trans a3
              have d4 : r3.phase = .running := (c2.phase.trans b2.phase).trans a4
              split
              · obtain ⟨r4, e1, e2, e3⟩ := settle_req id s3 c1
                exact ⟨r4, e1, e2.tenant.trans d2, e2.entry.trans d3, e3.imp (fun h => h.trans d4) (fun h => h)⟩
              · refine ⟨r3, ?_, d2, d3, Or.inl d4⟩
                rw [req_of_reqs ((Only.foldl (A := [.out]) _ (Only.refl _ s3) (fun s a hs => Only.emit _ (by decide) hs)).2 .reqs (by decide)), c1]
end Sys2Proof.Machine
end

