-- ==== Sys2Proof/Laws/AtTile.lean ====
section
/-!
SUPPORT. What an operation that starts, waits or is saved holds at its tiles.
-/

set_option Elab.async false

namespace Sys2Proof.Machine
theorem eachN_modTile (ts : List Nat) (f : Tile → Tile) (hf : ∀ u, f (f u) = f u) (s : State) (x : Nat) :
    (eachN ts (fun t => modTile t f) s).tile x = if x ∈ ts then f (s.tile x) else s.tile x := by
  unfold eachN
  induction ts generalizing s with
  | nil => simp
  | cons a t ih =>
    rw [List.foldl_cons, ih]
    by_cases h : x = a
    · subst h; simp [hf]
    · rw [modTile_tile_ne _ _ h]; simp [h]
theorem tiles_of_only {A : List Part} {s t : State} (h : Only A s t) (hA : Part.tiles ∉ A) (x : Nat) : t.tile x = s.tile x := by
  unfold State.tile; rw [h.2 .tiles hA]
theorem tile_of_tiles {s t : State} (h : t.tiles = s.tiles) (x : Nat) : t.tile x = s.tile x := by unfold State.tile; rw [h]

/-- An operation that takes its tiles. -/
theorem startOn_runs {r : Req} {id i : Nat} {ts : List Nat} {s : State} (h : s.req id = some r) (hi : i < r.ops.length)
    (hc : ((r.op i).phase = .waiting ∧ isStream (r.op i).w = true) → partFail s r i = none) :
    RunsOn (startOn id i ts s) id r (fun r' => (r'.op i).tiles = ts ∧ ((r'.op i).phase = .running ∨ (r'.op i).phase = .done) ∧
      (r'.phase = .running → ∀ x ∈ ts, ((startOn id i ts s).tile x).run = some (id, i))) := by
  have e : startOn id i ts s = settle id (modOp id i (fun o => { o with phase := .running, tiles := ts, lastTile := ts.headD 0xFF, sliceAt := o.consumed, rerun := false })
      (eachN ts (fun t => modTile t (fun u => { u with run := some (id, i), saved := u.saved.filter (· ≠ (id, i)) }))
        (if decide ((r.op i).phase = .waiting) = true then openStream r i (ts.headD 16) s else s))) := by
    unfold startOn
    rw [h]
    dsimp only
    have : (if (decide ((r.op i).phase = .waiting) && isStream (r.op i).w) = true then partFail s r i else none) = none := by
      split
      · next hh => simp only [Bool.and_eq_true, decide_eq_true_eq] at hh; exact hc hh
      · rfl
    rw [this]
    rfl
  rw [e]
  generalize hy : (if decide ((r.op i).phase = .waiting) = true then openStream r i (ts.headD 16) s else s) = y
  have y1 : y.req id = some r := by
    rw [← hy]; split
    · rw [req_of_reqs ((Only.openStream r i _ s (A := [.streams]) (by decide) (Only.refl _ _)).2 .reqs (by decide)), h]
    · exact h
  generalize hz : eachN ts _ y = z
  have z1 : z.req id = some r := by
    rw [← hz, req_of_reqs ((Only.eachN (A := [.tiles]) ts (Only.refl _ y) (fun i s hs => Only.modTile _ _ (by decide) hs)).2 .reqs (by decide)), y1]
  have z2 : ∀ x ∈ ts, (z.tile x).run = some (id, i) := by
    intro x hx
    rw [← hz, eachN_modTile _ _ (by intro u; simp), if_pos hx]
  have w1 := modOp_req_same i (fun o => { o with phase := .running, tiles := ts, lastTile := ts.headD 0xFF, sliceAt := o.consumed, rerun := false }) z1
  generalize hw : modOp id i _ z = w at w1 ⊢
  have w2 : ∀ x, w.tile x = z.tile x := by intro x; rw [← hw]; rfl
  obtain ⟨v, f1, f2, f3⟩ := settle_cases id w w1
  obtain ⟨r1, g1, g2⟩ := f2 id _ (Grew.refl w1)
  have o1 := g2.op i
  rw [op_modify_same _ _ _ hi] at o1
  rcases f3 with f3 | ⟨o, f3⟩
  · rw [f3]
    refine ⟨r1, g1, g2.tenant, g2.entry, Or.inl g2.phase, o1.2.2.1, o1.1, ?_⟩
    intro _ x hx
    rw [tiles_of_only f1 (by decide), w2, z2 x hx]
  · obtain ⟨r2, a1, a2, a3, a4⟩ := endChain_req id o v g1
    rw [f3]
    have o2 := a2.op i
    refine ⟨r2, a1, a2.tenant.trans g2.tenant, a2.entry.trans g2.entry, Or.inr ⟨a3, by rw [a4]; rfl⟩, o2.2.2.1.trans o1.2.2.1, ?_, ?_⟩
    · have o3 : (r2.op i).phase = (r1.op i).phase ∨ (r2.op i).phase = .done := o2.1
      rcases o3 with e | e
      · rw [e]; exact o1.1
      · exact Or.inr e
    · intro hr; rw [a3] at hr; cases hr
theorem canStart_facts {r : Req} {i : Nat} (h : r.canStart i = true) : r.phase = .running ∧ i < r.ops.length ∧ (r.op i).phase = .waiting := by
  unfold Req.canStart at h
  simp only [Bool.and_eq_true, decide_eq_true_eq] at h
  exact ⟨h.1.1.1.1.1, h.1.1.2, h.1.2⟩

theorem BankSt.wake_holds (p : Nat × Nat) (b : BankSt) (id i : Nat) : (b.wake p).holds id i = b.holds id i := by
  unfold BankSt.wake
  split
  · next e => subst e; simp [BankSt.holds]
  · rfl

/-- What rests in a bank of a tile goes on there. -/
theorem runBank_holds (t : Nat) (p : Nat × Nat) (x id i : Nat) (s : State) :
    (((runBank t p s).tile x).bankA.holds id i = (s.tile x).bankA.holds id i) ∧ (((runBank t p s).tile x).bankB.holds id i = (s.tile x).bankB.holds id i) := by
  unfold runBank
  split
  · change ((eachN _ _ s).tile x).bankA.holds id i = _ ∧ ((eachN _ _ s).tile x).bankB.holds id i = _
    rw [eachN_modTile _ _ (fun u => by simp only [BankSt.wake]; congr 1 <;> (split <;> simp_all))]
    split
    · exact ⟨BankSt.wake_holds _ _ _ _, BankSt.wake_holds _ _ _ _⟩
    · exact ⟨rfl, rfl⟩
  · exact ⟨rfl, rfl⟩

/-- Waking a bank of a tile moves no operation out of a bank. -/
theorem wakeBank_holds (t x id i : Nat) (s : State) :
    (((wakeBank t s).tile x).bankA.holds id i = (s.tile x).bankA.holds id i) ∧ (((wakeBank t s).tile x).bankB.holds id i = (s.tile x).bankB.holds id i) := by
  unfold wakeBank
  split
  · exact ⟨rfl, rfl⟩
  · exact runBank_holds _ _ _ _ _ _
  · exact runBank_holds _ _ _ _ _ _

/-- Request id of the record r is there, under way, its operation i on its tiles. -/
def Placed (id i : Nat) (ts : List Nat) (r : Req) (s : State) : Prop :=
  ∃ r', s.req id = some r' ∧ r'.tenant = r.tenant ∧ r'.entry = r.entry ∧ r'.phase = r.phase ∧ r'.ops.length = r.ops.length ∧ (r'.op i).tiles = ts ∧ (r'.op i).phase ≠ .waiting

theorem Placed.modOp {id i : Nat} {ts : List Nat} {r : Req} {s : State} (id2 i2 : Nat) (h : Placed id i ts r s) :
    Placed id i ts r (Machine.modOp id2 i2 (fun o => { o with phase := .running, rerun := false }) s) := by
  obtain ⟨r', h1, h2, h3, h4, h5, h6, h7⟩ := h
  by_cases e : id = id2
  · subst e
    refine ⟨_, modOp_req_same i2 _ h1, h2, h3, h4, by simpa using h5, ?_, ?_⟩
    · rw [op_modify]; split
      · next e => exact h6
      · exact h6
    · rw [op_modify]; split
      · simp
      · exact h7
  · exact ⟨r', by rw [modOp_req_ne _ _ e]; exact h1, h2, h3, h4, h5, h6, h7⟩
theorem Placed.reqs {id i : Nat} {ts : List Nat} {r : Req} {s t : State} (h : Placed id i ts r s) (e : t.reqs = s.reqs) : Placed id i ts r t := by
  obtain ⟨r', h1, h2⟩ := h; exact ⟨r', by rw [req_of_reqs e]; exact h1, h2⟩
theorem Placed.runBank {id i : Nat} {ts : List Nat} {r : Req} {s : State} (t : Nat) (p : Nat × Nat) (h : Placed id i ts r s) : Placed id i ts r (Machine.runBank t p s) := by
  unfold Machine.runBank
  split
  · exact Placed.modOp _ _ (h.reqs ((Only.eachN (A := [.tiles]) _ (Only.refl _ s) (fun i s hs => Only.modTile _ _ (by decide) hs)).2 .reqs (by decide)))
  · exact h
theorem Placed.wakeBank {id i : Nat} {ts : List Nat} {r : Req} {s : State} (t : Nat) (h : Placed id i ts r s) : Placed id i ts r (Machine.wakeBank t s) := by
  unfold Machine.wakeBank
  split
  · exact h
  · exact Placed.runBank _ _ h
  · exact Placed.runBank _ _ h
theorem enterBank_holds (id i t : Nat) (s : State) :
    ((((enterBank id i t s).tile t).bankA.holds id i || ((enterBank id i t s).tile t).bankB.holds id i) = true) ∧
    (∀ x, x ≠ t → ((((enterBank id i t s).tile x).bankA.holds id i || ((enterBank id i t s).tile x).bankB.holds id i) =
      ((s.tile x).bankA.holds id i || (s.tile x).bankB.holds id i))) := by
  unfold enterBank restIn setBank
  constructor
  · rw [(wakeBank_holds _ _ _ _ _).1, (wakeBank_holds _ _ _ _ _).2, modTile_tile_same]
    split <;> simp [BankSt.holds]
  · intro x hx
    rw [(wakeBank_holds _ _ _ _ _).1, (wakeBank_holds _ _ _ _ _).2, modTile_tile_ne _ _ hx]
theorem Placed.enterBank {id i : Nat} {ts : List Nat} {r : Req} {s : State} (a b t : Nat) (h : Placed id i ts r s) : Placed id i ts r (Machine.enterBank a b t s) := by
  unfold Machine.enterBank restIn setBank
  exact Placed.wakeBank _ (h.reqs rfl)
theorem settle_placed {id i : Nat} {ts : List Nat} {r : Req} {s : State} (h : Placed id i ts r s) {P : Tile → Prop} {l : List Nat} (hP : ∀ x ∈ l, P (s.tile x)) (hr : r.phase = .running) :
    RunsOn (settle id s) id r (fun r' => (r'.op i).tiles = ts ∧ (r'.op i).phase ≠ .waiting ∧ (r'.phase = .running → ∀ x ∈ l, P ((settle id s).tile x))) := by
  obtain ⟨r0, h1, h2, h3, h4, h5, h6, h7⟩ := h
  obtain ⟨v, f1, f2, f3⟩ := settle_cases id s h1
  obtain ⟨r1, g1, g2⟩ := f2 id _ (Grew.refl h1)
  have o1 := g2.op i
  have n1 : (r1.op i).phase ≠ .waiting := by
    rcases o1.1 with e | e
    · rw [e]; exact h7
    · rw [e]; simp
  rcases f3 with f3 | ⟨o, f3⟩
  · rw [f3]
    refine ⟨r1, g1, g2.tenant.trans h2, g2.entry.trans h3, Or.inl (g2.phase.trans h4), o1.2.2.1.trans h6, n1, ?_⟩
    intro _ x hx
    rw [tiles_of_only f1 (by decide)]; exact hP x hx
  · obtain ⟨r2, a1, a2, a3, a4⟩ := endChain_req id o v g1
    rw [f3]
    have o2 := a2.op i
    refine ⟨r2, a1, (a2.tenant.trans g2.tenant).trans h2, (a2.entry.trans g2.entry).trans h3, Or.inr ⟨a3, by rw [a4]; rfl⟩, (o2.2.2.1.trans o1.2.2.1).trans h6, ?_, ?_⟩
    · have o3 : (r2.op i).phase = (r1.op i).phase ∨ (r2.op i).phase = .done := o2.1
      rcases o3 with e | e
      · rw [e]; exact n1
      · rw [e]; simp
    · intro hr; rw [a3] at hr; cases hr

theorem modOp_tile (id i : Nat) (f : OpSt → OpSt) (s : State) (x : Nat) : (modOp id i f s).tile x = s.tile x := rfl
theorem op_lt' {r : Req} {i : Nat} (h : (r.op i).phase ≠ .waiting) : i < r.ops.length := by
  by_contra hc
  apply h
  unfold Req.op
  rw [List.getD_eq_default _ _ (by omega)]
theorem eachN_ind {P : State → Prop} (l : List Nat) (f : Nat → State → State) (s : State) (h : P s) (hf : ∀ i s, P s → P (f i s)) : P (eachN l f s) := by
  unfold eachN
  induction l generalizing s with
  | nil => exact h
  | cons a t ih => exact ih _ (hf a s h)

/-- An operation of another request keeps its place in a tile when a chain ends. -/
def Kept (p : Nat × Nat) (x : Nat) (s : State) : Prop := p ∈ (s.tile x).saved ∧ (s.tile x).run ≠ some p
theorem Kept.tiles {p : Nat × Nat} {x : Nat} {s t : State} (h : Kept p x s) (e : t.tiles = s.tiles) : Kept p x t := by
  unfold Kept at *; rwa [tile_of_tiles e]
theorem Kept.freeTiles {p : Nat × Nat} {x : Nat} {s : State} (id : Nat) (hp : p.1 ≠ id) (h : Kept p x s) : Kept p x (Machine.freeTiles id s) := by
  unfold Machine.freeTiles
  refine eachN_ind _ _ _ h (fun t s hs => ?_)
  unfold Kept at *
  by_cases e : x = t
  · subst e
    rw [modTile_tile_same]
    refine ⟨by simp [hs.1, hp], ?_⟩
    dsimp only
    split
    · simp
    · exact hs.2
  · rw [modTile_tile_ne _ _ e]; exact hs
theorem Kept.only {p : Nat × Nat} {x : Nat} {A : List Part} {s t : State} (h : Kept p x s) (f : Only A s t) (hA : Part.tiles ∉ A) : Kept p x t :=
  h.tiles (f.2 .tiles hA)

theorem Kept.freeJobs {p : Nat × Nat} {x : Nat} (l : List Job) (hl : ∀ j ∈ l, p.1 ≠ j.id) (s : State) (h : Kept p x s) :
    Kept p x (l.foldl (fun s j => Machine.freeTiles j.id s) s) := by
  induction l generalizing s with
  | nil => exact h
  | cons j t ih =>
    rw [List.foldl_cons]
    have h1 : p.1 ≠ j.id := hl j (List.mem_cons_self ..)
    have h2 := Kept.freeTiles (s := s) j.id h1 h
    generalize Machine.freeTiles j.id s = s1 at h2 ⊢
    exact ih (fun k hk => hl k (List.mem_cons_of_mem _ hk)) s1 h2

/-- What a request has on a tile stays when work of the engine itself is dropped: its number is no request's. -/
theorem Kept.dropWork {p : Nat × Nat} {x : Nat} {s : State} (work : Purpose) (hs : (s.req p.1).isSome = true) (h : Kept p x s) :
    Kept p x (Machine.dropWork work s) := by
  have k := Kept.freeJobs (s.sch.jobs.filter (fun j => decide (j.work.purpose = work) && (s.req j.id).isNone)) (fun j hj e => by
    simp only [List.mem_filter, Bool.and_eq_true, decide_eq_true_eq] at hj
    rw [← e, Option.isNone_iff_eq_none] at hj
    rw [hj.2.2] at hs
    cases hs) s h
  exact k.only (Only.modSch _ (A := [.sch]) (by decide) (Only.refl _ _)) (by decide)

theorem dropWork_reqs (work : Purpose) (s : State) : (dropWork work s).reqs = s.reqs :=
  (Only.dropWork work s (A := [.sch, .tiles]) (by decide) (Only.refl _ s)).2 .reqs (by decide)

theorem Kept.claims {p : Nat × Nat} {x : Nat} (o : Outcome) (l : List Nat) (s : State) (hs : (s.req p.1).isSome = true) (h : Kept p x s) :
    Kept p x (eachN l (fun x s => if o.status = 0 then beginVerify x s else unclaim x s) s) := by
  refine (eachN_ind (P := fun y => (y.req p.1).isSome = true ∧ Kept p x y) l _ s ⟨hs, h⟩ (fun i y hy => ?_)).2
  split
  · have f := Only.beginVerify i y (A := [.sch, .ks]) (by decide) (Only.refl _ y)
    exact ⟨by rw [req_of_reqs (f.2 .reqs (by decide))]; exact hy.1, hy.2.only f (by decide)⟩
  · unfold Machine.unclaim
    refine ⟨?_, Kept.dropWork _ hy.1 (hy.2.tiles rfl)⟩
    rw [req_of_reqs (dropWork_reqs _ _)]
    exact hy.1

theorem Kept.endChain {p : Nat × Nat} {x : Nat} {s : State} (id : Nat) (o : Outcome) (hp : p.1 ≠ id) (hs : (s.req p.1).isSome = true) (h : Kept p x s) :
    Kept p x (Machine.endChain id o s) := by
  unfold Machine.endChain
  split
  · exact h
  · rename_i r hr
    dsimp only
    generalize hs1 : dropStreams r o (endStreams r o (Machine.freeTiles id s)) = s1
    have r1 : (s1.req p.1).isSome = true := by
      rw [← hs1, req_of_reqs ((Only.dropStreams _ _ _ (A := [.tiles, .streams]) (by decide) (Only.endStreams _ _ _ (by decide) (Only.freeTiles _ _ (by decide) (Only.refl _ s)))).2 .reqs (by decide))]
      exact hs
    have k1 : Kept p x s1 := by
      rw [← hs1]
      exact (Kept.freeTiles id hp h).only (Only.dropStreams r o _ (A := [.streams]) (by decide) (Only.endStreams r o _ (by decide) (Only.refl _ _))) (by decide)
    have k2 := Kept.claims o r.claims s1 r1 k1
    generalize eachN r.claims _ s1 = s2 at k2 ⊢
    generalize hs3 : (if mustScrub r o = true then scrubAll r s2 else s2) = s3
    have k3 : Kept p x s3 := by
      rw [← hs3]; split
      · exact k2.only (Only.scrubAll _ _ (A := [.tens, .reqs, .evPend, .pviol, .pvcnt, .out]) (by decide) (Only.refl _ _)) (by decide)
      · exact k2
    generalize hs6 : modSch _ (modFp _ (modReq id _ s3)) = s6
    have k6 : Kept p x s6 := k3.tiles (by rw [← hs6]; rfl)
    split
    · exact k6.only (Only.fenceFrame r _ (A := [.tens, .reqs, .evPend, .pviol, .pvcnt, .out]) (by decide)
        (Only.fencePort _ _ _ (by decide) (Only.fencePort _ _ _ (by decide) (Only.refl _ _)))) (by decide)
    · exact k6

/-- The end of a chain leaves every other request as it was. -/
theorem fencePort_req_ne {id k : Nat} (p : Bool) (s : State) (h : k ≠ id) : (fencePort id p s).req k = s.req k := by
  unfold fencePort
  split
  · rfl
  · split
    · rfl
    · split
      · exact req_of_reqs ((Only.emitRd _ _ s (A := [.out]) (by decide) (Only.refl _ _)).2 .reqs (by decide)) _
      · rw [req_of_reqs ((Only.reqViol _ _ _ _ _ (A := [.tens, .evPend, .pviol, .pvcnt, .out]) (by decide) (Only.refl _ _)).2 .reqs (by decide))]
        refine modReq_req_ne _ (fun r => ?_) h
        rfl
theorem fenceFrame_req_ne {k : Nat} (q : Req) (s : State) (h : k ≠ q.id) : (fenceFrame q s).req k = s.req k := by
  unfold fenceFrame
  refine eachN_ind (P := fun y => y.req k = s.req k) _ _ s rfl (fun b z hz => ?_)
  split
  · exact (modBuf_req_ne b (fun q => { q with fence := true }) h).trans hz
  · exact hz
theorem scrubSeg_req_ne {k : Nat} (q : Req) (a len : Nat) (s : State) (h : k ≠ q.id) : (scrubSeg q a len s).req k = s.req k := by
  have put : ∀ n y, (if n = 0 then y else modReq q.id (fun r => r.sentOn a n) (emitWr a (zeros n) y)).req k = y.req k := by
    intro n y
    split
    · rfl
    · rw [modReq_req_ne (fun r => r.sentOn a n) (fun _ => rfl) h]
      exact req_of_reqs ((Only.emitWr a (zeros n) y (A := [.out]) (by decide) (Only.refl _ _)).2 .reqs (by decide)) k
  unfold scrubSeg
  dsimp only
  split
  · exact put _ _
  · rw [req_of_reqs ((Only.reqViol _ _ _ _ _ (A := [.tens, .evPend, .pviol, .pvcnt, .out]) (by decide) (Only.refl _ _)).2 .reqs (by decide))]
    exact put _ _
theorem scrubAll_req_ne {k : Nat} (q : Req) (s : State) (h : k ≠ q.id) : (scrubAll q s).req k = s.req k := by
  unfold scrubAll
  refine eachN_ind (P := fun y => y.req k = s.req k) _ _ s rfl (fun b z hz => ?_)
  dsimp only
  split
  · split
    · rw [← hz]; exact req_of_reqs ((Only.emit _ (A := [.out]) (by decide) (Only.refl _ z)).2 .reqs (by decide)) k
    · exact hz
  · generalize segsOf _ _ _ _ = l
    induction l generalizing z with
    | nil => exact hz
    | cons g t ih => exact ih _ ((scrubSeg_req_ne q _ _ z h).trans hz)
theorem endChain_req_ne {id k : Nat} (o : Outcome) (s : State) (h : k ≠ id) : (endChain id o s).req k = s.req k := by
  unfold endChain
  split
  · rfl
  · rename_i r hr
    dsimp only
    have e1 : ∀ (b : Bool) (y : State), (if b = true then fenceFrame r (fencePort id true (fencePort id false y)) else y).req k = y.req k := by
      intro b y; split
      · rw [fenceFrame_req_ne _ _ (by rw [req_id hr]; exact h), fencePort_req_ne _ _ h, fencePort_req_ne _ _ h]
      · rfl
    rw [e1]
    generalize hs2 : eachN r.claims _ _ = s2
    have e2 : s2.reqs = s.reqs := by
      rw [← hs2, (Only.eachN (A := [.sch, .tiles, .ks]) r.claims (Only.refl _ _) (fun x y hy => ?_)).2 .reqs (by decide)]
      · exact (Only.dropStreams _ _ _ (A := [.tiles, .streams]) (by decide) (Only.endStreams _ _ _ (by decide) (Only.freeTiles _ _ (by decide) (Only.refl _ s)))).2 .reqs (by decide)
      · split
        · exact Only.beginVerify _ _ (by decide) hy
        · exact Only.unclaim _ _ (by decide) hy
    generalize hs3 : (if mustScrub r o = true then scrubAll r s2 else s2) = s3
    have e3 : s3.req k = s.req k := by
      rw [← hs3, ← req_of_reqs e2]; split
      · exact scrubAll_req_ne r s2 (by rw [req_id hr]; exact h)
      · rfl
    rw [show ∀ y : State, (modSch (fun c => { c with nextId := c.nextId + 1 }) (modFp (fun p => { p with waiting := p.waiting.filter (· ≠ id) }) y)).req k = y.req k from fun _ => rfl]
    rw [← e3]
    refine modReq_req_ne _ (fun r => ?_) h
    rfl

theorem Kept.holdTile {p q : Nat × Nat} {x : Nat} {s : State} (n : Nat) (hpq : q ≠ p) (h : Kept p x s) : Kept p x (Machine.holdTile q n s) := by
  unfold Machine.holdTile Kept at *
  by_cases e : x = n
  · subst e
    rw [modTile_tile_same]
    refine ⟨?_, ?_⟩
    · simp only [List.mem_filter]
      exact ⟨h.1, by simpa using fun e => hpq e.symm⟩
    · simpa using hpq
  · rw [modTile_tile_ne _ _ e]; exact h

/-- A saved operation through the start of another one. -/
theorem startOn_saved {p q : Nat × Nat} {ts : List Nat} {r : Req} {n : Nat} {s : State} (hpq : q ≠ p) (h : s.req p.1 = some r) (hsv : (r.op p.2).phase = .saved) (hk : ∀ x ∈ ts, Kept p x s) :
    RunsOn (startOn q.1 q.2 [n] s) p.1 r (fun r' => ((r'.op p.2).phase = .saved ∨ (r'.op p.2).phase = .done) ∧
      (r'.phase ≠ .ended → ∀ x ∈ ts, Kept p x (startOn q.1 q.2 [n] s))) := by
  have fin : ∀ (o : Outcome) (y : State) (r1 : Req), y.req p.1 = some r1 → r1.tenant = r.tenant → r1.entry = r.entry → (r1.phase = r.phase) → ((r1.op p.2).phase = .saved ∨ (r1.op p.2).phase = .done) →
      (∀ x ∈ ts, Kept p x y) → RunsOn (endChain q.1 o y) p.1 r (fun r' => ((r'.op p.2).phase = .saved ∨ (r'.op p.2).phase = .done) ∧
      (r'.phase ≠ .ended → ∀ x ∈ ts, Kept p x (endChain q.1 o y))) := by
    intro o y r1 a1 a2 a3 a4 a5 a6
    by_cases e : p.1 = q.1
    · obtain ⟨r2, b1, b2, b3, b4⟩ := endChain_req q.1 o y (by rw [← e]; exact a1)
      have o2 : (r2.op p.2).phase = (r1.op p.2).phase ∨ (r2.op p.2).phase = .done := (b2.op p.2).1
      refine ⟨r2, by rw [e]; exact b1, b2.tenant.trans a2, b2.entry.trans a3, Or.inr ⟨b3, by rw [b4]; rfl⟩, ?_, fun hr => absurd b3 hr⟩
      rcases o2 with o2 | o2
      · rw [o2]; exact a5
      · exact Or.inr o2
    · exact ⟨r1, by rw [endChain_req_ne _ _ e]; exact a1, a2, a3, Or.inl a4, a5, fun _ x hx => Kept.endChain _ _ e (by rw [a1]; rfl) (a6 x hx)⟩
  unfold startOn
  split
  · exact ⟨r, h, rfl, rfl, Or.inl rfl, Or.inl hsv, fun _ => hk⟩
  · rename_i rq hrq
    dsimp only
    split
    · exact fin _ _ r h rfl rfl rfl (Or.inl hsv) hk
    · generalize hy : (if decide ((rq.op q.2).phase = .waiting) = true then openStream rq q.2 ([n].headD 16) s else s) = y
      have fy : Only [.streams] s y := by
        rw [← hy]; split
        · exact Only.openStream _ _ _ _ (by decide) (Only.refl _ _)
        · exact Only.refl _ _
      generalize hz : eachN [n] _ y = z
      have zr : z.reqs = s.reqs := by
        rw [← hz]
        exact ((Only.eachN (A := [.tiles]) [n] (Only.refl _ y) (fun i s hs => Only.holdTile _ _ _ (by decide) hs)).2 .reqs (by decide)).trans (fy.2 .reqs (by decide))
      have zk : ∀ x ∈ ts, Kept p x z := by
        intro x hx
        have := (hk x hx).tiles (fy.2 .tiles (by decide))
        rw [← hz]
        simp only [eachN, List.foldl_cons, List.foldl_nil]
        exact Kept.holdTile n hpq this
      generalize hw : modOp q.1 q.2 _ z = w
      have hz1 : z.req p.1 = some r := by rw [req_of_reqs zr]; exact h
      have wr : ∃ rw, w.req p.1 = some rw ∧ rw.tenant = r.tenant ∧ rw.entry = r.entry ∧ rw.phase = r.phase ∧ (rw.op p.2).phase = .saved := by
        by_cases e : p.1 = q.1
        · rw [← hw, ← e]
          refine ⟨_, modOp_req_same _ _ hz1, rfl, rfl, rfl, ?_⟩
          rw [op_modify, if_neg]
          · exact hsv
          · rintro ⟨c, _⟩; exact hpq (Prod.ext e.symm c)
        · exact ⟨r, by rw [← hw, modOp_req_ne _ _ e]; exact hz1, rfl, rfl, rfl, hsv⟩
      obtain ⟨rw1, w1, w2, w3, w4, w5⟩ := wr
      have wk : ∀ x ∈ ts, Kept p x w := fun x hx => (zk x hx).tiles (by rw [← hw]; rfl)
      cases hq : w.req q.1 with
      | none =>
        have : settle q.1 w = w := by unfold settle; rw [hq]
        rw [this]
        exact ⟨rw1, w1, w2, w3, Or.inl w4, Or.inl w5, fun _ => wk⟩
      | some rq2 =>
        obtain ⟨v, f1, f2, f3⟩ := settle_cases q.1 w hq
        obtain ⟨r1, g1, g2⟩ := f2 p.1 _ (Grew.refl w1)
        have o1 := (g2.op p.2).1
        rw [w5] at o1
        have vk : ∀ x ∈ ts, Kept p x v := fun x hx => (wk x hx).tiles (f1.2 .tiles (by decide))
        rcases f3 with f3 | ⟨o, f3⟩
        · rw [f3]; exact ⟨r1, g1, g2.tenant.trans w2, g2.entry.trans w3, Or.inl (g2.phase.trans w4), o1, fun _ => vk⟩
        · rw [f3]; exact fin _ _ r1 g1 (g2.tenant.trans w2) (g2.entry.trans w3) (g2.phase.trans w4) o1 vk

theorem yieldTile_saves {k n : Nat} {p : Nat × Nat} {r : Req} {s : State} (h1 : (s.tile n).run = some p) (h2 : s.req p.1 = some r)
    (h3 : (r.op p.2).phase = .running) (h4 : (r.op p.2).disputed = false) (h5 : n ∈ (r.op p.2).tiles) (h6 : p ∉ nextOn s k n p) (ho : ownOp s k p = true) (hsl : atSlice s k p = true)
    (h7 : ∀ x ∈ (r.op p.2).tiles, tileHealthy s x = true ∧ pressing s k x p ≠ [] ∧ roomToSave s k x = true) :
    RunsOn (yieldTile k n s) p.1 r (fun r' => ((r'.op p.2).phase = .saved ∨ (r'.op p.2).phase = .done) ∧
      (r'.phase ≠ .ended → ∀ x ∈ (r.op p.2).tiles, Kept p x (yieldTile k n s))) := by
  have hon : heldOn s k n p = (r.op p.2).tiles := by unfold heldOn; rw [if_pos ho, h2]; rfl
  have hdis : inDispute s p = false := by unfold inDispute; rw [h2]; exact h4
  unfold yieldTile
  rw [h1]
  dsimp only
  rw [hon, hdis, hsl, whenS_true]
  swap
  · simp only [h5, decide_true, Bool.not_false, Bool.true_and, Bool.and_true, List.all_eq_true, Bool.and_eq_true, decide_eq_true_eq]
    intro x hx
    exact ⟨⟨(h7 x hx).1, by simp [(h7 x hx).2.1]⟩, (h7 x hx).2.2⟩
  rw [ho, if_pos rfl]
  generalize hs1 : eachN _ _ s = s1
  have k1 : ∀ x ∈ (r.op p.2).tiles, Kept p x s1 := by
    intro x hx
    rw [← hs1]
    unfold eachN
    have gen : ∀ (l : List Nat) (s : State), (x ∈ l ∨ Kept p x s) →
        Kept p x (l.foldl (fun s i => modTile i (fun u => { u with run := none, saved := u.saved ++ [p] }) s) s) := by
      intro l
      induction l with
      | nil => intro s h; exact h.resolve_left (by simp)
      | cons a t ih =>
        intro s h
        rw [List.foldl_cons]
        apply ih
        by_cases e : x = a
        · right; subst e; unfold Kept; rw [modTile_tile_same]; simp
        · rcases h with h | h
          · left; exact (List.mem_cons.1 h).resolve_left e
          · right; unfold Kept at *; rw [modTile_tile_ne _ _ e]; exact h
    exact gen _ s (Or.inl hx)
  have r1 : s1.req p.1 = some r := by
    rw [← hs1, req_of_reqs ((Only.eachN (A := [.tiles]) _ (Only.refl _ s) (fun i s hs => Only.modTile _ _ (by decide) hs)).2 .reqs (by decide))]
    exact h2
  have r2 := modOp_req_same p.2 (fun o => { o with phase := .saved }) r1
  generalize hs2 : modOp p.1 p.2 _ s1 = s2 at r2 ⊢
  have k2 : ∀ x ∈ (r.op p.2).tiles, Kept p x s2 := fun x hx => (k1 x hx).tiles (by rw [← hs2]; rfl)
  have o2 : (Req.op { r with ops := r.ops.modify p.2 (fun o => { o with phase := .saved }) } p.2).phase = .saved := by
    rw [op_modify_same]
    exact op_lt' (by rw [h3]; simp)
  have here : RunsOn s2 p.1 r (fun r' => ((r'.op p.2).phase = .saved ∨ (r'.op p.2).phase = .done) ∧
      (r'.phase ≠ .ended → ∀ x ∈ (r.op p.2).tiles, Kept p x s2)) := ⟨_, r2, rfl, rfl, Or.inl rfl, Or.inl o2, fun _ => k2⟩
  split
  · rename_i q hq
    have hne : q ≠ p := by
      rintro rfl
      split at hq
      · cases hq
      · exact h6 (List.mem_of_find?_eq_some hq)
    split
    · exact here
    unfold takeUp
    split
    · have e := (Only.holdTile q n s2 (A := [.tiles]) (by decide) (Only.refl _ _)).2 .reqs (by decide)
      obtain ⟨r', b1, b2, b3, b4, b5, b6⟩ := here
      exact ⟨r', by rw [req_of_reqs e]; exact b1, b2, b3, b4, b5, fun hh x hx => Kept.holdTile n hne (b6 hh x hx)⟩
    · split
      · exact here
      · obtain ⟨r', b1, b2, b3, b4, b5⟩ := startOn_saved (n := n) (ts := (r.op p.2).tiles) hne r2 o2 k2
        exact ⟨r', b1, b2, b3, b4, b5⟩
  · exact here
end Sys2Proof.Machine
end

