-- ==== Sys2Proof/Laws/OutOfTile.lean ====
section
/-!
SUPPORT. What quarantine leaves of a tile, and what the end of an operation leaves of its request.
-/

set_option Elab.async false

namespace Sys2Proof.Machine
theorem markQuarantine_st (t cause : Nat) (req : Option Nat) (s : State) :
    TSt t (if 2 ≤ (s.tile t).qcount.toNat then .retired else .quarantined, BitVec.ofNat 3 cause) (markQuarantine t cause req s) ∧
    Pend gQuarantine (markQuarantine t cause req s) := by
  unfold markQuarantine
  dsimp only
  constructor
  · unfold TSt
    rw [tiles_of_only (Only.journal _ _ _ _ (A := recordParts) (by decide) (Only.refl _ _)) (by decide), raiseG_tile, modTile_tile_same]
  · exact Pend.journal _ _ _ _ (raiseG_bit _ _ (by decide))
theorem TSt.dropRun {t0 : Nat} {v0 : TileSt × BitVec 3} (t : Nat) (keep : Bool) (p : Nat × Nat) (s : State) (h : TSt t0 v0 s) :
    TSt t0 v0 (Machine.dropRun t keep p s) := by
  have off : TSt t0 v0 (if tileKind t = 3 then setBank t ((s.tile t).bankB.holds p.1 p.2) (.zeroizing p.1) s
      else Machine.modTile t (fun u => { u with run := none }) s) := by
    split
    · unfold setBank; exact TSt.modTile _ _ h (fun u => by split <;> exact ⟨rfl, rfl⟩)
    · exact TSt.modTile _ _ h
  unfold Machine.dropRun
  dsimp only
  split
  · exact TSt.modOp _ _ _ _ off
  · split
    · exact off
    · split
      · exact TSt.rerunFrom _ _ _ h
      · exact TSt.loseOp _ _ _ h
theorem quarantine_st (t cause : Nat) (keep : Bool) (s : State) :
    TSt t (if 2 ≤ (s.tile t).qcount.toNat then .retired else .quarantined, BitVec.ofNat 3 cause) (quarantine t cause keep s) ∧
    Pend gQuarantine (quarantine t cause keep s) := by
  have hm := fun q => markQuarantine_st t cause q s
  generalize (if 2 ≤ (s.tile t).qcount.toNat then TileSt.retired else TileSt.quarantined, BitVec.ofNat 3 cause) = v at hm ⊢
  unfold quarantine
  dsimp only
  constructor
  · apply TSt.settleAll
    refine TSt.foldl _ ?_ (fun s a h => TSt.dropRun _ _ _ _ h)
    have : ∀ y, TSt t v y → TSt t v (if 16 ≤ t ∧ t < 20 then moveParked t (decide (cause ≠ qPair ∧ cause ≠ qResult)) y else y) := by
      intro y hy; split
      · exact TSt.moveParked _ _ _ hy
      · exact hy
    apply this
    refine TSt.foldl _ ?_ (fun s a h => TSt.moveSaved _ _ _ _ h)
    exact TSt.foldl _ (hm _).1 (fun s a h => TSt.dropRun _ _ _ _ h)
  · apply Pend.settleAll
    refine Pend.foldl _ ?_ (fun s a h => Pend.dropRun _ _ _ _ h)
    have : ∀ y, Pend gQuarantine y → Pend gQuarantine (if 16 ≤ t ∧ t < 20 then moveParked t (decide (cause ≠ qPair ∧ cause ≠ qResult)) y else y) := by
      intro y hy; split
      · exact Pend.moveParked _ _ _ hy
      · exact hy
    apply this
    refine Pend.foldl _ ?_ (fun s a h => Pend.moveSaved _ _ _ _ h)
    exact Pend.foldl _ (hm _).2 (fun s a h => Pend.dropRun _ _ _ _ h)
theorem out_of {s t : State} {n cause : Nat} (h : TSt n (if 2 ≤ (s.tile n).qcount.toNat then .retired else .quarantined, BitVec.ofNat 3 cause) t)
    (g : Pend gQuarantine t) : OutOfService s t n cause := by
  unfold TSt at h
  simp only [Prod.mk.injEq] at h
  exact ⟨h.1, h.2, g⟩
theorem quarantine_out (t cause : Nat) (keep : Bool) (s : State) : OutOfService s (quarantine t cause keep s) t cause :=
  out_of (quarantine_st t cause keep s).1 (quarantine_st t cause keep s).2
theorem OutOfService.from {s s0 t : State} {n cause : Nat} (h : OutOfService s t n cause) (e : (s.tile n).qcount = (s0.tile n).qcount) : OutOfService s0 t n cause := by
  unfold OutOfService at *; rw [← e]; exact h
theorem OutOfService.settle {s t : State} {n cause : Nat} (id : Nat) (h : OutOfService s t n cause) : OutOfService s (Machine.settle id t) n cause := by
  obtain ⟨a, b, c⟩ := h
  refine out_of (TSt.settle _ _ ?_) (Pend.settle _ _ c)
  unfold TSt; rw [a, b]
theorem TSt.of_tile {t0 : Nat} {v0 : TileSt × BitVec 3} {s t : State} (h : TSt t0 v0 s) (e : t.tile t0 = s.tile t0) : TSt t0 v0 t := by
  unfold TSt at *; rwa [e]
theorem Has.refl {k : Nat} {r : Req} {s : State} (h : s.req k = some r) : Has k r s := ⟨r, h, rfl, rfl⟩

/-- Request id of the record r0, its operation i done with its output. -/
def DoneOp (id i : Nat) (out : Bytes) (r0 : Req) (s : State) : Prop :=
  ∃ r1, s.req id = some r1 ∧ r1.tenant = r0.tenant ∧ r1.entry = r0.entry ∧ r1.phase = r0.phase ∧ (r1.op i).phase = .done ∧ (r1.op i).output = out
theorem DoneOp.modOp {id i : Nat} {out : Bytes} {r0 : Req} {s : State} (a c : Nat) (hne : (a, c) ≠ (id, i)) (h : DoneOp id i out r0 s) :
    DoneOp id i out r0 (Machine.modOp a c (fun o => { o with phase := .running, rerun := false }) s) := by
  obtain ⟨r1, h1, h2, h3, h4, h5, h6⟩ := h
  by_cases e : id = a
  · subst e
    refine ⟨_, modOp_req_same c _ h1, h2, h3, h4, ?_⟩
    rw [op_modify, if_neg (by rintro ⟨e, _⟩; exact hne (by rw [e]))]
    exact ⟨h5, h6⟩
  · exact ⟨r1, by rw [modOp_req_ne _ _ e]; exact h1, h2, h3, h4, h5, h6⟩
theorem DoneOp.reqs {id i : Nat} {out : Bytes} {r0 : Req} {s t : State} (h : DoneOp id i out r0 s) (e : t.reqs = s.reqs) : DoneOp id i out r0 t := by
  obtain ⟨r1, h1, h2⟩ := h; exact ⟨r1, by rw [req_of_reqs e]; exact h1, h2⟩
theorem DoneOp.kept {id i : Nat} {out : Bytes} {r0 : Req} {s : State} (a c : Nat) (v : Option Stream) (h : DoneOp id i out r0 s) :
    DoneOp id i out r0 (Machine.modOp a c (fun o => { o with kept := v }) s) := by
  obtain ⟨r1, h1, h2, h3, h4, h5, h6⟩ := h
  by_cases e : id = a
  · subst e
    refine ⟨_, modOp_req_same c _ h1, h2, h3, h4, ?_⟩
    rw [op_modify]
    split <;> exact ⟨h5, h6⟩
  · exact ⟨r1, by rw [modOp_req_ne _ _ e]; exact h1, h2, h3, h4, h5, h6⟩
theorem DoneOp.parkStream {id i : Nat} {out : Bytes} {r0 : Req} {s : State} (r : Req) (c : Nat) (h : DoneOp id i out r0 s) :
    DoneOp id i out r0 (Machine.parkStream r c s) := by
  unfold Machine.parkStream
  dsimp only
  split
  · exact h
  · split
    · exact h.reqs rfl
    · exact (h.kept _ _ _).reqs rfl
theorem DoneOp.runBank {id i : Nat} {out : Bytes} {r0 : Req} {s : State} (t : Nat) (p : Nat × Nat) (hp : p ≠ (id, i)) (h : DoneOp id i out r0 s) :
    DoneOp id i out r0 (Machine.runBank t p s) := by
  unfold Machine.runBank
  split
  · exact DoneOp.modOp _ _ hp (h.reqs ((Only.eachN (A := [.tiles]) _ (Only.refl _ s) (fun i s hs => Only.modTile _ _ (by decide) hs)).2 .reqs (by decide)))
  · exact h
/-- What rests in the banks of a tile is held there. -/
theorem holds_of_resting {u : Tile} {p : Nat × Nat} (h : p ∈ resting u) : u.bankA.holds p.1 p.2 = true ∨ u.bankB.holds p.1 p.2 = true := by
  unfold resting at h
  rcases hA : u.bankA with _ | _ | _ | _ | _ <;> rcases hB : u.bankB with _ | _ | _ | _ | _ <;>
    simp_all [BankSt.holds] <;> rcases h with rfl | rfl <;> simp
theorem DoneOp.wakeBank {id i : Nat} {out : Bytes} {r0 : Req} {s : State} (t : Nat) (hA : (s.tile t).bankA.holds id i = false) (hB : (s.tile t).bankB.holds id i = false)
    (h : DoneOp id i out r0 s) : DoneOp id i out r0 (Machine.wakeBank t s) := by
  have hh : ∀ p, p ∈ (resting (s.tile t)).filter (fun p => mayRun s t p []) → p ≠ (id, i) := by
    rintro p hp rfl
    rcases holds_of_resting (List.mem_filter.1 hp).1 with e | e
    · rw [hA] at e; cases e
    · rw [hB] at e; cases e
  unfold Machine.wakeBank
  split
  · exact h
  · next p e => exact DoneOp.runBank _ _ (hh p (by rw [e]; simp)) h
  · next p q l e =>
    refine DoneOp.runBank _ _ ?_ h
    split
    · exact hh q (by rw [e]; simp)
    · exact hh p (by rw [e]; simp)
/-- Giving up the tiles of an operation that is done leaves the operation done. -/
theorem released_done {r r0 : Req} {out : Bytes} (id i : Nat) (s : State) (h : s.req id = some r) (ht : r.tenant = r0.tenant) (he : r.entry = r0.entry) (hp : r.phase = r0.phase)
    (hd : (r.op i).phase = .done) (ho : (r.op i).output = out) : DoneOp id i out r0 (releaseOp id i s) := by
  unfold releaseOp
  refine eachN_ind _ _ _ ⟨r, h, ht, he, hp, hd, ho⟩ (fun t s hs => ?_)
  dsimp only
  split
  · refine DoneOp.wakeBank t ?_ ?_ hs
    · rw [modTile_tile_same]; dsimp only; split
      · simp [BankSt.holds]
      · next hc => simpa using hc
    · rw [modTile_tile_same]; dsimp only; split
      · simp [BankSt.holds]
      · next hc => simpa using hc
  · exact hs

/-- What the end of an operation leaves of its request: it is done with its output, and its chain goes on. -/
theorem finishOp_runs {id i : Nat} {r : Req} {s : State} (e : OpEnd) (h : s.req id = some r) (hl : i < r.ops.length) :
    RunsOn (finishOp id i e s) id r (fun r' => (r'.op i).phase = .done ∧ (r'.op i).output = e.res.out) := by
  unfold finishOp
  rw [h]
  dsimp only
  have x1 := modOp_req_same i (fun o => { o with phase := .done, consumed := (r.src i).length, output := e.res.out, produced := e.res.prod, made := e.made, madeAttr := if e.attr = [] then o.madeAttr else e.attr, madeStamp := e.stamp }) h
  generalize hx : modOp id i _ s = x at x1 ⊢
  have hz : DoneOp id i e.res.out r (parkStream r i (releaseOp id i x)) := by
    apply DoneOp.parkStream
    exact released_done id i x x1 rfl rfl rfl (by rw [op_modify_same _ _ _ hl]) (by rw [op_modify_same _ _ _ hl])
  have fin : ∀ y : State, DoneOp id i e.res.out r y →
      RunsOn (settle id y) id r (fun r' => (r'.op i).phase = .done ∧ (r'.op i).output = e.res.out) := by
    rintro y ⟨r1, a1, a2, a3, a4, a5, a6⟩
    obtain ⟨r', f1, f2, f3⟩ := settle_req id y a1
    have := (f2.op i).2.2.2.2.2 a5
    exact ⟨r', f1, f2.tenant.trans a2, f2.entry.trans a3, f3.imp (fun h => h.trans a4) (fun h => h), this.1, this.2.trans a6⟩
  split
  · exact fin _ (by obtain ⟨r1, a⟩ := hz; exact ⟨r1, a⟩)
  · exact fin _ hz
theorem canStart_lt {r : Req} {i : Nat} (h : r.canStart i = true) : i < r.ops.length := by
  unfold Req.canStart at h; simp only [Bool.and_eq_true, decide_eq_true_eq] at h; exact h.1.1.2
theorem loadReady_lt {s : State} {r : Req} {i a : Nat} (h : loadReady s r i a = true) : i < r.ops.length := by
  unfold loadReady at h; simp only [Bool.and_eq_true, decide_eq_true_eq] at h; exact op_lt' (by rw [h.1.1.1.1.1.2]; simp)
theorem setCacheEnt_same (h : Nat) (v : Option CacheEnt) (s : State) : (setCacheEnt h v s).cacheEnt h = v := by
  unfold State.cacheEnt setCacheEnt; exact look_put_same _ _ _ _
theorem setCacheEnt_ne {k h : Nat} (v : Option CacheEnt) (s : State) (e : k ≠ h) : (setCacheEnt h v s).cacheEnt k = s.cacheEnt k := by
  unfold State.cacheEnt setCacheEnt; exact look_put_ne _ _ _ e
theorem finishOp_cache (id i : Nat) (e : OpEnd) (s : State) (h : Nat) : (finishOp id i e s).cacheEnt h = s.cacheEnt h := by
  have : Cch s.ks.cache (finishOp id i e s) := Cch.finishOp id i e s rfl
  unfold State.cacheEnt; rw [this]
theorem endChain_cache (id : Nat) (o : Outcome) (s : State) (h : Nat) : (endChain id o s).cacheEnt h = s.cacheEnt h := by
  have : Cch s.ks.cache (endChain id o s) := Cch.endChain id o s rfl
  unfold State.cacheEnt; rw [this]
end Sys2Proof.Machine
end

