-- ==== Sys2Proof/Laws/Records.lean ====
section
/-!
SUPPORT. What writing a completion record leaves of its ring, its tenant and its request.
-/

set_option Elab.async false

namespace Sys2Proof.Machine
/-- Making places available changes nothing of a completion ring but its stall. -/
theorem unstall_facts (n : Nat) (s : State) :
    (∀ a b, ∃ st, (unstall n s).cq a b = { s.cq a b with stall := st }) ∧ Only [.cqs] s (unstall n s) := by
  refine ⟨?_, Only.unstall _ _ (by decide) (Only.refl _ _)⟩
  unfold unstall
  refine eachN_ind (P := fun t => ∀ a b, ∃ st, t.cq a b = { s.cq a b with stall := st }) _ _ _ (fun a b => ⟨_, rfl⟩) (fun m t ht => ?_)
  split
  · intro a b
    by_cases e : rix a b = rix n m
    · obtain ⟨st, h⟩ := ht a b
      refine ⟨false, ?_⟩
      have e2 : ∀ y : State, y.cq a b = y.cq n m := by intro y; unfold State.cq; rw [e]
      rw [e2, modCq_cq_same, ← e2, h]
    · rw [modCq_cq_ne _ _ e]; exact ht a b
  · exact ht
theorem coalesce_facts (n m : Nat) (s : State) :
    OtherCqs n m s (coalesce n m s) ∧ (∃ a b, (coalesce n m s).cq n m = { s.cq n m with coal := a, timer := b }) ∧
    ((coalesce n m s).ten n).led = (s.ten n).led ∧ OtherTens n s (coalesce n m s) ∧ Only [.tens, .cqs] s (coalesce n m s) := by
  refine ⟨?_, ?_, ?_, ?_, Only.coalesce _ _ _ (by decide) (Only.refl _ _)⟩
  all_goals unfold coalesce
  all_goals dsimp only
  · split
    · intro a b e; unfold notify; rw [raiseT_cq, modCq_cq_ne _ _ e]
    · intro a b e; rw [modCq_cq_ne _ _ e]
  · split
    · exact ⟨0, false, by unfold notify; rw [raiseT_cq, modCq_cq_same]⟩
    · exact ⟨_, _, by rw [modCq_cq_same]⟩
  · split
    · unfold notify raiseT; rw [modTen_ten_same]; rfl
    · rfl
  · split
    · intro k hk; unfold notify raiseT; rw [modTen_ten_ne _ _ hk]; rfl
    · intro k hk; rfl
theorem retireReq_req (id : Nat) (s : State) : (retireReq id s).req id = none := by
  have : (retireReq id s).reqs = (dropReq id s).reqs := (Only.sweepCache (dropReq id s) (A := [.ks]) (by decide) (Only.refl _ _)).2 .reqs (by decide)
  rw [req_of_reqs this]
  unfold State.req dropReq
  rw [List.find?_eq_none]
  intro x hx
  simp only [modReqs] at hx
  have := List.of_mem_filter hx
  simpa using this
/-- What is kept of a request that wrote, once its record has left, changes no count. -/
theorem noteLeft_facts (r : Req) (s : State) :
    Only [.tens, .boot] s (noteLeft r s) ∧ (∀ k, ((noteLeft r s).ten k).led = (s.ten k).led) ∧ OtherTens r.tenant.val s (noteLeft r s) := by
  refine ⟨Only.noteLeft _ _ (by decide) (Only.refl _ _), fun k => ?_, fun k hk => ?_⟩
  · unfold noteLeft
    split
    · rfl
    · split
      · rfl
      · by_cases e : k = r.tenant.val
        · subst e; rw [modTen_ten_same]
        · rw [modTen_ten_ne _ _ e]
  · unfold noteLeft
    split
    · rfl
    · split
      · rfl
      · rw [modTen_ten_ne _ _ hk]
/-- What writing a record into its ring leaves (R115, R128). -/
theorem recordDone_facts (r : Req) (a : Nat) (b : Bytes) (s : State) :
    let fl := decide (byteAt b 4 = stFlushed)
    let n := r.tenant.val
    let m := r.cq.val
    let t := recordDone r a b s
    t.req r.id = none ∧ (t.cq n m).tail = ((s.cq n m).tail + 1) % 2 ^ ((s.cq n m).k + 1) ∧ (t.cq n m).head = (s.cq n m).head ∧
    (t.ten n).led = { (s.ten n).led with completed := if fl then (s.ten n).led.completed else (s.ten n).led.completed + 1, flushed := if fl then (s.ten n).led.flushed + 1 else (s.ten n).led.flushed, inflight := (s.ten n).led.inflight - 1 } ∧
    OtherTens n s t ∧ t.out = (emitRecord a b s).out := by
  dsimp only
  unfold recordDone
  dsimp only
  generalize hfl : decide (byteAt b 4 = stFlushed) = fl
  have fe : Only [.out] s (emitRecord a b s) := Only.emitRecord _ _ _ (by decide) (Only.refl _ _)
  have ec : ∀ i j, (emitRecord a b s).cq i j = s.cq i j := by intro i j; unfold State.cq; rw [fe.2 .cqs (by decide)]
  have et : ∀ k, (emitRecord a b s).ten k = s.ten k := by intro k; unfold State.ten; rw [fe.2 .tens (by decide)]
  generalize hx : modCq r.tenant.val r.cq.val _ (emitRecord a b s) = x
  have x1 : x.cq r.tenant.val r.cq.val = { s.cq r.tenant.val r.cq.val with tail := ((s.cq r.tenant.val r.cq.val).tail + 1) % 2 ^ ((s.cq r.tenant.val r.cq.val).k + 1) } := by
    rw [← hx, modCq_cq_same, ec]
  have x2 : ∀ k, x.ten k = s.ten k := by intro k; rw [← hx]; exact et k
  have x3 : x.out = (emitRecord a b s).out := by rw [← hx]; rfl
  generalize hy : ledgerRecord r.tenant.val fl x = y
  have y1 : y.cq r.tenant.val r.cq.val = x.cq r.tenant.val r.cq.val := by rw [← hy]; rfl
  have y2 : (y.ten r.tenant.val).led = { (x.ten r.tenant.val).led with completed := if fl then (x.ten r.tenant.val).led.completed else (x.ten r.tenant.val).led.completed + 1, flushed := if fl then (x.ten r.tenant.val).led.flushed + 1 else (x.ten r.tenant.val).led.flushed, inflight := (x.ten r.tenant.val).led.inflight - 1 } := by
    rw [← hy]; unfold ledgerRecord; rw [modTen_ten_same]
  have y3 : OtherTens r.tenant.val x y := by intro k hk; rw [← hy]; unfold ledgerRecord; rw [modTen_ten_ne _ _ hk]
  have y4 : y.out = x.out := by rw [← hy]; rfl
  obtain ⟨c1, ⟨c2a, c2b, c2⟩, c3, c4, c5⟩ := coalesce_facts r.tenant.val r.cq.val y
  generalize coalesce r.tenant.val r.cq.val y = z at c1 c2 c3 c4 c5 ⊢
  obtain ⟨nf, nl, no⟩ := noteLeft_facts r z
  generalize noteLeft r z = z' at nf nl no ⊢
  have fr : Only [.reqs, .ks] z' (retireReq r.id z') := Only.retireReq _ _ (by decide) (Only.refl _ _)
  have gr := retireReq_req r.id z'
  generalize retireReq r.id z' = w at fr gr ⊢
  obtain ⟨u1, u2⟩ := unstall_facts r.tenant.val w
  generalize unstall r.tenant.val w = v at u1 u2 ⊢
  have wc : ∀ a b, w.cq a b = z.cq a b := by intro a b; unfold State.cq; rw [fr.2 .cqs (by decide), nf.2 .cqs (by decide)]
  have wt : ∀ k, w.ten k = z'.ten k := by intro k; unfold State.ten; rw [fr.2 .tens (by decide)]
  have vt : ∀ k, v.ten k = w.ten k := by intro k; unfold State.ten; rw [u2.2 .tens (by decide)]
  obtain ⟨st, u1⟩ := u1 r.tenant.val r.cq.val
  refine ⟨?_, ?_, ?_, ?_, ?_, ?_⟩
  · exact (req_of_reqs (u2.2 .reqs (by decide)) _).trans gr
  · change (v.cq _ _).tail = _
    rw [u1, wc, c2, y1, x1]
  · change (v.cq _ _).head = _
    rw [u1, wc, c2, y1, x1]
  · change (v.ten _).led = _
    rw [vt, wt, nl, c3, y2, x2]
  · intro k hk
    change v.ten k = _
    rw [vt, wt, no k hk, c4 k hk, y3 k hk, x2]
  · change v.out = _
    rw [u2.2 .out (by decide), fr.2 .out (by decide), nf.2 .out (by decide), c5.2 .out (by decide), y4, x3]

theorem check_congr {s t : State} (h : t.start = s.start) (c : Content) (n : Option TenantIx) (w : World) (d : Dir) (a l : Nat) :
    check t c n w d a l = check s c n w d a l := by
  unfold check candidates defmapGrants State.word; rw [h]
theorem reqCheck_congr {s t : State} {r r' : Req} (h : t.start = s.start) (g : t.gen = s.gen) (h1 : r'.tenant = r.tenant) (h2 : r'.origin = r.origin)
    (h3 : r'.world = r.world) (h4 : r'.rulesPrev = r.rulesPrev) (d : Dir) (a l : Nat) : reqCheck t r' d a l = reqCheck s r d a l := by
  have hb : r'.isBoot = r.isBoot := by unfold Req.isBoot; rw [h2]
  have hp : r'.priv = r.priv := by unfold Req.priv; rw [h2, h1]
  have hc : r'.content t = r.content s := by unfold Req.content State.rules; rw [hb, h4, g]
  unfold reqCheck; rw [check_congr h, hc, hp, h3]
/-- The state in which COMPLETION_RECORD_WRITE writes the record. -/
theorem precomplete (id : Nat) (ecc : Ecc) (r : Req) (o : Outcome) (s : State) :
    let s1 := recordCounts id ecc r o s
    Only (.tens :: .sqs :: .reqs :: .ces :: .sup :: recordParts) s s1 ∧ (∀ k, Led k (s.ten k).led s1) ∧ OtherTens r.tenant.val s s1 ∧
      (ecc = .clean → s1.out = s.out) ∧ (∀ r', s.req id = some r' → s1.req id = some r'.scrubbedOf) := by
  dsimp only
  unfold recordCounts
  dsimp only
  have f0 : ∀ y : State, Only [.tens, .sqs, .reqs, .sup, .evPend, .jrn] y (scrubContext id (if o.status = 0x62 then countLate r y else if o.status = 0x60 then countSupply y else y)) := by
    intro y
    apply Only.scrubContext _ _ (by decide)
    split
    · exact Only.countLate _ _ (by decide) (Only.refl _ _)
    · split
      · exact Only.countSupply _ (by decide) (Only.refl _ _)
      · exact Only.refl _ _
  have l0 : ∀ (k : Nat) (v : Ledger) (y : State), Led k v y → Led k v (scrubContext id (if o.status = 0x62 then countLate r y else if o.status = 0x60 then countSupply y else y)) := by
    intro k v y h
    apply Led.scrubContext
    split
    · exact Led.countLate _ _ h
    · split
      · exact Led.countSupply _ h
      · exact h
  have t0 : ∀ y : State, OtherTens r.tenant.val y (scrubContext id (if o.status = 0x62 then countLate r y else if o.status = 0x60 then countSupply y else y)) := by
    intro y k hk
    unfold scrubContext
    change State.ten (if _ then _ else _) k = _
    split
    · unfold countLate raiseT; rw [modTen_ten_ne _ _ hk]; rfl
    · split
      · rfl
      · rfl
  have o0 : ∀ y : State, (scrubContext id (if o.status = 0x62 then countLate r y else if o.status = 0x60 then countSupply y else y)).out = y.out := fun y => (f0 y).2 .out (by decide)
  have r0 : ∀ (y : State) (r' : Req), y.req id = some r' → (scrubContext id (if o.status = 0x62 then countLate r y else if o.status = 0x60 then countSupply y else y)).req id =
      some r'.scrubbedOf := by
    intro y r' h
    unfold scrubContext
    refine modReq_req_same _ (fun _ => rfl) ?_
    · split
      · exact h
      · split
        · exact h
        · exact h
  generalize hx : (if (r.isBoot || r.foreign) = true then none else some r.tenant.val) = x
  have fm : Only (.tens :: .ces :: recordParts) s (memCheck 0 x ecc s) := Only.memCheck _ _ _ _ (by decide) (Only.refl _ _)
  refine ⟨(fm.mono (by decide)).trans ((f0 _).mono (by decide)), fun k => l0 k _ _ (Led.memCheck _ _ _ _ rfl), fun k hk => ?_, ?_, fun r' h => r0 _ r' ?_⟩
  · rw [t0 _ k hk]
    unfold memCheck
    split
    · rfl
    · unfold State.ten; rw [(Only.countCe 0 s (A := [.ces, .evPend]) (by decide) (Only.refl _ _)).2 .tens (by decide)]
    · have e : (raiseG gUeFatal (journalUe 0 (x.getD 0) s)).ten k = s.ten k := by
        rw [raiseG_ten]
        unfold State.ten; rw [(Only.journalUe _ _ _ (A := recordParts) (by decide) (Only.refl _ s)).2 .tens (by decide)]
      unfold ledgerUe
      dsimp only
      split
      · rename_i n
        have hn : k ≠ n := by
          split at hx
          · cases hx
          · rintro rfl; exact hk (Option.some.inj hx).symm
        unfold raiseT
        rw [modTen_ten_ne _ _ hn, modTen_ten_ne _ _ hn]
        exact e
      · exact e
  · rintro rfl; exact o0 s
  · rw [req_of_reqs (fm.2 .reqs (by decide))]; exact h
end Sys2Proof.Machine
end

