-- ==== Sys2Proof/Laws/AtChannel.lean ====
section
/-!
SUPPORT. What the operations of a data channel do to that channel: it keeps its program, no other channel changes, and no event is lost; and what it
does when it goes to another descriptor or instruction, or stops.
-/

set_option Elab.async false

namespace Sys2Proof.Machine

/-- Every channel but one is as it was, that one keeps its program, and no event is lost. -/
def Chn (k : Nat) (s0 s : State) : Prop :=
  OtherDcs k s0 s ∧ (s.dc k).prog = (s0.dc k).prog ∧ ∀ n e, TenEvent s0 n e → TenEvent s n e

theorem Chn.refl (k : Nat) (s : State) : Chn k s s := ⟨fun _ _ => rfl, rfl, fun _ _ h => h⟩
theorem Chn.trans {k : Nat} {a b c : State} (h : Chn k a b) (g : Chn k b c) : Chn k a c :=
  ⟨fun j hj => (g.1 j hj).trans (h.1 j hj), g.2.1.trans h.2.1, fun n e x => g.2.2 n e (h.2.2 n e x)⟩
theorem Chn.modDc {k : Nat} {s0 s : State} (f : Chan → Chan) (h : Chn k s0 s) (hf : ∀ c, (f c).prog = c.prog := by intro c; rfl) :
    Chn k s0 (Machine.modDc k f s) :=
  ⟨fun j hj => by rw [modDc_dc_ne _ _ hj]; exact h.1 j hj, by rw [modDc_dc_same, hf]; exact h.2.1, h.2.2⟩
/-- Where only tenants and outputs change, and events stay. -/
theorem Chn.only {k : Nat} {s0 s t : State} (h : Chn k s0 s) (e : t.dcs = s.dcs) (hv : ∀ n e, TEv n e s → TEv n e t) : Chn k s0 t := by
  have hd : ∀ j, t.dc j = s.dc j := fun j => by unfold State.dc; rw [e]
  exact ⟨fun j hj => by rw [hd]; exact h.1 j hj, by rw [hd]; exact h.2.1, fun n e x => hv n e (h.2.2 n e x)⟩
theorem Chn.raiseT {k : Nat} {s0 s : State} (n e : Nat) (h : Chn k s0 s) : Chn k s0 (Machine.raiseT n e s) :=
  h.only rfl (fun _ _ x => TEv.raiseT _ _ _ x)
theorem Chn.emitRd {k : Nat} {s0 s : State} (a l : Nat) (h : Chn k s0 s) : Chn k s0 (Machine.emitRd a l s) :=
  h.only ((Only.emitRd (A := [.out]) _ _ _ (by decide) (Only.refl _ _)).2 .dcs (by decide)) (fun _ _ x => TEv.emitRd _ _ _ x)
theorem Chn.emitWr {k : Nat} {s0 s : State} (a : Nat) (l : Bytes) (h : Chn k s0 s) : Chn k s0 (Machine.emitWr a l s) :=
  h.only ((Only.emitWr (A := [.out]) _ _ _ (by decide) (Only.refl _ _)).2 .dcs (by decide)) (fun _ _ x => TEv.emitWr _ _ _ x)
theorem Chn.emitRecord {k : Nat} {s0 s : State} (a : Nat) (l : Bytes) (h : Chn k s0 s) : Chn k s0 (Machine.emitRecord a l s) :=
  h.only ((Only.emitRecord (A := [.out]) _ _ _ (by decide) (Only.refl _ _)).2 .dcs (by decide)) (fun _ _ x => TEv.emitRecord _ _ _ x)
theorem Chn.violT {k : Nat} {s0 s : State} (n addr : Nat) (d : Dir) (a b c e f : Nat) (h : Chn k s0 s) : Chn k s0 (Machine.violT n addr d a b c e f s) :=
  h.only ((Only.violT (A := [.tens]) _ _ _ _ _ _ _ _ _ (by decide) (Only.refl _ _)).2 .dcs (by decide)) (fun _ _ x => TEv.violT _ _ _ _ _ _ _ _ _ x)
theorem Chn.dcViol {k : Nat} {s0 s : State} (j addr : Nat) (d : Dir) (c : Nat) (h : Chn k s0 s) : Chn k s0 (Machine.dcViol j addr d c s) :=
  Chn.violT _ _ _ _ _ _ _ _ h
theorem Chn.ite {k : Nat} {s0 : State} {c : Prop} [Decidable c] {a b : State} (ha : Chn k s0 a) (hb : Chn k s0 b) : Chn k s0 (if c then a else b) := by
  split <;> assumption
theorem Chn.dcRecord_eq {k : Nat} {s0 s t : State} {st detail addr : Nat} {i : List Nat} {d : Dir} (e : Machine.dcRecord k st detail i addr d s = some t)
    (h : Chn k s0 s) : Chn k s0 t := by
  unfold Machine.dcRecord at e
  dsimp only at e
  by_cases hc : (!(s.dc k).recEn || !(s.dc k).place) = true
  · rw [if_pos hc] at e; obtain rfl := Option.some.inj e; exact h
  · rw [if_neg hc] at e
    split at e
    · simp only [reduceCtorEq] at e
    · have e2 := Option.some.inj e
      rw [← e2]; exact Chn.modDc _ (Chn.emitRecord _ _ h)

theorem dcViol_dc (j k addr : Nat) (d : Dir) (c : Nat) (s : State) : (dcViol j addr d c s).dc k = s.dc k := by
  unfold State.dc
  rw [show (dcViol j addr d c s).dcs = s.dcs from (Only.dcViol (A := [.tens]) _ _ _ _ _ (by decide) (Only.refl _ _)).2 .dcs (by decide)]
theorem emitRecord_dc (k a : Nat) (b : Bytes) (s : State) : (emitRecord a b s).dc k = s.dc k := by
  unfold State.dc
  rw [show (emitRecord a b s).dcs = s.dcs from (Only.emitRecord (A := [.out]) _ _ _ (by decide) (Only.refl _ _)).2 .dcs (by decide)]
theorem emitRd_dc (k a l : Nat) (s : State) : (emitRd a l s).dc k = s.dc k := by
  unfold State.dc
  rw [show (emitRd a l s).dcs = s.dcs from (Only.emitRd (A := [.out]) _ _ _ (by decide) (Only.refl _ _)).2 .dcs (by decide)]
theorem emitWr_dc (k a : Nat) (l : Bytes) (s : State) : (emitWr a l s).dc k = s.dc k := by
  unfold State.dc
  rw [show (emitWr a l s).dcs = s.dcs from (Only.emitWr (A := [.out]) _ _ _ (by decide) (Only.refl _ _)).2 .dcs (by decide)]
theorem violT_dc (n addr : Nat) (d : Dir) (a b c e f k : Nat) (s : State) : (Machine.violT n addr d a b c e f s).dc k = s.dc k := by
  unfold State.dc
  rw [show (Machine.violT n addr d a b c e f s).dcs = s.dcs from (Only.violT (A := [.tens]) _ _ _ _ _ _ _ _ _ (by decide) (Only.refl _ _)).2 .dcs (by decide)]
theorem raiseT_dc' (n e k : Nat) (s : State) : (Machine.raiseT n e s).dc k = s.dc k := rfl

theorem dcRecord_dc {k st detail : Nat} {i : List Nat} {addr : Nat} {d : Dir} {s t : State} (e : dcRecord k st detail i addr d s = some t) :
    t.dc k = { s.dc k with recTail := if (s.dc k).recEn && (s.dc k).place then ((s.dc k).recTail + 1) % 2 ^ ((s.dc k).recK + 1) else (s.dc k).recTail } := by
  unfold dcRecord at e
  dsimp only at e
  by_cases hc : (!(s.dc k).recEn || !(s.dc k).place) = true
  · rw [if_pos hc] at e; obtain rfl := Option.some.inj e
    rw [if_neg (by revert hc; cases (s.dc k).recEn <;> cases (s.dc k).place <;> decide)]
  · rw [if_neg hc] at e
    split at e
    · simp only [reduceCtorEq] at e
    · have e2 := Option.some.inj e
      rw [← e2, modDc_dc_same, emitRecord_dc, if_pos (by revert hc; cases (s.dc k).recEn <;> cases (s.dc k).place <;> decide)]

/-- A stop: what it leaves of the channel, and what it records (R323). -/
theorem dcStop_facts (k st detail addr : Nat) (d : Dir) (cause : Nat) (s : State) :
    let t := dcStop k st detail addr d cause s
    Only chanParts s t ∧ Chn k s t ∧ ChanStopped s t k st detail ∧ (t.dc k).i0 = (s.dc k).i0 ∧ (t.dc k).i1 = (s.dc k).i1 ∧ (t.dc k).i2 = (s.dc k).i2 ∧
      (t.dc k).cap = ⟨BitVec.ofNat 48 addr, d, BitVec.ofNat 4 cause, BitVec.ofNat 8 st, BitVec.ofNat 8 detail⟩ := by
  dsimp only
  refine ⟨Only.dcStop _ _ _ _ _ _ _ (by decide) (Only.refl _ _), ?_⟩
  unfold dcStop
  dsimp only
  generalize hx : modDc k _ s = x
  have cx : Chn k s x := by rw [← hx]; exact Chn.modDc _ (Chn.refl _ _)
  have dx : x.dc k = { s.dc k with st := .stopped, fault := true, held := none, fetching := false, fetchPrev := false, backs := false, pref := [], ahead := [], atPoint := false, rstall := false, strays := ((s.dc k).shed false).strays, cap := ⟨BitVec.ofNat 48 addr, d, BitVec.ofNat 4 cause, BitVec.ofNat 8 st, BitVec.ofNat 8 detail⟩ } := by
    rw [← hx, modDc_dc_same]; rfl
  generalize hy : raiseT (dcTen s k).val evDcStop x = y
  have cy : Chn k s y := by rw [← hy]; exact cx.raiseT _ _
  have dy : y.dc k = x.dc k := by rw [← hy]; rfl
  have ey : TenEvent y (dcTen s k).val evDcStop := by rw [← hy]; exact raiseT_event _ _ _ (by decide)
  split
  · next z hz =>
    have dz := dcRecord_dc hz
    rw [dy, dx] at dz
    refine ⟨Chn.dcRecord_eq hz cy, ⟨by rw [dz], by rw [dz], by rw [dz], by rw [dz], by rw [dz], (Chn.dcRecord_eq hz (Chn.refl k y)).2.2 _ _ ey⟩, by rw [dz], by rw [dz], by rw [dz], by rw [dz]⟩
  · split
    · refine ⟨Chn.dcViol _ _ _ _ cy, ⟨by rw [dcViol_dc, dy, dx], by rw [dcViol_dc, dy, dx], by rw [dcViol_dc, dy, dx], by rw [dcViol_dc, dy, dx], by rw [dcViol_dc, dy, dx], (Chn.dcViol k _ _ _ (Chn.refl k y)).2.2 _ _ ey⟩, by rw [dcViol_dc, dy, dx], by rw [dcViol_dc, dy, dx], by rw [dcViol_dc, dy, dx], by rw [dcViol_dc, dy, dx]⟩
    · exact ⟨cy, ⟨by rw [dy, dx], by rw [dy, dx], by rw [dy, dx], by rw [dy, dx], by rw [dy, dx], ey⟩, by rw [dy, dx], by rw [dy, dx], by rw [dy, dx], by rw [dy, dx]⟩
theorem Chn.dcStop {k : Nat} {s0 s : State} (st detail addr : Nat) (d : Dir) (c : Nat) (h : Chn k s0 s) : Chn k s0 (Machine.dcStop k st detail addr d c s) :=
  h.trans (dcStop_facts k st detail addr d c s).2.1
theorem Chn.foldl {k : Nat} {s0 s : State} {α : Type} {f : State → α → State} (l : List α) (h : Chn k s0 s) (hf : ∀ s a, Chn k s0 s → Chn k s0 (f s a)) : Chn k s0 (l.foldl f s) := by
  induction l generalizing s with
  | nil => exact h
  | cons a l ih => exact ih (hf _ _ h)
theorem Chn.dcWrote {k : Nat} {s0 s : State} (a l : Nat) (h : Chn k s0 s) : Chn k s0 (Machine.dcWrote k a l s) := by
  unfold Machine.dcWrote
  refine Chn.foldl _ h (fun s p hs => Chn.modDc _ hs ?_)
  intro c; split <;> rfl
theorem Chn.dcWrite {k : Nat} {s0 s : State} (a : Nat) (b : Bytes) (r : List Nat) (h : Chn k s0 s) : Chn k s0 (Machine.dcWrite k a b r s) := by
  unfold Machine.dcWrite
  split
  · exact Chn.dcStop _ _ _ _ _ (Chn.dcViol _ _ _ _ (Chn.modDc _ h))
  · exact Chn.modDc _ (Chn.dcWrote _ _ (Chn.emitWr _ _ h))
theorem Chn.dcFlush {k : Nat} {s0 s : State} (n : Nat) (h : Chn k s0 s) : Chn k s0 (Machine.dcFlush k n s) := by
  induction n generalizing s with
  | zero => exact h
  | succ n ih =>
    unfold Machine.dcFlush
    dsimp only
    split
    · exact h
    · split
      · exact h
      · exact ih (Chn.dcWrite _ _ _ (Chn.modDc _ h))
theorem Chn.dcFlushAll {k : Nat} {s0 s : State} (h : Chn k s0 s) : Chn k s0 (Machine.dcFlushAll k s) := Chn.dcFlush _ h
theorem Chn.dcFence {k : Nat} {s0 s : State} (h : Chn k s0 s) : Chn k s0 (Machine.dcFence k s) := by
  unfold Machine.dcFence
  dsimp only
  split
  · exact Chn.dcStop _ _ _ _ _ (Chn.dcViol _ _ _ _ h)
  · exact Chn.modDc _ (Chn.foldl _ h (fun s a hs => Chn.emitRd _ _ hs))
theorem Chn.dcAtPoint {k : Nat} {s0 s : State} (h : Chn k s0 s) : Chn k s0 (Machine.dcAtPoint k s) := by
  unfold Machine.dcAtPoint
  dsimp only
  have h1 := Chn.dcFlushAll (Chn.modDc (fun c => { c with inUnit := false, atPoint := true }) h)
  split
  · exact h1
  · split
    · split
      · exact Chn.dcFence h1
      · exact h1
    · exact h1
theorem Chn.usePsrc {k : Nat} {s0 s : State} (p : Nat) (h : Chn k s0 s) : Chn k s0 (Machine.usePsrc k p s) := by
  unfold Machine.usePsrc
  refine Chn.modDc _ h ?_
  intro c; split <;> rfl
theorem Chn.dcSettle {k : Nat} {s0 s : State} (h : Chn k s0 s) : Chn k s0 (Machine.dcSettle k s) := by
  unfold Machine.dcSettle
  dsimp only
  refine Chn.ite h (Chn.ite (Chn.ite (Chn.modDc _ h) (Chn.raiseT _ _ (Chn.modDc _ h))) (Chn.modDc _ h))
theorem Chn.dcUnsup {k : Nat} {s0 s : State} (d : Nat) (h : Chn k s0 s) : Chn k s0 (Machine.dcUnsup k d s) := Chn.dcStop _ _ _ _ _ h
theorem Chn.dcTake {k : Nat} {s0 s : State} (b : Bytes) (h : Chn k s0 s) : Chn k s0 (Machine.dcTake k b s) := by
  unfold Machine.dcTake
  dsimp only
  split
  · split
    · exact Chn.dcUnsup _ h
    · exact Chn.ite (Chn.dcSettle (Chn.usePsrc _ (Chn.modDc _ h))) (Chn.ite (Chn.dcFence (Chn.modDc _ h)) (Chn.dcSettle (Chn.modDc _ h)))
  · refine Chn.ite (Chn.dcUnsup _ h) (Chn.ite (Chn.dcUnsup _ h) (Chn.ite (Chn.dcUnsup _ h) (Chn.ite (Chn.dcAtPoint (Chn.usePsrc _ (Chn.modDc _ (Chn.modDc _ h)))) (Chn.dcSettle (Chn.usePsrc _ (Chn.modDc _ (Chn.modDc _ h)))))))
theorem Chn.dcReach {k : Nat} {s0 s : State} (h : Chn k s0 s) : Chn k s0 (Machine.dcReach k s) := by
  unfold Machine.dcReach
  dsimp only
  refine Chn.ite h (Chn.ite (Chn.dcUnsup _ h) ?_)
  split
  · exact Chn.dcTake _ (Chn.modDc _ h)
  · split
    · exact Chn.dcStop _ _ _ _ _ (Chn.violT _ _ _ _ _ _ _ _ h)
    · exact Chn.emitRd _ _ (Chn.modDc _ h)

/-- A settled channel holds what it held. -/
theorem dcSettle_dc (k : Nat) (s : State) : ∃ a b, (dcSettle k s).dc k = { s.dc k with st := a, rstall := b } := by
  unfold dcSettle
  dsimp only
  split
  · exact ⟨_, _, rfl⟩
  · split
    · split
      · exact ⟨_, _, modDc_dc_same _ _ _⟩
      · exact ⟨_, _, by rw [raiseT_dc', modDc_dc_same]⟩
    · exact ⟨_, _, modDc_dc_same _ _ _⟩
/-- A channel that ran or waited and is settled between two units runs or waits. -/
theorem dcSettle_st (k : Nat) (s : State) (h : (s.dc k).st = .running ∨ (s.dc k).st = .waiting) : ((dcSettle k s).dc k).st = .running ∨ ((dcSettle k s).dc k).st = .waiting := by
  unfold dcSettle
  dsimp only
  split
  · exact h
  · split
    · split
      · exact Or.inr (by rw [modDc_dc_same])
      · exact Or.inr (by rw [raiseT_dc', modDc_dc_same])
    · rw [modDc_dc_same]
      dsimp only
      split
      · exact Or.inr rfl
      · exact Or.inl rfl

theorem dcTen_congr {s t : State} (k : Nat) (h1 : t.start = s.start) (h2 : t.gen = s.gen) : dcTen t k = dcTen s k := by
  unfold dcTen State.eff State.word; rw [h1, h2]
theorem dcTen_of {s t : State} (k : Nat) (h : Only chanParts s t) : dcTen t k = dcTen s k :=
  dcTen_congr k (h.2 .start (by decide)) (h.gen_eq (by decide) (by decide))

theorem itemOk_congr {s t : State} (k d : Nat) (h1 : t.start = s.start) (h2 : t.gen = s.gen) (h3 : (t.dc k).itemAddr d = (s.dc k).itemAddr d)
    (h4 : (t.dc k).itemLen = (s.dc k).itemLen) : itemOk t k d ↔ itemOk s k d := by
  unfold itemOk
  rw [check_congr h1, dcTen_congr k h1 h2, h3, h4, h2]
  unfold dcWorld State.eff State.word
  rw [h1, h2]
theorem ChanStopped.of_ten {s s' t : State} {k a b : Nat} (h : ChanStopped s' t k a b) (e : dcTen s' k = dcTen s k) : ChanStopped s t k a b := by
  unfold ChanStopped at *; rwa [← e]

/-- A channel that reaches an item of which it holds no copy asks for it, or stops because the fetch fails its check (R302, R315). -/
theorem dcReach_fresh (k : Nat) (s : State) (h : (s.dc k).held = none) (h1 : (s.dc k).fetching = false) (h2 : (s.dc k).pref = [])
    (h3 : (s.dc k).desc < (s.dc k).count) :
    (itemOk s k (s.dc k).desc → dcReach k s = emitRd ((s.dc k).itemAddr (s.dc k).desc) (s.dc k).itemLen
      (modDc k (fun c => { c with st := .running, fetching := true, fetchPrev := false, pref := [] }) s)) ∧
    (¬itemOk s k (s.dc k).desc → ChanStopped s (dcReach k s) k stAccess 0x80) := by
  have e : dcReach k s = (match check s s.gen.act (some (dcTen s k)) (dcWorld s k) .read ((s.dc k).itemAddr (s.dc k).desc) (s.dc k).itemLen with
      | some (fa, cause) => dcStop k stAccess 0x80 fa .read cause (violT (dcTen s k).val fa .read cause kindChannel k 0 s.gen.active.toNat s)
      | none => emitRd ((s.dc k).itemAddr (s.dc k).desc) (s.dc k).itemLen (modDc k (fun c => { c with st := .running, fetching := true, fetchPrev := false, pref := [] }) s)) := by
    unfold dcReach
    dsimp only
    rw [h, h1, h2, if_neg (by decide), if_neg (by omega)]
    generalize check s s.gen.act (some (dcTen s k)) (dcWorld s k) .read ((s.dc k).itemAddr (s.dc k).desc) (s.dc k).itemLen = c
    cases c with
    | none => rfl
    | some p => rfl
  rw [e]
  unfold itemOk
  generalize check s s.gen.act (some (dcTen s k)) (dcWorld s k) .read ((s.dc k).itemAddr (s.dc k).desc) (s.dc k).itemLen = c
  cases c with
  | none => exact ⟨fun _ => rfl, fun h => absurd rfl h⟩
  | some p =>
    refine ⟨(fun h => by cases h), fun _ => ?_⟩
    obtain ⟨fa, cause⟩ := p
    dsimp only
    generalize hx : violT _ _ _ _ _ _ _ _ s = x
    have f : Only chanParts s x := by rw [← hx]; exact Only.violT _ _ _ _ _ _ _ _ _ (by decide) (Only.refl _ _)
    exact (dcStop_facts k stAccess 0x80 fa .read cause x).2.2.1.of_ten (dcTen_of k f)

/-- Going on at an item (R305, R315, R328). -/
theorem dcGoto_facts (k d : Nat) (s : State) (hf : (s.dc k).fetching = false) :
    Only chanParts s (dcGoto k d s) ∧ OtherDcs k s (dcGoto k d s) ∧ ((dcGoto k d s).dc k).prog = { (s.dc k).prog with desc := d } ∧
      (∀ n e, TenEvent s n e → TenEvent (dcGoto k d s) n e) ∧ GoesOn s (dcGoto k d s) k d := by
  have e : dcGoto k d s = dcReach k (modDc k (fun c => { c with desc := d, i0 := 0, i1 := 0, i2 := 0, held := none, inUnit := false, atPoint := false, ahead := [], wrote := none, port0 := if c.trowel then c.port0 else none, port1 := if c.trowel then c.port1 else none }) s) := rfl
  have o : Only chanParts s (dcGoto k d s) := Only.dcGoto _ _ _ (by decide) (Only.refl _ _)
  rw [e] at o ⊢
  generalize hx : modDc k _ s = x at o ⊢
  have dx : x.dc k = { s.dc k with desc := d, i0 := 0, i1 := 0, i2 := 0, held := none, inUnit := false, atPoint := false, ahead := [], wrote := none, port0 := if (s.dc k).trowel then (s.dc k).port0 else none, port1 := if (s.dc k).trowel then (s.dc k).port1 else none } := by
    rw [← hx, modDc_dc_same]
  have ox : OtherDcs k s x := by rw [← hx]; exact fun j hj => modDc_dc_ne _ _ hj
  have vx : ∀ n e, TenEvent s n e → TenEvent x n e := by rw [← hx]; exact fun _ _ h => h
  have fx : Only [.dcs] s x := by rw [← hx]; exact Only.modDc _ _ (by decide) (Only.refl _ _)
  have tx : dcTen x k = dcTen s k := dcTen_congr k (fx.2 .start (by decide)) (fx.gen_eq (by decide) (by decide))
  have c : Chn k x (dcReach k x) := Chn.dcReach (Chn.refl _ _)
  have cp : ∀ y : State, Chn k x y → (y.dc k).prog = { (s.dc k).prog with desc := d } := by
    intro y hy
    rw [hy.2.1, dx]; rfl
  refine ⟨o, fun j hj => (c.1 j hj).trans (ox j hj), cp _ c, fun n e h => c.2.2 n e (vx n e h), ?_⟩
  refine ⟨?_, ?_, ?_⟩
  · have := cp _ c
    exact congrArg Chan.desc this
  · intro h
    rw [show dcReach k x = dcUnsup k 0x80 x from by
      unfold dcReach
      dsimp only
      rw [if_neg (by rw [dx]; simp [hf]), if_pos (by rw [dx]; exact h)]]
    exact (dcStop_facts k stUnsupported 0x80 0 .read 0 x).2.2.1.of_ten tx
  · intro h hp
    have q := dcReach_fresh k x (by rw [dx]) (by rw [dx]; exact hf) (by rw [dx]; exact hp) (by rw [dx]; exact h)
    rw [show (x.dc k).desc = d by rw [dx], itemOk_congr k d (fx.2 .start (by decide)) (fx.gen_eq (by decide) (by decide)) (by rw [dx]; rfl) (by rw [dx]; rfl)] at q
    refine ⟨fun hi => ?_, fun hi => (q.2 hi).of_ten tx⟩
    rw [q.1 hi, emitRd_dc, modDc_dc_same, dx]
    exact ⟨rfl, rfl, rfl, rfl⟩
theorem tRun_at {s : State} {k : ChanIx} {opc : Nat} {b : Bytes} {f : Bytes → State → State} (h : AtOp s k opc b) : tRun k opc f s = f b s := by
  obtain ⟨h1, h2, h3, h4, h5, h6⟩ := h
  unfold tRun
  rw [h4]
  dsimp only
  rw [whenS_true (by simp [h1, h2, h3, h6])]
theorem AtOp.fetch {s : State} {k : ChanIx} {opc : Nat} {b : Bytes} (h : AtOp s k opc b) : (s.dc k.val).fetching = false := h.2.2.2.2.1
theorem GoesOn.of {s x t : State} {k d : Nat} (h : GoesOn x t k d) (h1 : x.start = s.start) (h1' : x.gen = s.gen) (h2 : (x.dc k).count = (s.dc k).count) (h3 : (x.dc k).pref = (s.dc k).pref)
    (h4 : (x.dc k).credit = (s.dc k).credit) (h5 : (x.dc k).itemAddr d = (s.dc k).itemAddr d) (h6 : (x.dc k).itemLen = (s.dc k).itemLen) : GoesOn s t k d := by
  unfold GoesOn at *
  rw [h2, h3, h4, itemOk_congr k d h1 h1' h5 h6] at h
  exact ⟨h.1, fun a => (h.2.1 a).of_ten (dcTen_congr k h1 h1'), fun a b => ⟨(h.2.2 a b).1, fun c => ((h.2.2 a b).2 c).of_ten (dcTen_congr k h1 h1')⟩⟩
/-- An instruction that changes registers and goes on. -/
theorem tStep {k : ChanIx} {s : State} (f : Chan → Chan) (d : Nat) (hf : (s.dc k.val).fetching = false) (hp : (f (s.dc k.val)).prog = (f (s.dc k.val)).prog)
    (h : (f (s.dc k.val)).dcount = (s.dc k.val).dcount ∧ (f (s.dc k.val)).pref = (s.dc k.val).pref ∧ (f (s.dc k.val)).credit = (s.dc k.val).credit ∧
      (f (s.dc k.val)).dbase = (s.dc k.val).dbase ∧ (f (s.dc k.val)).cfg = (s.dc k.val).cfg ∧ (f (s.dc k.val)).fetching = (s.dc k.val).fetching) :
    Only chanParts s (dcGoto k.val d (modDc k.val f s)) ∧ OtherDcs k.val s (dcGoto k.val d (modDc k.val f s)) ∧ GoesOn s (dcGoto k.val d (modDc k.val f s)) k.val d ∧
      ((dcGoto k.val d (modDc k.val f s)).dc k.val).prog = { (f (s.dc k.val)).prog with desc := d } ∧ (∀ n e, TenEvent s n e → TenEvent (dcGoto k.val d (modDc k.val f s)) n e) := by
  obtain ⟨g1, g2, g3, g4, g5, g6⟩ := h
  generalize hx : modDc k.val f s = x
  have dx : x.dc k.val = f (s.dc k.val) := by rw [← hx, modDc_dc_same]
  have fx : Only chanParts s x := by rw [← hx]; exact Only.modDc _ _ (by decide) (Only.refl _ _)
  have ox : OtherDcs k.val s x := by rw [← hx]; exact fun j hj => modDc_dc_ne _ _ hj
  have vx : ∀ n e, TenEvent s n e → TenEvent x n e := by rw [← hx]; exact fun _ _ h => h
  obtain ⟨a, b, c, e, g⟩ := dcGoto_facts k.val d x (by rw [dx, g6]; exact hf)
  refine ⟨fx.trans a, fun j hj => (b j hj).trans (ox j hj), ?_, by rw [c, dx], fun n ev h => e n ev (vx n ev h)⟩
  refine g.of (fx.2 .start (by decide)) (fx.gen_eq (by decide) (by decide)) ?_ ?_ ?_ ?_ ?_
  · unfold Chan.count; rw [dx, g1]
  · rw [dx, g2]
  · rw [dx, g3]
  · unfold Chan.itemAddr Chan.itemLen Chan.trowel; rw [dx, g4, g5]
  · unfold Chan.itemLen Chan.trowel; rw [dx, g5]
theorem tGo {k : ChanIx} {s : State} (d : Nat) (hf : (s.dc k.val).fetching = false) :
    Only chanParts s (dcGoto k.val d s) ∧ OtherDcs k.val s (dcGoto k.val d s) ∧ GoesOn s (dcGoto k.val d s) k.val d ∧
      ((dcGoto k.val d s).dc k.val).prog = { (s.dc k.val).prog with desc := d } := by
  obtain ⟨a, b, c, e, g⟩ := dcGoto_facts k.val d s hf
  exact ⟨a, b, g, c⟩

theorem emitRd_out2 (a l : Nat) (x y : State) (h : x.out = y.out) : (emitRd a l x).out = (emitRd a l y).out := by
  unfold emitRd
  generalize pieces a l = ps
  induction ps generalizing x y with
  | nil => exact h
  | cons p ps ih => exact ih _ _ (by change x.out ++ _ = y.out ++ _; rw [h])
theorem dcGoto_fresh (k d : Nat) (s : State) (hf : (s.dc k).fetching = false) (hd : d < (s.dc k).count) (hp : (s.dc k).pref = []) (hi : itemOk s k d) :
    (dcGoto k d s).out = (emitRd ((s.dc k).itemAddr d) (s.dc k).itemLen s).out ∧ ((dcGoto k d s).dc k).recTail = (s.dc k).recTail := by
  have e : dcGoto k d s = dcReach k (modDc k (fun c => { c with desc := d, i0 := 0, i1 := 0, i2 := 0, held := none, inUnit := false, atPoint := false, ahead := [], wrote := none, port0 := if c.trowel then c.port0 else none, port1 := if c.trowel then c.port1 else none }) s) := rfl
  rw [e]
  generalize hx : modDc k _ s = x
  have dx : x.dc k = { s.dc k with desc := d, i0 := 0, i1 := 0, i2 := 0, held := none, inUnit := false, atPoint := false, ahead := [], wrote := none, port0 := if (s.dc k).trowel then (s.dc k).port0 else none, port1 := if (s.dc k).trowel then (s.dc k).port1 else none } := by
    rw [← hx, modDc_dc_same]
  have fx : Only [.dcs] s x := by rw [← hx]; exact Only.modDc _ _ (by decide) (Only.refl _ _)
  have q := dcReach_fresh k x (by rw [dx]) (by rw [dx]; exact hf) (by rw [dx]; exact hp) (by rw [dx]; exact hd)
  rw [show (x.dc k).desc = d by rw [dx], itemOk_congr k d (fx.2 .start (by decide)) (fx.gen_eq (by decide) (by decide)) (by rw [dx]; rfl) (by rw [dx]; rfl)] at q
  rw [q.1 hi]
  constructor
  · rw [dx, ← hx]
    exact emitRd_out2 _ _ _ _ rfl
  · rw [emitRd_dc, modDc_dc_same, dx]
theorem chk_congr {s t : State} {k : Nat} (h1 : t.start = s.start) (h2 : t.gen = s.gen) (h3 : (t.dc k).unitPrev = (s.dc k).unitPrev) (d : Dir) (a l : Nat) :
    dcCheck t k d a l = dcCheck s k d a l := by
  unfold dcCheck
  rw [check_congr h1, h3, dcTen_congr k h1 h2]
  unfold State.rules dcWorld State.eff State.word
  rw [h1, h2]
theorem dcDone_ok (k : Nat) (s : State) (h1 : (s.dc k).recEn = true) (h2 : (s.dc k).place = true) (h3 : dcCheck s k .write (dcRecAddr (s.dc k)) 32 = none) :
    dcDone k s = modDc k (fun c => { c with recTail := (c.recTail + 1) % 2 ^ (c.recK + 1) }) (emitRecord (dcRecAddr (s.dc k)) (recordBytes k (s.dc k) stDone 0 [0, 0, 0] 0 .read s.time.ns) s) := by
  have er : dcRecord k stDone 0 [0, 0, 0] 0 .read s = some (modDc k (fun c => { c with recTail := (c.recTail + 1) % 2 ^ (c.recK + 1) }) (emitRecord (dcRecAddr (s.dc k)) (recordBytes k (s.dc k) stDone 0 [0, 0, 0] 0 .read s.time.ns) s)) := by
    unfold dcRecord
    dsimp only
    rw [h1, h2, if_neg (by decide), if_neg (by unfold dcRecAddr at h3; rw [h3]; decide)]
    rfl
  unfold dcDone
  rw [er]
theorem dcDone_off (k : Nat) (s : State) (h1 : (s.dc k).recEn = false) : dcDone k s = s := by
  have er : dcRecord k stDone 0 [0, 0, 0] 0 .read s = some s := by
    unfold dcRecord
    dsimp only
    rw [h1, if_pos (by rfl)]
  unfold dcDone
  rw [er]
theorem dcDone_bad (k fa cause : Nat) (s : State) (h1 : (s.dc k).recEn = true) (h2 : (s.dc k).place = true) (h3 : dcCheck s k .write (dcRecAddr (s.dc k)) 32 = some (fa, cause)) :
    dcDone k s = dcRecordFault k stAccess fa cause (dcViol k fa .write cause s) := by
  have er : dcRecord k stDone 0 [0, 0, 0] 0 .read s = none := by
    unfold dcRecord
    dsimp only
    rw [h1, h2, if_neg (by decide), if_pos (by unfold dcRecAddr at h3; rw [h3]; rfl)]
  unfold dcDone
  rw [er, h3]
/-- A record write that fails its check stops the channel, and its place stays free (R323). -/
theorem recordFault_facts (k fa cause : Nat) (s : State) :
    let t := dcRecordFault k stAccess fa cause (dcViol k fa .write cause s)
    Only chanParts s t ∧ OtherDcs k s t ∧ ChanStopped s t k stAccess 0x02 ∧ (t.dc k).recTail = (s.dc k).recTail := by
  dsimp only
  have dv : ∀ j, (dcViol k fa .write cause s).dc j = s.dc j := fun j => dcViol_dc _ _ _ _ _ _
  have fv : Only [.tens] s (dcViol k fa .write cause s) := Only.dcViol _ _ _ _ _ (by decide) (Only.refl _ _)
  have tv : dcTen (dcViol k fa .write cause s) k = dcTen s k := dcTen_congr _ (fv.2 .start (by decide)) (fv.gen_eq (by decide) (by decide))
  generalize dcViol k fa .write cause s = y at dv fv tv ⊢
  unfold dcRecordFault
  rw [tv]
  generalize hx : raiseT _ _ (modDc k _ y) = x
  have fx : Only [.tens, .dcs] y x := by rw [← hx]; exact Only.raiseT _ _ _ (by decide) (Only.modDc _ _ (by decide) (Only.refl _ _))
  have dx : x.dc k = { s.dc k with st := .stopped, fault := true, held := none, fetching := false, fetchPrev := false, backs := false, pref := [], ahead := [], atPoint := false, rstall := false, strays := ((s.dc k).shed false).strays, cap := ⟨BitVec.ofNat 48 fa, .write, BitVec.ofNat 4 cause, BitVec.ofNat 8 stAccess, 0x02⟩ } := by
    rw [← hx, raiseT_dc', modDc_dc_same, dv]; rfl
  have ex : TenEvent x (dcTen s k).val evDcStop := by rw [← hx]; exact raiseT_event _ _ _ (by decide)
  exact ⟨(fv.mono (by decide)).trans (fx.mono (by decide)), fun j hj => by rw [← hx, raiseT_dc', modDc_dc_ne _ _ hj, dv], ⟨by rw [dx], by rw [dx], by rw [dx], by rw [dx], by rw [dx]; rfl, ex⟩, by rw [dx]⟩
end Sys2Proof.Machine
end

