-- ==== Sys2Proof/Laws/InCourse.lean ====
section
/-!
SUPPORT. The peers, the role, the lanes and the counters of the course stay through the operations that send frames and grant blocks.
-/

set_option Elab.async false

namespace Sys2Proof.Machine

/-- The peers, the role, the master, the lanes, the counters, the epoch and the group key under formation. -/
def Prs (v : Tbl Peer × BitVec 2 × BitVec 2 × BitVec 2 × CrsCnt × Nat × Bytes) (s : State) : Prop :=
  (s.crs.peers, s.crs.role, s.crs.master, s.crs.laneUp, s.crs.cnt, s.crs.forming, s.crs.newKey) = v

theorem Prs.modTen {v0 : Tbl Peer × BitVec 2 × BitVec 2 × BitVec 2 × CrsCnt × Nat × Bytes} (n : Nat) (f : Tenant → Tenant) (s : State) (hs : Prs v0 s) : Prs v0 (Machine.modTen n f s) := hs
theorem Prs.modSq {v0 : Tbl Peer × BitVec 2 × BitVec 2 × BitVec 2 × CrsCnt × Nat × Bytes} (n m : Nat) (f : Sq → Sq) (s : State) (hs : Prs v0 s) : Prs v0 (Machine.modSq n m f s) := hs
theorem Prs.modCq {v0 : Tbl Peer × BitVec 2 × BitVec 2 × BitVec 2 × CrsCnt × Nat × Bytes} (n m : Nat) (f : Cq → Cq) (s : State) (hs : Prs v0 s) : Prs v0 (Machine.modCq n m f s) := hs
theorem Prs.modDc {v0 : Tbl Peer × BitVec 2 × BitVec 2 × BitVec 2 × CrsCnt × Nat × Bytes} (k : Nat) (f : Chan → Chan) (s : State) (hs : Prs v0 s) : Prs v0 (Machine.modDc k f s) := hs
theorem Prs.modTile {v0 : Tbl Peer × BitVec 2 × BitVec 2 × BitVec 2 × CrsCnt × Nat × Bytes} (t : Nat) (f : Tile → Tile) (s : State) (hs : Prs v0 s) : Prs v0 (Machine.modTile t f s) := hs
theorem Prs.setCs {v0 : Tbl Peer × BitVec 2 × BitVec 2 × BitVec 2 × CrsCnt × Nat × Bytes} (c : Nat) (v : CsSt) (s : State) (hs : Prs v0 s) : Prs v0 (Machine.setCs c v s) := hs
theorem Prs.modKs {v0 : Tbl Peer × BitVec 2 × BitVec 2 × BitVec 2 × CrsCnt × Nat × Bytes} (f : KeyStore → KeyStore) (s : State) (hs : Prs v0 s) : Prs v0 (Machine.modKs f s) := hs
theorem Prs.modSlot {v0 : Tbl Peer × BitVec 2 × BitVec 2 × BitVec 2 × CrsCnt × Nat × Bytes} (i : Nat) (f : Slot → Slot) (s : State) (hs : Prs v0 s) : Prs v0 (Machine.modSlot i f s) := hs
theorem Prs.modRbg {v0 : Tbl Peer × BitVec 2 × BitVec 2 × BitVec 2 × CrsCnt × Nat × Bytes} (k : Nat) (f : Rbg → Rbg) (s : State) (hs : Prs v0 s) : Prs v0 (Machine.modRbg k f s) := hs
theorem Prs.setStream {v0 : Tbl Peer × BitVec 2 × BitVec 2 × BitVec 2 × CrsCnt × Nat × Bytes} (i : Nat) (v : Option Stream) (s : State) (hs : Prs v0 s) : Prs v0 (Machine.setStream i v s) := hs
theorem Prs.setCacheEnt {v0 : Tbl Peer × BitVec 2 × BitVec 2 × BitVec 2 × CrsCnt × Nat × Bytes} (h : Nat) (v : Option CacheEnt) (s : State) (hs : Prs v0 s) : Prs v0 (Machine.setCacheEnt h v s) := hs
theorem Prs.modCrs {v0 : Tbl Peer × BitVec 2 × BitVec 2 × BitVec 2 × CrsCnt × Nat × Bytes} {s : State} (f : Course → Course) (h : Prs v0 s)
    (hf : ∀ c, ((f c).peers, (f c).role, (f c).master, (f c).laneUp, (f c).cnt, (f c).forming, (f c).newKey) = (c.peers, c.role, c.master, c.laneUp, c.cnt, c.forming, c.newKey)) : Prs v0 (Machine.modCrs f s) :=
  (hf _).trans h

theorem Prs.modOwn {v0 : Tbl Peer × BitVec 2 × BitVec 2 × BitVec 2 × CrsCnt × Nat × Bytes} (f : OwnRegs → OwnRegs) (s : State) (hs : Prs v0 s) : Prs v0 (Machine.modOwn f s) := hs
theorem Prs.modTcmp {v0 : Tbl Peer × BitVec 2 × BitVec 2 × BitVec 2 × CrsCnt × Nat × Bytes} (j : Nat) (f : Tcmp → Tcmp) (s : State) (hs : Prs v0 s) : Prs v0 (Machine.modTcmp j f s) := hs
theorem Prs.modGen {v0 : Tbl Peer × BitVec 2 × BitVec 2 × BitVec 2 × CrsCnt × Nat × Bytes} (f : Gen → Gen) (s : State) (hs : Prs v0 s) : Prs v0 (Machine.modGen f s) := hs
theorem Prs.modJrn {v0 : Tbl Peer × BitVec 2 × BitVec 2 × BitVec 2 × CrsCnt × Nat × Bytes} (f : Journal → Journal) (s : State) (hs : Prs v0 s) : Prs v0 (Machine.modJrn f s) := hs
theorem Prs.modTime {v0 : Tbl Peer × BitVec 2 × BitVec 2 × BitVec 2 × CrsCnt × Nat × Bytes} (f : TimeUnit → TimeUnit) (s : State) (hs : Prs v0 s) : Prs v0 (Machine.modTime f s) := hs
theorem Prs.modClk {v0 : Tbl Peer × BitVec 2 × BitVec 2 × BitVec 2 × CrsCnt × Nat × Bytes} (f : Clocks → Clocks) (s : State) (hs : Prs v0 s) : Prs v0 (Machine.modClk f s) := hs
theorem Prs.modStart {v0 : Tbl Peer × BitVec 2 × BitVec 2 × BitVec 2 × CrsCnt × Nat × Bytes} (f : Start → Start) (s : State) (hs : Prs v0 s) : Prs v0 (Machine.modStart f s) := hs
theorem Prs.modOwner {v0 : Tbl Peer × BitVec 2 × BitVec 2 × BitVec 2 × CrsCnt × Nat × Bytes} (f : Owner → Owner) (s : State) (hs : Prs v0 s) : Prs v0 (Machine.modOwner f s) := hs
theorem Prs.modMeas {v0 : Tbl Peer × BitVec 2 × BitVec 2 × BitVec 2 × CrsCnt × Nat × Bytes} (f : Meas → Meas) (s : State) (hs : Prs v0 s) : Prs v0 (Machine.modMeas f s) := hs
theorem Prs.modEs {v0 : Tbl Peer × BitVec 2 × BitVec 2 × BitVec 2 × CrsCnt × Nat × Bytes} (f : Entropy → Entropy) (s : State) (hs : Prs v0 s) : Prs v0 (Machine.modEs f s) := hs
theorem Prs.modBoot {v0 : Tbl Peer × BitVec 2 × BitVec 2 × BitVec 2 × CrsCnt × Nat × Bytes} (f : Boot → Boot) (s : State) (hs : Prs v0 s) : Prs v0 (Machine.modBoot f s) := hs
theorem Prs.modFp {v0 : Tbl Peer × BitVec 2 × BitVec 2 × BitVec 2 × CrsCnt × Nat × Bytes} (f : FramePort → FramePort) (s : State) (hs : Prs v0 s) : Prs v0 (Machine.modFp f s) := hs
theorem Prs.modSup {v0 : Tbl Peer × BitVec 2 × BitVec 2 × BitVec 2 × CrsCnt × Nat × Bytes} (f : Supply → Supply) (s : State) (hs : Prs v0 s) : Prs v0 (Machine.modSup f s) := hs
theorem Prs.modSch {v0 : Tbl Peer × BitVec 2 × BitVec 2 × BitVec 2 × CrsCnt × Nat × Bytes} (f : Sched → Sched) (s : State) (hs : Prs v0 s) : Prs v0 (Machine.modSch f s) := hs
theorem Prs.modReq {v0 : Tbl Peer × BitVec 2 × BitVec 2 × BitVec 2 × CrsCnt × Nat × Bytes} (id : Nat) (f : Req → Req) (s : State) (hs : Prs v0 s) : Prs v0 (Machine.modReq id f s) := hs
theorem Prs.dropReq {v0 : Tbl Peer × BitVec 2 × BitVec 2 × BitVec 2 × CrsCnt × Nat × Bytes} (id : Nat) (s : State) (hs : Prs v0 s) : Prs v0 (Machine.dropReq id s) := hs
theorem Prs.emit {v0 : Tbl Peer × BitVec 2 × BitVec 2 × BitVec 2 × CrsCnt × Nat × Bytes} (o : Out) (s : State) (hs : Prs v0 s) : Prs v0 (Machine.emit o s) := hs
theorem Prs.nextFree {v0 : Tbl Peer × BitVec 2 × BitVec 2 × BitVec 2 × CrsCnt × Nat × Bytes} (s : State) (hs : Prs v0 s) : Prs v0 (Machine.nextFree s) := hs
theorem Prs.modRoots {v0 : Tbl Peer × BitVec 2 × BitVec 2 × BitVec 2 × CrsCnt × Nat × Bytes} (f : Roots → Roots) (s : State) (hs : Prs v0 s) : Prs v0 (Machine.modRoots f s) := hs
theorem Prs.modIdent {v0 : Tbl Peer × BitVec 2 × BitVec 2 × BitVec 2 × CrsCnt × Nat × Bytes} (f : Ident → Ident) (s : State) (hs : Prs v0 s) : Prs v0 (Machine.modIdent f s) := hs
theorem Prs.modRet {v0 : Tbl Peer × BitVec 2 × BitVec 2 × BitVec 2 × CrsCnt × Nat × Bytes} (f : Retention → Retention) (s : State) (hs : Prs v0 s) : Prs v0 (Machine.modRet f s) := hs
theorem Prs.modDenied {v0 : Tbl Peer × BitVec 2 × BitVec 2 × BitVec 2 × CrsCnt × Nat × Bytes} (f : Cnt32 → Cnt32) (s : State) (hs : Prs v0 s) : Prs v0 (Machine.modDenied f s) := hs
theorem Prs.modEvPend {v0 : Tbl Peer × BitVec 2 × BitVec 2 × BitVec 2 × CrsCnt × Nat × Bytes} (f : Word → Word) (s : State) (hs : Prs v0 s) : Prs v0 (Machine.modEvPend f s) := hs
theorem Prs.modBuserr {v0 : Tbl Peer × BitVec 2 × BitVec 2 × BitVec 2 × CrsCnt × Nat × Bytes} (f : Capture → Capture) (s : State) (hs : Prs v0 s) : Prs v0 (Machine.modBuserr f s) := hs
theorem Prs.modBecnt {v0 : Tbl Peer × BitVec 2 × BitVec 2 × BitVec 2 × CrsCnt × Nat × Bytes} (f : Cnt32 → Cnt32) (s : State) (hs : Prs v0 s) : Prs v0 (Machine.modBecnt f s) := hs
theorem Prs.modPviol {v0 : Tbl Peer × BitVec 2 × BitVec 2 × BitVec 2 × CrsCnt × Nat × Bytes} (f : Capture → Capture) (s : State) (hs : Prs v0 s) : Prs v0 (Machine.modPviol f s) := hs
theorem Prs.modPvcnt {v0 : Tbl Peer × BitVec 2 × BitVec 2 × BitVec 2 × CrsCnt × Nat × Bytes} (f : Cnt32 → Cnt32) (s : State) (hs : Prs v0 s) : Prs v0 (Machine.modPvcnt f s) := hs
theorem Prs.modSent {v0 : Tbl Peer × BitVec 2 × BitVec 2 × BitVec 2 × CrsCnt × Nat × Bytes} (f : List Req → List Req) (s : State) (hs : Prs v0 s) : Prs v0 (Machine.modSent f s) := hs
theorem Prs.modReqs {v0 : Tbl Peer × BitVec 2 × BitVec 2 × BitVec 2 × CrsCnt × Nat × Bytes} (f : List Req → List Req) (s : State) (hs : Prs v0 s) : Prs v0 (Machine.modReqs f s) := hs
theorem Prs.modHeld {v0 : Tbl Peer × BitVec 2 × BitVec 2 × BitVec 2 × CrsCnt × Nat × Bytes} (f : List HeldWrite → List HeldWrite) (s : State) (hs : Prs v0 s) : Prs v0 (Machine.modHeld f s) := hs
theorem Prs.modLatch {v0 : Tbl Peer × BitVec 2 × BitVec 2 × BitVec 2 × CrsCnt × Nat × Bytes} (f : List Latch → List Latch) (s : State) (hs : Prs v0 s) : Prs v0 (Machine.modLatch f s) := hs
theorem Prs.modCe {v0 : Tbl Peer × BitVec 2 × BitVec 2 × BitVec 2 × CrsCnt × Nat × Bytes} (c : Nat) (f : Cnt32 → Cnt32) (s : State) (hs : Prs v0 s) : Prs v0 (Machine.modCe c f s) := hs
theorem Prs.modNotice {v0 : Tbl Peer × BitVec 2 × BitVec 2 × BitVec 2 × CrsCnt × Nat × Bytes} (f : Word → Word) (s : State) (hs : Prs v0 s) : Prs v0 (Machine.modNotice f s) := hs
theorem Prs.setAct {v0 : Tbl Peer × BitVec 2 × BitVec 2 × BitVec 2 × CrsCnt × Nat × Bytes} (c : Content) (s : State) (hs : Prs v0 s) : Prs v0 (Machine.setAct c s) := hs

theorem Prs.foldl {v0 : Tbl Peer × BitVec 2 × BitVec 2 × BitVec 2 × CrsCnt × Nat × Bytes} {s : State} {α : Type} {f : State → α → State} (l : List α) (h : Prs v0 s) (hf : ∀ s a, Prs v0 s → Prs v0 (f s a)) :
    Prs v0 (l.foldl f s) := by
  induction l generalizing s with
  | nil => exact h
  | cons a t ih => exact ih (hf s a h)
theorem Prs.eachN {v0 : Tbl Peer × BitVec 2 × BitVec 2 × BitVec 2 × CrsCnt × Nat × Bytes} {s : State} {f : Nat → State → State} (l : List Nat) (h : Prs v0 s) (hf : ∀ i s, Prs v0 s → Prs v0 (f i s)) : Prs v0 (Machine.eachN l f s) :=
  Prs.foldl l h (fun s i hs => hf i s hs)
theorem Prs.ite {v0 : Tbl Peer × BitVec 2 × BitVec 2 × BitVec 2 × CrsCnt × Nat × Bytes} {c : Prop} [Decidable c] {a b : State} (ha : c → Prs v0 a) (hb : ¬c → Prs v0 b) : Prs v0 (if c then a else b) := by
  by_cases h : c
  · rw [if_pos h]; exact ha h
  · rw [if_neg h]; exact hb h
theorem Prs.idS {v0 : Tbl Peer × BitVec 2 × BitVec 2 × BitVec 2 × CrsCnt × Nat × Bytes} {s : State} (h : Prs v0 s) : Prs v0 (id s) := h
theorem Prs.whenS {v0 : Tbl Peer × BitVec 2 × BitVec 2 × BitVec 2 × CrsCnt × Nat × Bytes} {b : Bool} {f : State → State} {s : State} (h : Prs v0 s) (hf : b = true → ∀ s, Prs v0 s → Prs v0 (f s)) : Prs v0 (Machine.whenS b f s) := by
  unfold Machine.whenS
  split
  · next e => exact hf e s h
  · exact h
theorem Prs.withReq {v0 : Tbl Peer × BitVec 2 × BitVec 2 × BitVec 2 × CrsCnt × Nat × Bytes} {id : Nat} {f : Req → State → State} {s : State} (h : Prs v0 s) (hf : ∀ r s, Prs v0 s → Prs v0 (f r s)) : Prs v0 (Machine.withReq id f s) := by
  unfold Machine.withReq
  split
  · exact hf _ s h
  · exact h

theorem Prs.emitWr {v0 : Tbl Peer × BitVec 2 × BitVec 2 × BitVec 2 × CrsCnt × Nat × Bytes} (addr : Nat) (data : Bytes) (s : State) (h : Prs v0 s) : Prs v0 (Machine.emitWr addr data s) := by
  unfold Machine.emitWr
  repeat' first
    | dsimp only
    | with_reducible assumption
    | intro _
    | with_reducible apply Prs.emit
    | with_reducible apply Prs.foldl

theorem Prs.emitRecord {v0 : Tbl Peer × BitVec 2 × BitVec 2 × BitVec 2 × CrsCnt × Nat × Bytes} (addr : Nat) (b : Bytes) (s : State) (h : Prs v0 s) : Prs v0 (Machine.emitRecord addr b s) := by
  unfold Machine.emitRecord
  repeat' first
    | dsimp only
    | with_reducible assumption
    | intro _
    | with_reducible apply Prs.emitWr

theorem Prs.raiseT {v0 : Tbl Peer × BitVec 2 × BitVec 2 × BitVec 2 × CrsCnt × Nat × Bytes} (n e : Nat) (s : State) (h : Prs v0 s) : Prs v0 (Machine.raiseT n e s) := by
  unfold Machine.raiseT
  repeat' first
    | dsimp only
    | with_reducible assumption
    | intro _
    | with_reducible apply Prs.modTen

theorem Prs.raiseG {v0 : Tbl Peer × BitVec 2 × BitVec 2 × BitVec 2 × CrsCnt × Nat × Bytes} (e : Nat) (s : State) (h : Prs v0 s) : Prs v0 (Machine.raiseG e s) := by
  unfold Machine.raiseG
  repeat' first
    | dsimp only
    | with_reducible assumption
    | intro _
    | with_reducible apply Prs.modEvPend

theorem Prs.violP {v0 : Tbl Peer × BitVec 2 × BitVec 2 × BitVec 2 × CrsCnt × Nat × Bytes} (addr : Nat) (d : Dir) (cause kind number tag gen : Nat) (s : State) (h : Prs v0 s) : Prs v0 (Machine.violP addr d cause kind number tag gen s) := by
  unfold Machine.violP
  repeat' first
    | dsimp only
    | with_reducible assumption
    | intro _
    | with_reducible apply Prs.modPvcnt
    | with_reducible apply Prs.modPviol
    | with_reducible apply Prs.raiseG
    | with_reducible refine Prs.ite ?_ ?_

theorem Prs.jrnLose {v0 : Tbl Peer × BitVec 2 × BitVec 2 × BitVec 2 × CrsCnt × Nat × Bytes} (s : State) (h : Prs v0 s) : Prs v0 (Machine.jrnLose s) := by
  unfold Machine.jrnLose
  repeat' first
    | dsimp only
    | with_reducible assumption
    | intro _
    | with_reducible apply Prs.modJrn
    | with_reducible apply Prs.raiseG

theorem Prs.jrnNlose {v0 : Tbl Peer × BitVec 2 × BitVec 2 × BitVec 2 × CrsCnt × Nat × Bytes} (s : State) (h : Prs v0 s) : Prs v0 (Machine.jrnNlose s) := by
  unfold Machine.jrnNlose
  repeat' first
    | dsimp only
    | with_reducible assumption
    | intro _
    | with_reducible apply Prs.modJrn

theorem Prs.jrnPush {v0 : Tbl Peer × BitVec 2 × BitVec 2 × BitVec 2 × CrsCnt × Nat × Bytes} (rec : List (BitVec 32)) (s : State) (h : Prs v0 s) : Prs v0 (Machine.jrnPush rec s) := by
  unfold Machine.jrnPush
  repeat' first
    | dsimp only
    | with_reducible assumption
    | intro _
    | with_reducible apply Prs.modJrn
    | with_reducible apply Prs.raiseG
    | with_reducible refine Prs.ite ?_ ?_

theorem Prs.jrnMakeRoom {v0 : Tbl Peer × BitVec 2 × BitVec 2 × BitVec 2 × CrsCnt × Nat × Bytes} (need : Nat) (x : Nat) (s : State) (h : Prs v0 s) : Prs v0 (Machine.jrnMakeRoom need x s) := by
  induction x generalizing s with
  | zero => exact h
  | succ n ih =>
    unfold Machine.jrnMakeRoom
    repeat' first
      | dsimp only
      | with_reducible assumption
      | intro _
      | with_reducible apply Prs.jrnLose
      | with_reducible apply Prs.modJrn
      | with_reducible refine Prs.ite ?_ ?_
      | split
      | rfl
      | exact hes
      | (simp_all; done)
      | with_reducible apply ih

theorem Prs.noticeFault {v0 : Tbl Peer × BitVec 2 × BitVec 2 × BitVec 2 × CrsCnt × Nat × Bytes} (s : State) (h : Prs v0 s) : Prs v0 (Machine.noticeFault s) := by
  unfold Machine.noticeFault
  repeat' first
    | dsimp only
    | with_reducible assumption
    | intro _
    | with_reducible apply Prs.modNotice
    | with_reducible apply Prs.raiseG

theorem Prs.notice {v0 : Tbl Peer × BitVec 2 × BitVec 2 × BitVec 2 × CrsCnt × Nat × Bytes} (rec : List (BitVec 32)) (s : State) (h : Prs v0 s) : Prs v0 (Machine.notice rec s) := by
  unfold Machine.notice
  repeat' first
    | dsimp only
    | with_reducible assumption
    | intro _
    | with_reducible apply Prs.emitRecord
    | with_reducible apply Prs.jrnNlose
    | with_reducible apply Prs.modJrn
    | with_reducible apply Prs.noticeFault
    | with_reducible apply Prs.violP
    | with_reducible refine Prs.ite ?_ ?_
    | split

theorem Prs.jrnOpen {v0 : Tbl Peer × BitVec 2 × BitVec 2 × BitVec 2 × CrsCnt × Nat × Bytes} (bad : Bool) (s : State) (h : Prs v0 s) : Prs v0 (Machine.jrnOpen bad s) := by
  unfold Machine.jrnOpen
  repeat' first
    | dsimp only
    | with_reducible assumption
    | intro _
    | with_reducible apply Prs.modJrn
    | with_reducible refine Prs.ite ?_ ?_
    | split

theorem Prs.jrnDeliver {v0 : Tbl Peer × BitVec 2 × BitVec 2 × BitVec 2 × CrsCnt × Nat × Bytes} (who : Who) (size : AccSize) (bad : Bool) (s : State) (h : Prs v0 s) : Prs v0 (Machine.jrnDeliver who size bad s) := by
  unfold Machine.jrnDeliver
  repeat' first
    | dsimp only
    | with_reducible assumption
    | intro _
    | with_reducible apply Prs.emit
    | with_reducible apply Prs.jrnOpen
    | with_reducible apply Prs.modJrn
    | with_reducible refine Prs.ite ?_ ?_
    | split

theorem Prs.jrnServe {v0 : Tbl Peer × BitVec 2 × BitVec 2 × BitVec 2 × CrsCnt × Nat × Bytes}  (x : List (Who × AccSize)) (s : State) (h : Prs v0 s) : Prs v0 (Machine.jrnServe x s) := by
  induction x generalizing s with
  | nil => exact h
  | cons a l ih =>
    try obtain ⟨_, _⟩ := a
    unfold Machine.jrnServe
    repeat' first
      | dsimp only
      | with_reducible assumption
      | intro _
      | with_reducible apply Prs.jrnDeliver
      | with_reducible apply Prs.modJrn
      | with_reducible refine Prs.ite ?_ ?_
      | split
      | rfl
      | exact hes
      | with_reducible apply ih

theorem Prs.jrnStore {v0 : Tbl Peer × BitVec 2 × BitVec 2 × BitVec 2 × CrsCnt × Nat × Bytes} (rec : List (BitVec 32)) (s : State) (h : Prs v0 s) : Prs v0 (Machine.jrnStore rec s) := by
  unfold Machine.jrnStore
  repeat' first
    | dsimp only
    | with_reducible assumption
    | intro _
    | with_reducible apply Prs.jrnPush
    | with_reducible apply Prs.jrnServe
    | with_reducible apply Prs.notice

theorem Prs.journal {v0 : Tbl Peer × BitVec 2 × BitVec 2 × BitVec 2 × CrsCnt × Nat × Bytes} (type origin : Nat) (payload : List Nat) (s : State) (h : Prs v0 s) : Prs v0 (Machine.journal type origin payload s) := by
  unfold Machine.journal
  repeat' first
    | dsimp only
    | with_reducible assumption
    | intro _
    | with_reducible apply Prs.jrnLose
    | with_reducible apply Prs.jrnMakeRoom
    | with_reducible apply Prs.jrnStore
    | with_reducible apply Prs.modJrn
    | with_reducible refine Prs.ite ?_ ?_

theorem Prs.sendFrame {v0 : Tbl Peer × BitVec 2 × BitVec 2 × BitVec 2 × CrsCnt × Nat × Bytes} (type dst : Nat) (payload : Bytes) (s : State) (h : Prs v0 s) : Prs v0 (Machine.sendFrame type dst payload s) := by
  unfold Machine.sendFrame
  repeat' first
    | dsimp only
    | with_reducible assumption
    | intro _
    | with_reducible apply Prs.emit
    | with_reducible refine Prs.modCrs _ ?_ (by intro c; rfl)

theorem Prs.sendLong {v0 : Tbl Peer × BitVec 2 × BitVec 2 × BitVec 2 × CrsCnt × Nat × Bytes} (type dst : Nat) (payload : Bytes) (s : State) (h : Prs v0 s) : Prs v0 (Machine.sendLong type dst payload s) := by
  unfold Machine.sendLong
  repeat' first
    | dsimp only
    | with_reducible assumption
    | intro _
    | with_reducible apply Prs.sendFrame
    | with_reducible apply Prs.foldl

theorem Prs.storeBlock {v0 : Tbl Peer × BitVec 2 × BitVec 2 × BitVec 2 × CrsCnt × Nat × Bytes} (k lo hi : Nat) (s : State) (h : Prs v0 s) : Prs v0 (Machine.storeBlock k lo hi s) := by
  unfold Machine.storeBlock
  repeat' first
    | dsimp only
    | with_reducible assumption
    | intro _
    | with_reducible refine Prs.modCrs _ ?_ (by intro c; rfl)

theorem Prs.crsRecord {v0 : Tbl Peer × BitVec 2 × BitVec 2 × BitVec 2 × CrsCnt × Nat × Bytes} (type : Nat) (payload : List Nat) (s : State) (h : Prs v0 s) : Prs v0 (Machine.crsRecord type payload s) := by
  unfold Machine.crsRecord
  repeat' first
    | dsimp only
    | with_reducible assumption
    | intro _
    | with_reducible apply Prs.journal

theorem Prs.grantBlock {v0 : Tbl Peer × BitVec 2 × BitVec 2 × BitVec 2 × CrsCnt × Nat × Bytes} (dest k : Nat) (s : State) (h : Prs v0 s) : Prs v0 (Machine.grantBlock dest k s) := by
  unfold Machine.grantBlock
  repeat' first
    | dsimp only
    | with_reducible assumption
    | intro _
    | with_reducible apply Prs.crsRecord
    | with_reducible apply Prs.journal
    | with_reducible apply Prs.modSlot
    | with_reducible apply Prs.raiseT
    | with_reducible apply Prs.sendFrame
    | with_reducible apply Prs.storeBlock
    | with_reducible refine Prs.ite ?_ ?_
    | split

theorem Prs.beginGrant {v0 : Tbl Peer × BitVec 2 × BitVec 2 × BitVec 2 × CrsCnt × Nat × Bytes} (dest k : Nat) (s : State) (h : Prs v0 s) : Prs v0 (Machine.beginGrant dest k s) := by
  unfold Machine.beginGrant
  repeat' first
    | dsimp only
    | with_reducible assumption
    | intro _
    | with_reducible apply Prs.eachN
    | with_reducible apply Prs.grantBlock
    | with_reducible refine Prs.modCrs _ ?_ (by intro c; rfl)
    | with_reducible apply Prs.sendFrame
    | with_reducible refine Prs.ite ?_ ?_

theorem Prs.askBlock {v0 : Tbl Peer × BitVec 2 × BitVec 2 × BitVec 2 × CrsCnt × Nat × Bytes} (k : Nat) (s : State) (h : Prs v0 s) : Prs v0 (Machine.askBlock k s) := by
  unfold Machine.askBlock
  repeat' first
    | dsimp only
    | with_reducible assumption
    | intro _
    | with_reducible apply Prs.beginGrant
    | with_reducible refine Prs.modCrs _ ?_ (by intro c; rfl)
    | with_reducible apply Prs.sendFrame
    | with_reducible refine Prs.ite ?_ ?_

theorem Prs.crsState {v0 : Tbl Peer × BitVec 2 × BitVec 2 × BitVec 2 × CrsCnt × Nat × Bytes} (before after cause : Nat) (s : State) (h : Prs v0 s) : Prs v0 (Machine.crsState before after cause s) := by
  unfold Machine.crsState
  repeat' first
    | dsimp only
    | with_reducible assumption
    | intro _
    | with_reducible apply Prs.crsRecord
    | with_reducible apply Prs.raiseG

theorem Prs.reAsk {v0 : Tbl Peer × BitVec 2 × BitVec 2 × BitVec 2 × CrsCnt × Nat × Bytes} (s : State) (h : Prs v0 s) : Prs v0 (Machine.reAsk s) := by
  unfold Machine.reAsk
  repeat' first
    | dsimp only
    | with_reducible assumption
    | intro _
    | with_reducible apply Prs.askBlock
    | with_reducible refine Prs.modCrs _ ?_ (by intro c; rfl)
    | with_reducible apply Prs.foldl

theorem Prs.finishGrant {v0 : Tbl Peer × BitVec 2 × BitVec 2 × BitVec 2 × CrsCnt × Nat × Bytes} (k : Nat) (s : State) (h : Prs v0 s) : Prs v0 (Machine.finishGrant k s) := by
  unfold Machine.finishGrant
  repeat' first
    | dsimp only
    | with_reducible assumption
    | intro _
    | with_reducible apply Prs.beginGrant
    | with_reducible apply Prs.grantBlock
    | with_reducible refine Prs.modCrs _ ?_ (by intro c; rfl)
    | with_reducible apply Prs.foldl
    | with_reducible refine Prs.ite ?_ ?_
    | split

theorem Prs.acknowledged {v0 : Tbl Peer × BitVec 2 × BitVec 2 × BitVec 2 × CrsCnt × Nat × Bytes} (p k : Nat) (s : State) (h : Prs v0 s) : Prs v0 (Machine.acknowledged p k s) := by
  unfold Machine.acknowledged
  repeat' first
    | dsimp only
    | with_reducible assumption
    | intro _
    | with_reducible apply Prs.finishGrant
    | with_reducible refine Prs.modCrs _ ?_ (by intro c; rfl)
    | with_reducible refine Prs.ite ?_ ?_
    | split

theorem Prs.withoutAcks {v0 : Tbl Peer × BitVec 2 × BitVec 2 × BitVec 2 × CrsCnt × Nat × Bytes} (p : Nat) (s0 s : State) (h : Prs v0 s) : Prs v0 (Machine.withoutAcks p s0 s) := by
  unfold Machine.withoutAcks
  repeat' first
    | dsimp only
    | with_reducible assumption
    | intro _
    | with_reducible apply Prs.acknowledged
    | with_reducible apply Prs.foldl

end Sys2Proof.Machine
end

