-- ==== Sys2Proof/Laws/InForming.lean ====
section
/-!
SUPPORT. The role, the master, the lanes and the epoch of the course, and what HELLO said of a position, stay through the steps of a formation.
-/

set_option Elab.async false

namespace Sys2Proof.Machine

/-- The role, the master, the lanes, the epoch, and the nonce and role that position p sent. -/
def Crl (p : Nat) (v : BitVec 2 × BitVec 2 × Bool × BitVec 2 × Nat × Bytes × Nat) (s : State) : Prop :=
  (s.crs.role, s.crs.master, s.crs.heard, s.crs.laneUp, s.crs.forming, (s.peer p).nonce, (s.peer p).role) = v

theorem Crl.modTen {p0 : Nat} {v0 : BitVec 2 × BitVec 2 × Bool × BitVec 2 × Nat × Bytes × Nat} (n : Nat) (f : Tenant → Tenant) (s : State) (hs : Crl p0 v0 s) : Crl p0 v0 (Machine.modTen n f s) := hs
theorem Crl.modSq {p0 : Nat} {v0 : BitVec 2 × BitVec 2 × Bool × BitVec 2 × Nat × Bytes × Nat} (n m : Nat) (f : Sq → Sq) (s : State) (hs : Crl p0 v0 s) : Crl p0 v0 (Machine.modSq n m f s) := hs
theorem Crl.modCq {p0 : Nat} {v0 : BitVec 2 × BitVec 2 × Bool × BitVec 2 × Nat × Bytes × Nat} (n m : Nat) (f : Cq → Cq) (s : State) (hs : Crl p0 v0 s) : Crl p0 v0 (Machine.modCq n m f s) := hs
theorem Crl.modDc {p0 : Nat} {v0 : BitVec 2 × BitVec 2 × Bool × BitVec 2 × Nat × Bytes × Nat} (k : Nat) (f : Chan → Chan) (s : State) (hs : Crl p0 v0 s) : Crl p0 v0 (Machine.modDc k f s) := hs
theorem Crl.modTile {p0 : Nat} {v0 : BitVec 2 × BitVec 2 × Bool × BitVec 2 × Nat × Bytes × Nat} (t : Nat) (f : Tile → Tile) (s : State) (hs : Crl p0 v0 s) : Crl p0 v0 (Machine.modTile t f s) := hs
theorem Crl.setCs {p0 : Nat} {v0 : BitVec 2 × BitVec 2 × Bool × BitVec 2 × Nat × Bytes × Nat} (c : Nat) (v : CsSt) (s : State) (hs : Crl p0 v0 s) : Crl p0 v0 (Machine.setCs c v s) := hs
theorem Crl.modKs {p0 : Nat} {v0 : BitVec 2 × BitVec 2 × Bool × BitVec 2 × Nat × Bytes × Nat} (f : KeyStore → KeyStore) (s : State) (hs : Crl p0 v0 s) : Crl p0 v0 (Machine.modKs f s) := hs
theorem Crl.modSlot {p0 : Nat} {v0 : BitVec 2 × BitVec 2 × Bool × BitVec 2 × Nat × Bytes × Nat} (i : Nat) (f : Slot → Slot) (s : State) (hs : Crl p0 v0 s) : Crl p0 v0 (Machine.modSlot i f s) := hs
theorem Crl.modRbg {p0 : Nat} {v0 : BitVec 2 × BitVec 2 × Bool × BitVec 2 × Nat × Bytes × Nat} (k : Nat) (f : Rbg → Rbg) (s : State) (hs : Crl p0 v0 s) : Crl p0 v0 (Machine.modRbg k f s) := hs
theorem Crl.setStream {p0 : Nat} {v0 : BitVec 2 × BitVec 2 × Bool × BitVec 2 × Nat × Bytes × Nat} (i : Nat) (v : Option Stream) (s : State) (hs : Crl p0 v0 s) : Crl p0 v0 (Machine.setStream i v s) := hs
theorem Crl.setCacheEnt {p0 : Nat} {v0 : BitVec 2 × BitVec 2 × Bool × BitVec 2 × Nat × Bytes × Nat} (h : Nat) (v : Option CacheEnt) (s : State) (hs : Crl p0 v0 s) : Crl p0 v0 (Machine.setCacheEnt h v s) := hs
theorem Crl.modCrs {p0 : Nat} {v0 : BitVec 2 × BitVec 2 × Bool × BitVec 2 × Nat × Bytes × Nat} {s : State} (f : Course → Course) (h : Crl p0 v0 s)
    (hf : ∀ c, ((f c).role, (f c).master, (f c).heard, (f c).laneUp, (f c).forming, (f c).peers) = (c.role, c.master, c.heard, c.laneUp, c.forming, c.peers)) : Crl p0 v0 (Machine.modCrs f s) := by
  have e := hf s.crs
  simp only [Prod.mk.injEq] at e
  obtain ⟨e1, e2, e3, e4, e5, e6⟩ := e
  unfold Crl State.peer at *
  rw [modCrs_crs, e1, e2, e3, e4, e5, e6]; exact h
theorem Crl.modPeer {p0 : Nat} {v0 : BitVec 2 × BitVec 2 × Bool × BitVec 2 × Nat × Bytes × Nat} {s : State} (p : Nat) (f : Peer → Peer) (h : Crl p0 v0 s)
    (hf : ∀ q, (f q).nonce = q.nonce ∧ (f q).role = q.role) : Crl p0 v0 (Machine.modPeer p f s) := by
  have e : (Machine.modPeer p f s).crs.role = s.crs.role ∧ (Machine.modPeer p f s).crs.master = s.crs.master ∧ (Machine.modPeer p f s).crs.heard = s.crs.heard ∧
    (Machine.modPeer p f s).crs.laneUp = s.crs.laneUp ∧ (Machine.modPeer p f s).crs.forming = s.crs.forming := ⟨rfl, rfl, rfl, rfl, rfl⟩
  unfold Crl at *
  rw [e.1, e.2.1, e.2.2.1, e.2.2.2.1, e.2.2.2.2]
  by_cases hk : p0 = p
  · subst hk; rw [modPeer_peer_same, (hf _).1, (hf _).2]; exact h
  · rw [modPeer_peer_ne _ _ hk]; exact h
theorem Crl.modOwn {p0 : Nat} {v0 : BitVec 2 × BitVec 2 × Bool × BitVec 2 × Nat × Bytes × Nat} (f : OwnRegs → OwnRegs) (s : State) (hs : Crl p0 v0 s) : Crl p0 v0 (Machine.modOwn f s) := hs
theorem Crl.modTcmp {p0 : Nat} {v0 : BitVec 2 × BitVec 2 × Bool × BitVec 2 × Nat × Bytes × Nat} (j : Nat) (f : Tcmp → Tcmp) (s : State) (hs : Crl p0 v0 s) : Crl p0 v0 (Machine.modTcmp j f s) := hs
theorem Crl.modGen {p0 : Nat} {v0 : BitVec 2 × BitVec 2 × Bool × BitVec 2 × Nat × Bytes × Nat} (f : Gen → Gen) (s : State) (hs : Crl p0 v0 s) : Crl p0 v0 (Machine.modGen f s) := hs
theorem Crl.modJrn {p0 : Nat} {v0 : BitVec 2 × BitVec 2 × Bool × BitVec 2 × Nat × Bytes × Nat} (f : Journal → Journal) (s : State) (hs : Crl p0 v0 s) : Crl p0 v0 (Machine.modJrn f s) := hs
theorem Crl.modTime {p0 : Nat} {v0 : BitVec 2 × BitVec 2 × Bool × BitVec 2 × Nat × Bytes × Nat} (f : TimeUnit → TimeUnit) (s : State) (hs : Crl p0 v0 s) : Crl p0 v0 (Machine.modTime f s) := hs
theorem Crl.modClk {p0 : Nat} {v0 : BitVec 2 × BitVec 2 × Bool × BitVec 2 × Nat × Bytes × Nat} (f : Clocks → Clocks) (s : State) (hs : Crl p0 v0 s) : Crl p0 v0 (Machine.modClk f s) := hs
theorem Crl.modStart {p0 : Nat} {v0 : BitVec 2 × BitVec 2 × Bool × BitVec 2 × Nat × Bytes × Nat} (f : Start → Start) (s : State) (hs : Crl p0 v0 s) : Crl p0 v0 (Machine.modStart f s) := hs
theorem Crl.modOwner {p0 : Nat} {v0 : BitVec 2 × BitVec 2 × Bool × BitVec 2 × Nat × Bytes × Nat} (f : Owner → Owner) (s : State) (hs : Crl p0 v0 s) : Crl p0 v0 (Machine.modOwner f s) := hs
theorem Crl.modMeas {p0 : Nat} {v0 : BitVec 2 × BitVec 2 × Bool × BitVec 2 × Nat × Bytes × Nat} (f : Meas → Meas) (s : State) (hs : Crl p0 v0 s) : Crl p0 v0 (Machine.modMeas f s) := hs
theorem Crl.modEs {p0 : Nat} {v0 : BitVec 2 × BitVec 2 × Bool × BitVec 2 × Nat × Bytes × Nat} (f : Entropy → Entropy) (s : State) (hs : Crl p0 v0 s) : Crl p0 v0 (Machine.modEs f s) := hs
theorem Crl.modBoot {p0 : Nat} {v0 : BitVec 2 × BitVec 2 × Bool × BitVec 2 × Nat × Bytes × Nat} (f : Boot → Boot) (s : State) (hs : Crl p0 v0 s) : Crl p0 v0 (Machine.modBoot f s) := hs
theorem Crl.modFp {p0 : Nat} {v0 : BitVec 2 × BitVec 2 × Bool × BitVec 2 × Nat × Bytes × Nat} (f : FramePort → FramePort) (s : State) (hs : Crl p0 v0 s) : Crl p0 v0 (Machine.modFp f s) := hs
theorem Crl.modSup {p0 : Nat} {v0 : BitVec 2 × BitVec 2 × Bool × BitVec 2 × Nat × Bytes × Nat} (f : Supply → Supply) (s : State) (hs : Crl p0 v0 s) : Crl p0 v0 (Machine.modSup f s) := hs
theorem Crl.modSch {p0 : Nat} {v0 : BitVec 2 × BitVec 2 × Bool × BitVec 2 × Nat × Bytes × Nat} (f : Sched → Sched) (s : State) (hs : Crl p0 v0 s) : Crl p0 v0 (Machine.modSch f s) := hs
theorem Crl.modReq {p0 : Nat} {v0 : BitVec 2 × BitVec 2 × Bool × BitVec 2 × Nat × Bytes × Nat} (id : Nat) (f : Req → Req) (s : State) (hs : Crl p0 v0 s) : Crl p0 v0 (Machine.modReq id f s) := hs
theorem Crl.dropReq {p0 : Nat} {v0 : BitVec 2 × BitVec 2 × Bool × BitVec 2 × Nat × Bytes × Nat} (id : Nat) (s : State) (hs : Crl p0 v0 s) : Crl p0 v0 (Machine.dropReq id s) := hs
theorem Crl.emit {p0 : Nat} {v0 : BitVec 2 × BitVec 2 × Bool × BitVec 2 × Nat × Bytes × Nat} (o : Out) (s : State) (hs : Crl p0 v0 s) : Crl p0 v0 (Machine.emit o s) := hs
theorem Crl.nextFree {p0 : Nat} {v0 : BitVec 2 × BitVec 2 × Bool × BitVec 2 × Nat × Bytes × Nat} (s : State) (hs : Crl p0 v0 s) : Crl p0 v0 (Machine.nextFree s) := hs
theorem Crl.modRoots {p0 : Nat} {v0 : BitVec 2 × BitVec 2 × Bool × BitVec 2 × Nat × Bytes × Nat} (f : Roots → Roots) (s : State) (hs : Crl p0 v0 s) : Crl p0 v0 (Machine.modRoots f s) := hs
theorem Crl.modIdent {p0 : Nat} {v0 : BitVec 2 × BitVec 2 × Bool × BitVec 2 × Nat × Bytes × Nat} (f : Ident → Ident) (s : State) (hs : Crl p0 v0 s) : Crl p0 v0 (Machine.modIdent f s) := hs
theorem Crl.modRet {p0 : Nat} {v0 : BitVec 2 × BitVec 2 × Bool × BitVec 2 × Nat × Bytes × Nat} (f : Retention → Retention) (s : State) (hs : Crl p0 v0 s) : Crl p0 v0 (Machine.modRet f s) := hs
theorem Crl.modDenied {p0 : Nat} {v0 : BitVec 2 × BitVec 2 × Bool × BitVec 2 × Nat × Bytes × Nat} (f : Cnt32 → Cnt32) (s : State) (hs : Crl p0 v0 s) : Crl p0 v0 (Machine.modDenied f s) := hs
theorem Crl.modEvPend {p0 : Nat} {v0 : BitVec 2 × BitVec 2 × Bool × BitVec 2 × Nat × Bytes × Nat} (f : Word → Word) (s : State) (hs : Crl p0 v0 s) : Crl p0 v0 (Machine.modEvPend f s) := hs
theorem Crl.modBuserr {p0 : Nat} {v0 : BitVec 2 × BitVec 2 × Bool × BitVec 2 × Nat × Bytes × Nat} (f : Capture → Capture) (s : State) (hs : Crl p0 v0 s) : Crl p0 v0 (Machine.modBuserr f s) := hs
theorem Crl.modBecnt {p0 : Nat} {v0 : BitVec 2 × BitVec 2 × Bool × BitVec 2 × Nat × Bytes × Nat} (f : Cnt32 → Cnt32) (s : State) (hs : Crl p0 v0 s) : Crl p0 v0 (Machine.modBecnt f s) := hs
theorem Crl.modPviol {p0 : Nat} {v0 : BitVec 2 × BitVec 2 × Bool × BitVec 2 × Nat × Bytes × Nat} (f : Capture → Capture) (s : State) (hs : Crl p0 v0 s) : Crl p0 v0 (Machine.modPviol f s) := hs
theorem Crl.modPvcnt {p0 : Nat} {v0 : BitVec 2 × BitVec 2 × Bool × BitVec 2 × Nat × Bytes × Nat} (f : Cnt32 → Cnt32) (s : State) (hs : Crl p0 v0 s) : Crl p0 v0 (Machine.modPvcnt f s) := hs
theorem Crl.modSent {p0 : Nat} {v0 : BitVec 2 × BitVec 2 × Bool × BitVec 2 × Nat × Bytes × Nat} (f : List Req → List Req) (s : State) (hs : Crl p0 v0 s) : Crl p0 v0 (Machine.modSent f s) := hs
theorem Crl.modReqs {p0 : Nat} {v0 : BitVec 2 × BitVec 2 × Bool × BitVec 2 × Nat × Bytes × Nat} (f : List Req → List Req) (s : State) (hs : Crl p0 v0 s) : Crl p0 v0 (Machine.modReqs f s) := hs
theorem Crl.modHeld {p0 : Nat} {v0 : BitVec 2 × BitVec 2 × Bool × BitVec 2 × Nat × Bytes × Nat} (f : List HeldWrite → List HeldWrite) (s : State) (hs : Crl p0 v0 s) : Crl p0 v0 (Machine.modHeld f s) := hs
theorem Crl.modLatch {p0 : Nat} {v0 : BitVec 2 × BitVec 2 × Bool × BitVec 2 × Nat × Bytes × Nat} (f : List Latch → List Latch) (s : State) (hs : Crl p0 v0 s) : Crl p0 v0 (Machine.modLatch f s) := hs
theorem Crl.modCe {p0 : Nat} {v0 : BitVec 2 × BitVec 2 × Bool × BitVec 2 × Nat × Bytes × Nat} (c : Nat) (f : Cnt32 → Cnt32) (s : State) (hs : Crl p0 v0 s) : Crl p0 v0 (Machine.modCe c f s) := hs
theorem Crl.modNotice {p0 : Nat} {v0 : BitVec 2 × BitVec 2 × Bool × BitVec 2 × Nat × Bytes × Nat} (f : Word → Word) (s : State) (hs : Crl p0 v0 s) : Crl p0 v0 (Machine.modNotice f s) := hs
theorem Crl.setAct {p0 : Nat} {v0 : BitVec 2 × BitVec 2 × Bool × BitVec 2 × Nat × Bytes × Nat} (c : Content) (s : State) (hs : Crl p0 v0 s) : Crl p0 v0 (Machine.setAct c s) := hs

theorem Crl.foldl {p0 : Nat} {v0 : BitVec 2 × BitVec 2 × Bool × BitVec 2 × Nat × Bytes × Nat} {s : State} {α : Type} {f : State → α → State} (l : List α) (h : Crl p0 v0 s) (hf : ∀ s a, Crl p0 v0 s → Crl p0 v0 (f s a)) :
    Crl p0 v0 (l.foldl f s) := by
  induction l generalizing s with
  | nil => exact h
  | cons a t ih => exact ih (hf s a h)
theorem Crl.eachN {p0 : Nat} {v0 : BitVec 2 × BitVec 2 × Bool × BitVec 2 × Nat × Bytes × Nat} {s : State} {f : Nat → State → State} (l : List Nat) (h : Crl p0 v0 s) (hf : ∀ i s, Crl p0 v0 s → Crl p0 v0 (f i s)) : Crl p0 v0 (Machine.eachN l f s) :=
  Crl.foldl l h (fun s i hs => hf i s hs)
theorem Crl.ite {p0 : Nat} {v0 : BitVec 2 × BitVec 2 × Bool × BitVec 2 × Nat × Bytes × Nat} {c : Prop} [Decidable c] {a b : State} (ha : c → Crl p0 v0 a) (hb : ¬c → Crl p0 v0 b) : Crl p0 v0 (if c then a else b) := by
  by_cases h : c
  · rw [if_pos h]; exact ha h
  · rw [if_neg h]; exact hb h
theorem Crl.idS {p0 : Nat} {v0 : BitVec 2 × BitVec 2 × Bool × BitVec 2 × Nat × Bytes × Nat} {s : State} (h : Crl p0 v0 s) : Crl p0 v0 (id s) := h
theorem Crl.whenS {p0 : Nat} {v0 : BitVec 2 × BitVec 2 × Bool × BitVec 2 × Nat × Bytes × Nat} {b : Bool} {f : State → State} {s : State} (h : Crl p0 v0 s) (hf : b = true → ∀ s, Crl p0 v0 s → Crl p0 v0 (f s)) : Crl p0 v0 (Machine.whenS b f s) := by
  unfold Machine.whenS
  split
  · next e => exact hf e s h
  · exact h
theorem Crl.withReq {p0 : Nat} {v0 : BitVec 2 × BitVec 2 × Bool × BitVec 2 × Nat × Bytes × Nat} {id : Nat} {f : Req → State → State} {s : State} (h : Crl p0 v0 s) (hf : ∀ r s, Crl p0 v0 s → Crl p0 v0 (f r s)) : Crl p0 v0 (Machine.withReq id f s) := by
  unfold Machine.withReq
  split
  · exact hf _ s h
  · exact h

theorem Crl.emitWr {p0 : Nat} {v0 : BitVec 2 × BitVec 2 × Bool × BitVec 2 × Nat × Bytes × Nat} (addr : Nat) (data : Bytes) (s : State) (h : Crl p0 v0 s) : Crl p0 v0 (Machine.emitWr addr data s) := by
  unfold Machine.emitWr
  repeat' first
    | dsimp only
    | with_reducible assumption
    | intro _
    | with_reducible apply Crl.emit
    | with_reducible apply Crl.foldl

theorem Crl.emitRecord {p0 : Nat} {v0 : BitVec 2 × BitVec 2 × Bool × BitVec 2 × Nat × Bytes × Nat} (addr : Nat) (b : Bytes) (s : State) (h : Crl p0 v0 s) : Crl p0 v0 (Machine.emitRecord addr b s) := by
  unfold Machine.emitRecord
  repeat' first
    | dsimp only
    | with_reducible assumption
    | intro _
    | with_reducible apply Crl.emitWr

theorem Crl.raiseG {p0 : Nat} {v0 : BitVec 2 × BitVec 2 × Bool × BitVec 2 × Nat × Bytes × Nat} (e : Nat) (s : State) (h : Crl p0 v0 s) : Crl p0 v0 (Machine.raiseG e s) := by
  unfold Machine.raiseG
  repeat' first
    | dsimp only
    | with_reducible assumption
    | intro _
    | with_reducible apply Crl.modEvPend

theorem Crl.violP {p0 : Nat} {v0 : BitVec 2 × BitVec 2 × Bool × BitVec 2 × Nat × Bytes × Nat} (addr : Nat) (d : Dir) (cause kind number tag gen : Nat) (s : State) (h : Crl p0 v0 s) : Crl p0 v0 (Machine.violP addr d cause kind number tag gen s) := by
  unfold Machine.violP
  repeat' first
    | dsimp only
    | with_reducible assumption
    | intro _
    | with_reducible apply Crl.modPvcnt
    | with_reducible apply Crl.modPviol
    | with_reducible apply Crl.raiseG
    | with_reducible refine Crl.ite ?_ ?_

theorem Crl.jrnLose {p0 : Nat} {v0 : BitVec 2 × BitVec 2 × Bool × BitVec 2 × Nat × Bytes × Nat} (s : State) (h : Crl p0 v0 s) : Crl p0 v0 (Machine.jrnLose s) := by
  unfold Machine.jrnLose
  repeat' first
    | dsimp only
    | with_reducible assumption
    | intro _
    | with_reducible apply Crl.modJrn
    | with_reducible apply Crl.raiseG

theorem Crl.jrnNlose {p0 : Nat} {v0 : BitVec 2 × BitVec 2 × Bool × BitVec 2 × Nat × Bytes × Nat} (s : State) (h : Crl p0 v0 s) : Crl p0 v0 (Machine.jrnNlose s) := by
  unfold Machine.jrnNlose
  repeat' first
    | dsimp only
    | with_reducible assumption
    | intro _
    | with_reducible apply Crl.modJrn

theorem Crl.jrnPush {p0 : Nat} {v0 : BitVec 2 × BitVec 2 × Bool × BitVec 2 × Nat × Bytes × Nat} (rec : List (BitVec 32)) (s : State) (h : Crl p0 v0 s) : Crl p0 v0 (Machine.jrnPush rec s) := by
  unfold Machine.jrnPush
  repeat' first
    | dsimp only
    | with_reducible assumption
    | intro _
    | with_reducible apply Crl.modJrn
    | with_reducible apply Crl.raiseG
    | with_reducible refine Crl.ite ?_ ?_

theorem Crl.jrnMakeRoom {p0 : Nat} {v0 : BitVec 2 × BitVec 2 × Bool × BitVec 2 × Nat × Bytes × Nat} (need : Nat) (x : Nat) (s : State) (h : Crl p0 v0 s) : Crl p0 v0 (Machine.jrnMakeRoom need x s) := by
  induction x generalizing s with
  | zero => exact h
  | succ n ih =>
    unfold Machine.jrnMakeRoom
    repeat' first
      | dsimp only
      | with_reducible assumption
      | intro _
      | with_reducible apply Crl.jrnLose
      | with_reducible apply Crl.modJrn
      | with_reducible refine Crl.ite ?_ ?_
      | split
      | rfl
      | exact hes
      | (simp_all; done)
      | with_reducible apply ih

theorem Crl.noticeFault {p0 : Nat} {v0 : BitVec 2 × BitVec 2 × Bool × BitVec 2 × Nat × Bytes × Nat} (s : State) (h : Crl p0 v0 s) : Crl p0 v0 (Machine.noticeFault s) := by
  unfold Machine.noticeFault
  repeat' first
    | dsimp only
    | with_reducible assumption
    | intro _
    | with_reducible apply Crl.modNotice
    | with_reducible apply Crl.raiseG

theorem Crl.notice {p0 : Nat} {v0 : BitVec 2 × BitVec 2 × Bool × BitVec 2 × Nat × Bytes × Nat} (rec : List (BitVec 32)) (s : State) (h : Crl p0 v0 s) : Crl p0 v0 (Machine.notice rec s) := by
  unfold Machine.notice
  repeat' first
    | dsimp only
    | with_reducible assumption
    | intro _
    | with_reducible apply Crl.emitRecord
    | with_reducible apply Crl.jrnNlose
    | with_reducible apply Crl.modJrn
    | with_reducible apply Crl.noticeFault
    | with_reducible apply Crl.violP
    | with_reducible refine Crl.ite ?_ ?_
    | split

theorem Crl.jrnOpen {p0 : Nat} {v0 : BitVec 2 × BitVec 2 × Bool × BitVec 2 × Nat × Bytes × Nat} (bad : Bool) (s : State) (h : Crl p0 v0 s) : Crl p0 v0 (Machine.jrnOpen bad s) := by
  unfold Machine.jrnOpen
  repeat' first
    | dsimp only
    | with_reducible assumption
    | intro _
    | with_reducible apply Crl.modJrn
    | with_reducible refine Crl.ite ?_ ?_
    | split

theorem Crl.jrnDeliver {p0 : Nat} {v0 : BitVec 2 × BitVec 2 × Bool × BitVec 2 × Nat × Bytes × Nat} (who : Who) (size : AccSize) (bad : Bool) (s : State) (h : Crl p0 v0 s) : Crl p0 v0 (Machine.jrnDeliver who size bad s) := by
  unfold Machine.jrnDeliver
  repeat' first
    | dsimp only
    | with_reducible assumption
    | intro _
    | with_reducible apply Crl.emit
    | with_reducible apply Crl.jrnOpen
    | with_reducible apply Crl.modJrn
    | with_reducible refine Crl.ite ?_ ?_
    | split

theorem Crl.jrnServe {p0 : Nat} {v0 : BitVec 2 × BitVec 2 × Bool × BitVec 2 × Nat × Bytes × Nat}  (x : List (Who × AccSize)) (s : State) (h : Crl p0 v0 s) : Crl p0 v0 (Machine.jrnServe x s) := by
  induction x generalizing s with
  | nil => exact h
  | cons a l ih =>
    try obtain ⟨_, _⟩ := a
    unfold Machine.jrnServe
    repeat' first
      | dsimp only
      | with_reducible assumption
      | intro _
      | with_reducible apply Crl.jrnDeliver
      | with_reducible apply Crl.modJrn
      | with_reducible refine Crl.ite ?_ ?_
      | split
      | rfl
      | exact hes
      | with_reducible apply ih

theorem Crl.jrnStore {p0 : Nat} {v0 : BitVec 2 × BitVec 2 × Bool × BitVec 2 × Nat × Bytes × Nat} (rec : List (BitVec 32)) (s : State) (h : Crl p0 v0 s) : Crl p0 v0 (Machine.jrnStore rec s) := by
  unfold Machine.jrnStore
  repeat' first
    | dsimp only
    | with_reducible assumption
    | intro _
    | with_reducible apply Crl.jrnPush
    | with_reducible apply Crl.jrnServe
    | with_reducible apply Crl.notice

theorem Crl.journal {p0 : Nat} {v0 : BitVec 2 × BitVec 2 × Bool × BitVec 2 × Nat × Bytes × Nat} (type origin : Nat) (payload : List Nat) (s : State) (h : Crl p0 v0 s) : Crl p0 v0 (Machine.journal type origin payload s) := by
  unfold Machine.journal
  repeat' first
    | dsimp only
    | with_reducible assumption
    | intro _
    | with_reducible apply Crl.jrnLose
    | with_reducible apply Crl.jrnMakeRoom
    | with_reducible apply Crl.jrnStore
    | with_reducible apply Crl.modJrn
    | with_reducible refine Crl.ite ?_ ?_

theorem Crl.countCe {p0 : Nat} {v0 : BitVec 2 × BitVec 2 × Bool × BitVec 2 × Nat × Bytes × Nat} (c : Nat) (s : State) (h : Crl p0 v0 s) : Crl p0 v0 (Machine.countCe c s) := by
  unfold Machine.countCe
  repeat' first
    | dsimp only
    | with_reducible assumption
    | intro _
    | with_reducible apply Crl.modCe
    | with_reducible apply Crl.raiseG
    | with_reducible refine Crl.ite ?_ ?_
    | split

theorem Crl.journalUe {p0 : Nat} {v0 : BitVec 2 × BitVec 2 × Bool × BitVec 2 × Nat × Bytes × Nat} (c loc : Nat) (s : State) (h : Crl p0 v0 s) : Crl p0 v0 (Machine.journalUe c loc s) := by
  unfold Machine.journalUe
  repeat' first
    | dsimp only
    | with_reducible assumption
    | intro _
    | with_reducible apply Crl.journal
    | with_reducible refine Crl.ite ?_ ?_
    | split

theorem Crl.sendFrame {p0 : Nat} {v0 : BitVec 2 × BitVec 2 × Bool × BitVec 2 × Nat × Bytes × Nat} (type dst : Nat) (payload : Bytes) (s : State) (h : Crl p0 v0 s) : Crl p0 v0 (Machine.sendFrame type dst payload s) := by
  unfold Machine.sendFrame
  repeat' first
    | dsimp only
    | with_reducible assumption
    | intro _
    | with_reducible apply Crl.emit
    | with_reducible refine Crl.modCrs _ ?_ (by intro c; rfl)

theorem Crl.sendLong {p0 : Nat} {v0 : BitVec 2 × BitVec 2 × Bool × BitVec 2 × Nat × Bytes × Nat} (type dst : Nat) (payload : Bytes) (s : State) (h : Crl p0 v0 s) : Crl p0 v0 (Machine.sendLong type dst payload s) := by
  unfold Machine.sendLong
  repeat' first
    | dsimp only
    | with_reducible assumption
    | intro _
    | with_reducible apply Crl.sendFrame
    | with_reducible apply Crl.foldl

theorem Crl.crsRecord {p0 : Nat} {v0 : BitVec 2 × BitVec 2 × Bool × BitVec 2 × Nat × Bytes × Nat} (type : Nat) (payload : List Nat) (s : State) (h : Crl p0 v0 s) : Crl p0 v0 (Machine.crsRecord type payload s) := by
  unfold Machine.crsRecord
  repeat' first
    | dsimp only
    | with_reducible assumption
    | intro _
    | with_reducible apply Crl.journal

theorem Crl.freeTiles {p0 : Nat} {v0 : BitVec 2 × BitVec 2 × Bool × BitVec 2 × Nat × Bytes × Nat} (id : Nat) (s : State) (h : Crl p0 v0 s) : Crl p0 v0 (Machine.freeTiles id s) := by
  unfold Machine.freeTiles
  repeat' first
    | dsimp only
    | with_reducible assumption
    | intro _
    | with_reducible apply Crl.eachN
    | with_reducible apply Crl.modTile
    | with_reducible refine Crl.ite ?_ ?_
    | split

theorem Crl.dropWork {p0 : Nat} {v0 : BitVec 2 × BitVec 2 × Bool × BitVec 2 × Nat × Bytes × Nat} (aim : Purpose) (s : State) (h : Crl p0 v0 s) : Crl p0 v0 (Machine.dropWork aim s) := by
  unfold Machine.dropWork
  repeat' first
    | dsimp only
    | with_reducible assumption
    | intro _
    | with_reducible apply Crl.foldl
    | with_reducible apply Crl.freeTiles
    | with_reducible apply Crl.modSch
    | with_reducible refine Crl.ite ?_ ?_
    | split

theorem Crl.esRecord {p0 : Nat} {v0 : BitVec 2 × BitVec 2 × Bool × BitVec 2 × Nat × Bytes × Nat} (unit cause : Nat) (s : State) (h : Crl p0 v0 s) : Crl p0 v0 (Machine.esRecord unit cause s) := by
  unfold Machine.esRecord
  repeat' first
    | dsimp only
    | with_reducible assumption
    | intro _
    | with_reducible apply Crl.journal

theorem Crl.rbgFail {p0 : Nat} {v0 : BitVec 2 × BitVec 2 × Bool × BitVec 2 × Nat × Bytes × Nat} (k cause : Nat) (s : State) (h : Crl p0 v0 s) : Crl p0 v0 (Machine.rbgFail k cause s) := by
  unfold Machine.rbgFail
  repeat' first
    | dsimp only
    | with_reducible assumption
    | intro _
    | with_reducible apply Crl.esRecord
    | with_reducible apply Crl.modRbg
    | with_reducible apply Crl.raiseG

theorem Crl.reseed {p0 : Nat} {v0 : BitVec 2 × BitVec 2 × Bool × BitVec 2 × Nat × Bytes × Nat} (k : Nat) (s : State) (h : Crl p0 v0 s) : Crl p0 v0 (Machine.reseed k s) := by
  unfold Machine.reseed
  repeat' first
    | dsimp only
    | with_reducible assumption
    | intro _
    | with_reducible apply Crl.modEs
    | with_reducible apply Crl.modRbg
    | with_reducible apply Crl.raiseG
    | with_reducible refine Crl.ite ?_ ?_
    | split

theorem Crl.readBlock {p0 : Nat} {v0 : BitVec 2 × BitVec 2 × Bool × BitVec 2 × Nat × Bytes × Nat} (ecc : Ecc) (s : State) (h : Crl p0 v0 s) : Crl p0 v0 (Machine.readBlock ecc s) := by
  unfold Machine.readBlock
  repeat' first
    | dsimp only
    | with_reducible assumption
    | intro _
    | with_reducible apply Crl.countCe
    | with_reducible apply Crl.journalUe
    | with_reducible apply Crl.modEs
    | with_reducible refine Crl.ite ?_ ?_
    | split

theorem Crl.reseedRead {p0 : Nat} {v0 : BitVec 2 × BitVec 2 × Bool × BitVec 2 × Nat × Bytes × Nat} (k : Nat) (s : State) (h : Crl p0 v0 s) : Crl p0 v0 (Machine.reseedRead k s) := by
  unfold Machine.reseedRead
  repeat' first
    | dsimp only
    | with_reducible assumption
    | intro _
    | with_reducible apply Crl.readBlock
    | with_reducible apply Crl.reseed
    | with_reducible refine Crl.ite ?_ ?_
    | split

theorem Crl.generateAdd {p0 : Nat} {v0 : BitVec 2 × BitVec 2 × Bool × BitVec 2 × Nat × Bytes × Nat} (pr : Bool) (n : Nat) (add : Bytes) (x : List Nat) (s : State) (h : Crl p0 v0 s) : Crl p0 v0 (Machine.generateAdd pr n add x s).2 := by
  induction x generalizing s with
  | nil => exact h
  | cons a l ih =>
    unfold Machine.generateAdd
    repeat' first
      | dsimp only
      | with_reducible assumption
      | intro _
      | with_reducible apply Crl.modRbg
      | with_reducible apply Crl.rbgFail
      | with_reducible apply Crl.reseedRead
      | with_reducible refine Crl.ite ?_ ?_
      | split
      | with_reducible apply ih

theorem Crl.generateAdd_eq {p0 : Nat} {v0 : BitVec 2 × BitVec 2 × Bool × BitVec 2 × Nat × Bytes × Nat} {pr : Bool} {n : Nat} {add : Bytes} {x : List Nat} {s : State} {y : Option Bytes} {t : State} (e : Machine.generateAdd pr n add x s = (y, t)) (h : Crl p0 v0 s) : Crl p0 v0 t := by
  have := Crl.generateAdd pr n add x s h
  rwa [e] at this

theorem Crl.generate {p0 : Nat} {v0 : BitVec 2 × BitVec 2 × Bool × BitVec 2 × Nat × Bytes × Nat} (n : Nat) (order : List Nat) (s : State) (h : Crl p0 v0 s) : Crl p0 v0 (Machine.generate n order s).2 := by
  unfold Machine.generate
  repeat' first
    | dsimp only
    | with_reducible assumption
    | intro _
    | with_reducible refine Crl.generateAdd_eq (by assumption) ?_
    | with_reducible apply Crl.generateAdd
    | with_reducible refine Crl.ite ?_ ?_
    | split
    | rfl
    | exact hes
    | (simp_all; done)

theorem Crl.generate_eq {p0 : Nat} {v0 : BitVec 2 × BitVec 2 × Bool × BitVec 2 × Nat × Bytes × Nat} {n : Nat} {order : List Nat} {s : State} {y : Option Bytes} {t : State} (e : Machine.generate n order s = (y, t)) (h : Crl p0 v0 s) : Crl p0 v0 t := by
  have := Crl.generate n order s h
  rwa [e] at this

theorem Crl.crsState {p0 : Nat} {v0 : BitVec 2 × BitVec 2 × Bool × BitVec 2 × Nat × Bytes × Nat} (before after cause : Nat) (s : State) (h : Crl p0 v0 s) : Crl p0 v0 (Machine.crsState before after cause s) := by
  unfold Machine.crsState
  repeat' first
    | dsimp only
    | with_reducible assumption
    | intro _
    | with_reducible apply Crl.crsRecord
    | with_reducible apply Crl.raiseG

theorem Crl.idlePair {p0 : Nat} {v0 : BitVec 2 × BitVec 2 × Bool × BitVec 2 × Nat × Bytes × Nat} (p : Nat) (s : State) (h : Crl p0 v0 s) : Crl p0 v0 (Machine.idlePair p s) := by
  unfold Machine.idlePair
  repeat' first
    | dsimp only
    | with_reducible assumption
    | intro _
    | with_reducible apply Crl.dropWork
    | with_reducible refine Crl.modPeer _ _ ?_ (by intro q; exact ⟨rfl, rfl⟩)
    | with_reducible refine Crl.ite ?_ ?_
    | split

theorem Crl.stopPairing {p0 : Nat} {v0 : BitVec 2 × BitVec 2 × Bool × BitVec 2 × Nat × Bytes × Nat} (p cause : Nat) (s : State) (h : Crl p0 v0 s) : Crl p0 v0 (Machine.stopPairing p cause s) := by
  unfold Machine.stopPairing
  repeat' first
    | dsimp only
    | with_reducible assumption
    | intro _
    | with_reducible apply Crl.idlePair
    | with_reducible refine Crl.modCrs _ ?_ (by intro c; rfl)
    | with_reducible refine Crl.ite ?_ ?_
    | split

theorem Crl.formationStops {p0 : Nat} {v0 : BitVec 2 × BitVec 2 × Bool × BitVec 2 × Nat × Bytes × Nat} (p : Nat) (s : State) (h : Crl p0 v0 s) : Crl p0 v0 (Machine.formationStops p s) := by
  unfold Machine.formationStops
  repeat' first
    | dsimp only
    | with_reducible assumption
    | intro _
    | with_reducible apply Crl.crsState
    | with_reducible apply Crl.stopPairing

theorem Crl.sayHello {p0 : Nat} {v0 : BitVec 2 × BitVec 2 × Bool × BitVec 2 × Nat × Bytes × Nat} (p : Nat) (s : State) (h : Crl p0 v0 s) : Crl p0 v0 (Machine.sayHello p s) := by
  unfold Machine.sayHello
  repeat' first
    | dsimp only
    | with_reducible assumption
    | intro _
    | with_reducible refine Crl.generate_eq (by assumption) ?_
    | with_reducible apply Crl.generate
    | with_reducible refine Crl.modPeer _ _ ?_ (by intro q; exact ⟨rfl, rfl⟩)
    | with_reducible apply Crl.sendFrame
    | with_reducible refine Crl.ite ?_ ?_
    | split

theorem Crl.courseStatement {p0 : Nat} {v0 : BitVec 2 × BitVec 2 × Bool × BitVec 2 × Nat × Bytes × Nat} (p : Nat) (out : Bytes) (s : State) (h : Crl p0 v0 s) : Crl p0 v0 (Machine.courseStatement p out s).2 := by
  unfold Machine.courseStatement
  repeat' first
    | dsimp only
    | with_reducible assumption
    | intro _
    | with_reducible refine Crl.generate_eq (by assumption) ?_
    | with_reducible apply Crl.generate
    | with_reducible refine Crl.ite ?_ ?_
    | split

theorem Crl.courseStatement_eq {p0 : Nat} {v0 : BitVec 2 × BitVec 2 × Bool × BitVec 2 × Nat × Bytes × Nat} {p : Nat} {out : Bytes} {s : State} {y : Option Bytes} {t : State} (e : Machine.courseStatement p out s = (y, t)) (h : Crl p0 v0 s) : Crl p0 v0 t := by
  have := Crl.courseStatement p out s h
  rwa [e] at this

theorem Crl.masterAgree {p0 : Nat} {v0 : BitVec 2 × BitVec 2 × Bool × BitVec 2 × Nat × Bytes × Nat} (p : Nat) (s : State) (h : Crl p0 v0 s) : Crl p0 v0 (Machine.masterAgree p s) := by
  unfold Machine.masterAgree
  repeat' first
    | dsimp only
    | with_reducible assumption
    | intro _
    | with_reducible refine Crl.courseStatement_eq (by assumption) ?_
    | with_reducible apply Crl.courseStatement
    | with_reducible apply Crl.formationStops
    | with_reducible refine Crl.generate_eq (by assumption) ?_
    | with_reducible apply Crl.generate
    | with_reducible refine Crl.modPeer _ _ ?_ (by intro q; exact ⟨rfl, rfl⟩)
    | with_reducible apply Crl.sendLong
    | with_reducible refine Crl.ite ?_ ?_
    | split

theorem Crl.joined {p0 : Nat} {v0 : BitVec 2 × BitVec 2 × Bool × BitVec 2 × Nat × Bytes × Nat} (p : Nat) (gkey : Bytes) (epoch : Nat) (s : State) (h : Crl p0 v0 s) : Crl p0 v0 (Machine.joined p gkey epoch s) := by
  unfold Machine.joined
  repeat' first
    | dsimp only
    | with_reducible assumption
    | intro _
    | with_reducible refine Crl.modPeer _ _ ?_ (by intro q; exact ⟨rfl, rfl⟩)

theorem Crl.sendGroup {p0 : Nat} {v0 : BitVec 2 × BitVec 2 × Bool × BitVec 2 × Nat × Bytes × Nat} (p : Nat) (s : State) (h : Crl p0 v0 s) : Crl p0 v0 (Machine.sendGroup p s) := by
  unfold Machine.sendGroup
  repeat' first
    | dsimp only
    | with_reducible assumption
    | intro _
    | with_reducible refine Crl.generate_eq (by assumption) ?_
    | with_reducible apply Crl.generate
    | with_reducible apply Crl.joined
    | with_reducible refine Crl.modPeer _ _ ?_ (by intro q; exact ⟨rfl, rfl⟩)
    | with_reducible apply Crl.raiseG
    | with_reducible apply Crl.sendFrame
    | with_reducible refine Crl.ite ?_ ?_
    | split

theorem Crl.masterFinish {p0 : Nat} {v0 : BitVec 2 × BitVec 2 × Bool × BitVec 2 × Nat × Bytes × Nat} (p : Nat) (s : State) (h : Crl p0 v0 s) : Crl p0 v0 (Machine.masterFinish p s) := by
  unfold Machine.masterFinish
  repeat' first
    | dsimp only
    | with_reducible assumption
    | intro _
    | with_reducible refine Crl.generate_eq (by assumption) ?_
    | with_reducible apply Crl.generate
    | with_reducible refine Crl.modCrs _ ?_ (by intro c; rfl)
    | with_reducible refine Crl.modPeer _ _ ?_ (by intro q; exact ⟨rfl, rfl⟩)
    | with_reducible apply Crl.sendGroup
    | with_reducible refine Crl.ite ?_ ?_
    | split

theorem Crl.memberRespond {p0 : Nat} {v0 : BitVec 2 × BitVec 2 × Bool × BitVec 2 × Nat × Bytes × Nat} (p : Nat) (s : State) (h : Crl p0 v0 s) : Crl p0 v0 (Machine.memberRespond p s) := by
  unfold Machine.memberRespond
  repeat' first
    | dsimp only
    | with_reducible assumption
    | intro _
    | with_reducible refine Crl.courseStatement_eq (by assumption) ?_
    | with_reducible apply Crl.courseStatement
    | with_reducible apply Crl.formationStops
    | with_reducible refine Crl.generate_eq (by assumption) ?_
    | with_reducible apply Crl.generate
    | with_reducible refine Crl.modPeer _ _ ?_ (by intro q; exact ⟨rfl, rfl⟩)
    | with_reducible apply Crl.sendLong
    | with_reducible refine Crl.ite ?_ ?_
    | split

end Sys2Proof.Machine
end

