-- ==== Sys2Proof/Laws/InLoans.lean ====
section
/-!
SUPPORT. The counters of a tenant's cells and the loans stay through the operations that move or end work.
-/

set_option Elab.async false

namespace Sys2Proof.Machine

/-- The cell counters of tenant n, and the loans. -/
def Fpc (n : Nat) (v : FpCnt × List Loan) (s : State) : Prop := ((s.ten n).fp, s.fp.loans) = v

theorem Fpc.modTen {n0 : Nat} {v0 : FpCnt × List Loan} {s : State} (n : Nat) (f : Tenant → Tenant) (h : Fpc n0 v0 s) (hf : ∀ t, (f t).fp = t.fp) :
    Fpc n0 v0 (Machine.modTen n f s) := by
  unfold Fpc at *
  by_cases e : n0 = n
  · subst e; rw [modTen_ten_same, hf]; exact h
  · rw [modTen_ten_ne _ _ e]; exact h
theorem Fpc.modSq {n0 : Nat} {v0 : FpCnt × List Loan} (n m : Nat) (f : Sq → Sq) (s : State) (hs : Fpc n0 v0 s) : Fpc n0 v0 (Machine.modSq n m f s) := hs
theorem Fpc.modCq {n0 : Nat} {v0 : FpCnt × List Loan} (n m : Nat) (f : Cq → Cq) (s : State) (hs : Fpc n0 v0 s) : Fpc n0 v0 (Machine.modCq n m f s) := hs
theorem Fpc.modDc {n0 : Nat} {v0 : FpCnt × List Loan} (k : Nat) (f : Chan → Chan) (s : State) (hs : Fpc n0 v0 s) : Fpc n0 v0 (Machine.modDc k f s) := hs
theorem Fpc.modTile {n0 : Nat} {v0 : FpCnt × List Loan} (t : Nat) (f : Tile → Tile) (s : State) (hs : Fpc n0 v0 s) : Fpc n0 v0 (Machine.modTile t f s) := hs
theorem Fpc.setCs {n0 : Nat} {v0 : FpCnt × List Loan} (c : Nat) (v : CsSt) (s : State) (hs : Fpc n0 v0 s) : Fpc n0 v0 (Machine.setCs c v s) := hs
theorem Fpc.modKs {n0 : Nat} {v0 : FpCnt × List Loan} (f : KeyStore → KeyStore) (s : State) (hs : Fpc n0 v0 s) : Fpc n0 v0 (Machine.modKs f s) := hs
theorem Fpc.modSlot {n0 : Nat} {v0 : FpCnt × List Loan} (i : Nat) (f : Slot → Slot) (s : State) (hs : Fpc n0 v0 s) : Fpc n0 v0 (Machine.modSlot i f s) := hs
theorem Fpc.modRbg {n0 : Nat} {v0 : FpCnt × List Loan} (k : Nat) (f : Rbg → Rbg) (s : State) (hs : Fpc n0 v0 s) : Fpc n0 v0 (Machine.modRbg k f s) := hs
theorem Fpc.setStream {n0 : Nat} {v0 : FpCnt × List Loan} (i : Nat) (v : Option Stream) (s : State) (hs : Fpc n0 v0 s) : Fpc n0 v0 (Machine.setStream i v s) := hs
theorem Fpc.setCacheEnt {n0 : Nat} {v0 : FpCnt × List Loan} (h : Nat) (v : Option CacheEnt) (s : State) (hs : Fpc n0 v0 s) : Fpc n0 v0 (Machine.setCacheEnt h v s) := hs
theorem Fpc.modCrs {n0 : Nat} {v0 : FpCnt × List Loan} (f : Course → Course) (s : State) (hs : Fpc n0 v0 s) : Fpc n0 v0 (Machine.modCrs f s) := hs
theorem Fpc.modPeer {n0 : Nat} {v0 : FpCnt × List Loan} (p : Nat) (f : Peer → Peer) (s : State) (hs : Fpc n0 v0 s) : Fpc n0 v0 (Machine.modPeer p f s) := hs
theorem Fpc.modOwn {n0 : Nat} {v0 : FpCnt × List Loan} (f : OwnRegs → OwnRegs) (s : State) (hs : Fpc n0 v0 s) : Fpc n0 v0 (Machine.modOwn f s) := hs
theorem Fpc.modTcmp {n0 : Nat} {v0 : FpCnt × List Loan} (j : Nat) (f : Tcmp → Tcmp) (s : State) (hs : Fpc n0 v0 s) : Fpc n0 v0 (Machine.modTcmp j f s) := hs
theorem Fpc.modGen {n0 : Nat} {v0 : FpCnt × List Loan} (f : Gen → Gen) (s : State) (hs : Fpc n0 v0 s) : Fpc n0 v0 (Machine.modGen f s) := hs
theorem Fpc.modJrn {n0 : Nat} {v0 : FpCnt × List Loan} (f : Journal → Journal) (s : State) (hs : Fpc n0 v0 s) : Fpc n0 v0 (Machine.modJrn f s) := hs
theorem Fpc.modTime {n0 : Nat} {v0 : FpCnt × List Loan} (f : TimeUnit → TimeUnit) (s : State) (hs : Fpc n0 v0 s) : Fpc n0 v0 (Machine.modTime f s) := hs
theorem Fpc.modClk {n0 : Nat} {v0 : FpCnt × List Loan} (f : Clocks → Clocks) (s : State) (hs : Fpc n0 v0 s) : Fpc n0 v0 (Machine.modClk f s) := hs
theorem Fpc.modStart {n0 : Nat} {v0 : FpCnt × List Loan} (f : Start → Start) (s : State) (hs : Fpc n0 v0 s) : Fpc n0 v0 (Machine.modStart f s) := hs
theorem Fpc.modOwner {n0 : Nat} {v0 : FpCnt × List Loan} (f : Owner → Owner) (s : State) (hs : Fpc n0 v0 s) : Fpc n0 v0 (Machine.modOwner f s) := hs
theorem Fpc.modMeas {n0 : Nat} {v0 : FpCnt × List Loan} (f : Meas → Meas) (s : State) (hs : Fpc n0 v0 s) : Fpc n0 v0 (Machine.modMeas f s) := hs
theorem Fpc.modEs {n0 : Nat} {v0 : FpCnt × List Loan} (f : Entropy → Entropy) (s : State) (hs : Fpc n0 v0 s) : Fpc n0 v0 (Machine.modEs f s) := hs
theorem Fpc.modBoot {n0 : Nat} {v0 : FpCnt × List Loan} (f : Boot → Boot) (s : State) (hs : Fpc n0 v0 s) : Fpc n0 v0 (Machine.modBoot f s) := hs
theorem Fpc.modFp {n0 : Nat} {v0 : FpCnt × List Loan} {s : State} (f : FramePort → FramePort) (h : Fpc n0 v0 s) (hf : ∀ t, (f t).loans = t.loans) :
    Fpc n0 v0 (Machine.modFp f s) := by
  unfold Fpc at *
  rw [← h]
  exact Prod.ext rfl (hf _)
theorem Fpc.modSup {n0 : Nat} {v0 : FpCnt × List Loan} (f : Supply → Supply) (s : State) (hs : Fpc n0 v0 s) : Fpc n0 v0 (Machine.modSup f s) := hs
theorem Fpc.modSch {n0 : Nat} {v0 : FpCnt × List Loan} (f : Sched → Sched) (s : State) (hs : Fpc n0 v0 s) : Fpc n0 v0 (Machine.modSch f s) := hs
theorem Fpc.modReq {n0 : Nat} {v0 : FpCnt × List Loan} (id : Nat) (f : Req → Req) (s : State) (hs : Fpc n0 v0 s) : Fpc n0 v0 (Machine.modReq id f s) := hs
theorem Fpc.dropReq {n0 : Nat} {v0 : FpCnt × List Loan} (id : Nat) (s : State) (hs : Fpc n0 v0 s) : Fpc n0 v0 (Machine.dropReq id s) := hs
theorem Fpc.emit {n0 : Nat} {v0 : FpCnt × List Loan} (o : Out) (s : State) (hs : Fpc n0 v0 s) : Fpc n0 v0 (Machine.emit o s) := hs
theorem Fpc.nextFree {n0 : Nat} {v0 : FpCnt × List Loan} (s : State) (hs : Fpc n0 v0 s) : Fpc n0 v0 (Machine.nextFree s) := hs
theorem Fpc.modRoots {n0 : Nat} {v0 : FpCnt × List Loan} (f : Roots → Roots) (s : State) (hs : Fpc n0 v0 s) : Fpc n0 v0 (Machine.modRoots f s) := hs
theorem Fpc.modIdent {n0 : Nat} {v0 : FpCnt × List Loan} (f : Ident → Ident) (s : State) (hs : Fpc n0 v0 s) : Fpc n0 v0 (Machine.modIdent f s) := hs
theorem Fpc.modRet {n0 : Nat} {v0 : FpCnt × List Loan} (f : Retention → Retention) (s : State) (hs : Fpc n0 v0 s) : Fpc n0 v0 (Machine.modRet f s) := hs
theorem Fpc.modDenied {n0 : Nat} {v0 : FpCnt × List Loan} (f : Cnt32 → Cnt32) (s : State) (hs : Fpc n0 v0 s) : Fpc n0 v0 (Machine.modDenied f s) := hs
theorem Fpc.modEvPend {n0 : Nat} {v0 : FpCnt × List Loan} (f : Word → Word) (s : State) (hs : Fpc n0 v0 s) : Fpc n0 v0 (Machine.modEvPend f s) := hs
theorem Fpc.modBuserr {n0 : Nat} {v0 : FpCnt × List Loan} (f : Capture → Capture) (s : State) (hs : Fpc n0 v0 s) : Fpc n0 v0 (Machine.modBuserr f s) := hs
theorem Fpc.modBecnt {n0 : Nat} {v0 : FpCnt × List Loan} (f : Cnt32 → Cnt32) (s : State) (hs : Fpc n0 v0 s) : Fpc n0 v0 (Machine.modBecnt f s) := hs
theorem Fpc.modPviol {n0 : Nat} {v0 : FpCnt × List Loan} (f : Capture → Capture) (s : State) (hs : Fpc n0 v0 s) : Fpc n0 v0 (Machine.modPviol f s) := hs
theorem Fpc.modPvcnt {n0 : Nat} {v0 : FpCnt × List Loan} (f : Cnt32 → Cnt32) (s : State) (hs : Fpc n0 v0 s) : Fpc n0 v0 (Machine.modPvcnt f s) := hs
theorem Fpc.modSent {n0 : Nat} {v0 : FpCnt × List Loan} (f : List Req → List Req) (s : State) (hs : Fpc n0 v0 s) : Fpc n0 v0 (Machine.modSent f s) := hs
theorem Fpc.modReqs {n0 : Nat} {v0 : FpCnt × List Loan} (f : List Req → List Req) (s : State) (hs : Fpc n0 v0 s) : Fpc n0 v0 (Machine.modReqs f s) := hs
theorem Fpc.modHeld {n0 : Nat} {v0 : FpCnt × List Loan} (f : List HeldWrite → List HeldWrite) (s : State) (hs : Fpc n0 v0 s) : Fpc n0 v0 (Machine.modHeld f s) := hs
theorem Fpc.modLatch {n0 : Nat} {v0 : FpCnt × List Loan} (f : List Latch → List Latch) (s : State) (hs : Fpc n0 v0 s) : Fpc n0 v0 (Machine.modLatch f s) := hs
theorem Fpc.modCe {n0 : Nat} {v0 : FpCnt × List Loan} (c : Nat) (f : Cnt32 → Cnt32) (s : State) (hs : Fpc n0 v0 s) : Fpc n0 v0 (Machine.modCe c f s) := hs
theorem Fpc.modNotice {n0 : Nat} {v0 : FpCnt × List Loan} (f : Word → Word) (s : State) (hs : Fpc n0 v0 s) : Fpc n0 v0 (Machine.modNotice f s) := hs
theorem Fpc.setAct {n0 : Nat} {v0 : FpCnt × List Loan} (c : Content) (s : State) (hs : Fpc n0 v0 s) : Fpc n0 v0 (Machine.setAct c s) := hs

theorem Fpc.foldl {n0 : Nat} {v0 : FpCnt × List Loan} {s : State} {α : Type} {f : State → α → State} (l : List α) (h : Fpc n0 v0 s) (hf : ∀ s a, Fpc n0 v0 s → Fpc n0 v0 (f s a)) :
    Fpc n0 v0 (l.foldl f s) := by
  induction l generalizing s with
  | nil => exact h
  | cons a t ih => exact ih (hf s a h)
theorem Fpc.eachN {n0 : Nat} {v0 : FpCnt × List Loan} {s : State} {f : Nat → State → State} (l : List Nat) (h : Fpc n0 v0 s) (hf : ∀ i s, Fpc n0 v0 s → Fpc n0 v0 (f i s)) : Fpc n0 v0 (Machine.eachN l f s) :=
  Fpc.foldl l h (fun s i hs => hf i s hs)
theorem Fpc.ite {n0 : Nat} {v0 : FpCnt × List Loan} {c : Prop} [Decidable c] {a b : State} (ha : c → Fpc n0 v0 a) (hb : ¬c → Fpc n0 v0 b) : Fpc n0 v0 (if c then a else b) := by
  by_cases h : c
  · rw [if_pos h]; exact ha h
  · rw [if_neg h]; exact hb h
theorem Fpc.idS {n0 : Nat} {v0 : FpCnt × List Loan} {s : State} (h : Fpc n0 v0 s) : Fpc n0 v0 (id s) := h
theorem Fpc.whenS {n0 : Nat} {v0 : FpCnt × List Loan} {b : Bool} {f : State → State} {s : State} (h : Fpc n0 v0 s) (hf : b = true → ∀ s, Fpc n0 v0 s → Fpc n0 v0 (f s)) : Fpc n0 v0 (Machine.whenS b f s) := by
  unfold Machine.whenS
  split
  · next e => exact hf e s h
  · exact h
theorem Fpc.withReq {n0 : Nat} {v0 : FpCnt × List Loan} {id : Nat} {f : Req → State → State} {s : State} (h : Fpc n0 v0 s) (hf : ∀ r s, Fpc n0 v0 s → Fpc n0 v0 (f r s)) : Fpc n0 v0 (Machine.withReq id f s) := by
  unfold Machine.withReq
  split
  · exact hf _ s h
  · exact h

theorem Fpc.emitWr {n0 : Nat} {v0 : FpCnt × List Loan} (addr : Nat) (data : Bytes) (s : State) (h : Fpc n0 v0 s) : Fpc n0 v0 (Machine.emitWr addr data s) := by
  unfold Machine.emitWr
  repeat' first
    | dsimp only
    | with_reducible assumption
    | intro _
    | with_reducible apply Fpc.emit
    | with_reducible apply Fpc.foldl

theorem Fpc.emitRd {n0 : Nat} {v0 : FpCnt × List Loan} (addr len : Nat) (s : State) (h : Fpc n0 v0 s) : Fpc n0 v0 (Machine.emitRd addr len s) := by
  unfold Machine.emitRd
  repeat' first
    | dsimp only
    | with_reducible assumption
    | intro _
    | with_reducible apply Fpc.emit
    | with_reducible apply Fpc.foldl

theorem Fpc.emitRecord {n0 : Nat} {v0 : FpCnt × List Loan} (addr : Nat) (b : Bytes) (s : State) (h : Fpc n0 v0 s) : Fpc n0 v0 (Machine.emitRecord addr b s) := by
  unfold Machine.emitRecord
  repeat' first
    | dsimp only
    | with_reducible assumption
    | intro _
    | with_reducible apply Fpc.emitWr

theorem Fpc.raiseT {n0 : Nat} {v0 : FpCnt × List Loan} (n e : Nat) (s : State) (h : Fpc n0 v0 s) : Fpc n0 v0 (Machine.raiseT n e s) := by
  unfold Machine.raiseT
  repeat' first
    | dsimp only
    | with_reducible assumption
    | intro _
    | with_reducible refine Fpc.modTen _ _ ?_ (by intro t; first | rfl | (dsimp only; split <;> rfl))

theorem Fpc.raiseG {n0 : Nat} {v0 : FpCnt × List Loan} (e : Nat) (s : State) (h : Fpc n0 v0 s) : Fpc n0 v0 (Machine.raiseG e s) := by
  unfold Machine.raiseG
  repeat' first
    | dsimp only
    | with_reducible assumption
    | intro _
    | with_reducible apply Fpc.modEvPend

theorem Fpc.violT {n0 : Nat} {v0 : FpCnt × List Loan} (n : Nat) (addr : Nat) (d : Dir) (cause kind number tag gen : Nat) (s : State) (h : Fpc n0 v0 s) : Fpc n0 v0 (Machine.violT n addr d cause kind number tag gen s) := by
  unfold Machine.violT
  repeat' first
    | dsimp only
    | with_reducible assumption
    | intro _
    | with_reducible refine Fpc.modTen _ _ ?_ (by intro t; first | rfl | (dsimp only; split <;> rfl))
    | with_reducible apply Fpc.raiseT
    | with_reducible refine Fpc.ite ?_ ?_

theorem Fpc.violP {n0 : Nat} {v0 : FpCnt × List Loan} (addr : Nat) (d : Dir) (cause kind number tag gen : Nat) (s : State) (h : Fpc n0 v0 s) : Fpc n0 v0 (Machine.violP addr d cause kind number tag gen s) := by
  unfold Machine.violP
  repeat' first
    | dsimp only
    | with_reducible assumption
    | intro _
    | with_reducible apply Fpc.modPvcnt
    | with_reducible apply Fpc.modPviol
    | with_reducible apply Fpc.raiseG
    | with_reducible refine Fpc.ite ?_ ?_

theorem Fpc.viol {n0 : Nat} {v0 : FpCnt × List Loan} (t : Option TenantIx) (addr : Nat) (d : Dir) (cause kind number tag gen : Nat) (s : State) (h : Fpc n0 v0 s) : Fpc n0 v0 (Machine.viol t addr d cause kind number tag gen s) := by
  unfold Machine.viol
  repeat' first
    | dsimp only
    | with_reducible assumption
    | intro _
    | with_reducible apply Fpc.violP
    | with_reducible apply Fpc.violT
    | with_reducible refine Fpc.ite ?_ ?_
    | split

theorem Fpc.jrnLose {n0 : Nat} {v0 : FpCnt × List Loan} (s : State) (h : Fpc n0 v0 s) : Fpc n0 v0 (Machine.jrnLose s) := by
  unfold Machine.jrnLose
  repeat' first
    | dsimp only
    | with_reducible assumption
    | intro _
    | with_reducible apply Fpc.modJrn
    | with_reducible apply Fpc.raiseG

theorem Fpc.jrnNlose {n0 : Nat} {v0 : FpCnt × List Loan} (s : State) (h : Fpc n0 v0 s) : Fpc n0 v0 (Machine.jrnNlose s) := by
  unfold Machine.jrnNlose
  repeat' first
    | dsimp only
    | with_reducible assumption
    | intro _
    | with_reducible apply Fpc.modJrn

theorem Fpc.jrnPush {n0 : Nat} {v0 : FpCnt × List Loan} (rec : List (BitVec 32)) (s : State) (h : Fpc n0 v0 s) : Fpc n0 v0 (Machine.jrnPush rec s) := by
  unfold Machine.jrnPush
  repeat' first
    | dsimp only
    | with_reducible assumption
    | intro _
    | with_reducible apply Fpc.modJrn
    | with_reducible apply Fpc.raiseG
    | with_reducible refine Fpc.ite ?_ ?_

theorem Fpc.jrnMakeRoom {n0 : Nat} {v0 : FpCnt × List Loan} (need : Nat) (x : Nat) (s : State) (h : Fpc n0 v0 s) : Fpc n0 v0 (Machine.jrnMakeRoom need x s) := by
  induction x generalizing s with
  | zero => exact h
  | succ n ih =>
    unfold Machine.jrnMakeRoom
    repeat' first
      | dsimp only
      | with_reducible assumption
      | intro _
      | with_reducible apply Fpc.jrnLose
      | with_reducible apply Fpc.modJrn
      | with_reducible refine Fpc.ite ?_ ?_
      | split
      | rfl
      | exact hes
      | (simp_all; done)
      | with_reducible apply ih

theorem Fpc.noticeFault {n0 : Nat} {v0 : FpCnt × List Loan} (s : State) (h : Fpc n0 v0 s) : Fpc n0 v0 (Machine.noticeFault s) := by
  unfold Machine.noticeFault
  repeat' first
    | dsimp only
    | with_reducible assumption
    | intro _
    | with_reducible apply Fpc.modNotice
    | with_reducible apply Fpc.raiseG

theorem Fpc.notice {n0 : Nat} {v0 : FpCnt × List Loan} (rec : List (BitVec 32)) (s : State) (h : Fpc n0 v0 s) : Fpc n0 v0 (Machine.notice rec s) := by
  unfold Machine.notice
  repeat' first
    | dsimp only
    | with_reducible assumption
    | intro _
    | with_reducible apply Fpc.emitRecord
    | with_reducible apply Fpc.jrnNlose
    | with_reducible apply Fpc.modJrn
    | with_reducible apply Fpc.noticeFault
    | with_reducible apply Fpc.violP
    | with_reducible refine Fpc.ite ?_ ?_
    | split

theorem Fpc.jrnOpen {n0 : Nat} {v0 : FpCnt × List Loan} (bad : Bool) (s : State) (h : Fpc n0 v0 s) : Fpc n0 v0 (Machine.jrnOpen bad s) := by
  unfold Machine.jrnOpen
  repeat' first
    | dsimp only
    | with_reducible assumption
    | intro _
    | with_reducible apply Fpc.modJrn
    | with_reducible refine Fpc.ite ?_ ?_
    | split

theorem Fpc.jrnDeliver {n0 : Nat} {v0 : FpCnt × List Loan} (who : Who) (size : AccSize) (bad : Bool) (s : State) (h : Fpc n0 v0 s) : Fpc n0 v0 (Machine.jrnDeliver who size bad s) := by
  unfold Machine.jrnDeliver
  repeat' first
    | dsimp only
    | with_reducible assumption
    | intro _
    | with_reducible apply Fpc.emit
    | with_reducible apply Fpc.jrnOpen
    | with_reducible apply Fpc.modJrn
    | with_reducible refine Fpc.ite ?_ ?_
    | split

theorem Fpc.jrnServe {n0 : Nat} {v0 : FpCnt × List Loan}  (x : List (Who × AccSize)) (s : State) (h : Fpc n0 v0 s) : Fpc n0 v0 (Machine.jrnServe x s) := by
  induction x generalizing s with
  | nil => exact h
  | cons a l ih =>
    try obtain ⟨_, _⟩ := a
    unfold Machine.jrnServe
    repeat' first
      | dsimp only
      | with_reducible assumption
      | intro _
      | with_reducible apply Fpc.jrnDeliver
      | with_reducible apply Fpc.modJrn
      | with_reducible refine Fpc.ite ?_ ?_
      | split
      | rfl
      | exact hes
      | with_reducible apply ih

theorem Fpc.jrnStore {n0 : Nat} {v0 : FpCnt × List Loan} (rec : List (BitVec 32)) (s : State) (h : Fpc n0 v0 s) : Fpc n0 v0 (Machine.jrnStore rec s) := by
  unfold Machine.jrnStore
  repeat' first
    | dsimp only
    | with_reducible assumption
    | intro _
    | with_reducible apply Fpc.jrnPush
    | with_reducible apply Fpc.jrnServe
    | with_reducible apply Fpc.notice

theorem Fpc.journal {n0 : Nat} {v0 : FpCnt × List Loan} (type origin : Nat) (payload : List Nat) (s : State) (h : Fpc n0 v0 s) : Fpc n0 v0 (Machine.journal type origin payload s) := by
  unfold Machine.journal
  repeat' first
    | dsimp only
    | with_reducible assumption
    | intro _
    | with_reducible apply Fpc.jrnLose
    | with_reducible apply Fpc.jrnMakeRoom
    | with_reducible apply Fpc.jrnStore
    | with_reducible apply Fpc.modJrn
    | with_reducible refine Fpc.ite ?_ ?_

theorem Fpc.countCe {n0 : Nat} {v0 : FpCnt × List Loan} (c : Nat) (s : State) (h : Fpc n0 v0 s) : Fpc n0 v0 (Machine.countCe c s) := by
  unfold Machine.countCe
  repeat' first
    | dsimp only
    | with_reducible assumption
    | intro _
    | with_reducible apply Fpc.modCe
    | with_reducible apply Fpc.raiseG
    | with_reducible refine Fpc.ite ?_ ?_

theorem Fpc.journalUe {n0 : Nat} {v0 : FpCnt × List Loan} (c loc : Nat) (s : State) (h : Fpc n0 v0 s) : Fpc n0 v0 (Machine.journalUe c loc s) := by
  unfold Machine.journalUe
  repeat' first
    | dsimp only
    | with_reducible assumption
    | intro _
    | with_reducible apply Fpc.journal

theorem Fpc.modOp {n0 : Nat} {v0 : FpCnt × List Loan} (id i : Nat) (f : OpSt → OpSt) (s : State) (h : Fpc n0 v0 s) : Fpc n0 v0 (Machine.modOp id i f s) := by
  unfold Machine.modOp
  repeat' first
    | dsimp only
    | with_reducible assumption
    | intro _
    | with_reducible apply Fpc.modReq

theorem Fpc.modBuf {n0 : Nat} {v0 : FpCnt × List Loan} (id b : Nat) (f : BufSt → BufSt) (s : State) (h : Fpc n0 v0 s) : Fpc n0 v0 (Machine.modBuf id b f s) := by
  unfold Machine.modBuf
  repeat' first
    | dsimp only
    | with_reducible assumption
    | intro _
    | with_reducible apply Fpc.modReq

theorem Fpc.reqViol {n0 : Nat} {v0 : FpCnt × List Loan} (r : Req) (addr : Nat) (d : Dir) (cause : Nat) (s : State) (h : Fpc n0 v0 s) : Fpc n0 v0 (Machine.reqViol r addr d cause s) := by
  unfold Machine.reqViol
  repeat' first
    | dsimp only
    | with_reducible assumption
    | intro _
    | with_reducible apply Fpc.viol

theorem Fpc.freeTiles {n0 : Nat} {v0 : FpCnt × List Loan} (id : Nat) (s : State) (h : Fpc n0 v0 s) : Fpc n0 v0 (Machine.freeTiles id s) := by
  unfold Machine.freeTiles
  repeat' first
    | dsimp only
    | with_reducible assumption
    | intro _
    | with_reducible apply Fpc.eachN
    | with_reducible apply Fpc.modTile

theorem Fpc.dropWork {n0 : Nat} {v0 : FpCnt × List Loan} (aim : Purpose) (s : State) (h : Fpc n0 v0 s) : Fpc n0 v0 (Machine.dropWork aim s) := by
  unfold Machine.dropWork
  repeat' first
    | dsimp only
    | with_reducible assumption
    | intro _
    | with_reducible apply Fpc.foldl
    | with_reducible apply Fpc.freeTiles
    | with_reducible apply Fpc.modSch
    | with_reducible refine Fpc.ite ?_ ?_
    | split

theorem Fpc.unclaim {n0 : Nat} {v0 : FpCnt × List Loan} (x : Nat) (s : State) (h : Fpc n0 v0 s) : Fpc n0 v0 (Machine.unclaim x s) := by
  unfold Machine.unclaim
  repeat' first
    | dsimp only
    | with_reducible assumption
    | intro _
    | with_reducible apply Fpc.dropWork
    | with_reducible apply Fpc.modKs
    | with_reducible apply Fpc.modSlot
    | with_reducible refine Fpc.ite ?_ ?_
    | split

theorem Fpc.closeStream {n0 : Nat} {v0 : FpCnt × List Loan} (ix : Nat) (s : State) (h : Fpc n0 v0 s) : Fpc n0 v0 (Machine.closeStream ix s) := by
  unfold Machine.closeStream
  repeat' first
    | dsimp only
    | with_reducible assumption
    | intro _
    | with_reducible apply Fpc.setStream
    | with_reducible refine Fpc.ite ?_ ?_
    | split

theorem Fpc.issueJob {n0 : Nat} {v0 : FpCnt × List Loan} (kind : Nat) (work : JobWork) (s : State) (h : Fpc n0 v0 s) : Fpc n0 v0 (Machine.issueJob kind work s) := by
  unfold Machine.issueJob
  repeat' first
    | dsimp only
    | with_reducible assumption
    | intro _
    | with_reducible apply Fpc.modSch
    | with_reducible refine Fpc.ite ?_ ?_
    | split

theorem Fpc.prepareBank {n0 : Nat} {v0 : FpCnt × List Loan} (x : Nat) (s : State) (h : Fpc n0 v0 s) : Fpc n0 v0 (Machine.prepareBank x s) := by
  unfold Machine.prepareBank
  repeat' first
    | dsimp only
    | with_reducible assumption
    | intro _
    | with_reducible apply Fpc.issueJob
    | with_reducible refine Fpc.ite ?_ ?_
    | split

theorem Fpc.beginVerify {n0 : Nat} {v0 : FpCnt × List Loan} (x : Nat) (s : State) (h : Fpc n0 v0 s) : Fpc n0 v0 (Machine.beginVerify x s) := by
  unfold Machine.beginVerify
  repeat' first
    | dsimp only
    | with_reducible assumption
    | intro _
    | with_reducible apply Fpc.modKs
    | with_reducible apply Fpc.modSlot
    | with_reducible apply Fpc.prepareBank
    | with_reducible refine Fpc.ite ?_ ?_
    | split

theorem Fpc.endStreams {n0 : Nat} {v0 : FpCnt × List Loan} (r : Req) (o : Outcome) (s : State) (h : Fpc n0 v0 s) : Fpc n0 v0 (Machine.endStreams r o s) := by
  unfold Machine.endStreams
  repeat' first
    | dsimp only
    | with_reducible assumption
    | intro _
    | with_reducible apply Fpc.closeStream
    | with_reducible apply Fpc.eachN
    | with_reducible apply Fpc.setStream
    | with_reducible refine Fpc.ite ?_ ?_
    | split

theorem Fpc.dropStreams {n0 : Nat} {v0 : FpCnt × List Loan} (r : Req) (o : Outcome) (s : State) (h : Fpc n0 v0 s) : Fpc n0 v0 (Machine.dropStreams r o s) := by
  unfold Machine.dropStreams
  repeat' first
    | dsimp only
    | with_reducible assumption
    | intro _
    | with_reducible apply Fpc.closeStream
    | with_reducible apply Fpc.foldl
    | with_reducible refine Fpc.ite ?_ ?_
    | split

theorem Fpc.scrubSeg {n0 : Nat} {v0 : FpCnt × List Loan} (r : Req) (a len : Nat) (s : State) (h : Fpc n0 v0 s) : Fpc n0 v0 (Machine.scrubSeg r a len s) := by
  unfold Machine.scrubSeg
  repeat' first
    | dsimp only
    | with_reducible assumption
    | intro _
    | with_reducible apply Fpc.emitWr
    | with_reducible apply Fpc.modReq
    | with_reducible apply Fpc.reqViol
    | with_reducible refine Fpc.ite ?_ ?_
    | split

theorem Fpc.scrubAll {n0 : Nat} {v0 : FpCnt × List Loan} (r : Req) (s : State) (h : Fpc n0 v0 s) : Fpc n0 v0 (Machine.scrubAll r s) := by
  unfold Machine.scrubAll
  repeat' first
    | dsimp only
    | with_reducible assumption
    | intro _
    | with_reducible apply Fpc.eachN
    | with_reducible apply Fpc.emit
    | with_reducible apply Fpc.foldl
    | with_reducible apply Fpc.scrubSeg
    | with_reducible refine Fpc.ite ?_ ?_
    | split

theorem Fpc.fencePort {n0 : Nat} {v0 : FpCnt × List Loan} (id : Nat) (port : Bool) (s : State) (h : Fpc n0 v0 s) : Fpc n0 v0 (Machine.fencePort id port s) := by
  unfold Machine.fencePort
  repeat' first
    | dsimp only
    | with_reducible assumption
    | intro _
    | with_reducible apply Fpc.emitRd
    | with_reducible apply Fpc.modReq
    | with_reducible apply Fpc.reqViol
    | with_reducible apply Fpc.idS
    | with_reducible refine Fpc.ite ?_ ?_
    | split

theorem Fpc.fenceFrame {n0 : Nat} {v0 : FpCnt × List Loan} (r : Req) (s : State) (h : Fpc n0 v0 s) : Fpc n0 v0 (Machine.fenceFrame r s) := by
  unfold Machine.fenceFrame
  repeat' first
    | dsimp only
    | with_reducible assumption
    | intro _
    | with_reducible apply Fpc.eachN
    | with_reducible apply Fpc.emit
    | with_reducible apply Fpc.modBuf
    | with_reducible refine Fpc.ite ?_ ?_
    | split

theorem Fpc.endChain {n0 : Nat} {v0 : FpCnt × List Loan} (id : Nat) (o : Outcome) (s : State) (h : Fpc n0 v0 s) : Fpc n0 v0 (Machine.endChain id o s) := by
  unfold Machine.endChain
  repeat' first
    | dsimp only
    | with_reducible assumption
    | intro _
    | with_reducible apply Fpc.beginVerify
    | with_reducible apply Fpc.dropStreams
    | with_reducible apply Fpc.eachN
    | with_reducible apply Fpc.endStreams
    | with_reducible apply Fpc.fenceFrame
    | with_reducible apply Fpc.fencePort
    | with_reducible apply Fpc.freeTiles
    | with_reducible refine Fpc.modFp _ ?_ (by intro t; rfl)
    | with_reducible apply Fpc.modReq
    | with_reducible apply Fpc.modSch
    | with_reducible apply Fpc.scrubAll
    | with_reducible apply Fpc.unclaim
    | with_reducible refine Fpc.ite ?_ ?_
    | split

theorem Fpc.endDone {n0 : Nat} {v0 : FpCnt × List Loan} (id : Nat) (s : State) (h : Fpc n0 v0 s) : Fpc n0 v0 (Machine.endDone id s) := by
  unfold Machine.endDone
  repeat' first
    | dsimp only
    | with_reducible assumption
    | intro _
    | with_reducible apply Fpc.endChain
    | with_reducible refine Fpc.ite ?_ ?_
    | split

theorem Fpc.issueRange {n0 : Nat} {v0 : FpCnt × List Loan} (id b a l : Nat) (s : State) (h : Fpc n0 v0 s) : Fpc n0 v0 (Machine.issueRange id b a l s) := by
  unfold Machine.issueRange
  repeat' first
    | dsimp only
    | with_reducible assumption
    | intro _
    | with_reducible apply Fpc.emitRd
    | with_reducible apply Fpc.modBuf
    | with_reducible apply Fpc.reqViol
    | with_reducible apply Fpc.idS
    | with_reducible refine Fpc.ite ?_ ?_
    | split

theorem Fpc.askElem {n0 : Nat} {v0 : FpCnt × List Loan} (id b : Nat) (short : Fail) (s : State) (h : Fpc n0 v0 s) : Fpc n0 v0 (Machine.askElem id b short s) := by
  unfold Machine.askElem
  repeat' first
    | dsimp only
    | with_reducible assumption
    | intro _
    | with_reducible apply Fpc.emitRd
    | with_reducible apply Fpc.modBuf
    | with_reducible apply Fpc.reqViol
    | with_reducible apply Fpc.idS
    | with_reducible refine Fpc.ite ?_ ?_
    | split

theorem Fpc.startBuf {n0 : Nat} {v0 : FpCnt × List Loan} (id b : Nat) (s : State) (h : Fpc n0 v0 s) : Fpc n0 v0 (Machine.startBuf id b s) := by
  unfold Machine.startBuf
  repeat' first
    | dsimp only
    | with_reducible assumption
    | intro _
    | with_reducible apply Fpc.askElem
    | with_reducible apply Fpc.emit
    | with_reducible apply Fpc.issueRange
    | with_reducible apply Fpc.modBuf
    | with_reducible apply Fpc.modReq
    | with_reducible refine Fpc.ite ?_ ?_
    | split

theorem Fpc.startBufs {n0 : Nat} {v0 : FpCnt × List Loan} (id : Nat) (s : State) (h : Fpc n0 v0 s) : Fpc n0 v0 (Machine.startBufs id s) := by
  unfold Machine.startBufs
  repeat' first
    | dsimp only
    | with_reducible assumption
    | intro _
    | with_reducible apply Fpc.eachN
    | with_reducible apply Fpc.startBuf
    | with_reducible apply Fpc.idS
    | with_reducible refine Fpc.ite ?_ ?_
    | split

theorem Fpc.reqWrote {n0 : Nat} {v0 : FpCnt × List Loan} (id b a off len : Nat) (s : State) (h : Fpc n0 v0 s) : Fpc n0 v0 (Machine.reqWrote id b a off len s) := by
  unfold Machine.reqWrote
  repeat' first
    | dsimp only
    | with_reducible assumption
    | intro _
    | with_reducible apply Fpc.modReq
    | with_reducible refine Fpc.ite ?_ ?_
    | split

theorem Fpc.writeSegs {n0 : Nat} {v0 : FpCnt × List Loan} (id b : Nat) (data : Bytes) (x : List (Nat × Nat × Nat)) (s : State) (h : Fpc n0 v0 s) : Fpc n0 v0 (Machine.writeSegs id b data x s).1 := by
  induction x generalizing s with
  | nil => exact h
  | cons a l ih =>
    try obtain ⟨_, _, _⟩ := a
    unfold Machine.writeSegs
    repeat' first
      | dsimp only
      | with_reducible assumption
      | intro _
      | with_reducible apply Fpc.emitWr
      | with_reducible apply Fpc.modBuf
      | with_reducible apply Fpc.reqViol
      | with_reducible apply Fpc.reqWrote
      | with_reducible apply Fpc.idS
      | with_reducible refine Fpc.ite ?_ ?_
      | split
      | rfl
      | exact hes
      | (simp_all; done)
      | with_reducible apply ih

theorem Fpc.writeSegs_eq {n0 : Nat} {v0 : FpCnt × List Loan} {id b : Nat} {data : Bytes} {x : List (Nat × Nat × Nat)} {s : State} {y : Option Nat} {t : State} (e : Machine.writeSegs id b data x s = (t, y)) (h : Fpc n0 v0 s) : Fpc n0 v0 t := by
  have := Fpc.writeSegs id b data x s h
  rwa [e] at this

theorem Fpc.writeOut {n0 : Nat} {v0 : FpCnt × List Loan} (r : Req) (i n : Nat) (s : State) (h : Fpc n0 v0 s) : Fpc n0 v0 (Machine.writeOut r i n s).1 := by
  unfold Machine.writeOut
  repeat' first
    | dsimp only
    | with_reducible assumption
    | intro _
    | with_reducible apply Fpc.reqViol
    | with_reducible apply Fpc.writeSegs
    | with_reducible refine Fpc.writeSegs_eq (by assumption) ?_
    | with_reducible refine Fpc.ite ?_ ?_
    | split

theorem Fpc.writeOut_eq {n0 : Nat} {v0 : FpCnt × List Loan} {r : Req} {i n : Nat} {s : State} {y : Option Nat} {t : State} (e : Machine.writeOut r i n s = (t, y)) (h : Fpc n0 v0 s) : Fpc n0 v0 t := by
  have := Fpc.writeOut r i n s h
  rwa [e] at this

theorem Fpc.flushOp {n0 : Nat} {v0 : FpCnt × List Loan} (id i : Nat) (s : State) (h : Fpc n0 v0 s) : Fpc n0 v0 (Machine.flushOp id i s).1 := by
  unfold Machine.flushOp
  repeat' first
    | dsimp only
    | with_reducible assumption
    | intro _
    | with_reducible apply Fpc.askElem
    | with_reducible apply Fpc.emit
    | with_reducible apply Fpc.modBuf
    | with_reducible apply Fpc.modOp
    | with_reducible apply Fpc.modReq
    | with_reducible refine Fpc.writeOut_eq (by assumption) ?_
    | with_reducible apply Fpc.writeOut
    | with_reducible refine Fpc.ite ?_ ?_
    | split

theorem Fpc.flushOp_eq {n0 : Nat} {v0 : FpCnt × List Loan} {id i : Nat} {s : State} {y : Option Fail} {t : State} (e : Machine.flushOp id i s = (t, y)) (h : Fpc n0 v0 s) : Fpc n0 v0 t := by
  have := Fpc.flushOp id i s h
  rwa [e] at this

theorem Fpc.receiveKey {n0 : Nat} {v0 : FpCnt × List Loan} (id i : Nat) (s : State) (h : Fpc n0 v0 s) : Fpc n0 v0 (Machine.receiveKey id i s).1 := by
  unfold Machine.receiveKey
  repeat' first
    | dsimp only
    | with_reducible assumption
    | intro _
    | with_reducible apply Fpc.modOp
    | with_reducible refine Fpc.ite ?_ ?_
    | split

theorem Fpc.receiveKey_eq {n0 : Nat} {v0 : FpCnt × List Loan} {id i : Nat} {s : State} {y : Option Fail} {t : State} (e : Machine.receiveKey id i s = (t, y)) (h : Fpc n0 v0 s) : Fpc n0 v0 t := by
  have := Fpc.receiveKey id i s h
  rwa [e] at this

theorem Fpc.pairRecord {n0 : Nat} {v0 : FpCnt × List Loan} (r : Req) (o : OpSt) (voter outcome : Nat) (s : State) (h : Fpc n0 v0 s) : Fpc n0 v0 (Machine.pairRecord r o voter outcome s) := by
  unfold Machine.pairRecord
  repeat' first
    | dsimp only
    | with_reducible assumption
    | intro _
    | with_reducible apply Fpc.journal
    | with_reducible refine Fpc.ite ?_ ?_
    | split

theorem Fpc.settleOp {n0 : Nat} {v0 : FpCnt × List Loan} (id i : Nat) (s : State) (h : Fpc n0 v0 s) : Fpc n0 v0 (Machine.settleOp id i s).1 := by
  unfold Machine.settleOp
  repeat' first
    | dsimp only
    | with_reducible assumption
    | intro _
    | with_reducible refine Fpc.flushOp_eq (by assumption) ?_
    | with_reducible apply Fpc.flushOp
    | with_reducible apply Fpc.modOp
    | with_reducible apply Fpc.pairRecord
    | with_reducible refine Fpc.receiveKey_eq (by assumption) ?_
    | with_reducible apply Fpc.receiveKey
    | with_reducible refine Fpc.ite ?_ ?_
    | split

theorem Fpc.settleOp_eq {n0 : Nat} {v0 : FpCnt × List Loan} {id i : Nat} {s : State} {y : Option Fail} {t : State} (e : Machine.settleOp id i s = (t, y)) (h : Fpc n0 v0 s) : Fpc n0 v0 t := by
  have := Fpc.settleOp id i s h
  rwa [e] at this

theorem Fpc.settleOps {n0 : Nat} {v0 : FpCnt × List Loan} (id : Nat) (x : List Nat) (s : State) (h : Fpc n0 v0 s) : Fpc n0 v0 (Machine.settleOps id x s).1 := by
  induction x generalizing s with
  | nil => exact h
  | cons a l ih =>
    unfold Machine.settleOps
    repeat' first
      | dsimp only
      | with_reducible assumption
      | intro _
      | with_reducible refine Fpc.settleOp_eq (by assumption) ?_
      | with_reducible apply Fpc.settleOp
      | with_reducible apply Fpc.idS
      | with_reducible refine Fpc.ite ?_ ?_
      | split
      | rfl
      | exact hes
      | with_reducible apply ih

theorem Fpc.settleOps_eq {n0 : Nat} {v0 : FpCnt × List Loan} {id : Nat} {x : List Nat} {s : State} {y : Option Outcome} {t : State} (e : Machine.settleOps id x s = (t, y)) (h : Fpc n0 v0 s) : Fpc n0 v0 t := by
  have := Fpc.settleOps id x s h
  rwa [e] at this

theorem Fpc.settle {n0 : Nat} {v0 : FpCnt × List Loan} (id : Nat) (s : State) (h : Fpc n0 v0 s) : Fpc n0 v0 (Machine.settle id s) := by
  unfold Machine.settle
  repeat' first
    | dsimp only
    | with_reducible assumption
    | intro _
    | with_reducible apply Fpc.endChain
    | with_reducible apply Fpc.endDone
    | with_reducible apply Fpc.settleOps
    | with_reducible refine Fpc.settleOps_eq (by assumption) ?_
    | with_reducible apply Fpc.startBufs
    | with_reducible refine Fpc.ite ?_ ?_
    | split

theorem Fpc.settleAll {n0 : Nat} {v0 : FpCnt × List Loan} (s : State) (h : Fpc n0 v0 s) : Fpc n0 v0 (Machine.settleAll s) := by
  unfold Machine.settleAll
  repeat' first
    | dsimp only
    | with_reducible assumption
    | intro _
    | with_reducible apply Fpc.settle
    | with_reducible apply Fpc.foldl

end Sys2Proof.Machine
end

