-- ==== Sys2Proof/Laws/OtherRequests.lean ====
section
/-!
SUPPORT. A request stays as it is while another request settles, ends or is written; a request whose chain has ended stays while all settle.
-/

set_option Elab.async false

namespace Sys2Proof.Machine

/-- Request k is as v says. -/
def Oth (k : Nat) (v : Option Req) (s : State) : Prop := s.req k = v

theorem Oth.reqs {k : Nat} {v : Option Req} {s t : State} (h : Oth k v s) (e : t.reqs = s.reqs) : Oth k v t := (req_of_reqs e k).trans h

theorem Oth.only {k : Nat} {v : Option Req} {A : List Part} {s t : State} (h : Oth k v s) (f : Only A s t) (hA : Part.reqs ∉ A) : Oth k v t := h.reqs (f.2 .reqs hA)

theorem Oth.modReq {k id : Nat} {v : Option Req} {s : State} (f : Req → Req) (hk : k ≠ id) (hf : ∀ r, (f r).id = r.id) (h : Oth k v s) : Oth k v (Machine.modReq id f s) :=
  (modReq_req_ne f hf hk).trans h

theorem Oth.modOp {k id : Nat} {v : Option Req} {s : State} (i : Nat) (f : OpSt → OpSt) (hk : k ≠ id) (h : Oth k v s) : Oth k v (Machine.modOp id i f s) := (modOp_req_ne i f hk).trans h

theorem Oth.modBuf {k id : Nat} {v : Option Req} {s : State} (i : Nat) (f : BufSt → BufSt) (hk : k ≠ id) (h : Oth k v s) : Oth k v (Machine.modBuf id i f s) := (modBuf_req_ne i f hk).trans h

theorem Oth.emitWr {k : Nat} {v : Option Req} {s : State} (a : Nat) (d : Bytes) (h : Oth k v s) : Oth k v (Machine.emitWr a d s) :=
  h.only (Only.emitWr a d s (A := [.out]) (by decide) (Only.refl _ _)) (by decide)

theorem Oth.emitRd {k : Nat} {v : Option Req} {s : State} (a l : Nat) (h : Oth k v s) : Oth k v (Machine.emitRd a l s) :=
  h.only (Only.emitRd a l s (A := [.out]) (by decide) (Only.refl _ _)) (by decide)

theorem Oth.emit {k : Nat} {v : Option Req} {s : State} (o : Out) (h : Oth k v s) : Oth k v (Machine.emit o s) := h

theorem Oth.reqViol {k : Nat} {v : Option Req} {s : State} (r : Req) (a : Nat) (d : Dir) (c : Nat) (h : Oth k v s) : Oth k v (Machine.reqViol r a d c s) :=
  h.only (Only.reqViol r a d c s (A := [.tens, .evPend, .pviol, .pvcnt, .out]) (by decide) (Only.refl _ _)) (by decide)

theorem Oth.eachN {k : Nat} {v : Option Req} {s : State} (l : List Nat) {f : Nat → State → State} (h : Oth k v s) (hf : ∀ i s, Oth k v s → Oth k v (f i s)) : Oth k v (Machine.eachN l f s) :=
  eachN_ind _ _ _ h hf

theorem Oth.reqWrote {k id : Nat} {v : Option Req} {s : State} (b a off len : Nat) (hk : k ≠ id) (h : Oth k v s) : Oth k v (Machine.reqWrote id b a off len s) := by
  unfold Machine.reqWrote; exact Oth.modReq _ hk (fun _ => rfl) h

theorem Oth.writeSegs {k id : Nat} {v : Option Req} {s : State} (b : Nat) (data : Bytes) (l : List (Nat × Nat × Nat)) (hk : k ≠ id) (h : Oth k v s) : Oth k v (Machine.writeSegs id b data l s).1 := by
  induction l generalizing s with
  | nil => exact h
  | cons g t ih =>
    obtain ⟨a, off, len⟩ := g
    unfold Machine.writeSegs
    split
    · exact h
    · dsimp only
      split
      · apply ih
        split
        · exact h
        · exact Oth.modBuf _ _ hk (Oth.reqWrote _ _ _ _ hk (Oth.emitWr _ _ h))
      · apply Oth.reqViol
        split
        · exact h
        · exact Oth.modBuf _ _ hk (Oth.reqWrote _ _ _ _ hk (Oth.emitWr _ _ h))

theorem Oth.askElem {k id : Nat} {v : Option Req} {s : State} (b : Nat) (f : Fail) (hk : k ≠ id) (h : Oth k v s) : Oth k v (Machine.askElem id b f s) := by
  unfold Machine.askElem
  split
  · exact h
  · dsimp only
    repeat' split
    all_goals (repeat' first | with_reducible assumption | (intro r; rfl) | with_reducible apply Oth.modBuf | with_reducible apply Oth.modOp | with_reducible apply Oth.modReq | with_reducible apply Oth.emitWr | with_reducible apply Oth.emitRd | with_reducible apply Oth.emit | with_reducible apply Oth.reqViol)

theorem Oth.issueRange {k id : Nat} {v : Option Req} {s : State} (b a l : Nat) (hk : k ≠ id) (h : Oth k v s) : Oth k v (Machine.issueRange id b a l s) := by
  unfold Machine.issueRange
  repeat' split
  all_goals (repeat' first | with_reducible assumption | (intro r; rfl) | with_reducible apply Oth.modBuf | with_reducible apply Oth.modOp | with_reducible apply Oth.modReq | with_reducible apply Oth.emitWr | with_reducible apply Oth.emitRd | with_reducible apply Oth.emit | with_reducible apply Oth.reqViol)

theorem Oth.startBuf {k id : Nat} {v : Option Req} {s : State} (b : Nat) (hk : k ≠ id) (h : Oth k v s) : Oth k v (Machine.startBuf id b s) := by
  unfold Machine.startBuf
  split
  · exact h
  · dsimp only
    split
    · exact h
    · split
      · (repeat' first | with_reducible assumption | (intro r; rfl) | with_reducible apply Oth.modBuf | with_reducible apply Oth.modOp | with_reducible apply Oth.modReq | with_reducible apply Oth.emitWr | with_reducible apply Oth.emitRd | with_reducible apply Oth.emit | with_reducible apply Oth.reqViol)
      · split
        · exact Oth.issueRange _ _ _ hk (Oth.modBuf _ _ hk h)
        · split
          · exact Oth.askElem _ _ hk (Oth.modBuf _ _ hk h)
          · split
            · (repeat' first | with_reducible assumption | (intro r; rfl) | with_reducible apply Oth.modBuf | with_reducible apply Oth.modOp | with_reducible apply Oth.modReq | with_reducible apply Oth.emitWr | with_reducible apply Oth.emitRd | with_reducible apply Oth.emit | with_reducible apply Oth.reqViol)
            · have g3 : ∀ (c : Prop) [Decidable c] (y : State), Oth k v y → Oth k v (if c then
                  Machine.modReq id (fun r => { r with ops := r.ops.map (fun o => if o.w.src = b + 8 then { o with trunc := true } else o) }) y else y) := by
                intro c _ y hy
                split
                · exact Oth.modReq _ hk (fun _ => rfl) hy
                · exact hy
              split
              · exact Oth.emit _ (g3 _ _ (by repeat' first | with_reducible assumption | (intro r; rfl) | with_reducible apply Oth.modBuf | with_reducible apply Oth.modOp | with_reducible apply Oth.modReq | with_reducible apply Oth.emitWr | with_reducible apply Oth.emitRd | with_reducible apply Oth.emit | with_reducible apply Oth.reqViol))
              · exact g3 _ _ (by repeat' first | with_reducible assumption | (intro r; rfl) | with_reducible apply Oth.modBuf | with_reducible apply Oth.modOp | with_reducible apply Oth.modReq | with_reducible apply Oth.emitWr | with_reducible apply Oth.emitRd | with_reducible apply Oth.emit | with_reducible apply Oth.reqViol)

theorem Oth.startBufs {k id : Nat} {v : Option Req} {s : State} (hk : k ≠ id) (h : Oth k v s) : Oth k v (Machine.startBufs id s) := by
  unfold Machine.startBufs
  split
  · exact h
  · exact Oth.eachN _ h (fun i s hs => Oth.startBuf _ hk hs)

theorem Oth.writeOut {k : Nat} {v : Option Req} {s : State} {r : Req} (i n : Nat) (hk : k ≠ r.id) (h : Oth k v s) : Oth k v (Machine.writeOut r i n s).1 := by
  unfold Machine.writeOut
  dsimp only
  split
  · split
    · exact Oth.reqViol _ _ _ _ h
    · exact h
  · exact Oth.writeSegs _ _ _ hk h

theorem Oth.flushOp {k id : Nat} {v : Option Req} {s : State} (i : Nat) (hk : k ≠ id) (h : Oth k v s) : Oth k v (Machine.flushOp id i s).1 := by
  unfold Machine.flushOp
  split
  · exact h
  · rename_i r hr
    dsimp only
    split
    · exact h
    · split
      · exact h
      · split
        · (repeat' first | with_reducible assumption | (intro r; rfl) | with_reducible apply Oth.modBuf | with_reducible apply Oth.modOp | with_reducible apply Oth.modReq | with_reducible apply Oth.emitWr | with_reducible apply Oth.emitRd | with_reducible apply Oth.emit | with_reducible apply Oth.reqViol)
        · split
          · next s1 off e =>
            refine Oth.modOp _ _ hk ?_
            rw [show s1 = (Machine.writeOut r i (r.mayWrite i) s).1 from by rw [e]]
            exact Oth.writeOut _ _ (by rw [req_id hr]; exact hk) h
          · next s1 e =>
            have g1 : Oth k v s1 := by
              rw [show s1 = (Machine.writeOut r i (r.mayWrite i) s).1 from by rw [e]]
              exact Oth.writeOut _ _ (by rw [req_id hr]; exact hk) h
            split
            · have g2 : Oth k v (Machine.askElem id ((r.op i).w.dst - 8) (stBadInput, 2) s1) := Oth.askElem _ _ hk g1
              split
              · exact g2
              · split
                · exact Oth.modOp _ _ hk g2
                · exact g2
            · exact g1

theorem Oth.receiveKey {k id : Nat} {v : Option Req} {s : State} (i : Nat) (hk : k ≠ id) (h : Oth k v s) : Oth k v (Machine.receiveKey id i s).1 := by
  unfold Machine.receiveKey
  split
  · exact h
  · dsimp only
    split
    · exact h
    · split
      · exact h
      · split
        · exact h
        · exact Oth.modOp _ _ hk h

theorem Oth.settleOp {k id : Nat} {v : Option Req} {s : State} (i : Nat) (hk : k ≠ id) (h : Oth k v s) : Oth k v (Machine.settleOp id i s).1 := by
  have g1 : Oth k v (Machine.receiveKey id i s).1 := Oth.receiveKey _ hk h
  unfold Machine.settleOp
  split
  · next e => rw [e] at g1; exact g1
  · next s1 e =>
    rw [e] at g1
    split
    · exact g1
    · rename_i r hr
      split
      · dsimp only
        split
        · exact (Oth.modOp _ _ hk g1).only (Only.pairRecord _ _ _ _ _ (A := [.notice, .jrn, .evPend, .pviol, .pvcnt, .out]) (by decide) (Only.refl _ _)) (by decide)
        · exact Oth.modOp _ _ hk g1
      · dsimp only
        generalize hs2 : (if (r.op i).takes = true then Machine.modOp id i (fun o => { o with consumed := (r.src i).length, output := soFar r i (r.src i) }) s1 else s1) = s2
        have g2 : Oth k v s2 := by
          rw [← hs2]; split
          · exact Oth.modOp _ _ hk g1
          · exact g1
        generalize hs3 : (if ((r.op i).takes && decide ((r.op i).w.opc = 0x01) && decide ((r.src i).length = r.srcLen i)) = true then
            Machine.modOp id i (fun o => { o with phase := .done }) s2 else s2) = s3
        have g3 : Oth k v s3 := by
          rw [← hs3]; split
          · exact Oth.modOp _ _ hk g2
          · exact g2
        have g4 : Oth k v (Machine.flushOp id i s3).1 := Oth.flushOp _ hk g3
        split
        · next e4 => rw [e4] at g4; exact g4
        · next e4 => rw [e4] at g4; exact g4

theorem Oth.settleOps {k id : Nat} {v : Option Req} {s : State} (l : List Nat) (hk : k ≠ id) (h : Oth k v s) : Oth k v (Machine.settleOps id l s).1 := by
  induction l generalizing s with
  | nil => exact h
  | cons i t ih =>
    have g := Oth.settleOp i hk h
    unfold Machine.settleOps
    split
    · next e => rw [e] at g; exact g
    · next e => rw [e] at g; exact ih g

theorem Oth.fencePort {k id : Nat} {v : Option Req} {s : State} (p : Bool) (hk : k ≠ id) (h : Oth k v s) : Oth k v (Machine.fencePort id p s) := by
  unfold Machine.fencePort
  split
  · exact h
  · repeat' split
    all_goals (repeat' first | with_reducible assumption | (intro r; rfl) | with_reducible apply Oth.modBuf | with_reducible apply Oth.modOp | with_reducible apply Oth.modReq | with_reducible apply Oth.emitWr | with_reducible apply Oth.emitRd | with_reducible apply Oth.emit | with_reducible apply Oth.reqViol)

theorem Oth.endChain {k id : Nat} {v : Option Req} {s : State} (o : Outcome) (hk : k ≠ id) (h : Oth k v s) : Oth k v (Machine.endChain id o s) :=
  (endChain_req_ne o s hk).trans h

theorem Oth.endDone {k id : Nat} {v : Option Req} {s : State} (hk : k ≠ id) (h : Oth k v s) : Oth k v (Machine.endDone id s) := by
  unfold Machine.endDone
  repeat' split
  all_goals first | exact h | exact Oth.endChain _ hk h

theorem Oth.settle {k id : Nat} {v : Option Req} {s : State} (hk : k ≠ id) (h : Oth k v s) : Oth k v (Machine.settle id s) := by
  unfold Machine.settle
  split
  · exact h
  · next r hr =>
    split
    · exact h
    · dsimp only
      have g1 : Oth k v (Machine.settleOps id (List.range r.ops.length) (Machine.startBufs id s)).1 := Oth.settleOps _ hk (Oth.startBufs hk h)
      split
      · next e => rw [e] at g1; exact Oth.endChain _ hk g1
      · next s1 e =>
        rw [e] at g1
        have g2 : Oth k v (Machine.settleOps id (List.range r.ops.length) (Machine.startBufs id s1)).1 := Oth.settleOps _ hk (Oth.startBufs hk g1)
        split
        · next e2 => rw [e2] at g2; exact Oth.endChain _ hk g2
        · next e2 =>
          rw [e2] at g2
          split
          · exact g2
          · split
            · exact Oth.endDone hk g2
            · exact g2
/-- An ended request stays as it is while others move on. -/

theorem ended_settleAll {k : Nat} {r : Req} {s : State} (h : s.req k = some r) (hp : r.phase = .ended) : (settleAll s).req k = some r := by
  unfold settleAll
  generalize s.reqs = l
  induction l generalizing s with
  | nil => exact h
  | cons a l ih =>
    refine ih ?_
    dsimp only
    by_cases e : k = a.id
    · rw [← e]
      unfold settle
      rw [h]
      dsimp only
      rw [if_pos (Or.inl (by rw [hp]; decide))]
      exact h
    · exact Oth.settle e h

end Sys2Proof.Machine
end

