-- ==== Sys2Proof/WellFormed.lean ====
section
/-!
DEFINITION. Which commands the boundary of the engine can carry: the ranges of operands that the constructor types leave open.
The meanings are total on every command, well-formed or not.
-/

namespace Sys2Proof

/-- Slots arrive whole (R71): 32 bytes each, one or two to a read (R68). -/
def slotsOk (data : Bytes) : Bool := decide (data.length = 32 ∨ data.length = 64)

/-- Operands within what the sender or the answering unit can say. -/
def Instr.wf : Instr → Bool
  | .fuseReadDone f => decide (f.uds.length = 32 ∧ f.lbs.length = 32)
  | .entryCacheRead _ _ slots => decide (1 ≤ slots ∧ slots ≤ 2)
  | .ringSlotReadReturn _ _ data _ => slotsOk data
  | .bootSlotPoll (.ok data) => decide (data.length = 128)
  | .rescueCopy _ _ (.ok data) => decide (data.length = 32)
  | .descriptorFetchReturn _ data => decide (data.length = 48 ∨ data.length = 16)
  | .dcElementGrant _ data moves => decide (data.length ≤ 64 ∧ (data ≠ [] ∨ moves = true))
  | .dcPacePulse src => decide (1 ≤ src.toNat ∧ src.toNat ≤ 0x10)
  | .genLoadDone image => decide (image.length ≤ 262144)
  | _ => true

end Sys2Proof
end

