-- ==== Sys2Proof/Tests/Slice0.lean ====
section
/-!
SUPPORT. Tests: the smoke tests of WellFormed, states that meet the hypotheses of the statements (one theorem a statement, one part a clause, at the
edge of the clause's range), and a few single steps whose results the spec works out. A hypothesis on a value that the model leaves open (that a blob or a
frame authenticates, say) has no witness: Config gives those functions no value (notes/assumptions/4.md); the hypotheses beside it are met.
-/

set_option Elab.async false

namespace Sys2Proof.Tests
open Sys2Proof.Machine

/-! ### Small states -/

/-- The owner, a stranger, and a debug probe. -/
def boss : Who := ⟨1, .secure, false⟩
def other : Who := ⟨9, .nonsecure, false⟩
def probe : Who := ⟨0x40, .secure, true⟩

/-- A serving engine that master 1 owns, with the words given in effect. -/
def up (l : List (Reg × Word)) : State :=
  let s : State := { State.reset with
    start := { State.reset.start with rst := false, osc := true, cleared := true, kat := true, fuses := true, serving := true, phase := 7 }
    owner := { st := .owned, mid := 1, cause := 1 } }
  modGen (fun g => { g with act := l.foldl (fun c p => s.setWord c p.1 p.2) {} }) s

/-- Tenant 0 is enabled and bound to master 1 with both rights; its quota allows every class. -/
def t0 : List (Reg × Word) := [(.ownTenEn, 1), (.ownBind 0, 0xC01), (.ownQuota 0, 0x70040)]

/-- Channel 0 is held by tenant 0. -/
def c0 : List (Reg × Word) := (.ownAssign 0, 1) :: t0

/-- The state with its ring 0 of tenant 0, its channel 0, its tile, or its tenant 0 set. -/
def ring (q : Sq) (s : State) : State := modSq 0 0 (fun _ => q) s
def chan (c : Chan) (s : State) : State := modDc 0 (fun _ => c) s
def ten (t : Tenant) (s : State) : State := modTen 0 (fun _ => t) s

/-- A request of tenant 0 that runs operation words, and the state with it in flight. -/
def req (ops : List OpSt) : Req := { id := 7, tenant := 0, origin := .ring 0, phase := .running, ops := ops }
def withReq (r : Req) (s : State) : State := modReqs (fun _ => [r]) s

/-! ### WellFormed: an ill-formed term for each check -/

def zero32 : Bytes := zeros 32
def fuses (n m : Nat) : FuseWord :=
  { uds := zeros n, lbs := zeros m, state := 0, bootBase := 0, bootK := 0, udsErase := false, lbsErase := false, readOk := true }

theorem test_wf_fuse : (Instr.fuseReadDone (fuses 32 32)).wf = true ∧ (Instr.fuseReadDone (fuses 31 32)).wf = false ∧
    (Instr.fuseReadDone (fuses 32 33)).wf = false := by decide +kernel
theorem test_wf_cache_read : (Instr.entryCacheRead 0 0 1).wf = true ∧ (Instr.entryCacheRead 0 0 0).wf = false ∧ (Instr.entryCacheRead 0 0 3).wf = false := by decide +kernel
theorem test_wf_slots : (Instr.ringSlotReadReturn 0 0 (zeros 64) .clean).wf = true ∧ (Instr.ringSlotReadReturn 0 0 (zeros 33) .clean).wf = false := by decide +kernel
theorem test_wf_boot : (Instr.bootSlotPoll (.ok (zeros 128))).wf = true ∧ (Instr.bootSlotPoll (.ok zero32)).wf = false := by decide +kernel
theorem test_wf_rescue : (Instr.rescueCopy 0 0 (.ok zero32)).wf = true ∧ (Instr.rescueCopy 0 0 (.ok [])).wf = false := by decide +kernel
theorem test_wf_descriptor : (Instr.descriptorFetchReturn 0 (zeros 48)).wf = true ∧ (Instr.descriptorFetchReturn 0 zero32).wf = false := by decide +kernel
theorem test_wf_element : (Instr.dcElementGrant 0 (zeros 64)).wf = true ∧ (Instr.dcElementGrant 0 []).wf = true ∧ (Instr.dcElementGrant 0 [] false).wf = false ∧ (Instr.dcElementGrant 0 (zeros 65)).wf = false := by decide +kernel
theorem test_wf_pulse : (Instr.dcPacePulse 16).wf = true ∧ (Instr.dcPacePulse 0).wf = false ∧ (Instr.dcPacePulse 17).wf = false := by decide +kernel
theorem test_wf_image : (Instr.genLoadDone []).wf = true ∧ (Instr.genLoadDone (List.replicate 262145 0)).wf = false := by
  constructor
  · decide
  · simp only [Instr.wf, List.length_replicate]; decide

/-! ### The hypotheses of the statements -/

/-- O2: with the count running and standing. -/
theorem witness_emptyQueueTicks : (up []).pending = [] ∧ (modOwn (fun o => { o with timeCtl := 1 }) (up [])).pending = [] ∧
    (up []).run = false ∧ (modOwn (fun o => { o with timeCtl := 1 }) (up [])).run = true := by decide +kernel

/-- O4. -/
theorem witness_invariant : State.reset.pending = [] ∧ Inv State.reset ∧ ∃ t, step State.reset = .next t := by
  refine ⟨rfl, ⟨fun n _ => ⟨?_, ?_, ?_⟩, ⟨rfl, rfl⟩, rfl, ⟨by decide, ?_⟩, by decide, by decide⟩, _, rfl⟩
  · have : State.reset.ten n = {} := rfl
    rw [this]
    have : queuedOf State.reset n = 0 := by
      unfold queuedOf
      simp [show ∀ m, (State.reset.sq n m).queued = 0 from fun _ => rfl]
    rw [this]
    unfold Ledger.balanced
    decide
  · have : State.reset.ten n = {} := rfl
    rw [this]
    unfold FpCnt.balanced
    decide
  · intro h m _
    exact rfl
  · intro r h
    cases h

/-- O6: out of power-on, and with the internal reset's clocks in band. -/
theorem witness_resetAndRelease : State.reset.start.rst = true ∧ State.reset.start.cause ≠ 2 ∧
    (let s := modClk (fun c => { c with ctl := { c.ctl with clean := 4 }, tile := { c.tile with clean := 4 }, aux := { c.aux with clean := 4 } }) (modStart (fun x => { x with cause := 2 }) State.reset)
    s.start.rst = true ∧ allInBand s = true) := by decide +kernel

/-- A start-up stage: reset released, with what the stages before it have done. -/
def stage (osc cleared kat fuses : Bool) : State := { State.reset with start := { State.reset.start with rst := false, osc := osc, cleared := cleared, kat := kat, fuses := fuses } }
def fuseWord (ok : Bool) : FuseWord := { uds := zeros 32, lbs := zeros 32, state := 0, bootBase := 0, bootK := 0, udsErase := false, lbsErase := false, readOk := ok }

/-- O7, stage by stage. -/
theorem witness_coldStartSteps :
    ((stage false false false false).start.rst = false ∧ (stage false false false false).start.osc = false ∧ (stage false false false false).start.phase = 1) ∧
    (starting (stage false false false false) = true ∧ (stage false false false false).start.osc = false) ∧
    (starting (stage true false false false) = true ∧ (stage true false false false).start.osc = true ∧ (stage true false false false).start.cleared = false) ∧
    ((stage true true false false).ret.asleep = false ∧ starting (stage true true false false) = true ∧ (stage true true false false).start.cleared = true ∧
      (stage true true false false).start.kat = false) ∧
    (starting (stage true true true false) = true ∧ (stage true true true false).start.kat = true ∧ (stage true true true false).start.fuses = false ∧
      (stage true true true false).sup.active = false ∧ (fuseWord true).readOk = true) ∧
    (let s := modRbg 0 (fun r => { r with st := .healthy }) (modRoots (fun r => { r with kU := some zero32 }) (stage true true true true))
     s.start.fuses = true ∧ s.roots.kU.isSome = true ∧ s.ident.ready = false ∧ rbgHealthy s = true ∧ healthyOf s 3 ≠ [] ∧ s.sup.active = false) ∧
    (starting (stage true true true true) = true ∧ (stage true true true true).start.fuses = true) := by decide +kernel

/-- The claim window with a leading claim of a priority. -/
def window (mid prio : BitVec 8) : State := modOwner (fun _ => { st := .claimOpen, leadMid := mid, leadPrio := prio }) (up [])

/-- O8: no claim leads; the same priority from a lower and from a higher master; the highest priority leads. -/
theorem witness_leadingClaim : (window 0 0).start.cleared = true ∧ boss.dbg = false ∧ (window 0 0).owner.st = .claimOpen ∧ boss.world = .secure ∧
    (1 : BitVec 8) ≠ 0 ∧ (window 0 0).owner.leadPrio < 1 ∧ ((window 2 255).owner.leadPrio = 255 ∧ boss.mid < (window 2 255).owner.leadMid) ∧
    (254 : BitVec 8) < (window 2 255).owner.leadPrio ∧ ((255 : BitVec 8) = (window 0 255).owner.leadPrio ∧ (window 0 255).owner.leadMid ≤ boss.mid) := by decide +kernel

/-- O9: with a leading claim of priority 1, and with none. -/
theorem witness_ownerElected : (window 2 1).owner.st = .claimOpen ∧ (window 2 1).owner.leadPrio ≠ 0 ∧ (window 0 0).owner.st = .claimOpen ∧
    (window 0 0).owner.leadPrio = 0 := by decide +kernel

def offered : State := modOwner (fun o => { o with st := .offered, offer := 5 }) (up [])
def heir : Who := ⟨5, .secure, false⟩

/-- O10: an offer to another master and to the owner; the accept of the master offered; of another, and one that meets an offer; GO = 0 of the owner, of the
target, of another, and before the first service point; the lapse. -/
theorem witness_handover : Takes (up []) boss .ownHandover ((5 : BitVec 8).setWidth 64) ∧ (5 : BitVec 8) ≠ (up []).owner.mid ∧
    Takes offered boss .ownHandover ((1 : BitVec 8).setWidth 64) ∧ (1 : BitVec 8) = offered.owner.mid ∧
    (offered.start.cleared = true ∧ heir.dbg = false ∧ offered.owner.st = .offered ∧ heir.mid = offered.owner.offer ∧ heir.world = .secure) ∧
    ((up []).owner.st ≠ .offered ∧ boss.mid ≠ offered.owner.offer ∧ (⟨5, .nonsecure, false⟩ : Who).world ≠ .secure) ∧
    (offered.start.serving = true ∧ offered.isOwner boss = true ∧ isTarget offered heir = true ∧ offered.isOwner other = false ∧ isTarget offered other = false ∧
      (modStart (fun x => { x with serving := false }) offered).start.cleared = true ∧ (modStart (fun x => { x with serving := false }) offered).start.serving = false) := by
  unfold Takes; decide +kernel

/-- O11: outside the window, from the non-secure world, of priority 0. -/
theorem witness_claimsIgnored : (up []).start.cleared = true ∧ boss.dbg = false ∧ (up []).owner.st ≠ .claimOpen ∧ other.world ≠ .secure ∧
    (window 0 0).owner.st = .claimOpen ∧ (0 : BitVec 8) = 0 := by decide +kernel

/-- O12: a handover by a stranger. -/
theorem witness_deniedWrites : portWrite (up []) (.ownHandover other 5) = some (other, .ownHandover, (5 : BitVec 8).setWidth 64) ∧
    Denies (up []) other .ownHandover ((5 : BitVec 8).setWidth 64) := by
  unfold Denies; decide +kernel

/-- O13: the staged AH_OWN_TEN_EN, AH_STAT_EV_PEND and AH_OWN_EV_EN. -/
theorem witness_registerWrites : (regAt (Reg.off .ownTenEn) = some .ownTenEn ∧ Reg.off .ownTenEn % 8 = 0 ∧ Reg.staged .ownTenEn = true ∧
      Takes (up []) boss .ownTenEn 0xFFFF ∧ (up []).gen.st = .idle) ∧
    ((BitVec.ofNat 22 (Reg.off .ownTenEn)).toNat = Reg.off .ownTenEn ∧ (BitVec.ofNat 22 (Reg.off .statEvPend)).toNat = Reg.off .statEvPend ∧
      Takes (up []) boss .statEvPend (~~~ 0)) ∧
    ((BitVec.ofNat 22 (Reg.off .ownEvEn)).toNat = Reg.off .ownEvEn ∧ Takes (up []) boss .ownEvEn (~~~ 0)) := by
  unfold Takes; decide +kernel

/-- O14: each misfit, and an offset that holds no register, at the top of the aperture. -/
theorem witness_misfitWrites : (up []).start.cleared = true ∧ (up []).clk.gated.toNat.testBit 24 = false ∧ (2 : BitVec 22).toNat % 4 ≠ 0 ∧
    (4 : BitVec 22).toNat % 8 ≠ 0 ∧ regAt ((0x3FFFF8 : BitVec 22).toNat / 8 * 8) = none := by decide +kernel

/-- O15: a reset of tenant 0 from both registers; one of tenant 1, which is disabled; one of a tenant in reset; the wait for a place. -/
theorem witness_tenantResetStarts : (Takes (up t0) boss .ownTrst ((0x8001 : BitVec 16).setWidth 64) ∧ (0x8001 : BitVec 16).toNat.testBit 0 = true ∧ (up t0).enabled 0 = true) ∧
    (Takes (up t0) boss (.tnCtl 0) 1 ∧ ((up t0).ten 0).inReset = false) ∧ (Takes (up t0) boss (.tnCtl 15) 1 ∧ (up t0).enabled 15 = false) ∧
    (Takes (ten { inReset := true } (up t0)) boss (.tnCtl 0) 1 ∧ ((ten { inReset := true } (up t0)).ten 0).inReset = true) ∧
    (let s := withReq { req [] with phase := .waiting } (ten { inReset := true } (up t0))
     (s.ten 0).rstWait = false ∧ { req [] with phase := .waiting } ∈ s.reqs ∧ Req.ofTenant { req [] with phase := .waiting } 0 = true) := by
  unfold Takes; decide +kernel

/-- O16: nothing of the tenant is in flight. -/
theorem witness_tenantResetEnds : ((ten { inReset := true } (up t0)).ten (0 : TenantIx).val).inReset = true ∧
    ∀ r ∈ (ten { inReset := true } (up t0)).reqs, r.ofTenant 0 = false := by decide +kernel

/-- A ring of 16 slots of which `n` are posted. -/
def posted (n : Nat) : Sq := { en := true, tail := n, queued := BitVec.ofNat 64 n }

/-- O17: the last slot is posted, with COUNT equal to the advance and above it. -/
theorem witness_doorbellTaken : Takes (ring (posted 15) (up t0)) boss (.dbSq 0 0) (BitVec.ofNat 64 (16 + 2 ^ 17 * 1)) ∧
    Takes (ring (posted 15) (up t0)) boss (.dbSq 0 0) (BitVec.ofNat 64 (16 + 2 ^ 17 * 2)) ∧
    doorbellDropped (ring (posted 15) (up t0)) 0 0 = false ∧ (16 % 32 + 32 - 15 % 32) % 32 ≤ 2 ^ (posted 15).k - occ (posted 15).k (posted 15).head (posted 15).tail ∧ 2 - min 2 1 ≠ 0 ∧
    (16 % 32 + 32 - 15 % 32) % 32 ≤ 2 ^ (posted 15).k - occ (posted 15).k { posted 15 with head := 1 }.headWas (posted 15).tail := by
  unfold Takes; decide +kernel

/-- O18: the first tail that does not fit, also in a paused ring; a ring that is disabled, and a tenant in reset. -/
theorem witness_doorbellClampedOrDropped : (Takes (ring (posted 15) (up t0)) boss (.dbSq 0 0) (BitVec.ofNat 64 (17 + 2 ^ 17 * 2)) ∧
      doorbellDropped (ring (posted 15) (up t0)) 0 0 = false ∧ 2 ^ (posted 15).k - occ (posted 15).k (posted 15).head (posted 15).tail < (17 % 32 + 32 - 15 % 32) % 32 ∧
      2 ^ (posted 15).k - occ (posted 15).k { posted 15 with head := 1 }.headWas (posted 15).tail < (17 % 32 + 32 - 15 % 32) % 32) ∧
    ((ring { posted 15 with paused := true } (up t0)).sq 0 0).paused = true ∧
    (Takes (up t0) boss (.dbSq 0 0) 0 ∧ ((up t0).sq 0 0).en = false) ∧
    (Takes (ten { inReset := true } (up t0)) boss (.dbSq 0 0) 0 ∧ ((ten { inReset := true } (up t0)).ten 0).inReset = true) := by
  unfold Takes; decide +kernel

/-- O19: an empty ring, and one that is not; the same SIZE and another one. -/
theorem witness_ringSetup : (Takes (up t0) boss (.sqBase 0 0) 0x1000 ∧ ((up t0).sq 0 0).en = false ∧ ((up t0).sq 0 0).head = ((up t0).sq 0 0).tail ∧ ((up t0).sq 0 0).queued = 0) ∧
    (Takes (ring (posted 1) (up t0)) boss (.sqCfg 0 0) 4 ∧ (posted 1).en ≠ false ∧ fld 4 4 0 = (posted 1).k ∧ fld 5 4 0 ≠ (posted 1).k) ∧
    Takes (up t0) boss (.sqSched 0 0) 0x181 := by
  unfold Takes; decide +kernel

/-- O20: a disabled ring with a fault, and one without voids. -/
theorem witness_ringDisableEnable : Takes (ring (posted 1) (up t0)) boss (.sqCtl 0 0) 0 ∧ Takes (ring { posted 1 with en := false, fault := true } (up t0)) boss (.sqCtl 0 0) 1 ∧
    ({ posted 1 with en := false, fault := true } : Sq).en = false ∧ (posted 1).voids = [] ∧ (posted 1).queued ≠ 0 := by
  unfold Takes; decide +kernel

/-- O21: the steps of the procedure in order. -/
theorem witness_ringRewrite : Takes (ring (posted 1) (up t0)) boss (.sqCtl 0 0) 3 ∧
    (((ring { posted 1 with pause := true } (up t0)).sq 0 0).pause = true ∧ ((ring { posted 1 with pause := true } (up t0)).sq 0 0).flight = []) ∧
    (Takes (ring { posted 1 with pause := true, paused := true } (up t0)) boss (.sqCtl 0 0) 7 ∧ ({ posted 1 with pause := true, paused := true } : Sq).paused = true) ∧
    ((ring { posted 1 with invalBusy := true } (up t0)).sq 0 0).invalBusy = true ∧ Takes (ring { posted 1 with pause := true } (up t0)) boss (.sqCtl 0 0) 1 ∧
    Takes (ring { posted 1 with fault := true } (up t0)) boss (.sqStat 0 0) 4 := by
  unfold Takes; decide +kernel

/-- All of memory is open to tenant 0 in both directions and worlds. -/
def open0 : List (Reg × Word) := (.accRegAttr 0 0, 0x3027) :: c0
/-- The head of a ring in memory, at its last slot. -/
def headAt (q : Sq) : State := ring { q with en := true } (up open0)

/-- O22: the two slots of two posted, with and without a region; two slots return, wanted and not; one of them ends in a bus error. -/
def inFlight (live : Bool) : Sq := { posted 2 with flight := [⟨0, [0, 32], false, false, live⟩] }
theorem witness_ringReads :
    (let s := ring (posted 2) (up open0)
     let q := s.sq 0 0
     q.nextSlot = 0 ∧ s.start.serving = true ∧ s.enabled 0 = true ∧ (s.ten 0).inReset = false ∧ q.en = true ∧ q.pause = false ∧ q.paused = false ∧ q.fault = false ∧ q.blocked = false ∧
       s.ret.asleep = false ∧ mayRead1 s 0 0 0 = true ∧ mayRead1 s 0 0 1 = true ∧ roomFor s q 2 = true ∧ check s s.gen.act (some 0) q.dbWorld .read 0 64 = none) ∧
    (let s := ring (posted 2) (up t0)
     mayRead1 s 0 0 0 = true ∧ mayRead1 s 0 0 1 = true ∧ roomFor s (s.sq 0 0) 2 = true ∧ check s s.gen.act (some 0) (s.sq 0 0).dbWorld .read 0 32 = some (0, 2)) ∧
    ((inFlight true).flight = ⟨0, [0, 32], false, false, true⟩ :: [] ∧ (inFlight false).flight = ⟨0, [0, 32], false, false, false⟩ :: [] ∧
      (zeros 64).length = 32 * [0, 32].length) ∧
    ((ring (inFlight true) (up t0)).sq 0 0).readAt (32 : BitVec 48).toNat = some ⟨0, [0, 32], false, false, true⟩ := by decide +kernel

/-- A ring of a class whose head is a chain without operations, ready at time 0. -/
def ready (cls : Nat) : Sq := { posted 1 with
  cfg := BitVec.ofNat 64 (0x101010004 + 2 ^ 20 * cls), cache := [(0, zero32)], posts := [⟨1, .secure, 0, some 0, none, false⟩], credit := 1 }
def grantable (l : List Nat) (run : Nat) : State :=
  modSch (fun c => { c with expRun := run }) (modCq 0 0 (fun c => { c with en := true }) (eachN l (fun c s => modSq 0 c (fun _ => ready c) s) (up t0)))

/-- O23: each class alone, and BULK behind EXPEDITE after six grants and after seven. -/
theorem witness_grantClass : admissibleIn (grantable [0, 1, 2] 7) 0 0 = true ∧ admissibleIn (grantable [1, 2] 7) 1 1 = true ∧ admissibleIn (grantable [1, 2] 7) 2 2 = true ∧
    (List.range 256).all (fun i => !admissibleIn (grantable [1, 2] 7) 0 i) = true ∧
    (List.range 256).all (fun i => !admissibleIn (grantable [2] 0) 0 i && !admissibleIn (grantable [2] 0) 1 i) = true ∧ 6 < 7 ∧
    (List.range 256).all (fun i => !admissibleIn (up t0) 0 i && !admissibleIn (up t0) 1 i && !admissibleIn (up t0) 2 i) = true := by decide +kernel

/-- O24: the SCHEDULED request of three is picked; nothing is admissible. -/
theorem witness_grantAdmits : (grantable [0, 1, 2] 6).start.serving = true ∧ (grantable [0, 1, 2] 6).ret.req = false ∧ (grantable [0, 1, 2] 6).ret.asleep = false ∧
    grantClass (turnRounds (markWaiting (grantable [0, 1, 2] 6))) = some 0 ∧ ((pickRing (turnRounds (markWaiting (grantable [0, 1, 2] 6))) 0).map Prod.fst) = some 0 := by decide +kernel
theorem witness_grantAdmitsNone : (up [(.ownTenEn, 0)]).start.serving = true ∧ grantClass (turnRounds (markWaiting (up [(.ownTenEn, 0)]))) = none := by
  have q : (turnRounds (markWaiting (up [(.ownTenEn, 0)]))).crs.queue = [] := by decide +kernel
  refine ⟨rfl, Sys2Proof.Machine.grantClass_of_disabled _ (fun n => ?_) (by rw [fwdReady, q])⟩
  have w : (up [(.ownTenEn, 0)]).word (up [(.ownTenEn, 0)]).gen.act .ownTenEn = 0 := by decide +kernel
  rw [State.enabled, enabledIn, w]
  simp [bitOf]

/-- The entry of a chain: a header's byte 2 (NOPS) and byte 3 (flags at bits 4 to 7 with NBUF), the rest zero. -/
def nopEntry : Bytes := zero32
def badEntry : Bytes := [0, 0, 0x90] ++ zeros 29
def admitted (e : Bytes) : Req := { req [] with phase := .admitted, entry := e }

/-- O25: an entry that fails its checks, one without operations, and the turn of the only request. -/
theorem witness_chainStarts : (Tests.withReq (admitted badEntry) (up t0)).req 7 = some (admitted badEntry) ∧ (admitted badEntry).phase = .admitted ∧
    inTurn (Tests.withReq (admitted badEntry) (up t0)) (admitted badEntry) = true ∧ (up t0).csSt 0 = .healthy ∧ (entryCheck badEntry false).isSome = true ∧
    entryCheck nopEntry false = none ∧ eNops nopEntry = 0 := by decide +kernel

/-- A request whose buffer 0 is being read, and one with an operation. -/
def reading (n : Nat) : Req := { req [] with bufs := [(0, { started := true, issued := n })], refs := [{ len := n }] }
def opOf (opc : Nat) : OpSt := { w := { opc := opc, poff := 0xFF }, key := some {} }

/-- O26: one byte is due; a COPY whose input is at hand. -/
theorem witness_dataArrives : (Tests.withReq (reading 1) (up t0)).req 7 = some (reading 1) ∧ ((reading 1).buf 0).started = true ∧ ((reading 1).buf 0).asking = false ∧
    0 < ((reading 1).buf 0).due ∧ ((reading 1).ref 0).kind = kFlat ∧ (req [opOf 1]).canStart 0 = true ∧ ((req [opOf 1]).op 0).w.opc = 0x01 := by decide +kernel

def waitOn (opc : Nat) : State := Tests.withReq (req [opOf opc]) (up t0)
def waitPair (opc : Nat) : Req := { req [opOf opc] with paired := true }
/-- An operation saved on a tile, and the state with it. -/
def savedOn (opc t : Nat) : Req := req [{ opOf opc with phase := .saved, tiles := [t] }]
def savedIn (opc t : Nat) : State := modTile t (fun u => { u with saved := [(7, 0)] }) (Tests.withReq (savedOn opc t) (up t0))
/-- Work of the engine itself, number 9. -/
def job (kind : Nat) (w : JobWork) : Job := { id := 9, kind := kind, work := w }
def jobOf (kind : Nat) (w : JobWork) (s : State) : State := modSch (fun c => { c with jobs := [{ id := 9, kind := kind, work := w }] }) s
/-- A middle part of a stream that is not open, and a public-key operation that waits for its hash. -/
def strayPart : Req := req [{ opOf 0x40 with w := { opc := 0x40, opt := 2, poff := 0xFF } }]

/-- O27: the highest cipher tile, anew and saved; a digest tile, anew and saved, and for a part whose stream is not open; a digest tile for work of the engine and
for a hash; a context that fails; a public-key tile, alone, as a pair, and for work of the engine. -/
theorem witness_tilesTaken :
    ((waitOn 0x19).req 7 = some (req [opOf 0x19]) ∧ tilesOf (req [opOf 0x19]) 15 none = some [15] ∧ tilesOpen (waitOn 0x19) = true ∧ kindOfW (opOf 0x19).w = 1 ∧
      waitsTile (waitOn 0x19) (req [opOf 0x19]) 0 = true ∧ streamPlace (waitOn 0x19) (req [opOf 0x19]) 0 15 = true ∧ prefersReserved (waitOn 0x19) 1 2 [15] = true ∧
      [15].all (mayTake (waitOn 0x19) 1 (7, 0)) = true) ∧
    (((savedOn 0x19 15).op 0).phase = .saved ∧ ((savedOn 0x19 15).op 0).tiles = [15] ∧ (7, 0) ∈ ((savedIn 0x19 15).tile 15).saved ∧ [15].all (mayTake (savedIn 0x19 15) 1 (7, 0)) = true) ∧
    (kindOfW (opOf 0x40).w = 2 ∧ isJob (waitOn 0x40) 2 (7, 0) = false ∧ [19].all (mayTake (waitOn 0x40) 2 (7, 0)) = true ∧ waitsTile (waitOn 0x40) (req [opOf 0x40]) 0 = true ∧
      streamPlace (waitOn 0x40) (req [opOf 0x40]) 0 19 = true ∧ isStream (opOf 0x40).w = false) ∧
    ((7, 0) ∈ ((savedIn 0x40 19).tile 19).saved ∧ [19].all (mayTake (savedIn 0x40 19) 2 (7, 0)) = true) ∧
    (let s := Tests.withReq strayPart (up t0)
     waitsTile s strayPart 0 = true ∧ streamPlace s strayPart 0 19 = true ∧ isStream (strayPart.op 0).w = true ∧ partFail s strayPart 0 = some (0x40, 0x31) ∧ [19].all (mayTake s 2 (7, 0)) = true) ∧
    (let s := jobOf 2 .generation (up t0)
     isJob s 2 (9, 0) = true ∧ onTile s 2 (9, 0) = false ∧ mayTake s 2 (9, 0) 19 = true) ∧
    (isService (waitOn 0x60) 2 (7, 0) = true ∧ onTile (waitOn 0x60) 2 (7, 0) = false ∧ mayTake (waitOn 0x60) 2 (7, 0) 19 = true) ∧
    ((req [opOf 0x63]).paired = false ∧ kindOfW (opOf 0x63).w = 3 ∧ tilesOf (req [opOf 0x63]) 20 none = some [20] ∧ waitsTile (waitOn 0x63) (req [opOf 0x63]) 0 = true ∧
      banksFor (waitOn 0x63) (7, 0) [20] = true) ∧
    (tilesOf (waitPair 0x63) 20 (some 21) = some [20, 21] ∧ banksFor (Tests.withReq (waitPair 0x63) (up t0)) (7, 0) [20, 21] = true) ∧
    (let s := jobOf 3 (.patch 0 false) (up t0)
     s.req 9 = none ∧ isJob s 3 (9, 0) = true ∧ onTile s 3 (9, 0) = false ∧ banksFor s (9, 0) [20] = true) := by and_intros <;> decide +kernel

/-- Request 7 runs on a tile, past a slice, while request 3 of class EXPEDITE waits, and every other tile of the kind is out of service. -/
def pressed (opc n : Nat) : State :=
  eachN (List.range 24) (fun t s => if t = n then s else modTile t (fun u => { u with st := .quarantined }) s)
    (modTile n (fun u => { u with run := some (7, 0) }) (modReqs (fun _ => [{ req [opOf opc] with id := 3, cls := 1 },
      req [{ opOf opc with phase := .running, tiles := [n], consumed := 4096 }]]) (up t0)))
def banks (a b : BankSt) (s : State) : State := modTile 20 (fun u => { u with bankA := a, bankB := b }) s
def pkReq (opc : Nat) (checked : Bool) : Req := req [{ opOf opc with phase := .running, tiles := [20], checked := checked }]
/-- Two public-key operations in the banks of a tile: 7 runs, 3 is resident; the class of 3 and what each has left. -/
def twoBanks (cls left7 left3 : Nat) : State := banks (.running 7 0) (.resident 3 0)
  (modReqs (fun _ => [{ req [{ opOf 0x63 with phase := .running, tiles := [20], checked := true, left := left7 }] with cls := 2 },
    { req [{ opOf 0x63 with phase := .saved, tiles := [20], checked := true, left := left3 }] with id := 3, cls := cls }]) (up t0))
/-- The running operation of tile 20 as its yield point leaves it. -/
def nowOf (s : State) (left : Nat) : State := modOp 7 0 (fun o => { o with left := min left (cyclesLeft s (7, 0)) }) s

/-- O28: on a cipher tile and on a digest tile; in a public-key tile: the running operation waits for a hash, the other is of a higher class, has been resident long,
has fewer cycles left, as many and an earlier number. -/
theorem witness_yields :
    (let s := pressed 0x19 15
     let p := (7, 0)
     tilesOpen s = true ∧ (s.tile 15).run = some p ∧ ((s.req 7).map (fun r => (r.op 0).phase)) = some .running ∧ ownOp s 1 p = true ∧ atSlice s 1 p = true ∧
       ((s.req 7).map (fun r => (r.op 0).disputed)) = some false ∧ ((s.req 7).map (fun r => (r.op 0).tiles)) = some [15] ∧ p ∉ pressing s 1 15 p ∧
       tileHealthy s 15 = true ∧ pressing s 1 15 p ≠ [] ∧ roomToSave s 1 15 = true) ∧
    (let s := pressed 0x40 16
     let p := (7, 0)
     (s.tile 16).run = some p ∧ ownOp s 2 p = true ∧ atSlice s 2 p = true ∧ ((s.req 7).map (fun r => (r.op 0).tiles)) = some [16] ∧ p ∉ pressing s 2 16 p ∧
       tileHealthy s 16 = true ∧ pressing s 2 16 p ≠ [] ∧ roomToSave s 2 16 = true) ∧
    (let s := banks (.running 7 0) (.resident 3 0) (modReqs (fun _ => [pkReq 0x70 true, { pkReq 0x63 true with id := 3 }]) (up t0))
     pkRunning s 20 = some (7, 0, false) ∧ bankOf (s.tile 20) true = .resident 3 0 ∧ s.req 7 = some (pkReq 0x70 true) ∧ ((pkReq 0x70 true).op 0).checked = true ∧
       isService s 2 (3, 0) = false ∧ isService s 2 (7, 0) = true) ∧
    (clsOf (twoBanks 1 5 5) 3 < clsOf (twoBanks 1 5 5) 7 ∧ isService (twoBanks 2 5 4) 2 (3, 0) = false ∧ clsOf (twoBanks 2 5 4) 3 = clsOf (twoBanks 2 5 4) 7 ∧
      cyclesLeft (nowOf (twoBanks 2 5 4) 5) (3, 0) < cyclesLeft (nowOf (twoBanks 2 5 4) 5) (7, 0) ∧
      cyclesLeft (nowOf (twoBanks 2 5 4) 4) (3, 0) = cyclesLeft (nowOf (twoBanks 2 5 4) 4) (7, 0)) := by and_intros <;> decide +kernel

/-- O29: in the check phase; behind it, with a hash that runs on a digest tile; an ML-DSA signature; a bank that is zeroized. -/
theorem witness_publicKeyPhases :
    (let s := banks (.running 7 0) .empty (Tests.withReq (pkReq 0x60 false) (up t0))
     tilesOpen s = true ∧ pkRunning s 20 = some (7, 0, false) ∧ s.req 7 = some (pkReq 0x60 false) ∧ ((pkReq 0x60 false).op 0).checked = false ∧ drawsBits ((pkReq 0x61 false).op 0).w = false ∧
       drawsBits ((pkReq 0x71 false).op 0).w = true) ∧
    (let s := modTile 16 (fun u => { u with run := some (7, 0) }) (banks (.resident 7 0) .empty (Tests.withReq (pkReq 0x70 true) (up t0)))
     bankOps (s.tile 20) = [] ++ (7, 0) :: [] ∧ (pkReq 0x70 true).hashDue 0 = true ∧ hashInput (pkReq 0x70 true) 0 = true ∧ runsDigest s (7, 0) = true ∧ 0 < (pkReq 0x70 true).ops.length) ∧
    (pkRunning (banks (.running 7 0) .empty (Tests.withReq (pkReq 0x74 true) (up t0))) 20 = some (7, 0, false) ∧ ((pkReq 0x74 true).op 0).w.opc = 0x74 ∧ ((pkReq 0x74 true).op 0).checked = true) ∧
    bankOf ((banks (.zeroizing 7) .empty (up t0)).tile 20) false = .zeroizing 7 := by and_intros <;> decide +kernel

def pairOp (d : Bool) (v : Option Nat) : Req := { req [{ opOf 0x19 with phase := .running, tiles := [0, 1], disputed := d, voter := v }] with paired := true }
def twoLeft (s : State) : State := eachN (List.range 14) (fun t s => modTile (t + 2) (fun u => { u with st := .quarantined }) s) s

/-- O30: with sixteen healthy tiles and with two; a vote that is open, and one with its voter. -/
theorem witness_pairsAndVotes : (Tests.withReq (pairOp false none) (up t0)).req 7 = some (pairOp false none) ∧ ((pairOp false none).op 0).phase = .running ∧
    ((pairOp false none).op 0).tiles.length = 2 ∧ ((pairOp false none).op 0).disputed = false ∧ ((pairOp false none).op 1).disputed = false ∧
    3 ≤ (healthyOf (up t0) (kindOfW ((pairOp false none).op 0).w)).length ∧
    ((pairOp false none).fwd = none ∧ (pairOp false none).lent = true ∧ (pairOp false none).hashDue 0 = false ∧ (healthyOf (twoLeft (up t0)) 1).length < 3) ∧
    (2 ∈ kindTiles 1 ∧ 2 ∉ ((pairOp true none).op 0).tiles ∧ tileFree (Tests.withReq (pairOp true none) (up t0)) 2 = true ∧ permitted (Tests.withReq (pairOp true none) (up t0)) 2 2 = true ∧
      ((pairOp true none).op 0).voter = none ∧ ((pairOp true none).op 0).disputed = true) ∧
    (((pairOp true (some 2)).op 0).voter = some 2 ∧ ((pairOp true (some 2)).op 0).tiles = [0, 1]) := by and_intros <;> decide +kernel

def running (opc t : Nat) : Req := req [{ opOf opc with phase := .running, tiles := [t], lastTile := t, checked := true, hashes := 2 }]

/-- O31: a digest whose input is whole, and a public-key operation with a result check; a hash that runs on a digest tile before the bank. -/
theorem witness_operationEnds : (let s := modTile 16 (fun u => { u with run := some (7, 0) }) (Tests.withReq (running 0x40 16) (up t0))
     s.req 7 = some (running 0x40 16) ∧ tilesOpen s = true ∧ mayEnd s (running 0x40 16) 0 = true ∧ kindOfW ((running 0x40 16).op 0).w ≠ 3) ∧
    (kindOfW ((running 0x63 20).op 0).w = 3 ∧ hasResultCheck ((running 0x63 20).op 0).w = true ∧
      mayEnd (banks (.running 7 0) .empty (Tests.withReq (running 0x63 20) (up t0))) (running 0x63 20) 0 = true) ∧
    (let s := modTile 16 (fun u => { u with run := some (7, 0) }) (waitOn 0x60)
     s.req 7 = some (req [opOf 0x60]) ∧ tilesOpen s = true ∧ ((req [opOf 0x60]).op 0).phase = .waiting ∧ (req [opOf 0x60]).hashDue 0 = true ∧ runsDigest s (7, 0) = true ∧
       (req [opOf 0x60]).whole ((req [opOf 0x60]).op 0).w.src = true) := by and_intros <;> decide +kernel

/-- O32: the highest tile may be tested; a cipher tile and a public-key tile at work; a tile that owes no forced round and one that owes one; a request of a ring. -/
theorem witness_groutAndWatchdogs : (tilesOpen (up t0) = true ∧ groutMay (up t0) 23 = true) ∧ tileHealthy (up t0) 0 = true ∧
    ((modTile 0 (fun u => { u with run := some (7, 0) }) (up t0)).tile 0).run.isSome = true ∧ (pkRunning (banks (.running 7 0) .empty (up t0)) 20).isSome = true ∧
    (((up t0).tile 0).forceDue = false ∧ ((modTile 0 (fun u => { u with forceDue := true }) (up t0)).tile 0).forceDue = true) ∧
    ((waitOn 0x19).req 7 = some (req [opOf 0x19]) ∧ (req [opOf 0x19]).isBoot = false ∧ (req [opOf 0x19]).foreign = false ∧ (req [opOf 0x19]).phase = .running) := by decide +kernel

def quarantined (q : BitVec 2) (st : TileSt) : State := modTile 23 (fun u => { u with st := st, qcount := q }) (up t0)

/-- O33: a tile after two quarantines and after one; a failed sequencer; one that stops with a request. -/
theorem witness_rejoinAndSequencers : (Takes (quarantined 2 .quarantined) boss .ownTileRejoin (BitVec.ofNat 64 (2 ^ 23)) ∧ ((quarantined 2 .quarantined).tile 23).st = .quarantined ∧
      gateAsked (quarantined 2 .quarantined) 23 = false) ∧ ((up t0).tile 23).st ≠ .quarantined ∧ ((quarantined 1 .testing).tile 23).st = .testing ∧
    (Takes (setCs 11 .failed (up t0)) boss .ownCsRejoin (BitVec.ofNat 64 (2 ^ 11)) ∧ (setCs 11 .failed (up t0)).csSt 11 = .failed) ∧ (up t0).csSt 11 ≠ .failed ∧
    ((setCs 11 .testing (up t0)).csSt 11 = .testing) ∧ ((waitOn 0x19).csSt 0 = .healthy ∧ 0 < csLoad (waitOn 0x19) 0) := by
  unfold Takes; decide +kernel

def life (n : BitVec 3) (s : State) : State := modRoots (fun r => { r with lc := n }) s
def keyed (s : State) : State := modKs (fun k => { k with kTag := some zero32 }) s
/-- An operation that loads a key: of action 0 (load), 1 (install) or 2 (unload). -/
def fwOp (action : Nat) (p : OpPhase) : Req := req [{ opOf 0x93 with w := { opc := 0x93, opt := action, poff := 0xFF }, phase := p }]

/-- O34: a load and an install of a blob that is no blob; a load with a healthy public-key and digest tile and with none; an unload of a handle to which nothing is bound. -/
theorem witness_keyCacheCommands :
    (let s := keyed (Tests.withReq (fwOp 0 .running) (up t0))
     s.req 7 = some (fwOp 0 .running) ∧ loadReady s (fwOp 0 .running) 0 0 = true ∧ s.ks.kTag.isSome = true ∧ blobCheck s (fwOp 0 .running) 0 false = .error (0x40, 0x60) ∧
       bankOrder s ≠ [] ∧ healthyOf s 2 ≠ [] ∧ healthyOf (pressed 0x40 16) 3 = []) ∧
    (let s := keyed (Tests.withReq (fwOp 1 .running) (up t0))
     loadReady s (fwOp 1 .running) 0 1 = true ∧ blobCheck s (fwOp 1 .running) 0 true = .error (0x40, 0x60)) ∧
    (let s := Tests.withReq (fwOp 2 .waiting) (up t0)
     s.req 7 = some (fwOp 2 .waiting) ∧ (fwOp 2 .waiting).canStart 0 = true ∧ ((fwOp 2 .waiting).op 0).w.opt % 4 = 2 ∧ s.reqs.any (bindsHandle (fwHandle ((fwOp 2 .waiting).par 0))) = false) := by decide +kernel

/-- O35: one operation of each kind at the start, in its turn; a draw without a generator; a statement without tiles and without a generator. -/
theorem witness_derivedOutputs : (waitOn 0x90).req 7 = some (req [opOf 0x90]) ∧ (waitOn 0x90).sup.active = false ∧ (req [opOf 0x90]).canStart 0 = true ∧ kilnFirst (waitOn 0x90) (7, 0) = true ∧
    (req [opOf 0x91]).canStart 0 = true ∧ kilnFirst (waitOn 0x91) (7, 0) = true ∧ (req [opOf 0x92]).canStart 0 = true ∧ kilnFirst (waitOn 0x92) (7, 0) = true ∧
    ((req [opOf 0x94]).canStart 0 = true ∧ drawTurn (waitOn 0x94) (req [opOf 0x94]) = true ∧ fgPr ((req [opOf 0x94]).par 0) = false ∧
      (generateAdd false (fgOut ((req [opOf 0x94]).par 0)) [] (genOrder 0) (waitOn 0x94)).1 = none) ∧
    ((req [opOf 0x95]).canStart 0 = true ∧ tilesOpen (waitOn 0x95) = true ∧ healthyOf (waitOn 0x95) 3 ≠ [] ∧ healthyOf (waitOn 0x95) 2 ≠ [] ∧ pkFirst (waitOn 0x95) (7, 0) = true ∧ signTiles (waitOn 0x95) = some (20, 21) ∧
      (generate 512 (genOrder (20 - 20)) (waitOn 0x95)).1 = none ∧ healthyOf (pressed 0x95 0) 3 = []) := by decide +kernel

def endedReq (o : Origin) (p : Place) : Req := { req [] with phase := .ended, origin := o, place := p, outcome := some ⟨0, 0, 0⟩ }

/-- O36: a record that fits, one that no region takes, one of a ring that has faulted, one of the reservoir, of the boot ring and of a peer. -/
theorem witness_recordsWritten :
    (let r := endedReq (.ring 0) .cq
     let s := Tests.withReq r (up open0)
     s.req 7 = some r ∧ recordReady s r = true ∧ (s.cq 0 0).fault = false ∧ (s.cq 0 0).rescued = [] ∧ reqCheck s r .write ((s.cq 0 0).slotAddr (s.cq 0 0).tail) 32 = none ∧
       reqCheck (Tests.withReq r (up t0)) r .write 0 32 = some (0, 2) ∧ recordReady (modCq 0 0 (fun c => { c with fault := true }) s) r = true ∧
       ((modCq 0 0 (fun c => { c with fault := true }) s).cq 0 0).fault = true) ∧
    recordReady (up t0) (endedReq (.ring 0) .reservoir) = true ∧ recordReady (up t0) (endedReq (.boot 0) .boot) = true ∧
    recordReady (up t0) (endedReq (.course 0 0 0) .course) = true := by decide +kernel

/-- O37: a finished reservoir record with a region and with none, and no such record; one rescued record, and two; a read-back of a fence on each port; a bus error of
a record that was sent with a later one, and of one that no request sent; bus errors of a request's read and write. -/
theorem witness_recordsMoved :
    (let r := { endedReq (.ring 0) .reservoir with phase := .waiting }
     let s := modCq 0 0 (fun c => { c with en := true }) (Tests.withReq r (up open0))
     oldestReservoir s 0 0 = some r ∧ (s.cq 0 0).en = true ∧ (s.cq 0 0).occ + resvOf s 0 0 < 2 ^ (s.cq 0 0).k ∧ (s.cq 0 0).fault = false ∧ (s.cq 0 0).rescued = [] ∧
       reqCheck s r .write ((s.cq 0 0).slotAddr (s.cq 0 0).tail) 32 = none ∧ (reqCheck (modCq 0 0 (fun c => { c with en := true }) (Tests.withReq r (up t0))) r .write 0 32).isSome = true) ∧
    oldestReservoir (up t0) 0 0 = none ∧ ((up t0).cq 0 0).en = false ∧
    (let r := { endedReq (.ring 0) .cq with phase := .rescued 383 }
     let s := modCq 0 0 (fun c => { c with rescued := [(7, 383)] }) (Tests.withReq r (up open0))
     let s2 := modCq 0 0 (fun c => { c with rescued := [(7, 383), (8, 0)] }) (modReqs (fun _ => [r, { r with id := 8, phase := .rescued 0 }]) (up open0))
     (s.cq 0 0).rescued = [(7, 383)] ∧ (s.cq 0 0).fault = false ∧ s.req 7 = some r ∧ r.phase = .rescued 383 ∧ reqCheck s r .write ((s.cq 0 0).slotAddr (s.cq 0 0).tail) 32 = none ∧
       (s2.cq 0 0).rescued = (7, 383) :: [(8, 0)] ∧ (s2.req 8).map Req.phase = some (.rescued 0)) ∧
    (let r := { endedReq (.ring 0) .cq with port0 := some 0, port1 := some 8 }
     (Tests.withReq r (up t0)).req 7 = some r ∧ r.phase = .ended ∧ r.port0.isSome = true ∧ r.port1.isSome = true ∧ r.priv = some 0 ∧
       { r with origin := .boot 0 }.priv = none) ∧
    (let r := endedReq (.ring 0) .cq
     let s := modSent (fun _ => [r, { r with id := 8 }]) (modCq 0 0 (fun c => { c with tail := 2 }) (up t0))
     ((s.sent.filter (fun r => r.ofCq 0 0)).dropWhile (fun r => decide (r.id ≠ 7))).map Req.id = [7, 8] ∧ [7, 8].Nodup ∧
       (s.sent.filter (fun r => r.ofCq 0 0)).dropWhile (fun r => decide (r.id ≠ 9)) = []) ∧
    ((Tests.withReq (reading 1) (up t0)).req 7 = some (reading 1) ∧ (reading 1).phase = .running ∧ (reading 1).errBuf (0 : BitVec 48).toNat .read none = some 0 ∧
      ((reading 1).buf 0).started = true ∧ ((reading 1).op 0).disputed = false) := by and_intros <;> decide +kernel

/-- A completion ring of 16 slots with `n` of them occupied. -/
def occupied (n : Nat) : State := modCq 0 0 (fun c => { c with tail := n }) (up t0)

/-- O38: the whole occupancy, one slot more, all 16 slots, and one behind the head. -/
theorem witness_headWrites : Takes (occupied 3) boss (.dbCq 0 0) ((3 : BitVec 17).setWidth 64) ∧ Takes (occupied 3) boss (.dbCq 0 0) ((4 : BitVec 17).setWidth 64) ∧
    Takes (occupied 3) boss (.dbCq 0 0) ((16 : BitVec 17).setWidth 64) ∧ Takes (occupied 3) boss (.dbCq 0 0) ((17 : BitVec 17).setWidth 64) ∧
    (let c := (occupied 3).cq 0 0
     (3 % 32 + 32 - c.head % 32) % 32 ≤ c.occ ∧ c.occ < (4 % 32 + 32 - c.head % 32) % 32 ∧ (16 % 32 + 32 - c.head % 32) % 32 ≤ 2 ^ c.k ∧ 2 ^ c.k < (17 % 32 + 32 - c.head % 32) % 32) := by
  unfold Takes; decide +kernel

/-- O39: a ring that may be set up, one that may not, with the same SIZE and another; one that a ring feeds; a cleared fault; a timer. -/
theorem witness_completionRings :
    (Takes (up t0) boss (.cqBase 0 0) 0x1000 ∧ cqMutable (up t0) 0 0 = true ∧ Takes (up t0) boss (.cqCfg 0 0) 5) ∧
    (let s := modCq 0 0 (fun c => { c with en := true }) (up t0)
     cqMutable s 0 0 = false ∧ fld 4 4 0 = (s.cq 0 0).k ∧ fld 5 4 0 ≠ (s.cq 0 0).k ∧ Takes s boss (.cqCtl 0 0) 0 ∧ (cqFed s 0 0 || cqBusy s 0 0) = false ∧
       cqFed (ring (posted 0) s) 0 0 = true ∧ 0 < ({ coal := 1, cfg := 0x104 } : Cq).coal ∧ ({ coal := 1, cfg := 0x104 } : Cq).coalCnt ≤ ({ coal := 1, cfg := 0x104 } : Cq).coal) ∧
    (Takes (up t0) boss (.cqCtl 0 0) 1) ∧
    (let r := { endedReq (.ring 0) .cq with phase := .rescued 0 }
     let s := modCq 0 0 (fun c => { c with fault := true, rescued := [(7, 0)] }) (Tests.withReq r (up ((.ownRescueBase, 0x10000) :: t0)))
     Takes s boss (.cqStat 0 0) (BitVec.ofNat 64 (2 ^ 26)) ∧ (s.cq 0 0).rescued = (7, 0) :: [] ∧ (s.cq 0 0).fault = true ∧ s.req 7 = some r ∧
       check s s.gen.act none .secure .read (rescueAddr s 0 0) 32 = none) ∧
    (let s := modCq 0 0 (fun c => { c with timer := true, cfg := 0x100000104 }) (up t0)
     (s.cq 0 0).timer = true ∧ (s.cq 0 0).coalTime ≠ 0) := by
  unfold Takes; decide +kernel

/-- O40: the snapshot of an enabled tenant. -/
theorem witness_ledgerSnapshot : Takes (up t0) boss (.tnLedgerCtl 0) 1 ∧ (up t0).enabled 0 = true ∧ (up t0).isOwner boss = true ∧
    (up t0).boundSetup boss 0 = true := by
  unfold Takes; decide +kernel

/-- A key slot whose active bank holds an AES-256 key, and one whose pending bank the owner has staged or committed. -/
def aesAttr : Bytes := mkAttr 1 0 32 3 1 0 0 0x7E 0 0
def active : Slot := { bankA := { attr := aesAttr, material := zero32 }, hasCur := true }
def staged : Slot := { bankA := { attr := aesAttr, material := zero32 }, staged := true, cur := true }
def held0 (v : Slot) : State := modKs (fun k => { k with isOpen := true, openSlot := 5 }) (modSlot 5 (fun _ => v) (modOwn (fun o => { o with ksSel := 5 }) (life 3 (keyed (up t0)))))
def slot5 (v : Slot) : State := modKs (fun k => { k with isOpen := false }) (held0 v)

/-- O41: an empty, an active and a held slot; a W register with and without a staged bank; COMMIT and ABORT, before and behind the verification. -/
theorem witness_ownerReplacesKey : (Takes (slot5 {}) boss .ksCmd 1 ∧ (slot5 {}).ks.kTag.isSome = true ∧ courseLocked (slot5 {}) (ksSel (slot5 {})) = false ∧
      (slot5 {}).ks.isOpen = false ∧ ((slot5 {}).slot 5).zeroing = false ∧ ((slot5 {}).slot 5).draining = false ∧ ((slot5 {}).slot 5).code = 0 ∧ ((slot5 active).slot 5).code = 1 ∧
      ((slot5 staged).slot 5).code ∉ [0, 1, 5]) ∧
    ((modSup (fun p => { p with active := true }) (slot5 active)).sup.active = true ∧ (slot5 active).sup.active = false ∧ (modSup (fun p => { p with active := true }) (held0 staged)).sup.active = true) ∧
    courseLocked (modOwn (fun o => { o with ksSel := 5 }) (up [(.ownCourse 0, 0x100050011)])) 5 = true ∧
    (Takes (slot5 active) boss .ksCmd 2 ∧ ((slot5 active).slot (ksSel (slot5 active))).code = 1 ∧ ((slot5 { active with corrupt := true }).slot 5).code = 5) ∧
    (Takes (held0 staged) boss (ksBankReg .wnext) 9 ∧ ksStaged (held0 staged) = true ∧ (held0 staged).ks.openc = false ∧ (held0 staged).sup.active = false ∧ ksStaged (slot5 {}) = false) ∧
    (Takes (held0 staged) boss .ksCmd 3 ∧ (held0 staged).ks.isOpen = true ∧ ((held0 staged).slot 5).verify = false ∧ ((held0 { staged with verify := true }).slot 5).verify = true) ∧
    Takes (held0 staged) boss .ksCmd 4 := by
  unfold Takes; decide +kernel

/-- O42: a bank that passes and one that has no attribute record, in a supply warning and outside it; a bank that drains, one bound; ZEROIZE, of a held slot and of one
with a bank that is bound; a scan; M1, M0, and a locked register. -/
theorem witness_slotsSwapAndDrain :
    (let s := held0 { staged with staged := false, verify := true, cur := true }
     verifiable s 5 = true ∧ KsDefer.verify 5 ∉ s.ks.deferred ∧ s.sup.active = false ∧ ownerHolds s 5 = true ∧ verifyErr s 5 = 0 ∧ verifyErr (held0 { verify := true }) 5 ≠ 0 ∧
       verifiable (held0 { verify := true }) 5 = true ∧ verifiable (modSup (fun p => { p with active := true }) s) 5 = true) ∧
    (let s := slot5 { active with draining := true }
     (s.slot 5).zeroing = false ∧ (s.slot 5).draining = true ∧ boundCount s 5 (!(s.slot 5).cur) = 0 ∧
       boundCount (Tests.withReq (req [{ opOf 0x20 with key := some { slot := some (5, true) } }]) s) 5 (!(s.slot 5).cur) ≠ 0) ∧
    (let s := slot5 { active with zeroing := true }
     (s.slot 5).zeroing = true ∧ (s.slot 5).staged = false ∧ (s.slot 5).verify = false ∧ boundCount s 5 true = 0 ∧ boundCount s 5 false = 0 ∧
       boundCount (Tests.withReq (req [{ opOf 0x20 with key := some { slot := some (5, true) } }]) s) 5 true ≠ 0) ∧
    (Takes (slot5 active) boss .ksCmd 5 ∧ ownerHolds (slot5 active) 5 = false ∧ courseLocked (slot5 active) 5 = false ∧ (slot5 active).slot (ksSel (slot5 active)) ≠ {} ∧ ((slot5 active).slot 5).corrupt = false ∧
      ((slot5 active).slot 5).hasCur = true ∧ Takes (held0 staged) boss .ksCmd 5 ∧ ownerHolds (held0 staged) 5 = true ∧ courseLocked (held0 staged) 5 = false) ∧
    (Takes (slot5 active) boss .ksCmd 6 ∧ fld (slot5 active).own.measSel 2 0 = 1 ∧ extendRefused (slot5 active) 1 = false ∧
      extendRefused (modMeas (fun m => { m with lock := 2 }) (slot5 active)) 1 = true ∧ fld (modOwn (fun o => { o with measSel := 0 }) (slot5 active)).own.measSel 2 0 = 0) := by
  unfold Takes; and_intros <;> decide +kernel

/-- The entropy source: its last samples, and the count of its window. -/
def source (e : Entropy) : State := modEs (fun _ => e) (life 1 (up []))
def rawUp (n : Nat) : State := modOwn (fun o => { o with esCtl := 1 }) (source { st := .healthy, raw := List.replicate n true })

/-- O43: the 41st equal sample and the 40th; the 800th recurrence and the 799th; the 1024th sample of the start-up test; the pool with 7 and 8 blocks. -/
theorem witness_entropySource :
    ((source {}).start.osc = true ∧ (source { st := .recovering, fails := 2 }).es.st = .recovering ∧
      (let e : Entropy := { st := .recovering, run := 40, last := true, winFirst := true, winSame := 1, winPos := 100 }
       41 ≤ (esAdvance true e).run ∧ (esAdvance true { e with run := 39 }).run < 41) ∧
      (let e : Entropy := { st := .healthy, run := 1, last := false, winFirst := true, winSame := 799, winPos := 900 }
       (esAdvance true e).run < 41 ∧ 800 ≤ (esAdvance true e).winSame ∧ (esAdvance true { e with winSame := 798 }).winSame < 800) ∧
      (source { tested := 1023 }).es.tested + 1 = 1024) ∧
    (source { st := .failed }).es.st = .failed ∧
    (1024 ≤ (source { samples := List.replicate 1024 true, pool := List.replicate 7 [] }).es.samples.length ∧ (source { pool := List.replicate 7 [] }).es.pool.length < 8 ∧
      8 ≤ (source { pool := List.replicate 8 [] }).es.pool.length ∧ (∀ k : Fin 4, ((source {}).rbg k.val).st ≠ .starved) ∧
      (let s := modRbg 3 (fun r => { r with st := .starved }) (source { samples := List.replicate 1024 true })
       1024 ≤ s.es.samples.length ∧ s.sup.active = false ∧ (s.rbg 3).st = .starved ∧ (∀ j : Fin 3, (s.rbg j.val).st ≠ .starved) ∧ s.es.pool = [])) ∧
    Takes (source { st := .failed }) boss .esCtl 2 ∧
    (readable (rawUp 32) boss .esRaw = true ∧ rawOn (rawUp 32) = true ∧ (rawUp 32).es.raw.length = 32 ∧ (rawUp 31).es.raw.length < 32 ∧ rawOn (source {}) = false) := by
  unfold Takes; decide +kernel

/-- O44: a healthy generator with two blocks and without any; an uninstantiated one with and without K_tag; a restart of the highest. -/
theorem witness_generators : (let s := modRbg 3 (fun r => { r with st := .healthy }) (source { pool := [[4], [5]] })
     (s.rbg (3 : Fin 4).val).st = .healthy ∧ s.sup.active = false ∧ s.es.pool = [4] :: [5] :: [] ∧ (source {}).es.pool = []) ∧
    ((source { pool := [[4]] }).start.cleared = true ∧ (source { pool := [[4]] }).sup.active = false ∧ ((source { pool := [[4]] }).rbg 0).st = .uninit ∧ (source { pool := [[4]] }).ks.kTag = none ∧
      (keyed (source { pool := [[4]] })).ks.kTag.isSome = true) ∧
    Takes (source {}) boss .rbgCtl (BitVec.ofNat 64 (2 ^ 3)) := by
  unfold Takes; decide +kernel

/-- A descriptor of one element of 4 bytes, from 0x1000 to 0x2000, with the bits of CTL given and NEXT 0xFFFF. -/
def desc (ctl : Nat) : Bytes := toLE 6 0x1000 ++ [0xFF, 0xFF] ++ toLE 6 0x2000 ++ zeros 6 ++ toLE 4 (3 + ctl) ++ zeros 24
/-- A trowel instruction. -/
def ins (opc regs f i32 i64 : Nat) : Bytes := [BitVec.ofNat 8 opc, BitVec.ofNat 8 regs] ++ toLE 2 f ++ toLE 4 i32 ++ toLE 8 i64
def at_ (c : Chan) : State := chan c (up open0)

/-- O45: an idle channel whose FIRST is its last descriptor and one past it; paused, stopped and running ones; each class of its registers; a record
head at the occupancy; a pulse of the highest source at 14 and at 15 credits. -/
theorem witness_channelControl :
    (dcAssigned (up t0) 0 = false ∧ Takes (up t0) boss (.dcCtl 0) 1 ∧ Takes (up t0) boss (.dcCtl 0) 2 ∧ Takes (up t0) boss (.dcCtl 0) 0 ∧ Takes (up t0) boss (.dcCtl 0) 4 ∧
      Takes (up t0) boss (.dcCtl 0) 0xA ∧ Takes (up t0) boss (.dcCtl 0) 0x10) ∧
    (dcAssigned (up c0) 0 = true ∧ Takes (up c0) boss (.dcCtl 0) 1 ∧ Takes (up c0) boss (.dcCtl 0) 2 ∧ Takes (up c0) boss (.dcCtl 0) 0 ∧ Takes (up c0) boss (.dcCtl 0) 4 ∧
      Takes (up c0) boss (.dcCtl 0) 0xA ∧ Takes (up c0) boss (.dcCtl 0) 0x10) ∧
    ((at_ {}).dc 0).count = 1 ∧ fld ((at_ {}).dc 0).first 15 0 = 0 ∧ fld ((at_ { first := 1 }).dc 0).first 15 0 = 1 ∧
    check (at_ {}) (at_ {}).gen.act (some (dcTen (at_ {}) 0)) (dcWorld (at_ {}) 0) .read (({} : Chan).itemAddr 0) 48 = none ∧
    (((at_ { st := .paused, held := some (desc 0) }).dc 0).st = .paused ∧ ((at_ { st := .stopped }).dc 0).fault = false ∧ ((at_ { st := .stopped, fault := true }).dc 0).fault = true ∧
      ((at_ { st := .running }).dc 0).lines = [] ∧ ((at_ { st := .running }).dc 0).recEn = false) ∧
    (Takes (up c0) boss (dcSetupReg 0 .cfg) 1 ∧ Takes (up c0) boss (dcSetupReg 0 .recCfg) 0x104 ∧ ({ recCfg := 0x104 } : Chan).recEn = true ∧
      fld ((Reg.dcRecCfg 0).write ({ recCfg := 0x104 } : Chan).recCfg (~~~ 0) 0x105) 3 0 ≠ ({ recCfg := 0x104 } : Chan).recK) ∧
    (Takes (at_ { recTail := 3 }) boss (.dcRecHead 0) ((3 : BitVec 11).setWidth 64) ∧ (3 % 32 + 32 - 0) % 32 ≤ ({ recTail := 3 } : Chan).recOcc) ∧
    (dcuOn (up c0) = true ∧ (16 : BitVec 6).toNat = 16 ∧ ((at_ { st := .running, psrc := 16, credit := 14 }).dc 0).credit < 15 ∧
      15 ≤ ((at_ { st := .running, psrc := 16, credit := 15 }).dc 0).credit ∧ 16 < (17 : BitVec 6).toNat ∧ (0 : BitVec 6).toNat = 0) := by
  unfold Takes; and_intros <;> decide +kernel

/-- O46: a unit with and without its credit and place; a fetched descriptor of each kind; an element whose check passes and fails; the completion
point with the last descriptor, with a post, and with a record that no region takes. -/
theorem witness_channelUnits :
    (({ st := .waiting, held := some (desc 0) } : Chan).needsCredit = false ∧ ({ st := .running, psrc := 1, held := some (desc 0) } : Chan).needsCredit = true ∧
      ({ held := some (desc 0), recCfg := 0x104, recTail := 16 } : Chan).place = false ∧ ({ held := some (desc 0), recCfg := 0x104, recTail := 16 } : Chan).needsPlace = true) ∧
    ((desc 0).length = ({} : Chan).itemLen ∧ (readDesc (desc (2 ^ 27))).reservedOk = false ∧ (readDesc (desc 0)).reservedOk = true ∧ (readDesc (desc (18 * 2 ^ 14))).psrc = 18 ∧
      (readDesc (desc (17 * 2 ^ 14))).psrc = 17 ∧ (readDesc (desc (3 * 2 ^ 19))).punit = 3 ∧ (readDesc (desc 0)).extents = true ∧ (readDesc (toLE 6 (2 ^ 48 - 1) ++ (desc 0).drop 6)).extents = false ∧
      0 < (readDesc (desc 0)).count0) ∧
    ((ins 1 0x10 0 0 0).length = ({ cfg := 0x21 } : Chan).itemLen ∧ tJudge { cfg := 0x21 } (ins 0 0 0 0 0) = some 0x83 ∧ tJudge { cfg := 0x21 } (ins 1 0 0 0 5) = none) ∧
    (({ held := some (desc (2 ^ 26 * 0)), desc := 0 } : Chan).following = none ∧
      ({ held := some (toLE 6 0 ++ [1, 0] ++ (desc 0).drop 8), dcount := 2 } : Chan).following = some 1) ∧
    (let c : Chan := { st := .running, held := some (desc 0), inUnit := true }
     let d := readDesc (desc 0)
     dcuOn (at_ c) = true ∧ (zeros 4).length = d.lenIn ∧ dcTurn (at_ c) 0 = true ∧ dcTurn (modDc 1 (fun _ => { c with cfg := 0 }) (up ((.ownQuota 0, 0x10000) :: c0))) 2 = false ∧ dcCheck (at_ c) 0 .read 0x1000 4 = none ∧ dcCheck (at_ c) 0 .write 0x2000 4 = none ∧ d.xmode ≠ 2 ∧
       dcCheck (chan c (up c0)) 0 .read 0x1000 4 = some (0x1000, 2) ∧ (patAddr d.src d.ss [0, 0, 0]).toNat = 0x1000 ∧ (patAddr d.dst d.ds [0, 0, 0]).toNat = 0x2000 ∧
       0 + 1 < (readDesc (toLE 6 0x1000 ++ [0xFF, 0xFF] ++ toLE 6 0x2000 ++ [1] ++ (desc 0).drop 15)).count0 ∧ (readDesc (desc (2 * 64 - 3))).xmode = 2) ∧
    (let c : Chan := { st := .running, held := some (desc (2 ^ 24)), atPoint := true }
     dcuOn (at_ c) = true ∧ c.fetching = false ∧ (readDesc (desc (2 ^ 24))).ctl.testBit 22 = false ∧ (readDesc (desc (2 ^ 23))).ctl.testBit 23 = true ∧
       doorbellDropped (ring (posted 0) (at_ c)) 0 0 = false ∧ doorbellDropped (at_ c) 0 0 = true ∧ (readDesc (desc 0)).next = 0xFFFF) ∧
    (let c : Chan := { st := .running, held := some (desc (2 ^ 22)), atPoint := true, recCfg := 0x104 }
     c.recEn = true ∧ c.place = true ∧ (readDesc (desc (2 ^ 22))).ctl.testBit 22 = true ∧ dcCheck (chan c (up c0)) 0 .write (dcRecAddr c) 32 ≠ none) := by decide +kernel

/-- A running trowel program at an instruction. -/
def prog (b : Bytes) : Chan := { st := .running, cfg := 0x21, held := some b, dcount := 2 }

/-- O47: each instruction; a sum of 2^48 - 1, one above it and one below 0; counters of 0, 1 and 2; a WAIT with and without a credit; a post into a ring that takes it. -/
theorem witness_trowelInstructions : (AtOp (at_ (prog (ins 0x01 0 0 0 5))) 0 0x01 (ins 0x01 0 0 0 5) ∧ AtOp (at_ (prog (ins 0x03 0 0 5 0))) 0 0x03 (ins 0x03 0 0 5 0) ∧
      AtOp (at_ (prog (ins 0x06 0 1 0 0))) 0 0x06 (ins 0x06 0 1 0 0) ∧ AtOp (at_ (prog (ins 0x09 0 0 0 0))) 0 0x09 (ins 0x09 0 0 0 0) ∧
      AtOp (at_ (prog (ins 0x0B 0 0 0 0))) 0 0x0B (ins 0x0B 0 0 0 0) ∧ AtOp (at_ (prog (ins 0x0E 0 0 0 0))) 0 0x0E (ins 0x0E 0 0 0 0) ∧
      AtOp (at_ (prog (ins 0x0F 0 0 0 0))) 0 0x0F (ins 0x0F 0 0 0 0)) ∧
    (AtOp (at_ { prog (ins 0x02 0 0 1 0) with aregs := [(0, 0xFFFFFFFFFFFE)] }) 0 0x02 (ins 0x02 0 0 1 0) ∧ ((0xFFFFFFFFFFFE : BitVec 48).toNat : Int) + signed 32 1 < 2 ^ 48 ∧
      2 ^ 48 ≤ ((0xFFFFFFFFFFFF : BitVec 48).toNat : Int) + signed 32 1 ∧ ((0 : BitVec 48).toNat : Int) + signed 32 0xFFFFFFFF < 0) ∧
    (AtOp (at_ { prog (ins 0x08 0 0 0 0) with cregs := [(0, 2)] }) 0 0x08 (ins 0x08 0 0 0 0) ∧ (({ cregs := [(0, 2)] } : Chan).cregs.look 0 0).toNat = 2 ∧ (({} : Chan).cregs.look 0 0).toNat = 0) ∧
    (AtOp (at_ (prog (ins 0x0A 0 1 0 0))) 0 0x0A (ins 0x0A 0 1 0 0) ∧ (prog (ins 0x0A 0 1 0 0)).psrc = 0) ∧
    (AtOp (at_ (prog (ins 0x0C 0 0 1 0))) 0 0x0C (ins 0x0C 0 0 1 0) ∧ doorbellDropped (at_ (prog (ins 0x0C 0 0 1 0))) 0 0 = true ∧
      doorbellDropped (ring (posted 0) (at_ (prog (ins 0x0C 0 0 1 0)))) 0 0 = false) ∧
    (let c := { prog (ins 0x0D 0 0 0 0) with recCfg := 0x104 }
     AtOp (at_ c) 0 0x0D (ins 0x0D 0 0 0 0) ∧ c.recEn = true ∧ c.place = true ∧ dcCheck (at_ c) 0 .write (dcRecAddr c) 32 = none ∧ dcCheck (chan c (up c0)) 0 .write (dcRecAddr c) 32 ≠ none ∧
       { c with recTail := 16 }.place = false ∧ (prog (ins 0x0D 0 0 0 0)).recEn = false ∧ itemOk (at_ c) 0 1 ∧ (0 + 1) < c.count) := by
  unfold AtOp itemOk; and_intros <;> decide +kernel

/-- O48: a MOVE of 8 bytes, half of it and its last half; one that goes past the end of memory; one of no bytes; an XMOVE of one frame, and without XCFG. -/
theorem witness_trowelMoves :
    (let b := ins 0x04 0x10 0 8 0
     let c := { prog b with aregs := [(0, 0x1000), (1, 0x2000)] }
     AtOp (at_ c) 0 0x04 b ∧ c.place = true ∧ dcTurn (at_ c) 0 = true ∧ (zeros 4).length ≤ 8 - c.off ∧ (zeros 4).length ≤ 4096 - c.moved % 4096 ∧ 0x1000 + 8 ≤ 2 ^ 48 ∧
       dcCheck (dcTag 0 (at_ c)) 0 .read 0x1000 4 = none ∧ dcCheck (dcTag 0 (at_ c)) 0 .write 0x2000 4 = none ∧ c.off + 4 < 8 ∧ { c with i0 := 4 }.off + 4 = 8 ∧
       dcCheck (dcTag 0 (chan c (up c0))) 0 .read 0x1000 4 ≠ none ∧ 2 ^ 48 < (0xFFFFFFFFFFFF : BitVec 48).toNat + 8) ∧
    (let b := ins 0x05 0x10 0 0 0
     let c := { prog b with aregs := [(0, 0x1000), (1, 0x2000)], xcfg := some 1 }
     AtOp (at_ c) 0 0x05 b ∧ c.place = true ∧ dcTurn (at_ c) 0 = true ∧ (zeros 1).length = 1 * (xNch 1 * xIn 1) ∧ c.i2 + 1 ≤ tI32 b + 1 ∧ xExtent 1 0x1000 0x2000 (signed 32 (tI64 b)) 1 = true ∧
       c.unitPrev = false ∧ check (at_ c) (at_ c).gen.act (some (dcTen (at_ c) 0)) (dcWorld (at_ c) 0) .read 0x1000 1 = none ∧ (tF b).testBit 0 = false ∧ (prog b).xcfg = none) := by
  unfold AtOp; decide +kernel

/-- A request with one reference to the frame 9 of port 3; its port is granted, and its quota of cells is one. -/
def frameReq (h : Option FrameHdr) : Req := { req [] with refs := [{ kind := kFrame, addr := 9 + 2 ^ 32 * 0, len := 64 }], bufs := [(0, { hdr := h })] }
def hdr0 : FrameHdr := { len := 64, port := 0, cells := 1, shared := false }
def fpUp (r : Req) : State := modFp (fun f => { f with waiting := [7] }) (Tests.withReq r (up ((.ownFp 0 0, 1) :: (.ownFp 0 1, 1) :: t0)))

/-- O49: a port that is not granted; one header of port 0, of another port, and none; the whole need at the limit and above it; a loan; a return. -/
theorem witness_frames :
    (let r := frameReq none
     (fpUp r).req 7 = some r ∧ r.phase = .running ∧ 0 ∈ r.frames ∧ (r.buf 0).hdr = none ∧ r.refsOf (r.ref 0).handle = [0] ∧ portGranted (fpUp r) r 0 = true ∧
       portGranted (up t0) r 0 = false ∧ (r.ref 0).fport = hdr0.port.toNat ∧ (r.ref 0).fport ≠ { hdr0 with port := 3 }.port.toNat ∧
       maxCells (fpUp r) r = 1 ∧ (frameReq (some hdr0)).cellNeed = 1 ∧ (frameReq (some { hdr0 with cells := 2 })).cellNeed = 2) ∧
    (let r := frameReq (some hdr0)
     (fpUp r).req 7 = some r ∧ 7 ∈ (fpUp r).fp.waiting ∧ fpOpen (fpUp r) = true ∧ mayLend (fpUp r) r = true ∧ loanTurn (fpUp r) r = true ∧
       mayLend (fpUp { r with bufs := [(0, { hdr := some { hdr0 with cells := 2 } })] }) { r with bufs := [(0, { hdr := some { hdr0 with cells := 2 } })] } = false) ∧
    (let r := { frameReq (some hdr0) with phase := .ended }
     let s := modFp (fun f => { f with loans := loansOf r }) (fpUp r)
     s.req 7 = some r ∧ 0 ∈ r.frames ∧ s.fp.loans.any (fun l => decide (l.req = 7) && decide (l.handle = (r.ref 0).handle)) = true) ∧
    Takes (up t0) boss (.tnFpCtl 0) 1 := by
  unfold Takes; decide +kernel

def armed (ctl : Word) : State := modOwn (fun o => { o with timeCtl := ctl }) (up [])

/-- O50: no arm, a capture armed, a load armed; the count running and stopped; the wrap due. -/
theorem witness_clock : (Takes (up []) boss .ownTimeCtl 2 ∧ Takes (up []) boss .ownTimeCtl 4 ∧ Takes (up []) boss .ownTimeCtl 8) ∧
    (bitOf (armed 2).own.timeCtl 1 = true ∧ bitOf (armed 2).own.timeCtl 2 = false ∧ bitOf (armed 4).own.timeCtl 2 = true ∧ bitOf (armed 1).own.timeCtl 1 = false) ∧
    (Takes (armed 1) boss .ownTimeCtl 0 ∧ (armed 1).run = true ∧ Takes (armed 0) boss .ownTimeCtl 1 ∧ (armed 0).run = false) ∧
    ((modTime (fun x => { x with wrapDue := true }) (up [])).time.wrapDue = true ∧ (up []).time.wrapDue = false) := by
  unfold Takes; decide +kernel

/-- Comparator 7 with its words, the count running at a time. -/
def comparator (c : Tcmp) (now : Word) : State := modTime (fun x => { x with ns := now }) (modTcmp 7 (fun _ => c) (armed 1))

/-- O51: a comparator that is due at its target, before it, and two periods late; the release of reset; a refill with a reserve and without. -/
theorem witness_timedWork :
    (let s := comparator { tgt := 100, per := 10, ctl := 0x10001 } 100
     s.run = true ∧ bitOf (s.tcmp 7).ctl 0 = true ∧ (s.tcmp 7).tgt.toNat ≤ s.time.ns.toNat ∧ bitOf (s.tcmp 7).ctl 16 = true ∧ (s.tcmp 7).per ≠ 0) ∧
    ¬(((comparator { tgt := 100, ctl := 1 } 99).tcmp 7).tgt.toNat ≤ (comparator { tgt := 100, ctl := 1 } 99).time.ns.toNat) ∧
    ((0 : Nat) < 10 ∧ (100 : Nat) ≤ 100 ∧ nextTarget 100 10 100 = (110, 0) ∧ nextTarget 100 10 110 = (120, 1) ∧ nextTarget 100 10 125 = (130, 2)) ∧
    (up []).start.rst = false ∧ ((modOwn (fun o => { o with timeCtl := 1 }) (up [(.ownSched, 1)])).run = true ∧ 0 < (modOwn (fun o => { o with timeCtl := 1 }) (up [(.ownSched, 1)])).resv) ∧
    (up []).resv = 0 := by decide +kernel

def genUp (g : GenSt) (l : List (Reg × Word)) : State := modGen (fun x => { x with st := g }) (up l)
/-- An image of 64 bytes without records, with the digest of nothing. -/
def image : Bytes := [0x4F, 0x4D, 0x50, 0x58, 1, 0, 0, 0, 64, 0, 0, 0, 0, 0, 0, 0] ++ sha384 []

/-- Work of the engine on a tile. -/
def runs (kind t : Nat) (w : JobWork) (s : State) : State :=
  modTile t (fun u => if t < 20 then { u with run := some (9, 0) } else { u with bankA := .running 9 0 }) (jobOf kind w s)

/-- O52: the end of the work of the engine: a digest, patches, an ML-DSA seed and the hash after it. -/
theorem witness_workEnds : tilesOpen (runs 2 16 .generation (up [])) = true ∧ (runs 2 16 .generation (up [])).req 9 = none ∧
    (runs 2 16 .generation (up [])).sch.jobs.find? (fun q => decide (q.id = 9)) = some (job 2 .generation) ∧ jobTile (runs 2 16 .generation (up [])) (job 2 .generation) = some 16 ∧
    jobTile (runs 3 20 (.patch 0 false) (up [])) (job 3 (.patch 0 false)) = some 20 ∧ jobTile (runs 3 23 (.slot 5) (up [])) (job 3 (.slot 5)) = some 23 ∧
    jobTile (runs 2 19 (.slot 5) (up [])) (job 2 (.slot 5)) = some 19 := by decide +kernel

/-- O52: commands in IDLE, in LOADING and in the fence; a rollback with and without a previous generation; the fence with nothing to wait for. -/
theorem witness_generations :
    (Takes (genUp .loading []) boss .ownGenCmd 1 ∧ (genUp .loading []).gen.st ≠ .idle ∧ Takes (up []) boss .ownGenCmd 1 ∧ Takes (up []) boss .ownGenCmd 2 ∧ Takes (up []) boss .ownGenCmd 3 ∧
      Takes (up []) boss .ownGenCmd 4 ∧ Takes (up []) boss .ownGenCmd 5 ∧ (up []).gen.st = .idle ∧ (genUp .fence []).gen.st = .fence ∧
      check (up []) (up []).gen.act none .secure .read (up []).own.imgBase.toNat (imgLen (up [])) = none ∧
      check (up [(.accGlbAttr 0, 0x3000000003027)]) (up [(.accGlbAttr 0, 0x3000000003027)]).gen.act none .secure .read 0 64 ≠ none) ∧
    ((genUp .loading []).gen.imgFail = false ∧ imgFormat (imgLen (genUp .loading [])) (fit 64 []) = false ∧ imgCheck (genUp .loading []) (fit 64 []) = 3) ∧
    (working (genUp .loading []) .patches = false ∧ working (jobOf 3 (.patch 0 true) (genUp .loading [])) .patches = true ∧ working (jobOf 2 .generation (genUp .fence [])) .generation = true) ∧
    ((up []).gen.previous = 0 ∧ (modGen (fun g => { g with previous := 1 }) (up [])).gen.previous ≠ 0 ∧ disabledBy (up t0) ((up t0).setWord {} .ownTenEn 0) = [0] ∧ disabledBy (up t0) (up t0).gen.act = []) ∧
    ((genUp .fence []).gen.disabling = [] ∧ drained (genUp .fence []) = true ∧ working (genUp .fence []) .generation = false ∧ (genUp .fence []).gen.rollback = false ∧
      fenceOver (modSup (fun p => { p with active := true }) (genUp .fence [])) = false ∧ nextGen 0xFFFFFFFE = 0xFFFFFFFF ∧ nextGen 0xFFFFFFFF = 1) := by
  unfold Takes; decide +kernel

theorem witness_imageLoads : imgCheck (genUp .loading []) (fit 64 image) = 0 := by
  have h : sha384 ((fit 64 image).drop 0x40) = slice (fit 64 image) 0x10 48 := rfl
  unfold imgCheck
  rw [if_neg (by decide +kernel), if_neg (by decide +kernel), if_neg (fun n => n h)]
  decide +kernel
theorem witness_imageSections : imgSections (fit 64 image) = [] := by decide +kernel

/-- An image with one patch section for the chain sequencers. -/
def patchTail : Bytes := [1, 0, 0, 0] ++ toLE 4 16 ++ toLE 4 romVer ++ zeros 4 ++ zeros 3421
def patched : Bytes := [0x4F, 0x4D, 0x50, 0x58, 1, 0, 1, 0] ++ toLE 4 3501 ++ zeros 4 ++ sha384 patchTail ++ patchTail
def patchUp : State := modOwn (fun o => { o with imgLen := 3501 }) (genUp .loading [])
theorem witness_imagePatched : imgCheck patchUp (fit 3501 patched) = 0 := by
  have h : sha384 ((fit 3501 patched).drop 0x40) = slice (fit 3501 patched) 0x10 48 := by
    have e : (fit 3501 patched).drop 0x40 = patchTail := by decide +kernel
    rw [e]
    rfl
  unfold imgCheck
  rw [if_neg (by decide +kernel), if_neg (by decide +kernel), if_neg (fun n => n h)]
  decide +kernel
theorem witness_imagePatchSections : imgLen patchUp = 3501 ∧ imgSections (fit 3501 patched) ≠ [] := by decide +kernel

def gatePend (n : Nat) (s : State) : State := modClk (fun c => { c with pending := BitVec.ofNat 26 (2 ^ n) }) s

/-- O53: the lowest and the highest tile, the data channel unit and the frame port, gated and not; a unit that is idle and one at work; the monitors. -/
theorem witness_gates : (Takes (up []) boss .ownGate ((up []).own.gate ||| put (gateIx (.tile 0)) 1) ∧ bitOf (up []).own.gate (gateIx (.tile 23)) = false ∧
      bitOf (modOwn (fun o => { o with gate := 1 }) (up [])).own.gate (gateIx (.tile 0)) = true ∧ gateIx .dcu = 24 ∧ gateIx .fp = 25) ∧
    ((gatePend 25 (up [])).clk.pending.toNat.testBit (gateIx .fp) = true ∧ unitIdle (gatePend 25 (up [])) .fp = true ∧
      unitIdle (modTile 0 (fun u => { u with run := some (7, 0) }) (gatePend 0 (up []))) (.tile 0) = false ∧ (gatePend 16 (up [])).clk.pending.toNat.testBit (gateIx (.tile 16)) = true ∧
      (up []).clk.pending.toNat.testBit 0 = false) ∧
    (Takes (up []) boss .ownGate ((up []).own.gate &&& ~~~ put (gateIx (.tile 16)) 1) ∧ unitMonitored (up []) (.tile 16) = true ∧
      unitMonitored (modOwn (fun o => { o with clkmon := 2, gate := 2 ^ 16 }) (up [])) (.tile 16) = false) ∧
    (Takes (up []) boss .ownClkmon ((up []).own.clkmon &&& ~~~ put (clkIx .aux) 1) ∧ Takes (up []) boss .ownClkmon ((up []).own.clkmon ||| put (clkIx .tile) 1) ∧
      (∃ x, x ∈ clkTiles .aux ∧ (up []).clk.gated.toNat.testBit x = false) ∧
      ((clkTiles .aux).all (fun x => (modClk (fun c => { c with gated := 0xFF0000 }) (up [])).clk.gated.toNat.testBit x)) = true) := by
  unfold Takes
  refine ⟨by decide +kernel, by decide +kernel, by decide +kernel, by decide +kernel, by decide +kernel, ⟨16, by decide +kernel⟩, by decide +kernel⟩

def tripped (k : ClkName) (s : State) : State := modMon k (fun m => { m with fenced := true, zeroDue := true }) s

/-- O54: a monitored clock and one that is not; the limits themselves and one beyond; each response; a release in band and out of it; a rejoin. -/
theorem witness_clockFaults : (watching (up []) = true ∧ monitored (up []) .tile = true ∧ monitored (modOwn (fun o => { o with clkmon := 0 }) (up [])) .tile = false ∧ watching State.reset = false) ∧
    ((up []).start.osc = true ∧ (up []).clk.oscStopped = false ∧ (up []).start.rst = false ∧
      (let lo := fld (limits (up []) .aux) 13 0
       let hi := fld (limits (up []) .aux) 29 16
       lo ≤ (BitVec.ofNat 14 lo).toNat ∧ (BitVec.ofNat 14 lo).toNat ≤ hi ∧ (BitVec.ofNat 14 (lo - 1)).toNat < lo ∧ hi < (BitVec.ofNat 14 (hi + 1)).toNat)) ∧
    (((tripped .ctl (up [])).mon .ctl).zeroDue = true ∧ ((tripped .tile (up [])).mon .ctl).zeroDue = false ∧ respReset (tripped .tile (up [])) = false ∧
      respReset (modOwn (fun o => { o with clkmon := 7 }) (up [])) = true ∧ ((tripped .tile (up [])).mon .aux).zeroDue = false ∧ ((up []).mon .tile).zeroDue = false) ∧
    (let s := modTile 0 (fun u => { u with run := some (7, 0) }) (Tests.withReq (running 0x19 0) (tripped .tile (up t0)))
     s.req 7 = some (running 0x19 0) ∧ heldOp s (clkTiles .tile) 7 = some 0) ∧
    (Takes (up []) boss .ownClkmon ((up []).own.clkmon ||| put (3 + clkIx .tile) 1) ∧ inBand (up []) .tile = false ∧
      inBand (modMon .tile (fun m => { m with clean := 4, fenced := true }) (up [])) .tile = true ∧ ((modMon .tile (fun m => { m with clean := 4, fenced := true }) (up [])).mon .tile).zeroDue = false) ∧
    (let s := modTile 15 (fun u => { u with st := .fenced, qcount := 2 }) (modMon .tile (fun m => { m with fenced := true, release := true }) (up []))
     (s.mon .tile).release = true ∧ 15 ∈ clkTiles .tile ∧ (s.tile 15).st = .fenced ∧ 2 ≤ (s.tile 15).qcount.toNat) := by
  unfold Takes; decide +kernel

/-- O55: a warning over work of the engine that runs, over a request whose operation has delivered bytes, and over one that has not; its end; the request for retention and its fall. -/
theorem witness_supplyAndRetention : (State.reset.start.rst = true ∧ (up []).start.rst = false ∧ (up []).sup.active = false) ∧
    (jobsAtWork (up t0) = [] ∧ jobsAtWork (runs 3 20 (.patch 0 false) (up [])) = [job 3 (.patch 0 false)]) ∧
    (let r := { running 0x19 0 with ops := [{ opOf 0x19 with phase := .running, tiles := [0], output := [1] }] }
     (Tests.withReq r (up t0)).reqs = [] ++ r :: [] ∧ r.phase = .running ∧
       ((List.range r.ops.length).filter (atWork r)).find? (fun i => decide (kindOfW (r.op i).w ≠ 3) && decide ((r.op i).output ≠ [])) = some 0) ∧
    (let r := { running 0x19 0 with ops := [{ opOf 0x19 with w := { opc := 0x19, src := 8, poff := 0xFF }, phase := .running, tiles := [0] }] }
     (List.range r.ops.length).filter (atWork r) = [0] ∧ (r.op 0).output = [] ∧ drawLeft r 0 = false ∧ 8 ≤ (r.op 0).w.src) ∧
    (modSup (fun p => { p with active := true }) (up [])).sup.active = true ∧
    ((up []).start.serving = true ∧ (up []).ret.req = false ∧ (up []).ret.asleep = false ∧ (chan { st := .running } (up [])).start.serving = true) ∧
    (let s := modRet (fun r => { r with req := true }) (modClk (fun c => { c with ctl := { c.ctl with clean := 4 }, tile := { c.tile with clean := 4 }, aux := { c.aux with clean := 4 } }) (up []))
     s.ret.req = true ∧ s.ret.asleep = false ∧ s.reqs = [] ∧ s.fp.loans = [] ∧ s.gen.st ≠ .fence ∧ replacing s = false ∧ s.sup.active = false ∧ allInBand s = true) ∧
    (let s := modRet (fun r => { r with asleep := true }) (up [])
     s.ret.asleep = true ∧ s.ret.req = false ∧ s.start.osc = true ∧ s.sup.active = false) := by decide +kernel

def jrn (j : Journal) : State := modJrn (fun _ => j) (up [])

/-- O56: an empty journal, a record begun and one whole; one word left of a record, with and without a next; a LOST record that has just room. -/
theorem witness_journal : ((AccSize.b8 = .b8) ∧ ((up []).start.serving && mayRead (up []) other .jr) = false ∧ ((up []).start.serving && mayRead (up []) boss .jr) = true ∧ boss.dbg = false) ∧
    ((jrn {}).jrn.reading = [] ∧ (jrn {}).jrn.recs = [] ∧ (jrn { reading := [5] }).jrn.reading = 5 :: [] ∧ (jrn { recs := [[1, 2, 3]] }).jrn.recs = (1 :: 2 :: [3]) :: [] ∧
      (jrn { reading := [5], recs := [[1, 2, 3]] }).jrn.reading = [5] ∧ (jrn { recs := [[1, 2, 3]] }).jrn.stalled = []) ∧
    (jrn { stalled := [(boss, .b32)] }).jrn.stalled = (boss, .b32) :: [] ∧
    (Takes (jrn { recs := [[1, 2, 3]] }) boss .ownJrnCtl 1 ∧ (jrn { recs := [[1, 2, 3]] }).jrn.lostDue = 0) ∧
    (0 < (jrn { lostDue := 1, reading := List.replicate 4090 0 }).jrn.lostDue ∧ (jrn { lostDue := 1, reading := List.replicate 4090 0 }).jrn.level + 6 = jrnWords ∧
      jrnWords < (jrn { lostDue := 1, reading := List.replicate 4091 0 }).jrn.level + 6) ∧
    Takes (jrn { ntail := 3 }) boss .ownJrnNhead ((3 : BitVec 13).setWidth 64) ∧
    (Takes (up []) boss (noticeReg .nbase) 0x40 ∧ (up []).noticeEn = false ∧ (modOwn (fun o => { o with notice := 1 }) (up [])).noticeEn = true) := by
  unfold Takes; decide +kernel

def latch (r : Reg) (hi : Bool) (s : State) : State := modLatch (fun _ => [⟨boss, halfOff r hi, 5⟩]) s

/-- O57: the time with and without a latch; a capture; a read of the last byte of a register and one across its end; a misaligned read, one of no register, one that the role does not permit, and a plain one; a debug read
that is refused and one that is opened. -/
theorem witness_reads : (readable (up []) boss (.statTime 0) = true ∧ latched (up []) boss (Reg.off (.statTime 0)) = none ∧ readable State.reset boss (.statTime 0) = false ∧
      latched (latch (.statTime 0) false (up [])) boss (Reg.off (.statTime 0)) = some ⟨boss, Reg.off (.statTime 0), 5⟩) ∧
    (isLatching (BitVec.ofNat 22 (Reg.off (.tnViol 0 0))).toNat = true ∧ (BitVec.ofNat 22 (Reg.off (.tnViol 0 0))).toNat % 8 = 0 ∧
      regAt (BitVec.ofNat 22 (Reg.off (.tnViol 0 0))).toNat = some (.tnViol 0 0) ∧ readable (up t0) boss (.tnViol 0 0) = true ∧ readable (up t0) other (.tnViol 0 0) = false ∧
      isLatching 0 = false ∧ isLatching (Reg.off (.statBoot 1)) = true) ∧
    ((0x100002 : BitVec 22).toNat % 4 ≠ 0 ∧ regAt (0x3FFFF8 : BitVec 22).toNat = none ∧ (0x300000 : BitVec 22).toNat = 0x300000 ∧
      regAt (Reg.off .ownEvEn) = some .ownEvEn ∧ Reg.off .ownEvEn % 8 = 0 ∧ readable (up []) boss .ownEvEn = true ∧ readable (modOwn (fun o => { o with ctl := 1 }) (up [])) other .ownEvEn = false ∧ debugOpens (up []) boss .ownEvEn = false ∧
      (0x300000 ≤ (0x30FFFF : BitVec 22).toNat ∧ (0x30FFFF : BitVec 22).toNat < 0x310000 ∧ (Reg.off .ownEvEn + 7) / 8 * 8 = Reg.off .ownEvEn ∧ latches false true .ownEvEn = [] ∧
        latched (up []) boss (halfOff .ownEvEn true) = none ∧ Reg.off .ownEvEn + 7 < 0x300000) ∧
      latches false false .ownEvEn = [] ∧ latches true false .ownEvEn = [] ∧ latched (up []) boss (halfOff .ownEvEn false) = none ∧
      latched (latch .ownEvEn true (up [])) boss (halfOff .ownEvEn true) = some ⟨boss, halfOff .ownEvEn true, 5⟩) ∧
    (let s := modOwn (fun o => { o with dbgUnlock := ~~~ 0 }) (life 1 (up []))
     probe.dbg = true ∧ mayRead (up []) probe (Reg.ownEvEn).cls = false ∧ readable s probe .ownEvEn = true ∧ debugOpens s probe .ownEvEn = true ∧ s.start.serving = true) := by decide +kernel

/-- An engine at position `pos` of a course of the four positions, with a role, both lanes up, an exchange buffer, and peer 2 as given. Slot 5 is a course slot. -/
def crs (role pos : Nat) (peer : Peer) : State := modCrs (fun c => { c with role := BitVec.ofNat 2 role, laneUp := 3, peers := [(2, peer)] })
  (up ((.ownCourseXbuf, 0x10000) :: (.ownCourse 0, BitVec.ofNat 64 (role + 4 * pos + 0xF0 + 0x50000 + 2 ^ 32 + 8 * 2 ^ 48 + 2 ^ 56)) :: (.ksAttEn, 1) :: t0))
def helloOf (role : Nat) : Hello := ⟨zeros 8 ++ [2] ++ [BitVec.ofNat 8 role] ++ zeros 37⟩
/-- A frame from position 2 to position 1, of a type, with CNT and 16 bytes of tag. -/
def frameOf (type cnt : Nat) : Bytes := [9, BitVec.ofNat 8 type, 0, 0, 3, 0, 0, 0] ++ toLE 8 cnt ++ zeros 16
def linked : Peer := { formed := true, gkey := zero32, epoch := 3 }

/-- O58: lanes up and down; the beat of a member and of a master; a HELLO of a second master and of the first; step 2; ACCEPT, REJECT and the limit; the elect;
REFORM and LEAVE; a frame that passes on, one whose epoch is wrong, and a HELLO in a frame. -/
theorem witness_courseForms :
    ((crs 2 1 {}).crs.laneUp.toNat.testBit 1 = true ∧ (up []).crs.laneUp.toNat.testBit 1 = false ∧ crsRole (modCrs (fun c => { c with laneUp := 0 }) (crs 2 1 {})) ≠ roStandalone ∧
      (crs 2 1 {}).eff .ownCourseXbuf ≠ 0 ∧ formedPeers (crs 2 1 {}) = []) ∧
    (crsIsMaster (modCrs (fun c => { c with master := 2 }) (crs 2 1 linked)) = false ∧ ((modCrs (fun c => { c with master := 2 }) (crs 2 1 linked)).peer 2).formed = true ∧ crsIsMaster (crs 1 1 linked) = true) ∧
    ((2 : Fin 4).val ∈ crsOthers (crs 1 3 {}) ∧ (helloOf 1).payload.length = 47 ∧ beNat ((helloOf 1).payload.take 8) = ((crs 1 3 {}).eff .ownCourseId).toNat ∧ byteAt (helloOf 1).payload 8 = 2 ∧
      byteAt (helloOf 1).payload 9 = roMaster ∧ crsRole (crs 1 3 {}) = roMaster ∧ 2 < crsPos (crs 1 3 {}) ∧ crsPos (crs 1 1 {}) ≤ 2 ∧ crsRole (crs 2 3 {}) ≠ roMaster ∧ (crs 2 3 {}).crs.heard = false) ∧
    ((crs 1 1 { step := .agreed }).start.serving = true ∧ ((crs 1 1 { step := .agreed }).peer 2).step = .agreed ∧
      (crsOthers (crs 1 1 { step := .agreed })).any (fun q => decide (((crs 1 1 { step := .agreed }).peer q).step = .waiting)) = false ∧
      check (crs 1 1 {}) (crs 1 1 {}).gen.act none .secure .write ((crs 1 1 {}).eff .ownCourseXbuf).toNat (xbufBytes 2 []).length = none) ∧
    (Takes (crs 1 1 { step := .waiting }) boss .ownCourseCmd 1 ∧ Takes (crs 1 1 { step := .waiting }) boss .ownCourseCmd 2 ∧ waitingPair (crs 1 1 { step := .waiting }) = some 2 ∧ waitingPair (crs 1 1 {}) = none ∧
      crsIsMaster (crs 2 1 { step := .waiting }) = false ∧ mayAttest (crs 2 1 { step := .waiting }) = false ∧
      mayAttest (modIdent (fun d => { d with ready := true, noid := false }) (crs 2 1 { step := .waiting })) = true ∧ working (crs 1 1 { step := .waiting }) (.pairing 2) = false) ∧
    (let s := runs 3 20 (.pairing 2 .hybrid) (crs 1 1 { step := .working })
     tilesOpen s = true ∧ s.req 9 = none ∧ s.sch.jobs.find? (fun q => decide (q.id = 9)) = some (job 3 (.pairing 2 .hybrid)) ∧ jobTile s (job 3 (.pairing 2 .hybrid)) = some 20 ∧ (s.peer 2).step = .working ∧
       crsIsMaster s = true ∧ (modCrs (fun c => { c with newKey := zero32 }) s).crs.newKey ≠ [] ∧ mayAttest (runs 3 20 (.pairing 2 .hybrid) (crs 2 1 { step := .working })) = false ∧
       crsIsMaster (runs 3 20 (.pairing 2 .hybrid) (crs 2 1 { step := .working })) = false) ∧
    ((up []).start.serving = true ∧ (crs 3 1 {}).crs.heard = false ∧ (crs 3 1 {}).crs.laneUp ≠ 0 ∧ lowestElect (crs 3 1 {}) = true ∧ lowestElect (crs 3 3 { role := 3 }) = false) ∧
    (Takes (crs 1 1 {}) boss .ownCourseCmd 3 ∧ crsIsMaster (crs 1 1 {}) = true ∧ Takes (crs 1 1 {}) boss .ownCourseCmd 4 ∧ crsRole (crs 1 1 {}) ≠ roStandalone ∧ crsRole (up []) = roStandalone) ∧
    ((crs 2 1 linked).crs.laneUp.toNat.testBit 0 = true ∧ byteAt (frameOf 4 1) 0 % 4 = crsPos (crs 2 1 linked) ∧ (frameOf 4 1).length = 32 + leAt (frameOf 4 1) 2 2 ∧ byteAt (frameOf 4 1) 0 / 4 = 2 ∧
      byteAt (frameOf 4 1) 0 % 4 ≠ crsPos (crs 2 0 linked) ∧ clearType (byteAt (frameOf 4 1) 1) = false ∧ leAt (frameOf 4 1) 4 4 = linked.epoch ∧ linked.gkey ≠ [] ∧ leAt (frameOf 4 1) 4 4 ≠ ({} : Peer).epoch ∧
      linked.cntA < leAt (frameOf 4 1) 8 8 ∧ leAt (frameOf 4 0) 8 8 ≤ linked.cntA ∧ byteAt (frameOf 1 0) 1 = ftHello ∧ byteAt (frameOf 3 0) 1 = ftGroup) := by
  unfold Takes; and_intros <;> decide +kernel

/-- A course slot 5 whose active bank is A. -/
def shared5 (s : State) : State := modSlot 5 (fun _ => active) s
def bank5 : Bytes := [5, 0, 0]
/-- The two cipher tiles that `twoLeft` leaves healthy, out of service as well. -/
def quarter (s : State) : State := modTile 0 (fun u => { u with st := .quarantined }) (modTile 1 (fun u => { u with st := .quarantined }) s)
def ofPeer (n : Nat) : Req := { req [] with origin := .course 2 n 0, place := .course }

/-- O59: a granted block; a block asked of the master with and without an elect; the mirror; the last of two acknowledgements; a request to forward, one
forwarded here, a result, a recall; credit; silence; a takeover by this engine and by another; the snapshot. -/
theorem witness_courseShares :
    (let s := modCrs (fun c => { c with master := 2 }) (crs 2 1 linked)
     fromMaster s 2 = true ∧ fromMaster s 1 = false ∧ bankOfPayload bank5 = 10 ∧ (s.peer 2).credits < crsCredits s ∧ foreignOf (Tests.withReq (ofPeer 9) s) 2 9 = some (ofPeer 9) ∧ foreignOf s 2 9 = none ∧
       courseSlot s (leAt bank5 0 2 % 2048) = true ∧ (s.slot 5).verify = false ∧ s.sup.active = false ∧ (modSup (fun p => { p with active := true }) s).sup.active = true) ∧
    (let s := shared5 (crs 1 1 linked)
     courseBank s 10 = true ∧ blockEnd s 10 ≠ bankNext s 10 ∧ asMaster s 2 = true ∧ (s.peer 2).silent = false ∧ (2 : Nat) ≠ crsPos s ∧ s.crs.grants.any (fun g => decide (g.2.1 = 10)) = false ∧
       electPeers s = [] ∧ electPeers (crs 1 1 { linked with role := 3 }) = [2] ∧ courseBank (crs 1 1 linked) 10 = false) ∧
    (let s := modCrs (fun c => { c with master := 2 }) (crs 3 1 linked)
     fromMaster s 2 = true ∧ crsRole s = roElect) ∧
    (let s := modCrs (fun c => { c with grants := [(2, 10, [2])] }) (shared5 (crs 1 1 { linked with role := 3 }))
     asMaster s 2 = true ∧ s.crs.grants.find? (fun g => decide (g.2.1 = bankOfPayload bank5)) = some (2, 10, [2]) ∧ s.crs.grants.filter (fun g => decide (g.2.1 = 10)) = [(2, 10, [2])] ∧ goneFrom s 2 = false) ∧
    (let r := req [opOf 0x19]
     let s := ring { posted 1 with cfg := 0x10101210004 } (modCrs (fun c => { c with forming := 3 }) (Tests.withReq r (twoLeft (quarter (crs 1 1 linked)))))
     s.req 7 = some r ∧ tilesOpen s = true ∧ crsIsMaster s = true ∧ eligible s r = true ∧ mustForward s r = true ∧ nextMember s = some 2) ∧
    (let r := { req [opOf 0x19] with fwd := some 2 }
     (Tests.withReq r (crs 1 1 linked)).req (leAt [7, 0, 0, 0] 0 4) = some r ∧ r.fwd = some 2 ∧ 1 < byteAt [7, 0, 0, 0, 0x20] 4 ∧ (req []).fwd ≠ some 2) ∧
    (((crs 1 1 linked).peer 2).formed = true ∧ ((crs 1 1 linked).peer 2).silent = false ∧ ((crs 1 1 {}).peer 2).formed = false) ∧
    (let s := modCrs (fun c => { c with master := 2 }) (crs 3 1 { linked with silent := true })
     crsRole s = roElect ∧ (s.peer s.crs.master.toNat).formed = true ∧ (s.peer s.crs.master.toNat).silent = true ∧ (1 : Fin 4).val = crsPos s) ∧
    ((2 : Fin 4).val ≠ crsPos (crs 2 1 linked) ∧ 2 ∈ crsOthers (crs 2 1 linked) ∧ ((crs 2 1 linked).peer 2).gkey ≠ [] ∧ crsRole (crs 2 1 linked) ≠ roMaster ∧ keepsMaster 2 2 (crs 2 1 linked) = false) ∧
    Takes (crs 1 1 linked) boss .crsCtl 1 := by
  unfold Takes; and_intros <;> decide +kernel

/-- The boot ring of an engine in its claim window, with an entry held at its head. -/
def bootUp (b : Bytes) : State := modOwner (fun _ => { st := .claimOpen }) (modBoot (fun x => { x with st := .polling, k := 4, base := 0x10000, slot := b }) (up []))
/-- A boot slot with its SEQ and kind; a REQUEST has its header slot behind it. -/
def bootEntry (seq kind : Nat) : Bytes := toLE 2 seq ++ [BitVec.ofNat 8 kind] ++ zeros 29

/-- O60: a poll with the expected SEQ and with another; a REQUEST, an unknown kind and a reserved field that is set; an EXTEND in the claim window and after it. -/
theorem witness_bootRing :
    ((bootUp []).boot.st = .polling ∧ (bootUp []).boot.slot = [] ∧ (bootUp []).ret.asleep = false ∧ bootReads (bootUp []) [(bootUp []).boot.head] = none ∧
      leAt (bootEntry 1 1) 0 2 = (bootUp []).boot.seq ∧ leAt (bootEntry 2 1) 0 2 ≠ (bootUp []).boot.seq ∧ bootKind (bootEntry 1 1) = 1 ∧
      bootReads (bootUp []) ((List.range (bootSpan (bootEntry 1 1 ++ zero32) - 1)).map (fun j => (bootUp []).boot.head + 1 + j)) = none ∧
      bootReads (modGen (fun g => { g with act := (up []).setWord {} (.accGlbAttr 0) 0x3000000003027 }) (bootUp [])) [0] ≠ none) ∧
    (let s := bootUp (bootEntry 1 1 ++ zero32)
     bootAdmits s = true ∧ s.boot.inflight.toNat < 4 ∧ bootKind s.boot.slot = 1 ∧ bootClean s.boot.slot = true ∧ freeCs s 1 = some 0 ∧ bootKind (bootEntry 1 0x80) ≠ 1 ∧
       bootClean (bootEntry 1 1 ++ [1]) = true ∧ bootClean ([1, 0, 1, 1] ++ zeros 28) = false ∧ (modBoot (fun x => { x with inflight := 4 }) s).boot.inflight.toNat = 4) ∧
    (let s := bootUp (bootEntry 1 2)
     bootAdmits s = true ∧ bootKind s.boot.slot = 2 ∧ bootClean s.boot.slot = true ∧ s.boot.inflight = 0 ∧ (freeCs s 1).isSome = true ∧ s.owner.st = .claimOpen ∧
       check s s.gen.act none .secure .read (leAt s.boot.slot 8 6) 48 = none ∧ extendRefused s 0 = false ∧ s.sup.active = false ∧
       check (modGen (fun g => { g with act := (up []).setWord {} (.accGlbAttr 0) 0x3000000003027 }) s) ((up []).setWord {} (.accGlbAttr 0) 0x3000000003027) none .secure .read 0 48 ≠ none ∧
       (modOwner (fun _ => { st := .owned }) s).owner.st ≠ .claimOpen) ∧
    (Takes (modBoot (fun x => { x with st := .polling }) (up [])) boss .ownBoot 0) := by
  unfold Takes; and_intros <;> decide +kernel

/-! ### Further clauses of the statements -/

/-- O7, O22 to O24: a wake without a warning; two slots in one access, and a pair that goes round the end of the ring; a forwarded request that can be taken. -/
def forwarded : State := modCrs (fun c => { c with queue := [{ req [] with origin := .course 2 9 0, place := .course, phase := .admitted }] }) (up t0)
theorem witness_more1 :
    ((modRet (fun r => { r with asleep := true }) (stage false false false false)).ret.asleep = true ∧ (stage false false false false).sup.active = false) ∧
    (let q : Sq := posted 2
     let addr (j : Nat) : Nat := q.base.toNat + (q.head + q.nextSlot + j) % 2 ^ q.k * 32
     addr 1 = addr 0 + 32 ∧ addr 0 % 4096 + 64 ≤ 4096 ∧ check (ring q (up open0)) (up open0).gen.act (some 0) q.dbWorld .read (addr 0) (32 * 2) = none ∧
       (ring q (up open0)).ret.req = false ∧ ¬(0 + (15 + 1) % 2 ^ q.k * 32 = 0 + 15 % 2 ^ q.k * 32 + 32)) ∧
    (fwdReady forwarded = true ∧ fwdReady (up t0) = false ∧ ((pickRing (turnRounds (markWaiting forwarded)) 2).map Prod.fst) = some ringFwd) := by and_intros <;> decide +kernel
theorem witness_more1Grant : grantClass (turnRounds (markWaiting forwarded)) = some 2 := by decide +kernel

/-- O25, O26, O28 to O31: a request of this engine; a return that no one waits for; a public-key operation that yields on its tile; a piece of a pair of cipher tiles, and a
pair of public-key tiles at its end; a vote that is at work; an operation on one tile and on two. -/
def yields (long7 : Option Nat) : State := banks (.running 7 0) (.resident 3 0)
  (modReqs (fun _ => [{ req [{ opOf 0x63 with phase := .running, tiles := [20], checked := true, left := long7 }] with cls := 2 },
    { req [{ opOf 0x63 with phase := .saved, tiles := [20], checked := true }] with id := 3, cls := 1 }]) (up t0))
theorem witness_more2 :
    ((admitted badEntry).foreign = false ∧ ((reading 1).buf 0).stale = 0 ∧
      0 < ((({ req [] with bufs := [(0, { started := true, issued := 1, stale := 1 })] } : Req)).buf 0).stale) ∧
    (let s := yields none
     let now := keepLeft (7, 0) 5 s
     tilesOpen s = true ∧ (s.tile 20).st = .healthy ∧ pkRunning s 20 = some (7, 0, false) ∧ runTiles s 20 (7, 0) = [20] ∧ resting (s.tile 20) = [(3, 0)] ∧ isService now 2 (3, 0) = false ∧
       mayRun now 20 (3, 0) [20] = true ∧ clsOf now 3 < clsOf now 7 ∧ ((s.req 7).map (fun r => ((r.op 0).checked, (r.op 0).disputed, (r.op 0).phase))) = some (true, false, .running)) ∧
    (let s := Tests.withReq (pairOp false none) (up t0)
     tilesOpen s = true ∧ (pairOp false none).phase = .running ∧ kindOfW ((pairOp false none).op 0).w = 1 ∧ s.held = false) ∧
    (atEnd { req [{ opOf 0x63 with phase := .running, tiles := [20, 21], checked := true, hashes := 2 }] with paired := true } 0 = true ∧ kindOfW (opOf 0x63).w = 3) ∧
    (let s := modTile 2 (fun u => { u with run := some (7, 0) }) (Tests.withReq (pairOp true (some 2)) (up t0))
     (s.tile 2).run = some (7, 0) ∧ tilesOpen s = true ∧ (pairOp true (some 2)).phase = .running ∧ ((pairOp true (some 2)).op 0).phase = .running ∧ ((pairOp true (some 2)).op 0).disputed = true) ∧
    (((running 0x40 16).op 0).tiles = 16 :: [] ∧ ((pairOp false none).op 0).tiles = [0, 1] ∧ (0 : Nat) ≠ 1) := by and_intros <;> decide +kernel

/-- O37: nothing is held; a frame whose read-back is out; a request at work and one that has ended with DONE; a request whose record has left. -/
theorem witness_more3 :
    ((up t0).held = false ∧ (tripped .ctl (up t0)).held = true) ∧
    (let r := { endedReq (.ring 0) .cq with refs := [{ kind := kFrame, len := 1 }], bufs := [(1, { fence := true })] }
     (Tests.withReq r (up t0)).req 7 = some r ∧ r.phase = .ended ∧ (r.buf (1 : Fin 8).val).fence = true) ∧
    ((reading 1).openTo (up t0) = true ∧ (reading 1).errBuf 0 .write none = some 0 ∧ ((reading 1).buf 0).fence = false ∧ (endedReq (.ring 0) .cq).openTo (up t0) = true) ∧
    (let s := ten { left := [{ id := 7, ring := 0, tag := 0, gen := 1 }] } (up t0)
     s.req 7 = none ∧ leftOf s 7 = some (some 0, { id := 7, ring := 0, tag := 0, gen := 1 })) := by and_intros <;> decide +kernel

/-- O43 and O44: a source that has failed, and one that is read raw; a generator before and after the fuse read, and the first that is healthy. -/
theorem witness_more4 :
    ((source { st := .failed }).es.st = .failed ∧ rawOn (rawUp 32) = true ∧ (source { samples := List.replicate 1024 true }).es.st ≠ .failed ∧ rawOn (source { samples := List.replicate 1024 true }) = false) ∧
    ((stage true true true false).start.fuses = false ∧ (source { pool := [[4]] }).start.fuses = true ∧
      (let s := modRbg 0 (fun r => { r with st := .failed }) (source { pool := [[4]] })
       s.ks.kTag = none ∧ (s.rbg 0).st ≠ .uninit ∧ (∀ j, j < 2 → (s.rbg j).st ≠ .healthy) ∧ (s.rbg 1).st = .uninit) ∧
      ((1 : Nat) ≠ 0 ∧ ((source {}).rbg 0).st = .uninit)) := by
  and_intros <;> decide +kernel

/-- O45: the unit is to be gated, and retention is asked for; a stopped channel at the end of its table and within it; one with a line and one with elements read ahead; a
channel that waits for the credit that CLRCRED takes. -/
theorem witness_more5 :
    ((gatePend 24 (up c0)).clk.pending.toNat.testBit 24 = true ∧ (modRet (fun r => { r with req := true }) (up c0)).ret.req = true ∧ (up c0).clk.pending.toNat.testBit 24 = false ∧ (up c0).ret.req = false) ∧
    ((at_ { st := .stopped, desc := 1 }).dc 0).count ≤ ((at_ { st := .stopped, desc := 1 }).dc 0).desc ∧ itemOk (at_ { st := .stopped }) 0 0 ∧ ((at_ { st := .stopped }).dc 0).desc < ((at_ { st := .stopped }).dc 0).count ∧
    (({ st := .running } : Chan).lines = [] ∧ ({ st := .running } : Chan).ahead = [] ∧ ({ st := .running, ahead := [⟨0, 0, [1], 0, 0, 0⟩] } : Chan).ahead ≠ []) ∧
    (let c : Chan := { st := .running, psrc := 1, held := some (desc 0), credit := 1 }
     c.inUnit = false ∧ c.atPoint = false ∧ c.place = true ∧ ({ c with credit := 0 } : Chan).needsCredit = true) ∧
    (let s := modClk (fun c => { c with gated := 0x1000000 }) (at_ { st := .paused, psrc := 1 })
     s.start.serving = true ∧ s.ret.asleep = false ∧ dcuOn s = false) := by
  unfold itemOk; and_intros <;> decide +kernel

/-- O46 and O47: a fetch and a read-back that a stopped channel left behind; a stopped channel at its point; the first element of a write of 64 bytes, one that joins, one that
fills it, one that does not join, at both places; an element read ahead; a read-back in front of those of a trowel FENCE. -/
theorem witness_more6 :
    (let c : Chan := { st := .running, held := some (desc 0), strays := [⟨false, false, false⟩] }
     c.strays.any (fun x => !x.back) = true ∧ c.strays.any (fun x => x.back) = false ∧ (zeros 48).length = c.itemLen ∧
       ({ c with strays := [⟨true, false, false⟩] } : Chan).strays.any (fun x => x.back) = true ∧ ({ st := .paused, held := some (desc 0), atPoint := true } : Chan).trowel = false) ∧
    (let b := toLE 6 0x1000 ++ [0xFF, 0xFF] ++ toLE 6 0x2000 ++ [1] ++ (desc 0).drop 15
     let g : GLine := ⟨0, 0x2000, zeros 60, 0, 0, 0⟩
     let c : Chan := { st := .running, held := some b, inUnit := true }
     let d := readDesc b
     dcuOn (at_ c) = true ∧ dcTurn (at_ c) 0 = true ∧ c.atPoint = false ∧ c.ahead = [] ∧ (zeros 4).length = d.lenIn ∧ c.i0 + 1 < d.count0 ∧ d.xmode ≠ 2 ∧ c.lines.find? (fun g => g.key = 0) = none ∧
       d.xmode = 0 ∧ (zeros 4).length < 64 ∧ (g.addr + g.data.length = 0x203C ∧ g.data.length + 4 = 64) ∧ g.addr + g.data.length ≠ 0x2100 ∧
       dcCheck (at_ c) 0 .write 0x2000 64 = none ∧ dcCheck (chan c (up c0)) 0 .write 0x2000 60 ≠ none ∧
       dcMayRead (at_ c) 0 d [(1, 0, 0)] false = true ∧ dcMayRead (at_ { c with ahead := [⟨0, 0, zeros 4, 1, 0, 0⟩] }) 0 d [(1, 0, 0)] false = false) ∧
    (let c : Chan := { prog (ins 0x0B 0 0 0 0) with strays := [⟨true, false, false⟩] }
     AtOp (at_ c) 0 0x0B (ins 0x0B 0 0 0 0) ∧ c.strays.any (fun x => x.back) = true ∧ dcuOn (at_ c) = true) := by
  unfold AtOp; and_intros <;> decide +kernel

/-- O48: a move that is complete as it resumes; a read that fails before the write, and behind it; an XMOVE that is complete as it resumes, one that stays within a write and the
sample whose read fails. -/
theorem witness_more7 :
    (let b := ins 0x04 0x10 0 8 0
     let c := { prog b with aregs := [(0, 0x1000), (1, 0x2000)], i0 := 8 }
     AtOp (at_ c) 0 0x04 b ∧ (c.place = true ∨ c.needsPlace = false) ∧ 8 ≤ c.off ∧ ([] : Bytes).length ≤ 8 - c.off ∧ (tF b).testBit 0 = false ∧ (tF b).testBit 1 = false ∧
       { c with recCfg := 0x104, recTail := 16 }.place = false ∧ { c with i0 := 0 }.needsPlace = true) ∧
    (let c := { prog (ins 0x04 0x10 0 8 0) with aregs := [(0, 0x1000), (1, 0x2000)] }
     dcCheck (dcTag 0 (chan c (up c0))) 0 .read 0x1000 4 = some (0x1000, 2) ∧ dcCheck (dcTag 0 (chan c (up c0))) 0 .write 0x2000 4 = some (0x2000, 2) ∧ 0x1000 - 0x1000 ≤ 0x2000 - 0x2000) ∧
    (let b := ins 0x05 0x10 0 1 0
     let c := { prog b with aregs := [(0, 0x1000), (1, 0x2000)], xcfg := some 1 }
     AtOp (at_ c) 0 0x05 b ∧ c.i2 + 1 < tI32 b + 1 ∧ { c with i2 := 1 }.i2 + 1 = tI32 b + 1 ∧ tI32 b + 1 ≤ { c with i2 := 2 }.i2 ∧ c.lines = [] ∧ xMode 1 ≠ 2 ∧ 1 * xNch 1 * xOut 1 < 64 ∧
       check (chan c (up c0)) (up c0).gen.act (some (dcTen (chan c (up c0)) 0)) (dcWorld (chan c (up c0)) 0) .read (xSrc 1 0x1000 0 0 0).toNat (xIn 1) ≠ none) := by
  unfold AtOp; and_intros <;> decide +kernel

/-- O49 to O53: read-backs out and in; a boundary that is due and one that is not; a signature that fails with another still under way; a tenant that is disabled while a channel has
a fetch out; a channel with elements read ahead as its unit is gated. -/
theorem witness_more8 :
    ((req []).fencesIn = true ∧ { req [] with port0 := some 0 }.fencesIn = false) ∧
    (let s := modSch (fun c => { c with due := 100 }) (modTime (fun x => { x with ns := 100 }) (modOwn (fun o => { o with timeCtl := 1 }) (up [(.ownSched, 0x6400000001)])))
     s.sch.due ≤ s.time.ns.toNat ∧ s.run = true ∧ 0 < s.resv ∧ (modTime (fun x => { x with ns := 99 }) s).time.ns.toNat < s.sch.due ∧ s.period = 100 ∧ boundaryAt 100 101 = 200) ∧
    (let s := modGen (fun g => { g with image := patched }) (runs 3 20 (.patch 0 false) patchUp)
     s.sch.jobs.find? (fun q => decide (q.id = 9)) = some (job 3 (.patch 0 false)) ∧ (imgSections patched).length = 1 ∧ jobTile s (job 3 (.patch 0 false)) = some 20 ∧
       (job 3 (.patch 0 true)).work.purpose = .patches) ∧
    ((({ strays := [⟨false, false, false⟩] } : Chan).strays.all (fun x => !x.taken)) = true ∧ ({ st := .running, atPoint := true, backs := true } : Chan).due = false ∧
      ({ st := .running, atPoint := true } : Chan).due = true) := by and_intros <;> decide +kernel

/-- O54, O55: a count at the limits of its window; retention with a request forwarded here, and with a running channel; a wake before and behind its tests. -/
theorem witness_more9 :
    (fld ((up []).mon .tile).lim 13 0 ≤ fld ((up []).mon .tile).lim 29 16 ∧ fld ((up []).mon .tile).lim 29 16 < 2 ^ 14 - 1) ∧
    ((up []).crs.queue = [] ∧ forwarded.crs.queue ≠ [] ∧ (up []).dcs.all (fun p => decide (p.2.st ≠ .running ∧ p.2.st ≠ .waiting)) = true ∧
      (at_ { st := .running }).dcs.all (fun p => decide (p.2.st ≠ .running ∧ p.2.st ≠ .waiting)) = false) ∧
    (let s := modClk (fun c => { c with ctl := { c.ctl with clean := 1 }, tile := { c.tile with clean := 1 }, aux := { c.aux with clean := 1 } }) (modRet (fun r => { r with asleep := true }) (up []))
     s.ret.asleep = true ∧ s.ret.req = false ∧ s.start.osc = true ∧ s.sup.active = false ∧ (monitored s .ctl = true → 1 ≤ (s.mon .ctl).clean) ∧ 1 ≤ (s.mon .tile).clean ∧ 1 ≤ (s.mon .aux).clean ∧
       (modRet (fun r => { r with tested := true }) s).ret.tested = true) := by and_intros <;> decide +kernel

/-- O56, O57: the last word of a record with one behind it; a locked page without a register; the time with its high half latched. -/
theorem witness_more10 :
    ((jrn { reading := [5], recs := [[1, 2, 3]] }).jrn.recs = (1 :: 2 :: [3]) :: [] ∧ (jrn { lostDue := 1 }).jrn.stalled = [] ∧ (jrn { lostDue := 1 }).jrn.reading.length ≤ 16) ∧
    (regAt ((0x2FFFF8 - 0x2D0000 : BitVec 22).toNat / 8 * 8) = none ∧ (lockedPage (0x2FFF8 : BitVec 22).toNat).isSome = true ∧ regAt ((0x2FFF8 : BitVec 22).toNat / 8 * 8) = none ∧
      (up []).dbgEn = false ∧ probe.dbg = true ∧ (0x300004 : BitVec 22).toNat = 0x300004) ∧
    (latched (latch (.statTime 0) true (up [])) boss (Reg.off (.statTime 0) + 4)).isSome = true := by and_intros <;> decide +kernel

/-- O58, O59: the two signatures behind the hybrid operation of a member, and the last of the two; a BEAT of a second master; frames of a master that the engine follows, of a second one, and of one
that it hears first; a request that waits and is recalled; a credit that comes back. -/
theorem witness_more11 :
    (let s := runs 3 20 (.pairing 2 .hybrid) (crs 2 1 { step := .working })
     crsIsMaster s = false ∧ jobTile s (job 3 (.pairing 2 .hybrid)) = some 20 ∧
       (let u := modSch (fun c => { c with jobs := c.jobs ++ [{ id := 10, kind := 3, work := .pairing 2 .mldsa }] }) (runs 3 20 (.pairing 2 .es384) (crs 2 1 { step := .working }))
        u.sch.jobs.find? (fun q => decide (q.id = 9)) = some (job 3 (.pairing 2 .es384)) ∧ (u.sch.jobs.filter (fun q => decide (q.id ≠ 9))).map (fun q => q.work.purpose) = [.pairing 2]) ∧
       mayAttest (runs 3 20 (.pairing 2 .mldsa) (crs 1 1 { step := .hello })) = false) ∧
    ({ linked with role := 1 }.role = roMaster ∧ crsRole (crs 1 3 { linked with role := 1 }) = roMaster ∧ 2 < crsPos (crs 1 3 { linked with role := 1 }) ∧ linked.role ≠ roMaster) ∧
    (2 ∈ crsOthers (crs 1 3 linked) ∧ crsRole (crs 2 3 linked) ≠ roMaster ∧ (crs 2 3 linked).crs.heard = false ∧ keepsMaster 2 1 (crs 2 3 linked) = false ∧
      keepsMaster 2 1 (modCrs (fun c => { c with master := 1, heard := true }) (crs 2 3 linked)) = true ∧ 3 ∉ crsOthers (crs 2 3 linked)) ∧
    (let s := modCrs (fun c => { c with master := 2, heard := true, queue := [ofPeer 9] }) (crs 2 1 { linked with owed := [9] })
     hearMaster 2 s = s ∧ fromMaster s 2 = true ∧ foreignOf s 2 9 = none ∧ s.crs.queue.any (fun r => r.isForeign 2 9) = true ∧ (s.peer 2).owed.erase 9 = [] ∧ creditNumbers [9, 0, 0, 0] = [9]) := by
  and_intros <;> decide +kernel

/-- O60: a request whose two tiles are not free, and one whose are. -/
theorem witness_more12 :
    (bootPaired (bootUp (bootEntry 1 1 ++ zero32)).boot = false ∧ pairFits (up t0) zero32 = true ∧ (bootUp []).ret.req = false) := by and_intros <;> decide +kernel

/-! ### Single steps, with results from the spec -/

/-- The queue: a command at the front takes effect (R20, notes/assumptions/3.md); on an empty one nothing counts while RUN is 0 (R351). -/
theorem test_queue : (match step { up [] with pending := [.claimWindowClose, .oscFault] } with | .next t => decide (t.pending = [.oscFault]) | _ => false) = true ∧
    (match step (up []) with | .next t => decide (t = up []) | _ => false) = true := by decide +kernel

/-- The strap example of 02_owner_and_tenants.md, 0x6630: 12 tenants, MAX_INFLIGHT 32, course master, every tenant paired. -/
theorem test_straps : (let s := modStart (fun x => { x with strap := 0x6630 }) State.reset
    s.eff .ownTenEn = 0x0FFF ∧ fld (s.eff (.ownQuota 0)) 8 0 = 32 ∧ fld (s.eff (.ownCourse 0)) 1 0 = 1 ∧ (s.eff (.ownQuota 0)).toNat.testBit 24 = true) := by decide +kernel

def master (m : BitVec 8) : Who := ⟨m, .secure, false⟩

/-- The election example of 02_owner_and_tenants.md: the claim of 7.9 µs, the one of 12.0 µs, and the non-secure one of 30.0 µs. -/
theorem test_election :
    ((fxOwnClaim (master 0x04) 0xC0 (window 0x10 0x80)).owner.leadMid = 0x04 ∧ (fxOwnClaim (master 0x04) 0xC0 (window 0x10 0x80)).owner.leadPrio = 0xC0) ∧
    (fxOwnClaim (master 0x02) 0xC0 (window 0x04 0xC0)).owner.leadMid = 0x02 ∧ (fxOwnClaim ⟨0x01, .nonsecure, false⟩ 0xFF (window 0x02 0xC0)).owner.leadMid = 0x02 := by decide +kernel

/-- The clamp example of 03_rings_and_doorbells.md: head 3, tail 17, TAIL = 22 and COUNT = 2. -/
theorem test_doorbellClamp : (let t := fxSqDoorbell boss 0 0 22 2 false (ring { posted 2 with head := 3, tail := 17 } (up t0))
    (t.sq 0 0).tail = 19 ∧ (t.sq 0 0).voids = [17, 18] ∧ (t.ten 0).led.posted = 2 ∧ (t.ten 0).led.clamped = 2 ∧ (t.sq 0 0).clamp = true ∧
      fld (readRing t (.dbSq 0 0)) 16 0 = 0x13) := by decide +kernel

/-- The example of an entry of five slots: head 11, tail 14, the new tail 19. -/
theorem test_doorbellWraps : (let t := fxSqDoorbell boss 0 0 19 1 false (ring { posted 1 with head := 11, tail := 14 } (up t0))
    (t.sq 0 0).tail = 19 ∧ (t.sq 0 0).occ = 8 ∧ (t.sq 0 0).voids = []) := by decide +kernel

/-- The example of 04_request_chains.md: its header slot, with OP1 behind it. -/
def exampleEntry : Bytes :=
  [0x17, 0x0A, 0x47, 0x04, 0x98, 0x04, 0, 0, 0x21, 0x0B, 0, 0xFF, 0x23, 0x01, 0, 0, 0, 0, 0x10, 0x8A, 0x40, 0, 0, 0, 0x10, 0x18, 0, 0, 0, 0, 0, 0]
    ++ [0x1A, 0x98, 0x80, 0x28, 0, 0, 0, 0]
theorem test_header : eTag exampleEntry = 0x0A17 ∧ eNstr exampleEntry = 7 ∧ eNops exampleEntry = 4 ∧ eNbuf exampleEntry = 4 ∧ ePlen exampleEntry = 152 ∧ eFlags exampleEntry = 4 ∧
    (readRef (slice exampleEntry 16 16)).addr = 0x00408A100000 ∧ (readRef (slice exampleEntry 16 16)).len = 6160 ∧ (readRef (slice exampleEntry 16 16)).kind = kFlat := by decide +kernel
theorem test_operationWords :
    eOp exampleEntry 0 = { opc := 0x21, src := 0xB, dst := 0, aux := 0, opt := 0, kfrom := false, poff := 0xFF, key := 0x123 } ∧
    eOp exampleEntry 1 = { opc := 0x1A, src := 8, dst := 9, aux := 0, opt := 0, kfrom := true, poff := 0x28, key := 0 } := by decide +kernel

/-- The stall example of 05_completions_and_ledger.md: HEAD = 16 frees the 16 places of CQ3. -/
theorem test_headWrite : (let t := fxCqDoorbell boss 0 3 16 (modCq 0 3 (fun c => { c with en := true, tail := 16, stall := true }) (up t0))
    (t.cq 0 3).head = 16 ∧ (t.cq 0 3).occ = 0 ∧ (t.cq 0 3).hclamp = false ∧ (t.cq 0 3).stall = false) := by decide +kernel

/-- The trowel program of 12_data_channels.md: instruction 5 as it is stored, and its JUMP. -/
theorem test_trowelWord : (let b : Bytes := [0x05, 0x10, 0x01, 0, 0x5F, 0, 0, 0, 0, 1, 0, 0, 0, 0, 0, 0]
    tOpc b = 5 ∧ tRa b = 0 ∧ tRb b = 1 ∧ (tF b).testBit 0 = true ∧ tI32 b + 1 = 96 ∧ tI64 b = 256) := by decide +kernel
theorem test_adda : (let s := fxAdda 0 (at_ { prog (ins 0x02 0 0 0x800 0) with aregs := [(0, 0x004070010000)] })
    (s.dc 0).aregs.look 0 0 = 0x004070010800 ∧ (s.dc 0).desc = 1 ∧ (s.dc 0).fetching = true) := by decide +kernel

/-- Conversion of a 24-bit big-endian sample to 16 bits keeps its two most significant bytes (R310). -/
theorem test_convert : convSample 2 true true [0x12, 0x34, 0x56] = [0x12, 0x34] ∧ convSample 2 false false [0x56, 0x34, 0x12] = [0x34, 0x12] := by decide +kernel

/-- A TIME_INC of 1.25 ns per cycle: four cycles of a running count are 5 ns (R347). -/
theorem test_tick : (let s := armed 1
    ((tick s).time.ns = 1 ∧ (tick s).time.frac = 0x40000000) ∧ (tick (tick (tick (tick s)))).time.ns = 5) := by decide +kernel

/-- A trip in the contain response fences the clock's 16 tiles and no other (R401, R405). -/
theorem test_trip : (let t := fxClockStopTrip .tile (up [])
    (t.tile 0).st = .fenced ∧ (t.tile 15).st = .fenced ∧ (t.tile 16).st = .healthy ∧ t.clk.cause = 2) := by decide +kernel

/-- The third quarantine of a tile retires it (R424). -/
theorem test_retire : (let t := fxRejoinTestDone (.tile 23) false (quarantined 2 .testing)
    (t.tile 23).st = .retired) := by decide +kernel

end Sys2Proof.Tests
end

section
/-!
Claims and the handover of ownership (R28 to R37): what a claim, an offer, an accept and a lapse each do to the ownership and to the rest of
the state, and the statements O8 and O10.
-/

namespace Sys2Proof.Machine

/-! ### A field of a packed word -/

/-- A field of a word put together from fields reads back its value, where no other field reaches into it (R5). -/
theorem fld_packed {fs : List (Nat × Nat × Nat)} {msb lsb v : Nat} (hmem : (lsb, msb + 1 - lsb, v) ∈ fs) (hmsb : msb < 64)
    (hv : v < 2 ^ (msb + 1 - lsb)) (hsep : ∀ f ∈ fs, f = (lsb, msb + 1 - lsb, v) ∨ f.1 + f.2.1 ≤ lsb ∨ msb < f.1) :
    fld (packed fs) msb lsb = v := by
  refine fld_eq _ _ _ _ hv fun i hi => ?_
  rw [bit_packed fs (i + lsb) (by omega), Bool.eq_iff_iff, List.any_eq_true]
  simp only [Bool.and_eq_true, decide_eq_true_eq]
  constructor
  · rintro ⟨f, hf, ⟨hlow, hhigh⟩, hbit⟩
    rcases hsep f hf with rfl | hapart
    · simpa using hbit
    · omega
  · exact fun hbit => ⟨_, hmem, ⟨by simp, by simpa using hi⟩, by simpa using hbit⟩

/-- AH_STAT_OWNER.LEAD_MID. -/
theorem statOwner_leadMid (s : State) : fld (readStat s .statOwner) 23 16 = s.owner.leadMid.toNat :=
  fld_packed (by simp) (by decide) s.owner.leadMid.isLt (by simp)

/-- AH_STAT_OWNER.LEAD_PRIO. -/
theorem statOwner_leadPrio (s : State) : fld (readStat s .statOwner) 31 24 = s.owner.leadPrio.toNat :=
  fld_packed (by simp) (by decide) s.owner.leadPrio.isLt (by simp)

/-! ### Ignored claims and accepts -/

theorem countDenied_denied (s : State) : (countDenied s).denied = s.denied.bump := by
  unfold countDenied
  dsimp only
  split <;> rfl

/-- One record, then one count, is a dropped write (R38). -/
theorem Dropped.of_record {s x : State} (hx : Only recordParts s x) (hseq : x.jrn.seq = s.jrn.seq + 1) : Dropped s (countDenied x) := by
  have hcount : Only [.denied, .evPend] x (countDenied x) := Only.countDenied x (by decide) (Only.refl _ _)
  refine ⟨(hx.mono (by decide)).trans (hcount.mono (by decide)), ?_, ?_⟩
  · rw [hcount.jrn (by decide), hseq]
  · rw [countDenied_denied, show x.denied = s.denied from hx.2 .denied (by decide)]

theorem ignoredRecord_dropped (who : Who) (prio : Nat) (accept : Bool) (s : State) : Dropped s (countDenied (ignoredRecord who prio accept s)) :=
  .of_record (Only.journal _ _ _ s (by decide) (Only.refl _ _)) (journal_seq _ _ _ s)

/-! ### The leading claim -/

theorem outranks_iff (o : Owner) (who : Who) (prio : BitVec 8) :
    outranks o who prio = true ↔ o.leadPrio < prio ∨ (o.leadPrio = prio ∧ who.mid < o.leadMid) := by
  simp only [outranks, Bool.or_eq_true, Bool.and_eq_true, decide_eq_true_eq, BitVec.lt_def]

/-- In the window a secure master's claim of a priority but 0 is weighed against the leading one (R29). -/
theorem claim_open {who : Who} {prio : BitVec 8} {s : State} (hclr : s.start.cleared = true) (hdbg : who.dbg = false)
    (hopen : s.owner.st = .claimOpen) (hsec : who.world = .secure) (hprio : prio ≠ 0) :
    claim who prio s = if outranks s.owner who prio then modOwner (fun o => { o with leadMid := who.mid, leadPrio := prio }) s else s := by
  rw [claim, if_neg (by simp [hclr]), if_neg (by simp [hdbg]), if_pos ⟨hopen, hsec, hprio⟩]

/-! ### Offer, accept and lapse -/

theorem handover_other {target : BitVec 8} {s : State} (h : target ≠ s.owner.mid) :
    handover target s = modOwner (fun o => { o with st := .offered, offer := target }) s := if_neg h

theorem handover_owner {target : BitVec 8} {s : State} (h : target = s.owner.mid) :
    handover target s = modOwner (fun o => { o with st := .owned, offer := 0 }) s := if_pos h

theorem handover_mid (target : BitVec 8) (s : State) : (handover target s).owner.mid = s.owner.mid := by
  unfold handover
  split <;> rfl

theorem isTarget_iff (s : State) (who : Who) :
    isTarget s who = true ↔ who.dbg = false ∧ s.owner.st = .offered ∧ who.mid = s.owner.offer ∧ who.world = .secure := by
  simp only [isTarget, Bool.and_eq_true, Bool.not_eq_true', decide_eq_true_eq, and_assoc]

theorem accept_target {who : Who} {s : State} (hclr : s.start.cleared = true) (htarget : isTarget s who = true) :
    accept who false s =
      raiseG gHandoverDone (modOwner (fun o => { o with mid := who.mid, cause := BitVec.ofNat 2 caHandover, st := .owned, offer := 0 }) s) := by
  simp [accept, hclr, htarget, ((isTarget_iff s who).mp htarget).1]

theorem accept_ignored {who : Who} {meets : Bool} {s : State} (hclr : s.start.cleared = true) (hdbg : who.dbg = false)
    (h : meets = true ∨ isTarget s who = false) : accept who meets s = countDenied (ignoredRecord who 0 true s) := by
  rcases h with h | h <;> simp [accept, hclr, hdbg, h]

/-- A write of 0 to GO that the port takes changes nothing (R34). -/
theorem fxOwnAccept_zero_taken {who : Who} {meets : Bool} {s : State} (hserve : s.start.serving = true)
    (hrole : s.isOwner who = true ∨ isTarget s who = true) : fxOwnAccept who false meets s = s := by
  rcases hrole with h | h <;> simp [fxOwnAccept, acceptPiece, b2n, bitOf, hserve, h]

/-- A write of 0 to GO before the first service point, or by neither the owner nor the target, is dropped (R37, R470). -/
theorem fxOwnAccept_zero_denied {who : Who} {meets : Bool} {s : State} (hclr : s.start.cleared = true)
    (h : s.start.serving = false ∨ (s.isOwner who = false ∧ isTarget s who = false)) :
    fxOwnAccept who false meets s = dropReg who .ownAccept 0 s := by
  rcases h with h | ⟨howner, htarget⟩
  · simp [fxOwnAccept, acceptPiece, dropReg, b2n, bitOf, hclr, h]
  · simp [fxOwnAccept, acceptPiece, dropReg, b2n, bitOf, hclr, howner, htarget]

theorem fxHandoverLapsed_offered {s : State} (h : s.owner.st = .offered) :
    fxHandoverLapsed s = raiseG gHandoverLapsed (modOwner (fun o => { o with st := .owned, offer := 0 }) s) :=
  whenS_true (decide_eq_true h)

/-- What the accept of the target leaves (R34). -/
theorem accept_target_facts {who : Who} {s : State} (hclr : s.start.cleared = true) (htarget : isTarget s who = true) :
    let t := accept who false s
    Only [.owner, .evPend] s t ∧ t.owner.mid = who.mid ∧ t.owner.cause = 3 ∧ t.owner.st = .owned ∧ t.isOwner who = true ∧
      bitOf t.evPend gHandoverDone = true := by
  obtain ⟨hdbg, -, -, hsec⟩ := (isTarget_iff s who).mp htarget
  rw [accept_target hclr htarget]
  refine ⟨?_, rfl, rfl, rfl, ?_, raiseG_bit _ _ (by decide)⟩
  · exact Only.raiseG _ _ (by decide) (Only.modOwner _ (by decide) (Only.refl _ _))
  · simp [State.isOwner, modOwner_owner, hdbg, hsec]

/-- What the lapse of an offer leaves (R35). -/
theorem fxHandoverLapsed_facts {s : State} (h : s.owner.st = .offered) :
    let t := fxHandoverLapsed s
    Only [.owner, .evPend] s t ∧ t.owner.st = .owned ∧ t.owner.mid = s.owner.mid ∧ t.owner.offer = 0 ∧ bitOf t.evPend gHandoverLapsed = true := by
  refine ⟨Only.fxHandoverLapsed s (by decide) (Only.refl _ _), ?_⟩
  rw [fxHandoverLapsed_offered h]
  exact ⟨rfl, rfl, rfl, raiseG_bit _ _ (by decide)⟩

end Sys2Proof.Machine

namespace Sys2Proof.Ownership
open Sys2Proof.Machine

/-- Settles O8: a claim in the window is `outranks` against the leading claim, so it either replaces that claim or leaves the state as it
was; the two fields of AH_STAT_OWNER read what is kept. -/
theorem leadingClaim : Obligations.LeadingClaim := by
  unfold Obligations.LeadingClaim
  intro who prio s hclr hdbg hopen hsec hprio
  have hclaim := claim_open hclr hdbg hopen hsec hprio
  refine ⟨claim who prio s, rfl, ?frame, ?wins, ?loses, statOwner_leadMid _, statOwner_leadPrio _⟩
  case frame =>
    rw [hclaim]
    exact Only.ite (fun _ => Only.modOwner _ (by decide) (Only.refl _ _)) (fun _ => Only.refl _ _)
  case wins =>
    intro hbeats
    rw [hclaim, if_pos ((outranks_iff s.owner who prio).mpr hbeats), modOwner_owner]
  case loses =>
    intro hloses
    have hnot : ¬ outranks s.owner who prio = true := by
      rw [outranks_iff]
      bv_omega
    rw [hclaim, if_neg hnot]

/-- Settles O10, clause by clause: an offer that the port takes is `handover`; an accept is the target's or is recorded and counted; a write
of 0 to GO is judged by its role; a lapse takes the offer back. -/
theorem handover : Obligations.Handover := by
  unfold Obligations.Handover
  refine ⟨?offer, ?accepted, ?ignored, ?zero, ?lapse⟩
  case offer =>
    intro who target s htakes
    refine ⟨Machine.handover target s, congrArg _ (gateW_takes htakes), Only.handover _ _ (by decide) (Only.refl _ _), handover_mid _ _, ?_, ?_⟩
    · intro hother
      rw [handover_other hother]
      exact ⟨rfl, rfl⟩
    · intro howner
      rw [handover_owner howner]
      exact ⟨rfl, rfl⟩
  case accepted =>
    intro who s hclr hdbg hoffered hmid hsec
    exact ⟨accept who false s, rfl, accept_target_facts hclr ((isTarget_iff s who).mpr ⟨hdbg, hoffered, hmid, hsec⟩)⟩
  case ignored =>
    intro who meets s hclr hdbg hcase
    have hnot : meets = true ∨ isTarget s who = false := by
      refine hcase.imp_right fun h => Bool.eq_false_iff.mpr fun htarget => ?_
      obtain ⟨-, hoffered, hmid, hsec⟩ := (isTarget_iff s who).mp htarget
      exact h.elim (· hoffered) (Or.elim · (· hmid) (· hsec))
    refine ⟨accept who meets s, rfl, ?_⟩
    rw [accept_ignored hclr hdbg hnot]
    exact ignoredRecord_dropped _ _ _ s
  case zero =>
    intro who meets s hclr
    refine ⟨fun hserve hrole => congrArg _ (fxOwnAccept_zero_taken hserve hrole), fun hdenied => ?_⟩
    exact ⟨dropReg who .ownAccept 0 s, congrArg _ (fxOwnAccept_zero_denied hclr hdenied), dropReg_dropped _ _ _ s⟩
  case lapse =>
    exact fun s hoffered => ⟨fxHandoverLapsed s, rfl, fxHandoverLapsed_facts hoffered⟩

end Sys2Proof.Ownership
end

section
/-!
Submission rings (R57 to R63, R67): what a doorbell that fits, one that is clamped, one without effect and one that is dropped each do, and what
clearing and setting EN do, with the statements O17, O18 and O20.
-/

namespace Sys2Proof.Machine

/-! ### The measures of a doorbell (R55, R57) -/

/-- The advance a of a doorbell: how far its TAIL lies beyond the tail (R57). -/
abbrev Sq.advance (q : Sq) (tail : Nat) : Nat := (tail % 2 ^ (q.k + 1) + 2 ^ (q.k + 1) - q.tail % 2 ^ (q.k + 1)) % 2 ^ (q.k + 1)

/-- The head against which a doorbell is judged: the one before the control cycle where it meets another doorbell in it (R57, R63). -/
abbrev Sq.judgedHead (q : Sq) (meets : Bool) : Nat := if meets then q.headWas else q.head

/-- The free space f that a doorbell finds (R55). -/
abbrev Sq.freeFor (q : Sq) (meets : Bool) : Nat := 2 ^ q.k - Machine.occ q.k (q.judgedHead meets) q.tail

/-- TAIL equal to the tail is an advance of 0. -/
theorem Sq.advance_tail {q : Sq} {tail : Nat} (h : tail % 2 ^ (q.k + 1) = q.tail) : q.advance tail = 0 := by
  have hlt : q.tail < 2 ^ (q.k + 1) := h ▸ Nat.mod_lt _ (Nat.two_pow_pos _)
  rw [Sq.advance, h, Nat.mod_eq_of_lt hlt, Nat.add_sub_cancel_left, Nat.mod_self]

/-! ### What a doorbell leaves -/

/-- What a doorbell to ring m of tenant n leaves: the tail, the counters by which POSTED, QUEUED and CLAMPED rise, and whether CLAMP is set and
EV_SQ_CLAMP raised. Every other ring and every other tenant is as it was. -/
structure DoorbellLeaves (n m : Nat) (s t : State) (tail posted queued clamped : Nat) (raised : Bool) : Prop where
  tail : (t.sq n m).tail = tail
  queued : (t.sq n m).queued = (s.sq n m).queued + BitVec.ofNat 64 queued
  led : (t.ten n).led = { (s.ten n).led with
    posted := (s.ten n).led.posted + BitVec.ofNat 64 posted
    clamped := (s.ten n).led.clamped + BitVec.ofNat 64 clamped }
  clamp : (t.sq n m).clamp = ((s.sq n m).clamp || raised)
  event : raised = true → TenEvent t n evSqClamp
  otherTens : OtherTens n s t
  otherSqs : OtherSqs n m s t

theorem ten_of_tens {s t : State} (h : t.tens = s.tens) (k : Nat) : t.ten k = s.ten k := by rw [State.ten, h, State.ten]

theorem OtherSqs.modSq {n m : Nat} {s x : State} (f : Sq → Sq) (h : OtherSqs n m s x) : OtherSqs n m s (Machine.modSq n m f x) :=
  fun a b hab => (modSq_sq_ne f x hab).trans (h a b hab)

section
variable {n m : Nat} {s x : State} {tail posted queued clamped : Nat} {raised : Bool}

/-- Counting a doorbell in the ledger, where the ring has its new tail and QUEUED. -/
theorem DoorbellLeaves.addPosted (htens : x.tens = s.tens) (hsqs : OtherSqs n m s x) (htail : (x.sq n m).tail = tail)
    (hqueued : (x.sq n m).queued = (s.sq n m).queued + BitVec.ofNat 64 queued) (hclamp : (x.sq n m).clamp = (s.sq n m).clamp) :
    DoorbellLeaves n m s (Machine.addPosted n posted clamped x) tail posted queued clamped false := by
  have hten := ten_of_tens htens
  exact {
    tail := htail
    queued := hqueued
    led := by rw [Machine.addPosted, modTen_ten_same, hten]
    clamp := by rw [Bool.or_false]; exact hclamp
    event := nofun
    otherTens := fun k hk => (modTen_ten_ne _ _ hk).trans (hten k)
    otherSqs := hsqs }

/-- Setting CLAMP and raising EV_SQ_CLAMP. -/
theorem DoorbellLeaves.sqClampEvent (h : DoorbellLeaves n m s x tail posted queued clamped raised) :
    DoorbellLeaves n m s (Machine.sqClampEvent n m x) tail posted queued clamped true where
  tail := by simpa [Machine.sqClampEvent] using h.tail
  queued := by simpa [Machine.sqClampEvent] using h.queued
  led := by simpa [Machine.sqClampEvent, raiseT] using h.led
  clamp := by simp [Machine.sqClampEvent]
  event _ := raiseT_event _ _ _ (by decide)
  otherTens k hk := (modTen_ten_ne _ _ hk).trans (h.otherTens k hk)
  otherSqs a b hab := by simpa [Machine.sqClampEvent, hab] using h.otherSqs a b hab

/-- Draining held pulses moves nothing that a doorbell leaves (R355). -/
theorem DoorbellLeaves.drainPulses (fuel : Nat) (h : DoorbellLeaves n m s x tail posted queued clamped raised) :
    DoorbellLeaves n m s (Machine.drainPulses n m fuel x) tail posted queued clamped raised := by
  obtain ⟨⟨_, _, hsq⟩, hsqs, htens⟩ := drainPulses_sq n m fuel x
  have hten := ten_of_tens htens
  exact {
    tail := by rw [hsq, h.tail]
    queued := by rw [hsq, h.queued]
    led := by rw [hten, h.led]
    clamp := by rw [hsq, h.clamp]
    event := fun hr => (h.event hr).of_ten (hten n)
    otherTens := fun k hk => (hten k).trans (h.otherTens k hk)
    otherSqs := fun a b hab => (hsqs a b hab).trans (h.otherSqs a b hab) }

/-- Settling a ring moves its head, and nothing that a doorbell leaves (R59, R61). -/
theorem DoorbellLeaves.settleRing (h : DoorbellLeaves n m s x tail posted queued clamped raised) :
    DoorbellLeaves n m s (Machine.settleRing n m x) tail posted queued clamped raised := by
  obtain ⟨⟨_, _, _, _, _, _, hsq⟩, hsqs, hled, htens, hevent⟩ := settleRing_sq n m x
  exact {
    tail := by rw [hsq, h.tail]
    queued := by rw [hsq, h.queued]
    led := by rw [hled, h.led]
    clamp := by rw [hsq, h.clamp]
    event := fun hr => hevent _ (h.event hr)
    otherTens := fun k hk => (htens k hk).trans (h.otherTens k hk)
    otherSqs := fun a b hab => (hsqs a b hab).trans (h.otherSqs a b hab) }

end

/-! ### Doorbells that are judged (R58, R59) -/

section
variable {n m : Nat} {mid : BitVec 8} {w : World} {tail count : Nat} {meets : Bool} {s : State}

/-- A doorbell that fits is taken: the smaller of COUNT and the advance is queued, and the rest of COUNT is clamped (R58). -/
theorem doorbell_fits (hfits : (s.sq n m).advance tail ≤ (s.sq n m).freeFor meets) :
    DoorbellLeaves n m s (doorbell n m mid w tail count meets s) (tail % 2 ^ ((s.sq n m).k + 1)) count (min count ((s.sq n m).advance tail))
      (count - min count ((s.sq n m).advance tail)) (decide (count - min count ((s.sq n m).advance tail) ≠ 0)) := by
  unfold doorbell
  dsimp only
  rw [if_pos hfits]
  have hdrain {x : State} {t p c d : Nat} {r : Bool} (h : DoorbellLeaves n m s x t p c d r) :
      DoorbellLeaves n m s (if (s.sq n m).pulseMode then drainPulses n m 8 x else x) t p c d r := by
    split
    · exact h.drainPulses 8
    · exact h
  refine .settleRing (hdrain ?_)
  split
  next hall =>
    rw [← hall, Nat.sub_self]
    exact .addPosted rfl (.modSq _ (.modSq _ fun _ _ _ => rfl)) (by simp) (by simp) (by simp)
  next hrest =>
    rw [decide_eq_true (Nat.sub_ne_zero_of_lt (lt_of_le_of_ne (Nat.min_le_left _ _) (Ne.symm hrest)))]
    exact .sqClampEvent (.addPosted rfl (.modSq _ (.modSq _ fun _ _ _ => rfl)) (by simp) (by simp) (by simp))

/-- A doorbell that does not fit leaves the ring full, and its whole COUNT is clamped (R59). -/
theorem doorbell_clamped (hover : (s.sq n m).freeFor meets < (s.sq n m).advance tail) :
    DoorbellLeaves n m s (doorbell n m mid w tail count meets s)
      (((s.sq n m).judgedHead meets + 2 ^ (s.sq n m).k) % 2 ^ ((s.sq n m).k + 1)) count 0 count true := by
  unfold doorbell
  dsimp only
  rw [if_neg (Nat.not_le.mpr hover)]
  exact .settleRing (.sqClampEvent (.addPosted rfl (.modSq _ (.modSq _ fun _ _ _ => rfl)) (by simp) (by simp) (by simp)))

/-- The void marks that a clamped doorbell leaves in a paused ring, whose head does not move (R59, R72). -/
theorem doorbell_clamped_voids (hover : (s.sq n m).freeFor meets < (s.sq n m).advance tail) (hpaused : (s.sq n m).paused = true) :
    ((doorbell n m mid w tail count meets s).sq n m).voids = (s.sq n m).voids ++
      (List.range ((s.sq n m).advance ((s.sq n m).judgedHead meets + 2 ^ (s.sq n m).k))).map
        (fun i => ((s.sq n m).tail + i) % 2 ^ ((s.sq n m).k + 1)) := by
  unfold doorbell
  dsimp only
  rw [if_neg (Nat.not_le.mpr hover), settleRing_idle (.inr (by simp [sqClampEvent, addPosted, hpaused]))]
  simp [sqClampEvent, addPosted]

end

/-! ### A doorbell write that the port takes (R59, R62) -/

section
variable {who : Who} {n : TenantIx} {m : RingIx} {tail count : Nat} {meets : Bool} {s : State}

/-- The three reasons of a drop (R62). -/
theorem doorbellDropped_iff (s : State) (n m : Nat) :
    doorbellDropped s n m = true ↔ (s.sq n m).en = false ∨ (s.ten n).inReset = true ∨ s.enabled n = false := by
  simp [doorbellDropped, or_assoc]

theorem doorbellVoid_iff (q : Sq) : doorbellVoid q tail count = true ↔ tail % 2 ^ (q.k + 1) = q.tail ∧ count = 0 := by
  simp [doorbellVoid]

theorem dbWrite_dropped (h : doorbellDropped s n m = true) :
    dbWrite who n m tail count meets s = dropReg who (.dbSq n m) (BitVec.ofNat 64 (tail + 2 ^ 17 * count)) s := if_pos h

theorem dbWrite_judged (h : doorbellDropped s n m = false) (hvoid : ¬ doorbellVoid (s.sq n m) tail count = true) :
    dbWrite who n m tail count meets s = doorbell n m who.mid who.world tail count meets s := by
  rw [dbWrite, if_neg (by simp [h]), if_neg hvoid]

/-- TAIL equal to the tail with COUNT 0 moves no counter (R59). -/
theorem dbWrite_void (h : doorbellDropped s n m = false) (hvoid : doorbellVoid (s.sq n m) tail count = true) :
    DoorbellLeaves n m s (dbWrite who n m tail count meets s) (s.sq n m).tail 0 0 0 false := by
  rw [dbWrite, if_neg (by simp [h]), if_pos hvoid]
  split
  · exact ⟨rfl, by simp, by simp, by simp, nofun, fun _ _ => rfl, fun _ _ _ => rfl⟩
  · exact ⟨by simp, by simp, by simp, by simp, nofun, fun _ _ => rfl, .modSq _ fun _ _ _ => rfl⟩

/-- A doorbell that is not dropped, and that fits (R58). -/
theorem dbWrite_fits (h : doorbellDropped s n m = false) (hfits : (s.sq n m).advance tail ≤ (s.sq n m).freeFor meets) :
    DoorbellLeaves n m s (dbWrite who n m tail count meets s) (tail % 2 ^ ((s.sq n m).k + 1)) count (min count ((s.sq n m).advance tail))
      (count - min count ((s.sq n m).advance tail)) (decide (count - min count ((s.sq n m).advance tail) ≠ 0)) := by
  by_cases hvoid : doorbellVoid (s.sq n m) tail count = true
  · obtain ⟨htail, rfl⟩ := (doorbellVoid_iff _).mp hvoid
    rw [htail]
    simpa using dbWrite_void h hvoid
  · rw [dbWrite_judged h hvoid]
    exact doorbell_fits hfits

/-- A doorbell that does not fit is not one without effect. -/
theorem dbWrite_clamped (h : doorbellDropped s n m = false) (hover : (s.sq n m).freeFor meets < (s.sq n m).advance tail) :
    dbWrite who n m tail count meets s = doorbell n m who.mid who.world tail count meets s := by
  refine dbWrite_judged h fun hvoid => ?_
  rw [Sq.advance_tail ((doorbellVoid_iff _).mp hvoid).1] at hover
  exact Nat.not_lt_zero _ hover

/-- A doorbell that is not dropped changes only rings and tenants. -/
theorem dbWrite_only (h : doorbellDropped s n m = false) : Only [.tens, .sqs] s (dbWrite who n m tail count meets s) := by
  rw [dbWrite, if_neg (by simp [h])]
  refine Only.ite (fun _ => ?_) (fun _ => Only.doorbell _ _ _ _ _ _ _ s (by decide) (Only.refl _ _))
  exact Only.ite (fun _ => Only.refl _ _) (fun _ => Only.modSq _ _ _ (by decide) (Only.refl _ _))

/-- A doorbell write that the port takes is the effect of `dbWrite`. -/
theorem exec_sqDoorbell_taken {tail : BitVec 17} {count : BitVec 15}
    (htakes : Takes s who (.dbSq n m) (BitVec.ofNat 64 (tail.toNat + 2 ^ 17 * count.toNat))) :
    exec (.sqDoorbell who n m tail count meets) s = .next (dbWrite who n m tail.toNat count.toNat meets s) :=
  congrArg _ (gateW_takes htakes)

end

/-! ### Clearing and setting EN (R67, R499) -/

section
variable {n : TenantIx} {m : RingIx} {s : State}

theorem not_admissible_of_disabled (h : (s.sq n m).en = false) : admissible s n m = false := by
  simp [admissible, readyHead, h]

theorem not_admissible_of_blocked (h : (s.sq n m).blocked = true) : admissible s n m = false := by
  simp [admissible, readyHead, h]

theorem sqClearEn_sq (n m : Nat) (s : State) : (sqClearEn n m s).sq n m = { s.sq n m with
    en := false, blocked := false, cache := [], charges := [], flight := (s.sq n m).flight.map (fun r => { r with live := false }) } :=
  modSq_sq_same n m _ s

/-- Setting EN of a disabled ring settles the ring with EN set and with FAULT holding its entries back (R67, R499). -/
theorem sqSetEn_disabled {n m : Nat} (h : (s.sq n m).en = false) :
    ∃ x, sqSetEn n m s = settleRing n m x ∧ x.sq n m = { s.sq n m with en := true, blocked := (s.sq n m).fault } ∧ x.tens = s.tens ∧
      OtherSqs n m s x :=
  ⟨_, rfl, by simp [h], rfl, .modSq _ fun _ _ _ => rfl⟩

/-- What setting EN of a disabled ring leaves: the ledger, the tail and QUEUED stay, and a ring whose FAULT reads 1 takes no entry (R67, R499). -/
theorem sqSetEn_facts (h : (s.sq n m).en = false) :
    let q := s.sq n m
    let t := sqSetEn n m s
    OtherTens n s t ∧ OtherSqs n m s t ∧ (t.ten n).led = (s.ten n).led ∧
      (t.sq n m).en = true ∧ (t.sq n m).blocked = q.fault ∧ (t.sq n m).tail = q.tail ∧ (t.sq n m).queued = q.queued := by
  obtain ⟨x, ht, hx, htens, hsqs⟩ := sqSetEn_disabled h
  obtain ⟨⟨_, _, _, _, _, _, hsq⟩, hsqs', hled, htens', -⟩ := settleRing_sq n m x
  have hten := ten_of_tens htens
  rw [ht]
  refine ⟨fun k hk => (htens' k hk).trans (hten k), fun a b hab => (hsqs' a b hab).trans (hsqs a b hab), by rw [hled, hten], ?_⟩
  simp [hsq, hx]

/-- With no void mark and nothing surplus, setting EN changes EN alone, but for what FAULT holds back (R67). -/
theorem sqSetEn_calm {n m : Nat} (h : (s.sq n m).en = false) (hvoids : (s.sq n m).voids = [])
    (hcalm : (s.sq n m).queued ≠ 0 ∨ (s.sq n m).head = (s.sq n m).tail) :
    (sqSetEn n m s).sq n m = { s.sq n m with en := true, blocked := (s.sq n m).fault } := by
  obtain ⟨x, ht, hx, -, -⟩ := sqSetEn_disabled h
  rw [ht, (settleRing_calm (by rw [hx]; exact hvoids) (by rw [hx]; exact hcalm)).1, hx]

end

end Sys2Proof.Machine

namespace Sys2Proof.Doorbells
open Sys2Proof.Machine

/-- Settles O17: a doorbell that the port takes is `dbWrite`, which either has no effect, with an advance of 0, or is judged to fit. -/
theorem doorbellTaken : Obligations.DoorbellTaken := by
  unfold Obligations.DoorbellTaken
  intro who n m tail count meets s htakes hdrop q md a c head hfits
  have hleaves := dbWrite_fits (who := who) (count := count.toNat) hdrop hfits
  exact ⟨_, exec_sqDoorbell_taken htakes, dbWrite_only hdrop, hleaves.otherTens, hleaves.otherSqs, hleaves.tail, hleaves.queued, hleaves.led,
    hleaves.clamp, fun hrest => hleaves.event (decide_eq_true hrest)⟩

/-- Settles O18: a doorbell beyond the free space is judged, and leaves the ring full; one that the ring does not take is the port's drop, and
`doorbellDropped` names no other reason. -/
theorem doorbellClampedOrDropped : Obligations.DoorbellClampedOrDropped := by
  unfold Obligations.DoorbellClampedOrDropped
  refine ⟨?clamped, ?dropped, fun n m s => doorbellDropped_iff s n m⟩
  case clamped =>
    intro who n m tail count meets s htakes hdrop q md head hover
    have hleaves := doorbell_clamped (mid := who.mid) (w := who.world) (count := count.toNat) hover
    have hwrite := dbWrite_clamped (who := who) (count := count.toNat) hdrop hover
    rw [← hwrite] at hleaves
    refine ⟨_, exec_sqDoorbell_taken htakes, dbWrite_only hdrop, hleaves.otherTens, hleaves.otherSqs, hleaves.tail, ?_, hleaves.led, ?_,
      hleaves.event rfl, fun hpaused => ?_⟩
    · rw [hleaves.queued, BitVec.add_zero]
    · rw [hleaves.clamp, Bool.or_true]
    · rw [hwrite, doorbell_clamped_voids hover hpaused]
  case dropped =>
    intro who n m tail count meets s htakes hreason
    refine ⟨_, exec_sqDoorbell_taken htakes, ?_⟩
    rw [dbWrite_dropped ((doorbellDropped_iff s n m).mpr hreason)]
    exact dropReg_dropped _ _ _ s

/-- Settles O20: clearing EN is `sqClearEn`, which leaves a ring that nothing is admitted from; setting it is `sqSetEn`, which settles the ring
from its head. -/
theorem ringDisableEnable : Obligations.RingDisableEnable := by
  unfold Obligations.RingDisableEnable
  refine ⟨?disable, ?enable⟩
  case disable =>
    intro who n m s htakes q
    have hsq := sqClearEn_sq n m s
    refine ⟨sqClearEn n m s, congrArg _ (gateW_takes htakes), Only.sqClearEn _ _ s (by decide) (Only.refl _ _), .modSq _ fun _ _ _ => rfl, ?_, hsq⟩
    exact not_admissible_of_disabled (by rw [hsq])
  case enable =>
    intro who n m s htakes hoff q
    obtain ⟨hotherTens, hotherSqs, hled, hen, hblocked, htail, hqueued⟩ := sqSetEn_facts hoff
    refine ⟨sqSetEn n m s, congrArg _ (gateW_takes htakes), Only.sqSetEn _ _ s (by decide) (Only.refl _ _), hotherTens, hotherSqs, hled, hen,
      hblocked, htail, hqueued, fun hfault => ?_, sqSetEn_calm hoff⟩
    exact not_admissible_of_blocked (hblocked.trans hfault)

end Sys2Proof.Doorbells
end

section
/-!
Head writes to completion rings and ledger snapshots (R116, R130): where a head write leaves the head, what else it leaves, who may take a
snapshot and what its registers read, with the statements O38 and O40.
-/

namespace Sys2Proof.Machine

/-! ### The judgement of a written head (R116) -/

/-- The advance a of a head write: how far its HEAD lies beyond the head (R116). -/
abbrev Cq.advance (c : Cq) (new : Nat) : Nat := (new % 2 ^ (c.k + 1) + 2 ^ (c.k + 1) - c.head % 2 ^ (c.k + 1)) % 2 ^ (c.k + 1)

section
variable {c : Cq} {new : Nat}

theorem judgeHead_within (h : c.advance new ≤ c.occ) : judgeHead c.k c.head c.tail new = (new % 2 ^ (c.k + 1), false) := if_pos h

theorem judgeHead_beyond (hocc : c.occ < c.advance new) (hsize : c.advance new ≤ 2 ^ c.k) :
    judgeHead c.k c.head c.tail new = (c.tail, true) :=
  (if_neg (Nat.not_le.mpr hocc)).trans (if_pos hsize)

theorem judgeHead_behind (hocc : c.occ < c.advance new) (hsize : 2 ^ c.k < c.advance new) :
    judgeHead c.k c.head c.tail new = (c.head, true) :=
  (if_neg (Nat.not_le.mpr hocc)).trans (if_neg (Nat.not_le.mpr hsize))

end

/-! ### What a head write leaves (R116, R121) -/

/-- What a head write to completion ring m of tenant n leaves: the head, HCLAMP, and whether EV_CQ_HEAD_CLAMP is raised. The tail, the
ledger and every other tenant are as they were. -/
structure HeadWriteLeaves (n m : Nat) (s t : State) (head : Nat) (hclamp raised : Bool) : Prop where
  head : (t.cq n m).head = head
  hclamp : (t.cq n m).hclamp = hclamp
  tail : (t.cq n m).tail = (s.cq n m).tail
  event : raised = true → TenEvent t n evCqHeadClamp
  led : (t.ten n).led = (s.ten n).led
  otherTens : OtherTens n s t

@[simp] theorem trimSent_cq (n m : Nat) (s : State) (a b : Nat) : (trimSent n m s).cq a b = s.cq a b := rfl

section
variable {n m : Nat} {s x : State} {head : Nat} {hclamp raised : Bool}

/-- Moving the head, with the written records behind it let go (R116, R122). -/
theorem HeadWriteLeaves.moveHead : HeadWriteLeaves n m s
    (trimSent n m (modCq n m (fun c => { c with head := head, hclamp := c.hclamp || raised }) s)) head ((s.cq n m).hclamp || raised) false := by
  have hcq : (trimSent n m (modCq n m (fun c => { c with head := head, hclamp := c.hclamp || raised }) s)).cq n m =
      { s.cq n m with head := head, hclamp := (s.cq n m).hclamp || raised } :=
    (trimSent_cq n m _ n m).trans (modCq_cq_same n m _ s)
  exact {
    head := by rw [hcq]
    hclamp := by rw [hcq]
    tail := by rw [hcq]
    event := nofun
    led := rfl
    otherTens := fun _ _ => rfl }

/-- Raising EV_CQ_HEAD_CLAMP. -/
theorem HeadWriteLeaves.clampEvent (h : HeadWriteLeaves n m s x head hclamp raised) :
    HeadWriteLeaves n m s (raiseT n evCqHeadClamp x) head hclamp true where
  head := h.head
  hclamp := h.hclamp
  tail := h.tail
  event _ := raiseT_event _ _ _ (by decide)
  led := by rw [raiseT, modTen_ten_same, h.led]
  otherTens k hk := (modTen_ten_ne _ _ hk).trans (h.otherTens k hk)

/-- Clearing STALL moves nothing that a head write leaves (R121). -/
theorem HeadWriteLeaves.unstall (h : HeadWriteLeaves n m s x head hclamp raised) :
    HeadWriteLeaves n m s (Machine.unstall n x) head hclamp raised := by
  obtain ⟨hcqs, honly⟩ := unstall_facts n x
  obtain ⟨stall, hcq⟩ := hcqs n m
  have hten := ten_of_tens (honly.2 .tens (by decide))
  exact {
    head := by rw [hcq, h.head]
    hclamp := by rw [hcq, h.hclamp]
    tail := by rw [hcq, h.tail]
    event := fun hr => (h.event hr).of_ten (hten n)
    led := by rw [hten, h.led]
    otherTens := fun k hk => (hten k).trans (h.otherTens k hk) }

/-- A head write leaves the head that its judgement gives; a clamped one sets HCLAMP and raises the event (R116). -/
theorem cqHead_leaves {new : Nat} {clamped : Bool} (hjudged : judgeHead (s.cq n m).k (s.cq n m).head (s.cq n m).tail new = (head, clamped)) :
    HeadWriteLeaves n m s (cqHead n m new s) head ((s.cq n m).hclamp || clamped) clamped := by
  unfold cqHead
  simp only [hjudged]
  refine .unstall ?_
  cases clamped with
  | false => exact .moveHead
  | true => exact .clampEvent .moveHead

end

/-- A head write that the port takes is the effect of `cqHead`. -/
theorem exec_cqDoorbell_taken {who : Who} {n : TenantIx} {m : RingIx} {head : BitVec 17} {s : State}
    (htakes : Takes s who (.dbCq n m) (head.setWidth 64)) :
    exec (.cqDoorbell who n m head) s = .next (cqHead n m head.toNat s) := by
  rw [← gateW_takes (f := cqHead n m head.toNat) htakes]
  rfl

/-- AH_Tn_DB_CQm is its HEAD field alone (R116, R502). -/
theorem readRing_dbCq (n : TenantIx) (m : RingIx) (s : State) : readRing s (.dbCq n m) = BitVec.ofNat 64 ((s.cq n m).head % 2 ^ 17) := by
  simp [readRing, packed, put]

/-! ### A ledger snapshot (R130) -/

/-- The owner and a master bound to the set-up page of an enabled tenant may write that page (R37). -/
theorem mayWrite_setup_iff (s : State) (who : Who) (n : TenantIx) :
    mayWrite s who (.ts n) = true ↔ s.isOwner who = true ∨ (s.enabled n = true ∧ s.boundSetup who n = true) := by
  simp [mayWrite]

theorem exec_ledgerSnap_taken {who : Who} {n : TenantIx} {s : State} (htakes : Takes s who (.tnLedgerCtl n) 1) :
    exec (.ledgerSnap who n) s = .next (ledgerSnap n s) :=
  congrArg _ (gateW_takes htakes)

theorem ledgerSnap_ten (n : Nat) (s : State) :
    (ledgerSnap n s).ten n = { s.ten n with snap := (s.ten n).led, snapQueued := queuedOf s n, snapTime := s.time.ns } :=
  modTen_ten_same _ _ _

section
variable {s : State} {n : TenantIx} (henabled : s.enabled n = true)
include henabled

/-- The first six SNAP registers of an enabled tenant read the copied counters (R501). -/
theorem readTenant_snap_counter {i : Fin 8} (hi : i.val < 6) : readTenant s (.tnSnap n i) = (s.ten n).snap.nth i.val := by
  simp [readTenant, henabled, hi]

/-- AH_Tn_SNAP_QUEUED of an enabled tenant (R501). -/
theorem readTenant_snap_queued : readTenant s (.tnSnap n 6) = (s.ten n).snapQueued := by
  simp [readTenant, henabled]

/-- AH_Tn_SNAP_TIME of an enabled tenant (R501). -/
theorem readTenant_snap_time : readTenant s (.tnSnap n 7) = (s.ten n).snapTime := by
  simp [readTenant, henabled]

end

end Sys2Proof.Machine

namespace Sys2Proof.Completions
open Sys2Proof.Machine

/-- Settles O38: a head write that the port takes is `cqHead`, which leaves what the judgement of its HEAD gives; the doorbell's register
is the head in use. -/
theorem headWrites : Obligations.HeadWrites := by
  unfold Obligations.HeadWrites
  refine ⟨?_, readRing_dbCq⟩
  intro who n m head s htakes c md a
  have hleaves := cqHead_leaves (n := n) (m := m) (s := s) (new := head.toNat) rfl
  refine ⟨_, exec_cqDoorbell_taken htakes, Only.cqHead _ _ _ s (by decide) (Only.refl _ _), hleaves.otherTens, hleaves.led, hleaves.tail,
    ?within, ?beyond, ?behind⟩
  case within =>
    intro hocc
    have hleft := cqHead_leaves (judgeHead_within hocc)
    exact ⟨hleft.head, hleft.hclamp.trans (Bool.or_false _)⟩
  case beyond =>
    intro hocc hsize
    have hleft := cqHead_leaves (judgeHead_beyond hocc hsize)
    exact ⟨hleft.head, hleft.hclamp.trans (Bool.or_true _), hleft.event rfl⟩
  case behind =>
    intro hocc hsize
    have hleft := cqHead_leaves (judgeHead_behind hocc hsize)
    exact ⟨hleft.head, hleft.hclamp.trans (Bool.or_true _), hleft.event rfl⟩

/-- Settles O40: a snapshot that the port takes is `ledgerSnap`, which changes the tenant's copy alone, and the SNAP registers read that copy. -/
theorem ledgerSnapshot : Obligations.LedgerSnapshot := by
  unfold Obligations.LedgerSnapshot
  refine ⟨fun who n s => (mayWrite_setup_iff s who n).mpr, fun who n s htakes => ?_⟩
  have hten := ledgerSnap_ten n s
  refine ⟨ledgerSnap n s, exec_ledgerSnap_taken htakes, Only.ledgerSnap _ _ (by decide) (Only.refl _ _), fun k hk => modTen_ten_ne _ _ hk, hten,
    fun henabled => ?_⟩
  have hcounter {i : Fin 8} (hi : i.val < 6) : readTenant (ledgerSnap n s) (.tnSnap n i) = (s.ten n).led.nth i.val := by
    rw [readTenant_snap_counter (s := ledgerSnap n s) henabled hi, hten]
  refine ⟨hcounter (by decide), hcounter (by decide), hcounter (by decide), hcounter (by decide), hcounter (by decide), hcounter (by decide), ?_, ?_⟩
  · rw [readTenant_snap_queued (s := ledgerSnap n s) henabled, hten]
  · rw [readTenant_snap_time (s := ledgerSnap n s) henabled, hten]

end Sys2Proof.Completions
end

section
/-!
Assertion and release of the engine reset (R32, R48, R240, R411): what an assertion and a supply failure leave of the state, and what the straps
give at the release, with the statement O6.
-/

namespace Sys2Proof.Machine

/-! ### Assertion of the reset (R32, R411) -/

/-- Every part that a reset may change is at its reset value, whatever the cause and the state, but `.start`, which holds the cause. -/
theorem engineReset_same_reset (cause : Nat) (s : State) {p : Part} (hreset : p ∈ resetParts) (hstart : p ≠ .start) :
    p.same State.reset (engineReset cause s) := by
  cases p with
  | start => exact absurd rfl hstart
  | out => exact absurd hreset (by decide)
  | free => exact absurd hreset (by decide)
  | _ => rfl

/-! ### The straps at the release (R48) -/

/-- The owner registers with the fields that the straps give at the release: RESP, the boot ring's EN and the debug EN. -/
def strapResets (strap : BitVec 16) (o : OwnRegs) : OwnRegs :=
  { o with
    clkmon := setFld o.clkmon 0 0 (b2n (strap.toNat.testBit 12))
    boot := put 0 (b2n (strap.toNat.testBit 14))
    dbg := put 0 (b2n (strap.toNat.testBit 15)) }

/-- A one-bit field at bit 0 reads what is put there. -/
theorem bitOf_put_b2n (b : Bool) : bitOf (put 0 (b2n b)) 0 = b := by
  cases b <;> decide

/-- Writing the one-bit field at bit 0 of any word gives that bit. -/
theorem bitOf_setFld_b2n (w : Word) (b : Bool) : bitOf (setFld w 0 0 (b2n b)) 0 = b := by
  have hold : bitOf (w &&& ~~~ maskOf 0 0) 0 = false := by simp [bitOf, maskOf]
  have hnew : bitOf (BitVec.ofNat 64 (b2n b <<< 0) &&& maskOf 0 0) 0 = b := by cases b <;> decide
  rw [setFld, bitOf_or, hold, hnew, Bool.false_or]

/-- A release that is due samples the straps: a pin or supply reset is due at once, the reset of the clock monitors once the clocks are in band
(R404). -/
theorem fxEngineResetRelease_due {strap : BitVec 16} {s : State} (hrst : s.start.rst = true)
    (hdue : s.start.cause ≠ 2 ∨ allInBand s = true) :
    fxEngineResetRelease strap s =
      modOwn (strapResets strap) (modStart (fun t => { t with rst := false, strap := strap, osc := false, nmi := false }) s) :=
  whenS_true (by simpa [hrst] using hdue)

end Sys2Proof.Machine

namespace Sys2Proof.EngineReset
open Sys2Proof.Machine

/-- Settles O6: an assertion and a supply failure are `engineReset` with their own cause; a release that is due gives `strapResets`. -/
theorem resetAndRelease : Obligations.ResetAndRelease := by
  unfold Obligations.ResetAndRelease
  refine ⟨?pin, ?supply, ?release⟩
  case pin => exact fun s => ⟨engineReset 0 s, rfl, fun _ => engineReset_same_reset 0 s, rfl, rfl⟩
  case supply => exact fun s => ⟨engineReset 1 s, rfl, fun _ => engineReset_same_reset 1 s, rfl, rfl⟩
  case release =>
    intro strap s hrst hdue
    refine ⟨fxEngineResetRelease strap s, rfl, Only.fxEngineResetRelease strap s (by decide) (Only.refl _ _), ?_⟩
    rw [fxEngineResetRelease_due hrst hdue]
    exact ⟨rfl, rfl, bitOf_setFld_b2n _ _, bitOf_put_b2n _, bitOf_put_b2n _⟩

end Sys2Proof.EngineReset
end

section
/-!
What every step does (O1 to O5): one case for each constructor of `Instr` says that `exec` answers a next state, which keeps the invariant and
changes only the parts listed for the command; the empty queue is one control cycle of the time count.
-/

namespace Sys2Proof.Machine

/-! ### The empty queue (R347) -/

/-- While RUN is 1 a control cycle adds INC to the 96 bits of the count and its fraction (R347). -/
theorem tick_count {s : State} (hrun : s.run = true) :
    (tick s).time.ns.toNat * 2 ^ 32 + (tick s).time.frac.toNat =
      (s.time.ns.toNat * 2 ^ 32 + s.time.frac.toNat + s.own.timeInc.toNat) % 2 ^ 96 := by
  simp only [tick, hrun, if_true, modTime_time, BitVec.toNat_ofNat]
  omega

theorem tick_stands {s : State} (hrun : s.run = false) : tick s = s := by
  simp [tick, hrun]

/-! ### Every command -/

/-- A command answers a next state, which keeps the invariant and changes only the parts listed for the command: its effect does. -/
theorem exec_next (c : Instr) (s : State) :
    ∃ t, exec c s = .next t ∧ (∀ q, Ok q s → Ok q t) ∧ Only (mayChange c) s t := by
  cases c with
  | engineResetRelease _ => exact ⟨_, rfl, fun _ => Ok.fxEngineResetRelease _ s, Only.fxEngineResetRelease _ s (by dsimp only [mayChange]; decide) (.refl _ s)⟩
  | supplyFailureReset => exact ⟨_, rfl, fun _ => Ok.fxSupplyFailureReset s, Only.fxSupplyFailureReset s (by dsimp only [mayChange]; decide) (.refl _ s)⟩
  | oscillatorReady => exact ⟨_, rfl, fun _ => Ok.fxOscillatorReady s, Only.fxOscillatorReady s (by dsimp only [mayChange]; decide) (.refl _ s)⟩
  | fuseReadDone _ => exact ⟨_, rfl, fun _ => Ok.fxFuseReadDone _ s, Only.fxFuseReadDone _ s (by dsimp only [mayChange]; decide) (.refl _ s)⟩
  | identityReady _ _ => exact ⟨_, rfl, fun _ => Ok.fxIdentityReady _ _ s, Only.fxIdentityReady _ _ s (by dsimp only [mayChange]; decide) (.refl _ s)⟩
  | firstServicePoint => exact ⟨_, rfl, fun _ => Ok.fxFirstServicePoint s, Only.fxFirstServicePoint s (by dsimp only [mayChange]; decide) (.refl _ s)⟩
  | ownClaim _ _ => exact ⟨_, rfl, fun _ => Ok.fxOwnClaim _ _ s, Only.fxOwnClaim _ _ s (by dsimp only [mayChange]; decide) (.refl _ s)⟩
  | claimWindowClose => exact ⟨_, rfl, fun _ => Ok.fxClaimWindowClose s, Only.fxClaimWindowClose s (by dsimp only [mayChange]; decide) (.refl _ s)⟩
  | ownHandover _ _ => exact ⟨_, rfl, fun _ => Ok.fxOwnHandover _ _ s, Only.fxOwnHandover _ _ s (by dsimp only [mayChange]; decide) (.refl _ s)⟩
  | ownAccept _ _ _ => exact ⟨_, rfl, fun _ => Ok.fxOwnAccept _ _ _ s, Only.fxOwnAccept _ _ _ s (by dsimp only [mayChange]; decide) (.refl _ s)⟩
  | handoverLapsed => exact ⟨_, rfl, fun _ => Ok.fxHandoverLapsed s, Only.fxHandoverLapsed s (by dsimp only [mayChange]; decide) (.refl _ s)⟩
  | registerWrite _ _ _ _ => exact ⟨_, rfl, fun _ => Ok.fxRegisterWrite _ _ _ _ s, Only.fxRegisterWrite _ _ _ _ s (by dsimp only [mayChange]; decide) (.refl _ s)⟩
  | ownTrst _ _ => exact ⟨_, rfl, fun _ => Ok.fxOwnTrst _ _ s, Only.fxOwnTrst _ _ s (by dsimp only [mayChange]; decide) (.refl _ s)⟩
  | tenantCtlReset _ _ => exact ⟨_, rfl, fun _ => Ok.fxTenantCtlReset _ _ s, Only.fxTenantCtlReset _ _ s (by dsimp only [mayChange]; decide) (.refl _ s)⟩
  | tenantResetDone _ => exact ⟨_, rfl, fun _ => Ok.fxTenantResetDone _ s, Only.fxTenantResetDone _ s (by dsimp only [mayChange]; decide) (.refl _ s)⟩
  | sqDoorbell _ _ _ _ _ _ => exact ⟨_, rfl, fun _ => Ok.fxSqDoorbell _ _ _ _ _ _ s, Only.fxSqDoorbell _ _ _ _ _ _ s (by dsimp only [mayChange]; decide) (.refl _ s)⟩
  | sqSetupWrite _ _ _ _ _ => exact ⟨_, rfl, fun _ => Ok.fxSqSetupWrite _ _ _ _ _ s, Only.fxSqSetupWrite _ _ _ _ _ s (by dsimp only [mayChange]; decide) (.refl _ s)⟩
  | sqEnable _ _ _ => exact ⟨_, rfl, fun _ => Ok.fxSqEnable _ _ _ s, Only.fxSqEnable _ _ _ s (by dsimp only [mayChange]; decide) (.refl _ s)⟩
  | sqDisable _ _ _ => exact ⟨_, rfl, fun _ => Ok.fxSqDisable _ _ _ s, Only.fxSqDisable _ _ _ s (by dsimp only [mayChange]; decide) (.refl _ s)⟩
  | sqPause _ _ _ => exact ⟨_, rfl, fun _ => Ok.fxSqPause _ _ _ s, Only.fxSqPause _ _ _ s (by dsimp only [mayChange]; decide) (.refl _ s)⟩
  | sqPaused _ _ => exact ⟨_, rfl, fun _ => Ok.fxSqPaused _ _ s, Only.fxSqPaused _ _ s (by dsimp only [mayChange]; decide) (.refl _ s)⟩
  | sqInval _ _ _ => exact ⟨_, rfl, fun _ => Ok.fxSqInval _ _ _ s, Only.fxSqInval _ _ _ s (by dsimp only [mayChange]; decide) (.refl _ s)⟩
  | sqInvalDone _ _ => exact ⟨_, rfl, fun _ => Ok.fxSqInvalDone _ _ s, Only.fxSqInvalDone _ _ s (by dsimp only [mayChange]; decide) (.refl _ s)⟩
  | sqUnpause _ _ _ => exact ⟨_, rfl, fun _ => Ok.fxSqUnpause _ _ _ s, Only.fxSqUnpause _ _ _ s (by dsimp only [mayChange]; decide) (.refl _ s)⟩
  | sqFaultClear _ _ _ => exact ⟨_, rfl, fun _ => Ok.fxSqFaultClear _ _ _ s, Only.fxSqFaultClear _ _ _ s (by dsimp only [mayChange]; decide) (.refl _ s)⟩
  | entryCacheRead _ _ _ => exact ⟨_, rfl, fun _ => Ok.fxEntryCacheRead _ _ _ s, Only.fxEntryCacheRead _ _ _ s (by dsimp only [mayChange]; decide) (.refl _ s)⟩
  | ringSlotReadReturn _ _ _ _ => exact ⟨_, rfl, fun _ => Ok.fxRingSlotReadReturn _ _ _ _ s, Only.fxRingSlotReadReturn _ _ _ _ s (by dsimp only [mayChange]; decide) (.refl _ s)⟩
  | schedulerGrant _ => exact ⟨_, rfl, fun _ => Ok.fxSchedulerGrant _ s, Only.fxSchedulerGrant _ s (by dsimp only [mayChange]; decide) (.refl _ s)⟩
  | chainStart _ _ _ => exact ⟨_, rfl, fun _ => Ok.fxChainStart _ _ _ s, Only.fxChainStart _ _ _ s (by dsimp only [mayChange]; decide) (.refl _ s)⟩
  | dataReadReturn _ _ _ _ => exact ⟨_, rfl, fun _ => Ok.fxDataReadReturn _ _ _ _ s, Only.fxDataReadReturn _ _ _ _ s (by dsimp only [mayChange]; decide) (.refl _ s)⟩
  | copyOperation _ _ => exact ⟨_, rfl, fun _ => Ok.fxCopyOperation _ _ s, Only.fxCopyOperation _ _ s (by dsimp only [mayChange]; decide) (.refl _ s)⟩
  | cipherTileAllocate _ _ _ _ => exact ⟨_, rfl, fun _ => Ok.fxCipherTileAllocate _ _ _ _ s, Only.fxCipherTileAllocate _ _ _ _ s (by dsimp only [mayChange]; decide) (.refl _ s)⟩
  | cipherYieldPoint _ _ => exact ⟨_, rfl, fun _ => Ok.fxCipherYieldPoint _ _ s, Only.fxCipherYieldPoint _ _ s (by dsimp only [mayChange]; decide) (.refl _ s)⟩
  | digestTileAllocate _ _ _ _ _ => exact ⟨_, rfl, fun _ => Ok.fxDigestTileAllocate _ _ _ _ _ s, Only.fxDigestTileAllocate _ _ _ _ _ s (by dsimp only [mayChange]; decide) (.refl _ s)⟩
  | digestSliceBoundary _ _ => exact ⟨_, rfl, fun _ => Ok.fxDigestSliceBoundary _ _ s, Only.fxDigestSliceBoundary _ _ s (by dsimp only [mayChange]; decide) (.refl _ s)⟩
  | pkBankAssign _ _ _ _ => exact ⟨_, rfl, fun _ => Ok.fxPkBankAssign _ _ _ _ s, Only.fxPkBankAssign _ _ _ _ s (by dsimp only [mayChange]; decide) (.refl _ s)⟩
  | pkYieldPoint _ _ _ _ => exact ⟨_, rfl, fun _ => Ok.fxPkYieldPoint _ _ _ _ s, Only.fxPkYieldPoint _ _ _ _ s (by dsimp only [mayChange]; decide) (.refl _ s)⟩
  | pkCheckPhaseEnd _ => exact ⟨_, rfl, fun _ => Ok.fxPkCheckPhaseEnd _ s, Only.fxPkCheckPhaseEnd _ s (by dsimp only [mayChange]; decide) (.refl _ s)⟩
  | digestServiceDone _ => exact ⟨_, rfl, fun _ => Ok.fxDigestServiceDone _ s, Only.fxDigestServiceDone _ s (by dsimp only [mayChange]; decide) (.refl _ s)⟩
  | mlDsaIterationCap _ => exact ⟨_, rfl, fun _ => Ok.fxMlDsaIterationCap _ s, Only.fxMlDsaIterationCap _ s (by dsimp only [mayChange]; decide) (.refl _ s)⟩
  | pairedPieceCompare _ _ _ => exact ⟨_, rfl, fun _ => Ok.fxPairedPieceCompare _ _ _ s, Only.fxPairedPieceCompare _ _ _ s (by dsimp only [mayChange]; decide) (.refl _ s)⟩
  | voterAssign _ _ _ => exact ⟨_, rfl, fun _ => Ok.fxVoterAssign _ _ _ s, Only.fxVoterAssign _ _ _ s (by dsimp only [mayChange]; decide) (.refl _ s)⟩
  | voteResult _ _ _ => exact ⟨_, rfl, fun _ => Ok.fxVoteResult _ _ _ s, Only.fxVoteResult _ _ _ s (by dsimp only [mayChange]; decide) (.refl _ s)⟩
  | operationEnd _ _ _ _ _ _ _ => exact ⟨_, rfl, fun _ => Ok.fxOperationEnd _ _ _ _ _ _ _ s, Only.fxOperationEnd _ _ _ _ _ _ _ s (by dsimp only [mayChange]; decide) (.refl _ s)⟩
  | pkBankZeroized _ _ => exact ⟨_, rfl, fun _ => Ok.fxPkBankZeroized _ _ s, Only.fxPkBankZeroized _ _ s (by dsimp only [mayChange]; decide) (.refl _ s)⟩
  | keyCacheLoad _ _ => exact ⟨_, rfl, fun _ => Ok.fxKeyCacheLoad _ _ s, Only.fxKeyCacheLoad _ _ s (by dsimp only [mayChange]; decide) (.refl _ s)⟩
  | keyInstall _ _ => exact ⟨_, rfl, fun _ => Ok.fxKeyInstall _ _ s, Only.fxKeyInstall _ _ s (by dsimp only [mayChange]; decide) (.refl _ s)⟩
  | keyCacheUnload _ _ => exact ⟨_, rfl, fun _ => Ok.fxKeyCacheUnload _ _ s, Only.fxKeyCacheUnload _ _ s (by dsimp only [mayChange]; decide) (.refl _ s)⟩
  | hkdf _ _ => exact ⟨_, rfl, fun _ => Ok.fxHkdf _ _ s, Only.fxHkdf _ _ s (by dsimp only [mayChange]; decide) (.refl _ s)⟩
  | counterModeKdf _ _ => exact ⟨_, rfl, fun _ => Ok.fxCounterModeKdf _ _ s, Only.fxCounterModeKdf _ _ s (by dsimp only [mayChange]; decide) (.refl _ s)⟩
  | kilnDerivation _ _ => exact ⟨_, rfl, fun _ => Ok.fxKilnDerivation _ _ s, Only.fxKilnDerivation _ _ s (by dsimp only [mayChange]; decide) (.refl _ s)⟩
  | randomDraw _ _ => exact ⟨_, rfl, fun _ => Ok.fxRandomDraw _ _ s, Only.fxRandomDraw _ _ s (by dsimp only [mayChange]; decide) (.refl _ s)⟩
  | attestationStatement _ _ _ _ => exact ⟨_, rfl, fun _ => Ok.fxAttestationStatement _ _ _ _ s, Only.fxAttestationStatement _ _ _ _ s (by dsimp only [mayChange]; decide) (.refl _ s)⟩
  | fenceReadbackReturn _ _ _ _ => exact ⟨_, rfl, fun _ => Ok.fxFenceReadbackReturn _ _ _ _ s, Only.fxFenceReadbackReturn _ _ _ _ s (by dsimp only [mayChange]; decide) (.refl _ s)⟩
  | completionRecordWrite _ _ => exact ⟨_, rfl, fun _ => Ok.fxCompletionRecordWrite _ _ s, Only.fxCompletionRecordWrite _ _ s (by dsimp only [mayChange]; decide) (.refl _ s)⟩
  | cqCoalTimeout _ _ => exact ⟨_, rfl, fun _ => Ok.fxCqCoalTimeout _ _ s, Only.fxCqCoalTimeout _ _ s (by dsimp only [mayChange]; decide) (.refl _ s)⟩
  | cqDoorbell _ _ _ _ => exact ⟨_, rfl, fun _ => Ok.fxCqDoorbell _ _ _ _ s, Only.fxCqDoorbell _ _ _ _ s (by dsimp only [mayChange]; decide) (.refl _ s)⟩
  | reservoirRecordWrite _ _ _ => exact ⟨_, rfl, fun _ => Ok.fxReservoirRecordWrite _ _ _ s, Only.fxReservoirRecordWrite _ _ _ s (by dsimp only [mayChange]; decide) (.refl _ s)⟩
  | cqSetupWrite _ _ _ _ _ => exact ⟨_, rfl, fun _ => Ok.fxCqSetupWrite _ _ _ _ _ s, Only.fxCqSetupWrite _ _ _ _ _ s (by dsimp only [mayChange]; decide) (.refl _ s)⟩
  | cqEnWrite _ _ _ _ => exact ⟨_, rfl, fun _ => Ok.fxCqEnWrite _ _ _ _ s, Only.fxCqEnWrite _ _ _ _ s (by dsimp only [mayChange]; decide) (.refl _ s)⟩
  | cqFaultClear _ _ _ => exact ⟨_, rfl, fun _ => Ok.fxCqFaultClear _ _ _ s, Only.fxCqFaultClear _ _ _ s (by dsimp only [mayChange]; decide) (.refl _ s)⟩
  | rescueCopy _ _ _ => exact ⟨_, rfl, fun _ => Ok.fxRescueCopy _ _ _ s, Only.fxRescueCopy _ _ _ s (by dsimp only [mayChange]; decide) (.refl _ s)⟩
  | ledgerSnap _ _ => exact ⟨_, rfl, fun _ => Ok.fxLedgerSnap _ _ s, Only.fxLedgerSnap _ _ s (by dsimp only [mayChange]; decide) (.refl _ s)⟩
  | busErrorResponse _ _ _ => exact ⟨_, rfl, fun _ => Ok.fxBusErrorResponse _ _ _ s, Only.fxBusErrorResponse _ _ _ s (by dsimp only [mayChange]; decide) (.refl _ s)⟩
  | ksOpen _ => exact ⟨_, rfl, fun _ => Ok.fxKsOpen _ s, Only.fxKsOpen _ s (by dsimp only [mayChange]; decide) (.refl _ s)⟩
  | ksOpenc _ => exact ⟨_, rfl, fun _ => Ok.fxKsOpenc _ s, Only.fxKsOpenc _ s (by dsimp only [mayChange]; decide) (.refl _ s)⟩
  | ksBankWrite _ _ _ => exact ⟨_, rfl, fun _ => Ok.fxKsBankWrite _ _ _ s, Only.fxKsBankWrite _ _ _ s (by dsimp only [mayChange]; decide) (.refl _ s)⟩
  | ksCommit _ => exact ⟨_, rfl, fun _ => Ok.fxKsCommit _ s, Only.fxKsCommit _ s (by dsimp only [mayChange]; decide) (.refl _ s)⟩
  | ksAbort _ => exact ⟨_, rfl, fun _ => Ok.fxKsAbort _ s, Only.fxKsAbort _ s (by dsimp only [mayChange]; decide) (.refl _ s)⟩
  | ksZeroize _ => exact ⟨_, rfl, fun _ => Ok.fxKsZeroize _ s, Only.fxKsZeroize _ s (by dsimp only [mayChange]; decide) (.refl _ s)⟩
  | ksExtend _ => exact ⟨_, rfl, fun _ => Ok.fxKsExtend _ s, Only.fxKsExtend _ s (by dsimp only [mayChange]; decide) (.refl _ s)⟩
  | ksVerifyDone _ => exact ⟨_, rfl, fun _ => Ok.fxKsVerifyDone _ s, Only.fxKsVerifyDone _ s (by dsimp only [mayChange]; decide) (.refl _ s)⟩
  | ksDrained _ => exact ⟨_, rfl, fun _ => Ok.fxKsDrained _ s, Only.fxKsDrained _ s (by dsimp only [mayChange]; decide) (.refl _ s)⟩
  | ksBackgroundScan _ _ => exact ⟨_, rfl, fun _ => Ok.fxKsBackgroundScan _ _ s, Only.fxKsBackgroundScan _ _ s (by dsimp only [mayChange]; decide) (.refl _ s)⟩
  | entropySample _ => exact ⟨_, rfl, fun _ => Ok.fxEntropySample _ s, Only.fxEntropySample _ s (by dsimp only [mayChange]; decide) (.refl _ s)⟩
  | entropyBlockConditioned _ => exact ⟨_, rfl, fun _ => Ok.fxEntropyBlockConditioned _ s, Only.fxEntropyBlockConditioned _ s (by dsimp only [mayChange]; decide) (.refl _ s)⟩
  | esRestart _ => exact ⟨_, rfl, fun _ => Ok.fxEsRestart _ s, Only.fxEsRestart _ s (by dsimp only [mayChange]; decide) (.refl _ s)⟩
  | esRawRead _ => exact ⟨_, rfl, fun _ => Ok.fxEsRawRead _ s, Only.fxEsRawRead _ s (by dsimp only [mayChange]; decide) (.refl _ s)⟩
  | rbgReseed _ _ _ => exact ⟨_, rfl, fun _ => Ok.fxRbgReseed _ _ _ s, Only.fxRbgReseed _ _ _ s (by dsimp only [mayChange]; decide) (.refl _ s)⟩
  | rbgRestart _ _ => exact ⟨_, rfl, fun _ => Ok.fxRbgRestart _ _ s, Only.fxRbgRestart _ _ s (by dsimp only [mayChange]; decide) (.refl _ s)⟩
  | dcGo _ _ => exact ⟨_, rfl, fun _ => Ok.fxDcGo _ _ s, Only.fxDcGo _ _ s (by dsimp only [mayChange]; decide) (.refl _ s)⟩
  | dcPause _ _ => exact ⟨_, rfl, fun _ => Ok.fxDcPause _ _ s, Only.fxDcPause _ _ s (by dsimp only [mayChange]; decide) (.refl _ s)⟩
  | dcResume _ _ => exact ⟨_, rfl, fun _ => Ok.fxDcResume _ _ s, Only.fxDcResume _ _ s (by dsimp only [mayChange]; decide) (.refl _ s)⟩
  | dcAbort _ _ => exact ⟨_, rfl, fun _ => Ok.fxDcAbort _ _ s, Only.fxDcAbort _ _ s (by dsimp only [mayChange]; decide) (.refl _ s)⟩
  | dcRefetch _ _ => exact ⟨_, rfl, fun _ => Ok.fxDcRefetch _ _ s, Only.fxDcRefetch _ _ s (by dsimp only [mayChange]; decide) (.refl _ s)⟩
  | dcClrcred _ _ => exact ⟨_, rfl, fun _ => Ok.fxDcClrcred _ _ s, Only.fxDcClrcred _ _ s (by dsimp only [mayChange]; decide) (.refl _ s)⟩
  | dcConfigWrite _ _ _ _ => exact ⟨_, rfl, fun _ => Ok.fxDcConfigWrite _ _ _ _ s, Only.fxDcConfigWrite _ _ _ _ s (by dsimp only [mayChange]; decide) (.refl _ s)⟩
  | dcPacePulse _ => exact ⟨_, rfl, fun _ => Ok.fxDcPacePulse _ s, Only.fxDcPacePulse _ s (by dsimp only [mayChange]; decide) (.refl _ s)⟩
  | dcUnitStart _ => exact ⟨_, rfl, fun _ => Ok.fxDcUnitStart _ s, Only.fxDcUnitStart _ s (by dsimp only [mayChange]; decide) (.refl _ s)⟩
  | descriptorFetchReturn _ _ => exact ⟨_, rfl, fun _ => Ok.fxDescriptorFetchReturn _ _ s, Only.fxDescriptorFetchReturn _ _ s (by dsimp only [mayChange]; decide) (.refl _ s)⟩
  | dcElementGrant _ _ _ => exact ⟨_, rfl, fun _ => Ok.fxDcElementGrant _ _ _ s, Only.fxDcElementGrant _ _ _ s (by dsimp only [mayChange]; decide) (.refl _ s)⟩
  | dcCompletionPoint _ _ => exact ⟨_, rfl, fun _ => Ok.fxDcCompletionPoint _ _ s, Only.fxDcCompletionPoint _ _ s (by dsimp only [mayChange]; decide) (.refl _ s)⟩
  | dcRecHeadWrite _ _ _ => exact ⟨_, rfl, fun _ => Ok.fxDcRecHeadWrite _ _ _ s, Only.fxDcRecHeadWrite _ _ _ s (by dsimp only [mayChange]; decide) (.refl _ s)⟩
  | seta _ => exact ⟨_, rfl, fun _ => Ok.fxSeta _ s, Only.fxSeta _ s (by dsimp only [mayChange]; decide) (.refl _ s)⟩
  | adda _ => exact ⟨_, rfl, fun _ => Ok.fxAdda _ s, Only.fxAdda _ s (by dsimp only [mayChange]; decide) (.refl _ s)⟩
  | setc _ => exact ⟨_, rfl, fun _ => Ok.fxSetc _ s, Only.fxSetc _ s (by dsimp only [mayChange]; decide) (.refl _ s)⟩
  | move _ _ => exact ⟨_, rfl, fun _ => Ok.fxMove _ _ s, Only.fxMove _ _ s (by dsimp only [mayChange]; decide) (.refl _ s)⟩
  | xmove _ _ => exact ⟨_, rfl, fun _ => Ok.fxXmove _ _ s, Only.fxXmove _ _ s (by dsimp only [mayChange]; decide) (.refl _ s)⟩
  | xcfg _ => exact ⟨_, rfl, fun _ => Ok.fxXcfg _ s, Only.fxXcfg _ s (by dsimp only [mayChange]; decide) (.refl _ s)⟩
  | loop _ => exact ⟨_, rfl, fun _ => Ok.fxLoop _ s, Only.fxLoop _ s (by dsimp only [mayChange]; decide) (.refl _ s)⟩
  | jump _ => exact ⟨_, rfl, fun _ => Ok.fxJump _ s, Only.fxJump _ s (by dsimp only [mayChange]; decide) (.refl _ s)⟩
  | wait _ => exact ⟨_, rfl, fun _ => Ok.fxWait _ s, Only.fxWait _ s (by dsimp only [mayChange]; decide) (.refl _ s)⟩
  | fence _ => exact ⟨_, rfl, fun _ => Ok.fxFence _ s, Only.fxFence _ s (by dsimp only [mayChange]; decide) (.refl _ s)⟩
  | post _ _ => exact ⟨_, rfl, fun _ => Ok.fxPost _ _ s, Only.fxPost _ _ s (by dsimp only [mayChange]; decide) (.refl _ s)⟩
  | record _ => exact ⟨_, rfl, fun _ => Ok.fxRecord _ s, Only.fxRecord _ s (by dsimp only [mayChange]; decide) (.refl _ s)⟩
  | event _ => exact ⟨_, rfl, fun _ => Ok.fxEvent _ s, Only.fxEvent _ s (by dsimp only [mayChange]; decide) (.refl _ s)⟩
  | halt _ => exact ⟨_, rfl, fun _ => Ok.fxHalt _ s, Only.fxHalt _ s (by dsimp only [mayChange]; decide) (.refl _ s)⟩
  | frameHeaderQueryReturn _ _ _ => exact ⟨_, rfl, fun _ => Ok.fxFrameHeaderQueryReturn _ _ _ s, Only.fxFrameHeaderQueryReturn _ _ _ s (by dsimp only [mayChange]; decide) (.refl _ s)⟩
  | frameLoan _ => exact ⟨_, rfl, fun _ => Ok.fxFrameLoan _ s, Only.fxFrameLoan _ s (by dsimp only [mayChange]; decide) (.refl _ s)⟩
  | frameWaitTimeout _ => exact ⟨_, rfl, fun _ => Ok.fxFrameWaitTimeout _ s, Only.fxFrameWaitTimeout _ s (by dsimp only [mayChange]; decide) (.refl _ s)⟩
  | frameReturn _ _ _ => exact ⟨_, rfl, fun _ => Ok.fxFrameReturn _ _ _ s, Only.fxFrameReturn _ _ _ s (by dsimp only [mayChange]; decide) (.refl _ s)⟩
  | fpSnap _ _ => exact ⟨_, rfl, fun _ => Ok.fxFpSnap _ _ s, Only.fxFpSnap _ _ s (by dsimp only [mayChange]; decide) (.refl _ s)⟩
  | timeCapt _ => exact ⟨_, rfl, fun _ => Ok.fxTimeCapt _ s, Only.fxTimeCapt _ s (by dsimp only [mayChange]; decide) (.refl _ s)⟩
  | timeSync _ => exact ⟨_, rfl, fun _ => Ok.fxTimeSync _ s, Only.fxTimeSync _ s (by dsimp only [mayChange]; decide) (.refl _ s)⟩
  | tsuStrobe _ _ => exact ⟨_, rfl, fun _ => Ok.fxTsuStrobe _ _ s, Only.fxTsuStrobe _ _ s (by dsimp only [mayChange]; decide) (.refl _ s)⟩
  | adjGo _ => exact ⟨_, rfl, fun _ => Ok.fxAdjGo _ s, Only.fxAdjGo _ s (by dsimp only [mayChange]; decide) (.refl _ s)⟩
  | timeRunWrite _ _ => exact ⟨_, rfl, fun _ => Ok.fxTimeRunWrite _ _ s, Only.fxTimeRunWrite _ _ s (by dsimp only [mayChange]; decide) (.refl _ s)⟩
  | comparatorFire _ => exact ⟨_, rfl, fun _ => Ok.fxComparatorFire _ s, Only.fxComparatorFire _ s (by dsimp only [mayChange]; decide) (.refl _ s)⟩
  | triggerEdge _ => exact ⟨_, rfl, fun _ => Ok.fxTriggerEdge _ s, Only.fxTriggerEdge _ s (by dsimp only [mayChange]; decide) (.refl _ s)⟩
  | budgetRefill => exact ⟨_, rfl, fun _ => Ok.fxBudgetRefill s, Only.fxBudgetRefill s (by dsimp only [mayChange]; decide) (.refl _ s)⟩
  | genLoad _ => exact ⟨_, rfl, fun _ => Ok.fxGenLoad _ s, Only.fxGenLoad _ s (by dsimp only [mayChange]; decide) (.refl _ s)⟩
  | genLoadDone _ => exact ⟨_, rfl, fun _ => Ok.fxGenLoadDone _ s, Only.fxGenLoadDone _ s (by dsimp only [mayChange]; decide) (.refl _ s)⟩
  | genCommit _ => exact ⟨_, rfl, fun _ => Ok.fxGenCommit _ s, Only.fxGenCommit _ s (by dsimp only [mayChange]; decide) (.refl _ s)⟩
  | genTakeEffect => exact ⟨_, rfl, fun _ => Ok.fxGenTakeEffect s, Only.fxGenTakeEffect s (by dsimp only [mayChange]; decide) (.refl _ s)⟩
  | genCancel _ => exact ⟨_, rfl, fun _ => Ok.fxGenCancel _ s, Only.fxGenCancel _ s (by dsimp only [mayChange]; decide) (.refl _ s)⟩
  | genRollback _ => exact ⟨_, rfl, fun _ => Ok.fxGenRollback _ s, Only.fxGenRollback _ s (by dsimp only [mayChange]; decide) (.refl _ s)⟩
  | genDiscard _ => exact ⟨_, rfl, fun _ => Ok.fxGenDiscard _ s, Only.fxGenDiscard _ s (by dsimp only [mayChange]; decide) (.refl _ s)⟩
  | genSlow => exact ⟨_, rfl, fun _ => Ok.fxGenSlow s, Only.fxGenSlow s (by dsimp only [mayChange]; decide) (.refl _ s)⟩
  | gateWrite _ _ => exact ⟨_, rfl, fun _ => Ok.fxGateWrite _ _ s, Only.fxGateWrite _ _ s (by dsimp only [mayChange]; decide) (.refl _ s)⟩
  | gateIdle _ => exact ⟨_, rfl, fun _ => Ok.fxGateIdle _ s, Only.fxGateIdle _ s (by dsimp only [mayChange]; decide) (.refl _ s)⟩
  | ungate _ _ => exact ⟨_, rfl, fun _ => Ok.fxUngate _ _ s, Only.fxUngate _ _ s (by dsimp only [mayChange]; decide) (.refl _ s)⟩
  | clkmonEnWrite _ _ _ => exact ⟨_, rfl, fun _ => Ok.fxClkmonEnWrite _ _ _ s, Only.fxClkmonEnWrite _ _ _ s (by dsimp only [mayChange]; decide) (.refl _ s)⟩
  | clockStopTrip _ => exact ⟨_, rfl, fun _ => Ok.fxClockStopTrip _ s, Only.fxClockStopTrip _ s (by dsimp only [mayChange]; decide) (.refl _ s)⟩
  | clkmonWindow _ _ => exact ⟨_, rfl, fun _ => Ok.fxClkmonWindow _ _ s, Only.fxClkmonWindow _ _ s (by dsimp only [mayChange]; decide) (.refl _ s)⟩
  | oscFault => exact ⟨_, rfl, fun _ => Ok.fxOscFault s, Only.fxOscFault s (by dsimp only [mayChange]; decide) (.refl _ s)⟩
  | fencedZeroizeDone => exact ⟨_, rfl, fun _ => Ok.fxFencedZeroizeDone s, Only.fxFencedZeroizeDone s (by dsimp only [mayChange]; decide) (.refl _ s)⟩
  | clkmonRelease _ _ => exact ⟨_, rfl, fun _ => Ok.fxClkmonRelease _ _ s, Only.fxClkmonRelease _ _ s (by dsimp only [mayChange]; decide) (.refl _ s)⟩
  | islandRejoin _ _ => exact ⟨_, rfl, fun _ => Ok.fxIslandRejoin _ _ s, Only.fxIslandRejoin _ _ s (by dsimp only [mayChange]; decide) (.refl _ s)⟩
  | supplyWarn => exact ⟨_, rfl, fun _ => Ok.fxSupplyWarn s, Only.fxSupplyWarn s (by dsimp only [mayChange]; decide) (.refl _ s)⟩
  | supplyClear => exact ⟨_, rfl, fun _ => Ok.fxSupplyClear s, Only.fxSupplyClear s (by dsimp only [mayChange]; decide) (.refl _ s)⟩
  | retReqRise => exact ⟨_, rfl, fun _ => Ok.fxRetReqRise s, Only.fxRetReqRise s (by dsimp only [mayChange]; decide) (.refl _ s)⟩
  | retentionEntry => exact ⟨_, rfl, fun _ => Ok.fxRetentionEntry s, Only.fxRetentionEntry s (by dsimp only [mayChange]; decide) (.refl _ s)⟩
  | retReqFall => exact ⟨_, rfl, fun _ => Ok.fxRetReqFall s, Only.fxRetReqFall s (by dsimp only [mayChange]; decide) (.refl _ s)⟩
  | wakeComplete => exact ⟨_, rfl, fun _ => Ok.fxWakeComplete s, Only.fxWakeComplete s (by dsimp only [mayChange]; decide) (.refl _ s)⟩
  | tileRejoin _ _ => exact ⟨_, rfl, fun _ => Ok.fxTileRejoin _ _ s, Only.fxTileRejoin _ _ s (by dsimp only [mayChange]; decide) (.refl _ s)⟩
  | csRejoin _ _ => exact ⟨_, rfl, fun _ => Ok.fxCsRejoin _ _ s, Only.fxCsRejoin _ _ s (by dsimp only [mayChange]; decide) (.refl _ s)⟩
  | rejoinTestDone _ _ => exact ⟨_, rfl, fun _ => Ok.fxRejoinTestDone _ _ s, Only.fxRejoinTestDone _ _ s (by dsimp only [mayChange]; decide) (.refl _ s)⟩
  | groutStep _ _ => exact ⟨_, rfl, fun _ => Ok.fxGroutStep _ _ s, Only.fxGroutStep _ _ s (by dsimp only [mayChange]; decide) (.refl _ s)⟩
  | groutForce _ => exact ⟨_, rfl, fun _ => Ok.fxGroutForce _ s, Only.fxGroutForce _ s (by dsimp only [mayChange]; decide) (.refl _ s)⟩
  | tileWatchdog _ _ => exact ⟨_, rfl, fun _ => Ok.fxTileWatchdog _ _ s, Only.fxTileWatchdog _ _ s (by dsimp only [mayChange]; decide) (.refl _ s)⟩
  | csWatchdog _ _ => exact ⟨_, rfl, fun _ => Ok.fxCsWatchdog _ _ s, Only.fxCsWatchdog _ _ s (by dsimp only [mayChange]; decide) (.refl _ s)⟩
  | requestWatchdog _ => exact ⟨_, rfl, fun _ => Ok.fxRequestWatchdog _ s, Only.fxRequestWatchdog _ s (by dsimp only [mayChange]; decide) (.refl _ s)⟩
  | journalRead _ _ _ => exact ⟨_, rfl, fun _ => Ok.fxJournalRead _ _ _ s, Only.fxJournalRead _ _ _ s (by dsimp only [mayChange]; decide) (.refl _ s)⟩
  | journalReadTimeout => exact ⟨_, rfl, fun _ => Ok.fxJournalReadTimeout s, Only.fxJournalReadTimeout s (by dsimp only [mayChange]; decide) (.refl _ s)⟩
  | journalFlush _ => exact ⟨_, rfl, fun _ => Ok.fxJournalFlush _ s, Only.fxJournalFlush _ s (by dsimp only [mayChange]; decide) (.refl _ s)⟩
  | journalLostStore => exact ⟨_, rfl, fun _ => Ok.fxJournalLostStore s, Only.fxJournalLostStore s (by dsimp only [mayChange]; decide) (.refl _ s)⟩
  | noticeHeadWrite _ _ => exact ⟨_, rfl, fun _ => Ok.fxNoticeHeadWrite _ _ s, Only.fxNoticeHeadWrite _ _ s (by dsimp only [mayChange]; decide) (.refl _ s)⟩
  | noticeRingSetup _ _ _ => exact ⟨_, rfl, fun _ => Ok.fxNoticeRingSetup _ _ _ s, Only.fxNoticeRingSetup _ _ _ s (by dsimp only [mayChange]; decide) (.refl _ s)⟩
  | statTimeLowRead _ => exact ⟨_, rfl, fun _ => Ok.fxStatTimeLowRead _ s, Only.fxStatTimeLowRead _ s (by dsimp only [mayChange]; decide) (.refl _ s)⟩
  | captureReadLatch _ _ => exact ⟨_, rfl, fun _ => Ok.fxCaptureReadLatch _ _ s, Only.fxCaptureReadLatch _ _ s (by dsimp only [mayChange]; decide) (.refl _ s)⟩
  | courseHello _ _ => exact ⟨_, rfl, fun _ => Ok.fxCourseHello _ _ s, Only.fxCourseHello _ _ s (by dsimp only [mayChange]; decide) (.refl _ s)⟩
  | courseAgreeReceived _ _ _ => exact ⟨_, rfl, fun _ => Ok.fxCourseAgreeReceived _ _ _ s, Only.fxCourseAgreeReceived _ _ _ s (by dsimp only [mayChange]; decide) (.refl _ s)⟩
  | courseAccept _ => exact ⟨_, rfl, fun _ => Ok.fxCourseAccept _ s, Only.fxCourseAccept _ s (by dsimp only [mayChange]; decide) (.refl _ s)⟩
  | courseReject _ => exact ⟨_, rfl, fun _ => Ok.fxCourseReject _ s, Only.fxCourseReject _ s (by dsimp only [mayChange]; decide) (.refl _ s)⟩
  | coursePairingTimeout => exact ⟨_, rfl, fun _ => Ok.fxCoursePairingTimeout s, Only.fxCoursePairingTimeout s (by dsimp only [mayChange]; decide) (.refl _ s)⟩
  | courseGroup _ _ => exact ⟨_, rfl, fun _ => Ok.fxCourseGroup _ _ s, Only.fxCourseGroup _ _ s (by dsimp only [mayChange]; decide) (.refl _ s)⟩
  | courseMasterTimeout => exact ⟨_, rfl, fun _ => Ok.fxCourseMasterTimeout s, Only.fxCourseMasterTimeout s (by dsimp only [mayChange]; decide) (.refl _ s)⟩
  | courseLaneDown _ => exact ⟨_, rfl, fun _ => Ok.fxCourseLaneDown _ s, Only.fxCourseLaneDown _ s (by dsimp only [mayChange]; decide) (.refl _ s)⟩
  | beat => exact ⟨_, rfl, fun _ => Ok.fxBeat s, Only.fxBeat s (by dsimp only [mayChange]; decide) (.refl _ s)⟩
  | courseFrameReceive _ _ => exact ⟨_, rfl, fun _ => Ok.fxCourseFrameReceive _ _ s, Only.fxCourseFrameReceive _ _ s (by dsimp only [mayChange]; decide) (.refl _ s)⟩
  | coursePeerSilent _ => exact ⟨_, rfl, fun _ => Ok.fxCoursePeerSilent _ s, Only.fxCoursePeerSilent _ s (by dsimp only [mayChange]; decide) (.refl _ s)⟩
  | takeover _ _ => exact ⟨_, rfl, fun _ => Ok.fxTakeover _ _ s, Only.fxTakeover _ _ s (by dsimp only [mayChange]; decide) (.refl _ s)⟩
  | fwdReq _ _ => exact ⟨_, rfl, fun _ => Ok.fxFwdReq _ _ s, Only.fxFwdReq _ _ s (by dsimp only [mayChange]; decide) (.refl _ s)⟩
  | courseForward _ _ => exact ⟨_, rfl, fun _ => Ok.fxCourseForward _ _ s, Only.fxCourseForward _ _ s (by dsimp only [mayChange]; decide) (.refl _ s)⟩
  | fwdResult _ _ => exact ⟨_, rfl, fun _ => Ok.fxFwdResult _ _ s, Only.fxFwdResult _ _ s (by dsimp only [mayChange]; decide) (.refl _ s)⟩
  | fwdCancel _ _ => exact ⟨_, rfl, fun _ => Ok.fxFwdCancel _ _ s, Only.fxFwdCancel _ _ s (by dsimp only [mayChange]; decide) (.refl _ s)⟩
  | credit _ _ => exact ⟨_, rfl, fun _ => Ok.fxCredit _ _ s, Only.fxCredit _ _ s (by dsimp only [mayChange]; decide) (.refl _ s)⟩
  | blockReq _ _ => exact ⟨_, rfl, fun _ => Ok.fxBlockReq _ _ s, Only.fxBlockReq _ _ s (by dsimp only [mayChange]; decide) (.refl _ s)⟩
  | blockGrant _ _ => exact ⟨_, rfl, fun _ => Ok.fxBlockGrant _ _ s, Only.fxBlockGrant _ _ s (by dsimp only [mayChange]; decide) (.refl _ s)⟩
  | ctrSync _ _ => exact ⟨_, rfl, fun _ => Ok.fxCtrSync _ _ s, Only.fxCtrSync _ _ s (by dsimp only [mayChange]; decide) (.refl _ s)⟩
  | ctrAck _ _ => exact ⟨_, rfl, fun _ => Ok.fxCtrAck _ _ s, Only.fxCtrAck _ _ s (by dsimp only [mayChange]; decide) (.refl _ s)⟩
  | slotBank _ _ => exact ⟨_, rfl, fun _ => Ok.fxSlotBank _ _ s, Only.fxSlotBank _ _ s (by dsimp only [mayChange]; decide) (.refl _ s)⟩
  | courseReform _ => exact ⟨_, rfl, fun _ => Ok.fxCourseReform _ s, Only.fxCourseReform _ s (by dsimp only [mayChange]; decide) (.refl _ s)⟩
  | courseLeave _ => exact ⟨_, rfl, fun _ => Ok.fxCourseLeave _ s, Only.fxCourseLeave _ s (by dsimp only [mayChange]; decide) (.refl _ s)⟩
  | crsSnap _ => exact ⟨_, rfl, fun _ => Ok.fxCrsSnap _ s, Only.fxCrsSnap _ s (by dsimp only [mayChange]; decide) (.refl _ s)⟩
  | bootSlotPoll _ => exact ⟨_, rfl, fun _ => Ok.fxBootSlotPoll _ s, Only.fxBootSlotPoll _ s (by dsimp only [mayChange]; decide) (.refl _ s)⟩
  | bootRequest => exact ⟨_, rfl, fun _ => Ok.fxBootRequest s, Only.fxBootRequest s (by dsimp only [mayChange]; decide) (.refl _ s)⟩
  | bootExtend _ => exact ⟨_, rfl, fun _ => Ok.fxBootExtend _ s, Only.fxBootExtend _ s (by dsimp only [mayChange]; decide) (.refl _ s)⟩
  | bootEnClear _ => exact ⟨_, rfl, fun _ => Ok.fxBootEnClear _ s, Only.fxBootEnClear _ s (by dsimp only [mayChange]; decide) (.refl _ s)⟩
  | engineResetAssert => exact ⟨_, rfl, fun _ => Ok.fxEngineResetAssert s, Only.fxEngineResetAssert s (by dsimp only [mayChange]; decide) (.refl _ s)⟩
  | oscStartTimeout => exact ⟨_, rfl, fun _ => Ok.fxOscStartTimeout s, Only.fxOscStartTimeout s (by dsimp only [mayChange]; decide) (.refl _ s)⟩
  | startupClearDone => exact ⟨_, rfl, fun _ => Ok.fxStartupClearDone s, Only.fxStartupClearDone s (by dsimp only [mayChange]; decide) (.refl _ s)⟩
  | knownAnswerTestsDone _ _ _ => exact ⟨_, rfl, fun _ => Ok.fxKnownAnswerTestsDone _ _ _ s, Only.fxKnownAnswerTestsDone _ _ _ s (by dsimp only [mayChange]; decide) (.refl _ s)⟩
  | rbgInstantiate _ _ _ => exact ⟨_, rfl, fun _ => Ok.fxRbgInstantiate _ _ _ s, Only.fxRbgInstantiate _ _ _ s (by dsimp only [mayChange]; decide) (.refl _ s)⟩
  | tenantResetWait _ => exact ⟨_, rfl, fun _ => Ok.fxTenantResetWait _ s, Only.fxTenantResetWait _ s (by dsimp only [mayChange]; decide) (.refl _ s)⟩
  | courseLaneUp _ => exact ⟨_, rfl, fun _ => Ok.fxCourseLaneUp _ s, Only.fxCourseLaneUp _ s (by dsimp only [mayChange]; decide) (.refl _ s)⟩
  | timeLowWrap => exact ⟨_, rfl, fun _ => Ok.fxTimeLowWrap s, Only.fxTimeLowWrap s (by dsimp only [mayChange]; decide) (.refl _ s)⟩
  | tcmpPulseEnd _ => exact ⟨_, rfl, fun _ => Ok.fxTcmpPulseEnd _ s, Only.fxTcmpPulseEnd _ s (by dsimp only [mayChange]; decide) (.refl _ s)⟩
  | debugRead _ _ _ => exact ⟨_, rfl, fun _ => Ok.fxDebugRead _ _ _ s, Only.fxDebugRead _ _ _ s (by dsimp only [mayChange]; decide) (.refl _ s)⟩

theorem exec_keeps {c : Instr} {q : List Instr} {s t : State} (h : exec c s = .next t) (hok : Ok q s) : Ok q t := by
  obtain ⟨t', ht, hkeeps, -⟩ := exec_next c s
  rw [ht] at h
  cases h
  exact hkeeps q hok

theorem exec_only {c : Instr} {s t : State} (h : exec c s = .next t) : Only (mayChange c) s t := by
  obtain ⟨t', ht, -, honly⟩ := exec_next c s
  rw [ht] at h
  cases h
  exact honly

/-- The invariant does not speak of the queue. -/
theorem Inv.withPending {s : State} (h : Inv s) (q : List Instr) : Ok q { s with pending := q } :=
  ⟨⟨h.ten, h.crs, h.boot, h.jrn, h.loans, h.pool⟩, rfl⟩

end Sys2Proof.Machine

namespace Sys2Proof.Steps
open Sys2Proof.Machine

/-- Settles O4: a step is a control cycle or runs a command, and either keeps the invariant. -/
theorem stepKeepsInvariant : Obligations.StepKeepsInvariant := by
  unfold Obligations.StepKeepsInvariant
  intro s t hinv hstep
  unfold step at hstep
  split at hstep
  case h_1 =>
    cases hstep
    exact (Ok.tick s ⟨hinv, rfl⟩).inv
  case h_2 c rest _ => exact (exec_keeps hstep (hinv.withPending rest)).inv

/-- Settles O5. -/
theorem everyCommandFrame : Obligations.EveryCommandFrame := by
  unfold Obligations.EveryCommandFrame
  exact fun _ _ _ h => exec_only h

/-- Settles O1: with the command in front, `step` is `exec` by definition. -/
theorem stepRunsFrontCommand : Obligations.StepRunsFrontCommand := by
  unfold Obligations.StepRunsFrontCommand
  exact fun _ _ _ => rfl

/-- Settles O2: on an empty queue a step is `tick`. -/
theorem emptyQueueTicks : Obligations.EmptyQueueTicks := by
  unfold Obligations.EmptyQueueTicks
  intro s hempty
  refine ⟨tick s, by rw [step, hempty], Only.tick s (by decide) (Only.refl _ _), tick_count, fun hrun => ?_⟩
  rw [tick_stands hrun]

/-- Settles O3. -/
theorem resetIsSafe : Obligations.ResetIsSafe := Inv.reset

end Sys2Proof.Steps
end

section
/-!
The register target port and the owner (R14, R28 to R38, R380, R438): the election, claims that are ignored, and what the port drops and takes,
with the statements O9 and O11 to O14.
-/

namespace Sys2Proof.Machine

/-! ### Election and ignored claims (R30, R31) -/

/-- At the close of an open window the leading claim, or the strapped master, becomes the owner (R31). -/
theorem fxClaimWindowClose_open {s : State} (h : s.owner.st = .claimOpen) :
    fxClaimWindowClose s = raiseG gOwnerElected (modOwner (fun o => { o with
      mid := if s.owner.leadPrio ≠ 0 then o.leadMid else BitVec.ofNat 8 s.start.strap.toNat
      cause := BitVec.ofNat 2 (if s.owner.leadPrio ≠ 0 then 1 else 2)
      st := .owned }) s) := by
  rw [fxClaimWindowClose, whenS_true (decide_eq_true h)]
  simp [caClaim, caStrap]

/-- A claim that R30 ignores: one record, and before the first service point one count too (R38, R470). -/
theorem claim_ignored {who : Who} {prio : BitVec 8} {s : State} (hclr : s.start.cleared = true) (hdbg : who.dbg = false)
    (h : s.owner.st ≠ .claimOpen ∨ who.world ≠ .secure ∨ prio = 0) :
    claim who prio s = if s.start.serving then ignoredRecord who prio.toNat false s else countDenied (ignoredRecord who prio.toNat false s) := by
  rw [claim, if_neg (by simp [hclr]), if_neg (by simp [hdbg]), if_neg]
  rintro ⟨hopen, hsec, hprio⟩
  exact h.elim (· hopen) (Or.elim · (· hsec) hprio)

theorem ignoredRecord_only (who : Who) (prio : Nat) (accept : Bool) (s : State) : Only recordParts s (ignoredRecord who prio accept s) :=
  Only.journal _ _ _ s (by decide) (Only.refl _ _)

/-- A claim moves neither the owner nor the offer, in any state (R29). -/
theorem claim_keeps_owner (who : Who) (prio : BitVec 8) (s : State) :
    (claim who prio s).owner.mid = s.owner.mid ∧ (claim who prio s).owner.st = s.owner.st ∧ (claim who prio s).owner.offer = s.owner.offer := by
  have hkept {A : List Part} {t : State} (h : Only A s t) (hA : Part.owner ∉ A) :
      t.owner.mid = s.owner.mid ∧ t.owner.st = s.owner.st ∧ t.owner.offer = s.owner.offer := by
    rw [show t.owner = s.owner from h.2 .owner hA]
    exact ⟨rfl, rfl, rfl⟩
  unfold claim
  split
  · exact ⟨rfl, rfl, rfl⟩
  split
  · exact hkept (dropWrite_facts _ _ _ s).1 (by decide)
  split
  · split <;> exact ⟨rfl, rfl, rfl⟩
  split
  · exact hkept (ignoredRecord_only _ _ _ s) (by decide)
  · exact hkept (ignoredRecord_dropped _ _ _ s).1 (by decide)

/-! ### Commands that are a write of one whole register (R37, R38) -/

/-- A write to AH_DCk_CTL is one too: the check that the channel is assigned is part of its effect (R301). -/
theorem exec_gateDc (who : Who) (k : ChanIx) (val : Word) (f : State → State) (s : State) :
    ∃ g, (.next (gateDc who k val f s) : Host.Outcome State Fault Refusal) = .next (gateW who (.dcCtl k) val g s) := ⟨_, rfl⟩

/-- Such a command is its effect behind the port's judgement. -/
theorem exec_portWrite {c : Instr} {who : Who} {r : Reg} {v : Word} {s : State} (h : portWrite s c = some (who, r, v)) :
    ∃ f, exec c s = .next (gateW who r v f s) := by
  cases c with
  | sqSetupWrite _ _ _ reg _ => cases reg <;> cases h <;> exact ⟨_, rfl⟩
  | clkmonRelease _ clk => cases clk <;> cases h <;> exact ⟨_, rfl⟩
  | ownHandover _ _ | ownTrst _ _ | tenantCtlReset _ _ | sqDoorbell _ _ _ _ _ _ | sqEnable _ _ _ | sqDisable _ _ _ | sqPause _ _ _
  | sqInval _ _ _ | sqUnpause _ _ _ | sqFaultClear _ _ _ | cqDoorbell _ _ _ _ | cqSetupWrite _ _ _ _ _ | cqEnWrite _ _ _ _
  | cqFaultClear _ _ _ | ledgerSnap _ _ | ksOpen _ | ksOpenc _ | ksBankWrite _ _ _ | ksCommit _ | ksAbort _ | ksZeroize _ | ksExtend _
  | esRestart _ | rbgRestart _ _ | dcConfigWrite _ _ _ _
  | dcRecHeadWrite _ _ _ | fpSnap _ _ | timeCapt _ | timeSync _ | adjGo _ | timeRunWrite _ _ | genLoad _ | genCommit _ | genCancel _
  | genRollback _ | genDiscard _ | gateWrite _ _ | ungate _ _ | clkmonEnWrite _ _ _ | tileRejoin _ _ | csRejoin _ _ | journalFlush _
  | noticeHeadWrite _ _ | noticeRingSetup _ _ _ | courseAccept _ | courseReject _ | courseReform _ | courseLeave _ | crsSnap _ | bootEnClear _ => cases h; exact ⟨_, rfl⟩
  | dcGo _ _ | dcPause _ _ | dcResume _ _ | dcAbort _ _ | dcRefetch _ _ | dcClrcred _ _ =>
    cases h
    exact exec_gateDc _ _ _ _ _
  | _ => cases h

/-! ### REGISTER_WRITE (R14, R40, R380, R438) -/

/-- A write that the port drops before any register is one drop, once the journal is cleared (R14, R470). -/
theorem dropEarly_cleared {off : Nat} {f : State → State} {s : State} (hclr : s.start.cleared = true) (hgate : s.clk.gated.toNat.testBit 24 = false) :
    dropEarly off f s = f s := by
  simp [dropEarly, hclr, unitGated, hgate]

theorem dropSubword_dropped (who : Who) (size : AccSize) (off : Nat) (s : State) : Dropped s (dropSubword who size off s) := by
  refine .of_record ?_ ?_
  · exact Only.ite (fun _ => Only.debugRecord _ _ _ _ s (by decide) (Only.refl _ _)) fun _ => Only.journal _ _ _ s (by decide) (Only.refl _ _)
  · split <;> exact journal_seq _ _ _ s

theorem dropWrite_dropped (who : Who) (off value : Nat) (s : State) : Dropped s (dropWrite who off value s) := dropWrite_facts who off value s

/-- An aligned 64-bit write of a register that the port takes is its effect. -/
theorem writePort_takes {who : Who} {off : Nat} {val : Word} {r : Reg} {s : State} (hreg : regAt off = some r) (halign : off % 8 = 0)
    (hclaim : r ≠ .ownClaim) (haccept : r ≠ .ownAccept) (htakes : Takes s who r val) :
    writePort who .b64 off val s = writeWord who r (~~~ 0) val s := by
  have hbase : off / 8 * 8 = off := by omega
  simp only [writePort, halign, hbase, hreg, writeReg, hclaim, haccept, if_true, if_false, Bool.true_or]
  exact gateW_takes htakes

theorem writeWord_staged {who : Who} {r : Reg} {val : Word} {s : State} (hstaged : r.staged = true) (hidle : s.gen.st = .idle) :
    writeWord who r (~~~ 0) val s =
      modGen (fun g => { g with shadow := s.setWord g.shadow r (r.write (s.word g.shadow r) (~~~ 0) val) }) s := by
  simp [writeWord, hstaged, stageWrite, hidle]

theorem writeWord_statEvPend (who : Who) (val : Word) (s : State) :
    writeWord who .statEvPend (~~~ 0) val s = modEvPend (· &&& ~~~ val) s := by
  conv_rhs => rw [← and_full val]
  rfl

end Sys2Proof.Machine

namespace Sys2Proof.Port
open Sys2Proof.Machine

/-- Settles O9: the close of the window is `raiseG` of the election over the owner's new registers. -/
theorem ownerElected : Obligations.OwnerElected := by
  unfold Obligations.OwnerElected
  intro s hopen
  refine ⟨fxClaimWindowClose s, rfl, Only.fxClaimWindowClose s (by decide) (Only.refl _ _), ?_⟩
  rw [fxClaimWindowClose_open hopen]
  refine ⟨rfl, raiseG_bit _ _ (by decide), fun hled => ?_, fun hnone => ?_⟩
  · exact ⟨if_pos hled, congrArg (BitVec.ofNat 2) (if_pos hled)⟩
  · have hno := not_not_intro hnone
    exact ⟨(congrArg BitVec.toNat (if_neg hno)).trans (BitVec.toNat_ofNat _ _), congrArg (BitVec.ofNat 2) (if_neg hno)⟩

/-- Settles O11: an ignored claim is `ignoredRecord`, counted before the first service point; the rest of the ownership is kept by every claim. -/
theorem claimsIgnored : Obligations.ClaimsIgnored := by
  unfold Obligations.ClaimsIgnored
  refine ⟨?ignored, fun who prio s => ⟨claim who prio s, rfl, claim_keeps_owner who prio s⟩⟩
  case ignored =>
    intro who prio s hclr hdbg h
    refine ⟨claim who prio s, rfl, ?_⟩
    rw [claim_ignored hclr hdbg h]
    cases hserve : s.start.serving with
    | true =>
      have honly := ignoredRecord_only who prio.toNat false s
      exact ⟨honly.2 .owner (by decide), journal_seq _ _ _ s, fun _ => honly, nofun⟩
    | false =>
      have hdrop := ignoredRecord_dropped who prio.toNat false s
      exact ⟨hdrop.1.2 .owner (by decide), hdrop.2.1, nofun, fun _ => hdrop⟩

/-- Settles O12: a command that is a whole register write stands behind `gateW`, which drops what the port denies. -/
theorem deniedWrites : Obligations.DeniedWrites := by
  unfold Obligations.DeniedWrites
  intro c who r v s hwrite hdenies
  obtain ⟨f, hexec⟩ := exec_portWrite hwrite
  refine ⟨dropReg who r v s, ?_, dropReg_facts who r v s⟩
  rw [hexec, gateW_denies hdenies]

/-- Settles O13: a 64-bit write that the port takes is `writeWord`, which stages a staged register's word in the shadow alone. -/
theorem registerWrites : Obligations.RegisterWrites := by
  unfold Obligations.RegisterWrites
  refine ⟨?staged, ?pending, ?enables⟩
  case staged =>
    intro who off val r s hreg halign hstaged htakes hidle
    have hport := writePort_takes hreg halign (by rintro rfl; cases hstaged) (by rintro rfl; cases hstaged) htakes
    rw [writeWord_staged hstaged hidle] at hport
    exact ⟨_, congrArg Host.Outcome.next hport, Only.modGen _ (by decide) (Only.refl _ _), fun _ => rfl, rfl⟩
  case pending =>
    intro who off val s hoff htakes
    have hport := writePort_takes (who := who) (s := s) (off := off.toNat) (r := .statEvPend) (by rw [hoff]; rfl) (by rw [hoff]; rfl) nofun nofun htakes
    rw [writeWord_statEvPend] at hport
    exact ⟨_, congrArg Host.Outcome.next hport, Only.modEvPend _ (by decide) (Only.refl _ _), rfl⟩
  case enables =>
    intro who off val s hoff htakes
    have hport := writePort_takes (who := who) (s := s) (off := off.toNat) (r := .ownEvEn) (by rw [hoff]; rfl) (by rw [hoff]; rfl) nofun nofun htakes
    exact ⟨_, congrArg Host.Outcome.next hport, Only.modOwn _ (by decide) (Only.refl _ _), rfl⟩

/-- Settles O14: by the size of the access; each misfit is a drop before any register. -/
theorem misfitWrites : Obligations.MisfitWrites := by
  unfold Obligations.MisfitWrites
  intro who size off val s hclr hgate hmisfit
  refine ⟨writePort who size off.toNat val s, rfl, ?_⟩
  have hearly {o : Nat} {f : State → State} (h : Dropped s (f s)) : Dropped s (dropEarly o f s) := by
    rwa [dropEarly_cleared hclr hgate]
  have hsub := hearly (o := off.toNat) (dropSubword_dropped who size off.toNat s)
  cases size with
  | b8 => exact hsub
  | b16 => exact hsub
  | b32 =>
    unfold writePort
    dsimp only
    split
    next halign =>
      have hnone : regAt (off.toNat / 8 * 8) = none := by simpa [halign] using hmisfit
      rw [hnone]
      exact hearly (dropWrite_dropped _ _ _ s)
    next => exact hsub
  | b64 =>
    unfold writePort
    dsimp only
    split
    next halign =>
      have hnone : regAt (off.toNat / 8 * 8) = none := by simpa [halign] using hmisfit
      rw [hnone]
      exact hearly (dropWrite_dropped _ _ _ s)
    next => exact hsub

end Sys2Proof.Port
end

section
/-!
The cold start (R469 to R471): what each of its steps leaves once its turn has come, with the statement O7.
-/

namespace Sys2Proof.Machine

section
variable {s : State}

/-! ### Oscillator and clearing -/

/-- The oscillator is ready at a cold start: the state before the three windows begin has OSC, and the phase of the clearing. -/
theorem fxOscillatorReady_cold (hrst : s.start.rst = false) (hosc : s.start.osc = false) (hphase : s.start.phase = 1)
    (hwake : s.ret.asleep = false ∨ s.sup.active = false) :
    fxOscillatorReady s = setPhase phClear (openWindow .aux (openWindow .tile (openWindow .ctl
      (modStart (fun t => { t with osc := true, hold := false, nmi := false }) s)))) := by
  have hnow : (!s.start.rst && !s.start.osc && !(s.ret.asleep && s.sup.active)) = true := by
    rcases hwake with h | h <;> simp [hrst, hosc, h]
  rw [fxOscillatorReady, whenS_true hnow]
  simp [hphase, phOsc]

theorem fxOscStartTimeout_due (hstart : starting s = true) (hosc : s.start.osc = false) :
    fxOscStartTimeout s = setFail faOsc (modStart (fun t => { t with hold := true, nmi := true }) s) :=
  whenS_true (by simp [hstart, hosc])

theorem setFail_fail {b : Nat} (hb : b < 7) (s : State) : (setFail b s).start.fail.toNat.testBit b = true := by
  rw [setFail, modStart_start, testBit_or12, testBit_pow hb, Bool.or_true]

/-- The clearing ends in the phase of the tests; what the journal then takes leaves the start alone (R470). -/
theorem fxStartupClearDone_start (hstart : starting s = true) (hosc : s.start.osc = true) (hclr : s.start.cleared = false) :
    (fxStartupClearDone s).start = { s.start with cleared := true, phase := BitVec.ofNat 4 phTest } := by
  rw [fxStartupClearDone, whenS_true (by simp [hstart, hosc, hclr])]
  generalize hx : setPhase phTest (modStart (fun t => { t with cleared := true }) s) = x
  have hmark : Only recordParts x (timeMark x) := Only.timeMark x (by decide) (Only.refl _ _)
  have hrec : Only recordParts x
      (if s.clk.cause ≠ 0 ∨ s.start.fail ≠ 0 then clkRecord 0 (respReset s || s.clk.ctl.fenced) (timeMark x) else timeMark x) :=
    Only.ite (fun _ => Only.clkRecord _ _ _ (by decide) hmark) (fun _ => hmark)
  rw [hrec.2 .start (by decide), ← hx]
  rfl

/-! ### Tests, fuses and identity -/

/-- The known-answer tests, all passed at a cold start (R471). -/
theorem fxKnownAnswerTestsDone_passed (hwake : s.ret.asleep = false) (hstart : starting s = true) (hclr : s.start.cleared = true)
    (hkat : s.start.kat = false) :
    fxKnownAnswerTestsDone 0 0 true s =
      modGen (fun g => { g with digAct := contentDigest s g.act }) (setPhase phFuse (modStart (fun t => { t with kat := true }) s)) := by
  have hnot : waking s = false := by simp [waking, hwake]
  have hnone : (List.range 12).filter (0 : BitVec 12).toNat.testBit = [] := by decide
  rw [fxKnownAnswerTestsDone, whenS_true (by simp [hnot, hstart, hclr, hkat])]
  simp only [hnone]
  simp [hnot, eachN]

theorem fxFuseReadDone_read {f : FuseWord} (hstart : starting s = true) (hkat : s.start.kat = true) (hfuses : s.start.fuses = false)
    (hsup : s.sup.active = false) (hok : f.readOk = true) :
    fxFuseReadDone f s = modBoot (fun b => { b with base := f.bootBase, k := f.bootK }) (setPhase phKeys (modStart (fun t => { t with fuses := true })
      (modIdent (fun i => { i with noid := (rootsOf f).kU.isNone }) (modRoots (fun _ => rootsOf f) s)))) := by
  rw [fxFuseReadDone, whenS_true (by simp [hstart, hkat, hfuses, hsup])]
  simp [hok]

/-- The identity as the two keys give it (R291, R292). -/
def idKept (s : State) (i : Ident) : Ident :=
  { i with
    ready := true
    cPub := devPubC s
    qPub := devPubQ s
    ueid := sha3_256 (devPubC s)
    kidC := (sha3_256 (devPubC s)).take 8
    kidQ := (sha3_256 (devPubQ s)).take 8
    cAttr := idAttr s 0x10 0x02 48 0x42
    qAttr := idAttr s 0x17 0x12 32 0
    tr := dsaTr (devPubQ s) }

/-- Where both result checks pass, the identity is kept; before the first service point its phase begins (R291, R469). -/
theorem fxIdentityReady_kept (hfuses : s.start.fuses = true) (hkU : s.roots.kU.isSome = true) (hready : s.ident.ready = false)
    (hrbg : rbgHealthy s = true) (htile : healthyOf s 3 ≠ []) (hsup : s.sup.active = false) :
    fxIdentityReady true true s =
      if s.start.serving then modIdent (idKept s) s else setPhase phIdentity (modIdent (idKept s) s) :=
  whenS_true (by simp [hfuses, hkU, hready, hrbg, htile, hsup])

theorem idKept_ident {t : State} (h : t = if s.start.serving then modIdent (idKept s) s else setPhase phIdentity (modIdent (idKept s) s)) :
    Only [.start, .ident] s t ∧ t.ident = idKept s s.ident := by
  have hkept : Only [.start, .ident] s (modIdent (idKept s) s) := Only.modIdent _ (by decide) (Only.refl _ _)
  subst h
  split
  · exact ⟨hkept, rfl⟩
  · exact ⟨Only.modStart _ (by decide) hkept, rfl⟩

/-- A failing result check leaves the identity as it was (R202, R203, R227). -/
theorem fxIdentityReady_failed {okC okQ : Bool} (h : (okC && okQ) = false) : (fxIdentityReady okC okQ s).ident = s.ident := by
  unfold fxIdentityReady whenS
  split
  · dsimp only
    rw [if_pos (by rw [← Bool.not_and, h, Bool.not_false])]
    exact (Only.failChecks _ s (List.Subset.refl _) (Only.refl _ _)).2 .ident (by decide)
  · rfl

/-! ### The first service point -/

theorem setFail_start_serving (b : Nat) (s : State) :
    (setFail b s).start.serving = s.start.serving ∧ (setFail b s).start.phase = s.start.phase ∧ (setFail b s).owner = s.owner := ⟨rfl, rfl, rfl⟩

/-- At the first service point the engine serves and the claim window opens (R28, R469). -/
theorem fxFirstServicePoint_opens (hstart : starting s = true) (hfuses : s.start.fuses = true) :
    let t := fxFirstServicePoint s
    t.start.serving = true ∧ t.start.phase = BitVec.ofNat 4 phServing ∧ t.owner.st = .claimOpen := by
  rw [fxFirstServicePoint, whenS_true (by simp [hstart, hfuses])]
  dsimp only [enterCourse, modCrs, modBoot]
  split <;> split <;> exact ⟨rfl, rfl, rfl⟩

end

end Sys2Proof.Machine

namespace Sys2Proof.ColdStart
open Sys2Proof.Machine

/-- Settles O7: each step of the cold start, where its turn has come, is the plain update that its equation gives. -/
theorem coldStartSteps : Obligations.ColdStartSteps := by
  unfold Obligations.ColdStartSteps
  refine ⟨?ready, ?timeout, ?clear, ?tests, ?fuses, ?identity, ?failed, ?service⟩
  case ready =>
    intro s hrst hosc hphase hwake
    refine ⟨_, rfl, Only.fxOscillatorReady s (by decide) (Only.refl _ _), ?_⟩
    rw [fxOscillatorReady_cold hrst hosc hphase hwake]
    exact ⟨rfl, rfl, rfl⟩
  case timeout =>
    intro s hstart hosc
    refine ⟨_, rfl, Only.fxOscStartTimeout s (by decide) (Only.refl _ _), ?_⟩
    rw [fxOscStartTimeout_due hstart hosc]
    exact ⟨rfl, rfl, setFail_fail (by decide) _, rfl⟩
  case clear =>
    intro s hstart hosc hclr
    refine ⟨_, rfl, ?_⟩
    rw [fxStartupClearDone_start hstart hosc hclr]
    exact ⟨rfl, rfl⟩
  case tests =>
    intro s hwake hstart hclr hkat
    exact ⟨_, congrArg Host.Outcome.next (fxKnownAnswerTestsDone_passed hwake hstart hclr hkat), rfl, rfl, rfl, rfl⟩
  case fuses =>
    intro f s hstart hkat hfuses hsup hok
    exact ⟨_, congrArg Host.Outcome.next (fxFuseReadDone_read hstart hkat hfuses hsup hok), rfl, rfl, rfl, rfl, rfl, rfl, rfl, rfl⟩
  case identity =>
    intro s hfuses hkU hready hrbg htile hsup
    obtain ⟨honly, hident⟩ := idKept_ident (fxIdentityReady_kept hfuses hkU hready hrbg htile hsup)
    refine ⟨_, rfl, honly, ?_⟩
    simp only [hident, idKept, and_self]
  case failed => exact fun okC okQ s h => ⟨_, rfl, fxIdentityReady_failed h⟩
  case service => exact fun s hstart hfuses => ⟨_, rfl, fxFirstServicePoint_opens hstart hfuses⟩

end Sys2Proof.ColdStart
end

section
/-!
Tenant resets (R46, R47, R129, R434 to R436): which tenants a write puts into reset, what a reset that starts and one that ends leave, with the
statements O15 and O16.
-/

namespace Sys2Proof.Machine

/-! ### What stopping a tenant leaves of the state of reset -/

/-- The ledger of each tenant k, and whether it is in reset, are as v k says. -/
def LedReset (v : Nat → Ledger × Bool) (s : State) : Prop := ∀ k, ((s.ten k).led, (s.ten k).inReset) = v k

section
variable {v : Nat → Ledger × Bool} {s : State}

theorem LedReset.only {A : List Part} {t : State} (h : LedReset v s) (honly : Only A s t) (hA : Part.tens ∉ A) : LedReset v t :=
  fun k => by rw [ten_of_tens (honly.2 .tens hA), h k]

theorem LedReset.modTen (n : Nat) {f : Tenant → Tenant} (hf : ∀ t, ((f t).led, (f t).inReset) = (t.led, t.inReset)) (h : LedReset v s) : LedReset v (Machine.modTen n f s) := by
  intro k
  rw [ten_modTen]
  split
  next hk => rw [hf, ← hk, h k]
  next => exact h k

theorem LedReset.foldl {α : Type} {f : State → α → State} (l : List α) (hf : ∀ s a, LedReset v s → LedReset v (f s a)) (h : LedReset v s) :
    LedReset v (l.foldl f s) := by
  induction l generalizing s with
  | nil => exact h
  | cons a l ih => exact ih (hf s a h)

theorem LedReset.eachN {f : Nat → State → State} (l : List Nat) (hf : ∀ i s, LedReset v s → LedReset v (f i s)) (h : LedReset v s) :
    LedReset v (Machine.eachN l f s) := h.foldl l fun s i hs => hf i s hs

theorem LedReset.ite {c : Prop} [Decidable c] {a b : State} (ha : LedReset v a) (hb : LedReset v b) : LedReset v (if c then a else b) := by
  split
  · exact ha
  · exact hb

theorem LedReset.raiseT (n e : Nat) (h : LedReset v s) : LedReset v (Machine.raiseT n e s) := h.modTen n fun _ => rfl

/-- A violation writes counters, captures and events alone. -/
theorem LedReset.reqViol (r : Req) (addr : Nat) (d : Dir) (cause : Nat) (h : LedReset v s) : LedReset v (Machine.reqViol r addr d cause s) := by
  unfold Machine.reqViol viol
  split
  · unfold violT
    dsimp only
    have hcount (n : Nat) : LedReset v (Machine.modTen n (fun t => { t with vcnt := t.vcnt.bump }) s) := h.modTen n fun _ => rfl
    have hsat {b : Bool} (n : Nat) := LedReset.ite (c := b = true) ((hcount n).raiseT n evAccVcntSat) (hcount n)
    exact .ite (hsat _) (.raiseT _ _ (.modTen _ (fun _ => rfl) (hsat _)))
  · exact h.only (Only.violP _ _ _ _ _ _ _ s (List.Subset.refl _) (Only.refl _ _)) (by decide)

theorem LedReset.modReq (id : Nat) (f : Req → Req) (h : LedReset v s) : LedReset v (Machine.modReq id f s) :=
  h.only (Only.modReq id f (List.Subset.refl _) (Only.refl _ s)) (by decide)

theorem LedReset.scrubSeg (r : Req) (a len : Nat) (h : LedReset v s) : LedReset v (Machine.scrubSeg r a len s) := by
  have hput (n : Nat) : LedReset v (if n = 0 then s else Machine.modReq r.id (fun r => r.sentOn a n) (emitWr a (zeros n) s)) :=
    .ite h (.modReq _ _ (h.only (Only.emitWr _ _ s (List.Subset.refl _) (Only.refl _ _)) (by decide)))
  unfold Machine.scrubSeg
  dsimp only
  split
  · exact hput len
  · exact (hput _).reqViol _ _ _ _

theorem LedReset.scrubAll (r : Req) (h : LedReset v s) : LedReset v (Machine.scrubAll r s) := by
  refine h.eachN _ fun b s hs => .ite (.ite (hs.only (Only.emit _ (List.Subset.refl _) (Only.refl _ s)) (by decide)) hs) ?_
  exact hs.foldl _ fun s g hg => hg.scrubSeg _ _ _

theorem LedReset.fencePort (id : Nat) (port : Bool) (h : LedReset v s) : LedReset v (Machine.fencePort id port s) := by
  unfold Machine.fencePort
  split
  · exact h
  split
  · exact h
  split
  · exact h.only (Only.emitRd _ _ s (List.Subset.refl _) (Only.refl _ _)) (by decide)
  · exact (h.modReq _ _).reqViol _ _ _ _

theorem LedReset.endChain (id : Nat) (o : Outcome) (h : LedReset v s) : LedReset v (Machine.endChain id o s) := by
  unfold Machine.endChain
  split
  · exact h
  next r _ =>
    dsimp only
    have hfreed : LedReset v (Machine.eachN r.claims (fun x s => if o.status = 0 then beginVerify x s else unclaim x s)
        (dropStreams r o (endStreams r o (freeTiles id s)))) := by
      refine h.only (A := [.sch, .tiles, .streams, .ks]) (Only.eachN _ ?_ fun x s hs => Only.ite (fun _ => ?_) fun _ => ?_) (by decide)
      · exact Only.dropStreams _ _ _ (by decide) (Only.endStreams _ _ _ (by decide) (Only.freeTiles _ _ (by decide) (Only.refl _ _)))
      · exact Only.beginVerify _ _ (by decide) hs
      · exact Only.unclaim _ _ (by decide) hs
    have hended {f : Req → Req} {g : FramePort → FramePort} {e : Sched → Sched} {x : State} (hx : LedReset v x) :
        LedReset v (modSch e (modFp g (Machine.modReq id f x))) :=
      hx.only (A := [.reqs, .fp, .sch]) (Only.modSch _ (by decide) (Only.modFp _ (by decide) (Only.modReq _ _ (by decide) (Only.refl _ _)))) (by decide)
    have hfence {c : Prop} [Decidable c] {x : State} (hx : LedReset v x) :
        LedReset v (if c then Machine.fenceFrame r (Machine.fencePort id true (Machine.fencePort id false x)) else x) :=
      .ite (LedReset.only (.fencePort _ _ (.fencePort _ _ hx)) (Only.fenceFrame _ _ (List.Subset.refl _) (Only.refl _ _)) (by decide)) hx
    exact hfence (hended (.ite (hfreed.scrubAll r) hfreed))

theorem LedReset.stopReq (id : Nat) (o : Outcome) (h : LedReset v s) : LedReset v (Machine.stopReq id o s) := by
  unfold Machine.stopReq
  split
  · exact h
  refine .endChain _ _ ?_
  split
  · refine h.only (A := [.reqs, .crs, .out]) (Only.sendFrame _ _ _ _ (by decide) (Only.unforward _ _ (by decide) (Only.refl _ _))) (by decide)
  · exact h

/-- Stopping a tenant's requests, channels and streams moves no ledger, and no tenant into or out of reset (R434). -/
theorem LedReset.stopTenant (n : TenantIx) (detail : Nat) (h : LedReset v s) : LedReset v (Machine.stopTenant n detail s) := by
  refine .eachN _ (fun i s hs => hs.only (Only.setStream _ _ (List.Subset.refl _) (Only.refl _ _)) (by decide)) ?_
  refine .eachN _ (fun k s hs => hs.only (Only.dcReset k s (List.Subset.refl _) (Only.refl _ _)) (by decide)) ?_
  exact h.foldl _ fun s r hs => .ite (hs.stopReq _ _) hs

end

/-! ### Queued requests are discarded (R129, R434) -/

/-- A ring whose queued requests are discarded: its slots and its reads go too. -/
def Sq.discarding (q : Sq) : Sq := { q.release with queued := 0, posts := [], pulses := [], credit := 0 }

/-- The rings of a list are discarded, each counted in CLAMPED. -/
def discardRings (n : Nat) (l : List Nat) (s : State) : State :=
  eachN l (fun m s => modTen n (fun t => { t with led := { t.led with clamped := t.led.clamped + (s.sq n m).queued } }) (modSq n m Sq.discarding s)) s

theorem discardQueued_eq (n : TenantIx) (s : State) : discardQueued n s = discardRings n.val (List.range 16) s := rfl

/-- What discarding the queued requests of rings of tenant n leaves: CLAMPED rises by what they had queued. -/
theorem discardRings_facts (n : Nat) (l : List Nat) (hnodup : l.Nodup) (hl : ∀ m ∈ l, m < 16) (s : State) :
    let t := discardRings n l s
    (t.ten n).led = { (s.ten n).led with clamped := (s.ten n).led.clamped + (l.map fun m => (s.sq n m).queued).sum } ∧
      OtherTens n s t ∧ (∀ m ∈ l, t.sq n m = (s.sq n m).discarding) ∧ ∀ a b, (a ≠ n ∨ b ∉ l) → b < 16 → t.sq a b = s.sq a b := by
  induction l generalizing s with
  | nil => exact ⟨by simp [discardRings, eachN], fun _ _ => rfl, nofun, fun _ _ _ _ => rfl⟩
  | cons m l ih =>
    obtain ⟨hm, hnodup⟩ := List.nodup_cons.mp hnodup
    have hm16 := hl m (by simp)
    have hl' : ∀ b ∈ l, b < 16 := fun b hb => hl b (by simp [hb])
    obtain ⟨hled, hother, hin, hout⟩ := ih hnodup hl'
      (modTen n (fun t => { t with led := { t.led with clamped := t.led.clamped + (s.sq n m).queued } }) (modSq n m Sq.discarding s))
    have hsum : (l.map fun b => ((modSq n m Sq.discarding s).sq n b).queued) = l.map fun b => (s.sq n b).queued := by
      refine List.map_congr_left fun b hb => ?_
      rw [modSq_sq_ne]
      rintro hrix
      obtain ⟨-, rfl⟩ := (rix_inj (hl' b hb) hm16).mp hrix
      exact hm hb
    have hne {a b : Nat} (hb : b < 16) (h : a ≠ n ∨ b ≠ m) : rix a b ≠ rix n m := by
      rw [Ne, rix_inj hb hm16]
      omega
    refine ⟨?_, fun k hk => (hother k hk).trans (modTen_ten_ne _ _ hk), fun b hb => ?_, fun a b h hb => ?_⟩
    · refine hled.trans ?_
      simp only [modTen_sq, hsum, modTen_ten_same, modSq_ten, List.map_cons, List.sum_cons, add_assoc]
    · rcases List.mem_cons.mp hb with rfl | hbl
      · exact (hout n b (.inr hm) hm16).trans (modSq_sq_same _ _ _ _)
      · have hbm : b ≠ m := fun h => hm (h ▸ hbl)
        exact (hin b hbl).trans (congrArg _ (modSq_sq_ne _ _ (hne (hl' b hbl) (.inr hbm))))
    · simp only [List.mem_cons, not_or] at h
      exact (hout a b (h.imp_right And.right) hb).trans (modSq_sq_ne _ _ (hne hb (h.imp_right And.left)))

/-! ### Starting a reset (R46, R434) -/

section
variable {s t u : State} {n k : Nat}

theorem ResetNotStarted.trans (h : ResetNotStarted s t k) (g : ResetNotStarted t u k) : ResetNotStarted s u k :=
  ⟨g.1.trans h.1, g.2.1.trans h.2.1, fun m hm => (g.2.2 m hm).trans (h.2.2 m hm)⟩

theorem ResetStarted.after (h : ResetNotStarted s t n) (g : ResetStarted t u n) : ResetStarted s u n := by
  obtain ⟨hrst, hled, hsq⟩ := g
  refine ⟨hrst, ?_, hsq⟩
  rw [hled, h.2.1, queuedOf_congr fun m hm => congrArg Sq.queued (h.2.2 m hm)]

theorem ResetStarted.kept (h : ResetStarted s t n) (g : ResetNotStarted t u n) : ResetStarted s u n := by
  obtain ⟨hrst, hled, hsq⟩ := h
  refine ⟨g.1.trans hrst, g.2.1.trans hled, fun m hm => ?_⟩
  rw [g.2.2 m hm]
  exact hsq m hm

end

/-- What a reset may change. -/
abbrev trstParts : List Part := [.tens, .sqs, .sch, .reqs, .tiles, .streams, .ks, .dcs, .fp, .crs] ++ dropParts

theorem resetTenant_only (detail : Nat) (n : TenantIx) (s : State) : Only trstParts s (resetTenant detail n s) :=
  Only.resetTenant _ _ s (by decide) (Only.refl _ _)

/-- Which tenants are enabled is a matter of the configuration (R41). -/
theorem enabled_of_only {s t : State} (h : Only trstParts s t) (n : Nat) : t.enabled n = s.enabled n := by
  have hgen := h.gen_eq (by decide) (by decide)
  have hstart : t.start = s.start := h.2 .start (by decide)
  simp only [State.enabled, enabledIn, State.word, hgen, hstart]

/-- None starts for a tenant that is disabled or in reset (R46). -/
theorem resetTenant_idle {detail : Nat} {n : TenantIx} {s : State} (h : s.enabled n = false ∨ (s.ten n).inReset = true) :
    resetTenant detail n s = s := by
  rw [resetTenant, if_pos (by rcases h with h | h <;> simp [h])]

/-- The state before the requests of the tenant are stopped: IN_RESET reads 1, and its queued requests are discarded. -/
theorem resetTenant_starts {detail : Nat} {n : TenantIx} {s : State} (hen : s.enabled n = true) (hrst : (s.ten n).inReset = false) :
    resetTenant detail n s =
      stopTenant n detail (modTen n (fun t => { t with inReset := true }) (discardRings n (List.range 16) s)) := by
  rw [resetTenant, if_neg (by simp [hen, hrst]), discardQueued_eq]

theorem stopTenant_kept (n : TenantIx) (detail : Nat) (s : State) (k : Nat) : ResetNotStarted s (stopTenant n detail s) k := by
  have hrst : LedReset (fun k => ((s.ten k).led, (s.ten k).inReset)) s := fun _ => rfl
  obtain ⟨hled, hreset⟩ := Prod.mk.inj (hrst.stopTenant n detail k)
  have honly : Only [.denied, .notice, .tens, .sch, .reqs, .tiles, .streams, .ks, .dcs, .fp, .jrn, .evPend, .pviol, .pvcnt, .crs, .out] s
      (stopTenant n detail s) := Only.stopTenant _ _ s (by decide) (Only.refl _ _)
  have hsqs : (stopTenant n detail s).sqs = s.sqs := honly.2 .sqs (by decide)
  exact ⟨hreset, hled, fun m _ => by rw [State.sq, hsqs, State.sq]⟩

/-- Its queued requests discarded and IN_RESET at 1, the reset of a tenant has started. -/
theorem discarded_started (n : Nat) (s : State) :
    ResetStarted s (modTen n (fun t => { t with inReset := true }) (discardRings n (List.range 16) s)) n := by
  obtain ⟨hled, -, hin, -⟩ := discardRings_facts n (List.range 16) List.nodup_range (by simp) s
  rw [← queuedOf_eq_sum] at hled
  generalize discardRings n (List.range 16) s = x at hled hin
  refine ⟨by rw [modTen_ten_same], by rw [modTen_ten_same, hled], fun m hm => ?_⟩
  rw [modTen_sq, hin m (by simpa using hm)]
  refine ⟨rfl, rfl, rfl, fun r hr => ?_⟩
  obtain ⟨r, -, rfl⟩ := List.mem_map.mp hr
  rfl

/-- A reset that starts (R46, R129, R434). -/
theorem resetTenant_started {detail : Nat} {n : TenantIx} {s : State} (hen : s.enabled n = true) (hrst : (s.ten n).inReset = false) :
    ResetStarted s (resetTenant detail n s) n := by
  rw [resetTenant_starts hen hrst]
  exact (discarded_started n s).kept (stopTenant_kept n detail _ n)

/-- A reset of one tenant starts none of another. -/
theorem resetTenant_other {detail : Nat} {n : TenantIx} {k : Nat} {s : State} (hk : k ≠ n) : ResetNotStarted s (resetTenant detail n s) k := by
  by_cases h : s.enabled n = true ∧ (s.ten n).inReset = false
  · obtain ⟨-, hother, -, hout⟩ := discardRings_facts n (List.range 16) List.nodup_range (by simp) s
    rw [resetTenant_starts h.1 h.2]
    refine .trans ⟨?_, ?_, fun m hm => ?_⟩ (stopTenant_kept n detail _ k)
    · rw [modTen_ten_ne _ _ hk, hother k hk]
    · rw [modTen_ten_ne _ _ hk, hother k hk]
    · rw [modTen_sq, hout k m (.inl hk) hm]
  · rw [resetTenant_idle (by simpa [← Bool.not_eq_true, Decidable.or_iff_not_imp_left] using h)]
    exact ⟨rfl, rfl, fun _ _ => rfl⟩

/-- The resets of a list of tenants start for those that are enabled and not in reset, and for no other (R46). -/
theorem resetTenants_facts (l : List Nat) (hnodup : l.Nodup) (hl : ∀ n ∈ l, n < 16) (s : State) :
    let t := eachN l (fun n s => resetTenant 1 (Fin.ofNat 16 n) s) s
    ∀ n, n < 16 →
      ((n ∈ l ∧ s.enabled n = true ∧ (s.ten n).inReset = false) → ResetStarted s t n) ∧
      (¬ (n ∈ l ∧ s.enabled n = true ∧ (s.ten n).inReset = false) → ResetNotStarted s t n) := by
  induction l generalizing s with
  | nil => exact fun n _ => ⟨fun h => absurd h.1 (by simp), fun _ => ⟨rfl, rfl, fun _ _ => rfl⟩⟩
  | cons a l ih =>
    obtain ⟨ha, hnodup⟩ := List.nodup_cons.mp hnodup
    intro t n hn
    have haval : ((Fin.ofNat 16 a : TenantIx) : Nat) = a := Nat.mod_eq_of_lt (hl a (by simp))
    obtain ⟨hstarts, hkept⟩ := ih hnodup (fun b hb => hl b (by simp [hb])) (resetTenant 1 (Fin.ofNat 16 a) s) n hn
    have hen := enabled_of_only (resetTenant_only 1 (Fin.ofNat 16 a) s) n
    rw [hen] at hstarts hkept
    by_cases hna : n = a
    · subst hna
      have hrest := hkept fun h => ha h.1
      refine ⟨fun h => ?_, fun h => ?_⟩
      · refine ResetStarted.kept ?_ hrest
        have := resetTenant_started (detail := 1) (n := Fin.ofNat 16 n) (s := s) (by rw [haval]; exact h.2.1) (by rw [haval]; exact h.2.2)
        rwa [haval] at this
      · have hidle : resetTenant 1 (Fin.ofNat 16 n) s = s := by
          refine resetTenant_idle ?_
          rw [haval]
          simpa [← Bool.not_eq_true, Decidable.or_iff_not_imp_left] using h
        rw [hidle] at hrest
        show ResetNotStarted s (eachN l _ (resetTenant 1 (Fin.ofNat 16 n) s)) n
        rw [hidle]
        exact hrest
    · have hfirst : ResetNotStarted s (resetTenant 1 (Fin.ofNat 16 a) s) n := resetTenant_other (by rw [haval]; exact hna)
      rw [hfirst.1] at hstarts hkept
      simp only [List.mem_cons, hna, false_or]
      exact ⟨fun h => .after hfirst (hstarts h), fun h => hfirst.trans (hkept h)⟩

/-! ### Ending a reset (R47, R434, R435) -/

/-- Clearing rings of tenant n puts each at its reset values, but for its reads in flight, and leaves every other. -/
theorem clearRings_facts (n : TenantIx) (l : List Nat) (hl : ∀ m ∈ l, m < 16) (s : State) :
    let t := clearRings n l s
    (∀ m ∈ l, t.sq n m = (s.sq n m).fresh ∧ t.cq n m = {}) ∧
      ∀ a m, (a ≠ n.val ∨ m ∉ l) → m < 16 → t.sq a m = s.sq a m ∧ t.cq a m = s.cq a m := by
  induction l generalizing s with
  | nil => exact ⟨nofun, fun _ _ _ _ => ⟨rfl, rfl⟩⟩
  | cons b l ih =>
    have hb16 := hl b (by simp)
    obtain ⟨hin, hout⟩ := ih (fun m hm => hl m (by simp [hm])) (modCq n.val b (fun _ => {}) (modSq n.val b Sq.fresh s))
    have hne {a m : Nat} (hm : m < 16) (h : a ≠ n.val ∨ m ≠ b) : rix a m ≠ rix n b := by
      rw [Ne, rix_inj hm hb16]
      omega
    have hfresh (q : Sq) : q.fresh.fresh = q.fresh := by simp [Sq.fresh, dropFlight]
    refine ⟨fun m hm => ?_, fun a m h hm => ?_⟩
    · by_cases hml : m ∈ l
      · obtain ⟨hsq, hcq⟩ := hin m hml
        refine ⟨hsq.trans ?_, hcq⟩
        by_cases hmb : m = b
        · subst hmb
          rw [modCq_sq, modSq_sq_same, hfresh]
        · rw [modCq_sq, modSq_sq_ne _ _ (hne (hl m hm) (.inr hmb))]
      · obtain rfl : m = b := by simpa [hml] using hm
        obtain ⟨hsq, hcq⟩ := hout n.val m (.inr hml) hb16
        exact ⟨hsq.trans (modSq_sq_same _ _ _ _), hcq.trans (modCq_cq_same _ _ _ _)⟩
    · simp only [List.mem_cons, not_or] at h
      obtain ⟨hsq, hcq⟩ := hout a m (h.imp_right And.right) hm
      have hrix := hne hm (h.imp_right And.left)
      exact ⟨hsq.trans (modSq_sq_ne _ _ hrix), hcq.trans (modCq_cq_ne _ _ hrix)⟩

theorem clearRings_only (n : TenantIx) (l : List Nat) (s : State) : Only [.sqs, .cqs] s (clearRings n l s) :=
  Only.eachN l (Only.refl _ _) fun _ _ hs => Only.modCq _ _ _ (by decide) (Only.modSq _ _ _ (by decide) hs)

/-- What the end of a reset leaves, of a state with the tenants and the rings of s. -/
theorem clearTenant_facts (n : TenantIx) {s x : State} (hten : ∀ k, x.ten k = s.ten k) (hsq : ∀ a b, x.sq a b = s.sq a b)
    (hcq : ∀ a b, x.cq a b = s.cq a b) :
    let t := raiseG gTrstDone (clearTenant n x)
    OtherTens n s t ∧ (t.ten n).inReset = false ∧ (t.ten n).evEn = 0 ∧ (t.ten n).evPend = 0 ∧ (t.ten n).evCause = 0 ∧
      (∀ m, m < 16 → t.sq n m = (s.sq n m).fresh ∧ t.cq n m = {}) ∧
      (∀ a m, a ≠ n.val → m < 16 → t.sq a m = s.sq a m ∧ t.cq a m = s.cq a m) ∧ bitOf t.evPend gTrstDone = true := by
  obtain ⟨hin, hout⟩ := clearRings_facts n (List.range 16) (by simp) x
  have htens := (clearRings_only n (List.range 16) x).2 .tens (by decide)
  dsimp only
  rw [clearTenant_eq]
  generalize clearRings n (List.range 16) x = y at hin hout htens
  refine ⟨fun k hk => ?_, ?_, ?_, ?_, ?_, fun m hm => ?_, fun a m ha hm => ?_, raiseG_bit _ _ (by decide)⟩
  · rw [raiseG_ten, modTen_ten_ne _ _ hk, modSent_ten, ten_of_tens htens, hten]
  iterate 4 rw [raiseG_ten, modTen_ten_same]
  · rw [raiseG_sq, raiseG_cq, modTen_sq, modTen_cq, modSent_sq, modSent_cq, ← hsq]
    exact hin m (by simpa using hm)
  · rw [raiseG_sq, raiseG_cq, modTen_sq, modTen_cq, modSent_sq, modSent_cq, ← hsq, ← hcq]
    exact hout a m (.inl ha) hm

theorem fxTenantResetDone_due {n : TenantIx} {s : State} (hrst : (s.ten n).inReset = true) (hnone : ∀ r ∈ s.reqs, r.ofTenant n = false) :
    fxTenantResetDone n s = raiseG gTrstDone (clearTenant n (zeroizeKeys n s)) :=
  whenS_true (by simpa [hrst] using hnone)

theorem fxTenantResetWait_due {n : TenantIx} {r : Req} {s : State} (hrst : (s.ten n).inReset = true) (hnew : (s.ten n).rstWait = false)
    (hmem : r ∈ s.reqs) (hof : r.ofTenant n = true) (hwait : r.phase = .waiting) :
    fxTenantResetWait n s = raiseG gTrstWait (modTen n (fun t => { t with rstWait := true }) s) := by
  refine whenS_true ?_
  simp only [hrst, hnew, Bool.not_false, Bool.and_true, Bool.true_and, List.any_eq_true]
  exact ⟨r, hmem, by simp [hof, hwait]⟩

end Sys2Proof.Machine

namespace Sys2Proof.TenantReset
open Sys2Proof.Machine

/-- Settles O15: a write to AH_OWN_TRST resets the tenants of its bits one after the other, one to AH_Tn_CTL its tenant; a tenant that is
disabled or in reset is passed over. -/
theorem tenantResetStarts : Obligations.TenantResetStarts := by
  unfold Obligations.TenantResetStarts
  refine ⟨?mask, ?one, ?idle, ?wait⟩
  case mask =>
    intro who mask s htakes
    refine ⟨ownTrst mask.toNat s, congrArg Host.Outcome.next (gateW_takes htakes), Only.ownTrst _ s (by decide) (Only.refl _ _), fun n hn => ?_⟩
    have hfacts := resetTenants_facts ((List.range 16).filter mask.toNat.testBit) (List.nodup_range.filter _) (by simp +contextual) s n hn
    simpa [ownTrst, List.mem_filter, hn] using hfacts
  case one =>
    intro who n s htakes hen hrst
    exact ⟨resetTenant 1 n s, congrArg Host.Outcome.next (gateW_takes htakes), resetTenant_only 1 n s, resetTenant_started hen hrst,
      fun k _ hk => resetTenant_other hk⟩
  case idle =>
    intro who n s htakes h
    exact congrArg Host.Outcome.next ((gateW_takes htakes).trans (resetTenant_idle h))
  case wait =>
    intro n r s hrst hnew hmem hof hwait
    refine ⟨_, congrArg Host.Outcome.next (fxTenantResetWait_due hrst hnew hmem hof hwait), ?_, fun k hk => ?_, ?_, raiseG_bit _ _ (by decide)⟩
    · exact Only.raiseG _ _ (by decide) (Only.modTen _ _ (by decide) (Only.refl _ _))
    · rw [raiseG_ten, modTen_ten_ne _ _ hk]
    · rw [raiseG_ten, modTen_ten_same]

/-- Settles O16: the end of a reset is `clearTenant`, whose rings are those of `clearRings`. -/
theorem tenantResetEnds : Obligations.TenantResetEnds := by
  unfold Obligations.TenantResetEnds
  intro n s hrst hnone
  refine ⟨fxTenantResetDone n s, rfl, Only.fxTenantResetDone n s (by decide) (Only.refl _ _), ?_⟩
  rw [fxTenantResetDone_due hrst hnone]
  exact clearTenant_facts n (fun _ => rfl) (fun _ _ => rfl) fun _ _ => rfl

end Sys2Proof.TenantReset
end

section
/-!
Setting a submission ring up, the rewrite procedure and the reads of a ring (R52 to R54, R66 to R73, R77, R355, R498), with the statements O19,
O21 and O22.
-/

namespace Sys2Proof.Machine

theorem OtherTens.refl (n : Nat) (s : State) : OtherTens n s s := fun _ _ => rfl

theorem OtherTens.modTen {n : Nat} {s x : State} (f : Tenant → Tenant) (h : OtherTens n s x) : OtherTens n s (Machine.modTen n f x) :=
  fun k hk => (modTen_ten_ne f x hk).trans (h k hk)

theorem OtherTens.raiseT {n : Nat} {s x : State} (e : Nat) (h : OtherTens n s x) : OtherTens n s (Machine.raiseT n e x) := h.modTen _

theorem OtherSqs.refl (n m : Nat) (s : State) : OtherSqs n m s s := fun _ _ _ => rfl

/-- A part that a frame does not name keeps every submission ring. -/
theorem OtherSqs.only {n m : Nat} {A : List Part} {s x y : State} (h : OtherSqs n m s x) (honly : Only A x y) (hA : Part.sqs ∉ A) :
    OtherSqs n m s y := fun a b hab => by rw [State.sq, honly.2 .sqs hA, ← State.sq, h a b hab]

theorem sq_of_only {A : List Part} {s t : State} (h : Only A s t) (hA : Part.sqs ∉ A) (n m : Nat) : t.sq n m = s.sq n m := by
  rw [State.sq, h.2 .sqs hA, ← State.sq]

/-! ### Set-up (R52, R77, R355, R499) -/

theorem sqMutable_iff (q : Sq) : sqMutable q = true ↔ q.en = false ∧ q.head = q.tail ∧ q.queued = 0 := by
  simp only [sqMutable, Bool.and_eq_true, Bool.not_eq_true', decide_eq_true_eq, and_assoc]

/-- A write of every bit replaces the word. -/
theorem merge_full (old val : Word) : merge old (~~~ 0) val = val := by
  rw [merge, and_full, BitVec.not_not]
  simp

section
variable {who : Who} {n : TenantIx} {m : RingIx} {v : Word} {s : State}

theorem sqBaseWrite_mutable (h : sqMutable (s.sq n m) = true) : sqBaseWrite who n m (~~~ 0) v s =
    modSq n m (fun q => { q with base := (Reg.sqBase n m).write q.base (~~~ 0) v, head := 0, tail := 0 }) s := if_pos h

theorem sqBaseWrite_fixed (h : ¬ sqMutable (s.sq n m) = true) : sqBaseWrite who n m (~~~ 0) v s = dropReg who (.sqBase n m) v s := if_neg h

/-- CFG taken: the credit stays where CLASS does (R77). -/
def Sq.withCfg (q : Sq) (new : Word) : Sq :=
  { q with
    cfg := new
    credit := if fld new 21 20 = q.cls then q.credit else 0
    creditX := if fld new 21 20 = q.cls then q.creditX else 0 }

theorem sqCfgWrite_mutable (h : sqMutable (s.sq n m) = true) : (sqCfgWrite who n m (~~~ 0) v s) = modSq n m (fun q =>
    { (if fld ((Reg.sqCfg n m).write (s.sq n m).cfg (~~~ 0) v) 21 20 = q.cls
        then { q with cfg := (Reg.sqCfg n m).write (s.sq n m).cfg (~~~ 0) v }
        else { q with cfg := (Reg.sqCfg n m).write (s.sq n m).cfg (~~~ 0) v, credit := 0, creditX := 0 }) with head := 0, tail := 0 }) s :=
  if_pos h

theorem sqCfgWrite_sameSize (h : ¬ sqMutable (s.sq n m) = true) (hsize : fld v 4 0 = (s.sq n m).k) :
    sqCfgWrite who n m (~~~ 0) v s = modSq n m (fun q =>
      if fld ((Reg.sqCfg n m).write (s.sq n m).cfg (~~~ 0) v) 21 20 = q.cls
        then { q with cfg := (Reg.sqCfg n m).write (s.sq n m).cfg (~~~ 0) v }
        else { q with cfg := (Reg.sqCfg n m).write (s.sq n m).cfg (~~~ 0) v, credit := 0, creditX := 0 }) s := by
  rw [sqCfgWrite, if_neg h, if_pos (by rw [merge_full, hsize])]

theorem sqCfgWrite_otherSize (h : ¬ sqMutable (s.sq n m) = true) (hsize : fld v 4 0 ≠ (s.sq n m).k) :
    sqCfgWrite who n m (~~~ 0) v s = dropReg who (.sqCfg n m) v s := by
  rw [sqCfgWrite, if_neg h, if_neg (by rw [merge_full]; exact hsize)]
  rfl

/-- A command that writes one ring alone, of which `f` gives the new ring. -/
theorem modSq_facts (n m : Nat) (f : Sq → Sq) (s : State) :
    Only [.sqs] s (modSq n m f s) ∧ OtherSqs n m s (modSq n m f s) ∧ (modSq n m f s).sq n m = f (s.sq n m) :=
  ⟨Only.modSq _ _ _ (by decide) (Only.refl _ _), .modSq _ (.refl _ _ _), modSq_sq_same _ _ _ _⟩

end

/-! ### The rewrite procedure (R72, R73, R79) -/

/-- What settling a ring leaves of a ring that a write has changed: the head and the slots may move, the tail and QUEUED do not (R59, R61). -/
theorem settleRing_after {n m : Nat} (f : Sq → Sq) (s : State) :
    let t := settleRing n m (modSq n m f s)
    OtherTens n s t ∧ OtherSqs n m s t ∧
      ∃ h v su c g fl, t.sq n m = { f (s.sq n m) with head := h, voids := v, surplus := su, cache := c, charges := g, flight := fl } := by
  obtain ⟨⟨h, v, su, c, g, fl, hsq⟩, hsqs, -, htens, -⟩ := settleRing_sq n m (modSq n m f s)
  rw [modSq_sq_same] at hsq
  exact ⟨htens, fun a b hab => (hsqs a b hab).trans (modSq_sq_ne _ _ hab), h, v, su, c, g, fl, hsq⟩

theorem fxSqInvalDone_busy {n : TenantIx} {m : RingIx} {s : State} (h : (s.sq n m).invalBusy = true) :
    fxSqInvalDone n m s = settleRing n m (modSq n m (fun q =>
      if q.unpauseDue then { q with invalBusy := false, discarded := 0, unpauseDue := false, paused := false }
      else { q with invalBusy := false, discarded := 0 }) s) := whenS_true h

/-! ### Reads of a ring (R53, R54, R66, R68, R71) -/

/-- What a fault of a ring leaves: the ring takes no entry any more, and what is queued stays (R66). -/
theorem sqFault_facts (n : TenantIx) (m : RingIx) (addr kind cause : Nat) (pref : Bool) (x : State) :
    let t := sqFault n m addr kind cause pref x
    OtherSqs n m x t ∧ OtherTens n x t ∧ (t.sq n m).fault = true ∧ (t.sq n m).blocked = true ∧ (t.sq n m).fcap.addr = BitVec.ofNat 48 addr ∧
      (t.sq n m).fcap.cause = BitVec.ofNat 4 cause ∧ (t.sq n m).queued = (x.sq n m).queued ∧ (t.sq n m).tail = (x.sq n m).tail ∧
      TenEvent t n evSqFault ∧ admissible t n m = false := by
  have hsq : ((sqFault n m addr kind cause pref x).sq n m) = { x.sq n m with
      fault := true, blocked := true, flight := dropFlight (x.sq n m).flight
      fcap := ⟨BitVec.ofNat 48 addr, BitVec.ofNat 2 kind, BitVec.ofNat 4 cause, pref⟩ } := by
    rw [sqFault, raiseT_sq, modSq_sq_same]
  have hblocked : ((sqFault n m addr kind cause pref x).sq n m).blocked = true := by rw [hsq]
  have hother : OtherTens n x (sqFault n m addr kind cause pref x) := .raiseT _ fun _ _ => rfl
  refine ⟨fun a b hab => ?_, hother, ?_, hblocked, ?_, ?_, ?_, ?_, raiseT_event _ _ _ (by decide), not_admissible_of_blocked hblocked⟩
  · rw [sqFault, raiseT_sq, modSq_sq_ne _ _ hab]
  all_goals rw [hsq]

theorem violT_otherTens (n addr : Nat) (d : Dir) (cause kind number tag gen : Nat) (s : State) :
    OtherTens n s (violT n addr d cause kind number tag gen s) := by
  have hcount : OtherTens n s (modTen n (fun t => { t with vcnt := t.vcnt.bump }) s) := .modTen _ (.refl _ _)
  have hsat (b : Bool) : OtherTens n s (if b = true then raiseT n evAccVcntSat (modTen n (fun t => { t with vcnt := t.vcnt.bump }) s)
      else modTen n (fun t => { t with vcnt := t.vcnt.bump }) s) := by
    split
    · exact .raiseT _ hcount
    · exact hcount
  unfold violT
  dsimp only
  split
  · exact hsat _
  · exact .raiseT _ (.modTen _ (hsat _))

/-- A bus error leaves one record (R432). -/
theorem busErrorOf_seq (t : Option TenantIx) (addr : Nat) (d : Dir) (port kind number tag gen : Nat) (s : State) :
    (busErrorOf t addr d port kind number tag gen s).jrn.seq = s.jrn.seq + 1 := by
  unfold busErrorOf
  cases t with
  | none =>
    dsimp only
    split <;> simp only [raiseG_jrn, modBuserr_jrn, modBecnt_jrn, journal_seq]
  | some n =>
    dsimp only
    split <;> split <;> simp only [raiseT_jrn, modTen_jrn, journal_seq]

section
variable {n : TenantIx} {m : RingIx} {slots : Nat} {s : State}

/-- The slots that a read of the ring asks for (R54). -/
abbrev readAddrs (q : Sq) (slots : Nat) : List Nat := (List.range slots).map fun j => q.slotAddr (q.head + q.nextSlot + j)

/-- A read of one slot, or of two in one access, begins at its first slot (R54, R68). -/
theorem readAddrs_unit {q : Sq} (h : slots = 1 ∨ slots = 2 ∧
      q.slotAddr (q.head + q.nextSlot + 1) = q.slotAddr (q.head + q.nextSlot + 0) + 32 ∧ q.slotAddr (q.head + q.nextSlot + 0) % 4096 + 64 ≤ 4096) :
    oneUnit (readAddrs q slots) = true ∧ (readAddrs q slots).headD 0 = q.slotAddr (q.head + q.nextSlot + 0) := by
  rcases h with rfl | ⟨rfl, hnext, hpage⟩
  · exact ⟨rfl, rfl⟩
  · have hboth : (decide _ && decide _) = true := Bool.and_eq_true_iff.mpr ⟨decide_eq_true hnext, decide_eq_true hpage⟩
    exact ⟨hboth, rfl⟩

/-- When a read of the next slots may be made (R53, R68, R70, R412). -/
abbrev mayReadSlots (s : State) (n : TenantIx) (m : RingIx) (slots : Nat) : Prop :=
  let q := s.sq n m
  s.start.serving = true ∧ s.enabled n = true ∧ (s.ten n).inReset = false ∧ q.en = true ∧ q.pause = false ∧ q.paused = false ∧ q.fault = false ∧
    q.blocked = false ∧ s.ret.req = false ∧ s.ret.asleep = false ∧ (∀ j, j < slots → mayRead1 s n m (q.nextSlot + j) = true) ∧ roomFor s q slots = true

/-- The condition of the command is that such a read may be made. -/
theorem fxEntryCacheRead_enabled (hunit : oneUnit (readAddrs (s.sq n m) slots) = true) (hmay : mayReadSlots s n m slots) :
    (s.start.serving && s.enabled n && !(s.ten n).inReset && (s.sq n m).en && !(s.sq n m).pause && !(s.sq n m).paused && !(s.sq n m).fault &&
      !(s.sq n m).blocked && !s.ret.req && !s.ret.asleep && oneUnit (readAddrs (s.sq n m) slots) &&
      (List.range slots).all (fun j => mayRead1 s n m ((s.sq n m).nextSlot + j)) && roomFor s (s.sq n m) slots) = true := by
  obtain ⟨hserve, hten, hrst, hen, hpause, hpaused, hfault, hblocked, hreq, hsleep, hslots, hroom⟩ := hmay
  simp only [hserve, hten, hrst, hen, hpause, hpaused, hfault, hblocked, hreq, hsleep, hunit, hroom, Bool.not_false, Bool.and_true, Bool.true_and, List.all_eq_true,
    List.mem_range]
  exact hslots

/-- A read that may be made and passes its check is one access, and in flight (R54, R68). -/
theorem fxEntryCacheRead_issued (hunit : oneUnit (readAddrs (s.sq n m) slots) = true) (hmay : mayReadSlots s n m slots)
    (hcheck : check s s.gen.act (some n) (s.sq n m).dbWorld .read ((readAddrs (s.sq n m) slots).headD 0) (32 * slots) = none) :
    fxEntryCacheRead n m slots s = emitRd ((readAddrs (s.sq n m) slots).headD 0) (32 * slots) (modSq n m (fun q => { q with flight := q.flight ++
      [⟨((s.sq n m).head + (s.sq n m).nextSlot) % 2 ^ ((s.sq n m).k + 1), readAddrs (s.sq n m) slots,
        decide (headLen (s.sq n m).front ≤ (s.sq n m).nextSlot), false, true⟩] }) s) := by
  rw [fxEntryCacheRead, whenS_true (fxEntryCacheRead_enabled hunit hmay), hcheck]
  rfl

/-- One that fails its check faults the ring (R66). -/
theorem fxEntryCacheRead_fails {fa cause : Nat} (hunit : oneUnit (readAddrs (s.sq n m) slots) = true) (hmay : mayReadSlots s n m slots)
    (hcheck : check s s.gen.act (some n) (s.sq n m).dbWorld .read ((readAddrs (s.sq n m) slots).headD 0) (32 * slots) = some (fa, cause)) :
    fxEntryCacheRead n m slots s = sqFault n m fa 1 cause (decide (headLen (s.sq n m).front ≤ (s.sq n m).nextSlot))
      (violT n fa .read cause kindRing m 0 s.gen.active.toNat s) := by
  rw [fxEntryCacheRead, whenS_true (fxEntryCacheRead_enabled hunit hmay), hcheck]

end

section
variable {n : TenantIx} {m : RingIx} {data : Bytes} {r : RingRead} {rest : List RingRead} {s : State}

/-- A read that has returned is in flight no more. -/
abbrev readBack (n m : Nat) (rest : List RingRead) (s : State) : State := modSq n m (fun q => { q with flight := rest }) s

section
variable (hflight : (s.sq n m).flight = r :: rest) (hlen : data.length = 32 * r.addrs.length)
include hflight hlen

/-- Slots that are wanted no more are dropped (R67, R73). -/
theorem fxRingSlotReadReturn_dead (ecc : Ecc) (hlive : r.live = false) : fxRingSlotReadReturn n m data ecc s = readBack n m rest s := by
  rw [fxRingSlotReadReturn, hflight]
  dsimp only
  rw [whenS_true (decide_eq_true hlen), if_pos (by simp [hlive])]

/-- Slots that arrive are held as read, and charged (R71, R357). -/
theorem fxRingSlotReadReturn_clean (hlive : r.live = true) : fxRingSlotReadReturn n m data .clean s =
    chargeNew n m (modSq n m (fun q => { q with cache := q.cache ++ q.arrived r data }) (readBack n m rest s)) := by
  rw [fxRingSlotReadReturn, hflight]
  dsimp only
  rw [whenS_true (decide_eq_true hlen), if_neg (by simp [hlive]), if_neg (by decide)]

/-- Slots with an uncorrectable error are discarded (R431). -/
theorem fxRingSlotReadReturn_uncorrectable (hlive : r.live = true) :
    fxRingSlotReadReturn n m data .uncorrectable s = raiseG gUe (journalUe 4 0 (readBack n m rest s)) := by
  rw [fxRingSlotReadReturn, hflight]
  dsimp only
  rw [whenS_true (decide_eq_true hlen), if_neg (by simp [hlive])]

end

end

end Sys2Proof.Machine

namespace Sys2Proof.RingWork
open Sys2Proof.Machine

/-- Settles O19: each write that the port takes is one update of the ring, or the port's drop where R52 does not hold. -/
theorem ringSetup : Obligations.RingSetup := by
  unfold Obligations.RingSetup
  refine ⟨?base, ?cfg, ?sched⟩
  case base =>
    intro who n m v s htakes q
    rw [← sqMutable_iff]
    refine ⟨fun h => ?_, fun h => ?_⟩
    · exact ⟨_, congrArg Host.Outcome.next ((gateW_takes htakes).trans (sqBaseWrite_mutable h)), modSq_facts _ _ _ _⟩
    · exact ⟨_, congrArg Host.Outcome.next ((gateW_takes htakes).trans (sqBaseWrite_fixed h)), dropReg_dropped _ _ _ s⟩
  case cfg =>
    intro who n m v s htakes q new kept
    rw [← sqMutable_iff]
    have hcfg (p : Sq) (hp : p = q) : (if fld new 21 20 = p.cls then { p with cfg := new } else { p with cfg := new, credit := 0, creditX := 0 }) =
        { q with cfg := new, credit := kept q.credit, creditX := kept q.creditX } := by
      subst hp
      dsimp only [kept]
      split <;> rfl
    refine ⟨fun h => ?_, fun h hsize => ?_, fun h hsize => ?_⟩
    · obtain ⟨honly, hother, hsq⟩ := modSq_facts n m _ s
      refine ⟨_, congrArg Host.Outcome.next ((gateW_takes htakes).trans (sqCfgWrite_mutable h)), honly, hother, hsq.trans ?_⟩
      rw [hcfg _ rfl]
    · obtain ⟨honly, hother, hsq⟩ := modSq_facts n m _ s
      exact ⟨_, congrArg Host.Outcome.next ((gateW_takes htakes).trans (sqCfgWrite_sameSize h hsize)), honly, hother, hsq.trans (hcfg _ rfl)⟩
    · exact ⟨_, congrArg Host.Outcome.next ((gateW_takes htakes).trans (sqCfgWrite_otherSize h hsize)), dropReg_dropped _ _ _ s⟩
  case sched =>
    intro who n m v s htakes q new
    obtain ⟨honly, hother, hsq⟩ := modSq_facts n m _ s
    refine ⟨_, congrArg Host.Outcome.next (gateW_takes htakes), honly, hother, hsq.trans ?_⟩
    split
    next h => rw [if_pos h]
    next h => rw [if_neg h]

/-- Settles O21: each step is one update of the ring; where PAUSE is cleared or INVAL is done, the ring is settled from it. -/
theorem ringRewrite : Obligations.RingRewrite := by
  unfold Obligations.RingRewrite
  refine ⟨?pause, ?paused, ?inval, ?done, ?unpause, ?fault⟩
  case pause => exact fun who n m s htakes => ⟨_, congrArg Host.Outcome.next (gateW_takes htakes), modSq_facts n m _ s⟩
  case paused =>
    intro n m s hpause hflight
    exact ⟨_, congrArg Host.Outcome.next (whenS_true (by simp [hpause, hflight])), modSq_facts n m _ s⟩
  case inval =>
    intro who n m s htakes
    obtain ⟨honly, hother, hsq⟩ := modSq_facts n m _ s
    refine ⟨_, congrArg Host.Outcome.next (gateW_takes htakes), honly, hother, fun h => hsq.trans (if_neg (by simp [h])), fun h => hsq.trans (if_pos h)⟩
  case done =>
    intro n m s hbusy
    obtain ⟨htens, hsqs, _, _, _, _, _, _, hsq⟩ := settleRing_after (n := n.val) (m := m.val) (fun q =>
      if q.unpauseDue then { q with invalBusy := false, discarded := 0, unpauseDue := false, paused := false }
      else { q with invalBusy := false, discarded := 0 }) s
    rw [← fxSqInvalDone_busy hbusy] at htens hsqs hsq
    refine ⟨_, rfl, Only.fxSqInvalDone n m s (by decide) (Only.refl _ _), htens, hsqs, ?_⟩
    rw [hsq]
    cases hdue : (s.sq n m).unpauseDue <;> simp
  case unpause =>
    intro who n m s htakes
    obtain ⟨htens, hsqs, _, _, _, _, _, _, hsq⟩ := settleRing_after (n := n.val) (m := m.val) (fun q =>
      if q.invalBusy then { q with pause := false, unpauseDue := true } else { q with pause := false, paused := false }) s
    refine ⟨sqClearPause n m s, congrArg Host.Outcome.next (gateW_takes htakes), Only.sqClearPause _ _ s (by decide) (Only.refl _ _), htens, hsqs, ?_⟩
    rw [show (sqClearPause n m s).sq n m = _ from hsq]
    cases hbusy : (s.sq n m).invalBusy <;> simp
  case fault =>
    intro who n m s htakes
    obtain ⟨honly, hother, hsq⟩ := modSq_facts n m _ s
    refine ⟨_, congrArg Host.Outcome.next (gateW_takes htakes), honly, hother, hsq.trans ?_⟩
    split
    next hen => rw [show ((s.sq n m).fault && (s.sq n m).en) = (s.sq n m).fault by rw [hen, Bool.and_true]]
    next hen => rw [show ((s.sq n m).fault && (s.sq n m).en) = false by rw [Bool.eq_false_of_not_eq_true hen, Bool.and_false]]

/-- Settles O22: a read that may be made is issued or faults the ring; slots that return are charged and held; a bus error is `sqFault` after its
record. -/
theorem ringReads : Obligations.RingReads := by
  unfold Obligations.RingReads
  refine ⟨?reads, ?returns, ?errors⟩
  case reads =>
    intro n m slots s q i addr checked hmay
    obtain ⟨hslots, hmay⟩ := hmay
    obtain ⟨hunit, hhead⟩ := readAddrs_unit hslots
    refine ⟨fun hnone => ?_, fun fa cause hfails => ?_⟩
    · have hread := fxEntryCacheRead_issued hunit hmay (by rw [hhead]; exact hnone)
      rw [hhead] at hread
      obtain ⟨honly, hother, hsq⟩ := modSq_facts n m (fun q => { q with flight := q.flight ++
          [⟨((s.sq n m).head + (s.sq n m).nextSlot) % 2 ^ ((s.sq n m).k + 1), readAddrs (s.sq n m) slots,
            decide (headLen (s.sq n m).front ≤ (s.sq n m).nextSlot), false, true⟩] }) s
      have hemit : ∀ a l (x : State), Only [.out] x (emitRd a l x) := fun a l x => Only.emitRd a l x (by decide) (Only.refl _ _)
      exact ⟨_, congrArg Host.Outcome.next hread, (honly.mono (by decide)).trans ((hemit _ _ _).mono (by decide)), hother.only (hemit _ _ _) (by decide),
        (sq_of_only (hemit _ _ _) (by decide) _ _).trans hsq, emitRd_out2 _ _ _ _ rfl⟩
    · have hread := fxEntryCacheRead_fails hunit hmay (by rw [hhead]; exact hfails)
      have hviol : Only [.tens] s (violT n fa .read cause kindRing m 0 s.gen.active.toNat s) :=
        Only.violT _ _ _ _ _ _ _ _ s (by decide) (Only.refl _ _)
      obtain ⟨hsqs, htens, hfault, hblocked, haddr, hcause, hqueued, htail, hevent, hadm⟩ := sqFault_facts n m fa 1 cause
        (decide (headLen (s.sq n m).front ≤ (s.sq n m).nextSlot)) (violT n fa .read cause kindRing m 0 s.gen.active.toNat s)
      have hsame := sq_of_only hviol (by decide) n m
      exact ⟨_, congrArg Host.Outcome.next hread, Only.sqFault _ _ _ _ _ _ _ (by decide) (hviol.mono (by decide)),
        fun a b hab => (hsqs a b hab).trans (sq_of_only hviol (by decide) _ _), fun k hk => (htens k hk).trans (violT_otherTens _ _ _ _ _ _ _ _ _ k hk),
        hfault, hblocked, haddr, hcause, hqueued.trans (congrArg Sq.queued hsame), htail.trans (congrArg Sq.tail hsame), hevent, hadm⟩
  case returns =>
    intro n m data r rest s q hflight hlen
    obtain ⟨honly, hother, hsq⟩ := modSq_facts n m (fun q => { q with flight := rest }) s
    refine ⟨fun hlive => ?_, fun hlive => ?_, fun hlive ecc => ?_⟩
    · obtain ⟨honly', hother', hsq'⟩ := modSq_facts n m (fun q => { q with cache := q.cache ++ q.arrived r data }) (readBack n m rest s)
      rw [hsq] at hsq'
      have hcharged : ∀ x : State, (chargeNew n m x).sq n m = { x.sq n m with charges := ((chargeNew n m x).sq n m).charges } :=
        fun x => by rw [chargeNew, modSq_sq_same]
      refine ⟨_, congrArg Host.Outcome.next (fxRingSlotReadReturn_clean hflight hlen hlive), Only.chargeNew _ _ _ (by decide) (honly.trans honly'),
        .modSq _ fun a b hab => (hother' a b hab).trans (hother a b hab), ?_⟩
      rw [hcharged, hsq']
      exact ⟨rfl, rfl, rfl, rfl, rfl⟩
    · have hrec : Only recordParts (readBack n m rest s) (raiseG gUe (journalUe 4 0 (readBack n m rest s))) :=
        Only.raiseG _ _ (by decide) (Only.journalUe _ _ _ (by decide) (Only.refl _ _))
      refine ⟨_, congrArg Host.Outcome.next (fxRingSlotReadReturn_uncorrectable hflight hlen hlive), (honly.mono (by decide)).trans (hrec.mono (by decide)),
        hother.only hrec (by decide), (sq_of_only hrec (by decide) _ _).trans hsq, raiseG_bit _ _ (by decide), ?_⟩
      rw [raiseG_jrn, journalUe, journal_seq, modSq_jrn]
    · exact ⟨_, congrArg Host.Outcome.next (fxRingSlotReadReturn_dead hflight hlen ecc hlive), honly, hother, hsq⟩
  case errors =>
    intro n m addr dir r s hread
    have hring : exec (.busErrorResponse (.ring n m) addr dir) s = .next (ringBusError n m addr.toNat s) := rfl
    rw [hring]
    unfold ringBusError
    rw [hread]
    dsimp only
    generalize hx : busErrorOf (some n) addr.toNat .read _ _ _ _ _ (modSq n m (fun q => { q with flight := q.flight.erase r }) s) = x
    have hrec : Only [.notice, .tens, .jrn, .evPend, .buserr, .becnt, .pviol, .pvcnt, .out]
        (modSq n m (fun q => { q with flight := q.flight.erase r }) s) x := hx ▸ Only.busErrorOf _ _ _ _ _ _ _ _ _ (by decide) (Only.refl _ _)
    obtain ⟨-, hother, hsq⟩ := modSq_facts n m (fun q => { q with flight := q.flight.erase r }) s
    have hsqx := (sq_of_only hrec (by decide) n m).trans hsq
    obtain ⟨hsqs, -, hfault, hblocked, haddr, -, hqueued, htail, hevent, hadm⟩ := sqFault_facts n m addr.toNat 2 0 r.ahead x
    refine ⟨_, rfl, fun a b hab => (hsqs a b hab).trans (hother.only hrec (by decide) a b hab), hfault, hblocked, ?_,
      hqueued.trans (by rw [hsqx]), htail.trans (by rw [hsqx]), hevent, hadm, ?_⟩
    · rw [haddr, BitVec.ofNat_toNat, BitVec.setWidth_eq]
    · rw [sqFault, raiseT_jrn, modSq_jrn, ← hx]
      exact (busErrorOf_seq _ _ _ _ _ _ _ _ _).trans rfl

end Sys2Proof.RingWork
end

section
/-!
The scheduler's grant (R74 to R76, R127, R128, R461): the class that it goes to, what the marking of waiting rings and the ending of visits and
rounds leave, and the admission, with the statements O23 and O24.
-/

namespace Sys2Proof.Machine

/-! ### The class of a grant (R75) -/

/-- Something of a class can be granted: a ring has an admissible request of it, or it is BULK and a forwarded request can be taken (R461). -/
theorem any_canGrant (s : State) (c : Nat) :
    (List.range 257).any (canGrant s c) = true ↔ (∃ i, i < 256 ∧ admissibleIn s c i = true) ∨ (c = 2 ∧ fwdReady s = true) := by
  simp only [List.any_eq_true, List.mem_range, canGrant]
  constructor
  · rintro ⟨i, hi, hgrant⟩
    split at hgrant
    next => exact .inr (by simpa using hgrant)
    next hne => exact .inl ⟨i, by simp only [ringFwd] at hne; omega, hgrant⟩
  · rintro (⟨i, hi, hgrant⟩ | ⟨rfl, hready⟩)
    · exact ⟨i, by omega, by rw [if_neg (by simp only [ringFwd]; omega)]; exact hgrant⟩
    · exact ⟨ringFwd, by decide, by simp [hready]⟩

/-- SCHEDULED goes first, then BULK after seven grants to EXPEDITE, then EXPEDITE, then BULK (R75). -/
theorem turnClass_order (any : Nat → Bool) (run : Nat) :
    (any 0 = true → turnClass any run = some 0) ∧
    (¬ any 0 = true → any 2 = true → 7 ≤ run → turnClass any run = some 2) ∧
    (¬ any 0 = true → ¬ (any 2 = true ∧ 7 ≤ run) → any 1 = true → turnClass any run = some 1) ∧
    (¬ any 0 = true → ¬ any 1 = true → any 2 = true → turnClass any run = some 2) ∧
    (¬ any 0 = true → ¬ any 1 = true → ¬ any 2 = true → turnClass any run = none) := by
  unfold turnClass
  refine ⟨fun h0 => by simp [h0], fun h0 h2 hrun => by simp [h0, h2, hrun], fun h0 h2 h1 => ?_, fun h0 h1 h2 => by simp [h0, h1, h2],
    fun h0 h1 h2 => by simp [h0, h1, h2]⟩
  rw [if_neg h0, if_neg (by simpa using h2), if_pos h1]

/-! ### Marking waiting rings (R121, R358, R458) -/

/-- The ledger of each tenant k is v k, and l are the forwarded requests in the queue. -/
def LedQueue (v : Nat → Ledger) (l : List Req) (s : State) : Prop := (∀ k, (s.ten k).led = v k) ∧ s.crs.queue = l

section
variable {v : Nat → Ledger} {l : List Req} {s : State}

theorem LedQueue.only {A : List Part} {t : State} (h : LedQueue v l s) (honly : Only A s t) (htens : Part.tens ∉ A) (hcrs : Part.crs ∉ A) :
    LedQueue v l t :=
  ⟨fun k => by rw [ten_of_tens (honly.2 .tens htens), h.1 k], by rw [show t.crs = s.crs from honly.2 .crs hcrs, h.2]⟩

theorem LedQueue.modTen (n : Nat) {f : Tenant → Tenant} (h : LedQueue v l s) (hf : ∀ t, (f t).led = t.led := by intro t; rfl) :
    LedQueue v l (Machine.modTen n f s) := by
  refine ⟨fun k => ?_, h.2⟩
  rw [ten_modTen]
  split
  next hk => rw [hf, ← hk, h.1 k]
  next => exact h.1 k

theorem LedQueue.modCrs {f : Course → Course} (h : LedQueue v l s) (hf : ∀ c, (f c).queue = c.queue := by intro c; rfl) :
    LedQueue v l (Machine.modCrs f s) :=
  ⟨h.1, (hf s.crs).trans h.2⟩

theorem LedQueue.ite {c : Prop} [Decidable c] {a b : State} (ha : LedQueue v l a) (hb : LedQueue v l b) : LedQueue v l (if c then a else b) := by
  split
  · exact ha
  · exact hb

theorem LedQueue.foldl {α : Type} {f : State → α → State} (as : List α) (hf : ∀ s a, LedQueue v l s → LedQueue v l (f s a)) (h : LedQueue v l s) :
    LedQueue v l (as.foldl f s) := by
  induction as generalizing s with
  | nil => exact h
  | cons a as ih => exact ih (hf s a h)

theorem LedQueue.sendFrame (type p : Nat) (b : Bytes) (h : LedQueue v l s) : LedQueue v l (Machine.sendFrame type p b s) :=
  .only (.modCrs h) (Only.emit _ (List.Subset.refl _) (Only.refl _ _)) (by decide) (by decide)

/-- A block is granted: its event is a tenant's, and the queue stays (R456). -/
theorem LedQueue.grantBlock (dest k : Nat) (h : LedQueue v l s) : LedQueue v l (Machine.grantBlock dest k s) := by
  have hslot (f : Slot → Slot) : LedQueue v l (modSlot (k / 2) f s) := h.only (Only.modSlot _ _ (List.Subset.refl _) (Only.refl _ _)) (by decide) (by decide)
  have hjournal (t o : Nat) (p : List Nat) {x : State} (hx : LedQueue v l x) : LedQueue v l (journal t o p x) :=
    hx.only (Only.journal _ _ _ _ (List.Subset.refl _) (Only.refl _ _)) (by decide) (by decide)
  unfold Machine.grantBlock
  dsimp only
  refine .ite (.modCrs ?_) (.sendFrame _ _ _ ?_) <;>
    exact hjournal _ _ _ (.ite (hjournal _ _ _ (.modTen _ (hslot _))) (hslot _))

theorem LedQueue.askBlock (k : Nat) (h : LedQueue v l s) : LedQueue v l (Machine.askBlock k s) := by
  have hbegin (d : Nat) {x : State} (hx : LedQueue v l x) : LedQueue v l (beginGrant d k x) :=
    .ite hx (.ite (.modCrs hx) (.ite (.grantBlock _ _ hx)
      (.foldl _ (fun _ _ hy => .sendFrame _ _ _ hy) (.modCrs hx))))
  have hasked : LedQueue v l (Machine.modCrs (fun c => { c with asked := c.asked ++ [k] }) s) := .modCrs h
  exact .ite h (.ite (hbegin _ hasked) (.ite hasked (.sendFrame _ _ _ hasked)))

theorem LedQueue.waitBlocks (ks : List Nat) (h : LedQueue v l s) : LedQueue v l (Machine.waitBlocks ks s) :=
  .foldl ks (fun _ _ hx => .ite hx (.only (.askBlock _ hx) (Only.raiseG _ _ (List.Subset.refl _) (Only.refl _ _)) (by decide) (by decide))) h

end

/-- What the marking of waiting rings keeps of a state: the ledgers, the queue, and the head and QUEUED of every ring. -/
structure Marked (s t : State) : Prop where
  ledQueue : LedQueue (fun k => (s.ten k).led) s.crs.queue t
  rings : ∀ n m, (t.sq n m).head = (s.sq n m).head ∧ (t.sq n m).queued = (s.sq n m).queued

theorem Marked.only {A : List Part} {s x y : State} (h : Marked s x) (hled : LedQueue (fun k => (s.ten k).led) s.crs.queue y) (honly : Only A x y)
    (hA : Part.sqs ∉ A) : Marked s y :=
  ⟨hled, fun n m => by rw [sq_of_only honly hA, (h.rings n m).1, (h.rings n m).2]; exact ⟨rfl, rfl⟩⟩

theorem Marked.noteOver {s x : State} (n m : Nat) (h : Marked s x) : Marked s (raiseT n evSchedOver (modSq n m Sq.noteOver x)) := by
  refine ⟨.modTen _ ⟨h.ledQueue.1, h.ledQueue.2⟩, fun a b => ?_⟩
  rw [raiseT_sq, sq_modSq]
  split
  next hrix =>
    obtain ⟨hhead, hqueued⟩ := h.rings n m
    rw [show s.sq a b = s.sq n m by rw [State.sq, hrix, ← State.sq]]
    exact ⟨hhead, hqueued⟩
  next => exact h.rings a b

theorem Marked.stall {s x : State} (n c : Nat) (f : Cq → Cq) (h : Marked s x) : Marked s (raiseT n evCqStall (modCq n c f x)) :=
  h.only (A := [.cqs, .tens]) (.modTen _ ⟨h.ledQueue.1, h.ledQueue.2⟩)
    (Only.raiseT _ _ _ (by decide) (Only.modCq _ _ _ (by decide) (Only.refl _ _))) (by decide)

theorem Marked.waitBlocks {s x : State} (ks : List Nat) (h : Marked s x) : Marked s (Machine.waitBlocks ks x) :=
  h.only (h.ledQueue.waitBlocks ks) (Only.waitBlocks _ _ (List.Subset.refl _) (Only.refl _ _)) (by decide)

theorem Marked.ite {s a b : State} {c : Prop} [Decidable c] (ha : Marked s a) (hb : Marked s b) : Marked s (if c then a else b) := by
  split
  · exact ha
  · exact hb

theorem markWaiting_marked (s : State) : Marked s (markWaiting s) := by
  refine eachN_ind (P := Marked s) _ _ s ⟨⟨fun _ => rfl, rfl⟩, fun _ _ => ⟨rfl, rfl⟩⟩ fun i x hx => ?_
  dsimp only
  split
  · exact hx
  · refine .ite hx (.waitBlocks _ (.ite (.stall _ _ _ ?_) ?_)) <;> exact .ite (.noteOver _ _ hx) hx

/-! ### Visits and rounds (R76) -/

/-- t is s but for the credits of rings and of the forwarded requests, and for the place of the rounds. -/
structure Turned (s t : State) : Prop where
  rest : ∃ Q P C, t = { s with sqs := Q, sch := { s.sch with ptr := P }, crs := { s.crs with credit := C } }
  sq : ∀ n m, ∃ c cx, t.sq n m = { s.sq n m with credit := c, creditX := cx }

theorem Turned.refl (s : State) : Turned s s := ⟨⟨_, _, _, rfl⟩, fun _ _ => ⟨_, _, rfl⟩⟩

theorem Turned.trans {s t u : State} (h : Turned s t) (g : Turned t u) : Turned s u := by
  obtain ⟨⟨_, _, _, rfl⟩, hsq⟩ := h
  obtain ⟨⟨_, _, _, rfl⟩, gsq⟩ := g
  refine ⟨⟨_, _, _, rfl⟩, fun n m => ?_⟩
  obtain ⟨_, _, hc⟩ := hsq n m
  obtain ⟨c, cx, gc⟩ := gsq n m
  exact ⟨c, cx, by rw [gc, hc]⟩

/-- Giving a ring credit. -/
theorem Turned.credit {s x : State} (n m : Nat) {f : Sq → Sq} (hf : ∀ q, ∃ c cx, f q = { q with credit := c, creditX := cx }) (h : Turned s x) :
    Turned s (modSq n m f x) := by
  refine h.trans ⟨⟨_, _, _, rfl⟩, fun a b => ?_⟩
  rw [sq_modSq]
  split
  next hrix => rw [show x.sq a b = x.sq n m by rw [State.sq, hrix, ← State.sq]]; exact hf _
  next => exact ⟨_, _, rfl⟩

theorem newRound_turned (cls : Nat) (s : State) : Turned s (newRound cls s) := by
  unfold newRound
  dsimp only
  generalize hx : eachN (List.range 256) _ s = x
  have hrings : Turned s x := by
    refine hx ▸ eachN_ind (P := Turned s) _ _ s (.refl s) fun i x hx => ?_
    split
    · exact hx.credit _ _ fun q => ⟨_, q.creditX, rfl⟩
    split
    · exact hx.credit _ _ fun q => ⟨q.credit, _, rfl⟩
    · exact hx
  split
  · exact hrings.trans ⟨⟨_, _, _, rfl⟩, fun _ _ => ⟨_, _, rfl⟩⟩
  · exact hrings

theorem endVisit_turned (cls : Nat) (s : State) : Turned s (endVisit cls s) := by
  unfold endVisit
  dsimp only
  split
  · split
    · exact .refl s
    · exact ⟨⟨_, _, _, rfl⟩, fun _ _ => ⟨_, _, rfl⟩⟩
  · exact .refl s

theorem endRound_turned (cls : Nat) (s : State) : Turned s (endRound cls s) := by
  unfold endRound
  split
  · exact .refl s
  · exact newRound_turned cls s

theorem leastLoaded_congr {s t : State} (h : ∀ c, csLoad t c = csLoad s c) (l : List Nat) : leastLoaded t l = leastLoaded s l := by
  induction l with
  | nil => rfl
  | cons c l ih => simp only [leastLoaded, ih, h]

/-- The sequencer that takes an admission hangs on the requests, the state of the sequencers and the active generation. -/
theorem freeCs_congr {s t : State} (hreqs : t.reqs = s.reqs) (hcss : t.css = s.css) (hresv : t.resv = s.resv) (c : Nat) :
    freeCs t c = freeCs s c := by
  have hload (k : Nat) : csLoad t k = csLoad s k := by rw [csLoad, hreqs, ← csLoad]
  have hother (k : Nat) : csOther t k = csOther s k := by rw [csOther, hreqs, ← csOther]
  have hkept : keptOut t c = keptOut s c := by rw [keptOut, hresv, ← keptOut]
  have hst : t.csSt = s.csSt := funext fun k => by rw [State.csSt, hcss, ← State.csSt]
  have hhealthy : healthyCs t = healthyCs s := by rw [healthyCs, hst, ← healthyCs]
  simp only [freeCs, hhealthy, hreqs, hkept, hload, hother, leastLoaded_congr hload]

theorem freeCs_modSch (f : Sched → Sched) (s : State) (c : Nat) : freeCs (modSch f s) c = freeCs s c := by
  refine freeCs_congr ?_ ?_ ?_ c <;> rfl

/-- The slots at the front of a ring do not depend on its credit. -/
theorem Sq.frontFrom_credit (q : Sq) (c cx fuel i : Nat) : ({ q with credit := c, creditX := cx } : Sq).frontFrom fuel i = q.frontFrom fuel i := by
  induction fuel generalizing i with
  | zero => rfl
  | succ fuel ih =>
    simp only [Sq.frontFrom, ih]
    rfl

theorem headEntry_credit (q : Sq) (c cx : Nat) : headEntry { q with credit := c, creditX := cx } = headEntry q := by
  have hfront : ({ q with credit := c, creditX := cx } : Sq).front = q.front := q.frontFrom_credit c cx _ _
  rw [headEntry, headEntry, hfront]
  rfl

section
variable {s t : State} (h : Turned s t)
include h

/-- Credit does not decide whether a request is admissible, nor in which class (R74, R77). -/
theorem Turned.ringClass (n : TenantIx) (m : RingIx) : t.ringClass n m = s.ringClass n m := by
  obtain ⟨⟨_, _, _, rfl⟩, hsq⟩ := h
  obtain ⟨_, _, hq⟩ := hsq n m
  rw [State.ringClass, State.ringClass, hq]
  rfl

theorem Turned.demoted (n : TenantIx) (m : RingIx) : Machine.demoted t n m = Machine.demoted s n m := by
  obtain ⟨⟨_, _, _, rfl⟩, hsq⟩ := h
  obtain ⟨_, _, hq⟩ := hsq n m
  rw [Machine.demoted, Machine.demoted, hq]
  rfl

theorem Turned.headClass (n : TenantIx) (m : RingIx) : Machine.headClass t n m = Machine.headClass s n m := by
  rw [Machine.headClass, Machine.headClass, h.ringClass, h.demoted]

theorem Turned.freeCs (c : Nat) : Machine.freeCs t c = Machine.freeCs s c := by
  obtain ⟨⟨_, _, _, rfl⟩, -⟩ := h
  refine freeCs_congr ?_ ?_ ?_ c <;> rfl

theorem Turned.admissible (n : TenantIx) (m : RingIx) : Machine.admissible t n m = Machine.admissible s n m := by
  have hclass := h.ringClass n m
  have hdem := h.demoted n m
  have hhead := h.headClass n m
  have hcs := h.freeCs
  obtain ⟨⟨_, _, _, rfl⟩, hsq⟩ := h
  obtain ⟨_, _, hq⟩ := hsq n m
  rw [Machine.admissible, Machine.admissible, readyHead, readyHead, hclass, hdem, hhead, hcs, hq, headEntry_credit]
  rfl

theorem Turned.canGrant (c i : Nat) : Machine.canGrant t c i = Machine.canGrant s c i := by
  have hready : fwdReady t = fwdReady s := by
    have hcs := h.freeCs 2
    obtain ⟨⟨_, _, _, rfl⟩, -⟩ := h
    rw [fwdReady, fwdReady, hcs]
    rfl
  rw [Machine.canGrant, Machine.canGrant, admissibleIn, admissibleIn, h.admissible, h.headClass, hready]

end

/-- The visit of a class is to a ring that can be granted. -/
def VisitOk (c : Nat) (s : State) : Prop := ∀ i left, (s.sch.ptr.look {} c).visit = some (i, left) → canGrant s c i = true

theorem endVisit_ok (c : Nat) (s : State) : VisitOk c (endVisit c s) := by
  intro i left hvisit
  rw [(endVisit_turned c s).canGrant]
  unfold endVisit at hvisit
  dsimp only at hvisit
  split at hvisit
  next j l hv =>
    split at hvisit
    next hgo =>
      rw [hv] at hvisit
      cases hvisit
      exact (Bool.and_eq_true_iff.mp hgo.2).1
    next =>
      rw [modSch_sch, look_put_same] at hvisit
      cases hvisit
  next hv =>
    rw [hv] at hvisit
    cases hvisit

theorem VisitOk.endVisit {c d : Nat} {s : State} (hcd : d ≠ c) (h : VisitOk d s) : VisitOk d (Machine.endVisit c s) := by
  intro i left hvisit
  rw [(endVisit_turned c s).canGrant]
  refine h i left (Eq.trans (congrArg ClassPtr.visit ?_) hvisit)
  unfold Machine.endVisit
  dsimp only
  split
  · split
    · rfl
    · exact (look_put_ne _ _ _ hcd).symm
  · rfl

theorem VisitOk.endRound {c d : Nat} {s : State} (h : VisitOk d s) : VisitOk d (Machine.endRound c s) := by
  intro i left hvisit
  rw [(endRound_turned c s).canGrant]
  have honly : Only [.sqs, .crs] s (Machine.endRound c s) := Only.endRound c s (by decide) (Only.refl _ _)
  rw [show (Machine.endRound c s).sch = s.sch from honly.2 .sch (by decide)] at hvisit
  exact h i left hvisit

theorem turnRounds_turned (s : State) : Turned s (turnRounds s) :=
  eachN_ind (P := Turned s) _ _ s (.refl s) fun c x hx => hx.trans ((endVisit_turned c x).trans (endRound_turned c _))

/-- After the rounds have turned, every visit is to a ring that can be granted. -/
theorem turnRounds_visits (s : State) {c : Nat} (hc : c = 0 ∨ c = 1 ∨ c = 2) : VisitOk c (turnRounds s) := by
  change VisitOk c (endRound 2 (endVisit 2 (endRound 1 (endVisit 1 (endRound 0 (endVisit 0 s))))))
  rcases hc with rfl | rfl | rfl
  · exact .endRound (.endVisit (by decide) (.endRound (.endVisit (by decide) (.endRound (endVisit_ok 0 s)))))
  · exact .endRound (.endVisit (by decide) (.endRound (endVisit_ok 1 _)))
  · exact .endRound (endVisit_ok 2 _)

/-- The class of a grant is one of the three. -/
theorem grantClass_lt {s : State} {c : Nat} (h : grantClass s = some c) : c = 0 ∨ c = 1 ∨ c = 2 := by
  unfold grantClass turnClass at h
  split at h
  · exact .inl (Option.some.inj h).symm
  split at h
  · exact .inr (.inr (Option.some.inj h).symm)
  split at h
  · exact .inr (.inl (Option.some.inj h).symm)
  split at h
  · exact .inr (.inr (Option.some.inj h).symm)
  · cases h

/-- The ring that a class picks can be granted in it (R76). -/
theorem pickRing_grants {s : State} {c i left : Nat} (hc : c = 0 ∨ c = 1 ∨ c = 2) (hpick : pickRing (turnRounds s) c = some (i, left)) :
    canGrant (turnRounds s) c i = true := by
  unfold pickRing at hpick
  dsimp only at hpick
  split at hpick
  next v hv =>
    cases hpick
    exact turnRounds_visits s hc i left hv
  next =>
    obtain ⟨j, hj, hpair⟩ := Option.map_eq_some_iff.mp hpick
    cases hpair
    rw [nextRing] at hj
    exact (Bool.and_eq_true_iff.mp (List.find?_some (p := visitable (turnRounds s) c) hj)).1

/-! ### The admission (R16, R127, R461) -/

/-- The new turn of a class, with the grants in a row (R75, R76). -/
def noteGrant (cls i left : Nat) (c : Sched) : Sched :=
  { c with
    expRun := if cls = 1 then c.expRun + 1 else if cls = 2 then 0 else c.expRun
    ptr := c.ptr.put {} cls { last := i, visit := some (i, left - 1) } }

section
variable {ecc : Ecc} {s : State} (hadmit : admitting s = true)
include hadmit

theorem fxSchedulerGrant_none (hnone : grantClass (turnRounds (markWaiting s)) = none) : fxSchedulerGrant ecc s = turnRounds (markWaiting s) := by
  rw [fxSchedulerGrant, whenS_true hadmit]
  dsimp only
  rw [hnone]

theorem fxSchedulerGrant_some {cls i left : Nat} (hclass : grantClass (turnRounds (markWaiting s)) = some cls)
    (hpick : pickRing (turnRounds (markWaiting s)) cls = some (i, left)) :
    fxSchedulerGrant ecc s = admitOne i cls ecc (modSch (noteGrant cls i left) (turnRounds (markWaiting s))) := by
  rw [fxSchedulerGrant, whenS_true hadmit]
  dsimp only
  rw [hclass]
  dsimp only
  rw [hpick]
  rfl

end

/-- Every field of the scheduler but the place of the rounds is as it was, and the generations are. -/
theorem turned_frame (s : State) :
    let s0 := turnRounds (markWaiting s)
    s0.reqs = s.reqs ∧ s0.gen = s.gen ∧ (∃ P, s0.sch = { s.sch with ptr := P }) ∧ s0.crs.queue = s.crs.queue ∧ (∀ n, (s0.ten n).led = (s.ten n).led) ∧
      ∀ n m, (s0.sq n m).head = (s.sq n m).head ∧ (s0.sq n m).queued = (s.sq n m).queued := by
  have honly : Only [.notice, .tens, .sqs, .cqs, .ks, .jrn, .evPend, .pviol, .pvcnt, .crs, .out] s (markWaiting s) :=
    Only.markWaiting s (by decide) (Only.refl _ _)
  have hmarked := markWaiting_marked s
  have hturned := turnRounds_turned (markWaiting s)
  dsimp only
  generalize turnRounds (markWaiting s) = s0 at hturned
  generalize markWaiting s = x at honly hmarked hturned
  obtain ⟨⟨Q, P, C, rfl⟩, hsq⟩ := hturned
  refine ⟨?_, ?_, ⟨P, ?_⟩, ?_, fun n => ?_, fun n m => ?_⟩
  · exact honly.2 .reqs (by decide)
  · exact honly.gen_eq (by decide) (by decide)
  · rw [show x.sch = s.sch from honly.2 .sch (by decide)]
  · exact hmarked.ledQueue.2
  · exact hmarked.ledQueue.1 n
  · obtain ⟨_, _, hq⟩ := hsq n m
    rw [hq]
    exact hmarked.rings n m

/-- An admissible request has its entry, its context and its place. -/
theorem admissible_parts {s : State} {n : TenantIx} {m : RingIx} (h : admissible s n m = true) :
    ∃ e cs pl, headEntry (s.sq n m) = some e ∧ freeCs s (headClass s n m) = some cs ∧ placeFor s n (s.sq n m).cqNo = some pl := by
  simp only [admissible, readyHead, Bool.and_eq_true] at h
  obtain ⟨⟨-, hready⟩, hplace⟩ := h
  obtain ⟨pl, hpl⟩ := Option.isSome_iff_exists.mp hplace
  split at hready
  · cases hready
  next e he =>
    simp only [Bool.and_eq_true] at hready
    obtain ⟨⟨⟨⟨⟨⟨-, -⟩, -⟩, -⟩, hcs⟩, -⟩, -⟩ := hready
    obtain ⟨cs, hcs⟩ := Option.isSome_iff_exists.mp hcs
    exact ⟨e, cs, pl, he, hcs, hpl⟩

/-- What an admission leaves (R16, R127, R128). -/
structure Admits (n : TenantIx) (m : RingIx) (s t : State) (r : Req) : Prop where
  reqs : t.reqs = s.reqs ++ [r]
  sch : t.sch = { s.sch with nextId := s.sch.nextId + 1 }
  gen : t.gen = s.gen
  queued : (t.sq n m).queued = (s.sq n m).queued - 1
  tail : (t.sq n m).tail = (s.sq n m).tail
  led : (t.ten n).led = { (s.ten n).led with admitted := (s.ten n).led.admitted + 1, inflight := (s.ten n).led.inflight + 1 }
  otherSqs : OtherSqs n m s t
  otherTens : OtherTens n s t

/-- The ring once its head entry, of k slots, is admitted in class cls (R16, R76, R127). -/
def admittedSq (s : State) (n : TenantIx) (m : RingIx) (cls k : Nat) (q : Sq) : Sq :=
  let spend := decide (s.ringClass n m = 0) && inBudget s (s.sq n m) && decide (0 < s.resv)
  { q with
    head := (q.head + k) % 2 ^ (q.k + 1)
    queued := q.queued - 1
    cache := q.cache.filter (fun p => !((List.range k).any (fun i => decide (p.1 = (q.head + i) % 2 ^ (q.k + 1)))))
    posts := q.posts.tail
    charges := q.charges.tail
    rcred := if spend then q.rcred - 1 else q.rcred
    ccred := if spend then q.ccred - headCharge q else q.ccred
    credit := if s.ringClass n m = cls then q.credit - 1 else q.credit
    creditX := if s.ringClass n m = cls then q.creditX else q.creditX - 1 }

theorem admitReq_admits {n : TenantIx} {m : RingIx} {cls cs : Nat} {pl : Place} {e : Bytes} {s : State} (he : headEntry (s.sq n m) = some e)
    (hcs : freeCs s cls = some cs) (hpl : placeFor s n (s.sq n m).cqNo = some pl) :
    Admits n m s (admitReq n m cls s) (newReq s n m e cls cs pl) := by
  have heq : ∃ f : Sq → Sq, (∀ q, (f q).queued = q.queued - 1 ∧ (f q).tail = q.tail) ∧
      admitReq n m cls s = settleRing n m (modReqs (· ++ [newReq s n m e cls cs pl]) (modSch (fun c => { c with nextId := c.nextId + 1 })
        (modTen n (fun t => { t with led := { t.led with admitted := t.led.admitted + 1, inflight := t.led.inflight + 1 } }) (modSq n m f s)))) := by
    refine ⟨admittedSq s n m cls (entrySlots e), fun q => ⟨rfl, rfl⟩, ?_⟩
    unfold admitReq
    dsimp only
    rw [he, hcs, hpl]
    rfl
  obtain ⟨f, hf, heq⟩ := heq
  rw [heq]
  generalize hx : modReqs (· ++ [newReq s n m e cls cs pl]) (modSch (fun c => { c with nextId := c.nextId + 1 })
    (modTen n (fun t => { t with led := { t.led with admitted := t.led.admitted + 1, inflight := t.led.inflight + 1 } }) (modSq n m f s))) = x
  have hsettle : Only [.tens, .sqs] x (settleRing n m x) := Only.settleRing _ _ _ (by decide) (Only.refl _ _)
  obtain ⟨⟨_, _, _, _, _, _, hsq⟩, hsqs, hled, htens, -⟩ := settleRing_sq n m x
  have hxsq : x.sq n m = f (s.sq n m) := by rw [← hx]; exact modSq_sq_same _ _ _ _
  have hxten (k : Nat) : x.ten k = (modTen n (fun t => { t with led := { t.led with
      admitted := t.led.admitted + 1, inflight := t.led.inflight + 1 } }) (modSq n m f s)).ten k := by rw [← hx]; rfl
  exact {
    reqs := by rw [show (settleRing n m x).reqs = x.reqs from hsettle.2 .reqs (by decide), ← hx]; rfl
    sch := by rw [show (settleRing n m x).sch = x.sch from hsettle.2 .sch (by decide), ← hx]; rfl
    gen := by rw [hsettle.gen_eq (by decide) (by decide), ← hx]; rfl
    queued := by rw [hsq, hxsq]; exact (hf _).1
    tail := by rw [hsq, hxsq]; exact (hf _).2
    led := by rw [hled, hxten, modTen_ten_same]; rfl
    otherSqs := fun a b hab => (hsqs a b hab).trans (by rw [← hx]; exact modSq_sq_ne _ _ hab)
    otherTens := fun k hk => (htens k hk).trans (by rw [hxten, modTen_ten_ne _ _ hk]; rfl) }

/-- The check of the ledger memory moves no counter, and marks at most the ledger of its tenant (R22, R131). -/
theorem memCheck_facts (c n : Nat) (ecc : Ecc) (s : State) :
    let t := memCheck c (some n) ecc s
    Only [.notice, .tens, .ces, .jrn, .evPend, .pviol, .pvcnt, .out] s t ∧ OtherTens n s t ∧ (t.ten n).led = (s.ten n).led ∧
      (ecc = .uncorrectable → (t.ten n).ledInvalid = true ∧ TenEvent t n evLedgerInvalid ∧ bitOf t.evPend gUeFatal = true) := by
  refine ⟨Only.memCheck _ _ _ s (by decide) (Only.refl _ _), ?_, Led.memCheck c (some n) ecc s rfl, ?_⟩
  · cases ecc with
    | clean => exact .refl n s
    | corrected => exact fun k _ => ten_of_tens ((Only.countCe c s (List.Subset.refl _) (Only.refl _ _)).2 .tens (by decide)) k
    | uncorrectable =>
      refine .raiseT _ (.modTen _ fun k _ => ?_)
      rw [raiseG_ten]
      exact ten_of_tens ((Only.journalUe _ _ s (List.Subset.refl _) (Only.refl _ _)).2 .tens (by decide)) k
  · rintro rfl
    refine ⟨?_, raiseT_event _ _ _ (by decide), ?_⟩
    · change ((raiseT n evLedgerInvalid (modTen n (fun t => { t with ledInvalid := true }) _)).ten n).ledInvalid = true
      rw [raiseT, modTen_ten_same, modTen_ten_same]
    · change bitOf (raiseT n evLedgerInvalid (modTen n _ (raiseG gUeFatal _))).evPend gUeFatal = true
      rw [raiseT_evPend, modTen_evPend]
      exact raiseG_bit _ _ (by decide)

/-- The first of the forwarded requests is admitted, which no ring and no ledger counts (R461). -/
theorem admitForeign_eq {s : State} {q : Req} {rest : List Req} {cs : Nat} (hqueue : s.crs.queue = q :: rest) (hcs : freeCs s 2 = some cs) :
    admitForeign s = modReqs (· ++ [{ q with id := s.sch.nextId, gen := s.gen.active, cs := cs }])
      (modSch (fun c => { c with nextId := c.nextId + 1 }) (modCrs (fun c => { c with queue := rest, credit := c.credit - 1 }) s)) := by
  rw [admitForeign, hqueue, hcs]

theorem canGrant_fwd {s : State} {c : Nat} (h : canGrant s c ringFwd = true) :
    c = 2 ∧ ∃ q rest cs, s.crs.queue = q :: rest ∧ freeCs s 2 = some cs := by
  simp only [canGrant, if_true, Bool.and_eq_true, decide_eq_true_eq] at h
  obtain ⟨hc, hready⟩ := h
  refine ⟨hc, ?_⟩
  unfold fwdReady at hready
  split at hready
  next q rest hqueue =>
    obtain ⟨cs, hcs⟩ := Option.isSome_iff_exists.mp (Bool.and_eq_true_iff.mp hready).1
    exact ⟨q, rest, cs, hqueue, hcs⟩
  next => cases hready

theorem canGrant_ring {s : State} {c i : Nat} (hi : i ≠ ringFwd) (h : canGrant s c i = true) :
    admissible s (ringT i) (ringM i) = true ∧ headClass s (ringT i) (ringM i) = c := by
  simpa [canGrant, hi, admissibleIn] using h

end Sys2Proof.Machine

namespace Sys2Proof.Grants
open Sys2Proof.Machine

/-- Settles O23: the choice of `turnClass` over what each class has to be granted. -/
theorem grantClass : Obligations.GrantClass := by
  unfold Obligations.GrantClass
  intro s some?
  have hany (c : Nat) : some? c ↔ (List.range 257).any (canGrant s c) = true := (any_canGrant s c).symm
  simp only [hany]
  exact turnClass_order (fun c => (List.range 257).any (canGrant s c)) s.sch.expRun

/-- Settles O24: the grant goes to what `pickRing` picks, which can be granted; to a ring it is `admitReq`, to the forwarded requests
`admitForeign`. -/
theorem grantAdmits : Obligations.GrantAdmits := by
  unfold Obligations.GrantAdmits
  intro ecc s hserve hreq hsleep
  have hadmit : admitting s = true := by simp [admitting, hserve, hreq, hsleep]
  obtain ⟨hreqs, hgen, ⟨P, hsch⟩, hqueue, hled, hrings⟩ := turned_frame s
  have hnogrant := @fxSchedulerGrant_none ecc s hadmit
  have hgrants := @fxSchedulerGrant_some ecc s hadmit
  have hpicks := @pickRing_grants (markWaiting s)
  generalize turnRounds (markWaiting s) = s0 at hreqs hgen hsch hqueue hled hrings hnogrant hgrants hpicks ⊢
  dsimp only
  refine ⟨fun hnone => ?_, fun cls left hclass hpick => ?_, fun cls i left hi hclass hpick => ?_⟩
  · refine ⟨s0, congrArg Host.Outcome.next (hnogrant hnone), hreqs, hgen, ?_, ?_, hled, hrings⟩
    · rw [hsch]
    · rw [hsch]
  · have hgrant := hgrants hclass hpick
    obtain ⟨rfl, q, rest, cs, hq, hcs⟩ := canGrant_fwd (hpicks (grantClass_lt hclass) hpick)
    rw [admitOne, if_pos rfl, admitForeign_eq (s := modSch (noteGrant 2 ringFwd left) s0) hq ((freeCs_modSch _ _ _).trans hcs)] at hgrant
    refine ⟨_, q, rest, cs, congrArg Host.Outcome.next hgrant, hqueue.symm.trans hq, rfl, rfl, rfl, ?_, ?_, rfl, rfl⟩
    · change s0.reqs ++ [{ q with id := s0.sch.nextId, gen := s0.gen.active, cs := cs }] = _
      rw [hreqs, hsch, hgen]
    · change s0.sch.nextId + 1 = _
      rw [hsch]
  · have hgrant := hgrants hclass hpick
    obtain ⟨hadm, hhead⟩ := canGrant_ring hi (hpicks (grantClass_lt hclass) hpick)
    obtain ⟨e, cs, pl, he, hcs, hpl⟩ := admissible_parts hadm
    rw [hhead, ← freeCs_modSch (noteGrant cls i left)] at hcs
    rw [admitOne, if_neg hi] at hgrant
    have hadmits := admitReq_admits (s := modSch (noteGrant cls i left) s0) he hcs hpl
    generalize hx : admitReq (ringT i) (ringM i) cls (modSch (noteGrant cls i left) s0) = x at hadmits hgrant
    obtain ⟨honly, hother, hledx, hmark⟩ := memCheck_facts 0 (ringT i) ecc x
    refine ⟨_, e, newReq (modSch (noteGrant cls i left) s0) (ringT i) (ringM i) e cls cs pl, congrArg Host.Outcome.next hgrant, hadm, hhead, he, ?_,
      rfl, rfl, rfl, ?_, rfl, rfl, rfl, ?_, ?_, ?_, ?_, ?_, ?_, fun a b hab => ?_, fun k hk => ?_, ?_, hmark⟩
    · rw [show (memCheck 0 (some (ringT i).val) ecc x).reqs = x.reqs from honly.2 .reqs (by decide), hadmits.reqs, modSch_reqs, hreqs]
    · change s0.gen.active = s.gen.active
      rw [hgen]
    · change s0.sch.nextId = s.sch.nextId
      rw [hsch]
    · rw [show (memCheck 0 (some (ringT i).val) ecc x).sch = x.sch from honly.2 .sch (by decide), hadmits.sch]
      change s0.sch.nextId + 1 = _
      rw [hsch]
    · rw [honly.gen_eq (by decide) (by decide), hadmits.gen]
      exact hgen
    · rw [sq_of_only honly (by decide), hadmits.queued]
      rfl
    · rw [sq_of_only honly (by decide), hadmits.tail]
      rfl
    · rw [hledx, hadmits.led, ← hled]
      rfl
    · rw [sq_of_only honly (by decide)]
      exact hadmits.otherSqs a b hab
    · exact (hother k hk).trans (hadmits.otherTens k hk)
    · rw [show (memCheck 0 (some (ringT i).val) ecc x).sch = x.sch from honly.2 .sch (by decide), hadmits.sch]
      change (noteGrant cls i left s0.sch).expRun = _
      rw [hsch]
      rfl

end Sys2Proof.Grants
end

section
/-!
The time count and the work that it starts (R347 to R359, R366, R441): what a step of the count leaves, what one pulse does to every channel
and ring, with the statements O50 and O51.
-/

namespace Sys2Proof.Machine

/-! ### A fold over all numbers below n, seen at one of them -/

theorem eachN_list_at {P Q : State → Prop} {k : Nat} {f : Nat → State → State} {l : List Nat} (hk : k ∈ l) (hl : l.Nodup) {s : State} (h : P s)
    (hbefore : ∀ i x, i ∈ l → i ≠ k → P x → P (f i x)) (hat : ∀ x, P x → Q (f k x)) (hafter : ∀ i x, i ∈ l → i ≠ k → Q x → Q (f i x)) :
    Q (eachN l f s) := by
  induction l generalizing s with
  | nil => cases hk
  | cons i l ih =>
    obtain ⟨hi, hl⟩ := List.nodup_cons.mp hl
    by_cases hik : i = k
    · subst hik
      refine List.foldlRecOn (motive := Q) l (fun s i => f i s) (hat s h) fun x hx j hj => ?_
      exact hafter j x (List.mem_cons_of_mem _ hj) (fun hji => hi (hji ▸ hj)) hx
    · exact ih (List.mem_of_ne_of_mem (Ne.symm hik) hk) hl (hbefore i s (List.mem_cons_self ..) hik h)
        (fun j x hj => hbefore j x (List.mem_cons_of_mem _ hj)) fun j x hj => hafter j x (List.mem_cons_of_mem _ hj)

/-- What holds of a state until step k, and what step k makes of it, which the other steps keep, holds after all steps. -/
theorem eachN_at {P Q : State → Prop} {k n : Nat} {f : Nat → State → State} (hk : k < n) {s : State} (h : P s)
    (hbefore : ∀ i x, i < n → i ≠ k → P x → P (f i x)) (hat : ∀ x, P x → Q (f k x)) (hafter : ∀ i x, i < n → i ≠ k → Q x → Q (f i x)) :
    Q (eachN (List.range n) f s) :=
  eachN_list_at (List.mem_range.mpr hk) List.nodup_range h (fun i x hi => hbefore i x (List.mem_range.mp hi)) hat
    fun i x hi => hafter i x (List.mem_range.mp hi)

/-! ### What a frame says of parts that others are read from -/

section
variable {A : List Part} {s t : State} (h : Only A s t)
include h

theorem Only.eff_eq (hstart : Part.start ∉ A) (hgen : Part.gen ∉ A) (hact : Part.act ∉ A) (r : Reg) : t.eff r = s.eff r := by
  rw [State.eff, State.eff, State.word, State.word, h.gen_eq hgen hact, show t.start = s.start from h.2 .start hstart]

theorem Only.enabled_eq (hstart : Part.start ∉ A) (hgen : Part.gen ∉ A) (hact : Part.act ∉ A) (n : Nat) : t.enabled n = s.enabled n := by
  rw [State.enabled, State.enabled, enabledIn, enabledIn, State.word, State.word, h.gen_eq hgen hact, show t.start = s.start from h.2 .start hstart]

theorem Only.dcTen_eq (hstart : Part.start ∉ A) (hgen : Part.gen ∉ A) (hact : Part.act ∉ A) (k : Nat) : dcTen t k = dcTen s k := by
  rw [dcTen, dcTen, h.eff_eq hstart hgen hact]

theorem Only.own_butNotice (hown : Part.own ∉ A) : { t.own with notice := 0 } = { s.own with notice := 0 } := h.2 .own hown

theorem Only.timeCtl_eq (hown : Part.own ∉ A) : t.own.timeCtl = s.own.timeCtl := by
  simpa using congrArg OwnRegs.timeCtl (h.own_butNotice hown)

theorem Only.run_eq (hown : Part.own ∉ A) : t.run = s.run := by rw [State.run, State.run, h.timeCtl_eq hown]

theorem Only.dc_eq (hdcs : Part.dcs ∉ A) (k : Nat) : t.dc k = s.dc k := by rw [State.dc, State.dc, show t.dcs = s.dcs from h.2 .dcs hdcs]

theorem Only.tcmp_eq (hown : Part.own ∉ A) (j : Nat) : t.tcmp j = s.tcmp j := by
  rw [State.tcmp, State.tcmp, show t.own.tcmp = s.own.tcmp by simpa using congrArg OwnRegs.tcmp (h.own_butNotice hown)]

end

/-! ### Steps of the count (R350, R351, R366, R441) -/

theorem timeMark_seq (s : State) : (timeMark s).jrn.seq = s.jrn.seq + 1 := journal_seq _ _ _ s

theorem Pend.timeMark {e : Nat} {s : State} (h : Pend e s) : Pend e (Machine.timeMark s) := Pend.journal _ _ _ s h

/-- A step sets the count, moves the next boundary back where it comes again, and leaves its event, its record and a TIME_MARK. -/
theorem timeStep_facts (ns : Word) (s : State) :
    let t := timeStep ns s
    Only (.time :: .sch :: recordParts) s t ∧ t.time = { s.time with ns := ns } ∧
      t.sch = { s.sch with due := min s.sch.due (boundaryAt s.period ns.toNat) } ∧ bitOf t.evPend gTimeStep = true ∧ t.jrn.seq = s.jrn.seq + 2 := by
  dsimp only
  unfold timeStep
  dsimp only
  generalize hx : modSch _ (modTime (fun t => { t with ns := ns }) s) = x
  have hrecords (p : List Nat) : Only recordParts x (timeMark (journal 0x24 0x10 p (raiseG gTimeStep x))) :=
    Only.timeMark _ (by decide) (Only.journal _ _ _ _ (by decide) (Only.raiseG _ _ (by decide) (Only.refl _ _)))
  refine ⟨Only.timeMark _ (by decide) (Only.journal _ _ _ _ (by decide) (Only.raiseG _ _ (by decide) (hx ▸ ?_))), ?_, ?_, ?_, ?_⟩
  · exact Only.modSch _ (by decide) (Only.modTime _ (by decide) (Only.refl _ _))
  · exact ((hrecords _).2 .time (by decide)).trans (hx ▸ rfl)
  · exact ((hrecords _).2 .sch (by decide)).trans (hx ▸ rfl)
  · exact Pend.timeMark (.journal _ _ _ _ (raiseG_bit _ _ (by decide)))
  · rw [timeMark_seq, journal_seq, BitVec.add_assoc, ← hx]
    rfl

/-- The time count starts: a ring without pulses releases what it took while the count stood (R351, R355). -/
theorem releasePosted_sq {n m : Nat} (hn : n < 16) (hm : m < 16) (s : State) (hmode : (s.sq n m).pulseMode = false) :
    (releasePosted s).sq n m = { s.sq n m with posts := (s.sq n m).posts.map (fun p =>
      if p.release.isSome then p else { p with release := some p.taken, deadline := deadlineAt (s.sq n m) p.taken }) } := by
  have hother (i : Nat) (hi : i < 256) (hne : i ≠ 16 * n + m) : rix n m ≠ rix (i / 16) (i % 16) := by simp only [rix]; omega
  unfold releasePosted
  refine eachN_at (n := 256) (k := 16 * n + m) (P := fun x => x.sq n m = s.sq n m) (Q := fun x => x.sq n m = _) (by omega) rfl (fun i x hi hne hx => ?_) (fun x hx => ?_) fun i x hi hne hx => ?_
  · dsimp only
    split
    · exact hx
    split
    · obtain ⟨-, hsqs, -⟩ := drainPulses_sq (i / 16) (i % 16) 8 x
      exact (hsqs n m (hother i hi hne)).trans hx
    · exact (modSq_sq_ne _ _ (hother i hi hne)).trans hx
  · have hrix : rix n m = rix ((16 * n + m) / 16) ((16 * n + m) % 16) := by simp only [rix]; omega
    have hq : x.sq ((16 * n + m) / 16) ((16 * n + m) % 16) = s.sq n m := by rw [State.sq, ← hrix, ← State.sq, hx]
    dsimp only
    rw [hq]
    split
    next hposts =>
      rw [hx]
      generalize s.sq n m = q at hposts
      cases q
      cases hposts
      rfl
    rw [if_neg (by rw [hmode]; decide), sq_modSq, if_pos hrix, hq]
    refine congrArg (fun l => { s.sq n m with posts := l }) (List.map_congr_left fun p _ => ?_)
    cases p.release <;> rfl
  · dsimp only
    split
    · exact hx
    split
    · obtain ⟨-, hsqs, -⟩ := drainPulses_sq (i / 16) (i % 16) 8 x
      exact (hsqs n m (hother i hi hne)).trans hx
    · exact (modSq_sq_ne _ _ (hother i hi hne)).trans hx

/-! ### A pulse to the channels (R312, R314) -/

theorem dcSettle_dc_ne {k j : Nat} (h : j ≠ k) (s : State) : (dcSettle k s).dc j = s.dc j := by
  unfold dcSettle
  dsimp only
  split
  · rfl
  split
  · split
    · exact modDc_dc_ne _ _ h
    · exact (raiseT_dc _ _ _ _).trans (modDc_dc_ne _ _ h)
  · exact modDc_dc_ne _ _ h

theorem dcCredit_dc_ne {k j : Nat} (h : j ≠ k) (s : State) : (dcCredit k s).dc j = s.dc j := by
  unfold dcCredit
  dsimp only
  split
  · rfl
  split
  · exact (dcSettle_dc_ne h _).trans (modDc_dc_ne _ _ h)
  · exact (raiseT_dc _ _ _ _).trans (modDc_dc_ne _ _ h)

theorem dcCredit_idle {k : Nat} {s : State} (h : (s.dc k).st = .idle) : dcCredit k s = s := by
  simp only [dcCredit, h, if_true]

theorem dcCredit_takes {k : Nat} {s : State} (hst : (s.dc k).st ≠ .idle) (hcredit : (s.dc k).credit < 15) :
    ((dcCredit k s).dc k).credit = (s.dc k).credit + 1 ∧ ((dcCredit k s).dc k).lost = (s.dc k).lost ∧
      ((dcCredit k s).dc k).held = (s.dc k).held := by
  rw [dcCredit, if_neg hst, if_pos hcredit]
  obtain ⟨a, b, hdc⟩ := dcSettle_dc k (modDc k (fun c => { c with credit := c.credit + 1 }) s)
  rw [hdc, modDc_dc_same]
  exact ⟨rfl, rfl, rfl⟩

theorem dcCredit_full {k : Nat} {s : State} (hst : (s.dc k).st ≠ .idle) (hcredit : 15 ≤ (s.dc k).credit) :
    (dcCredit k s).dc k = { s.dc k with lost := (s.dc k).lost.bump } ∧ TenEvent (dcCredit k s) (dcTen s k).val evDcPaceLost := by
  rw [dcCredit, if_neg hst, if_neg (by omega)]
  exact ⟨(raiseT_dc _ _ _ _).trans (modDc_dc_same _ _ _), raiseT_event _ _ _ (by decide)⟩

theorem TEv.dcSettle {n e k : Nat} {s : State} (h : TEv n e s) : TEv n e (Machine.dcSettle k s) := by
  unfold Machine.dcSettle
  dsimp only
  split
  · exact h
  split
  · split
    · exact h
    · exact TEv.raiseT _ _ _ h
  · exact h

theorem TEv.dcCredit {n e k : Nat} {s : State} (h : TEv n e s) : TEv n e (Machine.dcCredit k s) := by
  unfold Machine.dcCredit
  dsimp only
  split
  · exact h
  split
  · exact TEv.dcSettle h
  · exact TEv.raiseT _ _ _ h

/-- One step of `pulseChans`. -/
theorem pulseChans_at {src k : Nat} {Q : State → Prop} (hk : k < 64) {s : State}
    (hat : ∀ x, Only [.tens, .dcs] s x → x.dc k = s.dc k → Q (if (x.dc k).psrc = src ∧ src ≠ 0 then dcCredit k x else x))
    (hafter : ∀ i x, i ≠ k → Q x → Q (dcCredit i x)) : Q (pulseChans src s) := by
  refine eachN_at (k := k) (P := fun x => Only [.tens, .dcs] s x ∧ x.dc k = s.dc k) hk ⟨Only.refl _ _, rfl⟩ (fun i x _ hi hx => ?_)
    (fun x hx => hat x hx.1 hx.2) fun i x _ hi hx => ?_
  · split
    · exact ⟨Only.dcCredit _ _ (List.Subset.refl _) hx.1, (dcCredit_dc_ne hi.symm x).trans hx.2⟩
    · exact hx
  · split
    · exact hafter i x hi hx
    · exact hx

section
variable {src k : Nat} {s : State} (hk : k < 64)
include hk

theorem pulseChans_notNamed (h : (s.dc k).psrc ≠ src ∨ (s.dc k).st = .idle) : (pulseChans src s).dc k = s.dc k := by
  refine pulseChans_at (Q := fun x => x.dc k = s.dc k) hk (fun x _ hdc => ?_) fun i x hi hx => (dcCredit_dc_ne hi.symm x).trans hx
  split
  next hnamed =>
    obtain hsrc | hst := h
    · exact absurd (hdc ▸ hnamed.1) hsrc
    · rw [dcCredit_idle (by rw [hdc, hst]), hdc]
  next => exact hdc

theorem pulseChans_takes (hsrc : src ≠ 0) (hnamed : (s.dc k).psrc = src) (hst : (s.dc k).st ≠ .idle) (hcredit : (s.dc k).credit < 15) :
    ((pulseChans src s).dc k).credit = (s.dc k).credit + 1 ∧ ((pulseChans src s).dc k).lost = (s.dc k).lost ∧
      ((pulseChans src s).dc k).held = (s.dc k).held := by
  refine pulseChans_at (Q := fun x => (x.dc k).credit = (s.dc k).credit + 1 ∧ (x.dc k).lost = (s.dc k).lost ∧ (x.dc k).held = (s.dc k).held) hk
    (fun x _ hdc => ?_) fun i x hi hx => by rwa [dcCredit_dc_ne hi.symm x]
  rw [if_pos ⟨hdc ▸ hnamed, hsrc⟩, ← hdc]
  exact dcCredit_takes (by rwa [hdc]) (by rwa [hdc])

theorem pulseChans_full (hsrc : src ≠ 0) (hnamed : (s.dc k).psrc = src) (hst : (s.dc k).st ≠ .idle) (hcredit : 15 ≤ (s.dc k).credit) :
    (pulseChans src s).dc k = { s.dc k with lost := (s.dc k).lost.bump } ∧ TenEvent (pulseChans src s) (dcTen s k).val evDcPaceLost := by
  refine pulseChans_at (Q := fun x => x.dc k = { s.dc k with lost := (s.dc k).lost.bump } ∧ TenEvent x (dcTen s k).val evDcPaceLost) hk
    (fun x honly hdc => ?_) fun i x hi hx => ⟨(dcCredit_dc_ne hi.symm x).trans hx.1, TEv.dcCredit hx.2⟩
  rw [if_pos ⟨hdc ▸ hnamed, hsrc⟩, ← hdc, ← honly.dcTen_eq (by decide) (by decide) (by decide)]
  exact dcCredit_full (by rwa [hdc]) (by rwa [hdc])

end

/-! ### A pulse to the rings (R354, R355) -/

theorem ringPulse_sq_ne {n m a b : Nat} (h : rix a b ≠ rix n m) (t : Word) (s : State) : (ringPulse n m t s).sq a b = s.sq a b := by
  unfold ringPulse
  dsimp only
  split
  · obtain ⟨-, hsqs, -⟩ := drainPulses_sq n m 8 (modSq n m (fun q => { q with pulses := q.pulses ++ [t] }) s)
    exact (hsqs a b h).trans (modSq_sq_ne _ _ h)
  · exact (raiseT_sq _ _ _ _ _).trans (modSq_sq_ne _ _ h)

theorem ringPulse_full {n m : Nat} {t : Word} {s : State} (h : 8 ≤ (s.sq n m).pulses.length) :
    (ringPulse n m t s).sq n m = { s.sq n m with plost := (s.sq n m).plost.bump } ∧ TenEvent (ringPulse n m t s) n evSchedPulseLost := by
  rw [ringPulse, if_neg (by omega)]
  exact ⟨(raiseT_sq _ _ _ _ _).trans (modSq_sq_same _ _ _ _), raiseT_event _ _ _ (by decide)⟩

/-- With every request released, no held pulse is drained. -/
theorem drainPulses_released {n m : Nat} {s : State} (h : ∀ p, p ∈ (s.sq n m).posts → p.release.isSome = true) (fuel : Nat) :
    drainPulses n m fuel s = s := by
  have hnone : (s.sq n m).posts.any (fun p => p.release.isNone) = false := by
    rw [List.any_eq_false]
    intro p hp
    simp [Option.isSome_iff_ne_none.mp (h p hp)]
  cases fuel with
  | zero => rfl
  | succ fuel =>
    unfold drainPulses
    dsimp only
    split
    · rfl
    · rw [if_neg (by simp [hnone])]

theorem drainPulses_empty {n m : Nat} {s : State} (h : (s.sq n m).pulses = []) (fuel : Nat) : drainPulses n m fuel s = s := by
  cases fuel with
  | zero => rfl
  | succ fuel =>
    unfold drainPulses
    dsimp only
    rw [h]

theorem ringPulse_holds {n m : Nat} {t : Word} {s : State} (hlen : (s.sq n m).pulses.length < 8)
    (h : ∀ p, p ∈ (s.sq n m).posts → p.release.isSome = true) :
    (ringPulse n m t s).sq n m = { s.sq n m with pulses := (s.sq n m).pulses ++ [t] } := by
  rw [ringPulse, if_pos hlen, drainPulses_released]
  · exact modSq_sq_same _ _ _ _
  · rw [modSq_sq_same]
    exact h

/-- What a pulse releases does not depend on the pulses that the ring holds. -/
theorem releaseFor_pulses (q : Sq) (u : List Word) (t : Word) (c : Nat) (l : List Posted) :
    releaseFor { q with pulses := u } t c l = releaseFor q t c l := by
  fun_induction releaseFor q t c l with
  | case1 => rfl
  | case2 l hl =>
    cases l with
    | nil => rfl
    | cons => rfl
  | case3 c p l r hr ih => rw [releaseFor, hr, ih]
  | case4 c p l hr r ih => rw [releaseFor, hr, ih]; rfl

theorem ringPulse_releases {n m : Nat} {t : Word} {s : State} (hnone : (s.sq n m).pulses = []) (hrun : s.run = true)
    (h : ∃ p, p ∈ (s.sq n m).posts ∧ p.release = none) :
    (ringPulse n m t s).sq n m = { s.sq n m with posts := releaseFor (s.sq n m) t (s.sq n m).rper (s.sq n m).posts } := by
  obtain ⟨p, hp, hrelease⟩ := h
  have hany : (s.sq n m).posts.any (fun p => p.release.isNone) = true := List.any_eq_true.mpr ⟨p, hp, by rw [hrelease]; rfl⟩
  rw [ringPulse, if_pos (by rw [hnone]; decide)]
  generalize hx : modSq n m (fun q => { q with pulses := q.pulses ++ [t] }) s = x
  have hxrun : x.run = s.run := hx ▸ rfl
  have hxq : x.sq n m = { s.sq n m with pulses := [t] } := by rw [← hx, modSq_sq_same, hnone]; rfl
  rw [drainPulses]
  dsimp only
  rw [hxq, hxrun]
  dsimp only
  rw [if_pos (by rw [hrun, hany]; rfl), drainPulses_empty (by rw [modSq_sq_same]), modSq_sq_same, hxq]
  dsimp only
  rw [releaseFor_pulses, hnone]
  rfl

theorem TEv.ringPulse {n e a b : Nat} {t : Word} {s : State} (h : TEv n e s) : TEv n e (Machine.ringPulse a b t s) := by
  unfold Machine.ringPulse
  dsimp only
  split
  · exact TEv.drainPulses _ _ _ _ h
  · exact TEv.raiseT _ _ _ h

theorem TEv.pulseRings {n e src : Nat} {t : Word} {s : State} (h : TEv n e s) : TEv n e (Machine.pulseRings src t s) :=
  TEv.eachN _ h fun i x hx => by
    dsimp only
    split
    · exact TEv.ringPulse hx
    · exact hx

/-- One step of `pulseRings`. -/
theorem pulseRings_at {src n m : Nat} {time : Word} {Q : State → Prop} (hn : n < 16) (hm : m < 16) {s : State}
    (hat : ∀ x, Only [.tens, .sqs] s x → x.sq n m = s.sq n m →
      Q (if ((s.sq n m).pulseMode && decide ((s.sq n m).rsrc = src) && s.enabled n) = true then ringPulse n m time x else x))
    (hafter : ∀ a b x, rix n m ≠ rix a b → Q x → Q (ringPulse a b time x)) : Q (pulseRings src time s) := by
  have hother (i : Nat) (hi : i < 256) (hne : i ≠ 16 * n + m) : rix n m ≠ rix (i / 16) (i % 16) := by simp only [rix]; omega
  refine eachN_at (n := 256) (k := 16 * n + m) (P := fun x => Only [.tens, .sqs] s x ∧ x.sq n m = s.sq n m) (by omega) ⟨Only.refl _ _, rfl⟩
    (fun i x hi hne hx => ?_) (fun x hx => ?_) fun i x hi hne hx => ?_
  · dsimp only
    split
    · exact ⟨Only.ringPulse _ _ _ _ (List.Subset.refl _) hx.1, (ringPulse_sq_ne (hother i hi hne) _ _).trans hx.2⟩
    · exact hx
  · have hdiv : (16 * n + m) / 16 = n := by omega
    have hmod : (16 * n + m) % 16 = m := by omega
    have h := hat x hx.1 hx.2
    rw [← hx.2, ← hx.1.enabled_eq (by decide) (by decide) (by decide)] at h
    dsimp only
    rwa [hdiv, hmod]
  · dsimp only
    split
    · exact hafter _ _ x (hother i hi hne) hx
    · exact hx

section
variable {src n m : Nat} {time : Word} {s : State} (hn : n < 16) (hm : m < 16)
include hn hm

theorem pulseRings_notNamed (h : ¬ ((s.sq n m).pulseMode = true ∧ (s.sq n m).rsrc = src ∧ s.enabled n = true)) :
    (pulseRings src time s).sq n m = s.sq n m := by
  refine pulseRings_at (Q := fun x => x.sq n m = s.sq n m) hn hm (fun x _ hq => ?_) fun a b x hne hx => (ringPulse_sq_ne hne _ _).trans hx
  rw [if_neg (by simpa [and_assoc] using h)]
  exact hq

variable (h : (s.sq n m).pulseMode = true ∧ (s.sq n m).rsrc = src ∧ s.enabled n = true)
include h

/-- What one pulse makes of a ring that names its source, which the other rings' steps keep. -/
theorem pulseRings_named {Q : State → Prop} (hat : ∀ x, Only [.tens, .sqs] s x → x.sq n m = s.sq n m → Q (ringPulse n m time x))
    (hafter : ∀ a b x, rix n m ≠ rix a b → Q x → Q (ringPulse a b time x)) : Q (pulseRings src time s) := by
  refine pulseRings_at hn hm (fun x honly hq => ?_) hafter
  rw [if_pos (by simpa [and_assoc] using h)]
  exact hat x honly hq

end

/-- What is the same of the channels and rings before, and what raising is kept after, makes of a pulse what `PulseGiven` says. -/
theorem pulse_given {src : Nat} {time : Word} {s0 s : State} (hsrc : src ≠ 0) (hs : Only [.time] s0 s) :
    PulseGiven src time s0 (pulseRings src time (pulseChans src s)) := by
  have hchans : Only [.tens, .dcs] s (pulseChans src s) := Only.pulseChans _ _ (by decide) (Only.refl _ _)
  have hsame : Only [.tens, .dcs, .time] s0 (pulseChans src s) := Only.pulseChans _ _ (by decide) (hs.mono (by decide))
  have hrings : Only [.tens, .sqs] (pulseChans src s) (pulseRings src time (pulseChans src s)) := Only.pulseRings _ _ _ (by decide) (Only.refl _ _)
  have hdc (k : Nat) : (pulseRings src time (pulseChans src s)).dc k = (pulseChans src s).dc k := hrings.dc_eq (by decide) k
  have hdc0 (k : Nat) : s.dc k = s0.dc k := hs.dc_eq (by decide) k
  have hsq0 (n m : Nat) : (pulseChans src s).sq n m = s0.sq n m := sq_of_only hsame (by decide) n m
  have henabled (n : Nat) : (pulseChans src s).enabled n = s0.enabled n := hsame.enabled_eq (by decide) (by decide) (by decide) n
  have hrun : (pulseChans src s).run = s0.run := hsame.run_eq (by decide)
  refine ⟨fun k hk => ⟨fun h => ?_, fun hnamed hst hcredit => ?_, fun hnamed hst hcredit => ?_⟩, ?_⟩
  · rw [hdc, ← hdc0]
    exact pulseChans_notNamed hk (by rwa [hdc0])
  · rw [hdc, ← hdc0]
    rw [← hdc0] at hnamed hst hcredit
    exact pulseChans_takes hk hsrc hnamed hst hcredit
  · rw [hdc, ← hdc0, ← hs.dcTen_eq (by decide) (by decide) (by decide)]
    rw [← hdc0] at hnamed hst hcredit
    obtain ⟨hlost, hev⟩ := pulseChans_full hk hsrc hnamed hst hcredit
    exact ⟨hlost, TEv.pulseRings hev⟩
  generalize pulseChans src s = y at hsq0 henabled hrun ⊢
  refine fun n m hn hm => ⟨fun h => ?_, fun h hlen => ?_, fun h hlen hall => ?_, fun h hnone hr hex => ?_⟩
  · rw [← hsq0]
    exact pulseRings_notNamed hn hm (by rwa [hsq0, henabled])
  · rw [← hsq0, ← henabled] at h
    rw [← hsq0] at hlen
    have h := pulseRings_named (time := time) hn hm h
      (Q := fun x => x.sq n m = { y.sq n m with plost := (y.sq n m).plost.bump } ∧ TenEvent x n evSchedPulseLost)
      (fun x _ hq => by rw [← hq]; exact ringPulse_full (by rwa [hq])) fun a b x hne hx => ⟨(ringPulse_sq_ne hne _ _).trans hx.1, TEv.ringPulse hx.2⟩
    rwa [hsq0] at h
  · rw [← hsq0, ← henabled] at h
    rw [← hsq0] at hlen hall ⊢
    exact pulseRings_named hn hm h (Q := fun x => x.sq n m = _) (fun x _ hq => by rw [← hq]; exact ringPulse_holds (by rwa [hq]) (by rwa [hq]))
      fun a b x hne hx => (ringPulse_sq_ne hne _ _).trans hx
  · rw [← hsq0, ← henabled] at h
    rw [← hsq0] at hnone hex ⊢
    rw [← hrun] at hr
    exact pulseRings_named hn hm h (Q := fun x => x.sq n m = _)
      (fun x honly hq => by rw [← hq]; exact ringPulse_releases (by rwa [hq]) (by rwa [honly.run_eq (by decide)]) (by rwa [hq]))
      fun a b x hne hx => (ringPulse_sq_ne hne _ _).trans hx

theorem PulseGiven.of_only {src : Nat} {time : Word} {A : List Part} {s t u : State} (h : PulseGiven src time s t) (honly : Only A t u)
    (htens : Part.tens ∉ A) (hsqs : Part.sqs ∉ A) (hdcs : Part.dcs ∉ A) : PulseGiven src time s u := by
  have hdc : u.dc = t.dc := funext fun k => honly.dc_eq hdcs k
  have hsq : u.sq = t.sq := funext fun n => funext fun m => sq_of_only honly hsqs n m
  have hev (n e : Nat) : TenEvent t n e → TenEvent u n e := fun h => h.of_ten (ten_of_tens (honly.2 .tens htens) n)
  obtain ⟨hchans, hrings⟩ := h
  refine ⟨fun k hk => ?_, fun n m hn hm => ?_⟩
  · obtain ⟨hnot, htakes, hfull⟩ := hchans k hk
    rw [hdc]
    exact ⟨hnot, htakes, fun hnamed hst hcredit => ⟨(hfull hnamed hst hcredit).1, hev _ _ (hfull hnamed hst hcredit).2⟩⟩
  · obtain ⟨hnot, hfull, hholds, hreleases⟩ := hrings n m hn hm
    rw [hsq]
    exact ⟨hnot, fun hnamed hlen => ⟨(hfull hnamed hlen).1, hev _ _ (hfull hnamed hlen).2⟩, hholds, hreleases⟩

/-! ### Targets and period boundaries (R353, R357) -/

theorem nextTarget_facts {tgt per ns : Nat} (hper : 0 < per) :
    ns < (nextTarget tgt per ns).1 ∧ (nextTarget tgt per ns).1 = tgt + per + (nextTarget tgt per ns).2 * per ∧
      (ns < tgt + per → (nextTarget tgt per ns).2 = 0) ∧ ((nextTarget tgt per ns).2 ≠ 0 → (nextTarget tgt per ns).1 ≤ ns + per) := by
  unfold nextTarget
  split
  next hle =>
    have hlt := Nat.lt_div_mul_add (a := ns - (tgt + per)) hper
    have hge := Nat.div_mul_le_self (ns - (tgt + per)) per
    dsimp only
    rw [Nat.add_one_mul]
    refine ⟨by omega, rfl, fun h => by omega, fun _ => by omega⟩
  next hgt => exact ⟨by dsimp only; omega, by simp, fun _ => rfl, fun h => absurd rfl h⟩

theorem boundaryAt_facts {period ns : Nat} (h : 0 < period) :
    ns ≤ boundaryAt period ns ∧ boundaryAt period ns < ns + period ∧ period ∣ boundaryAt period ns := by
  have hlt := Nat.lt_div_mul_add (a := ns + period - 1) h
  have hge := Nat.div_mul_le_self (ns + period - 1) period
  unfold boundaryAt ceilDiv
  exact ⟨by omega, by omega, Nat.dvd_mul_left ..⟩

/-! ### The strobe, RUN, the comparators, the triggers and the refill -/

/-- TSU_STROBE takes both snapshots and clears the arms (R349). -/
def strobed (ns : Word) (frac : BitVec 32) (s : State) : State :=
  modOwn (fun o => { o with timeCtl := o.timeCtl &&& ~~~ 6 }) (modTime (fun t => { t with
    tsuNs := ns, tsuFrac := frac, captNs := t.ns, captFrac := t.frac, captDone := true }) s)

theorem fxTsuStrobe_capt {ns : Word} {frac : BitVec 32} {s : State} (hcapt : bitOf s.own.timeCtl 1 = true) (hsync : bitOf s.own.timeCtl 2 = false) :
    fxTsuStrobe ns frac s = strobed ns frac s := by
  rw [fxTsuStrobe, whenS_true (by rw [hcapt]; rfl)]
  dsimp only
  rw [hsync]
  rfl

theorem fxTsuStrobe_sync {ns : Word} {frac : BitVec 32} {s : State} (hsync : bitOf s.own.timeCtl 2 = true) :
    fxTsuStrobe ns frac s = modTime (fun t => { t with frac := frac })
      (timeStep (ns + ((s.own.syncofs.setWidth 32 : BitVec 32).signExtend 64)) (strobed ns frac s)) := by
  rw [fxTsuStrobe, whenS_true (by rw [hsync, Bool.or_true])]
  dsimp only
  rw [hsync]
  rfl

/-- The time count stops (R351). -/
theorem setRun_stops {s : State} (h : s.run = true) :
    Only (.own :: .time :: recordParts) s (setRun false s) ∧ (setRun false s).time = { s.time with stopNs := s.time.ns } ∧
      (setRun false s).own.timeCtl = s.own.timeCtl &&& ~~~ 1 ∧ bitOf (setRun false s).evPend gTimeStopped = true ∧
      (setRun false s).jrn.seq = s.jrn.seq + 1 := by
  rw [setRun, if_neg (by rw [h]; decide), if_neg (by decide)]
  generalize hx : modOwn (fun o => { o with timeCtl := o.timeCtl &&& ~~~ 1 }) (modTime (fun t => { t with stopNs := t.ns }) s) = x
  have hmark : Only recordParts x (timeMark (raiseG gTimeStopped x)) := Only.timeMark _ (by decide) (Only.raiseG _ _ (by decide) (Only.refl _ _))
  refine ⟨Only.timeMark _ (by decide) (Only.raiseG _ _ (by decide) (hx ▸ Only.modOwn _ (by decide) (Only.modTime _ (by decide) (Only.refl _ _)))),
    ?_, ?_, Pend.timeMark (raiseG_bit _ _ (by decide)), ?_⟩
  · exact (hmark.2 .time (by decide)).trans (hx ▸ rfl)
  · exact (hmark.timeCtl_eq (by decide)).trans (hx ▸ rfl)
  · rw [timeMark_seq, ← hx]
    rfl

/-- The time count starts (R351). -/
theorem setRun_starts {s : State} (h : s.run = false) :
    Only (.own :: .sqs :: recordParts) s (setRun true s) ∧ (setRun true s).own.timeCtl = s.own.timeCtl ||| 1 ∧
      (setRun true s).jrn.seq = s.jrn.seq + 1 ∧ ∀ n m, n < 16 → m < 16 → (s.sq n m).pulseMode = false → (setRun true s).sq n m = { s.sq n m with
        posts := (s.sq n m).posts.map (fun p =>
          if p.release.isSome then p else { p with release := some p.taken, deadline := deadlineAt (s.sq n m) p.taken }) } := by
  rw [setRun, if_neg (by rw [h]; decide), if_pos rfl]
  generalize hx : modOwn (fun o => { o with timeCtl := o.timeCtl ||| 1 }) s = x
  have hmark : Only recordParts x (timeMark x) := Only.timeMark _ (by decide) (Only.refl _ _)
  have hreleased : Only [.sqs] (timeMark x) (releasePosted (timeMark x)) := Only.releasePosted _ (by decide) (Only.refl _ _)
  have hsq (n m : Nat) : (timeMark x).sq n m = s.sq n m := (sq_of_only hmark (by decide) n m).trans (hx ▸ rfl)
  refine ⟨Only.releasePosted _ (by decide) (Only.timeMark _ (by decide) (hx ▸ Only.modOwn _ (by decide) (Only.refl _ _))), ?_, ?_,
    fun n m hn hm hmode => ?_⟩
  · exact (hreleased.timeCtl_eq (by decide)).trans ((hmark.timeCtl_eq (by decide)).trans (hx ▸ rfl))
  · rw [hreleased.jrn (by decide), timeMark_seq, ← hx]
    rfl
  · rw [releasePosted_sq hn hm _ (by rwa [hsq]), hsq]

/-- A comparator that is due drives its output and gives its pulse, and raises its event with EVT (R352). -/
def fired (j : Nat) (s : State) : State :=
  let s2 := pulseRings (9 + j) (s.tcmp j).tgt (pulseChans (9 + j) (modTime (fun t => { t with pulse := t.pulse ||| BitVec.ofNat 8 (2 ^ j) }) s))
  if bitOf (s.tcmp j).ctl 16 then raiseG (gTcmp0 + j) s2 else s2

theorem fired_facts {j : Nat} (hj : j < 8) (s : State) :
    Only [.tens, .sqs, .dcs, .time, .evPend] s (fired j s) ∧ PulseGiven (9 + j) (s.tcmp j).tgt s (fired j s) ∧
      (fired j s).time = { s.time with pulse := s.time.pulse ||| BitVec.ofNat 8 (2 ^ j) } ∧
      (bitOf (s.tcmp j).ctl 16 = true → bitOf (fired j s).evPend (gTcmp0 + j) = true) ∧
      (bitOf (s.tcmp j).ctl 16 = false → (fired j s).evPend = s.evPend) := by
  unfold fired
  dsimp only
  generalize hx : modTime (fun t => { t with pulse := t.pulse ||| BitVec.ofNat 8 (2 ^ j) }) s = x
  have hpulse : Only [.time] s x := hx ▸ Only.modTime _ (by decide) (Only.refl _ _)
  have hgiven := pulse_given (src := 9 + j) (time := (s.tcmp j).tgt) (by omega) hpulse
  have hwork : Only [.tens, .sqs, .dcs] x (pulseRings (9 + j) (s.tcmp j).tgt (pulseChans (9 + j) x)) :=
    Only.pulseRings _ _ _ (by decide) (Only.pulseChans _ _ (by decide) (Only.refl _ _))
  have htime : x.time = { s.time with pulse := s.time.pulse ||| BitVec.ofNat 8 (2 ^ j) } := hx ▸ rfl
  generalize pulseRings (9 + j) (s.tcmp j).tgt (pulseChans (9 + j) x) = y at hgiven hwork
  have hy : Only [.tens, .sqs, .dcs, .time, .evPend] s y := (hpulse.mono (by decide)).trans (hwork.mono (by decide))
  split
  next hevt =>
    refine ⟨Only.raiseG _ _ (by decide) hy, hgiven.of_only (A := [.evPend]) (Only.raiseG _ _ (by decide) (Only.refl _ _)) (by decide) (by decide) (by decide),
      ?_, fun _ => raiseG_bit _ _ (by simp only [gTcmp0]; omega), fun hno => by rw [hevt] at hno; cases hno⟩
    exact (hwork.2 .time (by decide)).trans htime
  next hevt =>
    exact ⟨hy, hgiven, (hwork.2 .time (by decide)).trans htime, fun hyes => absurd hyes hevt, fun _ => (hwork.2 .evPend (by decide)).trans (hx ▸ rfl)⟩

theorem fxComparatorFire_not {j : Fin 8} {s : State}
    (h : (s.run && bitOf (s.tcmp j.val).ctl 0 && decide ((s.tcmp j.val).tgt.toNat ≤ s.time.ns.toNat)) = false) : fxComparatorFire j s = s := by
  rw [fxComparatorFire]
  exact whenS_false h

theorem fxComparatorFire_due {j : Fin 8} {s : State}
    (h : (s.run && bitOf (s.tcmp j.val).ctl 0 && decide ((s.tcmp j.val).tgt.toNat ≤ s.time.ns.toNat)) = true) :
    fxComparatorFire j s =
      if (s.tcmp j.val).per = 0 then modTcmp j.val (fun c => { c with ctl := c.ctl &&& ~~~ 1 }) (fired j.val s)
      else
        modTime (fun t => { t with tlost := t.tlost.put {} j.val ((t.tlost.look {} j.val).addN
            (nextTarget (s.tcmp j.val).tgt.toNat (s.tcmp j.val).per.toNat s.time.ns.toNat).2) })
          (modTcmp j.val (fun c => { c with
            tgt := BitVec.ofNat 64 (nextTarget (s.tcmp j.val).tgt.toNat (s.tcmp j.val).per.toNat s.time.ns.toNat).1 }) (fired j.val s)) := by
  rw [fxComparatorFire]
  exact whenS_true h

theorem fxBudgetRefill_not {s : State} (h : refillDue s = false) : fxBudgetRefill s = s := whenS_false h

/-- Every ring has the credits of a new period (R357, R359). -/
def refilled (s : State) : State :=
  eachN (List.range 256) (fun i s =>
    let w := s.eff (.ownSbud (Fin.ofNat 16 (i / 16)) (Fin.ofNat 16 (i % 16)))
    modSq (i / 16) (i % 16) (fun q => { q with rcred := sbReqs w, ccred := sbCycles w }) s) s

theorem refilled_only (s : State) : Only [.sqs] s (refilled s) :=
  Only.eachN _ (Only.refl _ _) fun _ _ hx => Only.modSq _ _ _ (by decide) hx

theorem fxBudgetRefill_due {s : State} (h : refillDue s = true) :
    fxBudgetRefill s = modSch (fun c => { c with due := boundaryAt s.period (s.time.ns.toNat + 1) }) (refilled s) := whenS_true h

theorem refilled_sq (s : State) (n m : Fin 16) :
    (refilled s).sq n m =
      { s.sq n m with rcred := sbReqs (s.eff (.ownSbud n m)), ccred := sbCycles (s.eff (.ownSbud n m)) } := by
  have hother (i : Nat) (hi : i < 256) (hne : i ≠ 16 * n.val + m.val) : rix n m ≠ rix (i / 16) (i % 16) := by simp only [rix]; omega
  refine eachN_at (n := 256) (k := 16 * n.val + m.val) (P := fun x => Only [.sqs] s x ∧ x.sq n m = s.sq n m) (Q := fun x => x.sq n m = _) (by omega)
    ⟨Only.refl _ _, rfl⟩ (fun i x hi hne hx => ?_) (fun x hx => ?_) fun i x hi hne hx => ?_
  · exact ⟨Only.modSq _ _ _ (List.Subset.refl _) hx.1, (modSq_sq_ne _ _ (hother i hi hne)).trans hx.2⟩
  · have hdiv : (16 * n.val + m.val) / 16 = n.val := by omega
    have hmod : (16 * n.val + m.val) % 16 = m.val := by omega
    dsimp only
    rw [hdiv, hmod, modSq_sq_same, hx.2, hx.1.eff_eq (by decide) (by decide) (by decide), Fin.ofNat_val_eq_self, Fin.ofNat_val_eq_self]
  · exact (modSq_sq_ne _ _ (hother i hi hne)).trans hx

theorem fxBudgetRefill_facts {s : State} (h : refillDue s = true) :
    Only [.sqs, .sch] s (fxBudgetRefill s) ∧ (fxBudgetRefill s).sch = { s.sch with due := boundaryAt s.period (s.time.ns.toNat + 1) } ∧
      ∀ n m : Fin 16, (fxBudgetRefill s).sq n.val m.val =
        { s.sq n.val m.val with rcred := sbReqs (s.eff (.ownSbud n m)), ccred := sbCycles (s.eff (.ownSbud n m)) } := by
  have honly := refilled_only s
  rw [fxBudgetRefill_due h]
  refine ⟨Only.modSch _ (by decide) (honly.mono (by decide)), ?_, fun n m => ?_⟩
  · rw [modSch_sch, show (refilled s).sch = s.sch from honly.2 .sch (by decide)]
  · rw [modSch_sq]
    exact refilled_sq s n m

end Sys2Proof.Machine

namespace Sys2Proof.Clock
open Sys2Proof.Machine

/-- Settles O50: each command of the time count, with `timeStep_facts` for the steps. -/
theorem clock : Obligations.Clock := by
  unfold Obligations.Clock
  refine ⟨fun who s => ⟨fun htakes => ?_, fun htakes => ?_⟩, fun ns frac s => ⟨fun hcapt hsync => ?_, fun harm => ?_⟩, fun who s htakes => ?_,
    fun who run s htakes => ⟨fun hsame => ?_, fun hrun hs => ?_, fun hrun hs => ?_⟩, fun s => ⟨fun hdue => ?_, fun hdue => ?_⟩, fun j s => ?_⟩
  · exact ⟨_, congrArg Host.Outcome.next (gateW_takes htakes), Only.modOwn _ (by decide) (Only.refl _ _), rfl⟩
  · exact ⟨_, congrArg Host.Outcome.next (gateW_takes htakes), Only.modOwn _ (by decide) (Only.refl _ _), rfl⟩
  · exact congrArg Host.Outcome.next (by rw [fxTsuStrobe, hcapt, hsync]; rfl)
  · have hstrobed : Only [.own, .time] s (strobed ns frac s) := Only.modOwn _ (by decide) (Only.modTime _ (by decide) (Only.refl _ _))
    cases hsync : bitOf s.own.timeCtl 2 with
    | false =>
      have hcapt : bitOf s.own.timeCtl 1 = true := harm.resolve_right (by rw [hsync]; decide)
      exact ⟨_, congrArg Host.Outcome.next (fxTsuStrobe_capt hcapt hsync), hstrobed.mono (by decide), rfl, rfl, rfl, rfl, rfl, rfl,
        fun _ => ⟨hstrobed, rfl, rfl⟩, nofun⟩
    | true =>
      refine ⟨_, congrArg Host.Outcome.next (fxTsuStrobe_sync hsync), ?_⟩
      obtain ⟨honly, htime, hsch, hev, hseq⟩ := timeStep_facts (ns + ((s.own.syncofs.setWidth 32 : BitVec 32).signExtend 64)) (strobed ns frac s)
      generalize timeStep _ (strobed ns frac s) = x at honly htime hsch hev hseq
      have htimeX : (modTime (fun t => { t with frac := frac }) x).time = { (strobed ns frac s).time with
          ns := ns + ((s.own.syncofs.setWidth 32 : BitVec 32).signExtend 64), frac := frac } := by rw [modTime, htime]
      rw [htimeX]
      exact ⟨Only.modTime _ (by decide) ((hstrobed.mono (by decide)).trans (honly.mono (by decide))), honly.timeCtl_eq (by decide), rfl, rfl, rfl, rfl, rfl,
        nofun, fun _ => ⟨rfl, rfl, hsch, hev, hseq⟩⟩
  · refine ⟨_, congrArg Host.Outcome.next (gateW_takes htakes), ?_⟩
    obtain ⟨honly, htime, hsch, hev, hseq⟩ := timeStep_facts (s.time.ns + ((s.own.timeAdj.setWidth 32 : BitVec 32).signExtend 64)) s
    exact ⟨honly, by rw [adjust, hsch, htime], htime, hev, hseq⟩
  · exact congrArg Host.Outcome.next ((gateW_takes htakes).trans (if_pos hsame))
  · subst hrun
    exact ⟨_, congrArg Host.Outcome.next (gateW_takes htakes), setRun_stops hs⟩
  · subst hrun
    exact ⟨_, congrArg Host.Outcome.next (gateW_takes htakes), setRun_starts hs⟩
  · have hmark : fxTimeLowWrap s = timeMark (modTime (fun t => { t with wrapDue := false }) s) := whenS_true hdue
    have hsame : Only recordParts (modTime (fun t => { t with wrapDue := false }) s) (timeMark (modTime (fun t => { t with wrapDue := false }) s)) :=
      Only.timeMark _ (by decide) (Only.refl _ _)
    exact ⟨_, congrArg Host.Outcome.next hmark, Only.timeMark _ (by decide) (Only.modTime _ (by decide) (Only.refl _ _)),
      hsame.2 .time (by decide), timeMark_seq _⟩
  · exact congrArg Host.Outcome.next (by rw [fxTimeLowWrap, hdue]; rfl)
  · exact ⟨_, rfl, Only.modTime _ (by decide) (Only.refl _ _), rfl⟩

/-- Settles O51: the pulses of a comparator and a trigger are `pulse_given`; targets and boundaries are arithmetic of whole periods. -/
theorem timedWork : Obligations.TimedWork := by
  unfold Obligations.TimedWork
  refine ⟨fun j s => ⟨fun hnot => ?_, fun hdue => ?_⟩, fun tgt per ns hper _ => nextTarget_facts hper, fun i s hrst => ?_,
    fun s => ⟨fun hrun hresv hdue => ?_, fun hnot => ?_⟩, fun period ns h => boundaryAt_facts h⟩
  · exact congrArg Host.Outcome.next (fxComparatorFire_not (by simpa [and_assoc] using hnot))
  · obtain ⟨honly, hgiven, htime, hevt, hno⟩ := fired_facts j.isLt s
    have hdue := fxComparatorFire_due (j := j) (s := s) (by simpa [and_assoc] using hdue)
    have htcmp (k : Nat) : (fired j.val s).tcmp k = s.tcmp k := honly.tcmp_eq (by decide) k
    generalize fired j.val s = x at honly hgiven htime hevt hno hdue htcmp
    have hns : x.time.ns = s.time.ns := by rw [htime]
    have htlost : x.time.tlost = s.time.tlost := by rw [htime]
    have hpulse : x.time.pulse = s.time.pulse ||| BitVec.ofNat 8 (2 ^ j.val) := by rw [htime]
    by_cases hper : (s.tcmp j.val).per = 0
    · rw [if_pos hper] at hdue
      have hlast : Only [.own] x (modTcmp j.val (fun c => { c with ctl := c.ctl &&& ~~~ 1 }) x) := Only.modTcmp _ _ (by decide) (Only.refl _ _)
      refine ⟨_, congrArg Host.Outcome.next hdue, (honly.mono (by decide)).trans (hlast.mono (by decide)),
        hgiven.of_only hlast (by decide) (by decide) (by decide), hpulse, hns, hevt, hno,
        fun i hi => ⟨(look_put_ne _ _ _ hi).trans (htcmp i), congrArg (fun t => Tbl.look {} t i) htlost⟩,
        fun _ => ⟨(look_put_same _ _ _ _).trans (by rw [htcmp]), htlost⟩, fun h => absurd hper h⟩
    · rw [if_neg hper] at hdue
      refine ⟨_, congrArg Host.Outcome.next hdue, Only.modTime _ (by decide) (Only.modTcmp _ _ (by decide) (honly.mono (by decide))),
        hgiven.of_only (A := [.own, .time]) (Only.modTime _ (by decide) (Only.modTcmp _ _ (by decide) (Only.refl _ _))) (by decide) (by decide) (by decide),
        hpulse, hns, hevt, hno,
        fun i hi => ⟨(look_put_ne _ _ _ hi).trans (htcmp i), ?_⟩,
        fun h => absurd h hper, fun _ => ⟨(look_put_same _ _ _ _).trans (by rw [htcmp]), ?_⟩⟩
      · exact (look_put_ne _ _ _ hi).trans (congrArg (fun t => Tbl.look {} t i) htlost)
      · refine (look_put_same _ _ _ _).trans ?_
        rw [show (modTcmp j.val _ x).time = x.time from rfl, htlost]
  · refine ⟨_, congrArg Host.Outcome.next (whenS_true (by rw [hrst]; rfl)), ?_⟩
    generalize hx : modTime (fun t => { t with trig := t.trig.put 0 i.val t.ns }) s = x
    have hkept : Only [.time] s x := hx ▸ Only.modTime _ (by decide) (Only.refl _ _)
    have hwork : Only [.tens, .sqs, .dcs] x (pulseRings (1 + i.val) s.time.ns (pulseChans (1 + i.val) x)) :=
      Only.pulseRings _ _ _ (by decide) (Only.pulseChans _ _ (by decide) (Only.refl _ _))
    refine ⟨(hkept.mono (by decide)).trans (hwork.mono (by decide)), pulse_given (by omega) hkept, ?_⟩
    rw [show (pulseRings (1 + i.val) s.time.ns (pulseChans (1 + i.val) x)).time = x.time from hwork.2 .time (by decide), ← hx]
    exact ⟨look_put_same _ _ _ _, fun k hk => look_put_ne _ _ _ hk, rfl⟩
  · have hdue : refillDue s = true := by simp [refillDue, hrun, hresv, hdue]
    exact ⟨_, rfl, fxBudgetRefill_facts hdue⟩
  · refine congrArg Host.Outcome.next (fxBudgetRefill_not ?_)
    simp only [refillDue, Bool.and_eq_false_iff, decide_eq_false_iff_not, or_assoc]
    rcases hnot with h | h | h
    · exact .inl h
    · exact .inr (.inl (by omega))
    · exact .inr (.inr (by omega))

end Sys2Proof.Clock
end

section
/-!
Completion rings between two records (R110, R117, R122): their set-up, their notices, and the clearing of a fault, with the statement O39.
-/

namespace Sys2Proof.Machine

theorem cq_of_only {A : List Part} {s t : State} (h : Only A s t) (hA : Part.cqs ∉ A) (n m : Nat) : t.cq n m = s.cq n m := by
  rw [State.cq, State.cq, show t.cqs = s.cqs from h.2 .cqs hA]

/-- One completion ring is updated. -/
theorem modCq_facts (n m : Nat) (f : Cq → Cq) (s : State) :
    Only [.cqs] s (modCq n m f s) ∧ OtherCqs n m s (modCq n m f s) ∧ (modCq n m f s).cq n m = f (s.cq n m) :=
  ⟨Only.modCq _ _ _ (by decide) (Only.refl _ _), fun _ _ h => modCq_cq_ne _ _ h, modCq_cq_same _ _ _ _⟩

/-- The notice of a ring: both counts restart, and its event is raised (R117). -/
theorem notify_facts (n m : Nat) (s : State) :
    Only [.tens, .cqs] s (notify n m s) ∧ OtherTens n s (notify n m s) ∧ OtherCqs n m s (notify n m s) ∧ TenEvent (notify n m s) n evCqNotify ∧
      (notify n m s).cq n m = { s.cq n m with coal := 0, timer := false } :=
  ⟨Only.notify _ _ _ (by decide) (Only.refl _ _), fun _ h => modTen_ten_ne _ _ h, fun _ _ h => (raiseT_cq _ _ _ _ _).trans (modCq_cq_ne _ _ h),
    raiseT_event _ _ _ (by decide), (raiseT_cq _ _ _ _ _).trans (modCq_cq_same _ _ _ _)⟩

/-- The notice that is due where COAL_CNT has been reached, and what it makes of the ring (R117). -/
theorem noticeDue_facts (n m : Nat) (s : State) :
    Only [.tens, .cqs] s (noticeDue n m s) ∧ OtherTens n s (noticeDue n m s) ∧ OtherCqs n m s (noticeDue n m s) ∧
      (noticeDue n m s).cq n m =
        (if 0 < (s.cq n m).coal ∧ (s.cq n m).coalCnt ≤ (s.cq n m).coal then { s.cq n m with coal := 0, timer := false } else s.cq n m) ∧
      (0 < (s.cq n m).coal → (s.cq n m).coalCnt ≤ (s.cq n m).coal → TenEvent (noticeDue n m s) n evCqNotify) := by
  unfold noticeDue
  split
  next hdue =>
    obtain ⟨honly, htens, hcqs, hev, hcq⟩ := notify_facts n m s
    exact ⟨honly, htens, hcqs, hcq, fun _ _ => hev⟩
  next hnot => exact ⟨Only.refl _ _, fun _ _ => rfl, fun _ _ _ => rfl, rfl, fun hpos hle => absurd ⟨hpos, hle⟩ hnot⟩

/-- A ring with one update, its written records trimmed: what `trimSent` leaves of a ring. -/
theorem trimSent_facts (n m : Nat) (s : State) : Only [.sent] s (trimSent n m s) := Only.trimSent _ _ _ (by decide) (Only.refl _ _)

/-! ### Set-up writes (R109, R110, R500) -/

section
variable {who : Who} {n : TenantIx} {m : RingIx} {v : Word} {s : State}

theorem cqBaseWrite_mutable (h : cqMutable s n m = true) :
    cqBaseWrite who n m (~~~ 0) v s =
      trimSent n m (modCq n m (fun c => { c with base := Reg.write (.cqBase n m) c.base (~~~ 0) v, head := 0, tail := 0 }) s) := if_pos h

theorem cqBaseWrite_fixed (h : cqMutable s n m = false) : cqBaseWrite who n m (~~~ 0) v s = dropReg who (.cqBase n m) v s :=
  (if_neg (by rw [h]; decide)).trans (dropPiece_full _ _ _ _)

theorem cqCfgWrite_mutable (h : cqMutable s n m = true) :
    cqCfgWrite who n m (~~~ 0) v s = noticeDue n m (trimSent n m (modCq n m (fun c => { c with
      cfg := Reg.write (.cqCfg n m) (s.cq n m).cfg (~~~ 0) v, head := 0, tail := 0 }) s)) := if_pos h

theorem cqCfgWrite_sameSize (h : cqMutable s n m = false) (hsize : fld v 4 0 = (s.cq n m).k) :
    cqCfgWrite who n m (~~~ 0) v s =
      noticeDue n m (modCq n m (fun c => { c with cfg := Reg.write (.cqCfg n m) (s.cq n m).cfg (~~~ 0) v }) s) := by
  rw [cqCfgWrite, if_neg (by rw [h]; decide), merge_full, if_pos hsize]

theorem cqCfgWrite_otherSize (h : cqMutable s n m = false) (hsize : fld v 4 0 ≠ (s.cq n m).k) :
    cqCfgWrite who n m (~~~ 0) v s = dropReg who (.cqCfg n m) v s := by
  rw [cqCfgWrite, if_neg (by rw [h]; decide), merge_full, if_neg hsize, dropPiece_full]

/-! ### EN (R110) -/

theorem cqEnWrite_sets : cqEnWrite who n m (~~~ 0) 1 s = unstall n (modCq n m (fun c => { c with en := true }) s) := rfl

theorem cqEnWrite_disabled (hen : (s.cq n m).en = false) : cqEnWrite who n m (~~~ 0) 0 s = s := by
  rw [cqEnWrite, if_neg (by decide), if_neg (by decide), hen]
  rfl

theorem cqEnWrite_busy (hen : (s.cq n m).en = true) (h : (cqFed s n m || cqBusy s n m) = true) :
    cqEnWrite who n m (~~~ 0) 0 s = dropReg who (.cqCtl n m) 0 s := by
  rw [cqEnWrite, if_neg (by decide), if_neg (by decide), if_neg (by simp [hen]), if_pos (by simpa using h), dropPiece_full]

theorem cqEnWrite_clears (hen : (s.cq n m).en = true) (h : (cqFed s n m || cqBusy s n m) = false) :
    cqEnWrite who n m (~~~ 0) 0 s = modCq n m (fun c => { c with en := false }) s := by
  rw [cqEnWrite, if_neg (by decide), if_neg (by decide), if_neg (by simp [hen]), if_neg (by simpa using h)]

end

/-! ### Clearing of a fault (R122, R434) -/

section
variable {n m : Nat} {s : State}

theorem cqFaultClear_not (h : (s.cq n m).fault = false) : cqFaultClear n m s = s := by rw [cqFaultClear, h]; rfl

theorem cqFaultClear_none (h : (s.cq n m).rescued = []) : Only [.cqs] s (cqFaultClear n m s) ∧ OtherCqs n m s (cqFaultClear n m s) ∧
    (cqFaultClear n m s).cq n m = { s.cq n m with fault := false } := by
  cases hfault : (s.cq n m).fault with
  | false =>
    rw [cqFaultClear_not hfault]
    refine ⟨Only.refl _ _, fun _ _ _ => rfl, ?_⟩
    rw [← hfault]
  | true =>
    have hcopies : cqFaultClear n m s = modCq n m (fun c => { c with fault := false }) s := by
      rw [cqFaultClear, if_pos hfault, startCopies, modCq_cq_same, h]
      rfl
    rw [hcopies]
    exact modCq_facts _ _ _ _

/-- The first rescued record is read back at its place of the rescue area. -/
theorem cqFaultClear_reads {id place : Nat} {l : List (Nat × Nat)} {r : Req} (hrescued : (s.cq n m).rescued = (id, place) :: l)
    (hfault : (s.cq n m).fault = true) (hreq : s.req id = some r) (hphase : r.phase = .rescued place)
    (hcheck : check s s.gen.act none .secure .read (rescueAddr s n place) 32 = none) :
    cqFaultClear n m s = emitRd (rescueAddr s n place) 32 (modCq n m (fun c => { c with fault := false }) s) := by
  have hx : (modCq n m (fun c => { c with fault := false }) s).cq n m = { s.cq n m with fault := false } := modCq_cq_same _ _ _ _
  have haddr : rescueAddr (modCq n m (fun c => { c with fault := false }) s) n place = rescueAddr s n place := rfl
  have hcheck' : check (modCq n m (fun c => { c with fault := false }) s) (modCq n m (fun c => { c with fault := false }) s).gen.act none .secure .read
      (rescueAddr s n place) 32 = none := (check_congr rfl _ _ _ _ _ _).trans hcheck
  have hreq' : (modCq n m (fun c => { c with fault := false }) s).req id = some r := hreq
  rw [cqFaultClear, if_pos hfault, startCopies, hx]
  generalize modCq n m (fun c => { c with fault := false }) s = x at hx haddr hcheck' hreq' ⊢
  rw [show ({ s.cq n m with fault := false } : Cq).rescued.length = l.length + 1 by rw [← List.length_cons (a := (id, place)), ← hrescued], startCopy]
  dsimp only
  rw [hx]
  dsimp only
  rw [hrescued]
  dsimp only
  rw [if_neg (by decide), hreq']
  dsimp only
  rw [if_neg (by simp [hphase]), haddr, hcheck']

end

end Sys2Proof.Machine

namespace Sys2Proof.CompletionSetup
open Sys2Proof.Machine

/-- Settles O39: each write is one update of the ring, with the notice that `noticeDue` gives and the read of the first rescued record. -/
theorem completionRings : Obligations.CompletionRings := by
  unfold Obligations.CompletionRings
  refine ⟨?base, ?cfg, ?clear, ?enable, ?fault, ?timer⟩
  case base =>
    refine fun who n m v s htakes => ⟨fun h => ?_, fun h => ?_⟩
    · refine ⟨_, congrArg Host.Outcome.next ((gateW_takes htakes).trans (cqBaseWrite_mutable h)), ?_⟩
      obtain ⟨honly, hcqs, hcq⟩ := modCq_facts n m (fun c => { c with base := Reg.write (.cqBase n m) c.base (~~~ 0) v, head := 0, tail := 0 }) s
      generalize modCq n m _ s = x at honly hcqs hcq ⊢
      have htrim := trimSent_facts n m x
      have hsame (a b : Nat) : (trimSent n m x).cq a b = x.cq a b := rfl
      exact ⟨(honly.mono (by decide)).trans (htrim.mono (by decide)), fun a b h => (hsame a b).trans (hcqs a b h), (hsame n m).trans hcq⟩
    · exact ⟨_, congrArg Host.Outcome.next ((gateW_takes htakes).trans (cqBaseWrite_fixed h)), dropReg_dropped _ _ _ s⟩
  case cfg =>
    refine fun who n m v s htakes => ⟨fun h => ?_, fun h hsize => ?_, fun h hsize => ?_⟩
    · refine ⟨_, congrArg Host.Outcome.next ((gateW_takes htakes).trans (cqCfgWrite_mutable h)), ?_⟩
      obtain ⟨honly, hcqs, hcq⟩ := modCq_facts n m (fun c => { c with cfg := Reg.write (.cqCfg n m) (s.cq n m).cfg (~~~ 0) v, head := 0, tail := 0 }) s
      generalize modCq n m _ s = x at honly hcqs hcq ⊢
      have htrim := trimSent_facts n m x
      have hsame (a b : Nat) : (trimSent n m x).cq a b = x.cq a b := rfl
      obtain ⟨hnote, htens, hnoteCqs, hnoted, hev⟩ := noticeDue_facts n m (trimSent n m x)
      rw [hsame, hcq] at hnoted hev
      refine ⟨((honly.mono (by decide)).trans (htrim.mono (by decide))).trans (hnote.mono (by decide)), fun k hk => (htens k hk).trans ?_,
        fun a b h => (hnoteCqs a b h).trans ((hsame a b).trans (hcqs a b h)), hnoted, hev⟩
      exact (ten_of_tens (htrim.2 .tens (by decide)) k).trans (ten_of_tens (honly.2 .tens (by decide)) k)
    · refine ⟨_, congrArg Host.Outcome.next ((gateW_takes htakes).trans (cqCfgWrite_sameSize h hsize)), ?_⟩
      obtain ⟨honly, hcqs, hcq⟩ := modCq_facts n m (fun c => { c with cfg := Reg.write (.cqCfg n m) (s.cq n m).cfg (~~~ 0) v }) s
      generalize modCq n m _ s = x at honly hcqs hcq ⊢
      obtain ⟨hnote, htens, hnoteCqs, hnoted, hev⟩ := noticeDue_facts n m x
      rw [hcq] at hnoted hev
      exact ⟨(honly.mono (by decide)).trans hnote, fun k hk => (htens k hk).trans (ten_of_tens (honly.2 .tens (by decide)) k),
        fun a b h => (hnoteCqs a b h).trans (hcqs a b h), hnoted, hev⟩
    · exact ⟨_, congrArg Host.Outcome.next ((gateW_takes htakes).trans (cqCfgWrite_otherSize h hsize)), dropReg_dropped _ _ _ s⟩
  case clear =>
    refine fun who n m s htakes => ⟨fun hen => ?_, fun hen hbusy => ?_, fun hen hfree => ?_⟩
    · exact congrArg Host.Outcome.next ((gateW_takes htakes).trans (cqEnWrite_disabled hen))
    · exact ⟨_, congrArg Host.Outcome.next ((gateW_takes htakes).trans (cqEnWrite_busy hen hbusy)), dropReg_dropped _ _ _ s⟩
    · exact ⟨_, congrArg Host.Outcome.next ((gateW_takes htakes).trans (cqEnWrite_clears hen hfree)), modCq_facts _ _ _ s⟩
  case enable =>
    intro who n m s htakes
    obtain ⟨honly, -, hcq⟩ := modCq_facts n m (fun c => { c with en := true }) s
    refine ⟨_, congrArg Host.Outcome.next ((gateW_takes htakes).trans cqEnWrite_sets), ?_⟩
    generalize modCq n m _ s = x at honly hcq ⊢
    obtain ⟨hstalls, hunstall⟩ := unstall_facts n x
    obtain ⟨st, hst⟩ := hstalls n m
    rw [hst, hcq]
    exact ⟨honly.trans hunstall, rfl, rfl⟩
  case fault =>
    refine fun who n m s htakes => ⟨fun hfault => ?_, fun hnone => ?_, fun id place l r hrescued hfault hreq hphase hcheck => ?_⟩
    · exact congrArg Host.Outcome.next ((gateW_takes htakes).trans (cqFaultClear_not hfault))
    · exact ⟨_, congrArg Host.Outcome.next (gateW_takes htakes), cqFaultClear_none hnone⟩
    · refine ⟨_, congrArg Host.Outcome.next ((gateW_takes htakes).trans (cqFaultClear_reads hrescued hfault hreq hphase hcheck)), ?_⟩
      obtain ⟨honly, -, hcq⟩ := modCq_facts n m (fun c => { c with fault := false }) s
      have hout : (modCq n m (fun c => { c with fault := false }) s).out = s.out := rfl
      generalize modCq n m _ s = x at honly hcq hout ⊢
      have hread : Only [.out] x (emitRd (rescueAddr s n place) 32 x) := Only.emitRd _ _ _ (by decide) (Only.refl _ _)
      exact ⟨(honly.mono (by decide)).trans (hread.mono (by decide)), by rw [cq_of_only hread (by decide), hcq], emitRd_out2 _ _ _ _ hout⟩
  case timer =>
    intro n m s htimer htime
    obtain ⟨honly, -, hcqs, hev, hcq⟩ := notify_facts n m s
    exact ⟨_, congrArg Host.Outcome.next (whenS_true (by simp [htimer, htime])), honly, hcqs, hev, hcq⟩

end Sys2Proof.CompletionSetup
end

section
/-!
O53 fails: a gate that leaves a disputed operation without a voter writes a PAIR_VOTE record (R19, R420), and the notice of that record, when it
fails its check, clears AH_OWN_JRN_NOTICE.EN (R445), so that more of the owner's registers changes than the gate bit.
-/

namespace Sys2Proof.Gates
open Sys2Proof.Machine

/-- The owner, master 1 of the secure world. -/
def owner : Who := ⟨1, .secure, false⟩

/-- A request of tenant 0 whose cipher operation is in dispute on tiles 0 and 1, with no voter yet. -/
def disputing : Req := { id := 7, tenant := 0, origin := .ring 0, phase := .running, ops := [{ w := { opc := 0x21 }, phase := .running, tiles := [0, 1], disputed := true }] }

/-- A serving engine that the owner owns, every cipher tile gated, with the request in flight; notices of every type are enabled, and AH_ACC_DEFMAP
grants no privileged write, so that every notice fails its check. -/
def noVoterLeft : State :=
  let s : State := { State.reset with
    start := { State.reset.start with rst := false, osc := true, cleared := true, kat := true, fuses := true, serving := true, phase := 7 }
    owner := { st := .owned, mid := 1, cause := 1 }
    reqs := [disputing] }
  modOwn (fun o => { o with notice := 0xFF01 }) (modClk (fun c => { c with gated := 0xFFFF })
    (modGen (fun g => { g with act := s.setWord {} .accDefmap 1 }) s))

/-- The owner may gate tile 23, which is not gated. -/
theorem noVoterLeft_takes :
    Takes noVoterLeft owner .ownGate (noVoterLeft.own.gate ||| put (gateIx (.tile 23)) 1) ∧ bitOf noVoterLeft.own.gate (gateIx (.tile 23)) = false := by
  unfold Takes
  decide +kernel

/-- Gating tile 23 settles the request, whose record's notice fails: notices are disabled. -/
theorem noVoterLeft_noticeOff : (fxGateWrite owner (.tile 23) noVoterLeft).own.notice = 0xFF00 ∧ noVoterLeft.own.notice = 0xFF01 := by decide +kernel

/-- Refutes O53: gating a tile while a disputed operation has no voter left also clears EN of AH_OWN_JRN_NOTICE, where the statement has only the gate
bit change among the owner's registers. -/
theorem not_gates : ¬ Obligations.Gates := by
  unfold Obligations.Gates
  rintro ⟨hgates, -⟩
  obtain ⟨htakes, hbit⟩ := noVoterLeft_takes
  obtain ⟨hafter, hbefore⟩ := noVoterLeft_noticeOff
  obtain ⟨t, hexec, -, hown, -⟩ := (hgates owner (.tile 23) noVoterLeft htakes).2 hbit
  have ht : fxGateWrite owner (.tile 23) noVoterLeft = t := Host.Outcome.next.inj hexec
  have hkept : t.own.notice = noVoterLeft.own.notice := by rw [hown]
  rw [← ht, hafter, hbefore] at hkept
  exact absurd hkept (by decide)

end Sys2Proof.Gates
end

section
/-!
O49 fails: a frame that goes back with an uncorrectable error in the loan lists leaves a record (R342, R431), and the record's notice leaves the
block too (R445), so that more leaves than the return of the frame.
-/

namespace Sys2Proof.Frames
open Sys2Proof.Machine

/-- A request of tenant 0 that has ended; its buffer 0 is a frame of handle 0. -/
def returning : Req := { id := 7, tenant := 0, origin := .ring 0, phase := .ended, refs := [{ kind := kFrame }] }

/-- A serving engine with the request's frame on loan and the notice ring enabled for every type of record. -/
def noticing : State :=
  let s : State := { State.reset with
    start := { State.reset.start with rst := false, osc := true, cleared := true, kat := true, fuses := true, serving := true, phase := 7 }
    reqs := [returning] }
  modOwn (fun o => { o with notice := 0xFF01 }) (modFp (fun f => { f with loans := [⟨7, 0, 0, 0, 1⟩] }) s)

theorem noticing_meets : noticing.req 7 = some returning ∧ returning.fencesIn = true ∧ (0 : Fin 8).val ∈ returning.frames ∧
    noticing.fp.loans.any (fun l => decide (l.req = 7) && decide (l.handle = (returning.ref (0 : Fin 8).val).handle)) = true := by decide +kernel

/-- Two writes of the notice leave before the return of the frame. -/
theorem noticing_out : (fxFrameReturn 7 0 .uncorrectable noticing).out.length = 3 ∧ noticing.out = [] := by decide +kernel

/-- Refutes O49: with notices enabled, an uncorrectable error in the loan lists leaves more than the return of the frame. -/
theorem not_frames : ¬ Obligations.Frames := by
  unfold Obligations.Frames
  rintro ⟨-, -, hreturns, -⟩
  obtain ⟨hreq, hfences, hframe, hloan⟩ := noticing_meets
  obtain ⟨hout, hnone⟩ := noticing_out
  obtain ⟨-, hue, -⟩ := hreturns 7 0 returning noticing hreq rfl hframe
  obtain ⟨t, hexec, -, hone, -⟩ := hue hfences hloan
  have ht : fxFrameReturn 7 0 .uncorrectable noticing = t := Host.Outcome.next.inj hexec
  rw [ht, hone, hnone] at hout
  exact absurd hout (by decide)

end Sys2Proof.Frames
end

section
/-!
The entropy source and the generators (R281 to R288): what a sample, a failure of a test, a block and a draw leave, with the statements O43 and
O44.
-/

namespace Sys2Proof.Machine

/-! ### The source (R281 to R284) -/

theorem esRecord_seq (unit cause : Nat) (s : State) : (esRecord unit cause s).jrn.seq = s.jrn.seq + 1 := journal_seq _ _ _ s

theorem journalUe_seq (c loc : Nat) (s : State) : (journalUe c loc s).jrn.seq = s.jrn.seq + 1 := journal_seq _ _ _ s

/-- The source after a failure of a test (R282). -/
def failedEs (rct : Bool) (e : Entropy) : Entropy :=
  let dead := decide (e.st = .recovering) && decide (2 ≤ e.fails)
  { esFresh e with
    rctFails := if rct then e.rctFails.bump else e.rctFails
    aptFails := if rct then e.aptFails else e.aptFails.bump
    fails := e.fails + 1
    samples := if dead then [] else e.samples.take (e.samples.length / esBlock * esBlock)
    st := if dead then .failed else .recovering }

theorem failedEs_dead {rct : Bool} {e : Entropy} (h : e.st = .recovering ∧ 2 ≤ e.fails) : (failedEs rct e).st = .failed := if_pos (by simpa using h)

theorem failedEs_live {rct : Bool} {e : Entropy} (h : ¬ (e.st = .recovering ∧ 2 ≤ e.fails)) : (failedEs rct e).st = .recovering :=
  if_neg fun hand => h (by simpa using hand)

/-- What a sample that passes both tests makes of the source (R281 to R284). -/
theorem esPass_facts (raw bit : Bool) (e : Entropy) :
    let startup := e.st = .starting ∨ e.st = .recovering
    (esPass raw bit e).rctFails = e.rctFails ∧ (esPass raw bit e).aptFails = e.aptFails ∧ (esPass raw bit e).pool = e.pool ∧
      (startup → e.tested + 1 = 1024 → (esPass raw bit e).st = .healthy) ∧
      (startup → e.tested + 1 ≠ 1024 → (esPass raw bit e).st = e.st ∧ (esPass raw bit e).tested = e.tested + 1) ∧
      (¬startup → (esPass raw bit e).st = e.st ∧ (esPass raw bit e).samples = if raw then e.samples else e.samples ++ [bit]) := by
  intro startup
  unfold esPass
  split
  next hstart =>
    split
    next hfull => exact ⟨rfl, rfl, rfl, fun _ _ => rfl, fun _ h => absurd hfull h, fun h => absurd hstart h⟩
    next hmore => exact ⟨rfl, rfl, rfl, fun _ h => absurd h hmore, fun _ _ => ⟨rfl, rfl⟩, fun h => absurd hstart h⟩
  next hnot =>
    split
    next hraw => exact ⟨rfl, rfl, rfl, fun h => absurd h hnot, fun h => absurd h hnot, fun _ => ⟨rfl, rfl⟩⟩
    next hraw => exact ⟨rfl, rfl, rfl, fun h => absurd h hnot, fun h => absurd h hnot, fun _ => ⟨rfl, rfl⟩⟩

/-- A failure is recorded once, and entry to FAILED once more, with its event (R282). -/
theorem esFailure_facts (rct : Bool) (s : State) :
    let dead := s.es.st = .recovering ∧ 2 ≤ s.es.fails
    Only (.es :: recordParts) s (esFailure rct s) ∧ (esFailure rct s).es = failedEs rct s.es ∧
      (dead → bitOf (esFailure rct s).evPend gEsFail = true ∧ (esFailure rct s).jrn.seq = s.jrn.seq + 2) ∧
      (¬dead → (esFailure rct s).jrn.seq = s.jrn.seq + 1) := by
  intro dead
  refine ⟨Only.esFailure _ _ (by decide) (Only.refl _ _), ?_, fun hdead => ?_, fun hdead => ?_⟩ <;> unfold esFailure <;> dsimp only
  · generalize (if decide (s.es.st = .starting ∨ s.es.st = .recovering) = true then 2 else if rct = true then 0 else 1) = cause
    have hes (x : State) (c d : Nat) : (esRecord c d x).es = x.es := (Only.esRecord c d x (List.Subset.refl _) (Only.refl _ _)).2 .es (by decide)
    split
    next hdead =>
      rw [raiseG_es, hes, hes, modEs_es]
      simp only [failedEs, hdead, if_true]
    next hdead =>
      rw [hes, modEs_es]
      simp only [failedEs, hdead, Bool.false_eq_true, if_false]
  · rw [if_pos (by simpa using hdead)]
    refine ⟨raiseG_bit _ _ (by decide), ?_⟩
    rw [raiseG_jrn, esRecord_seq, esRecord_seq, BitVec.add_assoc]
    rfl
  · rw [if_neg (fun h => hdead (by simpa using h)), esRecord_seq]
    rfl

/-- A sample is at hand: the read of the raw samples takes it, and both tests advance (R281, R284). -/
def sampled (bit : Bool) (s : State) : State :=
  modEs (esAdvance bit) (if rawOn s then modEs (fun e => { e with raw := (e.raw ++ [bit]).take 32 }) s else s)

/-- Whatever the read of the raw samples takes, the tests see the same. -/
theorem sampled_facts (bit : Bool) (s : State) :
    Only [.es] s (sampled bit s) ∧ ∃ raw, (sampled bit s).es = { esAdvance bit s.es with raw := raw } := by
  unfold sampled
  split
  · exact ⟨Only.modEs _ (by decide) (Only.modEs _ (by decide) (Only.refl _ _)), _, rfl⟩
  · exact ⟨Only.modEs _ (by decide) (Only.refl _ _), _, rfl⟩

section
variable {bit : Bool} {s : State} (hosc : s.start.osc = true)
include hosc

theorem fxEntropySample_failed (hst : s.es.st = .failed) :
    fxEntropySample bit s = if rawOn s then modEs (fun e => { e with raw := (e.raw ++ [bit]).take 32 }) s else s := by
  rw [fxEntropySample, whenS_true hosc]
  exact if_pos hst

theorem fxEntropySample_tests (hst : s.es.st ≠ .failed) :
    fxEntropySample bit s =
      if 41 ≤ (sampled bit s).es.run then esFailure true (sampled bit s)
      else if 800 ≤ (sampled bit s).es.winSame then esFailure false (sampled bit s)
      else modEs (esPass (rawOn s) bit) (sampled bit s) := by
  rw [fxEntropySample, whenS_true hosc]
  exact if_neg hst

end

/-! ### Pool blocks and generators (R283 to R287) -/

theorem rbg_of_only {A : List Part} {s t : State} (h : Only A s t) (hA : Part.rbgs ∉ A) (k : Nat) : t.rbg k = s.rbg k := by
  rw [State.rbg, State.rbg, show t.rbgs = s.rbgs from h.2 .rbgs hA]

theorem rbgPers_congr {s t : State} (h : t.roots = s.roots) (k : Nat) : rbgPers t k = rbgPers s k := by rw [rbgPers, rbgPers, h]

section
variable {k : Nat} {s : State}

theorem reseed_takes {b : Bytes} {l : List Bytes} (h : s.es.pool = b :: l) :
    reseed k s = modRbg k (fun g => g.seed (rbgPers s k) b) (modEs (fun e => { e with pool := l }) s) := by rw [reseed, h]

theorem reseed_starves (h : s.es.pool = []) (hst : (s.rbg k).st ≠ .starved) :
    reseed k s = raiseG gRbgStarved (modRbg k (fun g => { g with st := .starved }) s) := by
  rw [reseed, h]
  exact if_neg hst

theorem reseed_starved (h : s.es.pool = []) (hst : (s.rbg k).st = .starved) : reseed k s = s := by
  rw [reseed, h]
  exact if_pos hst

theorem readBlock_empty (ecc : Ecc) (h : s.es.pool = []) : readBlock ecc s = s := by
  cases ecc with
  | clean => rfl
  | corrected => exact if_pos h
  | uncorrectable => exact if_pos h

theorem readBlock_bad {b : Bytes} {l : List Bytes} (h : s.es.pool = b :: l) :
    readBlock .uncorrectable s = journalUe 10 0 (modEs (fun e => { e with pool := l }) s) := by
  rw [readBlock, if_neg (by rw [h]; exact List.cons_ne_nil _ _), modEs, modEs, h, List.drop_one, List.tail_cons]

/-- A generator fails: its state goes, with one record and its event (R287). -/
theorem rbgFail_facts (k cause : Nat) (s : State) :
    Only (.rbgs :: recordParts) s (rbgFail k cause s) ∧ (rbgFail k cause s).rbg k = { st := .failed } ∧ bitOf (rbgFail k cause s).evPend gRbgFail = true ∧
      (rbgFail k cause s).jrn.seq = s.jrn.seq + 1 ∧ ∀ j, j ≠ k → (rbgFail k cause s).rbg j = s.rbg j := by
  have hrbg (x : State) (j : Nat) : (esRecord k cause x).rbg j = x.rbg j := rbg_of_only (Only.esRecord k cause x (List.Subset.refl _) (Only.refl _ _)) (by decide) j
  refine ⟨Only.rbgFail _ _ _ (by decide) (Only.refl _ _), ?_, Pend.esRecord _ _ _ (raiseG_bit _ _ (by decide)), ?_, fun j hj => ?_⟩
  · rw [rbgFail, hrbg, raiseG_rbg, modRbg_rbg_same]
  · rw [rbgFail, esRecord_seq]
    rfl
  · rw [rbgFail, hrbg, raiseG_rbg, modRbg_rbg_ne _ _ hj]

/-! ### Generate calls (R286, R288) -/

theorem reseed_rbg_ne {j : Nat} (h : j ≠ k) (s : State) : (reseed k s).rbg j = s.rbg j := by
  unfold reseed
  split
  · split
    · rfl
    · exact (raiseG_rbg _ _ _).trans (modRbg_rbg_ne _ _ h)
  · exact (modRbg_rbg_ne _ _ h).trans (modEs_rbg _ _ _)

theorem reseedRead_rbg_ne {j : Nat} (h : j ≠ k) : (reseedRead k s).rbg j = s.rbg j := by
  have hread (ecc : Ecc) : (readBlock ecc s).rbg j = s.rbg j := rbg_of_only (Only.readBlock ecc s (List.Subset.refl _) (Only.refl _ _)) (by decide) j
  exact (reseed_rbg_ne h _).trans (hread _)

variable {n : Nat} {add : Bytes} {pr : Bool}

/-- Without a HEALTHY generator nothing is drawn. -/
theorem generateAdd_none {l : List Nat} (h : ∀ j ∈ l, (s.rbg j).st ≠ .healthy) : generateAdd pr n add l s = (none, s) := by
  induction l with
  | nil => rfl
  | cons j l ih =>
    rw [generateAdd, if_pos (h j (List.mem_cons_self ..))]
    exact ih fun i hi => h i (List.mem_cons_of_mem _ hi)

/-- Generators that are not HEALTHY are passed over. -/
theorem generateAdd_skip {l l2 : List Nat} (h : ∀ j ∈ l, (s.rbg j).st ≠ .healthy) : generateAdd pr n add (l ++ l2) s = generateAdd pr n add l2 s := by
  induction l with
  | nil => rfl
  | cons j l ih =>
    rw [List.cons_append, generateAdd, if_pos (h j (List.mem_cons_self ..))]
    exact ih fun i hi => h i (List.mem_cons_of_mem _ hi)

/-- A draw leaves every generator that is not HEALTHY as it is. -/
theorem generateAdd_rbg (l : List Nat) {s : State} (h : (s.rbg k).st ≠ .healthy) : (generateAdd pr n add l s).2.rbg k = s.rbg k := by
  induction l generalizing s with
  | nil => rfl
  | cons j l ih =>
    rw [generateAdd]
    split
    next => exact ih h
    next hj =>
      have hne : k ≠ j := fun hkj => h (by rw [hkj]; exact not_not.mp hj)
      have hread : (if (pr || decide (65536 ≤ (s.rbg j).calls)) = true then reseedRead j s else s).rbg k = s.rbg k := by
        split
        · exact reseedRead_rbg_ne hne
        · rfl
      generalize (if (pr || decide (65536 ≤ (s.rbg j).calls)) = true then reseedRead j s else s) = x at hread
      dsimp only
      split
      · exact (ih (by rwa [hread])).trans hread
      split
      · obtain ⟨-, -, -, -, hfail⟩ := rbgFail_facts j 5 x
        exact (ih (by rwa [hfail k hne, hread])).trans ((hfail k hne).trans hread)
      · exact (modRbg_rbg_ne _ _ hne).trans hread

/-- The first HEALTHY generator serves the draw where neither a reseed is due nor blocks are equal (R286). -/
theorem generateAdd_draws {l : List Nat} (hst : (s.rbg k).st = .healthy) (hcalls : (s.rbg k).calls = 0)
    (hdiffer : equalBlocks (ceilDiv n 16) (s.rbg k).last ((s.rbg k).draw n add).1 = false) :
    generateAdd false n add (k :: l) s = (some (((s.rbg k).draw n add).1.take n), modRbg k (fun _ => ((s.rbg k).draw n add).2) s) := by
  have hfresh : ¬ (false || decide (65536 ≤ (s.rbg k).calls)) = true := by simp [hcalls]
  rw [generateAdd, if_neg (by rw [hst]; decide)]
  dsimp only
  rw [if_neg hfresh, if_neg (by rw [hst]; decide), hdiffer]
  rfl

end

/-! ### The draw of K_tag (R255, R288) -/

section
variable {s : State}

theorem drawTag_not (h : s.ks.kTag.isSome = true ∨ (s.rbg 0).st = .uninit) : drawTag s = s := if_pos (by simpa using h)

theorem drawTag_none (h : ∀ j, j < 4 → (s.rbg j).st ≠ .healthy) : drawTag s = s := by
  have hnone : generate 32 (genOrder 0) s = (none, s) := generateAdd_none fun j hj => h j (by
    simp only [genOrder, List.mem_map, List.mem_range] at hj
    omega)
  rw [drawTag, hnone]
  split <;> rfl

theorem drawTag_rbg {k : Nat} (h : (s.rbg k).st ≠ .healthy) : (drawTag s).rbg k = s.rbg k := by
  have hkept : (generate 32 (genOrder 0) s).2.rbg k = s.rbg k := generateAdd_rbg _ h
  unfold drawTag
  split
  · rfl
  · split <;> rename_i heq <;> rw [heq] at hkept <;> exact hkept

theorem Pend.drawTag {e : Nat} (h : Pend e s) : Pend e (Machine.drawTag s) := by
  have hkept := Pend.generate 32 (genOrder 0) s h
  unfold Machine.drawTag
  split
  · exact h
  · split <;> rename_i heq <;> rw [heq] at hkept <;> exact hkept

/-- K_tag is drawn from the first HEALTHY generator. -/
theorem drawTag_draws {k : Fin 4} (htag : s.ks.kTag = none) (hinit : (s.rbg 0).st ≠ .uninit) (hbefore : ∀ j, j < k.val → (s.rbg j).st ≠ .healthy)
    (hst : (s.rbg k.val).st = .healthy) (hcalls : (s.rbg k.val).calls = 0)
    (hdiffer : equalBlocks 2 (s.rbg k.val).last ((s.rbg k.val).draw 32 []).1 = false) :
    drawTag s = modKs (fun ks => { ks with kTag := some (((s.rbg k.val).draw 32 []).1.take 32) })
      (modRbg k.val (fun _ => ((s.rbg k.val).draw 32 []).2) s) := by
  obtain ⟨l, hl⟩ : ∃ l, genOrder 0 = List.range k.val ++ k.val :: l := by
    fin_cases k
    all_goals exact ⟨_, rfl⟩
  have hdraw : generate 32 (genOrder 0) s = (some (((s.rbg k.val).draw 32 []).1.take 32), modRbg k.val (fun _ => ((s.rbg k.val).draw 32 []).2) s) := by
    rw [generate, hl, generateAdd_skip fun j hj => hbefore j (List.mem_range.mp hj), generateAdd_draws hst hcalls (by exact hdiffer)]
  rw [drawTag, if_neg (by simp [htag, hinit]), hdraw]

end

/-! ### Blocks of the source and reads of raw samples (R283, R284) -/

theorem fxEntropyBlock_not {ecc : Ecc} {s : State} (h : s.es.st = .failed ∨ rawOn s = true) : fxEntropyBlockConditioned ecc s = s := by
  refine whenS_false ?_
  rcases h with h | h <;> simp [h]

/-- A block of tested samples leaves those in progress. -/
def blockTaken (s : State) : State := modEs (fun e => { e with samples := e.samples.drop esBlock, fails := 0 }) s

/-- The conditioned block enters the pool while it holds fewer than 8. -/
def pooled (s : State) : State :=
  if (blockTaken s).es.pool.length < 8 then modEs (fun e => { e with pool := e.pool ++ [conditioned (s.es.samples.take esBlock)] }) (blockTaken s)
  else blockTaken s

section
variable {s : State} (hlen : 1024 ≤ s.es.samples.length) (hst : s.es.st ≠ .failed) (hraw : rawOn s = false)
include hlen hst hraw

theorem blockReady : (decide (esBlock ≤ s.es.samples.length) && decide (s.es.st ≠ .failed) && !rawOn s) = true := by
  rw [decide_eq_true (p := esBlock ≤ s.es.samples.length) hlen, decide_eq_true hst, hraw]
  rfl

theorem fxEntropyBlock_ue : fxEntropyBlockConditioned .uncorrectable s = journalUe 10 0 (blockTaken s) := by
  rw [fxEntropyBlockConditioned, whenS_true (blockReady hlen hst hraw)]
  rfl

theorem fxEntropyBlock_pooled (hnone : ∀ k, k < 4 → (s.rbg k).st ≠ .starved) : fxEntropyBlockConditioned .clean s = pooled s := by
  have hfind : (List.range 4).find? (fun k => !s.sup.active && decide ((s.rbg k).st = .starved)) = none := by
    rw [List.find?_eq_none]
    intro k hk
    simp [hnone k (List.mem_range.mp hk)]
  rw [fxEntropyBlockConditioned, whenS_true (blockReady hlen hst hraw)]
  dsimp only
  rw [hfind]
  rfl

theorem fxEntropyBlock_starved {k : Nat} (hk : k < 4) (hsup : s.sup.active = false) (hstarved : (s.rbg k).st = .starved)
    (hbefore : ∀ j, j < k → (s.rbg j).st ≠ .starved) : fxEntropyBlockConditioned .clean s = reseedRead k (pooled s) := by
  have hfind : (List.range 4).find? (fun k => !s.sup.active && decide ((s.rbg k).st = .starved)) = some k := by
    rw [List.find?_range_eq_some]
    exact ⟨by simp [hsup, hstarved], List.mem_range.mpr hk, fun j hj => by simp [hbefore j hj]⟩
  rw [fxEntropyBlockConditioned, whenS_true (blockReady hlen hst hraw)]
  dsimp only
  rw [hfind]
  rfl

end

theorem pooled_empty {s : State} (h : s.es.pool = []) :
    pooled s = modEs (fun e => { e with pool := [conditioned (s.es.samples.take esBlock)] }) (blockTaken s) := by
  have hpool : (blockTaken s).es.pool = [] := h
  rw [pooled, if_pos (by rw [hpool]; decide), modEs, modEs, hpool]
  rfl

theorem pooled_facts (s : State) :
    Only [.es] s (pooled s) ∧ (pooled s).es.fails = 0 ∧ (pooled s).es.samples = s.es.samples.drop esBlock ∧
      (pooled s).es.pool = if s.es.pool.length < 8 then s.es.pool ++ [conditioned (s.es.samples.take esBlock)] else s.es.pool := by
  have htaken : Only [.es] s (blockTaken s) := Only.modEs _ (by decide) (Only.refl _ _)
  unfold pooled
  rw [show (blockTaken s).es.pool = s.es.pool from rfl]
  split
  · exact ⟨Only.modEs _ (by decide) htaken, rfl, rfl, rfl⟩
  · exact ⟨htaken, rfl, rfl, rfl⟩

theorem fxRbgReseed_clean {k : Fin 4} {block : Ecc} {s : State} (hsup : s.sup.active = false)
    (hst : (s.rbg k.val).st = .healthy ∨ (s.rbg k.val).st = .starved) : fxRbgReseed k .clean block s = reseed k.val (readBlock block s) := by
  rw [fxRbgReseed, whenS_true (by rw [hsup, decide_eq_true hst]; rfl)]

theorem fxRbgReseed_ue {k : Fin 4} {block : Ecc} {s : State} (hsup : s.sup.active = false)
    (hst : (s.rbg k.val).st = .healthy ∨ (s.rbg k.val).st = .starved) :
    fxRbgReseed k .uncorrectable block s = rbgFail k.val 6 (journalUe 10 k.val s) := by
  rw [fxRbgReseed, whenS_true (by rw [hsup, decide_eq_true hst]; rfl)]

section
variable {k : Fin 4} {block : Ecc} {s : State} (hfuses : s.start.fuses = true) (hsup : s.sup.active = false) (hst : (s.rbg k.val).st = .uninit)
include hfuses hsup hst

theorem fxRbgInstantiate_fails : fxRbgInstantiate k false block s = drawTag (rbgFail k.val 4 s) := by
  rw [fxRbgInstantiate, whenS_true (by rw [hfuses, hsup, hst]; rfl)]
  rfl

theorem fxRbgInstantiate_waits (hpool : s.es.pool = []) : fxRbgInstantiate k true block s = s := by
  rw [fxRbgInstantiate, whenS_true (by rw [hfuses, hsup, hst]; rfl), if_neg (by decide), readBlock_empty _ hpool]
  exact if_pos hpool

theorem fxRbgInstantiate_seeds {b : Bytes} {l : List Bytes} (hpool : s.es.pool = b :: l) :
    fxRbgInstantiate k true .clean s =
      drawTag (modRbg k.val (fun g => g.seed (rbgPers s k.val) b) (modEs (fun e => { e with pool := l }) s)) := by
  rw [fxRbgInstantiate, whenS_true (by rw [hfuses, hsup, hst]; rfl), if_neg (by decide), readBlock]
  dsimp only
  rw [if_neg (by rw [hpool]; exact List.cons_ne_nil _ _), reseed_takes hpool]

end

theorem gateR_readable {who : Who} {r : Reg} {f : State → State} {s : State} (hdbg : who.dbg = false) (hread : readable s who r = true) :
    gateR who r f s = f s := by
  rw [gateR, if_pos hread, debugRead, hdbg]
  simp

end Sys2Proof.Machine

namespace Sys2Proof.Entropy
open Sys2Proof.Machine

/-- Settles O43: `esFailure_facts` for a failing sample, `pooled` for a block, and each other command by its own equation. -/
theorem entropySource : Obligations.EntropySource := by
  unfold Obligations.EntropySource
  refine ⟨?sample, ?failed, ?idle, ?block, ?restart, ?raw⟩
  case sample =>
    intro bit s hosc hst e startup dead
    obtain ⟨honly, raw, hes⟩ := sampled_facts bit s
    have htests := fxEntropySample_tests (bit := bit) hosc hst
    have hjrn : (sampled bit s).jrn = s.jrn := honly.jrn (by decide)
    rw [hes] at htests
    refine ⟨fun hrun => ?_, fun hrun hsame => ?_, fun hrun hsame => ?_⟩
    · rw [if_pos hrun] at htests
      obtain ⟨hfail, hfailed, hdead, hlive⟩ := esFailure_facts true (sampled bit s)
      rw [hes] at hfailed hdead hlive
      rw [hjrn] at hdead hlive
      refine ⟨_, congrArg Host.Outcome.next htests, (honly.mono (by decide)).trans hfail, by rw [hfailed]; rfl, by rw [hfailed]; rfl, by rw [hfailed]; rfl,
        fun h => ⟨?_, hdead h⟩, fun h => ⟨?_, hlive h⟩⟩
      · rw [hfailed]
        exact failedEs_dead h
      · rw [hfailed]
        exact failedEs_live h
    · rw [if_neg (Nat.not_le.mpr hrun), if_pos hsame] at htests
      obtain ⟨hfail, hfailed, hdead, hlive⟩ := esFailure_facts false (sampled bit s)
      rw [hes] at hfailed hdead hlive
      rw [hjrn] at hdead hlive
      refine ⟨_, congrArg Host.Outcome.next htests, (honly.mono (by decide)).trans hfail, by rw [hfailed]; rfl, by rw [hfailed]; rfl, by rw [hfailed]; rfl,
        fun h => ⟨?_, hdead h⟩, fun h => ⟨?_, hlive h⟩⟩
      · rw [hfailed]
        exact failedEs_dead h
      · rw [hfailed]
        exact failedEs_live h
    · rw [if_neg (Nat.not_le.mpr hrun), if_neg (Nat.not_le.mpr hsame)] at htests
      have hpass := esPass_facts (rawOn s) bit { esAdvance bit s.es with raw := raw }
      refine ⟨_, congrArg Host.Outcome.next htests, Only.modEs _ (by decide) honly, ?_⟩
      rw [modEs_es, hes]
      exact hpass
  case failed =>
    intro bit s hosc hst
    refine ⟨_, congrArg Host.Outcome.next (fxEntropySample_failed hosc hst), ?_⟩
    split
    · exact ⟨Only.modEs _ (by decide) (Only.refl _ _), hst, rfl, rfl⟩
    · exact ⟨Only.refl _ _, hst, rfl, rfl⟩
  case idle => exact fun ecc s h => congrArg Host.Outcome.next (fxEntropyBlock_not h)
  case block =>
    intro s hlen hst hraw block
    refine ⟨fun hnone => ?_, fun k hk hsup hstarved hbefore hpool => ?_, ?_⟩
    · exact ⟨_, congrArg Host.Outcome.next (fxEntropyBlock_pooled hlen hst hraw hnone), pooled_facts s⟩
    · have hreseed := fxEntropyBlock_starved hlen hst hraw hk hsup hstarved hbefore
      obtain ⟨honly, hfails, hsamples, hpooled⟩ := pooled_facts s
      rw [hpool, if_pos (by decide), List.nil_append] at hpooled
      rw [reseedRead, hpooled] at hreseed
      refine ⟨fun hgood => ?_, fun hbad => ?_⟩
      · rw [show ((([conditioned (s.es.samples.take esBlock)].head?.map Config.blockBad).getD false) = false) from hgood, if_neg (by decide), readBlock,
          reseed_takes hpooled, rbgPers_congr (show (pooled s).roots = s.roots from honly.2 .roots (by decide))] at hreseed
        refine ⟨_, congrArg Host.Outcome.next hreseed, Only.modRbg _ _ (by decide) (Only.modEs _ (by decide) (honly.mono (by decide))), rfl, hfails, hsamples, ?_,
          fun j hj => (modRbg_rbg_ne _ _ hj).trans ((modEs_rbg _ _ _).trans (rbg_of_only honly (by decide) j))⟩
        rw [modRbg_rbg_same, modEs_rbg, rbg_of_only honly (by decide)]
        rfl
      · rw [show ((([conditioned (s.es.samples.take esBlock)].head?.map Config.blockBad).getD false) = true) from hbad, if_pos rfl,
          readBlock_bad hpooled] at hreseed
        have hrecord : Only recordParts (modEs (fun e => { e with pool := [] }) (pooled s))
          (journalUe 10 0 (modEs (fun e => { e with pool := [] }) (pooled s))) := Only.journalUe _ _ _ (by decide) (Only.refl _ _)
        have htaken : Only [.es] s (modEs (fun e => { e with pool := [] }) (pooled s)) := Only.modEs _ (by decide) honly
        have hes : (modEs (fun e => { e with pool := [] }) (pooled s)).es = { (pooled s).es with pool := [] } := rfl
        generalize modEs (fun e => { e with pool := [] }) (pooled s) = x at hrecord htaken hes hreseed
        have hesU : (journalUe 10 0 x).es = x.es := hrecord.2 .es (by decide)
        have hrbg (j : Nat) : (journalUe 10 0 x).rbg j = s.rbg j := (rbg_of_only hrecord (by decide) j).trans (rbg_of_only htaken (by decide) j)
        rw [reseed_starved (by rw [hesU, hes]) (by rw [hrbg, hstarved])] at hreseed
        refine ⟨_, congrArg Host.Outcome.next hreseed, (htaken.mono (by decide)).trans (hrecord.mono (by decide)), ?_⟩
        rw [hesU, hes, journalUe_seq, htaken.jrn (by decide)]
        exact ⟨rfl, hfails, hsamples, hrbg, rfl⟩
    · have hrecord : Only recordParts (blockTaken s) (journalUe 10 0 (blockTaken s)) := Only.journalUe _ _ _ (by decide) (Only.refl _ _)
      have hes : (journalUe 10 0 (blockTaken s)).es = (blockTaken s).es := hrecord.2 .es (by decide)
      refine ⟨_, congrArg Host.Outcome.next (fxEntropyBlock_ue hlen hst hraw), Only.journalUe _ _ _ (by decide) (Only.modEs _ (by decide) (Only.refl _ _)), ?_⟩
      rw [hes, journalUe_seq]
      exact ⟨rfl, rfl, rfl⟩
  case restart =>
    intro who s htakes
    refine ⟨fun hst => ?_, fun hst => ?_⟩
    · exact ⟨_, congrArg Host.Outcome.next ((gateW_takes htakes).trans (if_pos hst)), Only.modEs _ (by decide) (Only.refl _ _), rfl, rfl⟩
    · exact congrArg Host.Outcome.next ((gateW_takes htakes).trans (if_neg hst))
  case raw =>
    intro who s hdbg hread
    have hraw := gateR_readable (f := rawRead who id) hdbg hread
    refine ⟨fun hoff => ?_, fun hon hlen => ?_, fun hon hlen => ?_⟩
    · exact ⟨_, congrArg Host.Outcome.next (hraw.trans (by rw [rawRead, hoff]; rfl)), Only.emit _ (by decide) (Only.refl _ _), rfl⟩
    · have hfull : rawRead who id s = emit (.cfgRd who (BitVec.ofNat 64 (bitsNat s.es.raw))) (modEs (fun e => { e with raw := [] }) s) := by
        rw [rawRead, hon, if_neg (by decide), if_neg (by omega)]
        rfl
      exact ⟨_, congrArg Host.Outcome.next (hraw.trans hfull), Only.emit _ (by decide) (Only.modEs _ (by decide) (Only.refl _ _)), rfl, rfl⟩
    · exact congrArg Host.Outcome.next (hraw.trans (by rw [rawRead, hon, if_neg (by decide), if_pos hlen]))

/-- Settles O44: a reseed and a draw by the cases of `reseed`, `readBlock` and `drawTag`, a failure by `rbgFail_facts`. -/
theorem generators : Obligations.Generators := by
  unfold Obligations.Generators
  refine ⟨fun k ecc block katOk s hsup => ?_, fun k block s hsup hst => ?_, fun k katOk block s hfuses => ?_, fun k block s hfuses hsup hst => ?_,
    fun who k s htakes => ?_⟩
  · exact ⟨congrArg Host.Outcome.next (whenS_false (by rw [hsup]; rfl)), congrArg Host.Outcome.next (whenS_false (by rw [hsup, Bool.and_comm]; simp))⟩
  · have hreseed (block : Ecc) := fxRbgReseed_clean (block := block) hsup hst
    refine ⟨fun b l hpool => ?_, fun b c l hpool => ?_, fun hpool => ?_, ?_⟩
    · refine ⟨_, congrArg Host.Outcome.next ((hreseed .clean).trans (reseed_takes hpool)),
        Only.modRbg _ _ (by decide) (Only.modEs _ (by decide) (Only.refl _ _)), rfl, modRbg_rbg_same _ _ _, ?_, fun j hj => modRbg_rbg_ne _ _ hj⟩
      rw [modRbg_rbg_same]
      rfl
    · have hread := hreseed .uncorrectable
      rw [readBlock_bad hpool] at hread
      have htaken : Only [.es] s (modEs (fun e => { e with pool := c :: l }) s) := Only.modEs _ (by decide) (Only.refl _ _)
      have hes : (modEs (fun e => { e with pool := c :: l }) s).es = { s.es with pool := c :: l } := rfl
      generalize modEs (fun e => { e with pool := c :: l }) s = x at htaken hes hread
      have hrecord : Only recordParts x (journalUe 10 0 x) := Only.journalUe _ _ _ (by decide) (Only.refl _ _)
      have hesU : (journalUe 10 0 x).es = { s.es with pool := c :: l } := (hrecord.2 .es (by decide)).trans hes
      have hroots : (journalUe 10 0 x).roots = s.roots := (hrecord.2 .roots (by decide)).trans (htaken.2 .roots (by decide))
      have hrbg : (journalUe 10 0 x).rbg k = s.rbg k := (rbg_of_only hrecord (by decide) k).trans (rbg_of_only htaken (by decide) k)
      have hseq : (journalUe 10 0 x).jrn.seq = s.jrn.seq + 1 := by rw [journalUe_seq, htaken.jrn (by decide)]
      rw [reseed_takes (b := c) (l := l) (by rw [hesU]), rbgPers_congr hroots] at hread
      refine ⟨_, congrArg Host.Outcome.next hread, Only.modRbg _ _ (by decide) (Only.modEs _ (by decide)
        ((htaken.mono (by decide)).trans (hrecord.mono (by decide)))), ?_, ?_, hseq⟩
      · rw [modRbg_es, modEs_es, hesU]
      · rw [modRbg_rbg_same, modEs_rbg, hrbg]
    · have hread := hreseed block
      rw [readBlock_empty block hpool] at hread
      by_cases hstarved : (s.rbg k.val).st = .starved
      · rw [reseed_starved hpool hstarved] at hread
        exact ⟨_, congrArg Host.Outcome.next hread, Only.refl _ _, hstarved, fun h => absurd (hstarved.symm.trans h) (by decide), fun _ _ => rfl⟩
      · rw [reseed_starves hpool hstarved] at hread
        refine ⟨_, congrArg Host.Outcome.next hread, Only.raiseG _ _ (by decide) (Only.modRbg _ _ (by decide) (Only.refl _ _)), ?_,
          fun _ => raiseG_bit _ _ (by decide), fun j hj => (raiseG_rbg _ _ _).trans (modRbg_rbg_ne _ _ hj)⟩
        rw [raiseG_rbg, modRbg_rbg_same]
    · obtain ⟨honly, hfailed, hev, hseq, hother⟩ := rbgFail_facts k.val 6 (journalUe 10 k.val s)
      have hrecord : Only recordParts s (journalUe 10 k.val s) := Only.journalUe _ _ _ (by decide) (Only.refl _ _)
      refine ⟨_, congrArg Host.Outcome.next (fxRbgReseed_ue hsup hst), (hrecord.mono (by decide)).trans honly, hfailed, hev, ?_,
        fun j hj => (hother j hj).trans (rbg_of_only hrecord (by decide) j)⟩
      rw [hseq, journalUe_seq, BitVec.add_assoc]
      rfl
  · exact congrArg Host.Outcome.next (whenS_false (by rw [hfuses]; rfl))
  · intro noDraw draws
    refine ⟨?_, fun hpool => ?_, fun b l hpool hno => ?_, ?_⟩
    · obtain ⟨honly, hfailed, hev, hseq, hother⟩ := rbgFail_facts k.val 4 s
      refine ⟨_, congrArg Host.Outcome.next (fxRbgInstantiate_fails hfuses hsup hst), ?_, Pend.drawTag hev, fun hno => ?_⟩
      · rw [drawTag_rbg (by rw [hfailed]; decide), hfailed]
      · have hks : (rbgFail k.val 4 s).ks = s.ks := honly.2 .ks (by decide)
        have htag : drawTag (rbgFail k.val 4 s) = rbgFail k.val 4 s := by
          rcases hno with (htag | ⟨hk, hinit⟩) | hnone
          · exact drawTag_not (.inl (by rwa [hks]))
          · exact drawTag_not (.inr (by rwa [hother 0 (Ne.symm hk)]))
          · refine drawTag_none fun j hj => ?_
            by_cases hjk : j = k.val
            · rw [hjk, hfailed]
              decide
            · rw [hother j hjk]
              exact hnone j hj
        rw [htag]
        exact ⟨honly, hseq, hother⟩
    · exact congrArg Host.Outcome.next (fxRbgInstantiate_waits hfuses hsup hst hpool)
    · have hseeds := fxRbgInstantiate_seeds hfuses hsup hst hpool
      have hdrawn : (modRbg k.val (fun g => g.seed (rbgPers s k.val) b) (modEs (fun e => { e with pool := l }) s)).ks.kTag.isSome = true ∨
          ((modRbg k.val (fun g => g.seed (rbgPers s k.val) b) (modEs (fun e => { e with pool := l }) s)).rbg 0).st = .uninit :=
        hno.imp id fun h => by rw [modRbg_rbg_ne _ _ (Ne.symm h.1)]; exact h.2
      rw [drawTag_not hdrawn] at hseeds
      exact ⟨_, congrArg Host.Outcome.next hseeds, Only.modRbg _ _ (by decide) (Only.modEs _ (by decide) (Only.refl _ _)), modRbg_rbg_same _ _ _, rfl⟩
    · intro b l hpool hdraws g
      obtain ⟨htag, hinit, hbefore⟩ := hdraws
      have hseeds := fxRbgInstantiate_seeds hfuses hsup hst hpool
      have hseeded : Only [.es, .rbgs] s (modRbg k.val (fun g => g.seed (rbgPers s k.val) b) (modEs (fun e => { e with pool := l }) s)) :=
        Only.modRbg _ _ (by decide) (Only.modEs _ (by decide) (Only.refl _ _))
      have hg : (modRbg k.val (fun g => g.seed (rbgPers s k.val) b) (modEs (fun e => { e with pool := l }) s)).rbg k = g := modRbg_rbg_same _ _ _
      have hother (j : Nat) (hj : j ≠ k.val) :
          (modRbg k.val (fun g => g.seed (rbgPers s k.val) b) (modEs (fun e => { e with pool := l }) s)).rbg j = s.rbg j := modRbg_rbg_ne _ _ hj
      have hes : (modRbg k.val (fun g => g.seed (rbgPers s k.val) b) (modEs (fun e => { e with pool := l }) s)).es = { s.es with pool := l } := rfl
      generalize modRbg k.val (fun g => g.seed (rbgPers s k.val) b) (modEs (fun e => { e with pool := l }) s) = x at hseeds hseeded hg hother hes
      have hks : x.ks = s.ks := hseeded.2 .ks (by decide)
      refine ⟨_, congrArg Host.Outcome.next hseeds, fun hdiffer => ?_⟩
      have hx0 : (x.rbg 0).st ≠ .uninit := by
        by_cases hk : k.val = 0
        · rw [← hk, hg]
          exact fun h => by cases h
        · rw [hother 0 (Ne.symm hk)]
          exact hinit.resolve_left hk
      rw [drawTag_draws (k := k) (by rw [hks, htag]) hx0 (fun j hj => by rw [hother j (by omega)]; exact hbefore j hj) (by rw [hg]; rfl) (by rw [hg]; rfl)
        (by rwa [hg]), hg]
      refine ⟨Only.modKs _ (by decide) (Only.modRbg _ _ (by decide) (hseeded.mono (by decide))), hes, (modKs_rbg _ _ _).trans (modRbg_rbg_same _ _ _),
        fun j hj => (modKs_rbg _ _ _).trans ((modRbg_rbg_ne _ _ hj).trans (hother j hj)), ?_⟩
      rw [modKs_ks, modRbg_ks, hks]
  · exact ⟨_, congrArg Host.Outcome.next (gateW_takes htakes), Only.modRbg _ _ (by decide) (Only.refl _ _), modRbg_rbg_same _ _ _,
      fun j hj => modRbg_rbg_ne _ _ hj⟩

end Sys2Proof.Entropy
end

section
/-!
Reads at the register target port (R14, R348, R376, R377, R490, R501): what a read latches and takes from a latch, the reads that return zero and the
record that a debug read leaves, with the statement O57.
-/

namespace Sys2Proof.Machine

/-! ### Latches (R348) -/

theorem isLatch_self (who : Who) (off : Nat) (v : Word) : isLatch who off ⟨who, off, v⟩ = true := by simp [isLatch, Who.isMaster]

/-- A latch waits for a read of one offset. -/
theorem isLatch_off {who : Who} {a b : Nat} {l : Latch} (h : isLatch who a l = true) (hab : a ≠ b) : isLatch who b l = false := by
  simp only [isLatch, Bool.and_eq_true, decide_eq_true_eq] at h
  simp only [isLatch, Bool.and_eq_false_iff, decide_eq_false_iff_not]
  exact .inr fun hb => hab (h.2.symm.trans hb)

theorem latched_dropLatch_same (who : Who) (off : Nat) (s : State) : latched (dropLatch who off s) who off = none := by
  simp only [latched, dropLatch, modLatch, List.find?_eq_none, List.mem_filter, Bool.not_eq_true']
  intro l hl
  simp [hl.2]

theorem latched_dropLatch_ne {who : Who} {a b : Nat} (h : a ≠ b) (s : State) : latched (dropLatch who b s) who a = latched s who a := by
  simp only [latched, dropLatch, modLatch]
  induction s.latch with
  | nil => rfl
  | cons l ls ih =>
    rw [List.filter_cons, List.find?_cons]
    cases ha : isLatch who a l with
    | true => rw [isLatch_off ha h, if_pos (by rfl), List.find?_cons, ha]
    | false =>
      split
      · rw [List.find?_cons, ha, ih]
      · exact ih

theorem latched_setLatch_same (who : Who) (off : Nat) (v : Word) (s : State) : latched (setLatch who off v s) who off = some ⟨who, off, v⟩ := by
  have hdrop := latched_dropLatch_same who off s
  simp only [latched] at hdrop
  simp only [latched, setLatch, modLatch, List.find?_append, hdrop, Option.none_or]
  rw [List.find?_cons, isLatch_self]

theorem latched_setLatch_ne {who : Who} {a b : Nat} (h : a ≠ b) (v : Word) (s : State) : latched (setLatch who b v s) who a = latched s who a := by
  have hdrop := latched_dropLatch_ne (who := who) h s
  simp only [latched] at hdrop
  have hother : isLatch who a ⟨who, b, v⟩ = false := isLatch_off (isLatch_self who b v) (Ne.symm h)
  simp only [latched, setLatch, modLatch, List.find?_append, hdrop]
  rw [List.find?_cons, hother]
  exact Option.or_none

/-- t is s but for its latches. -/
def LatchOnly (s t : State) : Prop := ∃ l, t = { s with latch := l }

theorem LatchOnly.setLatch {s t : State} (who : Who) (off : Nat) (v : Word) (h : LatchOnly s t) : LatchOnly s (Machine.setLatch who off v t) := by
  obtain ⟨_, rfl⟩ := h
  exact ⟨_, rfl⟩

theorem setLatches_only (who : Who) (r : Reg) (whole hi : Bool) (s : State) : LatchOnly s (setLatches who r whole hi s) := by
  unfold setLatches
  split
  · exact ⟨_, rfl⟩
  · exact List.foldlRecOn (motive := LatchOnly s) _ _ ⟨_, rfl⟩ fun _ hb _ _ => hb.setLatch _ _ _

/-- The value of a register does not hang on the latches. -/
theorem LatchOnly.readWord {s t : State} (h : LatchOnly s t) (who : Who) (r : Reg) : Machine.readWord t who r = Machine.readWord s who r := by
  obtain ⟨_, rfl⟩ := h
  rfl

theorem LatchOnly.out {s t : State} (h : LatchOnly s t) : t.out = s.out := by
  obtain ⟨_, rfl⟩ := h
  rfl

theorem LatchOnly.only {s t : State} (h : LatchOnly s t) : Only [.latch] s t := by
  obtain ⟨_, rfl⟩ := h
  exact ⟨rfl, fun p hp => by cases p <;> first | rfl | exact absurd (by decide) hp⟩

/-! ### The value of a read -/

section
variable {who : Who} {r : Reg} {hi : Bool} {s : State}

theorem setLatches_none {whole : Bool} (h : latches whole hi r = []) : setLatches who r whole hi s = s := by
  unfold setLatches
  rw [h]
  split <;> rfl

theorem readHalf_fresh (h : latched s who (halfOff r hi) = none) : readHalf who r hi s = (halfOf (readWord s who r) hi, s) := by rw [readHalf, h]

/-- A latched half goes to this read, which latches nothing. -/
theorem readReg_latched {l : Latch} (h : latched s who (halfOff r hi) = some l) :
    readReg who r false hi s = (l.value, dropLatch who (halfOff r hi) s) := by
  have hset : setLatches who r false hi s = s := by rw [setLatches, h]; rfl
  rw [readReg, hset]
  dsimp only
  rw [if_neg (by simp), if_neg (by decide), readHalf, h]

theorem readReg_half (hlatches : latches false hi r = []) (h : latched s who (halfOff r hi) = none) :
    readReg who r false hi s = (halfOf (readWord s who r) hi, s) := by
  rw [readReg, setLatches_none hlatches]
  exact readHalf_fresh h

/-- The two halves of a word make the word. -/
theorem halves_or (w : Word) : halfOf w false ||| halfOf w true <<< 32 = w := by
  change (w &&& BitVec.ofNat 64 (2 ^ 32 - 1)) ||| w >>> 32 <<< 32 = w
  refine BitVec.eq_of_getLsbD_eq fun i hi => ?_
  simp only [BitVec.getLsbD_or, BitVec.getLsbD_and, BitVec.getLsbD_shiftLeft, BitVec.getLsbD_ushiftRight, BitVec.getLsbD_ofNat,
    Nat.testBit_two_pow_sub_one]
  by_cases h : i < 32
  · simp [h, hi]
  · simp [h, hi, show 32 + (i - 32) = i by omega]

/-- A 64-bit read of a word none of whose halves is latched. -/
theorem readReg_whole (hlo : latched (setLatches who r true hi s) who (halfOff r false) = none)
    (hup : latched (setLatches who r true hi s) who (halfOff r true) = none) :
    readReg who r true hi s = (readWord s who r, setLatches who r true hi s) := by
  have hword := (setLatches_only who r true hi s).readWord who r
  rw [readReg]
  dsimp only
  split
  · rw [hword]
  · rw [if_pos rfl, readHalf_fresh hlo]
    dsimp only
    rw [readHalf_fresh hup, hword]
    dsimp only
    rw [halves_or]

end

/-! ### Reads that return zero (R14, R376, R377) -/

theorem debugRecord_seq (who : Who) (off : Nat) (d : Dir) (opened : Bool) (s : State) : (debugRecord who off d opened s).jrn.seq = s.jrn.seq + 1 :=
  journal_seq _ _ _ s

/-- A debug read that returns zero by role, or that AH_OWN_DBG_UNLOCK opens, leaves its record; no other read leaves one. -/
theorem debugRead_records {who : Who} {r : Reg} {s : State} (off : Nat) (hserve : s.start.serving = true) (hdbg : who.dbg = true)
    (h : mayRead s who r.cls = false ∨ debugOpens s who r = true) : (debugRead who r off s).jrn.seq = s.jrn.seq + 1 := by
  have hrecord : (s.start.serving && who.dbg && (!mayRead s who r.cls || debugOpens s who r)) = true := by
    rcases h with h | h <;> simp [hserve, hdbg, h]
  rw [debugRead, if_pos hrecord, debugRecord_seq]

theorem debugRead_notDebug {who : Who} {r : Reg} {s : State} (off : Nat) (hdbg : who.dbg = false) : debugRead who r off s = s := by
  rw [debugRead, if_neg (by simp [hdbg])]

theorem debugRead_plain {who : Who} {r : Reg} {s : State} (off : Nat) (hread : readable s who r = true) (hopen : debugOpens s who r = false) :
    debugRead who r off s = s := by
  have hmay : mayRead s who r.cls = true := by
    simp only [readable, Bool.and_eq_true] at hread
    exact hread.1.2
  rw [debugRead, if_neg (by simp [hmay, hopen])]

/-- The read returns zero: nothing changes but by the record of a debug read of a locked page, or one that its role refuses or the lock opens. -/
def ReadsZero (who : Who) (off : Nat) (s t : State) : Prop :=
  Only recordParts s t ∧ t.out.getLast? = some (.cfgRd who 0) ∧ (who.dbg = false → t = emit (.cfgRd who 0) s) ∧
  (s.start.serving = true → who.dbg = true → s.dbgEn = false → regAt (off / 8 * 8) = none → (lockedPage off).isSome = true →
    t.jrn.seq = s.jrn.seq + 1) ∧
  (∀ r, s.start.serving = true → who.dbg = true → regAt (off / 8 * 8) = some r → mayRead s who r.cls = false ∨ debugOpens s who r = true →
    t.jrn.seq = s.jrn.seq + 1)

theorem emit_getLast (o : Out) (s : State) : (emit o s).out.getLast? = some o := List.getLast?_concat

/-- The read of a register that returns zero, behind the record of a debug read. -/
theorem readsZero_reg {who : Who} {off : Nat} {r : Reg} (at' : Nat) (s : State) (hreg : regAt (off / 8 * 8) = some r) :
    ReadsZero who off s (emit (.cfgRd who 0) (debugRead who r at' s)) := by
  refine ⟨Only.emit _ (by decide) (Only.debugRead _ _ _ _ (by decide) (Only.refl _ _)), emit_getLast _ _, fun hdbg => by rw [debugRead_notDebug _ hdbg],
    fun _ _ _ hnone => ?_, fun q hserve hdbg hq hmay => ?_⟩
  · rw [hreg] at hnone
    cases hnone
  · rw [hreg] at hq
    cases hq
    exact debugRead_records at' hserve hdbg hmay

theorem zeroRead_zero (who : Who) (off : Nat) (s : State) : ReadsZero who off s (zeroRead who off s) := by
  unfold zeroRead
  split
  next r _ hreg => exact readsZero_reg off s hreg
  next bit hreg hbit =>
    split
    next hlocked =>
      refine ⟨Only.emit _ (by decide) (Only.debugRecord _ _ _ _ _ (by decide) (Only.refl _ _)), emit_getLast _ _, fun hdbg => ?_,
        fun _ _ _ _ _ => debugRecord_seq _ _ _ _ s, fun r _ _ hr => ?_⟩
      · simp [hdbg] at hlocked
      · rw [hreg] at hr
        cases hr
    next hopen =>
      refine ⟨Only.emit _ (by decide) (Only.refl _ _), emit_getLast _ _, fun _ => rfl, fun hserve hdbg hen => ?_, fun r _ _ hr => ?_⟩
      · simp [hserve, hdbg, hen] at hopen
      · rw [hreg] at hr
        cases hr
  next hreg hbit =>
    refine ⟨Only.emit _ (by decide) (Only.refl _ _), emit_getLast _ _, fun _ => rfl, fun _ _ _ _ hsome => ?_, fun r _ _ hr => ?_⟩
    · rw [hbit] at hsome
      cases hsome
    · rw [hreg] at hr
      cases hr

/-- The four bytes around an offset lie in the same register and the same page. -/
theorem ReadsZero.ofPiece {who : Who} {off : Nat} {s t : State} (h : ReadsZero who (off / 4 * 4) s t) : ReadsZero who off s t := by
  have hword : off / 4 * 4 / 8 * 8 = off / 8 * 8 := by omega
  have hpage : lockedPage (off / 4 * 4) = lockedPage off := by
    have hle (n : Nat) (hn : n % 4 = 0) : (n ≤ off / 4 * 4) = (n ≤ off) := propext (by omega)
    have hlt (n : Nat) (hn : n % 4 = 0) : (off / 4 * 4 < n) = (off < n) := propext (by omega)
    simp only [lockedPage, hle _ (show 0x020000 % 4 = 0 from rfl), hlt _ (show 0x030000 % 4 = 0 from rfl), hle _ (show 0x030000 % 4 = 0 from rfl),
      hlt _ (show 0x040000 % 4 = 0 from rfl), hle _ (show 0x300000 % 4 = 0 from rfl), hlt _ (show 0x310000 % 4 = 0 from rfl)]
  obtain ⟨honly, hlast, hmaster, hlocked, hrole⟩ := h
  rw [hword] at hlocked hrole
  rw [hpage] at hlocked
  exact ⟨honly, hlast, hmaster, hlocked, hrole⟩

/-! ### Aligned reads -/

section
variable {who : Who} {whole : Bool} {off : Nat} {done : Word → Word} {s : State}

theorem readAligned_none (h : regAt (off / 8 * 8) = none) : ReadsZero who off s (readAligned who whole off done s) := by
  have hzero : readAligned who whole off done s = zeroRead who off s := by rw [readAligned, h]
  exact hzero ▸ zeroRead_zero who off s

variable {r : Reg} (hreg : regAt (off / 8 * 8) = some r)
include hreg

theorem readAligned_refused (hread : readable s who r = false) : ReadsZero who off s (readAligned who whole off done s) := by
  have hzero : readAligned who whole off done s = emit (.cfgRd who 0) (debugRead who r off s) := by
    rw [readAligned, hreg]
    dsimp only
    rw [hread]
    rfl
  exact hzero ▸ readsZero_reg off s hreg

variable (hread : readable s who r = true) (hraw : r ≠ .esRaw)
include hread hraw

theorem readAligned_reads : readAligned who whole off done s =
    emit (.cfgRd who (done (readReg who r whole (decide (off % 8 = 4)) (debugRead who r off s)).1))
      (readReg who r whole (decide (off % 8 = 4)) (debugRead who r off s)).2 := by
  rw [readAligned, hreg]
  dsimp only
  rw [hread, if_neg (by decide), if_neg (fun h => hraw h.1)]

theorem readAligned_opened (hserve : s.start.serving = true) (hdbg : who.dbg = true) (hopen : debugOpens s who r = true) :
    (readAligned who whole off done s).jrn.seq = s.jrn.seq + 1 := by
  rw [readAligned_reads hreg hread hraw]
  have honly : Only [.latch, .out] (debugRead who r off s)
      (emit (.cfgRd who (done (readReg who r whole (decide (off % 8 = 4)) (debugRead who r off s)).1))
        (readReg who r whole (decide (off % 8 = 4)) (debugRead who r off s)).2) :=
    Only.emit _ (by decide) (Only.readReg _ _ _ _ _ (by decide) (Only.refl _ _))
  rw [honly.jrn (by decide), debugRead_records off hserve hdbg (.inr hopen)]

variable (hopen : debugOpens s who r = false)
include hopen

theorem readAligned_plain : readAligned who whole off done s =
    emit (.cfgRd who (done (readReg who r whole (decide (off % 8 = 4)) s).1)) (readReg who r whole (decide (off % 8 = 4)) s).2 := by
  rw [readAligned_reads hreg hread hraw, debugRead_plain off hread hopen]

end

/-! ### What a capture latches (R490, R501) -/

/-- Latching a list of halves. -/
def setHalves (who : Who) (v : Reg × Bool → Word) (l : List (Reg × Bool)) (s : State) : State :=
  l.foldl (fun t p => setLatch who (halfOff p.1 p.2) (v p) t) s

theorem latched_setHalves_ne {who : Who} {v : Reg × Bool → Word} {l : List (Reg × Bool)} {a : Nat} (h : ∀ p ∈ l, a ≠ halfOff p.1 p.2) (s : State) :
    latched (setHalves who v l s) who a = latched s who a := by
  induction l generalizing s with
  | nil => rfl
  | cons p l ih => exact (ih (fun q hq => h q (List.mem_cons_of_mem _ hq)) _).trans (latched_setLatch_ne (h p (List.mem_cons_self ..)) _ s)

theorem latched_setHalves_mem {who : Who} {v : Reg × Bool → Word} {l : List (Reg × Bool)} {p : Reg × Bool} (hp : p ∈ l)
    (hl : (l.map (fun p => halfOff p.1 p.2)).Nodup) (s : State) :
    latched (setHalves who v l s) who (halfOff p.1 p.2) = some ⟨who, halfOff p.1 p.2, v p⟩ := by
  induction l generalizing s with
  | nil => cases hp
  | cons q l ih =>
    obtain ⟨hq, hl⟩ := List.nodup_cons.mp hl
    rcases List.mem_cons.mp hp with rfl | hp
    · have hne (q : Reg × Bool) (hmem : q ∈ l) : halfOff p.1 p.2 ≠ halfOff q.1 q.2 := fun h => hq (List.mem_map.mpr ⟨q, hmem, h.symm⟩)
      exact (latched_setHalves_ne hne (setLatch who (halfOff p.1 p.2) (v p) s)).trans (latched_setLatch_same _ _ _ s)
    · exact ih hp hl _

theorem setLatches_whole (who : Who) (r : Reg) (hi : Bool) (s : State) :
    setLatches who r true hi s = setHalves who (fun p => halfOf (readWord s who p.1) p.2) (latches true hi r) s := if_neg (by simp)

theorem setLatches_half {who : Who} {r : Reg} {hi : Bool} {s : State} (h : latched s who (halfOff r hi) = none) :
    setLatches who r false hi s = setHalves who (fun p => halfOf (readWord s who p.1) p.2) (latches false hi r) s := if_neg (by rw [h]; decide)

/-- A 32-bit read of a half that is not latched, and that latches others. -/
theorem readReg_latches {who : Who} {r : Reg} {hi : Bool} {s : State} (h : latched s who (halfOff r hi) = none)
    (hne : ∀ p ∈ latches false hi r, halfOff r hi ≠ halfOff p.1 p.2) :
    readReg who r false hi s = (halfOf (readWord s who r) hi, setLatches who r false hi s) := by
  have hword := (setLatches_only who r false hi s).readWord who r
  have hnone : latched (setLatches who r false hi s) who (halfOff r hi) = none := by rw [setLatches_half h, latched_setHalves_ne hne, h]
  rw [readReg]
  dsimp only
  rw [if_neg (by simp), if_neg (by decide), readHalf_fresh hnone, hword]

/-- The registers whose read latches the words behind them. -/
theorem isLatching_reg {off : Nat} {r : Reg} (h : isLatching off = true) (hreg : regAt off = some r) :
    (∃ n, r = .tnViol n 0) ∨ (∃ n, r = .tnBuserr n 0) ∨ r = .statBoot 1 := by
  unfold isLatching at h
  rw [hreg] at h
  split at h
  next n i hr =>
    cases hr
    exact .inl ⟨n, by rw [Fin.ext (of_decide_eq_true h : i.val = (0 : Fin _).val)]⟩
  next n i hr =>
    cases hr
    exact .inr (.inl ⟨n, by rw [Fin.ext (of_decide_eq_true h : i.val = (0 : Fin _).val)]⟩)
  next i hr =>
    cases hr
    exact .inr (.inr (by rw [Fin.ext (of_decide_eq_true h : i.val = (1 : Fin _).val)]))
  next => cases h

/-- What a 64-bit read of the first word of a capture latches: every half behind it, none of its own. -/
theorem capture_latches {off : Nat} {r : Reg} (h : isLatching off = true) (hreg : regAt off = some r) :
    ((latches true false r).map (fun p => halfOff p.1 p.2)).Nodup ∧
      (∀ p ∈ latches true false r, halfOff r false ≠ halfOff p.1 p.2 ∧ halfOff r true ≠ halfOff p.1 p.2) ∧ r ≠ .esRaw ∧
      ∀ (s : State) (who : Who), debugOpens s who r = false := by
  rcases isLatching_reg h hreg with ⟨n, rfl⟩ | ⟨n, rfl⟩ | rfl
  · refine ⟨by simp [latches, halfOff, Reg.off], ?_, by simp, fun s who => rfl⟩
    simp [latches, halfOff, Reg.off]
    omega
  · refine ⟨by simp [latches, halfOff, Reg.off], ?_, by simp, fun s who => rfl⟩
    simp [latches, halfOff, Reg.off]
    omega
  · refine ⟨by decide, by decide, by decide, fun s who => rfl⟩

/-! ### The port (R14, R506) -/

section
variable {who : Who} {off : Nat} {s : State}

theorem readPort_misaligned {size : AccSize} (h : size = .b32 ∧ off % 4 ≠ 0 ∨ size = .b64 ∧ off % 8 ≠ 0) :
    readPort who size off s = zeroRead who off s := by
  rcases h with ⟨rfl, h⟩ | ⟨rfl, h⟩ <;> exact if_pos h

theorem readPort_half (h4 : off % 4 = 0) (hport : off ≠ 0x300000) (hport4 : off ≠ 0x300004) :
    readPort who .b32 off s = readAligned who false off id s := by
  rw [readPort, if_neg (by omega), if_neg hport, if_neg hport4]

theorem readPort_word (h8 : off % 8 = 0) (hport : off ≠ 0x300000) : readPort who .b64 off s = readAligned who true off id s := by
  rw [readPort, if_neg (by omega), if_neg hport]

theorem readPort_aligned {size : AccSize} (h : size = .b32 ∧ off % 4 = 0 ∨ size = .b64 ∧ off % 8 = 0) (hport : off ≠ 0x300000)
    (hport4 : off ≠ 0x300004) : readPort who size off s = readAligned who (decide (size = .b64)) off id s := by
  rcases h with ⟨rfl, h⟩ | ⟨rfl, h⟩
  · exact readPort_half h hport hport4
  · exact readPort_word h hport

theorem readPort_part {size : AccSize} (hsize : size = .b8 ∨ size = .b16) (hport : ¬ (0x300000 ≤ off ∧ off < 0x310000)) :
    readPort who size off s = readAligned who false (off / 4 * 4)
      (fun w => (w >>> (8 * (off % 4))) &&& BitVec.ofNat 64 (if size = .b8 then 0xFF else 0xFFFF)) s := by
  rcases hsize with rfl | rfl
  · exact if_neg hport
  · exact if_neg hport

theorem readPort_partPort {size : AccSize} (hsize : size = .b8 ∨ size = .b16) (hport : 0x300000 ≤ off ∧ off < 0x310000) :
    readPort who size off s = zeroRead who off s := by
  rcases hsize with rfl | rfl
  · exact if_pos hport
  · exact if_pos hport

theorem readPort_journal {size : AccSize} (hsize : size = .b32 ∨ size = .b64) : readPort who size 0x300000 s = fxJournalRead who size .clean s := by
  rcases hsize with rfl | rfl
  · rw [readPort, if_neg (by norm_num), if_pos rfl]
  · rw [readPort, if_neg (by norm_num), if_pos rfl]

theorem readPort_journalUp : readPort who .b32 0x300004 s = zeroRead who 0x300004 s := by
  rw [readPort, if_neg (by norm_num), if_neg (by norm_num), if_pos rfl]

end

theorem debugRead_stat (who : Who) (i : Fin 2) (off : Nat) (s : State) : debugRead who (.statTime i) off s = s :=
  if_neg (by rw [show mayRead s who (Reg.cls (.statTime i)) = true from rfl, show debugOpens s who (.statTime i) = false from rfl]; simp)

theorem regAt_statTime : regAt (Reg.off (.statTime 0) / 8 * 8) = some (.statTime 0) := by decide

theorem latched_emit (o : Out) (s : State) (who : Who) (off : Nat) : latched (emit o s) who off = latched s who off := rfl

end Sys2Proof.Machine

namespace Sys2Proof.PortReads
open Sys2Proof.Machine

/-- Settles O57: the port sends each read to `zeroRead`, the journal or `readAligned`, whose value is `readReg`. -/
theorem reads : Obligations.Reads := by
  unfold Obligations.Reads
  refine ⟨?time, ?capture, ?any⟩
  case time =>
    intro who s off
    have hport : fxStatTimeLowRead who s = readAligned who false (Reg.off (.statTime 0)) id s := readPort_half (by decide) (by decide) (by decide)
    have hplain (hread : readable s who (.statTime 0) = true) := readAligned_plain (who := who) (whole := false) (done := id) (s := s) regAt_statTime
      hread (by decide) rfl
    refine ⟨fun hread => ?_, fun hread hnone => ?_, fun l hread hl => ?_⟩
    · have hzero : readAligned who false (Reg.off (.statTime 0)) id s = emit (.cfgRd who 0) s := by
        rw [readAligned, regAt_statTime]
        dsimp only
        rw [hread, debugRead_stat]
        rfl
      exact congrArg Host.Outcome.next (hport.trans hzero)
    · refine ⟨_, congrArg Host.Outcome.next (hport.trans (hplain hread)), ?_⟩
      have hhi : decide (Reg.off (.statTime 0) % 8 = 4) = false := by decide
      have hfresh : latched s who (halfOff (.statTime 0) false) = none := hnone
      rw [hhi, readReg_latches hfresh (by decide)]
      refine ⟨Only.emit _ (by decide) (Only.setLatches _ _ _ _ _ (by decide) (Only.refl _ _)), ?_, ?_, ?_⟩
      · exact congrArg (· ++ [Out.cfgRd who (s.time.ns &&& 0xFFFFFFFF)]) (setLatches_only who (.statTime 0) false false s).out
      · rw [latched_emit, setLatches_half hfresh]
        exact latched_setHalves_mem (p := (.statTime 0, true)) (by decide) (by decide) s
      · rw [latched_emit, setLatches_half hfresh]
        exact latched_setHalves_mem (p := (.statTimeFrac, false)) (by decide) (by decide) s
    · refine ⟨_, congrArg Host.Outcome.next (hport.trans (hplain hread)), ?_⟩
      rw [readReg_latched (show latched s who (halfOff (.statTime 0) (decide (Reg.off (.statTime 0) % 8 = 4))) = some l from hl)]
      exact ⟨Only.emit _ (by decide) (Only.modLatch _ (by decide) (Only.refl _ _)), rfl, latched_dropLatch_same _ _ _⟩
  case capture =>
    intro who off s held
    have hport (r : Reg) (h : isLatching off.toNat = true) (h8 : off.toNat % 8 = 0) (hreg : regAt off.toNat = some r) :
        fxCaptureReadLatch who off s = readAligned who true off.toNat id s ∧ regAt (off.toNat / 8 * 8) = some r ∧ decide (off.toNat % 8 = 4) = false := by
      have hoff : off.toNat ≠ 0x300000 := fun hoff => by
        rw [hoff] at h
        exact absurd h (by decide)
      refine ⟨(whenS_true h).trans (readPort_word h8 hoff), ?_, by simp [h8]⟩
      rwa [show off.toNat / 8 * 8 = off.toNat by omega]
    refine ⟨fun hnot => congrArg Host.Outcome.next (whenS_false hnot), fun r h h8 hreg hread => ?_, fun r h h8 hreg hread hlo hup => ?_⟩
    · obtain ⟨hcapture, hreg8, -⟩ := hport r h h8 hreg
      obtain ⟨-, hlast, -⟩ := readAligned_refused (who := who) (whole := true) (done := id) (s := s) hreg8 hread
      exact ⟨_, congrArg Host.Outcome.next hcapture, hlast⟩
    · obtain ⟨hcapture, hreg8, hhi⟩ := hport r h h8 hreg
      obtain ⟨hnodup, hown, hraw, hopen⟩ := capture_latches h hreg
      have hset := setLatches_whole who r false s
      have hread' := readAligned_plain (who := who) (whole := true) (done := id) hreg8 hread hraw (hopen s who)
      rw [hhi, readReg_whole (by rw [hset, latched_setHalves_ne fun p hp => (hown p hp).1]; exact hlo)
        (by rw [hset, latched_setHalves_ne fun p hp => (hown p hp).2]; exact hup)] at hread'
      have hheld (q : Reg) (hqlo : (q, false) ∈ latches true false r) (hqup : (q, true) ∈ latches true false r) :
          held (emit (.cfgRd who (readWord s who r)) (setLatches who r true false s)) q := by
        refine ⟨?_, ?_⟩ <;> rw [latched_emit, hset]
        · exact latched_setHalves_mem (p := (q, false)) hqlo hnodup s
        · exact latched_setHalves_mem (p := (q, true)) hqup hnodup s
      refine ⟨_, congrArg Host.Outcome.next (hcapture.trans hread'), Only.emit _ (by decide) (Only.setLatches _ _ _ _ _ (by decide) (Only.refl _ _)),
        congrArg (· ++ [Out.cfgRd who (readWord s who r)]) (setLatches_only who r true false s).out, fun n hr => ?_, fun n hr => ?_, fun hr => ?_⟩
      · subst hr
        exact hheld _ (by simp [latches]) (by simp [latches])
      · subst hr
        exact hheld _ (by simp [latches]) (by simp [latches])
      · subst hr
        exact ⟨hheld _ (by decide) (by decide), hheld _ (by decide) (by decide)⟩
  case any =>
    intro who size off s zero
    have hof {t : State} (hport : fxDebugRead who size off s = t) (h : ReadsZero who off.toNat s t) : zero :=
      ⟨t, congrArg Host.Outcome.next hport, h⟩
    refine ⟨fun hodd => ?_, fun r hsize hjr hreg hraw hread hopen hlatches hnone => ?_, fun r hsize hjr hreg hread => ?_, fun hsize hor => ?_,
      fun hsize hoff => ?_, fun hsize hoff => ?_, fun halign hoff hreg => ?_, ?_⟩
    · exact hof (readPort_misaligned hodd) (zeroRead_zero _ _ _)
    · have hhalf : decide (off.toNat / 4 * 4 % 8 = 4) = decide (4 ≤ off.toNat % 8) := by
        rw [decide_eq_decide]
        omega
      have hplain := readAligned_plain (who := who) (whole := false) (off := off.toNat / 4 * 4) (s := s)
        (done := fun w => (w >>> (8 * (off.toNat % 4))) &&& BitVec.ofNat 64 (if size = .b8 then 0xFF else 0xFFFF))
        (by rw [show off.toNat / 4 * 4 / 8 * 8 = off.toNat / 8 * 8 by omega]; exact hreg) hread hraw hopen
      rw [hhalf, readReg_half hlatches hnone] at hplain
      exact congrArg Host.Outcome.next ((readPort_part hsize hjr).trans hplain)
    · refine hof (readPort_part hsize hjr) (ReadsZero.ofPiece (readAligned_refused ?_ hread))
      rw [show off.toNat / 4 * 4 / 8 * 8 = off.toNat / 8 * 8 by omega]
      exact hreg
    · by_cases hjr : 0x300000 ≤ off.toNat ∧ off.toNat < 0x310000
      · exact hof (readPort_partPort hsize hjr) (zeroRead_zero _ _ _)
      · refine hof (readPort_part hsize hjr) (ReadsZero.ofPiece (readAligned_none ?_))
        rw [show off.toNat / 4 * 4 / 8 * 8 = off.toNat / 8 * 8 by omega]
        exact hor.resolve_left hjr
    · have hjournal : fxDebugRead who size off s = fxJournalRead who size .clean s := by
        rw [fxDebugRead, hoff]
        exact readPort_journal hsize
      exact congrArg Host.Outcome.next hjournal
    · have hup : fxDebugRead who size off s = zeroRead who off.toNat s := by rw [fxDebugRead, hsize, hoff, readPort_journalUp]
      exact hof hup (zeroRead_zero _ _ _)
    · by_cases hoff4 : off.toNat = 0x300004
      · rw [hoff4] at hreg
        exact absurd hreg (by decide)
      · exact hof (readPort_aligned halign hoff hoff4) (readAligned_none hreg)
    · intro r halign hoff hoff4 hreg hraw hi
      have hport : fxDebugRead who size off s = readAligned who (decide (size = .b64)) off.toNat id s := readPort_aligned halign hoff hoff4
      refine ⟨fun hread => ?_, fun hread hopen hdbg hserve => ?_, fun hread hopen hsize hlatches hnone => ?_, fun l hread hopen hsize hl => ?_,
        fun hread hopen hsize hlatches hlo hup => ?_, fun hread hr hsize => ?_⟩
      · exact hof hport (readAligned_refused hreg hread)
      · exact ⟨_, congrArg Host.Outcome.next hport, readAligned_opened hreg hread hraw hserve hdbg hopen⟩
      · subst hsize
        have hplain := readAligned_plain (who := who) (whole := false) (done := id) hreg hread hraw hopen
        rw [readReg_half hlatches hnone] at hplain
        exact congrArg Host.Outcome.next (hport.trans hplain)
      · subst hsize
        have hplain := readAligned_plain (who := who) (whole := false) (done := id) hreg hread hraw hopen
        rw [readReg_latched hl] at hplain
        exact congrArg Host.Outcome.next (hport.trans hplain)
      · subst hsize
        have hplain := readAligned_plain (who := who) (whole := true) (done := id) hreg hread hraw hopen
        rw [readReg_whole (by rwa [setLatches_none hlatches]) (by rwa [setLatches_none hlatches]), setLatches_none hlatches] at hplain
        exact congrArg Host.Outcome.next (hport.trans hplain)
      · subst hsize hr
        have hplain := readAligned_plain (who := who) (whole := true) (done := id) hreg hread hraw rfl
        have hlatches : latches true hi (.statTime 0) = [] := rfl
        rw [readReg, setLatches_none hlatches] at hplain
        exact congrArg Host.Outcome.next (hport.trans hplain)

end Sys2Proof.PortReads
end

section
/-!
The event journal (R442 to R445, R487): what storing a record leaves of it, and how a read delivers, with the statement O56.
-/

namespace Sys2Proof.Machine

/-! ### Storing a record (R440, R442, R445) -/

/-- A notice moves the tail of the notice ring, or its counter, and nothing else of the journal. -/
theorem notice_jrn (rec : List (BitVec 32)) (s : State) : ∃ nt nl sa, (notice rec s).jrn = { s.jrn with ntail := nt, nlost := nl, sat := sa } := by
  unfold notice
  dsimp only
  split
  · exact ⟨_, _, _, rfl⟩
  split
  · exact ⟨_, _, _, rfl⟩
  split
  next fa cause _ =>
    have honly : Only [.notice, .evPend, .pviol, .pvcnt] s (noticeFault (violP fa .write cause kindNotice 0 0 s.gen.active.toNat s)) :=
      Only.noticeFault _ (by decide) (Only.violP _ _ _ _ _ _ _ _ (by decide) (Only.refl _ _))
    exact ⟨s.jrn.ntail, s.jrn.nlost, s.jrn.sat, honly.jrn (by decide)⟩
  next =>
    refine ⟨(s.jrn.ntail + 1) % 2 ^ (s.noticeK + 1), s.jrn.nlost, s.jrn.sat, ?_⟩
    rw [modJrn_jrn, show (emitRecord _ _ s).jrn = s.jrn from (Only.emitRecord _ _ s (List.Subset.refl _) (Only.refl _ _)).jrn (by decide)]

theorem jrnPush_jrn (rec : List (BitVec 32)) (s : State) : (jrnPush rec s).jrn = { s.jrn with recs := s.jrn.recs ++ [rec] } := by
  unfold jrnPush
  dsimp only
  split
  · rw [raiseG_jrn]
    rfl
  · rfl

theorem jrnOpen_jrn (bad : Bool) (s : State) : ∃ rd rs, (jrnOpen bad s).jrn = { s.jrn with reading := rd, recs := rs } := by
  unfold jrnOpen
  split
  · exact ⟨_, _, rfl⟩
  · exact ⟨s.jrn.reading, s.jrn.recs, rfl⟩

/-- A read moves the records and the one that is read. -/
theorem jrnDeliver_jrn (who : Who) (size : AccSize) (bad : Bool) (s : State) :
    ∃ rd rs, (jrnDeliver who size bad s).jrn = { s.jrn with reading := rd, recs := rs } := by
  obtain ⟨rd, rs, hopen⟩ := jrnOpen_jrn bad s
  unfold jrnDeliver
  dsimp only
  split
  · split
    · obtain ⟨rd2, rs2, hopen2⟩ := jrnOpen_jrn bad (modJrn (fun j => { j with reading := [] }) (jrnOpen bad s))
      rw [modJrn_jrn, hopen] at hopen2
      split
      · exact ⟨_, rs2, by rw [emit_jrn, modJrn_jrn, hopen2]⟩
      · exact ⟨rd2, rs2, by rw [emit_jrn, hopen2]⟩
    · exact ⟨[], rs, by rw [emit_jrn, modJrn_jrn, hopen]⟩
  · exact ⟨_, rs, by rw [emit_jrn, modJrn_jrn, hopen]⟩

theorem jrnServe_jrn (l : List (Who × AccSize)) (s : State) :
    ∃ rd rs st, (jrnServe l s).jrn = { s.jrn with reading := rd, recs := rs, stalled := st } := by
  induction l generalizing s with
  | nil => exact ⟨_, _, _, rfl⟩
  | cons p l ih =>
    obtain ⟨w, z⟩ := p
    rw [jrnServe]
    split
    · exact ⟨_, _, _, rfl⟩
    · obtain ⟨rd, rs, st, hserve⟩ := ih (jrnDeliver w z false (modJrn (fun j => { j with stalled := j.stalled.tail }) s))
      obtain ⟨_, _, hdeliver⟩ := jrnDeliver_jrn w z false (modJrn (fun j => { j with stalled := j.stalled.tail }) s)
      exact ⟨rd, rs, st, by rw [hserve, hdeliver, modJrn_jrn]⟩

/-- A record that is stored: what is lost stays, and without a stalled read it stands behind the others. -/
theorem jrnStore_jrn (rec : List (BitVec 32)) (s : State) :
    (jrnStore rec s).jrn.lost = s.jrn.lost ∧ (jrnStore rec s).jrn.lostDue = s.jrn.lostDue ∧
      (s.jrn.stalled = [] → (jrnStore rec s).jrn.stalled = [] ∧ (jrnStore rec s).jrn.reading = s.jrn.reading ∧
        (jrnStore rec s).jrn.recs = s.jrn.recs ++ [rec]) := by
  obtain ⟨nt, nl, sa, hnotice⟩ := notice_jrn rec (jrnPush rec s)
  rw [jrnPush_jrn] at hnotice
  unfold jrnStore
  dsimp only
  obtain ⟨rd, rs, st, hserve⟩ := jrnServe_jrn (notice rec (jrnPush rec s)).jrn.stalled (notice rec (jrnPush rec s))
  refine ⟨by rw [hserve, hnotice], by rw [hserve, hnotice], fun hnone => ?_⟩
  rw [show (notice rec (jrnPush rec s)).jrn.stalled = [] by rw [hnotice]; exact hnone, jrnServe, hnotice]
  exact ⟨hnone, rfl, rfl⟩

theorem jrnMakeRoom_jrn (need fuel : Nat) (s : State) :
    ∃ rs lo sa, (jrnMakeRoom need fuel s).jrn = { s.jrn with recs := rs, lost := lo, sat := sa } := by
  induction fuel generalizing s with
  | zero => exact ⟨_, _, _, rfl⟩
  | succ fuel ih =>
    rw [jrnMakeRoom]
    split
    · exact ⟨_, _, _, rfl⟩
    · obtain ⟨rs, lo, sa, hroom⟩ := ih (jrnLose (modJrn (fun j => { j with recs := j.recs.tail }) s))
      exact ⟨rs, lo, sa, hroom⟩

/-- A record leaves alone what is being read, where no read is stalled. -/
theorem journal_reading {s : State} (type origin : Nat) (payload : List Nat) (h : s.jrn.stalled = []) :
    (journal type origin payload s).jrn.reading = s.jrn.reading := by
  have hstore (rec : List (BitVec 32)) (x : State) (hx : x.jrn.stalled = []) : (jrnStore rec x).jrn.reading = x.jrn.reading := by
    obtain ⟨-, -, hkept⟩ := jrnStore_jrn rec x
    exact (hkept hx).2.1
  unfold journal
  dsimp only
  split
  · obtain ⟨rs, lo, sa, hroom⟩ := jrnMakeRoom_jrn (jrnRecord s.jrn.seq origin type s.time.ns payload).length
      (modJrn (fun j => { j with seq := j.seq + 1 }) s).jrn.recs.length (modJrn (fun j => { j with seq := j.seq + 1 }) s)
    split
    · rw [hstore _ _ (by rw [hroom]; exact h), hroom]
      rfl
    · rw [jrnLose, raiseG_jrn, modJrn_jrn, hroom]
      rfl
  · split
    · exact hstore _ _ h
    · rfl

theorem jrnDeliver_stalled (who : Who) (size : AccSize) (bad : Bool) (s : State) : (jrnDeliver who size bad s).jrn.stalled = s.jrn.stalled := by
  obtain ⟨rd, rs, hdeliver⟩ := jrnDeliver_jrn who size bad s
  rw [hdeliver]

/-! ### The flush, and a pending LOST record (R442, R444) -/

theorem jrnStore_time (rec : List (BitVec 32)) (s : State) : (jrnStore rec s).time = s.time :=
  (Only.jrnStore rec s (List.Subset.refl _) (Only.refl _ _)).2 .time (by decide)

theorem jrnNow_seq (type : Nat) (payload : List Nat) (s : State) : (jrnNow type payload s).jrn.seq = s.jrn.seq + 1 := by
  unfold jrnNow
  dsimp only
  split
  · rw [jrnStore_seq]
    rfl
  · rw [jrnLose_seq]
    rfl

/-- A record of the flush that finds room stands behind the records stored. -/
theorem jrnNow_stored {s : State} (type : Nat) (payload : List Nat) (hstalled : s.jrn.stalled = [])
    (hroom : s.jrn.level + payload.length + 2 ≤ jrnWords) :
    (jrnNow type payload s).time = s.time ∧ (jrnNow type payload s).jrn.lost = s.jrn.lost ∧ (jrnNow type payload s).jrn.lostDue = s.jrn.lostDue ∧
      (jrnNow type payload s).jrn.stalled = [] ∧ (jrnNow type payload s).jrn.reading = s.jrn.reading ∧
      (jrnNow type payload s).jrn.recs = s.jrn.recs ++ [jrnRecord s.jrn.seq 0x10 type s.time.ns payload] := by
  unfold jrnNow
  dsimp only
  rw [if_pos (show (modJrn (fun j => { j with seq := j.seq + 1 }) s).jrn.level + _ ≤ jrnWords by rw [jrnRecord_length]; exact hroom)]
  obtain ⟨hlost, hdue, hkept⟩ := jrnStore_jrn (jrnRecord s.jrn.seq 0x10 type s.time.ns payload) (modJrn (fun j => { j with seq := j.seq + 1 }) s)
  obtain ⟨hst, hrd, hrecs⟩ := hkept hstalled
  exact ⟨jrnStore_time _ _, hlost, hdue, hst, hrd, hrecs⟩

theorem jrnFlush_seq (s : State) : (jrnFlush s).jrn.seq = s.jrn.seq + 2 := by
  rw [jrnFlush, jrnNow_seq, jrnNow_seq, modJrn_jrn, BitVec.add_assoc]
  rfl

/-- The flush leaves FLUSHED and TIME_MARK behind what is being read. -/
theorem jrnFlush_stored {s : State} (hstalled : s.jrn.stalled = []) (hreading : s.jrn.reading.length ≤ 16) :
    (jrnFlush s).jrn.reading = s.jrn.reading ∧ (jrnFlush s).jrn.lost = s.jrn.lost ∧ (jrnFlush s).jrn.lostDue = s.jrn.lostDue ∧
      (jrnFlush s).jrn.recs = [jrnRecord s.jrn.seq 0x10 0x03 s.time.ns [s.jrn.recs.length],
        jrnRecord (s.jrn.seq + 1) 0x10 0x01 s.time.ns [s.time.ns.toNat / 2 ^ 32]] := by
  have hempty : (modJrn (fun j => { j with recs := [] }) s).jrn.level = s.jrn.reading.length := rfl
  have hseq1 : (jrnNow 0x03 [s.jrn.recs.length] (modJrn (fun j => { j with recs := [] }) s)).jrn.seq = s.jrn.seq + 1 := jrnNow_seq _ _ _
  obtain ⟨htime1, hlost1, hdue1, hst1, hrd1, hrecs1⟩ := jrnNow_stored (s := modJrn (fun j => { j with recs := [] }) s) 0x03 [s.jrn.recs.length] hstalled
    (by rw [hempty, jrnWords, List.length_singleton]; omega)
  unfold jrnFlush
  generalize jrnNow 0x03 [s.jrn.recs.length] (modJrn (fun j => { j with recs := [] }) s) = x at *
  have hlevel : x.jrn.level = s.jrn.reading.length + 3 := by
    rw [Journal.level, hrd1, hrecs1]
    rfl
  obtain ⟨-, hlost2, hdue2, -, hrd2, hrecs2⟩ := jrnNow_stored (s := x) 0x01 [s.time.ns.toNat / 2 ^ 32] hst1
    (by rw [hlevel, jrnWords, List.length_singleton]; omega)
  refine ⟨hrd2.trans hrd1, hlost2.trans hlost1, hdue2.trans hdue1, ?_⟩
  rw [hrecs2, hrecs1, hseq1, htime1]
  rfl

theorem jrnMakeRoom_room {need : Nat} (fuel : Nat) {s : State} (h : s.jrn.level + need ≤ jrnWords) : jrnMakeRoom need fuel s = s := by
  cases fuel with
  | zero => rfl
  | succ fuel => rw [jrnMakeRoom, if_pos (Or.inl h)]

/-- A record that finds 6 words free, with no LOST record pending, is stored in either mode. -/
theorem journal_stored {s : State} (type origin : Nat) (payload : List Nat) (hdue : s.jrn.lostDue = 0)
    (hroom : s.jrn.level + payload.length + 5 ≤ jrnWords) :
    journal type origin payload s =
      jrnStore (jrnRecord s.jrn.seq origin type s.time.ns payload) (modJrn (fun j => { j with seq := j.seq + 1 }) s) := by
  have hlevel : (modJrn (fun j => { j with seq := j.seq + 1 }) s).jrn.level = s.jrn.level := rfl
  have hlen := jrnRecord_length s.jrn.seq origin type s.time.ns payload
  unfold journal
  dsimp only
  split
  · rw [jrnMakeRoom_room _ (by rw [hlevel, hlen]; omega), if_pos (by rw [hlevel, hlen]; omega)]
  · rw [if_pos ⟨hdue, by rw [hlevel, hlen]; omega⟩]

theorem fxJournalLostStore_waits {s : State} (h : s.jrn.lostDue = 0 ∨ jrnWords < s.jrn.level + 6) : fxJournalLostStore s = s := by
  have hwait : (decide (0 < s.jrn.lostDue) && decide (s.jrn.level + 6 ≤ jrnWords)) = false := by
    rw [Bool.and_eq_false_iff, decide_eq_false_iff_not, decide_eq_false_iff_not]
    omega
  rw [fxJournalLostStore, whenS_false hwait]

theorem fxJournalLostStore_stores {s : State} (hdue : 0 < s.jrn.lostDue) (hroom : s.jrn.level + 6 ≤ jrnWords) :
    fxJournalLostStore s = jrnStore (jrnRecord s.jrn.seq 0x10 0x02 s.time.ns [s.jrn.lostDue])
      (modJrn (fun j => { j with seq := j.seq + 1, lostDue := 0 }) s) := by
  rw [fxJournalLostStore, whenS_true (by rw [decide_eq_true hdue, decide_eq_true hroom]; rfl)]
  exact journal_stored (s := modJrn (fun j => { j with lostDue := 0 }) s) 0x02 0x10 [s.jrn.lostDue] rfl hroom

/-! ### A read (R443) -/

section
variable {who : Who} {size : AccSize} {ecc : Ecc} {s : State}

/-- A refused read leaves its record where it comes from a locked debug port. -/
def readRefused (who : Who) (s : State) : State :=
  whenS (s.start.serving && who.dbg && !s.dbgEn)
    (journal 0x13 0x13 [0x300000, who.mid.toNat + 2 ^ 8 * worldBit who.world + 2 ^ 11 * b2n (s.unlock 2)]) s

theorem readRefused_only (who : Who) (s : State) : Only [.notice, .jrn, .evPend, .pviol, .pvcnt, .out] s (readRefused who s) := by
  unfold readRefused whenS
  split
  · exact Only.journal _ _ _ s (by decide) (Only.refl _ _)
  · exact Only.refl _ _

theorem readRefused_open (h : who.dbg = false ∨ s.dbgEn = true) : readRefused who s = s := by
  rw [readRefused, whenS_false]
  rcases h with h | h <;> simp [h]

theorem readRefused_locked (hserve : s.start.serving = true) (hdbg : who.dbg = true) (hlocked : s.dbgEn = false) :
    (readRefused who s).jrn.seq = s.jrn.seq + 1 := by
  rw [readRefused, whenS_true (by rw [hserve, hdbg, hlocked]; rfl), journal_seq]

/-- The port's rule for the journal, as the read applies it. -/
def readMay (who : Who) (s : State) : Bool :=
  s.start.serving && (s.isOwner who || (who.dbg && (!(s.start.serving && who.dbg && !s.dbgEn) || s.unlock 2)))

theorem readMay_eq (who : Who) (s : State) : readMay who s = (s.start.serving && mayRead s who .jr) := by
  unfold readMay mayRead
  cases s.start.serving <;> cases who.dbg <;> cases s.dbgEn <;> rfl

theorem fxJournalRead_refused (h : size = .b8 ∨ size = .b16 ∨ (s.start.serving && mayRead s who .jr) = false) :
    fxJournalRead who size ecc s = emit (.cfgRd who 0) (readRefused who s) := by
  rcases h with rfl | rfl | h
  · rfl
  · rfl
  · have hmay : (!readMay who s) = true := by rw [readMay_eq, h]; rfl
    cases size with
    | b8 => rfl
    | b16 => rfl
    | b32 => exact if_pos hmay
    | b64 => exact if_pos hmay

section
variable (hsize : size = .b32 ∨ size = .b64) (hmay : (s.start.serving && mayRead s who .jr) = true) (hopen : who.dbg = true → s.dbgEn = true)
include hsize hmay hopen

/-- A read that the port permits: it stalls at an empty journal, and is delivered otherwise. -/
theorem fxJournalRead_permitted : fxJournalRead who size ecc s =
    if s.jrn.level = 0 then modJrn (fun j => { j with stalled := j.stalled ++ [(who, size)] }) s
    else whenS (decide (ecc = .uncorrectable) && jrnOpens size s.jrn) (fun x => raiseG gUe (journalUe 12 0 x))
      (jrnDeliver who size (decide (ecc = .uncorrectable) && jrnOpens size s.jrn) (if ecc = .corrected then countCe 12 s else s)) := by
  have hnot : (!readMay who s) = false := by rw [readMay_eq, hmay]; rfl
  have hnorec : readRefused who s = s := readRefused_open (by cases hdbg : who.dbg with | false => exact Or.inl rfl | true => exact Or.inr (hopen hdbg))
  have hcore : fxJournalRead who size ecc s = if (!readMay who s) = true then emit (.cfgRd who 0) (readRefused who s)
      else if (readRefused who s).jrn.level = 0 then modJrn (fun j => { j with stalled := j.stalled ++ [(who, size)] }) (readRefused who s)
      else whenS (decide (ecc = .uncorrectable) && jrnOpens size (readRefused who s).jrn) (fun x => raiseG gUe (journalUe 12 0 x))
        (jrnDeliver who size (decide (ecc = .uncorrectable) && jrnOpens size (readRefused who s).jrn)
          (if ecc = .corrected then countCe 12 (readRefused who s) else readRefused who s)) := by
    rcases hsize with rfl | rfl <;> rfl
  rw [hcore, hnot, hnorec]
  rfl

theorem fxJournalRead_stalls (hreading : s.jrn.reading = []) (hrecs : s.jrn.recs = []) :
    fxJournalRead who size ecc s = modJrn (fun j => { j with stalled := j.stalled ++ [(who, size)] }) s := by
  rw [fxJournalRead_permitted hsize hmay hopen, if_pos (by rw [Journal.level, hreading, hrecs]; rfl)]

theorem fxJournalRead_clean (hecc : ecc = .clean) (hlevel : s.jrn.level ≠ 0) : fxJournalRead who size ecc s = jrnDeliver who size false s := by
  subst hecc
  rw [fxJournalRead_permitted hsize hmay hopen, if_neg hlevel]
  rfl

theorem fxJournalRead_corrupt (hecc : ecc = .uncorrectable) (hlevel : s.jrn.level ≠ 0) (hopens : jrnOpens size s.jrn = true) :
    fxJournalRead who size ecc s = raiseG gUe (journalUe 12 0 (jrnDeliver who size true s)) := by
  subst hecc
  rw [fxJournalRead_permitted hsize hmay hopen, if_neg hlevel, hopens]
  rfl

end

theorem level_reading {a : BitVec 32} {l : List (BitVec 32)} (h : s.jrn.reading = a :: l) : s.jrn.level ≠ 0 := by
  rw [Journal.level, h, List.length_cons]
  omega

theorem level_recs {a : BitVec 32} {l : List (BitVec 32)} {rs : List (List (BitVec 32))} (h : s.jrn.recs = (a :: l) :: rs) : s.jrn.level ≠ 0 := by
  rw [Journal.level, h, List.map_cons, List.length_cons, List.sum_cons]
  omega

theorem jrnOpen_reading {a : BitVec 32} {l : List (BitVec 32)} (bad : Bool) (h : s.jrn.reading = a :: l) : jrnOpen bad s = s := by
  unfold jrnOpen
  rw [h]

theorem jrnOpen_none (bad : Bool) (hreading : s.jrn.reading = []) (hrecs : s.jrn.recs = []) : jrnOpen bad s = s := by
  unfold jrnOpen
  rw [hreading, hrecs]

theorem jrnOpen_next {r : List (BitVec 32)} {rs : List (List (BitVec 32))} (hreading : s.jrn.reading = []) (hrecs : s.jrn.recs = r :: rs) :
    jrnOpen false s = modJrn (fun j => { j with reading := r, recs := rs }) s := by
  unfold jrnOpen
  rw [hreading, hrecs]
  rfl

/-- The CORRUPT record keeps the time word, and gives the length of the record that it stands for (R443). -/
theorem corrupt_words (seq : BitVec 16) (b : BitVec 32) (len : Nat) :
    ∃ c, jrnRecord seq 0x10 0x04 (BitVec.ofNat 64 b.toNat) [len] = [c, b, BitVec.ofNat 32 len] := by
  have htime : BitVec.ofNat 32 (BitVec.ofNat 64 b.toNat).toNat = b := by
    rw [BitVec.toNat_ofNat, Nat.mod_eq_of_lt (by omega), BitVec.ofNat_toNat, BitVec.setWidth_eq]
  exact ⟨_, by rw [jrnRecord, htime]; rfl⟩

/-- A record with an uncorrectable word is opened as a CORRUPT record. -/
theorem jrnOpen_corrupt {a b : BitVec 32} {l : List (BitVec 32)} {rs : List (List (BitVec 32))} (hreading : s.jrn.reading = [])
    (hrecs : s.jrn.recs = (a :: b :: l) :: rs) : ∃ c,
    jrnOpen true s = modJrn (fun j => { j with reading := [c, b, BitVec.ofNat 32 (l.length + 2)], recs := rs }) s := by
  obtain ⟨c, hwords⟩ := corrupt_words (BitVec.ofNat 16 a.toNat) b (l.length + 2)
  refine ⟨c, ?_⟩
  rw [← hwords]
  unfold jrnOpen
  rw [hreading, hrecs]
  rfl

/-- One read of what is being read. -/
theorem jrnDeliver_words {a : BitVec 32} {l : List (BitVec 32)} (bad : Bool) (h : (jrnOpen bad s).jrn.reading = a :: l) (hsize : size = .b32) :
    jrnDeliver who size bad s = emit (.cfgRd who (BitVec.ofNat 64 a.toNat)) (modJrn (fun j => { j with reading := l }) (jrnOpen bad s)) := by
  subst hsize
  unfold jrnDeliver
  dsimp only
  rw [h]
  cases l <;> rfl

theorem jrnDeliver_pair {a b : BitVec 32} {l : List (BitVec 32)} (bad : Bool) (h : (jrnOpen bad s).jrn.reading = a :: b :: l) (hsize : size = .b64) :
    jrnDeliver who size bad s =
      emit (.cfgRd who (BitVec.ofNat 64 (a.toNat + 2 ^ 32 * b.toNat))) (modJrn (fun j => { j with reading := l }) (jrnOpen bad s)) := by
  subst hsize
  unfold jrnDeliver
  dsimp only
  rw [h]
  rfl

/-- A read of 64 bits that goes on with the next record. -/
theorem jrnDeliver_on {a b : BitVec 32} {l : List (BitVec 32)} (bad : Bool) (h : s.jrn.reading = [a]) (hsize : size = .b64)
    (hnext : (jrnOpen bad (modJrn (fun j => { j with reading := [] }) s)).jrn.reading = b :: l) :
    jrnDeliver who size bad s = emit (.cfgRd who (BitVec.ofNat 64 (a.toNat + 2 ^ 32 * b.toNat)))
      (modJrn (fun j => { j with reading := l }) (jrnOpen bad (modJrn (fun j => { j with reading := [] }) s))) := by
  subst hsize
  unfold jrnDeliver
  dsimp only
  rw [jrnOpen_reading bad h, h]
  dsimp only
  rw [hnext]

theorem jrnDeliver_last {a : BitVec 32} (bad : Bool) (h : s.jrn.reading = [a]) (hrecs : s.jrn.recs = []) (hsize : size = .b64) :
    jrnDeliver who size bad s = emit (.cfgRd who (BitVec.ofNat 64 a.toNat)) (modJrn (fun j => { j with reading := [] }) s) := by
  have hnone : jrnOpen bad (modJrn (fun j => { j with reading := [] }) s) = modJrn (fun j => { j with reading := [] }) s := jrnOpen_none bad rfl hrecs
  subst hsize
  unfold jrnDeliver
  dsimp only
  rw [jrnOpen_reading bad h, h]
  dsimp only
  rw [hnone]
  rfl

theorem jrnDeliver_only (who : Who) (size : AccSize) (bad : Bool) (s : State) : Only [.jrn, .out] s (jrnDeliver who size bad s) :=
  Only.jrnDeliver who size bad s (by decide) (Only.refl _ _)

/-- What the record of an uncorrectable word leaves: what is being read, with the event. -/
theorem journalUe_after {s x : State} {rd : List (BitVec 32)} (honly : Only [.jrn, .out] s x) (hseq : x.jrn.seq = s.jrn.seq)
    (hstalled : x.jrn.stalled = []) (hreading : x.jrn.reading = rd) :
    Only [.notice, .jrn, .evPend, .pviol, .pvcnt, .out] s (raiseG gUe (journalUe 12 0 x)) ∧
      (raiseG gUe (journalUe 12 0 x)).jrn.reading = rd ∧ bitOf (raiseG gUe (journalUe 12 0 x)).evPend gUe = true ∧
      (raiseG gUe (journalUe 12 0 x)).jrn.seq = s.jrn.seq + 1 := by
  refine ⟨Only.raiseG _ _ (by decide) (Only.journalUe _ _ _ (by decide) (honly.mono (by decide))), ?_, raiseG_bit _ _ (by decide), ?_⟩
  · rw [raiseG_jrn, journalUe, journal_reading _ _ _ hstalled, hreading]
  · rw [raiseG_jrn, journalUe_seq, hseq]

end

end Sys2Proof.Machine

namespace Sys2Proof.JournalReads
open Sys2Proof.Machine

/-- Reads that the port answers with zero. -/
theorem refusedRead (who : Who) (size : AccSize) (ecc : Ecc) (s : State) (h : size = .b8 ∨ size = .b16 ∨ (s.start.serving && mayRead s who .jr) = false) :
    ∃ t, exec (.journalRead who size ecc) s = .next t ∧ Only [.notice, .jrn, .evPend, .pviol, .pvcnt, .out] s t ∧ t.out.getLast? = some (.cfgRd who 0) ∧
      (who.dbg = false ∨ s.dbgEn = true → t = emit (.cfgRd who 0) s) ∧
      (s.start.serving = true → who.dbg = true → s.dbgEn = false → t.jrn.seq = s.jrn.seq + 1) := by
  refine ⟨_, congrArg Host.Outcome.next (fxJournalRead_refused h), Only.emit _ (by decide) (readRefused_only who s), ?_, ?_, ?_⟩
  · rw [emit_out, List.getLast?_concat]
  · intro hopen
    rw [readRefused_open hopen]
  · intro hserve hdbg hlocked
    rw [emit_jrn, readRefused_locked hserve hdbg hlocked]

/-- Settles O56, by what each delivery of the journal is, and by the room that the flush and the LOST record find. -/
theorem journal : Obligations.Journal := by
  refine ⟨refusedRead, ?_, ?_, ?_, ?_, ?_, ?_⟩
  · intro who size ecc s hsize hmay hopen
    refine ⟨?_, ?_, ?_, ?_, ?_, ?_, ?_, ?_, ?_⟩
    · intro hreading hrecs
      exact ⟨_, congrArg Host.Outcome.next (fxJournalRead_stalls hsize hmay hopen hreading hrecs), Only.modJrn _ (by decide) (Only.refl _ _), rfl⟩
    · intro a l hb hecc hreading
      have hread := (fxJournalRead_clean hsize hmay hopen hecc (level_reading hreading)).trans
        (jrnDeliver_words (who := who) false (by rw [jrnOpen_reading false hreading]; exact hreading) hb)
      rw [jrnOpen_reading false hreading] at hread
      exact ⟨_, congrArg Host.Outcome.next hread, Only.emit _ (by decide) (Only.modJrn _ (by decide) (Only.refl _ _)), rfl, rfl⟩
    · intro a l rs hb hecc hreading hrecs
      have hnext := jrnOpen_next hreading hrecs
      have hread := (fxJournalRead_clean hsize hmay hopen hecc (level_recs hrecs)).trans
        (jrnDeliver_words (who := who) (a := a) (l := l) false (by rw [hnext]; rfl) hb)
      rw [hnext] at hread
      exact ⟨_, congrArg Host.Outcome.next hread,
        Only.emit _ (by decide) (Only.modJrn _ (by decide) (Only.modJrn _ (by decide) (Only.refl _ _))), rfl, rfl⟩
    · intro a b l hb hecc hreading
      have hread := (fxJournalRead_clean hsize hmay hopen hecc (level_reading hreading)).trans
        (jrnDeliver_pair (who := who) false (by rw [jrnOpen_reading false hreading]; exact hreading) hb)
      rw [jrnOpen_reading false hreading] at hread
      exact ⟨_, congrArg Host.Outcome.next hread, Only.emit _ (by decide) (Only.modJrn _ (by decide) (Only.refl _ _)), rfl, rfl⟩
    · intro a b l rs hb hecc hreading hrecs
      have hnext := jrnOpen_next hreading hrecs
      have hread := (fxJournalRead_clean hsize hmay hopen hecc (level_recs hrecs)).trans
        (jrnDeliver_pair (who := who) (a := a) (b := b) (l := l) false (by rw [hnext]; rfl) hb)
      rw [hnext] at hread
      exact ⟨_, congrArg Host.Outcome.next hread,
        Only.emit _ (by decide) (Only.modJrn _ (by decide) (Only.modJrn _ (by decide) (Only.refl _ _))), rfl, rfl⟩
    · intro a b l rs hb hecc hreading hrecs
      have hnext : jrnOpen false (modJrn (fun j => { j with reading := [] }) s) =
          modJrn (fun j => { j with reading := b :: l, recs := rs }) (modJrn (fun j => { j with reading := [] }) s) := jrnOpen_next rfl hrecs
      have hread := (fxJournalRead_clean hsize hmay hopen hecc (level_reading hreading)).trans
        (jrnDeliver_on (who := who) (b := b) (l := l) false hreading hb (by rw [hnext]; rfl))
      rw [hnext] at hread
      exact ⟨_, congrArg Host.Outcome.next hread,
        Only.emit _ (by decide) (Only.modJrn _ (by decide) (Only.modJrn _ (by decide) (Only.modJrn _ (by decide) (Only.refl _ _)))), rfl, rfl⟩
    · intro a hb hecc hreading hrecs
      have hread := (fxJournalRead_clean hsize hmay hopen hecc (level_reading hreading)).trans (jrnDeliver_last (who := who) false hreading hrecs hb)
      exact ⟨_, congrArg Host.Outcome.next hread, Only.emit _ (by decide) (Only.modJrn _ (by decide) (Only.refl _ _)), rfl, rfl⟩
    · intro a b l rs hb hecc hreading hrecs hstalled
      obtain ⟨c, hnext⟩ := jrnOpen_corrupt hreading hrecs
      have hdeliver := jrnDeliver_words (who := who) (a := c) (l := [b, BitVec.ofNat 32 (l.length + 2)]) true (by rw [hnext]; rfl) hb
      have hread := fxJournalRead_corrupt hsize hmay hopen hecc (level_recs hrecs) (by rw [jrnOpens, hreading]; rfl)
      exact ⟨_, congrArg Host.Outcome.next hread, journalUe_after (jrnDeliver_only who size true s) (jrnDeliver_seq who size true s)
        ((jrnDeliver_stalled who size true s).trans hstalled) (by rw [hdeliver]; rfl)⟩
    · intro a b c l rs hb hecc hreading hrecs hstalled
      obtain ⟨d, hnext⟩ := jrnOpen_corrupt (s := modJrn (fun j => { j with reading := [] }) s) rfl hrecs
      have hdeliver := jrnDeliver_on (who := who) (b := d) (l := [c, BitVec.ofNat 32 (l.length + 2)]) true hreading hb (by rw [hnext]; rfl)
      have hread := fxJournalRead_corrupt hsize hmay hopen hecc (level_reading hreading) (by rw [jrnOpens, hreading, hrecs, hb]; rfl)
      exact ⟨_, congrArg Host.Outcome.next hread, journalUe_after (jrnDeliver_only who size true s) (jrnDeliver_seq who size true s)
        ((jrnDeliver_stalled who size true s).trans hstalled) (by rw [hdeliver]; rfl)⟩
  · intro s
    refine ⟨fun hnone => ?_, fun w z l hstalled => ?_⟩
    · have hrun : fxJournalReadTimeout s = s := by rw [fxJournalReadTimeout, hnone]
      exact congrArg Host.Outcome.next hrun
    · have hrun : fxJournalReadTimeout s = emit (.cfgRd w 0) (modJrn (fun j => { j with stalled := l }) s) := by
        rw [fxJournalReadTimeout, hstalled]
      exact ⟨_, congrArg Host.Outcome.next hrun, Only.emit _ (by decide) (Only.modJrn _ (by decide) (Only.refl _ _)), rfl, rfl⟩
  · intro who s htakes
    exact ⟨_, congrArg Host.Outcome.next (gateW_takes htakes), Only.jrnFlush s (by decide) (Only.refl _ _), jrnFlush_seq s, jrnFlush_stored⟩
  · intro s
    refine ⟨fun hwait => congrArg Host.Outcome.next (fxJournalLostStore_waits hwait), fun hdue hroom => ?_⟩
    obtain ⟨hlost, hdue2, hkept⟩ := jrnStore_jrn (jrnRecord s.jrn.seq 0x10 0x02 s.time.ns [s.jrn.lostDue])
      (modJrn (fun j => { j with seq := j.seq + 1, lostDue := 0 }) s)
    exact ⟨_, congrArg Host.Outcome.next (fxJournalLostStore_stores hdue hroom),
      Only.jrnStore _ _ (by decide) (Only.modJrn _ (by decide) (Only.refl _ _)), hdue2, jrnStore_seq _ _, hlost, fun hstalled => (hkept hstalled).2⟩
  · intro who head s htakes
    refine ⟨_, congrArg Host.Outcome.next (gateW_takes htakes), Only.modJrn _ (by decide) (Only.refl _ _), ?_⟩
    rw [noticeHead, modJrn_jrn, judgeHead]
    dsimp only
    split
    · rfl
    · split <;> rfl
  · intro who r v s htakes
    refine ⟨fun hen => ⟨_, congrArg Host.Outcome.next (gateW_takes htakes), ?_⟩, fun hoff => ⟨_, congrArg Host.Outcome.next (gateW_takes htakes), ?_⟩⟩
    · rw [noticeSetup, if_pos hen, dropPiece_full]
      exact dropReg_dropped who (noticeReg r) v s
    · rw [noticeSetup, if_neg (by rw [hoff]; simp)]
      refine ⟨Only.modJrn _ (by decide) (Only.modOwn _ (hf := fun o => by cases r <;> rfl) (by decide) (Only.refl _ _)), rfl, ?_, ?_⟩
      · rintro rfl
        rfl
      · rintro rfl
        rfl

end Sys2Proof.JournalReads
end

section
/-!
The starting of chains (O25), and O32, which fails: a public-key operation that waits for a digest tile holds its tile, and the tile watchdog does
not count it.
-/

namespace Sys2Proof.Machine

theorem memCheck_reqs (c : Nat) (t : Option Nat) (ecc : Ecc) (s : State) : (memCheck c t ecc s).reqs = s.reqs :=
  (Only.memCheck c t ecc s (List.Subset.refl _) (Only.refl _ _)).2 .reqs (by decide)

/-- A late request stays late whatever the check of the context memory finds. -/
theorem dropsLate_memCheck (c : Nat) (t : Option Nat) (ecc : Ecc) (r : Req) (s : State) : dropsLate (memCheck c t ecc s) r = dropsLate s r := by
  have honly : Only [.notice, .tens, .ces, .jrn, .evPend, .pviol, .pvcnt, .out] s (memCheck c t ecc s) := Only.memCheck c t ecc s (List.Subset.refl _) (Only.refl _ _)
  have hjudged : (memCheck c t ecc s).judgedNs = s.judgedNs := by
    rw [State.judgedNs, State.judgedNs, honly.run_eq (by decide), show (memCheck c t ecc s).time = s.time from honly.2 .time (by decide)]
  unfold dropsLate
  simp only [hjudged, sq_of_only honly (by decide)]

section
variable {id : Nat} {r : Req} {s : State} (found : Option (Fin 8 × KeyFault))

/-- An entry that fails a check ends its chain with the first failing one (R106). -/
theorem startChain_refuses {o : Outcome} (h : s.req id = some r) (hown : r.foreign = false) (hcheck : entryCheck r.entry r.isBoot = some o) :
    EndedWith (startChain found id s) id r o := by
  have hrun : startChain found id s = endChain id o (modReq id (fun r => { r with ops := [] }) s) := by
    unfold startChain
    rw [h]
    dsimp only
    rw [if_neg (by rw [hown]; simp), hcheck]
  rw [hrun]
  exact endStarts o (modReq_req_same _ (fun _ => rfl) h) rfl rfl

/-- A chain with no operation ends DONE, and a late one that is to be dropped runs nothing (R85, R363). -/
theorem startChain_ends {o : Outcome} (h : s.req id = some r) (hown : r.foreign = false) (hcheck : entryCheck r.entry r.isBoot = none)
    (hends : eNops r.entry = 0 ∧ o = ⟨0x00, 0, 0⟩ ∨ eNops r.entry ≠ 0 ∧ dropsLate s r = true ∧ o = ⟨0x62, 2, 0⟩) :
    EndedWith (startChain found id s) id r o := by
  have hrun : startChain found id s = endChain id o (openEntry id s) := by
    unfold startChain
    rw [h]
    dsimp only
    rw [if_neg (by rw [hown]; simp), hcheck]
    rcases hends with ⟨hnone, rfl⟩ | ⟨hops, hlate, rfl⟩
    · exact if_pos hnone
    · rw [if_neg hops, if_pos hlate]
  rw [hrun]
  exact endStarts o (modReq_req_same _ (fun _ => rfl) h) rfl rfl

end

end Sys2Proof.Machine

namespace Sys2Proof.Starts
open Sys2Proof.Machine

/-- Settles O25, by the branch of the chain's start that each case takes. -/
theorem chainStarts : Obligations.ChainStarts := by
  intro id ecc found r s hreq hphase hturn hcs
  have hexec : exec (.chainStart id ecc found) s = .next (startChain found id (memCheck 1 (if r.isBoot || r.foreign then none else some r.tenant.val) ecc s)) :=
    congrArg Host.Outcome.next ((withReq_some hreq).trans (whenS_true (by rw [hphase, hturn, hcs]; rfl)))
  rw [hexec]
  have hreq' : (memCheck 1 (if r.isBoot || r.foreign then none else some r.tenant.val) ecc s).req id = some r :=
    (req_of_reqs (memCheck_reqs _ _ _ _) id).trans hreq
  refine ⟨fun o hown hcheck => ⟨_, rfl, startChain_refuses found hreq' hown hcheck⟩,
    fun hown hcheck hnone => ⟨_, rfl, startChain_ends found hreq' hown hcheck (Or.inl ⟨hnone, rfl⟩)⟩,
    fun hown hcheck hops hlate => ⟨_, rfl, startChain_ends found hreq' hown hcheck (Or.inr ⟨hops, (dropsLate_memCheck _ _ _ _ _).trans hlate, rfl⟩)⟩, ?_⟩
  obtain ⟨r', hreq2, htenant, hentry, hgoes⟩ := startChain_goes found hreq'
  exact ⟨_, r', rfl, hreq2, htenant, hentry, hgoes⟩

/-- A request whose ML-KEM key generation has passed its check phase and waits for its hash. -/
def hashing : Req :=
  { id := 7, tenant := 0, origin := .ring 0, phase := .running, ops := [{ w := { opc := 0x70 }, phase := .running, tiles := [20], checked := true }] }

/-- A serving engine whose tile 20 holds that operation, which waits for a digest tile. -/
def hashWaits : State :=
  modTile 20 (fun u => { u with bankA := .running 7 0 }) { State.reset with
    start := { State.reset.start with serving := true }
    reqs := [hashing] }

theorem hashWaits_holds : tilesOpen hashWaits = true ∧ (hashWaits.tile 20).st = .healthy ∧ (pkRunning hashWaits 20).isSome = true ∧
    ((fxTileWatchdog 20 false hashWaits).tile 20).st = .healthy := by decide +kernel

/-- Refutes O32: the cycles of a public-key operation that waits for a digest tile are not counted (R428), so TILE_WATCHDOG leaves its tile in
service, where the statement has every public-key tile that runs an operation leave it. -/
theorem not_groutAndWatchdogs : ¬ Obligations.GroutAndWatchdogs := by
  unfold Obligations.GroutAndWatchdogs
  rintro ⟨-, -, hwatchdog, -⟩
  obtain ⟨hopen, hhealthy, hruns, hstays⟩ := hashWaits_holds
  obtain ⟨t, hexec, hout, -, -⟩ := hwatchdog 20 hashWaits hopen hhealthy (Or.inr hruns)
  have ht : fxTileWatchdog 20 false hashWaits = t := Host.Outcome.next.inj hexec
  rw [← ht, show (fxTileWatchdog 20 false hashWaits).tile (20 : TileIx).val = (fxTileWatchdog 20 false hashWaits).tile 20 from rfl, hstays] at hout
  exact absurd hout (by split <;> decide)

end Sys2Proof.Starts
end

section
/-!
Data of a running chain, and COPY (R85, R91, R431), with the statement O26.
-/

namespace Sys2Proof.Machine

section
variable {id b : Nat} {r : Req} {s : State}

theorem RunsOn.of_req {t : State} {r1 : Req} {P : Req → Prop} (h : RunsOn t id r1 P) (htenant : r1.tenant = r.tenant) (hentry : r1.entry = r.entry)
    (hphase : r1.phase = r.phase) : RunsOn t id r P := by
  obtain ⟨r', hreq, ht, he, hp, hP⟩ := h
  exact ⟨r', hreq, ht.trans htenant, he.trans hentry, by rw [← hphase]; exact hp, hP⟩

/-- Data taken joins the data of its buffer (R91). -/
theorem takeData_grew (data : Bytes) (h : s.req id = some r) :
    Grew id { r with bufs := r.bufs.put {} b { r.buf b with data := (r.buf b).data ++ data.take (r.buf b).due } } (takeData id b data s) := by
  have hreq := modBuf_req_same b (fun q => { q with data := q.data ++ data.take (r.buf b).due }) h
  unfold takeData
  rw [h]
  dsimp only
  split
  · exact Grew.askElem _ _ _ (Grew.refl hreq)
  · exact Grew.refl hreq

/-- A read of a range leaves the data, and asks for the whole range or stops (R369). -/
theorem issueRange_req (a l : Nat) (h : s.req id = some r) :
    ∃ v : BufSt, (issueRange id b a l s).req id = some { r with bufs := r.bufs.put {} b v } ∧ v.data = (r.buf b).data ∧
      (v.issued = (r.buf b).issued + l ∨ v.stop = some (stAccess, 1)) := by
  have hrd (a l : Nat) (x : State) : (emitRd a l x).reqs = x.reqs := (Only.emitRd a l x (List.Subset.refl _) (Only.refl _ _)).2 .reqs (by decide)
  have hviol (r : Req) (a : Nat) (d : Dir) (c : Nat) (x : State) : (reqViol r a d c x).reqs = x.reqs :=
    (Only.reqViol r a d c x (List.Subset.refl _) (Only.refl _ _)).2 .reqs (by decide)
  unfold issueRange
  rw [h]
  dsimp only
  split
  · exact ⟨_, (req_of_reqs (hrd _ _ _) id).trans (modBuf_req_same b _ h), rfl, Or.inl rfl⟩
  next fa cause _ =>
    exact ⟨_, (req_of_reqs (hviol _ _ _ _ _) id).trans ((req_of_reqs (hrd _ _ _) id).trans (modBuf_req_same b _ h)), rfl, Or.inr rfl⟩

theorem readSegs_req (l : List (Nat × Nat × Nat)) (h : s.req id = some r) :
    ∃ r', (readSegs id b l s).req id = some r' ∧ r'.phase = r.phase ∧ (r'.buf b).data = (r.buf b).data := by
  induction l generalizing s r with
  | nil => exact ⟨r, h, rfl, rfl⟩
  | cons p l ih =>
    obtain ⟨a, lo, len⟩ := p
    obtain ⟨v, hissued, hdata, -⟩ := issueRange_req (b := b) a len h
    have hbuf : (Req.buf { r with bufs := r.bufs.put {} b v } b).data = (r.buf b).data := by rw [buf_put, if_pos rfl, hdata]
    rw [readSegs]
    split
    · obtain ⟨r', hreq, hphase, hdata'⟩ := ih hissued
      exact ⟨r', hreq, hphase, hdata'.trans hbuf⟩
    · exact ⟨_, hissued, rfl, hbuf⟩

theorem readSegs_single (a lo len : Nat) : readSegs id b [(a, lo, len)] s = issueRange id b a len s := by
  rw [readSegs]
  split <;> rfl

/-- What is read again where the staging buffer lost it: what was due of a flat buffer or a frame is due again, or the buffer stops (R431). -/
theorem rereadBuf_req (h : s.req id = some r) (hnot : (r.buf b).asking = false) (hdue : 0 < (r.buf b).due) :
    ∃ r', (rereadBuf r b s).req id = some r' ∧ r'.phase = r.phase ∧ (r'.buf b).data = (r.buf b).data ∧
      ((r.ref b).kind = kFlat ∨ (r.ref b).kind = kFrame → (r'.buf b).due = (r.buf b).due ∨ (r'.buf b).stop = some (stAccess, 1)) := by
  have hstart := modBuf_req_same b (fun q => { q with issued := q.data.length }) h
  unfold rereadBuf
  dsimp only
  rw [if_neg (by rw [hnot]; simp), req_id h]
  by_cases hframe : (r.ref b).kind = kFrame
  · rw [if_pos hframe]
    exact ⟨r, h, rfl, rfl, fun _ => Or.inl rfl⟩
  rw [if_neg hframe]
  by_cases hflat : (r.ref b).kind = kFlat
  · rw [segsOf, if_pos hflat, if_pos (by rw [BufSt.due] at hdue; omega), readSegs_single]
    obtain ⟨v, hissued, hdata, hstop⟩ := issueRange_req (b := b) ((r.ref b).addr + (r.buf b).data.length) ((r.buf b).issued - (r.buf b).data.length) hstart
    rw [buf_put, if_pos rfl] at hdata hstop
    refine ⟨_, hissued, rfl, by rw [buf_put, if_pos rfl, hdata], fun _ => ?_⟩
    rw [buf_put, if_pos rfl, BufSt.due, BufSt.due, hdata]
    rw [BufSt.due] at hdue
    exact hstop.imp_left fun hissue => by rw [hissue]; exact Nat.add_sub_cancel_left _ _
  · obtain ⟨r', hreq, hphase, hdata⟩ := readSegs_req (b := b) (segsOf (r.ref b) (r.buf b) (r.buf b).data.length (r.buf b).issued) hstart
    rw [buf_put, if_pos rfl] at hdata
    exact ⟨r', hreq, hphase, hdata, fun hkind => absurd hkind (by simp [hflat, hframe])⟩

end

theorem Pend.readSegs {e : Nat} (id b : Nat) (l : List (Nat × Nat × Nat)) (s : State) (h : Pend e s) : Pend e (Machine.readSegs id b l s) := by
  induction l generalizing s with
  | nil => exact h
  | cons p l ih =>
    obtain ⟨a, lo, len⟩ := p
    rw [Machine.readSegs]
    split
    · exact ih _ (Pend.issueRange id b a len s h)
    · exact Pend.issueRange id b a len s h

theorem Pend.rereadBuf {e : Nat} (r : Req) (b : Nat) (s : State) (h : Pend e s) : Pend e (Machine.rereadBuf r b s) := by
  unfold Machine.rereadBuf
  dsimp only
  split
  · exact Pend.askElem _ _ _ _ (Pend.modBuf _ _ _ _ h)
  · split
    · exact Pend.emit _ _ h
    · exact Pend.readSegs _ _ _ _ (Pend.modBuf _ _ _ _ h)

end Sys2Proof.Machine

namespace Sys2Proof.Data
open Sys2Proof.Machine

/-- Settles O26, by what the return of data does to its buffer, and by what a chain keeps as it moves on. -/
theorem dataArrives : Obligations.DataArrives := by
  refine ⟨fun id b data r s hreq hphase hstarted => ⟨fun hstale ecc => ?_, fun hfresh hnot hdue => ⟨?_, ?_⟩⟩, fun id i r s hreq hstart hcopy => ?_⟩
  · have hexec : exec (.dataReadReturn id b data ecc) s = .next (modBuf id b.val (fun q => { q with stale := q.stale - max 1 data.length }) s) :=
      congrArg Host.Outcome.next ((withReq_some hreq).trans ((whenS_true (by simp [hphase, hstale])).trans (if_pos hstale)))
    refine ⟨_, _, hexec, Only.modBuf _ _ _ _ (by decide) (Only.refl _ _), modBuf_req_same b.val _ hreq, rfl, ?_, ?_⟩
    · rw [buf_put, if_pos rfl]
    · rw [buf_put, if_pos rfl, BufSt.due, BufSt.due]
  · have hexec : exec (.dataReadReturn id b data .clean) s = .next (settle id (takeData id b.val data s)) := by
      refine congrArg Host.Outcome.next ((withReq_some hreq).trans ((whenS_true (by simp [hphase, hdue])).trans ((if_neg (by omega)).trans ?_)))
      exact (if_neg (by decide)).trans (congrArg (settle id) (if_neg (by rw [hnot]; simp)))
    obtain ⟨r1, hreq1, hto⟩ := takeData_grew data hreq
    refine ⟨_, hexec, RunsOn.of_req (settle_runs hreq1 fun r' hto' => ?_) hto.tenant hto.entry hto.phase⟩
    obtain ⟨hstarted1, hdata1⟩ := hto.buf b.val (by rw [buf_put, if_pos rfl]; exact hstarted)
    have hkept : (r'.buf b.val).data = (r1.buf b.val).data := (hto'.buf b.val hstarted1).2
    rw [hkept, hdata1, buf_put, if_pos rfl]
  · have hexec : exec (.dataReadReturn id b data .uncorrectable) s = .next (rereadBuf r b.val (raiseG gUe (journalUe 3 0 s))) :=
      congrArg Host.Outcome.next ((withReq_some hreq).trans ((whenS_true (by simp [hphase, hdue])).trans ((if_neg (by omega)).trans (if_pos rfl))))
    have hjournal : Only recordParts s (journalUe 3 0 s) := Only.journalUe 3 0 s (by decide) (Only.refl _ _)
    have hreq1 : (raiseG gUe (journalUe 3 0 s)).req id = some r := (req_of_reqs (hjournal.2 .reqs (by decide)) id).trans hreq
    have honly : Only [.tens, .reqs, .evPend, .pviol, .pvcnt, .out] (raiseG gUe (journalUe 3 0 s)) (rereadBuf r b.val (raiseG gUe (journalUe 3 0 s))) :=
      Only.rereadBuf r b.val _ (List.Subset.refl _) (Only.refl _ _)
    obtain ⟨r', hreq', hphase', hdata, hkind⟩ := rereadBuf_req hreq1 hnot hdue
    refine ⟨_, r', hexec, ?_, ?_, ?_, hreq', hphase', hdata, hkind⟩
    · exact (Only.raiseG _ _ (by decide) (hjournal.mono (by decide))).trans (honly.mono (by decide))
    · exact Pend.rereadBuf r b.val _ (raiseG_bit _ _ (by decide))
    · rw [honly.jrn (by decide), raiseG_jrn, journalUe_seq]
  · have hexec : exec (.copyOperation id i) s = .next (settle id (modOp id i.val (fun o => { o with phase := .running }) s)) :=
      congrArg Host.Outcome.next ((withReq_some hreq).trans (whenS_true (by simp [hstart, hcopy])))
    refine ⟨_, hexec, RunsOn.of_req (settle_runs (modOp_req_same i.val _ hreq) fun r' hto => ?_) rfl rfl rfl⟩
    have hop := (hto.op i.val).1
    rw [op_modify_same _ _ _ (canStart_lt hstart)] at hop
    exact hop

end Sys2Proof.Data
end

section
/-!
What the moves of a chain leave of a request beside its progress, and of the tiles: `settle` and `endChain` change no number, no place on a tile and
no key work of an operation, and they take from tiles, never give.
-/

namespace Sys2Proof.Machine

/-- An operation but for its progress: what a chain that moves on or ends leaves of it. -/
def OpSt.core (o : OpSt) : OpSt :=
  { o with phase := .waiting, consumed := 0, output := [], trunc := false, claimed := false, produced := none, key := none }

/-- A request but for its progress. -/
def Req.core (r : Req) : Req :=
  { r with phase := .admitted, ops := r.ops.map OpSt.core, bufs := [], outcome := none, wxLo := 0, wxHi := 0, scrubbed := false,
           fenceFail := none, port0 := none, port1 := none, finishNo := 0 }

/-- The requests in flight are, but for their progress, those of v. -/
def Cores (v : List Req) (s : State) : Prop := s.reqs.map Req.core = v

section
variable {v : List Req} {s : State}

theorem Cores.only {A : List Part} {t : State} (h : Cores v s) (honly : Only A s t) (hA : Part.reqs ∉ A) : Cores v t := by
  rw [Cores, show t.reqs = s.reqs from honly.2 .reqs hA]
  exact h

theorem Cores.modReq (id : Nat) {f : Req → Req} (h : Cores v s) (hf : ∀ r, (f r).core = r.core) : Cores v (Machine.modReq id f s) := by
  rw [← h]
  show (s.reqs.map fun r => if r.id = id then f r else r).map Req.core = s.reqs.map Req.core
  rw [List.map_map]
  refine List.map_congr_left fun r _ => ?_
  show (if r.id = id then f r else r).core = r.core
  split
  · exact hf r
  · rfl

theorem Req.core_ops {r : Req} {l : List OpSt} (h : l.map OpSt.core = r.ops.map OpSt.core) : Req.core { r with ops := l } = r.core := by
  rw [Req.core, Req.core, h]

theorem core_modify (l : List OpSt) (i : Nat) {f : OpSt → OpSt} (hf : ∀ o, (f o).core = o.core) : (l.modify i f).map OpSt.core = l.map OpSt.core := by
  induction l generalizing i with
  | nil => rw [List.modify_nil]
  | cons o l ih => cases i with
    | zero => rw [List.modify_zero_cons, List.map_cons, List.map_cons, hf]
    | succ i => rw [List.modify_succ_cons, List.map_cons, List.map_cons, ih]

theorem core_map (l : List OpSt) {f : OpSt → OpSt} (hf : ∀ o, (f o).core = o.core) : (l.map f).map OpSt.core = l.map OpSt.core := by
  rw [List.map_map]
  exact List.map_congr_left fun o _ => hf o

theorem Cores.modOp (id i : Nat) {f : OpSt → OpSt} (h : Cores v s) (hf : ∀ o, (f o).core = o.core := by intro o; rfl) :
    Cores v (Machine.modOp id i f s) :=
  Cores.modReq id h fun r => Req.core_ops (core_modify r.ops i hf)

theorem Cores.modBuf (id b : Nat) (f : BufSt → BufSt) (h : Cores v s) : Cores v (Machine.modBuf id b f s) := Cores.modReq id h fun _ => rfl

theorem Cores.ite {c : Prop} [Decidable c] {x y : State} (hx : Cores v x) (hy : Cores v y) : Cores v (if c then x else y) := by
  split
  · exact hx
  · exact hy

theorem Cores.emitRd (a l : Nat) (h : Cores v s) : Cores v (Machine.emitRd a l s) :=
  h.only (Only.emitRd a l s (List.Subset.refl _) (Only.refl _ _)) (by decide)
theorem Cores.emitWr (a : Nat) (d : Bytes) (h : Cores v s) : Cores v (Machine.emitWr a d s) :=
  h.only (Only.emitWr a d s (List.Subset.refl _) (Only.refl _ _)) (by decide)
theorem Cores.reqViol (r : Req) (a : Nat) (d : Dir) (c : Nat) (h : Cores v s) : Cores v (Machine.reqViol r a d c s) :=
  h.only (Only.reqViol r a d c s (List.Subset.refl _) (Only.refl _ _)) (by decide)
theorem Cores.reqWrote (id b a off len : Nat) (h : Cores v s) : Cores v (Machine.reqWrote id b a off len s) := Cores.modReq id h fun _ => rfl

theorem Cores.writeSegs (id b : Nat) (data : Bytes) (l : List (Nat × Nat × Nat)) (h : Cores v s) : Cores v (Machine.writeSegs id b data l s).1 := by
  have hput (a off n : Nat) (x : State) (hx : Cores v x) : Cores v (if n = 0 then x else
      Machine.modBuf id b (fun q => { q with written := off + n }) (Machine.reqWrote id b a off n (Machine.emitWr a (slice data off n) x))) :=
    .ite hx (.modBuf _ _ _ (.reqWrote _ _ _ _ _ (.emitWr _ _ hx)))
  induction l generalizing s with
  | nil => exact h
  | cons g l ih =>
    obtain ⟨a, off, len⟩ := g
    unfold Machine.writeSegs
    split
    · exact h
    · dsimp only
      split
      · exact ih (hput _ _ _ _ h)
      · exact .reqViol _ _ _ _ (hput _ _ _ _ h)

theorem Cores.writeOut (r : Req) (i n : Nat) (h : Cores v s) : Cores v (Machine.writeOut r i n s).1 := by
  unfold Machine.writeOut
  dsimp only
  split
  · split
    · exact .reqViol _ _ _ _ h
    · exact h
  · exact .writeSegs _ _ _ _ h

theorem Cores.askElem (id b : Nat) (f : Fail) (h : Cores v s) : Cores v (Machine.askElem id b f s) := by
  unfold Machine.askElem
  split
  · exact h
  · refine .ite h (.ite (.modBuf _ _ _ h) ?_)
    dsimp only
    split
    · exact .emitRd _ _ (.modBuf _ _ _ h)
    · exact .reqViol _ _ _ _ (.modBuf _ _ _ h)

theorem Cores.issueRange (id b a l : Nat) (h : Cores v s) : Cores v (Machine.issueRange id b a l s) := by
  unfold Machine.issueRange
  split
  · exact h
  · split
    · exact .emitRd _ _ (.modBuf _ _ _ h)
    · exact .reqViol _ _ _ _ (.emitRd _ _ (.modBuf _ _ _ h))

theorem Cores.startBuf (id b : Nat) (h : Cores v s) : Cores v (Machine.startBuf id b s) := by
  have hops (x : State) (hx : Cores v x) :
      Cores v (Machine.modReq id (fun r => { r with ops := r.ops.map (fun o => if o.w.src = b + 8 then { o with trunc := true } else o) }) x) :=
    .modReq id hx fun r => Req.core_ops (core_map r.ops fun o => by split <;> rfl)
  unfold Machine.startBuf
  split
  · exact h
  · have hstart : Cores v (Machine.modBuf id b (fun q => { q with started := true }) s) := .modBuf _ _ _ h
    exact .ite h (.ite hstart (.ite (.issueRange _ _ _ _ hstart) (.ite (.askElem _ _ _ hstart) (.ite (.modBuf _ _ _ hstart)
      (.ite (.ite (hops _ (.modBuf _ _ _ hstart)) (.modBuf _ _ _ hstart)) (.ite (hops _ (.modBuf _ _ _ hstart)) (.modBuf _ _ _ hstart)))))))

theorem Cores.startBufs (id : Nat) (h : Cores v s) : Cores v (Machine.startBufs id s) := by
  unfold Machine.startBufs
  split
  · exact h
  · exact eachN_ind _ _ _ h fun _ _ hx => .startBuf _ _ hx

theorem Cores.receiveKey (id i : Nat) (h : Cores v s) : Cores v (Machine.receiveKey id i s).1 := by
  unfold Machine.receiveKey
  split
  · exact h
  · dsimp only
    split
    · exact h
    · split
      · exact h
      · split
        · exact h
        · exact .modOp _ _ h

theorem Cores.flushOp (id i : Nat) (h : Cores v s) : Cores v (Machine.flushOp id i s).1 := by
  unfold Machine.flushOp
  split
  · exact h
  next r hr =>
    have hout : Cores v (Machine.writeOut r i (r.mayWrite i) s).1 := .writeOut _ _ _ h
    dsimp only
    split
    · exact h
    split
    · exact h
    split
    · exact .modBuf _ _ _ (.modReq _ h fun _ => rfl)
    split
    next s1 off hw =>
      rw [hw] at hout
      exact .modOp _ _ hout
    next s1 hw =>
      rw [hw] at hout
      have hask : Cores v (Machine.askElem id ((r.op i).w.dst - 8) (stBadInput, 2) s1) := .askElem _ _ _ hout
      split
      · split
        · exact hask
        · split
          · exact .modOp _ _ hask
          · exact hask
      · exact hout

theorem Cores.settleOp (id i : Nat) (h : Cores v s) : Cores v (Machine.settleOp id i s).1 := by
  have hkey : Cores v (Machine.receiveKey id i s).1 := .receiveKey _ _ h
  unfold Machine.settleOp
  split
  next e => rw [e] at hkey; exact hkey
  next s1 e =>
    rw [e] at hkey
    split
    · exact hkey
    next r hr =>
      split
      · dsimp only
        split
        · exact Cores.only (.modOp _ _ hkey) (Only.pairRecord _ _ _ _ _ (List.Subset.refl _) (Only.refl _ _)) (by decide)
        · exact .modOp _ _ hkey
      · dsimp only
        have htakes : Cores v (if (r.op i).takes = true then
            Machine.modOp id i (fun o => { o with consumed := (r.src i).length, output := soFar r i (r.src i) }) s1 else s1) := .ite (.modOp _ _ hkey) hkey
        generalize (if (r.op i).takes = true then Machine.modOp id i _ s1 else s1) = s2 at htakes ⊢
        have hdone : Cores v (if ((r.op i).takes && decide ((r.op i).w.opc = 0x01) && decide ((r.src i).length = r.srcLen i)) = true then
            Machine.modOp id i (fun o => { o with phase := .done }) s2 else s2) := .ite (.modOp _ _ htakes) htakes
        generalize (if ((r.op i).takes && decide ((r.op i).w.opc = 0x01) && decide ((r.src i).length = r.srcLen i)) = true then _ else s2) = s3 at hdone ⊢
        have hflush : Cores v (Machine.flushOp id i s3).1 := .flushOp _ _ hdone
        split
        next e4 => rw [e4] at hflush; exact hflush
        next e4 => rw [e4] at hflush; exact hflush

theorem Cores.settleOps (id : Nat) (l : List Nat) (h : Cores v s) : Cores v (Machine.settleOps id l s).1 := by
  induction l generalizing s with
  | nil => exact h
  | cons i l ih =>
    have hop : Cores v (Machine.settleOp id i s).1 := .settleOp id i h
    unfold Machine.settleOps
    split
    next e => rw [e] at hop; exact hop
    next e => rw [e] at hop; exact ih hop

theorem Cores.fencePort (id : Nat) (p : Bool) (h : Cores v s) : Cores v (Machine.fencePort id p s) := by
  unfold Machine.fencePort
  split
  · exact h
  · split
    · exact h
    · split
      · exact .emitRd _ _ h
      · exact .reqViol _ _ _ _ (.modReq _ h fun _ => rfl)

theorem Cores.fenceFrame (r : Req) (h : Cores v s) : Cores v (Machine.fenceFrame r s) :=
  eachN_ind _ _ _ h fun _ x hx => .ite (Cores.only (.modBuf r.id _ _ hx) (Only.emit (A := [.out]) _ (by decide) (Only.refl _ _)) (by decide)) hx

theorem Cores.scrubAll (r : Req) (h : Cores v s) : Cores v (Machine.scrubAll r s) := by
  have hput (a n : Nat) (x : State) (hx : Cores v x) :
      Cores v (if n = 0 then x else Machine.modReq r.id (fun r => r.sentOn a n) (Machine.emitWr a (zeros n) x)) :=
    .ite hx (.modReq _ (.emitWr _ _ hx) fun _ => rfl)
  have hseg (a len : Nat) (x : State) (hx : Cores v x) : Cores v (scrubSeg r a len x) := by
    unfold scrubSeg
    dsimp only
    split
    · exact hput _ _ _ hx
    · exact .reqViol _ _ _ _ (hput _ _ _ hx)
  have hsegs (l : List (Nat × Nat × Nat)) (x : State) (hx : Cores v x) : Cores v (l.foldl (fun s g => scrubSeg r g.1 g.2.2 s) x) := by
    induction l generalizing x with
    | nil => exact hx
    | cons g l ih => exact ih _ (hseg _ _ _ hx)
  exact eachN_ind _ _ _ h fun _ _ hx => .ite (.ite hx hx) (hsegs _ _ hx)

theorem Cores.endChain (id : Nat) (o : Outcome) (h : Cores v s) : Cores v (Machine.endChain id o s) := by
  unfold Machine.endChain
  split
  · exact h
  next r hr =>
    dsimp only
    have hstreams : Cores v (dropStreams r o (endStreams r o (freeTiles id s))) :=
      h.only (Only.dropStreams _ _ _ (A := [.tiles, .streams]) (by decide) (Only.endStreams _ _ _ (by decide) (Only.freeTiles _ _ (by decide) (Only.refl _ s)))) (by decide)
    generalize dropStreams r o (endStreams r o (freeTiles id s)) = s1 at hstreams ⊢
    have hclaims : Cores v (eachN r.claims (fun x s => if o.status = 0 then beginVerify x s else unclaim x s) s1) :=
      eachN_ind _ _ _ hstreams fun x y hy => .ite (hy.only (Only.beginVerify x y (List.Subset.refl _) (Only.refl _ _)) (by decide))
        (hy.only (Only.unclaim x y (List.Subset.refl _) (Only.refl _ _)) (by decide))
    generalize eachN r.claims _ s1 = s2 at hclaims ⊢
    have hscrub : Cores v (if mustScrub r o = true then Machine.scrubAll r s2 else s2) := .ite (.scrubAll _ hclaims) hclaims
    generalize (if mustScrub r o = true then Machine.scrubAll r s2 else s2) = s3 at hscrub ⊢
    generalize hs4 : Machine.modReq id _ s3 = s4
    have hend : Cores v s4 := by
      rw [← hs4]
      exact .modReq id hscrub fun r => Req.core_ops (r := r) (core_map r.ops fun _ => rfl)
    exact .ite (.fenceFrame _ (.fencePort _ _ (.fencePort _ _ hend))) hend

theorem Cores.endDone (id : Nat) (h : Cores v s) : Cores v (Machine.endDone id s) := by
  unfold Machine.endDone
  split
  · exact h
  · split
    · exact .endChain _ _ h
    · split
      · exact .endChain _ _ h
      · exact .endChain _ _ h

/-- A chain that moves on changes of the requests in flight only their progress. -/
theorem Cores.settle (id : Nat) (h : Cores v s) : Cores v (Machine.settle id s) := by
  unfold Machine.settle
  split
  · exact h
  next r hr =>
    dsimp only
    split
    · exact h
    have hops1 : Cores v (Machine.settleOps id (List.range r.ops.length) (Machine.startBufs id s)).1 := .settleOps _ _ (.startBufs _ h)
    split
    next s1 o e => rw [e] at hops1; exact .endChain _ _ hops1
    next s1 e =>
      rw [e] at hops1
      have hops2 : Cores v (Machine.settleOps id (List.range r.ops.length) (Machine.startBufs id s1)).1 := .settleOps _ _ (.startBufs _ hops1)
      split
      next s2 o e2 => rw [e2] at hops2; exact .endChain _ _ hops2
      next s2 e2 =>
        rw [e2] at hops2
        split
        · exact hops2
        · exact .ite (.endDone _ hops2) hops2

theorem Cores.settleAll (h : Cores v s) : Cores v (Machine.settleAll s) := by
  unfold Machine.settleAll
  generalize s.reqs = l
  induction l generalizing s with
  | nil => exact h
  | cons r l ih => exact ih (.settle r.id h)

/-- A request is still there, and is the same but for its progress. -/
theorem Cores.req {t : State} {id : Nat} {r : Req} (h : Cores (s.reqs.map Req.core) t) (hreq : s.req id = some r) :
    ∃ r', t.req id = some r' ∧ r'.core = r.core := by
  have hfind (l : List Req) : (l.find? fun r => r.id = id).map Req.core = (l.map Req.core).find? fun r => r.id = id := by
    rw [List.find?_map]
    rfl
  have hcore : (t.req id).map Req.core = some r.core := by
    rw [State.req, hfind, show t.reqs.map Req.core = s.reqs.map Req.core from h, ← hfind, ← State.req, hreq]
    rfl
  exact Option.map_eq_some_iff.mp hcore

theorem core_op {r r' : Req} (h : r'.core = r.core) (i : Nat) : (r'.op i).core = (r.op i).core := by
  have hcore (r : Req) : (r.op i).core = (Req.op { r with ops := r.ops.map OpSt.core } i) := (op_map r OpSt.core i rfl).symm
  rw [hcore, hcore, Req.op, Req.op, show r'.ops.map OpSt.core = r.ops.map OpSt.core from congrArg Req.ops h]

/-- A chain that moves on keeps of its request what is not progress. -/
theorem settle_core {id : Nat} {r : Req} (k : Nat) (h : s.req id = some r) : ∃ r', (settle k s).req id = some r' ∧ r'.core = r.core :=
  Cores.req (.settle k rfl) h

/-- After settling, the request has moved on in its phase or ended, and is the same but for its progress. -/
theorem settle_runs_core {id : Nat} {r : Req} {P : Req → Prop} (h : s.req id = some r) (hP : ∀ r', r'.core = r.core → P r') :
    RunsOn (settle id s) id r P := by
  obtain ⟨r', hreq, hcore⟩ := settle_core id h
  obtain ⟨r'', hreq', ht, he, hphase, -⟩ := settle_runs (P := fun _ => True) h fun _ _ => trivial
  obtain rfl : r'' = r' := Option.some.inj (hreq'.symm.trans hreq)
  exact ⟨r'', hreq, ht, he, hphase, hP r'' hcore⟩

end

/-! ### What stays of the tiles -/

section
variable {P : State → Prop} (htiles : ∀ s t : State, t.tiles = s.tiles → P s → P t) (hfree : ∀ id s, P s → P (freeTiles id s))
include htiles hfree

theorem dropWork_tiles (aim : Purpose) {s : State} (h : P s) : P (dropWork aim s) := by
  have hall (l : List Job) (x : State) (hx : P x) : P (l.foldl (fun s j => freeTiles j.id s) x) := by
    induction l generalizing x with
    | nil => exact hx
    | cons j l ih =>
      have hfreed := hfree j.id x hx
      rw [List.foldl_cons]
      generalize freeTiles j.id x = y at hfreed ⊢
      exact ih y hfreed
  unfold dropWork
  have hfreed := hall (s.sch.jobs.filter fun j => decide (j.work.purpose = aim) && (s.req j.id).isNone) s h
  generalize List.foldl _ s _ = x at hfreed ⊢
  exact htiles x _ rfl hfreed

/-- A chain that ends frees its tiles first, and then only frees tiles. -/
theorem endChain_freed {id : Nat} {r : Req} (o : Outcome) {s : State} (hr : s.req id = some r) (h : P (freeTiles id s)) : P (endChain id o s) := by
  unfold endChain
  rw [hr]
  dsimp only
  have hstreams : P (dropStreams r o (endStreams r o (freeTiles id s))) :=
    htiles _ _ ((Only.dropStreams r o _ (A := [.streams]) (by decide) (Only.endStreams r o _ (by decide) (Only.refl _ _))).2 .tiles (by decide)) h
  generalize dropStreams r o (endStreams r o (freeTiles id s)) = s1 at hstreams ⊢
  have hclaims : P (eachN r.claims (fun x s => if o.status = 0 then beginVerify x s else unclaim x s) s1) := by
    refine eachN_ind _ _ _ hstreams fun x y hy => ?_
    split
    · exact htiles _ _ ((Only.beginVerify x y (A := [.sch, .ks]) (by decide) (Only.refl _ _)).2 .tiles (by decide)) hy
    · exact dropWork_tiles htiles hfree _ (htiles y _ rfl hy)
  generalize eachN r.claims _ s1 = s2 at hclaims ⊢
  have hscrub : P (if mustScrub r o = true then scrubAll r s2 else s2) := by
    split
    · exact htiles _ _ ((Only.scrubAll r s2 (List.Subset.refl _) (Only.refl _ _)).2 .tiles (by decide)) hclaims
    · exact hclaims
  generalize (if mustScrub r o = true then scrubAll r s2 else s2) = s3 at hscrub ⊢
  generalize hs6 : modSch _ (modFp _ (modReq id _ s3)) = s6
  have hend : P s6 := htiles _ _ (by rw [← hs6]; rfl) hscrub
  split
  · exact htiles _ _ ((Only.fenceFrame r _ (A := [.tens, .reqs, .evPend, .pviol, .pvcnt, .out]) (by decide)
      (Only.fencePort _ _ _ (by decide) (Only.fencePort _ _ _ (by decide) (Only.refl _ _)))).2 .tiles (by decide)) hend
  · exact hend

theorem endChain_tiles (id : Nat) (o : Outcome) {s : State} (h : P s) : P (endChain id o s) := by
  cases hreq : s.req id with
  | none => rw [endChain, hreq]; exact h
  | some r => exact endChain_freed htiles hfree o hreq (hfree id s h)

/-- A chain that moves on only frees tiles, as it ends. -/
theorem settle_tiles (id : Nat) {s : State} (h : P s) : P (settle id s) := by
  cases hreq : s.req id with
  | none => unfold settle; rw [hreq]; exact h
  | some r =>
    obtain ⟨y, honly, -, hsettle⟩ := settle_cases id s hreq
    have hy : P y := htiles _ _ (honly.2 .tiles (by decide)) h
    rcases hsettle with e | ⟨o, e⟩
    · rw [e]; exact hy
    · rw [e]; exact endChain_tiles htiles hfree id o hy

theorem settleAll_tiles {s : State} (h : P s) : P (settleAll s) := by
  unfold settleAll
  generalize s.reqs = l
  induction l generalizing s with
  | nil => exact h
  | cons r l ih => exact ih (settle_tiles htiles hfree r.id h)

end

/-- The tiles of l do not run p. -/
def NotRun (l : List Nat) (p : Nat × Nat) (s : State) : Prop := ∀ x ∈ l, (s.tile x).run ≠ some p

theorem NotRun.tiles {l : List Nat} {p : Nat × Nat} (s t : State) (e : t.tiles = s.tiles) (h : NotRun l p s) : NotRun l p t := by
  intro x hx
  rw [tile_of_tiles e]
  exact h x hx

theorem NotRun.modTile {l : List Nat} {p : Nat × Nat} {s : State} (t : Nat) {f : Tile → Tile} (h : NotRun l p s)
    (hf : ∀ u, u.run ≠ some p → (f u).run ≠ some p) : NotRun l p (Machine.modTile t f s) := by
  intro x hx
  by_cases e : x = t
  · rw [e, modTile_tile_same]
    exact hf _ (e ▸ h x hx)
  · rw [modTile_tile_ne _ _ e]
    exact h x hx

theorem NotRun.freeTiles {l : List Nat} {p : Nat × Nat} (id : Nat) (s : State) (h : NotRun l p s) : NotRun l p (Machine.freeTiles id s) := by
  refine eachN_ind _ _ _ h fun t x hx => .modTile t hx fun u hu => ?_
  dsimp only
  split
  · simp
  · exact hu

theorem NotRun.settle {l : List Nat} {p : Nat × Nat} {s : State} (id : Nat) (h : NotRun l p s) : NotRun l p (Machine.settle id s) :=
  settle_tiles NotRun.tiles NotRun.freeTiles id h

end Sys2Proof.Machine
end

section
/-!
What a public-key operation does in its bank (R178, R193, R200, R205, R223), with the statement O29.
-/

namespace Sys2Proof.Machine

/-! ### What goes on in the banks of a tile (R196) -/

/-- A tile on which what rests may have gone on. -/
def Tile.wake (p : Nat × Nat) (u : Tile) : Tile := { u with bankA := u.bankA.wake p, bankB := u.bankB.wake p }

theorem BankSt.wake_wake (p : Nat × Nat) (b : BankSt) : (b.wake p).wake p = b.wake p := by
  unfold BankSt.wake
  split
  · rw [if_neg (by simp)]
  next h => rfl

theorem BankSt.wake_same (p : Nat × Nat) (b : BankSt) : b.same (b.wake p) := by
  unfold BankSt.wake BankSt.same
  split
  next h => exact Or.inr ⟨p.1, p.2, h, rfl⟩
  next => exact Or.inl rfl

theorem runBank_tile (t : Nat) (p : Nat × Nat) (s : State) (x : Nat) :
    (runBank t p s).tile x = s.tile x ∨ (runBank t p s).tile x = (s.tile x).wake p := by
  unfold runBank
  split
  · rw [modOp_tile, eachN_modTile _ _ fun u => by simp only [BankSt.wake_wake]]
    split
    · exact Or.inr rfl
    · exact Or.inl rfl
  · exact Or.inl rfl

theorem wakeBank_tile (t : Nat) (s : State) (x : Nat) :
    (wakeBank t s).tile x = s.tile x ∨ ∃ p, (wakeBank t s).tile x = (s.tile x).wake p := by
  unfold wakeBank
  split
  · exact Or.inl rfl
  · exact (runBank_tile _ _ _ _).imp_right fun h => ⟨_, h⟩
  · exact (runBank_tile _ _ _ _).imp_right fun h => ⟨_, h⟩

theorem runBank_req {k : Nat} {r : Req} {s : State} (t : Nat) (p : Nat × Nat) (h : s.req k = some r) :
    ∃ l, (runBank t p s).req k = some { r with ops := l } := by
  unfold runBank
  split
  · have htiles : (eachN (runTiles s t p) (fun x => modTile x (fun u => { u with bankA := u.bankA.wake p, bankB := u.bankB.wake p })) s).reqs = s.reqs :=
      (Only.eachN (A := [.tiles]) _ (Only.refl _ s) fun i s hs => Only.modTile _ _ (by decide) hs).2 .reqs (by decide)
    have hreq := (req_of_reqs htiles k).trans h
    by_cases e : k = p.1
    · exact ⟨_, by rw [e] at hreq ⊢; exact modOp_req_same p.2 _ hreq⟩
    · exact ⟨r.ops, (modOp_req_ne p.2 _ e).trans hreq⟩
  · exact ⟨r.ops, h⟩

theorem wakeBank_req {k : Nat} {r : Req} {s : State} (t : Nat) (h : s.req k = some r) : ∃ l, (wakeBank t s).req k = some { r with ops := l } := by
  unfold wakeBank
  split
  · exact ⟨r.ops, h⟩
  · exact runBank_req _ _ h
  · exact runBank_req _ _ h

/-- Waking a bank leaves another tile as it was, but that what rested there may run. -/
theorem wakeBank_others {t : Nat} {s x : State} (h : ∀ k, k ≠ t → x.tile k = s.tile k) : OthersWake t s (wakeBank t x) := by
  intro k hk
  rw [← h k hk]
  rcases wakeBank_tile t x k with e | ⟨p, e⟩ <;> rw [e]
  · exact ⟨rfl, Or.inl rfl, Or.inl rfl⟩
  · exact ⟨rfl, BankSt.wake_same _ _, BankSt.wake_same _ _⟩

theorem wakeBank_empty {t : Nat} {b : Bool} {s : State} (h : bankOf (s.tile t) b = .empty) : bankOf ((wakeBank t s).tile t) b = .empty := by
  rcases wakeBank_tile t s t with e | ⟨p, e⟩ <;> rw [e]
  · exact h
  · cases b with
    | false =>
      have hA : (s.tile t).bankA = .empty := h
      show (s.tile t).bankA.wake p = .empty
      rw [hA]
      rfl
    | true =>
      have hB : (s.tile t).bankB = .empty := h
      show (s.tile t).bankB.wake p = .empty
      rw [hB]
      rfl

theorem setBank_bankOf (t : Nat) (b : Bool) (v : BankSt) (s : State) : bankOf ((setBank t b v s).tile t) b = v := by
  rw [setBank, modTile_tile_same]
  cases b <;> rfl

theorem generate_reqs (n : Nat) (order : List Nat) (s : State) : (generate n order s).2.reqs = s.reqs :=
  (Only.generate n order s (List.Subset.refl _) (Only.refl _ _)).2 .reqs (by decide)

/-! ### A hash of a digest tile (R178, R193) -/

/-- No digest tile holds p once it has been given up. -/
theorem dropHold_notRun (k : Nat) (p : Nat × Nat) (s : State) : NotRun (kindTiles k) p (dropHold k p s) := by
  intro x hx
  unfold dropHold
  rw [eachN_modTile _ _ fun u => ?_, if_pos hx]
  · dsimp only
    split
    · simp
    next h => exact h
  · have hbank (b : BankSt) : (if (if b.holds p.1 p.2 then BankSt.zeroizing p.1 else b).holds p.1 p.2 then BankSt.zeroizing p.1
        else (if b.holds p.1 p.2 then BankSt.zeroizing p.1 else b)) = if b.holds p.1 p.2 then BankSt.zeroizing p.1 else b := by
      split
      · split <;> rfl
      · rfl
    simp only [hbank, List.filter_filter, Bool.and_self]
    split
    · rfl
    next => simp

theorem dropHold_reqs (k : Nat) (p : Nat × Nat) (s : State) : (dropHold k p s).reqs = s.reqs :=
  (Only.eachN (A := [.tiles]) _ (Only.refl _ s) fun i s hs => Only.modTile _ _ (by decide) hs).2 .reqs (by decide)

theorem runsDigest_false {p : Nat × Nat} {s : State} (h : NotRun (kindTiles 2) p s) : runsDigest s p = false := by
  rw [runsDigest, List.any_eq_false]
  intro x hx
  simp [h x hx]

/-- A hash that is complete is counted, and its digest tile is free of it. -/
theorem hashDone_facts {id i : Nat} {r : Req} {s : State} (h : s.req id = some r) (hi : i < r.ops.length) :
    RunsOn (hashDone (id, i) s) id r (fun r' => (r'.op i).hashes = (r.op i).hashes + 1) ∧ runsDigest (hashDone (id, i) s) (id, i) = false := by
  have hreq := modOp_req_same (s := dropHold 2 (id, i) s) i (fun o => { o with hashes := o.hashes + 1 })
    ((req_of_reqs (dropHold_reqs 2 (id, i) s) id).trans h)
  refine ⟨RunsOn.of_req (settle_runs_core hreq fun r' hcore => ?_) rfl rfl rfl, runsDigest_false (NotRun.settle id ?_)⟩
  · have hop := congrArg OpSt.hashes (core_op hcore i)
    rw [op_modify_same _ _ _ hi] at hop
    exact hop
  · have hheld := dropHold_notRun 2 (id, i) s
    generalize dropHold 2 (id, i) s = x at hheld ⊢
    exact NotRun.tiles x _ rfl hheld

end Sys2Proof.Machine

namespace Sys2Proof.Phases
open Sys2Proof.Machine

/-- A check phase that is over is noted with the operation. -/
theorem checked_req {id i : Nat} {r : Req} {x : State} {f : OpSt → OpSt} (h : x.req id = some r) (hf : ∀ o, (f o).checked = true) :
    ∃ r', (modOp id i f x).req id = some r' ∧ r'.phase = r.phase ∧ (i < r.ops.length → (r'.op i).checked = true) :=
  ⟨_, modOp_req_same i f h, rfl, fun hi => by rw [op_modify_same _ _ _ hi]; exact hf _⟩

/-- The end of a check phase that every check passes: the operation is past it, or has no bits to draw (R194, R200). -/
theorem checkPhase_passes {tile : Fin 4} {id i : Nat} {b : Bool} {r : Req} {s : State} (hopen : tilesOpen s = true)
    (hruns : pkRunning s (20 + tile.val) = some (id, i, b)) (hreq : s.req id = some r) (hcheck : (r.op i).checked = false)
    (hpass : pkInputFail (r.op i).w (r.par i) (pkType r i) (pkKey r i) (r.src i) (r.aux i) = none) :
    ((∃ r', (fxPkCheckPhaseEnd tile s).req id = some r' ∧ r'.phase = r.phase ∧ (i < r.ops.length → (r'.op i).checked = true)) ∨
      EndedWith (fxPkCheckPhaseEnd tile s) id r ⟨0x61, 3, i⟩) ∧
    (drawsBits (r.op i).w = false → fxPkCheckPhaseEnd tile s = modOp id i (fun o => { o with checked := true }) s) := by
  unfold fxPkCheckPhaseEnd
  rw [hruns]
  dsimp only
  rw [withReq_some hreq, whenS_true (by rw [hopen, hcheck]; rfl), hpass]
  dsimp only
  cases hdraws : drawsBits (r.op i).w with
  | false => exact ⟨Or.inl (checked_req hreq fun _ => rfl), fun _ => rfl⟩
  | true =>
    refine ⟨?_, fun h => by cases h⟩
    rw [if_neg (by simp)]
    have hreqs := generate_reqs 512 (genOrder tile.val) s
    split
    next s1 e =>
      rw [e] at hreqs
      exact Or.inr (endChain_ends _ ((req_of_reqs hreqs id).trans hreq))
    next k s1 e =>
      rw [e] at hreqs
      have hreq1 := (req_of_reqs hreqs id).trans hreq
      split
      · have hreqs2 := generate_reqs 12 (genOrder 0) s1
        split
        next s2 e2 =>
          rw [e2] at hreqs2
          exact Or.inr (endChain_ends _ ((req_of_reqs hreqs2 id).trans hreq1))
        next k2 s2 e2 =>
          rw [e2] at hreqs2
          exact Or.inl (checked_req ((req_of_reqs hreqs2 id).trans hreq1) fun _ => rfl)
      · exact Or.inl (checked_req hreq1 fun _ => rfl)

/-- Settles O29, by the branch that each command takes, and by what a hash that is complete leaves. -/
theorem publicKeyPhases : Obligations.PublicKeyPhases := by
  refine ⟨fun tile id i b r s hopen hruns hreq hcheck => ⟨fun f hfail => ?_, fun hpass => ?_⟩, ?_, ?_, ?_⟩
  · have hexec : fxPkCheckPhaseEnd tile s = endChain id (mkOut f i) s := by
      unfold fxPkCheckPhaseEnd
      rw [hruns]
      dsimp only
      rw [withReq_some hreq, whenS_true (by rw [hopen, hcheck]; rfl), hfail]
    exact ⟨_, congrArg Host.Outcome.next hexec, endChain_ends _ hreq⟩
  · obtain ⟨hgoes, hundrawn⟩ := checkPhase_passes hopen hruns hreq hcheck hpass
    refine ⟨_, rfl, hgoes, fun hdraws => ?_⟩
    rw [hundrawn hdraws]
    obtain ⟨r', hreq', hphase, -⟩ := checked_req (i := i) hreq (f := fun o => { o with checked := true }) fun _ => rfl
    exact ⟨rfl, rfl, r', hreq', hphase⟩
  · intro tile l1 l2 id i r s hopen hbanks hothers hreq hdue hinput hrunning hi
    have hfind : (bankOps (s.tile (20 + tile.val))).find? (fun p => isService s 2 p && runsDigest s p
        && ((s.req p.1).map (fun r => hashInput r p.2)).getD false) = some (id, i) := by
      rw [hbanks, List.find?_append, List.find?_eq_none.mpr fun q hq => by rcases hothers q hq with h | h <;> simp [h], List.find?_cons_of_pos]
      · rfl
      · simp [isService, hreq, hdue, hrunning, hinput]
    have hexec : fxDigestServiceDone tile s = hashDone (id, i) s := by
      rw [fxDigestServiceDone, whenS_true hopen, hfind]
    exact ⟨_, congrArg Host.Outcome.next hexec, hashDone_facts hreq hi⟩
  · intro tile id i b r s hopen hruns hreq hcheck hsign
    have hexec : fxMlDsaIterationCap tile s = endChain id ⟨0x40, 0x52, i⟩ s := by
      rw [fxMlDsaIterationCap, hruns]
      dsimp only
      rw [withReq_some hreq, whenS_true (by rw [hopen, hcheck, hsign]; rfl)]
    exact ⟨_, congrArg Host.Outcome.next hexec, endChain_ends _ hreq⟩
  · intro tile b id s hbank
    have hexec : fxPkBankZeroized tile b s =
        wakeBank (20 + tile.val) (modReq id (fun r => { r with zeroized := true }) (setBank (20 + tile.val) b .empty s)) := by
      unfold fxPkBankZeroized
      dsimp only
      rw [hbank]
    refine ⟨_, congrArg Host.Outcome.next hexec, ?_, wakeBank_others fun k hk => ?_, wakeBank_empty (setBank_bankOf _ b .empty s), fun r hreq => ?_⟩
    · exact Only.wakeBank _ _ (by decide) (Only.modReq _ _ (by decide) (Only.setBank _ _ _ _ (by decide) (Only.refl _ _)))
    · show (setBank (20 + tile.val) b .empty s).tile k = s.tile k
      rw [setBank, modTile_tile_ne _ _ hk]
    · obtain ⟨l, hreq'⟩ := wakeBank_req (20 + tile.val) (modReq_req_same (s := setBank (20 + tile.val) b .empty s)
        (fun r => { r with zeroized := true }) (fun _ => rfl) hreq)
      exact ⟨_, hreq', rfl, rfl⟩

end Sys2Proof.Phases
end

section
/-!
O31 fails: where the tile index that an operation keeps of its last tile names no tile of the 24 that the end of a chain frees, what is saved there
for the same request ends its chain a second time as that tile is quarantined.
-/

namespace Sys2Proof.Ends
open Sys2Proof.Machine

/-- A request whose first operation ends with tile 24 as its last tile, and whose second one has output. -/
def strayTile : Req :=
  { id := 7, tenant := 0, origin := .ring 0, phase := .running
    ops := [{ w := { opc := 0x63, poff := 0xFF }, phase := .running, tiles := [20], lastTile := 24, checked := true, hashes := 2 },
      { w := { opc := 0x63, poff := 0xFF }, phase := .saved, output := [1] }] }

/-- A serving engine with that request in flight, its second operation saved on tile 24. -/
def savedAstray : State :=
  modTile 24 (fun u => { u with saved := [(7, 1)] }) { State.reset with
    start := { State.reset.start with serving := true }
    reqs := [strayTile] }

theorem savedAstray_holds : savedAstray.req 7 = some strayTile ∧ tilesOpen savedAstray = true ∧ mayEnd savedAstray strayTile 0 = true ∧
    kindOfW (strayTile.op 0).w = 3 ∧ hasResultCheck (strayTile.op 0).w = true := by decide +kernel

/-- The quarantine of tile 24 ends the chain again, with TILE_FAULT. -/
theorem savedAstray_endsTwice :
    (((fxOperationEnd 7 0 false .clean true .clean .clean savedAstray).req 7).bind Req.outcome).map Outcome.status = some 0x61 := by decide +kernel

/-- Refutes O31: a failing result check that a tenant reset meets need not leave its request flushed with 0x50, where the operation's last tile is
not one of those that the end of the chain frees. -/
theorem not_operationEnds : ¬ Obligations.OperationEnds := by
  unfold Obligations.OperationEnds
  rintro ⟨hends, -⟩
  obtain ⟨hreq, hopen, hmay, hkind, hcheck⟩ := savedAstray_holds
  obtain ⟨-, hfails, -⟩ := hends 7 0 false true strayTile savedAstray hreq hopen hmay
  obtain ⟨-, t, hexec, ⟨r', hended, -, -, -, houtcome⟩, -⟩ := hfails hkind hcheck
  have ht : fxOperationEnd 7 0 false .clean true .clean .clean savedAstray = t := Host.Outcome.next.inj hexec
  have hstatus := savedAstray_endsTwice
  rw [ht, hended, Option.bind_some, houtcome] at hstatus
  exact absurd hstatus (by decide +kernel)

end Sys2Proof.Ends
end

section
/-!
Rejoin, test sets and failed sequencers (R403, R424, R429, R431), with the statement O33.
-/

namespace Sys2Proof.Machine

/-! ### A sequencer that fails (R429) -/

/-- What the loop over the requests does with one of them: its context moves to the sequencer with the fewest. -/
def adoptContext (c : Nat) (s : State) (r : Req) : State :=
  if r.cs = c ∧ holdsContext r then
    (match leastCs s with
      | some d => modReq r.id (fun r => { r with cs := d }) s
      | none => s) else s

/-- The record and the event of a sequencer that fails. -/
def csReported (c : Nat) (s : State) : State := raiseG gCsFail (journal 0x34 0x10 [c + 2 ^ 16 * csLoad s c] (setCs c .failed s))

theorem csFails_eq (c : Nat) (s : State) :
    csFails c s = s.reqs.foldl (adoptContext c) (csReported c s) := rfl

/-- The state but for the requests is as it was. -/
theorem adoptContext_only (c : Nat) (s : State) (r : Req) : Only [.reqs] s (adoptContext c s r) := by
  unfold adoptContext
  split
  · split
    · exact Only.modReq _ _ (by decide) (Only.refl _ _)
    · exact Only.refl _ _
  · exact Only.refl _ _

theorem adoptContexts_only (c : Nat) (l : List Req) (s : State) : Only [.reqs] s (l.foldl (adoptContext c) s) := by
  induction l generalizing s with
  | nil => exact Only.refl _ _
  | cons r l ih => exact (adoptContext_only c s r).trans (ih _)

/-- Of two sequencers, the one with fewer contexts. -/
def fewerContexts (s : State) (b : Option Nat) (c : Nat) : Option Nat :=
  match b with
  | none => some c
  | some x => if csLoad s c < csLoad s x then some c else some x

theorem leastCs_eq (s : State) : leastCs s = ((List.range 12).filter (fun c => decide (s.csSt c = .healthy))).foldl (fewerContexts s) none := rfl

/-- The one with fewer contexts is one of the two. -/
theorem fewerContexts_mem (s : State) (b : Option Nat) (c : Nat) : fewerContexts s b c = some c ∨ (fewerContexts s b c = b ∧ b.isSome = true) := by
  cases b with
  | none => exact Or.inl rfl
  | some x =>
    rw [fewerContexts]
    split
    · exact Or.inl rfl
    · exact Or.inr ⟨rfl, rfl⟩

theorem foldl_fewer (s : State) (l : List Nat) (b : Option Nat) (h : b.isSome = true ∨ l ≠ []) :
    ∃ d, l.foldl (fewerContexts s) b = some d ∧ (d ∈ l ∨ b = some d) := by
  induction l generalizing b with
  | nil =>
    obtain ⟨d, rfl⟩ := Option.isSome_iff_exists.mp (h.resolve_right (· rfl))
    exact ⟨d, rfl, Or.inr rfl⟩
  | cons a l ih =>
    rcases fewerContexts_mem s b a with e | ⟨e, hb⟩
    · obtain ⟨d, hd, hmem⟩ := ih (fewerContexts s b a) (Or.inl (by rw [e]; rfl))
      rw [e] at hmem
      exact ⟨d, hd, Or.inl (hmem.elim (List.mem_cons_of_mem _) fun h => by rw [Option.some.inj h]; exact List.mem_cons_self)⟩
    · obtain ⟨d, hd, hmem⟩ := ih (fewerContexts s b a) (Or.inl (by rw [e]; exact hb))
      rw [e] at hmem
      exact ⟨d, hd, hmem.imp_left (List.mem_cons_of_mem _)⟩

/-- Where a sequencer is healthy, the one with the fewest contexts is healthy. -/
theorem leastCs_healthy {s : State} {d : Nat} (hd : d < 12) (h : s.csSt d = .healthy) : ∃ x, leastCs s = some x ∧ s.csSt x = .healthy := by
  have hmem : d ∈ (List.range 12).filter (fun c => decide (s.csSt c = .healthy)) := List.mem_filter.mpr ⟨List.mem_range.mpr hd, by simpa using h⟩
  obtain ⟨x, hx, hin⟩ := foldl_fewer s _ none (Or.inr (List.ne_nil_of_mem hmem))
  exact ⟨x, (leastCs_eq s).trans hx, by simpa using (List.mem_filter.mp (hin.resolve_right (by simp))).2⟩

/-- Of the requests only those that the loop has still to visit may hold a context of sequencer c. -/
def LeftOver (c : Nat) (rest : List Req) (s : State) : Prop :=
  ∀ q ∈ s.reqs, holdsContext q = true → q.cs = c → ∃ r ∈ rest, r.id = q.id ∧ r.cs = c ∧ holdsContext r = true

theorem LeftOver.step {c : Nat} {r : Req} {rest : List Req} {s : State} {d : Nat} (h : LeftOver c (r :: rest) s) (hd : leastCs s = some d) (hne : d ≠ c) :
    LeftOver c rest (adoptContext c s r) := by
  unfold adoptContext
  split
  · rw [hd]
    intro q hq hholds hcs
    obtain ⟨q0, hq0, rfl⟩ := List.mem_map.mp hq
    by_cases hid : q0.id = r.id
    · rw [if_pos hid] at hcs
      exact absurd hcs hne
    · rw [if_neg hid] at hholds hcs ⊢
      obtain ⟨x, hx, hxid, hxcs, hxholds⟩ := h q0 hq0 hholds hcs
      exact ⟨x, (List.mem_cons.mp hx).resolve_left fun e => hid (by rw [← hxid, e]), hxid, hxcs, hxholds⟩
  next hnot =>
    intro q hq hholds hcs
    obtain ⟨x, hx, hxid, hxcs, hxholds⟩ := h q hq hholds hcs
    exact ⟨x, (List.mem_cons.mp hx).resolve_left fun e => hnot (by rw [← e]; exact ⟨hxcs, hxholds⟩), hxid, hxcs, hxholds⟩

theorem adoptContexts_none {c d : Nat} (hd : d < 12) (l : List Req) {s : State} (h : LeftOver c l s) (hfailed : s.csSt c = .failed)
    (hhealthy : s.csSt d = .healthy) : LeftOver c [] (l.foldl (adoptContext c) s) := by
  induction l generalizing s with
  | nil => exact h
  | cons r l ih =>
    obtain ⟨x, hx, hxhealthy⟩ := leastCs_healthy hd hhealthy
    have hcss : (adoptContext c s r).css = s.css := (adoptContext_only c s r).2 .css (by decide)
    refine ih (h.step hx fun e => ?_) (by rw [State.csSt, hcss]; exact hfailed) (by rw [State.csSt, hcss]; exact hhealthy)
    rw [e, hfailed] at hxhealthy
    cases hxhealthy

section
variable (c : Nat) (s : State)

theorem csReported_only : Only (.css :: recordParts) s (csReported c s) :=
  Only.raiseG _ _ (by decide) (Only.journal _ _ _ _ (by decide) (Only.setCs _ _ (by decide) (Only.refl _ _)))

theorem csReported_csSt (k : Nat) : (csReported c s).csSt k = (setCs c .failed s).csSt k := by
  have honly : Only recordParts (setCs c .failed s) (csReported c s) := Only.raiseG _ _ (by decide) (Only.journal _ _ _ _ (by decide) (Only.refl _ _))
  rw [State.csSt, State.csSt, show (csReported c s).css = (setCs c .failed s).css from honly.2 .css (by decide)]

/-- A sequencer that fails: the record, the event, and where another is healthy none of its contexts stays. -/
theorem csFails_facts : Only (.reqs :: .css :: recordParts) s (csFails c s) ∧ (csFails c s).csSt c = .failed ∧ bitOf (csFails c s).evPend gCsFail = true ∧
    (csFails c s).jrn.seq = s.jrn.seq + 1 ∧
    ((∃ d, d < 12 ∧ d ≠ c ∧ s.csSt d = .healthy) → ∀ r ∈ (csFails c s).reqs, holdsContext r = true → r.cs ≠ c) := by
  have hreported := csReported_only c s
  have hst := csReported_csSt c s
  have hbit : bitOf (csReported c s).evPend gCsFail = true := raiseG_bit _ _ (by decide)
  have hseq : (csReported c s).jrn.seq = s.jrn.seq + 1 := by rw [csReported, raiseG_jrn, journal_seq]; rfl
  have hreqs : (csReported c s).reqs = s.reqs := hreported.2 .reqs (by decide)
  rw [csFails_eq]
  generalize csReported c s = x at *
  have hloop := adoptContexts_only c s.reqs x
  refine ⟨(hreported.mono (by decide)).trans (hloop.mono (by decide)), ?_, ?_, ?_, ?_⟩
  · rw [State.csSt, show (s.reqs.foldl (adoptContext c) x).css = x.css from hloop.2 .css (by decide), ← State.csSt, hst, setCs_csSt_same]
  · rw [show (s.reqs.foldl (adoptContext c) x).evPend = x.evPend from hloop.2 .evPend (by decide)]
    exact hbit
  · rw [hloop.jrn (by decide), hseq]
  · rintro ⟨d, hd, hne, hhealthy⟩ r hr hholds hcs
    have hnone : LeftOver c [] (s.reqs.foldl (adoptContext c) x) := adoptContexts_none hd s.reqs
      (fun q hq hq2 hq3 => ⟨q, by rw [← hreqs]; exact hq, rfl, hq3, hq2⟩) (by rw [hst, setCs_csSt_same]) (by rw [hst, setCs_csSt_ne _ _ hne]; exact hhealthy)
    obtain ⟨q, hq, -⟩ := hnone r hr hholds hcs
    exact absurd hq List.not_mem_nil

theorem Pend.csFails {e : Nat} {s : State} (h : Pend e s) : Pend e (Machine.csFails c s) := by
  have hreported : Pend e (csReported c s) := Pend.raiseG _ _ (Pend.journal _ _ _ _ h)
  unfold Pend
  rw [csFails_eq, show (s.reqs.foldl (adoptContext c) (csReported c s)).evPend = (csReported c s).evPend from
    (adoptContexts_only c s.reqs (csReported c s)).2 .evPend (by decide)]
  exact hreported

end

/-! ### A test set that ends (R403, R424) -/

theorem rejoinTile_facts (n : Nat) (pass : Bool) (s : State) : Only [.tiles, .evPend] s (rejoinTile n pass s) ∧
    ((rejoinTile n pass s).tile n).st = (if pass then .healthy else if 2 ≤ (s.tile n).qcount.toNat then .retired else .quarantined) ∧
    (pass = true → bitOf (rejoinTile n pass s).evPend gTileRejoin = true) ∧ (rejoinTile n pass s).jrn = s.jrn := by
  unfold rejoinTile
  cases pass with
  | false =>
    rw [if_neg (by simp), if_neg (by simp)]
    refine ⟨Only.modTile _ _ (by decide) (Only.refl _ _), ?_, fun h => (by cases h), rfl⟩
    rw [modTile_tile_same]
  | true =>
    rw [if_pos rfl, if_pos rfl]
    refine ⟨Only.raiseG _ _ (by decide) (Only.modTile _ _ (by decide) (Only.refl _ _)), ?_, fun _ => raiseG_bit _ _ (by decide), rfl⟩
    rw [raiseG_tile, modTile_tile_same]

end Sys2Proof.Machine

namespace Sys2Proof.Rejoins
open Sys2Proof.Machine

theorem rejoinTest_tile {n : TileIx} {s : State} (h : (s.tile n.val).st = .testing) (pass : Bool) :
    ∃ t, exec (.rejoinTestDone (.tile n) pass) s = .next t ∧ Only (.tiles :: recordParts) s t ∧ t.jrn.seq = s.jrn.seq + 1 ∧
      (t.tile n.val).st = (if pass then .healthy else if 2 ≤ (s.tile n.val).qcount.toNat then .retired else .quarantined) ∧
      (pass = true → bitOf t.evPend gTileRejoin = true) := by
  obtain ⟨honly, hst, hbit, hjrn⟩ := rejoinTile_facts n.val pass s
  have hexec : fxRejoinTestDone (.tile n) pass s = journal 0x31 0x10 [n.val + 2 ^ 8 * b2n pass] (rejoinTile n.val pass s) := by
    rw [fxRejoinTestDone, whenS_true (by rw [h]; rfl)]
  refine ⟨_, congrArg Host.Outcome.next hexec, Only.journal _ _ _ _ (by decide) (honly.mono (by decide)), ?_, ?_, fun hpass => Pend.journal _ _ _ _ (hbit hpass)⟩
  · rw [journal_seq, hjrn]
  · rw [tile_of_tiles ((Only.journal _ _ _ _ (List.Subset.refl _) (Only.refl _ _)).2 .tiles (by decide)), hst]

/-- Settles O33, by what each command does to its unit, and by the loop that moves the contexts of a failed sequencer. -/
theorem rejoinAndSequencers : Obligations.RejoinAndSequencers := by
  refine ⟨fun who n s htakes => ⟨fun hq hgate => ?_, fun hq => ?_⟩, fun who c s htakes => ⟨fun hf => ?_, fun hf => ?_⟩, fun n s htest => ⟨?_, ?_⟩,
    fun c pass s htest => ?_, fun c s hhealthy hload => ?_, fun c s hhealthy => ⟨?_, ?_, ?_⟩⟩
  · have hexec : fxTileRejoin who n s = modTile n.val (fun u => { u with st := .testing }) s :=
      (gateW_takes htakes).trans (if_pos ⟨hq, by rw [hgate]; rfl⟩)
    exact ⟨_, congrArg Host.Outcome.next hexec, Only.modTile _ _ (by decide) (Only.refl _ _), fun k hk => modTile_tile_ne _ _ hk, modTile_tile_same _ _ _⟩
  · exact congrArg Host.Outcome.next ((gateW_takes htakes).trans (if_neg fun h => hq h.1))
  · have hexec : fxCsRejoin who c s = setCs c.val .testing s := (gateW_takes htakes).trans (if_pos hf)
    exact ⟨_, congrArg Host.Outcome.next hexec, Only.setCs _ _ (by decide) (Only.refl _ _), setCs_csSt_same _ _ _⟩
  · exact congrArg Host.Outcome.next ((gateW_takes htakes).trans (if_neg hf))
  · obtain ⟨t, hexec, honly, hseq, hst, hbit⟩ := rejoinTest_tile htest true
    exact ⟨t, hexec, honly, hst, hbit rfl, hseq⟩
  · obtain ⟨t, hexec, honly, hseq, hst, -⟩ := rejoinTest_tile htest false
    exact ⟨t, hexec, honly, hseq, hst⟩
  · have hexec : fxRejoinTestDone (.cs c) pass s =
        journal 0x31 0x10 [c.val + 2 ^ 5 + 2 ^ 8 * b2n pass] (setCs c.val (if pass then .healthy else .failed) s) := by
      rw [fxRejoinTestDone, whenS_true (by rw [htest]; rfl)]
    have hrecord : Only recordParts (setCs c.val (if pass then .healthy else .failed) s) (journal 0x31 0x10 [c.val + 2 ^ 5 + 2 ^ 8 * b2n pass]
        (setCs c.val (if pass then .healthy else .failed) s)) := Only.journal _ _ _ _ (by decide) (Only.refl _ _)
    refine ⟨_, congrArg Host.Outcome.next hexec, Only.journal _ _ _ _ (by decide) (Only.setCs _ _ (by decide) (Only.refl _ _)), journal_seq _ _ _ _, ?_⟩
    rw [State.csSt, show (journal _ _ _ _).css = _ from hrecord.2 .css (by decide), ← State.csSt, setCs_csSt_same]
  · have hexec : fxCsWatchdog c .missed s = csFails c.val s := (whenS_true (by rw [hhealthy]; rfl)).trans (if_pos hload)
    exact ⟨_, congrArg Host.Outcome.next hexec, csFails_facts c.val s⟩
  · have hexec : fxCsWatchdog c .registers s = csFails c.val s := whenS_true (by rw [hhealthy]; rfl)
    obtain ⟨honly, hst, hbit, hseq, -⟩ := csFails_facts c.val s
    exact ⟨_, congrArg Host.Outcome.next hexec, honly, hst, hbit, hseq⟩
  · have hexec : fxCsWatchdog c .patchOne s = raiseG gUe (journalUe 2 0 s) := whenS_true (by rw [hhealthy]; rfl)
    refine ⟨_, congrArg Host.Outcome.next hexec, Only.raiseG _ _ (by decide) (Only.journalUe _ _ _ (by decide) (Only.refl _ _)), raiseG_bit _ _ (by decide), ?_⟩
    rw [raiseG_jrn, journalUe_seq]
  · have hexec : fxCsWatchdog c .patchBoth s = csFails c.val (raiseG gUeFatal (journalUe 2 0 s)) := whenS_true (by rw [hhealthy]; rfl)
    have hue : Only recordParts s (raiseG gUeFatal (journalUe 2 0 s)) := Only.raiseG _ _ (by decide) (Only.journalUe _ _ _ (by decide) (Only.refl _ _))
    obtain ⟨honly, hst, -, hseq, -⟩ := csFails_facts c.val (raiseG gUeFatal (journalUe 2 0 s))
    refine ⟨_, congrArg Host.Outcome.next hexec, (hue.mono (by decide)).trans honly, hst, Pend.csFails _ (raiseG_bit _ _ (by decide)), ?_⟩
    rw [hseq, raiseG_jrn, journalUe_seq, BitVec.add_assoc]
    rfl

end Sys2Proof.Rejoins
end

section
/-!
O54 fails: a paired operation whose tiles name a cipher tile wakes that tile's bank too as an island rejoins.
-/

namespace Sys2Proof.Clocks
open Sys2Proof.Machine

/-- A paired request whose operation rests in banks of tiles 0 and 20. -/
def astride : Req :=
  { id := 7, tenant := 0, origin := .ring 0, phase := .running, paired := true, ops := [{ w := { opc := 0x63 }, phase := .saved, tiles := [0, 20] }] }

/-- A serving engine with that request in flight and the release of the auxiliary clock under way. -/
def rejoining : State :=
  modMon .aux (fun m => { m with release := true }) (modTile 0 (fun u => { u with bankA := .resident 7 0 })
    (modTile 20 (fun u => { u with bankA := .resident 7 0 }) { State.reset with
      start := { State.reset.start with serving := true }
      reqs := [astride] }))

theorem rejoining_wakes : (rejoining.mon .aux).release = true ∧ (rejoining.tile 0).st ≠ .fenced ∧
    (rejoining.tile 0).bankA = .resident 7 0 ∧ ((fxIslandRejoin .aux 0 rejoining).tile 0).bankA = .running 7 0 := by decide +kernel

/-- Refutes O54: ISLAND_REJOIN lets what rests in public-key banks run, on every tile that the operation names, where the statement has each tile
below 20 stay as it was. -/
theorem not_clockFaults : ¬ Obligations.ClockFaults := by
  unfold Obligations.ClockFaults
  rintro ⟨-, -, -, -, -, hrejoin⟩
  obtain ⟨hrelease, hst, hrests, hruns⟩ := rejoining_wakes
  obtain ⟨t, hexec, -, -, hothers, -⟩ := (hrejoin .aux 0 rejoining).2 hrelease
  have ht : fxIslandRejoin .aux 0 rejoining = t := Host.Outcome.next.inj hexec
  have hkept : t.tile 0 = rejoining.tile 0 := (hothers 0 (Or.inr hst)).1 (by decide)
  rw [← ht] at hkept
  rw [hkept, hrests] at hruns
  exact absurd hruns (by decide)

end Sys2Proof.Clocks
end

section
/-!
Key slots (R255 to R261): what the owner's procedure, the end of a verification, a drain, a scan and an extend leave, with the statements O41
and O42.
-/

namespace Sys2Proof.Machine

/-! ### The banks of a slot -/

@[simp] theorem Slot.setIdle_idle (v : Slot) (b : Bank) : (v.setIdle b).idle = b := by
  cases hc : v.cur <;> simp [Slot.setIdle, Slot.idle, hc]

@[simp] theorem Slot.setIdle_act (v : Slot) (b : Bank) : (v.setIdle b).act = v.act := by
  cases hc : v.cur <;> simp [Slot.setIdle, Slot.act, hc]

@[simp] theorem Slot.setIdle_cur (v : Slot) (b : Bank) : (v.setIdle b).cur = v.cur := by
  unfold Slot.setIdle
  split <;> rfl

@[simp] theorem Slot.setIdle_staged (v : Slot) (b : Bank) : (v.setIdle b).staged = v.staged := by
  unfold Slot.setIdle
  split <;> rfl

@[simp] theorem Slot.setIdle_verify (v : Slot) (b : Bank) : (v.setIdle b).verify = v.verify := by
  unfold Slot.setIdle
  split <;> rfl

@[simp] theorem Slot.setIdle_zeroing (v : Slot) (b : Bank) : (v.setIdle b).zeroing = v.zeroing := by
  unfold Slot.setIdle
  split <;> rfl

@[simp] theorem Slot.setIdle_draining (v : Slot) (b : Bank) : (v.setIdle b).draining = v.draining := by
  unfold Slot.setIdle
  split <;> rfl

theorem Slot.staged_code (v : Slot) (h : v.staged = true) (hv : v.verify = false) : v.code = 2 := by simp [Slot.code, h, hv]

theorem Slot.verify_code (v : Slot) (h : v.verify = true) : v.code = 3 := by simp [Slot.code, h]

theorem Slot.verify_of_code {v : Slot} (h : v.code ∈ [0, 1, 5]) : v.verify = false := by
  by_contra hv
  rw [Slot.verify_code v (by simpa using hv)] at h
  exact absurd h (by decide)

theorem slot_of_ks {s t : State} (h : t.ks = s.ks) (x : Nat) : t.slot x = s.slot x := by rw [State.slot, State.slot, h]

theorem slot_of_slots {s t : State} (h : t.ks.slots = s.ks.slots) (x : Nat) : t.slot x = s.slot x := by rw [State.slot, State.slot, h]

theorem otherSlots_modSlot (x : Nat) (f : Slot → Slot) (s : State) : OtherSlots x s (modSlot x f s) := fun _ h => modSlot_slot_ne f s h

/-! ### The owner's procedure (R257, R258) -/

theorem ksCmd_takes {f : State → State} {s : State} (h : s.ks.kTag.isSome = true) : ksCmd f s = f s :=
  if_neg (by rw [Option.isNone_eq_false_iff.mpr h]; decide)

/-- A slot whose pending bank the owner claims (R258). -/
def Slot.claimed (v : Slot) : Slot := { v.setIdle { material := zeros 64 } with staged := true }

/-- A slot whose pending bank goes under verification (R259). -/
def Slot.verified (v : Slot) : Slot := { v with staged := false, verify := true }

/-- A slot whose pending bank is given up (R262). -/
def Slot.givenUp (v : Slot) : Slot := { v.setIdle {} with staged := false, verify := false }

/-- The pending bank of the selected slot is claimed, and zero (R258). -/
def opened (copy : Bool) (x : Nat) (s : State) : State :=
  modKs (fun k => { k with err := 0, isOpen := true, openSlot := x, openc := copy, wkcv := zeros 8 })
    (modOwn (fun o => { o with wkcvEn := 0 }) (modSlot x Slot.claimed s))

theorem opened_slot (copy : Bool) (x : Nat) (s : State) :
    (opened copy x s).slot x = (s.slot x).claimed := modSlot_slot_same x Slot.claimed s

theorem opened_facts (copy : Bool) {x : Nat} {s : State} (hver : (s.slot x).verify = false) :
    let t := opened copy x s
    Only [.own, .ks] s t ∧ OtherSlots x s t ∧ t.ks.isOpen = true ∧ t.ks.openSlot = x ∧ t.ks.err = 0 ∧ (t.slot x).code = 2 ∧
      (t.slot x).act = (s.slot x).act ∧ (t.slot x).idle.material = zeros 64 := by
  intro t
  refine ⟨Only.modKs _ (by decide) (Only.modOwn _ (by decide) (Only.modSlot _ _ (by decide) (Only.refl _ _)) (hf := fun _ => rfl)),
    otherSlots_modSlot x Slot.claimed s, rfl, rfl, rfl, ?_, ?_, ?_⟩
  · exact (congrArg Slot.code (opened_slot copy x s)).trans (Slot.staged_code _ rfl ((Slot.setIdle_verify _ _).trans hver))
  · exact (congrArg Slot.act (opened_slot copy x s)).trans (Slot.setIdle_act _ _)
  · exact (congrArg (fun v : Slot => v.idle.material) (opened_slot copy x s)).trans (congrArg Bank.material (Slot.setIdle_idle _ _))

section
variable {copy : Bool} {s : State}

theorem ksOpenAs_locked (h : courseLocked s (ksSel s) = true) : ksOpenAs copy s = ksErr 6 s := if_pos h

theorem ksOpenAs_busy (hlock : courseLocked s (ksSel s) = false)
    (h : s.ks.isOpen = true ∨ (s.slot (ksSel s)).zeroing = true ∨ (s.slot (ksSel s)).draining = true ∨ (s.slot (ksSel s)).code ∉ [0, 1, 5]) :
    ksOpenAs copy s = ksErr 1 s := by
  refine (if_neg (by simp [hlock])).trans (if_pos ?_)
  rcases h with h | h | h | h
  · simp [h]
  · simp [h]
  · simp [h]
  · simp only [List.mem_cons, List.not_mem_nil, or_false] at h
    simp only [decide_eq_false h, Bool.not_false, Bool.or_true]

variable (hlock : courseLocked s (ksSel s) = false) (hopen : s.ks.isOpen = false) (hzero : (s.slot (ksSel s)).zeroing = false)
  (hdrain : (s.slot (ksSel s)).draining = false)
include hlock hopen hzero hdrain

theorem ksOpenAs_noBank (h : (s.slot (ksSel s)).code = 0 ∨ (s.slot (ksSel s)).code = 5) : ksOpenAs true s = ksErr 7 s := by
  refine (if_neg (by simp [hlock])).trans ((if_neg ?_).trans (if_pos ?_)) <;> rcases h with h | h <;> simp [hopen, hzero, hdrain, h]

theorem ksOpenAs_opens (hcode : (s.slot (ksSel s)).code ∈ [0, 1, 5]) (hcopy : copy = true → (s.slot (ksSel s)).code = 1) :
    ksOpenAs copy s = if copy then orDefer (.copy (ksSel s)) (copyBank (ksSel s)) (opened copy (ksSel s) s) else opened copy (ksSel s) s := by
  simp only [List.mem_cons, List.not_mem_nil, or_false] at hcode
  refine (if_neg (by simp [hlock])).trans ((if_neg ?_).trans (if_neg ?_))
  · simp only [hopen, hzero, hdrain, decide_eq_true hcode, Bool.or_false, Bool.not_true, Bool.false_eq_true, not_false_eq_true]
  · cases hc : copy with
    | false => simp
    | true => simp [hcopy hc]

end

theorem orDefer_defers {d : KsDefer} {f : State → State} {s : State} (h : s.sup.active = true) :
    orDefer d f s = modKs (fun k => { k with deferred := k.deferred ++ [d] }) s := if_pos h

theorem orDefer_runs {d : KsDefer} {f : State → State} {s : State} (h : s.sup.active = false) : orDefer d f s = f s := if_neg (by simp [h])

/-- OPENC outside a supply warning: the pending bank holds a copy of the active one (R258). -/
theorem copyBank_facts (x : Nat) (s : State) :
    Only [.ks] s (copyBank x s) ∧ OtherSlots x s (copyBank x s) ∧
      (copyBank x s).slot x = (s.slot x).setIdle (({ material := fit 64 (s.slot x).act.material, soft := (s.slot x).act.soft } : Bank).setNext (s.slot x).act.next) :=
  ⟨Only.modSlot _ _ (by decide) (Only.refl _ _), otherSlots_modSlot x _ s, modSlot_slot_same _ _ _⟩

/-! ### Writes of a pending bank (R258) -/

theorem modSlot_idle_facts (x : Nat) (f : Bank → Bank) (s : State) :
    let t := modSlot x (fun v => v.setIdle (f v.idle)) s
    Only [.ks] s t ∧ OtherSlots x s t ∧ (t.slot x).act = (s.slot x).act ∧ (t.slot x).idle = f (s.slot x).idle := by
  intro t
  refine ⟨Only.modSlot _ _ (by decide) (Only.refl _ _), otherSlots_modSlot x _ s, ?_, ?_⟩
  · exact (congrArg Slot.act (modSlot_slot_same x _ s)).trans (Slot.setIdle_act _ _)
  · exact (congrArg Slot.idle (modSlot_slot_same x _ s)).trans (Slot.setIdle_idle _ _)

/-- What each W register writes of the pending bank, and of nothing else (R258). -/
theorem bankWrite_facts {r : KsBankReg} (hr : r ≠ .wkcvEn) (v : Word) (s : State) :
    let t := bankWrite r (~~~ 0) v s
    Only [.ks] s t ∧ OtherSlots s.ks.openSlot s t ∧ (t.slot s.ks.openSlot).act = (s.slot s.ks.openSlot).act ∧
      (r = .wnext → (t.slot s.ks.openSlot).idle.next = v) ∧ (r = .wsoft → (t.slot s.ks.openSlot).idle.soft = v) ∧
      (∀ i, r = .wdata i → (t.slot s.ks.openSlot).idle.material = putWord (s.slot s.ks.openSlot).idle.material 64 i.val (~~~ 0) v) ∧
      (∀ i, r = .wattr i → (t.slot s.ks.openSlot).idle.attr = putWord (s.slot s.ks.openSlot).idle.attr 16 i.val (~~~ 0) v) ∧
      (r = .wkcv → t.ks.wkcv = putWord s.ks.wkcv 8 0 (~~~ 0) v) := by
  intro t
  cases r with
  | wdata i =>
    obtain ⟨honly, hother, hact, hidle⟩ :=
      modSlot_idle_facts s.ks.openSlot (fun b => { b with material := putWord b.material 64 i.val (~~~ 0) v }) s
    refine ⟨honly, hother, hact, nofun, nofun, fun j hj => ?_, nofun, nofun⟩
    cases hj
    exact congrArg Bank.material hidle
  | wattr i =>
    obtain ⟨honly, hother, hact, hidle⟩ := modSlot_idle_facts s.ks.openSlot (fun b => { b with attr := putWord b.attr 16 i.val (~~~ 0) v }) s
    refine ⟨honly, hother, hact, nofun, nofun, nofun, fun j hj => ?_, nofun⟩
    cases hj
    exact congrArg Bank.attr hidle
  | wnext =>
    obtain ⟨honly, hother, hact, hidle⟩ := modSlot_idle_facts s.ks.openSlot (fun b => b.setNext (merge b.next (~~~ 0) v)) s
    exact ⟨honly, hother, hact, fun _ => (congrArg Bank.next hidle).trans (merge_full _ _), nofun, nofun, nofun, nofun⟩
  | wsoft =>
    obtain ⟨honly, hother, hact, hidle⟩ := modSlot_idle_facts s.ks.openSlot (fun b => { b with soft := merge b.soft (~~~ 0) v }) s
    exact ⟨honly, hother, hact, nofun, fun _ => (congrArg Bank.soft hidle).trans (merge_full _ _), nofun, nofun, nofun⟩
  | wkcv => exact ⟨Only.modKs _ (by decide) (Only.refl _ _), fun _ _ => rfl, rfl, nofun, nofun, nofun, nofun, fun _ => rfl⟩
  | wkcvEn => exact absurd rfl hr

theorem ksBank_drops {who : Who} {r : KsBankReg} {v : Word} {s : State} (hr : r ≠ .wkcvEn) (h : ksStaged s = false) :
    ksBank who r (~~~ 0) v s = dropReg who (ksBankReg r) v s :=
  (if_neg hr).trans ((if_pos (by simp [h])).trans (dropPiece_full _ _ _ _))

theorem ksBank_takes {who : Who} {r : KsBankReg} {v : Word} {s : State} (hr : r ≠ .wkcvEn) (h : ksStaged s = true) (hopenc : s.ks.openc = false) :
    ksBank who r (~~~ 0) v s = orDefer (.bank r (~~~ 0) v) (bankWrite r (~~~ 0) v) s :=
  (if_neg hr).trans (if_neg (by simp [h, hopenc]))

/-! ### COMMIT and ABORT (R174, R258, R259) -/

/-- The work that the pending bank of a slot takes before its verification (R174). -/
theorem prepareBank_facts (x : Nat) (s : State) :
    Only [.sch] s (prepareBank x s) ∧ (prepareBank x s).sch.jobs = s.sch.jobs ++
      (if aClass (s.slot x).idle.attr = 4 ∨ aClass (s.slot x).idle.attr = 5 then [{ id := s.sch.nextId, kind := 2, work := .slot x }]
        else if aClass (s.slot x).idle.attr = 0x17 then [{ id := s.sch.nextId, kind := 3, work := .slot x }] else []) := by
  have honly (kind : Nat) : Only [.sch] s (issueJob kind (.slot x) s) := Only.modSch _ (by decide) (Only.refl _ _)
  unfold prepareBank
  split
  next h => exact ⟨honly 2, by rw [if_pos (Or.inl h)]; rfl⟩
  next h => exact ⟨honly 2, by rw [if_pos (Or.inr h)]; rfl⟩
  next h => exact ⟨honly 3, by rw [h]; rfl⟩
  next h4 h5 h17 =>
    refine ⟨Only.refl _ _, ?_⟩
    rw [if_neg (fun h => h.elim h4 h5), if_neg h17, List.append_nil]

/-- The slot that goes under verification. -/
def verifying (x : Nat) (s : State) : State := modSlot x Slot.verified s

theorem verifying_slot (x : Nat) (s : State) : (verifying x s).slot x = (s.slot x).verified := modSlot_slot_same x Slot.verified s

theorem beginVerify_facts (x : Nat) (s : State) :
    let t := beginVerify x s
    let cls := aClass (s.slot x).idle.attr
    Only [.ks, .sch] s t ∧ OtherSlots x s t ∧ t.slot x = (s.slot x).verified ∧
      (s.sup.active = true → t.ks.deferred = s.ks.deferred ++ [.prepare x] ∧ t.sch = s.sch) ∧
      (s.sup.active = false → t.ks.deferred = s.ks.deferred ∧ t.sch.jobs = s.sch.jobs ++
        (if cls = 4 ∨ cls = 5 then [{ id := s.sch.nextId, kind := 2, work := .slot x }]
          else if cls = 0x17 then [{ id := s.sch.nextId, kind := 3, work := .slot x }] else [])) := by
  intro t cls
  have hver : Only [.ks] s (verifying x s) := Only.modSlot _ _ (by decide) (Only.refl _ _)
  cases hsup : s.sup.active with
  | true =>
    have ht : t = modKs (fun k => { k with deferred := k.deferred ++ [.prepare x] }) (verifying x s) := if_pos hsup
    rw [ht]
    exact ⟨Only.modKs _ (by decide) (hver.mono (by decide)), otherSlots_modSlot x Slot.verified s, verifying_slot x s, fun _ => ⟨rfl, rfl⟩, nofun⟩
  | false =>
    have ht : t = prepareBank x (verifying x s) := if_neg (by simp [hsup])
    obtain ⟨honly, hjobs⟩ := prepareBank_facts x (verifying x s)
    rw [ht]
    have hks : (prepareBank x (verifying x s)).ks = (verifying x s).ks := honly.2 .ks (by decide)
    have hidle : ((verifying x s).slot x).idle = (s.slot x).idle := (congrArg Slot.idle (verifying_slot x s)).trans rfl
    rw [hidle] at hjobs
    exact ⟨(hver.mono (by decide)).trans (honly.mono (by decide)), fun k hk => (slot_of_ks hks k).trans (otherSlots_modSlot x Slot.verified s k hk),
      (slot_of_ks hks x).trans (verifying_slot x s), nofun, fun _ => ⟨(congrArg KeyStore.deferred hks).trans rfl, hjobs⟩⟩

/-- A pending bank is given up: zero, and without its work (R262). -/
theorem unclaim_facts (x : Nat) (s : State) :
    Only [.ks, .sch, .tiles] s (unclaim x s) ∧ OtherSlots x s (unclaim x s) ∧
      (unclaim x s).slot x = (s.slot x).givenUp := by
  let y := modKs (fun k => { k with deferred := k.deferred.filter (fun d => !d.of x) })
    (modSlot x Slot.givenUp s)
  have hdrop : Only [.sch, .tiles] y (dropWork (.slot x) y) := Only.dropWork _ _ (List.Subset.refl _) (Only.refl _ _)
  have hks : (dropWork (.slot x) y).ks = y.ks := hdrop.2 .ks (by decide)
  refine ⟨Only.unclaim x s (by decide) (Only.refl _ _), fun k hk => ?_, ?_⟩
  · exact (slot_of_ks hks k).trans (otherSlots_modSlot x Slot.givenUp s k hk)
  · exact (slot_of_ks hks x).trans (modSlot_slot_same x Slot.givenUp s)

/-- The owner's bank is given up with an ERR (R258). -/
theorem ksDiscard_facts (e : Nat) (s : State) :
    let t := ksDiscard e s
    Only [.ks, .sch, .tiles] s t ∧ OtherSlots s.ks.openSlot s t ∧ t.ks.isOpen = false ∧ t.ks.err = BitVec.ofNat 4 e ∧
      t.slot s.ks.openSlot = (s.slot s.ks.openSlot).givenUp := by
  intro t
  obtain ⟨honly, hother, hslot⟩ := unclaim_facts s.ks.openSlot s
  exact ⟨Only.modKs _ (by decide) honly, hother, rfl, rfl, hslot⟩

/-- A slot whose pending bank is given up. -/
theorem givenUp_facts {t v : Slot} (h : t = v.givenUp) :
    t.staged = false ∧ t.act = v.act ∧ t.idle = {} :=
  ⟨(congrArg Slot.staged h).trans rfl, (congrArg Slot.act h).trans (Slot.setIdle_act _ _), (congrArg Slot.idle h).trans (Slot.setIdle_idle _ _)⟩

/-! ### Verification and swap (R259, R260) -/

/-- A slot whose pending bank has been verified, as `b`, and is swapped in (R260). -/
def Slot.swapped (v : Slot) (b : Bank) : Slot :=
  { v.setIdle b with cur := !v.cur, hasCur := true, verify := false, staged := false, corrupt := false, ueBank := false, draining := v.hasCur }

theorem Slot.swapped_act (v : Slot) (b : Bank) : (v.swapped b).act = b := by
  cases hc : v.cur <;> simp [Slot.swapped, Slot.setIdle, Slot.act, hc]

theorem Slot.swapped_idle (v : Slot) (b : Bank) : (v.swapped b).idle = v.act := by
  cases hc : v.cur <;> simp [Slot.swapped, Slot.setIdle, Slot.act, Slot.idle, hc]

theorem swapBank_facts (x : Nat) (s : State) :
    OtherSlots x s (swapBank x s) ∧ (swapBank x s).slot x = (s.slot x).swapped (sealBank s (s.slot x).idle) := by
  let v1 := (s.slot x).swapped (sealBank s (s.slot x).idle)
  let y := modCrs (fun c => { c with blocks := c.blocks.put [] (bankIx x (!(s.slot x).cur)) [] }) (modSlot x (fun _ => v1) s)
  have hsend : Only [.crs, .out, .free] y (swapBank x s) := Only.sendSlotBank x y (List.Subset.refl _) (Only.refl _ _)
  have hks : (swapBank x s).ks = y.ks := hsend.2 .ks (by decide)
  refine ⟨fun k hk => ?_, ?_⟩
  · exact (slot_of_ks hks k).trans (otherSlots_modSlot x (fun _ => v1) s k hk)
  · exact (slot_of_ks hks x).trans (modSlot_slot_same x (fun _ => v1) s)

theorem ownerHolds_iff (s : State) (x : Nat) : ownerHolds s x = true ↔ s.ks.isOpen = true ∧ s.ks.openSlot = x := by simp [ownerHolds]

/-- The end of the verification of the owner's bank that passes (R260). -/
theorem verifyEnds_passes {x : Nat} {s : State} (hown : ownerHolds s x = true) (h : verifyErr s x = 0) :
    verifyEnds x s = raiseG gKsCommitDone
      (modKs (fun k => { k with err := 0, isOpen := false, busy := false, openc := false, wkcv := [] }) (swapBank x s)) :=
  (if_pos hown).trans (if_pos h)

theorem verifyEnds_fails {x : Nat} {s : State} (hown : ownerHolds s x = true) (h : verifyErr s x ≠ 0) :
    verifyEnds x s = raiseG gKsCommitFail (ksDiscard (verifyErr s x) s) :=
  (if_pos hown).trans (if_neg h)

theorem fxKsVerifyDone_eq {slot : Fin 2048} {s : State} (hver : verifiable s slot.val = true) (hnot : KsDefer.verify slot.val ∉ s.ks.deferred) :
    fxKsVerifyDone slot s = orDefer (.verify slot.val) (verifyEnds slot.val) s := by
  rw [fxKsVerifyDone, whenS_true (by rw [hver, decide_eq_true hnot]; rfl)]

/-! ### Drain and zeroize (R260, R261) -/

/-- Telling that a bank has drained touches no slot. -/
theorem told_facts {A : List Part} {s t : State} (gone : Bool) (h : Only A s t) (hA : [.evPend] ⊆ A) :
    Only A s (if gone then raiseG gKsDrained t else t) ∧ (if gone then raiseG gKsDrained t else t).ks = t.ks := by
  cases gone with
  | true => exact ⟨Only.raiseG _ _ hA h, rfl⟩
  | false => exact ⟨h, rfl⟩

/-- A bank stays, under ZEROIZE, that a request is bound to or that an operation claims (R261). -/
def zeroKeeps (s : State) (x : Nat) (b : Bool) : Bool :=
  !bankFree s x b || (((s.slot x).staged || (s.slot x).verify) && decide (b ≠ (s.slot x).cur))

theorem zeroKeeps_iff (s : State) (x : Nat) (b : Bool) :
    zeroKeeps s x b = true ↔ boundCount s x b ≠ 0 ∨ (((s.slot x).staged = true ∨ (s.slot x).verify = true) ∧ b ≠ (s.slot x).cur) := by
  simp [zeroKeeps, bankFree]

theorem bankFree_iff (s : State) (x : Nat) (b : Bool) : bankFree s x b = true ↔ boundCount s x b = 0 := by simp [bankFree]

/-- What ZEROIZE leaves of a slot while not all of it is free. -/
def Slot.zeroed (v : Slot) (keepA keepB drains : Bool) : Slot :=
  { v with bankA := if keepA then v.bankA else {}, bankB := if keepB then v.bankB else {}, draining := drains }

theorem fxKsDrained_zeroes {slot : Fin 2048} {s : State} (hz : (s.slot slot.val).zeroing = true)
    (h : boundCount s slot.val true ≠ 0 ∨ boundCount s slot.val false ≠ 0 ∨ (s.slot slot.val).staged = true ∨ (s.slot slot.val).verify = true) :
    Only [.ks, .evPend] s (fxKsDrained slot s) ∧ OtherSlots slot.val s (fxKsDrained slot s) ∧ ∃ drains,
      (fxKsDrained slot s).slot slot.val = (s.slot slot.val).zeroed (zeroKeeps s slot.val false) (zeroKeeps s slot.val true) drains := by
  let x := slot.val
  let gone := (s.slot x).draining && bankFree s x (!(s.slot x).cur)
  let stop (v : Slot) : Slot := { v with draining := v.draining && !gone }
  let free (v : Slot) : Slot :=
    { v with bankA := if zeroKeeps s x false then v.bankA else {}, bankB := if zeroKeeps s x true then v.bankB else {} }
  let y := modSlot x stop (modSlot x free s)
  have hexec : fxKsDrained slot s = if gone then raiseG gKsDrained y else y := by
    refine (if_pos hz).trans (if_neg fun hall => ?_)
    simp only [Bool.and_eq_true, bankFree_iff, Bool.not_eq_true'] at hall
    obtain ⟨⟨⟨hb, ha⟩, hst⟩, hve⟩ := hall
    rcases h with h | h | h | h
    · exact h hb
    · exact h ha
    · exact absurd (h.symm.trans hst) (by decide)
    · exact absurd (h.symm.trans hve) (by decide)
  obtain ⟨honly, hks⟩ := told_facts (A := [.ks, .evPend]) gone
    (Only.modSlot x stop (by decide) (Only.modSlot x free (by decide) (Only.refl _ s))) (by decide)
  rw [hexec]
  refine ⟨honly, fun k hk => (slot_of_ks hks k).trans ?_, (s.slot x).draining && !gone, (slot_of_ks hks x).trans ?_⟩
  · exact (otherSlots_modSlot x stop _ k hk).trans (otherSlots_modSlot x free s k hk)
  · exact (modSlot_slot_same x stop _).trans (congrArg stop (modSlot_slot_same x free s))

theorem ksZeroize_free {s : State} (hlock : courseLocked s (ksSel s) = false) (hown : ownerHolds s (ksSel s) = false) (h : s.slot (ksSel s) ≠ {}) :
    ksZeroize s = modSlot (ksSel s) (fun v => { v with zeroing := true }) (ksErr erNone s) := by
  have hnot : ¬ ownerHolds s (ksSel s) = true := by simp [hown]
  refine (if_neg (by simp [hlock])).trans ?_
  rw [if_neg hnot]
  exact if_neg h

theorem ksZeroize_held {s : State} (hlock : courseLocked s (ksSel s) = false) (hown : ownerHolds s (ksSel s) = true) :
    ksZeroize s = if (ksDiscard erNone s).slot (ksSel s) = {} then ksDiscard erNone s
      else modSlot (ksSel s) (fun v => { v with zeroing := true }) (ksDiscard erNone s) := by
  refine (if_neg (by simp [hlock])).trans ?_
  rw [if_pos hown]

/-! ### Scan (R255, R256) -/

/-- A slot whose active bank has failed its integrity check (R256). -/
def Slot.failed (v : Slot) (ue : Bool) : Slot := { v with corrupt := true, ueBank := ue }

theorem failBank_facts (x : Nat) (ue : Bool) (s : State) :
    OtherSlots x s (failBank x ue s) ∧ (failBank x ue s).slot x = (s.slot x).failed ue ∧ bitOf (failBank x ue s).evPend gKsSlotCorrupt = true ∧
      (failBank x ue s).jrn.seq = s.jrn.seq + 1 := by
  have hpart : Only recordParts (raiseG gKsSlotCorrupt (modSlot x (·.failed ue) s)) (failBank x ue s) :=
    Only.ksEvent _ _ _ _ (by decide) (Only.refl _ _)
  have hks : (failBank x ue s).ks = (modSlot x (·.failed ue) s).ks := hpart.2 .ks (by decide)
  refine ⟨fun k hk => ?_, ?_, ?_, ?_⟩
  · exact (slot_of_ks hks k).trans (otherSlots_modSlot x (·.failed ue) s k hk)
  · exact (slot_of_ks hks x).trans (modSlot_slot_same x (·.failed ue) s)
  · exact Pend.journal _ _ _ _ (raiseG_bit gKsSlotCorrupt _ (by decide))
  · exact journal_seq _ _ _ _

/-! ### Measurement registers (R244, R245) -/

theorem extend_facts (i : Nat) (e : Bytes) (s : State) :
    let t := extend i e s
    Only [.meas] s t ∧ measVal t i = fit 48 (sha384 (measVal s i ++ e)) ∧ measCnt t i = measCnt s i + 1 ∧
      (∀ j, j ≠ i → measVal t j = measVal s j ∧ measCnt t j = measCnt s j) ∧ t.meas.lock = s.meas.lock := by
  intro t
  refine ⟨Only.modMeas _ (by decide) (Only.refl _ _), ?_, ?_, fun j hj => ⟨?_, ?_⟩, rfl⟩
  · exact congrArg (fit 48) (look_put_same [] s.meas.vals i (sha384 (measVal s i ++ e)))
  · exact look_put_same _ _ _ _
  · exact congrArg (fit 48) (look_put_ne [] s.meas.vals (sha384 (measVal s i ++ e)) hj)
  · exact look_put_ne _ _ _ hj

/-- A refused extend leaves ERR, and one record (R244, R245). -/
theorem extendRecord_facts (i : Nat) (s : State) :
    let t := extendRecord i (ksErr erLocked s)
    t.meas = s.meas ∧ t.ks.err = 6 ∧ t.jrn.seq = s.jrn.seq + 1 := by
  intro t
  have honly : Only recordParts (ksErr erLocked s) t := Only.ksEvent _ _ _ _ (by decide) (Only.refl _ _)
  exact ⟨honly.2 .meas (by decide), congrArg KeyStore.err (honly.2 .ks (by decide)), journal_seq _ _ _ _⟩

theorem extendRefused_course {s : State} {i : Nat} (h0 : i ≠ 0) (h : extendRefused s i = false) : ¬ (i = 0 ∨ extendRefused s i = true) := by
  simp [h0, h]

end Sys2Proof.Machine

namespace Sys2Proof.KeySlots
open Sys2Proof.Machine

/-- Settles O41, by the branch that each command of the owner's procedure takes. -/
theorem ownerReplacesKey : Obligations.OwnerReplacesKey := by
  unfold Obligations.OwnerReplacesKey
  refine ⟨?_, ?_, ?_, ?_, ?_⟩
  · intro who s htakes htag x
    have hexec : fxKsOpen who s = ksOpenAs false s := (gateW_takes htakes).trans (ksCmd_takes htag)
    refine ⟨fun h => ⟨_, congrArg Host.Outcome.next hexec, ksOpenAs_locked h⟩, fun hlock h => ⟨_, congrArg Host.Outcome.next hexec, ksOpenAs_busy hlock h⟩,
      fun hlock hopen hzero hdrain hcode => ?_⟩
    exact ⟨_, congrArg Host.Outcome.next (hexec.trans (ksOpenAs_opens hlock hopen hzero hdrain hcode nofun)), opened_facts false (Slot.verify_of_code hcode)⟩
  · intro who s htakes htag hlock hopen hzero hdrain x
    have hexec : fxKsOpenc who s = ksOpenAs true s := (gateW_takes htakes).trans (ksCmd_takes htag)
    refine ⟨fun h => ⟨_, congrArg Host.Outcome.next hexec, ksOpenAs_noBank hlock hopen hzero hdrain h⟩, fun hcode => ?_⟩
    have hmem : (s.slot x).code ∈ [0, 1, 5] := by simp [hcode]
    have hopens := hexec.trans (ksOpenAs_opens hlock hopen hzero hdrain hmem fun _ => hcode)
    obtain ⟨honly, hother, hisOpen, hslot, herr, hcode2, hact, hmat⟩ := opened_facts true (Slot.verify_of_code hmem)
    have hver : (s.slot x).claimed.verify = false := (Slot.setIdle_verify _ _).trans (Slot.verify_of_code hmem)
    have hsup1 : (opened true x s).sup = s.sup := honly.2 .sup (by decide)
    cases hsup : s.sup.active with
    | true =>
      have hdefer := hopens.trans (orDefer_defers (by rw [hsup1, hsup]))
      exact ⟨_, congrArg Host.Outcome.next hdefer, Only.modKs _ (by decide) honly, hother, hisOpen, hslot, herr, hcode2, hact,
        fun _ => ⟨rfl, hmat⟩, nofun⟩
    | false =>
      have hrun := hopens.trans (orDefer_runs (by rw [hsup1, hsup]))
      obtain ⟨hconly, hcother, hcslot⟩ := copyBank_facts x (opened true x s)
      have hcode3 : ((copyBank x (opened true x s)).slot x).code = 2 := by
        rw [hcslot, opened_slot]
        exact Slot.staged_code _ (Slot.setIdle_staged _ _) ((Slot.setIdle_verify _ _).trans hver)
      have hact3 : ((copyBank x (opened true x s)).slot x).act = (s.slot x).act := by rw [hcslot, Slot.setIdle_act, hact]
      refine ⟨_, congrArg Host.Outcome.next hrun, honly.trans (hconly.mono (by decide)), fun k hk => (hcother k hk).trans (hother k hk), hisOpen, hslot,
        herr, hcode3, hact3, nofun, fun _ => ?_⟩
      rw [hcslot, Slot.setIdle_idle, hact]
      exact ⟨rfl, rfl, rfl⟩
  · intro who r v s htakes hr
    have hexec : fxKsBankWrite who r v s = ksBank who r (~~~ 0) v s := gateW_takes htakes
    refine ⟨fun h => ⟨_, congrArg Host.Outcome.next (hexec.trans (ksBank_drops hr h)), dropReg_dropped _ _ _ _⟩, fun hst hopenc hsup => ?_, fun hst hopenc hsup => ?_⟩
    · exact ⟨_, congrArg Host.Outcome.next (hexec.trans ((ksBank_takes hr hst hopenc).trans (orDefer_defers hsup))),
        Only.modKs _ (by decide) (Only.refl _ _), rfl, rfl⟩
    · exact ⟨_, congrArg Host.Outcome.next (hexec.trans ((ksBank_takes hr hst hopenc).trans (orDefer_runs hsup))), bankWrite_facts hr v s⟩
  · intro who s htakes htag
    have hexec : fxKsCommit who s = ksCommit s := (gateW_takes htakes).trans (ksCmd_takes htag)
    refine ⟨fun hopen => ⟨_, congrArg Host.Outcome.next hexec, if_pos (by simp [hopen])⟩,
      fun hopen hver => ⟨_, congrArg Host.Outcome.next hexec, (if_neg (by simp [hopen])).trans (if_pos hver)⟩, fun hopen hver => ?_⟩
    let x := s.ks.openSlot
    have hrun : ksCommit s = modKs (fun k => { k with busy := true }) (beginVerify x s) := (if_neg (by simp [hopen])).trans (if_neg (by simp [hver]))
    obtain ⟨honly, hother, hslot, hwarned, hnow⟩ := beginVerify_facts x s
    exact ⟨_, congrArg Host.Outcome.next (hexec.trans hrun), Only.modKs _ (by decide) honly, hother, rfl,
      (congrArg Slot.code hslot).trans (Slot.verify_code _ rfl), hslot, hwarned, hnow⟩
  · intro who s htakes htag
    have hexec : fxKsAbort who s = ksAbort s := (gateW_takes htakes).trans (ksCmd_takes htag)
    refine ⟨fun hopen => ⟨_, congrArg Host.Outcome.next hexec, if_pos (by simp [hopen])⟩,
      fun hopen hver => ⟨_, congrArg Host.Outcome.next hexec, (if_neg (by simp [hopen])).trans (if_pos hver)⟩, fun hopen hver => ?_⟩
    have hrun : ksAbort s = ksDiscard erNone s := (if_neg (by simp [hopen])).trans (if_neg (by simp [hver]))
    obtain ⟨honly, hother, hclosed, herr, hslot⟩ := ksDiscard_facts erNone s
    obtain ⟨hstaged, hact, hidle⟩ := givenUp_facts hslot
    exact ⟨_, congrArg Host.Outcome.next (hexec.trans hrun), honly, hother, hclosed, herr, hstaged, hact, hidle⟩

/-- Settles O42, by what a swap, a discard, a drain, a failed check and an extend make of a slot and of a register. -/
theorem slotsSwapAndDrain : Obligations.SlotsSwapAndDrain := by
  unfold Obligations.SlotsSwapAndDrain
  refine ⟨?_, ?_, ?_, ?_, ?_, ?_, ?_, ?_, ?_⟩
  · intro slot s hver hnot hsup
    exact ⟨_, congrArg Host.Outcome.next ((fxKsVerifyDone_eq hver hnot).trans (orDefer_defers hsup)), Only.modKs _ (by decide) (Only.refl _ _), rfl⟩
  · intro slot s hver hnot hsup hown a m
    have hexec := (fxKsVerifyDone_eq hver hnot).trans (orDefer_runs hsup)
    refine ⟨fun herr => ?_, fun herr => ?_⟩
    · obtain ⟨hother, hslot⟩ := swapBank_facts slot.val s
      refine ⟨_, congrArg Host.Outcome.next (hexec.trans (verifyEnds_passes hown herr)), hother, rfl, rfl, rfl, raiseG_bit _ _ (by decide), ?_⟩
      generalize swapBank slot.val s = y at hslot ⊢
      have hact : (y.slot slot.val).act = sealBank s (s.slot slot.val).idle := (congrArg Slot.act hslot).trans (Slot.swapped_act _ _)
      have hidle : (y.slot slot.val).idle = (s.slot slot.val).act := (congrArg Slot.idle hslot).trans (Slot.swapped_idle _ _)
      exact ⟨(congrArg Slot.cur hslot).trans rfl, (congrArg Slot.hasCur hslot).trans rfl, (congrArg Slot.draining hslot).trans rfl, hidle,
        (congrArg Bank.attr hact).trans rfl, (congrArg Bank.material hact).trans rfl, (congrArg Bank.next hact).trans rfl,
        (congrArg Bank.mstamp hact).trans rfl, (congrArg Bank.prep hact).trans rfl, (congrArg Bank.tag hact).trans rfl⟩
    · obtain ⟨honly, hother, hclosed, herr', hslot⟩ := ksDiscard_facts (verifyErr s slot.val) s
      rw [((ownerHolds_iff s slot.val).mp hown).2] at hother hslot
      obtain ⟨-, hact, hidle⟩ := givenUp_facts hslot
      exact ⟨_, congrArg Host.Outcome.next (hexec.trans (verifyEnds_fails hown herr)), Only.raiseG _ _ (by decide) (honly.mono (by decide)), hother,
        herr', hclosed, raiseG_bit _ _ (by decide), hact, hidle⟩
  · intro slot s hz hd
    have hexec : fxKsDrained slot s = whenS ((s.slot slot.val).draining && bankFree s slot.val (!(s.slot slot.val).cur)) _ s := if_neg (by simp [hz])
    refine ⟨fun h => congrArg Host.Outcome.next (hexec.trans (whenS_false ?_)), fun h => ?_⟩
    · rw [Bool.and_eq_false_iff]
      exact Or.inr (Bool.eq_false_iff.mpr fun hf => h ((bankFree_iff _ _ _).mp hf))
    · have hgone : ((s.slot slot.val).draining && bankFree s slot.val (!(s.slot slot.val).cur)) = true := by
        rw [hd, (bankFree_iff _ _ _).mpr h]
        rfl
      let rests (v : Slot) : Slot := { v.setIdle {} with draining := false }
      have hrun : fxKsDrained slot s = raiseG gKsDrained (modSlot slot.val rests s) := hexec.trans ((whenS_true hgone).trans (if_pos hgone))
      have hslot : (modSlot slot.val rests s).slot slot.val = rests (s.slot slot.val) := modSlot_slot_same _ rests s
      exact ⟨_, congrArg Host.Outcome.next hrun, Only.raiseG _ _ (by decide) (Only.modSlot _ _ (by decide) (Only.refl _ _)),
        otherSlots_modSlot slot.val rests s, raiseG_bit _ _ (by decide), (congrArg Slot.draining hslot).trans rfl,
        (congrArg Slot.act hslot).trans (Slot.setIdle_act _ _), (congrArg Slot.idle hslot).trans (Slot.setIdle_idle _ _)⟩
  · intro slot s hz hst hve hb ha
    have hfree : (bankFree s slot.val true && bankFree s slot.val false && !(s.slot slot.val).staged && !(s.slot slot.val).verify) = true := by
      rw [(bankFree_iff _ _ _).mpr hb, (bankFree_iff _ _ _).mpr ha, hst, hve]
      rfl
    have hrun : fxKsDrained slot s = if ((s.slot slot.val).draining && bankFree s slot.val (!(s.slot slot.val).cur)) = true
        then raiseG gKsDrained (modSlot slot.val (fun _ => {}) s) else modSlot slot.val (fun _ => {}) s := (if_pos hz).trans (if_pos hfree)
    obtain ⟨honly, hks⟩ := told_facts (A := [.ks, .evPend]) ((s.slot slot.val).draining && bankFree s slot.val (!(s.slot slot.val).cur))
      (Only.modSlot slot.val (fun _ => {}) (by decide) (Only.refl _ s)) (by decide)
    exact ⟨_, congrArg Host.Outcome.next hrun, honly, fun k hk => (slot_of_ks hks k).trans (otherSlots_modSlot slot.val (fun _ => {}) s k hk),
      (slot_of_ks hks _).trans (modSlot_slot_same slot.val (fun _ => {}) s)⟩
  · intro slot s hz hheld v stays
    obtain ⟨honly, hother, drains, hslot⟩ := fxKsDrained_zeroes hz hheld
    refine ⟨_, rfl, honly, hother, (congrArg Slot.zeroing hslot).trans hz, fun h => ?_, fun h => ?_, fun h => ?_, fun h => ?_⟩
    · exact (congrArg Slot.bankA hslot).trans (if_pos ((zeroKeeps_iff _ _ _).mpr h))
    · exact (congrArg Slot.bankA hslot).trans (if_neg fun hk => h ((zeroKeeps_iff _ _ _).mp hk))
    · exact (congrArg Slot.bankB hslot).trans (if_pos ((zeroKeeps_iff _ _ _).mpr h))
    · exact (congrArg Slot.bankB hslot).trans (if_neg fun hk => h ((zeroKeeps_iff _ _ _).mp hk))
  · intro who s htakes htag hlock hown hne
    let marks (v : Slot) : Slot := { v with zeroing := true }
    have hexec : fxKsZeroize who s = modSlot (ksSel s) marks (ksErr erNone s) :=
      (gateW_takes htakes).trans ((ksCmd_takes htag).trans (ksZeroize_free hlock hown hne))
    exact ⟨_, congrArg Host.Outcome.next hexec, Only.modSlot _ _ (by decide) (Only.ksErr _ _ (by decide) (Only.refl _ _)),
      otherSlots_modSlot (ksSel s) marks (ksErr erNone s), rfl, modSlot_slot_same (ksSel s) marks (ksErr erNone s)⟩
  · intro who s htakes htag hlock hown
    have hexec : fxKsZeroize who s = _ := (gateW_takes htakes).trans ((ksCmd_takes htag).trans (ksZeroize_held hlock hown))
    obtain ⟨honly, hother, hclosed, herr, hslot⟩ := ksDiscard_facts erNone s
    rw [((ownerHolds_iff s _).mp hown).2] at hother hslot
    obtain ⟨-, -, hidle⟩ := givenUp_facts hslot
    clear hslot
    refine ⟨_, congrArg Host.Outcome.next hexec, ?_⟩
    generalize ksDiscard erNone s = y at honly hother hclosed herr hidle ⊢
    split
    next hempty => exact ⟨honly, hother, herr, hclosed, hidle, Or.inl hempty⟩
    next hfull =>
      let marks (v : Slot) : Slot := { v with zeroing := true }
      have hmark : (modSlot (ksSel s) marks y).slot (ksSel s) = marks (y.slot (ksSel s)) := modSlot_slot_same _ marks y
      exact ⟨Only.modSlot _ _ (by decide) honly, fun k hk => (otherSlots_modSlot (ksSel s) marks y k hk).trans (hother k hk), herr, hclosed,
        (congrArg Slot.idle hmark).trans hidle, Or.inr ((congrArg Slot.zeroing hmark).trans rfl)⟩
  · intro slot s hcur hgood
    have hcond : ((s.slot slot.val).hasCur && !(s.slot slot.val).corrupt) = true := by rw [hcur, hgood]; rfl
    have hclean : fxKsBackgroundScan slot .clean s = s := by rw [fxKsBackgroundScan, whenS_true hcond]
    have hce : fxKsBackgroundScan slot .corrected s = ksCe 8 s := by rw [fxKsBackgroundScan, whenS_true hcond]
    have htag : fxKsBackgroundScan slot .tagMismatch s = failBank slot.val false s := by rw [fxKsBackgroundScan, whenS_true hcond]
    have hue : fxKsBackgroundScan slot .uncorrectable s = failBankUe slot.val s := by rw [fxKsBackgroundScan, whenS_true hcond]
    refine ⟨congrArg Host.Outcome.next hclean, ⟨_, congrArg Host.Outcome.next hce, ?_⟩,
      ⟨_, congrArg Host.Outcome.next htag, ?_⟩, ⟨_, congrArg Host.Outcome.next hue, ?_⟩⟩
    · have hks : (ksCe 8 s).ks = (modKs (fun k => { k with ce := k.ce.bump }) s).ks :=
        (Only.countCe 8 _ (List.Subset.refl _) (Only.refl _ _)).2 .ks (by decide)
      exact ⟨(congrArg KeyStore.ce hks).trans rfl, (congrArg KeyStore.slots hks).trans rfl⟩
    · obtain ⟨hother, hslot, hbit, hseq⟩ := failBank_facts slot.val false s
      exact ⟨hother, (congrArg Slot.corrupt hslot).trans rfl, (congrArg Slot.ueBank hslot).trans rfl, hbit, hseq⟩
    · obtain ⟨hother, hslot, hbit, hseq⟩ := failBank_facts slot.val true s
      have hks : (failBankUe slot.val s).ks = (failBank slot.val true s).ks :=
        (Only.journalUe 8 slot.val (failBank slot.val true s) (List.Subset.refl _) (Only.refl _ _)).2 .ks (by decide)
      refine ⟨fun k hk => (slot_of_ks hks k).trans (hother k hk), ?_, ?_, Pend.journalUe _ _ _ hbit, ?_⟩
      · exact (congrArg Slot.corrupt ((slot_of_ks hks slot.val).trans hslot)).trans rfl
      · exact (congrArg Slot.ueBank ((slot_of_ks hks slot.val).trans hslot)).trans rfl
      · rw [failBankUe, journalUe_seq, hseq, BitVec.add_assoc]
        rfl
  · intro who s htakes htag i
    have hexec : fxKsExtend who s = ksExtend s := (gateW_takes htakes).trans (ksCmd_takes htag)
    refine ⟨fun h => ⟨_, congrArg Host.Outcome.next (hexec.trans (if_pos h)), extendRecord_facts i s⟩, fun h0 href hsup => ?_, fun h0 href hsup => ?_⟩
    · obtain ⟨honly, hval, hcnt, hothers, hlock⟩ := extend_facts i (fit 48 s.meas.data) s
      have hrun : ksExtend s = ksErr erNone (extend i (fit 48 s.meas.data) s) :=
        (if_neg (extendRefused_course h0 href)).trans (congrArg (ksErr erNone) (orDefer_runs hsup))
      exact ⟨_, congrArg Host.Outcome.next (hexec.trans hrun), Only.ksErr _ _ (by decide) (honly.mono (by decide)), rfl, hval, hcnt, hothers, hlock⟩
    · have hrun : ksExtend s = ksErr erNone (modKs (fun k => { k with deferred := k.deferred ++ [.extend i (fit 48 s.meas.data)] }) s) :=
        (if_neg (extendRefused_course h0 href)).trans (congrArg (ksErr erNone) (orDefer_defers hsup))
      exact ⟨_, congrArg Host.Outcome.next (hexec.trans hrun), Only.ksErr _ _ (by decide) (Only.modKs _ (by decide) (Only.refl _ _)), rfl, rfl, rfl⟩

end Sys2Proof.KeySlots
end

section
/-!
The key cache (R262, R271 to R275): what a load, an install and an unload leave, with the statement O34.
-/

namespace Sys2Proof.Machine

/-- An entry that a sweep would keep is found behind it as before. -/
theorem look_filter_kept {α : Type} (d : α) (t : Tbl α) (p : Nat × α → Bool) (i : Nat) (h : p (i, t.look d i) = true) :
    Tbl.look d (t.filter p) i = t.look d i := by
  induction t with
  | nil => rfl
  | cons e t ih =>
    obtain ⟨k, v⟩ := e
    by_cases hk : k = i
    · subst hk
      have hv : Tbl.look d ((k, v) :: t) k = v := if_pos rfl
      rw [hv] at h ⊢
      rw [List.filter_cons_of_pos h]
      exact if_pos rfl
    · have hrest : Tbl.look d ((k, v) :: t) i = Tbl.look d t i := if_neg hk
      rw [hrest] at h ⊢
      cases hp : p (k, v) with
      | true => exact (congrArg (Tbl.look d · i) (List.filter_cons_of_pos hp)).trans ((if_neg hk).trans (ih h))
      | false => exact (congrArg (Tbl.look d · i) (List.filter_cons_of_neg (by simp [hp]))).trans (ih h)

/-- A sweep leaves an entry whose key is not unloaded, or is bound to a request (R272, R275). -/
theorem sweepCache_kept {s : State} {g : Nat} (h : ∀ c, s.cacheEnt g = some c → c.unload = true → s.reqs.any (bindsHandle g) = true) :
    (sweepCache s).cacheEnt g = s.cacheEnt g := by
  refine look_filter_kept none s.ks.cache _ g ?_
  have hlook : Tbl.look none s.ks.cache g = s.cacheEnt g := rfl
  rw [hlook]
  cases hent : s.cacheEnt g with
  | none => rfl
  | some c =>
    cases hun : c.unload with
    | false => simp [hun]
    | true => simp [hun, h c hent hun]

/-- What the load of a key leaves of the cache and of its request (R274). -/
theorem cacheLoad_facts {id i : Nat} {r : Req} {s y : State} {h : Nat} {v : CacheEnt} (hreq : y.req id = some r) (hi : i < r.ops.length)
    (hreqs : y.reqs = s.reqs) (hks : y.ks = s.ks) :
    let t := finishOp id i {} (sweepCache (setCacheEnt h (some v) y))
    RunsOn t id r (fun r' => (r'.op i).phase = .done) ∧ (v.unload = false → t.cacheEnt h = some v) ∧
      ∀ g, g ≠ h → (∀ c, s.cacheEnt g = some c → c.unload = true → s.reqs.any (bindsHandle g) = true) → t.cacheEnt g = s.cacheEnt g := by
  intro t
  have hent (g : Nat) : y.cacheEnt g = s.cacheEnt g := by rw [State.cacheEnt, State.cacheEnt, hks]
  have hone : (sweepCache (setCacheEnt h (some v) y)).req id = some r := hreq
  refine ⟨?_, fun hv => ?_, fun g hg hkept => ?_⟩
  · obtain ⟨r', hr', hten, hentry, hph, hdone, -⟩ := finishOp_runs {} hone hi
    exact ⟨r', hr', hten, hentry, hph, hdone⟩
  · refine (finishOp_cache _ _ _ _ h).trans ((sweepCache_kept fun c hc hun => ?_).trans (setCacheEnt_same _ _ _))
    rw [setCacheEnt_same] at hc
    rw [← Option.some.inj hc, hv] at hun
    cases hun
  · refine (finishOp_cache _ _ _ _ g).trans ((sweepCache_kept fun c hc hun => ?_).trans ((setCacheEnt_ne _ _ hg).trans (hent g)))
    rw [setCacheEnt_ne _ _ hg, hent g] at hc
    rw [show (setCacheEnt h (some v) y).reqs = s.reqs from hreqs]
    exact hkept c hc hun

theorem cacheKey_inPartition {s : State} {r : Req} {h : Nat} {a m : Bytes}
    (hin : ∀ j, j < entriesOf m.length → inPartition s s.gen.act r.tenant.val (h + j) = true) : (cacheKey s r h a m).unload = false := by
  simp only [cacheKey, Bool.not_eq_false', List.all_eq_true, List.mem_range]
  exact hin

/-- A key in its partition, as it is kept (R271, R273). -/
theorem cacheKey_eq {s : State} {r : Req} {h : Nat} {a m : Bytes} (hun : (cacheKey s r h a m).unload = false) :
    cacheKey s r h a m =
      { tenant := r.tenant, attr := a, material := m, mstamp := stampNow s (aMpol a), kept := (cacheKey s r h a m).kept
        tag := keyTag s m a 0 (stampNow s (aMpol a)) (cacheKey s r h a m).kept } := by
  rw [cacheKey] at hun ⊢
  dsimp only at hun ⊢
  rw [hun]

theorem bankOrder_healthy {s : State} {u : Nat} {l : List Nat} (h : bankOrder s = u :: l) : healthyOf s 3 ≠ [] := by
  have hmem : u ∈ bankOrder s := by rw [h]; exact List.mem_cons_self
  have hu : u ∈ healthyOf s 3 := by
    simp only [bankOrder, List.mem_append, List.mem_filter, Bool.and_eq_true] at hmem
    rcases hmem with ⟨hkind, ⟨hhealthy, -⟩, -⟩ | ⟨hkind, hfree, -⟩
    · exact List.mem_filter.mpr ⟨hkind, hhealthy⟩
    · exact List.mem_filter.mpr ⟨hkind, ((Bool.and_eq_true _ _).mp hfree).1⟩
  exact List.ne_nil_of_mem hu

theorem seedLoad_ends {id i : Nat} {f : State → State} {s : State} (h : healthyOf s 3 = [] ∨ healthyOf s 2 = []) :
    seedLoad id i f s = endChain id ⟨0x61, 2, i⟩ s := if_pos h

theorem seedLoad_loads {id i u : Nat} {l : List Nat} {f : State → State} {s : State} (h : bankOrder s = u :: l) (h2 : healthyOf s 2 ≠ []) :
    seedLoad id i f s = f (useBank id u s) := by
  rw [seedLoad, if_neg (not_or.mpr ⟨bankOrder_healthy h, h2⟩), h]

section
variable {id : Nat} {op : Fin 8} {r : Req} {s : State} (hreq : s.req id = some r) (htag : s.ks.kTag.isSome = true)
include hreq htag

theorem fxKeyCacheLoad_fails (hready : loadReady s r op.val 0 = true) {f : Fail} (h : blobCheck s r op.val false = .error f) :
    fxKeyCacheLoad id op s = endChain id (mkOut f op.val) s := by
  rw [fxKeyCacheLoad, withReq_some hreq, whenS_true hready, if_neg (by rw [Option.isNone_eq_false_iff.mpr htag]; decide), h]

theorem fxKeyCacheLoad_ok (hready : loadReady s r op.val 0 = true) {m : Bytes} (h : blobCheck s r op.val false = .ok m) :
    let a := blobAttr (r.src op.val)
    let load (y : State) : State :=
      finishOp id op.val {} (sweepCache (setCacheEnt (fwHandle (r.par op.val)) (some (cacheKey s r (fwHandle (r.par op.val)) a m)) y))
    fxKeyCacheLoad id op s = if aClass a = 0x17 then seedLoad id op.val load s else load s := by
  intro a load
  rw [fxKeyCacheLoad, withReq_some hreq, whenS_true hready, if_neg (by rw [Option.isNone_eq_false_iff.mpr htag]; decide), h]
  rfl

theorem fxKeyInstall_fails (hready : loadReady s r op.val 1 = true) {f : Fail} (h : blobCheck s r op.val true = .error f) :
    fxKeyInstall id op s = endChain id (mkOut f op.val) s := by
  rw [fxKeyInstall, withReq_some hreq, whenS_true hready, if_neg (by rw [Option.isNone_eq_false_iff.mpr htag]; decide), h]

theorem fxKeyInstall_ok (hready : loadReady s r op.val 1 = true) {m : Bytes} (h : blobCheck s r op.val true = .ok m) :
    fxKeyInstall id op s = finishOp id op.val { made := m } s := by
  rw [fxKeyInstall, withReq_some hreq, whenS_true hready, if_neg (by rw [Option.isNone_eq_false_iff.mpr htag]; decide), h]

end

/-- The entries at the handle once an unload has cleared a marked key (R275). -/
theorem clearMarked_facts (h : Nat) (s : State) :
    let t := if ((s.cacheEnt h).map CacheEnt.unload).getD false = true then setCacheEnt h none s else s
    t.reqs = s.reqs ∧ (∀ c, s.cacheEnt h = some c → c.unload = true → t.cacheEnt h = none) ∧ ∀ g, g ≠ h → t.cacheEnt g = s.cacheEnt g := by
  intro t
  cases hmark : ((s.cacheEnt h).map CacheEnt.unload).getD false with
  | true =>
    have ht : t = setCacheEnt h none s := if_pos hmark
    rw [ht]
    exact ⟨rfl, fun _ _ _ => setCacheEnt_same _ _ _, fun g hg => setCacheEnt_ne _ _ hg⟩
  | false =>
    have ht : t = s := if_neg (by simp [hmark])
    rw [ht]
    refine ⟨rfl, fun c hc hun => ?_, fun _ _ => rfl⟩
    rw [hc, Option.map_some, Option.getD_some, hun] at hmark
    cases hmark

end Sys2Proof.Machine

namespace Sys2Proof.KeyCache
open Sys2Proof.Machine

/-- Settles O34, by the first failing check of the blob, and by what the sweep of the cache keeps. -/
theorem keyCacheCommands : Obligations.KeyCacheCommands := by
  unfold Obligations.KeyCacheCommands
  refine ⟨?_, ?_, ?_, ?_⟩
  · intro id op r s hreq hready htag h a
    refine ⟨fun m hok hseed => ?_, fun m hok hclass htiles => ?_, fun f hfail => ?_⟩
    · have hexec := fxKeyCacheLoad_ok hreq htag hready hok
      have hdone {y : State} (hy : fxKeyCacheLoad id op s = finishOp id op.val {} (sweepCache (setCacheEnt h (some (cacheKey s r h a m)) y)))
          (hreqs : y.reqs = s.reqs) (hks : y.ks = s.ks) :
          ∃ t, exec (.keyCacheLoad id op) s = .next t ∧ RunsOn t id r (fun r' => (r'.op op.val).phase = .done) ∧
            ((∀ j, j < entriesOf m.length → inPartition s s.gen.act r.tenant.val (h + j) = true) → t.cacheEnt h =
              some { tenant := r.tenant, attr := a, material := m, mstamp := stampNow s (aMpol a), kept := (cacheKey s r h a m).kept,
                     tag := keyTag s m a 0 (stampNow s (aMpol a)) (cacheKey s r h a m).kept }) ∧
            ∀ g, g ≠ h → (∀ c, s.cacheEnt g = some c → c.unload = true → s.reqs.any (bindsHandle g) = true) → t.cacheEnt g = s.cacheEnt g := by
        obtain ⟨hruns, hin, hothers⟩ :=
          cacheLoad_facts (v := cacheKey s r h a m) (h := h) ((req_of_reqs hreqs id).trans hreq) (loadReady_lt hready) hreqs hks
        exact ⟨_, congrArg Host.Outcome.next hy, hruns,
          fun hpart => (hin (cacheKey_inPartition hpart)).trans (congrArg some (cacheKey_eq (cacheKey_inPartition hpart))), hothers⟩
      by_cases hclass : aClass a = 0x17
      · obtain ⟨hbank, h2⟩ := hseed hclass
        obtain ⟨u, l, hul⟩ := List.exists_cons_of_ne_nil hbank
        exact hdone (hexec.trans ((if_pos hclass).trans (seedLoad_loads hul h2))) rfl rfl
      · exact hdone (hexec.trans (if_neg hclass)) rfl rfl
    · exact ⟨_, congrArg Host.Outcome.next ((fxKeyCacheLoad_ok hreq htag hready hok).trans ((if_pos hclass).trans (seedLoad_ends htiles))),
        endChain_ends _ hreq, endChain_cache _ _ _⟩
    · exact ⟨_, congrArg Host.Outcome.next (fxKeyCacheLoad_fails hreq htag hready hfail), endChain_ends _ hreq, endChain_cache _ _ _⟩
  · intro id op r s hreq hready htag
    refine ⟨fun m hok => ⟨congrArg Host.Outcome.next (fxKeyInstall_ok hreq htag hready hok), ?_⟩,
      fun f hfail => ⟨_, congrArg Host.Outcome.next (fxKeyInstall_fails hreq htag hready hfail), endChain_ends _ hreq⟩⟩
    obtain ⟨r', hr', hten, hentry, hph, hdone, -⟩ := finishOp_runs { made := m } hreq (loadReady_lt hready)
    exact ⟨r', hr', hten, hentry, hph, hdone⟩
  · intro x m s
    let fills (v : Slot) : Slot := v.setIdle { material := m, attr := v.act.attr, soft := v.act.soft }
    have hslot : (writeTarget x m s).slot x = fills (s.slot x) := modSlot_slot_same x fills s
    exact ⟨otherSlots_modSlot x fills s, (congrArg (fun v : Slot => v.idle.material) hslot).trans (congrArg Bank.material (Slot.setIdle_idle _ _)),
      (congrArg Slot.act hslot).trans (Slot.setIdle_act _ _)⟩
  · intro id op r s hreq hstart hopc hopt hfree
    obtain ⟨hreqs, hnone, hothers⟩ := clearMarked_facts (fwHandle (r.par op.val)) s
    have hexec : fxKeyCacheUnload id op s = finishOp id op.val {}
        (if ((s.cacheEnt (fwHandle (r.par op.val))).map CacheEnt.unload).getD false = true then setCacheEnt (fwHandle (r.par op.val)) none s else s) := by
      rw [fxKeyCacheUnload, withReq_some hreq]
      exact whenS_true (by rw [hstart, decide_eq_true hopc, decide_eq_true hopt, hfree]; rfl)
    obtain ⟨r', hr', hten, hentry, hph, hdone, -⟩ := finishOp_runs {} ((req_of_reqs hreqs id).trans hreq) (canStart_lt hstart)
    exact ⟨_, congrArg Host.Outcome.next hexec, ⟨r', hr', hten, hentry, hph, hdone⟩,
      fun c hc hun => (finishOp_cache _ _ _ _ _).trans (hnone c hc hun), fun g hg => (finishOp_cache _ _ _ _ _).trans (hothers g hg)⟩

end Sys2Proof.KeyCache
end

section
/-!
Completion records (R115, R120, R122, R128, R461, R477): what a record in its ring, in the rescue area, in the reservoir, of the boot ring and of
the course leaves, with the statement O36.
-/

namespace Sys2Proof.Machine

/-! ### What is emitted -/

theorem emitWr_out_congr (a : Nat) (d : Bytes) {x y : State} (h : x.out = y.out) : (emitWr a d x).out = (emitWr a d y).out := by
  unfold emitWr
  generalize pieces a d.length = ps
  induction ps generalizing x y with
  | nil => exact h
  | cons p ps ih => exact ih (congrArg (· ++ [Out.wr (portOf p.1) p.1 (slice d (p.1 - a) p.2)]) h)

theorem emitRecord_out_congr (a : Nat) (b : Bytes) {x y : State} (h : x.out = y.out) : (emitRecord a b x).out = (emitRecord a b y).out :=
  emitWr_out_congr _ _ (emitWr_out_congr _ _ h)

/-! ### Rescue (R122, R123) -/

/-- A record kept outside its ring, in a phase of its request. -/
def rescuedAs (r : Req) (b : Bytes) (ph : ReqPhase) (place : Nat) (s : State) : State :=
  unstall r.tenant.val (modCq r.tenant.val r.cq.val (fun c => { c with rescued := c.rescued ++ [(r.id, place)] })
    (modReq r.id (fun r => { r with phase := ph, record := b, place := .cq }) s))

/-- A record that its ring refuses is kept in its context, or in the rescue area. -/
theorem rescue_cases (r : Req) (b : Bytes) (s : State) :
    ∃ (ph : ReqPhase) (place : Nat) (y : State), (ph = .held ∨ ∃ p, ph = .rescued p) ∧ Only recordParts s y ∧
      Only recordParts (rescuedAs r b ph place y) (rescue r b s) := by
  have hfault (copy : Bool) (a : Nat) (x : State) : Only recordParts x (rescueFaultRecord r.tenant.val r.cq.val copy a x) :=
    Only.rescueFaultRecord _ _ _ _ _ (List.Subset.refl _) (Only.refl _ _)
  unfold rescue
  dsimp only
  split
  · exact ⟨.held, _, s, Or.inl rfl, Only.refl _ _, hfault _ _ _⟩
  · split
    · exact ⟨.rescued _, _, _, Or.inr ⟨_, rfl⟩, Only.emitRecord _ _ _ (by decide) (Only.refl _ _), Only.refl _ _⟩
    · exact ⟨.held, _, _, Or.inl rfl, Only.violP _ _ _ _ _ _ _ _ (by decide) (Only.refl _ _), hfault _ _ _⟩

/-- The requests whose record of a ring is kept outside it. -/
def KeptOutside (t : State) (id : Nat) (b : Bytes) : Prop :=
  ∃ r', t.req id = some r' ∧ r'.record = b ∧ (r'.phase = .held ∨ ∃ p, r'.phase = .rescued p)

/-- What a rescued record leaves: of each ring all but its stall and its list of rescued records, of its request the record and its place. -/
theorem rescue_facts (r : Req) (b : Bytes) (s : State) :
    let t := rescue r b s
    t.tens = s.tens ∧ (∀ n m, ∃ st l, t.cq n m = { s.cq n m with stall := st, rescued := l }) ∧
      (∀ q, s.req r.id = some q → KeptOutside t r.id b) ∧ ∀ j, j ≠ r.id → t.req j = s.req j := by
  intro t
  obtain ⟨ph, place, y, hph, hbefore, hafter⟩ := rescue_cases r b s
  let note (c : Cq) : Cq := { c with rescued := c.rescued ++ [(r.id, place)] }
  let keep (q : Req) : Req := { q with phase := ph, record := b, place := .cq }
  let z := modCq r.tenant.val r.cq.val note (modReq r.id keep y)
  obtain ⟨hstall, honly⟩ := unstall_facts r.tenant.val z
  have hreqs : t.reqs = (modReq r.id keep y).reqs := (hafter.2 .reqs (by decide)).trans (honly.2 .reqs (by decide))
  refine ⟨(Only.rescue r b s (List.Subset.refl _) (Only.refl _ _)).2 .tens (by decide), fun n m => ?_, fun q hq => ?_, fun j hj => ?_⟩
  · obtain ⟨st, hst⟩ := hstall n m
    have ht : t.cq n m = { z.cq n m with stall := st } := (cq_of_only hafter (by decide) n m).trans hst
    have hy : (modReq r.id keep y).cq n m = s.cq n m := cq_of_only hbefore (by decide) n m
    rw [ht]
    by_cases hix : rix n m = rix r.tenant.val r.cq.val
    · have hz : z.cq n m = note (s.cq n m) := by
        have hsame (x : State) : x.cq n m = x.cq r.tenant.val r.cq.val := by rw [State.cq, State.cq, hix]
        rw [hsame z, modCq_cq_same, ← hsame, hy]
      exact ⟨st, _, by rw [hz]⟩
    · exact ⟨st, (s.cq n m).rescued, by rw [show z.cq n m = s.cq n m from (modCq_cq_ne _ _ hix).trans hy]⟩
  · have hone : y.req r.id = some q := (req_of_reqs (hbefore.2 .reqs (by decide)) _).trans hq
    exact ⟨keep q, (req_of_reqs hreqs _).trans (modReq_req_same keep (fun _ => rfl) hone), rfl, hph⟩
  · exact (req_of_reqs hreqs j).trans ((modReq_req_ne keep (fun _ => rfl) hj).trans (req_of_reqs (hbefore.2 .reqs (by decide)) j))

/-! ### A record for its ring (R115, R120, R122) -/

section
variable {r : Req} {b : Bytes} {s : State}

theorem deliver_rescues (h : (s.cq r.tenant.val r.cq.val).fault = true ∨ (s.cq r.tenant.val r.cq.val).rescued ≠ []) :
    deliver r b s = rescue r b s :=
  if_pos (by simpa using h)

variable (hfault : (s.cq r.tenant.val r.cq.val).fault = false) (hnone : (s.cq r.tenant.val r.cq.val).rescued = [])
include hfault hnone

theorem deliver_puts (h : reqCheck s r .write ((s.cq r.tenant.val r.cq.val).slotAddr (s.cq r.tenant.val r.cq.val).tail) 32 = none) :
    deliver r b s = recordDone r ((s.cq r.tenant.val r.cq.val).slotAddr (s.cq r.tenant.val r.cq.val).tail)
      (stampRecord (nextLseq s r.tenant.val) (phaseAt (s.cq r.tenant.val r.cq.val).k (s.cq r.tenant.val r.cq.val).tail) false b) s := by
  unfold deliver putRecord
  simp only [h, hfault, hnone, ne_eq, not_true_eq_false, decide_false, Bool.or_self, Bool.false_eq_true, if_false]

theorem deliver_faults {fa cause : Nat}
    (h : reqCheck s r .write ((s.cq r.tenant.val r.cq.val).slotAddr (s.cq r.tenant.val r.cq.val).tail) 32 = some (fa, cause)) :
    deliver r b s = rescue r b (cqFault r.tenant.val r.cq.val fa 1 cause (recViol r fa cause s)) := by
  unfold deliver putRecord
  simp only [h, hfault, hnone, ne_eq, not_true_eq_false, decide_false, Bool.or_self, Bool.false_eq_true, if_false]

end

theorem toLE_length (n v : Nat) : (toLE n v).length = n := by
  induction n generalizing v with
  | zero => rfl
  | succ n ih => exact congrArg (· + 1) (ih _)

/-- LSEQ, PHASE and RESCUED leave the status of a record (R111, R114). -/
theorem stampRecord_status (lseq : Nat) (phase rescued : Bool) {b : Bytes} (h : 5 ≤ b.length) : byteAt (stampRecord lseq phase rescued b) 4 = byteAt b 4 := by
  have htake : (b.take 2).length = 2 := by rw [List.length_take]; omega
  have hslice : (slice b 3 3).length ≥ 2 := by rw [slice, List.length_take, List.length_drop]; omega
  have hget : (stampRecord lseq phase rescued b)[4]? = (slice b 3 3)[1]? := by
    unfold stampRecord
    simp only [List.append_assoc]
    rw [List.getElem?_append_right (by omega), List.getElem?_append_right (by rw [htake, toLE_length]; omega), List.getElem?_append_left (by rw [htake, toLE_length]; omega),
      htake, toLE_length]
  rw [byteAt, byteAt, hget, slice, List.getElem?_take_of_lt (by omega), List.getElem?_drop]

/-- A record has its status within its first bytes. -/
theorem assemble_length (s : State) (r : Req) : 5 ≤ (assemble s r).length := by
  rw [assemble, recordOf]
  simp only [List.length_append, toLE_length]
  omega

/-- A record write that fails sets FAULT of its ring, with its capture and its event, and leaves the rest of the ring and every ledger (R122). -/
theorem cqFault_facts (n m fa kind cause : Nat) (s : State) :
    let t := cqFault n m fa kind cause s
    t.cq n m = { s.cq n m with fault := true, fcap := ⟨BitVec.ofNat 48 fa, BitVec.ofNat 2 kind, BitVec.ofNat 4 cause, false⟩ } ∧
      OtherCqs n m s t ∧ TenEvent t n evCqFault ∧ (∀ k, (t.ten k).led = (s.ten k).led) ∧ t.reqs = s.reqs := by
  intro t
  refine ⟨?_, fun _ _ h => ?_, raiseT_event _ _ _ (by decide), fun k => Led.cqFault _ _ _ _ _ _ rfl, rfl⟩
  · exact (raiseT_cq _ _ _ _ _).trans (modCq_cq_same _ _ _ _)
  · exact (raiseT_cq _ _ _ _ _).trans (modCq_cq_ne _ _ h)

/-- A record that the check of its write stops: its ring faults, and it is kept outside (R122). -/
theorem stopped_facts {r q : Req} {b : Bytes} {s : State} (fa cause : Nat) (hreq : s.req r.id = some q) :
    let n := r.tenant.val
    let m := r.cq.val
    let t := rescue r b (cqFault n m fa 1 cause (recViol r fa cause s))
    (t.cq n m).fault = true ∧ (t.cq n m).fcap = ⟨BitVec.ofNat 48 fa, 1, BitVec.ofNat 4 cause, false⟩ ∧ (t.cq n m).tail = (s.cq n m).tail ∧
      TenEvent t n evCqFault ∧ (∀ k, (t.ten k).led = (s.ten k).led) ∧ KeptOutside t r.id b := by
  intro n m t
  have hviol : Only [.tens, .evPend, .pviol, .pvcnt] s (recViol r fa cause s) := Only.recViol _ _ _ _ (List.Subset.refl _) (Only.refl _ _)
  have hled (k : Nat) : ((recViol r fa cause s).ten k).led = (s.ten k).led := Led.recViol _ _ _ _ rfl
  obtain ⟨hcq, -, hevent, hledger, hreqs⟩ := cqFault_facts n m fa 1 cause (recViol r fa cause s)
  rw [cq_of_only hviol (by decide)] at hcq
  obtain ⟨htens, hcqs, hkept, -⟩ := rescue_facts r b (cqFault n m fa 1 cause (recViol r fa cause s))
  obtain ⟨st, l, hring⟩ := hcqs n m
  have hone : (cqFault n m fa 1 cause (recViol r fa cause s)).req r.id = some q :=
    (req_of_reqs (hreqs.trans (hviol.2 .reqs (by decide))) _).trans hreq
  rw [hcq] at hring
  refine ⟨congrArg Cq.fault hring, (congrArg Cq.fcap hring).trans rfl, (congrArg Cq.tail hring).trans rfl, ?_, fun k => ?_, hkept q hone⟩
  · rw [TenEvent, ten_of_tens htens]
    exact hevent
  · rw [ten_of_tens htens]
    exact (hledger k).trans (hled k)

/-- A record that its ring takes: the tail, the ledger and the requests in flight move with it (R115, R128). -/
theorem deliver_written {r : Req} {b : Bytes} {s : State} (hfault : (s.cq r.tenant.val r.cq.val).fault = false)
    (hnone : (s.cq r.tenant.val r.cq.val).rescued = []) (hlen : 5 ≤ b.length)
    (h : reqCheck s r .write ((s.cq r.tenant.val r.cq.val).slotAddr (s.cq r.tenant.val r.cq.val).tail) 32 = none) :
    let n := r.tenant.val
    let m := r.cq.val
    let c := s.cq n m
    let fl := decide (byteAt b 4 = stFlushed)
    let t := deliver r b s
    t.req r.id = none ∧ (t.cq n m).tail = (c.tail + 1) % 2 ^ (c.k + 1) ∧ (t.cq n m).head = c.head ∧
      (t.ten n).led.posted = (s.ten n).led.posted ∧ (t.ten n).led.clamped = (s.ten n).led.clamped ∧ (t.ten n).led.admitted = (s.ten n).led.admitted ∧
      (t.ten n).led.completed = (if fl then (s.ten n).led.completed else (s.ten n).led.completed + 1) ∧
      (t.ten n).led.flushed = (if fl then (s.ten n).led.flushed + 1 else (s.ten n).led.flushed) ∧
      (t.ten n).led.inflight = (s.ten n).led.inflight - 1 ∧
      OtherTens n s t ∧ t.out = (emitRecord (c.slotAddr c.tail) (stampRecord (nextLseq s n) (phaseAt c.k c.tail) false b) s).out := by
  intro n m c fl t
  obtain ⟨hgone, htail, hhead, hledger, hothers, hsent⟩ :=
    recordDone_facts r (c.slotAddr c.tail) (stampRecord (nextLseq s n) (phaseAt c.k c.tail) false b) s
  rw [stampRecord_status _ _ _ hlen] at hledger
  rw [← deliver_puts (b := b) hfault hnone h] at hgone htail hhead hledger hothers hsent
  refine ⟨hgone, htail, hhead, ?_, ?_, ?_, ?_, ?_, ?_, hothers, hsent⟩ <;> rw [hledger]

/-- What of a request its record is delivered with (R102). -/
def Req.finished (r : Req) (o : Outcome) : Req := { r.scrubbedOf with outcome := some o }

@[simp] theorem Req.finished_id (r : Req) (o : Outcome) : (r.finished o).id = r.id := rfl
@[simp] theorem Req.finished_tenant (r : Req) (o : Outcome) : (r.finished o).tenant = r.tenant := rfl
@[simp] theorem Req.finished_cq (r : Req) (o : Outcome) : (r.finished o).cq = r.cq := rfl

/-- The state in which a record is assembled keeps the rings, the ledgers and what the record is judged and numbered by. -/
theorem recordCounts_facts {id : Nat} {r : Req} {s : State} (ecc : Ecc) (o : Outcome) (hreq : s.req id = some r) :
    let y := recordCounts id ecc r o s
    (∀ n m, y.cq n m = s.cq n m) ∧ (∀ k, (y.ten k).led = (s.ten k).led) ∧ OtherTens r.tenant.val s y ∧ (ecc = .clean → y.out = s.out) ∧
      y.req id = some r.scrubbedOf ∧ (∀ a l, reqCheck y (r.finished o) .write a l = reqCheck s r .write a l) ∧ ∀ n, nextLseq y n = nextLseq s n := by
  intro y
  obtain ⟨honly, hled, hothers, hout, hscrub⟩ := precomplete id ecc r o s
  refine ⟨fun n m => cq_of_only honly (by decide) n m, hled, hothers, hout, hscrub r hreq, fun a l => ?_, fun n => ?_⟩
  · exact reqCheck_congr (honly.2 .start (by decide)) (honly.gen_eq (by decide) (by decide)) rfl rfl rfl rfl _ _ _
  · rw [nextLseq, nextLseq, hled n]

/-! ### Records of the boot ring and of the course (R461, R477) -/

theorem bootRecord_facts (i : Nat) (b : Bytes) (s : State) :
    (bootRecord i b s).boot.completed = s.boot.completed + 1 ∧ (bootRecord i b s).boot.inflight = s.boot.inflight - 1 ∧
      Only (.boot :: recordParts) s (bootRecord i b s) := by
  let y := modBoot (fun q => { q with completed := q.completed + 1, inflight := q.inflight - 1 }) s
  have hboot : (bootRecord i b s).boot = y.boot := by
    unfold bootRecord
    dsimp only
    split
    · exact (Only.emitRecord _ _ y (List.Subset.refl _) (Only.refl _ _)).2 .boot (by decide)
    · exact (Only.violP _ _ _ _ _ _ _ y (List.Subset.refl _) (Only.refl _ _)).2 .boot (by decide)
  exact ⟨congrArg Boot.completed hboot, congrArg Boot.inflight hboot, Only.bootRecord _ _ _ (by decide) (Only.refl _ _)⟩

theorem noteLeft_boot (r : Req) (s : State) : ∃ l, (noteLeft r s).boot = { s.boot with left := l } := by
  unfold noteLeft
  split
  · exact ⟨_, rfl⟩
  · split
    · exact ⟨_, rfl⟩
    · exact ⟨_, rfl⟩

theorem bootSettle_counts (s : State) : (bootSettle s).boot.completed = s.boot.completed ∧ (bootSettle s).boot.inflight = s.boot.inflight := by
  unfold bootSettle
  split
  · exact ⟨rfl, rfl⟩
  · exact ⟨rfl, rfl⟩

theorem sendResult_counts (peer number : Nat) (r : Req) (o : Outcome) (s : State) :
    (sendResult peer number r o s).crs.cnt = { s.crs.cnt with fwdRet := s.crs.cnt.fwdRet + 1, fwdRun := s.crs.cnt.fwdRun - 1 } := by
  unfold sendResult
  dsimp only
  generalize toLE 4 number ++ _ ++ _ ++ _ ++ _ ++ _ ++ _ ++ _ ++ _ = body
  have hsent : Prs _ (giveCredit peer number (sendLong ftFwdResult peer body s) |> fun _ => sendFrame ftCredit peer (toLE 4 number) (sendLong ftFwdResult peer body s)) :=
    Prs.sendFrame _ _ _ _ (Prs.sendLong _ _ _ s rfl)
  have hcnt : (sendFrame ftCredit peer (toLE 4 number) (sendLong ftFwdResult peer body s)).crs.cnt = s.crs.cnt := (Prod.mk.inj (Prod.mk.inj (Prod.mk.inj (Prod.mk.inj (Prod.mk.inj hsent).2).2).2).2).1
  exact congrArg (fun c : CrsCnt => { c with fwdRet := c.fwdRet + 1, fwdRun := c.fwdRun - 1 }) hcnt

end Sys2Proof.Machine

namespace Sys2Proof.Records
open Sys2Proof.Machine

/-- Settles O36, by where the record goes: into its ring, outside it, into the reservoir, or to the boot ring or the course. -/
theorem recordsWritten : Obligations.RecordsWritten := by
  unfold Obligations.RecordsWritten
  intro id ecc r s hreq hready n m c o b a fl
  obtain rfl : r.id = id := req_id hreq
  obtain ⟨hcqs, hled, hothers, hout, hone, hcheck, hlseq⟩ := recordCounts_facts ecc o hreq
  have hexec (k : RingIx) (hring : r.origin = .ring k) (hplace : r.place = .cq) :
      fxCompletionRecordWrite r.id ecc s = deliver (r.finished o) b (recordCounts r.id ecc r o s) := by
    rw [fxCompletionRecordWrite, withReq_some hreq, whenS_true hready, hring]
    exact if_neg (by rw [hplace]; decide)
  refine ⟨fun k hring hplace hfault hrescued => ⟨fun hok => ?_, fun fa cause hstop => ?_⟩, fun k hring hplace hfull => ?_, fun k hring hplace => ?_,
    fun i hboot => ?_, fun p number ring hcourse => ?_⟩
  · obtain ⟨hgone, htail, hhead, hposted, hclamped, hadmitted, hcompleted, hflushed, hinflight, hotherTens, hsent⟩ := deliver_written (r := r.finished o) (b := b) (s := recordCounts r.id ecc r o s)
      ((congrArg Cq.fault (hcqs n m)).trans hfault) ((congrArg Cq.rescued (hcqs n m)).trans hrescued) (assemble_length s r)
      ((hcheck _ _).trans (by rw [hcqs]; exact hok))
    have hdone := hexec k hring hplace
    generalize deliver (r.finished o) b (recordCounts r.id ecc r o s) = t at hgone htail hhead hposted hclamped hadmitted hcompleted hflushed hinflight hotherTens hsent hdone
    simp only [Req.finished_id, Req.finished_tenant, Req.finished_cq] at hgone htail hhead hposted hclamped hadmitted hcompleted hflushed hinflight hotherTens hsent
    rw [hcqs] at htail hhead hsent
    rw [hled] at hposted hclamped hadmitted hcompleted hflushed hinflight
    rw [hlseq] at hsent
    exact ⟨t, congrArg Host.Outcome.next hdone, hgone, fun k hk => (hotherTens k hk).trans (hothers k hk), hhead, htail, hposted, hclamped, hadmitted,
      hcompleted, hflushed, hinflight, fun hclean => hsent.trans (emitRecord_out_congr _ _ (hout hclean))⟩
  · have hfaults := (hexec k hring hplace).trans (deliver_faults (r := r.finished o) ((congrArg Cq.fault (hcqs n m)).trans hfault)
      ((congrArg Cq.rescued (hcqs n m)).trans hrescued) ((hcheck _ _).trans (by rw [hcqs]; exact hstop)))
    obtain ⟨hf, hcap, htail, hevent, hledger, hkept⟩ :=
      stopped_facts (r := r.finished o) (b := b) fa cause hone
    generalize rescue (r.finished o) b _ = t at hfaults hf hcap htail hevent hledger hkept
    simp only [Req.finished_id, Req.finished_tenant, Req.finished_cq] at hf hcap htail hevent hledger hkept
    exact ⟨t, congrArg Host.Outcome.next hfaults, hf, hcap, htail.trans (congrArg Cq.tail (hcqs n m)), hevent, (hledger n).trans (hled n), hkept⟩
  · have hrescues := (hexec k hring hplace).trans (deliver_rescues (r := r.finished o) (by rw [hcqs]; exact hfull))
    obtain ⟨htens, hrings, hkept, -⟩ := rescue_facts (r.finished o) b (recordCounts r.id ecc r o s)
    obtain ⟨st, l, hring'⟩ := hrings n m
    obtain ⟨r', hr', hrec, hph⟩ := hkept _ hone
    rw [hcqs] at hring'
    exact ⟨_, r', congrArg Host.Outcome.next hrescues, (congrArg Cq.tail hring').trans rfl,
      (congrArg Tenant.led (ten_of_tens htens n)).trans (hled n), hr', hrec, hph⟩
  · let waits (q : Req) : Req := { q with phase := .waiting, record := b, finishNo := s.sch.nextId }
    have hwaits : fxCompletionRecordWrite r.id ecc s =
        modReq r.id waits (modSch (fun c => { c with nextId := c.nextId + 1 }) (recordCounts r.id ecc r o s)) := by
      rw [fxCompletionRecordWrite, withReq_some hreq, whenS_true hready, hring]
      exact if_pos hplace
    generalize recordCounts r.id ecc r o s = y at hwaits hled hone
    have hreq' := modReq_req_same (s := modSch (fun c => { c with nextId := c.nextId + 1 }) y) waits (fun _ => rfl) hone
    have hled' : ((modReq r.id waits (modSch (fun c => { c with nextId := c.nextId + 1 }) y)).ten n).led = (s.ten n).led := hled n
    exact ⟨_, congrArg Host.Outcome.next hwaits, hled', waits r.scrubbedOf, hreq', rfl, rfl, rfl⟩
  · have hexecBoot : fxCompletionRecordWrite r.id ecc s = bootSettle (retireReq r.id (noteLeft r (bootRecord i b (recordCounts r.id ecc r o s)))) := by
      rw [fxCompletionRecordWrite, withReq_some hreq, whenS_true hready, hboot]
    have hbootKept : (recordCounts r.id ecc r o s).boot = s.boot := (precomplete r.id ecc r o s).1.2 .boot (by decide)
    obtain ⟨hcompleted, hinflight, -⟩ := bootRecord_facts i b (recordCounts r.id ecc r o s)
    rw [hbootKept] at hcompleted hinflight
    obtain ⟨l, hleft⟩ := noteLeft_boot r (bootRecord i b (recordCounts r.id ecc r o s))
    have hretired (y : State) : (retireReq r.id y).boot = y.boot := (Only.retireReq r.id y (List.Subset.refl _) (Only.refl _ _)).2 .boot (by decide)
    have hsettled (y : State) : (bootSettle y).reqs = y.reqs := (Only.bootSettle y (List.Subset.refl _) (Only.refl _ _)).2 .reqs (by decide)
    obtain ⟨hc, hi⟩ := bootSettle_counts (retireReq r.id (noteLeft r (bootRecord i b (recordCounts r.id ecc r o s))))
    refine ⟨_, congrArg Host.Outcome.next hexecBoot, (req_of_reqs (hsettled _) _).trans (retireReq_req _ _), hc.trans ?_, hi.trans ?_⟩
    · rw [hretired, hleft]
      exact hcompleted
    · rw [hretired, hleft]
      exact hinflight
  · have hexecCourse : fxCompletionRecordWrite r.id ecc s = retireReq r.id (sendResult p.val number r o (recordCounts r.id ecc r o s)) := by
      rw [fxCompletionRecordWrite, withReq_some hreq, whenS_true hready, hcourse]
    have hcrs : (recordCounts r.id ecc r o s).crs = s.crs := (precomplete r.id ecc r o s).1.2 .crs (by decide)
    have hcnt : (retireReq r.id (sendResult p.val number r o (recordCounts r.id ecc r o s))).crs.cnt = _ :=
      (congrArg Course.cnt ((Only.retireReq r.id _ (List.Subset.refl _) (Only.refl _ _)).2 .crs (by decide))).trans (sendResult_counts p.val number r o _)
    rw [hcrs] at hcnt
    exact ⟨_, congrArg Host.Outcome.next hexecCourse, retireReq_req _ _, (congrArg CrsCnt.fwdRet hcnt).trans rfl, (congrArg CrsCnt.fwdRun hcnt).trans rfl⟩

end Sys2Proof.Records
end

section
/-!
What a chain that moves on keeps besides: a buffer that has stopped stays so, and nothing is recorded where no dispute waits for want of tiles.
-/

namespace Sys2Proof.Machine

/-- A buffer of request id, whose reads have begun, has stopped. -/
def Stops (id b : Nat) (f : Fail) (s : State) : Prop := ∃ r, s.req id = some r ∧ (r.buf b).started = true ∧ (r.buf b).stop = some f

section
variable {id b : Nat} {f : Fail} {s : State}

theorem Stops.reqs {t : State} (h : Stops id b f s) (hreqs : t.reqs = s.reqs) : Stops id b f t := by
  obtain ⟨r, hreq, hstop⟩ := h
  exact ⟨r, (req_of_reqs hreqs id).trans hreq, hstop⟩

theorem Stops.only {A : List Part} {t : State} (h : Stops id b f s) (honly : Only A s t) (hA : Part.reqs ∉ A) : Stops id b f t :=
  h.reqs (honly.2 .reqs hA)

theorem Stops.modReq {g : Req → Req} (h : Stops id b f s) (hid : ∀ r, (g r).id = r.id) (hbufs : ∀ r, (g r).bufs = r.bufs) :
    Stops id b f (Machine.modReq id g s) := by
  obtain ⟨r, hreq, hstart, hstop⟩ := h
  have hbuf : (g r).buf b = r.buf b := by rw [Req.buf, Req.buf, hbufs]
  exact ⟨g r, modReq_req_same g hid hreq, by rw [hbuf]; exact hstart, by rw [hbuf]; exact hstop⟩

theorem Stops.modOp (i : Nat) (g : OpSt → OpSt) (h : Stops id b f s) : Stops id b f (Machine.modOp id i g s) :=
  Stops.modReq h (fun _ => rfl) fun _ => rfl

theorem Stops.modBuf_ne {c : Nat} (g : BufSt → BufSt) (hc : b ≠ c) (h : Stops id b f s) : Stops id b f (Machine.modBuf id c g s) := by
  obtain ⟨r, hreq, hstop⟩ := h
  refine ⟨_, modBuf_req_same c g hreq, ?_⟩
  rw [buf_put, if_neg hc]
  exact hstop

theorem Stops.modBuf (c : Nat) (g : BufSt → BufSt) (h : Stops id b f s) (hstart : ∀ q, (g q).started = q.started := by intro q; rfl)
    (hstop : ∀ q, (g q).stop = q.stop := by intro q; rfl) : Stops id b f (Machine.modBuf id c g s) := by
  by_cases hc : b = c
  · subst hc
    obtain ⟨r, hreq, hst, hsp⟩ := h
    refine ⟨_, modBuf_req_same b g hreq, ?_⟩
    rw [buf_put, if_pos rfl]
    exact ⟨(hstart _).trans hst, (hstop _).trans hsp⟩
  · exact Stops.modBuf_ne g hc h

theorem Stops.ite {c : Prop} [Decidable c] {x y : State} (hx : Stops id b f x) (hy : Stops id b f y) : Stops id b f (if c then x else y) := by
  split
  · exact hx
  · exact hy

theorem Stops.emitRd (a l : Nat) (h : Stops id b f s) : Stops id b f (Machine.emitRd a l s) :=
  h.only (Only.emitRd a l s (List.Subset.refl _) (Only.refl _ _)) (by decide)
theorem Stops.emitWr (a : Nat) (d : Bytes) (h : Stops id b f s) : Stops id b f (Machine.emitWr a d s) :=
  h.only (Only.emitWr a d s (List.Subset.refl _) (Only.refl _ _)) (by decide)
theorem Stops.reqViol (r : Req) (a : Nat) (d : Dir) (c : Nat) (h : Stops id b f s) : Stops id b f (Machine.reqViol r a d c s) :=
  h.only (Only.reqViol r a d c s (List.Subset.refl _) (Only.refl _ _)) (by decide)

theorem Stops.writeSegs (c : Nat) (data : Bytes) (l : List (Nat × Nat × Nat)) (h : Stops id b f s) : Stops id b f (Machine.writeSegs id c data l s).1 := by
  have hput (a off n : Nat) (x : State) (hx : Stops id b f x) : Stops id b f (if n = 0 then x else
      Machine.modBuf id c (fun q => { q with written := off + n }) (Machine.reqWrote id c a off n (Machine.emitWr a (slice data off n) x))) :=
    .ite hx (.modBuf c _ (Stops.modReq (.emitWr _ _ hx) (fun _ => rfl) fun _ => rfl))
  induction l generalizing s with
  | nil => exact h
  | cons g l ih =>
    obtain ⟨a, off, len⟩ := g
    unfold Machine.writeSegs
    split
    · exact h
    · dsimp only
      split
      · exact ih (hput _ _ _ _ h)
      · exact .reqViol _ _ _ _ (hput _ _ _ _ h)

theorem Stops.writeOut {r : Req} (i n : Nat) (hid : r.id = id) (h : Stops id b f s) : Stops id b f (Machine.writeOut r i n s).1 := by
  subst hid
  unfold Machine.writeOut
  dsimp only
  split
  · split
    · exact .reqViol _ _ _ _ h
    · exact h
  · exact .writeSegs _ _ _ h

/-- A scatter list that has stopped is not asked for more. -/
theorem Stops.askElem (c : Nat) (short : Fail) (h : Stops id b f s) : Stops id b f (Machine.askElem id c short s) := by
  have hstops := h
  obtain ⟨r, hreq, hstart, hstop⟩ := hstops
  unfold Machine.askElem
  rw [hreq]
  dsimp only
  split
  · exact h
  next hmore =>
    have hc : b ≠ c := by
      rintro rfl
      exact hmore (Or.inr (Or.inl (by rw [hstop]; rfl)))
    split
    · exact .modBuf_ne _ hc h
    · split
      · exact .emitRd _ _ (.modBuf_ne _ hc h)
      · exact .reqViol _ _ _ _ (.modBuf_ne _ hc h)

theorem Stops.issueRange {c : Nat} (a l : Nat) (hc : b ≠ c) (h : Stops id b f s) : Stops id b f (Machine.issueRange id c a l s) := by
  unfold Machine.issueRange
  split
  · exact h
  · split
    · exact .emitRd _ _ (.modBuf_ne _ hc h)
    · exact .reqViol _ _ _ _ (.emitRd _ _ (.modBuf_ne _ hc h))

/-- A buffer whose reads have begun is not begun again. -/
theorem Stops.startBuf (c : Nat) (h : Stops id b f s) : Stops id b f (Machine.startBuf id c s) := by
  have hstops := h
  obtain ⟨r, hreq, hstart, hstop⟩ := hstops
  have hops (x : State) (hx : Stops id b f x) :
      Stops id b f (Machine.modReq id (fun r => { r with ops := r.ops.map (fun o => if o.w.src = c + 8 then { o with trunc := true } else o) }) x) :=
    Stops.modReq hx (fun _ => rfl) fun _ => rfl
  unfold Machine.startBuf
  rw [hreq]
  dsimp only
  split
  · exact h
  next hnot =>
    have hc : b ≠ c := by
      rintro rfl
      exact hnot hstart
    have hbegun : Stops id b f (Machine.modBuf id c (fun q => { q with started := true }) s) := .modBuf_ne _ hc h
    exact .ite hbegun (.ite (.issueRange _ _ hc hbegun) (.ite (.askElem _ _ hbegun) (.ite (.modBuf_ne _ hc hbegun)
      (.ite (.ite (hops _ (.modBuf_ne _ hc hbegun)) (.modBuf_ne _ hc hbegun)) (.ite (hops _ (.modBuf_ne _ hc hbegun)) (.modBuf_ne _ hc hbegun))))))

theorem Stops.startBufs (h : Stops id b f s) : Stops id b f (Machine.startBufs id s) := by
  unfold Machine.startBufs
  split
  · exact h
  · exact eachN_ind _ _ _ h fun _ _ hx => .startBuf _ hx

theorem Stops.receiveKey (i : Nat) (h : Stops id b f s) : Stops id b f (Machine.receiveKey id i s).1 := by
  unfold Machine.receiveKey
  split
  · exact h
  · dsimp only
    split
    · exact h
    · split
      · exact h
      · split
        · exact h
        · exact .modOp _ _ h

theorem Stops.flushOp (i : Nat) (h : Stops id b f s) : Stops id b f (Machine.flushOp id i s).1 := by
  unfold Machine.flushOp
  split
  · exact h
  next r hr =>
    have hout : Stops id b f (Machine.writeOut r i (r.mayWrite i) s).1 := .writeOut _ _ (req_id hr) h
    dsimp only
    split
    · exact h
    split
    · exact h
    split
    · exact .modBuf _ _ (Stops.modReq (s := Machine.emit _ s) h (fun _ => rfl) fun _ => rfl)
    split
    next s1 off hw =>
      rw [hw] at hout
      exact .modOp _ _ hout
    next s1 hw =>
      rw [hw] at hout
      have hask : Stops id b f (Machine.askElem id ((r.op i).w.dst - 8) (stBadInput, 2) s1) := .askElem _ _ hout
      split
      · split
        · exact hask
        · split
          · exact .modOp _ _ hask
          · exact hask
      · exact hout

theorem Stops.settleOp (i : Nat) (h : Stops id b f s) : Stops id b f (Machine.settleOp id i s).1 := by
  have hkey : Stops id b f (Machine.receiveKey id i s).1 := .receiveKey _ h
  unfold Machine.settleOp
  split
  next e => rw [e] at hkey; exact hkey
  next s1 e =>
    rw [e] at hkey
    split
    · exact hkey
    next r hr =>
      split
      · dsimp only
        split
        · exact Stops.only (.modOp _ _ hkey) (Only.pairRecord _ _ _ _ _ (List.Subset.refl _) (Only.refl _ _)) (by decide)
        · exact .modOp _ _ hkey
      · dsimp only
        have htakes : Stops id b f (if (r.op i).takes = true then
            Machine.modOp id i (fun o => { o with consumed := (r.src i).length, output := soFar r i (r.src i) }) s1 else s1) := .ite (.modOp _ _ hkey) hkey
        generalize (if (r.op i).takes = true then Machine.modOp id i _ s1 else s1) = s2 at htakes ⊢
        have hdone : Stops id b f (if ((r.op i).takes && decide ((r.op i).w.opc = 0x01) && decide ((r.src i).length = r.srcLen i)) = true then
            Machine.modOp id i (fun o => { o with phase := .done }) s2 else s2) := .ite (.modOp _ _ htakes) htakes
        generalize (if ((r.op i).takes && decide ((r.op i).w.opc = 0x01) && decide ((r.src i).length = r.srcLen i)) = true then _ else s2) = s3 at hdone ⊢
        have hflush : Stops id b f (Machine.flushOp id i s3).1 := .flushOp _ hdone
        split
        next e4 => rw [e4] at hflush; exact hflush
        next e4 => rw [e4] at hflush; exact hflush

theorem Stops.settleOps (l : List Nat) (h : Stops id b f s) : Stops id b f (Machine.settleOps id l s).1 := by
  induction l generalizing s with
  | nil => exact h
  | cons i l ih =>
    have hop : Stops id b f (Machine.settleOp id i s).1 := .settleOp i h
    unfold Machine.settleOps
    split
    next e => rw [e] at hop; exact hop
    next e => rw [e] at hop; exact ih hop

theorem Stops.fencePort (p : Bool) (h : Stops id b f s) : Stops id b f (Machine.fencePort id p s) := by
  unfold Machine.fencePort
  split
  · exact h
  · split
    · exact h
    · split
      · exact .emitRd _ _ h
      · exact .reqViol _ _ _ _ (Stops.modReq h (fun _ => rfl) fun _ => rfl)

theorem Stops.fenceFrame {r : Req} (hid : r.id = id) (h : Stops id b f s) : Stops id b f (Machine.fenceFrame r s) := by
  subst hid
  exact eachN_ind _ _ _ h fun c x hx => .ite (Stops.only (.modBuf c (fun q => { q with fence := true }) hx) (Only.emit (A := [.out]) _ (by decide) (Only.refl _ _)) (by decide)) hx

theorem Stops.scrubAll {r : Req} (hid : r.id = id) (h : Stops id b f s) : Stops id b f (Machine.scrubAll r s) := by
  subst hid
  have hput (a n : Nat) (x : State) (hx : Stops r.id b f x) :
      Stops r.id b f (if n = 0 then x else Machine.modReq r.id (fun r => r.sentOn a n) (Machine.emitWr a (zeros n) x)) :=
    .ite hx (Stops.modReq (.emitWr _ _ hx) (fun _ => rfl) fun _ => rfl)
  have hseg (a len : Nat) (x : State) (hx : Stops r.id b f x) : Stops r.id b f (scrubSeg r a len x) := by
    unfold scrubSeg
    dsimp only
    split
    · exact hput _ _ _ hx
    · exact .reqViol _ _ _ _ (hput _ _ _ hx)
  have hsegs (l : List (Nat × Nat × Nat)) (x : State) (hx : Stops r.id b f x) : Stops r.id b f (l.foldl (fun s g => scrubSeg r g.1 g.2.2 s) x) := by
    induction l generalizing x with
    | nil => exact hx
    | cons g l ih => exact ih _ (hseg _ _ _ hx)
  exact eachN_ind _ _ _ h fun _ _ hx => .ite (.ite hx hx) (hsegs _ _ hx)

theorem Stops.endChain (o : Outcome) (h : Stops id b f s) : Stops id b f (Machine.endChain id o s) := by
  unfold Machine.endChain
  split
  · exact h
  next r hr =>
    dsimp only
    have hstreams : Stops id b f (dropStreams r o (endStreams r o (freeTiles id s))) :=
      h.only (Only.dropStreams _ _ _ (A := [.tiles, .streams]) (by decide) (Only.endStreams _ _ _ (by decide) (Only.freeTiles _ _ (by decide) (Only.refl _ s)))) (by decide)
    generalize dropStreams r o (endStreams r o (freeTiles id s)) = s1 at hstreams ⊢
    have hclaims : Stops id b f (eachN r.claims (fun x s => if o.status = 0 then beginVerify x s else unclaim x s) s1) :=
      eachN_ind _ _ _ hstreams fun x y hy => .ite (hy.only (Only.beginVerify x y (List.Subset.refl _) (Only.refl _ _)) (by decide))
        (hy.only (Only.unclaim x y (List.Subset.refl _) (Only.refl _ _)) (by decide))
    generalize eachN r.claims _ s1 = s2 at hclaims ⊢
    have hscrub : Stops id b f (if mustScrub r o = true then Machine.scrubAll r s2 else s2) := .ite (.scrubAll (req_id hr) hclaims) hclaims
    generalize (if mustScrub r o = true then Machine.scrubAll r s2 else s2) = s3 at hscrub ⊢
    generalize hs4 : Machine.modReq id _ s3 = s4
    have hend : Stops id b f s4 := by
      rw [← hs4]
      exact Stops.modReq hscrub (fun _ => rfl) fun _ => rfl
    exact .ite (.fenceFrame (req_id hr) (.fencePort _ (.fencePort _ hend))) hend

theorem Stops.endDone (h : Stops id b f s) : Stops id b f (Machine.endDone id s) := by
  unfold Machine.endDone
  split
  · exact h
  · split
    · exact .endChain _ h
    · split
      · exact .endChain _ h
      · exact .endChain _ h

/-- A buffer that has stopped stays so as the chain moves on. -/
theorem Stops.settle (h : Stops id b f s) : Stops id b f (Machine.settle id s) := by
  unfold Machine.settle
  split
  · exact h
  next r hr =>
    dsimp only
    split
    · exact h
    have hops1 : Stops id b f (Machine.settleOps id (List.range r.ops.length) (Machine.startBufs id s)).1 := .settleOps _ (.startBufs h)
    split
    next s1 o e => rw [e] at hops1; exact .endChain _ hops1
    next s1 e =>
      rw [e] at hops1
      have hops2 : Stops id b f (Machine.settleOps id (List.range r.ops.length) (Machine.startBufs id s1)).1 := .settleOps _ (.startBufs hops1)
      split
      next s2 o e2 => rw [e2] at hops2; exact .endChain _ hops2
      next s2 e2 =>
        rw [e2] at hops2
        split
        · exact hops2
        · exact .ite (.endDone hops2) hops2

end

/-! ### Nothing is recorded where no dispute waits for want of tiles (R421) -/

/-- No dispute of a request waits for want of tiles. -/
def Quiet (id : Nat) (s : State) : Prop := ∀ r, s.req id = some r → ∀ i, noVoter s (r.op i) = false

/-- Whether a dispute waits for want of tiles is no progress of a chain. -/
theorem noVoter_core {s t : State} {o q : OpSt} (hcore : q.core = o.core) (hhealthy : ∀ k, healthyOf t k = healthyOf s k) : noVoter t q = noVoter s o := by
  have hdisputed : q.disputed = o.disputed := (congrArg OpSt.disputed hcore).trans rfl
  have hvoter : q.voter = o.voter := (congrArg OpSt.voter hcore).trans rfl
  have hw : q.w = o.w := (congrArg OpSt.w hcore).trans rfl
  rw [noVoter, noVoter, hdisputed, hvoter, hw, hhealthy]

theorem healthyOf_of_only {A : List Part} {s t : State} (h : Only A s t) (htiles : Part.tiles ∉ A) (hclk : Part.clk ∉ A) (k : Nat) :
    healthyOf t k = healthyOf s k := by
  have hgate : t.clk = s.clk := h.2 .clk hclk
  have hone (i : Nat) : tileHealthy t i = tileHealthy s i := by
    rw [tileHealthy, tileHealthy, gateAsked, gateAsked, hgate, tile_of_tiles (h.2 .tiles htiles)]
  rw [healthyOf, healthyOf, funext hone]

section
variable {id : Nat} {s : State}

theorem Quiet.of_cores {A : List Part} {t : State} (h : Quiet id s) (hcores : Cores (s.reqs.map Req.core) t) (honly : Only A s t)
    (htiles : Part.tiles ∉ A) (hclk : Part.clk ∉ A) : Quiet id t := by
  intro r' hr' i
  obtain ⟨r, hr, hcore⟩ := Cores.req (s := t) (t := s) (show Cores (t.reqs.map Req.core) s from hcores.symm) hr'
  exact (noVoter_core (core_op hcore.symm i) (healthyOf_of_only honly htiles hclk)).trans (h r hr i)

theorem settleOp_jrn (i : Nat) (h : Quiet id s) : (settleOp id i s).1.jrn = s.jrn := by
  have hkey : Only [.reqs] s (receiveKey id i s).1 := Only.receiveKey _ _ _ (List.Subset.refl _) (Only.refl _ _)
  have hquiet : Quiet id (receiveKey id i s).1 := h.of_cores (.receiveKey id i rfl) hkey (by decide) (by decide)
  have hflush (x : State) : (flushOp id i x).1.jrn = x.jrn := (Only.flushOp id i x (List.Subset.refl _) (Only.refl _ _)).jrn (by decide)
  unfold settleOp
  split
  next e => rw [e] at hkey; exact hkey.jrn (by decide)
  next s1 e =>
    rw [e] at hkey hquiet
    have hjrn : s1.jrn = s.jrn := hkey.jrn (by decide)
    split
    · exact hjrn
    next r hr =>
      split
      · dsimp only
        rw [if_neg (by rw [hquiet r hr i]; decide)]
        exact hjrn
      · dsimp only
        have htakes : (if (r.op i).takes = true then
            modOp id i (fun o => { o with consumed := (r.src i).length, output := soFar r i (r.src i) }) s1 else s1).jrn = s.jrn := by
          split <;> exact hjrn
        generalize (if (r.op i).takes = true then modOp id i _ s1 else s1) = s2 at htakes ⊢
        have hdone : (if ((r.op i).takes && decide ((r.op i).w.opc = 0x01) && decide ((r.src i).length = r.srcLen i)) = true then
            modOp id i (fun o => { o with phase := .done }) s2 else s2).jrn = s.jrn := by
          split <;> exact htakes
        generalize (if ((r.op i).takes && decide ((r.op i).w.opc = 0x01) && decide ((r.src i).length = r.srcLen i)) = true then _ else s2) = s3 at hdone ⊢
        split
        next e4 => rw [← hdone, ← hflush s3, e4]
        next e4 => rw [← hdone, ← hflush s3, e4]

theorem settleOps_jrn (l : List Nat) (h : Quiet id s) : (settleOps id l s).1.jrn = s.jrn := by
  induction l generalizing s with
  | nil => rfl
  | cons i l ih =>
    have hjrn := settleOp_jrn i h
    have hquiet : Quiet id (settleOp id i s).1 :=
      h.of_cores (.settleOp id i rfl) (Only.settleOp id i s (List.Subset.refl _) (Only.refl _ _)) (by decide) (by decide)
    unfold settleOps
    split
    next e => rw [e] at hjrn; exact hjrn
    next e => rw [e] at hjrn hquiet; exact (ih hquiet).trans hjrn

theorem endChain_jrn (o : Outcome) (s : State) : (endChain id o s).jrn = s.jrn :=
  (Only.endChain id o s (List.Subset.refl _) (Only.refl _ _)).jrn (by decide)

theorem endDone_jrn (s : State) : (endDone id s).jrn = s.jrn := by
  unfold endDone
  split
  · rfl
  · split
    · exact endChain_jrn _ _
    · split
      · exact endChain_jrn _ _
      · exact endChain_jrn _ _

/-- A chain that moves on records nothing where no dispute waits for want of tiles. -/
theorem settle_jrn (h : Quiet id s) : (settle id s).jrn = s.jrn := by
  have hpass (l : List Nat) {x : State} (hx : Quiet id x) : (settleOps id l (startBufs id x)).1.jrn = x.jrn ∧ Quiet id (settleOps id l (startBufs id x)).1 := by
    have hstart : Only [.tens, .reqs, .evPend, .pviol, .pvcnt, .out] x (startBufs id x) := Only.startBufs id x (List.Subset.refl _) (Only.refl _ _)
    have hquiet : Quiet id (startBufs id x) := hx.of_cores (.startBufs id rfl) hstart (by decide) (by decide)
    exact ⟨(settleOps_jrn l hquiet).trans (hstart.jrn (by decide)),
      hquiet.of_cores (.settleOps id l rfl) (runs_settleOps _ _ _) (by decide) (by decide)⟩
  unfold settle
  split
  · rfl
  next r hr =>
    dsimp only
    split
    · rfl
    obtain ⟨hjrn1, hquiet1⟩ := hpass (List.range r.ops.length) h
    split
    next s1 o e => rw [e] at hjrn1; exact (endChain_jrn o s1).trans hjrn1
    next s1 e =>
      rw [e] at hjrn1 hquiet1
      obtain ⟨hjrn2, -⟩ := hpass (List.range r.ops.length) hquiet1
      split
      next s2 o e2 => rw [e2] at hjrn2; exact (endChain_jrn o s2).trans (hjrn2.trans hjrn1)
      next s2 e2 =>
        rw [e2] at hjrn2
        split
        · exact hjrn2.trans hjrn1
        · split
          · exact (endDone_jrn s2).trans (hjrn2.trans hjrn1)
          · exact hjrn2.trans hjrn1

end

end Sys2Proof.Machine
end

section
/-!
Records outside their rings, FENCE read-backs and bus errors (R97, R120, R122, R124, R130, R432), with the statement O37.
-/

namespace Sys2Proof.Machine

/-! ### A record for its ring, whatever it holds -/

theorem recordDone_reqs (r : Req) (a : Nat) (b : Bytes) (s : State) : (recordDone r a b s).reqs = s.reqs.filter (fun q => q.id != r.id) := by
  have hnote (x : State) : (noteLeft r x).reqs = x.reqs := (Only.noteLeft r x (List.Subset.refl _) (Only.refl _ _)).2 .reqs (by decide)
  have hcoal (n m : Nat) (x : State) : (coalesce n m x).reqs = x.reqs := (Only.coalesce n m x (List.Subset.refl _) (Only.refl _ _)).2 .reqs (by decide)
  have hemit (x : State) : (emitRecord a b x).reqs = x.reqs := (Only.emitRecord a b x (List.Subset.refl _) (Only.refl _ _)).2 .reqs (by decide)
  have hstall (n : Nat) (x : State) : (unstall n x).reqs = x.reqs := (Only.unstall n x (List.Subset.refl _) (Only.refl _ _)).2 .reqs (by decide)
  have htrim (n m : Nat) (x : State) : (trimSent n m x).reqs = x.reqs := rfl
  have hsweep (x : State) : (sweepCache x).reqs = x.reqs := (Only.sweepCache x (List.Subset.refl _) (Only.refl _ _)).2 .reqs (by decide)
  have hdrop (x : State) : (dropReq r.id x).reqs = x.reqs.filter (fun q => q.id != r.id) := rfl
  unfold recordDone ledgerRecord
  dsimp only
  rw [htrim, modSent_reqs, hstall, retireReq, hsweep, hdrop, hnote, hcoal, modTen_reqs, modCq_reqs, hemit]

theorem recordDone_req_ne (r : Req) (a : Nat) (b : Bytes) (s : State) {j : Nat} (h : j ≠ r.id) : (recordDone r a b s).req j = s.req j := by
  rw [State.req, recordDone_reqs, List.find?_filter, State.req]
  refine congrArg (fun p => List.find? p s.reqs) (funext fun q => ?_)
  by_cases hq : q.id = j
  · simp [hq, h]
  · simp [hq]

/-- A record that its ring takes: the tail and the requests in flight move with it (R115, R128). -/
theorem deliver_moves {r : Req} {b : Bytes} {s : State} (hfault : (s.cq r.tenant.val r.cq.val).fault = false)
    (hnone : (s.cq r.tenant.val r.cq.val).rescued = [])
    (h : reqCheck s r .write ((s.cq r.tenant.val r.cq.val).slotAddr (s.cq r.tenant.val r.cq.val).tail) 32 = none) :
    let n := r.tenant.val
    let m := r.cq.val
    let c := s.cq n m
    let t := deliver r b s
    t.req r.id = none ∧ (t.cq n m).tail = (c.tail + 1) % 2 ^ (c.k + 1) ∧ (t.ten n).led.inflight = (s.ten n).led.inflight - 1 ∧
      t.out = (emitRecord (c.slotAddr c.tail) (stampRecord (nextLseq s n) (phaseAt c.k c.tail) false b) s).out := by
  intro n m c t
  obtain ⟨hgone, htail, -, hledger, -, hsent⟩ :=
    recordDone_facts r (c.slotAddr c.tail) (stampRecord (nextLseq s n) (phaseAt c.k c.tail) false b) s
  rw [← deliver_puts (b := b) hfault hnone h] at hgone htail hledger hsent
  exact ⟨hgone, htail, congrArg Ledger.inflight hledger, hsent⟩

/-- A record that its ring refuses: the tail and the ledger stay, and it is kept outside (R122). -/
theorem deliver_refused {r q : Req} {b : Bytes} {s : State} (hreq : s.req r.id = some q)
    (h : (s.cq r.tenant.val r.cq.val).fault = true ∨ (s.cq r.tenant.val r.cq.val).rescued ≠ [] ∨
      (reqCheck s r .write ((s.cq r.tenant.val r.cq.val).slotAddr (s.cq r.tenant.val r.cq.val).tail) 32).isSome = true) :
    let n := r.tenant.val
    let m := r.cq.val
    let t := deliver r b s
    (t.cq n m).tail = (s.cq n m).tail ∧ (∀ k, (t.ten k).led = (s.ten k).led) ∧ KeptOutside t r.id b := by
  intro n m t
  by_cases hfull : (s.cq n m).fault = true ∨ (s.cq n m).rescued ≠ []
  · obtain ⟨htens, hrings, hkept, -⟩ := rescue_facts r b s
    obtain ⟨st, l, hring⟩ := hrings n m
    rw [← deliver_rescues (b := b) hfull] at htens hring hkept
    exact ⟨(congrArg Cq.tail hring).trans rfl, fun k => congrArg Tenant.led (ten_of_tens htens k), hkept q hreq⟩
  · obtain ⟨hfault, hnone⟩ := not_or.mp hfull
    have hfault' : (s.cq n m).fault = false := by simpa using hfault
    have hnone' : (s.cq n m).rescued = [] := by simpa using hnone
    obtain ⟨⟨fa, cause⟩, hstop⟩ := Option.isSome_iff_exists.mp ((h.resolve_left hfault).resolve_left hnone)
    obtain ⟨-, -, htail, -, hledger, hkept⟩ := stopped_facts (b := b) fa cause hreq
    rw [← deliver_faults (b := b) hfault' hnone' hstop] at htail hledger hkept
    exact ⟨htail, hledger, hkept⟩

/-! ### The reservoir (R120) -/

theorem oldestReservoir_mem {s : State} {n m : Nat} {r : Req} (h : oldestReservoir s n m = some r) : r ∈ s.reqs ∧ r.tenant.val = n ∧ r.cq.val = m := by
  have hmem := List.mem_of_find?_eq_some h
  simp only [List.mem_filter, Bool.and_eq_true, decide_eq_true_eq] at hmem
  obtain ⟨hin, ⟨hten, hcq⟩, -⟩ := hmem
  exact ⟨hin, hten, hcq⟩

theorem req_of_mem {s : State} {r : Req} (h : r ∈ s.reqs) : ∃ q, s.req r.id = some q := by
  refine Option.isSome_iff_exists.mp (List.find?_isSome.mpr ⟨r, h, ?_⟩)
  simp

/-- The check of a memory that is read leaves the rings, the ledgers and what the record is judged and numbered by. -/
theorem memCheck_keeps (k : Option Nat) (ecc : Ecc) (s : State) :
    let y := memCheck 0 k ecc s
    (∀ n m, y.cq n m = s.cq n m) ∧ (∀ n, (y.ten n).led = (s.ten n).led) ∧ (ecc = .clean → y = s) ∧ y.reqs = s.reqs ∧
      (∀ r d a l, reqCheck y r d a l = reqCheck s r d a l) ∧ ∀ n, nextLseq y n = nextLseq s n := by
  intro y
  have honly : Only (.tens :: .ces :: recordParts) s y := Only.memCheck _ _ _ _ (by decide) (Only.refl _ _)
  have hled (n : Nat) : (y.ten n).led = (s.ten n).led := Led.memCheck _ _ _ _ rfl
  refine ⟨fun n m => cq_of_only honly (by decide) n m, hled, fun h => by subst h; rfl, honly.2 .reqs (by decide), fun r d a l => ?_, fun n => ?_⟩
  · exact reqCheck_congr (honly.2 .start (by decide)) (honly.gen_eq (by decide) (by decide)) rfl rfl rfl rfl _ _ _
  · rw [nextLseq, nextLseq, hled n]

/-! ### Rescued records read back (R122) -/

/-- The first of the records that are left is not one that a context holds. -/
def ReadsNext (l : List (Nat × Nat)) (s : State) : Prop := ∀ x, l.head? = some x → ∃ r, s.req x.1 = some r ∧ r.phase ≠ .held

/-- The read of the first record that is left moves nothing. -/
theorem startCopies_facts {n m : Nat} {s : State} (h : ReadsNext (s.cq n m).rescued s) :
    let t := startCopies n m s
    t.reqs = s.reqs ∧ (t.cq n m).rescued = (s.cq n m).rescued ∧ (t.cq n m).tail = (s.cq n m).tail ∧ (∀ k, (t.ten k).led = (s.ten k).led) ∧
      ((s.cq n m).rescued = [] → t = s) := by
  intro t
  cases hl : (s.cq n m).rescued with
  | nil =>
    have ht : t = s := by
      show startCopy n m (s.cq n m).rescued.length s = s
      rw [hl]
      rfl
    rw [ht]
    exact ⟨rfl, hl, rfl, fun _ => rfl, fun _ => rfl⟩
  | cons x l =>
    obtain ⟨id, place⟩ := x
    obtain ⟨r, hreq, hph⟩ := h (id, place) (by rw [hl]; rfl)
    have ht : t = startCopy n m (l.length + 1) s := by
      show startCopy n m (s.cq n m).rescued.length s = _
      rw [hl]
      rfl
    rw [ht, startCopy]
    dsimp only
    rw [hl]
    dsimp only
    split
    · exact ⟨rfl, hl, rfl, fun _ => rfl, nofun⟩
    · rw [hreq]
      dsimp only
      rw [if_neg hph]
      split
      · have hread (a : Nat) : Only [.out] s (emitRd a 32 s) := Only.emitRd _ _ _ (List.Subset.refl _) (Only.refl _ _)
        exact ⟨(hread _).2 .reqs (by decide), by rw [cq_of_only (hread _) (by decide), hl], by rw [cq_of_only (hread _) (by decide)],
          fun k => congrArg Tenant.led (ten_of_tens ((hread _).2 .tens (by decide)) k), nofun⟩
      next fa cause _ =>
        generalize hy : violP fa .read cause kindRescue n (eTag r.entry) (s.gen.active.toNat % 65536) s = y
        have hviol : Only [.evPend, .pviol, .pvcnt] s y := hy ▸ Only.violP _ _ _ _ _ _ _ _ (List.Subset.refl _) (Only.refl _ _)
        obtain ⟨hcq, -, -, hledger, hreqs⟩ := cqFault_facts n m fa 1 cause y
        rw [cq_of_only hviol (by decide)] at hcq
        generalize cqFault n m fa 1 cause y = z at hcq hledger hreqs ⊢
        have hrec : Only recordParts z (rescueFaultRecord n m true fa z) := Only.rescueFaultRecord _ _ _ _ _ (List.Subset.refl _) (Only.refl _ _)
        refine ⟨(hrec.2 .reqs (by decide)).trans (hreqs.trans (hviol.2 .reqs (by decide))), ?_, ?_, fun k => ?_, nofun⟩
        · rw [cq_of_only hrec (by decide), hcq, ← hl]
        · rw [cq_of_only hrec (by decide), hcq]
        · rw [ten_of_tens (hrec.2 .tens (by decide)), hledger, ten_of_tens (hviol.2 .tens (by decide))]

section
variable {n : TenantIx} {m : RingIx} {id place : Nat} {rest : List (Nat × Nat)} {r : Req} {s : State} (hheld : s.held = false)
  (hrescued : (s.cq n m).rescued = (id, place) :: rest) (hfault : (s.cq n m).fault = false) (hreq : s.req id = some r) (hphase : r.phase = .rescued place)
include hheld hrescued hfault hreq hphase

theorem fxRescueCopy_err : fxRescueCopy n m .err s = rescueFaultRecord n m true (rescueAddr s n place) (cqFault n m (rescueAddr s n place) 2 0
    (busErrorOf none (rescueAddr s n place) .read (b2n (portOf (rescueAddr s n place))) kindRescue n (eTag r.entry) (s.gen.active.toNat % 65536) s)) := by
  unfold fxRescueCopy
  simp only [hrescued]
  rw [withReq_some hreq, whenS_true (by rw [hheld, hfault, decide_eq_true hphase]; rfl)]

theorem fxRescueCopy_ok (hten : r.tenant = n) (hcq : r.cq = m) (data : Bytes)
    (h : reqCheck s r .write ((s.cq n m).slotAddr (s.cq n m).tail) 32 = none) :
    fxRescueCopy n m (.ok data) s = startCopies n m (modCq n m (fun c => { c with rescued := rest })
      (recordDone r ((s.cq n m).slotAddr (s.cq n m).tail)
        (stampRecord (nextLseq s n) (phaseAt (s.cq n m).k (s.cq n m).tail) true (fit 32 data)) s)) := by
  subst hten hcq
  unfold fxRescueCopy
  simp only [hrescued]
  rw [withReq_some hreq, whenS_true (by rw [hheld, hfault, decide_eq_true hphase]; rfl), putRecord]
  simp only [h]

end

/-! ### FENCE read-backs (R97, R341, R432) -/

theorem becnt_modTen (n : Nat) (f : Tenant → Tenant) (s : State) (hf : ∀ t, (f t).becnt = t.becnt := by intro t; rfl) (k : Nat) :
    ((modTen n f s).ten k).becnt = (s.ten k).becnt := by
  by_cases h : k = n
  · subst h
    rw [modTen_ten_same, hf]
  · rw [modTen_ten_ne _ _ h]

/-- A bus error is counted once for whom the access was made (R432). -/
theorem busErrorOf_counts (t : Option TenantIx) (addr : Nat) (d : Dir) (port kind number tag gen : Nat) (s : State) :
    let x := busErrorOf t addr d port kind number tag gen s
    (∀ n : TenantIx, t = some n → (x.ten n).becnt = (s.ten n).becnt.bump ∧ OtherTens n s x ∧ Only (.tens :: recordParts) s x) ∧
      (t = none → x.becnt = s.becnt.bump ∧ bitOf x.evPend gBuserrPriv = true ∧ Only ([.becnt, .buserr] ++ recordParts) s x) := by
  intro x
  refine ⟨fun n hn => ?_, fun hn => ?_⟩ <;> subst hn <;> dsimp only [x] <;> unfold busErrorOf <;> dsimp only
  · generalize hy : journal 0x36 n.val _ s = y
    have hrec : Only recordParts s y := hy ▸ Only.journal _ _ _ _ (List.Subset.refl _) (Only.refl _ _)
    have hten (k : Nat) : y.ten k = s.ten k := ten_of_tens (hrec.2 .tens (by decide)) k
    let z := modTen n.val (fun q => { q with becnt := q.becnt.bump }) y
    have hz : (z.ten n).becnt = (s.ten n).becnt.bump := by rw [modTen_ten_same, hten]
    have hzother : OtherTens n s z := fun k hk => (modTen_ten_ne _ _ hk).trans (hten k)
    have hzonly : Only (.tens :: recordParts) s z := Only.modTen _ _ (by decide) (hrec.mono (by decide))
    have hcap (u : State) (f : Tenant → Tenant) (hf : ∀ t, (f t).becnt = t.becnt) (hu : (u.ten n).becnt = (s.ten n).becnt.bump ∧ OtherTens n s u ∧ Only (.tens :: recordParts) s u) :
        ((modTen n.val f u).ten n).becnt = (s.ten n).becnt.bump ∧ OtherTens n s (modTen n.val f u) ∧ Only (.tens :: recordParts) s (modTen n.val f u) :=
      ⟨(becnt_modTen _ _ _ hf _).trans hu.1, hu.2.1.modTen _, Only.modTen _ _ (by decide) hu.2.2⟩
    have hfirst (c : Prop) [Decidable c] (f : Tenant → Tenant) (hf : ∀ t, (f t).becnt = t.becnt) :
        ((if c then modTen n.val f z else z).ten n).becnt = (s.ten n).becnt.bump ∧ OtherTens n s (if c then modTen n.val f z else z) ∧
          Only (.tens :: recordParts) s (if c then modTen n.val f z else z) := by
      split
      · exact hcap z f hf ⟨hz, hzother, hzonly⟩
      · exact ⟨hz, hzother, hzonly⟩
    split
    · exact hcap _ _ (fun _ => rfl) (hfirst _ _ fun _ => rfl)
    · exact hfirst _ _ fun _ => rfl
  · generalize hy : journal 0x36 0x10 _ s = y
    have hrec : Only recordParts s y := hy ▸ Only.journal _ _ _ _ (List.Subset.refl _) (Only.refl _ _)
    have hcount : y.becnt = s.becnt := hrec.2 .becnt (by decide)
    have hbump : Only ([.becnt, .buserr] ++ recordParts) s (modBecnt Cnt32.bump y) := Only.modBecnt _ (by decide) (hrec.mono (by decide))
    split
    · exact ⟨congrArg Cnt32.bump hcount, raiseG_bit _ _ (by decide), Only.raiseG _ _ (by decide) hbump⟩
    · exact ⟨congrArg Cnt32.bump hcount, raiseG_bit _ _ (by decide), Only.raiseG _ _ (by decide) (Only.modBuserr _ (by decide) hbump)⟩

theorem busErrorOf_reqs (t : Option TenantIx) (addr : Nat) (d : Dir) (port kind number tag gen : Nat) (s : State) :
    (busErrorOf t addr d port kind number tag gen s).reqs = s.reqs :=
  (Only.busErrorOf t addr d port kind number tag gen s (List.Subset.refl _) (Only.refl _ _)).2 .reqs (by decide)

/-- A FENCE read-back that fails is noted with its request, recorded and counted (R97, R432). -/
theorem fenceError_facts {r q : Req} (addr port : Nat) {s : State} (hreq : s.req r.id = some q) :
    let t := fenceError r addr port s
    t.jrn.seq = s.jrn.seq + 1 ∧ (∀ n : TenantIx, r.priv = some n → (t.ten n).becnt = (s.ten n).becnt.bump) ∧
      (r.priv = none → t.becnt = s.becnt.bump) ∧ t.req r.id = some { q with fenceFail := q.fenceFail.or (some ⟨0x31, 3, 0⟩) } := by
  intro t
  let fails (r : Req) : Req := { r with fenceFail := r.fenceFail.or (some ⟨0x31, 3, 0⟩) }
  obtain ⟨hten, hpriv⟩ := busErrorOf_counts r.priv addr .read port r.srcNumber.1 r.srcNumber.2 (eTag r.entry) (r.gen.toNat % 65536) (modReq r.id fails s)
  exact ⟨busErrorOf_seq _ _ _ _ _ _ _ _ _, fun n hn => (hten n hn).1, fun hn => (hpriv hn).1,
    (req_of_reqs (busErrorOf_reqs _ _ _ _ _ _ _ _ _) _).trans (modReq_req_same fails (fun _ => rfl) hreq)⟩

/-- The read-back of a port has returned: it waits for it no more, and a failed one is noted, recorded and counted (R97, R432). -/
theorem portReadback_facts {r : Req} {port : Bool} {s : State} (hreq : s.req r.id = some r) (h : (if port then r.port1 else r.port0).isSome = true) :
    (∀ d, Only [.reqs] s (portReadback r port (.ok d) s) ∧ ∃ r', (portReadback r port (.ok d) s).req r.id = some r' ∧ r'.fenceFail = r.fenceFail ∧
      (if port then r'.port1 else r'.port0) = none) ∧
    ((portReadback r port .err s).jrn.seq = s.jrn.seq + 1 ∧
      (∀ n : TenantIx, r.priv = some n → ((portReadback r port .err s).ten n).becnt = (s.ten n).becnt.bump) ∧
      (r.priv = none → (portReadback r port .err s).becnt = s.becnt.bump) ∧
      ∃ r', (portReadback r port .err s).req r.id = some r' ∧ r'.fenceFail = r.fenceFail.or (some ⟨0x31, 3, 0⟩) ∧
        (if port then r'.port1 else r'.port0) = none) := by
  obtain ⟨a, ha⟩ := Option.isSome_iff_exists.mp h
  let back (q : Req) : Req := { q with port0 := if port then q.port0 else none, port1 := if port then none else q.port1 }
  have hback : (modReq r.id back s).req r.id = some (back r) := modReq_req_same back (fun _ => rfl) hreq
  have hnone (q : Req) : (if port then (back q).port1 else (back q).port0) = none := by cases port <;> rfl
  unfold portReadback
  rw [ha]
  refine ⟨fun d => ⟨Only.modReq _ _ (by decide) (Only.refl _ _), back r, hback, rfl, hnone r⟩, ?_⟩
  obtain ⟨hseq, hten, hpriv, hafter⟩ := fenceError_facts a (b2n port) hback
  exact ⟨hseq, hten, hpriv, _, hafter, rfl, hnone { r with fenceFail := r.fenceFail.or (some ⟨0x31, 3, 0⟩) }⟩

/-- The read-back of a frame has returned (R341, R432). -/
theorem frameReadback_facts {r : Req} {b : Nat} {s : State} (hreq : s.req r.id = some r) (h : (r.buf b).fence = true) :
    (∀ d, Only [.reqs] s (frameReadback r b (.ok d) s) ∧ ∃ r', (frameReadback r b (.ok d) s).req r.id = some r' ∧ r'.fenceFail = r.fenceFail ∧
      (r'.buf b).fence = false) ∧
    ((frameReadback r b .err s).jrn.seq = s.jrn.seq + 1 ∧
      (∀ n : TenantIx, r.priv = some n → ((frameReadback r b .err s).ten n).becnt = (s.ten n).becnt.bump) ∧
      (r.priv = none → (frameReadback r b .err s).becnt = s.becnt.bump) ∧
      ∃ r', (frameReadback r b .err s).req r.id = some r' ∧ r'.fenceFail = r.fenceFail.or (some ⟨0x31, 3, 0⟩) ∧ (r'.buf b).fence = false) := by
  have hback := modBuf_req_same b (fun q => { q with fence := false }) hreq
  have hfence (q : Req) (hq : q.bufs = r.bufs.put {} b { r.buf b with fence := false }) : (q.buf b).fence = false := by
    rw [Req.buf, hq, look_put_same]
  have hok (d : Bytes) : frameReadback r b (.ok d) s = modBuf r.id b (fun q => { q with fence := false }) s := by rw [frameReadback, whenS_true h]
  have herr : frameReadback r b .err s =
      fenceError r ((r.ref b).fstart + (r.buf b).written - 1) 2 (modBuf r.id b (fun q => { q with fence := false }) s) := by
    rw [frameReadback, whenS_true h]
  refine ⟨fun d => ?_, ?_⟩
  · rw [hok]
    exact ⟨Only.modBuf _ _ _ _ (by decide) (Only.refl _ _), _, hback, rfl, hfence _ rfl⟩
  · rw [herr]
    obtain ⟨hseq, hten, hpriv, hafter⟩ := fenceError_facts ((r.ref b).fstart + (r.buf b).written - 1) 2 hback
    exact ⟨hseq, hten, hpriv, _, hafter, rfl, hfence _ rfl⟩

/-! ### A record write that ended in a bus error (R122) -/

/-- The records from the one whose write failed are taken back, the last one first. -/
def takenBack (n m : Nat) (late : List Req) (s : State) : State := late.foldr (fun q s => takeBack n m q s) s

/-- A ring whose last record is taken back. -/
def Cq.back (c : Cq) : Cq := { c with tail := (c.tail + 2 ^ (c.k + 1) - 1) % 2 ^ (c.k + 1) }

theorem takeBack_cq (n m : Nat) (r : Req) (s : State) : (takeBack n m r s).cq n m = (s.cq n m).back := by
  unfold takeBack
  dsimp only
  rw [modTen_cq, modCq_cq_same]
  rfl

theorem takeBack_inflight (n m : Nat) (r : Req) (s : State) : ((takeBack n m r s).ten n).led.inflight = (s.ten n).led.inflight + 1 := by
  unfold takeBack
  dsimp only
  rw [modTen_ten_same]
  rfl

theorem takenBack_cq (n m : Nat) (late : List Req) (s : State) :
    (takenBack n m late s).cq n m = { s.cq n m with
      tail := if late = [] then (s.cq n m).tail
        else ((s.cq n m).tail + late.length * (2 ^ ((s.cq n m).k + 1) - 1)) % 2 ^ ((s.cq n m).k + 1) } := by
  induction late with
  | nil => rfl
  | cons q late ih =>
    have hcq : (takenBack n m (q :: late) s).cq n m = ((takenBack n m late s).cq n m).back := takeBack_cq n m q _
    rw [hcq, ih, if_neg (List.cons_ne_nil _ _)]
    have hpos : 0 < 2 ^ ((s.cq n m).k + 1) := Nat.two_pow_pos _
    generalize hmd : 2 ^ ((s.cq n m).k + 1) = md at hpos ⊢
    have htail (a x : Nat) (ha : a % md = x % md) : (a + md - 1) % md = (x + (md - 1)) % md := by
      rw [Nat.add_sub_assoc hpos, Nat.add_mod, ha, ← Nat.add_mod]
    have hk (x : Nat) : ({ s.cq n m with tail := x } : Cq).k = (s.cq n m).k := rfl
    simp only [Cq.back, hk, hmd, List.length_cons]
    congr 1
    split
    next hnil =>
      subst hnil
      rw [htail _ _ rfl]
      simp
    next hne =>
      rw [htail _ ((s.cq n m).tail + late.length * (md - 1)) (Nat.mod_mod _ _), Nat.add_assoc, ← Nat.succ_mul]

theorem takenBack_inflight (n m : Nat) (late : List Req) (s : State) :
    ((takenBack n m late s).ten n).led.inflight = (s.ten n).led.inflight + BitVec.ofNat 64 late.length := by
  induction late with
  | nil => exact (BitVec.add_zero _).symm
  | cons q late ih =>
    have hten : ((takenBack n m (q :: late) s).ten n).led.inflight = ((takenBack n m late s).ten n).led.inflight + 1 := takeBack_inflight n m q _
    rw [hten, ih, BitVec.add_assoc, List.length_cons, BitVec.ofNat_add]
    rfl

theorem mem_insReq {r q : Req} {l : List Req} : q ∈ insReq r l ↔ q = r ∨ q ∈ l := by
  induction l with
  | nil => simp [insReq]
  | cons p l ih =>
    unfold insReq
    split
    · simp
    · simp only [List.mem_cons, ih]
      tauto

theorem takenBack_mem (n m : Nat) (late : List Req) (s : State) {q : Req} (h : q ∈ late) : ∃ r, (takenBack n m late s).req q.id = some r := by
  refine req_of_mem ?_
  induction late with
  | nil => exact absurd h List.not_mem_nil
  | cons p late ih =>
    have hreqs : (takenBack n m (p :: late) s).reqs = insReq p (takenBack n m late s).reqs := rfl
    rw [hreqs, mem_insReq]
    exact (List.mem_cons.mp h).imp_right ih

/-- A line of records that are kept outside their ring, in their order. -/
def rescueAll (l : List Req) (s : State) : State := l.foldl (fun s q => rescue q q.record s) s

theorem rescueAll_facts (n m : Nat) (l : List Req) (s : State) :
    (rescueAll l s).tens = s.tens ∧ (∃ st rs, (rescueAll l s).cq n m = { s.cq n m with stall := st, rescued := rs }) ∧
      (∀ j, j ∉ l.map Req.id → (rescueAll l s).req j = s.req j) ∧
      ((l.map Req.id).Nodup → (∀ q ∈ l, ∃ r, s.req q.id = some r) → ∀ q ∈ l, KeptOutside (rescueAll l s) q.id q.record) := by
  induction l generalizing s with
  | nil => exact ⟨rfl, ⟨_, _, rfl⟩, fun _ _ => rfl, fun _ _ _ h => absurd h List.not_mem_nil⟩
  | cons p l ih =>
    obtain ⟨htens, hrings, hkept, hothers⟩ := rescue_facts p p.record s
    have hcons : rescueAll (p :: l) s = rescueAll l (rescue p p.record s) := rfl
    rw [hcons]
    generalize rescue p p.record s = y at htens hrings hkept hothers ⊢
    obtain ⟨htens', ⟨st, rs, hring⟩, hothers', hkept'⟩ := ih y
    obtain ⟨st0, rs0, hring0⟩ := hrings n m
    refine ⟨htens'.trans htens, ⟨st, rs, by rw [hring, hring0]⟩, fun j hj => ?_, fun hnodup hall q hq => ?_⟩
    · rw [List.map_cons, List.mem_cons, not_or] at hj
      exact (hothers' j hj.2).trans (hothers j hj.1)
    · rw [List.map_cons, List.nodup_cons] at hnodup
      rcases List.mem_cons.mp hq with rfl | hmem
      · obtain ⟨r0, hr0⟩ := hall q List.mem_cons_self
        obtain ⟨r', hr', hrec⟩ := hkept r0 hr0
        exact ⟨r', (hothers' _ hnodup.1).trans hr', hrec⟩
      · refine hkept' hnodup.2 (fun z hz => ?_) q hmem
        have hne : z.id ≠ p.id := fun heq => hnodup.1 (heq ▸ List.mem_map_of_mem hz)
        obtain ⟨r0, hr0⟩ := hall z (List.mem_cons_of_mem _ hz)
        exact ⟨r0, (hothers _ hne).trans hr0⟩

/-- The records of a ring from the one whose write failed. -/
def lateRecords (s : State) (n m id : Nat) : List Req := (s.sent.filter (fun r => r.ofCq n m)).dropWhile (fun r => decide (r.id ≠ id))

theorem recordBusError_passed {n : TenantIx} {m : RingIx} {id addr : Nat} {s : State} (h : lateRecords s n m id = []) :
    recordBusError n m id addr s = cqFault n m addr 2 0
      (busErrorOf (some n) addr .write (b2n (portOf addr)) kindRecord m.val 0 (s.gen.active.toNat % 65536) s) := by
  unfold recordBusError
  dsimp only
  rw [show (s.sent.filter (fun r => r.ofCq n m)).dropWhile (fun r => decide (r.id ≠ id)) = [] from h]

theorem recordBusError_late {n : TenantIx} {m : RingIx} {id addr : Nat} {s : State} (h : lateRecords s n m id ≠ []) :
    ∃ t kind number tag gen, recordBusError n m id addr s = rescueAll (lateRecords s n m id) (cqFault n m addr 2 0
      (takenBack n m (lateRecords s n m id) (busErrorOf t addr .write (b2n (portOf addr)) kind number tag gen s))) := by
  obtain ⟨r, l, hl⟩ := List.exists_cons_of_ne_nil h
  refine ⟨r.priv, kindRecord, m.val, eTag r.entry, r.gen.toNat % 65536, ?_⟩
  unfold recordBusError
  dsimp only
  rw [show (s.sent.filter (fun r => r.ofCq n m)).dropWhile (fun r => decide (r.id ≠ id)) = r :: l from hl, hl]
  rfl

/-! ### Bus errors of a request (R124, R432) -/

section
variable {id b : Nat} {addr : BitVec 48} {dir : Dir} {frame : Option (Fin 8)} {r : Req} {s : State} (hreq : s.req id = some r)
include hreq

theorem fxBusErrorResponse_request (hb : r.errBuf addr.toNat dir frame = some b) :
    ∃ port, fxBusErrorResponse (.request id frame) addr dir s = bufBusError r b dir
      (busErrorOf r.priv addr.toNat dir port r.srcNumber.1 r.srcNumber.2 (eTag r.entry) (r.gen.toNat % 65536) s) := by
  refine ⟨if (r.ref b).kind = kFrame then 2 else b2n (portOf addr.toNat), ?_⟩
  show reqBusError id addr.toNat dir frame s = _
  rw [reqBusError, hreq]
  show flightBusError r addr.toNat dir frame s = _
  unfold flightBusError
  dsimp only
  rw [hb]

end

/-- A buffer whose read ended in a bus error: it stops where it stands (R124). -/
def BufSt.broken (q : BufSt) : BufSt := { q with issued := q.data.length, asking := false, stop := some (stBus, if q.asking then 4 else 1) }

theorem bufBusError_read {r : Req} {b : Nat} {s : State} (hfence : (r.buf b).fence = false) (hrun : r.phase = .running) :
    bufBusError r b .read s = settle r.id (modBuf r.id b BufSt.broken s) := by
  rw [bufBusError, if_neg (by rw [hfence]; decide)]
  exact whenS_true (decide_eq_true hrun)

/-- A bus error of a read stops the buffer, and records nothing more (R124). -/
theorem broken_settles {r : Req} {b : Nat} {s : State} (hreq : s.req r.id = some r) (hstart : (r.buf b).started = true)
    (hcalm : ∀ j, (r.op j).disputed = false) :
    let t := settle r.id (modBuf r.id b BufSt.broken s)
    t.jrn = s.jrn ∧ RunsOn t r.id r (fun r' => (r'.buf b).stop = some (stBus, if (r.buf b).asking then 4 else 1)) := by
  intro t
  let q : Req := { r with bufs := r.bufs.put {} b (r.buf b).broken }
  have hbuf : (modBuf r.id b BufSt.broken s).req r.id = some q := modBuf_req_same b BufSt.broken hreq
  have hput : q.buf b = (r.buf b).broken := (buf_put r b b _).trans (if_pos rfl)
  have hstops : Stops r.id b (stBus, if (r.buf b).asking then 4 else 1) (modBuf r.id b BufSt.broken s) :=
    ⟨q, hbuf, by rw [hput]; exact hstart, by rw [hput]; rfl⟩
  refine ⟨settle_jrn fun q' hq' i => ?_, ?_⟩
  · have hsame : q'.op i = r.op i := by
      rw [← Option.some.inj (hbuf.symm.trans hq')]
      rfl
    rw [noVoter, hsame, hcalm i]
    rfl
  · obtain ⟨q1, hq1, -, hstop⟩ := hstops.settle
    obtain ⟨q2, hq2, hten, hentry, hph, -⟩ := settle_runs (P := fun _ => True) hbuf fun _ _ => trivial
    obtain rfl : q2 = q1 := Option.some.inj (hq2.symm.trans hq1)
    exact ⟨q2, hq1, hten, hentry, hph, hstop⟩

theorem openTo_congr {s t : State} (h : t.fp = s.fp) (r : Req) : r.openTo t = r.openTo s := by
  have hgone : frameGone t r = frameGone s r := by rw [frameGone, frameGone, h]
  rw [Req.openTo, Req.openTo, hgone]

end Sys2Proof.Machine

namespace Sys2Proof.RecordMoves
open Sys2Proof.Machine

/-- Settles O37, by what the delivery of a record, its rescue and its way back, and the parts of a bus error leave. -/
theorem recordsMoved : Obligations.RecordsMoved := by
  unfold Obligations.RecordsMoved
  refine ⟨?_, ?_, ?_, ?_, ?_, ?_, ?_, ?_⟩
  · intro n m ecc s c
    refine ⟨fun r hold hen hroom => ?_, fun hnot => ?_⟩
    · obtain ⟨hmem, hten, hcq⟩ := oldestReservoir_mem hold
      obtain rfl : r.tenant = n := Fin.ext hten
      obtain rfl : r.cq = m := Fin.ext hcq
      obtain ⟨q, hq⟩ := req_of_mem hmem
      obtain ⟨hcqs, hled, hclean, hreqs, hcheck, hlseq⟩ := memCheck_keeps (some r.tenant.val) ecc s
      have hexec (hheld : s.held = false) : fxReservoirRecordWrite r.tenant r.cq ecc s = deliver r r.record (memCheck 0 (some r.tenant.val) ecc s) := by
        unfold fxReservoirRecordWrite
        simp only [hold]
        exact whenS_true (by rw [hheld, hen, decide_eq_true hroom]; rfl)
      refine ⟨fun hheld hfault hnone hok => ?_, fun hheld hfull => ?_⟩
      · have hdone := hexec hheld
        generalize memCheck 0 (some r.tenant.val) ecc s = y at hcqs hled hclean hcheck hlseq hdone
        obtain ⟨hgone, htail, hinflight, hsent⟩ := deliver_moves (b := r.record) ((congrArg Cq.fault (hcqs _ _)).trans hfault)
          ((congrArg Cq.rescued (hcqs _ _)).trans hnone) ((hcheck _ _ _ _).trans (by rw [hcqs]; exact hok))
        rw [hcqs] at htail hsent
        rw [hled] at hinflight
        rw [hlseq] at hsent
        exact ⟨_, congrArg Host.Outcome.next hdone, hgone, htail, hinflight,
          fun hc => hsent.trans (emitRecord_out_congr _ _ (congrArg State.out (hclean hc)))⟩
      · have hdone := hexec hheld
        generalize memCheck 0 (some r.tenant.val) ecc s = y at hcqs hled hreqs hcheck hdone
        obtain ⟨htail, hledger, r', hr', hrec, hph⟩ := deliver_refused (b := r.record) ((req_of_reqs hreqs _).trans hq)
          (by rw [hcqs, hcheck]; exact hfull)
        exact ⟨_, r', congrArg Host.Outcome.next hdone, htail.trans (congrArg Cq.tail (hcqs _ _)), (hledger _).trans (hled _), hr', hrec, hph⟩
    · refine congrArg Host.Outcome.next ?_
      unfold fxReservoirRecordWrite
      dsimp only
      split
      · rfl
      next r hold =>
        refine whenS_false ?_
        rw [Bool.and_eq_false_iff, Bool.and_eq_false_iff]
        rcases hnot with hheld | hnone | hen | hfull
        · exact Or.inl (Or.inl (by rw [hheld]; rfl))
        · rw [hold] at hnone
          cases hnone
        · exact Or.inl (Or.inr hen)
        · exact Or.inr (decide_eq_false (Nat.not_lt.mpr hfull))
  · intro n m id place rest r data s hheld hrescued hfault hreq hphase hten hcq
    refine ⟨fun hok hnext => ?_, ?_⟩
    · have hexec := fxRescueCopy_ok hheld hrescued hfault hreq hphase hten hcq data hok
      obtain rfl : r.id = id := req_id hreq
      subst hten hcq
      have hfacts := recordDone_facts r ((s.cq r.tenant r.cq).slotAddr (s.cq r.tenant r.cq).tail)
        (stampRecord (nextLseq s r.tenant) (phaseAt (s.cq r.tenant r.cq).k (s.cq r.tenant r.cq).tail) true (fit 32 data)) s
      have hstays (j : Nat) (hj : j ≠ r.id) := recordDone_req_ne r ((s.cq r.tenant r.cq).slotAddr (s.cq r.tenant r.cq).tail)
        (stampRecord (nextLseq s r.tenant) (phaseAt (s.cq r.tenant r.cq).k (s.cq r.tenant r.cq).tail) true (fit 32 data)) s hj
      obtain ⟨hgone, htail, -, hledger, -, hsent⟩ := hfacts
      generalize recordDone r ((s.cq r.tenant r.cq).slotAddr (s.cq r.tenant r.cq).tail) _ s = y at hexec hgone htail hledger hsent hstays
      let left (c : Cq) : Cq := { c with rescued := rest }
      have hz : (modCq r.tenant r.cq left y).cq r.tenant r.cq = left (y.cq r.tenant r.cq) := modCq_cq_same _ _ _ _
      have hreads : ReadsNext ((modCq r.tenant r.cq left y).cq r.tenant r.cq).rescued (modCq r.tenant r.cq left y) := by
        rw [hz]
        intro x hx
        obtain ⟨hne, r2, hr2, hph2⟩ := hnext x hx
        exact ⟨r2, (hstays x.1 hne).trans hr2, hph2⟩
      obtain ⟨hreqs, hrest, htail', hled', hlast⟩ := startCopies_facts hreads
      rw [hz] at hrest htail' hlast
      exact ⟨_, congrArg Host.Outcome.next hexec, (req_of_reqs hreqs _).trans hgone, hrest, htail'.trans htail,
        (congrArg Ledger.inflight (hled' _)).trans (congrArg Ledger.inflight hledger), fun hnil => (congrArg State.out (hlast hnil)).trans hsent⟩
    · have hexec := fxRescueCopy_err hheld hrescued hfault hreq hphase
      generalize rescueAddr s n place = a at hexec
      generalize hy : busErrorOf none a .read (b2n (portOf a)) kindRescue n (eTag r.entry) (s.gen.active.toNat % 65536) s = y at hexec
      have hbus : Only [.notice, .tens, .jrn, .evPend, .buserr, .becnt, .pviol, .pvcnt, .out] s y :=
        hy ▸ Only.busErrorOf _ _ _ _ _ _ _ _ _ (List.Subset.refl _) (Only.refl _ _)
      have hledBus : (y.ten n).led = (s.ten n).led := hy ▸ Led.busErrorOf _ _ _ _ _ _ _ _ _ rfl
      obtain ⟨hcq, -, hevent, hledger, -⟩ := cqFault_facts n m a 2 0 y
      rw [cq_of_only hbus (by decide)] at hcq
      generalize cqFault n m a 2 0 y = z at hexec hcq hevent hledger
      have hrec : Only recordParts z (rescueFaultRecord n m true a z) := Only.rescueFaultRecord _ _ _ _ _ (List.Subset.refl _) (Only.refl _ _)
      have hring : (rescueFaultRecord n m true a z).cq n m = z.cq n m := cq_of_only hrec (by decide) n m
      have htens : (rescueFaultRecord n m true a z).tens = z.tens := hrec.2 .tens (by decide)
      rw [hcq] at hring
      refine ⟨_, congrArg Host.Outcome.next hexec, congrArg Cq.fault hring, (congrArg Cq.tail hring).trans rfl,
        (congrArg Cq.rescued hring).trans hrescued, ?_, ?_⟩
      · rw [ten_of_tens htens, hledger, hledBus]
      · rw [TenEvent, ten_of_tens htens]
        exact hevent
  · intro id port r s hreq hended hwaits
    obtain rfl : r.id = id := req_id hreq
    have hexec (resp : Resp) : fxFenceReadbackReturn r.id port resp none s = portReadback r port resp s := by
      rw [fxFenceReadbackReturn, withReq_some hreq, whenS_true (decide_eq_true hended)]
    obtain ⟨hok, herr⟩ := portReadback_facts hreq hwaits
    exact ⟨fun d => ⟨_, congrArg Host.Outcome.next (hexec _), hok d⟩, ⟨_, congrArg Host.Outcome.next (hexec _), herr⟩⟩
  · intro id port b r s hreq hended hfence
    obtain rfl : r.id = id := req_id hreq
    have hexec (resp : Resp) : fxFenceReadbackReturn r.id port resp (some b) s = frameReadback r b resp s := by
      rw [fxFenceReadbackReturn, withReq_some hreq, whenS_true (decide_eq_true hended)]
    obtain ⟨hok, herr⟩ := frameReadback_facts hreq hfence
    exact ⟨fun d => ⟨_, congrArg Host.Outcome.next (hexec _), hok d⟩, ⟨_, congrArg Host.Outcome.next (hexec _), herr⟩⟩
  · intro n m k id addr s late md
    have haddr : BitVec.ofNat 48 addr.toNat = addr := (BitVec.ofNat_toNat 48 addr).trans (BitVec.setWidth_eq addr)
    refine ⟨fun hnil => ?_, fun hlate => ?_⟩
    · have hexec : fxBusErrorResponse (.record n m k id) addr .write s = _ := recordBusError_passed hnil
      generalize hy : busErrorOf (some n) addr.toNat .write (b2n (portOf addr.toNat)) kindRecord m.val 0 (s.gen.active.toNat % 65536) s = y at hexec
      have hcount : (y.ten n).becnt = (s.ten n).becnt.bump := hy ▸ ((busErrorOf_counts (some n) _ _ _ _ _ _ _ s).1 n rfl).1
      have honly : Only (.tens :: recordParts) s y := hy ▸ ((busErrorOf_counts (some n) _ _ _ _ _ _ _ s).1 n rfl).2.2
      have hled : (y.ten n).led = (s.ten n).led := hy ▸ Led.busErrorOf _ _ _ _ _ _ _ _ _ rfl
      have hseq : y.jrn.seq = s.jrn.seq + 1 := hy ▸ busErrorOf_seq _ _ _ _ _ _ _ _ _
      obtain ⟨hcq, hothers, hevent, hledger, -⟩ := cqFault_facts n m addr.toNat 2 0 y
      rw [cq_of_only honly (by decide), haddr] at hcq
      refine ⟨_, congrArg Host.Outcome.next hexec, fun a b hab => (hothers a b hab).trans (cq_of_only honly (by decide) a b), congrArg Cq.fault hcq,
        (congrArg Cq.fcap hcq).trans rfl, (congrArg Cq.tail hcq).trans rfl, (hledger n).trans hled, hevent, ?_, hseq⟩
      unfold cqFault raiseT
      rw [modTen_ten_same]
      exact hcount
    · obtain ⟨t, kind, number, tag, gen, hexec⟩ := recordBusError_late (addr := addr.toNat) hlate
      generalize hl : lateRecords s n m id = l at hexec hlate
      have hll : late = l := hl
      rw [hll]
      generalize hy : busErrorOf t addr.toNat .write (b2n (portOf addr.toNat)) kind number tag gen s = y at hexec
      have hbus : Only [.notice, .tens, .jrn, .evPend, .buserr, .becnt, .pviol, .pvcnt, .out] s y :=
        hy ▸ Only.busErrorOf _ _ _ _ _ _ _ _ _ (List.Subset.refl _) (Only.refl _ _)
      have hled : (y.ten n).led = (s.ten n).led := hy ▸ Led.busErrorOf _ _ _ _ _ _ _ _ _ rfl
      have hback := takenBack_cq n m l y
      have hinflight := takenBack_inflight n m l y
      have hmem (q : Req) (hq : q ∈ l) := takenBack_mem n m l y hq
      rw [cq_of_only hbus (by decide), if_neg (show l ≠ [] from hll ▸ hlate)] at hback
      rw [hled] at hinflight
      generalize takenBack n m l y = z at hexec hback hinflight hmem
      obtain ⟨hcq, -, hevent, hledger, hreqs⟩ := cqFault_facts n m addr.toNat 2 0 z
      rw [hback, haddr] at hcq
      generalize cqFault n m addr.toNat 2 0 z = x at hexec hcq hevent hledger hreqs
      obtain ⟨htens, ⟨st, rs, hring⟩, -, hkept⟩ := rescueAll_facts n m l x
      rw [hcq] at hring
      refine ⟨_, congrArg Host.Outcome.next hexec, congrArg Cq.fault hring, (congrArg Cq.fcap hring).trans rfl, (congrArg Cq.tail hring).trans rfl, ?_, ?_,
        fun hnodup r hr => hkept hnodup (fun q hq => ?_) r hr⟩
      · rw [ten_of_tens htens, hledger, hinflight]
      · rw [TenEvent, ten_of_tens htens]
        exact hevent
      · obtain ⟨q', hq'⟩ := hmem q hq
        exact ⟨q', (req_of_reqs hreqs _).trans hq'⟩
  · intro id b addr frame r s hreq
    obtain rfl : r.id = id := req_id hreq
    refine ⟨fun hrun hb hfence hstart hcalm => ?_, fun hopen hb => ?_⟩
    · obtain ⟨port, hexec⟩ := fxBusErrorResponse_request hreq hb
      rw [bufBusError_read hfence hrun] at hexec
      obtain ⟨hjrn, hruns⟩ := broken_settles ((req_of_reqs (busErrorOf_reqs r.priv addr.toNat .read port r.srcNumber.1 r.srcNumber.2 (eTag r.entry)
        (r.gen.toNat % 65536) s) r.id).trans hreq) hstart hcalm
      exact ⟨_, congrArg Host.Outcome.next hexec, (congrArg Journal.seq hjrn).trans (busErrorOf_seq _ _ _ _ _ _ _ _ _), hruns⟩
    · obtain ⟨port, hexec⟩ := fxBusErrorResponse_request hreq hb
      generalize hy : busErrorOf r.priv addr.toNat .write port r.srcNumber.1 r.srcNumber.2 (eTag r.entry) (r.gen.toNat % 65536) s = y at hexec
      have honly : Only [.notice, .tens, .jrn, .evPend, .buserr, .becnt, .pviol, .pvcnt, .out] s y :=
        hy ▸ Only.busErrorOf _ _ _ _ _ _ _ _ _ (List.Subset.refl _) (Only.refl _ _)
      have hseq : y.jrn.seq = s.jrn.seq + 1 := hy ▸ busErrorOf_seq _ _ _ _ _ _ _ _ _
      have hends : bufBusError r b .write y = endChain r.id ⟨0x31, 2, r.writer b⟩ y :=
        whenS_true ((openTo_congr (honly.2 .fp (by decide)) r).trans hopen)
      exact ⟨_, congrArg Host.Outcome.next (hexec.trans hends), (congrArg Journal.seq (endChain_jrn _ _)).trans hseq,
        endChain_ends _ ((req_of_reqs (honly.2 .reqs (by decide)) _).trans hreq)⟩
  · intro id addr dir frame n l s hnone hleft
    have hexec : fxBusErrorResponse (.request id frame) addr dir s = busErrorOf (some n) addr.toNat dir (if frame.isSome then 2 else b2n (portOf addr.toNat))
        kindRequest l.ring l.tag l.gen s := by
      show reqBusError id addr.toNat dir frame s = _
      rw [reqBusError, hnone]
      show leftBusError id addr.toNat dir frame s = _
      rw [leftBusError, hleft]
      rfl
    obtain ⟨hcount, hothers, honly⟩ := (busErrorOf_counts (some n) addr.toNat dir (if frame.isSome then 2 else b2n (portOf addr.toNat)) kindRequest
      l.ring l.tag l.gen s).1 n rfl
    exact ⟨_, congrArg Host.Outcome.next hexec, honly, hothers, hcount, busErrorOf_seq _ _ _ _ _ _ _ _ _⟩
  · intro addr dir s
    obtain ⟨hcount, hbit, honly⟩ := (busErrorOf_counts none addr.toNat dir (b2n (portOf addr.toNat)) kindBoot 0 0 (s.gen.active.toNat % 65536) s).2 rfl
    exact ⟨_, rfl, honly, hcount, hbit, busErrorOf_seq _ _ _ _ _ _ _ _ _⟩

end Sys2Proof.RecordMoves
end

section
/-!
The boot ring (R472 to R478): what a poll, an entry that is answered as it is taken, a request and EN = 0 leave, with the statement O60.
-/

namespace Sys2Proof.Machine

/-! ### The poll of the slot at the head (R474) -/

/-- The slots behind the head that a REQUEST's entry takes. -/
def bootRest (s : State) (b : Bytes) : List Nat := (List.range (bootSpan b - 1)).map (fun j => s.boot.head + 1 + j)

/-- The ring polls, holds no entry, and retention is not asked for. -/
def BootPolls (s : State) : Prop := s.boot.st = .polling ∧ s.boot.slot = [] ∧ s.ret.req = false ∧ s.ret.asleep = false

theorem bootPolls_iff (s : State) :
    (decide (s.boot.st = .polling) && decide (s.boot.slot = []) && !s.ret.req && !s.ret.asleep) = true ↔ BootPolls s := by
  simp [BootPolls, and_assoc]

section
variable {resp : Resp} {s : State}

theorem fxBootSlotPoll_idle (h : ¬ BootPolls s) : fxBootSlotPoll resp s = s := by
  rw [fxBootSlotPoll, whenS_false (Bool.eq_false_iff.mpr fun hp => h ((bootPolls_iff s).mp hp))]

variable (hdue : BootPolls s)
include hdue

theorem fxBootSlotPoll_denied {p : Nat × Nat} (h : bootReads s [s.boot.head] = some p) : fxBootSlotPoll resp s = bootViol p s := by
  rw [fxBootSlotPoll, whenS_true ((bootPolls_iff s).mpr hdue), h]

variable (hread : bootReads s [s.boot.head] = none)
include hread

theorem fxBootSlotPoll_err : fxBootSlotPoll .err s = busErrorOf none (s.boot.slotAddr s.boot.head) .read (b2n (portOf (s.boot.slotAddr s.boot.head))) kindBoot 0 0
    (s.gen.active.toNat % 65536) (emitRd (s.boot.slotAddr s.boot.head) 32 s) := by
  rw [fxBootSlotPoll, whenS_true ((bootPolls_iff s).mpr hdue), hread]

variable {d : Bytes}

theorem fxBootSlotPoll_stale (h : leAt (fit 32 d ++ d.drop 32) 0 2 ≠ s.boot.seq) : fxBootSlotPoll (.ok d) s = emitRd (s.boot.slotAddr s.boot.head) 32 s := by
  rw [fxBootSlotPoll, whenS_true ((bootPolls_iff s).mpr hdue), hread]
  exact if_pos h

variable (hseq : leAt (fit 32 d ++ d.drop 32) 0 2 = s.boot.seq)
include hseq

theorem fxBootSlotPoll_other (h : bootKind (fit 32 d ++ d.drop 32) ≠ 1) :
    fxBootSlotPoll (.ok d) s = modBoot (fun q => { q with slot := fit 32 d }) (emitRd (s.boot.slotAddr s.boot.head) 32 s) := by
  rw [fxBootSlotPoll, whenS_true ((bootPolls_iff s).mpr hdue), hread]
  exact (if_neg (not_not.mpr hseq)).trans (if_pos h)

variable (hkind : bootKind (fit 32 d ++ d.drop 32) = 1)
include hkind

theorem fxBootSlotPoll_request (h : bootReads s (bootRest s (fit 32 d ++ d.drop 32)) = none) :
    fxBootSlotPoll (.ok d) s = modBoot (fun q => { q with slot := fit (32 * bootSpan (fit 32 d ++ d.drop 32)) (fit 32 d ++ d.drop 32) })
      ((bootRest s (fit 32 d ++ d.drop 32)).foldl (fun s i => emitRd (s.boot.slotAddr i) 32 s) (emitRd (s.boot.slotAddr s.boot.head) 32 s)) := by
  rw [fxBootSlotPoll, whenS_true ((bootPolls_iff s).mpr hdue), hread]
  refine (if_neg (not_not.mpr hseq)).trans ((if_neg (not_not.mpr hkind)).trans ?_)
  rw [bootRest] at h ⊢
  simp only [h]

theorem fxBootSlotPoll_restDenied {p : Nat × Nat} (h : bootReads s (bootRest s (fit 32 d ++ d.drop 32)) = some p) :
    fxBootSlotPoll (.ok d) s = bootViol p (emitRd (s.boot.slotAddr s.boot.head) 32 s) := by
  rw [fxBootSlotPoll, whenS_true ((bootPolls_iff s).mpr hdue), hread]
  refine (if_neg (not_not.mpr hseq)).trans ((if_neg (not_not.mpr hkind)).trans ?_)
  rw [bootRest] at h
  simp only [h]

end

theorem only_bootViol {A : List Part} {s : State} (p : Nat × Nat) {x : State} (hA : [.evPend, .pviol, .pvcnt] ⊆ A) (h : Only A s x) :
    Only A s (bootViol p x) := Only.violP _ _ _ _ _ _ _ _ hA h

/-- The reads of slots change only what is sent. -/
theorem only_bootReadsOut (l : List Nat) (s : State) : Only [.out] s (l.foldl (fun s i => emitRd (s.boot.slotAddr i) 32 s) s) := by
  induction l generalizing s with
  | nil => exact Only.refl _ _
  | cons i l ih => exact (Only.emitRd _ _ _ (List.Subset.refl _) (Only.refl _ _)).trans (ih _)

/-! ### An entry that is answered as it is taken (R474, R477, R478) -/

theorem bootRecord_boot (i : Nat) (b : Bytes) (s : State) :
    (bootRecord i b s).boot = { s.boot with completed := s.boot.completed + 1, inflight := s.boot.inflight - 1 } := by
  unfold bootRecord
  dsimp only
  split
  · exact (Only.emitRecord _ _ _ (List.Subset.refl _) (Only.refl _ _)).2 .boot (by decide)
  · exact (Only.violP _ _ _ _ _ _ _ _ (List.Subset.refl _) (Only.refl _ _)).2 .boot (by decide)

theorem bootRecord_out {i : Nat} {b : Bytes} {s : State} (h : check s s.gen.act none .secure .write (bootRecAddr s i) 32 = none) :
    (bootRecord i b s).out = (emitRecord (bootRecAddr s i) (stampRecord ((s.boot.completed + 1).toNat % 65536) (phaseAt s.boot.k.toNat i) false b) s).out := by
  unfold bootRecord
  dsimp only
  rw [h]
  exact emitRecord_out_congr _ _ rfl

/-- The ring once the entry that it holds is taken and answered. -/
def Boot.answered (b : Boot) : Boot :=
  { b with head := (b.head + bootSpan b.slot) % (2 * b.slots), seq := nextSeq b.seq, slot := [], admitted := b.admitted + 1, completed := b.completed + 1 }

/-- What has happened before an entry is answered left the ring, the requests, and what the record says and is judged by. -/
structure BootKept (s y : State) : Prop where
  boot : y.boot = s.boot
  reqs : y.reqs = s.reqs
  start : y.start = s.start
  gen : y.gen = s.gen
  time : y.time = s.time
  run : y.run = s.run

/-- An entry of a polling ring that is taken and answered. -/
theorem bootAnswer_answered {s y z : State} (tag status detail consumed : Nat) (hst : s.boot.st = .polling) (h : BootKept s y) (hout : y.out = z.out) :
    BootAnswered s z (bootAnswer tag status detail consumed y) status detail consumed ∧ (bootAnswer tag status detail consumed y).meas = y.meas ∧
      (bootAnswer tag status detail consumed y).boot = s.boot.answered := by
  let o : Outcome := ⟨BitVec.ofNat 8 status, BitVec.ofNat 8 detail, 0⟩
  let b := recordOf tag 0 o 0 consumed 0 s.gen.active.toNat 0x7FFFFFF 0 (256 * b2n (!s.run)) s.time.ns
  have hanswer : bootAnswer tag status detail consumed y = bootSettle (bootRecord s.boot.head b (bootTake y)) := by
    rw [bootAnswer, h.boot, h.gen, h.run, h.time]
  have hboot : (bootRecord s.boot.head b (bootTake y)).boot = s.boot.answered := by
    have htake : (bootTake y).boot = { s.boot with
        head := (s.boot.head + bootSpan s.boot.slot) % (2 * s.boot.slots), seq := nextSeq s.boot.seq, slot := []
        admitted := s.boot.admitted + 1, inflight := s.boot.inflight + 1 } := by
      rw [← h.boot]
      rfl
    have hcancel : s.boot.inflight + 1 - 1 = s.boot.inflight := BitVec.add_sub_cancel _ _
    rw [bootRecord_boot, htake]
    simp only [Boot.answered, hcancel]
  have hsettle : bootAnswer tag status detail consumed y = bootRecord s.boot.head b (bootTake y) := by
    rw [hanswer, bootSettle, hboot, if_neg fun hdrain => by
      rw [show s.boot.answered.st = s.boot.st from rfl, hst] at hdrain
      exact absurd hdrain.1 (by decide)]
  have honly : Only (.boot :: recordParts) (bootTake y) (bootRecord s.boot.head b (bootTake y)) := Only.bootRecord _ _ _ (by decide) (Only.refl _ _)
  rw [hsettle]
  refine ⟨⟨(honly.2 .reqs (by decide)).trans h.reqs, hboot, fun hcheck => ⟨tag, ?_⟩⟩, honly.2 .meas (by decide), hboot⟩
  have haddr : bootRecAddr (bootTake y) s.boot.head = bootRecAddr s s.boot.head := by
    rw [bootRecAddr, bootRecAddr, ← h.boot]
    rfl
  have hcheck' : check (bootTake y) (bootTake y).gen.act none .secure .write (bootRecAddr (bootTake y) s.boot.head) 32 = none := by
    rw [haddr, check_congr (show (bootTake y).start = s.start from h.start), show (bootTake y).gen = s.gen from h.gen]
    exact hcheck
  have hdone : (bootTake y).boot.completed = s.boot.completed := by
    rw [← h.boot]
    rfl
  have hk : (bootTake y).boot.k = s.boot.k := by
    rw [← h.boot]
    rfl
  rw [bootRecord_out hcheck', haddr, hdone, hk]
  exact emitRecord_out_congr _ _ hout

theorem bootKept_only {A : List Part} {s y : State} (h : Only A s y)
    (hA : Part.boot ∉ A ∧ Part.reqs ∉ A ∧ Part.start ∉ A ∧ Part.gen ∉ A ∧ Part.act ∉ A ∧ Part.time ∉ A ∧ Part.own ∉ A) : BootKept s y := by
  obtain ⟨hboot, hreqs, hstart, hgen, hact, htime, hown⟩ := hA
  exact ⟨h.2 .boot hboot, h.2 .reqs hreqs, h.2 .start hstart, h.gen_eq hgen hact, h.2 .time htime, h.run_eq hown⟩

/-! ### Requests (R474, R475) -/

/-- The ring may accept the entry that it holds as a request, or answer it. -/
def BootDue (s : State) : Prop := bootAdmits s = true ∧ s.boot.inflight.toNat < 4 ∧ (bootKind s.boot.slot ≠ 2 ∨ bootClean s.boot.slot = false)

theorem bootDue_iff (s : State) :
    (bootAdmits s && decide (s.boot.inflight.toNat < 4) && decide (bootKind s.boot.slot ≠ 2 ∨ bootClean s.boot.slot = false)) = true ↔ BootDue s := by
  rw [Bool.and_eq_true, Bool.and_eq_true, decide_eq_true_iff, decide_eq_true_iff, and_assoc]
  rfl

theorem polling_of_bootAdmits {s : State} (h : bootAdmits s = true) : s.boot.st = .polling := by
  rw [bootAdmits, Bool.and_eq_true, Bool.and_eq_true, decide_eq_true_iff] at h
  exact h.1.2

section
variable {s : State}

theorem fxBootRequest_idle (h : ¬ BootDue s) : fxBootRequest s = s := by
  rw [fxBootRequest, whenS_false (Bool.eq_false_iff.mpr fun hd => h ((bootDue_iff s).mp hd))]

variable (hdue : BootDue s)
include hdue

theorem fxBootRequest_unknown (h : bootKind s.boot.slot ≠ 1) : fxBootRequest s = bootAnswer (freeTag s) stUnsupported 2 0 (nextFree s) := by
  rw [fxBootRequest, whenS_true ((bootDue_iff s).mpr hdue), if_pos h]

variable (hkind : bootKind s.boot.slot = 1)
include hkind

theorem fxBootRequest_reserved (h : bootClean s.boot.slot = false) :
    fxBootRequest s = bootAnswer (eTag (s.boot.slot.drop 32)) stUnsupported 2 0 s := by
  rw [fxBootRequest, whenS_true ((bootDue_iff s).mpr hdue), if_neg (not_not.mpr hkind), if_pos (by rw [h]; rfl)]

variable (hclean : bootClean s.boot.slot = true)
include hclean

theorem fxBootRequest_full (h : freeCs s 1 = none) : fxBootRequest s = s := by
  rw [fxBootRequest, whenS_true ((bootDue_iff s).mpr hdue), if_neg (not_not.mpr hkind), if_neg (by rw [hclean]; decide), h]

theorem fxBootRequest_waits {cs : Nat} (h : freeCs s 1 = some cs) (hpair : (bootPaired s.boot && !pairFits s (s.boot.slot.drop 32)) = true) :
    fxBootRequest s = s := by
  rw [fxBootRequest, whenS_true ((bootDue_iff s).mpr hdue), if_neg (not_not.mpr hkind), if_neg (by rw [hclean]; decide), h]
  exact if_pos hpair

theorem fxBootRequest_admits {cs : Nat} (h : freeCs s 1 = some cs) (hpair : (bootPaired s.boot && !pairFits s (s.boot.slot.drop 32)) = false) :
    fxBootRequest s = modSch (fun c => { c with nextId := c.nextId + 1 }) (modReqs (· ++ [bootReq s cs]) (bootTake s)) := by
  rw [fxBootRequest, whenS_true ((bootDue_iff s).mpr hdue), if_neg (not_not.mpr hkind), if_neg (by rw [hclean]; decide), h]
  exact if_neg (by rw [hpair]; decide)

end

/-! ### Extends (R245, R476) -/

/-- The ring may take the EXTEND that it holds. -/
def ExtendDue (s : State) : Prop :=
  bootAdmits s = true ∧ bootKind s.boot.slot = 2 ∧ bootClean s.boot.slot = true ∧ s.boot.inflight = 0 ∧ (freeCs s 1).isSome = true

theorem extendDue_iff (s : State) :
    (bootAdmits s && decide (bootKind s.boot.slot = 2) && bootClean s.boot.slot && decide (s.boot.inflight = 0) && (freeCs s 1).isSome) = true ↔ ExtendDue s := by
  simp [ExtendDue, and_assoc]

section
variable {resp : Resp} {s : State}

theorem fxBootExtend_idle (h : ¬ ExtendDue s) : fxBootExtend resp s = s := by
  rw [fxBootExtend, whenS_false (Bool.eq_false_iff.mpr fun hd => h ((extendDue_iff s).mp hd))]

variable (hdue : ExtendDue s)
include hdue

theorem fxBootExtend_late (h : s.owner.st ≠ .claimOpen) : fxBootExtend resp s = bootAnswer (freeTag s) stUnsupported 0x91 0 (nextFree s) := by
  rw [fxBootExtend, whenS_true ((extendDue_iff s).mpr hdue)]
  exact if_pos h

variable (hopen : s.owner.st = .claimOpen)
include hopen

theorem fxBootExtend_denied {p : Nat × Nat} (h : check s s.gen.act none .secure .read (leAt s.boot.slot 8 6) 48 = some p) :
    fxBootExtend resp s = bootAnswer (freeTag s) stAccess 1 0 (bootViol p (nextFree s)) := by
  rw [fxBootExtend, whenS_true ((extendDue_iff s).mpr hdue)]
  refine (if_neg (not_not.mpr hopen)).trans ?_
  rw [h]

variable (hok : check s s.gen.act none .secure .read (leAt s.boot.slot 8 6) 48 = none)
include hok

theorem fxBootExtend_err : fxBootExtend .err s = bootAnswer (freeTag s) stBus 1 0 (busErrorOf none (leAt s.boot.slot 8 6) .read
    (b2n (portOf (leAt s.boot.slot 8 6))) kindBoot 0 0 (s.gen.active.toNat % 65536) (emitRd (leAt s.boot.slot 8 6) 48 (nextFree s))) := by
  rw [fxBootExtend, whenS_true ((extendDue_iff s).mpr hdue)]
  refine (if_neg (not_not.mpr hopen)).trans ?_
  rw [hok]

theorem fxBootExtend_ok {d : Bytes} (h : extendRefused s 0 = false) :
    fxBootExtend (.ok d) s = bootAnswer (freeTag s) stDone 0 48 (extendOrDefer 0 (fit 48 d) (emitRd (leAt s.boot.slot 8 6) 48 (nextFree s))) := by
  rw [fxBootExtend, whenS_true ((extendDue_iff s).mpr hdue)]
  refine (if_neg (not_not.mpr hopen)).trans ?_
  rw [hok]
  exact if_neg (by rw [h]; decide)

end

/-! ### EN = 0 (R472) -/

theorem bootOff_facts (s : State) :
    Only [.own, .boot] s (bootOff s) ∧ (bootOff s).own = { s.own with boot := 0 } ∧ (s.boot.st ≠ .polling → (bootOff s).boot = s.boot) ∧
      (s.boot.st = .polling → (bootOff s).boot = { s.boot with st := if s.boot.inflight = 0 then .off else .draining, slot := [] }) := by
  refine ⟨Only.bootOff _ (by decide) (Only.refl _ _), ?_, fun h => ?_, fun h => ?_⟩
  · unfold bootOff bootSettle
    dsimp only
    split
    · split
      · rfl
      · rfl
    · rfl
  · rw [bootOff, if_neg h]
    rfl
  · rw [bootOff, if_pos h, bootSettle]
    split
    next hnone =>
      have hzero : s.boot.inflight = 0 := hnone.2
      rw [if_pos hzero]
      rfl
    next hsome =>
      have hmore : s.boot.inflight ≠ 0 := fun hz => hsome ⟨rfl, hz⟩
      rw [if_neg hmore]
      rfl

end Sys2Proof.Machine

namespace Sys2Proof.BootRing
open Sys2Proof.Machine

/-- Settles O60, by the branch that each step of the boot ring takes; an entry that is answered at once leaves `bootAnswer_answered`. -/
theorem bootRing : Obligations.BootRing := by
  unfold Obligations.BootRing
  refine ⟨?_, ?_, ?_, ?_⟩
  · intro resp s a due rest
    have hrest (b : Bytes) : rest b = bootRest s b := rfl
    refine ⟨fun h => congrArg Host.Outcome.next (fxBootSlotPoll_idle h), fun hdue hdenied => ?_, fun hdue hread herr => ?_, fun d hdue hread hresp => ?_⟩
    · obtain ⟨p, hp⟩ := Option.ne_none_iff_exists'.mp hdenied
      exact ⟨_, congrArg Host.Outcome.next (fxBootSlotPoll_denied hdue hp), only_bootViol p (List.Subset.refl _) (Only.refl _ _)⟩
    · subst herr
      have hread' : Only [.out] s (emitRd a 32 s) := Only.emitRd _ _ _ (List.Subset.refl _) (Only.refl _ _)
      refine ⟨_, congrArg Host.Outcome.next (fxBootSlotPoll_err hdue hread), ?_, ?_⟩
      · exact ((Only.busErrorOf _ _ _ _ _ _ _ _ _ (List.Subset.refl _) (Only.refl _ _)).2 .boot (by decide)).trans (hread'.2 .boot (by decide))
      · exact (busErrorOf_seq _ _ _ _ _ _ _ _ _).trans (congrArg (fun j : Journal => j.seq + 1) (hread'.jrn (by decide)))
    · subst hresp
      intro b
      refine ⟨fun hstale => congrArg Host.Outcome.next (fxBootSlotPoll_stale hdue hread hstale), fun hseq hkind => ?_, fun hseq hkind hfree => ?_,
        fun hseq hkind hdenied => ?_⟩
      · have hboot : (emitRd a 32 s).boot = s.boot := (Only.emitRd a 32 s (List.Subset.refl _) (Only.refl _ _)).2 .boot (by decide)
        exact ⟨_, congrArg Host.Outcome.next (fxBootSlotPoll_other hdue hread hseq hkind),
          Only.modBoot _ (by decide) (Only.emitRd _ _ _ (by decide) (Only.refl _ _)), congrArg (fun q : Boot => { q with slot := fit 32 d }) hboot, rfl⟩
      · have hall : Only [.out] s ((bootRest s b).foldl (fun s i => emitRd (s.boot.slotAddr i) 32 s) (emitRd a 32 s)) :=
          (Only.emitRd a 32 s (List.Subset.refl _) (Only.refl _ _)).trans (only_bootReadsOut _ _)
        exact ⟨_, congrArg Host.Outcome.next (fxBootSlotPoll_request hdue hread hseq hkind hfree), Only.modBoot _ (by decide) (hall.mono (by decide)),
          congrArg (fun q : Boot => { q with slot := fit (32 * bootSpan b) b }) (hall.2 .boot (by decide))⟩
      · obtain ⟨p, hp⟩ := Option.ne_none_iff_exists'.mp hdenied
        exact ⟨_, congrArg Host.Outcome.next (fxBootSlotPoll_restDenied hdue hread hseq hkind hp),
          only_bootViol p (by decide) (Only.emitRd _ _ _ (by decide) (Only.refl _ _))⟩
  · intro s due
    refine ⟨fun h => congrArg Host.Outcome.next (fxBootRequest_idle h), fun hdue hodd => ?_,
      fun hdue hkind hclean hfull => congrArg Host.Outcome.next (fxBootRequest_full hdue hkind hclean hfull),
      fun cs hdue hkind hclean hcs hpaired hfits => congrArg Host.Outcome.next (fxBootRequest_waits hdue hkind hclean hcs (by rw [hpaired, hfits]; rfl)),
      fun cs hdue hkind hclean hcs hpair => ?_⟩
    · have hst := polling_of_bootAdmits hdue.1
      by_cases hkind : bootKind s.boot.slot = 1
      · have hans := (bootAnswer_answered (y := s) (z := s) (eTag (s.boot.slot.drop 32)) stUnsupported 2 0 hst (bootKept_only (Only.refl [] s) (by decide)) rfl).1
        exact ⟨_, congrArg Host.Outcome.next (fxBootRequest_reserved hdue hkind (hodd.resolve_left (not_not.mpr hkind))), hans⟩
      · have hans := (bootAnswer_answered (y := nextFree s) (z := s) (freeTag s) stUnsupported 2 0 hst
          (bootKept_only (Only.nextFree (List.Subset.refl _) (Only.refl _ s)) (by decide)) rfl).1
        exact ⟨_, congrArg Host.Outcome.next (fxBootRequest_unknown hdue hkind), hans⟩
    · have hno : (bootPaired s.boot && !pairFits s (s.boot.slot.drop 32)) = false := by
        rcases hpair with h | h <;> rw [h]
        · rfl
        · exact Bool.and_false _
      refine ⟨_, bootReq s cs, congrArg Host.Outcome.next (fxBootRequest_admits hdue hkind hclean hcs hno), ?_, rfl, rfl, rfl, rfl, rfl, rfl, rfl, rfl, rfl⟩
      exact Only.modSch _ (by decide) (Only.modReqs _ (by decide) (Only.modBoot _ (by decide) (Only.refl _ _)))
  · intro resp s x due bad
    refine ⟨fun h => congrArg Host.Outcome.next (fxBootExtend_idle h), fun hdue hlate => ?_, fun hdue hopen hbad => ?_, fun hdue hopen hok herr => ?_,
      fun d hdue hopen hok hresp hfree hsup => ?_⟩
    · obtain ⟨hans, hmeas, -⟩ := bootAnswer_answered (y := nextFree s) (freeTag s) stUnsupported 0x91 0 (polling_of_bootAdmits hdue.1)
        (bootKept_only (Only.nextFree (List.Subset.refl _) (Only.refl _ s)) (by decide)) (z := s) rfl
      exact ⟨_, congrArg Host.Outcome.next (fxBootExtend_late hdue hlate), hmeas, hans⟩
    · obtain ⟨p, hp⟩ := Option.ne_none_iff_exists'.mp hbad
      have honly : Only [.free, .evPend, .pviol, .pvcnt] s (bootViol p (nextFree s)) := only_bootViol p (by decide) (Only.nextFree (by decide) (Only.refl _ s))
      obtain ⟨hans, hmeas, -⟩ := bootAnswer_answered (freeTag s) stAccess 1 0 (polling_of_bootAdmits hdue.1) (bootKept_only honly (by decide)) (z := s)
        (honly.2 .out (by decide))
      exact ⟨_, congrArg Host.Outcome.next (fxBootExtend_denied hdue hopen hp), hmeas.trans (honly.2 .meas (by decide)), hans⟩
    · subst herr
      have hexec := fxBootExtend_err hdue hopen hok
      have honly : Only [.notice, .tens, .jrn, .evPend, .buserr, .becnt, .pviol, .pvcnt, .out, .free] s (busErrorOf none x .read (b2n (portOf x)) kindBoot 0 0
          (s.gen.active.toNat % 65536) (emitRd x 48 (nextFree s))) :=
        Only.busErrorOf _ _ _ _ _ _ _ _ _ (by decide) (Only.emitRd _ _ _ (by decide) (Only.nextFree (by decide) (Only.refl _ s)))
      obtain ⟨-, hmeas, hboot⟩ := bootAnswer_answered (freeTag s) stBus 1 0 (polling_of_bootAdmits hdue.1) (bootKept_only honly (by decide)) rfl
      exact ⟨_, congrArg Host.Outcome.next hexec, hmeas.trans (honly.2 .meas (by decide)), congrArg Boot.head hboot, congrArg Boot.completed hboot,
        (congrArg Boot.inflight hboot).trans rfl⟩
    · subst hresp
      have hread : Only [.free, .out] s (emitRd x 48 (nextFree s)) := Only.emitRd _ _ _ (by decide) (Only.nextFree (by decide) (Only.refl _ s))
      have hsup' : (emitRd x 48 (nextFree s)).sup.active = false := (congrArg Supply.active (hread.2 .sup (by decide))).trans hsup
      have hexec := fxBootExtend_ok hdue hopen hok (d := d) hfree
      rw [extendOrDefer, orDefer_runs hsup'] at hexec
      have honly : Only [.free, .out, .meas] s (extend 0 (fit 48 d) (emitRd x 48 (nextFree s))) := Only.modMeas _ (by decide) (hread.mono (by decide))
      obtain ⟨hans, hmeas, -⟩ := bootAnswer_answered (freeTag s) stDone 0 48 (polling_of_bootAdmits hdue.1) (bootKept_only honly (by decide))
        (z := emitRd x 48 s) (emitRd_out2 x 48 (nextFree s) s rfl)
      have hold : (emitRd x 48 (nextFree s)).meas = s.meas := hread.2 .meas (by decide)
      refine ⟨_, congrArg Host.Outcome.next hexec, hans, hmeas.trans ?_⟩
      rw [extend, modMeas_meas, measVal, measCnt, hold]
      rfl
  · intro who s htakes
    exact ⟨_, congrArg Host.Outcome.next (gateW_takes htakes), bootOff_facts s⟩

end Sys2Proof.BootRing
end

section
/-!
Supply warnings and retention (R278, R407 to R414): what a warning does to what is at work, what its end makes of the deferred writes, and the two
ends of retention, with the statement O55.
-/

namespace Sys2Proof.Machine

/-! ### An operation that gives its tiles up (R102, R409) -/

/-- No bank of the tile holds the operation, and it does not run there. -/
def Freed (p : Nat × Nat) (u : Tile) : Prop := u.run ≠ some p ∧ u.bankA.holds p.1 p.2 = false ∧ u.bankB.holds p.1 p.2 = false

theorem BankSt.holds_wake (q : Nat × Nat) (b : BankSt) (id i : Nat) : (b.wake q).holds id i = b.holds id i := by
  rw [BankSt.wake]
  split
  · next h => simp [h, BankSt.holds]
  · rfl

theorem Freed.wakeBank {p : Nat × Nat} {x : Nat} {s : State} (t : Nat) (h : Freed p (s.tile x)) : Freed p ((Machine.wakeBank t s).tile x) := by
  obtain ⟨hrun, hA, hB⟩ := h
  rcases wakeBank_tile t s x with e | ⟨q, e⟩ <;> rw [e]
  · exact ⟨hrun, hA, hB⟩
  · exact ⟨hrun, (BankSt.holds_wake _ _ _ _).trans hA, (BankSt.holds_wake _ _ _ _).trans hB⟩

/-- What a tile gives up of an operation. -/
def Tile.free (id i : Nat) (u : Tile) : Tile :=
  { u with
    run := if u.run = some (id, i) then none else u.run
    saved := u.saved.filter (· ≠ (id, i))
    bankA := if u.bankA.holds id i then .zeroizing id else u.bankA
    bankB := if u.bankB.holds id i then .zeroizing id else u.bankB }

theorem BankSt.holds_freed (b : BankSt) (id i : Nat) : (if b.holds id i then BankSt.zeroizing id else b).holds id i = false := by
  split
  · simp [BankSt.holds]
  · next h => exact Bool.eq_false_iff.mpr h

theorem Tile.free_freed (id i : Nat) (u : Tile) : Freed (id, i) (u.free id i) := by
  refine ⟨?_, BankSt.holds_freed _ _ _, BankSt.holds_freed _ _ _⟩
  simp only [Tile.free]
  split
  · simp
  · assumption

theorem BankSt.holds_free (b : BankSt) (id i k j : Nat) (h : b.holds k j = false) : (if b.holds id i then BankSt.zeroizing id else b).holds k j = false := by
  split
  · simp [BankSt.holds]
  · exact h

/-- One tile is free of an operation; what rests in its banks may go on. -/
def freeTile (id i t : Nat) (s : State) : State :=
  if 20 ≤ t then wakeBank t (modTile t (Tile.free id i) s) else modTile t (Tile.free id i) s

theorem releaseOp_eq (id i : Nat) (s : State) : releaseOp id i s = eachN (List.range 24) (freeTile id i) s := rfl

theorem freeTile_frees (id i t : Nat) (s : State) : Freed (id, i) ((freeTile id i t s).tile t) := by
  have h : Freed (id, i) ((modTile t (Tile.free id i) s).tile t) := by
    rw [modTile_tile_same]
    exact Tile.free_freed _ _ _
  rw [freeTile]
  split
  · exact h.wakeBank t
  · exact h

theorem Freed.freeTile {id i x : Nat} {s : State} (t : Nat) (h : Freed (id, i) (s.tile x)) : Freed (id, i) ((Machine.freeTile id i t s).tile x) := by
  by_cases e : x = t
  · exact e ▸ freeTile_frees id i t s
  have hx : Freed (id, i) ((modTile t (Tile.free id i) s).tile x) := by
    rw [modTile_tile_ne _ _ e]
    exact h
  rw [Machine.freeTile]
  split
  · exact hx.wakeBank t
  · exact hx

theorem releaseOp_freed {x : Nat} (id i : Nat) (s : State) (hx : x < 24) : Freed (id, i) ((releaseOp id i s).tile x) := by
  rw [releaseOp_eq]
  exact eachN_at (P := fun _ => True) (Q := fun s => Freed (id, i) (s.tile x)) hx trivial (fun _ _ _ _ _ => trivial)
    (fun s _ => freeTile_frees id i x s) (fun t _ _ _ hs => hs.freeTile t)

theorem kindTiles_lt {k t : Nat} (h : t ∈ kindTiles k) : t < 24 := by
  obtain ⟨i, hi, rfl⟩ := List.mem_map.mp h
  have hi := List.mem_range.mp hi
  revert hi
  simp only [kindCount, kindBase]
  repeat' split
  all_goals omega

theorem jobTile_released (j : Job) (s : State) : jobTile (releaseOp j.id 0 s) j = none := by
  refine List.find?_eq_none.mpr fun t ht => ?_
  obtain ⟨hrun, hA, hB⟩ := releaseOp_freed j.id 0 s (kindTiles_lt ht)
  simp only [BankSt.holds, decide_eq_false_iff_not, not_or] at hA hB
  simp [hrun, hA, hB]

theorem jobHit_facts (s : State) (j : Job) :
    (jobHit s j).sup.reruns = bump32 s.sup.reruns ∧ (jobHit s j).sch = s.sch ∧ jobTile (jobHit s j) j = none := by
  have honly : Only [.reqs, .tiles] s (releaseOp j.id 0 s) := Only.releaseOp _ _ _ (by decide) (Only.refl _ _)
  have htile := jobTile_released j s
  rw [jobHit]
  generalize releaseOp j.id 0 s = x at honly htile ⊢
  have hsup : x.sup = s.sup := honly.2 .sup (by decide)
  exact ⟨congrArg (fun p : Supply => bump32 p.reruns) hsup, honly.2 .sch (by decide), htile⟩

/-! ### A request while other work is freed, run again or ended -/

/-- Request k is as r but for the state of its operations. -/
def ButOps (k : Nat) (r : Req) (s : State) : Prop := ∃ l, s.req k = some { r with ops := l }

section
variable {k : Nat} {r : Req} {s : State}

theorem ButOps.of_req (h : s.req k = some r) : ButOps k r s := ⟨r.ops, h⟩

theorem ButOps.reqs {t : State} (h : ButOps k r s) (e : t.reqs = s.reqs) : ButOps k r t :=
  Exists.imp (fun _ hreq => (req_of_reqs e k).trans hreq) h

theorem ButOps.only {A : List Part} {t : State} (h : ButOps k r s) (honly : Only A s t) (hA : Part.reqs ∉ A) : ButOps k r t := h.reqs (honly.2 .reqs hA)

theorem ButOps.countRerun (h : ButOps k r s) : ButOps k r (Machine.countRerun s) := h

theorem ButOps.wakeBank (t : Nat) (h : ButOps k r s) : ButOps k r (Machine.wakeBank t s) := by
  obtain ⟨l, hreq⟩ := h
  obtain ⟨m, hwoken⟩ := wakeBank_req t hreq
  exact ⟨m, hwoken⟩

theorem ButOps.modReq_ne {id : Nat} (f : Req → Req) (hf : ∀ q, (f q).id = q.id) (hk : k ≠ id) (h : ButOps k r s) : ButOps k r (Machine.modReq id f s) :=
  Exists.imp (fun _ hreq => (modReq_req_ne f hf hk).trans hreq) h

theorem ButOps.modOp (id i : Nat) (f : OpSt → OpSt) (h : ButOps k r s) : ButOps k r (Machine.modOp id i f s) := by
  obtain ⟨l, hreq⟩ := h
  by_cases e : k = id
  · rw [e] at hreq ⊢
    have hmod := modOp_req_same i f hreq
    exact ⟨_, hmod⟩
  · exact ⟨l, (modOp_req_ne i f e).trans hreq⟩

theorem ButOps.releaseOp (id i : Nat) (h : ButOps k r s) : ButOps k r (Machine.releaseOp id i s) := by
  rw [releaseOp_eq]
  refine eachN_ind _ _ _ h fun t x hx => ?_
  rw [freeTile]
  split
  · exact ButOps.wakeBank t (hx.reqs rfl)
  · exact hx.reqs rfl

theorem ButOps.rerunOp {id : Nat} (i : Nat) (hk : k ≠ id) (h : ButOps k r s) : ButOps k r (Machine.rerunOp id i s) := by
  rw [Machine.rerunOp]
  split
  · exact h
  have hfreed := h.releaseOp id i
  dsimp only
  refine ButOps.modOp _ _ _ ?_
  split
  · refine ButOps.modReq_ne _ (fun _ => rfl) hk ?_
    split
    · exact hfreed.reqs (setStream_reqs ..)
    · exact hfreed
  · split
    · exact hfreed.reqs (setStream_reqs ..)
    · exact hfreed

theorem ButOps.endChain {id : Nat} (o : Outcome) (hk : k ≠ id) (h : ButOps k r s) : ButOps k r (Machine.endChain id o s) :=
  Exists.imp (fun _ hreq => (endChain_req_ne o s hk).trans hreq) h

/-- What runs again of another request (R409). -/
theorem ButOps.runAgain {id : Nat} (i : Nat) (hk : k ≠ id) (h : ButOps k r s) : ButOps k r (Machine.runAgain id i s) :=
  ((h.rerunOp i hk).modOp id i _).countRerun

theorem ButOps.supplyHit {q : Req} (hk : k ≠ q.id) (h : ButOps k r s) : ButOps k r (Machine.supplyHit s q) := by
  rw [Machine.supplyHit]
  dsimp only
  split
  · exact h
  · split
    · exact h.endChain _ hk
    · split
      · exact h.endChain _ hk
      · exact eachN_ind _ _ _ h fun i _ hs => hs.runAgain i hk

theorem ButOps.jobHit (j : Job) (h : ButOps k r s) : ButOps k r (Machine.jobHit s j) := by
  rw [Machine.jobHit]
  exact (h.releaseOp j.id 0).countRerun

theorem ButOps.foldl {α : Type} {f : State → α → State} (l : List α) (h : ButOps k r s) (hf : ∀ x a, a ∈ l → ButOps k r x → ButOps k r (f x a)) :
    ButOps k r (l.foldl f s) := by
  induction l generalizing s with
  | nil => exact h
  | cons a l ih => exact ih (hf s a (List.mem_cons_self ..) h) fun x b hb => hf x b (List.mem_cons_of_mem _ hb)

theorem ButOps.ended {o : Outcome} (h : ButOps k r s) (hphase : r.phase = .ended) (hout : r.outcome = some o) {q : Req} (hten : r.tenant = q.tenant)
    (hentry : r.entry = q.entry) : EndedWith s k q o := by
  obtain ⟨l, hreq⟩ := h
  exact ⟨_, hreq, hten, hentry, hphase, hout⟩

end

/-! ### A supply warning (R407 to R409) -/

/-- A supply warning lasts, counted as w, flagged, and with q records made. -/
structure Warned (w : BitVec 32) (q : BitVec 16) (s : State) : Prop where
  active : s.sup.active = true
  warns : s.sup.warns = w
  flagged : Pend gSupWarn s
  records : s.jrn.seq = q

section
variable {w : BitVec 32} {q : BitVec 16} {s : State}

theorem Warned.only {A : List Part} {t : State} (h : Warned w q s) (honly : Only A s t) (hsup : Part.sup ∉ A) (hjrn : Part.jrn ∉ A) (hflag : Pend gSupWarn t) :
    Warned w q t := by
  have e : t.sup = s.sup := honly.2 .sup hsup
  exact ⟨by rw [e]; exact h.active, by rw [e]; exact h.warns, hflag, by rw [honly.jrn hjrn]; exact h.records⟩

theorem Warned.endChain (id : Nat) (o : Outcome) (h : Warned w q s) : Warned w q (Machine.endChain id o s) :=
  h.only (Only.endChain (A := [.tens, .sch, .reqs, .tiles, .streams, .ks, .fp, .evPend, .pviol, .pvcnt, .out]) _ _ _ (by decide) (Only.refl _ _))
    (by decide) (by decide) (Pend.endChain _ _ _ h.flagged)

theorem Warned.countRerun (h : Warned w q s) : Warned w q (Machine.countRerun s) := ⟨h.active, h.warns, h.flagged, h.records⟩

theorem Warned.runAgain (id i : Nat) (h : Warned w q s) : Warned w q (Machine.runAgain id i s) :=
  Warned.countRerun (h.only (Only.modOp _ _ _ _ (by decide) (Only.rerunOp (A := [.reqs, .tiles, .streams]) _ _ _ (by decide) (Only.refl _ _)))
    (by decide) (by decide) (Pend.rerunOp _ _ _ h.flagged))

theorem Warned.supplyHit (h : Warned w q s) (r : Req) : Warned w q (Machine.supplyHit s r) := by
  rw [Machine.supplyHit]
  dsimp only
  split
  · exact h
  · split
    · exact h.endChain _ _
    · split
      · exact h.endChain _ _
      · exact eachN_ind _ _ _ h fun i _ hs => hs.runAgain _ i

theorem Warned.jobHit (h : Warned w q s) (j : Job) : Warned w q (Machine.jobHit s j) :=
  Warned.countRerun (h.only (Only.releaseOp (A := [.reqs, .tiles]) _ _ _ (by decide) (Only.refl _ _)) (by decide) (by decide) (Pend.releaseOp _ _ _ h.flagged))

theorem Warned.foldl {α : Type} {f : State → α → State} (l : List α) (h : Warned w q s) (hf : ∀ x a, Warned w q x → Warned w q (f x a)) :
    Warned w q (l.foldl f s) := List.foldlRecOn l f h fun x hx a _ => hf x a hx

end

/-- The state in which a supply warning finds the work of the engine: counted, flagged and recorded. -/
def warnedState (s : State) : State := clkRecord 1 false (raiseG gSupWarn (countWarn (modSup (fun p => { p with active := true }) s)))

theorem fxSupplyWarn_idle {s : State} (h : s.start.rst = true ∨ s.sup.active = true) : fxSupplyWarn s = s := by
  rw [fxSupplyWarn, whenS_false]
  rcases h with h | h <;> simp [h]

theorem fxSupplyWarn_due {s : State} (hrst : s.start.rst = false) (hactive : s.sup.active = false) :
    fxSupplyWarn s = (jobsAtWork s).foldl jobHit (s.reqs.foldl supplyHit (warnedState s)) := by
  rw [fxSupplyWarn, whenS_true (by rw [hrst, hactive]; rfl)]
  rfl

theorem warnedState_only (s : State) : Only (.sup :: recordParts) s (warnedState s) :=
  Only.clkRecord _ _ _ (by decide) (Only.raiseG _ _ (by decide) (Only.modSup _ (by decide) (Only.modSup _ (by decide) (Only.refl _ _))))

theorem clkRecord_seq {s : State} (event : Nat) (reset : Bool) (h : s.start.cleared = true) : (clkRecord event reset s).jrn.seq = s.jrn.seq + 1 := by
  rw [clkRecord, if_pos h, journal_seq]

theorem Pend.clkRecord {e : Nat} (event : Nat) (reset : Bool) {s : State} (h : Pend e s) : Pend e (Machine.clkRecord event reset s) := by
  rw [Machine.clkRecord]
  split
  · exact Pend.journal _ _ _ _ h
  · exact h

theorem clkRecord_sup (event : Nat) (reset : Bool) (s : State) : (clkRecord event reset s).sup = s.sup :=
  (Only.clkRecord (A := recordParts) event reset s (by decide) (Only.refl _ _)).2 .sup (by decide)

theorem warnedState_sup (s : State) : (warnedState s).sup = { s.sup with active := true, warns := bump32 s.sup.warns, sat := if tops s.sup.warns then s.sup.sat ||| 1 else s.sup.sat } :=
  clkRecord_sup _ _ _

theorem warnedState_warned (s : State) : Warned (bump32 s.sup.warns) (warnedState s).jrn.seq (warnedState s) where
  active := by rw [warnedState_sup]
  warns := by rw [warnedState_sup]
  flagged := Pend.clkRecord _ _ (raiseG_bit _ _ (by decide))
  records := rfl

theorem fxSupplyWarn_warned {s : State} (hrst : s.start.rst = false) (hactive : s.sup.active = false) :
    Warned (bump32 s.sup.warns) (warnedState s).jrn.seq (fxSupplyWarn s) := by
  rw [fxSupplyWarn_due hrst hactive]
  exact ((warnedState_warned s).foldl _ fun _ r h => h.supplyHit r).foldl _ fun _ j h => h.jobHit j

/-- A request that a supply warning finds with no operation at work. -/
def Rests (r : Req) : Prop := r.phase ≠ .running ∨ (List.range r.ops.length).filter (atWork r) = []

theorem supplyHit_rests {r : Req} (h : Rests r) (s : State) : supplyHit s r = s := by
  rw [supplyHit]
  exact if_pos h

theorem foldl_supplyHit_rests {l : List Req} (h : ∀ r ∈ l, Rests r) (s : State) : l.foldl supplyHit s = s := by
  induction l generalizing s with
  | nil => rfl
  | cons r l ih => rw [List.foldl_cons, supplyHit_rests (h r (List.mem_cons_self ..)), ih fun q hq => h q (List.mem_cons_of_mem _ hq)]

section
variable {s : State} {r : Req} {l1 l2 : List Req} {i : Nat}

theorem req_of_unique (h : s.reqs = l1 ++ r :: l2) (hne : ∀ x, x ∈ l1 ++ l2 → x.id ≠ r.id) : s.req r.id = some r := by
  have hl1 : l1.find? (fun x => x.id = r.id) = none :=
    List.find?_eq_none.mpr fun x hx => by simpa using hne x (List.mem_append_left _ hx)
  rw [State.req, h, List.find?_append, hl1]
  simp

theorem foldl_supplyHit_at (h : s.reqs = l1 ++ r :: l2) (x : State) :
    s.reqs.foldl supplyHit x = l2.foldl supplyHit (supplyHit (l1.foldl supplyHit x) r) := by
  rw [h, List.foldl_append, List.foldl_cons]

theorem supplyHit_left (hrun : r.phase = .running)
    (hleft : ((List.range r.ops.length).filter (atWork r)).find? (fun i => decide (kindOfW (r.op i).w ≠ 3) && decide ((r.op i).output ≠ [])) = some i)
    (x : State) : supplyHit x r = endChain r.id ⟨0x60, 1, i⟩ x := by
  have hwork : ¬ (r.phase ≠ .running ∨ (List.range r.ops.length).filter (atWork r) = []) := by
    rintro (h | h)
    · exact h hrun
    · rw [h] at hleft
      cases hleft
  rw [supplyHit]
  dsimp only
  rw [if_neg hwork, hleft]

/-- A request of which output has left a tile ends (R408). -/
theorem fxSupplyWarn_ends (hrst : s.start.rst = false) (hactive : s.sup.active = false) (h : s.reqs = l1 ++ r :: l2) (hne : ∀ x, x ∈ l1 ++ l2 → x.id ≠ r.id)
    (hrun : r.phase = .running)
    (hleft : ((List.range r.ops.length).filter (atWork r)).find? (fun i => decide (kindOfW (r.op i).w ≠ 3) && decide ((r.op i).output ≠ [])) = some i) :
    EndedWith (fxSupplyWarn s) r.id r ⟨0x60, 1, i⟩ := by
  have hstart : ButOps r.id r (warnedState s) := (ButOps.of_req (req_of_unique h hne)).only (warnedState_only s) (by decide)
  obtain ⟨l, hreq⟩ := hstart.foldl (f := supplyHit) l1 fun x q hq hx => hx.supplyHit (hne q (List.mem_append_left _ hq)).symm
  obtain ⟨r', hreq', hten, hentry, hphase, hout⟩ := endChain_ends ⟨0x60, 1, i⟩ hreq
  rw [fxSupplyWarn_due hrst hactive, foldl_supplyHit_at h, supplyHit_left hrun hleft]
  have hend : ButOps r.id r' (l2.foldl supplyHit (endChain r.id ⟨0x60, 1, i⟩ (l1.foldl supplyHit (warnedState s)))) :=
    (ButOps.of_req hreq').foldl l2 fun x q hq hx => hx.supplyHit (hne q (List.mem_append_right _ hq)).symm
  exact (hend.foldl (jobsAtWork s) fun x j _ hx => hx.jobHit j).ended hphase hout hten hentry

/-! ### An operation that runs again (R409) -/

/-- The operation is as at its start. -/
def Afresh (o : OpSt) : Prop := o.phase = .waiting ∧ o.tiles = [] ∧ o.output = [] ∧ o.consumed = 0

theorem afresh_modify {q : Req} {f : OpSt → OpSt} (hf : ∀ o, Afresh (f o)) : Afresh (Req.op { q with ops := q.ops.modify i f } i) := by
  rw [op_modify]
  split
  · exact hf _
  · next h =>
    have hi : q.ops.length ≤ i := by omega
    rw [Req.op, List.getD_eq_getElem?_getD, List.getElem?_eq_none hi]
    exact ⟨rfl, rfl, rfl, rfl⟩

/-- Request k goes on for the same tenant, with the same entry, in the same phase. -/
def GoesOnAs (k : Nat) (r : Req) (s : State) : Prop := ∃ q, s.req k = some q ∧ q.tenant = r.tenant ∧ q.entry = r.entry ∧ q.phase = r.phase

theorem ButOps.goesOnAs {k : Nat} (h : ButOps k r s) : GoesOnAs k r s := by
  obtain ⟨l, hreq⟩ := h
  exact ⟨_, hreq, rfl, rfl, rfl⟩

theorem GoesOnAs.modBuf {id : Nat} (b : Nat) (f : BufSt → BufSt) (h : GoesOnAs id r s) : GoesOnAs id r (Machine.modBuf id b f s) := by
  obtain ⟨q, hreq, hten, hentry, hphase⟩ := h
  exact ⟨_, modBuf_req_same b f hreq, hten, hentry, hphase⟩

theorem GoesOnAs.modOp_afresh {id : Nat} {f : OpSt → OpSt} (h : GoesOnAs id r s) (hf : ∀ o, Afresh (f o)) :
    RunsOn (modOp id i f s) id r (fun q => Afresh (q.op i)) := by
  obtain ⟨q, hreq, hten, hentry, hphase⟩ := h
  exact ⟨_, modOp_req_same i f hreq, hten, hentry, Or.inl hphase, afresh_modify hf⟩

theorem rerunOp_runs {id : Nat} (h : s.req id = some r) : RunsOn (rerunOp id i s) id r (fun q => Afresh (q.op i)) := by
  rw [rerunOp, h]
  have hfreed := (ButOps.of_req h).releaseOp id i
  dsimp only
  refine GoesOnAs.modOp_afresh ?_ fun o => ⟨rfl, rfl, rfl, rfl⟩
  split
  · refine GoesOnAs.modBuf _ _ ?_
    split
    · exact (hfreed.reqs (setStream_reqs ..)).goesOnAs
    · exact hfreed.goesOnAs
  · split
    · exact (hfreed.reqs (setStream_reqs ..)).goesOnAs
    · exact hfreed.goesOnAs

theorem runAgain_runs {id : Nat} (h : s.req id = some r) : RunsOn (runAgain id i s) id r (fun q => Afresh (q.op i)) := by
  obtain ⟨q, hreq, hten, hentry, hphase, hop⟩ := rerunOp_runs (i := i) h
  rw [runAgain]
  refine ⟨_, modOp_req_same i (fun o => { o with rerun := true }) hreq, hten, hentry, hphase, ?_⟩
  change Afresh (Req.op { q with ops := q.ops.modify i (fun o => { o with rerun := true }) } i)
  rw [op_modify]
  split
  · exact hop
  · exact hop

theorem runAgain_reruns (id : Nat) : (runAgain id i s).sup.reruns = bump32 s.sup.reruns := by
  have hsup : (modOp id i (fun o => { o with rerun := true }) (rerunOp id i s)).sup = s.sup :=
    (Only.modOp (A := [.reqs, .tiles, .streams]) _ _ _ _ (by decide) (Only.rerunOp _ _ _ (by decide) (Only.refl _ _))).2 .sup (by decide)
  exact congrArg (fun p => bump32 p.reruns) hsup

/-- The only operation at work, of which nothing has left and which reads no other's output, runs again alone (R409). -/
theorem supplyHit_again (hrun : r.phase = .running) (hwork : (List.range r.ops.length).filter (atWork r) = [i])
    (hleft : kindOfW (r.op i).w = 3 ∨ (r.op i).output = []) (hdraw : drawLeft r i = false)
    (hsrc : (r.op i).w.src = 0 ∨ i < (r.op i).w.src ∨ 8 ≤ (r.op i).w.src ∨ kindOfW (r.op i).w = 3) (x : State) :
    supplyHit x r = runAgain r.id i x := by
  have hmem : i ∈ (List.range r.ops.length).filter (atWork r) := by rw [hwork]; exact List.mem_singleton_self i
  have hlen : i < r.ops.length := List.mem_range.mp (List.mem_filter.mp hmem).1
  have hsources : sourceOps r 8 i = [] := by
    rw [sourceOps]
    refine if_neg ?_
    rintro ⟨h1, h2, h3, h4⟩
    rcases hsrc with h | h | h | h
    · omega
    · omega
    · omega
    · exact h4 h
  have hagain : (List.range r.ops.length).filter (fun j => decide (j ∈ [i]) || [i].any (fun i => decide (j ∈ sourceOps r 8 i))) = [i] := by
    have : (fun j => decide (j ∈ [i]) || [i].any (fun i => decide (j ∈ sourceOps r 8 i))) = fun j => j == i := by
      funext j
      exact Bool.eq_iff_iff.mpr (by simp [hsources])
    rw [this, List.filter_beq, List.count_eq_one_of_mem List.nodup_range (List.mem_range.mpr hlen)]
    rfl
  have hnone : [i].find? (fun i => decide (kindOfW (r.op i).w ≠ 3) && decide ((r.op i).output ≠ [])) = none := by
    rcases hleft with h | h <;> simp [h]
  rw [supplyHit]
  dsimp only
  rw [hwork, if_neg (by simp [hrun]), hnone]
  dsimp only
  rw [hagain, List.find?_singleton, hdraw]
  rfl

theorem fxSupplyWarn_again (hrst : s.start.rst = false) (hactive : s.sup.active = false) (h : s.reqs = l1 ++ r :: l2)
    (hne : ∀ x, x ∈ l1 ++ l2 → x.id ≠ r.id ∧ Rests x) (hrun : r.phase = .running) (hwork : (List.range r.ops.length).filter (atWork r) = [i])
    (hleft : kindOfW (r.op i).w = 3 ∨ (r.op i).output = []) (hdraw : drawLeft r i = false)
    (hsrc : (r.op i).w.src = 0 ∨ i < (r.op i).w.src ∨ 8 ≤ (r.op i).w.src ∨ kindOfW (r.op i).w = 3) (hjobs : jobsAtWork s = []) :
    fxSupplyWarn s = runAgain r.id i (warnedState s) := by
  rw [fxSupplyWarn_due hrst hactive, foldl_supplyHit_at h, hjobs, foldl_supplyHit_rests fun q hq => (hne q (List.mem_append_left _ hq)).2,
    foldl_supplyHit_rests fun q hq => (hne q (List.mem_append_right _ hq)).2, supplyHit_again hrun hwork hleft hdraw hsrc]
  rfl

end

/-! ### The end of a warning (R410) -/

/-- The deferred writes of a warning that has ended, done. -/
def undeferred (s : State) : State :=
  s.ks.deferred.foldl (fun s d => undefer d s) (modKs (fun k => { k with deferred := [] }) (modSup (fun p => { p with active := false }) s))

/-- The state from which everything goes on again: the deferred writes done, the end flagged and recorded. -/
def clearedState (s : State) : State := clkRecord 2 false (raiseG gSupClear (undeferred s))

/-- What goes on after a warning changes neither the measurements nor the supply's counters, and an event stays flagged. -/
theorem supplyGoesOn_facts (waits : List Nat) (x : State) :
    let t := settleAll (wakeBanks (eachN waits sendGroup x))
    Only (.tens :: .sch :: .reqs :: .tiles :: .ces :: .streams :: .ks :: .es :: .rbgs :: .fp :: .crs :: recordParts) x t ∧
      (Pend gSupClear x → Pend gSupClear t) :=
  ⟨Only.settleAll _ (by decide) (Only.wakeBanks _ (by decide) (Only.eachN _ (Only.refl _ _) fun p y hy => Only.sendGroup p y (by decide) hy)),
    fun h => Pend.settleAll _ (Pend.eachN _ (Pend.eachN _ h fun p y hy => Pend.sendGroup p y hy) fun t y hy => Pend.wakeBank t y hy)⟩

theorem undeferred_sup (s : State) : (undeferred s).sup = { s.sup with active := false } := by
  refine (Only.foldl (A := [.own, .notice, .sch, .reqs, .tiles, .ks, .meas, .jrn, .evPend, .pviol, .pvcnt, .crs, .out, .free]) s.ks.deferred (Only.refl _ _)
    fun y d hy => Only.undefer d y (by decide) hy).2 .sup (by decide)

theorem fxSupplyClear_due {s : State} (hactive : s.sup.active = true) :
    ∃ waits, fxSupplyClear s = settleAll (wakeBanks (eachN waits sendGroup (clearedState s))) :=
  ⟨_, by rw [fxSupplyClear, whenS_true hactive]; rfl⟩

theorem clearedState_meas (s : State) : (clearedState s).meas = (undeferred s).meas :=
  (Only.clkRecord (A := recordParts) _ _ _ (by decide) (Only.refl _ _)).2 .meas (by decide)

theorem fxSupplyClear_facts {s : State} (hactive : s.sup.active = true) :
    (fxSupplyClear s).sup = { s.sup with active := false } ∧ bitOf (fxSupplyClear s).evPend gSupClear = true ∧
      (fxSupplyClear s).meas = (undeferred s).meas := by
  obtain ⟨waits, hfx⟩ := fxSupplyClear_due hactive
  obtain ⟨honly, hflag⟩ := supplyGoesOn_facts waits (clearedState s)
  rw [hfx]
  refine ⟨?_, hflag (Pend.clkRecord _ _ (raiseG_bit _ _ (by decide))), (honly.2 .meas (by decide)).trans (clearedState_meas s)⟩
  exact (honly.2 .sup (by decide)).trans ((clkRecord_sup _ _ _).trans (undeferred_sup s))

/-! ### Retention (R412 to R414) -/

theorem Chn.dcMoved {k : Nat} {s0 s : State} (n : Nat) (h : Chn k s0 s) : Chn k s0 (Machine.dcMoved k n s) := by
  rw [Machine.dcMoved]
  refine Chn.ite ?_ ?_
  · exact Chn.modDc _ h
  · exact Chn.modDc _ h

theorem Chn.dcAdvance {k : Nat} {s0 s : State} (d : Desc) (h : Chn k s0 s) : Chn k s0 (Machine.dcAdvance k d s) := by
  rw [Machine.dcAdvance]
  dsimp only
  refine Chn.ite ?_ (Chn.ite ?_ ?_)
  · refine Chn.dcAtPoint ?_
    exact Chn.modDc _ h
  · refine Chn.ite ?_ ?_
    · refine Chn.dcFlushAll ?_
      exact Chn.modDc _ h
    · refine Chn.dcSettle (Chn.modDc _ (Chn.dcFlushAll ?_))
      exact Chn.modDc _ h
  · exact Chn.modDc _ h

theorem Chn.dcGather {k : Nat} {s0 s : State} (key addr : Nat) (data : Bytes) (h : Chn k s0 s) : Chn k s0 (Machine.dcGather k key addr data s) := by
  unfold Machine.dcGather
  dsimp only
  split
  · next g _ =>
    have hrest : Chn k s0 (Machine.modDc k (fun c => { c with lines := c.lines.filter (fun h => h.key != key) }) s) := Chn.modDc _ h
    refine Chn.ite (Chn.ite (Chn.dcWrite _ _ _ hrest) ?_) (Chn.ite (Chn.dcWrite _ _ _ hrest) (Chn.ite (Chn.dcWrite _ _ _ (Chn.dcWrite _ _ _ hrest)) ?_))
    · exact Chn.modDc _ hrest
    · refine Chn.modDc _ ?_
      exact Chn.dcWrite _ _ _ hrest
  · refine Chn.ite (Chn.dcWrite _ _ _ h) ?_
    exact Chn.modDc _ h

theorem Chn.dcMove {k : Nat} {s0 s : State} (d : Desc) (data : Bytes) (h : Chn k s0 s) : Chn k s0 (Machine.dcMove k d data s) := by
  rw [Machine.dcMove]
  exact Chn.ite (Chn.dcGather _ _ _ h) (Chn.dcMoved _ (Chn.dcAdvance _ (Chn.dcGather _ _ _ h)))

theorem Chn.dcMoveRead {k : Nat} {s0 s : State} (d : Desc) (h : Chn k s0 s) : Chn k s0 (Machine.dcMoveRead k d s) := by
  rw [Machine.dcMoveRead]
  split
  · exact Chn.dcMove _ _ (Chn.modDc _ h)
  · exact h

theorem Chn.dcComplete {k : Nat} {s0 s : State} (n : Nat) (h : Chn k s0 s) : Chn k s0 (Machine.dcComplete k n s) := by
  induction n generalizing s with
  | zero => exact h
  | succ n ih =>
    rw [Machine.dcComplete]
    split
    · split
      · exact ih (Chn.dcMoveRead _ h)
      · exact h
    · exact h

theorem Chn.dcSetPause {k : Nat} {s0 s : State} (h : Chn k s0 s) : Chn k s0 (Machine.dcSetPause k s) := by
  rw [Machine.dcSetPause]
  dsimp only
  have hflushed := Chn.dcFlushAll (Chn.dcComplete (s.dc k).ahead.length (Chn.modDc (fun c => { c with pause := true }) h))
  split
  · split
    · exact hflushed
    · exact Chn.modDc _ hflushed
  · exact Chn.modDc _ h

/-- A channel that holds nothing read and nothing gathered pauses at once (R320). -/
theorem dcSetPause_atOnce {k : Nat} {s : State} (hst : (s.dc k).st = .running ∨ (s.dc k).st = .waiting) (hlines : (s.dc k).lines = [])
    (hahead : (s.dc k).ahead = []) :
    dcSetPause k s = modDc k (fun c => { c with st := .paused, rstall := false, ahead := [] }) (modDc k (fun c => { c with pause := true }) s) := by
  rw [dcSetPause]
  dsimp only
  rw [if_pos hst, hahead, List.length_nil, dcComplete, dcFlushAll, modDc_dc_same]
  dsimp only
  rw [hlines, List.length_nil, dcFlush, if_neg ?_]
  rw [modDc_dc_same]
  rcases hst with h | h <;> rw [h] <;> decide

theorem dcSetPause_idle {k : Nat} {s : State} (hst : (s.dc k).st = .running ∨ (s.dc k).st = .waiting) (hlines : (s.dc k).lines = [])
    (hahead : (s.dc k).ahead = []) : (dcSetPause k s).dc k = { s.dc k with st := .paused, pause := true, rstall := false } := by
  rw [dcSetPause_atOnce hst hlines hahead, modDc_dc_same, modDc_dc_same]
  generalize s.dc k = c at hahead
  cases c
  dsimp only at hahead
  rw [hahead]

/-- The channels that a request for retention pauses. -/
def pausing (s : State) : List Nat := (List.range 64).filter (fun k => decide ((s.dc k).st = .running ∨ (s.dc k).st = .waiting))

theorem mem_pausing {s : State} {k : Nat} : k ∈ pausing s ↔ k < 64 ∧ ((s.dc k).st = .running ∨ (s.dc k).st = .waiting) := by
  simp [pausing]

theorem fxRetReqRise_due {s : State} (hserving : s.start.serving = true) (hreq : s.ret.req = false) (hasleep : s.ret.asleep = false) :
    fxRetReqRise s = eachN (pausing s) dcSetPause (modRet (fun r => { r with req := true }) s) := by
  rw [fxRetReqRise, whenS_true (by simp [hserving, hreq, hasleep])]
  rfl

theorem fxRetReqRise_idle {s : State} (h : s.start.serving = false ∨ s.ret.req = true ∨ s.ret.asleep = true) : fxRetReqRise s = s := by
  rw [fxRetReqRise, whenS_false]
  rcases h with h | h | h <;> simp [h]

theorem pausing_dc_ne {l : List Nat} {s : State} {k : Nat} (hk : k ∉ l) : (eachN l dcSetPause s).dc k = s.dc k := by
  induction l generalizing s with
  | nil => rfl
  | cons i l ih =>
    obtain ⟨hi, hl⟩ := not_or.mp (fun h => hk (List.mem_cons.mpr h))
    exact (ih hl).trans ((Chn.dcSetPause (Chn.refl i s)).1 k hi)

theorem pausing_dc {s : State} {k : Nat} (hk : k < 64) (hst : (s.dc k).st = .running ∨ (s.dc k).st = .waiting) (hlines : (s.dc k).lines = [])
    (hahead : (s.dc k).ahead = []) (x : State) (hx : x.dc k = s.dc k) :
    (eachN (pausing s) dcSetPause x).dc k = { s.dc k with st := .paused, pause := true, rstall := false } := by
  refine eachN_list_at (P := fun y => y.dc k = s.dc k) (mem_pausing.mpr ⟨hk, hst⟩) (List.nodup_range.filter _) hx
    (fun i y _ hi hy => ((Chn.dcSetPause (Chn.refl i y)).1 k hi.symm).trans hy) (fun y hy => ?_)
    (fun i y _ hi hy => ((Chn.dcSetPause (Chn.refl i y)).1 k hi.symm).trans hy)
  rw [dcSetPause_idle (by rw [hy]; exact hst) (by rw [hy]; exact hlines) (by rw [hy]; exact hahead), hy]

/-- Nothing is in flight, and retention may be entered (R413). -/
def RetentionReady (s : State) : Prop :=
  s.ret.req = true ∧ s.ret.asleep = false ∧ s.reqs = [] ∧ s.fp.loans = [] ∧ s.gen.st ≠ .fence ∧ replacing s = false ∧ s.sup.active = false ∧
    allInBand s = true ∧ s.crs.queue = [] ∧ s.dcs.all (fun p => decide (p.2.st ≠ .running ∧ p.2.st ≠ .waiting)) = true

theorem retentionReady_iff (s : State) :
    (s.ret.req && !s.ret.asleep && decide (s.reqs = []) && decide (s.fp.loans = []) && decide (s.gen.st ≠ .fence) && !replacing s
      && !s.sup.active && allInBand s && decide (s.crs.queue = []) && s.dcs.all (fun p => decide (p.2.st ≠ .running ∧ p.2.st ≠ .waiting))) = true ↔
      RetentionReady s := by
  simp only [RetentionReady, Bool.and_eq_true, Bool.not_eq_true', decide_eq_true_eq, and_assoc]

theorem fxRetentionEntry_idle {s : State} (h : ¬ RetentionReady s) : fxRetentionEntry s = s := by
  rw [fxRetentionEntry, whenS_false (Bool.eq_false_iff.mpr fun hr => h ((retentionReady_iff s).mp hr))]

theorem Tile.asleep_asleep (u : Tile) : u.asleep.asleep = u.asleep := by
  simp only [Tile.asleep]
  split <;> rfl

/-- The count stops, and the tiles lose their state (R413). -/
def tilesAsleep (s : State) : State := eachN (List.range 24) (fun t => modTile t Tile.asleep) (setRun false s)

/-- What a submission ring forgets (R413). -/
def Sq.forget (q : Sq) : Sq := { q with cache := [], flight := [], charges := [] }

/-- The rings forget what they have read ahead. -/
def ringsForget (s : State) : State := eachN (List.range 256) (fun i => modSq (i / 16) (i % 16) Sq.forget) s

def ClkMon.quiet (m : ClkMon) : ClkMon := { m with count := 0, clean := 0 }

theorem fxRetentionEntry_due {s : State} (h : RetentionReady s) :
    fxRetentionEntry s = modClk (fun c => { c with ctl := c.ctl.quiet, tile := c.tile.quiet, aux := c.aux.quiet })
      (ringsForget (modRet (fun r => { r with ack := true, asleep := true, tested := false }) (tilesAsleep s))) := by
  rw [fxRetentionEntry, whenS_true ((retentionReady_iff s).mpr h)]
  rfl

theorem setRun_false_facts (s : State) :
    Only (.own :: .time :: recordParts) s (setRun false s) ∧ (setRun false s).run = false ∧ (setRun false s).time.ns = s.time.ns := by
  cases h : s.run
  · rw [setRun, if_pos h.symm]
    exact ⟨Only.refl _ _, h, rfl⟩
  · obtain ⟨honly, htime, hctl, -, -⟩ := setRun_stops h
    refine ⟨honly, ?_, by rw [htime]⟩
    rw [State.run, hctl, bitOf]
    simp

theorem tilesAsleep_only (s : State) : Only (.own :: .time :: .tiles :: recordParts) s (tilesAsleep s) :=
  Only.eachN _ ((setRun_false_facts s).1.mono (by decide)) fun _ _ hy => Only.modTile _ _ (by decide) hy

theorem tilesAsleep_run (s : State) : (tilesAsleep s).run = false ∧ (tilesAsleep s).time.ns = s.time.ns := by
  obtain ⟨-, hrun, hns⟩ := setRun_false_facts s
  have honly : Only [.tiles] (setRun false s) (tilesAsleep s) := Only.eachN _ (Only.refl _ _) fun _ _ hy => Only.modTile _ _ (by decide) hy
  exact ⟨(honly.run_eq (by decide)).trans hrun, (congrArg TimeUnit.ns (honly.2 .time (by decide))).trans hns⟩

theorem tilesAsleep_tile {x : Nat} (hx : x < 24) (s : State) : (tilesAsleep s).tile x = (s.tile x).asleep := by
  rw [tilesAsleep, eachN_modTile _ _ Tile.asleep_asleep, if_pos (List.mem_range.mpr hx), tiles_of_only (setRun_false_facts s).1 (by decide)]

theorem ringsForget_only (s : State) : Only [.sqs] s (ringsForget s) := Only.eachN _ (Only.refl _ _) fun _ _ hy => Only.modSq _ _ _ (by decide) hy

theorem ringsForget_sq {n m : Nat} (hn : n < 16) (hm : m < 16) (s : State) : (ringsForget s).sq n m = (s.sq n m).forget := by
  have hother (i : Nat) (hi : i < 256) (hne : i ≠ 16 * n + m) : rix n m ≠ rix (i / 16) (i % 16) := by simp only [rix]; omega
  refine eachN_at (P := fun x => x.sq n m = s.sq n m) (Q := fun x => x.sq n m = (s.sq n m).forget) (k := 16 * n + m) (by omega) rfl
    (fun i x hi hne hx => (modSq_sq_ne _ _ (hother i hi hne)).trans hx) (fun x hx => ?_)
    (fun i x hi hne hx => (modSq_sq_ne _ _ (hother i hi hne)).trans hx)
  rw [show (16 * n + m) / 16 = n by omega, show (16 * n + m) % 16 = m by omega, modSq_sq_same, hx]

/-- What retention keeps, and what it loses (R351, R413). -/
theorem fxRetentionEntry_facts {s t : State} (h : RetentionReady s) (ht : t = fxRetentionEntry s) :
    t.ret = { s.ret with ack := true, asleep := true, tested := false } ∧ t.run = false ∧ t.time.ns = s.time.ns ∧
      (∀ x, x < 24 → t.tile x = (s.tile x).asleep) ∧ (∀ n m, n < 16 → m < 16 → t.sq n m = (s.sq n m).forget) ∧
      t.clk = { s.clk with ctl := s.clk.ctl.quiet, tile := s.clk.tile.quiet, aux := s.clk.aux.quiet } := by
  rw [fxRetentionEntry_due h] at ht
  have hasleep := tilesAsleep_only s
  obtain ⟨hrun, hns⟩ := tilesAsleep_run s
  have htile (x : Nat) (hx : x < 24) := tilesAsleep_tile hx s
  generalize tilesAsleep s = x at hasleep hrun hns htile ht
  generalize hy : modRet (fun r => { r with ack := true, asleep := true, tested := false }) x = y at ht
  have hyx : Only [.ret] x y := hy ▸ Only.modRet _ (by decide) (Only.refl _ _)
  have hzy : Only [.sqs] y (ringsForget y) := ringsForget_only y
  have hsq (n m : Nat) (hn : n < 16) (hm : m < 16) := ringsForget_sq hn hm y
  generalize ringsForget y = z at hzy hsq ht
  have htz : Only [.clk] z t := ht ▸ Only.modClk _ (by decide) (Only.refl _ _)
  have htx : Only [.ret, .sqs, .clk] x t := ((hyx.mono (by decide)).trans (hzy.mono (by decide))).trans (htz.mono (by decide))
  refine ⟨?_, (htx.run_eq (by decide)).trans hrun, (congrArg TimeUnit.ns (htx.2 .time (by decide))).trans hns,
    fun k hk => (tiles_of_only htx (by decide) k).trans (htile k hk), fun n m hn hm => ?_, ?_⟩
  · have hret : t.ret = y.ret := (htz.2 .ret (by decide)).trans (hzy.2 .ret (by decide))
    rw [hret, ← hy]
    exact congrArg (fun r => { r with ack := true, asleep := true, tested := false }) (hasleep.2 .ret (by decide))
  · rw [sq_of_only htz (by decide), hsq n m hn hm, sq_of_only hyx (by decide), sq_of_only hasleep (by decide)]
  · have hclk : z.clk = s.clk := (hzy.2 .clk (by decide)).trans ((hyx.2 .clk (by decide)).trans (hasleep.2 .clk (by decide)))
    rw [ht]
    exact congrArg (fun c => { c with ctl := c.ctl.quiet, tile := c.tile.quiet, aux := c.aux.quiet }) hclk

/-- A wake is behind the first window in band of every monitored clock, and no supply warning holds it. -/
theorem waking_iff (s : State) :
    waking s = true ↔ s.ret.asleep = true ∧ s.ret.req = false ∧ s.start.osc = true ∧ s.sup.active = false ∧
      ∀ k, monitored s k = true → 1 ≤ (s.mon k).clean := by
  have hwindow : firstWindow s = true ↔ ∀ k, monitored s k = true → 1 ≤ (s.mon k).clean := by
    simp only [firstWindow, List.all_eq_true, Bool.or_eq_true, Bool.not_eq_true', decide_eq_true_eq]
    refine ⟨fun h k hk => ?_, fun h k _ => ?_⟩
    · rcases h k (by cases k <;> decide) with hoff | hclean
      · rw [hoff] at hk
        cases hk
      · exact hclean
    · cases hk : monitored s k
      · exact Or.inl rfl
      · exact Or.inr (h k hk)
  simp only [waking, Bool.and_eq_true, Bool.not_eq_true', hwindow]
  tauto

theorem fxKnownAnswerTestsDone_wakes {s : State} (h : waking s = true) :
    fxKnownAnswerTestsDone 0 0 true s = modRet (fun r => { r with tested := true }) s := by
  have htiles : (List.range 24).filter (fun t => (0 : BitVec 24).toNat.testBit t && decide ((s.tile t).st = .healthy)) = [] := by simp
  have hcs : (List.range 12).filter (0 : BitVec 12).toNat.testBit = [] := by decide
  rw [fxKnownAnswerTestsDone]
  dsimp only
  rw [whenS_true (by rw [h]; rfl), htiles, hcs, if_neg (by decide), if_pos h]
  rfl

theorem fxWakeComplete_idle {s : State} (h : (waking s && s.ret.tested) = false) : fxWakeComplete s = s := whenS_false h

theorem fxWakeComplete_due {s : State} (h : (waking s && s.ret.tested) = true) :
    fxWakeComplete s = raiseG gWake (modRet (fun r => { r with ack := false, asleep := false, tested := false }) s) := whenS_true h

end Sys2Proof.Machine

namespace Sys2Proof.SupplyAndRetention
open Sys2Proof.Machine

/-- Settles O55, by one lemma per event: what a warning leaves of its counters, of the requests and of the engine's work, what its end does, and what
retention loses. -/
theorem supplyAndRetention : Obligations.SupplyAndRetention := by
  refine ⟨fun s h => congrArg Host.Outcome.next (fxSupplyWarn_idle h), fun s hrst hactive => ?_, fun s => ⟨fun h => ?_, fun h => ?_⟩, fun s => ⟨fun h1 h2 h3 => ?_, fun h => ?_⟩,
    fun s => ⟨fun h => ?_, fun h => ?_⟩, fun s => ⟨fun h => ?_, fun h1 h2 => ?_, fun h1 h2 => ?_⟩, fun s => ?_⟩
  · have hwarned := fxSupplyWarn_warned hrst hactive
    have hdue := fxSupplyWarn_due hrst hactive
    refine ⟨_, rfl, Only.fxSupplyWarn _ (by decide) (Only.refl _ _), hwarned.active, hwarned.warns, hwarned.flagged,
      fun hcleared => hwarned.records.trans (clkRecord_seq _ _ hcleared), ?_⟩
    intro rests
    refine ⟨fun hjobs hrest => ?_, fun j hjobs hrest => ?_, fun r l1 l2 i h hne hrun hleft => fxSupplyWarn_ends hrst hactive h hne hrun hleft,
      fun r l1 l2 i h hne hrun hwork hleft hdraw hsrc hjobs => ?_⟩
    · have hfx : fxSupplyWarn s = warnedState s := by rw [hdue, hjobs, foldl_supplyHit_rests hrest]; rfl
      refine (congrArg (fun t => t.reqs = s.reqs ∧ t.tiles = s.tiles ∧ t.sup.reruns = s.sup.reruns) hfx).mpr ?_
      have honly := warnedState_only s
      exact ⟨honly.2 .reqs (by decide), honly.2 .tiles (by decide), by rw [warnedState_sup]⟩
    · have hfx : fxSupplyWarn s = jobHit (warnedState s) j := by rw [hdue, hjobs, foldl_supplyHit_rests hrest]; rfl
      refine (congrArg (fun t => t.sup.reruns = bump32 s.sup.reruns ∧ t.sch.jobs = s.sch.jobs ∧ jobTile t j = none) hfx).mpr ?_
      obtain ⟨hreruns, hsch, htile⟩ := jobHit_facts (warnedState s) j
      exact ⟨hreruns.trans (by rw [warnedState_sup]), by rw [hsch, (warnedState_only s).2 .sch (by decide)], htile⟩
    · have hfx := fxSupplyWarn_again hrst hactive h hne hrun hwork hleft hdraw hsrc hjobs
      refine (congrArg (fun t => t.sup.reruns = bump32 s.sup.reruns ∧ RunsOn t r.id r (fun q => Afresh (q.op i))) hfx).mpr ?_
      have hreq : (warnedState s).req r.id = some r :=
        (req_of_reqs ((warnedState_only s).2 .reqs (by decide)) _).trans (req_of_unique h fun x hx => (hne x hx).1)
      exact ⟨(runAgain_reruns _).trans (by rw [warnedState_sup]), runAgain_runs hreq⟩
  · exact congrArg Host.Outcome.next (whenS_false h)
  · exact ⟨_, rfl, Only.fxSupplyClear _ (by decide) (Only.refl _ _), fxSupplyClear_facts h⟩
  · have honly : Only [.tens, .dcs, .out] (modRet (fun r => { r with req := true }) s) (fxRetReqRise s) := by
      rw [fxRetReqRise_due h1 h2 h3]
      exact Only.eachN _ (Only.refl _ _) fun _ _ hy => Only.dcSetPause _ _ (by decide) hy
    refine ⟨_, rfl, Only.fxRetReqRise _ (by decide) (Only.refl _ _), honly.2 .ret (by decide), fun k hrun hwait => ?_, fun k hk hst hlines hahead => ?_⟩
    · rw [fxRetReqRise_due h1 h2 h3]
      exact pausing_dc_ne fun hmem => (mem_pausing.mp hmem).2.elim hrun hwait
    · rw [fxRetReqRise_due h1 h2 h3]
      exact pausing_dc hk hst hlines hahead _ rfl
  · exact congrArg Host.Outcome.next (fxRetReqRise_idle h)
  · exact congrArg Host.Outcome.next (fxRetentionEntry_idle h)
  · exact ⟨_, rfl, Only.fxRetentionEntry _ (by decide) (Only.refl _ _), fxRetentionEntry_facts h rfl⟩
  · exact congrArg Host.Outcome.next (whenS_false h)
  · have hfx : fxRetReqFall s = modRet (fun r => { r with req := false }) s := by
      rw [fxRetReqFall, whenS_true h1]
      exact if_neg (by rw [h2]; decide)
    exact ⟨_, congrArg Host.Outcome.next hfx, Only.modRet _ (by decide) (Only.refl _ _), rfl⟩
  · have hfx : fxRetReqFall s = modStart (fun t => { t with osc := false }) (modRet (fun r => { r with req := false }) s) := by
      rw [fxRetReqFall, whenS_true h1]
      exact if_pos h2
    exact ⟨_, congrArg Host.Outcome.next hfx, Only.modStart _ (by decide) (Only.modRet _ (by decide) (Only.refl _ _)), rfl, rfl⟩
  · intro under woken
    refine ⟨fun h => ?_, fun h => ?_, fun h => ?_⟩
    · exact ⟨_, congrArg Host.Outcome.next (fxKnownAnswerTestsDone_wakes ((waking_iff s).mpr h)), Only.modRet _ (by decide) (Only.refl _ _), rfl⟩
    · refine congrArg Host.Outcome.next (fxWakeComplete_idle (Bool.eq_false_iff.mpr fun hw => h ?_))
      obtain ⟨hwaking, htested⟩ := Bool.and_eq_true_iff.mp hw
      exact ⟨(waking_iff s).mp hwaking, htested⟩
    · have hwoken : (waking s && s.ret.tested) = true := by rw [(waking_iff s).mpr h.1, h.2]; rfl
      exact ⟨_, congrArg Host.Outcome.next (fxWakeComplete_due hwoken), Only.raiseG _ _ (by decide) (Only.modRet _ (by decide) (Only.refl _ _)), rfl,
        raiseG_bit _ _ (by decide)⟩

end Sys2Proof.SupplyAndRetention
end

section
/-!
The instructions of a trowel program but the moves (R328 to R330), with the statement O47: what each leaves of the channel's registers, and where the
channel goes on.
-/

namespace Sys2Proof.Machine

/-! ### An instruction that changes the channel's registers and goes on -/

/-- Every other channel stays, channel k goes on at item d with the program p (R328). -/
def StepsTo (s t : State) (k d : Nat) (p : Chan) : Prop := Only chanParts s t ∧ OtherDcs k s t ∧ GoesOn s t k d ∧ (t.dc k).prog = { p with desc := d }

section
variable {k : ChanIx} {s : State} {b : Bytes}

/-- Where channel k goes on is the same for two states of it. -/
structure KeepsCourse (c' c : Chan) : Prop where
  dcount : c'.dcount = c.dcount
  pref : c'.pref = c.pref
  credit : c'.credit = c.credit
  dbase : c'.dbase = c.dbase
  cfg : c'.cfg = c.cfg

theorem KeepsCourse.of_eq {c' c : Chan} (h : c' = c) : KeepsCourse c' c := h ▸ ⟨rfl, rfl, rfl, rfl, rfl⟩

theorem KeepsCourse.goesOn {x t : State} {k d : Nat} (h : KeepsCourse (x.dc k) (s.dc k)) (honly : Only chanParts s x) (hgoes : GoesOn x t k d) :
    GoesOn s t k d := by
  have hlen : (x.dc k).itemLen = (s.dc k).itemLen := congrArg (fun w => if bitOf w 0 then 16 else 48) h.cfg
  refine hgoes.of (honly.2 .start (by decide)) (honly.gen_eq (by decide) (by decide)) ?_ h.pref h.credit ?_ hlen
  · rw [Chan.count, Chan.count, h.dcount]
  · rw [Chan.itemAddr, Chan.itemAddr, hlen, h.dbase]

/-- What an instruction does before it goes on leaves the other channels, and the course of its own. -/
theorem dcGoto_steps {A : List Part} {x : State} (d : Nat) (hf : (x.dc k.val).fetching = false) (honly : Only A s x) (hA : A ⊆ chanParts)
    (hothers : OtherDcs k.val s x) (h : KeepsCourse (x.dc k.val) (s.dc k.val)) : StepsTo s (dcGoto k.val d x) k.val d (x.dc k.val).prog := by
  obtain ⟨hgo, hother, hgoes, hprog⟩ := tGo (k := k) (s := x) d hf
  have hx : Only chanParts s x := honly.mono hA
  exact ⟨hx.trans hgo, fun j hj => (hother j hj).trans (hothers j hj), h.goesOn hx hgoes, hprog⟩

theorem dcGoto_modDc_steps (f : Chan → Chan) (d : Nat) (hf : (f (s.dc k.val)).fetching = false) (h : KeepsCourse (f (s.dc k.val)) (s.dc k.val)) :
    StepsTo s (dcGoto k.val d (modDc k.val f s)) k.val d (f (s.dc k.val)).prog := by
  rw [← modDc_dc_same k.val f s] at hf h ⊢
  exact dcGoto_steps d hf (Only.modDc _ _ (by decide) (Only.refl [.dcs] s)) (by decide) (fun j hj => modDc_dc_ne _ _ hj) h

theorem tNext_modDc_steps (f : Chan → Chan) (hf : (f (s.dc k.val)).fetching = false) (h : KeepsCourse (f (s.dc k.val)) (s.dc k.val))
    (hdesc : (f (s.dc k.val)).desc = (s.dc k.val).desc) :
    StepsTo s (tNext k (modDc k.val f s)) k.val ((s.dc k.val).desc + 1) (f (s.dc k.val)).prog := by
  rw [tNext, modDc_dc_same, hdesc]
  exact dcGoto_modDc_steps f _ hf h

/-- Where an instruction has left the channels as they were. -/
theorem dcGoto_steps_from {A : List Part} {x : State} (d : Nat) (hf : (s.dc k.val).fetching = false) (honly : Only A s x) (hA : A ⊆ chanParts)
    (hdc : ∀ j, x.dc j = s.dc j) : StepsTo s (dcGoto k.val d x) k.val d (s.dc k.val).prog := by
  rw [← hdc] at hf ⊢
  exact dcGoto_steps d hf honly hA (fun j _ => hdc j) (KeepsCourse.of_eq (hdc _))

theorem tNext_steps_same (hf : (s.dc k.val).fetching = false) :
    StepsTo s (tNext k s) k.val ((s.dc k.val).desc + 1) (s.dc k.val).prog :=
  dcGoto_steps_from _ hf (Only.refl [] s) (by decide) fun _ => rfl

/-! ### SETA, ADDA, SETC and XCFG -/

theorem fxSeta_steps (h : AtOp s k 0x01 b) :
    StepsTo s (fxSeta k s) k.val ((s.dc k.val).desc + 1)
      { (s.dc k.val).prog with aregs := (s.dc k.val).aregs.put 0 (tRa b) (BitVec.ofNat 48 (tI64 b)) } := by
  rw [fxSeta, tRun_at h]
  exact tNext_modDc_steps _ h.fetch ⟨rfl, rfl, rfl, rfl, rfl⟩ rfl

theorem fxAdda_steps (h : AtOp s k 0x02 b) {v : Int} (hv : v = (((s.dc k.val).aregs.look 0 (tRa b)).toNat : Int) + signed 32 (tI32 b))
    (hlow : 0 ≤ v) (hhigh : v < 2 ^ 48) :
    StepsTo s (fxAdda k s) k.val ((s.dc k.val).desc + 1)
      { (s.dc k.val).prog with aregs := (s.dc k.val).aregs.put 0 (tRa b) (BitVec.ofNat 48 v.toNat) } := by
  have hsum : (tA s k (tRa b) : Int) + signed 32 (tI32 b) = v := hv.symm
  rw [fxAdda, tRun_at h]
  dsimp only
  rw [hsum, if_neg (by omega)]
  exact tNext_modDc_steps _ h.fetch ⟨rfl, rfl, rfl, rfl, rfl⟩ rfl

theorem dcUnsup_facts (k detail : Nat) (s : State) :
    Only chanParts s (dcUnsup k detail s) ∧ OtherDcs k s (dcUnsup k detail s) ∧ ChanStopped s (dcUnsup k detail s) k stUnsupported detail ∧
      ((dcUnsup k detail s).dc k).prog = (s.dc k).prog := by
  obtain ⟨honly, ⟨hother, hprog, -⟩, hstopped, -⟩ := dcStop_facts k stUnsupported detail 0 .read 0 s
  exact ⟨honly, hother, hstopped, hprog⟩

theorem fxAdda_stops (h : AtOp s k 0x02 b) {v : Int} (hv : v = (((s.dc k.val).aregs.look 0 (tRa b)).toNat : Int) + signed 32 (tI32 b))
    (hout : v < 0 ∨ 2 ^ 48 ≤ v) : fxAdda k s = dcUnsup k.val 0x82 s := by
  have hsum : (tA s k (tRa b) : Int) + signed 32 (tI32 b) = v := hv.symm
  rw [fxAdda, tRun_at h]
  dsimp only
  rw [hsum, if_pos hout]

theorem fxSetc_steps (h : AtOp s k 0x03 b) :
    StepsTo s (fxSetc k s) k.val ((s.dc k.val).desc + 1)
      { (s.dc k.val).prog with cregs := (s.dc k.val).cregs.put 0 (tRa b) (BitVec.ofNat 32 (tI32 b)) } := by
  rw [fxSetc, tRun_at h]
  exact tNext_modDc_steps _ h.fetch ⟨rfl, rfl, rfl, rfl, rfl⟩ rfl

theorem fxXcfg_steps (h : AtOp s k 0x06 b) :
    StepsTo s (fxXcfg k s) k.val ((s.dc k.val).desc + 1) { (s.dc k.val).prog with xcfg := some (BitVec.ofNat 13 (tF b + 256 * tI32 b)) } := by
  rw [fxXcfg, tRun_at h]
  exact tNext_modDc_steps _ h.fetch ⟨rfl, rfl, rfl, rfl, rfl⟩ rfl

/-! ### LOOP and JUMP -/

/-- The counter that a LOOP names. -/
def loopCount (s : State) (k : ChanIx) (b : Bytes) : Nat := ((s.dc k.val).cregs.look 0 (tRa b)).toNat

theorem fxLoop_eq (h : AtOp s k 0x08 b) :
    fxLoop k s = if loopCount s k b = 0 then tNext k s else if loopCount s k b = 1 then tNext k (tSetC k (tRa b) 0 s)
      else dcGoto k.val (tI32 b) (tSetC k (tRa b) (loopCount s k b - 1) s) := by
  rw [fxLoop, tRun_at h]
  rfl

theorem fxLoop_jumps (h : AtOp s k 0x08 b) (hv : 2 ≤ loopCount s k b) :
    StepsTo s (fxLoop k s) k.val (tI32 b)
      { (s.dc k.val).prog with cregs := (s.dc k.val).cregs.put 0 (tRa b) (BitVec.ofNat 32 (loopCount s k b - 1)) } := by
  rw [fxLoop_eq h, if_neg (by omega), if_neg (by omega)]
  exact dcGoto_modDc_steps _ _ h.fetch ⟨rfl, rfl, rfl, rfl, rfl⟩

theorem fxLoop_ends (h : AtOp s k 0x08 b) (hv : loopCount s k b = 1) :
    StepsTo s (fxLoop k s) k.val ((s.dc k.val).desc + 1) { (s.dc k.val).prog with cregs := (s.dc k.val).cregs.put 0 (tRa b) 0 } := by
  rw [fxLoop_eq h, if_neg (by omega), if_pos hv]
  exact tNext_modDc_steps _ h.fetch ⟨rfl, rfl, rfl, rfl, rfl⟩ rfl

theorem fxLoop_passes (h : AtOp s k 0x08 b) (hv : loopCount s k b = 0) :
    StepsTo s (fxLoop k s) k.val ((s.dc k.val).desc + 1) (s.dc k.val).prog := by
  rw [fxLoop_eq h, if_pos hv]
  exact tNext_steps_same h.fetch

theorem fxJump_steps (h : AtOp s k 0x09 b) : StepsTo s (fxJump k s) k.val (tI32 b) (s.dc k.val).prog := by
  rw [fxJump, tRun_at h]
  exact dcGoto_steps_from _ h.fetch (Only.refl [] s) (by decide) fun _ => rfl

/-! ### WAIT, FENCE, EVENT and HALT -/

/-- A WAIT takes one credit. -/
def spendCredit (c : Chan) : Chan := { c with credit := c.credit - 1 }

theorem fxWait_eq (h : AtOp s k 0x0A b) :
    fxWait k s = if (s.dc k.val).psrc = 0 then tNext k s
      else whenS (decide (0 < (s.dc k.val).credit)) (fun s => tNext k (modDc k.val spendCredit s)) s := by
  rw [fxWait, tRun_at h]
  rfl

theorem fxWait_spends (h : AtOp s k 0x0A b) (hpaced : (s.dc k.val).psrc ≠ 0) (hcredit : (s.dc k.val).credit ≠ 0) :
    Only chanParts s (fxWait k s) ∧ OtherDcs k.val s (fxWait k s) ∧ GoesOn (modDc k.val spendCredit s) (fxWait k s) k.val ((s.dc k.val).desc + 1) := by
  rw [fxWait_eq h, if_neg hpaced, whenS_true (decide_eq_true (Nat.pos_of_ne_zero hcredit)), tNext, modDc_dc_same, show (spendCredit (s.dc k.val)).desc = (s.dc k.val).desc from rfl]
  obtain ⟨hgo, hother, hgoes, -⟩ := tGo (k := k) (s := modDc k.val spendCredit s) ((s.dc k.val).desc + 1) (by rw [modDc_dc_same]; exact h.fetch)
  exact ⟨Only.trans (Only.modDc _ _ (by decide) (Only.refl _ _)) hgo, fun j hj => (hother j hj).trans (modDc_dc_ne _ _ hj), hgoes⟩

theorem fxFence_stray (hon : dcuOn s = true) (hstray : (s.dc k.val).strays.any (fun x => x.back) = true) :
    fxFence k s = modDc k.val (Chan.drop true) s := by
  rw [fxFence, whenS_true hon]
  exact if_pos hstray

theorem fxFence_eq (h : AtOp s k 0x0B b) (hstray : (s.dc k.val).strays.any (fun x => x.back) = false) :
    fxFence k s = tNext k (modDc k.val (fun c => { c with port0 := none, port1 := none }) (modDc k.val (fun c => { c with backs := false }) s)) := by
  obtain ⟨hon, hrun, htrowel, hheld, hfetch, hopc⟩ := h
  rw [fxFence, whenS_true hon, if_neg (by rw [hstray]; decide), hheld]
  dsimp only
  rw [whenS_true (by rw [htrowel, hopc]; rfl), if_pos hrun]

theorem fxFence_steps (h : AtOp s k 0x0B b) (hstray : (s.dc k.val).strays.any (fun x => x.back) = false) :
    StepsTo s (fxFence k s) k.val ((s.dc k.val).desc + 1) (s.dc k.val).prog := by
  rw [fxFence_eq h hstray]
  generalize hx : modDc k.val (fun c => { c with port0 := none, port1 := none }) (modDc k.val (fun c => { c with backs := false }) s) = x
  have hk : x.dc k.val = { s.dc k.val with backs := false, port0 := none, port1 := none } := by rw [← hx, modDc_dc_same, modDc_dc_same]
  have hothers : OtherDcs k.val s x := fun j hj => by rw [← hx, modDc_dc_ne _ _ hj, modDc_dc_ne _ _ hj]
  have hsteps : StepsTo s (tNext k x) k.val ((x.dc k.val).desc + 1) (x.dc k.val).prog :=
    dcGoto_steps _ (by rw [hk]; exact h.fetch) (hx ▸ Only.modDc _ _ (by decide) (Only.modDc _ _ (by decide) (Only.refl [.dcs] s))) (by decide) hothers
      (by rw [hk]; exact ⟨rfl, rfl, rfl, rfl, rfl⟩)
  rw [hk] at hsteps
  exact hsteps

theorem fxEvent_eq (h : AtOp s k 0x0E b) : fxEvent k s = dcGoto k.val ((s.dc k.val).desc + 1) (raiseT (dcTen s k.val).val evDcDesc s) := by
  rw [fxEvent, tRun_at h]
  rfl

theorem fxEvent_steps (h : AtOp s k 0x0E b) :
    StepsTo s (fxEvent k s) k.val ((s.dc k.val).desc + 1) (s.dc k.val).prog ∧ TenEvent (fxEvent k s) (dcTen s k.val).val evDcDesc := by
  rw [fxEvent_eq h]
  have hraised : TenEvent (raiseT (dcTen s k.val).val evDcDesc s) (dcTen s k.val).val evDcDesc := raiseT_event _ _ _ (by decide)
  have honly : Only [.tens] s (raiseT (dcTen s k.val).val evDcDesc s) := Only.raiseT _ _ _ (by decide) (Only.refl _ _)
  have hdc (j : Nat) : (raiseT (dcTen s k.val).val evDcDesc s).dc j = s.dc j := raiseT_dc' _ _ _ _
  generalize raiseT (dcTen s k.val).val evDcDesc s = x at hraised honly hdc ⊢
  obtain ⟨-, -, -, hevents, -⟩ := dcGoto_facts k.val ((s.dc k.val).desc + 1) x (by rw [hdc]; exact h.fetch)
  exact ⟨dcGoto_steps_from _ h.fetch honly (by decide) hdc, hevents _ _ hraised⟩

theorem fxHalt_idles (h : AtOp s k 0x0F b) : fxHalt k s = dcIdle k.val s := by rw [fxHalt, tRun_at h]

/-! ### POST (R317) -/

theorem dbWrite_taken_only {who : Who} {n : TenantIx} {m : RingIx} {tail count : Nat} {meets : Bool} {s : State} (h : doorbellDropped s n m = false) :
    Only [.tens, .sqs] s (dbWrite who n m tail count meets s) := by
  rw [dbWrite, if_neg (by rw [h]; decide)]
  split
  · split
    · exact Only.refl _ _
    · exact Only.modSq _ _ _ (by decide) (Only.refl _ _)
  · exact Only.doorbell _ _ _ _ _ _ _ _ (by decide) (Only.refl _ _)

/-- A POST goes on behind its doorbell write. -/
theorem fxPost_eq {meets : Bool} (h : AtOp s k 0x0C b) : fxPost k meets s = tNext k (dcPost k.val (tF b) (tI32 b) (tI64 b) meets s) := by
  rw [fxPost, tRun_at h]

/-- The doorbell that a POST writes. -/
def postWrite (k : ChanIx) (b : Bytes) (meets : Bool) (s : State) : State :=
  dbWrite (dcWho s k.val) (dcTen s k.val) (Fin.ofNat 16 (tF b)) (((s.sq (dcTen s k.val) (Fin.ofNat 16 (tF b) : RingIx)).tail + tI32 b) % 2 ^ 17) (tI64 b) meets s

theorem fxPost_taken {meets : Bool} (h : AtOp s k 0x0C b) (htaken : doorbellDropped s (dcTen s k.val) (Fin.ofNat 16 (tF b) : RingIx) = false) :
    Only (.sqs :: chanParts) s (fxPost k meets s) ∧ OtherDcs k.val s (fxPost k meets s) ∧ GoesOn s (fxPost k meets s) k.val ((s.dc k.val).desc + 1) ∧
      (fxPost k meets s).sqs = (postWrite k b meets s).sqs ∧ ((fxPost k meets s).dc k.val).prog = { (s.dc k.val).prog with desc := (s.dc k.val).desc + 1 } := by
  have hpost : dcPost k.val (tF b) (tI32 b) (tI64 b) meets s = postWrite k b meets s := by
    rw [dcPost, if_neg (by rw [htaken]; decide)]
    rfl
  rw [fxPost_eq h, hpost]
  have honly : Only [.tens, .sqs] s (postWrite k b meets s) := dbWrite_taken_only htaken
  generalize postWrite k b meets s = x at honly ⊢
  have hdc (j : Nat) : x.dc j = s.dc j := honly.dc_eq (by decide) j
  rw [tNext, hdc]
  obtain ⟨hgo, hother, hgoes, hprog⟩ := tGo (k := k) (s := x) ((s.dc k.val).desc + 1) (by rw [hdc]; exact h.fetch)
  refine ⟨(honly.mono (by decide)).trans (hgo.mono (by decide)), fun j hj => (hother j hj).trans (hdc j), ?_, hgo.2 .sqs (by decide), by rw [hprog, hdc]⟩
  exact hgoes.of (honly.2 .start (by decide)) (honly.gen_eq (by decide) (by decide)) (by rw [hdc]) (by rw [hdc]) (by rw [hdc]) (by rw [hdc]) (by rw [hdc])

/-- A POST that is dropped is noted with the channel and its tenant. -/
theorem fxPost_dropped {meets : Bool} (h : AtOp s k 0x0C b) (hdropped : doorbellDropped s (dcTen s k.val) (Fin.ofNat 16 (tF b) : RingIx) = true) :
    Only (chanParts ++ dropParts) s (fxPost k meets s) ∧ OtherDcs k.val s (fxPost k meets s) ∧ GoesOn s (fxPost k meets s) k.val ((s.dc k.val).desc + 1) ∧
      (fxPost k meets s).denied = s.denied.bump ∧ (fxPost k meets s).jrn.seq = s.jrn.seq + 1 ∧
      ((fxPost k meets s).dc k.val).prog = { (s.dc k.val).prog with desc := (s.dc k.val).desc + 1, postdrop := true } ∧
      TenEvent (fxPost k meets s) (dcTen s k.val).val evDcPostDrop := by
  have hwrite : Dropped s (postWrite k b meets s) := by
    rw [postWrite, dbWrite, if_pos hdropped]
    exact dropReg_dropped _ _ _ _
  have hpost : dcPost k.val (tF b) (tI32 b) (tI64 b) meets s =
      raiseT (dcTen s k.val).val evDcPostDrop (modDc k.val (fun c => { c with postdrop := true }) (postWrite k b meets s)) := by
    rw [dcPost, if_pos hdropped]
    rfl
  rw [fxPost_eq h, hpost]
  generalize postWrite k b meets s = w at hwrite ⊢
  obtain ⟨honly, hseq, hdenied⟩ := hwrite
  have hdc (j : Nat) : w.dc j = s.dc j := honly.dc_eq (by decide) j
  generalize hx : raiseT (dcTen s k.val).val evDcPostDrop (modDc k.val (fun c => { c with postdrop := true }) w) = x
  have hxw : Only [.dcs, .tens] w x := hx ▸ Only.raiseT _ _ _ (by decide) (Only.modDc _ _ (by decide) (Only.refl _ _))
  have hraised : TenEvent x (dcTen s k.val).val evDcPostDrop := hx ▸ raiseT_event _ _ _ (by decide)
  have hk : x.dc k.val = { s.dc k.val with postdrop := true } := by rw [← hx, raiseT_dc', modDc_dc_same, hdc]
  have hothers : OtherDcs k.val s x := fun j hj => by rw [← hx, raiseT_dc', modDc_dc_ne _ _ hj, hdc]
  rw [tNext, hk]
  obtain ⟨hgo, hother, hprog, hevents, hgoes⟩ := dcGoto_facts k.val ((s.dc k.val).desc + 1) x (by rw [hk]; exact h.fetch)
  have hsx : Only (chanParts ++ dropParts) s x := (honly.mono (by decide)).trans (hxw.mono (by decide))
  refine ⟨hsx.trans (hgo.mono (by decide)), fun j hj => (hother j hj).trans (hothers j hj), ?_, ?_, ?_, by rw [hprog, hk]; rfl, hevents _ _ hraised⟩
  · exact hgoes.of (hsx.2 .start (by decide)) (hsx.gen_eq (by decide) (by decide)) (by rw [hk]; rfl) (by rw [hk]) (by rw [hk]) (by rw [hk]; rfl) (by rw [hk]; rfl)
  · exact (hgo.2 .denied (by decide)).trans ((hxw.2 .denied (by decide)).trans hdenied)
  · rw [hgo.jrn (by decide), hxw.jrn (by decide), hseq]

/-! ### RECORD (R318, R319) -/

theorem fxRecord_eq (h : AtOp s k 0x0D b) :
    fxRecord k s = whenS (s.dc k.val).place (fun s => if ((dcDone k.val s).dc k.val).st = .stopped then dcDone k.val s else tNext k (dcDone k.val s)) s := by
  rw [fxRecord, tRun_at h]

theorem fxRecord_off (h : AtOp s k 0x0D b) (hoff : (s.dc k.val).recEn = false) : fxRecord k s = tNext k s := by
  have hrun : (s.dc k.val).st = .running := h.2.1
  rw [fxRecord_eq h, whenS_true (by rw [Chan.place, hoff]; rfl), dcDone_off _ _ hoff, if_neg (by rw [hrun]; decide)]

theorem fxRecord_waits (h : AtOp s k 0x0D b) (hplace : (s.dc k.val).place = false) : fxRecord k s = s := by
  rw [fxRecord_eq h, whenS_false hplace]

/-- The state behind the record of channel k. -/
def recorded (k : ChanIx) (s : State) : State :=
  emitRecord (dcRecAddr (s.dc k.val)) (recordBytes k.val (s.dc k.val) stDone 0 [0, 0, 0] 0 .read s.time.ns) s

/-- The tail of a record ring behind one more record. -/
def pastRecord (c : Chan) : Chan := { c with recTail := (c.recTail + 1) % 2 ^ (c.recK + 1) }

theorem fxRecord_done (h : AtOp s k 0x0D b) (hon : (s.dc k.val).recEn = true) (hplace : (s.dc k.val).place = true)
    (hcheck : dcCheck s k.val .write (dcRecAddr (s.dc k.val)) 32 = none) : fxRecord k s = tNext k (modDc k.val pastRecord (recorded k s)) := by
  have hrun : (s.dc k.val).st = .running := h.2.1
  have hdone : dcDone k.val s = modDc k.val pastRecord (recorded k s) := dcDone_ok k.val s hon hplace hcheck
  rw [fxRecord_eq h, whenS_true hplace, hdone, if_neg ?_]
  rw [modDc_dc_same, recorded, emitRecord_dc]
  exact fun hst => absurd (hrun.symm.trans hst) (by decide)

theorem fxRecord_done_steps (h : AtOp s k 0x0D b) (hon : (s.dc k.val).recEn = true) (hplace : (s.dc k.val).place = true)
    (hcheck : dcCheck s k.val .write (dcRecAddr (s.dc k.val)) 32 = none) :
    StepsTo s (fxRecord k s) k.val ((s.dc k.val).desc + 1) (s.dc k.val).prog ∧
      ((s.dc k.val).desc + 1 < (s.dc k.val).count → (s.dc k.val).pref = [] → itemOk s k.val ((s.dc k.val).desc + 1) →
        ((fxRecord k s).dc k.val).recTail = ((s.dc k.val).recTail + 1) % 2 ^ ((s.dc k.val).recK + 1) ∧
          (fxRecord k s).out = (emitRd ((s.dc k.val).itemAddr ((s.dc k.val).desc + 1)) (s.dc k.val).itemLen (recorded k s)).out) := by
  rw [fxRecord_done h hon hplace hcheck]
  generalize hx : modDc k.val pastRecord (recorded k s) = x
  have hk : x.dc k.val = pastRecord (s.dc k.val) := by rw [← hx, modDc_dc_same, recorded, emitRecord_dc]
  have hothers : OtherDcs k.val s x := fun j hj => by rw [← hx, modDc_dc_ne _ _ hj, recorded, emitRecord_dc]
  have honly : Only [.dcs, .out] s x := hx ▸ Only.modDc _ _ (by decide) (Only.emitRecord _ _ _ (by decide) (Only.refl _ _))
  have hdesc : (x.dc k.val).desc = (s.dc k.val).desc := by rw [hk]; rfl
  have hfetch : (x.dc k.val).fetching = false := by rw [hk]; exact h.fetch
  have hout : x.out = (recorded k s).out := by rw [← hx, modDc_out]
  rw [tNext, hdesc]
  constructor
  · have hsteps := dcGoto_steps (s := s) ((s.dc k.val).desc + 1) hfetch honly (by decide) hothers (by rw [hk]; exact ⟨rfl, rfl, rfl, rfl, rfl⟩)
    rw [hk] at hsteps
    exact hsteps
  · intro hin hpref hitem
    have hitem' : itemOk x k.val ((s.dc k.val).desc + 1) := by
      rw [itemOk_congr _ _ (honly.2 .start (by decide)) (honly.gen_eq (by decide) (by decide)) (by rw [hk]; rfl) (by rw [hk]; rfl)]
      exact hitem
    obtain ⟨hread, htail⟩ := dcGoto_fresh k.val ((s.dc k.val).desc + 1) x hfetch (by rw [hk]; exact hin) (by rw [hk]; exact hpref) hitem'
    refine ⟨by rw [htail, hk]; rfl, hread.trans ?_⟩
    rw [hk]
    exact emitRd_out2 _ _ _ _ hout

theorem fxRecord_fails (h : AtOp s k 0x0D b) (hon : (s.dc k.val).recEn = true) (hplace : (s.dc k.val).place = true)
    (hcheck : dcCheck s k.val .write (dcRecAddr (s.dc k.val)) 32 ≠ none) :
    Only chanParts s (fxRecord k s) ∧ OtherDcs k.val s (fxRecord k s) ∧ ChanStopped s (fxRecord k s) k.val stAccess 0x02 ∧
      ((fxRecord k s).dc k.val).recTail = (s.dc k.val).recTail := by
  obtain ⟨⟨fa, cause⟩, hbad⟩ := Option.ne_none_iff_exists'.mp hcheck
  have hfacts := recordFault_facts k.val fa cause s
  have hdone := dcDone_bad k.val fa cause s hon hplace hbad
  have hfx : fxRecord k s = dcRecordFault k.val stAccess fa cause (dcViol k.val fa .write cause s) := by
    rw [fxRecord_eq h, whenS_true hplace, hdone]
    exact if_pos hfacts.2.2.1.1
  rw [hfx]
  exact hfacts

end

end Sys2Proof.Machine

namespace Sys2Proof.TrowelInstructions
open Sys2Proof.Machine

/-- Settles O47, by one lemma per instruction over what every instruction that goes on leaves of the channel. -/
theorem trowelInstructions : Obligations.TrowelInstructions := by
  refine ⟨fun k b s => ⟨fun h => ⟨_, rfl, fxSeta_steps h⟩, fun h => ?_, fun h => ⟨_, rfl, fxSetc_steps h⟩, fun h => ⟨_, rfl, fxXcfg_steps h⟩, fun h => ?_,
    fun h => ⟨_, rfl, fxJump_steps h⟩, fun h => ?_, fun hstray hon => ?_, fun h hstray => ⟨_, rfl, fxFence_steps h hstray⟩, fun h => ?_, fun h => ?_⟩,
    fun k b meets s h => ⟨fun htaken => ⟨_, rfl, fxPost_taken h htaken⟩, fun hdropped => ⟨_, rfl, fxPost_dropped h hdropped⟩⟩,
    fun k b s h => ⟨fun hoff => ?_, fun _ hplace => congrArg Host.Outcome.next (fxRecord_waits h hplace), fun hon hplace hcheck => ?_,
      fun hon hplace hcheck => ⟨_, rfl, fxRecord_fails h hon hplace hcheck⟩⟩⟩
  · exact ⟨fun hlow hhigh => ⟨_, rfl, fxAdda_steps h rfl hlow hhigh⟩,
      fun hout => ⟨_, congrArg Host.Outcome.next (fxAdda_stops h rfl hout), dcUnsup_facts _ _ _⟩⟩
  · exact ⟨fun hv => ⟨_, rfl, fxLoop_jumps h hv⟩, fun hv => ⟨_, rfl, fxLoop_ends h hv⟩, fun hv => ⟨_, rfl, fxLoop_passes h hv⟩⟩
  · refine ⟨fun hfree => ?_, fun hpaced hcredit => ⟨_, rfl, fxWait_spends h hpaced hcredit⟩, fun hpaced hcredit => ?_⟩
    · have hfx : fxWait k s = tNext k s := by rw [fxWait_eq h, if_pos hfree]
      obtain ⟨honly, hother, hgoes, -⟩ := tNext_steps_same (k := k) (s := s) h.fetch
      exact ⟨_, congrArg Host.Outcome.next hfx, honly, hother, hgoes⟩
    · exact congrArg Host.Outcome.next (by rw [fxWait_eq h, if_neg hpaced, whenS_false (by rw [hcredit]; rfl)])
  · exact ⟨_, congrArg Host.Outcome.next (fxFence_stray hon hstray), Only.modDc _ _ (by decide) (Only.refl _ _), fun j hj => modDc_dc_ne _ _ hj, modDc_dc_same _ _ _⟩
  · obtain ⟨⟨honly, hother, hgoes, hprog⟩, hevent⟩ := fxEvent_steps h
    exact ⟨_, rfl, honly, hother, hgoes, hprog, hevent⟩
  · have hk : (dcIdle k.val s).dc k.val = { (s.dc k.val).shed false with st := .idle, inUnit := false, lines := [] } := modDc_dc_same _ _ _
    exact ⟨_, congrArg Host.Outcome.next (fxHalt_idles h), Only.dcIdle _ _ (by decide) (Only.refl _ _), fun j hj => modDc_dc_ne _ _ hj,
      by rw [hk], by rw [hk]; rfl, by rw [hk]; rfl, by rw [hk]; rfl⟩
  · have hfx := fxRecord_off h hoff
    obtain ⟨honly, hother, hgoes, -⟩ := tNext_steps_same (k := k) (s := s) h.fetch
    refine ⟨_, congrArg Host.Outcome.next hfx, honly, hother, hgoes, fun hin hpref hitem => ?_⟩
    exact (dcGoto_fresh k.val _ s h.fetch hin hpref hitem).symm
  · obtain ⟨⟨honly, hother, hgoes, hprog⟩, hfresh⟩ := fxRecord_done_steps h hon hplace hcheck
    exact ⟨_, rfl, honly, hother, hgoes, hprog, hfresh⟩

end Sys2Proof.TrowelInstructions
end

section
/-!
Software and its data channels (R301, R304, R312, R318 to R322, R331, R503): what a write to a channel's control or configuration leaves, and a pace
pulse, with the statement O45.
-/

namespace Sys2Proof.Machine

/-! ### A channel that runs, or has stopped -/

/-- Channel k runs, waits or has stopped, with PAUSE as p. -/
def Live (k : Nat) (p : Bool) (s : State) : Prop :=
  (s.dc k).pause = p ∧ ((s.dc k).st = .running ∨ (s.dc k).st = .waiting ∨ (s.dc k).st = .stopped)

section
variable {k : Nat} {p : Bool} {s : State}

theorem Live.dc {t : State} (h : Live k p s) (e : t.dc k = s.dc k) : Live k p t := by rwa [Live, e]

theorem Live.only {A : List Part} {t : State} (h : Live k p s) (honly : Only A s t) (hA : Part.dcs ∉ A) : Live k p t := h.dc (honly.dc_eq hA k)

theorem Live.modDc (f : Chan → Chan) (h : Live k p s) (hf : ∀ c, (f c).pause = c.pause ∧ (f c).st = c.st := by intro c; exact ⟨rfl, rfl⟩) :
    Live k p (Machine.modDc k f s) := by
  obtain ⟨hpause, hst⟩ := h
  obtain ⟨hp, hs⟩ := hf (s.dc k)
  rw [Live, modDc_dc_same, hp, hs]
  exact ⟨hpause, hst⟩

theorem Live.ite {c : Prop} [Decidable c] {a b : State} (ha : Live k p a) (hb : Live k p b) : Live k p (if c then a else b) := by
  split <;> assumption

theorem Live.emitRd (a l : Nat) (h : Live k p s) : Live k p (Machine.emitRd a l s) := h.dc (emitRd_dc _ _ _ _)
theorem Live.emitWr (a : Nat) (l : Bytes) (h : Live k p s) : Live k p (Machine.emitWr a l s) := h.dc (emitWr_dc _ _ _ _)
theorem Live.dcViol (j addr : Nat) (d : Dir) (c : Nat) (h : Live k p s) : Live k p (Machine.dcViol j addr d c s) := h.dc (dcViol_dc _ _ _ _ _ _)
theorem Live.violT (n addr : Nat) (d : Dir) (a b c e f : Nat) (h : Live k p s) : Live k p (Machine.violT n addr d a b c e f s) := h.dc (violT_dc _ _ _ _ _ _ _ _ _ _)

theorem dcRecord_live {st detail addr : Nat} {i : List Nat} {d : Dir} {t : State} (h : dcRecord k st detail i addr d s = some t) (hs : Live k p s) :
    Live k p t := by
  rw [Live, dcRecord_dc h]
  exact hs

theorem Live.dcStop (st detail addr : Nat) (d : Dir) (cause : Nat) (h : Live k p s) : Live k p (Machine.dcStop k st detail addr d cause s) := by
  rw [Machine.dcStop]
  generalize hx : raiseT (dcTen s k).val evDcStop _ = x
  have hlive : Live k p x := by
    rw [← hx, Live, raiseT_dc', modDc_dc_same]
    exact ⟨h.1, Or.inr (Or.inr rfl)⟩
  split
  · next hrec => exact dcRecord_live hrec hlive
  · split
    · exact hlive.dcViol _ _ _ _
    · exact hlive

theorem Live.dcWrote (a l : Nat) (h : Live k p s) : Live k p (Machine.dcWrote k a l s) := by
  rw [Machine.dcWrote]
  refine List.foldlRecOn _ _ h fun x hx q _ => Live.modDc _ hx fun c => ?_
  split <;> exact ⟨rfl, rfl⟩

theorem Live.dcWrite (a : Nat) (b : Bytes) (r : List Nat) (h : Live k p s) : Live k p (Machine.dcWrite k a b r s) := by
  rw [Machine.dcWrite]
  split
  · refine Live.dcStop _ _ _ _ _ (Live.dcViol _ _ _ _ ?_)
    exact Live.modDc _ h
  · exact Live.modDc _ (Live.dcWrote _ _ (Live.emitWr _ _ h))

theorem Live.dcFlush (n : Nat) (h : Live k p s) : Live k p (Machine.dcFlush k n s) := by
  induction n generalizing s with
  | zero => exact h
  | succ n ih =>
    rw [Machine.dcFlush]
    split
    · exact h
    · refine Live.ite h (ih (Live.dcWrite _ _ _ ?_))
      exact Live.modDc _ h

theorem Live.dcFlushAll (h : Live k p s) : Live k p (Machine.dcFlushAll k s) := h.dcFlush _

theorem Live.dcFence (h : Live k p s) : Live k p (Machine.dcFence k s) := by
  rw [Machine.dcFence]
  split
  · exact Live.dcStop _ _ _ _ _ (h.dcViol _ _ _ _)
  · refine Live.modDc _ ?_
    exact List.foldlRecOn _ _ h fun x hx a _ => hx.emitRd _ _

theorem Live.dcAtPoint (h : Live k p s) : Live k p (Machine.dcAtPoint k s) := by
  rw [Machine.dcAtPoint]
  have hflushed : Live k p (Machine.dcFlushAll k (Machine.modDc k (fun c => { c with inUnit := false, atPoint := true }) s)) := (Live.modDc _ h).dcFlushAll
  refine Live.ite hflushed ?_
  split
  · exact Live.ite hflushed.dcFence hflushed
  · exact hflushed

theorem Live.usePsrc (q : Nat) (h : Live k p s) : Live k p (Machine.usePsrc k q s) := by
  refine Live.modDc _ h fun c => ?_
  split <;> exact ⟨rfl, rfl⟩

theorem Live.dcSettle (h : Live k p s) : Live k p (Machine.dcSettle k s) := by
  obtain ⟨a, b, hdc⟩ := dcSettle_dc k s
  refine ⟨by rw [hdc]; exact h.1, ?_⟩
  rcases h.2 with hst | hst | hst
  · exact (dcSettle_st k s (Or.inl hst)).imp_right Or.inl
  · exact (dcSettle_st k s (Or.inr hst)).imp_right Or.inl
  · rw [Machine.dcSettle, if_pos (by rw [hst]; rfl)]
    exact Or.inr (Or.inr hst)

theorem Live.dcUnsup (d : Nat) (h : Live k p s) : Live k p (Machine.dcUnsup k d s) := h.dcStop _ _ _ _ _

theorem Live.dcTake (b : Bytes) (h : Live k p s) : Live k p (Machine.dcTake k b s) := by
  have hheld : Live k p (Machine.modDc k (fun c => { c with held := some b, fetching := false }) s) := Live.modDc _ h
  rw [Machine.dcTake]
  dsimp only
  split
  · split
    · exact h.dcUnsup _
    · exact Live.ite (Live.dcSettle (Live.usePsrc _ hheld)) (Live.ite hheld.dcFence hheld.dcSettle)
  · refine Live.ite (h.dcUnsup _) (Live.ite (h.dcUnsup _) (Live.ite (h.dcUnsup _) (Live.ite (Live.dcAtPoint ?_) (Live.dcSettle ?_))))
    · exact Live.usePsrc _ (Live.modDc _ hheld)
    · exact Live.usePsrc _ (Live.modDc _ hheld)

theorem Live.dcReach (h : Live k p s) : Live k p (Machine.dcReach k s) := by
  rw [Machine.dcReach]
  refine Live.ite h (Live.ite (h.dcUnsup _) ?_)
  split
  · refine Live.dcTake _ ?_
    exact Live.modDc _ h
  · split
    · exact Live.dcStop _ _ _ _ _ (h.violT _ _ _ _ _ _ _ _)
    · refine Live.emitRd _ _ ?_
      rw [Live, modDc_dc_same]
      exact ⟨h.1, Or.inl rfl⟩

theorem Live.dcTag (h : Live k p s) : Live k p (Machine.dcTag k s) := Live.modDc _ h

theorem Live.dcMoved (n : Nat) (h : Live k p s) : Live k p (Machine.dcMoved k n s) := by
  rw [Machine.dcMoved]
  refine Live.ite h.dcTag ?_
  exact Live.modDc _ h

theorem Live.dcAdvance (d : Desc) (h : Live k p s) : Live k p (Machine.dcAdvance k d s) := by
  rw [Machine.dcAdvance]
  dsimp only
  refine Live.ite (Live.dcAtPoint ?_) (Live.ite (Live.ite (Live.dcFlushAll ?_) (Live.dcSettle (Live.modDc _ (Live.dcFlushAll ?_)))) ?_)
  · exact Live.modDc _ h
  · exact Live.modDc _ h
  · exact Live.modDc _ h
  · exact Live.modDc _ h

theorem Live.dcGather (key addr : Nat) (data : Bytes) (h : Live k p s) : Live k p (Machine.dcGather k key addr data s) := by
  unfold Machine.dcGather
  dsimp only
  split
  · have hrest : Live k p (Machine.modDc k (fun c => { c with lines := c.lines.filter (fun h => h.key != key) }) s) := Live.modDc _ h
    refine Live.ite (Live.ite (Live.dcWrite _ _ _ hrest) ?_) (Live.ite (Live.dcWrite _ _ _ hrest) (Live.ite (Live.dcWrite _ _ _ (Live.dcWrite _ _ _ hrest)) ?_))
    · exact Live.modDc _ hrest
    · refine Live.modDc _ ?_
      exact Live.dcWrite _ _ _ hrest
  · refine Live.ite (Live.dcWrite _ _ _ h) ?_
    exact Live.modDc _ h

theorem Live.dcMove (d : Desc) (data : Bytes) (h : Live k p s) : Live k p (Machine.dcMove k d data s) := by
  rw [Machine.dcMove]
  exact Live.ite (h.dcGather _ _ _) (Live.dcMoved _ (Live.dcAdvance _ (h.dcGather _ _ _)))

theorem Live.dcMoveRead (d : Desc) (h : Live k p s) : Live k p (Machine.dcMoveRead k d s) := by
  rw [Machine.dcMoveRead]
  split
  · refine Live.dcMove _ _ ?_
    exact Live.modDc _ h
  · exact h

theorem Live.dcComplete (n : Nat) (h : Live k p s) : Live k p (Machine.dcComplete k n s) := by
  induction n generalizing s with
  | zero => exact h
  | succ n ih =>
    rw [Machine.dcComplete]
    split
    · exact Live.ite (ih (h.dcMoveRead _)) h
    · exact h

end

/-! ### The gathered lines go out -/

section
variable {k : Nat} {s : State}

theorem dcWrote_lines (a l : Nat) (s : State) : ((dcWrote k a l s).dc k).lines = (s.dc k).lines := by
  rw [dcWrote]
  refine List.foldlRecOn (motive := fun (x : State) => (x.dc k).lines = (s.dc k).lines) _ _ rfl fun x hx q _ => ?_
  rw [modDc_dc_same]
  split <;> exact hx

/-- A write of a line leaves the other lines, or stops the channel (R325). -/
theorem dcWrite_lines (a : Nat) (b : Bytes) (r : List Nat) (s : State) :
    ((dcWrite k a b r s).dc k).st = .stopped ∨ ((dcWrite k a b r s).dc k).lines = (s.dc k).lines := by
  rw [dcWrite]
  split
  · exact Or.inl (dcStop_facts ..).2.2.1.1
  · refine Or.inr ?_
    rw [modDc_dc_same]
    exact (dcWrote_lines _ _ _).trans (by rw [emitWr_dc])

/-- The channel without the oldest of its lines. -/
def dropLine (k : Nat) (l : List GLine) (s : State) : State := modDc k (fun c => { c with lines := l }) s

theorem dcFlush_cons {g : GLine} {l : List GLine} (n : Nat) (h : (s.dc k).lines = g :: l) (hst : (s.dc k).st ≠ .stopped) :
    dcFlush k (n + 1) s = dcFlush k n (dcWrite k g.addr g.data (earliest (s.dc k)) (dropLine k l s)) := by
  rw [dcFlush, h]
  exact if_neg hst

theorem dcFlush_stopped (n : Nat) (hst : (s.dc k).st = .stopped) : dcFlush k n s = s := by
  cases n with
  | zero => rfl
  | succ n =>
    rw [dcFlush]
    split
    · rfl
    · exact if_pos hst

theorem dcFlush_none (n : Nat) (h : (s.dc k).lines = []) : dcFlush k n s = s := by
  cases n with
  | zero => rfl
  | succ n => rw [dcFlush, h]

theorem dcFlush_lines (n : Nat) (hn : (s.dc k).lines.length ≤ n) : ((dcFlush k n s).dc k).st = .stopped ∨ ((dcFlush k n s).dc k).lines = [] := by
  induction n generalizing s with
  | zero => exact Or.inr (List.length_eq_zero_iff.mp (Nat.le_zero.mp hn))
  | succ n ih =>
    by_cases hst : (s.dc k).st = .stopped
    · rw [dcFlush_stopped _ hst]
      exact Or.inl hst
    cases h : (s.dc k).lines with
    | nil =>
      rw [dcFlush_none _ h]
      exact Or.inr h
    | cons g l =>
      rw [h, List.length_cons] at hn
      rw [dcFlush_cons n h hst]
      have hlines : ((dropLine k l s).dc k).lines = l := by rw [dropLine, modDc_dc_same]
      rcases dcWrite_lines g.addr g.data (earliest (s.dc k)) (dropLine k l s) with hstop | hrest
      · rw [dcFlush_stopped _ hstop]
        exact Or.inl hstop
      · exact ih (by rw [hrest, hlines]; omega)

theorem dcFlushAll_lines (k : Nat) (s : State) : ((dcFlushAll k s).dc k).st = .stopped ∨ ((dcFlushAll k s).dc k).lines = [] := dcFlush_lines _ (le_refl _)

/-! ### PAUSE (R320) -/

/-- The channel rests between two elements, or has stopped. -/
def Pauses (c : Chan) : Prop := (c.st = .paused ∧ c.pause = true ∧ c.lines = [] ∧ c.ahead = []) ∨ c.st = .stopped

theorem dcSetPause_pauses (hst : (s.dc k).st = .running ∨ (s.dc k).st = .waiting) : Pauses ((dcSetPause k s).dc k) := by
  have hlive : Live k true (modDc k (fun c => { c with pause := true }) s) := by
    rw [Live, modDc_dc_same]
    exact ⟨rfl, hst.imp_right Or.inl⟩
  rw [dcSetPause, if_pos hst]
  obtain ⟨hpause, -⟩ := (hlive.dcComplete (s.dc k).ahead.length).dcFlushAll
  have hlines := dcFlushAll_lines k (dcComplete k (s.dc k).ahead.length (modDc k (fun c => { c with pause := true }) s))
  generalize dcFlushAll k (dcComplete k (s.dc k).ahead.length (modDc k (fun c => { c with pause := true }) s)) = x at hpause hlines ⊢
  dsimp only
  split
  · next h => exact Or.inr h
  · next h =>
    rw [modDc_dc_same]
    exact Or.inl ⟨rfl, hpause, hlines.resolve_left h, rfl⟩

theorem dcSetPause_rests (hst : (s.dc k).st ≠ .running ∧ (s.dc k).st ≠ .waiting) : dcSetPause k s = modDc k (fun c => { c with pause := true }) s := by
  rw [dcSetPause, if_neg (not_or.mpr hst)]

/-- The unit is to be gated, or retention is asked for. -/
def HoldsBack (s : State) : Prop := s.clk.pending.toNat.testBit 24 = true ∨ s.ret.req = true

theorem HoldsBack.only {A : List Part} {t : State} (h : Only A s t) (hclk : Part.clk ∉ A) (hret : Part.ret ∉ A) : HoldsBack t ↔ HoldsBack s := by
  have e1 : t.clk = s.clk := h.2 .clk hclk
  have e2 : t.ret = s.ret := h.2 .ret hret
  rw [HoldsBack, HoldsBack, e1, e2]

theorem dcHoldBack_free (h : ¬ HoldsBack s) : dcHoldBack k s = s := by
  rw [dcHoldBack, if_neg (by simpa [HoldsBack] using h)]

theorem dcHoldBack_pauses {p : Bool} (h : HoldsBack s) (hlive : Live k p s) : Pauses ((dcHoldBack k s).dc k) := by
  rw [dcHoldBack, if_pos (by simpa [HoldsBack] using h)]
  by_cases hst : (s.dc k).st = .running ∨ (s.dc k).st = .waiting
  · rw [whenS_true (decide_eq_true hst)]
    exact dcSetPause_pauses hst
  · rw [whenS_false (decide_eq_false hst)]
    obtain ⟨-, h1 | h2 | h3⟩ := hlive
    · exact absurd (Or.inl h1) hst
    · exact absurd (Or.inr h2) hst
    · exact Or.inr h3

/-- A stopped channel is not held back. -/
theorem dcHoldBack_stopped (hst : (s.dc k).st = .stopped) : dcHoldBack k s = s := by
  rw [dcHoldBack]
  split
  · exact whenS_false (by rw [hst]; rfl)
  · rfl

theorem Chn.dcHoldBack {s0 : State} (h : Chn k s0 s) : Chn k s0 (Machine.dcHoldBack k s) := by
  rw [Machine.dcHoldBack]
  split
  · rw [whenS]
    split
    · exact Chn.dcSetPause h
    · exact h
  · exact h

/-! ### GO, and PAUSE written 0 (R304, R320) -/

/-- What a GO from IDLE sets (R304). -/
def beginRun (c : Chan) : Chan :=
  { c.shed false with
    st := .running
    desc := fld c.first 15 0
    i0 := 0
    i1 := 0
    i2 := 0
    n0use := 0
    psrc := 0
    heldTag := 0
    unitPrev := false
    moved := 0
    inUnit := false
    lines := []
    wrote := none
    port0 := none
    port1 := none
    aregs := []
    cregs := []
    xcfg := none }

/-- A channel at its GO from IDLE. -/
def begun (c : Chan) : Chan := beginRun { c with pause := false }

/-- A channel that goes on from a pause or a stop. -/
def resumed (c : Chan) : Chan := { c with st := .running, pause := false }

/-- State x is s but for channel k, which is c there. -/
structure AtChan (k : Nat) (c : Chan) (s x : State) : Prop where
  only : Only [.dcs] s x
  others : OtherDcs k s x
  chan : x.dc k = c

theorem AtChan.modDc (f : Chan → Chan) (s : State) : AtChan k (f (s.dc k)) s (modDc k f s) :=
  ⟨Only.modDc _ _ (by decide) (Only.refl _ _), fun _ hj => modDc_dc_ne _ _ hj, modDc_dc_same _ _ _⟩

theorem AtChan.modDc_modDc (f g : Chan → Chan) (s : State) : AtChan k (f (g (s.dc k))) s (Machine.modDc k f (Machine.modDc k g s)) :=
  ⟨Only.modDc _ _ (by decide) (Only.modDc _ _ (by decide) (Only.refl _ _)), fun _ hj => (modDc_dc_ne _ _ hj).trans (modDc_dc_ne _ _ hj),
    (modDc_dc_same _ _ _).trans (congrArg f (modDc_dc_same _ _ _))⟩

theorem AtChan.holdsBack {c : Chan} {x : State} (h : AtChan k c s x) : HoldsBack x ↔ HoldsBack s := HoldsBack.only h.only (by decide) (by decide)

theorem AtChan.dcTen {c : Chan} {x : State} (h : AtChan k c s x) (j : Nat) : dcTen x j = dcTen s j :=
  dcTen_congr j (h.only.2 .start (by decide)) (h.only.gen_eq (by decide) (by decide))

theorem AtChan.itemOk {c : Chan} {x : State} (h : AtChan k c s x) (d : Nat) (hcfg : c.cfg = (s.dc k).cfg) (hbase : c.dbase = (s.dc k).dbase) :
    itemOk x k d ↔ itemOk s k d := by
  have hlen : c.itemLen = (s.dc k).itemLen := congrArg (fun w => if bitOf w 0 then 16 else 48) hcfg
  refine itemOk_congr k d (h.only.2 .start (by decide)) (h.only.gen_eq (by decide) (by decide)) ?_ ?_
  · rw [h.chan, Chan.itemAddr, Chan.itemAddr, hlen, hbase]
  · rw [h.chan, hlen]

theorem dcStart_idle (hst : (s.dc k).st = .idle) : ∃ x, AtChan k (begun (s.dc k)) s x ∧ dcStart k s = dcHoldBack k (dcReach k x) := by
  refine ⟨_, AtChan.modDc_modDc beginRun (fun c => { c with pause := false }) s, ?_⟩
  rw [dcStart, hst]
  rfl

theorem dcStart_paused (hst : (s.dc k).st = .paused) :
    ∃ x, AtChan k (resumed (s.dc k)) s x ∧ dcStart k s = dcHoldBack k (if (s.dc k).held.isSome then dcSettle k x else dcReach k x) := by
  refine ⟨_, AtChan.modDc_modDc (fun c => { c with st := .running }) (fun c => { c with pause := false }) s, ?_⟩
  rw [dcStart, hst]

theorem dcStart_stopped (hst : (s.dc k).st = .stopped) (hfault : (s.dc k).fault = false) :
    ∃ x, AtChan k (resumed (s.dc k)) s x ∧ dcStart k s = dcHoldBack k (dcReach k x) := by
  refine ⟨_, AtChan.modDc_modDc (fun c => { c with st := .running }) (fun c => { c with pause := false }) s, ?_⟩
  rw [dcStart, hst]
  dsimp only
  rw [hfault]
  rfl

theorem dcStart_stays (h : (s.dc k).st = .stopped ∧ (s.dc k).fault = true ∨ (s.dc k).st = .running ∨ (s.dc k).st = .waiting) :
    dcStart k s = modDc k (fun c => { c with pause := false }) s := by
  rw [dcStart]
  rcases h with ⟨hst, hfault⟩ | hst | hst
  · rw [hst]
    dsimp only
    rw [hfault]
    rfl
  · rw [hst]
  · rw [hst]

theorem AtChan.live {c : Chan} {x : State} (h : AtChan k c s x) (hst : c.st = .running) : Live k c.pause x := by
  rw [Live, h.chan]
  exact ⟨rfl, Or.inl hst⟩

theorem AtChan.trans {c : Chan} {x t : State} (h : AtChan k c s x) (hchn : Chn k x t) : OtherDcs k s t := fun j hj => (hchn.1 j hj).trans (h.others j hj)

theorem Pauses.weak {c : Chan} (h : Pauses c) : (c.st = .paused ∧ c.pause = true) ∨ c.st = .stopped := h.imp_left fun ⟨hst, hpause, _⟩ => ⟨hst, hpause⟩

/-- A GO that is held back pauses at once, or stops (R394, R412). -/
theorem dcStart_heldBack (hback : HoldsBack s) (h : (s.dc k).st = .idle ∨ (s.dc k).st = .paused ∨ ((s.dc k).st = .stopped ∧ (s.dc k).fault = false)) :
    OtherDcs k s (dcStart k s) ∧ Pauses ((dcStart k s).dc k) := by
  have key (c : Chan) (x y : State) (hx : AtChan k c s x) (hst : c.st = .running) (hstart : dcStart k s = dcHoldBack k y)
      (hy : y = dcReach k x ∨ y = dcSettle k x) : OtherDcs k s (dcStart k s) ∧ Pauses ((dcStart k s).dc k) := by
    have hlive : Live k c.pause x := hx.live hst
    have hback' : HoldsBack y := by
      refine (HoldsBack.only (A := chanParts) ?_ (by decide) (by decide)).mpr hback
      rcases hy with rfl | rfl
      · exact Only.dcReach _ _ (by decide) (hx.only.mono (by decide))
      · exact Only.dcSettle _ _ (by decide) (hx.only.mono (by decide))
    rw [hstart]
    rcases hy with rfl | rfl
    · exact ⟨hx.trans (Chn.dcHoldBack (Chn.dcReach (Chn.refl _ _))), dcHoldBack_pauses hback' hlive.dcReach⟩
    · exact ⟨hx.trans (Chn.dcHoldBack (Chn.dcSettle (Chn.refl _ _))), dcHoldBack_pauses hback' hlive.dcSettle⟩
  rcases h with hst | hst | ⟨hst, hfault⟩
  · obtain ⟨x, hx, hstart⟩ := dcStart_idle hst
    exact key _ x _ hx rfl hstart (Or.inl rfl)
  · obtain ⟨x, hx, hstart⟩ := dcStart_paused hst
    refine key _ x _ hx rfl hstart ?_
    split
    · exact Or.inr rfl
    · exact Or.inl rfl
  · obtain ⟨x, hx, hstart⟩ := dcStart_stopped hst hfault
    exact key _ x _ hx rfl hstart (Or.inl rfl)

theorem dcReach_outside {x : State} (hheld : (x.dc k).held = none) (hfetch : (x.dc k).fetching = false) (hout : (x.dc k).count ≤ (x.dc k).desc) :
    dcReach k x = dcUnsup k 0x80 x := by
  rw [dcReach, if_neg (by rw [hheld, hfetch]; decide), if_pos hout]

/-- A channel that reaches an item outside its table stops (R305, R328). -/
theorem reach_outside_stops {c : Chan} {x : State} (hx : AtChan k c s x) (hheld : c.held = none) (hfetch : c.fetching = false) (hout : c.count ≤ c.desc)
    {t : State} (ht : t = dcHoldBack k (dcReach k x)) : Only chanParts s t ∧ OtherDcs k s t ∧ ChanStopped s t k stUnsupported 0x80 := by
  have hreach : dcReach k x = dcUnsup k 0x80 x := dcReach_outside (by rw [hx.chan]; exact hheld) (by rw [hx.chan]; exact hfetch) (by rw [hx.chan]; exact hout)
  obtain ⟨honly, hothers, hstopped, -⟩ := dcUnsup_facts k 0x80 x
  rw [ht, hreach, dcHoldBack_stopped hstopped.1]
  exact ⟨(hx.only.mono (by decide)).trans honly, fun j hj => (hothers j hj).trans (hx.others j hj), hstopped.of_ten (hx.dcTen k)⟩

/-- A channel that has asked for the item at `desc`. -/
def asking (c : Chan) : Chan := { c with st := .running, fetching := true, fetchPrev := false, pref := [] }

/-- A channel that reaches an item of its table asks for it (R315). -/
theorem reach_asks {c : Chan} {x : State} (hx : AtChan k c s x) (hheld : c.held = none) (hfetch : c.fetching = false) (hpref : c.pref = [])
    (hcfg : c.cfg = (s.dc k).cfg) (hbase : c.dbase = (s.dc k).dbase) (hin : c.desc < c.count) (hitem : itemOk s k c.desc) (hfree : ¬ HoldsBack s)
    {t : State} (ht : t = dcHoldBack k (dcReach k x)) :
    Only [.dcs, .out] s t ∧ OtherDcs k s t ∧ t.dc k = asking c ∧ t.out = (emitRd ((s.dc k).itemAddr c.desc) (s.dc k).itemLen s).out := by
  have hitem' : itemOk x k (x.dc k).desc := by
    rw [hx.chan]
    exact (hx.itemOk _ hcfg hbase).mpr hitem
  have hreach := (dcReach_fresh k x (by rw [hx.chan]; exact hheld) (by rw [hx.chan]; exact hfetch) (by rw [hx.chan]; exact hpref)
    (by rw [hx.chan]; exact hin)).1 hitem'
  have hlen : c.itemLen = (s.dc k).itemLen := congrArg (fun w => if bitOf w 0 then 16 else 48) hcfg
  have haddr : c.itemAddr c.desc = (s.dc k).itemAddr c.desc := by rw [Chan.itemAddr, Chan.itemAddr, hlen, hbase]
  have honly : Only [.dcs, .out] s (dcReach k x) := by
    rw [hreach]
    exact Only.emitRd _ _ _ (by decide) (Only.modDc _ _ (by decide) (hx.only.mono (by decide)))
  rw [ht, dcHoldBack_free fun h => hfree ((HoldsBack.only honly (by decide) (by decide)).mp h)]
  refine ⟨honly, hx.trans (Chn.dcReach (Chn.refl _ _)), ?_, ?_⟩
  · rw [hreach, emitRd_dc, modDc_dc_same, hx.chan]
    rfl
  · rw [hreach, hx.chan, hlen, haddr]
    refine emitRd_out2 _ _ _ _ ?_
    rw [modDc_out]
    exact hx.only.2 .out (by decide)

/-- A paused channel that holds its item goes on with it (R320, R321). -/
theorem dcStart_resumes (hst : (s.dc k).st = .paused) (hheld : (s.dc k).held.isSome = true) (hfree : ¬ HoldsBack s) :
    Only [.dcs, .tens] s (dcStart k s) ∧ OtherDcs k s (dcStart k s) ∧ (((dcStart k s).dc k).st = .running ∨ ((dcStart k s).dc k).st = .waiting) ∧
      ∃ a b, (dcStart k s).dc k = { resumed (s.dc k) with st := a, rstall := b } := by
  obtain ⟨x, hx, hstart⟩ := dcStart_paused hst
  rw [if_pos hheld] at hstart
  have honly : Only [.dcs, .tens] s (dcSettle k x) := Only.dcSettle _ _ (by decide) (hx.only.mono (by decide))
  rw [hstart, dcHoldBack_free fun h => hfree ((HoldsBack.only honly (by decide) (by decide)).mp h)]
  refine ⟨honly, hx.trans (Chn.dcSettle (Chn.refl _ _)), dcSettle_st k x (Or.inl (by rw [hx.chan]; rfl)), ?_⟩
  obtain ⟨a, b, hdc⟩ := dcSettle_dc k x
  exact ⟨a, b, by rw [hdc, hx.chan]⟩

/-! ### ABORT, REFETCH and CLRCRED -/

theorem dcRecord_off (st detail : Nat) (ix : List Nat) (addr : Nat) (d : Dir) (h : (s.dc k).recEn = false) :
    dcRecord k st detail ix addr d s = some s := by
  rw [dcRecord]
  exact if_pos (by rw [h]; rfl)

/-- An aborted channel that keeps no records. -/
def aborted (c : Chan) : Chan := { (c.backTo (earliest c)).shed false with st := .idle, inUnit := false, lines := [] }

theorem dcAbort_idles (hst : (s.dc k).st ≠ .idle) (hoff : (s.dc k).recEn = false) : AtChan k (aborted (s.dc k)) s (dcAbort k s) := by
  have hoff' : ((modDc k (fun c => c.backTo (earliest (s.dc k))) s).dc k).recEn = false := by
    rw [modDc_dc_same]
    exact hoff
  have habort : dcAbort k s = dcIdle k (modDc k (fun c => c.backTo (earliest (s.dc k))) s) := by
    rw [dcAbort]
    dsimp only
    rw [if_neg hst, dcRecord_off _ _ _ _ _ hoff']
  rw [habort]
  exact AtChan.modDc_modDc (fun c => { c.shed false with st := .idle, inUnit := false, lines := [] }) (fun c => c.backTo (earliest (s.dc k))) s

theorem dcSettle_rests (h1 : (s.dc k).st ≠ .running) (h2 : (s.dc k).st ≠ .waiting) : dcSettle k s = s := by
  rw [dcSettle]
  exact if_pos (by simp [h1, h2])

theorem dcSettle_waits (hst : (s.dc k).st = .running) (hunit : (s.dc k).inUnit = false) (hpoint : (s.dc k).atPoint = false) (hplace : (s.dc k).place = true)
    (hneeds : (s.dc k).needsCredit = true) : ((dcSettle k s).dc k).st = .waiting := by
  rw [dcSettle]
  dsimp only
  rw [if_neg (by simp [hst, hunit, hpoint]), if_neg (by simp [hplace]), modDc_dc_same]
  exact if_pos hneeds

/-- A write that only settles the channel behind a change of it. -/
theorem settled_facts (f : Chan → Chan) (s : State) :
    Only [.dcs, .tens] s (dcSettle k (modDc k f s)) ∧ OtherDcs k s (dcSettle k (modDc k f s)) ∧
      (∃ a b, (dcSettle k (modDc k f s)).dc k = { f (s.dc k) with st := a, rstall := b }) ∧
      ((f (s.dc k)).st ≠ .running → (f (s.dc k)).st ≠ .waiting → (dcSettle k (modDc k f s)).dc k = f (s.dc k)) := by
  have hx : AtChan k (f (s.dc k)) s (modDc k f s) := AtChan.modDc f s
  generalize modDc k f s = x at hx ⊢
  refine ⟨Only.dcSettle _ _ (by decide) (hx.only.mono (by decide)), hx.trans (Chn.dcSettle (Chn.refl _ _)), ?_, fun h1 h2 => ?_⟩
  · obtain ⟨a, b, hdc⟩ := dcSettle_dc k x
    exact ⟨a, b, by rw [hdc, hx.chan]⟩
  · rw [dcSettle_rests (by rw [hx.chan]; exact h1) (by rw [hx.chan]; exact h2), hx.chan]

/-! ### The head of a record ring (R318) -/

theorem judgeHead_taken {kk head tail new : Nat} (h : (new % 2 ^ (kk + 1) + 2 ^ (kk + 1) - head % 2 ^ (kk + 1)) % 2 ^ (kk + 1) ≤ occ kk head tail) :
    (judgeHead kk head tail new).1 = new % 2 ^ (kk + 1) := by
  rw [judgeHead]
  rw [if_pos h]

theorem judgeHead_clamped {kk head tail new : Nat} (h1 : occ kk head tail < (new % 2 ^ (kk + 1) + 2 ^ (kk + 1) - head % 2 ^ (kk + 1)) % 2 ^ (kk + 1))
    (h2 : (new % 2 ^ (kk + 1) + 2 ^ (kk + 1) - head % 2 ^ (kk + 1)) % 2 ^ (kk + 1) ≤ 2 ^ kk) : (judgeHead kk head tail new).1 = tail := by
  rw [judgeHead]
  rw [if_neg (by omega), if_pos h2]

theorem judgeHead_kept {kk head tail new : Nat} (h1 : occ kk head tail < (new % 2 ^ (kk + 1) + 2 ^ (kk + 1) - head % 2 ^ (kk + 1)) % 2 ^ (kk + 1))
    (h2 : 2 ^ kk < (new % 2 ^ (kk + 1) + 2 ^ (kk + 1) - head % 2 ^ (kk + 1)) % 2 ^ (kk + 1)) : (judgeHead kk head tail new).1 = head := by
  rw [judgeHead]
  rw [if_neg (by omega), if_neg (by omega)]

/-- The head of a channel's record ring after a write. -/
def headed (new : Nat) (c : Chan) : Chan := { c with recHead := (judgeHead c.recK c.recHead c.recTail new).1 }

/-! ### A pace pulse (R312) -/

theorem fxDcPacePulse_idle {src : BitVec 6} (h : src.toNat = 0 ∨ 16 < src.toNat) : fxDcPacePulse src s = s := by
  rw [fxDcPacePulse, whenS_false]
  have hout : ¬ (1 ≤ src.toNat ∧ src.toNat ≤ 0x10) := by omega
  rw [decide_eq_false hout]
  rfl

theorem fxDcPacePulse_due {src : BitVec 6} (hserving : s.start.serving = true) (hasleep : s.ret.asleep = false) (h1 : 1 ≤ src.toNat) (h2 : src.toNat ≤ 16) :
    fxDcPacePulse src s = pulseChans src.toNat s := by
  rw [fxDcPacePulse, whenS_true (by simp [hserving, hasleep, h1, h2])]

end

/-! ### Writes to a channel's registers -/

section
variable {who : Who} {k : ChanIx} {v : Word} {s : State}

theorem gateDc_assigned {f : State → State} (htakes : Takes s who (.dcCtl k) v) (h : dcAssigned s k.val = true) : gateDc who k v f s = f s := by
  rw [gateDc, gateW_takes htakes]
  exact if_pos h

theorem gateDc_unassigned {f : State → State} (htakes : Takes s who (.dcCtl k) v) (h : dcAssigned s k.val = false) :
    Dropped s (gateDc who k v f s) := by
  rw [gateDc, gateW_takes htakes, if_neg (by rw [h]; decide)]
  exact dropReg_dropped _ _ _ _

theorem dcConfigWrite_takes {r : DcSetup} (htakes : Takes s who (dcSetupReg k r) v) : fxDcConfigWrite who k r v s = dcConfig who k r (~~~ 0) v s :=
  gateW_takes htakes

end

end Sys2Proof.Machine

namespace Sys2Proof.ChannelControl
open Sys2Proof.Machine

/-- A write to the control of a channel that no enabled tenant holds is dropped. -/
theorem control_dropped (who : Who) (k : ChanIx) (s : State) (hass : dcAssigned s k.val = false) :
    (Takes s who (.dcCtl k) 1 → ∃ t, exec (.dcGo who k) s = .next t ∧ Dropped s t) ∧
    (Takes s who (.dcCtl k) 2 → ∃ t, exec (.dcPause who k) s = .next t ∧ Dropped s t) ∧
    (Takes s who (.dcCtl k) 0 → ∃ t, exec (.dcResume who k) s = .next t ∧ Dropped s t) ∧
    (Takes s who (.dcCtl k) 4 → ∃ t, exec (.dcAbort who k) s = .next t ∧ Dropped s t) ∧
    (Takes s who (.dcCtl k) 0xA → ∃ t, exec (.dcRefetch who k) s = .next t ∧ Dropped s t) ∧
    (Takes s who (.dcCtl k) 0x10 → ∃ t, exec (.dcClrcred who k) s = .next t ∧ Dropped s t) :=
  ⟨fun h => ⟨_, rfl, gateDc_unassigned h hass⟩, fun h => ⟨_, rfl, gateDc_unassigned h hass⟩, fun h => ⟨_, rfl, gateDc_unassigned h hass⟩,
    fun h => ⟨_, rfl, gateDc_unassigned h hass⟩, fun h => ⟨_, rfl, gateDc_unassigned h hass⟩, fun h => ⟨_, rfl, gateDc_unassigned h hass⟩⟩

/-- A write that changes the channel alone. -/
theorem writes {i : Instr} {k : Nat} {s y : State} {f : Chan → Chan} (hfx : exec i s = .next y) (hy : y = modDc k f s) :
    ∃ t, exec i s = .next t ∧ Only [.dcs] s t ∧ OtherDcs k s t ∧ t.dc k = f (s.dc k) :=
  ⟨y, hfx, by rw [hy]; exact (AtChan.modDc f s).only, by rw [hy]; exact (AtChan.modDc f s).others, by rw [hy]; exact (AtChan.modDc f s).chan⟩

/-- Settles O45, by what GO, PAUSE and the other writes make of a channel in each of its states, and by the channels that a pulse reaches one by one. -/
theorem channelControl : Obligations.ChannelControl := by
  refine ⟨fun who k s hass => control_dropped who k s hass, fun who k s hass => ?_, fun who k r v s htakes => ?_, fun who k head s htakes => ?_,
    fun src s hserving hasleep h1 h2 => ?_, fun src s h => congrArg Host.Outcome.next (fxDcPacePulse_idle h)⟩
  · intro c first back
    refine ⟨fun htakes => ?_, fun htakes => ?_, fun htakes => ?_, fun htakes => ?_, fun htakes => ?_, fun htakes => ?_⟩
    · have hfx : exec (.dcGo who k) s = .next (dcStart k.val s) := congrArg Host.Outcome.next (gateDc_assigned htakes hass)
      refine ⟨fun hback hst => ?_, fun hst hout => ?_, fun hst hin hfree hitem => ?_, fun hst hheld hfree => ?_, fun hst => ?_,
        fun hst hfault hheld hfetch hout => ?_, fun hst hfault hheld hfetch hpref hin hfree hitem => ?_⟩
      · obtain ⟨hothers, hpauses⟩ := dcStart_heldBack hback hst
        exact ⟨_, hfx, Only.dcStart _ _ (by decide) (Only.refl _ _), hothers, hpauses.weak⟩
      · obtain ⟨x, hx, hstart⟩ := dcStart_idle hst
        exact ⟨_, hfx, reach_outside_stops hx rfl rfl hout hstart⟩
      · obtain ⟨x, hx, hstart⟩ := dcStart_idle hst
        obtain ⟨honly, hothers, hdc, hout⟩ := reach_asks hx rfl rfl rfl rfl rfl hin hitem hfree hstart
        exact ⟨_, hfx, honly, hothers, by rw [hdc]; rfl, by rw [hdc]; rfl, by rw [hdc]; rfl, by rw [hdc]; rfl, by rw [hdc]; rfl, hout⟩
      · obtain ⟨honly, hothers, hst', a, b, hdc⟩ := dcStart_resumes hst hheld hfree
        exact ⟨_, hfx, honly, hothers, hst', by rw [hdc]; rfl, by rw [hdc]; rfl, by rw [hdc]; rfl, by rw [hdc]; rfl, by rw [hdc]; rfl, by rw [hdc]; rfl⟩
      · obtain ⟨honly, hothers, hdc⟩ := AtChan.modDc (k := k.val) (fun c => { c with pause := false }) s
        exact ⟨_, hfx.trans (congrArg Host.Outcome.next (dcStart_stays hst)), honly, hothers, hdc⟩
      · obtain ⟨x, hx, hstart⟩ := dcStart_stopped hst hfault
        exact ⟨_, hfx, reach_outside_stops hx hheld hfetch hout hstart⟩
      · obtain ⟨x, hx, hstart⟩ := dcStart_stopped hst hfault
        obtain ⟨honly, hothers, hdc, -⟩ := reach_asks hx hheld hfetch hpref rfl rfl hin hitem hfree hstart
        exact ⟨_, hfx, honly, hothers, by rw [hdc]; rfl, by rw [hdc]; rfl, by rw [hdc]; rfl, by rw [hdc]; rfl, by rw [hdc]; rfl, by rw [hdc]; rfl⟩
    · have hfx : exec (.dcPause who k) s = .next (dcSetPause k.val s) := congrArg Host.Outcome.next (gateDc_assigned htakes hass)
      refine ⟨fun hst hlines hahead => ?_, fun hst => ?_, fun hst => ?_⟩
      · refine ⟨_, hfx, ?_, (Chn.dcSetPause (Chn.refl _ _)).1, dcSetPause_idle hst hlines hahead⟩
        rw [dcSetPause_atOnce hst hlines hahead]
        exact Only.modDc _ _ (by decide) (Only.modDc _ _ (by decide) (Only.refl _ _))
      · exact ⟨_, hfx, Only.dcSetPause _ _ (by decide) (Only.refl _ _), (Chn.dcSetPause (Chn.refl _ _)).1, dcSetPause_pauses hst⟩
      · have hrest : (s.dc k.val).st ≠ .running ∧ (s.dc k.val).st ≠ .waiting := by
          rcases hst with h | h | h <;> exact ⟨fun e => absurd (h.symm.trans e) (by decide), fun e => absurd (h.symm.trans e) (by decide)⟩
        obtain ⟨honly, hothers, hdc⟩ := AtChan.modDc (k := k.val) (fun c => { c with pause := true }) s
        exact ⟨_, hfx.trans (congrArg Host.Outcome.next (dcSetPause_rests hrest)), honly, hothers, hdc⟩
    · have hfx : exec (.dcResume who k) s = .next (dcClearPause k.val s) := congrArg Host.Outcome.next (gateDc_assigned htakes hass)
      refine ⟨fun hst => ?_, fun hst hheld hfree => ?_⟩
      · obtain ⟨honly, hothers, hdc⟩ := AtChan.modDc (k := k.val) (fun c => { c with pause := false }) s
        exact ⟨_, hfx.trans (congrArg Host.Outcome.next (if_neg hst)), honly, hothers, hdc⟩
      · obtain ⟨honly, hothers, hst', a, b, hdc⟩ := dcStart_resumes hst hheld hfree
        exact ⟨_, hfx.trans (congrArg Host.Outcome.next (if_pos hst)), honly, hothers, hst', by rw [hdc]; rfl, by rw [hdc]; rfl, by rw [hdc]; rfl⟩
    · have hfx : exec (.dcAbort who k) s = .next (dcAbort k.val s) := congrArg Host.Outcome.next (gateDc_assigned htakes hass)
      refine ⟨fun hst => hfx.trans (congrArg Host.Outcome.next (if_pos hst)), fun hst hoff => ?_⟩
      obtain ⟨honly, hothers, hdc⟩ := dcAbort_idles hst hoff
      exact ⟨_, hfx, honly, hothers, by rw [hdc]; rfl, by rw [hdc]; rfl, by rw [hdc]; rfl, by rw [hdc]; rfl, by rw [hdc]; rfl⟩
    · have hfx : exec (.dcRefetch who k) s = .next (dcDropCopies k.val s) := congrArg Host.Outcome.next (gateDc_assigned htakes hass)
      obtain ⟨honly, hothers, hdc⟩ := AtChan.modDc (k := k.val) (fun c => if c.st = .paused then c.shed false else c) s
      refine ⟨fun hst => ?_, fun hst => ⟨_, hfx, honly, hothers, hdc.trans (if_neg hst)⟩⟩
      have hshed := hdc.trans (if_pos hst)
      exact ⟨_, hfx, honly, hothers, (congrArg Chan.held hshed).trans rfl, (congrArg Chan.pref hshed).trans rfl, (congrArg Chan.ahead hshed).trans rfl,
        (congrArg Chan.fetching hshed).trans rfl, (congrArg Chan.st hshed).trans hst, (congrArg Chan.pos hshed).trans rfl,
        (congrArg Chan.credit hshed).trans rfl, (congrArg Chan.lines hshed).trans rfl, (congrArg Chan.prog hshed).trans rfl⟩
    · have hfx : exec (.dcClrcred who k) s = .next (dcClrcred k.val s) := congrArg Host.Outcome.next (gateDc_assigned htakes hass)
      obtain ⟨honly, hothers, ⟨a, b, hdc⟩, hrests⟩ := settled_facts (k := k.val) (fun c => { c with credit := 0 }) s
      refine ⟨_, hfx, honly, hothers, (congrArg Chan.credit hdc).trans rfl, (congrArg Chan.held hdc).trans rfl, (congrArg Chan.pos hdc).trans rfl,
        (congrArg Chan.prog hdc).trans rfl, hrests, fun hst hunit hpoint hplace hneeds => ?_⟩
      refine dcSettle_waits ?_ ?_ ?_ ?_ ?_ <;> rw [modDc_dc_same]
      · exact hst
      · exact hunit
      · exact hpoint
      · exact hplace
      · exact hneeds
  · intro c
    have hfx : exec (.dcConfigWrite who k r v) s = .next (dcConfig who k r (~~~ 0) v s) := congrArg Host.Outcome.next (dcConfigWrite_takes htakes)
    refine ⟨fun hr hst => ?_, fun hr hon => ?_, fun hr hon hsize => ?_, fun hr hst => ?_, fun hr hst => ?_, fun hr hst => ?_, fun hr hst => ?_, fun hr => ?_,
      fun hr hoff => ?_, fun hr hsize => ?_, fun hr hoff hsize => ?_⟩
    · have hidle : decide (c.st = .idle) = false := decide_eq_false hst
      rcases hr with rfl | rfl | rfl | rfl <;>
        exact ⟨_, hfx.trans (congrArg Host.Outcome.next (if_neg (by rw [hidle]; decide))), dropReg_dropped _ _ _ _⟩
    · subst hr
      exact ⟨_, hfx.trans (congrArg Host.Outcome.next (if_pos hon)), dropReg_dropped _ _ _ _⟩
    · subst hr
      exact ⟨_, hfx.trans (congrArg Host.Outcome.next ((if_neg hsize).trans (if_pos hon))), dropReg_dropped _ _ _ _⟩
    · subst hr
      exact writes hfx (if_pos (decide_eq_true hst))
    · subst hr
      exact writes hfx (if_pos (decide_eq_true hst))
    · subst hr
      exact writes hfx (if_pos (decide_eq_true hst))
    · subst hr
      obtain ⟨t, hexec, honly, hothers, hdc⟩ := writes hfx (if_pos (decide_eq_true hst))
      exact ⟨t, hexec, honly, hothers, (congrArg Chan.cfg hdc).trans rfl⟩
    · subst hr
      exact writes (f := fun c => { c with post := (Reg.dcPost k).write c.post (~~~ 0) v }) hfx rfl
    · subst hr
      exact writes hfx (if_neg (by rw [hoff]; decide))
    · subst hr
      obtain ⟨honly, hothers, ⟨x, y, hdc⟩, hrests⟩ := settled_facts (k := k.val) (fun c => { c with recCfg := (Reg.dcRecCfg k).write (s.dc k.val).recCfg (~~~ 0) v }) s
      exact ⟨_, hfx.trans (congrArg Host.Outcome.next (if_pos hsize)), honly, hothers, (congrArg Chan.prog hdc).trans rfl, (congrArg Chan.credit hdc).trans rfl,
        (congrArg Chan.held hdc).trans rfl, (congrArg Chan.pos hdc).trans rfl, (congrArg Chan.recTail hdc).trans rfl, hrests⟩
    · subst hr
      exact writes hfx ((if_neg hsize).trans (if_neg (by rw [hoff]; decide)))
  · intro c md a
    have hfx : exec (.dcRecHeadWrite who k head) s = .next (dcHead k.val head.toNat s) := congrArg Host.Outcome.next (gateW_takes htakes)
    obtain ⟨honly, hothers, ⟨x, y, hdc⟩, -⟩ := settled_facts (k := k.val) (headed head.toNat) s
    have hhead : ((dcHead k.val head.toNat s).dc k.val).recHead = (judgeHead c.recK c.recHead c.recTail head.toNat).1 := (congrArg Chan.recHead hdc).trans rfl
    exact ⟨_, hfx, honly, hothers, fun h => hhead.trans (judgeHead_taken h), fun h1 h2 => hhead.trans (judgeHead_clamped h1 h2),
      fun h1 h2 => hhead.trans (judgeHead_kept h1 h2), (congrArg Chan.held hdc).trans rfl, (congrArg Chan.i0 hdc).trans rfl, (congrArg Chan.i1 hdc).trans rfl,
      (congrArg Chan.i2 hdc).trans rfl, (congrArg Chan.recTail hdc).trans rfl⟩
  · refine ⟨_, congrArg Host.Outcome.next (fxDcPacePulse_due hserving hasleep h1 h2), Only.pulseChans _ _ (by decide) (Only.refl _ _), fun k hk => ?_⟩
    have hsrc : src.toNat ≠ 0 := by omega
    exact ⟨fun h => pulseChans_notNamed hk h, fun hnamed hst hlow => pulseChans_takes hk hsrc hnamed hst hlow,
      fun hnamed hst hfull => pulseChans_full hk hsrc hnamed hst hfull⟩

end Sys2Proof.ChannelControl
end

section
/-!
How a data channel moves data (R302, R305, R307 to R312, R315, R316, R326): units, fetches, elements and their lines, with what a completion point
leaves.
-/

namespace Sys2Proof.Machine

section
variable {k : Nat} {s : State}

/-! ### A state that differs at one channel -/

theorem AtChan.refl (k : Nat) (s : State) : AtChan k (s.dc k) s s := ⟨Only.refl _ _, fun _ _ => rfl, rfl⟩

theorem AtChan.then {c : Chan} {x : State} (h : AtChan k c s x) (f : Chan → Chan) : AtChan k (f c) s (Machine.modDc k f x) :=
  ⟨Only.modDc _ _ (by decide) h.only, fun j hj => (modDc_dc_ne _ _ hj).trans (h.others j hj), by rw [modDc_dc_same, h.chan]⟩

theorem AtChan.check {c : Chan} {x : State} (h : AtChan k c s x) (hprev : c.unitPrev = (s.dc k).unitPrev) (d : Dir) (a l : Nat) :
    dcCheck x k d a l = dcCheck s k d a l :=
  chk_congr (h.only.2 .start (by decide)) (h.only.gen_eq (by decide) (by decide)) (by rw [h.chan, hprev]) d a l

/-- A channel settled behind a change of it. -/
theorem AtChan.settled {c : Chan} {x : State} (h : AtChan k c s x) :
    Only [.dcs, .tens] s (dcSettle k x) ∧ OtherDcs k s (dcSettle k x) ∧ ∃ a b, (dcSettle k x).dc k = { c with st := a, rstall := b } := by
  refine ⟨Only.dcSettle _ _ (by decide) (h.only.mono (by decide)), h.trans (Chn.dcSettle (Chn.refl _ _)), ?_⟩
  obtain ⟨a, b, hdc⟩ := dcSettle_dc k x
  exact ⟨a, b, by rw [hdc, h.chan]⟩

theorem AtChan.unsup {c : Chan} {x : State} (h : AtChan k c s x) (detail : Nat) :
    Only chanParts s (dcUnsup k detail x) ∧ OtherDcs k s (dcUnsup k detail x) ∧ ChanStopped s (dcUnsup k detail x) k stUnsupported detail := by
  obtain ⟨honly, hothers, hstopped, -⟩ := dcUnsup_facts k detail x
  exact ⟨(h.only.mono (by decide)).trans honly, fun j hj => (hothers j hj).trans (h.others j hj), hstopped.of_ten (h.dcTen k)⟩

/-! ### A unit starts (R302, R312) -/

/-- A channel in a new unit under a generation. -/
def unitBegun (g : BitVec 32) (c : Chan) : Chan :=
  { c with st := .running, inUnit := true, rstall := false, credit := if c.psrc = 0 then c.credit else c.credit - 1, heldTag := g, unitPrev := false, moved := 0 }

/-- Between two units of descriptors. -/
def BetweenUnits (c : Chan) : Prop :=
  (c.st = .running ∨ c.st = .waiting) ∧ c.trowel = false ∧ c.held.isSome = true ∧ c.inUnit = false ∧ c.atPoint = false

end

section
variable {k : ChanIx} {s : State}

theorem fxDcUnitStart_due (hon : dcuOn s = true) (h : BetweenUnits (s.dc k.val)) (hplace : (s.dc k.val).place = true ∨ (s.dc k.val).needsPlace = false)
    (hcredit : (s.dc k.val).needsCredit = false) : AtChan k.val (unitBegun s.gen.active (s.dc k.val)) s (fxDcUnitStart k s) := by
  obtain ⟨hst, htrowel, hheld, hunit, hpoint⟩ := h
  have hst' : ((s.dc k.val).st = .running || (s.dc k.val).st = .waiting) = true := by simpa using hst
  have hplace' : ((s.dc k.val).place || !(s.dc k.val).needsPlace) = true := by rcases hplace with h | h <;> simp [h]
  rw [fxDcUnitStart, whenS_true (by simp only [hon, hst', htrowel, hheld, hunit, hpoint, hplace', hcredit, Bool.not_false, Bool.and_self])]
  exact AtChan.modDc_modDc (fun c => { c with heldTag := s.gen.active, unitPrev := false, moved := 0 })
    (fun c => { c with st := .running, inUnit := true, rstall := false, credit := if c.psrc = 0 then c.credit else c.credit - 1 }) s

theorem fxDcUnitStart_waits (h : (s.dc k.val).needsCredit = true ∨ ((s.dc k.val).place = false ∧ (s.dc k.val).needsPlace = true)) : fxDcUnitStart k s = s := by
  rw [fxDcUnitStart, whenS_false]
  rcases h with hcredit | ⟨hplace, hneeds⟩
  · simp [hcredit]
  · simp [hplace, hneeds]

/-! ### What a stopped channel left behind returns -/

theorem fxDescriptorFetchReturn_stray {data : Bytes} (hon : dcuOn s = true) (hlen : data.length = (s.dc k.val).itemLen)
    (hstray : (s.dc k.val).strays.any (fun x => !x.back) = true) : fxDescriptorFetchReturn k data s = modDc k.val (Chan.drop false) s := by
  rw [fxDescriptorFetchReturn, whenS_true (by rw [hon, decide_eq_true hlen]; rfl)]
  exact if_pos hstray

theorem fxDcCompletionPoint_stray {meets : Bool} (hon : dcuOn s = true) (hstray : (s.dc k.val).strays.any (fun x => x.back) = true) :
    fxDcCompletionPoint k meets s = modDc k.val (Chan.drop true) s := by
  rw [fxDcCompletionPoint, whenS_true hon]
  exact if_pos hstray

/-- At its completion point, with nothing behind that it no longer waits for. -/
structure AtPoint (s : State) (k : ChanIx) (b : Bytes) : Prop where
  on : dcuOn s = true
  trowel : (s.dc k.val).trowel = false
  held : (s.dc k.val).held = some b
  atPoint : (s.dc k.val).atPoint = true
  strays : (s.dc k.val).strays.any (fun x => x.back) = false

theorem fxDcCompletionPoint_eq {b : Bytes} {meets : Bool} (h : AtPoint s k b) :
    fxDcCompletionPoint k meets s = if (s.dc k.val).st = .running then
        dcNext k.val (readDesc b) (dcActs k.val b meets (modDc k.val (fun c => { c with backs := false }) s))
      else modDc k.val (fun c => { c with backs := false }) s := by
  rw [fxDcCompletionPoint, whenS_true h.on, if_neg (by rw [h.strays]; decide), h.held]
  dsimp only
  rw [whenS_true (by rw [h.trowel, h.atPoint]; rfl)]

/-! ### A fetch returns (R307, R315, R326, R330) -/

/-- The fetch that the channel waits for has returned. -/
theorem fxDescriptorFetchReturn_takes {data : Bytes} (hon : dcuOn s = true) (hlen : data.length = (s.dc k.val).itemLen)
    (hstray : (s.dc k.val).strays.any (fun x => !x.back) = false) (hfetch : (s.dc k.val).fetching = true) (hst : (s.dc k.val).st ≠ .paused) :
    fxDescriptorFetchReturn k data s = dcTake k.val data (modDc k.val (fun c => { c with fetching := false }) s) := by
  rw [fxDescriptorFetchReturn, whenS_true (by rw [hon, decide_eq_true hlen]; rfl), if_neg (by rw [hstray]; decide), if_pos hfetch, if_neg hst]

/-- A copy that is read ahead joins those that are held. -/
theorem fxDescriptorFetchReturn_ahead {data : Bytes} {n : Nat} (hon : dcuOn s = true) (hlen : data.length = (s.dc k.val).itemLen)
    (hstray : (s.dc k.val).strays.any (fun x => !x.back) = false) (hfetch : (s.dc k.val).fetching = false) (hnext : (s.dc k.val).following = some n)
    (hroom : (s.dc k.val).pref.length < (if (s.dc k.val).trowel then 8 else 2))
    (hopen : noPrefetch s s.gen.act (some (dcTen s k.val)) (dcWorld s k.val) ((s.dc k.val).itemAddr n) (s.dc k.val).itemLen = false) (hitem : itemOk s k.val n) :
    fxDescriptorFetchReturn k data s =
      emitRd ((s.dc k.val).itemAddr n) (s.dc k.val).itemLen (modDc k.val (fun c => { c with pref := c.pref ++ [(n, data)] }) s) := by
  have hcheck : (check s s.gen.act (some (dcTen s k.val)) (dcWorld s k.val) .read ((s.dc k.val).itemAddr n) (s.dc k.val).itemLen).isNone = true := by
    rw [show check _ _ _ _ _ _ _ = none from hitem]
    rfl
  rw [fxDescriptorFetchReturn, whenS_true (by rw [hon, decide_eq_true hlen]; rfl), if_neg (by rw [hstray]; decide), if_neg (by rw [hfetch]; decide), hnext]
  dsimp only
  rw [whenS_true (by rw [decide_eq_true hroom, hopen, hcheck]; rfl)]

end

section
variable {k : Nat} {s x : State} {c : Chan} {data : Bytes}

/-- A descriptor that is taken, with the pace source that it names. -/
def taken (data : Bytes) (c : Chan) : Chan :=
  { c with
    held := some data
    fetching := false
    n0use := if (readDesc data).xmode = 1 ∨ (readDesc data).xmode = 2 then (readDesc data).count0 else 0
    psrc := (readDesc data).psrc
    credit := if c.psrc = (readDesc data).psrc then c.credit else 0 }

variable (hx : AtChan k c s x)
include hx

theorem dcTake_reserved (htrowel : c.trowel = false) (h : (readDesc data).reservedOk = false) : dcTake k data x = dcUnsup k 0x02 x := by
  rw [dcTake, if_neg (by rw [hx.chan, htrowel]; decide)]
  exact if_pos (by rw [h]; rfl)

theorem dcTake_range (htrowel : c.trowel = false) (h : (readDesc data).reservedOk = true) (hbad : 18 ≤ (readDesc data).psrc ∨ (readDesc data).punit = 3) :
    dcTake k data x = dcUnsup k 0x81 x := by
  rw [dcTake, if_neg (by rw [hx.chan, htrowel]; decide)]
  dsimp only
  rw [if_neg (by rw [h]; decide), if_pos hbad]

theorem dcTake_extent (htrowel : c.trowel = false) (h : (readDesc data).reservedOk = true) (hpsrc : (readDesc data).psrc < 18)
    (hpunit : (readDesc data).punit ≠ 3) (hbad : (readDesc data).extents = false) : dcTake k data x = dcUnsup k 0x82 x := by
  rw [dcTake, if_neg (by rw [hx.chan, htrowel]; decide)]
  dsimp only
  rw [if_neg (by rw [h]; decide), if_neg (by omega), if_pos (by rw [hbad]; rfl)]

theorem dcTake_settles (htrowel : c.trowel = false) (h : (readDesc data).reservedOk = true) (hpsrc : (readDesc data).psrc < 18)
    (hpunit : (readDesc data).punit ≠ 3) (hext : (readDesc data).extents = true) (h0 : c.i0 < (readDesc data).count0) (h1 : c.i1 < (readDesc data).n1)
    (h2 : c.i2 < (readDesc data).n2) : ∃ y, AtChan k (taken data c) s y ∧ dcTake k data x = dcSettle k y := by
  refine ⟨usePsrc k (readDesc data).psrc (modDc k (fun c => { c with
      n0use := if (readDesc data).xmode = 1 ∨ (readDesc data).xmode = 2 then (readDesc data).count0 else 0 })
    (modDc k (fun c => { c with held := some data, fetching := false }) x)), ?_, ?_⟩
  · have hy := ((hx.then (fun c => { c with held := some data, fetching := false })).then (fun c => { c with
      n0use := if (readDesc data).xmode = 1 ∨ (readDesc data).xmode = 2 then (readDesc data).count0 else 0 })).then
      (fun c => if c.psrc = (readDesc data).psrc then c else { c with psrc := (readDesc data).psrc, credit := 0 })
    refine ⟨hy.only, hy.others, hy.chan.trans ?_⟩
    dsimp only
    split
    · next hp =>
      rw [taken, if_pos hp, ← hp]
    · next hp => rw [taken, if_neg hp]
  · rw [dcTake, if_neg (by rw [hx.chan, htrowel]; decide)]
    dsimp only
    rw [if_neg (by rw [h]; decide), if_neg (by omega), if_neg (by rw [hext]; decide), if_neg (by rw [hx.chan]; omega)]

theorem dcTake_judged {e : Nat} (htrowel : c.trowel = true) (h : tJudge c data = some e) : dcTake k data x = dcUnsup k e x := by
  rw [dcTake, if_pos (by rw [hx.chan]; exact htrowel)]
  dsimp only
  rw [hx.chan, h]

/-- An instruction but FENCE that is reached is held. -/
theorem dcTake_instr (htrowel : c.trowel = true) (h : tJudge c data = none) (hopc : tOpc data ≠ 0x0B) :
    ∃ y q cr, AtChan k { c with held := some data, fetching := false, psrc := q, credit := cr } s y ∧ dcTake k data x = dcSettle k y := by
  have hheld := hx.then (fun c => { c with held := some data, fetching := false })
  have heq : dcTake k data x = if tOpc data = 0x0A then dcSettle k (usePsrc k (tF data) (modDc k (fun c => { c with held := some data, fetching := false }) x))
      else dcSettle k (modDc k (fun c => { c with held := some data, fetching := false }) x) := by
    rw [dcTake, if_pos (by rw [hx.chan]; exact htrowel)]
    dsimp only
    rw [hx.chan, h]
    dsimp only
    rw [if_neg hopc]
  rw [heq]
  split
  · have hpaced := hheld.then (fun c => if c.psrc = tF data then c else { c with psrc := tF data, credit := 0 })
    refine ⟨_, tF data, if c.psrc = tF data then c.credit else 0, ⟨hpaced.only, hpaced.others, hpaced.chan.trans ?_⟩, rfl⟩
    dsimp only
    split
    · next hp => rw [← hp]
    · rfl
  · exact ⟨_, c.psrc, c.credit, hheld, rfl⟩

end

/-! ### An element is read (R309, R311, R314) -/

theorem lenIn_pos (d : Desc) : 0 < d.lenIn := by
  rw [Desc.lenIn]
  split <;> exact Nat.succ_pos _

/-- The addresses of the current element. -/
def srcNow (d : Desc) (c : Chan) : Nat := (patAddr d.src d.ss [c.i0, c.i1, c.i2]).toNat
def dstNow (d : Desc) (c : Chan) : Nat := (patAddr d.dst d.ds [c.i0, c.i1, c.i2]).toNat

/-- A channel of which the current element is to be moved, with nothing read ahead. -/
structure AtElement (s : State) (k : ChanIx) (b data : Bytes) : Prop where
  on : dcuOn s = true
  st : (s.dc k.val).st = .running
  trowel : (s.dc k.val).trowel = false
  held : (s.dc k.val).held = some b
  unit : (s.dc k.val).inUnit = true
  point : (s.dc k.val).atPoint = false
  ahead : (s.dc k.val).ahead = []
  len : data.length = (readDesc b).lenIn

/-- The elements that a read of the channel brings. -/
def readElems (c : Chan) (d : Desc) (n : Nat) : List (Nat × Nat × Nat) := ((c.unread d c.ahead.length c.pos).map (d.reads n)).getD []

section
variable {k : ChanIx} {s : State} {b data : Bytes}

theorem AtElement.elems (h : AtElement s k b data) : readElems (s.dc k.val) (readDesc b) (data.length / (readDesc b).lenIn) = [(s.dc k.val).pos] := by
  rw [readElems, h.ahead, h.len, Nat.div_self (lenIn_pos _)]
  rfl

theorem AtElement.data_ne (h : AtElement s k b data) : data ≠ [] := by
  intro hnil
  have hlen := h.len
  rw [hnil, List.length_nil] at hlen
  exact absurd hlen (Nat.ne_of_lt (lenIn_pos _))

theorem dcMayRead_pos (k : Nat) (d : Desc) : dcMayRead s k d [(s.dc k).pos] true = true := by
  rw [dcMayRead]
  simp

theorem fxDcElementGrant_held (move : Bool) (hheld : (s.dc k.val).held = some b) :
    fxDcElementGrant k data move s =
      whenS (dcuOn s && !(s.dc k.val).trowel && !(s.dc k.val).atPoint && decide ((s.dc k.val).st = .running ∨ (s.dc k.val).st = .waiting)
        && (!move || ((s.dc k.val).inUnit && dcTurn s k.val))
        && decide (data.length = (readElems (s.dc k.val) (readDesc b) (data.length / (readDesc b).lenIn)).length * (readDesc b).lenIn)
        && (if data = [] then move else dcMayRead s k.val (readDesc b) (readElems (s.dc k.val) (readDesc b) (data.length / (readDesc b).lenIn)) move)
        && (!move || (s.dc k.val).isRead (s.dc k.val).pos
          || decide ((readElems (s.dc k.val) (readDesc b) (data.length / (readDesc b).lenIn)).head? = some (s.dc k.val).pos)))
      (fun s' => (if data = [] then none
          else dcCheck s' k.val .read ((readDesc b).srcAt ((readElems (s.dc k.val) (readDesc b) (data.length / (readDesc b).lenIn)).headD (s.dc k.val).pos)) data.length).elim
        (if move then dcMoveRead k.val (readDesc b) (dcServed k.val
            (if data = [] then s' else dcRead k.val (readDesc b) (readElems (s.dc k.val) (readDesc b) (data.length / (readDesc b).lenIn)) data s'))
          else (if data = [] then s' else dcRead k.val (readDesc b) (readElems (s.dc k.val) (readDesc b) (data.length / (readDesc b).lenIn)) data s'))
        (fun e => dcReadFault k.val e.1 e.2 s')) s := by
  rw [fxDcElementGrant]
  dsimp only
  rw [hheld]
  dsimp only
  refine congrArg (fun f => whenS _ f s) (funext fun s' => ?_)
  rw [show (((s.dc k.val).unread (readDesc b) (s.dc k.val).ahead.length (s.dc k.val).pos).map ((readDesc b).reads (data.length / (readDesc b).lenIn))).getD [] =
    readElems (s.dc k.val) (readDesc b) (data.length / (readDesc b).lenIn) from rfl]
  generalize readElems (s.dc k.val) (readDesc b) (data.length / (readDesc b).lenIn) = is
  generalize (if data = [] then none else dcCheck s' k.val .read ((readDesc b).srcAt (is.headD (s.dc k.val).pos)) data.length) = fault
  cases fault <;> rfl

/-- Out of its turn nothing is moved. -/
theorem fxDcElementGrant_waits (h : AtElement s k b data) (hturn : dcTurn s k.val = false) : fxDcElementGrant k data true s = s := by
  rw [fxDcElementGrant_held true h.held, whenS_false (by simp [hturn])]

theorem fxDcElementGrant_turn (h : AtElement s k b data) (hturn : dcTurn s k.val = true) :
    fxDcElementGrant k data true s = (dcCheck s k.val .read (srcNow (readDesc b) (s.dc k.val)) data.length).elim
      (dcMoveRead k.val (readDesc b) (dcServed k.val (dcRead k.val (readDesc b) [(s.dc k.val).pos] data s))) (fun e => dcReadFault k.val e.1 e.2 s) := by
  rw [fxDcElementGrant_held true h.held, h.elems, whenS_true ?_]
  · rw [if_neg h.data_ne, if_neg h.data_ne]
    rfl
  · rw [if_neg h.data_ne, dcMayRead_pos]
    simp [h.on, h.trowel, h.point, h.st, h.unit, hturn, h.len]

/-- A read of the current element that fails its check stops the channel there, where no line is gathered. -/
theorem fxDcElementGrant_readFails (h : AtElement s k b data) (hturn : dcTurn s k.val = true) (hlines : (s.dc k.val).lines = [])
    (hbad : dcCheck s k.val .read (srcNow (readDesc b) (s.dc k.val)) (readDesc b).lenIn ≠ none) :
    ∃ fa cause, fxDcElementGrant k data true s = dcStop k.val stAccess 0x01 fa .read cause (dcViol k.val fa .read cause s) := by
  obtain ⟨⟨fa, cause⟩, hfault⟩ := Option.ne_none_iff_exists'.mp hbad
  refine ⟨fa, cause, ?_⟩
  rw [fxDcElementGrant_turn h hturn, h.len, hfault, Option.elim_some, dcReadFault, dcFlushAll, dcFlush_none _ hlines]
  exact if_neg (by rw [h.st]; decide)

/-- The current element as it is read. -/
def elemRead (d : Desc) (c : Chan) (data : Bytes) : GLine := ⟨0, srcNow d c, slice data (0 * d.lenIn) d.lenIn, c.i0, c.i1, c.i2⟩

/-- The state in which the element, which has been read, is moved. -/
def elemState (k : ChanIx) (b data : Bytes) (s : State) : State :=
  modDc k.val (fun c => { c with ahead := c.ahead.filter (fun h => decide ((h.i0, h.i1, h.i2) ≠ c.pos)) })
    (dcServed k.val (dcRead k.val (readDesc b) [(s.dc k.val).pos] data s))

theorem dcRead_dc (h : AtElement s k b data) :
    (dcServed k.val (dcRead k.val (readDesc b) [(s.dc k.val).pos] data s)).dc k.val = { s.dc k.val with ahead := [elemRead (readDesc b) (s.dc k.val) data] } := by
  have hserved (x : State) : (dcServed k.val x).dc k.val = x.dc k.val := rfl
  rw [hserved, dcRead, emitRd_dc, modDc_dc_same, h.ahead]
  rfl

theorem elemState_dc (h : AtElement s k b data) : (elemState k b data s).dc k.val = s.dc k.val := by
  rw [elemState, modDc_dc_same, dcRead_dc h]
  have hahead := h.ahead
  generalize s.dc k.val = c at hahead
  cases c
  dsimp only at hahead
  subst hahead
  simp [elemRead, Chan.pos]

theorem elemState_only (k : ChanIx) (b data : Bytes) (s : State) : Only [.sch, .dcs, .out] s (elemState k b data s) :=
  Only.modDc _ _ (by decide) (Only.modSch _ (by decide) (Only.emitRd _ _ _ (by decide) (Only.modDc _ _ (by decide) (Only.refl _ _))))

theorem elemState_others (k : ChanIx) (b data : Bytes) (s : State) : OtherDcs k.val s (elemState k b data s) := by
  intro j hj
  have hserved (x : State) : (dcServed k.val x).dc j = x.dc j := rfl
  rw [elemState, modDc_dc_ne _ _ hj, hserved, dcRead, emitRd_dc, modDc_dc_ne _ _ hj]

theorem elemState_out (h : AtElement s k b data) : (elemState k b data s).out = (emitRd (srcNow (readDesc b) (s.dc k.val)) (readDesc b).lenIn s).out := by
  have hserved (x : State) : (dcServed k.val x).out = x.out := rfl
  rw [elemState, modDc_out, hserved, dcRead, h.len]
  exact emitRd_out2 _ _ _ _ (modDc_out _ _ _)

theorem fxDcElementGrant_moves (h : AtElement s k b data) (hturn : dcTurn s k.val = true)
    (hok : dcCheck s k.val .read (srcNow (readDesc b) (s.dc k.val)) (readDesc b).lenIn = none) :
    fxDcElementGrant k data true s = dcMove k.val (readDesc b) data (elemState k b data s) := by
  have hread : ((dcServed k.val (dcRead k.val (readDesc b) [(s.dc k.val).pos] data s)).dc k.val).readOf = some (elemRead (readDesc b) (s.dc k.val) data) := by
    rw [dcRead_dc h]
    simp [Chan.readOf, Chan.pos, elemRead]
  have hdata : (elemRead (readDesc b) (s.dc k.val) data).data = data := by
    rw [elemRead, ← h.len]
    simp [slice]
  rw [fxDcElementGrant_turn h hturn, h.len, hok, Option.elim_none, dcMoveRead, hread]
  dsimp only
  rw [hdata]
  rfl

end

/-! ### Lines (R309, R311, R325) -/

/-- Bytes have joined the lines of channel k, or left: its lines are L, and the outputs o. -/
structure Gathered (k : Nat) (y z : State) (L : List GLine) (o : List Out) : Prop where
  only : Only [.dcs, .out] y z
  others : OtherDcs k y z
  chan : ∃ w p0 p1, z.dc k = { y.dc k with lines := L, wrote := w, port0 := p0, port1 := p1 }
  out : z.out = o

section
variable {k : Nat} {y : State}

theorem dcWrote_chan (a l : Nat) (y : State) :
    Only [.dcs] y (dcWrote k a l y) ∧ OtherDcs k y (dcWrote k a l y) ∧ ∃ p0 p1, (dcWrote k a l y).dc k = { y.dc k with port0 := p0, port1 := p1 } := by
  rw [dcWrote]
  refine List.foldlRecOn (motive := fun (x : State) => Only [.dcs] y x ∧ OtherDcs k y x ∧ ∃ p0 p1, x.dc k = { y.dc k with port0 := p0, port1 := p1 }) _ _
    ⟨Only.refl _ _, fun _ _ => rfl, _, _, rfl⟩ fun x hx q _ => ?_
  obtain ⟨honly, hothers, p0, p1, hdc⟩ := hx
  refine ⟨Only.modDc _ _ (by decide) honly, fun j hj => (modDc_dc_ne _ _ hj).trans (hothers j hj), ?_⟩
  rw [modDc_dc_same, hdc]
  split
  · exact ⟨_, _, rfl⟩
  · exact ⟨_, _, rfl⟩

theorem dcWrite_issues {a : Nat} {b : Bytes} (r : List Nat) (h : dcCheck y k .write a b.length = none) :
    Gathered k y (dcWrite k a b r y) (y.dc k).lines (emitWr a b y).out := by
  have hwrite : dcWrite k a b r y = modDc k (fun c => { c with wrote := some r }) (dcWrote k a b.length (emitWr a b y)) := by rw [dcWrite, h]
  obtain ⟨honly, hothers, p0, p1, hdc⟩ := dcWrote_chan (k := k) a b.length (emitWr a b y)
  have hemit : Only [.out] y (emitWr a b y) := Only.emitWr _ _ _ (by decide) (Only.refl _ _)
  rw [hwrite]
  refine ⟨Only.modDc _ _ (by decide) ((hemit.mono (by decide)).trans (honly.mono (by decide))), fun j hj => ?_, ⟨some r, p0, p1, ?_⟩, ?_⟩
  · rw [modDc_dc_ne _ _ hj, hothers j hj, emitWr_dc]
  · rw [modDc_dc_same, hdc, emitWr_dc]
  · rw [modDc_out]
    exact honly.2 .out (by decide)

/-- A write that fails its check stops the channel at its resume point. -/
theorem dcWrite_stops {a : Nat} {b : Bytes} (r : List Nat) (h : dcCheck y k .write a b.length ≠ none) :
    Only chanParts y (dcWrite k a b r y) ∧ OtherDcs k y (dcWrite k a b r y) ∧ ChanStopped y (dcWrite k a b r y) k stAccess 0x02 ∧
      ((dcWrite k a b r y).dc k).i2 = r.getD 0 0 ∧ ((dcWrite k a b r y).dc k).i1 = r.getD 1 0 ∧ ((dcWrite k a b r y).dc k).i0 = r.getD 2 0 := by
  obtain ⟨⟨fa, cause⟩, hbad⟩ := Option.ne_none_iff_exists'.mp h
  have hwrite : dcWrite k a b r y = dcStop k stAccess 0x02 fa .write cause (dcViol k fa .write cause (modDc k (fun c => c.backTo r) y)) := by rw [dcWrite, hbad]
  have hback := AtChan.modDc (k := k) (fun c => c.backTo r) y
  have hviol (x : State) : Only [.tens] x (dcViol k fa .write cause x) := Only.dcViol _ _ _ _ _ (by decide) (Only.refl _ _)
  have hdc (j : Nat) := dcViol_dc k j fa .write cause (modDc k (fun c => c.backTo r) y)
  have hx : Only chanParts y (dcViol k fa .write cause (modDc k (fun c => c.backTo r) y)) := (hback.only.mono (by decide)).trans ((hviol _).mono (by decide))
  rw [hwrite]
  generalize dcViol k fa .write cause (modDc k (fun c => c.backTo r) y) = x at hdc hx ⊢
  obtain ⟨honly, hchn, hstopped, h0, h1, h2, -⟩ := dcStop_facts k stAccess 0x02 fa .write cause x
  refine ⟨hx.trans honly, fun j hj => (hchn.1 j hj).trans ((hdc j).trans (hback.others j hj)), hstopped.of_ten (dcTen_of k hx), ?_, ?_, ?_⟩
  · rw [h2, hdc, hback.chan]
    rfl
  · rw [h1, hdc, hback.chan]
    rfl
  · rw [h0, hdc, hback.chan]
    rfl

/-- A line joins the lines of its channel, or goes out when it is full. -/
def lineOut (k : Nat) (g : GLine) (y : State) : State :=
  if 64 ≤ g.data.length then dcWrite k g.addr g.data (earliest { y.dc k with lines := g :: (y.dc k).lines }) y
  else modDc k (fun c => { c with lines := c.lines ++ [g] }) y

theorem lineOut_short {g : GLine} (h : g.data.length < 64) : Gathered k y (lineOut k g y) ((y.dc k).lines ++ [g]) y.out := by
  rw [lineOut, if_neg (by omega)]
  obtain ⟨honly, hothers, hdc⟩ := AtChan.modDc (k := k) (fun c => { c with lines := c.lines ++ [g] }) y
  exact ⟨honly.mono (by decide), hothers, ⟨_, _, _, hdc⟩, modDc_out _ _ _⟩

theorem lineOut_full {g : GLine} (h : 64 ≤ g.data.length) :
    lineOut k g y = dcWrite k g.addr g.data (earliest { y.dc k with lines := g :: (y.dc k).lines }) y := if_pos h

/-- The lines of other streams. -/
def otherLines (key : Nat) (c : Chan) : List GLine := c.lines.filter (fun h => h.key != key)

/-- The line of one stream is taken from the channel. -/
def takeLine (k key : Nat) (y : State) : State := modDc k (fun c => { c with lines := c.lines.filter (fun h => h.key != key) }) y

theorem takeLine_gathered (key : Nat) : Gathered k y (takeLine k key y) (otherLines key (y.dc k)) y.out := by
  obtain ⟨honly, hothers, hdc⟩ := AtChan.modDc (k := k) (fun c => { c with lines := c.lines.filter (fun h => h.key != key) }) y
  exact ⟨honly.mono (by decide), hothers, ⟨_, _, _, hdc⟩, modDc_out _ _ _⟩

/-- The line that new bytes begin. -/
def lineOf (key addr : Nat) (data : Bytes) (c : Chan) : GLine := ⟨key, addr, data, c.i0, c.i1, c.i2⟩

theorem dcGather_new {key addr : Nat} {data : Bytes} (h : (y.dc k).lines.find? (fun g => g.key = key) = none) :
    dcGather k key addr data y = lineOut k (lineOf key addr data (y.dc k)) y := by
  rw [dcGather]
  dsimp only
  rw [h]
  rfl

theorem dcGather_joins {key addr : Nat} {data : Bytes} {g : GLine} (h : (y.dc k).lines.find? (fun g => g.key = key) = some g)
    (hjoins : g.addr + g.data.length = addr ∧ g.data.length + data.length ≤ 64) :
    dcGather k key addr data y = lineOut k { g with data := g.data ++ data } (takeLine k key y) := by
  rw [dcGather]
  dsimp only
  rw [h]
  exact if_pos hjoins

theorem dcGather_apart {key addr : Nat} {data : Bytes} {g : GLine} (h : (y.dc k).lines.find? (fun g => g.key = key) = some g)
    (hapart : ¬ (g.addr + g.data.length = addr ∧ g.data.length + data.length ≤ 64)) {z : State}
    (hz : z = dcWrite k g.addr g.data (earliest (y.dc k)) (takeLine k key y)) :
    dcGather k key addr data y = if (z.dc k).st = .stopped then z else lineOut k (lineOf key addr data (y.dc k)) z := by
  rw [dcGather]
  dsimp only
  rw [h]
  subst hz
  exact if_neg hapart

theorem Gathered.check {z : State} {L : List GLine} {o : List Out} (h : Gathered k y z L o) (d : Dir) (a l : Nat) : dcCheck z k d a l = dcCheck y k d a l := by
  obtain ⟨w, p0, p1, hdc⟩ := h.chan
  exact chk_congr (h.only.2 .start (by decide)) (h.only.gen_eq (by decide) (by decide)) (by rw [hdc]) d a l

theorem Gathered.lines {z : State} {L : List GLine} {o : List Out} (h : Gathered k y z L o) : (z.dc k).lines = L := by
  obtain ⟨w, p0, p1, hdc⟩ := h.chan
  rw [hdc]

theorem Gathered.st {z : State} {L : List GLine} {o : List Out} (h : Gathered k y z L o) : (z.dc k).st = (y.dc k).st := by
  obtain ⟨w, p0, p1, hdc⟩ := h.chan
  rw [hdc]

theorem Gathered.trans {z t : State} {L L' : List GLine} {o o' : List Out} (h : Gathered k y z L o) (g : Gathered k z t L' o') : Gathered k y t L' o' := by
  obtain ⟨w, p0, p1, hdc⟩ := h.chan
  obtain ⟨w', p0', p1', hdc'⟩ := g.chan
  refine ⟨h.only.trans g.only, fun j hj => (g.others j hj).trans (h.others j hj), ⟨w', p0', p1', ?_⟩, g.out⟩
  rw [hdc', hdc]

theorem Gathered.out_congr {z : State} {L : List GLine} {o o' : List Out} (h : Gathered k y z L o) (e : o = o') : Gathered k y z L o' := e ▸ h

theorem emitWr_out_of {a : Nat} {b : Bytes} {z : State} {L : List GLine} (h : Gathered k y z L y.out) : (emitWr a b z).out = (emitWr a b y).out :=
  emitWr_out_congr _ _ h.out

/-! ### What becomes of the bytes of an element (R309, R311) -/

section
variable {key addr : Nat} {data : Bytes}

theorem gather_begins (h : (y.dc k).lines.find? (fun g => g.key = key) = none) (hlen : data.length < 64) :
    Gathered k y (dcGather k key addr data y) ((y.dc k).lines ++ [lineOf key addr data (y.dc k)]) y.out := by
  rw [dcGather_new h]
  exact lineOut_short hlen

theorem gather_passes (h : (y.dc k).lines.find? (fun g => g.key = key) = none) (hlen : data.length = 64) (hok : dcCheck y k .write addr 64 = none) :
    Gathered k y (dcGather k key addr data y) (y.dc k).lines (emitWr addr data y).out := by
  rw [dcGather_new h, lineOut_full (le_of_eq hlen.symm)]
  exact dcWrite_issues _ (hlen ▸ hok)

theorem gather_grows {g : GLine} (h : (y.dc k).lines.find? (fun g => g.key = key) = some g) (hnext : g.addr + g.data.length = addr)
    (hlen : g.data.length + data.length < 64) :
    Gathered k y (dcGather k key addr data y) (otherLines key (y.dc k) ++ [{ g with data := g.data ++ data }]) y.out := by
  have htake := takeLine_gathered (k := k) (y := y) key
  have hline := lineOut_short (k := k) (y := takeLine k key y) (g := { g with data := g.data ++ data }) (by rw [List.length_append]; exact hlen)
  rw [htake.lines] at hline
  rw [dcGather_joins h ⟨hnext, le_of_lt hlen⟩]
  exact (htake.trans hline).out_congr htake.out

theorem gather_fills {g : GLine} (h : (y.dc k).lines.find? (fun g => g.key = key) = some g) (hnext : g.addr + g.data.length = addr)
    (hlen : g.data.length + data.length = 64) (hok : dcCheck y k .write g.addr 64 = none) :
    Gathered k y (dcGather k key addr data y) (otherLines key (y.dc k)) (emitWr g.addr (g.data ++ data) y).out := by
  have htake := takeLine_gathered (k := k) (y := y) key
  have hfull : (g.data ++ data).length = 64 := by rw [List.length_append, hlen]
  rw [dcGather_joins h ⟨hnext, le_of_eq hlen⟩, lineOut_full (le_of_eq hfull.symm)]
  generalize earliest _ = r
  have hwrite := dcWrite_issues (k := k) (y := takeLine k key y) (a := g.addr) (b := g.data ++ data) r (by rw [htake.check, hfull]; exact hok)
  rw [htake.lines] at hwrite
  exact (htake.trans hwrite).out_congr (emitWr_out_of htake)

theorem gather_replaces {g : GLine} (h : (y.dc k).lines.find? (fun g => g.key = key) = some g)
    (hapart : ¬ (g.addr + g.data.length = addr ∧ g.data.length + data.length ≤ 64)) (hlen : data.length < 64)
    (hok : dcCheck y k .write g.addr g.data.length = none) (hst : (y.dc k).st = .running) :
    Gathered k y (dcGather k key addr data y) (otherLines key (y.dc k) ++ [lineOf key addr data (y.dc k)]) (emitWr g.addr g.data y).out := by
  have htake := takeLine_gathered (k := k) (y := y) key
  have hwrite := dcWrite_issues (k := k) (y := takeLine k key y) (a := g.addr) (b := g.data) (earliest (y.dc k)) (by rw [htake.check]; exact hok)
  rw [htake.lines] at hwrite
  have hz := htake.trans hwrite
  rw [dcGather_apart h hapart rfl, if_neg (by rw [hz.st, hst]; decide)]
  have hline := lineOut_short (k := k) (y := dcWrite k g.addr g.data (earliest (y.dc k)) (takeLine k key y)) (g := lineOf key addr data (y.dc k)) hlen
  rw [hz.lines] at hline
  exact (hz.trans hline).out_congr (hz.out.trans (emitWr_out_of htake))

end

end

end Sys2Proof.Machine
end

section
/-!
Elements and completion points of a data channel (R308 to R317): what becomes of the current element, and what a completion point leaves, with the
statement O46.
-/

namespace Sys2Proof.Machine

/-! ### The element is moved (R308, R310) -/

/-- The stream of the current element, and its bytes as they are written. -/
def elemKey (d : Desc) (c : Chan) : Nat := if d.xmode = 2 then c.i0 else 0
def elemOut (d : Desc) (data : Bytes) : Bytes := if d.xmode = 0 then data else convSample d.lenOut (d.ctl.testBit 12) (d.ctl.testBit 13) data

section
variable {k : Nat} {y : State} {d : Desc} {data : Bytes}

/-- The lines behind the current element. -/
def gathered (k : Nat) (d : Desc) (data : Bytes) (y : State) : State := dcGather k (elemKey d (y.dc k)) (dstNow d (y.dc k)) (elemOut d data) y

theorem dcMove_eq : dcMove k d data y =
    if ((gathered k d data y).dc k).st = .stopped then gathered k d data y else dcMoved k d.lenOut (dcAdvance k d (gathered k d data y)) := rfl

/-- Channel k is at the next element of its row, with the lines L. -/
structure Advanced (k : Nat) (y t : State) (L : List GLine) (o : List Out) : Prop where
  only : Only [.dcs, .out] y t
  others : OtherDcs k y t
  chan : ∃ w p0 p1 hv up mv, t.dc k = { y.dc k with
    lines := L, wrote := w, port0 := p0, port1 := p1, heldTag := hv, unitPrev := up, moved := mv, i0 := (y.dc k).i0 + 1 }
  out : t.out = o

/-- A channel at the next element of its row. -/
def nextElem (c : Chan) : Chan := { c with i0 := c.i0 + 1 }

theorem dcAdvance_row (h : (y.dc k).i0 + 1 < d.count0) : AtChan k (nextElem (y.dc k)) y (dcAdvance k d y) := by
  have hadv : advance d (y.dc k).i0 (y.dc k).i1 (y.dc k).i2 = (((y.dc k).i0 + 1, (y.dc k).i1, (y.dc k).i2), false, false, false) := if_pos h
  have hrow : dcAdvance k d y = modDc k (fun c => { c with i0 := (y.dc k).i0 + 1, i1 := (y.dc k).i1, i2 := (y.dc k).i2 }) y := by
    rw [dcAdvance, hadv]
    dsimp only
    rw [if_neg (by decide), if_neg ?_]
    split <;> decide
  rw [hrow]
  exact AtChan.modDc (fun c => { c with i0 := (y.dc k).i0 + 1, i1 := (y.dc k).i1, i2 := (y.dc k).i2 }) y

theorem dcMoved_chan (n : Nat) (y : State) : ∃ hv up mv, AtChan k { y.dc k with heldTag := hv, unitPrev := up, moved := mv } y (dcMoved k n y) := by
  rw [dcMoved]
  dsimp only
  split
  · exact ⟨_, _, _, AtChan.modDc (fun c => { c with heldTag := y.gen.active, unitPrev := false, moved := 0 }) y⟩
  · exact ⟨_, _, _, AtChan.modDc (fun c => { c with moved := (y.dc k).moved + n }) y⟩

theorem dcMove_advances {L : List GLine} {o : List Out} (h : Gathered k y (gathered k d data y) L o) (hst : (y.dc k).st = .running)
    (hrow : (y.dc k).i0 + 1 < d.count0) : Advanced k y (dcMove k d data y) L o := by
  have hrun : ((gathered k d data y).dc k).st ≠ .stopped := by rw [h.st, hst]; decide
  rw [dcMove_eq, if_neg hrun]
  obtain ⟨w, p0, p1, hdc⟩ := h.chan
  generalize gathered k d data y = z at h hdc
  have hadv := dcAdvance_row (k := k) (y := z) (d := d) (by rw [hdc]; exact hrow)
  generalize dcAdvance k d z = u at hadv
  obtain ⟨hv, up, mv, hmoved⟩ := dcMoved_chan (k := k) d.lenOut u
  have hout : ∀ {c : Chan} {a b : State}, AtChan k c a b → b.out = a.out := fun hab => hab.only.2 .out (by decide)
  refine ⟨(h.only.trans (hadv.only.mono (by decide))).trans (hmoved.only.mono (by decide)),
    fun j hj => (hmoved.others j hj).trans ((hadv.others j hj).trans (h.others j hj)), ⟨w, p0, p1, hv, up, mv, ?_⟩, (hout hmoved).trans ((hout hadv).trans h.out)⟩
  rw [hmoved.chan, hadv.chan, hdc]
  rfl

/-- Where the lines stop the channel, the element is not moved. -/
theorem dcMove_stops (h : ((gathered k d data y).dc k).st = .stopped) : dcMove k d data y = gathered k d data y := by rw [dcMove_eq, if_pos h]

end

/-! ### The grant of an element -/

section
variable {k : ChanIx} {s : State} {b data : Bytes}

/-- What an element that is moved leaves of the state, with the lines L and the outputs o. -/
structure Moves (s t : State) (k : ChanIx) (b : Bytes) (L : List GLine) (o : List Out) : Prop where
  only : Only [.sch, .dcs, .out] s t
  others : OtherDcs k.val s t
  st : (t.dc k.val).st = .running
  held : (t.dc k.val).held = some b
  ahead : (t.dc k.val).ahead = []
  i0 : (t.dc k.val).i0 = (s.dc k.val).i0 + 1
  i1 : (t.dc k.val).i1 = (s.dc k.val).i1
  i2 : (t.dc k.val).i2 = (s.dc k.val).i2
  out : t.out = o
  lines : (t.dc k.val).lines = L

theorem Moves.moved {t : State} {L : List GLine} {o : List Out} (h : Moves s t k b L o) :
    Only [.sch, .dcs, .out] s t ∧ OtherDcs k.val s t ∧ (t.dc k.val).st = .running ∧ (t.dc k.val).held = some b ∧ (t.dc k.val).ahead = [] ∧
      (t.dc k.val).i0 = (s.dc k.val).i0 + 1 ∧ (t.dc k.val).i1 = (s.dc k.val).i1 ∧ (t.dc k.val).i2 = (s.dc k.val).i2 :=
  ⟨h.only, h.others, h.st, h.held, h.ahead, h.i0, h.i1, h.i2⟩

theorem Gathered.refl (k : Nat) (y : State) : Gathered k y y (y.dc k).lines y.out := ⟨Only.refl _ _, fun _ _ => rfl, ⟨_, _, _, rfl⟩, rfl⟩

theorem grant_moves {L : List GLine} {o : List Out} (h : AtElement s k b data)
    (hg : Gathered k.val (elemState k b data s) (gathered k.val (readDesc b) data (elemState k b data s)) L o)
    (hrow : (s.dc k.val).i0 + 1 < (readDesc b).count0) : Moves s (dcMove k.val (readDesc b) data (elemState k b data s)) k b L o := by
  have hdc := elemState_dc h
  have honly := elemState_only k b data s
  have hothers := elemState_others k b data s
  generalize elemState k b data s = y at hdc honly hothers hg ⊢
  obtain ⟨hadv, hadvOthers, ⟨w, p0, p1, hv, up, mv, hchan⟩, hout⟩ := dcMove_advances hg (by rw [hdc]; exact h.st) (by rw [hdc]; exact hrow)
  rw [hdc] at hchan
  exact ⟨honly.trans (hadv.mono (by decide)), fun j hj => (hadvOthers j hj).trans (hothers j hj), by rw [hchan]; exact h.st, by rw [hchan]; exact h.held,
    by rw [hchan]; exact h.ahead, by rw [hchan], by rw [hchan], by rw [hchan], hout, by rw [hchan]⟩

/-- What a stop at an element leaves. -/
def StopsAt (s t : State) (k : ChanIx) (detail : Nat) (at3 : List Nat) : Prop :=
  Only (.sch :: chanParts) s t ∧ OtherDcs k.val s t ∧ ChanStopped s t k.val stAccess detail ∧
    (t.dc k.val).i2 = at3.getD 0 0 ∧ (t.dc k.val).i1 = at3.getD 1 0 ∧ (t.dc k.val).i0 = at3.getD 2 0

theorem elemState_check (h : AtElement s k b data) (d : Dir) (a l : Nat) : dcCheck (elemState k b data s) k.val d a l = dcCheck s k.val d a l := by
  have honly := elemState_only k b data s
  exact chk_congr (honly.2 .start (by decide)) (honly.gen_eq (by decide) (by decide)) (by rw [elemState_dc h]) d a l

/-- A line that fails its check stops the channel at the first element of it. -/
theorem grant_stops (h : AtElement s k b data) {a : Nat} {l : Bytes} {r : List Nat} {z : State} {L : List GLine} {o : List Out}
    (hz : Gathered k.val (elemState k b data s) z L o) (hg : gathered k.val (readDesc b) data (elemState k b data s) = dcWrite k.val a l r z ∨
      ∃ e, gathered k.val (readDesc b) data (elemState k b data s) = if ((dcWrite k.val a l r z).dc k.val).st = .stopped then dcWrite k.val a l r z else e)
    (hbad : dcCheck s k.val .write a l.length ≠ none) : StopsAt s (dcMove k.val (readDesc b) data (elemState k b data s)) k 0x02 r := by
  have hbad' : dcCheck z k.val .write a l.length ≠ none := by rwa [hz.check, elemState_check h]
  obtain ⟨hwrite, hothers, hstopped, h2, h1, h0⟩ := dcWrite_stops r hbad'
  have hgathered : gathered k.val (readDesc b) data (elemState k b data s) = dcWrite k.val a l r z := by
    rcases hg with e | ⟨y, e⟩
    · exact e
    · rw [e, if_pos hstopped.1]
  rw [dcMove_stops (by rw [hgathered]; exact hstopped.1), hgathered]
  have honly := elemState_only k b data s
  have hten : dcTen z k.val = dcTen s k.val := by
    rw [dcTen_congr k.val (hz.only.2 .start (by decide)) (hz.only.gen_eq (by decide) (by decide)),
      dcTen_congr k.val (honly.2 .start (by decide)) (honly.gen_eq (by decide) (by decide))]
  exact ⟨((honly.mono (by decide)).trans (hz.only.mono (by decide))).trans (hwrite.mono (by decide)),
    fun j hj => (hothers j hj).trans ((hz.others j hj).trans (elemState_others k b data s j hj)), hstopped.of_ten hten, h2, h1, h0⟩

/-- A read that fails its check stops the channel at its element. -/
theorem grant_readStops (h : AtElement s k b data) (hturn : dcTurn s k.val = true) (hlines : (s.dc k.val).lines = [])
    (hbad : dcCheck s k.val .read (srcNow (readDesc b) (s.dc k.val)) (readDesc b).lenIn ≠ none) :
    StopsAt s (fxDcElementGrant k data true s) k 0x01 [(s.dc k.val).i2, (s.dc k.val).i1, (s.dc k.val).i0] := by
  obtain ⟨fa, cause, hfx⟩ := fxDcElementGrant_readFails h hturn hlines hbad
  have hviol : Only [.tens] s (dcViol k.val fa .read cause s) := Only.dcViol _ _ _ _ _ (by decide) (Only.refl _ _)
  have hdc (j : Nat) := dcViol_dc k.val j fa .read cause s
  rw [hfx]
  generalize dcViol k.val fa .read cause s = x at hviol hdc ⊢
  obtain ⟨honly, hchn, hstopped, h0, h1, h2, -⟩ := dcStop_facts k.val stAccess 0x01 fa .read cause x
  exact ⟨(hviol.mono (by decide)).trans (honly.mono (by decide)), fun j hj => (hchn.1 j hj).trans (hdc j), hstopped.of_ten (dcTen_of k.val (hviol.mono (by decide))),
    h2.trans (by rw [hdc]; rfl), h1.trans (by rw [hdc]; rfl), h0.trans (by rw [hdc]; rfl)⟩

/-- Where nothing is gathered, the current element is the first. -/
theorem earliest_current {c : Chan} {g : GLine} (hlines : c.lines = []) (hg : g.i0 = c.i0 ∧ g.i1 = c.i1 ∧ g.i2 = c.i2) :
    earliest { c with lines := g :: c.lines } = [c.i2, c.i1, c.i0] := by
  obtain ⟨h0, h1, h2⟩ := hg
  rw [earliest, hlines]
  simp [h0, h1, h2]

/-! ### Elements that are read ahead (R314) -/

theorem fxDcElementGrant_mayNot (hheld : (s.dc k.val).held = some b) (hdata : data ≠ [])
    (hmay : dcMayRead s k.val (readDesc b) (readElems (s.dc k.val) (readDesc b) (data.length / (readDesc b).lenIn)) false = false) :
    fxDcElementGrant k data false s = s := by
  rw [fxDcElementGrant_held false hheld, whenS_false (by rw [if_neg hdata, hmay]; simp)]

theorem dcMayRead_checked {is : List (Nat × Nat × Nat)} {k : Nat} {d : Desc} {n : Nat} (hn : n = is.length * d.lenIn) (h : dcMayRead s k d is false = true) :
    dcCheck s k .read (d.srcAt (is.headD (s.dc k).pos)) n = none := by
  rw [dcMayRead] at h
  simp only [Bool.false_and, Bool.false_or, Bool.and_eq_true, Option.isNone_iff_eq_none] at h
  rw [hn]
  exact h.1.1.1.2

theorem fxDcElementGrant_ahead (hon : dcuOn s = true) (hst : (s.dc k.val).st = .running ∨ (s.dc k.val).st = .waiting) (htrowel : (s.dc k.val).trowel = false)
    (hheld : (s.dc k.val).held = some b) (hpoint : (s.dc k.val).atPoint = false) (hdata : data ≠ []) {is : List (Nat × Nat × Nat)}
    (his : is = readElems (s.dc k.val) (readDesc b) (data.length / (readDesc b).lenIn)) (hlen : data.length = is.length * (readDesc b).lenIn)
    (hmay : dcMayRead s k.val (readDesc b) is false = true) : fxDcElementGrant k data false s = dcRead k.val (readDesc b) is data s := by
  subst his
  rw [fxDcElementGrant_held false hheld, whenS_true ?_]
  · rw [if_neg hdata, dcMayRead_checked hlen hmay, Option.elim_none, if_neg (by decide), if_neg hdata]
  · rw [if_neg hdata, hmay]
    simp only [hon, htrowel, hpoint, decide_eq_true hst, decide_eq_true hlen]
    rfl

theorem dcRead_facts (k : Nat) (d : Desc) (is : List (Nat × Nat × Nat)) (data : Bytes) (s : State) :
    Only [.dcs, .out] s (dcRead k d is data s) ∧ OtherDcs k s (dcRead k d is data s) ∧
      (dcRead k d is data s).out = (emitRd (d.srcAt (is.headD (0, 0, 0))) data.length s).out ∧
      (dcRead k d is data s).dc k = { s.dc k with ahead := ((dcRead k d is data s).dc k).ahead } ∧
      ((dcRead k d is data s).dc k).ahead.length = (s.dc k).ahead.length + is.length := by
  have hdc : (dcRead k d is data s).dc k = { s.dc k with ahead := (s.dc k).ahead ++ is.zipIdx.map (fun p =>
      ⟨0, d.srcAt p.1, slice data (p.2 * d.lenIn) d.lenIn, p.1.1, p.1.2.1, p.1.2.2⟩) } := by rw [dcRead, emitRd_dc, modDc_dc_same]
  refine ⟨Only.emitRd _ _ _ (by decide) (Only.modDc _ _ (by decide) (Only.refl _ _)), fun j hj => ?_, emitRd_out2 _ _ _ _ (modDc_out _ _ _), by rw [hdc], ?_⟩
  · rw [dcRead, emitRd_dc, modDc_dc_ne _ _ hj]
  · rw [hdc]
    simp

end

/-! ### A doorbell's rings, whatever the channels hold -/

/-- Two states with the same submission rings, and the same time count. -/
structure RingsAs (u v : State) : Prop where
  sqs : u.sqs = v.sqs
  run : u.run = v.run
  time : u.time = v.time

section
variable {u v : State} {n m : Nat}

theorem RingsAs.sq (h : RingsAs u v) (n m : Nat) : u.sq n m = v.sq n m := by rw [State.sq, State.sq, h.sqs]

theorem RingsAs.modSq (f : Sq → Sq) (h : RingsAs u v) : RingsAs (Machine.modSq n m f u) (Machine.modSq n m f v) :=
  ⟨by rw [modSq_sqs, modSq_sqs, h.sqs, h.sq], h.run, h.time⟩

theorem RingsAs.raiseT (e : Nat) (h : RingsAs u v) : RingsAs (Machine.raiseT n e u) (Machine.raiseT n e v) := ⟨h.sqs, h.run, h.time⟩

theorem RingsAs.addPosted (a b : Nat) (h : RingsAs u v) : RingsAs (Machine.addPosted n a b u) (Machine.addPosted n a b v) := ⟨h.sqs, h.run, h.time⟩

theorem RingsAs.sqClampEvent (h : RingsAs u v) : RingsAs (Machine.sqClampEvent n m u) (Machine.sqClampEvent n m v) := (h.modSq _).raiseT _

theorem RingsAs.ite {c : Prop} [Decidable c] {u' v' : State} (h : RingsAs u v) (h' : RingsAs u' v') :
    RingsAs (if c then u else u') (if c then v else v') := by
  split <;> assumption

theorem RingsAs.drainPulses (fuel : Nat) (h : RingsAs u v) : RingsAs (Machine.drainPulses n m fuel u) (Machine.drainPulses n m fuel v) := by
  induction fuel generalizing u v with
  | zero => exact h
  | succ fuel ih =>
    rw [Machine.drainPulses, Machine.drainPulses, h.sq, h.run]
    split
    · exact h
    · split
      · exact ih (h.modSq _)
      · exact h

theorem RingsAs.settleRing (h : RingsAs u v) : RingsAs (Machine.settleRing n m u) (Machine.settleRing n m v) := by
  rw [Machine.settleRing, Machine.settleRing, h.sq]
  refine RingsAs.ite h (RingsAs.ite (RingsAs.raiseT _ (RingsAs.modSq _ ?_)) ?_)
  · exact h.modSq _
  · exact h.modSq _

theorem RingsAs.doorbell (mid : BitVec 8) (w : World) (tail count : Nat) (meets : Bool) (h : RingsAs u v) :
    RingsAs (Machine.doorbell n m mid w tail count meets u) (Machine.doorbell n m mid w tail count meets v) := by
  rw [Machine.doorbell, Machine.doorbell]
  dsimp only
  rw [h.sq, h.run, h.time]
  refine RingsAs.ite ?_ (RingsAs.settleRing (RingsAs.sqClampEvent (RingsAs.addPosted _ _ (RingsAs.modSq _ ?_))))
  · refine RingsAs.settleRing (RingsAs.ite (RingsAs.drainPulses _ (RingsAs.ite ?_ (RingsAs.sqClampEvent ?_))) (RingsAs.ite ?_ (RingsAs.sqClampEvent ?_)))
    all_goals exact RingsAs.addPosted _ _ (RingsAs.modSq _ (RingsAs.modSq _ h))
  · exact h.modSq _

theorem dbWrite_taken {n : TenantIx} {m : RingIx} {who : Who} {tail count : Nat} {meets : Bool} (h : doorbellDropped u n m = false) :
    dbWrite who n m tail count meets u =
      if doorbellVoid (u.sq n m) tail count then (if meets then u else modSq n m (fun q => { q with headWas := q.head }) u)
      else doorbell n m who.mid who.world tail count meets u := by
  rw [dbWrite, if_neg (by rw [h]; decide)]

/-- A doorbell that is taken does the same to the rings. -/
theorem RingsAs.dbWrite {n : TenantIx} {m : RingIx} (who : Who) (tail count : Nat) (meets : Bool) (h : RingsAs u v)
    (hu : doorbellDropped u n m = false) (hv : doorbellDropped v n m = false) :
    RingsAs (Machine.dbWrite who n m tail count meets u) (Machine.dbWrite who n m tail count meets v) := by
  rw [dbWrite_taken hu, dbWrite_taken hv, h.sq]
  exact RingsAs.ite (RingsAs.ite h (h.modSq _)) (h.doorbell _ _ _ _ _)

end

/-! ### Credits of a completion point (R313) -/

/-- A completion point of channel j gives channel k a credit, where that is paced by it. -/
def creditChan (j k : Nat) (s : State) : State :=
  if (s.dc k).psrc = 0x11 ∧ (s.dc k).pch = j ∧ dcTen s k = dcTen s j ∧ dcAssigned s k = true then dcCredit k s else s

theorem chanCredits_eq (j : Nat) (s : State) : chanCredits j s = eachN (List.range 64) (creditChan j) s := rfl

section
variable {j k : Nat} {s : State}

theorem creditChan_dc_ne {i : Nat} (h : i ≠ k) (s : State) : (creditChan j k s).dc i = s.dc i := by
  rw [creditChan]
  split
  · exact dcCredit_dc_ne h s
  · rfl

theorem creditChan_only {x : State} (i : Nat) (h : Only [.tens, .dcs] s x) : Only [.tens, .dcs] s (creditChan j i x) := by
  rw [creditChan]
  split
  · exact Only.dcCredit _ _ (by decide) h
  · exact h

theorem chanCredits_event {n e : Nat} (h : TenEvent s n e) : TenEvent (chanCredits j s) n e := by
  rw [chanCredits_eq]
  refine eachN_ind (P := fun x => TenEvent x n e) _ _ _ h fun i x hx => ?_
  rw [creditChan]
  split
  · exact TEv.dcCredit hx
  · exact hx

theorem dcSettle_atPoint (h : (s.dc k).atPoint = true) : dcSettle k s = s := by
  rw [dcSettle]
  exact if_pos (by rw [h]; simp)

/-- A channel at its completion point is left there, whatever credits it holds. -/
theorem chanCredits_atPoint (h : (s.dc k).atPoint = true) : ∃ cr l, (chanCredits j s).dc k = { s.dc k with credit := cr, lost := l } := by
  rw [chanCredits_eq]
  refine eachN_ind (P := fun x => ∃ cr l, x.dc k = { s.dc k with credit := cr, lost := l }) _ _ _ ⟨_, _, rfl⟩ fun i x hx => ?_
  obtain ⟨cr, l, hdc⟩ := hx
  by_cases hi : k = i
  · subst hi
    rw [creditChan]
    split
    · rw [dcCredit]
      dsimp only
      split
      · exact ⟨cr, l, hdc⟩
      · split
        · rw [dcSettle_atPoint (by rw [modDc_dc_same, hdc]; exact h), modDc_dc_same, hdc]
          exact ⟨_, _, rfl⟩
        · rw [raiseT_dc', modDc_dc_same, hdc]
          exact ⟨_, _, rfl⟩
    · exact ⟨cr, l, hdc⟩
  · rw [creditChan_dc_ne hi]
    exact ⟨cr, l, hdc⟩

theorem dcAssigned_of_only {A : List Part} {x : State} (h : Only A s x) (hstart : Part.start ∉ A) (hgen : Part.gen ∉ A) (hact : Part.act ∉ A) (i : Nat) :
    dcAssigned x i = dcAssigned s i := by
  rw [dcAssigned, dcAssigned, h.eff_eq hstart hgen hact, h.enabled_eq hstart hgen hact, h.dcTen_eq hstart hgen hact]

/-- A channel of the same tenant that is paced by the completion point takes its credit. -/
theorem chanCredits_adds (hk : k < 64) (hpsrc : (s.dc k).psrc = 0x11) (hpch : (s.dc k).pch = j) (hten : dcTen s k = dcTen s j) (hass : dcAssigned s k = true)
    (hst : (s.dc k).st ≠ .idle) (hlow : (s.dc k).credit < 15) : ((chanCredits j s).dc k).credit = (s.dc k).credit + 1 := by
  rw [chanCredits_eq]
  refine eachN_at (P := fun x => Only [.tens, .dcs] s x ∧ x.dc k = s.dc k) (Q := fun x => (x.dc k).credit = (s.dc k).credit + 1) hk ⟨Only.refl _ _, rfl⟩
    (fun i x _ hi hx => ⟨creditChan_only i hx.1, (creditChan_dc_ne hi.symm x).trans hx.2⟩) (fun x hx => ?_) (fun i x _ hi hx => ?_)
  · obtain ⟨honly, hdc⟩ := hx
    have hnamed : (x.dc k).psrc = 0x11 ∧ (x.dc k).pch = j ∧ dcTen x k = dcTen x j ∧ dcAssigned x k = true := by
      rw [hdc, honly.dcTen_eq (by decide) (by decide) (by decide), honly.dcTen_eq (by decide) (by decide) (by decide),
        dcAssigned_of_only honly (by decide) (by decide) (by decide)]
      exact ⟨hpsrc, hpch, hten, hass⟩
    rw [creditChan, if_pos hnamed, ← hdc]
    exact (dcCredit_takes (by rw [hdc]; exact hst) (by rw [hdc]; exact hlow)).1
  · rw [creditChan_dc_ne hi.symm]
    exact hx

end

/-! ### The actions of a completion point (R316, R317) -/

section
variable {k : ChanIx} {s x : State} {b : Bytes} {meets : Bool}

/-- The ring that AH_DCk_POST names, and the doorbell that the channel writes there. -/
def postRing (c : Chan) : RingIx := Fin.ofNat 16 (fld c.post 3 0)

def pointWrite (k : ChanIx) (meets : Bool) (s : State) : State :=
  dbWrite (dcWho s k.val) (dcTen s k.val) (postRing (s.dc k.val))
    (((s.sq (dcTen s k.val) (postRing (s.dc k.val))).tail + fld (s.dc k.val).post 48 32) % 2 ^ 17) (fld (s.dc k.val).post 30 16) meets s

/-- The state behind the POST of a completion point. -/
def pointPosted (k : ChanIx) (meets : Bool) (s : State) : State :=
  dcPost k.val (fld (s.dc k.val).post 3 0) (fld (s.dc k.val).post 48 32) (fld (s.dc k.val).post 30 16) meets s

theorem pointPosted_taken (h : doorbellDropped s (dcTen s k.val) (postRing (s.dc k.val)) = false) : pointPosted k meets s = pointWrite k meets s := by
  rw [pointPosted, dcPost]
  exact if_neg (by rw [show (Fin.ofNat 16 (fld (s.dc k.val).post 3 0) : RingIx) = postRing (s.dc k.val) from rfl, h]; decide)

theorem pointPosted_dropped (h : doorbellDropped s (dcTen s k.val) (postRing (s.dc k.val)) = true) :
    pointPosted k meets s = raiseT (dcTen s k.val).val evDcPostDrop (modDc k.val (fun c => { c with postdrop := true }) (pointWrite k meets s)) := by
  rw [pointPosted, dcPost]
  exact if_pos h

/-- What the actions of a completion point may change. -/
def actParts : List Part := .sqs :: chanParts ++ dropParts

/-- The channel is at its completion point still, and every other one as it was. -/
structure Acted (k : ChanIx) (s u : State) : Prop where
  only : Only actParts s u
  others : OtherDcs k.val s u
  chan : ∃ p, u.dc k.val = { s.dc k.val with postdrop := p }

theorem pointPosted_acted : Acted k s (pointPosted k meets s) := by
  cases h : doorbellDropped s (dcTen s k.val) (postRing (s.dc k.val))
  · have honly : Only [.tens, .sqs] s (pointWrite k meets s) := dbWrite_taken_only h
    rw [pointPosted_taken h]
    exact ⟨honly.mono (by decide), fun j _ => honly.dc_eq (by decide) j, _, honly.dc_eq (by decide) _⟩
  · have hwrite : Dropped s (pointWrite k meets s) := by
      rw [pointWrite, dbWrite, if_pos h]
      exact dropReg_dropped _ _ _ _
    have hdc (j : Nat) : (pointWrite k meets s).dc j = s.dc j := hwrite.1.dc_eq (by decide) j
    rw [pointPosted_dropped h]
    refine ⟨Only.raiseT _ _ _ (by decide) (Only.modDc _ _ (by decide) (hwrite.1.mono (by decide))), fun j hj => ?_, true, ?_⟩
    · rw [raiseT_dc', modDc_dc_ne _ _ hj, hdc]
    · rw [raiseT_dc', modDc_dc_same, hdc]

theorem pointPosted_notes (h : doorbellDropped s (dcTen s k.val) (postRing (s.dc k.val)) = true) :
    ((pointPosted k meets s).dc k.val).postdrop = true ∧ TenEvent (pointPosted k meets s) (dcTen s k.val).val evDcPostDrop ∧
      (pointPosted k meets s).denied = s.denied.bump := by
  have hwrite : Dropped s (pointWrite k meets s) := by
    rw [pointWrite, dbWrite, if_pos h]
    exact dropReg_dropped _ _ _ _
  rw [pointPosted_dropped h]
  exact ⟨by rw [raiseT_dc', modDc_dc_same], raiseT_event _ _ _ (by decide), hwrite.2.2⟩

/-- The state behind POST and EVENT. -/
def pointActs (k : ChanIx) (b : Bytes) (meets : Bool) (s : State) : State :=
  let u := if (readDesc b).ctl.testBit 23 then pointPosted k meets s else s
  if (readDesc b).ctl.testBit 24 then raiseT (dcTen s k.val).val evDcDesc u else u

/-- The state behind POST. -/
def pointPost (k : ChanIx) (b : Bytes) (meets : Bool) (s : State) : State := if (readDesc b).ctl.testBit 23 then pointPosted k meets s else s

theorem pointPost_acted : Acted k s (pointPost k b meets s) := by
  rw [pointPost]
  split
  · exact pointPosted_acted
  · exact ⟨Only.refl _ _, fun _ _ => rfl, _, rfl⟩

theorem dcActs_eq (hst : (s.dc k.val).st = .running) (h22 : (readDesc b).ctl.testBit 22 = false) :
    dcActs k.val b meets s = chanCredits k.val (if (readDesc b).ctl.testBit 24 then raiseT (dcTen s k.val).val evDcDesc (pointPost k b meets s) else pointPost k b meets s) := by
  have hrun : ((pointPost k b meets s).dc k.val).st ≠ .stopped := by
    obtain ⟨p, hdc⟩ := (pointPost_acted (k := k) (s := s) (b := b) (meets := meets)).chan
    rw [hdc, hst]
    decide
  have hacts : dcActs k.val b meets s = if (((if (readDesc b).ctl.testBit 22 then dcDone k.val (pointPost k b meets s) else pointPost k b meets s).dc k.val).st = .stopped) then
      (if (readDesc b).ctl.testBit 22 then dcDone k.val (pointPost k b meets s) else pointPost k b meets s)
    else chanCredits k.val (if (readDesc b).ctl.testBit 24 then raiseT (dcTen s k.val).val evDcDesc
      (if (readDesc b).ctl.testBit 22 then dcDone k.val (pointPost k b meets s) else pointPost k b meets s)
      else (if (readDesc b).ctl.testBit 22 then dcDone k.val (pointPost k b meets s) else pointPost k b meets s)) := rfl
  rw [hacts, h22]
  simp only [Bool.false_eq_true, if_false]
  rw [if_neg hrun]

/-- The state behind every action of a completion point but the last. -/
structure Finished (k : ChanIx) (b : Bytes) (s u : State) : Prop where
  only : Only actParts s u
  chan : ∃ p cr l, u.dc k.val = { s.dc k.val with postdrop := p, credit := cr, lost := l }
  event : (readDesc b).ctl.testBit 24 = true → TenEvent u (dcTen s k.val).val evDcDesc
  adds : ∀ j, j < 64 → j ≠ k.val → (s.dc j).psrc = 0x11 → (s.dc j).pch = k.val → dcTen s j = dcTen s k.val → dcAssigned s j = true → (s.dc j).st ≠ .idle →
    (s.dc j).credit < 15 → (u.dc j).credit = (s.dc j).credit + 1

theorem evented_acted {u : State} {n : Nat} {c : Bool} (h : Acted k s u) : Acted k s (if c then raiseT n evDcDesc u else u) := by
  split
  · exact ⟨Only.raiseT _ _ _ (by decide) h.only, h.others, h.chan⟩
  · exact h

theorem acted_finished {u : State} (h : Acted k s u) (hpoint : (s.dc k.val).atPoint = true)
    (hevent : (readDesc b).ctl.testBit 24 = true → TenEvent u (dcTen s k.val).val evDcDesc) : Finished k b s (chanCredits k.val u) := by
  obtain ⟨p, hdc⟩ := h.chan
  refine ⟨Only.chanCredits _ _ (by decide) h.only, ?_, fun h24 => chanCredits_event (hevent h24), fun j hj hne hpsrc hpch hten hass hst hlow => ?_⟩
  · obtain ⟨cr, l, hcredits⟩ := chanCredits_atPoint (j := k.val) (k := k.val) (s := u) (by rw [hdc]; exact hpoint)
    exact ⟨p, cr, l, by rw [hcredits, hdc]⟩
  · have hj' : u.dc j = s.dc j := h.others j hne
    have hten' (i : Nat) : dcTen u i = dcTen s i := h.only.dcTen_eq (by decide) (by decide) (by decide) i
    have hadds := chanCredits_adds (j := k.val) (k := j) (s := u) hj (by rw [hj']; exact hpsrc) (by rw [hj']; exact hpch) (by rw [hten', hten']; exact hten)
      (by rw [dcAssigned_of_only h.only (by decide) (by decide) (by decide)]; exact hass) (by rw [hj']; exact hst) (by rw [hj']; exact hlow)
    rw [hadds, hj']

theorem dcActs_finished (hst : (s.dc k.val).st = .running) (hpoint : (s.dc k.val).atPoint = true) (h22 : (readDesc b).ctl.testBit 22 = false) :
    Finished k b s (dcActs k.val b meets s) := by
  rw [dcActs_eq hst h22]
  refine acted_finished (evented_acted pointPost_acted) hpoint fun h24 => ?_
  rw [if_pos h24]
  exact raiseT_event _ _ _ (by decide)

/-- What the credits and the event of a completion point leave of the rings and of the drops. -/
theorem dcActs_posts (hst : (s.dc k.val).st = .running) (h22 : (readDesc b).ctl.testBit 22 = false) :
    (dcActs k.val b meets s).sqs = (pointPost k b meets s).sqs ∧ (dcActs k.val b meets s).denied = (pointPost k b meets s).denied ∧
      ∀ n e, TenEvent (pointPost k b meets s) n e → TenEvent (dcActs k.val b meets s) n e := by
  rw [dcActs_eq hst h22]
  have hraised : Only [.tens] (pointPost k b meets s)
      (if (readDesc b).ctl.testBit 24 then raiseT (dcTen s k.val).val evDcDesc (pointPost k b meets s) else pointPost k b meets s) := by
    split
    · exact Only.raiseT _ _ _ (by decide) (Only.refl _ _)
    · exact Only.refl _ _
  have honly : Only [.tens, .dcs] (pointPost k b meets s) (chanCredits k.val
      (if (readDesc b).ctl.testBit 24 then raiseT (dcTen s k.val).val evDcDesc (pointPost k b meets s) else pointPost k b meets s)) :=
    Only.chanCredits _ _ (by decide) (hraised.mono (by decide))
  refine ⟨honly.2 .sqs (by decide), honly.2 .denied (by decide), fun n e h => chanCredits_event ?_⟩
  split
  · exact TEv.raiseT _ _ _ h
  · exact h

theorem chanCredits_postdrop (hpoint : (x.dc k.val).atPoint = true) : ((chanCredits k.val x).dc k.val).postdrop = (x.dc k.val).postdrop := by
  obtain ⟨cr, l, hdc⟩ := chanCredits_atPoint (j := k.val) hpoint
  rw [hdc]

theorem dcActs_postdrop (hst : (s.dc k.val).st = .running) (hpoint : (s.dc k.val).atPoint = true) (h22 : (readDesc b).ctl.testBit 22 = false) :
    ((dcActs k.val b meets s).dc k.val).postdrop = ((pointPost k b meets s).dc k.val).postdrop := by
  obtain ⟨p, hdc⟩ := (pointPost_acted (k := k) (s := s) (b := b) (meets := meets)).chan
  have hsame : (if (readDesc b).ctl.testBit 24 then raiseT (dcTen s k.val).val evDcDesc (pointPost k b meets s) else pointPost k b meets s).dc k.val =
      (pointPost k b meets s).dc k.val := by split <;> rfl
  rw [dcActs_eq hst h22, chanCredits_postdrop (by rw [hsame, hdc]; exact hpoint), hsame]

/-! ### HALT, or the next descriptor (R305) -/

theorem dcNext_halts {d : Desc} (hst : (x.dc k.val).st = .running) (h : d.ctl.testBit 25 = true ∨ d.next = 0xFFFF) : dcNext k.val d x = dcIdle k.val x := by
  rw [dcNext, if_neg (by rw [hst]; decide), if_pos (by simpa using h)]

theorem dcNext_goes {d : Desc} (hst : (x.dc k.val).st = .running) (h25 : d.ctl.testBit 25 = false) (hnext : d.next ≠ 0xFFFF) :
    dcNext k.val d x = dcGoto k.val d.next x := by
  rw [dcNext, if_neg (by rw [hst]; decide), if_neg (by simp [h25, hnext])]

theorem dcNext_keeps {d : Desc} (hst : (x.dc k.val).st = .running) (hfetch : (x.dc k.val).fetching = false) :
    Only chanParts x (dcNext k.val d x) ∧ OtherDcs k.val x (dcNext k.val d x) ∧ (∀ n e, TenEvent x n e → TenEvent (dcNext k.val d x) n e) ∧
      ((dcNext k.val d x).dc k.val).postdrop = (x.dc k.val).postdrop := by
  by_cases h : d.ctl.testBit 25 = true ∨ d.next = 0xFFFF
  · rw [dcNext_halts hst h]
    exact ⟨Only.dcIdle _ _ (by decide) (Only.refl _ _), fun j hj => modDc_dc_ne _ _ hj, fun n e he => he, by rw [dcIdle, modDc_dc_same]; rfl⟩
  · obtain ⟨h25, hnext⟩ := not_or.mp h
    rw [dcNext_goes hst (Bool.eq_false_iff.mpr h25) hnext]
    obtain ⟨honly, hothers, hprog, hevents, -⟩ := dcGoto_facts k.val d.next x hfetch
    exact ⟨honly, hothers, hevents, (congrArg Chan.postdrop hprog).trans rfl⟩

end

end Sys2Proof.Machine

namespace Sys2Proof.ChannelUnits
open Sys2Proof.Machine

/-- The completion point of a descriptor without RECORD (R316, R317). -/
theorem point_acts (k : ChanIx) (b : Bytes) (meets : Bool) (s : State) (h : AtPoint s k b) (hst : (s.dc k.val).st = .running)
    (hfetch : (s.dc k.val).fetching = false) (h22 : (readDesc b).ctl.testBit 22 = false) :
    ∃ t, exec (.dcCompletionPoint k meets) s = .next t ∧ Only (.sqs :: chanParts ++ dropParts) s t ∧
      ((readDesc b).ctl.testBit 23 = false → t.sqs = s.sqs) ∧
      ((readDesc b).ctl.testBit 23 = true → doorbellDropped s (dcTen s k.val) (postRing (s.dc k.val)) = false → t.sqs = (pointWrite k meets s).sqs) ∧
      ((readDesc b).ctl.testBit 23 = true → doorbellDropped s (dcTen s k.val) (postRing (s.dc k.val)) = true →
        (t.dc k.val).postdrop = true ∧ TenEvent t (dcTen s k.val).val evDcPostDrop ∧ t.denied = s.denied.bump) ∧
      ((readDesc b).ctl.testBit 24 = true → TenEvent t (dcTen s k.val).val evDcDesc) ∧
      ((readDesc b).ctl.testBit 25 = true ∨ (readDesc b).next = 0xFFFF → (t.dc k.val).st = .idle) ∧
      ((readDesc b).ctl.testBit 25 = false → (readDesc b).next ≠ 0xFFFF → (t.dc k.val).desc = (readDesc b).next ∧
        ((s.dc k.val).count ≤ (readDesc b).next → ChanStopped s t k.val stUnsupported 0x80)) ∧
      (∀ j, j < 64 → j ≠ k.val → (s.dc j).psrc = 0x11 → (s.dc j).pch = k.val → dcTen s j = dcTen s k.val → dcAssigned s j = true → (s.dc j).st ≠ .idle →
        (s.dc j).credit < 15 → (t.dc j).credit = (s.dc j).credit + 1) := by
  have hback := AtChan.modDc (k := k.val) (fun c => { c with backs := false }) s
  have hrings : RingsAs (modDc k.val (fun c => { c with backs := false }) s) s := ⟨rfl, rfl, rfl⟩
  have hdrop : doorbellDropped (modDc k.val (fun c => { c with backs := false }) s) (dcTen s k.val) (postRing (s.dc k.val)) =
    doorbellDropped s (dcTen s k.val) (postRing (s.dc k.val)) := rfl
  have hwho : dcWho (modDc k.val (fun c => { c with backs := false }) s) k.val = dcWho s k.val := rfl
  have hten (j : Nat) : dcTen (modDc k.val (fun c => { c with backs := false }) s) j = dcTen s j := rfl
  have hass (j : Nat) : dcAssigned (modDc k.val (fun c => { c with backs := false }) s) j = dcAssigned s j := rfl
  have hdenied : (modDc k.val (fun c => { c with backs := false }) s).denied = s.denied := rfl
  have hfx := (fxDcCompletionPoint_eq (meets := meets) h).trans (if_pos hst)
  generalize modDc k.val (fun c => { c with backs := false }) s = x at hback hrings hdrop hwho hten hass hdenied hfx
  have hk := hback.chan
  have hrun : (x.dc k.val).st = .running := by rw [hk]; exact hst
  have hpoint : (x.dc k.val).atPoint = true := by rw [hk]; exact h.atPoint
  have hpost : (x.dc k.val).post = (s.dc k.val).post := by rw [hk]
  have hring : postRing (x.dc k.val) = postRing (s.dc k.val) := by rw [postRing, hpost, postRing]
  have hfin := dcActs_finished (meets := meets) hrun hpoint h22
  obtain ⟨hsqs, hden, hevents⟩ := dcActs_posts (meets := meets) hrun h22
  have hpd := dcActs_postdrop (meets := meets) hrun hpoint h22
  generalize dcActs k.val b meets x = u at hfin hsqs hden hevents hpd hfx
  obtain ⟨p, cr, l, hu⟩ := hfin.chan
  have hurun : (u.dc k.val).st = .running := by rw [hu]; exact hrun
  have hufetch : (u.dc k.val).fetching = false := by rw [hu, hk]; exact hfetch
  obtain ⟨honly, hothers, hkeep, hkeepPd⟩ := dcNext_keeps (d := readDesc b) hurun hufetch
  have hus : Only actParts s u := (hback.only.mono (by decide)).trans hfin.only
  refine ⟨_, congrArg Host.Outcome.next hfx, hus.trans (honly.mono (by decide)), fun h23 => ?_, fun h23 htaken => ?_, fun h23 hdropped => ?_, fun h24 => ?_,
    fun hhalt => ?_, fun h25 hnext => ?_, fun j hj hne hpsrc hpch hjten hjass hjst hlow => ?_⟩
  · rw [honly.2 .sqs (by decide), hsqs, pointPost, if_neg (by rw [h23]; decide)]
    exact hrings.sqs
  · have hxtaken : doorbellDropped x (dcTen x k.val) (postRing (x.dc k.val)) = false := by rw [hten, hring, hdrop]; exact htaken
    have hdb := (hrings.dbWrite (n := dcTen s k.val) (m := postRing (s.dc k.val)) (dcWho s k.val)
      (((s.sq (dcTen s k.val) (postRing (s.dc k.val))).tail + fld (s.dc k.val).post 48 32) % 2 ^ 17) (fld (s.dc k.val).post 30 16) meets
      (by rw [hdrop]; exact htaken) htaken).sqs
    rw [honly.2 .sqs (by decide), hsqs, pointPost, if_pos h23, pointPosted_taken hxtaken, pointWrite, hten, hring, hpost, hwho, hrings.sq]
    exact hdb
  · have hxdropped : doorbellDropped x (dcTen x k.val) (postRing (x.dc k.val)) = true := by rw [hten, hring, hdrop]; exact hdropped
    obtain ⟨hnote, hevent, hcount⟩ := pointPosted_notes (meets := meets) hxdropped
    have hpp : pointPost k b meets x = pointPosted k meets x := if_pos h23
    rw [hpp] at hpd hden hevents
    refine ⟨by rw [hkeepPd, hpd, hnote], hkeep _ _ (hevents _ _ ?_), ?_⟩
    · rw [hten] at hevent
      exact hevent
    · rw [honly.2 .denied (by decide), hden, hcount, hdenied]
  · have hevent := hfin.event h24
    rw [hten] at hevent
    exact hkeep _ _ hevent
  · rw [dcNext_halts hurun hhalt, dcIdle, modDc_dc_same]
  · rw [dcNext_goes hurun h25 hnext]
    obtain ⟨-, -, hprog, -, -, hout, -⟩ := dcGoto_facts k.val (readDesc b).next u hufetch
    refine ⟨congrArg Chan.desc hprog, fun hcount => (hout ?_).of_ten (hus.dcTen_eq (by decide) (by decide) (by decide) _)⟩
    rw [hu, hk]
    exact hcount
  · have hj' : x.dc j = s.dc j := hback.others j hne
    have hadds := hfin.adds j hj hne
    rw [hj', hten, hten, hass] at hadds
    rw [hothers j hne]
    exact hadds hpsrc hpch hjten hjass hjst hlow

/-- A completion point whose record fails its check stops the channel (R323). -/
theorem point_recordFails (k : ChanIx) (b : Bytes) (s : State) (h : AtPoint s k b) (hst : (s.dc k.val).st = .running)
    (h22 : (readDesc b).ctl.testBit 22 = true) (h23 : (readDesc b).ctl.testBit 23 = false) (hon : (s.dc k.val).recEn = true) (hplace : (s.dc k.val).place = true)
    (hbad : dcCheck s k.val .write (dcRecAddr (s.dc k.val)) 32 ≠ none) :
    ∃ t, exec (.dcCompletionPoint k) s = .next t ∧ Only chanParts s t ∧ OtherDcs k.val s t ∧ ChanStopped s t k.val stAccess 0x02 ∧
      (t.dc k.val).recTail = (s.dc k.val).recTail := by
  obtain ⟨⟨fa, cause⟩, hfault⟩ := Option.ne_none_iff_exists'.mp hbad
  have hback := AtChan.modDc (k := k.val) (fun c => { c with backs := false }) s
  have hcheck : dcCheck (modDc k.val (fun c => { c with backs := false }) s) k.val .write (dcRecAddr (s.dc k.val)) 32 = some (fa, cause) := by
    rw [← hfault]
    exact hback.check rfl _ _ _
  have hfx := (fxDcCompletionPoint_eq (meets := false) h).trans (if_pos hst)
  generalize modDc k.val (fun c => { c with backs := false }) s = x at hback hcheck hfx
  have hdone := dcDone_bad k.val fa cause x (by rw [hback.chan]; exact hon) (by rw [hback.chan]; exact hplace) (by rw [hback.chan]; exact hcheck)
  obtain ⟨honly, hothers, hstopped, htail⟩ := recordFault_facts k.val fa cause x
  have hacts : dcActs k.val b false x = dcRecordFault k.val stAccess fa cause (dcViol k.val fa .write cause x) := by
    rw [dcActs]
    dsimp only
    rw [h23, h22]
    simp only [Bool.false_eq_true, if_false, if_true]
    rw [hdone, if_pos hstopped.1]
  have hnext : fxDcCompletionPoint k false s = dcRecordFault k.val stAccess fa cause (dcViol k.val fa .write cause x) := by
    rw [hfx, hacts, dcNext, if_pos hstopped.1]
  exact ⟨_, congrArg Host.Outcome.next hnext, (hback.only.mono (by decide)).trans honly, fun j hj => (hothers j hj).trans (hback.others j hj),
    hstopped.of_ten (hback.dcTen _), by rw [htail, hback.chan]⟩

/-- Settles O46, by the state that differs at the channel alone, and by what becomes of the line that the element's bytes join. -/
theorem channelUnits : Obligations.ChannelUnits := by
  refine ⟨fun k s hon => ?_, fun k data meets s hon => ?_, fun k data s hon hlen hstray => ?_, fun k b data s hon => ?_, fun k b data s hon => ?_,
    fun k b meets s hon => ?_, fun k b s hon => ?_⟩
  · intro c hst htrowel hheld hunit hpoint
    refine ⟨fun hplace hcredit => ?_, fun hcredit => congrArg Host.Outcome.next (fxDcUnitStart_waits (Or.inl hcredit)),
      fun hplace hneeds => congrArg Host.Outcome.next (fxDcUnitStart_waits (Or.inr ⟨hplace, hneeds⟩))⟩
    obtain ⟨honly, hothers, hdc⟩ := fxDcUnitStart_due hon ⟨hst, htrowel, hheld, hunit, hpoint⟩ hplace hcredit
    exact ⟨_, rfl, honly, hothers, hdc⟩
  · intro c
    refine ⟨fun hlen hstray => ?_, fun hstray => ?_, fun b hstray hst htrowel hheld hpoint => ?_⟩
    · obtain ⟨honly, hothers, hdc⟩ := AtChan.modDc (k := k.val) (Chan.drop false) s
      exact ⟨_, congrArg Host.Outcome.next (fxDescriptorFetchReturn_stray hon hlen hstray), honly, hothers, hdc⟩
    · obtain ⟨honly, hothers, hdc⟩ := AtChan.modDc (k := k.val) (Chan.drop true) s
      exact ⟨_, congrArg Host.Outcome.next (fxDcCompletionPoint_stray hon hstray), honly, hothers, hdc⟩
    · obtain ⟨honly, hothers, hdc⟩ := AtChan.modDc (k := k.val) (fun c => { c with backs := false }) s
      exact ⟨_, congrArg Host.Outcome.next ((fxDcCompletionPoint_eq ⟨hon, htrowel, hheld, hpoint, hstray⟩).trans (if_neg hst)), honly, hothers, hdc⟩
  · intro c d
    have hx := AtChan.modDc (k := k.val) (fun c => { c with fetching := false }) s
    refine ⟨fun hfetch hst htrowel => ?_, fun hfetch hst htrowel => ?_, fun hfetch n hnext hroom hopen hitem => ?_⟩
    · have hfx := fxDescriptorFetchReturn_takes hon hlen hstray hfetch hst
      generalize modDc k.val (fun c => { c with fetching := false }) s = x at hx hfx
      refine ⟨fun hbad => ⟨_, congrArg Host.Outcome.next (hfx.trans (dcTake_reserved hx htrowel hbad)), hx.unsup _⟩,
        fun hok hbad => ⟨_, congrArg Host.Outcome.next (hfx.trans (dcTake_range hx htrowel hok hbad)), hx.unsup _⟩,
        fun hok hpsrc hpunit hbad => ⟨_, congrArg Host.Outcome.next (hfx.trans (dcTake_extent hx htrowel hok hpsrc hpunit hbad)), hx.unsup _⟩,
        fun hok hpsrc hpunit hext hpoint h0 h1 h2 => ?_⟩
      obtain ⟨y, hy, htake⟩ := dcTake_settles hx htrowel hok hpsrc hpunit hext h0 h1 h2
      obtain ⟨honly, hothers, a, e, hdc⟩ := hy.settled
      exact ⟨_, congrArg Host.Outcome.next (hfx.trans htake), honly, hothers, by rw [hdc]; rfl, by rw [hdc]; rfl, by rw [hdc]; rfl, by rw [hdc]; rfl, by rw [hdc]; rfl⟩
    · have hfx := fxDescriptorFetchReturn_takes hon hlen hstray hfetch hst
      generalize modDc k.val (fun c => { c with fetching := false }) s = x at hx hfx
      refine ⟨fun e he => ⟨_, congrArg Host.Outcome.next (hfx.trans (dcTake_judged hx htrowel he)), hx.unsup _⟩, fun hok hopc => ?_⟩
      obtain ⟨y, q, cr, hy, htake⟩ := dcTake_instr hx htrowel hok hopc
      obtain ⟨honly, hothers, a, e, hdc⟩ := hy.settled
      exact ⟨_, congrArg Host.Outcome.next (hfx.trans htake), honly, hothers, by rw [hdc], by rw [hdc], by rw [hdc]; rfl⟩
    · have hahead := AtChan.modDc (k := k.val) (fun c => { c with pref := c.pref ++ [(n, data)] }) s
      refine ⟨_, congrArg Host.Outcome.next (fxDescriptorFetchReturn_ahead hon hlen hstray hfetch hnext hroom hopen hitem),
        Only.emitRd _ _ _ (by decide) (hahead.only.mono (by decide)), fun j hj => ?_, ?_⟩
      · rw [emitRd_dc]
        exact hahead.others j hj
      · rw [emitRd_dc]
        exact hahead.chan
  · intro c d ix sa da new key rest mine joins moved stops okR okW hst htrowel hheld hunit hpoint hahead hdata
    have h : AtElement s k b data := ⟨hon, hst, htrowel, hheld, hunit, hpoint, hahead, hdata⟩
    refine ⟨fun hturn => congrArg Host.Outcome.next (fxDcElementGrant_waits h hturn), fun hturn => ?_⟩
    have hexec (hok : okR) : exec (.dcElementGrant k data) s = .next (dcMove k.val d data (elemState k b data s)) :=
      congrArg Host.Outcome.next (fxDcElementGrant_moves h hturn hok)
    have hdc := elemState_dc h
    have hout := elemState_out h
    have hcheck := elemState_check h
    have hmoves := @grant_moves k s b data
    have hstops := @grant_stops k s b data h
    have hgathered : gathered k.val d data (elemState k b data s) = dcGather k.val key da new (elemState k b data s) := by rw [gathered, hdc]; rfl
    generalize elemState k b data s = y at hdc hout hcheck hmoves hstops hgathered hexec
    have hwr (a : Nat) (l : Bytes) : (emitWr a l y).out = (emitWr a l (emitRd sa d.lenIn s)).out := emitWr_out_congr _ _ hout
    rw [hgathered] at hmoves hstops
    have hlines : (y.dc k.val).lines = c.lines := by rw [hdc]
    refine ⟨fun hempty hbad => ⟨_, rfl, grant_readStops h hturn hempty hbad⟩, fun hok hrow hnone hlen => ?_, fun hok hrow hnone hlen hcw => ?_,
      fun hok hempty hlen hbad => ?_, fun g hok hg hj hlen hrow => ?_, fun g hok hg hj hlen hrow hcw => ?_, fun g hok hg hj hlen hrow hcw => ?_,
      fun g hok hg hj hbad => ?_⟩
    · have hm := hmoves h (gather_begins (by rw [hlines]; exact hnone) hlen) hrow
      exact ⟨_, hexec hok, hm.moved, hm.out.trans hout, by rw [hm.lines, hlines, hdc]; rfl⟩
    · have hm := hmoves h (gather_passes (by rw [hlines]; exact hnone) hlen (by rw [hcheck]; exact hcw)) hrow
      exact ⟨_, hexec hok, hm.moved, hm.out.trans (hwr _ _), by rw [hm.lines, hlines]⟩
    · have hnone : (y.dc k.val).lines.find? (fun g => g.key = key) = none := by rw [hlines, hempty]; rfl
      have hline : dcGather k.val key da new y = dcWrite k.val da new [c.i2, c.i1, c.i0] y := by
        rw [dcGather_new hnone, lineOut_full (le_of_eq hlen.symm), hdc, earliest_current hempty ⟨rfl, rfl, rfl⟩]
        rfl
      exact ⟨_, hexec hok, hstops (Gathered.refl _ _) (Or.inl hline) (by rw [hlen]; exact hbad)⟩
    · have hm := hmoves h (gather_grows (by rw [hlines]; exact hg) hj.1 hlen) hrow
      exact ⟨_, hexec hok, hm.moved, hm.out.trans hout, by rw [hm.lines, otherLines, hlines]⟩
    · have hm := hmoves h (gather_fills (by rw [hlines]; exact hg) hj.1 hlen (by rw [hcheck]; exact hcw)) hrow
      exact ⟨_, hexec hok, hm.moved, hm.out.trans (hwr _ _), by rw [hm.lines, otherLines, hlines]⟩
    · have hm := hmoves h (gather_replaces (by rw [hlines]; exact hg) hj hlen (by rw [hcheck]; exact hcw) (by rw [hdc]; exact hst)) hrow
      exact ⟨_, hexec hok, hm.moved, hm.out.trans (hwr _ _), by rw [hm.lines, otherLines, hlines, hdc]; rfl⟩
    · have hline := dcGather_apart (k := k.val) (y := y) (data := new) (by rw [hlines]; exact hg) hj rfl
      rw [hdc] at hline
      exact ⟨_, hexec hok, hstops (takeLine_gathered key) (Or.inr ⟨_, hline⟩) hbad⟩
  · intro c d is hst htrowel hheld hpoint hdata hlen
    refine ⟨fun hmay => congrArg Host.Outcome.next (fxDcElementGrant_mayNot hheld hdata hmay), fun hmay => ?_⟩
    exact ⟨_, congrArg Host.Outcome.next (fxDcElementGrant_ahead hon hst htrowel hheld hpoint hdata rfl hlen hmay), dcRead_facts _ _ _ _ _⟩
  · intro c d m hst htrowel hheld hpoint hfetch hstray h22
    exact point_acts k b meets s ⟨hon, htrowel, hheld, hpoint, hstray⟩ hst hfetch h22
  · intro c hst htrowel hheld hpoint h22 h23 hstray hrec hplace hbad
    exact point_recordFails k b s ⟨hon, htrowel, hheld, hpoint, hstray⟩ hst h22 h23 hrec hplace hbad

end Sys2Proof.ChannelUnits
end

section
/-!
Configuration generations (R378 to R384, R386 to R390): the commands, the load of an image, the fence and what takes effect behind it, and the end of
the engine's own work (R515), with the statement O52.
-/

namespace Sys2Proof.Machine

/-! ### Commands (R382, R486) -/

section
variable {s : State}

theorem genErr_facts (e : Nat) (s : State) : Only [.gen] s (genErr e s) ∧ (genErr e s).gen = { s.gen with err := BitVec.ofNat 4 e } :=
  ⟨Only.modGen _ (by decide) (Only.refl _ _), rfl⟩

theorem whenIdle_busy {f : State → State} (h : s.gen.st ≠ .idle) : whenIdle f s = genErr 1 s := if_neg h
theorem whenIdle_idle {f : State → State} (h : s.gen.st = .idle) : whenIdle f s = f s := if_pos h

theorem violP_pvcnt (addr : Nat) (d : Dir) (cause kind number tag gen : Nat) (s : State) : (violP addr d cause kind number tag gen s).pvcnt = s.pvcnt.bump := by
  rw [violP]
  split <;> split <;> rfl

/-- The state in which an image is read. -/
def loadState (s : State) : State := modGen (fun g => { g with st := .loading, imgFail := false }) s

theorem genLoad_passes (h : check s s.gen.act none .secure .read s.own.imgBase.toNat (imgLen s) = none) :
    genLoad s = emitRd s.own.imgBase.toNat (imgLen s) (loadState s) := by
  rw [genLoad, h]
  rfl

theorem genLoad_only (s : State) : Only [.gen, .evPend, .pviol, .pvcnt, .out] s (genLoad s) := Only.genLoad s (by decide) (Only.refl _ _)

theorem genLoad_facts (s : State) :
    (check s s.gen.act none .secure .read s.own.imgBase.toNat (imgLen s) = none →
      (genLoad s).gen = { s.gen with st := .loading, imgFail := false } ∧ (genLoad s).out = (emitRd s.own.imgBase.toNat (imgLen s) s).out) ∧
    (check s s.gen.act none .secure .read s.own.imgBase.toNat (imgLen s) ≠ none →
      (genLoad s).gen = { s.gen with st := .loading, imgFail := true } ∧ (genLoad s).pvcnt = s.pvcnt.bump) := by
  refine ⟨fun h => ?_, fun h => ?_⟩
  · rw [genLoad_passes h]
    have hread : Only [.out] (loadState s) (emitRd s.own.imgBase.toNat (imgLen s) (loadState s)) := Only.emitRd _ _ _ (by decide) (Only.refl _ _)
    exact ⟨(hread.gen_eq (by decide) (by decide)).trans rfl, emitRd_out2 _ _ _ _ rfl⟩
  · obtain ⟨⟨fa, cause⟩, hbad⟩ := Option.ne_none_iff_exists'.mp h
    have hread : Only [.out] (loadState s) (((pieces s.own.imgBase.toNat (imgLen s)).filter (fun p => decide (p.1 + p.2 ≤ fa))).foldl (fun s p => emitRd p.1 p.2 s) (loadState s)) :=
      Only.foldl _ (Only.refl _ _) fun _ _ h => Only.emitRd _ _ _ (by decide) h
    have hload : genLoad s = violP fa .read cause kindImage 0 0 (s.gen.active.toNat % 65536) (modGen (fun g => { g with imgFail := true })
        (((pieces s.own.imgBase.toNat (imgLen s)).filter (fun p => decide (p.1 + p.2 ≤ fa))).foldl (fun s p => emitRd p.1 p.2 s) (loadState s))) := by
      rw [genLoad, hbad]
      rfl
    rw [hload]
    generalize ((pieces s.own.imgBase.toNat (imgLen s)).filter (fun p => decide (p.1 + p.2 ≤ fa))).foldl (fun s p => emitRd p.1 p.2 s) (loadState s) = x at hread ⊢
    have hgen : x.gen = (loadState s).gen := hread.gen_eq (by decide) (by decide)
    have hcnt : x.pvcnt = s.pvcnt := hread.2 .pvcnt (by decide)
    have hviol : Only [.evPend, .pviol, .pvcnt] (modGen (fun g => { g with imgFail := true }) x)
        (violP fa .read cause kindImage 0 0 (s.gen.active.toNat % 65536) (modGen (fun g => { g with imgFail := true }) x)) :=
      Only.violP _ _ _ _ _ _ _ _ (by decide) (Only.refl _ _)
    refine ⟨(hviol.gen_eq (by decide) (by decide)).trans ((congrArg (fun g : Gen => { g with imgFail := true }) hgen).trans rfl), (violP_pvcnt _ _ _ _ _ _ _ _).trans ?_⟩
    exact congrArg Cnt32.bump hcnt

/-! ### Work of the engine (R515) -/

theorem dropWork_eq (aim : Purpose) (s : State) : ∃ x, Only [.tiles] s x ∧
    dropWork aim s = modSch (fun c => { c with jobs := c.jobs.filter (fun j => decide (j.work.purpose ≠ aim)) }) x :=
  ⟨_, Only.foldl _ (Only.refl _ _) fun _ _ h => Only.freeTiles _ _ (by decide) h, rfl⟩

theorem working_dropWork (aim : Purpose) (s : State) : working (dropWork aim s) aim = false := by
  obtain ⟨x, -, heq⟩ := dropWork_eq aim s
  rw [heq, working]
  simp [modSch]

theorem dropWork_sch (aim : Purpose) (s : State) :
    (dropWork aim s).sch = { s.sch with jobs := s.sch.jobs.filter (fun j => decide (j.work.purpose ≠ aim)) } := by
  obtain ⟨x, honly, heq⟩ := dropWork_eq aim s
  have hsch : x.sch = s.sch := honly.2 .sch (by decide)
  rw [heq, ← hsch]
  rfl

/-- Where there is no such work, nothing is given up. -/
theorem dropWork_none {aim : Purpose} (h : working s aim = false) : (dropWork aim s).sch = s.sch ∧ (dropWork aim s).tiles = s.tiles := by
  have hne : ∀ j ∈ s.sch.jobs, j.work.purpose ≠ aim := by
    intro j hj
    have := List.any_eq_false.mp h j hj
    simpa using this
  refine ⟨?_, ?_⟩
  · rw [dropWork_sch, List.filter_eq_self.mpr fun j hj => decide_eq_true (hne j hj)]
  · have hnil : s.sch.jobs.filter (fun j => decide (j.work.purpose = aim) && (s.req j.id).isNone) = [] := by
      refine List.filter_eq_nil_iff.mpr fun j hj => ?_
      simp [hne j hj]
    rw [dropWork, hnil]
    rfl

theorem genCancel_facts (h : s.gen.st = .fence) :
    Only [.gen, .sch, .tiles] s (genCancel s) ∧ (genCancel s).gen = { s.gen with st := .idle, err := 9, pend := {}, digPend := [], disabling := [] } ∧
      working (genCancel s) .generation = false ∧
      (working s .generation = false → (genCancel s).sch = s.sch ∧ (genCancel s).tiles = s.tiles) := by
  have hcancel : genCancel s = dropWork .generation (modGen (fun g => { g with st := .idle, err := 9, pend := {}, digPend := [], disabling := [] }) s) := if_pos h
  rw [hcancel]
  generalize hx : modGen (fun g => { g with st := .idle, err := 9, pend := {}, digPend := [], disabling := [] }) s = x
  have hsx : Only [.gen] s x := hx ▸ Only.modGen _ (by decide) (Only.refl _ _)
  have hdrop : Only [.sch, .tiles] x (dropWork .generation x) := Only.dropWork _ _ (by decide) (Only.refl _ _)
  refine ⟨(hsx.mono (by decide)).trans (hdrop.mono (by decide)), ?_, working_dropWork _ _, fun hidle => ?_⟩
  · rw [hdrop.gen_eq (by decide) (by decide), ← hx]
    rfl
  · subst hx
    exact dropWork_none hidle

/-! ### The end of a load (R382) -/

/-- The two signature checks of a section. -/
def sectionJobs (n i : Nat) : List Job := [{ id := n + 2 * i, kind := 3, work := .patch i false }, { id := n + 2 * i + 1, kind := 3, work := .patch i true }]

theorem checkSections_eq (n : Nat) (s : State) :
    eachN (List.range n) (fun i s => issueJob 3 (.patch i true) (issueJob 3 (.patch i false) s)) s =
      modSch (fun c => { c with nextId := s.sch.nextId + 2 * n, jobs := s.sch.jobs ++ (List.range n).flatMap (sectionJobs s.sch.nextId) }) s := by
  induction n with
  | zero => simp [eachN, modSch]
  | succ n ih =>
    rw [List.range_succ, eachN, List.foldl_append]
    rw [eachN] at ih
    rw [ih]
    simp [issueJob, modSch, sectionJobs]
    omega

theorem endLoad_applies {b : Bytes} (s : State) : Only [.gen] s (endLoad 0 b s) ∧
    (endLoad 0 b s).gen = { s.gen with st := .idle, image := [], imgFail := false, err := 0, shadow := imgApply s b } :=
  ⟨Only.modGen _ (by decide) (Only.modGen _ (by decide) (Only.refl _ _)), rfl⟩

theorem endLoad_fails {e : Nat} {b : Bytes} (he : e ≠ 0) (s : State) : Only [.gen, .evPend] s (endLoad e b s) ∧
    (endLoad e b s).gen = { s.gen with st := .idle, image := [], imgFail := false, err := BitVec.ofNat 4 e } ∧ bitOf (endLoad e b s).evPend gGenFail = true := by
  have hfail : endLoad e b s = raiseG gGenFail (modGen (fun g => { g with st := .idle, image := [], imgFail := false, err := BitVec.ofNat 4 e }) s) := if_neg he
  rw [hfail]
  exact ⟨Only.raiseG _ _ (by decide) (Only.modGen _ (by decide) (Only.refl _ _)), rfl, raiseG_bit _ _ (by decide)⟩

theorem fxGenLoadDone_due {image : Bytes} (hst : s.gen.st = .loading) (hwork : working s .patches = false) :
    fxGenLoadDone image s = if imgCheck s (fit (imgLen s) image) = 0 ∧ imgSections (fit (imgLen s) image) ≠ []
      then checkSections (fit (imgLen s) image) (modGen (fun g => { g with image := fit (imgLen s) image }) s)
      else endLoad (imgCheck s (fit (imgLen s) image)) (fit (imgLen s) image) s := by
  rw [fxGenLoadDone, whenS_true (by rw [hst, hwork]; decide)]

theorem imgCheck_fail (b : Bytes) (h : s.gen.imgFail = true) : imgCheck s b = 8 := if_pos h
theorem imgCheck_format {b : Bytes} (h : s.gen.imgFail = false) (hf : imgFormat (imgLen s) b = false) : imgCheck s b = 3 := by
  rw [imgCheck, if_neg (by rw [h]; decide), if_pos (by rw [hf]; rfl)]
theorem imgCheck_digest {b : Bytes} (h : s.gen.imgFail = false) (hf : imgFormat (imgLen s) b = true) (hd : sha384 (b.drop 0x40) ≠ slice b 0x10 48) :
    imgCheck s b = 4 := by
  rw [imgCheck, if_neg (by rw [h]; decide), if_neg (by rw [hf]; decide), if_pos hd]

end

/-! ### Channels that a content takes away (R303) -/

section
variable {k i : Nat} {s : State}

theorem dcPost_dc_ne (h : i ≠ k) (sq adv count : Nat) (meets : Bool) (s : State) : (dcPost k sq adv count meets s).dc i = s.dc i := by
  rw [dcPost]
  generalize hx : dbWrite (dcWho s k) _ _ _ count meets s = x
  have honly : Only [.denied, .notice, .tens, .sqs, .jrn, .evPend, .pviol, .pvcnt, .out] s x := hx ▸ Only.dbWrite _ _ _ _ _ _ _ (by decide) (Only.refl _ _)
  have hdc : x.dc i = s.dc i := honly.dc_eq (by decide) i
  split
  · rw [raiseT_dc', modDc_dc_ne _ _ h, hdc]
  · exact hdc

theorem dcRecord_dc_ne {st detail addr : Nat} {l : List Nat} {d : Dir} {t : State} (h : i ≠ k) (e : dcRecord k st detail l addr d s = some t) : t.dc i = s.dc i :=
  (Chn.dcRecord_eq e (Chn.refl k s)).1 i h

theorem dcDone_dc_ne (h : i ≠ k) (s : State) : (dcDone k s).dc i = s.dc i := by
  rw [dcDone]
  split
  · next e => exact dcRecord_dc_ne h e
  · split
    · rw [dcRecordFault, raiseT_dc', modDc_dc_ne _ _ h, dcViol_dc]
    · rfl

theorem chanCredits_idle (h : (s.dc i).st = .idle) : (chanCredits k s).dc i = s.dc i := by
  rw [chanCredits_eq]
  refine eachN_ind (P := fun x => x.dc i = s.dc i) _ _ _ rfl fun j x hx => ?_
  by_cases hj : i = j
  · subst hj
    rw [creditChan]
    split
    · rw [dcCredit_idle (by rw [hx]; exact h), hx]
    · exact hx
  · rw [creditChan_dc_ne hj, hx]

/-- The actions of a completion point do not reach a channel that is idle. -/
theorem dcActs_idle {b : Bytes} {meets : Bool} (h : i ≠ k) (hidle : (s.dc i).st = .idle) : (dcActs k b meets s).dc i = s.dc i := by
  rw [dcActs]
  dsimp only
  generalize hx : (if (readDesc b).ctl.testBit 23 then _ else s) = x
  have hxdc : x.dc i = s.dc i := by
    rw [← hx]
    split
    · exact dcPost_dc_ne h _ _ _ _ _
    · rfl
  generalize hy : (if (readDesc b).ctl.testBit 22 then _ else x) = y
  have hydc : y.dc i = s.dc i := by
    rw [← hy, ← hxdc]
    split
    · exact dcDone_dc_ne h _
    · rfl
  split
  · exact hydc
  · generalize hz : (if (readDesc b).ctl.testBit 24 then _ else y) = z
    have hzdc : z.dc i = s.dc i := by
      rw [← hz, ← hydc]
      split
      · exact raiseT_dc' _ _ _ _
      · rfl
    rw [chanCredits_idle (by rw [hzdc]; exact hidle), hzdc]

/-- The state before the record of a channel that is taken away: a completion point that was reached has acted. -/
def reassignActs (k : Nat) (s : State) : State :=
  ((s.dc k).held.filter (fun _ => (s.dc k).due)).elim s fun b => dcActs k b false s

/-- The record of a channel that is taken away. -/
def reassignRecord (k detail : Nat) (s : State) : State :=
  (dcRecord k stFlushed detail [(earliest (s.dc k)).getD 2 0, (earliest (s.dc k)).getD 1 0, (earliest (s.dc k)).getD 0 0] 0 .read
      (modDc k (fun c => { c with heldTag := 0, unitPrev := false }) s)).elim
    ((dcCheck (modDc k (fun c => { c with heldTag := 0, unitPrev := false }) s) k .write
        (dcRecAddr ((modDc k (fun c => { c with heldTag := 0, unitPrev := false }) s).dc k)) 32).elim
      (modDc k (fun c => { c with heldTag := 0, unitPrev := false }) s)
      fun e => dcViol k e.1 .write e.2 (modDc k (fun c => { c with heldTag := 0, unitPrev := false }) s)) id

theorem dcReassign_eq (k detail : Nat) (s : State) : dcReassign k detail s = dcClear k (reassignRecord k detail (reassignActs k s)) := by
  have hrecord (x : State) : (match dcRecord k stFlushed detail [(earliest (x.dc k)).getD 2 0, (earliest (x.dc k)).getD 1 0, (earliest (x.dc k)).getD 0 0] 0 .read
        (modDc k (fun c => { c with heldTag := 0, unitPrev := false }) x) with
      | some y => y
      | none =>
        match dcCheck (modDc k (fun c => { c with heldTag := 0, unitPrev := false }) x) k .write
            (dcRecAddr ((modDc k (fun c => { c with heldTag := 0, unitPrev := false }) x).dc k)) 32 with
        | some (fa, cause) => dcViol k fa .write cause (modDc k (fun c => { c with heldTag := 0, unitPrev := false }) x)
        | none => modDc k (fun c => { c with heldTag := 0, unitPrev := false }) x) = reassignRecord k detail x := by
    rw [reassignRecord]
    generalize dcRecord k stFlushed detail _ 0 .read _ = r
    cases r with
    | some y => rfl
    | none =>
      generalize dcCheck _ k .write _ 32 = q
      cases q <;> rfl
  rw [dcReassign, reassignActs]
  cases (s.dc k).held with
  | none => exact congrArg (dcClear k) (hrecord s)
  | some b =>
    cases (s.dc k).due with
    | false => exact congrArg (dcClear k) (hrecord s)
    | true => exact congrArg (dcClear k) (hrecord (dcActs k b false s))

theorem reassignRecord_facts (k detail : Nat) (s : State) : Only [.dcs, .tens, .out] s (reassignRecord k detail s) ∧ OtherDcs k s (reassignRecord k detail s) := by
  rw [reassignRecord]
  obtain ⟨honly, hothers, -⟩ := AtChan.modDc (k := k) (fun c => { c with heldTag := 0, unitPrev := false }) s
  generalize modDc k (fun c => { c with heldTag := 0, unitPrev := false }) s = x at honly hothers
  generalize hr : dcRecord k stFlushed detail _ 0 .read x = r
  cases r with
  | some y =>
    have hrec : Only [.dcs, .out] x y := Only.dcRecord_eq (by decide) hr (Only.refl _ _)
    exact ⟨(honly.mono (by decide)).trans (hrec.mono (by decide)), fun i hi => (dcRecord_dc_ne hi hr).trans (hothers i hi)⟩
  | none =>
    generalize dcCheck x k .write _ 32 = q
    cases q with
    | none => exact ⟨honly.mono (by decide), hothers⟩
    | some e => exact ⟨Only.dcViol _ _ _ _ _ (by decide) (honly.mono (by decide)), fun i hi => (dcViol_dc _ _ _ _ _ _).trans (hothers i hi)⟩

theorem dcClear_dc (k : Nat) (s : State) : ∃ l, (dcClear k s).dc k = { strays := l } := ⟨_, modDc_dc_same _ _ _⟩

theorem dcReassign_cleared (k detail : Nat) (s : State) : ∃ l, (dcReassign k detail s).dc k = { strays := l } := by
  rw [dcReassign_eq]
  exact dcClear_dc _ _

theorem dcReassign_dc_ne {detail : Nat} {s : State} (h : i ≠ k) : (dcReassign k detail s).dc i = (reassignActs k s).dc i := by
  rw [dcReassign_eq, dcClear, modDc_dc_ne _ _ h, (reassignRecord_facts _ _ _).2 i h]

/-- An idle channel is not reached by what is done to another. -/
theorem dcReassign_idle {detail : Nat} (h : i ≠ k) (hidle : (s.dc i).st = .idle) : (dcReassign k detail s).dc i = s.dc i := by
  rw [dcReassign_dc_ne h, reassignActs]
  cases (s.dc k).held.filter (fun _ => (s.dc k).due) with
  | none => rfl
  | some b => exact dcActs_idle h hidle

theorem reassignActs_undue (h : (s.dc k).due = false) : reassignActs k s = s := by
  rw [reassignActs, h]
  cases (s.dc k).held <;> rfl

/-- A channel that is not at a completion point changes no other. -/
theorem dcReassign_undue {detail : Nat} (h : (s.dc k).due = false) : Only [.dcs, .tens, .out] s (dcReassign k detail s) ∧ OtherDcs k s (dcReassign k detail s) := by
  obtain ⟨honly, hothers⟩ := reassignRecord_facts k detail s
  rw [dcReassign_eq, reassignActs_undue h, dcClear]
  exact ⟨Only.modDc _ _ (by decide) honly, fun i hi => (modDc_dc_ne _ _ hi).trans (hothers i hi)⟩

/-- A channel at its reset values, but for what is still in flight. -/
def Cleared (k : Nat) (s : State) : Prop := s.dc k = { strays := (s.dc k).strays }

theorem Cleared.of_strays {l : List Stray} (h : s.dc k = { strays := l }) : Cleared k s := by
  rw [Cleared, h]

theorem Cleared.idle (h : Cleared k s) : (s.dc k).st = .idle := by
  rw [h]

theorem Cleared.due (h : Cleared k s) : (s.dc k).due = false := by
  rw [Chan.due, h.idle]
  rfl

theorem Cleared.of_dc {t : State} (h : Cleared k s) (e : t.dc k = s.dc k) : Cleared k t := by
  rw [Cleared, e]
  exact h

theorem Cleared.dcReassign (j detail : Nat) (h : Cleared k s) : Cleared k (Machine.dcReassign j detail s) := by
  by_cases hj : k = j
  · subst hj
    obtain ⟨l, hl⟩ := dcReassign_cleared k detail s
    exact .of_strays hl
  · exact h.of_dc (dcReassign_idle hj h.idle)

/-- Every channel of a list is cleared. -/
theorem reassigned_cleared (l : List Nat) (detail : Nat) (s : State) : ∀ k ∈ l, Cleared k (eachN l (dcReassign · detail) s) := by
  induction l generalizing s with
  | nil => exact fun k hk => absurd hk (by simp)
  | cons a l ih =>
    intro k hk
    rcases List.mem_cons.mp hk with rfl | hk
    · obtain ⟨x, hx⟩ := dcReassign_cleared k detail s
      show Cleared k (eachN l (dcReassign · detail) (dcReassign k detail s))
      exact eachN_ind (P := Cleared k) _ _ _ (.of_strays hx) fun j x h => h.dcReassign j detail
    · exact ih _ k hk

/-- Where none of a list is at a completion point, no other channel changes. -/
theorem reassigned_undue (l : List Nat) (detail : Nat) (s : State) (h : ∀ k ∈ l, (s.dc k).due = false) :
    Only [.dcs, .tens, .out] s (eachN l (dcReassign · detail) s) ∧ ∀ i, i ∉ l → (eachN l (dcReassign · detail) s).dc i = s.dc i := by
  induction l generalizing s with
  | nil => exact ⟨Only.refl _ _, fun _ _ => rfl⟩
  | cons a l ih =>
    obtain ⟨honly, hothers⟩ := dcReassign_undue (detail := detail) (h a (by simp))
    have hrest : ∀ k ∈ l, ((dcReassign a detail s).dc k).due = false := by
      intro k hk
      by_cases hka : k = a
      · subst hka
        obtain ⟨x, hx⟩ := dcReassign_cleared k detail s
        exact (Cleared.of_strays hx).due
      · rw [hothers k hka]
        exact h k (by simp [hk])
    obtain ⟨hrest, hkept⟩ := ih _ hrest
    refine ⟨honly.trans hrest, fun i hi => ?_⟩
    obtain ⟨hia, hil⟩ : i ≠ a ∧ i ∉ l := by simpa using hi
    exact (hkept i hil).trans (hothers i hia)

end

/-! ### The fence (R383 to R386) -/

/-- Two states in which a content is judged alike. -/
theorem disabledBy_congr {s t : State} (c : Content) (hstart : t.start = s.start) (hact : t.gen.act = s.gen.act) : disabledBy t c = disabledBy s c := by
  simp only [disabledBy, State.enabled, enabledIn, State.word, hstart, hact]

theorem changedChans_congr {s t : State} (c : Content) (hstart : t.start = s.start) (hact : t.gen.act = s.gen.act) : changedChans t c = changedChans s c := by
  have hword (c : Content) : t.word c = s.word c := funext fun r => by rw [State.word, State.word, hstart]
  have heff : t.eff = s.eff := funext fun r => by rw [State.eff, State.eff, hword, hact]
  rw [changedChans, changedChans, hword, heff]

/-- Where no tenant is disabled, only the channels that change hands are taken away. -/
theorem stopChans_changed {s : State} {c : Content} (h : disabledBy s c = []) : stopChans c s = eachN (changedChans s c) (dcReassign · 0x80) s := by
  rw [stopChans, h]
  have hnil (x : State) : eachN [] (dcReassign · 0x02) x = x := rfl
  rw [List.filter_eq_nil_iff.mpr, hnil]
  intro k _
  split <;> simp

section
variable {s : State}

theorem resetTenant_inReset {detail : Nat} {n : TenantIx} (hen : s.enabled n = true) : ((resetTenant detail n s).ten n).inReset = true := by
  cases hin : (s.ten n).inReset with
  | true => rw [resetTenant_idle (.inr hin), hin]
  | false => exact (resetTenant_started hen hin).1

theorem resetTenant_keepsReset {detail k : Nat} {n : TenantIx} (h : (s.ten k).inReset = true) : ((resetTenant detail n s).ten k).inReset = true := by
  by_cases hk : k = n
  · subst hk
    rw [resetTenant_idle (.inr h), h]
  · rw [(resetTenant_other (detail := detail) hk).1, h]

/-- Every enabled tenant of a list is put into reset. -/
theorem resetTenants_inReset (l : List TenantIx) (s : State) (hen : ∀ n ∈ l, s.enabled n = true) :
    ∀ n ∈ l, (((l.foldl (fun s n => resetTenant 2 n s) s)).ten n).inReset = true := by
  induction l generalizing s with
  | nil => exact fun n hn => absurd hn (by simp)
  | cons a l ih =>
    intro n hn
    rcases List.mem_cons.mp hn with rfl | hn
    · refine List.foldlRecOn (motive := fun (x : State) => (x.ten n).inReset = true) l _ (resetTenant_inReset (hen n (by simp))) fun x hx j _ => ?_
      exact resetTenant_keepsReset hx
    · refine ih _ (fun j hj => ?_) n hn
      rw [enabled_of_only (resetTenant_only 2 a s)]
      exact hen j (by simp [hj])

/-- The state at the beginning of a fence. -/
def fenceState (c : Content) (clamped rollback : Bool) (s : State) : State :=
  (fun s1 => if rollback then s1 else issueJob 2 .generation s1)
    (modGen (fun g => { g with
      st := .fence
      pend := c
      clamped := clamped
      rollback := rollback
      disabling := disabledBy s c
      digPend := if rollback then g.digPrev else contentDigest s c }) s)

theorem startFence_eq (c : Content) (clamped rollback : Bool) (s : State) :
    startFence c clamped rollback s = (disabledBy s c).foldl (fun s n => resetTenant 2 n s) (stopChans c (fenceState c clamped rollback s)) := rfl

theorem fenceState_facts (c : Content) (clamped rollback : Bool) (s : State) :
    Only [.gen, .sch] s (fenceState c clamped rollback s) ∧
    (fenceState c clamped rollback s).gen = { s.gen with
      st := .fence, pend := c, clamped := clamped, rollback := rollback, disabling := disabledBy s c,
      digPend := if rollback then s.gen.digPrev else contentDigest s c } ∧
    (fenceState c clamped rollback s).sch = (if rollback then s.sch
      else { s.sch with nextId := s.sch.nextId + 1, jobs := s.sch.jobs ++ [{ id := s.sch.nextId, kind := 2, work := .generation }] }) := by
  cases rollback
  · exact ⟨Only.issueJob _ _ _ (by decide) (Only.modGen _ (by decide) (Only.refl _ _)), rfl, rfl⟩
  · exact ⟨Only.modGen _ (by decide) (Only.refl _ _), rfl, rfl⟩

/-- What a fence leaves, whether or not it disables a tenant. -/
structure Fenced (c : Content) (clamped rollback : Bool) (s t : State) : Prop where
  only : Only ([.gen, .tens, .sqs, .sch, .reqs, .tiles, .streams, .ks, .dcs, .fp, .crs] ++ dropParts) s t
  gen : t.gen = { s.gen with
    st := .fence, pend := c, clamped := clamped, rollback := rollback, disabling := disabledBy s c,
    digPend := if rollback then s.gen.digPrev else contentDigest s c }
  inReset : ∀ n ∈ disabledBy s c, (t.ten n.val).inReset = true
  chans : disabledBy s c = [] → ∀ k ∈ changedChans s c, Cleared k t
  sch : disabledBy s c = [] → t.sch = (if rollback then s.sch
    else { s.sch with nextId := s.sch.nextId + 1, jobs := s.sch.jobs ++ [{ id := s.sch.nextId, kind := 2, work := .generation }] })
  undue : disabledBy s c = [] → (∀ k ∈ changedChans s c, (s.dc k).due = false) →
    Only [.gen, .tens, .dcs, .sch, .out] s t ∧ ∀ k, k ∉ changedChans s c → t.dc k = s.dc k

theorem startFence_facts (c : Content) (clamped rollback : Bool) (s : State) : Fenced c clamped rollback s (startFence c clamped rollback s) := by
  obtain ⟨hfence, hgen, hsch⟩ := fenceState_facts c clamped rollback s
  rw [startFence_eq]
  generalize fenceState c clamped rollback s = x at hfence hgen hsch
  have hstart : x.start = s.start := hfence.2 .start (by decide)
  have hact : x.gen.act = s.gen.act := by rw [hgen]
  have hstop : Only [.denied, .notice, .tens, .sqs, .dcs, .jrn, .evPend, .pviol, .pvcnt, .out] x (stopChans c x) := Only.stopChans _ _ (by decide) (Only.refl _ _)
  have hreset : Only trstParts (stopChans c x) ((disabledBy s c).foldl (fun s n => resetTenant 2 n s) (stopChans c x)) :=
    Only.foldl _ (Only.refl _ _) fun _ _ h => Only.resetTenant _ _ _ (by decide) h
  have hdis : disabledBy x c = disabledBy s c := disabledBy_congr c hstart hact
  have hchg : changedChans x c = changedChans s c := changedChans_congr c hstart hact
  refine ⟨((hfence.mono (by decide)).trans (hstop.mono (by decide))).trans (hreset.mono (by decide)), ?_, fun n hn => ?_, fun hnone => ?_, fun hnone => ?_, fun hnone hdue => ?_⟩
  · rw [hreset.gen_eq (by decide) (by decide), hstop.gen_eq (by decide) (by decide), hgen]
  · refine resetTenants_inReset _ _ (fun n hn => ?_) n hn
    have hen : s.enabled n = true := by
      have := List.mem_filter.mp hn
      simp only [Bool.and_eq_true] at this
      exact this.2.1
    rw [hstop.enabled_eq (by decide) (by decide) (by decide), State.enabled, enabledIn, State.word, hstart, hact]
    exact hen
  · rw [hnone, List.foldl_nil, stopChans_changed (hdis.trans hnone), hchg]
    exact reassigned_cleared _ _ _
  · rw [hnone, List.foldl_nil]
    exact (hstop.2 .sch (by decide)).trans hsch
  · have hdc (k : Nat) : x.dc k = s.dc k := hfence.dc_eq (by decide) k
    rw [hnone, List.foldl_nil, stopChans_changed (hdis.trans hnone), hchg]
    obtain ⟨honly, hothers⟩ := reassigned_undue (changedChans s c) 0x80 x fun k hk => by rw [hdc]; exact hdue k hk
    exact ⟨(hfence.mono (by decide)).trans (honly.mono (by decide)), fun k hk => (hothers k hk).trans (hdc k)⟩

end

/-! ### The pending content takes effect (R384) -/

section
variable {s : State}

/-- A tenant at its reset values, but for the requests of which the record has left. -/
def FreshTen (n : TenantIx) (s : State) : Prop := s.ten n = { left := (s.ten n).left }

theorem FreshTen.of_ten {t : State} {n : TenantIx} (h : FreshTen n s) (e : t.ten n = s.ten n) : FreshTen n t := by
  rw [FreshTen, e]
  exact h

theorem freshTenant_fresh (n : TenantIx) (s : State) : FreshTen n (freshTenant n s) := by
  rw [FreshTen, freshTenant, modTen_ten_same]

theorem FreshTen.freshTenant {n : TenantIx} (j : TenantIx) (h : FreshTen n s) : FreshTen n (Machine.freshTenant j s) := by
  by_cases hj : n = j
  · subst hj
    exact freshTenant_fresh n s
  · have hrings : Only [.sqs, .cqs] s (eachN (List.range 16) (fun m s => modCq j.val m (fun _ => {}) (modSq j.val m Sq.fresh s)) s) :=
      Only.eachN _ (Only.refl _ _) fun _ _ h => Only.modCq _ _ _ (by decide) (Only.modSq _ _ _ (by decide) h)
    refine h.of_ten ?_
    rw [Machine.freshTenant, modTen_ten_ne _ _ (fun e => hj (Fin.ext e))]
    exact ten_of_tens (hrings.2 .tens (by decide)) _

theorem freshTenants_fresh (l : List TenantIx) (s : State) : ∀ n ∈ l, FreshTen n (l.foldl (fun s n => Machine.freshTenant n s) s) := by
  induction l generalizing s with
  | nil => exact fun n hn => absurd hn (by simp)
  | cons a l ih =>
    intro n hn
    rw [List.foldl_cons]
    have hrest (x : State) (hx : FreshTen n x) : FreshTen n (l.foldl (fun s n => Machine.freshTenant n s) x) :=
      List.foldlRecOn (motive := fun (x : State) => FreshTen n x) l _ hx fun x hx j _ => hx.freshTenant j
    rcases List.mem_cons.mp hn with rfl | hn
    · exact hrest _ (freshTenant_fresh n s)
    · exact ih _ n hn

/-- The channels, and the course where it changes, leave before the pending content takes effect. -/
def leaving (s : State) : State :=
  stopChans s.gen.pend (if courseSet s s.gen.pend ≠ courseSet s s.gen.act then leaveCourse 0 true s else s)

/-- The generation in the cycle in which the pending content takes effect. -/
def generationTurned (g : Gen) : Gen :=
  { g with
    prev := g.act
    pend := {}
    shadow := if g.rollback then g.pend else g.shadow
    previous := g.active
    active := nextGen g.active
    digPrev := g.digAct
    digAct := g.digPend
    digPend := []
    disabling := []
    st := .idle
    err := 0 }

/-- The state with the pending content active. -/
def turned (s : State) : State :=
  turnRules s.gen.rollback (setAct s.gen.pend (modGen generationTurned s))

/-- What follows the change of generation. -/
def fitted (newly : List TenantIx) (s s1 : State) : State :=
  (fun s2 => if s.gen.clamped then raiseG gSchedBudgetClamp (modSch (fun c => { c with budgetClamped := true }) s2) else s2)
    (unloadOutside (newPeriod s (lowerCredits (newly.foldl (fun s n => Machine.freshTenant n s) s1))))

theorem takeEffect_eq (s : State) :
    takeEffect s = raiseG gGenDone (if courseSet s s.gen.pend ≠ courseSet s s.gen.act then
      enterCourse (fitted (enabledBy s s.gen.pend) (leaving s) (turned (leaving s))) else fitted (enabledBy s s.gen.pend) (leaving s) (turned (leaving s))) := by
  rw [takeEffect, leaving]
  by_cases h : courseSet s s.gen.pend ≠ courseSet s s.gen.act
  · simp only [h, decide_true, if_true, ne_eq, not_false_eq_true]
    rfl
  · simp only [h, decide_false, if_false, Bool.false_eq_true]
    rfl

theorem leaving_only (s : State) : Only ([.tens, .sqs, .sch, .reqs, .tiles, .streams, .ks, .dcs, .fp, .crs] ++ dropParts) s (leaving s) := by
  rw [leaving]
  refine Only.stopChans _ _ (by decide) ?_
  split
  · exact Only.leaveCourse _ _ _ (by decide) (Only.refl _ _)
  · exact Only.refl _ _

theorem fitted_facts (newly : List TenantIx) (s s1 : State) : Only [.tens, .sqs, .cqs, .sch, .ks, .evPend] s1 (fitted newly s s1) ∧
    (∀ n ∈ newly, FreshTen n (fitted newly s s1)) ∧ (s.gen.clamped = true → bitOf (fitted newly s s1).evPend gSchedBudgetClamp = true) := by
  have hnewly : Only [.tens, .sqs, .cqs] s1 (newly.foldl (fun s n => Machine.freshTenant n s) s1) :=
    Only.foldl _ (Only.refl _ _) fun _ _ h => Only.freshTenant _ _ (by decide) h
  have hfresh := freshTenants_fresh newly s1
  rw [fitted]
  generalize newly.foldl (fun s n => Machine.freshTenant n s) s1 = x at hnewly hfresh
  have hrest : Only [.sqs, .sch, .ks] x (unloadOutside (newPeriod s (lowerCredits x))) :=
    Only.unloadOutside _ (by decide) (Only.newPeriod _ _ (by decide) (Only.lowerCredits _ (by decide) (Only.refl _ _)))
  generalize unloadOutside (newPeriod s (lowerCredits x)) = y at hrest
  dsimp only
  cases s.gen.clamped with
  | false =>
    refine ⟨(hnewly.mono (by decide)).trans (hrest.mono (by decide)), fun n hn => ?_, fun h => absurd h (by decide)⟩
    exact (hfresh n hn).of_ten (ten_of_tens (hrest.2 .tens (by decide)) _)
  | true =>
    refine ⟨Only.raiseG _ _ (by decide) (Only.modSch _ (by decide) ((hnewly.mono (by decide)).trans (hrest.mono (by decide)))), fun n hn => ?_,
      fun _ => raiseG_bit _ _ (by decide)⟩
    exact (hfresh n hn).of_ten (ten_of_tens (hrest.2 .tens (by decide)) _)

theorem turned_facts (s : State) : Only [.gen, .act, .sqs, .reqs, .dcs] s (turned s) ∧
    (turned s).gen = { generationTurned s.gen with act := s.gen.pend } ∧
    (turned s).reqs = s.reqs.map (fun r => { r with rulesPrev := if s.gen.rollback then !r.rulesPrev else true }) := by
  have hturn : Only [.gen, .act] s (setAct s.gen.pend (modGen generationTurned s)) := Only.setAct _ (by decide) (Only.modGen _ (by decide) (Only.refl _ _))
  have hgen : (setAct s.gen.pend (modGen generationTurned s)).gen = { generationTurned s.gen with act := s.gen.pend } := rfl
  have hreqs : (setAct s.gen.pend (modGen generationTurned s)).reqs = s.reqs := rfl
  rw [turned]
  generalize setAct s.gen.pend (modGen generationTurned s) = x at hturn hgen hreqs
  have hrules : Only [.sqs, .reqs, .dcs] x (turnRules s.gen.rollback x) := Only.turnRules _ _ (by decide) (Only.refl _ _)
  refine ⟨(hturn.mono (by decide)).trans (hrules.mono (by decide)), (hrules.gen_eq (by decide) (by decide)).trans hgen, ?_⟩
  rw [turnRules]
  have hrest (y : State) (f g : Nat → State → State) (hf : ∀ i z, Only [.dcs] z (f i z)) (hg : ∀ i z, Only [.sqs] z (g i z)) (l m : List Nat) :
      (eachN l g (eachN m f y)).reqs = y.reqs := by
    have hboth : Only [.dcs, .sqs] y (eachN l g (eachN m f y)) :=
      Only.eachN _ (Only.eachN _ (Only.refl _ _) fun i z h => h.trans ((hf i z).mono (by decide))) fun i z h => h.trans ((hg i z).mono (by decide))
    exact hboth.2 .reqs (by decide)
  rw [← hreqs]
  exact hrest _ _ _ (fun i z => Only.modDc _ _ (by decide) (Only.refl _ _)) (fun i z => Only.modSq _ _ _ (by decide) (Only.refl _ _)) _ _

end

/-! ### Work of the engine ends (R515) -/

/-- The tiles that work of the engine leaves as it ends, and the work that is left. -/
def jobLeft (j : Job) (s : State) : State :=
  modSch (fun c => { c with jobs := c.jobs.filter (fun q => decide (q.id ≠ j.id)) }) (releaseOp j.id 0 s)

theorem jobLeft_facts (j : Job) (s : State) :
    Only [.sch, .reqs, .tiles] s (jobLeft j s) ∧ (jobLeft j s).sch = { s.sch with jobs := s.sch.jobs.filter (fun q => decide (q.id ≠ j.id)) } := by
  have hrelease : Only [.reqs, .tiles] s (releaseOp j.id 0 s) := Only.releaseOp _ _ _ (by decide) (Only.refl _ _)
  have hsch : (releaseOp j.id 0 s).sch = s.sch := hrelease.2 .sch (by decide)
  refine ⟨Only.modSch _ (by decide) (hrelease.mono (by decide)), ?_⟩
  rw [← hsch]
  rfl

/-- A scheduler with one piece of work more. -/
def jobIssued (kind : Nat) (work : JobWork) (c : Sched) : Sched := { c with nextId := c.nextId + 1, jobs := c.jobs ++ [{ id := c.nextId, kind := kind, work := work }] }

section
variable {id x : Nat} {j : Job} {ok meets : Bool} {s : State}

/-- At the end of work of the engine: the number is that of the work j, on tile x. -/
structure AtJobEnd (s : State) (id : Nat) (j : Job) (x : Nat) : Prop where
  open' : tilesOpen s = true
  req : s.req id = none
  job : s.sch.jobs.find? (fun q => decide (q.id = id)) = some j
  tile : jobTile s j = some x

theorem AtJobEnd.id_eq (h : AtJobEnd s id j x) : j.id = id := by
  have := List.find?_some h.job
  simpa using this

theorem AtJobEnd.ends (h : AtJobEnd s id j x) (hok : ¬ (j.kind = 3 ∧ j.work.purpose ≠ .patches ∧ ok = false)) :
    exec (.operationEnd id 0 ok .clean meets) s = .next (jobDone j (jobLeft j s)) := by
  have hnot : ¬ (j.kind = 3 ∧ j.work.purpose ≠ .patches ∧ (!ok) = true) := by simpa using hok
  have hends : jobEnds j ok .clean s = jobDone j (jobLeft j s) := by
    rw [jobEnds, h.tile]
    dsimp only [tileChecked]
    rw [if_neg (not_not_intro h.tile), if_neg hnot]
    rfl
  refine congrArg Host.Outcome.next ?_
  rw [fxOperationEnd, whenS_true h.open', h.req, h.job]
  exact hends

theorem AtJobEnd.failsCheck (h : AtJobEnd s id j x) (hkind : j.kind = 3) (haim : j.work.purpose ≠ .patches) :
    exec (.operationEnd id 0 false .clean meets) s = .next (quarantine x qResult false s) := by
  have hends : jobEnds j false .clean s = quarantine x qResult false s := by
    rw [jobEnds, h.tile]
    dsimp only [tileChecked]
    rw [if_neg (not_not_intro h.tile), if_pos ⟨hkind, haim, rfl⟩]
  refine congrArg Host.Outcome.next ?_
  rw [fxOperationEnd, whenS_true h.open', h.req, h.job]
  exact hends

end

theorem imgApply_congr {s t : State} (b : Bytes) (hstart : t.start = s.start) (hgen : t.gen = s.gen) : imgApply t b = imgApply s b := by
  have hword (c : Content) : t.word c = s.word c := funext fun r => by rw [State.word, State.word, hstart]
  have hset (c : Content) : t.setWord c = s.setWord c := funext fun r => funext fun w => by rw [State.setWord, State.setWord, hstart]
  have hwrite : imgWrite t = imgWrite s := funext fun c => funext fun r => by rw [imgWrite, imgWrite, hset, hword]
  rw [imgApply, imgApply, hwrite, hgen]

/-! ### A signature check of a patch section ends (R382) -/

section
variable {i : Nat} {second : Bool} {s : State}

theorem sectChecked_goesOn (h : sectSigned ((imgSections s.gen.image).getD i []) second = true) (hmore : working s .patches = true) : sectChecked i second s = s := by
  rw [sectChecked, if_neg (by rw [h]; decide), if_pos hmore]

theorem sectChecked_last (h : sectSigned ((imgSections s.gen.image).getD i []) second = true) (hmore : working s .patches = false) :
    sectChecked i second s = endLoad 0 s.gen.image s := by
  rw [sectChecked, if_neg (by rw [h]; decide), if_neg (by rw [hmore]; decide)]

theorem sectChecked_fails (h : sectSigned ((imgSections s.gen.image).getD i []) second = false) :
    sectChecked i second s = endLoad 6 s.gen.image (dropWork .patches s) := by
  rw [sectChecked, if_pos (by rw [h]; rfl)]

end

end Sys2Proof.Machine

namespace Sys2Proof.Generations
open Sys2Proof.Machine

/-- The commands of AH_OWN_GEN_CMD but COMMIT and ROLLBACK. -/
theorem commands (who : Who) (s : State) :
    let busy := fun t => Only [.gen] s t ∧ t.gen = { s.gen with err := 1 }
    (Takes s who .ownGenCmd 1 → s.gen.st ≠ .idle → ∃ t, exec (.genLoad who) s = .next t ∧ busy t) ∧
    (Takes s who .ownGenCmd 2 → s.gen.st ≠ .idle → ∃ t, exec (.genCommit who) s = .next t ∧ busy t) ∧
    (Takes s who .ownGenCmd 4 → s.gen.st ≠ .idle → ∃ t, exec (.genRollback who) s = .next t ∧ busy t) ∧
    (Takes s who .ownGenCmd 5 → s.gen.st ≠ .idle → ∃ t, exec (.genDiscard who) s = .next t ∧ busy t) := by
  have hbusy {f : State → State} {v : Word} (htakes : Takes s who .ownGenCmd v) (hst : s.gen.st ≠ .idle) : gateW who .ownGenCmd v (whenIdle f) s = genErr 1 s :=
    (gateW_takes htakes).trans (whenIdle_busy hst)
  exact ⟨fun h hst => ⟨_, congrArg Host.Outcome.next (hbusy h hst), genErr_facts 1 s⟩, fun h hst => ⟨_, congrArg Host.Outcome.next (hbusy h hst), genErr_facts 1 s⟩,
    fun h hst => ⟨_, congrArg Host.Outcome.next (hbusy h hst), genErr_facts 1 s⟩, fun h hst => ⟨_, congrArg Host.Outcome.next (hbusy h hst), genErr_facts 1 s⟩⟩

/-- COMMIT and ROLLBACK begin with a fence. -/
theorem fences {who : Who} {s : State} {rollback : Bool} (htakes : Takes s who .ownGenCmd (if rollback then 4 else 2)) (hst : s.gen.st = .idle)
    (hprev : rollback = true → s.gen.previous ≠ 0) :
    exec (if rollback then Instr.genRollback who else Instr.genCommit who) s =
      .next (startFence (if rollback then s.gen.prev else (fitBudgets s s.gen.shadow).1) (if rollback then false else (fitBudgets s s.gen.shadow).2) rollback s) := by
  cases rollback with
  | false => exact congrArg Host.Outcome.next ((gateW_takes htakes).trans (whenIdle_idle hst))
  | true =>
    refine congrArg Host.Outcome.next ((gateW_takes htakes).trans ((whenIdle_idle hst).trans ?_))
    exact if_neg (hprev rfl)

theorem fence_facts {who : Who} {s : State} {rollback : Bool} (htakes : Takes s who .ownGenCmd (if rollback then 4 else 2)) (hst : s.gen.st = .idle) :
    rollback = true → s.gen.previous = 0 →
      ∃ t, exec (if rollback then Instr.genRollback who else Instr.genCommit who) s = .next t ∧ Only [.gen] s t ∧ t.gen = { s.gen with err := 2 } := by
  rintro rfl hprev
  exact ⟨_, congrArg Host.Outcome.next ((gateW_takes htakes).trans ((whenIdle_idle hst).trans (if_pos hprev))), genErr_facts 2 s⟩

/-- Settles O52, by what each command leaves, by the channels and the tenants that a fence stops one by one, and by the steps of the cycle in which the
pending content takes effect. -/
theorem generations : Obligations.Generations := by
  refine ⟨fun who s => ?_, fun image s => ?_, fun who s rollback htakes hst => ?_, fun s hst hsup hdisabling hstrays hdrained => ?_, fun s hover => ?_,
    fun id x j ok meets s hopen hreq hjob htile => ?_, fun s => ?_⟩
  · intro busy
    obtain ⟨hload, hcommit, hrollback, hdiscard⟩ := commands who s
    refine ⟨hload, hcommit, hrollback, hdiscard, fun htakes hst => ?_, fun htakes hst => ?_, fun htakes hst => ?_, fun htakes hst => ?_⟩
    · exact ⟨_, congrArg Host.Outcome.next ((gateW_takes htakes).trans (whenIdle_idle hst)), genLoad_only s, genLoad_facts s⟩
    · exact ⟨_, congrArg Host.Outcome.next ((gateW_takes htakes).trans (whenIdle_idle hst)), Only.modGen _ (by decide) (Only.refl _ _), rfl⟩
    · exact ⟨_, congrArg Host.Outcome.next (gateW_takes htakes), genCancel_facts hst⟩
    · exact congrArg Host.Outcome.next ((gateW_takes htakes).trans (if_neg hst))
  · intro b due n
    refine ⟨fun hnot => ?_, fun hdue hcheck hnone => ?_, fun hdue hcheck hsome => ?_, fun hdue hcheck => ?_, imgCheck_fail b, imgCheck_format, imgCheck_digest⟩
    · refine congrArg Host.Outcome.next ?_
      rw [fxGenLoadDone, whenS_false]
      by_contra hdue
      simp only [Bool.not_eq_false, Bool.and_eq_true, decide_eq_true_eq, Bool.not_eq_true'] at hdue
      exact hnot hdue
    · have hexec := fxGenLoadDone_due (image := image) hdue.1 hdue.2
      rw [if_neg (by rw [hnone]; simp), hcheck] at hexec
      exact ⟨_, congrArg Host.Outcome.next hexec, endLoad_applies s⟩
    · have hexec := fxGenLoadDone_due (image := image) hdue.1 hdue.2
      rw [if_pos ⟨hcheck, hsome⟩, checkSections, checkSections_eq] at hexec
      exact ⟨_, congrArg Host.Outcome.next hexec, Only.modSch _ (by decide) (Only.modGen _ (by decide) (Only.refl _ _)), rfl, rfl⟩
    · have hexec := fxGenLoadDone_due (image := image) hdue.1 hdue.2
      rw [if_neg fun h => hcheck h.1] at hexec
      exact ⟨_, congrArg Host.Outcome.next hexec, endLoad_fails hcheck s⟩
  · intro f c i
    refine ⟨fence_facts htakes hst, fun hprev => ?_⟩
    obtain ⟨honly, hgen, hreset, hchans, hsch, hundue⟩ := startFence_facts c (if rollback then false else f.2) rollback s
    exact ⟨_, fences htakes hst hprev, honly, hgen, hreset, fun hnone => ⟨hchans hnone, hsch hnone, hundue hnone⟩⟩
  · have hover : fenceOver s = true := by
      rw [fenceOver, hst, hsup, hstrays]
      have hall : s.gen.disabling.all (fun n => !(s.ten n.val).inReset && !s.reqs.any (fun r => r.ofTenant n)) = true := by
        refine List.all_eq_true.mpr fun n hn => ?_
        obtain ⟨hin, hreqs⟩ := hdisabling n hn
        rw [hin, List.any_eq_false.mpr fun r hr => by rw [hreqs r hr]; decide]
        rfl
      rw [hall]
      cases hroll : s.gen.rollback with
      | true => rfl
      | false =>
        obtain ⟨hdrain, hwork⟩ := hdrained hroll
        rw [hdrain, hwork]
        rfl
    have hexec : exec .genTakeEffect s = .next (takeEffect s) := congrArg Host.Outcome.next (whenS_true hover)
    refine ⟨_, hexec, Only.takeEffect _ (by decide) (Only.refl _ _), ?_⟩
    have hleave := leaving_only s
    have hleft : courseSet s s.gen.pend = courseSet s s.gen.act → leaving s = stopChans s.gen.pend s := fun h => by rw [leaving, if_neg (not_not_intro h)]
    rw [takeEffect_eq]
    generalize leaving s = y at hleave hleft ⊢
    obtain ⟨hturn, hgen, hreqs⟩ := turned_facts y
    have hygen : y.gen = s.gen := hleave.gen_eq (by decide) (by decide)
    obtain ⟨hfit, hfresh, hclamp⟩ := fitted_facts (enabledBy s s.gen.pend) y (turned y)
    generalize turned y = z at hturn hgen hreqs hfit hfresh hclamp ⊢
    generalize fitted (enabledBy s s.gen.pend) y z = w at hfit hfresh hclamp ⊢
    have hentered : Only [.crs] w (if courseSet s s.gen.pend ≠ courseSet s s.gen.act then enterCourse w else w) := by
      split
      · exact Only.enterCourse _ (by decide) (Only.refl _ _)
      · exact Only.refl _ _
    have hstays : courseSet s s.gen.pend = courseSet s s.gen.act → (if courseSet s s.gen.pend ≠ courseSet s s.gen.act then enterCourse w else w) = w :=
      fun h => if_neg (not_not_intro h)
    generalize (if courseSet s s.gen.pend ≠ courseSet s s.gen.act then enterCourse w else w) = v at hentered hstays ⊢
    have hvgen : (raiseG gGenDone v).gen = { generationTurned s.gen with act := s.gen.pend } :=
      calc (raiseG gGenDone v).gen = v.gen := rfl
        _ = w.gen := hentered.gen_eq (by decide) (by decide)
        _ = z.gen := hfit.gen_eq (by decide) (by decide)
        _ = { generationTurned y.gen with act := y.gen.pend } := hgen
        _ = { generationTurned s.gen with act := s.gen.pend } := by rw [hygen]
    have hactive : (raiseG gGenDone v).gen.active = nextGen s.gen.active := congrArg Gen.active hvgen
    refine ⟨hvgen, fun h => ?_, fun h => ?_, raiseG_bit _ _ (by decide), fun h => ?_, fun n hn => ?_, fun hset => ?_⟩
    · rw [hactive, h]
      rfl
    · rw [hactive]
      exact if_neg h
    · have hw := hclamp (by rw [hygen]; exact h)
      have hv : bitOf v.evPend gSchedBudgetClamp = true := by rwa [show v.evPend = w.evPend from hentered.2 .evPend (by decide)]
      exact Pend.raiseG _ _ hv
    · exact (hfresh n hn).of_ten (ten_of_tens (hentered.2 .tens (by decide)) _)
    · have hstop : Only [.denied, .notice, .tens, .sqs, .dcs, .jrn, .evPend, .pviol, .pvcnt, .out] s y :=
        hleft hset ▸ Only.stopChans _ _ (by decide) (Only.refl _ _)
      rw [hstays hset]
      refine ⟨?_, ?_⟩
      · calc w.crs = z.crs := hfit.2 .crs (by decide)
          _ = y.crs := hturn.2 .crs (by decide)
          _ = s.crs := hstop.2 .crs (by decide)
      · calc w.reqs = z.reqs := hfit.2 .reqs (by decide)
          _ = _ := hreqs
          _ = _ := by rw [hygen, show y.reqs = s.reqs from hstop.2 .reqs (by decide)]
  · exact congrArg Host.Outcome.next (whenS_false hover)
  · intro left run
    have hat : AtJobEnd s id j x := ⟨hopen, hreq, hjob, htile⟩
    obtain ⟨honly, hsch⟩ := jobLeft_facts j s
    refine ⟨fun hwork hkind => ?_, fun i second hwork => ?_, fun y hwork hkind hok => ?_, fun y hwork hkind => ?_, fun hkind haim hok => ?_⟩
    · have hrun := hat.ends (ok := ok) (meets := meets) fun h => absurd (hkind.symm.trans h.1) (by decide)
      rw [jobDone, hwork] at hrun
      exact ⟨_, hrun, honly, hsch⟩
    · have hrun := hat.ends (ok := ok) (meets := meets) fun h => h.2.1 (by rw [hwork]; rfl)
      have hgen : (jobLeft j s).gen = s.gen := honly.gen_eq (by decide) (by decide)
      have hstart : (jobLeft j s).start = s.start := honly.2 .start (by decide)
      rw [jobDone, hwork] at hrun
      dsimp only at hrun
      generalize jobLeft j s = y at honly hsch hrun hgen hstart
      intro signed more
      have hmore : working y .patches = more := by rw [working, hsch]
      refine ⟨fun hs hm => ?_, fun hs hm => ?_, fun hs => ?_⟩
      · rw [sectChecked_goesOn (by rw [hgen]; exact hs) (hmore.trans hm)] at hrun
        exact ⟨_, hrun, honly, hsch⟩
      · rw [sectChecked_last (by rw [hgen]; exact hs) (hmore.trans hm)] at hrun
        obtain ⟨hend, hends⟩ := endLoad_applies (b := y.gen.image) y
        refine ⟨_, hrun, (honly.mono (by decide)).trans (hend.mono (by decide)), (hend.2 .sch (by decide)).trans hsch, hends.trans ?_⟩
        rw [imgApply_congr _ hstart hgen, hgen]
      · rw [sectChecked_fails (by rw [hgen]; exact hs)] at hrun
        have hdrop : Only [.sch, .tiles] y (dropWork .patches y) := Only.dropWork _ _ (by decide) (Only.refl _ _)
        have hidle := working_dropWork .patches y
        generalize dropWork .patches y = z at hrun hdrop hidle
        obtain ⟨hend, hends, hbit⟩ := endLoad_fails (e := 6) (b := y.gen.image) (by decide) z
        refine ⟨_, hrun, ((honly.mono (by decide)).trans (hdrop.mono (by decide))).trans (hend.mono (by decide)), ?_, hends.trans ?_, hbit⟩
        · rw [working, show (endLoad 6 y.gen.image z).sch = z.sch from hend.2 .sch (by decide)]
          exact hidle
        · rw [hdrop.gen_eq (by decide) (by decide), hgen]
          rfl
    · have hrun := hat.ends (ok := ok) (meets := meets) fun h => absurd (hok.symm.trans h.2.2) (by decide)
      rw [jobDone, hwork] at hrun
      dsimp only at hrun
      rw [if_pos hkind] at hrun
      refine ⟨_, hrun, Only.issueJob _ _ _ (by decide) honly, ?_⟩
      exact (congrArg (jobIssued 2 (.slot y)) hsch).trans rfl
    · have hrun := hat.ends (ok := ok) (meets := meets) fun h => hkind h.1
      rw [jobDone, hwork] at hrun
      dsimp only at hrun
      rw [if_neg hkind] at hrun
      exact ⟨_, hrun, honly, hsch⟩
    · subst hok
      exact ⟨_, hat.failsCheck hkind haim, quarantine_out _ _ _ _⟩
  · refine ⟨fun hst => congrArg Host.Outcome.next (whenS_false (decide_eq_false hst)), fun hst => ?_⟩
    have hexec : exec .genSlow s = .next (raiseG gGenSlow (journal 0x25 0x10 [(nextGen s.gen.active).toNat, pinned s % 512] s)) :=
      congrArg Host.Outcome.next (whenS_true (decide_eq_true hst))
    exact ⟨_, hexec, Only.raiseG _ _ (by decide) (Only.journal _ _ _ _ (by decide) (Only.refl _ _)), raiseG_bit _ _ (by decide), journal_seq _ _ _ _⟩

end Sys2Proof.Generations
end

section
/-!
What a course shares (R450, R456 to R465): frames, blocks and their grants, the mirror, forwarded work and who is followed, with the statement O59.
-/

namespace Sys2Proof.Machine

/-! ### Frames of the course (R454) -/

/-- Frames have left the engine: nothing but the frame counts and the outputs changes. -/
structure Sends (s t : State) : Prop where
  only : Only [.crs, .out] s t
  crs : ∃ c, t.crs = { s.crs with sendCnt := c }

theorem Sends.refl (s : State) : Sends s s := ⟨Only.refl _ _, _, rfl⟩

theorem Sends.trans {s t u : State} (h : Sends s t) (g : Sends t u) : Sends s u := by
  obtain ⟨hst, c, hc⟩ := h
  obtain ⟨htu, d, hd⟩ := g
  exact ⟨hst.trans htu, d, by rw [hd, hc]⟩

theorem sendFrame_sends (type dst : Nat) (payload : Bytes) (s : State) : Sends s (sendFrame type dst payload s) :=
  ⟨Only.sendFrame _ _ _ _ (by decide) (Only.refl _ _), _, rfl⟩

theorem sendFrame_out (type dst : Nat) (payload : Bytes) (s : State) : (sendFrame type dst payload s).out.length = s.out.length + 1 := by
  rw [sendFrame]
  exact List.length_append

theorem Sends.foldl {α : Type} {f : State → α → State} (hf : ∀ s a, Sends s (f s a)) (l : List α) (s : State) : Sends s (l.foldl f s) :=
  List.foldlRecOn (motive := fun (x : State) => Sends s x) l f (Sends.refl s) fun x hx a _ => hx.trans (hf x a)

theorem Sends.eachN {f : Nat → State → State} (hf : ∀ i s, Sends s (f i s)) (l : List Nat) (s : State) : Sends s (Machine.eachN l f s) :=
  Sends.foldl (f := fun s i => f i s) (fun s i => hf i s) l s

theorem eachN_out {f : Nat → State → State} (hf : ∀ i (s : State), (f i s).out.length = s.out.length + 1) (l : List Nat) (s : State) :
    (eachN l f s).out.length = s.out.length + l.length := by
  induction l generalizing s with
  | nil => rfl
  | cons a l ih =>
    have hstep : eachN (a :: l) f s = eachN l f (f a s) := rfl
    rw [hstep, ih, hf, List.length_cons]
    omega

theorem sendLong_sends (type dst : Nat) (payload : Bytes) (s : State) : Sends s (sendLong type dst payload s) :=
  Sends.foldl (fun s i => sendFrame_sends type dst (slice payload (1024 * i) 1024) s) _ s

theorem Sends.peer {s t : State} (h : Sends s t) (p : Nat) : t.peer p = s.peer p := by
  obtain ⟨-, c, hc⟩ := h
  rw [State.peer, State.peer, hc]

theorem Sends.bankNext {s t : State} (h : Sends s t) (k : Nat) : Machine.bankNext t k = Machine.bankNext s k := by
  rw [Machine.bankNext, Machine.bankNext, State.slot, State.slot, show t.ks = s.ks from h.only.2 .ks (by decide)]

/-- Nothing of the course but its peers and its frame counts has changed. -/
def ButPeers (s t : State) : Prop := ∃ ps c, t.crs = { s.crs with peers := ps, sendCnt := c }

theorem ButPeers.of_crs {s t : State} (h : t.crs = s.crs) : ButPeers s t := ⟨_, _, h⟩

theorem ButPeers.trans {s t u : State} (h : ButPeers s t) (g : ButPeers t u) : ButPeers s u := by
  obtain ⟨ps, c, hc⟩ := h
  obtain ⟨ps', c', hc'⟩ := g
  exact ⟨ps', c', by rw [hc', hc]⟩

theorem Sends.butPeers {s t : State} (h : Sends s t) : ButPeers s t := by
  obtain ⟨-, c, hc⟩ := h
  exact ⟨_, c, hc⟩

theorem modPeer_butPeers (p : Nat) (f : Peer → Peer) (s : State) : ButPeers s (modPeer p f s) := ⟨_, _, rfl⟩

theorem idlePair_butPeers (p : Nat) (s : State) : ButPeers s (idlePair p s) := by
  rw [idlePair]
  generalize hx : modPeer p _ s = x
  have hdrop : Only [.sch, .tiles] x (dropWork (.pairing p) x) := Only.dropWork _ _ (by decide) (Only.refl _ _)
  exact (hx ▸ modPeer_butPeers p _ s).trans (.of_crs (hdrop.2 .crs (by decide)))

theorem sayHello_butPeers (p : Nat) (s : State) : ButPeers s (sayHello p s) := by
  have honly : Only [.notice, .ces, .es, .rbgs, .jrn, .evPend, .pviol, .pvcnt, .out] s (generate 32 (genOrder 0) s).2 := Only.generate _ _ _ (by decide) (Only.refl _ _)
  rw [sayHello]
  generalize generate 32 (genOrder 0) s = g at honly
  obtain ⟨k, x⟩ := g
  have hcrs : x.crs = s.crs := honly.2 .crs (by decide)
  cases k with
  | none => exact .of_crs hcrs
  | some k => exact (ButPeers.of_crs hcrs).trans ((modPeer_butPeers _ _ _).trans (sendFrame_sends _ _ _ _).butPeers)

/-! ### Who is followed (R450, R464) -/

section
variable {p cause : Nat} {s : State}

theorem crsIsMaster_iff : crsIsMaster s = true ↔ crsRole s = roMaster := decide_eq_true_iff

theorem crsState_facts (before after cause : Nat) (s : State) :
    Only recordParts s (crsState before after cause s) ∧ bitOf (crsState before after cause s).evPend gCrsState = true :=
  ⟨Only.raiseG _ _ (by decide) (Only.crsRecord _ _ _ (by decide) (Only.refl _ _)), raiseG_bit _ _ (by decide)⟩

theorem demote_facts (p cause : Nat) (s : State) :
    (demote p cause s).crs.role = BitVec.ofNat 2 roElect ∧ (demote p cause s).crs.master = BitVec.ofNat 2 p ∧ (demote p cause s).crs.grants = [] ∧
      bitOf (demote p cause s).evPend gCrsState = true := by
  rw [demote]
  generalize hx : modCrs (fun c => { c with role := BitVec.ofNat 2 roElect, master := BitVec.ofNat 2 p, took := decide (cause = 2), grants := [] }) s = x
  obtain ⟨honly, hbit⟩ := crsState_facts roMaster roElect cause x
  have hcrs : (crsState roMaster roElect cause x).crs = x.crs := honly.2 .crs (by decide)
  generalize crsState roMaster roElect cause x = y at hbit hcrs
  have hkeeps {z : State} (h : ButPeers y z) : z.crs.role = BitVec.ofNat 2 roElect ∧ z.crs.master = BitVec.ofNat 2 p ∧ z.crs.grants = [] := by
    obtain ⟨ps, c, hc⟩ := h
    rw [hc, hcrs, ← hx]
    exact ⟨rfl, rfl, rfl⟩
  split
  · obtain ⟨hrole, hmaster, hgrants⟩ := hkeeps (ButPeers.of_crs rfl)
    exact ⟨hrole, hmaster, hgrants, hbit⟩
  · obtain ⟨hrole, hmaster, hgrants⟩ := hkeeps ((idlePair_butPeers p y).trans (sayHello_butPeers p _))
    exact ⟨hrole, hmaster, hgrants, Pend.sayHello _ _ (Pend.idlePair _ _ hbit)⟩

theorem secondMaster_demotes (hrole : crsRole s = roMaster) (hp : p < crsPos s) : secondMaster p cause s = demote p cause s := if_pos ⟨hrole, hp⟩

theorem secondMaster_stays (h : (crsRole s = roMaster ∧ crsPos s ≤ p) ∨ (crsRole s ≠ roMaster ∧ keepsMaster p cause s = true)) : secondMaster p cause s = s := by
  rw [secondMaster]
  rcases h with ⟨hrole, hp⟩ | ⟨hrole, hkeeps⟩
  · rw [if_neg fun h => absurd h.2 (by omega), if_pos (.inl hrole)]
  · rw [if_neg fun h => hrole h.1, if_pos (.inr hkeeps)]

theorem secondMaster_follows (hrole : crsRole s ≠ roMaster) (hkeeps : keepsMaster p cause s = false) :
    secondMaster p cause s = modCrs (fun c => { c with master := BitVec.ofNat 2 p, heard := true, took := decide (cause = 2) }) s := by
  rw [secondMaster, if_neg fun h => hrole h.1, if_neg]
  simp [hrole, hkeeps]

theorem hearMaster_hears (hp : p ∈ crsOthers s) (hnew : ¬ (crsRole s ≠ roMaster ∧ s.crs.heard = true ∧ s.crs.master.toNat = p)) :
    hearMaster p s = secondMaster p 1 s := by
  rw [hearMaster, if_neg]
  rintro (h | h)
  · exact hnew h
  · exact h hp

end

/-! ### Blocks (R456 to R459) -/

section
variable {dest k : Nat} {s : State}

theorem storeBlock_facts (k lo hi : Nat) (s : State) : Only [.crs] s (storeBlock k lo hi s) ∧
    blocksOf (storeBlock k lo hi s) k = blocksOf s k ++ [(lo, hi)] ∧ (∀ j, j ≠ k → blocksOf (storeBlock k lo hi s) j = blocksOf s j) ∧
    k ∉ (storeBlock k lo hi s).crs.asked ∧ (storeBlock k lo hi s).crs.grants = s.crs.grants := by
  refine ⟨Only.storeBlock _ _ _ _ (by decide) (Only.refl _ _), look_put_same _ _ _ _, fun j hj => look_put_ne _ _ _ hj, ?_, rfl⟩
  have hasked : (storeBlock k lo hi s).crs.asked = s.crs.asked.filter (· ≠ k) := rfl
  rw [hasked]
  simp

/-- The bank k, and how many records the grant of its next block leaves. -/
def grantedBank (s : State) (k : Nat) : Bank := if k % 2 = 1 then (s.slot (k / 2)).bankB else (s.slot (k / 2)).bankA
def grantRecords (s : State) (k : Nat) : BitVec 16 := if (grantedBank s k).soft.toNat < blockEnd s k ∧ (grantedBank s k).softHit = false then 2 else 1

/-- A block of bank k has been granted. -/
structure Granted (dest k : Nat) (s t : State) : Prop where
  only : Only [.notice, .tens, .ks, .jrn, .evPend, .pviol, .pvcnt, .crs, .out] s t
  next : bankNext t k = blockEnd s k
  seq : t.jrn.seq = s.jrn.seq + grantRecords s k
  grants : t.crs.grants = s.crs.grants
  blocks : dest ≠ crsPos s → t.crs.blocks = s.crs.blocks

/-- Whether the grant crosses the soft limit. -/
def crossesSoft (s : State) (k : Nat) : Bool := decide ((grantedBank s k).soft.toNat < blockEnd s k) && !(grantedBank s k).softHit

/-- The bank with its counter behind the block. -/
def raisedBank (s : State) (k : Nat) (b : Bank) : Bank := { b.setNext (BitVec.ofNat 64 (blockEnd s k)) with softHit := b.softHit || crossesSoft s k }

def raisedNext (k : Nat) (s : State) : State :=
  modSlot (k / 2) (fun v => if k % 2 = 1 then { v with bankB := raisedBank s k v.bankB } else { v with bankA := raisedBank s k v.bankA }) s

/-- The grant is recorded. -/
def recordedGrant (k : Nat) (s : State) : State :=
  crsRecord 0x45 [k / 2 + 2048 * (k % 2), bankNext s k % 2 ^ 32, bankNext s k / 2 ^ 32]
    (if crossesSoft s k then journal 0x21 0x11 [k / 2 + 2048 * (k % 2) + 4096 * 2] (raiseT (crsTen s) evSeqSoft (raisedNext k s)) else raisedNext k s)

theorem grantBlock_eq (dest k : Nat) (s : State) :
    grantBlock dest k s = if dest = crsPos s then storeBlock k (bankNext s k) (blockEnd s k) (recordedGrant k s)
      else sendFrame ftBlockGrant dest (toLE 2 (k / 2) ++ toLE 1 (k % 2) ++ toLE 8 (bankNext s k) ++ toLE 8 (blockEnd s k)) (recordedGrant k s) := rfl

theorem bankNext_congr {t : State} (h : t.ks = s.ks) : bankNext t k = bankNext s k := by rw [bankNext, bankNext, State.slot, State.slot, h]

theorem raisedNext_next (k : Nat) (s : State) : bankNext (raisedNext k s) k = blockEnd s k := by
  have hhi : (BitVec.ofNat 64 (blockEnd s k)).toNat = blockEnd s k := by
    rw [BitVec.toNat_ofNat]
    refine Nat.mod_eq_of_lt ?_
    have : blockEnd s k ≤ 2 ^ 64 - 1 := Nat.min_le_right _ _
    omega
  rw [bankNext, raisedNext, modSlot_slot_same]
  by_cases hk : k % 2 = 1
  · simp only [hk, if_true]
    exact hhi
  · simp only [hk, if_false]
    exact hhi

theorem recordedGrant_facts (k : Nat) (s : State) : Only [.notice, .tens, .ks, .jrn, .evPend, .pviol, .pvcnt, .out] s (recordedGrant k s) ∧
    bankNext (recordedGrant k s) k = blockEnd s k ∧ (recordedGrant k s).jrn.seq = s.jrn.seq + grantRecords s k := by
  have hraised : Only [.ks] s (raisedNext k s) := Only.modSlot _ _ (by decide) (Only.refl _ _)
  have hnext := raisedNext_next k s
  have hseq : (raisedNext k s).jrn = s.jrn := rfl
  rw [recordedGrant]
  generalize raisedNext k s = x at hraised hnext hseq
  have hrecord {y : State} (honly : Only [.notice, .tens, .jrn, .evPend, .pviol, .pvcnt, .out] x y) {n : BitVec 16} (hy : y.jrn.seq = s.jrn.seq + n)
      (hn : n + 1 = grantRecords s k) (payload : List Nat) : Only [.notice, .tens, .ks, .jrn, .evPend, .pviol, .pvcnt, .out] s (crsRecord 0x45 payload y) ∧
      bankNext (crsRecord 0x45 payload y) k = blockEnd s k ∧ (crsRecord 0x45 payload y).jrn.seq = s.jrn.seq + grantRecords s k := by
    have hrec : Only [.notice, .jrn, .evPend, .pviol, .pvcnt, .out] y (crsRecord 0x45 payload y) := Only.crsRecord _ _ _ (by decide) (Only.refl _ _)
    refine ⟨((hraised.mono (by decide)).trans (honly.mono (by decide))).trans (hrec.mono (by decide)), ?_, ?_⟩
    · rw [bankNext_congr (hrec.2 .ks (by decide)), bankNext_congr (honly.2 .ks (by decide)), hnext]
    · rw [crsRecord, journal_seq, hy, add_assoc, hn]
  cases hsoft : crossesSoft s k with
  | true =>
    rw [if_pos rfl]
    refine hrecord (n := 1) (Only.journal _ _ _ _ (by decide) (Only.raiseT _ _ _ (by decide) (Only.refl _ _))) ?_ ?_ _
    · rw [journal_seq, raiseT_jrn, hseq]
    · have hcross : (grantedBank s k).soft.toNat < blockEnd s k ∧ (grantedBank s k).softHit = false := by simpa [crossesSoft] using hsoft
      rw [grantRecords, if_pos hcross]
      rfl
  | false =>
    rw [if_neg (by decide)]
    refine hrecord (n := 0) (Only.refl _ _) ?_ ?_ _
    · rw [hseq, add_zero]
    · have hnot : ¬ ((grantedBank s k).soft.toNat < blockEnd s k ∧ (grantedBank s k).softHit = false) := by
        rintro ⟨h1, h2⟩
        simp [crossesSoft, h1, h2] at hsoft
      rw [grantRecords, if_neg hnot]
      rfl

theorem grantBlock_granted (dest k : Nat) (s : State) : Granted dest k s (grantBlock dest k s) := by
  obtain ⟨honly, hnext, hseq⟩ := recordedGrant_facts k s
  have hcrs : (recordedGrant k s).crs = s.crs := honly.2 .crs (by decide)
  rw [grantBlock_eq]
  generalize recordedGrant k s = x at honly hnext hseq hcrs
  split
  · next hdest =>
    obtain ⟨hstore, -, -, -, hgrants⟩ := storeBlock_facts k (bankNext s k) (blockEnd s k) x
    exact ⟨(honly.mono (by decide)).trans (hstore.mono (by decide)), (bankNext_congr (hstore.2 .ks (by decide))).trans hnext,
      (congrArg Journal.seq (hstore.2 .jrn (by decide))).trans hseq, hgrants.trans (by rw [hcrs]), fun h => absurd hdest h⟩
  · obtain ⟨hsend, c, hc⟩ := sendFrame_sends ftBlockGrant dest (toLE 2 (k / 2) ++ toLE 1 (k % 2) ++ toLE 8 (bankNext s k) ++ toLE 8 (blockEnd s k)) x
    exact ⟨(honly.mono (by decide)).trans (hsend.mono (by decide)), (bankNext_congr (hsend.2 .ks (by decide))).trans hnext,
      (congrArg Journal.seq (hsend.2 .jrn (by decide))).trans hseq, by rw [hc, hcrs], fun _ => by rw [hc, hcrs]⟩

/-- There is room for a block of bank k, for a position that is in the course. -/
structure Grants (s : State) (dest k : Nat) : Prop where
  bank : courseBank s k = true
  room : blockEnd s k ≠ bankNext s k
  here : goneFrom s dest = false

theorem beginGrant_none (h : ¬ (courseBank s k = true ∧ blockEnd s k ≠ bankNext s k)) : beginGrant dest k s = s := by
  rw [beginGrant, if_pos]
  by_contra hn
  simp only [Bool.or_eq_true, decide_eq_true_eq, not_or, Bool.not_eq_true, Bool.not_eq_false'] at hn
  exact h hn.1

theorem beginGrant_open (h : Grants s dest k) : beginGrant dest k s =
    if s.crs.grants.any (fun g => decide (g.2.1 = k)) then modCrs (fun c => { c with grants := c.grants ++ [(dest, k, [])] }) s
    else if electPeers s = [] then grantBlock dest k s
    else
      eachN (electPeers s) (fun p s => sendFrame ftCtrSync p (toLE 2 (k / 2) ++ toLE 1 (k % 2) ++ toLE 8 (blockEnd s k)) s)
        (modCrs (fun c => { c with grants := c.grants ++ [(dest, k, electPeers s)] }) s) := by
  rw [beginGrant, if_neg]
  simp [h.bank, h.room, h.here]

theorem beginGrant_mirrors (h : Grants s dest k) (hfirst : s.crs.grants.any (fun g => decide (g.2.1 = k)) = false) (helect : electPeers s ≠ []) :
    Only [.crs, .out] s (beginGrant dest k s) ∧ (beginGrant dest k s).crs.grants = s.crs.grants ++ [(dest, k, electPeers s)] ∧
      (beginGrant dest k s).out.length = s.out.length + (electPeers s).length := by
  rw [beginGrant_open h, if_neg (by rw [hfirst]; decide), if_neg helect]
  generalize hx : modCrs (fun c => { c with grants := c.grants ++ [(dest, k, electPeers s)] }) s = x
  have hsx : Only [.crs] s x := hx ▸ Only.modCrs _ (by decide) (Only.refl _ _)
  obtain ⟨honly, c, hc⟩ := Sends.eachN (f := fun p s => sendFrame ftCtrSync p (toLE 2 (k / 2) ++ toLE 1 (k % 2) ++ toLE 8 (blockEnd s k)) s)
    (fun p s => sendFrame_sends _ _ _ _) (electPeers s) x
  refine ⟨(hsx.mono (by decide)).trans honly, by rw [hc, ← hx]; rfl, ?_⟩
  rw [eachN_out (fun p s => sendFrame_out _ _ _ _), ← hx]
  rfl

end

/-! ### Acknowledgements (R459) -/

section
variable {p k : Nat} {g : Nat × Nat × List Nat} {s : State}

theorem acknowledged_none (h : s.crs.grants.find? (fun g => decide (g.2.1 = k)) = none) : acknowledged p k s = s := by
  rw [acknowledged, h]

theorem acknowledged_other (h : s.crs.grants.find? (fun g => decide (g.2.1 = k)) = some g) (hp : p ∉ g.2.2) : acknowledged p k s = s := by
  rw [acknowledged, h]
  exact if_pos hp

theorem acknowledged_waits (h : s.crs.grants.find? (fun g => decide (g.2.1 = k)) = some g) (hp : p ∈ g.2.2) (hleft : g.2.2.filter (· ≠ p) ≠ []) :
    acknowledged p k s = modCrs (fun c => { c with grants := c.grants.map (fun q => if q = g then (g.1, k, g.2.2.filter (· ≠ p)) else q) }) s := by
  rw [acknowledged, h]
  exact (if_neg (not_not_intro hp)).trans (if_neg hleft)

theorem acknowledged_last (h : s.crs.grants.find? (fun g => decide (g.2.1 = k)) = some g) (hp : p ∈ g.2.2) (hleft : g.2.2.filter (· ≠ p) = []) :
    acknowledged p k s = finishGrant k s := by
  rw [acknowledged, h]
  exact (if_neg (not_not_intro hp)).trans (if_pos hleft)

theorem finishGrant_only (h : s.crs.grants.filter (fun g => decide (g.2.1 = k)) = [g]) (hhere : goneFrom s g.1 = false) :
    finishGrant k s = grantBlock g.1 k (modCrs (fun c => { c with grants := c.grants.filter (fun q => decide (q.2.1 ≠ k)) }) s) := by
  rw [finishGrant, h]
  exact if_neg (by rw [hhere]; decide)

end

/-! ### The bank that a master sends (R457) -/

section
variable {p x : Nat} {b m : Bytes} {s : State}

/-- A slot that takes a bank to be verified, as the one that is not active. -/
def bankTaken (bank : Bool) (fresh : Bank) (v : Slot) : Slot :=
  { (if v.cur = bank ∧ v.hasCur then { v with bankA := v.bankB, bankB := v.bankA, cur := !bank } else { v with cur := !bank } : Slot).setIdle fresh with verify := true }

theorem bankTaken_facts (bank : Bool) (fresh : Bank) (v : Slot) : (bankTaken bank fresh v).verify = true ∧
    (if bank then (bankTaken bank fresh v).bankB else (bankTaken bank fresh v).bankA) = fresh ∧ (bankTaken bank fresh v).idle = fresh := by
  cases bank <;> (rw [bankTaken]; split <;> exact ⟨rfl, rfl, rfl⟩)

/-- The bank that a SLOT_BANK brings, under the material that opens. -/
def sentBank (b m : Bytes) : Bank := { material := m, attr := blobAttr (b.drop 11), soft := BitVec.ofNat 64 (leAt b 3 8) }

theorem takeSlotBank_takes (hfrom : fromMaster s p = true) (hslot : courseSlot s (leAt b 0 2 % 2048) = true) (hfree : (s.slot (leAt b 0 2 % 2048)).verify = false)
    (hopen : blobOpen (wrapKey (s.peer p).gkey (s.peer p).epoch) (b.drop 11) = some m) :
    takeSlotBank p b s = prepareBank (leAt b 0 2 % 2048) (modSlot (leAt b 0 2 % 2048) (bankTaken (decide (byteAt b 2 % 2 = 1)) (sentBank b m)) s) := by
  rw [takeSlotBank, if_neg (by rw [hfrom, hslot, hfree]; decide)]
  dsimp only
  rw [hopen]
  rfl

theorem takeSlotBank_ignores (h : ¬ (fromMaster s p = true ∧ courseSlot s (leAt b 0 2 % 2048) = true ∧ (s.slot (leAt b 0 2 % 2048)).verify = false) ∨
    blobOpen (wrapKey (s.peer p).gkey (s.peer p).epoch) (b.drop 11) = none) : takeSlotBank p b s = s := by
  rw [takeSlotBank]
  dsimp only
  split
  · rfl
  · next hdue =>
    simp only [Bool.or_eq_true, Bool.not_eq_eq_eq_not, Bool.not_true, not_or, Bool.not_eq_false, Bool.not_eq_true] at hdue
    rcases h with h | h
    · exact absurd ⟨hdue.1.1, hdue.1.2, hdue.2⟩ h
    · rw [h]

theorem prepareBank_sch (x : Nat) (s : State) : (prepareBank x s).sch =
    (if aClass (s.slot x).idle.attr = 4 ∨ aClass (s.slot x).idle.attr = 5 then jobIssued 2 (.slot x) s.sch
      else if aClass (s.slot x).idle.attr = 0x17 then jobIssued 3 (.slot x) s.sch else s.sch) := by
  rw [prepareBank]
  generalize aClass (s.slot x).idle.attr = c
  split
  · rfl
  · rfl
  · rfl
  · next h4 h5 h17 => rw [if_neg (by rintro (h | h) <;> contradiction), if_neg h17]

end

/-! ### Work that is forwarded (R460 to R463) -/

section
variable {p : Fin 4} {id : Nat} {r : Req} {s : State}

/-- The state with the request forwarded, before its frames leave. -/
def forwarding (id : Nat) (p : Fin 4) (s : State) : State :=
  modPeer p.val (fun q => { q with owed := q.owed ++ [id] }) (modCrs (fun c => { c with
    lastFwd := p.val
    cnt := { c.cnt with fwdOut := c.cnt.fwdOut + 1, fwdOpen := c.cnt.fwdOpen + 1 } }) (nextFree (modReq id (fun r => { r with fwd := some p }) s)))

/-- What a request that is forwarded waits for. -/
def Forwards (s : State) (p : Fin 4) (r : Req) : Prop :=
  tilesOpen s = true ∧ crsIsMaster s = true ∧ eligible s r = true ∧ mustForward s r = true ∧ nextMember s = some p.val

theorem fxCourseForward_waits (hreq : s.req id = some r) (h : ¬ Forwards s p r) : fxCourseForward id p s = s := by
  rw [fxCourseForward, withReq_some hreq, whenS_false]
  by_contra hn
  simp only [Bool.not_eq_false, Bool.and_eq_true, decide_eq_true_eq] at hn
  exact h ⟨hn.1.1.1.1, hn.1.1.1.2, hn.1.1.2, hn.1.2, hn.2⟩

theorem fxCourseForward_sends (hreq : s.req id = some r) (h : Forwards s p r) : Sends (forwarding id p s) (fxCourseForward id p s) := by
  obtain ⟨hopen, hmaster, helig, hmust, hnext⟩ := h
  rw [fxCourseForward, withReq_some hreq, whenS_true (by rw [hopen, hmaster, helig, hmust, hnext]; simp)]
  exact (sendLong_sends _ _ _ _).trans (Sends.eachN (fun b s => Sends.foldl (fun s i => sendFrame_sends _ _ _ _) _ s) _ _)

theorem forwarding_req (hreq : s.req id = some r) : (forwarding id p s).req id = some { r with fwd := some p } :=
  modReq_req_same (fun r => { r with fwd := some p }) (fun _ => rfl) hreq

theorem forwarding_only : Only [.reqs, .crs, .free] s (forwarding id p s) :=
  Only.modPeer _ _ (by decide) (Only.modCrs _ (by decide) (Only.nextFree (by decide) (Only.modReq _ _ (by decide) (Only.refl _ _))))

theorem giveCredit_facts (p number : Nat) (s : State) : Only [.crs, .out] s (giveCredit p number s) ∧
    ((giveCredit p number s).peer p).owed = (s.peer p).owed.erase number ∧ (giveCredit p number s).out.length = s.out.length + 1 ∧
    (giveCredit p number s).crs.cnt = s.crs.cnt ∧ (giveCredit p number s).crs.queue = s.crs.queue := by
  have hsend := sendFrame_sends ftCredit p (toLE 4 number) s
  refine ⟨Only.giveCredit _ _ _ (by decide) (Only.refl _ _), ?_, ?_, ?_, ?_⟩
  · rw [giveCredit, modPeer_peer_same, hsend.peer]
  · rw [giveCredit, modPeer_out, sendFrame_out]
  · obtain ⟨-, c, hc⟩ := hsend
    exact (congrArg Course.cnt hc).trans rfl
  · obtain ⟨-, c, hc⟩ := hsend
    exact (congrArg Course.queue hc).trans rfl

theorem countDrop_facts (s : State) : Only [.crs] s (countDrop s) ∧ (countDrop s).reqs = s.reqs ∧
    (countDrop s).crs = { s.crs with cnt := { s.crs.cnt with fwdDrop := s.crs.cnt.fwdDrop + 1, fwdRun := s.crs.cnt.fwdRun - 1 } } :=
  ⟨Only.modCrs _ (by decide) (Only.refl _ _), rfl, rfl⟩

theorem retired_facts (id : Nat) (s : State) : Only [.reqs, .tiles, .ks] s (retireReq id (freeTiles id s)) :=
  Only.retireReq _ _ (by decide) (Only.freeTiles _ _ (by decide) (Only.refl _ _))

theorem dropForeign_facts (r : Req) (s : State) : Only [.reqs, .tiles, .ks, .crs] s (dropForeign r s) ∧ (dropForeign r s).req r.id = none ∧
    (dropForeign r s).crs = { s.crs with cnt := { s.crs.cnt with fwdDrop := s.crs.cnt.fwdDrop + 1, fwdRun := s.crs.cnt.fwdRun - 1 } } := by
  have hretired := retired_facts r.id s
  have hreq := retireReq_req r.id (freeTiles r.id s)
  rw [dropForeign]
  generalize retireReq r.id (freeTiles r.id s) = x at hretired hreq ⊢
  obtain ⟨hcount, hreqs, hcrs⟩ := countDrop_facts x
  have hsame : x.crs = s.crs := hretired.2 .crs (by decide)
  exact ⟨(hretired.mono (by decide)).trans (hcount.mono (by decide)), (req_of_reqs hreqs _).trans hreq, by rw [hcrs, hsame]⟩

end

/-! ### A position that is lost (R464) -/

section
variable {s : State}

theorem runHere_role (id : Nat) (s : State) : (runHere id s).crs.role = s.crs.role := by
  rw [runHere]
  generalize hx : modReq id (fun r => { r with recalled := true }) (unforward id s) = x
  have hsettle : Only [.notice, .tens, .sch, .reqs, .tiles, .streams, .ks, .fp, .jrn, .evPend, .pviol, .pvcnt, .out] x (settle id x) :=
    Only.settle _ _ (by decide) (Only.refl _ _)
  rw [show (settle id x).crs = x.crs from hsettle.2 .crs (by decide), ← hx]
  rfl

theorem recallAll_role (p : Nat) (s : State) : (recallAll p s).crs.role = s.crs.role := by
  have hfold : ((sentTo s p).foldl (fun s r => runHere r.id s) s).crs.role = s.crs.role :=
    List.foldlRecOn (motive := fun (x : State) => x.crs.role = s.crs.role) _ _ rfl fun x hx r _ => (runHere_role r.id x).trans hx
  exact hfold

theorem dropWaiting_role (p : Nat) (r : Req) (s : State) : (dropWaiting p r s).crs.role = s.crs.role := by
  rw [dropWaiting]
  split <;> rfl

theorem dropAll_role (p : Nat) (s : State) : (dropAll p s).crs.role = s.crs.role := by
  have hsent : ((sentFrom s p).foldl (fun s r => dropForeign r s) s).crs.role = s.crs.role :=
    List.foldlRecOn (motive := fun (x : State) => x.crs.role = s.crs.role) _ _ rfl fun x hx r _ => by
      rw [(dropForeign_facts r x).2.2]
      exact hx
  exact List.foldlRecOn (motive := fun (x : State) => x.crs.role = s.crs.role) _ _ hsent fun x hx r _ => (dropWaiting_role p r x).trans hx

theorem dropAll_owed (p : Nat) (s : State) : ((dropAll p s).peer p).owed = [] := by
  rw [dropAll, modPeer_peer_same]

/-- What the peers, the role, the master and the group key are is not changed where acknowledgements are missed, or blocks asked for again. -/
theorem Prs.keeps {s t : State} (h : Prs (s.crs.peers, s.crs.role, s.crs.master, s.crs.laneUp, s.crs.cnt, s.crs.forming, s.crs.newKey) t) :
    (∀ p, t.peer p = s.peer p) ∧ t.crs.role = s.crs.role ∧ t.crs.master = s.crs.master ∧ t.crs.newKey = s.crs.newKey := by
  simp only [Prs, Prod.mk.injEq] at h
  obtain ⟨hpeers, hrole, hmaster, -, -, -, hkey⟩ := h
  exact ⟨fun p => by rw [State.peer, State.peer, hpeers], hrole, hmaster, hkey⟩

theorem reAsk_keeps (s : State) : (∀ p, (reAsk s).peer p = s.peer p) ∧ (reAsk s).crs.role = s.crs.role ∧ (reAsk s).crs.master = s.crs.master ∧
    (reAsk s).crs.newKey = s.crs.newKey := Prs.keeps (Prs.reAsk s rfl)

/-- What a position that has fallen silent leaves. -/
theorem coursePeerSilent_facts {p : Fin 4} (hformed : (s.peer p.val).formed = true) (hheard : (s.peer p.val).silent = false) :
    (fxCoursePeerSilent p s).crs.role = s.crs.role ∧ ((fxCoursePeerSilent p s).peer p.val).silent = true ∧ ((fxCoursePeerSilent p s).peer p.val).owed = [] ∧
      bitOf (fxCoursePeerSilent p s).evPend gCrsSilent = true := by
  rw [fxCoursePeerSilent, whenS_true (by rw [hformed, hheard]; rfl)]
  generalize hx : modPeer p.val (fun q => { q with silent := true }) (dropAll p.val (recallAll p.val s)) = x
  have hrole : x.crs.role = s.crs.role := by
    rw [← hx]
    exact (dropAll_role _ _).trans (recallAll_role _ _)
  have hsilent : (x.peer p.val).silent = true ∧ (x.peer p.val).owed = [] := by
    rw [← hx, modPeer_peer_same]
    exact ⟨rfl, dropAll_owed _ _⟩
  dsimp only
  obtain ⟨hpeers, hkept, -⟩ := Prs.keeps (s := x) (Prs.raiseG gCrsSilent _ (Prs.crsRecord 0x42 [p.val,
    (sentTo s p.val).length + (sentFrom s p.val).length + (queuedFrom s p.val).length] _ (Prs.withoutAcks p.val s x rfl)))
  rw [hpeers]
  exact ⟨hkept.trans hrole, hsilent.1, hsilent.2, raiseG_bit _ _ (by decide)⟩

end

/-! ### TAKEOVER (R464) -/

section
variable {p : Fin 4} {s : State}

/-- The state in which this engine has become master by a takeover. -/
def tookOver (s : State) : State := modCrs (fun c => { c with newKey := (s.peer s.crs.master.toNat).gkey }) (becomeMaster (resumeCounters s))

theorem crsPos_congr {s t : State} (hstart : t.start = s.start) (hgen : t.gen = s.gen) : crsPos t = crsPos s := by
  simp only [crsPos, crsWord, State.eff, State.word, hstart, hgen]

theorem tookOver_crs (s : State) : (tookOver s).crs =
    { s.crs with role := BitVec.ofNat 2 roMaster, master := BitVec.ofNat 2 (crsPos s), heard := true, took := false, newKey := (s.peer s.crs.master.toNat).gkey } := by
  have honly : Only [.ks] s (resumeCounters s) := Only.resumeCounters _ (by decide) (Only.refl _ _)
  have hpos : crsPos (resumeCounters s) = crsPos s := crsPos_congr (honly.2 .start (by decide)) (honly.gen_eq (by decide) (by decide))
  have hcrs : (resumeCounters s).crs = s.crs := honly.2 .crs (by decide)
  rw [tookOver, becomeMaster, hpos, ← hcrs]
  rfl

theorem takeOver_facts (s : State) : (takeOver s).crs.role = BitVec.ofNat 2 roMaster ∧ (takeOver s).crs.master = BitVec.ofNat 2 (crsPos s) ∧
    (takeOver s).crs.newKey = (s.peer s.crs.master.toNat).gkey ∧ bitOf (takeOver s).evPend gCrsTakeover = true := by
  have htook := tookOver_crs s
  rw [takeOver]
  rw [show modCrs (fun c => { c with newKey := (s.peer s.crs.master.toNat).gkey }) (becomeMaster (resumeCounters s)) = tookOver s from rfl]
  generalize tookOver s = x at htook
  generalize (crsOthers x).filter (fun p => !(x.peer p).silent && decide ((x.peer p).gkey ≠ [])) = rest
  have hformed : ButPeers x (eachN rest (fun p s => modPeer p (fun q => { q with formed := true }) s) x) :=
    eachN_ind (P := fun y => ButPeers x y) rest _ x (.of_crs rfl) fun i y h => h.trans (modPeer_butPeers _ _ _)
  generalize eachN rest (fun p s => modPeer p (fun q => { q with formed := true }) s) x = y at hformed
  obtain ⟨ps, c, hc⟩ := hformed.trans (Sends.eachN (f := fun p s => sendFrame ftTakeover p [] s) (fun p s => sendFrame_sends _ _ _ _) rest y).butPeers
  generalize eachN rest (fun p s => sendFrame ftTakeover p [] s) y = z at hc
  generalize hw : raiseG gCrsTakeover (crsRecord 0x43 [crsPos s, (s.peer s.crs.master.toNat).epoch] z) = w
  have hrec : Only [.notice, .jrn, .evPend, .pviol, .pvcnt, .out] z w := hw ▸ Only.raiseG _ _ (by decide) (Only.crsRecord _ _ _ (by decide) (Only.refl _ _))
  have hbit : bitOf w.evPend gCrsTakeover = true := hw ▸ raiseG_bit _ _ (by decide)
  have hcrs : w.crs = z.crs := hrec.2 .crs (by decide)
  obtain ⟨-, hrole, hmaster, hkey⟩ := reAsk_keeps w
  rw [hrole, hmaster, hkey, hcrs, hc, htook]
  exact ⟨rfl, rfl, rfl, Pend.reAsk _ hbit⟩

/-- The state in which a further master is followed. -/
def follows (p : Nat) (s : State) : State := modPeer p (fun q => { q with formed := true, silent := false, role := roMaster }) s

theorem hearTakeover_eq (p : Nat) (s : State) : hearTakeover p s =
    if fromMaster (secondMaster p 2 s) p then reAsk (follows p (secondMaster p 2 s)) else secondMaster p 2 s := rfl

theorem hearTakeover_follows (hstand : crsRole s ≠ roStandalone) (hrole : crsRole s ≠ roMaster) (hkeeps : keepsMaster p.val 2 s = false) :
    (hearTakeover p.val s).crs.role = s.crs.role ∧ (hearTakeover p.val s).crs.master = BitVec.ofNat 2 p.val ∧
      ((hearTakeover p.val s).peer p.val).formed = true ∧ ((hearTakeover p.val s).peer p.val).silent = false := by
  have hmod := secondMaster_follows (p := p.val) (cause := 2) hrole hkeeps
  have hpos : (BitVec.ofNat 2 p.val).toNat = p.val := by
    rw [BitVec.toNat_ofNat]
    exact Nat.mod_eq_of_lt p.isLt
  have hfrom : fromMaster (secondMaster p.val 2 s) p.val = true := by
    rw [hmod, fromMaster]
    have hne : crsIsMaster (modCrs (fun c => { c with master := BitVec.ofNat 2 p.val, heard := true, took := decide (2 = 2) }) s) = false := decide_eq_false hrole
    rw [hne]
    exact (Bool.and_eq_true _ _).mpr ⟨(Bool.and_eq_true _ _).mpr ⟨rfl, decide_eq_true hstand⟩, decide_eq_true hpos⟩
  rw [hearTakeover_eq, if_pos hfrom, hmod]
  generalize hx : modCrs (fun c => { c with master := BitVec.ofNat 2 p.val, heard := true, took := decide (2 = 2) }) s = x
  obtain ⟨hpeers, hkept, hmaster, -⟩ := reAsk_keeps (follows p.val x)
  rw [hkept, hmaster, hpeers, follows, modPeer_peer_same, ← hx]
  exact ⟨rfl, rfl, rfl, rfl⟩

theorem hearTakeover_demotes (hrole : crsRole s = roMaster) (hp : p.val < crsPos s) :
    (hearTakeover p.val s).crs.role = BitVec.ofNat 2 roElect ∧ (hearTakeover p.val s).crs.master = BitVec.ofNat 2 p.val ∧
      bitOf (hearTakeover p.val s).evPend gCrsState = true := by
  obtain ⟨helect, hmaster, -, hbit⟩ := demote_facts p.val 2 s
  rw [hearTakeover_eq, secondMaster_demotes hrole hp]
  generalize demote p.val 2 s = x at helect hmaster hbit
  split
  · obtain ⟨-, hkept, hkeptMaster, -⟩ := reAsk_keeps (follows p.val x)
    rw [hkept, hkeptMaster]
    exact ⟨helect, hmaster, Pend.reAsk _ hbit⟩
  · exact ⟨helect, hmaster, hbit⟩

theorem hearTakeover_stays (h : (crsRole s = roMaster ∧ crsPos s ≤ p.val) ∨ (crsRole s ≠ roMaster ∧ keepsMaster p.val 2 s = true)) :
    hearTakeover p.val s = s := by
  have hnot : fromMaster s p.val = false := by
    rw [fromMaster]
    rcases h with ⟨hrole, -⟩ | ⟨-, hkeeps⟩
    · rw [crsIsMaster_iff.mpr hrole]
      rfl
    · have hlow : s.crs.master.toNat < p.val := by
        rw [keepsMaster] at hkeeps
        simp only [Bool.and_eq_true, decide_eq_true_eq] at hkeeps
        exact hkeeps.1.1.2
      rw [decide_eq_false (Nat.ne_of_lt hlow), Bool.and_false]
  rw [hearTakeover_eq, secondMaster_stays h, if_neg (by rw [hnot]; decide)]

end

end Sys2Proof.Machine

namespace Sys2Proof.CourseShares
open Sys2Proof.Machine

/-- A frame that only a master sends tells of a second master. -/
theorem hears (p : Nat) (s : State) :
    let u := hearMaster p s
    Only ([.sch, .tiles, .ces, .es, .rbgs, .crs, .free] ++ recordParts) s u ∧
    (p ∉ crsOthers s ∨ (crsRole s = roMaster ∧ crsPos s ≤ p) ∨ (crsRole s ≠ roMaster ∧ s.crs.heard = true ∧ s.crs.master.toNat = p) ∨
      (crsRole s ≠ roMaster ∧ keepsMaster p 1 s = true) → u = s) ∧
    (p ∈ crsOthers s → crsRole s = roMaster → p < crsPos s → u.crs.role = BitVec.ofNat 2 roElect ∧ u.crs.master = BitVec.ofNat 2 p ∧
      u.crs.grants = [] ∧ bitOf u.evPend gCrsState = true) ∧
    (p ∈ crsOthers s → crsRole s ≠ roMaster → ¬(s.crs.heard = true ∧ s.crs.master.toNat = p) → keepsMaster p 1 s = false →
      Only [.crs] s u ∧ u.crs = { s.crs with master := BitVec.ofNat 2 p, heard := true, took := false }) := by
  refine ⟨Only.hearMaster _ _ (by decide) (Only.refl _ _), fun h => ?_, fun hp hrole hlow => ?_, fun hp hrole hnew hkeeps => ?_⟩
  · by_cases hsame : (crsRole s ≠ roMaster ∧ s.crs.heard = true ∧ s.crs.master.toNat = p) ∨ p ∉ crsOthers s
    · exact if_pos hsame
    · rw [not_or, not_not] at hsame
      rw [hearMaster_hears hsame.2 hsame.1]
      rcases h with h | h | h | h
      · exact absurd hsame.2 h
      · exact secondMaster_stays (.inl h)
      · exact absurd h hsame.1
      · exact secondMaster_stays (.inr h)
  · rw [hearMaster_hears hp fun h => h.1 hrole, secondMaster_demotes hrole hlow]
    exact demote_facts p 1 s
  · rw [hearMaster_hears hp fun h => hnew h.2, secondMaster_follows hrole hkeeps]
    exact ⟨Only.modCrs _ (by decide) (Only.refl _ _), rfl⟩

/-- A master hears a BLOCK_REQ. -/
theorem blockRequests (p : Fin 4) (b : Bytes) (s : State) :
    let k := bankOfPayload b
    let room := courseBank s k = true ∧ blockEnd s k ≠ bankNext s k
    let heard := asMaster s p.val = true ∧ (s.peer p.val).silent = false
    (¬heard ∨ ¬room → exec (.blockReq p b) s = .next s) ∧
    (heard → room → p.val ≠ crsPos s → s.crs.grants.any (fun g => decide (g.2.1 = k)) = false → electPeers s = [] →
      ∃ t, exec (.blockReq p b) s = .next t ∧ Only [.notice, .tens, .ks, .jrn, .evPend, .pviol, .pvcnt, .crs, .out] s t ∧
        bankNext t k = blockEnd s k ∧ t.jrn.seq = s.jrn.seq + grantRecords s k ∧ t.crs.blocks = s.crs.blocks) ∧
    (heard → room → p.val ≠ crsPos s → s.crs.grants.any (fun g => decide (g.2.1 = k)) = false → electPeers s ≠ [] →
      ∃ t, exec (.blockReq p b) s = .next t ∧ Only [.crs, .out] s t ∧ t.crs.grants = s.crs.grants ++ [(p.val, k, electPeers s)] ∧
        t.out.length = s.out.length + (electPeers s).length) ∧
    (heard → room → p.val ≠ crsPos s → s.crs.grants.any (fun g => decide (g.2.1 = k)) = true →
      exec (.blockReq p b) s = .next (modCrs (fun c => { c with grants := c.grants ++ [(p.val, k, [])] }) s)) := by
  intro k room heard
  have hexec (h : heard) : exec (.blockReq p b) s = .next (beginGrant p.val k s) :=
    congrArg Host.Outcome.next (if_pos (by rw [h.1, h.2]; rfl))
  have hgrants (h : heard) (hroom : room) : Grants s p.val k := by
    have hformed : (s.peer p.val).formed = true := ((Bool.and_eq_true _ _).mp h.1).2
    refine ⟨hroom.1, hroom.2, ?_⟩
    rw [goneFrom, hformed, h.2]
    exact Bool.and_false _
  refine ⟨fun h => ?_, fun h hroom hp hfirst hnone => ?_, fun h hroom hp hfirst hsome => ?_, fun h hroom hp hbehind => ?_⟩
  · by_cases hheard : heard
    · rw [hexec hheard, beginGrant_none (h.resolve_left (not_not_intro hheard))]
    · refine congrArg Host.Outcome.next (if_neg fun hn => hheard ?_)
      simpa [heard] using hn
  · obtain ⟨honly, hnext, hseq, -, hblocks⟩ := grantBlock_granted p.val k s
    refine ⟨_, hexec h, ?_⟩
    rw [beginGrant_open (hgrants h hroom), if_neg (by rw [hfirst]; decide), if_pos hnone]
    exact ⟨honly, hnext, hseq, hblocks hp⟩
  · exact ⟨_, hexec h, beginGrant_mirrors (hgrants h hroom) hfirst hsome⟩
  · rw [hexec h, beginGrant_open (hgrants h hroom), if_pos hbehind]

/-- A master hears a CTR_ACK. -/
theorem acknowledges (p : Fin 4) (b : Bytes) (s : State) :
    let k := bankOfPayload b
    let first := s.crs.grants.find? (fun g => decide (g.2.1 = k))
    (asMaster s p.val = false ∨ first = none → exec (.ctrAck p b) s = .next s) ∧
    (∀ g, asMaster s p.val = true → first = some g → p.val ∉ g.2.2 → exec (.ctrAck p b) s = .next s) ∧
    (∀ g, asMaster s p.val = true → first = some g → p.val ∈ g.2.2 → (∃ q, q ∈ g.2.2 ∧ q ≠ p.val) → ∃ t, exec (.ctrAck p b) s = .next t ∧ Only [.crs] s t ∧
      (g.1, k, g.2.2.filter (· ≠ p.val)) ∈ t.crs.grants ∧ t.crs.blocks = s.crs.blocks) ∧
    (∀ g, asMaster s p.val = true → first = some g → g.2.2 = [p.val] → s.crs.grants.filter (fun g => decide (g.2.1 = k)) = [g] → goneFrom s g.1 = false →
      ∃ t, exec (.ctrAck p b) s = .next t ∧ Only [.notice, .tens, .ks, .jrn, .evPend, .pviol, .pvcnt, .crs, .out] s t ∧ bankNext t k = blockEnd s k ∧
        t.jrn.seq = s.jrn.seq + grantRecords s k ∧ t.crs.grants = s.crs.grants.filter (fun q => decide (q.2.1 ≠ k))) := by
  intro k first
  have hexec (h : asMaster s p.val = true) : exec (.ctrAck p b) s = .next (acknowledged p.val k s) := congrArg Host.Outcome.next (if_pos h)
  refine ⟨fun h => ?_, fun g h hg hp => ?_, fun g h hg hp hmore => ?_, fun g h hg hlast honly hhere => ?_⟩
  · by_cases hmaster : asMaster s p.val = true
    · rw [hexec hmaster, acknowledged_none (h.resolve_left (by rw [hmaster]; decide))]
    · exact congrArg Host.Outcome.next (if_neg hmaster)
  · rw [hexec h, acknowledged_other hg hp]
  · obtain ⟨q, hq, hqp⟩ := hmore
    have hleft : g.2.2.filter (· ≠ p.val) ≠ [] := List.ne_nil_of_mem (List.mem_filter.mpr ⟨hq, decide_eq_true hqp⟩)
    rw [hexec h, acknowledged_waits hg hp hleft]
    refine ⟨_, rfl, Only.modCrs _ (by decide) (Only.refl _ _), List.mem_map.mpr ⟨g, List.mem_of_find?_eq_some hg, if_pos rfl⟩, rfl⟩
  · have hleft : g.2.2.filter (· ≠ p.val) = [] := by
      rw [hlast]
      simp
    rw [hexec h, acknowledged_last hg (by rw [hlast]; exact List.mem_singleton_self _) hleft, finishGrant_only honly hhere]
    generalize hx : modCrs (fun c => { c with grants := c.grants.filter (fun q => decide (q.2.1 ≠ k)) }) s = x
    have hsx : Only [.crs] s x := hx ▸ Only.modCrs _ (by decide) (Only.refl _ _)
    obtain ⟨hgrant, hnext, hseq, hgrants, -⟩ := grantBlock_granted g.1 k x
    have hend : blockEnd x k = blockEnd s k := by rw [← hx]; rfl
    have hrec : grantRecords x k = grantRecords s k := by rw [← hx]; rfl
    refine ⟨_, rfl, (hsx.mono (by decide)).trans hgrant, hnext.trans hend, ?_, hgrants.trans (by rw [← hx]; rfl)⟩
    rw [hseq, hrec, ← hx]
    rfl

/-- SLOT_BANK on a member. -/
theorem slotBanks (p : Fin 4) (b : Bytes) (s : State) :
    let x := leAt b 0 2 % 2048
    let bank := decide (byteAt b 2 % 2 = 1)
    let u := hearMaster p.val s
    let wk := wrapKey (u.peer p.val).gkey (u.peer p.val).epoch
    let due := fromMaster u p.val = true ∧ courseSlot u x = true ∧ (u.slot x).verify = false
    let prep := fun (k : Nat) => { u.sch with nextId := u.sch.nextId + 1, jobs := u.sch.jobs ++ [{ id := u.sch.nextId, kind := k, work := .slot x }] }
    (u.sup.active = true → exec (.slotBank p b) s = .next (modKs (fun k => { k with deferred := k.deferred ++ [.blob p.val b] }) u)) ∧
    (u.sup.active = false → (¬due ∨ blobOpen wk (b.drop 11) = none) → exec (.slotBank p b) s = .next u) ∧
    (∀ m, u.sup.active = false → due → blobOpen wk (b.drop 11) = some m → ∃ t, exec (.slotBank p b) s = .next t ∧ Only [.sch, .ks] u t ∧ (t.slot x).verify = true ∧
      (if bank then (t.slot x).bankB else (t.slot x).bankA) = { material := m, attr := blobAttr (b.drop 11), soft := BitVec.ofNat 64 (leAt b 3 8) } ∧
      (∀ y, y ≠ x → t.slot y = u.slot y) ∧
      t.sch = (if aClass (blobAttr (b.drop 11)) = 4 ∨ aClass (blobAttr (b.drop 11)) = 5 then prep 2 else if aClass (blobAttr (b.drop 11)) = 0x17 then prep 3 else u.sch)) := by
  intro x bank u wk due prep
  have hexec : exec (.slotBank p b) s = .next (orDefer (.blob p.val b) (takeSlotBank p.val b) u) := rfl
  refine ⟨fun hsup => ?_, fun hsup h => ?_, fun m hsup hdue hm => ?_⟩
  · rw [hexec, orDefer_defers hsup]
  · rw [hexec, orDefer_runs hsup, takeSlotBank_ignores h]
  · obtain ⟨hfrom, hslot, hfree⟩ := hdue
    rw [hexec, orDefer_runs hsup, takeSlotBank_takes hfrom hslot hfree hm]
    generalize hv : modSlot (leAt b 0 2 % 2048) (bankTaken (decide (byteAt b 2 % 2 = 1)) (sentBank b m)) u = v
    have hsame : v.slot x = bankTaken bank (sentBank b m) (u.slot x) := hv ▸ modSlot_slot_same _ _ _
    have hne (y : Nat) (hy : y ≠ x) : v.slot y = u.slot y := hv ▸ modSlot_slot_ne _ _ hy
    have huv : Only [.ks] u v := hv ▸ Only.modSlot _ _ (by decide) (Only.refl _ _)
    obtain ⟨hverify, hbank, hidle⟩ := bankTaken_facts bank (sentBank b m) (u.slot x)
    have hprep : Only [.sch] v (prepareBank x v) := Only.prepareBank _ _ (by decide) (Only.refl _ _)
    have hks : (prepareBank x v).ks = v.ks := hprep.2 .ks (by decide)
    have hsch := prepareBank_sch x v
    rw [hsame, hidle, show v.sch = u.sch from huv.2 .sch (by decide)] at hsch
    refine ⟨_, rfl, (huv.mono (by decide)).trans (hprep.mono (by decide)), ?_, ?_, fun y hy => ?_, hsch⟩
    · rw [slot_of_ks hks, hsame, hverify]
    · rw [slot_of_ks hks, hsame]
      exact hbank
    · rw [slot_of_ks hks, hne y hy]

/-- Work is forwarded, taken and returned. -/
theorem forwards (id : Nat) (p : Fin 4) (r : Req) (s : State) (hreq : s.req id = some r) :
    let due := tilesOpen s = true ∧ crsIsMaster s = true ∧ eligible s r = true ∧ mustForward s r = true ∧ nextMember s = some p.val
    (¬due → exec (.courseForward id p) s = .next s) ∧
    (due → ∃ t, exec (.courseForward id p) s = .next t ∧ Only [.reqs, .crs, .out, .free] s t ∧ t.req id = some { r with fwd := some p } ∧
      t.crs.cnt = { s.crs.cnt with fwdOut := s.crs.cnt.fwdOut + 1, fwdOpen := s.crs.cnt.fwdOpen + 1 } ∧ t.crs.lastFwd = p.val ∧
      (t.peer p.val).owed = (s.peer p.val).owed ++ [id]) := by
  refine ⟨fun h => congrArg Host.Outcome.next (fxCourseForward_waits hreq h), fun h => ?_⟩
  have hsends := fxCourseForward_sends hreq h
  have hfwd := forwarding_req (p := p) hreq
  have honly : Only [.reqs, .crs, .free] s (forwarding id p s) := forwarding_only
  have hcnt : (forwarding id p s).crs.cnt = { s.crs.cnt with fwdOut := s.crs.cnt.fwdOut + 1, fwdOpen := s.crs.cnt.fwdOpen + 1 } := rfl
  have hlast : (forwarding id p s).crs.lastFwd = p.val := rfl
  have howed : ((forwarding id p s).peer p.val).owed = (s.peer p.val).owed ++ [id] := by
    rw [forwarding, modPeer_peer_same]
    rfl
  refine ⟨_, rfl, ?_⟩
  generalize forwarding id p s = x at hsends hfwd honly hcnt hlast howed
  have hpeer := hsends.peer p.val
  obtain ⟨hsent, c, hc⟩ := hsends
  exact ⟨(honly.mono (by decide)).trans (hsent.mono (by decide)), (req_of_reqs (hsent.2 .reqs (by decide)) _).trans hfwd,
    by rw [hc]; exact hcnt, by rw [hc]; exact hlast, by rw [hpeer]; exact howed⟩

theorem results (p : Fin 4) (b : Bytes) (r : Req) (s : State) (hreq : s.req (leAt b 0 4) = some r) :
    (r.fwd ≠ some p → exec (.fwdResult p b) s = .next s) ∧
    (r.fwd = some p → 1 < byteAt b 4 → ∃ t, exec (.fwdResult p b) s = .next t ∧
      t.crs.cnt = { s.crs.cnt with fwdBack := s.crs.cnt.fwdBack + 1, fwdOpen := s.crs.cnt.fwdOpen - 1 } ∧
      EndedWith t (leAt b 0 4) r ⟨BitVec.ofNat 8 (byteAt b 4), BitVec.ofNat 8 (byteAt b 5), byteAt b 6⟩) := by
  refine ⟨fun h => ?_, fun h hfail => ?_⟩
  · refine congrArg Host.Outcome.next ?_
    rw [fxFwdResult, hearFwdResult]
    dsimp only
    rw [withReq_some hreq, whenS_false (decide_eq_false h)]
  · generalize hx : modCrs (fun c => { c with cnt := { c.cnt with fwdBack := c.cnt.fwdBack + 1, fwdOpen := c.cnt.fwdOpen - 1 } })
      (modReq (leAt b 0 4) (fun r => { r with
        fwd := none
        zeroized := r.zeroized || (byteAt b 8).testBit 0
        voted := r.voted || (byteAt b 8).testBit 1 }) s) = x
    have hxreq : x.req (leAt b 0 4) = some { r with fwd := none, zeroized := r.zeroized || (byteAt b 8).testBit 0, voted := r.voted || (byteAt b 8).testBit 1 } :=
      hx ▸ modReq_req_same (fun r => { r with fwd := none, zeroized := r.zeroized || (byteAt b 8).testBit 0, voted := r.voted || (byteAt b 8).testBit 1 })
        (fun _ => rfl) hreq
    have hxcnt : x.crs.cnt = { s.crs.cnt with fwdBack := s.crs.cnt.fwdBack + 1, fwdOpen := s.crs.cnt.fwdOpen - 1 } := by rw [← hx]; rfl
    generalize hy : modOp (leAt b 0 4) (byteAt b 6) (fun o => { o with
      lastTile := tileOfByte (byteAt b 7)
      consumed := leAt b 9 3
      produced := some (leAt b 12 3)
      trunc := o.trunc || decide (byteAt b 4 = 1) }) x = y
    have hyreq := modOp_req_same (s := x) (byteAt b 6) (fun o => { o with
      lastTile := tileOfByte (byteAt b 7)
      consumed := leAt b 9 3
      produced := some (leAt b 12 3)
      trunc := o.trunc || decide (byteAt b 4 = 1) }) hxreq
    rw [hy] at hyreq
    have hycrs : y.crs = x.crs := by rw [← hy]; rfl
    have hexec : exec (.fwdResult p b) s = .next (endChain (leAt b 0 4) ⟨BitVec.ofNat 8 (byteAt b 4), BitVec.ofNat 8 (byteAt b 5), byteAt b 6⟩ y) := by
      refine congrArg Host.Outcome.next ?_
      rw [fxFwdResult, hearFwdResult]
      dsimp only
      rw [withReq_some hreq, whenS_true (decide_eq_true h), if_neg (by omega), hx, hy]
    have hend : Only [.tens, .sch, .reqs, .tiles, .streams, .ks, .fp, .evPend, .pviol, .pvcnt, .out] y
        (endChain (leAt b 0 4) ⟨BitVec.ofNat 8 (byteAt b 4), BitVec.ofNat 8 (byteAt b 5), byteAt b 6⟩ y) := Only.endChain _ _ _ (by decide) (Only.refl _ _)
    refine ⟨_, hexec, ?_, endStarts _ hyreq rfl rfl⟩
    rw [show (endChain (leAt b 0 4) ⟨BitVec.ofNat 8 (byteAt b 4), BitVec.ofNat 8 (byteAt b 5), byteAt b 6⟩ y).crs = y.crs from hend.2 .crs (by decide), hycrs, hxcnt]

theorem recalls (p : Fin 4) (b : Bytes) (s : State) :
    let n := leAt b 0 4
    let waits := s.crs.queue.any (fun r => r.isForeign p.val n) = true
    let gone (t : State) : Prop := t.crs.cnt = { s.crs.cnt with fwdDrop := s.crs.cnt.fwdDrop + 1, fwdRun := s.crs.cnt.fwdRun - 1 } ∧
      (t.peer p.val).owed = (s.peer p.val).owed.erase n ∧ t.out.length = s.out.length + 1
    (foreignOf s p.val n = none → ¬waits → exec (.fwdCancel p b) s = .next s) ∧
    (foreignOf s p.val n = none → waits → ∃ t, exec (.fwdCancel p b) s = .next t ∧ Only [.crs, .out] s t ∧ gone t ∧
      t.crs.queue = s.crs.queue.filter (fun r => !r.isForeign p.val n)) ∧
    (∀ r, foreignOf s p.val n = some r → ∃ t, exec (.fwdCancel p b) s = .next t ∧ Only [.reqs, .tiles, .ks, .crs, .out] s t ∧ gone t ∧ t.req r.id = none ∧
      t.crs.queue = s.crs.queue) := by
  intro n waits gone
  have hexec {f : State} (h : hearFwdCancel p.val b s = f) : exec (.fwdCancel p b) s = .next f := congrArg Host.Outcome.next h
  refine ⟨fun hnone hwaits => hexec ?_, fun hnone hwaits => ?_, fun r hsome => ?_⟩
  · rw [hearFwdCancel, hnone]
    exact if_neg hwaits
  · have hcancel : hearFwdCancel p.val b s = giveCredit p.val n (dropQueued p.val n s) := by
      rw [hearFwdCancel, hnone]
      exact if_pos hwaits
    obtain ⟨honly, howed, hout, hcnt, hqueue⟩ := giveCredit_facts p.val n (dropQueued p.val n s)
    have hdrop : Only [.crs] s (dropQueued p.val n s) := Only.modCrs _ (by decide) (Only.modCrs _ (by decide) (Only.refl _ _))
    exact ⟨_, hexec hcancel, (hdrop.mono (by decide)).trans honly, ⟨hcnt.trans rfl, howed, hout⟩, hqueue.trans rfl⟩
  · have hcancel : hearFwdCancel p.val b s = giveCredit p.val n (dropForeign r s) := by
      rw [hearFwdCancel, hsome]
    obtain ⟨hdrop, hgone, hcrs⟩ := dropForeign_facts r s
    rw [hexec hcancel]
    generalize dropForeign r s = x at hdrop hgone hcrs
    obtain ⟨honly, howed, hout, hcnt, hqueue⟩ := giveCredit_facts p.val n x
    refine ⟨_, rfl, (hdrop.mono (by decide)).trans (honly.mono (by decide)), ⟨hcnt.trans (by rw [hcrs]), howed.trans ?_, hout.trans ?_⟩, ?_, hqueue.trans (by rw [hcrs])⟩
    · rw [State.peer, hcrs]
      rfl
    · rw [show x.out = s.out from hdrop.2 .out (by decide)]
    · exact (req_of_reqs (honly.2 .reqs (by decide)) _).trans hgone

/-- TAKEOVER, by this engine or heard from another. -/
theorem takesOver (p : Fin 4) (b : Bytes) (s : State) :
    let m := s.peer s.crs.master.toNat
    let own := crsRole s = roElect ∧ m.formed = true ∧ m.silent = true
    let other := crsRole s ≠ roStandalone ∧ p.val ∈ crsOthers s ∧ (s.peer p.val).gkey ≠ []
    (p.val = crsPos s → ¬own → exec (.takeover p b) s = .next s) ∧
    (p.val = crsPos s → own → ∃ t, exec (.takeover p b) s = .next t ∧ Only [.notice, .tens, .ks, .jrn, .evPend, .pviol, .pvcnt, .crs, .out] s t ∧
      t.crs.role = BitVec.ofNat 2 roMaster ∧ t.crs.master = BitVec.ofNat 2 (crsPos s) ∧ t.crs.newKey = m.gkey ∧ bitOf t.evPend gCrsTakeover = true) ∧
    (p.val ≠ crsPos s → ¬other → exec (.takeover p b) s = .next s) ∧
    (p.val ≠ crsPos s → other → crsRole s ≠ roMaster → keepsMaster p.val 2 s = false → ∃ t, exec (.takeover p b) s = .next t ∧
      t.crs.role = s.crs.role ∧ t.crs.master = BitVec.ofNat 2 p.val ∧ (t.peer p.val).formed = true ∧ (t.peer p.val).silent = false) ∧
    (p.val ≠ crsPos s → other → crsRole s = roMaster → p.val < crsPos s → ∃ t, exec (.takeover p b) s = .next t ∧
      t.crs.role = BitVec.ofNat 2 roElect ∧ t.crs.master = BitVec.ofNat 2 p.val ∧ bitOf t.evPend gCrsState = true) ∧
    (p.val ≠ crsPos s → other → (crsRole s = roMaster ∧ crsPos s < p.val) ∨ (crsRole s ≠ roMaster ∧ keepsMaster p.val 2 s = true) →
      exec (.takeover p b) s = .next s) := by
  intro m own other
  have hheard (hp : p.val ≠ crsPos s) (h : other) : exec (.takeover p b) s = .next (hearTakeover p.val s) := by
    refine congrArg Host.Outcome.next ((if_neg hp).trans (whenS_true ?_))
    simp [h.1, h.2.1, h.2.2]
  refine ⟨fun hp h => ?_, fun hp h => ?_, fun hp h => ?_, fun hp h hrole hkeeps => ⟨_, hheard hp h, hearTakeover_follows h.1 hrole hkeeps⟩,
    fun hp h hrole hlow => ⟨_, hheard hp h, hearTakeover_demotes hrole hlow⟩, fun hp h hstays => ?_⟩
  · refine congrArg Host.Outcome.next ((if_pos hp).trans (whenS_false ?_))
    by_contra hn
    simp only [Bool.not_eq_false, Bool.and_eq_true, decide_eq_true_eq] at hn
    exact h ⟨hn.1.1, hn.1.2, hn.2⟩
  · obtain ⟨hrole, hformed, hsilent⟩ := h
    refine ⟨_, congrArg Host.Outcome.next ((if_pos hp).trans (whenS_true ?_)), Only.takeOver _ (by decide) (Only.refl _ _), takeOver_facts s⟩
    rw [decide_eq_true hrole, show (s.peer s.crs.master.toNat).formed = true from hformed, show (s.peer s.crs.master.toNat).silent = true from hsilent]
    rfl
  · refine congrArg Host.Outcome.next ((if_neg hp).trans (whenS_false ?_))
    by_contra hn
    simp only [Bool.not_eq_false, Bool.and_eq_true, decide_eq_true_eq] at hn
    exact h ⟨hn.1.1, hn.1.2, hn.2⟩
  · rw [hheard hp h, hearTakeover_stays (hstays.imp (fun h => ⟨h.1, le_of_lt h.2⟩) id)]

/-- Settles O59, by what a grant leaves of the bank and of the records, by the frames that change nothing but their counts, and by who is followed when a
further master is heard. -/
theorem courseShares : Obligations.CourseShares := by
  refine ⟨hears, fun p b s => ?_, blockRequests, fun p b s => ?_, acknowledges, slotBanks, forwards, fun p b s => ?_, results, recalls, fun p b s => ?_,
    fun p s => ?_, takesOver, fun who s htakes => ?_⟩
  · intro u
    refine ⟨fun h => congrArg Host.Outcome.next (if_neg (by rw [h]; decide)), fun h => ?_⟩
    obtain ⟨honly, hblocks, hothers, hasked, -⟩ := storeBlock_facts (bankOfPayload b) (leAt b 3 8) (leAt b 11 8) u
    exact ⟨_, congrArg Host.Outcome.next (if_pos h), honly, hblocks, hothers, hasked⟩
  · intro u mine
    refine ⟨fun h => congrArg Host.Outcome.next (if_neg fun hn => h ?_), fun h => ?_⟩
    · simpa [mine] using hn
    · have hmine : (fromMaster u p.val && decide (crsRole u = roElect)) = true := by rw [h.1, decide_eq_true h.2]; rfl
      generalize hx : modCrs (fun c => { c with mirror := c.mirror.put 0 (bankOfPayload b) (leAt b 3 8) }) u = x
      have hux : Only [.crs] u x := hx ▸ Only.modCrs _ (by decide) (Only.refl _ _)
      obtain ⟨hsend, c, hc⟩ := sendFrame_sends ftCtrAck p.val b x
      have hexec : exec (.ctrSync p b) s = .next (sendFrame ftCtrAck p.val b x) := by
        rw [← hx]
        exact congrArg Host.Outcome.next (if_pos hmine)
      refine ⟨_, hexec, (hux.mono (by decide)).trans hsend, by rw [hc, ← hx]; rfl, ?_, by rw [hc, ← hx]; rfl⟩
      rw [sendFrame_out, ← hx]
      rfl
  · intro u due
    refine ⟨fun h => congrArg Host.Outcome.next (if_neg fun hn => h ?_), fun h => ?_⟩
    · simpa [due] using hn
    · have hdue : (fromMaster u p.val && decide ((u.peer p.val).credits < crsCredits u)) = true := by rw [h.1, decide_eq_true h.2]; rfl
      refine ⟨_, congrArg Host.Outcome.next (if_pos hdue), Only.modPeer _ _ (by decide) (Only.modCrs _ (by decide) (Only.refl _ _)), rfl, rfl, ?_⟩
      rw [modPeer_peer_same]
      rfl
  · refine ⟨fun h => congrArg Host.Outcome.next (if_neg (by rw [h]; decide)), fun h => ?_⟩
    exact ⟨_, congrArg Host.Outcome.next (if_pos h), Only.modPeer _ _ (by decide) (Only.refl _ _), modPeer_peer_same _ _ _, fun q hq => modPeer_peer_ne _ _ hq⟩
  · refine ⟨fun h => congrArg Host.Outcome.next ?_, fun hformed hsilent => ⟨_, rfl, coursePeerSilent_facts hformed hsilent⟩⟩
    rw [fxCoursePeerSilent]
    refine whenS_false ?_
    rcases h with h | h
    · rw [h, Bool.false_and]
    · rw [h, Bool.not_true, Bool.and_false]
  · exact ⟨_, congrArg Host.Outcome.next (gateW_takes htakes), Only.modCrs _ (by decide) (Only.refl _ _), rfl⟩

end Sys2Proof.CourseShares
end

section
/-!
Forming a course (R448 to R454, R464, R465, R488): lanes, HELLO, the steps of a pairing and their work, roles, and the frames received, with the
statement O58.
-/

namespace Sys2Proof.Machine

/-! ### What stays of the course -/

/-- The role, the master, the lanes, the epoch, and what position p sent, are as they were. -/
structure CourseAs (p : Nat) (s t : State) : Prop where
  role : t.crs.role = s.crs.role
  master : t.crs.master = s.crs.master
  heard : t.crs.heard = s.crs.heard
  laneUp : t.crs.laneUp = s.crs.laneUp
  forming : t.crs.forming = s.crs.forming
  nonce : (t.peer p).nonce = (s.peer p).nonce
  sent : (t.peer p).role = (s.peer p).role

theorem Crl.courseAs {p : Nat} {s t : State}
    (h : Crl p (s.crs.role, s.crs.master, s.crs.heard, s.crs.laneUp, s.crs.forming, (s.peer p).nonce, (s.peer p).role) t) : CourseAs p s t := by
  simp only [Crl, Prod.mk.injEq] at h
  obtain ⟨h1, h2, h3, h4, h5, h6, h7⟩ := h
  exact ⟨h1, h2, h3, h4, h5, h6, h7⟩

theorem CourseAs.crl {p : Nat} {s t : State} (h : CourseAs p s t) :
    Crl p (s.crs.role, s.crs.master, s.crs.heard, s.crs.laneUp, s.crs.forming, (s.peer p).nonce, (s.peer p).role) t := by
  simp only [Crl, h.role, h.master, h.heard, h.laneUp, h.forming, h.nonce, h.sent]

theorem CourseAs.refl (p : Nat) (s : State) : CourseAs p s s := ⟨rfl, rfl, rfl, rfl, rfl, rfl, rfl⟩

theorem CourseAs.trans {p : Nat} {s t u : State} (h : CourseAs p s t) (g : CourseAs p t u) : CourseAs p s u :=
  ⟨g.role.trans h.role, g.master.trans h.master, g.heard.trans h.heard, g.laneUp.trans h.laneUp, g.forming.trans h.forming, g.nonce.trans h.nonce, g.sent.trans h.sent⟩

theorem CourseAs.of_crs {p : Nat} {s t : State} (h : t.crs = s.crs) : CourseAs p s t := by
  refine ⟨?_, ?_, ?_, ?_, ?_, ?_, ?_⟩
  all_goals simp only [State.peer, h]

theorem CourseAs.of_modPeer {p : Nat} (k : Nat) (f : Peer → Peer) (s : State) (hf : ∀ q, (f q).nonce = q.nonce ∧ (f q).role = q.role) :
    CourseAs p s (modPeer k f s) := Crl.courseAs (Crl.modPeer k f rfl hf)

theorem sayHello_as (p k : Nat) (s : State) : CourseAs p s (sayHello k s) := Crl.courseAs (Crl.sayHello k s rfl)
theorem formationStops_as (p k : Nat) (s : State) : CourseAs p s (formationStops k s) := Crl.courseAs (Crl.formationStops k s rfl)

theorem issueStep_as (attests : Bool) (p k : Nat) (s : State) : CourseAs p s (issueStep attests k s) := by
  rw [issueStep]
  split
  · exact formationStops_as p k s
  · split
    · exact .refl p s
    · exact .of_crs rfl

/-- Work that each position takes leaves the course as it is. -/
theorem CourseAs.eachN {p : Nat} {f : Nat → State → State} (hf : ∀ i x, CourseAs p x (f i x)) (l : List Nat) (s : State) : CourseAs p s (Machine.eachN l f s) :=
  eachN_ind (P := fun x => CourseAs p s x) l f s (.refl p s) fun i x h => h.trans (hf i x)

/-! ### Lanes (R448, R449, R451) -/

section
variable {s : State}

/-- The state in which the positions are greeted. -/
def greeting (s : State) : State := modCrs (fun c => { c with forming := max 1 c.forming }) s

theorem startForming_waits (h : crsRole s = roStandalone ∨ s.eff .ownCourseXbuf = 0 ∨ s.crs.laneUp = 0) : startForming s = s := if_pos h
theorem startForming_greets (h : ¬ (crsRole s = roStandalone ∨ s.eff .ownCourseXbuf = 0 ∨ s.crs.laneUp = 0)) :
    startForming s = eachN (crsOthers s) sayHello (greeting s) := if_neg h

theorem startForming_facts (s : State) : (startForming s).crs.role = s.crs.role ∧ (startForming s).crs.laneUp = s.crs.laneUp ∧
    (crsRole s ≠ roStandalone → s.eff .ownCourseXbuf ≠ 0 → s.crs.laneUp ≠ 0 → (startForming s).crs.forming = max 1 s.crs.forming) ∧
    (1 ≤ s.crs.forming → (startForming s).crs.forming = s.crs.forming) := by
  by_cases h : crsRole s = roStandalone ∨ s.eff .ownCourseXbuf = 0 ∨ s.crs.laneUp = 0
  · rw [startForming_waits h]
    refine ⟨rfl, rfl, fun hstand hbuf hlane => ?_, fun _ => rfl⟩
    rcases h with h | h | h
    · exact absurd h hstand
    · exact absurd h hbuf
    · exact absurd h hlane
  · rw [startForming_greets h]
    have hkept := CourseAs.eachN (p := 0) (fun i x => sayHello_as 0 i x) (crsOthers s) (greeting s)
    exact ⟨hkept.role, hkept.laneUp, fun _ _ _ => hkept.forming, fun hone => hkept.forming.trans (max_eq_right hone)⟩

theorem lane_up_ne (l : Fin 2) : (0 : BitVec 2) ||| BitVec.ofNat 2 (2 ^ l.val) ≠ 0 := by
  revert l
  decide

end

/-! ### The steps of a pairing (R451, R452) -/

section
variable {p : Nat} {s : State}

theorem mayAttest_congr {s t : State} (hstart : t.start = s.start) (hgen : t.gen = s.gen) (hident : t.ident = s.ident) : mayAttest t = mayAttest s := by
  simp only [mayAttest, crsTen, crsWord, State.eff, State.word, hstart, hgen, hident]

/-- PEER_CAUSE of a formation that stops. -/
def stopCause (s : State) : Nat := if bitOf (s.eff .ksAttEn) (crsTen s) then 4 else 3

theorem stopCause_congr {s t : State} (hstart : t.start = s.start) (hgen : t.gen = s.gen) : stopCause t = stopCause s := by
  have heff : t.eff = s.eff := funext fun r => by rw [State.eff, State.eff, State.word, State.word, hstart, hgen]
  rw [stopCause, stopCause, crsTen, crsTen, crsWord, crsWord, heff]

theorem stopPairing_facts (p cause : Nat) (s : State) : Only [.sch, .tiles, .crs] s (stopPairing p cause s) ∧ ((stopPairing p cause s).peer p).step = .idle ∧
    (stopPairing p cause s).crs.peerCause = BitVec.ofNat 3 cause ∧ (stopPairing p cause s).crs.peerPos = BitVec.ofNat 2 p := by
  have hcourse : Only [.crs] s (modCrs (fun c => { c with peerCause := BitVec.ofNat 3 cause, peerPos := BitVec.ofNat 2 p }) s) := Only.modCrs _ (by decide) (Only.refl _ _)
  have hcause : (modCrs (fun c => { c with peerCause := BitVec.ofNat 3 cause, peerPos := BitVec.ofNat 2 p }) s).crs.peerCause = BitVec.ofNat 3 cause := rfl
  have hpos : (modCrs (fun c => { c with peerCause := BitVec.ofNat 3 cause, peerPos := BitVec.ofNat 2 p }) s).crs.peerPos = BitVec.ofNat 2 p := rfl
  rw [stopPairing]
  generalize modCrs (fun c => { c with peerCause := BitVec.ofNat 3 cause, peerPos := BitVec.ofNat 2 p }) s = x at hcourse hcause hpos
  obtain ⟨ps, c, hc⟩ := idlePair_butPeers p x
  refine ⟨Only.idlePair _ _ (by decide) (hcourse.mono (by decide)), ?_, by rw [hc]; exact hcause, by rw [hc]; exact hpos⟩
  rw [idlePair]
  generalize hy : modPeer p _ x = y
  have hdrop : Only [.sch, .tiles] y (dropWork (.pairing p) y) := Only.dropWork _ _ (by decide) (Only.refl _ _)
  rw [State.peer, show (dropWork (.pairing p) y).crs = y.crs from hdrop.2 .crs (by decide), ← State.peer, ← hy, modPeer_peer_same]

/-- Formation stops with position p. -/
structure Stopped (p : Nat) (s t : State) (cause : Nat) (n : BitVec 16) : Prop where
  step : (t.peer p).step = .idle
  cause : t.crs.peerCause = BitVec.ofNat 3 cause
  pos : t.crs.peerPos = BitVec.ofNat 2 p
  seq : t.jrn.seq = s.jrn.seq + n

theorem crsState_keeps (before after cause : Nat) (s : State) : (crsState before after cause s).crs = s.crs ∧
    (crsState before after cause s).jrn.seq = s.jrn.seq + 1 := by
  refine ⟨(crsState_facts before after cause s).1.2 .crs (by decide), ?_⟩
  rw [crsState, raiseG_jrn, crsRecord, journal_seq]

theorem formationStops_stopped (p : Nat) (s : State) : Stopped p s (formationStops p s) (stopCause s) 1 ∧ bitOf (formationStops p s).evPend gCrsState = true := by
  have hcause : (if (!bitOf (s.eff .ksAttEn) (crsTen s)) = true then 3 else 4) = stopCause s := by
    rw [stopCause]
    cases bitOf (s.eff .ksAttEn) (crsTen s) <;> rfl
  rw [formationStops, hcause]
  obtain ⟨honly, hstep, hpc, hpos⟩ := stopPairing_facts p (stopCause s) s
  generalize stopPairing p (stopCause s) s = x at honly hstep hpc hpos
  generalize (if (!bitOf (s.eff .ksAttEn) (crsTen s)) = true then 4 else 5) = c
  obtain ⟨hcrs, hseq⟩ := crsState_keeps (crsRole s) (crsRole s) c x
  obtain ⟨-, hbit⟩ := crsState_facts (crsRole s) (crsRole s) c x
  generalize crsState (crsRole s) (crsRole s) c x = y at hcrs hseq hbit
  refine ⟨⟨?_, by rw [hcrs, hpc], by rw [hcrs, hpos], ?_⟩, hbit⟩
  · rw [State.peer, hcrs]
    exact hstep
  · rw [hseq, show x.jrn = s.jrn from honly.2 .jrn (by decide)]

theorem issueStep_stops {attests : Bool} (ha : attests = true) (h : mayAttest s = false) : issueStep attests p s = formationStops p s := by
  rw [issueStep, if_pos (by rw [ha, h]; rfl)]

theorem issueStep_issues {attests : Bool} (h : attests = false ∨ mayAttest s = true) :
    issueStep attests p s = if working s (.pairing p) then s else issueJob 3 (.pairing p .hybrid) s := by
  rw [issueStep, if_neg]
  rcases h with h | h <;> rw [h] <;> simp

/-! ### ACCEPT, REJECT and the time limit (R452) -/

/-- The pairing whose command has come. -/
def accepted (p : Nat) (s : State) : State := modPeer p (fun q => { q with step := .working }) (peerRecord p 0 s)

theorem courseAccept_some (h : waitingPair s = some p) : courseAccept s = issueStep (!crsIsMaster s) p (accepted p s) := by
  rw [courseAccept, h]
  rfl

theorem accepted_facts (p : Nat) (s : State) : Only [.notice, .jrn, .evPend, .pviol, .pvcnt, .crs, .out] s (accepted p s) ∧
    (accepted p s).jrn.seq = s.jrn.seq + 1 ∧ (accepted p s).peer p = { s.peer p with step := .working } ∧ CourseAs 0 s (accepted p s) := by
  have hrec : Only [.notice, .jrn, .evPend, .pviol, .pvcnt, .out] s (peerRecord p 0 s) := Only.crsRecord _ _ _ (by decide) (Only.refl _ _)
  have hseq : (peerRecord p 0 s).jrn.seq = s.jrn.seq + 1 := journal_seq _ _ _ _
  have hcrs : (peerRecord p 0 s).crs = s.crs := hrec.2 .crs (by decide)
  rw [accepted]
  generalize peerRecord p 0 s = x at hrec hseq hcrs
  refine ⟨Only.modPeer _ _ (by decide) (hrec.mono (by decide)), hseq, ?_, (CourseAs.of_crs hcrs).trans (.of_modPeer _ _ _ fun _ => ⟨rfl, rfl⟩)⟩
  rw [modPeer_peer_same, State.peer, hcrs]
  rfl

theorem abandon_none (cause : Nat) (h : waitingPair s = none) : abandon cause s = s := by rw [abandon, h]

theorem abandon_facts {cause : Nat} (h : waitingPair s = some p) : Stopped p s (abandon cause s) cause 1 ∧ bitOf (abandon cause s).evPend gCrsPeer = true := by
  have habandon : abandon cause s = peerRecord p cause (raiseG gCrsPeer (stopPairing p cause s)) := by rw [abandon, h]
  rw [habandon]
  obtain ⟨honly, hstep, hpc, hpos⟩ := stopPairing_facts p cause s
  generalize stopPairing p cause s = x at honly hstep hpc hpos
  have hrec : Only [.notice, .jrn, .evPend, .pviol, .pvcnt, .out] x (peerRecord p cause (raiseG gCrsPeer x)) :=
    Only.crsRecord _ _ _ (by decide) (Only.raiseG _ _ (by decide) (Only.refl _ _))
  have hseq : (peerRecord p cause (raiseG gCrsPeer x)).jrn.seq = x.jrn.seq + 1 := journal_seq _ _ _ _
  have hbit : bitOf (peerRecord p cause (raiseG gCrsPeer x)).evPend gCrsPeer = true := Pend.crsRecord _ _ _ (raiseG_bit _ _ (by decide))
  generalize peerRecord p cause (raiseG gCrsPeer x) = y at hrec hseq hbit
  have hcrs : y.crs = x.crs := hrec.2 .crs (by decide)
  refine ⟨⟨?_, by rw [hcrs, hpc], by rw [hcrs, hpos], ?_⟩, hbit⟩
  · rw [State.peer, hcrs]
    exact hstep
  · rw [hseq, show x.jrn = s.jrn from honly.2 .jrn (by decide)]

end

/-! ### The work of a step ends (R451, R453, R515) -/

section
variable {p : Nat} {op : PairOp} {s : State}

/-- Behind the hybrid operation of steps 2 and 4 come two signatures. -/
def Signs (s : State) (p : Nat) (op : PairOp) : Prop := op = .hybrid ∧ ((s.peer p).step = .hello ∨ crsIsMaster s = false)

theorem pairDone_signs (h : Signs s p op) : pairDone p op s = issueJob 3 (.pairing p .mldsa) (issueJob 3 (.pairing p .es384) s) := by
  obtain ⟨hop, h⟩ := h
  rw [pairDone, if_pos ⟨hop, h.imp id fun h => by rw [h]; rfl⟩]

theorem pairDone_goesOn (h : ¬ Signs s p op) (hmore : working s (.pairing p) = true) : pairDone p op s = s := by
  rw [pairDone, if_neg, if_pos hmore]
  rintro ⟨hop, hs⟩
  exact h ⟨hop, hs.imp id fun h => by simpa using h⟩

theorem pairDone_last (h : ¬ Signs s p op) (hmore : working s (.pairing p) = false) : pairDone p op s = stepEnds p s := by
  rw [pairDone, if_neg, if_neg (by rw [hmore]; decide)]
  rintro ⟨hop, hs⟩
  exact h ⟨hop, hs.imp id fun h => by simpa using h⟩

/-- Step 2, 4 without an attestation. -/
theorem stepEnds_stops (h : (s.peer p).step = .hello ∨ (s.peer p).step = .working ∧ crsIsMaster s = false) (hno : mayAttest s = false) :
    stepEnds p s = formationStops p s := by
  rw [stepEnds]
  rcases h with h | ⟨h, hmaster⟩
  · rw [h]
    exact if_pos (by rw [hno]; rfl)
  · rw [h]
    dsimp only
    rw [if_neg (by rw [hmaster]; decide), memberRespond]
    exact if_pos (by rw [hno]; rfl)

theorem stepEnds_finishes (h : (s.peer p).step = .working) (hmaster : crsIsMaster s = true) : stepEnds p s = masterFinish p s := by
  rw [stepEnds, h]
  exact if_pos hmaster

/-- Position p shares the group key of the master, or its pairing waits for the generator with the pairwise key. -/
structure Finishes (p : Nat) (key : Bytes) (s t : State) : Prop where
  key : (t.peer p).key = key
  as : t.crs.role = s.crs.role ∧ t.crs.forming = s.crs.forming
  group : s.crs.newKey ≠ [] → t.crs.newKey = s.crs.newKey
  step : (t.peer p).step = .accepted ∨ (t.peer p).step = .idle ∧ (t.peer p).formed = true ∧ (t.peer p).gkey = t.crs.newKey ∧
    (t.peer p).epoch = s.crs.forming ∧ bitOf t.evPend gCrsFormed = true

theorem generate_crs (n : Nat) (order : List Nat) (s : State) : (generate n order s).2.crs = s.crs := by
  have honly : Only [.notice, .ces, .es, .rbgs, .jrn, .evPend, .pviol, .pvcnt, .out] s (generate n order s).2 := Only.generate _ _ _ (by decide) (Only.refl _ _)
  exact honly.2 .crs (by decide)

/-- The frame that brings the group key, and the position that joins with it. -/
def groupSent (p : Nat) (n : Bytes) (s : State) : State :=
  raiseG gCrsFormed (modPeer p (fun q => { q with step := .idle, formed := true, seed := [], got := [] })
    (joined p s.crs.newKey s.crs.forming (sendFrame ftGroup p (n ++ aeadSeal 0x1D (s.peer p).key n [] s.crs.newKey) s)))

theorem groupSent_finishes (n : Bytes) : Finishes p (s.peer p).key s (groupSent p n s) := by
  rw [groupSent]
  have hsends := sendFrame_sends ftGroup p (n ++ aeadSeal 0x1D (s.peer p).key n [] s.crs.newKey) s
  generalize sendFrame ftGroup p (n ++ aeadSeal 0x1D (s.peer p).key n [] s.crs.newKey) s = x at hsends
  have hpeer := hsends.peer p
  obtain ⟨-, c, hc⟩ := hsends
  generalize hy : modPeer p (fun q => { q with step := .idle, formed := true, seed := [], got := [] }) (joined p s.crs.newKey s.crs.forming x) = y
  have hyp : y.peer p = { s.peer p with
      gkey := s.crs.newKey, epoch := s.crs.forming, cntA := 0, cntB := 0, silent := false, step := .idle, formed := true, seed := [], got := [] } := by
    rw [← hy, modPeer_peer_same, joined, modPeer_peer_same, hpeer]
  have hraised : (raiseG gCrsFormed y).peer p = y.peer p := rfl
  have hycrs : y.crs.role = s.crs.role ∧ y.crs.forming = s.crs.forming ∧ y.crs.newKey = s.crs.newKey := by
    have hxcrs : x.crs.role = s.crs.role ∧ x.crs.forming = s.crs.forming ∧ x.crs.newKey = s.crs.newKey := by rw [hc]; exact ⟨rfl, rfl, rfl⟩
    rw [← hy]
    exact hxcrs
  obtain ⟨hrole, hforming, hnew⟩ := hycrs
  refine ⟨by rw [hraised, hyp], ⟨hrole, hforming⟩, fun _ => hnew, .inr ⟨by rw [hraised, hyp], by rw [hraised, hyp], ?_, by rw [hraised, hyp], raiseG_bit _ _ (by decide)⟩⟩
  rw [hraised, hyp]
  exact hnew.symm

theorem Finishes.of_crs {t : State} {key : Bytes} (h : t.crs = s.crs) (hkey : (s.peer p).key = key) (hstep : (s.peer p).step = .accepted) : Finishes p key s t := by
  have hpeer : t.peer p = s.peer p := by rw [State.peer, State.peer, h]
  exact ⟨by rw [hpeer, hkey], by rw [h]; exact ⟨rfl, rfl⟩, fun _ => by rw [h], .inl (by rw [hpeer, hstep])⟩

theorem Finishes.from {x t : State} {key : Bytes} (h : Finishes p key x t) (hrole : x.crs.role = s.crs.role) (hforming : x.crs.forming = s.crs.forming)
    (hnew : s.crs.newKey ≠ [] → x.crs.newKey = s.crs.newKey) : Finishes p key s t :=
  ⟨h.key, ⟨h.as.1.trans hrole, h.as.2.trans hforming⟩, fun hne => (h.group (by rw [hnew hne]; exact hne)).trans (hnew hne),
    h.step.imp id fun ⟨h1, h2, h3, h4, h5⟩ => ⟨h1, h2, h3, h4.trans hforming, h5⟩⟩

theorem sendGroup_finishes (hstep : (s.peer p).step = .accepted) : Finishes p (s.peer p).key s (sendGroup p s) := by
  rw [sendGroup]
  split
  · exact .of_crs rfl rfl hstep
  · have hcrs := generate_crs 12 (genOrder 0) s
    generalize generate 12 (genOrder 0) s = g at hcrs
    obtain ⟨n, x⟩ := g
    have hpeer : x.peer p = s.peer p := by rw [State.peer, State.peer, show x.crs = s.crs from hcrs]
    cases n with
    | none => exact .of_crs hcrs rfl hstep
    | some n =>
      have hgroup := (groupSent_finishes (p := p) (s := x) n).from (s := s) (congrArg Course.role hcrs) (congrArg Course.forming hcrs) fun _ => congrArg Course.newKey hcrs
      rw [hpeer] at hgroup
      exact hgroup

/-- The pairwise key of the master with position p. -/
def masterKey (p : Nat) (s : State) : Bytes := pairKey s (hybFinish (s.peer p).seed (s.peer p).got (pairCtx s (crsPos s) p)) (crsPos s) p

theorem masterKey_congr {t : State} (hstart : t.start = s.start) (hgen : t.gen = s.gen) (hcrs : t.crs = s.crs) : masterKey p t = masterKey p s := by
  simp only [masterKey, pairKey, pairCtx, State.peer, State.eff, State.word, crsPos_congr hstart hgen, hstart, hgen, hcrs]

theorem masterFinish_finishes (p : Nat) (s : State) : Finishes p (masterKey p s) s (masterFinish p s) := by
  rw [masterFinish]
  generalize hx : modPeer p _ s = x
  have hxp : (x.peer p).key = masterKey p s ∧ (x.peer p).step = .accepted := by
    rw [← hx, modPeer_peer_same]
    exact ⟨rfl, rfl⟩
  have hxcrs : x.crs.role = s.crs.role ∧ x.crs.forming = s.crs.forming ∧ x.crs.newKey = s.crs.newKey := by
    rw [← hx]
    exact ⟨rfl, rfl, rfl⟩
  obtain ⟨hkey, hstep⟩ := hxp
  obtain ⟨hrole, hforming, hnew⟩ := hxcrs
  split
  · exact hkey ▸ (sendGroup_finishes hstep).from hrole hforming fun _ => hnew
  · next hnone =>
    have hcrs := generate_crs 32 (genOrder 0) x
    generalize generate 32 (genOrder 0) x = g at hcrs
    obtain ⟨k, y⟩ := g
    rw [not_not] at hnone
    have hempty (h : s.crs.newKey ≠ []) : False := h (hnew.symm.trans hnone)
    cases k with
    | none => exact (Finishes.of_crs (s := x) hcrs hkey hstep).from hrole hforming fun h => absurd h fun h => hempty h
    | some k =>
      have hpeer : (modCrs (fun c => { c with newKey := k }) y).peer p = x.peer p := by
        rw [State.peer, State.peer, ← show y.crs = x.crs from hcrs]
        rfl
      have hgroup := sendGroup_finishes (p := p) (s := modCrs (fun c => { c with newKey := k }) y) (by rw [hpeer, hstep])
      rw [hpeer, hkey] at hgroup
      exact hgroup.from ((congrArg Course.role hcrs).trans hrole) ((congrArg Course.forming hcrs).trans hforming) fun h => (hempty h).elim

end

/-! ### HELLO (R450, R451) -/

section
variable {p : Nat} {b : Bytes} {s : State}

/-- What position p sent, the epoch and the lanes are as they were. -/
structure HelloAs (p : Nat) (s t : State) : Prop where
  nonce : (t.peer p).nonce = (s.peer p).nonce
  sent : (t.peer p).role = (s.peer p).role
  forming : t.crs.forming = s.crs.forming
  laneUp : t.crs.laneUp = s.crs.laneUp

theorem CourseAs.hello {t : State} (h : CourseAs p s t) : HelloAs p s t := ⟨h.nonce, h.sent, h.forming, h.laneUp⟩

theorem HelloAs.trans {t u : State} (h : HelloAs p s t) (g : HelloAs p t u) : HelloAs p s u :=
  ⟨g.nonce.trans h.nonce, g.sent.trans h.sent, g.forming.trans h.forming, g.laneUp.trans h.laneUp⟩

theorem demote_as (p cause : Nat) (s : State) : HelloAs p s (demote p cause s) := by
  rw [demote]
  generalize hx : modCrs (fun c => { c with role := BitVec.ofNat 2 roElect, master := BitVec.ofNat 2 p, took := decide (cause = 2), grants := [] }) s = x
  have hsx : HelloAs p s x := by rw [← hx]; exact ⟨rfl, rfl, rfl, rfl⟩
  have hxy : CourseAs p x (crsState roMaster roElect cause x) := .of_crs (crsState_keeps _ _ _ _).1
  generalize crsState roMaster roElect cause x = y at hxy
  refine hsx.trans ?_
  split
  · exact hxy.hello
  · exact (hxy.trans ((Crl.courseAs (Crl.idlePair p y rfl)).trans (sayHello_as p p _))).hello

theorem secondMaster_as (p cause : Nat) (s : State) : HelloAs p s (secondMaster p cause s) := by
  rw [secondMaster]
  split
  · exact demote_as p cause s
  · split
    · exact (CourseAs.refl p s).hello
    · exact ⟨rfl, rfl, rfl, rfl⟩

theorem secondMaster_role (h : crsRole s ≠ roMaster ∨ crsPos s ≤ p) (cause : Nat) : (secondMaster p cause s).crs.role = s.crs.role := by
  rw [secondMaster, if_neg]
  · split <;> rfl
  · rintro ⟨h1, h2⟩
    rcases h with h | h
    · exact h h1
    · omega

/-- The HELLO that is heard. -/
structure Fits (s : State) (p : Nat) (b : Bytes) : Prop where
  other : p ∈ crsOthers s
  role : crsRole s ≠ roStandalone
  len : b.length = 47
  course : beNat (b.take 8) = (s.eff .ownCourseId).toNat
  pos : byteAt b 8 = p
  buf : s.eff .ownCourseXbuf ≠ 0

/-- The state in which what the peer sent is kept; a higher epoch begins the pairing anew. -/
def helloKept (p : Nat) (b : Bytes) (s : State) : State :=
  modPeer p (fun q => { q with role := byteAt b 9, nonce := slice b 11 32, silent := false })
    (if s.crs.forming < leAt b 43 4 then idlePair p (modCrs (fun c => { c with forming := leAt b 43 4, newKey := [] }) s) else s)

/-- The HELLO that answers. -/
def helloAnswered (p : Nat) (b : Bytes) (s : State) : State :=
  if ((helloKept p b s).peer p).step = .idle then sayHello p (helloKept p b s) else helloKept p b s

/-- Who is followed after the HELLO. -/
def helloFollowed (p : Nat) (b : Bytes) (s : State) : State :=
  if byteAt b 9 = roMaster then secondMaster p 1 (helloAnswered p b s) else helloAnswered p b s

theorem hearHello_fits (h : Fits s p b) : hearHello p b s =
    if crsIsMaster (helloFollowed p b s) && decide (((helloFollowed p b s).peer p).step = .hello) && decide (byteAt b 9 ≠ roMaster)
      then issueStep true p (helloFollowed p b s) else helloFollowed p b s := by
  rw [hearHello, if_neg]
  · rw [helloFollowed, helloAnswered, helloKept]
    by_cases hanew : s.crs.forming < leAt b 43 4
    · simp only [hanew, decide_true, if_true]
    · simp only [hanew, decide_false, if_false, Bool.false_eq_true]
  · rintro (hn | hn | hn | hn | hn | hn)
    · exact hn h.other
    · exact h.role hn
    · exact hn h.len
    · exact hn h.course
    · exact hn h.pos
    · exact h.buf hn

theorem hearHello_unfit (h : ¬ Fits s p b) : hearHello p b s = s := by
  rw [hearHello, if_pos]
  by_contra hn
  simp only [not_or, not_not, ne_eq] at hn
  exact h ⟨hn.1, hn.2.1, hn.2.2.1, hn.2.2.2.1, hn.2.2.2.2.1, hn.2.2.2.2.2⟩

theorem idlePair_peer (p : Nat) (s : State) : (idlePair p s).peer p = { s.peer p with step := .idle, seed := [], got := [], key := [] } := by
  rw [idlePair]
  generalize hy : modPeer p _ s = y
  have hdrop : Only [.sch, .tiles] y (dropWork (.pairing p) y) := Only.dropWork _ _ (by decide) (Only.refl _ _)
  rw [State.peer, show (dropWork (.pairing p) y).crs = y.crs from hdrop.2 .crs (by decide), ← State.peer, ← hy, modPeer_peer_same]

/-- What is kept of a HELLO. -/
structure HelloKept (p : Nat) (b : Bytes) (s t : State) : Prop where
  nonce : (t.peer p).nonce = slice b 11 32
  sent : (t.peer p).role = byteAt b 9
  formed : (t.peer p).formed = (s.peer p).formed
  forming : t.crs.forming = max s.crs.forming (leAt b 43 4)
  laneUp : t.crs.laneUp = s.crs.laneUp
  role : t.crs.role = s.crs.role
  master : t.crs.master = s.crs.master
  heard : t.crs.heard = s.crs.heard

theorem helloKept_keeps (p : Nat) (b : Bytes) (s : State) : HelloKept p b s (helloKept p b s) := by
  rw [helloKept]
  by_cases hanew : s.crs.forming < leAt b 43 4
  · rw [if_pos hanew]
    generalize hx : modCrs (fun c => { c with forming := leAt b 43 4, newKey := [] }) s = x
    have hpeer := idlePair_peer p x
    obtain ⟨ps, c, hc⟩ := idlePair_butPeers p x
    generalize idlePair p x = y at hpeer hc
    have hxp : x.peer p = s.peer p := by rw [← hx]; rfl
    have hcrs : y.crs.forming = leAt b 43 4 ∧ y.crs.laneUp = s.crs.laneUp ∧ y.crs.role = s.crs.role ∧ y.crs.master = s.crs.master ∧ y.crs.heard = s.crs.heard := by
      rw [hc, ← hx]
      exact ⟨rfl, rfl, rfl, rfl, rfl⟩
    obtain ⟨h1, h2, h3, h4, h5⟩ := hcrs
    refine ⟨by rw [modPeer_peer_same], by rw [modPeer_peer_same], ?_, h1.trans (max_eq_right (le_of_lt hanew)).symm, h2, h3, h4, h5⟩
    rw [modPeer_peer_same, hpeer, hxp]
  · rw [if_neg hanew]
    exact ⟨by rw [modPeer_peer_same], by rw [modPeer_peer_same], by rw [modPeer_peer_same], (max_eq_left (not_lt.mp hanew)).symm, rfl, rfl, rfl, rfl⟩

theorem sayHello_formed (p : Nat) (s : State) : ((sayHello p s).peer p).formed = (s.peer p).formed := by
  have hcrs := generate_crs 32 (genOrder 0) s
  rw [sayHello]
  generalize generate 32 (genOrder 0) s = g at hcrs
  obtain ⟨k, x⟩ := g
  have hpeer : x.peer p = s.peer p := by rw [State.peer, State.peer, show x.crs = s.crs from hcrs]
  cases k with
  | none => exact congrArg Peer.formed hpeer
  | some k =>
    dsimp only
    rw [(sendFrame_sends _ _ _ _).peer, modPeer_peer_same, hpeer]

theorem HelloKept.as {t u : State} (h : HelloKept p b s t) (g : CourseAs p t u) (hformed : (u.peer p).formed = (t.peer p).formed) : HelloKept p b s u :=
  ⟨g.nonce.trans h.nonce, g.sent.trans h.sent, hformed.trans h.formed, g.forming.trans h.forming, g.laneUp.trans h.laneUp, g.role.trans h.role, g.master.trans h.master,
    g.heard.trans h.heard⟩

theorem helloAnswered_keeps (p : Nat) (b : Bytes) (s : State) : HelloKept p b s (helloAnswered p b s) := by
  have hkept := helloKept_keeps p b s
  rw [helloAnswered]
  split
  · exact hkept.as (sayHello_as p p _) (sayHello_formed p _)
  · exact hkept

theorem helloAnswered_only (p : Nat) (b : Bytes) (s : State) :
    Only [.notice, .sch, .tiles, .ces, .es, .rbgs, .jrn, .evPend, .pviol, .pvcnt, .crs, .out] s (helloAnswered p b s) := by
  have hkept : Only [.sch, .tiles, .crs] s (helloKept p b s) := by
    rw [helloKept]
    refine Only.modPeer _ _ (by decide) ?_
    split
    · exact Only.idlePair _ _ (by decide) (Only.modCrs _ (by decide) (Only.refl _ _))
    · exact Only.refl _ _
  rw [helloAnswered]
  split
  · exact Only.sayHello _ _ (by decide) (hkept.mono (by decide))
  · exact hkept.mono (by decide)

/-- A demotion drops the work of a pairing that has not formed. -/
theorem demote_jobs {cause : Nat} (h : (s.peer p).formed = false) : ∀ j ∈ (demote p cause s).sch.jobs, j.work.purpose ≠ .pairing p := by
  rw [demote]
  generalize hx : modCrs (fun c => { c with role := BitVec.ofNat 2 roElect, master := BitVec.ofNat 2 p, took := decide (cause = 2), grants := [] }) s = x
  have hcrs := (crsState_keeps roMaster roElect cause x).1
  generalize crsState roMaster roElect cause x = y at hcrs
  have hformed : (y.peer p).formed = false := by
    rw [State.peer, hcrs, ← hx]
    exact h
  rw [if_neg (by rw [hformed]; decide)]
  have hhello : Only [.notice, .ces, .es, .rbgs, .jrn, .evPend, .pviol, .pvcnt, .crs, .out] (idlePair p y) (sayHello p (idlePair p y)) :=
    Only.sayHello _ _ (by decide) (Only.refl _ _)
  rw [show (sayHello p (idlePair p y)).sch = (idlePair p y).sch from hhello.2 .sch (by decide), idlePair, dropWork_sch]
  intro j hj
  exact of_decide_eq_true (List.mem_filter.mp hj).2

end

/-! ### AGREE and GROUP (R451 to R453) -/

section
variable {p : Nat} {s : State}

/-- The output and statement of position p are due. -/
structure AgreeDue (s : State) (p : Nat) : Prop where
  step : (s.peer p).step = (if crsIsMaster s then PairStep.agreed else PairStep.hello)
  from' : crsIsMaster s = true ∨ s.crs.heard = false ∨ s.crs.master.toNat = p
  free : (crsOthers s).any (fun q => decide ((s.peer q).step = .waiting)) = false

/-- The state in which the exchange buffer is written and owner software told. -/
def agreeTold (p : Nat) (o b : Bytes) (s : State) : State :=
  raiseG gCrsPeer (modPeer p (fun q => { q with step := .waiting, got := o }) (followAgree p (emitWr (s.eff .ownCourseXbuf).toNat b s)))

theorem hearAgree_due {o st : Bytes} (h : AgreeDue s p) : hearAgree p o st s =
    (check s s.gen.act none .secure .write (s.eff .ownCourseXbuf).toNat (xbufBytes p (o ++ st)).length).elim (agreeTold p o (xbufBytes p (o ++ st)) s)
      fun e => violP e.1 .write e.2 kindImage 0 0 (s.gen.active.toNat % 65536) s := by
  rw [hearAgree, if_neg]
  · dsimp only
    cases check s s.gen.act none .secure .write (s.eff .ownCourseXbuf).toNat (xbufBytes p (o ++ st)).length <;> rfl
  · rintro (hn | hn | hn)
    · exact hn h.step
    · rcases h.from' with hf | hf | hf <;> simp [hf] at hn
    · rw [h.free] at hn
      exact absurd hn (by decide)

theorem hearAgree_undue {o st : Bytes} (h : ¬ AgreeDue s p) : hearAgree p o st s = s := by
  rw [hearAgree, if_pos]
  by_contra hn
  simp only [not_or, not_not, ne_eq, Bool.not_eq_true] at hn
  obtain ⟨hstep, hfrom, hfree⟩ := hn
  refine h ⟨hstep, ?_, hfree⟩
  cases hmaster : crsIsMaster s
  · cases hheard : s.crs.heard
    · exact .inr (.inl rfl)
    · exact .inr (.inr (by simpa [hmaster, hheard] using hfrom))
  · exact .inl rfl

theorem agreeTold_facts (p : Nat) (o b : Bytes) (s : State) : Only [.evPend, .crs, .out] s (agreeTold p o b s) ∧
    (agreeTold p o b s).peer p = { s.peer p with step := .waiting, got := o } ∧ (agreeTold p o b s).out = (emitWr (s.eff .ownCourseXbuf).toNat b s).out ∧
    bitOf (agreeTold p o b s).evPend gCrsPeer = true ∧ (agreeTold p o b s).crs.role = s.crs.role := by
  have hwrite : Only [.out] s (emitWr (s.eff .ownCourseXbuf).toNat b s) := Only.emitWr _ _ _ (by decide) (Only.refl _ _)
  rw [agreeTold]
  generalize emitWr (s.eff .ownCourseXbuf).toNat b s = x at hwrite
  have hcrs : x.crs = s.crs := hwrite.2 .crs (by decide)
  have hfollow : Only [.crs] x (followAgree p x) ∧ (followAgree p x).crs.peers = x.crs.peers ∧ (followAgree p x).crs.role = x.crs.role := by
    rw [followAgree]
    split
    · exact ⟨Only.refl _ _, rfl, rfl⟩
    · exact ⟨Only.modCrs _ (by decide) (Only.refl _ _), rfl, rfl⟩
  generalize followAgree p x = y at hfollow
  obtain ⟨hxy, hpeers, hrole⟩ := hfollow
  have hpeer : y.peer p = s.peer p := by rw [State.peer, State.peer, hpeers, hcrs]
  refine ⟨Only.raiseG _ _ (by decide) (Only.modPeer _ _ (by decide) ((hwrite.mono (by decide)).trans (hxy.mono (by decide)))), ?_, hxy.2 .out (by decide),
    raiseG_bit _ _ (by decide), hrole.trans (congrArg Course.role hcrs)⟩
  have hraised (z : State) : (raiseG gCrsPeer z).peer p = z.peer p := rfl
  rw [hraised, modPeer_peer_same, hpeer]

/-- Position p shares the group key g of an epoch. -/
def Shares (g : Bytes) (e p : Nat) (s : State) : Prop := (s.peer p).gkey = g ∧ (s.peer p).epoch = e ∧ (s.peer p).silent = false

theorem joined_shares (k : Nat) (g : Bytes) (e : Nat) (s : State) : Shares g e k (joined k g e s) := by
  rw [Shares, joined, modPeer_peer_same]
  exact ⟨rfl, rfl, rfl⟩

theorem Shares.joined {g : Bytes} {e : Nat} (k : Nat) (h : Shares g e p s) : Shares g e p (Machine.joined k g e s) := by
  by_cases hk : p = k
  · subst hk
    exact joined_shares p g e s
  · rw [Shares, Machine.joined, modPeer_peer_ne _ _ hk]
    exact h

/-- Every position of a list joins under the epoch that forms. -/
theorem joins_share (g : Bytes) (l : List Nat) (s : State) : (eachN l (fun q s => joined q g s.crs.forming s) s).crs.forming = s.crs.forming ∧
    (eachN l (fun q s => joined q g s.crs.forming s) s).crs.role = s.crs.role ∧ (eachN l (fun q s => joined q g s.crs.forming s) s).crs.asked = s.crs.asked ∧
    ∀ q ∈ l, Shares g s.crs.forming q (eachN l (fun q s => joined q g s.crs.forming s) s) := by
  induction l generalizing s with
  | nil => exact ⟨rfl, rfl, rfl, fun q hq => absurd hq (by simp)⟩
  | cons a l ih =>
    have hstep : eachN (a :: l) (fun q s => joined q g s.crs.forming s) s = eachN l (fun q s => joined q g s.crs.forming s) (joined a g s.crs.forming s) := rfl
    obtain ⟨hforming, hrole, hasked, hshare⟩ := ih (joined a g s.crs.forming s)
    rw [hstep]
    refine ⟨hforming, hrole, hasked, fun q hq => ?_⟩
    rcases List.mem_cons.mp hq with rfl | hq
    · have hkeep : ∀ i x, x.crs.forming = s.crs.forming ∧ Shares g s.crs.forming q x →
          (joined i g x.crs.forming x).crs.forming = s.crs.forming ∧ Shares g s.crs.forming q (joined i g x.crs.forming x) := by
        rintro i x ⟨hx, hshares⟩
        rw [hx]
        exact ⟨hx, hshares.joined i⟩
      exact (eachN_ind (P := fun x => x.crs.forming = s.crs.forming ∧ Shares g s.crs.forming q x) l (fun q s => joined q g s.crs.forming s)
        (joined q g s.crs.forming s) ⟨rfl, joined_shares q g _ s⟩ hkeep).2
    · exact hshare q hq

/-- The group key that GROUP brings, sealed under the pairwise key. -/
def groupKey (p : Nat) (b : Bytes) (s : State) : Bytes := aeadText 0x1D (s.peer p).key (b.take 12) [] (b.drop 12)

/-- GROUP is due from position p. -/
def GroupDue (s : State) (p : Nat) (b : Bytes) : Prop :=
  (s.peer p).step = .accepted ∧ crsIsMaster s = false ∧ aeadOpens 0x1D (s.peer p).key (b.take 12) [] (b.drop 12) = true

end

section
variable {p : Nat} {b : Bytes} {s : State}

/-- The state in which every position shares a group key, before what was asked for is asked again. -/
def shared (p : Nat) (g : Bytes) (s : State) : State :=
  raiseG gCrsFormed (modPeer p (fun q => { q with step := .idle, formed := true, got := [] })
    (eachN (crsOthers s) (fun q s => joined q g s.crs.forming s) s))

theorem hearGroup_due (h : GroupDue s p b) : hearGroup p b s = reAsk (shared p (groupKey p b s) s) := by
  obtain ⟨hstep, hmaster, hopens⟩ := h
  rw [hearGroup, if_neg]
  · rfl
  · rintro (hn | hn | hn)
    · exact hn hstep
    · rw [hmaster] at hn
      exact absurd hn (by decide)
    · rw [hopens] at hn
      exact absurd hn (by decide)

theorem hearGroup_undue (h : ¬ GroupDue s p b) : hearGroup p b s = s := by
  rw [hearGroup, if_pos]
  by_contra hn
  simp only [not_or, not_not, ne_eq, Bool.not_eq_true, Bool.not_eq_false'] at hn
  exact h hn

theorem shared_facts (p : Nat) (g : Bytes) (s : State) : Only [.evPend, .crs] s (shared p g s) ∧ bitOf (shared p g s).evPend gCrsFormed = true ∧
    (shared p g s).crs.role = s.crs.role ∧ (shared p g s).crs.asked = s.crs.asked ∧ (∀ q ∈ crsOthers s, Shares g s.crs.forming q (shared p g s)) ∧
    ((shared p g s).peer p).formed = true ∧ ((shared p g s).peer p).step = .idle := by
  have honly : Only [.crs] s (eachN (crsOthers s) (fun q s => joined q g s.crs.forming s) s) :=
    Only.eachN _ (Only.refl _ _) fun _ _ h => Only.joined _ _ _ _ (by decide) h
  obtain ⟨-, hrole, hasked, hshare⟩ := joins_share g (crsOthers s) s
  rw [shared]
  generalize eachN (crsOthers s) (fun q s => joined q g s.crs.forming s) s = x at honly hrole hasked hshare
  have hraised (z : State) (q : Nat) : (raiseG gCrsFormed z).peer q = z.peer q := rfl
  refine ⟨Only.raiseG _ _ (by decide) (Only.modPeer _ _ (by decide) (honly.mono (by decide))), raiseG_bit _ _ (by decide), hrole, hasked, fun q hq => ?_, ?_, ?_⟩
  · rw [Shares, hraised]
    by_cases hqp : q = p
    · subst hqp
      rw [modPeer_peer_same]
      exact hshare q hq
    · rw [modPeer_peer_ne _ _ hqp]
      exact hshare q hq
  · rw [hraised, modPeer_peer_same]
  · rw [hraised, modPeer_peer_same]

/-- Where nothing was asked for, nothing is asked again. -/
theorem reAsk_nothing (h : s.crs.asked = []) : Only [.crs] s (reAsk s) := by
  rw [reAsk, h]
  exact Only.modCrs _ (by decide) (Only.refl _ _)

end

/-! ### Frames received (R449, R454) -/

section
variable {lane : Fin 2} {f : Bytes} {s : State}

theorem badFrame_facts (p lane type kind cnt : Nat) (s : State) : Only [.notice, .jrn, .evPend, .pviol, .pvcnt, .crs, .out] s (badFrame p lane type kind cnt s) ∧
    (badFrame p lane type kind cnt s).crs = { s.crs with bad := s.crs.bad.bump } ∧ bitOf (badFrame p lane type kind cnt s).evPend gCrsFrameBad = true ∧
    (badFrame p lane type kind cnt s).jrn.seq = s.jrn.seq + 1 := by
  rw [badFrame]
  generalize hx : modCrs (fun c => { c with bad := c.bad.bump }) s = x
  have hsx : Only [.crs] s x := hx ▸ Only.modCrs _ (by decide) (Only.refl _ _)
  have hcrs : x.crs = { s.crs with bad := s.crs.bad.bump } := by rw [← hx]; rfl
  have hrec : Only [.notice, .jrn, .evPend, .pviol, .pvcnt, .out] x
      (raiseG gCrsFrameBad (crsRecord 0x44 [p + 4 * lane + 2 ^ 8 * type + 2 ^ 16 * kind, cnt % 2 ^ 32] x)) :=
    Only.raiseG _ _ (by decide) (Only.crsRecord _ _ _ (by decide) (Only.refl _ _))
  refine ⟨(hsx.mono (by decide)).trans (hrec.mono (by decide)), (hrec.2 .crs (by decide)).trans hcrs, raiseG_bit _ _ (by decide), ?_⟩
  rw [raiseG_jrn, crsRecord, journal_seq, show x.jrn = s.jrn from hsx.2 .jrn (by decide)]

/-- The position that sent a frame, the lane bit, the length of its payload and its count. -/
def frameFrom (f : Bytes) : Fin 4 := Fin.ofNat 4 (byteAt f 0 / 4)
def frameBit (f : Bytes) : Nat := byteAt f 0 / 16 % 2
def frameLen (f : Bytes) : Nat := leAt f 2 2
def lastCount (s : State) (f : Bytes) : Nat := if frameBit f = 0 then (s.peer (frameFrom f).val).cntA else (s.peer (frameFrom f).val).cntB

/-- The lane of a frame is up, in a course. -/
def LaneOn (s : State) (lane : Fin 2) : Prop := s.start.serving = true ∧ crsRole s ≠ roStandalone ∧ s.crs.laneUp.toNat.testBit lane.val = true

/-- A frame for this position, from another one. -/
def FrameHere (s : State) (f : Bytes) : Prop :=
  byteAt f 0 % 4 = crsPos s ∧ f.length = 32 + frameLen f ∧ frameLen f ≤ 1024 ∧ (frameFrom f).val ∈ crsOthers s

/-- The frame opens under the frame key of its sender. -/
def FrameOpens (s : State) (f : Bytes) : Prop :=
  (s.peer (frameFrom f).val).gkey ≠ [] ∧ leAt f 4 4 = (s.peer (frameFrom f).val).epoch ∧
    aeadOpens 0x19 (frameKey (s.peer (frameFrom f).val).gkey (leAt f 4 4) (frameFrom f).val) (frameNonce (frameFrom f).val (frameBit f) (leAt f 8 8)) (f.take 16) (f.drop 16) = true

/-- The counts accepted with a frame. -/
def counted (f : Bytes) (q : Peer) : Peer :=
  { q with
    silent := false
    cntA := if frameBit f = 0 then leAt f 8 8 else q.cntA
    cntB := if frameBit f = 0 then q.cntB else leAt f 8 8 }

/-- The text of a frame that opens. -/
def frameText (s : State) (f : Bytes) : Bytes :=
  aeadText 0x19 (frameKey (s.peer (frameFrom f).val).gkey (leAt f 4 4) (frameFrom f).val) (frameNonce (frameFrom f).val (frameBit f) (leAt f 8 8)) (f.take 16) (f.drop 16)

theorem frame_off (h : ¬ LaneOn s lane) : fxCourseFrameReceive lane f s = s := by
  rw [fxCourseFrameReceive]
  refine whenS_false ?_
  by_contra hn
  simp only [Bool.not_eq_false, Bool.and_eq_true, decide_eq_true_eq] at hn
  exact h ⟨hn.1.1, hn.1.2, hn.2⟩

theorem LaneOn.guard (h : LaneOn s lane) : (s.start.serving && decide (crsRole s ≠ roStandalone) && s.crs.laneUp.toNat.testBit lane.val) = true := by
  rw [h.1, decide_eq_true h.2.1, h.2.2]
  rfl

theorem frame_passes (h : LaneOn s lane) (hdst : byteAt f 0 % 4 ≠ crsPos s) : fxCourseFrameReceive lane f s = emit (.frame lane.val f) s := by
  rw [fxCourseFrameReceive, whenS_true h.guard]
  exact if_pos hdst

theorem frame_malformed (h : LaneOn s lane) (hdst : byteAt f 0 % 4 = crsPos s) (hbad : ¬ FrameHere s f) : fxCourseFrameReceive lane f s = s := by
  rw [fxCourseFrameReceive, whenS_true h.guard]
  refine (if_neg (not_not_intro hdst)).trans (if_pos ?_)
  by_contra hn
  simp only [not_or, not_not, not_lt, ne_eq] at hn
  exact hbad ⟨hdst, hn⟩

/-- What becomes of a frame for this position. -/
theorem frame_here (h : LaneOn s lane) (hhere : FrameHere s f) : fxCourseFrameReceive lane f s =
    if clearType (byteAt f 1) then takeFrame (frameFrom f) (byteAt f 1) ((f.drop 16).take (frameLen f)) s
    else if (s.peer (frameFrom f).val).gkey = [] ∨ leAt f 4 4 ≠ (s.peer (frameFrom f).val).epoch ∨
        !aeadOpens 0x19 (frameKey (s.peer (frameFrom f).val).gkey (leAt f 4 4) (frameFrom f).val) (frameNonce (frameFrom f).val (frameBit f) (leAt f 8 8)) (f.take 16) (f.drop 16)
      then badFrame (frameFrom f).val (frameBit f) (byteAt f 1) 0 (leAt f 8 8) s
    else if leAt f 8 8 ≤ lastCount s f then badFrame (frameFrom f).val (frameBit f) (byteAt f 1) 1 (leAt f 8 8) s
    else takeFrame (frameFrom f) (byteAt f 1) (frameText s f)
      (if (s.peer (frameFrom f).val).silent && fromMaster s (frameFrom f).val then reAsk (modPeer (frameFrom f).val (counted f) s)
        else modPeer (frameFrom f).val (counted f) s) := by
  obtain ⟨hdst, hlen, hmax, hp⟩ := hhere
  rw [fxCourseFrameReceive, whenS_true h.guard]
  refine (if_neg (not_not_intro hdst)).trans ((if_neg ?_).trans rfl)
  rintro (hn | hn | hn)
  · exact hn hlen
  · exact absurd hmax (not_le.mpr hn)
  · exact hn hp

theorem frame_clear (h : LaneOn s lane) (hhere : FrameHere s f) (hclear : clearType (byteAt f 1) = true) :
    fxCourseFrameReceive lane f s = takeFrame (frameFrom f) (byteAt f 1) ((f.drop 16).take (frameLen f)) s := by
  rw [frame_here h hhere, if_pos hclear]

theorem frame_unopened (h : LaneOn s lane) (hhere : FrameHere s f) (hclear : clearType (byteAt f 1) = false) (hopens : ¬ FrameOpens s f) :
    fxCourseFrameReceive lane f s = badFrame (frameFrom f).val (frameBit f) (byteAt f 1) 0 (leAt f 8 8) s := by
  rw [frame_here h hhere, if_neg (by rw [hclear]; decide), if_pos]
  by_contra hn
  simp only [not_or, not_not, ne_eq, Bool.not_eq_true, Bool.not_eq_false'] at hn
  exact hopens hn

theorem FrameOpens.guard (hopens : FrameOpens s f) : ¬ ((s.peer (frameFrom f).val).gkey = [] ∨ leAt f 4 4 ≠ (s.peer (frameFrom f).val).epoch ∨
    (!aeadOpens 0x19 (frameKey (s.peer (frameFrom f).val).gkey (leAt f 4 4) (frameFrom f).val) (frameNonce (frameFrom f).val (frameBit f) (leAt f 8 8)) (f.take 16)
      (f.drop 16)) = true) := by
  rintro (hn | hn | hn)
  · exact hopens.1 hn
  · exact hn hopens.2.1
  · rw [hopens.2.2] at hn
    exact absurd hn (by decide)

theorem frame_replayed (h : LaneOn s lane) (hhere : FrameHere s f) (hclear : clearType (byteAt f 1) = false) (hopens : FrameOpens s f)
    (hcnt : leAt f 8 8 ≤ lastCount s f) : fxCourseFrameReceive lane f s = badFrame (frameFrom f).val (frameBit f) (byteAt f 1) 1 (leAt f 8 8) s := by
  rw [frame_here h hhere, if_neg (by rw [hclear]; decide), if_neg hopens.guard, if_pos hcnt]

theorem takeFrame_beat (p : Fin 4) (b : Bytes) (s : State) : takeFrame p ftBeat b s = hearBeat p.val s := by
  rw [takeFrame, if_neg (by decide), if_neg (by decide), if_neg (by decide), if_pos rfl]

/-- A BEAT of a position that this engine has not lost, or that it does not follow. -/
theorem frame_beat (h : LaneOn s lane) (hhere : FrameHere s f) (htype : byteAt f 1 = ftBeat) (hopens : FrameOpens s f) (hcnt : lastCount s f < leAt f 8 8)
    (hheard : ((s.peer (frameFrom f).val).silent && fromMaster s (frameFrom f).val) = false) :
    fxCourseFrameReceive lane f s = hearBeat (frameFrom f).val (modPeer (frameFrom f).val (counted f) s) := by
  rw [frame_here h hhere, htype, if_neg (by decide), if_neg hopens.guard, if_neg (not_le.mpr hcnt), hheard, if_neg (by decide), takeFrame_beat]

end

/-! ### Lanes, HELLO, REFORM and LEAVE as whole steps -/

section
variable {p : Nat} {b : Bytes} {s : State}

/-- The state in which a lane is up. -/
def laneRaised (l : Fin 2) (s : State) : State := modCrs (fun c => { c with laneUp := c.laneUp ||| BitVec.ofNat 2 (2 ^ l.val) }) s

theorem hearHello_as (h : Fits s p b) : CourseAs p (helloFollowed p b s) (hearHello p b s) := by
  rw [hearHello_fits h]
  split
  · exact issueStep_as true p p _
  · exact .refl p _

theorem helloFollowed_keeps (p : Nat) (b : Bytes) (s : State) : HelloAs p (helloAnswered p b s) (helloFollowed p b s) := by
  rw [helloFollowed]
  split
  · exact secondMaster_as p 1 _
  · exact (CourseAs.refl p _).hello

/-- What a HELLO tells of the peer and of the epoch is kept. -/
theorem hearHello_keeps (h : Fits s p b) : ((hearHello p b s).peer p).nonce = slice b 11 32 ∧ ((hearHello p b s).peer p).role = byteAt b 9 ∧
    (hearHello p b s).crs.forming = max s.crs.forming (leAt b 43 4) ∧ (hearHello p b s).crs.laneUp = s.crs.laneUp := by
  have hkept := helloAnswered_keeps p b s
  obtain ⟨hnonce, hsent, hforming, hlane⟩ := (helloFollowed_keeps p b s).trans (hearHello_as h).hello
  exact ⟨hnonce.trans hkept.nonce, hsent.trans hkept.sent, hforming.trans hkept.forming, hlane.trans hkept.laneUp⟩

theorem helloAnswered_pos (p : Nat) (b : Bytes) (s : State) : crsPos (helloAnswered p b s) = crsPos s ∧ crsRole (helloAnswered p b s) = crsRole s := by
  have honly := helloAnswered_only p b s
  exact ⟨crsPos_congr (honly.2 .start (by decide)) (honly.gen_eq (by decide) (by decide)), congrArg BitVec.toNat (helloAnswered_keeps p b s).role⟩

theorem hearHello_role (h : Fits s p b) (hstay : byteAt b 9 ≠ roMaster ∨ crsRole s ≠ roMaster ∨ crsPos s ≤ p) :
    (hearHello p b s).crs.role = s.crs.role := by
  refine (hearHello_as h).role.trans (Eq.trans ?_ (helloAnswered_keeps p b s).role)
  obtain ⟨hpos, hrole⟩ := helloAnswered_pos p b s
  rw [helloFollowed]
  split
  · next hmaster => exact secondMaster_role (by rw [hpos, hrole]; exact hstay.resolve_left (not_not_intro hmaster)) 1
  · rfl

/-- The first master that an elect hears is followed. -/
theorem hearHello_follows (h : Fits s p b) (hmaster : byteAt b 9 = roMaster) (hrole : crsRole s ≠ roMaster) (hheard : s.crs.heard = false) :
    (hearHello p b s).crs.master = BitVec.ofNat 2 p ∧ (hearHello p b s).crs.heard = true := by
  have hkept := helloAnswered_keeps p b s
  have hkeeps : keepsMaster p 1 (helloAnswered p b s) = false := by rw [keepsMaster, hkept.heard, hheard]; rfl
  have hfollow := secondMaster_follows (by rw [(helloAnswered_pos p b s).2]; exact hrole) hkeeps
  have has := hearHello_as h
  rw [helloFollowed, if_pos hmaster, hfollow] at has
  exact ⟨has.master, has.heard⟩

/-- Of two masters the lower position stays. -/
theorem hearHello_demotes (h : Fits s p b) (hmaster : byteAt b 9 = roMaster) (hrole : crsRole s = roMaster) (hlt : p < crsPos s) :
    (hearHello p b s).crs.role = BitVec.ofNat 2 roElect ∧ (hearHello p b s).crs.master = BitVec.ofNat 2 p ∧
      bitOf (hearHello p b s).evPend gCrsState = true ∧ ((s.peer p).formed = false → ∀ j, j ∈ (hearHello p b s).sch.jobs → j.work.purpose ≠ .pairing p) := by
  obtain ⟨hpos, hr⟩ := helloAnswered_pos p b s
  have hkept := helloAnswered_keeps p b s
  have hfollowed : helloFollowed p b s = demote p 1 (helloAnswered p b s) := by
    rw [helloFollowed, if_pos hmaster, secondMaster_demotes (hr.trans hrole) (by rw [hpos]; exact hlt)]
  have hhear : hearHello p b s = demote p 1 (helloAnswered p b s) := by
    rw [hearHello_fits h, if_neg, hfollowed]
    rw [decide_eq_false (not_not_intro hmaster), Bool.and_false]
    decide
  obtain ⟨h1, h2, -, h3⟩ := demote_facts p 1 (helloAnswered p b s)
  rw [hhear]
  exact ⟨h1, h2, h3, fun hformed => demote_jobs (hkept.formed.trans hformed)⟩

/-- The state in which the pairings of the next epoch have not begun. -/
def reforming (s : State) : State := eachN (crsOthers s) (fun p s => dropWork (.pairing p) (modPeer p (fun q => { q with step := .idle }) s))
  (modCrs (fun c => { c with forming := c.forming + 1, newKey := [] }) s)

theorem reforming_as (s : State) : (reforming s).crs.role = s.crs.role ∧ (reforming s).crs.forming = s.crs.forming + 1 := by
  have hstep (i : Nat) (x : State) : CourseAs 0 x (dropWork (.pairing i) (modPeer i (fun q => { q with step := .idle }) x)) := by
    have hidle : CourseAs 0 x (modPeer i (fun q => { q with step := .idle }) x) := .of_modPeer _ _ _ fun _ => ⟨rfl, rfl⟩
    generalize modPeer i _ x = y at hidle ⊢
    have hdrop : Only [.sch, .tiles] y (dropWork (.pairing i) y) := Only.dropWork _ _ (by decide) (Only.refl _ _)
    exact hidle.trans (.of_crs (hdrop.2 .crs (by decide)))
  have hkept := CourseAs.eachN hstep (crsOthers s) (modCrs (fun c => { c with forming := c.forming + 1, newKey := [] }) s)
  exact ⟨hkept.role, hkept.forming⟩

theorem startForming_pend {e : Nat} (h : Pend e s) : Pend e (startForming s) := by
  rw [startForming]
  split
  · exact h
  · exact Pend.eachN _ h fun i x hx => Pend.sayHello i x hx

theorem courseReform_facts (h : crsIsMaster s = true) : (courseReform s).crs.role = s.crs.role ∧ (courseReform s).crs.forming = s.crs.forming + 1 ∧
    bitOf (courseReform s).evPend gCrsState = true := by
  have hreform : courseReform s = startForming (crsState (crsRole s) (crsRole s) 6 (reforming s)) := if_neg (by rw [h]; decide)
  obtain ⟨hrole, hforming⟩ := reforming_as s
  rw [hreform]
  generalize reforming s = x at hrole hforming
  have hcrs := (crsState_keeps (crsRole s) (crsRole s) 6 x).1
  have hbit := (crsState_facts (crsRole s) (crsRole s) 6 x).2
  generalize crsState (crsRole s) (crsRole s) 6 x = y at hcrs hbit
  obtain ⟨hr, -, -, hf⟩ := startForming_facts y
  rw [hcrs, hforming] at hf
  exact ⟨by rw [hr, hcrs, hrole], hf (by omega), startForming_pend hbit⟩

/-- The course of an engine that has left. -/
def leftCourse (c : Course) : Course :=
  { c with
    role := 0, master := 0, heard := false, took := false, laneUp := 0, forming := 0, newKey := [], sendCnt := [], peers := [], blocks := [], mirror := []
    asked := [], grants := [], queue := [], credit := 0 }

theorem leaveCourse_facts (cause : Nat) (tell : Bool) (h : crsRole s ≠ roStandalone) :
    (∃ c, (leaveCourse cause tell s).crs = leftCourse c) ∧ bitOf (leaveCourse cause tell s).evPend gCrsState = true := by
  rw [leaveCourse, if_neg h]
  dsimp only
  generalize eachN _ _ _ = x
  exact ⟨⟨_, rfl⟩, (crsState_facts (crsRole s) roStandalone cause x).2⟩

end

end Sys2Proof.Machine

namespace Sys2Proof.CourseForms
open Sys2Proof.Machine

theorem lanes (l : Fin 2) (s : State) :
    (s.crs.laneUp.toNat.testBit l.val = false → exec (.courseLaneDown l) s = .next s) ∧
    (s.crs.laneUp.toNat.testBit l.val = true → ∃ t, exec (.courseLaneDown l) s = .next t ∧ Only [.crs, .evPend] s t ∧
      t.crs = { s.crs with laneUp := s.crs.laneUp &&& ~~~ BitVec.ofNat 2 (2 ^ l.val) } ∧ bitOf t.evPend gCrsLane = true) ∧
    let due := s.start.serving = true ∧ crsRole s ≠ roStandalone ∧ s.crs.laneUp.toNat.testBit l.val = false
    (¬due → exec (.courseLaneUp l) s = .next s) ∧
    (due → ∃ t, exec (.courseLaneUp l) s = .next t ∧ t.crs.laneUp = s.crs.laneUp ||| BitVec.ofNat 2 (2 ^ l.val) ∧ t.crs.role = s.crs.role ∧
      (s.crs.laneUp ≠ 0 ∨ formedPeers s ≠ [] ∨ s.eff .ownCourseXbuf = 0 → Only [.crs] s t) ∧
      (s.crs.laneUp = 0 → formedPeers s = [] → s.eff .ownCourseXbuf ≠ 0 → t.crs.forming = max 1 s.crs.forming)) := by
  refine ⟨fun h => congrArg Host.Outcome.next (whenS_false h), fun h => ⟨_, congrArg Host.Outcome.next (whenS_true h),
    Only.raiseG _ _ (by decide) (Only.modCrs _ (by decide) (Only.refl _ _)), rfl, raiseG_bit _ _ (by decide)⟩, ?_⟩
  intro due
  refine ⟨fun h => congrArg Host.Outcome.next (whenS_false ?_), fun ⟨hserving, hrole, hdown⟩ => ?_⟩
  · by_contra hn
    simp only [Bool.not_eq_false, Bool.and_eq_true, decide_eq_true_eq, Bool.not_eq_true'] at hn
    exact h ⟨hn.1.1, hn.1.2, hn.2⟩
  · have hguard : (s.start.serving && decide (crsRole s ≠ roStandalone) && !s.crs.laneUp.toNat.testBit l.val) = true := by
      rw [hserving, decide_eq_true hrole, hdown]
      rfl
    have hexec : exec (.courseLaneUp l) s = .next (if s.crs.laneUp = 0 ∧ formedPeers s = [] then startForming (laneRaised l s) else laneRaised l s) :=
      congrArg Host.Outcome.next (whenS_true hguard)
    have hlane : Only [.crs] s (laneRaised l s) := Only.modCrs _ (by decide) (Only.refl _ _)
    refine ⟨_, hexec, ?_⟩
    by_cases hfirst : s.crs.laneUp = 0 ∧ formedPeers s = []
    · rw [if_pos hfirst]
      obtain ⟨hr, hl, hforming, -⟩ := startForming_facts (laneRaised l s)
      refine ⟨hl, hr, fun h => ?_, fun _ _ hbuf => hforming hrole hbuf ?_⟩
      · rcases h with h | h | h
        · exact absurd hfirst.1 h
        · exact absurd hfirst.2 h
        · rw [startForming_waits (s := laneRaised l s) (.inr (.inl h))]
          exact hlane
      · rw [laneRaised, modCrs, hfirst.1]
        exact lane_up_ne l
    · rw [if_neg hfirst]
      exact ⟨rfl, rfl, fun _ => hlane, fun h1 h2 => absurd ⟨h1, h2⟩ hfirst⟩

theorem beats (s : State) :
    (crsRole s = roStandalone ∨ s.crs.laneUp = 0 → exec .beat s = .next s) ∧
    (crsRole s ≠ roStandalone → s.crs.laneUp ≠ 0 → crsIsMaster s = false → (s.peer s.crs.master.toNat).formed = true →
      exec .beat s = .next (sendFrame ftBeat s.crs.master.toNat [] s)) ∧
    (crsIsMaster s = true → s.crs.laneUp ≠ 0 → ∃ t, exec .beat s = .next t ∧ Only [.crs, .out] s t ∧ t.crs.peers = s.crs.peers ∧
      t.out.length = s.out.length + (formedPeers s).length) := by
  have hon (hrole : crsRole s ≠ roStandalone) (hlane : s.crs.laneUp ≠ 0) : (decide (crsRole s ≠ roStandalone) && decide (s.crs.laneUp ≠ 0)) = true := by
    rw [decide_eq_true hrole, decide_eq_true hlane]
    rfl
  refine ⟨fun h => congrArg Host.Outcome.next (whenS_false ?_), fun hrole hlane hmaster hformed => congrArg Host.Outcome.next ?_, fun hmaster hlane => ?_⟩
  · rcases h with h | h
    · rw [decide_eq_false (not_not_intro h)]
      rfl
    · rw [decide_eq_false (not_not_intro h), Bool.and_false]
  · rw [fxBeat, whenS_true (hon hrole hlane), if_neg (by rw [hmaster]; decide), if_pos hformed]
  · have hrole : crsRole s ≠ roStandalone := by
      rw [crsIsMaster_iff.mp hmaster]
      decide
    have hbeat : fxBeat s = eachN (formedPeers s) (fun p s => sendFrame ftBeat p [] s) s := by
      rw [fxBeat, whenS_true (hon hrole hlane), if_pos hmaster, sendAll]
    obtain ⟨honly, c, hc⟩ := Sends.eachN (fun i x => sendFrame_sends ftBeat i [] x) (formedPeers s) s
    exact ⟨_, congrArg Host.Outcome.next hbeat, honly, by rw [hc], eachN_out (fun i x => sendFrame_out ftBeat i [] x) _ _⟩

theorem framesSent (type dst : Nat) (payload : Bytes) (s : State) :
    let lane := laneTo s dst
    let q := s.peer dst
    let epoch := if clearType type then s.crs.forming else q.epoch
    let cnt := s.crs.sendCnt.look 0 (2 * epoch + lane) + 1
    let h := frameHeader dst (crsPos s) lane type payload.length epoch cnt
    (sendFrame type dst payload s).crs = { s.crs with sendCnt := s.crs.sendCnt.put 0 (2 * epoch + lane) cnt } ∧
    (clearType type = true → (sendFrame type dst payload s).out = s.out ++ [.frame lane (h ++ (payload ++ zeros 16))]) ∧
    (clearType type = false → (sendFrame type dst payload s).out =
      s.out ++ [.frame lane (h ++ aeadSeal 0x19 (frameKey q.gkey epoch (crsPos s)) (frameNonce (crsPos s) lane cnt) h payload)]) := by
  intro lane q epoch cnt h
  have hout : (sendFrame type dst payload s).out = s.out ++ [.frame lane (h ++ (if clearType type then payload ++ zeros 16
      else aeadSeal 0x19 (frameKey q.gkey epoch (crsPos s)) (frameNonce (crsPos s) lane cnt) h payload))] := rfl
  refine ⟨rfl, fun hclear => ?_, fun hclear => ?_⟩
  · rw [hout, if_pos hclear]
  · rw [hout, if_neg (by rw [hclear]; decide)]

theorem hellos (p : Fin 4) (m : Hello) (s : State) :
    let b := m.payload
    let fits := p.val ∈ crsOthers s ∧ crsRole s ≠ roStandalone ∧ b.length = 47 ∧ beNat (b.take 8) = (s.eff .ownCourseId).toNat ∧ byteAt b 8 = p.val ∧
      s.eff .ownCourseXbuf ≠ 0
    let parts : List Part := [.sch, .tiles, .ces, .es, .rbgs, .crs, .free] ++ recordParts
    (s.start.serving = false ∨ ¬fits → exec (.courseHello p m) s = .next s) ∧
    (s.start.serving = true → fits → ∃ t, exec (.courseHello p m) s = .next t ∧ Only parts s t ∧ (t.peer p.val).nonce = slice b 11 32 ∧
      (t.peer p.val).role = byteAt b 9 ∧ t.crs.forming = max s.crs.forming (leAt b 43 4) ∧ t.crs.laneUp = s.crs.laneUp ∧
      (byteAt b 9 = roMaster → crsRole s = roMaster → p.val < crsPos s → t.crs.role = BitVec.ofNat 2 roElect ∧ t.crs.master = BitVec.ofNat 2 p.val ∧
        bitOf t.evPend gCrsState = true ∧ ((s.peer p.val).formed = false → ∀ j, j ∈ t.sch.jobs → j.work.purpose ≠ .pairing p.val)) ∧
      (byteAt b 9 ≠ roMaster ∨ crsRole s ≠ roMaster ∨ crsPos s ≤ p.val → t.crs.role = s.crs.role) ∧
      (byteAt b 9 = roMaster → crsRole s ≠ roMaster → s.crs.heard = false → t.crs.master = BitVec.ofNat 2 p.val ∧ t.crs.heard = true)) := by
  intro b fits parts
  refine ⟨fun h => congrArg Host.Outcome.next ?_, fun hserving ⟨h1, h2, h3, h4, h5, h6⟩ => ?_⟩
  · rcases h with h | h
    · exact whenS_false h
    · by_cases hserving : s.start.serving = true
      · exact (whenS_true hserving).trans (hearHello_unfit fun hf => h ⟨hf.other, hf.role, hf.len, hf.course, hf.pos, hf.buf⟩)
      · exact whenS_false (Bool.eq_false_iff.mpr hserving)
  · have hfits : Fits s p.val b := ⟨h1, h2, h3, h4, h5, h6⟩
    have hexec : exec (.courseHello p m) s = .next (hearHello p.val b s) := congrArg Host.Outcome.next (whenS_true hserving)
    obtain ⟨hnonce, hsent, hforming, hlane⟩ := hearHello_keeps hfits
    refine ⟨_, hexec, Only.hearHello _ _ _ (by decide) (Only.refl _ _), hnonce, hsent, hforming, hlane, fun hmaster hrole hlt => ?_, hearHello_role hfits, hearHello_follows hfits⟩
    exact hearHello_demotes hfits hmaster hrole hlt

theorem agreements (p : Fin 4) (o st : Bytes) (s : State) :
    let due := s.start.serving = true ∧ (s.peer p.val).step = (if crsIsMaster s then PairStep.agreed else PairStep.hello) ∧
      (crsIsMaster s = true ∨ s.crs.heard = false ∨ s.crs.master.toNat = p.val) ∧ (crsOthers s).any (fun q => decide ((s.peer q).step = .waiting)) = false
    let a := (s.eff .ownCourseXbuf).toNat
    let b := xbufBytes p.val (o ++ st)
    (¬due → exec (.courseAgreeReceived p o st) s = .next s) ∧
    (due → check s s.gen.act none .secure .write a b.length = none → ∃ t, exec (.courseAgreeReceived p o st) s = .next t ∧ Only [.evPend, .crs, .out] s t ∧
      t.peer p.val = { s.peer p.val with step := .waiting, got := o } ∧ t.out = (emitWr a b s).out ∧ bitOf t.evPend gCrsPeer = true ∧ t.crs.role = s.crs.role) ∧
    (due → check s s.gen.act none .secure .write a b.length ≠ none → ∃ t, exec (.courseAgreeReceived p o st) s = .next t ∧ Only [.evPend, .pviol, .pvcnt] s t) := by
  intro due a b
  have hdue (h : due) : AgreeDue s p.val ∧ exec (.courseAgreeReceived p o st) s = .next (hearAgree p.val o st s) :=
    ⟨⟨h.2.1, h.2.2.1, h.2.2.2⟩, congrArg Host.Outcome.next (whenS_true h.1)⟩
  refine ⟨fun h => congrArg Host.Outcome.next ?_, fun h hcheck => ?_, fun h hcheck => ?_⟩
  · by_cases hserving : s.start.serving = true
    · exact (whenS_true hserving).trans (hearAgree_undue fun ha => h ⟨hserving, ha.step, ha.from', ha.free⟩)
    · exact whenS_false (Bool.eq_false_iff.mpr hserving)
  · obtain ⟨hagree, hexec⟩ := hdue h
    rw [hearAgree_due hagree, hcheck] at hexec
    exact ⟨_, hexec, agreeTold_facts p.val o b s⟩
  · obtain ⟨hagree, hexec⟩ := hdue h
    obtain ⟨e, he⟩ := Option.ne_none_iff_exists'.mp hcheck
    rw [hearAgree_due hagree, he] at hexec
    exact ⟨_, hexec, Only.violP _ _ _ _ _ _ _ _ (by decide) (Only.refl _ _)⟩

theorem acceptances (who : Who) (s : State) (htakes : Takes s who .ownCourseCmd 1) :
    (waitingPair s = none → exec (.courseAccept who) s = .next s) ∧
    (∀ p, waitingPair s = some p → ∃ t, exec (.courseAccept who) s = .next t ∧
      Only [.notice, .sch, .tiles, .jrn, .evPend, .pviol, .pvcnt, .crs, .out] s t ∧ t.crs.role = s.crs.role ∧ t.crs.forming = s.crs.forming ∧
      (crsIsMaster s = false → mayAttest s = false → (t.peer p).step = .idle ∧ bitOf t.evPend gCrsState = true ∧ t.jrn.seq = s.jrn.seq + 2 ∧
        t.crs.peerPos = BitVec.ofNat 2 p ∧ t.crs.peerCause = (if bitOf (s.eff .ksAttEn) (crsTen s) then 4 else 3)) ∧
      (crsIsMaster s = true ∨ mayAttest s = true → t.jrn.seq = s.jrn.seq + 1 ∧ t.peer p = { s.peer p with step := .working } ∧ t.tiles = s.tiles ∧
        (working s (.pairing p) = false → t.sch = { s.sch with
          nextId := s.sch.nextId + 1, jobs := s.sch.jobs ++ [{ id := s.sch.nextId, kind := 3, work := .pairing p .hybrid }] }))) := by
  have hexec : exec (.courseAccept who) s = .next (courseAccept s) := congrArg Host.Outcome.next (gateW_takes htakes)
  refine ⟨fun h => ?_, fun p h => ⟨_, hexec, Only.courseAccept _ (by decide) (Only.refl _ _), ?_⟩⟩
  · rw [hexec, courseAccept, h]
  · rw [courseAccept_some h]
    obtain ⟨honly, hseq, hpeer, has⟩ := accepted_facts p s
    generalize accepted p s = x at honly hseq hpeer has
    have hattest : mayAttest x = mayAttest s := mayAttest_congr (honly.2 .start (by decide)) (honly.gen_eq (by decide) (by decide)) (honly.2 .ident (by decide))
    have hkept := has.trans (issueStep_as (!crsIsMaster s) 0 p x)
    refine ⟨hkept.role, hkept.forming, fun hmaster hno => ?_, fun hdue => ?_⟩
    · rw [issueStep_stops (by rw [hmaster]; rfl) (hattest.trans hno)]
      obtain ⟨⟨hstep, hcause, hpos, hjrn⟩, hbit⟩ := formationStops_stopped p x
      refine ⟨hstep, hbit, by rw [hjrn, hseq, BitVec.add_assoc]; rfl, hpos, hcause.trans ?_⟩
      rw [stopCause_congr (honly.2 .start (by decide)) (honly.gen_eq (by decide) (by decide)), stopCause]
      split <;> rfl
    · rw [issueStep_issues (hdue.imp (fun h => by rw [h]; rfl) fun h => hattest.trans h)]
      have hsch : x.sch = s.sch := honly.2 .sch (by decide)
      have hworking : working x (.pairing p) = working s (.pairing p) := by rw [working, working, hsch]
      have htiles : x.tiles = s.tiles := honly.2 .tiles (by decide)
      cases hw : working s (.pairing p) with
      | true =>
        rw [hworking, hw]
        exact ⟨hseq, hpeer, htiles, fun h => absurd h (by decide)⟩
      | false =>
        rw [hworking, hw]
        refine ⟨hseq, hpeer, htiles, fun _ => ?_⟩
        rw [← hsch]
        rfl

theorem stepsEnd (id x p : Nat) (op : PairOp) (j : Job) (s : State) (hopen : tilesOpen s = true) (hreq : s.req id = none)
    (hjob : s.sch.jobs.find? (fun q => decide (q.id = id)) = some j) (htile : jobTile s j = some x) (_ : j.kind = 3) (hwork : j.work = .pairing p op) :
    let rest := s.sch.jobs.filter (fun q => decide (q.id ≠ id))
    let last := ∀ q, q ∈ rest → q.work.purpose ≠ .pairing p
    let signs := op = .hybrid ∧ ((s.peer p).step = .hello ∨ crsIsMaster s = false)
    (signs → ∃ t, exec (.operationEnd id 0 true .clean) s = .next t ∧ Only [.sch, .reqs, .tiles] s t ∧ t.sch = { s.sch with
      nextId := s.sch.nextId + 2
      jobs := rest ++ [{ id := s.sch.nextId, kind := 3, work := .pairing p .es384 }, { id := s.sch.nextId + 1, kind := 3, work := .pairing p .mldsa }] }) ∧
    (¬signs → ¬last → ∃ t, exec (.operationEnd id 0 true .clean) s = .next t ∧ Only [.sch, .reqs, .tiles] s t ∧ t.sch = { s.sch with jobs := rest }) ∧
    (¬signs → last → (s.peer p).step = .working → crsIsMaster s = true → ∃ t, exec (.operationEnd id 0 true .clean) s = .next t ∧
      Only ([.sch, .reqs, .tiles, .ces, .es, .rbgs, .crs, .free] ++ recordParts) s t ∧
      (t.peer p).key = pairKey s (hybFinish (s.peer p).seed (s.peer p).got (pairCtx s (crsPos s) p)) (crsPos s) p ∧
      t.crs.role = s.crs.role ∧ t.crs.forming = s.crs.forming ∧ (s.crs.newKey ≠ [] → t.crs.newKey = s.crs.newKey) ∧
      ((t.peer p).step = .accepted ∨ (t.peer p).step = .idle ∧ (t.peer p).formed = true ∧ (t.peer p).gkey = t.crs.newKey ∧ (t.peer p).epoch = s.crs.forming ∧
        bitOf t.evPend gCrsFormed = true)) ∧
    (¬signs → last → (s.peer p).step = .hello ∨ (s.peer p).step = .working ∧ crsIsMaster s = false → mayAttest s = false →
      ∃ t, exec (.operationEnd id 0 true .clean) s = .next t ∧ (t.peer p).step = .idle ∧ t.jrn.seq = s.jrn.seq + 1 ∧ t.crs.peerPos = BitVec.ofNat 2 p ∧
        t.crs.peerCause = (if bitOf (s.eff .ksAttEn) (crsTen s) then 4 else 3)) := by
  intro rest last signs
  have hend : AtJobEnd s id j x := ⟨hopen, hreq, hjob, htile⟩
  have hexec : exec (.operationEnd id 0 true .clean) s = .next (pairDone p op (jobLeft j s)) := by
    rw [hend.ends (by simp), jobDone, hwork]
  obtain ⟨honly, hsch⟩ := jobLeft_facts j s
  rw [hend.id_eq] at hsch
  generalize jobLeft j s = y at hexec honly hsch
  have hcrs : y.crs = s.crs := honly.2 .crs (by decide)
  have hstart : y.start = s.start := honly.2 .start (by decide)
  have hgen : y.gen = s.gen := honly.gen_eq (by decide) (by decide)
  have hpeer : y.peer p = s.peer p := by rw [State.peer, State.peer, hcrs]
  have hmaster : crsIsMaster y = crsIsMaster s := by rw [crsIsMaster, crsIsMaster, crsRole, crsRole, hcrs]
  have hsigns : Signs y p op ↔ signs := by rw [Signs, hpeer, hmaster]
  have hjobs : y.sch.jobs = rest := by rw [hsch]
  have hlast : working y (.pairing p) = false ↔ last := by
    rw [working, hjobs, List.any_eq_false]
    exact forall₂_congr fun q _ => by rw [decide_eq_true_eq]
  have hattest : mayAttest y = mayAttest s := mayAttest_congr hstart hgen (honly.2 .ident (by decide))
  rw [hexec]
  refine ⟨fun h => ?_, fun h hmore => ?_, fun h hno hstep hm => ?_, fun h hno hstep hnone => ?_⟩
  · rw [pairDone_signs (hsigns.mpr h)]
    refine ⟨_, rfl, Only.issueJob _ _ _ (by decide) (Only.issueJob _ _ _ (by decide) honly), ?_⟩
    rw [issueJob, issueJob, modSch, modSch, hsch]
    simp [rest]
  · rw [pairDone_goesOn (mt hsigns.mp h) (by rwa [← hlast, Bool.not_eq_false] at hmore)]
    exact ⟨_, rfl, honly, hsch⟩
  · rw [pairDone_last (mt hsigns.mp h) (hlast.mpr hno), stepEnds_finishes (by rw [hpeer, hstep]) (hmaster.trans hm)]
    have hfinish : Only [.notice, .ces, .es, .rbgs, .jrn, .evPend, .pviol, .pvcnt, .crs, .out] y (masterFinish p y) := Only.masterFinish _ _ (by decide) (Only.refl _ _)
    obtain ⟨hkey, ⟨hrole, hforming⟩, hnew, hstep⟩ := masterFinish_finishes p y
    rw [masterKey_congr hstart hgen hcrs] at hkey
    rw [hcrs] at hrole hforming hnew hstep
    exact ⟨_, rfl, (honly.mono (by decide)).trans (hfinish.mono (by decide)), hkey, hrole, hforming, hnew, hstep⟩
  · rw [pairDone_last (mt hsigns.mp h) (hlast.mpr hno), stepEnds_stops (by rw [hpeer, hmaster]; exact hstep) (hattest.trans hnone)]
    obtain ⟨⟨hidle, hcause, hpos, hseq⟩, -⟩ := formationStops_stopped p y
    rw [show y.jrn = s.jrn from honly.2 .jrn (by decide)] at hseq
    refine ⟨_, rfl, hidle, hseq, hpos, hcause.trans ?_⟩
    rw [stopCause_congr hstart hgen, stopCause]
    split <;> rfl

theorem abandons (who : Who) (s : State) :
    (waitingPair s = none → exec .coursePairingTimeout s = .next s ∧ (Takes s who .ownCourseCmd 2 → exec (.courseReject who) s = .next s)) ∧
    (∀ p, waitingPair s = some p →
      (∃ t, exec .coursePairingTimeout s = .next t ∧ Only [.notice, .sch, .tiles, .jrn, .evPend, .pviol, .pvcnt, .crs, .out] s t ∧ t.crs.peerCause = 2 ∧
        t.crs.peerPos = BitVec.ofNat 2 p ∧ (t.peer p).step = .idle ∧ bitOf t.evPend gCrsPeer = true ∧ t.jrn.seq = s.jrn.seq + 1) ∧
      (Takes s who .ownCourseCmd 2 → ∃ t, exec (.courseReject who) s = .next t ∧ Only [.notice, .sch, .tiles, .jrn, .evPend, .pviol, .pvcnt, .crs, .out] s t ∧
        t.crs.peerCause = 1 ∧ t.crs.peerPos = BitVec.ofNat 2 p ∧ (t.peer p).step = .idle ∧ bitOf t.evPend gCrsPeer = true ∧ t.jrn.seq = s.jrn.seq + 1)) := by
  have hreject (htakes : Takes s who .ownCourseCmd 2) : exec (.courseReject who) s = .next (abandon 1 s) := congrArg Host.Outcome.next (gateW_takes htakes)
  have honly (cause : Nat) : Only [.notice, .sch, .tiles, .jrn, .evPend, .pviol, .pvcnt, .crs, .out] s (abandon cause s) := Only.abandon _ _ (by decide) (Only.refl _ _)
  refine ⟨fun h => ⟨congrArg Host.Outcome.next (abandon_none 2 h), fun htakes => (hreject htakes).trans (congrArg Host.Outcome.next (abandon_none 1 h))⟩, fun p h => ⟨?_, fun htakes => ?_⟩⟩
  · obtain ⟨⟨hstep, hcause, hpos, hseq⟩, hbit⟩ := abandon_facts (cause := 2) h
    exact ⟨_, rfl, honly 2, hcause, hpos, hstep, hbit, hseq⟩
  · obtain ⟨⟨hstep, hcause, hpos, hseq⟩, hbit⟩ := abandon_facts (cause := 1) h
    exact ⟨_, hreject htakes, honly 1, hcause, hpos, hstep, hbit, hseq⟩

theorem groups (p : Fin 4) (b : Bytes) (s : State) :
    let key := (s.peer p.val).key
    let due := (s.peer p.val).step = .accepted ∧ crsIsMaster s = false ∧ aeadOpens 0x1D key (b.take 12) [] (b.drop 12) = true
    let g := aeadText 0x1D key (b.take 12) [] (b.drop 12)
    (¬due → exec (.courseGroup p b) s = .next s) ∧
    (due → ∃ t, exec (.courseGroup p b) s = .next t ∧ bitOf t.evPend gCrsFormed = true ∧ t.crs.role = s.crs.role ∧
      (∀ q, q ∈ crsOthers s → (t.peer q).gkey = g ∧ (t.peer q).epoch = s.crs.forming ∧ (t.peer q).silent = false) ∧
      (t.peer p.val).formed = true ∧ (t.peer p.val).step = .idle ∧ (s.crs.asked = [] → Only [.evPend, .crs] s t)) := by
  intro key due g
  refine ⟨fun h => congrArg Host.Outcome.next (hearGroup_undue h), fun h => ?_⟩
  obtain ⟨honly, hbit, hrole, hasked, hshare, hformed, hstep⟩ := shared_facts p.val g s
  have hexec : exec (.courseGroup p b) s = .next (reAsk (shared p.val g s)) := congrArg Host.Outcome.next (hearGroup_due h)
  rw [hexec]
  generalize shared p.val g s = x at honly hbit hrole hasked hshare hformed hstep
  obtain ⟨hpeers, hr, -⟩ := reAsk_keeps x
  refine ⟨_, rfl, Pend.reAsk _ hbit, hr.trans hrole, fun q hq => by rw [hpeers]; exact hshare q hq, by rw [hpeers, hformed], by rw [hpeers, hstep], fun hnone => ?_⟩
  exact honly.trans ((reAsk_nothing (hasked.trans hnone)).mono (by decide))

theorem mastersElected (s : State) :
    let due := s.start.serving = true ∧ s.crs.heard = false ∧ s.crs.laneUp ≠ 0 ∧ lowestElect s = true
    (¬due → exec .courseMasterTimeout s = .next s) ∧
    (due → ∃ t, exec .courseMasterTimeout s = .next t ∧ Only [.notice, .sch, .tiles, .jrn, .evPend, .pviol, .pvcnt, .crs, .out] s t ∧
      t.crs.role = BitVec.ofNat 2 roMaster ∧ t.crs.master = BitVec.ofNat 2 (crsPos s) ∧ t.crs.heard = true) := by
  intro due
  refine ⟨fun h => congrArg Host.Outcome.next (whenS_false ?_), fun ⟨hserving, hheard, hlane, hlowest⟩ => ?_⟩
  · by_contra hn
    simp only [Bool.not_eq_false, Bool.and_eq_true, decide_eq_true_eq, Bool.not_eq_true'] at hn
    obtain ⟨⟨⟨h1, h2⟩, h3⟩, h4⟩ := hn
    exact h ⟨h1, h2, h3, h4⟩
  · have hguard : (s.start.serving && !s.crs.heard && decide (s.crs.laneUp ≠ 0) && lowestElect s) = true := by
      rw [hserving, hheard, decide_eq_true hlane, hlowest]
      rfl
    have hstep (i : Nat) (x : State) : CourseAs 0 x (if (x.peer i).step = .hello ∧ (x.peer i).nonce ≠ [] then issueStep true i x else x) := by
      split
      · exact issueStep_as true 0 i x
      · exact .refl 0 x
    have hkept := CourseAs.eachN hstep (crsOthers s) (becomeMaster s)
    refine ⟨_, rfl, Only.fxCourseMasterTimeout _ (by decide) (Only.refl _ _), ?_⟩
    rw [show fxCourseMasterTimeout s = _ from whenS_true hguard]
    exact ⟨hkept.role, hkept.master, hkept.heard⟩

theorem reformsAndLeaves (who : Who) (s : State) :
    (Takes s who .ownCourseCmd 3 → crsIsMaster s = false → exec (.courseReform who) s = .next s) ∧
    (Takes s who .ownCourseCmd 3 → crsIsMaster s = true → ∃ t, exec (.courseReform who) s = .next t ∧ t.crs.role = s.crs.role ∧
      t.crs.forming = s.crs.forming + 1 ∧ bitOf t.evPend gCrsState = true ∧ Only ([.sch, .tiles, .ces, .es, .rbgs, .crs, .free] ++ recordParts) s t) ∧
    (Takes s who .ownCourseCmd 4 → crsRole s = roStandalone → exec (.courseLeave who) s = .next s) ∧
    (Takes s who .ownCourseCmd 4 → crsRole s ≠ roStandalone → ∃ t, exec (.courseLeave who) s = .next t ∧ bitOf t.evPend gCrsState = true ∧
      t.crs.role = 0 ∧ t.crs.laneUp = 0 ∧ t.crs.newKey = [] ∧ t.crs.peers = [] ∧ t.crs.blocks = [] ∧ t.crs.mirror = [] ∧ t.crs.queue = [] ∧
      Only [.notice, .tens, .sch, .reqs, .tiles, .streams, .ks, .fp, .jrn, .evPend, .pviol, .pvcnt, .crs, .out] s t) := by
  have hreform (htakes : Takes s who .ownCourseCmd 3) : exec (.courseReform who) s = .next (courseReform s) := congrArg Host.Outcome.next (gateW_takes htakes)
  have hleave (htakes : Takes s who .ownCourseCmd 4) : exec (.courseLeave who) s = .next (leaveCourse 3 true s) := congrArg Host.Outcome.next (gateW_takes htakes)
  refine ⟨fun htakes h => ?_, fun htakes h => ?_, fun htakes h => ?_, fun htakes h => ?_⟩
  · rw [hreform htakes, courseReform, if_pos (by rw [h]; rfl)]
  · obtain ⟨hrole, hforming, hbit⟩ := courseReform_facts h
    exact ⟨_, hreform htakes, hrole, hforming, hbit, Only.courseReform _ (by decide) (Only.refl _ _)⟩
  · rw [hleave htakes, leaveCourse, if_pos h]
  · obtain ⟨⟨c, hcrs⟩, hbit⟩ := leaveCourse_facts 3 true h
    refine ⟨_, hleave htakes, hbit, ?_⟩
    rw [hcrs]
    exact ⟨rfl, rfl, rfl, rfl, rfl, rfl, rfl, Only.leaveCourse _ _ _ (by decide) (Only.refl _ _)⟩

/-- Settles O58, by the equation of each step of a pairing, and by what the frames, the records and the generator leave of the course. -/
theorem courseForms : Obligations.CourseForms := by
  refine ⟨lanes, beats, framesSent, hellos, agreements, acceptances, stepsEnd, abandons, groups, mastersElected, reformsAndLeaves, fun lane f s => ?_⟩
  intro p bit q len on here opens bad
  have hbad {kind : Nat} (h : fxCourseFrameReceive lane f s = badFrame p.val bit (byteAt f 1) kind (leAt f 8 8) s) : bad :=
    ⟨_, congrArg Host.Outcome.next h, badFrame_facts _ _ _ _ _ s⟩
  have hpeer : (modPeer p.val (counted f) s).peer p.val = counted f q := modPeer_peer_same _ _ _
  refine ⟨fun h => congrArg Host.Outcome.next (frame_off h), fun hon h => congrArg Host.Outcome.next (frame_passes hon h),
    fun hon h hno => congrArg Host.Outcome.next (frame_malformed hon h hno), fun hon hhere htype => ?_, fun hon hhere htype => ?_,
    fun hon hhere hclear hno => hbad (frame_unopened hon hhere hclear hno), fun hon hhere hclear hopens hcnt => hbad (frame_replayed hon hhere hclear hopens hcnt),
    fun hon hhere htype hopens hcnt hsilent hrole => ?_, fun hon hhere htype hopens hcnt hsent hrole => ?_⟩
  · have htake := frame_clear hon hhere (by rw [htype]; decide)
    rw [htype, takeFrame, if_pos rfl] at htake
    exact congrArg Host.Outcome.next (htake.trans (whenS_true hon.1).symm)
  · have htake := frame_clear hon hhere (by rw [htype]; decide)
    rw [htype, takeFrame, if_neg (by decide), if_neg (by decide), if_pos rfl] at htake
    exact congrArg Host.Outcome.next htake
  · have hheard : ((s.peer (frameFrom f).val).silent && fromMaster s (frameFrom f).val) = false := by
      rw [show (s.peer (frameFrom f).val).silent = false from hsilent]
      rfl
    have hbeat : hearBeat p.val (modPeer p.val (counted f) s) = modPeer p.val (counted f) s := by
      rw [hearBeat, hpeer]
      rcases hrole with h | h
      · exact if_neg h
      · split
        · exact if_pos (.inl h)
        · rfl
    refine ⟨_, congrArg Host.Outcome.next ((frame_beat hon hhere htype hopens hcnt hheard).trans hbeat), Only.modPeer _ _ (by decide) (Only.refl _ _), ?_,
      fun r hr => modPeer_peer_ne _ _ hr⟩
    rw [hpeer, counted, ← hsilent]
    rfl
  · have hheard : ((s.peer (frameFrom f).val).silent && fromMaster s (frameFrom f).val) = false := by
      rw [fromMaster, crsIsMaster_iff.mpr hrole]
      simp
    have hbeat : hearBeat p.val (modPeer p.val (counted f) s) = secondMaster p.val 1 (modPeer p.val (counted f) s) := by
      rw [hearBeat, hpeer, if_pos (show (counted f q).role = roMaster from hsent)]
      exact hearMaster_hears hhere.2.2.2 fun h => h.1 hrole
    have hexec : exec (.courseFrameReceive lane f) s = .next (secondMaster p.val 1 (modPeer p.val (counted f) s)) :=
      congrArg Host.Outcome.next ((frame_beat hon hhere htype hopens hcnt hheard).trans hbeat)
    refine ⟨fun hlt => ⟨_, hexec, ?_⟩, fun hle => ⟨_, hexec, ?_⟩⟩
    · rw [secondMaster_demotes (s := modPeer p.val (counted f) s) hrole hlt]
      obtain ⟨hr, hm, -, hbit⟩ := demote_facts p.val 1 (modPeer p.val (counted f) s)
      exact ⟨hr, hm, hbit⟩
    · exact secondMaster_role (s := modPeer p.val (counted f) s) (.inr hle) 1

end Sys2Proof.CourseForms
end

section
/-!
The moves of a trowel program (R302, R309 to R311, R321, R325, R330): what a move leaves of its channel while it goes, where it stops, and its end;
the bytes of a MOVE.
-/

namespace Sys2Proof.Machine

/-! ### A channel in the course of a move -/

/-- A channel that has come further with a move, the rest of it as it was. -/
def Progress (c c' : Chan) : Prop :=
  ∃ i0 i1 i2 L w p0 p1 hv up mv, c' = { c with
    i0 := i0, i1 := i1, i2 := i2, lines := L, wrote := w, port0 := p0, port1 := p1, heldTag := hv, unitPrev := up, moved := mv }

theorem Progress.refl (c : Chan) : Progress c c := ⟨_, _, _, _, _, _, _, _, _, _, rfl⟩

theorem Progress.trans {c c' d : Chan} (h : Progress c c') (g : Progress c' d) : Progress c d := by
  obtain ⟨_, _, _, _, _, _, _, _, _, _, rfl⟩ := h
  obtain ⟨_, _, _, _, _, _, _, _, _, _, rfl⟩ := g
  exact ⟨_, _, _, _, _, _, _, _, _, _, rfl⟩

/-- What a move leaves of its channel. -/
theorem Progress.keeps {c c' : Chan} (h : Progress c c') : c'.st = c.st ∧ c'.held = c.held ∧ c'.prog = c.prog ∧ c'.fetching = c.fetching ∧ KeepsCourse c' c := by
  obtain ⟨_, _, _, _, _, _, _, _, _, _, rfl⟩ := h
  exact ⟨rfl, rfl, rfl, rfl, ⟨rfl, rfl, rfl, rfl, rfl⟩⟩

/-- A move of channel k has come further. -/
structure MoveAt (k : Nat) (s x : State) : Prop where
  only : Only [.sch, .dcs, .out] s x
  others : OtherDcs k s x
  chan : Progress (s.dc k) (x.dc k)

section
variable {k : ChanIx} {s x y t : State} {b : Bytes}

theorem MoveAt.refl (k : Nat) (s : State) : MoveAt k s s := ⟨Only.refl _ _, fun _ _ => rfl, .refl _⟩

theorem MoveAt.trans {k : Nat} (h : MoveAt k s x) (g : MoveAt k x y) : MoveAt k s y :=
  ⟨h.only.trans g.only, fun j hj => (g.others j hj).trans (h.others j hj), h.chan.trans g.chan⟩

theorem AtChan.moveAt {k : Nat} {c : Chan} (h : AtChan k c s x) (hc : Progress (s.dc k) c) : MoveAt k s x :=
  ⟨h.only.mono (by decide), h.others, h.chan ▸ hc⟩

theorem MoveAt.start {k : Nat} (h : MoveAt k s x) : x.start = s.start ∧ x.gen = s.gen := ⟨h.only.2 .start (by decide), h.only.gen_eq (by decide) (by decide)⟩

theorem MoveAt.ten {k : Nat} (h : MoveAt k s x) : dcTen x k = dcTen s k := dcTen_congr k h.start.1 h.start.2

/-- The channel has had its turn, at the start of a move under the active generation. -/
def moveStart (k : Nat) (fresh : Prop) [Decidable fresh] (s : State) : State := dcServed k (if fresh then dcTag k s else s)

theorem dcTag_at (k : Nat) (s : State) : MoveAt k s (dcTag k s) :=
  AtChan.moveAt (AtChan.modDc (fun c => { c with heldTag := s.gen.active, unitPrev := false, moved := 0 }) s) ⟨_, _, _, _, _, _, _, _, _, _, rfl⟩

theorem dcMoved_at (k n : Nat) (s : State) : MoveAt k s (dcMoved k n s) := by
  obtain ⟨_, _, _, h⟩ := dcMoved_chan (k := k) n s
  exact h.moveAt ⟨_, _, _, _, _, _, _, _, _, _, rfl⟩

theorem dcServed_at (k : Nat) (s : State) : MoveAt k s (dcServed k s) := ⟨Only.modSch _ (by decide) (Only.refl _ _), fun _ _ => rfl, .refl _⟩

theorem dcWrote_at (k a l : Nat) (s : State) : MoveAt k s (dcWrote k a l s) := by
  obtain ⟨honly, hothers, p0, p1, hdc⟩ := dcWrote_chan (k := k) a l s
  exact ⟨honly.mono (by decide), hothers, ⟨_, _, _, _, _, _, _, _, _, _, hdc⟩⟩

theorem moveStart_at (k : Nat) (fresh : Prop) [Decidable fresh] (s : State) : MoveAt k s (moveStart k fresh s) := by
  rw [moveStart]
  refine MoveAt.trans ?_ (dcServed_at k _)
  split
  · exact dcTag_at k s
  · exact .refl k s

theorem MoveAt.emitted {k : Nat} (honly : Only [.out] s x) (hdc : ∀ j, x.dc j = s.dc j) : MoveAt k s x :=
  ⟨honly.mono (by decide), fun j _ => hdc j, by rw [hdc]; exact .refl _⟩

/-! ### The end of a move (R330) -/

/-- Where a move stops or goes on behind its start. -/
theorem MoveAt.goesOn {d : Nat} {p : Chan} (h : MoveAt k.val s x) (hsteps : StepsTo x t k.val d p) :
    Only (.sch :: chanParts) s t ∧ OtherDcs k.val s t ∧ GoesOn s t k.val d ∧ (t.dc k.val).prog = { p with desc := d } := by
  obtain ⟨honly, hothers, hgoes, hprog⟩ := hsteps
  obtain ⟨-, -, -, -, hcourse⟩ := h.chan.keeps
  have hlen : (x.dc k.val).itemLen = (s.dc k.val).itemLen := congrArg (fun w => if bitOf w 0 then 16 else 48) hcourse.cfg
  refine ⟨(h.only.mono (by decide)).trans (honly.mono (by decide)), fun j hj => (hothers j hj).trans (h.others j hj),
    hgoes.of h.start.1 h.start.2 ?_ hcourse.pref hcourse.credit ?_ hlen, hprog⟩
  · rw [Chan.count, Chan.count, hcourse.dcount]
  · rw [Chan.itemAddr, Chan.itemAddr, hlen, hcourse.dbase]

/-- A move stops: its program and where it has come stay. -/
structure StopsMove (k : Nat) (s x t : State) (st detail : Nat) : Prop where
  only : Only (.sch :: chanParts) s t
  others : OtherDcs k s t
  stopped : ChanStopped s t k st detail
  prog : (t.dc k).prog = (s.dc k).prog
  i0 : (t.dc k).i0 = (x.dc k).i0
  i1 : (t.dc k).i1 = (x.dc k).i1
  i2 : (t.dc k).i2 = (x.dc k).i2

theorem MoveAt.stops {k : Nat} (h : MoveAt k s x) (st detail a : Nat) (d : Dir) (cause : Nat) : StopsMove k s x (dcStop k st detail a d cause x) st detail := by
  obtain ⟨honly, hchn, hstopped, h0, h1, h2, -⟩ := dcStop_facts k st detail a d cause x
  obtain ⟨-, -, hprog, -⟩ := h.chan.keeps
  exact ⟨(h.only.mono (by decide)).trans (honly.mono (by decide)), fun j hj => (hchn.1 j hj).trans (h.others j hj), hstopped.of_ten h.ten, hchn.2.1.trans hprog, h0, h1, h2⟩

/-- A violation is kept, and the move stops. -/
theorem MoveAt.violates {k : Nat} (h : MoveAt k s x) (st detail a : Nat) (d : Dir) (cause : Nat) :
    StopsMove k s x (dcStop k st detail a d cause (dcViol k a d cause x)) st detail := by
  have hviol : Only [.tens] x (dcViol k a d cause x) := Only.dcViol _ _ _ _ _ (by decide) (Only.refl _ _)
  have hdc (j : Nat) := dcViol_dc k j a d cause x
  generalize dcViol k a d cause x = v at hviol hdc ⊢
  obtain ⟨honly, hchn, hstopped, h0, h1, h2, -⟩ := dcStop_facts k st detail a d cause v
  obtain ⟨-, -, hprog, -⟩ := h.chan.keeps
  have hten : dcTen v k = dcTen s k := (dcTen_congr k (hviol.2 .start (by decide)) (hviol.gen_eq (by decide) (by decide))).trans h.ten
  refine ⟨(h.only.mono (by decide)).trans ((hviol.mono (by decide)).trans (honly.mono (by decide))), fun j hj => (hchn.1 j hj).trans ((hdc j).trans (h.others j hj)),
    hstopped.of_ten hten, hchn.2.1.trans ((congrArg Chan.prog (hdc k)).trans hprog), ?_, ?_, ?_⟩
  · rw [h0, hdc]
  · rw [h1, hdc]
  · rw [h2, hdc]

/-- The registers after INCS or INCD of a move. -/
def incReg (r n : Nat) (on : Bool) (A : Tbl (BitVec 48)) : Tbl (BitVec 48) := if on then A.put 0 r (BitVec.ofNat 48 ((A.look 0 r).toNat + n)) else A

theorem tInc_fits {r n : Nat} {on : Bool} (h : on = true → ((x.dc k.val).aregs.look 0 r).toNat + n < 2 ^ 48) :
    AtChan k.val { x.dc k.val with aregs := incReg r n on (x.dc k.val).aregs } x (tInc k r n on x) := by
  cases on with
  | false => exact AtChan.refl _ _
  | true =>
    rw [tInc, if_pos rfl, if_neg (by rw [tA]; have := h rfl; omega)]
    exact AtChan.modDc (fun c => { c with aregs := c.aregs.put 0 r (BitVec.ofNat 48 (tA x k r + n)) }) x

/-- INCS and INCD stay within 0 to 2^48 - 1. -/
def IncFits (b : Bytes) (ns nd : Nat) (A : Tbl (BitVec 48)) : Prop :=
  ((tF b).testBit 0 = true → (A.look 0 (tRa b)).toNat + ns < 2 ^ 48) ∧
    ((tF b).testBit 1 = true → ((incReg (tRa b) ns ((tF b).testBit 0) A).look 0 (tRb b)).toNat + nd < 2 ^ 48)

/-- The registers behind a move. -/
def incRegs (b : Bytes) (ns nd : Nat) (A : Tbl (BitVec 48)) : Tbl (BitVec 48) :=
  incReg (tRb b) nd ((tF b).testBit 1) (incReg (tRa b) ns ((tF b).testBit 0) A)

theorem tMoveEnd_steps {ns nd : Nat} (hst : (x.dc k.val).st = .running) (hf : (x.dc k.val).fetching = false) (h : IncFits b ns nd (x.dc k.val).aregs) :
    StepsTo x (tMoveEnd k b ns nd x) k.val ((x.dc k.val).desc + 1) { (x.dc k.val).prog with aregs := incRegs b ns nd (x.dc k.val).aregs } := by
  have h1 := tInc_fits (k := k) (x := x) h.1
  rw [tMoveEnd]
  generalize tInc k (tRa b) ns ((tF b).testBit 0) x = y at h1 ⊢
  have h2 := tInc_fits (k := k) (x := y) (r := tRb b) (n := nd) (on := (tF b).testBit 1) (by rw [h1.chan]; exact h.2)
  dsimp only
  rw [if_neg (by rw [h1.chan, hst]; decide)]
  generalize tInc k (tRb b) nd ((tF b).testBit 1) y = z at h2 ⊢
  rw [h1.chan] at h2
  rw [if_neg (by rw [h2.chan, hst]; decide), tNext]
  have hsteps := dcGoto_steps (s := x) (x := z) (k := k) ((z.dc k.val).desc + 1) (by rw [h2.chan]; exact hf) (h1.only.trans h2.only) (by decide)
    (fun j hj => (h2.others j hj).trans (h1.others j hj)) (by rw [h2.chan]; exact ⟨rfl, rfl, rfl, rfl, rfl⟩)
  rw [h2.chan] at hsteps ⊢
  exact hsteps

/-- A move that has come to its end goes on at the next instruction. -/
theorem MoveAt.ends {ns nd : Nat} (h : MoveAt k.val s x) (hst : (s.dc k.val).st = .running) (hf : (s.dc k.val).fetching = false)
    (hfits : IncFits b ns nd (s.dc k.val).aregs) :
    Only (.sch :: chanParts) s (tMoveEnd k b ns nd x) ∧ OtherDcs k.val s (tMoveEnd k b ns nd x) ∧ GoesOn s (tMoveEnd k b ns nd x) k.val ((s.dc k.val).desc + 1) ∧
      ((tMoveEnd k b ns nd x).dc k.val).prog = { (s.dc k.val).prog with desc := (s.dc k.val).desc + 1, aregs := incRegs b ns nd (s.dc k.val).aregs } := by
  obtain ⟨h1, -, h3, h4, -⟩ := h.chan.keeps
  have hdesc : (x.dc k.val).prog.desc = (s.dc k.val).prog.desc := congrArg Chan.desc h3
  have haregs : (x.dc k.val).prog.aregs = (s.dc k.val).prog.aregs := congrArg Chan.aregs h3
  change (x.dc k.val).desc = (s.dc k.val).desc at hdesc
  change (x.dc k.val).aregs = (s.dc k.val).aregs at haregs
  have hsteps := tMoveEnd_steps (k := k) (x := x) (b := b) (ns := ns) (nd := nd) (h1.trans hst) (h4.trans hf) (by rw [haregs]; exact hfits)
  rw [hdesc, haregs, h3] at hsteps
  exact h.goesOn hsteps

/-! ### A check fails within its access -/

theorem check_range {c : Content} {n : Option TenantIx} {w : World} {d : Dir} {a l fa cause : Nat} (h : check s c n w d a l = some (fa, cause)) : a ≤ fa ∧ fa < a + l := by
  rw [check] at h
  obtain ⟨i, hi, hfa⟩ := List.exists_of_findSome?_eq_some h
  obtain ⟨e, -, he⟩ := Option.map_eq_some_iff.mp hfa
  have hlt := List.mem_range.mp hi
  have hfa : a + i = fa := congrArg Prod.fst he
  omega

/-! ### MOVE (R330) -/

/-- The state in which the bytes of a run that pass are copied. -/
def moveCopied (k : ChanIx) (b data : Bytes) (n : Nat) (s x : State) : State :=
  if n = 0 then x else dcMoved k.val n (tSetOff k ((s.dc k.val).off + n)
    (tCopy k (((s.dc k.val).aregs.look 0 (tRa b)).toNat + (s.dc k.val).off) (((s.dc k.val).aregs.look 0 (tRb b)).toNat + (s.dc k.val).off) (data.take n) x))

theorem foldl_only_out {α : Type} {f : State → α → State} (hf : ∀ x a, Only [.out] x (f x a) ∧ ∀ j, (f x a).dc j = x.dc j) (l : List α) (x : State) :
    Only [.out] x (l.foldl f x) ∧ ∀ j, (l.foldl f x).dc j = x.dc j :=
  List.foldlRecOn (motive := fun (y : State) => Only [.out] x y ∧ ∀ j, y.dc j = x.dc j) l f ⟨Only.refl _ _, fun _ => rfl⟩
    fun y hy a _ => ⟨hy.1.trans (hf y a).1, fun j => ((hf y a).2 j).trans (hy.2 j)⟩

theorem foldl_out_congr {α : Type} {f : State → α → State} (hf : ∀ (x y : State) a, x.out = y.out → (f x a).out = (f y a).out) (l : List α) {x y : State} (h : x.out = y.out) :
    (l.foldl f x).out = (l.foldl f y).out := by
  induction l generalizing x y with
  | nil => exact h
  | cons a l ih => exact ih (hf x y a h)

/-- The reads of a run of bytes, and the writes of it. -/
def runReads (a n : Nat) (s : State) : State := (runs64 a n).foldl (fun s p => emitRd p.1 p.2 s) s
def runWrites (a : Nat) (data : Bytes) (s : State) : State := (runs64 a data.length).foldl (fun s p => emitWr p.1 (slice data (p.1 - a) p.2) s) s

theorem runReads_out (a n : Nat) (s : State) : Only [.out] s (runReads a n s) ∧ ∀ j, (runReads a n s).dc j = s.dc j :=
  foldl_only_out (f := fun s (p : Nat × Nat) => emitRd p.1 p.2 s) (fun x _ => ⟨Only.emitRd _ _ _ (by decide) (Only.refl _ _), fun j => emitRd_dc j _ _ x⟩) _ s

theorem runWrites_out (a : Nat) (data : Bytes) (s : State) : Only [.out] s (runWrites a data s) ∧ ∀ j, (runWrites a data s).dc j = s.dc j :=
  foldl_only_out (f := fun s (p : Nat × Nat) => emitWr p.1 (slice data (p.1 - a) p.2) s) (fun x _ => ⟨Only.emitWr _ _ _ (by decide) (Only.refl _ _), fun j => emitWr_dc j _ _ x⟩) _ s

theorem runReads_out_congr (a n : Nat) (h : x.out = y.out) : (runReads a n x).out = (runReads a n y).out :=
  foldl_out_congr (f := fun s (p : Nat × Nat) => emitRd p.1 p.2 s) (fun x y p h => emitRd_out2 p.1 p.2 x y h) _ h

theorem runWrites_out_congr (a : Nat) (data : Bytes) (h : x.out = y.out) : (runWrites a data x).out = (runWrites a data y).out :=
  foldl_out_congr (f := fun s (p : Nat × Nat) => emitWr p.1 (slice data (p.1 - a) p.2) s) (fun _ _ p h => emitWr_out_congr p.1 _ h) _ h

theorem tCopy_eq (k : ChanIx) (sa da : Nat) (data : Bytes) (s : State) : tCopy k sa da data s =
    modDc k.val (fun c => { c with wrote := some [c.i2, c.i1, c.i0] }) (dcWrote k.val da data.length (runWrites da data (runReads sa data.length s))) := rfl

theorem tCopy_at (k : ChanIx) (sa da : Nat) (data : Bytes) (s : State) :
    MoveAt k.val s (tCopy k sa da data s) ∧ (tCopy k sa da data s).out = (runWrites da data (runReads sa data.length s)).out := by
  obtain ⟨hr, hrdc⟩ := runReads_out sa data.length s
  obtain ⟨hw, hwdc⟩ := runWrites_out da data (runReads sa data.length s)
  have hx : MoveAt k.val s (runWrites da data (runReads sa data.length s)) := .emitted (hr.trans hw) fun j => (hwdc j).trans (hrdc j)
  rw [tCopy_eq]
  generalize runWrites da data (runReads sa data.length s) = x at hx
  have hy := dcWrote_at k.val da data.length x
  have hout : (dcWrote k.val da data.length x).out = x.out := (dcWrote_chan (k := k.val) da data.length x).1.2 .out (by decide)
  refine ⟨(hx.trans hy).trans ?_, hout⟩
  exact AtChan.moveAt (AtChan.modDc (fun c => { c with wrote := some [c.i2, c.i1, c.i0] }) _) ⟨_, _, _, _, _, _, _, _, _, _, rfl⟩

theorem tSetOff_at (k : ChanIx) (o : Nat) (s : State) : MoveAt k.val s (tSetOff k o s) ∧ ((tSetOff k o s).dc k.val).off = o := by
  refine ⟨AtChan.moveAt (AtChan.modDc (fun c => { c with i0 := o % 65536, i1 := o / 65536 }) s) ⟨_, _, _, _, _, _, _, _, _, _, rfl⟩, ?_⟩
  rw [tSetOff, modDc_dc_same, Chan.off]
  exact Nat.mod_add_div o 65536

theorem dcMoved_off (k : ChanIx) (n : Nat) (s : State) : ((dcMoved k.val n s).dc k.val).off = (s.dc k.val).off := by
  obtain ⟨_, _, _, h⟩ := dcMoved_chan (k := k.val) n s
  rw [h.chan]
  rfl

theorem moveCopied_at {data : Bytes} (n : Nat) (h : MoveAt k.val s x) (hoff : (x.dc k.val).off = (s.dc k.val).off) :
    MoveAt k.val s (moveCopied k b data n s x) ∧ ((moveCopied k b data n s x).dc k.val).off = (s.dc k.val).off + n := by
  rw [moveCopied]
  split
  · next hn => exact ⟨h, by rw [hoff, hn]; rfl⟩
  · obtain ⟨hcopy, -⟩ := tCopy_at k (((s.dc k.val).aregs.look 0 (tRa b)).toNat + (s.dc k.val).off) (((s.dc k.val).aregs.look 0 (tRb b)).toNat + (s.dc k.val).off) (data.take n) x
    generalize tCopy k _ _ (data.take n) x = y at hcopy ⊢
    obtain ⟨hset, ho⟩ := tSetOff_at k ((s.dc k.val).off + n) y
    generalize tSetOff k ((s.dc k.val).off + n) y = z at hset ho ⊢
    exact ⟨h.trans (hcopy.trans (hset.trans (dcMoved_at k.val n z))), (dcMoved_off k n z).trans ho⟩

theorem moveStart_off (fresh : Prop) [Decidable fresh] (k : ChanIx) (s : State) : ((moveStart k.val fresh s).dc k.val).off = (s.dc k.val).off := by
  have hserved (x : State) : (dcServed k.val x).dc k.val = x.dc k.val := rfl
  rw [moveStart, hserved]
  split
  · rw [dcTag, modDc_dc_same]
    rfl
  · rfl

/-- The checks of a move are those of its start. -/
theorem moveStart_check (fresh : Prop) [Decidable fresh] (k : Nat) (s : State) (d : Dir) (a l : Nat) :
    dcCheck (moveStart k fresh s) k d a l = dcCheck (if fresh then dcTag k s else s) k d a l := rfl

theorem moveStart_out (fresh : Prop) [Decidable fresh] (k : Nat) (s : State) : (moveStart k fresh s).out = s.out := by
  have hserved (x : State) : (dcServed k x).out = x.out := rfl
  rw [moveStart, hserved]
  split <;> rfl

/-! ### What becomes of a MOVE -/

section
variable {data : Bytes}

/-- A MOVE of which the next run of bytes may be moved. -/
structure MoveDue (s : State) (k : ChanIx) (b data : Bytes) : Prop where
  at' : AtOp s k 0x04 b
  place : (s.dc k.val).place = true ∨ (s.dc k.val).needsPlace = false
  turn : dcTurn s k.val = true
  len : data.length ≤ tI32 b - (s.dc k.val).off
  room : data.length ≤ 4096 - (s.dc k.val).moved % 4096

/-- Addresses of the next byte on the two sides. -/
def moveSrc (s : State) (k : ChanIx) (b : Bytes) : Nat := ((s.dc k.val).aregs.look 0 (tRa b)).toNat + (s.dc k.val).off
def moveDst (s : State) (k : ChanIx) (b : Bytes) : Nat := ((s.dc k.val).aregs.look 0 (tRb b)).toNat + (s.dc k.val).off

/-- The state in which a move starts, and the checks of its next bytes. -/
def moveFrom (s : State) (k : ChanIx) : State := moveStart k.val ((s.dc k.val).off = 0) s
def badRead (s : State) (k : ChanIx) (b data : Bytes) : Option (Nat × Nat) := dcCheck (moveFrom s k) k.val .read (moveSrc s k b) data.length
def badWrite (s : State) (k : ChanIx) (b data : Bytes) : Option (Nat × Nat) := dcCheck (moveFrom s k) k.val .write (moveDst s k b) data.length

/-- The bytes that are moved before a check fails. -/
def movedBytes (s : State) (k : ChanIx) (b data : Bytes) : Nat :=
  min (tRoom (badRead s k b data) (moveSrc s k b) data.length) (tRoom (badWrite s k b data) (moveDst s k b) data.length)

/-- A write that fails stops the move. -/
def writeStops (k : ChanIx) (x : State) (e : Nat × Nat) : State := dcStop k.val stAccess 0x02 e.1 .write e.2 (dcViol k.val e.1 .write e.2 x)

theorem fxMove_waits (h : AtOp s k 0x04 b) (hno : ((s.dc k.val).place = false ∧ (s.dc k.val).needsPlace = true) ∨ dcTurn s k.val = false) : fxMove k data s = s := by
  rw [fxMove, tRun_at h]
  refine whenS_false ?_
  rcases hno with ⟨h1, h2⟩ | h1
  · rw [h1, h2]
    rfl
  · rw [h1, Bool.and_false, Bool.false_and]

/-- The next run of a MOVE. -/
theorem fxMove_due (h : MoveDue s k b data) (hdata : 0 < data.length ∨ tI32 b ≤ (s.dc k.val).off) : fxMove k data s =
    if tI32 b ≤ (s.dc k.val).off then tMoveEnd k b (tI32 b) (tI32 b) (moveFrom s k)
    else if 2 ^ 48 < tA s k (tRa b) + tI32 b ∨ 2 ^ 48 < tA s k (tRb b) + tI32 b then dcUnsup k.val 0x82 (moveFrom s k)
    else (badRead s k b data).elim
      ((badWrite s k b data).elim
        (if (s.dc k.val).off + movedBytes s k b data = tI32 b then tMoveEnd k b (tI32 b) (tI32 b) (moveCopied k b data (movedBytes s k b data) s (moveFrom s k))
          else moveCopied k b data (movedBytes s k b data) s (moveFrom s k))
        (writeStops k (moveCopied k b data (movedBytes s k b data) s (moveFrom s k))))
      fun r => if r.1 = moveSrc s k b + movedBytes s k b data
        then dcStop k.val stAccess 0x01 r.1 .read r.2 (dcViol k.val r.1 .read r.2 (moveCopied k b data (movedBytes s k b data) s (moveFrom s k)))
        else (badWrite s k b data).elim (moveCopied k b data (movedBytes s k b data) s (moveFrom s k))
          (writeStops k (moveCopied k b data (movedBytes s k b data) s (moveFrom s k))) := by
  have hplace : ((s.dc k.val).place || !(s.dc k.val).needsPlace) = true := by rcases h.place with h | h <;> rw [h] <;> simp
  rw [fxMove, tRun_at h.at']
  dsimp only
  rw [whenS_true (by rw [hplace, h.turn, decide_eq_true ⟨h.len, hdata, h.room⟩]; rfl)]
  refine congrArg (ite _ _) (congrArg (ite _ _) ?_)
  have hread : dcCheck (dcServed k.val (if (s.dc k.val).off = 0 then dcTag k.val s else s)) k.val .read (tA s k (tRa b) + (s.dc k.val).off) data.length =
    badRead s k b data := rfl
  have hwrite : dcCheck (dcServed k.val (if (s.dc k.val).off = 0 then dcTag k.val s else s)) k.val .write (tA s k (tRb b) + (s.dc k.val).off) data.length =
    badWrite s k b data := rfl
  rw [hread, hwrite, movedBytes]
  generalize badRead s k b data = r
  generalize badWrite s k b data = w
  cases r with
  | none =>
    cases w with
    | none => rfl
    | some w => rfl
  | some r =>
    cases w with
    | none => rfl
    | some w => rfl

/-- Where the first byte that fails is one that is read. -/
theorem movedBytes_read {fa cause : Nat} (hr : badRead s k b data = some (fa, cause))
    (hw : ∀ wa cw, badWrite s k b data = some (wa, cw) → fa - moveSrc s k b ≤ wa - moveDst s k b) :
    movedBytes s k b data = fa - moveSrc s k b ∧ fa = moveSrc s k b + movedBytes s k b data := by
  have hrange := check_range hr
  have hmoved : movedBytes s k b data = fa - moveSrc s k b := by
    rw [movedBytes, hr]
    cases h : badWrite s k b data with
    | none =>
      dsimp only [tRoom]
      omega
    | some w =>
      have := hw w.1 w.2 h
      dsimp only [tRoom]
      omega
  exact ⟨hmoved, by omega⟩

/-- Where the first byte that fails is one that is written. -/
theorem movedBytes_write {wa cw : Nat} (hw : badWrite s k b data = some (wa, cw))
    (hr : ∀ fa cause, badRead s k b data = some (fa, cause) → wa - moveDst s k b < fa - moveSrc s k b) : movedBytes s k b data = wa - moveDst s k b := by
  have hrange := check_range hw
  rw [movedBytes, hw]
  cases h : badRead s k b data with
  | none =>
    dsimp only [tRoom]
    omega
  | some r =>
    have := hr r.1 r.2 h
    dsimp only [tRoom]
    omega

theorem movedBytes_all (hr : badRead s k b data = none) (hw : badWrite s k b data = none) : movedBytes s k b data = data.length := by
  rw [movedBytes, hr, hw]
  exact min_self _

/-- A read that fails stops the MOVE at the first byte that is not written. -/
theorem fxMove_readStops {fa cause : Nat} (h : MoveDue s k b data) (hoff : (s.dc k.val).off < tI32 b) (hdata : 0 < data.length)
    (hext : ¬ (2 ^ 48 < tA s k (tRa b) + tI32 b ∨ 2 ^ 48 < tA s k (tRb b) + tI32 b)) (hr : badRead s k b data = some (fa, cause))
    (hw : ∀ wa cw, badWrite s k b data = some (wa, cw) → fa - moveSrc s k b ≤ wa - moveDst s k b) :
    StopsMove k.val s (moveCopied k b data (fa - moveSrc s k b) s (moveFrom s k)) (fxMove k data s) stAccess 0x01 := by
  obtain ⟨hmoved, hfa⟩ := movedBytes_read hr hw
  have hcopied := (moveCopied_at (b := b) (data := data) (fa - moveSrc s k b) (moveStart_at k.val ((s.dc k.val).off = 0) s) (moveStart_off _ k s)).1
  rw [fxMove_due h (.inl hdata), if_neg (not_le.mpr hoff), if_neg hext, hr, Option.elim_some, if_pos hfa, hmoved]
  exact hcopied.violates _ _ _ _ _

/-- A write that fails before any read stops the MOVE there. -/
theorem fxMove_writeStops {wa cw : Nat} (h : MoveDue s k b data) (hoff : (s.dc k.val).off < tI32 b) (hdata : 0 < data.length)
    (hext : ¬ (2 ^ 48 < tA s k (tRa b) + tI32 b ∨ 2 ^ 48 < tA s k (tRb b) + tI32 b)) (hw : badWrite s k b data = some (wa, cw))
    (hr : ∀ fa cause, badRead s k b data = some (fa, cause) → wa - moveDst s k b < fa - moveSrc s k b) :
    StopsMove k.val s (moveCopied k b data (wa - moveDst s k b) s (moveFrom s k)) (fxMove k data s) stAccess 0x02 := by
  have hmoved := movedBytes_write hw hr
  have hcopied := (moveCopied_at (b := b) (data := data) (wa - moveDst s k b) (moveStart_at k.val ((s.dc k.val).off = 0) s) (moveStart_off _ k s)).1
  have hstops : fxMove k data s = writeStops k (moveCopied k b data (wa - moveDst s k b) s (moveFrom s k)) (wa, cw) := by
    rw [fxMove_due h (.inl hdata), if_neg (not_le.mpr hoff), if_neg hext, hw, hmoved]
    cases hbad : badRead s k b data with
    | none => rfl
    | some r =>
      have hlt := hr r.1 r.2 hbad
      have hrange := check_range hbad
      rw [Option.elim_some, if_neg (by omega)]
      rfl
  rw [hstops]
  exact hcopied.violates _ _ _ _ _

/-- The bytes that are moved go to their place. -/
theorem moveCopied_out (hdata : data.length ≠ 0) : (moveCopied k b data data.length s (moveFrom s k)).out =
    (runWrites (moveDst s k b) data (runReads (moveSrc s k b) data.length s)).out := by
  obtain ⟨-, hcopy⟩ := tCopy_at k (moveSrc s k b) (moveDst s k b) data (moveFrom s k)
  rw [moveCopied, if_neg hdata, List.take_length]
  have hrest (n : Nat) (x : State) : (dcMoved k.val data.length (tSetOff k n x)).out = x.out := by
    obtain ⟨_, _, _, h⟩ := dcMoved_chan (k := k.val) data.length (tSetOff k n x)
    exact h.only.2 .out (by decide)
  rw [hrest]
  exact hcopy.trans (runWrites_out_congr _ _ (runReads_out_congr _ _ (moveStart_out _ _ _)))

end

end

end Sys2Proof.Machine

namespace Sys2Proof.TrowelMoves
open Sys2Proof.Machine

theorem moves (k : ChanIx) (b data : Bytes) (s : State) (h : AtOp s k 0x04 b) :
    let c := s.dc k.val
    let l := tI32 b
    let s0 := if c.off = 0 then dcTag k.val s else s
    let a := (c.aregs.look 0 (tRa b)).toNat
    let d := (c.aregs.look 0 (tRb b)).toNat
    let sa := a + c.off
    let da := d + c.off
    let badR := dcCheck s0 k.val .read sa data.length
    let badW := dcCheck s0 k.val .write da data.length
    let a1 := if (tF b).testBit 0 then c.aregs.put 0 (tRa b) (BitVec.ofNat 48 (a + l)) else c.aregs
    let a2 := if (tF b).testBit 1 then a1.put 0 (tRb b) (BitVec.ofNat 48 ((a1.look 0 (tRb b)).toNat + l)) else a1
    let fits := ((tF b).testBit 0 = true → a + l < 2 ^ 48) ∧ ((tF b).testBit 1 = true → (a1.look 0 (tRb b)).toNat + l < 2 ^ 48)
    let ends := ∃ t, exec (.move k data) s = .next t ∧ Only (.sch :: chanParts) s t ∧ OtherDcs k.val s t ∧ GoesOn s t k.val (c.desc + 1) ∧
      (t.dc k.val).prog = { c.prog with desc := c.desc + 1, aregs := a2 }
    let stops := fun (st detail : Nat) (o : Nat) => ∃ t, exec (.move k data) s = .next t ∧ Only (.sch :: chanParts) s t ∧ OtherDcs k.val s t ∧
      ChanStopped s t k.val st detail ∧ (t.dc k.val).off = o ∧ (t.dc k.val).prog = c.prog
    ((c.place = false ∧ c.needsPlace = true) ∨ dcTurn s k.val = false → exec (.move k data) s = .next s) ∧
    ((c.place = true ∨ c.needsPlace = false) → dcTurn s k.val = true → data.length ≤ l - c.off → data.length ≤ 4096 - c.moved % 4096 →
      (l ≤ c.off → fits → ends) ∧
      (0 < data.length → (2 ^ 48 < a + l ∨ 2 ^ 48 < d + l) → stops stUnsupported 0x82 c.off) ∧
      (0 < data.length → a + l ≤ 2 ^ 48 → d + l ≤ 2 ^ 48 →
        (∀ fa cause, badR = some (fa, cause) → (∀ wa cw, badW = some (wa, cw) → fa - sa ≤ wa - da) → stops stAccess 0x01 (c.off + (fa - sa))) ∧
        (∀ wa cw, badW = some (wa, cw) → (∀ fa cause, badR = some (fa, cause) → wa - da < fa - sa) → stops stAccess 0x02 (c.off + (wa - da))) ∧
        (badR = none → badW = none → c.off + data.length < l → ∃ t, exec (.move k data) s = .next t ∧ Only [.sch, .dcs, .out] s t ∧ OtherDcs k.val s t ∧
          t.out = ((runs64 da data.length).foldl (fun s p => emitWr p.1 (slice data (p.1 - da) p.2) s)
            ((runs64 sa data.length).foldl (fun s p => emitRd p.1 p.2 s) s)).out ∧ (t.dc k.val).st = .running ∧ (t.dc k.val).held = some b ∧
          (t.dc k.val).off = c.off + data.length ∧ (t.dc k.val).prog = c.prog) ∧
        (badR = none → badW = none → c.off + data.length = l → fits → ends))) := by
  intro c l s0 a d sa da badR badW a1 a2 fits ends stops
  refine ⟨fun hno => congrArg Host.Outcome.next (fxMove_waits h hno), fun hplace hturn hlen hroom => ?_⟩
  have hdue : MoveDue s k b data := ⟨h, hplace, hturn, hlen, hroom⟩
  have hst : c.st = .running := h.2.1
  have hfrom : MoveAt k.val s (moveFrom s k) := moveStart_at k.val (c.off = 0) s
  have hoff : ((moveFrom s k).dc k.val).off = c.off := moveStart_off _ k s
  have hcopied := moveCopied_at (b := b) (data := data) data.length hfrom hoff
  have hend {x : State} (hx : MoveAt k.val s x) (hexec : fxMove k data s = tMoveEnd k b l l x) (hf : fits) : ends :=
    ⟨_, congrArg Host.Outcome.next hexec, hx.ends hst h.fetch hf⟩
  have hstop {x : State} {st detail o : Nat} (hx : StopsMove k.val s x (fxMove k data s) st detail) (ho : (x.dc k.val).off = o) : stops st detail o :=
    ⟨_, rfl, hx.only, hx.others, hx.stopped, by rw [← ho, Chan.off, hx.i0, hx.i1]; rfl, hx.prog⟩
  refine ⟨fun hle => hend hfrom ?_, fun hdata hext => hstop (x := moveFrom s k) ?_ hoff, fun hdata ha hd => ?_⟩
  · rw [fxMove_due hdue (.inr hle)]
    exact if_pos hle
  · rw [fxMove_due hdue (.inl hdata), if_neg (show ¬ l ≤ c.off by omega)]
    exact (congrArg (fun t => StopsMove k.val s (moveFrom s k) t stUnsupported 0x82) (if_pos hext)).mpr (hfrom.stops _ _ _ _ _)
  · have hlt : c.off < l := by omega
    have hext : ¬ (2 ^ 48 < tA s k (tRa b) + tI32 b ∨ 2 ^ 48 < tA s k (tRb b) + tI32 b) := not_or.mpr ⟨not_lt.mpr ha, not_lt.mpr hd⟩
    refine ⟨fun fa cause hr hw => hstop (fxMove_readStops hdue hlt hdata hext hr hw) (moveCopied_at _ hfrom hoff).2,
      fun wa cw hw hr => hstop (fxMove_writeStops hdue hlt hdata hext hw hr) (moveCopied_at _ hfrom hoff).2, fun hr hw hmore => ?_, fun hr hw hall => hend hcopied.1 ?_⟩
    · have hexec : fxMove k data s = moveCopied k b data data.length s (moveFrom s k) := by
        rw [fxMove_due hdue (.inl hdata), if_neg (not_le.mpr hlt), if_neg hext, show badRead s k b data = none from hr, show badWrite s k b data = none from hw,
          Option.elim_none, Option.elim_none, movedBytes_all hr hw]
        exact if_neg (ne_of_lt hmore)
      obtain ⟨hst', hheld, hprog, -, -⟩ := hcopied.1.chan.keeps
      exact ⟨_, congrArg Host.Outcome.next hexec, hcopied.1.only, hcopied.1.others, moveCopied_out (by omega), hst'.trans hst, hheld.trans h.2.2.2.1, hcopied.2, hprog⟩
    · rw [fxMove_due hdue (.inl hdata), if_neg (not_le.mpr hlt), if_neg hext, show badRead s k b data = none from hr, show badWrite s k b data = none from hw,
        Option.elim_none, Option.elim_none, movedBytes_all hr hw]
      exact if_pos hall

end Sys2Proof.TrowelMoves
end

section
/-!
The samples of an XMOVE (R309 to R311, R321, R325, R330): what becomes of the lines of a channel while its samples join them, and of an XMOVE that stops,
goes on or ends, with the statement O48.
-/

namespace Sys2Proof.Machine

/-! ### An access passes where its bytes do -/

theorem check_none_iff {s : State} {c : Content} {n : Option TenantIx} {w : World} {d : Dir} {a l : Nat} : check s c n w d a l = none ↔
    ∀ i, i < l → judgeByte (candidates s c n) n.isNone (defmapGrants s c) w d (a + i) = none := by
  rw [check, List.findSome?_eq_none_iff]
  simp

/-- An access of the channel passes under the active generation. -/
def Passes (s : State) (k : Nat) (d : Dir) (a l : Nat) : Prop := check s s.gen.act (some (dcTen s k)) (dcWorld s k) d a l = none

theorem passes_append {s : State} {k : Nat} {d : Dir} {a l m : Nat} : Passes s k d a (l + m) ↔ Passes s k d a l ∧ Passes s k d (a + l) m := by
  simp only [Passes, check_none_iff]
  refine ⟨fun h => ⟨fun i hi => h i (by omega), fun i hi => ?_⟩, fun ⟨hl, hm⟩ i hi => ?_⟩
  · have := h (l + i) (by omega)
    rwa [← Nat.add_assoc] at this
  · by_cases hlt : i < l
    · exact hl i hlt
    · have := hm (i - l) (by omega)
      rwa [show a + l + (i - l) = a + i by omega] at this

theorem emitWr_appends (a : Nat) (b : Bytes) (s : State) : ∃ w, (emitWr a b s).out = s.out ++ w := by
  rw [emitWr]
  refine List.foldlRecOn (motive := fun (x : State) => ∃ w, x.out = s.out ++ w) _ _ ⟨[], (List.append_nil _).symm⟩ fun x ⟨w, hw⟩ q _ => ?_
  exact ⟨_, (congrArg (· ++ _) hw).trans (List.append_assoc _ _ _)⟩

/-! ### A channel that gathers samples -/

/-- A move of channel k has come further, under the active generation. -/
structure XAt (k : Nat) (s y : State) : Prop where
  at' : MoveAt k s y
  prev : (y.dc k).unitPrev = false

/-- A write has stopped the move of channel k. -/
structure WriteStopped (k : Nat) (s z : State) : Prop where
  only : Only (.sch :: chanParts) s z
  others : OtherDcs k s z
  stopped : ChanStopped s z k stAccess 0x02

section
variable {k : Nat} {s y z : State} {L : List GLine} {o : List Out}

theorem XAt.check (h : XAt k s y) (d : Dir) (a l : Nat) : dcCheck y k d a l = none ↔ Passes s k d a l := by
  have hworld : dcWorld y k = dcWorld s k := by
    rw [dcWorld, dcWorld, State.eff, State.eff, State.word, State.word, h.at'.start.1, h.at'.start.2]
  rw [dcCheck, h.prev, check_congr h.at'.start.1, h.at'.ten, hworld, show y.rules false = y.gen.act from rfl, h.at'.start.2]
  rfl

theorem Gathered.moveAt (h : Gathered k y z L o) : MoveAt k y z := by
  obtain ⟨_, _, _, hdc⟩ := h.chan
  exact ⟨h.only.mono (by decide), h.others, ⟨_, _, _, _, _, _, _, _, _, _, hdc⟩⟩

theorem XAt.gathered (h : XAt k s y) (g : Gathered k y z L o) : XAt k s z := by
  obtain ⟨_, _, _, hdc⟩ := g.chan
  exact ⟨h.at'.trans g.moveAt, by rw [hdc]; exact h.prev⟩

theorem XAt.dcMoved (h : XAt k s y) (n : Nat) : XAt k s (Machine.dcMoved k n y) := by
  refine ⟨h.at'.trans (dcMoved_at k n y), ?_⟩
  rw [Machine.dcMoved]
  split
  · rw [dcTag, modDc_dc_same]
  · rw [modDc_dc_same]
    exact h.prev

theorem XAt.modI2 (h : XAt k s y) (f : Nat) : XAt k s (modDc k (fun c => { c with i2 := f }) y) := by
  have hset := AtChan.modDc (k := k) (fun c => { c with i2 := f }) y
  exact ⟨h.at'.trans (hset.moveAt ⟨_, _, _, _, _, _, _, _, _, _, rfl⟩), by rw [hset.chan]; exact h.prev⟩

theorem XAt.writeStops (h : XAt k s y) {a : Nat} {b : Bytes} (r : List Nat) (hbad : ¬ Passes s k .write a b.length) : WriteStopped k s (dcWrite k a b r y) := by
  obtain ⟨honly, hothers, hstopped, -⟩ := dcWrite_stops (k := k) (y := y) (a := a) (b := b) r (mt (h.check _ _ _).mp hbad)
  exact ⟨(h.at'.only.mono (by decide)).trans (honly.mono (by decide)), fun j hj => (hothers j hj).trans (h.at'.others j hj), hstopped.of_ten h.at'.ten⟩

/-- A line of the channel passes its check. -/
def LineOk (s : State) (k : Nat) (g : GLine) : Prop := Passes s k .write g.addr g.data.length

/-- Among some lines is one that fails its check, alone in its stream. -/
def HasBad (s : State) (k : Nat) (L : List GLine) : Prop := ∃ g ∈ L, ¬ LineOk s k g ∧ ∀ h ∈ L, h.key = g.key → h = g

/-! ### What becomes of the lines when bytes join them -/

/-- Bytes that fail may have joined; a failing line stays, and where all pass, all pass. -/
structure Joined (k : Nat) (s y z : State) (fine : Prop) (L : List GLine) (o : List Out) : Prop where
  gathered : Gathered k y z L o
  out : ∃ w, o = y.out ++ w
  ok : fine → (∀ g ∈ (y.dc k).lines, LineOk s k g) → ∀ g ∈ L, LineOk s k g
  bad : ¬ fine → HasBad s k L
  keeps : HasBad s k (y.dc k).lines → HasBad s k L

/-- What a gather leads to: the bytes join, or a write stops the channel where not everything passes. -/
def JoinsOrStops (k : Nat) (s y z : State) (fine : Prop) : Prop :=
  (∃ L o, Joined k s y z fine L o) ∨ (WriteStopped k s z ∧ ¬ (fine ∧ ∀ g ∈ (y.dc k).lines, LineOk s k g))

variable {key addr : Nat} {data : Bytes} {g : GLine}

theorem mem_otherLines {c : Chan} {h : GLine} : h ∈ otherLines key c ↔ h ∈ c.lines ∧ h.key ≠ key := by
  rw [otherLines, List.mem_filter, bne_iff_ne]

theorem find_key (h : (y.dc k).lines.find? (fun g => g.key = key) = some g) : g ∈ (y.dc k).lines ∧ g.key = key :=
  ⟨List.mem_of_find?_eq_some h, of_decide_eq_true (List.find?_some (p := fun g : GLine => decide (g.key = key)) h)⟩

/-- A line that fails stays with the lines of the other streams, or is the one of this stream. -/
theorem hasBad_others (hbad : HasBad s k (y.dc k).lines) (hthis : ∀ g, (y.dc k).lines.find? (fun g => g.key = key) = some g → LineOk s k g) {new : List GLine}
    (hnew : ∀ g ∈ new, g.key = key) : HasBad s k (otherLines key (y.dc k) ++ new) := by
  obtain ⟨g, hg, hfails, halone⟩ := hbad
  have hkey : g.key ≠ key := by
    intro hk
    cases hfind : (y.dc k).lines.find? (fun g => g.key = key) with
    | none => exact absurd hk (of_decide_eq_false (Bool.eq_false_iff.mpr (List.find?_eq_none.mp hfind g hg)))
    | some h =>
      obtain ⟨hh, hhk⟩ := find_key hfind
      exact hfails (halone h hh (hhk.trans hk.symm) ▸ hthis h hfind)
  refine ⟨g, List.mem_append_left _ (mem_otherLines.mpr ⟨hg, hkey⟩), hfails, fun h hh hk => ?_⟩
  rcases List.mem_append.mp hh with hh | hh
  · exact halone h (mem_otherLines.mp hh).1 hk
  · exact absurd (hk.symm.trans (hnew h hh)) hkey

/-- A new line that fails is alone in its stream. -/
theorem hasBad_new {c : Chan} (hkey : g.key = key) (hfails : ¬ LineOk s k g) : HasBad s k (otherLines key c ++ [g]) := by
  refine ⟨g, List.mem_append_right _ (List.mem_singleton.mpr rfl), hfails, fun h hh hk => ?_⟩
  rcases List.mem_append.mp hh with hh | hh
  · exact absurd (hk.trans hkey) (mem_otherLines.mp hh).2
  · exact List.mem_singleton.mp hh

theorem ok_others (hok : ∀ g ∈ (y.dc k).lines, LineOk s k g) {c : Chan} (hc : c = y.dc k) (hg : LineOk s k g) : ∀ h ∈ otherLines key c ++ [g], LineOk s k h := by
  subst hc
  intro h hh
  rcases List.mem_append.mp hh with hh | hh
  · exact hok h (mem_otherLines.mp hh).1
  · exact List.mem_singleton.mp hh ▸ hg

theorem otherLines_none (h : (y.dc k).lines.find? (fun g => g.key = key) = none) : otherLines key (y.dc k) = (y.dc k).lines := by
  rw [otherLines, List.filter_eq_self]
  intro g hg
  rw [bne_iff_ne]
  exact of_decide_eq_false (Bool.eq_false_iff.mpr (List.find?_eq_none.mp h g hg))

theorem lineOf_ok {c : Chan} : LineOk s k (lineOf key addr data c) ↔ Passes s k .write addr data.length := Iff.rfl

theorem grown_ok (hnext : g.addr + g.data.length = addr) :
    LineOk s k { g with data := g.data ++ data } ↔ LineOk s k g ∧ Passes s k .write addr data.length := by
  rw [LineOk, LineOk, List.length_append, passes_append, hnext]

theorem not_all (hg : g ∈ (y.dc k).lines) {fine : Prop} (hbad : ¬ (LineOk s k g ∧ fine)) : ¬ (fine ∧ ∀ g ∈ (y.dc k).lines, LineOk s k g) :=
  fun ⟨hfine, hall⟩ => hbad ⟨hall g hg, hfine⟩

/-- Bytes begin a line. -/
theorem joins_new (hnone : (y.dc k).lines.find? (fun g => g.key = key) = none) (hlen : data.length < 64) :
    JoinsOrStops k s y (dcGather k key addr data y) (Passes s k .write addr data.length) := by
  have hgather := gather_begins (k := k) (y := y) (addr := addr) hnone hlen
  have hlines := otherLines_none hnone
  rw [← hlines] at hgather
  refine .inl ⟨_, _, hgather, ⟨[], (List.append_nil _).symm⟩, fun hfine hall => ok_others hall rfl hfine, fun hfails => hasBad_new rfl hfails,
    fun hbad => hasBad_others hbad (fun g hg => ?_) fun g hg => List.mem_singleton.mp hg ▸ rfl⟩
  rw [hnone] at hg
  exact absurd hg (by simp)

/-- Bytes join the line of their stream. -/
theorem joins_line (h : XAt k s y) (hsome : (y.dc k).lines.find? (fun g => g.key = key) = some g) (hnext : g.addr + g.data.length = addr)
    (hlen : g.data.length + data.length ≤ 64) : JoinsOrStops k s y (dcGather k key addr data y) (Passes s k .write addr data.length) := by
  obtain ⟨hg, hkey⟩ := find_key hsome
  have hgrown := grown_ok (s := s) (k := k) (data := data) hnext
  rcases Nat.lt_or_eq_of_le hlen with hlt | hfull
  · have hgather := gather_grows (k := k) (y := y) hsome hnext hlt
    refine .inl ⟨_, _, hgather, ⟨[], (List.append_nil _).symm⟩, fun hfine hall => ok_others hall rfl (hgrown.mpr ⟨hall g hg, hfine⟩),
      fun hfails => hasBad_new hkey fun hok => hfails (hgrown.mp hok).2, fun hbad => ?_⟩
    by_cases hok : LineOk s k g
    · refine hasBad_others hbad (fun h hh => ?_) fun h hh => List.mem_singleton.mp hh ▸ hkey
      rw [hsome] at hh
      exact Option.some.inj hh ▸ hok
    · exact hasBad_new hkey fun hgrow => hok (hgrown.mp hgrow).1
  · have hlength : (g.data ++ data).length = 64 := by rw [List.length_append, hfull]
    by_cases hok : LineOk s k { g with data := g.data ++ data }
    · have hpass : dcCheck y k .write g.addr 64 = none := by
        rw [h.check, ← hlength]
        exact hok
      have hgather := gather_fills (k := k) (y := y) hsome hnext hfull hpass
      obtain ⟨w, hw⟩ := emitWr_appends g.addr (g.data ++ data) y
      refine .inl ⟨_, _, hgather, ⟨w, hw⟩, fun _ hall x hx => hall x (mem_otherLines.mp hx).1, fun hfails => absurd (hgrown.mp hok).2 hfails, fun hbad => ?_⟩
      have hrest := hasBad_others (new := []) hbad (key := key) (fun h hh => ?_) (fun h hh => absurd hh (by simp))
      · rwa [List.append_nil] at hrest
      · rw [hsome] at hh
        exact Option.some.inj hh ▸ (hgrown.mp hok).1
    · have htake := takeLine_gathered (k := k) (y := y) key
      refine .inr ⟨?_, not_all hg fun hboth => hok (hgrown.mpr hboth)⟩
      rw [dcGather_joins hsome ⟨hnext, hlen⟩, lineOut_full (le_of_eq hlength.symm)]
      exact (h.gathered htake).writeStops _ hok

/-- Bytes that are not contiguous with the line of their stream send it out. -/
theorem joins_apart (h : XAt k s y) (hst : (y.dc k).st = .running) (hsome : (y.dc k).lines.find? (fun g => g.key = key) = some g)
    (hapart : ¬ (g.addr + g.data.length = addr ∧ g.data.length + data.length ≤ 64)) (hlen : data.length < 64) :
    JoinsOrStops k s y (dcGather k key addr data y) (Passes s k .write addr data.length) := by
  obtain ⟨hg, hkey⟩ := find_key hsome
  by_cases hok : LineOk s k g
  · have hgather := gather_replaces (k := k) (y := y) hsome hapart hlen ((h.check _ _ _).mpr hok) hst
    refine .inl ⟨_, _, hgather, emitWr_appends _ _ _, fun hfine hall => ok_others hall rfl hfine, fun hfails => hasBad_new rfl hfails,
      fun hbad => hasBad_others hbad (fun h hh => ?_) fun h hh => List.mem_singleton.mp hh ▸ rfl⟩
    rw [hsome] at hh
    exact Option.some.inj hh ▸ hok
  · have hstops := (h.gathered (takeLine_gathered (k := k) (y := y) key)).writeStops (earliest (y.dc k)) hok
    refine .inr ⟨?_, not_all hg fun hboth => hok hboth.1⟩
    rw [dcGather_apart hsome hapart rfl, if_pos hstops.stopped.1]
    exact hstops

/-- The bytes of a sample join a line, or a write stops the channel. -/
theorem dcGather_joins_or_stops (h : XAt k s y) (hst : (y.dc k).st = .running) (hlen : data.length < 64) :
    JoinsOrStops k s y (dcGather k key addr data y) (Passes s k .write addr data.length) := by
  cases hfind : (y.dc k).lines.find? (fun g => g.key = key) with
  | none => exact joins_new hfind hlen
  | some g =>
    by_cases hjoins : g.addr + g.data.length = addr ∧ g.data.length + data.length ≤ 64
    · exact joins_line h hfind hjoins.1 hjoins.2
    · exact joins_apart h hst hfind hjoins hlen

/-! ### Lines go out (R311) -/

theorem dropLine_gathered (L : List GLine) : Gathered k y (dropLine k L y) L y.out := by
  obtain ⟨honly, hothers, hdc⟩ := AtChan.modDc (k := k) (fun c => { c with lines := L }) y
  exact ⟨honly.mono (by decide), hothers, ⟨_, _, _, hdc⟩, modDc_out _ _ _⟩

/-- One line goes out. -/
theorem lineLeaves {l : List GLine} (hok : dcCheck y k .write g.addr g.data.length = none) :
    Gathered k y (dcWrite k g.addr g.data (earliest (y.dc k)) (dropLine k l y)) l (emitWr g.addr g.data y).out := by
  have hdrop := dropLine_gathered (k := k) (y := y) l
  have hwrite := dcWrite_issues (k := k) (y := dropLine k l y) (earliest (y.dc k)) ((hdrop.check _ _ _).trans hok)
  rw [hdrop.lines] at hwrite
  exact (hdrop.trans hwrite).out_congr (emitWr_out_of hdrop)

/-- Lines that pass go out, all of them. -/
theorem dcFlush_passes (n : Nat) (h : XAt k s y) (hst : (s.dc k).st = .running) (hn : (y.dc k).lines.length ≤ n) (hall : ∀ g ∈ (y.dc k).lines, LineOk s k g) :
    ∃ w, Gathered k y (dcFlush k n y) [] (y.out ++ w) := by
  induction n generalizing y with
  | zero =>
    have hnil := List.length_eq_zero_iff.mp (Nat.le_zero.mp hn)
    exact ⟨[], by rw [List.append_nil, ← hnil]; exact Gathered.refl k y⟩
  | succ n ih =>
    cases hlines : (y.dc k).lines with
    | nil => exact ⟨[], by rw [dcFlush_none _ hlines, List.append_nil, ← hlines]; exact Gathered.refl k y⟩
    | cons g l =>
      rw [hlines] at hn hall
      have hrun : (y.dc k).st ≠ .stopped := by rw [h.at'.chan.keeps.1, hst]; decide
      have hleaves := lineLeaves (k := k) (y := y) (l := l) ((h.check _ _ _).mpr (hall g (List.mem_cons_self ..)))
      rw [dcFlush_cons n hlines hrun]
      generalize dcWrite k g.addr g.data (earliest (y.dc k)) (dropLine k l y) = z at hleaves ⊢
      obtain ⟨w, hw⟩ := emitWr_appends g.addr g.data y
      rw [List.length_cons] at hn
      obtain ⟨v, hv⟩ := ih (h.gathered hleaves) (by rw [hleaves.lines]; omega) (by rw [hleaves.lines]; exact fun x hx => hall x (List.mem_cons_of_mem _ hx))
      exact ⟨w ++ v, (hleaves.trans hv).out_congr (by rw [hleaves.out, hw, List.append_assoc])⟩

/-- A line that fails stops the channel. -/
theorem dcFlush_stops (n : Nat) (h : XAt k s y) (hst : (s.dc k).st = .running) (hn : (y.dc k).lines.length ≤ n) (hbad : ∃ g ∈ (y.dc k).lines, ¬ LineOk s k g) :
    WriteStopped k s (dcFlush k n y) := by
  induction n generalizing y with
  | zero =>
    obtain ⟨g, hg, -⟩ := hbad
    rw [List.length_eq_zero_iff.mp (Nat.le_zero.mp hn)] at hg
    exact absurd hg (by simp)
  | succ n ih =>
    cases hlines : (y.dc k).lines with
    | nil =>
      obtain ⟨g, hg, -⟩ := hbad
      rw [hlines] at hg
      exact absurd hg (by simp)
    | cons g l =>
      rw [hlines] at hn hbad
      have hrun : (y.dc k).st ≠ .stopped := by rw [h.at'.chan.keeps.1, hst]; decide
      rw [dcFlush_cons n hlines hrun]
      by_cases hok : LineOk s k g
      · have hleaves := lineLeaves (k := k) (y := y) (l := l) ((h.check _ _ _).mpr hok)
        generalize dcWrite k g.addr g.data (earliest (y.dc k)) (dropLine k l y) = z at hleaves ⊢
        rw [List.length_cons] at hn
        refine ih (h.gathered hleaves) (by rw [hleaves.lines]; omega) ?_
        obtain ⟨x, hx, hfails⟩ := hbad
        rcases List.mem_cons.mp hx with rfl | hx
        · exact absurd hok hfails
        · exact ⟨x, by rw [hleaves.lines]; exact hx, hfails⟩
      · have hstops := (h.gathered (dropLine_gathered (k := k) (y := y) l)).writeStops (earliest (y.dc k)) hok
        rw [dcFlush_stopped _ hstops.stopped.1]
        exact hstops

end

/-! ### The samples of an XMOVE (R310, R330) -/

/-- Addresses and converted bytes of the sample j from frame f0 on. -/
def sampleSrc (x : BitVec 13) (a : Nat) (p : Int) (f0 j : Nat) : Nat := (xSrc x a p (f0 + j / xNch x) (j % xNch x)).toNat
def sampleDst (x : BitVec 13) (d : Nat) (p : Int) (f0 j : Nat) : Nat := (xDst x d p (f0 + j / xNch x) (j % xNch x)).toNat
def sampleOut (x : BitVec 13) (data : Bytes) (j : Nat) : Bytes := convSample (xOut x) (xIbe x) (xObe x) (slice data (j * xIn x) (xIn x))

theorem sampleOut_length (x : BitVec 13) (data : Bytes) (j : Nat) : (sampleOut x data j).length = xOut x := by
  have hfit (b : Bytes) : (fit (xOut x) b).length = xOut x := by
    rw [fit, List.length_take, List.length_append, zeros, List.length_replicate]
    omega
  rw [sampleOut, convSample]
  split
  · exact hfit _
  · rw [List.length_reverse, hfit]

theorem xOut_short (x : BitVec 13) : xOut x < 64 := by
  rw [xOut]
  omega

theorem xNch_pos (x : BitVec 13) : 0 < xNch x := Nat.succ_pos _

/-- Consecutive samples of an interleaved target are contiguous. -/
theorem sampleDst_flat {x : BitVec 13} (h : xMode x ≠ 2) (d : Nat) (p : Int) (f0 j : Nat) : sampleDst x d p f0 j = d + (f0 * xNch x + j) * xOut x := by
  have hj : (f0 + j / xNch x) * xNch x + j % xNch x = f0 * xNch x + j := by
    rw [Nat.add_mul, Nat.add_assoc, Nat.div_add_mod']
  rw [sampleDst, xDst, if_neg h, hj]
  omega

/-- The first n samples join their lines. -/
def samples (k : ChanIx) (x : BitVec 13) (d : Nat) (p : Int) (f0 : Nat) (data : Bytes) (n : Nat) (y : State) : State :=
  eachN (List.range n) (fun j => xSample k x (sampleDst x d p f0 j) (f0 + j / xNch x) (j % xNch x) (slice data (j * xIn x) (xIn x))) y

section
variable {k : ChanIx} {s y z : State} {x : BitVec 13} {d : Nat} {p : Int} {f0 : Nat} {data : Bytes}

theorem samples_succ (n : Nat) : samples k x d p f0 data (n + 1) y =
    xSample k x (sampleDst x d p f0 n) (f0 + n / xNch x) (n % xNch x) (slice data (n * xIn x) (xIn x)) (samples k x d p f0 data n y) := by
  rw [samples, samples, eachN, eachN, List.range_succ, List.foldl_append]
  rfl

/-- The stream that a sample joins. -/
def streamOf (x : BitVec 13) (ch : Nat) : Nat := if xMode x = 2 then ch else 0

/-- A sample that joins its line. -/
def sampleJoined (k : ChanIx) (x : BitVec 13) (f0 : Nat) (data : Bytes) (n a : Nat) (y : State) : State :=
  dcGather k.val (streamOf x (n % xNch x)) a (sampleOut x data n) (modDc k.val (fun c => { c with i2 := f0 + n / xNch x }) y)

theorem xSample_stopped {da f ch : Nat} {b : Bytes} (h : (y.dc k.val).st = .stopped) : xSample k x da f ch b y = y := if_pos h

theorem xSample_eq {n a : Nat} (h : (y.dc k.val).st ≠ .stopped) : xSample k x a (f0 + n / xNch x) (n % xNch x) (slice data (n * xIn x) (xIn x)) y =
    if ((sampleJoined k x f0 data n a y).dc k.val).st = .stopped then sampleJoined k x f0 data n a y
    else dcMoved k.val (xOut x) (sampleJoined k x f0 data n a y) := if_neg h

theorem dcMoved_lines (k n : Nat) (y : State) : ((dcMoved k n y).dc k).lines = (y.dc k).lines ∧ (dcMoved k n y).out = y.out := by
  obtain ⟨_, _, _, h⟩ := dcMoved_chan (k := k) n y
  exact ⟨by rw [h.chan], h.only.2 .out (by decide)⟩

/-- A sample has joined its line. -/
structure Sampled (k : Nat) (s y z : State) (fine : Prop) : Prop where
  at' : XAt k s z
  out : ∃ w, z.out = y.out ++ w
  ok : fine → (∀ g ∈ (y.dc k).lines, LineOk s k g) → ∀ g ∈ (z.dc k).lines, LineOk s k g
  bad : ¬ fine → HasBad s k (z.dc k).lines
  keeps : HasBad s k (y.dc k).lines → HasBad s k (z.dc k).lines

theorem XAt.running {k : Nat} (h : XAt k s y) (hst : (s.dc k).st = .running) : (y.dc k).st = .running := h.at'.chan.keeps.1.trans hst

/-- What becomes of a sample. -/
theorem xSample_cases (h : XAt k.val s y) (hst : (s.dc k.val).st = .running) (n a : Nat) :
    Sampled k.val s y (xSample k x a (f0 + n / xNch x) (n % xNch x) (slice data (n * xIn x) (xIn x)) y) (Passes s k.val .write a (xOut x)) ∨
      (WriteStopped k.val s (xSample k x a (f0 + n / xNch x) (n % xNch x) (slice data (n * xIn x) (xIn x)) y) ∧
        ¬ (Passes s k.val .write a (xOut x) ∧ ∀ g ∈ (y.dc k.val).lines, LineOk s k.val g)) := by
  have hrun := h.running hst
  have hset := h.modI2 (f0 + n / xNch x)
  have hlines : ((modDc k.val (fun c => { c with i2 := f0 + n / xNch x }) y).dc k.val).lines = (y.dc k.val).lines := by rw [modDc_dc_same]
  have hgather := dcGather_joins_or_stops (key := streamOf x (n % xNch x)) (addr := a) (data := sampleOut x data n) hset (hset.running hst)
    (by rw [sampleOut_length]; exact xOut_short x)
  rw [sampleOut_length, JoinsOrStops, hlines] at hgather
  rw [xSample_eq (by rw [hrun]; decide), sampleJoined]
  generalize dcGather k.val (streamOf x (n % xNch x)) a (sampleOut x data n) (modDc k.val (fun c => { c with i2 := f0 + n / xNch x }) y) = z at hgather ⊢
  rcases hgather with ⟨L, o, hjoined⟩ | ⟨hstops, hnot⟩
  · have hz := hset.gathered hjoined.gathered
    obtain ⟨hl, ho⟩ := dcMoved_lines k.val (xOut x) z
    rw [hjoined.gathered.lines] at hl
    rw [if_neg (by rw [hz.running hst]; decide)]
    refine .inl ⟨hz.dcMoved _, ?_, by rw [hl, ← hlines]; exact hjoined.ok, by rw [hl]; exact hjoined.bad, by rw [hl, ← hlines]; exact hjoined.keeps⟩
    obtain ⟨w, hw⟩ := hjoined.out
    exact ⟨w, ho.trans (hjoined.gathered.out.trans hw)⟩
  · rw [if_pos hstops.stopped.1]
    exact .inr ⟨hstops, hnot⟩

/-- Samples that pass join lines that pass. -/
theorem samples_pass (h : XAt k.val s y) (hst : (s.dc k.val).st = .running) (hall : ∀ g ∈ (y.dc k.val).lines, LineOk s k.val g) (n : Nat)
    (hfine : ∀ j, j < n → Passes s k.val .write (sampleDst x d p f0 j) (xOut x)) :
    XAt k.val s (samples k x d p f0 data n y) ∧ (∃ w, (samples k x d p f0 data n y).out = y.out ++ w) ∧
      ∀ g ∈ ((samples k x d p f0 data n y).dc k.val).lines, LineOk s k.val g := by
  induction n with
  | zero => exact ⟨h, ⟨[], (List.append_nil _).symm⟩, hall⟩
  | succ n ih =>
    obtain ⟨hat, ⟨w, hw⟩, hok⟩ := ih fun j hj => hfine j (by omega)
    rw [samples_succ]
    rcases xSample_cases (x := x) (f0 := f0) (data := data) hat hst n (sampleDst x d p f0 n) with hsampled | ⟨-, hnot⟩
    · obtain ⟨v, hv⟩ := hsampled.out
      exact ⟨hsampled.at', ⟨w ++ v, by rw [hv, hw, List.append_assoc]⟩, hsampled.ok (hfine n (by omega)) hok⟩
    · exact absurd ⟨hfine n (by omega), hok⟩ hnot

/-- Samples of which one fails leave a line that fails, or have stopped the channel. -/
theorem samples_fail (h : XAt k.val s y) (hst : (s.dc k.val).st = .running) (n : Nat) :
    (XAt k.val s (samples k x d p f0 data n y) ∧
      ((∃ j, j < n ∧ ¬ Passes s k.val .write (sampleDst x d p f0 j) (xOut x)) → HasBad s k.val ((samples k x d p f0 data n y).dc k.val).lines)) ∨
      WriteStopped k.val s (samples k x d p f0 data n y) := by
  induction n with
  | zero => exact .inl ⟨h, fun ⟨j, hj, _⟩ => absurd hj (by omega)⟩
  | succ n ih =>
    rw [samples_succ]
    rcases ih with ⟨hat, hbad⟩ | hstops
    · rcases xSample_cases (x := x) (f0 := f0) (data := data) hat hst n (sampleDst x d p f0 n) with hsampled | ⟨hstops, -⟩
      · refine .inl ⟨hsampled.at', fun ⟨j, hj, hfails⟩ => ?_⟩
        rcases Nat.lt_succ_iff_lt_or_eq.mp hj with hlt | rfl
        · exact hsampled.keeps (hbad ⟨j, hlt, hfails⟩)
        · exact hsampled.bad hfails
      · exact .inr hstops
    · rw [xSample_stopped hstops.stopped.1]
      exact .inr hstops

/-- The one line of consecutive samples. -/
structure OneLine (k : Nat) (s y z : State) (a : Nat) (b : Bytes) : Prop where
  at' : XAt k s z
  out : z.out = y.out
  none : b = [] → (z.dc k).lines = []
  some : b ≠ [] → ∃ g, (z.dc k).lines = [g] ∧ g.key = 0 ∧ g.addr = a ∧ g.data = b

theorem flat_length (n : Nat) : ((List.range n).flatMap (sampleOut x data)).length = n * xOut x := by
  rw [List.length_flatMap, List.map_congr_left (fun j _ => sampleOut_length x data j)]
  simp

theorem samples_line (h : XAt k.val s y) (hst : (s.dc k.val).st = .running) (hempty : (y.dc k.val).lines = []) (hmode : xMode x ≠ 2) (n : Nat) (hn : n * xOut x < 64) :
    OneLine k.val s y (samples k x d p f0 data n y) (sampleDst x d p f0 0) ((List.range n).flatMap (sampleOut x data)) := by
  induction n with
  | zero => exact ⟨h, rfl, fun _ => hempty, fun hne => absurd rfl hne⟩
  | succ n ih =>
    rw [Nat.succ_mul] at hn
    have hbefore := ih (by omega)
    have hlen := flat_length (x := x) (data := data) n
    have hout := sampleOut_length x data n
    have hpos : 0 < xOut x := by rw [xOut]; omega
    have hset := hbefore.at'.modI2 (f0 + n / xNch x)
    have hstream : streamOf x (n % xNch x) = 0 := if_neg hmode
    have haddr : sampleDst x d p f0 n = sampleDst x d p f0 0 + ((List.range n).flatMap (sampleOut x data)).length := by
      rw [sampleDst_flat hmode, sampleDst_flat hmode, hlen, Nat.add_zero, Nat.add_mul, Nat.add_assoc]
    rw [samples_succ, xSample_eq (by rw [hbefore.at'.running hst]; decide), List.range_succ, List.flatMap_append, List.flatMap_singleton]
    generalize (List.range n).flatMap (sampleOut x data) = u at hbefore hlen haddr
    obtain ⟨hat, ho, hnone, hsome⟩ := hbefore
    generalize samples k x d p f0 data n y = z at hat ho hnone hsome hset ⊢
    have hne : u ++ sampleOut x data n ≠ [] := by
      intro hnil
      rw [List.append_eq_nil_iff.mp hnil |>.2] at hout
      exact absurd hout (by rw [List.length_nil]; omega)
    have hjoined : ∃ g, Gathered k.val (modDc k.val (fun c => { c with i2 := f0 + n / xNch x }) z) (sampleJoined k x f0 data n (sampleDst x d p f0 n) z) [g] z.out ∧
        g.key = 0 ∧ g.addr = sampleDst x d p f0 0 ∧ g.data = u ++ sampleOut x data n := by
      have hlines : ((modDc k.val (fun c => { c with i2 := f0 + n / xNch x }) z).dc k.val).lines = (z.dc k.val).lines := by rw [modDc_dc_same]
      rw [sampleJoined, hstream]
      by_cases hu : u = []
      · subst hu
        have hbegin := gather_begins (k := k.val) (y := modDc k.val (fun c => { c with i2 := f0 + n / xNch x }) z) (key := 0) (addr := sampleDst x d p f0 n)
          (data := sampleOut x data n) (by rw [hlines, hnone rfl]; rfl) (by rw [hout]; exact xOut_short x)
        rw [hlines, hnone rfl, List.nil_append] at hbegin
        exact ⟨_, hbegin, rfl, haddr, rfl⟩
      · obtain ⟨g, hg, hkey, hga, hgd⟩ := hsome hu
        have hgrow := gather_grows (k := k.val) (y := modDc k.val (fun c => { c with i2 := f0 + n / xNch x }) z) (key := 0) (addr := sampleDst x d p f0 n)
          (data := sampleOut x data n) (g := g) (by rw [hlines, hg]; simp [hkey]) (by rw [hga, hgd, haddr]) (by rw [hgd, hlen, hout]; omega)
        rw [otherLines, hlines, hg, List.filter_cons_of_neg (by simp [hkey]), List.filter_nil, List.nil_append] at hgrow
        exact ⟨_, hgrow, hkey, hga, by rw [hgd]⟩
    obtain ⟨g, hgathered, hg⟩ := hjoined
    have hz := hset.gathered hgathered
    rw [if_neg (by rw [hz.running hst]; decide)]
    obtain ⟨hl, hmo⟩ := dcMoved_lines k.val (xOut x) (sampleJoined k x f0 data n (sampleDst x d p f0 n) z)
    exact ⟨hz.dcMoved _, hmo.trans (hgathered.out.trans ho), fun hnil => absurd hnil hne, fun _ => ⟨g, hl.trans hgathered.lines, hg⟩⟩

/-! ### The reads of an XMOVE -/

theorem xReads_out (a f g : Nat) (s : State) : Only [.out] s (xReads x a p f g s) ∧ ∀ j, (xReads x a p f g s).dc j = s.dc j := by
  rw [xReads]
  split
  · exact foldl_only_out (f := fun s ch => runReads (xSrc x a p f ch).toNat ((g + xNch x - 1 - ch) / xNch x * xIn x) s) (fun _ _ => runReads_out _ _ _) _ s
  · exact runReads_out _ _ _

theorem xReads_out_congr (a f g : Nat) (h : y.out = z.out) : (xReads x a p f g y).out = (xReads x a p f g z).out := by
  rw [xReads, xReads]
  split
  · exact foldl_out_congr (f := fun s ch => runReads (xSrc x a p f ch).toNat ((g + xNch x - 1 - ch) / xNch x * xIn x) s) (fun _ _ _ h => runReads_out_congr _ _ h) _ h
  · exact runReads_out_congr _ _ h

/-- What comes first of a range. -/
theorem findSome_range {α : Type} {f : Nat → Option α} {j n : Nat} {e : α} (hj : j < n) (hbefore : ∀ i, i < j → f i = none) (hat : f j = some e) :
    (List.range n).findSome? f = some e := by
  induction n with
  | zero => exact absurd hj (by omega)
  | succ n ih =>
    rw [List.range_succ, List.findSome?_append]
    rcases Nat.lt_succ_iff_lt_or_eq.mp hj with hlt | rfl
    · rw [ih hlt]
      rfl
    · rw [List.findSome?_eq_none_iff.mpr fun i hi => hbefore i (List.mem_range.mp hi)]
      simp [hat]

/-- The check of the read of a sample, with its place. -/
def readFault (s : State) (k : Nat) (x : BitVec 13) (a : Nat) (p : Int) (f0 j : Nat) : Option (Nat × Nat × Nat) :=
  (check s s.gen.act (some (dcTen s k)) (dcWorld s k) .read (sampleSrc x a p f0 j) (xIn x)).map (fun e => (j, e))

theorem xFault_eq (h : XAt k.val s y) (a n : Nat) : xFault y k x a p f0 n = (List.range n).findSome? (readFault s k.val x a p f0) := by
  have hworld : dcWorld y k.val = dcWorld s k.val := by
    rw [dcWorld, dcWorld, State.eff, State.eff, State.word, State.word, h.at'.start.1, h.at'.start.2]
  rw [xFault]
  refine congrArg (fun f => (List.range n).findSome? f) (funext fun j => ?_)
  rw [h.prev, Bool.false_and, readFault, check_congr h.at'.start.1, h.at'.ten, hworld, show y.rules false = y.gen.act from rfl, h.at'.start.2]
  rfl

theorem xFault_none (h : XAt k.val s y) {a n : Nat} (hall : ∀ j, j < n → Passes s k.val .read (sampleSrc x a p f0 j) (xIn x)) : xFault y k x a p f0 n = none := by
  rw [xFault_eq h, List.findSome?_eq_none_iff]
  intro j hj
  rw [readFault, show check _ _ _ _ _ _ _ = none from hall j (List.mem_range.mp hj)]
  rfl

theorem xFault_first (h : XAt k.val s y) {a n j : Nat} (hj : j < n) (hbefore : ∀ i, i < j → Passes s k.val .read (sampleSrc x a p f0 i) (xIn x))
    (hbad : ¬ Passes s k.val .read (sampleSrc x a p f0 j) (xIn x)) : ∃ e, xFault y k x a p f0 n = some (j, e) := by
  obtain ⟨e, he⟩ := Option.ne_none_iff_exists'.mp hbad
  refine ⟨e, (xFault_eq h a n).trans (findSome_range hj (fun i hi => ?_) ?_)⟩
  · rw [readFault, show check _ _ _ _ _ _ _ = none from hbefore i hi]
    rfl
  · rw [readFault, he]
    rfl

end

/-! ### What becomes of an XMOVE (R321, R325, R330) -/

/-- An XMOVE of which the samples of the next m frames may be moved. -/
structure XmoveDue (s : State) (k : ChanIx) (b data : Bytes) (x : BitVec 13) (m : Nat) : Prop where
  at' : AtOp s k 0x05 b
  cfg : (s.dc k.val).xcfg = some x
  place : (s.dc k.val).place = true ∨ (s.dc k.val).needsPlace = false
  turn : dcTurn s k.val = true
  len : data.length = m * (xNch x * xIn x)
  count : if tI32 b + 1 ≤ (s.dc k.val).i2 then m = 0 else 1 ≤ m ∧ (s.dc k.val).i2 + m ≤ tI32 b + 1

/-- The sides of an XMOVE, its pitch, and the state in which it starts. -/
def xmoveSrc (s : State) (k : ChanIx) (b : Bytes) : Nat := ((s.dc k.val).aregs.look 0 (tRa b)).toNat
def xmoveDst (s : State) (k : ChanIx) (b : Bytes) : Nat := ((s.dc k.val).aregs.look 0 (tRb b)).toNat
def xmovePitch (b : Bytes) : Int := signed 32 (tI64 b)
def xmoveFrom (s : State) (k : ChanIx) : State := moveStart k.val ((s.dc k.val).i2 = 0) s

/-- The state in which the first g samples have been read. -/
def xmoveRead (s : State) (k : ChanIx) (b : Bytes) (x : BitVec 13) (g : Nat) : State :=
  xReads x (xmoveSrc s k b) (xmovePitch b) (s.dc k.val).i2 g (xmoveFrom s k)

/-- The state in which the first g samples have joined their lines. -/
def xmoved (s : State) (k : ChanIx) (b data : Bytes) (x : BitVec 13) (g : Nat) : State :=
  samples k x (xmoveDst s k b) (xmovePitch b) (s.dc k.val).i2 data g (xmoveRead s k b x g)

/-- The frame that the channel has come to. -/
def atFrame (s : State) (k : ChanIx) (x : BitVec 13) (g : Nat) (y : State) : State := modDc k.val (fun q => { q with i2 := (s.dc k.val).i2 + g / xNch x }) y

section
variable {k : ChanIx} {s : State} {b data : Bytes} {x : BitVec 13} {m : Nat}

theorem fxXmove_unset (h : AtOp s k 0x05 b) (hcfg : (s.dc k.val).xcfg = none) : fxXmove k data s = dcUnsup k.val 0x83 s := by
  rw [fxXmove, tRun_at h]
  dsimp only
  rw [hcfg]

theorem fxXmove_waits (h : AtOp s k 0x05 b) (hcfg : (s.dc k.val).xcfg.isSome = true)
    (hno : ((s.dc k.val).place = false ∧ (s.dc k.val).needsPlace = true) ∨ dcTurn s k.val = false) : fxXmove k data s = s := by
  obtain ⟨x, hx⟩ := Option.isSome_iff_exists.mp hcfg
  rw [fxXmove, tRun_at h]
  dsimp only
  rw [hx]
  refine whenS_false ?_
  rcases hno with ⟨h1, h2⟩ | h1
  · rw [h1, h2]
    rfl
  · rw [h1, Bool.and_false, Bool.false_and]

/-- The advance of the registers of an XMOVE of n frames. -/
def xmoveIncs (x : BitVec 13) (n : Nat) : Nat × Nat :=
  (if xMode x = 1 then n * xIn x else n * xNch x * xIn x, if xMode x = 2 then n * xOut x else n * xNch x * xOut x)

/-- The end of the samples of an XMOVE. -/
def xmoveGoes (s : State) (k : ChanIx) (b : Bytes) (x : BitVec 13) (m : Nat) (z : State) : State :=
  if (s.dc k.val).i2 + m < tI32 b + 1 then z
  else if ((dcFlushAll k.val z).dc k.val).st = .stopped then dcFlushAll k.val z
  else tMoveEnd k b (xmoveIncs x (tI32 b + 1)).1 (xmoveIncs x (tI32 b + 1)).2 (dcFlushAll k.val z)

theorem fxXmove_due (h : XmoveDue s k b data x m) : fxXmove k data s =
    if (!xExtent x (xmoveSrc s k b) (xmoveDst s k b) (xmovePitch b) (tI32 b + 1)) = true then dcUnsup k.val 0x82 (xmoveFrom s k)
    else if tI32 b + 1 ≤ (s.dc k.val).i2 then tMoveEnd k b (xmoveIncs x (tI32 b + 1)).1 (xmoveIncs x (tI32 b + 1)).2 (xmoveFrom s k)
    else (xFault (xmoveFrom s k) k x (xmoveSrc s k b) (xmovePitch b) (s.dc k.val).i2 (m * xNch x)).elim
      (if ((xmoved s k b data x (m * xNch x)).dc k.val).st = .stopped then xmoved s k b data x (m * xNch x)
        else xmoveGoes s k b x m (atFrame s k x (m * xNch x) (xmoved s k b data x (m * xNch x))))
      fun e => if ((xmoved s k b data x e.1).dc k.val).st = .stopped then xmoved s k b data x e.1
        else dcReadFault k.val e.2.1 e.2.2 (atFrame s k x e.1 (xmoved s k b data x e.1)) := by
  have hplace : ((s.dc k.val).place || !(s.dc k.val).needsPlace) = true := by rcases h.place with h | h <;> rw [h] <;> simp
  have hpos : 0 < xNch x * xIn x := Nat.mul_pos (xNch_pos x) (Nat.succ_pos _)
  have hm : data.length / (xNch x * xIn x) = m := by rw [h.len, Nat.mul_div_cancel _ hpos]
  rw [fxXmove, tRun_at h.at']
  dsimp only
  rw [h.cfg]
  dsimp only
  rw [hm, whenS_true (by rw [hplace, h.turn, decide_eq_true ⟨h.len, h.count⟩]; rfl)]
  refine congrArg (ite _ _) (congrArg (ite _ _) ?_)
  have hfault : xFault (dcServed k.val (if (s.dc k.val).i2 = 0 then dcTag k.val s else s)) k x (tA s k (tRa b)) (signed 32 (tI64 b)) (s.dc k.val).i2 (m * xNch x) =
    xFault (xmoveFrom s k) k x (xmoveSrc s k b) (xmovePitch b) (s.dc k.val).i2 (m * xNch x) := rfl
  rw [hfault]
  generalize xFault (xmoveFrom s k) k x (xmoveSrc s k b) (xmovePitch b) (s.dc k.val).i2 (m * xNch x) = bad
  cases bad with
  | none => rfl
  | some e => rfl

theorem xmoveFrom_at (h : (s.dc k.val).unitPrev = false ∨ (s.dc k.val).i2 = 0) :
    XAt k.val s (xmoveFrom s k) ∧ ((xmoveFrom s k).dc k.val).lines = (s.dc k.val).lines ∧ (xmoveFrom s k).out = s.out := by
  have hserved (x : State) : (dcServed k.val x).dc k.val = x.dc k.val := rfl
  refine ⟨⟨moveStart_at _ _ _, ?_⟩, ?_, moveStart_out _ _ _⟩
  · rw [xmoveFrom, moveStart, hserved]
    split
    · rw [dcTag, modDc_dc_same]
    · next hne => exact h.resolve_right hne
  · rw [xmoveFrom, moveStart, hserved]
    split
    · rw [dcTag, modDc_dc_same]
    · rfl

theorem xmoveRead_at (h : (s.dc k.val).unitPrev = false ∨ (s.dc k.val).i2 = 0) (g : Nat) :
    XAt k.val s (xmoveRead s k b x g) ∧ ((xmoveRead s k b x g).dc k.val).lines = (s.dc k.val).lines ∧
      (xmoveRead s k b x g).out = (xReads x (xmoveSrc s k b) (xmovePitch b) (s.dc k.val).i2 g s).out := by
  obtain ⟨hat, hlines, hout⟩ := xmoveFrom_at h
  obtain ⟨honly, hdc⟩ := xReads_out (x := x) (p := xmovePitch b) (xmoveSrc s k b) (s.dc k.val).i2 g (xmoveFrom s k)
  refine ⟨⟨hat.at'.trans (.emitted honly hdc), (congrArg Chan.unitPrev (hdc k.val)).trans hat.prev⟩, (congrArg Chan.lines (hdc k.val)).trans hlines, ?_⟩
  exact xReads_out_congr _ _ _ hout

theorem atFrame_at {y : State} (h : XAt k.val s y) (g : Nat) : XAt k.val s (atFrame s k x g y) ∧ ((atFrame s k x g y).dc k.val).lines = (y.dc k.val).lines ∧
    ((atFrame s k x g y).dc k.val).i2 = (s.dc k.val).i2 + g / xNch x ∧ (atFrame s k x g y).out = y.out := by
  refine ⟨h.modI2 _, ?_, ?_, modDc_out _ _ _⟩
  · rw [atFrame, modDc_dc_same]
  · rw [atFrame, modDc_dc_same]

/-- The writes of the first g samples pass. -/
def WritesPass (s : State) (k : ChanIx) (b : Bytes) (x : BitVec 13) (g : Nat) : Prop :=
  ∀ j, j < g → Passes s k.val .write (sampleDst x (xmoveDst s k b) (xmovePitch b) (s.dc k.val).i2 j) (xOut x)

/-- Samples that pass have come to their frame. -/
theorem xmoved_passes (hst : (s.dc k.val).st = .running) (hstart : (s.dc k.val).unitPrev = false ∨ (s.dc k.val).i2 = 0) {g : Nat}
    (hwrites : WritesPass s k b x g) (hlines : ∀ l ∈ (s.dc k.val).lines, LineOk s k.val l) :
    ((xmoved s k b data x g).dc k.val).st ≠ .stopped ∧ XAt k.val s (atFrame s k x g (xmoved s k b data x g)) ∧
      (∀ l ∈ ((atFrame s k x g (xmoved s k b data x g)).dc k.val).lines, LineOk s k.val l) ∧
      ((atFrame s k x g (xmoved s k b data x g)).dc k.val).i2 = (s.dc k.val).i2 + g / xNch x ∧
      ∃ w, (atFrame s k x g (xmoved s k b data x g)).out = (xReads x (xmoveSrc s k b) (xmovePitch b) (s.dc k.val).i2 g s).out ++ w := by
  obtain ⟨hat, hl, hout⟩ := xmoveRead_at (b := b) (x := x) hstart g
  have hsamples := samples_pass (data := data) hat hst (by rw [hl]; exact hlines) g hwrites
  change XAt k.val s (xmoved s k b data x g) ∧ (∃ w, (xmoved s k b data x g).out = _) ∧ ∀ l ∈ ((xmoved s k b data x g).dc k.val).lines, _ at hsamples
  obtain ⟨hz, ⟨w, hw⟩, hok⟩ := hsamples
  obtain ⟨hf, hfl, hfi, hfo⟩ := atFrame_at (x := x) hz g
  exact ⟨by rw [hz.running hst]; decide, hf, by rw [hfl]; exact hok, hfi,
    w, hfo.trans (hw.trans (congrArg (· ++ w) hout))⟩

/-- The samples of a move that begins with no line are in one line, where they are short. -/
theorem xmoved_line (hst : (s.dc k.val).st = .running) (hstart : (s.dc k.val).unitPrev = false ∨ (s.dc k.val).i2 = 0) {g : Nat} (hg : 0 < g)
    (hempty : (s.dc k.val).lines = []) (hmode : xMode x ≠ 2) (hshort : g * xOut x < 64) :
    (atFrame s k x g (xmoved s k b data x g)).out = (xReads x (xmoveSrc s k b) (xmovePitch b) (s.dc k.val).i2 g s).out ∧
      ∃ l, ((atFrame s k x g (xmoved s k b data x g)).dc k.val).lines = [l] ∧ l.addr = sampleDst x (xmoveDst s k b) (xmovePitch b) (s.dc k.val).i2 0 ∧
        l.data = (List.range g).flatMap (sampleOut x data) := by
  obtain ⟨hat, hl, hout⟩ := xmoveRead_at (b := b) (x := x) hstart g
  obtain ⟨hz, ho, -, hsome⟩ := samples_line (d := xmoveDst s k b) (p := xmovePitch b) (f0 := (s.dc k.val).i2) (data := data) hat hst (hl.trans hempty) hmode g hshort
  have hne : (List.range g).flatMap (sampleOut x data) ≠ [] := by
    intro hnil
    have hlen := flat_length (x := x) (data := data) g
    rw [hnil, List.length_nil] at hlen
    exact absurd hlen (ne_of_lt (Nat.mul_pos hg (Nat.succ_pos _)))
  obtain ⟨l, hline, -, haddr, hdata⟩ := hsome hne
  obtain ⟨-, hfl, -, hfo⟩ := atFrame_at (x := x) hz g
  exact ⟨hfo.trans (ho.trans hout), l, hfl.trans hline, haddr, hdata⟩

theorem tMoveEnd_plain {ns nd : Nat} {y : State} (hst : (y.dc k.val).st = .running) (h : (tF b).testBit 0 = false ∧ (tF b).testBit 1 = false) :
    tMoveEnd k b ns nd y = tNext k y := by
  obtain ⟨h0, h1⟩ := h
  have hrun : (y.dc k.val).st ≠ .stopped := by rw [hst]; decide
  have hstay (r n : Nat) (z : State) : tInc k r n false z = z := if_neg (by decide)
  rw [tMoveEnd, h0, h1]
  dsimp only
  rw [hstay, hstay, if_neg hrun, if_neg hrun]

/-- A move without INCS and INCD that has come to its end. -/
theorem MoveAt.goes {ns nd : Nat} {y : State} (h : MoveAt k.val s y) (hst : (s.dc k.val).st = .running) (hf : (s.dc k.val).fetching = false)
    (hno : (tF b).testBit 0 = false ∧ (tF b).testBit 1 = false) :
    Only (.sch :: chanParts) s (tMoveEnd k b ns nd y) ∧ OtherDcs k.val s (tMoveEnd k b ns nd y) ∧ GoesOn s (tMoveEnd k b ns nd y) k.val ((s.dc k.val).desc + 1) ∧
      ((tMoveEnd k b ns nd y).dc k.val).prog = { (s.dc k.val).prog with desc := (s.dc k.val).desc + 1 } := by
  obtain ⟨h0, h1⟩ := hno
  obtain ⟨honly, hothers, hgoes, hprog⟩ := h.ends (b := b) (ns := ns) (nd := nd) hst hf
    ⟨fun h => absurd (h0.symm.trans h) (by decide), fun h => absurd (h1.symm.trans h) (by decide)⟩
  refine ⟨honly, hothers, hgoes, hprog.trans ?_⟩
  rw [incRegs, h0, h1]
  rfl

/-- The fetch of the next instruction follows a move that has come to its end. -/
theorem MoveAt.fetches {ns nd : Nat} {y : State} (h : MoveAt k.val s y) (hst : (s.dc k.val).st = .running) (hf : (s.dc k.val).fetching = false)
    (hno : (tF b).testBit 0 = false ∧ (tF b).testBit 1 = false) (hin : (s.dc k.val).desc + 1 < (s.dc k.val).count) (hpref : (s.dc k.val).pref = [])
    (hitem : itemOk s k.val ((s.dc k.val).desc + 1)) :
    (tMoveEnd k b ns nd y).out = (emitRd ((s.dc k.val).itemAddr ((s.dc k.val).desc + 1)) (s.dc k.val).itemLen y).out := by
  obtain ⟨h1, -, h3, h4, hcourse⟩ := h.chan.keeps
  have hdesc : (y.dc k.val).prog.desc = (s.dc k.val).prog.desc := congrArg Chan.desc h3
  change (y.dc k.val).desc = (s.dc k.val).desc at hdesc
  have hlen : (y.dc k.val).itemLen = (s.dc k.val).itemLen := congrArg (fun w => if bitOf w 0 then 16 else 48) hcourse.cfg
  have haddr (d : Nat) : (y.dc k.val).itemAddr d = (s.dc k.val).itemAddr d := by rw [Chan.itemAddr, Chan.itemAddr, hlen, hcourse.dbase]
  have hitem' : itemOk y k.val ((s.dc k.val).desc + 1) := by
    rw [itemOk_congr _ _ h.start.1 h.start.2 (haddr _) hlen]
    exact hitem
  rw [tMoveEnd_plain (h1.trans hst) hno, tNext, hdesc]
  obtain ⟨hread, -⟩ := dcGoto_fresh k.val ((s.dc k.val).desc + 1) y (h4.trans hf) (by rw [Chan.count, hcourse.dcount]; exact hin) (hcourse.pref.trans hpref) hitem'
  rw [hread, haddr, hlen]

/-- All lines go out behind the last sample. -/
theorem flushed_passes {y : State} (h : XAt k.val s y) (hst : (s.dc k.val).st = .running) (hall : ∀ l ∈ (y.dc k.val).lines, LineOk s k.val l) :
    XAt k.val s (dcFlushAll k.val y) ∧ ((dcFlushAll k.val y).dc k.val).i2 = (y.dc k.val).i2 ∧ ∃ w, (dcFlushAll k.val y).out = y.out ++ w := by
  obtain ⟨w, hg⟩ := dcFlush_passes _ h hst (le_refl _) hall
  obtain ⟨_, _, _, hdc⟩ := hg.chan
  exact ⟨h.gathered hg, by rw [dcFlushAll, hdc], w, hg.out⟩

/-- The one line goes out. -/
theorem flushed_line {y : State} {l : GLine} (h : XAt k.val s y) (hst : (s.dc k.val).st = .running) (hline : (y.dc k.val).lines = [l]) (hok : LineOk s k.val l) :
    (dcFlushAll k.val y).out = (emitWr l.addr l.data y).out := by
  have hrun : (y.dc k.val).st ≠ .stopped := by rw [h.running hst]; decide
  have hleaves := lineLeaves (k := k.val) (y := y) (l := []) ((h.check _ _ _).mpr hok)
  rw [dcFlushAll, hline, List.length_singleton, dcFlush_cons 0 hline hrun]
  exact hleaves.out

/-- Behind the last sample a line that fails stops the channel. -/
theorem xmoveGoes_stops {y : State} (h : XAt k.val s y) (hst : (s.dc k.val).st = .running) (hlast : (s.dc k.val).i2 + m = tI32 b + 1)
    (hbad : HasBad s k.val (y.dc k.val).lines) : WriteStopped k.val s (xmoveGoes s k b x m y) := by
  obtain ⟨g, hg, hfails, -⟩ := hbad
  have hstops : WriteStopped k.val s (dcFlushAll k.val y) := dcFlush_stops _ h hst (le_refl _) ⟨g, hg, hfails⟩
  rw [xmoveGoes, if_neg (by omega), if_pos hstops.stopped.1]
  exact hstops

theorem xmoveGoes_ends {y : State} (h : XAt k.val s (dcFlushAll k.val y)) (hst : (s.dc k.val).st = .running) (hlast : (s.dc k.val).i2 + m = tI32 b + 1) :
    xmoveGoes s k b x m y = tMoveEnd k b (xmoveIncs x (tI32 b + 1)).1 (xmoveIncs x (tI32 b + 1)).2 (dcFlushAll k.val y) := by
  rw [xmoveGoes, if_neg (by omega), if_neg (by rw [h.running hst]; decide)]

/-- A sample whose read fails stops the channel at its frame, behind the lines gathered. -/
theorem dcReadFault_stops {y : State} (h : XAt k.val s y) (hst : (s.dc k.val).st = .running) (hall : ∀ l ∈ (y.dc k.val).lines, LineOk s k.val l) (fa cause : Nat) :
    StopsMove k.val s (dcFlushAll k.val y) (dcReadFault k.val fa cause y) stAccess 0x01 := by
  obtain ⟨hat, -, -⟩ := flushed_passes h hst hall
  have hrun : ((dcFlushAll k.val y).dc k.val).st ≠ .stopped := by rw [hat.running hst]; decide
  rw [dcReadFault, if_neg hrun]
  exact hat.at'.violates _ _ _ _ _

/-! ### Outcomes of a whole XMOVE -/

variable (h : XmoveDue s k b data x m) (hext : xExtent x (xmoveSrc s k b) (xmoveDst s k b) (xmovePitch b) (tI32 b + 1) = true)
  (hlt : (s.dc k.val).i2 < tI32 b + 1)

/-- The reads of the first g samples pass. -/
def ReadsPass (s : State) (k : ChanIx) (b : Bytes) (x : BitVec 13) (g : Nat) : Prop :=
  ∀ j, j < g → Passes s k.val .read (sampleSrc x (xmoveSrc s k b) (xmovePitch b) (s.dc k.val).i2 j) (xIn x)

include h hext hlt

theorem fxXmove_reads (hstart : (s.dc k.val).unitPrev = false ∨ (s.dc k.val).i2 = 0) (hreads : ReadsPass s k b x (m * xNch x)) :
    fxXmove k data s = if ((xmoved s k b data x (m * xNch x)).dc k.val).st = .stopped then xmoved s k b data x (m * xNch x)
      else xmoveGoes s k b x m (atFrame s k x (m * xNch x) (xmoved s k b data x (m * xNch x))) := by
  rw [fxXmove_due h, if_neg (by rw [hext]; decide), if_neg (not_le.mpr hlt), xFault_none (xmoveFrom_at hstart).1 hreads, Option.elim_none]

theorem fxXmove_readFails (hstart : (s.dc k.val).unitPrev = false ∨ (s.dc k.val).i2 = 0) {j : Nat} (hj : j < m * xNch x) (hbefore : ReadsPass s k b x j)
    (hbad : ¬ Passes s k.val .read (sampleSrc x (xmoveSrc s k b) (xmovePitch b) (s.dc k.val).i2 j) (xIn x)) :
    ∃ fa cause, fxXmove k data s = if ((xmoved s k b data x j).dc k.val).st = .stopped then xmoved s k b data x j
      else dcReadFault k.val fa cause (atFrame s k x j (xmoved s k b data x j)) := by
  obtain ⟨e, he⟩ := xFault_first (xmoveFrom_at hstart).1 hj hbefore hbad
  refine ⟨e.1, e.2, ?_⟩
  rw [fxXmove_due h, if_neg (by rw [hext]; decide), if_neg (not_le.mpr hlt), he, Option.elim_some]

omit h hext hlt

end

end Sys2Proof.Machine

namespace Sys2Proof.TrowelMoves
open Sys2Proof.Machine

theorem xmoves (k : ChanIx) (b data : Bytes) (s : State) (h : AtOp s k 0x05 b) :
    let c := s.dc k.val
    let n := tI32 b + 1
    (c.xcfg = none → ∃ t, exec (.xmove k data) s = .next t ∧ Only chanParts s t ∧ OtherDcs k.val s t ∧ ChanStopped s t k.val stUnsupported 0x83) ∧
    ((c.place = false ∧ c.needsPlace = true) ∨ dcTurn s k.val = false → c.xcfg.isSome = true → exec (.xmove k data) s = .next s) ∧
    (∀ x m, c.xcfg = some x → (c.place = true ∨ c.needsPlace = false) → dcTurn s k.val = true → data.length = m * (xNch x * xIn x) →
      (if n ≤ c.i2 then m = 0 else 1 ≤ m ∧ c.i2 + m ≤ n) →
      let p := signed 32 (tI64 b)
      let a := (c.aregs.look 0 (tRa b)).toNat
      let d := (c.aregs.look 0 (tRb b)).toNat
      let rd := fun j => (xSrc x a p (c.i2 + j / xNch x) (j % xNch x)).toNat
      let wr := fun j => (xDst x d p (c.i2 + j / xNch x) (j % xNch x)).toNat
      let new := fun j => convSample (xOut x) (xIbe x) (xObe x) (slice data (j * xIn x) (xIn x))
      let ok := fun (dir : Dir) (ad len : Nat) => check s s.gen.act (some (dcTen s k.val)) (dcWorld s k.val) dir ad len = none
      let cnt := m * xNch x
      let lineOk := ∀ g, g ∈ c.lines → ok .write g.addr g.data.length
      let readsOk := ∀ j, j < cnt → ok .read (rd j) (xIn x)
      let writesOk := ∀ j, j < cnt → ok .write (wr j) (xOut x)
      let noInc := (tF b).testBit 0 = false ∧ (tF b).testBit 1 = false
      let bytes := (List.range cnt).flatMap new
      let stops := fun (st detail : Nat) => ∃ t, exec (.xmove k data) s = .next t ∧ Only (.sch :: chanParts) s t ∧ OtherDcs k.val s t ∧ ChanStopped s t k.val st detail
      (xExtent x a d p n = false → stops stUnsupported 0x82) ∧
      (xExtent x a d p n = true → n ≤ c.i2 → noInc → ∃ t, exec (.xmove k data) s = .next t ∧ Only (.sch :: chanParts) s t ∧ OtherDcs k.val s t ∧
        GoesOn s t k.val (c.desc + 1) ∧ (t.dc k.val).prog = { c.prog with desc := c.desc + 1 }) ∧
      (xExtent x a d p n = true → c.i2 < n → (c.unitPrev = false ∨ c.i2 = 0) →
        (readsOk → writesOk → lineOk → c.i2 + m < n → ∃ t, exec (.xmove k data) s = .next t ∧ Only [.sch, .dcs, .out] s t ∧ OtherDcs k.val s t ∧
          (t.dc k.val).i2 = c.i2 + m ∧ (t.dc k.val).st = .running ∧ (t.dc k.val).held = some b ∧ (t.dc k.val).prog = c.prog ∧
          (∃ w, t.out = (xReads x a p c.i2 cnt s).out ++ w) ∧
          (c.lines = [] → xMode x ≠ 2 → cnt * xOut x < 64 → t.out = (xReads x a p c.i2 cnt s).out ∧ ∃ g, (t.dc k.val).lines = [g] ∧ g.addr = wr 0 ∧ g.data = bytes)) ∧
        (readsOk → writesOk → lineOk → c.i2 + m = n → noInc → ∃ t, exec (.xmove k data) s = .next t ∧ Only (.sch :: chanParts) s t ∧ OtherDcs k.val s t ∧
          GoesOn s t k.val (c.desc + 1) ∧ (t.dc k.val).prog = { c.prog with desc := c.desc + 1 } ∧
          (c.lines = [] → xMode x ≠ 2 → cnt * xOut x < 64 → c.desc + 1 < c.count → c.pref = [] → itemOk s k.val (c.desc + 1) →
            t.out = (emitRd (c.itemAddr (c.desc + 1)) c.itemLen (emitWr (wr 0) bytes (xReads x a p c.i2 cnt s))).out)) ∧
        (∀ j, j < cnt → (∀ i, i < j → ok .read (rd i) (xIn x)) → ¬ok .read (rd j) (xIn x) → writesOk → lineOk →
          ∃ t, exec (.xmove k data) s = .next t ∧ Only (.sch :: chanParts) s t ∧ OtherDcs k.val s t ∧ ChanStopped s t k.val stAccess 0x01 ∧
            (t.dc k.val).i2 = c.i2 + j / xNch x) ∧
        (∀ j, j < cnt → ¬ok .write (wr j) (xOut x) → readsOk → c.i2 + m = n → stops stAccess 0x02))) := by
  intro c n
  refine ⟨fun hcfg => ?_, fun hno hcfg => congrArg Host.Outcome.next (fxXmove_waits h hcfg hno), fun x m hcfg hplace hturn hlen hcount => ?_⟩
  · obtain ⟨honly, hothers, hstopped, -⟩ := dcUnsup_facts k.val 0x83 s
    exact ⟨_, congrArg Host.Outcome.next (fxXmove_unset h hcfg), honly, hothers, hstopped⟩
  intro p a d rd wr new ok cnt lineOk readsOk writesOk noInc bytes stops
  have hdue : XmoveDue s k b data x m := ⟨h, hcfg, hplace, hturn, hlen, hcount⟩
  have hst : (s.dc k.val).st = .running := h.2.1
  have hcnt : cnt / xNch x = m := Nat.mul_div_cancel m (xNch_pos x)
  refine ⟨fun hext => ?_, fun hext hle hno => ?_, fun hext hlt hstart => ⟨fun hreads hwrites hlines hmore => ?_, fun hreads hwrites hlines hlast hno => ?_,
    fun j hj hbefore hbad hwrites hlines => ?_, fun j hj hbad hreads hlast => ?_⟩⟩
  · have hstops := (moveStart_at k.val ((s.dc k.val).i2 = 0) s).stops stUnsupported 0x82 0 .read 0
    refine ⟨_, congrArg Host.Outcome.next ((fxXmove_due hdue).trans (if_pos ?_)), hstops.only, hstops.others, hstops.stopped⟩
    rw [show xExtent x (xmoveSrc s k b) (xmoveDst s k b) (xmovePitch b) (tI32 b + 1) = false from hext]
    rfl
  · have hexec : fxXmove k data s = tMoveEnd k b (xmoveIncs x (tI32 b + 1)).1 (xmoveIncs x (tI32 b + 1)).2 (xmoveFrom s k) := by
      rw [fxXmove_due hdue, if_neg (by rw [show xExtent x (xmoveSrc s k b) (xmoveDst s k b) (xmovePitch b) (tI32 b + 1) = true from hext]; decide)]
      exact if_pos hle
    exact ⟨_, congrArg Host.Outcome.next hexec, (moveStart_at k.val ((s.dc k.val).i2 = 0) s).goes hst h.fetch hno⟩
  · obtain ⟨hrun, hat, -, hi2, w, hw⟩ := xmoved_passes (b := b) (data := data) (x := x) (g := cnt) hst hstart hwrites hlines
    have hexec : fxXmove k data s = atFrame s k x cnt (xmoved s k b data x cnt) := by
      rw [fxXmove_reads hdue hext hlt hstart hreads, if_neg hrun]
      exact if_pos hmore
    obtain ⟨hst', hheld, hprog, -, -⟩ := hat.at'.chan.keeps
    rw [hcnt] at hi2
    refine ⟨_, congrArg Host.Outcome.next hexec, hat.at'.only, hat.at'.others, hi2, hst'.trans hst, hheld.trans h.2.2.2.1, hprog, ⟨w, hw⟩, fun hempty hmode hshort => ?_⟩
    exact xmoved_line hst hstart (Nat.mul_pos (by rw [if_neg (not_le.mpr hlt)] at hcount; omega) (xNch_pos x)) hempty hmode hshort
  · obtain ⟨hrun, hat, hok, -, -⟩ := xmoved_passes (b := b) (data := data) (x := x) (g := cnt) hst hstart hwrites hlines
    obtain ⟨hflush, -, -⟩ := flushed_passes hat hst hok
    have hexec : fxXmove k data s =
        tMoveEnd k b (xmoveIncs x (tI32 b + 1)).1 (xmoveIncs x (tI32 b + 1)).2 (dcFlushAll k.val (atFrame s k x cnt (xmoved s k b data x cnt))) := by
      rw [fxXmove_reads hdue hext hlt hstart hreads, if_neg hrun]
      exact xmoveGoes_ends hflush hst hlast
    obtain ⟨honly, hothers, hgoes, hprog⟩ := hflush.at'.goes (b := b) (ns := (xmoveIncs x (tI32 b + 1)).1) (nd := (xmoveIncs x (tI32 b + 1)).2) hst h.fetch hno
    refine ⟨_, congrArg Host.Outcome.next hexec, honly, hothers, hgoes, hprog, fun hempty hmode hshort hin hpref hitem => ?_⟩
    obtain ⟨hout, l, hline, haddr, hdata⟩ :=
      xmoved_line (b := b) (data := data) hst hstart (Nat.mul_pos (by rw [if_neg (not_le.mpr hlt)] at hcount; omega) (xNch_pos x)) hempty hmode hshort
    rw [hflush.at'.fetches hst h.fetch hno hin hpref hitem]
    refine emitRd_out2 _ _ _ _ ((flushed_line hat hst hline (hok l (by rw [hline]; exact List.mem_singleton.mpr rfl))).trans ?_)
    rw [haddr, hdata]
    exact emitWr_out_congr _ _ hout
  · obtain ⟨hrun, hat, hok, hi2, -⟩ := xmoved_passes (b := b) (data := data) (x := x) (g := j) hst hstart (fun i hi => hwrites i (lt_trans hi hj)) hlines
    obtain ⟨fa, cause, hexec⟩ := fxXmove_readFails hdue hext hlt hstart hj hbefore hbad
    rw [if_neg hrun] at hexec
    have hstops := dcReadFault_stops hat hst hok fa cause
    exact ⟨_, congrArg Host.Outcome.next hexec, hstops.only, hstops.others, hstops.stopped, hstops.i2.trans ((flushed_passes hat hst hok).2.1.trans hi2)⟩
  · obtain ⟨hread, hl, -⟩ := xmoveRead_at (b := b) (x := x) hstart cnt
    have hexec := fxXmove_reads hdue hext hlt hstart hreads
    have hstopped {t : State} (ht : fxXmove k data s = t) (hw : WriteStopped k.val s t) : stops stAccess 0x02 :=
      ⟨_, congrArg Host.Outcome.next ht, hw.only, hw.others, hw.stopped⟩
    have hsamples := samples_fail (x := x) (d := xmoveDst s k b) (p := xmovePitch b) (f0 := (s.dc k.val).i2) (data := data) hread hst cnt
    change (XAt k.val s (xmoved s k b data x cnt) ∧ (_ → HasBad s k.val ((xmoved s k b data x cnt).dc k.val).lines)) ∨ WriteStopped k.val s (xmoved s k b data x cnt)
      at hsamples
    rcases hsamples with ⟨hat, hlines⟩ | hw
    · obtain ⟨hf, hfl, -⟩ := atFrame_at (x := x) hat cnt
      have hrun : ((xmoved s k b data x cnt).dc k.val).st ≠ .stopped := by
        rw [hat.running hst]
        decide
      exact hstopped (hexec.trans (if_neg hrun)) (xmoveGoes_stops hf hst hlast (hfl.symm ▸ hlines ⟨j, hj, hbad⟩))
    · exact hstopped (hexec.trans (if_pos hw.stopped.1)) hw

/-- Settles O48, by the equation of each move, and by what joins and leaves the lines of a channel: a failing line stays, alone in its stream, until its
write stops the channel. -/
theorem trowelMoves : Obligations.TrowelMoves := ⟨moves, xmoves⟩

end Sys2Proof.TrowelMoves
end

section
/-!
Pairs and votes (R19, R419 to R421): what a chain does with a dispute that no tile can settle, with the statement O30.
-/

namespace Sys2Proof.Machine

/-! ### A request but for the state of its buffers -/

/-- An operation but for what the start of its buffers and the opening of a dispute change. -/
def OpSt.view (o : OpSt) : OpSt := { o with trunc := false, disputed := false }

/-- A request but for its buffers. -/
def Req.base (r : Req) : Req := { r with ops := r.ops.map OpSt.view, bufs := [] }

/-- Two records of a request that differ in what has been read for it alone. -/
structure Alike (r r' : Req) : Prop where
  base : r'.base = r.base
  written : ∀ b, (r'.buf b).written = (r.buf b).written

section
variable {r r' : Req} {i j : Nat}

theorem Alike.refl (r : Req) : Alike r r := ⟨rfl, fun _ => rfl⟩

theorem Alike.trans {r'' : Req} (h : Alike r r') (g : Alike r' r'') : Alike r r'' := ⟨g.base.trans h.base, fun b => (g.written b).trans (h.written b)⟩

theorem Alike.ops (h : Alike r r') : r'.ops.map OpSt.view = r.ops.map OpSt.view := congrArg Req.ops h.base

theorem Alike.op (h : Alike r r') (i : Nat) : (r'.op i).view = (r.op i).view := by
  have hview (r : Req) : (r.op i).view = Req.op { r with ops := r.ops.map OpSt.view } i := (op_map r OpSt.view i rfl).symm
  rw [hview, hview, Req.op, Req.op, h.ops]

/-- A field of an operation that reading does not change. -/
theorem Alike.field {α : Type} (h : Alike r r') (f : OpSt → α) (hf : ∀ o, f o.view = f o := by intro o; rfl) (i : Nat) : f (r'.op i) = f (r.op i) := by
  rw [← hf, h.op, hf]

theorem Alike.any (h : Alike r r') (f : OpSt → Bool) (hf : f ∘ OpSt.view = f := by rfl) : r'.ops.any f = r.ops.any f := by
  have hmap (l : List OpSt) : l.any f = (l.map OpSt.view).any f := by rw [List.any_map, hf]
  rw [hmap, h.ops, ← hmap]

theorem Alike.length (h : Alike r r') : r'.ops.length = r.ops.length := by
  have := congrArg List.length h.ops
  rwa [List.length_map, List.length_map] at this

theorem Alike.words (h : Alike r r') : r'.ops.map OpSt.w = r.ops.map OpSt.w := by
  have hmap (l : List OpSt) : l.map OpSt.w = (l.map OpSt.view).map OpSt.w := by
    rw [List.map_map]
    rfl
  rw [hmap, h.ops, ← hmap]

theorem Alike.entry (h : Alike r r') : r'.entry = r.entry := (congrArg Req.entry h.base :)
theorem Alike.phase (h : Alike r r') : r'.phase = r.phase := (congrArg Req.phase h.base :)

theorem Alike.par (h : Alike r r') (i : Nat) : r'.par i = r.par i := by rw [Req.par, Req.par, h.field OpSt.w, h.entry]

/-- What may be written of an output is the same. -/
theorem Alike.mayWrite (h : Alike r r') (j : Nat) : r'.mayWrite j = r.mayWrite j := by
  have hholds : r'.holds = r.holds := by rw [Req.holds, Req.holds, h.entry, h.any (fun q => verifies q.w && decide (q.phase ≠ .done))]
  have hgives : r'.givesKey j = r.givesKey j := h.any (fun q => q.w.kfrom && decide (q.w.key = j) && decide (keyUse q.w [] ≠ .none))
  have honly : r'.keyOnly j = r.keyOnly j := by rw [Req.keyOnly, Req.keyOnly, h.field OpSt.w, h.field OpSt.key, hgives]
  have hopen : r'.openLen j = r.openLen j := by rw [Req.openLen, Req.openLen, honly, hgives, h.field OpSt.w, h.field OpSt.output]
  have hpaired : r'.paired = r.paired := (congrArg Req.paired h.base :)
  rw [Req.mayWrite, Req.mayWrite, hholds, hopen, hpaired, h.field OpSt.w, h.field OpSt.phase, h.field OpSt.agreed]

theorem Alike.flushed (h : Alike r r') (j : Nat) : r'.flushed j = r.flushed j := by
  have horigin : r'.origin = r.origin := (congrArg Req.origin h.base :)
  have hforeign : r'.foreign = r.foreign := by rw [Req.foreign, Req.foreign, horigin]
  rw [Req.flushed, Req.flushed, h.mayWrite, hforeign, h.field OpSt.w, h.written]

/-- The hash that an operation waits for is the same while it runs. -/
theorem Alike.hashDue (h : Alike r r') (i : Nat) (hrun : (r.op i).phase = .running) : r'.hashDue i = r.hashDue i := by
  have hfwd : r'.fwd = r.fwd := (congrArg Req.fwd h.base :)
  have hattr : r'.keyAttr i = r.keyAttr i := by rw [Req.keyAttr, Req.keyAttr, h.field OpSt.key]
  have hsel : r'.pkbSel i = r.pkbSel i := by rw [Req.pkbSel, Req.pkbSel, h.field OpSt.w, h.par]
  have hseed : r'.seedByKfrom i = r.seedByKfrom i := by rw [Req.seedByKfrom, Req.seedByKfrom, h.field OpSt.w, hattr]
  have hpre : r'.preHash i = r.preHash i := by rw [Req.preHash, Req.preHash, h.field OpSt.w, h.words, hsel, hseed]
  have hmid : r'.midHashes i = r.midHashes i := by rw [Req.midHashes, Req.midHashes, h.field OpSt.w, hattr, hseed]
  have htotal : r'.hashTotal i = r.hashTotal i := by rw [Req.hashTotal, Req.hashTotal, hpre, hmid]
  rw [Req.hashDue, Req.hashDue, h.phase, hfwd, htotal, h.field OpSt.w, h.field OpSt.phase, h.field OpSt.hashes, h.field OpSt.checked, hrun]
  generalize kindOfW (r.op i).w = kind
  split <;> simp_all

end

/-! ### The start of buffers keeps it -/

/-- Request id is there, alike the record r. -/
def AlikeAt (id : Nat) (r : Req) (x : State) : Prop := ∃ r', x.req id = some r' ∧ Alike r r'

section
variable {id : Nat} {r : Req} {s x : State}

theorem AlikeAt.only {A : List Part} {t : State} (h : AlikeAt id r x) (honly : Only A x t) (hA : Part.reqs ∉ A) : AlikeAt id r t := by
  obtain ⟨r', hreq, halike⟩ := h
  exact ⟨r', (req_of_reqs (honly.2 .reqs hA) id).trans hreq, halike⟩

theorem AlikeAt.modReq (f : Req → Req) (h : AlikeAt id r x) (hf : ∀ r, (f r).id = r.id) (halike : ∀ r, Alike r (f r)) : AlikeAt id r (Machine.modReq id f x) := by
  obtain ⟨r', hreq, hr⟩ := h
  exact ⟨_, modReq_req_same f hf hreq, hr.trans (halike r')⟩

theorem AlikeAt.modBuf (b : Nat) (f : BufSt → BufSt) (h : AlikeAt id r x) (hf : ∀ q, (f q).written = q.written := by intro q; rfl) :
    AlikeAt id r (Machine.modBuf id b f x) := by
  refine h.modReq (fun r => { r with bufs := r.bufs.put {} b (f (r.buf b)) }) (fun _ => rfl) fun r => ⟨rfl, fun c => ?_⟩
  rw [buf_put]
  split
  · next hc => rw [hf, hc]
  · rfl

theorem AlikeAt.ite {c : Prop} [Decidable c] {y z : State} (hy : AlikeAt id r y) (hz : AlikeAt id r z) : AlikeAt id r (if c then y else z) := by
  split
  · exact hy
  · exact hz

theorem AlikeAt.emitRd (a l : Nat) (h : AlikeAt id r x) : AlikeAt id r (Machine.emitRd a l x) := h.only (Only.emitRd (A := [.out]) _ _ _ (by decide) (Only.refl _ _)) (by decide)

theorem AlikeAt.reqViol (q : Req) (a : Nat) (d : Dir) (c : Nat) (h : AlikeAt id r x) : AlikeAt id r (Machine.reqViol q a d c x) :=
  h.only (Only.reqViol (A := [.tens, .evPend, .pviol, .pvcnt]) _ _ _ _ _ (by decide) (Only.refl _ _)) (by decide)

theorem AlikeAt.askElem (b : Nat) (f : Fail) (h : AlikeAt id r x) : AlikeAt id r (Machine.askElem id b f x) := by
  unfold Machine.askElem
  split
  · exact h
  · refine .ite h (.ite (.modBuf _ _ h) ?_)
    dsimp only
    split
    · exact .emitRd _ _ (.modBuf _ _ h)
    · exact .reqViol _ _ _ _ (.modBuf _ _ h)

theorem AlikeAt.issueRange (b a l : Nat) (h : AlikeAt id r x) : AlikeAt id r (Machine.issueRange id b a l x) := by
  unfold Machine.issueRange
  split
  · exact h
  · split
    · exact .emitRd _ _ (.modBuf _ _ h)
    · exact .reqViol _ _ _ _ (.emitRd _ _ (.modBuf _ _ h))

theorem AlikeAt.startBuf (b : Nat) (h : AlikeAt id r x) : AlikeAt id r (Machine.startBuf id b x) := by
  have hops (y : State) (hy : AlikeAt id r y) :
      AlikeAt id r (Machine.modReq id (fun r => { r with ops := r.ops.map (fun o => if o.w.src = b + 8 then { o with trunc := true } else o) }) y) := by
    refine hy.modReq _ (fun _ => rfl) fun r => ⟨?_, fun _ => rfl⟩
    have hview : (r.ops.map fun o => if o.w.src = b + 8 then { o with trunc := true } else o).map OpSt.view = r.ops.map OpSt.view := by
      rw [List.map_map]
      refine List.map_congr_left fun o _ => ?_
      rw [Function.comp_apply]
      split <;> rfl
    exact congrArg (fun l => ({ r with ops := l, bufs := [] } : Req)) hview
  unfold Machine.startBuf
  split
  · exact h
  · have hstart : AlikeAt id r (Machine.modBuf id b (fun q => { q with started := true }) x) := .modBuf _ _ h
    exact .ite h (.ite hstart (.ite (.issueRange _ _ _ hstart) (.ite (.askElem _ _ hstart) (.ite (.modBuf _ _ hstart)
      (.ite (.ite (hops _ (.modBuf _ _ hstart)) (.modBuf _ _ hstart)) (.ite (hops _ (.modBuf _ _ hstart)) (.modBuf _ _ hstart)))))))

theorem AlikeAt.startBufs (h : AlikeAt id r x) : AlikeAt id r (Machine.startBufs id x) := by
  unfold Machine.startBufs
  split
  · exact h
  · exact eachN_ind _ _ _ h fun _ _ hx => .startBuf _ hx

/-! ### Operations that are done, and one that is stuck -/

/-- An operation that is done and has written its output does nothing more. -/
theorem settleOp_done {j : Nat} (h : x.req id = some r) (hdone : (r.op j).phase = .done) (hclear : (r.op j).disputed = false) (hflushed : r.flushed j = true) :
    settleOp id j x = (x, none) := by
  have hkey : receiveKey id j x = (x, none) := by
    rw [receiveKey, h]
    dsimp only
    rw [if_pos]
    rw [hdone]
    simp
  have hdue : r.hashDue j = false := by
    rw [Req.hashDue, hdone, Bool.and_eq_false_iff]
    right
    split <;> first | rfl | contradiction
  have hstuck : stuckFail x r j = none := by
    have hinput : inputFail r j = none := by
      rw [inputFail, hdone]
      exact if_pos (by decide)
    have htile : noTile x r j = false := by
      rw [noTile, hdone, hdue]
      simp
    have hvoter : noVoter x (r.op j) = false := by rw [noVoter, hclear, Bool.false_and, Bool.false_and]
    rw [stuckFail, hinput, htile, hvoter]
    rfl
  have htakes : (r.op j).takes = false := by
    rw [OpSt.takes, hdone]
    simp
  have hflush : flushOp id j x = (x, none) := by
    rw [flushOp, h]
    dsimp only
    rw [Req.flushed] at hflushed
    simp only [Bool.or_eq_true, decide_eq_true_eq] at hflushed
    by_cases hno : (r.op j).w.dst < 8 ∨ r.foreign = true
    · rw [if_pos hno]
    · rw [if_neg hno, if_pos (hflushed.resolve_left hno)]
  rw [settleOp, hkey]
  dsimp only
  rw [h]
  dsimp only
  rw [hstuck]
  dsimp only
  rw [htakes, Bool.false_and, Bool.false_and, if_neg (by decide), if_neg (by decide), hflush]
  rfl

/-- An operation in dispute that no tile can settle fails, with a record (R421). -/
theorem settleOp_stuck {i : Nat} (h : x.req id = some r) (hrun : (r.op i).phase = .running) (hhash : r.hashDue i = false ∨ healthyOf x 2 ≠ [])
    (hstuck : noVoter x (r.op i) = true) : ∃ z, settleOp id i x = (z, some (stTileFault, 1)) ∧ Has id r z ∧ z.jrn.seq = x.jrn.seq + 1 := by
  have hkey : receiveKey id i x = (x, none) := by
    rw [receiveKey, h]
    dsimp only
    rw [if_pos]
    rw [hrun]
    simp
  have hfail : stuckFail x r i = some (stTileFault, 1) := by
    have hinput : inputFail r i = none := by
      rw [inputFail, hrun]
      exact if_pos (by decide)
    have htile : noTile x r i = false := by
      rw [noTile, hrun]
      rcases hhash with hh | hh <;> simp [hh]
    rw [stuckFail, hinput, htile, hstuck]
    rfl
  refine ⟨pairRecord r (r.op i) 0x1F 3 (modOp id i (fun o => { o with consumed := if kindOfW o.w = 3 then (r.src i).length else o.consumed }) x), ?_, ?_, ?_⟩
  · rw [settleOp, hkey]
    dsimp only
    rw [h]
    dsimp only
    rw [hfail]
    dsimp only
    rw [if_pos hstuck]
  · exact Has.pairRecord _ _ _ _ _ (Has.modReq _ _ (Has.refl h))
  · exact journal_seq _ _ _ _

/-- What a list of operations that do nothing precedes. -/
theorem settleOps_skip {l m : List Nat} (h : ∀ j ∈ l, settleOp id j x = (x, none)) : settleOps id (l ++ m) x = settleOps id m x := by
  induction l with
  | nil => rfl
  | cons j l ih =>
    rw [List.cons_append, settleOps, h j (List.mem_cons_self ..)]
    exact ih fun k hk => h k (List.mem_cons_of_mem _ hk)

theorem range_split {i n : Nat} (h : i < n) : ∃ l, List.range n = List.range i ++ i :: l := by
  refine ⟨(List.range (n - (i + 1))).map (i + 1 + ·), ?_⟩
  have hn : n = i + 1 + (n - (i + 1)) := by omega
  conv_lhs => rw [hn, List.range_add, List.range_succ, List.append_assoc]
  rfl

/-- A chain of which an operation is stuck, behind operations that are done, ends with that operation (R103, R421). -/
theorem settle_stuck {i : Nat} (h : x.req id = some r) (hphase : r.phase = .running) (hfwd : r.fwd = none) (hlent : r.lent = true) (hheld : x.held = false)
    (hbefore : ∀ j, j < i → (r.op j).phase = .done ∧ (r.op j).disputed = false ∧ r.flushed j = true) (hi : i < r.ops.length) (hrun : (r.op i).phase = .running)
    (hhash : r.hashDue i = false ∨ healthyOf x 2 ≠ []) (hstuck : noVoter x (r.op i) = true) :
    EndedWith (settle id x) id r ⟨0x61, 1, i⟩ ∧ (settle id x).jrn.seq = x.jrn.seq + 1 := by
  obtain ⟨r', hreq, halike⟩ := (show AlikeAt id r x from ⟨r, h, .refl r⟩).startBufs
  obtain ⟨q, hq, hcore⟩ := Cores.req (.startBufs id rfl) h
  obtain rfl : q = r' := Option.some.inj (hq.symm.trans hreq)
  have honly : Only [.tens, .reqs, .evPend, .pviol, .pvcnt, .out] x (startBufs id x) := Only.startBufs id x (List.Subset.refl _) (Only.refl _ _)
  have hhealthy := healthyOf_of_only honly (by decide) (by decide)
  have hdisputed (j : Nat) : (q.op j).disputed = (r.op j).disputed := (congrArg OpSt.disputed (core_op hcore j) :)
  have hseq : (startBufs id x).jrn = x.jrn := honly.jrn (by decide)
  have hskip (j : Nat) (hj : j ∈ List.range i) : settleOp id j (startBufs id x) = (startBufs id x, none) := by
    obtain ⟨hd, hclear, hf⟩ := hbefore j (List.mem_range.mp hj)
    exact settleOp_done hreq ((halike.field OpSt.phase (hf := fun _ => rfl) j).trans hd) ((hdisputed j).trans hclear) ((halike.flushed j).trans hf)
  obtain ⟨z, hz, hhas, hzseq⟩ := settleOp_stuck hreq ((halike.field OpSt.phase (hf := fun _ => rfl) i).trans hrun)
    (by rw [halike.hashDue i hrun, hhealthy]; exact hhash) ((noVoter_core (core_op hcore i) hhealthy).trans hstuck)
  obtain ⟨l, hl⟩ := range_split hi
  have hops : settleOps id (List.range r.ops.length) (startBufs id x) = (z, some ⟨0x61, 1, i⟩) := by
    rw [hl, settleOps_skip hskip, settleOps, hz]
    rfl
  have hsettle : settle id x = endChain id ⟨0x61, 1, i⟩ z := by
    rw [settle, h]
    dsimp only
    rw [if_neg (by simp [hphase, hfwd, hlent, hheld]), hops]
  obtain ⟨rz, hrz, ht, he⟩ := hhas
  rw [hsettle]
  refine ⟨endStarts _ hrz (ht.trans (congrArg Req.tenant halike.base :)) (he.trans halike.entry), ?_⟩
  rw [endChain_jrn, hzseq, hseq]

/-! ### A voter, and the verdict of a vote -/

theorem held_of_only {A : List Part} {t : State} (h : Only A s t) (hclk : Part.clk ∉ A) (hown : Part.own ∉ A) : t.held = s.held := by
  have hmon : t.own.clkmon = s.own.clkmon := (congrArg OwnRegs.clkmon (h.2 .own hown) :)
  rw [State.held, State.held, hmon, show t.clk = s.clk from h.2 .clk hclk]

/-- What runs in a bank keeps its voter, and its request its phase. -/
theorem runBank_voter {k : Nat} {r : Req} {s : State} (t : Nat) (p : Nat × Nat) (h : s.req k = some r) :
    ∃ r', (runBank t p s).req k = some r' ∧ r'.phase = r.phase ∧ ∀ j, (r'.op j).voter = (r.op j).voter := by
  unfold runBank
  split
  · have htiles : (eachN (runTiles s t p) (fun x => modTile x (fun u => { u with bankA := u.bankA.wake p, bankB := u.bankB.wake p })) s).reqs = s.reqs :=
      (Only.eachN (A := [.tiles]) _ (Only.refl _ s) fun i s hs => Only.modTile _ _ (by decide) hs).2 .reqs (by decide)
    have hreq := (req_of_reqs htiles k).trans h
    by_cases e : k = p.1
    · rw [e] at hreq ⊢
      refine ⟨_, modOp_req_same p.2 _ hreq, rfl, fun j => ?_⟩
      rw [op_modify]
      split <;> rfl
    · exact ⟨r, (modOp_req_ne p.2 _ e).trans hreq, rfl, fun _ => rfl⟩
  · exact ⟨r, h, rfl, fun _ => rfl⟩

theorem wakeBank_voter {k : Nat} {r : Req} {s : State} (t : Nat) (h : s.req k = some r) :
    ∃ r', (wakeBank t s).req k = some r' ∧ r'.phase = r.phase ∧ ∀ j, (r'.op j).voter = (r.op j).voter := by
  unfold wakeBank
  split
  · exact ⟨r, h, rfl, fun _ => rfl⟩
  · exact runBank_voter _ _ h
  · exact runBank_voter _ _ h

theorem restIn_others (id i t : Nat) (s : State) : (∀ k, k ≠ t → (restIn id i t s).tile k = s.tile k) ∧ (restIn id i t s).reqs = s.reqs :=
  ⟨fun _ hk => modTile_tile_ne _ _ hk, rfl⟩

theorem forceRound_due (t : Nat) (s : State) : ((forceRound t s).tile t).forceDue = true := by
  rw [forceRound]
  split
  · next h => exact h
  · rw [modTile_tile_same]

theorem forceRound_keeps (t k : Nat) (s : State) (h : (s.tile k).forceDue = true) : ((forceRound t s).tile k).forceDue = true := by
  by_cases hk : k = t
  · rw [hk]
    exact forceRound_due t s
  · rw [forceRound]
    split
    · exact h
    · rw [modTile_tile_ne _ _ hk]
      exact h

/-- All three tiles of a vote owe a forced grout round. -/
theorem forced_all (lo hi v : Nat) (s : State) : ((eachN [lo, hi, v] forceRound s).tile lo).forceDue = true ∧
    ((eachN [lo, hi, v] forceRound s).tile hi).forceDue = true ∧ ((eachN [lo, hi, v] forceRound s).tile v).forceDue = true := by
  rw [show eachN [lo, hi, v] forceRound s = forceRound v (forceRound hi (forceRound lo s)) from rfl]
  exact ⟨forceRound_keeps v lo _ (forceRound_keeps hi lo _ (forceRound_due lo s)), forceRound_keeps v hi _ (forceRound_due hi _), forceRound_due v _⟩

/-- An operation whose pair agrees on the next piece. -/
def agreedOp (last : Bool) (o : OpSt) : OpSt := { o with agreed := nextPiece o, endAgreed := o.endAgreed || last }

/-- The state in which a vote has decided for one tile of a pair. -/
def voteDecided (r : Req) (i stays v outcome : Nat) (s : State) : State :=
  pairRecord r (r.op i) v outcome (modReq r.id (fun r => { r with voted := true }) (modOp r.id i (fun o => { o with
    tiles := [min stays v, max stays v], lastTile := min stays v, voter := none, disputed := false })
    (streamTo (r.id, i) (min stays v) (agreeOn r i s))))

theorem voteDecided_facts {r : Req} {i stays v outcome : Nat} {s : State} (h : s.req id = some r) :
    Has id r (voteDecided r i stays v outcome s) ∧ (voteDecided r i stays v outcome s).tiles = s.tiles := by
  have hagree : Only [.reqs] s (agreeOn r i s) := Only.modOp _ _ _ _ (by decide) (Only.refl _ _)
  have hstream (x : State) : Only [.streams] x (streamTo (r.id, i) (min stays v) x) := Only.streamTo _ _ _ (by decide) (Only.refl _ _)
  have hhas : Has id r (streamTo (r.id, i) (min stays v) (agreeOn r i s)) := by
    have hbefore : Has id r (agreeOn r i s) := Has.modReq _ _ (Has.refl h)
    obtain ⟨r', hr', hrest⟩ := hbefore
    exact ⟨r', (req_of_reqs ((hstream _).2 .reqs (by decide)) id).trans hr', hrest⟩
  have htiles : (streamTo (r.id, i) (min stays v) (agreeOn r i s)).tiles = s.tiles := ((hstream _).2 .tiles (by decide)).trans (hagree.2 .tiles (by decide))
  rw [voteDecided]
  generalize streamTo (r.id, i) (min stays v) (agreeOn r i s) = x at hhas htiles
  refine ⟨Has.pairRecord _ _ _ _ _ (Has.modReq _ _ (Has.modReq _ _ hhas)), ?_⟩
  have hrecord (y : State) : Only [.notice, .jrn, .evPend, .pviol, .pvcnt, .out] y (pairRecord r (r.op i) v outcome y) := Only.pairRecord _ _ _ _ _ (by decide) (Only.refl _ _)
  exact ((hrecord _).2 .tiles (by decide)).trans htiles

/-- The tile on the losing side of a vote leaves service; its request goes on. -/
theorem vote_quarantines {r : Req} {i stays goes v outcome : Nat} {s : State} (h : s.req id = some r) :
    StillThere (settle id (quarantine goes qPair true (voteDecided r i stays v outcome s))) id r ∧
      OutOfService s (settle id (quarantine goes qPair true (voteDecided r i stays v outcome s))) goes 1 := by
  obtain ⟨hhas, htiles⟩ := voteDecided_facts (i := i) (stays := stays) (v := v) (outcome := outcome) h
  generalize voteDecided r i stays v outcome s = x at hhas htiles
  have hout : OutOfService x (quarantine goes qPair true x) goes 1 := quarantine_out _ _ _ _
  exact ⟨Has.settle _ _ (Has.quarantine _ _ _ _ hhas), (hout.from (congrArg Tile.qcount (tile_of_tiles htiles goes))).settle id⟩

end

end Sys2Proof.Machine

namespace Sys2Proof.PairsAndVotes
open Sys2Proof.Machine

/-- Settles O30, by the guard and the equation of each step of a pair, and by what a chain does with a dispute that no tile can settle. -/
theorem pairsAndVotes : Obligations.PairsAndVotes := by
  refine ⟨fun id i r s hreq hopen hphase hrun htwo hclear hend => ?_, fun id i tile r s hreq hopen hphase hdis hvoter hkind hnot hfree hpermit hi => ?_,
    fun id i v lo hi r s hreq hvoter htiles hopen hphase hrun hdis hvote => ?_⟩
  · intro made
    have hid : r.id = id := req_id hreq
    have hi : i.val < r.ops.length := by
      by_contra hn
      rw [Req.op, List.getD_eq_getElem?_getD, List.getElem?_eq_none (by omega)] at htwo
      exact absurd htwo (by decide)
    have hmay : (tilesOpen s && mayCompare r i.val) = true := by
      have hready : (decide (kindOfW (r.op i.val).w ≠ 3) || atEnd r i.val) = true := by
        by_cases hk : kindOfW (r.op i.val).w = 3
        · rw [hend hk, Bool.or_true]
        · rw [decide_eq_true hk, Bool.true_or]
      rw [hopen, mayCompare, hready, hclear, decide_eq_true hphase, decide_eq_true hrun, decide_eq_true htwo]
      rfl
    have hexec (agree : Bool) : exec (.pairedPieceCompare id i agree) s = .next (if agree then settle id (agreeOn r i.val s)
        else settle id (pairRecord r (r.op i.val) 0x1F 0 (raiseG gPairDisagree (modOp id i.val (fun o => { o with disputed := true }) s)))) := by
      refine congrArg Host.Outcome.next ?_
      rw [fxPairedPieceCompare, withReq_some hreq]
      exact whenS_true hmay
    refine ⟨⟨_, hexec true, ?_⟩, ?_⟩
    · rw [if_pos rfl, agreeOn, hid]
      have hr1 := modOp_req_same i.val (agreedOp (decide (nextPiece (r.op i.val) = (r.op i.val).output.length) && atEnd r i.val)) hreq
      refine RunsOn.of_req (settle_runs_core hr1 fun r' hcore => ?_) rfl rfl rfl
      have hagreed : (r'.op i.val).agreed = _ := (congrArg OpSt.agreed (core_op hcore i.val) :)
      rw [hagreed, OpSt.core, op_modify_same _ _ _ hi, agreedOp, nextPiece]
    · have hr1 := modOp_req_same i.val (fun o => { o with disputed := true }) hreq
      have hrecord : Only [.notice, .reqs, .jrn, .evPend, .pviol, .pvcnt, .out] s
          (pairRecord r (r.op i.val) 0x1F 0 (raiseG gPairDisagree (modOp id i.val (fun o => { o with disputed := true }) s))) :=
        Only.pairRecord _ _ _ _ _ (by decide) (Only.raiseG _ _ (by decide) (Only.modOp _ _ _ _ (by decide) (Only.refl _ _)))
      have hpend : Pend gPairDisagree (pairRecord r (r.op i.val) 0x1F 0 (raiseG gPairDisagree (modOp id i.val (fun o => { o with disputed := true }) s))) :=
        Pend.pairRecord _ _ _ _ _ (raiseG_bit _ _ (by decide))
      have hseq : (pairRecord r (r.op i.val) 0x1F 0 (raiseG gPairDisagree (modOp id i.val (fun o => { o with disputed := true }) s))).jrn.seq = s.jrn.seq + 1 := by
        rw [pairRecord, journal_seq, raiseG_jrn]
        rfl
      have hr2 : (pairRecord r (r.op i.val) 0x1F 0 (raiseG gPairDisagree (modOp id i.val (fun o => { o with disputed := true }) s))).req id =
          some { r with ops := r.ops.modify i.val (fun o => { o with disputed := true }) } := by
        have hrest (y : State) : Only [.notice, .jrn, .evPend, .pviol, .pvcnt, .out] y (pairRecord r (r.op i.val) 0x1F 0 (raiseG gPairDisagree y)) :=
          Only.pairRecord _ _ _ _ _ (by decide) (Only.raiseG _ _ (by decide) (Only.refl _ _))
        exact (req_of_reqs ((hrest _).2 .reqs (by decide)) id).trans hr1
      have hop (j : Nat) : Req.op { r with ops := r.ops.modify i.val (fun o => { o with disputed := true }) } j =
          if i.val = j ∧ j < r.ops.length then { r.op j with disputed := true } else r.op j := op_modify _ _ _ _
      have hown := (hop i.val).trans (if_pos ⟨rfl, hi⟩)
      have hhealthy (k : Nat) := healthyOf_of_only (k := k) hrecord (by decide) (by decide)
      have hfalse := hexec false
      rw [if_neg (by decide)] at hfalse
      generalize pairRecord r (r.op i.val) 0x1F 0 (raiseG gPairDisagree (modOp id i.val (fun o => { o with disputed := true }) s)) = x
        at hrecord hpend hseq hr2 hhealthy hfalse
      refine ⟨fun hothers henough => ⟨_, hfalse, Pend.settle _ _ hpend, ?_, ?_⟩, fun hfwd hlent hheld hnone hbefore hhash hfew => ⟨_, hfalse, Pend.settle _ _ hpend, ?_⟩⟩
      · have hquiet : Quiet id x := by
          intro q hq j
          obtain rfl : _ = q := Option.some.inj (hr2.symm.trans hq)
          rw [hop]
          split
          · next hj =>
            rw [noVoter, ← hj.1, hhealthy, decide_eq_false (by exact not_lt.mpr henough), Bool.and_false]
          · next hj =>
            by_cases hji : j = i.val
            · rw [hji, noVoter, hclear, Bool.false_and, Bool.false_and]
            · rw [noVoter, hothers j hji, Bool.false_and, Bool.false_and]
        rw [settle_jrn hquiet, hseq]
      · refine RunsOn.of_req (settle_runs_core hr2 fun r' hcore => ?_) rfl rfl rfl
        have hdisputed : (r'.op i.val).disputed = _ := (congrArg OpSt.disputed (core_op hcore i.val) :)
        rw [hdisputed, OpSt.core, hown]
      · have hsame : Alike r { r with ops := r.ops.modify i.val (fun o => { o with disputed := true }) } := by
          refine ⟨?_, fun _ => rfl⟩
          have hview : (r.ops.modify i.val fun o => { o with disputed := true }).map OpSt.view = r.ops.map OpSt.view := by
            refine List.ext_getElem (by simp) fun n h1 h2 => ?_
            rw [List.getElem_map, List.getElem_map, List.getElem_modify]
            split <;> rfl
          exact congrArg (fun l => ({ r with ops := l, bufs := [] } : Req)) hview
        obtain ⟨hended, hjrn⟩ := settle_stuck (i := i.val) hr2 hphase hfwd hlent ((held_of_only hrecord (by decide) (by decide)).trans hheld)
          (fun j hj => by
            obtain ⟨hd, hc, hf⟩ := hbefore j hj
            have hj' := (hop j).trans (if_neg fun hn => absurd hn.1 (by omega))
            exact ⟨by rw [hj', hd], by rw [hj', hc], (hsame.flushed j).trans hf⟩)
          (by simpa using hi) (by rw [hown]; exact hrun) (by rw [hsame.hashDue _ hrun, hhealthy]; exact hhash)
          (by rw [hown, noVoter, hhealthy]; dsimp only; rw [hnone, decide_eq_true hfew]; rfl)
        refine ⟨by rw [hjrn, hseq, BitVec.add_assoc]; rfl, ?_⟩
        obtain ⟨r', h1, h2, h3, h4, h5⟩ := hended
        exact ⟨r', h1, h2, h3, h4, h5⟩
  · have hguard : (tilesOpen s && decide (r.phase = .running) && (r.op i.val).disputed && (r.op i.val).voter.isNone &&
        decide (tile.val ∈ kindTiles (kindOfW (r.op i.val).w)) && decide (tile.val ∉ (r.op i.val).tiles) && tileFree s tile.val && permitted s r.cls tile.val) = true := by
      rw [hopen, decide_eq_true hphase, hdis, hvoter, decide_eq_true hkind, decide_eq_true hnot, hfree, hpermit]
      rfl
    have hexec : exec (.voterAssign id i tile) s = .next (if 20 ≤ tile.val then enterBank id i.val tile.val (modOp id i.val (fun o => { o with voter := some tile.val }) s)
        else modTile tile.val (fun u => { u with run := some (id, i.val) }) (modOp id i.val (fun o => { o with voter := some tile.val }) s)) := by
      refine congrArg Host.Outcome.next ?_
      rw [fxVoterAssign, withReq_some hreq]
      exact whenS_true hguard
    have hr1 := modOp_req_same i.val (fun o => { o with voter := some tile.val }) hreq
    have hvoted : (Req.op { r with ops := r.ops.modify i.val (fun o => { o with voter := some tile.val }) } i.val).voter = some tile.val := by
      rw [op_modify_same _ _ _ hi]
    have honly : Only [.reqs] s (modOp id i.val (fun o => { o with voter := some tile.val }) s) := Only.modOp _ _ _ _ (by decide) (Only.refl _ _)
    rw [hexec]
    generalize modOp id i.val (fun o => { o with voter := some tile.val }) s = x at hr1 honly
    by_cases hpk : 20 ≤ tile.val
    · rw [if_pos hpk]
      obtain ⟨hothers, hreqs⟩ := restIn_others id i.val tile.val x
      obtain ⟨r', hr', hph, hvoters⟩ := wakeBank_voter tile.val ((req_of_reqs hreqs id).trans hr1)
      refine ⟨_, rfl, Only.enterBank _ _ _ _ (by decide) (honly.mono (by decide)), ?_, ⟨r', hr', hph, (hvoters i.val).trans hvoted⟩, fun hlt => absurd hpk (by omega),
        fun _ => (enterBank_holds id i.val tile.val x).1⟩
      exact wakeBank_others fun k hk => (hothers k hk).trans (tile_of_tiles (honly.2 .tiles (by decide)) k)
    · rw [if_neg hpk]
      refine ⟨_, rfl, Only.modTile _ _ (by decide) (honly.mono (by decide)), fun k hk => ?_, ⟨_, hr1, rfl, hvoted⟩, fun _ => by rw [modTile_tile_same], fun h => absurd h hpk⟩
      rw [modTile_tile_ne _ _ hk, tile_of_tiles (honly.2 .tiles (by decide))]
      exact ⟨rfl, .inl rfl, .inl rfl⟩
  · have hid : r.id = id := req_id hreq
    have hruns : voterRuns s v (id, i.val) = true := by
      rw [voterRuns]
      rcases hvote with h | ⟨b, h⟩
      · rw [decide_eq_true h, Bool.true_or]
      · rw [h]
        simp
    have hguard : (tilesOpen s && decide (r.phase = .running) && decide ((r.op i.val).phase = .running) && (r.op i.val).disputed && voterRuns s v (id, i.val)) = true := by
      rw [hopen, decide_eq_true hphase, decide_eq_true hrun, hdis, hruns]
      rfl
    have hexec (verdict : Verdict) : exec (.voteResult id i verdict) s = .next (match verdict with
        | .lower => settle id (quarantine hi qPair true (voteDecided r i.val lo v 1 s))
        | .higher => settle id (quarantine lo qPair true (voteDecided r i.val hi v 2 s))
        | .neither => eachN [lo, hi, v] forceRound (endChain id ⟨0x61, 1, i.val⟩ (pairRecord r (r.op i.val) v 3 (modReq id (fun r => { r with voted := true }) s)))) := by
      refine congrArg Host.Outcome.next ?_
      rw [fxVoteResult, withReq_some hreq]
      dsimp only
      rw [hvoter, htiles]
      dsimp only
      rw [whenS_true hguard]
      subst hid
      cases verdict <;> rfl
    refine ⟨⟨_, hexec .lower, vote_quarantines hreq⟩, ⟨_, hexec .higher, vote_quarantines hreq⟩, ⟨_, hexec .neither, ?_⟩⟩
    have hhas : Has id r (pairRecord r (r.op i.val) v 3 (modReq id (fun r => { r with voted := true }) s)) := Has.pairRecord _ _ _ _ _ (Has.modReq _ _ (Has.refl hreq))
    have hseq : (pairRecord r (r.op i.val) v 3 (modReq id (fun r => { r with voted := true }) s)).jrn.seq = s.jrn.seq + 1 := journal_seq _ _ _ _
    dsimp only
    generalize pairRecord r (r.op i.val) v 3 (modReq id (fun r => { r with voted := true }) s) = x at hhas hseq
    obtain ⟨rx, hrx, ht, he⟩ := hhas
    have hended : EndedWith (endChain id ⟨0x61, 1, i.val⟩ x) id r ⟨0x61, 1, i.val⟩ := endStarts _ hrx ht he
    have hjrn := endChain_jrn (id := id) ⟨0x61, 1, i.val⟩ x
    generalize endChain id ⟨0x61, 1, i.val⟩ x = y at hended hjrn
    have hforce : Only [.sch, .tiles] y (eachN [lo, hi, v] forceRound y) := Only.eachN _ (Only.refl _ _) fun _ _ h => Only.forceRound _ _ (by decide) h
    obtain ⟨rz, hrz, hrest⟩ := hended
    refine ⟨?_, ⟨rz, (req_of_reqs (hforce.2 .reqs (by decide)) id).trans hrz, hrest⟩, forced_all lo hi v y⟩
    rw [show (eachN [lo, hi, v] forceRound y).jrn = y.jrn from hforce.2 .jrn (by decide), hjrn, hseq]

end Sys2Proof.PairsAndVotes
end

section
/-!
O28 fails: a paired operation that rests in a bank of a tile which is not among its own tiles lets the running one yield, and goes on elsewhere.
-/

namespace Sys2Proof.Yielding
open Sys2Proof.Machine

/-- A paired request whose operation has tiles 21 and 22 for its own. -/
def elsewhere : Req :=
  { id := 7, tenant := 0, origin := .ring 0, cls := 1, phase := .running, paired := true, ops := [{ w := { opc := 0x63 }, phase := .saved, tiles := [21, 22] }] }

/-- A serving engine with that request in flight: its operation rests in a bank of tile 20, whose other bank runs. -/
def heldElsewhere : State :=
  modTile 20 (fun u => { u with st := .healthy, bankA := .running 1 0, bankB := .resident 7 0 }) (modTile 21 (fun u => { u with st := .healthy })
    (modTile 22 (fun u => { u with st := .healthy }) { State.reset with
      start := { State.reset.start with serving := true }
      reqs := [elsewhere] }))

theorem heldElsewhere_holds : tilesOpen heldElsewhere = true ∧ (heldElsewhere.tile 20).st = .healthy ∧ pkRunning heldElsewhere 20 = some (1, 0, false) ∧
    heldElsewhere.req 1 = none ∧ runTiles heldElsewhere 20 (1, 0) = [20] ∧ resting (heldElsewhere.tile 20) = [(7, 0)] := by decide +kernel

theorem heldElsewhere_goesBefore : isService (keepLeft (1, 0) 0 heldElsewhere) 2 (7, 0) = false ∧
    mayRun (keepLeft (1, 0) 0 heldElsewhere) 20 (7, 0) [20] = true ∧
    clsOf (keepLeft (1, 0) 0 heldElsewhere) 7 < clsOf (keepLeft (1, 0) 0 heldElsewhere) 1 := by decide +kernel

/-- The tile whose operation has yielded runs nothing. -/
theorem heldElsewhere_rests : bankOf ((fxPkYieldPoint 0 0 false .clean heldElsewhere).tile 20) true = .resident 7 0 := by decide +kernel

/-- Refutes O28: where the tile that yields is not among the tiles of what rests in its other bank, that operation goes on on its own tiles, and its
bank here still rests. -/
theorem not_yields : ¬ Obligations.Yields := by
  unfold Obligations.Yields
  rintro ⟨-, hbank⟩
  obtain ⟨hopen, hst, hruns, hnone, hts, hrests⟩ := heldElsewhere_holds
  obtain ⟨hserv, hmay, hcls⟩ := heldElsewhere_goesBefore
  have hyields := hbank 0 1 0 0 false false heldElsewhere hopen hst hruns (fun r hr => by rw [hnone] at hr; cases hr)
  dsimp only at hyields
  rw [show 20 + (0 : Fin 4).val = 20 from rfl, hts] at hyields
  obtain ⟨t, hexec, -, -, hgoesOn⟩ := hyields fun x hx => by
    rw [List.mem_singleton.1 hx]
    exact ⟨(7, 0), by rw [hrests]; exact List.mem_singleton.2 rfl, by decide, hserv, hmay, Or.inr (Or.inr (Or.inl hcls))⟩
  have ht : fxPkYieldPoint 0 0 false .clean heldElsewhere = t := Host.Outcome.next.inj hexec
  have hrunning := (hgoesOn (7, 0) rfl hrests fun r hr => by rw [hnone] at hr; cases hr).2
  rw [← ht] at hrunning
  exact absurd (heldElsewhere_rests.symm.trans hrunning) (by decide)

end Sys2Proof.Yielding
end

section
/-!
What the quarantine of one tile leaves of the others, and of a request that has ended (R422, R423), and how an operation takes its tiles (R133, R158,
R182, R195), with the statement O27.
-/

namespace Sys2Proof.Machine

/-! ### The service record of a tile (R424) -/

/-- Tile n is in service as v says: its state, the cause of its last quarantine, and how often it was quarantined. -/
def Service (n : Nat) (v : TileSt × BitVec 3 × BitVec 2) (s : State) : Prop := ((s.tile n).st, (s.tile n).qcause, (s.tile n).qcount) = v

section
variable {n : Nat} {v : TileSt × BitVec 3 × BitVec 2} {s : State}

theorem Service.refl (n : Nat) (s : State) : Service n ((s.tile n).st, (s.tile n).qcause, (s.tile n).qcount) s := rfl

theorem Service.tiles (s t : State) (e : t.tiles = s.tiles) (h : Service n v s) : Service n v t := by
  rw [Service, tile_of_tiles e]
  exact h

theorem Service.only {A : List Part} {t : State} (h : Service n v s) (honly : Only A s t) (hA : Part.tiles ∉ A) : Service n v t :=
  .tiles _ _ (honly.2 .tiles hA) h

theorem Service.modTile_ne {t : Nat} (f : Tile → Tile) (hn : n ≠ t) (h : Service n v s) : Service n v (Machine.modTile t f s) := by
  rw [Service, modTile_tile_ne _ _ hn]
  exact h

theorem Service.modTile (t : Nat) {f : Tile → Tile} (hf : ∀ u, ((f u).st, (f u).qcause, (f u).qcount) = (u.st, u.qcause, u.qcount)) (h : Service n v s) :
    Service n v (Machine.modTile t f s) := by
  by_cases e : n = t
  · rw [Service, e, modTile_tile_same, hf, ← e]
    exact h
  · exact h.modTile_ne f e

theorem Service.freeTiles (id : Nat) (s : State) (h : Service n v s) : Service n v (Machine.freeTiles id s) :=
  eachN_ind _ _ _ h fun t _ hx => hx.modTile t fun _ => rfl

theorem Service.setBank (t : Nat) (b : Bool) (x : BankSt) (h : Service n v s) : Service n v (Machine.setBank t b x s) :=
  h.modTile t fun _ => by cases b <;> rfl

theorem Service.wakeBank (t : Nat) (h : Service n v s) : Service n v (Machine.wakeBank t s) := by
  rw [Service]
  rcases wakeBank_tile t s n with e | ⟨p, e⟩ <;> rw [e] <;> exact h

theorem Service.releaseOp (id i : Nat) (h : Service n v s) : Service n v (Machine.releaseOp id i s) := by
  rw [releaseOp_eq]
  refine eachN_ind _ _ _ h fun t x hx => ?_
  have hfree : Service n v (Machine.modTile t (Tile.free id i) x) := hx.modTile t fun _ => rfl
  rw [freeTile]
  split
  · exact hfree.wakeBank t
  · exact hfree

theorem Service.endChain (id : Nat) (o : Outcome) (h : Service n v s) : Service n v (Machine.endChain id o s) :=
  endChain_tiles Service.tiles Service.freeTiles id o h

theorem Service.settle (id : Nat) (h : Service n v s) : Service n v (Machine.settle id s) :=
  settle_tiles Service.tiles Service.freeTiles id h

theorem Service.rerunOp (id i : Nat) (h : Service n v s) : Service n v (Machine.rerunOp id i s) := by
  rw [Machine.rerunOp]
  split
  · exact h
  have hfreed := h.releaseOp id i
  generalize Machine.releaseOp id i s = x at hfreed ⊢
  dsimp only
  split <;> split <;> exact .tiles x _ rfl hfreed

theorem Service.rerunFrom (id i : Nat) (h : Service n v s) : Service n v (Machine.rerunFrom id i s) := by
  rw [Machine.rerunFrom]
  split
  · exact h
  · split
    · exact h.endChain _ _
    · exact eachN_ind _ _ _ h fun j _ hx => hx.rerunOp id j

theorem Service.loseOp (id i : Nat) (h : Service n v s) : Service n v (Machine.loseOp id i s) := by
  rw [Machine.loseOp]
  split
  · exact h.endChain _ _
  · exact (h.rerunFrom id i).settle id

theorem Service.dropRun (t : Nat) (keep : Bool) (p : Nat × Nat) (h : Service n v s) : Service n v (Machine.dropRun t keep p s) := by
  have hoff : Service n v (if tileKind t = 3 then Machine.setBank t ((s.tile t).bankB.holds p.1 p.2) (.zeroizing p.1) s
      else Machine.modTile t (fun u => { u with run := none }) s) := by
    split
    · exact h.setBank _ _ _
    · exact h.modTile t fun _ => rfl
  rw [Machine.dropRun]
  dsimp only
  split
  · exact .tiles _ _ rfl hoff
  · split
    · exact hoff
    · split
      · exact h.rerunFrom _ _
      · exact h.loseOp _ _

theorem Service.dropHold (k : Nat) (p : Nat × Nat) (h : Service n v s) : Service n v (Machine.dropHold k p s) :=
  eachN_ind _ _ _ h fun t _ hx => hx.modTile t fun _ => rfl

theorem streamTo_tiles (p : Nat × Nat) (x : Nat) (s : State) : (streamTo p x s).tiles = s.tiles :=
  (Only.streamTo p x s (A := [.streams]) (by decide) (Only.refl _ _)).2 .tiles (by decide)

theorem Service.shiftSaved (t x : Nat) (p : Nat × Nat) (h : Service n v s) : Service n v (Machine.shiftSaved t x p s) := by
  rw [Machine.shiftSaved]
  refine Service.modTile x (fun _ => rfl) (Service.modTile t (fun _ => rfl) ?_)
  split
  · exact .tiles _ _ ((streamTo_tiles ..).trans rfl) h
  · exact h

theorem Service.moveSaved (t : Nat) (move : Bool) (p : Nat × Nat) (h : Service n v s) : Service n v (Machine.moveSaved t move p s) := by
  have hnext : Service n v (nextFree s) := h
  rw [Machine.moveSaved]
  generalize nextFree s = x at hnext ⊢
  dsimp only
  split
  · exact hnext.shiftSaved _ _ _
  · split
    · exact hnext.dropHold _ _
    · split
      · exact hnext.endChain _ _
      · exact hnext.loseOp _ _

theorem Service.foldl {α : Type} {f : State → α → State} (l : List α) (h : Service n v s) (hf : ∀ x a, Service n v x → Service n v (f x a)) :
    Service n v (l.foldl f s) := by
  induction l generalizing s with
  | nil => exact h
  | cons a l ih => exact ih (hf s a h)

/-- The quarantine of another tile leaves a tile in service as it is. -/
theorem Service.quarantine {t : Nat} (cause : Nat) (keep : Bool) (hn : n ≠ t) (h : Service n v s) : Service n v (Machine.quarantine t cause keep s) := by
  have hmark (q : Option Nat) : Service n v (markQuarantine t cause q s) := by
    unfold markQuarantine
    refine Service.only ?_ (Only.journal _ _ _ _ (A := recordParts) (by decide) (Only.refl _ _)) (by decide)
    rw [Service, raiseG_tile]
    exact h.modTile_ne _ hn
  have hparked (x : State) (move : Bool) (hx : Service n v x) : Service n v (if 16 ≤ t ∧ t < 20 then moveParked t move x else x) := by
    split
    · exact hx.only (Only.moveParked _ _ _ (List.Subset.refl _) (Only.refl _ _)) (by decide)
    · exact hx
  rw [Machine.quarantine]
  exact settleAll_tiles Service.tiles Service.freeTiles
    (.foldl _ (hparked _ _ (.foldl _ (.foldl _ (hmark _) fun _ p hx => hx.dropRun t keep p) fun _ p hx => hx.moveSaved t _ p)) fun _ p hx => hx.dropRun t _ p)

theorem Service.qcount {t : State} (h : Service n ((s.tile n).st, (s.tile n).qcause, (s.tile n).qcount) t) : (t.tile n).qcount = (s.tile n).qcount :=
  congrArg (fun x => x.2.2) h

/-- A tile that has left service stays so while another one leaves it. -/
theorem OutOfService.quarantine {s0 : State} {c t : Nat} (cause : Nat) (keep : Bool) (hn : n ≠ t) (h : OutOfService s0 s n c) :
    OutOfService s0 (Machine.quarantine t cause keep s) n c := by
  have hserv := (Service.refl n s).quarantine cause keep hn
  exact ⟨(congrArg Prod.fst hserv).trans h.1, (congrArg (fun x => x.2.1) hserv).trans h.2.1, (quarantine_st t cause keep s).2⟩

end

/-! ### A request that has ended, through the quarantine of a tile that it has given up -/

/-- The tile holds nothing of request k. -/
structure Tile.Without (k : Nat) (u : Tile) : Prop where
  run : ∀ p ∈ u.run, k ≠ p.1
  saved : ∀ p ∈ u.saved, k ≠ p.1
  banks : ∀ p ∈ bankOps u, k ≠ p.1

/-- What a bank is as the tiles give up a request. -/
def BankSt.freeOf (id : Nat) (b : BankSt) : BankSt :=
  match b with
  | .loading q o => if q = id then .zeroizing id else .loading q o
  | .resident q o => if q = id then .zeroizing id else .resident q o
  | .running q o => if q = id then .zeroizing id else .running q o
  | x => x

theorem BankSt.freeOf_holds {id k i : Nat} {b : BankSt} (h : (b.freeOf id).holds k i = true) : b.holds k i = true ∧ k ≠ id := by
  cases b with
  | loading q o | resident q o | running q o =>
    rw [BankSt.freeOf] at h
    split at h
    next => simp [BankSt.holds] at h
    next hq =>
      refine ⟨h, fun e => hq ?_⟩
      simp only [BankSt.holds, reduceCtorEq, BankSt.loading.injEq, BankSt.resident.injEq, BankSt.running.injEq, false_or, or_false, decide_eq_true_eq] at h
      exact h.1.trans e
  | _ => simp [BankSt.freeOf, BankSt.holds] at h

theorem mem_bankOps {u : Tile} {p : Nat × Nat} : p ∈ bankOps u ↔ u.bankA.holds p.1 p.2 = true ∨ u.bankB.holds p.1 p.2 = true := by
  have hbank (b : BankSt) : (match b with
      | .loading id i => some (id, i)
      | .resident id i => some (id, i)
      | .running id i => some (id, i)
      | _ => none) = some p ↔ b.holds p.1 p.2 = true := by
    cases b <;> simp [BankSt.holds, Prod.ext_iff]
  simp only [bankOps, List.mem_filterMap, List.mem_cons, List.not_mem_nil, or_false, exists_eq_or_imp, exists_eq_left]
  exact or_congr (hbank _) (hbank _)

/-- What a tile gives up of a request. -/
def Tile.freeOf (id : Nat) (u : Tile) : Tile :=
  { u with
    run := if u.run.map Prod.fst = some id then none else u.run
    saved := u.saved.filter (fun p => p.1 ≠ id)
    bankA := u.bankA.freeOf id
    bankB := u.bankB.freeOf id }

theorem freeTiles_eq (id : Nat) (s : State) : freeTiles id s = eachN (List.range 24) (fun t s => modTile t (Tile.freeOf id) s) s := by
  unfold freeTiles Tile.freeOf BankSt.freeOf
  rfl

theorem Tile.freeOf_without (id : Nat) (u : Tile) : (u.freeOf id).Without id := by
  refine ⟨fun p hp => ?_, fun p hp => ?_, fun p hp => ?_⟩
  · simp only [Tile.freeOf] at hp
    split at hp
    · cases hp
    next hne =>
      rw [Option.mem_def] at hp
      rintro rfl
      exact hne (by rw [hp]; rfl)
  · exact Ne.symm (of_decide_eq_true (List.mem_filter.mp hp).2)
  · rcases mem_bankOps.mp hp with h | h
    · exact (BankSt.freeOf_holds h).2.symm
    · exact (BankSt.freeOf_holds h).2.symm

theorem Tile.Without.freeOf {k : Nat} {u : Tile} (id : Nat) (h : u.Without k) : (u.freeOf id).Without k := by
  refine ⟨fun p hp => ?_, fun p hp => h.saved p (List.mem_filter.mp hp).1, fun p hp => h.banks p (mem_bankOps.mpr ?_)⟩
  · simp only [Tile.freeOf] at hp
    split at hp
    · cases hp
    · exact h.run p hp
  · exact (mem_bankOps.mp hp).imp (fun h => (BankSt.freeOf_holds h).1) fun h => (BankSt.freeOf_holds h).1

theorem freeTiles_without {n : Nat} (id : Nat) (s : State) (hn : n < 24) : ((freeTiles id s).tile n).Without id := by
  rw [freeTiles_eq]
  exact eachN_at (P := fun _ => True) (Q := fun s => (s.tile n).Without id) hn trivial (fun _ _ _ _ _ => trivial)
    (fun s _ => by rw [modTile_tile_same]; exact Tile.freeOf_without id _)
    (fun t s _ hne hs => by rw [modTile_tile_ne _ _ hne.symm]; exact hs)

theorem Tile.Without.freeTiles {n k : Nat} (id : Nat) (s : State) (h : (s.tile n).Without k) : ((Machine.freeTiles id s).tile n).Without k := by
  rw [freeTiles_eq]
  refine eachN_ind (P := fun x : State => (x.tile n).Without k) _ _ _ h fun t x hx => ?_
  by_cases e : n = t
  · rw [e, modTile_tile_same]
    exact (e ▸ hx).freeOf id
  · rw [modTile_tile_ne _ _ e]
    exact hx

/-- A chain that has ended is on none of the tiles. -/
theorem endChain_without {n id : Nat} {r : Req} {s : State} (o : Outcome) (h : s.req id = some r) (hn : n < 24) : ((endChain id o s).tile n).Without id :=
  endChain_freed (P := fun x => (x.tile n).Without id) (fun s t e hs => by rw [tile_of_tiles e]; exact hs) Tile.Without.freeTiles o h (freeTiles_without id s hn)

section
variable {k : Nat} {r : Req} {s : State}

theorem ButOps.settle_ne {id : Nat} (hk : k ≠ id) (h : ButOps k r s) : ButOps k r (Machine.settle id s) :=
  Exists.imp (fun _ hreq => Oth.settle hk hreq) h

theorem ButOps.rerunFrom {id : Nat} (i : Nat) (hk : k ≠ id) (h : ButOps k r s) : ButOps k r (Machine.rerunFrom id i s) := by
  rw [Machine.rerunFrom]
  split
  · exact h
  · split
    · exact h.endChain _ hk
    · exact eachN_ind _ _ _ h fun j _ hx => hx.rerunOp j hk

theorem ButOps.loseOp {id : Nat} (i : Nat) (hk : k ≠ id) (h : ButOps k r s) : ButOps k r (Machine.loseOp id i s) := by
  rw [Machine.loseOp]
  split
  · exact h.endChain _ hk
  · exact (h.rerunFrom i hk).settle_ne hk

theorem ButOps.dropRun {p : Nat × Nat} (t : Nat) (keep : Bool) (hk : k ≠ p.1) (h : ButOps k r s) : ButOps k r (Machine.dropRun t keep p s) := by
  have hoff : ButOps k r (if tileKind t = 3 then Machine.setBank t ((s.tile t).bankB.holds p.1 p.2) (.zeroizing p.1) s
      else Machine.modTile t (fun u => { u with run := none }) s) := by
    split <;> exact h.reqs rfl
  rw [Machine.dropRun]
  dsimp only
  split
  · exact hoff.modOp _ _ _
  · split
    · exact hoff
    · split
      · exact h.rerunFrom _ hk
      · exact h.loseOp _ hk

theorem ButOps.shiftSaved (t x : Nat) (p : Nat × Nat) (h : ButOps k r s) : ButOps k r (Machine.shiftSaved t x p s) := by
  have hswap (f : OpSt → OpSt) : ButOps k r (if ownOp s (tileKind t) p then Machine.streamTo p x (Machine.modOp p.1 p.2 f s) else s) := by
    split
    · exact (h.modOp p.1 p.2 f).only (Only.streamTo _ _ _ (A := [.streams]) (by decide) (Only.refl _ _)) (by decide)
    · exact h
  rw [Machine.shiftSaved]
  exact (hswap _).reqs rfl

theorem ButOps.moveSaved {p : Nat × Nat} (t : Nat) (move : Bool) (hk : k ≠ p.1) (h : ButOps k r s) : ButOps k r (Machine.moveSaved t move p s) := by
  have hnext : ButOps k r (nextFree s) := h
  rw [Machine.moveSaved]
  generalize nextFree s = x at hnext ⊢
  dsimp only
  split
  · exact hnext.shiftSaved _ _ _
  · split
    · exact hnext.only (Only.dropHold _ _ _ (A := [.tiles]) (by decide) (Only.refl _ _)) (by decide)
    · split
      · exact hnext.endChain _ hk
      · exact hnext.loseOp _ hk

theorem ButOps.settleAll_ended (hphase : r.phase = .ended) (h : ButOps k r s) : ButOps k r (Machine.settleAll s) :=
  Exists.imp (fun _ hreq => ended_settleAll hreq hphase) h

/-- A request that has ended stays as it is while a tile that holds nothing of it leaves service. -/
theorem ButOps.quarantine {t : Nat} (cause : Nat) (keep : Bool) (hphase : r.phase = .ended) (hw : (s.tile t).Without k) (h : ButOps k r s) :
    ButOps k r (Machine.quarantine t cause keep s) := by
  have hmark (q : Option Nat) : ButOps k r (markQuarantine t cause q s) :=
    h.only (Only.markQuarantine _ _ _ _ (List.Subset.refl _) (Only.refl _ _)) (by decide)
  have hparked (x : State) (move : Bool) (hx : ButOps k r x) : ButOps k r (if 16 ≤ t ∧ t < 20 then moveParked t move x else x) := by
    split
    · exact hx.only (Only.moveParked _ _ _ (List.Subset.refl _) (Only.refl _ _)) (by decide)
    · exact hx
  rw [Machine.quarantine]
  exact .settleAll_ended hphase (.foldl _ (hparked _ _ (.foldl _ (.foldl _ (hmark _) fun _ p hp hx => hx.dropRun t keep (hw.run p (Option.mem_toList.mp hp)))
    fun _ p hp hx => hx.moveSaved t _ (hw.saved p hp))) fun _ p hp hx => hx.dropRun t _ (hw.banks p hp))

end

end Sys2Proof.Machine

namespace Sys2Proof.Allocation
open Sys2Proof.Machine

/-! ### Cipher and digest tiles (R133, R134, R158, R159) -/

/-- Operation i of a request waits for tiles of kind k, or is saved on the very tiles ts. -/
def WaitsOrSaved (s : State) (r : Req) (k id i t : Nat) (ts : List Nat) : Prop :=
  (waitsTile s r i = true ∧ streamPlace s r i t = true ∧ prefersReserved s k r.cls ts = true) ∨
    ((r.op i).phase = .saved ∧ (r.op i).tiles = ts ∧ ∀ x ∈ ts, (id, i) ∈ (s.tile x).saved)

section
variable {k id i t : Nat} {t2 : Option Nat} {ts : List Nat} {r : Req} {s : State}

theorem waitsTile_starts (h : waitsTile s r i = true) : r.canStart i = true := by
  rw [waitsTile, Bool.and_eq_true, Bool.and_eq_true] at h
  exact h.1.1

theorem WaitsOrSaved.lt (h : WaitsOrSaved s r k id i t ts) : i < r.ops.length := by
  rcases h with ⟨hwaits, -, -⟩ | ⟨hsaved, -, -⟩
  · exact (canStart_facts (waitsTile_starts hwaits)).2.1
  · exact op_lt' (by rw [hsaved]; decide)

theorem allocTile_starts (hreq : s.req id = some r) (hts : tilesOf r t t2 = some ts) (hopen : tilesOpen s = true) (hkind : kindOfW (r.op i).w = k)
    (h : WaitsOrSaved s r k id i t ts) (htake : ts.all (mayTake s k (id, i)) = true) : allocTile k id i t t2 s = startOn id i ts s := by
  rw [allocTile, withReq_some hreq]
  dsimp only
  rw [hts]
  dsimp only
  refine whenS_true ?_
  rw [hopen, htake, Bool.true_and, Bool.and_true]
  rcases h with ⟨hwaits, hplace, hres⟩ | ⟨hsaved, htiles, hon⟩
  · simp [hwaits, hplace, hres, hkind]
  · simpa [hsaved, htiles, hkind] using Or.inr hon

theorem not_isService (hreq : s.req id = some r) (hkind : kindOfW (r.op i).w = 2) : isService s 2 (id, i) = false := by
  have hdue : r.hashDue i = false := by
    rw [Req.hashDue]
    rw [hkind]
    exact Bool.and_false _
  rw [isService, hreq]
  exact hdue

theorem ownOp_of_kind (hreq : s.req id = some r) (hkind : kindOfW (r.op i).w = k) : ownOp s k (id, i) = true := by
  rw [ownOp, hreq]
  exact decide_eq_true hkind

end

theorem cipher_taken {id : Nat} {i : Fin 8} {tile : Fin 16} {second : Option (Fin 16)} {ts : List Nat} {r : Req} {s : State} (hreq : s.req id = some r)
    (hts : tilesOf r tile.val (second.map (fun x => x.val)) = some ts) (hopen : tilesOpen s = true) (hkind : kindOfW (r.op i.val).w = 1)
    (h : WaitsOrSaved s r 1 id i tile ts) (htake : ts.all (mayTake s 1 (id, i.val)) = true) :
    exec (.cipherTileAllocate id i tile second) s = .next (startOn id i ts s) :=
  congrArg Host.Outcome.next (allocTile_starts hreq hts hopen hkind h htake)

theorem not_stream_of_cipher {w : OpWord} (h : kindOfW w = 1) : isStream w = false := by
  rw [isStream]
  cases hd : isDigest w.opc with
  | false => rfl
  | true =>
    have hc : isCipher w.opc = false := by
      simp only [isDigest, Bool.or_eq_true, decide_eq_true_eq] at hd
      simp only [isCipher, Bool.or_eq_false_iff, decide_eq_false_iff_not]
      omega
    rw [kindOfW, kindOf, hc, hd] at h
    split at h
    · cases h
    · simp only [isDigest, Bool.or_eq_true, decide_eq_true_eq] at hd
      rw [if_neg (by rw [Bool.false_or, decide_eq_true_eq]; omega)] at h
      cases h

theorem digest_taken {id : Nat} {i : Fin 8} {tile : Fin 4} {second : Option (Fin 4)} {ts : List Nat} {r : Req} {s : State} (hreq : s.req id = some r)
    (hts : tilesOf r (16 + tile.val) (second.map (fun x => 16 + x.val)) = some ts) (hopen : tilesOpen s = true) (hkind : kindOfW (r.op i.val).w = 2)
    (hjob : isJob s 2 (id, i.val) = false) (h : WaitsOrSaved s r 2 id i (16 + tile.val) ts) (htake : ts.all (mayTake s 2 (id, i.val)) = true) :
    exec (.digestTileAllocate id i tile second .clean) s = .next (startOn id i ts s) := by
  refine congrArg Host.Outcome.next ?_
  have hclean : fxDigestTileAllocate id i tile second .clean s = if isJob s 2 (id, i.val) || isService s 2 (id, i.val) then
      allocService (id, i.val) (16 + tile.val) s else allocTile 2 id i.val (16 + tile.val) (second.map (fun x => 16 + x.val)) s := rfl
  rw [hclean, hjob, not_isService hreq hkind]
  exact allocTile_starts hreq hts hopen hkind h htake

theorem startOn_fails {id i : Nat} {ts : List Nat} {r : Req} {s : State} {f : Fail} (hreq : s.req id = some r) (hwaits : (r.op i).phase = .waiting)
    (hstream : isStream (r.op i).w = true) (hfail : partFail s r i = some f) : startOn id i ts s = endChain id (mkOut f i) s := by
  rw [startOn, hreq]
  dsimp only
  rw [hwaits, hstream, hfail]
  rfl

/-- A digest tile takes a hash for another operation, or work of the engine itself (R178, R515). -/
theorem service_taken {id : Nat} {i : Fin 8} {tile : Fin 4} {second : Option (Fin 4)} {s : State} (hopen : tilesOpen s = true)
    (hserv : isJob s 2 (id, i.val) = true ∨ isService s 2 (id, i.val) = true)
    (hfree : onTile s 2 (id, i.val) = false ∨ (id, i.val) ∈ (s.tile (16 + tile.val)).saved) (htake : mayTake s 2 (id, i.val) (16 + tile.val) = true) :
    exec (.digestTileAllocate id i tile second .clean) s = .next (holdTile (id, i.val) (16 + tile.val) s) := by
  refine congrArg Host.Outcome.next ?_
  have hclean : fxDigestTileAllocate id i tile second .clean s = if isJob s 2 (id, i.val) || isService s 2 (id, i.val) then
      allocService (id, i.val) (16 + tile.val) s else allocTile 2 id i.val (16 + tile.val) (second.map (fun x => 16 + x.val)) s := rfl
  rw [hclean, if_pos (by simpa using hserv), allocService]
  refine whenS_true ?_
  rcases hfree with h | h <;> simp [hopen, htake, h]

/-! ### A context whose check fails (R182, R431) -/

theorem restore_fails {id i t : Nat} {r : Req} {s : State} (hreq : s.req id = some r) (hkind : kindOfW (r.op i).w = 2) (hsaved : (id, i) ∈ (s.tile t).saved) :
    restoreFails (id, i) t s = tileUe t (endChain id ⟨0x61, 4, i⟩ s) := by
  rw [restoreFails]
  dsimp only
  rw [hreq]
  dsimp only
  rw [if_pos (by rw [ownOp_of_kind hreq hkind, decide_eq_true hsaved]; rfl)]

/-- A tile whose memory fails as a chain ends leaves service, and the chain has ended (R431). -/
theorem tileUe_ended {id t : Nat} {r : Req} {o : Outcome} {s : State} (hreq : s.req id = some r) (ht : t < 24) :
    EndedWith (tileUe t (endChain id o s)) id r o ∧ bitOf (tileUe t (endChain id o s)).evPend gUe = true ∧ OutOfService s (tileUe t (endChain id o s)) t 5 := by
  obtain ⟨r', hended, hten, hentry, hphase, hout⟩ := endChain_ends o hreq
  have hw := endChain_without o hreq ht
  have hserv := (Service.refl t s).endChain id o
  generalize endChain id o s = e at hended hw hserv ⊢
  have honly : Only recordParts e (journalUe (tileClass t) t e) := Only.journalUe _ _ _ (List.Subset.refl _) (Only.refl _ _)
  have hraise : Only (.evPend :: recordParts) e (raiseG gUe (journalUe (tileClass t) t e)) := Only.raiseG _ _ (by decide) (honly.mono (by decide))
  have hbit : Pend gUe (raiseG gUe (journalUe (tileClass t) t e)) := raiseG_bit _ _ (by decide)
  rw [tileUe]
  generalize raiseG gUe (journalUe (tileClass t) t e) = x at hraise hbit ⊢
  have htile : x.tile t = e.tile t := tiles_of_only hraise (by decide) t
  refine ⟨?_, Pend.quarantine _ _ _ _ hbit, (quarantine_out t qUe false x).from ?_⟩
  · exact (ButOps.quarantine qUe false hphase (htile ▸ hw) ((ButOps.of_req hended).only hraise (by decide))).ended hphase hout hten hentry
  · exact (congrArg Tile.qcount htile).trans hserv.qcount

/-! ### The banks of a public-key tile (R195) -/

/-- A bank of tile x holds operation i of request id. -/
def InBank (id i x : Nat) (s : State) : Prop := ((s.tile x).bankA.holds id i || (s.tile x).bankB.holds id i) = true

section
variable {id i x : Nat} {s : State}

theorem InBank.restIn (t : Nat) (h : x = t ∨ InBank id i x s) : InBank id i x (Machine.restIn id i t s) := by
  by_cases e : x = t
  · rw [InBank, Machine.restIn, setBank, e, modTile_tile_same]
    split <;> simp [BankSt.holds]
  · rw [InBank, (restIn_others id i t s).1 x e]
    exact h.resolve_left e

theorem InBank.restIns {l : List Nat} (h : x ∈ l ∨ InBank id i x s) : InBank id i x (eachN l (Machine.restIn id i) s) := by
  induction l generalizing s with
  | nil => exact h.resolve_left (List.not_mem_nil)
  | cons t l ih =>
    refine ih ?_
    rw [List.mem_cons] at h
    rcases h with (e | hl) | hin
    · exact Or.inr (.restIn t (Or.inl e))
    · exact Or.inl hl
    · exact Or.inr (.restIn t (Or.inr hin))

theorem InBank.wakeBank (t : Nat) (h : InBank id i x s) : InBank id i x (Machine.wakeBank t s) := by
  obtain ⟨hA, hB⟩ := wakeBank_holds t x id i s
  rw [InBank, hA, hB]
  exact h

theorem InBank.wakeBanks (h : InBank id i x s) : InBank id i x (Machine.wakeBanks s) := eachN_ind _ _ _ h fun t _ hx => hx.wakeBank t

end

/-- The state in which an operation has entered a bank of each of its tiles. -/
def entered (id i : Nat) (ts : List Nat) (s : State) : State :=
  wakeBanks (eachN ts (restIn id i) (modOp id i (fun o => { o with phase := .saved, tiles := ts, lastTile := ts.headD 0xFF }) s))

theorem entered_placed {id i : Nat} {ts : List Nat} {r : Req} {s : State} (hreq : s.req id = some r) (hi : i < r.ops.length) :
    Placed id i ts r (entered id i ts s) := by
  have hmod := modOp_req_same i (fun o => { o with phase := .saved, tiles := ts, lastTile := ts.headD 0xFF }) hreq
  rw [entered]
  generalize modOp id i _ s = y at hmod ⊢
  have hy : Placed id i ts r y := ⟨_, hmod, rfl, rfl, rfl, List.length_modify .., by rw [op_modify_same _ _ _ hi], by rw [op_modify_same _ _ _ hi]; simp only [ne_eq, reduceCtorEq, not_false_eq_true]⟩
  exact eachN_ind _ _ _ (eachN_ind _ _ _ hy fun t z hz => hz.reqs (restIn_others id i t z).2) fun t _ hz => hz.wakeBank t

theorem bank_taken {id : Nat} {i : Fin 8} {tile : Fin 4} {second : Option (Fin 4)} {ts : List Nat} {r : Req} {s : State} (hreq : s.req id = some r)
    (hts : tilesOf r (20 + tile.val) (second.map (fun x => 20 + x.val)) = some ts) (hwaits : waitsTile s r i.val = true)
    (hkind : kindOfW (r.op i.val).w = 3) (hbanks : banksFor s (id, i.val) ts = true) :
    exec (.pkBankAssign id i tile second) s = .next (settle id (entered id i ts s)) := by
  refine congrArg Host.Outcome.next ?_
  rw [fxPkBankAssign]
  dsimp only
  rw [hreq]
  dsimp only
  rw [hts]
  exact whenS_true (by rw [hwaits, hkind, hbanks]; rfl)

theorem job_enters {id : Nat} {tile : Fin 4} {second : Option (Fin 4)} {s : State} (hreq : s.req id = none) (hjob : isJob s 3 (id, 0) = true)
    (hon : onTile s 3 (id, 0) = false) (hbanks : banksFor s (id, 0) [20 + tile.val] = true) :
    exec (.pkBankAssign id 0 tile second) s = .next (enterBank id 0 (20 + tile.val) s) := by
  refine congrArg Host.Outcome.next ?_
  rw [fxPkBankAssign]
  dsimp only
  rw [hreq]
  exact whenS_true (by rw [show (0 : Fin 8).val = 0 from rfl, hjob, hon, hbanks]; rfl)

/-- Settles O27, by what the start of an operation leaves of its request and its tiles, by what a bank holds after it is taken, and by the end of a
chain through the quarantine of a tile that holds nothing of it any more. -/
theorem tilesTaken : Obligations.TilesTaken := by
  unfold Obligations.TilesTaken
  refine ⟨?_, ?_, ?_, ?_, ?_, ?_⟩
  · intro id i tile second ts r s hreq hts hopen hkind h htake
    have hws : WaitsOrSaved s r 1 id i tile ts := h
    exact ⟨_, cipher_taken hreq hts hopen hkind hws htake,
      startOn_runs hreq hws.lt fun hc => absurd hc.2 (by rw [not_stream_of_cipher hkind]; decide)⟩
  · intro id i tile second ts r s hreq hts hopen hkind hjob htake
    have hpref : prefersReserved s 2 r.cls ts = true := rfl
    refine ⟨fun h => ?_, fun f ⟨hwaits, hplace⟩ hstream hfail => ?_⟩
    · have hws : WaitsOrSaved s r 2 id i (16 + tile.val) ts := h.imp (fun hw => ⟨hw.1.1, hw.1.2, hpref⟩) fun hr => hr
      refine ⟨_, digest_taken hreq hts hopen hkind hjob hws htake, startOn_runs hreq hws.lt fun ⟨hphase, hstream⟩ => ?_⟩
      rcases h with ⟨-, hpart⟩ | ⟨hsaved, -⟩
      · exact hpart hstream
      · rw [hphase] at hsaved
        cases hsaved
    · have hphase := (canStart_facts (waitsTile_starts hwaits)).2.2
      refine ⟨_, digest_taken hreq hts hopen hkind hjob (Or.inl ⟨hwaits, hplace, hpref⟩) htake, ?_⟩
      rw [startOn_fails hreq hphase hstream hfail]
      exact endChain_ends _ hreq
  · intro id i tile second s hopen hserv hfree htake
    refine ⟨_, service_taken hopen hserv hfree htake, Only.holdTile _ _ _ (by decide) (Only.refl _ _), fun k hk => modTile_tile_ne _ _ hk, ?_⟩
    rw [holdTile, modTile_tile_same]
  · intro id i tile second r s hreq hkind hsaved
    have hexec : exec (.digestTileAllocate id i tile second .uncorrectable) s = .next (tileUe (16 + tile.val) (endChain id ⟨0x61, 4, i.val⟩ s)) :=
      congrArg Host.Outcome.next (restore_fails hreq hkind hsaved)
    exact ⟨_, hexec, tileUe_ended hreq (by omega)⟩
  · intro id i tile second ts r s hreq hts hwaits hkind hbanks
    obtain ⟨hrun, hi, -⟩ := canStart_facts (waitsTile_starts hwaits)
    exact ⟨_, bank_taken hreq hts hwaits hkind hbanks, settle_placed (P := fun u => (u.bankA.holds id i.val || u.bankB.holds id i.val) = true)
      (entered_placed hreq hi) (fun x hx => InBank.wakeBanks (.restIns (Or.inl hx))) hrun⟩
  · intro id tile second s hreq hjob hon hbanks
    exact ⟨_, job_enters hreq hjob hon hbanks, Only.enterBank _ _ _ _ (by decide) (Only.refl _ _),
      wakeBank_others (restIn_others id 0 (20 + tile.val) s).1, (enterBank_holds id 0 (20 + tile.val) s).1⟩

end Sys2Proof.Allocation
end

section
/-!
Derivations, random draws and attestation statements (R263 to R269, R288 to R297), with the statement O35.
-/

namespace Sys2Proof.Outputs
open Sys2Proof.Machine

section
variable {id : Nat} {op : Fin 8} {r : Req} {s : State}

/-! ### The kiln (R264, R266, R269) -/

/-- A kiln operation whose turn it is delivers what it derives. -/
theorem kilnRun_derives {opc i : Nat} (hreq : s.req id = some r) (hstart : r.canStart i = true) (hopen : s.sup.active = false)
    (hopc : (r.op i).w.opc = opc) (hfirst : kilnFirst s (id, i) = true) :
    RunsOn (kilnRun opc id i s) id r (fun r' => (r'.op i).phase = .done ∧ (r'.op i).output = kilnOut s r i) := by
  have hrun : kilnRun opc id i s = finishOp id i
      { res := { out := kilnOut s r i }, made := kilnOut s r i, attr := frD (r.par i), stamp := stampNow s (aMpol (frD (r.par i))) } s := by
    rw [kilnRun, withReq_some hreq]
    exact whenS_true (by rw [hstart, decide_eq_true hopc, hopen, hfirst]; rfl)
  rw [hrun]
  exact finishOp_runs _ hreq (canStart_facts hstart).2.1

/-! ### Random draws (R288 to R290) -/

theorem generateAdd_reqs {pr : Bool} {n : Nat} {add : Bytes} {order : List Nat} {b : Option Bytes} {t : State}
    (h : generateAdd pr n add order s = (b, t)) : t.reqs = s.reqs ∧ t.tiles = s.tiles := by
  have honly : Only [.notice, .ces, .es, .rbgs, .jrn, .evPend, .pviol, .pvcnt, .out] s t := Only.generateAdd_eq (List.Subset.refl _) h (Only.refl _ _)
  exact ⟨honly.2 .reqs (by decide), honly.2 .tiles (by decide)⟩

/-- What a draw whose turn it is does with the bytes of its generate call. -/
def drawn (id i : Nat) : Option Bytes × State → State
  | (none, s1) => endChain id ⟨0x61, 3, i⟩ s1
  | (some b, s1) => finishOp id i { res := { out := b } } s1

theorem randomDraw_draws (hreq : s.req id = some r) (hstart : r.canStart op.val = true) (hopen : s.sup.active = false) (hopc : (r.op op.val).w.opc = 0x94)
    (hturn : drawTurn s r = true) (hpool : fgPr (r.par op.val) = true → s.es.pool ≠ [] ∨ rbgHealthy s = false) :
    exec (.randomDraw id op) s = .next (drawn id op (generateAdd (fgPr (r.par op.val)) (fgOut (r.par op.val))
      (slice (r.par op.val) 8 (fgAddLen (r.par op.val))) (genOrder r.tenant.val) s)) := by
  refine congrArg Host.Outcome.next ?_
  have hblock : (fgPr (r.par op.val) && decide (s.es.pool = []) && rbgHealthy s) = false := by
    by_contra hc
    rw [Bool.not_eq_false, Bool.and_eq_true, Bool.and_eq_true, decide_eq_true_eq] at hc
    obtain ⟨⟨hpr, hempty⟩, hhealthy⟩ := hc
    rcases hpool hpr with h | h
    · exact h hempty
    · exact absurd hhealthy (by rw [h]; decide)
  rw [fxRandomDraw, withReq_some hreq]
  dsimp only
  rw [whenS_true (by rw [hstart, decide_eq_true hopc, hopen, hturn, hblock]; rfl)]
  rcases generateAdd (fgPr (r.par op.val)) (fgOut (r.par op.val)) (slice (r.par op.val) 8 (fgAddLen (r.par op.val))) (genOrder r.tenant.val) s with ⟨_ | b, s1⟩ <;> rfl

/-! ### Attestation statements (R293 to R297) -/

/-- The tiles of the two signatures that fail their result checks. -/
def badTiles (okC okQ : Bool) (a b : Nat) : List Nat := (if okC then [] else [a]) ++ (if okQ || (a = b && !okC) then [] else [b])

/-- What a statement comes to once its two signing keys have been drawn. -/
def signed (id i a b : Nat) (r : Req) (s : State) (okC okQ : Bool) (kC kQ : Bytes) (s2 : State) : State :=
  if !okC || !okQ then failChecks (badTiles okC okQ a b) s2
  else finishOp id i { res := { out := reqStatement s r (r.par i) kC kQ } } (useBank id b (useBank id a (modOp id i (fun o => { o with lastTile := a }) s2)))

/-- What a statement comes to once the key of its first signature has been drawn. -/
def signedOnce (id i a b : Nat) (r : Req) (s : State) (okC okQ : Bool) (kC : Bytes) : Option Bytes × State → State
  | (none, s2) => endChain id ⟨0x61, 3, i⟩ s2
  | (some kQ, s2) => signed id i a b r s okC okQ kC kQ s2

/-- The two draws of a statement on tiles a and b. -/
def signs (id i a b : Nat) (r : Req) (s : State) (okC okQ : Bool) : State :=
  match generate 512 (genOrder (a - 20)) s with
  | (none, s1) => endChain id ⟨0x61, 3, i⟩ s1
  | (some kC, s1) => signedOnce id i a b r s okC okQ kC (generate 64 (genOrder (b - 20)) s1)

theorem statement_unsigned (okC okQ : Bool) (hreq : s.req id = some r) (hstart : r.canStart op.val = true) (hopen : tilesOpen s = true)
    (hopc : (r.op op.val).w.opc = 0x95) (hnone : healthyOf s 3 = [] ∨ healthyOf s 2 = []) :
    exec (.attestationStatement id op okC okQ) s = .next (endChain id ⟨0x61, 2, op.val⟩ s) := by
  refine congrArg Host.Outcome.next ?_
  rw [fxAttestationStatement, withReq_some hreq, whenS_true (by rw [hopen, hstart, decide_eq_true hopc]; rfl)]
  exact if_pos hnone

theorem statement_signs {a b : Nat} (okC okQ : Bool) (hreq : s.req id = some r) (hstart : r.canStart op.val = true) (hopen : tilesOpen s = true)
    (hopc : (r.op op.val).w.opc = 0x95) (hpk : healthyOf s 3 ≠ []) (hdt : healthyOf s 2 ≠ []) (hfirst : pkFirst s (id, op.val) = true)
    (htiles : signTiles s = some (a, b)) : exec (.attestationStatement id op okC okQ) s = .next (signs id op a b r s okC okQ) := by
  refine congrArg Host.Outcome.next ?_
  rw [fxAttestationStatement, withReq_some hreq, whenS_true (by rw [hopen, hstart, decide_eq_true hopc]; rfl)]
  rw [if_neg (by rintro (h | h); exact hpk h; exact hdt h), whenS_true hfirst]
  rw [htiles]
  dsimp only [signs]
  rcases generate 512 (genOrder (a - 20)) s with ⟨_ | kC, s1⟩
  · rfl
  · dsimp only [signedOnce]
    rcases generate 64 (genOrder (b - 20)) s1 with ⟨_ | kQ, s2⟩ <;> rfl

/-- Every tile whose result check fails has left service, and the request is still there (R203, R297). -/
theorem failChecks_facts {bad : List Nat} (hreq : s.req id = some r) (hnodup : bad.Nodup) :
    StillThere (failChecks bad s) id r ∧ ∀ t ∈ bad, OutOfService s (failChecks bad s) t 2 := by
  have hkeeps : ∀ (l : List Nat) (x : State) (t : Nat), t ∉ l → OutOfService s x t 2 → OutOfService s (failChecks l x) t 2 := by
    intro l
    induction l with
    | nil => exact fun _ _ _ h => h
    | cons u l ih => exact fun x t ht h => ih _ t (fun hm => ht (List.mem_cons_of_mem _ hm)) (h.quarantine _ _ fun e => ht (e ▸ List.mem_cons_self ..))
  have hall : ∀ (l : List Nat) (x : State), l.Nodup → (∀ t ∈ l, (x.tile t).qcount = (s.tile t).qcount) → ∀ t ∈ l, OutOfService s (failChecks l x) t 2 := by
    intro l
    induction l with
    | nil => exact fun _ _ _ t ht => absurd ht List.not_mem_nil
    | cons u l ih =>
      intro x hl hq t ht
      obtain ⟨hu, hl⟩ := List.nodup_cons.mp hl
      rcases List.mem_cons.mp ht with rfl | ht
      · exact hkeeps l _ t hu ((quarantine_out t qResult false x).from (hq t (List.mem_cons_self ..)))
      · refine ih _ hl (fun v hv => ?_) t ht
        exact ((Service.refl v x).quarantine qResult false fun e : v = u => hu (e ▸ hv)).qcount.trans (hq v (List.mem_cons_of_mem _ hv))
  exact ⟨Has.foldl bad (.refl hreq) fun _ _ h => Has.quarantine _ _ _ _ h, hall bad s hnodup fun _ _ => rfl⟩

theorem badTiles_nodup (okC okQ : Bool) (a b : Nat) : (badTiles okC okQ a b).Nodup := by
  unfold badTiles
  by_cases hab : a = b <;> cases okC <;> cases okQ <;> simp [hab]

/-- A tile whose result check fails is among those that leave service. -/
theorem mem_badTiles (okC okQ : Bool) (a b : Nat) : (okC = false → a ∈ badTiles okC okQ a b) ∧ (okQ = false → b ∈ badTiles okC okQ a b) := by
  unfold badTiles
  by_cases hab : a = b <;> cases okC <;> cases okQ <;> simp [hab]

/-- Both signatures pass their result checks. -/
theorem signed_delivers {i : Nat} {a b : Nat} {kC kQ : Bytes} {s2 : State} (hreq : s2.req id = some r) (hi : i < r.ops.length) :
    RunsOn (signed id i a b r s true true kC kQ s2) id r (fun r' => (r'.op i).phase = .done ∧ (r'.op i).output = reqStatement s r (r.par i) kC kQ) := by
  have hlast := modOp_req_same i (fun o => { o with lastTile := a }) hreq
  rw [signed, if_neg (by decide)]
  generalize modOp id i _ s2 = x at hlast ⊢
  have hused : (useBank id b (useBank id a x)).req id = some { r with ops := r.ops.modify i fun o => { o with lastTile := a } } := hlast
  exact (finishOp_runs { res := { out := reqStatement s r (r.par i) kC kQ } } hused (by simpa using hi)).of_req rfl rfl rfl

end

/-- Settles O35, by the end of an operation for what is derived, drawn or signed, and by the tiles that leave service one after another where result
checks fail. -/
theorem derivedOutputs : Obligations.DerivedOutputs := by
  unfold Obligations.DerivedOutputs
  refine ⟨?_, ?_⟩
  · intro id op r s hreq hstart hopen
    refine ⟨fun hopc hfirst => ⟨_, rfl, kilnRun_derives hreq hstart hopen hopc hfirst⟩, fun hopc hfirst => ⟨_, rfl, kilnRun_derives hreq hstart hopen hopc hfirst⟩,
      fun hopc hfirst => ⟨_, rfl, kilnRun_derives hreq hstart hopen hopc hfirst⟩, fun hopc hturn hpool => ?_⟩
    have hexec := randomDraw_draws hreq hstart hopen hopc hturn hpool
    refine ⟨fun b s1 hgen => ⟨_, hexec, ?_⟩, fun s1 hgen => ⟨_, hexec, ?_⟩⟩ <;> rw [hgen]
    · exact finishOp_runs _ ((req_of_reqs (generateAdd_reqs hgen).1 id).trans hreq) (canStart_facts hstart).2.1
    · exact endChain_ends _ ((req_of_reqs (generateAdd_reqs hgen).1 id).trans hreq)
  · intro id op r s hreq hstart hopen hopc
    refine ⟨fun hnone => ⟨_, statement_unsigned true true hreq hstart hopen hopc hnone, endChain_ends _ hreq⟩, ?_⟩
    intro hpk hdt hfirst a b htiles
    have hexec (okC okQ : Bool) := statement_signs okC okQ hreq hstart hopen hopc hpk hdt hfirst htiles
    refine ⟨fun kC kQ s1 s2 hC hQ => ⟨_, hexec true true, ?_⟩, fun kC kQ s1 s2 hC hQ okC okQ hbad => ⟨_, hexec okC okQ, ?_⟩,
      fun s1 hC => ⟨_, hexec true true, ?_⟩, fun kC s1 s2 hC hQ => ⟨_, hexec true true, ?_⟩⟩
    · obtain ⟨hreqs1, -⟩ := generateAdd_reqs hC
      obtain ⟨hreqs2, -⟩ := generateAdd_reqs hQ
      rw [signs, hC]
      dsimp only
      rw [hQ]
      exact signed_delivers ((req_of_reqs (hreqs2.trans hreqs1) id).trans hreq) (canStart_facts hstart).2.1
    · obtain ⟨hreqs1, htiles1⟩ := generateAdd_reqs hC
      obtain ⟨hreqs2, htiles2⟩ := generateAdd_reqs hQ
      have hqcount (t : Nat) : (s2.tile t).qcount = (s.tile t).qcount := congrArg Tile.qcount (tile_of_tiles (htiles2.trans htiles1) t)
      obtain ⟨hthere, hout⟩ := failChecks_facts ((req_of_reqs (hreqs2.trans hreqs1) id).trans hreq) (badTiles_nodup okC okQ a b)
      obtain ⟨hmemC, hmemQ⟩ := mem_badTiles okC okQ a b
      have hsigned : signs id op a b r s okC okQ = failChecks (badTiles okC okQ a b) s2 := by
        rw [signs, hC]
        dsimp only
        rw [hQ]
        exact if_pos (by rw [← Bool.not_and, hbad]; rfl)
      rw [hsigned]
      exact ⟨hthere, fun h => (hout a (hmemC h)).from (hqcount a), fun h => (hout b (hmemQ h)).from (hqcount b)⟩
    · rw [signs, hC]
      exact endChain_ends _ ((req_of_reqs (generateAdd_reqs hC).1 id).trans hreq)
    · rw [signs, hC]
      dsimp only
      rw [hQ]
      exact endChain_ends _ ((req_of_reqs ((generateAdd_reqs hQ).1.trans (generateAdd_reqs hC).1) id).trans hreq)

end Sys2Proof.Outputs
end
